-- ==== Sys2Proof/Word.lean ====
section
/-! DEFINITION. The word types of the DX9600's registers, entries and data streams. -/
namespace Sys2Proof

/-- One byte of a host stream, a slot or a keeper flash unit. -/
abbrev Byte := BitVec 8

/-- One 32-bit register or one dword of an entry. -/
abbrev Word := BitVec 32

/-- One 64-bit quantity that software reads as bits (AET, a map entry, a guard). -/
abbrev Dword := BitVec 64

/-- The condition word of Table 1-8 and the status word of Table 5-1 are 16 bits wide. -/
abbrev Half := BitVec 16

end Sys2Proof
end

