-- ==== Sys2Proof/Syntax.lean ====
section
/-! DEFINITION. The commands of the DX9600: one constructor of `Instr` per row of spec/opcode_table.json, with what the
outside world supplies to that step (what a PCIe read returned, what a die or a pin did, in which fabric cycle) as operands. -/
namespace Sys2Proof

/-- A Jisel port (R83). -/
inductive Port where
  | a | b
  deriving DecidableEq, Repr

/-- A register named in a write: by its offset in BAR0 or in the sideband's map; or one of the two configuration-space registers that the
manual's rules rest on, whose offsets it leaves to the base specification: BAR0, low and high dword (R83), MSI-X control (R86, R114) and L1
substates control (Table 20-2). -/
inductive RegAddr where
  | window (offset : Nat)
  | bar0 (high : Bool)
  | msixControl
  | l1Substates
  deriving DecidableEq, Repr

/-- Who accesses a register: the host of a port, or the sideband controller (R62, R485). -/
inductive Requester where
  | portA | portB | sideband
  deriving DecidableEq, Repr

/-- Medium address of one 4 KiB slot (Table 8-2). -/
structure Madr where
  bay : Nat
  channel : Nat
  die : Nat
  plane : Nat
  block : Nat
  page : Nat
  slot : Nat
  deriving DecidableEq, Repr

/-- A die, named by bay, channel and die (R518). -/
structure DieId where
  bay : Nat
  channel : Nat
  die : Nat
  deriving DecidableEq, Repr

/-- A data list entry (Table 6-6). -/
structure ListEntry where
  addr : Nat
  len : Nat
  reserved : Word
  deriving DecidableEq, Repr

/-- What a read of a data list returned: its bytes from LIST_ADDR on, or those before the entry whose read ended with fault kind 1 to 4 of
Table 5-5. -/
inductive ListRead where
  | entries (bs : List Byte)
  | fault (before : List Byte) (kind : Nat)
  deriving DecidableEq, Repr

/-- What the fetch of a host stream returned: the bytes of the extents joined in order, or those before the extent
(0 EXT0, n list entry n - 1) whose read ended with fault kind 1 to 4 (R126, R127, Table 5-5). For a list of more than 64 entries, which is not
summed at admission, `listed`: the list as its entries were read, and the bytes of the extents read, with the extent, offset and kind of a data
read that failed. -/
inductive HostFetch where
  | bytes (bs : List Byte)
  | fault (before : List Byte) (extent offset kind : Nat)
  | listed (list : ListRead) (bs : List Byte) (bad : Option (Nat × Nat × Nat))
  deriving DecidableEq, Repr

/-- How a sequencer program ended (R37). -/
inductive SeqOutcome where
  | done | statusFail | timeout
  deriving DecidableEq, Repr

/-- The exclusive and shared claimants of Table 11-3, in number order. -/
inductive Agent where
  | rebuild | reserveReclaim | refresh | evacuate | reclaim | patrol
  deriving DecidableEq, Repr

/-- What a maintenance agent draws a slot for (R20, R73). -/
inductive DrawKind where
  | journalFlush | checkpoint | urgentWriteback | systemErase | reserveReclaim | rebuildNoParity
  | failedOpenSet | secondLadder
  | reclaim | refresh | patrol | wakeSweep | rebuild | evacuate | commissioning | descriptorRewrite
  deriving DecidableEq, Repr

/-- The six streams of Table 9-1. -/
inductive Stream where
  | hostFine | hostCoarse | relocFine | relocCoarse | map | system
  deriving DecidableEq, Repr

/-- What starts a checkpoint (R247). -/
inductive CkptTrigger where
  | grid | hostData | shutdown | restartEnd | bayChange
  deriving DecidableEq, Repr

/-- One logical block: its 4,096 data bytes, its 48 bytes of host metadata and its check field (R148, Table 6-3). -/
structure Block where
  data : List Byte
  hostMeta : List Byte
  guard : BitVec 64
  appTag : BitVec 16
  refTag : BitVec 48
  deriving DecidableEq, Repr

/-- The payload that an LDPC decode offers as a candidate for a slot (R302): what the slot was written with, or other
content, with the number of corrected bits. -/
inductive DecodeResult where
  | failed
  | asWritten (corrected : Nat)
  | other (b : Block) (corrected : Nat)
  deriving DecidableEq, Repr

/-- A unit a reader asked for: the context and LBA of a host command, an agent's copy of a map unit, or a tile. -/
inductive Reader where
  | command (cid lba : Nat)
  | agent (a : Agent) (ns lba : Nat)
  /-- the tile of a segment, for a lookup that has to read it from the medium. -/
  | tile (ns seg : Nat)
  deriving DecidableEq, Repr

/-- One run of a MAP record (Table 10-3, R245). -/
structure Run where
  lba : Nat
  madr : Madr
  count : Nat
  deriving DecidableEq, Repr

/-- A journal record's payload, by TYPE of Tables 10-3, 14-4 and 15-4. -/
inductive JRec where
  | map (csn origin ns : Nat) (runs : List Run)
  | dealloc (csn ns lba count : Nat)
  /-- `tile`: the units of a segment whose tile no rung could read (R211). -/
  | lost (ns lba count aet : Nat) (tile : Bool)
  | tileHome (ns seg : Nat) (home : Madr) (capture gen : Nat)
  | nspace (csn nsid : Nat) (create : Bool) (format : Nat) (fine : Bool) (segments aet : Nat)
  | setOpen (seq : Nat) (stream : Stream) (profile w p unit rows openAet : Nat) (cols : List (Nat × Madr))
  | setClose (seq : Nat) (lastValid firstAbandoned : Option Nat)
  | release (block : Madr)
  | erased (block : Madr) (pe : Nat)
  | retire (block : Madr) (cause : Nat)
  | csnReserve (first : Nat)
  | checkpoint (ckptSeq : Nat) (root : Option Madr)
  | memberFail (bay : Nat) (die : Option Nat) (profile uid : Nat)
  | standInOpen (seq col : Nat) (page0 : Madr)
  | standInDone (seq col : Nat)
  | rebuildState (state rowsDone : Nat)
  | bayState (bay old new : Nat) (profile : Option Nat) (uid : Nat)
  | evacProgress (bay left : Nat)
  | importDone (ckptSeq csn : Nat)
  deriving DecidableEq, Repr

/-- A journal record with its sequence number and where it stands (R243, R246). -/
structure StagedRec where
  jseq : Nat
  body : JRec
  /-- in two DRAM copies and, in a twin, acknowledged (R243). -/
  durable : Bool
  /-- programmed into a JOURNAL page of a settled row, or carried by a hold-up record (R246, R253). -/
  onMedium : Bool
  deriving DecidableEq, Repr

/-- An admission slot (Table 10-1). -/
structure AdmSlot where
  csn : Nat
  firstLba : Nat
  blockCount : Nat
  port : Port
  queue : Nat
  tag : Nat
  sqIndex : Nat
  opcode : Nat
  ns : Nat
  performed : Bool
  blockStart : Bool
  result0 : Word
  result1 : Word
  status : Half
  deriving DecidableEq, Repr

/-- An entry of a stripe-journal record (Table 14-2). -/
structure SjEntry where
  seq : Nat
  safeRow : Nat
  limitRow : Nat
  stream : Stream
  profile : Nat
  deriving DecidableEq, Repr

/-- The kinds of stop record (Table 10-9). -/
inductive StopKind where
  | restarted | powerFail | reset | shutdown | failed
  deriving DecidableEq, Repr

/-- A stop record (Table 10-9). -/
structure StopRec where
  kind : StopKind
  holdupIssued : Bool
  stopSeq : Nat
  aetStop : Dword
  root : Option Madr
  ckptSeq : Nat
  /-- HOLDUP_MADR: first slot of the hold-up record. -/
  holdupMadr : Option Madr := none
  holdupSeq : Nat
  lastJseq : Nat
  csnLast : Nat
  deriving DecidableEq, Repr

/-- The twin roles of Table 16-2, in the PORT_STATUS.ROLE encoding. -/
inductive Role where
  | solo | active | standby | syncing | fenced
  deriving DecidableEq, Repr

/-- What a PAIR_HELLO frame carries (Table 16-5). -/
structure PairHello where
  serial : List Byte
  seat : Bool
  linkLevel : Nat
  linkLevelMin : Nat
  clusterFw : Dword
  imageId : Dword
  hash : BitVec 384
  deriving DecidableEq, Repr

/-- A posted completion as a COMPLETE frame tells it (Table 16-5). -/
structure PostedRef where
  csn : Nat
  port : Port
  queue : Nat
  cqIndex : Nat
  phase : Bool
  status : Half
  deriving DecidableEq, Repr

/-- A doorbell value as a DOORBELL frame tells it (Table 16-5). -/
structure DoorbellRef where
  port : Port
  queue : Nat
  isCqHead : Bool
  value : Nat
  deriving DecidableEq, Repr

/-- A queue as the queue table of the standby holds it (R389): state 0 DISABLED, 1 ACTIVE, 2 FROZEN, 3 RESTARTING. -/
structure QueueImage where
  port : Port
  qid : Nat
  st : Nat
  sqBase : Nat
  cqBase : Nat
  sqEntries : Nat
  cqEntries : Nat
  vector : Nat
  prio : Nat
  coalCount : Nat
  coalTime : Nat
  resumeIndex : Nat
  cqNext : Nat
  phase : Bool
  sqTail : Nat
  cqHead : Nat
  deriving DecidableEq, Repr

/-- A command's effect outside the map, as a STATE frame tells it (Table 16-5): CSN, STATUS, KIND, results, and the changed
state: a feature's words, a queue, or the port whose RESUMPTION log was cleared. -/
structure StateRef where
  csn : Nat
  status : Half
  kind : Nat
  result0 : Word
  result1 : Word
  feature : Option (Nat × List Word)
  queue : Option QueueImage
  log : Option Port
  /-- the pair record is erased (TWIN_CONTROL UNPAIR, R399). -/
  unpair : Bool := false
  deriving DecidableEq, Repr

/-- The frame header checks of R386: whether the CRC passed, and FSEQ. -/
structure FrameHead where
  crcOk : Bool
  fseq : Nat
  deriving DecidableEq, Repr

/-- A queue record of the RESUMPTION log (Table 5-9). -/
structure QueueRec where
  queue : Nat
  st : Nat
  resumeIndex : Nat
  sqTail : Nat
  cqNext : Nat
  cqPhase : Bool
  records : Nat
  deriving DecidableEq, Repr

/-- A command record of the RESUMPTION log (Table 5-10). -/
structure CmdRec where
  csn : Nat
  result0 : Word
  result1 : Word
  queue : Nat
  performed : Bool
  status : Half
  sqIndex : Nat
  tag : Nat
  opcode : Nat
  deriving DecidableEq, Repr

/-- The RESUMPTION log of a port, in keeper flash (R140, R141). -/
structure ResLog where
  /-- GENERATION, 64 bits, never reset (Table 5-8). -/
  generation : Nat
  /-- KIND of the latest interruption, 4 bits. -/
  kind : Nat
  /-- INTERRUPTIONS since the last ACK, 16 bits, saturating. -/
  interruptions : Nat
  aetStop : Nat
  aetResume : Nat
  csnLast : Nat
  csnNext : Nat
  unclean : Bool
  queues : List QueueRec
  cmds : List CmdRec
  /-- the log of the latest interruption is complete (R139). -/
  complete : Bool
  deriving DecidableEq, Repr

/-- Namespace states (Table 7-3). -/
inductive NsState where
  | creating | ready | deleting
  deriving DecidableEq, Repr

/-- A namespace (Table 7-3). -/
structure Namespace where
  nsid : Nat
  st : NsState
  format : Nat
  fine : Bool
  segments : Nat
  createdAet : Nat
  /-- numbers of its directory blocks, in the order of its list (R199). -/
  dirs : List Nat := []
  deriving DecidableEq, Repr

/-- A tile entry that is not plainly UNWRITTEN: its slot, where it has one, and LOST (Table 8-3). -/
structure TileEnt where
  unit : Nat
  madr : Option Madr
  lost : Bool
  deriving DecidableEq, Repr

/-- A tile (Table 8-6): the entries that are not UNWRITTEN, by ascending unit. -/
structure Tile where
  ents : List TileEnt
  /-- GENERATION, 64 bits (R195). -/
  generation : Nat
  /-- HOME_MADR; none is NO_HOME (R190). -/
  home : Option Madr
  /-- LAST_CSN, 64 bits (R195). -/
  lastCsn : Nat
  /-- JSEQ since which the tile is dirty; none is clean (R203, R248). -/
  dirtySince : Option Nat
  deriving DecidableEq, Repr

/-- What a segment holds (Table 8-1); UNWRITTEN segments are not listed. -/
inductive SegKind where
  | coarse (first : Madr)
  | fine (t : Tile)
  deriving DecidableEq, Repr

/-- A directory entry that is not UNWRITTEN (R185). -/
structure Seg where
  ns : Nat
  seg : Nat
  kind : SegKind
  deriving DecidableEq, Repr

/-- A LOST_LBA entry (chapter 07). -/
structure LostEnt where
  ns : Nat
  lba : Nat
  count : Nat
  aet : Nat
  deriving DecidableEq, Repr

/-- A stand-in column of a set (R349, R350). -/
structure StandIn where
  col : Nat
  page0 : Madr
  /-- rows below this one are settled on the stand-in. -/
  rowsDone : Nat
  done : Bool
  deriving DecidableEq, Repr

/-- A stripe set as its header and the journal tell it (R214, Table 9-5). -/
structure SetRec where
  seq : Nat
  stream : Stream
  profile : Nat
  w : Nat
  p : Nat
  stripeUnit : Nat
  rows : Nat
  openAet : Nat
  /-- column, page 0 slot 0 of the block. -/
  cols : List (Nat × Madr)
  closed : Bool
  lastValid : Option Nat
  firstAbandoned : Option Nat
  standIns : List StandIn
  deriving DecidableEq, Repr

/-- The verify reads of a page (R230): corrected bits of codeword 0 as it hard-decoded, none where it failed, and those of all four codewords where
the whole page was read. -/
structure VerifyRead where
  page : Madr
  first : Option Nat
  whole : List (Option Nat)
  deriving DecidableEq, Repr

/-- Block states (Table 9-6). -/
inductive BlkSt where
  /-- ERASED, and taken for a column whose page 0 has not finished DONE yet (R231). -/
  | taken
  | erased | opened | closed | verified | retired
  deriving DecidableEq, Repr

/-- A block table entry (Table 10-6). VALID_SLOTS is counted from the map (R265). -/
structure BlockRec where
  /-- MADR of page 0 slot 0. -/
  addr : Madr
  seq : Nat
  st : BlkSt
  released : Bool
  pe : Nat
  deriving DecidableEq, Repr

/-- The map and the tables that a checkpoint carries and the journal brings forward (R198, R248). -/
structure MapImg where
  /-- namespace table, 64 entries (Table 10-4). Reset empty. -/
  nss : List Namespace
  /-- segment directory with its tiles (R199). Reset empty. -/
  segs : List Seg
  /-- LOST_LBA, ordered by namespace and LBA (R360). Reset empty. -/
  lost : List LostEnt
  /-- stripe sets not yet released (R214). Reset empty. -/
  sets : List SetRec
  /-- block table: blocks other than ERASED ones never opened (Table 10-6). Reset empty. -/
  blocks : List BlockRec
  deriving DecidableEq, Repr

/-- A piece of the active's state as a SYNC_PIECE frame carries it (Table 16-5): KINDs 9 to 13, records of the journal, and KINDs 1 to 5 of
Table 10-5, each with the part of the map and tables that it holds. -/
inductive SyncPiece where
  | slots (ss : List AdmSlot)
  | queues (qs : List QueueImage)
  | features (fs : List (Nat × List Word))
  | namespaces (nss : List Namespace)
  | log (port : Port) (l : ResLog)
  | directory (segs : List Seg)
  | blockTable (blocks : List BlockRec)
  | directoryRoot
  | lostLbas (es : List LostEnt)
  | sets (ss : List SetRec)
  deriving DecidableEq, Repr

/-- What a twin chip sends (Table 16-5). -/
inductive Frame where
  | heartbeat (role : Role) (cond : Half) (state : BitVec 4) (act fault : Bool) (aet : Dword) (csnLast jseq : Nat)
  | ack (fseq : Nat)
  | admitted (slots : List AdmSlot)
  | journal (recs : List StagedRec)
  | state (r : StateRef)
  | complete (ps : List PostedRef)
  | doorbell (ds : List DoorbellRef)
  | frontier (es : List SjEntry)
  | stop (r : StopRec)
  | failing (cond : Half)
  | handOver (sets : List (Nat × Nat))
  | syncPiece (piece : SyncPiece) (capture : Nat)
  | syncEnd (csnLast : Nat)
  | pairHello (h : PairHello)
  | pairKey (point : List Byte)
  | pairConfirm (bytes : List Byte)
  deriving DecidableEq, Repr

/-- What the keeper finds when it boots (R455, R503, R506): the straps as sampled, and what start-up tests return. -/
structure BootEnv where
  twinEn : Bool
  twinSeat : Bool
  sbAddr : BitVec 3
  boardId : BitVec 4
  /-- OWN_PEER_N low. -/
  peerOwn : Bool
  lockstepOk : Bool
  dramTrained : Bool
  dramMib : Nat
  clustersStarted : Bool
  sensor15 : Int
  deriving DecidableEq, Repr

/-- What an inserted bay answers when it is read (R32, R33, R236 to R239, R365). -/
structure BaySurvey where
  /-- recognition pattern of each die present, by 32 x channel + die. -/
  dies : List (Nat × Nat)
  faultLow : Bool
  /-- data areas of the pages of copies A and B as the built-in read gave them, in the order of R236. -/
  pagesA : List (List Byte)
  pagesB : List (List Byte)
  rawBytes : Nat
  /-- manufacturer and model of die 0, ASCII (Table 7-4). -/
  ident : List Byte
  deriving DecidableEq, Repr

/-- Result of commissioning steps 2 to 4 (R370): blocks listed defective with their cause, and dies wholly listed. -/
structure CommissionResult where
  defects : List (Madr × Nat)
  diesListed : Nat
  descriptorsGood : Bool
  deriving DecidableEq, Repr

/-- What an import survey reads (R376): the roots found with their indexes, the copies of the header in page 0 of each block, and the sets
that the newest checkpoint and the journal after it show released. -/
structure ImportSurvey where
  roots : List (List Byte × List Byte)
  headers : List (Madr × List (List Byte))
  released : List Nat
  deriving DecidableEq, Repr

/-- State of a physical page: its slots being assigned in staging (R219), its program running, DONE, or failed (R232). -/
inductive PageSt where
  | assigned | programming | done | failed
  deriving DecidableEq, Repr

/-- A valid slot of a page: its namespace, LBA and CSN, the COUNT of the tag, and the block for user data (Table 9-3). -/
structure SlotRec where
  n : Nat
  ns : Nat
  lba : Nat
  csn : Nat
  count : Nat
  block : Option Block
  deriving DecidableEq, Repr

/-- A physical page that is not erased: its tag and slots (Tables 9-2, 9-3). Parity pages carry no tag. -/
structure PageRec where
  /-- slot 0 of the page. -/
  addr : Madr
  seq : Nat
  /-- KIND of Table 9-4; 0 for a parity page. -/
  kind : Nat
  col : Nat
  row : Nat
  st : PageSt
  /-- WRITE_EPOCH, 40 bits. -/
  epoch : Nat
  /-- valid slots: number, namespace, LBA, CSN, COUNT, content; none content for tiles and records. -/
  slots : List SlotRec
  /-- payload string of a parity page, 16,704 bytes (R339); empty for other pages. -/
  parity : List Byte
  deriving DecidableEq, Repr

/-- What is read from a medium that another controller wrote (R240, R257, R378): its newest root with the address and the index, the pieces
in the index's order and the tiles at the homes that the directory names, the header copies of every block, the journal records, the pages,
the rows that resynchronisation found lost, the admission slots of its complete hold-up records, and the highest SJ_SEQ. -/
structure ImportResult where
  root : List Byte
  rootAt : Madr
  index : List Byte
  pieces : List (List Byte)
  tiles : List (List Byte)
  headers : List (Madr × List (List Byte))
  records : List (List Byte)
  pages : List PageRec
  lostRows : List (Nat × Nat)
  slots : List AdmSlot
  sjHigh : Nat
  deriving DecidableEq, Repr

/-- What a restart or a take-over finds on the medium beyond what State records (R256 to R264, R345): whether the newest root and every piece
and record that replay needs can be read, whether the hold-up record's END item passes, the pages that rungs 0 to 4 do not accept after the
repair of step 5, and the rows whose pages all read but whose parity does not fit the data. -/
structure RestartFind where
  mapRestorable : Bool
  holdupComplete : Bool
  unread : List Madr
  inconsistentRows : List (Nat × Nat)
  deriving DecidableEq, Repr

/-- A transfer that the mover ended with (R435, R437, R439). -/
inductive MoverOutcome where
  | ok
  | equal
  | differs (offset : Nat)
  | fault (cause : Nat) (dest : Bool) (offset : Nat)
  deriving DecidableEq, Repr

/-- A mover descriptor (Table 18-5). -/
structure MoverDesc where
  op : Nat
  paced : Bool
  report : Bool
  cmpHalt : Bool
  srcSpace : Nat
  dstSpace : Nat
  reqLine : Nat
  length : Nat
  src : Nat
  dst : Nat
  paceLog2 : Nat
  reservedZero : Bool
  token : Word
  deriving DecidableEq, Repr

/-- The commands: one constructor per row of the opcode table, in the table's order. `cyc` is the fabric cycle of the step. -/
inductive Instr where
  -- cadence and archive time
  | cadTickEdge (cyc : Nat) (heldHigh : Bool)
  | flywheelTick
  | cadenceLostSet
  | lockTimeout (cyc : Nat)
  | internalTick
  | aetSetApply (value : Word)
  | cadControlSourceWrite (cyc : Nat) (value : Word)
  | cadTpsWrite (value : Word)
  | aetLoRead
  | windowStart
  | maintenanceDraw (kind : DrawKind) (die : DieId) (seqNo : Nat)
  | journalFlush
  | checkpointStart (trigger : CkptTrigger)
  | checkpointRootWrite
  -- ports
  | configRequest (port : Port)
  | portEnable (port : Port) (value : Word)
  | portDisable (port : Port) (value : Word)
  | portShutdown (port : Port) (value : Word)
  | portShutdownDone (port : Port)
  | portDrainDone (port : Port)
  | functionLevelReset (port : Port)
  | perstAssert (port : Port)
  | perstDeassert (port : Port)
  | surpriseDown (port : Port)
  -- doorbells, fetch, admission, completion
  | sqTailDoorbell (port : Port) (queue : Nat) (value : Word) (wellSized : Bool) (cyc : Nat)
  | cqHeadDoorbell (port : Port) (queue : Nat) (value : Word) (wellSized : Bool) (cyc : Nat)
  | submissionFetch (port : Port) (entries : List (List Word)) (cyc : Nat)
  | entryFetchFault (port : Port) (kind : Nat) (cyc : Nat)
  /-- `list`: the data list as stage 3 reads it; `late`: the judgements of R520 held at stage 1 and are judged at stage 4. -/
  | admission (port : Port) (queue : Nat) (list : ListRead) (late : Bool) (cyc : Nat)
  | completionPost (cid : Nat) (cyc : Nat)
  | queueRestartDone (port : Port) (queue : Nat)
  | coalesceTimerExpiry (port : Port) (queue : Nat) (cyc : Nat)
  | msixUnmask (port : Port) (vector : Option Nat)
  | eventCtrlWrite (port : Port) (value : Word)
  | csnIssuedLoRead (port : Port)
  | rcRegisterRead (req : Requester) (reg : RegAddr) (bytes : Nat)
  | registerWrite (req : Requester) (reg : RegAddr) (value : Dword) (bytes : Nat)
  -- admin commands performed
  | createQueue (cid : Nat)
  | deleteQueue (cid : Nat)
  | restartQueue (cid : Nat)
  | ackResumption (cid : Nat)
  | identify (cid : Nat) (list : ListRead)
  | getLog (cid : Nat) (list : ListRead)
  | getFeature (cid : Nat)
  | setPowerTimers (cid : Nat)
  | setCadencePlan (cid : Nat)
  | setPatrolCycle (cid : Nat)
  | setThermalLimits (cid : Nat)
  | setHostMapRegion (cid : Nat) (chunks : List Nat)
  | setInterruptCoalescing (cid : Nat)
  | setArbitration (cid : Nat)
  | setOnionShelf (cid : Nat)
  | setEventMask (cid : Nat)
  | setJournalInterval (cid : Nat)
  | setRebuildShare (cid : Nat)
  | setHorizonMinimum (cid : Nat)
  | setArchiveTime (cid : Nat)
  | setUserCalibration (cid : Nat)
  | fwDownload (cid : Nat) (data : HostFetch)
  | fwCommit (cid : Nat)
  | fwConfirm (cid : Nat)
  | fwRevert (cid : Nat)
  | namespaceCreate (cid : Nat)
  | namespaceDelete (cid : Nat)
  | bayCommissionMember (cid : Nat)
  | bayCommissionSpare (cid : Nat)
  | bayEvacuate (cid : Nat)
  | bayCancelEvacuate (cid : Nat)
  | bayRelease (cid : Nat)
  | bayImport (cid : Nat) (survey : ImportSurvey)
  | rebuildStop (cid : Nat)
  | rebuildStart (cid : Nat)
  | moverQuery (cid : Nat)
  | moverResume (cid : Nat)
  | moverResetChannel (cid : Nat)
  | patrolPause (cid : Nat)
  | patrolResume (cid : Nat)
  | patrolRestartCycle (cid : Nat)
  | patrolPauseExpiry (cyc : Nat)
  | twinPair (cid : Nat)
  | twinUnpair (cid : Nat)
  | twinHandOver (cid : Nat)
  | twinFencePartner (cid : Nat) (cyc : Nat)
  -- I/O commands
  | write (cid : Nat) (data : HostFetch)
  | read (cid : Nat) (list : ListRead)
  | verify (cid : Nat)
  | compare (cid : Nat) (data : HostFetch)
  | deallocate (cid : Nat)
  | fill (cid : Nat)
  | copy (cid : Nat)
  | digestOpen (cid : Nat) (key : HostFetch)
  | digestFeedHost (cid : Nat) (data : HostFetch)
  | digestFeedMedium (cid : Nat)
  | digestFinal (cid : Nat) (tail expected : HostFetch)
  | digestSave (cid : Nat) (list : ListRead)
  | digestLoad (cid : Nat) (onion : HostFetch)
  | digestClose (cid : Nat)
  | contextSlotWaitEnd (cid : Nat) (frame : HostFetch)
  | digestChunkDispatch
  | digestChunkDone (pipe : Nat)
  -- write path
  | writeHeld (cid : Nat) (cyc : Nat)
  | pageProgramTimeout (page : Madr) (cyc : Nat)
  | rowPadTimeout (seq row : Nat)
  | setOpen (stream : Stream)
  | sequenceEnd (die : DieId) (waits statuses : List Nat) (busyMicros raw : Nat)
  | readSuspend (die : DieId) (cyc : Nat)
  /-- `reads`: what the verify reads of the row's pages gave. -/
  | verifyReadDone (seq row : Nat) (reads : List VerifyRead)
  | writeCommit (cid : Nat)
  -- map
  | mapUpdate
  /-- `image`: the bytes that the tile's frame in DRAM or in host memory gave; empty where the read ended in an error completion, or where no
  frame is read. -/
  | mapLookup (reader : Reader) (image : List Byte)
  | tileWriteback (ns seg : Nat)
  -- reading and patrol
  | mediumReadIssue (page : Madr) (cyc : Nat)
  /-- `slots`: result of each carried codeword; `erasures`: at rung 5, the columns whose page of the row failed rungs 0 to 4. -/
  | decodeDone (page : Madr) (slots : List (Nat × DecodeResult)) (erasures : List Nat)
  | thermalClockMinute (samples : List (DieId × Nat))
  | hourlyModelUpdate
  | aetWaitTimeout (cyc : Nat)
  | patrolCycleStart (profile : Nat)
  | reclaimStart (profile : Nat)
  | reserveReclaimStart (profile : Nat)
  | refreshClaim
  | blockClaimRequest (agent : Agent) (seq : Nat)
  | preemptHandoff (seq : Nat)
  | blockRelease (seq : Nat)
  | blockErase (block : Madr)
  | stripeJournalRecord
  /-- `readBack`: data areas of the pages of the copy just written, as the built-in read gave them. -/
  | descriptorRewrite (bay : Nat) (readBack : List (List Byte))
  | memberFailure (bay : Nat) (die : Option Nat)
  | rebuildRow
  -- bays
  | bayPresenceAccepted (bay : Nat) (survey : BaySurvey)
  | bayRemoval (bay : Nat)
  | bayFault (bay : Nat)
  | commissioningDone (bay : Nat) (result : CommissionResult)
  | evacuationSetMove
  | evacuationDone (bay : Nat)
  | importDone (result : ImportResult)
  -- stops and restarts
  | pwrfailFall (cyc : Nat)
  | holdupComplete
  | porstAssert (cyc : Nat)
  | porstRelease (cyc : Nat) (env : BootEnv)
  | restartComplete (cyc : Nat) (found : RestartFind)
  | failedSet (keeperFailed : Bool)
  /-- `staged`: context and LBA of each staged block whose Pod 4 units lay on the channel. -/
  | dramChannelLoss (channel : Nat) (staged : List (Nat × Nat))
  -- twin
  /-- `peerHighFor`: cycles for which OWN_PEER_N has been high, 0 while it is low; `peerAfter`: it is low 2 us after the claim; `found`: what the
  claimant finds on the medium where another chip wrote it, none where it is as this chip left it; `surveys`: bays it has not read itself. -/
  | ownershipClaim (cyc : Nat) (peerHighFor : Nat) (peerAfter : Bool) (found : Option ImportResult) (surveys : List (Nat × BaySurvey))
  | heartbeatSend (cyc : Nat)
  /-- `cqTaken`: entries that the CQ scan takes as posted; `scan`: pages that the tag scan finds and this chip did not write. -/
  | partnerLoss (cyc : Nat) (cqTaken : List PostedRef) (scan : List PageRec) (found : RestartFind) (surveys : List (Nat × BaySurvey))
  | uncleanTakeOver (cyc : Nat) (found : ImportResult) (surveys : List (Nat × BaySurvey))
  | standbyLinkFallback (cyc : Nat)
  | ackTimeout (cyc : Nat)
  | fenceRelease (cyc : Nat)
  | frameResend (cyc : Nat)
  | zynmiLinkTrained (lanes : Nat)
  | zynmiLinkDown (cyc : Nat) (reservedType : Bool)
  | frameHeartbeat (h : FrameHead) (role : Role) (cond : Half) (pins : BitVec 6) (aet : Dword) (csnLast jseq : Nat) (cyc : Nat)
  | frameAck (crcOk : Bool) (fseq : Nat) (cyc : Nat)
  | frameAdmit (h : FrameHead) (slots : List AdmSlot) (cyc : Nat)
  | frameJournal (h : FrameHead) (recs : List StagedRec) (cyc : Nat)
  | frameState (h : FrameHead) (r : StateRef) (cyc : Nat)
  | frameComplete (h : FrameHead) (ps : List PostedRef) (cyc : Nat)
  | frameDoorbell (h : FrameHead) (ds : List DoorbellRef) (cyc : Nat)
  | frameFrontier (h : FrameHead) (es : List SjEntry) (cyc : Nat)
  | frameStop (h : FrameHead) (r : StopRec) (cyc : Nat)
  | frameFailing (h : FrameHead) (cond : Half) (cyc : Nat)
  | frameHandOver (h : FrameHead) (sets : List (Nat × Nat)) (cyc : Nat)
  | frameSyncPiece (h : FrameHead) (piece : SyncPiece) (capture : Nat) (cyc : Nat)
  | frameSyncEnd (h : FrameHead) (csnLast : Nat) (cyc : Nat)
  | framePairHello (h : FrameHead) (hello : PairHello) (cyc : Nat)
  | framePairKey (h : FrameHead) (point : List Byte) (cyc : Nat)
  | framePairConfirm (h : FrameHead) (bytes : List Byte) (cyc : Nat)
  -- pods, mover
  | podRequest (requester size : Nat) (dram : Bool)
  | podFree (pod offset : Nat)
  | moverPost (channel : Nat) (desc : MoverDesc)
  | moverDescriptorEnd (channel : Nat) (outcome : MoverOutcome)
  | reqLinePulse (line : Nat)
  -- keeper flash
  | kfKeyWrite (side : Bool) (value : Word)
  /-- `pc`: address of the instruction that makes the starting write, none for a requester that fetches none (R448). -/
  | kfProgram (side : Bool) (addr : Nat) (data : List Word) (pc : Option Nat)
  | kfErase (side : Bool) (addr : Nat) (pc : Option Nat)
  | kfMarginRead (side : Bool) (addr : Nat)
  | kfRead (side : Bool) (addr : Nat)
  | kfCrcSector (side : Bool) (addr : Nat)
  /-- `measured`: pulses of a PROGRAM, weak bits of a MARGIN_READ; `agreed`: every programmed bit agreed within eight pulses. -/
  | kfCommandDone (bank : Bool) (measured : Nat) (agreed : Bool)
  | recoveryRequest (value : Word)
  | recoveryExit (value : Word)
  -- power and thermal
  | idleTimerExpiry (cyc : Nat)
  | ps4NowWrite (value : Word) (cyc : Nat)
  /-- `ok`: what the step waited for came; `aoCycle`: the always-on cycle, that of ENTRY_COMMIT for step 6. -/
  | psDeepEntry (step : Nat) (ok : Bool) (aoCycle : Nat)
  | domainsOff (aoCycle : Nat) (levelSource : Option Nat)
  | wake (code : Nat) (aoCycle : Nat)
  | maintWakeTimer (aoCycle : Nat)
  | sbAddressMatch (address : Nat)
  | avsAck (cyc : Nat)
  | avsRetryTimeout (cyc : Nat)
  | powerLevelUpdate (coreDeciwatts activity : Nat)
  | sensorSample (raw : List Int)
  | thermalTrip (comparator : Bool) (cyc : Nat)
  -- counters, Periscope, sideband
  | commandSlot (cyc : Nat)
  | cntClear (req : Requester) (value : Word)
  | cntSnap (req : Requester) (value : Word) (cyc : Nat)
  | snapshotReady (cyc : Nat)
  | mirrorSnapWrite (value : Word) (cyc : Nat)
  | cntSelWrite (req : Requester) (n : Nat) (value : Word)
  | counterLowRead (req : Requester) (snapshot : Bool) (n : Nat)
  | pscHeadWrite (req : Requester) (value : Word)
  | sbRegisterWriteShort (offset : Nat) (bytesAcked : Nat) (pecOk : Bool)
  | rstdaa
  | entdaa (address : BitVec 7) (arbitrationWon : Bool)
  | setdasa (staticAddr address : BitVec 7)
  | setnewda (oldAddr address : BitVec 7)
  | getpid
  | getbcr
  | getdcr
  | getstatus
  | pwrfailRise (cyc : Nat)
  | pcieLinkUp (port : Port)
  | twinHbInEdge (cyc : Nat)
  | alwaysOnPowerUp
  | actNStretchEnd (cyc : Nat)
  | jtagTapStateChange (inReset : Bool)
  | latchedPairLowRead (req : Requester) (offset : Nat)
  deriving DecidableEq, Repr

end Sys2Proof
end

