-- ==== Sys2Proof/Decode.lean ====
section
/-! DEFINITION. Decoding of table words: spec/opcode_table.json gives no row any bits, so no word spells a command. -/
namespace Sys2Proof

/-- The command that a word of nbits bits spells by the opcode table's bits: none of its rows has any. -/
def decodeTableWord (_nbits _w : Nat) : Option Instr := none

end Sys2Proof
end

