-- ==== Sys2Proof/Config.lean ====
section
/-! DEFINITION. What one part or one implementation fixes and the manual does not: fused identity, the values of
image sections whose layout the manual does not print, cryptographic functions the manual names by standard only, and the
free values. Every constant here is opaque: no proof can rest on what it is. -/
namespace Sys2Proof.Config

/-- The free value: the n-th value the manual leaves open, drawn with the counter `State.free`. -/
opaque freeValue : Nat → BitVec 64

/-- The DRAM channel, 0 to 3 by its low two bits, in which the frame at a set and way of the tile tier lies (R212). -/
opaque dramChannelOf (set way : Nat) : Nat

/-- VARIANT of SB_ID (R513): true is BZ-DX9600-AX, the extended junction range. Fused. -/
opaque variantAX : Bool

/-- STEPPING of SB_ID (R513), 4 bits. Fused. -/
opaque stepping : BitVec 4

/-- SERIAL of SERIAL0 to SERIAL4 (R513), 20 ASCII bytes. Fused. -/
opaque serial : List Byte

/-- The device wrap key that the keeper derives from the chip's fused secret (R419). -/
opaque deviceWrapKey : BitVec 256

/-- ECDSA P-384 over SHA-384 of the covered bytes under boot ROM key `index` (R38). -/
opaque vendorSigValid (index : Nat) (covered sig : List Byte) : Bool

/-- ECDSA P-384 countersignature over the covered bytes under the public key x then y (R39). -/
opaque ownerSigValid (key covered sig : List Byte) : Bool

/-- SHA-384 of a byte string, as used for the owner key fuse, key references and PAIR_HELLO (R39, R418, R387). -/
opaque sha384 : List Byte → BitVec 384

/-- AES-256-GCM sealing of a 416-byte onion plaintext: ciphertext then 16-byte tag (R418). -/
opaque gcmSeal (key : BitVec 256) (iv aad plain : List Byte) : List Byte

/-- AES-256-GCM opening of an onion: the plaintext, or none where GCM_TAG fails (R418, R422). -/
opaque gcmOpen (key : BitVec 256) (iv aad cipher tag : List Byte) : Option (List Byte)

/-- The chip's n-th ephemeral P-384 public point of PAIR_KEY, x then y (R398). -/
opaque pairPoint (n : Nat) : List Byte

/-- The 256-bit pair wrap key of ECDH and HKDF over both points and both SERIALs (R398). -/
opaque pairWrapKey (ownN : Nat) (partnerPoint info : List Byte) : BitVec 256

/-- The 16 confirmation bytes of R398 over the transcript of both chips' PAIR_HELLO and PAIR_KEY frames. -/
opaque pairConfirm (ownN : Nat) (partnerPoint transcript : List Byte) : List Byte

/-- Seconds that a thermal clock gains in one powered minute at die temperature t: 60 x AF(t) of R312 before the clamp,
whose rounding the manual does not state. Arguments: EA_MEV, REF_TEMP, t. -/
opaque agedMinute (eaMev : Nat) (refTemp t : Int) : Nat

/-- Milliseconds equivalent per second at T_UNKNOWN, 1,000 x AF(T_UNKNOWN) of R312 and R315 before the clamp; rounding open. -/
opaque agedUnknown (eaMev : Nat) (refTemp tUnknown : Int) : Nat

/-- The power model of R475 beyond the core rail: activity reading and coefficient items to tenths of a watt. -/
opaque otherRails (activity : Nat) (items : List Int) : Nat

/-- Provisioned identifier, bus characteristics and device characteristics of the I3C target (R510), whose values the manual does not give. -/
opaque i3cPid : BitVec 48
opaque i3cBcr : Byte
opaque i3cDcr : Byte

end Sys2Proof.Config
end

