-- ==== Sys2Proof/Image.lean ====
section
/-! DEFINITION. The values that a Swerix structure image fixes (chapter 02) as the rest of the part uses them. The manual prints
the body layout of some sections only (Tables 12-2 to 12-4, 13-1, 13-2, 14-1, 18-2), so the step from section bytes to values is
an opaque function (assumption 5); the container around the sections is decoded byte by byte in `Machine.Firmware`. -/
namespace Sys2Proof

/-- One flash page type of a profile: LEVELS, ENTRIES, RETRY_SEQUENCE, LOUPE_STEP, LOUPE_SAMPLES, REFRESH_INDEX (Table 12-4). -/
structure PageType where
  levels : Nat
  entries : Nat
  retrySequence : Nat
  loupeStep : Nat
  loupeSamples : Nat
  refreshIndex : Nat
  deriving DecidableEq, Repr, Inhabited

/-- An operation of a flash sequence (Table 2-6). -/
structure SeqOp where
  code : Nat
  operand : Nat
  deriving DecidableEq, Repr, Inhabited

/-- The per-profile sections of Table 2-4, decoded. -/
structure Profile where
  /-- FLASH_GEOMETRY: data and spare bytes of a page, slots of a page (Table 2-5). -/
  pageBytes : Nat
  spareBytes : Nat
  slotsPerPage : Nat
  /-- FLASH_TIMING: transfer rate, MT/s; interface 0 ONFI NV-LPDDR4, 1 JEDEC Toggle (Table 2-5). -/
  transferMts : Nat
  busKind : Nat
  /-- FLASH_SEQUENCES: number and operations of each sequence (R36). -/
  seqs : List (Nat × List SeqOp)
  planes : Nat
  blocksPerPlane : Nat
  pagesPerBlock : Nat
  lunsPerCe : Nat
  dPair : Nat
  pageTypes : List PageType
  /-- page type of each page of a block, from FLASH_GEOMETRY. -/
  typeOfPage : List Nat
  /-- FLASH_TIMING: typical read, program and erase times and suspend minimum, microseconds. -/
  tRead : Nat
  tProg : Nat
  tErase : Nat
  suspendMin : Nat
  z : Nat
  parityBytes : Nat
  nb : Nat
  mb : Nat
  hardIter : Nat
  softIter : Nat
  verifyLimit : Nat
  refreshLimit : Nat
  /-- CIRCULANT entries (Table 12-2): block column, block row, shift. -/
  circulants : List (Nat × Nat × Nat)
  bands : Nat
  hysteresis : Int
  tempPeriod : Nat
  scale : Int
  bias : Int
  upper : List Int
  tempOffsetBands : Nat
  eaMev : Nat
  afCap : Nat
  ratedPe : Nat
  spareFraction : Nat
  lastStandFraction : Nat
  refTemp : Int
  tUnknown : Int
  guardDays : Nat
  fLimit : Nat
  fWake : Nat
  ret : List Nat
  cFresh : Nat
  cEnd : Nat
  w : Nat
  p : Nat
  wMin : Nat
  dedicated : Bool
  stripeUnit : Nat
  spareBays : Nat
  sjWindow : Nat
  /-- identification patterns that RECOGNITION lists (R32). -/
  patterns : List Nat
  /-- hash of the binding sections, compared with a descriptor's (R47). -/
  bindingHash : Nat
  /-- hash of the non-binding sections (R48). -/
  tablesHash : Nat
  /-- adopted from a foreign descriptor: serves reads and evacuation, never opens a set (R377). -/
  adopted : Bool
  deriving DecidableEq, Repr, Inhabited

/-- The image values in force: the device-wide sections of Table 2-4 and up to four profiles. -/
structure ImgVals where
  boardId : Nat
  twinEn : Option Bool
  twinSeat : Option Bool
  minDramMib : Nat
  wiredBays : BitVec 16
  podUnits : List Nat
  /-- QUOTA[r][k] of Table 18-2: row r lists (MIN, MAX) for pods 0 to 4; MAX 0xFFFF is no maximum. -/
  podQuota : List (List (Nat × Nat))
  maxQueues : Nat
  maxRing : Nat
  contextShareA : Nat
  contextShareB : Nat
  maxVectors : Nat
  windowTicks : Nat
  share : Nat
  quiet : BitVec 64
  journalTicks : Nat
  patrolDays : Nat
  /-- CALIB_LIMITS: item, minimum, maximum. -/
  calibLimits : List (Nat × Int × Int)
  profiles : List Profile
  queueLimitsHash : Nat
  deriving DecidableEq, Repr, Inhabited

/-- The fallback values in force without a valid image (Table 2-11). -/
def ImgVals.fallback : ImgVals where
  boardId := 0xF
  twinEn := none
  twinSeat := none
  minDramMib := 0
  wiredBays := 0
  podUnits := [8192, 4096, 512, 64, 0]
  podQuota := List.replicate 15 (List.replicate 5 (0, 0xFFFF))
  maxQueues := 1
  maxRing := 4096
  contextShareA := 64
  contextShareB := 64
  maxVectors := 1
  windowTicks := 16
  share := 25
  quiet := 0
  journalTicks := 8
  patrolDays := 14
  calibLimits := []
  profiles := []
  queueLimitsHash := 0

/-- What the sections of an image say, section bytes in directory order (section id, profile, body). Opaque: assumption 5. -/
opaque Config.imageValues : List (Nat × Nat × List Byte) → ImgVals

/-- The profile that a foreign descriptor's sections describe, by the hashes of its binding and other sections (R377). Opaque:
assumption 5. -/
opaque Config.adoptedProfile (bindingHash tablesHash : Nat) : Profile

end Sys2Proof
end

