-- ==== Sys2Proof/Machine/State.lean ====
section
/-! DEFINITION. The state of a DX9600: every register, ring, log, flag, mode and pin that the spec gives the part, as plain data, and
the queue of the commands that wait. Each field's docstring names its rule and its value at reset. -/
namespace Sys2Proof.Machine
open Sys2Proof

/-! ## Cadence and archive time (chapter 03) -/

/-- A cadence plan (Table 3-2). -/
structure Plan where
  windowTicks : Nat
  share : Nat
  quiet : BitVec 64
  deriving DecidableEq, Repr

/-- A set of AET that waits for the next tick (R61, R62). -/
structure AetSet where
  value : Nat
  force : Bool
  /-- context of the host SET_FEATURE that made it, none for the sideband. -/
  cid : Option Nat
  deriving DecidableEq, Repr

/-- Cadence counter, AET, window grid, budget and debt. -/
structure Cad where
  /-- CAD_CONTROL.SOURCE, 1 bit (R80). Reset 0. -/
  internal : Bool
  /-- CAD_CONTROL.OUT_FLYWHEEL, 1 bit (R58). Reset 0. -/
  outFlywheel : Bool
  /-- CAD_CONTROL.OUT_ENABLE, 1 bit (R58). Reset 1. -/
  outEnable : Bool
  /-- CAD_STATUS.LOCKED, 1 bit (R56). Reset 0. -/
  locked : Bool
  /-- CAD_STATUS.FLYWHEEL_RUN, 8 bits, saturating (R77, Table 3-4). Reset 0. -/
  flywheelRun : Nat
  /-- CAD_PERIOD, 22 bits, measured period in fabric cycles (R56). Reset 0x0F4240. -/
  period : Nat
  /-- CAD_TPS as written, 13 bits, 0 derived (R60). Reset 0. -/
  tpsFixed : Nat
  /-- effective TPS (R60, R79). Reset 1000 (derived from the reset period). -/
  tps : Nat
  /-- TPS derived at the last lock, or of the internal source (R60, R80). Reset 1000 (derived from the reset period). -/
  lockTps : Nat
  /-- TPS change that waits for a tick with AET.ticks 0 (R70). Reset none. -/
  pendingTps : Option Nat
  /-- AET, 64 bits: seconds in [63:16], tick count in [15:0] (R60). Reset 0 (Table 3-6). -/
  aet : Nat
  /-- AET_VALID, 1 bit (R61, R63). Reset 0. -/
  aetValid : Bool
  /-- AET_HI as latched, 32 bits (R64). Reset 0. -/
  aetHi : Word
  /-- AET_SET_LO, 32 bits (Table 3-7). Reset 0. -/
  setLo : Word
  /-- AET_SET_HI, 32 bits (Table 3-7). Reset 0. -/
  setHi : Word
  /-- the standing set (R62). Reset none. -/
  pendingSet : Option AetSet
  /-- contexts of replaced host sets, completed with the standing set (R62). Reset empty. -/
  replaced : List Nat
  /-- AET_SET_RESULT.RESULT, 2 bits (Table 3-9). Reset 0. -/
  setResult : Nat
  /-- TICK_ERRORS.SPURIOUS, 16 bits, RC, saturating (R57). Reset 0. -/
  spurious : Nat
  /-- TICK_ERRORS.FLYWHEEL, 16 bits, RC, saturating (Table 3-11). Reset 0. -/
  flywheelTicks : Nat
  /-- DEBT_FORGIVEN, 32 bits, RC, saturating, units of 1,024 die-microseconds (R75). Reset 0. -/
  forgiven : Nat
  /-- plan in force (R68). Reset image (fallback of Table 2-11 while no image is applied). -/
  plan : Plan
  /-- plan that waits for a T that is a multiple of 64 L (R68). Reset none. -/
  pendingPlan : Option Plan
  /-- effective budget E of the current window (R74). Reset 0. -/
  budget : Nat
  /-- nominal budget B of the current window before proration (R71). Reset 0. -/
  nominal : Nat
  /-- debt payment r of the current window (R74). Reset 0. -/
  repay : Nat
  /-- total charge X of the current window; completions may charge negative differences (R72). Reset 0. -/
  charged : Int
  /-- what completions charged since the tick of a window that WINDOW_START has still to open: charges of that window (R66). Reset 0. -/
  chargedNext : Int
  /-- maintenance debt D at the start of the current window (R74). Reset 0. -/
  debt : Nat
  /-- share of E held for rebuild and sweep already drawn in this window: rebuild, sweep (R355, R330). Reset 0. -/
  drawnRebuild : Nat
  drawnSweep : Nat
  /-- RECLAIM rescues made in this window, by profile (R280). Reset empty. -/
  rescued : List Nat
  /-- patrol page reads drawn in this window, by profile (R322). Reset empty. -/
  drawnPatrol : List (Nat × Nat)
  /-- sampling cycle of the last tick, 64 bits (R57). Reset 0. -/
  lastTick : Nat
  /-- sampling cycle of the last flywheel or internal tick where it was the last tick (R57, R78). Reset false. -/
  lastWasFlywheel : Bool
  /-- sampling cycle of the last accepted edge (R56). Reset none. -/
  lastEdge : Option Nat
  /-- the last up to 16 edge-to-edge intervals, newest first (R56). Reset empty. -/
  intervals : List Nat
  /-- a flywheel tick fell since the last accepted edge (R56). Reset false. -/
  flySinceEdge : Bool
  /-- predicted sampling cycle of the next tick (R57). Reset 1000000. -/
  prediction : Nat
  /-- cycle from which the 100 ms limit of R79 counts; none where no lock is awaited. Reset none. -/
  lockFrom : Option Nat
  /-- CAD_OUT driven high from this cycle for 1,000 ns (Table 3-1). Reset none. -/
  outPulse : Option Nat
  /-- CAD_OUT pulses driven (Table 3-1; the output's history as a count). Reset 0. -/
  outCount : Nat
  /-- CAD_OUT runt pulses: begun from a rising edge that the filter then refused, and driven low again (R58). Reset 0. -/
  outRunts : Nat
  /-- more than 32 tick periods passed without an edge since PS3 or PS4 was entered (R81). Reset false. -/
  edgeGap : Bool
  /-- T index at which the next journal flush is due (R76). Reset 0. -/
  journalDue : Nat
  /-- journal flush interval in force (R76); Reset image. -/
  journalTicks : Nat
  /-- AET, 64 bits, at which the next checkpoint is due (R76). Reset 0. -/
  ckptDue : Nat
  /-- the next window is the first after a restart (R69). Reset true. -/
  firstWindow : Bool
  /-- the next window is the first after a return from PS3 or PS4 (R69, R81). Reset false. -/
  resumed : Bool
  /-- T at the last tick (R69, R70). Reset 0. -/
  lastT : Nat
  /-- the last tick began a window that WINDOW_START has still to open, and whether its budget is prorated (R69). Reset none. -/
  windowDue : Option Bool
  /-- plan under which the window being closed ran (R75). Reset as plan. -/
  windowPlan : Plan
  deriving DecidableEq, Repr

/-! ## Jisel queues, admission, completion (chapters 04 to 06) -/

/-- Queue states (Table 4-7). -/
inductive QState where
  | disabled | active | frozen | restarting
  deriving DecidableEq, Repr

/-- A restart in progress (R134, R137). -/
structure Restart where
  option : Nat
  index : Nat
  tail : Nat
  /-- the RESTART_QUEUE's context; none for the implicit restart of queue 0. -/
  cid : Option Nat
  refrozen : Bool
  /-- DELETE_QUEUE ended the restart: retained entries it discarded (R93). -/
  deleted : Option Nat
  deriving DecidableEq, Repr

/-- One queue of a port. -/
structure Queue where
  /-- queue number, 14 bits (R90). -/
  qid : Nat
  /-- state (Table 4-7). Reset DISABLED. -/
  st : QState
  /-- SQ ring address, 64 bits (Table 4-8). -/
  sqBase : Nat
  /-- CQ ring address, 64 bits (Table 4-8). -/
  cqBase : Nat
  /-- SQ_ENTRIES, 13 bits. -/
  sqEntries : Nat
  /-- CQ_ENTRIES, 13 bits. -/
  cqEntries : Nat
  /-- MSI-X vector, 11 bits. -/
  vector : Nat
  /-- PRIORITY: 0 HIGH, 1 MEDIUM, 2 LOW. -/
  prio : Nat
  /-- COALESCE_COUNT in force, 8 bits (R115). -/
  coalCount : Nat
  /-- COALESCE_TIME in force, 16 bits, 100 ns (R115). -/
  coalTime : Nat
  /-- COALESCE_TIME that the running timer counts to, 16 bits: a change takes effect at the next posting (R115). -/
  timerTime : Nat
  /-- values given at creation, the feature's default (Table 7-16). -/
  createdCount : Nat
  createdTime : Nat
  /-- SQ_TAIL doorbell, 12 bits (R97). Reset 0. -/
  sqTail : Nat
  /-- index of the next entry to fetch, 12 bits (R110). Reset 0. -/
  sqHead : Nat
  /-- index of the next completion to post, 12 bits (R109). Reset 0. -/
  cqTail : Nat
  /-- CQ_HEAD doorbell, 12 bits (R97). Reset 0. -/
  cqHead : Nat
  /-- phase of this pass (R111). Reset 1 at creation. -/
  phase : Bool
  /-- posted entries since the last message (R115). Reset 0. -/
  unsignalled : Nat
  /-- cycle at which the coalescing timer started (R115). Reset none. -/
  coalFrom : Option Nat
  /-- a non-success status is decided: nothing is fetched or admitted (R130). Reset false. -/
  stopped : Bool
  /-- resume index of the freeze (R130). Reset 0. -/
  resumeIndex : Nat
  /-- CQ index of the completion that froze the queue (R137). Reset none. -/
  freezeCq : Option Nat
  /-- restart in progress (R134). Reset none. -/
  restart : Option Restart
  /-- context of an admitted DELETE_QUEUE (R93). Reset none. -/
  deleting : Option Nat
  /-- doorbell history for Periscope: tail value and cycle, newest first (R493). Reset empty. -/
  bells : List (Nat × Nat)
  deriving DecidableEq, Repr

/-- An event ring (Table 4-6). -/
structure EvRing where
  /-- EVENT_BASE_HI:LO, 64 bits. Reset 0. -/
  base : Nat
  /-- EVENT_CTRL.ENTRIES, 13 bits. Reset 0. -/
  entries : Nat
  /-- EVENT_CTRL.VECTOR, 11 bits. Reset 0. -/
  vector : Nat
  /-- EVENT_CTRL.ENABLE. Reset 0. -/
  enable : Bool
  /-- EVENT_HEAD, 12 bits. Reset 0. -/
  head : Nat
  /-- EVENT_TAIL, 12 bits. Reset 0. -/
  tail : Nat
  /-- phase of this pass (R118). Reset 1. -/
  phase : Bool
  /-- EVENT_LOST, 16 bits, RC, saturating. Reset 0. -/
  lost : Nat
  deriving DecidableEq, Repr

/-- An MSI-X table entry (R114). -/
structure MsixEntry where
  vector : Nat
  addrLo : Word
  addrHi : Word
  data : Word
  masked : Bool
  deriving DecidableEq, Repr

/-- An ERROR log entry (Table 5-4). -/
structure ErrEntry where
  seq : Nat
  csn : Nat
  aet : Nat
  queue : Nat
  port : Port
  sqIndex : Nat
  opcode : Nat
  tag : Nat
  status : Half
  origin : Nat
  fieldOffset : Nat
  resumeIndex : Nat
  froze : Bool
  retained : Nat
  lba : Nat
  byteOffset : Nat
  detail0 : Nat
  detail1 : Nat
  deriving DecidableEq, Repr

/-- A frame of an onion shelf (R420): the context that lies in it. -/
structure Shelf where
  base : Nat
  units : Nat
  deriving DecidableEq, Repr

/-- One Jisel port: registers, rings, queues, logs and per-port features. -/
structure PortSt where
  /-- PORT_CONTROL.ENABLE, 1 bit (R87). Reset 0. -/
  enable : Bool
  /-- a write of 1 to ENABLE that is held (R87). Reset false. -/
  heldEnable : Bool
  /-- PORT_STATUS.READY, 1 bit. Reset 0. -/
  ready : Bool
  /-- PORT_STATUS.DRAINING, 1 bit (R88). Reset 0. -/
  draining : Bool
  /-- PORT_STATUS.SHUTDOWN_STATE, 2 bits (R89). Reset 0. -/
  shutdownState : Nat
  /-- CKPT_SEQ of the checkpoint that the port's shutdown waits for, once it has started (R89). Reset none. -/
  shutdownCkpt : Option Nat
  /-- PORT_STATUS.RESUMPTION_PENDING, 1 bit (R139). Reset 0. -/
  resumptionPending : Bool
  /-- PORT_STATUS.CONFIG_ERROR, 1 bit (R87). Reset 0. -/
  configError : Bool
  /-- PORT_CONTROL.SHUTDOWN as written, 2 bits (R89). Reset 0. -/
  shutdownReq : Nat
  /-- ADMIN_ATTR.ASQ_ENTRIES, 13 bits. Reset 0. -/
  asqEntries : Nat
  /-- ADMIN_ATTR.ACQ_ENTRIES, 13 bits. Reset 0. -/
  acqEntries : Nat
  /-- ADMIN_SQ_BASE, 64 bits. Reset 0. -/
  asqBase : Nat
  /-- ADMIN_CQ_BASE, 64 bits. Reset 0. -/
  acqBase : Nat
  /-- CSN_ISSUED_HI as latched, 32 bits (Table 4-5). Reset 0. -/
  csnHi : Word
  /-- DOORBELL_ERRORS.UNKNOWN_QUEUE, 16 bits, RC, saturating. Reset 0. -/
  unknownQueue : Nat
  /-- DOORBELL_ERRORS.MALFORMED, 16 bits, RC, saturating. Reset 0. -/
  malformed : Nat
  /-- event ring and its registers (Table 4-6). -/
  ev : EvRing
  /-- MSI-X table, 2,048 entries, the written ones listed (R114). Reset empty: address and data 0, masked. -/
  msix : List MsixEntry
  /-- pending-bit array, 2,048 bits: the vectors whose bit is set (R114). Reset empty. -/
  pba : List Nat
  /-- MSI-X enable and function mask in configuration space (R114). Reset 0, 0. -/
  msixEnable : Bool
  funcMask : Bool
  /-- BAR0 as written, 64 bits: a 64-bit, non-prefetchable memory BAR of 32 MiB (R83). Reset 0. -/
  bar0 : Nat
  /-- link up (R508). Reset false. -/
  linkUp : Bool
  /-- the link was lost while the port was enabled and has not come up since (Table 5-7 kind 4). Reset false. -/
  linkLost : Bool
  /-- PERST of the port is asserted (R508, Table 22-6 PIN_STATUS). Reset 0. -/
  perst : Bool
  /-- L1.2 enabled on the link (Table 20-2). Reset false. -/
  l12 : Bool
  /-- the queues that are not DISABLED (R90). Reset empty. -/
  queues : List Queue
  /-- last SQ_TAIL and CQ_HEAD accepted for the queues that are DISABLED again: queue, tail, head (R97). Reset empty. -/
  lastBells : List (Nat × Nat × Nat)
  /-- ERROR log, by queue, newest first, at most 8 each (R133). Reset empty. -/
  errLog : List (Nat × List ErrEntry)
  /-- RESUMPTION log (R140). Reset generation 0, no records, complete. -/
  res : ResLog
  /-- HOST_MAP_REGION chunks (Table 7-16). Reset none. -/
  hostMap : List Nat
  /-- VALUE_ADDR of the HOST_MAP_REGION in force, 64 bits (R174). Reset 0. -/
  hostMapAddr : Nat
  /-- ONION_SHELF (Table 7-16). Reset none. -/
  shelf : Option Shelf
  /-- ARBITRATION: HIGH, MEDIUM, LOW, BURST (R100). Reset 8, 4, 1, 4. -/
  arbHigh : Nat
  arbMedium : Nat
  arbLow : Nat
  arbBurst : Nat
  /-- EVENT_MASK, 32 bits (Table 7-16). Reset 0. -/
  eventMask : Word
  /-- weighted round robin: class served, turns left in it, last queue served per class (R100). Reset 0, 8, 0, 0, 0. -/
  wrrClass : Nat
  wrrTurns : Nat
  wrrLast : List Nat
  /-- high half latched by the last low read of a counter through this port (R485). Reset 0. -/
  ctrHi : Word
  /-- SNAP_AET_HI as latched through this port (Table 21-2). Reset 0. -/
  snapAetHi : Word
  /-- next digest context NUMBER of this port (R410). Reset 1. -/
  digestNext : Nat
  /-- configuration requests answered with retry status, and normally (R84). Reset 0, 0. -/
  cfgRetries : Nat
  cfgAnswers : Nat
  deriving DecidableEq, Repr

/-- Stages of a command context. -/
inductive Stage where
  /-- fetched, not yet judged (R99), or retained (R130). -/
  | fetched
  /-- refused at admission: its completion waits to be posted (R124). -/
  | refused
  /-- served without admission (R27, R390). -/
  | served
  /-- admitted and not yet performed or failed (R101). -/
  | admitted
  /-- performed, or completed with a failure status; its completion waits to be posted (R2, R109). -/
  | ended
  deriving DecidableEq, Repr

/-- Where a reader's unit stands (R107, R287). -/
inductive UnitSt where
  | waiting
  | staging (b : Block)
  | unwritten
  | lost
  | medium (m : Madr)
  | got (b : Block) (recovered : Bool)
  /-- no data (0), or every candidate refused by GUARD (1) or REF_TAG (2): R165, R307. -/
  | failed (kind : Nat)
  deriving DecidableEq, Repr

/-- A unit of a reading command. -/
structure UnitRead where
  ns : Nat
  lba : Nat
  st : UnitSt
  deriving DecidableEq, Repr

/-- A staged unit of a write-class command and the slot it was assigned (R218). -/
structure StagedUnit where
  ns : Nat
  lba : Nat
  block : Option Block
  slot : Option Madr
  /-- its Pod 4 units lay on a DRAM channel that was lost, and its content is not yet recovered (R425). -/
  lost : Bool := false
  deriving DecidableEq, Repr

/-- A command context (Table 1-3): one command between fetch and completion. -/
structure Ctx where
  /-- context number, 0 to 65,535. -/
  cid : Nat
  port : Port
  queue : Nat
  sqIndex : Nat
  /-- the submission entry as fetched, 16 dwords (Table 4-9). -/
  dw : List Word
  stage : Stage
  /-- CSN; 0 until assigned (R4). -/
  csn : Nat
  status : Half
  result0 : Word
  result1 : Word
  /-- an ERROR log entry describes the completion (R133). -/
  logged : Bool
  replayed : Bool
  /-- the slot carries BLOCK_START (R242). -/
  blockStart : Bool
  /-- units a write-class command stages; none as block marks a unit made unwritten (R158 to R161). -/
  staged : List StagedUnit
  /-- the write is held (R106). -/
  held : Bool
  /-- a host-crossing failure found before the write was held: status, LBA, BYTE_OFFSET, details (R126, R151). -/
  fetchFail : Option (Half × Nat × Nat × Nat × Nat)
  /-- units a reading command resolves, ascending LBA. -/
  units : List UnitRead
  /-- host stream of a COMPARE. -/
  stream : List Byte
  /-- data slots promised in H (R270). -/
  promised : Nat
  /-- FSEQ of the ADMIT frame: the command counts as admitted, and may be performed, once it is acknowledged (R2, R388). -/
  admitAck : Option Nat
  /-- FSEQ of the frame whose ACK performance or completion waits for (R388). -/
  awaitAck : Option Nat
  /-- the map update was requested (R208). -/
  mapAsked : Bool
  /-- digest: waits for a context slot (R420). -/
  waitSlot : Bool
  /-- digest: commands that were being performed on a context when the wait began (R420). -/
  waitFor : List Nat
  /-- digest: slot taken for a context still to be opened or brought back (R420). -/
  gotSlot : Option Nat
  /-- digest: bytes of the command's input that have left a pipe (R417). -/
  chunkAt : Nat
  /-- selected for Periscope (R492). -/
  sampled : Bool
  /-- fabric cycles for Periscope: doorbell, fetched, admitted, translated, last die operation, performed (R493). -/
  tBell : Nat
  tFetch : Nat
  tAdmit : Nat
  tTranslate : Nat
  tMedium : Nat
  tPerform : Nat
  /-- Periscope SOURCE, RUNG and MADR of the first unit (Table 21-8). -/
  pSource : Nat
  pRung : Nat
  pMadr : Option Madr
  deriving DecidableEq, Repr

/-! ## Map (chapter 08) -/

/-- A map update that waits for the map entry arbiter (Table 8-11). -/
structure MapReq where
  /-- requester number of Table 8-11. -/
  who : Nat
  /-- fabric cycle of arrival (R22). -/
  cyc : Nat
  /-- context of a host update; none for maintenance. -/
  cid : Option Nat
  ns : Nat
  /-- entries named: LBA, value expected (conditional only), new value; none is UNWRITTEN. -/
  ents : List (Nat × Option Madr × Option Madr)
  /-- whole-segment relocation or consolidation: segment, expected COARSE entry or GENERATION, new first slot (R192, R193). -/
  whole : Option (Nat × (Madr ⊕ Nat) × Madr)
  /-- CAPTURE_JSEQ of a tile writeback (Table 10-3 TILE_HOME). -/
  capture : Nat := 0
  deriving DecidableEq, Repr

/-- A translation cache way (Table 8-8). -/
structure TcWay where
  set : Nat
  way : Nat
  tag : Nat
  segment : Bool
  entry : Dword
  age : Nat
  deriving DecidableEq, Repr

/-- A frame of the DRAM or host tier with its locator (Table 8-9). -/
structure TileFrame where
  set : Nat
  way : Nat
  ns : Nat
  seg : Nat
  generation : Nat
  dirty : Bool
  age : Nat
  deriving DecidableEq, Repr

/-- The running map engine: caches, tiers, requests, pins. -/
structure MapEng where
  /-- translation cache, the valid ways (R200). Reset empty. -/
  tc : List TcWay
  /-- DRAM tile tier, the frames in use (R202). Reset empty. -/
  dram : List TileFrame
  /-- host tile tier, the frames in use (R204). Reset empty. -/
  hostTier : List TileFrame
  /-- sets of the DRAM tier (R213). Reset 0. -/
  dramSets : Nat
  /-- map updates that wait for a turn (R205). Reset empty. -/
  reqs : List MapReq
  /-- read pins: block page 0 and count, 131,072 entries of 16 bits (R285). Reset empty. -/
  pins : List (Madr × Nat)
  /-- tiles that a lookup wants from the medium: namespace, segment and home, whose block is pinned until the read ends (R209, R285). Reset empty. -/
  tileReads : List (Nat × Nat × Madr)
  /-- DRAM channels out of service, 4 bits (R212). Reset 0. -/
  dramLost : BitVec 4
  /-- directory blocks in the pool (R199). Reset 0. -/
  dirPool : Nat
  deriving DecidableEq, Repr

/-! ## Media: write path, journal, reading, maintenance (chapters 09 to 15) -/

/-- A row of an open set on its way to settling (R229, R230). Its shield accumulator, held until it settles, is the XOR of the payloads
of its data pages assigned so far and is formed from them where it is needed (`rowXor`). -/
structure RowSt where
  row : Nat
  /-- cycle at which the first slot of the page that fills was assigned, and AET T of the row's first slot for the 64-tick limit (R219). -/
  since : Nat
  sinceT : Nat
  /-- next data slot of the row (R217). -/
  next : Nat
  parityIssued : Bool
  verified : Bool
  settled : Bool
  deriving DecidableEq, Repr

/-- The run-time side of an open set. -/
structure OpenSet where
  seq : Nat
  rows : List RowSt
  /-- next row to start. -/
  nextRow : Nat
  /-- LIMIT_ROW of the newest stripe-journal record that covers it (R341). -/
  limitRow : Nat
  /-- page 0 programs not yet DONE, by column. -/
  headersLeft : List Nat
  /-- closed early: no row starts (R232). -/
  closing : Bool
  /-- a relocation set that took a block of a last-stand share: only the agents of Table 11-2 place data in it (R267). -/
  lastStand : Bool := false
  deriving DecidableEq, Repr

/-- An operation on a die (R36, Table 9-8). -/
structure DieOp where
  /-- 0 reset, 1 read, 2 offset read, 3 program, 4 erase, 5 status, 6 suspend, 7 resume, 8 temperature, 9 mode (Table 2-7);
  64 and 65 the built-in read and program of R33 (numbers of this model's own). -/
  seqNo : Nat
  page : Madr
  /-- requester of Table 9-8. -/
  who : Nat
  /-- fabric cycle at which it was issued. -/
  issued : Nat
  /-- typical busy time charged when issued, where the operation is drawn (R72). -/
  typical : Option Nat
  /-- a verify read of the whole page (R230). -/
  whole : Bool := false
  deriving DecidableEq, Repr

/-- A die with work, a temperature sample or a fault. -/
structure DieSt where
  id : DieId
  /-- running operation. -/
  op : Option DieOp
  /-- granted operations that wait, in arrival order, with their arrival cycle (R22, R233). -/
  queue : List DieOp
  /-- suspended program or erase (R234). -/
  suspended : Option DieOp
  /-- suspensions of it, 0 to 4 (R234). -/
  suspends : Nat
  /-- fabric cycle and value of the last temperature sample (R294). -/
  sample : Option (Nat × Int)
  /-- band (R295). -/
  band : Option Nat
  /-- band history: AET seconds, band; newest first, 4,096 entries (R313). -/
  hist : List (Nat × Nat)
  /-- consecutive read TIMEOUTs (R304). -/
  timeouts : Nat
  /-- failed (R346). -/
  failed : Bool
  deriving DecidableEq, Repr

/-- A recovery ladder (R300). -/
structure Ladder where
  /-- page, slot 0. -/
  page : Madr
  rung : Nat
  /-- entry of rung 1. -/
  entry : Nat
  /-- codewords carried. -/
  carried : List Nat
  /-- die requester of the reader. -/
  who : Nat
  /-- read band at the start (R295). -/
  readBand : Nat
  /-- slots with a refused candidate: slot, GUARD (1) or REF_TAG (2) (R302). -/
  refused : List (Nat × Nat)
  /-- readers that wait (R301). -/
  readers : List (Reader × Nat)
  /-- second ladder under the prism engine's owner (R359). -/
  second : Bool
  deriving DecidableEq, Repr

/-- A refresh trigger (R309, R325). -/
structure Trigger where
  seq : Nat
  severity : Nat
  deriving DecidableEq, Repr

/-- A block claim on a set (R281). -/
structure Claim where
  seq : Nat
  agent : Agent
  /-- agent that pre-empted it and waits for its last operation (R283). -/
  preemptedBy : Option Agent
  /-- claimants whose purpose counts as met when the holder empties the set (R283). -/
  satisfied : List Agent
  deriving DecidableEq, Repr

/-- A piece that a checkpoint's index names (Table 10-5): KIND, PIECE_NUMBER, its first slot, CAPTURE_JSEQ, and the checkpoint that wrote it. -/
structure PieceRef where
  kind : Nat
  number : Nat
  madr : Madr
  capture : Nat
  ckpt : Nat
  deriving DecidableEq, Repr

/-- What a checkpoint's root tells of its cut (Table 10-4), and the map and open sets as they stood there. -/
structure CkptCut where
  aet : Nat := 0
  csnLast : Nat := 0
  /-- BAY_UID at each bay position. -/
  bays : List Nat := []
  img : MapImg := { nss := [], segs := [], lost := [], sets := [], blocks := [] }
  /-- open sets with SCAN_ROW. -/
  opens : List (Nat × Nat) := []
  deriving DecidableEq, Repr

/-- A checkpoint: sequence numbers, cut and the image captured (Table 10-4). -/
structure Ckpt where
  seq : Nat
  clean : Bool
  aet : Nat
  cut : Nat
  replayFrom : Nat
  csnReservedHigh : Nat
  csnLast : Nat
  blockSeqHigh : Nat
  root : Madr
  /-- CAPTURE_JSEQ of its pieces (R248). -/
  capture : Nat
  pieces : List PieceRef
  img : MapImg
  /-- entries of the OPEN_SETS pieces: BLOCK_SEQ and SCAN_ROW (R249). -/
  opens : List (Nat × Nat) := []
  /-- the cut. -/
  at_ : CkptCut := {}
  deriving DecidableEq, Repr

/-- A piece of the checkpoint being written, or its root with the index (R248, R249). -/
structure CkptPiece where
  kind : Nat
  number : Nat
  bytes : List Byte
  /-- first and last of the slots placed so far. -/
  placed : Option (Madr × Madr)
  /-- slots placed so far. -/
  count : Nat
  /-- row of the set in which the next slot is to follow. -/
  nextRow : Nat
  deriving DecidableEq, Repr

/-- What one map arbiter turn captured for a checkpoint (R248 step 3). -/
structure CkptCapture where
  /-- CAPTURE_JSEQ. -/
  jseq : Nat
  img : MapImg
  opens : List (Nat × Nat) := []
  pieces : List CkptPiece
  /-- root with its index, made once every piece is settled. -/
  root : Option (Ckpt × CkptPiece)
  deriving DecidableEq, Repr

/-- The checkpoint in progress (R248): its trigger, and what was captured, none before the capture. -/
structure CkptRun where
  trigger : CkptTrigger
  /-- it is to be clean: begun with the part at rest (R262). -/
  clean : Bool
  captured : Option CkptCapture
  at_ : CkptCut := {}
  deriving DecidableEq, Repr

/-- A stripe-journal record made and not yet cover: its two copies, the FRONTIER frame that tells it, its entries (R341, R388). -/
structure SjWait where
  copyA : Madr
  copyB : Madr
  fseq : Option Nat
  entries : List SjEntry
  deriving DecidableEq, Repr

/-- A hold-up record (Table 10-8). -/
structure Holdup where
  seq : Nat
  /-- END passes its CRC (R253). -/
  complete : Bool
  slots : List AdmSlot
  recs : List StagedRec
  accs : List (Nat × Nat × List Byte)
  /-- per open set: BLOCK_SEQ and, for columns 0 to 15, the last page DONE. -/
  frontier : List (Nat × List Nat)
  csnLast : Nat
  deriving DecidableEq, Repr

/-- Journal, checkpoints, stop and hold-up records (chapter 10). -/
structure Jrnl where
  /-- next JSEQ, 64 bits (R243). Reset 1. -/
  nextSeq : Nat
  /-- records from REPLAY_FROM of the newest root on, ascending JSEQ (R243, R257). Reset empty. -/
  recs : List StagedRec
  /-- JOURNAL pages programmed whose row is not settled yet: set, row, first and last JSEQ (R246). Reset empty. -/
  flights : List (Nat × Nat × Nat × Nat)
  /-- checkpoint in progress (R248). Reset none. -/
  running : Option CkptRun
  /-- cut of the checkpoint in progress. Reset 0. -/
  cut : Nat
  /-- triggers that wait (R247). Reset empty. -/
  waiting : List CkptTrigger
  /-- newest durable checkpoint (R248). Reset none. -/
  newest : Option Ckpt
  /-- checkpoint whose root or CHECKPOINT record is not yet on the medium: the one before it still stands (R248). Reset none. -/
  written : Option Ckpt
  /-- next CKPT_SEQ, 64 bits. Reset 1. -/
  nextCkpt : Nat
  /-- host-stream bytes programmed since the last checkpoint started (R247). Reset 0. -/
  hostBytes : Nat
  /-- stop records in keeper flash, newest first (R254). Reset empty. -/
  stops : List StopRec
  /-- next STOP_SEQ. Reset 1. -/
  nextStop : Nat
  /-- hold-up records on the medium, newest first (R253). Reset empty. -/
  holdups : List Holdup
  /-- next HOLDUP_SEQ. Reset 1. -/
  nextHoldup : Nat
  /-- Table 10-7 runs since this cycle (R252). Reset none. -/
  stopFrom : Option Nat
  /-- the running stop's kind. Reset POWER_FAIL. -/
  stopKind : StopKind
  /-- Table 10-7 has ended: nothing moves until PORST_N (R252). Reset false. -/
  stopEnded : Bool
  /-- nothing was admitted or journalled since the newest KIND 3 stop record (R262). Reset false. -/
  cleanStands : Bool
  deriving DecidableEq, Repr

/-- Bay states (Table 15-3), in the encoding of Table 7-4. -/
inductive BaySt where
  | absent | inserted | commissioning | member | spare | evacuating | failed | released
  deriving DecidableEq, Repr

/-- A rewrite of a bay's descriptor (R239): the copy in hand, 0 A or 1 B, whether it is the second of the two, its DESCRIPTOR_SEQ, the next of
its operations, and its frames page by page. -/
structure Rewrite where
  copy : Nat
  second : Bool
  seq : Nat
  step : Nat
  frames : List (List Byte)
  deriving DecidableEq, Repr

/-- A bay position and its carrier (chapter 15). -/
structure Bay where
  bay : Nat
  /-- state (Table 15-3). Reset ABSENT. -/
  st : BaySt
  /-- BAY_PRSNT_N low, 1 bit. Reset 0. -/
  present : Bool
  /-- BAY_PWREN high, 1 bit. Reset 0. -/
  pwrEn : Bool
  /-- BAY_ISO_N high, 1 bit. Reset 0. -/
  connected : Bool
  /-- WP_N of its channels high, 1 bit. Reset 0. -/
  writable : Bool
  /-- BAY_FAULT_N low, 1 bit. Reset 0. -/
  faultLow : Bool
  /-- image profile; none is 0xFF (Table 7-4). Reset none. -/
  profile : Option Nat
  /-- FOREIGN (R365). Reset 0. -/
  foreign : Bool
  /-- BAY_UID, 64 bits; 0 none. Reset 0. -/
  uid : Nat
  /-- DESCRIPTOR_TIGRIM, 16 bits. Reset 0. -/
  tigrim : Nat
  /-- DESCRIPTOR_SEQ of copies A and B (R239). Reset 0, 0. -/
  seqA : Nat
  seqB : Nat
  /-- IMAGE_ID under which the descriptor was last written. Reset 0. -/
  imageId : Nat
  /-- hash of the tables in the descriptor (R48). Reset 0. -/
  tablesHash : Nat
  /-- frames of copies A and B as their pages hold them (R237). Reset empty, empty. -/
  copyA : List (List Byte)
  copyB : List (List Byte)
  /-- rewrite of the descriptor that runs (R239). Reset none. -/
  rewrite : Option Rewrite
  /-- AET second of the last rewrite and defect list length then (R239). Reset 0, 0. -/
  rewrittenAt : Nat
  defects : List (Madr × Nat)
  listedDefects : Nat
  /-- DEFECT_OVERFLOW (R238). Reset 0. -/
  overflow : Bool
  /-- hash of the binding sections of the descriptor read (R47, R377). Reset 0. -/
  bindingHash : Nat
  /-- DIE_IDENT (Table 7-4). Reset empty. -/
  ident : List Byte
  /-- MEMBER for the first time: no set opens before the checkpoint of R247 (R370). Reset false. -/
  fresh : Bool
  /-- sets on the bay when its evacuation began (Table 7-9 PROGRESS). Reset 0. -/
  evacTotal : Nat
  /-- dies recognised, 32 x channel + die (R518). Reset empty. -/
  dies : List Nat
  /-- identification of each die as it was read, for the recognition of another image (R32, R46): die, pattern. Reset empty. -/
  pats : List (Nat × Nat)
  /-- dies failed (R346). Reset empty. -/
  failedDies : List Nat
  /-- raw capacity, bytes. Reset 0. -/
  raw : Nat
  /-- U0_b, usable blocks when it became MEMBER (Table 11-1). Reset 0. -/
  u0 : Nat
  /-- grown-defect share left (Table 11-2). Reset 0. -/
  spareLeft : Nat
  /-- PROGRESS, 0.01 % (Table 7-9). Reset 0. -/
  progress : Nat
  /-- STATE_AET. Reset 0. -/
  stateAet : Nat
  /-- LAST_BLOCK_SEQ and CREATED_AET of the descriptor (Table 9-9). Reset 0, 0. -/
  lastBlockSeq : Nat
  createdAet : Nat
  /-- asked to become SPARE at the end of commissioning. Reset false. -/
  asSpare : Bool
  /-- CANCEL_EVACUATE performed, waiting for the last running operation (R374). Reset false. -/
  cancelled : Bool
  /-- thermal clock TC_b, seconds equivalent (R314). Reset 0. -/
  tc : Nat
  /-- last die temperature sampled on the bay (R314). Reset none. -/
  lastTemp : Option Int
  /-- highest die temperature sampled on the bay in this AET minute (R314). Reset none. -/
  minuteTemp : Option Int
  deriving DecidableEq, Repr

/-- A member failure recorded (Table 14-4). -/
structure MemberFail where
  bay : Nat
  die : Option Nat
  profile : Nat
  uid : Nat
  deriving DecidableEq, Repr

/-- What the reclaim agents of a profile do (R273). -/
structure ReclaimSt where
  profile : Nat
  /-- RECLAIM running (R273). -/
  on : Bool
  /-- RESERVE_RECLAIM running (R273). -/
  reserveOn : Bool
  /-- next victim forced by the wear rescue (R280). -/
  rescue : Option Nat
  /-- in shortfall (R327). -/
  shortfall : Bool
  /-- HORIZON_DAYS of the last HORIZON_LOWERED event (R327). -/
  lastLowered : Nat
  /-- ENDURANCE_ADVISORY armed (R331). -/
  armed : Bool
  /-- patrol: cycle running, its list left, its start, next grid point (AET seconds), lateness (R319, R320). -/
  patrolOn : Bool
  patrolList : List Nat
  patrolDone : List Nat
  patrolNext : Nat
  patrolLate : Bool
  /-- pages of the cycle's sets not yet done that patrol has read (R320). -/
  patrolRead : List Madr
  /-- starts of the last three cycles: AET second, last CSN issued by then (R192). -/
  marks : List (Nat × Nat) := []
  deriving DecidableEq, Repr

/-- Measured fraction of a set, in ppm (R317), and pages read. -/
structure Measure where
  seq : Nat
  ppm : Nat
  /-- the value of the pass that is running (R317). -/
  run : Nat
  deriving DecidableEq, Repr

/-- The media cluster. -/
structure Media where
  /-- highest block sequence number assigned, 64 bits (R224). Reset 0. -/
  blockSeqHigh : Nat
  /-- open sets' run-time side (R215). Reset empty. -/
  opens : List OpenSet
  /-- physical pages that are not erased. Reset empty. -/
  pages : List PageRec
  /-- dies with state (R294, R346). Reset empty. -/
  dies : List DieSt
  /-- running ladders (R300). Reset empty. -/
  ladders : List Ladder
  /-- offset cache: block page 0, page type, entry that decoded (R299). Reset empty. -/
  offsets : List (Madr × Nat × Nat)
  /-- blocks with one verify failure (Table 9-7). Reset empty. -/
  verifyFails : List Madr
  /-- slots that failed a first ladder (R359). Reset empty. -/
  ladderFails : List Madr
  /-- bays 0 to 15 (R363). Reset 16 ABSENT positions. -/
  bays : List Bay
  /-- retired list, newest first, at most 256 BAY_UIDs, in keeper flash (R369). Reset empty. -/
  retired : List Nat
  /-- member failures whose columns still lack (R346). Reset empty. -/
  fails : List MemberFail
  /-- PRISM_STATUS.REBUILD, 3 bits (Table 14-5). Reset 0. -/
  rebuild : Nat
  /-- ROWS_DONE, 64 bits (R358). Reset 0. -/
  rowsDone : Nat
  /-- ROWS_TOTAL, 64 bits (R358). Reset 0. -/
  rowsTotal : Nat
  /-- LOST_STRIPES, 64 bits (R360). Reset 0. -/
  lostStripes : Nat
  /-- rows declared lost: set, row (R360). Reset empty. -/
  lostRows : List (Nat × Nat)
  /-- a rebuild waits for the next window boundary (R353). Reset false. -/
  rebuildDue : Bool
  /-- next SJ_SEQ and the newest stripe-journal record's entries and bays (R342, R343). Reset 1, empty, 0. -/
  sjSeq : Nat
  sj : List SjEntry
  sjBays : BitVec 16
  /-- stripe-journal records made and not yet cover (R341). Reset empty. -/
  sjWait : List SjWait
  /-- a stripe-journal record is due: a root was written, or a copy failed (R343). Reset false. -/
  sjDue : Bool
  /-- claims (R281). Reset empty. -/
  claims : List Claim
  /-- REFRESH list (R326). Reset empty. -/
  refresh : List Trigger
  /-- evacuation list order is derived; sets left when last journalled (Table 15-4). Reset 0. -/
  evacLeft : Nat
  /-- reclaim and patrol per profile (R273, R319). Reset empty. -/
  prof : List ReclaimSt
  /-- patrol paused until this AET second (R324). Reset none. -/
  patrolPause : Option Nat
  /-- FULL state (R269). Reset false. -/
  full : Bool
  /-- USER_SEGMENTS as last computed (R268). Reset 0. -/
  userSegs : Nat
  /-- measured fractions (R317). Reset empty. -/
  measured : List Measure
  /-- at-risk sets and those the sweep has done (R329, R330). Reset empty, empty. -/
  atRisk : List Nat
  swept : List Nat
  /-- pages of at-risk sets that the sweep has read (R330). Reset empty. -/
  sweepRead : List Madr
  /-- pages of every set that the running sweep has counted at risk (SWEEP_DONE, R330). Reset 0. -/
  sweepPages : Nat
  /-- UNPOWERED_S, 64 bits (R328). Reset 0. -/
  unpowered : Nat
  /-- fabric cycle at which NOT_READY cleared (R329). Reset none. -/
  readyAt : Option Nat
  /-- HORIZON_DAYS and BAY_HORIZON of the last recomputation (R318, R335). Reset 0xFFFFFFFF, empty. -/
  horizon : Nat
  bayHorizon : List (Nat × Nat)
  /-- HORIZON_ALERT state (R332). Reset false. -/
  alert : Bool
  /-- thermal logs in keeper flash by BAY_UID: AET second, TC; newest first (R315). Reset empty. -/
  thermLogs : List (Nat × List (Nat × Nat))
  /-- AET minute and hour last evaluated (R314, R316). Reset 0, 0. -/
  lastMinute : Nat
  lastHour : Nat
  /-- import in progress: the bays of the group (R376). Reset empty. -/
  importing : List Nat
  /-- blocks erased whose ERASED record was lost with the staging area: their erase is counted at the restart (Table 10-12). Reset empty. -/
  lostErases : List Madr
  /-- a draw was granted whose operation has not ended (R465). Reset false. -/
  workPending : Bool
  /-- operations of the maintenance agents that wait for a draw, in the order asked (R73, R233). Reset empty. -/
  undrawn : List DieOp
  deriving DecidableEq, Repr

/-! ## Twin (chapter 16) -/

/-- An outgoing frame that an ACK has not yet covered (R386). -/
structure SentFrame where
  fseq : Nat
  frame : Frame
  deriving DecidableEq, Repr

/-- Twin supervision and the Zynmi link. -/
structure Twin where
  /-- TWIN_EN strap (R379). Reset 0 (strap, sampled at PORST_N release). -/
  en : Bool
  /-- TWIN_SEAT strap (R379). Reset 0. -/
  seat : Bool
  /-- role (Table 16-2). Reset SOLO. -/
  role : Role
  /-- PARTNER_ROLE, 3 bits (Table 16-8). Reset 4 FENCED. -/
  partnerRole : Role
  /-- OWN_N driven low, 1 bit. Reset 0. -/
  own : Bool
  /-- OWN_PEER_N low, 1 bit. Reset 0. -/
  peerOwn : Bool
  /-- FENCE_N driven low since this cycle. Reset none. -/
  fenceFrom : Option Nat
  /-- TWIN_HB_OUT level, 1 bit. Reset 0. -/
  hbOut : Bool
  /-- cycle of the last TWIN_HB_IN edge (Table 16-8 HB_ALIVE). Reset none. -/
  hbEdge : Option Nat
  /-- cycle of the last frame accepted (R384). Reset none. -/
  lastFrame : Option Nat
  /-- HB_MISSES, 16 bits, RC, saturating (R384). Reset 0. -/
  hbMisses : Nat
  /-- HB_MISSES since restart, 32 bits (Table 7-15). Reset 0. -/
  hbTotal : Nat
  /-- cycle from which this chip supervises its partner (R384): its start. Reset 0. -/
  superFrom : Nat
  /-- cycle up to which HB_MISSES is counted. Reset 0. -/
  hbCounted : Nat
  /-- TAKE_OVERS, 16 bits, saturating. Reset 0. -/
  takeOvers : Nat
  /-- FAILOVERS since manufacture, 32 bits (Table 7-15). Reset 0. -/
  failovers : Nat
  /-- AET of the last take-over. Reset 0. -/
  foAet : Nat
  /-- TWIN_FO_AET_HI as latched, 32 bits. Reset 0. -/
  foAetHi : Word
  /-- SYNC_DONE, 16 bits, 0.01 % (R400). Reset 0. -/
  syncDone : Nat
  /-- PAIR_REJECT, 8 bits (R397). Reset 0. -/
  pairReject : Nat
  /-- TWIN_SOLO_HOLD.HOLD, 1 bit (Table 16-8). Reset 0. -/
  hold : Bool
  /-- LANES_UP, 4 bits (R514). Reset 0. -/
  lanes : Nat
  /-- next FSEQ to send, 64 bits (R386). Reset 1. -/
  txSeq : Nat
  /-- last FSEQ accepted (R386). Reset 0. -/
  rxSeq : Nat
  /-- frames sent that no ACK covers (R386). Reset empty. -/
  unacked : List SentFrame
  /-- cycle at which an ACK last advanced (R386). Reset 0. -/
  ackAt : Nat
  /-- frames sent, oldest first: FSEQ and frame (the link's transmit side). Reset empty. -/
  sent : List SentFrame
  /-- FSEQ of the SYNC_END sent; its ACK makes the partner STANDBY (R400). Reset none. -/
  syncEnd : Option Nat
  /-- FSEQ of a HAND_OVER sent (R404) and its context. Reset none. -/
  handOver : Option (Nat × Nat)
  /-- a HAND_OVER frame of the active was acknowledged by this chip (R404). Reset false. -/
  handOverIn : Bool
  /-- last started rows that the HAND_OVER frame gave (Table 16-5). Reset empty. -/
  handOverSets : List (Nat × Nat)
  /-- partner's identity of PAIR_HELLO (R397). Reset none. -/
  peer : Option PairHello
  /-- a PAIR_HELLO that pairing does not refuse has come since the link trained, and this chip has not fallen back since (R397). Reset false. -/
  greeted : Bool
  /-- pair record in keeper flash: partner SERIAL, wrap key (R397). Reset none. -/
  pairRec : Option (List Byte × BitVec 256)
  /-- pairing in progress: own ephemeral key number, partner's point, the PAIR command's context on the active (R398). Reset none. -/
  pairing : Option (Nat × Option (List Byte) × Option Nat)
  /-- ephemeral keys drawn. Reset 0. -/
  keysDrawn : Nat
  /-- mirrored admission slots of the partner (R389). Reset empty. -/
  slots : List AdmSlot
  /-- mirrored queues of the partner, by port (R389). Reset empty. -/
  queues : List (Port × Queue)
  /-- mirrored feature values (R389). Reset empty. -/
  features : List (Nat × List Word)
  /-- highest CAPTURE_JSEQ of the SYNC_PIECE frames received: records up to it are kept and not applied (R400). Reset 0. -/
  capture : Nat
  /-- newest FRONTIER content (R389). Reset empty. -/
  frontier : List SjEntry
  /-- partner's stop record of a STOP frame (R402). Reset none. -/
  peerStop : Option StopRec
  /-- the last HEARTBEAT: condition, status pins, AET, CSN_LAST, JSEQ (Table 16-5). Reset 0. -/
  hbCond : Half
  hbPins : BitVec 6
  hbAet : Dword
  hbCsn : Nat
  hbJseq : Nat
  /-- highest CSN block mirrored, first CSN of it (R104). Reset 0. -/
  csnBlock : Nat
  /-- LAST_FAILOVER_AET (Table 7-15). Reset 0. -/
  lastFoAet : Nat
  /-- the status outputs show the partner's last HEARTBEAT until NOT_READY clears (R381). Reset false. -/
  gapPins : Bool
  deriving DecidableEq, Repr

/-! ## Digest, pods, mover (chapters 17, 18) -/

/-- The running state of a digest (Table 17-1). -/
structure DigState where
  /-- 1 SHA-256, 2 SHA-512, 3 SHA3-256. -/
  alg : Nat
  keyed : Bool
  /-- chaining value or sponge state, as words: 8 x 32, 8 x 64 or 25 x 64 bits. -/
  chain : List Nat
  /-- bytes that do not fill a block (R409). -/
  residue : List Byte
  /-- BYTES_FED, 64 bits (R409). -/
  fed : Nat
  deriving DecidableEq, Repr

/-- A digest context (R410). -/
structure DigCtx where
  /-- CONTEXT_ID, 25 bits (R410). -/
  id : Nat
  port : Port
  d : DigState
  /-- slot 0 to 255, none while parked (R420). -/
  slot : Option Nat
  /-- shelf frame while parked (R420). -/
  frame : Option Nat
  /-- GCM_TAG of the parked onion, 16 bytes (R420). -/
  tag : List Byte
  /-- CSN of the last command performed on it (R420). -/
  lastCsn : Nat
  /-- context of an admitted FINAL or CLOSE (R410). -/
  standing : Option Nat
  /-- command being performed on it (R420). -/
  busy : Option Nat
  /-- context ended, kept until its admitted commands complete (R413, R420, R421). -/
  ended : Bool
  /-- the CONTEXT_BUSY cause that those commands report: 2 or 3 (R415). -/
  cause : Nat
  deriving DecidableEq, Repr

/-- A chunk of a digest command (R417). -/
structure Chunk where
  cid : Nat
  slot : Nat
  cyc : Nat
  bytes : Nat
  deriving DecidableEq, Repr

/-- The digest engine. -/
structure Dig where
  /-- contexts (R410). Reset empty. -/
  ctxs : List DigCtx
  /-- ready chunks in order of readiness (R417). Reset empty. -/
  ready : List Chunk
  /-- chunks in pipes 0 to 15 (R417). Reset empty. -/
  pipes : List (Nat × Chunk)
  /-- wrap counter, 64 bits, and the end of the values reserved in keeper flash, in blocks of 2^20 (R419). Reset 0, 0. -/
  wrapNext : Nat
  wrapReserved : Nat
  deriving DecidableEq, Repr

/-- A waiting pod request (R428). -/
structure PodReq where
  requester : Nat
  pod : Nat
  dram : Bool
  deriving DecidableEq, Repr

/-- Pod bitmaps and charges (R427). -/
structure Pods where
  /-- allocated units: pod, index, requester charged. Reset empty. -/
  used : List (Nat × Nat × Nat)
  /-- requests that wait, by arrival (R428). Reset empty. -/
  waiting : List PodReq
  /-- addresses granted, newest first: requester, pod, index (R431). Reset empty. -/
  grants : List (Nat × Nat × Nat)
  deriving DecidableEq, Repr

/-- Mover channel states (R432). -/
inductive ChanSt where
  | idle | running | halted
  deriving DecidableEq, Repr

/-- A mover channel that is not idle and empty. -/
structure Chan where
  ch : Nat
  st : ChanSt
  /-- posted descriptors, the running or faulted one first, at most 64 (R432). -/
  descs : List MoverDesc
  /-- posts that wait for room (R432). -/
  waiting : List MoverDesc
  /-- latch: CAUSE, DIRECTION, SPACE, byte address (R440). -/
  cause : Nat
  direction : Bool
  space : Nat
  addr : Nat
  /-- kept request-line credit, 0 to 255 (R438). -/
  credit : Nat
  /-- bytes of the running PACED descriptor whose reads are released (R438). -/
  released : Nat
  deriving DecidableEq, Repr

/-- A descriptor's outcome returned with its TOKEN (R432). -/
structure MoverRet where
  ch : Nat
  token : Word
  /-- 0 done, 1 EQUAL, 2 difference, 3 fault reported, 4 discarded by RESET_CHANNEL, 5 withdrawn. -/
  kind : Nat
  value : Nat
  cause : Nat
  direction : Bool
  deriving DecidableEq, Repr

/-- The mover. -/
structure Mover where
  /-- channels 0 to 63, those in use (R432). Reset empty. -/
  chans : List Chan
  /-- outcomes returned, oldest first (R432). Reset empty. -/
  rets : List MoverRet
  deriving DecidableEq, Repr

/-! ## Keeper flash and boot (chapter 19) -/

/-- One requester's copy of the sequencer registers (Table 19-4). -/
structure KfReq where
  /-- KEY_STATE, 2 bits (R445). Reset 0. -/
  key : Nat
  /-- KF_CMD as written, 8 bits. Reset 0. -/
  cmd : Nat
  /-- KF_ADDR, 26 bits. Reset 0. -/
  addr : Nat
  /-- PROGRAM address written: the DATA write starts it (R445). Reset false. -/
  addrGiven : Bool
  /-- command running. Reset none. -/
  running : Option (Nat × Nat)
  /-- command that waits for its bank (R445). Reset none. -/
  waiting : Option (Nat × Nat)
  /-- KF_STATUS bits 3 to 11: DONE, SEQUENCE, SELF_BANK, LOCKED, ALIGN, NOT_ERASED, UNVERIFIED, VERIFY_FAIL, MARGIN_FAIL. Reset 0. -/
  flags : BitVec 12
  /-- WEAK_BITS, 17 bits. Reset 0. -/
  weak : Nat
  /-- PULSES, 4 bits. Reset 0. -/
  pulses : Nat
  /-- KF_CRC, 32 bits. Reset 0. -/
  crc : Word
  /-- KF_DATA, 64 words, those written since reset (others 0): index, value. Reset empty. -/
  data : List (Nat × Word)
  /-- the buffer as it stood when the PROGRAM that runs or waits was started (R445). Reset empty. -/
  buffer : List (Nat × Word)
  deriving DecidableEq, Repr

/-- SLOT[s] of a boot record (Table 19-5). -/
structure BootSlot where
  st : Nat
  reason : Nat
  section_ : Nat
  commitAet : Nat
  deriving DecidableEq, Repr

/-- A boot record (Table 19-5). -/
structure BootRec where
  seq : Nat
  active : BitVec 3
  previous : BitVec 3
  pend : BitVec 3
  trial : BitVec 3
  slots : List BootSlot
  deriving DecidableEq, Repr

/-- A download session (R458). -/
structure Session where
  component : Nat
  port : Port
  blocks : List Nat
  deriving DecidableEq, Repr

/-- The running components: package header fields that other rules read (Table 19-7). -/
structure Running where
  keeperFw : Nat
  clusterFw : Nat
  keeperLevel : Nat
  keeperPeerMin : Nat
  fwLevel : Nat
  clusterPeerMin : Nat
  tigrimWrite : Nat
  linkLevel : Nat
  linkLevelMin : Nat
  imageVersion : Nat
  imageId : Nat
  fwLevelMin : Nat
  fwLevelMax : Nat
  imageTigrim : Nat
  label : List Byte
  sectionFormats : List Word
  deriving DecidableEq, Repr

/-- Keeper flash, boot and calibration. -/
structure Kf where
  /-- keeper flash contents, 64 MiB; an unlisted byte reads 0xFF (R443, assumption 3). Reset nothing listed. -/
  mem : List Host.Cell
  /-- sectors erased since their last passing margin read (R446). Reset empty. -/
  unverified : List Nat
  /-- sectors whose last margin reads by the keeper failed, with how many in a row (R447). Reset empty. -/
  marginFails : List (Nat × Nat)
  /-- requester 0, the keeper core (R445). -/
  core : KfReq
  /-- requester 1, the sideband window (R445). -/
  side : KfReq
  /-- RECOVERY_CTRL.REQUEST, 1 bit (R450); reset only at always-on power-up. Reset 0. -/
  recRequest : Bool
  /-- RECOVERY_STATUS.MODE, 1 bit. Reset 0. -/
  recMode : Bool
  /-- RECOVERY_STATUS.CAUSE, 2 bits. Reset 0. -/
  recCause : Nat
  /-- boot record in force (R454). Reset slot A active everywhere, BOOT_SEQ 0. -/
  boot : BootRec
  /-- slots that the running components came from (R42, R455): keeper, cluster, structure. Reset slot A. -/
  runSlot : BitVec 3
  /-- open download sessions (R458). Reset empty. -/
  sessions : List Session
  /-- an ON_SHUTDOWN commit or revert waits for both ports (R459). Reset false. -/
  onShutdown : Bool
  /-- the pending commit contains a QUIET difference (R52). Reset false. -/
  pendQuiet : Bool
  /-- newest user overlay: item, value, and OVL_SEQ (R452, R453). Reset empty, 0. -/
  overlay : List (Nat × Int)
  ovlSeq : Nat
  /-- factory calibration row: item, value (R452). Reset empty. -/
  factory : List (Nat × Int)
  /-- effective calibration in force since boot: item, value (R50). Reset empty. -/
  effective : List (Nat × Int)
  /-- saved feature values: scope (0 device, 1 port A, 2 port B), feature, words (R175). Reset empty. -/
  saved : List (Nat × Nat × List Word)
  /-- the flash sequencer changed a sector that holds saved feature values: which records still pass their CRC is open (R175). Reset false. -/
  savedHit : Bool
  /-- owner key fuse, 384 bits; none unprogrammed (R39). Reset unprogrammed. -/
  ownerFuse : Option (BitVec 384)
  /-- revocation fuses of boot ROM keys 0 to 3 (R38). Reset none blown. -/
  revoked : BitVec 4
  /-- image values in force (R46). Reset Table 2-11. -/
  img : ImgVals
  /-- bytes of the structure image that runs, as it was loaded (R46, R51). Reset empty. -/
  imgBytes : List Byte
  /-- a structure image is applied (R46). Reset false. -/
  imgValid : Bool
  /-- running component headers (Table 19-7). Reset zero. -/
  run : Running
  /-- DRAM found by training, MiB (R46). Reset 0. -/
  dramMib : Nat
  /-- host cluster released (R84). Reset false. -/
  released : Bool
  /-- BOARD_ID and SB_ADDR straps (R503). Reset 0, 0. -/
  boardId : BitVec 4
  sbAddr : BitVec 3
  /-- PORST_N low. Reset true. -/
  porst : Bool
  /-- the boot is held until sensor 15 reads below RP (R482). Reset false. -/
  tripHold : Bool
  /-- step of Table 10-10 in progress, 0 none. Reset 0. -/
  restartStep : Nat
  /-- the restart is unclean (R262). Reset false. -/
  unclean : Bool
  deriving DecidableEq, Repr

/-! ## Power and thermal (chapter 20) -/

/-- Power states, votes, supply, temperature and throttling. -/
structure Power where
  /-- PS_STATUS.STATE, 3 bits. Reset 0. -/
  st : Nat
  /-- PS_STATUS.ENTERING: target and next step of Table 20-4. Reset none. -/
  entering : Option (Nat × Nat)
  /-- PS_CONTROL.PS_LIMIT, 3 bits. Reset 4. -/
  limit : Nat
  /-- PS_CONTROL.PS4_NOW, 1 bit. Reset 0. -/
  ps4Now : Bool
  /-- PS_CONTROL.TEST_HOLD, 1 bit. Reset 0. -/
  testHold : Bool
  /-- MAINT_WAKE.HOURS, 8 bits. Reset 24. -/
  maintWake : Nat
  /-- WAKE_LAST.SOURCE, 8 bits. Reset 0. -/
  wakeSource : Nat
  /-- WAKE_LAST.FROM, 3 bits. Reset 0. -/
  wakeFrom : Nat
  /-- WAKE_AET, 64 bits, and its latched high half. Reset 0, 0. -/
  wakeAet : Nat
  wakeAetHi : Word
  /-- REFUSE_LAST REASON, TARGET, VALID. Reset 0, 0, 0. -/
  refuseReason : Nat
  refuseTarget : Nat
  refuseValid : Bool
  /-- POWER_ACCOUNTING.REFUSALS, 8 counters, since manufacture (R467). Reset 0 each. -/
  refusals : List Nat
  /-- target last refused and idle time at the refusal (R467). Reset none. -/
  lastRefused : Option (Nat × Nat)
  /-- cycle since which no voter capped at PS0 (R466). Reset 0. -/
  idleFrom : Nat
  /-- always-on cycle of ENTRY_COMMIT (R471). Reset none. -/
  commitAo : Option Nat
  /-- core domain off: cycle c + 4 has passed (Table 20-4). Reset false. -/
  domainsOff : Bool
  /-- AET second of the PS3 or PS4 entry (R468). Reset 0. -/
  entryAet : Nat
  /-- ENTRIES of PS0 to PS4 since restart (Table 7-13). Reset 0 each. -/
  entries : List Nat
  /-- fabric periods spent in PS0 to PS4 since restart, 10^6 to a STATE_MS (Table 7-13). Reset 0 each. -/
  stateTime : List Nat
  /-- AVS_STATUS.TARGET_MV, 16 bits. Reset calib (0 while no calibration is read). -/
  avsTarget : Nat
  /-- AVS_STATUS.PENDING with the attempts made and whether it is a raise. Reset none. -/
  avsPending : Option (Nat × Bool)
  /-- newest target that waits for the pending request (R474). Reset none. -/
  avsNext : Option Nat
  /-- voltage in force, mV. Reset 0. -/
  avsNow : Nat
  /-- AVS_STATUS.FAULT, 1 bit. Reset 0. -/
  avsFault : Bool
  /-- level 12 held because a raise failed (R474). Reset false. -/
  avsHold : Bool
  /-- AVS_COUNTS REQUESTS and RETRIES, 16 bits each, RC, saturating. Reset 0, 0. -/
  avsRequests : Nat
  avsRetries : Nat
  /-- AVS_REQUESTS since restart, 32 bits (Table 7-13). Reset 0. -/
  avsTotal : Nat
  /-- AVS_SETTLE, 10 bits. Reset 50. -/
  avsSettle : Nat
  /-- cycle of the last request (R474). Reset 0. -/
  avsAt : Nat
  /-- THERM_STATUS.BAND, 3 bits. Reset 1. -/
  band : Nat
  /-- band last trained (R478). Reset 1. -/
  trainedBand : Nat
  /-- retraining pass: channels left (R478). Reset none. -/
  retrain : Option Nat
  /-- readings of sensors 0 to 15, C, signed; none invalid or not yet sampled (R476). Reset none each. -/
  sensors : List (Option Int)
  /-- SENSOR_VALID, 16 bits. Reset 0xFFFF. -/
  valid : BitVec 16
  /-- consecutive samples off the median, per sensor (R476). Reset 0 each. -/
  offMedian : List Nat
  /-- PEAK per sensor since restart (Table 7-12). Reset -128 each. -/
  peaks : List Int
  /-- consecutive samples at or above 120 C (R482). Reset 0 each. -/
  hotRuns : List Nat
  /-- REPORTED_MAX and MAX_SENSOR. Reset 0, 0. -/
  maxTemp : Int
  maxSensor : Nat
  /-- LT, LP and SENSOR_DEGRADED (R479, R480, R476). Reset 0, 0, 0. -/
  lt : Nat
  lp : Nat
  degraded : Bool
  /-- POWER_CAP.CAP_W, 8 bits. Reset 0. -/
  cap : Nat
  /-- POWER_EST.P_EST, 16 bits, 0.1 W. Reset 0. -/
  est : Nat
  /-- THERMAL.TRIPS, 32 bits, lifetime (Table 7-12). Reset 0. -/
  trips : Nat
  /-- tripped: held until PORST_N (R482). Reset false. -/
  tripped : Bool
  /-- THROTTLE_ENTRIES since restart (Table 7-12). Reset 0. -/
  throttleEntries : Nat
  /-- fabric periods spent THROTTLED since restart, 10^9 to a THROTTLE_S (Table 7-12). Reset 0. -/
  throttleTime : Nat
  /-- JTAG TAP out of Test-Logic-Reset (R516). Reset false. -/
  tapOut : Bool
  /-- address match latch (R512). Reset false. -/
  matchLatch : Bool
  deriving DecidableEq, Repr

/-! ## Counters, Periscope, sideband (chapters 21, 22) -/

/-- A unit batch in the retirement queue (R489). -/
structure Retire where
  units : Nat
  ok : Bool
  port : Port
  deriving DecidableEq, Repr

/-- A Periscope sample (Table 21-8): 16 dwords. -/
abbrev Sample := List Word

/-- Performance counters and Periscope. -/
structure Ctr where
  /-- live counters 0 to 47, 64 bits each (R485). Reset 0 each. -/
  live : List Nat
  /-- snapshot counters 0 to 47 (R486). Reset 0 each. -/
  snap : List Nat
  /-- snapshot being collected: its values, AET, RETIRE_BACKLOG, readable at this cycle (R486). Reset none. -/
  collecting : Option (List Nat × Nat × Nat × Nat)
  /-- a trigger is held for the cycle after it (R486). Reset false. -/
  held : Bool
  /-- SNAP_AET, 64 bits. Reset 0. -/
  snapAet : Nat
  /-- RETIRE_BACKLOG at the snapshot (R496). Reset 0. -/
  snapBacklog : Nat
  /-- EPOCH and SNAP_SEQ, 16 bits each, wrapping. Reset 0, 0. -/
  epoch : Nat
  snapSeq : Nat
  /-- CNT_CTRL RUN, SNAP_ON_WINDOW, TD_PORT. Reset 1, 0, 0. -/
  run : Bool
  snapOnWindow : Bool
  tdPort : Nat
  /-- CNT_SEL[8..47]: EVENT and INSTANCE (Table 21-5). Reset 0x00, 0x1F each. -/
  sel : List (Nat × Nat)
  /-- live counters as they stood at the start of the cycles since 16 cycles ago, newest first (R485, what a read may still miss). Reset empty. -/
  past : List (Nat × List Nat)
  /-- snapshots still to become readable before MIRROR_CTRL.SNAP reads 0 (R495). Reset 0. -/
  mirrorWait : Nat
  /-- retirement queue (R489). Reset empty. -/
  retire : List Retire
  /-- PSC_CTRL ARM, WRAP, JITTER. Reset 0, 0, 0. -/
  arm : Bool
  wrap : Bool
  jitter : Bool
  /-- PSC_PERIOD, 17 bits. Reset 1024. -/
  pscPeriod : Nat
  /-- PSC_FILTER, 26 bits. Reset 0. -/
  filter : Word
  /-- commands matched since the last sample, and the interval in force with JITTER (R492). Reset 0, 1024. -/
  matched : Nat
  interval : Nat
  /-- PSC_HEAD and PSC_TAIL, 12 bits each. Reset 0, 0. -/
  head : Nat
  tail : Nat
  /-- PSC_DROPPED, 32 bits, RC, saturating. Reset 0. -/
  dropped : Nat
  /-- Periscope ring: index, sample (R494). Reset empty. -/
  ring : List (Nat × Sample)
  /-- high half latched for the sideband (R485). Reset 0. -/
  sideHi : Word
  /-- contexts of GET_LOG 0x08 that wait for their snapshot, with the snapshots still to become readable (R496). Reset empty. -/
  logWaiters : List (Nat × Nat)
  /-- contexts of GET_LOG 0x08 whose snapshot is readable (R496). Reset empty. -/
  logReady : List Nat
  deriving DecidableEq, Repr

/-- The sideband target and the status pins. -/
structure Side where
  /-- SB_CTRL WAKE_ON_MATCH and PEC. Reset 1, 0. -/
  wakeOnMatch : Bool
  pec : Bool
  /-- DYN_ADDR, 7 bits, with DYN_VALID. Reset none. -/
  dyn : Option (BitVec 7)
  /-- SB_ERRORS MISALIGNED, PEC_FAIL, SHORT_WRITE, 8 bits each, RC, saturating. Reset 0, 0, 0. -/
  misaligned : Nat
  pecFail : Nat
  shortWrite : Nat
  /-- KEEPER_FW_HI and CLUSTER_FW_HI as latched. Reset 0, 0. -/
  keeperHi : Word
  clusterHi : Word
  /-- PIN_STATUS.PWRFAIL: PWRFAIL_N low after filtering. Reset 0. -/
  pwrfail : Bool
  /-- ACT_N driven low until this cycle (R507). Reset none. -/
  actUntil : Option Nat
  /-- bytes of the last answer to a common command code (R510). Reset empty. -/
  ccc : List Byte
  deriving DecidableEq, Repr

/-! ## Logs, features, outputs, and the whole state -/

/-- An event (Table 7-17). -/
structure Event where
  seq : Nat
  aet : Nat
  kind : Nat
  code : Nat
  param0 : Nat
  param1 : Nat
  cond : Half
  deriving DecidableEq, Repr

/-- Device-wide features (Table 7-16) that no other unit holds. -/
structure Feat where
  /-- POWER_TIMERS: T1 (10 us), T2 (ms), T3 (s), T4 (s). Reset 10, 50, 0, 0. -/
  t1 : Nat
  t2 : Nat
  t3 : Nat
  t4 : Nat
  /-- PATROL_CYCLE days. Reset image (14). -/
  patrolDays : Nat
  /-- THERMAL_LIMITS throttle point and hysteresis. Reset 100, 5. -/
  throttlePoint : Nat
  throttleHyst : Nat
  /-- JOURNAL_INTERVAL ticks. Reset image (8). -/
  journalTicks : Nat
  /-- REBUILD_SHARE percent. Reset 50. -/
  rebuildShare : Nat
  /-- HORIZON_MINIMUM days. Reset 365. -/
  horizonMin : Nat
  deriving DecidableEq, Repr

/-- HEALTH counters (Table 7-7); lifetime but where marked. -/
structure Health where
  /-- 4 KiB units of host data read and written; reported in MiB (Table 7-7). Reset 0, 0. -/
  hostReadUnits : Nat
  hostWrittenUnits : Nat
  /-- pages programmed (Table 7-7 MEDIUM_WRITTEN_MIB). Reset 0. -/
  pagesWritten : Nat
  /-- RECOVERED_BLOCKS, UNRECOVERED_BLOCKS, 64 bits. Reset 0, 0. -/
  recovered : Nat
  unrecovered : Nat
  /-- RETIRED_BLOCKS, 32 bits (Table 7-7). Reset 0. -/
  retiredBlocks : Nat
  /-- PROGRAM_FAILURES, ERASE_FAILURES, 32 bits. Reset 0, 0. -/
  programFails : Nat
  eraseFails : Nat
  /-- TILE_RELOADS, DRAM_CORRECTED, since restart. Reset 0, 0. -/
  tileReloads : Nat
  dramCorrected : Nat
  /-- UNCLEAN_RESTARTS. Reset 0. -/
  uncleanRestarts : Nat
  /-- POWER_ON_HOURS as AET minutes powered. Reset 0. -/
  onMinutes : Nat
  deriving DecidableEq, Repr

/-- What the part sends out towards a host. -/
inductive Out where
  /-- memory write of 32-bit words: port, address, words. -/
  | words (p : Port) (addr : Nat) (ws : List Word)
  /-- memory write of bytes. -/
  | bytes (p : Port) (addr : Nat) (bs : List Byte)
  /-- MSI-X message of a vector. -/
  | msi (p : Port) (vector : Nat)
  deriving DecidableEq, Repr

/-- Why a step stops. No meaning of this model raises one: the spec gives every command of the table an effect. -/
inductive Fault where
  /-- Reserved for an access the spec says does not exist; raised by nothing (safe). -/
  | absent
  deriving DecidableEq, Repr

/-- Why a step is refused. -/
inductive Refusal where
  /-- a command that has no meaning yet; raised only by an arm of `exec` (safe). -/
  | notModelled (mnemonic : String)
  deriving DecidableEq, Repr

/-- An event that the running command has raised and that goes out at its end (R25, R178): kind, code, parameters, its AET, and the port whose
ring alone takes it, none for both. -/
structure Raised where
  aet : Nat
  kind : Nat
  code : Nat
  param0 : Nat
  param1 : Nat
  only : Option Port
  deriving DecidableEq, Repr

/-- The whole part. -/
structure State where
  /-- commands that wait, first in first out (the block's input; this model's own). Reset empty. -/
  pending : List Instr
  /-- fabric cycle of the latest command that carried one (model's own time base). Reset 0. -/
  now : Nat
  /-- free values drawn so far (model's own, assumption 2). Reset 0. -/
  free : Nat
  /-- device condition word, 16 bits (R25, Table 1-8). Reset 0x0001. -/
  cond : Half
  /-- answer to the last register read, 32 bits (this model's read port). Reset 0. -/
  readData : Word
  /-- memory writes and messages sent to the hosts, oldest first (host memory lies outside the model). Reset empty. -/
  out : List Out
  /-- next CSN to assign, 64 bits (R3, R104). Reset 1. -/
  csnNext : Nat
  /-- CSN_ISSUED, 64 bits (Table 4-5). Reset 0. -/
  csnIssued : Nat
  /-- first CSN of the highest block reserved (R104); 0 none. Reset 0. -/
  csnBlock : Nat
  /-- command contexts held, 65,536 (Table 1-3). Reset empty. -/
  ctxs : List Ctx
  /-- next ERROR_SEQ, 64 bits (R133). Reset 1. -/
  errSeq : Nat
  /-- next EVENT_SEQ, 64 bits, never reset (R178). Reset 1. -/
  evSeq : Nat
  /-- EVENT_HISTORY, newest first, at most 16,384 (R178). Reset empty. -/
  evHist : List Event
  /-- events raised in this cycle and not yet sent out, oldest first (R178). Reset empty. -/
  raised : List Raised
  /-- condition word at the start of this cycle, where a flag has changed in it and the CONDITION events are still to be raised (R25). Reset
  none. -/
  condFrom : Option Half
  /-- Jisel port A (R83). -/
  portA : PortSt
  /-- Jisel port B (R83). -/
  portB : PortSt
  cad : Cad
  feat : Feat
  health : Health
  /-- the authoritative running map and tables (R198); on a STANDBY its copy of the active's (R389). Reset empty. -/
  map : MapImg
  eng : MapEng
  media : Media
  jrnl : Jrnl
  twin : Twin
  dig : Dig
  pods : Pods
  mover : Mover
  kf : Kf
  power : Power
  ctr : Ctr
  side : Side
  deriving DecidableEq, Repr

/-! ## Reset: every field after the first power-up, PORST_N still low -/

/-- Cadence registers at reset (Tables 3-3 to 3-12). -/
def Cad.reset : Cad where
  internal := false
  outFlywheel := false
  outEnable := true
  locked := false
  flywheelRun := 0
  period := 1000000
  tpsFixed := 0
  tps := 1000
  lockTps := 1000
  pendingTps := none
  aet := 0
  aetValid := false
  aetHi := 0
  setLo := 0
  setHi := 0
  pendingSet := none
  replaced := []
  setResult := 0
  spurious := 0
  flywheelTicks := 0
  forgiven := 0
  plan := ⟨16, 25, 0⟩
  pendingPlan := none
  budget := 0
  nominal := 0
  repay := 0
  charged := 0
  chargedNext := 0
  debt := 0
  drawnRebuild := 0
  drawnSweep := 0
  rescued := []
  drawnPatrol := []
  lastTick := 0
  lastWasFlywheel := false
  lastEdge := none
  intervals := []
  flySinceEdge := false
  prediction := 1000000
  lockFrom := none
  outPulse := none
  outCount := 0
  outRunts := 0
  edgeGap := false
  journalDue := 0
  journalTicks := 8
  ckptDue := 0
  firstWindow := true
  resumed := false
  lastT := 0
  windowDue := none
  windowPlan := ⟨16, 25, 0⟩

/-- An event ring at reset (Table 4-6). -/
def EvRing.reset : EvRing where
  base := 0
  entries := 0
  vector := 0
  enable := false
  head := 0
  tail := 0
  phase := true
  lost := 0

/-- The RESUMPTION log of a part never interrupted (R139). -/
def ResLog.reset : ResLog where
  generation := 0
  kind := 0
  interruptions := 0
  aetStop := 0
  aetResume := 0
  csnLast := 0
  csnNext := 0
  unclean := false
  queues := []
  cmds := []
  complete := true

/-- A port at reset (Tables 4-2 to 4-6). -/
def PortSt.reset : PortSt where
  enable := false
  heldEnable := false
  ready := false
  draining := false
  shutdownState := 0
  shutdownCkpt := none
  resumptionPending := false
  configError := false
  shutdownReq := 0
  asqEntries := 0
  acqEntries := 0
  asqBase := 0
  acqBase := 0
  csnHi := 0
  unknownQueue := 0
  malformed := 0
  ev := EvRing.reset
  msix := []
  pba := []
  msixEnable := false
  funcMask := false
  bar0 := 0
  linkUp := false
  linkLost := false
  perst := false
  l12 := false
  queues := []
  lastBells := []
  errLog := []
  res := ResLog.reset
  hostMap := []
  hostMapAddr := 0
  shelf := none
  arbHigh := 8
  arbMedium := 4
  arbLow := 1
  arbBurst := 4
  eventMask := 0
  wrrClass := 0
  wrrTurns := 8
  wrrLast := [0, 0, 0]
  ctrHi := 0
  snapAetHi := 0
  digestNext := 1
  cfgRetries := 0
  cfgAnswers := 0

/-- An empty map image. -/
def MapImg.empty : MapImg where
  nss := []
  segs := []
  lost := []
  sets := []
  blocks := []

/-- The map engine at reset. -/
def MapEng.reset : MapEng where
  tc := []
  dram := []
  hostTier := []
  dramSets := 0
  reqs := []
  pins := []
  tileReads := []
  dramLost := 0
  dirPool := 0

/-- An empty bay position (Table 15-3). -/
def Bay.reset (b : Nat) : Bay where
  bay := b
  st := .absent
  present := false
  pwrEn := false
  connected := false
  writable := false
  faultLow := false
  profile := none
  foreign := false
  uid := 0
  tigrim := 0
  seqA := 0
  seqB := 0
  imageId := 0
  tablesHash := 0
  copyA := []
  copyB := []
  rewrite := none
  rewrittenAt := 0
  defects := []
  listedDefects := 0
  overflow := false
  bindingHash := 0
  ident := []
  fresh := false
  evacTotal := 0
  dies := []
  pats := []
  failedDies := []
  raw := 0
  u0 := 0
  spareLeft := 0
  progress := 0
  stateAet := 0
  lastBlockSeq := 0
  createdAet := 0
  asSpare := false
  cancelled := false
  tc := 0
  lastTemp := none
  minuteTemp := none

/-- The media cluster at reset. -/
def Media.reset : Media where
  blockSeqHigh := 0
  opens := []
  pages := []
  dies := []
  ladders := []
  offsets := []
  verifyFails := []
  ladderFails := []
  bays := (List.range 16).map Bay.reset
  retired := []
  fails := []
  rebuild := 0
  rowsDone := 0
  rowsTotal := 0
  lostStripes := 0
  lostRows := []
  rebuildDue := false
  sjSeq := 1
  sj := []
  sjBays := 0
  sjWait := []
  sjDue := false
  claims := []
  refresh := []
  evacLeft := 0
  prof := []
  patrolPause := none
  full := false
  userSegs := 0
  measured := []
  atRisk := []
  swept := []
  sweepRead := []
  sweepPages := 0
  unpowered := 0
  readyAt := none
  horizon := 0xFFFFFFFF
  bayHorizon := []
  alert := false
  thermLogs := []
  lastMinute := 0
  lastHour := 0
  importing := []
  lostErases := []
  workPending := false
  undrawn := []

/-- Journal and restart records of a new part. -/
def Jrnl.reset : Jrnl where
  nextSeq := 1
  recs := []
  flights := []
  running := none
  cut := 0
  waiting := []
  newest := none
  written := none
  nextCkpt := 1
  hostBytes := 0
  stops := []
  nextStop := 1
  holdups := []
  nextHoldup := 1
  stopFrom := none
  stopKind := .powerFail
  stopEnded := false
  cleanStands := false

/-- The twin unit at reset (Table 16-8). -/
def Twin.reset : Twin where
  en := false
  seat := false
  role := .solo
  partnerRole := .fenced
  own := false
  peerOwn := false
  fenceFrom := none
  hbOut := false
  hbEdge := none
  lastFrame := none
  hbMisses := 0
  hbTotal := 0
  superFrom := 0
  hbCounted := 0
  takeOvers := 0
  failovers := 0
  foAet := 0
  foAetHi := 0
  syncDone := 0
  pairReject := 0
  hold := false
  lanes := 0
  txSeq := 1
  rxSeq := 0
  unacked := []
  ackAt := 0
  sent := []
  syncEnd := none
  handOver := none
  handOverIn := false
  handOverSets := []
  peer := none
  greeted := false
  pairRec := none
  pairing := none
  keysDrawn := 0
  slots := []
  queues := []
  features := []
  capture := 0
  frontier := []
  peerStop := none
  hbCond := 0
  hbPins := 0
  hbAet := 0
  hbCsn := 0
  hbJseq := 0
  csnBlock := 0
  lastFoAet := 0
  gapPins := false

/-- A requester's sequencer registers at reset (Table 19-4). -/
def KfReq.reset : KfReq where
  key := 0
  cmd := 0
  addr := 0
  addrGiven := false
  running := none
  waiting := none
  flags := 0
  weak := 0
  pulses := 0
  crc := 0
  data := []
  buffer := []

/-- The boot record that counts where none is valid: slot A everywhere (R454). -/
def BootRec.none : BootRec where
  seq := 0
  active := 0
  previous := 0
  pend := 0
  trial := 0
  slots := List.replicate 6 ⟨0, 0, 0, 0⟩

/-- No component runs. -/
def Running.none : Running where
  keeperFw := 0
  clusterFw := 0
  keeperLevel := 0
  keeperPeerMin := 0
  fwLevel := 0
  clusterPeerMin := 0
  tigrimWrite := 0
  linkLevel := 0
  linkLevelMin := 0
  imageVersion := 0
  imageId := 0
  fwLevelMin := 0
  fwLevelMax := 0
  imageTigrim := 0
  label := []
  sectionFormats := []

/-- Keeper and keeper flash of a new part. -/
def Kf.reset : Kf where
  mem := []
  unverified := []
  marginFails := []
  core := KfReq.reset
  side := KfReq.reset
  recRequest := false
  recMode := false
  recCause := 0
  boot := BootRec.none
  runSlot := 0
  sessions := []
  onShutdown := false
  pendQuiet := false
  overlay := []
  ovlSeq := 0
  factory := []
  effective := []
  saved := []
  savedHit := false
  ownerFuse := Option.none
  revoked := 0
  img := ImgVals.fallback
  imgBytes := []
  imgValid := false
  run := Running.none
  dramMib := 0
  released := false
  boardId := 0
  sbAddr := 0
  porst := true
  tripHold := false
  restartStep := 0
  unclean := false

/-- Power and thermal registers at reset (Table 20-8). -/
def Power.reset : Power where
  st := 0
  entering := none
  limit := 4
  ps4Now := false
  testHold := false
  maintWake := 24
  wakeSource := 0
  wakeFrom := 0
  wakeAet := 0
  wakeAetHi := 0
  refuseReason := 0
  refuseTarget := 0
  refuseValid := false
  refusals := List.replicate 8 0
  lastRefused := none
  idleFrom := 0
  commitAo := none
  domainsOff := false
  entryAet := 0
  entries := List.replicate 5 0
  stateTime := List.replicate 5 0
  avsTarget := 0
  avsPending := none
  avsNext := none
  avsNow := 0
  avsFault := false
  avsHold := false
  avsRequests := 0
  avsRetries := 0
  avsTotal := 0
  avsSettle := 50
  avsAt := 0
  band := 1
  trainedBand := 1
  retrain := none
  sensors := List.replicate 16 none
  valid := 0xFFFF
  offMedian := List.replicate 16 0
  peaks := List.replicate 16 (-128)
  hotRuns := List.replicate 16 0
  maxTemp := 0
  maxSensor := 0
  lt := 0
  lp := 0
  degraded := false
  cap := 0
  est := 0
  trips := 0
  tripped := false
  throttleEntries := 0
  throttleTime := 0
  tapOut := false
  matchLatch := false

/-- Counters and Periscope at reset (Tables 21-2, 21-5, 21-7). -/
def Ctr.reset : Ctr where
  live := List.replicate 48 0
  snap := List.replicate 48 0
  collecting := none
  held := false
  snapAet := 0
  snapBacklog := 0
  epoch := 0
  snapSeq := 0
  run := true
  snapOnWindow := false
  tdPort := 0
  sel := List.replicate 40 (0, 0x1F)
  past := []
  mirrorWait := 0
  retire := []
  arm := false
  wrap := false
  jitter := false
  pscPeriod := 1024
  filter := 0
  matched := 0
  interval := 1024
  head := 0
  tail := 0
  dropped := 0
  ring := []
  sideHi := 0
  logWaiters := []
  logReady := []

/-- The sideband target at reset (Table 22-6). -/
def Side.reset : Side where
  wakeOnMatch := true
  pec := false
  dyn := none
  misaligned := 0
  pecFail := 0
  shortWrite := 0
  keeperHi := 0
  clusterHi := 0
  pwrfail := false
  actUntil := none
  ccc := []

/-- Device features at their defaults (Table 7-16). -/
def Feat.reset : Feat where
  t1 := 10
  t2 := 50
  t3 := 0
  t4 := 0
  patrolDays := 14
  throttlePoint := 100
  throttleHyst := 5
  journalTicks := 8
  rebuildShare := 50
  horizonMin := 365

/-- HEALTH counters from manufacture. -/
def Health.reset : Health where
  hostReadUnits := 0
  hostWrittenUnits := 0
  pagesWritten := 0
  recovered := 0
  unrecovered := 0
  retiredBlocks := 0
  programFails := 0
  eraseFails := 0
  tileReloads := 0
  dramCorrected := 0
  uncleanRestarts := 0
  onMinutes := 0

/-- The part right after its always-on domain powers up, PORST_N low (R450, R501, R505). -/
def State.reset : State where
  pending := []
  now := 0
  free := 0
  cond := 0x0001
  readData := 0
  out := []
  csnNext := 1
  csnIssued := 0
  csnBlock := 0
  ctxs := []
  errSeq := 1
  evSeq := 1
  evHist := []
  raised := []
  condFrom := none
  portA := PortSt.reset
  portB := PortSt.reset
  cad := Cad.reset
  feat := Feat.reset
  health := Health.reset
  map := MapImg.empty
  eng := MapEng.reset
  media := Media.reset
  jrnl := Jrnl.reset
  twin := Twin.reset
  dig := ⟨[], [], [], 0, 0⟩
  pods := ⟨[], [], []⟩
  mover := ⟨[], []⟩
  kf := Kf.reset
  power := Power.reset
  ctr := Ctr.reset
  side := Side.reset

end Sys2Proof.Machine
end

