-- ==== Sys2Proof/Machine/Operands.lean ====
section
/-! DEFINITION. The operand forms: fields of a submission entry (Table 4-9), medium addresses and map entries (Tables 8-2, 8-3),
byte order, and the CRCs of the manual. -/
namespace Sys2Proof.Machine
open Sys2Proof

/-! ## Numbers and bytes -/

/-- Saturating increment by n at a limit. -/
def satAdd (limit x n : Nat) : Nat := Nat.min limit (x + n)

/-- Ceiling division. -/
def ceilDiv (a b : Nat) : Nat := (a + b - 1) / b

/-- Bits [hi:lo] of a number. -/
def bits (x hi lo : Nat) : Nat := (x >>> lo) % 2 ^ (hi + 1 - lo)

/-- Little-endian bytes of a number (R94). -/
def leBytes : Nat → Nat → List Byte
  | 0, _ => []
  | n + 1, x => BitVec.ofNat 8 x :: leBytes n (x / 256)

/-- The number that little-endian bytes spell. -/
def leNat : List Byte → Nat
  | [] => 0
  | b :: bs => b.toNat + 256 * leNat bs

/-- Big-endian bytes of a number. -/
def beBytes (n x : Nat) : List Byte := (leBytes n x).reverse

/-- Bytes lo to lo + n - 1 of a list, missing ones dropped. -/
def slice (bs : List Byte) (lo n : Nat) : List Byte := (bs.drop lo).take n

/-- Little-endian field of n bytes at an offset. -/
def field (bs : List Byte) (lo n : Nat) : Nat := leNat (slice bs lo n)

/-- The 32-bit word of a number. -/
def w32 (x : Nat) : Word := BitVec.ofNat 32 x

/-- Low and high words of a 64-bit number. -/
def lo32 (x : Nat) : Word := BitVec.ofNat 32 x
def hi32 (x : Nat) : Word := BitVec.ofNat 32 (x / 2 ^ 32)

/-- Pack (value, lowest bit) pairs into one word. -/
def pack (fs : List (Nat × Nat)) : Word := BitVec.ofNat 32 (fs.foldl (fun a f => a + f.1 * 2 ^ f.2) 0)

/-- 1 for true. -/
def b2n (b : Bool) : Nat := if b then 1 else 0

/-! ## CRCs -/

/-- One bit of a reflected CRC of width w. -/
def crcBit {w : Nat} (poly c : BitVec w) : BitVec w :=
  if c.getLsbD 0 then (c >>> 1) ^^^ poly else c >>> 1

/-- One byte of a reflected CRC. -/
def crcByte {w : Nat} (poly c : BitVec w) (b : Byte) : BitVec w :=
  let c := c ^^^ b.setWidth w
  let c := crcBit poly (crcBit poly (crcBit poly (crcBit poly c)))
  crcBit poly (crcBit poly (crcBit poly (crcBit poly c)))

/-- CRC-64 of R149: the reflection of 0xAD93D23594C93659. -/
def crc64 (bs : List Byte) : BitVec 64 :=
  bs.foldl (crcByte 0x9A6C9329AC4BC9B5) (BitVec.allOnes 64) ^^^ BitVec.allOnes 64

/-- CRC-32C, used by R29, R221, R244 and others; its parameters come from outside the manual (assumption 6, PRESUMED). -/
def crc32c (bs : List Byte) : BitVec 32 :=
  bs.foldl (crcByte 0x82F63B78) (BitVec.allOnes 32) ^^^ BitVec.allOnes 32

/-- CRC-32C over bytes with the four at `at_` taken as zero (R244, R386). -/
def crc32cZeroed (bs : List Byte) (at_ : Nat) : BitVec 32 :=
  crc32c (bs.take at_ ++ List.replicate 4 0 ++ bs.drop (at_ + 4))

/-! ## Submission entry (Table 4-9) -/

/-- Number of a port: 0 A, 1 B (Table 4-2). -/
def portNum : Port → Nat
  | .a => 0
  | .b => 1

/-- Dword n of an entry as a number. -/
def dword (dw : List Word) (n : Nat) : Nat := (dw.getD n 0).toNat

def eOpcode (dw : List Word) : Nat := bits (dword dw 0) 7 0
def eList (dw : List Word) : Bool := bits (dword dw 0) 8 8 == 1
def eIntNow (dw : List Word) : Bool := bits (dword dw 0) 9 9 == 1
def eTag (dw : List Word) : Nat := bits (dword dw 0) 20 16
def eNs (dw : List Word) : Nat := bits (dword dw 0) 31 24
def eCheck (dw : List Word) : Nat := bits (dword dw 1) 3 0
def eLba (dw : List Word) : Nat := dword dw 2 + 2 ^ 32 * dword dw 3
def eCount (dw : List Word) : Nat := dword dw 4
def eAppTag (dw : List Word) : Nat := bits (dword dw 5) 15 0
def eAppMask (dw : List Word) : Nat := bits (dword dw 5) 31 16
def eExtAddr (dw : List Word) : Nat := dword dw 6 + 2 ^ 32 * dword dw 7
def eExtLen (dw : List Word) : Nat := dword dw 8
def eListCount (dw : List Word) : Nat := dword dw 9
def eListAddr (dw : List Word) : Nat := dword dw 10 + 2 ^ 32 * dword dw 11
def eCdw (dw : List Word) (n : Nat) : Nat := dword dw (12 + n)
/-- CDW3:CDW2 as one 64-bit value (R161, R414). -/
def eCdw23 (dw : List Word) : Nat := eCdw dw 2 + 2 ^ 32 * eCdw dw 3

/-- Reserved bits of the entry's common dwords are zero (R15, Table 4-9). -/
def eReservedOk (dw : List Word) : Bool :=
  bits (dword dw 0) 15 10 == 0 && bits (dword dw 0) 23 21 == 0 && bits (dword dw 1) 31 4 == 0

/-! ## Medium addresses (Table 8-2) and map entries (Table 8-3) -/

/-- The 48-bit form of a medium address. -/
def madrCode (m : Madr) : Nat :=
  m.bay * 2 ^ 44 + m.channel * 2 ^ 43 + m.die * 2 ^ 38 + m.plane * 2 ^ 35 + m.block * 2 ^ 20 + m.page * 2 ^ 8 + m.slot

/-- The address that 48 bits name (Table 8-2). -/
def madrOfCode (x : Nat) : Madr where
  bay := bits x 47 44
  channel := bits x 43 43
  die := bits x 42 38
  plane := bits x 37 35
  block := bits x 34 20
  page := bits x 19 8
  slot := bits x 2 0

/-- The first slot of the address's page. -/
def pageOf (m : Madr) : Madr := { m with slot := 0 }
/-- Page 0, slot 0 of the address's block. -/
def blockOf (m : Madr) : Madr := { m with page := 0, slot := 0 }
/-- The die of an address. -/
def dieOf (m : Madr) : DieId := ⟨m.bay, m.channel, m.die⟩
/-- Number of a die within its bay, 32 x channel + die (R518). -/
def dieNum (d : DieId) : Nat := 32 * d.channel + d.die

/-- Map entry of a tile unit (Table 8-3). -/
def tileEntry (e : TileEnt) : Dword :=
  BitVec.ofNat 64 ((match e.madr with | some m => madrCode m + 2 ^ 48 | none => 0) + b2n e.lost * 2 ^ 52)

/-- Directory entry (Table 8-3). -/
def dirEntry : SegKind → Dword
  | .coarse m => BitVec.ofNat 64 (madrCode m + 2 * 2 ^ 48)
  | .fine t => BitVec.ofNat 64 (match t.home with | some m => madrCode m + 3 * 2 ^ 48 | none => 3 * 2 ^ 48 + 2 ^ 51)

/-! ## Blocks and check fields (R148, R149) -/

/-- Bytes that the guard covers: the data, and the host metadata when M = 64. -/
def guardCover (format : Nat) (data hostMeta : List Byte) : List Byte :=
  if format == 2 then data ++ hostMeta else data

/-- The guard of a block's content. -/
def guardOf (format : Nat) (data hostMeta : List Byte) : BitVec 64 := crc64 (guardCover format data hostMeta)

/-- A block with a generated check field (R151). -/
def mkBlock (format : Nat) (data hostMeta : List Byte) (appTag lba : Nat) : Block where
  data := data
  hostMeta := hostMeta
  guard := guardOf format data hostMeta
  appTag := BitVec.ofNat 16 appTag
  refTag := BitVec.ofNat 48 lba

/-- Metadata bytes M of a FORMAT (R180). -/
def metaSize (format : Nat) : Nat := if format == 0 then 0 else if format == 1 then 16 else 64

/-- The block of a host stream's 4,096 + M bytes (Table 6-2). -/
def blockOfStream (format : Nat) (bs : List Byte) (appTag lba : Nat) (gen : Bool) : Block :=
  let data := slice bs 0 4096
  let hm := if format == 2 then slice bs 4096 48 else List.replicate 48 0
  if format == 0 || gen then mkBlock format data hm appTag lba
  else
    let cf := if format == 2 then 4144 else 4096
    { data := data, hostMeta := hm
      guard := BitVec.ofNat 64 (field bs cf 8), appTag := BitVec.ofNat 16 (field bs (cf + 8) 2)
      refTag := BitVec.ofNat 48 (field bs (cf + 10) 6) }

/-- Check-field bytes (Table 6-3). -/
def checkBytes (b : Block) : List Byte := leBytes 8 b.guard.toNat ++ leBytes 2 b.appTag.toNat ++ leBytes 6 b.refTag.toNat

/-- A block's bytes in the host stream (Table 6-2, R148). -/
def streamOfBlock (format : Nat) (strip : Bool) (b : Block) : List Byte :=
  if strip || format == 0 then b.data
  else if format == 1 then b.data ++ checkBytes b
  else b.data ++ b.hostMeta ++ checkBytes b

/-- The unwritten block of an LBA (R157). -/
def unwrittenBlock (format lba : Nat) : Block :=
  mkBlock format (List.replicate 4096 0) (List.replicate 48 0) 0xFFFF lba

/-- First failing check of a block for an LBA: GUARD, then REF_TAG, then APP_TAG under the mask (R151). -/
def blockFault (format lba : Nat) (appChk : Option (Nat × Nat)) (b : Block) : Option Half :=
  if b.guard != guardOf format b.data b.hostMeta then some 0x2001
  else if b.refTag != BitVec.ofNat 48 lba then some 0x2002
  else match appChk with
    | none => none
    | some (tag, mask) =>
      if (b.appTag &&& BitVec.ofNat 16 mask) != (BitVec.ofNat 16 tag &&& BitVec.ofNat 16 mask) then some 0x2003 else none

/-! ## Archive epoch time (R60) -/

def aetSec (aet : Nat) : Nat := aet / 65536
def aetTick (aet : Nat) : Nat := aet % 65536
/-- The tick index T (chapter 03). -/
def tIndex (tps aet : Nat) : Nat := aetSec aet * tps + aetTick aet
/-- Window position and tick within the window (R65). -/
def windowPos (l t : Nat) : Nat := t / l % 64
def windowTick (l t : Nat) : Nat := t % l

/-! ## Keeper flash memory: a canonical cell list, unlisted bytes read 0xFF (assumption 3) -/

/-- What an unlisted byte of keeper flash reads as: erased NOR cells. -/
def memDefault : Byte := 0xFF

/-- Strictly rising addresses and no entry equal to the default. -/
def memWf : List Host.Cell → Bool
  | [] => true
  | [c] => c.2 != memDefault
  | c :: d :: rest => c.2 != memDefault && decide (c.1 < d.1) && memWf (d :: rest)

/-- One byte of keeper flash. -/
def memRead (m : List Host.Cell) (a : Nat) : Byte :=
  match m with
  | [] => memDefault
  | c :: rest => if c.1 = a then c.2 else memRead rest a

/-- One byte written; writing the default removes the entry. -/
def memWrite (m : List Host.Cell) (a : Nat) (b : Byte) : List Host.Cell :=
  match m with
  | [] => if b = memDefault then [] else [(a, b)]
  | c :: rest =>
    if a < c.1 then (if b = memDefault then c :: rest else (a, b) :: c :: rest)
    else if c.1 = a then (if b = memDefault then rest else (a, b) :: rest)
    else c :: memWrite rest a b

/-- n bytes from a, of a list whose addresses are all at or above a. -/
def memRun (m : List Host.Cell) (a : Nat) : Nat → List Byte
  | 0 => []
  | n + 1 =>
    match m with
    | [] => memDefault :: memRun [] (a + 1) n
    | c :: rest => if c.1 = a then c.2 :: memRun rest (a + 1) n else memDefault :: memRun (c :: rest) (a + 1) n

/-- Bytes a to a + n - 1. -/
def memBytes (m : List Host.Cell) (a n : Nat) : List Byte := memRun (m.dropWhile (fun c => decide (c.1 < a))) a n

/-- Bytes written in ascending address. -/
def memWriteAll (m : List Host.Cell) (a : Nat) : List Byte → List Host.Cell
  | [] => m
  | b :: bs => memWriteAll (memWrite m a b) (a + 1) bs

/-- A range of n bytes from a erased: its entries dropped. -/
def memErase (m : List Host.Cell) (a n : Nat) : List Host.Cell :=
  m.filter (fun c => decide (c.1 < a) || decide (a + n ≤ c.1))

end Sys2Proof.Machine
end

