-- ==== Sys2Proof/Machine/Flags.lean ====
section
/-! DEFINITION. Every flag the part computes: the device condition word (Table 1-8), the STATE pins (Table 22-4), the votes and the
cap of Table 20-2, and the status bits that registers show. -/
namespace Sys2Proof.Machine
open Sys2Proof

/-! ## The condition word -/

/-- Bit numbers of Table 1-8. -/
def bNotReady : Nat := 0
def bReduced : Nat := 1
def bDegraded : Nat := 2
def bRebuilding : Nat := 3
def bSealed : Nat := 4
def bThrottled : Nat := 5
def bTwinSolo : Nat := 6
def bCadLost : Nat := 7
def bFailed : Nat := 8

/-- A condition flag. -/
def flag (c : Half) (n : Nat) : Bool := c.getLsbD n

/-- The word with one flag set to a value. -/
def withFlag (c : Half) (n : Nat) (v : Bool) : Half :=
  if v then c ||| (1#16 <<< n) else c &&& ~~~(1#16 <<< n)

/-- The word with several flags changed. -/
def withFlags (c : Half) (fs : List (Nat × Bool)) : Half := fs.foldl (fun a f => withFlag a f.1 f.2) c

/-- What a change of flags leaves: nothing changes once FAILED is set (R26); REBUILDING only with DEGRADED (R26); TWIN_SOLO
never on a solo strap (R26). -/
def nextCond (twinEn : Bool) (old new : Half) : Half :=
  if flag old bFailed then old
  else
    let n := if flag new bDegraded then new else withFlag new bRebuilding false
    if twinEn then n else withFlag n bTwinSolo false

/-- The flags that differ, in ascending bit order (R25). -/
def changedFlags (old new : Half) : List Nat := (List.range 9).filter (fun n => flag old n != flag new n)

def notReady (s : State) : Bool := flag s.cond bNotReady
def failedSet (s : State) : Bool := flag s.cond bFailed
def sealedSet (s : State) : Bool := flag s.cond bSealed

/-- The condition word that ports and sideband read: a chip without ownership reports the owner's with NOT_READY (R390). -/
def reportedCond (s : State) : Half :=
  if s.twin.en && !s.twin.own then s.twin.hbCond ||| 1#16 else s.cond

/-! ## Roles -/

/-- Encoding of PORT_STATUS.ROLE (Table 4-4). -/
def roleNum : Role → Nat
  | .solo => 0
  | .active => 1
  | .standby => 2
  | .syncing => 3
  | .fenced => 4

/-- The chip holds the medium: SOLO, or ownership held. -/
def isOwner (s : State) : Bool := !s.twin.en || s.twin.own

/-- The active mirrors and waits for acknowledgements: while its partner is STANDBY, and from SYNC_END on (R388, R400). -/
def mirroring (s : State) : Bool :=
  s.twin.role == .active && (s.twin.partnerRole == .standby || (s.twin.partnerRole == .syncing && s.twin.syncEnd.isSome))

/-- Frames of admissions, records and states are sent (R400 part 2 includes SYNCING). -/
def sending (s : State) : Bool :=
  s.twin.role == .active && (s.twin.partnerRole == .standby || s.twin.partnerRole == .syncing)

/-! ## Pins -/

/-- Any bay position is FAILED (R507). -/
def anyBayFailed (s : State) : Bool := s.media.bays.any (fun b => b.st == .failed)

/-- STATE[3:0] (Table 22-4): the first row whose condition holds. -/
def statePins (s : State) : Nat :=
  if failedSet s then 0xF
  else if s.power.tripped then 0xE
  else if s.kf.recMode then 0x9
  else if s.kf.porst then 0x0
  else if !s.kf.released then 0x1
  else if s.twin.role == .standby || s.twin.role == .syncing || s.twin.role == .fenced then 0x7
  else if notReady s then 0x2
  else if s.power.st == 3 || s.power.st == 4 then 0x8
  else if sealedSet s then 0x6
  else if flag s.cond bRebuilding then 0x5
  else if flag s.cond bDegraded || flag s.cond bReduced then 0x4
  else 0x3

/-- FAULT_N driven low (R507). -/
def faultLow (s : State) : Bool := failedSet s || s.power.tripped || anyBayFailed s

/-- A command stands between admission and completion (R507). -/
def anyAdmitted (s : State) : Bool := s.ctxs.any (fun c => c.stage == .admitted || (c.stage == .ended && c.csn != 0))

/-- ACT_N driven low: a command is in progress, or the 20 ms stretch runs (R507). -/
def actLow (s : State) : Bool := anyAdmitted s || s.side.actUntil.isSome

/-- The status outputs still show the partner's last HEARTBEAT: [3:0] STATE, [4] ACT_N, [5] FAULT_N (R381). -/
def inGap (s : State) : Bool := s.twin.gapPins && notReady s

/-- PIN_STATUS STATE, ACT and FAULT (R381, R507, Table 22-6). -/
def pinStatus (s : State) : Nat :=
  if inGap s then s.twin.hbPins.toNat else statePins s + 16 * b2n (actLow s) + 32 * b2n (faultLow s)

/-! ## Votes (Table 20-2) -/

/-- The media cluster has urgent work, a rebuild or a sweep, or a late patrol cycle (voter 3 at PS2). -/
def mediaUrgent (s : State) : Bool :=
  flag s.cond bRebuilding || flag s.cond bReduced || s.media.prof.any (fun p => p.patrolLate || p.reserveOn)

/-- A die has an operation issued (voter 3 at PS0). -/
def mediaBusy (s : State) : Bool := s.media.workPending || s.media.dies.any (fun d => d.op.isSome)

/-- The state at which voter v caps the device (Table 20-2); 4 where it does not cap. -/
def voteCap (s : State) (v : Nat) : Nat :=
  match v with
  | 0 => if notReady s || s.power.retrain.isSome || s.power.avsFault then 0 else 4
  | 1 => if s.ctxs.isEmpty then 4 else 0
  | 2 => if s.eng.reqs.isEmpty && s.jrnl.running.isNone && s.jrnl.written.isNone then 4 else 0
  | 3 => if mediaBusy s then 0 else if mediaUrgent s then 2 else 4
  | 4 => if s.portA.enable && !s.portA.l12 then 2 else if s.portA.enable && !s.portA.perst then 3 else 4
  | 5 => if s.portB.enable && !s.portB.l12 then 2 else if s.portB.enable && !s.portB.perst then 3 else 4
  | 6 => if s.twin.role == .standby || s.twin.role == .syncing || sending s then 2 else 4
  | 7 => if s.power.tapOut || s.power.testHold then 0 else 4
  | 8 => if s.kf.recMode then 0 else 4
  | 9 => s.power.limit
  | _ => 4

/-- The cap: the shallowest state that any voter names (R465). -/
def powerCap (s : State) : Nat := (List.range 10).foldl (fun a v => Nat.min a (voteCap s v)) 4

/-- CAP_VOTER: the lowest-numbered voter that sets the cap, 0xF where none caps (Table 20-8). -/
def capVoter (s : State) : Nat :=
  if powerCap s == 4 then 0xF else ((List.range 10).find? (fun v => voteCap s v == powerCap s)).getD 0xF

/-- Refusal reason of a voter (Tables 20-2, 20-3). -/
def voteReason (s : State) (v : Nat) : Nat :=
  match v with
  | 0 => if s.power.avsFault then 5 else 2
  | 1 | 2 => 0
  | 3 => 1
  | 4 | 5 => 3
  | 6 => 4
  | _ => 2

/-- Throttle level L: the greatest of LT, LP and any held level (R480). -/
def throttleLevel (s : State) : Nat :=
  Nat.max (Nat.max s.power.lt s.power.lp) (if s.power.avsHold || s.power.degraded then 12 else 0)

/-- Dies of a channel that may be busy at level L: ceil(F x dies), F = (16 - L)/16 (R481). -/
def dieLimit (l dies : Nat) : Nat := ceilDiv ((16 - l) * dies) 16

/-- Release point RP (R477). -/
def releasePoint (s : State) : Nat := s.feat.throttlePoint - s.feat.throttleHyst

/-! ## Port flags -/

/-- Contexts held by a port's commands (Table 4-5). -/
def portCtxs (s : State) (p : Port) : List Ctx := s.ctxs.filter (fun c => c.port == p)

/-- An admitted command of the port is not yet performed or failed (R88). -/
def portDraining (s : State) (p : Port) : Bool := (portCtxs s p).any (fun c => c.stage == .admitted)

end Sys2Proof.Machine
end

