-- ==== Sys2Proof/Machine/Ops.lean ====
section
/-! DEFINITION. The named operations that the commands' meanings share: ports, contexts and queues by number, the passing of fabric
time, counters, free values, events and the condition word, MSI-X, the ERROR log and freezing, journal records, Zynmi frames. -/
namespace Sys2Proof.Machine
open Sys2Proof

/-! ## Parts of the state by number -/

/-- A port's state. -/
def portOf (s : State) : Port → PortSt
  | .a => s.portA
  | .b => s.portB

/-- A port's state replaced. -/
def setPort (s : State) : Port → PortSt → State
  | .a, x => { s with portA := x }
  | .b, x => { s with portB := x }

/-- A port's state changed. -/
def updPort (s : State) (p : Port) (f : PortSt → PortSt) : State := setPort s p (f (portOf s p))

/-- The context with a number. -/
def ctxOf (s : State) (cid : Nat) : Option Ctx := s.ctxs.find? (fun c => c.cid == cid)

/-- A context changed. -/
def updCtx (s : State) (cid : Nat) (f : Ctx → Ctx) : State :=
  { s with ctxs := s.ctxs.map (fun c => if c.cid == cid then f c else c) }

/-- A context released. -/
def dropCtx (s : State) (cid : Nat) : State := { s with ctxs := s.ctxs.filter (fun c => c.cid != cid) }

/-- The lowest context number not held (Table 1-3). -/
def freeCid (s : State) : Nat :=
  ((List.range (s.ctxs.length + 1)).find? (fun n => s.ctxs.all (fun c => c.cid != n))).getD 0

/-- A queue of a port; none is DISABLED (R90). -/
def queueOf (s : State) (p : Port) (q : Nat) : Option Queue := (portOf s p).queues.find? (fun x => x.qid == q)

/-- A queue changed. -/
def updQueue (s : State) (p : Port) (q : Nat) (f : Queue → Queue) : State :=
  updPort s p (fun x => { x with queues := x.queues.map (fun k => if k.qid == q then f k else k) })

/-- The doorbell values of queues that become DISABLED, kept as the last ones accepted (R97). -/
def keepLast (l : List (Nat × Nat × Nat)) (ks : List Queue) : List (Nat × Nat × Nat) :=
  ks.foldl (fun l k => (k.qid, k.sqTail, k.cqHead) :: l.filter (fun x => x.1 != k.qid)) l

/-- A queue made DISABLED. -/
def dropQueue (s : State) (p : Port) (q : Nat) : State :=
  updPort s p (fun x =>
    { x with queues := x.queues.filter (fun k => k.qid != q), lastBells := keepLast x.lastBells (x.queues.filter (fun k => k.qid == q)) })

/-- A queue inserted in ascending QUEUE_ID. -/
def insertQueue (k : Queue) : List Queue → List Queue
  | [] => [k]
  | h :: t => if k.qid < h.qid then k :: h :: t else h :: insertQueue k t

/-- A queue that is not DISABLED any more. -/
def addQueue (s : State) (p : Port) (k : Queue) : State :=
  updPort s p (fun x => { x with queues := insertQueue k (x.queues.filter (fun h => h.qid != k.qid)) })

/-- A bay position. -/
def bayOf (s : State) (b : Nat) : Option Bay := s.media.bays.find? (fun x => x.bay == b)

/-- A bay changed. -/
def updBay (s : State) (b : Nat) (f : Bay → Bay) : State :=
  { s with media := { s.media with bays := s.media.bays.map (fun x => if x.bay == b then f x else x) } }

/-- A namespace that exists (R180). -/
def nsOf (s : State) (n : Nat) : Option Namespace := s.map.nss.find? (fun x => x.nsid == n)

/-- FORMAT of a namespace; 0 where it does not exist. -/
def nsFormat (s : State) (n : Nat) : Nat := ((nsOf s n).map (·.format)).getD 0

/-- A set recorded (R214). -/
def setOf (s : State) (seq : Nat) : Option SetRec := s.map.sets.find? (fun x => x.seq == seq)

/-- A profile of the image in force. -/
def profileOf (s : State) (p : Nat) : Option Profile := s.kf.img.profiles[p]?

/-- Changes to the media cluster, the map, the journal, the twin and the keeper. -/
def updMedia (s : State) (f : Media → Media) : State := { s with media := f s.media }
def updMap (s : State) (f : MapImg → MapImg) : State := { s with map := f s.map }
def updEng (s : State) (f : MapEng → MapEng) : State := { s with eng := f s.eng }
def updJrnl (s : State) (f : Jrnl → Jrnl) : State := { s with jrnl := f s.jrnl }
def updTwin (s : State) (f : Twin → Twin) : State := { s with twin := f s.twin }
def updKf (s : State) (f : Kf → Kf) : State := { s with kf := f s.kf }
def updPower (s : State) (f : Power → Power) : State := { s with power := f s.power }
def updCtr (s : State) (f : Ctr → Ctr) : State := { s with ctr := f s.ctr }
def updCad (s : State) (f : Cad → Cad) : State := { s with cad := f s.cad }
def updDig (s : State) (f : Dig → Dig) : State := { s with dig := f s.dig }
def updSide (s : State) (f : Side → Side) : State := { s with side := f s.side }
def updHealth (s : State) (f : Health → Health) : State := { s with health := f s.health }

/-! ## Free values -/

/-- The free value that the next draw yields (assumption 2). -/
def freeNow (s : State) : Dword := Config.freeValue s.free

/-- One free value drawn. -/
def drawFree (s : State) : State := { s with free := s.free + 1 }

/-- The n-th free value from the next draw on, where one command leaves several values open. -/
def freeAt (s : State) (n : Nat) : Dword := Config.freeValue (s.free + n)

/-- Several free values drawn. -/
def drawFrees (s : State) (n : Nat) : State := { s with free := s.free + n }

/-! ## Queue credits (R99) -/

/-- Encoding of a queue state in a QueueImage. -/
def qstNum : QState → Nat
  | .disabled => 0
  | .active => 1
  | .frozen => 2
  | .restarting => 3

/-- Contexts of a queue. -/
def queueCtxs (s : State) (p : Port) (q : Nat) : List Ctx := s.ctxs.filter (fun c => c.port == p && c.queue == q)

/-- Retained or not yet judged entries of a queue, in ring order (R130). -/
def fetchedCtxs (s : State) (p : Port) (q : Nat) : List Ctx :=
  (queueCtxs s p q).filter (fun c => c.stage == .fetched)

/-- The first ring index of a queue that is not admitted: that of the first fetched entry without a CSN, else that of the next fetch
(Table 5-9). -/
def firstUnadmitted (s : State) (p : Port) (k : Queue) : Nat :=
  (((queueCtxs s p k.qid).find? (fun c => c.csn == 0)).map (·.sqIndex)).getD k.sqHead

/-- A queue as the standby's queue table holds it (R389); its resume index is the first ring index not admitted. -/
def queueImage (s : State) (p : Port) (k : Queue) : QueueImage where
  port := p
  qid := k.qid
  st := qstNum k.st
  sqBase := k.sqBase
  cqBase := k.cqBase
  sqEntries := k.sqEntries
  cqEntries := k.cqEntries
  vector := k.vector
  prio := k.prio
  coalCount := k.coalCount
  coalTime := k.coalTime
  resumeIndex := firstUnadmitted s p k
  cqNext := k.cqTail
  phase := k.phase
  sqTail := k.sqTail
  cqHead := k.cqHead

/-- Posted entries of a CQ that the host has not consumed. -/
def unconsumed (k : Queue) : Nat := if k.cqEntries == 0 then 0 else (k.cqTail + k.cqEntries - k.cqHead) % k.cqEntries

/-- Credits held on a queue: commands not yet posted and completions not yet passed (R99, R112). -/
def creditsHeld (s : State) (p : Port) (k : Queue) : Nat := (queueCtxs s p k.qid).length + unconsumed k

/-- Submitted entries of a queue that are not fetched (R91). -/
def sqWaiting (k : Queue) : Nat := if k.sqEntries == 0 then 0 else (k.sqTail + k.sqEntries - k.sqHead) % k.sqEntries

/-- Credits left on a queue (R99). -/
def creditsLeft (s : State) (p : Port) (k : Queue) : Nat := Nat.min 32 (k.cqEntries - 1) - creditsHeld s p k

/-- Command records of a port's unacknowledged RESUMPTION log, each holding one context (R141). -/
def recordsHeld (s : State) (p : Port) : Nat := (portOf s p).res.cmds.length

/-- CONTEXT_SHARE of a port (Table 4-2). -/
def contextShare (s : State) : Port → Nat
  | .a => s.kf.img.contextShareA
  | .b => s.kf.img.contextShareB

/-- Contexts that a port may still take: its share and the device's 65,536 (R99, R141). -/
def contextsLeft (s : State) (p : Port) : Nat :=
  Nat.min (contextShare s p - ((portCtxs s p).length + recordsHeld s p))
    (65536 - (s.ctxs.length + recordsHeld s .a + recordsHeld s .b))

/-- A stop sequence has begun that ends fetching, admission and posting too: every one but that of FAILED, which leaves the host cluster
at work (R252, R255); or recovery mode holds the clusters in reset (R451). -/
def hostStopped (s : State) : Bool := s.kf.recMode || (s.jrnl.stopFrom.isSome && !failedSet s)

/-- A HAND_OVER has begun: both ports have stopped fetching (R404). -/
def handingOver (s : State) : Bool :=
  s.ctxs.any (fun c => c.queue == 0 && c.stage == .admitted && c.mapAsked && eOpcode c.dw == 0x94 && bits (eCdw c.dw 0) 2 0 == 2)

/-- A port fetches at all: READY, no clean stop begun, supply good, no HAND_OVER begun (R88, R89, R252, R404). -/
def portFetches (s : State) (p : Port) : Bool :=
  (portOf s p).ready && (portOf s p).shutdownState == 0 && !hostStopped s && !handingOver s

/-- A queue that R99's first and last conditions allow to fetch; a chip without ownership serves queue 0 alone (R390). -/
def queueWants (s : State) (k : Queue) : Bool :=
  k.st == .active && !k.stopped && k.deleting.isNone && 0 < sqWaiting k && (k.qid == 0 || (!notReady s && isOwner s))

/-- A queue from which the fetch unit may fetch (R99). -/
def canFetch (s : State) (p : Port) (k : Queue) : Bool :=
  portFetches s p && queueWants s k && 0 < creditsLeft s p k && 0 < contextsLeft s p

/-! ## Counters (Table 21-6) and fabric time -/

/-- Programmable counters 8 to 47 that select an event of an instance advance (R491). -/
def countSel (sel : List (Nat × Nat)) (live : List Nat) (e inst n : Nat) : List Nat :=
  live.take 8 ++ List.zipWith (fun v c => if c.1 == e && (c.2 == 0x1F || c.2 == inst) then v + n else v) (live.drop 8) sel

/-- An event counted n times while RUN is 1 (Table 21-2). -/
def countEvent (s : State) (e inst n : Nat) : State :=
  if s.ctr.run then updCtr s (fun c => { c with live := countSel c.sel c.live e inst n }) else s

/-- A fixed counter advanced (Table 21-3); counter 0 always counts. -/
def countFixed (s : State) (i n : Nat) : State :=
  if s.ctr.run || i == 0 then updCtr s (fun c => { c with live := c.live.modify i (· + n) }) else s

/-- A queue of the port waits for a credit, or has credit and waits for a context (events 0x39, 0x3A). -/
def portWaitsCredit (s : State) (p : Port) : Bool :=
  (portOf s p).queues.any (fun k => portFetches s p && queueWants s k && creditsLeft s p k == 0)
def portWaitsContext (s : State) (p : Port) : Bool :=
  (portOf s p).queues.any (fun k => portFetches s p && queueWants s k && 0 < creditsLeft s p k && contextsLeft s p == 0)

/-- n fabric cycles counted by the counters that count cycles: 0, and events 0x21, 0x39, 0x3A and 0x3B. -/
def countCycles (s : State) (n : Nat) : State :=
  let t := countFixed s 0 n
  let t := if portWaitsCredit s .a then countEvent t 0x39 0 n else t
  let t := if portWaitsCredit s .b then countEvent t 0x39 1 n else t
  let t := if portWaitsContext s .a then countEvent t 0x3A 0 n else t
  let t := if portWaitsContext s .b then countEvent t 0x3A 1 n else t
  let t := if 0 < throttleLevel s then countEvent t 0x3B 0 n else t
  (List.range 5).foldl (fun t k => if s.pods.waiting.any (fun w => w.pod == k) then countEvent t 0x21 k n else t) t

/-- The cycle of the latest command. -/
def setNow (s : State) (cyc : Nat) : State := { s with now := cyc }

/-- Fabric time moves to a command's cycle; time never moves back. Cycle counters stand still in PS2 to PS4 (R487), and while a voter
caps the part at PS0 its idle time starts anew (R466). Time in each power state and time THROTTLED add up (Tables 7-12, 7-13) (assumption 8). -/
def advanceTo (s : State) (cyc : Nat) : State :=
  if cyc ≤ s.now then s
  else
    let t := if s.power.st < 2 then countCycles s (cyc - s.now) else s
    let t := if powerCap s == 0 then updPower t (fun p => { p with idleFrom := cyc }) else t
    let t := updPower t (fun p =>
      { p with
        stateTime := p.stateTime.modify p.st (· + (cyc - s.now))
        throttleTime := if flag s.cond bThrottled then p.throttleTime + (cyc - s.now) else p.throttleTime })
    updCtr (setNow t cyc) (fun c => { c with past := ((cyc, c.live) :: c.past).filter (fun x => decide (cyc ≤ x.1 + 16)) })

/-! ## Snapshots (R486) -/

/-- Units that wait to retire (R490). -/
def retireBacklog (s : State) : Nat := s.ctr.retire.foldl (fun n r => n + r.units) 0

/-- A snapshot trigger: the counters are copied, readable 32 cycles later; a trigger before that is held. -/
def trigSnap (s : State) : State :=
  updCtr s (fun c => match c.collecting with
    | some _ => { c with held := true }
    | none => { c with collecting := some (c.live, s.cad.aet, retireBacklog s, s.now + 32) })

/-- Every live counter cleared, EPOCH increased by one (R487). -/
def clearCounters (s : State) : State :=
  updCtr s (fun c => { c with live := c.live.map (fun _ => 0), past := c.past.map (fun x => (x.1, x.2.map (fun _ => 0))), epoch := (c.epoch + 1) % 65536 })

/-! ## Towards the hosts -/

/-- Something sent to a host (assumption 22). -/
def emit (s : State) (o : Out) : State := { s with out := s.out ++ [o] }

/-- Bytes laid into extents in order: the part for each extent (R148). -/
def spill : List (Nat × Nat) → List Byte → List (Nat × List Byte)
  | [], _ => []
  | e :: es, bs => if bs.isEmpty then [] else (e.1, bs.take e.2) :: spill es (bs.drop e.2)

/-- Bytes delivered to extents in host memory. -/
def deliver (s : State) (p : Port) (exts : List (Nat × Nat)) (bs : List Byte) : State :=
  (spill exts bs).foldl (fun t e => emit t (.bytes p e.1 e.2)) s

/-- A vector that may not send now: masked, function-masked or without an entry, or the link down (R114). -/
def vectorHeld (x : PortSt) (v : Nat) : Bool :=
  x.funcMask || !x.linkUp || (match x.msix.find? (fun e => e.vector == v) with | some e => e.masked | none => true)

/-- The message of a vector: sent, or its pending bit set (R114). With MSI-X disabled there is no message. -/
def signal (s : State) (p : Port) (v : Nat) : State :=
  let x := portOf s p
  if !x.msixEnable then s
  else if vectorHeld x v then updPort s p (fun y => { y with pba := if y.pba.contains v then y.pba else y.pba ++ [v] })
  else emit s (.msi p v)

/-! ## Events (R178, R179) and the condition word -/

/-- Dwords of an event entry (Table 7-17). -/
def eventWords (e : Event) (phase : Bool) : List Word :=
  [lo32 e.seq, hi32 e.seq, lo32 e.aet, hi32 e.aet, pack [(e.kind, 0), (e.code, 16)], w32 e.param0, w32 e.param1,
    pack [(b2n phase, 0), (e.cond.toNat, 16)]]

/-- An event written to one port's ring, or lost (R118, R179). -/
def eventToRing (s : State) (p : Port) (e : Event) : State :=
  let x := portOf s p
  if !x.ev.enable || x.eventMask.getLsbD e.kind then s
  else
    let nxt := if x.ev.tail + 1 == x.ev.entries then 0 else x.ev.tail + 1
    if nxt == x.ev.head % x.ev.entries then updPort s p (fun y => { y with ev := { y.ev with lost := satAdd 0xFFFF y.ev.lost 1 } })
    else
      let t := emit s (.words p (x.ev.base + 32 * x.ev.tail) (eventWords e x.ev.phase))
      let t := updPort t p (fun y => { y with ev := { y.ev with tail := nxt, phase := if nxt == 0 then !y.ev.phase else y.ev.phase } })
      signal t p x.ev.vector

/-- An event of a kind and code: it waits for the end of the cycle, whose condition word it carries (R178). -/
def raiseEvent (s : State) (kind code p0 p1 : Nat) (only : Option Port := none) : State :=
  { s with raised := s.raised ++ [{ aet := s.cad.aet, kind := kind, code := code, param0 := p0 % 2 ^ 32, param1 := p1 % 2 ^ 32, only := only }] }

/-- Flags changed (R25, R26); their events wait for the end of the cycle. -/
def setFlags (s : State) (fs : List (Nat × Bool)) : State :=
  { s with cond := nextCond s.twin.en s.cond (withFlags s.cond fs), condFrom := some (s.condFrom.getD s.cond) }

/-- A raised event numbered, kept in the history, and written to the ring of one port or of both. -/
def sendEvent (s : State) (r : Raised) : State :=
  let e : Event :=
    { seq := s.evSeq, aet := r.aet, kind := r.kind, code := r.code, param0 := r.param0, param1 := r.param1, cond := reportedCond s }
  let t := { s with evSeq := s.evSeq + 1, evHist := (e :: s.evHist).take 16384 }
  match r.only with
  | some p => eventToRing t p e
  | none => eventToRing (eventToRing t .a e) .b e

/-- The CONDITION events of a cycle: one for each flag that differs between its start and its end, in ascending bit order, each with both
words (R25). -/
def condEvents (s : State) : List Raised :=
  match s.condFrom with
  | none => []
  | some old => (changedFlags old s.cond).map (fun n => { aet := s.cad.aet, kind := 0, code := n, param0 := old.toNat, param1 := s.cond.toNat, only := none })

/-- The end of a command's cycle: the CONDITION events of the flags it changed, then the other events it raised in their order, go out with
the condition word as it now stands (R25, R178) (assumption 44). -/
def endCycle (s : State) : State := (condEvents s ++ s.raised).foldl sendEvent { s with raised := [], condFrom := none }

/-- A command has run to its end in a next state. -/
def settled (s : State) : Host.Outcome State Fault Refusal := .next (endCycle s)

/-! ## Zynmi frames (R386) -/

/-- Frames that carry ACK_REQ (Table 16-5). -/
def ackReq : Frame → Bool
  | .heartbeat .. | .ack _ | .complete _ | .doorbell _ | .failing _ => false
  | _ => true

/-- A frame sent: numbered, ACK frames with FSEQ 0, and kept for resending while it wants an acknowledgement. -/
def sendFrame (s : State) (f : Frame) : State :=
  match f with
  | .ack _ => updTwin s (fun t => { t with sent := t.sent ++ [⟨0, f⟩] })
  | _ =>
    updTwin s (fun t =>
      { t with
        txSeq := t.txSeq + 1
        sent := t.sent ++ [⟨t.txSeq, f⟩]
        ackAt := if t.unacked.isEmpty then s.now else t.ackAt
        unacked := if ackReq f then t.unacked ++ [⟨t.txSeq, f⟩] else t.unacked })

/-- A frame sent where the partner is given admissions, records and states (R388, R400). -/
def mirrorFrame (s : State) (f : Frame) : State := if sending s then sendFrame s f else s

/-- Every frame up to FSEQ n has been acknowledged (R386, R388). -/
def acked (s : State) (n : Nat) : Bool := s.twin.unacked.all (fun f => decide (n < f.fseq))

/-! ## Journal records (R243) -/

/-- A record written to journal staging; durable at once on a solo chip, on acknowledgement while a STANDBY mirrors. Nothing is journalled
once a stop sequence has begun (R252). -/
def journal (s : State) (body : JRec) : State :=
  if s.jrnl.stopFrom.isSome then s else
  let r : StagedRec := { jseq := s.jrnl.nextSeq, body := body, durable := !mirroring s, onMedium := false }
  let t := updJrnl s (fun j => { j with nextSeq := j.nextSeq + 1, recs := j.recs ++ [r], cleanStands := false })
  mirrorFrame t (.journal [r])

/-! ## The ERROR log and freezing (R130, R133) -/

/-- The entries of one queue with a new one in front, at most 8 (R133). -/
def putErr (log : List (Nat × List ErrEntry)) (q : Nat) (e : ErrEntry) : List (Nat × List ErrEntry) :=
  match log with
  | [] => [(q, [e])]
  | h :: t => if h.1 == q then (q, (e :: h.2).take 8) :: t else h :: putErr t q e

/-- An ERROR log entry made: numbered and stamped. -/
def logError (s : State) (e : ErrEntry) : State :=
  let e := { e with seq := s.errSeq, aet := s.cad.aet }
  updPort { s with errSeq := s.errSeq + 1 } e.port (fun x => { x with errLog := putErr x.errLog e.queue e })

/-- Status, ORIGIN, FIELD_OFFSET and the fields of Table 5-5 of a decision. -/
structure Verdict where
  status : Half
  origin : Nat
  fieldOffset : Nat := 0xFF
  lba : Nat := 0
  byteOffset : Nat := 0
  detail0 : Nat := 0
  detail1 : Nat := 0
  deriving DecidableEq, Repr

/-- A status is of a class other than 0 (R122). -/
def nonSuccess (st : Half) : Bool := st.toNat / 4096 != 0

/-- Index of the next ring slot. -/
def ringNext (n i : Nat) : Nat := if i + 1 == n then 0 else i + 1

/-- A queue at the decision of a non-success status: it stops, and the first decision fixes the resume index (R130). -/
def freezeDecided (s : State) (p : Port) (q : Nat) : State :=
  updQueue s p q (fun k =>
    if k.stopped then k
    else { k with stopped := true, resumeIndex := (((fetchedCtxs s p q).head?).map (·.sqIndex)).getD k.sqHead })

/-- RESULT0 at a decision: a refused TWIN_CONTROL PAIR returns its reason (R404). -/
def decidedResult (s : State) (c : Ctx) (status : Half) : Word :=
  if c.queue == 0 && eOpcode c.dw == 0x94 && bits (eCdw c.dw 0) 2 0 == 0 && nonSuccess status then w32 s.twin.pairReject else c.result0

/-- A status decided for a command: the context ends, or is refused, and where the status is not of class 0 the queue freezes
and the ERROR log gains its entry (R130, R133). -/
def decide_ (s : State) (cid : Nat) (v : Verdict) : State :=
  match ctxOf s cid with
  | none => s
  | some c =>
    let refused := c.stage == .fetched
    let bad := nonSuccess v.status
    let t := updCtx s cid (fun c =>
      { c with stage := if refused then .refused else .ended, status := v.status, result0 := decidedResult s c v.status, logged := bad, tPerform := s.now })
    if !bad then t
    else
      let first := ((queueOf t c.port c.queue).map (fun k => !k.stopped)).getD false
      let t := freezeDecided t c.port c.queue
      let k := queueOf t c.port c.queue
      logError t
        { seq := 0, csn := c.csn, aet := 0, queue := c.queue, port := c.port, sqIndex := c.sqIndex
          opcode := if v.origin == 0 then 0 else eOpcode c.dw
          tag := if v.origin == 0 then 0 else eTag c.dw
          status := v.status, origin := v.origin, fieldOffset := v.fieldOffset
          resumeIndex := if first then (k.map (·.resumeIndex)).getD 0 else 0
          froze := first
          retained := if first then (fetchedCtxs t c.port c.queue).length else 0
          lba := v.lba, byteOffset := v.byteOffset, detail0 := v.detail0
          detail1 := Nat.min v.detail1 0xFFFFFFFF }

/-! ## Performing a command -/

/-- A command performed: its results and status stand and its completion waits to be posted (R2, R241). -/
def perform (s : State) (cid : Nat) (r0 r1 : Word) (status : Half := 0) : State :=
  updCtx s cid (fun c => { c with stage := .ended, status := status, result0 := r0, result1 := r1, tPerform := s.now })

/-- A command performed whose effect lies outside the map: in a twin a STATE frame of the kind is sent, and the completion
waits for its acknowledgement (R388). -/
def performState (s : State) (cid : Nat) (kind : Nat) (r0 r1 : Word) (feature : Option (Nat × List Word) := none)
    (queue : Option QueueImage := none) (log : Option Port := none) : State :=
  let csn := ((ctxOf s cid).map (·.csn)).getD 0
  let fseq := s.twin.txSeq
  let waits := mirroring s
  let t := mirrorFrame s (.state { csn := csn, status := 0, kind := kind, result0 := r0, result1 := r1, feature := feature, queue := queue, log := log })
  updCtx (perform t cid r0 r1) cid (fun c => { c with awaitAck := if waits then some fseq else none })

/-- A command counts as admitted: its ADMIT frame, where one was owed, is acknowledged (R2, R388). -/
def admissionStands (s : State) (c : Ctx) : Bool := c.admitAck.all (acked s)

/-- A context in a stage with an opcode, of queue 0 or of an I/O queue (R95): what an opcode's row acts on. -/
def ctxIn (s : State) (cid opcode : Nat) : Option Ctx :=
  match ctxOf s cid with
  | none => none
  | some c =>
    if eOpcode c.dw == opcode && admissionStands s c && (c.stage == .admitted || c.stage == .served) && c.status == 0 && !s.kf.recMode && (s.jrnl.stopFrom.isNone || (failedSet s && c.stage == .served))
    then some c else none

/-- ADMIN commands performed while NOT_READY (R120). -/
def readyFor (s : State) (c : Ctx) : Bool :=
  !notReady s || [0x80, 0x81, 0x82, 0x87].contains (eOpcode c.dw)

/-! ## Retirement of units (R489) -/

/-- Units of a command with a CSN (R489). -/
def unitsOf (dw : List Word) : Nat :=
  if [0x01, 0x02, 0x04, 0x05, 0x08, 0x0A, 0x0C, 0x12].contains (eOpcode dw) then eCount dw
  else if eOpcode dw == 0x11 then ceilDiv (eCdw dw 1) 4096
  else 1

/-- An ended I/O command's units enter the retirement queue. -/
def retire (s : State) (c : Ctx) (units : Nat) (ok : Bool) : State :=
  if c.queue == 0 then s
  else updCtr s (fun x => { x with retire := x.retire ++ [{ units := units, ok := ok, port := c.port }] })

/-! ## Blocks of the medium -/

/-- The block table entry of a block; a block never listed is ERASED with one program/erase cycle (Table 10-6). -/
def blkOf (s : State) (b : Madr) : BlockRec :=
  (s.map.blocks.find? (fun x => x.addr == blockOf b)).getD { addr := blockOf b, seq := 0, st := .erased, released := false, pe := 1 }

/-- A block table entry changed; an unlisted block's entry is listed first. -/
def putBlk (l : List BlockRec) (r : BlockRec) : List BlockRec :=
  if l.any (fun x => x.addr == r.addr) then l.map (fun x => if x.addr == r.addr then r else x) else l ++ [r]

/-- A block table entry changed. -/
def updBlk (s : State) (b : Madr) (f : BlockRec → BlockRec) : State :=
  updMap s (fun m => { m with blocks := putBlk m.blocks (f (blkOf s b)) })

/-- Page of the medium that is not erased. -/
def pageRecOf (s : State) (m : Madr) : Option PageRec := s.media.pages.find? (fun x => x.addr == pageOf m)

/-- A die with state. -/
def dieStOf (s : State) (d : DieId) : Option DieSt := s.media.dies.find? (fun x => x.id == d)

/-- A die without recorded state. -/
def DieSt.fresh (d : DieId) : DieSt where
  id := d
  op := none
  queue := []
  suspended := none
  suspends := 0
  sample := none
  band := none
  hist := []
  timeouts := 0
  failed := false

/-- A die changed; a die without state gets one. -/
def updDie (s : State) (d : DieId) (f : DieSt → DieSt) : State :=
  let old := (dieStOf s d).getD (DieSt.fresh d)
  updMedia s (fun m =>
    { m with dies := if m.dies.any (fun x => x.id == d) then m.dies.map (fun x => if x.id == d then f old else x)
                     else m.dies ++ [f old] })

end Sys2Proof.Machine
end

