-- ==== Sys2Proof/Machine/KfRecords.lean ====
section
/-! DEFINITION. The regions of keeper flash (Table 19-1), how records are appended to them (R444), boot records (Table 19-5) and the user
calibration overlay (R452). -/
namespace Sys2Proof.Machine
open Sys2Proof

/-! ## Regions -/

/-- Bytes of a sector. -/
def sectorSize : Nat := 65536

/-- First byte of image slot s of Table 7-14: keeper A, B, cluster A, B, structure A, B. -/
def slotBase (s : Nat) : Nat := [0x0100000, 0x0900000, 0x2000000, 0x2800000, 0x3000000, 0x3400000].getD s 0

/-- Bytes of a component's slot. -/
def slotSize (component : Nat) : Nat := if component < 2 then 0x800000 else 0x400000

/-- The boot sector, its shadow, the factory row and the overlay region. -/
def bootSector : Nat := 0
def bootShadow : List Nat := [0x3800000, 0x3810000]
def factoryRow : Nat := 0x0010000
def overlayRegion : List Nat := [0x3820000, 0x3830000]

/-- Cells of a byte range. -/
def cellsIn (m : List Host.Cell) (a n : Nat) : List Host.Cell := m.filter (fun c => decide (a ≤ c.1) && decide (c.1 < a + n))

/-- A range reads all 0xFF. -/
def blank (m : List Host.Cell) (a n : Nat) : Bool := (cellsIn m a n).isEmpty

/-- Units of a sector up to the last one that is not blank. -/
def unitsUsed (m : List Host.Cell) (sector : Nat) : Nat :=
  (cellsIn m sector sectorSize).foldl (fun n c => Nat.max n ((c.1 - sector) / 256 + 1)) 0

/-- Unit addresses of a sector that are not blank, ascending. -/
def unitsIn (m : List Host.Cell) (sector : Nat) : List Nat :=
  ((List.range (unitsUsed m sector)).map (fun i => sector + 256 * i)).filter (fun a => !blank m a 256)

/-- The newest valid record of some sectors: the address whose sequence number is highest (R444). -/
def newestRec (m : List Host.Cell) (sectors : List Nat) (seqAt : List Host.Cell → Nat → Option Nat) : Option (Nat × Nat) :=
  (sectors.flatMap (unitsIn m)).foldl (fun best a => match seqAt m a, best with
    | some n, some b => if b.1 < n then some (n, a) else best
    | some n, none => some (n, a)
    | none, _ => best) none

/-- A record appended in a region (R444): after the last used unit of the current sector; where there is no room, the other sector is erased,
takes the live record of `live` bytes, and goes on from there. -/
def appendRec (m : List Host.Cell) (sectors : List Nat) (seqAt : List Host.Cell → Nat → Option Nat) (liveLen : List Host.Cell → Nat → Nat)
    (bs : List Byte) : List Host.Cell :=
  let newest := newestRec m sectors seqAt
  let cur := match newest with
    | some (_, a) => a / sectorSize * sectorSize
    | none => sectors.headD 0
  let at_ := 256 * unitsUsed m cur
  if at_ + bs.length ≤ sectorSize then memWriteAll m (cur + at_) bs
  else
    let other := (sectors.find? (fun x => x != cur)).getD cur
    let live := match newest with
      | some (_, a) => memBytes m a (liveLen m a)
      | none => []
    let clean := memErase m other sectorSize
    let next := 256 * ceilDiv live.length 256
    let keep := next + bs.length ≤ sectorSize
    memWriteAll (if keep then memWriteAll clean other live else clean) (other + (if keep then next else 0)) bs

/-! ## Boot records (R454, Table 19-5) -/

/-- One byte of a boot record from a number. -/
def b8 (n : Nat) : List Byte := [BitVec.ofNat 8 n]

/-- SLOT[s] of a boot record. -/
def bootSlotBytes (x : BootSlot) : List Byte :=
  b8 x.st ++ b8 x.reason ++ leBytes 2 x.section_ ++ List.replicate 4 0 ++ leBytes 8 x.commitAet

/-- The 256 bytes of a boot record. -/
def bootBytes (r : BootRec) : List Byte :=
  let b := leBytes 4 0x42545243 ++ List.replicate 4 0 ++ leBytes 8 r.seq ++ b8 r.active.toNat ++ b8 r.previous.toNat ++ b8 r.pend.toNat
    ++ b8 r.trial.toNat ++ List.replicate 12 0 ++ r.slots.flatMap bootSlotBytes ++ List.replicate 124 0
  b ++ leBytes 4 (crc32c b).toNat

/-- The boot record at an address, where MAGIC and CRC pass. -/
def bootRecAt (m : List Host.Cell) (a : Nat) : Option BootRec :=
  let b := memBytes m a 256
  if field b 0 4 != 0x42545243 || field b 0xFC 4 != (crc32c (b.take 0xFC)).toNat then none
  else
    some
      { seq := field b 8 8, active := BitVec.ofNat 3 (field b 0x10 1), previous := BitVec.ofNat 3 (field b 0x11 1)
        pend := BitVec.ofNat 3 (field b 0x12 1), trial := BitVec.ofNat 3 (field b 0x13 1)
        slots := (List.range 6).map (fun s =>
          { st := field b (0x20 + 16 * s) 1, reason := field b (0x21 + 16 * s) 1, section_ := field b (0x22 + 16 * s) 2
            commitAet := field b (0x28 + 16 * s) 8 }) }

/-- Sequence number of the boot record at an address. -/
def bootSeqAt (m : List Host.Cell) (a : Nat) : Option Nat := (bootRecAt m a).map (·.seq)

/-- The boot record that counts: the valid one with the highest BOOT_SEQ of the boot sector and its shadow together (R454). -/
def bootInForce (m : List Host.Cell) : BootRec :=
  ((newestRec m (bootSector :: bootShadow) bootSeqAt).bind (fun x => bootRecAt m x.2)).getD BootRec.none

/-- A boot record written: first to the shadow, then to the boot sector (R454). -/
def writeBoot (m : List Host.Cell) (r : BootRec) : List Host.Cell :=
  let m := appendRec m bootShadow bootSeqAt (fun _ _ => 256) (bootBytes r)
  appendRec m [bootSector] bootSeqAt (fun _ _ => 256) (bootBytes r)

/-- A new boot record with some content, durable. -/
def putBoot (s : State) (f : BootRec → BootRec) : State :=
  let r := { f s.kf.boot with seq := s.kf.boot.seq + 1 }
  updKf s (fun k => { k with boot := r, mem := writeBoot k.mem r })

/-- A slot of a boot record changed. -/
def updSlot (r : BootRec) (s : Nat) (f : BootSlot → BootSlot) : BootRec := { r with slots := r.slots.modify s f }

/-- A bit of a component mask. -/
def compBit (v : BitVec 3) (c : Nat) : Bool := v.getLsbD c

/-- Components of a mask, ascending. -/
def comps (v : BitVec 3) : List Nat := (List.range 3).filter (compBit v)

/-- Slot number of a component's active and inactive slots: 2 x component, plus 1 for slot B. -/
def activeSlot (r : BootRec) (c : Nat) : Nat := 2 * c + b2n (compBit r.active c)
def otherSlot (r : BootRec) (c : Nat) : Nat := 2 * c + b2n (!compBit r.active c)

/-! ## Calibration (R452, R453) -/

/-- A signed 32-bit value as a number of 32 bits, and back. -/
def s32 (x : Int) : Nat := (BitVec.ofInt 32 x).toNat
def int32 (n : Nat) : Int := (BitVec.ofNat 32 n).toInt

/-- The bytes of an overlay copy (R452). -/
def overlayBytes (seq : Nat) (items : List (Nat × Int)) : List Byte :=
  let es := items.flatMap (fun x => leBytes 2 x.1 ++ leBytes 2 0 ++ leBytes 4 (s32 x.2))
  let h := leBytes 4 0x5543414C ++ leBytes 4 items.length ++ leBytes 8 seq ++ List.replicate 44 0
  h ++ leBytes 4 (crc32c (h ++ es)).toNat ++ es

/-- Length of a copy by its ITEMS. -/
def calLen (m : List Host.Cell) (a : Nat) : Nat := 64 + 8 * Nat.min 4096 (leNat (memBytes m (a + 4) 4))

/-- The items of a calibration row or overlay copy at an address, where MAGIC and CRC pass (R452): OVL_SEQ and the items. -/
def calAt (magic : Nat) (m : List Host.Cell) (a : Nat) : Option (Nat × List (Nat × Int)) :=
  let b := memBytes m a (calLen m a)
  let n := field b 4 4
  if field b 0 4 != magic || 4096 < n || field b 0x3C 4 != (crc32c (b.take 0x3C ++ b.drop 64)).toNat then none
  else some (field b 8 8, (List.range n).map (fun i => (field b (64 + 8 * i) 2, int32 (field b (68 + 8 * i) 4))))

/-- OVL_SEQ of the overlay copy at an address. -/
def ovlSeqAt (m : List Host.Cell) (a : Nat) : Option Nat := (calAt 0x5543414C m a).map (·.1)

/-- The newest overlay copy that passes (R452). -/
def newestOverlay (m : List Host.Cell) : Option (Nat × List (Nat × Int)) :=
  (newestRec m overlayRegion ovlSeqAt).bind (fun x => calAt 0x5543414C m x.2)

/-- A new overlay copy appended. -/
def appendOverlay (m : List Host.Cell) (bs : List Byte) : List Host.Cell := appendRec m overlayRegion ovlSeqAt calLen bs

/-- The items with one replaced, ascending; a value of 0 removes it (R453). -/
def putItem (item : Nat) (v : Int) : List (Nat × Int) → List (Nat × Int)
  | [] => if v == 0 then [] else [(item, v)]
  | h :: t =>
    if h.1 == item then (if v == 0 then t else (item, v) :: t)
    else if item < h.1 then (if v == 0 then h :: t else (item, v) :: h :: t)
    else h :: putItem item v t

/-- The value of an item in a list. -/
def itemOf (l : List (Nat × Int)) (item : Nat) : Option Int := (l.find? (fun x => x.1 == item)).map (·.2)

/-- Effective value of an item: factory plus overlay, clamped; the factory value alone without a CALIB_LIMITS entry (R50). -/
def effectiveItem (limits : List (Nat × Int × Int)) (overlay : List (Nat × Int)) (x : Nat × Int) : Nat × Int :=
  match limits.find? (fun l => l.1 == x.1) with
  | none => x
  | some (_, lo, hi) => (x.1, max lo (min hi (x.2 + (itemOf overlay x.1).getD 0)))

end Sys2Proof.Machine
end

