-- ==== Sys2Proof/Machine/Sequences.lean ====
section
/-! DEFINITION. Flash command sequences (R36, R37): the interpreter of a channel sequencer as far as a sequence's course and outcome go, and
the checks of a profile's sequences. What CMD, ADDR, DATA_IN, DATA_OUT, DELAY and SET_OFFSETS put on the flash bus is the page that the
operation names, which the pages of the medium hold. -/
namespace Sys2Proof.Machine
open Sys2Proof

/-- A sequence of a profile; none where the image has none of that number. -/
def sequenceOf (l : List (Nat × List SeqOp)) (n : Nat) : Option (List SeqOp) := (l.find? (fun x => x.1 == n)).map (·.2)

/-- A run of a sequence: what the die has still to answer (microseconds to ready, status bytes), and its end once it has one. -/
structure SeqRun where
  waits : List Nat
  statuses : List Nat
  ended : Option SeqOutcome
  deriving DecidableEq, Repr

/-- One operation of Table 2-6 but CALL. -/
def seqStep (o : SeqOp) (r : SeqRun) : SeqRun :=
  match o.code with
  | 0x05 => if o.operand % 2 ^ 32 < r.waits.headD 0 then { r with ended := some .timeout } else { r with waits := r.waits.tail }
  | 0x07 =>
    if (r.statuses.headD 0 % 256) &&& (o.operand % 256) == o.operand / 256 % 256 then { r with statuses := r.statuses.tail }
    else { r with ended := some .statusFail }
  | 0x0A => { r with ended := some .done }
  | _ => r

/-- The operations of a list in order until one ends the run; `sub` runs the sequence that a CALL names, whose END returns here. -/
def runOps (sub : Nat → SeqRun → SeqRun) : List SeqOp → SeqRun → SeqRun
  | [], r => r
  | o :: os, r =>
    let q := if o.code == 0x09 then sub (o.operand % 64) r else seqStep o r
    let q := if o.code == 0x09 && q.ended == some .done then { q with ended := none } else q
    if q.ended.isSome then q else runOps sub os q

/-- Sequence n of a profile run, with CALLs nested as deep as the depth allows (R36). -/
def runSeq (l : List (Nat × List SeqOp)) : Nat → Nat → SeqRun → SeqRun
  | 0, _, r => r
  | depth + 1, n, r => runOps (runSeq l depth) ((sequenceOf l n).getD []) r

/-- The outcome of sequence n for what the die answers (R37); a list of operations that ends without END ends with DONE (assumption 46). -/
def seqOutcome (l : List (Nat × List SeqOp)) (n : Nat) (waits statuses : List Nat) : SeqOutcome :=
  ((runSeq l 3 n { waits := waits, statuses := statuses, ended := none }).ended).getD .done

/-- The built-in descriptor sequences of the keeper's boot ROM, numbered as their operations on a die: the page read (0x00, address, 0x30, ready,
data) and the page program (0x80, address, data, 0x10, ready, status of 0x70). Address cycles and page size are those of the die's own
identification. A wait has no limit, and the status passes where bit 0 is clear (assumption 50). -/
def builtinSeqs : List (Nat × List SeqOp) :=
  [ (64, [⟨0x01, 0x00⟩, ⟨0x02, 0x25⟩, ⟨0x01, 0x30⟩, ⟨0x05, 0xFFFFFFFF⟩, ⟨0x04, 16384⟩, ⟨0x0A, 0⟩])
  , (65, [⟨0x01, 0x80⟩, ⟨0x02, 0x25⟩, ⟨0x03, 16384⟩, ⟨0x01, 0x10⟩, ⟨0x05, 0xFFFFFFFF⟩, ⟨0x01, 0x70⟩, ⟨0x07, 0x0001⟩, ⟨0x0A, 0⟩]) ]

/-- CALLs from sequence n nest no deeper than a depth. -/
def callsOk (l : List (Nat × List SeqOp)) : Nat → Nat → Bool
  | 0, n => ((sequenceOf l n).getD []).all (fun o => o.code != 0x09)
  | depth + 1, n => ((sequenceOf l n).getD []).all (fun o => o.code != 0x09 || callsOk l depth (o.operand % 64))

/-- The sequences of a profile pass (R35 to R37): at most 64 of at most 256 operations, the mandatory ones there, each code one of Table
2-6, CALLs at most 2 deep. -/
def sequencesOk (l : List (Nat × List SeqOp)) : Bool :=
  decide (l.length ≤ 64) && (List.range 10).all (fun n => (sequenceOf l n).isSome) &&
    l.all (fun x => decide (x.1 < 64) && decide (x.2.length ≤ 256) && x.2.all (fun o => decide (1 ≤ o.code) && decide (o.code ≤ 0x0A)) && callsOk l 2 x.1)

end Sys2Proof.Machine
end

