-- ==== Sys2Proof/Machine/ImageBytes.lean ====
section
/-! DEFINITION. The bytes of a component slot read as a structure image (chapter 02) or a firmware package (Table 19-7): the container, the
sections whose body the manual prints, and every check of R41, R456 and R457. -/
namespace Sys2Proof.Machine
open Sys2Proof

/-! ## Container (R28 to R31) -/

/-- A directory entry (Table 2-2). -/
structure SectionEnt where
  id : Nat
  profile : Nat
  flags : Nat
  format : Nat
  offset : Nat
  length : Nat
  crc : Nat
  deriving DecidableEq, Repr

/-- The bytes of a slot. -/
def slotImage (m : List Host.Cell) (slot : Nat) : List Byte := memBytes m (slotBase slot) (slotSize (slot / 2))

/-- IMAGE_LENGTH of an image; LENGTH of a package is at the same offset. -/
def imageLength (b : List Byte) : Nat := field b 8 4

/-- SIGBLOCK_OFFSET. -/
def sigOffset (b : List Byte) : Nat := imageLength b - 0x200

/-- The directory of an image, at most 64 entries. -/
def directory (b : List Byte) : List SectionEnt :=
  (List.range (Nat.min 64 (field b 0x20 2))).map (fun i =>
    let e := slice b (0x100 + 24 * i) 24
    { id := field e 0 2, profile := field e 2 1, flags := field e 3 1, format := field e 4 2, offset := field e 8 4, length := field e 0x0C 4
      crc := field e 0x10 4 })

/-- The body of a section. -/
def sectionBody (b : List Byte) (e : SectionEnt) : List Byte := slice b e.offset e.length

/-- The entry of a section. -/
def sectionOf (b : List Byte) (id profile : Nat) : Option SectionEnt := (directory b).find? (fun e => e.id == id && e.profile == profile)

/-- The body of a section; empty where it is absent. -/
def bodyOf (b : List Byte) (id profile : Nat) : List Byte := ((sectionOf b id profile).map (sectionBody b)).getD []

/-- Sections of Table 2-4: 1 device-wide, 2 per profile, 3 per profile and binding. -/
def sectionKind (id : Nat) : Nat :=
  if [0x01, 0x0C, 0x0D, 0x0E, 0x0F].contains id then 1
  else if [0x03, 0x06, 0x0B].contains id then 3
  else if 2 ≤ id && id ≤ 0x0B then 2 else 0

/-- Largest body of a section, bytes (Table 2-4). -/
def sectionMax (id : Nat) : Nat :=
  if id == 0x05 then 131072 else if id == 0x06 then 1048576 else if id == 0x07 || id == 0x08 then 65536
  else if id == 0x0F then 16384 else if [0x03, 0x09, 0x0B, 0x0D, 0x0E].contains id then 1024 else 4096

/-- Profiles of an image: those that carry FLASH_GEOMETRY. -/
def profileCount (b : List Byte) : Nat := ((directory b).filter (fun e => e.id == 3)).length

/-- A number that tells byte strings apart: byte identity of sections is equality of these numbers. -/
def bytesKey (bs : List Byte) : Nat := leNat (bs ++ [1])

/-- The per-profile sections of Table 2-4: binding, or not. -/
def profileSections (binding : Bool) : List Nat := if binding then [0x03, 0x06, 0x0B] else [0x02, 0x04, 0x05, 0x07, 0x08, 0x09, 0x0A]

/-- The per-profile sections that a function gives by id, binding or not, in the order of their ids, with the lengths that keep them apart. -/
def sectionsKey (body : Nat → List Byte) (binding : Bool) : Nat :=
  bytesKey ((profileSections binding).flatMap (fun id => leBytes 4 (body id).length ++ body id))

/-- The known sections of a profile of an image; a skippable section of another id is ignored (R31), and the order of the directory does not
matter (R47, R48). -/
def profileKey (b : List Byte) (profile : Nat) (binding : Bool) : Nat := sectionsKey (fun id => bodyOf b id profile) binding

/-- The known sections of an image: the device-wide ones, then those of each profile, in the order of their ids. -/
def knownSections (b : List Byte) : List SectionEnt :=
  [0x01, 0x0C, 0x0D, 0x0E, 0x0F].filterMap (fun id => sectionOf b id 0xFF) ++
    (List.range (profileCount b)).flatMap (fun p => (List.range 10).filterMap (fun i => sectionOf b (i + 2) p))

/-! ## Sections with a printed body -/

/-- A signed byte and a signed 16-bit field. -/
def sbyte (b : List Byte) (o : Nat) : Int := (BitVec.ofNat 8 (field b o 1)).toInt
def shalf (b : List Byte) (o : Nat) : Int := (BitVec.ofNat 16 (field b o 2)).toInt

/-- CIRCULANT entries of an LDPC_CODE body (Table 12-2): block column, block row, shift. -/
def circulantsOf (b : List Byte) : List (Nat × Nat × Nat) :=
  (List.range (Nat.min (field b 0x1C 4) 262144)).map (fun i =>
    let v := field b (0x20 + 4 * i) 4
    (bits v 9 0, bits v 17 10, bits v 26 18))

/-- Page types of a READ_RETRY body (Table 12-4). -/
def pageTypesOf (b : List Byte) : List PageType :=
  (List.range (Nat.min (field b 0 1) 8)).map (fun t =>
    let o := 0x10 + 16 * t
    { levels := field b o 1, entries := field b (o + 1) 1, retrySequence := field b (o + 2) 1, loupeStep := field b (o + 3) 1
      loupeSamples := field b (o + 4) 1, refreshIndex := field b (o + 5) 1 })

/-- A profile with the fields whose sections the manual prints taken from the image's bytes (Tables 12-2 to 12-4, 13-1, 13-2, 14-1). -/
def profileFrom (b : List Byte) (n : Nat) (v : Profile) : Profile :=
  let ldpc := bodyOf b 0x06 n
  let retry := bodyOf b 0x07 n
  let offs := bodyOf b 0x08 n
  let therm := bodyOf b 0x09 n
  let endu := bodyOf b 0x0A n
  let prism := bodyOf b 0x0B n
  { v with
    pageTypes := pageTypesOf retry
    z := field ldpc 0 2, parityBytes := field ldpc 2 2, nb := field ldpc 4 2, mb := field ldpc 6 2
    hardIter := field ldpc 8 1, softIter := field ldpc 9 1, verifyLimit := field ldpc 0x0A 2, refreshLimit := field ldpc 0x0C 2
    circulants := circulantsOf ldpc
    bands := field therm 0 1, hysteresis := (field therm 1 1 : Nat), tempPeriod := field therm 2 2
    scale := shalf therm 4, bias := shalf therm 6, upper := (List.range (field therm 0 1 - 1)).map (fun i => sbyte therm (8 + i))
    tempOffsetBands := field offs 0 1
    eaMev := field therm 0x10 2, afCap := field therm 0x12 1
    ratedPe := field endu 0 4, spareFraction := field endu 4 2, lastStandFraction := field endu 6 2
    refTemp := sbyte endu 8, tUnknown := sbyte endu 9, guardDays := field endu 0x0A 2, fLimit := field endu 0x0C 2
    fWake := field endu 0x0E 2, ret := (List.range 9).map (fun i => field endu (0x10 + 4 * i) 4)
    cFresh := field endu 0x34 2, cEnd := field endu 0x36 2
    w := field prism 0 1, p := field prism 1 1, wMin := field prism 2 1, dedicated := field prism 3 1 == 1
    stripeUnit := field prism 4 1, spareBays := field prism 5 1, sjWindow := field prism 6 1
    bindingHash := profileKey b n true, tablesHash := profileKey b n false, adopted := false }

/-- The values of an image: sections without a printed body through `Config.imageValues`, the others from their bytes (assumption 5). -/
def imageVals (b : List Byte) : ImgVals :=
  let v := Config.imageValues ((knownSections b).map (fun e => (e.id, e.profile, sectionBody b e)))
  let pods := bodyOf b 0x0C 0xFF
  { v with
    podUnits := (List.range 5).map (fun k => field pods (4 * k) 4)
    podQuota := (List.range 15).map (fun r => (List.range 5).map (fun k => (field pods (0x20 + 20 * r + 4 * k) 2, field pods (0x22 + 20 * r + 4 * k) 2)))
    profiles := (List.range (profileCount b)).map (fun n => profileFrom b n (v.profiles.getD n default))
    queueLimitsHash := bytesKey (bodyOf b 0x0D 0xFF) }

/-! ## The checks of R41 -/

/-- A rejection: reason of Table 2-8 and section id, 0 where none applies. -/
abbrev Reject := Nat × Nat

/-- The reasons that do not hold are passed over; the first that holds stands. -/
def firstReject (l : List (Bool × Reject)) : Option Reject := (l.find? (fun x => x.1)).map (·.2)

/-- Step 1: header. -/
def headerOk (b : List Byte) : Bool :=
  let n := imageLength b
  field b 0 4 == 0x53575258 && field b 5 1 == 1 && field b 6 2 == 0x100 && field b 0xFC 4 == (crc32c (b.take 0xFC)).toNat
    && decide (n ≤ 0x400000) && n % 256 == 0 && decide (0x300 ≤ n) && field b 0x28 4 == n - 0x200

/-- Sections do not overlap. -/
def apart (e f : SectionEnt) : Bool := decide (e.offset + e.length ≤ f.offset) || decide (f.offset + f.length ≤ e.offset)

/-- Every two members of a list meet a condition. -/
def pairsOk {α : Type} (f : α → α → Bool) : List α → Bool
  | [] => true
  | x :: xs => xs.all (f x) && pairsOk f xs

/-- Step 2: placement and duplicates (R28, R29). -/
def directoryOk (b : List Byte) : Bool :=
  let n := field b 0x20 2
  let d := directory b
  1 ≤ n && n ≤ 64 && field b 0x24 4 == 0x100 && decide (0x100 + 24 * n ≤ sigOffset b) &&
    d.all (fun e => e.offset % 64 == 0 && decide (0x100 + 24 * n ≤ e.offset) && decide (e.offset + e.length ≤ sigOffset b)) &&
    pairsOk apart d && pairsOk (fun e f => !(e.id == f.id && e.profile == f.profile)) d

/-- Step 2: the first section whose SECTION_CRC fails. -/
def crcFault (b : List Byte) : Option Nat := ((directory b).find? (fun e => e.crc != (crc32c (sectionBody b e)).toNat)).map (·.id)

/-- The signature block. -/
def sigBlock (b : List Byte) (len : Nat) : List Byte := slice b (imageLength b - len) len

/-- Step 3: the vendor signature under a key that is not revoked (R38). -/
def vendorOk (revoked : BitVec 4) (b sig : List Byte) (covered : Nat) : Bool :=
  let k := field sig 0 4
  decide (k < 4) && !revoked.getLsbD k && Config.vendorSigValid k (b.take covered) (slice sig 0x10 96)

/-- The owner public key of an image. -/
def ownerKey (b : List Byte) : List Byte := slice (sigBlock b 0x200) 0x70 96

/-- Step 4: the owner key against the fuse, then the countersignature (R39). -/
def ownerReject (fuse : Option (BitVec 384)) (b : List Byte) : Option Reject :=
  firstReject [(fuse.any (fun f => f != Config.sha384 (ownerKey b)), (0x05, 0)),
    (!Config.ownerSigValid (ownerKey b) (b.take (sigOffset b + 0xD0)) (slice (sigBlock b 0x200) 0xD0 96), (0x06, 0))]

/-- A known section whose format the firmware does not support. -/
def formatFault (formats : List Word) (b : List Byte) : Option Nat :=
  ((directory b).find? (fun e => sectionKind e.id != 0 && !(formats.getD (e.id - 1) 0).getLsbD e.format)).map (·.id)

/-- Step 5: interface level, section formats and Tigrim version that the firmware supports (R45); a section's format names the section. -/
def levelReject (level tigrim : Nat) (formats : List Word) (b : List Byte) : Option Reject :=
  firstReject [(level < field b 0x18 2 || field b 0x1A 2 < level, (0x07, 0))]
  <|> (formatFault formats b).map (fun id => (0x07, id))
  <|> firstReject [(tigrim < field b 0x1C 2, (0x07, 0))]

/-- Step 6: the first section that is not there as Table 2-4 asks: device-wide ones once, each per-profile one for each of the contiguous
profiles, BINDING flags as the table has them, other ids only with SKIPPABLE set (R31). -/
def presenceFault (b : List Byte) : Option Nat :=
  let d := directory b
  let n := profileCount b
  ([0x01, 0x0C, 0x0D, 0x0E, 0x0F].find? (fun id => !d.any (fun e => e.id == id && e.profile == 0xFF)))
  <|> ((List.range 10).map (· + 2)).find? (fun id => !(List.range n).all (fun p => d.any (fun e => e.id == id && e.profile == p)))
  <|> (d.find? (fun e => !(match sectionKind e.id with
      | 0 => e.flags / 2 % 2 == 1
      | 1 => e.profile == 0xFF && e.flags % 2 == 0
      | 2 => decide (e.profile < n) && e.flags % 2 == 0
      | _ => decide (e.profile < n) && e.flags % 2 == 1))).map (·.id)

/-- A section longer than Table 2-4 allows. -/
def oversize (b : List Byte) : Option Nat := ((directory b).find? (fun e => sectionKind e.id != 0 && sectionMax e.id < e.length)).map (·.id)

/-- A value lies in a range. -/
def within (lo hi x : Nat) : Bool := decide (lo ≤ x) && decide (x ≤ hi)

/-! ## LDPC_CODE (R290, R291) -/

/-- Rows of the parity part of H as bit masks over the parity columns. -/
def parityRows (f : Profile) : List Nat :=
  let first := 33408 / f.z
  (List.range f.mb).flatMap (fun r => (List.range f.z).map (fun i =>
    f.circulants.foldl (fun a c => if c.2.1 == r && first ≤ c.1 then a ^^^ 2 ^ ((c.1 - first) * f.z + (i + c.2.2) % f.z) else a) 0))

/-- A row reduced by pivots. -/
def reduceRow (basis : List (Nat × Nat)) (r : Nat) : Nat := basis.foldl (fun x b => if x.testBit b.1 then x ^^^ b.2 else x) r

/-- The rows are independent over GF(2). -/
def independent : List Nat → List (Nat × Nat) → Bool
  | [], _ => true
  | r :: rs, basis =>
    let x := reduceRow basis r
    x != 0 && independent rs (basis ++ [(Nat.log2 x, x)])

/-- The LDPC_CODE section of a profile passes (R35, R291). -/
def ldpcOk (b : List Byte) (n : Nat) (f : Profile) : Bool :=
  let s := bodyOf b 0x06 n
  f.z % 32 == 0 && within 64 512 f.z && 33408 % f.z == 0 && within 256 1024 f.parityBytes && f.parityBytes % (f.z / 8) == 0 &&
    f.nb == (33408 + 8 * f.parityBytes) / f.z && f.mb == 8 * f.parityBytes / f.z && within 1 64 f.hardIter && within 1 64 f.softIter &&
    within 1 32 (field s 0x0E 1) && field s 0x0F 1 == 0 && field s 0x1A 2 == 0 && 0x20 + 4 * field s 0x1C 4 ≤ s.length &&
    f.circulants.all (fun c => decide (c.1 < f.nb) && decide (c.2.1 < f.mb) && decide (c.2.2 < f.z)) &&
    (List.range f.nb).all (fun c => decide ((f.circulants.filter (fun x => x.1 == c)).length ≤ 8)) &&
    pairsOk (fun x y => !(x.1 == y.1 && x.2.1 == y.2.1)) f.circulants && independent (parityRows f) []

/-! ## Steps 7 and 8 (R35, R37, R291, R293, R297, R298, R310, R336, R426) -/

/-- Strictly ascending. -/
def ascending : List Int → Bool
  | [] => true
  | [_] => true
  | x :: y :: t => decide (x < y) && ascending (y :: t)

/-- Non-increasing. -/
def falling : List Nat → Bool
  | [] => true
  | [_] => true
  | x :: y :: t => decide (y ≤ x) && falling (y :: t)

/-- Value limits of one page type. -/
def pageTypeOk (t : PageType) : Bool :=
  within 1 31 t.levels && t.entries ≤ 64 && (t.retrySequence == 0 || within 10 63 t.retrySequence) && within 1 16 t.loupeStep &&
    within 3 9 t.loupeSamples && t.loupeSamples % 2 == 1 && within 1 64 t.refreshIndex

/-- Bytes of a die: one LUN (R35). -/
def dieBytes (f : Profile) : Nat := f.planes * f.blocksPerPlane * f.pagesPerBlock * 16384

/-- Bays that the sled wires. -/
def wiredCount (v : ImgVals) : Nat := ((List.range 16).filter (fun i => v.wiredBays.getLsbD i)).length

/-- The raw capacity of all wired bays with the largest profile in each: two channels of 8 CE_N each (R1, R35). -/
def rawBytes (v : ImgVals) : Nat := wiredCount v * v.profiles.foldl (fun n f => Nat.max n (2 * 8 * f.lunsPerCe * dieBytes f)) 0

/-- The first section of a profile with a value out of its limits. -/
def profileLimit (b : List Byte) (n : Nat) (f : Profile) : Option Reject :=
  let retry := bodyOf b 0x07 n
  let therm := bodyOf b 0x09 n
  let prism := bodyOf b 0x0B n
  firstReject [
    (!(within 1 4 f.lunsPerCe && within 1 8 f.planes && within 1 32768 f.blocksPerPlane && within 1 4096 f.pagesPerBlock &&
        f.pageBytes == 16384 && f.slotsPerPage == 4 && dieBytes f ≤ 2 ^ 40 && 4 * f.parityBytes ≤ f.spareBytes + 320), (0x08, 0x03)),
    (!(f.transferMts ≤ 6400 && f.busKind ≤ 1), (0x08, 0x04)),
    (!sequencesOk f.seqs, (0x08, 0x05)),
    (!ldpcOk b n f, (0x08, 0x06)),
    (!(within 1 8 (field retry 0 1) && f.pageTypes.all pageTypeOk), (0x08, 0x07)),
    (!(within 2 8 f.bands && within 1 15 (field therm 1 1) && within 10 1000 f.tempPeriod && ascending f.upper &&
        within 300 1500 f.eaMev && within 1 255 f.afCap), (0x08, 0x09)),
    (!(within 100 100000 f.ratedPe && within 1 5000 f.spareFraction && within 1 2000 f.lastStandFraction && decide (-10 ≤ f.refTemp) &&
        decide (f.refTemp ≤ 85) && decide (f.tUnknown ≤ 100) && f.guardDays ≤ 365 && within 1000 9500 f.fLimit && within 1000 9500 f.fWake &&
        f.ret.all (fun r => 1 ≤ r)), (0x08, 0x0A)),
    (!(within 3 16 f.w && within 1 3 f.p && decide (f.p < f.w) && within 3 f.w f.wMin && field prism 3 1 ≤ 1 && within 1 16 f.stripeUnit &&
        (if f.dedicated then f.spareBays == 0 else within 1 3 f.spareBays) && within 2 64 f.sjWindow), (0x08, 0x0B))]

/-- The first section of a profile that is inconsistent with another. -/
def profileConsistency (b : List Byte) (n : Nat) (f : Profile) : Option Reject :=
  firstReject [
    (f.tempOffsetBands != f.bands || field (bodyOf b 0x08 n) 1 1 != f.pageTypes.length, (0x09, 0x08)),
    (!(falling f.ret) || f.cEnd ≤ f.cFresh || decide (f.tUnknown < f.refTemp), (0x09, 0x0A)),
    (decide (f.wMin < f.p + 1) || decide (f.pagesPerBlock - 1 < f.stripeUnit), (0x09, 0x0B))]

/-- Pod limits (Table 18-1, R35, R426). -/
def podsOk (v : ImgVals) : Bool :=
  (List.range 5).all (fun k => decide (v.podUnits.getD k 0 ≤ [65536, 8192, 2048, 512, 8192].getD k 0)) &&
    decide ((List.range 4).foldl (fun n k => n + v.podUnits.getD k 0 * [512, 4096, 16384, 65536].getD k 0) 0 ≤ 33554432) &&
    v.podQuota.all (fun r => (List.range 5).all (fun k =>
      let q := r.getD k (0, 0xFFFF)
      decide (q.1 ≤ q.2) && (q.2 == 0xFFFF || decide (q.2 ≤ v.podUnits.getD k 0))))

/-- Queue, cadence and capacity limits (R35, R67). -/
def deviceLimit (v : ImgVals) : Option Reject :=
  firstReject [
    (!podsOk v, (0x08, 0x0C)),
    (!(within 1 16384 v.maxQueues && within 2 4096 v.maxRing && within 1 2048 v.maxVectors && v.contextShareA + v.contextShareB ≤ 65536), (0x08, 0x0D)),
    (!(within 4 256 v.windowTicks && within 1 75 v.share && decide (16 ≤ ((List.range 64).filter (fun i => !v.quiet.getLsbD i)).length) &&
        within 1 64 v.journalTicks && within 1 120 v.patrolDays), (0x08, 0x0E)),
    (!decide (rawBytes v ≤ 2 ^ 50), (0x08, 0x03))]

/-- Frames of the DRAM tier with the host-tier locator at its largest and the directory sized for every wired bay at the largest die
(R213); 64 dies are wired to a bay. -/
def tierFrames (v : ImgVals) (dramMib : Nat) : Nat :=
  let big := v.profiles.foldl (fun n f => Nat.max n (dieBytes f)) 0
  let directory := ceilDiv (8 * (wiredCount v * 64 * big / 1048576)) 65536 * 65536
  let taken := (5120 + v.podUnits.getD 4 0) * 1048576 + directory + 15872 * 131072
  (dramMib * 1048576 - taken) / 17024 * 8

/-- The DRAM checks of R41 step 8 and R46. -/
def dramOk (v : ImgVals) (dramMib : Nat) : Bool := decide (65536 ≤ tierFrames v dramMib) && decide (v.minDramMib ≤ dramMib)

/-- Step 8 but for DRAM: patterns, pod minimums (R41). -/
def deviceConsistency (v : ImgVals) : Option Reject :=
  firstReject [
    (!pairsOk (fun f g => f.patterns.all (fun x => !g.patterns.contains x)) v.profiles, (0x09, 0x02)),
    (!(List.range 5).all (fun k => decide ((v.podQuota.foldl (fun n r => n + (r.getD k (0, 0)).1) 0) ≤ v.podUnits.getD k 0)), (0x09, 0x0C))]

/-- The first profile fault of a kind. -/
def anyProfile (v : ImgVals) (f : Nat → Profile → Option Reject) : Option Reject :=
  (List.range v.profiles.length).findSome? (fun n => (v.profiles[n]?).bind (f n))

/-- What a firmware release supports, as a cluster package header tells it. -/
structure FwSupport where
  level : Nat
  tigrim : Nat
  formats : List Word
  deriving DecidableEq, Repr

/-- Every check of R41 but those on DRAM, in order; the first that fails. A failure of R31 has reason DIRECTORY (assumption 47). -/
def imageReject (fuse : Option (BitVec 384)) (revoked : BitVec 4) (fw : FwSupport) (b : List Byte) : Option Reject :=
  if !headerOk b then some (0x01, 0)
  else if !directoryOk b then some (0x02, 0)
  else
    match crcFault b with
    | some id => some (0x03, id)
    | none =>
      let v := imageVals b
      firstReject [(!vendorOk revoked b (sigBlock b 0x200) (sigOffset b), (0x04, 0))]
      <|> ownerReject fuse b <|> levelReject fw.level fw.tigrim fw.formats b
      <|> (presenceFault b).map (fun id => (0x02, id)) <|> firstReject [(!within 1 4 (profileCount b), (0x02, 0))]
      <|> (oversize b).map (fun id => (0x08, id))
      <|> deviceLimit v <|> anyProfile v (profileLimit b)
      <|> deviceConsistency v <|> anyProfile v (profileConsistency b)

/-! ## Firmware packages (R456) -/

/-- Reason for which a package of a component fails: header, then signature. -/
def packageReject (revoked : BitVec 4) (component : Nat) (b : List Byte) : Option Reject :=
  let n := imageLength b
  if !(field b 0 4 == 0x4657504B && field b 4 1 == component && field b 5 1 == 1 && n % 256 == 0 && within 512 0x800000 n
      && field b 0xFC 4 == (crc32c (b.take 0xFC)).toNat) then some (0x01, 0)
  else if !vendorOk revoked b (sigBlock b 256) (n - 256) then some (0x04, 0)
  else none

/-- SECTION_FORMATS of a cluster package. -/
def packageFormats (b : List Byte) : List Word := (List.range 16).map (fun i => w32 (field b (0x30 + 4 * i) 4))

/-- What a cluster package supports. -/
def fwSupport (b : List Byte) : FwSupport where
  level := field b 0x1C 2
  tigrim := field b 0x20 2
  formats := packageFormats b

/-- Keeper and cluster agree on their levels (R457). -/
def peersOk (keeper cluster : List Byte) : Bool :=
  decide (field cluster 0x1E 2 ≤ field keeper 0x1C 2) && decide (field keeper 0x1E 2 ≤ field cluster 0x1C 2)

/-- The headers of a running set (Table 19-7). -/
def runningOf (keeper cluster image : List Byte) : Running where
  keeperFw := field keeper 0x0C 8
  clusterFw := field cluster 0x0C 8
  keeperLevel := field keeper 0x1C 2
  keeperPeerMin := field keeper 0x1E 2
  fwLevel := field cluster 0x1C 2
  clusterPeerMin := field cluster 0x1E 2
  tigrimWrite := field cluster 0x20 2
  linkLevel := field cluster 0x22 2
  linkLevelMin := field cluster 0x24 2
  imageVersion := field image 0x0C 4
  imageId := field image 0x10 8
  fwLevelMin := field image 0x18 2
  fwLevelMax := field image 0x1A 2
  imageTigrim := field image 0x1C 2
  label := slice image 0x30 64
  sectionFormats := packageFormats cluster

end Sys2Proof.Machine
end

