-- ==== Sys2Proof/Machine/MapOps.lean ====
section
/-! DEFINITION. Operations on the map and its tables: stripe-row order (R217, R338), tiles and directory entries (chapter 08), the
effect of a journal record on them (R257), and the space quantities that are counted from them (chapter 11). -/
namespace Sys2Proof.Machine
open Sys2Proof

/-! ## Stripe rows (R216, R217, R338) -/

/-- A column of row r holds parity: (r + k) mod W for some k below P (R338). -/
def isParityCol (w p r col : Nat) : Bool := (List.range p).any (fun k => (r + k) % w == col)

/-- The row's data columns in ascending column number (R338). -/
def dataCols (w p r : Nat) : List Nat := (List.range w).filter (fun c => !isParityCol w p r c)

/-- Data slots of one row of a set (R217). -/
def rowSlots (k : SetRec) : Nat := (k.w - k.p) * k.stripeUnit * 4

/-- Page of position u of row r (R216). -/
def rowPage (k : SetRec) (r u : Nat) : Nat := 1 + r * k.stripeUnit + u

/-- Page 0 of the block of a column. -/
def colBlock (k : SetRec) (col : Nat) : Option Madr := (k.cols.find? (fun c => c.1 == col)).map (·.2)

/-- The n-th data slot of row r (R217). -/
def rowSlot (k : SetRec) (r n : Nat) : Option Madr :=
  match (dataCols k.w k.p r)[n / (k.stripeUnit * 4)]? with
  | none => none
  | some col =>
    (colBlock k col).map (fun b => { b with page := rowPage k r (n % (k.stripeUnit * 4) / 4), slot := n % 4 })

/-- The g-th data slot of a set in stripe-row order; none after the last row. -/
def setSlot (k : SetRec) (g : Nat) : Option Madr :=
  if rowSlots k == 0 || k.rows ≤ g / rowSlots k then none else rowSlot k (g / rowSlots k) (g % rowSlots k)

/-- Column of a set whose block, or stand-in block, holds an address (R214, R350). -/
def colOf (k : SetRec) (m : Madr) : Option Nat :=
  match k.cols.find? (fun c => c.2 == blockOf m) with
  | some c => some c.1
  | none => (k.standIns.find? (fun x => x.page0 == blockOf m)).map (·.col)

/-- Row of a page number (R216); page 0 has none. -/
def pageRow (k : SetRec) (page : Nat) : Option Nat :=
  if page == 0 || k.stripeUnit == 0 then none else some ((page - 1) / k.stripeUnit)

/-- Index of a column in a list. -/
def indexIn (x : Nat) : List Nat → Nat
  | [] => 0
  | h :: t => if h == x then 0 else 1 + indexIn x t

/-- Rank of a data slot in stripe-row order. -/
def slotRank (k : SetRec) (m : Madr) : Option Nat :=
  match colOf k m, pageRow k m.page with
  | some c, some r =>
    if isParityCol k.w k.p r c then none
    else some (r * rowSlots k + indexIn c (dataCols k.w k.p r) * (k.stripeUnit * 4) + (m.page - rowPage k r 0) * 4 + m.slot)
  | _, _ => none

/-- The set in whose columns an address lies. -/
def setAt (i : MapImg) (m : Madr) : Option SetRec := i.sets.find? (fun k => (colOf k m).isSome)

/-- The n-th data slot after an address in stripe-row order (R188). -/
def slotAfter (i : MapImg) (m : Madr) (n : Nat) : Option Madr :=
  if n == 0 then some m else
  match setAt i m with
  | none => none
  | some k => (slotRank k m).bind (fun g => setSlot k (g + n))

/-! ## Directory and tiles -/

/-- A directory entry; none is UNWRITTEN (R185). -/
def segOf (i : MapImg) (ns seg : Nat) : Option SegKind := (i.segs.find? (fun x => x.ns == ns && x.seg == seg)).map (·.kind)

/-- A directory entry replaced; none makes it UNWRITTEN. -/
def putSeg (i : MapImg) (ns seg : Nat) (k : Option SegKind) : MapImg :=
  let rest := i.segs.filter (fun x => !(x.ns == ns && x.seg == seg))
  { i with segs := match k with | none => rest | some v => { ns := ns, seg := seg, kind := v } :: rest }

/-- Entry of a unit in a tile. -/
def entOf (t : Tile) (u : Nat) : Option TileEnt := t.ents.find? (fun e => e.unit == u)

/-- What a unit of an LBA is in the map (R157, R165, R187). -/
inductive UnitAt where
  | unwritten
  | lost
  | at_ (m : Madr)
  deriving DecidableEq, Repr

/-- The unit of an LBA as the map stands (R184, R187, R188). -/
def unitAt (i : MapImg) (ns lba : Nat) : UnitAt :=
  match segOf i ns (lba / 256) with
  | none => .unwritten
  | some (.coarse first) =>
    match slotAfter i first (lba % 256) with
    | some m => .at_ m
    | none => .unwritten
  | some (.fine t) =>
    match entOf t (lba % 256) with
    | none => .unwritten
    | some e => if e.lost then .lost else match e.madr with | some m => .at_ m | none => .unwritten

/-- A tile made by a split (R190): UNIT entries of the old extent, or none. -/
def splitTile (i : MapImg) (old : Option SegKind) : Tile :=
  match old with
  | some (.fine t) => t
  | some (.coarse first) =>
    { ents := (List.range 256).map (fun u => { unit := u, madr := slotAfter i first u, lost := false })
      generation := 1, home := none, lastCsn := 0, dirtySince := none }
  | none => { ents := [], generation := 1, home := none, lastCsn := 0, dirtySince := none }

/-- An entry inserted in ascending unit. -/
def insertEnt (e : TileEnt) : List TileEnt → List TileEnt
  | [] => [e]
  | h :: t => if e.unit < h.unit then e :: h :: t else if h.unit == e.unit then e :: t else h :: insertEnt e t

/-- An entry's medium address replaced: LOST stays, an UNWRITTEN entry is unlisted, GENERATION counts a change (R195, R206). -/
def setUnit (t : Tile) (u : Nat) (m : Option Madr) : Tile :=
  let old := entOf t u
  let lost := (old.map (·.lost)).getD false
  if (old.bind (·.madr)) == m then t
  else
    { t with
      generation := t.generation + 1
      ents := if m.isNone && !lost then t.ents.filter (fun e => e.unit != u)
              else insertEnt { unit := u, madr := m, lost := lost } t.ents }

/-- LOST set on an entry; its medium address does not change (R205 requester 6). -/
def setLost (t : Tile) (u : Nat) : Tile :=
  let old := entOf t u
  if (old.map (·.lost)).getD false then t
  else { t with generation := t.generation + 1, ents := insertEnt { unit := u, madr := old.bind (·.madr), lost := true } t.ents }

/-- A tile touched by a record: dirty since its JSEQ, LAST_CSN raised by a host update (R195, R203). -/
def touchTile (t : Tile) (csn jseq : Nat) : Tile :=
  { t with lastCsn := Nat.max t.lastCsn csn, dirtySince := some (t.dirtySince.getD jseq) }

/-- Changed units written into a segment's tile, splitting first where it is not FINE (R189, R190). -/
def updateSeg (i : MapImg) (ns seg csn jseq : Nat) (cs : List (Nat × Option Madr)) : MapImg :=
  let t := cs.foldl (fun t c => setUnit t c.1 c.2) (splitTile i (segOf i ns seg))
  putSeg i ns seg (some (.fine (touchTile t csn jseq)))

/-- No entry of a segment carries LOST. -/
def segNoLost (i : MapImg) (ns seg : Nat) : Bool :=
  match segOf i ns seg with
  | some (.fine t) => t.ents.all (fun e => !e.lost)
  | _ => true

/-- The namespace maps in COARSE mode (R180). -/
def coarseMode (i : MapImg) (ns : Nat) : Bool := i.nss.any (fun n => n.nsid == ns && !n.fine)

/-- A run is an unbroken extent: 256 units from unit 0, held in 256 slots of one set from slot 0 of a page (R188, R245). -/
def runIsExtent (i : MapImg) (r : Run) : Bool :=
  r.count == 256 && r.lba % 256 == 0 && r.madr.slot == 0 && (slotAfter i r.madr 255).isSome

/-- Units of a run: LBA and slot. -/
def runUnits (i : MapImg) (r : Run) : List (Nat × Option Madr) :=
  (List.range r.count).map (fun n => (r.lba + n, slotAfter i r.madr n))

/-- The segments of a list of LBAs, each once. -/
def segsOf (ls : List Nat) : List Nat :=
  ls.foldl (fun a l => if a.contains (l / 256) then a else a ++ [l / 256]) []

/-- Units written to the map segment by segment (R189). -/
def writeUnits (i : MapImg) (ns csn jseq : Nat) (us : List (Nat × Option Madr)) : MapImg :=
  (segsOf (us.map (·.1))).foldl
    (fun i seg => updateSeg i ns seg csn jseq ((us.filter (fun u => u.1 / 256 == seg)).map (fun u => (u.1 % 256, u.2)))) i

/-- One run of a MAP record applied (R189, R245). A run at medium address 0, which names no slot (R186), makes its units UNWRITTEN: the
units that a COPY leaves unwritten (R161, R210). -/
def applyRun (i : MapImg) (ns csn jseq : Nat) (r : Run) : MapImg :=
  if madrCode r.madr == 0 then writeUnits i ns csn jseq ((List.range r.count).map (fun n => (r.lba + n, none)))
  else if runIsExtent i r && coarseMode i ns && segNoLost i ns (r.lba / 256) then putSeg i ns (r.lba / 256) (some (.coarse r.madr))
  else writeUnits i ns csn jseq (runUnits i r)

/-- A DEALLOCATE applied to one segment: wholly covered segments without LOST become UNWRITTEN, others a tile that collapses
when every entry is UNWRITTEN without LOST (R189). -/
def deallocSeg (i : MapImg) (ns csn jseq lba count seg : Nat) : MapImg :=
  let lo := Nat.max lba (256 * seg)
  let hi := Nat.min (lba + count) (256 * (seg + 1))
  match segOf i ns seg with
  | none => i
  | some k =>
    if hi - lo == 256 && segNoLost i ns seg then putSeg i ns seg none
    else
      let t := ((List.range (hi - lo)).map (· + lo % 256)).foldl (fun t u => setUnit t u none) (splitTile i (some k))
      if t.ents.isEmpty then putSeg i ns seg none else putSeg i ns seg (some (.fine (touchTile t csn jseq)))

/-- Segments that a range touches. -/
def rangeSegs (lba count : Nat) : List Nat :=
  if count == 0 then [] else (List.range ((lba + count - 1) / 256 - lba / 256 + 1)).map (· + lba / 256)

/-- LBAs declared lost added to LOST_LBA in order, merging adjoining runs of one namespace (R360). -/
def addLost (e : LostEnt) : List LostEnt → List LostEnt
  | [] => [e]
  | h :: t =>
    if h.ns == e.ns && h.lba + h.count == e.lba then
      match t with
      | n :: t' =>
        if n.ns == e.ns && e.lba + e.count == n.lba then { h with count := h.count + e.count + n.count } :: t'
        else { h with count := h.count + e.count } :: t
      | [] => [{ h with count := h.count + e.count }]
    else if h.ns == e.ns && e.lba + e.count == h.lba then { h with lba := e.lba, count := h.count + e.count } :: t
    else if e.ns < h.ns || (e.ns == h.ns && e.lba < h.lba) then e :: h :: t
    else h :: addLost e t

/-- Runs of consecutive LBAs of an ascending list. -/
def lbaRuns : List Nat → Option (Nat × Nat) → List (Nat × Nat)
  | [], cur => cur.toList
  | l :: ls, none => lbaRuns ls (some (l, 1))
  | l :: ls, some (a, n) => if l == a + n then lbaRuns ls (some (a, n + 1)) else (a, n) :: lbaRuns ls (some (l, 1))

/-- The LBAs of a run that LOST_LBA does not list yet, as runs. -/
def newLost (l : List LostEnt) (ns lba count : Nat) : List (Nat × Nat) :=
  lbaRuns (((List.range count).map (· + lba)).filter (fun u => !l.any (fun e => e.ns == ns && decide (e.lba ≤ u) && decide (u < e.lba + e.count)))) none

/-- The tile of 256 UNWRITTEN entries with LOST that takes the place of an unreadable one: GENERATION 1, NO_HOME (R211). -/
def loseTile (i : MapImg) (ns seg jseq : Nat) : MapImg :=
  putSeg i ns seg (some (.fine
    { ents := (List.range 256).map (fun u => { unit := u, madr := none, lost := true })
      generation := 1, home := none, lastCsn := 0, dirtySince := some jseq }))

/-- LBAs of a run marked LOST in their tiles (R360). -/
def loseUnits (i : MapImg) (ns lba count jseq : Nat) : MapImg :=
  (rangeSegs lba count).foldl (fun i seg =>
    let lo := Nat.max lba (256 * seg)
    let hi := Nat.min (lba + count) (256 * (seg + 1))
    let t := ((List.range (hi - lo)).map (· + lo % 256)).foldl setLost (splitTile i (segOf i ns seg))
    putSeg i ns seg (some (.fine (touchTile t 0 jseq)))) i

/-! ## Records applied (R257) -/

/-- The block table with the blocks of a set in a state. -/
def setBlocks (i : MapImg) (k : SetRec) (f : BlockRec → BlockRec) : MapImg :=
  let mine := k.cols.map (·.2) ++ k.standIns.map (·.page0)
  { i with blocks := i.blocks.map (fun b => if mine.contains b.addr then f b else b) }

/-- A set record changed. -/
def updSet (i : MapImg) (seq : Nat) (f : SetRec → SetRec) : MapImg :=
  { i with sets := i.sets.map (fun k => if k.seq == seq then f k else k) }

/-- A block's entry in the table, or that of a block never opened. -/
def imgBlk (i : MapImg) (b : Madr) : BlockRec :=
  (i.blocks.find? (fun x => x.addr == b)).getD { addr := b, seq := 0, st := .erased, released := false, pe := 1 }

/-- A block's entry changed. -/
def updImgBlk (i : MapImg) (b : Madr) (f : BlockRec → BlockRec) : MapImg := { i with blocks := putBlk i.blocks (f (imgBlk i b)) }

/-- A block still carries pages of a set that are in use: OPEN, CLOSED or VERIFIED under its number. -/
def carries (i : MapImg) (k : SetRec) (b : Madr) : Bool :=
  (imgBlk i b).seq == k.seq && (imgBlk i b).st != .erased && (imgBlk i b).st != .retired

/-- The lowest numbers of directory blocks that no namespace holds (R199). -/
def freeDirs (i : MapImg) (n : Nat) : List Nat :=
  let used := i.nss.flatMap (·.dirs)
  ((List.range (used.length + n)).filter (fun d => !used.contains d)).take n

/-- Sets none of whose blocks is left are dropped. -/
def dropEmptySets (i : MapImg) : MapImg :=
  { i with sets := i.sets.filter (fun k => (k.cols.map (·.2) ++ k.standIns.map (·.page0)).any (carries i k)) }

/-- A journal record applied to the map and tables, without compare (R257). -/
def applyRec (i : MapImg) (jseq : Nat) : JRec → MapImg
  | .map csn _ ns runs => runs.foldl (fun i r => applyRun i ns csn jseq r) i
  | .dealloc csn ns lba count => (rangeSegs lba count).foldl (fun i seg => deallocSeg i ns csn jseq lba count seg) i
  | .lost ns lba count aet tile =>
    let i' := if tile then loseTile i ns (lba / 256) jseq else loseUnits i ns lba count jseq
    { i' with lost := (newLost i.lost ns lba count).foldl (fun l x => addLost { ns := ns, lba := x.1, count := x.2, aet := aet } l) i.lost }
  | .tileHome ns seg home capture gen =>
    match segOf i ns seg with
    | some (.fine t) =>
      putSeg i ns seg (some (.fine { t with home := some home, dirtySince := if t.generation == gen then none else some (capture + 1) }))
    | _ => i
  | .nspace _ nsid create format fine segments aet =>
    if create then
      { i with nss := i.nss.filter (fun n => n.nsid != nsid) ++
          [{ nsid := nsid, st := .ready, format := format, fine := fine, segments := segments, createdAet := aet
             dirs := freeDirs i (ceilDiv segments 8192) }] }
    else
      { i with
        nss := i.nss.filter (fun n => n.nsid != nsid)
        segs := i.segs.filter (fun x => x.ns != nsid)
        lost := i.lost.filter (fun x => x.ns != nsid) }
  | .setOpen seq stream profile w p unit rows openAet cols =>
    let k : SetRec :=
      { seq := seq, stream := stream, profile := profile, w := w, p := p, stripeUnit := unit, rows := rows, openAet := openAet
        cols := cols, closed := false, lastValid := none, firstAbandoned := none, standIns := [] }
    let i := { i with sets := i.sets ++ [k] }
    cols.foldl (fun i c => updImgBlk i c.2 (fun b => { b with seq := seq, st := .taken, released := false })) i
  | .setClose seq last abandoned =>
    let i := updSet i seq (fun k => { k with closed := true, lastValid := last, firstAbandoned := abandoned })
    match i.sets.find? (fun k => k.seq == seq) with
    | none => i
    | some k => setBlocks i k (fun b => if b.st == .opened || b.st == .taken then { b with st := .closed } else b)
  | .release b => updImgBlk i b (fun x => { x with released := true })
  | .erased b pe => dropEmptySets (updImgBlk i b (fun x => { x with st := .erased, released := false, pe := pe }))
  | .retire b _ =>
    let i := { i with sets := i.sets.map (fun k => { k with standIns := k.standIns.filter (fun x => x.done || x.page0 != b) }) }
    dropEmptySets (updImgBlk i b (fun x => { x with st := .retired }))
  | .standInOpen seq col page0 =>
    let i := updSet i seq (fun k =>
      { k with standIns := k.standIns.filter (fun x => x.col != col) ++ [{ col := col, page0 := page0, rowsDone := 0, done := false }] })
    updImgBlk i page0 (fun b => { b with seq := seq, st := .taken, released := false })
  | .standInDone seq col =>
    updSet i seq (fun k => { k with standIns := k.standIns.map (fun x => if x.col == col then { x with rowsDone := k.rows, done := true } else x) })
  | _ => i

/-- Records applied in order (R257). -/
def applyRecs (i : MapImg) (rs : List StagedRec) : MapImg := rs.foldl (fun i r => applyRec i r.jseq r.body) i

/-- A record journalled and applied to the running map in the same turn (R205, R241). -/
def commitRec (s : State) (body : JRec) : State :=
  if s.jrnl.stopFrom.isSome then s else
  let jseq := s.jrnl.nextSeq
  updMap (journal s body) (fun i => applyRec i jseq body)

/-! ## Counts over the map -/

/-- Slots that a segment's entry reaches: a LOST unit's slot is never read and does not count; a tile's home counts (R265). -/
def segSlots (i : MapImg) (k : SegKind) : List Madr :=
  match k with
  | .coarse first => (List.range 256).filterMap (fun u => slotAfter i first u)
  | .fine t => (t.ents.filter (fun e => !e.lost)).filterMap (·.madr) ++ t.home.toList

/-- VALID_SLOTS of a block (R265). -/
def validSlots (i : MapImg) (b : Madr) : Nat :=
  i.segs.foldl (fun n x => n + ((segSlots i x.kind).filter (fun m => blockOf m == b)).length) 0

/-- All blocks of a set, stand-ins included. -/
def blocksOfSet (k : SetRec) : List Madr := k.cols.map (·.2) ++ k.standIns.map (·.page0)

/-- V: the sum of VALID_SLOTS of a set's blocks (R275). -/
def setValid (i : MapImg) (k : SetRec) : Nat := (blocksOfSet k).foldl (fun n b => n + validSlots i b) 0

/-- Rows of a set that are not abandoned (R228). -/
def liveRows (k : SetRec) : Nat :=
  match k.firstAbandoned with
  | some r => Nat.min r k.rows
  | none => if k.closed then (match k.lastValid with | some r => Nat.min (r + 1) k.rows | none => 0) else k.rows

/-- DS: data slots of a set's rows that are not abandoned (R275). -/
def setDataSlots (k : SetRec) : Nat := liveRows k * rowSlots k

/-- Data slots of a column's rows that are not abandoned (R266). -/
def colDataSlots (k : SetRec) (col : Nat) : Nat :=
  ((List.range (liveRows k)).filter (fun r => !isParityCol k.w k.p r col)).length * k.stripeUnit * 4

/-- Units of a namespace that are written (Table 7-3 WRITTEN_BLOCKS). -/
def writtenBlocks (i : MapImg) (ns : Nat) : Nat :=
  i.segs.foldl (fun n x => if x.ns != ns then n else
    n + (match x.kind with | .coarse _ => 256 | .fine t => (t.ents.filter (fun e => e.madr.isSome)).length)) 0

/-- Blocks of a namespace listed in LOST_LBA. -/
def lostBlocks (i : MapImg) (ns : Nat) : Nat := i.lost.foldl (fun n x => if x.ns == ns then n + x.count else n) 0

/-! ## Space (Table 11-1) -/

/-- A non-negative rational as numerator and denominator, for the quantities that DSB_p scales. -/
abbrev Ratio := Nat × Nat

def ratioAdd (a b : Ratio) : Ratio := (a.1 * b.2 + b.1 * a.2, a.2 * b.2)
def ratioFloor (a : Ratio) : Nat := a.1 / a.2

/-- Bays of a profile in a state. -/
def profileBays (s : State) (p : Nat) (st : List BaySt) : List Bay :=
  s.media.bays.filter (fun b => b.profile == some p && st.contains b.st)

/-- Member bays of a profile. -/
def memberBays (s : State) (p : Nat) : List Bay := profileBays s p [.member]

/-- Bays counted in U_p (R266). -/
def countedBays (s : State) (p : Nat) : List Bay := profileBays s p [.member, .evacuating]

/-- Blocks that one copy of the descriptor reserves (R236). -/
def descriptorBlocks (f : Profile) : Nat := ceilDiv 1360 f.pagesPerBlock

/-- Blocks that the copy on a channel occupies, factory-defective ones that it skips included: so many of plane 0 of die 0, from block 0 on
(R236, RESERVED_BLOCKS of Table 9-9). -/
def reservedBlocks (f : Profile) (b : Bay) (channel : Nat) : Nat :=
  let bad := b.defects.filter (fun d => d.2 == 1 && d.1.channel == channel && d.1.die == 0 && d.1.plane == 0)
  bad.foldl (fun n _ => descriptorBlocks f + (bad.filter (fun d => decide (d.1.block < n))).length) (descriptorBlocks f)

/-- A block is reserved for a copy of the descriptor (R236). -/
def isReserved (f : Profile) (b : Bay) (m : Madr) : Bool :=
  m.plane == 0 && m.die == 0 && decide (m.block < reservedBlocks f b m.channel)

/-- RETIRED blocks of the block table on a bay. -/
def retiredOn (s : State) (b : Nat) : Nat := (s.map.blocks.filter (fun x => x.addr.bay == b && x.st == .retired)).length

/-- A block lies on a die of its bay that has not failed. -/
def onWorkingDie (b : Bay) (m : Madr) : Bool := !b.failedDies.contains (dieNum (dieOf m))

/-- Blocks of a bay's working dies that are listed defective or RETIRED, each once, those reserved for the descriptor left out. -/
def badBlocks (s : State) (f : Profile) (b : Bay) : List Madr :=
  let listed := b.defects.map (·.1)
  let retired := (s.map.blocks.filter (fun x => x.addr.bay == b.bay && x.st == .retired && !listed.contains x.addr)).map (·.addr)
  (listed ++ retired).filter (fun m => onWorkingDie b m && !isReserved f b m)

/-- Descriptor blocks on a bay's working dies. -/
def reservedOn (f : Profile) (b : Bay) : Nat :=
  (if b.failedDies.contains 0 then 0 else reservedBlocks f b 0) + (if b.failedDies.contains 32 then 0 else reservedBlocks f b 1)

/-- Usable blocks of a bay: those of its dies not failed, less descriptor, factory-defective and RETIRED blocks (Table 11-1). -/
def usableBlocks (s : State) (f : Profile) (b : Bay) : Nat :=
  (b.dies.filter (fun d => !b.failedDies.contains d)).length * f.planes * f.blocksPerPlane - reservedOn f b - (badBlocks s f b).length

/-- U_p (Table 11-1). -/
def usable (s : State) (p : Nat) : Nat :=
  match profileOf s p with
  | none => 0
  | some f => (countedBays s p).foldl (fun n b => n + usableBlocks s f b) 0

/-- Rows of a full-width set of a profile (R216). -/
def profileRows (f : Profile) : Nat := if f.stripeUnit == 0 then 0 else (f.pagesPerBlock - 1) / f.stripeUnit

/-- DSB_p as a ratio (R338). -/
def dsb (s : State) (p : Nat) : Ratio :=
  match profileOf s p with
  | none => (0, 1)
  | some f =>
    let m := (memberBays s p).length
    let base := profileRows f * f.stripeUnit * 4 * (f.w - f.p)
    if f.dedicated then (base, Nat.max f.w 1)
    else if m == 0 then (0, 1) else (base * (m - f.spareBays), Nat.max f.w 1 * m)

/-- n blocks' worth of data slots. -/
def dsbTimes (s : State) (p n : Nat) : Ratio := ((dsb s p).1 * n, (dsb s p).2)

/-- CAP_p (Table 11-1). -/
def capOf (s : State) (p : Nat) : Nat := ratioFloor (dsbTimes s p (usable s p))

/-- Full sizes of a bay's reserves (Table 11-2). -/
def spareFull (f : Profile) (b : Bay) : Nat := Nat.max (ceilDiv (f.spareFraction * b.u0) 10000) 2
def lastFull (f : Profile) (b : Bay) : Nat := Nat.max (ceilDiv (f.lastStandFraction * b.u0) 10000) 2
def reclaimFull (s : State) (p : Nat) (f : Profile) : Nat := ceilDiv (6 * f.w) (Nat.max (memberBays s p).length 1)

/-- The ERASED blocks of a bay: its usable blocks less those that the block table shows OPEN, CLOSED or VERIFIED on working dies. -/
def erasedOn (s : State) (f : Profile) (b : Bay) : Nat :=
  usableBlocks s f b - (s.map.blocks.filter (fun x => x.addr.bay == b.bay && x.st != .erased && x.st != .retired && onWorkingDie b x.addr)).length

/-- Held-back ERASED blocks of a bay: its last-stand and reclaim shares (R279). -/
def heldBack (s : State) (p : Nat) (f : Profile) (b : Bay) : Nat := lastFull f b + reclaimFull s p f

/-- Unassigned data slots of the open host-stream sets of a profile (Table 11-1). -/
def openHostSlots (s : State) (p : Nat) : Nat :=
  s.media.opens.foldl (fun n o =>
    match setOf s o.seq with
    | some k =>
      if k.profile == p && !k.closed && (k.stream == .hostFine || k.stream == .hostCoarse) then
        n + (k.rows - o.nextRow) * rowSlots k + o.rows.foldl (fun a r => a + (rowSlots k - r.next)) 0
      else n
    | none => n) 0

/-- FREE_HOST_p (Table 11-1). -/
def freeHost (s : State) (p : Nat) : Nat :=
  match profileOf s p with
  | none => 0
  | some f =>
    ratioFloor (dsbTimes s p ((memberBays s p).foldl (fun n b => n + (erasedOn s f b - heldBack s p f b)) 0)) + openHostSlots s p

/-- INVALID_p (Table 11-1). -/
def invalidOf (s : State) (p : Nat) : Nat :=
  s.map.sets.foldl (fun n k =>
    if k.profile != p || k.stream == .system then n
    else
      (k.cols ++ k.standIns.map (fun x => (x.col, x.page0))).foldl (fun a c =>
        let b := blkOf s c.2
        if b.seq == k.seq && (b.st == .closed || b.st == .verified) then a + (colDataSlots k c.1 - validSlots s.map c.2) else a) n) 0

/-- SPARE_LEFT_p: blocks left of the grown-defect reserve (Table 11-2). -/
def spareLeft (s : State) (p : Nat) : Nat := (countedBays s p).foldl (fun n b => n + b.spareLeft) 0

/-- Profile numbers of the image in force. -/
def profileNums (s : State) : List Nat := List.range s.kf.img.profiles.length

/-- H: data slots promised to admitted writes not yet performed or failed (R270). -/
def promisedSlots (s : State) : Nat := s.ctxs.foldl (fun n c => n + c.promised) 0

/-- SPACE (Table 11-1); it can fall below zero. -/
def spaceOf (s : State) : Int :=
  (profileNums s).foldl (fun (n : Int) p =>
    n + ((freeHost s p + invalidOf s p : Nat) : Int) - ((ratioFloor (dsbTimes s p (spareLeft s p)) : Nat) : Int)) 0
    - ((promisedSlots s : Nat) : Int)

/-- FULL_ENTER (R269). -/
def fullEnter (s : State) : Nat :=
  (profileNums s).foldl (fun n p =>
    match profileOf s p with
    | some f => if (memberBays s p).isEmpty then n else n + ratioFloor (dsbTimes s p (2 * f.w))
    | none => n) 0

/-- USER_SEGMENTS computed from the bays as they stand (R268). -/
def segmentsNow (s : State) : Nat :=
  let total := (profileNums s).foldl (fun (a : Ratio) p =>
    match profileOf s p with
    | none => a
    | some f =>
      let held := spareLeft s p + (countedBays s p).foldl (fun n b => n + lastFull f b + reclaimFull s p f) 0
      ratioAdd a (dsbTimes s p (usable s p - held))) (0, 1)
  total.1 * 15 / (total.2 * 16 * 257)

/-- USER_SEGMENTS computed anew: a bay became MEMBER, RELEASED or FAILED, or a die failed (R268). -/
def settleSegments (s : State) : State := updMedia s (fun m => { m with userSegs := segmentsNow s })

/-- USER_SEGMENTS as it was last computed (R268). -/
def userSegments (s : State) : Nat := s.media.userSegs

/-- UNALLOCATED_SEGMENTS: USER_SEGMENTS less those of the existing namespaces, not below 0 (Table 7-2, R268). -/
def allocatedSegments (s : State) : Nat := s.map.nss.foldl (fun n x => n + x.segments) 0
def unallocatedSegments (s : State) : Nat := userSegments s - allocatedSegments s

/-- HEALTH.FREE in 0.01 % (R268). -/
def healthFree (s : State) : Nat :=
  let u := userSegments s * 256
  if u == 0 then 0 else Nat.min 10000 ((spaceOf s).toNat * 10000 / u)

/-- One block taken from the grown-defect shares of a profile: the bay's own first, then the others in ascending bay number
(R267). -/
def takeSpare (s : State) (p bay : Nat) : State :=
  let has (b : Bay) := 0 < b.spareLeft
  let own := (countedBays s p).find? (fun b => b.bay == bay && has b)
  match (own.or ((countedBays s p).find? has)) with
  | none => s
  | some b => updBay s b.bay (fun x => { x with spareLeft := x.spareLeft - 1 })

/-- WRITE_SEALED set where a profile with member bays has no grown-defect reserve left (R333). -/
def sealIfSpent (s : State) (p : Nat) : State :=
  if !(countedBays s p).isEmpty && spareLeft s p == 0 && !sealedSet s then setFlags s [(bSealed, true)] else s

/-- Room lost after admission below what the admitted commands need: blocks of the grown-defect reserve make up for it, one after the other,
those of the lowest-numbered profile that has any first (R270) (assumption 49). -/
def drawLost (s : State) : Nat → State
  | 0 => s
  | n + 1 =>
    if decide (spaceOf s < 0) && decide (0 < promisedSlots s) then
      match (profileNums s).find? (fun p => decide (0 < spareLeft s p)) with
      | none => s
      | some p => drawLost (sealIfSpent (takeSpare s p 16) p) n
    else s

/-- A capacity loss settled: USER_SEGMENTS and the reserve follow it (R268, R270). -/
def settleLoss (s : State) : State :=
  let t := settleSegments s
  drawLost t ((profileNums t).foldl (fun n p => n + spareLeft t p) 0)

/-- The FULL state judged again (R269): it changes with SPACE and FREE_HOST, in the cycle in which they do. -/
def settleFull (s : State) : State :=
  let enter := fullEnter s
  let free := (profileNums s).foldl (fun n p => n + freeHost s p) 0
  if s.media.full then
    if decide ((2 * enter : Nat) ≤ spaceOf s) && decide (promisedSlots s + enter ≤ free) then updMedia s (fun m => { m with full := false })
    else s
  else if decide (spaceOf s < (enter : Nat)) then updMedia s (fun m => { m with full := true })
  else s

/-! ## Overlap of commands (R105 to R107, R147) -/

/-- Written ranges of a command: namespace, first LBA, blocks (R105). -/
def writtenRange (dw : List Word) : Option (Nat × Nat × Nat) :=
  match eOpcode dw with
  | 0x01 | 0x08 | 0x0A => some (eNs dw, eLba dw, eCount dw)
  | 0x0C => some (bits (eCdw dw 0) 7 0, eCdw23 dw, eCount dw)
  | _ => none

/-- Read range of a command (R105). -/
def readRange (dw : List Word) : Option (Nat × Nat × Nat) :=
  match eOpcode dw with
  | 0x02 | 0x04 | 0x05 | 0x0C | 0x12 => some (eNs dw, eLba dw, eCount dw)
  | _ => none

/-- Ranges of one namespace share a unit (R147). -/
def overlaps (a b : Nat × Nat × Nat) : Bool :=
  a.1 == b.1 && decide (a.2.1 < b.2.1 + b.2.2) && decide (b.2.1 < a.2.1 + a.2.2)

/-- A range covers a unit. -/
def covers (r : Nat × Nat × Nat) (ns lba : Nat) : Bool := r.1 == ns && decide (r.2.1 ≤ lba) && decide (lba < r.2.1 + r.2.2)

/-- A write-class command that is admitted and neither performed nor failed. -/
def pendingWrite (c : Ctx) : Bool := c.stage == .admitted && (writtenRange c.dw).isSome

/-- Writes with a lower CSN that overlap a range and are not done (R106). -/
def earlierWrites (s : State) (csn : Nat) (r : Nat × Nat × Nat) : List Ctx :=
  s.ctxs.filter (fun c => pendingWrite c && decide (c.csn < csn) && ((writtenRange c.dw).map (overlaps r)).getD false)

/-- The governing write of a unit for a read (R107): the pending write with the highest CSN below the read's that covers it. -/
def governing (s : State) (csn ns lba : Nat) : Option Ctx :=
  s.ctxs.foldl (fun best c =>
    if pendingWrite c && decide (c.csn < csn) && ((writtenRange c.dw).map (fun r => covers r ns lba)).getD false then
      match best with
      | some b => if b.csn < c.csn then some c else best
      | none => some c
    else best) none

/-- Reads with a lower CSN that have not yet taken their lookup for a unit of the range (R107). -/
def earlierLookups (s : State) (csn : Nat) (r : Nat × Nat × Nat) : Bool :=
  s.ctxs.any (fun c => c.stage == .admitted && decide (c.csn < csn) &&
    c.units.any (fun u => u.st == .waiting && covers r u.ns u.lba))

end Sys2Proof.Machine
end

