-- ==== Sys2Proof/Machine/Parity.lean ====
section
/-! DEFINITION. What lies in a page: the page tag (R221), codeword payloads (R220), parity over GF(2^8) (R339) and the recovery
of unavailable pages of a row (R340). -/
namespace Sys2Proof.Machine
open Sys2Proof

/-! ## GF(2^8) with 0x11D -/

/-- Multiplication by alpha = 0x02. -/
def gfDouble (x : Byte) : Byte := if x.getLsbD 7 then (x <<< 1) ^^^ 0x1D#8 else x <<< 1

/-- n low bits of y multiplied in. -/
def gfMulAux : Nat → Byte → Byte → Byte
  | 0, _, _ => 0
  | n + 1, x, y => (if y.getLsbD 0 then x else 0) ^^^ gfMulAux n (gfDouble x) (y >>> 1)

/-- Product in GF(2^8). -/
def gfMul (x y : Byte) : Byte := gfMulAux 8 x y

/-- alpha to the n. -/
def gfAlpha : Nat → Byte
  | 0 => 1
  | n + 1 => gfDouble (gfAlpha n)

/-- x to the n. -/
def gfPow (x : Byte) : Nat → Byte
  | 0 => 1
  | n + 1 => gfMul x (gfPow x n)

/-- Inverse of a nonzero element, x to the 254. -/
def gfInv (x : Byte) : Byte := gfPow x 254

/-- A string scaled by a coefficient. -/
def gfScale (c : Byte) (bs : List Byte) : List Byte := bs.map (gfMul c)

/-- Two strings added; the shorter one is as if padded with zeros. -/
def gfAdd : List Byte → List Byte → List Byte
  | [], ys => ys
  | xs, [] => xs
  | x :: xs, y :: ys => (x ^^^ y) :: gfAdd xs ys

/-- Parity string k of the data strings in data-index order: the sum of alpha^(k i) d_i (R339). -/
def parityOf (k : Nat) (ds : List (List Byte)) : List Byte :=
  ((List.range ds.length).zip ds).foldl (fun a d => gfAdd a (gfScale (gfAlpha (k * d.1)) d.2)) []

/-! ## Page tag and payload (Tables 9-2, 9-3) -/

/-- Number of a stream (Table 9-1). -/
def streamNum : Stream → Nat
  | .hostFine => 0
  | .hostCoarse => 1
  | .relocFine => 2
  | .relocCoarse => 3
  | .map => 4
  | .system => 5

/-- A slot of a page, where it is valid. -/
def slotN (p : PageRec) (n : Nat) : Option SlotRec := p.slots.find? (fun x => x.n == n)

/-- A page holds user data (Table 9-4). -/
def userKind (k : Nat) : Bool := k == 1 || k == 2

/-- The page tag less its CRC (Table 9-3). -/
def tagBody (p : PageRec) : List Byte :=
  let user := userKind p.kind
  let f (g : SlotRec → Nat) : List Nat := (List.range 4).map (fun n => ((slotN p n).map g).getD 0)
  let mask := (p.slots.map (fun x => 2 ^ x.n)).foldl (· + ·) 0
  let csns := p.slots.map (·.csn)
  let base := if user then csns.foldl Nat.min (csns.headD 0) else 0
  let counts := ((List.range 4).zip (f (·.count))).foldl (fun a c => a + c.2 * 2 ^ (12 * c.1)) 0
  [1, BitVec.ofNat 8 p.kind, BitVec.ofNat 8 mask, BitVec.ofNat 8 p.col]
    ++ (if user then f (·.ns) else [0, 0, 0, 0]).map (BitVec.ofNat 8)
    ++ leBytes 8 base
    ++ (if user then f (fun x => x.csn - base) else [0, 0, 0, 0]).flatMap (leBytes 4)
    ++ leBytes 6 (if user then counts else 0)
    ++ leBytes 5 p.epoch ++ [0]
    ++ leBytes 8 (if user then (((List.range 4).filterMap (slotN p)).head?.map (·.lba)).getD 0 else 0)
    ++ leBytes 8 p.seq

/-- The 64-byte page tag (R221). -/
def pageTag (p : PageRec) : List Byte := tagBody p ++ leBytes 4 (crc32c (tagBody p)).toNat

/-- Codeword payload n of a data page: slot data, host metadata, check field, tag share (R220). -/
def payloadOf (p : PageRec) (n : Nat) : List Byte :=
  let body := match slotN p n with
    | some x =>
      match x.block with
      | some b =>
        let d := b.data.take 4096
        d ++ List.replicate (4096 - d.length) 0
          ++ (if userKind p.kind then b.hostMeta ++ checkBytes b else List.replicate 64 0)
      | none => List.replicate 4160 0
    | none => List.replicate 4160 0
  body ++ slice (pageTag p) (16 * n) 16

/-- The 16,704-byte string of a page (R339): its four payloads, or the parity string of a parity page. -/
def pageString (p : PageRec) : List Byte :=
  if p.kind == 0 then p.parity else (List.range 4).flatMap (payloadOf p)

/-! ## Rows -/

/-- The page of a column and position of a row that the medium or staging holds; a settled stand-in row is read there (R350). -/
def rowPageOf (pages : List PageRec) (k : SetRec) (row col u : Nat) : Option PageRec :=
  let orig := (colBlock k col).bind (fun b => pages.find? (fun p => p.addr == { b with page := rowPage k row u }))
  match k.standIns.find? (fun x => x.col == col && row < x.rowsDone) with
  | some x => pages.find? (fun p => p.addr == { x.page0 with page := rowPage k row u })
  | none => orig

/-- The strings of a row's data pages at one position, in data-index order; a page not assigned counts as zero. -/
def rowStrings (pages : List PageRec) (k : SetRec) (row u : Nat) : List (List Byte) :=
  (dataCols k.w k.p row).map (fun c => ((rowPageOf pages k row c u).map pageString).getD [])

/-- The shield accumulator of a row: the XOR of the payload strings of its data pages assigned so far (R229). -/
def rowXor (pages : List PageRec) (k : SetRec) (row : Nat) : List Byte :=
  (List.range k.stripeUnit).foldl (fun a u => (rowStrings pages k row u).foldl gfAdd a) []

/-! ## Recovery (R340) -/

/-- One step of elimination: the pivot row scaled, and its multiple taken from another row. -/
def rowScaleBy (c : Byte) (r : List Byte × List Byte) : List Byte × List Byte := (gfScale c r.1, gfScale c r.2)
def rowSub (c : Byte) (pivot r : List Byte × List Byte) : List Byte × List Byte :=
  (gfAdd r.1 (gfScale c pivot.1), gfAdd r.2 (gfScale c pivot.2))

/-- Gaussian elimination over GF(2^8) of rows (coefficients, right side); the solution strings in unknown order, or none. -/
def gfSolve : Nat → Nat → List (List Byte × List Byte) → List (List Byte × List Byte) → Option (List (List Byte))
  | 0, _, done, _ => some (done.map (·.2))
  | n + 1, j, done, rest =>
    match rest.find? (fun r => r.1.getD j 0 != 0) with
    | none => none
    | some pivot =>
      let p := rowScaleBy (gfInv (pivot.1.getD j 0)) pivot
      let elim := fun (r : List Byte × List Byte) => rowSub (r.1.getD j 0) p r
      gfSolve n (j + 1) (done.map elim ++ [p]) ((rest.erase pivot).map elim)

/-- The data strings of a row position where `missing` data indexes are unavailable, from the available data strings and the
given parity pages (R340 step 2). -/
def solveData (ds : List (Option (List Byte))) (missing : List Nat) (parities : List (Nat × List Byte)) : Option (List (List Byte)) :=
  let known := (List.range ds.length).zip ds
  let rows := parities.map (fun q =>
    (missing.map (fun i => gfAlpha (q.1 * i)),
      known.foldl (fun a d => match d.2 with | some x => gfAdd a (gfScale (gfAlpha (q.1 * d.1)) x) | none => a) q.2))
  (gfSolve missing.length 0 [] rows).map (fun sol =>
    known.map (fun d => match d.2 with | some x => x | none => sol.getD (indexIn d.1 missing) []))

/-- One reconstruction of a row position: data strings, by data index, with available parity not used in the solve compared. -/
def reconstructOnce (ds : List (Option (List Byte))) (qs : List (Option (List Byte))) : Option (List (List Byte)) :=
  let missing := ((List.range ds.length).zip ds).filterMap (fun d => if d.2.isNone then some d.1 else none)
  let avail := ((List.range qs.length).zip qs).filterMap (fun q => q.2.map (fun x => (q.1, x)))
  if avail.length < missing.length then none
  else
    (solveData ds missing (avail.take missing.length)).bind (fun sol =>
      if (avail.drop missing.length).all (fun q => parityOf q.1 sol == q.2) then some sol else none)

/-- Strings of a position with one more data or parity string dropped. -/
def dropAt {α : Type} (l : List (Option α)) (i : Nat) : List (Option α) := l.set i none

/-- Recovery of one position of a row: the plain solve, and where it fails and parity is left, one repetition for each
available column in ascending column number (R340). `cols` lists the columns; (true, i) is data index i, (false, k) parity k.
The answer gives the data strings and the column found bad, if any. -/
def reconstruct (p : Nat) (cols : List (Nat × Bool × Nat)) (ds qs : List (Option (List Byte)))
    (accept : List (List Byte) → Bool) : Option (List (List Byte) × Option Nat) :=
  let e := (ds.filter (·.isNone)).length + (qs.filter (·.isNone)).length
  if p < e then none
  else
    let try_ (d q : List (Option (List Byte))) := (reconstructOnce d q).filter accept
    match try_ ds qs with
    | some sol => some (sol, none)
    | none =>
      if e < p then
        cols.findSome? (fun c =>
          let d := if c.2.1 then dropAt ds c.2.2 else ds
          let q := if c.2.1 then qs else dropAt qs c.2.2
          if d == ds && q == qs then none else (try_ d q).map (fun sol => (sol, some c.1)))
      else none

/-- Role of each column of a row: data index or parity number (R338). -/
def colRoles (k : SetRec) (row : Nat) : List (Nat × Bool × Nat) :=
  (List.range k.w).map (fun c =>
    if isParityCol k.w k.p row c then (c, false, (c + k.w - row % k.w) % k.w) else (c, true, indexIn c (dataCols k.w k.p row)))

/-- A reconstructed data string passes TAG_CRC of its tag and, for user kinds, GUARD of its valid slots and REF_TAG of the first of them, whose LBA
the tag names (R340, R302, R223). -/
def stringPasses (fmt : Nat → Nat) (str : List Byte) : Bool :=
  let share := fun n => slice str (4176 * n + 4160) 16
  let tag := share 0 ++ share 1 ++ share 2 ++ share 3
  (crc32c (tag.take 60)).toNat == field tag 60 4 &&
    (!userKind ((tag.getD 1 0).toNat) ||
      (match (List.range 4).find? (fun n => (tag.getD 2 0).getLsbD n) with
        | some n => field str (4176 * n + 4154) 6 == field tag 44 6
        | none => true) &&
      (List.range 4).all (fun n =>
        !((tag.getD 2 0).getLsbD n) ||
          (let base := 4176 * n
           let g := guardOf (fmt ((tag.getD (4 + n) 0).toNat)) (slice str base 4096) (slice str (base + 4096) 48)
           field str (base + 4144) 8 == g.toNat)))

end Sys2Proof.Machine
end

