-- ==== Sys2Proof/Machine/Formats.lean ====
section
/-! DEFINITION. The byte layouts that the part writes to the medium, to keeper flash and to its partner: tiles (Table 8-6), block
headers (Table 9-5), journal records (Tables 10-2, 10-3, 14-4, 15-4), admission slots (Table 10-1), checkpoint roots (Table 10-4),
hold-up items (Table 10-8), stop records (Table 10-9), stripe-journal records (Table 14-2), descriptor frames (R237). -/
namespace Sys2Proof.Machine
open Sys2Proof

/-- Zero bytes. -/
def zeros (n : Nat) : List Byte := List.replicate n 0

/-- Bytes filled with zeros to a length. -/
def padTo (n : Nat) (bs : List Byte) : List Byte := bs ++ zeros (n - bs.length)

/-- A 48-bit address in 6 bytes. -/
def madrBytes (m : Madr) : List Byte := leBytes 6 (madrCode m)

/-- An address in 8 bytes, 0 for none. -/
def madrBytes8 (m : Option Madr) : List Byte := leBytes 8 ((m.map madrCode).getD 0)

/-! ## Tile (Table 8-6) -/

/-- A tile entry's 8 bytes. -/
def entBytes (t : Tile) (u : Nat) : List Byte := leBytes 8 (((entOf t u).map (fun e => (tileEntry e).toNat)).getD 0)

/-- The 2,104 bytes of a tile that its GUARD covers. -/
def tileBody (ns seg : Nat) (t : Tile) : List Byte :=
  (List.range 256).flatMap (entBytes t)
    ++ leBytes 4 0x54494C45 ++ [1, BitVec.ofNat 8 ns]
    ++ leBytes 2 (t.ents.filter (fun e => e.madr.isSome)).length
    ++ leBytes 4 seg ++ zeros 4 ++ leBytes 8 t.generation ++ madrBytes8 t.home ++ leBytes 8 t.lastCsn ++ zeros 16

/-- The 2,112-byte image of a tile (R194). -/
def tileImage (ns seg : Nat) (t : Tile) : List Byte := tileBody ns seg t ++ leBytes 8 (crc64 (tileBody ns seg t)).toNat

/-- The checks of R196 that an image carries in itself, for the segment looked up. -/
def tileImageOk (ns seg : Nat) (bs : List Byte) : Bool :=
  field bs 0x838 8 == (crc64 (bs.take 0x838)).toNat && field bs 0x800 4 == 0x54494C45 && field bs 0x804 1 == 1
    && field bs 0x805 1 == ns && field bs 0x808 4 == seg
    && field bs 0x806 2 == ((List.range 256).filter (fun u => bits (field bs (8 * u) 8) 50 48 == 1)).length

/-! ## Block header (Table 9-5) -/

/-- BAY_UID of a bay position. -/
def uidOf (s : State) (b : Nat) : Nat := ((bayOf s b).map (·.uid)).getD 0

/-- COLUMN_MAP entry of a column: BAY_UID and the address with BAY zero. -/
def columnEntry (s : State) (c : Nat × Madr) : List Byte :=
  leBytes 8 (uidOf s c.2.bay) ++ leBytes 8 (madrCode { c.2 with bay := 0 })

/-- The bytes of a block header that its GUARD covers; `uid` and `pe` are the block's own (R225, R350). -/
def headerBody (s : State) (k : SetRec) (dedicated : Bool) (col uid pe : Nat) : List Byte :=
  leBytes 4 0x424C4B48 ++ leBytes 2 1 ++ [BitVec.ofNat 8 (streamNum k.stream), BitVec.ofNat 8 col]
    ++ leBytes 8 k.seq ++ leBytes 8 k.openAet ++ leBytes 8 uid
    ++ [BitVec.ofNat 8 k.w, BitVec.ofNat 8 k.p, BitVec.ofNat 8 k.stripeUnit, BitVec.ofNat 8 (b2n dedicated)]
    ++ leBytes 2 k.rows ++ zeros 2 ++ leBytes 4 pe ++ zeros 4
    ++ padTo 256 (k.cols.flatMap (columnEntry s)) ++ zeros 200

/-- The 512-byte block header (R225). -/
def blockHeader (s : State) (k : SetRec) (dedicated : Bool) (col uid pe : Nat) : List Byte :=
  let b := headerBody s k dedicated col uid pe
  b ++ leBytes 8 (crc64 b).toNat

/-! ## Journal records (R244) -/

/-- One byte. -/
def byte1 (n : Nat) : List Byte := [BitVec.ofNat 8 n]

/-- Number of a die in a MEMBER_FAIL record; 0xFF for a whole bay. -/
def dieByte (d : Option Nat) : Nat := d.getD 0xFF

/-- TYPE and payload of a record (Tables 10-3, 14-4, 15-4). -/
def recPayload (s : State) : JRec → Nat × List Byte
  | .map csn origin ns runs =>
    (0x01, leBytes 8 csn ++ byte1 origin ++ byte1 ns ++ leBytes 2 runs.length ++ zeros 4
      ++ runs.flatMap (fun r => leBytes 8 r.lba ++ madrBytes r.madr ++ leBytes 2 r.count))
  | .dealloc csn ns lba count => (0x02, leBytes 8 csn ++ byte1 ns ++ zeros 7 ++ leBytes 8 lba ++ leBytes 4 count)
  | .lost ns lba count _ _ => (0x03, byte1 ns ++ zeros 7 ++ leBytes 8 lba ++ leBytes 4 count ++ zeros 12)
  | .tileHome ns seg home capture gen =>
    (0x04, byte1 ns ++ zeros 3 ++ leBytes 4 seg ++ madrBytes home ++ zeros 2 ++ leBytes 8 capture ++ leBytes 8 gen)
  | .nspace csn nsid create format fine segments _ =>
    (0x05, leBytes 8 csn ++ byte1 nsid ++ byte1 (if create then 1 else 2) ++ byte1 format ++ byte1 (b2n fine) ++ leBytes 4 segments)
  | .setOpen seq stream profile w _ _ _ _ cols =>
    (0x06, leBytes 8 seq ++ byte1 (streamNum stream) ++ byte1 profile ++ byte1 w ++ zeros 5 ++ cols.flatMap (columnEntry s))
  | .setClose seq last ab => (0x07, leBytes 8 seq ++ leBytes 2 (last.getD 0xFFFF) ++ leBytes 2 (ab.getD 0xFFFF) ++ zeros 4)
  | .release b => (0x08, madrBytes b ++ zeros 10)
  | .erased b pe => (0x09, madrBytes b ++ zeros 2 ++ leBytes 4 pe ++ zeros 4)
  | .retire b cause => (0x0A, madrBytes b ++ byte1 cause ++ zeros 9)
  | .csnReserve first => (0x0B, leBytes 8 first ++ zeros 8)
  | .checkpoint seq root => (0x0C, leBytes 8 seq ++ leBytes 6 ((root.map madrCode).getD 0) ++ zeros 2)
  | .memberFail bay die profile uid => (0x10, byte1 bay ++ byte1 (dieByte die) ++ byte1 profile ++ zeros 5 ++ leBytes 8 uid)
  | .standInOpen seq col page0 => (0x11, leBytes 8 seq ++ byte1 col ++ zeros 1 ++ madrBytes page0)
  | .standInDone seq col => (0x12, leBytes 8 seq ++ byte1 col ++ zeros 7)
  | .rebuildState st done => (0x13, byte1 st ++ zeros 7 ++ leBytes 8 done)
  | .bayState bay old new profile uid =>
    (0x18, byte1 bay ++ byte1 old ++ byte1 new ++ byte1 (profile.getD 0xFF) ++ zeros 4 ++ leBytes 8 uid)
  | .evacProgress bay left => (0x19, byte1 bay ++ zeros 7 ++ leBytes 4 left ++ zeros 4)
  | .importDone ck csn => (0x1A, leBytes 8 ck ++ leBytes 8 csn)

/-- A record's bytes: header, payload, zeros to a multiple of 16, with its CRC (Table 10-2). -/
def recBytes (s : State) (r : StagedRec) : List Byte :=
  let tp := recPayload s r.body
  let len := ceilDiv (16 + tp.2.length) 16
  let raw := byte1 tp.1 ++ zeros 1 ++ leBytes 2 (len % 4096) ++ zeros 4 ++ leBytes 8 r.jseq ++ tp.2
  let full := padTo (16 * len) raw
  full.take 4 ++ leBytes 4 (crc32cZeroed full 4).toNat ++ full.drop 8

/-- Bytes held by records (R246). -/
def recsBytes (s : State) (rs : List StagedRec) : List Byte := rs.flatMap (recBytes s)

/-! ## Admission slots and hold-up items (Tables 10-1, 10-8) -/

/-- The 32 bytes of an admission slot (Table 10-1). -/
def slotBytes (a : AdmSlot) : List Byte :=
  leBytes 8 a.csn
    ++ (if a.performed then leBytes 4 a.result0.toNat ++ leBytes 4 a.result1.toNat else leBytes 8 a.firstLba)
    ++ leBytes 4 a.blockCount
    ++ leBytes 4 (a.queue + portNum a.port * 2 ^ 14 + a.tag * 2 ^ 15 + a.sqIndex * 2 ^ 20)
    ++ byte1 a.opcode ++ byte1 a.ns
    ++ byte1 ((if a.performed then 2 else 1) + b2n a.blockStart * 4) ++ zeros 1
    ++ leBytes 2 (if a.performed then a.status.toNat else 0) ++ zeros 2

/-- One item of a hold-up record. -/
def holdupItem (seq item : Nat) (body : List Byte) : List Byte :=
  byte1 item ++ zeros 3 ++ leBytes 4 (16 + body.length) ++ leBytes 8 seq ++ body

/-- A hold-up record's bytes (R253). -/
def holdupBytes (s : State) (h : Holdup) : List Byte :=
  let items :=
    [holdupItem h.seq 1 (h.slots.flatMap slotBytes), holdupItem h.seq 2 (recsBytes s h.recs)]
    ++ h.accs.map (fun a => holdupItem h.seq 3 (leBytes 8 a.1 ++ leBytes 2 a.2.1 ++ zeros 6 ++ padTo 16704 a.2.2))
    ++ [holdupItem h.seq 4 (h.frontier.flatMap (fun f => leBytes 8 f.1 ++ (List.range 16).flatMap (fun c => leBytes 2 (f.2.getD c 0))))]
  let all := items.flatten
  all ++ holdupItem h.seq 5 (leBytes 8 items.length ++ leBytes 4 (crc32c all).toNat ++ zeros 4 ++ leBytes 8 h.csnLast)

/-! ## Checkpoint root (Table 10-4) -/

/-- Encoding of a namespace state (Table 7-3). -/
def nsStateNum : NsState → Nat
  | .creating => 1
  | .ready => 2
  | .deleting => 3

/-- The NAMESPACE_TABLE entry of a namespace number. -/
def nsEntryBytes (i : MapImg) (n : Nat) : List Byte :=
  match i.nss.find? (fun x => x.nsid == n) with
  | none => zeros 32
  | some x =>
    byte1 x.nsid ++ byte1 (nsStateNum x.st) ++ byte1 x.format ++ byte1 (b2n x.fine) ++ leBytes 4 x.segments
      ++ leBytes 8 x.createdAet ++ leBytes 8 (writtenBlocks i x.nsid) ++ zeros 8

/-- The 4,096 bytes of a checkpoint root (R249); the index entries and pieces that follow it are held as the image in `Ckpt`. -/
def rootBytes (k : Ckpt) (prev : Option Madr) (entries indexCrc : Nat) : List Byte :=
  let b := leBytes 4 0x434B5054 ++ leBytes 2 1 ++ leBytes 2 (b2n k.clean) ++ leBytes 8 k.seq ++ leBytes 8 k.aet ++ leBytes 8 k.cut
    ++ leBytes 8 k.replayFrom ++ leBytes 8 k.csnReservedHigh ++ leBytes 8 k.csnLast ++ leBytes 8 k.blockSeqHigh ++ madrBytes8 prev
    ++ leBytes 4 entries ++ leBytes 4 indexCrc
    ++ (List.range 16).flatMap (fun b => leBytes 8 (k.at_.bays.getD b 0))
    ++ (List.range 64).flatMap (fun n => nsEntryBytes k.img (n + 1)) ++ zeros 1832
  b ++ leBytes 8 (crc64 b).toNat

/-- Directory block n of a namespace's list: 8,192 entries of 8 bytes (R199). -/
def directoryBlock (i : MapImg) (ns n : Nat) : List Byte :=
  (List.range 8192).flatMap (fun e => leBytes 8 (((segOf i ns (8192 * n + e)).map (fun k => (dirEntry k).toNat)).getD 0))

/-- Encoding of a block state (Table 10-6). -/
def blkStNum : BlkSt → Nat
  | .erased => 0
  | .taken => 0
  | .opened => 1
  | .closed => 2
  | .verified => 3
  | .retired => 4

/-- A block table entry (Table 10-6). -/
def blockEntry (i : MapImg) (b : BlockRec) : List Byte :=
  let stream := ((i.sets.find? (fun k => k.seq == b.seq)).map (fun k => streamNum k.stream)).getD 0
  leBytes 8 b.seq ++ leBytes 8 (blkStNum b.st + b2n b.released * 2 ^ 3 + b.pe % 2 ^ 20 * 2 ^ 4
    + validSlots i b.addr % 2 ^ 15 * 2 ^ 24 + stream * 2 ^ 39)

/-- An open-set entry of the OPEN_SETS piece (R249). -/
def openSetEntry (k : SetRec) (scanRow : Nat) : List Byte :=
  leBytes 8 k.seq ++ byte1 (streamNum k.stream) ++ byte1 k.profile ++ leBytes 2 scanRow ++ zeros 20

/-! ## Stop record (Table 10-9) -/

/-- KIND of a stop record. -/
def stopKindNum : StopKind → Nat
  | .restarted => 0
  | .powerFail => 1
  | .reset => 2
  | .shutdown => 3
  | .failed => 4

/-- The 256 bytes of a stop record (R254). -/
def stopBytes (r : StopRec) : List Byte :=
  let b := padTo 252 (leBytes 4 0x53544F50 ++ byte1 (stopKindNum r.kind) ++ byte1 (b2n r.holdupIssued) ++ zeros 2
    ++ leBytes 8 r.stopSeq ++ leBytes 8 r.aetStop.toNat ++ madrBytes8 r.root ++ leBytes 8 r.ckptSeq ++ madrBytes8 r.holdupMadr
    ++ leBytes 8 r.holdupSeq ++ leBytes 8 r.lastJseq ++ leBytes 8 r.csnLast)
  b ++ leBytes 4 (crc32c b).toNat

/-- The kinds by their numbers. -/
def stopKindOf (n : Nat) : StopKind := ([StopKind.restarted, .powerFail, .reset, .shutdown, .failed] : List StopKind).getD n .restarted

/-- An address in 8 bytes, none for 0. -/
def madrOf8 (b : List Byte) (o : Nat) : Option Madr := if field b o 6 == 0 then none else some (madrOfCode (field b o 6))

/-- A stop record read; none where its MAGIC or CRC fails. -/
def readStop (b : List Byte) : Option StopRec :=
  if field b 0 4 != 0x53544F50 || field b 0xFC 4 != (crc32c (b.take 0xFC)).toNat then none
  else
    some
      { kind := stopKindOf (field b 4 1), holdupIssued := field b 5 1 % 2 == 1, stopSeq := field b 8 8, aetStop := BitVec.ofNat 64 (field b 0x10 8)
        root := madrOf8 b 0x18, ckptSeq := field b 0x20 8, holdupMadr := madrOf8 b 0x28, holdupSeq := field b 0x30 8, lastJseq := field b 0x38 8
        csnLast := field b 0x40 8 }

/-! ## Stripe-journal record (Table 14-2) -/

/-- The 16,384 bytes of a copy of a stripe-journal record (R342). -/
def stripeBytes (seq aet copy : Nat) (es : List SjEntry) : List Byte :=
  let b := leBytes 4 0x534A524E ++ leBytes 2 1 ++ byte1 copy ++ zeros 1 ++ leBytes 8 seq ++ leBytes 8 aet ++ leBytes 2 es.length
    ++ zeros 6
    ++ es.flatMap (fun e => leBytes 8 e.seq ++ leBytes 2 e.safeRow ++ leBytes 2 e.limitRow ++ byte1 (streamNum e.stream)
        ++ byte1 e.profile ++ zeros 2)
  padTo 16384 (b.take 28 ++ leBytes 4 (crc32cZeroed b 28).toNat ++ b.drop 32)

/-- The streams by their numbers (Table 9-1). -/
def streamOf (n : Nat) : Stream := ([Stream.hostFine, .hostCoarse, .relocFine, .relocCoarse, .map, .system] : List Stream).getD n .system

/-- A copy of a stripe-journal record read: SJ_SEQ and the entries; none where its MAGIC or CRC fails. -/
def readStripe (b : List Byte) : Option (Nat × List SjEntry) :=
  let n := field b 0x18 2
  if field b 0 4 != 0x534A524E || 384 < n || field b 0x1C 4 != (crc32cZeroed (b.take (32 + 16 * n)) 28).toNat then none
  else
    some (field b 8 8, (List.range n).map (fun i =>
      let e := slice b (32 + 16 * i) 16
      { seq := field e 0 8, safeRow := field e 8 2, limitRow := field e 10 2, stream := streamOf (field e 12 1), profile := field e 13 1 }))

/-! ## Bay descriptor (R237, R238) -/

/-- A frame of an index: index, DESCRIPTOR_SEQ low word, 1,012 payload bytes, CRC. -/
def frameWith (seq index : Nat) (payload : List Byte) : List Byte :=
  let b := leBytes 4 index ++ leBytes 4 (seq % 2 ^ 32) ++ payload
  b ++ leBytes 4 (crc32c b).toNat

/-- Frame i of a descriptor. -/
def descriptorFrame (seq i : Nat) (payload : List Byte) : List Byte := frameWith seq i (padTo 1012 (slice payload (1012 * i) 1012))

/-- The majority of 16 copies of a bit, a tie as 0 (R237). -/
def majority16 (copies : List Bool) : Bool := decide (8 < (copies.filter id).length)

/-- A frame passes its CRC (R237). -/
def frameOk (f : List Byte) : Bool := field f 1020 4 == (crc32c (f.take 1020)).toNat

/-- A defect list entry (R238). -/
def defectEntry (d : Madr × Nat) : List Byte := leBytes 8 (madrCode { d.1 with bay := 0 } + d.2 * 2 ^ 48)

/-- The descriptor header's 1,016 bytes under its GUARD, and the GUARD (Table 9-9); section bodies follow in the payload. -/
def descriptorHeader (s : State) (b : Bay) (copy seq createdAet lastSeq hint : Nat) (length frames defectOffset reserved : Nat)
    (sections : List (Nat × Nat × Nat × Nat × Nat)) : List Byte :=
  let map := b.dies.foldl (fun a d => a + 2 ^ d) 0
  let h := leBytes 4 0x42445343 ++ leBytes 2 1 ++ byte1 copy ++ byte1 hint ++ leBytes 8 seq ++ leBytes 8 b.uid ++ leBytes 8 createdAet
    ++ leBytes 8 s.cad.aet ++ leBytes 8 b.imageId ++ padTo 16 [0x44, 0x58, 0x39, 0x36, 0x30, 0x30] ++ padTo 20 (Config.serial.take 20)
    ++ leBytes 4 length ++ leBytes 4 frames ++ leBytes 2 b.dies.length ++ byte1 10 ++ byte1 (b2n b.overflow) ++ leBytes 8 map
    ++ leBytes 8 lastSeq ++ leBytes 4 b.defects.length ++ leBytes 4 defectOffset ++ leBytes 4 reserved ++ zeros 4
    ++ padTo 256 (sections.flatMap (fun x => leBytes 2 x.1 ++ leBytes 2 x.2.1 ++ leBytes 4 x.2.2.1 ++ leBytes 4 x.2.2.2.1 ++ leBytes 4 x.2.2.2.2))
    ++ zeros 632
  h ++ leBytes 8 (crc64 h).toNat

end Sys2Proof.Machine
end

