-- ==== Sys2Proof/Machine/Medium.lean ====
section
/-! DEFINITION. Shared operations on the medium: die commands (R233 to R235), slots of open sets (R217 to R219), closing and settling of
sets (R230 to R232), bays and refresh triggers as other families change them. -/
namespace Sys2Proof.Machine
open Sys2Proof

/-! ## Die commands -/

/-- The profile of a bay. -/
def bayProfile (s : State) (b : Nat) : Option Profile := ((bayOf s b).bind (·.profile)).bind (profileOf s)

/-- A column of a set lies on a failed member: its bay is neither MEMBER nor EVACUATING, its die failed, or the position has since taken
another carrier (R346, R358). -/
def colDown (s : State) (k : SetRec) (m : Madr) : Bool :=
  (match bayOf s m.bay with
    | none => true
    | some b => (b.st != .member && b.st != .evacuating) || b.failedDies.contains (dieNum (dieOf m)))
  || (blkOf s m).seq != k.seq

/-- Rows declared lost are not counted (R358). -/
def rowLost (s : State) (k : SetRec) (row : Nat) : Bool := s.media.lostRows.contains (k.seq, row)

/-- Columns of a set that are down. -/
def downCols (s : State) (k : SetRec) : List Nat := (k.cols.filter (fun c => colDown s k c.2)).map (·.1)

/-- The stand-in of a column that is still usable. -/
def standInOf (s : State) (k : SetRec) (col : Nat) : Option StandIn :=
  k.standIns.find? (fun x => x.col == col && !colDown s k x.page0)

/-- Members that row r lacks (R358). -/
def lackRow (s : State) (k : SetRec) (row : Nat) : Nat :=
  if rowLost s k row then 0
  else ((downCols s k).filter (fun c => !((standInOf s k c).map (fun x => decide (row < x.rowsDone))).getD false)).length

/-- An element inserted before the first one that it may precede. -/
def insertBy {α : Type} (le : α → α → Bool) (x : α) : List α → List α
  | [] => [x]
  | h :: t => if le x h then x :: h :: t else h :: insertBy le x t

/-! ## The die limit (R481) -/

/-- A page of a row with no parity remaining (R355). -/
def bareRow (s : State) (m : Madr) : Bool :=
  match setOf s (blkOf s (blockOf m)).seq with
  | none => false
  | some k => match pageRow k m.page with
    | none => false
    | some r => decide (0 < lackRow s k r) && decide (k.p ≤ lackRow s k r)

/-- Operations that the die limit leaves free (R481): programs of the SYSTEM stream, which carries the hold-up write, journal flushes,
checkpoints and stripe-journal records, and work on rows with no parity remaining. -/
def limitFree (s : State) (op : DieOp) : Bool :=
  (op.who == 1 && ((setOf s (blkOf s (blockOf op.page)).seq).map (fun k => k.stream == .system)).getD false) || bareRow s op.page

/-- Two dies share a channel. -/
def sameChannel (a b : DieId) : Bool := a.bay == b.bay && a.channel == b.channel

/-- The built-in page read and page program of R33 as operations on a die. -/
def builtinRead : Nat := 64
def builtinProgram : Nat := 65

/-- A read, program or erase (Table 2-7, R33). -/
def busyOp (op : DieOp) : Bool :=
  (decide (1 ≤ op.seqNo) && decide (op.seqNo ≤ 4)) || op.seqNo == builtinRead || op.seqNo == builtinProgram

/-- While L > 0, an operation waits that would keep more dies of its channel busy than R481 allows (assumption 33). -/
def dieHeld (s : State) (id : DieId) (op : DieOp) : Bool :=
  let dies := ((bayOf s id.bay).map (fun b => (b.dies.filter (fun n => n / 32 == id.channel)).length)).getD 0
  let busy := (s.media.dies.filter (fun d => sameChannel d.id id && d.op.any busyOp)).length
  throttleLevel s != 0 && busyOp op && !limitFree s op && decide (dieLimit (throttleLevel s) dies ≤ busy)

/-- A die whose temperature sample is missing or older than TEMP_PERIOD (R294). -/
def sampleStale (s : State) (d : DieId) : Bool :=
  match bayProfile s d.bay with
  | none => false
  | some f =>
    match (dieStOf s d).bind (·.sample) with
    | none => true
    | some (c, _) => decide (c + f.tempPeriod * 1000000 < s.now)

/-- Events that the start of an operation counts (Table 21-6: die reads, programs, erases by bay). -/
def countOp (s : State) (op : DieOp) : State :=
  if op.seqNo == 1 || op.seqNo == 2 || op.seqNo == builtinRead then countEvent s 0x10 op.page.bay 1
  else if op.seqNo == 3 || op.seqNo == builtinProgram then countEvent s 0x11 op.page.bay 1
  else if op.seqNo == 4 then countEvent s 0x12 op.page.bay 1
  else s

/-- The temperature sample that precedes an operation on a die (R294). -/
def sampleOp (op : DieOp) (now : Nat) : DieOp := { seqNo := 8, page := op.page, who := op.who, issued := now, typical := none }

/-- Mandatory sequence 6, or 7, of a suspended operation (Table 2-7). -/
def suspendOp (op : DieOp) : DieOp := { op with seqNo := 6, typical := none }
def resumeOp (op : DieOp) : DieOp := { op with seqNo := 7, typical := none }

/-- The next operation of an idle die: sequence 0 that a TIMEOUT asked for, else a waiting host read while an operation is suspended, else
the resumption of the suspended operation, else the first that waits (R22, R234, R304). -/
def nextOp (d : DieSt) : Option (DieOp × DieSt) :=
  match d.queue.find? (fun o => o.seqNo == 0) with
  | some r => some (r, { d with queue := d.queue.erase r })
  | none =>
    match d.suspended with
    | some op =>
      match d.queue.find? (fun o => o.who == 0) with
      | some r => some (r, { d with queue := d.queue.erase r })
      | none => some (resumeOp op, d)
    | none =>
      match d.queue with
      | [] => none
      | o :: rest => some (o, { d with queue := rest, suspends := 0 })

/-- An idle die takes its next operation, with a temperature sample before it where the last one is stale; under throttling the operation waits
while its channel keeps as many dies busy as R481 allows. -/
def startDie (s : State) (id : DieId) : State :=
  match dieStOf s id with
  | none => s
  | some d =>
    if d.op.isSome || d.failed || s.jrnl.stopFrom.isSome then s
    else
      match nextOp d with
      | none => s
      | some (op, d') =>
        if dieHeld s id op then s
        else if sampleStale s id && op.seqNo != 8 && op.seqNo != 0 && op.seqNo != 7 then
          updDie s id (fun x => { x with op := some (sampleOp op s.now) })
        else countOp (updDie s id (fun _ => { d' with op := some { op with issued := s.now } })) op

/-- The idle dies of a channel take their next operations, in order of arrival and then of requester number (R22, R481). -/
def startChannel (s : State) (id : DieId) : State :=
  let waits := s.media.dies.filterMap (fun d => if sameChannel d.id id && d.op.isNone then (nextOp d).map (fun x => (x.1, d.id)) else none)
  let before (x y : DieOp × DieId) : Bool := decide (x.1.issued < y.1.issued) || (x.1.issued == y.1.issued && decide (x.1.who ≤ y.1.who))
  (waits.foldr (insertBy before) []).foldl (fun t x => startDie t x.2) s

/-- An operation before another in a die's queue: of the same cycle, the lower-numbered requester (R22). -/
def opBefore (x y : DieOp) : Bool := y.seqNo != 0 && (decide (x.issued < y.issued) || (x.issued == y.issued && decide (x.who < y.who)))

/-- An operation granted to a die: it waits its turn in order of arrival, then of requester number, and starts when the die is free (R22,
R233). A failed die and a bay that is isolated receive none (R346, R366). -/
def enqueueOp (s : State) (op : DieOp) : State :=
  let id := dieOf op.page
  if ((dieStOf s id).map (·.failed)).getD false || !((bayOf s id.bay).map (·.connected)).getD false then s
  else startDie (updDie s id (fun d => { d with queue := insertBy opBefore op d.queue })) id

/-- An operation that is drawn carries its typical busy time (R72); others none. -/
def typicalOf (s : State) (bay seqNo : Nat) : Nat :=
  match bayProfile s bay with
  | none => 0
  | some f => if seqNo == 3 || seqNo == builtinProgram then f.tProg else if seqNo == 4 then f.tErase else f.tRead

/-- The set whose block a page lies in. -/
def setOfPage (s : State) (m : Madr) : Option SetRec :=
  (setOf s (blkOf s (blockOf m)).seq).or (s.map.sets.find? (fun k => (blocksOfSet k).contains (blockOf m)))

/-- A row of a SYSTEM set whose data pages hold only stripe-journal copies, hold-up pages and padding: its pages draw no slots (R20, R343,
R252). -/
def undrawnRow (s : State) (k : SetRec) (row : Nat) : Bool :=
  let mine := s.media.pages.filter (fun p => p.seq == k.seq && p.row == row && p.addr.page != 0)
  mine.any (fun p => p.kind == 6 || p.kind == 9) && mine.all (fun p => p.kind == 6 || p.kind == 9 || p.kind == 8 || p.kind == 0)

/-- The draw that a SYSTEM or MAP stream program needs by its page's kind (Table 9-4, R73, R233): journal pages a flush, tiles a writeback,
stripe-journal copies and hold-up pages none. Page 0, parity and padding count with the writebacks in a MAP set and with the checkpoints in
a SYSTEM set (assumption 45). -/
def systemDraw (s : State) (page : Madr) : Option DrawKind :=
  match pageRecOf s page, setOfPage s page with
  | some p, some k =>
    if p.kind == 4 then some .journalFlush
    else if p.kind == 3 then some .urgentWriteback
    else if p.kind == 5 then some .checkpoint
    else if p.kind == 6 || p.kind == 9 then none
    else if k.stream == .map then some .urgentWriteback
    else if page.page != 0 && undrawnRow s k p.row then none
    else some .checkpoint
  | _, _ => none

/-- The draw of a rebuild operation: urgent for the open set of R348, for a second ladder (R359) and for a row with no parity remaining. -/
def rebuildKind (s : State) (op : DieOp) : DrawKind :=
  if s.media.ladders.any (fun l => l.second && l.page == pageOf op.page) then .secondLadder
  else match setOfPage s op.page with
    | none => .rebuild
    | some k =>
      if s.media.opens.any (fun o => o.seq == k.seq) then .failedOpenSet
      else if ((pageRow k op.page.page).map (fun r => decide (k.p ≤ lackRow s k r))).getD false then .rebuildNoParity
      else .rebuild

/-- A block reserved for a copy of its bay's descriptor (R236). -/
def reservedAt (s : State) (m : Madr) : Bool :=
  match bayOf s m.bay, bayProfile s m.bay with
  | some b, some f => isReserved f b m
  | _, _ => false

/-- The draw of an erase: those of descriptor blocks as the rewrite (R48), those of SYSTEM blocks as checkpoints do, others as the agent that holds the set, RECLAIM where none does
(Table 11-5) (assumption 45). -/
def eraseDraw (s : State) (b : Madr) : DrawKind :=
  let seq := (blkOf s (blockOf b)).seq
  if reservedAt s b then .descriptorRewrite
  else if ((setOf s seq).map (fun k => k.stream == .system)).getD false then .systemErase
  else match s.media.claims.find? (fun c => c.seq == seq && c.agent != .patrol) with
    | some c =>
      (match c.agent with
        | .reserveReclaim => .reserveReclaim
        | .refresh => .refresh
        | .evacuate => .evacuate
        | .rebuild => .rebuild
        | _ => .reclaim)
    | none => .reclaim

/-- The draw that an operation needs before it is granted (R73, R233); none for requesters 0, 2 and 8, and for sequences other than reads,
programs and erases. -/
def drawOf (s : State) (op : DieOp) : Option DrawKind :=
  if !busyOp op then none
  else match op.who with
    | 1 => systemDraw s op.page
    | 3 => some (rebuildKind s op)
    | 4 => some .reserveReclaim
    | 5 => some .refresh
    | 6 => some .evacuate
    | 7 => some .reclaim
    | 9 => some (if s.media.atRisk.contains (blkOf s (blockOf op.page)).seq then .wakeSweep else .patrol)
    | 10 => some (if op.seqNo == builtinRead || op.seqNo == builtinProgram then .descriptorRewrite else .commissioning)
    | 11 => some (eraseDraw s op.page)
    | _ => none

/-- An operation asked of a die: one that draws waits for its draw, any other goes to the die (R20, R73, R233). -/
def issueOp (s : State) (op : DieOp) : State :=
  match drawOf s op with
  | none => enqueueOp s { op with typical := none }
  | some _ => updMedia s (fun m => { m with undrawn := m.undrawn ++ [{ op with typical := some (typicalOf s op.page.bay op.seqNo) }] })

/-- An operation of a kind on a page for a requester of Table 9-8. -/
def mkOp (s : State) (seqNo : Nat) (page : Madr) (who : Nat) : DieOp where
  seqNo := seqNo
  page := page
  who := who
  issued := s.now
  typical := none

/-- An operation that waits for a draw, or that waits, runs or is suspended on a die. -/
def anyOp (s : State) (ok : DieOp → Bool) : Bool :=
  s.media.undrawn.any ok || s.media.dies.any (fun d => d.op.any ok || d.queue.any ok || d.suspended.any ok)

/-! ## Pages -/

/-- A page recorded or replaced. -/
def putPage (s : State) (p : PageRec) : State :=
  updMedia s (fun m =>
    { m with pages := if m.pages.any (fun x => x.addr == p.addr) then m.pages.map (fun x => if x.addr == p.addr then p else x)
                      else m.pages ++ [p] })

/-- A page holds a slot whose staged content was lost with a DRAM channel and is not recovered yet (R425). -/
def pageWaits (s : State) (page : Madr) : Bool := s.ctxs.any (fun c => c.staged.any (fun u => u.lost && u.slot.map pageOf == some page))

/-- The program of an assigned page starts: its write epoch is taken, and its die gets the command (R219, R221). A page with lost content waits
for its recovery (R425). -/
def programPage (s : State) (page : Madr) (who : Nat) : State :=
  match pageRecOf s page with
  | none => s
  | some p =>
    if p.st != .assigned || pageWaits s page then s
    else
      let t := putPage s { p with st := .programming, epoch := aetSec s.cad.aet % 2 ^ 40 }
      let t := updHealth t (fun h => { h with pagesWritten := h.pagesWritten + 1 })
      issueOp t (mkOp t 3 page who)

/-- A page with content programmed at once. -/
def writePage (s : State) (p : PageRec) (who : Nat) : State := programPage (putPage s { p with st := .assigned }) p.addr who

/-- A PAD page of a column (Table 9-4). -/
def padRec (k : SetRec) (col row : Nat) (addr : Madr) : PageRec where
  addr := addr
  seq := k.seq
  kind := 8
  col := col
  row := row
  st := .assigned
  epoch := 0
  slots := []
  parity := []

/-! ## Open sets -/

/-- An open set's run-time record. -/
def openOf (s : State) (seq : Nat) : Option OpenSet := s.media.opens.find? (fun o => o.seq == seq)

/-- An open set's record changed. -/
def updOpen (s : State) (seq : Nat) (f : OpenSet → OpenSet) : State :=
  updMedia s (fun m => { m with opens := m.opens.map (fun o => if o.seq == seq then f o else o) })

/-- A row of an open set changed. -/
def updRow (s : State) (seq row : Nat) (f : RowSt → RowSt) : State :=
  updOpen s seq (fun o => { o with rows := o.rows.map (fun r => if r.row == row then f r else r) })

/-- Open sets of a stream, oldest first. -/
def openSetsOf (s : State) (stream : Stream) : List (OpenSet × SetRec) :=
  s.media.opens.filterMap (fun o =>
    (setOf s o.seq).bind (fun k => if k.stream == stream && !k.closed then some (o, k) else none))

/-- Shield accumulators in use: rows started and not settled (R229). -/
def accsHeld (s : State) : Nat := s.media.opens.foldl (fun n o => n + (o.rows.filter (fun r => !r.settled)).length) 0

/-- Pod 3 units that they take, three to a unit, charged to requester 13 (R229, R427) (assumption 65). -/
def accUnits (s : State) : Nat := ceilDiv (accsHeld s) 3

/-- Units of a pod by the image (R423). -/
def podCount (s : State) (k : Nat) : Nat := s.kf.img.podUnits.getD k 0

/-- H(r, k): units of a pod charged to a requester (R429). -/
def podHeld (s : State) (r k : Nat) : Nat := (s.pods.used.filter (fun u => u.1 == k && u.2.2 == r)).length + (if r == 13 && k == 3 then accUnits s else 0)

/-- Units of a pod on channels out of service. -/
def podLostCount (s : State) (k : Nat) : Nat :=
  if k != 4 then 0
  else (List.range 4).foldl (fun n c => if s.eng.dramLost.getLsbD c then n + (podCount s 4 + 3 - c) / 4 else n) 0

/-- Free units of a pod. -/
def podFreeUnits (s : State) (k : Nat) : Nat :=
  podCount s k - podLostCount s k - (s.pods.used.filter (fun u => u.1 == k)).length - (if k == 3 then accUnits s else 0)

/-- MIN and MAX of a requester in a pod (Table 18-2). -/
def podQuota (s : State) (r k : Nat) : Nat × Nat := (s.kf.img.podQuota.getD r []).getD k (0, 0xFFFF)

/-- S(k): what the requesters lack of their minimums (R429). -/
def podShort (s : State) (k : Nat) : Nat := (List.range 15).foldl (fun n r => n + ((podQuota s r k).1 - podHeld s r k)) 0

/-- A requester may take a free unit of a pod (R429). -/
def podEligible (s : State) (r k : Nat) : Bool :=
  let q := podQuota s r k
  let h := podHeld s r k
  decide (0 < podFreeUnits s k) && (q.2 == 0xFFFF || decide (h < q.2)) && (decide (h < q.1) || decide (podShort s k < podFreeUnits s k))

/-- An accumulator is free: a unit in use has room, or the shield may take another (R229, R429). -/
def accFree (s : State) : Bool := accsHeld s % 3 != 0 || podEligible s 13 3

/-! ## The hold-up reserve (R251) -/

/-- Covered rows of a SYSTEM set that are kept for stripe-journal and hold-up records, while its limit can still rise (R251, R341): no more
than its dies program in 2.4 ms at the typical time, one page of a row after the other. -/
def reserveRows (s : State) (k : SetRec) : Nat :=
  match profileOf s k.profile with
  | some f => Nat.max 1 (Nat.min (Nat.min 2 (f.sjWindow / 2)) (2400 / Nat.max 1 (k.stripeUnit * f.tProg)))
  | none => 0

/-- Bytes of the reserve rows of an open SYSTEM set that have not started. -/
def reserveBytes (s : State) (ok : OpenSet × SetRec) : Nat :=
  Nat.min (reserveRows s ok.2) (ok.2.rows - ok.1.nextRow) * rowSlots ok.2 * 4096

/-- Room for a hold-up record: the largest reserve that one open SYSTEM set holds. -/
def holdupRoom (s : State) : Nat := (openSetsOf s .system).foldl (fun n ok => Nat.max n (reserveBytes s ok)) 0

/-- Length of a journal record in bytes (Tables 10-2, 10-3, 14-4, 15-4). -/
def recLen : JRec → Nat
  | .map _ _ _ runs => 32 + 16 * runs.length
  | .dealloc .. => 48
  | .lost .. => 48
  | .tileHome .. => 48
  | .setOpen _ _ _ _ _ _ _ _ cols => 32 + 16 * cols.length
  | _ => 32

/-- A row's parity pages have all finished DONE. -/
def parityDone (s : State) (k : SetRec) (row : Nat) : Bool :=
  (List.range k.stripeUnit).all (fun u => (List.range k.p).all (fun n =>
    ((rowPageOf s.media.pages k row ((row + n) % k.w) u).map (fun p => p.st == .done)).getD false))

/-- Rows whose accumulator a hold-up record would carry. -/
def accRows (s : State) : Nat :=
  s.media.opens.foldl (fun n o => match setOf s o.seq with
    | some k => n + (o.rows.filter (fun r => !r.settled && !parityDone s k r.row)).length
    | none => n) 0

/-- Length of the hold-up payload (Table 10-8) with so many more slots and accumulators. -/
def holdupNeed (s : State) (slots accs : Nat) : Nat :=
  5 * 16 + 24 + 32 * ((s.ctxs.filter (fun c => c.stage != .served)).length + slots)
    + (s.jrnl.recs.filter (fun r => !r.onMedium)).foldl (fun n r => n + recLen r.body) 0
    + (accRows s + accs) * 16736 + 40 * s.media.opens.length

/-- The payload stays within the reserve with so many more slots and accumulators. Before the first SYSTEM set opens there is no reserve and
nothing is held to it (assumption 52). -/
def holdupFits (s : State) (slots accs : Nat) : Bool := (openSetsOf s .system).isEmpty || decide (holdupNeed s slots accs ≤ holdupRoom s)

/-- The set may start its next row: every page 0 is DONE, a stripe-journal record covers the row, an accumulator is free, and the
set is not closing, and the accumulators stay within the hold-up reserve; the rows of the SYSTEM stream, in which that reserve lies and by which it
is emptied, always may (R225, R229, R251, R341). -/
def mayStartRow (s : State) (o : OpenSet) (k : SetRec) : Bool :=
  !o.closing && o.headersLeft.isEmpty && decide (o.nextRow < k.rows) && decide (o.nextRow < o.limitRow) && accFree s &&
    (k.stream == .system || holdupFits s 0 1)

/-- The row that takes the next slot: the last started row with a slot left, or a new one. -/
def fillingRow (o : OpenSet) (k : SetRec) : Option RowSt :=
  o.rows.find? (fun r => decide (r.next < rowSlots k) && !r.parityIssued)

/-- A row started (R219). -/
def startRow (s : State) (o : OpenSet) : State × RowSt :=
  let r : RowSt :=
    { row := o.nextRow, since := s.now, sinceT := tIndex s.cad.tps s.cad.aet, next := 0
      parityIssued := false, verified := false, settled := false }
  (updOpen s o.seq (fun x => { x with rows := x.rows ++ [r], nextRow := x.nextRow + 1 }), r)

/-- A page of a row waits for content that was lost (R425). -/
def rowWaits (s : State) (k : SetRec) (row : Nat) : Bool :=
  s.media.pages.any (fun p => p.seq == k.seq && p.row == row && p.addr.page != 0 && pageWaits s p.addr)

/-- The parity pages of a row whose data pages all have content, those that it has already left alone (R219, R338, R339). -/
def programParity (s : State) (k : SetRec) (row who : Nat) : State :=
  if rowWaits s k row then s else
  let jobs := (List.range k.stripeUnit).flatMap (fun u => (List.range k.p).map (fun n => (u, n)))
  let t := jobs.foldl (fun t j =>
    let col := (row + j.2) % k.w
    match (colBlock k col).filter (fun b => (pageRecOf t { b with page := rowPage k row j.1 }).isNone) with
    | none => t
    | some b =>
      writePage t
        { addr := { b with page := rowPage k row j.1 }, seq := k.seq, kind := 0, col := col, row := row, st := .assigned, epoch := 0
          slots := [], parity := parityOf j.2 (rowStrings t.media.pages k row j.1) } who) s
  let t := if k.p == 0 then t else countEvent t 0x31 0 1
  updRow t k.seq row (fun r => { r with parityIssued := true })

/-- Die requester of a stream's programs: host streams 2, SYSTEM and MAP 1; relocations name their agent's (Table 9-8). -/
def streamWho (st : Stream) (agentWho : Nat) : Nat :=
  match st with
  | .hostFine | .hostCoarse => 2
  | .map | .system => 1
  | .relocFine | .relocCoarse => agentWho

/-- A slot's content put at data slot n of a row, with the page program and the row's parity where they fall due. -/
def putSlot (s : State) (k : SetRec) (r : RowSt) (kind who : Nat) (x : SlotRec) : Option (State × Madr) :=
  match rowSlot k r.row r.next with
  | none => none
  | some a =>
    let page := pageOf a
    let col := (colOf k a).getD 0
    let old := (pageRecOf s page).getD
      { addr := page, seq := k.seq, kind := kind, col := col, row := r.row, st := .assigned, epoch := 0, slots := [], parity := [] }
    let t := putPage s { old with slots := old.slots ++ [{ x with n := a.slot }] }
    let t := updRow t k.seq r.row (fun y => { y with next := r.next + 1, since := if old.slots.isEmpty then s.now else y.since })
    let t := if a.slot == 3 then programPage t page who else t
    let t := if r.next + 1 == rowSlots k then programParity t k r.row who else t
    some (t, a)

/-- A requester may place data in an open set: EVACUATE and RECLAIM not in one that took last-stand blocks (Table 11-2). -/
def mayFill (o : OpenSet) (who : Nat) : Bool := !(o.lastStand && (who == 6 || who == 7))

/-- A slot's content placed in the next free data slot of an open set of a stream, starting a row where one may start; none where
the stream has to wait (R217, R218). -/
def placeSlot (s : State) (stream : Stream) (kind who : Nat) (x : SlotRec) : Option (State × Madr) :=
  (openSetsOf s stream).findSome? (fun ok =>
    if !mayFill ok.1 who then none else
    match fillingRow ok.1 ok.2 with
    | some r => putSlot s ok.2 r kind who x
    | none =>
      if mayStartRow s ok.1 ok.2 then
        let tr := startRow s ok.1
        putSlot tr.1 ok.2 tr.2 kind who x
      else none)

/-- A row padded: unassigned slots stay invalid, unassigned data pages become PAD, and the parity follows (R219). -/
def padRow (s : State) (k : SetRec) (row who : Nat) : State :=
  let cells := (dataCols k.w k.p row).flatMap (fun c => (List.range k.stripeUnit).map (fun u => (c, u)))
  let t := cells.foldl (fun t c =>
    match colBlock k c.1 with
    | none => t
    | some b =>
      let a := { b with page := rowPage k row c.2 }
      match pageRecOf t a with
      | some p => if p.st == .assigned then programPage t a who else t
      | none => writePage t (padRec k c.1 row a) who) s
  let t := updRow t k.seq row (fun r => { r with next := rowSlots k })
  programParity t k row who

/-- The row of an open set that is filling, padded; used before a set closes or stops. -/
def padOpenRow (s : State) (seq : Nat) : State :=
  match openOf s seq, setOf s seq with
  | some o, some k =>
    match fillingRow o k with
    | some r => padRow s k r.row (streamWho k.stream 5)
    | none => s
  | _, _ => s

/-! ## Records on the medium (R246) -/

/-- JSEQs of a span. -/
def spanHas (f : Nat × Nat × Nat × Nat) (j : Nat) : Bool := decide (f.2.2.1 ≤ j) && decide (j ≤ f.2.2.2)

/-- The row of a set settles: the records whose JOURNAL pages lie in settled rows alone are on the medium. -/
def settleJournal (s : State) (seq row : Nat) : State :=
  let mine := s.jrnl.flights.filter (fun f => f.1 == seq && f.2.1 == row)
  if mine.isEmpty then s
  else
    let rest := s.jrnl.flights.filter (fun f => !(f.1 == seq && f.2.1 == row))
    updJrnl s (fun j =>
      { j with
        flights := rest
        recs := j.recs.map (fun r =>
          if mine.any (fun f => spanHas f r.jseq) && !rest.any (fun f => spanHas f r.jseq) then { r with onMedium := true } else r) })

/-- Rows of a set from a row on are abandoned: what was flushed into them is to be flushed again. -/
def unflush (s : State) (seq row : Nat) : State :=
  updJrnl s (fun j => { j with flights := j.flights.filter (fun f => !(f.1 == seq && decide (row ≤ f.2.1))) })

/-! ## Closing and settling -/

/-- Pages after the last row of a set that closes, programmed as PAD (R216). -/
def padTail (s : State) (k : SetRec) : State :=
  let first := 1 + k.rows * k.stripeUnit
  k.cols.foldl (fun t c =>
    match bayProfile t c.2.bay with
    | none => t
    | some f => (List.range (f.pagesPerBlock - first)).foldl (fun t n =>
        writePage t (padRec k c.1 k.rows { c.2 with page := first + n }) (streamWho k.stream 5)) t) s

/-- Pages up to D_PAIR beyond the last valid row of a set closed early, programmed as PAD where they are not DONE (R230). -/
def padPair (s : State) (k : SetRec) (lastValid : Option Nat) : State :=
  let first := match lastValid with | some r => 1 + (r + 1) * k.stripeUnit | none => 1
  k.cols.foldl (fun t c =>
    match bayProfile t c.2.bay with
    | none => t
    | some f => (List.range (Nat.min f.dPair (f.pagesPerBlock - first))).foldl (fun t n =>
        let a := { c.2 with page := first + n }
        if (pageRecOf t a).any (fun p => p.st != .assigned) then t
        else writePage t (padRec k c.1 ((first + n - 1) / Nat.max k.stripeUnit 1) a) (streamWho k.stream 5)) t) s

/-- A set closed: SET_CLOSE is journalled and its OPEN blocks become CLOSED (R231, R232). -/
def closeSet (s : State) (seq : Nat) (last abandoned : Option Nat) : State :=
  match setOf s seq with
  | none => s
  | some k =>
    if k.closed then s
    else
      let t := unflush (commitRec s (.setClose seq last abandoned)) seq (match last with | some l => l + 1 | none => 0)
      let t := updOpen t seq (fun o =>
        { o with closing := true, rows := o.rows.filter (fun r => match last with | some l => decide (r.row ≤ l) | none => false) })
      if last == some (k.rows - 1) then padTail t k else padPair t k last

/-- The block whose page 0 has finished DONE is OPEN, or CLOSED where its set has closed (R231). -/
def openBlock (s : State) (m : Madr) : State :=
  updMap s (fun i => { i with blocks := i.blocks.map (fun b => if b.addr == blockOf m && b.st == .taken then { b with st := .opened } else b) })

/-- The same of every block whose page 0 is found DONE. -/
def settleTaken (s : State) : State :=
  s.map.blocks.foldl (fun t b => if b.st == .taken && (pageRecOf s (blockOf b.addr)).any (fun p => p.st == .done) then openBlock t b.addr else t) s

/-- Every page of a row is DONE; columns of RETIRED blocks and failed members are exempt (R230). -/
def rowDone (s : State) (k : SetRec) (row : Nat) : Bool :=
  k.cols.all (fun c => colDown s k c.2 || (blkOf s c.2).st == .retired || (List.range k.stripeUnit).all (fun u =>
    match rowPageOf s.media.pages k row c.1 u with
    | some p => p.st == .done
    | none => false))

/-- In every column the page D_PAIR beyond the row's last page, or the block's last page, is DONE (R230); columns of RETIRED blocks
and failed members are exempt. A page beyond the row whose program ended in failure can alter nothing any more and counts (R232). -/
def pairDone (s : State) (k : SetRec) (row : Nat) : Bool :=
  k.cols.all (fun c =>
    match bayProfile s c.2.bay with
    | none => true
    | some f =>
      let last := rowPage k row (k.stripeUnit - 1)
      let page := Nat.min (last + f.dPair) (f.pagesPerBlock - 1)
      (blkOf s c.2).st == .retired || colDown s k c.2 ||
        (match pageRecOf s { c.2 with page := page } with
          | some p => p.st == .done || (page != last && p.st == .failed)
          | none => false))

/-- A set all of whose live rows are settled becomes VERIFIED and leaves the open sets (R231). -/
def finishSet (s : State) (seq : Nat) : State :=
  match setOf s seq, openOf s seq with
  | some k, some o =>
    if k.closed && o.rows.all (·.settled) then
      updMap (updMedia s (fun m => { m with opens := m.opens.filter (fun x => x.seq != seq) }))
        (fun i => setBlocks i k (fun b => if b.st == .closed then { b with st := .verified } else b))
    else s
  | _, _ => s

/-- Every row of a set has started, has its parity issued and is DONE: the set closes (R231). -/
def closeIfFull (s : State) (seq : Nat) : State :=
  match setOf s seq, openOf s seq with
  | some k, some o =>
    if !k.closed && o.nextRow == k.rows && o.rows.all (fun r => r.parityIssued && (r.settled || rowDone s k r.row)) then
      closeSet s seq (if k.rows == 0 then none else some (k.rows - 1)) none
    else s
  | _, _ => s

/-! ## Refresh triggers, bays, retired list -/

/-- A refresh trigger raised on a set: the list keeps the greatest severity (R309, R325). -/
def raiseTrigger (s : State) (seq severity : Nat) : State :=
  updMedia s (fun m =>
    { m with refresh :=
        if m.refresh.any (fun t => t.seq == seq) then
          m.refresh.map (fun t => if t.seq == seq then { t with severity := Nat.max t.severity severity } else t)
        else m.refresh ++ [{ seq := seq, severity := severity }] })

/-- Encoding of a bay state (Table 7-4). -/
def bayStNum : BaySt → Nat
  | .absent => 0
  | .inserted => 1
  | .commissioning => 2
  | .member => 3
  | .spare => 4
  | .evacuating => 5
  | .failed => 6
  | .released => 7

/-- A bay changes state: BAY_STATE is journalled, a BAY event raised, STATE_AET stamped (R368). -/
def setBaySt (s : State) (b : Nat) (st : BaySt) : State :=
  match bayOf s b with
  | none => s
  | some x =>
    if x.st == st then s
    else
      let t := journal s (.bayState b (bayStNum x.st) (bayStNum st) x.profile x.uid)
      let t := updBay t b (fun y => { y with st := st, stateAet := s.cad.aet })
      raiseEvent t 3 (bayStNum st) b (bayStNum x.st)

/-- A BAY_UID added to the retired list, at most 256 (R369). -/
def retireUid (s : State) (uid : Nat) : State :=
  if uid == 0 then s
  else updMedia s (fun m => { m with retired := (uid :: m.retired.filter (fun u => u != uid)).take 256 })

/-- A block retired: RETIRE is journalled, the reserve gives one block, and the defect list gains it (R232, R238). -/
def retireBlock (s : State) (b : Madr) (cause : Nat) : State :=
  if (blkOf s b).st == .retired then s
  else
    let t := updHealth (commitRec s (.retire (blockOf b) cause)) (fun h => { h with retiredBlocks := h.retiredBlocks + 1 })
    let t := updBay t b.bay (fun x =>
      if x.defects.length < 4096 then { x with defects := x.defects ++ [(blockOf b, cause)] } else { x with overflow := true })
    match (bayOf t b.bay).bind (·.profile) with
    | none => t
    | some p => if cause == 5 then t else sealIfSpent (takeSpare t p b.bay) p

/-! ## Map requests (R205) -/

/-- An update asked of the map entry arbiter. -/
def askMap (s : State) (r : MapReq) : State := updEng s (fun e => { e with reqs := e.reqs ++ [r] })

/-- Map requester number of an agent (Table 11-3 against Table 8-11). -/
def agentMapWho : Agent → Nat
  | .rebuild => 1
  | .reserveReclaim => 2
  | .refresh => 3
  | .evacuate => 4
  | .reclaim => 5
  | .patrol => 5

/-- Die requester number of an agent (Table 9-8). -/
def agentDieWho : Agent → Nat
  | .rebuild => 3
  | .reserveReclaim => 4
  | .refresh => 5
  | .evacuate => 6
  | .reclaim => 7
  | .patrol => 9

/-- A slot's record as the medium or staging holds it. -/
def slotAt (s : State) (m : Madr) : Option SlotRec := (pageRecOf s m).bind (fun p => slotN p m.slot)

/-- A segment has a map update that waits for it. -/
def segAsked (s : State) (ns seg : Nat) : Bool :=
  s.eng.reqs.any (fun r => r.ns == ns && (r.ents.any (fun e => e.1 / 256 == seg) || (r.whole.map (fun w => w.1 == seg)).getD false))

/-- A unit has a conditional update that waits. -/
def unitAsked (s : State) (ns lba : Nat) : Bool := s.eng.reqs.any (fun r => r.ns == ns && r.ents.any (fun e => e.1 == lba))

/-- A slot's block passes GUARD and REF_TAG, as every internal move verifies (R152). -/
def slotPasses (s : State) (x : SlotRec) : Bool :=
  match x.block with | some b => (blockFault (nsFormat s x.ns) x.lba none b).isNone | none => false

/-- One unit copied to a relocation stream, and its conditional update asked (Table 8-5, R223). The copy keeps CSN, namespace and
data, with COUNT 0, and is made only of a block whose check field passes (R152). -/
def moveUnit (s : State) (ag : Agent) (ns lba : Nat) (old : Madr) : Option State :=
  match slotAt s old with
  | none => none
  | some x =>
    if !slotPasses s { x with ns := ns, lba := lba } then none
    else
      (placeSlot s .relocFine 1 (agentDieWho ag) { x with count := 0 }).map (fun ta =>
        askMap ta.1 { who := agentMapWho ag, cyc := s.now, cid := none, ns := ns, ents := [(lba, some old, some ta.2)], whole := none })

/-- The units of a segment whose slots satisfy a condition: LBA and slot; LOST units are left out. -/
def unitsWhere (i : MapImg) (ok : Madr → Bool) (x : Seg) : List (Nat × Madr) :=
  match x.kind with
  | .coarse first => (List.range 256).filterMap (fun u => (slotAfter i first u).bind (fun m => if ok m then some (256 * x.seg + u, m) else none))
  | .fine t => t.ents.filterMap (fun e => if e.lost then none else e.madr.bind (fun m => if ok m then some (256 * x.seg + e.unit, m) else none))

/-- The units of a segment that the map reaches in a set. -/
def unitsInSet (i : MapImg) (k : SetRec) (x : Seg) : List (Nat × Madr) := unitsWhere i (fun m => (blocksOfSet k).contains (blockOf m)) x

/-- A dirty or homed tile written back: a MAP-stream slot takes its image, and requester 7 is asked for its home (R203). -/
def writeTile (s : State) (ns seg : Nat) : State :=
  match segOf s.map ns seg with
  | some (.fine t) =>
    match placeSlot s .map 3 1
        { n := 0, ns := ns, lba := seg, csn := 0, count := 0
          block := some { data := tileImage ns seg t, hostMeta := zeros 48, guard := 0, appTag := 0, refTag := 0 } } with
    | none => s
    | some (s', a) =>
      let home := { t with home := some a }
      let s' := match pageRecOf s' a with
        | none => s'
        | some p => putPage s' { p with slots := p.slots.map (fun x =>
            if x.n == a.slot then { x with block := some { data := tileImage ns seg home, hostMeta := zeros 48, guard := 0, appTag := 0, refTag := 0 } } else x) }
      askMap s' { who := 7, cyc := s.now, cid := none, ns := ns, ents := [], whole := some (seg, .inr t.generation, a), capture := s.jrnl.nextSeq - 1 }
  | _ => s

end Sys2Proof.Machine
end

