-- ==== Sys2Proof/Machine/Tiers.lean ====
section
/-! DEFINITION. The size of the DRAM tile tier and of the directory pool (R199, R213), and where the tier's frames lie (R202, R212). -/
namespace Sys2Proof.Machine
open Sys2Proof

/-- A segment's set in a tier of n sets (R202). -/
def tierSet (n ns seg : Nat) : Nat :=
  (((ns - 1) * 2 ^ 30 + seg) * 0x9E3779B97F4A7C15 % 2 ^ 64 / 2 ^ 32) % n

/-- A frame of a tier that holds a segment's tile. -/
def frameIn (l : List TileFrame) (ns seg : Nat) : Option TileFrame := l.find? (fun f => f.ns == ns && f.seg == seg)

/-- Directory blocks of 64 KiB for the raw MiB in member bays, 8 bytes each (R213). -/
def dirBlocksFor (s : State) : Nat :=
  ceilDiv (8 * ((s.media.bays.filter (fun b => b.st == .member || b.st == .evacuating)).foldl (fun n b => n + b.raw / 1048576) 0)) 65536

/-- Channels of DRAM in service. -/
def dramChannels (s : State) : Nat := ((List.range 4).filter (fun c => !s.eng.dramLost.getLsbD c)).length

/-- Sets of the DRAM tile tier: what the channels in service hold beyond the other uses of Table 8-12, in sets of 17,024 bytes (R213). -/
def tierSets (s : State) : Nat :=
  let lent := s.portA.hostMap.length + s.portB.hostMap.length
  (s.kf.dramMib * 1048576 * dramChannels s / 4 - (5120 + s.kf.img.podUnits.getD 4 0) * 1048576 - s.eng.dirPool * 65536 - 15872 * lent) / 17024

/-- A frame put in the lowest free way of its set in a tier of n sets; left out where the set is full. -/
def placeFrame (n : Nat) (l : List TileFrame) (f : TileFrame) : List TileFrame :=
  let set := tierSet n f.ns f.seg
  match (List.range 8).find? (fun w => !(l.any (fun x => x.set == set && x.way == w))) with
  | some w => l ++ [{ f with set := set, way := w }]
  | none => l

/-- The frames of a tier placed again over n sets, the dirty ones first; clean ones that find no way are dropped. -/
def replaceTier (n : Nat) (l : List TileFrame) : List TileFrame := (l.filter (·.dirty) ++ l.filter (fun f => !f.dirty)).foldl (placeFrame n) []

/-- The DRAM tier at the size that the other uses leave, its frames placed again where that changes; a dirty tile that finds no way is written
back (R203, R212, R213). -/
def sizeTier (s : State) : State :=
  let n := tierSets s
  if n == s.eng.dramSets then s
  else
    let t := updEng s (fun e => { e with dramSets := n, dram := replaceTier n e.dram })
    (s.eng.dram.filter (fun f => f.dirty && (frameIn t.eng.dram f.ns f.seg).isNone)).foldl (fun t f =>
      if segAsked t f.ns f.seg then t else writeTile t f.ns f.seg) t

/-- The directory pool grown for bays that have joined, with DRAM of the tile tier (R199). -/
def growPool (s : State) : State :=
  let n := dirBlocksFor s
  if s.eng.dirPool < n then sizeTier (updEng s (fun e => { e with dirPool := n })) else s

end Sys2Proof.Machine
end

