-- ==== Sys2Proof/Machine/Members.lean ====
section
/-! DEFINITION. Members of stripe sets: which columns lack (R358), stand-in blocks (R349 to R351), block choice (R278, R279), member failures
(R346 to R348), lost rows (R360), the end of a rebuild (R358), claims (R281 to R283). -/
namespace Sys2Proof.Machine
open Sys2Proof

/-! ## Lacking columns -/

/-- A set is not yet released: some block of it on a working member still carries it without a RELEASE (R250, Table 11-5). -/
def setLive (s : State) (k : SetRec) : Bool :=
  (blocksOfSet k).any (fun b => carries s.map k b && !(blkOf s b).released && !colDown s k b)

/-- Sets that count for rebuild: closed or open, not released. -/
def liveSets (s : State) : List SetRec := s.map.sets.filter (setLive s)

/-- Rows of a set that lack exactly n members. -/
def setLack (s : State) (k : SetRec) (n : Nat) : Nat := ((List.range (liveRows k)).filter (fun r => lackRow s k r == n)).length

/-- LACKn_p; n = 0 gives FULL_p (R358). -/
def lackCount (s : State) (p n : Nat) : Nat :=
  (liveSets s).foldl (fun a k => if k.profile == p then a + setLack s k n else a) 0

/-- Rows of a set that lack a member. -/
def setLacking (s : State) (k : SetRec) : Nat := ((List.range (liveRows k)).filter (fun r => lackRow s k r != 0)).length

/-- Rows that lack a member, device-wide. -/
def lackingRows (s : State) : Nat := (liveSets s).foldl (fun a k => a + setLacking s k) 0

/-- The greatest number of members that a row of a set lacks. -/
def worstLack (s : State) (k : SetRec) : Nat := (List.range (liveRows k)).foldl (fun a r => Nat.max a (lackRow s k r)) 0

/-- Some row has no parity remaining (R355, R356). -/
def noParityLeft (s : State) : Bool := (liveSets s).any (fun k => decide (0 < worstLack s k) && decide (k.p ≤ worstLack s k))

/-- A list sorted by a comparison, stably. -/
def sortBy {α : Type} (le : α → α → Bool) (l : List α) : List α := l.foldr (insertBy le) []

/-- SYSTEM first, then MAP, then the rest (R354, R372). -/
def streamRank : Stream → Nat
  | .system => 0
  | .map => 1
  | _ => 2

/-- Lexicographic order of key lists. -/
def keyLe : List Nat → List Nat → Bool
  | [], _ => true
  | _, [] => false
  | a :: as, b :: bs => if a == b then keyLe as bs else decide (a < b)

/-- Measured fraction of a set in ppm, 0 where it has none (R317). -/
def measuredOf (s : State) (seq : Nat) : Nat := ((s.media.measured.find? (fun m => m.seq == seq)).map (·.ppm)).getD 0

/-! ## Choosing blocks (R278, R279) -/

/-- Blocks of a bay that may ever join a set: those of working dies that are not defective, beyond the descriptor blocks. -/
def usableList (f : Profile) (b : Bay) : List Madr :=
  (b.dies.filter (fun d => !b.failedDies.contains d)).flatMap (fun d =>
    (List.range f.planes).flatMap (fun pl =>
      ((List.range f.blocksPerPlane).map (fun n =>
        ({ bay := b.bay, channel := d / 32, die := d % 32, plane := pl, block := n, page := 0, slot := 0 } : Madr))).filter (fun m =>
          !(b.defects.any (fun x => x.1 == m)) && !isReserved f b m)))

/-- Block listed in a state other than ERASED. -/
def busyBlock (s : State) (m : Madr) : Bool := s.map.blocks.any (fun x => x.addr == m && x.st != .erased)

/-- OPEN blocks of a die, those about to open included (R215). -/
def openOnDie (s : State) (d : DieId) : Nat := (s.map.blocks.filter (fun x => (x.st == .opened || x.st == .taken) && dieOf x.addr == d)).length

/-- ERASED blocks of a bay on dies with fewer than 2 OPEN blocks. -/
def erasedChoices (s : State) (f : Profile) (b : Bay) : List Madr :=
  (usableList f b).filter (fun m => !busyBlock s m && decide (openOnDie s (dieOf m) < 2))

/-- The best of them: lowest PE_COUNT, then the die with fewer OPEN blocks, then the lower MADR (R278). -/
def pickBlock (s : State) (f : Profile) (b : Bay) (ok : Madr → Bool) : Option Madr :=
  (sortBy (fun x y => keyLe [(blkOf s x).pe, openOnDie s (dieOf x), madrCode x] [(blkOf s y).pe, openOnDie s (dieOf y), madrCode y])
    ((erasedChoices s f b).filter ok)).head?

/-- An agent at work that may draw on last-stand shares: REFRESH, REBUILD or RESERVE_RECLAIM (Table 11-2). -/
def lastStandWork (s : State) : Bool :=
  s.media.claims.any (fun c => c.agent == .refresh || c.agent == .rebuild || c.agent == .reserveReclaim)

/-- A bay that has just become MEMBER gives no block before the checkpoint of R247, unless the part has no checkpoint yet (R370). -/
def heldFresh (s : State) (b : Bay) : Bool := b.fresh && s.jrnl.newest.isSome

/-- A relocation destination may take an ERASED block of a bay: from the last-stand share only where `last` says so (R279, Table 11-2). -/
def bayLends (s : State) (f : Profile) (last : Bool) (b : Bay) : Bool :=
  !heldFresh s b && (decide (lastFull f b < erasedOn s f b) || (last && decide (0 < erasedOn s f b)))

/-- A stream may take an ERASED block from a bay (R279). -/
def bayGives (s : State) (p : Nat) (f : Profile) (stream : Stream) (b : Bay) : Bool :=
  let e := erasedOn s f b
  match stream with
  | .hostFine | .hostCoarse => decide (heldBack s p f b < e)
  | .map | .system => decide (0 < e)
  | .relocFine | .relocCoarse => bayLends s f (lastStandWork s) b

/-! ## Stand-ins (R349 to R351) -/

/-- Hosts for a stand-in of a column: for a die failure its own bay, else the MEMBER bay of the profile outside the set with the most
ERASED blocks, ties to the lower number; `last`: the last-stand share may be drawn on (R349, Table 11-2). -/
def standInHost (s : State) (k : SetRec) (col : Nat) (last : Bool) : Option Madr :=
  match profileOf s k.profile, colBlock k col with
  | some f, some m =>
    let own := match bayOf s m.bay with
      | some b => if b.st == BaySt.member && bayLends s f last b && b.failedDies.contains (dieNum (dieOf m)) && (blkOf s m).seq == k.seq then
                    pickBlock s f b (fun x => dieOf x != dieOf m) else none
      | none => none
    let outside := (memberBays s k.profile).filter (fun b => !(blocksOfSet k).any (fun x => x.bay == b.bay && !colDown s k x))
    let best := (sortBy (fun x y => keyLe [1000000000 - erasedOn s f x, x.bay] [1000000000 - erasedOn s f y, y.bay]) outside).head?
    own.or (best.bind (fun b => if bayLends s f last b then pickBlock s f b (fun _ => true) else none))
  | _, _ => none

/-- A SPARE bay of a profile becomes MEMBER (R349, R372): U0_b and the reserve shares are set (R267). -/
def joinMember (s : State) (b : Nat) : State :=
  let t := growPool (setBaySt s b BaySt.member)
  match bayProfile t b, bayOf t b with
  | some f, some x =>
    let u := usableBlocks t f x
    settleSegments (updBay t b (fun y => { y with u0 := u, spareLeft := Nat.max (ceilDiv (f.spareFraction * u) 10000) 2 }))
  | _, _ => t

/-- The lowest-numbered SPARE bay of a profile becomes MEMBER. -/
def useSpare (s : State) (p : Nat) : State :=
  match (profileBays s p [.spare]).head? with
  | some b => joinMember s b.bay
  | none => s

/-- A stand-in opened for a column: STAND_IN_OPEN, and its page 0 with the host's BAY_UID and its own PE_COUNT (R350). -/
def openStandIn (s : State) (k : SetRec) (col : Nat) (page0 : Madr) (who : Nat) : State :=
  let t := commitRec s (.standInOpen k.seq col page0)
  let hdr := blockHeader t k ((profileOf t k.profile).map (·.dedicated) |>.getD false) col (uidOf t page0.bay) ((blkOf t page0).pe)
  let blk : Block := { data := hdr, hostMeta := zeros 48, guard := 0, appTag := 0, refTag := 0 }
  writePage t
    { addr := page0, seq := k.seq, kind := 7, col := col, row := 0, st := .assigned, epoch := 0
      slots := (List.range 4).map (fun n => { n := n, ns := 0, lba := 0, csn := 0, count := 0, block := some blk }), parity := [] } who

/-- The page that a column held at a position of a row, its content as it was written or as parity gives it. -/
def pageAsWritten (s : State) (k : SetRec) (row col u : Nat) : Option PageRec :=
  (colBlock k col).bind (fun b => pageRecOf s { b with page := rowPage k row u })

/-- Every valid slot of a page of user data passes its check (R152). -/
def pagePasses (s : State) (p : PageRec) : Bool := !userKind p.kind || p.slots.all (slotPasses s)

/-- One row of a stand-in programmed: the same payloads as the original's pages, PAD where the row is lost or was never
written (R350), and where a block fails its check field (R152). -/
def fillStandIn (s : State) (k : SetRec) (x : StandIn) (row who : Nat) : State :=
  (List.range k.stripeUnit).foldl (fun t u =>
    let a := { x.page0 with page := rowPage k row u }
    match (if rowLost t k row then none else pageAsWritten t k row x.col u).filter (pagePasses t) with
    | some p => writePage t { p with addr := a, st := .assigned } who
    | none => writePage t (padRec k x.col row a) who) s

/-- Rows of a stand-in programmed so far: the first row without a page there. -/
def standInNext (s : State) (k : SetRec) (x : StandIn) : Nat :=
  ((List.range (liveRows k)).find? (fun r => (pageRecOf s { x.page0 with page := rowPage k r 0 }).isNone)).getD (liveRows k)

/-- Units that the map reaches in a settled stand-in row's old pages, moved to the same page and slot of the stand-in by
conditional update, tiles homed there written back (R351); units that point into an earlier, retired stand-in of the column move too (R352). -/
def moveToStandIn (s : State) (k : SetRec) (x : StandIn) (row who : Nat) : State :=
  match colBlock k x.col with
  | none => s
  | some b =>
    let stale (m : Madr) := (blkOf s m).seq == k.seq && (colOf k m).isNone
    let inRow (m : Madr) :=
      (blockOf m == blockOf b || stale m) && decide (rowPage k row 0 ≤ m.page) && decide (m.page < rowPage k (row + 1) 0)
    s.map.segs.foldl (fun t g =>
      let t := match g.kind with
        | .fine ti => if (ti.home.map inRow).getD false && !segAsked t g.ns g.seg then writeTile t g.ns g.seg else t
        | .coarse _ => t
      ((unitsWhere t.map inRow g).filter (fun u => !unitAsked t g.ns u.1)).foldl (fun t u =>
        let new := { x.page0 with page := u.2.page, slot := u.2.slot }
        askMap t { who := who, cyc := t.now, cid := none, ns := g.ns, ents := [(u.1, some u.2, some new)], whole := none }) t) s

/-! ## Claims (Tables 11-3, 11-4) -/

/-- Requester number, which is the precedence rank (Table 11-3). -/
def agentNum : Agent → Nat
  | .rebuild => 0
  | .reserveReclaim => 1
  | .refresh => 2
  | .evacuate => 3
  | .reclaim => 4
  | .patrol => 5

/-- Outcomes of a claim on a claimed set (Table 11-4). -/
inductive ClaimOut where
  | grant | refuse | preempt | takeOver | satisfied | covered
  deriving DecidableEq, Repr

/-- Table 11-4: rows are the claimant, columns the holder. -/
def claimOutcome : Agent → Agent → ClaimOut
  | .rebuild, .evacuate => .preempt
  | .rebuild, .patrol => .grant
  | .rebuild, _ => .takeOver
  | .reserveReclaim, .rebuild => .refuse
  | .reserveReclaim, .evacuate => .preempt
  | .reserveReclaim, .patrol => .grant
  | .reserveReclaim, _ => .takeOver
  | .refresh, .rebuild => .refuse
  | .refresh, .evacuate => .preempt
  | .refresh, .patrol => .grant
  | .refresh, _ => .satisfied
  | .evacuate, .rebuild => .refuse
  | .evacuate, .patrol => .grant
  | .evacuate, _ => .satisfied
  | .reclaim, .patrol => .grant
  | .reclaim, _ => .refuse
  | .patrol, .rebuild => .grant
  | .patrol, .evacuate => .grant
  | .patrol, _ => .covered

/-- The exclusive claim on a set. -/
def holderOf (s : State) (seq : Nat) : Option Claim := s.media.claims.find? (fun c => c.seq == seq && c.agent != .patrol)

/-- An agent's own claim on a set. -/
def claimOf (s : State) (ag : Agent) (seq : Nat) : Option Claim := s.media.claims.find? (fun c => c.seq == seq && c.agent == ag)

/-- A claim added. -/
def addClaim (s : State) (ag : Agent) (seq : Nat) : State :=
  updMedia s (fun m => { m with claims := m.claims ++ [{ seq := seq, agent := ag, preemptedBy := none, satisfied := [] }] })

/-- The exclusive claim on a set changed. -/
def updHolder (s : State) (seq : Nat) (f : Claim → Claim) : State :=
  updMedia s (fun m => { m with claims := m.claims.map (fun c => if c.seq == seq && c.agent != .patrol then f c else c) })

/-- A claim request judged in its turn of the arbiter (R281 to R283); open sets are never claimed, and one agent never claims a set
twice. -/
def claimSet (s : State) (ag : Agent) (seq : Nat) : State :=
  match setOf s seq with
  | none => s
  | some k =>
    if !k.closed || (claimOf s ag seq).isSome then s
    else
      match holderOf s seq with
      | none => addClaim s ag seq
      | some h =>
        match claimOutcome ag h.agent with
        | .grant => addClaim s ag seq
        | .refuse | .covered => s
        | .preempt => updHolder s seq (fun c => { c with preemptedBy := some ag })
        | .takeOver => updHolder s seq (fun c => { c with agent := ag, satisfied := c.satisfied ++ [c.agent] })
        | .satisfied => updHolder s seq (fun c => { c with satisfied := if c.satisfied.contains ag then c.satisfied else c.satisfied ++ [ag] })

/-- An agent's claim released. -/
def dropClaim (s : State) (ag : Agent) (seq : Nat) : State :=
  updMedia s (fun m => { m with claims := m.claims.filter (fun c => !(c.seq == seq && c.agent == ag)) })

/-! ## The end of a cancelled evacuation (R374) -/

/-- An evacuation operation still runs: a stand-in of an EVACUATE claim being written, or a die operation of requester 6. -/
def evacBusy (s : State) : Bool :=
  s.media.claims.any (fun c => c.agent == .evacuate && ((setOf s c.seq).map (fun k => k.standIns.any (fun x => !x.done))).getD false) ||
    anyOp s (fun o => o.who == 6)

/-- Bays whose evacuation was cancelled become MEMBER again when the last running operation has ended (R374). -/
def settleCancels (s : State) : State :=
  if evacBusy s then s
  else
    (s.media.bays.filter (fun b => b.cancelled && b.st == .evacuating)).foldl
      (fun t b => updBay (setBaySt t b.bay .member) b.bay (fun x => { x with cancelled := false, progress := 0 })) s

/-! ## Rebuild state (Table 14-5) -/

/-- REBUILDING and the REBUILD event that a change of REBUILD brings (Table 14-5). -/
def rebuildEvent (old new : Nat) : Option Nat :=
  match new with
  | 0 => some 4
  | 1 => if old == 0 || old == 3 then some 1 else some 3
  | 2 | 4 => some 2
  | 3 => some 5
  | _ => none

/-- FAILED_BAY: the lowest-numbered bay whose columns still lack (R358). -/
def failedBay (s : State) : Nat :=
  ((List.range 16).find? (fun b => (liveSets s).any (fun k =>
    decide (0 < setLacking s k) && k.cols.any (fun c => c.2.bay == b && colDown s k c.2)))).getD 0

/-- REBUILD changes with its flags, its event and its record (R357); `extra` gives flags that change in the same cycle. -/
def setRebuild (s : State) (new : Nat) (extra : List (Nat × Bool)) : State :=
  let old := s.media.rebuild
  if old == new && extra.isEmpty then s
  else
    let bay := failedBay s
    let t := updMedia s (fun m => { m with rebuild := new })
    let t := setFlags t ((bRebuilding, new == 1 || new == 2) :: extra)
    if old == new then t
    else
      let t := journal t (.rebuildState new t.media.rowsDone)
      match rebuildEvent old new with
      | some c => raiseEvent t 4 c bay (Nat.min (lackingRows t) 0xFFFFFFFF)
      | none => t

/-- No row lacks a member any more: DEGRADED and REBUILDING clear and REBUILD becomes 0 in one cycle (R358). -/
def finishRebuild (s : State) : State :=
  if lackingRows s != 0 then s
  else
    let t := updMedia s (fun m => { m with fails := [], rebuildDue := false })
    if flag t.cond bDegraded || t.media.rebuild != 0 then setRebuild t 0 [(bDegraded, false)] else t

/-- A listed set has a stand-in host for a column that lacks (R353). -/
def someHost (s : State) : Bool :=
  (liveSets s).any (fun k => decide (0 < setLacking s k) &&
    (downCols s k).any (fun c => (standInOf s k c).isSome || (standInHost s k c true).isSome))

/-! ## Member failure (R346 to R348) -/

/-- An open set with a column on the failed member (R348): with a host, the started rows are completed, the column's pages go to a
stand-in, and the set closes with its highest started row; without, rows not complete are abandoned and placed again. -/
def handleOpen (s : State) (k : SetRec) (col : Nat) : State :=
  match standInHost s k col true, openOf s k.seq with
  | some host, some o =>
    let t := padOpenRow s k.seq
    let t := openStandIn t k col host 3
    let x : StandIn := { col := col, page0 := host, rowsDone := 0, done := false }
    let t := (List.range o.nextRow).foldl (fun t r => fillStandIn t k x r 3) t
    closeSet t k.seq (if o.nextRow == 0 then none else some (o.nextRow - 1)) none
  | none, some o =>
    let complete := (List.range o.nextRow).filter (fun r => rowDone s k r && (o.rows.all (fun x => x.row != r || x.parityIssued)))
    let n := complete.length
    let t := closeSet s k.seq (if n == 0 then none else some (n - 1)) (if n < o.nextRow then some n else none)
    if n < o.nextRow then raiseTrigger t k.seq 3 else t
  | _, none => s

/-- A pending activation that holds a QUIET difference is cancelled (R52). -/
def cancelActivation (s : State) : State :=
  if s.kf.boot.pend != 0 && s.kf.pendQuiet then
    let slot := otherSlot s.kf.boot 2
    let t := putBoot s (fun r =>
      updSlot ((comps r.pend).foldl (fun r c => updSlot r (otherSlot r c) (fun x => { x with st := 1 })) { r with pend := 0 }) slot
        (fun x => { x with reason := 0x0B }))
    raiseEvent (updKf t (fun k => { k with pendQuiet := false, onShutdown := false })) 7 3 slot 0x0B
  else s

/-- A die's state as a failed die: no operation runs or waits there any more. -/
def failDie (d : DieSt) : DieSt := { d with failed := true, op := none, queue := [], suspended := none }

/-- The dies of a bay stop (R366). -/
def stopBayDies (s : State) (b : Nat) : State :=
  updMedia s (fun m =>
    { m with
      undrawn := m.undrawn.filter (fun o => o.page.bay != b)
      dies := m.dies.map (fun d => if d.id.bay == b then { d with op := none, queue := [], suspended := none } else d)
      bays := m.bays.map (fun x => if x.bay == b then { x with rewrite := none } else x) })

/-- What follows the acceptance of a member failure, its MEMBER_FAIL record durable: DEGRADED where a row lacks, the rebuild due, the open
sets handled, a QUIET activation cancelled (R347, R348, R353, R52). -/
def afterMemberFail (s : State) : State :=
  let t := if 0 < lackingRows s then
      updMedia (if flag s.cond bDegraded then s else setFlags s [(bDegraded, true)])
        (fun m => { m with rebuildDue := true, rowsTotal := m.rowsDone + lackingRows s })
    else s
  let t := t.media.opens.foldl (fun t o =>
    match setOf t o.seq with
    | none => t
    | some k => if k.closed then t else
      match (downCols t k).head? with
      | some c => finishSet (handleOpen t k c) k.seq
      | none => t) t
  settleFull (cancelActivation t)

/-- MEMBER_FAIL journalled and kept (R346). -/
def recordFail (s : State) (b : Nat) (die : Option Nat) : State :=
  let p := (((bayOf s b).bind (·.profile)).getD 0)
  let uid := uidOf s b
  let t := journal s (.memberFail b die p uid)
  updMedia t (fun m => { m with fails := m.fails ++ [{ bay := b, die := die, profile := p, uid := uid }] })

/-- A bay enters FAILED (R366, R367): isolated and powered off; a MEMBER or EVACUATING bay is a member failure; its BAY_UID is retired. -/
def bayFail (s : State) (b : Nat) : State :=
  match bayOf s b with
  | none => s
  | some x =>
    let member := x.st == .member || x.st == .evacuating
    let t := if member then recordFail s b none else s
    let t := stopBayDies t b
    let t := updBay t b (fun y => { y with connected := false, pwrEn := false, writable := false, spareLeft := 0, cancelled := false })
    let t := settleLoss (retireUid (setBaySt t b .failed) x.uid)
    if member then afterMemberFail t else t

/-- A die fails (R346): recorded, its running operation gone; when more than half of the bay's dies have failed the bay fails
(R367). -/
def dieFail (s : State) (d : DieId) : State :=
  match bayOf s d.bay with
  | none => s
  | some x =>
    let member := x.st == .member || x.st == .evacuating
    if x.failedDies.contains (dieNum d) then s
    else
      let t := if member then recordFail s d.bay (some (dieNum d)) else s
      let t := updMedia (updDie t d failDie) (fun m => { m with undrawn := m.undrawn.filter (fun o => dieOf o.page != d) })
      let t := settleLoss (updBay t d.bay (fun y => { y with failedDies := y.failedDies ++ [dieNum d], rewrite := none }))
      if x.dies.length < 2 * (x.failedDies.length + 1) then bayFail t d.bay
      else if member then afterMemberFail t else t

/-! ## Lost rows (R360) -/

/-- Units that the map reaches in given pages of a set. -/
def unitsInPages (s : State) (k : SetRec) (pages : List Madr) : List (Nat × Nat × Madr) :=
  s.map.segs.flatMap (fun x => ((unitsInSet s.map k x).filter (fun u => pages.contains (pageOf u.2))).map (fun u => (x.ns, u.1, u.2)))

/-- Namespaces of a list, each once. -/
def nsList (us : List (Nat × Nat × Madr)) : List Nat := us.foldl (fun a u => if a.contains u.1 then a else a ++ [u.1]) []

/-- A row declared lost: a lost declaration for the units in its unavailable pages under map requester 6, the other live units moved under
REBUILD, and one more lost stripe (R360). -/
def declareLost (s : State) (k : SetRec) (row : Nat) (bad : List Madr) : State :=
  if rowLost s k row then s
  else
    let us := unitsInPages s k bad
    let t := (nsList us).foldl (fun t ns =>
      askMap t
        { who := 6, cyc := t.now, cid := none, ns := ns
          ents := (us.filter (fun u => u.1 == ns)).map (fun u => (u.2.1, some u.2.2, none)), whole := none }) s
    let rest := k.cols.flatMap (fun c => (List.range k.stripeUnit).map (fun u => { c.2 with page := rowPage k row u }))
    let t := (unitsInPages t k (rest.filter (fun a => !bad.contains a))).foldl (fun t u =>
      if unitAsked t u.1 u.2.1 then t else (moveUnit t .rebuild u.1 u.2.1 u.2.2).getD t) t
    updMedia t (fun m => { m with lostRows := m.lostRows ++ [(k.seq, row)], lostStripes := m.lostStripes + 1 })

end Sys2Proof.Machine
end

