-- ==== Sys2Proof/Machine/Descriptor.lean ====
section
/-! DEFINITION. Bay descriptors (R33, R236 to R239): the pages that hold a copy, what a reader makes of them, what a writer puts there, and the
rewrite of one copy after the other by operations on the bay's dies. -/
namespace Sys2Proof.Machine
open Sys2Proof

/-! ## Pages and frames (R237) -/

/-- Data area and spare area of the page that holds a frame. -/
def descriptorPage (f : Profile) (frame : List Byte) : List Byte × List Byte :=
  ((List.range 16).flatMap (fun _ => frame), List.replicate f.spareBytes 0xFF)

/-- The byte whose bits are the majorities of the bits of 16 copies. -/
def majorityByte (copies : List Byte) : Byte :=
  BitVec.ofNat 8 ((List.range 8).foldl (fun a i => a + b2n (majority16 (copies.map (fun c => c.getLsbD i))) * 2 ^ i) 0)

/-- The frame that a reader forms from a page's data area. -/
def majorityFrame (data : List Byte) : List Byte :=
  (List.range 1024).map (fun j => majorityByte ((List.range 16).map (fun k => data.getD (1024 * k + j) 0)))

/-- The frame of a page beyond the last: FRAME_INDEX 0xFFFF_FFFF and a payload of zeros. -/
def fillerFrame (seq : Nat) : List Byte := frameWith seq 0xFFFFFFFF (zeros 1012)

/-- Low half of the DESCRIPTOR_SEQ that a copy's frames carry. -/
def copySeqLow (fs : List (List Byte)) : Option Nat := (fs.find? frameOk).map (fun f => field f 4 4)

/-- A copy's frames, those that fail their CRC taken from the other copy where its DESCRIPTOR_SEQ is equal. -/
def mendFrames (a b : List (List Byte)) : List (Option (List Byte)) :=
  (List.range a.length).map (fun i =>
    let x := a.getD i []
    let y := b.getD i []
    if frameOk x then some x
    else if frameOk y && (copySeqLow a).isSome && copySeqLow a == copySeqLow b then some y else none)

/-! ## Reading (R238, R239) -/

/-- The header passes: its MAGIC, its GUARD, and a number of frames within the limit. -/
def headerPasses (p : List Byte) : Bool :=
  field p 0 4 == 0x42445343 && field p 0x3F8 8 == (crc64 (p.take 0x3F8)).toNat && decide (field p 0x58 4 ≤ 1360)

/-- The payload of a copy whose GUARD and frames all pass; none where one does not. -/
def readCopy (a b : List (List Byte)) : Option (List Byte) :=
  let fs := mendFrames a b
  let head := (fs.take 2).flatMap (fun f => slice (f.getD []) 8 1012)
  let n := field head 0x58 4
  let whole := (List.range n).all (fun i => ((fs.getD i none).map (fun f => field f 0 4 == i && field f 4 4 == field head 8 4)).getD false)
  if headerPasses head && whole then some ((fs.take n).flatMap (fun f => slice (f.getD []) 8 1012)) else none

/-- DESCRIPTOR_SEQ of a copy as it reads; 0 where it does not pass. -/
def copySeq (a b : List (List Byte)) : Nat := ((readCopy a b).map (fun p => field p 8 8)).getD 0

/-- The payload in force: of the copies that pass, the one with the higher DESCRIPTOR_SEQ. -/
def chosenPayload (a b : List (List Byte)) : Option (List Byte) :=
  match readCopy a b, readCopy b a with
  | some x, some y => some (if field x 8 8 < field y 8 8 then y else x)
  | some x, none => some x
  | none, y => y

/-- The body of a section in a payload. -/
def payloadBody (p : List Byte) (id : Nat) : List Byte :=
  match ((List.range (Nat.min 16 (field p 0x5E 1))).map (fun i => slice p (0x80 + 16 * i) 16)).find? (fun e => field e 0 2 == id) with
  | some e => slice p (field e 4 4) (field e 8 4)
  | none => []

/-- The defect list of a payload. -/
def payloadDefects (bay : Nat) (p : List Byte) : List (Madr × Nat) :=
  (List.range (Nat.min 4096 (field p 0x70 4))).map (fun i =>
    let x := field p (field p 0x74 4 + 8 * i) 8
    ({ madrOfCode (x % 2 ^ 48) with bay := bay }, bits x 55 48))

/-- What a descriptor says. -/
structure DescriptorInfo where
  seq : Nat
  uid : Nat
  tigrim : Nat
  bindingHash : Nat
  tablesHash : Nat
  imageId : Nat
  createdAet : Nat
  lastBlockSeq : Nat
  defects : List (Madr × Nat)
  overflow : Bool
  deriving DecidableEq, Repr

/-- The descriptor that a payload is. -/
def payloadInfo (bay : Nat) (p : List Byte) : DescriptorInfo where
  seq := field p 8 8
  uid := field p 0x10 8
  tigrim := field p 4 2
  bindingHash := sectionsKey (payloadBody p) true
  tablesHash := sectionsKey (payloadBody p) false
  imageId := field p 0x28 8
  createdAet := field p 0x18 8
  lastBlockSeq := field p 0x68 8
  defects := payloadDefects bay p
  overflow := field p 0x5F 1 % 2 == 1

/-- The frames that the pages of a survey give. -/
def surveyFrames (pages : List (List Byte)) : List (List Byte) := pages.map majorityFrame

/-- The descriptor of a surveyed bay; none where no copy passes. -/
def surveyInfo (bay : Nat) (v : BaySurvey) : Option DescriptorInfo :=
  (chosenPayload (surveyFrames v.pagesA) (surveyFrames v.pagesB)).map (payloadInfo bay)

/-! ## Writing (R236, R238) -/

/-- The blocks of a copy: of plane 0 of die 0 of its channel, the factory-defective ones skipped. -/
def copyBlocks (f : Profile) (b : Bay) (channel : Nat) : List Madr :=
  ((List.range (reservedBlocks f b channel)).map (fun n =>
    ({ bay := b.bay, channel := channel, die := 0, plane := 0, block := n, page := 0, slot := 0 } : Madr))).filter (fun m =>
      !b.defects.any (fun d => d.1 == m && d.2 == 1))

/-- SECTION_FORMAT and body of a section as the bay's descriptor is to carry it: the image's, or for an adopted profile the one it carries
already. -/
def bodyFor (s : State) (b : Bay) (id : Nat) : Nat × List Byte :=
  match b.profile, b.profile.bind (profileOf s) with
  | some p, some f =>
    if f.adopted then
      let old := (chosenPayload b.copyA b.copyB).getD []
      (1, payloadBody old id)
    else (((sectionOf s.kf.imgBytes id p).map (·.format)).getD 1, bodyOf s.kf.imgBytes id p)
  | _, _ => (1, [])

/-- The first multiple of 64 at or above a number. -/
def align64 (n : Nat) : Nat := ceilDiv n 64 * 64

/-- Section table entries and bodies laid out from an offset on, each body at a multiple of 64; the offset after them. -/
def laySections (s : State) (b : Bay) : List Nat → Nat → List (Nat × Nat × Nat × Nat × Nat) × List Byte × Nat
  | [], o => ([], [], o)
  | id :: ids, o =>
    let x := bodyFor s b id
    let next := align64 (o + x.2.length)
    let r := laySections s b ids next
    ((id, x.1, o, x.2.length, (crc32c x.2).toNat) :: r.1, padTo (next - o) x.2 ++ r.2.1, r.2.2)

/-- The payload of a copy: the header, the ten sections, the defect list (R238). -/
def composePayload (s : State) (b : Bay) (copy seq lastSeq : Nat) : List Byte :=
  let r := laySections s b [0x02, 0x03, 0x04, 0x05, 0x06, 0x07, 0x08, 0x09, 0x0A, 0x0B] 1024
  let length := r.2.2 + 8 * b.defects.length
  let reserved := match b.profile.bind (profileOf s) with | some f => reservedBlocks f b copy | none => 0
  descriptorHeader s b copy seq b.createdAet lastSeq (b.profile.getD 0xFF) length (ceilDiv length 1012) r.2.2 reserved r.1
    ++ r.2.1 ++ b.defects.flatMap defectEntry

/-- Pages of a copy's blocks. -/
def copyPages (f : Profile) (b : Bay) (copy : Nat) : List Madr :=
  (copyBlocks f b copy).flatMap (fun m => (List.range f.pagesPerBlock).map (fun n => { m with page := n }))

/-- The frames of a copy, page after page; the pages beyond the last hold fillers (R237). -/
def copyFrames (s : State) (b : Bay) (copy seq lastSeq : Nat) : List (List Byte) :=
  match b.profile.bind (profileOf s) with
  | none => []
  | some f =>
    let p := composePayload s b copy seq lastSeq
    let n := ceilDiv p.length 1012
    (List.range n).map (fun i => descriptorFrame seq i p) ++ List.replicate ((copyPages f b copy).length - n) (fillerFrame seq)

/-! ## Rewriting (R239) -/

/-- The highest block sequence number on a bay. -/
def bayHighSeq (s : State) (b : Nat) : Nat := (s.map.blocks.filter (fun x => x.addr.bay == b)).foldl (fun n x => Nat.max n x.seq) 0

/-- The operation that a rewrite is at: the copy's blocks erased, its pages programmed and then read back with the built-in sequences (R33);
none when all have ended. -/
def rewriteOp (s : State) (b : Bay) (r : Rewrite) : Option DieOp :=
  match b.profile.bind (profileOf s) with
  | none => none
  | some f =>
    let blocks := copyBlocks f b r.copy
    let pages := copyPages f b r.copy
    if r.step < blocks.length then (blocks[r.step]?).map (fun m => mkOp s 4 m 11)
    else if r.step < blocks.length + pages.length then (pages[r.step - blocks.length]?).map (fun m => mkOp s builtinProgram m 10)
    else (pages[r.step - blocks.length - pages.length]?).map (fun m => mkOp s builtinRead m 10)

/-- The frames of a copy changed. -/
def setCopy (copy seq : Nat) (frames : List (List Byte)) (b : Bay) : Bay :=
  if copy == 0 then { b with seqA := seq, copyA := frames } else { b with seqB := seq, copyB := frames }

/-- The operation that a bay's rewrite is at asked of its die. -/
def issueRewrite (s : State) (bay : Nat) : State :=
  match bayOf s bay with
  | none => s
  | some b => match b.rewrite.bind (rewriteOp s b) with
    | some op => issueOp s op
    | none => s

/-- A copy's rewrite begun: from its first erase on it is readable no more. -/
def beginCopy (s : State) (b : Bay) (copy seq : Nat) (second : Bool) : State :=
  issueRewrite (updBay s b.bay (fun x =>
    { setCopy copy 0 [] x with
      rewrite := some { copy := copy, second := second, seq := seq, step := 0, frames := copyFrames s { b with imageId := s.kf.run.imageId } copy seq (bayHighSeq s b.bay) } }))
    b.bay

/-- A descriptor's rewrite begun with the copy of the lower DESCRIPTOR_SEQ, copy A where they are equal, under one above the higher. -/
def beginRewrite (s : State) (b : Bay) : State :=
  beginCopy s b (if b.seqA ≤ b.seqB then 0 else 1) (Nat.max b.seqA b.seqB + 1) false

/-- An operation of a bay's rewrite ended: the next one follows; one that failed ends the rewrite with its copy unreadable. -/
def advanceRewrite (s : State) (bay : Nat) (op : DieOp) (ok : Bool) : State :=
  match bayOf s bay with
  | none => s
  | some b =>
    match b.rewrite with
    | none => s
    | some r =>
      if !(rewriteOp s b r).any (fun o => o.seqNo == op.seqNo && o.page == op.page) then s
      else if !ok then updBay s bay (fun x => { x with rewrite := none })
      else
        let written := if op.seqNo == builtinProgram then 1 else 0
        let have_ := if r.copy == 0 then b.copyA else b.copyB
        let t := updBay s bay (fun x =>
          { setCopy r.copy 0 (have_ ++ (r.frames.drop have_.length).take written) x with rewrite := some { r with step := r.step + 1 } })
        issueRewrite t bay

/-- The image's tables of a bay's profile differ from those in its descriptor (R48). -/
def tablesDiffer (s : State) (b : Bay) : Bool :=
  match b.profile.bind (profileOf s) with | some f => f.tablesHash != b.tablesHash | none => false

/-- A rewrite is called for: a copy is behind the other, other table contents (R48), a longer defect list at most once an hour, or
LAST_BLOCK_SEQ too far behind. -/
def rewriteDue (s : State) (b : Bay) : Bool :=
  b.seqA != b.seqB || tablesDiffer s b ||
    (decide (b.listedDefects < b.defects.length) && decide (b.rewrittenAt + 3600 ≤ aetSec s.cad.aet)) ||
    decide (b.lastBlockSeq + 2 ^ 20 < bayHighSeq s b.bay)

/-- A bay's descriptor may be rewritten. -/
def mayRewrite (s : State) (b : Bay) : Bool :=
  (b.st == .member || b.st == .spare || b.st == .evacuating) && b.writable && b.profile.isSome && s.jrnl.stopFrom.isNone

/-- A copy whose read-back passed stands: the other copy follows with the same number, or the rewrite is done. -/
def standCopy (s : State) (b : Bay) (r : Rewrite) : State :=
  let t := updBay s b.bay (setCopy r.copy r.seq r.frames)
  if !r.second then
    match bayOf t b.bay with
    | some x => beginCopy t x (1 - r.copy) r.seq true
    | none => t
  else
    updBay t b.bay (fun x =>
      { x with
        rewrite := none, rewrittenAt := aetSec s.cad.aet, listedDefects := b.defects.length, lastBlockSeq := bayHighSeq s b.bay
        imageId := s.kf.run.imageId, tigrim := 1
        tablesHash := ((b.profile.bind (profileOf s)).map (·.tablesHash)).getD b.tablesHash })

/-- Every frame that a read-back gives passes its CRC and is the one written. -/
def readBackGood (r : Rewrite) (pages : List (List Byte)) : Bool :=
  pages.length == r.frames.length && ((surveyFrames pages).zip r.frames).all (fun x => frameOk x.1 && x.1 == x.2)

/-- DESCRIPTOR_REWRITE (R239): where a rewrite is called for it begins; where the pages of the copy in hand have been read back it is checked:
a good copy stands and the other one follows, a bad one is to be written again. -/
def execDescriptorRewrite (bay : Nat) (readBack : List (List Byte)) (s : State) : Host.Outcome State Fault Refusal :=
  match bayOf s bay with
  | none => .next s
  | some b =>
    if !mayRewrite s b then .next s
    else match b.rewrite with
      | none => if rewriteDue s b then .next (beginRewrite s b) else .next s
      | some r =>
        if (rewriteOp s b r).isSome then .next s
        else if readBackGood r readBack then .next (standCopy s b r)
        else .next (updBay s bay (fun x => { x with rewrite := none }))

/-- The rewrites that a new image's tables call for begin with a checkpoint (R48). -/
def rewriteTables (s : State) : State :=
  (s.media.bays.filter (fun b => mayRewrite s b && tablesDiffer s b && b.rewrite.isNone)).foldl beginRewrite s

/-- Such a rewrite still runs: the checkpoint waits for it (R48) (assumption 50). -/
def tablesBusy (s : State) : Bool := s.media.bays.any (fun b => mayRewrite s b && tablesDiffer s b && b.rewrite.isSome)

end Sys2Proof.Machine
end

