-- ==== Sys2Proof/Machine/Readers.lean ====
section
/-! DEFINITION. Reading a medium that another controller wrote (R225, R240, R249, R257, R376, R378): block headers, the checkpoint root with its
index and pieces, tiles, journal records, and the map that they give. -/
namespace Sys2Proof.Machine
open Sys2Proof

/-! ## Block headers (Table 9-5) -/

/-- A block header's GUARD and MAGIC pass. -/
def headerGood (h : List Byte) : Bool := field h 0 4 == 0x424C4B48 && field h 0x1F8 8 == (crc64 (h.take 0x1F8)).toNat

/-- The header of a block: the first of the copies in its page 0 whose GUARD passes (R225). -/
def readHeader (copies : List (List Byte)) : Option (List Byte) := copies.find? headerGood

/-- The headers that a survey or import finds, each with its block. -/
def headersOf (l : List (Madr × List (List Byte))) : List (Madr × List Byte) := l.filterMap (fun x => (readHeader x.2).map (fun h => (x.1, h)))

def hdrStream (h : List Byte) : Nat := field h 6 1
def hdrColumn (h : List Byte) : Nat := field h 7 1
def hdrSeq (h : List Byte) : Nat := field h 8 8
def hdrOpenAet (h : List Byte) : Nat := field h 0x10 8
def hdrW (h : List Byte) : Nat := field h 0x20 1
def hdrP (h : List Byte) : Nat := field h 0x21 1
def hdrUnit (h : List Byte) : Nat := field h 0x22 1
def hdrRows (h : List Byte) : Nat := field h 0x24 2

/-- COLUMN_MAP of a header: column, BAY_UID, block with BAY zero. -/
def hdrColumns (h : List Byte) : List (Nat × Nat × Madr) :=
  (List.range (hdrW h)).map (fun c => (c, field h (0x30 + 16 * c) 8, madrOfCode (field h (0x38 + 16 * c) 8 % 2 ^ 48)))

/-! ## The root (Table 10-4) -/

/-- A root passes its MAGIC and GUARD, and its index the INDEX_CRC. -/
def rootPasses (root index : List Byte) : Bool :=
  field root 0 4 == 0x434B5054 && field root 0xFF8 8 == (crc64 (root.take 0xFF8)).toNat && field root 0x4C 4 == (crc32c index).toNat

/-- BAY_TABLE: the BAY_UID at each position. -/
def bayTable (root : List Byte) : List Nat := (List.range 16).map (fun o => field root (0x50 + 8 * o) 8)

def rootSeq (root : List Byte) : Nat := field root 8 8
def rootCut (root : List Byte) : Nat := field root 0x18 8
def rootReplay (root : List Byte) : Nat := field root 0x20 8

/-- The root of several with the highest CKPT_SEQ among those that pass and whose BAY_TABLE holds a BAY_UID (R376). -/
def newestRoot (roots : List (List Byte × List Byte)) (uid : Nat) : Option (List Byte) :=
  ((roots.filter (fun r => rootPasses r.1 r.2 && (bayTable r.1).contains uid)).map (·.1)).foldl (fun best r =>
    match best with
    | none => some r
    | some b => if rootSeq b < rootSeq r then some r else best) none

/-- NAMESPACE_TABLE of a root. -/
def rootNamespaces (root : List Byte) : List Namespace :=
  ((List.range 64).map (fun n => slice root (0xD0 + 32 * n) 32)).filterMap (fun e =>
    if field e 0 1 == 0 then none
    else some
      { nsid := field e 0 1, st := .ready, format := field e 2 1, fine := field e 3 1 == 1, segments := field e 4 4, createdAet := field e 8 8 })

/-! ## The survey of an import (R376) -/

/-- The group: the INSERTED bays whose BAY_UIDs the newest root that names the bay lists. -/
def importGroup (s : State) (root : List Byte) : List Nat :=
  (s.media.bays.filter (fun b => b.st == .inserted && b.uid != 0 && (bayTable root).contains b.uid)).map (·.bay)

/-- Headers that lie in bays of a group, of sets that checkpoint and journal do not show released. -/
def groupHeaders (v : ImportSurvey) (group : List Nat) : List (Madr × List Byte) :=
  (headersOf v.headers).filter (fun x => group.contains x.1.bay && !v.released.contains (hdrSeq x.2))

/-- No set of the group lacks more columns than its P (R240). -/
def withinParity (v : ImportSurvey) (group : List Nat) : Bool :=
  let hs := groupHeaders v group
  hs.all (fun x =>
    let cols := ((hs.filter (fun y => hdrSeq y.2 == hdrSeq x.2)).map (fun y => hdrColumn y.2)).foldl (fun a c => if a.contains c then a else a ++ [c]) []
    decide (hdrW x.2 ≤ cols.length + hdrP x.2))

/-- Distinct sets of descriptor sections in a group that match no profile of the image (R377). -/
def foreignSections (s : State) (group : List Nat) : List (Nat × Nat) :=
  (s.media.bays.filter (fun b => group.contains b.bay && !s.kf.img.profiles.any (fun f => f.bindingHash == b.bindingHash))).foldl
    (fun a b => if a.contains (b.bindingHash, b.tablesHash) then a else a ++ [(b.bindingHash, b.tablesHash)]) []

/-- Every descriptor of a group has a Tigrim version that the firmware reads: version 1 up to the version it writes (R45). -/
def tigrimReadable (s : State) (group : List Nat) : Bool :=
  s.media.bays.all (fun b => !group.contains b.bay || (decide (1 ≤ b.tigrim) && decide (b.tigrim ≤ Nat.max 1 s.kf.run.tigrimWrite)))

/-! ## Positions (R249) -/

/-- Where each position of a BAY_TABLE lies now: with the bay of the same BAY_UID among those given, else, for a bay that is missing, at a
position that no bay of the group takes: old position, new position, BAY_UID. -/
def bayMoves (s : State) (group : List Nat) (root : List Byte) : List (Nat × Nat × Nat) :=
  let table := (List.range 16).zip (bayTable root)
  let now (uid : Nat) : Option Nat := (s.media.bays.find? (fun b => group.contains b.bay && b.uid == uid)).map (·.bay)
  let free := (List.range 16).filter (fun n => !group.contains n)
  let gone := table.filter (fun x => x.2 != 0 && (now x.2).isNone)
  (table.filterMap (fun x => if x.2 == 0 then none else (now x.2).map (fun n => (x.1, n, x.2))))
    ++ (gone.zip free).map (fun x => (x.1.1, x.2, x.1.2))

/-- An address with the BAY field of its new position. -/
def moveMadr (mv : List (Nat × Nat × Nat)) (m : Madr) : Madr :=
  { m with bay := ((mv.find? (fun x => x.1 == m.bay)).map (·.2.1)).getD m.bay }

/-- The position of a BAY_UID. -/
def uidAt (mv : List (Nat × Nat × Nat)) (uid : Nat) : Nat := ((mv.find? (fun x => x.2.2 == uid)).map (·.2.1)).getD 16

/-! ## Journal records (Tables 10-2, 10-3, 14-4, 15-4) -/

/-- A 48-bit address at an offset, at its new position. -/
def recMadr (mv : List (Nat × Nat × Nat)) (b : List Byte) (o : Nat) : Madr := moveMadr mv (madrOfCode (field b o 6))

/-- What a record says; widths and ages of a set come from its header, and the AET of a loss is not recorded. -/
def recBody (mv : List (Nat × Nat × Nat)) (hs : List (Madr × List Byte)) (b : List Byte) : Option JRec :=
  let f (o n : Nat) : Nat := field b o n
  match f 0 1 with
  | 0x01 => some (.map (f 16 8) (f 24 1) (f 25 1) ((List.range (f 26 2)).map (fun i =>
      let code := f (40 + 16 * i) 6
      { lba := f (32 + 16 * i) 8, madr := if code == 0 then madrOfCode 0 else recMadr mv b (40 + 16 * i), count := f (46 + 16 * i) 2 })))
  | 0x02 => some (.dealloc (f 16 8) (f 24 1) (f 32 8) (f 40 4))
  | 0x03 => some (.lost (f 16 1) (f 24 8) (f 32 4) 0 false)
  | 0x04 => some (.tileHome (f 16 1) (f 20 4) (recMadr mv b 24) (f 32 8) (f 40 8))
  | 0x05 => some (.nspace (f 16 8) (f 24 1) (f 25 1 == 1) (f 26 1) (f 27 1 == 1) (f 28 4) 0)
  | 0x06 =>
    let h := ((hs.find? (fun x => hdrSeq x.2 == f 16 8)).map (·.2)).getD []
    some (.setOpen (f 16 8) (streamOf (f 24 1)) (f 25 1) (f 26 1) (hdrP h) (hdrUnit h) (hdrRows h) (hdrOpenAet h)
      ((List.range (f 26 1)).map (fun c => (c, { madrOfCode (f (40 + 16 * c) 6) with bay := uidAt mv (f (32 + 16 * c) 8) }))))
  | 0x07 => some (.setClose (f 16 8) (if f 24 2 == 0xFFFF then none else some (f 24 2)) (if f 26 2 == 0xFFFF then none else some (f 26 2)))
  | 0x08 => some (.release (recMadr mv b 16))
  | 0x09 => some (.erased (recMadr mv b 16) (f 24 4))
  | 0x0A => some (.retire (recMadr mv b 16) (f 22 1))
  | 0x0B => some (.csnReserve (f 16 8))
  | 0x0C => some (.checkpoint (f 16 8) (some (recMadr mv b 24)))
  | 0x10 => some (.memberFail (f 16 1) (if f 17 1 == 0xFF then none else some (f 17 1)) (f 18 1) (f 24 8))
  | 0x11 => some (.standInOpen (f 16 8) (f 24 1) (recMadr mv b 26))
  | 0x12 => some (.standInDone (f 16 8) (f 24 1))
  | 0x13 => some (.rebuildState (f 16 1) (f 24 8))
  | 0x18 => some (.bayState (f 16 1) (f 17 1) (f 18 1) (if f 19 1 == 0xFF then none else some (f 19 1)) (f 24 8))
  | 0x19 => some (.evacProgress (f 16 1) (f 24 4))
  | 0x1A => some (.importDone (f 16 8) (f 24 8))
  | _ => none

/-- A record that passes its CRC; one of a reserved type is invalid (R244). -/
def readRec (mv : List (Nat × Nat × Nat)) (hs : List (Madr × List Byte)) (b : List Byte) : Option StagedRec :=
  let n := field b 2 2
  if b.length != 16 * (if n == 0 then 4096 else n) || field b 4 4 != (crc32cZeroed b 4).toNat then none
  else (recBody mv hs b).map (fun r => { jseq := field b 8 8, body := r, durable := true, onMedium := true })

/-- Records in JSEQ order, each JSEQ once, from a first one on, up to the first that is missing (R257). -/
def runFrom (l : List StagedRec) : Nat → Nat → List StagedRec
  | _, 0 => []
  | j, n + 1 => match l.find? (fun r => r.jseq == j) with
    | some r => r :: runFrom l (j + 1) n
    | none => []

/-! ## Pieces and tiles (Tables 8-3, 8-6, 10-5, 10-6) -/

/-- A tile's image: namespace, segment, tile. -/
def readTile (mv : List (Nat × Nat × Nat)) (b : List Byte) : Nat × Nat × Tile :=
  let ents := (List.range 256).filterMap (fun u =>
    let x := field b (8 * u) 8
    if bits x 50 48 == 1 || bits x 52 52 == 1 then
      some ({ unit := u, madr := if bits x 50 48 == 1 then some (moveMadr mv (madrOfCode (x % 2 ^ 48))) else none, lost := bits x 52 52 == 1 } : TileEnt)
    else none)
  (field b 0x805 1, field b 0x808 4,
    { ents := ents, generation := field b 0x810 8, home := none, lastCsn := field b 0x820 8, dirtySince := none })

/-- Index entries: address, KIND, PIECE_NUMBER, CAPTURE_JSEQ. -/
def readIndex (index : List Byte) : List (Nat × Nat × Nat × Nat) :=
  (List.range (index.length / 32)).map (fun i =>
    let e := slice index (32 * i) 32
    (field e 0 6, field e 6 1, field e 8 4, field e 16 8))

/-- The directory entries of a directory block, element n of a namespace's list; a FINE segment's tile is the one read at its home. -/
def readDirBlock (mv : List (Nat × Nat × Nat)) (tiles : List (Nat × Nat × Tile)) (ns n : Nat) (b : List Byte) : List Seg :=
  (List.range 8192).filterMap (fun i =>
    let x := field b (8 * i) 8
    let seg := 8192 * n + i
    let m := moveMadr mv (madrOfCode (x % 2 ^ 48))
    match bits x 50 48 with
    | 2 => some { ns := ns, seg := seg, kind := .coarse m }
    | 3 =>
      (tiles.find? (fun t => t.1 == ns && t.2.1 == seg)).map (fun t =>
        { ns := ns, seg := seg, kind := .fine { t.2.2 with home := if bits x 51 51 == 1 then none else some m } })
    | _ => none)

/-- The lists of directory blocks that a directory root gives the namespaces, one after the other by NSID (R199, assumption 51). -/
def giveDirs : List Namespace → List Nat → List Namespace
  | [], _ => []
  | x :: xs, l => { x with dirs := l.take (ceilDiv x.segments 8192) } :: giveDirs xs (l.drop (ceilDiv x.segments 8192))

/-- Block numbers in a directory root. -/
def readDirRoot (b : List Byte) : List Nat := (List.range (b.length / 4)).map (fun n => field b (4 * n) 4)

/-- Namespace and list element of a directory block number. -/
def dirElement (nss : List Namespace) (n : Nat) : Option (Nat × Nat) :=
  nss.findSome? (fun x => ((List.range x.dirs.length).zip x.dirs).findSome? (fun d => if d.2 == n then some (x.nsid, d.1) else none))

/-- LOST_LBA entries of a piece. -/
def readLost (b : List Byte) : List LostEnt :=
  (List.range 128).filterMap (fun i =>
    let e := slice b (32 * i) 32
    if field e 0 1 == 0 then none else some { ns := field e 0 1, lba := field e 8 8, count := field e 16 4, aet := field e 24 8 })

/-- Block states by their numbers (Table 10-6). -/
def blkStOf (n : Nat) : BlkSt := ([BlkSt.erased, .opened, .closed, .verified, .retired] : List BlkSt).getD n .erased

/-- Block table entries of a piece, for the blocks that it covers. -/
def readTable (index : List Madr) (n : Nat) (b : List Byte) : List BlockRec :=
  ((List.range 4096).zip ((index.drop (4096 * n)).take 4096)).map (fun x =>
    let lo := field b (16 * x.1) 8
    let hi := field b (16 * x.1 + 8) 8
    { addr := x.2, seq := lo, st := blkStOf (bits hi 2 0), released := bits hi 3 3 == 1, pe := bits hi 23 4 })

/-- Blocks of a bay of a profile: dies by planes by blocks. -/
def bayBlocks (f : Profile) (b : Bay) : List Madr :=
  b.dies.flatMap (fun d => (List.range f.blocksPerPlane).flatMap (fun k => (List.range f.planes).map (fun p =>
    { bay := b.bay, channel := d / 32, die := d % 32, plane := p, block := k, page := 0, slot := 0 })))

/-- The blocks of a bay in ascending order of their addresses. -/
def sortedBlocks (s : State) (n : Nat) : List Madr :=
  match bayOf s n, bayProfile s n with
  | some b, some f => sortBy (fun x y => decide (madrCode x ≤ madrCode y)) (bayBlocks f b)
  | _, _ => []

/-- The blocks in the order of their index, by the positions of a BAY_TABLE (R249). -/
def foundIndex (s : State) (mv : List (Nat × Nat × Nat)) : List Madr :=
  (sortBy (fun x y => decide (x.1 ≤ y.1)) mv).flatMap (fun x => sortedBlocks s x.2.1)

/-! ## Stripe sets from their headers (R214, R350) -/

/-- A set as a header and the block table show it; blocks whose own place differs from COLUMN_MAP are its stand-ins. -/
def readSet (s : State) (mv : List (Nat × Nat × Nat)) (hs : List (Madr × List Byte)) (blocks : List BlockRec) (pages : List PageRec)
    (h : List Byte) : SetRec :=
  let cols := (hdrColumns h).map (fun c => (c.1, { c.2.2 with bay := uidAt mv c.2.1 }))
  let mine := hs.filter (fun x => hdrSeq x.2 == hdrSeq h)
  let top := (pages.filter (fun p => p.seq == hdrSeq h && p.st == .done && p.addr.page != 0 && p.kind != 8)).map (·.row)
  { seq := hdrSeq h, stream := streamOf (hdrStream h), profile := ((cols.findSome? (fun c => (bayOf s c.2.bay).bind (·.profile)))).getD 0
    w := hdrW h, p := hdrP h, stripeUnit := hdrUnit h, rows := hdrRows h, openAet := hdrOpenAet h, cols := cols
    closed := !blocks.any (fun b => b.seq == hdrSeq h && b.st == .opened)
    lastValid := match top with | [] => none | r :: rs => some (rs.foldl Nat.max r)
    firstAbandoned := none
    standIns := (mine.filter (fun x => !cols.any (fun c => c.2 == x.1))).map (fun x =>
      { col := hdrColumn x.2, page0 := x.1, rowsDone := hdrRows x.2, done := true }) }

/-- The sets of the headers that the block table shows in use. -/
def readSets (s : State) (mv : List (Nat × Nat × Nat)) (hs : List (Madr × List Byte)) (blocks : List BlockRec) (pages : List PageRec) : List SetRec :=
  let used := hs.filter (fun x => blocks.any (fun b => b.addr == x.1 && b.seq == hdrSeq x.2 && b.st != .erased && b.st != .retired))
  let once := used.foldl (fun a x => if a.any (fun y => hdrSeq y == hdrSeq x.2) then a else a ++ [x.2]) ([] : List (List Byte))
  sortBy (fun x y => decide (x.seq ≤ y.seq)) (once.map (readSet s mv hs blocks pages))

/-! ## The whole medium -/

/-- What a medium's root, pieces, tiles, headers and records say, at the present positions: the map at the root's capture, the records that
replay takes after it, and the highest numbers found. -/
structure Found where
  img : MapImg
  records : List StagedRec
  missing : List (Nat × Nat)
  root : Madr
  clean : Bool
  cut : Nat
  ckptSeq : Nat
  csnLast : Nat
  csnHigh : Nat
  jseqHigh : Nat
  blockSeqHigh : Nat
  deriving DecidableEq, Repr

/-- The map at the capture of a root. -/
def rootMap (s : State) (mv : List (Nat × Nat × Nat)) (r : ImportResult) : MapImg :=
  let ps := (readIndex r.index).zip r.pieces
  let nss := giveDirs (rootNamespaces r.root) (((ps.find? (fun x => x.1.2.1 == 3)).map (fun x => readDirRoot x.2)).getD [])
  let tiles := (r.tiles.filter (fun b => tileImageOk (field b 0x805 1) (field b 0x808 4) b)).map (readTile mv)
  let index := foundIndex s mv
  let segs := ps.flatMap (fun x => if x.1.2.1 == 1 then (match dirElement nss x.1.2.2.1 with | some e => readDirBlock mv tiles e.1 e.2 x.2 | none => []) else [])
  let blocks := ps.flatMap (fun x => if x.1.2.1 == 2 then readTable index x.1.2.2.1 x.2 else [])
  let lost := ps.flatMap (fun x => if x.1.2.1 == 4 then readLost x.2 else [])
  { nss := nss, segs := segs, lost := lost, sets := readSets s mv (headersOf r.headers) blocks r.pages
    blocks := blocks.filter (fun b => b.st != .erased || b.seq != 0) }

/-- The medium read (R240, R257, R378). -/
def readMedium (s : State) (group : List Nat) (r : ImportResult) : Found :=
  let mv := bayMoves s group r.root
  let hs := headersOf r.headers
  let all := r.records.filterMap (readRec mv hs)
  let recs := runFrom all (rootReplay r.root) all.length
  let reserved := all.foldl (fun n x => match x.body with | .csnReserve c => Nat.max n c | _ => n) (field r.root 0x28 8)
  { img := rootMap s mv r, records := recs
    missing := ((mv.filter (fun x => !group.contains x.2.1)).map (fun x => (x.2.1, x.2.2)))
    root := r.rootAt, clean := field r.root 6 2 % 2 == 1, cut := rootCut r.root, ckptSeq := rootSeq r.root, csnLast := field r.root 0x30 8
    csnHigh := r.pages.foldl (fun n p => if p.kind == 1 || p.kind == 2 then p.slots.foldl (fun n x => Nat.max n x.csn) n else n) reserved
    jseqHigh := all.foldl (fun n x => Nat.max n x.jseq) (rootCut r.root)
    blockSeqHigh := hs.foldl (fun n x => Nat.max n (hdrSeq x.2)) (field r.root 0x38 8) }

end Sys2Proof.Machine
end

