-- ==== Sys2Proof/Machine/Checkpoints.lean ====
section
/-! DEFINITION. What stands on the medium: stripe-journal cover (R341), the newest durable checkpoint (R248) and stop records (R254). -/
namespace Sys2Proof.Machine
open Sys2Proof

/-- A slot lies in a row that was abandoned (R228). -/
def slotAbandoned (s : State) (m : Madr) : Bool :=
  match setAt s.map m with
  | none => false
  | some k => match k.firstAbandoned, pageRow k m.page with | some a, some r => decide (a ≤ r) | _, _ => false

/-! ## Cover (R341, R343, R388) -/

/-- The limits of a record taken into the open sets. -/
def applyLimits (s : State) (es : List SjEntry) : State :=
  es.foldl (fun t e => updOpen t e.seq (fun o => { o with limitRow := Nat.max o.limitRow e.limitRow })) s

/-- A copy of a stripe-journal record failed its program, or its row was abandoned. -/
def copyLost (s : State) (m : Madr) : Bool :=
  slotAbandoned s m || (match pageRecOf s m with | none => true | some p => p.st == .failed)

/-- One record judged: cover once both copies are DONE and its FRONTIER frame is acknowledged; made again where a copy failed. -/
def settleWait (s : State) (w : SjWait) : State :=
  let done (m : Madr) := ((pageRecOf s m).map (fun p => p.st == .done)).getD false
  let drop (t : State) := updMedia t (fun m => { m with sjWait := m.sjWait.filter (fun x => x != w) })
  if copyLost s w.copyA || copyLost s w.copyB then updMedia (drop s) (fun m => { m with sjDue := true })
  else if done w.copyA && done w.copyB && w.fseq.all (acked s) then applyLimits (drop s) w.entries
  else s

/-- Every record that waits judged. -/
def settleCover (s : State) : State := s.media.sjWait.foldl settleWait s

/-! ## The newest checkpoint (R248) -/

/-- CUT_JSEQ of the newest checkpoint; 0 where there is none. -/
def lastCut (s : State) : Nat := (s.jrnl.newest.map (·.cut)).getD 0

/-- The highest durable JSEQ. -/
def highestDurable (s : State) : Nat :=
  match s.jrnl.recs.find? (fun r => !r.durable) with
  | some r => r.jseq - 1
  | none => s.jrnl.nextSeq - 1

/-- The highest CSN assigned so far: since PORST_N, or before the last interruption. -/
def lastCsn (s : State) : Nat :=
  if s.csnIssued != 0 then s.csnIssued else Nat.max s.portA.res.csnLast s.portB.res.csnLast

/-- The sectors of the restart records (Table 19-1). -/
def stopRegion : List Nat := [0x3860000, 0x3870000]

/-- The stop record at an address of keeper flash. -/
def stopRecAt (m : List Host.Cell) (a : Nat) : Option StopRec := readStop (memBytes m a 256)

/-- A stop record kept: appended in keeper flash bank 1, and listed newest first (R254). -/
def keepStop (s : State) (r : StopRec) : State :=
  let t := updKf s (fun k => { k with mem := appendRec k.mem stopRegion (fun m a => (stopRecAt m a).map (·.stopSeq)) (fun _ _ => 256) (stopBytes r) })
  updJrnl t (fun j => { j with stops := r :: j.stops, nextStop := Nat.max j.nextStop (r.stopSeq + 1) })

/-- The newest stop record: of those in keeper flash whose CRC passes, the one with the highest STOP_SEQ (R254). -/
def newestStop (s : State) : Option StopRec :=
  (newestRec s.kf.mem stopRegion (fun m a => (stopRecAt m a).map (·.stopSeq))).bind (fun x => stopRecAt s.kf.mem x.2)

/-- A stop record written (R254), naming a hold-up record by its number and its first slot. Only one of KIND 3 leaves a clean stop standing
(R262). -/
def putStop (s : State) (kind : StopKind) (holdup : Option (Nat × Madr)) : State :=
  let t := keepStop s
    { kind := kind, holdupIssued := holdup.isSome, stopSeq := s.jrnl.nextStop, aetStop := BitVec.ofNat 64 s.cad.aet
      root := s.jrnl.newest.map (·.root), ckptSeq := (s.jrnl.newest.map (·.seq)).getD 0, holdupMadr := holdup.map (·.2)
      holdupSeq := (holdup.map (·.1)).getD 0, lastJseq := highestDurable s, csnLast := lastCsn s }
  updJrnl t (fun j => { j with cleanStands := kind == .shutdown })

/-- Pages of a checkpoint's root and index. -/
def rootPages (s : State) (k : Ckpt) : List PageRec :=
  match setAt s.map k.root with
  | none => []
  | some x =>
    let row := (pageRow x k.root.page).getD 0
    s.media.pages.filter (fun p => p.seq == x.seq && p.kind == 5 && decide (row ≤ p.row) && p.slots.any (fun y => y.csn == k.seq))

/-- The CHECKPOINT record of a checkpoint. -/
def ckptRecord (s : State) (k : Ckpt) : Option StagedRec := s.jrnl.recs.find? (fun r => r.body == .checkpoint k.seq (some k.root))

/-- A written checkpoint is the newest one now: records before its REPLAY_FROM are dropped, and bays that had just become MEMBER may give
blocks (R247, R257). Where it is clean and nothing has come since, the stop record of KIND 3 is written (R262). -/
def standCkpt (s : State) (k : Ckpt) : State :=
  let t := updJrnl s (fun j => { j with newest := some k, written := none, recs := j.recs.filter (fun r => decide (k.replayFrom ≤ r.jseq)) })
  let t := updMedia t (fun m => { m with bays := m.bays.map (fun b => { b with fresh := false }) })
  if k.clean && s.jrnl.nextSeq == k.cut + 2 && !anyAdmitted s then putStop t .shutdown none
  else t

/-- The written checkpoint judged (R248): it stands once its root is DONE and its CHECKPOINT record durable, a clean one once that record is
on the medium; one whose root was abandoned is taken again. -/
def settleCkpt (s : State) : State :=
  match s.jrnl.written with
  | none => s
  | some k =>
    let pages := rootPages s k
    if pages.any (fun p => slotAbandoned s p.addr) then
      updJrnl s (fun j => { j with written := none, waiting := j.waiting ++ [.bayChange] })
    else if pages.all (fun p => p.st == .done) && (ckptRecord s k).any (fun r => r.durable && (!k.clean || r.onMedium)) then standCkpt s k
    else s

/-- What a page's end or an acknowledgement may have made to stand. -/
def settleStand (s : State) : State := settleCkpt (settleCover s)

end Sys2Proof.Machine
end

