-- ==== Sys2Proof/Machine/WritePath.lean ====
section
/-! DEFINITION. The write path of chapter 09: opening a set (R278), placing held writes (R218), page and row timeouts (R219), failures of
programs and verify reads (R232), settling (R230), suspension (R234), and the request of a write's map update (R226). -/
namespace Sys2Proof.Machine
open Sys2Proof

/-! ## Opening a set (R278, R337) -/

/-- Member bays of a profile that give a block to a stream. -/
def givingBays (s : State) (p : Nat) (f : Profile) (stream : Stream) : List Bay :=
  (memberBays s p).filter (fun b => bayGives s p f stream b && !heldFresh s b && (pickBlock s f b (fun _ => true)).isSome)

/-- A profile in which a stream may open a set now: at least W_MIN bays give a block, and fewer than 16 sets of the stream are open
there (R215, R337). An adopted profile opens none (R377). -/
def profileOpens (s : State) (stream : Stream) (p : Nat) : Bool :=
  match profileOf s p with
  | none => false
  | some f =>
    !f.adopted && decide (f.wMin ≤ (givingBays s p f stream).length) && decide (0 < f.wMin) &&
      decide (((openSetsOf s stream).filter (fun ok => ok.2.profile == p)).length < 16)

/-- The profile with the largest FREE_HOST_p / CAP_p, ties to the lower number. -/
def richest (s : State) (ps : List Nat) : Option Nat :=
  ps.foldl (fun best p =>
    match best with
    | none => some p
    | some q => if freeHost s q * capOf s p < freeHost s p * capOf s q then some p else best) none

/-- The profile of the set that holds the newest root. -/
def rootProfile (s : State) : Option Nat := (s.jrnl.newest.bind (fun k => setAt s.map k.root)).map (·.profile)

/-- The profile a stream takes (R278 step 1). Before any root is written, SYSTEM and MAP choose as the other streams do. -/
def streamProfile (s : State) (stream : Stream) : Option Nat :=
  let any := richest s ((profileNums s).filter (profileOpens s stream))
  match stream with
  | .map | .system =>
    match rootProfile s with
    | some p => if profileOpens s stream p then some p else none
    | none => any
  | _ => any

/-- Bays of a new set: those with the most eligible ERASED blocks, ties to the lower number, then in ascending number (R278 step 2). -/
def setBays (s : State) (p : Nat) (f : Profile) (stream : Stream) : List Bay :=
  let key (b : Bay) := [1000000000 - (erasedChoices s f b).length, b.bay]
  sortBy (fun x y => decide (x.bay ≤ y.bay)) ((sortBy (fun x y => keyLe (key x) (key y)) (givingBays s p f stream)).take f.w)

/-- The requester of a stream's programs: a relocation stream's is the agent that holds a claim, RECLAIM where none does. -/
def openWho (s : State) (stream : Stream) : Nat :=
  streamWho stream (((s.media.claims.find? (fun c => c.agent != .patrol)).map (fun c => agentDieWho c.agent)).getD 7)

/-- Page 0 of a column: four copies of the block header (R225). -/
def headerPage (s : State) (k : SetRec) (dedicated : Bool) (c : Nat × Madr) : PageRec :=
  let hdr := blockHeader s k dedicated c.1 (uidOf s c.2.bay) ((blkOf s c.2).pe)
  let blk : Block := { data := hdr, hostMeta := zeros 48, guard := 0, appTag := 0, refTag := 0 }
  { addr := c.2, seq := k.seq, kind := 7, col := c.1, row := 0, st := .assigned, epoch := 0
    slots := (List.range 4).map (fun n => { n := n, ns := 0, lba := 0, csn := 0, count := 0, block := some blk }), parity := [] }

/-- A set opened for a stream: its number, columns and blocks chosen, SET_OPEN journalled, page 0 of each block programmed
(R224, R225, R278, R337). -/
def openSet (s : State) (stream : Stream) : State :=
  match streamProfile s stream with
  | none => s
  | some p =>
    match profileOf s p with
    | none => s
    | some f =>
      let bays := setBays s p f stream
      let blocks := bays.filterMap (fun b => pickBlock s f b (fun _ => true))
      let cols := (List.range blocks.length).zip blocks
      let seq := s.media.blockSeqHigh + 1
      let k : SetRec :=
        { seq := seq, stream := stream, profile := p, w := cols.length, p := f.p, stripeUnit := f.stripeUnit, rows := profileRows f
          openAet := s.cad.aet, cols := cols, closed := false, lastValid := none, firstAbandoned := none, standIns := [] }
      let t := updMedia s (fun m =>
        { m with
          blockSeqHigh := seq
          opens := m.opens ++ [
            { seq := seq, rows := [], nextRow := 0, limitRow := 0, headersLeft := cols.map (·.1), closing := false
              lastStand := (stream == .relocFine || stream == .relocCoarse) && bays.any (fun b => !bayLends s f false b) }] })
      let t := commitRec t (.setOpen seq stream p cols.length f.p f.stripeUnit (profileRows f) s.cad.aet cols)
      let who := openWho s stream
      settleFull (cols.foldl (fun t c => writePage t (headerPage t k f.dedicated c) who) t)

/-! ## Placing a held write (R217, R218) -/

/-- Data slots not yet assigned in an open set. -/
def slotsLeft (o : OpenSet) (k : SetRec) : Nat :=
  if o.closing then 0 else (k.rows - o.nextRow) * rowSlots k + o.rows.foldl (fun a r => a + (rowSlots k - r.next)) 0

/-- Rows left of a set filled with PAD pages one after the other, as far as rows may start (R217). -/
def padOut (s : State) (seq : Nat) : Nat → State
  | 0 => s
  | n + 1 =>
    match openOf s seq, setOf s seq with
    | some o, some k =>
      match fillingRow o k with
      | some r => padOut (padRow s k r.row (streamWho k.stream 7)) seq n
      | none =>
        if mayStartRow s o k then
          let tr := startRow s o
          padOut (padRow tr.1 k tr.2.row (streamWho k.stream 7)) seq n
        else s
    | _, _ => s

/-- Index, within its row, of the first slot of the page that follows the filling page. -/
def nextPageSlot (n : Nat) : Nat := (n + 3) / 4 * 4

/-- The filling page of a set's row programmed as it stands, so that the next slot begins a page. -/
def alignPage (s : State) (seq who : Nat) : State :=
  match openOf s seq, setOf s seq with
  | some o, some k =>
    match fillingRow o k with
    | none => s
    | some r =>
      if r.next % 4 == 0 then s
      else
        let n := nextPageSlot r.next
        let t := match rowSlot k r.row r.next with | some a => programPage s (pageOf a) who | none => s
        let t := updRow t seq r.row (fun y => { y with next := n })
        if n == rowSlots k then programParity t k r.row who else t
  | _, _ => s

/-- Open sets of a coarse stream with fewer than 64 data pages left are filled up, so that the extent goes to a new set; in the
others it begins at slot 0 of a page (R217). -/
def makeRoom (s : State) (stream : Stream) : State :=
  (openSetsOf s stream).foldl (fun t ok =>
    if slotsLeft ok.1 ok.2 < 256 then padOut t ok.1.seq (ok.2.rows + 1) else alignPage t ok.1.seq (streamWho ok.2.stream 7)) s

/-- The segment of a unit becomes COARSE by this command: COARSE mode, no LOST entry, and the command covers it wholly with written
units (Table 8-4). -/
def becomesCoarse (s : State) (c : Ctx) (ns lba : Nat) : Bool :=
  let seg := lba / 256
  coarseMode s.map ns && segNoLost s.map ns seg &&
    (c.staged.filter (fun u => u.ns == ns && u.lba / 256 == seg && u.block.isSome)).length == 256

/-- The stream that a staged unit goes to: an extent whose stream can open no set goes to the fine stream (R217). -/
def unitStream (s : State) (c : Ctx) (u : StagedUnit) : Stream :=
  if becomesCoarse s c u.ns u.lba then
    if (openSetsOf s .hostCoarse).isEmpty && (streamProfile s .hostCoarse).isNone then .hostFine else .hostCoarse
  else .hostFine

/-- The SET_CLOSE record of the set of a slot is durable: only then is what its abandoned rows held placed again (R232). -/
def closeDurable (s : State) (m : Madr) : Bool :=
  match setAt s.map m with
  | none => true
  | some k => s.jrnl.recs.all (fun r => r.durable || (match r.body with | .setClose seq _ _ => seq != k.seq | _ => true))

/-- A staged unit still needs a slot: it has data, and none or an abandoned one is assigned. -/
def needsSlot (s : State) (u : StagedUnit) : Bool :=
  u.block.isSome && (match u.slot with | none => true | some m => slotAbandoned s m && closeDurable s m)

/-- What a performed write had in an abandoned row, placed again in the same stream: a conditional update under requester 3, the copy with COUNT 0 as
a relocation's (R228) (assumption 64). -/
def replaceUnit (s : State) (ns lba : Nat) (old : Madr) : State :=
  match slotAt s old, setAt s.map old, pageRecOf s old with
  | some x, some k, some p =>
    match placeSlot s k.stream p.kind (streamWho k.stream 5) { x with count := 0 } with
    | none => s
    | some (t, a) => askMap t { who := 3, cyc := t.now, cid := none, ns := ns, ents := [(lba, some old, some a)], whole := none }
  | _, _, _ => s

/-- Every unit that the map reaches in an abandoned row placed again where its stream can take it (R228). -/
def replaceAbandoned (s : State) : State :=
  if s.jrnl.stopFrom.isSome || !s.map.sets.any (fun k => k.firstAbandoned.isSome) then s
  else
    s.map.segs.foldl (fun t x =>
      ((unitsWhere s.map (fun m => slotAbandoned s m && closeDurable s m) x).filter (fun u => !unitAsked t x.ns u.1)).foldl (fun t u =>
        replaceUnit t x.ns u.1 u.2) t) s

/-- SET_OPEN (R278): a stream opens a set where R215, R279 and R337 allow it. -/
def execSetOpen (stream : Stream) (s : State) : Host.Outcome State Fault Refusal :=
  if s.jrnl.stopFrom.isSome then .next s else .next (replaceAbandoned (openSet s stream))

/-- The staged unit of a context given a slot. -/
def giveSlot (s : State) (cid lba : Nat) (m : Madr) : State :=
  updCtx s cid (fun c =>
    { c with staged := c.staged.map (fun u => if u.lba == lba then { u with slot := some m } else u), pMadr := c.pMadr.or (some m) })

/-- Units assigned in ascending LBA order until one has to wait (R218). -/
def assignUnits (s : State) (c : Ctx) : List StagedUnit → State
  | [] => s
  | u :: us =>
    if !needsSlot s u then assignUnits s c us
    else
      let stream := unitStream s c u
      let coarse := stream == .hostCoarse
      let t := if coarse && u.lba % 256 == 0 then makeRoom s stream else s
      let x : SlotRec := { n := 0, ns := u.ns, lba := u.lba, csn := c.csn, count := eCount c.dw, block := u.block }
      match placeSlot t stream (if coarse then 2 else 1) 2 x with
      | none => t
      | some (t', m) => assignUnits (giveSlot t' c.cid u.lba m) c us

/-- WRITE_HELD (R106, R218): a write whose crossing found a fault fails; one fully staged and checked is held, and its units take slots.
On a held write the step assigns the units that had to wait. -/
def execWriteHeld (cid cyc : Nat) (s : State) : Host.Outcome State Fault Refusal :=
  let t := advanceTo s cyc
  match ctxOf t cid with
  | none => .next t
  | some c =>
    if !pendingWrite c || c.status != 0 || eOpcode c.dw == 0x08 || !admissionStands t c || t.jrnl.stopFrom.isSome then .next t
    else
      match c.fetchFail with
      | some (st, lba, off, d0, d1) =>
        .next (settleFull (updCtx (decide_ t cid { status := st, origin := 4, lba := lba, byteOffset := off, detail0 := d0, detail1 := d1 }) cid
          (fun c => { c with promised := 0, staged := [] })))
      | none =>
        if c.staged.length != eCount c.dw || c.staged.any (·.lost) then .next t
        else .next (settleFull (assignUnits (updCtx t cid (fun c => { c with held := true })) c c.staged))

/-! ## Page and row timeouts (R219) -/

/-- PAGE_PROGRAM_TIMEOUT (R219): a page whose first slot was assigned 10 microseconds ago is programmed; its unassigned slots stay
invalid. -/
def execPageProgramTimeout (page : Madr) (cyc : Nat) (s : State) : Host.Outcome State Fault Refusal :=
  let t := advanceTo s cyc
  match pageRecOf t page, setAt t.map page with
  | some p, some k =>
    match openOf t k.seq with
    | none => .next t
    | some o =>
      match o.rows.find? (fun r => r.row == p.row) with
      | none => .next t
      | some r =>
        if p.st != .assigned || p.slots.isEmpty || t.now < r.since + 10000 then .next t
        else
          let who := openWho t k.stream
          let t := programPage t p.addr who
          let n := nextPageSlot r.next
          let t := updRow t k.seq r.row (fun y => { y with next := n })
          .next (settleFull (if n == rowSlots k then programParity t k r.row who else t))
  | _, _ => .next t

/-- ROW_PAD_TIMEOUT (R219): a row incomplete for 64 ticks is padded and completed. -/
def execRowPadTimeout (seq row : Nat) (s : State) : Host.Outcome State Fault Refusal :=
  match openOf s seq, setOf s seq with
  | some o, some k =>
    match o.rows.find? (fun r => r.row == row) with
    | none => .next s
    | some r =>
      if r.parityIssued || tIndex s.cad.tps s.cad.aet < r.sinceT + 64 then .next s
      else .next (settleFull (padRow s k row (openWho s k.stream)))
  | _, _ => .next s

/-! ## Failures (R232) -/

/-- A program failed in row r of a set: rows r and later that have started are abandoned, the set closes early, and REFRESH is to move
what is settled (Table 9-7). Rows of a closed set that are not settled are abandoned the same way. -/
def failRow (s : State) (k : SetRec) (r : Nat) : State :=
  let last := if r == 0 then none else some (r - 1)
  let s := unflush s k.seq r
  if k.closed then
    match openOf s k.seq with
    | none => raiseTrigger s k.seq 3
    | some _ =>
      let t := updOpen s k.seq (fun o => { o with rows := o.rows.filter (fun x => decide (x.row < r) || x.settled) })
      finishSet (raiseTrigger (commitRec t (.setClose k.seq last (some r))) k.seq 3) k.seq
  else
    let started := ((openOf s k.seq).map (·.nextRow)).getD 0
    replaceAbandoned (finishSet (raiseTrigger (closeSet s k.seq last (if r < started then some r else none)) k.seq 3) k.seq)

/-- Another ERASED block of the same bay takes the column of a set whose page 0 failed (Table 9-7). The column map of every header changes with it:
the model programs page 0 of all columns again under the same BLOCK_SEQ, on which the rule is silent (assumption 58). -/
def replaceColumn (s : State) (k : SetRec) (col : Nat) (bad : Madr) : State :=
  let t := retireBlock s bad 2
  match profileOf t k.profile, bayOf t bad.bay with
  | some f, some b =>
    match pickBlock t f b (fun _ => true) with
    | none => finishSet (closeSet t k.seq none none) k.seq
    | some m =>
      let cols := k.cols.map (fun c => if c.1 == col then (col, m) else c)
      let t := updMap t (fun i => { i with sets := i.sets.filter (fun x => x.seq != k.seq) })
      let t := commitRec t (.setOpen k.seq k.stream k.profile k.w k.p k.stripeUnit k.rows k.openAet cols)
      cols.foldl (fun t c => writePage t (headerPage t { k with cols := cols } f.dedicated c) (openWho t k.stream)) t
  | _, _ => t

/-- A page's program ended in failure (Table 9-7): the page is marked, and the set and block are handled. -/
def programFailed (s : State) (p : PageRec) : State :=
  let t := updHealth (putPage s { p with st := .failed }) (fun h => { h with programFails := h.programFails + 1 })
  if s.jrnl.stopFrom.isSome then t else
  match setAt t.map p.addr with
  | none => t
  | some k =>
    if k.standIns.any (fun x => x.page0 == blockOf p.addr) then retireBlock t p.addr 2
    else if p.addr.page == 0 then replaceColumn t k p.col p.addr
    else if p.row ≥ k.rows then raiseTrigger t k.seq 3
    else settleStand (failRow t k p.row)

/-- Rows of an open set ready for their verify read: all pages DONE and the pages D_PAIR beyond DONE (R230). -/
def rowsReady (s : State) (k : SetRec) (o : OpenSet) : List Nat :=
  (o.rows.filter (fun r => r.parityIssued && !r.settled && rowDone s k r.row && pairDone s k r.row)).map (·.row)

/-- Verify reads issued on the pages of a row under die requester 8 (R230). -/
def issueVerify (s : State) (k : SetRec) (row : Nat) : State :=
  k.cols.foldl (fun t c => if colDown t k c.2 then t else
    (List.range k.stripeUnit).foldl (fun t u => issueOp t (mkOp t 1 { c.2 with page := rowPage k row u } 8)) t) s

/-- A page's program ended with DONE: user data of a host stream counts towards the next checkpoint (R247), page 0 opens its block, a row that is ready now gets its verify read, and a full set closes. -/
def programDone (s : State) (p : PageRec) : State :=
  let t := putPage s { p with st := .done }
  if s.jrnl.stopFrom.isSome then t else
  let t := { t with ctxs := t.ctxs.map (fun c =>
    if c.staged.any (fun u => u.slot.map pageOf == some p.addr) then { c with tMedium := t.now } else c) }
  match setAt t.map p.addr with
  | none => t
  | some k =>
    let before := ((openOf s k.seq).map (rowsReady s k)).getD []
    let t := if userKind p.kind && (k.stream == .hostFine || k.stream == .hostCoarse)
      then updJrnl t (fun j => { j with hostBytes := j.hostBytes + 4096 * p.slots.length }) else t
    let t := if p.addr.page == 0 then openBlock (updOpen t k.seq (fun o => { o with headersLeft := o.headersLeft.filter (fun c => c != p.col) })) p.addr else t
    let t := if p.addr.page != 0 && k.standIns.any (fun x => x.page0 == blockOf p.addr) then issueOp t (mkOp t 1 p.addr 8) else t
    let t := settleStand (closeIfFull t k.seq)
    let after := ((openOf t k.seq).map (rowsReady t k)).getD []
    (after.filter (fun r => !before.contains r)).foldl (fun t r => issueVerify t k r) t

/-- A page failed its verify read: the row is handled as by a program failure; its block retires at the second verify failure
(Table 9-7). -/
def verifyFailed (s : State) (k : SetRec) (row : Nat) (bad : Madr) : State :=
  failRow (updMedia s (fun m => { m with verifyFails := m.verifyFails ++ [blockOf bad] })) k row

/-- The stand-ins of a set whose row has just been programmed settle it (R350, R351): rows settle in ascending order, the map is
moved, and a stand-in with every row settled is done (STAND_IN_DONE). -/
def settleStandIns (s : State) (k : SetRec) (row : Nat) : State :=
  k.standIns.foldl (fun t x =>
    let programmed := (List.range k.stripeUnit).all (fun u =>
      match pageRecOf t { x.page0 with page := rowPage k row u } with | some p => p.st == .done | none => false)
    if x.rowsDone != row || x.done || !programmed then t
    else
      let t := updMap t (fun i => updSet i k.seq (fun y =>
        { y with standIns := y.standIns.map (fun z => if z.col == x.col then { z with rowsDone := row + 1 } else z) }))
      let evac := ((holderOf t k.seq).map (fun c => c.agent == .evacuate)).getD false
      let t := moveToStandIn t k x row (if evac then 4 else 1)
      let t := if evac then t else updMedia t (fun m => { m with rowsDone := m.rowsDone + 1 })
      let t := if !evac && t.media.rowsDone % 65536 == 0 then journal t (.rebuildState t.media.rebuild t.media.rowsDone) else t
      if row + 1 != liveRows k then t
      else
        let t := commitRec t (.standInDone k.seq x.col)
        if evac then settleCancels (dropClaim t .evacuate k.seq)
        else if ((setOf t k.seq).map (fun y => setLacking t y == 0)).getD true then dropClaim t .rebuild k.seq else t) s

/-- A codeword hard-decoded within the verify limit. -/
def inLimit (limit : Nat) (r : Option Nat) : Bool := r.any (fun n => decide (n ≤ limit))

/-- A page's verify passes on codeword 0, or on the whole page; it fails only where the whole page was read (R230). -/
def verifyPasses (limit : Nat) (v : VerifyRead) : Bool := inLimit limit v.first || (v.whole.length == 4 && v.whole.all (inLimit limit))
def verifyFails (limit : Nat) (v : VerifyRead) : Bool := !verifyPasses limit v && v.whole.length == 4

/-- The whole page read under die requester 8 where codeword 0 failed or exceeded the limit (R230). -/
def readWhole (s : State) (page : Madr) : State :=
  if anyOp s (fun o => o.page == page && o.who == 8 && o.whole) then s else issueOp s { mkOp s 1 page 8 with whole := true }

/-- Pages whose verify reads a row takes: those of columns that are neither RETIRED nor on a failed member (R230). -/
def verifyPages (s : State) (k : SetRec) (row : Nat) : List Madr :=
  (k.cols.filter (fun c => !(colDown s k c.2 || (blkOf s c.2).st == .retired))).flatMap (fun c =>
    (List.range k.stripeUnit).map (fun u => { c.2 with page := rowPage k row u }))

/-- Those of the stand-ins of a set whose row is to settle next (R351). -/
def standInPages (k : SetRec) (row : Nat) : List Madr :=
  (k.standIns.filter (fun x => x.rowsDone == row && !x.done)).flatMap (fun x => (List.range k.stripeUnit).map (fun u => { x.page0 with page := rowPage k row u }))

/-- A page of a row can be made again from the others: fewer than P columns lack theirs, or before the parity pages finished, no other data page
does (R229, R232). -/
def pageRebuilds (s : State) (k : SetRec) (row : Nat) (bad : Madr) : Bool :=
  let lacks (c : Nat × Madr) : Bool := c.2 != blockOf bad && (colDown s k c.2 ||
    !(List.range k.stripeUnit).all (fun u => (rowPageOf s.media.pages k row c.1 u).any (fun p => p.st == .done)))
  if parityDone s k row then decide ((k.cols.filter lacks).length < k.p)
  else !(k.cols.filter (fun c => !isParityCol k.w k.p row c.1)).any lacks

/-- The verify of a row failed at a page. In a set that a failure in a later row has closed, an altered page is reconstructed and the row verified
again; else Table 9-7 applies (R232). -/
def rowVerifyFailed (s : State) (k : SetRec) (row : Nat) (bad : Madr) : State :=
  if k.firstAbandoned.any (fun a => decide (row < a)) && pageRebuilds s k row bad then issueVerify (countEvent s 0x31 0 1) k row
  else verifyFailed s k row bad

/-- VERIFY_READ_DONE (R230, R351, R358): a page whose codeword 0 failed or exceeded the verify limit is read whole; a row all of whose pages passed,
and whose other conditions hold, is settled and its accumulator released; a stand-in row settles; a failed one is handled by Table 9-7. -/
def execVerifyReadDone (seq row : Nat) (reads : List VerifyRead) (s : State) : Host.Outcome State Fault Refusal :=
  match (setOf s seq).filter (fun _ => s.jrnl.stopFrom.isNone) with
  | none => settled s
  | some k =>
    let limit := ((profileOf s k.profile).map (·.verifyLimit)).getD 0
    let openRow := (openOf s seq).bind (fun o => o.rows.find? (fun r => r.row == row))
    let pages := if openRow.isSome then verifyPages s k row else standInPages k row
    let mine := reads.filter (fun v => pages.contains v.page)
    match mine.find? (verifyFails limit), openRow with
    | some v, some _ => settled (settleFull (settleStand (rowVerifyFailed s k row v.page)))
    | some v, none => settled (settleFull (retireBlock s v.page 4))
    | none, some r =>
      if !pages.all (fun a => mine.any (fun v => v.page == a && verifyPasses limit v)) then
        settled ((mine.filter (fun v => !verifyPasses limit v)).foldl (fun t v => readWhole t v.page) s)
      else if r.settled || !rowDone s k row || !pairDone s k row then settled s
      else
        let t := settleJournal (updRow s seq row (fun r => { r with verified := true, settled := true })) seq row
        settled (settleFull (settleCkpt (finishSet (settleStandIns t k row) seq)))
    | none, none =>
      if !pages.all (fun a => mine.any (fun v => v.page == a && verifyPasses limit v)) then
        settled ((mine.filter (fun v => !verifyPasses limit v)).foldl (fun t v => readWhole t v.page) s)
      else settled (settleFull (finishRebuild (settleStandIns s k row)))

/-! ## Suspension (R234) -/

/-- READ_SUSPEND (R234): where a host read waits on a die whose program or erase has run its minimum and was suspended fewer than 4 times,
sequence 6 suspends the operation; the read runs when it ends. -/
def execReadSuspend (die : DieId) (cyc : Nat) (s : State) : Host.Outcome State Fault Refusal :=
  let t := advanceTo s cyc
  match dieStOf t die with
  | none => .next t
  | some d =>
    match d.op, d.queue.find? (fun o => o.who == 0) with
    | some op, some _ =>
      let least := ((bayProfile t die.bay).map (·.suspendMin)).getD 0
      if (op.seqNo != 3 && op.seqNo != 4) || 4 ≤ d.suspends || t.now < op.issued + 1000 * least || t.jrnl.stopFrom.isSome then .next t
      else
        let t := updDie t die (fun d => { d with op := some (suspendOp op), suspended := some op, suspends := d.suspends + 1 })
        .next (countEvent t 0x14 die.bay 1)
    | _, _ => .next t

/-! ## Commit (R226) -/

/-- Where a staged unit's copy lies: its slot, or the same slot of the stand-in that took its column (R348). -/
def placedAt (s : State) (m : Madr) : Madr :=
  match setAt s.map m with
  | none => m
  | some k =>
    match (colOf k m).bind (fun c => if colDown s k m then standInOf s k c else none) with
    | some x => { x.page0 with page := m.page, slot := m.slot }
    | none => m

/-- The page of a slot has finished with DONE. -/
def pageDone (s : State) (m : Madr) : Bool := ((pageRecOf s m).map (fun p => p.st == .done)).getD false

/-- Every staged unit is where the map may point: units without data need no slot. -/
def allPlaced (s : State) (c : Ctx) : Bool :=
  c.staged.all (fun u => u.block.isNone || (match u.slot with
    | none => false
    | some m => !slotAbandoned s m && (pageDone s m || pageDone s (placedAt s m))))

/-- The map update that a held write-class command asks for: each unit's slot, or none where it becomes unwritten. -/
def writeReq (s : State) (c : Ctx) : MapReq :=
  let none_ (lba : Nat) : Nat × Option Madr × Option Madr := (lba, none, none)
  let ents := if eOpcode c.dw == 0x08 then (List.range (eCount c.dw)).map (fun n => none_ (eLba c.dw + n))
    else c.staged.map (fun u => (u.lba, none, u.slot.map (fun m => if pageDone s m then m else placedAt s m)))
  { who := 0, cyc := s.now, cid := some c.cid, ns := ((writtenRange c.dw).map (·.1)).getD 0, ents := ents, whole := none }

/-- Writes of the same queue with a lower CSN that are not done (R6). -/
def queueWrites (s : State) (c : Ctx) : List Ctx :=
  (queueCtxs s c.port c.queue).filter (fun x => pendingWrite x && decide (x.csn < c.csn))

/-- A held write may ask for its update: its pages are DONE, no write of its queue and no overlapping write with a lower CSN is unperformed, and
no overlapping read with a lower CSN still has to look up (R6, R106, R107, R208, R226). -/
def mayCommit (s : State) (c : Ctx) : Bool :=
  pendingWrite c && c.held && !c.mapAsked && c.status == 0 && admissionStands s c && allPlaced s c && (queueWrites s c).isEmpty &&
    (match writtenRange c.dw with
      | some r => (earlierWrites s c.csn r).isEmpty && !earlierLookups s c.csn r
      | none => false)

/-- A command's results when it is performed by its map update (Table 6-8): a COPY's unwritten and recovered source blocks. -/
def copyResults (c : Ctx) : Word × Word × Half :=
  if eOpcode c.dw == 0x0C then
    let rec_ := (c.units.filter (fun u => match u.st with | .got _ r => r | _ => false)).length
    (w32 ((c.staged.filter (fun u => u.block.isNone)).length), w32 rec_, if rec_ == 0 then 0 else 1)
  else (0, 0, 0)

/-- WRITE_COMMIT (R226): the map update of a write whose pages are all DONE is requested; MAP_UPDATE grants it and the write is then
performed. In a mirrored twin a COPY's results are sent, and acknowledged, before the request (R388). -/
def execWriteCommit (cid : Nat) (s : State) : Host.Outcome State Fault Refusal :=
  match ctxOf s cid with
  | none => .next s
  | some c =>
    if !mayCommit s c || s.jrnl.stopFrom.isSome then .next s
    else if eOpcode c.dw == 0x0C && mirroring s && c.awaitAck.isNone then
      let r := copyResults c
      let t := mirrorFrame s (.state { csn := c.csn, status := r.2.2, kind := 5, result0 := r.1, result1 := r.2.1, feature := none, queue := none, log := none })
      .next (updCtx t cid (fun c => { c with awaitAck := some s.twin.txSeq }))
    else if !(c.awaitAck.all (acked s)) then .next s
    else .next (updCtx (askMap s (writeReq s c)) cid (fun c => { c with mapAsked := true }))

end Sys2Proof.Machine
end

