-- ==== Sys2Proof/Machine/Map.lean ====
section
/-! DEFINITION. The translation map at run time (chapter 08): the translation cache (R200, R201), the tile tiers (R202 to R204), lookups (R209),
map updates (R205 to R208) and tile writeback (R203). -/
namespace Sys2Proof.Machine
open Sys2Proof

/-! ## Translation cache (R200, R201) -/

/-- The 44-bit lookup key of a unit, or of a whole segment with unit 0. -/
def cacheKey (ns seg u : Nat) : Nat := (ns - 1) * 2 ^ 38 + seg * 2 ^ 8 + u
/-- Set index and tag of a key. -/
def cacheSet (k : Nat) : Nat := (k % 2 ^ 19) ^^^ (k / 2 ^ 19 % 2 ^ 19)
def cacheTag (k : Nat) : Nat := k / 2 ^ 19
/-- The key that a way's set and tag stand for. -/
def keyOfWay (w : TcWay) : Nat := w.tag * 2 ^ 19 + (w.set ^^^ (w.tag % 2 ^ 19))

/-- The way that holds a key. -/
def probe (e : MapEng) (k : Nat) (segment : Bool) : Option TcWay :=
  e.tc.find? (fun w => w.set == cacheSet k && w.tag == cacheTag k && w.segment == segment)

/-- A hit: the way's AGE becomes 0 and every other way of the set grows older, to 7 (R201). -/
def touchWay (e : MapEng) (h : TcWay) : MapEng :=
  { e with tc := e.tc.map (fun w => if w.set != h.set then w else if w.way == h.way then { w with age := 0 }
                                    else { w with age := Nat.min 7 (w.age + 1) }) }

/-- The way of a set that a fill takes: the lowest invalid one, or the oldest, the lowest number among equals. -/
def victimWay (ages : List (Nat × Nat)) : Nat :=
  match (List.range 8).find? (fun n => !(ages.any (fun a => a.1 == n))) with
  | some n => n
  | none => (ages.foldl (fun best a => if best.2 < a.2 || (best.2 == a.2 && a.1 < best.1) then a else best) (ages.headD (0, 0))).1

/-- An entry filled under a key. The rule tells AGE on a hit only: the way filled starts at 0 and the set's other ways grow older as on a hit
(assumption 61). -/
def fillWay (e : MapEng) (k : Nat) (segment : Bool) (entry : Dword) : MapEng :=
  let set := cacheSet k
  let n := victimWay ((e.tc.filter (fun w => w.set == set)).map (fun w => (w.way, w.age)))
  let rest := e.tc.filter (fun w => !(w.set == set && w.way == n))
  touchWay { e with tc := rest ++ [{ set := set, way := n, tag := cacheTag k, segment := segment, entry := entry, age := 0 }] }
    { set := set, way := n, tag := cacheTag k, segment := segment, entry := entry, age := 0 }

/-- The map entry of a unit in a tile; UNWRITTEN is 0. -/
def unitEntry (t : Tile) (u : Nat) : Dword := ((entOf t u).map tileEntry).getD 0

/-- A way belongs to a segment. -/
def wayOf (w : TcWay) (ns seg : Nat) : Bool := keyOfWay w / 2 ^ 8 == (ns - 1) * 2 ^ 30 + seg

/-- Kind of a directory entry (Table 8-3). -/
def entryKind (e : Dword) : Nat := bits e.toNat 50 48

/-- The cache after a segment changed: every entry of it brought into step where the kind stays, and dropped where the kind changed (R201). -/
def syncCache (e : MapEng) (i : MapImg) (ns seg : Nat) : MapEng :=
  match segOf i ns seg with
  | some (.fine t) =>
    { e with tc := e.tc.filterMap (fun w => if !wayOf w ns seg then some w else if w.segment then none
                                            else some { w with entry := unitEntry t (keyOfWay w % 2 ^ 8) }) }
  | k =>
    { e with tc := e.tc.filterMap (fun w => if !wayOf w ns seg then some w else if !w.segment then none
                                            else
                                              let new := (k.map dirEntry).getD 0
                                              if entryKind new == entryKind w.entry then some { w with entry := new } else none) }

/-! ## Tile tiers (R202 to R204) -/

/-- A frame used: AGE as in R201, per set. A frame just filled counts as used (assumption 61). -/
def touchFrame (l : List TileFrame) (set way : Nat) : List TileFrame :=
  l.map (fun f => if f.set != set then f else if f.way == way then { f with age := 0 } else { f with age := Nat.min 7 (f.age + 1) })

/-- Chunks lent by both ports, port A first, with the port (R204). -/
def lentChunks (s : State) : List (Port × Nat) := s.portA.hostMap.map (fun c => (.a, c)) ++ s.portB.hostMap.map (fun c => (.b, c))

/-- Sets of the host tier: 992 frames a chunk, 8 a set. -/
def hostSets (s : State) : Nat := 124 * (lentChunks s).length

/-- A clean tile written to the host tier, through the port that lent the chunk (R203, R204). -/
def spillToHost (s : State) (ns seg : Nat) (t : Tile) : State :=
  if hostSets s == 0 then s
  else
    let set := tierSet (hostSets s) ns seg
    let l := s.eng.hostTier.filter (fun f => !(f.ns == ns && f.seg == seg))
    let way := victimWay ((l.filter (fun f => f.set == set)).map (fun f => (f.way, f.age)))
    let frame : TileFrame := { set := set, way := way, ns := ns, seg := seg, generation := t.generation, dirty := false, age := 0 }
    let l := touchFrame (l.filter (fun f => !(f.set == set && f.way == way)) ++ [frame]) set way
    let s' := updEng s (fun e => { e with hostTier := l })
    let n := 8 * set + way
    match (lentChunks s)[n / 992]? with
    | some (p, addr) => emit s' (.bytes p (addr + 2112 * (n % 992)) (tileImage ns seg t))
    | none => s'

/-- A clean frame of a DRAM set evicted, its tile going to the host tier (R203). -/
def evictFrame (s : State) (f : TileFrame) : State :=
  let t := updEng s (fun e => { e with dram := e.dram.filter (fun x => !(x.set == f.set && x.way == f.way)) })
  match segOf s.map f.ns f.seg with
  | some (.fine ti) => spillToHost t f.ns f.seg ti
  | _ => t

/-- The DRAM tier can take a segment's tile: it holds it, or its set has a free or a clean way. -/
def tierRoom (s : State) (ns seg : Nat) : Bool :=
  let mine := s.eng.dram.filter (fun f => f.set == tierSet s.eng.dramSets ns seg)
  (frameIn s.eng.dram ns seg).isSome || decide (mine.length < 8) || mine.any (fun f => !f.dirty)

/-- The clean frame of a full set that R201 chooses: the oldest, the lowest way among equals. -/
def cleanVictim (mine : List TileFrame) : Nat :=
  let clean := (mine.filter (fun f => !f.dirty)).map (fun f => (f.way, f.age))
  (clean.foldl (fun best a => if best.2 < a.2 || (best.2 == a.2 && a.1 < best.1) then a else best) (clean.headD (0, 0))).1

/-- The way of a set that a tile takes: a free one, or that of the clean frame that R201 chooses; none where all 8 are dirty (R203). -/
def wayFor (mine : List TileFrame) : Option Nat :=
  match (List.range 8).find? (fun n => !(mine.any (fun f => f.way == n))) with
  | some n => some n
  | none => if mine.any (fun f => !f.dirty) then some (cleanVictim mine) else none

/-- A tile put in the DRAM tier: its own frame, or the way that R203 gives it. -/
def fillFrame (s : State) (ns seg : Nat) (t : Tile) : State :=
  let set := tierSet s.eng.dramSets ns seg
  let dirty := t.dirtySince.isSome || t.home.isNone
  match frameIn s.eng.dram ns seg with
  | some f =>
    updEng s (fun e => { e with dram := touchFrame (e.dram.map (fun x => if x.ns == ns && x.seg == seg then
      { x with generation := t.generation, dirty := dirty } else x)) set f.way })
  | none =>
    let mine := s.eng.dram.filter (fun f => f.set == set)
    match wayFor mine with
    | none => s
    | some way =>
      let s' := match mine.find? (fun f => f.way == way) with | some f => evictFrame s f | none => s
      updEng s' (fun e => { e with dram := touchFrame (e.dram ++
        [{ set := set, way := way, ns := ns, seg := seg, generation := t.generation, dirty := dirty, age := 0 }]) set way })

/-- A way made free where all 8 of a segment's set are dirty: the oldest of them is written back as urgent map writeback (R203). -/
def makeWay (s : State) (ns seg : Nat) : State :=
  if tierRoom s ns seg then s
  else
    let mine := s.eng.dram.filter (fun f => f.set == tierSet s.eng.dramSets ns seg)
    match mine.find? (fun f => f.way == victimWay (mine.map (fun f => (f.way, f.age)))) with
    | some f => if segAsked s f.ns f.seg then s else writeTile s f.ns f.seg
    | none => s

/-- Copies of a segment after its entry or tile changed: cache in step, a FINE segment's tile in DRAM, a dirty tile's host frame
invalid (R201, R203, R204). -/
def syncSeg (s : State) (ns seg : Nat) : State :=
  let t := updEng s (fun e => syncCache e s.map ns seg)
  match segOf s.map ns seg with
  | some (.fine ti) =>
    let t := fillFrame t ns seg ti
    if ti.dirtySince.isSome then updEng t (fun e => { e with hostTier := e.hostTier.filter (fun f => !(f.ns == ns && f.seg == seg)) }) else t
  | _ =>
    updEng t (fun e =>
      { e with dram := e.dram.filter (fun f => !(f.ns == ns && f.seg == seg))
               hostTier := e.hostTier.filter (fun f => !(f.ns == ns && f.seg == seg)) })

/-! ## Lookups (R201, R209) -/

/-- Where a FINE segment's tile can be read from. -/
inductive TileSource where
  | dram | host | medium (home : Madr)
  deriving DecidableEq, Repr

/-- DRAM alone holds a tile: it is dirty, or has no home (R203). -/
def dirtyTile (t : Tile) : Bool := t.dirtySince.isSome || t.home.isNone

/-- The nearest copy of a segment's tile. -/
def tileSource (s : State) (ns seg : Nat) (t : Tile) : TileSource :=
  if (frameIn s.eng.dram ns seg).isSome || dirtyTile t then .dram
  else if (match frameIn s.eng.hostTier ns seg with | some f => f.generation == t.generation | none => false) then .host
  else match t.home with | some h => .medium h | none => .dram

/-- The frame of a tile, as it was read, passes R196: its own checks, and the GENERATION of its locator entry. -/
def tileFrameOk (ns seg : Nat) (t : Tile) (bs : List Byte) : Bool := tileImageOk ns seg bs && field bs 0x810 8 == t.generation

/-- A tile read from DRAM or the host tier that failed R196 is discarded and counted; a dirty one is rebuilt (Table 8-7). The host tier's copy
goes with a DRAM frame, so that the tile is read from the medium (assumption 62). -/
def discardTile (s : State) (ns seg : Nat) (src : TileSource) (t : Tile) : State :=
  match src with
  | .host =>
    updHealth (updEng s (fun e => { e with hostTier := e.hostTier.filter (fun f => !(f.ns == ns && f.seg == seg)) }))
      (fun h => { h with tileReloads := satAdd 0xFFFFFFFF h.tileReloads 1 })
  | .dram =>
    let s' := updHealth s (fun h => { h with dramCorrected := satAdd 0xFFFFFFFF h.dramCorrected 1 })
    if dirtyTile t then s'
    else updEng s' (fun e =>
      { e with dram := e.dram.filter (fun f => !(f.ns == ns && f.seg == seg))
               hostTier := e.hostTier.filter (fun f => !(f.ns == ns && f.seg == seg)) })
  | .medium _ => s

/-- A read pin taken on a block (R285). -/
def pinBlock (s : State) (m : Madr) : State :=
  let b := blockOf m
  updEng s (fun e =>
    { e with pins := if e.pins.any (fun p => p.1 == b) then e.pins.map (fun p => if p.1 == b then (b, p.2 + 1) else p)
                     else e.pins ++ [(b, 1)] })

/-- A read pin released (R285). -/
def unpinBlock (s : State) (m : Madr) : State :=
  let b := blockOf m
  updEng s (fun e => { e with pins := (e.pins.map (fun p => if p.1 == b then (b, p.2 - 1) else p)).filter (fun p => p.2 != 0) })

/-- The pin table has an entry for a block, or room for one. -/
def pinRoom (s : State) (m : Madr) : Bool := s.eng.pins.any (fun p => p.1 == blockOf m) || decide (s.eng.pins.length < 131072)

/-- A tile wanted from the medium: the pin on its home block is taken in the lookup's own turn, and kept until the read ends (R209). -/
def wantTile (s : State) (ns seg : Nat) (home : Madr) : State :=
  if s.eng.tileReads.contains (ns, seg, home) || !pinRoom s home then s
  else updEng (pinBlock s home) (fun e => { e with tileReads := e.tileReads ++ [(ns, seg, home)] })

/-- The read of a tile's home has ended: its pin is released (R285). -/
def tileRead (s : State) (home : Madr) : State :=
  (s.eng.tileReads.filter (fun x => x.2.2 == home)).foldl (fun t _ => unpinBlock t home)
    (updEng s (fun e => { e with tileReads := e.tileReads.filter (fun x => x.2.2 != home) }))

/-- A lookup has to wait for a way of the DRAM tier: the tile is to come from the host tier or the medium and its set is full of dirty ones. -/
def waysFull (s : State) (ns seg : Nat) : Bool :=
  match segOf s.map ns seg with
  | some (.fine ti) => tileSource s ns seg ti != .dram && !tierRoom s ns seg
  | _ => false

/-- One lookup through cache, directory and tile, with the Periscope SOURCE of what it found (Table 21-8); none where the tile has to be
read from the medium first, or a way of its set written back. `image` is what the tile's frame gave. -/
def lookupPath (s : State) (ns seg u : Nat) (image : List Byte) : State × Option Nat :=
  let t := countEvent s 0x05 0 1
  match (probe s.eng (cacheKey ns seg 0) true).or (probe s.eng (cacheKey ns seg u) false) with
  | some w => (updEng t (fun e => touchWay e w), some 2)
  | none =>
    let t := countEvent t 0x06 0 1
    match segOf s.map ns seg with
    | some (.fine ti) =>
      let src := tileSource s ns seg ti
      let ok := tileFrameOk ns seg ti image
      let t := if ok then t else discardTile t ns seg src ti
      match src with
      | .medium h => (wantTile (makeWay t ns seg) ns seg h, none)
      | _ =>
        if (!ok && !(src == .dram && dirtyTile ti)) || waysFull s ns seg then
          ((match tileSource t ns seg ti with | .medium h => wantTile t ns seg h | _ => makeWay t ns seg), none)
        else
          let t := if src == .host then updEng (countEvent t 0x07 0 1) (fun e => match frameIn e.hostTier ns seg with
            | some f => { e with hostTier := touchFrame e.hostTier f.set f.way } | none => e) else t
          let t := fillFrame t ns seg ti
          (updEng t (fun e => fillWay e (cacheKey ns seg u) false (unitEntry ti u)), some (if src == .host then 5 else 4))
    | k => (updEng t (fun e => fillWay e (cacheKey ns seg 0) true ((k.map dirEntry).getD 0)), some 3)

/-- A unit of a context given a state. -/
def setUnitSt (s : State) (cid ns lba : Nat) (st : UnitSt) : State :=
  updCtx s cid (fun c => { c with units := c.units.map (fun u => if u.ns == ns && u.lba == lba then { u with st := st } else u) })

/-- What a held governing write serves for a unit (R107). -/
def servedBy (g : Ctx) (ns lba : Nat) : UnitSt :=
  match g.staged.find? (fun u => u.ns == ns && u.lba == lba) with
  | some u => match u.block with | some b => .staging b | none => .unwritten
  | none => .unwritten

/-- The Periscope SOURCE noted for a command's first unit; a tile that came from the medium stays 6. -/
def noteSource (s : State) (cid lba src : Nat) : State :=
  updCtx s cid (fun c => if eLba c.dw != lba then c
    else { c with pSource := if c.pSource == 6 && (src == 2 || src == 4) then 6 else src, tTranslate := s.now })

/-- A unit of a command looked up in the map, its pin taken in the same turn (R209). -/
def lookupUnit (s : State) (c : Ctx) (ns lba : Nat) (image : List Byte) : State :=
  let at_ := unitAt s.map ns lba
  let room := match at_ with | .at_ m => pinRoom s m | _ => true
  if !room then s
  else
    let r := lookupPath s ns (lba / 256) (lba % 256) image
    match r.2 with
    | none => noteSource r.1 c.cid lba 6
    | some src =>
      match at_ with
      | .at_ m =>
        updCtx (noteSource (setUnitSt (pinBlock r.1 m) c.cid ns lba (.medium m)) c.cid lba src) c.cid
          (fun c => { c with pMadr := c.pMadr.or (some m) })
      | .lost => noteSource (setUnitSt r.1 c.cid ns lba .lost) c.cid lba 7
      | .unwritten => noteSource (setUnitSt r.1 c.cid ns lba .unwritten) c.cid lba 1

/-- A governing write's staged data of a unit lay on a lost DRAM channel and is not recovered yet: a read that it would serve waits (R425). -/
def servedLost (g : Ctx) (ns lba : Nat) : Bool := g.staged.any (fun u => u.ns == ns && u.lba == lba && u.lost)

/-- MAP_LOOKUP (R107, R209): a command's unit is served from a held governing write, waits for one not held, or is resolved through the
map with its pin; an agent's lookup goes through the cache and the tiles. -/
def execMapLookup (reader : Reader) (image : List Byte) (s : State) : Host.Outcome State Fault Refusal :=
  match reader with
  | .agent _ ns lba => .next (lookupPath s ns (lba / 256) (lba % 256) image).1
  | .tile ns seg => .next (lookupPath s ns seg 0 image).1
  | .command cid lba =>
    match ctxOf s cid with
    | none => .next s
    | some c =>
      match c.units.find? (fun u => u.lba == lba && u.st == .waiting) with
      | none => .next s
      | some u =>
        if c.stage != .admitted then .next s
        else
          match governing s c.csn u.ns u.lba with
          | some g => if g.held && !servedLost g u.ns u.lba then .next (noteSource (setUnitSt s cid u.ns u.lba (servedBy g u.ns u.lba)) cid u.lba 0) else .next s
          | none => .next (lookupUnit s c u.ns u.lba image)

/-! ## Updates (R205 to R210) -/

/-- Units with slots gathered into runs: consecutive LBAs in consecutive data slots (R245); a run of the unit none is at address 0.
A unit that may begin a coarse extent begins a run. -/
def gatherRuns (i : MapImg) : List (Nat × Option Madr) → Option Run → List Run
  | [], cur => cur.toList
  | u :: us, cur =>
    let zero : Madr := madrOfCode 0
    let fresh : Run := { lba := u.1, madr := u.2.getD zero, count := 1 }
    match cur with
    | none => gatherRuns i us (some fresh)
    | some r =>
      let joins := decide (r.count < 2048) && u.1 == r.lba + r.count && !(runIsExtent i r) &&
        (match u.2 with
          | none => madrCode r.madr == 0
          | some m => madrCode r.madr != 0 && slotAfter i r.madr r.count == some m && !(runIsExtent i { fresh with count := 256 }))
      if joins then gatherRuns i us (some { r with count := r.count + 1 }) else r :: gatherRuns i us (some fresh)

/-- Slots that an update points the map at: those of every unit of a new extent, or the one of a tile. -/
def newSlots (i : MapImg) (r : MapReq) : List Madr :=
  r.ents.filterMap (·.2.2) ++ (match r.whole with
    | none => []
    | some w => if r.who == 7 then [w.2.2] else (List.range 256).filterMap (slotAfter i w.2.2))

/-- Segments that an update changes. -/
def reqSegs (r : MapReq) : List Nat := segsOf (r.ents.map (·.1)) ++ (r.whole.map (·.1)).toList

/-- The staging area has room for one more record of the greatest length: 64 MiB for each copy, a record's space freed when the row that holds
it settles (R243, R244, R246). -/
def stagingRoom (s : State) : Bool :=
  decide ((s.jrnl.recs.filter (fun r => !r.onMedium)).foldl (fun n r => n + recLen r.body) 0 + 65536 ≤ 67108864)

/-- A segment's tile can be changed: it lies in the DRAM tier, or there is none yet, and a way for it (R196, R203). -/
def tileAtHand (s : State) (ns seg : Nat) : Bool :=
  tierRoom s ns seg && (match segOf s.map ns seg with
    | some (.fine t) => tileSource s ns seg t == .dram
    | _ => true)

/-- The copies that an update points at are programmed, and the journal can take a record. -/
def copiesReady (s : State) (r : MapReq) : Bool := stagingRoom s && (newSlots s.map r).all (pageDone s)

/-- A request can be granted: its copies are programmed, the journal can take a record, and the DRAM tier holds, or can take, the tiles it
changes. A tile writeback changes no entry and needs none. -/
def reqReady (s : State) (r : MapReq) : Bool := copiesReady s r && (r.who == 7 || (reqSegs r).all (tileAtHand s r.ns))

/-- A request whose copies failed to program is dropped: its updater treats them as invalid (R207). -/
def reqDead (s : State) (r : MapReq) : Bool :=
  r.who != 0 && (newSlots s.map r).any (fun m => match pageRecOf s m with | some p => p.st == .failed | none => true)

/-- The request that the arbiter grants: first in order of arrival, ties to the lower requester number (R22, R208). -/
def nextReq (s : State) : Option MapReq :=
  (s.eng.reqs.filter (reqReady s)).foldl (fun best r =>
    match best with
    | none => some r
    | some b => if r.cyc < b.cyc || (r.cyc == b.cyc && r.who < b.who) then some r else best) none

/-- The entry of a unit still is what the updater read (R207). -/
def stillAt (i : MapImg) (ns : Nat) (e : Nat × Option Madr × Option Madr) : Bool :=
  match e.2.1 with
  | some m => unitAt i ns e.1 == .at_ m
  | none => false

/-- The whole-segment condition of an update holds: the old COARSE entry, or the tile's GENERATION (R192, R193, R207). -/
def wholeHolds (i : MapImg) (ns : Nat) (w : Nat × (Madr ⊕ Nat) × Madr) : Bool :=
  match segOf i ns w.1, w.2.1 with
  | some (.coarse m), .inl old => m == old
  | some (.fine t), .inr g => t.generation == g
  | _, _ => false

/-- The segments of an update brought into step in every copy of the map. -/
def syncSegs (s : State) (ns : Nat) (segs : List Nat) : State := segs.foldl (fun t g => syncSeg t ns g) s

/-- A maintenance record's effect journalled and applied. -/
def commitMove (s : State) (r : MapReq) (runs : List Run) : State := syncSegs (commitRec s (.map 0 r.who r.ns runs)) r.ns (reqSegs r)

/-- A host update granted: one record, applied without compare; the command is performed, its completion waiting for the standby's
acknowledgement in a mirrored twin (R206, R210, R226, R388). -/
def grantHost (s : State) (r : MapReq) (c : Ctx) : State :=
  let fseq := s.twin.txSeq
  let waits := mirroring s
  let body := if eOpcode c.dw == 0x08 then JRec.dealloc c.csn r.ns (eLba c.dw) (eCount c.dw)
    else JRec.map c.csn 0 r.ns (gatherRuns s.map (r.ents.map (fun e => (e.1, e.2.2))) none)
  let segs := if eOpcode c.dw == 0x08 then rangeSegs (eLba c.dw) (eCount c.dw) else reqSegs r
  let t := countEvent (syncSegs (commitRec s body) r.ns segs) 0x09 0 1
  let res := copyResults c
  let t := perform t c.cid res.1 res.2.1 res.2.2
  updCtx t c.cid (fun c => { c with promised := 0, tTranslate := s.now, awaitAck := if waits then some fseq else none })

/-- A lost declaration granted: the units still at the MADR named are marked, journalled and listed, with one event (R205, R207,
R360). -/
def grantLost (s : State) (r : MapReq) : State :=
  let hit := (sortBy (fun a b => decide (a ≤ b)) ((r.ents.filter (stillAt s.map r.ns)).map (·.1)))
  let t := (lbaRuns hit none).foldl (fun t x => commitRec t (.lost r.ns x.1 x.2 s.cad.aet false)) s
  let t := syncSegs t r.ns (segsOf hit)
  if hit.isEmpty then t else raiseEvent t 2 4 t.media.horizon hit.length

/-- A conditional update that failed its compare (R207). -/
def compareFailed (s : State) (r : MapReq) : State := countEvent s 0x0A r.who 1

/-- One update granted and applied (Table 8-11). -/
def grantReq (s : State) (r : MapReq) : State :=
  if r.who == 0 then
    match r.cid.bind (ctxOf s) with
    | some c => grantHost s r c
    | none => s
  else if r.who == 6 then grantLost s r
  else
    match r.whole with
    | some w =>
      if r.who == 7 then
        match segOf s.map r.ns w.1, w.2.1 with
        | some (.fine _), .inr g => syncSegs (commitRec s (.tileHome r.ns w.1 w.2.2 r.capture g)) r.ns [w.1]
        | _, _ => s
      else if wholeHolds s.map r.ns w && segNoLost s.map r.ns w.1 then
        commitMove s r [{ lba := 256 * w.1, madr := w.2.2, count := 256 }]
      else compareFailed s r
    | none =>
      if r.ents.all (stillAt s.map r.ns) then commitMove s r (gatherRuns s.map (r.ents.map (fun e => (e.1, e.2.2))) none)
      else compareFailed s r

/-- The tiles that an update waits for are asked for: a way of a full set written back, a tile that is not in DRAM read from the medium, or from
the host tier by a lookup (R196, R203, R209). -/
def fetchTiles (s : State) (r : MapReq) : State :=
  if r.who == 7 then s
  else (reqSegs r).foldl (fun t g =>
    let t := makeWay t r.ns g
    match segOf t.map r.ns g with
    | some (.fine ti) => (match tileSource t r.ns g ti with | .medium h => wantTile t r.ns g h | _ => t)
    | _ => t) s

/-- One turn of the map entry arbiter. Where no update can be granted, the tiles that the programmed ones wait for are asked for. -/
def mapTurn (s : State) : State :=
  let t := updEng s (fun e => { e with reqs := e.reqs.filter (fun r => !reqDead s r) })
  match nextReq t with
  | none => (t.eng.reqs.filter (copiesReady t)).foldl fetchTiles t
  | some r => settleFull (grantReq (updEng t (fun e => { e with reqs := e.reqs.erase r })) r)

/-- MAP_UPDATE (R205): the next update is granted in one turn of the map entry arbiter, applied and journalled. -/
def execMapUpdate (s : State) : Host.Outcome State Fault Refusal := if s.jrnl.stopFrom.isSome then settled s else settled (mapTurn s)

/-- TILE_WRITEBACK (R203): a dirty tile is written to a MAP-stream slot and its new home asked of the arbiter. -/
def execTileWriteback (ns seg : Nat) (s : State) : Host.Outcome State Fault Refusal :=
  match segOf s.map ns seg with
  | some (.fine t) =>
    if (t.dirtySince.isNone && t.home.isSome) || segAsked s ns seg || s.jrnl.stopFrom.isSome then .next s else .next (writeTile s ns seg)
  | _ => .next s

end Sys2Proof.Machine
end

