-- ==== Sys2Proof/Machine/Retention.lean ====
section
/-! DEFINITION. The retention model of chapter 13: thermal clocks and logs (R312 to R315), consumed fractions and margins (R316), horizons
(R318, R332), wear (R319, R331), retention-due sets (R325), shortfall (R327), unpowered time (R328, R329). -/
namespace Sys2Proof.Machine
open Sys2Proof

/-! ## Thermal clocks (R312 to R315) -/

/-- A value held between two bounds. -/
def clampN (lo hi x : Nat) : Nat := Nat.max lo (Nat.min hi x)

/-- Seconds that a thermal clock gains in one powered minute at a temperature: 60 x AF clamped to 1/AF_CAP to AF_CAP (R312). -/
def minuteGain (f : Profile) (t : Int) : Nat :=
  clampN (60 / Nat.max f.afCap 1) (60 * f.afCap) (Config.agedMinute f.eaMev f.refTemp t)

/-- Seconds that n seconds at T_UNKNOWN count for. -/
def unknownGain (f : Profile) (n : Nat) : Nat :=
  n * clampN (1000 / Nat.max f.afCap 1) (1000 * f.afCap) (Config.agedUnknown f.eaMev f.refTemp f.tUnknown) / 1000

/-- The thermal log of a BAY_UID, newest first. -/
def thermLog (s : State) (uid : Nat) : List (Nat × Nat) := ((s.media.thermLogs.find? (fun l => l.1 == uid)).map (·.2)).getD []

/-- A log with an entry more; of a full one, every second entry of the older half is removed (R315). -/
def everySecond {α : Type} : List α → List α
  | [] => []
  | [a] => [a]
  | a :: _ :: rest => a :: everySecond rest

def growLog (l : List (Nat × Nat)) (e : Nat × Nat) : List (Nat × Nat) :=
  if l.length < 4096 then e :: l else e :: (l.take 2048 ++ everySecond (l.drop 2048))

/-- TC_b appended to the log of a bay's carrier (R315). -/
def logBay (s : State) (b : Bay) : State :=
  if b.uid == 0 then s
  else
    let e := (aetSec s.cad.aet, b.tc)
    updMedia s (fun m =>
      { m with
        thermLogs :=
          if m.thermLogs.any (fun l => l.1 == b.uid) then m.thermLogs.map (fun l => if l.1 == b.uid then (l.1, growLog l.2 e) else l)
          else m.thermLogs ++ [(b.uid, [e])] })

/-- TC_b at an AET second (R315). -/
def tcAt (s : State) (f : Profile) (b : Bay) (t : Nat) : Int :=
  let l := thermLog s b.uid
  match l.find? (fun e => decide (e.1 ≤ t)) with
  | some e => e.2
  | none =>
    match l.getLast? with
    | some e => (e.2 : Int) - (unknownGain f (e.1 - t) : Int)
    | none => b.tc

/-! ## The model of a set (Table 13-3) -/

/-- Highest PE_COUNT among a set's blocks. -/
def setPe (s : State) (k : SetRec) : Nat := (blocksOfSet k).foldl (fun n b => Nat.max n (blkOf s b).pe) 1

/-- RET(x) for pe cycles, in days times RATED_PE: linear between the nine points, the last slope beyond, at least 1 day (R316). -/
def retScaled (f : Profile) (pe : Nat) : Nat :=
  let r := Nat.max f.ratedPe 1
  let at_ (i : Nat) : Nat := f.ret.getD i 1
  let i := Nat.min (4 * pe / r) 7
  let lo := at_ i
  let hi := at_ (i + 1)
  Nat.max r (lo * r - (lo - hi) * (4 * pe - i * r))

/-- A: the greatest thermal age, in seconds, over the bays that hold a column (R316). -/
def setAge (s : State) (f : Profile) (k : SetRec) : Nat :=
  k.cols.foldl (fun n c =>
    match bayOf s c.2.bay with
    | some b => Nat.max n ((b.tc : Int) - tcAt s f b (aetSec k.openAet)).toNat
    | none => n) 0

/-- f_a in ppm. -/
def ageFraction (s : State) (f : Profile) (k : SetRec) : Nat :=
  setAge s f k * Nat.max f.ratedPe 1 * 1000000 / (86400 * retScaled f (setPe s k))

/-- f in ppm: the greater of f_a and f_m. -/
def consumed (s : State) (f : Profile) (k : SetRec) : Nat := Nat.max (ageFraction s f k) (measuredOf s k.seq)

/-- M in seconds: (1 - f) x RET(x), not below 0. -/
def marginSec (s : State) (f : Profile) (k : SetRec) : Nat :=
  let ret := retScaled f (setPe s k) * 86400 / Nat.max f.ratedPe 1
  Nat.min (ret - setAge s f k) (ret * (1000000 - measuredOf s k.seq) / 1000000)

/-- M of a set under its own profile; 0 where the profile is gone. -/
def marginOf (s : State) (k : SetRec) : Nat :=
  match profileOf s k.profile with
  | some f => marginSec s f k
  | none => 0

/-! ## Wear -/

/-- Highest PE_COUNT of a bay's blocks (WEAR_MAX). -/
def wearMax (s : State) (b : Nat) : Nat := (s.map.blocks.filter (fun x => x.addr.bay == b)).foldl (fun n x => Nat.max n x.pe) 1

/-- Sum of PE_COUNT over a bay's usable blocks; blocks never listed count one cycle. -/
def peSumBay (s : State) (f : Profile) (b : Bay) : Nat :=
  let listed := s.map.blocks.filter (fun x => x.addr.bay == b.bay && x.st != .retired)
  listed.foldl (fun n x => n + x.pe) 0 + (usableBlocks s f b - listed.length)

/-- Sum and number over a profile. -/
def peTotals (s : State) (p : Nat) : Nat × Nat :=
  match profileOf s p with
  | none => (0, 0)
  | some f => (countedBays s p).foldl (fun a b => (a.1 + peSumBay s f b, a.2 + usableBlocks s f b)) (0, 0)

/-- C_p in hours (R319). -/
def cycleHours (s : State) (p : Nat) : Nat :=
  match profileOf s p with
  | none => 24
  | some f =>
    let t := peTotals s p
    let base := t.2 * Nat.max f.ratedPe 1
    if base == 0 then Nat.max 24 (24 * s.feat.patrolDays)
    else Nat.max 24 (24 * s.feat.patrolDays * base / Nat.max base t.1)

/-- The first grid point after t, for an interval i (R76). -/
def nextGrid (t i : Nat) : Nat := if i == 0 then t else (t / i + 1) * i

/-- When the next occurrence is due after one that started at t (R76): half an interval later, or at the first grid point after t. -/
def nextDue (t i : Nat) : Nat := Nat.max (t + (i + 1) / 2) (nextGrid t i)

/-! ## Agents' state per profile -/

/-- A profile that no agent has worked yet. -/
def freshProf (p : Nat) : ReclaimSt where
  profile := p
  on := false
  reserveOn := false
  rescue := none
  shortfall := false
  lastLowered := 0
  armed := true
  patrolOn := false
  patrolList := []
  patrolDone := []
  patrolNext := 0
  patrolLate := false
  patrolRead := []

/-- The agents' state of a profile. -/
def profSt (s : State) (p : Nat) : ReclaimSt := (s.media.prof.find? (fun x => x.profile == p)).getD (freshProf p)

/-- The agents' state of a profile changed. -/
def updProf (s : State) (p : Nat) (g : ReclaimSt → ReclaimSt) : State :=
  let new := g (profSt s p)
  updMedia s (fun m =>
    { m with
      prof := if m.prof.any (fun x => x.profile == p) then m.prof.map (fun x => if x.profile == p then new else x) else m.prof ++ [new] })

/-- Sets that have been emptied leave patrol's list; a cycle with no set left is done (R320). -/
def settlePatrol (s : State) : State :=
  updMedia s (fun m => { m with prof := m.prof.map (fun q =>
    let left := q.patrolList.filter (fun n => s.map.sets.any (fun k => k.seq == n && setLive s k))
    { q with patrolList := left, patrolOn := q.patrolOn && !left.isEmpty }) })

/-! ## Horizons (R318, R327, R332) -/

/-- H_b in days. -/
def bayHorizon (s : State) (b : Bay) : Nat :=
  match b.profile.bind (profileOf s) with
  | none => 0
  | some f =>
    let own := retScaled f (wearMax s b.bay) / Nat.max f.ratedPe 1
    let sets := (liveSets s).filter (fun k => k.cols.any (fun c => c.2.bay == b.bay))
    sets.foldl (fun n k => Nat.min n (marginSec s f k / 86400)) own - f.guardDays

/-- HORIZON_ALERT judged again (R332). -/
def settleAlert (s : State) : State :=
  let min := s.feat.horizonMin
  if s.media.alert then
    if min == 0 || ceilDiv (105 * min) 100 ≤ s.media.horizon then updMedia s (fun m => { m with alert := false }) else s
  else if min != 0 && s.media.horizon < min then
    raiseEvent (updMedia s (fun m => { m with alert := true })) 2 2 s.media.horizon 0
  else s

/-- HORIZON_LOWERED for a profile in shortfall whose horizon has halved since the last such event (R327). -/
def settleLowered (s : State) (p : Nat) : State :=
  let q := profSt s p
  if q.shortfall && 2 * s.media.horizon < q.lastLowered then
    raiseEvent (updProf s p (fun q => { q with lastLowered := s.media.horizon })) 2 3 s.media.horizon 0
  else s

/-- Horizons recomputed (R318). -/
def recomputeHorizon (s : State) : State :=
  let hs := (s.media.bays.filter (fun b => b.st == .member || b.st == .evacuating)).map (fun b => (b.bay, bayHorizon s b))
  let h := hs.foldl (fun n x => Nat.min n x.2) 0xFFFFFFFF
  let t := settleAlert (updMedia s (fun m => { m with horizon := h, bayHorizon := hs }))
  (profileNums t).foldl settleLowered t

/-- Every last-stand share of a profile is full (R327). -/
def lastStandFull (s : State) (p : Nat) : Bool :=
  match profileOf s p with
  | none => true
  | some f => (memberBays s p).all (fun b => decide (lastFull f b ≤ erasedOn s f b))

/-- A shortfall begins or ends, each with a recomputation (R318, R327). -/
def startShortfall (s : State) (p : Nat) : State :=
  if (profSt s p).shortfall then s
  else
    let t := recomputeHorizon (updProf s p (fun q => { q with shortfall := true }))
    raiseEvent (updProf t p (fun q => { q with lastLowered := t.media.horizon })) 2 3 t.media.horizon 0

def settleShortfall (s : State) (p : Nat) : State :=
  if (profSt s p).shortfall && lastStandFull s p then recomputeHorizon (updProf s p (fun q => { q with shortfall := false })) else s

/-- ENDURANCE_ADVISORY at a mean wear of 0.90, armed again below 0.85 (R331). -/
def settleAdvisory (s : State) (p : Nat) : State :=
  match profileOf s p with
  | none => s
  | some f =>
    let t := peTotals s p
    let base := t.2 * f.ratedPe
    let q := profSt s p
    if base == 0 || (memberBays s p).isEmpty then s
    else if q.armed && 90 * base ≤ 100 * t.1 then
      raiseEvent (updProf s p (fun q => { q with armed := false })) 2 1 s.media.horizon 0
    else if !q.armed && 100 * t.1 < 85 * base then updProf s p (fun q => { q with armed := true })
    else s

/-! ## Sets due for refresh (R325, R326) -/

/-- Severity of a set by the model (Table 13-4); 0 where it is not due. -/
def dueSeverity (s : State) (k : SetRec) : Nat :=
  match profileOf s k.profile with
  | none => 0
  | some f =>
    let c := consumed s f k
    let m := marginSec s f k
    let guard_ := 86400 * f.guardDays
    let min := s.feat.horizonMin
    if f.fLimit * 100 ≤ c || m < guard_ + 2 * 3600 * cycleHours s k.profile then 2
    else if min != 0 && m < guard_ + 86400 * min && 125000 ≤ c then 1
    else 0

/-- The severity of a set, its triggers included. -/
def severityOf (s : State) (k : SetRec) : Nat :=
  Nat.max (dueSeverity s k) (((s.media.refresh.find? (fun t => t.seq == k.seq)).map (·.severity)).getD 0)

/-- REFRESH's list: closed sets with a severity, most severe first, then by M, then by BLOCK_SEQ; a profile in shortfall gives only
severities 2 and 3 (R326, R327). -/
def refreshList (s : State) : List SetRec :=
  let due := (liveSets s).filter (fun k => k.closed && k.stream != .system &&
    decide ((if (profSt s k.profile).shortfall then 1 else 0) < severityOf s k))
  let key (k : SetRec) := [3 - severityOf s k, marginOf s k, k.seq]
  sortBy (fun a b => keyLe (key a) (key b)) due

/-! ## Unpowered time (R328, R329) -/

/-- Sets at risk by f_a (R329). -/
def atRiskSets (s : State) : List Nat :=
  ((liveSets s).filter (fun k =>
    match profileOf s k.profile with
    | some f => decide (f.fWake * 100 ≤ ageFraction s f k)
    | none => false)).map (·.seq)

/-- Pages of a set that the sweep counts: every DONE page but PAD. -/
def sweepPagesOf (s : State) (q : Nat) : Nat :=
  if (setOf s q).isNone then 0 else (s.media.pages.filter (fun p => p.seq == q && p.kind != 8 && p.st == .done)).length

/-- Pages that the sweep has still to read (R330). -/
def sweepLeft (s : State) : Nat :=
  s.media.atRisk.foldl (fun n q =>
    if s.media.swept.contains q then n
    else n + (sweepPagesOf s q - (s.media.sweepRead.filter (fun a => s.media.pages.any (fun p => p.addr == a && p.seq == q))).length)) 0

/-- SWEEP_DONE, 0.01 %: 10,000 when no sweep runs; pages of sets that left the sweep count as done (R330). -/
def sweepDone (s : State) : Nat :=
  if s.media.atRisk.isEmpty || s.media.sweepPages == 0 then 10000
  else (s.media.sweepPages - sweepLeft s) * 10000 / s.media.sweepPages

/-- The at-risk list set; REDUCED_ASSURANCE follows it. -/
def setAtRisk (s : State) (l : List Nat) : State :=
  let gone := s.media.sweepPages - s.media.atRisk.foldl (fun n q => if l.contains q then n + sweepPagesOf s q else n) 0
  let total := gone + l.foldl (fun n q => n + sweepPagesOf s q) 0
  let t := updMedia s (fun m => { m with atRisk := l, sweepPages := total, swept := m.swept.filter (fun q => l.contains q) })
  if !l.isEmpty && l.any (fun q => !t.media.swept.contains q) then setFlags t [(bReduced, true)]
  else
    let t := updMedia t (fun m => { m with atRisk := [], swept := [], sweepRead := [], sweepPages := 0 })
    if flag t.cond bReduced then setFlags t [(bReduced, false)] else t

/-- The unpowered time fixed by the first applied set that makes AET valid: every TC_b and its log, UNPOWERED_S, the sets at risk
(R328, R329). -/
def fixUnpowered (s : State) (u : Nat) : State :=
  let t := updMedia s (fun m =>
    { m with unpowered := u
             bays := m.bays.map (fun b => if b.st == .member || b.st == .evacuating then { b with tc := b.tc + u } else b) })
  let t := (t.media.bays.filter (fun b => b.st == .member || b.st == .evacuating)).foldl logBay t
  recomputeHorizon (setAtRisk t (atRiskSets t))

end Sys2Proof.Machine
end

