-- ==== Sys2Proof/Machine/ReadPath.lean ====
section
/-! DEFINITION. The read path of chapter 12: medium reads (R288), the recovery ladder (R300 to R304), acceptance of candidates (R302), rung 5
(R303, R340), outcomes (R306, R307), refresh triggers (R309), and what patrol measures (R317). -/
namespace Sys2Proof.Machine
open Sys2Proof

/-! ## Temperatures and bands (R294 to R296) -/

/-- A die temperature from the byte that sequence 8 returns (R294) (assumption 36). -/
def dieTemp (f : Profile) (raw : Nat) : Int := f.bias + (raw : Int) * f.scale / 256

/-- Bands that a first sample falls in (R295). -/
def firstBand (f : Profile) (t : Int) : Nat := ((f.upper.take (f.bands - 1)).filter (fun u => decide (u ≤ t))).length

/-- A band moved by a sample, as many bands as the rules allow (R295). -/
def moveBand (f : Profile) (t : Int) (b : Nat) : Nat :=
  let up := firstBand f t
  if b < up then up
  else
    let low := ((f.upper.take (f.bands - 1)).filter (fun u => decide (u - f.hysteresis ≤ t))).length
    Nat.min b low

/-- A die sampled: its temperature, band and band history (R295, R313). -/
def sampleDie (s : State) (id : DieId) (raw : Nat) : State :=
  match bayProfile s id.bay with
  | none => s
  | some f =>
    let t := dieTemp f raw
    let s := updDie s id (fun d =>
      let b := match d.band with | none => firstBand f t | some b => moveBand f t b
      { d with
        sample := some (s.now, t), band := some b
        hist := if d.band == some b then d.hist else ((aetSec s.cad.aet, b) :: d.hist).take 4096 })
    updBay s id.bay (fun b => { b with lastTemp := some t, minuteTemp := some (match b.minuteTemp with | some x => if x < t then t else x | none => t) })

/-- The write band of a page (R296): known only for a tagged page whose epoch the die's history covers. -/
def writeBand (s : State) (p : PageRec) : Option Nat :=
  if p.kind == 0 then none
  else ((dieStOf s (dieOf p.addr)).bind (fun d => d.hist.find? (fun h => decide (h.1 ≤ p.epoch)))).map (·.2)

/-! ## Ladders (Table 12-5) -/

/-- The page type of a page of a block. -/
def pageTypeOf (f : Profile) (page : Nat) : Nat := f.typeOfPage.getD page 0

/-- The ladder of a page. -/
def ladderOf (s : State) (page : Madr) : Option Ladder := s.media.ladders.find? (fun l => l.page == pageOf page)

/-- A ladder changed, or ended. -/
def putLadder (s : State) (l : Ladder) : State :=
  updMedia s (fun m => { m with ladders := m.ladders.map (fun x => if x.page == l.page then l else x) })
def dropLadder (s : State) (page : Madr) : State :=
  updMedia s (fun m => { m with ladders := m.ladders.filter (fun x => x.page != page) })

/-- Reads of rung 1: one per other band while the write band is unknown, then one per retry entry. -/
def unknownReads (s : State) (f : Profile) (p : PageRec) : Nat := if (writeBand s p).isNone then f.bands - 1 else 0
def retryEntries (f : Profile) (p : PageRec) : Nat := ((f.pageTypes[pageTypeOf f p.addr.page]?).map (·.entries)).getD 0

/-- The retry entry that read i of rung 1 uses; 0 for an unknown-band read. -/
def entryOf (s : State) (f : Profile) (p : PageRec) (i : Nat) : Nat :=
  if i < unknownReads s f p then 0 else i - unknownReads s f p + 1

/-- The rung and read that follow; none after rung 5. -/
def nextRung (s : State) (p : PageRec) (rung entry : Nat) : Option (Nat × Nat) :=
  match bayProfile s p.addr.bay with
  | none => if rung < 5 then some (5, 0) else none
  | some f =>
    let n := unknownReads s f p + retryEntries f p
    if rung == 0 then some (if 0 < n then (1, 0) else (2, 0))
    else if rung == 1 then some (if entry + 1 < n then (1, entry + 1) else (2, 0))
    else if rung < 5 then some (rung + 1, 0)
    else none

/-- A page that reads no longer reach: its bay is not connected or FAILED, its die failed or timing out (R304). -/
def pageDown (s : State) (m : Madr) : Bool :=
  (match bayOf s m.bay with
    | none => true
    | some b => b.st == .failed || b.st == .absent || b.st == .released || b.failedDies.contains (dieNum (dieOf m))) ||
    (match dieStOf s (dieOf m) with | some d => d.failed || decide (2 ≤ d.timeouts) | none => false)

/-! ## Who wants a page -/

/-- Units of commands that wait for slots of a page. -/
def commandReaders (s : State) (page : Madr) : List (Reader × Nat) :=
  s.ctxs.flatMap (fun c => c.units.filterMap (fun u =>
    match u.st with
    | .medium m => if pageOf m == page then some (.command c.cid u.lba, m.slot) else none
    | _ => none))

/-- Tiles of the page that a lookup wants from the medium (R197, R209). -/
def tileReaders (s : State) (p : PageRec) : List (Reader × Nat) :=
  (s.eng.tileReads.filter (fun x => pageOf x.2.2 == p.addr)).map (fun x => (.tile x.1 x.2.1, x.2.2.slot))

/-- Patrol or the wake sweep has still to read a page: a page other than PAD of a listed set, claimed or, in an open set, of a settled
row (R320, R330). -/
def patrolWants (s : State) (p : PageRec) : Bool :=
  p.kind != 8 && p.st == .done && !(colDownAt s p) &&
    (match setAt s.map p.addr with
      | none => false
      | some k =>
        let rowOk := k.closed || (match openOf s k.seq with
          | some o => p.addr.page == 0 || o.rows.any (fun r => r.row == p.row && r.settled) || decide (p.row < o.nextRow) && !(o.rows.any (fun r => r.row == p.row))
          | none => true)
        rowOk &&
          ((s.media.prof.any (fun q => q.profile == k.profile && q.patrolOn && q.patrolList.contains k.seq && !q.patrolRead.contains p.addr)
              && s.media.patrolPause.isNone)
            || (s.media.atRisk.contains k.seq && !s.media.swept.contains k.seq && !s.media.sweepRead.contains p.addr)))
where
  /-- The page lies on a failed member. -/
  colDownAt (s : State) (p : PageRec) : Bool := pageDown s p.addr

/-- Readers of a page: commands, tiles, patrol. -/
def wantedBy (s : State) (p : PageRec) : List (Reader × Nat) :=
  commandReaders s p.addr ++ tileReaders s p
    ++ (if patrolWants s p then (List.range 4).map (fun n => (.agent .patrol 0 0, n)) else [])

/-- The die requester of a ladder: 0 while a command or its tile is among the readers, else patrol (Table 9-8). -/
def readersWho (rs : List (Reader × Nat)) : Nat := if rs.any (fun r => match r.1 with | .agent .. => false | _ => true) then 0 else 9

/-- Slot numbers of readers, each once. -/
def readerSlots (rs : List (Reader × Nat)) : List Nat := (List.range 4).filter (fun n => rs.any (fun r => r.2 == n))

/-- A ladder started on a page at rung 0, or at rung 5 where no read reaches it (R300, R304). -/
def startLadder (s : State) (page : Madr) (who : Nat) (readers : List (Reader × Nat)) (slots : List Nat) (second : Bool) : State :=
  let down := pageDown s page
  let l : Ladder :=
    { page := page, rung := if down then 5 else 0, entry := 0, carried := slots, who := who
      readBand := ((dieStOf s (dieOf page)).bind (·.band)).getD 0, refused := [], readers := readers, second := second }
  let t := updMedia s (fun m => { m with ladders := m.ladders ++ [l] })
  let t := if readers.any (fun r => match r.1 with | .agent .. => true | _ => false) then pinBlock t page else t
  if down then t else issueOp t (mkOp t 2 page who)

/-- MEDIUM_READ_ISSUE (R288): a page that a reader needs is read: a new ladder at its first rung, or the next read of the page's running
ladder. -/
def execMediumReadIssue (page : Madr) (cyc : Nat) (s : State) : Host.Outcome State Fault Refusal :=
  let t := advanceTo s cyc
  if t.jrnl.stopFrom.isSome then .next t
  else
    match ladderOf t page, pageRecOf t page with
    | some l, _ =>
      let pendingRead := anyOp t (fun o => o.page == l.page && o.seqNo == 2)
      if l.rung == 5 || pendingRead then .next t else .next (issueOp t (mkOp t 2 l.page l.who))
    | none, none => .next t
    | none, some p =>
      let rs := wantedBy t p
      if rs.isEmpty then .next t else .next (startLadder t p.addr (readersWho rs) rs (readerSlots rs) false)

/-! ## Candidates (R302) -/

/-- What a codeword's candidate is judged to be: accepted with its content, or refused by GUARD (1) or REF_TAG (2). -/
inductive Judged where
  | ok (b : Option Block)
  | refused (kind : Nat)
  deriving DecidableEq, Repr

/-- The home address that a tile image carries. -/
def tileHomeIn (bs : List Byte) : Nat := field bs 0x818 8

/-- A candidate judged for a slot of a page (R302). -/
def judge (s : State) (p : PageRec) (n : Nat) (cand : Option Block) (same : Bool) : Judged :=
  match slotN p n, cand with
  | some x, some b =>
    if userKind p.kind then
      match blockFault (nsFormat s x.ns) x.lba none b with
      | none => .ok (some b)
      | some st => .refused (if st == 0x2001 then 1 else 2)
    else if p.kind == 3 then
      if tileImageOk x.ns x.lba b.data && tileHomeIn b.data == madrCode { p.addr with slot := n } then .ok (some b) else .refused 1
    else if same then .ok (some b) else .refused 1
  | _, c => if same || p.kind == 0 then .ok c else .refused 1

/-- The candidate that a decode result offers: content, whether it is the content written, corrected bits. -/
def candidateOf (p : PageRec) (n : Nat) : DecodeResult → Option (Option Block × Bool × Nat)
  | .failed => none
  | .asWritten c => some ((slotN p n).bind (·.block), true, c)
  | .other b c => some (some b, false, c)

/-! ## Rung 5 (R303, R340) -/

/-- A block's fields cut from a codeword payload. -/
def blockOfPayload (bs : List Byte) : Block where
  data := slice bs 0 4096
  hostMeta := slice bs 4096 48
  guard := BitVec.ofNat 64 (field bs 4144 8)
  appTag := BitVec.ofNat 16 (field bs 4152 2)
  refTag := BitVec.ofNat 48 (field bs 4154 6)

/-- The page of a column that recovery may use: DONE, not on a failed member, and not among the erasures. -/
def availablePage (s : State) (k : SetRec) (row u : Nat) (erased : List Nat) (col : Nat) : Option PageRec :=
  if erased.contains col then none
  else (rowPageOf s.media.pages k row col u).filter (fun p => p.st == .done && !pageDown s p.addr)

/-- Columns whose page at a position of a row cannot be used. -/
def unavailableCols (s : State) (k : SetRec) (row u : Nat) (erased : List Nat) : List Nat :=
  (List.range k.w).filter (fun c => (availablePage s k row u erased c).isNone)

/-- Data pages of a row, by column and position, that cannot be used: the row's one accumulator gives back one of them at most (R229). -/
def rowMissing (s : State) (k : SetRec) (row : Nat) : List (Nat × Nat) :=
  (dataCols k.w k.p row).flatMap (fun c => ((List.range k.stripeUnit).filter (fun u => (availablePage s k row u [] c).isNone)).map (fun u => (c, u)))

/-- Every parity page of a row has finished (R303). -/
def parityFinished (s : State) (k : SetRec) (row : Nat) : Bool :=
  (List.range k.p).all (fun n => (List.range k.stripeUnit).all (fun u =>
    match (colBlock k ((row + n) % k.w)).bind (fun b => pageRecOf s { b with page := rowPage k row u }) with
    | some p => p.st == .done
    | none => false))

/-- The string of a page recovered from the other pages of its row, or from the shield accumulator while its parity has not
finished; the page itself and the columns named count as erasures (R303, R340). -/
def recoverPage (s : State) (k : SetRec) (p : PageRec) (erased : List Nat) : Option (List Byte) :=
  let u := p.addr.page - rowPage k p.row 0
  let gone := p.col :: erased
  let cols := dataCols k.w k.p p.row
  let ds := cols.map (fun c => (availablePage s k p.row u gone c).map pageString)
  if parityFinished s k p.row then
    let qs := (List.range k.p).map (fun n => (availablePage s k p.row u gone ((p.row + n) % k.w)).map pageString)
    let accept (sol : List (List Byte)) : Bool :=
      ((sol.zip ds).filter (fun x => x.2.isNone)).all (fun x => stringPasses (nsFormat s) x.1)
    (reconstruct k.p (colRoles k p.row) ds qs accept).bind (fun r =>
      if isParityCol k.w k.p p.row p.col then some (parityOf ((p.col + k.w - p.row % k.w) % k.w) r.1)
      else r.1[indexIn p.col cols]?)
  else if (rowMissing s k p.row).all (· == (p.col, u)) && cols.all (fun c => c == p.col || !erased.contains c) && !isParityCol k.w k.p p.row p.col then
    some (pageString p)
  else none

/-! ## Outcomes -/

/-- Units of commands at a slot given a state, their pins released (R285). -/
def resolveSlot (s : State) (m : Madr) (rung : Nat) (st : UnitSt) : State :=
  let n := s.ctxs.foldl (fun n c => n + (c.units.filter (fun u => u.st == .medium m)).length) 0
  let t := { s with ctxs := s.ctxs.map (fun c =>
    if c.units.any (fun u => u.st == .medium m) then
      { c with units := c.units.map (fun u => if u.st == .medium m then { u with st := st } else u)
               pRung := if c.pRung == 15 then rung else Nat.max c.pRung rung, tMedium := s.now }
    else c) }
  (List.range n).foldl (fun t _ => unpinBlock t m) t

/-- Patrol's corrected-bit count of a codeword as R317 takes it. -/
def measuredBits (f : Profile) (rung corrected : Nat) : Nat :=
  if rung == 0 then corrected else if rung == 1 then Nat.max corrected f.refreshLimit else f.cEnd

/-- A measured fraction in ppm (R317). -/
def fractionOf (f : Profile) (c : Nat) : Nat :=
  if f.cEnd ≤ f.cFresh then 0 else Nat.min 1000000 ((c - f.cFresh) * 1000000 / (f.cEnd - f.cFresh))

/-- A set's measured fraction raised by a codeword that patrol read (R317). -/
def noteMeasure (s : State) (seq v : Nat) : State :=
  updMedia s (fun m =>
    { m with measured := if m.measured.any (fun x => x.seq == seq) then
        m.measured.map (fun x => if x.seq == seq then { x with ppm := Nat.max x.ppm v, run := Nat.max x.run v } else x)
      else m.measured ++ [{ seq := seq, ppm := v, run := v }] })

/-- A refresh trigger raised on the set of a page (R309). -/
def triggerAt (s : State) (page : Madr) (severity : Nat) : State :=
  match setAt s.map page with
  | some k => if severity == 0 then s else raiseTrigger s k.seq severity
  | none => s

/-- Severity of an accepted codeword (Table 12-6). -/
def acceptSeverity (s : State) (l : Ladder) (p : PageRec) (n corrected : Nat) : Nat :=
  match bayProfile s p.addr.bay with
  | none => 0
  | some f =>
    let tooMany := decide (f.refreshLimit < corrected)
    let ri := ((f.pageTypes[pageTypeOf f p.addr.page]?).map (·.refreshIndex)).getD 64
    if l.rung == 5 || l.refused.any (fun r => r.1 == n) then 3
    else if 2 ≤ l.rung then 2
    else if l.rung == 1 then (if tooMany || decide (ri ≤ entryOf s f p l.entry) then 1 else 0)
    else if tooMany then 1 else 0

/-- The offset cache takes what decoded a page at rungs 1 to 4 (R299). -/
def noteOffset (s : State) (p : PageRec) (l : Ladder) : State :=
  if l.rung == 0 || l.rung == 5 then s
  else
    match bayProfile s p.addr.bay with
    | none => s
    | some f =>
      let key := (blockOf p.addr, pageTypeOf f p.addr.page)
      updMedia s (fun m => { m with offsets :=
        (m.offsets.filter (fun o => !(o.1 == key.1 && o.2.1 == key.2))) ++ [(key.1, key.2, l.entry)] })

/-- A codeword leaves its ladder with an accepted candidate (R302, R306). -/
def acceptSlot (s : State) (l : Ladder) (p : PageRec) (n corrected : Nat) (content : Option Block) : State :=
  let m := { p.addr with slot := n }
  let recovered := decide (0 < l.rung)
  let user := userKind p.kind && (slotN p n).isSome
  let t := match content with | some b => resolveSlot s m l.rung (.got b recovered) | none => s
  let t := if recovered && user then updHealth t (fun h => { h with recovered := h.recovered + 1 }) else t
  let t := noteOffset (triggerAt t p.addr (acceptSeverity s l p n corrected)) p l
  let t := match slotN p n with
    | some x =>
      if p.kind == 3 then
        match segOf t.map x.ns x.lba with
        | some (.fine ti) =>
          let t := tileRead (countEvent t 0x08 0 1) m
          if ti.home == some m && !dirtyTile ti then fillFrame t x.ns x.lba ti else t
        | _ => tileRead t m
      else t
    | none => t
  if l.readers.any (fun r => r.1 == .agent .patrol 0 0) then
    match setAt t.map p.addr, bayProfile t p.addr.bay with
    | some k, some f => noteMeasure t k.seq (fractionOf f (measuredBits f l.rung corrected))
    | _, _ => t
  else t

/-- A tile unreadable by any rung becomes a tile of 256 UNWRITTEN entries with LOST; its LBAs are listed (R211). -/
def tileLost (s : State) (ns seg : Nat) : State :=
  let t := commitRec s (.lost ns (256 * seg) 256 s.cad.aet true)
  raiseEvent (syncSeg t ns seg) 2 4 t.media.horizon 256

/-- A codeword whose ladder ended without data (R307). -/
def loseSlot (s : State) (l : Ladder) (p : PageRec) (n : Nat) : State :=
  let m := { p.addr with slot := n }
  let kind := ((l.refused.find? (fun r => r.1 == n)).map (·.2)).getD 0
  let t := resolveSlot s m 5 (.failed kind)
  let t := if userKind p.kind && (slotN p n).isSome && !l.second then updHealth t (fun h => { h with unrecovered := h.unrecovered + 1 }) else t
  let t := triggerAt t p.addr 3
  let t := match slotN p n with
    | some x =>
      if p.kind == 3 then
        match segOf t.map x.ns x.lba with
        | some (.fine ti) => if ti.home == some m && !dirtyTile ti then tileLost (tileRead t m) x.ns x.lba else tileRead t m
        | _ => tileRead t m
      else t
    | none => t
  let t := updMedia t (fun q => { q with ladderFails := if q.ladderFails.contains m then q.ladderFails else q.ladderFails ++ [m] })
  if l.readers.any (fun r => r.1 == .agent .patrol 0 0) then
    match setAt t.map p.addr, bayProfile t p.addr.bay with
    | some k, some f => noteMeasure t k.seq (fractionOf f f.cEnd)
    | _, _ => t
  else t

/-- Pages of a set that patrol reads: every DONE page but PAD and those no read reaches (R320). -/
def patrolPages (s : State) (k : SetRec) : List Madr :=
  (s.media.pages.filter (fun p => p.seq == k.seq && p.kind != 8 && p.st == .done && (colOf k p.addr).isSome && !pageDown s p.addr)).map (·.addr)

/-- A patrol reader's page done: counted for the cycle and the sweep; a set read in full is done, its claim released and its measure set
(R317, R320, R330). -/
def patrolPageDone (s : State) (page : Madr) : State :=
  match setAt s.map page with
  | none => s
  | some k =>
    let t := updMedia s (fun m =>
      { m with
        prof := m.prof.map (fun q => if q.profile == k.profile && q.patrolList.contains k.seq then { q with patrolRead := page :: q.patrolRead } else q)
        sweepRead := if m.atRisk.contains k.seq && !m.swept.contains k.seq then page :: m.sweepRead else m.sweepRead })
    let mine := patrolPages t k
    let inFull (l : List Madr) : Bool := mine.all (fun p => l.contains p)
    let cycleDone := t.media.prof.any (fun q => q.profile == k.profile && q.patrolList.contains k.seq && inFull q.patrolRead)
    let sweepDone := t.media.atRisk.contains k.seq && !t.media.swept.contains k.seq && inFull t.media.sweepRead
    let t := if cycleDone || sweepDone then
        updMedia t (fun m => { m with measured := m.measured.map (fun x => if x.seq == k.seq then { x with ppm := x.run, run := 0 } else x) })
      else t
    let t := if cycleDone then
        dropClaim (updMedia t (fun m => { m with prof := m.prof.map (fun q =>
          if q.profile == k.profile then
            { q with
              patrolList := q.patrolList.filter (fun x => x != k.seq), patrolDone := q.patrolDone ++ [k.seq]
              patrolRead := q.patrolRead.filter (fun p => !mine.contains p)
              patrolOn := !(q.patrolList.filter (fun x => x != k.seq)).isEmpty }
          else q) })) .patrol k.seq
      else t
    if sweepDone then updMedia t (fun m => { m with swept := m.swept ++ [k.seq], sweepRead := m.sweepRead.filter (fun p => !mine.contains p) })
    else t

/-- The wake sweep has covered every at-risk set: REDUCED_ASSURANCE clears (R330). -/
def settleSweep (s : State) : State :=
  if !s.media.atRisk.isEmpty && s.media.atRisk.all (fun q => s.media.swept.contains q || (setOf s q).isNone) then
    let t := updMedia s (fun m => { m with atRisk := [], swept := [], sweepRead := [], sweepPages := 0 })
    if flag t.cond bReduced then setFlags t [(bReduced, false)] else t
  else s

/-- A ladder that ended: patrol's page counts, and slots that failed are reported to the prism engine's owner, who starts the second
ladder, or after it declares the row lost (R307, R359, R360). -/
def endLadder (s : State) (l : Ladder) (p : PageRec) (failed erased : List Nat) : State :=
  let t := dropLadder s l.page
  let agent := l.readers.any (fun r => match r.1 with | .agent .. => true | _ => false)
  let t := if agent then unpinBlock t l.page else t
  let t := if l.readers.any (fun r => r.1 == .agent .patrol 0 0) then settleSweep (patrolPageDone t l.page) else t
  if failed.isEmpty then t
  else if !l.second then startLadder t l.page 3 [] failed true
  else
    match setAt t.map p.addr with
    | none => t
    | some k =>
      if p.addr.page == 0 || p.row ≥ k.rows then t
      else
        let u := p.addr.page - rowPage k p.row 0
        let cols := p.col :: (unavailableCols t k p.row u erased).filter (fun c => c != p.col)
        declareLost t k p.row (cols.filterMap (fun c => (colBlock k c).map (fun b => { b with page := p.addr.page })))

/-- The codewords of a ladder that leave it at this rung, folded over the results given. DESIGN CHOICE (log entry 59): where the candidates of
one block fail different checks, the check that the last refused candidate failed is the one reported (R165 does not say which). -/
def takeResults (s : State) (l : Ladder) (p : PageRec) : List (Nat × Option (Option Block × Bool × Nat)) → State × Ladder
  | [] => (s, l)
  | (n, r) :: rest =>
    if !l.carried.contains n then takeResults s l p rest
    else
      match r with
      | none => takeResults s l p rest
      | some (content, same, corrected) =>
        match judge s p n content same with
        | .ok b => takeResults (acceptSlot s l p n corrected b) { l with carried := l.carried.filter (fun x => x != n) } p rest
        | .refused k => takeResults s { l with refused := (n, k) :: l.refused.filter (fun x => x.1 != n) } p rest

/-- A ladder after one rung's results: it ends where nothing is carried or rung 5 has been judged, else it goes on (R300). -/
def advanceLadder (s : State) (l : Ladder) (p : PageRec) (erased : List Nat) : State :=
  if l.carried.isEmpty then endLadder s l p [] erased
  else
    match nextRung s p l.rung l.entry with
    | some (r, e) =>
      let t := if l.rung == 0 then countEvent s 0x19 0 1 else s
      putLadder t { l with rung := r, entry := e }
    | none => endLadder (l.carried.foldl (fun t n => loseSlot t l p n) s) l p l.carried erased

/-- Decoder runs counted: hard at rungs 0 to 2, soft at rungs 3 and 4 (Table 21-6). -/
def countDecodes (s : State) (rung n : Nat) : State :=
  if rung < 3 then countEvent s 0x18 0 n else if rung < 5 then countEvent s 0x1A 0 n else s

/-- Rung 5 of a ladder: the page is recovered from its row, and its payloads are judged like any candidate (R303). -/
def rungFive (s : State) (l : Ladder) (p : PageRec) (erased : List Nat) : State :=
  match (setAt s.map p.addr).bind (fun k => recoverPage s k p erased) with
  | none => advanceLadder s l p erased
  | some str =>
    let r := takeResults (countEvent s 0x31 0 1) l p (l.carried.map (fun n =>
      (n, some ((slotN p n).map (fun _ => blockOfPayload (slice str (4176 * n) 4176)), str == pageString p, 0))))
    advanceLadder r.1 r.2 p erased

/-- DECODE_DONE (R300): the results of one rung's decode: candidates are accepted or refused, and the ladder moves on or ends. -/
def execDecodeDone (page : Madr) (slots : List (Nat × DecodeResult)) (erasures : List Nat) (s : State) : Host.Outcome State Fault Refusal :=
  match ladderOf s page, pageRecOf s page with
  | some l, some p =>
    if s.jrnl.stopFrom.isSome then settled s
    else if l.rung == 5 then settled (settleFull (rungFive s l p erasures))
    else
      let t := countDecodes s l.rung l.carried.length
      let r := takeResults t l p (slots.map (fun x => (x.1, candidateOf p x.1 x.2)))
      settled (settleFull (advanceLadder r.1 r.2 p erasures))
  | _, _ => settled s

/-- A read that ended in STATUS_FAIL or TIMEOUT is a failed decode of every codeword it carried (R304). -/
def readFailed (s : State) (page : Madr) : State :=
  match ladderOf s page, pageRecOf s page with
  | some l, some p => if l.rung == 5 then s else advanceLadder s l p []
  | _, _ => s

/-- After two consecutive TIMEOUTs the ladders of a die's pages go to rung 5 (R304). -/
def toRungFive (s : State) (d : DieId) : State :=
  updMedia s (fun m => { m with ladders := m.ladders.map (fun l => if dieOf l.page == d then { l with rung := 5, entry := 0 } else l) })

/-! ## The end of a sequence (R37) -/

/-- An erase ended with DONE: ERASED is journalled, the block's pages and learnt offsets are gone (R231, R250, R299). -/
def eraseDone (s : State) (b : Madr) : State :=
  let t := settlePatrol (commitRec s (.erased (blockOf b) ((blkOf s b).pe + 1)))
  updMedia t (fun m =>
    { m with
      pages := m.pages.filter (fun p => blockOf p.addr != blockOf b)
      offsets := m.offsets.filter (fun o => o.1 != blockOf b) })

/-- An erase failed: the block is RETIRED with no data (Table 9-7). -/
def eraseFailed (s : State) (b : Madr) : State :=
  let t := updHealth s (fun h => { h with eraseFails := h.eraseFails + 1 })
  updMedia (retireBlock t b 3) (fun m => { m with pages := m.pages.filter (fun p => blockOf p.addr != blockOf b) })

/-- What the media cluster does with the outcome of an operation (Table 9-7, R304, R346). -/
def actOn (s : State) (die : DieId) (op : DieOp) (outcome : SeqOutcome) (raw : Nat) : State :=
  let ok := outcome == .done
  match op.seqNo with
  | 0 => if ok then s else dieFail s die
  | 1 | 2 =>
    if ok then updDie s die (fun d => { d with timeouts := 0 })
    else
      let t := if outcome == .timeout then updDie s die (fun d => { d with timeouts := d.timeouts + 1 }) else s
      let t := if op.who == 8 then
          match pageRecOf t op.page, setAt t.map op.page with
          | some p, some k => if op.whole then verifyFailed t k p.row op.page else readWhole t op.page
          | _, _ => t
        else readFailed t op.page
      if ((dieStOf t die).map (fun d => decide (2 ≤ d.timeouts))).getD false then toRungFive t die else t
  | 3 =>
    match pageRecOf s op.page with
    | none => s
    | some p => if ok then programDone s p else programFailed s p
  | 4 =>
    if reservedAt s op.page then advanceRewrite s die.bay op ok
    else if ok then eraseDone s op.page else eraseFailed s op.page
  | 8 => if ok then sampleDie s die raw else s
  | 64 | 65 => advanceRewrite s die.bay op ok
  | _ => s

/-- The charge of a drawn operation is brought from its typical to its measured busy time (R72), in the window of the completion: the next
one where its tick has already fallen (R66). -/
def chargeEnd (s : State) (op : DieOp) (busy : Nat) : State :=
  match op.typical with
  | some t =>
    let diff := (busy : Int) - (t : Int)
    updCad s (fun c => if c.windowDue.isSome then { c with chargedNext := c.chargedNext + diff } else { c with charged := c.charged + diff })
  | none => s

/-- The outcome of an operation on a die: the sequence of its number in the die's profile, or a built-in one, run on what the die answered (R33,
R36, R37). -/
def outcomeOf (s : State) (die : DieId) (op : DieOp) (waits statuses : List Nat) : SeqOutcome :=
  if op.seqNo == builtinRead || op.seqNo == builtinProgram then seqOutcome builtinSeqs op.seqNo waits statuses
  else seqOutcome (((bayProfile s die.bay).map (·.seqs)).getD []) op.seqNo waits statuses

/-- A suspended operation that can go on no more fails (Table 9-7) (assumption 46). -/
def failSuspended (s : State) (die : DieId) : State :=
  match (dieStOf s die).bind (·.suspended) with
  | none => s
  | some op => actOn (updDie s die (fun d => { d with suspended := none })) die op .statusFail 0

/-- The end of sequence 6, 7 or 0 (R234, Table 9-7): a resumption lets the suspended operation run on, and a suspension that the die refused
leaves it running; a reset, or a failed resumption, fails it (assumption 46). -/
def settleSuspend (s : State) (die : DieId) (op : DieOp) (outcome : SeqOutcome) : State :=
  let goOn := updDie s die (fun d => { d with op := d.suspended.map (fun o => { o with issued := s.now }), suspended := none })
  match op.seqNo, outcome with
  | 7, .done => goOn
  | 7, _ => failSuspended s die
  | 6, .statusFail => goOn
  | 0, .done => failSuspended s die
  | _, _ => s

/-- A die whose sequence timed out runs sequence 0 before anything else (Table 9-7, R304). -/
def askReset (s : State) (die : DieId) (op : DieOp) : State :=
  if op.seqNo == 0 then s else updDie s die (fun d => { d with queue := mkOp s 0 op.page op.who :: d.queue })

/-- SEQUENCE_END (R37): the running operation of a die ends, with the times to ready and the status bytes that the die gave; the media
cluster acts on the outcome, and the dies of its channel take their next ones. -/
def execSequenceEnd (die : DieId) (waits statuses : List Nat) (busyMicros raw : Nat) (s : State) : Host.Outcome State Fault Refusal :=
  match (dieStOf s die).bind (·.op) with
  | none => settled s
  | some op =>
    let outcome := outcomeOf s die op waits statuses
    let t := updDie s die (fun d => { d with op := none })
    let t := chargeEnd (countEvent t 0x13 die.bay busyMicros) op busyMicros
    let t := settleSuspend (actOn t die op outcome raw) die op outcome
    let t := if outcome == .timeout then askReset t die op else t
    settled (settleFull (startChannel t die))

end Sys2Proof.Machine
end

