-- ==== Sys2Proof/Machine/Prism.lean ====
section
/-! DEFINITION. Stripe journal (R341 to R343), member failures (R346 to R348) and the rebuild (R349 to R358). -/
namespace Sys2Proof.Machine
open Sys2Proof

/-! ## Stripe-journal records (R342, R343) -/

/-- LIMIT_ROW of a set in the newest record; none where it is not listed. -/
def lastLimit (s : State) (seq : Nat) : Option Nat := (s.media.sj.find? (fun e => e.seq == seq)).map (·.limitRow)

/-- The entry of an open set: its lowest row not settled, and its new limit, where the newest record gave `last`. -/
def sjEntryOf (f : Profile) (last : Nat) (o : OpenSet) (k : SetRec) : SjEntry where
  seq := k.seq
  safeRow := ((o.rows.filter (fun r => !r.settled)).map (·.row)).foldl Nat.min o.nextRow
  limitRow := Nat.min k.rows (Nat.max (Nat.max o.limitRow last) o.nextRow + f.sjWindow)
  stream := k.stream
  profile := k.profile

/-- Entries for every open set. -/
def sjEntries (s : State) : List SjEntry :=
  s.media.opens.filterMap (fun o =>
    match setOf s o.seq with
    | some k => if k.closed then none else (profileOf s k.profile).map (fun f => sjEntryOf f ((lastLimit s o.seq).getD 0) o k)
    | none => none)

/-- Pages of the filling row padded while the next one lies on a given bay. -/
def skipBay (s : State) (seq who bay : Nat) : Nat → State
  | 0 => s
  | n + 1 =>
    match openOf s seq, setOf s seq with
    | some o, some k =>
      match fillingRow o k with
      | none => s
      | some r =>
        match rowSlot k r.row r.next with
        | none => s
        | some a =>
          if a.bay != bay then s
          else
            let t := writePage s (padRec k ((colOf k a).getD 0) r.row (pageOf a)) who
            let t := updRow t seq r.row (fun y => { y with next := r.next + 4 })
            skipBay (if r.next + 4 == rowSlots k then programParity t k r.row who else t) seq who bay n
    | _, _ => s

/-- Starting the next row leaves that reserve. -/
def keepsReserve (s : State) (o : OpenSet) (k : SetRec) : Bool := o.limitRow == k.rows || decide (o.nextRow + reserveRows s k < o.limitRow)

/-- Slots placed one after the other in one open set, as many as it takes, starting rows where they may start; each with the number its CSN
field carries. The row and address each went to. -/
def placeMany (s : State) (seq kind who : Nat) : List (Nat × List Byte) → State × List (Nat × Madr)
  | [] => (s, [])
  | x :: xs =>
    match openOf s seq, setOf s seq with
    | some o, some k =>
      let start := match fillingRow o k with
        | some r => some (s, r)
        | none => if mayStartRow s o k && (kind == 6 || kind == 9 || keepsReserve s o k) then some (startRow s o) else none
      match start with
      | none => (s, [])
      | some (t, r) =>
        let blk : Block := { data := x.2, hostMeta := zeros 48, guard := 0, appTag := 0, refTag := 0 }
        match putSlot t k r kind who { n := 0, ns := 0, lba := 0, csn := x.1, count := 0, block := some blk } with
        | none => (s, [])
        | some (t, a) =>
          let z := placeMany t seq kind who xs
          (z.1, (r.row, a) :: z.2)
    | _, _ => (s, [])

/-- The same of slots that the set takes all; none where it does not. -/
def placeRun (s : State) (seq kind who : Nat) (l : List (Nat × List Byte)) : Option (State × List (Nat × Madr)) :=
  let z := placeMany s seq kind who l
  if z.2.length == l.length then some z else none

/-- Four slots placed in one page of one open set; `tag` is the number of the record they hold. -/
def placePage (s : State) (seq kind who tag : Nat) (bs : List Byte) : Option (State × Madr) :=
  match placeRun s seq kind who ((List.range 4).map (fun n => (tag, slice bs (4096 * n) 4096))) with
  | some (t, (_, a) :: _) => some (t, a)
  | _ => none

/-- The set in which a piece of the checkpoint in progress is unfinished. -/
def pieceSet (s : State) : Option Nat :=
  (s.jrnl.running.bind (·.captured)).bind (fun c =>
    (((c.root.map (·.2)).toList ++ c.pieces).find? (fun x => x.placed.isSome && decide (4096 * x.count < x.bytes.length))).bind (fun x =>
      x.placed.bind (fun a => (setAt s.map a.1).map (·.seq))))

/-- Open SYSTEM sets, that one last: a piece occupies consecutive slots (R249). -/
def systemSets (s : State) : List (OpenSet × SetRec) :=
  let l := openSetsOf s .system
  l.filter (fun ok => pieceSet s != some ok.1.seq) ++ l.filter (fun ok => pieceSet s == some ok.1.seq)

/-- The SYSTEM set that takes a record: an open one with a covered row for it; where none has one, as before the first record, the first
one with a row left, which carries the record uncovered. -/
def sjTarget (s : State) : Option OpenSet :=
  let sys := systemSets s
  let fit (ok : OpenSet × SetRec) : Bool := ok.1.headersLeft.isEmpty && decide (0 < slotsLeft ok.1 ok.2)
  let covered (ok : OpenSet × SetRec) : Bool := decide (ok.1.nextRow < Nat.min ok.1.limitRow ok.2.rows)
  (sys.find? (fun ok => covered ok && fit ok)).map (·.1) |>.or ((sys.find? fit).map (·.1))

/-- A record is to be made (R343): a root was written or a copy failed, an open set is not listed yet, or the next row of one comes within
half a window of its limit. -/
def recordDue (s : State) : Bool :=
  s.media.sjDue || s.media.opens.any (fun o =>
    match setOf s o.seq with
    | none => false
    | some k =>
      !k.closed && !o.closing && (match lastLimit s o.seq, profileOf s k.profile with
        | some l, some f => decide (l < k.rows) && decide (l ≤ o.nextRow + f.sjWindow / 2)
        | _, _ => o.limitRow == 0))

/-- A stripe-journal record made: two copies on different bays of a SYSTEM set. It becomes cover once both are DONE, and in a mirrored twin
its FRONTIER frame is acknowledged (R341, R343, R388). -/
def makeStripeRecord (s : State) (o : OpenSet) : State :=
  let es := sjEntries s
  let t := updOpen s o.seq (fun x => if x.nextRow < x.limitRow then x else { x with limitRow := x.nextRow + 2 })
  let t := alignPage t o.seq 1
  match placePage t o.seq 6 1 t.media.sjSeq (stripeBytes t.media.sjSeq t.cad.aet 0 es) with
  | none => s
  | some (t, a) =>
    let t := skipBay t o.seq 1 a.bay 4096
    match placePage t o.seq 6 1 t.media.sjSeq (stripeBytes t.media.sjSeq t.cad.aet 1 es) with
    | none => s
    | some (t, b) =>
      let w : SjWait := { copyA := a, copyB := b, fseq := if mirroring t then some t.twin.txSeq else none, entries := es }
      updMedia (mirrorFrame t (.frontier es)) (fun m =>
        { m with
          sjSeq := m.sjSeq + 1, sj := es, sjBays := BitVec.ofNat 16 (2 ^ a.bay ||| 2 ^ b.bay)
          sjWait := m.sjWait ++ [w], sjDue := false })

/-- STRIPE_JOURNAL_RECORD (R343): where a record is due, one of every open set's rows is written in two copies. -/
def execStripeJournalRecord (s : State) : Host.Outcome State Fault Refusal :=
  match sjTarget s with
  | none => .next s
  | some o => if s.jrnl.stopFrom.isSome || !recordDue s then .next s else .next (settleFull (makeStripeRecord s o))

/-! ## Member failure (R346 to R348) -/

/-- MEMBER_FAILURE (R346): a bay of a profile, or one of its dies, fails; the record is made durable first, DEGRADED is set and the
open sets are handled. -/
def execMemberFailure (bay : Nat) (die : Option Nat) (s : State) : Host.Outcome State Fault Refusal :=
  match bayOf s bay with
  | none => settled s
  | some b =>
    if b.st != .member && b.st != .evacuating then settled s
    else
      match die with
      | none => settled (recomputeHorizon (bayFail s bay))
      | some d => if b.dies.contains d then settled (dieFail s ⟨bay, d / 32, d % 32⟩) else settled s

/-! ## Rebuild (R353 to R356) -/

/-- Columns of a set that lack a usable stand-in with every row settled. -/
def lackingCols (s : State) (k : SetRec) : List Nat :=
  (downCols s k).filter (fun c => !((standInOf s k c).map (fun x => decide (liveRows k ≤ x.rowsDone))).getD false)

/-- The rebuild's list (R354): parity remaining, stream, margin, BLOCK_SEQ. -/
def rebuildList (s : State) : List SetRec :=
  let mine := (liveSets s).filter (fun k => decide (0 < setLacking s k) && (k.stream == .system || decide (0 < setValid s.map k)))
  let key (k : SetRec) := [k.p - (lackingCols s k).length, streamRank k.stream, marginOf s k, k.seq]
  sortBy (fun a b => keyLe (key a) (key b)) mine

/-- A stand-in opened for each lacking column that has none and finds a host. -/
def openStandIns (s : State) (k : SetRec) : State :=
  (lackingCols s k).foldl (fun t c =>
    match setOf t k.seq with
    | none => t
    | some k =>
      if (standInOf t k c).isSome then t
      else match standInHost t k c true with
        | some m => openStandIn (updMap t (fun i => updSet i k.seq (fun y => { y with standIns := y.standIns.filter (fun x => x.col != c) }))) k c m 3
        | none => t) s

/-- The next row of every lacking column of a set programmed into its stand-in; a row whose unavailable pages exceed P is declared
lost first (R354, R359, R360). -/
def rebuildNextRow (s : State) (k : SetRec) : State :=
  (lackingCols s k).foldl (fun t c =>
    match setOf t k.seq with
    | none => t
    | some k =>
      match standInOf t k c with
      | none => t
      | some x =>
        let row := standInNext t k x
        if liveRows k ≤ row then t
        else
          let t := if k.p < (unavailableCols t k row 0 []).length && !rowLost t k row then
              declareLost t k row ((unavailableCols t k row 0 []).flatMap (fun c =>
                (colBlock k c).toList.flatMap (fun b => (List.range k.stripeUnit).map (fun u => { b with page := rowPage k row u }))))
            else countEvent t 0x31 0 1
          fillStandIn t k x row 3) s

/-- One set of the list worked: claimed, its stand-ins opened, its next row rebuilt; none where its claim is not granted or no
column has a stand-in. -/
def workSet (s : State) (k : SetRec) : Option State :=
  let t := if k.closed then claimSet s .rebuild k.seq else s
  if k.closed && !((holderOf t k.seq).map (fun c => c.agent == .rebuild)).getD false then none
  else
    let t := openStandIns t k
    match setOf t k.seq with
    | none => none
    | some k => if (lackingCols t k).any (fun c => (standInOf t k c).isSome) then some (rebuildNextRow t k) else none

/-- REBUILD_ROW (R354): while the rebuild runs, the first set of its list that can be worked gets its next row; with no host for any
listed set the rebuild waits in state 4, and leaves it as soon as one has a host. -/
def execRebuildRow (s : State) : Host.Outcome State Fault Refusal :=
  if s.jrnl.stopFrom.isSome then settled s
  else if s.media.rebuild == 4 then
    if someHost s then settled (setRebuild s 1 []) else settled s
  else if s.media.rebuild != 1 then settled s
  else if !someHost s then settled (setRebuild s 4 [])
  else
    match (rebuildList s).take 32 |>.findSome? (workSet s) with
    | some t => settled (settleFull t)
    | none => settled s

end Sys2Proof.Machine
end

