-- ==== Sys2Proof/Machine/Patrol.lean ====
section
/-! DEFINITION. Patrol, the thermal clocks and the hourly model (chapter 13). -/
namespace Sys2Proof.Machine
open Sys2Proof

/-- Bays whose thermal clocks run (R314). -/
def clockedBays (s : State) : List Bay := s.media.bays.filter (fun b => b.st == .member || b.st == .evacuating)

/-- A bay's clock advanced over one powered minute: by the highest temperature sampled in it, or where none was sampled by the greater of
the last sample and REF_TEMP (R314). -/
def tickClock (s : State) (b : Bay) : State :=
  match bayProfile s b.bay with
  | none => s
  | some f =>
    let t := match b.minuteTemp with
      | some t => t
      | none => match b.lastTemp with | some t => if t < f.refTemp then f.refTemp else t | none => f.refTemp
    updBay s b.bay (fun x => { x with tc := x.tc + minuteGain f t, minuteTemp := none })

/-- THERMAL_CLOCK_MINUTE (R314): at an AET minute boundary the dies not yet sampled are sampled with sequence 8, and each bay's TC_b
advances. -/
def execThermalClockMinute (samples : List (DieId × Nat)) (s : State) : Host.Outcome State Fault Refusal :=
  let m := aetSec s.cad.aet / 60
  if m == s.media.lastMinute || notReady s then .next s
  else
    let t := samples.foldl (fun t x => if ((bayOf t x.1.bay).map (fun b => b.connected)).getD false then sampleDie t x.1 x.2 else t) s
    let t := (clockedBays t).foldl tickClock t
    .next (updHealth (updMedia t (fun q => { q with lastMinute := m })) (fun h => { h with onMinutes := h.onMinutes + 1 }))

/-- HOURLY_MODEL_UPDATE (R316): at a whole AET hour TC_b is logged, and the model, horizons and wear are judged again. -/
def execHourlyModelUpdate (s : State) : Host.Outcome State Fault Refusal :=
  let h := aetSec s.cad.aet / 3600
  if h == s.media.lastHour || notReady s then settled s
  else
    let t := (clockedBays s).foldl logBay (updMedia s (fun q => { q with lastHour := h }))
    let t := recomputeHorizon t
    let t := (profileNums t).foldl settleShortfall t
    settled ((profileNums t).foldl settleAdvisory t)

/-- AET_WAIT_TIMEOUT (R329): with AET still not valid 600 s after NOT_READY cleared, every set is at risk. -/
def execAetWaitTimeout (cyc : Nat) (s : State) : Host.Outcome State Fault Refusal :=
  let t := advanceTo s cyc
  match t.media.readyAt with
  | none => settled t
  | some c =>
    if t.cad.aetValid || notReady t || t.now < c + 600000000000 then settled t
    else
      settled (setAtRisk (updMedia t (fun m => { m with unpowered := 0xFFFFFFFFFFFFFFFF })) ((liveSets t).map (·.seq)))

/-- Sets of a profile that the model covers, in ascending margin, ties to the lower BLOCK_SEQ (R320). -/
def patrolOrder (s : State) (p : Nat) : List Nat :=
  (sortBy (fun a b => keyLe [marginOf s a, a.seq] [marginOf s b, b.seq]) ((liveSets s).filter (fun k => k.profile == p))).map (·.seq)

/-- A patrol cycle started: its list made, shared claims taken on closed sets, the next grid point fixed (R319, R320, R76). -/
def startPatrol (s : State) (p : Nat) (late : Bool) : State :=
  let sec := aetSec s.cad.aet
  let list := patrolOrder s p
  let t := updProf s p (fun q =>
    { q with
      patrolOn := !list.isEmpty, patrolList := list, patrolDone := [], patrolLate := late, patrolRead := []
      marks := ((sec, s.csnNext - 1) :: q.marks).take 3
      patrolNext := nextDue sec (3600 * cycleHours s p) })
  list.foldl (fun t n => claimSet t .patrol n) t

/-- PATROL_CYCLE_START (R319): a profile's cycle starts at its grid point once the previous one is done; later than that point it is
late. -/
def execPatrolCycleStart (profile : Nat) (s : State) : Host.Outcome State Fault Refusal :=
  let q := profSt s profile
  let sec := aetSec s.cad.aet
  if (profileOf s profile).isNone || (memberBays s profile).isEmpty || notReady s then settled s
  else if q.patrolOn then
    settled (updProf s profile (fun q => { q with patrolLate := decide (q.patrolNext ≤ sec) }))
  else if sec < q.patrolNext then settled s
  else settled (startPatrol s profile (decide (q.patrolNext < sec)))

end Sys2Proof.Machine
end

