-- ==== Sys2Proof/Machine/Reclaim.lean ====
section
/-! DEFINITION. Reclamation, refresh, block claims, release and erase (chapter 11). -/
namespace Sys2Proof.Machine
open Sys2Proof

/-! ## Choosing victims (R274, R275) -/

/-- A set is eligible as a victim: every block CLOSED or VERIFIED, not SYSTEM, no exclusive claim (R274). -/
def eligible (s : State) (p : Nat) (k : SetRec) : Bool :=
  k.profile == p && k.closed && k.stream != .system && (holderOf s k.seq).isNone && setLive s k &&
    (blocksOfSet k).all (fun b => colDown s k b || (blkOf s b).st == .closed || (blkOf s b).st == .verified)

/-- Eligible sets of a profile in ascending BLOCK_SEQ. -/
def eligibleSets (s : State) (p : Nat) : List SetRec := sortBy (fun a b => decide (a.seq ≤ b.seq)) (s.map.sets.filter (eligible s p))

/-- Seconds since a set opened. -/
def setOld (s : State) (k : SetRec) : Nat := aetSec s.cad.aet - aetSec k.openAet

/-- The better of two victims by score, as a fraction (R275). -/
def betterScore (s : State) (a b : SetRec) : SetRec :=
  let num (k : SetRec) := (setDataSlots k - setValid s.map k) * (setOld s k + 3600)
  let den (k : SetRec) := setDataSlots k + setValid s.map k
  if num a * den b < num b * den a then b else a

/-- RECLAIM's choice (R275): an empty set first, else the highest score among those at most 15/16 full. -/
def reclaimVictim (s : State) (p : Nat) : Option SetRec :=
  let l := eligibleSets s p
  match l.find? (fun k => setValid s.map k == 0) with
  | some k => some k
  | none =>
    (l.filter (fun k => decide (16 * setValid s.map k ≤ 15 * setDataSlots k))).foldl (fun best k =>
      match best with | none => some k | some b => some (betterScore s b k)) none

/-- RESERVE_RECLAIM's choice (R275): the smallest V below DS. -/
def reserveVictim (s : State) (p : Nat) : Option SetRec :=
  ((eligibleSets s p).filter (fun k => decide (setValid s.map k < setDataSlots k))).foldl (fun best k =>
    match best with | none => some k | some b => if setValid s.map k < setValid s.map b then some k else best) none

/-- Sets of a profile that an agent holds. -/
def heldSets (s : State) (ag : Agent) (p : Nat) : List Nat :=
  (s.media.claims.filter (fun c => c.agent == ag && c.preemptedBy.isNone && (setOf s c.seq).any (fun k => k.profile == p))).map (·.seq)

/-! ## Moving what a set holds (R188, R193, R217) -/

/-- A slot's content placed in the next free data slot of one open set. -/
def placeIn (s : State) (seq kind who : Nat) (x : SlotRec) : Option (State × Madr) :=
  match openOf s seq, setOf s seq with
  | some o, some k =>
    match fillingRow o k with
    | some r => putSlot s k r kind who x
    | none => if mayStartRow s o k then putSlot (startRow s o).1 k (startRow s o).2 kind who x else none
  | _, _ => none

/-- Slots placed one after the other in one open set; the first one's address, none where they do not all find room now. -/
def placeAll (s : State) (seq kind who : Nat) : List SlotRec → Option (State × Madr)
  | [] => none
  | x :: xs =>
    match placeIn s seq kind who x with
    | none => none
    | some (t, a) => if xs.isEmpty then some (t, a) else (placeAll t seq kind who xs).map (fun r => (r.1, a))

/-- An extent placed in one RELOC_COARSE set with 64 data pages left; none where the stream has to wait (R188, R217). -/
def placeExtent (s : State) (who : Nat) (xs : List SlotRec) : Option (State × Madr) :=
  (openSetsOf s .relocCoarse).findSome? (fun ok =>
    if !mayFill ok.1 who || slotsLeft ok.1 ok.2 < 256 then none else placeAll s ok.1.seq 2 who xs)

/-- Copies of 256 slots as a relocation writes them, COUNT 0; none where one cannot be had or fails its check field (R152, R223). -/
def extentCopies (s : State) (ms : List Madr) : Option (List SlotRec) :=
  let xs := (ms.filterMap (slotAt s)).filter (slotPasses s)
  if xs.length == 256 then some (xs.map (fun x => { x with count := 0 })) else none

/-- A whole COARSE segment copied to a new extent, with one conditional update against the old entry (Table 8-5). Sets without room for it are
filled up first (R217). -/
def moveCoarse (s : State) (ag : Agent) (ns seg : Nat) (first : Madr) : State :=
  let t := makeRoom s .relocCoarse
  match (extentCopies t ((List.range 256).filterMap (slotAfter t.map first))).bind (placeExtent t (agentDieWho ag)) with
  | none => t
  | some (t, a) => askMap t { who := agentMapWho ag, cyc := s.now, cid := none, ns := ns, ents := [], whole := some (seg, .inl first, a) }

/-- RELOC_COARSE can take an extent, at once or in a set still to be opened. -/
def relocCoarseOpens (s : State) : Bool := !(openSetsOf s .relocCoarse).isEmpty || (streamProfile s .relocCoarse).isSome

/-- One segment's share of a set moved in the form of Table 8-5: whole for a COARSE segment under a reclaim or refresh agent, but per unit to
RELOC_FINE where RELOC_COARSE can open no set (R217); per unit otherwise. Units whose update already waits are not copied again. -/
def moveSegment (s : State) (ag : Agent) (k : SetRec) (x : Seg) : State :=
  let us := (unitsInSet s.map k x).filter (fun u => !unitAsked s x.ns u.1)
  if us.isEmpty || (s.eng.reqs.any (fun r => r.ns == x.ns && (r.whole.map (fun w => w.1 == x.seg)).getD false)) then s
  else
    let perUnit := us.foldl (fun t u => (moveUnit t ag x.ns u.1 u.2).getD t) s
    match x.kind with
    | .coarse first =>
      if (ag == .reclaim || ag == .reserveReclaim || ag == .refresh) && relocCoarseOpens s then moveCoarse s ag x.ns x.seg first else perUnit
    | .fine _ => perUnit

/-- The live content of a set moved by an agent (R274): tiles are written back, every other unit moved. -/
def moveSet (s : State) (ag : Agent) (seq : Nat) : State :=
  match setOf s seq with
  | none => s
  | some k =>
    if k.stream == .system then s
    else
      s.map.segs.foldl (fun t x =>
        let t := match x.kind with
          | .fine ti => match ti.home with
            | some h => if (blocksOfSet k).contains (blockOf h) && !segAsked t x.ns x.seg then writeTile t x.ns x.seg else t
            | none => t
          | _ => t
        moveSegment t ag k x) s

/-- An agent goes on with the sets it holds. -/
def continueSets (s : State) (ag : Agent) (l : List Nat) : State := l.foldl (fun t n => moveSet t ag n) s

/-- A set claimed by an agent and its move begun where the claim is granted. -/
def takeSet (s : State) (ag : Agent) (seq : Nat) : State :=
  let t := claimSet s ag seq
  if ((holderOf t seq).map (fun c => c.agent == ag)).getD false then moveSet t ag seq else t

/-! ## Consolidation (R192) -/

/-- A CSN was issued a patrol cycle of a profile ago or earlier: at or before the start of a patrol cycle that began that long ago. -/
def csnOld (s : State) (p csn : Nat) : Bool :=
  (profSt s p).marks.any (fun m => decide (m.1 + 3600 * cycleHours s p ≤ aetSec s.cad.aet) && decide (csn ≤ m.2))

/-- A FINE segment that RECLAIM may consolidate: wholly written, without LOST, homed, and without a host update for a patrol cycle, judged by
the CSNs of its tile and of its units. -/
def consolidates (s : State) (x : Seg) : Bool :=
  match x.kind with
  | .coarse _ => false
  | .fine t =>
    coarseMode s.map x.ns && t.home.isSome && t.ents.length == 256 && !segAsked s x.ns x.seg &&
      t.ents.all (fun e => !e.lost && (match e.madr.bind (slotAt s), e.madr.bind (setAt s.map) with
        | some y, some k => csnOld s k.profile (Nat.max y.csn t.lastCsn)
        | _, _ => false))

/-- One segment consolidated: its units copied, and the directory entry asked to become COARSE while GENERATION stands (R192). -/
def consolidate (s : State) (x : Seg) : State :=
  match x.kind with
  | .coarse _ => s
  | .fine t =>
    let r := makeRoom s .relocCoarse
    match (extentCopies r (t.ents.filterMap (·.madr))).bind (placeExtent r 7) with
    | none => r
    | some (s', a) =>
      askMap s' { who := 5, cyc := s.now, cid := none, ns := x.ns, ents := [], whole := some (x.seg, .inr t.generation, a) }

/-! ## The agents (R273) -/

/-- RECLAIM runs for want of space: from below 3 % until 4 % of CAP (R273). -/
def reclaimRuns (s : State) (p : Nat) : Bool :=
  let free := 100 * freeHost s p
  if (profSt s p).on then decide (free < 4 * capOf s p) else decide (free < 3 * capOf s p)

/-- RECLAIM_START (R273): RECLAIM goes on with its victims and takes new ones, at most 4 of a profile: the wear rescue's set first, then
while it runs by R275; and it consolidates. -/
def execReclaimStart (profile : Nat) (s : State) : Host.Outcome State Fault Refusal :=
  if (profileOf s profile).isNone || notReady s || s.jrnl.stopFrom.isSome then settled s
  else
    let t := updProf s profile (fun q => { q with on := reclaimRuns s profile })
    let held := heldSets t .reclaim profile
    let t := continueSets t .reclaim held
    let q := profSt t profile
    let t := if 4 ≤ held.length then t
      else match q.rescue with
        | some seq => takeSet (updProf t profile (fun q => { q with rescue := none })) .reclaim seq
        | none =>
          if q.on then (match reclaimVictim t profile with | some k => takeSet t .reclaim k.seq | none => t)
          else match t.map.segs.find? (consolidates t) with
            | some x => consolidate t x
            | none => t
    settled (settleFull t)

/-- A bay's last-stand or reclaim reserve is below its size. -/
def reserveLow (s : State) (p : Nat) : Bool :=
  match profileOf s p with
  | none => false
  | some f => (memberBays s p).any (fun b => decide (erasedOn s f b < heldBack s p f b))

/-- RESERVE_RECLAIM runs: from its start conditions until FREE_HOST reaches twice the bound and every reserve is full (R273). -/
def reserveRuns (s : State) (p : Nat) : Bool :=
  match profileOf s p with
  | none => false
  | some f =>
    if (memberBays s p).isEmpty then false
    else if (profSt s p).reserveOn then !(decide (ratioFloor (dsbTimes s p (2 * f.w)) ≤ freeHost s p) && !reserveLow s p)
    else decide (freeHost s p < ratioFloor (dsbTimes s p f.w)) || reserveLow s p

/-- Some bay's last-stand reserve is below half its size (R272). -/
def lastStandHalf (s : State) (p : Nat) : Bool :=
  match profileOf s p with
  | none => false
  | some f => (memberBays s p).any (fun b => decide (2 * erasedOn s f b < lastFull f b))

/-- RESERVE_RECLAIM_START (R273): RESERVE_RECLAIM goes on with its victims and takes new ones; where it finds none and the last-stand
reserve is below half, the profile is in shortfall (R272, R275). -/
def execReserveReclaimStart (profile : Nat) (s : State) : Host.Outcome State Fault Refusal :=
  if (profileOf s profile).isNone || notReady s || s.jrnl.stopFrom.isSome then settled s
  else
    let t := updProf s profile (fun q => { q with reserveOn := reserveRuns s profile })
    let held := heldSets t .reserveReclaim profile
    let t := continueSets t .reserveReclaim held
    let t := if 4 ≤ held.length || !(profSt t profile).reserveOn then t
      else match reserveVictim t profile with
        | some k => takeSet t .reserveReclaim k.seq
        | none => if lastStandHalf t profile then startShortfall t profile else t
    settled (settleFull (settleShortfall t profile))

/-- REFRESH_CLAIM (R326): REFRESH claims every set of severity 3 and the head of its list up to 4 sets, and moves what it holds. -/
def execRefreshClaim (s : State) : Host.Outcome State Fault Refusal :=
  if notReady s || s.jrnl.stopFrom.isSome then settled s
  else
    let held := (s.media.claims.filter (fun c => c.agent == .refresh && c.preemptedBy.isNone)).map (·.seq)
    let list := (refreshList s).filter (fun k => !held.contains k.seq)
    let urgent := (list.filter (fun k => severityOf s k == 3)).map (·.seq)
    let others := ((list.filter (fun k => severityOf s k != 3)).map (·.seq)).take (4 - held.length)
    let t := continueSets s .refresh held
    settled (settleFull ((urgent ++ others).foldl (fun t n => takeSet t .refresh n) (replaceAbandoned t)))

/-- BLOCK_CLAIM_REQUEST (R282): an agent's request for all blocks of a set, judged by Table 11-4. -/
def execBlockClaimRequest (agent : Agent) (seq : Nat) (s : State) : Host.Outcome State Fault Refusal := settled (claimSet s agent seq)

/-- The holder has an operation on a set's blocks: on a die, or waiting for one. -/
def holderBusy (s : State) (k : SetRec) (who : Nat) : Bool :=
  let mine (o : DieOp) : Bool := o.who == who && (blocksOfSet k).contains (blockOf o.page)
  anyOp s mine

/-- PREEMPT_HANDOFF (R283): the claim passes when the holder's last operation on the set has ended. -/
def execPreemptHandoff (seq : Nat) (s : State) : Host.Outcome State Fault Refusal :=
  match holderOf s seq, setOf s seq with
  | some h, some k =>
    match h.preemptedBy with
    | none => .next s
    | some ag =>
      if holderBusy s k (agentDieWho h.agent) then .next s
      else .next (updHolder s seq (fun c => { c with agent := ag, preemptedBy := none }))
  | _, _ => .next s

/-! ## Release and erase (R250, R286) -/

/-- Every journal record made so far is durable. -/
def allDurable (s : State) : Bool := s.jrnl.recs.all (·.durable)

/-- A tile of a map lies in a set. -/
def homesIn (i : MapImg) (k : SetRec) : Bool :=
  i.segs.any (fun x => match x.kind with
    | .fine t => (t.home.map (fun h => (blocksOfSet k).contains (blockOf h))).getD false
    | _ => false)

/-- The SYSTEM conditions of R250: no record that replay needs, no piece of the newest root, no usable hold-up record, and not the newest
stripe-journal record. A slot's CSN field in the model carries the last JSEQ, the CKPT_SEQ, the SJ_SEQ or the HOLDUP_SEQ it holds. -/
def systemFree (s : State) (k : SetRec) : Bool :=
  let from_ := ((s.jrnl.newest).map (·.replayFrom)).getD 1
  let ck := ((s.jrnl.newest).map (·.seq)).getD 0
  let named := ((s.jrnl.newest).map (fun c => c.pieces.map (·.ckpt))).getD []
  (s.media.pages.filter (fun p => p.seq == k.seq)).all (fun p =>
    match p.kind with
    | 4 => p.slots.all (fun x => decide (x.csn < from_))
    | 5 => p.slots.all (fun x => x.csn != ck && !named.contains x.csn && decide (x.csn + s.jrnl.written.toList.length < s.jrnl.nextCkpt))
    | 6 => p.slots.all (fun x => decide (x.csn + 1 + s.media.sjWait.length < s.media.sjSeq))
    | 9 => p.slots.all (fun x => s.jrnl.holdups.all (fun h => h.seq != x.csn))
    | _ => true)

/-- Nothing of a set is reachable any more, in the map or in a durable state (R250). -/
def releasable (s : State) (k : SetRec) : Bool :=
  k.closed && setLive s k && setValid s.map k == 0 && allDurable s &&
    !(s.eng.reqs.any (fun r => (newSlots s.map r).any (fun m => (blocksOfSet k).contains (blockOf m)))) &&
    (match k.stream with
      | .system => systemFree s k
      | .map => !((s.jrnl.newest.map (fun c => homesIn c.img k)).getD false)
      | _ => true)

/-- A set's blocks may be released: it is empty, and but for the SYSTEM stream an agent holds it (R250, Table 11-5). -/
def mayRelease (s : State) (k : SetRec) : Bool := releasable s k && (k.stream == .system || (holderOf s k.seq).isSome)

/-- A block released, or where its die has failed recorded RETIRED with cause 5; blocks on FAILED or RELEASED bays are left (R346,
Table 11-5). -/
def releaseBlock (s : State) (k : SetRec) (b : Madr) : State :=
  match bayOf s b.bay with
  | none => s
  | some x =>
    if x.failedDies.contains (dieNum (dieOf b)) then retireBlock s b 5
    else if colDown s k b || (blkOf s b).st == .retired then s
    else commitRec s (.release b)

/-- BLOCK_RELEASE (R250): the blocks of a set whose data is unreachable are released; its claims, triggers and place on patrol's list
go with it. -/
def execBlockRelease (seq : Nat) (s : State) : Host.Outcome State Fault Refusal :=
  match setOf s seq with
  | none => settled s
  | some k =>
    if !mayRelease s k || s.jrnl.stopFrom.isSome then settled s
    else
      let t := (blocksOfSet k).foldl (fun t b => releaseBlock t k b) s
      let t := updMedia t (fun m =>
        { m with
          claims := m.claims.filter (fun c => c.seq != seq), refresh := m.refresh.filter (fun r => r.seq != seq)
          measured := m.measured.filter (fun x => x.seq != seq) })
      settled (settleFull (finishRebuild (settleSweep (settlePatrol t))))

/-- The RELEASE record of a block is durable. -/
def releaseDurable (s : State) (b : Madr) : Bool := s.jrnl.recs.all (fun r => r.body != .release b || r.durable)

/-- BLOCK_ERASE (R250): a released block without a pin is erased; one that failed a program, or two verify reads, is RETIRED instead
(Table 9-7). -/
def execBlockErase (block : Madr) (s : State) : Host.Outcome State Fault Refusal :=
  let b := blockOf block
  let r := blkOf s b
  let busy := anyOp s (fun o => o.seqNo == 4 && o.page == b)
  if !r.released || !releaseDurable s b || s.eng.pins.any (fun p => p.1 == b) || busy || s.jrnl.stopFrom.isSome then settled s
  else
    let failed := s.media.pages.any (fun p => blockOf p.addr == b && p.st == .failed)
    let verify := decide (2 ≤ (s.media.verifyFails.filter (fun m => m == b)).length)
    if failed || verify then
      settled (settleFull (settlePatrol (updMedia (retireBlock s b (if failed then 2 else 4)) (fun m =>
        { m with pages := m.pages.filter (fun p => blockOf p.addr != b), verifyFails := m.verifyFails.filter (fun x => x != b) }))))
    else settled (issueOp s (mkOp s 4 b 11))

end Sys2Proof.Machine
end

