-- ==== Sys2Proof/Machine/Bays.lean ====
section
/-! DEFINITION. Bays (chapter 15): insertion, removal and faults (R363 to R367), commissioning (R369, R370), evacuation and release (R371 to
R375), import (R376 to R378), and the BAY_CONTROL commands. -/
namespace Sys2Proof.Machine
open Sys2Proof

/-! ## Signals -/

/-- The single profile of the image whose patterns match every die of a bay (R32). -/
def recognise (s : State) (dies : List (Nat × Nat)) : Option Nat :=
  let fits := (profileNums s).filter (fun p => match profileOf s p with
    | some f => !f.adopted && !dies.isEmpty && dies.all (fun d => f.patterns.contains d.2)
    | none => false)
  match fits with
  | [p] => some p
  | _ => none

/-- A descriptor's binding sections are those of some profile of the image (R365 FOREIGN). -/
def knownBinding (s : State) (h : Nat) : Bool := s.kf.img.profiles.any (fun f => !f.adopted && f.bindingHash == h)

/-- What the readings of an insertion leave in a bay position (R365). -/
def readBay (s : State) (v : BaySurvey) (x : Bay) : Bay :=
  let y : Bay :=
    { x with
      pwrEn := true, connected := true, writable := false, faultLow := false, profile := recognise s v.dies, dies := List.map Prod.fst v.dies
      pats := v.dies, failedDies := [], raw := v.rawBytes, ident := v.ident, u0 := 0, spareLeft := 0, progress := 0, asSpare := false, cancelled := false
      fresh := false, lastTemp := none, minuteTemp := none, rewrite := none
      copyA := surveyFrames v.pagesA, copyB := surveyFrames v.pagesB
      seqA := copySeq (surveyFrames v.pagesA) (surveyFrames v.pagesB), seqB := copySeq (surveyFrames v.pagesB) (surveyFrames v.pagesA) }
  match surveyInfo x.bay v with
  | none =>
    { y with uid := 0, tigrim := 0, foreign := false, imageId := 0, tablesHash := 0, bindingHash := 0
             defects := [], listedDefects := 0, overflow := false, lastBlockSeq := 0, createdAet := 0 }
  | some d =>
    { y with uid := d.uid, tigrim := d.tigrim, foreign := !knownBinding s d.bindingHash
             imageId := d.imageId, tablesHash := d.tablesHash, bindingHash := d.bindingHash, defects := d.defects
             listedDefects := d.defects.length, overflow := d.overflow, lastBlockSeq := d.lastBlockSeq, createdAet := d.createdAet }

/-- A checkpoint trigger that waits (R247). -/
def askCkpt (s : State) (g : CkptTrigger) : State :=
  updJrnl s (fun j => { j with waiting := if j.waiting.contains g then j.waiting else j.waiting ++ [g] })

/-- BAY_PRESENCE_ACCEPTED (R365): a carrier seated for 100 ms becomes INSERTED and is powered, connected and read; one that reports a fault
at 125 ms fails. A chip without ownership only sees the pin (R367), and one without an image holds every bay position off (R43). -/
def execBayPresenceAccepted (bay : Nat) (survey : BaySurvey) (s : State) : Host.Outcome State Fault Refusal :=
  match bayOf s bay with
  | none => settled s
  | some x =>
    if (x.present && x.st != .absent) || !(x.st == .absent || x.st == .released || x.st == .failed) then settled s
    else
      let t := updBay s bay (fun y => { y with present := true })
      if !isOwner s || !s.kf.imgValid then settled t
      else
        let t := setBaySt t bay .inserted
        if survey.faultLow then settled (bayFail (updBay t bay (fun y => { y with faultLow := true })) bay)
        else
          let t := updBay t bay (readBay t survey)
          settled (if uidOf t bay != x.uid then askCkpt t .bayChange else t)

/-- BAY_REMOVAL (R366): the bay is isolated and powered off; a MEMBER or EVACUATING bay is a member failure (R367), others go ABSENT, and
FAILED stays. -/
def execBayRemoval (bay : Nat) (s : State) : Host.Outcome State Fault Refusal :=
  match bayOf s bay with
  | none => settled s
  | some x =>
    if !x.present then settled s
    else if !isOwner s then settled (updBay s bay (fun y => { y with present := false }))
    else
      let t := if x.st == .member || x.st == .evacuating then recomputeHorizon (bayFail s bay)
        else
          let t := updBay (stopBayDies s bay) bay (fun y => { y with connected := false, pwrEn := false, writable := false, spareLeft := 0 })
          if x.st == .failed then t
          else
            let t := updBay (setBaySt t bay .absent) bay (fun y => { y with uid := 0, profile := none, dies := [], pats := [] })
            if x.uid == 0 then t else askCkpt t .bayChange
      settled (updBay t bay (fun y => { y with present := false, faultLow := false }))

/-- BAY_FAULT (R366, R367): a present bay whose carrier or switch reports a fault for 10 microseconds fails, and stays FAILED while
present. -/
def execBayFault (bay : Nat) (s : State) : Host.Outcome State Fault Refusal :=
  match bayOf s bay with
  | none => settled s
  | some x =>
    if !x.present || !isOwner s || x.st == .failed || x.st == .absent then settled s
    else settled (recomputeHorizon (bayFail (updBay s bay (fun y => { y with faultLow := true })) bay))

/-! ## Commissioning (R369, R370) -/

/-- WRITE_SEALED clears when every profile with MEMBER bays has twice its width in grown-defect reserve (R333). -/
def settleSeal (s : State) : State :=
  let enough := (profileNums s).all (fun p => match profileOf s p with
    | some f => (memberBays s p).isEmpty || decide (2 * f.w ≤ spareLeft s p)
    | none => true)
  if sealedSet s && enough then setFlags s [(bSealed, false)] else s

/-- A BAY_UID in use: of a present position, of the current root or of the retired list. -/
def uidUsed (s : State) (u : Nat) : Bool := u == 0 || s.media.retired.contains u || s.media.bays.any (fun b => b.uid == u)

/-- The first unused number from a random one on (R370): nonzero and distinct (assumption 27). -/
def newUid (s : State) : Nat :=
  let f := (freeNow s).toNat
  (((List.range 300).map (fun n => (f + n) % 2 ^ 64)).find? (fun u => !uidUsed s u)).getD f

/-- What earlier carriers of a position left in the tables is dropped: the new carrier's blocks are all erased. -/
def clearBay (s : State) (bay : Nat) : State :=
  updMap (updMedia s (fun m =>
    { m with pages := m.pages.filter (fun p => p.addr.bay != bay), offsets := m.offsets.filter (fun o => o.1.bay != bay)
             dies := m.dies.filter (fun d => d.id.bay != bay), verifyFails := m.verifyFails.filter (fun v => v.bay != bay)
             ladderFails := m.ladderFails.filter (fun v => v.bay != bay) }))
    (fun i => { i with blocks := i.blocks.filter (fun b => b.addr.bay != bay) })

/-- The carrier's new identity after step 4, its clock and log started at 0 (R370, R315). -/
def stampBay (s : State) (bay : Nat) (r : CommissionResult) : State :=
  let uid := newUid s
  let t := updBay (drawFree s) bay (fun x =>
    { x with
      uid := uid, defects := r.defects, listedDefects := r.defects.length, overflow := false, tigrim := 1
      imageId := s.kf.run.imageId, foreign := false, rewrite := none, rewrittenAt := aetSec s.cad.aet, createdAet := s.cad.aet
      lastBlockSeq := 0, progress := 10000, tc := 0
      tablesHash := ((x.profile.bind (profileOf s)).map (·.tablesHash)).getD 0
      bindingHash := ((x.profile.bind (profileOf s)).map (·.bindingHash)).getD 0 })
  match bayOf t bay with
  | some x => logBay (updBay t bay (fun y => setCopy 1 1 (copyFrames t x 1 1 0) (setCopy 0 1 (copyFrames t x 0 1 0) y))) x
  | none => t

/-- COMMISSIONING_DONE (R370): a bay with more than half of its dies wholly listed fails; else it gets its BAY_UID and descriptor and
becomes MEMBER or SPARE. -/
def execCommissioningDone (bay : Nat) (result : CommissionResult) (s : State) : Host.Outcome State Fault Refusal :=
  match bayOf s bay with
  | none => settled s
  | some x =>
    if x.st != .commissioning || s.jrnl.stopFrom.isSome then settled s
    else if x.dies.length < 2 * result.diesListed then settled (bayFail s bay)
    else if !result.descriptorsGood then settled s
    else
      let t := askCkpt (stampBay (clearBay s bay) bay result) .bayChange
      if x.asSpare then settled (setBaySt t bay .spare)
      else
        let t := updBay (joinMember t bay) bay (fun y => { y with fresh := true })
        settled (settleFull (settleSeal (recomputeHorizon t)))

/-! ## BAY_CONTROL -/

/-- The context of an admin command of an opcode and action that may be performed now. -/
def actionIn (s : State) (cid opcode action : Nat) : Option Ctx :=
  (ctxIn s cid opcode).filter (fun c => c.stage == .admitted && readyFor s c &&
    (if opcode == 0x90 then bits (eCdw c.dw 0) 11 8 else if opcode == 0x94 then bits (eCdw c.dw 0) 2 0 else bits (eCdw c.dw 0) 1 0) == action)

/-- A command that its own definition refuses when it is performed (R520, ORIGIN 5). -/
def refuseNow (s : State) (cid : Nat) (status : Half) (fieldOffset : Nat) : State :=
  decide_ s cid { status := status, origin := 5, fieldOffset := fieldOffset }

/-- The bay that a BAY_CONTROL names. -/
def ctlBay (s : State) (c : Ctx) : Option Bay := bayOf s (bits (eCdw c.dw 0) 3 0)

/-- The conditions of R369. -/
def mayCommission (s : State) (b : Bay) : Bool :=
  b.st == .inserted && !s.media.importing.contains b.bay && b.profile.isSome && b.dies.contains 0 && b.dies.contains 32 &&
    (b.uid == 0 || s.media.retired.contains b.uid)

/-- COMMISSION performed: the bay is COMMISSIONING and write-enabled (R369, R370 step 1). -/
def commission (s : State) (cid : Nat) (asSpare : Bool) (c : Ctx) : State :=
  match ctlBay s c with
  | none => refuseNow s cid 0x1002 0x30
  | some b =>
    if !mayCommission s b then refuseNow s cid 0x1002 0x30
    else
      let t := updBay (setBaySt s b.bay .commissioning) b.bay (fun x => { x with writable := true, asSpare := asSpare, progress := 0 })
      performState t cid 3 0 0

/-- BAY_CONTROL COMMISSION as member (R369). -/
def execBayCommissionMember (cid : Nat) (s : State) : Host.Outcome State Fault Refusal :=
  match actionIn s cid 0x90 0 with
  | none => settled s
  | some c => settled (commission s cid false c)

/-- BAY_CONTROL COMMISSION as spare (R369). -/
def execBayCommissionSpare (cid : Nat) (s : State) : Host.Outcome State Fault Refusal :=
  match actionIn s cid 0x90 1 with
  | none => settled s
  | some c => settled (commission s cid true c)

/-- A bay taken out of the sums: its blocks and reserve shares removed (R271). -/
def withoutBay (s : State) (b : Nat) : State := updBay s b (fun x => { x with st := .released, spareLeft := 0 })

/-- The condition of R271 for a bay of a profile. -/
def evacuationFits (s : State) (b : Bay) (p : Nat) (f : Profile) : Bool :=
  let u := usableBlocks s f b - (b.spareLeft + lastFull f b + reclaimFull s p f)
  decide (allocatedSegments s ≤ segmentsNow (withoutBay s b.bay)) &&
    decide (((2 * fullEnter s : Nat) : Int) ≤ spaceOf s - ((ratioFloor (dsbTimes s p u) : Nat) : Int))

/-- A block on an EVACUATING bay that a set still needs there: a column without a settled stand-in elsewhere, or a stand-in (R372, R373). -/
def evacBlocks (s : State) (k : SetRec) : List (Nat × Madr) :=
  let leaving (m : Madr) := ((bayOf s m.bay).map (fun b => b.st == .evacuating)).getD false && !colDown s k m
  let moved (c : Nat) := ((standInOf s k c).map (fun x => x.done && !leaving x.page0)).getD false
  (k.cols.filter (fun c => leaving c.2 && !moved c.1)) ++
    ((k.standIns.filter (fun x => leaving x.page0)).map (fun x => (x.col, x.page0)))

/-- The evacuation list in its order (R372). -/
def evacList (s : State) : List SetRec :=
  sortBy (fun a b => keyLe [streamRank a.stream, a.seq] [streamRank b.stream, b.seq])
    ((liveSets s).filter (fun k => !(evacBlocks s k).isEmpty))

/-- Sets of the list with a block on one bay. -/
def evacLeftOn (s : State) (bay : Nat) : Nat := ((evacList s).filter (fun k => (evacBlocks s k).any (fun c => c.2.bay == bay))).length

/-- BAY_CONTROL EVACUATE (R371): refused unless MEMBER, under R52 and under R271; else the bay is EVACUATING. -/
def execBayEvacuate (cid : Nat) (s : State) : Host.Outcome State Fault Refusal :=
  match actionIn s cid 0x90 2 with
  | none => settled s
  | some c =>
    match ctlBay s c with
    | none => settled (refuseNow s cid 0x1002 0x30)
    | some b =>
      match b.profile, b.profile.bind (profileOf s) with
      | some p, some f =>
        if b.st != .member then settled (refuseNow s cid 0x1002 0x30)
        else if s.kf.boot.pend != 0 && s.kf.pendQuiet then settled (refuseNow s cid 0x4005 0xFF)
        else if !evacuationFits s b p f then settled (refuseNow s cid 0x4001 0xFF)
        else
          let t := setBaySt s b.bay .evacuating
          let t := updMedia t (fun m => { m with evacLeft := (evacList t).length })
          let t := updBay t b.bay (fun x => { x with evacTotal := evacLeftOn t b.bay, progress := 0, cancelled := false })
          settled (settleFull (performState t cid 3 0 0))
      | _, _ => settled (refuseNow s cid 0x1002 0x30)

/-- BAY_CONTROL CANCEL_EVACUATE (R374): no further set is started, and the bay becomes MEMBER when the last running operation ends. -/
def execBayCancelEvacuate (cid : Nat) (s : State) : Host.Outcome State Fault Refusal :=
  match actionIn s cid 0x90 3 with
  | none => settled s
  | some c =>
    match ctlBay s c with
    | none => settled (refuseNow s cid 0x1002 0x30)
    | some b =>
      if b.st != .evacuating || b.cancelled then settled (refuseNow s cid 0x1002 0x30)
      else settled (settleFull (performState (settleCancels (updBay s b.bay (fun x => { x with cancelled := true }))) cid 3 0 0))

/-- A bay set RELEASED by the steps of R373: recorded, its BAY_UID retired, isolated and then powered off. -/
def releaseBay (s : State) (b : Bay) : State :=
  let t := retireUid (setBaySt s b.bay .released) b.uid
  let t := updBay (stopBayDies t b.bay) b.bay (fun x =>
    { x with connected := false, pwrEn := false, writable := false, spareLeft := 0, cancelled := false, progress := 10000 })
  settleFull (settleSeal (recomputeHorizon (settleLoss t)))

/-- BAY_CONTROL RELEASE (R373): of a SPARE or INSERTED bay. -/
def execBayRelease (cid : Nat) (s : State) : Host.Outcome State Fault Refusal :=
  match actionIn s cid 0x90 4 with
  | none => settled s
  | some c =>
    match ctlBay s c with
    | none => settled (refuseNow s cid 0x1002 0x30)
    | some b =>
      if (b.st != .spare && b.st != .inserted) || s.media.importing.contains b.bay then settled (refuseNow s cid 0x1002 0x30)
      else settled (performState (releaseBay s b) cid 3 0 0)

/-! ## Evacuation (R372) -/

/-- A column moved: a stand-in host found, or made from a SPARE bay, the set claimed, the stand-in opened and every row of it
programmed; none where no host is found or the claim is not granted. -/
def columnMove (s : State) (k : SetRec) (col : Nat) : Option State :=
  let t := if (standInHost s k col false).isSome then s else useSpare s k.profile
  match standInHost t k col false with
  | none => none
  | some m =>
    let t := claimSet t .evacuate k.seq
    if !((holderOf t k.seq).map (fun c => c.agent == .evacuate)).getD false then some t
    else
      let t := openStandIn t k col m 6
      let x : StandIn := { col := col, page0 := m, rowsDone := 0, done := false }
      some ((List.range (liveRows k)).foldl (fun t r => fillStandIn t k x r 6) t)

/-- One set of the list moved: by its column where exactly one lies on EVACUATING bays and a host exists, otherwise by a refresh trigger
of severity 3 (R372); none where the set is already on its way. -/
def evacSet (s : State) (k : SetRec) : Option State :=
  let inHand := (claimOf s .evacuate k.seq).isSome || k.standIns.any (fun x => !x.done) || !k.closed
  let asked := s.media.refresh.any (fun t => t.seq == k.seq && t.severity == 3)
  if inHand || asked then none
  else
    match evacBlocks s k with
    | [(col, _)] => (columnMove s k col).or (some (raiseTrigger s k.seq 3))
    | _ => some (raiseTrigger s k.seq 3)

/-- EVACUATE_PROGRESS for each EVACUATING bay when 1,024 sets have left the list since the last one, and the bays' PROGRESS (Tables 15-4,
7-9). -/
def noteEvac (s : State) : State :=
  let left := (evacList s).length
  let bays := s.media.bays.filter (fun b => b.st == .evacuating)
  let t := bays.foldl (fun t b => updBay t b.bay (fun x =>
    { x with progress := if x.evacTotal == 0 then 10000 else (x.evacTotal - Nat.min x.evacTotal (evacLeftOn s b.bay)) * 10000 / x.evacTotal })) s
  if s.media.evacLeft < left + 1024 then t
  else updMedia (bays.foldl (fun t b => journal t (.evacProgress b.bay left)) t) (fun m => { m with evacLeft := left })

/-- EVACUATION_SET_MOVE (R372): the first of the list's first 32 sets that is not yet on its way is moved. Sets whose evacuating bays
are all being cancelled are not started (R374). -/
def execEvacuationSetMove (s : State) : Host.Outcome State Fault Refusal :=
  let starts (k : SetRec) : Bool := (evacBlocks s k).any (fun c => !((bayOf s c.2.bay).map (·.cancelled)).getD true)
  if notReady s || s.jrnl.stopFrom.isSome then settled s
  else
    match (((evacList s).take 32).filter starts).findSome? (evacSet s) with
    | some t => settled (settleFull (noteEvac t))
    | none => settled (settleCancels (noteEvac s))

/-- EVACUATION_DONE (R373): no set that is not released needs the bay any more. -/
def execEvacuationDone (bay : Nat) (s : State) : Host.Outcome State Fault Refusal :=
  match bayOf s bay with
  | none => settled s
  | some b =>
    if b.st != .evacuating || b.cancelled || 0 < evacLeftOn s bay || s.jrnl.stopFrom.isSome then settled s
    else settled (releaseBay s b)

/-! ## Import (R376 to R378) -/

/-- The survey's code (Table 15-5), the first that holds. -/
def importCode (s : State) (b : Option Bay) (v : ImportSurvey) : Nat :=
  match b with
  | none => 1
  | some x =>
    if x.st != .inserted || x.uid == 0 then 1
    else if !s.map.nss.isEmpty || !s.media.importing.isEmpty || s.media.bays.any (fun y => y.st == .commissioning || y.st == .evacuating) then 2
    else
      match newestRoot v.roots x.uid with
      | none => 3
      | some root =>
        let group := importGroup s root
        if !withinParity v group then 4
        else if 4 < s.kf.img.profiles.length + (foreignSections s group).length then 5
        else if !tigrimReadable s group then 6
        else 0

/-- BAY_CONTROL IMPORT (R376): the survey's code is returned; 0 starts the import of the root's group. -/
def execBayImport (cid : Nat) (survey : ImportSurvey) (s : State) : Host.Outcome State Fault Refusal :=
  match actionIn s cid 0x90 5 with
  | none => .next s
  | some c =>
    let b := ctlBay s c
    let code := importCode s b survey
    if code != 0 then .next (updCtx (refuseNow s cid 0x1002 0x30) cid (fun c => { c with result0 := w32 code }))
    else
      let group := importGroup s (((b.bind (fun x => newestRoot survey.roots x.uid))).getD [])
      .next (performState (updMedia s (fun m => { m with importing := group })) cid 3 0 0)

/-- The profile number of a group bay: the image profile with its binding sections, or the adopted one, added where it is new (R377). -/
def adopt (s : State) (b : Bay) : State × Nat :=
  match (profileNums s).find? (fun p => ((profileOf s p).map (fun f => f.bindingHash == b.bindingHash)).getD false) with
  | some p => (s, p)
  | none =>
    let f := { Config.adoptedProfile b.bindingHash b.tablesHash with bindingHash := b.bindingHash, tablesHash := b.tablesHash, adopted := true }
    (updKf s (fun k => { k with img := { k.img with profiles := k.img.profiles ++ [f] } }), s.kf.img.profiles.length)

/-- A group bay joins: MEMBER of an image profile, EVACUATING in an adopted one, with a new thermal log (R377, R378). -/
def joinGroup (s : State) (bay : Nat) : State :=
  match bayOf s bay with
  | none => s
  | some b =>
    let r := adopt s b
    let t := updBay r.1 bay (fun x => { x with profile := some r.2, tc := 0, writable := true })
    let adopted := ((profileOf t r.2).map (·.adopted)).getD false
    let t := if adopted then setBaySt t bay .evacuating else joinMember t bay
    match bayOf t bay with
    | some x => logBay t x
    | none => t

/-- The map that the imported medium gives (R240, R378). -/
def importMap (r : Found) : MapImg := applyRecs r.img r.records

/-- The counters resume above the higher of both values; CSN at the first reserved block above both (R378, R104). -/
def importCounters (s : State) (r : Found) (sjHigh : Nat) : State :=
  let first := (Nat.max (Nat.max s.csnNext s.csnBlock) r.csnHigh / 2 ^ 20 + 1) * 2 ^ 20
  let t := updMedia s (fun m => { m with blockSeqHigh := Nat.max m.blockSeqHigh r.blockSeqHigh, sjSeq := Nat.max m.sjSeq (sjHigh + 1) })
  let t := updJrnl t (fun j => { j with nextSeq := Nat.max j.nextSeq (r.jseqHigh + 1), nextCkpt := Nat.max j.nextCkpt (r.ckptSeq + 1) })
  journal { t with csnNext := first, csnBlock := first } (.csnReserve first)

/-- The checkpoint that a changed BAY_UID asked for is still to be made: no MADR of the new bay enters the map before it (R247). -/
def bayCkptWaits (s : State) : Bool :=
  s.jrnl.newest.isSome &&
    (s.jrnl.waiting.contains .bayChange || s.jrnl.running.any (fun r => r.trigger == .bayChange) || s.jrnl.written.isSome)

/-- IMPORT_DONE (R378): once the checkpoint for the changed bays stands, the medium's map is taken over, missing bays are recorded failed,
and every imported set is at risk. -/
def execImportDone (result : ImportResult) (s : State) : Host.Outcome State Fault Refusal :=
  if s.media.importing.isEmpty || s.jrnl.stopFrom.isSome || bayCkptWaits s then settled s
  else
    let old := s.map.sets.map (·.seq)
    let found := readMedium s s.media.importing result
    let t := s.media.importing.foldl joinGroup s
    let t := importCounters t found result.sjHigh
    let t := updMap t (fun _ => importMap found)
    let t := settleTaken (settleSegments (updMedia t (fun m => { m with pages := m.pages ++ result.pages, importing := [] })))
    let t := found.missing.foldl (fun t x =>
      updMedia (journal t (.memberFail x.1 none 0 x.2)) (fun m => { m with fails := m.fails ++ [{ bay := x.1, die := none, profile := 0, uid := x.2 }] })) t
    let t := result.lostRows.foldl (fun t x =>
      match setOf t x.1 with
      | some k => declareLost t k x.2 (k.cols.flatMap (fun c => (List.range k.stripeUnit).map (fun u => { c.2 with page := rowPage k x.2 u })))
      | none => t) t
    let t := afterMemberFail (askCkpt (journal t (.importDone found.ckptSeq found.csnLast)) .bayChange)
    let new := ((liveSets t).map (·.seq)).filter (fun q => !old.contains q)
    settled (settleFull (settleSeal (recomputeHorizon (setAtRisk t (t.media.atRisk ++ new.filter (fun q => !t.media.atRisk.contains q))))))

end Sys2Proof.Machine
end

