-- ==== Sys2Proof/Machine/Cadence.lean ====
section
/-! DEFINITION. Cadence and archive time (chapter 03): ticks, lock and loss (R54 to R58, R77 to R81), AET (R60 to R64), the window grid and the
plan (R65 to R70), budget and debt (R71 to R75), and maintenance draws (R73). -/
namespace Sys2Proof.Machine
open Sys2Proof

/-! ## Windows (R69 to R75) -/

/-- Dies in MEMBER, SPARE and EVACUATING bays (R71). -/
def cadDies (s : State) : Nat :=
  (s.media.bays.filter (fun b => b.st == .member || b.st == .spare || b.st == .evacuating)).foldl (fun n b => n + b.dies.length) 0

/-- C for a window of l ticks, in die-microseconds (R71) (assumption 15). -/
def capacityC (s : State) (l : Nat) : Nat := cadDies s * l * s.cad.period / 1000

/-- The current window is quiet under a plan (R67). -/
def quietAt (p : Plan) (t : Nat) : Bool := p.quiet.getLsbD (windowPos p.windowTicks t)

/-- The index T of the AET in force. -/
def nowT (s : State) : Nat := tIndex s.cad.tps s.cad.aet

/-- The debt that a closed window leaves, before the cap (R74). -/
def debtAfter (c : Cad) : Nat := (c.debt - c.repay) + (c.charged - (c.budget : Int)).toNat

/-- The cap of R75 for the plan that the closed window ran under. -/
def debtCap (s : State) : Nat := 8 * (capacityC s s.cad.windowPlan.windowTicks * s.cad.windowPlan.share / 100)

/-- The budget of a window that begins, prorated where it begins part-way (R69, R71). -/
def windowBudget (s : State) (prorated : Bool) : Nat :=
  let l := s.cad.plan.windowTicks
  let b := if quietAt s.cad.plan (nowT s) then 0 else capacityC s l * s.cad.plan.share / 100
  if prorated then b * (l - windowTick l (nowT s)) / Nat.max l 1 else b

/-- A window closed and the next one begun: debt, its cap, payment and budget (R74, R75); debt is zero at the first window after a
restart (assumption 16). The payment r is half of the budget as prorated at most (assumption 43). -/
def rollWindow (s : State) (prorated : Bool) : State :=
  let after := debtAfter s.cad
  let cap := debtCap s
  let d := if s.cad.firstWindow then 0 else Nat.min after cap
  let forgiven := if s.cad.firstWindow then 0 else (after - cap) / 1024
  let b := windowBudget s prorated
  let r := if quietAt s.cad.plan (nowT s) then 0 else Nat.min d (b / 2)
  updCad s (fun c =>
    { c with
      forgiven := satAdd 0xFFFFFFFF c.forgiven forgiven, debt := d, nominal := b, repay := r, budget := b - r, charged := c.chargedNext, chargedNext := 0
      drawnRebuild := 0, drawnSweep := 0, rescued := [], drawnPatrol := [], windowPlan := c.plan, windowDue := none, firstWindow := false
      resumed := false })

/-- At the first window boundary after a member failure the rebuild starts, a SPARE bay of each lacking profile becoming MEMBER (R349,
R353); it waits in state 4 where no listed set has a host. -/
def beginRebuild (s : State) : State :=
  if !s.media.rebuildDue then s
  else
    let t := updMedia s (fun m => { m with rebuildDue := false })
    if lackingRows t == 0 then t
    else
      let ps := (profileNums t).filter (fun p => (liveSets t).any (fun k => k.profile == p && decide (0 < setLacking t k)))
      let t := ps.foldl useSpare t
      if t.media.rebuild == 1 || t.media.rebuild == 2 then t
      else setRebuild t (if someHost t then 1 else 4) []

/-- A window start that a tick has made due is carried out (R74). -/
def settleWindow (s : State) : State :=
  match s.cad.windowDue with
  | none => s
  | some prorated => settleSweep (beginRebuild (rollWindow s prorated))

/-- WINDOW_START (R74): at the first tick of a window the old one is closed and E, r and the debt are computed. -/
def execWindowStart (s : State) : Host.Outcome State Fault Refusal := settled (settleWindow s)

/-! ## Sets of AET (R61, R62) -/

/-- The AET that a tick gives (R60). -/
def naturalAet (c : Cad) : Nat :=
  if c.tps ≤ aetTick c.aet + 1 then (aetSec c.aet + 1) * 65536 else c.aet + 1

/-- RESULT of a standing set (Table 3-9): 1 applied, 2 backward, 3 invalid tick count (assumption 20). -/
def judgeSet (tps natural : Nat) (x : AetSet) : Nat :=
  if tps ≤ aetTick x.value then 3
  else if x.value + 2 * 65536 < natural && !x.force then 2
  else 1

/-- Contexts of replaced host sets complete with 1 in result dword 0; the standing one with its outcome (R61, R62). -/
def completeSets (s : State) (x : AetSet) (result : Nat) : State :=
  let t := s.cad.replaced.foldl (fun t cid => performState t cid 2 1 0) s
  match x.cid with
  | none => t
  | some cid => if result == 1 then performState t cid 2 0 0 else refuseNow t cid 0x1002 0x34

/-- The standing set checked at a tick whose own AET would be `natural` (R61): applied, with the TIME event where AET moves by other than one
tick or becomes valid, and the unpowered time fixed by the set that makes it valid (R328); or refused. -/
def checkSet (s : State) (natural : Nat) (x : AetSet) : State :=
  let old := s.cad.aet
  let result := judgeSet s.cad.tps natural x
  let first := !s.cad.aetValid
  let aet := if result == 1 then x.value else natural
  let t := updCad s (fun c =>
    { c with aet := aet, aetValid := c.aetValid || result == 1, setResult := result, pendingSet := none })
  let t := completeSets t x result
  let t := updCad t (fun c => { c with replaced := [] })
  if result != 1 then t
  else
    let t := if aet != natural then
        updMedia t (fun m => { m with lastMinute := aetSec aet / 60, lastHour := aetSec aet / 3600 })
      else t
    let t := if first then fixUnpowered t (aetSec aet - aetSec natural) else t
    if aet != natural || first then raiseEvent t 6 1 (aetSec aet) (aetSec old) else t

/-! ## Ticks -/

/-- Grids brought to a T that moved: a point passed over is late and due now; a point that lies beyond the next grid point of the new T
comes back to it (R70, R76). -/
def regrid (s : State) : State :=
  let t := nowT s
  let i := Nat.max s.cad.journalTicks 1
  updCad s (fun c =>
    { c with journalDue := Nat.min c.journalDue ((t + i - 1) / i * i), ckptDue := Nat.min c.ckptDue ((c.aet + 131071) / 131072 * 131072) })

/-- A point not run yet stays due where it is late; else the next one is the given one of the new interval (R76). -/
def dueAfter (due now next : Nat) : Nat := if due ≤ now then due else next

/-- The AET at which a checkpoint is due after an occurrence that starts at an AET: the greater of half of 2 s later and the first grid
point after it, an even second (R76). -/
def ckptAfter (aet : Nat) : Nat := Nat.max (aet + 65536) ((aet / 131072 + 1) * 131072)

/-- Windows run: the clusters are released and the part is not in PS3 or PS4 (R69, R81). -/
def windowsRun (s : State) : Bool := s.kf.released && s.power.st < 3

/-- dword 0 of a plan (Table 3-2). -/
def planWord (p : Plan) : Word := pack [(p.windowTicks, 0), (p.share, 16)]

/-- The plan that waits takes effect at this tick: its T is a multiple of 64 L of that plan (R68). -/
def planSwitches (s : State) : Bool := s.cad.pendingPlan.any (fun p => nowT s % (64 * Nat.max p.windowTicks 1) == 0)

/-- The plan that waits takes effect (R68). -/
def switchPlan (s : State) : State :=
  match s.cad.pendingPlan with
  | none => s
  | some p =>
    let old := s.cad.plan
    raiseEvent (updCad s (fun c => { c with plan := p, pendingPlan := none })) 6 2 (planWord p).toNat (planWord old).toNat

/-- A tick leaves the grid of the tick before it: AET was set, or jumped. -/
def tickMoved (s t : State) : Bool := nowT t != s.cad.lastT + 1

/-- A tick's new AET: the natural one, or the standing set (R60, R61, R67). -/
def tickAet (s : State) : State :=
  match s.cad.pendingSet with
  | some x => checkSet s (naturalAet s.cad) x
  | none => updCad s (fun c => { c with aet := naturalAet s.cad })

/-- A pending TPS taken at a tick count of 0 (R70). -/
def tickTps (s : State) : State :=
  match s.cad.pendingTps with
  | some n => if aetTick s.cad.aet == 0 then updCad s (fun c => { c with tps := n, pendingTps := none }) else s
  | none => s

/-- The time that a tick leaves: AET, TPS, the grid of T, and the grids of AET seconds where AET has moved (R60, R61, R70, R76). -/
def tickTime (s : State) (c : Nat) : State :=
  let t := updCad (tickTps (tickAet s)) (fun x => { x with lastTick := c, lastT := nowT (tickTps (tickAet s)) })
  if tickMoved s t then regrid t else t

/-- The window that begins at a tick waits for WINDOW_START; a snapshot is taken with it where SNAP_ON_WINDOW asks (R68, R69). -/
def tickWindow (s : State) (switched starts : Bool) : State :=
  let t := if switched then updCad s (fun x => { x with windowDue := some false })
    else if starts then updCad s (fun x => { x with windowDue := some (windowTick s.cad.plan.windowTicks (nowT s) != 0) }) else s
  if t.cad.windowDue.isSome && t.ctr.snapOnWindow then trigSnap t else t

/-- What a tick does at its sampling cycle: AET, the standing set, a pending TPS, the plan, and the window that begins there (R60, R61, R68 to
R70). -/
def doTick (s : State) (c : Nat) : State :=
  let s := advanceTo (settleWindow s) c
  let t := tickTime s c
  let starts := tickMoved s t || t.cad.firstWindow || t.cad.resumed || windowTick t.cad.plan.windowTicks (nowT t) == 0
  let u := if planSwitches t then switchPlan t else t
  if windowsRun u then tickWindow u (planSwitches t) starts else u

/-- A CAD_OUT pulse from a cycle (R58) (assumption 18). -/
def pulseOut (s : State) (c : Nat) (yes : Bool) : State :=
  if yes then updCad s (fun x => { x with outPulse := some c, outCount := x.outCount + 1 }) else s

/-- TPS derived from a period (R60). -/
def derivedTps (period : Nat) : Nat := (2 * 1000000000 + period) / (2 * Nat.max period 1)

/-- The TPS that a lock or a write calls for waits for a tick count of 0 (R70); one equal to the one in force is no change. -/
def wantTps (s : State) (n : Nat) : State := updCad s (fun c => { c with pendingTps := if n == c.tps then none else some n })

/-- Mean of sixteen intervals, in whole cycles (assumption 14). -/
def meanOf (l : List Nat) : Nat := l.foldl (· + ·) 0 / 16

/-- Sixteen intervals qualify for lock (R56). -/
def qualifies (l : List Nat) : Bool :=
  let sum := l.foldl (· + ·) 0
  l.length == 16 && l.all (fun i => decide (250000 ≤ i) && decide (i ≤ 4000000) && decide (50 * (16 * i) ≤ 51 * sum) && decide (49 * sum ≤ 50 * (16 * i)))

/-- An accepted edge kept, with the interval since the last one where it may be used. -/
def takeEdge (s : State) (c : Nat) (use : Bool) : State :=
  updCad s (fun x =>
    { x with
      lastEdge := some c, flySinceEdge := false
      intervals := match x.lastEdge with
        | some e => if use then ((c - e) :: x.intervals).take 16 else x.intervals
        | none => x.intervals })

/-- A rising edge sampled now would be a tick under R57 (R58). -/
def edgeTicks (x : Cad) (c : Nat) : Bool := x.locked && decide (x.prediction ≤ c + x.period / 50) && decide (c ≤ x.prediction)

/-- An edge while locked: tick, re-phase or spurious (R57) (assumption 17). -/
def lockedEdge (s : State) (c : Nat) : State :=
  let x := s.cad
  if edgeTicks x c then
    let t := takeEdge s c (!x.flySinceEdge)
    let t := updCad t (fun y =>
      let p := if y.intervals.length == 16 then meanOf y.intervals else y.period
      { y with period := p, prediction := c + p, lastWasFlywheel := false, flywheelRun := 0 })
    pulseOut (doTick t c) c x.outEnable
  else if x.lastWasFlywheel && 50 * (c - x.lastTick) ≤ x.period then
    updCad (takeEdge s c false) (fun y => { y with prediction := c + y.period, lastWasFlywheel := false })
  else updCad s (fun y => { y with spurious := satAdd 0xFFFF y.spurious 1 })

/-- An edge while lock is sought: the one that completes 16 qualifying intervals locks, and is a tick where at least half the new period has
passed since the last tick (R78, R79); CAD_OUT repeats that tick (assumption 41). The TPS it derives waits for a later tick (R60, R70). -/
def seekEdge (s : State) (c : Nat) : State :=
  let t := takeEdge s c true
  if !qualifies t.cad.intervals then t
  else
    let p := meanOf t.cad.intervals
    let t := setFlags t [(bCadLost, false)]
    let tick := decide (p ≤ 2 * (c - t.cad.lastTick))
    let t := updCad t (fun y =>
      { y with locked := true, period := p, lockTps := derivedTps p, prediction := c + p, flywheelRun := 0, lockFrom := none, lastWasFlywheel := false })
    let t := if tick then pulseOut (doTick t c) c t.cad.outEnable else t
    if t.cad.tpsFixed == 0 then wantTps t t.cad.lockTps else t

/-- A rising edge that fell again before the filter took it: CAD_OUT, where it was begun, is driven low again (R58). -/
def runtOut (s : State) : State :=
  if s.cad.outEnable && s.power.st < 3 && edgeTicks s.cad s.now then updCad s (fun x => { x with outRunts := x.outRunts + 1 }) else s

/-- An edge counted on the always-on clock in PS3 and PS4: a tick without the prediction test (R81); CAD_OUT does not repeat it (assumption
41). -/
def deepEdge (s : State) : State :=
  let c := s.now
  let late := s.cad.lastEdge.any (fun e => decide (e + 32 * s.cad.period < c))
  let t := takeEdge (doTick s c) c false
  updCad t (fun x => { x with prediction := c + x.period, lastWasFlywheel := false, edgeGap := x.edgeGap || late })

/-- CAD_TICK_EDGE (R54, R57, R58, R78, R79, R81): a rising edge that passed the filter is a tick, a re-phase or spurious; of a shorter pulse
only a runt on CAD_OUT may be seen. In PS3 and PS4 every edge is a tick without the prediction test. -/
def execCadTickEdge (cyc : Nat) (heldHigh : Bool) (s : State) : Host.Outcome State Fault Refusal :=
  if s.kf.porst then settled s
  else
    let t := advanceTo s cyc
    if t.cad.internal then settled t
    else if !heldHigh then settled (runtOut t)
    else if 3 ≤ t.power.st then settled (deepEdge t)
    else if t.cad.locked then settled (lockedEdge t t.now)
    else settled (seekEdge t t.now)

/-- FLYWHEEL_TICK (R57, R77, R79): no edge came by the prediction; the tick is made there. FLYWHEEL_RUN counts it (Table 3-4); those before
lock do not count toward R77, since lock clears the run. -/
def execFlywheelTick (s : State) : Host.Outcome State Fault Refusal :=
  if s.kf.porst || s.cad.internal || 3 ≤ s.power.st then settled s
  else
    let c := s.cad.prediction
    let t := updCad s (fun x =>
      { x with
        prediction := c + x.period, lastWasFlywheel := true, flySinceEdge := true
        flywheelTicks := satAdd 0xFFFF x.flywheelTicks 1
        flywheelRun := satAdd 255 x.flywheelRun 1 })
    settled (pulseOut (doTick t c) c (s.cad.outEnable && s.cad.outFlywheel))

/-- CADENCE_LOST_SET (R77): after 32 consecutive flywheel ticks while locked. Edges then serve only reacquisition. -/
def execCadenceLostSet (s : State) : Host.Outcome State Fault Refusal :=
  if !s.cad.locked || s.cad.internal || s.cad.flywheelRun < 32 then settled s
  else settled (updCad (setFlags s [(bCadLost, true)]) (fun x => { x with locked := false, intervals := [], lastEdge := none }))

/-- LOCK_TIMEOUT (R79, R519): no lock within 100 ms. -/
def execLockTimeout (cyc : Nat) (s : State) : Host.Outcome State Fault Refusal :=
  let t := advanceTo s cyc
  match t.cad.lockFrom with
  | none => settled t
  | some c =>
    if t.cad.locked || t.cad.internal || !t.kf.released || t.now < c + 100000000 then settled t
    else settled (updCad (setFlags t [(bCadLost, true)]) (fun x => { x with lockFrom := none }))

/-- INTERNAL_TICK (R80): with SOURCE 1 a tick falls every 1,000,000 cycles. -/
def execInternalTick (s : State) : Host.Outcome State Fault Refusal :=
  if s.kf.porst || !s.cad.internal then settled s
  else
    let c := s.cad.prediction
    let t := updCad s (fun x => { x with prediction := c + 1000000, lastWasFlywheel := false })
    settled (pulseOut (doTick t c) c s.cad.outEnable)

/-! ## Registers of chapter 03 that act -/

/-- A set submitted: it replaces a pending one, whose host command then waits to complete as replaced (R62). -/
def submitSet (s : State) (x : AetSet) : State :=
  updCad s (fun c => { c with pendingSet := some x, replaced := c.replaced ++ ((c.pendingSet.bind (·.cid)).toList) })

/-- AET_SET_CTRL written (Table 3-8): APPLY submits AET_SET_HI:AET_SET_LO. -/
def writeAetSetCtrl (s : State) (value : Word) : State :=
  if !value.getLsbD 0 then s
  else submitSet s { value := s.cad.setHi.toNat * 2 ^ 32 + s.cad.setLo.toNat, force := value.getLsbD 1, cid := none }

/-- AET_SET_APPLY (R61). -/
def execAetSetApply (value : Word) (s : State) : Host.Outcome State Fault Refusal := .next (writeAetSetCtrl s value)

/-- CAD_CONTROL written (Table 3-3): a change of SOURCE takes effect at once (R519). -/
def writeCadControl (t : State) (value : Word) : State :=
  let t := updCad t (fun c => { c with outFlywheel := value.getLsbD 1, outEnable := value.getLsbD 2, outPulse := if value.getLsbD 2 then c.outPulse else none })
  let src := value.getLsbD 0
  if src == t.cad.internal then t
  else if src then
    let t := updCad (setFlags t [(bCadLost, false)]) (fun c =>
      { c with
        internal := true, locked := false, lockFrom := none, period := 1000000, lockTps := 1000, flywheelRun := 0
        prediction := Nat.max (c.lastTick + 1000000) (t.now + 1), intervals := [], lastEdge := none })
    if t.cad.tpsFixed == 0 then wantTps t 1000 else t
  else
    updCad t (fun c =>
      { c with internal := false, locked := false, lockFrom := some t.now, period := 1000000, flywheelRun := 0, intervals := [], lastEdge := none })

/-- CAD_CONTROL_SOURCE_WRITE (R519). -/
def execCadControlSourceWrite (cyc : Nat) (value : Word) (s : State) : Host.Outcome State Fault Refusal :=
  settled (writeCadControl (advanceTo s cyc) value)

/-- CAD_TPS written (R60, R70): 0 gives the TPS derived at the last lock (assumption 40), 250 to 4,000 fixes, any other value is ignored. -/
def writeCadTps (s : State) (value : Word) : State :=
  let v := bits value.toNat 12 0
  if v == 0 then wantTps (updCad s (fun c => { c with tpsFixed := 0 })) s.cad.lockTps
  else if 250 ≤ v && v ≤ 4000 then wantTps (updCad s (fun c => { c with tpsFixed := v })) v
  else s

/-- CAD_TPS_WRITE (R60). -/
def execCadTpsWrite (value : Word) (s : State) : Host.Outcome State Fault Refusal := .next (writeCadTps s value)

/-- AET_LO read: AET_HI is latched from the same value (R64). -/
def readAetLo (s : State) : State := { updCad s (fun c => { c with aetHi := hi32 c.aet }) with readData := lo32 s.cad.aet }

/-- AET_LO_READ (R64). -/
def execAetLoRead (s : State) : Host.Outcome State Fault Refusal := .next (readAetLo s)

/-! ## Draws (R72, R73) -/

/-- Urgent work is granted whatever the charges (R73). -/
def urgentDraw : DrawKind → Bool
  | .journalFlush | .checkpoint | .urgentWriteback | .systemErase | .reserveReclaim | .rebuildNoParity | .failedOpenSet | .secondLadder => true
  | .reclaim | .refresh | .patrol | .wakeSweep | .rebuild | .evacuate | .commissioning | .descriptorRewrite => false

/-- A draw of the rebuild, or of the wake sweep. -/
def rebuildDraw (k : DrawKind) : Bool := k == .rebuild || k == .rebuildNoParity

/-- What is still reserved of E for the rebuild (R355) and for the sweep (R330). -/
def heldRebuild (s : State) : Nat :=
  if s.media.rebuild == 1 then s.cad.budget * s.feat.rebuildShare / 100 - s.cad.drawnRebuild else 0
def heldSweep (s : State) : Nat :=
  if flag s.cond bReduced then
    (s.cad.budget - (if flag s.cond bRebuilding then s.cad.budget * s.feat.rebuildShare / 100 else 0)) / 2 - s.cad.drawnSweep
  else 0

/-- Non-quiet windows of the plan left before an AET second. -/
def windowsLeft (s : State) (until_ : Nat) : Nat :=
  let l := Nat.max s.cad.plan.windowTicks 1
  let n := (until_ * s.cad.tps - nowT s) / l
  let open_ (from_ count : Nat) : Nat :=
    ((List.range count).filter (fun i => !s.cad.plan.quiet.getLsbD ((from_ + i) % 64))).length
  n / 64 * open_ 0 64 + open_ (windowPos l (nowT s) + 1) (n % 64)

/-- Page reads left in a profile's patrol cycle (R322). -/
def patrolLeft (s : State) (p : Nat) : Nat :=
  let q := profSt s p
  q.patrolList.foldl (fun n seq => match setOf s seq with
    | some k => n + ((patrolPages s k).filter (fun a => !q.patrolRead.contains a)).length
    | none => n) 0

/-- Patrol's quota of page reads in this window is not used up (R322). -/
def patrolQuota (s : State) (p : Nat) : Bool :=
  let n := windowsLeft s ((profSt s p).patrolNext)
  let used := ((s.cad.drawnPatrol.find? (fun x => x.1 == p)).map (·.2)).getD 0
  n == 0 || decide (used < ceilDiv (5 * patrolLeft s p) (4 * n))

/-- A shutdown of the whole part has begun: a port is shutting down and every enabled one is (R262). -/
def wholeStop (s : State) : Bool :=
  (s.portA.shutdownState != 0 || s.portB.shutdownState != 0) &&
    (!s.portA.enable || s.portA.shutdownState != 0) && (!s.portB.enable || s.portB.shutdownState != 0)

/-- A draw is granted (R73): in PS0, never once a clean stop record stands, and only urgent work while the whole part shuts down (R262); urgent work always; other work while the window's charges, with what is held for others, are below E, the
rebuild only in state 1 (R355), patrol within its quota and not while paused (R322, R324). -/
def drawGranted (s : State) (k : DrawKind) (die : DieId) : Bool :=
  let hr := if rebuildDraw k then 0 else heldRebuild s
  let hs := if k == .wakeSweep then 0 else heldSweep s
  let room := decide (s.cad.charged + ((hr + hs : Nat) : Int) < (s.cad.budget : Int))
  s.power.st == 0 && s.jrnl.stopFrom.isNone && !s.jrnl.cleanStands && (!rebuildDraw k || s.media.rebuild == 1) &&
    (urgentDraw k || !wholeStop s) &&
    (urgentDraw k || (room && (k != .patrol ||
      (s.media.patrolPause.isNone && ((bayOf s die.bay).bind (·.profile)).all (patrolQuota s)))))

/-- One more page read drawn by patrol in a profile. -/
def countPatrol (l : List (Nat × Nat)) (p : Nat) : List (Nat × Nat) :=
  if l.any (fun x => x.1 == p) then l.map (fun x => if x.1 == p then (p, x.2 + 1) else x) else l ++ [(p, 1)]

/-- The first operation that waits for a draw of a kind on a die with a sequence. -/
def waitingOp (s : State) (kind : DrawKind) (die : DieId) (seqNo : Nat) : Option DieOp :=
  s.media.undrawn.find? (fun o => drawOf s o == some kind && dieOf o.page == die && o.seqNo == seqNo)

/-- A draw granted for a waiting operation: its typical busy time is charged and it goes to the die (R72, R73). -/
def grantDraw (s : State) (kind : DrawKind) (die : DieId) (op : DieOp) : State :=
  let m := op.typical.getD 0
  let t := updCad s (fun c =>
    { c with
      charged := c.charged + (m : Int)
      drawnRebuild := if rebuildDraw kind then c.drawnRebuild + m else c.drawnRebuild
      drawnSweep := if kind == .wakeSweep then c.drawnSweep + m else c.drawnSweep
      drawnPatrol := if kind == .patrol then (match (bayOf s die.bay).bind (·.profile) with | some p => countPatrol c.drawnPatrol p | none => c.drawnPatrol)
                     else c.drawnPatrol })
  let t := updPower (updMedia t (fun x => { x with workPending := true, undrawn := x.undrawn.erase op })) (fun p => { p with idleFrom := t.now })
  enqueueOp t { op with issued := t.now }

/-- MAINTENANCE_DRAW (R72, R73): a maintenance agent draws for the operation that it has waiting on a die; a grant charges the typical busy
time of its kind and issues the operation, a refusal is counted and the operation goes on waiting. -/
def execMaintenanceDraw (kind : DrawKind) (die : DieId) (seqNo : Nat) (s : State) : Host.Outcome State Fault Refusal :=
  let t := settleWindow s
  match waitingOp t kind die seqNo with
  | none => settled t
  | some op => if drawGranted t kind die then settled (grantDraw t kind die op) else settled (countEvent t 0x38 0 1)

end Sys2Proof.Machine
end

