-- ==== Sys2Proof/Machine/Checks.lean ====
section
/-! DEFINITION. The checks of admission: the fields that each opcode uses (Tables 4-9, 6-1, 7-1 and 17-2, R146, R170 to R183), the stage 1
checks in the order of Table 5-2, the extents (R154), the lengths (R155), and the judgements that R520 repeats. -/
namespace Sys2Proof.Machine
open Sys2Proof

/-! ## Opcodes (Tables 6-1, 7-1) -/

/-- Opcodes that an I/O queue accepts (R95). -/
def ioOpcode (op : Nat) : Bool :=
  [0x01, 0x02, 0x04, 0x05, 0x08, 0x0A, 0x0C, 0x10, 0x11, 0x12, 0x13, 0x14, 0x15, 0x16].contains op

/-- Opcodes that queue 0 accepts (R95). -/
def adminOpcode (op : Nat) : Bool := (0x80 ≤ op && op ≤ 0x8D) || (0x90 ≤ op && op ≤ 0x94)

/-- Commands that name a namespace and a range. -/
def usesRange (op : Nat) : Bool := [0x01, 0x02, 0x04, 0x05, 0x08, 0x0A, 0x0C, 0x12].contains op

/-- Commands that use CHECK_CTRL (Table 6-1). -/
def usesCheck (op : Nat) : Bool := [0x01, 0x02, 0x04, 0x05, 0x0C, 0x12].contains op

/-- Digest commands that name a context (R410). -/
def namesContext (op : Nat) : Bool := [0x11, 0x12, 0x13, 0x14, 0x16].contains op

/-- BLOCK_COUNT limit (Table 6-1). -/
def countLimit (op : Nat) : Nat := if op == 0x04 || op == 0x12 then 262144 else if op == 0x08 then 1048576 else 2048

/-- CHECK_CTRL bits (Table 6-4). -/
def chkGen (dw : List Word) : Bool := bits (eCheck dw) 0 0 == 1
def chkApp (dw : List Word) : Bool := bits (eCheck dw) 1 1 == 1
def chkStrip (dw : List Word) : Bool := bits (eCheck dw) 2 2 == 1

/-- APPCHK as a tag and mask to be checked (R150). -/
def appCheck (dw : List Word) : Option (Nat × Nat) := if chkApp dw then some (eAppTag dw, eAppMask dw) else none

/-- Block size and digest length of an algorithm (Table 17-1). -/
def digBlock (alg : Nat) : Nat := if alg == 1 then 64 else if alg == 2 then 128 else 136
def digLen (alg : Nat) : Nat := if alg == 2 then 64 else 32

/-- The extents of a command carry data over PCIe. -/
def movesData (dw : List Word) : Bool :=
  match eOpcode dw with
  | 0x01 | 0x02 | 0x05 | 0x11 | 0x14 | 0x15 | 0x80 | 0x81 | 0x88 => true
  | 0x10 => bits (eCdw dw 0) 4 4 == 1
  | 0x13 => bits (eCdw dw 1) 16 0 != 0
  | _ => false

/-! ## Fields (Tables 4-9, 4-8, 5-6, 7-16, 7-19, 17-2) -/

/-- A judged field: its byte offset in the entry and whether it passes. -/
abbrev FieldChk := Nat × Bool

/-- The first field found at fault: the lowest offset (Table 5-4 FIELD_OFFSET). -/
def firstFault (l : List FieldChk) : Option Nat :=
  l.foldl (fun a f => if f.2 then a else match a with | some o => some (Nat.min o f.1) | none => some f.1) none

/-- Bits of a CDW that must be zero. -/
def zeroCdw (dw : List Word) (n hi lo : Nat) : FieldChk := (0x30 + 4 * n + lo / 8, bits (eCdw dw n) hi lo == 0)

/-- A field that must be zero. -/
def zeroAt (off v : Nat) : FieldChk := (off, v == 0)

/-- Reserved fields (R15): of the common dwords, and of the opcode's CDWs. -/
def reservedFields (dw : List Word) : List FieldChk :=
  [zeroAt 0x01 (bits (dword dw 0) 15 10), zeroAt 0x02 (bits (dword dw 0) 23 21), zeroAt 0x04 (bits (dword dw 1) 31 3)] ++
  (match eOpcode dw with
    | 0x10 => [zeroCdw dw 0 31 6]
    | 0x13 => [zeroCdw dw 1 23 17, zeroCdw dw 1 31 25]
    | 0x84 => [zeroCdw dw 0 15 14, zeroCdw dw 0 31 29, zeroCdw dw 1 15 13, zeroCdw dw 1 31 29, zeroCdw dw 2 31 24, zeroCdw dw 3 31 0]
    | 0x86 => [zeroCdw dw 0 15 14, zeroCdw dw 0 31 18, zeroCdw dw 1 31 12, zeroCdw dw 2 31 0, zeroCdw dw 3 31 0]
    | _ => [])

/-- Limits of a cadence plan (R67). -/
def planFields (v0 v1 v2 : Nat) : List FieldChk :=
  let l := bits v0 8 0
  let share := bits v0 22 16
  let mask := v1 + v2 * 2 ^ 32
  let zerosIn := ((List.range 64).filter (fun n => bits mask n n == 0)).length
  [(0x34, 4 ≤ l && l ≤ 256 && 1 ≤ share && share ≤ 75 && bits v0 15 9 == 0 && bits v0 31 23 == 0), (0x38, 16 ≤ zerosIn)]

/-- Features that can be saved (Table 7-16). -/
def savable (f : Nat) : Bool := [1, 2, 3, 4, 7, 9, 10, 11, 12].contains f

/-- The value of a SET_FEATURE in its range (Table 7-16). -/
def featureFields (s : State) (p : Port) (f addr v0 v1 v2 : Nat) : List FieldChk :=
  let noAddr := zeroAt 0x08 addr
  let only0 := [noAddr, zeroAt 0x38 v1, zeroAt 0x3C v2]
  let within (lo hi x : Nat) : FieldChk := (0x34, lo ≤ x && x ≤ hi)
  match f with
  | 0x01 =>
    let t1 := bits v0 15 0 * 10000
    let t2 := bits v0 31 16 * 1000000
    let t3 := bits v1 15 0 * 1000000000
    let t4 := bits v1 31 16 * 1000000000
    let deeper (a b : Nat) : Bool := b == 0 || a ≤ b
    [noAddr, (0x36, deeper t1 t2), (0x38, deeper t1 t3 && deeper t2 t3), (0x3A, deeper t1 t4 && deeper t2 t4 && deeper t3 t4), zeroAt 0x3C v2]
  | 0x02 => noAddr :: planFields v0 v1 v2
  | 0x03 => within 1 120 v0 :: only0
  | 0x04 => [(0x34, 85 ≤ bits v0 7 0 && bits v0 7 0 ≤ (if Config.variantAX then 115 else 110)),
      (0x35, 2 ≤ bits v0 15 8 && bits v0 15 8 ≤ 15), zeroAt 0x36 (bits v0 31 16)] ++ only0
  | 0x05 =>
    let other := (portOf s (if p == .a then .b else .a)).hostMap.length
    [(0x08, addr % 8 == 0), (0x34, v0 + other ≤ 131072), zeroAt 0x38 v1, zeroAt 0x3C v2]
  | 0x06 => [noAddr, (0x34, 1 ≤ v0 && v0 < s.kf.img.maxQueues), (0x38, v1 < 2 ^ 24), zeroAt 0x3C v2]
  | 0x07 => [(0x34, bits v0 7 0 != 0), (0x35, bits v0 15 8 != 0), (0x36, bits v0 23 16 != 0),
      (0x37, 1 ≤ bits v0 31 24 && bits v0 31 24 ≤ 32)] ++ only0
  | 0x08 => [(0x08, addr % 4096 == 0), within 0 65536 v0, zeroAt 0x38 v1, zeroAt 0x3C v2]
  | 0x09 => only0
  | 0x0A => within 1 64 v0 :: only0
  | 0x0B => within 10 90 v0 :: only0
  | 0x0C => within 0 36500 v0 :: only0
  | 0x0D => [noAddr, (0x3C, v2 < 2)]
  | 0x0E => [noAddr, (0x34, v0 < 4096), zeroAt 0x3C v2]
  | _ => [(0x30, false)]

/-- SET_FEATURE (R174). -/
def setFeatureFields (s : State) (p : Port) (dw : List Word) : List FieldChk :=
  let f := bits (eCdw dw 0) 7 0
  let mode := bits (eCdw dw 0) 9 8
  let v0 := eCdw dw 1
  let v1 := eCdw dw 2
  let v2 := eCdw dw 3
  [(0x30, 1 ≤ f && f ≤ 0x0E && (isOwner s || f == 0x0E)), (0x31, mode != 3 && (mode == 0 || savable f)), zeroCdw dw 0 31 10] ++
    (if mode == 2 then [zeroAt 0x08 (eLba dw), zeroAt 0x34 v0, zeroAt 0x38 v1, zeroAt 0x3C v2]
     else featureFields s p f (eLba dw) v0 v1 v2)

/-- GET_FEATURE (R174): VALUE0 is the selector of features 0x06 and 0x0E. -/
def getFeatureFields (s : State) (dw : List Word) : List FieldChk :=
  let f := bits (eCdw dw 0) 7 0
  let v0 := eCdw dw 1
  [zeroAt 0x08 (eLba dw), (0x20, eExtLen dw == 0 || eExtLen dw == 32), (0x18, eExtLen dw == 32 || eExtAddr dw == 0),
    (0x30, 1 ≤ f && f ≤ 0x0E), (0x31, bits (eCdw dw 0) 9 8 != 3), zeroCdw dw 0 31 10,
    (0x34, if f == 0x06 then 1 ≤ v0 && v0 < s.kf.img.maxQueues else if f == 0x0E then v0 < 4096 else v0 == 0),
    zeroCdw dw 2 31 0, zeroCdw dw 3 31 0]

/-- 64 KiB blocks of a slot, by component: keeper, cluster, structure, overlay (Table 19-1). -/
def slotBlocks (component : Nat) : Nat := if component < 2 then 128 else if component == 2 then 64 else 1

/-- CDW fields of an admin command (Tables 4-8, 5-6, 7-16, 7-19, R171, R172, R180, R181, R458 to R461). -/
def adminFields (s : State) (p : Port) (dw : List Word) : List FieldChk :=
  let cdw := eCdw dw
  let z1 := zeroCdw dw 1 31 0
  let z2 := zeroCdw dw 2 31 0
  let z3 := zeroCdw dw 3 31 0
  let qid := bits (cdw 0) 13 0
  let ring (n : Nat) : Bool := 2 ≤ n && n ≤ s.kf.img.maxRing
  match eOpcode dw with
  | 0x80 =>
    let cns := bits (cdw 0) 7 0
    let idx := bits (cdw 0) 15 8
    [(0x30, cns ≤ 3), (0x31, if cns == 1 then 1 ≤ idx && idx ≤ 64 else if cns == 2 then idx ≤ 15 else idx == 0), zeroCdw dw 0 31 16, z1, z2, z3]
  | 0x81 =>
    let id := bits (cdw 0) 7 0
    [(0x08, eLba dw % 4 == 0), (0x30, 1 ≤ id && id ≤ 0x0E),
      (0x31, if id == 1 then decide (bits (cdw 0) 21 8 < s.kf.img.maxQueues) else bits (cdw 0) 21 8 == 0), zeroCdw dw 0 31 22,
      (0x34, 4 ≤ cdw 1 && cdw 1 ≤ 16777216 && cdw 1 % 4 == 0), z2, z3]
  | 0x82 => getFeatureFields s dw
  | 0x83 => setFeatureFields s p dw
  | 0x84 =>
    [(0x08, eLba dw % 4096 == 0), (0x18, eExtAddr dw % 4096 == 0), (0x30, 1 ≤ qid && qid < s.kf.img.maxQueues),
      (0x32, ring (bits (cdw 0) 28 16)), (0x34, ring (bits (cdw 1) 12 0)), (0x36, decide (bits (cdw 1) 26 16 < s.kf.img.maxVectors)),
      (0x37, bits (cdw 1) 28 27 != 3)]
  | 0x85 => [(0x30, 1 ≤ qid && qid < s.kf.img.maxQueues), zeroCdw dw 0 31 14, z1, z2, z3]
  | 0x86 =>
    let opt := bits (cdw 0) 17 16
    [(0x30, 1 ≤ qid && qid < s.kf.img.maxQueues), (0x32, opt != 3), (0x34, opt == 2 || bits (cdw 1) 11 0 == 0)]
  | 0x87 => [z2, z3]
  | 0x88 =>
    let comp := bits (cdw 0) 1 0
    [zeroCdw dw 0 31 2, (0x34, decide (bits (cdw 1) 7 0 < slotBlocks comp)), zeroCdw dw 1 31 8, z3]
  | 0x89 | 0x8B =>
    [(0x30, bits (cdw 0) 2 0 != 0 && bits (cdw 0) 5 4 < 2 && bits (cdw 0) 3 3 == 0), zeroCdw dw 0 31 6, z1, z2, z3]
  | 0x8A => [zeroCdw dw 0 31 0, z1, z2, z3]
  | 0x8C =>
    [(0x30, 1 ≤ bits (cdw 0) 7 0 && bits (cdw 0) 7 0 ≤ 64),
      (0x31, bits (cdw 0) 9 8 != 3 && bits (cdw 0) 11 10 == 0 && bits (cdw 0) 15 13 == 0), zeroCdw dw 0 31 16, (0x34, cdw 1 != 0), z2, z3]
  | 0x8D => [zeroCdw dw 0 31 8, z1, z2, z3]
  | 0x90 => [(0x31, bits (cdw 0) 11 8 ≤ 5), zeroCdw dw 0 7 4, zeroCdw dw 0 31 12, z1, z2, z3]
  | 0x91 => [(0x30, bits (cdw 0) 1 0 ≤ 1), zeroCdw dw 0 31 2, z1, z2, z3]
  | 0x92 => [(0x30, bits (cdw 0) 1 0 ≤ 2 && bits (cdw 0) 7 2 == 0), zeroCdw dw 0 31 14, z1, z2, z3]
  | 0x93 =>
    let hours := bits (cdw 0) 23 16
    [(0x30, bits (cdw 0) 1 0 ≤ 2), zeroCdw dw 0 15 2, (0x32, if bits (cdw 0) 1 0 == 0 then 1 ≤ hours && hours ≤ 168 else hours == 0),
      zeroCdw dw 0 31 24, z1, z2, z3]
  | 0x94 => [(0x30, bits (cdw 0) 2 0 ≤ 3), zeroCdw dw 0 31 3, z1, z2, z3]
  | _ => []

/-- A host address that a DIGEST_FINAL may name (R414). -/
def digestAddrOk (a : Nat) : Bool := a != 0 && a % 4 == 0

/-- CDW fields of an I/O command (Tables 6-1, 17-2). -/
def ioFields (dw : List Word) : List FieldChk :=
  let cdw := eCdw dw
  let z0 := zeroCdw dw 0 31 0
  let z1 := zeroCdw dw 1 31 0
  let z2 := zeroCdw dw 2 31 0
  let z3 := zeroCdw dw 3 31 0
  match eOpcode dw with
  | 0x0A => [z2, z3]
  | 0x0C => [zeroCdw dw 0 31 8, z1]
  | 0x10 =>
    let alg := bits (cdw 0) 3 0
    let keyed := bits (cdw 0) 4 4 == 1
    [(0x30, 1 ≤ alg && alg ≤ 3 && (keyed || bits (cdw 0) 5 5 == 0)),
      (0x34, if keyed then cdw 1 != 0 && cdw 1 % 4 == 0 && cdw 1 ≤ digBlock alg else cdw 1 == 0), z2, z3]
  | 0x11 => [(0x34, 4 ≤ cdw 1 && cdw 1 ≤ 16777216 && cdw 1 % 4 == 0), z2, z3]
  | 0x12 => [z1, z2, z3]
  | 0x13 => [(0x34, bits (cdw 1) 16 0 ≤ 65536 && bits (cdw 1) 16 0 % 4 == 0), (0x38, digestAddrOk (eCdw23 dw))]
  | 0x14 | 0x16 => [z1, z2, z3]
  | _ => [z0, z1, z2, z3]

/-- Fields of the common dwords that do not depend on the namespace format or on a context (check 4, R146, R170). -/
def commonFields (dw : List Word) : List FieldChk :=
  let op := eOpcode dw
  let lbaUsed := usesRange op || op == 0x81 || op == 0x82 || op == 0x83 || op == 0x84
  let tagUsed := op == 0x0A || op == 0x01 || (usesCheck op && chkApp dw)
  let noList := !movesData dw
  let noExt := noList && op != 0x82 && op != 0x84
  [(0x03, if usesRange op then 1 ≤ eNs dw && eNs dw ≤ 64 else eNs dw == 0),
    (0x04, usesCheck op || eCheck dw == 0), (0x08, lbaUsed || eLba dw == 0),
    (0x10, if usesRange op then 1 ≤ eCount dw && eCount dw ≤ countLimit op else eCount dw == 0),
    (0x14, tagUsed || eAppTag dw == 0), (0x16, (usesCheck op && chkApp dw) || eAppMask dw == 0),
    (0x01, !noList || !eList dw), (0x24, !noList || eListCount dw == 0), (0x28, !noList || eListAddr dw == 0),
    (0x18, !noExt || eExtAddr dw == 0), (0x20, !(noExt || op == 0x84) || eExtLen dw == 0)]

/-- Check 4 of Table 5-2. -/
def check4 (s : State) (p : Port) (dw : List Word) : Option Nat :=
  firstFault (commonFields dw ++ (if eOpcode dw < 0x80 then ioFields dw else adminFields s p dw))

/-! ## Judgements on state that earlier admissions change (R520) -/

/-- A digest context that a command may name: it exists and no FINAL or CLOSE stands on it (R410). -/
def digCtxOf (s : State) (id : Nat) : Option DigCtx := s.dig.ctxs.find? (fun d => d.id == id && !d.ended)

/-- Admitted queue commands of a port that name a queue, newest CSN last. -/
def queueCommands (s : State) (p : Port) (q : Nat) : List Ctx :=
  s.ctxs.filter (fun c => c.port == p && c.queue == 0 && c.stage == .admitted && c.status == 0
    && (eOpcode c.dw == 0x84 || eOpcode c.dw == 0x85) && bits (eCdw c.dw 0) 13 0 == q)

/-- The newest of them. -/
def newestOf (l : List Ctx) : Option Ctx :=
  l.foldl (fun a c => match a with | some x => if x.csn < c.csn then some c else a | none => some c) none

/-- The state a queue counts as for judgements: an admitted CREATE_QUEUE makes it ACTIVE, an admitted DELETE_QUEUE DISABLED, an admitted
RESTART_QUEUE RESTARTING (R520). -/
def countsAs (s : State) (p : Port) (q : Nat) : QState :=
  match newestOf (queueCommands s p q) with
  | some c => if eOpcode c.dw == 0x84 then .active else .disabled
  | none =>
    match queueOf s p q with
    | none => .disabled
    | some k => if k.restart.isSome then .restarting else k.st

/-- An index lies in ring order from a first index up to a last one, both included. -/
def inSpan (n lo hi x : Nat) : Bool := decide (x < n) && decide ((x + n - lo) % n ≤ (hi + n - lo) % n)

/-- State of a namespace that a command names: check 5's existence, check 6's state (R182). -/
def nsJudge (s : State) (n off : Nat) : Option (Half × Nat) :=
  match nsOf s n with
  | none => some (0x1002, off)
  | some x => if x.st == .ready then none else some (0x4003, off)

/-- The judgements of R520 on a command, with status and field. -/
def judge520 (s : State) (p : Port) (dw : List Word) : Option (Half × Nat) :=
  let op := eOpcode dw
  let q := bits (eCdw dw 0) 13 0
  let bad (ok : Bool) (off : Nat) : Option (Half × Nat) := if ok then none else some (0x1002, off)
  let busy := fun (n off : Nat) => match nsOf s n with | some x => if x.st == .ready then none else some ((0x4003 : Half), off) | none => none
  if usesRange op then
    let dst := bits (eCdw dw 0) 7 0
    bad (nsOf s (eNs dw)).isSome 0x03 <|> (if op == 0x0C then bad (nsOf s dst).isSome 0x30 else none)
      <|> (if op == 0x12 then bad ((digCtxOf s (eCdw dw 0)).any (fun d => d.standing.isNone)) 0x30 else none)
      <|> busy (eNs dw) 0x03 <|> (if op == 0x0C then busy dst 0x30 else none)
  else if namesContext op then bad ((digCtxOf s (eCdw dw 0)).any (fun d => d.standing.isNone)) 0x30
  else
    match op with
    | 0x84 => bad (countsAs s p q == .disabled) 0x30
    | 0x85 => bad (countsAs s p q != .disabled) 0x30
    | 0x86 =>
      match countsAs s p q, queueOf s p q with
      | .disabled, _ => some (0x1002, 0x30)
      | .frozen, some k =>
        bad (bits (eCdw dw 0) 17 16 != 2 || inSpan k.sqEntries k.resumeIndex k.sqTail (bits (eCdw dw 1) 11 0)) 0x34
      | _, _ => some (0x1007, 0x30)
    | 0x82 | 0x83 =>
      if bits (eCdw dw 0) 7 0 == 0x06 then
        bad (countsAs s p (bits (eCdw dw 1) 13 0) == .active || countsAs s p (bits (eCdw dw 1) 13 0) == .frozen) 0x34
      else none
    | 0x8C =>
      match nsOf s (bits (eCdw dw 0) 7 0) with
      | none => none
      | some x => if x.st == .ready then some (0x1002, 0x30) else some (0x4003, 0x30)
    | 0x8D => nsJudge s (bits (eCdw dw 0) 7 0) 0x30
    | _ => none

/-! ## Checks on the format or the context (check 5), the range (check 7) and the extents (check 8) -/

/-- CHECK_CTRL values allowed for a command and a FORMAT (Table 6-5). -/
def checkAllowed (op format ctrl : Nat) : Bool :=
  if op == 0x01 then (if format == 0 then ctrl == 0 else ctrl ≤ 2)
  else if op == 0x02 then (if format == 0 then ctrl == 0 || ctrl == 2 else [0, 2, 4, 6].contains ctrl)
  else if usesCheck op then ctrl == 0 || ctrl == 2 else ctrl == 0

/-- The part of check 5 that depends on the format or on the context (R150, R146, R161, R414). -/
def check5 (s : State) (dw : List Word) : Option Nat :=
  let op := eOpcode dw
  let f := nsFormat s (eNs dw)
  let span : FieldChk := match digCtxOf s (eCdw dw 0) with
    | some d => (0x38, decide (eCdw23 dw + digLen d.d.alg ≤ 2 ^ 64))
    | none => (0x38, true)
  if usesRange op then
    firstFault ([(0x04, checkAllowed op f (eCheck dw)),
      (0x14, !(op == 0x01 && f != 0 && !chkGen dw && !chkApp dw) || eAppTag dw == 0)] ++
      (if op == 0x0C then [(0x30, nsFormat s (bits (eCdw dw 0) 7 0) == f)] else []))
  else if op == 0x13 then firstFault [span] else none

/-- Blocks of a namespace (Table 7-3). -/
def nsBlocks (s : State) (n : Nat) : Nat := ((nsOf s n).map (fun x => x.segments * 256)).getD 0

/-- Check 7. -/
def check7 (s : State) (dw : List Word) : Option Nat :=
  if !usesRange (eOpcode dw) then none
  else
    firstFault ([(0x08, decide (eLba dw + eCount dw ≤ nsBlocks s (eNs dw)))] ++
      (if eOpcode dw == 0x0C then [(0x38, decide (eCdw23 dw + eCount dw ≤ nsBlocks s (bits (eCdw dw 0) 7 0)))] else []))

/-- Check 8: the inline extent, LIST_COUNT and LIST_ADDR (R154). -/
def check8 (dw : List Word) : Option Nat :=
  let a := eExtAddr dw
  let n := eExtLen dw
  let extent := [(0x18, a % 4 == 0 && decide (a + n ≤ 2 ^ 64)), (0x20, n != 0 && n % 4 == 0)]
  if movesData dw then
    firstFault (extent ++
      (if eList dw then [(0x24, 1 ≤ eListCount dw && eListCount dw ≤ 8192),
          (0x28, eListAddr dw % 16 == 0 && decide (eListAddr dw + 16 * eListCount dw ≤ 2 ^ 64))]
       else [zeroAt 0x24 (eListCount dw), zeroAt 0x28 (eListAddr dw)]))
  else if eOpcode dw == 0x82 && eExtLen dw == 32 then firstFault extent
  else none

/-! ## States in which an action is not allowed (R183) -/

/-- The state that a BAY_CONTROL action needs (R369, R371, R373, R374). -/
def bayRefusal (s : State) (dw : List Word) : Option (Half × Nat) :=
  match bayOf s (bits (eCdw dw 0) 3 0) with
  | none => some (0x1002, 0x30)
  | some b =>
    let ok : Bool := match bits (eCdw dw 0) 11 8 with
      | 0 | 1 => mayCommission s b
      | 2 => b.st == .member
      | 3 => b.st == .evacuating && !b.cancelled
      | 4 => (b.st == .spare || b.st == .inserted) && !s.media.importing.contains b.bay
      | _ => true
    if ok then none else some (0x1002, 0x31)

/-- A REBUILD_CONTROL or TWIN_CONTROL action is allowed in the present state (R356, Table 16-7). With TWIN_SOLO_HOLD 1 the chip does not
pair, and it does not pair with a partner whose PAIR_HELLO it refuses (R397, Table 16-8). -/
def actionAllowed (s : State) (dw : List Word) : Bool :=
  let t := s.twin
  match eOpcode dw, bits (eCdw dw 0) 2 0 with
  | 0x91, 0 => s.media.rebuild != 0 && s.media.rebuild != 3 && !noParityLeft s
  | 0x91, _ => s.media.rebuild == 3
  | 0x94, 0 => t.role == .active && t.partnerRole == .fenced && 0 < t.lanes && !t.hold && t.pairReject == 0 && t.peer.isSome
  | 0x94, 1 => t.role == .active && t.pairRec.isSome
  | 0x94, 2 => t.role == .active && t.partnerRole == .standby
  | 0x94, _ => t.role == .active && !t.hold
  | _, _ => true

/-- Check 10's part for a maintenance command: EVACUATE without room (R271). -/
def bayNoRoom (s : State) (dw : List Word) : Bool :=
  if bits (eCdw dw 0) 11 8 != 2 then false
  else
    match bayOf s (bits (eCdw dw 0) 3 0) with
    | none => false
    | some b => match b.profile, b.profile.bind (profileOf s) with
      | some p, some f => !evacuationFits s b p f
      | _, _ => false

/-! ## Stage 1 (Table 5-2) -/

/-- Opcodes that a chip without ownership performs on queue 0 (R390). -/
def standbyOpcode (op : Nat) : Bool := [0x80, 0x81, 0x82, 0x83, 0x88, 0x89, 0x8A, 0x8B].contains op

/-- A verdict at stage 1. -/
def v1 (status : Half) (off : Nat) : Verdict := { status := status, origin := 1, fieldOffset := off }

/-- A field check's verdict. -/
def badField (o : Option Nat) : Option Verdict := o.map (v1 0x1002)

/-- Check 2. -/
def opcodeOk (s : State) (queue op : Nat) : Bool :=
  if queue == 0 then adminOpcode op && (isOwner s || standbyOpcode op) else ioOpcode op

/-- A command writes to the map: check 9 applies (R26, R180, R181). -/
def checkSeals (op : Nat) : Bool := op == 0x01 || op == 0x08 || op == 0x0A || op == 0x0C || op == 0x8C || op == 0x8D

/-- Check 10 (R270, R180, R271). -/
def noSpace (s : State) (dw : List Word) : Bool :=
  match eOpcode dw with
  | 0x01 | 0x0A | 0x0C => s.media.full
  | 0x8C => decide (unallocatedSegments s < eCdw dw 1)
  | 0x90 => bayNoRoom s dw
  | _ => false

/-- Stage 1: the first check of Table 5-2 that fails. With `late` the judgements of R520 are left to stage 4. -/
def stage1 (s : State) (p : Port) (queue : Nat) (dw : List Word) (late : Bool) : Option Verdict :=
  let op := eOpcode dw
  let j := if late then none else (judge520 s p dw).map (fun x => v1 x.1 x.2)
  let busy := match j with | some v => v.status == 0x4003 | none => false
  let known := (judge520 s p dw).isNone || busy
  (if failedSet s && !(queue == 0 && (op == 0x80 || op == 0x81)) then some (v1 0x7001 0xFF) else none)
  <|> (if opcodeOk s queue op then none else some (v1 0x1001 0x00))
  <|> badField (firstFault (reservedFields dw))
  <|> badField (check4 s p dw)
  <|> (if busy then none else j)
  <|> (if op == 0x90 then (bayRefusal s dw).map (fun x => v1 x.1 x.2) else none)
  <|> (if actionAllowed s dw then none else some (v1 0x1002 0x30))
  <|> (if known then badField (check5 s dw) else none)
  <|> j
  <|> (if known then (check7 s dw).map (v1 0x1006) else none)
  <|> (check8 dw).map (v1 0x1005)
  <|> (if checkSeals op && sealedSet s then some (v1 0x4002 0xFF) else none)
  <|> (if noSpace s dw then some (v1 0x4001 0xFF) else none)

/-! ## Stage 2 (R102) and stage 3 (R126, R127, R155) -/

/-- A command from its admission to the posting of its completion. -/
def inFlight (c : Ctx) : Bool := c.csn != 0 && (c.stage == .admitted || c.stage == .ended)

/-- A tag in use on a queue (R102). -/
def tagInUse (s : State) (p : Port) (q tag : Nat) : Bool := (queueCtxs s p q).any (fun c => inFlight c && eTag c.dw == tag)

/-- Expected length of a command's stream (Tables 6-7, 17-2, R171, R172, R458). -/
def expectedLen (s : State) (dw : List Word) : Nat :=
  let m := metaSize (nsFormat s (eNs dw))
  match eOpcode dw with
  | 0x01 | 0x05 => eCount dw * (4096 + m)
  | 0x02 => eCount dw * (if chkStrip dw then 4096 else 4096 + m)
  | 0x10 | 0x11 | 0x81 => eCdw dw 1
  | 0x13 => bits (eCdw dw 1) 16 0
  | 0x14 | 0x15 => 512
  | 0x80 => 4096
  | 0x88 => 65536
  | _ => 0

/-- A data list entry is well formed (R154). -/
def entryOk (e : ListEntry) : Bool :=
  e.addr % 4 == 0 && e.len != 0 && e.len % 4 == 0 && decide (e.addr + e.len ≤ 2 ^ 64) && e.reserved == 0

/-- Entries judged in list order from entry n, whose data begins at `off` (R127). -/
def entryFault (es : List ListEntry) (n off : Nat) : Option (Nat × Nat) :=
  match es with
  | [] => none
  | e :: rest => if entryOk e then entryFault rest (n + 1) (off + e.len) else some (n, off)

/-- Sum of the extents of a list. -/
def listTotal (es : List ListEntry) : Nat := es.foldl (fun a e => a + e.len) 0

/-- A data list entry as its 16 bytes lay it out (Table 6-6). -/
def entryOfBytes (bs : List Byte) : ListEntry where
  addr := field bs 0 8
  len := field bs 8 4
  reserved := w32 (field bs 12 4)

/-- The entries of a list, at most n, that its bytes spell (R153). -/
def entriesOf (n : Nat) (bs : List Byte) : List ListEntry :=
  (List.range (Nat.min n (bs.length / 16))).map (fun i => entryOfBytes (slice bs (16 * i) 16))

/-- The entries that a read of a command's list gave. -/
def listEntries (dw : List Word) : ListRead → List ListEntry
  | .entries bs => entriesOf (eListCount dw) bs
  | .fault before _ => entriesOf (eListCount dw) before

/-- A list read whole, judged against the expected length; the verdict carries ORIGIN `origin`. -/
def judgeList (dw : List Word) (expected origin : Nat) (list : ListRead) : Option Verdict :=
  let es := if eList dw then listEntries dw list else []
  match entryFault es 0 (eExtLen dw) with
  | some (n, off) => some { status := 0x1005, origin := origin, byteOffset := off, detail0 := n + 1 }
  | none =>
    match eList dw, list with
    | true, .fault _ kind =>
      some { status := 0x1005, origin := origin, byteOffset := 16 * es.length, detail0 := es.length + 1, detail1 := kind }
    | _, _ =>
      let total := eExtLen dw + listTotal es
      if total == expected then none
      else some { status := 0x1004, origin := origin, byteOffset := Nat.min total expected, detail0 := expected, detail1 := total }

/-- The list of a command is summed at admission (R155). -/
def summedAtAdmission (dw : List Word) : Bool := movesData dw && (!eList dw || decide (eListCount dw ≤ 64))

/-- Stage 3. -/
def stage3 (s : State) (dw : List Word) (list : ListRead) : Option Verdict :=
  if summedAtAdmission dw then judgeList dw (expectedLen s dw) 3 list else none

/-- The extents of a command in order (R148). -/
def extentsOf (dw : List Word) (list : ListRead) : List (Nat × Nat) :=
  (eExtAddr dw, eExtLen dw) :: (if eList dw then (listEntries dw list).map (fun e => (e.addr, e.len)) else [])

/-- Stages 1 to 3, and the judgements of stage 4 where they were passed at stage 1 (R101, R520). -/
def judgeEntry (s : State) (p : Port) (queue : Nat) (dw : List Word) (list : ListRead) (late : Bool) : Option Verdict :=
  stage1 s p queue dw late
  <|> (if tagInUse s p queue (eTag dw) then some { status := 0x1003, origin := 2, fieldOffset := 0x02 } else none)
  <|> stage3 s dw list
  <|> (if late then (judge520 s p dw).map (fun x => { status := x.1, origin := 9, fieldOffset := x.2 }) else none)

end Sys2Proof.Machine
end

