-- ==== Sys2Proof/Machine/Ports.lean ====
section
/-! DEFINITION. The ports (chapter 04 R84 to R89, chapter 22 R508): enabling, disabling, resets, and the RESUMPTION log of a port disable
(chapter 05 R138 to R141). -/
namespace Sys2Proof.Machine
open Sys2Proof

/-! ## Features of a port (R175, R177) -/

/-- Scope number of a port's saved features. -/
def portScope : Port → Nat
  | .a => 1
  | .b => 2

/-- A saved feature value: VALUE0, VALUE1, VALUE2 (R175). -/
def savedOf (s : State) (scope f : Nat) : Option (List Word) :=
  (s.kf.saved.find? (fun x => x.1 == scope && x.2.1 == f)).map (·.2.2)

/-- VALUE n of a saved value, or a default. -/
def savedVal (s : State) (scope f n dflt : Nat) : Nat := ((savedOf s scope f).map (fun w => (w.getD n 0).toNat)).getD dflt

/-- ARBITRATION set from VALUE0 (Table 7-16). -/
def applyArb (x : PortSt) (v : Nat) : PortSt :=
  { x with arbHigh := bits v 7 0, arbMedium := bits v 15 8, arbLow := bits v 23 16, arbBurst := bits v 31 24 }

/-- VALUE0 of the default ARBITRATION: 8, 4, 1, 4. -/
def defaultArb : Nat := 0x04010408

/-- The port's region of the host tier withdrawn or replaced; a change of either port's region empties the whole tier (R204), and the
locator it needs is taken from the DRAM tier (R213). -/
def setHostMap (s : State) (p : Port) (addr : Nat) (chunks : List Nat) : State :=
  let t := if (portOf s p).hostMap == chunks then s else updEng s (fun e => { e with hostTier := [] })
  let t := updPort t p (fun x => { x with hostMap := chunks, hostMapAddr := addr })
  if (portOf s p).hostMap.length == chunks.length then t else sizeTier t

/-! ## Digest contexts that end (R413, R421) -/

/-- Ended contexts that no command in a context names are forgotten. -/
def dropEnded (s : State) : State :=
  updDig s (fun d => { d with ctxs := d.ctxs.filter (fun k =>
    !k.ended || s.ctxs.any (fun c => c.stage == .admitted && namesContext (eOpcode c.dw) && eCdw c.dw 0 == k.id)) })

/-- Contexts ended with cause 3: their slots and frames are free, and commands that still name them find them ended. -/
def endContexts (s : State) (f : DigCtx → Bool) : State :=
  dropEnded (updDig s (fun d => { d with ctxs := d.ctxs.map (fun k =>
    if f k then { k with ended := true, slot := none, frame := none, standing := none } else k) }))

/-- A shelf replaced or withdrawn: what was parked on the old one ends (R421). -/
def setShelf (s : State) (p : Port) (shelf : Option Shelf) : State :=
  updPort (endContexts s (fun k => k.port == p && k.frame.isSome)) p (fun x => { x with shelf := shelf })

/-- Per-port feature values at a disable: saved or default; region and shelf withdrawn (R175, R177). -/
def revertFeatures (s : State) (p : Port) : State :=
  let t := setShelf (setHostMap s p 0 []) p none
  let sc := portScope p
  updPort t p (fun x => { applyArb x (savedVal s sc 7 0 defaultArb) with eventMask := w32 (savedVal s sc 9 0 0) })

/-! ## The RESUMPTION log (R138 to R141) -/

/-- The queue record of a queue at an interruption (Table 5-9); RECORDS is counted when the log is completed. -/
def queueRec (s : State) (p : Port) (k : Queue) : QueueRec where
  queue := k.qid
  st := if k.restart.isSome || k.st == .restarting then 2 else if k.st == .frozen then 1 else 0
  resumeIndex := firstUnadmitted s p k
  sqTail := k.sqTail
  cqNext := k.cqTail
  cqPhase := k.phase
  records := 0

/-- Queue records with newer ones in place of those of the same queue, ascending (R141). -/
def putRec (r : QueueRec) : List QueueRec → List QueueRec
  | [] => [r]
  | h :: t => if r.queue < h.queue then r :: h :: t else if h.queue == r.queue then r :: t else h :: putRec r t

/-- An interruption of a kind that affects the port begins its log (R139, R140, R141). -/
def beginLog (s : State) (p : Port) (kind csnNext : Nat) (aetStop : Nat) (csnLast : Nat) (recs : List QueueRec) : State :=
  updPort s p (fun x =>
    { x with
      resumptionPending := true
      res := { x.res with
        generation := x.res.generation + 1, kind := kind, interruptions := satAdd 0xFFFF x.res.interruptions 1
        aetStop := aetStop, csnLast := csnLast, csnNext := csnNext, complete := false
        queues := recs.foldl (fun l r => putRec r l) x.res.queues } })

/-- The command record of a command: PERFORMED with its status, or NOT_PERFORMED (Table 5-10). -/
def cmdRec (c : Ctx) : CmdRec :=
  let done := c.status != 0x6002
  { csn := c.csn, result0 := if done then c.result0 else 0, result1 := if done then c.result1 else 0, queue := c.queue
    performed := done, status := c.status, sqIndex := c.sqIndex, tag := eTag c.dw, opcode := eOpcode c.dw }

/-- A command record in its place: by QUEUE_ID, then CSN (R140). -/
def putCmd (r : CmdRec) : List CmdRec → List CmdRec
  | [] => [r]
  | h :: t => if r.queue < h.queue || (r.queue == h.queue && r.csn < h.csn) then r :: h :: t else h :: putCmd r t

/-- RECORDS of each queue record (R141). -/
def countRecs (l : ResLog) : ResLog :=
  { l with queues := l.queues.map (fun q => { q with records := (l.cmds.filter (fun c => c.queue == q.queue)).length }) }

/-- The log of a port completed with records, and its RESUMPTION event raised (R139, Table 7-18). -/
def completeLog (s : State) (p : Port) (new : List CmdRec) (unclean : Bool) : State :=
  let t := updPort s p (fun x =>
    { x with res := countRecs { x.res with
        cmds := new.foldl (fun l r => putCmd r l) x.res.cmds
        aetResume := s.cad.aet, complete := true, unclean := x.res.unclean || unclean } })
  raiseEvent t 9 1 (portOf t p).res.generation (portOf t p).res.cmds.length (some p)

/-! ## Disable (R88) -/

/-- A command's fate decided NOT_PERFORMED: it ends with 0x6002, its read pins released (R138). -/
def notPerformed (s : State) (c : Ctx) : State :=
  let t := c.units.foldl (fun t u => match u.st with | .medium m => unpinBlock t m | _ => t) s
  updCtx t c.cid (fun c => { c with stage := .ended, status := 0x6002, units := [], promised := 0, staged := [], awaitAck := none })

/-- Commands that deliver data to host memory (R138). -/
def delivers (dw : List Word) : Bool :=
  match eOpcode dw with
  | 0x02 | 0x14 | 0x80 | 0x81 => true
  | 0x13 => bits (eCdw dw 1) 24 24 == 0
  | 0x82 => eExtLen dw == 32
  | _ => false

/-- How an admitted command of the port ends that could never be performed once its port is disabled: queue commands whose queues are gone
(performed, or where they still waited not performed), commands that wait for this port's own log, and deliveries over a link that is gone. -/
def settleDisabled (s : State) (p : Port) (linkGone : Bool) : State :=
  ((portCtxs s p).filter (fun c => c.stage == .admitted && c.status == 0)).foldl (fun t c =>
    let op := eOpcode c.dw
    if op == 0x85 || op == 0x86 then (if notReady s then notPerformed t c else perform t c.cid 0 0)
    else if op == 0x84 || op == 0x87 || (op == 0x81 && bits (eCdw c.dw 0) 7 0 == 2) then notPerformed t c
    else if linkGone && delivers c.dw then notPerformed t c
    else t) s

/-- The units of commands whose fates are recorded enter the retirement queue (R489). -/
def retireFates (s : State) (cs : List Ctx) : State := cs.foldl (fun t c => retire t c (unitsOf c.dw) (!nonSuccess c.status)) s

/-- DRAINING clears: the fates of the port's commands are recorded, their contexts released, its digest contexts end, per-port values set while it
drained end too, and the log is complete (R88, R139, R175, R177, R413). -/
def finishDrain (s : State) (p : Port) : State :=
  let cs := (portCtxs s p).filter (fun c => c.csn != 0)
  let t := retireFates { s with ctxs := s.ctxs.filter (fun c => c.port != p) } cs
  let t := revertFeatures (updPort t p (fun x => { x with draining := false })) p
  completeLog (endContexts t (fun k => k.port == p)) p (cs.map cmdRec) false

/-- A port disabled (R88) by an interruption kind 3, or 4. -/
def disablePort (s : State) (p : Port) (kind : Nat) (linkGone : Bool) : State :=
  if !(portOf s p).enable then updPort s p (fun x => { x with heldEnable := false })
  else
    let t := beginLog s p kind s.csnNext s.cad.aet (lastCsn s) ((portOf s p).queues.map (queueRec s p))
    let t := { t with ctxs := t.ctxs.filter (fun c => c.port != p || c.csn != 0) }
    let t := settleDisabled t p linkGone
    let t := updKf t (fun k => { k with sessions := k.sessions.filter (fun x => x.port != p) })
    let t := updPort t p (fun x =>
      { x with
        enable := false, heldEnable := false, ready := false, shutdownState := 0, shutdownCkpt := none, queues := []
        lastBells := keepLast x.lastBells x.queues, draining := true
        ev := { x.ev with enable := false } })
    let t := revertFeatures t p
    settleFull (if portDraining t p then t else finishDrain t p)

/-- Registers that PERST and a Function Level Reset also reset: port control, event and MSI-X registers, doorbells and BAR0; CSN_ISSUED is
not among them (R86, R97, R114, R119). -/
def resetPortRegs (s : State) (p : Port) : State :=
  updPort s p (fun x =>
    { x with
      heldEnable := false, configError := false, shutdownReq := 0, shutdownState := 0, shutdownCkpt := none
      asqEntries := 0, acqEntries := 0, asqBase := 0, acqBase := 0, unknownQueue := 0, malformed := 0, bar0 := 0, lastBells := []
      ev := EvRing.reset, msix := [], pba := [], msixEnable := false, funcMask := false })

/-! ## Enable (R87) -/

/-- The admin queue fields are valid. -/
def adminFieldsOk (s : State) (x : PortSt) : Bool :=
  let ring (n : Nat) : Bool := 2 ≤ n && n ≤ s.kf.img.maxRing
  ring x.asqEntries && ring x.acqEntries && x.asqBase % 4096 == 0 && x.acqBase % 4096 == 0

/-- A queue as it is created: ACTIVE, indices 0, phase 1 (R87, R92). -/
def newQueue (qid sq cq sqN cqN vector prio count time : Nat) : Queue where
  qid := qid
  st := .active
  sqBase := sq
  cqBase := cq
  sqEntries := sqN
  cqEntries := cqN
  vector := vector
  prio := prio
  coalCount := count
  coalTime := time
  timerTime := time
  createdCount := count
  createdTime := time
  sqTail := 0
  sqHead := 0
  cqTail := 0
  cqHead := 0
  phase := true
  unsignalled := 0
  coalFrom := none
  stopped := false
  resumeIndex := 0
  freezeCq := none
  restart := none
  deleting := none
  bells := []

/-- The enable carried out: queue 0 ACTIVE and READY, or CONFIG_ERROR. -/
def enablePort (s : State) (p : Port) : State :=
  let x := portOf s p
  if adminFieldsOk s x then
    updPort s p (fun x =>
      { x with
        enable := true, heldEnable := false, configError := false, ready := true
        queues := [newQueue 0 x.asqBase x.acqBase x.asqEntries x.acqEntries 0 0 0 0]
        wrrClass := 0, wrrTurns := x.arbHigh, wrrLast := [0, 0, 0] })
  else updPort s p (fun x => { x with enable := false, heldEnable := false, configError := true })

/-- A write of 1 to ENABLE: held while DRAINING or before the host cluster is released. -/
def askEnable (s : State) (p : Port) : State :=
  if (portOf s p).draining || !s.kf.released then updPort s p (fun x => { x with heldEnable := true }) else enablePort s p

/-- A held enable takes effect once nothing holds it (R87). -/
def settleEnable (s : State) (p : Port) : State :=
  if (portOf s p).heldEnable && !(portOf s p).draining && s.kf.released then enablePort s p else s

/-- A write of PORT_CONTROL (Table 4-3); SHUTDOWN 2 and 3 are reserved and leave the field as it is. -/
def writePortControl (s : State) (p : Port) (value : Word) : State :=
  let en := bits value.toNat 0 0 == 1
  let sd := bits value.toNat 2 1
  let x := portOf s p
  let t := if en && !x.enable then askEnable s p
    else if !en && x.enable then disablePort s p 3 false
    else if !en then updPort s p (fun x => { x with heldEnable := false })
    else s
  if 1 < sd then t
  else updPort t p (fun x =>
    if sd == 1 then { x with shutdownReq := 1, shutdownState := 1, shutdownCkpt := none } else { x with shutdownReq := sd })

/-! ## The commands -/

/-- CONFIG_REQUEST (R84): answered with retry status until the host cluster is released, and normally after (assumption 7). -/
def execConfigRequest (port : Port) (s : State) : Host.Outcome State Fault Refusal :=
  .next (updPort s port (fun x =>
    if s.kf.released then { x with cfgAnswers := x.cfgAnswers + 1 } else { x with cfgRetries := x.cfgRetries + 1 }))

/-- PORT_ENABLE (R87): a write of PORT_CONTROL that changes ENABLE from 0 to 1. -/
def execPortEnable (port : Port) (value : Word) (s : State) : Host.Outcome State Fault Refusal :=
  if value.getLsbD 0 && !(portOf s port).enable then settled (writePortControl s port value) else settled s

/-- PORT_DISABLE (R88): a write of PORT_CONTROL that changes ENABLE from 1 to 0. -/
def execPortDisable (port : Port) (value : Word) (s : State) : Host.Outcome State Fault Refusal :=
  if !value.getLsbD 0 && ((portOf s port).enable || (portOf s port).heldEnable) then settled (writePortControl s port value) else settled s

/-- PORT_SHUTDOWN (R89): a write of 1 to PORT_CONTROL.SHUTDOWN sets SHUTDOWN_STATE to 1 and stops the port's fetching. -/
def execPortShutdown (port : Port) (value : Word) (s : State) : Host.Outcome State Fault Refusal :=
  if bits value.toNat 2 1 == 1 then settled (writePortControl s port value) else settled s

/-- PORT_DRAIN_DONE (R88): every admitted command of the disabled port is performed. -/
def execPortDrainDone (port : Port) (s : State) : Host.Outcome State Fault Refusal :=
  if !(portOf s port).draining || portDraining s port then settled s
  else settled (settleEnable (finishDrain s port) port)

/-- FUNCTION_LEVEL_RESET (R88, R86): the port is disabled and its registers are reset. -/
def execFunctionLevelReset (port : Port) (s : State) : Host.Outcome State Fault Refusal :=
  settled (resetPortRegs (disablePort s port 3 false) port)

/-- The other port. -/
def otherPort : Port → Port
  | .a => .b
  | .b => .a

/-- The interruption kind of a loss of a port's link: 4 where the other port has lost its link too (Table 5-7). -/
def linkKind (s : State) (p : Port) : Nat := if (portOf s (otherPort p)).linkLost then 4 else 3

/-- The log of a port whose interruption was its own link's loss takes KIND 4 when the other link is lost as well: the interruption is then the
loss of both links (Table 5-7) (assumption 56). -/
def bothLost (s : State) (p : Port) : State :=
  let q := otherPort p
  if (portOf s q).linkLost && (portOf s q).resumptionPending && (portOf s q).res.kind == 3 then updPort s q (fun x => { x with res := { x.res with kind := 4 } })
  else s

/-- A port's link lost: the port is disabled. -/
def loseLink (s : State) (p : Port) : State :=
  let was := (portOf s p).enable
  updPort (disablePort (if was then bothLost s p else s) p (linkKind s p) true) p (fun x => { x with linkUp := false, linkLost := x.linkLost || was })

/-- PERST_ASSERT (R508): the port is disabled, its registers are reset and its PHY is held in reset. -/
def execPerstAssert (port : Port) (s : State) : Host.Outcome State Fault Refusal :=
  settled (updPort (resetPortRegs (loseLink s port) port) port (fun x => { x with perst := true, l12 := false }))

/-- SURPRISE_DOWN (R508): the link is lost, and its receivers look for training again. -/
def execSurpriseDown (port : Port) (s : State) : Host.Outcome State Fault Refusal :=
  if (portOf s port).linkUp then settled (loseLink s port) else settled s

end Sys2Proof.Machine
end

