-- ==== Sys2Proof/Machine/Queues.lean ====
section
/-! DEFINITION. The Jisel queues of chapter 04 and the freezing and restart of chapter 05: doorbells, fetch, admission, completion posting,
interrupts, the event ring, and the queue admin commands. -/
namespace Sys2Proof.Machine
open Sys2Proof

/-! ## Doorbells (R97, R98, R128) -/

/-- A doorbell write that is a host mistake: the ERROR log entry and the event (R128). -/
def doorbellError (s : State) (p : Port) (q origin written before : Nat) : State :=
  let t := logError s
    { seq := 0, csn := 0, aet := 0, queue := q, port := p, sqIndex := 0, opcode := 0, tag := 0, status := 0x1002, origin := origin
      fieldOffset := 0xFF, resumeIndex := 0, froze := false, retained := 0, lba := 0, byteOffset := 0
      detail0 := written, detail1 := before }
  raiseEvent t 1 origin q s.errSeq (some p)

/-- What a doorbell write is. -/
inductive Bell where
  | same
  | wrong
  | new (v : Nat)
  deriving DecidableEq, Repr

/-- An SQ_TAIL judged: reserved bits, the ring size, and the entries submitted so far (R98, R128). -/
def judgeTail (k : Queue) (value : Word) : Bell :=
  let v := value.toNat
  if v == k.sqTail then .same
  else if k.sqEntries ≤ v then .wrong
  else if (v + k.sqEntries - k.sqHead) % k.sqEntries < sqWaiting k then .wrong
  else .new v

/-- A CQ_HEAD judged: it lies in the span up to the index one past the last posted entry (R98). -/
def judgeHead (k : Queue) (value : Word) : Bell :=
  let v := value.toNat
  if v == k.cqHead then .same
  else if inSpan k.cqEntries k.cqHead k.cqTail v then .new v
  else .wrong

/-- With no I/O queue that can be fetched from, the round of the port ends and the next one is due (R100). -/
def settleRound (s : State) (p : Port) : State :=
  let x := portOf s p
  if x.queues.any (fun k => k.qid != 0 && canFetch s p k) then s
  else setPort s p { x with wrrClass := 0, wrrTurns := x.arbHigh }

/-- The queue that a doorbell names: the port's own, or, on a chip without ownership, the partner's I/O queue as mirrored (R390). -/
def bellQueue (s : State) (p : Port) (q : Nat) : Option (Queue × Bool) :=
  match queueOf s p q with
  | some k => some (k, false)
  | none =>
    if isOwner s || q == 0 then none
    else (s.twin.queues.find? (fun x => x.1 == p && x.2.qid == q && x.2.st != .disabled)).map (fun x => (x.2, true))

/-- A queue that a doorbell changed put back. -/
def putBellQueue (s : State) (p : Port) (k : Queue) (mirrored : Bool) : State :=
  if mirrored then updTwin s (fun t => { t with queues := t.queues.map (fun x => if x.1 == p && x.2.qid == k.qid then (p, k) else x) })
  else updQueue s p k.qid (fun _ => k)

/-- A doorbell value accepted: counted, and told to the partner (Table 16-5). -/
def bellAccepted (s : State) (p : Port) (q v : Nat) (isHead : Bool) : State :=
  mirrorFrame (countEvent (settleRound s p) 0x01 (portNum p) 1) (.doorbell [{ port := p, queue := q, isCqHead := isHead, value := v }])

/-- A doorbell access that Table 4-1 does not allow, or a queue that is DISABLED or does not exist: counted and ignored (R85, R98). -/
def bellIgnored (s : State) (p : Port) (wellSized : Bool) : State :=
  updPort s p (fun x =>
    if wellSized then { x with unknownQueue := satAdd 0xFFFF x.unknownQueue 1 } else { x with malformed := satAdd 0xFFFF x.malformed 1 })

/-- A write of a queue's SQ_TAIL: the value is recorded, or refused as a host mistake (R98). -/
def writeTail (t : State) (port : Port) (queue : Nat) (value : Word) (wellSized : Bool) : State :=
  match (if wellSized then bellQueue t port queue else none) with
  | none => bellIgnored t port wellSized
  | some (k, mirrored) =>
    match judgeTail k value with
    | .same => t
    | .wrong => doorbellError t port queue 7 value.toNat k.sqTail
    | .new v => putBellQueue (bellAccepted t port queue v false) port { k with sqTail := v, bells := (v, t.now) :: k.bells } mirrored

/-- SQ_TAIL_DOORBELL (R98). -/
def execSqTailDoorbell (port : Port) (queue : Nat) (value : Word) (wellSized : Bool) (cyc : Nat) (s : State) :
    Host.Outcome State Fault Refusal :=
  settled (writeTail (advanceTo s cyc) port queue value wellSized)

/-! ## DELETE_QUEUE performed (R93) -/

/-- A RESTART_QUEUE of the queue whose completion is not yet posted. -/
def restartUnposted (s : State) (p : Port) (q : Nat) : Bool :=
  (queueCtxs s p 0).any (fun c => inFlight c && eOpcode c.dw == 0x86 && bits (eCdw c.dw 0) 13 0 == q)

/-- The queue's pending DELETE_QUEUE is performed once every completion of it has been consumed: the queue becomes DISABLED (R93). -/
def settleDelete (s : State) (p : Port) (q : Nat) : State :=
  match queueOf s p q with
  | none => s
  | some k =>
    match k.deleting with
    | none => s
    | some cid =>
      if !(queueCtxs s p q).isEmpty || unconsumed k != 0 || k.restart.isSome || restartUnposted s p q || notReady s then s
      else performState (dropQueue s p q) cid 1 0 0 none (some (queueImage s p { k with st := .disabled }))

/-! ## CQ head (R112, R117, R137) -/

/-- The completion that froze the queue lies among those a CQ_HEAD write consumes. -/
def consumes (k : Queue) (v : Nat) : Bool :=
  match k.freezeCq with
  | none => false
  | some i => decide ((i + k.cqEntries - k.cqHead) % k.cqEntries < (v + k.cqEntries - k.cqHead) % k.cqEntries)

/-- The restart of queue 0 that consuming its freezing completion stands for (R137). -/
def implicitRestart (k : Queue) (v : Nat) : Queue :=
  if k.qid == 0 && k.st == .frozen && k.restart.isNone && consumes k v then
    { k with st := .restarting, freezeCq := none
             restart := some { option := 0, index := 0, tail := k.sqTail, cid := none, refrozen := false, deleted := none } }
  else k

/-- A CQ_HEAD accepted: credits released; entries left over are unsignalled again and the timer runs for them (R112, R117). Where none is left,
count and timer are cleared, and no message follows for what the host has consumed: the rule speaks only of a write that leaves entries
(assumption 54). -/
def acceptHead (k : Queue) (v now : Nat) : Queue :=
  let k := implicitRestart k v
  let left := (k.cqTail + k.cqEntries - v) % k.cqEntries
  { k with cqHead := v, unsignalled := left, coalFrom := if left == 0 then none else some now }

/-- A write of a queue's CQ_HEAD: CQ slots and credits are freed, or the value is refused as a host mistake (R98, R112). -/
def writeHead (t : State) (port : Port) (queue : Nat) (value : Word) (wellSized : Bool) : State :=
  match (if wellSized then bellQueue t port queue else none) with
  | none => bellIgnored t port wellSized
  | some (k, mirrored) =>
    match judgeHead k value with
    | .same => t
    | .wrong => doorbellError t port queue 8 value.toNat k.cqHead
    | .new v =>
      let b := bellAccepted t port queue v true
      if mirrored then putBellQueue b port { k with cqHead := v } true
      else settleDelete (putBellQueue b port (acceptHead k v t.now) false) port queue

/-- CQ_HEAD_DOORBELL (R112). -/
def execCqHeadDoorbell (port : Port) (queue : Nat) (value : Word) (wellSized : Bool) (cyc : Nat) (s : State) :
    Host.Outcome State Fault Refusal :=
  settled (writeHead (advanceTo s cyc) port queue value wellSized)

/-! ## Fetch (R99, R100) -/

/-- Weight of a class: HIGH, MEDIUM, LOW. -/
def classWeight (x : PortSt) (c : Nat) : Nat := if c == 0 then x.arbHigh else if c == 1 then x.arbMedium else x.arbLow

/-- The queue of a class that takes the next turn: the next number after the last one served, among those that can be fetched from. -/
def classQueue (s : State) (p : Port) (c : Nat) : Option Queue :=
  let ks := (portOf s p).queues.filter (fun k => k.qid != 0 && k.prio == c && canFetch s p k)
  let last := (portOf s p).wrrLast.getD c 0
  (ks.find? (fun k => decide (last < k.qid))).or ks.head?

/-- The turn that falls due: class, turns left in it after this one, queue; at most one full round is searched. -/
def nextTurn (s : State) (p : Port) (c turns : Nat) : Nat → Option (Nat × Nat × Queue)
  | 0 => none
  | n + 1 =>
    let c' := (c + 1) % 3
    if turns == 0 then nextTurn s p c' (classWeight (portOf s p) c') n
    else
      match classQueue s p c with
      | some k => some (c, turns - 1, k)
      | none => nextTurn s p c' (classWeight (portOf s p) c') n

/-- The queue to fetch from: queue 0 whenever it can be, else weighted round robin; with the port's new turn state. None where one more
admission slot would exceed the hold-up reserve (R251). -/
def selectQueue (s : State) (p : Port) : Option (Queue × PortSt) :=
  let x := portOf s p
  if !holdupFits s 1 0 then none else
  match x.queues.find? (fun k => k.qid == 0 && canFetch s p k) with
  | some k => some (k, x)
  | none =>
    (nextTurn s p x.wrrClass x.wrrTurns 5).map (fun r =>
      (r.2.2, { x with wrrClass := r.1, wrrTurns := r.2.1, wrrLast := x.wrrLast.set r.1 r.2.2.qid }))

/-- Doorbell records that still cover entries from a new fetch index on. -/
def keepBells (k : Queue) (newHead : Nat) : List (Nat × Nat) :=
  let n := k.sqEntries
  k.bells.filter (fun b => decide ((newHead + n - k.sqHead) % n < (b.1 + n - k.sqHead) % n))

/-- A fetched entry as a context (R99). -/
def fetchedCtx (cid : Nat) (p : Port) (q idx : Nat) (dw : List Word) (bell now : Nat) : Ctx where
  cid := cid
  port := p
  queue := q
  sqIndex := idx
  dw := dw
  stage := .fetched
  csn := 0
  status := 0
  result0 := 0
  result1 := 0
  logged := false
  replayed := false
  blockStart := false
  staged := []
  held := false
  fetchFail := none
  units := []
  stream := []
  promised := 0
  admitAck := none
  awaitAck := none
  mapAsked := false
  waitSlot := false
  waitFor := []
  gotSlot := none
  chunkAt := 0
  sampled := false
  tBell := bell
  tFetch := now
  tAdmit := 0
  tTranslate := 0
  tMedium := 0
  tPerform := 0
  pSource := 0
  pRung := 15
  pMadr := none

/-- One entry of a queue fetched: a credit and a context taken (R99). -/
def fetchOne (s : State) (p : Port) (q : Nat) (dw : List Word) : State :=
  match queueOf s p q with
  | none => s
  | some k =>
    let c := fetchedCtx (freeCid s) p q k.sqHead (dw.take 16) ((k.bells.getLast?.map (·.2)).getD s.now) s.now
    let h := ringNext k.sqEntries k.sqHead
    let t := { s with
      ctxs := s.ctxs ++ [c]
      ctr := { s.ctr with logWaiters := s.ctr.logWaiters.filter (fun w => w.1 != c.cid), logReady := s.ctr.logReady.filter (fun w => w != c.cid) } }
    countEvent (updQueue t p q (fun k => { k with sqHead := h, bells := keepBells k h })) 0x02 (portNum p) 1

/-- Entries that one service of a queue fetches at most: BURST, within credits and contexts (R99, R100). -/
def burstOf (s : State) (p : Port) (k : Queue) : Nat :=
  Nat.min (Nat.min (portOf s p).arbBurst (sqWaiting k)) (Nat.min (creditsLeft s p k) (contextsLeft s p))

/-- SUBMISSION_FETCH (R100): arbitration selects a queue and up to BURST entries, as read from its ring, are fetched. -/
def execSubmissionFetch (port : Port) (entries : List (List Word)) (cyc : Nat) (s : State) : Host.Outcome State Fault Refusal :=
  let t := advanceTo s cyc
  match selectQueue t port with
  | none => .next t
  | some (k, x) =>
    if entries.isEmpty then .next t
    else .next (settleRound ((entries.take (burstOf t port k)).foldl (fun t dw => fetchOne t port k.qid dw) (setPort t port x)) port)

/-! ## Refusals (R124, R125, R130) -/

/-- A fetched entry refused: its status decided, its queue stopped, and one failed unit retired (R489). -/
def refuseEntry (s : State) (cid : Nat) (v : Verdict) : State :=
  match ctxOf s cid with
  | none => s
  | some c => retire (decide_ s cid v) c 1 false

/-- ENTRY_FETCH_FAULT (R125): the read of the next entry ended with a fault of Table 5-5; the entry is refused and its queue freezes. -/
def execEntryFetchFault (port : Port) (kind : Nat) (cyc : Nat) (s : State) : Host.Outcome State Fault Refusal :=
  let t := advanceTo s cyc
  match selectQueue t port with
  | none => .next t
  | some (k, x) =>
    let cid := freeCid t
    let t := fetchOne (setPort t port x) port k.qid (List.replicate 16 0)
    .next (refuseEntry t cid { status := 0x1005, origin := 0, detail1 := kind })

/-! ## Admission (R101 to R104) -/

/-- The next CSN opens a block that no reservation record covers (R104). -/
def opensBlock (s : State) : Bool := s.csnBlock == 0 || s.csnNext / 2 ^ 20 != s.csnBlock / 2 ^ 20

/-- A new block may be reserved: every earlier CSN_RESERVE record is on the medium (R242). -/
def mayReserve (s : State) : Bool :=
  s.jrnl.recs.all (fun r => match r.body with | .csnReserve _ => r.onMedium | _ => true)

/-- The block of the next CSN reserved where it is not yet (R104). -/
def reserveBlock (s : State) : State :=
  if !opensBlock s then s
  else
    let first := Nat.max s.csnNext 1
    journal { s with csnBlock := first } (.csnReserve first)

/-- Units that a reading command resolves. -/
def readUnits (dw : List Word) : List UnitRead :=
  match readRange dw with
  | some (ns, lba, n) => (List.range n).map (fun i => { ns := ns, lba := lba + i, st := .waiting })
  | none => []

/-- The data block of a FILL: CDW1:CDW0 repeated 512 times (R159). -/
def fillData (dw : List Word) : List Byte := (List.replicate 512 (leBytes 4 (eCdw dw 0) ++ leBytes 4 (eCdw dw 1))).flatten

/-- What a FILL stages: its data needs no fetch (R159). -/
def fillUnits (s : State) (dw : List Word) : List StagedUnit :=
  let f := nsFormat s (eNs dw)
  let data := fillData dw
  (List.range (eCount dw)).map (fun i =>
    { ns := eNs dw, lba := eLba dw + i, slot := none
      block := some (mkBlock f data (List.replicate 48 0) (eAppTag dw) (eLba dw + i)) })

/-- Data slots that an admission promises (R270). -/
def promiseOf (dw : List Word) : Nat := if [0x01, 0x0A, 0x0C].contains (eOpcode dw) then eCount dw else 0

/-- The admission slot of a command (Table 10-1). -/
def admSlotOf (c : Ctx) : AdmSlot :=
  let r := writtenRange c.dw
  { csn := c.csn, firstLba := ((r.map (·.2.1)).getD 0), blockCount := eCount c.dw, port := c.port, queue := c.queue, tag := eTag c.dw
    sqIndex := c.sqIndex, opcode := eOpcode c.dw, ns := ((r.map (·.1)).getD 0), performed := c.stage == .ended, blockStart := c.blockStart
    result0 := c.result0, result1 := c.result1, status := c.status }

/-- A command matches PSC_FILTER (Table 21-7). -/
def filterMatches (f : Word) (c : Ctx) : Bool :=
  let v := f.toNat
  let port := bits v 16 15
  (bits v 14 14 == 0 || c.queue == bits v 13 0) && (port == 0 || port == 3 || port == portNum c.port + 1)
    && (bits v 25 25 == 0 || eOpcode c.dw == bits v 24 17)

/-- The next sampling interval: PSC_PERIOD, or with JITTER a value drawn between half and one and a half of it (R492) (assumption 21). -/
def drawInterval (s : State) : State :=
  let p := s.ctr.pscPeriod
  if !s.ctr.jitter then updCtr s (fun c => { c with interval := p })
  else
    let lo := ceilDiv p 2
    let hi := 3 * p / 2
    updCtr (drawFree s) (fun c => { c with interval := lo + (freeNow s).toNat % (hi - lo + 1) })

/-- PERISCOPE_SELECT (R492): an admitted I/O command that matches is counted, and sampled when the count reaches the interval. -/
def selectSample (s : State) (c : Ctx) : State :=
  if !s.ctr.arm || c.queue == 0 || !filterMatches s.ctr.filter c then s
  else if s.ctr.matched + 1 < s.ctr.interval then updCtr s (fun x => { x with matched := x.matched + 1 })
  else drawInterval (updCtr (updCtx s c.cid (fun c => { c with sampled := true })) (fun x => { x with matched := 0 }))

/-- Fetched entries of a queue discarded without completion (R132). -/
def discardFetched (s : State) (p : Port) (q : Nat) : State :=
  { s with ctxs := s.ctxs.filter (fun c => !(c.port == p && c.queue == q && c.stage == .fetched)) }

/-- What an admission alone changes, for the commands whose admission R93, R134, R180, R181 and R410 give an effect. A DELETE_QUEUE discards
every entry of its queue that is fetched and not admitted, those of an ACTIVE queue too, on which the rule is silent (assumption 55). -/
def admissionEffect (s : State) (c : Ctx) : State :=
  let q := bits (eCdw c.dw 0) 13 0
  match eOpcode c.dw with
  | 0x85 =>
    let n := (fetchedCtxs s c.port q).length
    updQueue (discardFetched s c.port q) c.port q (fun k =>
      { k with deleting := some c.cid, restart := k.restart.map (fun r => { r with deleted := some n }) })
  | 0x86 =>
    updQueue s c.port q (fun k =>
      let r : Restart :=
        { option := bits (eCdw c.dw 0) 17 16, index := bits (eCdw c.dw 1) 11 0, tail := k.sqTail, cid := some c.cid
          refrozen := false, deleted := none }
      { k with restart := some r })
  | 0x8C =>
    updMap s (fun i => { i with nss := i.nss ++
      [{ nsid := bits (eCdw c.dw 0) 7 0, st := .creating, format := bits (eCdw c.dw 0) 9 8, fine := bits (eCdw c.dw 0) 12 12 == 1
         segments := eCdw c.dw 1, createdAet := 0 }] })
  | 0x8D => updMap s (fun i => { i with nss := i.nss.map (fun x => if x.nsid == bits (eCdw c.dw 0) 7 0 then { x with st := .deleting } else x) })
  | 0x13 | 0x16 =>
    updDig s (fun d => { d with ctxs := d.ctxs.map (fun k => if k.id == eCdw c.dw 0 && !k.ended then { k with standing := some c.cid } else k) })
  | _ => s

/-- ACT_N goes low for at least 20 ms when the first command comes between admission and completion (R507). -/
def startAct (s : State) : State :=
  if actLow s then s else updSide s (fun x => { x with actUntil := some (s.now + 20000000) })

/-- A command admitted: CSN, admission slot, mirrored, with what it stages or promises (R101, R104, R159, R160, R270). -/
def admitCmd (s : State) (c : Ctx) : State :=
  let opens := opensBlock s
  let t := startAct (reserveBlock s)
  let op := eOpcode c.dw
  let csn := t.csnNext
  let fseq := t.twin.txSeq
  let wait := mirroring t
  let c' : Ctx :=
    { c with
      stage := .admitted, csn := csn, blockStart := opens, tAdmit := t.now, units := readUnits c.dw
      staged := if op == 0x0A then fillUnits t c.dw else [], held := op == 0x08 || op == 0x0A, promised := promiseOf c.dw
      admitAck := if wait then some fseq else none }
  let t := { t with csnNext := csn + 1, csnIssued := csn, ctxs := t.ctxs.map (fun x => if x.cid == c.cid then c' else x) }
  let t := updJrnl t (fun j => { j with cleanStands := false })
  let t := mirrorFrame t (.admitted [admSlotOf c'])
  let t := countEvent t 0x03 (portNum c.port) 1
  settleFull (selectSample (admissionEffect t c') c')

/-- Commands served without admission: IDENTIFY and GET_LOG while FAILED is set (R27), and everything on a chip without ownership (R390). -/
def servedNow (s : State) (queue : Nat) : Bool := queue == 0 && (failedSet s || !isOwner s)

/-- ADMISSION (R101): the first fetched entry of a queue passes the stages: it is refused, served, or takes the next CSN. -/
def execAdmission (port : Port) (queue : Nat) (list : ListRead) (late : Bool) (cyc : Nat) (s : State) : Host.Outcome State Fault Refusal :=
  let t := advanceTo s cyc
  match queueOf t port queue, (fetchedCtxs t port queue).head? with
  | some k, some c =>
    if k.st != .active || k.stopped || k.deleting.isSome || hostStopped t then .next t
    else
      match judgeEntry t port queue c.dw list late with
      | some v => .next (refuseEntry t c.cid v)
      | none =>
        if servedNow t queue then .next (updCtx t c.cid (fun c => { c with stage := .served, tAdmit := t.now }))
        else if opensBlock t && !mayReserve t then .next t
        else .next (admitCmd t c)
  | _, _ => .next t

/-! ## Completion posting (R96, R109 to R116) -/

/-- The words of a completion entry (Table 4-10). -/
def completionWords (c : Ctx) (k : Queue) : List Word :=
  [c.result0, c.result1, lo32 c.csn, hi32 c.csn, pack [(k.sqHead, 0), (k.qid, 16)], w32 c.sqIndex, 0,
    pack [(b2n k.phase, 0), (eTag c.dw, 1), (b2n c.replayed, 8), (b2n c.logged, 9), (c.status.toNat, 16)]]

/-- A completion may be posted: decided, acknowledged by the partner where that is owed (R388), after the writes before it on its queue
(R106), its reservation record durable (R242), and not held back by FAILED (R27) or a stop (R252). -/
def mayPost (s : State) (c : Ctx) : Bool :=
  let done := c.stage == .ended || c.stage == .refused
  let order := (writtenRange c.dw).isNone || c.csn == 0 ||
    (queueCtxs s c.port c.queue).all (fun x => x.csn == 0 || (writtenRange x.dw).isNone || c.csn ≤ x.csn)
  let reserved := !c.blockStart || s.jrnl.recs.all (fun r => match r.body with | .csnReserve _ => r.durable | _ => true)
  let failedOk := !failedSet s || c.csn == 0 || c.status == 0x7001
  done && order && reserved && failedOk && admissionStands s c && c.awaitAck.all (acked s) && !hostStopped s && (c.csn == 0 || isOwner s)

/-- The dwords of a Periscope sample (Table 21-8); a phase not passed reads 0 and its time goes to the next one reached (R493). -/
def phaseWords (now : Nat) (c : Ctx) : List Word :=
  let step (acc : List Word × Nat) (t : Nat) : List Word × Nat :=
    if t == 0 then (acc.1 ++ [0], acc.2) else (acc.1 ++ [w32 (Nat.min (t - acc.2) 0xFFFFFFFF)], Nat.max acc.2 t)
  ([c.tFetch, c.tAdmit, c.tTranslate, c.tMedium, c.tPerform, now].foldl step ([], c.tBell)).1

/-- A Periscope sample (R493). -/
def sampleWords (now : Nat) (c : Ctx) : Sample :=
  let madr := (c.pMadr.map madrCode).getD 0
  [lo32 c.csn, hi32 c.csn, pack [(eOpcode c.dw, 0), (eNs c.dw, 8), (eTag c.dw, 16), (c.sqIndex % 2048, 21)],
    pack [(c.status.toNat, 0), (c.queue, 16), (portNum c.port, 30), (b2n c.replayed, 31)], lo32 (eLba c.dw), hi32 (eLba c.dw), w32 (eCount c.dw),
    pack [(c.pSource, 0), (c.pRung, 3), (c.sqIndex / 2048, 7)], lo32 madr, hi32 madr] ++ phaseWords now c

/-- Samples held in the Periscope ring. -/
def pscHeld (c : Ctr) : Nat := (c.tail + 4096 - c.head) % 4096

/-- PERISCOPE_RECORD (R493, R494): the record of a sampled command is written, dropped, or overwrites the oldest. -/
def recordSample (s : State) (c : Ctx) : State :=
  if !c.sampled then s
  else
    if pscHeld s.ctr == 4095 && !s.ctr.wrap then updCtr s (fun x => { x with dropped := satAdd 0xFFFFFFFF x.dropped 1 })
    else
      countFixed (updCtr s (fun x =>
        { x with
          ring := x.ring.filter (fun r => r.1 != x.tail) ++ [(x.tail, sampleWords s.now c)]
          tail := (x.tail + 1) % 4096
          head := if pscHeld x == 4095 then (x.head + 1) % 4096 else x.head })) 7 1

/-- A posting signals at once (R116), or its queue is never coalesced (R115). -/
def signalsNow (s : State) (c : Ctx) (k : Queue) : Bool :=
  nonSuccess c.status || eIntNow c.dw || c.replayed || k.qid == 0 || k.timerTime == 0 || decide (Nat.max k.coalCount 1 ≤ k.unsignalled)
    || !((queueCtxs s c.port c.queue).any (fun x => x.stage == .admitted || (x.stage == .ended && x.csn != 0)))

/-- The message of a CQ's unsignalled entries (R115). -/
def sendCqMessage (s : State) (p : Port) (k : Queue) : State :=
  updQueue (signal s p k.vector) p k.qid (fun k => { k with unsignalled := 0, coalFrom := none })

/-- A queue after a posting: the next index, the phase of the next pass, FROZEN after a non-success completion, REFROZEN while restarting
(R109, R111, R131, R136). The completion that freezes it, or will return it to FROZEN, is the one that a CQ_HEAD of queue 0 has to consume
(R137). COALESCE_TIME in force is the one that this posting finds (R115). -/
def afterPost (k : Queue) (bad : Bool) (now : Nat) : Queue :=
  let nxt := ringNext k.cqEntries k.cqTail
  { k with
    cqTail := nxt, phase := if nxt == 0 then !k.phase else k.phase
    unsignalled := k.unsignalled + 1, timerTime := k.coalTime, coalFrom := if k.coalFrom.isSome then k.coalFrom else some now
    st := if bad && k.st == .active then .frozen else k.st
    freezeCq := if bad && (k.st == .active || k.st == .restarting) then some k.cqTail else k.freezeCq
    restart := if bad then k.restart.map (fun r => { r with refrozen := true }) else k.restart }

/-- A FINAL that did not succeed stops standing when its completion is posted (R410). -/
def dropStanding (s : State) (c : Ctx) : State :=
  updDig s (fun d => { d with ctxs := d.ctxs.map (fun k => if k.standing == some c.cid then { k with standing := none } else k) })

/-- A completion written to its CQ, with what follows from it. -/
def post (s : State) (c : Ctx) (k : Queue) : State :=
  let bad := nonSuccess c.status
  let t := emit s (.words c.port (k.cqBase + 32 * k.cqTail) (completionWords c k))
  let t := if sending s then sendFrame t
      (.complete [{ csn := c.csn, port := c.port, queue := c.queue, cqIndex := k.cqTail, phase := k.phase, status := c.status }]) else t
  let t := countEvent t 0x04 (portNum c.port) 1
  let t := recordSample t c
  let t := if c.stage == .refused then t else retire t c (unitsOf c.dw) (!bad)
  let t := dropCtx (dropStanding t c) c.cid
  let k' := afterPost k bad s.now
  let t := updQueue t c.port c.queue (fun _ => k')
  dropEnded (if signalsNow t c k' then sendCqMessage t c.port k' else t)

/-- COMPLETION_POST (R109): the completion of a decided command is posted; a queue whose DELETE_QUEUE waits for it is deleted. -/
def execCompletionPost (cid : Nat) (cyc : Nat) (s : State) : Host.Outcome State Fault Refusal :=
  let t := advanceTo s cyc
  match ctxOf t cid with
  | none => .next t
  | some c =>
    match queueOf t c.port c.queue with
    | none => .next t
    | some k =>
      if !mayPost t c then .next t
      else .next (settleDelete (post t c k) c.port (if eOpcode c.dw == 0x86 then bits (eCdw c.dw 0) 13 0 else c.queue))

/-! ## Restart of a queue (R134 to R136) -/

/-- The option applied: entries discarded, the index at which fetching resumes, and the queue ACTIVE again (R135). -/
def applyRestart (s : State) (p : Port) (k : Queue) (r : Restart) : State × Nat × Nat :=
  let n := k.sqEntries
  let kept := fetchedCtxs s p k.qid
  let go (resumeAt : Nat) (bells : List (Nat × Nat)) (t : State) : State :=
    updQueue t p k.qid (fun k =>
      { k with st := .active, stopped := false, resumeIndex := 0, freezeCq := none, restart := none, sqHead := resumeAt, bells := bells })
  if r.option == 1 then
    (go r.tail (keepBells k r.tail) (discardFetched s p k.qid), kept.length + (r.tail + n - k.sqHead) % n, r.tail)
  else if r.option == 2 then
    let again := kept.filter (fun c => inSpan n r.index ((k.sqHead + n - 1) % n) c.sqIndex && inSpan n k.resumeIndex c.sqIndex r.index)
    let back := again.reverse.map (fun c => (ringNext n c.sqIndex, c.tBell))
    (go r.index (if again.isEmpty then keepBells k r.index else k.bells ++ back) (discardFetched s p k.qid),
      (r.index + n - k.resumeIndex) % n, r.index)
  else (go k.sqHead k.bells s, 0, k.sqHead)

/-- The RESTART_QUEUE command completes with its results; the implicit restart of queue 0 has no command (R137). -/
def restartResult (s : State) (p : Port) (q : Nat) (cid : Option Nat) (r0 r1 : Nat) : State :=
  match cid with
  | none => s
  | some i => performState s i 1 (w32 r0) (w32 r1) none ((queueOf s p q).map (queueImage s p))

/-- QUEUE_RESTART_DONE (R135, R136, R93): every command admitted before the freeze has its completion posted. -/
def execQueueRestartDone (port : Port) (queue : Nat) (s : State) : Host.Outcome State Fault Refusal :=
  match queueOf s port queue with
  | none => .next s
  | some k =>
    match k.restart with
    | none => .next s
    | some r =>
      if k.st != .restarting || (queueCtxs s port queue).any (fun c => c.stage != .fetched) then .next s
      else
        match r.deleted with
        | some n =>
          let t := updQueue s port queue (fun k => { k with st := .frozen, restart := none })
          .next (restartResult t port queue r.cid n (2 ^ 17))
        | none =>
          if r.refrozen then
            let t := updQueue s port queue (fun k => { k with st := .frozen, restart := none })
            .next (restartResult t port queue r.cid 0 (2 ^ 16 + k.resumeIndex))
          else
            let a := applyRestart s port k r
            .next (restartResult a.1 port queue r.cid a.2.1 a.2.2)

/-! ## Interrupts (R114, R115) and the event ring (R119) -/

/-- COALESCE_TIMER_EXPIRY (R115): COALESCE_TIME after the first unsignalled entry. -/
def execCoalesceTimerExpiry (port : Port) (queue : Nat) (cyc : Nat) (s : State) : Host.Outcome State Fault Refusal :=
  let t := advanceTo s cyc
  match queueOf t port queue with
  | none => .next t
  | some k =>
    match k.coalFrom with
    | none => .next t
    | some from_ => if k.unsignalled == 0 || t.now < from_ + 100 * k.timerTime then .next t else .next (sendCqMessage t port k)

/-- The pending vectors of a port that may send now are sent, and their pending bits clear (R114). -/
def sendPending (s : State) (p : Port) : State :=
  let x := portOf s p
  let go := x.pba.filter (fun v => x.msixEnable && !vectorHeld x v)
  go.foldl (fun t v => emit t (.msi p v)) (updPort s p (fun x => { x with pba := x.pba.filter (fun v => !go.contains v) }))

/-- MSIX_UNMASK (R114): a vector unmasked, or the function mask cleared; a pending message is sent. -/
def execMsixUnmask (port : Port) (vector : Option Nat) (s : State) : Host.Outcome State Fault Refusal :=
  .next (sendPending (updPort s port (fun x =>
    match vector with
    | none => { x with funcMask := false }
    | some v => { x with msix := x.msix.map (fun e => if e.vector == v then { e with masked := false } else e) })) port)

/-- A write of EVENT_CTRL (Table 4-6): ENTRIES and VECTOR are locked while ENABLE is 1; an enable with bad fields, or while the port is
disabled, is ignored; an enable starts at index 0 with phase 1. -/
def writeEventCtrl (s : State) (p : Port) (value : Word) : State :=
  let v := value.toNat
  let x := portOf s p
  let n := bits v 12 0
  let ok := 2 ≤ n && n ≤ s.kf.img.maxRing && x.ev.base % 4096 == 0 && x.enable
  if bits v 31 31 == 1 then
    if x.ev.enable || !ok then s
    else updPort s p (fun x => { x with ev := { x.ev with entries := n, vector := bits v 26 16, enable := true, head := 0, tail := 0, phase := true } })
  else
    updPort s p (fun x =>
      { x with ev := if x.ev.enable then { x.ev with enable := false } else { x.ev with entries := n, vector := bits v 26 16 } })

/-- EVENT_CTRL_WRITE (R119). -/
def execEventCtrlWrite (port : Port) (value : Word) (s : State) : Host.Outcome State Fault Refusal := .next (writeEventCtrl s port value)

/-- CSN_ISSUED_LO read: the low half is answered, and the high half of the same value latched (R86). -/
def readCsnLo (s : State) (port : Port) : State :=
  updPort { s with readData := lo32 s.csnIssued } port (fun x => { x with csnHi := hi32 s.csnIssued })

/-- CSN_ISSUED_LO_READ (R86). -/
def execCsnIssuedLoRead (port : Port) (s : State) : Host.Outcome State Fault Refusal := .next (readCsnLo s port)

/-! ## Queue admin commands -/

/-- CREATE_QUEUE (R92, R120): performed once NOT_READY and RESUMPTION_PENDING are clear and a DELETE_QUEUE of the number is done. The
queue's ERROR log entries are cleared (R133); a DELETE_QUEUE admitted after it stands on the new queue. -/
def execCreateQueue (cid : Nat) (s : State) : Host.Outcome State Fault Refusal :=
  match ctxIn s cid 0x84 with
  | none => .next s
  | some c =>
    if !readyFor s c || (portOf s c.port).resumptionPending then .next s
    else
      let q := bits (eCdw c.dw 0) 13 0
      match queueOf s c.port q with
      | some k => if k.deleting.isSome then .next s else .next (refuseNow s cid 0x1002 0x30)
      | none =>
        let w := eCdw c.dw
        let k := newQueue q (eLba c.dw) (eExtAddr c.dw) (bits (w 0) 28 16) (bits (w 1) 12 0) (bits (w 1) 26 16) (bits (w 1) 28 27)
          (bits (w 2) 7 0) (bits (w 2) 23 8)
        let del := (newestOf ((queueCommands s c.port q).filter (fun x => eOpcode x.dw == 0x85))).map (·.cid)
        let t := addQueue s c.port { k with deleting := del }
        let t := updPort t c.port (fun x => { x with errLog := x.errLog.filter (fun e => e.1 != q) })
        .next (performState t cid 1 (w32 q) 0 none (some (queueImage t c.port k)))

/-- DELETE_QUEUE (R93): performed where its queue has drained; a queue that is gone refuses it (R520). -/
def execDeleteQueue (cid : Nat) (s : State) : Host.Outcome State Fault Refusal :=
  match ctxIn s cid 0x85 with
  | none => .next s
  | some c =>
    let q := bits (eCdw c.dw 0) 13 0
    if !readyFor s c then .next s
    else if (queueOf s c.port q).isNone && (queueCommands s c.port q).all (fun x => eOpcode x.dw != 0x84) then .next (refuseNow s cid 0x1002 0x30)
    else .next (settleDelete s c.port q)

/-- RESTART_QUEUE (R134): the queue whose tail its admission recorded becomes RESTARTING; a queue that is gone refuses it (R520). -/
def execRestartQueue (cid : Nat) (s : State) : Host.Outcome State Fault Refusal :=
  match ctxIn s cid 0x86 with
  | none => .next s
  | some c =>
    let q := bits (eCdw c.dw 0) 13 0
    if !readyFor s c then .next s
    else
      match queueOf s c.port q with
      | none => .next (refuseNow s cid 0x1002 0x30)
      | some k =>
        if (k.restart.bind (·.cid)) == some cid then .next (updQueue s c.port q (fun k => { k with st := .restarting })) else .next s

/-- ACK_RESUMPTION (R142): waits for the log to be complete; a matching GENERATION clears the log and RESUMPTION_PENDING. -/
def execAckResumption (cid : Nat) (s : State) : Host.Outcome State Fault Refusal :=
  match ctxIn s cid 0x87 with
  | none => .next s
  | some c =>
    let x := portOf s c.port
    if !x.res.complete then .next s
    else if eCdw c.dw 0 + 2 ^ 32 * eCdw c.dw 1 == x.res.generation then
      let t := updPort s c.port (fun x =>
        { x with resumptionPending := false, res := { x.res with queues := [], cmds := [], interruptions := 0, unclean := false } })
      .next (performState t cid 4 0 0 none none (some c.port))
    else .next (performState s cid 4 1 0)

end Sys2Proof.Machine
end

