-- ==== Sys2Proof/Machine/Io.lean ====
section
/-! DEFINITION. The I/O commands of chapter 06: what each row does with the data it fetched, with the units that the map and the read path
resolved for it, and how it ends. -/
namespace Sys2Proof.Machine
open Sys2Proof

/-! ## Data fetched from the host (R126, R127) -/

/-- The entries of an unsummed list judged one after the other as they are read, from entry n on, with `off` bytes described before it: the
malformed entry, or the one that holds the first byte beyond the expected length, with how the fetch ends there: status, BYTE_OFFSET, DETAIL0,
DETAIL1; at the end of the list, a sum that falls short (R126, R127). -/
def judgeReached (expected : Nat) : List ListEntry → Nat → Nat → Option (Nat × (Half × Nat × Nat × Nat))
  | [], n, off => if off == expected then none else some (n, (0x1004, Nat.min off expected, expected, off))
  | e :: rest, n, off =>
    if !entryOk e then some (n, (0x1005, off, n + 1, 0))
    else if expected < off + e.len then some (n, (0x1004, expected, expected, off + e.len))
    else judgeReached expected rest (n + 1) (off + e.len)

/-- Where the reading of an unsummed list ends and how: at an entry that is malformed or goes beyond the expected length, at one whose read
failed, or at the end of a list that falls short. EXT0 alone may go beyond it. -/
def listEnd (dw : List Word) (expected : Nat) (list : ListRead) : Option (Nat × (Half × Nat × Nat × Nat)) :=
  let es := listEntries dw list
  if expected < eExtLen dw then some (0, (0x1004, expected, expected, eExtLen dw))
  else match list with
    | .entries _ => judgeReached expected es 0 (eExtLen dw)
    | .fault _ kind =>
      match judgeReached expected es 0 (eExtLen dw) with
      | some (n, f) => if n < es.length then some (n, f) else some (n, (0x1005, 16 * n, n + 1, kind))
      | none => none

/-- A host stream as fetched, or how its fetch failed: status, BYTE_OFFSET, DETAIL0, DETAIL1. The bytes are those of every extent read up
to the point of decision. Of an unsummed list, a data read that failed in an extent before the entry at which the list ends decides. -/
def fetchOutcome (dw : List Word) (expected : Nat) : HostFetch → List Byte ⊕ (Half × Nat × Nat × Nat)
  | .bytes bs =>
    if bs.length == expected then .inl bs
    else .inr (0x1004, Nat.min bs.length expected, expected, bs.length)
  | .fault _ extent offset kind => .inr (0x1005, offset, extent, kind)
  | .listed list bs bad =>
    match listEnd dw expected list, bad with
    | some (n, f), some (extent, offset, kind) => .inr (if extent ≤ n then (0x1005, offset, extent, kind) else f)
    | some (_, f), none => .inr f
    | none, some (extent, offset, kind) => .inr (0x1005, offset, extent, kind)
    | none, none => .inl (bs.take expected)

/-- A fetch that supplies what the command's list needs: a list that is not summed at admission is read with its data (R155). -/
def fetchFits (dw : List Word) (data : HostFetch) : Bool :=
  match data with
  | .listed .. => eList dw && decide (64 < eListCount dw)
  | _ => !(eList dw && decide (64 < eListCount dw))

/-- A data fetch fault as a decision with ORIGIN 4. -/
def fetchVerdict (f : Half × Nat × Nat × Nat) : Verdict :=
  { status := f.1, origin := 4, byteOffset := f.2.1, detail0 := f.2.2.1, detail1 := f.2.2.2 }

/-- A list piece n bytes long, cut from a stream. -/
def cutStream (n : Nat) (bs : List Byte) (i : Nat) : List Byte := slice bs (n * i) n

/-! ## Writes (R151, R158) -/

/-- The blocks that a WRITE stages. -/
def writeUnits' (format : Nat) (dw : List Word) (bs : List Byte) : List StagedUnit :=
  let n := 4096 + metaSize format
  (List.range (eCount dw)).map (fun i =>
    { ns := eNs dw, lba := eLba dw + i, slot := none
      block := some (blockOfStream format (cutStream n bs i) (eAppTag dw) (eLba dw + i) (chkGen dw)) })

/-- The first block of a WRITE that fails a check at the host crossing: status and LBA (R151). -/
def crossingFault (format : Nat) (dw : List Word) (us : List StagedUnit) : Option (Half × Nat) :=
  if format == 0 || chkGen dw then none
  else us.findSome? (fun u => (u.block.bind (blockFault format u.lba (appCheck dw))).map (fun st => (st, u.lba)))

/-! ## Staged data lost with a DRAM channel (R425) -/

/-- Pages that waited for lost content, and their rows' parity, programmed where they are due. -/
def resumePages (s : State) (pages : List Madr) : State :=
  pages.foldl (fun t a =>
    match setAt t.map a with
    | none => t
    | some k =>
      match openOf t k.seq, pageRow k a.page with
      | some o, some row =>
        match o.rows.find? (fun r => r.row == row) with
        | none => t
        | some r =>
          let due := match slotRank k { a with slot := 3 } with | some g => decide (g % rowSlots k < r.next) | none => false
          let t := if due then programPage t a 2 else t
          if r.next == rowSlots k && !r.parityIssued then programParity t k row 2 else t
      | _, _ => t) s

/-- The pages that hold lost units of a command. -/
def lostPages (c : Ctx) : List Madr := (c.staged.filter (·.lost)).filterMap (fun u => u.slot.map pageOf)

/-- The slots of a command's lost units in pages not yet programmed, each with the content that `f` gives it; one without is taken out. -/
def reslot (s : State) (c : Ctx) (f : StagedUnit → Option Block) : State :=
  updMedia s (fun m =>
    { m with pages := m.pages.map (fun p => if p.st != .assigned then p
      else { p with slots := p.slots.filterMap (fun x =>
        match c.staged.find? (fun u => u.lost && u.slot == some { p.addr with slot := x.n }) with
        | none => some x
        | some u => (f u).map (fun b => { x with block := some b })) }) })

/-- Lost units of a command recovered with the content that `f` gives them. -/
def recoverStaged (s : State) (c : Ctx) (f : StagedUnit → Option Block) : State :=
  let t := updCtx (reslot s c f) c.cid (fun x =>
    { x with staged := x.staged.map (fun u => if u.lost then { u with block := (f u).or u.block, lost := false } else u) })
  resumePages t (lostPages c)

/-- The content recovered for a unit among units staged anew. -/
def stagedAnew (us : List StagedUnit) (u : StagedUnit) : Option Block := (us.find? (fun x => x.lba == u.lba)).bind (·.block)

/-- A write whose lost data cannot be recovered completes with WRITE_FAULT and no effect on the medium (R425, Table 5-5). -/
def writeFault (s : State) (c : Ctx) : State :=
  let t := decide_ (reslot s c (fun _ => none)) c.cid { status := 0x3003, origin := 5 }
  let t := updCtx t c.cid (fun c => { c with units := [], promised := 0, staged := [] })
  settleFull (resumePages t (lostPages c))

/-- The lost units of a WRITE fetched again, through the checks of R151 again. -/
def refetch (s : State) (c : Ctx) (data : HostFetch) : State :=
  if !fetchFits c.dw data then s
  else match fetchOutcome c.dw (expectedLen s c.dw) data with
    | .inr _ => writeFault s c
    | .inl bs =>
      let f := nsFormat s (eNs c.dw)
      let us := writeUnits' f c.dw bs
      if (crossingFault f c.dw us).isSome then writeFault s c else settleFull (recoverStaged s c (stagedAnew us))

/-- WRITE (R158): the data is fetched and staged, or the fault is noted that WRITE_HELD decides. Where staged
data was lost with a DRAM channel, it is fetched again (R425). -/
def execWrite (cid : Nat) (data : HostFetch) (s : State) : Host.Outcome State Fault Refusal :=
  match ctxIn s cid 0x01 with
  | none => .next s
  | some c =>
    if c.staged.any (·.lost) then .next (refetch s c data)
    else if c.held || c.fetchFail.isSome || !c.staged.isEmpty || !fetchFits c.dw data then .next s
    else
      let f := nsFormat s (eNs c.dw)
      match fetchOutcome c.dw (expectedLen s c.dw) data with
      | .inr (st, off, d0, d1) => .next (updCtx s cid (fun c => { c with fetchFail := some (st, 0, off, d0, d1) }))
      | .inl bs =>
        let us := writeUnits' f c.dw bs
        match crossingFault f c.dw us with
        | some (st, lba) => .next (updCtx s cid (fun c => { c with fetchFail := some (st, lba, 0, 0, 0) }))
        | none =>
          .next (updHealth (updCtx s cid (fun c => { c with staged := us })) (fun h => { h with hostWrittenUnits := h.hostWrittenUnits + us.length }))

/-- FILL (R159): held at its admission; its units take their slots. -/
def execFill (cid : Nat) (s : State) : Host.Outcome State Fault Refusal :=
  match ctxIn s cid 0x0A with
  | none => .next s
  | some c => if c.held then .next (settleFull (assignUnits s c c.staged)) else .next s

/-- DEALLOCATE (R160): held at its admission; its map update is requested once R106 and R107 allow it. -/
def execDeallocate (cid : Nat) (s : State) : Host.Outcome State Fault Refusal :=
  match ctxIn s cid 0x08 with
  | none => .next s
  | some c => if mayCommit s c then .next (updCtx (askMap s (writeReq s c)) cid (fun c => { c with mapAsked := true })) else .next s

/-! ## Reads (R157, R165) -/

/-- A unit has been resolved. -/
def unitResolved (u : UnitRead) : Bool := match u.st with | .waiting | .medium _ => false | _ => true

/-- The block that a resolved unit gives, or its failure: status and crossing. An application tag is not checked on an unwritten block. -/
def unitResult (s : State) (dw : List Word) (u : UnitRead) : Block ⊕ (Half × Nat) :=
  let f := nsFormat s u.ns
  let judge (b : Block) : Block ⊕ (Half × Nat) := match blockFault f u.lba (appCheck dw) b with | some st => .inr (st, 2) | none => .inl b
  match u.st with
  | .unwritten => .inl (unwrittenBlock f u.lba)
  | .staging b => judge b
  | .got b _ => judge b
  | .lost => .inr (0x3002, 0)
  | .failed k => if k == 0 then .inr (0x3001, 0) else .inr (if k == 1 then 0x2001 else 0x2002, 1)
  | _ => .inr (0x3001, 0)

/-- The failing units of a command: LBA, status, crossing; ascending LBA. -/
def failingUnits (s : State) (c : Ctx) : List (Nat × Half × Nat) :=
  c.units.filterMap (fun u => match unitResult s c.dw u with | .inr x => some (u.lba, x.1, x.2) | .inl _ => none)

/-- The verdict of a reading command with a failing unit: that of the lowest LBA (R165, Table 5-5). -/
def readVerdict (s : State) (c : Ctx) : Option Verdict :=
  let fs := failingUnits s c
  match fs with
  | [] => none
  | (lba, st, x) :: _ =>
    let check := st.toNat / 4096 == 2
    some { status := st, origin := if check && x == 2 then 6 else 5, lba := lba, detail0 := if check then x else fs.length }

/-- Blocks of a reading command, ascending LBA. -/
def readBlocks (s : State) (c : Ctx) : List (Nat × Block) :=
  c.units.filterMap (fun u => match unitResult s c.dw u with | .inl b => some (u.lba, b) | .inr _ => none)

/-- Unwritten and recovered blocks of a command (Table 6-8). -/
def unwrittenCount (c : Ctx) : Nat := (c.units.filter (fun u => u.st == .unwritten)).length
def recoveredCount (c : Ctx) : Nat := (c.units.filter (fun u => match u.st with | .got _ r => r | _ => false)).length

/-- SUCCESS, or SUCCESS_RECOVERED where a block needed recovery (R165). -/
def readStatus (c : Ctx) : Half := if recoveredCount c == 0 then 0 else 1

/-- A command fails: its pins are released, its promise withdrawn and its status decided. -/
def failCommand (s : State) (c : Ctx) (v : Verdict) : State :=
  let t := c.units.foldl (fun t u => match u.st with | .medium m => unpinBlock t m | _ => t) s
  settleFull (updCtx (decide_ t c.cid v) c.cid (fun c => { c with units := [], promised := 0, staged := [] }))

/-- Units of host data read, for the HEALTH log. -/
def countHostRead (s : State) (n : Nat) : State := updHealth s (fun h => { h with hostReadUnits := h.hostReadUnits + n })

/-- READ (R162): the list is checked in full, then the stream is delivered once every unit is resolved. -/
def execRead (cid : Nat) (list : ListRead) (s : State) : Host.Outcome State Fault Refusal :=
  match ctxIn s cid 0x02 with
  | none => .next s
  | some c =>
    match judgeList c.dw (expectedLen s c.dw) 4 list with
    | some v => .next (failCommand s c v)
    | none =>
      if !c.units.all unitResolved then .next s
      else
        match readVerdict s c with
        | some v => .next (failCommand s c v)
        | none =>
          let f := nsFormat s (eNs c.dw)
          let bytes := (readBlocks s c).flatMap (fun b => streamOfBlock f (chkStrip c.dw) b.2)
          let t := deliver (countHostRead s c.units.length) c.port (extentsOf c.dw list) bytes
          .next (perform t cid (w32 (unwrittenCount c)) (w32 (recoveredCount c)) (readStatus c))

/-- VERIFY (R162): the range is read and checked, and nothing is delivered. -/
def execVerify (cid : Nat) (s : State) : Host.Outcome State Fault Refusal :=
  match ctxIn s cid 0x04 with
  | none => .next s
  | some c =>
    if !c.units.all unitResolved then .next s
    else
      match readVerdict s c with
      | some v => .next (failCommand s c v)
      | none => .next (perform s cid (w32 (unwrittenCount c)) (w32 (recoveredCount c)) (readStatus c))

/-- The bytes of a block that COMPARE compares (R163). -/
def comparedBytes (format : Nat) (b : Block) : List Byte := if format == 2 then b.data ++ b.hostMeta else b.data

/-- Index of the first block that differs from the stream. -/
def firstDiffering (format : Nat) (stream : List Byte) : List (Nat × Block) → Nat → Option Nat
  | [], _ => none
  | b :: bs, i =>
    let own := comparedBytes format b.2
    if own == slice stream ((4096 + metaSize format) * i) own.length then firstDiffering format stream bs (i + 1) else some i

/-- COMPARE (R163): the stream is fetched and kept, and compared once every unit is resolved. -/
def execCompare (cid : Nat) (data : HostFetch) (s : State) : Host.Outcome State Fault Refusal :=
  match ctxIn s cid 0x05 with
  | none => .next s
  | some c =>
    if c.stream.isEmpty && !fetchFits c.dw data then .next s else
    match (if c.stream.isEmpty then fetchOutcome c.dw (expectedLen s c.dw) data else .inl c.stream) with
    | .inr f => .next (failCommand s c (fetchVerdict f))
    | .inl bs =>
      let t := updCtx s cid (fun c => { c with stream := bs })
      if !c.units.all unitResolved then .next t
      else
        match readVerdict s c with
        | some v => .next (failCommand t c v)
        | none =>
          match firstDiffering (nsFormat s (eNs c.dw)) bs (readBlocks s c) 0 with
          | some i => .next (perform t cid 1 (w32 i) (readStatus c))
          | none => .next (perform t cid 0 0xFFFFFFFF (readStatus c))

/-- What a COPY stages from its resolved sources: REF_TAG of the destination, GUARD and APP_TAG kept; an unwritten source leaves its
destination unwritten (R152, R161). -/
def copyUnits (s : State) (c : Ctx) : List StagedUnit :=
  let ns := bits (eCdw c.dw 0) 7 0
  c.units.map (fun u =>
    let lba := eCdw23 c.dw + (u.lba - eLba c.dw)
    { ns := ns, lba := lba, slot := none
      block := if u.st == .unwritten then none
        else match unitResult s c.dw u with
          | .inl b => some { b with refTag := BitVec.ofNat 48 lba }
          | .inr _ => none })

/-- COPY (R161): once every source unit is resolved the destination blocks are staged, held, and take their slots; where staged data was lost with
a DRAM channel, its source has been read again (R425). -/
def execCopy (cid : Nat) (s : State) : Host.Outcome State Fault Refusal :=
  match ctxIn s cid 0x0C with
  | none => .next s
  | some c =>
    let again := c.staged.any (·.lost)
    if (c.held && !again) || !c.units.all unitResolved then .next s
    else
      match readVerdict s c with
      | some v => .next (if again then writeFault s c else failCommand s c v)
      | none =>
        let us := copyUnits s c
        if again then .next (settleFull (recoverStaged s c (stagedAnew us))) else
        let t := updCtx s cid (fun c => { c with staged := us, held := true })
        .next (settleFull (assignUnits t { c with staged := us, held := true } us))

end Sys2Proof.Machine
end

