-- ==== Sys2Proof/Machine/Pods.lean ====
section
/-! DEFINITION. Buffer pods (R423 to R431) and the mover (R432 to R442). -/
namespace Sys2Proof.Machine
open Sys2Proof

/-! ## Pods -/

/-- Unit size of a pod in bytes (Table 18-1). -/
def podUnit (k : Nat) : Nat := [512, 4096, 16384, 65536, 1048576].getD k 1048576

/-- A unit of Pod 4 lies on a DRAM channel out of service (R425); unit i lies on channel i mod 4. -/
def podUnitLost (s : State) (k i : Nat) : Bool := k == 4 && s.eng.dramLost.getLsbD (i % 4)

/-- A unit is allocated. -/
def podUsed (s : State) (k i : Nat) : Bool := s.pods.used.any (fun u => u.1 == k && u.2.1 == i)

/-- The lowest free index of a pod (R430). -/
def podFirstFree (s : State) (k : Nat) : Nat :=
  ((List.range (4 * (s.pods.used.length + 1))).find? (fun i => !podUsed s k i && !podUnitLost s k i)).getD 0

/-- A unit granted to a requester: charged, its address told, and counted as event 0x20. -/
def podGrant (s : State) (r k : Nat) : State :=
  let i := podFirstFree s k
  countEvent { s with pods := { s.pods with used := s.pods.used ++ [(k, i, r)], grants := (r, k, i) :: s.pods.grants } } 0x20 k 1

/-- The smallest pod whose unit holds a size (R428). -/
def podFor (size : Nat) : Nat := if size ≤ 512 then 0 else if size ≤ 4096 then 1 else if size ≤ 16384 then 2 else if size ≤ 65536 then 3 else 4

/-- The pods that a request tries in order, from its smallest fit (R428). -/
def podPath (size : Nat) (dram : Bool) : List Nat :=
  let k := podFor size
  if k == 4 then [4] else (List.range 4).drop k ++ (if dram then [4] else [])

/-- A request served by the first pod of its path that has a unit for it, or waiting at the last (R428). -/
def podServe (s : State) (r : Nat) (dram : Bool) : List Nat → State
  | [] => s
  | [k] => if podEligible s r k then podGrant s r k
      else { s with pods := { s.pods with waiting := s.pods.waiting ++ [{ requester := r, pod := k, dram := dram }] } }
  | k :: ks => if podEligible s r k then podGrant s r k else podServe s r dram ks

/-- The first waiting request that is eligible, with the waiting list without it (R430). -/
def podNext (s : State) : List PodReq → List PodReq → Option (PodReq × List PodReq)
  | _, [] => none
  | seen, w :: ws => if podEligible s w.requester w.pod then some (w, seen.reverse ++ ws) else podNext s (w :: seen) ws

/-- Waiting requests granted as units are free, in order of arrival, at most n of them. -/
def podSettle (s : State) : Nat → State
  | 0 => s
  | n + 1 =>
    match podNext s [] s.pods.waiting with
    | none => s
    | some (w, rest) => podSettle (podGrant { s with pods := { s.pods with waiting := rest } } w.requester w.pod) n

/-- POD_REQUEST (R428): a request of 1 B to 1 MiB by one of the fifteen requesters of Table 18-3 (assumption 28). -/
def execPodRequest (requester size : Nat) (dram : Bool) (s : State) : Host.Outcome State Fault Refusal :=
  if requester < 15 && 1 ≤ size && size ≤ 1048576 then .next (podServe s requester dram (podPath size dram)) else .next s

/-- POD_FREE (R431): the unit at a byte offset of a pod is freed, and waiting requests take what is free; or the free is refused and
counted (assumption 28). -/
def execPodFree (pod offset : Nat) (s : State) : Host.Outcome State Fault Refusal :=
  let i := offset / podUnit pod
  if pod < 5 && offset % podUnit pod == 0 && podUsed s pod i then
    let t := { s with pods := { s.pods with used := s.pods.used.filter (fun u => !(u.1 == pod && u.2.1 == i)) } }
    .next (podSettle t t.pods.waiting.length)
  else .next (countFixed s 6 1)

/-! ## Mover: address spaces (R35, R213, R423, R424) -/

/-- Ranges laid one after the other from an address. -/
def layOut : Nat → List Nat → List (Nat × Nat)
  | _, [] => []
  | a, n :: ns => (a, n) :: layOut (a + n) ns

/-- One MiB. -/
def mib : Nat := 1048576

/-- The regions of DRAM in the order of Table 8-12. -/
def dramRegions (s : State) : List (Nat × Nat) :=
  let fixed := [1024 * mib, 4096 * mib, podCount s 4 * mib, s.eng.dirPool * 65536,
    15872 * (s.portA.hostMap.length + s.portB.hostMap.length)]
  layOut 0 (fixed ++ [s.kf.dramMib * mib - fixed.foldl (· + ·) 0])

/-- The staging SRAM and the side array after it. -/
def stagingRegions : List (Nat × Nat) := [(0, 32 * mib), (32 * mib, mib)]

/-- The regions of an internal space: 2 DRAM, 3 staging. -/
def regionsOf (s : State) (space : Nat) : List (Nat × Nat) := if space == 2 then dramRegions s else stagingRegions

/-- Pods that lie in a space: base, unit size and bytes. -/
def podsIn (s : State) (space : Nat) : List (Nat × Nat × Nat) :=
  if space == 2 then [(5120 * mib, podUnit 4, podCount s 4 * podUnit 4)]
  else
    let sizes := (List.range 4).map (fun k => podCount s k * podUnit k)
    List.zipWith (fun r k => (r.1, podUnit k, r.2)) (layOut 0 sizes) (List.range 4)

/-- A range that starts inside a pod unit stays within it (R435). -/
def staysInUnit (s : State) (space a n : Nat) : Bool :=
  (podsIn s space).all (fun p => !(decide (p.1 ≤ a) && decide (a < p.1 + p.2.2)) || decide ((a - p.1) % p.2.1 + n ≤ p.2.1))

/-- CAUSE 1 or 2 of one range of a descriptor, 0 where it passes (R435). -/
def rangeCause (s : State) (space a n : Nat) : Nat :=
  if space < 2 then
    (if a % 4 != 0 || n % 4 != 0 then 2 else if a + n ≤ 2 ^ 64 then 0 else 1)
  else if a % 64 != 0 || n % 64 != 0 then 2
  else if (regionsOf s space).any (fun r => decide (r.1 ≤ a) && decide (a + n ≤ r.1 + r.2)) && staysInUnit s space a n then 0 else 1

/-- Reserved OP, space or field, LENGTH and PACE_LOG2 (Table 18-5, R435). -/
def descFieldsOk (d : MoverDesc) : Bool :=
  1 ≤ d.op && d.op ≤ 4 && d.srcSpace ≤ 3 && d.dstSpace ≤ 3 && d.reservedZero &&
    (d.op == 4 || (4 ≤ d.length && d.length ≤ 16777216)) && (!d.paced || (9 ≤ d.paceLog2 && d.paceLog2 ≤ 16))

/-- The ranges of a COPY or COMPARE overlap. -/
def descOverlap (d : MoverDesc) : Bool :=
  (d.op == 1 || d.op == 3) && d.srcSpace == d.dstSpace && decide (d.src < d.dst + d.length) && decide (d.dst < d.src + d.length)

/-- The checks before a descriptor starts: CAUSE and DIRECTION of the fault, a source fault before a destination fault (R435, R439). -/
def descFault (s : State) (d : MoverDesc) : Option (Nat × Bool) :=
  if !descFieldsOk d then some (1, false)
  else if d.op == 4 then none
  else
    let cs := if d.op == 2 then 0 else rangeCause s d.srcSpace d.src d.length
    let cd := rangeCause s d.dstSpace d.dst d.length
    if cs != 0 then some (cs, false)
    else if cd != 0 then some (cd, true)
    else if descOverlap d then some (1, false)
    else none

/-! ## Mover channels -/

/-- A channel never used. -/
def Chan.idle (ch : Nat) : Chan where
  ch := ch
  st := .idle
  descs := []
  waiting := []
  cause := 0
  direction := false
  space := 0
  addr := 0
  credit := 0
  released := 0

/-- A channel by number. -/
def chanOf (s : State) (ch : Nat) : Chan := (s.mover.chans.find? (fun c => c.ch == ch)).getD (Chan.idle ch)

/-- A channel's new state in a list of channels. -/
def putChanIn (l : List Chan) (c : Chan) : List Chan :=
  if l.any (fun x => x.ch == c.ch) then l.map (fun x => if x.ch == c.ch then c else x) else l ++ [c]

/-- A channel's new state. -/
def putChan (s : State) (c : Chan) : State := { s with mover := { s.mover with chans := putChanIn s.mover.chans c } }

/-- An outcome returned with its TOKEN (R432). -/
def moverReturn (s : State) (r : MoverRet) : State := { s with mover := { s.mover with rets := s.mover.rets ++ [r] } }

/-- The first descriptor of a channel gone, and posts that waited for room posted (R432). -/
def chanPop (c : Chan) : Chan :=
  let ds := c.descs.drop 1
  let room := 64 - ds.length
  { c with descs := ds ++ c.waiting.take room, waiting := c.waiting.drop room, credit := 0, released := 0, st := .idle }

/-- Every descriptor of a channel discarded (R442): posts that waited for room take it. -/
def resetChannel (s : State) (ch : Nat) : State :=
  let c := chanOf s ch
  let t := c.descs.foldl (fun t d => moverReturn t { ch := ch, token := d.token, kind := 4, value := 0, cause := 0, direction := false }) s
  putChan t { Chan.idle ch with descs := c.waiting.take 64, waiting := c.waiting.drop 64 }

/-- An admin command whose data a keeper channel carries, named by a descriptor's TOKEN (R440). -/
def carriedCommand (s : State) (d : MoverDesc) : Option Ctx :=
  (ctxOf s d.token.toNat).filter (fun c => c.queue == 0 && (c.stage == .admitted || c.stage == .served) && c.status == 0
    && ([0x80, 0x81, 0x88].contains (eOpcode c.dw) || (eOpcode c.dw == 0x82 && eExtLen c.dw == 32)))

/-- On a halt of a keeper channel, the admin commands it carries complete with MOVER_HALTED and their descriptors are withdrawn (R440). -/
def withdrawAdmin (s : State) (ch : Nat) : State :=
  if ch < 56 then s
  else
    let c := chanOf s ch
    let hit := c.descs.filter (fun d => (carriedCommand s d).isSome)
    let keep := c.descs.filter (fun d => (carriedCommand s d).isNone)
    let t := hit.foldl (fun t d =>
      moverReturn (decide_ t d.token.toNat { status := 0x5002, origin := 5 })
        { ch := ch, token := d.token, kind := 5, value := 0, cause := 0, direction := false }) s
    putChan t { chanOf t ch with descs := keep }

/-- The channels of the group of a channel (Table 18-4). -/
def chanGroup (ch : Nat) : List Nat :=
  if ch < 16 then List.range 16 else if ch < 32 then (List.range 16).map (· + 16) else if ch < 56 then (List.range 24).map (· + 32)
  else (List.range 8).map (· + 56)

/-- Every channel of a channel's group is HALTED. -/
def groupHalted (s : State) (ch : Nat) : Bool := (chanGroup ch).all (fun n => (chanOf s n).st == .halted)

/-- Every keeper channel is HALTED: an admin command whose data the mover would carry completes with MOVER_HALTED (R440). -/
def keeperHalted (s : State) : Bool := groupHalted s 56

/-- A channel halts with a latch; the keeper resets the lowest channel of a group of channels 0 to 55 that is wholly HALTED (R440, R441). -/
def haltChan (s : State) (ch cause : Nat) (dir : Bool) (space addr : Nat) : State :=
  let t := withdrawAdmin (putChan s { chanOf s ch with st := .halted, cause := cause, direction := dir, space := space, addr := addr }) ch
  if ch < 56 && groupHalted t ch then resetChannel t ((chanGroup ch).headD 0) else t

/-- A fault of a channel's first descriptor, by its POLICY (R439). -/
def faultDesc (s : State) (ch : Nat) (d : MoverDesc) (cause : Nat) (dir : Bool) (offset : Nat) : State :=
  if d.report then
    putChan (moverReturn s { ch := ch, token := d.token, kind := 3, value := offset, cause := cause, direction := dir }) (chanPop (chanOf s ch))
  else haltChan s ch cause dir (if dir then d.dstSpace else d.srcSpace) ((if dir then d.dst else d.src) + offset)

/-- A channel that is not HALTED starts its first descriptor once the checks pass; one that fails them faults, and under REPORT the next
is tried, at most n (R435, R436, R439). From t0 of Table 10-7 nothing starts. -/
def startChan (s : State) (ch : Nat) : Nat → State
  | 0 => s
  | n + 1 =>
    let c := chanOf s ch
    match c.st, c.descs with
    | .idle, d :: _ =>
      if s.jrnl.stopFrom.isSome then s
      else
        match descFault s d with
        | none => putChan s { c with st := .running, credit := 0, released := 0 }
        | some (cause, dir) => startChan (faultDesc s ch d cause dir 0) ch n
    | _, _ => s

/-- MOVER_POST (R432): a descriptor is posted, or waits for room; an idle channel starts it. -/
def execMoverPost (channel : Nat) (desc : MoverDesc) (s : State) : Host.Outcome State Fault Refusal :=
  if 64 ≤ channel then .next s
  else
    let c := chanOf s channel
    if c.descs.length < 64 then .next (startChan (putChan s { c with descs := c.descs ++ [desc] }) channel 1)
    else .next (putChan s { c with waiting := c.waiting ++ [desc] })

/-- Beats of a byte count (R433). -/
def beats (n : Nat) : Nat := ceilDiv n 128

/-- Bytes of a descriptor whose reads are released (R438). -/
def releasedBytes (c : Chan) (d : MoverDesc) : Nat := if d.paced then c.released else d.length

/-- A running descriptor ends with an outcome: its TOKEN returned and the next descriptor started, or the channel halted. -/
def endDesc (s : State) (ch : Nat) (d : MoverDesc) (o : MoverOutcome) : State :=
  let c := chanOf s ch
  let fin (kind value moved : Nat) : State :=
    let t := moverReturn s { ch := ch, token := d.token, kind := kind, value := value, cause := 0, direction := false }
    countEvent (putChan t (chanPop c)) 0x28 0 (beats moved)
  match o with
  | .ok => if d.op != 3 && (d.op == 2 || d.op == 4 || decide (d.length ≤ releasedBytes c d)) then fin 0 0 (if d.op == 4 then 0 else d.length) else s
  | .equal => if d.op == 3 && decide (d.length ≤ releasedBytes c d) then fin 1 0 d.length else s
  | .differs off =>
    if d.op == 3 && decide (off < releasedBytes c d) && decide (off < d.length) then
      (if d.cmpHalt then haltChan (countEvent s 0x28 0 (beats off)) ch 6 false d.srcSpace (d.src + off) else fin 2 off d.length)
    else s
  | .fault cause dest off =>
    if 3 ≤ cause && cause ≤ 5 && d.op != 4 && decide (off < d.length) then faultDesc (countEvent s 0x28 0 (beats off)) ch d cause dest off else s

/-- MOVER_DESCRIPTOR_END (R436 to R440). -/
def execMoverDescriptorEnd (channel : Nat) (outcome : MoverOutcome) (s : State) : Host.Outcome State Fault Refusal :=
  let c := chanOf s channel
  match c.st, c.descs with
  | .running, d :: _ => let t := endDesc s channel d outcome; .next (startChan t channel (chanOf t channel).descs.length)
  | _, _ => .next s

/-- A pulse on a request line at one channel: the next reads released, or the pulse kept as credit (R438). -/
def pulseChan (line : Nat) (c : Chan) : Chan :=
  match c.st, c.descs with
  | .running, d :: _ =>
    if d.paced && d.reqLine == line then
      (if c.released < d.length then { c with released := Nat.min d.length (c.released + 2 ^ d.paceLog2) }
       else { c with credit := Nat.min 255 (c.credit + 1) })
    else c
  | _, _ => c

/-- A pulse on a request line (Table 18-6); lines 52 to 63 never pulse. -/
def pulseLine (s : State) (line : Nat) : State :=
  if line < 52 then { s with mover := { s.mover with chans := s.mover.chans.map (pulseChan line) } } else s

/-- REQ_LINE_PULSE (R438). -/
def execReqLinePulse (line : Nat) (s : State) : Host.Outcome State Fault Refusal := .next (pulseLine s line)

/-! ## MOVER_CONTROL (R442) -/

/-- The channel that a MOVER_CONTROL names. -/
def ctlChan (s : State) (c : Ctx) : Chan := chanOf s (bits (eCdw c.dw 0) 13 8)

/-- RESULT0 and RESULT1 of QUERY (Table 18-7). -/
def queryResult (c : Chan) : Word × Word :=
  if c.st == .halted then
    (pack [(1, 0), (c.cause, 1), (b2n c.direction, 4), (c.space, 5), (b2n (c.addr / 2 ^ 52 != 0), 8), (bits c.addr 51 32, 12)],
      w32 c.addr)
  else (0, 0)

/-- MOVER_CONTROL QUERY: allowed in every state. -/
def execMoverQuery (cid : Nat) (s : State) : Host.Outcome State Fault Refusal :=
  match actionIn s cid 0x92 0 with
  | none => .next s
  | some c => let r := queryResult (ctlChan s c); .next (performState s cid 3 r.1 r.2)

/-- MOVER_CONTROL RESUME: a HALTED channel restarts its faulted descriptor and those after it. -/
def execMoverResume (cid : Nat) (s : State) : Host.Outcome State Fault Refusal :=
  match actionIn s cid 0x92 1 with
  | none => .next s
  | some c =>
    let h := ctlChan s c
    if h.st != .halted then .next (refuseNow s cid 0x1002 0x30)
    else
      let t := putChan s { h with st := .idle, cause := 0, direction := false, space := 0, addr := 0 }
      .next (startChan (performState t cid 3 0 0) h.ch (h.descs.length))

/-- MOVER_CONTROL RESET_CHANNEL: a HALTED channel discards every posted descriptor and becomes IDLE. -/
def execMoverResetChannel (cid : Nat) (s : State) : Host.Outcome State Fault Refusal :=
  match actionIn s cid 0x92 2 with
  | none => .next s
  | some c =>
    let h := ctlChan s c
    if h.st != .halted then .next (refuseNow s cid 0x1002 0x30)
    else .next (startChan (performState (resetChannel s h.ch) cid 3 0 0) h.ch (h.waiting.length))

end Sys2Proof.Machine
end

