-- ==== Sys2Proof/Machine/Firmware.lean ====
section
/-! DEFINITION. Firmware download, commit, confirm and revert (R458 to R462), and how a set of slots is judged (R44, R51 to R53, R457). -/
namespace Sys2Proof.Machine
open Sys2Proof

/-! ## Judging a set of slots -/

/-- The slot that a component runs from. -/
def runningSlot (s : State) (c : Nat) : Nat := 2 * c + b2n (compBit s.kf.runSlot c)

/-- The bytes of a component in the set that would run: the named ones from their inactive slots. -/
def setBytes (s : State) (named : BitVec 3) (c : Nat) : List Byte :=
  slotImage s.kf.mem (if compBit named c then otherSlot s.kf.boot c else runningSlot s c)

/-- Profiles that member bays match. -/
def matchedProfiles (s : State) : List Nat :=
  (List.range 4).filter (fun p => s.media.bays.any (fun b => (b.st == .member || b.st == .evacuating) && !b.foreign && b.profile == some p))

/-- What PAIR_HELLO hashes of an image: the binding sections of some profiles, then QUEUE_LIMITS (Table 16-5, R53). -/
def pairHash (image : List Byte) (ps : List Nat) : BitVec 384 :=
  Config.sha384 (ps.flatMap (fun p => (profileSections true).flatMap (fun id => bodyOf image id p)) ++ bodyOf image 0x0D 0xFF)

/-- Every choice of profiles from a list, ascending as the list is. -/
def choices : List Nat → List (List Nat)
  | [] => [[]]
  | x :: xs => (choices xs).map (fun l => x :: l) ++ choices xs

/-- The profiles of an image, all of this chip's member-matched ones among them, for which it gives a partner's hash: the set that the partner
hashed (R53) (assumption 48). -/
def agreedProfiles (s : State) (image : List Byte) (hash : BitVec 384) : Option (List Nat) :=
  (choices (List.range (profileCount image))).find? (fun ps => (matchedProfiles s).all (fun p => ps.contains p) && pairHash image ps == hash)

/-- A body differs between two images. -/
def bodyDiffers (a b : List Byte) (id p : Nat) : Bool := bodyOf a id p != bodyOf b id p

/-- A BINDING difference for the matched profiles: its section, 0 for a removed profile (Table 2-10). -/
def bindingDiff (s : State) (old new : List Byte) : Option Nat :=
  (matchedProfiles s).findSome? (fun p =>
    if (sectionOf new 3 p).isNone then some 0
    else if bodyDiffers old new 0x03 p then some 0x03 else if bodyDiffers old new 0x06 p then some 0x06 else none)

/-- A QUIET difference for the matched profiles: its section. -/
def quietDiff (s : State) (old new : List Byte) : Option Nat :=
  (matchedProfiles s).findSome? (fun p =>
    if bodyDiffers old new 0x0B p then some 0x0B else if bodyDiffers old new 0x02 p then some 0x02 else none)

/-- Rebuilding or evacuating: a QUIET difference is refused (R51). -/
def mediaQuiet (s : State) : Bool := !flag s.cond bRebuilding && s.media.bays.all (fun b => b.st != .evacuating)

/-- A descriptor of a present bay, or the newest root, has a Tigrim version above what a cluster release writes (R457). -/
def tigrimAbove (s : State) (tigrim : Nat) : Bool :=
  s.media.bays.any (fun b => b.present && tigrim < b.tigrim) || (s.jrnl.newest.isSome && tigrim < 1)

/-- The binding sections of the member-matched profiles and QUEUE_LIMITS are the same in two images (R53). -/
def sameBinding (s : State) (old new : List Byte) : Bool :=
  (matchedProfiles s).all (fun p => (profileSections true).all (fun id => !bodyDiffers old new id p)) && !bodyDiffers old new 0x0D 0xFF

/-- R53 and R397 fail against the partner's running image and release: the new image neither gives the partner's hash nor keeps the binding
sections that this chip was paired under (assumption 48). -/
def twinClash (s : State) (cluster image : List Byte) : Bool :=
  match s.twin.peer with
  | none => false
  | some h =>
    s.twin.en && ((agreedProfiles s image h.hash).isNone && !(sameBinding s s.kf.imgBytes image && s.twin.pairReject != 0x0C)
      || field cluster 0x22 2 < h.linkLevelMin || h.linkLevel < field cluster 0x24 2)

/-- The checks of the set that would run (R457), then R51 for a new structure image against the running one as it was loaded. -/
def setReject (s : State) (named : BitVec 3) : Option Reject :=
  let keeper := setBytes s named 0
  let cluster := setBytes s named 1
  let image := setBytes s named 2
  let old := s.kf.imgBytes
  let fw := fwSupport cluster
  firstReject [(!peersOk keeper cluster, (0x07, 0))] <|> levelReject fw.level fw.tigrim fw.formats image
  <|> firstReject [(tigrimAbove s fw.tigrim, (0x09, 0)), (twinClash s cluster image, (0x0C, 0))]
  <|> (if compBit named 2 then ((bindingDiff s old image).map (fun x => (0x0A, x)))
        <|> (if mediaQuiet s then none else (quietDiff s old image).map (fun x => (0x0B, x))) else none)

/-- Steps 2 and 3 of R459 for one slot: package header and signature, or every step of R41 for a structure image. -/
def slotReject (s : State) (named : BitVec 3) (c : Nat) : Option Reject :=
  let b := slotImage s.kf.mem (otherSlot s.kf.boot c)
  if c < 2 then packageReject s.kf.revoked c b
  else imageReject s.kf.ownerFuse s.kf.revoked (fwSupport (setBytes s named 1)) b
    <|> firstReject [(!dramOk (imageVals b) s.kf.dramMib, (0x09, 0))]

/-- Step 1 of R459: the blocks up to LENGTH have been received in the session. -/
def incomplete (s : State) (c : Nat) : Bool :=
  let n := ceilDiv (imageLength (slotImage s.kf.mem (otherSlot s.kf.boot c))) sectorSize
  let got := ((s.kf.sessions.find? (fun x => x.component == c)).map (·.blocks)).getD []
  decide (slotSize c / sectorSize < n) || (List.range n).any (fun i => !got.contains i)

/-- The first named slot that fails, with its reject. -/
def commitReject (s : State) (named : BitVec 3) (downloaded : Bool) : Option (Nat × Reject) :=
  ((comps named).findSome? (fun c =>
    ((if downloaded && incomplete s c then some (0x0D, 0) else none) <|> slotReject s named c).map (fun r => (c, r))))
  <|> ((setReject s named).map (fun r => ((if r.1 == 0x0A || r.1 == 0x0B then 2 else (comps named).headD 0), r)))

/-! ## The keeper's commands one at a time (R462) -/

/-- FW_DOWNLOAD, FW_COMMIT, FW_CONFIRM, FW_REVERT and SET_FEATURE of USER_CALIBRATION. -/
def keeperCommand (c : Ctx) : Bool :=
  c.queue == 0 && ([0x88, 0x89, 0x8A, 0x8B].contains (eOpcode c.dw) || (eOpcode c.dw == 0x83 && bits (eCdw c.dw 0) 7 0 == 0x0E))

/-- No keeper command before this one is still to be performed: by CSN, and without ownership by admission. -/
def keeperTurn (s : State) (c : Ctx) : Bool :=
  s.ctxs.all (fun x => !(keeperCommand x && (x.stage == .admitted || x.stage == .served) && x.cid != c.cid &&
    (if c.csn == 0 then x.tAdmit < c.tAdmit else decide (x.csn < c.csn))))

/-- A keeper command that may be performed now. -/
def keeperIn (s : State) (cid opcode : Nat) : Option Ctx :=
  (ctxIn s cid opcode).filter (fun c => (c.stage == .served || readyFor s c) && keeperTurn s c)

/-! ## FW_DOWNLOAD (R458) -/

/-- Bytes without the 0xFF at their end. -/
def trimBlank (bs : List Byte) : List Byte := (bs.reverse.dropWhile (fun b => b == 0xFF)).reverse

/-- Why a download block is refused: FIELD_OFFSET. -/
def downloadRefusal (s : State) (c : Ctx) (bs : List Byte) : Option Nat :=
  let comp := bits (eCdw c.dw 0) 1 0
  let block := bits (eCdw c.dw 1) 7 0
  let open_ := s.kf.sessions.find? (fun x => x.component == comp)
  if comp < 3 && (compBit s.kf.boot.pend comp || compBit s.kf.boot.trial comp) then some 0x30
  else if comp < 3 && open_.any (fun x => x.port != c.port) then some 0x30
  else if comp < 3 && block != 0 && open_.isNone then some 0x34
  else if (crc32c bs).toNat != eCdw c.dw 2 then some 0x38
  else none

/-- A session with a block received; block 0 opens it anew. -/
def putSession (l : List Session) (comp : Nat) (p : Port) (block : Nat) : List Session :=
  if block == 0 then l.filter (fun x => x.component != comp) ++ [{ component := comp, port := p, blocks := [0] }]
  else l.map (fun x => if x.component == comp then { x with blocks := if x.blocks.contains block then x.blocks else x.blocks ++ [block] } else x)

/-- The overlay copy in force for reads: the newest that passes (R453). -/
def readOverlay (k : Kf) : Kf :=
  let o := newestOverlay k.mem
  { k with overlay := (o.map (·.2)).getD [], ovlSeq := (o.map (·.1)).getD 0 }

/-- A block stored: its sector of the inactive slot erased and programmed, or an overlay copy appended. -/
def storeBlock (s : State) (c : Ctx) (bs : List Byte) : State :=
  let comp := bits (eCdw c.dw 0) 1 0
  let block := bits (eCdw c.dw 1) 7 0
  if comp == 3 then updKf s (fun k => readOverlay { k with mem := appendOverlay k.mem (trimBlank bs) })
  else
    let slot := otherSlot s.kf.boot comp
    let t := if block == 0 then putBoot s (fun r => updSlot r slot (fun x => { x with st := 0, reason := 0, section_ := 0 })) else s
    let a := slotBase slot + sectorSize * block
    updKf t (fun k =>
      { k with
        mem := memWriteAll (memErase k.mem a sectorSize) a bs
        unverified := k.unverified.filter (fun x => x != a / sectorSize)
        sessions := putSession k.sessions comp c.port block })

/-- FW_DOWNLOAD. -/
def execFwDownload (cid : Nat) (data : HostFetch) (s : State) : Host.Outcome State Fault Refusal :=
  match keeperIn s cid 0x88 with
  | none => .next s
  | some c =>
    if keeperHalted s then .next (decide_ s cid { status := 0x5002, origin := 5 })
    else if !fetchFits c.dw data then .next s
    else
      match fetchOutcome c.dw 65536 data with
      | .inr f => .next (decide_ s cid (fetchVerdict f))
      | .inl bs =>
        match downloadRefusal s c bs with
        | some off => .next (refuseNow s cid 0x1002 off)
        | none => .next (perform (storeBlock s c bs) cid 0 0)

/-! ## FW_COMMIT, FW_CONFIRM, FW_REVERT (R459 to R461) -/

/-- COMPONENTS and ACTION of a command. -/
def fwComps (c : Ctx) : BitVec 3 := BitVec.ofNat 3 (eCdw c.dw 0)
def fwOnShutdown (c : Ctx) : Bool := bits (eCdw c.dw 0) 5 4 == 1

/-- A commit refused: the slot is invalid with its reason, and RESULT0 tells it (R44, R459). -/
def commitRefused (s : State) (c : Ctx) (comp : Nat) (r : Reject) : State :=
  let t := putBoot s (fun b => updSlot b (otherSlot b comp) (fun x => { x with st := 2, reason := r.1, section_ := r.2 }))
  updCtx (refuseNow t c.cid (if r.1 == 0x0B then 0x4005 else 0x1002) (if r.1 == 0x0B then 0xFF else 0x30)) c.cid (fun c =>
    { c with result0 := w32 (r.1 + 256 * r.2) })

/-- A commit accepted: the slots are committed, PENDING is durable, each slot raises its event, and the sessions end. -/
def commitSlots (s : State) (c : Ctx) : State :=
  let named := fwComps c
  let quiet := compBit named 2 && (quietDiff s s.kf.imgBytes (setBytes s named 2)).isSome
  let t := putBoot s (fun b =>
    (comps named).foldl (fun b k => updSlot b (otherSlot b k) (fun x => { x with st := 4, reason := 0, section_ := 0, commitAet := s.cad.aet })) { b with pend := named })
  let t := updKf t (fun k =>
    { k with onShutdown := fwOnShutdown c, pendQuiet := quiet, sessions := k.sessions.filter (fun x => !compBit named x.component) })
  perform ((comps named).foldl (fun t k => raiseEvent t 7 1 (otherSlot s.kf.boot k) 0) t) c.cid (w32 named.toNat) 0

/-- FW_COMMIT (R459). -/
def execFwCommit (cid : Nat) (s : State) : Host.Outcome State Fault Refusal :=
  match keeperIn s cid 0x89 with
  | none => settled s
  | some c =>
    let named := fwComps c
    if s.kf.boot.pend != 0 || s.kf.boot.trial != 0 || (comps named).any (fun k => s.kf.sessions.all (fun x => x.component != k)) then
      settled (refuseNow s cid 0x1002 0x30)
    else
      match commitReject s named true with
      | some (comp, r) => settled (commitRefused s c comp r)
      | none => settled (commitSlots s c)

/-- FW_CONFIRM (R461): the trial ends, its slots are active, and the trial area is erased (R460). -/
def execFwConfirm (cid : Nat) (s : State) : Host.Outcome State Fault Refusal :=
  match keeperIn s cid 0x8A with
  | none => .next s
  | some _ =>
    if s.kf.boot.trial == 0 then .next (refuseNow s cid 0x1002 0xFF)
    else
      let t := putBoot s (fun b => (comps b.trial).foldl (fun r k => updSlot r (activeSlot r k) (fun x => { x with st := 3 })) { b with trial := 0 })
      .next (perform (updKf t (fun k => { k with mem := memErase k.mem 0x3DD0000 (16 * sectorSize) })) cid 0 0)

/-- FW_REVERT (R461): during a trial, with a commit pending, or a commit of the previous slots. -/
def execFwRevert (cid : Nat) (s : State) : Host.Outcome State Fault Refusal :=
  match keeperIn s cid 0x8B with
  | none => settled s
  | some c =>
    let named := fwComps c
    let b := s.kf.boot
    if b.trial != 0 then
      (if named != b.trial then settled (refuseNow s cid 0x1002 0x30)
       else settled (perform (updKf s (fun k => { k with onShutdown := fwOnShutdown c })) cid 0 0))
    else if b.pend != 0 then
      (if named != b.pend then settled (refuseNow s cid 0x1002 0x30)
       else
        let t := putBoot s (fun b => (comps named).foldl (fun r k => updSlot r (otherSlot r k) (fun x => { x with st := 1 })) { b with pend := 0 })
        settled (perform (updKf t (fun k => { k with onShutdown := false, pendQuiet := false })) cid 0 0))
    else if (comps named).any (fun k => (b.slots.getD (otherSlot b k) ⟨0, 0, 0, 0⟩).st != 1) then settled (refuseNow s cid 0x1002 0x30)
    else
      match commitReject s named false with
      | some (comp, r) => settled (commitRefused s c comp r)
      | none => settled (commitSlots s c)

end Sys2Proof.Machine
end

