-- ==== Sys2Proof/Machine/Features.lean ====
section
/-! DEFINITION. Features (R174 to R177): SET_FEATURE by feature, and GET_FEATURE. Namespaces created and deleted (R180, R181). -/
namespace Sys2Proof.Machine
open Sys2Proof

/-! ## Setting a feature -/

/-- Scope of a feature: 0 device-wide, 1 port A, 2 port B (Table 7-16). -/
def featureScope (f : Nat) (p : Port) : Nat := if 5 ≤ f && f ≤ 9 then portScope p else 0

/-- FEATURE_ID and MODE of an entry. -/
def eFeature (dw : List Word) : Nat := bits (eCdw dw 0) 7 0
def eMode (dw : List Word) : Nat := bits (eCdw dw 0) 9 8

/-- VALUE0 to VALUE2 as words. -/
def eValues (dw : List Word) : List Word := [w32 (eCdw dw 1), w32 (eCdw dw 2), w32 (eCdw dw 3)]

/-- A SET_FEATURE of one feature that may be performed: commands of one feature and scope are performed in CSN order (R175). -/
def featureIn (s : State) (cid f : Nat) : Option Ctx :=
  (ctxIn s cid 0x83).filter (fun c => c.stage == .admitted && readyFor s c && eFeature c.dw == f &&
    s.ctxs.all (fun x => !(x.stage == .admitted && x.queue == 0 && eOpcode x.dw == 0x83 && eFeature x.dw == f &&
      featureScope f x.port == featureScope f c.port && decide (x.csn < c.csn))))

/-- Saved values with one replaced or removed (R175). -/
def putSaved (l : List (Nat × Nat × List Word)) (scope f : Nat) (v : Option (List Word)) : List (Nat × Nat × List Word) :=
  l.filter (fun x => !(x.1 == scope && x.2.1 == f)) ++ (match v with | some w => [(scope, f, w)] | none => [])

/-- The saved value as MODE leaves it: 1 saves, 2 clears. -/
def saveValue (s : State) (c : Ctx) : State :=
  let f := eFeature c.dw
  let scope := featureScope f c.port
  if eMode c.dw == 1 then updKf s (fun k => { k with saved := putSaved k.saved scope f (some (eValues c.dw)) })
  else if eMode c.dw == 2 then updKf s (fun k => { k with saved := putSaved k.saved scope f none })
  else s

/-- A STATE frame of KIND 2 with the feature's words: VALUE0 to VALUE2, MODE, VALUE_ADDR, and the chunks of a host map region; per-port features
carry their scope above the number. -/
def featureRef (c : Ctx) (chunks : List Nat := []) : Nat × List Word :=
  (eFeature c.dw + 256 * featureScope (eFeature c.dw) c.port,
    eValues c.dw ++ [w32 (eMode c.dw), lo32 (eLba c.dw), hi32 (eLba c.dw)] ++ chunks.flatMap (fun a => [lo32 a, hi32 a]))

/-- A device-wide value waits for the partner's acknowledgement of its STATE frame before it takes effect (R406). -/
def featureMirrored (s : State) (c : Ctx) (go : State → State) : State :=
  if mirroring s && !c.mapAsked && featureScope (eFeature c.dw) c.port == 0 then
    let fseq := s.twin.txSeq
    let t := sendFrame s (.state { csn := c.csn, status := 0, kind := 2, result0 := 0, result1 := 0, feature := some (featureRef c), queue := none, log := none })
    updCtx t c.cid (fun c => { c with mapAsked := true, awaitAck := some fseq })
  else if c.mapAsked && !c.awaitAck.all (acked s) then s
  else go s

/-- A SET_FEATURE performed: its value in force unless MODE 2 only clears the saved one, and the saved value kept. -/
def setFeature (s : State) (cid f : Nat) (apply_ : State → Ctx → State) (chunks : List Nat := []) : State :=
  match featureIn s cid f with
  | none => s
  | some c =>
    featureMirrored s c (fun s =>
      let t := saveValue (if eMode c.dw == 2 then s else apply_ s c) c
      if featureScope f c.port == 0 then perform t cid 0 0 else performState t cid 2 0 0 (some (featureRef c chunks)))

/-- POWER_TIMERS from its words. -/
def applyTimers (s : State) (v0 v1 : Nat) : State :=
  { s with feat := { s.feat with t1 := bits v0 15 0, t2 := bits v0 31 16, t3 := bits v1 15 0, t4 := bits v1 31 16 } }

/-- SET_POWER_TIMERS (R466). -/
def execSetPowerTimers (cid : Nat) (s : State) : Host.Outcome State Fault Refusal :=
  .next (setFeature s cid 0x01 (fun s c => applyTimers s (eCdw c.dw 1) (eCdw c.dw 2)))

/-- A plan from its words (Table 3-2). -/
def planOf (v0 v1 v2 : Nat) : Plan where
  windowTicks := bits v0 8 0
  share := bits v0 22 16
  quiet := BitVec.ofNat 64 (v1 + 2 ^ 32 * v2)

/-- SET_CADENCE_PLAN (R67, R68): the plan waits for its tick. -/
def execSetCadencePlan (cid : Nat) (s : State) : Host.Outcome State Fault Refusal :=
  .next (setFeature s cid 0x02 (fun s c =>
    updCad s (fun x => { x with pendingPlan := some (planOf (eCdw c.dw 1) (eCdw c.dw 2) (eCdw c.dw 3)) })))

/-- PATROL_CYCLE in force: each profile's next cycle is due at the next grid point of its new interval (R76, R319). -/
def applyPatrolCycle (s : State) (days : Nat) : State :=
  let t := { s with feat := { s.feat with patrolDays := days } }
  (profileNums t).foldl (fun t p => updProf t p (fun q => { q with patrolNext := dueAfter q.patrolNext (aetSec t.cad.aet) (nextGrid (aetSec t.cad.aet) (3600 * cycleHours t p)) })) t

/-- SET_PATROL_CYCLE (R319). -/
def execSetPatrolCycle (cid : Nat) (s : State) : Host.Outcome State Fault Refusal :=
  .next (setFeature s cid 0x03 (fun s c => applyPatrolCycle s (eCdw c.dw 1)))

/-- SET_THERMAL_LIMITS (R176). -/
def execSetThermalLimits (cid : Nat) (s : State) : Host.Outcome State Fault Refusal :=
  .next (setFeature s cid 0x04 (fun s c =>
    { s with feat := { s.feat with throttlePoint := bits (eCdw c.dw 1) 7 0, throttleHyst := bits (eCdw c.dw 1) 15 8 } }))

/-- SET_HOST_MAP_REGION (R177): `chunks` is the list read from VALUE_ADDR. Chunks that are not 2 MiB aligned, or too many with the other
port's, refuse the command. -/
def execSetHostMapRegion (cid : Nat) (chunks : List Nat) (s : State) : Host.Outcome State Fault Refusal :=
  match featureIn s cid 0x05 with
  | none => .next s
  | some c =>
    let other := (portOf s (if c.port == .a then .b else .a)).hostMap.length
    if chunks.length != eCdw c.dw 1 then .next s
    else if 131072 < chunks.length + other then .next (refuseNow s cid 0x1002 0x34)
    else if chunks.any (fun a => a % 2097152 != 0) then .next (refuseNow s cid 0x1002 0x08)
    else .next (setFeature s cid 0x05 (fun s c => setHostMap s c.port (eLba c.dw) chunks) chunks)

/-- SET_INTERRUPT_COALESCING (R115): a queue's COUNT and TIME from its next posting; a queue whose CREATE_QUEUE is still to be performed is
waited for, and one that is no longer ACTIVE or FROZEN refuses it (R520). -/
def execSetInterruptCoalescing (cid : Nat) (s : State) : Host.Outcome State Fault Refusal :=
  match featureIn s cid 0x06 with
  | none => .next s
  | some c =>
    let q := bits (eCdw c.dw 1) 13 0
    if (queueOf s c.port q).isNone && (queueCommands s c.port q).any (fun x => eOpcode x.dw == 0x84 && decide (x.csn < c.csn)) then .next s
    else if !c.mapAsked && (judge520 s c.port c.dw).isSome then .next (refuseNow s cid 0x1002 0x34)
    else
      .next (setFeature s cid 0x06 (fun s c =>
        updQueue s c.port q (fun k => { k with coalCount := bits (eCdw c.dw 2) 7 0, coalTime := bits (eCdw c.dw 2) 23 8 })))

/-- SET_ARBITRATION (R100). -/
def execSetArbitration (cid : Nat) (s : State) : Host.Outcome State Fault Refusal :=
  .next (setFeature s cid 0x07 (fun s c => updPort s c.port (fun x => applyArb x (eCdw c.dw 1))))

/-- SET_ONION_SHELF (R177, R421). -/
def execSetOnionShelf (cid : Nat) (s : State) : Host.Outcome State Fault Refusal :=
  .next (setFeature s cid 0x08 (fun s c =>
    setShelf s c.port (if eCdw c.dw 1 == 0 then none else some { base := eLba c.dw, units := eCdw c.dw 1 })))

/-- SET_EVENT_MASK (R179). -/
def execSetEventMask (cid : Nat) (s : State) : Host.Outcome State Fault Refusal :=
  .next (setFeature s cid 0x09 (fun s c => updPort s c.port (fun x => { x with eventMask := w32 (eCdw c.dw 1) })))

/-- JOURNAL_INTERVAL in force: the next flush is due at the next grid point of the new interval, a late one at once (R76). -/
def applyJournalInterval (s : State) (ticks : Nat) : State :=
  let t := { s with feat := { s.feat with journalTicks := ticks } }
  updCad t (fun c => { c with journalTicks := ticks, journalDue := dueAfter c.journalDue (nowT s) (nextGrid (nowT s) (Nat.max ticks 1)) })

/-- SET_JOURNAL_INTERVAL (R76). -/
def execSetJournalInterval (cid : Nat) (s : State) : Host.Outcome State Fault Refusal :=
  .next (setFeature s cid 0x0A (fun s c => applyJournalInterval s (eCdw c.dw 1)))

/-- SET_REBUILD_SHARE (R355). -/
def execSetRebuildShare (cid : Nat) (s : State) : Host.Outcome State Fault Refusal :=
  .next (setFeature s cid 0x0B (fun s c => { s with feat := { s.feat with rebuildShare := eCdw c.dw 1 } }))

/-- SET_HORIZON_MINIMUM (R318, R332): the horizon is recomputed. -/
def execSetHorizonMinimum (cid : Nat) (s : State) : Host.Outcome State Fault Refusal :=
  settled (setFeature s cid 0x0C (fun s c => recomputeHorizon { s with feat := { s.feat with horizonMin := eCdw c.dw 1 } }))

/-- SET_ARCHIVE_TIME (R61, R62): an AET set submitted; the command is performed with the set, or as replaced. -/
def execSetArchiveTime (cid : Nat) (s : State) : Host.Outcome State Fault Refusal :=
  match featureIn s cid 0x0D with
  | none => .next s
  | some c =>
    if (s.cad.pendingSet.bind (·.cid)) == some cid || s.cad.replaced.contains cid then .next s
    else
      .next (featureMirrored s c (fun s =>
        submitSet s { value := eCdw c.dw 1 + 2 ^ 32 * eCdw c.dw 2, force := bits (eCdw c.dw 3) 0 0 == 1, cid := some cid }))

/-- SET_USER_CALIBRATION (R453): a new overlay copy with the item replaced; on any chip, mirrored to none (R390, R406). -/
def execSetUserCalibration (cid : Nat) (s : State) : Host.Outcome State Fault Refusal :=
  match keeperIn s cid 0x83 with
  | none => .next s
  | some c =>
    if eFeature c.dw != 0x0E then .next s
    else
      let items := putItem (eCdw c.dw 1) (int32 (eCdw c.dw 2)) s.kf.overlay
      let seq := s.kf.ovlSeq + 1
      let t := updKf s (fun k => { k with mem := appendOverlay k.mem (overlayBytes seq items), overlay := items, ovlSeq := seq })
      .next (perform t cid 0 0)

/-! ## GET_FEATURE (R174) -/

/-- VALUE_ADDR and VALUE0 to VALUE2 of a feature. -/
abbrev FeatVal := Nat × Nat × Nat × Nat

/-- A plan as VALUE0 to VALUE2. -/
def planVal (p : Plan) : FeatVal := (0, (planWord p).toNat, p.quiet.toNat % 2 ^ 32, p.quiet.toNat / 2 ^ 32)

/-- A signed value as 32 bits of VALUE1, for an item. -/
def calVal (item : Nat) (v : Option Int) : FeatVal := (0, item, s32 (v.getD 0), 0)

/-- The value in force (Table 7-16). A pending plan is not yet in force (R68). -/
def currentVal (s : State) (p : Port) (f sel : Nat) : FeatVal :=
  let x := portOf s p
  match f with
  | 0x01 => (0, s.feat.t1 + 65536 * s.feat.t2, s.feat.t3 + 65536 * s.feat.t4, 0)
  | 0x02 => planVal s.cad.plan
  | 0x03 => (0, s.feat.patrolDays, 0, 0)
  | 0x04 => (0, s.feat.throttlePoint + 256 * s.feat.throttleHyst, 0, 0)
  | 0x05 => (x.hostMapAddr, x.hostMap.length, 0, 0)
  | 0x06 => match queueOf s p sel with
    | some k => (0, sel, k.coalCount + 256 * k.coalTime, 0)
    | none => (0, sel, 0, 0)
  | 0x07 => (0, x.arbHigh + 256 * x.arbMedium + 65536 * x.arbLow + 2 ^ 24 * x.arbBurst, 0, 0)
  | 0x08 => match x.shelf with
    | some h => (h.base, h.units, 0, 0)
    | none => (0, 0, 0, 0)
  | 0x09 => (0, x.eventMask.toNat, 0, 0)
  | 0x0A => (0, s.feat.journalTicks, 0, 0)
  | 0x0B => (0, s.feat.rebuildShare, 0, 0)
  | 0x0C => (0, s.feat.horizonMin, 0, 0)
  | 0x0D => (0, s.cad.aet % 2 ^ 32, s.cad.aet / 2 ^ 32, b2n s.cad.aetValid)
  | _ => calVal sel (itemOf s.kf.effective sel)

/-- The default (Table 7-16); ARCHIVE_TIME has none and answers the current AET. -/
def defaultVal (s : State) (p : Port) (f sel : Nat) : FeatVal :=
  let i := s.kf.img
  match f with
  | 0x01 => (0, 10 + 65536 * 50, 0, 0)
  | 0x02 => planVal ⟨i.windowTicks, i.share, i.quiet⟩
  | 0x03 => (0, i.patrolDays, 0, 0)
  | 0x04 => (0, 100 + 256 * 5, 0, 0)
  | 0x05 | 0x08 | 0x09 => (0, 0, 0, 0)
  | 0x06 => match queueOf s p sel with
    | some k => (0, sel, k.createdCount + 256 * k.createdTime, 0)
    | none => (0, sel, 0, 0)
  | 0x07 => (0, defaultArb, 0, 0)
  | 0x0A => (0, i.journalTicks, 0, 0)
  | 0x0B => (0, 50, 0, 0)
  | 0x0C => (0, 365, 0, 0)
  | 0x0D => currentVal s p f sel
  | _ => calVal sel (itemOf s.kf.factory sel)

/-- The value that SELECT names: 0 current, 1 default, 2 saved or else default; USER_CALIBRATION answers effective, factory, overlay. -/
def selectedVal (s : State) (p : Port) (f sel select : Nat) : FeatVal :=
  if select == 0 then currentVal s p f sel
  else if select == 2 && f == 0x0E then calVal sel (itemOf s.kf.overlay sel)
  else
    match (if select == 2 then savedOf s (featureScope f p) f else none) with
    | some w => (0, (w.getD 0 0).toNat, (w.getD 1 0).toNat, (w.getD 2 0).toNat)
    | none => defaultVal s p f sel

/-- The 32-byte record that GET_FEATURE writes to EXT0. -/
def featureRecord (v : FeatVal) (saved : Bool) : List Byte :=
  leBytes 8 v.1 ++ leBytes 4 v.2.1 ++ leBytes 4 v.2.2.1 ++ leBytes 4 v.2.2.2 ++ leBytes 4 (b2n saved) ++ zeros 8

/-- GET_FEATURE: VALUE0 and VALUE1 as results, and the record where EXT0_LEN is 32. -/
def execGetFeature (cid : Nat) (s : State) : Host.Outcome State Fault Refusal :=
  match ctxIn s cid 0x82 with
  | none => .next s
  | some c =>
    let f := eFeature c.dw
    let v := selectedVal s c.port f (eCdw c.dw 1) (eMode c.dw)
    let saved := (savedOf s (featureScope f c.port) f).isSome
    if eExtLen c.dw == 32 then
      (if keeperHalted s then .next (decide_ s cid { status := 0x5002, origin := 5 })
       else .next (perform (deliver s c.port [(eExtAddr c.dw, 32)] (featureRecord v saved)) cid (w32 v.2.1) (w32 v.2.2.1)))
    else .next (perform s cid (w32 v.2.1) (w32 v.2.2.1))

/-! ## Namespaces (R180, R181) -/

/-- A command's own record journalled once; its completion waits for the acknowledgement where a partner mirrors it. -/
def journalOnce (s : State) (c : Ctx) (body : JRec) : State :=
  if c.mapAsked then s
  else
    let fseq := s.twin.txSeq
    let waits := mirroring s
    updCtx (journal s body) c.cid (fun c => { c with mapAsked := true, awaitAck := if waits then some fseq else none })

/-- The record of a command is durable. -/
def recordDurable (s : State) (cid : Nat) : Bool := ((ctxOf s cid).map (fun c => c.mapAsked && c.awaitAck.all (acked s))).getD false

/-- A namespace whose creation is refused when it would be performed exists no more. -/
def dropCreating (s : State) (n : Nat) : State :=
  updMap s (fun i => { i with nss := i.nss.filter (fun x => !(x.nsid == n && x.st == .creating)) })

/-- A namespace whose deletion is refused when it would be performed is ready again. -/
def keepDeleting (s : State) (n : Nat) : State :=
  updMap s (fun i => { i with nss := i.nss.map (fun x => if x.nsid == n && x.st == .deleting then { x with st := .ready } else x) })

/-- NAMESPACE_CREATE (R180): performed when its record is durable; the namespace is ready, every block unwritten. One that finds WRITE_SEALED set
or too few segments when it comes to be performed is refused (R520). -/
def execNamespaceCreate (cid : Nat) (s : State) : Host.Outcome State Fault Refusal :=
  match (ctxIn s cid 0x8C).filter (fun c => c.stage == .admitted && readyFor s c) with
  | none => .next s
  | some c =>
    let n := bits (eCdw c.dw 0) 7 0
    let others := allocatedSegments s - eCdw c.dw 1
    if !c.mapAsked && sealedSet s then .next (refuseNow (dropCreating s n) cid 0x4002 0xFF)
    else if !c.mapAsked && userSegments s < others + eCdw c.dw 1 then .next (refuseNow (dropCreating s n) cid 0x4001 0xFF)
    else
    let body : JRec := .nspace c.csn n true (bits (eCdw c.dw 0) 9 8) (bits (eCdw c.dw 0) 12 12 == 1) (eCdw c.dw 1) s.cad.aet
    let t := journalOnce s c body
    if recordDurable t cid then .next (perform (updMap t (fun i => applyRec i t.jrnl.nextSeq body)) cid (w32 n) 0) else .next t

/-- A command names a namespace as source or destination. -/
def namesNamespace (dw : List Word) (n : Nat) : Bool :=
  (usesRange (eOpcode dw) && eNs dw == n) || (eOpcode dw == 0x0C && bits (eCdw dw 0) 7 0 == n)

/-- Copies of a namespace's tiles and entries held by the caches and tiers are dropped. -/
def dropCopies (e : MapEng) (n : Nat) : MapEng :=
  { e with
    tc := e.tc.filter (fun w => keyOfWay w / 2 ^ 38 != n - 1)
    dram := e.dram.filter (fun f => f.ns != n)
    hostTier := e.hostTier.filter (fun f => f.ns != n) }

/-- NAMESPACE_DELETE (R181): once every command with a lower CSN that names the namespace is performed, the removal of its segments is
journalled; durable, the NSID is free. -/
def execNamespaceDelete (cid : Nat) (s : State) : Host.Outcome State Fault Refusal :=
  match (ctxIn s cid 0x8D).filter (fun c => c.stage == .admitted && readyFor s c) with
  | none => .next s
  | some c =>
    let n := bits (eCdw c.dw 0) 7 0
    if s.ctxs.any (fun x => x.stage == .admitted && decide (x.csn < c.csn) && namesNamespace x.dw n) then .next s
    else if !c.mapAsked && sealedSet s then .next (refuseNow (keepDeleting s n) cid 0x4002 0xFF)
    else
      let body : JRec := .nspace c.csn n false 0 false 0 s.cad.aet
      let t := journalOnce s c body
      if recordDurable t cid then
        .next (settleFull (perform (updEng (updMap t (fun i => applyRec i t.jrnl.nextSeq body)) (fun e => dropCopies e n)) cid 0 0))
      else .next t

end Sys2Proof.Machine
end

