-- ==== Sys2Proof/Machine/Journal.lean ====
section
/-! DEFINITION. Journal flushes (R246) and checkpoints (R247 to R249, R262, R280, R357, R375). -/
namespace Sys2Proof.Machine
open Sys2Proof

/-! ## Journal flush (R246) -/

/-- Durable records that no JOURNAL page holds. -/
def unflushed (s : State) : List StagedRec :=
  s.jrnl.recs.filter (fun r => r.durable && !r.onMedium && !s.jrnl.flights.any (fun f => spanHas f r.jseq))

/-- JSEQ, first byte and end of each record where records are packed one after the other (R244). -/
def layRecs (s : State) : Nat → List StagedRec → List (Nat × Nat × Nat)
  | _, [] => []
  | at_, r :: rs => let n := (recBytes s r).length; (r.jseq, at_, at_ + n) :: layRecs s (at_ + n) rs

/-- Bytes of the records to flush. -/
def unflushedBytes (s : State) : Nat := (recsBytes s (unflushed s)).length

/-- Slots that an open set can take now: its filling row's and those of the rows that a stripe-journal record covers. -/
def slotsReady (s : State) (o : OpenSet) (k : SetRec) : Nat :=
  if o.closing || !o.headersLeft.isEmpty then 0
  else (Nat.min k.rows (if o.limitRow == k.rows then k.rows else o.limitRow - reserveRows s k) - o.nextRow) * rowSlots k + ((fillingRow o k).map (fun r => rowSlots k - r.next)).getD 0

/-- The flight of a row: the first and last JSEQ with bytes in the slots placed there. -/
def rowFlight (seq row : Nat) (slots : List Nat) (lay : List (Nat × Nat × Nat)) : List (Nat × Nat × Nat × Nat) :=
  let js := (lay.filter (fun x => slots.any (fun i => decide (x.2.1 < 4096 * (i + 1)) && decide (4096 * i < x.2.2)))).map (·.1)
  match js with
  | [] => []
  | j :: rest => [(seq, row, rest.foldl Nat.min j, rest.foldl Nat.max j)]

/-- Records flushed into one SYSTEM set, as many as it takes whole (R244); none where it takes none. -/
def flushInto (s : State) (seq : Nat) : Option State :=
  let t := alignPage s seq 1
  match openOf t seq, setOf t seq with
  | some o, some k =>
    let all := unflushed t
    let fit := (layRecs t 0 all).filter (fun x => decide (x.2.2 ≤ 4096 * slotsReady t o k))
    if fit.isEmpty then none
    else
      let bytes := recsBytes t (all.take fit.length)
      let slots := (List.range (ceilDiv bytes.length 4096)).map (fun i =>
        (((fit.filter (fun x => decide (x.2.1 < 4096 * (i + 1)))).getLast?.map (·.1)).getD 0, padTo 4096 (slice bytes (4096 * i) 4096)))
      (placeRun t seq 4 1 slots).map (fun z =>
        let rows := (z.2.map (·.1)).foldl (fun l r => if l.contains r then l else l ++ [r]) []
        let new := rows.flatMap (fun r => rowFlight seq r ((List.range z.2.length).filter (fun i => (z.2.map (·.1)).getD i 0 == r)) fit)
        updJrnl (alignPage z.1 seq 1) (fun j => { j with flights := j.flights ++ new }))
  | _, _ => none

/-- Every durable record flushed, set after set, as far as the open SYSTEM sets take them. -/
def flushAll (s : State) : State :=
  (systemSets s).foldl (fun t ok => if (unflushed t).isEmpty then t else (flushInto t ok.1.seq).getD t) s

/-- A flush made: on the grid its next point follows (R246, R76). -/
def flushJournal (s : State) : State :=
  let t := flushAll s
  if !(unflushed s).isEmpty && (unflushed t).length == (unflushed s).length then s
  else if s.cad.journalDue ≤ nowT s then updCad t (fun c => { c with journalDue := nextDue (nowT s) c.journalTicks })
  else t

/-- JOURNAL_FLUSH (R246, R251, R76): at a grid point, or off the grid when more than 4 MiB wait or the hold-up payload would not fit its
reserve. -/
def execJournalFlush (s : State) : Host.Outcome State Fault Refusal :=
  let due := decide (s.cad.journalDue ≤ nowT s) || decide (4194304 < unflushedBytes s) || !holdupFits s 0 0
  if s.jrnl.stopFrom.isSome || !isOwner s || !due then .next s else .next (settleFull (flushJournal s))

/-! ## Starting a checkpoint (R247, R248) -/

/-- Tiles dirty since a JSEQ no higher than n. -/
def dirtyTiles (s : State) (n : Nat) : List (Nat × Nat) :=
  s.map.segs.filterMap (fun x => match x.kind with
    | .fine t => if (t.dirtySince.map (fun d => decide (d ≤ n))).getD false then some (x.ns, x.seg) else none
    | .coarse _ => none)

/-- Tiles written back, those whose writeback waits already left alone. -/
def writeTiles (s : State) (l : List (Nat × Nat)) : State :=
  l.foldl (fun t x => if segAsked t x.1 x.2 then t else writeTile t x.1 x.2) s

/-- Columns of a failed member still lack somewhere (R357). -/
def failLacks (s : State) (m : MemberFail) : Bool :=
  (liveSets s).any (fun k => decide (0 < setLacking s k) && k.cols.any (fun c =>
    c.2.bay == m.bay && colDown s k c.2 && (m.die.map (fun d => dieNum (dieOf c.2) == d)).getD true))

/-- What each checkpoint journals again (R357, Table 15-4). -/
def rejournal (s : State) : State :=
  let t := (s.media.fails.filter (failLacks s)).foldl (fun t m => journal t (.memberFail m.bay m.die m.profile m.uid)) s
  let t := if flag t.cond bDegraded then journal t (.rebuildState t.media.rebuild t.media.rowsDone) else t
  let evac := t.media.bays.filter (fun b => b.st == .evacuating)
  let left := (evacList t).length
  let t := evac.foldl (fun t b => journal t (.bayState b.bay 5 5 b.profile b.uid)) t
  evac.foldl (fun t b => journal t (.evacProgress b.bay left)) t

/-- A shutdown leaves nothing at work: no enabled port but one that is shutting down, and no admitted command (R262). -/
def allStopping (s : State) : Bool :=
  [Port.a, Port.b].all (fun p => !(portOf s p).enable || (portOf s p).shutdownState != 0) && !anyAdmitted s &&
    !(portOf s .a).draining && !(portOf s .b).draining

/-- Nothing is dirty, asked of the map, running on a die or unsettled (R262). -/
def atRest (s : State) : Bool :=
  (dirtyTiles s s.jrnl.nextSeq).isEmpty && s.eng.reqs.isEmpty && s.media.opens.all (fun o => o.rows.all (·.settled)) &&
    !anyOp s (fun _ => true)

/-- The part is at rest and every record is flushed. -/
def quiesced (s : State) : Bool := atRest s && (unflushed s).isEmpty

/-- The filling row of an open set padded, with PAD pages as far beyond its last row as settling needs (R219, R230); rows so reached are not
used. -/
def padToSettle (s : State) (seq : Nat) : State :=
  match openOf s seq, setOf s seq with
  | some o, some k =>
    if o.rows.all (·.settled) then s
    else
      let top := o.rows.foldl (fun n r => Nat.max n r.row) 0
      let pair := k.cols.foldl (fun n c => Nat.max n (((bayProfile s c.2.bay).map (·.dPair)).getD 0)) 0
      let t := padPair (padOpenRow s seq) k (some top)
      updOpen t seq (fun o => { o with nextRow := Nat.min k.rows (Nat.max o.nextRow (top + 1 + ceilDiv pair k.stripeUnit)) })
  | _, _ => s

/-- A step towards that: dirty tiles are written back, records flushed, open rows padded. -/
def quiesce (s : State) : State :=
  let t := flushAll (writeTiles s (dirtyTiles s s.jrnl.nextSeq))
  if t.eng.reqs.isEmpty then t.media.opens.foldl (fun t o => padToSettle t o.seq) t else t

/-- Every command of a port that shuts down is completed and its completion posted (R89). -/
def portEmptied (s : State) (p : Port) : Bool := (portCtxs s p).all (fun c => c.stage == .fetched)

/-- The checkpoint that a port's shutdown waits for is written. -/
def shutdownWritten (s : State) (p : Port) : Bool :=
  (portOf s p).shutdownCkpt.any (fun n => s.jrnl.newest.any (fun k => decide (n ≤ k.seq)))

/-- A port's shutdown needs a checkpoint to start: none has started since its commands ended, or the one that was to leave the whole part
clean did not (R89, R262). -/
def shutdownAsks (s : State) (p : Port) : Bool :=
  (portOf s p).shutdownState == 1 && portEmptied s p &&
    ((portOf s p).shutdownCkpt.isNone || (shutdownWritten s p && allStopping s && !s.jrnl.cleanStands))

/-- A trigger has come: a grid point, 4 GiB of host data, or one that was asked (R247). -/
def ckptTriggered (s : State) (g : CkptTrigger) : Bool :=
  match g with
  | .grid => decide (s.cad.ckptDue ≤ s.cad.aet)
  | .hostData => decide (4294967296 ≤ s.jrnl.hostBytes)
  | .shutdown => shutdownAsks s .a || shutdownAsks s .b
  | .restartEnd | .bayChange => s.jrnl.waiting.contains g

/-- The first row of an open set that is not settled (SCAN_ROW). -/
def scanRow (o : OpenSet) : Nat := ((o.rows.filter (fun r => !r.settled)).map (·.row)).foldl Nat.min o.nextRow

/-- Open sets with SCAN_ROW (R249). -/
def openScan (s : State) : List (Nat × Nat) := s.media.opens.map (fun o => (o.seq, scanRow o))

/-- What the root tells of the cut (Table 10-4). -/
def cutOf (s : State) : CkptCut where
  aet := s.cad.aet
  csnLast := lastCsn s
  bays := (List.range 16).map (uidOf s)
  img := s.map
  opens := openScan s

/-- A checkpoint started: the cut, then the records journalled again after it; the tiles it needs are written back. A clean one journals
nothing after its cut but its CHECKPOINT record, so what it has to say again comes before (R262). -/
def beginCkpt (s : State) (g : CkptTrigger) (clean : Bool) : State :=
  let s := if clean then rejournal s else s
  let cut := highestDurable s
  let t := updJrnl s (fun j =>
    { j with running := some { trigger := g, clean := clean, captured := none, at_ := cutOf s }, cut := cut, hostBytes := 0, waiting := j.waiting.filter (fun x => x != g) })
  let note (t : State) (p : Port) : State :=
    if g == .shutdown && shutdownAsks s p then updPort t p (fun x => { x with shutdownCkpt := some s.jrnl.nextCkpt }) else t
  let t := note (note t .a) .b
  let t := if g == .grid then updCad t (fun c => { c with ckptDue := ckptAfter c.aet }) else t
  let t := if clean then t else rejournal t
  writeTiles (if clean || s.kf.restartStep != 0 then t else rewriteTables t) (dirtyTiles s (lastCut s))

/-- A checkpoint runs until its CHECKPOINT record is durable (R248). -/
def ckptBusy (s : State) : Bool := s.jrnl.running.isSome || s.jrnl.written.isSome

/-- CHECKPOINT_START (R247, R248): a trigger starts a checkpoint; one that comes while a checkpoint runs waits for its end. The checkpoint
of a whole shutdown first brings everything to rest (R262). A flush due on the same tick runs first (R246). -/
def execCheckpointStart (trigger : CkptTrigger) (s : State) : Host.Outcome State Fault Refusal :=
  if s.jrnl.stopFrom.isSome || !isOwner s || s.kf.restartStep != 0 || !ckptTriggered s trigger || s.jrnl.cleanStands then .next s
  else if ckptBusy s then .next (askCkpt s trigger)
  else
    let clean := trigger == .shutdown && allStopping s
    if clean && !quiesced s then .next (settleFull (quiesce s))
    else .next (settleFull (beginCkpt (if s.cad.journalDue ≤ nowT s then flushJournal s else s) trigger clean))

/-! ## Pieces, index and root (R248, R249) -/

/-- Entries of one directory block that are not UNWRITTEN. -/
def dirBlockSegs (i : MapImg) (ns n : Nat) : List Seg := i.segs.filter (fun x => x.ns == ns && x.seg / 8192 == n)

/-- Directory blocks in use: number, namespace and place in its list, in the order of the directory root: namespaces by NSID (R199,
assumption 51). -/
def dirBlocks (i : MapImg) : List (Nat × Nat × Nat) :=
  (sortBy (fun a b => decide (a.nsid ≤ b.nsid)) i.nss).flatMap (fun x => (x.dirs.zip (List.range x.dirs.length)).map (fun d => (d.1, x.nsid, d.2)))

/-- The blocks of the bays of a BAY_TABLE in the order of their index: by MADR[47:20] (R249). -/
def blockIndex (s : State) (table : List Nat) : List Madr :=
  ((List.range 16).zip table).flatMap (fun x => if x.2 == 0 then [] else sortedBlocks s x.1)

/-- The content of a block-table piece. -/
def blockPiece (i : MapImg) (index : List Madr) (n : Nat) : List Byte :=
  padTo 65536 (((index.drop (4096 * n)).take 4096).flatMap (fun b => blockEntry i (imgBlk i b)))

/-- The content of the LOST_LBA pieces: 32-byte entries. -/
def lostPiece (i : MapImg) (n : Nat) : List Byte :=
  padTo 4096 (((i.lost.drop (128 * n)).take 128).flatMap (fun x =>
    byte1 x.ns ++ zeros 7 ++ leBytes 8 x.lba ++ leBytes 4 x.count ++ zeros 4 ++ leBytes 8 x.aet))

/-- The content of an OPEN_SETS piece: 128 open sets with SCAN_ROW. -/
def openPiece (s : State) (l : List (Nat × Nat)) : List Byte :=
  padTo 4096 (l.flatMap (fun o => match setOf s o.1 with
    | some k => openSetEntry k o.2
    | none => []))

/-- The content of the directory root: the block number of each list element (R199). -/
def dirRootBytes (i : MapImg) : List Byte := padTo 524288 ((dirBlocks i).flatMap (fun d => leBytes 4 d.1))

/-- A piece to be written: KIND, PIECE_NUMBER, bytes. -/
abbrev PieceOut := Nat × Nat × List Byte

/-- Part n of a list, so many elements long. -/
def partOf {α : Type} (size n : Nat) (l : List α) : List α := (l.drop (size * n)).take size

/-- A piece differs from what it was at an earlier map and earlier open sets. -/
def dirChanged (i o : MapImg) (d : Nat × Nat × Nat) : Bool :=
  !(dirBlocks o).contains d || dirBlockSegs o d.2.1 d.2.2 != dirBlockSegs i d.2.1 d.2.2
def blocksChanged (i o : MapImg) (bs : List Madr) : Bool := bs.any (fun b => blockEntry o (imgBlk o b) != blockEntry i (imgBlk i b))

/-- Every piece that has changed since CUT_JSEQ of the last checkpoint: what differs from the map at that cut or from what that checkpoint
captured (R248 step 3, assumption 53). -/
def changedPieces (s : State) (table : List Nat) : List PieceOut :=
  let i := s.map
  let olds := match s.jrnl.newest with | some k => [k.at_.img, k.img] | none => []
  let opensWere := match s.jrnl.newest with | some k => [k.at_.opens, k.opens] | none => []
  let index := blockIndex s table
  let moved := (s.jrnl.newest.map (fun k => k.at_.bays)) != some table
  let changed (f : MapImg → Bool) : Bool := olds.isEmpty || olds.any f
  let d := (dirBlocks i).filter (fun x => changed (fun o => dirChanged i o x))
  let b := (List.range (ceilDiv index.length 4096)).filter (fun n => moved || changed (fun o => blocksChanged i o (partOf 4096 n index)))
  let l := (List.range (ceilDiv i.lost.length 128)).filter (fun n => changed (fun o => partOf 128 n o.lost != partOf 128 n i.lost))
  let opens := openScan s
  let p := (List.range (ceilDiv opens.length 128)).filter (fun n =>
    opensWere.isEmpty || opensWere.any (fun o => partOf 128 n o != partOf 128 n opens))
  (d.map (fun x => (1, x.1, directoryBlock i x.2.1 x.2.2)))
    ++ (b.map (fun n => (2, n, blockPiece i index n)))
    ++ (if changed (fun o => dirBlocks o != dirBlocks i) then [(3, 0, dirRootBytes i)] else [])
    ++ (l.map (fun n => (4, n, lostPiece i n)))
    ++ (p.map (fun n => (5, n, openPiece s (partOf 128 n opens))))

/-- A piece of an earlier checkpoint still is a piece of the map: its directory block is in use, or its part of a table is. -/
def pieceUsed (s : State) (table : List Nat) (x : PieceRef) : Bool :=
  match x.kind with
  | 1 => (dirBlocks s.map).any (fun d => d.1 == x.number)
  | 2 => decide (x.number < ceilDiv (blockIndex s table).length 4096)
  | 4 => decide (x.number < ceilDiv s.map.lost.length 128)
  | 5 => decide (x.number < ceilDiv s.media.opens.length 128)
  | _ => true

/-- Pieces of the index: the new ones, and those of the last checkpoint that have not changed and are still of use. -/
def mergePieces (keep : PieceRef → Bool) (old new : List PieceRef) : List PieceRef :=
  old.filter (fun x => !new.any (fun y => y.kind == x.kind && y.number == x.number) && keep x) ++ new

/-- JOURNAL_SET entries: the first JOURNAL slot of each set that holds records from a JSEQ on (Table 10-5). -/
def journalSets (s : State) (from_ : Nat) : List Madr :=
  s.map.sets.filterMap (fun k =>
    ((s.media.pages.filter (fun p => p.seq == k.seq && p.kind == 4 && p.slots.any (fun x => decide (from_ ≤ x.csn)))).head?).map (·.addr))

/-- The index's bytes (Table 10-5). -/
def indexBytes (ps : List PieceRef) (js : List Madr) : List Byte :=
  ps.flatMap (fun x => madrBytes x.madr ++ byte1 x.kind ++ zeros 1 ++ leBytes 4 x.number ++ zeros 4 ++ leBytes 8 x.capture ++ zeros 8)
    ++ ((List.range js.length).zip js).flatMap (fun x => madrBytes x.2 ++ byte1 6 ++ zeros 1 ++ leBytes 4 x.1 ++ zeros 4 ++ zeros 8 ++ zeros 8)

/-- The root that a checkpoint writes: AET, CSN_LAST and BAY_TABLE are those of its cut (Table 10-4). -/
def ckptOf (s : State) (at_ : CkptCut) (c : CkptCapture) (clean : Bool) (root : Madr) (pieces : List PieceRef) : Ckpt where
  seq := s.jrnl.nextCkpt
  clean := clean
  aet := at_.aet
  cut := s.jrnl.cut
  replayFrom := lastCut s + 1
  csnReservedHigh := s.csnBlock
  csnLast := at_.csnLast
  blockSeqHigh := s.media.blockSeqHigh
  root := root
  capture := c.jseq
  pieces := pieces
  img := c.img
  opens := c.opens
  at_ := at_

/-! ### Writing the pieces -/

/-- The pages of every open SYSTEM set closed off, so that what follows begins a page of its own kind. -/
def alignSystem (s : State) : State := (openSetsOf s .system).foldl (fun t ok => alignPage t ok.1.seq 1) s

/-- The capture (R248 step 3): once the tiles are written back, every changed piece is taken in one turn. -/
def captureCkpt (s : State) (r : CkptRun) : CkptRun :=
  if r.captured.isSome || !(dirtyTiles s (lastCut s)).isEmpty then r
  else
    { r with
      captured := some
        { jseq := s.jrnl.nextSeq - 1, img := s.map, opens := openScan s
          root := none
          pieces := (changedPieces s r.at_.bays).map (fun x => { kind := x.1, number := x.2.1, bytes := x.2.2, placed := none, count := 0, nextRow := 0 }) } }

/-- Slots of a piece, each with the checkpoint's number. -/
def pieceSlots (ck : Nat) (x : CkptPiece) : List (Nat × List Byte) :=
  (List.range (ceilDiv x.bytes.length 4096)).map (fun n => (ck, padTo 4096 (slice x.bytes (4096 * n) 4096)))

/-- A piece is written: every slot of it is placed, and no row of it was abandoned. -/
def pieceStands (s : State) (x : CkptPiece) : Bool :=
  x.placed.any (fun a => decide (x.bytes.length ≤ 4096 * x.count) && !slotAbandoned s a.2)

/-- The slots of a piece that a SYSTEM set takes, from those placed so far on. -/
def growPiece (s : State) (seq : Nat) (x : CkptPiece) : State × CkptPiece :=
  let z := placeMany s seq 5 1 ((pieceSlots s.jrnl.nextCkpt x).drop x.count)
  match z.2 with
  | [] => (s, x)
  | a :: rest =>
    (z.1, { x with
      placed := some (((x.placed.map (·.1)).getD a.2), (rest.getLast?.getD a).2), count := x.count + rest.length + 1
      nextRow := ((openOf z.1 seq).map (·.nextRow)).getD 0 })

/-- The set in which an unfinished piece goes on: nothing else was placed there since. -/
def goesOnIn (s : State) (x : CkptPiece) : Option Nat :=
  (x.placed.bind (fun a => if slotAbandoned s a.2 then none else setAt s.map a.1)).bind (fun k =>
    match openOf s k.seq with
    | some o => if !o.closing && !k.closed && (fillingRow o k).isNone && o.nextRow == x.nextRow then some k.seq else none
    | none => none)

/-- A piece placed in consecutive data slots of one SYSTEM set, as far as the set takes it now; one that cannot go on begins anew. -/
def placePiece (s : State) (x : CkptPiece) : State × CkptPiece :=
  if pieceStands s x then (s, x)
  else
    match goesOnIn s x with
    | some seq => growPiece s seq x
    | none =>
      let x := { x with placed := none, count := 0 }
      (openSetsOf s .system).foldl (fun y ok => if y.2.count == 0 then growPiece y.1 ok.1.seq y.2 else y) (s, x)

/-- Every piece that is not written placed, one after the other, as far as the sets take them. -/
def placePieces : State → List CkptPiece → State × List CkptPiece
  | s, [] => (s, [])
  | s, x :: xs =>
    let y := placePiece s x
    if !pieceStands y.1 y.2 then (y.1, y.2 :: xs)
    else
      let z := placePieces y.1 xs
      (z.1, y.2 :: z.2)

/-- Rows of an open set that hold pieces of the checkpoint and are not settled. -/
def pieceRows (s : State) (o : OpenSet) : List Nat :=
  (o.rows.filter (fun r => !r.settled && s.media.pages.any (fun p =>
    p.seq == o.seq && p.row == r.row && p.kind == 5 && p.slots.any (fun x => x.csn == s.jrnl.nextCkpt)))).map (·.row)

/-- Rows that hold pieces of the checkpoint are all settled. -/
def piecesSettled (s : State) : Bool := s.media.opens.all (fun o => (pieceRows s o).isEmpty)

/-- Where nothing else fills the rows that hold pieces, they are padded, and PAD rows follow as far as settling needs (R219, R230). -/
def pushRow (s : State) (seq : Nat) : State :=
  match openOf s seq, setOf s seq with
  | some o, some k =>
    match pieceRows s o with
    | [] => s
    | r :: rs =>
      let top := rs.foldl Nat.max r
      let pair := k.cols.foldl (fun n c => Nat.max n (((bayProfile s c.2.bay).map (·.dPair)).getD 0)) 0
      let t := padOpenRow s seq
      if mayStartRow t o k && keepsReserve t o k && decide (o.nextRow ≤ top + ceilDiv pair k.stripeUnit) && (fillingRow o k).isNone then
        let tr := startRow t o
        padRow tr.1 k tr.2.row 1
      else t
  | _, _ => s

/-- What the index says of a piece. -/
def pieceRef (s : State) (c : CkptCapture) (x : CkptPiece) : PieceRef where
  kind := x.kind
  number := x.number
  madr := (x.placed.map (·.1)).getD (madrOfCode 0)
  capture := c.jseq
  ckpt := s.jrnl.nextCkpt

/-- Root and index as they are to be written (R249). -/
def makeRoot (s : State) (at_ : CkptCut) (c : CkptCapture) (clean : Bool) : Ckpt × CkptPiece :=
  let new := c.pieces.map (pieceRef s c)
  let ps := mergePieces (pieceUsed s at_.bays) ((s.jrnl.newest.map (·.pieces)).getD []) new
  let idx := indexBytes ps (journalSets s (lastCut s + 1))
  let k := ckptOf s at_ c clean (madrOfCode 0) ps
  let root := rootBytes k (s.jrnl.newest.map (·.root)) (idx.length / 32) (crc32c idx).toNat
  (k, { kind := 0, number := 0, bytes := padTo 4096 root ++ idx, placed := none, count := 0, nextRow := 0 })

/-! ## The wear rescue (R280) -/

/-- Sum and number of PE_COUNT over a set's blocks. -/
def setPeSum (s : State) (k : SetRec) : Nat × Nat :=
  ((blocksOfSet k).foldl (fun n b => n + (blkOf s b).pe) 0, (blocksOfSet k).length)

/-- The eligible set with the lowest mean PE_COUNT, ties to the lower BLOCK_SEQ. -/
def leastWorn (s : State) (p : Nat) : Option SetRec :=
  (eligibleSets s p).foldl (fun best k =>
    match best with
    | none => some k
    | some b => if (setPeSum s k).1 * (setPeSum s b).2 < (setPeSum s b).1 * (setPeSum s k).2 then some k else some b) none

/-- WEAR_RESCUE_CHECK (R280): the least-worn eligible set becomes RECLAIM's next victim where the mean of the profile's blocks exceeds its
mean by more than 10 % of RATED_PE, once per window and profile. -/
def wearRescue (s : State) (p : Nat) : State :=
  match profileOf s p, leastWorn s p with
  | some f, some k =>
    let all := peTotals s p
    let own := setPeSum s k
    if s.cad.rescued.contains p || !(10 * (all.1 * own.2) > 10 * (own.1 * all.2) + f.ratedPe * (all.2 * own.2)) then s
    else updProf (updCad s (fun c => { c with rescued := c.rescued ++ [p] })) p (fun q => { q with rescue := some k.seq })
  | _, _ => s

/-! ## The end of a checkpoint -/

/-- After a clean root its record is flushed, and the rows that hold them are brought to settle (R262). -/
def sealClean (s : State) : State :=
  let t := flushAll s
  (openSetsOf t .system).foldl (fun t ok => padToSettle t ok.1.seq) t

/-- A checkpoint's root is written: its CHECKPOINT record follows, and it stands once both are on the medium (R248); the wear gap is judged
(R280) and a stripe-journal record is due (R343). -/
def takeCkpt (s : State) (k : Ckpt) : State :=
  let t := updJrnl s (fun j => { j with nextCkpt := j.nextCkpt + 1, running := none })
  let t := journal t (.checkpoint k.seq (some k.root))
  let t := updJrnl t (fun j => { j with written := some k })
  let t := (profileNums t).foldl wearRescue t
  settleCkpt (if k.clean then sealClean t else updMedia t (fun m => { m with sjDue := true }))

/-- The checkpoint in progress is still to be clean: nothing has stirred since its start (R262). -/
def staysClean (s : State) (r : CkptRun) : Bool := r.clean && atRest s && !anyAdmitted s && s.jrnl.cut == s.jrnl.nextSeq - 1

/-- The checkpoint in progress goes on (R248): the capture once its tiles are written back, the pieces as far as the open SYSTEM sets take
them, and once every piece is written and settled the root. Where nothing else fills the rows that hold the pieces, they are padded. -/
def ckptStep (s : State) (r : CkptRun) : State :=
  let r := captureCkpt s r
  match r.captured with
  | none => s
  | some c =>
    let keep (t : State) (c : CkptCapture) : State := updJrnl (alignSystem t) (fun j => { j with running := some { r with captured := some c } })
    let x := placePieces (alignSystem s) c.pieces
    let c := { c with pieces := x.2 }
    if !c.pieces.all (pieceStands x.1) then keep x.1 c
    else if tablesBusy x.1 && s.kf.restartStep == 0 && !r.clean && c.root.isNone then keep x.1 c
    else if !piecesSettled x.1 && c.root.isNone then
      (openSetsOf x.1 .system).foldl (fun t ok => if r.clean then padToSettle t ok.1.seq else pushRow t ok.1.seq) (keep x.1 c)
    else
      let kr := c.root.getD (makeRoot x.1 r.at_ c (staysClean x.1 r))
      let y := placePiece x.1 kr.2
      let t := keep y.1 { c with root := some (kr.1, y.2) }
      match y.2.placed with
      | some a => if pieceStands y.1 y.2 then takeCkpt t { kr.1 with root := a.1 } else t
      | none => t

/-- CHECKPOINT_ROOT_WRITE (R248): the pieces of the checkpoint in progress are written, and once they are DONE and settled its root and index
are, and the CHECKPOINT record follows. -/
def execCheckpointRootWrite (s : State) : Host.Outcome State Fault Refusal :=
  match s.jrnl.running with
  | none => .next s
  | some r => if s.jrnl.stopFrom.isSome || s.kf.restartStep != 0 then .next s else .next (settleFull (ckptStep s r))

end Sys2Proof.Machine
end

