-- ==== Sys2Proof/Machine/Stop.lean ====
section
/-! DEFINITION. The stop sequence of Table 10-7 (R251 to R255, R402, R403, R469): the hold-up record, the stop record, the fall of
PWRFAIL_N and FAILED. -/
namespace Sys2Proof.Machine
open Sys2Proof

/-! ## Wakes and refusals that a stop meets (R467, R469, R472) -/

/-- A wake noted: its code, the state left and the AET (R472). -/
def noteWake (s : State) (code from_ : Nat) : State :=
  updPower s (fun p => { p with wakeSource := code, wakeFrom := from_, wakeAet := s.cad.aet })

/-- PS0 again: nothing is being entered, the domains are on, idle time starts anew. -/
def toPs0 (s : State) : State :=
  let t := updPower s (fun p =>
    { p with st := 0, entering := none, commitAo := none, domainsOff := false, idleFrom := s.now, lastRefused := none, matchLatch := false })
  if s.power.st == 0 then t else updPower t (fun p => { p with entries := p.entries.modify 0 (· + 1) })

/-- A refused entry counted under its reason (R467); a refused PS4_NOW is cleared. -/
def countRefusal (s : State) (reason target : Nat) : State :=
  updPower s (fun p =>
    { p with
      refusals := p.refusals.modify reason (· + 1), refuseReason := reason, refuseTarget := target, refuseValid := true
      lastRefused := some (target, s.now - p.idleFrom), ps4Now := false })

/-- Bays put back to work after a park: WP_N high on the channels in use, and after PS4 the bays powered, then connected (Table 20-4). -/
def unparkBays (s : State) (deep : Bool) : State :=
  let used (b : Bay) : Bool := isOwner s && b.present && !b.faultLow && (b.st == .member || b.st == .evacuating || b.st == .spare || b.st == .inserted || b.st == .commissioning)
  updMedia s (fun m => { m with bays := m.bays.map (fun b =>
    if !used b then b else if deep then { b with pwrEn := true, connected := true, writable := true } else { b with writable := true }) })

/-- Bays parked: WP_N low everywhere; for PS4 BAY_ISO_N low, then BAY_PWREN low (Table 20-4 step 3). -/
def parkBays (s : State) (deep : Bool) : State :=
  updMedia s (fun m => { m with bays := m.bays.map (fun b =>
    if deep then { b with pwrEn := false, connected := false, writable := false } else { b with writable := false }) })

/-- An entry into PS3 or PS4 abandoned: what was done is undone, the part is in PS0 and the reason is counted (R468, R474). -/
def abandonEntry (s : State) (reason : Nat) : State :=
  match s.power.entering with
  | none => s
  | some (target, step) => toPs0 (countRefusal (if 3 < step then unparkBays s (target == 4) else s) reason target)

/-! ## The hold-up record (R252, R253) -/

/-- The accumulators of rows whose parity pages have not finished (Table 10-8 ITEM 3). -/
def openAccs (s : State) : List (Nat × Nat × List Byte) :=
  s.media.opens.flatMap (fun o => match setOf s o.seq with
    | none => []
    | some k => (o.rows.filter (fun r => !r.settled && !parityDone s k r.row)).map (fun r => (o.seq, r.row, rowXor s.media.pages k r.row)))

/-- The last page finished DONE of a column of an open set, none where there is none. -/
def lastDone (s : State) (k : SetRec) (col : Nat) : Option Nat :=
  (colBlock k col).bind (fun b =>
    (s.media.pages.filter (fun p => blockOf p.addr == b && p.st == .done)).foldl
      (fun a p => some (Nat.max (a.getD 0) p.addr.page)) none)

/-- FRONTIER: per open set the last page DONE of each column; the number of a column without one is open (assumption 26). -/
def openFrontier (s : State) : List (Nat × List Nat) :=
  s.media.opens.zipIdx.filterMap (fun o => (setOf s o.1.seq).map (fun k =>
    (o.1.seq, (List.range 16).map (fun c => (lastDone s k c).getD ((freeAt s (16 * o.2 + c)).toNat % 65536)))))

/-- The hold-up payload (Table 10-8): the slots of the commands named, records not on the medium, accumulators, frontiers. -/
def gatherHoldup (s : State) (skip : List Nat) : Holdup where
  seq := s.jrnl.nextHoldup
  complete := false
  slots := ((s.ctxs.filter (fun c => c.csn != 0 && (c.stage == .admitted || c.stage == .ended) && !skip.contains c.cid)).map admSlotOf).foldl
    (fun l a => insertBy (fun x y => decide (x.csn ≤ y.csn)) a l) []
  recs := s.jrnl.recs.filter (fun r => !r.onMedium)
  accs := openAccs s
  frontier := openFrontier s
  csnLast := lastCsn s

/-- The hold-up record placed in an open SYSTEM set as HOLDUP pages with parity, and its first slot; none where the set does not take it. -/
def placeHoldup (s : State) (h : Holdup) (seq : Nat) : Option (State × Madr) :=
  let bytes := holdupBytes s h
  (placeRun (alignPage s seq 1) seq 9 1 ((List.range (ceilDiv bytes.length 4096)).map (fun n => (h.seq, padTo 4096 (slice bytes (4096 * n) 4096))))).map
    (fun z => (padOpenRow z.1 seq, ((z.2.head?).map (·.2)).getD (madrOfCode 0)))

/-- Running erases on the dies of the hold-up reserve are suspended (R252, mandatory sequence 6). -/
def suspendErases (s : State) : State :=
  let dies := (openSetsOf s .system).flatMap (fun ok => ok.2.cols.map (fun c => dieOf c.2))
  updMedia s (fun m => { m with dies := m.dies.map (fun d =>
    match d.op with
    | some op => if op.seqNo == 4 && dies.contains d.id && d.suspended.isNone then { d with op := some (suspendOp op), suspended := some op, suspends := d.suspends + 1 } else d
    | none => d) })

/-- A hold-up record placed in the first SYSTEM set that takes it; none where no bay may be written. -/
def placeRecord (s : State) (h : Holdup) : Option (State × Madr) :=
  if s.media.bays.any (·.writable) then (openSetsOf s .system).findSome? (fun ok => placeHoldup s h ok.1.seq) else none

/-- What an owner saves as the sequence begins: bays unparked, the hold-up record written, erases suspended; with the record's number and
address where it was placed (Table 10-7). -/
def saveHoldup (s : State) (skip : List Nat) : State × Option (Nat × Madr) :=
  let h := gatherHoldup s skip
  let s := drawFrees (if s.power.st == 2 then unparkBays s false else s) (16 * s.media.opens.length)
  match placeRecord s h with
  | none => (suspendErases s, none)
  | some (t, a) =>
    (updJrnl (suspendErases t) (fun j => { j with holdups := h :: j.holdups, nextHoldup := j.nextHoldup + 1 }), some (h.seq, a))

/-- A stop record put, and a twin told of it by a STOP frame (Table 10-9). -/
def recordStop (s : State) (kind : StopKind) (holdup : Option (Nat × Madr)) : State :=
  let t := putStop s kind holdup
  match t.jrnl.stops with
  | r :: _ => mirrorFrame t (.stop r)
  | [] => t

/-- The sequence of Table 10-7 begins: hold-up record, stop record (none where `record` is false), the STOP frame of a twin; from now on
nothing is fetched, admitted, granted or journalled. A chip without ownership has nothing to save. -/
def beginStop (s : State) (kind : StopKind) (skip : List Nat) (record : Bool) : State :=
  if s.jrnl.stopFrom.isSome then s
  else
    let t :=
      if !isOwner s then s
      else if record then recordStop (saveHoldup s skip).1 kind (saveHoldup s skip).2
      else (saveHoldup s skip).1
    updJrnl t (fun j => { j with stopFrom := some s.now, stopKind := kind, stopEnded := false })

/-- The part stops with nothing to save: a clean stop record stands, or no sequence is to run (R262, R469). -/
def stopAtOnce (s : State) (kind : StopKind) : State :=
  updJrnl s (fun j => { j with stopFrom := some s.now, stopKind := kind, stopEnded := true })

/-- A loss of power or a trip, as R469 gives for the state the part is in: KIND 1. -/
def powerStop (s : State) : State :=
  let deep := s.power.st == 3 || s.power.st == 4
  let late := (s.power.entering.map (fun e => decide (2 < e.2))).getD false
  let left := if deep then s.power.st else if late then (s.power.entering.map (·.1)).getD 0 else s.power.st
  if deep || late then stopAtOnce (noteWake s 6 left) .powerFail
  else
    let t := abandonEntry s 7
    let t := if t.power.st == 2 then unparkBays t false else t
    let t := if t.power.st == 0 then t else toPs0 (noteWake t 6 t.power.st)
    let t := updPower t (fun p => { p with retrain := none })
    if t.jrnl.cleanStands then stopAtOnce t .powerFail else beginStop t .powerFail [] true

/-- PWRFAIL_FALL (R252, R469, R402): PWRFAIL_N seen low. -/
def execPwrfailFall (cyc : Nat) (s : State) : Host.Outcome State Fault Refusal :=
  let t := updSide (advanceTo s cyc) (fun x => { x with pwrfail := true })
  if t.kf.porst || t.kf.recMode || t.jrnl.stopFrom.isSome then .next t else .next (powerStop t)

/-! ## FAILED (R255, R403) -/

/-- An admin command that waits unperformed under R120 or R139. -/
def waitsUnperformed (s : State) (c : Ctx) : Bool :=
  let op := eOpcode c.dw
  c.queue == 0 && c.stage == .admitted && c.status == 0 &&
    (!readyFor s c || (op == 0x84 && (portOf s c.port).resumptionPending)
      || (!(portOf s c.port).res.complete && (op == 0x87 || (op == 0x81 && bits (eCdw c.dw 0) 7 0 == 2))))

/-- FAILED set: waiting admin commands end with INTERNAL_FAULT, a twin chip says FAILING, and the sequence of Table 10-7 runs with KIND 4;
a failed keeper writes no stop record. -/
def failPart (s : State) (keeperFailed : Bool) : State :=
  if failedSet s then s
  else
    let waiting := (s.ctxs.filter (waitsUnperformed s)).map (·.cid)
    let t := setFlags s [(bFailed, true)]
    let t := waiting.foldl (fun t cid => refuseNow t cid 0x7001 0xFF) t
    let t := if t.twin.en then sendFrame t (.failing t.cond) else t
    beginStop t .failed waiting (!keeperFailed)

/-- FAILED_SET (R255, R403): a fault of Table 1-8 sets FAILED. -/
def execFailedSet (keeperFailed : Bool) (s : State) : Host.Outcome State Fault Refusal :=
  if s.kf.porst then settled s else settled (failPart s keeperFailed)

end Sys2Proof.Machine
end

