-- ==== Sys2Proof/Machine/Reset.lean ====
section
/-! DEFINITION. The internal reset: what of the part outlives it (keeper flash, fuses, the medium, the always-on request of R450), the
assertion of PORST_N (R255) and a power-up of the always-on domain. -/
namespace Sys2Proof.Machine
open Sys2Proof

/-! ## What an interruption leaves in keeper flash (R138 to R141, R254) -/

/-- The interruption kind of Table 5-7 that the stop was; a reset that no sequence preceded is kind 2. -/
def stopInterruption (s : State) : Nat :=
  if s.jrnl.stopFrom.isNone then 2
  else match s.jrnl.stopKind with
    | .powerFail => 1
    | .failed => 6
    | _ => 2

/-- The newest stop record describes a clean stop: KIND 3, naming a root with CLEAN set and the JSEQ after its cut (R262). -/
def cleanStop (s : State) : Bool :=
  match newestStop s, s.jrnl.newest with
  | some r, some k => r.kind == .shutdown && k.clean && r.root == some k.root && r.ckptSeq == k.seq && r.lastJseq == k.cut + 1
  | _, _ => false

/-- Hold-up records that a restart uses: complete ones since the newest stop record of KIND 0, oldest first (R256). -/
def usableHoldups (s : State) : List Holdup := (s.jrnl.holdups.filter (·.complete)).reverse

/-- The restart finds no complete hold-up record though it is unclean (R263). -/
def lostHoldup (s : State) : Bool := !cleanStop s && (usableHoldups s).isEmpty


/-- AET from which the keeper resumes: AET_STOP of the newest stop record, else the AET of the newest root (R63). -/
def aetAfter (s : State) : Nat :=
  match newestStop s with
  | some r => r.aetStop.toNat
  | none => (s.jrnl.newest.map (·.aet)).getD 0

/-! ## What the medium keeps -/

/-- The page's program is running on its die. -/
def programRuns (s : State) (m : Madr) : Bool :=
  ((dieStOf s (dieOf m)).bind (·.op)).any (fun op => op.seqNo == 3 && op.page == m)

/-- The page's program is suspended. -/
def programSuspended (s : State) (m : Madr) : Bool :=
  ((dieStOf s (dieOf m)).bind (·.suspended)).any (fun op => op.seqNo == 3 && op.page == m)

/-- Pages as the medium shows them afterwards: a running program ran to its end, a suspended one failed, one not begun left nothing
(R235). -/
def pagesAfter (s : State) : List PageRec :=
  s.media.pages.filterMap (fun p =>
    if p.st == .done || p.st == .failed then some p
    else if programRuns s p.addr then some { p with st := .done }
    else if programSuspended s p.addr then some { p with st := .failed }
    else none)

/-- Every JOURNAL page of a flight's row is on the medium. -/
def flightStands (pages : List PageRec) (sets : List SetRec) (f : Nat × Nat × Nat × Nat) : Bool :=
  match sets.find? (fun k => k.seq == f.1) with
  | none => false
  | some k =>
    let mine := pages.filter (fun p => p.seq == f.1 && p.row == f.2.1 && p.kind == 4)
    !mine.isEmpty && mine.all (fun p => p.st == .done) && k.firstAbandoned.all (fun r => decide (f.2.1 < r))

/-- A journal record that a replay meets: on the medium, in a JOURNAL page that stands, or in a complete hold-up record (R257). -/
def recFound (s : State) (pages : List PageRec) (r : StagedRec) : Bool :=
  r.onMedium || s.jrnl.flights.any (fun f => spanHas f r.jseq && flightStands pages s.map.sets f)
    || (usableHoldups s).any (fun h => h.recs.any (fun x => x.jseq == r.jseq))

/-- The records that a replay takes: up to the first that is missing (R257). -/
def recsAfter (s : State) : List StagedRec :=
  (s.jrnl.recs.takeWhile (recFound s (pagesAfter s))).map (fun r => { r with durable := true })

/-- A written checkpoint that a restart finds: its root is on the medium, and its CHECKPOINT record among those a replay takes (Table 10-12);
where no hold-up record is found, the newest root counts without that record (R263). -/
def ckptFound (s : State) (k : Ckpt) : Bool :=
  let pages := pagesAfter s
  !(rootPages s k).isEmpty && (rootPages s k).all (fun p => pages.any (fun q => q.addr == p.addr && q.st == .done)) &&
    (lostHoldup s || (recsAfter s).any (fun r => r.body == .checkpoint k.seq (some k.root)))

/-! ## The CSN block (R104, R263) -/

/-- First CSN of the highest block that a restart finds reserved: by the newest root, by a CSN_RESERVE record or BLOCK_START slot that replay
or hold-up record gives, or by a page tag. -/
def reservedFound (s : State) : Nat :=
  let tags := (pagesAfter s).foldl (fun n p => if p.kind == 1 || p.kind == 2 then p.slots.foldl (fun n x => Nat.max n x.csn) n else n) 0
  let recs := (s.jrnl.recs.filter (recFound s (pagesAfter s))).foldl (fun n r => match r.body with | .csnReserve c => Nat.max n c | _ => n) 0
  let slots := ((usableHoldups s).flatMap (·.slots)).foldl (fun n a => if a.blockStart then Nat.max n a.csn else n) 0
  let high := Nat.max (Nat.max ((s.jrnl.newest.map (·.csnReservedHigh)).getD 0) recs) (Nat.max tags slots)
  high / 2 ^ 20 * 2 ^ 20

/-- First CSN assignable after the interruption: the block after the highest reserved, or the second after the highest that the medium shows
under R263; a part that never reserved a block goes on where it was. -/
def csnAfter (s : State) : Nat :=
  if s.csnBlock == 0 then s.csnNext else (reservedFound s / 2 ^ 20 + if lostHoldup s then 2 else 1) * 2 ^ 20

/-- The interruption begins the RESUMPTION log of both ports, unless the part has never stopped (R139). -/
def beginLogs (s : State) (kind : Nat) : State :=
  if s.jrnl.stops.isEmpty then s
  else
    let one (t : State) (p : Port) := beginLog t p kind (csnAfter s) (aetAfter s) (lastCsn s) ((portOf s p).queues.map (queueRec s p))
    one (one s .a) .b

/-- A bay as it stands with everything volatile gone and its power off. -/
def bayAfter (b : Bay) : Bay :=
  { b with pwrEn := false, connected := false, writable := false, cancelled := false, tc := 0, lastTemp := none, minuteTemp := none, rewrite := none }

/-- The media cluster after a reset: the medium's pages, the bays, what a restart finds of the open sets, failures and rebuild progress, and
keeper flash's retired list and thermal logs. -/
def mediaAfter (s : State) : Media :=
  let m := s.media
  { Media.reset with
    blockSeqHigh := m.blockSeqHigh
    opens := m.opens
    pages := pagesAfter s
    dies := (m.dies.filter (·.failed)).map (fun d => { DieSt.fresh d.id with failed := true })
    bays := m.bays.map bayAfter
    retired := m.retired
    userSegs := m.userSegs
    fails := m.fails
    rebuild := m.rebuild
    rowsDone := m.rowsDone
    lostStripes := m.lostStripes
    lostRows := m.lostRows
    sjSeq := m.sjSeq
    sj := m.sj
    sjBays := m.sjBays
    lostErases := (s.jrnl.recs.filter (fun r => !recFound s (pagesAfter s) r)).filterMap (fun r => match r.body with | .erased b _ => some b | _ => none)
    thermLogs := m.thermLogs }

/-- Journal and restart records after a reset. -/
def jrnlAfter (s : State) : Jrnl :=
  let j := s.jrnl
  { Jrnl.reset with
    nextSeq := Nat.max (((j.recs.filter (recFound s (pagesAfter s))).map (·.jseq)).foldl Nat.max 0) ((j.newest.map (·.cut)).getD 0) + 1
    recs := recsAfter s
    newest := (j.written.filter (ckptFound s)).or j.newest
    nextCkpt := j.nextCkpt
    stops := j.stops
    nextStop := j.nextStop
    holdups := j.holdups
    nextHoldup := j.nextHoldup
    cleanStands := j.cleanStands && cleanStop s }

/-- A port after a reset: its RESUMPTION log and its PERST pin stay. -/
def portAfter (x : PortSt) : PortSt := { PortSt.reset with resumptionPending := x.resumptionPending, res := x.res, perst := x.perst }

/-- Keeper flash, fuses and the always-on request that outlive a reset (R443, R450). -/
def kfAfter (k : Kf) : Kf :=
  { Kf.reset with
    mem := k.mem, recRequest := k.recRequest, boot := k.boot, saved := k.saved, savedHit := k.savedHit, ownerFuse := k.ownerFuse, revoked := k.revoked
    boardId := k.boardId, sbAddr := k.sbAddr, dramMib := k.dramMib, porst := k.porst }

/-- The twin unit after a reset: straps, pins, the pair record and lifetime counts. -/
def twinAfter (t : Twin) : Twin :=
  { Twin.reset with
    en := t.en, seat := t.seat, peerOwn := t.peerOwn, pairRec := t.pairRec, keysDrawn := t.keysDrawn
    failovers := t.failovers, lastFoAet := t.lastFoAet }

/-- Lifetime counters kept in keeper flash (Table 7-7); those since the restart start at 0. -/
def healthAfter (h : Health) : Health := { h with tileReloads := 0, dramCorrected := 0 }

/-- The whole part after an internal reset; the interruption kind begins the RESUMPTION logs. -/
def internalReset (s : State) (kind : Nat) : State :=
  let s := beginLogs s kind
  let r := State.reset
  { r with
    pending := s.pending
    now := s.now
    free := s.free
    out := s.out
    csnNext := csnAfter s
    csnBlock := if s.csnBlock == 0 then 0 else reservedFound s
    evSeq := s.evSeq
    evHist := s.evHist
    raised := s.raised
    portA := portAfter s.portA
    portB := portAfter s.portB
    health := healthAfter s.health
    map := s.map
    media := mediaAfter s
    jrnl := jrnlAfter s
    twin := twinAfter s.twin
    dig := { r.dig with wrapNext := s.dig.wrapReserved, wrapReserved := s.dig.wrapReserved }
    kf := { kfAfter s.kf with tripHold := s.kf.tripHold || s.power.tripped }
    power := { r.power with refusals := s.power.refusals, trips := s.power.trips, tapOut := s.power.tapOut }
    side := { r.side with pwrfail := s.side.pwrfail } }

/-- A failed chip of a twin, or a tripped part, lets go of the medium: OWN_N high, bays isolated and powered off; a trip takes both links
down (R403, R482). -/
def letGo (s : State) : State :=
  if (s.twin.en && failedSet s) || s.power.tripped then
    let t := updTwin (updMedia s (fun m => { m with bays := m.bays.map (fun b => { b with connected := false, pwrEn := false }) })) (fun x => { x with own := false })
    if s.power.tripped then updPort (updPort t .a (fun x => { x with linkUp := false })) .b (fun x => { x with linkUp := false }) else t
  else s

/-- The sequence of Table 10-7 has ended: the hold-up record is complete and its pages are DONE, WP_N is low on every channel, and a failed
chip of a twin lets go of the medium (R252, R403). -/
def endStop (s : State) : State :=
  if s.jrnl.stopFrom.isNone || s.jrnl.stopEnded then s
  else
    let mark (l : List Holdup) : List Holdup := match l with
      | h :: rest => { h with complete := true } :: rest
      | [] => []
    let n := (s.jrnl.holdups.head?.map (·.seq)).getD 0
    let t := updJrnl s (fun j => { j with stopEnded := true, holdups := mark j.holdups })
    let t := updMedia t (fun m =>
      { m with
        pages := m.pages.map (fun p =>
          if (p.kind == 9 && p.slots.any (fun x => x.csn == n)) || programRuns s p.addr then { p with st := .done } else p)
        bays := m.bays.map (fun b => { b with writable := false }) })
    letGo t

/-! ## The commands -/

/-- PORST_ASSERT (R255): with a clean stop record, with nothing to save or with the sequence over, the internal reset applies at once; a
running sequence goes on to its end, and else one begins with KIND 2. -/
def execPorstAssert (cyc : Nat) (s : State) : Host.Outcome State Fault Refusal :=
  let s := advanceTo s cyc
  if s.kf.porst then .next s
  else
    let t := updKf s (fun k => { k with porst := true })
    if t.jrnl.stopFrom.isSome then
      if t.jrnl.stopEnded then .next (internalReset t (stopInterruption t)) else .next t
    else if t.jrnl.cleanStands || !isOwner t || t.kf.recMode || !t.kf.released then .next (internalReset t 2)
    else .next (beginStop t .reset [] true)

/-- ALWAYS_ON_POWER_UP (R450): the supplies return with PORST_N low. What was running stopped without a word where no sequence had ended;
the recovery request is 0. -/
def execAlwaysOnPowerUp (s : State) : Host.Outcome State Fault Refusal :=
  let t := if s.kf.porst && s.jrnl.stopFrom.isNone then s else internalReset s 1
  .next (updKf (updPower (updSide t (fun x => { x with pwrfail := false })) (fun p => { p with tapOut := false }))
    (fun k => { k with porst := true, recRequest := false }))

end Sys2Proof.Machine
end

