-- ==== Sys2Proof/Machine/Boot.lean ====
section
/-! DEFINITION. The boot chain (R41 to R50, R451 to R457, Table 19-6) up to the release of the host cluster, the start of the restart steps
of Table 10-10, and the commands that bring a restart about. -/
namespace Sys2Proof.Machine
open Sys2Proof

/-! ## Resolving the boot record (R455) -/

/-- Slots of a mask: for each component the slot that bit c of `where_` names. -/
def slotsOf (mask where_ : BitVec 3) : List Nat := (comps mask).map (fun c => 2 * c + b2n (compBit where_ c))

/-- The states of some slots changed. -/
def setSlots (r : BootRec) (l : List Nat) (st : Nat) : BootRec := l.foldl (fun r s => updSlot r s (fun x => { x with st := st, reason := 0, section_ := 0 })) r

/-- One FIRMWARE event per slot. -/
def slotEvents (s : State) (l : List Nat) (code reason : Nat) : State := l.foldl (fun t x => raiseEvent t 7 code x reason) s

/-- A trial that was not confirmed reverts; else what is pending is activated (R455). -/
def resolveBoot (s : State) : State :=
  let b := s.kf.boot
  if b.trial != 0 then
    let left := slotsOf b.trial b.active
    let act := (b.active &&& ~~~b.trial) ||| (b.previous &&& b.trial)
    slotEvents (putBoot s (fun r => setSlots (setSlots { r with active := act, trial := 0 } left 1) (slotsOf b.trial act) 3)) left 3 0
  else if b.pend != 0 then
    let act := b.active ^^^ b.pend
    putBoot s (fun r =>
      setSlots (setSlots { r with previous := b.active, active := act, trial := b.pend, pend := 0 } (slotsOf b.pend b.active) 1) (slotsOf b.pend act) 5)
  else s

/-! ## Choosing slots (R42, R455) -/

/-- A slot is empty: its state in a valid boot record is 0, or its first 256 bytes read 0xFF. -/
def emptySlot (s : State) (slot : Nat) : Bool :=
  (s.kf.boot.seq != 0 && ((s.kf.boot.slots[slot]?).map (·.st)).getD 0 == 0) || blank s.kf.mem (slotBase slot) 256

/-- IMAGE_INFO against the straps and the DRAM that training found (R46 step 1, R41 step 8). -/
def boardOk (v : ImgVals) (env : BootEnv) : Bool :=
  (v.boardId == 0xF || v.boardId == env.boardId.toNat) && v.twinEn.all (fun x => x == env.twinEn) && v.twinSeat.all (fun x => x == env.twinSeat)
    && dramOk v env.dramMib

/-- Why a slot fails its stage, given the packages chosen before it. -/
def slotFails (s : State) (env : BootEnv) (slot : Nat) (keeper cluster : List Byte) : Option Reject :=
  let b := slotImage s.kf.mem slot
  match slot / 2 with
  | 0 => packageReject s.kf.revoked 0 b
  | 1 => packageReject s.kf.revoked 1 b <|> firstReject [(!peersOk keeper b, (0x07, 0))]
  | _ => imageReject s.kf.ownerFuse s.kf.revoked (fwSupport cluster) b <|> firstReject [(!boardOk (imageVals b) env, (0x09, 0))]

/-- A failing slot recorded with its reason, and its event (R42, R455). -/
def recordFailing (s : State) (slot : Nat) (r : Reject) : State :=
  raiseEvent (putBoot s (fun b => updSlot b slot (fun x => { x with st := 2, reason := r.1, section_ := r.2 }))) 7 4 slot r.1

/-- One slot tried: an empty slot and a slot that fails are recorded and passed over. -/
def trySlot (s : State) (env : BootEnv) (keeper cluster : List Byte) (slot : Nat) (active : Bool) : State × Option Nat :=
  if emptySlot s slot then (if active then (raiseEvent s 7 4 slot 0, none) else (s, none))
  else
    match slotFails s env slot keeper cluster with
    | some r => (recordFailing s slot r, none)
    | none => (s, some slot)

/-- The slot that a component runs from, where one passes: the active one, else the other; what is passed over is recorded. -/
def chooseSlot (s : State) (env : BootEnv) (c : Nat) (keeper cluster : List Byte) : State × Option Nat :=
  match trySlot s env keeper cluster (activeSlot s.kf.boot c) true with
  | (t, some slot) => (t, some slot)
  | (t, none) => trySlot t env keeper cluster (otherSlot s.kf.boot c) false

/-- The slots of an activating restart all pass, or the first that fails with its reason. -/
def trialFails (s : State) (env : BootEnv) : Option (Nat × Reject) :=
  let bytes (c : Nat) := slotImage s.kf.mem (activeSlot s.kf.boot c)
  (comps s.kf.boot.trial).findSome? (fun c => (slotFails s env (activeSlot s.kf.boot c) (bytes 0) (bytes 1)).map (fun r => (activeSlot s.kf.boot c, r)))

/-- A pending component failed a stage of its activating restart: every component of the commit returns to its previous slot (R455). -/
def returnCommit (s : State) (slot : Nat) (r : Reject) : State :=
  let b := s.kf.boot
  let act := (b.active &&& ~~~b.trial) ||| (b.previous &&& b.trial)
  let t := putBoot s (fun x => setSlots (setSlots { x with active := act, trial := 0 } (slotsOf b.trial b.active) 1) (slotsOf b.trial act) 3)
  recordFailing t slot r

/-! ## Saved features (R175, R49) -/

/-- The words of a saved value that still lies in its range. -/
def savedOk (s : State) (scope f : Nat) : Option (List Word) :=
  (savedOf s scope f).filter (fun w =>
    let v (n : Nat) := (w.getD n 0).toNat
    (featureFields s (if scope == 2 then .b else .a) f 0 (v 0) (v 1) (v 2)).all (·.2))

/-- The journal flush grid and the patrol grids begun anew (R76, R319). -/
def freshGrids (s : State) : State :=
  let t := updCad s (fun c => { c with journalDue := nextGrid (nowT s) (Nat.max c.journalTicks 1) })
  (profileNums t).foldl (fun t p => updProf t p (fun q => { q with patrolNext := nextGrid (aetSec t.cad.aet) (3600 * cycleHours t p) })) t

/-- Saved records that fail their CRC dropped: where the sequencer changed their sectors, which ones do is a free value (R175, assumption 23). -/
def dropDamaged (s : State) : State :=
  if !s.kf.savedHit then s
  else
    let kept := ((List.range s.kf.saved.length).zip s.kf.saved).filter (fun x => (Config.freeValue (s.free + x.1)).getLsbD 0)
    { updKf s (fun k => { k with saved := kept.map (·.2), savedHit := false }) with free := s.free + s.kf.saved.length }

/-- Every feature at its saved value, or its default; saved values that fail their CRC or are out of range are dropped. -/
def restoreFeatures (s : State) : State :=
  let i := s.kf.img
  let s := dropDamaged s
  let s := updKf s (fun k => { k with saved := k.saved.filter (fun x => (savedOk s x.1 x.2.1).isSome) })
  let v (scope f n d : Nat) : Nat := ((savedOk s scope f).map (fun w => (w.getD n 0).toNat)).getD d
  let plan := planOf (v 0 2 0 (i.windowTicks + 65536 * i.share)) (v 0 2 1 (i.quiet.toNat % 2 ^ 32)) (v 0 2 2 (i.quiet.toNat / 2 ^ 32))
  let t := applyTimers s (v 0 1 0 (10 + 65536 * 50)) (v 0 1 1 0)
  let t := { t with feat := { t.feat with
    throttlePoint := bits (v 0 4 0 (100 + 256 * 5)) 7 0, throttleHyst := bits (v 0 4 0 (100 + 256 * 5)) 15 8
    rebuildShare := v 0 0x0B 0 50, horizonMin := v 0 0x0C 0 365 } }
  let t := updCad t (fun c => { c with plan := plan, windowPlan := plan, pendingPlan := none })
  let t := freshGrids (applyJournalInterval (applyPatrolCycle t (v 0 3 0 i.patrolDays)) (v 0 0x0A 0 i.journalTicks))
  let port (t : State) (p : Port) : State :=
    updPort t p (fun x => { applyArb x (v (portScope p) 7 0 defaultArb) with eventMask := w32 (v (portScope p) 9 0 0) })
  port (port t .a) .b

/-! ## Applying the image (R46 to R50) -/

/-- Calibration read: the factory row, the newest overlay copy, and the effective values (R50, R452). -/
def readCalibration (s : State) : State :=
  let none_ := (newestOverlay s.kf.mem).isNone
  let t := updKf s (fun k =>
    let k := readOverlay k
    let f := ((calAt 0x4643414C k.mem factoryRow).map (·.2)).getD []
    { k with factory := f, effective := f.map (effectiveItem k.img.calibLimits k.overlay) })
  let mv := ((itemOf t.kf.effective (0x400 + t.power.band)).getD 0).toNat
  let t := updPower t (fun p => { p with avsTarget := mv, avsNow := mv })
  if none_ then raiseEvent t 7 4 6 3 else t

/-- FUSE_OWNER of an image programs the owner key fuse where it is unprogrammed (R39). -/
def fuseOwner (s : State) (image : List Byte) : State :=
  if field image 0x1E 2 % 2 == 1 && s.kf.ownerFuse.isNone then updKf s (fun k => { k with ownerFuse := some (Config.sha384 (ownerKey image)) }) else s

/-- The image of a slot in force with the packages that run beside it. -/
def applyImage (s : State) (env : BootEnv) (k c i : Nat) : State :=
  let bytes (n : Nat) := slotImage s.kf.mem n
  let t := fuseOwner s (bytes i)
  updKf t (fun x =>
    { x with
      img := imageVals (bytes i), imgBytes := (bytes i).take (imageLength (bytes i)), imgValid := true, run := runningOf (bytes k) (bytes c) (bytes i), dramMib := env.dramMib
      runSlot := BitVec.ofNat 3 (k % 2 + 2 * (c % 2) + 4 * (i % 2)) })

/-- The AET, its predictions and grids as a boot begins them (R63, R57, R76, R79); an always-on domain that was not reset goes on. -/
def startTime (s : State) : State :=
  let aet := aetAfter s
  let t := updCad s (fun c =>
    if c.lastTick != 0 then { c with firstWindow := true }
    else { c with aet := aet, lastTick := s.now, prediction := s.now + c.period, lastT := tIndex c.tps aet })
  let t := updCad t (fun c => { c with ckptDue := (c.aet / 131072 + 1) * 131072 })
  updPower (updTwin t (fun x => { x with hbCounted := s.now, superFrom := s.now })) (fun p => { p with idleFrom := s.now })

/-! ## Restart steps 2 to 6 (Table 10-10) -/

/-- A bay connected at a restart and matched to a profile: one not in use by the image's recognition (R46 step 7); one in use has
the image profile with its binding sections, else it is adopted and EVACUATING (R47, R377); the thermal clock stands at its newest entry plus what the time to AET_STOP may have aged it (R315). -/
def startBay (s : State) (n : Nat) : State :=
  match bayOf s n with
  | none => s
  | some b =>
    let inUse := b.st == .member || b.st == .evacuating || b.st == .spare
    if !b.present || b.faultLow || b.st == .absent || b.st == .failed || b.st == .released || !s.kf.img.wiredBays.getLsbD n then s
    else if !inUse then
      updBay s n (fun x =>
        { x with pwrEn := true, connected := true, writable := x.st == .commissioning, profile := recognise s x.pats
                 foreign := x.uid != 0 && !knownBinding s x.bindingHash })
    else
      let r := adopt s b
      let away := ((profileOf r.1 r.2).map (·.adopted)).getD false
      let log := thermLog s b.uid
      let gone := match profileOf r.1 r.2, log with
        | some f, e :: _ => e.2 + unknownGain f (aetSec s.cad.aet - e.1)
        | _, _ => 0
      updBay r.1 n (fun x =>
        { x with
          pwrEn := true, connected := true, writable := true, profile := some r.2, foreign := away, tc := gone
          st := if away && x.st == .member then .evacuating else x.st
          evacTotal := if away && x.st == .member then 0 else x.evacTotal })

/-- The tile image that the medium holds at a home, where it passes R196. -/
def tileOnMedium (s : State) (ns seg : Nat) (home : Madr) : Option Tile :=
  ((slotAt s home).bind (·.block)).bind (fun b =>
    if tileImageOk ns seg b.data && field b.data 0x818 6 == madrCode home then some (readTile [] b.data).2.2 else none)

/-- CAPTURE_JSEQ of the TILE_HOME record that gave a tile its home; 0 where that record lies before REPLAY_FROM (R257). -/
def homeCapture (s : State) (ns seg : Nat) (home : Madr) : Nat :=
  s.jrnl.recs.foldl (fun n r => match r.body with
    | .tileHome a b h c _ => if a == ns && b == seg && h == home then c else n
    | _ => n) 0

/-- A FINE segment with its tile rebuilt from its copy on the medium and the records above that copy's capture (R257); a tile that has no home
is as the root's capture and the records give it. -/
def restoreTile (s : State) (i : MapImg) (x : Seg) : Seg :=
  match x.kind with
  | .fine t =>
    match t.home.bind (fun h => (tileOnMedium s x.ns x.seg h).map (fun b => (h, b))) with
    | none => x
    | some (h, b) =>
      let later := s.jrnl.recs.filter (fun r => decide (homeCapture s x.ns x.seg h < r.jseq))
      match segOf (applyRecs { i with segs := [{ x with kind := .fine { b with home := some h } }] } later) x.ns x.seg with
      | some (.fine u) => { x with kind := .fine { u with home := t.home, dirtySince := t.dirtySince } }
      | _ => x
  | .coarse _ => x

/-- The map that the newest root and the records after its capture give (R257); a namespace still being created is not there, and one
still being deleted is. -/
def restoredMap (s : State) : MapImg :=
  let i := match s.jrnl.newest with
    | some k => applyRecs k.img (s.jrnl.recs.filter (fun r => decide (k.capture < r.jseq)))
    | none => applyRecs MapImg.empty s.jrnl.recs
  let i := { i with segs := i.segs.map (restoreTile s i) }
  { i with nss := (i.nss.filter (fun n => n.st != .creating)).map (fun n => { n with st := .ready }) }

/-- The restart steps begin on the owner of the medium: bays, directory pool and tier, map (Table 10-10 steps 2 to 6). -/
def startSteps (s : State) : State :=
  let t := (List.range 16).foldl startBay s
  let t := settleTaken { t with map := restoredMap t }
  let t := updEng t (fun e => { e with dirPool := dirBlocksFor t })
  updKf (sizeTier t) (fun k => { k with restartStep := 2 })

/-- The limit of R79 counts from the release of the clusters, where lock is not held. -/
def armLock (s : State) : State :=
  if s.cad.locked || s.cad.internal then s else updCad s (fun c => { c with lockFrom := some s.now })

/-- The host cluster released (R84): held enables take effect; a chip that needs no claim begins the restart steps. -/
def releaseHost (s : State) : State :=
  let t := armLock (updKf s (fun k => { k with released := true, restartStep := 1 }))
  let t := if t.twin.en then t else startSteps t
  settleEnable (settleEnable t .a) .b

/-! ## The boot chain -/

/-- Recovery mode entered (R451): the cause is 1 for REQUEST and 2 where no keeper slot passes. -/
def enterRecovery (s : State) (cause : Nat) : State := updKf s (fun k => { k with recMode := true, recCause := cause, released := false, restartStep := 0 })

/-- No structure image passes: FAILED with the values of Table 2-11, DRAM trained, host cluster released (R42, R43). -/
def bootWithoutImage (s : State) (env : BootEnv) (k c : Nat) : State :=
  let bytes (n : Nat) := slotImage s.kf.mem n
  let t := updKf s (fun x =>
    { x with img := ImgVals.fallback, imgBytes := [], imgValid := false, dramMib := env.dramMib, run := runningOf (bytes k) (bytes c) []
             runSlot := BitVec.ofNat 3 (k % 2 + 2 * (c % 2)) })
  let t := failPart (restoreFeatures (readCalibration t)) false
  settleEnable (settleEnable (armLock (updKf t (fun x => { x with released := true }))) .a) .b

/-- From a keeper slot that passes to the release of the host cluster (Table 19-6 from 50 ms on). -/
def bootFrom (s : State) (env : BootEnv) (k : Nat) : State :=
  let keeper := slotImage s.kf.mem k
  match chooseSlot s env 1 keeper [] with
  | (t, none) => failPart t false
  | (t, some c) =>
    if !env.dramTrained then failPart t false
    else
      match chooseSlot t env 2 keeper (slotImage t.kf.mem c) with
      | (t, none) => bootWithoutImage t env k c
      | (t, some i) =>
        let t := applyImage t env k c i
        let t := readCalibration t
        let t := restoreFeatures t
        if !env.clustersStarted then failPart t false else releaseHost t

/-- The boot from the release of PORST_N (R455): straps, the recovery request, the boot record, the chain. -/
def bootUp (s : State) (env : BootEnv) : State :=
  let t := updKf s (fun k => { k with boardId := env.boardId, sbAddr := env.sbAddr, boot := bootInForce k.mem, dramMib := env.dramMib })
  let t := updTwin t (fun x => { x with en := env.twinEn, seat := env.twinSeat, peerOwn := env.twinEn && env.peerOwn, role := if env.twinEn then .fenced else .solo })
  if !env.lockstepOk then failPart t true
  else if t.kf.recRequest then enterRecovery t 1
  else
    let t := resolveBoot (startTime t)
    let t := match trialFails t env with
      | some (slot, r) => returnCommit t slot r
      | none => t
    match chooseSlot t env 0 [] [] with
    | (_, none) => enterRecovery { t with cond := s.cond } 2
    | (t, some k) => bootFrom t env k

/-- What the keeper finds when it boots again without new straps: straps and DRAM as they stand, every start-up test passed. -/
def envNow (s : State) : BootEnv where
  twinEn := s.twin.en
  twinSeat := s.twin.seat
  peerOwn := s.twin.peerOwn
  sbAddr := s.kf.sbAddr
  boardId := s.kf.boardId
  lockstepOk := true
  dramTrained := true
  dramMib := s.kf.dramMib
  clustersStarted := true
  sensor15 := (s.power.sensors.getD 15 none).getD 0

/-- The release of PORST_N: after a trip the boot waits until sensor 15 reads below RP (R482). -/
def bootOrHold (s : State) (env : BootEnv) : State :=
  let t := updKf s (fun k => { k with porst := false })
  if t.kf.tripHold && decide (((releasePoint t : Nat) : Int) ≤ env.sensor15) then
    updTwin (updKf t (fun k => { k with boardId := env.boardId, sbAddr := env.sbAddr, dramMib := env.dramMib })) (fun x => { x with en := env.twinEn, seat := env.twinSeat })
  else bootUp (updKf t (fun k => { k with tripHold := false })) env

/-- The always-on registers of an earlier state put back after an internal reset that no PORST_N brought (R82, Table 20-8, R510). -/
def keepAlwaysOn (s r : State) : State :=
  { r with
    cond := withFlag r.cond bCadLost (flag s.cond bCadLost)
    cad := s.cad, side := s.side
    power := { r.power with
      limit := s.power.limit, testHold := s.power.testHold, maintWake := s.power.maintWake, wakeSource := s.power.wakeSource, wakeFrom := s.power.wakeFrom
      wakeAet := s.power.wakeAet, wakeAetHi := s.power.wakeAetHi, refuseReason := s.power.refuseReason, refuseTarget := s.power.refuseTarget
      refuseValid := s.power.refuseValid, cap := s.power.cap, avsSettle := s.power.avsSettle, band := s.power.band, trainedBand := s.power.trainedBand
      sensors := s.power.sensors, valid := s.power.valid, maxTemp := s.power.maxTemp, maxSensor := s.power.maxSensor } }

/-- A restart that no PORST_N brings: the internal reset, which leaves the always-on registers, then the boot. -/
def reboot (s : State) (kind : Nat) : State := bootOrHold (keepAlwaysOn s (internalReset s kind)) (envNow s)

/-- The part restarts itself for an activation asked ON_SHUTDOWN (R459): a clean restart that keeps the always-on registers. -/
def selfRestart (s : State) : State :=
  bootUp (keepAlwaysOn s (internalReset (if s.media.rebuild == 1 then setRebuild s 2 [] else s) 2)) (envNow s)

/-! ## The commands -/

/-- PORST_RELEASE (R455, R255): a running stop sequence ends first; then the boot. -/
def execPorstRelease (cyc : Nat) (env : BootEnv) (s : State) : Host.Outcome State Fault Refusal :=
  let s := advanceTo s cyc
  if !s.kf.porst then settled s
  else
    let t := endStop s
    settled (bootOrHold (if t.jrnl.stopFrom.isSome then internalReset t (stopInterruption t) else t) env)

/-- HOLDUP_COMPLETE (R252, R255): the sequence ends. With PORST_N low the internal reset applies; where PWRFAIL_N has risen again the part
restarts as after a power loss. -/
def execHoldupComplete (s : State) : Host.Outcome State Fault Refusal :=
  if s.jrnl.stopFrom.isNone || s.jrnl.stopEnded then settled s
  else
    let t := endStop s
    if t.kf.porst then settled (internalReset t (stopInterruption t))
    else if t.jrnl.stopKind == .powerFail && !t.side.pwrfail && !t.power.tripped then settled (reboot t 1)
    else settled t

/-- PWRFAIL_RISE (R255, R469): PWRFAIL_N high again without PORST_N. A sequence that runs is left to end; then the part restarts as after a
power loss. A trip holds until PORST_N. -/
def execPwrfailRise (cyc : Nat) (s : State) : Host.Outcome State Fault Refusal :=
  let t := updSide (advanceTo s cyc) (fun x => { x with pwrfail := false })
  if t.jrnl.stopFrom.isSome && t.jrnl.stopEnded && t.jrnl.stopKind == .powerFail && !t.kf.porst && !t.power.tripped then settled (reboot t 1)
  else settled t

/-- A port's shutdown has ended: its commands are completed and the checkpoint it asked for is written; that of the whole part is the clean
one. Without ownership, or with no bay in use, there is nothing to write (R89, R262). -/
def shutdownEnds (s : State) (p : Port) : Bool :=
  (portOf s p).shutdownState == 1 && portEmptied s p &&
    (!isOwner s || !s.media.bays.any (fun b => b.st == .member || b.st == .evacuating) || (shutdownWritten s p && (!allStopping s || s.jrnl.cleanStands)))

/-- Both ports have shut down, or one has and the other is disabled (R459). -/
def bothDown (s : State) : Bool :=
  let down (p : Port) : Bool := (portOf s p).shutdownState == 2
  let off (p : Port) : Bool := !(portOf s p).enable
  (down .a && (down .b || off .b)) || (down .b && off .a)

/-- PORT_SHUTDOWN_DONE (R89, R459): SHUTDOWN_STATE becomes 2; a commit or revert ON_SHUTDOWN restarts the part once both ports are down. -/
def execPortShutdownDone (port : Port) (s : State) : Host.Outcome State Fault Refusal :=
  if s.jrnl.stopFrom.isSome || !shutdownEnds s port then settled s
  else
    let t := updPort s port (fun x => { x with shutdownState := 2 })
    if t.kf.onShutdown && bothDown t then settled (selfRestart t) else settled t

end Sys2Proof.Machine
end

