-- ==== Sys2Proof/Machine/Logs.lean ====
section
/-! DEFINITION. IDENTIFY and GET_LOG (R171 to R173): the structures of Tables 7-2 to 7-5 and the logs of Tables 5-4, 5-8 to 5-10, 7-7 to
7-15 and R496, byte by byte. -/
namespace Sys2Proof.Machine
open Sys2Proof

/-! ## Fields of a log -/

/-- A 32-bit and a 64-bit counter, saturating (R173). -/
def d32 (n : Nat) : List Byte := leBytes 4 (Nat.min n 0xFFFFFFFF)
def d64 (n : Nat) : List Byte := leBytes 8 (Nat.min n 0xFFFFFFFFFFFFFFFF)

/-- A dword of packed fields. -/
def dPack (fs : List (Nat × Nat)) : List Byte := leBytes 4 (pack fs).toNat

/-- A signed byte; a reading that is missing reads 0x80 (R476). -/
def tempByte : Option Int → Byte
  | some t => BitVec.ofInt 8 t
  | none => 0x80

/-- Text in a fixed field. -/
def ascii (t : List Nat) : List Byte := t.map (BitVec.ofNat 8)

/-- Bytes with another list laid over them at an offset. -/
def overlayAt (o : Nat) (bs field : List Byte) : List Byte := bs.take o ++ field ++ bs.drop (o + field.length)

/-! ## IDENTIFY (R171) -/

/-- Dies recognised and raw bytes of the member bays. -/
def memberRaw (s : State) : Nat := (s.media.bays.filter (fun b => b.st == .member)).foldl (fun n b => n + b.raw) 0

/-- NAMESPACE_MAP. -/
def namespaceMap (s : State) : Nat := s.map.nss.foldl (fun n x => n + 2 ^ (x.nsid - 1)) 0

/-- The first n bytes of a 384-bit hash. -/
def hashPrefix (h : BitVec 384) (n : Nat) : List Byte := (beBytes 48 h.toNat).take n

/-- Table 7-2, 4,096 bytes. -/
def controllerBytes (s : State) : List Byte :=
  let r := s.kf.run
  padTo 4096
    (padTo 16 (ascii [0x44, 0x58, 0x39, 0x36, 0x30, 0x30]) ++ leBytes 4 (b2n Config.variantAX) ++ leBytes 4 0x00010000
      ++ padTo 24 (Config.serial.take 20) ++ leBytes 8 r.keeperFw ++ leBytes 8 r.clusterFw ++ leBytes 2 r.fwLevel ++ leBytes 2 r.tigrimWrite
      ++ padTo 4 [BitVec.ofNat 8 (b2n s.kf.ownerFuse.isSome)] ++ padTo 8 ((s.kf.ownerFuse.map (fun h => hashPrefix h 8)).getD [])
      ++ leBytes 4 64 ++ leBytes 4 2048 ++ leBytes 8 (namespaceMap s) ++ leBytes 8 (memberRaw s)
      ++ leBytes 4 (userSegments s) ++ leBytes 4 (unallocatedSegments s) ++ leBytes 4 s.kf.dramMib ++ leBytes 4 65536
      ++ leBytes 4 262144 ++ leBytes 2 7 ++ leBytes 2 256
      ++ padTo 64 ((r.sectionFormats.take 16).flatMap (fun w => leBytes 4 w.toNat)) ++ padTo 64 (r.label.take 64)
      ++ leBytes 8 r.imageVersion ++ leBytes 8 r.imageId)

/-- Table 7-3, 4,096 bytes; a namespace that does not exist reads STATE 0 and zero fields. -/
def namespaceBytes (s : State) (n : Nat) : List Byte :=
  match nsOf s n with
  | none => padTo 4096 []
  | some x =>
    padTo 4096
      ([BitVec.ofNat 8 n, BitVec.ofNat 8 (nsStateNum x.st), BitVec.ofNat 8 x.format, BitVec.ofNat 8 (b2n x.fine)] ++ leBytes 4 x.segments
        ++ leBytes 8 (x.segments * 256) ++ leBytes 8 (writtenBlocks s.map n) ++ leBytes 8 x.createdAet ++ leBytes 8 (lostBlocks s.map n))

/-- PROFILE of a bay as a byte. -/
def profileByte (b : Bay) : Nat := b.profile.getD 0xFF

/-- Table 7-4, 4,096 bytes. -/
def bayBytes (s : State) (n : Nat) : List Byte :=
  match bayOf s n with
  | none => padTo 4096 [BitVec.ofNat 8 n]
  | some b =>
    padTo 4096
      ([BitVec.ofNat 8 n, BitVec.ofNat 8 (bayStNum b.st), BitVec.ofNat 8 (profileByte b), BitVec.ofNat 8 (b2n b.foreign)]
        ++ leBytes 2 b.dies.length ++ leBytes 2 b.tigrim ++ leBytes 8 b.uid ++ leBytes 8 b.raw ++ padTo 32 (b.ident.take 32)
        ++ leBytes 8 b.imageId)

/-- Member bays of a profile as a bitmap. -/
def memberMap (s : State) (p : Nat) : Nat := (memberBays s p).foldl (fun n b => n + 2 ^ b.bay) 0

/-- PROFILE_p of Table 7-5; an adopted profile is no part of the image. -/
def profileBytes (s : State) (p : Nat) : List Byte :=
  match (profileOf s p).filter (fun f => !f.adopted) with
  | none => zeros 32
  | some f =>
    padTo 32
      ([BitVec.ofNat 8 f.w, BitVec.ofNat 8 f.p, BitVec.ofNat 8 f.wMin, BitVec.ofNat 8 (b2n f.dedicated), BitVec.ofNat 8 f.planes, 0]
        ++ leBytes 2 f.pagesPerBlock ++ leBytes 2 f.blocksPerPlane ++ zeros 2 ++ leBytes 4 f.ratedPe ++ leBytes 2 f.parityBytes
        ++ leBytes 2 (memberMap s p))

/-- Table 7-5, 4,096 bytes; zero without a valid image (R43). -/
def imageBytes (s : State) : List Byte :=
  if !s.kf.imgValid then zeros 4096
  else
    let r := s.kf.run
    padTo 4096
      (leBytes 4 r.imageVersion ++ leBytes 2 r.fwLevelMin ++ leBytes 2 r.fwLevelMax ++ leBytes 8 r.imageId ++ leBytes 2 r.imageTigrim
        ++ [BitVec.ofNat 8 ((s.kf.img.profiles.filter (fun f => !f.adopted)).length), BitVec.ofNat 8 (b2n (compBit s.kf.runSlot 2))] ++ zeros 12
        ++ (List.range 4).flatMap (profileBytes s))

/-- The structure that CNS and INDEX name. -/
def identifyBytes (s : State) (cns index : Nat) : List Byte :=
  match cns with
  | 0 => controllerBytes s
  | 1 => namespaceBytes s index
  | 2 => bayBytes s index
  | _ => imageBytes s

/-- Data of an admin command delivered to its extents after the list is checked, with its results (R126, R127, R440). -/
def deliverAdmin (s : State) (c : Ctx) (list : ListRead) (bs : List Byte) (total : Nat) : State :=
  if keeperHalted s then decide_ s c.cid { status := 0x5002, origin := 5 }
  else perform (deliver s c.port (extentsOf c.dw list) bs) c.cid (lo32 total) (hi32 total)

/-- IDENTIFY (R171). -/
def execIdentify (cid : Nat) (list : ListRead) (s : State) : Host.Outcome State Fault Refusal :=
  match ctxIn s cid 0x80 with
  | none => .next s
  | some c =>
    match judgeList c.dw (expectedLen s c.dw) 4 list with
    | some v => .next (decide_ s cid v)
    | none => .next (deliverAdmin s c list (identifyBytes s (bits (eCdw c.dw 0) 7 0) (bits (eCdw c.dw 0) 15 8)) 0)

/-! ## Logs 0x01 and 0x02 -/

/-- An ERROR log entry (Table 5-4). -/
def errBytes (e : ErrEntry) : List Byte :=
  leBytes 8 e.seq ++ leBytes 8 e.csn ++ leBytes 8 e.aet ++ dPack [(e.queue, 0), (portNum e.port, 14), (e.sqIndex, 16)]
    ++ dPack [(e.opcode, 0), (e.tag, 8), (e.status.toNat, 16)] ++ dPack [(e.origin, 0), (e.fieldOffset, 8)]
    ++ dPack [(e.resumeIndex, 0), (b2n e.froze, 12), (e.retained, 13)] ++ leBytes 8 e.lba ++ leBytes 8 e.byteOffset
    ++ leBytes 4 e.detail0 ++ leBytes 4 e.detail1

/-- The ERROR log of a queue, oldest entry first (R133). -/
def errorLog (s : State) (p : Port) (q : Nat) : List Byte :=
  ((((portOf s p).errLog.find? (fun x => x.1 == q)).map (·.2)).getD []).reverse.flatMap errBytes

/-- A queue record (Table 5-9) and a command record (Table 5-10). -/
def queueRecBytes (r : QueueRec) : List Byte :=
  dPack [(r.queue, 0), (r.st, 16)] ++ dPack [(r.resumeIndex, 0), (r.sqTail, 16)] ++ dPack [(r.cqNext, 0), (b2n r.cqPhase, 12)]
    ++ leBytes 4 r.records
def cmdRecBytes (r : CmdRec) : List Byte :=
  leBytes 8 r.csn ++ leBytes 4 r.result0.toNat ++ leBytes 4 r.result1.toNat
    ++ dPack [(r.queue, 0), (if r.performed then 1 else 2, 14), (r.status.toNat, 16)]
    ++ dPack [(r.sqIndex, 0), (r.tag, 12 + 0), (r.opcode, 24)] ++ zeros 8

/-- The RESUMPTION log of a port (R140). -/
def resumptionLog (s : State) (p : Port) : List Byte :=
  let l := (portOf s p).res
  leBytes 8 l.generation ++ dPack [(l.kind, 0), (portNum p, 8), (l.interruptions, 16)] ++ zeros 4 ++ leBytes 8 l.aetStop
    ++ leBytes 8 l.aetResume ++ leBytes 8 l.csnLast ++ leBytes 8 l.csnNext ++ leBytes 4 l.queues.length ++ leBytes 4 l.cmds.length
    ++ leBytes 4 (b2n l.unclean) ++ zeros 4 ++ l.queues.flatMap queueRecBytes ++ (if l.queues.length % 2 == 1 then zeros 16 else [])
    ++ l.cmds.flatMap cmdRecBytes

/-! ## Logs 0x03 to 0x0E -/

/-- A log with its header (Table 7-6). -/
def withHeader (id aet : Nat) (body : List Byte) : List Byte :=
  leBytes 4 (id + 0x0100) ++ leBytes 4 (16 + body.length) ++ leBytes 8 aet ++ body

/-- Part of a whole in 0.01 %, 0 of an empty whole. -/
def permyriad (a b : Nat) : Nat := if b == 0 then 0 else a * 10000 / b

/-- Profile and bay of the bays that a sum runs over. -/
def ratedBays (s : State) (bs : List Bay) : List (Profile × Bay) :=
  bs.filterMap (fun b => (b.profile.bind (profileOf s)).map (fun f => (f, b)))

/-- WEAR_AVG of some bays: the mean program/erase count of their blocks in 0.01 % of RATED_PE. -/
def wearAvg (s : State) (bs : List Bay) : Nat :=
  let t := (ratedBays s bs).foldl (fun a x =>
    (a.1 + peSumBay s x.1 x.2 * 10000 / Nat.max x.1.ratedPe 1, a.2 + usableBlocks s x.1 x.2)) (0, 0)
  if t.2 == 0 then 0 else t.1 / t.2

/-- WEAR_MAX of some bays: the same of the most-worn block. -/
def wearTop (s : State) (bs : List Bay) : Nat :=
  (ratedBays s bs).foldl (fun n x => Nat.max n (wearMax s x.2.bay * 10000 / Nat.max x.1.ratedPe 1)) 0

/-- Bays whose blocks are members. -/
def servingBays (s : State) : List Bay := s.media.bays.filter (fun b => b.st == .member || b.st == .evacuating)

/-- HEALTH (Table 7-7). -/
def healthBody (s : State) : List Byte :=
  let bs := servingBays s
  let rs := ratedBays s bs
  let spare := permyriad (rs.foldl (fun n x => n + x.2.spareLeft) 0) (rs.foldl (fun n x => n + spareFull x.1 x.2) 0)
  let last := permyriad (rs.foldl (fun n x => n + Nat.min (erasedOn s x.1 x.2) (lastFull x.1 x.2)) 0) (rs.foldl (fun n x => n + lastFull x.1 x.2) 0)
  let h := s.health
  leBytes 4 (reportedCond s).toNat ++ d32 (wearAvg s bs) ++ d32 (wearTop s bs)
    ++ dPack [(Nat.min spare 0xFFFF, 0), (Nat.min last 0xFFFF, 16)] ++ leBytes 4 (healthFree s) ++ zeros 4
    ++ d64 (h.hostReadUnits / 256) ++ d64 (h.hostWrittenUnits / 256) ++ d64 (h.pagesWritten / 64)
    ++ d64 h.recovered ++ d64 h.unrecovered ++ d32 h.retiredBlocks ++ d32 h.programFails ++ d32 h.eraseFails
    ++ d32 h.tileReloads ++ d32 h.dramCorrected ++ leBytes 4 s.eng.dramLost.toNat ++ d32 h.uncleanRestarts ++ d32 (h.onMinutes / 60)

/-- WEAKEST_BAY: the lowest-numbered bay with the least horizon (R335). -/
def weakestBay (s : State) : Nat :=
  (s.media.bayHorizon.foldl (fun (a : Option (Nat × Nat)) x => match a with
    | some y => if x.2 < y.2 || (x.2 == y.2 && x.1 < y.1) then some x else some y
    | none => some x) none).map (·.1) |>.getD 0

/-- REF_TEMP in force: that of the weakest bay's profile. -/
def refTempNow (s : State) : Int := ((bayOf s (weakestBay s)).bind (·.profile)).bind (profileOf s) |>.map (·.refTemp) |>.getD 0

/-- HORIZON (Table 7-8, R335). -/
def horizonBody (s : State) : List Byte :=
  let m := s.media
  d32 m.horizon
    ++ dPack [((BitVec.ofInt 8 (refTempNow s)).toNat, 0), (b2n (flag s.cond bReduced || !s.cad.aetValid), 8), (b2n m.alert, 9)]
    ++ d32 s.feat.horizonMin ++ leBytes 4 (weakestBay s) ++ d64 m.unpowered ++ leBytes 4 (sweepDone s) ++ zeros 4
    ++ (List.range 16).flatMap (fun b => d32 (((m.bayHorizon.find? (fun x => x.1 == b)).map (·.2)).getD 0xFFFFFFFF))

/-- Hottest die sampled on a bay (Tables 7-9, 7-12). -/
def bayDieMax (s : State) (b : Nat) : Option Int :=
  (s.media.dies.filter (fun d => d.id.bay == b)).foldl (fun a d => match a, d.sample with
    | some x, some (_, t) => some (max x t)
    | none, some (_, t) => some t
    | a, none => a) none

/-- PROGRESS of a bay (Table 7-9); how far a commissioning stands is not counted, so its value is a free one (assumption 19). -/
def bayProgress (s : State) (b : Bay) : Nat := if b.st == .commissioning then (freeAt s b.bay).toNat % 10001 else b.progress

/-- One record of BAY_STATUS, 64 bytes (Table 7-9). -/
def bayRecord (s : State) (b : Bay) : List Byte :=
  padTo 64
    (dPack [(bayStNum b.st, 0), (profileByte b, 8), (b2n b.foreign, 16), (b2n b.present, 17), (b2n b.pwrEn, 18), (b2n b.connected, 19)]
      ++ dPack [(b.dies.length, 0), (b.failedDies.length, 16)] ++ leBytes 8 b.uid ++ leBytes 8 b.raw ++ d32 (wearAvg s [b]) ++ d32 (wearTop s [b])
      ++ d32 (retiredOn s b.bay) ++ leBytes 4 (bayProgress s b) ++ leBytes 8 b.stateAet ++ [tempByte (bayDieMax s b.bay)])

/-- Geometry and row counts of a profile, 48 bytes (Table 7-10). -/
def prismProfile (s : State) (p : Nat) : List Byte :=
  match profileOf s p with
  | none => zeros 48
  | some f =>
    padTo 48 (dPack [(f.w, 0), (f.p, 8), (f.wMin, 16), (b2n f.dedicated, 24)] ++ zeros 4
      ++ (List.range 4).flatMap (fun n => d64 (lackCount s p n)))

/-- PRISM_STATUS (Table 7-10). The manual gives no formula for ETA_S, so while a rebuild runs its value is a free one (assumption 19). -/
def prismBody (s : State) : List Byte :=
  let m := s.media
  dPack [(m.rebuild, 0), (if m.rebuild == 0 then 0 else failedBay s, 4)] ++ d64 m.rowsDone ++ d64 m.rowsTotal
    ++ leBytes 4 (if m.rebuild == 0 then 0 else (freeNow s).toNat % 2 ^ 32) ++ d64 m.lostStripes ++ leBytes 4 m.sjBays.toNat ++ zeros 12
    ++ (List.range 4).flatMap (prismProfile s)

/-- EVENT_HISTORY (Table 7-11). -/
def historyBody (s : State) : List Byte :=
  let es := s.evHist.reverse
  leBytes 4 es.length ++ zeros 4 ++ leBytes 8 ((es.head?.map (·.seq)).getD 0)
    ++ es.flatMap (fun e => (eventWords e false).flatMap (fun w => leBytes 4 w.toNat))

/-- THERMAL (Table 7-12). -/
def thermalBody (s : State) : List Byte :=
  let p := s.power
  dPack [(p.band, 0), (s.feat.throttlePoint, 8), (releasePoint s, 16)] ++ dPack [((BitVec.ofInt 8 p.maxTemp).toNat, 0), (p.maxSensor, 8)]
    ++ padTo 16 ((p.sensors.take 16).map tempByte) ++ padTo 16 ((p.peaks.take 16).map (fun t => tempByte (some t)))
    ++ d32 (p.throttleTime / 1000000000) ++ d32 p.throttleEntries ++ d32 p.trips ++ (List.range 16).map (fun b => tempByte (bayDieMax s b))

/-- POWER_ACCOUNTING (Table 7-13). -/
def powerBody (s : State) : List Byte :=
  let p := s.power
  (p.stateTime.take 5).flatMap (fun n => d64 (n / 1000000)) ++ (p.entries.take 5).flatMap d32 ++ dPack [(p.wakeSource, 0), (p.wakeFrom, 8)]
    ++ leBytes 8 p.wakeAet ++ (p.refusals.take 8).flatMap d32 ++ d32 p.avsTotal

/-- One slot of FIRMWARE_SLOTS, 32 bytes (Table 7-14); a slot whose first 256 bytes are blank is empty (R42). -/
def slotRecord (s : State) (n : Nat) : List Byte :=
  let x := s.kf.boot.slots.getD n ⟨0, 0, 0, 0⟩
  if x.st == 0 || blank s.kf.mem (slotBase n) 256 then zeros 32
  else
    let h := memBytes s.kf.mem (slotBase n) 256
    let version := if n < 4 then field h 0x0C 8 else field h 0x0C 4
    let build := if n < 4 then field h 0x14 8 else field h 0x10 8
    let level := if n < 4 then field h 0x1C 4 else field h 0x18 4
    dPack [(x.st, 0), (x.reason, 8), (x.section_, 16)] ++ leBytes 8 version ++ leBytes 8 build ++ leBytes 8 x.commitAet ++ leBytes 4 level

/-- FIRMWARE_SLOTS (Table 7-14). -/
def slotsBody (s : State) : List Byte :=
  let r := s.kf.boot
  dPack [(r.active.toNat, 0), (b2n (r.pend != 0), 3), (b2n (r.trial != 0), 4)] ++ zeros 12 ++ (List.range 6).flatMap (slotRecord s)

/-- TWIN_STATUS (Table 7-15). -/
def twinBody (s : State) : List Byte :=
  let t := s.twin
  dPack [(roleNum t.role, 0), (roleNum t.partnerRole, 4), (b2n t.seat, 7), (b2n t.en, 8), (t.lanes, 9), (b2n t.own, 13)]
    ++ d32 t.hbTotal ++ d32 t.failovers ++ leBytes 4 t.pairReject ++ leBytes 8 t.lastFoAet ++ leBytes 4 t.syncDone ++ zeros 4
    ++ leBytes 8 ((t.peer.map (·.clusterFw.toNat)).getD 0) ++ leBytes 8 ((t.peer.map (·.imageId.toNat)).getD 0)

/-- LOST_LBA (chapter 07). -/
def lostBody (s : State) : List Byte :=
  leBytes 8 s.map.lost.length ++ d64 (s.map.lost.foldl (fun n x => n + x.count) 0)
    ++ s.map.lost.flatMap (fun x => leBytes 8 x.lba ++ leBytes 4 x.count ++ leBytes 4 x.ns ++ leBytes 8 x.aet ++ zeros 8)

/-- CNT_SEL of counters 0 to 47 (R488, Table 21-5). -/
def cntSels (s : State) : List Nat := (List.range 8).map (fun n => 0x1F00 + n) ++ s.ctr.sel.map (fun x => x.1 + 256 * x.2)

/-- COUNTER_SNAPSHOT after its header (R496). -/
def snapshotBody (s : State) : List Byte :=
  let c := s.ctr
  dPack [(c.epoch, 0), (c.snapSeq, 16)] ++ d32 c.snapBacklog ++ leBytes 8 c.snapAet ++ (c.snap.take 48).flatMap (fun n => leBytes 8 n)
    ++ ((cntSels s).take 48).flatMap (leBytes 4)

/-- Samples that the Periscope ring holds (R494). -/
def samplesHeld (s : State) : Nat := (s.ctr.tail + 4096 - s.ctr.head) % 4096

/-- The sample at a ring index. -/
def sampleAt (s : State) (i : Nat) : Sample := ((s.ctr.ring.find? (fun x => x.1 == i)).map (·.2)).getD (List.replicate 16 0)

/-- PERISCOPE after its header (R496). -/
def periscopeBody (s : State) : List Byte :=
  leBytes 4 (samplesHeld s) ++ d32 s.ctr.dropped ++ leBytes 8 s.cad.aet
    ++ (List.range (samplesHeld s)).flatMap (fun i => (sampleAt s ((s.ctr.head + i) % 4096)).flatMap (fun w => leBytes 4 w.toNat))

/-- A whole log (Table 7-20). -/
def logBytes (s : State) (p : Port) (id queue : Nat) : List Byte :=
  let aet := s.cad.aet
  match id with
  | 0x01 => errorLog s p queue
  | 0x02 => resumptionLog s p
  | 0x03 => withHeader id aet (healthBody s)
  | 0x04 => withHeader id aet (horizonBody s)
  | 0x05 => withHeader id aet (s.media.bays.flatMap (bayRecord s))
  | 0x06 => withHeader id aet (prismBody s)
  | 0x07 => withHeader id aet (historyBody s)
  | 0x08 => withHeader id s.ctr.snapAet (snapshotBody s)
  | 0x09 => withHeader id aet (periscopeBody s)
  | 0x0A => withHeader id aet (thermalBody s)
  | 0x0B => withHeader id aet (powerBody s)
  | 0x0C => withHeader id aet (slotsBody s)
  | 0x0D => withHeader id aet (twinBody s)
  | _ => withHeader id aet (lostBody s)

/-- A log with values left open, one for each bay position at most. -/
def logDraws (id : Nat) : Bool := id == 0x05 || id == 0x06

/-- LOG_ID and QUEUE_ID of a GET_LOG. -/
def eLogId (dw : List Word) : Nat := bits (eCdw dw 0) 7 0
def eLogQueue (dw : List Word) : Nat := bits (eCdw dw 0) 21 8

/-- The piece of a log from OFFSET, zero beyond its end, delivered (R172). -/
def deliverLog (s : State) (c : Ctx) (list : ListRead) : State :=
  let whole := logBytes s c.port (eLogId c.dw) (eLogQueue c.dw)
  let piece := padTo (eCdw c.dw 1) ((whole.drop (eLba c.dw)).take (eCdw c.dw 1))
  let t := deliverAdmin s c list piece whole.length
  if logDraws (eLogId c.dw) then drawFrees t 16 else t

/-- Snapshots that become readable before one triggered now is (R486). -/
def snapsAhead (s : State) : Nat := if s.ctr.collecting.isSome then 2 else 1

/-- GET_LOG 0x08 triggers its snapshot and waits until it is readable (R486, R496): the snapshots still to become readable are counted. -/
def awaitSnapshot (s : State) (cid : Nat) : State :=
  let n := snapsAhead s
  updCtr (trigSnap s) (fun k => { k with logWaiters := k.logWaiters ++ [(cid, n)] })

/-- GET_LOG (R172): log 0x02 waits for the log to be complete (R139); a command served under R27 returns it as it stands. -/
def execGetLog (cid : Nat) (list : ListRead) (s : State) : Host.Outcome State Fault Refusal :=
  match ctxIn s cid 0x81 with
  | none => .next s
  | some c =>
    match judgeList c.dw (expectedLen s c.dw) 4 list with
    | some v => .next (decide_ s cid v)
    | none =>
      if eLogId c.dw == 0x02 && c.stage == .admitted && !(portOf s c.port).res.complete then .next s
      else if eLogId c.dw == 0x08 && !s.ctr.logReady.contains cid then
        (if s.ctr.logWaiters.any (fun w => w.1 == cid) then .next s else .next (awaitSnapshot s cid))
      else .next (deliverLog (updCtr s (fun k => { k with logReady := k.logReady.filter (fun w => w != cid) })) c list)

end Sys2Proof.Machine
end

