-- ==== Sys2Proof/Machine/Counters.lean ====
section
/-! DEFINITION. Performance counters and Periscope (chapter 21): command slots, clears, snapshots, event selection, counter reads, and the
Periscope ring's head. -/
namespace Sys2Proof.Machine
open Sys2Proof

/-! ## Command slots (R489, R490) -/

/-- TD_PORT names a port: 0 both, 1 A, 2 B. -/
def judgedPort (s : State) (p : Port) : Bool := s.ctr.tdPort == 0 || s.ctr.tdPort == portNum p + 1

/-- The retirement queue after one unit has left it, with whether that unit was successful; none where it is empty. -/
def takeUnit : List Retire → Option (Bool × List Retire)
  | [] => none
  | r :: rs =>
    if r.units == 0 then takeUnit rs
    else some (r.ok, if r.units == 1 then rs else { r with units := r.units - 1 } :: rs)

/-- An admitted I/O command of the judged ports has not ended. -/
def commandInFlight (s : State) : Bool := s.ctxs.any (fun c => c.queue != 0 && inFlight c && judgedPort s c.port)

/-- COMMAND_SLOT (R490): one of counters 2 to 5 increases. Units of ports that are not judged leave the queue uncounted. Slots fall only while
the fabric clock runs (R487). -/
def execCommandSlot (cyc : Nat) (s : State) : Host.Outcome State Fault Refusal :=
  let t := advanceTo s cyc
  if 2 ≤ t.power.st || t.kf.porst then .next t
  else
    let t := countFixed t 1 1
    let queue := t.ctr.retire.filter (fun r => judgedPort t r.port)
    match takeUnit queue with
    | some (ok, rest) => .next (countFixed (updCtr t (fun c => { c with retire := rest })) (if ok then 2 else 3) 1)
    | none => .next (countFixed (updCtr t (fun c => { c with retire := [] })) (if commandInFlight t then 5 else 4) 1)

/-! ## CNT_CTRL (Table 21-2, R486, R487) -/

/-- CNT_CTRL written: RUN, SNAP_ON_WINDOW and TD_PORT stored; SNAP before CLEAR, so that a snapshot holds the values from before the clear. -/
def writeCntCtrl (s : State) (v : Word) : State :=
  let n := v.toNat
  let t := updCtr s (fun c =>
    { c with run := v.getLsbD 0, snapOnWindow := v.getLsbD 3, tdPort := if bits n 5 4 == 3 then c.tdPort else bits n 5 4 })
  let t := if v.getLsbD 2 then trigSnap t else t
  if v.getLsbD 1 then clearCounters t else t

/-- A diagnostics register is reached through a port's BAR0 alone. -/
def fromPort : Requester → Bool
  | .sideband => false
  | _ => true

/-- CNT_CLEAR (R487): a write of CNT_CTRL. -/
def execCntClear (req : Requester) (value : Word) (s : State) : Host.Outcome State Fault Refusal :=
  if fromPort req then .next (writeCntCtrl s value) else .next s

/-- CNT_SNAP (R486): a write of CNT_CTRL. -/
def execCntSnap (req : Requester) (value : Word) (cyc : Nat) (s : State) : Host.Outcome State Fault Refusal :=
  let t := advanceTo s cyc
  if fromPort req then .next (writeCntCtrl t value) else .next t

/-- SNAPSHOT_READY (R486, R495, R496): 32 cycles after its trigger the snapshot is readable and SNAP_SEQ increases; what waited for it goes on,
and a trigger that was held is applied in the cycle after. -/
def execSnapshotReady (cyc : Nat) (s : State) : Host.Outcome State Fault Refusal :=
  let t := advanceTo s cyc
  match t.ctr.collecting with
  | none => .next t
  | some (vals, aet, backlog, at_) =>
    if t.now < at_ then .next t
    else
      let waits := t.ctr.logWaiters.map (fun w => (w.1, w.2 - 1))
      let t := updCtr t (fun c =>
        { c with
          snap := vals, snapAet := aet, snapBacklog := backlog, snapSeq := (c.snapSeq + 1) % 65536, collecting := none, held := false
          mirrorWait := c.mirrorWait - 1
          logWaiters := waits.filter (fun w => 0 < w.2), logReady := c.logReady ++ (waits.filter (fun w => w.2 == 0)).map (·.1) })
      if s.ctr.held then
        .next (updCtr (trigSnap t) (fun c => { c with collecting := c.collecting.map (fun x => (x.1, x.2.1, x.2.2.1, x.2.2.2 + 1)) }))
      else .next t

/-- MIRROR_CTRL written: SNAP triggers a snapshot and reads 1 until it is readable (R495). -/
def writeMirrorCtrl (s : State) (v : Word) : State :=
  if !v.getLsbD 0 || s.power.domainsOff then s
  else
    let n := snapsAhead s
    updCtr (trigSnap s) (fun c => { c with mirrorWait := n })

/-- MIRROR_SNAP_WRITE (R486, R495). -/
def execMirrorSnapWrite (value : Word) (cyc : Nat) (s : State) : Host.Outcome State Fault Refusal := .next (writeMirrorCtrl (advanceTo s cyc) value)

/-! ## CNT_SEL (R491, Tables 21-5 and 21-6) -/

/-- The instances that an event allows besides 0x1F: how many from a first one; none for a reserved event. Event 0 counts nothing and allows all. -/
def eventInstances (e : Nat) : Option (Nat × Nat) :=
  if e == 0 then some (0, 0x1F)
  else if [0x01, 0x02, 0x03, 0x04, 0x39, 0x3A].contains e then some (0, 2)
  else if [0x10, 0x11, 0x12, 0x13, 0x14].contains e then some (0, 16)
  else if e == 0x0A then some (1, 7)
  else if e == 0x20 || e == 0x21 then some (0, 5)
  else if [0x05, 0x06, 0x07, 0x08, 0x09, 0x18, 0x19, 0x1A, 0x28, 0x30, 0x31, 0x38, 0x3B].contains e then some (0, 0)
  else none

/-- A selection that Table 21-6 allows. -/
def selAllowed (e inst : Nat) : Bool :=
  match eventInstances e with
  | none => false
  | some (first, n) => inst == 0x1F || (decide (first ≤ inst) && decide (inst < first + n))

/-- CNT_SEL[n] written: the selection, and counter n cleared alone (R487); a reserved event or a wrong INSTANCE is ignored (R491). -/
def writeCntSel (s : State) (n : Nat) (v : Word) : State :=
  let e := bits v.toNat 7 0
  let inst := bits v.toNat 12 8
  if n < 8 || 47 < n || !selAllowed e inst then s
  else
    updCtr s (fun c =>
      { c with sel := c.sel.set (n - 8) (e, inst), live := c.live.set n 0, past := c.past.map (fun x => (x.1, x.2.set n 0)) })

/-- CNT_SEL_WRITE (R487, R491). -/
def execCntSelWrite (req : Requester) (n : Nat) (value : Word) (s : State) : Host.Outcome State Fault Refusal :=
  if fromPort req then .next (writeCntSel s n value) else .next s

/-! ## Reading counters (R485) -/

/-- The counter counts cycles. -/
def countsCycles (s : State) (n : Nat) : Bool := n == 0 || (8 ≤ n && [0x21, 0x39, 0x3A, 0x3B].contains (s.ctr.sel.getD (n - 8) (0, 0)).1)

/-- What a read of a live counter may miss: the events stamped within the last 16 cycles (R485). -/
def counterSlack (s : State) (n : Nat) : Nat :=
  let v := s.ctr.live.getD n 0
  let old := ((s.ctr.past.getLast?).map (fun x => x.2.getD n 0)).getD 0
  Nat.min v (v - old + (if countsCycles s n then 16 else 0))

/-- A counter's value as a read finds it: exact in a snapshot; live, less a free part of what the read may miss (assumption 31). -/
def counterValue (s : State) (snapshot : Bool) (n : Nat) : Nat :=
  if snapshot then s.ctr.snap.getD n 0 else s.ctr.live.getD n 0 - (freeNow s).toNat % (counterSlack s n + 1)

/-- The high half latched for a requester (R485). -/
def latchCounter (s : State) (req : Requester) (w : Word) : State :=
  match req with
  | .portA => updPort s .a (fun x => { x with ctrHi := w })
  | .portB => updPort s .b (fun x => { x with ctrHi := w })
  | .sideband => updCtr s (fun c => { c with sideHi := w })

/-- The low half of a counter read: its high half is latched. -/
def readCounterLow (s : State) (req : Requester) (snapshot : Bool) (n : Nat) : State :=
  let v := counterValue s snapshot n
  let t := latchCounter { s with readData := lo32 v } req (hi32 v)
  if snapshot then t else drawFree t

/-- COUNTER_LOW_READ (R485). -/
def execCounterLowRead (req : Requester) (snapshot : Bool) (n : Nat) (s : State) : Host.Outcome State Fault Refusal :=
  if n < 48 then .next (readCounterLow s req snapshot n) else .next { s with readData := 0 }

/-! ## Periscope control (R494, Table 21-7) -/

/-- PSC_HEAD written: the samples before it are freed. -/
def writePscHead (s : State) (v : Word) : State :=
  updCtr s (fun c => { c with head := bits v.toNat 11 0 })

/-- PSC_CTRL, PSC_PERIOD and PSC_FILTER written; a period outside 1 to 65,536 and PORT 3 are ignored. -/
def writePsc (s : State) (n : Nat) (v : Word) : State :=
  let x := v.toNat
  match n with
  | 0 => updCtr s (fun c => { c with arm := v.getLsbD 0, wrap := v.getLsbD 1, jitter := v.getLsbD 2 })
  | 1 =>
    let p := bits x 16 0
    if 1 ≤ p && p ≤ 65536 then drawInterval (updCtr s (fun c => { c with pscPeriod := p })) else s
  | 2 =>
    let old := s.ctr.filter.toNat
    let port := if bits x 16 15 == 3 then bits old 16 15 else bits x 16 15
    updCtr s (fun c => { c with filter := pack [(bits x 14 0, 0), (port, 15), (bits x 25 17, 17)] })
  | _ => writePscHead s v

/-- PSC_HEAD_WRITE (R494). -/
def execPscHeadWrite (req : Requester) (value : Word) (s : State) : Host.Outcome State Fault Refusal :=
  if fromPort req then .next (writePscHead s value) else .next s

end Sys2Proof.Machine
end

