-- ==== Sys2Proof/Machine/Sha.lean ====
section
/-! DEFINITION. The algorithms of Table 17-1 as the digest engine runs them on whole blocks: SHA-256 and SHA-512 (FIPS 180-4) and SHA3-256
(FIPS 202). The engine pads nothing (R409). -/
namespace Sys2Proof.Machine
open Sys2Proof

/-- A number above 1 that no smaller number above 1 divides. -/
def isPrime (n : Nat) : Bool := decide (2 ≤ n) && (List.range n).all (fun d => decide (d < 2) || n % d != 0)

/-- The first primes, as many as asked for up to 80. -/
def firstPrimes (n : Nat) : List Nat := ((List.range 410).filter isPrime).take n

/-- The greatest r below base + 2^bits with r^k at most x, found one bit at a time from the top. -/
def rootFrom (k x : Nat) : Nat → Nat → Nat
  | 0, r => r
  | n + 1, r => rootFrom k x n (if (r + 2 ^ n) ^ k ≤ x then r + 2 ^ n else r)

/-- The first 64 bits of the fractional part of the k-th root of a prime: what FIPS 180-4 makes its constants of. -/
def rootFraction (k p : Nat) : BitVec 64 := BitVec.ofNat 64 (rootFrom k (p * 2 ^ (64 * k)) 69 0)

/-- Round constants of SHA-512: cube roots of the first 80 primes; SHA-256 uses the high halves of the first 64. -/
def sha512K : List (BitVec 64) := (firstPrimes 80).map (rootFraction 3)

/-- Initial chaining value of SHA-512: square roots of the first 8 primes; SHA-256 starts from its high halves. -/
def sha512H : List (BitVec 64) := (firstPrimes 8).map (rootFraction 2)

/-- The shift register of FIPS 202 behind the constants of iota, one step. -/
def lfsrStep (r : Nat) : Nat := if r < 128 then 2 * r else (2 * r) ^^^ 0x171

/-- The register after a number of steps from 1. -/
def lfsr : Nat → Nat
  | 0 => 1
  | n + 1 => lfsrStep (lfsr n)

/-- Round constants of Keccak-f: bit 2^j - 1 of round i is the register's low bit after j + 7 i steps (FIPS 202). -/
def keccakRC : List (BitVec 64) :=
  (List.range 24).map (fun i => BitVec.ofNat 64 ((List.range 7).foldl (fun a j => a + lfsr (j + 7 * i) % 2 * 2 ^ (2 ^ j - 1)) 0))

/-- The lanes x + 5 y in the order in which rho visits them from (1, 0), and the rotation that each gets there (FIPS 202). -/
def rhoWalk : Nat → Nat × Nat → List (Nat × Nat)
  | 0, _ => []
  | n + 1, (x, y) => (x + 5 * y, (24 - n) * (25 - n) / 2 % 64) :: rhoWalk n (y, (2 * x + 3 * y) % 5)

/-- Rotations of Keccak-f, lane x + 5 y. -/
def keccakRot : List Nat := (List.range 25).map (fun i => (((rhoWalk 24 (1, 0)).find? (fun z => z.1 == i)).map (·.2)).getD 0)

/-- A word of a list. -/
def wordAt {w : Nat} (l : List (BitVec w)) (i : Nat) : BitVec w := l.getD i 0

/-- Rotation amounts of a SHA-2 variant: the upper and lower case sigma functions; the last of each lower one is a shift. -/
structure ShaRot where
  big0 : Nat × Nat × Nat
  big1 : Nat × Nat × Nat
  small0 : Nat × Nat × Nat
  small1 : Nat × Nat × Nat
  deriving DecidableEq, Repr

def rot256 : ShaRot := ⟨(2, 13, 22), (6, 11, 25), (7, 18, 3), (17, 19, 10)⟩
def rot512 : ShaRot := ⟨(28, 34, 39), (14, 18, 41), (1, 8, 7), (19, 61, 6)⟩

/-- An upper case sigma. -/
def bigSigma {w : Nat} (r : Nat × Nat × Nat) (x : BitVec w) : BitVec w := x.rotateRight r.1 ^^^ x.rotateRight r.2.1 ^^^ x.rotateRight r.2.2

/-- A lower case sigma. -/
def smallSigma {w : Nat} (r : Nat × Nat × Nat) (x : BitVec w) : BitVec w := x.rotateRight r.1 ^^^ x.rotateRight r.2.1 ^^^ (x >>> r.2.2)

/-- One round on the eight working words a to h. -/
def shaRound {w : Nat} (r : ShaRot) (k m : BitVec w) (v : List (BitVec w)) : List (BitVec w) :=
  let e := wordAt v 4
  let a := wordAt v 0
  let t1 := wordAt v 7 + bigSigma r.big1 e + ((e &&& wordAt v 5) ^^^ (~~~e &&& wordAt v 6)) + k + m
  let t2 := bigSigma r.big0 a + ((a &&& wordAt v 1) ^^^ (a &&& wordAt v 2) ^^^ (wordAt v 1 &&& wordAt v 2))
  [t1 + t2, a, wordAt v 1, wordAt v 2, wordAt v 3 + t1, e, wordAt v 5, wordAt v 6]

/-- The rounds, with a window of sixteen words of the message schedule. -/
def shaRounds {w : Nat} (r : ShaRot) : List (BitVec w) → List (BitVec w) → List (BitVec w) → List (BitVec w)
  | [], _, v => v
  | k :: ks, m, v =>
    let next := smallSigma r.small1 (wordAt m 14) + wordAt m 9 + smallSigma r.small0 (wordAt m 1) + wordAt m 0
    shaRounds r ks (m.drop 1 ++ [next]) (shaRound r k (wordAt m 0) v)

/-- Sixteen big-endian words of a block. -/
def blockWords (w : Nat) (b : List Byte) : List (BitVec w) :=
  (List.range 16).map (fun i => BitVec.ofNat w (leNat (slice b (w / 8 * i) (w / 8)).reverse))

/-- A SHA-2 chaining value taken through one block. -/
def shaBlock {w : Nat} (r : ShaRot) (ks h : List (BitVec w)) (b : List Byte) : List (BitVec w) :=
  List.zipWith (· + ·) h (shaRounds r ks (blockWords w b) h)

/-- The high 32 bits of a 64-bit constant. -/
def highHalf (x : BitVec 64) : BitVec 32 := x.extractLsb' 32 32

/-- The 32-bit constants of SHA-256. -/
def sha256K : List (BitVec 32) := (sha512K.take 64).map highHalf
def sha256H : List (BitVec 32) := sha512H.map highHalf

/-- The parity of a column of the Keccak state. -/
def column (a : List (BitVec 64)) (x : Nat) : BitVec 64 :=
  wordAt a x ^^^ wordAt a (x + 5) ^^^ wordAt a (x + 10) ^^^ wordAt a (x + 15) ^^^ wordAt a (x + 20)

/-- One round of Keccak-f on 25 lanes: theta, rho and pi, chi, iota. -/
def keccakRound (rc : BitVec 64) (a : List (BitVec 64)) : List (BitVec 64) :=
  let c := (List.range 5).map (column a)
  let d := (List.range 5).map (fun x => wordAt c ((x + 4) % 5) ^^^ (wordAt c ((x + 1) % 5)).rotateLeft 1)
  let t := (List.range 25).map (fun i => wordAt a i ^^^ wordAt d (i % 5))
  let b := (List.range 25).map (fun i =>
    let x := i % 5
    let y := i / 5
    let src := (x + 3 * y) % 5 + 5 * x
    (wordAt t src).rotateLeft (keccakRot.getD src 0))
  let e := (List.range 25).map (fun i => wordAt b i ^^^ (~~~(wordAt b ((i % 5 + 1) % 5 + i / 5 * 5)) &&& wordAt b ((i % 5 + 2) % 5 + i / 5 * 5)))
  (wordAt e 0 ^^^ rc) :: e.drop 1

/-- Keccak-f[1600]. -/
def keccakF (a : List (BitVec 64)) : List (BitVec 64) := keccakRC.foldl (fun s rc => keccakRound rc s) a

/-- A block of the SHA3-256 rate absorbed. -/
def keccakBlock (a : List (BitVec 64)) (b : List Byte) : List (BitVec 64) :=
  keccakF ((List.range 25).map (fun i => if i < 17 then wordAt a i ^^^ BitVec.ofNat 64 (field b (8 * i) 8) else wordAt a i))

/-- The state of an algorithm before any block, as numbers. -/
def algInit (alg : Nat) : List Nat :=
  if alg == 1 then sha256H.map (·.toNat) else if alg == 2 then sha512H.map (·.toNat) else List.replicate 25 0

/-- The state after one block. -/
def algBlock (alg : Nat) (h : List Nat) (b : List Byte) : List Nat :=
  if alg == 1 then (shaBlock rot256 sha256K (h.map (BitVec.ofNat 32)) b).map (·.toNat)
  else if alg == 2 then (shaBlock rot512 sha512K (h.map (BitVec.ofNat 64)) b).map (·.toNat)
  else (keccakBlock (h.map (BitVec.ofNat 64)) b).map (·.toNat)

/-- The digest of a state at a block boundary (R409): the chaining value big-endian, or the first 32 bytes of the sponge. -/
def algDigest (alg : Nat) (h : List Nat) : List Byte :=
  if alg == 1 then h.flatMap (beBytes 4) else if alg == 2 then h.flatMap (beBytes 8) else (h.flatMap (leBytes 8)).take 32

end Sys2Proof.Machine
end

