-- ==== Sys2Proof/Machine/Digest.lean ====
section
/-! DEFINITION. The digest engine (chapter 17): contexts, slots and shelves, onions, chunks and pipes, and the digest commands. -/
namespace Sys2Proof.Machine
open Sys2Proof

/-! ## Absorbing (R409, R411) -/

/-- Whole blocks taken through an algorithm, n of them. -/
def absorbBlocks (alg : Nat) : Nat → List Nat → List Byte → List Nat
  | 0, h, _ => h
  | n + 1, h, bs => absorbBlocks alg n (algBlock alg h (bs.take (digBlock alg))) (bs.drop (digBlock alg))

/-- Bytes absorbed by a context. -/
def absorb (d : DigState) (bs : List Byte) : DigState :=
  let all := d.residue ++ bs
  let n := all.length / digBlock d.alg
  { d with chain := absorbBlocks d.alg n d.chain all, residue := all.drop (n * digBlock d.alg), fed := d.fed + bs.length }

/-- A context's state right after it is opened. -/
def digFresh (alg : Nat) (keyed : Bool) : DigState where
  alg := alg
  keyed := keyed
  chain := algInit alg
  residue := []
  fed := 0

/-- The key block of a keyed context: the key padded with zeros, every byte XORed with 0x36 or 0x5C (R411). -/
def keyBlock (alg pad : Nat) (key : List Byte) : List Byte :=
  (key ++ List.replicate (digBlock alg - key.length) 0).map (fun b => b ^^^ (if pad == 0 then 0x36 else 0x5C))

/-! ## Contexts and slots (R410, R420) -/

/-- The context that a command names, ended or not. -/
def namedDig (s : State) (c : Ctx) : Option DigCtx := s.dig.ctxs.find? (fun d => d.id == eCdw c.dw 0)

/-- A context changed. -/
def updDigCtx (s : State) (id : Nat) (f : DigCtx → DigCtx) : State :=
  updDig s (fun d => { d with ctxs := d.ctxs.map (fun k => if k.id == id then f k else k) })

/-- No earlier command naming the same context is still to be performed (R168). -/
def digTurn (s : State) (c : Ctx) : Bool :=
  s.ctxs.all (fun x => !(x.stage == .admitted && namesContext (eOpcode x.dw) && eCdw x.dw 0 == eCdw c.dw 0 && decide (x.csn < c.csn)))

/-- Slots taken: by contexts, and by commands for a context still to come. -/
def slotsTaken (s : State) : List Nat := s.dig.ctxs.filterMap (·.slot) ++ s.ctxs.filterMap (·.gotSlot)

/-- The lowest free slot of the 256. -/
def freeSlot (s : State) : Option Nat := (List.range 256).find? (fun n => !(slotsTaken s).contains n)

/-- The lowest free frame of a port's shelf: 128 frames in each 64 KiB unit. -/
def freeFrame (s : State) (p : Port) : Option Nat :=
  match (portOf s p).shelf with
  | none => none
  | some x =>
    let taken := s.dig.ctxs.filterMap (fun k => if k.port == p then k.frame else none)
    ((List.range (taken.length + 1)).find? (fun n => !taken.contains n)).filter (fun n => decide (n < 128 * x.units))

/-- Host address of a frame. -/
def frameAddr (s : State) (p : Port) (n : Nat) : Nat := ((portOf s p).shelf.map (·.base)).getD 0 + 512 * n

/-- Contexts that hold a slot, are idle, and whose port has a free frame. -/
def evictable (s : State) : List DigCtx :=
  s.dig.ctxs.filter (fun k => k.slot.isSome && k.busy.isNone && !k.ended && (freeFrame s k.port).isSome)

/-- The least recently used of them. -/
def victimCtx (s : State) : Option DigCtx :=
  (evictable s).foldl (fun a k => match a with | some x => if k.lastCsn < x.lastCsn then some k else a | none => some k) none

/-- Commands being performed on a context that holds a slot, or that hold a slot for a context to come. -/
def slotHolders (s : State) : List Nat :=
  s.dig.ctxs.filterMap (fun k => if k.slot.isSome then k.busy else none) ++ (s.ctxs.filter (fun c => c.gotSlot.isSome)).map (·.cid)

/-! ## Onions (R418, R419) -/

/-- The wrap key held under a KEY_KIND: 0 the device wrap key, 1 the pair wrap key. -/
def wrapKey (s : State) (kind : Nat) : Option (BitVec 256) :=
  if kind == 0 then some Config.deviceWrapKey else if kind == 1 then s.twin.pairRec.map (·.2) else none

/-- KEY_KIND under which this chip wraps. -/
def wrapKind (s : State) : Nat := b2n s.twin.pairRec.isSome

/-- KEY_REF of a KEY_KIND: the first 8 bytes of SHA-384 of the SERIAL, or of both in seat order. -/
def keyRef (s : State) (kind : Nat) : List Byte :=
  let own := Config.serial
  let text := if kind == 0 then own else
    match s.twin.pairRec with
    | some (other, _) => if s.twin.seat then other ++ own else own ++ other
    | none => own
  (beBytes 48 (Config.sha384 text).toNat).take 8

/-- Bytes of a state word: SHA-256 words are 4 bytes, the others 8; little-endian as every field of the onion. -/
def stateBytes (d : DigState) : List Byte := d.chain.flatMap (leBytes (if d.alg == 1 then 4 else 8))

/-- The 416 bytes of plaintext. -/
def onionPlain (d : DigState) : List Byte :=
  padTo 416 (padTo 200 (stateBytes d) ++ leBytes 2 d.residue.length ++ padTo 136 d.residue)

/-- The 64 bytes of additional authenticated data (Table 17-4). -/
def onionHead (s : State) (k : DigCtx) (shelf : Bool) (kind : Nat) (iv : List Byte) : List Byte :=
  leBytes 4 0x4F4E494E ++ byte1 1 ++ byte1 k.d.alg ++ byte1 (b2n k.d.keyed + 2 * b2n shelf) ++ byte1 kind ++ keyRef s kind
    ++ leBytes 4 k.id ++ zeros 4 ++ leBytes 8 k.d.fed ++ leBytes 8 s.cad.aet ++ iv ++ zeros 12

/-- The IV of the next wrap: seat, and the wrap counter. -/
def onionIv (s : State) : List Byte := byte1 (if s.twin.pairRec.isSome then b2n s.twin.seat else 0) ++ zeros 3 ++ leBytes 8 s.dig.wrapNext

/-- The onion of a context. -/
def onionOf (s : State) (k : DigCtx) (shelf : Bool) : List Byte :=
  let kind := wrapKind s
  let head := onionHead s k shelf kind (onionIv s)
  head ++ padTo 432 (((wrapKey s kind).map (fun key => Config.gcmSeal key (onionIv s) head (onionPlain k.d))).getD []) ++ zeros 16

/-- One value of the wrap counter used; a new block of 2^20 is reserved in keeper flash before the first value of it (R419). -/
def useWrap (s : State) : State :=
  updDig s (fun d => { d with
    wrapReserved := if d.wrapReserved ≤ d.wrapNext then d.wrapNext + 2 ^ 20 else d.wrapReserved
    wrapNext := d.wrapNext + 1 })

/-- GCM_TAG of an onion. -/
def onionTag (o : List Byte) : List Byte := slice o 0x1E0 16

/-- State words of a plaintext. -/
def plainChain (alg : Nat) (p : List Byte) : List Nat :=
  if alg == 1 then (List.range 8).map (fun i => field p (4 * i) 4)
  else (List.range (if alg == 2 then 8 else 25)).map (fun i => field p (8 * i) 8)

/-- The state that a plaintext and its authenticated data carry. -/
def plainState (o p : List Byte) : DigState where
  alg := field o 5 1
  keyed := field o 6 1 % 2 == 1
  chain := plainChain (field o 5 1) p
  residue := slice p 202 (field p 200 2)
  fed := field o 0x18 8

/-- An onion opened under the key it names. -/
def openOnion (s : State) (o : List Byte) : Option DigState :=
  ((wrapKey s (field o 7 1)).bind (fun key => Config.gcmOpen key (slice o 0x28 12) (o.take 64) (slice o 0x40 416) (onionTag o))).map (plainState o)

/-- The reason for which DIGEST_LOAD refuses an onion, or its state (R422). -/
def judgeOnion (s : State) (o : List Byte) : Nat ⊕ DigState :=
  let kind := field o 7 1
  let flags := field o 6 1
  if field o 0 4 != 0x4F4E494E || field o 4 1 != 1 || flags / 4 != 0 || field o 0x14 4 != 0 || field o 0x34 12 != 0 || field o 0x1F0 16 != 0 then .inl 1
  else if field o 5 1 == 0 || 3 < field o 5 1 then .inl 2
  else if (wrapKey s kind).isNone || slice o 8 8 != keyRef s kind then .inl 3
  else
    match openOnion s o with
    | none => .inl 4
    | some d => if flags / 2 % 2 == 1 then .inl 5 else .inr d

/-! ## Taking a slot (R420) -/

/-- A context evicted into the lowest free frame of its port's shelf. -/
def evictCtx (s : State) (k : DigCtx) : State :=
  match freeFrame s k.port with
  | none => s
  | some n =>
    let o := onionOf s k true
    updDigCtx (useWrap (emit s (.bytes k.port (frameAddr s k.port n) o))) k.id (fun x => { x with slot := none, frame := some n, tag := onionTag o })

/-- A slot obtained: a free one, or that of the evicted context. -/
def takeSlot (s : State) : Option (State × Nat) :=
  match freeSlot s with
  | some n => some (s, n)
  | none =>
    match victimCtx s with
    | some k => k.slot.map (fun n => (evictCtx s k, n))
    | none => none

/-- Ready chunks of a command withdrawn. -/
def dropChunks (s : State) (cid : Nat) : State := updDig s (fun d => { d with ready := d.ready.filter (fun k => k.cid != cid) })

/-- What a digest command that ended held: its context no longer busy with it, the slot it took, its wait. -/
def digReleased (s : State) (cid : Nat) : State :=
  dropEnded (updCtx (updDig (dropChunks s cid) (fun d => { d with ctxs := d.ctxs.map (fun k => if k.busy == some cid then { k with busy := none } else k) }))
    cid (fun c => { c with gotSlot := none, waitSlot := false, waitFor := [], stream := [] }))

/-- A digest command fails: its context is left as it stood before the command (R412). -/
def digFail (s : State) (c : Ctx) (v : Verdict) : State := digReleased (failCommand s c v) c.cid

/-- CONTEXT_BUSY with its cause in RESULT0 (R415). -/
def ctxBusy (s : State) (c : Ctx) (cause : Nat) : State :=
  updCtx (digFail s c { status := 0x5001, origin := 5 }) c.cid (fun c => { c with result0 := w32 cause })

/-- A digest command performed. -/
def digPerform (s : State) (cid : Nat) (r0 r1 : Word) (status : Half := 0) : State := digReleased (perform s cid r0 r1 status) cid

/-- A command begins to wait for a slot, or completes with cause 1 where nothing is being performed that could free one. -/
def awaitSlot (s : State) (c : Ctx) : State :=
  match slotHolders s with
  | [] => ctxBusy s c 1
  | hs => updCtx s c.cid (fun c => { c with waitSlot := true, waitFor := hs })

/-! ## Chunks (R417) -/

/-- The bytes of a command's input. -/
def inputLen (c : Ctx) : Nat :=
  match eOpcode c.dw with
  | 0x10 => digBlock (bits (eCdw c.dw 0) 3 0)
  | 0x11 => eCdw c.dw 1
  | 0x12 => 4096 * eCount c.dw
  | 0x13 => bits (eCdw c.dw 1) 16 0
  | _ => 0

/-- The leading units of a feed that are read and pass their checks (R152). -/
def leadingUnits (s : State) (c : Ctx) : Nat :=
  (c.units.takeWhile (fun u => unitResolved u && (match unitResult s c.dw u with | .inl _ => true | .inr _ => false))).length

/-- The bytes of a command's input that are staged. -/
def stagedLen (s : State) (c : Ctx) : Nat := if eOpcode c.dw == 0x12 then 4096 * leadingUnits s c else inputLen c

/-- A chunk of the command is ready or in a pipe. -/
def chunkOut (s : State) (cid : Nat) : Bool := s.dig.ready.any (fun k => k.cid == cid) || s.dig.pipes.any (fun p => p.2.cid == cid)

/-- A ready chunk queued in order of readiness, the lower slot first within a cycle (R22, R417). -/
def putReady (k : Chunk) : List Chunk → List Chunk
  | [] => [k]
  | h :: t => if k.cyc == h.cyc && k.slot < h.slot then k :: h :: t else h :: putReady k t

/-- The slot that a command's chunks carry. -/
def chunkSlot (s : State) (c : Ctx) : Nat := (c.gotSlot.orElse (fun _ => (namedDig s c).bind (·.slot))).getD 0

/-- The next chunk of a command made ready, once its data is staged and the one before has left its pipe. -/
def readyChunk (s : State) (cid : Nat) : State :=
  match ctxOf s cid with
  | none => s
  | some c =>
    let total := inputLen c
    let n := Nat.min 65536 (total - c.chunkAt)
    if n == 0 || chunkOut s cid || stagedLen s c < c.chunkAt + n then s
    else
      let k : Chunk := { cid := cid, slot := chunkSlot s c, cyc := s.now, bytes := n }
      updDig s (fun d => { d with ready := putReady k d.ready })

/-- DIGEST_CHUNK_DISPATCH (R417): the first ready chunk goes to the lowest-numbered free pipe. -/
def execDigestChunkDispatch (s : State) : Host.Outcome State Fault Refusal :=
  match s.dig.ready, (List.range 16).find? (fun n => s.dig.pipes.all (fun p => p.1 != n)) with
  | k :: ks, some n =>
    if s.jrnl.stopFrom.isSome then .next s
    else .next (countEvent (updDig s (fun d => { d with ready := ks, pipes := d.pipes ++ [(n, k)] })) 0x30 0 1)
  | _, _ => .next s

/-! ## Opening (R410, R411) -/

/-- The next context number of a port at or after n that no context of it carries. -/
def numberFrom (s : State) (p : Port) : Nat → Nat → Nat
  | 0, n => n
  | fuel + 1, n =>
    let n := if 0xFFFFFF < n then 1 else n
    if s.dig.ctxs.any (fun k => k.id == n + portNum p * 2 ^ 24) then numberFrom s p fuel (n + 1) else n

/-- A new context in a slot: its CONTEXT_ID. -/
def newContext (s : State) (c : Ctx) (slot : Nat) (d : DigState) : State × Nat :=
  let n := numberFrom s c.port (s.dig.ctxs.length + 1) (portOf s c.port).digestNext
  let id := n + portNum c.port * 2 ^ 24
  let k : DigCtx :=
    { id := id, port := c.port, d := d, slot := some slot, frame := none, tag := [], lastCsn := c.csn, standing := none, busy := none
      ended := false, cause := 3 }
  (updPort (updDig s (fun x => { x with ctxs := x.ctxs ++ [k] })) c.port (fun x => { x with digestNext := if n == 0xFFFFFF then 1 else n + 1 }), id)

/-- A command that makes a context ends with its CONTEXT_ID. -/
def openDone (s : State) (c : Ctx) (slot : Nat) (d : DigState) : State :=
  let r := newContext (updCtx s c.cid (fun c => { c with gotSlot := none })) c slot d
  digPerform r.1 c.cid (w32 r.2) 0

/-- A command that makes a context goes on with its slot, takes one, or waits for one. -/
def withSlot (s : State) (c : Ctx) (go : State → Nat → State) : State :=
  match c.gotSlot with
  | some n => go s n
  | none =>
    match takeSlot s with
    | some (t, n) => go (updCtx t c.cid (fun c => { c with gotSlot := some n })) n
    | none => awaitSlot s c

/-- DIGEST_OPEN (R410, R411, R415). -/
def execDigestOpen (cid : Nat) (key : HostFetch) (s : State) : Host.Outcome State Fault Refusal :=
  match ctxIn s cid 0x10 with
  | none => .next s
  | some c =>
    let alg := bits (eCdw c.dw 0) 3 0
    let keyed := bits (eCdw c.dw 0) 4 4 == 1
    if c.waitSlot || chunkOut s cid || (keyed && c.stream.isEmpty && !fetchFits c.dw key) then .next s
    else if !keyed then .next (withSlot s c (fun t n => openDone t c n (digFresh alg false)))
    else
      match (if c.stream.isEmpty then fetchOutcome c.dw (expectedLen s c.dw) key else .inl c.stream) with
      | .inr f => .next (digFail s c (fetchVerdict f))
      | .inl bs => .next (withSlot (updCtx s cid (fun c => { c with stream := bs })) c (fun t _ => readyChunk t cid))

/-! ## Commands on a context -/

/-- A command on a context begins, or goes on: it runs on a context in a slot once the earlier ones are performed; an ended context gives
CONTEXT_BUSY; a parked one waits to be brought back (R168, R413, R420, R421). -/
def onContext (s : State) (c : Ctx) (go : State → DigCtx → State) : State :=
  match namedDig s c with
  | none => ctxBusy s c 3
  | some k =>
    if k.ended then ctxBusy s c k.cause
    else if c.waitSlot || !digTurn s c || k.busy.any (· != c.cid) then s
    else if k.slot.isNone then
      (if (freeSlot s).isNone && (victimCtx s).isNone && (slotHolders s).isEmpty then ctxBusy s c 1
       else updCtx s c.cid (fun x => { x with waitSlot := true, waitFor := slotHolders s }))
    else go (updDigCtx s k.id (fun x => { x with busy := some c.cid })) k

/-- A command ends with its context continuing in a new state. -/
def fedTo (s : State) (c : Ctx) (id : Nat) (d : DigState) (r0 r1 : Word) (status : Half := 0) : State :=
  digPerform (updDigCtx s id (fun k => { k with d := d, lastCsn := c.csn })) c.cid r0 r1 status

/-- A context ends and its slot or frame is free (R415). -/
def endCtx (s : State) (id : Nat) : State := updDig s (fun d => { d with ctxs := d.ctxs.filter (fun k => k.id != id) })

/-- DIGEST_FEED_HOST (R415). -/
def execDigestFeedHost (cid : Nat) (data : HostFetch) (s : State) : Host.Outcome State Fault Refusal :=
  match ctxIn s cid 0x11 with
  | none => .next s
  | some c =>
    if chunkOut s cid || !fetchFits c.dw data then .next s
    else
      .next (onContext s c (fun t _ =>
        match fetchOutcome c.dw (expectedLen s c.dw) data with
        | .inr f => digFail t c (fetchVerdict f)
        | .inl bs => readyChunk (updCtx t cid (fun c => { c with stream := bs })) cid))

/-- DIGEST_FEED_MEDIUM (R164): chunks become ready as the units are read; a unit that fails its read or its checks fails the command once
all are read. -/
def execDigestFeedMedium (cid : Nat) (s : State) : Host.Outcome State Fault Refusal :=
  match ctxIn s cid 0x12 with
  | none => .next s
  | some c =>
    .next (onContext s c (fun t _ =>
      match (if c.units.all unitResolved then readVerdict t c else none) with
      | some v => digFail t c v
      | none => readyChunk t cid))

/-- FINAL at the last block: the digest written or compared, and the context ended (R409, R416). -/
def finalDone (s : State) (c : Ctx) (k : DigCtx) (tail expected : List Byte) : State :=
  let digest := algDigest k.d.alg (absorb k.d tail).chain
  let t := endCtx s k.id
  if bits (eCdw c.dw 1) 24 24 == 1 then digPerform t c.cid (w32 (b2n (digest != expected))) 0
  else digPerform (emit t (.bytes c.port (eCdw23 c.dw) digest)) c.cid (w32 digest.length) 0

/-- The tail that ends the block which residue and tail reach into (R409). -/
def wantedTail (d : DigState) (tail : Nat) : Nat := ceilDiv (d.residue.length + tail) (digBlock d.alg) * digBlock d.alg - d.residue.length

/-- The expected digest of a FINAL with MATCH as read from DIGEST_ADDR, which no list describes, or the kind of fault (R416). -/
def expectedRead (n : Nat) : HostFetch → List Byte ⊕ Nat
  | .bytes bs => .inl (padTo n (bs.take n))
  | .fault _ _ _ kind => .inr kind
  | .listed .. => .inl []

/-- A fetch of a stream that no list describes. -/
def plainFetch : HostFetch → Bool
  | .listed .. => false
  | _ => true

/-- DIGEST_FINAL (R409, R415, R416): the tail is fetched, its length judged, and its chunk made ready; without a tail it ends at once. -/
def execDigestFinal (cid : Nat) (tail expected : HostFetch) (s : State) : Host.Outcome State Fault Refusal :=
  match ctxIn s cid 0x13 with
  | none => .next s
  | some c =>
    if chunkOut s cid || (expectedLen s c.dw != 0 && !fetchFits c.dw tail) || !plainFetch expected then .next s
    else
      .next (onContext s c (fun t k =>
        let n := expectedLen s c.dw
        match (if n == 0 then .inl [] else fetchOutcome c.dw n tail) with
        | .inr f => digFail t c (fetchVerdict f)
        | .inl bs =>
          if (k.d.residue.length + n) % digBlock k.d.alg != 0 then
            digFail t c
              { status := 0x1004, origin := 4, byteOffset := Nat.min n (wantedTail k.d n), detail0 := wantedTail k.d n, detail1 := n }
          else
            match (if bits (eCdw c.dw 1) 24 24 == 1 then expectedRead (digLen k.d.alg) expected else .inl []) with
            | .inr kind => digFail t c { status := 0x1005, origin := 5, detail0 := 0xFFFFFFFF, detail1 := kind }
            | .inl e =>
              if n == 0 then finalDone t c k [] e
              else readyChunk (updCtx t cid (fun c => { c with stream := bs ++ e })) cid))

/-- DIGEST_SAVE (R415, R418): the list is checked, and the onion is written while the context continues. -/
def execDigestSave (cid : Nat) (list : ListRead) (s : State) : Host.Outcome State Fault Refusal :=
  match ctxIn s cid 0x14 with
  | none => .next s
  | some c =>
    .next (onContext s c (fun t k =>
      match judgeList c.dw (expectedLen s c.dw) 4 list with
      | some v => digFail t c v
      | none => fedTo (useWrap (deliver t c.port (extentsOf c.dw list) (onionOf t k false))) c k.id k.d (lo32 k.d.fed) (hi32 k.d.fed)))

/-- DIGEST_LOAD (R415, R422). -/
def execDigestLoad (cid : Nat) (onion : HostFetch) (s : State) : Host.Outcome State Fault Refusal :=
  match ctxIn s cid 0x15 with
  | none => .next s
  | some c =>
    if c.waitSlot || (c.stream.isEmpty && !fetchFits c.dw onion) then .next s
    else
      match (if c.stream.isEmpty then fetchOutcome c.dw (expectedLen s c.dw) onion else .inl c.stream) with
      | .inr f => .next (digFail s c (fetchVerdict f))
      | .inl o =>
        match judgeOnion s o with
        | .inl reason => .next (digPerform s cid 0xFFFFFFFF (w32 reason))
        | .inr d => .next (withSlot (updCtx s cid (fun c => { c with stream := o })) c (fun t n => openDone t c n d))

/-- DIGEST_CLOSE (R415): the context ends wherever it lies. -/
def execDigestClose (cid : Nat) (s : State) : Host.Outcome State Fault Refusal :=
  match ctxIn s cid 0x16 with
  | none => .next s
  | some c =>
    match namedDig s c with
    | none => .next (ctxBusy s c 3)
    | some k =>
      if k.ended then .next (ctxBusy s c k.cause)
      else if !digTurn s c || k.busy.isSome then .next s
      else .next (digPerform (endCtx s k.id) cid 0 0)

/-! ## Chunks done, waits ended -/

/-- A command whose whole input has passed the pipes is performed. -/
def digestDone (s : State) (c : Ctx) : State :=
  let alg := bits (eCdw c.dw 0) 3 0
  if eOpcode c.dw == 0x10 then
    openDone s c (c.gotSlot.getD 0) (absorb (digFresh alg true) (keyBlock alg (bits (eCdw c.dw 0) 5 5) c.stream))
  else
    match namedDig s c with
    | none => ctxBusy s c 3
    | some k =>
      let n := bits (eCdw c.dw 1) 16 0
      if k.ended then ctxBusy s c k.cause
      else if eOpcode c.dw == 0x11 then
        let d := absorb k.d c.stream
        fedTo s c k.id d (lo32 d.fed) (hi32 d.fed)
      else if eOpcode c.dw == 0x12 then
        fedTo s c k.id (absorb k.d ((readBlocks s c).flatMap (fun b => b.2.data))) (w32 (unwrittenCount c)) (w32 (recoveredCount c)) (readStatus c)
      else finalDone s c k (c.stream.take n) (c.stream.drop n)

/-- DIGEST_CHUNK_DONE (R417): a chunk leaves its pipe and pulses the pipe's request line; the next chunk becomes ready, or the command whose
last chunk it was is performed. -/
def execDigestChunkDone (pipe : Nat) (s : State) : Host.Outcome State Fault Refusal :=
  match s.dig.pipes.find? (fun p => p.1 == pipe) with
  | none => .next s
  | some (_, k) =>
    let t := pulseLine (updDig s (fun d => { d with pipes := d.pipes.filter (fun p => p.1 != pipe) })) (32 + pipe)
    match (ctxOf t k.cid).filter (fun c => c.stage == .admitted && t.jrnl.stopFrom.isNone) with
    | none => .next t
    | some c =>
      let at_ := c.chunkAt + k.bytes
      let t := updCtx t k.cid (fun c => { c with chunkAt := at_ })
      if at_ < inputLen c then
        (if (namedDig t c).any (·.ended) then .next (digestDone t c) else .next (readyChunk t k.cid))
      else .next (digestDone t c)

/-- An onion read back from its frame is the one recorded at eviction (R420). -/
def frameGood (k : DigCtx) (o : List Byte) : Bool :=
  field o 0 4 == 0x4F4E494E && onionTag o == k.tag && field o 0x10 4 == k.id && field o 0x18 8 == k.d.fed

/-- A parked context brought back into a slot, or ended where its frame does not pass (R420). -/
def bringBack (s : State) (c : Ctx) (k : DigCtx) (slot : Nat) (frame : HostFetch) : State :=
  let found := match frame with | .bytes o => if frameGood k o then openOnion s o else none | _ => none
  match found with
  | some d => updCtx (updDigCtx s k.id (fun x => { x with d := d, slot := some slot, frame := none })) c.cid (fun c => { c with waitSlot := false, waitFor := [] })
  | none => ctxBusy (endContexts (updDigCtx s k.id (fun x => { x with cause := 2 })) (fun x => x.id == k.id)) c 2

/-- Every command that was being performed when the wait began has ended (R420). -/
def waitOver (s : State) (c : Ctx) : Bool := c.waitFor.all (fun n => (ctxOf s n).all (fun x => x.stage != .admitted))

/-- CONTEXT_SLOT_WAIT_END (R420): the waiting command takes a slot, for a new context or to bring its parked one back from `frame`; or
completes with cause 1 once those it waited for have ended and there is none. -/
def execContextSlotWaitEnd (cid : Nat) (frame : HostFetch) (s : State) : Host.Outcome State Fault Refusal :=
  match (ctxOf s cid).filter (fun c => c.stage == .admitted && c.waitSlot && s.jrnl.stopFrom.isNone) with
  | none => .next s
  | some c =>
    let named := namesContext (eOpcode c.dw)
    match takeSlot s, namedDig s c with
    | some (t, n), k =>
      if !named then .next (updCtx t cid (fun c => { c with waitSlot := false, waitFor := [], gotSlot := some n }))
      else
        match k with
        | none => .next (ctxBusy s c 3)
        | some k => if k.ended then .next (ctxBusy s c k.cause) else .next (bringBack t c k n frame)
    | none, _ => if waitOver s c then .next (ctxBusy s c 1) else .next s

end Sys2Proof.Machine
end

