-- ==== Sys2Proof/Machine/KeeperFlash.lean ====
section
/-! DEFINITION. The keeper flash sequencer with its two requesters (R445 to R450), its commands KF_*, and recovery mode asked for and left
over the sideband (R451). `side` names requester 1, the sideband window; else requester 0, the keeper core. -/
namespace Sys2Proof.Machine
open Sys2Proof

/-! ## Requesters and banks -/

/-- A requester's copy of the registers. -/
def kfReq (s : State) (side : Bool) : KfReq := if side then s.kf.side else s.kf.core

/-- A requester's copy changed. -/
def updKfReq (s : State) (side : Bool) (f : KfReq → KfReq) : State :=
  updKf s (fun k => if side then { k with side := f k.side } else { k with core := f k.core })

/-- Bits of KF_STATUS (Table 19-4). -/
def kfDone : Nat := 3
def kfSequence : Nat := 4
def kfSelfBank : Nat := 5
def kfLocked : Nat := 6
def kfAlign : Nat := 7
def kfNotErased : Nat := 8
def kfUnverified : Nat := 9
def kfVerifyFail : Nat := 10
def kfMarginFail : Nat := 11

/-- A flag of KF_STATUS set. -/
def kfSet (s : State) (side : Bool) (n : Nat) : State :=
  updKfReq s side (fun r => { r with flags := r.flags ||| (1 : BitVec 12) <<< n })

/-- A flag set and KEY_STATE back at 0; nothing starts (R445, R448, R449). -/
def kfRefuse (s : State) (side : Bool) (n : Nat) : State := updKfReq (kfSet s side n) side (fun r => { r with key := 0 })

/-- Bank 1 begins at 0x200_0000 (R443). -/
def inBank1 (addr : Nat) : Bool := decide (0x2000000 ≤ addr)

/-- A requester's running command lies in a bank. -/
def runsIn (r : KfReq) (bank : Bool) : Bool := (r.running.map (fun x => inBank1 x.2 == bank)).getD false

/-- A bank runs a program, erase, margin read or CRC (R445). -/
def bankBusy (s : State) (bank : Bool) : Bool := runsIn s.kf.core bank || runsIn s.kf.side bank

/-- A requester has a command that runs or waits for its bank. -/
def kfBusy (r : KfReq) : Bool := r.running.isSome || r.waiting.isSome

/-- The sector of an address. -/
def sectorOf (addr : Nat) : Nat := addr / sectorSize * sectorSize

/-- Regions whose records State holds as data of their own: saved features up to the RESUMPTION logs, stop records excepted (Table 19-1). What their bytes read as
is a free value (assumption 23). -/
def recordRegion (addr : Nat) : Bool :=
  decide (0x3840000 ≤ addr) && decide (addr < 0x3DD0000) && !(decide (0x3860000 ≤ addr) && decide (addr < 0x3880000))

/-- The two sectors of saved feature values (Table 19-1). -/
def savedRegion (addr : Nat) : Bool := decide (0x3840000 ≤ addr) && decide (addr < 0x3860000)

/-- A PROGRAM or ERASE of the sequencer in the saved feature values: which of their records still pass their CRC is open (R175). -/
def hitSaved (s : State) (cmd addr : Nat) : State :=
  if (cmd == 1 || cmd == 2) && savedRegion addr then updKf s (fun k => { k with savedHit := true }) else s

/-- n bytes of free values, numbered from the next draw on. -/
def freeBytes (s : State) (n : Nat) : List Byte :=
  (List.range n).map (fun i => BitVec.ofNat 8 ((Config.freeValue (s.free + i / 8)).toNat >>> (8 * (i % 8))))

/-- The free values of n bytes drawn. -/
def drawBytes (s : State) (n : Nat) : State := { s with free := s.free + ceilDiv n 8 }

/-- What n bytes of keeper flash read as. -/
def kfBytes (s : State) (addr n : Nat) : List Byte := if recordRegion addr then freeBytes s n else memBytes s.kf.mem addr n

/-! ## Starting a command -/

/-- Word n of KF_DATA; one not written since reset is 0. -/
def dataWord (data : List (Nat × Word)) (n : Nat) : Word :=
  match data.find? (fun x => x.1 == n) with
  | some x => x.2
  | none => 0

/-- The bytes of KF_DATA as written: word n holds bytes 4n to 4n + 3, little-endian (Table 19-4). -/
def bufferBytes (data : List (Nat × Word)) : List Byte := (List.range 64).flatMap (fun n => leBytes 4 (dataWord data n).toNat)

/-- Bytes of a PROGRAM that change: those that the data does not leave at 0xFF, with their addresses (R446). -/
def programmed (addr : Nat) (bs : List Byte) : List (Nat × Byte) := ((List.range bs.length).zip bs).filterMap (fun (x : Nat × Byte) => if x.2 == 0xFF then none else some (addr + x.1, x.2))

/-- A byte to be programmed does not read 0xFF (R446). -/
def notErased (s : State) (addr : Nat) (bs : List Byte) : Bool :=
  (programmed addr bs).any (fun x => memRead s.kf.mem x.1 != 0xFF) || (recordRegion addr && (freeNow s).getLsbD 0)

/-- KF_DATA with one word replaced. -/
def putWord (data : List (Nat × Word)) (n : Nat) (v : Word) : List (Nat × Word) := (n, v) :: data.filter (fun x => x.1 != n)

/-- A command whose bank is free begins. A PROGRAM of a unit not erased or unverified is refused with nothing changed; a READ ends at once. -/
def kfBegin (s : State) (side : Bool) (cmd addr : Nat) : State :=
  let r := kfReq s side
  let s := updKfReq s side (fun r => { r with waiting := none })
  if cmd == 1 then
    let bs := bufferBytes r.buffer
    let t := if recordRegion addr then drawFree s else s
    let bad1 := notErased s addr bs
    let bad2 := s.kf.unverified.contains (sectorOf addr)
    let t := if bad1 then kfSet t side kfNotErased else t
    let t := if bad2 then kfSet t side kfUnverified else t
    if bad1 || bad2 then t else updKfReq t side (fun r => { r with running := some (cmd, addr) })
  else if cmd == 4 then
    let bs := kfBytes s addr 256
    let t := if recordRegion addr then drawBytes s 256 else s
    kfSet (updKfReq t side (fun r => { r with data := (List.range 64).map (fun n => (n, w32 (field bs (4 * n) 4))) })) side kfDone
  else updKfReq s side (fun r => { r with running := some (cmd, addr) })

/-- A requester's waiting command begins where its bank is free. -/
def kfWake (s : State) (side : Bool) : State :=
  match (kfReq s side).waiting with
  | some (cmd, addr) => if bankBusy s (inBank1 addr) then s else kfBegin s side cmd addr
  | none => s

/-- Waiting commands begin, requester 0 first (R445, R22). -/
def kfSettle (s : State) : State := kfWake (kfWake s false) true

/-- PROGRAM or ERASE that R449 refuses. -/
def kfLockedOut (s : State) (side : Bool) (cmd addr : Nat) : Bool :=
  (cmd == 1 || cmd == 2) && (sectorOf addr == factoryRow || (side && !s.kf.recMode))

/-- PROGRAM or ERASE made by an instruction in the target bank (R448). A requester that fetches no instructions is never refused so. -/
def kfSelf (side : Bool) (cmd addr : Nat) (pc : Option Nat) : Bool :=
  (cmd == 1 || cmd == 2) && !side && (pc.map (fun a => inBank1 a == inBank1 addr)).getD false

/-- A command starts: KEY_STATE returns to 0, and it begins or waits for its bank (R445). -/
def kfStart (s : State) (side : Bool) (cmd addr : Nat) : State :=
  if kfLockedOut s side cmd addr then kfRefuse s side kfLocked
  else kfSettle (updKfReq s side (fun r => { r with key := 0, addrGiven := false, waiting := some (cmd, addr), buffer := r.data }))

/-- Alignment of a command's address (Table 19-2). -/
def kfAligned (cmd addr : Nat) : Bool := addr % (if cmd == 1 || cmd == 4 then 256 else sectorSize) == 0

/-! ## The writes of the sequence (R445) -/

/-- KF_KEY written. -/
def kfWriteKey (s : State) (side : Bool) (v : Nat) : State :=
  let r := kfReq s side
  if kfBusy r then kfRefuse s side kfSequence
  else if r.key == 0 && v == 0xA5C3 then updKfReq s side (fun r => { r with key := 1 })
  else if r.key == 1 && v == 0x3C5A then updKfReq s side (fun r => { r with key := 2 })
  else kfRefuse s side kfSequence

/-- KF_CMD written. -/
def kfWriteCmd (s : State) (side : Bool) (v : Nat) : State :=
  if (kfReq s side).key == 2 && 1 ≤ v && v ≤ 5 then updKfReq s side (fun r => { r with key := 3, cmd := v, addrGiven := false })
  else kfRefuse s side kfSequence

/-- KF_ADDR written with the value v: it starts every command but PROGRAM. -/
def kfWriteAddr (s : State) (side : Bool) (v : Nat) (pc : Option Nat) : State :=
  let r := kfReq s side
  let t := updKfReq s side (fun r => { r with addr := v % 0x4000000 })
  if r.key != 3 || r.addrGiven then kfRefuse t side kfSequence
  else if 0x3FFFFFF < v || !kfAligned r.cmd v then kfSet t side kfAlign
  else if r.cmd == 1 then updKfReq t side (fun r => { r with addrGiven := true })
  else if !kfLockedOut s side r.cmd v && kfSelf side r.cmd v pc then kfRefuse s side kfSelfBank
  else kfStart t side r.cmd v

/-- KF_DATA word n written: word 63 after KF_ADDR starts a PROGRAM. -/
def kfWriteData (s : State) (side : Bool) (n : Nat) (v : Word) (pc : Option Nat) : State :=
  let r := kfReq s side
  let t := updKfReq s side (fun r => { r with data := putWord r.data n v })
  if n == 63 && r.key == 3 && r.cmd == 1 && r.addrGiven then
    if !kfLockedOut s side 1 r.addr && kfSelf side 1 r.addr pc then updKfReq (kfRefuse s side kfSelfBank) side (fun r => { r with addrGiven := false })
    else kfStart t side 1 r.addr
  else t

/-- The writes of KF_CMD and KF_ADDR that follow the key. -/
def kfCommand (s : State) (side : Bool) (cmd addr : Nat) (pc : Option Nat) : State := kfWriteAddr (kfWriteCmd s side cmd) side addr pc

/-- The sequencer answers: its registers are out of reset (R450). -/
def kfLive (s : State) (f : State → State) : Host.Outcome State Fault Refusal := if s.kf.porst then .next s else .next (f s)

/-! ## The end of a command -/

/-- The image slot that holds an address. -/
def slotHolding (addr : Nat) : Option Nat :=
  (List.range 6).find? (fun n => decide (slotBase n ≤ addr) && decide (addr < slotBase n + slotSize (n / 2)))

/-- A slot of the keeper's own becomes invalid (R446, R447); in recovery mode the keeper writes nothing. -/
def kfSlotBad (s : State) (side : Bool) (addr : Nat) : State :=
  match slotHolding addr with
  | some n => if side || s.kf.recMode then s else putBoot s (fun r => updSlot r n (fun x => { x with st := 2 }))
  | none => s

/-- Bits of a range that read 0. -/
def zeroBits (bs : List Byte) : Nat := bs.foldl (fun n b => n + ((List.range 8).filter (fun i => !b.getLsbD i)).length) 0

/-- A sector whose margin read by the keeper failed once more; at the third it is worn: a slot becomes invalid, and for a record region a
HEALTH event is raised, whose CODE the spec does not give (R447) (assumption 24). -/
def kfMarginBad (s : State) (side : Bool) (sector : Nat) : State :=
  if side || s.kf.recMode then s
  else
    let n := (((s.kf.marginFails.find? (fun x => x.1 == sector)).map (·.2)).getD 0) + 1
    let t := updKf s (fun k => { k with marginFails := (sector, n) :: k.marginFails.filter (fun x => x.1 != sector) })
    if n != 3 then t
    else
      match slotHolding sector with
      | some _ => kfSlotBad t side sector
      | none => raiseEvent (drawFree t) 2 ((freeNow t).toNat % 4096) t.media.horizon 0

/-- PROGRAM ended: with every bit agreed its bytes stand; else VERIFY_FAIL, and its bytes are undefined (R446) (assumption 25). -/
def endProgram (s : State) (side : Bool) (addr pulses : Nat) (agreed : Bool) : State :=
  let cells := programmed addr (bufferBytes (kfReq s side).buffer)
  if agreed then
    updKfReq (updKf s (fun k => { k with mem := cells.foldl (fun m x => memWrite m x.1 x.2) k.mem })) side (fun r => { r with pulses := Nat.max 1 (Nat.min 8 pulses) })
  else
    let junk := freeBytes s cells.length
    let t := drawBytes (updKf s (fun k => { k with mem := (cells.zip junk).foldl (fun m x => memWrite m x.1.1 x.2) k.mem })) cells.length
    kfSlotBad (updKfReq (kfSet t side kfVerifyFail) side (fun r => { r with pulses := 8 })) side addr

/-- MARGIN_READ ended: WEAK_BITS, and the sector verified at 0 (R447). -/
def endMarginRead (s : State) (side : Bool) (addr measured : Nat) : State :=
  let weak := Nat.min 0x1FFFF (Nat.max measured (zeroBits (memBytes s.kf.mem addr sectorSize)))
  let t := updKfReq s side (fun r => { r with weak := weak })
  if weak == 0 then
    updKf t (fun k => { k with unverified := k.unverified.filter (fun x => x != addr), marginFails := k.marginFails.filter (fun x => x.1 != addr) })
  else kfMarginBad (kfSet t side kfMarginFail) side addr

/-- ERASE ended: the sector reads all 0xFF and counts as unverified (R447). -/
def endErase (s : State) (addr : Nat) : State :=
  updKf s (fun k => { k with mem := memErase k.mem addr sectorSize, unverified := if k.unverified.contains addr then k.unverified else k.unverified ++ [addr] })

/-- CRC_SECTOR ended (Table 19-2). -/
def endCrc (s : State) (side : Bool) (addr : Nat) : State :=
  if recordRegion addr then drawFree (updKfReq s side (fun r => { r with crc := w32 (freeNow s).toNat }))
  else updKfReq s side (fun r => { r with crc := crc32c (memBytes s.kf.mem addr sectorSize) })

/-- A requester's running command ends: DONE, and the commands that wait for the bank begin. -/
def kfEnd (s : State) (side : Bool) (measured : Nat) (agreed : Bool) : State :=
  match (kfReq s side).running with
  | none => s
  | some (cmd, addr) =>
    let t := match cmd with
      | 1 => endProgram s side addr measured agreed
      | 2 => endErase s addr
      | 3 => endMarginRead s side addr measured
      | _ => endCrc s side addr
    kfSettle (updKfReq (kfSet (hitSaved t cmd addr) side kfDone) side (fun r => { r with running := none }))

/-! ## The commands -/

/-- KF_KEY_WRITE (R445). -/
def execKfKeyWrite (side : Bool) (value : Word) (s : State) : Host.Outcome State Fault Refusal :=
  kfLive s (fun t => kfWriteKey t side (bits value.toNat 15 0))

/-- KF_PROGRAM (R445, R446, R448, R449): KF_CMD, KF_ADDR and the 64 words of KF_DATA. -/
def execKfProgram (side : Bool) (addr : Nat) (data : List Word) (pc : Option Nat) (s : State) : Host.Outcome State Fault Refusal :=
  kfLive s (fun t => ((List.range data.length).zip data).foldl (fun t x => kfWriteData t side x.1 x.2 pc) (kfCommand t side 1 addr pc))

/-- KF_ERASE (R445, R447 to R449). -/
def execKfErase (side : Bool) (addr : Nat) (pc : Option Nat) (s : State) : Host.Outcome State Fault Refusal :=
  kfLive s (fun t => kfCommand t side 2 addr pc)

/-- KF_MARGIN_READ (R445, R447). -/
def execKfMarginRead (side : Bool) (addr : Nat) (s : State) : Host.Outcome State Fault Refusal :=
  kfLive s (fun t => kfCommand t side 3 addr none)

/-- KF_READ (R445). -/
def execKfRead (side : Bool) (addr : Nat) (s : State) : Host.Outcome State Fault Refusal :=
  kfLive s (fun t => kfCommand t side 4 addr none)

/-- KF_CRC_SECTOR (R445). -/
def execKfCrcSector (side : Bool) (addr : Nat) (s : State) : Host.Outcome State Fault Refusal :=
  kfLive s (fun t => kfCommand t side 5 addr none)

/-- KF_COMMAND_DONE (R445 to R447): the command that runs in the bank ends. -/
def execKfCommandDone (bank : Bool) (measured : Nat) (agreed : Bool) (s : State) : Host.Outcome State Fault Refusal :=
  kfLive s (fun t =>
    endCycle (if runsIn t.kf.core bank then kfEnd t false measured agreed else if runsIn t.kf.side bank then kfEnd t true measured agreed else t))

/-- Recovery mode at once, of a running keeper with FAILED set: the stop sequence ends, ownership goes, the clusters are held in reset (R451). -/
def recoverNow (s : State) : State :=
  let t := enterRecovery (updTwin (endStop s) (fun x => { x with own := false })) 1
  updPort (updPort t .a (fun x => { x with ready := false })) .b (fun x => { x with ready := false })

/-- RECOVERY_CTRL written (Table 19-4): REQUEST is stored; with FAILED set it takes effect at once. EXIT with REQUEST 0 restarts the chip as
after PORST_N. -/
def writeRecovery (s : State) (v : Word) : State :=
  let req := v.getLsbD 0
  let t := updKf s (fun k => { k with recRequest := req })
  if req then (if failedSet t && !t.kf.recMode then recoverNow t else t)
  else if v.getLsbD 1 && t.kf.recMode then reboot t (stopInterruption t)
  else t

/-- RECOVERY_REQUEST (R451). -/
def execRecoveryRequest (value : Word) (s : State) : Host.Outcome State Fault Refusal := kfLive s (fun t => endCycle (writeRecovery t value))

/-- RECOVERY_EXIT (R451). -/
def execRecoveryExit (value : Word) (s : State) : Host.Outcome State Fault Refusal := kfLive s (fun t => endCycle (writeRecovery t value))

end Sys2Proof.Machine
end

