-- ==== Sys2Proof/Machine/Maint.lean ====
section
/-! DEFINITION. REBUILD_CONTROL and PATROL_CONTROL (R183, R324, R356). -/
namespace Sys2Proof.Machine
open Sys2Proof

/-! ## REBUILD_CONTROL (R356) -/

/-- An operation of the rebuild (die requester 3) is issued and has not ended. -/
def rebuildIssued (s : State) : Bool :=
  anyOp s (fun o => o.who == 3)

/-- REBUILD_STOP (R356): performed once the rebuild's issued operations have ended; REBUILD becomes 3. -/
def execRebuildStop (cid : Nat) (s : State) : Host.Outcome State Fault Refusal :=
  match actionIn s cid 0x91 0 with
  | none => settled s
  | some c =>
    if !actionAllowed s c.dw then settled (refuseNow s cid 0x1002 0x30)
    else if rebuildIssued s then settled s
    else settled (performState (setRebuild (updMedia s (fun m => { m with rebuildDue := false })) 3 []) cid 3 0 0)

/-- REBUILD_START (R356): REBUILD becomes 1, or 4 where no listed set has a host. -/
def execRebuildStart (cid : Nat) (s : State) : Host.Outcome State Fault Refusal :=
  match actionIn s cid 0x91 1 with
  | none => settled s
  | some c =>
    if !actionAllowed s c.dw then settled (refuseNow s cid 0x1002 0x30)
    else settled (performState (setRebuild s (if someHost s then 1 else 4) []) cid 3 0 0)

/-! ## PATROL_CONTROL (R324) -/

/-- PATROL_PAUSE: no read of a cycle list is drawn for HOURS; a pause during a pause replaces the time left. DESIGN CHOICE (log entry 60):
HOURS are counted on AET, which R183 leaves open, so an AET set moves the end of a standing pause. -/
def execPatrolPause (cid : Nat) (s : State) : Host.Outcome State Fault Refusal :=
  match actionIn s cid 0x93 0 with
  | none => .next s
  | some c =>
    let until_ := aetSec s.cad.aet + 3600 * bits (eCdw c.dw 0) 23 16
    .next (performState (updMedia s (fun m => { m with patrolPause := some until_ })) cid 3 0 0)

/-- PATROL_RESUME: ends a pause. -/
def execPatrolResume (cid : Nat) (s : State) : Host.Outcome State Fault Refusal :=
  match actionIn s cid 0x93 1 with
  | none => .next s
  | some _ => .next (performState (updMedia s (fun m => { m with patrolPause := none })) cid 3 0 0)

/-- Patrol's claims on the sets of a profile released. -/
def dropPatrolClaims (s : State) (p : Nat) : State := (profSt s p).patrolList.foldl (fun t n => dropClaim t .patrol n) s

/-- PATROL_RESTART_CYCLE: ends any pause and the running cycles, and starts new ones with fresh lists at once, as late starts. -/
def execPatrolRestartCycle (cid : Nat) (s : State) : Host.Outcome State Fault Refusal :=
  match actionIn s cid 0x93 2 with
  | none => settled s
  | some _ =>
    let t := updMedia s (fun m => { m with patrolPause := none })
    let ps := (profileNums t).filter (fun p => !(memberBays t p).isEmpty)
    settled (performState (ps.foldl (fun t p => startPatrol (dropPatrolClaims t p) p true) t) cid 3 0 0)

/-- PATROL_PAUSE_EXPIRY: when the HOURS have passed, patrol resumes by itself (R183). -/
def execPatrolPauseExpiry (cyc : Nat) (s : State) : Host.Outcome State Fault Refusal :=
  let t := advanceTo s cyc
  match t.media.patrolPause with
  | none => .next t
  | some u => if u ≤ aetSec t.cad.aet then .next (updMedia t (fun m => { m with patrolPause := none })) else .next t

end Sys2Proof.Machine
end

