-- ==== Sys2Proof/Machine/PowerStates.lean ====
section
/-! DEFINITION. Power states, wakes, the core supply, sensors, throttling and trips (chapter 20), and the pins that wake the part
(chapter 22). -/
namespace Sys2Proof.Machine
open Sys2Proof

/-! ## Throttling and the core supply (R473 to R475, R479 to R481) -/

/-- THROTTLED follows the throttle level (R481). -/
def settleThrottle (s : State) : State :=
  let on := decide (0 < throttleLevel s)
  if on == flag s.cond bThrottled then s
  else
    let t := setFlags s [(bThrottled, on)]
    if on && flag t.cond bThrottled then updPower t (fun p => { p with throttleEntries := p.throttleEntries + 1 }) else t

/-- A voltage item of effective calibration, in mV (R473). -/
def voltItem (s : State) (item : Nat) : Nat := ((itemOf s.kf.effective item).getD 0).toNat

/-- An AVSBus request for a voltage: sent, or kept as the newest target while one is pending (R474). -/
def avsSend (s : State) (mv : Nat) : State :=
  updPower s (fun p =>
    match p.avsPending with
    | some _ => { p with avsNext := some mv }
    | none =>
      { p with
        avsTarget := mv, avsPending := some (1, decide (p.avsNow < mv)), avsNext := none, avsAt := s.now
        avsRequests := satAdd 0xFFFF p.avsRequests 1, avsTotal := p.avsTotal + 1 })

/-- The target of a state and band asked for where it is not the last one asked (R473). -/
def askVolt (s : State) (mv : Nat) : State := if s.power.avsNext.getD s.power.avsTarget == mv then s else avsSend s mv

/-- AVS_ACK (R474): the pending request is acknowledged: its voltage is in force, FAULT and the held level clear, and the newest target
that waited is sent. -/
def execAvsAck (cyc : Nat) (s : State) : Host.Outcome State Fault Refusal :=
  let s := advanceTo s cyc
  match s.power.avsPending with
  | none => settled s
  | some _ =>
    let t := updPower s (fun p => { p with avsPending := none, avsNow := p.avsTarget, avsFault := false, avsHold := false, avsNext := none })
    settled (settleThrottle (match s.power.avsNext with | some mv => avsSend t mv | none => t))

/-- A resend of the pending request, with the newest target. -/
def avsResend (s : State) (n : Nat) : State :=
  updPower s (fun p =>
    { p with
      avsPending := p.avsPending.map (fun x => (n, x.2 || decide (p.avsNow < p.avsNext.getD p.avsTarget)))
      avsTarget := p.avsNext.getD p.avsTarget, avsNext := none, avsAt := s.now, avsRetries := satAdd 0xFFFF p.avsRetries 1 })

/-- AVS_RETRY_TIMEOUT (R474): a request not acknowledged within 100 us is resent, four attempts in all; then FAULT is set, a raise holds
level 12, an entry is abandoned under reason 5, and it is retried every 10 ms. -/
def execAvsRetryTimeout (cyc : Nat) (s : State) : Host.Outcome State Fault Refusal :=
  let s := advanceTo s cyc
  match s.power.avsPending with
  | none => settled s
  | some (n, raise) =>
    let due := s.power.avsAt + if 4 < n then 10000000 else 100000
    if s.now < due then settled s
    else if n < 4 then settled (avsResend s (n + 1))
    else if 4 < n then settled (avsResend s n)
    else
      let t := updPower s (fun p => { p with avsFault := true, avsHold := p.avsHold || raise, avsPending := some (5, raise) })
      let t := if t.power.entering.isSome && t.power.commitAo.isNone then abandonEntry t 5 else t
      settled (settleThrottle t)

/-- POWER_LEVEL_UPDATE (R475, R480): P_est from the core rail and the model of the other rails; LP moves by one towards the cap (assumption 35). -/
def execPowerLevelUpdate (coreDeciwatts activity : Nat) (s : State) : Host.Outcome State Fault Refusal :=
  if 2 < s.power.st || s.kf.porst then settled s
  else
    let items := (List.range 16).map (fun i => (itemOf s.kf.effective (0x4F0 + i)).getD 0)
    let est := Nat.min 0xFFFF (coreDeciwatts + Config.otherRails activity items)
    settled (settleThrottle (updPower s (fun p =>
      { p with
        est := est
        lp := if p.cap == 0 then 0 else if 10 * p.cap < est then Nat.min 12 (p.lp + 1) else if est + 20 < 10 * p.cap then p.lp - 1 else p.lp })))

/-! ## Entering states (R466 to R468) -/

/-- T_S of a state in fabric cycles; 0 disables the step. -/
def timerOf (s : State) (st : Nat) : Nat :=
  match st with
  | 1 => s.feat.t1 * 10000
  | 2 => s.feat.t2 * 1000000
  | 3 => s.feat.t3 * 1000000000
  | 4 => s.feat.t4 * 1000000000
  | _ => 0

/-- The target state for the idle time (R466). -/
def powerTarget (s : State) : Nat :=
  if s.power.ps4Now then 4
  else (List.range 5).foldl (fun a st => if timerOf s st != 0 && decide (timerOf s st ≤ s.now - s.power.idleFrom) then st else a) 0

/-- The reason of a refused entry: of the lowest-numbered voter that caps shallower than the target (R467). -/
def refusalReason (s : State) (target : Nat) : Nat := (((List.range 10).find? (fun v => decide (voteCap s v < target))).map (voteReason s)).getD 2

/-- The refusal of a target counted, once per T_S of idle time (R467). -/
def refuseTarget (s : State) (target : Nat) : State :=
  let again := match s.power.lastRefused with
    | some (t, at_) => t == target && decide (s.now - s.power.idleFrom < at_ + timerOf s target)
    | none => false
  if again && !s.power.ps4Now then s else countRefusal s (refusalReason s target) target

/-- PS1 or PS2 entered. -/
def enterLight (s : State) (st : Nat) : State :=
  let t := updPower s (fun p => { p with st := st, entries := p.entries.modify st (· + 1) })
  if st == 2 then parkBays t false else t

/-- The idle timer's verdict: the shallower of the target and the cap is entered where it is deeper than the present state. -/
def idleStep (s : State) : State :=
  if s.power.entering.isSome || s.jrnl.stopFrom.isSome || s.kf.porst || !s.kf.released then s
  else
    let target := powerTarget s
    let cap := powerCap s
    if target ≤ s.power.st then s
    else
      let t := if cap < target then refuseTarget s target else s
      let go := Nat.min target cap
      if go ≤ s.power.st then t
      else if go < 3 then enterLight t go
      else updPower (if s.power.st == 2 then unparkBays t false else t) (fun p => { p with entering := some (go, 1) })

/-- IDLE_TIMER_EXPIRY (R466, R467): the idle time has reached a step of POWER_TIMERS. -/
def execIdleTimerExpiry (cyc : Nat) (s : State) : Host.Outcome State Fault Refusal := .next (idleStep (advanceTo s cyc))

/-- A write of PS_CONTROL (Table 20-8): a PS_LIMIT above 4 is ignored; PS4_NOW targets PS4 at once. -/
def writePsControl (s : State) (value : Word) : State :=
  let v := value.toNat
  let t := updPower s (fun p =>
    { p with
      limit := if bits v 2 0 ≤ 4 then bits v 2 0 else p.limit
      ps4Now := p.ps4Now || bits v 4 4 == 1, testHold := bits v 5 5 == 1 })
  if bits v 4 4 == 1 then idleStep t else t

/-- PS4_NOW_WRITE (R466): a write of PS_CONTROL with PS4_NOW 1. -/
def execPs4NowWrite (value : Word) (cyc : Nat) (s : State) : Host.Outcome State Fault Refusal :=
  if value.getLsbD 4 then .next (writePsControl (advanceTo s cyc) value) else .next s

/-- The entry goes on to its next step. -/
def nextStep (s : State) : State := updPower s (fun p => { p with entering := p.entering.map (fun e => (e.1, e.2 + 1)) })

/-- The medium is in use by this chip: it owns it and a bay is in use. -/
def mediumInUse (s : State) : Bool := isOwner s && s.media.bays.any (fun b => b.st == .member || b.st == .evacuating)

/-- One step of Table 20-4 (R468); where it has to wait the state stays as far as it came. -/
def deepStep (s : State) (target step : Nat) (ok : Bool) (aoCycle : Nat) : State :=
  if !s.ctxs.isEmpty then abandonEntry s 0
  else if !ok then abandonEntry s (if step == 5 || step == 6 then 5 else 7)
  else
    match step with
    | 1 => if !mediumInUse s || s.jrnl.cleanStands || quiesced s then nextStep s else quiesce s
    | 2 =>
      if !mediumInUse s || s.jrnl.cleanStands then nextStep s
      else if !quiesced s then quiesce s
      else match s.jrnl.running with
        | some r => ckptStep s r
        | none => if s.jrnl.written.isSome then s else beginCkpt s .shutdown true
    | 3 => nextStep (parkBays s (target == 4))
    | 4 => nextStep s
    | 5 => nextStep (askVolt s (voltItem s 0x408))
    | _ =>
      if s.power.avsPending.isSome then s
      else nextStep (updPower s (fun p => { p with commitAo := some aoCycle, ps4Now := false, entryAet := aetSec s.cad.aet }))

/-- PS_DEEP_ENTRY (R468): the next step of the entry into PS3 or PS4. -/
def execPsDeepEntry (step : Nat) (ok : Bool) (aoCycle : Nat) (s : State) : Host.Outcome State Fault Refusal :=
  match s.power.entering with
  | none => .next s
  | some (target, n) => if n != step || 6 < step || s.jrnl.stopFrom.isSome then .next s else .next (settleFull (deepStep s target step ok aoCycle))

/-! ## Waking (R470 to R472) -/

/-- Sources that are levels, and edges (Table 20-5). -/
def levelSource (code : Nat) : Bool := [2, 4, 5, 6, 8, 9].contains code
def edgeSource (code : Nat) : Bool := [3, 10].contains code

/-- A source wakes from a state (Table 20-5). -/
def wakesFrom (code st : Nat) : Bool :=
  match code with
  | 1 | 3 | 7 => st == 1 || st == 2
  | 2 => st == 2 || st == 3
  | 8 => st == 3 || st == 4
  | 4 | 5 | 6 | 9 | 10 => 1 ≤ st && st ≤ 4
  | _ => false

/-- A retraining pass starts: 4 DRAM channels and 32 flash channels (R478). -/
def startRetrain (s : State) : State := updPower s (fun p => { p with retrain := some 36 })

/-- The cadence at a return from PS3 or PS4 (R81): lock is kept unless more than 32 tick periods passed without an edge; then it is sought as
at a restart. The next tick is predicted on the grid of the last one (assumption 42). -/
def returnCadence (s : State) : State :=
  updCad s (fun c =>
    let gap := c.edgeGap || decide (c.lastEdge.getD c.lastTick + 32 * c.period < s.now)
    if c.internal then { c with resumed := true, edgeGap := false }
    else if c.locked && gap then
      { c with
        resumed := true, edgeGap := false, locked := false, lockFrom := some s.now, period := 1000000, intervals := [], lastEdge := none
        flywheelRun := 0, prediction := s.now + 1000000 }
    else
      { c with resumed := true, edgeGap := false, prediction := c.lastTick + ((s.now - c.lastTick) / Nat.max c.period 1 + 1) * Nat.max c.period 1 })

/-- The exit to PS0, with what each state had put down brought back (R464, R472, R473, R478, R81). -/
def exitState (s : State) (code : Nat) : State :=
  let from_ := s.power.st
  let t := noteWake s code from_
  let t := if 2 ≤ from_ then unparkBays t (from_ == 4) else t
  let t := if from_ == 4 then updEng t (fun e => { e with tc := [] }) else t
  let t := if 3 ≤ from_ then returnCadence (askVolt t (voltItem t (0x400 + t.power.band))) else t
  let t := toPs0 t
  if 2 ≤ from_ && t.power.band != t.power.trainedBand then startRetrain t else t

/-- A wake source sampled in an always-on cycle: it ends a state it wakes from, aborts an entry before ENTRY_COMMIT, and is lost or left to
`domainsOff` inside the entry window. -/
def wakeBy (s : State) (code aoCycle : Nat) : State :=
  if s.jrnl.stopFrom.isSome || s.kf.porst then s
  else
    match s.power.entering, s.power.commitAo with
    | some _, some c => if aoCycle < c then abandonEntry s 6 else s
    | some _, none => if 1 ≤ code && code ≤ 10 then abandonEntry s 6 else s
    | none, _ => if wakesFrom code s.power.st then exitState s code else s

/-- WAKE (R470): a wake source is sampled. -/
def execWake (code : Nat) (aoCycle : Nat) (s : State) : Host.Outcome State Fault Refusal := .next (wakeBy s code aoCycle)

/-- The core domain loses the counters and the Periscope ring in PS4 (R487) (assumption 32). -/
def loseCounters (s : State) : State := updCtr (clearCounters s) (fun c => { c with ring := [], head := c.tail })

/-- DOMAINS_OFF (R471, R487): at cycle c + 4 the domains go off, in PS4 with the counters lost; with a level source asserted the exit begins
at once. -/
def execDomainsOff (aoCycle : Nat) (levelSource : Option Nat) (s : State) : Host.Outcome State Fault Refusal :=
  match s.power.entering, s.power.commitAo with
  | some (target, _), some c =>
    if aoCycle != c + 4 || s.jrnl.stopFrom.isSome then .next s
    else
      let t := updPower s (fun p =>
        { p with st := target, entering := none, commitAo := none, domainsOff := true, entries := p.entries.modify target (· + 1) })
      let t := updTwin t (fun x => { x with lanes := 0 })
      let t := if target == 4 then loseCounters t else t
      let asked := (levelSource.filter Sys2Proof.Machine.levelSource).toList ++ (if s.power.matchLatch then [5] else [])
      match asked with
      | [] => .next t
      | a :: as => .next (exitState t (as.foldl Nat.min a))
  | _, _ => .next s

/-- MAINT_WAKE_TIMER (R468): MAINT_WAKE hours after entry, or the next patrol grid point of any profile, whichever is first. -/
def execMaintWakeTimer (aoCycle : Nat) (s : State) : Host.Outcome State Fault Refusal :=
  let sec := aetSec s.cad.aet
  let due := decide (s.power.entryAet + 3600 * s.power.maintWake ≤ sec) ||
    (profileNums s).any (fun p => !(memberBays s p).isEmpty && decide ((profSt s p).patrolNext ≤ sec))
  if due && 3 ≤ s.power.st then .next (wakeBy s 8 aoCycle) else .next s

/-- SB_ADDRESS_MATCH (R512): the static or dynamic address matches; with WAKE_ON_MATCH the latch is set, which wakes the part. -/
def execSbAddressMatch (address : Nat) (s : State) : Host.Outcome State Fault Refusal :=
  let mine := address == 0x60 + s.kf.sbAddr.toNat || s.side.dyn == some (BitVec.ofNat 7 address)
  if !mine || !s.side.wakeOnMatch then .next s
  else if s.power.st == 0 && s.power.entering.isNone then .next s
  else .next (wakeBy (updPower s (fun p => { p with matchLatch := true })) 5 (s.power.commitAo.getD 0))

/-- JTAG_TAP_STATE_CHANGE (R465): the TAP leaves or returns to Test-Logic-Reset; its activity is wake source 10. -/
def execJtagTapStateChange (inReset : Bool) (s : State) : Host.Outcome State Fault Refusal :=
  let t := updPower s (fun p => { p with tapOut := !inReset })
  .next (wakeBy t 10 (t.power.commitAo.getD 0))

/-- PERST_DEASSERT (R508): the port's link may train again, and the part wakes. -/
def execPerstDeassert (port : Port) (s : State) : Host.Outcome State Fault Refusal :=
  .next (wakeBy (updPort s port (fun x => { x with perst := false })) 4 (s.power.commitAo.getD 0))

/-- PCIE_LINK_UP (R508): the port's receivers find a training sequence and the link is up. -/
def execPcieLinkUp (port : Port) (s : State) : Host.Outcome State Fault Refusal :=
  if (portOf s port).perst || s.kf.porst || s.power.tripped then .next s else .next (updPort s port (fun x => { x with linkLost := false, linkUp := true }))

/-- ACT_N_STRETCH_END (R507): no command is in progress and the low period has lasted 20 ms. -/
def execActNStretchEnd (cyc : Nat) (s : State) : Host.Outcome State Fault Refusal :=
  let s := advanceTo s cyc
  if anyAdmitted s || s.side.actUntil.any (fun u => decide (s.now < u)) then .next s else .next (updSide s (fun x => { x with actUntil := none }))

/-! ## Temperature (R476 to R479) -/

/-- A sensor's reading: raw x (1 + G/10^6) + O/100 in whole degrees (assumption 36). -/
def sensorRead (s : State) (n : Nat) (raw : Int) : Int :=
  let g := (itemOf s.kf.effective (2 * n + 1)).getD 0
  let o := (itemOf s.kf.effective (2 * n)).getD 0
  Int.fdiv (raw * (1000000 + g) + o * 10000) 1000000

/-- The median of readings; of an even number, the mean of the middle two (assumption 36). -/
def median (l : List Int) : Int :=
  let v := sortBy (fun a b => decide (a ≤ b)) l
  let n := v.length
  if n % 2 == 1 then v.getD (n / 2) 0 else Int.fdiv (v.getD (n / 2 - 1) 0 + v.getD (n / 2) 0) 2

/-- The sensors sampled now: all in PS0 to PS2, only sensor 15 in PS3 and PS4. -/
def sampled (s : State) (n : Nat) : Bool := s.power.st < 3 || n == 15

/-- The sensors after a sample: readings, validity, peaks, runs at 120 C. -/
def takeSample (s : State) (raw : List Int) : State :=
  let p := s.power
  let read (n : Nat) : Option Int :=
    if !p.valid.getLsbD n then none else if sampled s n then (raw[n]?).map (sensorRead s n) else p.sensors.getD n none
  let rs := (List.range 16).map read
  let med := median (rs.filterMap id)
  let off (n : Nat) : Nat := match rs.getD n none with
    | some r => if decide (20 < (r - med).natAbs) then p.offMedian.getD n 0 + 1 else 0
    | none => 0
  let bad (n : Nat) : Bool := match rs.getD n none with
    | some r => decide (r < -60) || decide (150 < r) || 8 ≤ off n
    | none => false
  let ok (n : Nat) : Option Int := if bad n then none else rs.getD n none
  let vals := (List.range 16).map ok
  let best := (List.range 16).foldl (fun (a : Option (Int × Nat)) n => match vals.getD n none, a with
    | some r, some b => if b.1 < r then some (r, n) else a
    | some r, none => some (r, n)
    | none, _ => a) none
  let valid := (List.range 16).foldl (fun (v : BitVec 16) n => if bad n then v &&& ~~~(BitVec.ofNat 16 (2 ^ n)) else v) p.valid
  updPower s (fun q =>
    { q with
      sensors := vals, valid := valid, offMedian := (List.range 16).map off
      peaks := (List.range 16).map (fun n => match vals.getD n none with | some r => max r (q.peaks.getD n (-128)) | none => q.peaks.getD n (-128))
      hotRuns := (List.range 16).map (fun n => match vals.getD n none with
        | some r => if 120 ≤ r then (if sampled s n then q.hotRuns.getD n 0 + 1 else q.hotRuns.getD n 0) else 0
        | none => 0)
      maxTemp := (best.map (·.1)).getD q.maxTemp, maxSensor := (best.map (·.2)).getD q.maxSensor
      degraded := decide (((List.range 16).filter valid.getLsbD).length < 8) })

/-- Entry and leaving points of the chip temperature bands (Table 20-7). -/
def bandEnter (s : State) (b : Nat) : Int := if b == 4 then (s.feat.throttlePoint : Int) else [-1000, 10, 70, 85].getD b 0
def bandLeave (s : State) (b : Nat) : Int := if b == 4 then (releasePoint s : Int) else [-1000, 8, 68, 83].getD b 0

/-- The band after a sample (R477). -/
def bandFor (s : State) : Nat :=
  let t := s.power.maxTemp
  let top := (List.range 5).foldl (fun a b => if bandEnter s b ≤ t then b else a) 0
  if s.power.band < top || t < bandLeave s s.power.band then top else s.power.band

/-- The band follows REPORTED_MAX: an event, a retraining pass in PS0 and PS1, and the voltage of the new band (R473, R477, R478). -/
def settleBand (s : State) : State :=
  let b := bandFor s
  let old := s.power.band
  if b == old then s
  else
    let t := updPower s (fun p => { p with band := b })
    let t := raiseEvent t 5 b (s32 t.power.maxTemp) old
    let t := if t.power.st < 2 then startRetrain t else t
    if t.power.st < 3 then askVolt t (voltItem t (0x400 + b)) else t

/-- The thermal level LT (R479). -/
def settleLevel (s : State) : State :=
  let t := s.power.maxTemp
  let tp : Int := s.feat.throttlePoint
  let lt := if s.power.band != 4 then 0 else if t < tp then 1 else Nat.min 12 (2 + 2 * (t - tp).toNat)
  if 2 < s.power.st then s else settleThrottle (updPower s (fun p => { p with lt := lt }))

/-- A retraining pass moves on by four channels; at its end the band is the one trained (R478) (assumption 39). -/
def trainOn (s : State) : State :=
  match s.power.retrain with
  | none => s
  | some n => updPower s (fun p => if n ≤ 4 then { p with retrain := none, trainedBand := p.band } else { p with retrain := some (n - 4) })

/-- SENSOR_SAMPLE (R476 to R479, R482): the sensors are sampled; after a trip the boot goes on once sensor 15 reads below RP. -/
def execSensorSample (raw : List Int) (s : State) : Host.Outcome State Fault Refusal :=
  if s.kf.porst then settled s
  else
    let t := takeSample s raw
    if t.kf.tripHold then
      (match t.power.sensors.getD 15 none with
        | some r => if r < (releasePoint t : Int) then settled (bootUp (updKf t (fun k => { k with tripHold := false })) (envNow t)) else settled t
        | none => settled t)
    else settled (settleLevel (settleBand (trainOn t)))

/-- THERMAL_TRIP (R482): two samples at 120 C of one sensor, or the comparator on sensor 15: the sequence of Table 10-7 runs with KIND 1,
and the part holds itself down until PORST_N. -/
def execThermalTrip (comparator : Bool) (cyc : Nat) (s : State) : Host.Outcome State Fault Refusal :=
  let s := advanceTo s cyc
  if s.kf.porst || s.power.tripped || !(comparator || s.power.hotRuns.any (fun n => decide (2 ≤ n))) then .next s
  else
    let t := if s.jrnl.stopFrom.isSome || s.kf.recMode then s else powerStop s
    let t := updPower t (fun p => { p with tripped := true, trips := p.trips + 1 })
    .next (if t.jrnl.stopFrom.isNone || t.jrnl.stopEnded then letGo t else t)

end Sys2Proof.Machine
end

