-- ==== Sys2Proof/Machine/Recover.lean ====
section
/-! DEFINITION. Restart steps 7 and 8 (R256 to R264, R521): fates, the RESUMPTION logs, the open sets of the stop, released blocks, missing
members, the first checkpoint; and the loss of a DRAM channel (R212). -/
namespace Sys2Proof.Machine
open Sys2Proof

/-! ## Fates (R227, R258, R259) -/

/-- The tag scan reads a page: in a row from SCAN_ROW on of a set in the newest checkpoint's OPEN_SETS piece, or of a set whose SET_OPEN lies
above its CUT_JSEQ (R258). -/
def tagScanned (s : State) (p : PageRec) : Bool :=
  match s.jrnl.newest with
  | none => true
  | some k => k.opens.any (fun o => o.1 == p.seq && decide (o.2 ≤ p.row)) || !k.at_.img.sets.any (fun x => x.seq == p.seq)

/-- User slots of a write on the medium that the tag scan finds: LBA, set and slot address, outside abandoned rows, in pages whose program
ended well or whose row an accumulator of a usable hold-up record covers. -/
def writeSlots (s : State) (csn ns : Nat) : List (Nat × Nat × Madr × Nat) :=
  (s.media.pages.filter (tagScanned s)).flatMap (fun p =>
    let covered := (usableHoldups s).any (fun h => h.accs.any (fun a => a.1 == p.seq && a.2.1 == p.row))
    let abandoned := ((setOf s p.seq).bind (·.firstAbandoned)).any (fun r => decide (r ≤ p.row))
    if abandoned || !(p.st == .done || (p.st == .failed && covered)) then []
    else (p.slots.filter (fun x => x.csn == csn && x.ns == ns && x.count != 0)).map (fun x => (x.lba, p.seq, { p.addr with slot := x.n }, x.count)))

/-- One slot per LBA: of copies with one CSN the one that the map reaches, else the one in the set with the higher BLOCK_SEQ (R258). -/
def newestSlots (i : MapImg) (ns : Nat) (l : List (Nat × Nat × Madr × Nat)) : List (Nat × Nat × Madr × Nat) :=
  let stands (x : Nat × Nat × Madr × Nat) : Bool := unitAt i ns x.1 == .at_ x.2.2.1
  l.filter (fun x => l.all (fun y => y.1 != x.1 || y.2.2.1 == x.2.2.1 || stands x || (!stands y && decide (y.2.1 < x.2.1))))

/-- The slots of a write that is whole (R227), in ascending LBA; none where it is not. -/
def wholeWrite (s : State) (a : AdmSlot) : Option (List (Nat × Madr)) :=
  let l := newestSlots s.map a.ns (writeSlots s a.csn a.ns)
  if l.isEmpty || !l.all (fun x => x.2.2.2 == l.length) then none
  else some (sortBy (fun x y => decide (x.1 ≤ y.1)) (l.map (fun x => (x.1, x.2.2.1))))

/-- A write that a NOT_PERFORMED write with a lower CSN overlaps. -/
def overlapsAny (l : List AdmSlot) (a : AdmSlot) : Bool :=
  l.any (fun b => b.ns == a.ns && decide (b.firstLba < a.firstLba + a.blockCount) && decide (a.firstLba < b.firstLba + b.blockCount))

/-- A command record of a slot. -/
def slotRec (a : AdmSlot) (performed : Bool) (status : Half) (r0 r1 : Word) : CmdRec where
  csn := a.csn
  result0 := r0
  result1 := r1
  queue := a.queue
  performed := performed
  status := status
  sqIndex := a.sqIndex
  tag := a.tag
  opcode := a.opcode

/-- Fates decided so far: the state with the MAP records made, the writes of R105 that are NOT_PERFORMED, and the records by port. -/
abbrev Fates := State × List AdmSlot × List (Port × CmdRec)

/-- The fate of one slot (Table 10-11). -/
def decideFate (x : Fates) (a : AdmSlot) : Fates :=
  let write := a.opcode == 0x01 || a.opcode == 0x0A
  let writes := write || a.opcode == 0x08 || a.opcode == 0x0C
  let lost : Fates := (x.1, if writes then x.2.1 ++ [a] else x.2.1, x.2.2 ++ [(a.port, slotRec a false 0x6002 0 0)])
  if a.performed then (x.1, x.2.1, x.2.2 ++ [(a.port, slotRec a true a.status a.result0 a.result1)])
  else if !write || overlapsAny x.2.1 a then lost
  else match wholeWrite x.1 a with
    | none => lost
    | some us =>
      let t := commitRec x.1 (.map a.csn 0 a.ns (gatherRuns x.1.map (us.map (fun u => (u.1, some u.2))) none))
      (t, x.2.1, x.2.2 ++ [(a.port, slotRec a true 0 0 0)])

/-- Each CSN once, in ascending order; of several slots of one CSN the newest stands. -/
def slotsInOrder (l : List AdmSlot) : List AdmSlot :=
  l.foldl (fun acc a => insertBy (fun x y => decide (x.csn ≤ y.csn)) a (acc.filter (fun b => b.csn != a.csn))) []

/-- Step 7: the fates of the hold-up records' slots, both logs completed where they are not yet, the stop record of KIND 0 (R259, R260). -/
def settleFates (s : State) (unclean noHoldup : Bool) : State :=
  let slots := if noHoldup then [] else slotsInOrder ((usableHoldups s).flatMap (·.slots))
  let f := slots.foldl decideFate (s, [], [])
  let finish (t : State) (p : Port) : State :=
    if (portOf t p).res.complete then t
    else
      let t := if noHoldup then updPort t p (fun x => { x with res := { x.res with queues := [] } }) else t
      completeLog t p ((f.2.2.filter (fun r => r.1 == p)).map (·.2)) unclean
  let t := putStop (finish (finish f.1 .a) .b) .restarted none
  updJrnl t (fun j => { j with holdups := [] })

/-! ## Open sets of the stop (R521, Tables 10-12, 14-3) -/

/-- Every operation of a restart's step 8 has ended: pages being programmed are DONE, headers are, and no die has work. -/
def finishOps (s : State) : State :=
  updMedia s (fun m =>
    { m with
      pages := m.pages.map (fun p => if p.st == .failed then p else { p with st := .done })
      dies := m.dies.map (fun d => { d with op := none, queue := [], suspended := none })
      opens := m.opens.map (fun o => { o with headersLeft := [] }) })

/-- Rows of a set settled, and the set finished where it is closed. -/
def settleRows (s : State) (seq : Nat) (ok : RowSt → Bool) : State :=
  match openOf s seq with
  | none => s
  | some o =>
    let rows := o.rows.filter (fun r => !r.settled && ok r)
    let t := rows.foldl (fun t r => settleJournal (updRow t seq r.row (fun x => { x with verified := true, settled := true })) seq r.row) s
    finishSet t seq

/-! ### Which rows are resynchronised (R344) -/

/-- The copies of stripe-journal records among the STRIPE_JOURNAL pages of the medium whose CRC passes. -/
def stripeCopies (s : State) : List (Nat × List SjEntry) :=
  (s.media.pages.filter (fun p => p.kind == 6 && p.st == .done)).filterMap (fun p =>
    readStripe ((List.range 4).flatMap (fun n => ((slotN p n).bind (·.block)).elim [] (·.data))))

/-- The newest record: the copy with the highest SJ_SEQ. -/
def newestStripe (s : State) : Option (List SjEntry) :=
  ((stripeCopies s).foldl (fun best x => match best with
    | none => some x
    | some b => if b.1 < x.1 then some x else best) none).map (·.2)

/-- Rows of a set that hold a programmed page, ascending; PAD pages beyond its rows do not count. -/
def rowsFound (s : State) (seq : Nat) : List Nat :=
  let rows := (s.media.pages.filter (fun p => p.seq == seq && p.addr.page != 0 && p.kind != 8 && (p.st == .done || p.st == .failed))).map (·.row)
  sortBy (fun a b => decide (a ≤ b)) (rows.foldl (fun l r => if l.contains r then l else l ++ [r]) [])

/-- Every row found programmed in the sets open at the stop is listed below its LIMIT_ROW. -/
def stripeCovers (s : State) (es : List SjEntry) : Bool :=
  s.media.opens.all (fun o => (rowsFound s o.seq).all (fun r => es.any (fun e => e.seq == o.seq && decide (r < e.limitRow))))

/-- Rows of a set to resynchronise: those from SAFE_ROW to LIMIT_ROW - 1 of the record, or from row 0 on where the record is lost. -/
def resyncRows (s : State) (seq : Nat) : List Nat :=
  match (newestStripe s).filter (stripeCovers s) with
  | some es => match es.find? (fun e => e.seq == seq) with
    | some e => (rowsFound s seq).filter (fun r => decide (e.safeRow ≤ r) && decide (r < e.limitRow))
    | none => []
  | none => rowsFound s seq

/-! ### What becomes of a row (R345, R521) -/

/-- What resynchronisation finds of a row. -/
inductive RowFate where
  | settles
  /-- the row and every later one are abandoned. -/
  | endsBefore
  /-- the row is lost, and every later one abandoned. -/
  | lost
  deriving DecidableEq, Repr

/-- Pages of a row: column and position. -/
def rowCells (k : SetRec) : List (Nat × Nat) := (k.cols.map (·.1)).flatMap (fun c => (List.range k.stripeUnit).map (fun u => (c, u)))

/-- The page of a row is there and rungs 0 to 4 accept it. -/
def cellReads (s : State) (k : SetRec) (found : RestartFind) (row : Nat) (x : Nat × Nat) : Bool :=
  (rowPageOf s.media.pages k row x.1 x.2).any (fun p => p.st == .done && !found.unread.contains p.addr)

/-- The column's block lies on a failed member and has no settled stand-in. -/
def cellDown (s : State) (k : SetRec) (x : Nat × Nat) : Bool := ((colBlock k x.1).map (colDown s k)).getD true

/-- Table 14-3 for a row. -/
def judgeRow (s : State) (k : SetRec) (found : RestartFind) (row : Nat) : RowFate :=
  let bad := (rowCells k).filter (fun x => cellDown s k x || !cellReads s k found row x)
  let e := (List.range k.stripeUnit).foldl (fun n u => Nat.max n (bad.filter (fun x => x.2 == u)).length) 0
  let differs := found.inconsistentRows.contains (k.seq, row)
  if bad.isEmpty then (if differs then .endsBefore else .settles)
  else if differs || k.p < e then .lost
  else if bad.all (cellDown s k) then .settles
  else .endsBefore

/-- The last started row, where its data or parity pages did not all finish (R521): it is completed where every data page that was programmed
decodes, after repair from parity or, one page of the row, from the ACCUMULATOR item. A program that failed or was found suspended is a program
failure, and the row is abandoned (R235, Table 10-12). -/
def judgeLast (s : State) (k : SetRec) (found : RestartFind) (row : Nat) : RowFate :=
  let there := (rowCells k).filter (fun x => (rowPageOf s.media.pages k row x.1 x.2).isSome && !cellDown s k x)
  let failed := there.any (fun x => (rowPageOf s.media.pages k row x.1 x.2).any (fun p => p.st == .failed))
  let data := there.filter (fun x => !isParityCol k.w k.p row x.1)
  let short (u : Nat) : Nat :=
    (data.filter (fun x => x.2 == u && !cellReads s k found row x)).length
      - (there.filter (fun x => x.2 == u && isParityCol k.w k.p row x.1 && cellReads s k found row x)).length
  let need := (List.range k.stripeUnit).foldl (fun n u => n + short u) 0
  let acc := (usableHoldups s).any (fun h => h.accs.any (fun a => a.1 == k.seq && a.2.1 == row))
  if failed || b2n acc < need then .endsBefore else .settles

/-- Every data and parity page of a row finished DONE, on the columns that can be had. -/
def rowFinished (s : State) (k : SetRec) (row : Nat) : Bool :=
  (rowCells k).all (fun x => cellDown s k x || (rowPageOf s.media.pages k row x.1 x.2).any (fun p => p.st == .done))

/-- The fate of a row of a set whose last started row is given. -/
def rowFate (s : State) (k : SetRec) (found : RestartFind) (last row : Nat) : RowFate :=
  if row == last && !rowFinished s k row then judgeLast s k found row else judgeRow s k found row

/-- Pages of a row that cannot be had; every page where none is told apart. -/
def badPages (s : State) (k : SetRec) (found : RestartFind) (row : Nat) : List Madr :=
  let cells := rowCells k
  let bad := cells.filter (fun x => cellDown s k x || !cellReads s k found row x)
  (if bad.isEmpty then cells else bad).filterMap (fun x => (colBlock k x.1).map (fun b => { b with page := rowPage k row x.2 }))

/-- A set closed at a restart with its last valid and first abandoned row; one already closed is closed anew where rows of it go too. -/
def closeAgain (s : State) (k : SetRec) (last abandoned : Option Nat) : State :=
  if !k.closed then closeSet s k.seq last abandoned
  else if abandoned.any (fun a => k.lastValid.any (fun l => decide (a ≤ l))) then commitRec s (.setClose k.seq last abandoned)
  else s

/-- The rows that are to be settled, as a restart holds them. -/
def heldRow (s : State) (k : SetRec) (row : Nat) : RowSt where
  row := row
  since := s.now
  sinceT := tIndex s.cad.tps s.cad.aet
  next := rowSlots k
  parityIssued := true
  verified := false
  settled := false

/-- One set that was open at the stop, closed early: a set whose headers did not finish has no rows; its rows are judged in ascending order up
to the first that is not kept; a last started row that did not finish is completed with PAD and parity (R521). -/
def closeStopped (found : RestartFind) (s : State) (o : OpenSet) : State :=
  match setOf s o.seq with
  | none => updMedia s (fun m => { m with opens := m.opens.filter (fun x => x.seq != o.seq) })
  | some k =>
    let headers := k.cols.all (fun c => colDown s k c.2 || (pageRecOf s c.2).any (fun p => p.st == .done))
    let rows := (resyncRows s k.seq).filter (fun r => decide (r < liveRows k))
    match ((rowsFound s k.seq).filter (fun r => decide (r < liveRows k))).getLast? with
    | none => closeAgain s k none none
    | some last =>
      if !headers then closeAgain s k none none
      else
        let t := updOpen s k.seq (fun x => { x with rows := rows.map (heldRow s k), nextRow := Nat.max x.nextRow (last + 1) })
        match rows.find? (fun r => rowFate s k found last r != .settles) with
        | none =>
          let t := if rowFinished s k last then t else padRow t k last 5
          closeAgain t k (some last) none
        | some r =>
          let gone := rowFate s k found last r == .lost
          let first := if gone then r + 1 else r
          let t := if gone then declareLost t k r (badPages s k found r) else t
          closeAgain t k (if first == 0 then none else some (first - 1)) (if first ≤ last then some first else none)

/-- All of them, their rows settled; the live units of abandoned rows are to be placed again as REFRESH (R228). -/
def closeAll (s : State) (found : RestartFind) : State :=
  let opens := s.media.opens
  let t := finishOps (opens.foldl (closeStopped found) s)
  let t := opens.foldl (fun t o => settleRows t o.seq (fun _ => true)) t
  opens.foldl (fun t o => if ((setOf t o.seq).bind (·.firstAbandoned)).isSome then raiseTrigger t o.seq 3 else t) t

/-- Blocks whose data is unreachable are released, and every released block is erased; an erase whose record was lost counts too (Table
10-12). -/
def eraseReleased (s : State) : State :=
  let t := (s.map.sets.filter (releasable s)).foldl (fun t k => (blocksOfSet k).foldl (fun t b => releaseBlock t k b) t) s
  let counted (t : State) (b : Madr) : State :=
    if s.media.lostErases.contains b then updMap t (fun i => updImgBlk i b (fun x => { x with pe := x.pe + 1 })) else t
  updMedia ((t.map.blocks.filter (·.released)).foldl (fun t b => eraseDone (counted t b.addr) b.addr) t) (fun m => { m with lostErases := [] })

/-! ## Members, rebuild, flags -/

/-- Bays of the map that are not there any more, recorded failed (R346). -/
def failMissing (s : State) : State :=
  (s.media.bays.filter (fun b => (b.st == .member || b.st == .evacuating) && (!b.present || b.faultLow))).foldl (fun t b => bayFail t b.bay) s

/-- The rebuild goes on from its record: running or waiting for its host as it was, and resumed where a restart had paused it (R357, R284). -/
def resumeRebuild (s : State) : State :=
  if lackingRows s == 0 then s
  else
    let t := updMedia s (fun m => { m with rowsTotal := m.rowsDone + lackingRows s })
    let t := setFlags t [(bDegraded, true), (bRebuilding, t.media.rebuild == 1 || t.media.rebuild == 2)]
    if t.media.rebuild == 2 then setRebuild t 1 [] else t

/-- What step 8 has issued has ended: rows settle, full sets close, records become cover. -/
def settleAll (s : State) : State :=
  let t := finishOps s
  settleStand (t.media.opens.foldl (fun t o => settleRows (closeIfFull t o.seq) o.seq (fun r => r.parityIssued)) t)

/-- A stripe-journal record made where one is due. -/
def coverRows (s : State) : State :=
  match sjTarget s with
  | some o => if recordDue s then settleAll (makeStripeRecord s o) else s
  | none => s

/-- A set opened for a stream that has fewer than n, with the record that lets its rows start. -/
def needSet (s : State) (st : Stream) (n : Nat) : State :=
  if (openSetsOf s st).length < n then coverRows (settleAll (openSet s st)) else s

/-- At least two SYSTEM sets open (R343). -/
def needSystem (s : State) : State := needSet (needSet s .system 1) .system 2

/-- The checkpoint in progress carried on to its end, its tiles' homes granted as they come; n bounds the rounds. -/
def finishCkpt : Nat → State → State
  | 0, s => s
  | n + 1, s =>
    match s.jrnl.running with
    | none => s
    | some r =>
      let t := coverRows (needSystem (settleAll ((List.range s.eng.reqs.length).foldl (fun t _ => mapTurn t) s)))
      let u := settleAll (ckptStep t r)
      if u.jrnl.running == s.jrnl.running && u.media.opens == s.media.opens then u else finishCkpt n u

/-- The checkpoint at the end of a restart, begun and written (R247, Table 10-10). -/
def restartCkpt (s : State) : State :=
  if !s.media.bays.any (fun b => b.st == .member) then s
  else
    let t := needSystem s
    let t := if (dirtyTiles t (lastCut t)).isEmpty then t else needSet t .map 1
    finishCkpt 4096 (beginCkpt t .restartEnd false)

/-! ## The commands -/

/-- RESTART_COMPLETE (R256): steps 7 and 8 end and NOT_READY clears; a map that cannot be restored sets FAILED (R264). -/
def execRestartComplete (cyc : Nat) (found : RestartFind) (s : State) : Host.Outcome State Fault Refusal :=
  let s := advanceTo s cyc
  if s.kf.restartStep != 2 || !isOwner s || s.jrnl.stopFrom.isSome then settled s
  else if !found.mapRestorable then settled (failPart s false)
  else
    let clean := cleanStop s
    let first := s.jrnl.stops.isEmpty && s.jrnl.newest.isNone
    let noHoldup := !clean && !first && (lostHoldup s || !found.holdupComplete)
    let s := if noHoldup && !lostHoldup s && s.csnBlock != 0 then { s with csnNext := Nat.max s.csnNext ((s.csnBlock / 2 ^ 20 + 2) * 2 ^ 20) } else s
    let t := updKf (settleFates s (!clean && !first) noHoldup) (fun k => { k with unclean := !clean && !first })
    let t := if clean then t else closeAll t found
    let t := eraseReleased (failMissing t)
    let t := resumeRebuild (if clean || first then t else updHealth t (fun h => { h with uncleanRestarts := h.uncleanRestarts + 1 }))
    let t := (profileNums t).foldl sealIfSpent t
    let t := updKf (restartCkpt t) (fun k => { k with restartStep := 0 })
    let t := updTwin (setFlags t [(bNotReady, false)]) (fun x => { x with gapPins := false })
    let t := slotEvents t (slotsOf t.kf.boot.trial t.kf.boot.active) 2 0
    let t := updMedia t (fun m => { m with readyAt := some t.now })
    let t := (profileNums t).foldl (fun t p => if (memberBays t p).isEmpty then t else startPatrol t p true) t
    settled (settleFull (recomputeHorizon t))

/-- A write not yet performed whose staged blocks lay on a lost channel: a WRITE's wait to be fetched again, a COPY's sources are read again, a
FILL's are generated again at once (R425). -/
def loseStaged (staged : List (Nat × Nat)) (c : Ctx) : Ctx :=
  let gone (u : StagedUnit) : Bool := u.block.isSome && staged.contains (c.cid, u.lba)
  if !pendingWrite c || c.mapAsked || c.status != 0 || eOpcode c.dw == 0x0A then c
  else
    { c with
      staged := c.staged.map (fun u => if gone u then { u with lost := true } else u)
      units := if eOpcode c.dw != 0x0C then c.units
        else c.units.map (fun u => if c.staged.any (fun x => gone x && x.lba + eLba c.dw == u.lba + eCdw23 c.dw) then { u with st := .waiting } else u) }

/-- The frame lies on a DRAM channel. -/
def onChannel (channel : Nat) (f : TileFrame) : Bool := Config.dramChannelOf f.set f.way % 4 == channel

/-- DRAM_CHANNEL_LOSS (R212): one channel goes out of service: its clean tiles are dropped, its dirty tiles and directory blocks rebuilt from the map,
the tier is placed again on what is left, staged data is recovered under R425; a second loss sets FAILED. -/
def execDramChannelLoss (channel : Nat) (staged : List (Nat × Nat)) (s : State) : Host.Outcome State Fault Refusal :=
  if 4 ≤ channel || s.eng.dramLost.getLsbD channel || s.kf.porst then settled s
  else
    let second := s.eng.dramLost != 0
    let t := updEng s (fun e =>
      { e with dramLost := e.dramLost ||| BitVec.ofNat 4 (2 ^ channel), dram := e.dram.filter (fun f => f.dirty || !onChannel channel f) })
    let t := { t with ctxs := t.ctxs.map (loseStaged staged) }
    let t := { t with pods := { t.pods with used := t.pods.used.filter (fun u => !(u.1 == 4 && u.2.1 % 4 == channel)) } }
    if second then settled (failPart t false) else settled (settleFull (sizeTier t))

end Sys2Proof.Machine
end

