-- ==== Sys2Proof/Machine/Sideband.lean ====
section
/-! DEFINITION. The sideband target (R510 to R513): common command codes, access errors, and its registers 0x0000 to 0x08FF as they read and
as a write changes them. A register whose write acts by a row of its own is reached here by the same operation. -/
namespace Sys2Proof.Machine
open Sys2Proof

/-! ## Common command codes (R510) -/

/-- The target answers a common command code; its registers are out of reset. -/
def sbAnswer (s : State) (f : State → State) : Host.Outcome State Fault Refusal := if s.kf.porst then .next s else .next (f s)

/-- The bytes of an answer. -/
def cccBytes (s : State) (bs : List Byte) : State := updSide s (fun x => { x with ccc := bs })

/-- The dynamic address. -/
def setDyn (s : State) (a : Option (BitVec 7)) : State := updSide s (fun x => { x with dyn := a })

/-- The static address 0x60 + SB_ADDR (R503). -/
def staticAddr (s : State) : Nat := 0x60 + s.kf.sbAddr.toNat

/-- Provisioned identifier, most significant byte first. -/
def pidBytes : List Byte := beBytes 6 Config.i3cPid.toNat

/-- Bus characteristics: no HDR mode, no in-band interrupt, no controller role (R510); the other bits are not given. -/
def bcrByte : Byte := Config.i3cBcr &&& 0x1D

/-- RSTDAA: the dynamic address is dropped. -/
def execRstdaa (s : State) : Host.Outcome State Fault Refusal := sbAnswer s (fun t => setDyn t none)

/-- ENTDAA: the target sends its identifier and characteristics; where it wins the arbitration it takes the address. -/
def execEntdaa (address : BitVec 7) (arbitrationWon : Bool) (s : State) : Host.Outcome State Fault Refusal :=
  sbAnswer s (fun t => if arbitrationWon then setDyn (cccBytes t (pidBytes ++ [bcrByte, Config.i3cDcr])) (some address) else t)

/-- SETDASA: the target of the static address takes the dynamic one. -/
def execSetdasa (static_ address : BitVec 7) (s : State) : Host.Outcome State Fault Refusal :=
  sbAnswer s (fun t => if static_.toNat == staticAddr t then setDyn t (some address) else t)

/-- SETNEWDA: the target of the old dynamic address takes the new one. -/
def execSetnewda (oldAddr address : BitVec 7) (s : State) : Host.Outcome State Fault Refusal :=
  sbAnswer s (fun t => if t.side.dyn == some oldAddr then setDyn t (some address) else t)

/-- GETPID: six bytes. -/
def execGetpid (s : State) : Host.Outcome State Fault Refusal := sbAnswer s (fun t => cccBytes t pidBytes)

/-- GETBCR: one byte. -/
def execGetbcr (s : State) : Host.Outcome State Fault Refusal := sbAnswer s (fun t => cccBytes t [bcrByte])

/-- GETDCR: one byte. -/
def execGetdcr (s : State) : Host.Outcome State Fault Refusal := sbAnswer s (fun t => cccBytes t [Config.i3cDcr])

/-- GETSTATUS: two bytes, whose values the manual does not give (assumption 30). -/
def execGetstatus (s : State) : Host.Outcome State Fault Refusal :=
  sbAnswer s (fun t => drawFree (cccBytes t (beBytes 2 (freeNow t).toNat)))

/-! ## Access errors (R511) -/

/-- An address that reads zero and ignores writes: not a multiple of 4, or above 0x08FF. -/
def sbBadAddr (offset : Nat) : Bool := offset % 4 != 0 || decide (0x8FF < offset)

/-- SB_ERRORS counts. -/
def countMisaligned (s : State) : State := updSide s (fun x => { x with misaligned := satAdd 0xFF x.misaligned 1 })
def countShort (s : State) : State := updSide s (fun x => { x with shortWrite := satAdd 0xFF x.shortWrite 1 })
def countPec (s : State) : State := updSide s (fun x => { x with pecFail := satAdd 0xFF x.pecFail 1 })

/-- A sideband write that changes no register: each of its errors is counted. -/
def sbWriteErrors (s : State) (offset bytesAcked : Nat) (pecOk : Bool) : State :=
  let t := if sbBadAddr offset then countMisaligned s else s
  let t := if bytesAcked < 4 then countShort t else t
  if s.side.pec && !pecOk then countPec t else t

/-- SB_REGISTER_WRITE_SHORT (R511). -/
def execSbRegisterWriteShort (offset : Nat) (bytesAcked : Nat) (pecOk : Bool) (s : State) : Host.Outcome State Fault Refusal :=
  sbAnswer s (fun t => sbWriteErrors t offset bytesAcked pecOk)

/-! ## Register values -/

/-- Table 22-6. -/
def idValue (s : State) (off : Nat) : Word :=
  match off with
  | 0x00 => pack [(0x9600, 0), (b2n Config.variantAX, 16), (Config.stepping.toNat, 20)]
  | 0x04 => 1
  | 0x08 | 0x0C | 0x10 | 0x14 | 0x18 => w32 (field Config.serial (off - 8) 4)
  | 0x1C => pack [(b2n s.twin.en, 0), (b2n s.twin.seat, 1), (s.kf.sbAddr.toNat, 2), (s.kf.boardId.toNat, 8)]
  | 0x20 => w32 (reportedCond s).toNat
  | 0x24 => pack [(pinStatus s, 0), (b2n s.side.pwrfail, 6), (b2n s.portA.perst, 7), (b2n s.portB.perst, 8)]
  | 0x28 => lo32 s.kf.run.keeperFw
  | 0x2C => s.side.keeperHi
  | 0x30 => lo32 s.kf.run.clusterFw
  | 0x34 => s.side.clusterHi
  | 0x38 => pack [(b2n s.side.wakeOnMatch, 0), (b2n s.side.pec, 1)]
  | 0x3C => pack [(staticAddr s, 0), ((s.side.dyn.map (·.toNat)).getD 0, 8), (b2n s.side.dyn.isSome, 15)]
  | 0x40 => pack [(s.side.misaligned, 0), (s.side.pecFail, 8), (s.side.shortWrite, 16)]
  | _ => 0

/-- Tables 3-3 to 3-12. -/
def cadValue (s : State) (off : Nat) : Word :=
  let c := s.cad
  let t := nowT s
  match off with
  | 0x100 => pack [(b2n c.internal, 0), (b2n c.outFlywheel, 1), (b2n c.outEnable, 2)]
  | 0x104 => pack [(b2n c.locked, 0), (b2n (flag s.cond bCadLost), 1), (b2n c.aetValid, 2), (b2n c.pendingSet.isSome, 3), (c.flywheelRun, 8)]
  | 0x108 => w32 (c.period % 2 ^ 22)
  | 0x10C => w32 c.tps
  | 0x110 => lo32 c.aet
  | 0x114 => c.aetHi
  | 0x118 => c.setLo
  | 0x11C => c.setHi
  | 0x124 => w32 c.setResult
  | 0x128 => pack [(windowPos c.plan.windowTicks t, 0), (b2n (quietAt c.plan t), 6), (windowTick c.plan.windowTicks t, 8)]
  | 0x12C => w32 c.budget
  | 0x130 => w32 (Nat.min 0xFFFFFFFF c.charged.toNat)
  | 0x134 => w32 (c.debt / 1024)
  | 0x138 => pack [(c.spurious, 0), (c.flywheelTicks, 16)]
  | 0x13C => w32 c.forgiven
  | 0x140 => planWord c.plan
  | 0x144 => lo32 c.plan.quiet.toNat
  | 0x148 => hi32 c.plan.quiet.toNat
  | 0x14C => pack [(c.journalTicks, 0), (s.feat.patrolDays, 8)]
  | _ => 0

/-- Byte of SENSOR_T: degrees, signed; 0x80 invalid. -/
def sensorByte (s : State) (n : Nat) : Nat :=
  match s.power.sensors.getD n none with
  | some t => (BitVec.ofInt 8 t).toNat
  | none => 0x80

/-- Table 20-8. -/
def powerValue (s : State) (off : Nat) : Word :=
  let p := s.power
  match off with
  | 0x200 => pack [(p.st, 0), (b2n p.entering.isSome, 3), (powerCap s, 4), (capVoter s, 8)]
  | 0x204 => pack [(p.limit, 0), (b2n p.ps4Now, 4), (b2n p.testHold, 5)]
  | 0x208 => w32 p.maintWake
  | 0x20C => pack [(p.wakeSource, 0), (p.wakeFrom, 8)]
  | 0x210 => lo32 p.wakeAet
  | 0x214 => p.wakeAetHi
  | 0x218 => pack [(p.refuseReason, 0), (p.refuseTarget, 3), (b2n p.refuseValid, 6)]
  | 0x21C =>
    pack [(p.band, 0), (p.maxSensor, 4), ((BitVec.ofInt 8 p.maxTemp).toNat, 8), (throttleLevel s, 16), (b2n (decide (0 < p.lt)), 20),
      (b2n (decide (0 < p.lp)), 21), (b2n p.degraded, 22)]
  | 0x220 => pack [(s.feat.throttlePoint, 0), (releasePoint s, 8), (120, 16)]
  | 0x224 | 0x228 | 0x22C | 0x230 =>
    pack ((List.range 4).map (fun k => (sensorByte s (off - 0x224 + k), 8 * k)))
  | 0x234 => w32 p.valid.toNat
  | 0x238 => w32 p.cap
  | 0x23C => w32 p.est
  | 0x240 => pack [(p.avsTarget, 0), (b2n p.avsPending.isSome, 16), (b2n p.avsFault, 17)]
  | 0x244 => pack [(p.avsRequests, 0), (p.avsRetries, 16)]
  | 0x248 => w32 p.avsSettle
  | _ => 0

/-- HB_ALIVE: a TWIN_HB_IN edge within the last 250 us. -/
def hbAlive (s : State) : Bool := (s.twin.hbEdge.map (fun e => decide (s.now ≤ e + 250000))).getD false

/-- Table 16-8. -/
def twinValue (s : State) (off : Nat) : Word :=
  let w := s.twin
  match off with
  | 0x300 =>
    pack [(roleNum w.role, 0), (roleNum w.partnerRole, 3), (b2n w.seat, 6), (b2n w.en, 7), (w.lanes, 8), (b2n w.own, 12), (b2n w.peerOwn, 13),
      (b2n (hbAlive s), 14), (b2n w.pairRec.isSome, 15)]
  | 0x304 => pack [(w.hbMisses, 0), (w.takeOvers, 16)]
  | 0x308 => lo32 w.foAet
  | 0x30C => w.foAetHi
  | 0x310 => pack [(w.syncDone, 0), (w.pairReject, 16)]
  | 0x314 => w32 (b2n w.hold)
  | _ => 0

/-- Table 19-4: requester 1's copy. -/
def kfValue (s : State) (off : Nat) : Word :=
  let r := s.kf.side
  match off with
  | 0x408 => w32 r.addr
  | 0x40C =>
    pack [(b2n (kfBusy r), 0), (b2n (bankBusy s false), 1), (b2n (bankBusy s true), 2), (bits r.flags.toNat 11 3, 3), (r.key, 12)]
  | 0x410 => pack [(r.weak, 0), (r.pulses, 20)]
  | 0x414 => r.crc
  | 0x418 => w32 (b2n s.kf.recRequest)
  | 0x41C => pack [(b2n s.kf.recMode, 0), (s.kf.recCause, 1)]
  | 0x420 => lo32 s.kf.boot.seq
  | _ => if 0x500 ≤ off && off ≤ 0x5FC then dataWord r.data ((off - 0x500) / 4) else 0

/-- MIRROR_CNT and MIRROR_CTRL (R495). -/
def mirrorValue (s : State) (off : Nat) : Word :=
  if off == 0x8C0 then pack [(b2n (decide (0 < s.ctr.mirrorWait)), 0), (s.ctr.snapSeq, 16)]
  else if 0x800 ≤ off && off < 0x8C0 then lo32 (s.ctr.snap.getD ((off - 0x800) / 4) 0)
  else 0

/-- What a sideband register reads as (R407, R450, R483, R495, R513, R82). -/
def sideValue (s : State) (off : Nat) : Word :=
  if off < 0x100 then idValue s off
  else if off < 0x200 then cadValue s off
  else if off < 0x300 then powerValue s off
  else if off < 0x400 then twinValue s off
  else if off < 0x800 then kfValue s off
  else mirrorValue s off

/-! ## Reads that act -/

/-- The low half of a sideband pair read: the high half of the same value is latched into its HI register (R483, R407, R513). -/
def latchSide (s : State) (off : Nat) : State :=
  match off with
  | 0x028 => updSide s (fun x => { x with keeperHi := hi32 s.kf.run.keeperFw })
  | 0x030 => updSide s (fun x => { x with clusterHi := hi32 s.kf.run.clusterFw })
  | 0x210 => updPower s (fun x => { x with wakeAetHi := hi32 x.wakeAet })
  | 0x308 => updTwin s (fun x => { x with foAetHi := hi32 x.foAet })
  | _ => s

/-- The RC fields of a sideband register cleared by its read (R14). -/
def clearSide (s : State) (off : Nat) : State :=
  match off with
  | 0x040 => updSide s (fun x => { x with misaligned := 0, pecFail := 0, shortWrite := 0 })
  | 0x138 => updCad s (fun c => { c with spurious := 0, flywheelTicks := 0 })
  | 0x13C => updCad s (fun c => { c with forgiven := 0 })
  | 0x244 => updPower s (fun p => { p with avsRequests := 0, avsRetries := 0 })
  | 0x304 => updTwin s (fun t => { t with hbMisses := 0 })
  | _ => s

/-- Registers of the window in force: a window start that is due is carried out before they are read (R66, Table 3-10). -/
def windowReg (off : Nat) : Bool := [0x12C, 0x130, 0x134, 0x13C].contains off

/-- A sideband register read. -/
def readSide (s : State) (off : Nat) : State :=
  let s := if windowReg off then settleWindow s else s
  if sbBadAddr off then countMisaligned { s with readData := 0 }
  else if off == 0x110 then readAetLo s
  else clearSide (latchSide { s with readData := sideValue s off } off) off

/-! ## Writes -/

/-- A field written where its value is in range; else ignored (R483). -/
def writePower (s : State) (off v : Nat) : State :=
  match off with
  | 0x208 =>
    let h := bits v 7 0
    if 1 ≤ h && h ≤ 168 then updPower s (fun p => { p with maintWake := h }) else s
  | 0x238 =>
    let w := bits v 7 0
    if w == 0 || (20 ≤ w && w ≤ 60) then updPower s (fun p => { p with cap := w }) else s
  | 0x248 =>
    let u := bits v 9 0
    if 10 ≤ u && u ≤ 1000 then updPower s (fun p => { p with avsSettle := u }) else s
  | _ => s

/-- KF_STATUS written: bits 3 to 11 clear where 1 is written (W1C). -/
def writeKfStatus (s : State) (v : Word) : State :=
  updKfReq s true (fun r => { r with flags := r.flags &&& ~~~(BitVec.ofNat 12 v.toNat &&& 0xFF8) })

/-- A register of the recovery window written (Table 19-4). -/
def writeKf (s : State) (off : Nat) (v : Word) : State :=
  match off with
  | 0x400 => kfWriteKey s true (bits v.toNat 15 0)
  | 0x404 => kfWriteCmd s true (bits v.toNat 7 0)
  | 0x408 => kfWriteAddr s true (bits v.toNat 25 0) none
  | 0x40C => writeKfStatus s v
  | 0x418 => writeRecovery s v
  | _ => if 0x500 ≤ off && off ≤ 0x5FC then kfWriteData s true ((off - 0x500) / 4) v none else s

/-- A sideband register written by its access code (R14); reserved fields and RO registers are unchanged. -/
def writeSide (s : State) (off : Nat) (v : Word) : State :=
  match off with
  | 0x038 => updSide s (fun x => { x with wakeOnMatch := v.getLsbD 0, pec := v.getLsbD 1 })
  | 0x100 => writeCadControl s v
  | 0x10C => writeCadTps s v
  | 0x118 => updCad s (fun c => { c with setLo := v })
  | 0x11C => updCad s (fun c => { c with setHi := v })
  | 0x120 => writeAetSetCtrl s v
  | 0x204 => writePsControl s v
  | 0x314 => updTwin s (fun t => { t with hold := v.getLsbD 0 })
  | 0x8C0 => writeMirrorCtrl s v
  | _ => if 0x200 ≤ off && off < 0x300 then writePower s off v.toNat else if 0x400 ≤ off && off < 0x800 then writeKf s off v else s

end Sys2Proof.Machine
end

