-- ==== Sys2Proof/Machine/Registers.lean ====
section
/-! DEFINITION. BAR0 of each port (R85, R86, R119, R484) as it reads and as a write changes it, the two configuration registers the
manual's rules rest on, and the commands that read and write registers: RC_REGISTER_READ, LATCHED_PAIR_LOW_READ, REGISTER_WRITE. -/
namespace Sys2Proof.Machine
open Sys2Proof

/-! ## Ranges (Table 4-1) -/

/-- The doorbell range. -/
def inBells (off : Nat) : Bool := 0x100000 ≤ off && off < 0x120000

/-- MSI-X table and pending-bit array. -/
def inMsix (off : Nat) : Bool := 0x2000 ≤ off && off < 0xA000
def inPba (off : Nat) : Bool := 0xA000 ≤ off && off < 0xA100

/-- Registers of an offset range from a base: number of the register, where it lies in the range. -/
def regIn (off base count step : Nat) : Option Nat :=
  if base ≤ off && off < base + step * count then some ((off - base) / step) else none

/-! ## Values -/

/-- READY: the admin queue is ACTIVE and the port fetches (Table 4-4). -/
def portReady (x : PortSt) : Bool := x.ready && x.shutdownState == 0 && x.queues.any (fun k => k.qid == 0 && k.st == .active)

/-- Tables 4-2 to 4-5. -/
def portValue (s : State) (p : Port) (off : Nat) : Word :=
  let x := portOf s p
  let i := s.kf.img
  match off with
  | 0x000 => pack [(portNum p, 0), (b2n s.twin.seat, 1), (b2n s.twin.en, 2)]
  | 0x004 => 0x00010000
  | 0x008 => pack [(i.maxQueues, 0), (i.maxRing, 16)]
  | 0x00C => pack [((match p with | .a => i.contextShareA | .b => i.contextShareB), 0), (i.maxVectors, 20)]
  | 0x010 => pack [(b2n x.enable, 0), (x.shutdownReq, 1)]
  | 0x014 =>
    pack [(b2n (portReady x), 0), (b2n x.draining, 1), (x.shutdownState, 2), (roleNum s.twin.role, 4), (b2n x.resumptionPending, 7), (b2n x.configError, 8)]
  | 0x018 => w32 (reportedCond s).toNat
  | 0x01C => pack [(x.asqEntries, 0), (x.acqEntries, 16)]
  | 0x020 => lo32 x.asqBase
  | 0x024 => hi32 x.asqBase
  | 0x028 => lo32 x.acqBase
  | 0x02C => hi32 x.acqBase
  | 0x030 => lo32 s.csnIssued
  | 0x034 => x.csnHi
  | 0x038 => w32 (portCtxs s p).length
  | 0x03C => pack [(x.unknownQueue, 0), (x.malformed, 16)]
  | _ => 0

/-- Bit of QUEUE_FROZEN: the queue is FROZEN or RESTARTING (Table 4-6). -/
def frozenBit (x : PortSt) (q : Nat) : Bool := x.queues.any (fun k => k.qid == q && (k.st == .frozen || k.st == .restarting))

/-- 32 bits numbered from a first one. -/
def bitWord (f : Nat → Bool) (first : Nat) : Word := pack ((List.range 32).map (fun k => (b2n (f (first + k)), k)))

/-- Table 4-6. -/
def eventValue (x : PortSt) (off : Nat) : Word :=
  match off with
  | 0x1000 => lo32 x.ev.base
  | 0x1004 => hi32 x.ev.base
  | 0x1008 => pack [(x.ev.entries, 0), (x.ev.vector, 16), (b2n x.ev.enable, 31)]
  | 0x100C => w32 x.ev.head
  | 0x1010 => w32 x.ev.tail
  | 0x1014 => w32 x.ev.lost
  | _ => if 0x1800 ≤ off && off < 0x2000 then bitWord (frozenBit x) (32 * ((off - 0x1800) / 4)) else 0

/-- An MSI-X table entry; one never written has address and data 0 and is masked. -/
def msixEntry (x : PortSt) (v : Nat) : MsixEntry :=
  match x.msix.find? (fun e => e.vector == v) with
  | some e => e
  | none => { vector := v, addrLo := 0, addrHi := 0, data := 0, masked := true }

/-- Dword of an MSI-X table entry: address, data, vector control. -/
def msixValue (x : PortSt) (off : Nat) : Word :=
  let e := msixEntry x ((off - 0x2000) / 16)
  match off % 16 / 4 with
  | 0 => e.addrLo
  | 1 => e.addrHi
  | 2 => e.data
  | _ => w32 (b2n e.masked)

/-- A doorbell reads as the last value accepted (R97). -/
def bellValue (s : State) (p : Port) (off : Nat) : Word :=
  match bellQueue s p ((off - 0x100000) / 8) with
  | some (k, _) => w32 (if off % 8 == 0 then k.sqTail else k.cqHead)
  | none =>
    match (portOf s p).lastBells.find? (fun x => x.1 == (off - 0x100000) / 8) with
    | some x => w32 (if off % 8 == 0 then x.2.1 else x.2.2)
    | none => 0

/-- CNT_SEL[n]; the fixed counters read 0x1F00 + n (R488). -/
def selValue (c : Ctr) (n : Nat) : Word :=
  if n < 8 then w32 (0x1F00 + n)
  else
    let e := c.sel.getD (n - 8) (0, 0x1F)
    pack [(e.1, 0), (e.2, 8)]

/-- High half latched for a port. -/
def counterHi (s : State) (p : Port) : Word := (portOf s p).ctrHi

/-- Dword of a Periscope sample; a sample never written reads 0. -/
def sampleValue (c : Ctr) (off : Nat) : Word :=
  match c.ring.find? (fun x => x.1 == off / 64) with
  | some x => x.2.getD (off % 64 / 4) 0
  | none => 0

/-- Tables 21-1, 21-2 and 21-7, offsets within the diagnostics window. -/
def diagValue (s : State) (p : Port) (off : Nat) : Word :=
  let c := s.ctr
  match off with
  | 0x000 => pack [(b2n c.run, 0), (b2n c.snapOnWindow, 3), (c.tdPort, 4)]
  | 0x004 => pack [(c.epoch, 0), (c.snapSeq, 16)]
  | 0x008 => lo32 c.snapAet
  | 0x00C => (portOf s p).snapAetHi
  | 0x010 => w32 (Nat.min 0xFFFFFF (retireBacklog s))
  | 0x800 => pack [(b2n c.arm, 0), (b2n c.wrap, 1), (b2n c.jitter, 2)]
  | 0x804 => w32 c.pscPeriod
  | 0x808 => c.filter
  | 0x80C => w32 c.head
  | 0x810 => w32 c.tail
  | 0x814 => w32 c.dropped
  | _ =>
    match regIn off 0x100 48 4, regIn off 0x200 48 8, regIn off 0x400 48 8 with
    | some n, _, _ => selValue c n
    | _, some _, _ => counterHi s p
    | _, _, some _ => counterHi s p
    | _, _, _ => if 0x40000 ≤ off && off < 0x80000 then sampleValue c (off - 0x40000) else 0

/-- What a BAR0 register reads as; ranges not listed read zero (R85). -/
def barValue (s : State) (p : Port) (off : Nat) : Word :=
  let x := portOf s p
  if off < 0x1000 then portValue s p off
  else if off < 0x2000 then eventValue x off
  else if inMsix off then msixValue x off
  else if inPba off then bitWord (fun v => x.pba.contains v) (8 * (off - 0xA000))
  else if inBells off then bellValue s p off
  else if 0x1000000 ≤ off && off < 0x1100000 then diagValue s p (off - 0x1000000)
  else 0

/-! ## Reads -/

/-- The requester that a port is. -/
def portReq : Port → Requester
  | .a => .portA
  | .b => .portB

/-- The low half of a counter, live or of the snapshot, at an offset of the diagnostics window. -/
def counterAt (off : Nat) : Option (Bool × Nat) :=
  if off % 8 != 0 then none
  else
    match regIn off 0x1000200 48 8, regIn off 0x1000400 48 8 with
    | some n, _ => some (false, n)
    | _, some n => some (true, n)
    | _, _ => none

/-- The RC fields of a BAR0 register cleared by its read (R14). -/
def clearBar (s : State) (p : Port) (off : Nat) : State :=
  match off with
  | 0x03C => updPort s p (fun x => { x with unknownQueue := 0, malformed := 0 })
  | 0x1014 => updPort s p (fun x => { x with ev := { x.ev with lost := 0 } })
  | 0x1000814 => updCtr s (fun c => { c with dropped := 0 })
  | _ => s

/-- SNAP_AET_LO latches SNAP_AET_HI, each port with its own latch (Table 21-2). -/
def latchBar (s : State) (p : Port) (off : Nat) : State :=
  match off with
  | 0x1000008 => updPort s p (fun x => { x with snapAetHi := hi32 s.ctr.snapAet })
  | _ => s

/-- A doorbell access that R85 does not accept: counted. -/
def badAccess (s : State) (p : Port) (off : Nat) : State := if inBells off then bellIgnored s p false else s

/-- An aligned 4-byte read of a BAR0 register; an unaligned one reads zero (R85). -/
def readBar (s : State) (p : Port) (off : Nat) : State :=
  if off % 4 != 0 then badAccess { s with readData := 0 } p off
  else if off == 0x030 then readCsnLo s p
  else
    match counterAt off with
    | some (snapshot, n) => readCounterLow s (portReq p) snapshot n
    | none => clearBar (latchBar { s with readData := barValue s p off } p off) p off

/-- A read of BAR0 of a size: other than 4 bytes it reads zero (R85). -/
def readSized (s : State) (p : Port) (off size : Nat) : State :=
  if size == 4 then readBar s p off else badAccess { s with readData := 0 } p off

/-- A dword of configuration space that the manual's rules rest on: BAR0, 64-bit and non-prefetchable, whose size leaves the low 25 bits 0
(R83); MSI-X control, whose table size reports MAX_VECTORS (R86); L1 substates control (assumption 9). -/
def configValue (s : State) (p : Port) : RegAddr → Word
  | .bar0 high => if high then hi32 (portOf s p).bar0 else lo32 (portOf s p).bar0 ||| 4#32
  | .msixControl =>
    let x := portOf s p
    pack [(s.kf.img.maxVectors - 1, 16), (b2n x.funcMask, 30), (b2n x.msixEnable, 31)]
  | .l1Substates => pack [(b2n (portOf s p).l12, 0)]
  | .window _ => 0

/-- A port's read: of configuration space only once the host cluster is released (R84). -/
def portRead (s : State) (p : Port) (reg : RegAddr) (size : Nat) : State :=
  match reg with
  | .window off => readSized s p off size
  | r => if s.kf.released then { s with readData := configValue s p r } else s

/-- A register read by a requester. -/
def readRegister (s : State) (req : Requester) (reg : RegAddr) (size : Nat) : State :=
  match req with
  | .portA => portRead s .a reg size
  | .portB => portRead s .b reg size
  | .sideband => match reg with
    | .window off => readSide s off
    | _ => s

/-- RC_REGISTER_READ (R14, R85): the value is answered, then the fields of access code RC clear. A register without such a field is only
read. -/
def execRcRegisterRead (req : Requester) (reg : RegAddr) (bytes : Nat) (s : State) : Host.Outcome State Fault Refusal :=
  settled (readRegister s req reg bytes)

/-- The low halves whose read latches a high half (R483, R407, R484, R513). -/
def latchedLow (req : Requester) (off : Nat) : Bool :=
  match req with
  | .sideband => [0x028, 0x030, 0x210, 0x308].contains off
  | _ => off == 0x1000008

/-- LATCHED_PAIR_LOW_READ (R483). -/
def execLatchedPairLowRead (req : Requester) (offset : Nat) (s : State) : Host.Outcome State Fault Refusal :=
  if latchedLow req offset then settled (readRegister s req (.window offset) 4) else settled s

/-! ## Writes -/

/-- Low and high half of a 64-bit value replaced. -/
def withLo (x : Nat) (v : Word) : Nat := x / 2 ^ 32 * 2 ^ 32 + v.toNat
def withHi (x : Nat) (v : Word) : Nat := v.toNat * 2 ^ 32 + x % 2 ^ 32

/-- A port control register written: the admin queue's registers are locked while ENABLE is 1 (Table 4-5). -/
def writePort (s : State) (p : Port) (off : Nat) (v : Word) : State :=
  if off == 0x010 then writePortControl s p v
  else if (portOf s p).enable then s
  else
    match off with
    | 0x01C => updPort s p (fun x => { x with asqEntries := bits v.toNat 12 0, acqEntries := bits v.toNat 28 16 })
    | 0x020 => updPort s p (fun x => { x with asqBase := withLo x.asqBase v })
    | 0x024 => updPort s p (fun x => { x with asqBase := withHi x.asqBase v })
    | 0x028 => updPort s p (fun x => { x with acqBase := withLo x.acqBase v })
    | 0x02C => updPort s p (fun x => { x with acqBase := withHi x.acqBase v })
    | _ => s

/-- An event register written: the ring's address is locked while EVENT_CTRL.ENABLE is 1 (Table 4-6). -/
def writeEvent (s : State) (p : Port) (off : Nat) (v : Word) : State :=
  let locked := (portOf s p).ev.enable
  match off with
  | 0x1000 => if locked then s else updPort s p (fun x => { x with ev := { x.ev with base := withLo x.ev.base v } })
  | 0x1004 => if locked then s else updPort s p (fun x => { x with ev := { x.ev with base := withHi x.ev.base v } })
  | 0x1008 => writeEventCtrl s p v
  | 0x100C => updPort s p (fun x => { x with ev := { x.ev with head := bits v.toNat 11 0 } })
  | _ => s

/-- An MSI-X table dword written; a vector unmasked sends its pending message (R114). -/
def writeMsix (s : State) (p : Port) (off : Nat) (v : Word) : State :=
  let e := msixEntry (portOf s p) ((off - 0x2000) / 16)
  let e' := match off % 16 / 4 with
    | 0 => { e with addrLo := v }
    | 1 => { e with addrHi := v }
    | 2 => { e with data := v }
    | _ => { e with masked := v.getLsbD 0 }
  sendPending (updPort s p (fun x => { x with msix := e' :: x.msix.filter (fun k => k.vector != e.vector) })) p

/-- A register of the diagnostics window written. -/
def writeDiag (s : State) (off : Nat) (v : Word) : State :=
  match off with
  | 0x000 => writeCntCtrl s v
  | 0x800 => writePsc s 0 v
  | 0x804 => writePsc s 1 v
  | 0x808 => writePsc s 2 v
  | 0x80C => writePsc s 3 v
  | _ =>
    match regIn off 0x100 48 4 with
    | some n => writeCntSel s n v
    | none => s

/-- An aligned 4-byte write of a BAR0 register. -/
def writeBar (s : State) (p : Port) (off : Nat) (v : Word) : State :=
  if off < 0x1000 then writePort s p off v
  else if off < 0x2000 then writeEvent s p off v
  else if inMsix off then writeMsix s p off v
  else if inBells off then
    (if off % 8 == 0 then writeTail s p ((off - 0x100000) / 8) v true else writeHead s p ((off - 0x100000) / 8) v true)
  else if 0x1000000 ≤ off && off < 0x1100000 then writeDiag s (off - 0x1000000) v
  else s

/-- A BAR0 write of a size: aligned 4 bytes, or aligned 8 bytes in the doorbell range, SQ tail first; any other is ignored (R85, R97). -/
def barAccess (s : State) (p : Port) (off : Nat) (v : Dword) (size : Nat) : State :=
  if size == 4 && off % 4 == 0 then writeBar s p off (lo32 v.toNat)
  else if size == 8 && off % 8 == 0 && inBells off then
    writeHead (writeTail s p ((off - 0x100000) / 8) (lo32 v.toNat) true) p ((off - 0x100000) / 8) (hi32 v.toNat) true
  else badAccess s p off

/-- MSI-X control in configuration space: enable and function mask; pending messages that may go now are sent (R114) (assumption 9). -/
def writeMsixControl (s : State) (p : Port) (v : Word) : State :=
  sendPending (updPort s p (fun x => { x with msixEnable := v.getLsbD 31, funcMask := v.getLsbD 30 })) p

/-- BAR0 written: the 25 low bits of a 32 MiB window stay 0 (R83). -/
def writeBar0 (s : State) (p : Port) (high : Bool) (v : Word) : State :=
  updPort s p (fun x => { x with bar0 := (if high then withHi x.bar0 v else withLo x.bar0 v) / 33554432 * 33554432 })

/-- A port's write: of configuration space only once the host cluster is released (R84). -/
def portWrite (s : State) (p : Port) (reg : RegAddr) (v : Dword) (size : Nat) : State :=
  match reg with
  | .window off => barAccess s p off v size
  | .bar0 high => if s.kf.released then writeBar0 s p high (lo32 v.toNat) else s
  | .msixControl => if s.kf.released then writeMsixControl s p (lo32 v.toNat) else s
  | .l1Substates => if s.kf.released then updPort s p (fun x => { x with l12 := v.getLsbD 0 || v.getLsbD 2 }) else s

/-- A sideband write of at least four data bytes to a register that exists takes effect; any other counts its errors (R511). -/
def sideWrite (s : State) (reg : RegAddr) (v : Dword) (size : Nat) : State :=
  match reg with
  | .window off => if sbBadAddr off || size < 4 then sbWriteErrors s off size true else writeSide s off (lo32 v.toNat)
  | _ => s

/-- REGISTER_WRITE (R14, R85, R511): a register is written by its access code. -/
def execRegisterWrite (req : Requester) (reg : RegAddr) (value : Dword) (bytes : Nat) (s : State) : Host.Outcome State Fault Refusal :=
  if s.kf.porst then settled s
  else
    match req with
    | .portA => settled (portWrite s .a reg value bytes)
    | .portB => settled (portWrite s .b reg value bytes)
    | .sideband => settled (sideWrite s reg value bytes)

end Sys2Proof.Machine
end

