-- ==== Sys2Proof/Machine/Twin.lean ====
section
/-! DEFINITION. The twin (chapter 16): roles, supervision and fencing (R382 to R385), pairing and resynchronisation from the active's side
(R397 to R400), claims, take-over and hand-over (R383, R391 to R396, R401, R404), and the TWIN_CONTROL commands. -/
namespace Sys2Proof.Machine
open Sys2Proof

/-! ## Roles and supervision -/

/-- The twin unit runs: strapped for twin operation, out of reset, not in recovery mode (R382, R451). -/
def twinRuns (s : State) : Bool := s.twin.en && !s.kf.porst && !s.kf.recMode

/-- A role taken, with its event (R382). -/
def setRole (s : State) (r : Role) : State :=
  if s.twin.role == r then s else raiseEvent (updTwin s (fun t => { t with role := r })) 8 1 (roleNum r) 0

/-- Cycles since the last TWIN_HB_IN edge, and since the last frame accepted (R384). -/
def quietEdge (s : State) : Nat := s.now - s.twin.hbEdge.getD s.twin.superFrom
def quietFrame (s : State) : Nat := s.now - s.twin.lastFrame.getD s.twin.superFrom

/-- Both paths have been silent for a time. -/
def bothQuiet (s : State) (n : Nat) : Bool := decide (n ≤ quietEdge s) && decide (n ≤ quietFrame s)

/-- HB_MISSES counts every 250 us in which either path was silent (R384). -/
def countMisses (s : State) : State :=
  if !twinRuns s then s
  else
    let t := s.twin
    let n := (s.now - t.hbCounted) / 250000
    let last := Nat.min (t.hbEdge.getD t.superFrom) (t.lastFrame.getD t.superFrom)
    let seen := if last < t.hbCounted then 0 else (last - t.hbCounted) / 250000 + 1
    let miss := n - Nat.min n seen
    updTwin s (fun t =>
      { t with hbMisses := satAdd 0xFFFF t.hbMisses miss, hbTotal := satAdd 0xFFFFFFFF t.hbTotal miss, hbCounted := t.hbCounted + 250000 * n })

/-- The fabric time of a twin command passes, with the misses that it brings. -/
def twinTime (s : State) (cyc : Nat) : State := countMisses (advanceTo s cyc)

/-- FENCE_N driven low from now on; never with TWIN_SOLO_HOLD 1 (R385, Table 16-8). -/
def fence (s : State) : State := if s.twin.hold then s else updTwin s (fun t => { t with fenceFrom := some s.now })

/-- Journal records of acknowledged frames are mirrored, so durable (R243, R388). -/
def markDurable (s : State) (ok : Nat → Bool) : State :=
  updJrnl s (fun j => { j with recs := j.recs.map (fun r => if ok r.jseq then { r with durable := true } else r) })

/-- A command that waited for the partner and cannot be performed any more is refused (Table 16-7). -/
def refuseWaiting (s : State) (cid : Option Nat) : State :=
  match cid with
  | some n => refuseNow s n 0x1002 0x30
  | none => s

/-- The active goes on alone: TWIN_SOLO set, no acknowledgement awaited, the partner recorded FENCED (Table 16-3). -/
def goAlone (s : State) : State :=
  let w := s.twin
  let t := markDurable (setFlags s [(bTwinSolo, true)]) (fun _ => true)
  let t := updTwin t (fun x => { x with partnerRole := .fenced, unacked := [], syncEnd := none, handOver := none, pairing := none })
  settleStand (refuseWaiting (refuseWaiting t (w.handOver.map (·.2))) (w.pairing.bind (·.2.2)))

/-- Everything of the partner's that a standby holds beside its copy of the map is dropped. -/
def clearMirror (s : State) : State :=
  updTwin s (fun t =>
    { t with slots := [], queues := [], features := [], frontier := [], capture := 0, handOverIn := false, handOverSets := [], csnBlock := 0 })

/-- What this chip knew of a medium that another chip now writes is dropped; bay positions, keeper flash's lists and counts stay. -/
def forgetMedium (s : State) : State :=
  let m := s.media
  let t := { s with
    map := MapImg.empty
    eng := { MapEng.reset with dramSets := s.eng.dramSets, dramLost := s.eng.dramLost, dirPool := s.eng.dirPool }
    media := { Media.reset with
      bays := m.bays.map (fun b => { b with connected := false, pwrEn := false, writable := false }), retired := m.retired, thermLogs := m.thermLogs
      blockSeqHigh := m.blockSeqHigh, sjSeq := m.sjSeq } }
  updJrnl t (fun j => { j with recs := [], flights := [], running := none, waiting := [], newest := none, written := none, holdups := [], cleanStands := false })

/-- A STANDBY or SYNCING chip falls back to FENCED: its copy is not kept up any more (Table 16-3). -/
def fallBack (s : State) : State :=
  let t := raiseEvent (updTwin (clearMirror s) (fun x => { x with greeted := false })) 8 2 (roleNum .fenced) 0
  setRole t .fenced

/-- No frame has been accepted for 0.5 ms, and a TWIN_HB_IN edge has come after that (Table 16-3). -/
def linkAlone (s : State) : Bool :=
  (s.twin.role == .standby || s.twin.role == .syncing) &&
    s.twin.hbEdge.any (fun e => decide (s.twin.lastFrame.getD s.twin.superFrom + 500000 ≤ e))

/-! ## Pairing (R397, R398) -/

/-- Profiles whose binding sections this chip's PAIR_HELLO covers: those matched to member bays. A chip without ownership, which reads no bay,
takes those that the partner's hash covers where it has come, and else every profile of its image (assumption 48). -/
def pairProfiles (s : State) : List Nat :=
  if isOwner s then matchedProfiles s
  else ((s.twin.peer.bind (fun h => agreedProfiles s s.kf.imgBytes h.hash))).getD (List.range (profileCount s.kf.imgBytes))

/-- This chip's identity as PAIR_HELLO carries it (Table 16-5). -/
def ownHello (s : State) : PairHello where
  serial := Config.serial
  seat := s.twin.seat
  linkLevel := s.kf.run.linkLevel
  linkLevelMin := s.kf.run.linkLevelMin
  clusterFw := BitVec.ofNat 64 s.kf.run.clusterFw
  imageId := BitVec.ofNat 64 s.kf.run.imageId
  hash := pairHash s.kf.imgBytes (pairProfiles s)

/-- Why pairing is refused: equal seats, link levels, hashes (R397); 0 where it is not. -/
def pairRefusal (s : State) (h : PairHello) : Nat :=
  let own := ownHello s
  if own.seat == h.seat then 0x09
  else if own.linkLevel < h.linkLevelMin || h.linkLevel < own.linkLevelMin then 0x07
  else if (agreedProfiles s s.kf.imgBytes h.hash).isNone then 0x0C
  else 0

/-- This chip's pair record names the partner that PAIR_HELLO introduced. -/
def recordNames (s : State) : Bool :=
  match s.twin.pairRec, s.twin.peer with
  | some r, some h => r.1 == h.serial
  | _, _ => false

/-- A FENCED partner of the active, greeted and named by its pair record, begins SYNCING (R397). -/
def beginSyncing (s : State) : State := setRole (forgetMedium (clearMirror s)) .syncing

/-- The same where everything for it holds. -/
def settlePairing (s : State) : State :=
  let t := s.twin
  if t.role == .fenced && t.greeted && !t.hold && t.partnerRole == .active && recordNames s then beginSyncing s else s

/-- Bytes 0 to 95 of a PAIR_HELLO body (Table 16-5). -/
def helloBytes (h : PairHello) : List Byte :=
  padTo 20 h.serial ++ [BitVec.ofNat 8 (b2n h.seat), 0] ++ leBytes 2 h.linkLevel ++ leBytes 2 h.linkLevelMin ++ zeros 6 ++ leBytes 8 h.clusterFw.toNat
    ++ leBytes 8 h.imageId.toNat ++ beBytes 48 h.hash.toNat

/-- What both chips confirm: PAIR_HELLO and PAIR_KEY of both, in seat order (R398). -/
def transcript (s : State) (n : Nat) (point : List Byte) : List Byte :=
  let own := helloBytes (ownHello s) ++ Config.pairPoint n
  let other := ((s.twin.peer.map helloBytes).getD []) ++ point
  if s.twin.seat then other ++ own else own ++ other

/-- Both SERIALs in seat order (R398). -/
def pairInfo (s : State) : List Byte :=
  let other := (s.twin.peer.map (·.serial)).getD []
  if s.twin.seat then other ++ Config.serial else Config.serial ++ other

/-- An ephemeral key drawn and its point sent (R398). -/
def sendPairKey (s : State) (point : Option (List Byte)) (cid : Option Nat) : State :=
  let n := s.twin.keysDrawn
  sendFrame (updTwin s (fun t => { t with keysDrawn := n + 1, pairing := some (n, point, cid) })) (.pairKey (Config.pairPoint n))

/-! ## Resynchronisation, the active's side (R400) -/

/-- A feature's words as a STATE frame or a SYNC_PIECE carries them. -/
def featureWords (s : State) (p : Port) (f : Nat) : Nat × List Word :=
  let v := currentVal s p f 0
  (f + 256 * featureScope f p,
    [w32 v.2.1, w32 v.2.2.1, w32 v.2.2.2, 0, lo32 v.1, hi32 v.1] ++ (if f == 5 then (portOf s p).hostMap.flatMap (fun a => [lo32 a, hi32 a]) else []))

/-- KIND 11: the saved values, then the values in force. -/
def allFeatures (s : State) : List (Nat × List Word) :=
  s.kf.saved.map (fun x => (x.2.1 + 256 * x.1, x.2.2 ++ [1, 0, 0])) ++ [1, 2, 3, 4, 0x0A, 0x0B, 0x0C].map (featureWords s .a)
    ++ [5, 7, 8, 9].map (featureWords s .a) ++ [5, 7, 8, 9].map (featureWords s .b)

/-- The admission slots of the commands held (Table 10-1). -/
def allSlots (s : State) : List AdmSlot := slotsInOrder ((s.ctxs.filter inFlight).map admSlotOf)

/-- The pieces in the order of R400. -/
def syncPieces (s : State) : List SyncPiece :=
  let images (p : Port) := (portOf s p).queues.map (queueImage s p)
  [.slots (allSlots s), .queues (images .a ++ images .b), .features (allFeatures s), .namespaces s.map.nss, .log .a s.portA.res, .log .b s.portB.res,
    .directoryRoot, .directory s.map.segs, .blockTable s.map.blocks, .lostLbas s.map.lost, .sets s.map.sets]

/-- The active sends its state to a partner that has become SYNCING: the pieces, the journal records, SYNC_END (R400). -/
def startSync (s : State) : State :=
  let capture := s.jrnl.nextSeq - 1
  let t := updTwin s (fun x => { x with partnerRole := .syncing })
  let t := (syncPieces s).foldl (fun t p => sendFrame t (.syncPiece p capture)) t
  let t := sendFrame t (.journal s.jrnl.recs)
  let fseq := t.twin.txSeq
  updTwin (sendFrame t (.syncEnd (lastCsn s))) (fun x => { x with syncEnd := some fseq, syncDone := 10000 })

/-! ## The standby's tables turned into a running chip's (R391 to R396, R404) -/

/-- A mirrored queue as it is kept: a queue whose RESTART_QUEUE was not performed stays FROZEN (R394). -/
def queueOfImage (i : QueueImage) : Queue :=
  { newQueue i.qid i.sqBase i.cqBase i.sqEntries i.cqEntries i.vector i.prio i.coalCount i.coalTime with
    st := if i.st == 0 then .disabled else if i.st == 1 then .active else .frozen
    stopped := i.st == 2 || i.st == 3
    sqTail := i.sqTail, cqHead := i.cqHead, cqTail := i.cqNext, phase := i.phase, sqHead := i.resumeIndex, resumeIndex := i.resumeIndex }

/-- A per-port feature's words in force on its port (R396). -/
def applyPortFeature (s : State) (x : Nat × List Word) : State :=
  let p : Port := if x.1 / 256 == 2 then .b else .a
  let w (n : Nat) : Nat := (x.2.getD n 0).toNat
  match x.1 % 256 with
  | 5 => setHostMap s p (w 4 + 2 ^ 32 * w 5) ((List.range ((x.2.length - 6) / 2)).map (fun i => w (6 + 2 * i) + 2 ^ 32 * w (7 + 2 * i)))
  | 7 => updPort s p (fun y => applyArb y (w 0))
  | 8 => setShelf s p (if w 0 == 0 then none else some { base := w 4 + 2 ^ 32 * w 5, units := w 0 })
  | 9 => updPort s p (fun y => { y with eventMask := w32 (w 0) })
  | _ => s

/-- The kept queues installed on the same ports, and the mirrored per-port features in force (R394, R396). -/
def installMirror (s : State) : State :=
  let t := s.twin.queues.foldl (fun t x => if x.2.qid == 0 || x.2.st == .disabled then t else addQueue t x.1 x.2) s
  s.twin.features.foldl applyPortFeature t

/-- Rows and run-time side of the sets that the partner left open, from the pages found. -/
def openedSets (s : State) (closing : Bool) : List OpenSet :=
  (s.map.sets.filter (fun k => !k.closed)).map (fun k =>
    let pages := s.media.pages.filter (fun p => p.seq == k.seq && p.addr.page != 0)
    let top := pages.foldl (fun n p => Nat.max n (p.row + 1)) 0
    let told := s.twin.handOverSets.find? (fun x => x.1 == k.seq)
    let top := match told with
      | some x => Nat.max top (x.2 + 1)
      | none => top
    let entry := s.twin.frontier.find? (fun e => e.seq == k.seq)
    let safe := (entry.map (·.safeRow)).getD 0
    { seq := k.seq, nextRow := top, limitRow := (entry.map (·.limitRow)).getD 0, headersLeft := [], closing := closing
      rows := ((List.range top).filter (fun r => decide (safe ≤ r))).map (fun r =>
        { row := r, since := s.now, sinceT := nowT s, next := rowSlots k, parityIssued := true, verified := false, settled := false }) })

/-- A bay read when it is connected: its state is the one recorded, or MEMBER where the map has blocks on it. -/
def surveyBay (s : State) (x : Nat × BaySurvey) : State :=
  let used := s.map.sets.any (fun k => (blocksOfSet k).any (fun m => m.bay == x.1))
  updBay s x.1 (fun b =>
    let y : Bay := readBay s x.2 { b with present := true }
    { y with st := if used && (b.st == .absent || b.st == .inserted) then .member else if b.st == .absent then .inserted else b.st, faultLow := x.2.faultLow })

/-- U0_b and the reserve share of a bay that this chip has not owned before (R267). -/
def settleReserve (s : State) (n : Nat) : State :=
  match bayOf s n, bayProfile s n with
  | some b, some f =>
    if b.u0 != 0 || !(b.st == .member || b.st == .evacuating) then s
    else updBay s n (fun x => { x with u0 := usableBlocks s f b + retiredOn s n, spareLeft := spareFull f b - Nat.min (spareFull f b) (retiredOn s n) })
  | _, _ => s

/-- The bays connected: those not yet read are, and every bay in use is matched to a profile (Table 16-6). -/
def connectBays (s : State) (surveys : List (Nat × BaySurvey)) : State :=
  settleSegments ((List.range 16).foldl settleReserve ((List.range 16).foldl startBay (surveys.foldl surveyBay s)))

/-- Ownership taken with the role ACTIVE; alone, with TWIN_SOLO, or with a STANDBY partner. -/
def takeOwnership (s : State) (alone : Bool) : State :=
  let t := if alone then setFlags s [(bTwinSolo, true)] else s
  setRole (updTwin t (fun x => { x with own := true, peerOwn := false, partnerRole := if alone then .fenced else .standby })) .active

/-- The medium's pages that others wrote are known from now on; sequence numbers resume above the highest found. -/
def learnPages (s : State) (pages : List PageRec) : State :=
  let high (kind : Nat) : Nat := (pages.filter (fun p => p.kind == kind)).foldl (fun n p => p.slots.foldl (fun n x => Nat.max n x.csn) n) 0
  let seqs := s.media.bays.foldl (fun n b => Nat.max n b.lastBlockSeq) (s.map.sets.foldl (fun n k => Nat.max n k.seq) 0)
  let t := updMedia s (fun m =>
    { m with pages := m.pages.filter (fun p => pages.all (fun q => q.addr != p.addr)) ++ pages, blockSeqHigh := Nat.max m.blockSeqHigh seqs
             sjSeq := Nat.max m.sjSeq (high 6 + 1) })
  updJrnl t (fun j => { j with nextCkpt := Nat.max j.nextCkpt (high 5 + 1), nextHoldup := Nat.max j.nextHoldup (high 9 + 1) })

/-- CSN assignment resumes after the highest block mirrored (R104, R394). -/
def resumeCsn (s : State) : State :=
  let t := s.twin
  let high := t.slots.foldl (fun n a => Nat.max n a.csn) (Nat.max t.csnBlock t.hbCsn)
  { s with
    csnNext := (high / 2 ^ 20 + 1) * 2 ^ 20, csnBlock := high, csnIssued := t.slots.foldl (fun n a => Nat.max n a.csn) t.hbCsn }

/-- The journal goes on above the highest JSEQ mirrored or told. -/
def resumeJseq (s : State) : State :=
  updJrnl s (fun j => { j with nextSeq := Nat.max j.nextSeq (s.twin.hbJseq + 1) })

/-! ## CQ scan, fates and postings (R393, R394) -/

/-- One entry of a host CQ ring taken as posted: it is the next of its queue, of the expected phase, and its CSN is an outstanding slot's. -/
def takePosted (s : State) (e : PostedRef) : State :=
  let slot := s.twin.slots.any (fun a => a.csn == e.csn && a.port == e.port && a.queue == e.queue)
  if e.queue == 0 then (if slot then updTwin s (fun t => { t with slots := t.slots.filter (fun a => a.csn != e.csn) }) else s) else
  match queueOf s e.port e.queue with
  | some k =>
    if slot && k.cqTail == e.cqIndex && k.phase == e.phase then
      let k' := { afterPost k (nonSuccess e.status) s.now with stopped := k.stopped || nonSuccess e.status, resumeIndex := k.sqHead }
      updTwin (updQueue s e.port e.queue (fun _ => k')) (fun t => { t with slots := t.slots.filter (fun a => a.csn != e.csn) })
    else s
  | none => s

/-- The submission entry of a mirrored slot as far as its completion needs it: opcode, tag and namespace. -/
def slotEntry (a : AdmSlot) : List Word := pack [(a.opcode, 0), (a.tag, 16), (a.ns, 24)] :: List.replicate 15 0

/-- A kept queue's command of the partner completed with REPLAYED set (R394). -/
def replayOne (s : State) (r : Port × CmdRec) : State :=
  match queueOf s r.1 r.2.queue with
  | none => s
  | some k =>
    let cid := freeCid s
    let a : AdmSlot :=
      { csn := r.2.csn, firstLba := 0, blockCount := 0, port := r.1, queue := r.2.queue, tag := r.2.tag, sqIndex := r.2.sqIndex, opcode := r.2.opcode, ns := 0
        performed := r.2.performed, blockStart := false, result0 := r.2.result0, result1 := r.2.result1, status := r.2.status }
    let c : Ctx := { fetchedCtx cid r.1 r.2.queue r.2.sqIndex (slotEntry a) s.now s.now with csn := r.2.csn, stage := .admitted, replayed := true }
    let t := { s with ctxs := s.ctxs ++ [c] }
    let t := if !r.2.performed then decide_ t cid { status := 0x6001, origin := 5 }
      else if r.2.status.toNat < 0x1000 then perform t cid r.2.result0 r.2.result1 r.2.status
      else updCtx (decide_ t cid { status := r.2.status, origin := 5 }) cid (fun c => { c with result0 := r.2.result0, result1 := r.2.result1 })
    match ctxOf t cid, queueOf t r.1 r.2.queue with
    | some c', some k' => post t c' (if r.2.performed then k else k')
    | _, _ => t

/-- The queue records of a port at a fail-over: its kept queues, and the partner's queue 0 as mirrored. -/
def failoverRecs (s : State) (p : Port) : List QueueRec :=
  let zero := (s.twin.queues.filter (fun x => x.1 == p && x.2.qid == 0)).map (fun x => { queueRec s p x.2 with resumeIndex := x.2.sqHead })
  zero ++ ((portOf s p).queues.filter (fun k => k.qid != 0)).map (queueRec s p)

/-- Fates of the outstanding slots, in CSN order: replays on kept queues, records of queue 0 in the RESUMPTION logs of kind 5 (R394). -/
def failoverFates (s : State) : State :=
  let log (t : State) (p : Port) : State := beginLog t p 5 t.csnNext s.twin.hbAet.toNat t.csnIssued (failoverRecs t p)
  let t := log (log s .a) .b
  let f := (slotsInOrder s.twin.slots).foldl decideFate (t, [], [])
  let t := (f.2.2.filter (fun r => r.2.queue != 0)).foldl replayOne f.1
  let mine (p : Port) := (f.2.2.filter (fun r => r.1 == p && r.2.queue == 0)).map (·.2)
  completeLog (completeLog t .a (mine .a) false) .b (mine .b) false

/-! ## Take-over (R391) -/

/-- A take-over counted (Table 16-8, Table 7-15). -/
def countTakeOver (s : State) : State :=
  updTwin s (fun t =>
    { t with takeOvers := satAdd 0xFFFF t.takeOvers 1, failovers := satAdd 0xFFFFFFFF t.failovers 1, foAet := s.cad.aet, lastFoAet := s.cad.aet })

/-- Maintenance begins on a chip that has just become ready: patrol cycles, horizon, FULL (R319, R318, R269). -/
def settleReady (s : State) : State :=
  let t := updMedia s (fun m => { m with readyAt := some s.now })
  let t := (profileNums t).foldl (fun t p => if (memberBays t p).isEmpty then t else startPatrol t p true) t
  settleFull (recomputeHorizon t)

/-- The STANDBY takes over (Table 16-6): fence, claim, bays, tag scan, CQ scans, fates and postings, open sets closed, NOT_READY clear. -/
def takeOver (s : State) (cqTaken : List PostedRef) (scan : List PageRec) (found : RestartFind) (surveys : List (Nat × BaySurvey)) : State :=
  let t := setFlags s [(bNotReady, true), (bTwinSolo, true)]
  let t := fence (raiseEvent t 8 2 (roleNum .active) 0)
  let t := countTakeOver (takeOwnership t true)
  let t := connectBays t surveys
  let t := settleTaken (resumeJseq (resumeCsn (learnPages t scan)))
  let t := updMedia t (fun m => { m with opens := openedSets t true })
  let t := sizeTier (updEng t (fun e => { e with dirPool := dirBlocksFor t, hostTier := [], dram := [], tc := [] }))
  let t := installMirror (updCad t (fun c => { c with debt := 0, firstWindow := true }))
  let t := failoverFates (cqTaken.foldl takePosted t)
  let t := resumeRebuild (failMissing (eraseReleased (closeAll t found)))
  let t := (profileNums t).foldl sealIfSpent (updKf (clearMirror t) (fun k => { k with restartStep := 0 }))
  settleReady (raiseEvent (setFlags t [(bNotReady, false)]) 8 3 (roleNum .active) 0)

/-! ## Claims after a restart, unclean take-over (R383, R401) -/

/-- BAY_STATE records applied to the positions that they name. -/
def applyBayRecs (s : State) (rs : List StagedRec) : State :=
  rs.foldl (fun t r => match r.body with
    | .bayState b _ new profile uid =>
      let st : BaySt := ([BaySt.absent, .inserted, .commissioning, .member, .spare, .evacuating, .failed, .released] : List BaySt).getD new .absent
      updBay t b (fun x => { x with st := st, profile := profile, uid := uid })
    | _ => t) s

/-- The newest checkpoint as it is told by another chip's root or mirrored state: the map now stands for all records up to a JSEQ. -/
def toldCkpt (s : State) (seq : Nat) (root : Madr) (jseq : Nat) : Ckpt where
  seq := seq
  clean := false
  aet := s.cad.aet
  cut := jseq
  replayFrom := jseq + 1
  csnReservedHigh := s.csnBlock
  csnLast := s.csnIssued
  blockSeqHigh := s.media.blockSeqHigh
  root := root
  capture := jseq
  pieces := []
  img := s.map

/-- The bays that the newest root lists, as they are seated. -/
def tableBays (s : State) (root : List Byte) : List Nat := (s.media.bays.filter (fun b => b.uid != 0 && (bayTable root).contains b.uid)).map (·.bay)

/-- The medium as another chip left it: its map, pages and open sets, hold-up records' slots where they count, sequence numbers above the
highest found; the next CSN block, or under R263 the second after the highest reserved. -/
def takeFound (s : State) (i : ImportResult) (withHoldup : Bool) : State :=
  let r := readMedium s (tableBays s i.root) i
  let t := forgetMedium s
  let t := settleTaken (learnPages { t with map := importMap r } i.pages)
  let t := applyBayRecs t r.records
  let first := (Nat.max r.csnHigh s.csnBlock / 2 ^ 20 + (if withHoldup then 1 else 2)) * 2 ^ 20
  let t := { t with csnNext := Nat.max t.csnNext first, csnBlock := Nat.max r.csnHigh s.csnBlock }
  let t := updMedia t (fun m => { m with opens := openedSets t true, blockSeqHigh := Nat.max m.blockSeqHigh r.blockSeqHigh, sjSeq := Nat.max m.sjSeq (i.sjHigh + 1) })
  let h : Holdup := { seq := t.jrnl.nextHoldup, complete := true, slots := i.slots, recs := [], accs := [], frontier := [], csnLast := r.csnLast }
  updJrnl t (fun j =>
    { j with
      newest := some { toldCkpt t r.ckptSeq r.root r.jseqHigh with clean := r.clean, cut := r.cut }
      nextSeq := Nat.max j.nextSeq (r.jseqHigh + 1), nextCkpt := Nat.max j.nextCkpt (r.ckptSeq + 1)
      holdups := if withHoldup && !i.slots.isEmpty then [h] else [] })

/-- The claimant's restart goes on with steps 2 to 8 (R383). -/
def claimStands (s : State) (found : Option ImportResult) (surveys : List (Nat × BaySurvey)) (withHoldup : Bool) : State :=
  let t := takeOwnership s true
  let t := match found with
    | some r => takeFound t r withHoldup
    | none => t
  (List.range 16).foldl settleReserve (startSteps (surveys.foldl surveyBay t))

/-- Seat 0 claims at once; seat 1 when OWN_PEER_N has stayed high for 1 s since its host cluster was released (R383). -/
def mayClaim (s : State) (peerHighFor : Nat) : Bool :=
  0 < peerHighFor && (!s.twin.seat || (1000000000 ≤ peerHighFor && s.twin.superFrom + 1000000000 ≤ s.now))

/-- The receiver of a HAND_OVER becomes ACTIVE without NOT_READY: bays connected, open sets continued after the rows told (R404). -/
def takeHandOver (s : State) (found : Option ImportResult) (surveys : List (Nat × BaySurvey)) : State :=
  let t := setFlags s [(bNotReady, false), (bTwinSolo, false)]
  let t := connectBays (takeOwnership t false) surveys
  let t := settleTaken (resumeJseq (resumeCsn (match found with | some r => learnPages t r.pages | none => t)))
  let t := updMedia t (fun m => { m with opens := openedSets t false })
  let t := sizeTier (updEng t (fun e => { e with dirPool := dirBlocksFor t, hostTier := [], dram := [], tc := [] }))
  let t := installMirror (updCad t (fun c => { c with firstWindow := true }))
  let t := resumeRebuild (updKf (clearMirror t) (fun k => { k with restartStep := 0 }))
  settleReady ((profileNums t).foldl sealIfSpent t)

/-- OWNERSHIP_CLAIM (R383, R404): a restarted chip claims; both claims at once leave seat 0 the owner. A STANDBY that has acknowledged
HAND_OVER claims when OWN_PEER_N is high. -/
def execOwnershipClaim (cyc : Nat) (peerHighFor : Nat) (peerAfter : Bool) (found : Option ImportResult) (surveys : List (Nat × BaySurvey))
    (s : State) : Host.Outcome State Fault Refusal :=
  let t := updTwin (twinTime s cyc) (fun x => { x with peerOwn := if x.en then peerHighFor == 0 else x.peerOwn })
  if !twinRuns t || t.twin.hold || t.twin.own || failedSet t || t.jrnl.stopFrom.isSome then settled t
  else if t.twin.role == .standby && t.twin.handOverIn && 0 < peerHighFor then settled (takeHandOver t found surveys)
  else if t.twin.role != .fenced || t.kf.restartStep != 1 || !mayClaim t peerHighFor then settled t
  else if peerAfter && t.twin.seat then settled (updTwin t (fun x => { x with peerOwn := true }))
  else settled (claimStands t found surveys true)

/-- UNCLEAN_TAKE_OVER (R401): the active is lost while this chip is SYNCING or FENCED: fence, claim, restart as after an unclean stop with no
hold-up record; the RESUMPTION logs carry no command records. -/
def execUncleanTakeOver (cyc : Nat) (found : ImportResult) (surveys : List (Nat × BaySurvey)) (s : State) : Host.Outcome State Fault Refusal :=
  let t := twinTime s cyc
  let role := t.twin.role == .syncing || t.twin.role == .fenced
  if !twinRuns t || !role || t.twin.hold || failedSet t || t.jrnl.stopFrom.isSome || t.kf.restartStep != 1 || !bothQuiet t 2002000000 then settled t
  else
    let t := setFlags t [(bNotReady, true), (bTwinSolo, true)]
    let t := updTwin t (fun x => { x with gapPins := true })
    let t := countTakeOver (clearMirror (fence (raiseEvent t 8 2 (roleNum .active) 0)))
    let t := claimStands t (some found) surveys false
    let log (t : State) (p : Port) : State := beginLog t p 5 t.csnNext t.twin.hbAet.toNat t.twin.hbCsn []
    settled (log (log t .a) .b)

/-- PARTNER_LOSS (R384, R391): both paths silent for 2 ms, or FAILING received: a STANDBY takes over; the ACTIVE fences a partner that it has
not yet recorded FENCED. -/
def execPartnerLoss (cyc : Nat) (cqTaken : List PostedRef) (scan : List PageRec) (found : RestartFind) (surveys : List (Nat × BaySurvey))
    (s : State) : Host.Outcome State Fault Refusal :=
  let t := twinTime s cyc
  let w := t.twin
  if !twinRuns t || t.jrnl.stopFrom.isSome then settled t
  else if w.role == .standby then
    if !w.hold && (bothQuiet t 2000000 || flag w.hbCond bFailed) then settled (takeOver t cqTaken scan found surveys) else settled t
  else if w.role == .active && w.partnerRole != .fenced && bothQuiet t 2000000 then settled (raiseEvent (fence (goAlone t)) 8 2 (roleNum .active) 0)
  else settled t

/-! ## Supervision commands (R384 to R386, R514) -/

/-- Levels of STATE, ACT_N and FAULT_N as a HEARTBEAT carries them. -/
def heartbeatOf (s : State) : Frame :=
  .heartbeat s.twin.role s.cond (BitVec.ofNat 4 (statePins s)) (actLow s) (faultLow s) (BitVec.ofNat 64 s.cad.aet) (lastCsn s) (s.jrnl.nextSeq - 1)

/-- HEARTBEAT_SEND (R384): TWIN_HB_OUT toggles and a HEARTBEAT frame goes out, while FAILED is clear. -/
def execHeartbeatSend (cyc : Nat) (s : State) : Host.Outcome State Fault Refusal :=
  let t := twinTime s cyc
  if !twinRuns t || failedSet t then .next t
  else
    let t := updTwin t (fun x => { x with hbOut := !x.hbOut })
    .next (if t.twin.lanes == 0 then t else sendFrame t (heartbeatOf t))

/-- TWIN_HB_IN_EDGE (R384). -/
def execTwinHbInEdge (cyc : Nat) (s : State) : Host.Outcome State Fault Refusal :=
  let t := twinTime s cyc
  if twinRuns t then .next (updTwin t (fun x => { x with hbEdge := some t.now })) else .next t

/-- STANDBY_LINK_FALLBACK (R384): no frame for 0.5 ms while the partner's heartbeat continues: FENCED, no take-over. -/
def execStandbyLinkFallback (cyc : Nat) (s : State) : Host.Outcome State Fault Refusal :=
  let t := twinTime s cyc
  if twinRuns t && linkAlone t then settled (fallBack t) else settled t

/-- ACK_TIMEOUT (R384): no ACK progress for 1 ms with ACK_REQ frames outstanding: the active goes on alone. -/
def execAckTimeout (cyc : Nat) (s : State) : Host.Outcome State Fault Refusal :=
  let t := twinTime s cyc
  if twinRuns t && t.twin.role == .active && t.twin.partnerRole != .fenced && !t.twin.unacked.isEmpty && decide (t.twin.ackAt + 1000000 ≤ t.now) then
    settled (raiseEvent (goAlone t) 8 2 (roleNum .active) 0)
  else settled t

/-- FENCE_RELEASE (R385): FENCE_N goes high after 1 ms; a FENCE_PARTNER is performed then (Table 16-7). -/
def execFenceRelease (cyc : Nat) (s : State) : Host.Outcome State Fault Refusal :=
  let t := twinTime s cyc
  match t.twin.fenceFrom with
  | none => .next t
  | some c =>
    if t.now < c + 1000000 then .next t
    else
      let t := updTwin t (fun x => { x with fenceFrom := none })
      let asked := t.ctxs.filter (fun c => c.queue == 0 && c.stage == .admitted && c.mapAsked && eOpcode c.dw == 0x94 && bits (eCdw c.dw 0) 2 0 == 3)
      .next (asked.foldl (fun t c => performState t c.cid 3 0 0) t)

/-- FRAME_RESEND (R386): every unacknowledged frame is sent again, in order, when no ACK has advanced for 5 us. -/
def execFrameResend (cyc : Nat) (s : State) : Host.Outcome State Fault Refusal :=
  let t := twinTime s cyc
  if twinRuns t && t.twin.lanes != 0 && decide (t.twin.ackAt + 5000 ≤ t.now) then .next (updTwin t (fun x => { x with sent := x.sent ++ x.unacked }))
  else .next t

/-- ZYNMI_LINK_TRAINED (R386, R514): frames are numbered from 1 and PAIR_HELLO is the first. A partner that was mirrored has fallen back. -/
def execZynmiLinkTrained (lanes : Nat) (s : State) : Host.Outcome State Fault Refusal :=
  if !twinRuns s || !(lanes == 1 || lanes == 2 || lanes == 4) then settled s
  else
    let t := if s.twin.role == .active && s.twin.partnerRole != .fenced then raiseEvent (goAlone s) 8 2 (roleNum .active) 0 else s
    let t := updTwin t (fun x => { x with lanes := lanes, txSeq := 1, rxSeq := 0, unacked := [], greeted := false, lastFrame := x.lastFrame })
    settled (sendFrame t (.pairHello (ownHello t)))

/-- ZYNMI_LINK_DOWN (R386, R387): the lanes lose training, no frame has been accepted for 1 ms, or a frame of a reserved type came. -/
def execZynmiLinkDown (cyc : Nat) (reservedType : Bool) (s : State) : Host.Outcome State Fault Refusal :=
  let t := twinTime s cyc
  if !twinRuns t then settled t
  else
    let t := updTwin t (fun x => { x with lanes := 0, greeted := false, pairing := if reservedType then none else x.pairing })
    settled (if linkAlone t then fallBack t else t)

/-! ## TWIN_CONTROL (R404, Table 16-7) -/

/-- A TWIN_CONTROL action that may be performed now, or is refused because its condition does not hold. -/
def twinAction (s : State) (cid action : Nat) (go : Ctx → State) : State :=
  match actionIn s cid 0x94 action with
  | none => s
  | some c => if !c.mapAsked && !actionAllowed s c.dw then refuseNow s cid 0x1002 0x30 else go c

/-- The command has begun and waits for its partner. -/
def askedTwin (s : State) (cid : Nat) : State := updCtx s cid (fun c => { c with mapAsked := true })

/-- TWIN_PAIR (R398): the key exchange begins; the command is performed when the partner enters SYNCING. -/
def execTwinPair (cid : Nat) (s : State) : Host.Outcome State Fault Refusal :=
  .next (twinAction s cid 0 (fun c => if c.mapAsked then s else sendPairKey (askedTwin s cid) none (some cid)))

/-- UNPAIR performed: the record is erased, the partner FENCED, TWIN_SOLO set (R399, Table 16-7). -/
def unpairNow (s : State) (cid : Nat) : State :=
  performState (goAlone (updTwin s (fun x => { x with pairRec := none }))) cid 3 0 0

/-- TWIN_UNPAIR (R399): the partner is told first, where there is a link; performed when both records are erased. -/
def execTwinUnpair (cid : Nat) (s : State) : Host.Outcome State Fault Refusal :=
  settled (twinAction s cid 1 (fun c =>
    if c.mapAsked then (if c.awaitAck.all (acked s) then unpairNow s cid else s)
    else if s.twin.lanes == 0 then unpairNow s cid
    else
      let fseq := s.twin.txSeq
      let t := sendFrame s (.state { csn := c.csn, status := 0, kind := 3, result0 := 0, result1 := 0, feature := none, queue := none, log := none, unpair := true })
      updCtx t cid (fun c => { c with mapAsked := true, awaitAck := some fseq })))

/-- Fetched entries that are not admitted are dropped on both ports; they are fetched again from their rings (R404 step 1). -/
def dropFetched (s : State) : State :=
  let back (p : Port) (t : State) : State :=
    updPort t p (fun x => { x with queues := x.queues.map (fun k => { k with sqHead := (((fetchedCtxs s p k.qid).head?).map (·.sqIndex)).getD k.sqHead }) })
  let t := back .b (back .a s)
  { t with ctxs := t.ctxs.filter (fun c => c.stage != .fetched) }

/-- Every row that has started has its parity, and no page of it is still to be programmed (R404 step 3). -/
def rowsFinished (s : State) : Bool :=
  s.media.opens.all (fun o => o.rows.all (fun r => r.settled || r.parityIssued)) && s.media.pages.all (fun p => p.st == .done || p.st == .failed)

/-- The HAND_OVER frame: the last started row of every open set (Table 16-5). -/
def handOverFrame (s : State) : Frame := .handOver ((s.media.opens.filter (fun o => 0 < o.nextRow)).map (fun o => (o.seq, o.nextRow - 1)))

/-- TWIN_HAND_OVER (R404): fetching stops, admitted commands end, open rows are padded, and when their parity has finished the frame is sent. -/
def execTwinHandOver (cid : Nat) (s : State) : Host.Outcome State Fault Refusal :=
  .next (twinAction s cid 2 (fun c =>
    if !c.mapAsked then dropFetched (askedTwin s cid)
    else if s.twin.handOver.isNone && s.twin.partnerRole != .standby then refuseNow s cid 0x1002 0x30
    else if s.twin.handOver.isSome || !s.ctxs.all (fun x => x.cid == cid) then s
    else
      let t := s.media.opens.foldl (fun t o => padOpenRow t o.seq) s
      if !rowsFinished t then t
      else
        let fseq := t.twin.txSeq
        updTwin (sendFrame t (handOverFrame t)) (fun x => { x with handOver := some (fseq, cid) })))

/-- TWIN_FENCE_PARTNER: FENCE_N low for 1 ms, TWIN_SOLO until the partner is STANDBY again (Table 16-7). -/
def execTwinFencePartner (cid : Nat) (cyc : Nat) (s : State) : Host.Outcome State Fault Refusal :=
  let s := twinTime s cyc
  settled (twinAction s cid 3 (fun c => if c.mapAsked then s else fence (goAlone (askedTwin s cid))))

/-- HAND_OVER acknowledged: its completion is posted, ownership and the bays are released, and the chip is the STANDBY of what it served
(R404 steps 4 and 5). -/
def handOverDone (s : State) (cid : Nat) : State :=
  let t := perform s cid 0 0
  let t := match ctxOf t cid with
    | some c => (match queueOf t c.port c.queue with
      | some k => post t c k
      | none => t)
    | none => t
  let kept (p : Port) : List (Port × Queue) := (portOf t p).queues.map (fun k => (p, { k with stopped := k.st != .active }))
  let queues := kept .a ++ kept .b
  let features := [5, 7, 8, 9].map (featureWords t .a) ++ [5, 7, 8, 9].map (featureWords t .b)
  let map := t.map
  let recs := t.jrnl.recs
  let newest := t.jrnl.newest
  let t := setFlags t [(bNotReady, true)]
  let t := updTwin (forgetMedium (clearMirror t)) (fun x =>
    { x with own := false, handOver := none, partnerRole := .active, queues := queues, features := features, frontier := s.media.sj
             csnBlock := s.csnBlock, hbCsn := s.csnIssued, hbJseq := s.jrnl.nextSeq - 1 })
  let t := updJrnl { t with map := map } (fun j => { j with recs := recs.map (fun r => { r with durable := true }), newest := newest })
  let t := updKf t (fun k => { k with restartStep := 1 })
  let only (x : PortSt) : PortSt := { x with queues := x.queues.filter (fun k => k.qid == 0) }
  setRole (updPort (updPort t .a only) .b only) .standby

end Sys2Proof.Machine
end

