-- ==== Sys2Proof/Machine/TwinFrames.lean ====
section
/-! DEFINITION. The Zynmi frames as a chip receives them (R386 to R389, R397 to R404): one meaning for each frame type of Table 16-5. -/
namespace Sys2Proof.Machine
open Sys2Proof

/-! ## Acceptance (R386) -/

/-- A frame accepted: its CRC passes and its FSEQ is one above the last accepted; every other frame is discarded. -/
def accepts (s : State) (h : FrameHead) : Bool := twinRuns s && s.twin.lanes != 0 && h.crcOk && h.fseq == s.twin.rxSeq + 1

/-- What a frame does when it is accepted, with the ACK that an ACK_REQ frame asks for. -/
def receive (s : State) (h : FrameHead) (cyc : Nat) (wantsAck : Bool) (f : State → State) : State :=
  let t := twinTime s cyc
  if !accepts t h then t
  else
    let t := f (updTwin t (fun x => { x with rxSeq := h.fseq, lastFrame := some t.now }))
    if wantsAck then sendFrame t (.ack h.fseq) else t

/-- The chip holds a copy of the active's state: STANDBY, or SYNCING (R389, R400). -/
def holdsCopy (s : State) : Bool := s.twin.role == .standby || s.twin.role == .syncing

/-! ## HEARTBEAT and FAILING -/

/-- The active learns its partner's role: a partner that has become SYNCING is synchronised, and the PAIR that led to it performed; one that
has become FENCED is mirrored no more (R397, R398, R404). -/
def heardByActive (s : State) (role : Role) : State :=
  let w := s.twin
  if role == .syncing && w.partnerRole == .fenced && !w.hold && recordNames s then
    let t := startSync (updTwin s (fun x => { x with pairing := none }))
    match w.pairing.bind (·.2.2) with
    | some cid => performState t cid 3 0 0
    | none => t
  else if role == .fenced && w.partnerRole != .fenced then goAlone s
  else s

/-- FRAME_HEARTBEAT (R381, R384, R390): the partner's role, condition and status outputs. -/
def execFrameHeartbeat (h : FrameHead) (role : Role) (cond : Half) (pins : BitVec 6) (aet : Dword) (csnLast jseq : Nat) (cyc : Nat) (s : State) :
    Host.Outcome State Fault Refusal :=
  settled (receive s h cyc false (fun t =>
    let t := updTwin t (fun x =>
      { x with hbCond := cond, hbPins := pins, hbAet := aet, hbCsn := csnLast, hbJseq := jseq, peerOwn := role == .active })
    if t.twin.role == .active then heardByActive t role else settlePairing (updTwin t (fun x => { x with partnerRole := role }))))

/-- FRAME_FAILING (R403): the condition is kept; a STANDBY's PARTNER_LOSS follows; the active goes on alone (Table 16-3). -/
def execFrameFailing (h : FrameHead) (cond : Half) (cyc : Nat) (s : State) : Host.Outcome State Fault Refusal :=
  settled (receive s h cyc false (fun t =>
    let t := updTwin t (fun x => { x with hbCond := cond })
    if t.twin.role == .active && t.twin.partnerRole != .fenced then raiseEvent (goAlone t) 8 2 (roleNum .active) 0 else t))

/-! ## ACK (R386, R388) -/

/-- JSEQs of the JOURNAL frames among those acknowledged. -/
def ackedJseqs (fs : List SentFrame) : List Nat :=
  fs.flatMap (fun f => match f.frame with
    | .journal rs => rs.map (·.jseq)
    | _ => [])

/-- The acknowledgement of SYNC_END: the partner is STANDBY and TWIN_SOLO clears (R400). -/
def settleSyncEnd (s : State) (n : Nat) : State :=
  match s.twin.syncEnd with
  | some f =>
    if f ≤ n then setFlags (updTwin s (fun t => { t with syncEnd := none, partnerRole := .standby })) [(bTwinSolo, false)] else s
  | none => s

/-- The acknowledgement of HAND_OVER (R404). -/
def settleHandOver (s : State) (n : Nat) : State :=
  match s.twin.handOver with
  | some (f, cid) => if f ≤ n then handOverDone s cid else s
  | none => s

/-- FRAME_ACK (R386): every frame up to the FSEQ named is acknowledged. -/
def execFrameAck (crcOk : Bool) (fseq : Nat) (cyc : Nat) (s : State) : Host.Outcome State Fault Refusal :=
  let t := twinTime s cyc
  if !twinRuns t || t.twin.lanes == 0 || !crcOk then settled t
  else
    let gone := t.twin.unacked.filter (fun f => decide (f.fseq ≤ fseq))
    let js := ackedJseqs gone
    let t := updTwin t (fun x =>
      { x with
        lastFrame := some t.now, ackAt := if gone.isEmpty then x.ackAt else t.now
        unacked := x.unacked.filter (fun f => decide (fseq < f.fseq)) })
    let t := markDurable t (fun j => js.contains j)
    if t.twin.role != .active then settled t else settled (settleHandOver (settleStand (settleSyncEnd t fseq)) fseq)

/-! ## Mirrored admissions, records, effects (R389) -/

/-- A mirrored queue changed. -/
def updMirrorQueue (s : State) (p : Port) (q : Nat) (f : Queue → Queue) : State :=
  updTwin s (fun t => { t with queues := t.queues.map (fun x => if x.1 == p && x.2.qid == q then (x.1, f x.2) else x) })

/-- A mirrored queue put in place of an older one; one that is DISABLED is dropped. -/
def putMirrorQueue (s : State) (i : QueueImage) : State :=
  updTwin s (fun t =>
    { t with queues := t.queues.filter (fun x => !(x.1 == i.port && x.2.qid == i.qid)) ++ (if i.st == 0 then [] else [(i.port, queueOfImage i)]) })

/-- One admission slot mirrored: the queue's first index not admitted moves past it. -/
def mirrorSlot (s : State) (a : AdmSlot) : State :=
  let t := updTwin s (fun t => { t with slots := t.slots.filter (fun b => b.csn != a.csn) ++ [a], hbCsn := Nat.max t.hbCsn a.csn })
  updMirrorQueue t a.port a.queue (fun k => { k with sqHead := ringNext k.sqEntries a.sqIndex, resumeIndex := ringNext k.sqEntries a.sqIndex })

/-- FRAME_ADMIT (R388). -/
def execFrameAdmit (h : FrameHead) (slots : List AdmSlot) (cyc : Nat) (s : State) : Host.Outcome State Fault Refusal :=
  .next (receive s h cyc true (fun t => if holdsCopy t then slots.foldl mirrorSlot t else t))

/-- A mirrored slot's command is performed. -/
def markPerformed (s : State) (csn : Nat) (status : Half) (r0 r1 : Word) : State :=
  updTwin s (fun t => { t with slots := t.slots.map (fun a => if a.csn == csn then { a with performed := true, status := status, result0 := r0, result1 := r1 } else a) })

/-- CSN of the host command that a record performs: a MAP or DEALLOCATE of a host update, a namespace record. -/
def recordCsn : JRec → Option Nat
  | .map csn _ _ _ => if csn == 0 then none else some csn
  | .dealloc csn _ _ _ => some csn
  | .nspace csn _ _ _ _ _ _ => some csn
  | _ => none

/-- What a record tells beside the map: reserved CSNs, block sequence numbers, bay states, checkpoints. -/
def learnRecord (s : State) (r : StagedRec) : State :=
  match r.body with
  | .csnReserve first => updTwin s (fun t => { t with csnBlock := Nat.max t.csnBlock first })
  | .setOpen seq .. => updMedia s (fun m => { m with blockSeqHigh := Nat.max m.blockSeqHigh seq })
  | .bayState .. => applyBayRecs s [r]
  | .checkpoint seq root =>
    let at_ := root.getD ⟨0, 0, 0, 0, 0, 0, 0⟩
    updJrnl s (fun j => { j with newest := some (toldCkpt s seq at_ r.jseq), nextCkpt := Nat.max j.nextCkpt (seq + 1) })
  | _ => s

/-- One journal record received: kept, applied to the copy unless a piece already holds it, and its command performed (R389, R394, R400). -/
def mirrorRecord (s : State) (r : StagedRec) : State :=
  let t := updJrnl s (fun j => { j with recs := j.recs.filter (fun x => x.jseq != r.jseq) ++ [{ r with durable := true }], nextSeq := Nat.max j.nextSeq (r.jseq + 1) })
  let t := if s.twin.capture < r.jseq then updMap t (fun i => applyRec i r.jseq r.body) else t
  let t := learnRecord t r
  match recordCsn r.body with
  | some csn =>
    let a := t.twin.slots.find? (fun a => a.csn == csn)
    markPerformed t csn 0 ((a.map (·.result0)).getD 0) ((a.map (·.result1)).getD 0)
  | none => t

/-- FRAME_JOURNAL (R388, R389). -/
def execFrameJournal (h : FrameHead) (recs : List StagedRec) (cyc : Nat) (s : State) : Host.Outcome State Fault Refusal :=
  .next (receive s h cyc true (fun t => if holdsCopy t then recs.foldl mirrorRecord t else t))

/-! ## Features, queues, logs (R406) -/

/-- A device-wide feature in force on the partner too (R406); plan and AET set take effect at the tick that both chips use. -/
def applyDeviceFeature (s : State) (f : Nat) (w : Nat → Nat) : State :=
  match f with
  | 0x01 => applyTimers s (w 0) (w 1)
  | 0x02 => updCad s (fun x => { x with pendingPlan := some (planOf (w 0) (w 1) (w 2)) })
  | 0x03 => applyPatrolCycle s (w 0)
  | 0x04 => { s with feat := { s.feat with throttlePoint := bits (w 0) 7 0, throttleHyst := bits (w 0) 15 8 } }
  | 0x0A => applyJournalInterval s (w 0)
  | 0x0B => { s with feat := { s.feat with rebuildShare := w 0 } }
  | 0x0C => { s with feat := { s.feat with horizonMin := w 0 } }
  | 0x0D => submitSet s { value := w 0 + 2 ^ 32 * w 1, force := bits (w 2) 0 0 == 1, cid := none }
  | _ => s

/-- A feature told by the active: saved or cleared by MODE, in force device-wide at once, kept for its port until a take-over (R396, R406). -/
def mirrorFeature (s : State) (x : Nat × List Word) : State :=
  let f := x.1 % 256
  let scope := x.1 / 256
  let mode := (x.2.getD 3 0).toNat
  let w (n : Nat) : Nat := (x.2.getD n 0).toNat
  let t := if mode == 1 then updKf s (fun k => { k with saved := putSaved k.saved scope f (some (x.2.take 3)) })
    else if mode == 2 then updKf s (fun k => { k with saved := putSaved k.saved scope f none }) else s
  if mode == 2 then t
  else if scope == 0 then applyDeviceFeature t f w
  else if f == 6 then
    updMirrorQueue t (if scope == 2 then .b else .a) (bits (w 0) 13 0) (fun k => { k with coalCount := bits (w 1) 7 0, coalTime := bits (w 1) 23 8 })
  else updTwin t (fun y => { y with features := y.features.filter (fun z => z.1 != x.1) ++ [x] })

/-- A RESUMPTION log cleared by its ACK on the active (R402). -/
def clearLog (s : State) (p : Port) : State :=
  updPort s p (fun x => { x with resumptionPending := false, res := { x.res with queues := [], cmds := [], interruptions := 0, unclean := false } })

/-- The active's UNPAIR: the pair record is erased, and a copy is kept up no more (R399, Table 16-2). -/
def unpaired (s : State) : State :=
  let t := updTwin s (fun x => { x with pairRec := none, greeted := false })
  if holdsCopy t then setRole (clearMirror t) .fenced else t

/-- A STATE frame's effect: the changed state, and the slot's status and results; KIND 5 tells results alone (Table 16-5, R388). -/
def mirrorState (s : State) (r : StateRef) : State :=
  let t := match r.feature with
    | some x => mirrorFeature s x
    | none => s
  let t := match r.queue with
    | some i => putMirrorQueue t i
    | none => t
  let t := match r.log with
    | some p => clearLog t p
    | none => t
  if r.kind == 5 then
    updTwin t (fun x => { x with slots := x.slots.map (fun a => if a.csn == r.csn then { a with result0 := r.result0, result1 := r.result1 } else a) })
  else markPerformed t r.csn r.status r.result0 r.result1

/-- FRAME_STATE (R388, R399, R402, R406). -/
def execFrameState (h : FrameHead) (r : StateRef) (cyc : Nat) (s : State) : Host.Outcome State Fault Refusal :=
  settled (receive s h cyc true (fun t => if r.unpair then unpaired t else if holdsCopy t then mirrorState t r else t))

/-! ## COMPLETE, DOORBELL, FRONTIER, STOP -/

/-- A completion posted by the active: its slot is free, its CQ moves on, and a non-success status freezes the queue (R390, R393). -/
def mirrorPosted (s : State) (e : PostedRef) : State :=
  let t := updTwin s (fun x => { x with slots := x.slots.filter (fun a => a.csn != e.csn || e.csn == 0) })
  updMirrorQueue t e.port e.queue (fun k =>
    let nxt := ringNext k.cqEntries e.cqIndex
    let bad := nonSuccess e.status
    { k with cqTail := nxt, phase := if nxt == 0 then !e.phase else e.phase, st := if bad then .frozen else k.st, stopped := k.stopped || bad
             freezeCq := if bad && !k.stopped then some e.cqIndex else k.freezeCq })

/-- FRAME_COMPLETE. -/
def execFrameComplete (h : FrameHead) (ps : List PostedRef) (cyc : Nat) (s : State) : Host.Outcome State Fault Refusal :=
  .next (receive s h cyc false (fun t => if holdsCopy t then ps.foldl mirrorPosted t else t))

/-- A doorbell value of the active: of two tails the one that leaves more entries submitted stands (R395). -/
def mirrorBell (s : State) (d : DoorbellRef) : State :=
  updMirrorQueue s d.port d.queue (fun k =>
    if d.isCqHead then { k with cqHead := d.value }
    else if k.sqEntries != 0 && sqWaiting k < (d.value + k.sqEntries - k.sqHead) % k.sqEntries then { k with sqTail := d.value }
    else k)

/-- FRAME_DOORBELL. -/
def execFrameDoorbell (h : FrameHead) (ds : List DoorbellRef) (cyc : Nat) (s : State) : Host.Outcome State Fault Refusal :=
  .next (receive s h cyc false (fun t => if holdsCopy t then ds.foldl mirrorBell t else t))

/-- FRAME_FRONTIER (R388, R389). -/
def execFrameFrontier (h : FrameHead) (es : List SjEntry) (cyc : Nat) (s : State) : Host.Outcome State Fault Refusal :=
  .next (receive s h cyc true (fun t => if holdsCopy t then updTwin t (fun x => { x with frontier := es }) else t))

/-- FRAME_STOP (R402): a STANDBY programs the owner's stop record into its own keeper flash. -/
def execFrameStop (h : FrameHead) (r : StopRec) (cyc : Nat) (s : State) : Host.Outcome State Fault Refusal :=
  .next (receive s h cyc true (fun t =>
    if t.twin.role != .standby then t
    else keepStop (updTwin t (fun x => { x with peerStop := some r })) r))

/-! ## HAND_OVER, SYNC_PIECE, SYNC_END -/

/-- FRAME_HAND_OVER (R404): acknowledged; the claim follows when OWN_PEER_N is high. -/
def execFrameHandOver (h : FrameHead) (sets : List (Nat × Nat)) (cyc : Nat) (s : State) : Host.Outcome State Fault Refusal :=
  .next (receive s h cyc true (fun t => if t.twin.role == .standby then updTwin t (fun x => { x with handOverIn := true, handOverSets := sets }) else t))

/-- A piece's content put in place (Table 16-5). The directory root repeats what the directory blocks say. -/
def applyPiece (s : State) (p : SyncPiece) : State :=
  match p with
  | .slots ss => updTwin s (fun x => { x with slots := ss, hbCsn := ss.foldl (fun n a => Nat.max n a.csn) x.hbCsn })
  | .queues qs => qs.foldl putMirrorQueue (updTwin s (fun x => { x with queues := [] }))
  | .features fs => fs.foldl mirrorFeature s
  | .namespaces nss => updMap s (fun i => { i with nss := nss })
  | .log p l => updPort s p (fun x => { x with res := l })
  | .directory segs => updMap s (fun i => { i with segs := segs })
  | .blockTable blocks => updMap s (fun i => { i with blocks := blocks })
  | .directoryRoot => s
  | .lostLbas es => updMap s (fun i => { i with lost := es })
  | .sets ss => updMap s (fun i => { i with sets := ss })

/-- FRAME_SYNC_PIECE (R400). -/
def execFrameSyncPiece (h : FrameHead) (piece : SyncPiece) (capture : Nat) (cyc : Nat) (s : State) : Host.Outcome State Fault Refusal :=
  .next (receive s h cyc true (fun t =>
    if t.twin.role == .syncing then updTwin (applyPiece t piece) (fun x => { x with capture := Nat.max x.capture capture }) else t))

/-- The copy is complete: it stands for every record received. -/
def completeCopy (s : State) (csnLast : Nat) : State :=
  let t := updTwin s (fun x => { x with hbCsn := Nat.max x.hbCsn csnLast, syncDone := 10000 })
  let k := toldCkpt t (t.jrnl.nextCkpt - 1) ⟨0, 0, 0, 0, 0, 0, 0⟩ (t.jrnl.nextSeq - 1)
  updJrnl t (fun j => { j with newest := some k })

/-- FRAME_SYNC_END (R400): the partner becomes STANDBY with its acknowledgement. -/
def execFrameSyncEnd (h : FrameHead) (csnLast : Nat) (cyc : Nat) (s : State) : Host.Outcome State Fault Refusal :=
  settled (receive s h cyc true (fun t => if t.twin.role == .syncing then setRole (completeCopy t csnLast) .standby else t))

/-! ## PAIR_HELLO, PAIR_KEY, PAIR_CONFIRM (R397, R398) -/

/-- FRAME_PAIR_HELLO (R397): pairing refused with an event and its reason recorded; otherwise a FENCED partner named by both pair records
begins SYNCING. -/
def execFramePairHello (h : FrameHead) (hello : PairHello) (cyc : Nat) (s : State) : Host.Outcome State Fault Refusal :=
  settled (receive s h cyc true (fun t =>
    let reason := pairRefusal t hello
    let t := updTwin t (fun x => { x with peer := some hello, pairReject := reason, greeted := reason == 0 })
    if reason != 0 then raiseEvent t 8 4 (roleNum t.twin.role) reason else settlePairing (if t.twin.peerOwn then updTwin t (fun x => { x with partnerRole := .active }) else t)))

/-- A pairing that both chips have confirmed: the pair record is written, and a FENCED partner begins SYNCING. -/
def pairingDone (s : State) (n : Nat) (point : List Byte) (h : PairHello) : State :=
  let t := updTwin s (fun x => { x with pairRec := some (h.serial, Config.pairWrapKey n point (pairInfo s)) })
  if t.twin.role == .active then t else beginSyncing (updTwin t (fun x => { x with pairing := none }))

/-- FRAME_PAIR_KEY (R398): the active answers with its confirmation; its FENCED partner with its own key and confirmation. -/
def execFramePairKey (h : FrameHead) (point : List Byte) (cyc : Nat) (s : State) : Host.Outcome State Fault Refusal :=
  .next (receive s h cyc true (fun t =>
    let w := t.twin
    if w.hold || w.peer.isNone || w.pairReject != 0 then t
    else
      match w.role, w.pairing with
      | .active, some (n, _, cid) =>
        sendFrame (updTwin t (fun x => { x with pairing := some (n, some point, cid) })) (.pairConfirm (Config.pairConfirm n point (transcript t n point)))
      | .fenced, _ =>
        let n := w.keysDrawn
        let t := sendPairKey t (some point) none
        sendFrame t (.pairConfirm (Config.pairConfirm n point (transcript t n point)))
      | _, _ => t))

/-- FRAME_PAIR_CONFIRM (R398): where the confirmations agree the pair record is written; where they do not, PAIR is refused. -/
def execFramePairConfirm (h : FrameHead) (bytes : List Byte) (cyc : Nat) (s : State) : Host.Outcome State Fault Refusal :=
  settled (receive s h cyc true (fun t =>
    match t.twin.pairing, t.twin.peer with
    | some (n, some point, cid), some hello =>
      if bytes == Config.pairConfirm n point (transcript t n point) then pairingDone t n point hello
      else refuseWaiting (updTwin t (fun x => { x with pairing := none })) cid
    | _, _ => t))

end Sys2Proof.Machine
end

