-- ==== Sys2Proof/Machine/Dispatch.lean ====
section
/-! DEFINITION. One arm per command: a call of its meaning, or a refusal by name while it has none. -/
namespace Sys2Proof.Machine
open Sys2Proof

def exec (i : Instr) (s : State) : Host.Outcome State Fault Refusal :=
  match i with
  | .cadTickEdge cyc heldHigh => Sys2Proof.Machine.execCadTickEdge cyc heldHigh s
  | .flywheelTick => Sys2Proof.Machine.execFlywheelTick s
  | .cadenceLostSet => Sys2Proof.Machine.execCadenceLostSet s
  | .lockTimeout cyc => Sys2Proof.Machine.execLockTimeout cyc s
  | .internalTick => Sys2Proof.Machine.execInternalTick s
  | .aetSetApply value => Sys2Proof.Machine.execAetSetApply value s
  | .cadControlSourceWrite cyc value => Sys2Proof.Machine.execCadControlSourceWrite cyc value s
  | .cadTpsWrite value => Sys2Proof.Machine.execCadTpsWrite value s
  | .aetLoRead => Sys2Proof.Machine.execAetLoRead s
  | .windowStart => Sys2Proof.Machine.execWindowStart s
  | .maintenanceDraw kind die seqNo => Sys2Proof.Machine.execMaintenanceDraw kind die seqNo s
  | .journalFlush => Sys2Proof.Machine.execJournalFlush s
  | .checkpointStart trigger => Sys2Proof.Machine.execCheckpointStart trigger s
  | .checkpointRootWrite => Sys2Proof.Machine.execCheckpointRootWrite s
  | .configRequest port => Sys2Proof.Machine.execConfigRequest port s
  | .portEnable port value => Sys2Proof.Machine.execPortEnable port value s
  | .portDisable port value => Sys2Proof.Machine.execPortDisable port value s
  | .portShutdown port value => Sys2Proof.Machine.execPortShutdown port value s
  | .portShutdownDone port => Sys2Proof.Machine.execPortShutdownDone port s
  | .portDrainDone port => Sys2Proof.Machine.execPortDrainDone port s
  | .functionLevelReset port => Sys2Proof.Machine.execFunctionLevelReset port s
  | .perstAssert port => Sys2Proof.Machine.execPerstAssert port s
  | .perstDeassert port => Sys2Proof.Machine.execPerstDeassert port s
  | .surpriseDown port => Sys2Proof.Machine.execSurpriseDown port s
  | .sqTailDoorbell port queue value wellSized cyc => Sys2Proof.Machine.execSqTailDoorbell port queue value wellSized cyc s
  | .cqHeadDoorbell port queue value wellSized cyc => Sys2Proof.Machine.execCqHeadDoorbell port queue value wellSized cyc s
  | .submissionFetch port entries cyc => Sys2Proof.Machine.execSubmissionFetch port entries cyc s
  | .entryFetchFault port kind cyc => Sys2Proof.Machine.execEntryFetchFault port kind cyc s
  | .admission port queue list late cyc => Sys2Proof.Machine.execAdmission port queue list late cyc s
  | .completionPost cid cyc => Sys2Proof.Machine.execCompletionPost cid cyc s
  | .queueRestartDone port queue => Sys2Proof.Machine.execQueueRestartDone port queue s
  | .coalesceTimerExpiry port queue cyc => Sys2Proof.Machine.execCoalesceTimerExpiry port queue cyc s
  | .msixUnmask port vector => Sys2Proof.Machine.execMsixUnmask port vector s
  | .eventCtrlWrite port value => Sys2Proof.Machine.execEventCtrlWrite port value s
  | .csnIssuedLoRead port => Sys2Proof.Machine.execCsnIssuedLoRead port s
  | .rcRegisterRead req reg bytes => Sys2Proof.Machine.execRcRegisterRead req reg bytes s
  | .registerWrite req reg value bytes => Sys2Proof.Machine.execRegisterWrite req reg value bytes s
  | .createQueue cid => Sys2Proof.Machine.execCreateQueue cid s
  | .deleteQueue cid => Sys2Proof.Machine.execDeleteQueue cid s
  | .restartQueue cid => Sys2Proof.Machine.execRestartQueue cid s
  | .ackResumption cid => Sys2Proof.Machine.execAckResumption cid s
  | .identify cid list => Sys2Proof.Machine.execIdentify cid list s
  | .getLog cid list => Sys2Proof.Machine.execGetLog cid list s
  | .getFeature cid => Sys2Proof.Machine.execGetFeature cid s
  | .setPowerTimers cid => Sys2Proof.Machine.execSetPowerTimers cid s
  | .setCadencePlan cid => Sys2Proof.Machine.execSetCadencePlan cid s
  | .setPatrolCycle cid => Sys2Proof.Machine.execSetPatrolCycle cid s
  | .setThermalLimits cid => Sys2Proof.Machine.execSetThermalLimits cid s
  | .setHostMapRegion cid chunks => Sys2Proof.Machine.execSetHostMapRegion cid chunks s
  | .setInterruptCoalescing cid => Sys2Proof.Machine.execSetInterruptCoalescing cid s
  | .setArbitration cid => Sys2Proof.Machine.execSetArbitration cid s
  | .setOnionShelf cid => Sys2Proof.Machine.execSetOnionShelf cid s
  | .setEventMask cid => Sys2Proof.Machine.execSetEventMask cid s
  | .setJournalInterval cid => Sys2Proof.Machine.execSetJournalInterval cid s
  | .setRebuildShare cid => Sys2Proof.Machine.execSetRebuildShare cid s
  | .setHorizonMinimum cid => Sys2Proof.Machine.execSetHorizonMinimum cid s
  | .setArchiveTime cid => Sys2Proof.Machine.execSetArchiveTime cid s
  | .setUserCalibration cid => Sys2Proof.Machine.execSetUserCalibration cid s
  | .fwDownload cid data => Sys2Proof.Machine.execFwDownload cid data s
  | .fwCommit cid => Sys2Proof.Machine.execFwCommit cid s
  | .fwConfirm cid => Sys2Proof.Machine.execFwConfirm cid s
  | .fwRevert cid => Sys2Proof.Machine.execFwRevert cid s
  | .namespaceCreate cid => Sys2Proof.Machine.execNamespaceCreate cid s
  | .namespaceDelete cid => Sys2Proof.Machine.execNamespaceDelete cid s
  | .bayCommissionMember cid => Sys2Proof.Machine.execBayCommissionMember cid s
  | .bayCommissionSpare cid => Sys2Proof.Machine.execBayCommissionSpare cid s
  | .bayEvacuate cid => Sys2Proof.Machine.execBayEvacuate cid s
  | .bayCancelEvacuate cid => Sys2Proof.Machine.execBayCancelEvacuate cid s
  | .bayRelease cid => Sys2Proof.Machine.execBayRelease cid s
  | .bayImport cid survey => Sys2Proof.Machine.execBayImport cid survey s
  | .rebuildStop cid => Sys2Proof.Machine.execRebuildStop cid s
  | .rebuildStart cid => Sys2Proof.Machine.execRebuildStart cid s
  | .moverQuery cid => Sys2Proof.Machine.execMoverQuery cid s
  | .moverResume cid => Sys2Proof.Machine.execMoverResume cid s
  | .moverResetChannel cid => Sys2Proof.Machine.execMoverResetChannel cid s
  | .patrolPause cid => Sys2Proof.Machine.execPatrolPause cid s
  | .patrolResume cid => Sys2Proof.Machine.execPatrolResume cid s
  | .patrolRestartCycle cid => Sys2Proof.Machine.execPatrolRestartCycle cid s
  | .patrolPauseExpiry cyc => Sys2Proof.Machine.execPatrolPauseExpiry cyc s
  | .twinPair cid => Sys2Proof.Machine.execTwinPair cid s
  | .twinUnpair cid => Sys2Proof.Machine.execTwinUnpair cid s
  | .twinHandOver cid => Sys2Proof.Machine.execTwinHandOver cid s
  | .twinFencePartner cid cyc => Sys2Proof.Machine.execTwinFencePartner cid cyc s
  | .write cid data => Sys2Proof.Machine.execWrite cid data s
  | .read cid list => Sys2Proof.Machine.execRead cid list s
  | .verify cid => Sys2Proof.Machine.execVerify cid s
  | .compare cid data => Sys2Proof.Machine.execCompare cid data s
  | .deallocate cid => Sys2Proof.Machine.execDeallocate cid s
  | .fill cid => Sys2Proof.Machine.execFill cid s
  | .copy cid => Sys2Proof.Machine.execCopy cid s
  | .digestOpen cid key => Sys2Proof.Machine.execDigestOpen cid key s
  | .digestFeedHost cid data => Sys2Proof.Machine.execDigestFeedHost cid data s
  | .digestFeedMedium cid => Sys2Proof.Machine.execDigestFeedMedium cid s
  | .digestFinal cid tail expected => Sys2Proof.Machine.execDigestFinal cid tail expected s
  | .digestSave cid list => Sys2Proof.Machine.execDigestSave cid list s
  | .digestLoad cid onion => Sys2Proof.Machine.execDigestLoad cid onion s
  | .digestClose cid => Sys2Proof.Machine.execDigestClose cid s
  | .contextSlotWaitEnd cid frame => Sys2Proof.Machine.execContextSlotWaitEnd cid frame s
  | .digestChunkDispatch => Sys2Proof.Machine.execDigestChunkDispatch s
  | .digestChunkDone pipe => Sys2Proof.Machine.execDigestChunkDone pipe s
  | .writeHeld cid cyc => Sys2Proof.Machine.execWriteHeld cid cyc s
  | .pageProgramTimeout page cyc => Sys2Proof.Machine.execPageProgramTimeout page cyc s
  | .rowPadTimeout seq row => Sys2Proof.Machine.execRowPadTimeout seq row s
  | .setOpen stream => Sys2Proof.Machine.execSetOpen stream s
  | .sequenceEnd die waits statuses busyMicros raw => Sys2Proof.Machine.execSequenceEnd die waits statuses busyMicros raw s
  | .readSuspend die cyc => Sys2Proof.Machine.execReadSuspend die cyc s
  | .verifyReadDone seq row reads => Sys2Proof.Machine.execVerifyReadDone seq row reads s
  | .writeCommit cid => Sys2Proof.Machine.execWriteCommit cid s
  | .mapUpdate => Sys2Proof.Machine.execMapUpdate s
  | .mapLookup reader image => Sys2Proof.Machine.execMapLookup reader image s
  | .tileWriteback ns seg => Sys2Proof.Machine.execTileWriteback ns seg s
  | .mediumReadIssue page cyc => Sys2Proof.Machine.execMediumReadIssue page cyc s
  | .decodeDone page slots erasures => Sys2Proof.Machine.execDecodeDone page slots erasures s
  | .thermalClockMinute samples => Sys2Proof.Machine.execThermalClockMinute samples s
  | .hourlyModelUpdate => Sys2Proof.Machine.execHourlyModelUpdate s
  | .aetWaitTimeout cyc => Sys2Proof.Machine.execAetWaitTimeout cyc s
  | .patrolCycleStart profile => Sys2Proof.Machine.execPatrolCycleStart profile s
  | .reclaimStart profile => Sys2Proof.Machine.execReclaimStart profile s
  | .reserveReclaimStart profile => Sys2Proof.Machine.execReserveReclaimStart profile s
  | .refreshClaim => Sys2Proof.Machine.execRefreshClaim s
  | .blockClaimRequest agent seq => Sys2Proof.Machine.execBlockClaimRequest agent seq s
  | .preemptHandoff seq => Sys2Proof.Machine.execPreemptHandoff seq s
  | .blockRelease seq => Sys2Proof.Machine.execBlockRelease seq s
  | .blockErase block => Sys2Proof.Machine.execBlockErase block s
  | .stripeJournalRecord => Sys2Proof.Machine.execStripeJournalRecord s
  | .descriptorRewrite bay readBack => Sys2Proof.Machine.execDescriptorRewrite bay readBack s
  | .memberFailure bay die => Sys2Proof.Machine.execMemberFailure bay die s
  | .rebuildRow => Sys2Proof.Machine.execRebuildRow s
  | .bayPresenceAccepted bay survey => Sys2Proof.Machine.execBayPresenceAccepted bay survey s
  | .bayRemoval bay => Sys2Proof.Machine.execBayRemoval bay s
  | .bayFault bay => Sys2Proof.Machine.execBayFault bay s
  | .commissioningDone bay result => Sys2Proof.Machine.execCommissioningDone bay result s
  | .evacuationSetMove => Sys2Proof.Machine.execEvacuationSetMove s
  | .evacuationDone bay => Sys2Proof.Machine.execEvacuationDone bay s
  | .importDone result => Sys2Proof.Machine.execImportDone result s
  | .pwrfailFall cyc => Sys2Proof.Machine.execPwrfailFall cyc s
  | .holdupComplete => Sys2Proof.Machine.execHoldupComplete s
  | .porstAssert cyc => Sys2Proof.Machine.execPorstAssert cyc s
  | .porstRelease cyc env => Sys2Proof.Machine.execPorstRelease cyc env s
  | .restartComplete cyc found => Sys2Proof.Machine.execRestartComplete cyc found s
  | .failedSet keeperFailed => Sys2Proof.Machine.execFailedSet keeperFailed s
  | .dramChannelLoss channel staged => Sys2Proof.Machine.execDramChannelLoss channel staged s
  | .ownershipClaim cyc peerHighFor peerAfter found surveys => Sys2Proof.Machine.execOwnershipClaim cyc peerHighFor peerAfter found surveys s
  | .heartbeatSend cyc => Sys2Proof.Machine.execHeartbeatSend cyc s
  | .partnerLoss cyc cqTaken scan found surveys => Sys2Proof.Machine.execPartnerLoss cyc cqTaken scan found surveys s
  | .uncleanTakeOver cyc found surveys => Sys2Proof.Machine.execUncleanTakeOver cyc found surveys s
  | .standbyLinkFallback cyc => Sys2Proof.Machine.execStandbyLinkFallback cyc s
  | .ackTimeout cyc => Sys2Proof.Machine.execAckTimeout cyc s
  | .fenceRelease cyc => Sys2Proof.Machine.execFenceRelease cyc s
  | .frameResend cyc => Sys2Proof.Machine.execFrameResend cyc s
  | .zynmiLinkTrained lanes => Sys2Proof.Machine.execZynmiLinkTrained lanes s
  | .zynmiLinkDown cyc reservedType => Sys2Proof.Machine.execZynmiLinkDown cyc reservedType s
  | .frameHeartbeat h role cond pins aet csnLast jseq cyc => Sys2Proof.Machine.execFrameHeartbeat h role cond pins aet csnLast jseq cyc s
  | .frameAck crcOk fseq cyc => Sys2Proof.Machine.execFrameAck crcOk fseq cyc s
  | .frameAdmit h slots cyc => Sys2Proof.Machine.execFrameAdmit h slots cyc s
  | .frameJournal h recs cyc => Sys2Proof.Machine.execFrameJournal h recs cyc s
  | .frameState h r cyc => Sys2Proof.Machine.execFrameState h r cyc s
  | .frameComplete h ps cyc => Sys2Proof.Machine.execFrameComplete h ps cyc s
  | .frameDoorbell h ds cyc => Sys2Proof.Machine.execFrameDoorbell h ds cyc s
  | .frameFrontier h es cyc => Sys2Proof.Machine.execFrameFrontier h es cyc s
  | .frameStop h r cyc => Sys2Proof.Machine.execFrameStop h r cyc s
  | .frameFailing h cond cyc => Sys2Proof.Machine.execFrameFailing h cond cyc s
  | .frameHandOver h sets cyc => Sys2Proof.Machine.execFrameHandOver h sets cyc s
  | .frameSyncPiece h piece capture cyc => Sys2Proof.Machine.execFrameSyncPiece h piece capture cyc s
  | .frameSyncEnd h csnLast cyc => Sys2Proof.Machine.execFrameSyncEnd h csnLast cyc s
  | .framePairHello h hello cyc => Sys2Proof.Machine.execFramePairHello h hello cyc s
  | .framePairKey h point cyc => Sys2Proof.Machine.execFramePairKey h point cyc s
  | .framePairConfirm h bytes cyc => Sys2Proof.Machine.execFramePairConfirm h bytes cyc s
  | .podRequest requester size dram => Sys2Proof.Machine.execPodRequest requester size dram s
  | .podFree pod offset => Sys2Proof.Machine.execPodFree pod offset s
  | .moverPost channel desc => Sys2Proof.Machine.execMoverPost channel desc s
  | .moverDescriptorEnd channel outcome => Sys2Proof.Machine.execMoverDescriptorEnd channel outcome s
  | .reqLinePulse line => Sys2Proof.Machine.execReqLinePulse line s
  | .kfKeyWrite side value => Sys2Proof.Machine.execKfKeyWrite side value s
  | .kfProgram side addr data pc => Sys2Proof.Machine.execKfProgram side addr data pc s
  | .kfErase side addr pc => Sys2Proof.Machine.execKfErase side addr pc s
  | .kfMarginRead side addr => Sys2Proof.Machine.execKfMarginRead side addr s
  | .kfRead side addr => Sys2Proof.Machine.execKfRead side addr s
  | .kfCrcSector side addr => Sys2Proof.Machine.execKfCrcSector side addr s
  | .kfCommandDone bank measured agreed => Sys2Proof.Machine.execKfCommandDone bank measured agreed s
  | .recoveryRequest value => Sys2Proof.Machine.execRecoveryRequest value s
  | .recoveryExit value => Sys2Proof.Machine.execRecoveryExit value s
  | .idleTimerExpiry cyc => Sys2Proof.Machine.execIdleTimerExpiry cyc s
  | .ps4NowWrite value cyc => Sys2Proof.Machine.execPs4NowWrite value cyc s
  | .psDeepEntry step ok aoCycle => Sys2Proof.Machine.execPsDeepEntry step ok aoCycle s
  | .domainsOff aoCycle levelSource => Sys2Proof.Machine.execDomainsOff aoCycle levelSource s
  | .wake code aoCycle => Sys2Proof.Machine.execWake code aoCycle s
  | .maintWakeTimer aoCycle => Sys2Proof.Machine.execMaintWakeTimer aoCycle s
  | .sbAddressMatch address => Sys2Proof.Machine.execSbAddressMatch address s
  | .avsAck cyc => Sys2Proof.Machine.execAvsAck cyc s
  | .avsRetryTimeout cyc => Sys2Proof.Machine.execAvsRetryTimeout cyc s
  | .powerLevelUpdate coreDeciwatts activity => Sys2Proof.Machine.execPowerLevelUpdate coreDeciwatts activity s
  | .sensorSample raw => Sys2Proof.Machine.execSensorSample raw s
  | .thermalTrip comparator cyc => Sys2Proof.Machine.execThermalTrip comparator cyc s
  | .commandSlot cyc => Sys2Proof.Machine.execCommandSlot cyc s
  | .cntClear req value => Sys2Proof.Machine.execCntClear req value s
  | .cntSnap req value cyc => Sys2Proof.Machine.execCntSnap req value cyc s
  | .snapshotReady cyc => Sys2Proof.Machine.execSnapshotReady cyc s
  | .mirrorSnapWrite value cyc => Sys2Proof.Machine.execMirrorSnapWrite value cyc s
  | .cntSelWrite req n value => Sys2Proof.Machine.execCntSelWrite req n value s
  | .counterLowRead req snapshot n => Sys2Proof.Machine.execCounterLowRead req snapshot n s
  | .pscHeadWrite req value => Sys2Proof.Machine.execPscHeadWrite req value s
  | .sbRegisterWriteShort offset bytesAcked pecOk => Sys2Proof.Machine.execSbRegisterWriteShort offset bytesAcked pecOk s
  | .rstdaa => Sys2Proof.Machine.execRstdaa s
  | .entdaa address arbitrationWon => Sys2Proof.Machine.execEntdaa address arbitrationWon s
  | .setdasa staticAddr address => Sys2Proof.Machine.execSetdasa staticAddr address s
  | .setnewda oldAddr address => Sys2Proof.Machine.execSetnewda oldAddr address s
  | .getpid => Sys2Proof.Machine.execGetpid s
  | .getbcr => Sys2Proof.Machine.execGetbcr s
  | .getdcr => Sys2Proof.Machine.execGetdcr s
  | .getstatus => Sys2Proof.Machine.execGetstatus s
  | .pwrfailRise cyc => Sys2Proof.Machine.execPwrfailRise cyc s
  | .pcieLinkUp port => Sys2Proof.Machine.execPcieLinkUp port s
  | .twinHbInEdge cyc => Sys2Proof.Machine.execTwinHbInEdge cyc s
  | .alwaysOnPowerUp => Sys2Proof.Machine.execAlwaysOnPowerUp s
  | .actNStretchEnd cyc => Sys2Proof.Machine.execActNStretchEnd cyc s
  | .jtagTapStateChange inReset => Sys2Proof.Machine.execJtagTapStateChange inReset s
  | .latchedPairLowRead req offset => Sys2Proof.Machine.execLatchedPairLowRead req offset s

end Sys2Proof.Machine
end

