-- ==== Sys2Proof/Safety.lean ====
section
/-! DEFINITION. What claims speak of: the fields that only a register access or a reset may change, their legal values, and what counts as a
safe run. -/
namespace Sys2Proof
open Sys2Proof.Machine

/-! ## Fields that only register writes and resets change -/

/-- RW fields of chapter 03 (Tables 3-3, 3-5, 3-7). -/
abbrev cadCtl (c : Cad) : Bool × Bool × Bool × Nat × Word × Word := (c.internal, c.outFlywheel, c.outEnable, c.tpsFixed, c.setLo, c.setHi)

/-- RW fields of Table 20-8 but PS4_NOW, which an entry clears. -/
abbrev powerCtl (p : Power) : Nat × Bool × Nat × Nat × Nat := (p.limit, p.testHold, p.maintWake, p.cap, p.avsSettle)

/-- TWIN_SOLO_HOLD and the twin straps (Table 16-8, R379). -/
abbrev twinCtl (t : Twin) : Bool × Bool × Bool := (t.hold, t.en, t.seat)

/-- RW fields of Table 22-6 and the dynamic address. -/
abbrev sideCtl (x : Side) : Bool × Bool × Option (BitVec 7) := (x.wakeOnMatch, x.pec, x.dyn)

/-- RW fields of Tables 21-2, 21-5 and 21-7 but PSC_HEAD, which WRAP advances. -/
abbrev ctrCtl (c : Ctr) : Bool × Bool × Nat × List (Nat × Nat) × Bool × Bool × Bool × Nat × Word :=
  (c.run, c.snapOnWindow, c.tdPort, c.sel, c.arm, c.wrap, c.jitter, c.pscPeriod, c.filter)

/-- Admin queue registers of a port (Table 4-5) and its MSI-X table and control (R114). -/
abbrev portCtl (x : PortSt) : Nat × Nat × Nat × Nat × List MsixEntry × Bool × Bool :=
  (x.asqEntries, x.acqEntries, x.asqBase, x.acqBase, x.msix, x.msixEnable, x.funcMask)

/-- Straps and fuses (R503, R38, R39). -/
abbrev kfCtl (k : Kf) : BitVec 3 × BitVec 4 × Option (BitVec 384) × BitVec 4 := (k.sbAddr, k.boardId, k.ownerFuse, k.revoked)

/-! ## Terms of claims -/

/-- Nothing waits for the end of the cycle: every event raised has gone out, and no change of a flag is still to be reported (R25, R178). -/
abbrev quiet (s : State) : Prop := s.raised = [] ∧ s.condFrom = none

/-- A command's context has ended with success and two results; its completion waits to be posted (R2). -/
def endedWith (t : State) (cid : Nat) (r0 r1 : Word) : Prop :=
  ∃ c, ctxOf t cid = some c ∧ c.stage = .ended ∧ c.status = 0 ∧ c.result0 = r0 ∧ c.result1 = r1

/-- A command's context has ended with a status. -/
def endedStatus (t : State) (cid : Nat) (status : Half) : Prop :=
  ∃ c, ctxOf t cid = some c ∧ c.stage = .ended ∧ c.status = status

/-- A SET_FEATURE that may take effect now: admitted, in its turn (R175), and where a partner mirrors, acknowledged by it (R406). -/
abbrev featureDue (s : State) (cid f : Nat) (c : Ctx) : Prop :=
  featureIn s cid f = some c ∧ (mirroring s = true → featureScope f c.port = 0 → c.mapAsked = true) ∧
    (c.mapAsked = true → c.awaitAck.all (acked s) = true)

/-! ## Parts of the state, for frames -/

/-- A part of the state that a command changes or leaves. A part named …Ctl lies inside the part that it follows. -/
inductive Part where
  /-- time base (model only) -/
  | now
  /-- free values drawn (model only) -/
  | free
  /-- device condition word (R25) -/
  | cond
  /-- answer to a register read -/
  | readData
  /-- what went out to the hosts -/
  | out
  /-- next CSN (R104) -/
  | csnNext
  /-- CSN_ISSUED (Table 4-5) -/
  | csnIssued
  /-- reserved CSN block (R104) -/
  | csnBlock
  /-- command contexts (Table 1-3) -/
  | ctxs
  /-- next ERROR_SEQ (R133) -/
  | errSeq
  /-- next EVENT_SEQ (R178) -/
  | evSeq
  /-- EVENT_HISTORY (R178) -/
  | evHist
  /-- events raised in the cycle and not yet sent (R178) -/
  | raised
  /-- condition word at the start of the cycle (R25) -/
  | condFrom
  /-- host ports A and B (chapter 04) -/
  | ports
  /-- their registers of portCtl -/
  | portCtl
  /-- cadence and calendar (chapter 03) -/
  | cad
  /-- its registers of cadCtl -/
  | cadCtl
  /-- features (chapter 07) -/
  | feat
  /-- HEALTH counters (R165) -/
  | health
  /-- mapping tables (chapter 08) -/
  | map
  /-- map engine (chapter 08) -/
  | eng
  /-- medium, bays and dies (chapters 09 and 11 to 15) -/
  | media
  /-- journal, checkpoints and stop records (chapter 10) -/
  | jrnl
  /-- twin link and roles (chapter 16) -/
  | twin
  /-- its fields of twinCtl -/
  | twinCtl
  /-- digest contexts (chapter 17) -/
  | dig
  /-- pods (chapter 18) -/
  | pods
  /-- mover channels (chapter 18) -/
  | mover
  /-- keeper and its flash controller (chapter 19) -/
  | kf
  /-- bytes of the keeper flash -/
  | kfMem
  /-- straps and fuses of kfCtl -/
  | kfCtl
  /-- power and thermal (chapter 20) -/
  | power
  /-- its registers of powerCtl -/
  | powerCtl
  /-- counters and periscope (chapter 21) -/
  | ctr
  /-- its registers of ctrCtl -/
  | ctrCtl
  /-- side port (chapter 22) -/
  | side
  /-- its fields of sideCtl -/
  | sideCtl
  deriving DecidableEq, Repr

/-- Two states agree on a part. -/
def same : Part → State → State → Prop
  | .now, t, s => t.now = s.now
  | .free, t, s => t.free = s.free
  | .cond, t, s => t.cond = s.cond
  | .readData, t, s => t.readData = s.readData
  | .out, t, s => t.out = s.out
  | .csnNext, t, s => t.csnNext = s.csnNext
  | .csnIssued, t, s => t.csnIssued = s.csnIssued
  | .csnBlock, t, s => t.csnBlock = s.csnBlock
  | .ctxs, t, s => t.ctxs = s.ctxs
  | .errSeq, t, s => t.errSeq = s.errSeq
  | .evSeq, t, s => t.evSeq = s.evSeq
  | .evHist, t, s => t.evHist = s.evHist
  | .raised, t, s => t.raised = s.raised
  | .condFrom, t, s => t.condFrom = s.condFrom
  | .ports, t, s => t.portA = s.portA ∧ t.portB = s.portB
  | .portCtl, t, s => portCtl t.portA = portCtl s.portA ∧ portCtl t.portB = portCtl s.portB
  | .cad, t, s => t.cad = s.cad
  | .cadCtl, t, s => cadCtl t.cad = cadCtl s.cad
  | .feat, t, s => t.feat = s.feat
  | .health, t, s => t.health = s.health
  | .map, t, s => t.map = s.map
  | .eng, t, s => t.eng = s.eng
  | .media, t, s => t.media = s.media
  | .jrnl, t, s => t.jrnl = s.jrnl
  | .twin, t, s => t.twin = s.twin
  | .twinCtl, t, s => twinCtl t.twin = twinCtl s.twin
  | .dig, t, s => t.dig = s.dig
  | .pods, t, s => t.pods = s.pods
  | .mover, t, s => t.mover = s.mover
  | .kf, t, s => t.kf = s.kf
  | .kfMem, t, s => t.kf.mem = s.kf.mem
  | .kfCtl, t, s => kfCtl t.kf = kfCtl s.kf
  | .power, t, s => t.power = s.power
  | .powerCtl, t, s => powerCtl t.power = powerCtl s.power
  | .ctr, t, s => t.ctr = s.ctr
  | .ctrCtl, t, s => ctrCtl t.ctr = ctrCtl s.ctr
  | .side, t, s => t.side = s.side
  | .sideCtl, t, s => sideCtl t.side = sideCtl s.side

/-- Every part. -/
def everything : List Part :=
  [.now, .free, .cond, .readData, .out, .csnNext, .csnIssued, .csnBlock, .ctxs, .errSeq, .evSeq, .evHist, .raised, .condFrom, .ports, .portCtl,
   .cad, .cadCtl, .feat, .health, .map, .eng, .media, .jrnl, .twin, .twinCtl, .dig, .pods, .mover, .kf, .kfMem, .kfCtl, .power, .powerCtl, .ctr,
   .ctrCtl, .side, .sideCtl]

/-- What raising events and sending them out at the end of the cycle may change (R178, R53). -/
def events : List Part := [.evSeq, .evHist, .raised, .condFrom, .out, .ports]

/-- What setting or clearing a condition flag may change (R25): the word, and what its CONDITION events change. -/
def flagged : List Part := .cond :: events

/-- What writing a journal record may change (R243, R386): the journal, and the frame that mirrors it. -/
def journaled : List Part := [.jrnl, .twin]

/-- What storing bytes in the keeper flash may change. -/
def stored : List Part := [.kf, .kfMem]

/-- The parts of the state that a command may change; every other part, and the queue of commands, stays. -/
def touches : Instr → List Part
  | .cadTickEdge .. | .flywheelTick | .internalTick =>
    flagged ++ journaled ++ [.now, .ctxs, .errSeq, .cad, .health, .eng, .media, .power, .ctr]
  | .cadenceLostSet =>
    flagged ++ [.cad]
  | .lockTimeout .. =>
    flagged ++ [.now, .cad, .power, .ctr]
  | .aetSetApply .. =>
    [.cad]
  | .cadControlSourceWrite .. =>
    flagged ++ [.now, .cad, .cadCtl, .power, .ctr]
  | .cadTpsWrite .. =>
    [.cad, .cadCtl]
  | .aetLoRead =>
    [.readData, .cad]
  | .windowStart =>
    flagged ++ journaled ++ [.cad, .health, .eng, .media, .ctr]
  | .maintenanceDraw .. =>
    flagged ++ journaled ++ [.cad, .health, .eng, .media, .power, .ctr]
  | .journalFlush =>
    [.cad, .health, .media, .jrnl, .ctr]
  | .checkpointStart .. =>
    journaled ++ [.ports, .cad, .health, .eng, .media, .ctr]
  | .checkpointRootWrite =>
    journaled ++ stored ++ [.cad, .health, .media, .ctr]
  | .configRequest .. | .eventCtrlWrite .. | .pcieLinkUp .. =>
    [.ports]
  | .portEnable .. | .portDisable .. | .portShutdown .. | .surpriseDown .. =>
    events ++ [.ctxs, .health, .eng, .media, .dig, .kf, .ctr]
  | .portShutdownDone .. | .registerWrite .. | .holdupComplete | .porstAssert .. | .porstRelease .. | .recoveryRequest ..
    | .recoveryExit .. | .pwrfailRise .. | .alwaysOnPowerUp =>
    everything
  | .portDrainDone .. =>
    events ++ [.ctxs, .health, .eng, .media, .dig, .ctr]
  | .functionLevelReset .. | .perstAssert .. =>
    events ++ [.ctxs, .portCtl, .health, .eng, .media, .dig, .kf, .ctr]
  | .perstDeassert .. =>
    [.ports, .cad, .eng, .media, .power]
  | .sqTailDoorbell .. =>
    events ++ [.now, .errSeq, .twin, .power, .ctr]
  | .cqHeadDoorbell .. =>
    events ++ [.now, .ctxs, .errSeq, .twin, .power, .ctr]
  | .submissionFetch .. =>
    [.now, .ctxs, .ports, .power, .ctr]
  | .entryFetchFault .. =>
    [.now, .ctxs, .errSeq, .ports, .power, .ctr]
  | .admission .. =>
    journaled ++ [.now, .free, .csnNext, .csnIssued, .csnBlock, .ctxs, .errSeq, .ports, .map, .media, .dig, .power, .ctr, .side]
  | .completionPost .. =>
    [.now, .out, .ctxs, .ports, .twin, .dig, .power, .ctr]
  | .queueRestartDone .. | .ackResumption .. =>
    [.ctxs, .ports, .twin]
  | .coalesceTimerExpiry .. =>
    [.now, .out, .ports, .power, .ctr]
  | .msixUnmask .. =>
    [.out, .ports, .portCtl]
  | .csnIssuedLoRead .. =>
    [.readData, .ports]
  | .rcRegisterRead .. | .latchedPairLowRead .. =>
    flagged ++ journaled ++ [.free, .readData, .cad, .health, .eng, .media, .power, .ctr, .side]
  | .createQueue .. | .deleteQueue .. | .twinPair .. =>
    [.ctxs, .errSeq, .ports, .twin]
  | .restartQueue .. =>
    [.ctxs, .errSeq, .ports]
  | .identify .. | .getFeature .. =>
    [.out, .ctxs, .errSeq, .ports]
  | .getLog .. =>
    [.free, .out, .ctxs, .errSeq, .ports, .ctr]
  | .setPowerTimers .. | .setThermalLimits .. | .setRebuildShare .. =>
    [.ctxs, .feat, .twin, .kf]
  | .setCadencePlan .. =>
    [.ctxs, .cad, .twin, .kf]
  | .setPatrolCycle .. =>
    [.ctxs, .feat, .media, .twin, .kf]
  | .setHostMapRegion .. =>
    [.ctxs, .errSeq, .ports, .health, .eng, .media, .twin, .kf, .ctr]
  | .setInterruptCoalescing .. =>
    [.ctxs, .errSeq, .ports, .twin, .kf]
  | .setArbitration .. | .setEventMask .. =>
    [.ctxs, .ports, .twin, .kf]
  | .setOnionShelf .. =>
    [.ctxs, .ports, .twin, .dig, .kf]
  | .setJournalInterval .. =>
    [.ctxs, .cad, .feat, .twin, .kf]
  | .setHorizonMinimum .. =>
    events ++ [.ctxs, .feat, .media, .twin, .kf]
  | .setArchiveTime .. =>
    [.ctxs, .cad, .twin]
  | .setUserCalibration .. =>
    stored ++ [.ctxs]
  | .fwDownload .. | .fwConfirm .. =>
    stored ++ [.ctxs, .errSeq, .ports]
  | .fwCommit .. | .fwRevert .. =>
    events ++ stored ++ [.ctxs, .errSeq]
  | .namespaceCreate .. =>
    journaled ++ [.ctxs, .errSeq, .ports, .map]
  | .namespaceDelete .. =>
    journaled ++ [.ctxs, .errSeq, .ports, .map, .eng, .media]
  | .bayCommissionMember .. | .bayCommissionSpare .. | .bayEvacuate .. | .bayCancelEvacuate .. =>
    events ++ journaled ++ [.ctxs, .errSeq, .media]
  | .bayRelease .. | .rebuildStop .. | .rebuildStart .. =>
    flagged ++ journaled ++ [.ctxs, .errSeq, .media]
  | .bayImport .. =>
    [.ctxs, .errSeq, .ports, .media, .twin]
  | .moverQuery .. =>
    [.ctxs, .twin]
  | .moverResume .. | .moverResetChannel .. =>
    [.ctxs, .errSeq, .ports, .twin, .mover]
  | .patrolPause .. | .patrolResume .. =>
    [.ctxs, .media, .twin]
  | .patrolRestartCycle .. =>
    events ++ [.ctxs, .media, .twin]
  | .patrolPauseExpiry .. | .readSuspend .. | .idleTimerExpiry .. =>
    [.now, .media, .power, .ctr]
  | .twinUnpair .. | .zynmiLinkTrained .. =>
    flagged ++ journaled ++ stored ++ [.ctxs, .errSeq, .media]
  | .twinHandOver .. =>
    [.ctxs, .errSeq, .ports, .health, .media, .twin, .ctr]
  | .twinFencePartner .. | .ackTimeout .. | .frameFailing .. =>
    flagged ++ journaled ++ stored ++ [.now, .ctxs, .errSeq, .media, .power, .ctr]
  | .write .. =>
    [.ctxs, .errSeq, .ports, .health, .media, .ctr]
  | .read .. =>
    [.out, .ctxs, .errSeq, .ports, .health, .eng, .media]
  | .verify .. | .compare .. =>
    [.ctxs, .errSeq, .ports, .eng, .media]
  | .deallocate .. =>
    [.ctxs, .eng]
  | .fill .. =>
    [.ctxs, .health, .media, .ctr]
  | .copy .. =>
    [.ctxs, .errSeq, .ports, .health, .eng, .media, .ctr]
  | .digestOpen .. | .digestFinal .. | .digestSave .. | .digestLoad .. | .contextSlotWaitEnd .. =>
    [.out, .ctxs, .errSeq, .ports, .eng, .media, .dig]
  | .digestFeedHost .. | .digestFeedMedium .. | .digestClose .. =>
    [.ctxs, .errSeq, .ports, .eng, .media, .dig]
  | .digestChunkDispatch =>
    [.dig, .ctr]
  | .digestChunkDone .. =>
    [.out, .ctxs, .errSeq, .ports, .eng, .media, .dig, .mover]
  | .writeHeld .. =>
    [.now, .ctxs, .errSeq, .ports, .health, .media, .power, .ctr]
  | .pageProgramTimeout .. =>
    [.now, .health, .media, .power, .ctr]
  | .rowPadTimeout .. =>
    [.health, .media, .ctr]
  | .setOpen .. =>
    journaled ++ [.health, .map, .eng, .media, .ctr]
  | .sequenceEnd .. =>
    flagged ++ journaled ++ stored ++ [.ctxs, .cad, .health, .map, .eng, .media, .ctr]
  | .verifyReadDone .. =>
    flagged ++ journaled ++ stored ++ [.health, .map, .eng, .media, .ctr]
  | .writeCommit .. =>
    [.ctxs, .eng, .twin]
  | .mapUpdate =>
    events ++ journaled ++ [.ctxs, .health, .map, .eng, .media, .ctr]
  | .mapLookup .. =>
    [.out, .ctxs, .health, .eng, .media, .ctr]
  | .tileWriteback .. =>
    [.health, .eng, .media, .ctr]
  | .mediumReadIssue .. =>
    [.now, .eng, .media, .power, .ctr]
  | .decodeDone .. =>
    flagged ++ journaled ++ [.ctxs, .health, .map, .eng, .media, .ctr]
  | .thermalClockMinute .. =>
    [.health, .media]
  | .hourlyModelUpdate | .patrolCycleStart .. | .blockClaimRequest .. =>
    events ++ [.media]
  | .aetWaitTimeout .. | .avsRetryTimeout .. =>
    flagged ++ [.now, .media, .power, .ctr]
  | .reclaimStart .. | .reserveReclaimStart .. | .refreshClaim =>
    events ++ [.health, .eng, .media, .ctr]
  | .preemptHandoff .. =>
    [.media]
  | .blockRelease .. =>
    flagged ++ journaled ++ [.health, .map, .media]
  | .blockErase .. =>
    flagged ++ journaled ++ [.health, .map, .media, .ctr]
  | .stripeJournalRecord =>
    [.health, .media, .twin, .ctr]
  | .descriptorRewrite .. =>
    [.media, .ctr]
  | .memberFailure .. | .bayPresenceAccepted .. | .bayRemoval .. | .bayFault .. =>
    flagged ++ journaled ++ stored ++ [.health, .map, .media, .ctr]
  | .rebuildRow =>
    flagged ++ journaled ++ [.health, .map, .eng, .media, .ctr]
  | .commissioningDone .. =>
    flagged ++ journaled ++ stored ++ [.free, .health, .map, .eng, .media, .ctr]
  | .evacuationSetMove =>
    events ++ journaled ++ [.health, .map, .eng, .media, .ctr]
  | .evacuationDone .. =>
    flagged ++ journaled ++ [.media]
  | .importDone .. =>
    flagged ++ journaled ++ stored ++ [.csnNext, .csnBlock, .health, .map, .eng, .media, .ctr]
  | .pwrfailFall .. =>
    journaled ++ stored ++ [.now, .free, .health, .media, .power, .ctr, .side]
  | .restartComplete .. =>
    flagged ++ journaled ++ stored ++ [.now, .free, .csnNext, .ctxs, .errSeq, .cad, .health, .map, .eng, .media, .power, .ctr]
  | .failedSet .. =>
    flagged ++ journaled ++ stored ++ [.free, .ctxs, .errSeq, .health, .media, .ctr]
  | .dramChannelLoss .. =>
    flagged ++ journaled ++ stored ++ [.free, .ctxs, .errSeq, .health, .eng, .media, .pods, .ctr]
  | .ownershipClaim .. =>
    flagged ++ journaled ++ [.now, .csnNext, .csnIssued, .csnBlock, .cad, .health, .map, .eng, .media, .dig, .kf, .power, .ctr]
  | .heartbeatSend .. | .frameResend .. | .frameAdmit .. | .frameComplete .. | .frameDoorbell .. | .frameFrontier .. | .frameHandOver ..
    | .framePairKey .. | .twinHbInEdge .. =>
    [.now, .twin, .power, .ctr]
  | .partnerLoss .. =>
    flagged ++ journaled ++ stored ++ [.now, .csnNext, .csnIssued, .csnBlock, .ctxs, .errSeq, .cad, .health, .map, .eng, .media, .dig,
     .power, .ctr]
  | .uncleanTakeOver .. =>
    flagged ++ journaled ++ [.now, .csnNext, .csnBlock, .health, .map, .eng, .media, .kf, .power, .ctr]
  | .standbyLinkFallback .. | .zynmiLinkDown .. =>
    events ++ [.now, .twin, .power, .ctr]
  | .fenceRelease .. =>
    [.now, .ctxs, .twin, .power, .ctr]
  | .frameHeartbeat .. =>
    flagged ++ journaled ++ stored ++ [.now, .ctxs, .errSeq, .map, .eng, .media, .power, .ctr]
  | .frameAck .. =>
    flagged ++ journaled ++ stored ++ [.now, .ctxs, .map, .eng, .media, .dig, .power, .ctr]
  | .frameJournal .. =>
    journaled ++ [.now, .map, .media, .power, .ctr]
  | .frameState .. =>
    events ++ [.now, .cad, .feat, .media, .twin, .kf, .power, .ctr]
  | .frameStop .. =>
    journaled ++ stored ++ [.now, .power, .ctr]
  | .frameSyncPiece .. =>
    [.now, .ports, .cad, .feat, .map, .media, .twin, .kf, .power, .ctr]
  | .frameSyncEnd .. =>
    events ++ journaled ++ [.now, .power, .ctr]
  | .framePairHello .. =>
    events ++ journaled ++ [.now, .map, .eng, .media, .power, .ctr]
  | .framePairConfirm .. =>
    events ++ journaled ++ [.now, .ctxs, .errSeq, .map, .eng, .media, .power, .ctr]
  | .podRequest .. | .podFree .. =>
    [.pods, .ctr]
  | .moverPost .. =>
    [.ctxs, .errSeq, .ports, .mover]
  | .moverDescriptorEnd .. =>
    [.ctxs, .errSeq, .ports, .mover, .ctr]
  | .reqLinePulse .. =>
    [.mover]
  | .kfKeyWrite .. =>
    [.kf]
  | .kfProgram .. | .kfErase .. | .kfMarginRead .. | .kfRead .. | .kfCrcSector .. =>
    [.free, .kf]
  | .kfCommandDone .. =>
    events ++ stored ++ [.free]
  | .ps4NowWrite .. =>
    [.now, .media, .power, .powerCtl, .ctr]
  | .psDeepEntry .. =>
    journaled ++ stored ++ [.ports, .cad, .health, .eng, .media, .power, .ctr]
  | .domainsOff .. =>
    [.cad, .eng, .media, .twin, .power, .ctr]
  | .wake .. | .maintWakeTimer .. | .sbAddressMatch .. | .jtagTapStateChange .. =>
    [.cad, .eng, .media, .power]
  | .avsAck .. =>
    flagged ++ [.now, .power, .ctr]
  | .powerLevelUpdate .. =>
    flagged ++ [.power]
  | .sensorSample .. =>
    flagged ++ journaled ++ stored ++ [.free, .ctxs, .errSeq, .cad, .feat, .health, .map, .eng, .media, .twinCtl, .kfCtl, .power, .ctr]
  | .thermalTrip .. =>
    journaled ++ stored ++ [.now, .free, .ports, .health, .media, .power, .ctr]
  | .commandSlot .. | .snapshotReady .. | .mirrorSnapWrite .. =>
    [.now, .power, .ctr]
  | .cntClear .. | .cntSelWrite .. =>
    [.ctr, .ctrCtl]
  | .cntSnap .. =>
    [.now, .power, .ctr, .ctrCtl]
  | .counterLowRead .. =>
    [.free, .readData, .ports, .ctr]
  | .pscHeadWrite .. =>
    [.ctr]
  | .sbRegisterWriteShort .. | .getpid | .getbcr | .getdcr =>
    [.side]
  | .rstdaa | .entdaa .. | .setdasa .. | .setnewda .. =>
    [.side, .sideCtl]
  | .getstatus =>
    [.free, .side]
  | .actNStretchEnd .. =>
    [.now, .power, .ctr, .side]

end Sys2Proof
end

