-- ==== Sys2Proof/Certificates/Slice0/Obligations.lean ====
section
/-! DEFINITION. The statements for the provers, chapter by chapter of the manual. Each docstring names the rules that its statement takes clauses from. -/

section
open Sys2Proof Sys2Proof.Machine

/-- One step takes the command at the front of the queue and runs exec on it with the queue's rest; on an empty queue the part idles, which is the model's
own choice (assumption 1). -/
def Obligations.StepRunsTheFrontCommand : Prop :=
  ∀ s : State,
    (∀ (c : Instr) (rest : List Instr), s.pending = c :: rest → step s = exec c { s with pending := rest }) ∧
    (s.pending = [] → step s = .next s)

/-- Every command of the table completes in every state, leaves the queue alone, and changes no part of the state but those that `touches` names for it:
registers that only a register write, a reset or a strap changes (the …Ctl parts), the bytes of keeper flash, and every other part are unchanged by a
command that is not named for them. -/
def Obligations.EveryCommandKeepsItsFrame : Prop :=
  ∀ (i : Instr) (s : State), ∃ t, exec i s = .next t ∧ t.pending = s.pending ∧ ∀ p : Part, p ∉ touches i → same p t s

/-- R25, R26, R178: at the end of a cycle, changes of flags, made at once or by one part of the cycle and then another, raise one event for each flag that
differs from the start of the cycle, with the word before in PARAM0, the word after in PARAM1 and the reported word in CONDITION; REBUILDING is never left
without DEGRADED and TWIN_SOLO never on a chip strapped for single-controller operation; with FAILED set no flag changes. No command leaves anything to be
sent after it: a command is a cycle of its own (the model's own choice, assumption 44). -/
def Obligations.FlagsCombineAndRaiseEvents : Prop :=
  (∀ (s : State) (fs gs : List (Nat × Bool)), quiet s →
    let t := endCycle (setFlags (setFlags s fs) gs)
    t.cond = (setFlags (setFlags s fs) gs).cond ∧
    t.evSeq = s.evSeq + (changedFlags s.cond t.cond).length ∧
    (∀ n ∈ changedFlags s.cond t.cond, ∃ e ∈ t.evHist, e.kind = 0 ∧ e.code = n ∧ e.param0 = s.cond.toNat ∧ e.param1 = t.cond.toNat ∧
      e.cond = reportedCond t)) ∧
  (∀ (s : State) (fs : List (Nat × Bool)),
    (flag s.cond bFailed = true → (setFlags s fs).cond = s.cond) ∧
    (flag s.cond bFailed = false →
      (flag (setFlags s fs).cond bRebuilding = true → flag (setFlags s fs).cond bDegraded = true) ∧
      (s.twin.en = false → flag (setFlags s fs).cond bTwinSolo = false))) ∧
  (∀ (i : Instr) (s t : State), quiet s → exec i s = .next t → quiet t)

/-- The listed form of keeper flash is canonical after every step that starts from a canonical one: addresses strictly rise and no entry holds the 0xFF that
an unlisted byte reads as (assumption 3), whatever command runs. -/
def Obligations.KeeperFlashStaysCanonical : Prop :=
  ∀ s t : State, memWf s.kf.mem = true → step s = .next t → memWf t.kf.mem = true

/-- Reset: the values that Tables 1-8, 3-3, 3-5, 4-4, 7-16, 20-8, 21-2, 21-5, 21-7 and 22-6 and R104 give, an empty queue, and keeper flash in canonical form. -/
def Obligations.ResetLeavesTheSpecsValues : Prop :=
  let s := State.reset
  s.pending = [] ∧ quiet s ∧ memWf s.kf.mem = true ∧ s.cond = 0x0001 ∧ s.csnNext = 1 ∧ s.csnIssued = 0 ∧
  (s.cad.internal = false ∧ s.cad.outFlywheel = false ∧ s.cad.outEnable = true ∧ s.cad.locked = false ∧ s.cad.period = 0x0F4240 ∧ s.cad.aet = 0 ∧
    s.cad.aetValid = false) ∧
  (∀ p, (portOf s p).enable = false ∧ (portOf s p).ready = false ∧ (portOf s p).draining = false ∧ (portOf s p).configError = false ∧
    (portOf s p).queues = [] ∧ (portOf s p).eventMask = 0 ∧
    ((portOf s p).arbHigh, (portOf s p).arbMedium, (portOf s p).arbLow, (portOf s p).arbBurst) = (8, 4, 1, 4)) ∧
  ((s.feat.t1, s.feat.t2, s.feat.t3, s.feat.t4) = (10, 50, 0, 0) ∧ s.feat.throttlePoint = 100 ∧ s.feat.throttleHyst = 5 ∧ s.feat.rebuildShare = 50 ∧
    s.feat.horizonMin = 365) ∧
  (s.power.limit = 4 ∧ s.power.ps4Now = false ∧ s.power.testHold = false ∧ s.power.maintWake = 24 ∧ s.power.cap = 0 ∧ s.power.avsSettle = 50 ∧
    s.power.valid = 0xFFFF ∧ s.power.band = 1) ∧
  (s.ctr.run = true ∧ s.ctr.snapOnWindow = false ∧ s.ctr.tdPort = 0 ∧ (∀ n, n < 40 → s.ctr.sel.getD n (0, 0) = (0, 0x1F)) ∧ s.ctr.pscPeriod = 1024 ∧
    s.ctr.arm = false ∧ s.ctr.head = 0 ∧ s.ctr.tail = 0 ∧ (∀ n, s.ctr.live.getD n 0 = 0)) ∧
  (s.side.wakeOnMatch = true ∧ s.side.pec = false ∧ s.side.dyn = none ∧ s.side.misaligned = 0 ∧ s.side.pecFail = 0 ∧ s.side.shortWrite = 0)

/-- R54, R57, R58, R60, R80: where no set of AET stands, a flywheel tick, an internal tick and an edge taken as a tick each add one to the tick count, and a count
that reaches TPS goes to zero with one more second; the tick's sampling cycle and the next prediction follow. A CAD_TICK pulse that is low again before
50 ns and an edge outside the tolerance of a locked part make no tick; the first counts nowhere, though CAD_OUT may have begun a pulse for it where the
edge would have been a tick (R58), and the second counts in TICK_ERRORS. -/
def Obligations.TicksAdvanceAet : Prop :=
  ∀ s : State, s.kf.porst = false → s.power.st < 3 → s.cad.pendingSet = none →
    let next := if s.cad.tps ≤ aetTick s.cad.aet + 1 then (aetSec s.cad.aet + 1) * 65536 else s.cad.aet + 1
    (s.cad.internal = false →
      ∃ t, exec .flywheelTick s = .next t ∧ t.cad.aet = next ∧ t.cad.lastTick = s.cad.prediction ∧
        t.cad.prediction = s.cad.prediction + s.cad.period) ∧
    (s.cad.internal = true →
      ∃ t, exec .internalTick s = .next t ∧ t.cad.aet = next ∧ t.cad.lastTick = s.cad.prediction ∧
        t.cad.prediction = s.cad.prediction + 1000000) ∧
    (s.cad.internal = false → s.cad.locked = true →
      ∀ c, s.now ≤ c → s.cad.prediction ≤ c + s.cad.period / 50 → c ≤ s.cad.prediction →
        ∃ t, exec (.cadTickEdge c true) s = .next t ∧ t.cad.aet = next ∧ t.cad.lastTick = c ∧ t.cad.flywheelRun = 0) ∧
    (∀ c, s.cad.internal = false → s.cad.locked = true → s.now ≤ c →
      (∃ t, exec (.cadTickEdge c false) s = .next t ∧
        t.cad = { s.cad with outRunts := s.cad.outRunts + (if s.cad.outEnable && edgeTicks s.cad c then 1 else 0) }) ∧
      (c + s.cad.period / 50 < s.cad.prediction → s.cad.lastWasFlywheel = false →
        ∃ t, exec (.cadTickEdge c true) s = .next t ∧ t.cad = { s.cad with spurious := Nat.min 0xFFFF (s.cad.spurious + 1) }))

/-- R77, R79, R519: CADENCE_LOST is set after 32 consecutive flywheel ticks of a locked part, and by 100 ms without lock once the clusters are released; a change of SOURCE to 1 clears
it and LOCKED and makes later ticks internal, and a change to 0 seeks lock from the write. -/
def Obligations.CadenceIsLostAndSourced : Prop :=
  ∀ s : State, flag s.cond bFailed = false →
    (s.cad.locked = true → s.cad.internal = false → 32 ≤ s.cad.flywheelRun →
      ∃ t, exec .cadenceLostSet s = .next t ∧ flag t.cond bCadLost = true ∧ t.cad.locked = false ∧ t.cad.intervals = []) ∧
    (∀ c from_, s.cad.lockFrom = some from_ → s.kf.released = true → s.cad.locked = false → s.cad.internal = false → s.now ≤ c →
      from_ + 100000000 ≤ c →
      ∃ t, exec (.lockTimeout c) s = .next t ∧ flag t.cond bCadLost = true ∧ t.cad.lockFrom = none) ∧
    (∀ (c : Nat) (v : Word), s.now ≤ c → v.getLsbD 0 = true → s.cad.internal = false →
      ∃ t, exec (.cadControlSourceWrite c v) s = .next t ∧ flag t.cond bCadLost = false ∧ t.cad.internal = true ∧ t.cad.locked = false ∧
        t.cad.period = 1000000 ∧ t.cad.prediction = Nat.max (s.cad.lastTick + 1000000) (c + 1) ∧ t.cad.aet = s.cad.aet) ∧
    (∀ (c : Nat) (v : Word), s.now ≤ c → v.getLsbD 0 = false → s.cad.internal = true →
      ∃ t, exec (.cadControlSourceWrite c v) s = .next t ∧ t.cond = s.cond ∧ t.cad.internal = false ∧ t.cad.locked = false ∧
        t.cad.lockFrom = some c ∧ t.cad.period = 1000000 ∧ t.cad.prediction = s.cad.prediction ∧ t.cad.aet = s.cad.aet)

/-- R60, R61, R64, R70: AET_LO answers the low half of AET and latches its high half; AET_SET_CTRL submits a set; CAD_TPS derives, fixes or ignores: zero gives
the TPS of the last lock (the model's reading, assumption 40). The
set that stands at a tick is refused as invalid where its tick count is not below TPS, refused as backward where it lies more than two seconds below the
tick's own AET without FORCE, and is else the AET of that tick, which makes AET valid; AET_SET_RESULT reports which. -/
def Obligations.TimeIsReadAndSet : Prop :=
  ∀ s : State,
    (∀ x : AetSet, s.kf.porst = false → s.cad.internal = false → s.power.st < 3 → s.cad.pendingSet = some x →
      let own := if s.cad.tps ≤ aetTick s.cad.aet + 1 then (aetSec s.cad.aet + 1) * 65536 else s.cad.aet + 1
      ∃ t, exec .flywheelTick s = .next t ∧ t.cad.pendingSet = none ∧
        (s.cad.tps ≤ aetTick x.value → t.cad.setResult = 3 ∧ t.cad.aet = own ∧ t.cad.aetValid = s.cad.aetValid) ∧
        (aetTick x.value < s.cad.tps → x.value + 2 * 65536 < own → x.force = false →
          t.cad.setResult = 2 ∧ t.cad.aet = own ∧ t.cad.aetValid = s.cad.aetValid) ∧
        (aetTick x.value < s.cad.tps → (own ≤ x.value + 2 * 65536 ∨ x.force = true) →
          t.cad.setResult = 1 ∧ t.cad.aet = x.value ∧ t.cad.aetValid = true)) ∧
    (∃ t, exec .aetLoRead s = .next t ∧ t.readData.toNat = s.cad.aet % 2 ^ 32 ∧ t.cad.aetHi.toNat = s.cad.aet / 2 ^ 32 % 2 ^ 32 ∧
      t.cad.aet = s.cad.aet) ∧
    (∀ v : Word, v.getLsbD 0 = true →
      ∃ t, exec (.aetSetApply v) s = .next t ∧
        t.cad.pendingSet = some ⟨s.cad.setHi.toNat * 2 ^ 32 + s.cad.setLo.toNat, v.getLsbD 1, none⟩ ∧ t.cad.aet = s.cad.aet) ∧
    (∀ v : Word, v.getLsbD 0 = false → exec (.aetSetApply v) s = .next s) ∧
    (∀ v : Word, 250 ≤ v.toNat % 8192 → v.toNat % 8192 ≤ 4000 →
      ∃ t, exec (.cadTpsWrite v) s = .next t ∧ t.cad.tpsFixed = v.toNat % 8192 ∧ t.cad.tps = s.cad.tps ∧
        t.cad.pendingTps = if v.toNat % 8192 = s.cad.tps then none else some (v.toNat % 8192)) ∧
    (∀ v : Word, v.toNat % 8192 = 0 →
      ∃ t, exec (.cadTpsWrite v) s = .next t ∧ t.cad.tpsFixed = 0 ∧ t.cad.tps = s.cad.tps ∧
        t.cad.pendingTps = if s.cad.lockTps = s.cad.tps then none else some s.cad.lockTps) ∧
    (∀ v : Word, v.toNat % 8192 ≠ 0 → (v.toNat % 8192 < 250 ∨ 4000 < v.toNat % 8192) → exec (.cadTpsWrite v) s = .next s)

/-- R72, R74, R75: at a window's start the debt D - r + max(0, X - E) of the closed window, capped and zero at the first window after a restart, gives
r = min(D, B/2) and E = B - r, and charges start from what operations ended at or after the tick have charged. -/
def Obligations.WindowStartSetsBudget : Prop :=
  ∀ (s : State) (prorated : Bool), s.cad.windowDue = some prorated →
    let d := if s.cad.firstWindow then 0 else Nat.min (s.cad.debt - s.cad.repay + (s.cad.charged - (s.cad.budget : Int)).toNat) (debtCap s)
    ∃ t, exec .windowStart s = .next t ∧ t.cad.windowDue = none ∧ t.cad.debt = d ∧ t.cad.charged = s.cad.chargedNext ∧ t.cad.chargedNext = 0 ∧
      (quietAt s.cad.plan (nowT s) = true → t.cad.nominal = 0 ∧ t.cad.repay = 0 ∧ t.cad.budget = 0) ∧
      (quietAt s.cad.plan (nowT s) = false → t.cad.repay = Nat.min d (t.cad.nominal / 2) ∧ t.cad.budget + t.cad.repay = t.cad.nominal) ∧
      (quietAt s.cad.plan (nowT s) = false → prorated = false →
        t.cad.nominal = capacityC s s.cad.plan.windowTicks * s.cad.plan.share / 100)

/-- R20, R72, R73: an operation of maintenance work waits until its draw is granted. With the part in PS0, no stop begun and no clean stop record standing,
urgent work draws whatever the charges, other work only while they are below E; a grant charges the typical busy time of the operation that waits and hands
it to its die, a refusal charges nothing and leaves it waiting. Work that draws no slots goes to its die at once. -/
def Obligations.DrawsAreChargedOrRefused : Prop :=
  (∀ (s : State) (k : DrawKind) (die : DieId) (n : Nat) (op : DieOp), s.cad.windowDue = none → waitingOp s k die n = some op →
    (urgentDraw k = true → (k = .rebuildNoParity → s.media.rebuild = 1) → s.power.st = 0 → s.jrnl.stopFrom = none → s.jrnl.cleanStands = false →
      ∃ t, exec (.maintenanceDraw k die n) s = .next t ∧ t.cad.charged = s.cad.charged + (op.typical.getD 0 : Int) ∧
        t.media.undrawn = s.media.undrawn.erase op) ∧
    (urgentDraw k = false → (s.cad.budget : Int) ≤ s.cad.charged →
      ∃ t, exec (.maintenanceDraw k die n) s = .next t ∧ t.cad = s.cad ∧ t.media = s.media)) ∧
  (∀ (s : State) (op : DieOp),
    (∀ k, drawOf s op = some k → (issueOp s op).media.dies = s.media.dies ∧
      (issueOp s op).media.undrawn = s.media.undrawn ++ [{ op with typical := some (typicalOf s op.page.bay op.seqNo) }]) ∧
    (drawOf s op = none → (issueOp s op).media.undrawn = s.media.undrawn))

/-- R84: until the keeper releases the host cluster, a port answers a configuration request with retry status; from then on it answers normally. The answers are
counted in the model's own cfgRetries and cfgAnswers (assumption 7). -/
def Obligations.ConfigurationRequestsWaitForRelease : Prop :=
  ∀ (s : State) (p : Port), ∃ t, exec (.configRequest p) s = .next t ∧
    (s.kf.released = false → (portOf t p).cfgRetries = (portOf s p).cfgRetries + 1 ∧ (portOf t p).cfgAnswers = (portOf s p).cfgAnswers) ∧
    (s.kf.released = true → (portOf t p).cfgAnswers = (portOf s p).cfgAnswers + 1 ∧ (portOf t p).cfgRetries = (portOf s p).cfgRetries)

/-- R87, R88, R89, R508: an enable with valid admin queue fields makes queue 0 ACTIVE
with indices at 0 and phase 1 and sets READY, one with invalid fields sets CONFIG_ERROR and stays disabled, and one before the release is held; a port's link comes
up, and its PERST ends. A write of 1 to SHUTDOWN sets SHUTDOWN_STATE to 1 and stops the port's fetching; its end is SHUTDOWN_STATE 2; DRAINING clears, and the RESUMPTION log is
complete, once no admitted command of a disabled port is left. -/
def Obligations.PortsComeUpAndShutDown : Prop :=
  ∀ (s : State) (p : Port),
    (∀ v : Word, v.getLsbD 0 = true → (portOf s p).enable = false →
      ∃ t, exec (.portEnable p v) s = .next t ∧
        (s.kf.released = false → (portOf t p).heldEnable = true ∧ (portOf t p).enable = false) ∧
        (s.kf.released = true → (portOf s p).draining = false → adminFieldsOk s (portOf s p) = true →
          (portOf t p).enable = true ∧ (portOf t p).ready = true ∧ (portOf t p).configError = false ∧
          ∃ k, queueOf t p 0 = some k ∧ k.st = .active ∧ k.sqHead = 0 ∧ k.sqTail = 0 ∧ k.cqHead = 0 ∧ k.cqTail = 0 ∧ k.phase = true) ∧
        (s.kf.released = true → (portOf s p).draining = false → adminFieldsOk s (portOf s p) = false →
          (portOf t p).enable = false ∧ (portOf t p).configError = true ∧ (portOf t p).queues = (portOf s p).queues)) ∧
    ((portOf s p).perst = false → s.kf.porst = false → s.power.tripped = false →
      ∃ t, exec (.pcieLinkUp p) s = .next t ∧ (portOf t p).linkUp = true) ∧
    (∃ t, exec (.perstDeassert p) s = .next t ∧ (portOf t p).perst = false) ∧
    (∀ v : Word, bits v.toNat 2 1 = 1 →
      ∃ t, exec (.portShutdown p v) s = .next t ∧ (portOf t p).shutdownReq = 1 ∧ (portOf t p).shutdownState = 1 ∧ ∀ k, canFetch t p k = false) ∧
    (s.jrnl.stopFrom = none → shutdownEnds s p = true → s.kf.onShutdown = false →
      ∃ t, exec (.portShutdownDone p) s = .next t ∧ (portOf t p).shutdownState = 2) ∧
    ((portOf s p).draining = true → portDraining s p = false → (portOf s p).heldEnable = false →
      ∃ t, exec (.portDrainDone p) s = .next t ∧ (portOf t p).draining = false ∧ (portOf t p).res.complete = true ∧ portCtxs t p = [])

/-- R88: a disable, a Function Level Reset, PERST and a loss of the link each make every queue of an enabled port DISABLED, clear READY and ENABLE and owe the
host a RESUMPTION log; the other port is not affected, but where both links are lost both logs say so with KIND 4 (Table 5-7; for a log that stands already
the model's own reading, assumption 56). The two resets also reset the port's registers (R86, R114). -/
def Obligations.PortDisablesStopOnePort : Prop :=
  ∀ (s : State) (p : Port), quiet s → (portOf s p).enable = true →
    let stopped (t : State) : Prop :=
      (portOf t p).enable = false ∧ (portOf t p).ready = false ∧ (portOf t p).queues = [] ∧ (portOf t p).resumptionPending = true ∧
      (portOf t p).ev.enable = false ∧ ((portOf s (otherPort p)).linkLost = false → portOf t (otherPort p) = portOf s (otherPort p))
    (∀ v : Word, v.getLsbD 0 = false → ∃ t, exec (.portDisable p v) s = .next t ∧ stopped t) ∧
    (∃ t, exec (.functionLevelReset p) s = .next t ∧ stopped t ∧ (portOf t p).asqEntries = 0 ∧ (portOf t p).msix = []) ∧
    (∃ t, exec (.perstAssert p) s = .next t ∧ stopped t ∧ (portOf t p).asqEntries = 0 ∧ (portOf t p).msix = [] ∧ (portOf t p).perst = true ∧
      (portOf t p).linkUp = false) ∧
    ((portOf s p).linkUp = true →
      ∃ t, exec (.surpriseDown p) s = .next t ∧ stopped t ∧ (portOf t p).linkUp = false ∧ (portOf t p).msix = (portOf s p).msix ∧
        (portOf t p).res.kind = (if (portOf s (otherPort p)).linkLost then 4 else 3) ∧
        ((portOf s (otherPort p)).linkLost = true → (portOf s (otherPort p)).resumptionPending = true → (portOf s (otherPort p)).res.kind = 3 →
          (portOf t (otherPort p)).res.kind = 4))

/-- R97, R98, R128: on a chip that owns the medium, a doorbell of a queue in the span of its ring is recorded; one of a DISABLED queue is ignored and counted; an
index not below the ring size is a host mistake, logged and left out. -/
def Obligations.DoorbellsAreRecordedOrRefused : Prop :=
  ∀ (s : State) (p : Port) (q : Nat) (v : Word) (c : Nat), quiet s → isOwner s = true →
    (∀ k, queueOf s p q = some k → v.toNat < k.sqEntries → v.toNat ≠ k.sqTail →
      sqWaiting k ≤ (v.toNat + k.sqEntries - k.sqHead) % k.sqEntries →
      ∃ t k', exec (.sqTailDoorbell p q v true c) s = .next t ∧ queueOf t p q = some k' ∧ k'.sqTail = v.toNat ∧ k'.sqHead = k.sqHead ∧ k'.st = k.st) ∧
    (∀ k, queueOf s p q = some k → v.toNat ≠ k.cqHead → inSpan k.cqEntries k.cqHead k.cqTail v.toNat = true → k.deleting = none →
      ∃ t k', exec (.cqHeadDoorbell p q v true c) s = .next t ∧ queueOf t p q = some k' ∧ k'.cqHead = v.toNat ∧ k'.cqTail = k.cqTail) ∧
    (queueOf s p q = none →
      ∃ t u, exec (.sqTailDoorbell p q v true c) s = .next t ∧ exec (.cqHeadDoorbell p q v true c) s = .next u ∧
        (portOf t p).unknownQueue = Nat.min 0xFFFF ((portOf s p).unknownQueue + 1) ∧ (portOf t p).queues = (portOf s p).queues ∧
        (portOf u p).unknownQueue = Nat.min 0xFFFF ((portOf s p).unknownQueue + 1) ∧ (portOf u p).queues = (portOf s p).queues) ∧
    (∀ k, queueOf s p q = some k → k.sqEntries ≤ v.toNat → v.toNat ≠ k.sqTail →
      ∃ t, exec (.sqTailDoorbell p q v true c) s = .next t ∧ queueOf t p q = some k ∧ t.errSeq = s.errSeq + 1 ∧ t.evSeq = s.evSeq + 1)

/-- R99, R100, R125: a service fetches as many entries as were read, up to BURST, the credits and the contexts left; an entry whose read faulted is refused with no CSN. -/
def Obligations.FetchTakesCreditAndContext : Prop :=
  ∀ (s : State) (p : Port) (c : Nat) (k : Queue) (x : PortSt), c ≤ s.now → selectQueue s p = some (k, x) →
    (∀ es : List (List Word), es ≠ [] →
      ∃ t, exec (.submissionFetch p es c) s = .next t ∧ t.ctxs.length = s.ctxs.length + Nat.min es.length (burstOf s p k) ∧ t.csnNext = s.csnNext) ∧
    (∀ kind, ∃ t d, exec (.entryFetchFault p kind c) s = .next t ∧ ctxOf t (freeCid s) = some d ∧ d.stage = .refused ∧ d.status = 0x1005 ∧ d.csn = 0 ∧
      t.csnNext = s.csnNext)

/-- R4, R101, R103: the next entry of an ACTIVE queue is refused without a CSN where a stage fails it, and else takes the next CSN; IDENTIFY and GET_LOG of
a FAILED part are served without one (R27). -/
def Obligations.AdmissionAssignsTheNextCsn : Prop :=
  ∀ (s : State) (p : Port) (q : Nat) (list : ListRead) (late : Bool) (c : Nat) (k : Queue) (d : Ctx), c ≤ s.now → queueOf s p q = some k →
    (fetchedCtxs s p q).head? = some d → ctxOf s d.cid = some d → k.st = .active → k.stopped = false → k.deleting = none → hostStopped s = false →
    (∀ v, judgeEntry s p q d.dw list late = some v →
      ∃ t e, exec (.admission p q list late c) s = .next t ∧ ctxOf t d.cid = some e ∧ e.stage = .refused ∧ e.status = v.status ∧ e.csn = d.csn ∧
        t.csnNext = s.csnNext) ∧
    (judgeEntry s p q d.dw list late = none → servedNow s q = true →
      ∃ t e, exec (.admission p q list late c) s = .next t ∧ ctxOf t d.cid = some e ∧ e.stage = .served ∧ e.csn = d.csn ∧ t.csnNext = s.csnNext) ∧
    (judgeEntry s p q d.dw list late = none → servedNow s q = false → (opensBlock s = true → mayReserve s = true) →
      ∃ t e, exec (.admission p q list late c) s = .next t ∧ ctxOf t d.cid = some e ∧ e.stage = .admitted ∧ e.csn = s.csnNext ∧
        t.csnNext = s.csnNext + 1 ∧ t.csnIssued = s.csnNext)

/-- R96, R109: the completion entry of a decided command that may post is written at the CQ's next index, and its context is released. -/
def Obligations.CompletionsArePosted : Prop :=
  ∀ (s : State) (cid c : Nat) (d : Ctx) (k : Queue), c ≤ s.now → ctxOf s cid = some d → queueOf s d.port d.queue = some k → mayPost s d = true →
    ∃ t more, exec (.completionPost cid c) s = .next t ∧ t.out = s.out ++ .words d.port (k.cqBase + 32 * k.cqTail) (completionWords d k) :: more ∧
      ctxOf t cid = none

/-- R114, R115, R119: a coalescing timer that has run out, by the COALESCE_TIME that its posting found, sends the message of its CQ; an unmasked vector sends its pending message; an enable of the event ring
with valid fields starts it at index 0 with phase 1 and a write of 0 stops it. -/
def Obligations.InterruptsAreSignalled : Prop :=
  ∀ (s : State) (p : Port),
    (∀ (q c f : Nat) (k : Queue), c ≤ s.now → queueOf s p q = some k → k.coalFrom = some f → k.unsignalled ≠ 0 → f + 100 * k.timerTime ≤ s.now →
      ∃ t k', exec (.coalesceTimerExpiry p q c) s = .next t ∧ queueOf t p q = some k' ∧ k'.unsignalled = 0 ∧ k'.coalFrom = none ∧
        ((portOf s p).msixEnable = true → vectorHeld (portOf s p) k.vector = false → t.out = s.out ++ [.msi p k.vector])) ∧
    (∀ (v : Nat) (e : MsixEntry), (portOf s p).msixEnable = true → (portOf s p).funcMask = false → (portOf s p).linkUp = true →
      (portOf s p).msix.find? (fun x => x.vector == v) = some e → (portOf s p).pba = [v] →
      ∃ t, exec (.msixUnmask p (some v)) s = .next t ∧ t.out = s.out ++ [.msi p v] ∧ (portOf t p).pba = []) ∧
    (∀ v : Word, bits v.toNat 31 31 = 1 → (portOf s p).ev.enable = false → 2 ≤ bits v.toNat 12 0 → bits v.toNat 12 0 ≤ s.kf.img.maxRing →
      (portOf s p).ev.base % 4096 = 0 → (portOf s p).enable = true →
      ∃ t, exec (.eventCtrlWrite p v) s = .next t ∧ (portOf t p).ev = { (portOf s p).ev with
        entries := bits v.toNat 12 0, vector := bits v.toNat 26 16, enable := true, head := 0, tail := 0, phase := true }) ∧
    (∀ v : Word, bits v.toNat 31 31 = 0 → (portOf s p).ev.enable = true →
      ∃ t, exec (.eventCtrlWrite p v) s = .next t ∧ (portOf t p).ev = { (portOf s p).ev with enable := false })

/-- R92, R93, R134, R142: CREATE_QUEUE makes its queue ACTIVE and returns its number; DELETE_QUEUE of a drained queue makes it DISABLED; an admitted RESTART_QUEUE makes
it RESTARTING; ACK_RESUMPTION of the log's generation clears the log, and of another returns 1. -/
def Obligations.QueueCommandsAct : Prop :=
  ∀ (s : State) (cid : Nat) (c : Ctx),
    (ctxIn s cid 0x84 = some c → readyFor s c = true → (portOf s c.port).resumptionPending = false →
      queueOf s c.port (bits (eCdw c.dw 0) 13 0) = none →
      ∃ t k, exec (.createQueue cid) s = .next t ∧ queueOf t c.port (bits (eCdw c.dw 0) 13 0) = some k ∧ k.st = .active ∧ k.sqBase = eLba c.dw ∧
        k.cqBase = eExtAddr c.dw ∧ k.phase = true ∧ k.sqTail = 0 ∧ k.cqTail = 0 ∧ endedWith t cid (w32 (bits (eCdw c.dw 0) 13 0)) 0) ∧
    (∀ k, ctxIn s cid 0x85 = some c → readyFor s c = true → queueOf s c.port (bits (eCdw c.dw 0) 13 0) = some k → k.deleting = some cid →
      queueCtxs s c.port (bits (eCdw c.dw 0) 13 0) = [] → unconsumed k = 0 → k.restart = none →
      restartUnposted s c.port (bits (eCdw c.dw 0) 13 0) = false →
      ∃ t, exec (.deleteQueue cid) s = .next t ∧ queueOf t c.port (bits (eCdw c.dw 0) 13 0) = none ∧ endedWith t cid 0 0) ∧
    (∀ (k : Queue) (r : Restart), ctxIn s cid 0x86 = some c → readyFor s c = true → queueOf s c.port (bits (eCdw c.dw 0) 13 0) = some k →
      k.restart = some r → r.cid = some cid →
      ∃ t k', exec (.restartQueue cid) s = .next t ∧ queueOf t c.port (bits (eCdw c.dw 0) 13 0) = some k' ∧ k'.st = .restarting ∧ k'.sqHead = k.sqHead) ∧
    (ctxIn s cid 0x87 = some c → (portOf s c.port).res.complete = true →
      ∃ t, exec (.ackResumption cid) s = .next t ∧
        (eCdw c.dw 0 + 2 ^ 32 * eCdw c.dw 1 = (portOf s c.port).res.generation →
          endedWith t cid 0 0 ∧ (portOf t c.port).resumptionPending = false ∧ (portOf t c.port).res.cmds = []) ∧
        (eCdw c.dw 0 + 2 ^ 32 * eCdw c.dw 1 ≠ (portOf s c.port).res.generation →
          endedWith t cid 1 0 ∧ portOf t c.port = portOf s c.port))

/-- R135, R136: a restart whose queue's earlier completions are posted makes the queue ACTIVE again: with CONTINUE where it stood, with DISCARD_ALL at the tail its admission
recorded; a failure after the freeze makes it FROZEN again. -/
def Obligations.RestartsEnd : Prop :=
  ∀ (s : State) (p : Port) (q : Nat) (k : Queue) (r : Restart), queueOf s p q = some k → k.restart = some r → k.st = .restarting → r.deleted = none →
    (queueCtxs s p q).all (fun c => c.stage == .fetched) = true → (∀ d ∈ queueCtxs s p q, r.cid ≠ some d.cid) →
    ∃ t k', exec (.queueRestartDone p q) s = .next t ∧ queueOf t p q = some k' ∧ k'.restart = none ∧
      (r.refrozen = true → k'.st = .frozen ∧ k'.sqHead = k.sqHead) ∧
      (r.refrozen = false → k'.st = .active ∧ k'.stopped = false) ∧
      (r.refrozen = false → r.option = 0 → k'.sqHead = k.sqHead ∧ fetchedCtxs t p q = fetchedCtxs s p q) ∧
      (r.refrozen = false → r.option = 1 → k'.sqHead = r.tail ∧ fetchedCtxs t p q = [])

/-- R14, R83, R85, R86: BAR0 reads of 4 bytes answer what the register holds and clear its RC fields, reads of another size answer zero and count in the
doorbell range; CSN_ISSUED_LO latches its high half; the admin queue registers take aligned 4-byte writes while the port is disabled and none while it is
enabled; BAR0 itself reads as a 64-bit window whose size leaves its low 25 bits alone. -/
def Obligations.PortRegistersReadAndWrite : Prop :=
  ∀ s : State, quiet s →
    (∀ p, ∃ t, exec (.csnIssuedLoRead p) s = .next t ∧ t.readData = lo32 s.csnIssued ∧ (portOf t p).csnHi = hi32 s.csnIssued ∧ t.csnIssued = s.csnIssued) ∧
    (∃ t, exec (.rcRegisterRead .portA (.window 0x03C) 4) s = .next t ∧ t.readData = pack [(s.portA.unknownQueue, 0), (s.portA.malformed, 16)] ∧
      t.portA.unknownQueue = 0 ∧ t.portA.malformed = 0) ∧
    (∃ t, exec (.rcRegisterRead .portA (.window 0x100000) 8) s = .next t ∧ t.readData = 0 ∧ t.portA.queues = s.portA.queues ∧
      t.portA.malformed = Nat.min 0xFFFF (s.portA.malformed + 1)) ∧
    (∀ v : Dword, s.kf.porst = false → s.kf.released = true →
      ∃ t u, exec (.registerWrite .portA (.bar0 false) v 4) s = .next t ∧ t.portA.bar0 % 2 ^ 25 = 0 ∧
        exec (.rcRegisterRead .portA (.bar0 false) 4) t = .next u ∧ u.readData.toNat = t.portA.bar0 % 2 ^ 32 + 4) ∧
    (∃ t, exec (.rcRegisterRead .portB (.window 0x018) 4) s = .next t ∧ t.readData = (reportedCond s).setWidth 32 ∧ t.portB = s.portB) ∧
    (∀ v : Dword, s.kf.porst = false → s.portA.enable = false →
      ∃ t, exec (.registerWrite .portA (.window 0x020) v 4) s = .next t ∧ t.portA.asqBase = s.portA.asqBase / 2 ^ 32 * 2 ^ 32 + v.toNat % 2 ^ 32) ∧
    (∀ v : Dword, s.kf.porst = false → s.portA.enable = true → exec (.registerWrite .portA (.window 0x020) v 4) s = .next s) ∧
    (∃ t, exec (.latchedPairLowRead .portB 0x1000008) s = .next t ∧ t.readData = lo32 s.ctr.snapAet ∧ t.portB.snapAetHi = hi32 s.ctr.snapAet)

/-- R126, R127, R158, R162, R163, R165: the data of a WRITE that adds up and passes the host crossing is staged, one unit a block, and a wrong length is kept as its failure, as is the entry at which a list of more than 64 ends early; a READ whose list adds up and whose units are resolved without
a failure delivers its blocks and returns the unwritten and recovered counts, a VERIFY delivers nothing, a COMPARE returns 0 and the index of the first block that differs; a failing unit decides the status. -/
def Obligations.HostDataCommandsAct : Prop :=
  ∀ (s : State) (cid : Nat) (c : Ctx),
    let ends (t : State) (st : Half) (r0 r1 : Word) : Prop :=
      ∃ d, ctxOf t cid = some d ∧ d.stage = .ended ∧ d.status = st ∧ d.result0 = r0 ∧ d.result1 = r1
    let fmt := nsFormat s (eNs c.dw)
    let settled := c.units.all unitResolved = true
    let w := unwrittenCount c
    let r := recoveredCount c
    (∀ bs, ctxIn s cid 0x01 = some c → c.held = false → c.fetchFail = none → c.staged = [] → fetchFits c.dw (.bytes bs) = true →
      (bs.length = expectedLen s c.dw → crossingFault fmt c.dw (writeUnits' fmt c.dw bs) = none →
        ∃ t, exec (.write cid (.bytes bs)) s = .next t ∧ ctxOf t cid = some { c with staged := writeUnits' fmt c.dw bs } ∧ t.map = s.map ∧
          t.health.hostWrittenUnits = s.health.hostWrittenUnits + eCount c.dw) ∧
      (bs.length ≠ expectedLen s c.dw →
        ∃ t d, exec (.write cid (.bytes bs)) s = .next t ∧ ctxOf t cid = some d ∧ d.staged = [] ∧
          d.fetchFail = some (0x1004, 0, Nat.min bs.length (expectedLen s c.dw), expectedLen s c.dw, bs.length))) ∧
    (∀ list bs, ctxIn s cid 0x01 = some c → c.held = false → c.fetchFail = none → c.staged = [] → fetchFits c.dw (.listed list bs none) = true →
      (listEnd c.dw (expectedLen s c.dw) list = none →
        crossingFault fmt c.dw (writeUnits' fmt c.dw (bs.take (expectedLen s c.dw))) = none →
        ∃ t, exec (.write cid (.listed list bs none)) s = .next t ∧ t.map = s.map ∧
          ctxOf t cid = some { c with staged := writeUnits' fmt c.dw (bs.take (expectedLen s c.dw)) }) ∧
      ∀ n st off d0 d1, listEnd c.dw (expectedLen s c.dw) list = some (n, st, off, d0, d1) →
        ∃ t d, exec (.write cid (.listed list bs none)) s = .next t ∧ ctxOf t cid = some d ∧ d.staged = [] ∧ d.fetchFail = some (st, 0, off, d0, d1)) ∧
    (∀ list, ctxIn s cid 0x02 = some c → judgeList c.dw (expectedLen s c.dw) 4 list = none → settled → readVerdict s c = none →
      ∃ t, exec (.read cid list) s = .next t ∧ ends t (readStatus c) (w32 w) (w32 r) ∧ t.map = s.map ∧
        t.out = (deliver s c.port (extentsOf c.dw list) ((readBlocks s c).flatMap (fun b => streamOfBlock fmt (chkStrip c.dw) b.2))).out) ∧
    (∀ list v, ctxIn s cid 0x02 = some c → judgeList c.dw (expectedLen s c.dw) 4 list = none → settled → readVerdict s c = some v →
      ∃ t, exec (.read cid list) s = .next t ∧ endedStatus t cid v.status ∧ t.map = s.map) ∧
    (ctxIn s cid 0x04 = some c → settled → readVerdict s c = none →
      ∃ t, exec (.verify cid) s = .next t ∧ ends t (readStatus c) (w32 w) (w32 r) ∧ t.out = s.out ∧ t.map = s.map) ∧
    (∀ bs, ctxIn s cid 0x05 = some c → c.stream = [] → fetchFits c.dw (.bytes bs) = true → bs.length = expectedLen s c.dw → settled → readVerdict s c = none →
      ∃ t, exec (.compare cid (.bytes bs)) s = .next t ∧ t.map = s.map ∧
        (firstDiffering fmt bs (readBlocks s c) 0 = none → ends t (readStatus c) 0 0xFFFFFFFF) ∧
        ∀ i, firstDiffering fmt bs (readBlocks s c) 0 = some i → ends t (readStatus c) 1 (w32 i))

/-- R106, R159, R161, R218: the first unit of a held FILL, of a fully staged write and of a COPY whose sources are read, takes the slot that its stream gives, and a write and a COPY are then held; a write whose data failed ends
with its failure. -/
def Obligations.HeldWritesTakeSlots : Prop :=
  ∀ (s : State) (cid cyc : Nat) (c : Ctx) (m : Madr), cyc ≤ s.now →
    let takes (s1 : State) (c : Ctx) (u : StagedUnit) (rest : List StagedUnit) : Prop :=
      let stream := unitStream s1 c u
      let s2 := if stream == .hostCoarse && u.lba % 256 == 0 then makeRoom s1 stream else s1
      needsSlot s1 u = true ∧ (∀ x ∈ rest, x.lba ≠ u.lba) ∧
      (placeSlot s2 stream (if stream == .hostCoarse then 2 else 1) 2 ⟨0, u.ns, u.lba, c.csn, eCount c.dw, u.block⟩).map (·.2) = some m
    let has (t : State) (lba : Nat) : Prop :=
      ∃ d x, ctxOf t cid = some d ∧ d.held = true ∧ d.stage = c.stage ∧ x ∈ d.staged ∧ x.lba = lba ∧ x.slot = some m
    (∀ u rest, ctxIn s cid 0x0A = some c → c.held = true → c.staged = u :: rest → takes s c u rest →
      ∃ t, exec (.fill cid) s = .next t ∧ has t u.lba) ∧
    (∀ u rest, ctxOf s cid = some c → pendingWrite c = true → c.status = 0 → eOpcode c.dw ≠ 0x08 → admissionStands s c = true →
      s.jrnl.stopFrom = none → c.fetchFail = none → c.staged = u :: rest → c.staged.any (·.lost) = false → c.staged.length = eCount c.dw → takes (updCtx s cid (fun c => { c with held := true })) c u rest →
      ∃ t, exec (.writeHeld cid cyc) s = .next t ∧ has t u.lba) ∧
    (∀ u rest, ctxIn s cid 0x0C = some c → c.held = false → c.staged.any (·.lost) = false → c.units.all unitResolved = true → readVerdict s c = none → copyUnits s c = u :: rest →
      takes (updCtx s cid (fun c => { c with staged := u :: rest, held := true })) { c with staged := u :: rest, held := true } u rest →
      ∃ t, exec (.copy cid) s = .next t ∧ has t u.lba) ∧
    (∀ st lba off d0 d1, ctxOf s cid = some c → pendingWrite c = true → c.status = 0 → eOpcode c.dw ≠ 0x08 → admissionStands s c = true → s.jrnl.stopFrom = none →
      c.fetchFail = some (st, lba, off, d0, d1) →
      ∃ t, exec (.writeHeld cid cyc) s = .next t ∧ (∃ d, ctxOf t cid = some d ∧ d.status = st ∧ d.staged = [] ∧ d.promised = 0) ∧ t.map = s.map)

/-- R106, R160, R226: a DEALLOCATE, and a held write whose slots are all DONE, that no earlier overlapping command holds back, asks the map entry arbiter for its update once. -/
def Obligations.CommitsAskForTheirUpdate : Prop :=
  ∀ (s : State) (cid : Nat) (c : Ctx), mayCommit s c = true →
    let asked (t : State) : Prop :=
      t.eng.reqs = s.eng.reqs ++ [writeReq s c] ∧ ctxOf t cid = some { c with mapAsked := true } ∧ t.map = s.map
    (ctxIn s cid 0x08 = some c → ∃ t, exec (.deallocate cid) s = .next t ∧ asked t) ∧
    (ctxOf s cid = some c → s.jrnl.stopFrom = none → (eOpcode c.dw = 0x0C → mirroring s = true → c.awaitAck.isSome = true) →
      c.awaitAck.all (acked s) = true → ∃ t, exec (.writeCommit cid) s = .next t ∧ asked t)

/-- R205, R206, R207: the one update that waits, once its copies are programmed and the tier has room, is granted: a host command's record is journalled and applied without compare and the command is performed; a maintenance update one of whose
units has moved on changes nothing of the map. -/
def Obligations.UpdatesAreGranted : Prop :=
  ∀ (s : State) (r : MapReq), s.jrnl.stopFrom = none → s.eng.reqs = [r] → reqReady s r = true → reqDead s r = false →
    (∀ (cid : Nat) (c : Ctx), r.who = 0 → r.cid = some cid → ctxOf s cid = some c →
      let body := if eOpcode c.dw == 0x08 then JRec.dealloc c.csn r.ns (eLba c.dw) (eCount c.dw)
        else JRec.map c.csn 0 r.ns (gatherRuns s.map (r.ents.map (fun e => (e.1, e.2.2))) none)
      ∃ t, exec .mapUpdate s = .next t ∧ t.eng.reqs = [] ∧ t.map = applyRec s.map s.jrnl.nextSeq body ∧
        t.jrnl.recs = s.jrnl.recs ++ [⟨s.jrnl.nextSeq, body, !mirroring s, false⟩] ∧
        ∃ d, ctxOf t cid = some d ∧ d.stage = .ended ∧ d.status = (copyResults c).2.2 ∧ d.promised = 0) ∧
    (r.who ≠ 0 → r.who ≠ 6 → r.whole = none → r.ents.all (stillAt s.map r.ns) = false →
      ∃ t, exec .mapUpdate s = .next t ∧ t.eng.reqs = [] ∧ t.map = s.map ∧ t.jrnl = s.jrnl)

/-- R107, R203, R209: a waiting unit of an admitted command is served from the held write that governs it, and else resolved through the map, a written one with a read pin on its block; a dirty tile whose stream gives a slot is written there and its
home asked for; a tile that only the medium holds is pinned on its home block in the lookup's own turn. -/
def Obligations.LookupsResolveAndTilesAreWrittenBack : Prop :=
  ∀ s : State,
    (∀ (cid lba : Nat) (image : List Byte) (c : Ctx) (u : UnitRead), ctxOf s cid = some c → c.stage = .admitted →
      c.units.find? (fun u => u.lba == lba && u.st == .waiting) = some u →
      let isNow (t : State) (st : UnitSt) : Prop := ∃ d x, ctxOf t cid = some d ∧ x ∈ d.units ∧ x.ns = u.ns ∧ x.lba = lba ∧ x.st = st
      (∀ g, governing s c.csn u.ns lba = some g → g.held = true → servedLost g u.ns lba = false →
        ∃ t, exec (.mapLookup (.command cid lba) image) s = .next t ∧ isNow t (servedBy g u.ns lba) ∧ t.eng = s.eng) ∧
      (governing s c.csn u.ns lba = none → (lookupPath s u.ns (lba / 256) (lba % 256) image).2.isSome = true →
        ∃ t, exec (.mapLookup (.command cid lba) image) s = .next t ∧ t.map = s.map ∧
          (unitAt s.map u.ns lba = .unwritten → isNow t .unwritten) ∧ (unitAt s.map u.ns lba = .lost → isNow t .lost) ∧
          ∀ m, unitAt s.map u.ns lba = .at_ m → pinRoom s m = true → isNow t (.medium m) ∧ ∃ p ∈ t.eng.pins, p.1 = blockOf m ∧ 0 < p.2)) ∧
    (∀ (ns seg : Nat) (ti : Tile) (s' : State) (a : Madr), segOf s.map ns seg = some (.fine ti) → ti.dirtySince.isSome = true → segAsked s ns seg = false →
      s.jrnl.stopFrom = none →
      placeSlot s .map 3 1 ⟨0, ns, seg, 0, 0, some ⟨tileImage ns seg ti, zeros 48, 0, 0, 0⟩⟩ = some (s', a) →
      ∃ t, exec (.tileWriteback ns seg) s = .next t ∧ t.map = s.map ∧
        t.eng.reqs = s.eng.reqs ++ [⟨7, s.now, none, ns, [], some (seg, .inr ti.generation, a), s.jrnl.nextSeq - 1⟩]) ∧
    (∀ (ns seg : Nat) (ti : Tile) (home : Madr) (image : List Byte), segOf s.map ns seg = some (.fine ti) → tileSource s ns seg ti = .medium home →
      probe s.eng (cacheKey ns seg 0) true = none → probe s.eng (cacheKey ns seg 0) false = none →
      tierRoom s ns seg = true → pinRoom s home = true →
      ∃ t, exec (.mapLookup (.tile ns seg) image) s = .next t ∧ t.map = s.map ∧ (ns, seg, home) ∈ t.eng.tileReads)

/-- R174, R176: a SET_FEATURE of a device-wide feature that is due puts its values in force and ends with success: POWER_TIMERS, PATROL_CYCLE, THERMAL_LIMITS, JOURNAL_INTERVAL,
REBUILD_SHARE and HORIZON_MINIMUM at once, CADENCE_PLAN as the plan that waits for its tick (R68). -/
def Obligations.DeviceFeaturesTakeEffect : Prop :=
  ∀ (s : State) (cid : Nat) (c : Ctx), eMode c.dw ≠ 2 →
    (featureDue s cid 0x01 c →
      ∃ t, exec (.setPowerTimers cid) s = .next t ∧ endedWith t cid 0 0 ∧
        t.feat = { s.feat with
          t1 := bits (eCdw c.dw 1) 15 0, t2 := bits (eCdw c.dw 1) 31 16, t3 := bits (eCdw c.dw 2) 15 0, t4 := bits (eCdw c.dw 2) 31 16 }) ∧
    (featureDue s cid 0x02 c →
      ∃ t, exec (.setCadencePlan cid) s = .next t ∧ endedWith t cid 0 0 ∧ t.cad = { s.cad with
        pendingPlan := some ⟨bits (eCdw c.dw 1) 8 0, bits (eCdw c.dw 1) 22 16, BitVec.ofNat 64 (eCdw c.dw 2 + 2 ^ 32 * eCdw c.dw 3)⟩ }) ∧
    (featureDue s cid 0x03 c →
      ∃ t, exec (.setPatrolCycle cid) s = .next t ∧ endedWith t cid 0 0 ∧ t.feat = { s.feat with patrolDays := eCdw c.dw 1 }) ∧
    (featureDue s cid 0x04 c →
      ∃ t, exec (.setThermalLimits cid) s = .next t ∧ endedWith t cid 0 0 ∧
        t.feat = { s.feat with throttlePoint := bits (eCdw c.dw 1) 7 0, throttleHyst := bits (eCdw c.dw 1) 15 8 }) ∧
    (featureDue s cid 0x0A c →
      ∃ t, exec (.setJournalInterval cid) s = .next t ∧ endedWith t cid 0 0 ∧ t.feat = { s.feat with journalTicks := eCdw c.dw 1 } ∧
        t.cad.journalTicks = eCdw c.dw 1 ∧ (s.cad.journalDue ≤ nowT s → t.cad.journalDue = s.cad.journalDue) ∧
        (nowT s < s.cad.journalDue → nowT s < t.cad.journalDue ∧ t.cad.journalDue % Nat.max (eCdw c.dw 1) 1 = 0)) ∧
    (featureDue s cid 0x0B c →
      ∃ t, exec (.setRebuildShare cid) s = .next t ∧ endedWith t cid 0 0 ∧ t.feat = { s.feat with rebuildShare := eCdw c.dw 1 }) ∧
    (featureDue s cid 0x0C c →
      ∃ t, exec (.setHorizonMinimum cid) s = .next t ∧ endedWith t cid 0 0 ∧ t.feat = { s.feat with horizonMin := eCdw c.dw 1 })

/-- R174, R176, R177: a per-port feature that is due changes its own port alone: HOST_MAP_REGION (a list of 2 MiB chunks within the limit of both ports), INTERRUPT_COALESCING of a
queue, ARBITRATION, ONION_SHELF and EVENT_MASK. -/
def Obligations.PortFeaturesTakeEffect : Prop :=
  ∀ (s : State) (cid : Nat) (c : Ctx), eMode c.dw ≠ 2 →
    let q := bits (eCdw c.dw 1) 13 0
    (∀ chunks, featureDue s cid 0x05 c → chunks.length = eCdw c.dw 1 →
      chunks.length + (portOf s (otherPort c.port)).hostMap.length ≤ 131072 → (∀ a ∈ chunks, a % 2097152 = 0) →
      ∃ t, exec (.setHostMapRegion cid chunks) s = .next t ∧ endedWith t cid 0 0 ∧ (portOf t c.port).hostMap = chunks ∧ (portOf t c.port).hostMapAddr = eLba c.dw ∧
        portOf t (otherPort c.port) = portOf s (otherPort c.port)) ∧
    (∀ k, featureDue s cid 0x06 c → queueOf s c.port q = some k → judge520 s c.port c.dw = none →
      ∃ t, exec (.setInterruptCoalescing cid) s = .next t ∧ endedWith t cid 0 0 ∧
        queueOf t c.port q = some { k with coalCount := bits (eCdw c.dw 2) 7 0, coalTime := bits (eCdw c.dw 2) 23 8 } ∧
        portOf t (otherPort c.port) = portOf s (otherPort c.port)) ∧
    (featureDue s cid 0x07 c →
      ∃ t, exec (.setArbitration cid) s = .next t ∧ endedWith t cid 0 0 ∧ portOf t c.port = { portOf s c.port with
        arbHigh := bits (eCdw c.dw 1) 7 0, arbMedium := bits (eCdw c.dw 1) 15 8, arbLow := bits (eCdw c.dw 1) 23 16, arbBurst := bits (eCdw c.dw 1) 31 24 } ∧
        portOf t (otherPort c.port) = portOf s (otherPort c.port)) ∧
    (featureDue s cid 0x08 c →
      ∃ t, exec (.setOnionShelf cid) s = .next t ∧ endedWith t cid 0 0 ∧
        (portOf t c.port).shelf = (if eCdw c.dw 1 = 0 then none else some ⟨eLba c.dw, eCdw c.dw 1⟩) ∧
        (portOf t (otherPort c.port)).shelf = (portOf s (otherPort c.port)).shelf) ∧
    (featureDue s cid 0x09 c →
      ∃ t, exec (.setEventMask cid) s = .next t ∧ endedWith t cid 0 0 ∧
        portOf t c.port = { portOf s c.port with eventMask := w32 (eCdw c.dw 1) } ∧ portOf t (otherPort c.port) = portOf s (otherPort c.port))

/-- R61, R174, R175: ARCHIVE_TIME submits its AET set and waits for it; USER_CALIBRATION writes a new overlay with its item; MODE 1 saves a value and MODE 2 only
forgets it; GET_FEATURE answers VALUE0 and VALUE1 of the value that SELECT names, and the 32-byte record where asked. -/
def Obligations.FeaturesAreSavedAndAnswered : Prop :=
  ∀ (s : State) (cid : Nat) (c : Ctx),
    (featureDue s cid 0x0D c → s.cad.pendingSet = none → s.cad.replaced = [] →
      ∃ t, exec (.setArchiveTime cid) s = .next t ∧ ctxOf t cid = some c ∧ t.cad = { s.cad with
        pendingSet := some ⟨eCdw c.dw 1 + 2 ^ 32 * eCdw c.dw 2, bits (eCdw c.dw 3) 0 0 == 1, some cid⟩ }) ∧
    (keeperIn s cid 0x83 = some c → eFeature c.dw = 0x0E →
      ∃ t, exec (.setUserCalibration cid) s = .next t ∧ endedWith t cid 0 0 ∧ t.kf.ovlSeq = s.kf.ovlSeq + 1 ∧
        t.kf.overlay = putItem (eCdw c.dw 1) (int32 (eCdw c.dw 2)) s.kf.overlay ∧ t.kf.effective = s.kf.effective) ∧
    (featureDue s cid 0x0B c → eMode c.dw = 1 →
      ∃ t, exec (.setRebuildShare cid) s = .next t ∧ savedOf t 0 0x0B = some [w32 (eCdw c.dw 1), w32 (eCdw c.dw 2), w32 (eCdw c.dw 3)]) ∧
    (featureDue s cid 0x0B c → eMode c.dw = 2 →
      ∃ t, exec (.setRebuildShare cid) s = .next t ∧ endedWith t cid 0 0 ∧ savedOf t 0 0x0B = none ∧ t.feat = s.feat) ∧
    (ctxIn s cid 0x82 = some c →
      let v := selectedVal s c.port (eFeature c.dw) (eCdw c.dw 1) (eMode c.dw)
      (eExtLen c.dw ≠ 32 → ∃ t, exec (.getFeature cid) s = .next t ∧ endedWith t cid (w32 v.2.1) (w32 v.2.2.1) ∧ t.out = s.out) ∧
      (eExtLen c.dw = 32 → keeperHalted s = false →
        ∃ t, exec (.getFeature cid) s = .next t ∧ endedWith t cid (w32 v.2.1) (w32 v.2.2.1) ∧
          t.out = s.out ++ [.bytes c.port (eExtAddr c.dw)
            (featureRecord v (savedOf s (featureScope (eFeature c.dw) c.port) (eFeature c.dw)).isSome)]))

/-- R180, R181, R199: on a chip that mirrors to no partner, not sealed, a NAMESPACE_CREATE whose segments are free makes its namespace ready with its directory blocks and returns its NSID, and a NAMESPACE_DELETE with no earlier command
left that names the namespace removes it with its segments; each leaves the other namespaces. -/
def Obligations.NamespacesComeAndGo : Prop :=
  ∀ (s : State) (cid : Nat) (c : Ctx), c.stage = .admitted → readyFor s c = true → mirroring s = false → s.jrnl.stopFrom = none → c.mapAsked = false →
    let n := bits (eCdw c.dw 0) 7 0
    (ctxIn s cid 0x8C = some c → sealedSet s = false → allocatedSegments s - eCdw c.dw 1 + eCdw c.dw 1 ≤ userSegments s →
      ∃ t, exec (.namespaceCreate cid) s = .next t ∧ endedWith t cid (w32 n) 0 ∧
        nsOf t n = some ⟨n, .ready, bits (eCdw c.dw 0) 9 8, bits (eCdw c.dw 0) 12 12 == 1, eCdw c.dw 1, s.cad.aet,
          freeDirs s.map (ceilDiv (eCdw c.dw 1) 8192)⟩ ∧
        (∀ m, m ≠ n → nsOf t m = nsOf s m) ∧ t.map.segs = s.map.segs) ∧
    (ctxIn s cid 0x8D = some c → sealedSet s = false → (∀ x ∈ s.ctxs, x.stage = .admitted → x.csn < c.csn → namesNamespace x.dw n = false) →
      ∃ t, exec (.namespaceDelete cid) s = .next t ∧ endedWith t cid 0 0 ∧ nsOf t n = none ∧ t.map.segs = s.map.segs.filter (fun x => x.ns != n) ∧
        ∀ m, m ≠ n → nsOf t m = nsOf s m)

/-- R126, R171, R172, R496: IDENTIFY and GET_LOG whose list adds up deliver their structure or the piece of their log and end with success; GET_LOG 0x02 of an admitted command waits for the log to be
complete, and GET_LOG 0x08 first triggers a snapshot and waits for it. -/
def Obligations.StructuresAndLogsAreDelivered : Prop :=
  ∀ (s : State) (cid : Nat) (c : Ctx) (list : ListRead), judgeList c.dw (expectedLen s c.dw) 4 list = none → keeperHalted s = false →
    (ctxIn s cid 0x80 = some c →
      ∃ t, exec (.identify cid list) s = .next t ∧ endedWith t cid 0 0 ∧
        t.out = (deliver s c.port (extentsOf c.dw list) (identifyBytes s (bits (eCdw c.dw 0) 7 0) (bits (eCdw c.dw 0) 15 8))).out) ∧
    (ctxIn s cid 0x81 = some c → (eLogId c.dw = 2 → c.stage = .served ∨ (portOf s c.port).res.complete = true) →
      (eLogId c.dw = 8 → s.ctr.logReady.contains cid = true) →
      let whole := logBytes s c.port (eLogId c.dw) (eLogQueue c.dw)
      ∃ t, exec (.getLog cid list) s = .next t ∧ endedWith t cid (lo32 whole.length) (hi32 whole.length) ∧
        t.out = (deliver s c.port (extentsOf c.dw list) (padTo (eCdw c.dw 1) ((whole.drop (eLba c.dw)).take (eCdw c.dw 1)))).out) ∧
    (ctxIn s cid 0x81 = some c → eLogId c.dw = 2 → c.stage = .admitted → (portOf s c.port).res.complete = false →
      exec (.getLog cid list) s = .next s) ∧
    (ctxIn s cid 0x81 = some c → eLogId c.dw = 8 → s.ctr.logReady.contains cid = false → (∀ w ∈ s.ctr.logWaiters, w.1 ≠ cid) →
      ∃ t, exec (.getLog cid list) s = .next t ∧ ctxOf t cid = some c ∧ t.out = s.out ∧
        t.ctr.logWaiters = s.ctr.logWaiters ++ [(cid, if s.ctr.collecting.isSome then 2 else 1)])

/-- R183, R324, R356: REBUILD_CONTROL START makes REBUILD 1, or 4 where no set has a host, and STOP 3 once the rebuild's issued operations have ended; PATROL_CONTROL pauses for HOURS, resumes, and restarts
every profile's cycle late; a pause whose HOURS have passed ends by itself. -/
def Obligations.RebuildAndPatrolAreControlled : Prop :=
  ∀ (s : State) (cid : Nat) (c : Ctx),
    (actionIn s cid 0x91 0 = some c → actionAllowed s c.dw = true → rebuildIssued s = false →
      ∃ t, exec (.rebuildStop cid) s = .next t ∧ endedWith t cid 0 0 ∧ t.media.rebuild = 3) ∧
    (actionIn s cid 0x91 1 = some c → s.media.rebuild = 3 →
      ∃ t, exec (.rebuildStart cid) s = .next t ∧ endedWith t cid 0 0 ∧ t.media.rebuild = if someHost s then 1 else 4) ∧
    (actionIn s cid 0x93 0 = some c →
      ∃ t, exec (.patrolPause cid) s = .next t ∧ endedWith t cid 0 0 ∧
        t.media = { s.media with patrolPause := some (aetSec s.cad.aet + 3600 * bits (eCdw c.dw 0) 23 16) }) ∧
    (actionIn s cid 0x93 1 = some c →
      ∃ t, exec (.patrolResume cid) s = .next t ∧ endedWith t cid 0 0 ∧ t.media = { s.media with patrolPause := none }) ∧
    (actionIn s cid 0x93 2 = some c →
      ∃ t, exec (.patrolRestartCycle cid) s = .next t ∧ endedWith t cid 0 0 ∧ t.media.patrolPause = none ∧
        ∀ p ∈ profileNums s, (memberBays s p).isEmpty = false → (profSt t p).patrolLate = true ∧ (profSt t p).patrolDone = []) ∧
    (∀ cyc u, s.media.patrolPause = some u → u ≤ aetSec s.cad.aet →
      ∃ t, exec (.patrolPauseExpiry cyc) s = .next t ∧ t.media = { s.media with patrolPause := none })

/-- R219, R224, R230, R231, R232, R278: a stream's new set takes the next block sequence number, the profile of R278 and its blocks, and is journalled; a page that fills for 10 microseconds is programmed with the slots it has and stamped with its write epoch; a row incomplete for
64 ticks is completed with its parity; a row whose pages all pass their verify reads is settled; a page whose codeword 0 is not within the limit is read whole, and one that then fails closes its set for REFRESH to move and marks the block. -/
def Obligations.OpenSetsTakeAndSettleRows : Prop :=
  ∀ s : State, s.jrnl.stopFrom = none →
    (∀ stream p f, streamProfile s stream = some p → profileOf s p = some f →
      let cols := let bs := (setBays s p f stream).filterMap (fun b => pickBlock s f b (fun _ => true)); (List.range bs.length).zip bs
      let body := JRec.setOpen (s.media.blockSeqHigh + 1) stream p cols.length f.p f.stripeUnit (profileRows f) s.cad.aet cols
      ∃ t, exec (.setOpen stream) s = .next t ∧ t.media.blockSeqHigh = s.media.blockSeqHigh + 1 ∧ t.map = applyRec s.map s.jrnl.nextSeq body ∧
        t.jrnl.recs = s.jrnl.recs ++ [⟨s.jrnl.nextSeq, body, !mirroring s, false⟩] ∧
        ∃ k ∈ t.map.sets, k.seq = s.media.blockSeqHigh + 1 ∧ k.stream = stream ∧ k.profile = p ∧ k.cols = cols ∧ k.closed = false) ∧
    (∀ page cyc p k o r, cyc ≤ s.now → pageRecOf s page = some p → setAt s.map page = some k → openOf s k.seq = some o →
      o.rows.find? (fun r => r.row == p.row) = some r → p.st = .assigned → p.slots ≠ [] → pageWaits s p.addr = false →
      r.since + 10000 ≤ s.now →
      ∃ t q, exec (.pageProgramTimeout page cyc) s = .next t ∧ pageRecOf t page = some q ∧ q.st = .programming ∧
        q.epoch = aetSec s.cad.aet % 2 ^ 40) ∧
    (∀ seq row k o r, setOf s seq = some k → openOf s seq = some o → o.rows.find? (fun r => r.row == row) = some r → r.parityIssued = false →
      (∀ c ∈ s.ctxs, c.staged.any (·.lost) = false) → r.sinceT + 64 ≤ tIndex s.cad.tps s.cad.aet →
      ∃ t o', exec (.rowPadTimeout seq row) s = .next t ∧ openOf t seq = some o' ∧
        ∃ x ∈ o'.rows, x.row = row ∧ x.next = rowSlots k ∧ x.parityIssued = true) ∧
    (∀ seq row k o r, setOf s seq = some k → openOf s seq = some o → o.rows.find? (fun r => r.row == row) = some r →
      let limit := ((profileOf s k.profile).map (·.verifyLimit)).getD 0
      (∀ reads, r.settled = false → rowDone s k row = true → pairDone s k row = true → (∀ v ∈ reads, verifyFails limit v = false) →
        (∀ a ∈ verifyPages s k row, ∃ v ∈ reads, v.page = a ∧ verifyPasses limit v = true) →
        ∃ t, exec (.verifyReadDone seq row reads) s = .next t ∧
          (openOf t seq = none ∨ ∃ o' x, openOf t seq = some o' ∧ x ∈ o'.rows ∧ x.row = row ∧ x.settled = true)) ∧
      (∀ v, v.page ∈ verifyPages s k row → verifyFails limit v = true →
        (k.firstAbandoned.any (fun a => decide (row < a)) && pageRebuilds s k row v.page) = false →
        ∃ t, exec (.verifyReadDone seq row [v]) s = .next t ∧ t.media.verifyFails = s.media.verifyFails ++ [blockOf v.page] ∧
          (∃ k', setOf t seq = some k' ∧ k'.closed = true) ∧ ∃ x ∈ t.media.refresh, x.seq = seq ∧ 3 ≤ x.severity) ∧
      (∀ v, v.page ∈ verifyPages s k row → inLimit limit v.first = false → v.whole = [] →
        ((dieStOf s (dieOf v.page)).map (·.failed)).getD false = false → ((bayOf s v.page.bay).map (·.connected)).getD false = true →
        ∃ t, exec (.verifyReadDone seq row [v]) s = .next t ∧ anyOp t (fun o => o.page == v.page && o.who == 8 && o.whole) = true))

/-- R37, R72, R234, R288, R294, R300, R302, R304, R359: a host read suspends a program or erase that has run its minimum, with sequence 6, and sequence 7 lets it run on; an erase that ends DONE leaves its block ERASED with one cycle more and no pages, and its window, or the next one where its tick has fallen, is charged the measured busy time; a program that ends marks its page;
a sample is kept; a page that is wanted gets a ladder and its read; an accepted candidate resolves its waiting units and ends the ladder, a failed one takes it to its next rung, and a page that rung 5 cannot recover gets the second ladder. -/
def Obligations.DieOperationsAndLaddersRun : Prop :=
  ∀ s : State, s.jrnl.stopFrom = none →
    (∀ die cyc d op r, cyc ≤ s.now → dieStOf s die = some d → d.op = some op → d.queue.find? (fun o => o.who == 0) = some r →
      (op.seqNo = 3 ∨ op.seqNo = 4) → d.suspends < 4 → op.issued + 1000 * ((bayProfile s die.bay).map (·.suspendMin)).getD 0 ≤ s.now →
      ∃ t e, exec (.readSuspend die cyc) s = .next t ∧ dieStOf t die = some e ∧ e.op = some (suspendOp op) ∧ e.suspended = some op ∧
        e.queue = d.queue ∧ e.suspends = d.suspends + 1) ∧
    (∀ die waits statuses busy raw d op, dieStOf s die = some d → d.op = some op →
      let outcome := outcomeOf s die op waits statuses
      (∀ o, op.seqNo = 7 → outcome = .done → d.suspended = some o →
        ∃ t e, exec (.sequenceEnd die waits statuses busy raw) s = .next t ∧ dieStOf t die = some e ∧ e.op = some { o with issued := s.now } ∧
          e.suspended = none) ∧
      (op.seqNo = 4 → outcome = .done → reservedAt s op.page = false →
        ∃ t, exec (.sequenceEnd die waits statuses busy raw) s = .next t ∧ (blkOf t op.page).st = .erased ∧
        (blkOf t op.page).pe = (blkOf s op.page).pe + 1 ∧ (∀ p ∈ t.media.pages, blockOf p.addr ≠ blockOf op.page) ∧
        ∀ x, op.typical = some x →
          (s.cad.windowDue = none → t.cad.charged = s.cad.charged + (busy : Int) - (x : Int)) ∧
          (s.cad.windowDue.isSome = true → t.cad.charged = s.cad.charged ∧ t.cad.chargedNext = s.cad.chargedNext + (busy : Int) - (x : Int))) ∧
      (∀ p, op.seqNo = 3 → pageRecOf s op.page = some p →
        (outcome = .done → (∀ k ∈ s.map.sets, k.closed = true ∨ p.addr.page < 1 + k.rows * k.stripeUnit) →
          ∃ t q, exec (.sequenceEnd die waits statuses busy raw) s = .next t ∧ pageRecOf t op.page = some q ∧ q.st = .done) ∧
        (outcome = .statusFail → ∃ t, exec (.sequenceEnd die waits statuses busy raw) s = .next t ∧ t.health.programFails = s.health.programFails + 1)) ∧
      (∀ f, op.seqNo = 8 → outcome = .done → bayProfile s die.bay = some f →
        ∃ t e, exec (.sequenceEnd die waits statuses busy raw) s = .next t ∧ dieStOf t die = some e ∧ e.sample = some (s.now, dieTemp f raw))) ∧
    (∀ page cyc, cyc ≤ s.now →
      (∀ p, ladderOf s page = none → pageRecOf s page = some p → wantedBy s p ≠ [] →
        ∃ t, exec (.mediumReadIssue page cyc) s = .next t ∧ ∃ l ∈ t.media.ladders, l.page = p.addr ∧ l.rung = (if pageDown s p.addr then 5 else 0) ∧
          l.carried = readerSlots (wantedBy s p)) ∧
      (∀ l, ladderOf s page = some l → l.rung ≠ 5 → ((dieStOf s (dieOf page)).map (·.failed)).getD false = false →
        ((bayOf s page.bay).map (·.connected)).getD false = true →
        ∃ t, exec (.mediumReadIssue page cyc) s = .next t ∧ anyOp t (fun o => o.page == l.page && o.seqNo == 2) = true)) ∧
    (∀ page n r l p er, ladderOf s page = some l → pageRecOf s page = some p → l.carried = [n] →
      (∀ content same corr b, l.rung ≠ 5 → candidateOf p n r = some (content, same, corr) → judge s p n content same = .ok (some b) →
        ∃ t, exec (.decodeDone page [(n, r)] er) s = .next t ∧ ladderOf t page = none ∧
          ∀ c ∈ t.ctxs, ∀ u ∈ c.units, u.st ≠ .medium { p.addr with slot := n }) ∧
      (∀ g e, l.rung ≠ 5 → candidateOf p n r = none → nextRung s p l.rung l.entry = some (g, e) →
        ∃ t, exec (.decodeDone page [(n, r)] er) s = .next t ∧ ladderOf t page = some { l with rung := g, entry := e }) ∧
      (l.rung = 5 → l.second = false → (setAt s.map p.addr).bind (fun k => recoverPage s k p er) = none →
        ∃ t l', exec (.decodeDone page [(n, r)] er) s = .next t ∧ ladderOf t page = some l' ∧ l'.second = true ∧ l'.carried = [n]))

/-- R76, R312, R314, R315, R319, R320, R329, R330: in a minute with a sample of its own the thermal clock of a bay gains by its highest temperature and a powered minute is counted; at an hour each bay's clock is logged; with AET not valid 600 s after NOT_READY cleared UNPOWERED_S is all ones and every set is at risk; a patrol
cycle starts at its grid point with the list of R320, late where the point has passed. -/
def Obligations.RetentionIsWatched : Prop :=
  ∀ s : State, notReady s = false →
    (aetSec s.cad.aet / 60 ≠ s.media.lastMinute →
      ∃ t, exec (.thermalClockMinute []) s = .next t ∧ t.media.lastMinute = aetSec s.cad.aet / 60 ∧ t.health.onMinutes = s.health.onMinutes + 1 ∧
        ∀ b f x, b ∈ clockedBays s → s.media.bays.filter (fun x => x.bay == b.bay) = [b] → bayProfile s b.bay = some f → b.minuteTemp = some x →
          ∃ y, bayOf t b.bay = some y ∧ y.tc = b.tc + minuteGain f x ∧ y.minuteTemp = none) ∧
    (aetSec s.cad.aet / 3600 ≠ s.media.lastHour →
      ∃ t, exec .hourlyModelUpdate s = .next t ∧ t.media.lastHour = aetSec s.cad.aet / 3600 ∧
        ∀ b ∈ clockedBays s, b.uid ≠ 0 → (clockedBays s).filter (fun x => x.uid == b.uid) = [b] →
          (thermLog t b.uid).head? = some (aetSec s.cad.aet, b.tc)) ∧
    (∀ cyc c, cyc ≤ s.now → s.media.readyAt = some c → s.cad.aetValid = false → c + 600000000000 ≤ s.now →
      ∃ t, exec (.aetWaitTimeout cyc) s = .next t ∧ t.media.unpowered = 0xFFFFFFFFFFFFFFFF ∧
        (liveSets s ≠ [] → s.media.swept = [] → failedSet s = false → t.media.atRisk = (liveSets s).map (·.seq) ∧ flag t.cond bReduced = true)) ∧
    (∀ p f, profileOf s p = some f → memberBays s p ≠ [] → (profSt s p).patrolOn = false → (profSt s p).patrolNext ≤ aetSec s.cad.aet →
      ∃ t, exec (.patrolCycleStart p) s = .next t ∧ (profSt t p).patrolList = patrolOrder s p ∧
        (profSt t p).patrolLate = decide ((profSt s p).patrolNext < aetSec s.cad.aet) ∧
        (profSt t p).patrolNext = nextDue (aetSec s.cad.aet) (3600 * cycleHours s p))

/-- R250, R273, R275, R281, R282, R283, R326: RECLAIM and RESERVE_RECLAIM run as R273 says and RECLAIM claims the victim of R275; REFRESH claims every set of severity 3 that no agent holds; a claim on a closed set is judged by Table 11-4; a pre-empted claim passes when its holder's last operation has ended; a set that may be
released loses its claims and its blocks are released; a released block's erase waits for its draw, or RETIRED where it failed a program. -/
def Obligations.AgentsClaimAndFreeSets : Prop :=
  ∀ s : State,
    (∀ p f, profileOf s p = some f → notReady s = false → s.jrnl.stopFrom = none →
      (∃ t, exec (.reclaimStart p) s = .next t ∧ (profSt t p).on = reclaimRuns s p ∧
        ∀ k, reclaimRuns s p = true → heldSets s .reclaim p = [] → (profSt s p).rescue = none → reclaimVictim s p = some k → setOf s k.seq = some k →
          (holderOf t k.seq).map (·.agent) = some .reclaim) ∧
      ∃ t, exec (.reserveReclaimStart p) s = .next t ∧ (profSt t p).reserveOn = reserveRuns s p) ∧
    (notReady s = false → s.jrnl.stopFrom = none →
      ∃ t, exec .refreshClaim s = .next t ∧
        ∀ k ∈ refreshList s, severityOf s k = 3 → setOf s k.seq = some k → holderOf s k.seq = none → (holderOf t k.seq).map (·.agent) = some .refresh) ∧
    (∀ ag seq k, setOf s seq = some k → k.closed = true → claimOf s ag seq = none →
      ∃ t, exec (.blockClaimRequest ag seq) s = .next t ∧
        (holderOf s seq = none → t.media.claims = s.media.claims ++ [⟨seq, ag, none, []⟩]) ∧
        ∀ h, holderOf s seq = some h →
          (claimOutcome ag h.agent = .grant → t.media.claims = s.media.claims ++ [⟨seq, ag, none, []⟩]) ∧
          ((claimOutcome ag h.agent = .refuse ∨ claimOutcome ag h.agent = .covered) → t = endCycle s) ∧
          (claimOutcome ag h.agent = .preempt → holderOf t seq = some { h with preemptedBy := some ag }) ∧
          (claimOutcome ag h.agent = .takeOver → holderOf t seq = some { h with agent := ag, satisfied := h.satisfied ++ [h.agent] }) ∧
          (claimOutcome ag h.agent = .satisfied → (holderOf t seq).map (fun c => (c.agent, c.satisfied.contains ag)) = some (h.agent, true))) ∧
    (∀ seq k h ag, holderOf s seq = some h → setOf s seq = some k → h.preemptedBy = some ag → ag ≠ .patrol → holderBusy s k (agentDieWho h.agent) = false →
      ∃ t, exec (.preemptHandoff seq) s = .next t ∧ holderOf t seq = some { h with agent := ag, preemptedBy := none }) ∧
    (∀ seq k, setOf s seq = some k → mayRelease s k = true → s.jrnl.stopFrom = none →
      ∃ t, exec (.blockRelease seq) s = .next t ∧ (∀ c ∈ t.media.claims, c.seq ≠ seq) ∧
        ∀ b x, b ∈ blocksOfSet k → blockOf b = b → bayOf s b.bay = some x → x.failedDies.contains (dieNum (dieOf b)) = false → colDown s k b = false →
          (blkOf s b).st ≠ .retired → (blkOf t b).released = true) ∧
    (∀ m, let b := blockOf m
      (blkOf s b).released = true → releaseDurable s b = true → s.eng.pins.any (fun p => p.1 == b) = false → s.jrnl.stopFrom = none →
      anyOp s (fun o => o.seqNo == 4 && o.page == b) = false →
      (s.media.pages.any (fun p => blockOf p.addr == b && p.st == .failed) = true →
        ∃ t, exec (.blockErase m) s = .next t ∧ (blkOf t b).st = .retired ∧ ∀ p ∈ t.media.pages, blockOf p.addr ≠ b) ∧
      (s.media.pages.any (fun p => blockOf p.addr == b && p.st == .failed) = false → (s.media.verifyFails.filter (fun x => x == b)).length < 2 →
        ∃ t o, exec (.blockErase m) s = .next t ∧ o ∈ t.media.undrawn ∧ o.seqNo = 4 ∧ o.page = b ∧ drawOf s o = some (eraseDraw s b)))

/-- R239, R341, R343, R346, R354, R357, R366: a stripe-journal record that finds room for its two copies lists every open set and waits to become cover; a descriptor is rewritten one copy after the other, each read back before it stands; a failed bay is powered off and its failure recorded, a failed die is recorded on its bay; a rebuild that finds no
host waits in state 4, leaves it when there is one, and else works the first set of its list that can be worked. -/
def Obligations.MembersFailAndAreRebuilt : Prop :=
  ∀ s : State, s.jrnl.stopFrom = none →
    (∀ o t2 t3 a b, sjTarget s = some o → recordDue s = true →
      let es := sjEntries s
      placePage (alignPage (updOpen s o.seq (fun x => if x.nextRow < x.limitRow then x else { x with limitRow := x.nextRow + 2 })) o.seq 1) o.seq 6 1
        s.media.sjSeq (stripeBytes s.media.sjSeq s.cad.aet 0 es) = some (t2, a) →
      placePage (skipBay t2 o.seq 1 a.bay 4096) o.seq 6 1 s.media.sjSeq (stripeBytes s.media.sjSeq s.cad.aet 1 es) = some (t3, b) →
      ∃ t, exec .stripeJournalRecord s = .next t ∧ t.media.sjSeq = s.media.sjSeq + 1 ∧ t.media.sj = es ∧ t.media.sjDue = false ∧
        ∃ w ∈ t.media.sjWait, w.copyA = a ∧ w.copyB = b ∧ w.entries = es) ∧
    (∀ n b readBack, bayOf s n = some b → mayRewrite s b = true →
      (b.rewrite = none → rewriteDue s b = true →
        ∃ t x w, exec (.descriptorRewrite n readBack) s = .next t ∧ bayOf t n = some x ∧ x.rewrite = some w ∧ w.second = false ∧ w.step = 0 ∧
          w.seq = Nat.max b.seqA b.seqB + 1 ∧ (b.seqA ≤ b.seqB → w.copy = 0 ∧ x.seqA = 0 ∧ x.copyA = [] ∧ x.seqB = b.seqB) ∧
          (b.seqB < b.seqA → w.copy = 1 ∧ x.seqB = 0 ∧ x.copyB = [] ∧ x.seqA = b.seqA)) ∧
      (∀ r, b.rewrite = some r → rewriteOp s b r = none →
        (readBackGood r readBack = true → r.second = false → r.copy < 2 →
          ∃ t x w, exec (.descriptorRewrite n readBack) s = .next t ∧ bayOf t n = some x ∧ x.rewrite = some w ∧ w.second = true ∧
            w.copy = 1 - r.copy ∧ w.seq = r.seq ∧ (r.copy = 0 → x.seqA = r.seq ∧ x.copyA = r.frames)) ∧
        (readBackGood r readBack = true → r.second = true →
          ∃ t x, exec (.descriptorRewrite n readBack) s = .next t ∧ bayOf t n = some x ∧ x.rewrite = none ∧ x.lastBlockSeq = bayHighSeq s n ∧
            (r.copy = 0 → x.seqA = r.seq ∧ x.copyA = r.frames) ∧ (r.copy ≠ 0 → x.seqB = r.seq ∧ x.copyB = r.frames)) ∧
        (readBackGood r readBack = false →
          ∃ t, exec (.descriptorRewrite n readBack) s = .next t ∧ bayOf t n = some { b with rewrite := none }))) ∧
    (∀ n b, bayOf s n = some b → (b.st = .member ∨ b.st = .evacuating) →
      (∃ t x, exec (.memberFailure n none) s = .next t ∧ bayOf t n = some x ∧ x.st = .failed ∧ x.connected = false ∧ x.pwrEn = false ∧
        ∃ f ∈ t.media.fails, f.bay = n ∧ f.die = none) ∧
      ∀ d, b.dies.contains d = true → ∃ t x, exec (.memberFailure n (some d)) s = .next t ∧ bayOf t n = some x ∧ x.failedDies.contains d = true) ∧
    (s.media.rebuild = 4 → someHost s = true → ∃ t, exec .rebuildRow s = .next t ∧ t.media.rebuild = 1) ∧
    (s.media.rebuild = 1 → someHost s = false → ∃ t, exec .rebuildRow s = .next t ∧ t.media.rebuild = 4) ∧
    (∀ t0, s.media.rebuild = 1 → someHost s = true → ((rebuildList s).take 32).findSome? (workSet s) = some t0 →
      ∃ t, exec .rebuildRow s = .next t ∧ t.map = t0.map ∧ t.media.pages = t0.media.pages ∧ t.media.claims = t0.media.claims)

/-- R76, R246, R247, R248: a flush at its grid point that takes records, or has none to take, sets its next grid point; a trigger starts a checkpoint, after the flush that is due on its tick, with its cut at the highest durable JSEQ and the map and open sets of the cut, and
waits while one runs; once the root of the running checkpoint is placed on rows that stand, the checkpoint is over and the next has the next number. -/
def Obligations.JournalAndCheckpointsAdvance : Prop :=
  ∀ s : State, s.jrnl.stopFrom = none → isOwner s = true →
    (s.cad.journalDue ≤ nowT s → (unflushed s = [] ∨ (unflushed (flushAll s)).length ≠ (unflushed s).length) →
      ∃ t, exec .journalFlush s = .next t ∧ t.cad.journalDue = nextDue (nowT s) s.cad.journalTicks ∧ unflushed t = unflushed (flushAll s)) ∧
    (∀ g, s.kf.restartStep = 0 → ckptTriggered s g = true → s.jrnl.cleanStands = false → ckptBusy s = true →
      ∃ t, exec (.checkpointStart g) s = .next t ∧ g ∈ t.jrnl.waiting ∧ t.jrnl.running = s.jrnl.running) ∧
    (∀ g, s.kf.restartStep = 0 → ckptTriggered s g = true → s.jrnl.cleanStands = false → ckptBusy s = false → (g = .shutdown → allStopping s = false) →
      let u := if s.cad.journalDue ≤ nowT s then flushJournal s else s
      ∃ t, exec (.checkpointStart g) s = .next t ∧ t.jrnl.running = some ⟨g, false, none, cutOf u⟩ ∧ t.jrnl.cut = highestDurable s ∧
        t.jrnl.hostBytes = 0) ∧
    (∀ (r : CkptRun) (c : CkptCapture) (k : Ckpt × CkptPiece), s.kf.restartStep = 0 → s.jrnl.running = some r → r.captured = some c → c.root = some k →
      (∀ x ∈ c.pieces, pieceStands (alignSystem s) x = true) → pieceStands (alignSystem s) k.2 = true →
      ∃ t, exec .checkpointRootWrite s = .next t ∧ t.jrnl.running = none ∧ t.jrnl.nextCkpt = s.jrnl.nextCkpt + 1)

/-- R252, R254, R255, R262: the fall of PWRFAIL_N and an assertion of PORST_N begin the hold-up sequence in PS0, with a stop record of KIND 1 and 2 appended in the keeper flash of the owner of the medium, and save
nothing while a clean stop record stands; FAILED begins it with KIND 4; from its beginning nothing is fetched or posted but under FAILED, and at its end WP_N is low on every channel. -/
def Obligations.StopsBeginAndEnd : Prop :=
  ∀ (s : State) (cyc : Nat), s.kf.porst = false → s.kf.recMode = false → s.power.st = 0 → s.power.entering = none →
    let kinds (t : State) (k : StopKind) : Prop :=
      t.jrnl.stopKind = k ∧ t.jrnl.stopEnded = false ∧ (isOwner s = true → ∃ r rest, t.jrnl.stops = r :: rest ∧ rest = s.jrnl.stops ∧ r.kind = k ∧
        r.stopSeq = s.jrnl.nextStop ∧
        t.kf.mem = appendRec s.kf.mem stopRegion (fun m a => (stopRecAt m a).map (·.stopSeq)) (fun _ _ => 256) (stopBytes r))
    (s.jrnl.stopFrom = none →
      (s.jrnl.cleanStands = false → ∃ t, exec (.pwrfailFall cyc) s = .next t ∧ t.side.pwrfail = true ∧ t.jrnl.stopFrom = some t.now ∧ kinds t .powerFail) ∧
      (s.jrnl.cleanStands = true →
        ∃ t, exec (.pwrfailFall cyc) s = .next t ∧ t.side.pwrfail = true ∧ t.jrnl.stopFrom = some t.now ∧ t.jrnl.stopEnded = true ∧ t.jrnl.stops = s.jrnl.stops) ∧
      (s.jrnl.cleanStands = false → isOwner s = true → s.kf.released = true →
        ∃ t, exec (.porstAssert cyc) s = .next t ∧ t.kf.porst = true ∧ t.jrnl.stopFrom = some t.now ∧ kinds t .reset) ∧
      (s.jrnl.cleanStands = true →
        ∃ t, exec (.porstAssert cyc) s = .next t ∧ t.kf.porst = true ∧ t.ctxs = [] ∧ t.jrnl.stops = s.jrnl.stops ∧ t.kf.mem = s.kf.mem) ∧
      (failedSet s = false →
        ∃ t, exec (.failedSet false) s = .next t ∧ failedSet t = true ∧ t.jrnl.stopFrom = some s.now ∧ kinds t .failed)) ∧
    (∀ n, s.jrnl.stopFrom = some n → s.jrnl.stopEnded = false → (s.jrnl.stopKind = .powerFail → s.side.pwrfail = true) →
      ∃ t, exec .holdupComplete s = .next t ∧ t.jrnl.stopEnded = true ∧ (∀ b ∈ t.media.bays, b.writable = false) ∧ t.ctxs = s.ctxs)

/-- R42, R255, R450, R451, R455: the release of PORST_N samples the straps and boots, into recovery mode where REQUEST asks for it or no keeper slot holds a package; PWRFAIL_N high again before the
sequence ends lets it run on; the power-up of the always-on domain clears REQUEST and leaves the keeper flash. -/
def Obligations.ThePartBootsAndPowersUp : Prop :=
  ∀ (s : State) (cyc : Nat) (env : BootEnv),
    (s.kf.porst = true → s.jrnl.stopFrom = none → s.kf.tripHold = false → env.lockstepOk = true →
      ∃ t, exec (.porstRelease cyc env) s = .next t ∧ t.kf.porst = false ∧ t.kf.boardId = env.boardId ∧ t.kf.sbAddr = env.sbAddr ∧
        t.twin.en = env.twinEn ∧ t.twin.seat = env.twinSeat ∧
        (s.kf.recRequest = true → t.kf.recMode = true ∧ t.kf.recCause = 1 ∧ t.kf.released = false) ∧
        (s.kf.recRequest = false → s.kf.mem = [] → t.kf.recMode = true ∧ t.kf.recCause = 2 ∧ t.kf.released = false)) ∧
    (s.jrnl.stopEnded = false → ∃ t, exec (.pwrfailRise cyc) s = .next t ∧ t.side.pwrfail = false ∧ t.jrnl = s.jrnl) ∧
    (∃ t, exec .alwaysOnPowerUp s = .next t ∧ t.kf.porst = true ∧ t.kf.recRequest = false ∧ t.side.pwrfail = false ∧ t.kf.mem = s.kf.mem ∧
      t.kf.saved = s.kf.saved)

/-- R212, R256, R264, R425: a restart whose last step ends on the owner clears NOT_READY unless FAILED is set, and one whose map cannot be restored sets FAILED; the loss of a DRAM channel drops the clean tiles that lay on it
and marks the staged data that did, and that of a second sets FAILED. -/
def Obligations.RestartsCompleteAndDramIsLost : Prop :=
  ∀ (s : State) (cyc : Nat) (found : RestartFind) (ch : Nat) (staged : List (Nat × Nat)),
    (s.kf.restartStep = 2 → isOwner s = true → s.jrnl.stopFrom = none → found.mapRestorable = true →
      ∃ t, exec (.restartComplete cyc found) s = .next t ∧ t.kf.restartStep = 0 ∧ t.media.readyAt = some t.now ∧
        (failedSet t = false → notReady t = false)) ∧
    (s.kf.restartStep = 2 → isOwner s = true → s.jrnl.stopFrom = none → found.mapRestorable = false →
      ∃ t, exec (.restartComplete cyc found) s = .next t ∧ failedSet t = true) ∧
    (ch < 4 → s.eng.dramLost.getLsbD ch = false → s.kf.porst = false →
      ∃ t, exec (.dramChannelLoss ch staged) s = .next t ∧ t.eng.dramLost = s.eng.dramLost ||| BitVec.ofNat 4 (2 ^ ch) ∧
        (∀ f ∈ t.eng.dram, ∃ g ∈ s.eng.dram, g.ns = f.ns ∧ g.seg = f.seg ∧ (g.dirty = true ∨ onChannel ch g = false)) ∧
        (s.eng.dramLost = 0 → t.ctxs = s.ctxs.map (loseStaged staged)) ∧
        (s.eng.dramLost ≠ 0 → failedSet t = true) ∧
        ∀ u ∈ t.pods.used, ¬ (u.1 = 4 ∧ u.2.1 % 4 = ch))

/-- R43, R315, R365, R366, R367, R370: a carrier seated in an empty, released or failed position is powered, connected and read (on a part without an image only seen), and fails where it reports a fault; removal powers the bay off and makes a member failure or ABSENT; a fault fails a present bay; a commissioned bay with at most half of its dies listed becomes MEMBER or SPARE with a new
BAY_UID and its clock at 0, and any other fails. -/
def Obligations.BaysAreSeatedAndFail : Prop :=
  ∀ (s : State) (n : Nat) (x : Bay), bayOf s n = some x →
    let off (y : Bay) : Prop := y.connected = false ∧ y.pwrEn = false ∧ y.writable = false
    (∀ v, isOwner s = true → s.kf.imgValid = false → x.present = false → (x.st = .absent ∨ x.st = .released ∨ x.st = .failed) →
      ∃ t, exec (.bayPresenceAccepted n v) s = .next t ∧ bayOf t n = some { x with present := true }) ∧
    (∀ v, isOwner s = true → s.kf.imgValid = true → x.present = false → (x.st = .absent ∨ x.st = .released ∨ x.st = .failed) →
      ∃ t y, exec (.bayPresenceAccepted n v) s = .next t ∧ bayOf t n = some y ∧ y.present = true ∧
        (v.faultLow = true → y.st = .failed ∧ off y) ∧
        (v.faultLow = false → y.st = .inserted ∧ y.pwrEn = true ∧ y.connected = true ∧ y.writable = false ∧ y.profile = recognise s v.dies ∧
          y.dies = v.dies.map Prod.fst ∧ ∀ d, surveyInfo n v = some d → y.uid = d.uid ∧ y.foreign = !knownBinding s d.bindingHash)) ∧
    (isOwner s = true → x.present = true →
      ∃ t y, exec (.bayRemoval n) s = .next t ∧ bayOf t n = some y ∧ y.present = false ∧ off y ∧
        y.st = (if x.st = .member ∨ x.st = .evacuating ∨ x.st = .failed then .failed else .absent) ∧
        ((x.st = .member ∨ x.st = .evacuating) → ∃ f ∈ t.media.fails, f.bay = n ∧ f.die = none)) ∧
    (isOwner s = true → x.present = true → x.st ≠ .failed → x.st ≠ .absent →
      ∃ t y, exec (.bayFault n) s = .next t ∧ bayOf t n = some y ∧ y.st = .failed ∧ y.faultLow = true ∧ off y) ∧
    (∀ r, x.st = .commissioning → s.jrnl.stopFrom = none →
      (x.dies.length < 2 * r.diesListed → ∃ t y, exec (.commissioningDone n r) s = .next t ∧ bayOf t n = some y ∧ y.st = .failed ∧ off y) ∧
      (2 * r.diesListed ≤ x.dies.length → r.descriptorsGood = true →
        ∃ t y, exec (.commissioningDone n r) s = .next t ∧ bayOf t n = some y ∧ y.st = (if x.asSpare then .spare else .member) ∧
          y.uid = newUid s ∧ y.tc = 0 ∧ y.defects = r.defects ∧ y.createdAet = s.cad.aet))

/-- R240, R247, R271, R369, R370, R371, R372, R373, R374, R376, R378: COMMISSION write-enables a bay that may be commissioned and refuses any other; EVACUATE, CANCEL_EVACUATE and RELEASE move a bay between its states, a released one powered off with its BAY_UID retired; an evacuation moves the first set of its list that has not begun, and the bay that no set needs is
released; IMPORT returns its survey's code, and an import that ends, once the checkpoint for the changed bays stands, takes the CSN block above both. -/
def Obligations.BayControlActs : Prop :=
  ∀ (s : State) (cid : Nat) (c : Ctx),
    let is (t : State) (b : Bay) (f : Bay → Prop) : Prop := ∃ y, bayOf t b.bay = some y ∧ f y
    let released (t : State) (b : Bay) : Prop :=
      is t b (fun y => y.st = .released ∧ y.connected = false ∧ y.pwrEn = false ∧ y.writable = false) ∧ (b.uid ≠ 0 → b.uid ∈ t.media.retired)
    (∀ b, ctlBay s c = some b →
      (actionIn s cid 0x90 0 = some c →
        (mayCommission s b = true → ∃ t, exec (.bayCommissionMember cid) s = .next t ∧ endedWith t cid 0 0 ∧
          is t b (fun y => y.st = .commissioning ∧ y.writable = true ∧ y.asSpare = false)) ∧
        (mayCommission s b = false → ∃ t, exec (.bayCommissionMember cid) s = .next t ∧ endedStatus t cid 0x1002 ∧ bayOf t b.bay = some b)) ∧
      (actionIn s cid 0x90 1 = some c → mayCommission s b = true → ∃ t, exec (.bayCommissionSpare cid) s = .next t ∧ endedWith t cid 0 0 ∧
        is t b (fun y => y.st = .commissioning ∧ y.writable = true ∧ y.asSpare = true)) ∧
      (∀ p f, actionIn s cid 0x90 2 = some c → b.profile = some p → profileOf s p = some f →
        (b.st ≠ .member → ∃ t, exec (.bayEvacuate cid) s = .next t ∧ endedStatus t cid 0x1002) ∧
        (b.st = .member → (s.kf.boot.pend = 0 ∨ s.kf.pendQuiet = false) →
          (evacuationFits s b p f = false → ∃ t, exec (.bayEvacuate cid) s = .next t ∧ endedStatus t cid 0x4001) ∧
          (evacuationFits s b p f = true → ∃ t, exec (.bayEvacuate cid) s = .next t ∧ endedWith t cid 0 0 ∧
            is t b (fun y => y.st = .evacuating ∧ y.progress = 0 ∧ y.cancelled = false)))) ∧
      (actionIn s cid 0x90 3 = some c → b.st = .evacuating → b.cancelled = false → ∃ t, exec (.bayCancelEvacuate cid) s = .next t ∧ endedWith t cid 0 0 ∧
        (evacBusy s = true → bayOf t b.bay = some { b with cancelled := true }) ∧
        (evacBusy s = false → is t b (fun y => y.st = .member ∧ y.cancelled = false))) ∧
      (actionIn s cid 0x90 4 = some c → (b.st = .spare ∨ b.st = .inserted) → s.media.importing.contains b.bay = false →
        ∃ t, exec (.bayRelease cid) s = .next t ∧ endedWith t cid 0 0 ∧ released t b)) ∧
    (∀ v, actionIn s cid 0x90 5 = some c →
      (importCode s (ctlBay s c) v ≠ 0 → ∃ t d, exec (.bayImport cid v) s = .next t ∧ ctxOf t cid = some d ∧ d.stage = .ended ∧ d.status = 0x1002 ∧
        d.result0 = w32 (importCode s (ctlBay s c) v)) ∧
      (importCode s (ctlBay s c) v = 0 → ∃ t, exec (.bayImport cid v) s = .next t ∧ endedWith t cid 0 0 ∧
        ∀ b root, ctlBay s c = some b → newestRoot v.roots b.uid = some root → t.media.importing = importGroup s root)) ∧
    (∀ b, bayOf s b.bay = some b → b.st = .evacuating → b.cancelled = false → evacLeftOn s b.bay = 0 → s.jrnl.stopFrom = none →
      ∃ t, exec (.evacuationDone b.bay) s = .next t ∧ released t b) ∧
    (∀ k l, notReady s = false → s.jrnl.stopFrom = none →
      ((evacList s).take 32).filter (fun k => (evacBlocks s k).any (fun c => !((bayOf s c.2.bay).map (·.cancelled)).getD true)) = k :: l →
      claimOf s .evacuate k.seq = none → k.standIns.any (fun x => !x.done) = false → k.closed = true →
      s.media.refresh.any (fun t => t.seq == k.seq && t.severity == 3) = false →
      ∃ t, exec .evacuationSetMove s = .next t ∧
        ((evacBlocks s k).length ≠ 1 → ∃ x ∈ t.media.refresh, x.seq = k.seq ∧ 3 ≤ x.severity) ∧
        ∀ col m t0, evacBlocks s k = [(col, m)] → columnMove s k col = some t0 → t.map = t0.map ∧ t.media.claims = t0.media.claims) ∧
    (∀ r, s.media.importing ≠ [] → s.jrnl.stopFrom = none → bayCkptWaits s = false →
      let found := readMedium s s.media.importing r
      let first := (Nat.max (Nat.max s.csnNext s.csnBlock) found.csnHigh / 2 ^ 20 + 1) * 2 ^ 20
      ∃ t, exec (.importDone r) s = .next t ∧ t.media.importing = [] ∧ t.csnNext = first ∧ t.csnBlock = first ∧
        t.media.blockSeqHigh = Nat.max s.media.blockSeqHigh found.blockSeqHigh ∧ ∃ x ∈ t.jrnl.recs, x.body = .csnReserve first)

/-- R386, R388, R389, R390, R397, R398, R400, R402, R403, R404: a Zynmi frame whose CRC passes and whose FSEQ is the next one is accepted and has the effect of its type, and no other is; an ACK covers every frame up to the one it names. -/
def Obligations.ZynmiFramesAct : Prop :=
  ∀ (s : State) (h : FrameHead) (cyc : Nat), cyc ≤ s.now →
    (∀ es, accepts s h = false → ∃ t, exec (.frameFrontier h es cyc) s = .next t ∧ t.twin.rxSeq = s.twin.rxSeq ∧ t.twin.frontier = s.twin.frontier) ∧
    (∀ n, twinRuns s = true → s.twin.lanes ≠ 0 →
      let gone := s.twin.unacked.filter (fun f => decide (f.fseq ≤ n))
      (s.twin.role ≠ .active → ∃ t, exec (.frameAck true n cyc) s = .next t ∧ t.twin.unacked = s.twin.unacked.filter (fun f => decide (n < f.fseq)) ∧
        ∀ r ∈ t.jrnl.recs, r.jseq ∈ ackedJseqs gone → r.durable = true) ∧
      (∀ f, s.twin.role = .active → s.twin.handOver = none → s.twin.syncEnd = some f → f ≤ n → failedSet s = false →
        ∃ t, exec (.frameAck true n cyc) s = .next t ∧ t.twin.partnerRole = .standby ∧ flag t.cond bTwinSolo = false) ∧
      (∀ f cid, s.twin.role = .active → s.twin.handOver = some (f, cid) → f ≤ n →
        ∃ t, exec (.frameAck true n cyc) s = .next t ∧ t.twin.role = .standby ∧ t.twin.own = false)) ∧
    (accepts s h = true →
      let taken (t : State) : Prop := t.twin.rxSeq = h.fseq ∧ t.twin.lastFrame = some s.now
      let acks (t : State) : Prop := taken t ∧ ⟨0, .ack h.fseq⟩ ∈ t.twin.sent
      (∀ role cond pins aet csn jseq, ∃ t, exec (.frameHeartbeat h role cond pins aet csn jseq cyc) s = .next t ∧ taken t ∧ t.twin.hbCond = cond ∧
        t.twin.hbPins = pins ∧ t.twin.hbAet = aet ∧ t.twin.hbCsn = csn ∧ t.twin.hbJseq = jseq ∧
        (s.twin.role ≠ .active → t.twin.partnerRole = role) ∧
        (s.twin.role = .active → role = .syncing → s.twin.partnerRole = .fenced → s.twin.hold = false → recordNames s = true →
          t.twin.partnerRole = .syncing ∧ t.twin.syncEnd.isSome = true) ∧
        (s.twin.role = .active → role = .fenced → s.twin.partnerRole ≠ .fenced → t.twin.partnerRole = .fenced ∧ t.twin.unacked = [])) ∧
      (∀ cond, ∃ t, exec (.frameFailing h cond cyc) s = .next t ∧ taken t ∧ t.twin.hbCond = cond ∧
        (s.twin.role = .active → t.twin.partnerRole = .fenced)) ∧
      (holdsCopy s = true →
        (∀ l a, ∃ t, exec (.frameAdmit h (l ++ [a]) cyc) s = .next t ∧ acks t ∧ a ∈ t.twin.slots ∧ a.csn ≤ t.twin.hbCsn) ∧
        (∀ l r, ∃ t, exec (.frameJournal h (l ++ [r]) cyc) s = .next t ∧ acks t ∧ r.jseq < t.jrnl.nextSeq ∧
          (∃ x ∈ t.jrnl.recs, x.jseq = r.jseq ∧ x.body = r.body ∧ x.durable = true) ∧
          (l = [] → s.twin.capture < r.jseq → t.map = applyRec s.map r.jseq r.body)) ∧
        (∀ r, r.unpair = false → r.kind ≠ 5 → ∃ t, exec (.frameState h r cyc) s = .next t ∧ acks t ∧
          ∀ a ∈ s.twin.slots, a.csn = r.csn → { a with performed := true, status := r.status, result0 := r.result0, result1 := r.result1 } ∈ t.twin.slots) ∧
        (∀ l e, e.csn ≠ 0 → ∃ t, exec (.frameComplete h (l ++ [e]) cyc) s = .next t ∧ taken t ∧ ∀ a ∈ t.twin.slots, a.csn ≠ e.csn) ∧
        (∀ l d, d.isCqHead = true → ∃ t, exec (.frameDoorbell h (l ++ [d]) cyc) s = .next t ∧ taken t ∧
          ∀ x ∈ t.twin.queues, x.1 = d.port → x.2.qid = d.queue → x.2.cqHead = d.value) ∧
        (∀ es, ∃ t, exec (.frameFrontier h es cyc) s = .next t ∧ acks t ∧ t.twin.frontier = es)) ∧
      (∀ r, r.unpair = true → ∃ t, exec (.frameState h r cyc) s = .next t ∧ acks t ∧ t.twin.pairRec = none ∧ (holdsCopy s = true → t.twin.role = .fenced)) ∧
      (s.twin.role = .standby →
        (∀ r, ∃ t, exec (.frameStop h r cyc) s = .next t ∧ acks t ∧ t.twin.peerStop = some r ∧ t.jrnl.stops = r :: s.jrnl.stops) ∧
        (∀ sets, ∃ t, exec (.frameHandOver h sets cyc) s = .next t ∧ acks t ∧ t.twin.handOverIn = true ∧ t.twin.handOverSets = sets)) ∧
      (s.twin.role = .syncing →
        (∀ p n, ∃ t, exec (.frameSyncPiece h p n cyc) s = .next t ∧ acks t ∧ t.twin.capture = Nat.max s.twin.capture n ∧
          (∀ x, p = .namespaces x → t.map.nss = x) ∧ (∀ x, p = .directory x → t.map.segs = x) ∧ (∀ x, p = .blockTable x → t.map.blocks = x) ∧
          (∀ x, p = .lostLbas x → t.map.lost = x) ∧ (∀ x, p = .sets x → t.map.sets = x) ∧ (∀ x, p = .slots x → t.twin.slots = x) ∧
          ∀ q x, p = .log q x → (portOf t q).res = x) ∧
        (∀ n, ∃ t, exec (.frameSyncEnd h n cyc) s = .next t ∧ acks t ∧ t.twin.role = .standby ∧ t.twin.hbCsn = Nat.max s.twin.hbCsn n)) ∧
      (∀ x, ∃ t, exec (.framePairHello h x cyc) s = .next t ∧ acks t ∧ t.twin.peer = some x ∧ t.twin.pairReject = pairRefusal s x ∧
        (∀ k, pairRefusal s x = 0 → s.twin.role = .fenced → s.twin.hold = false → s.twin.peerOwn = true → s.twin.pairRec = some (x.serial, k) →
          t.twin.role = .syncing)) ∧
      (∀ point x, s.twin.hold = false → s.twin.peer = some x → s.twin.pairReject = 0 →
        let confirmed (t : State) (n : Nat) : Prop := ∃ f ∈ t.twin.sent, f.frame = .pairConfirm (Config.pairConfirm n point (transcript s n point))
        (∀ n y cid, s.twin.role = .active → s.twin.pairing = some (n, y, cid) →
          ∃ t, exec (.framePairKey h point cyc) s = .next t ∧ acks t ∧ t.twin.pairing = some (n, some point, cid) ∧ confirmed t n) ∧
        (s.twin.role = .fenced →
          ∃ t, exec (.framePairKey h point cyc) s = .next t ∧ acks t ∧ t.twin.pairing = some (s.twin.keysDrawn, some point, none) ∧
            confirmed t s.twin.keysDrawn)) ∧
      (∀ n point cid x bytes, s.twin.pairing = some (n, some point, cid) → s.twin.peer = some x →
        ∃ t, exec (.framePairConfirm h bytes cyc) s = .next t ∧ acks t ∧
          (bytes = Config.pairConfirm n point (transcript s n point) →
            t.twin.pairRec = some (x.serial, Config.pairWrapKey n point (pairInfo s)) ∧ (s.twin.role ≠ .active → t.twin.role = .syncing)) ∧
          (bytes ≠ Config.pairConfirm n point (transcript s n point) → t.twin.pairing = none ∧ t.twin.pairRec = s.twin.pairRec)))

/-- R383, R384, R385, R386, R391, R397, R398, R399, R401, R404, R514: heartbeats toggle TWIN_HB_OUT and are told by frame; a silent partner is lost as Table 16-3 says; a claim that stands makes its chip ACTIVE and owner; a STANDBY takes over with NOT_READY clear at the end; a fence ends after 1 ms; frames are sent again and numbered
from 1 when the link trains; TWIN_CONTROL's actions begin or are performed as Table 16-7 says. -/
def Obligations.TwinIsSupervised : Prop :=
  ∀ (s : State) (cyc : Nat), cyc ≤ s.now → twinRuns s = true →
    let owns (t : State) : Prop := t.twin.own = true ∧ t.twin.role = .active
    let alone (t : State) : Prop := t.twin.partnerRole = .fenced ∧ t.twin.unacked = []
    (failedSet s = false → ∃ t, exec (.heartbeatSend cyc) s = .next t ∧ t.twin.hbOut = !s.twin.hbOut ∧
      (s.twin.lanes ≠ 0 → ∃ f ∈ t.twin.sent, f.frame = heartbeatOf s)) ∧
    (∃ t, exec (.twinHbInEdge cyc) s = .next t ∧ t.twin.hbEdge = some s.now) ∧
    (linkAlone s = true → ∃ t, exec (.standbyLinkFallback cyc) s = .next t ∧ t.twin.role = .fenced ∧ t.twin.slots = []) ∧
    (s.twin.role = .active → s.twin.partnerRole ≠ .fenced → s.twin.unacked ≠ [] → s.twin.ackAt + 1000000 ≤ s.now →
      ∃ t, exec (.ackTimeout cyc) s = .next t ∧ alone t) ∧
    (∀ c, s.twin.fenceFrom = some c → c + 1000000 ≤ s.now → ∃ t, exec (.fenceRelease cyc) s = .next t ∧ t.twin.fenceFrom = none ∧
      ∀ x ∈ s.ctxs, x.queue = 0 → x.stage = .admitted → x.mapAsked = true → eOpcode x.dw = 0x94 → bits (eCdw x.dw 0) 2 0 = 3 → endedWith t x.cid 0 0) ∧
    (s.twin.lanes ≠ 0 → s.twin.ackAt + 5000 ≤ s.now → ∃ t, exec (.frameResend cyc) s = .next t ∧ t.twin.sent = s.twin.sent ++ s.twin.unacked) ∧
    (∀ n, n = 1 ∨ n = 2 ∨ n = 4 → ∃ t x, exec (.zynmiLinkTrained n) s = .next t ∧ t.twin.lanes = n ∧ t.twin.rxSeq = 0 ∧ t.twin.txSeq = 2 ∧
      t.twin.unacked = [⟨1, .pairHello x⟩]) ∧
    (∀ r, ∃ t, exec (.zynmiLinkDown cyc r) s = .next t ∧ t.twin.lanes = 0 ∧ (r = true → t.twin.pairing = none)) ∧
    (s.jrnl.stopFrom = none → failedSet s = false → s.twin.hold = false →
      (∀ high after found surveys, s.twin.own = false →
        (s.twin.role = .fenced → s.kf.restartStep = 1 → mayClaim s high = true →
          (after = false ∨ s.twin.seat = false → ∃ t, exec (.ownershipClaim cyc high after found surveys) s = .next t ∧ owns t ∧ t.twin.partnerRole = .fenced) ∧
          (after = true → s.twin.seat = true → ∃ t, exec (.ownershipClaim cyc high after found surveys) s = .next t ∧ t.twin.own = false ∧ t.twin.role = .fenced)) ∧
        (s.twin.role = .standby → s.twin.handOverIn = true → 0 < high →
          ∃ t, exec (.ownershipClaim cyc high after found surveys) s = .next t ∧ owns t ∧ t.twin.partnerRole = .standby)) ∧
      (∀ found surveys, s.twin.role = .syncing ∨ s.twin.role = .fenced → s.kf.restartStep = 1 → bothQuiet s 2002000000 = true →
        ∃ t, exec (.uncleanTakeOver cyc found surveys) s = .next t ∧ owns t ∧ t.twin.fenceFrom = some s.now ∧ t.twin.gapPins = true ∧
          t.twin.takeOvers = satAdd 0xFFFF s.twin.takeOvers 1) ∧
      (∀ taken scan found surveys,
        (s.twin.role = .standby → (bothQuiet s 2000000 = true ∨ flag s.twin.hbCond bFailed = true) →
          ∃ t, exec (.partnerLoss cyc taken scan found surveys) s = .next t ∧ owns t ∧ t.twin.fenceFrom = some s.now ∧
            t.twin.takeOvers = satAdd 0xFFFF s.twin.takeOvers 1 ∧ notReady t = false) ∧
        (s.twin.role = .active → s.twin.partnerRole ≠ .fenced → bothQuiet s 2000000 = true →
          ∃ t, exec (.partnerLoss cyc taken scan found surveys) s = .next t ∧ alone t ∧ t.twin.fenceFrom = some s.now))) ∧
    (∀ cid c, (actionIn s cid 0x94 0 = some c → c.mapAsked = false →
        (actionAllowed s c.dw = true → ∃ t, exec (.twinPair cid) s = .next t ∧ t.twin.pairing = some (s.twin.keysDrawn, none, some cid) ∧
          ∃ f ∈ t.twin.sent, f.frame = .pairKey (Config.pairPoint s.twin.keysDrawn)) ∧
        (actionAllowed s c.dw = false → ∃ t, exec (.twinPair cid) s = .next t ∧ endedStatus t cid 0x1002)) ∧
      (actionIn s cid 0x94 1 = some c → actionAllowed s c.dw = true → c.mapAsked = false →
        (s.twin.lanes = 0 → ∃ t, exec (.twinUnpair cid) s = .next t ∧ endedWith t cid 0 0 ∧ t.twin.pairRec = none ∧ t.twin.partnerRole = .fenced) ∧
        (s.twin.lanes ≠ 0 → ∃ t, exec (.twinUnpair cid) s = .next t ∧ ctxOf t cid = some { c with mapAsked := true, awaitAck := some s.twin.txSeq })) ∧
      (actionIn s cid 0x94 2 = some c →
        (c.mapAsked = false → actionAllowed s c.dw = true → ∃ t, exec (.twinHandOver cid) s = .next t ∧ ctxOf t cid = some { c with mapAsked := true } ∧
          ∀ x ∈ t.ctxs, x.stage ≠ .fetched) ∧
        (c.mapAsked = true → s.twin.partnerRole = .standby → s.twin.handOver = none → s.ctxs.all (fun x => x.cid == cid) = true →
          rowsFinished (s.media.opens.foldl (fun t o => padOpenRow t o.seq) s) = true →
          ∃ t, exec (.twinHandOver cid) s = .next t ∧ t.twin.handOver = some (s.twin.txSeq, cid))) ∧
      (actionIn s cid 0x94 3 = some c → actionAllowed s c.dw = true → c.mapAsked = false → s.twin.hold = false →
        ∃ t, exec (.twinFencePartner cid cyc) s = .next t ∧ t.twin.fenceFrom = some s.now ∧ alone t))

/-- R410, R411, R415, R416, R420, R422: an OPEN without key and a LOAD of a good onion take a free slot and end with the new context's CONTEXT_ID; a keyed OPEN makes its key block ready as one chunk; a LOAD refuses an onion with its reason; a FINAL
without tail writes or compares the digest and ends its context, as a CLOSE does; a waiting command takes a freed slot, brings its parked context back, or ends with CONTEXT_BUSY. -/
def Obligations.DigestContextsComeAndGo : Prop :=
  ∀ (s : State) (cid n : Nat) (c : Ctx),
    let alg := bits (eCdw c.dw 0) 3 0
    let opened (t : State) (d : DigState) : Prop :=
      ∃ k ∈ t.dig.ctxs, k.slot = some n ∧ k.port = c.port ∧ k.d = d ∧ endedWith t cid (w32 k.id) 0
    let gone (t : State) (k : DigCtx) : Prop := ∀ x ∈ t.dig.ctxs, x.id ≠ k.id
    let busyEnd (t : State) (cause : Word) : Prop := ∃ d, ctxOf t cid = some d ∧ d.stage = .ended ∧ d.status = 0x5001 ∧ d.result0 = cause
    let free (k : DigCtx) : Prop :=
      namedDig s c = some k ∧ k.ended = false ∧ c.waitSlot = false ∧ digTurn s c = true ∧ k.busy = none ∧ k.slot.isSome = true
    (ctxIn s cid 0x10 = some c → c.waitSlot = false → chunkOut s cid = false → c.gotSlot = none → freeSlot s = some n →
      (bits (eCdw c.dw 0) 4 4 = 0 → ∀ f, ∃ t, exec (.digestOpen cid f) s = .next t ∧ opened t (digFresh alg false)) ∧
      (bits (eCdw c.dw 0) 4 4 = 1 → ∀ bs, c.stream = [] → c.chunkAt = 0 → fetchFits c.dw (.bytes bs) = true → bs.length = expectedLen s c.dw →
        ∃ t, exec (.digestOpen cid (.bytes bs)) s = .next t ∧ t.dig.ctxs = s.dig.ctxs ∧
          t.dig.ready = putReady ⟨cid, n, s.now, digBlock alg⟩ s.dig.ready)) ∧
    (ctxIn s cid 0x15 = some c → c.waitSlot = false → c.stream = [] → ∀ o, fetchFits c.dw (.bytes o) = true → o.length = 512 →
      (∀ r, judgeOnion s o = .inl r → ∃ t, exec (.digestLoad cid (.bytes o)) s = .next t ∧ endedWith t cid 0xFFFFFFFF (w32 r)) ∧
      (∀ d, judgeOnion s o = .inr d → c.gotSlot = none → freeSlot s = some n →
        ∃ t, exec (.digestLoad cid (.bytes o)) s = .next t ∧ opened t d)) ∧
    (∀ k e, ctxIn s cid 0x13 = some c → chunkOut s cid = false → free k → bits (eCdw c.dw 1) 16 0 = 0 → k.d.residue.length % digBlock k.d.alg = 0 →
      let digest := algDigest k.d.alg (absorb k.d []).chain
      (bits (eCdw c.dw 1) 24 24 = 0 → ∀ f g, plainFetch g = true → ∃ t, exec (.digestFinal cid f g) s = .next t ∧ gone t k ∧ endedWith t cid (w32 digest.length) 0 ∧
        t.out = s.out ++ [.bytes c.port (eCdw23 c.dw) digest]) ∧
      (bits (eCdw c.dw 1) 24 24 = 1 → e.length = digLen k.d.alg →
        ∀ f, ∃ t, exec (.digestFinal cid f (.bytes e)) s = .next t ∧ gone t k ∧ t.out = s.out ∧
          endedWith t cid (if digest = e then 0 else 1) 0)) ∧
    (∀ k, ctxIn s cid 0x16 = some c → namedDig s c = some k → k.ended = false → digTurn s c = true → k.busy = none →
      ∃ t, exec (.digestClose cid) s = .next t ∧ gone t k ∧ endedWith t cid 0 0) ∧
    (ctxOf s cid = some c → c.stage = .admitted → c.waitSlot = true → s.jrnl.stopFrom = none →
      (namesContext (eOpcode c.dw) = false → freeSlot s = some n → ∀ f, ∃ t, exec (.contextSlotWaitEnd cid f) s = .next t ∧
        ctxOf t cid = some { c with waitSlot := false, waitFor := [], gotSlot := some n }) ∧
      (∀ k o d, namesContext (eOpcode c.dw) = true → freeSlot s = some n → namedDig s c = some k → k.ended = false → frameGood k o = true →
        openOnion s o = some d → ∃ t, exec (.contextSlotWaitEnd cid (.bytes o)) s = .next t ∧
          ∃ x ∈ t.dig.ctxs, x.id = k.id ∧ x.slot = some n ∧ x.frame = none ∧ x.d = d) ∧
      (∀ k o, namesContext (eOpcode c.dw) = true → freeSlot s = some n → namedDig s c = some k → k.ended = false → frameGood k o = false →
        ∃ t, exec (.contextSlotWaitEnd cid (.bytes o)) s = .next t ∧ busyEnd t 2) ∧
      (takeSlot s = none → waitOver s c = true → ∀ f, ∃ t, exec (.contextSlotWaitEnd cid f) s = .next t ∧ busyEnd t 1))

/-- R409, R415, R417, R418, R419: a FEED on a context in a slot makes its first chunk of at most 64 KiB ready once its data is there, and a SAVE writes the onion while the context continues and the wrap counter moves on; the first ready chunk goes to the
lowest free pipe; a chunk that leaves its pipe makes the next one ready, and the last chunk performs its command: a FEED absorbs its bytes, a FINAL writes the digest and ends the context, a keyed OPEN makes the context with its key block. -/
def Obligations.DigestChunksAreAbsorbed : Prop :=
  ∀ (s : State) (cid : Nat) (c : Ctx),
    let held (t : State) (k : DigCtx) (d : DigState) : Prop := ∃ x ∈ t.dig.ctxs, x.id = k.id ∧ x.d = d ∧ x.lastCsn = c.csn
    let gone (t : State) (k : DigCtx) : Prop := ∀ x ∈ t.dig.ctxs, x.id ≠ k.id
    let first : Chunk := ⟨cid, chunkSlot s c, s.now, Nat.min 65536 (inputLen c)⟩
    (∀ k, namedDig s c = some k → k.ended = false → c.waitSlot = false → digTurn s c = true → k.busy = none → k.slot.isSome = true →
      (∀ bs, ctxIn s cid 0x11 = some c → chunkOut s cid = false → c.chunkAt = 0 → 0 < eCdw c.dw 1 → fetchFits c.dw (.bytes bs) = true →
        bs.length = eCdw c.dw 1 →
        ∃ t, exec (.digestFeedHost cid (.bytes bs)) s = .next t ∧ ctxOf t cid = some { c with stream := bs } ∧ t.dig.ready = putReady first s.dig.ready) ∧
      (ctxIn s cid 0x12 = some c → chunkOut s cid = false → c.chunkAt = 0 → 0 < eCount c.dw → readVerdict s c = none →
        Nat.min 65536 (inputLen c) ≤ 4096 * leadingUnits s c →
        ∃ t, exec (.digestFeedMedium cid) s = .next t ∧ t.dig.ready = putReady first s.dig.ready ∧ t.map = s.map) ∧
      (∀ list, ctxIn s cid 0x14 = some c → judgeList c.dw 512 4 list = none →
        ∃ t, exec (.digestSave cid list) s = .next t ∧ endedWith t cid (lo32 k.d.fed) (hi32 k.d.fed) ∧ held t k k.d ∧
          t.out = (deliver s c.port (extentsOf c.dw list) (onionOf s k false)).out ∧ t.dig.wrapNext = s.dig.wrapNext + 1)) ∧
    (∀ k ks n, s.dig.ready = k :: ks → (List.range 16).find? (fun n => s.dig.pipes.all (fun p => p.1 != n)) = some n → s.jrnl.stopFrom = none →
      ∃ t, exec .digestChunkDispatch s = .next t ∧ t.dig.ready = ks ∧ t.dig.pipes = s.dig.pipes ++ [(n, k)]) ∧
    (∀ (pipe : Nat) (k : Chunk), s.dig.pipes.find? (fun p => p.1 == pipe) = some (pipe, k) → ctxOf s k.cid = some c → k.cid = cid → c.stage = .admitted →
      s.jrnl.stopFrom = none →
      let left (t : State) : Prop := exec (.digestChunkDone pipe) s = .next t ∧ t.dig.pipes = s.dig.pipes.filter (fun p => p.1 != pipe)
      let rest := inputLen c - (c.chunkAt + k.bytes)
      (c.chunkAt + k.bytes < inputLen c → (namedDig s c).any (·.ended) = false → s.dig.ready.all (fun x => x.cid != cid) = true →
        s.dig.pipes.all (fun p => p.2.cid != cid || p.1 == pipe) = true → c.chunkAt + k.bytes + Nat.min 65536 rest ≤ stagedLen s c →
        ∃ t, left t ∧ t.dig.ready = putReady ⟨cid, chunkSlot s c, s.now, Nat.min 65536 rest⟩ s.dig.ready) ∧
      (inputLen c ≤ c.chunkAt + k.bytes →
        (eOpcode c.dw = 0x10 → ∃ t, left t ∧ ∃ x ∈ t.dig.ctxs, endedWith t cid (w32 x.id) 0 ∧ x.slot = some (c.gotSlot.getD 0) ∧
          x.d = absorb (digFresh (bits (eCdw c.dw 0) 3 0) true) (keyBlock (bits (eCdw c.dw 0) 3 0) (bits (eCdw c.dw 0) 5 5) c.stream)) ∧
        ∀ x, namedDig s c = some x → x.ended = false →
          (eOpcode c.dw = 0x11 → ∃ t, left t ∧ held t x (absorb x.d c.stream) ∧
            endedWith t cid (lo32 (x.d.fed + c.stream.length)) (hi32 (x.d.fed + c.stream.length))) ∧
          (eOpcode c.dw = 0x12 → ∃ t, left t ∧ held t x (absorb x.d ((readBlocks s c).flatMap (fun b => b.2.data))) ∧ endedStatus t cid (readStatus c)) ∧
          (eOpcode c.dw = 0x13 → bits (eCdw c.dw 1) 24 24 = 0 →
            let digest := algDigest x.d.alg (absorb x.d (c.stream.take (bits (eCdw c.dw 1) 16 0))).chain
            ∃ t, left t ∧ gone t x ∧ endedWith t cid (w32 digest.length) 0 ∧ t.out = s.out ++ [.bytes c.port (eCdw23 c.dw) digest])))

/-- R428, R430, R431: a request of 1 B to 1 MiB takes the lowest free unit of its smallest fitting pod where it may, and waits at the last pod of its path where no pod has a unit
for it; a free of an allocated unit's first byte frees it, and any other free changes no pod and is counted. -/
def Obligations.PodUnitsAreGrantedAndFreed : Prop :=
  ∀ s : State,
    (∀ (r size : Nat) (dram : Bool), r < 15 → 1 ≤ size → size ≤ 1048576 →
      (podEligible s r (podFor size) = true →
        ∃ t, exec (.podRequest r size dram) s = .next t ∧ t.pods.used = s.pods.used ++ [(podFor size, podFirstFree s (podFor size), r)] ∧
          t.pods.waiting = s.pods.waiting ∧ podUsed s (podFor size) (podFirstFree s (podFor size)) = false) ∧
      ((∀ k ∈ podPath size dram, podEligible s r k = false) →
        ∃ t k, exec (.podRequest r size dram) s = .next t ∧ (podPath size dram).getLast? = some k ∧ t.pods.used = s.pods.used ∧
          t.pods.waiting = s.pods.waiting ++ [⟨r, k, dram⟩])) ∧
    (∀ pod offset : Nat, pod < 5 → offset % podUnit pod = 0 → podUsed s pod (offset / podUnit pod) = true → s.pods.waiting = [] →
      ∃ t, exec (.podFree pod offset) s = .next t ∧ t.pods.used = s.pods.used.filter (fun u => !(u.1 == pod && u.2.1 == offset / podUnit pod))) ∧
    (∀ pod offset : Nat, (pod < 5 → offset % podUnit pod = 0 → podUsed s pod (offset / podUnit pod) = false) →
      ∃ t, exec (.podFree pod offset) s = .next t ∧ t.pods = s.pods ∧
        (s.ctr.run = true → t.ctr.live = s.ctr.live.modify 6 (· + 1)))

/-- R432, R435 to R439: a post to an idle channel starts a descriptor that passes its checks and reports one that fails them under REPORT; a full channel keeps its
issuer waiting; an ended descriptor returns its TOKEN; a COMPARE difference with CMP_HALT halts the channel with cause 6; a pulse of its line releases a paced descriptor's next bytes. -/
def Obligations.DescriptorsRun : Prop :=
  ∀ (s : State) (ch : Nat) (d : MoverDesc), ch < 64 →
    ((chanOf s ch).st = .idle → (chanOf s ch).descs = [] → (chanOf s ch).waiting = [] → s.jrnl.stopFrom = none →
      (descFault s d = none →
        ∃ t, exec (.moverPost ch d) s = .next t ∧ (chanOf t ch).st = .running ∧ (chanOf t ch).descs = [d] ∧ t.mover.rets = s.mover.rets) ∧
      (∀ cause dir, descFault s d = some (cause, dir) → d.report = true →
        ∃ t, exec (.moverPost ch d) s = .next t ∧ (chanOf t ch).st = .idle ∧ (chanOf t ch).descs = [] ∧
          t.mover.rets = s.mover.rets ++ [⟨ch, d.token, 3, 0, cause, dir⟩])) ∧
    (64 ≤ (chanOf s ch).descs.length →
      ∃ t, exec (.moverPost ch d) s = .next t ∧ (chanOf t ch).waiting = (chanOf s ch).waiting ++ [d] ∧ (chanOf t ch).descs = (chanOf s ch).descs) ∧
    ((chanOf s ch).st = .running → (chanOf s ch).descs = [d] → (chanOf s ch).waiting = [] →
      (d.op = 1 → d.paced = false →
        ∃ t, exec (.moverDescriptorEnd ch .ok) s = .next t ∧ (chanOf t ch).st = .idle ∧ (chanOf t ch).descs = [] ∧
          t.mover.rets = s.mover.rets ++ [⟨ch, d.token, 0, 0, 0, false⟩]) ∧
      (∀ off, d.op = 3 → d.paced = false → d.cmpHalt = true → off < d.length → (56 ≤ ch → carriedCommand s d = none) →
        (ch < 56 → ∃ n ∈ chanGroup ch, n ≠ ch ∧ (chanOf s n).st ≠ .halted) →
        ∃ t, exec (.moverDescriptorEnd ch (.differs off)) s = .next t ∧ (chanOf t ch).st = .halted ∧ (chanOf t ch).cause = 6 ∧
          (chanOf t ch).addr = d.src + off ∧ (chanOf t ch).descs = [d]) ∧
      (∀ line, line < 52 → d.paced = true → d.reqLine = line → (chanOf s ch).released < d.length →
        ∃ t, exec (.reqLinePulse line) s = .next t ∧ (chanOf t ch).released = Nat.min d.length ((chanOf s ch).released + 2 ^ d.paceLog2) ∧
          (chanOf t ch).descs = [d]))

/-- R442: QUERY answers a channel's latch and changes no channel; RESUME of a HALTED channel clears its latch and restarts the faulted descriptor; RESET_CHANNEL discards every posted
descriptor and returns each TOKEN. -/
def Obligations.MoverIsControlled : Prop :=
  ∀ (s : State) (cid : Nat) (c : Ctx),
    let n := bits (eCdw c.dw 0) 13 8
    (actionIn s cid 0x92 0 = some c →
      ∃ t, exec (.moverQuery cid) s = .next t ∧ endedWith t cid (queryResult (chanOf s n)).1 (queryResult (chanOf s n)).2 ∧ t.mover = s.mover) ∧
    (∀ (d : MoverDesc) (ds : List MoverDesc), actionIn s cid 0x92 1 = some c → (chanOf s n).st = .halted → (chanOf s n).descs = d :: ds →
      descFault s d = none → s.jrnl.stopFrom = none →
      ∃ t, exec (.moverResume cid) s = .next t ∧ endedWith t cid 0 0 ∧ (chanOf t n).st = .running ∧ (chanOf t n).cause = 0 ∧
        (chanOf t n).descs = d :: ds ∧ t.mover.rets = s.mover.rets) ∧
    (actionIn s cid 0x92 2 = some c → (chanOf s n).st = .halted → (chanOf s n).waiting = [] →
      ∃ t, exec (.moverResetChannel cid) s = .next t ∧ endedWith t cid 0 0 ∧ (chanOf t n).st = .idle ∧ (chanOf t n).descs = [] ∧
        t.mover.rets = s.mover.rets ++ (chanOf s n).descs.map (fun d => ⟨n, d.token, 4, 0, 0, false⟩))

/-- R445, R446, R448, R449: with PORST_N high and the key given, an aligned command that is allowed starts on its idle bank and takes the key back: a PROGRAM with its 64 words unless a byte of
its unit is not erased or the sector is unverified, ERASE, MARGIN_READ and CRC_SECTOR; a READ answers its unit at once. No byte of the flash changes by a start. A key value out of order
sets SEQUENCE, and the sideband's PROGRAM or ERASE outside recovery mode LOCKED. -/
def Obligations.FlashCommandsStart : Prop :=
  ∀ (s : State) (side : Bool) (addr : Nat), s.kf.porst = false → (kfReq s side).running = none → (kfReq s side).waiting = none →
    (kfReq s (!side)).waiting = none →
    let starts (t : State) (cmd : Nat) : Prop :=
      (kfReq t side).running = some (cmd, addr) ∧ (kfReq t side).key = 0 ∧ kfReq t (!side) = kfReq s (!side) ∧ t.kf.mem = s.kf.mem
    (∀ v : Word, (kfReq s side).key = 0 → bits v.toNat 15 0 = 0xA5C3 →
      ∃ t, exec (.kfKeyWrite side v) s = .next t ∧ kfReq t side = { kfReq s side with key := 1 }) ∧
    (∀ v : Word, (kfReq s side).key = 1 → bits v.toNat 15 0 = 0x3C5A →
      ∃ t, exec (.kfKeyWrite side v) s = .next t ∧ kfReq t side = { kfReq s side with key := 2 }) ∧
    (∀ v : Word, (kfReq s side).key = 2 →
      ∃ t, exec (.kfKeyWrite side v) s = .next t ∧ (kfReq t side).key = 0 ∧ (kfReq t side).flags.getLsbD 4 = true ∧ t.kf.mem = s.kf.mem) ∧
    ((kfReq s side).key = 2 → addr < 0x4000000 → bankBusy s (inBank1 addr) = false →
      (∀ (ws : List Word) (pc : Option Nat), ws.length = 64 → addr % 256 = 0 → kfLockedOut s side 1 addr = false → kfSelf side 1 addr pc = false →
        (notErased s addr (ws.flatMap (fun w => leBytes 4 w.toNat)) = false → s.kf.unverified.contains (sectorOf addr) = false →
          ∃ t, exec (.kfProgram side addr ws pc) s = .next t ∧ starts t 1) ∧
        (notErased s addr (ws.flatMap (fun w => leBytes 4 w.toNat)) = true →
          ∃ t, exec (.kfProgram side addr ws pc) s = .next t ∧ (kfReq t side).running = none ∧ (kfReq t side).flags.getLsbD 8 = true ∧
            t.kf.mem = s.kf.mem)) ∧
      (∀ pc, addr % sectorSize = 0 → kfLockedOut s side 2 addr = false → kfSelf side 2 addr pc = false →
        ∃ t, exec (.kfErase side addr pc) s = .next t ∧ starts t 2) ∧
      (addr % sectorSize = 0 → ∃ t u, exec (.kfMarginRead side addr) s = .next t ∧ starts t 3 ∧ exec (.kfCrcSector side addr) s = .next u ∧ starts u 5) ∧
      (addr % 256 = 0 → recordRegion addr = false →
        ∃ t, exec (.kfRead side addr) s = .next t ∧ (kfReq t side).running = none ∧ (kfReq t side).flags.getLsbD 3 = true ∧ t.kf.mem = s.kf.mem ∧
          ∀ n < 64, dataWord (kfReq t side).data n = w32 (field (memBytes s.kf.mem addr 256) (4 * n) 4)) ∧
      (∀ pc, side = true → s.kf.recMode = false → addr % sectorSize = 0 →
        ∃ t, exec (.kfErase side addr pc) s = .next t ∧ (kfReq t side).running = none ∧ (kfReq t side).key = 0 ∧
          (kfReq t side).flags.getLsbD 6 = true ∧ t.kf.mem = s.kf.mem))

/-- R446, R447: the end of a command sets DONE; an ended PROGRAM that agreed leaves its bytes where the data was not 0xFF, an ended ERASE leaves its sector all 0xFF and unverified, and
every other byte of the flash stays; a MARGIN_READ without weak bits verifies its sector; a CRC_SECTOR leaves the sector's CRC-32C. -/
def Obligations.FlashCommandsEnd : Prop :=
  ∀ (s : State) (side : Bool) (cmd addr measured : Nat) (agreed : Bool), s.kf.porst = false → memWf s.kf.mem = true →
    (kfReq s side).running = some (cmd, addr) → (side = true → runsIn s.kf.core (inBank1 addr) = false) →
    let bs := bufferBytes (kfReq s side).buffer
    ∃ t, exec (.kfCommandDone (inBank1 addr) measured agreed) s = .next t ∧ (kfReq t side).flags.getLsbD 3 = true ∧
      (cmd = 1 → agreed = true → ∀ a, memRead t.kf.mem a =
        if addr ≤ a ∧ a < addr + 256 ∧ bs.getD (a - addr) 0xFF ≠ 0xFF then bs.getD (a - addr) 0xFF else memRead s.kf.mem a) ∧
      (cmd = 1 → agreed = false → (kfReq t side).flags.getLsbD 10 = true ∧ (kfReq t side).pulses = 8) ∧
      (cmd = 2 → addr ∈ t.kf.unverified ∧
        ∀ a, memRead t.kf.mem a = if addr ≤ a ∧ a < addr + sectorSize then 0xFF else memRead s.kf.mem a) ∧
      (cmd = 3 → measured = 0 → zeroBits (memBytes s.kf.mem addr sectorSize) = 0 →
        (kfReq t side).weak = 0 ∧ addr ∉ t.kf.unverified ∧ t.kf.mem = s.kf.mem) ∧
      (cmd = 5 → recordRegion addr = false → (kfReq t side).crc = crc32c (memBytes s.kf.mem addr sectorSize) ∧ t.kf.mem = s.kf.mem)

/-- R450, R451: a write of REQUEST is kept; with FAILED set it enters recovery mode at once, with both ports not ready and ownership gone; a write of EXIT with REQUEST 0 restarts a part in recovery
mode, which leaves no command in a context and keeps no REQUEST. -/
def Obligations.RecoveryModeIsEnteredAndLeft : Prop :=
  ∀ (s : State) (v : Word), s.kf.porst = false →
    (v.getLsbD 0 = true → failedSet s = false →
      ∃ t, exec (.recoveryRequest v) s = .next t ∧ t.kf = { s.kf with recRequest := true }) ∧
    (v.getLsbD 0 = true → failedSet s = true → s.kf.recMode = false →
      ∃ t, exec (.recoveryRequest v) s = .next t ∧ t.kf.recRequest = true ∧ t.kf.recMode = true ∧ t.kf.recCause = 1 ∧ t.portA.ready = false ∧
        t.portB.ready = false ∧ t.twin.own = false) ∧
    (v.getLsbD 0 = false → v.getLsbD 1 = true → s.kf.recMode = true →
      ∃ t, exec (.recoveryExit v) s = .next t ∧ t.kf.recRequest = false ∧ t.ctxs = [] ∧ t.kf.porst = false) ∧
    (v.getLsbD 0 = false → v.getLsbD 1 = true → s.kf.recMode = false →
      ∃ t, exec (.recoveryExit v) s = .next t ∧ t.kf = { s.kf with recRequest := false } ∧ t.ctxs = s.ctxs)

/-- R458: FW_DOWNLOAD of a block whose CRC agrees, in its component's session, leaves the block in its sector of the inactive slot and ends with success; block 0 opens the session of its port; a block
whose CRC disagrees is refused with BAD_FIELD and changes nothing of the keeper. -/
def Obligations.FirmwareIsDownloaded : Prop :=
  ∀ (s : State) (cid : Nat) (c : Ctx) (bs : List Byte), keeperIn s cid 0x88 = some c → keeperHalted s = false → bs.length = 65536 →
    fetchFits c.dw (.bytes bs) = true → memWf s.kf.mem = true →
    let comp := bits (eCdw c.dw 0) 1 0
    let block := bits (eCdw c.dw 1) 7 0
    let base := slotBase (otherSlot s.kf.boot comp) + 65536 * block
    (downloadRefusal s c bs = none → comp < 3 → block < slotSize comp / 65536 →
      ∃ t, exec (.fwDownload cid (.bytes bs)) s = .next t ∧ endedWith t cid 0 0 ∧ (∀ i < 65536, memRead t.kf.mem (base + i) = bs.getD i 0) ∧
        (block ≠ 0 → ∀ a, (a < base ∨ base + 65536 ≤ a) → memRead t.kf.mem a = memRead s.kf.mem a) ∧
        (block = 0 → ∃ x ∈ t.kf.sessions, x.component = comp ∧ x.port = c.port ∧ x.blocks = [0])) ∧
    (downloadRefusal s c bs = none → comp = 3 →
      ∃ t, exec (.fwDownload cid (.bytes bs)) s = .next t ∧ endedWith t cid 0 0 ∧ t.kf.sessions = s.kf.sessions ∧ t.kf.boot = s.kf.boot ∧
        t.kf.effective = s.kf.effective) ∧
    (comp < 3 → compBit s.kf.boot.pend comp = false → compBit s.kf.boot.trial comp = false →
      (∀ x, s.kf.sessions.find? (fun x => x.component == comp) = some x → x.port = c.port) →
      (block = 0 ∨ (s.kf.sessions.find? (fun x => x.component == comp)).isSome = true) → (crc32c bs).toNat ≠ eCdw c.dw 2 →
      ∃ t, exec (.fwDownload cid (.bytes bs)) s = .next t ∧ endedStatus t cid 0x1002 ∧ t.kf = s.kf)

/-- R459, R460, R461: a FW_COMMIT that its checks accept makes the named slots PENDING in state 4, ends their sessions and returns COMPONENTS, and one with a commit pending is refused; FW_CONFIRM ends the trial with its
slots active and erases the trial area; FW_REVERT cancels a pending commit, leaves a trial's boot record as it is, and commits previous slots. -/
def Obligations.FirmwareIsCommittedAndReverted : Prop :=
  ∀ (s : State) (cid : Nat) (c : Ctx),
    let named := fwComps c
    let b := s.kf.boot
    let pends (t : State) : Prop :=
      endedWith t cid (w32 named.toNat) 0 ∧ t.kf.boot.pend = named ∧ t.kf.boot.active = b.active ∧ t.kf.boot.seq = b.seq + 1 ∧
        t.kf.onShutdown = fwOnShutdown c ∧ (∀ k ∈ comps named, ∀ x, t.kf.boot.slots[otherSlot b k]? = some x → x.st = 4 ∧ x.reason = 0) ∧
        (∀ x ∈ t.kf.sessions, compBit named x.component = false)
    (keeperIn s cid 0x89 = some c → b.pend = 0 → b.trial = 0 → (∀ k ∈ comps named, ∃ x ∈ s.kf.sessions, x.component = k) →
      commitReject s named true = none → ∃ t, exec (.fwCommit cid) s = .next t ∧ pends t) ∧
    (keeperIn s cid 0x89 = some c → b.pend ≠ 0 →
      ∃ t, exec (.fwCommit cid) s = .next t ∧ endedStatus t cid 0x1002 ∧ t.kf = s.kf) ∧
    (keeperIn s cid 0x8A = some c → b.trial ≠ 0 →
      ∃ t, exec (.fwConfirm cid) s = .next t ∧ endedWith t cid 0 0 ∧ t.kf.boot.trial = 0 ∧ t.kf.boot.active = b.active ∧ t.kf.boot.seq = b.seq + 1 ∧
        (∀ k ∈ comps b.trial, ∀ x, t.kf.boot.slots[activeSlot b k]? = some x → x.st = 3) ∧
        ∀ a, 0x3DD0000 ≤ a → a < 0x3ED0000 → memRead t.kf.mem a = 0xFF) ∧
    (keeperIn s cid 0x8B = some c → b.trial ≠ 0 → named = b.trial →
      ∃ t, exec (.fwRevert cid) s = .next t ∧ endedWith t cid 0 0 ∧ t.kf = { s.kf with onShutdown := fwOnShutdown c }) ∧
    (keeperIn s cid 0x8B = some c → b.trial = 0 → b.pend ≠ 0 → named = b.pend →
      ∃ t, exec (.fwRevert cid) s = .next t ∧ endedWith t cid 0 0 ∧ t.kf.boot.pend = 0 ∧ t.kf.boot.active = b.active ∧ t.kf.onShutdown = false ∧
        ∀ k ∈ comps named, ∀ x, t.kf.boot.slots[otherSlot b k]? = some x → x.st = 1) ∧
    (keeperIn s cid 0x8B = some c → b.trial = 0 → b.pend = 0 →
      (∀ k ∈ comps named, (b.slots.getD (otherSlot b k) ⟨0, 0, 0, 0⟩).st = 1) → commitReject s named false = none →
      ∃ t, exec (.fwRevert cid) s = .next t ∧ pends t)

/-- R465 to R468, R470, R471, R512: the idle timer and PS4_NOW enter the shallower of the target and the cap and count a refused target; the steps of Table 20-4 run in order and an entry that fails or is woken
returns to PS0; the domains go off at c + 4, in PS4 with the counters and the Periscope ring lost (R487); a source wakes the states of Table 20-5. -/
def Obligations.PowerStatesAreEnteredAndLeft : Prop :=
  ∀ s : State, s.jrnl.stopFrom = none → s.kf.porst = false →
    let abandoned (t : State) (target reason : Nat) : Prop :=
      t.power.entering = none ∧ t.power.st = 0 ∧ t.power.refuseValid = true ∧ t.power.refuseTarget = target ∧ t.power.refuseReason = reason
    let woken (t : State) (code : Nat) : Prop :=
      t.power.st = 0 ∧ t.power.wakeSource = code ∧ t.power.wakeFrom = s.power.st ∧ t.power.wakeAet = s.cad.aet ∧ t.power.domainsOff = false
    (∀ cyc, cyc ≤ s.now → s.power.entering = none → s.kf.released = true → s.power.st < powerTarget s →
      let go := Nat.min (powerTarget s) (powerCap s)
      ∃ t, exec (.idleTimerExpiry cyc) s = .next t ∧
        (go ≤ s.power.st → t.power.st = s.power.st ∧ t.power.entering = none) ∧
        (s.power.st < go → go < 3 → t.power.st = go ∧ t.power.entering = none) ∧
        (s.power.st < go → 3 ≤ go → t.power.st = s.power.st ∧ t.power.entering = some (go, 1)) ∧
        (powerCap s < powerTarget s → s.power.lastRefused = none →
          t.power.refuseValid = true ∧ t.power.refuseTarget = powerTarget s ∧ t.power.refuseReason = refusalReason s (powerTarget s) ∧ t.power.ps4Now = false)) ∧
    (∀ (v : Word) cyc, cyc ≤ s.now → v.getLsbD 4 = true →
      ∃ t, exec (.ps4NowWrite v cyc) s = .next t ∧ t.power.testHold = (bits v.toNat 5 5 == 1) ∧ (bits v.toNat 2 0 ≤ 4 → t.power.limit = bits v.toNat 2 0) ∧
        (bits v.toNat 2 0 = 4 → bits v.toNat 5 5 = 0 → s.power.entering = none → s.kf.released = true → s.power.st < 4 →
          powerCap { s with power := { s.power with limit := 4, testHold := false } } = 4 → t.power.entering = some (4, 1) ∧ t.power.ps4Now = true)) ∧
    (∀ target n ok ao, s.power.entering = some (target, n) → 1 ≤ n → n ≤ 6 →
      ∃ t, exec (.psDeepEntry n ok ao) s = .next t ∧
        (s.ctxs ≠ [] → abandoned t target 0) ∧
        (s.ctxs = [] → ok = false → abandoned t target (if n = 5 ∨ n = 6 then 5 else 7)) ∧
        (s.ctxs = [] → ok = true → n ≤ 2 → mediumInUse s = false ∨ s.jrnl.cleanStands = true → t.power.entering = some (target, n + 1)) ∧
        (s.ctxs = [] → ok = true → 3 ≤ n → n ≤ 5 → t.power.entering = some (target, n + 1) ∧
          (n = 3 → ∀ b ∈ t.media.bays, b.writable = false ∧ (target = 4 → b.pwrEn = false ∧ b.connected = false))) ∧
        (s.ctxs = [] → ok = true → n = 6 → s.power.avsPending = none →
          t.power.entering = some (target, 7) ∧ t.power.commitAo = some ao ∧ t.power.ps4Now = false)) ∧
    (∀ target n c lvl, s.power.entering = some (target, n) → s.power.commitAo = some c →
      ∃ t, exec (.domainsOff (c + 4) lvl) s = .next t ∧
        (lvl = none → s.power.matchLatch = false →
          t.power.st = target ∧ t.power.entering = none ∧ t.power.domainsOff = true ∧ t.twin.lanes = 0 ∧
          (target = 4 → t.ctr.live = s.ctr.live.map (fun _ => 0) ∧ t.ctr.ring = [] ∧ t.ctr.epoch = (s.ctr.epoch + 1) % 65536) ∧
          (target ≠ 4 → t.ctr = s.ctr)) ∧
        (∀ a, lvl = some a → levelSource a = true → t.power.st = 0 ∧ t.power.wakeFrom = target ∧ t.power.refusals = s.power.refusals)) ∧
    (∀ code ao,
      (s.power.entering = none → wakesFrom code s.power.st = true → ∃ t, exec (.wake code ao) s = .next t ∧ woken t code) ∧
      (s.power.entering = none → wakesFrom code s.power.st = false → exec (.wake code ao) s = .next s) ∧
      (∀ target n, s.power.entering = some (target, n) → s.power.commitAo = none → 1 ≤ code → code ≤ 10 →
        ∃ t, exec (.wake code ao) s = .next t ∧ abandoned t target 6) ∧
      (∀ target n c, s.power.entering = some (target, n) → s.power.commitAo = some c →
        (ao < c → ∃ t, exec (.wake code ao) s = .next t ∧ abandoned t target 6) ∧ (c ≤ ao → exec (.wake code ao) s = .next s))) ∧
    (∀ ao, s.power.entering = none → 3 ≤ s.power.st → s.power.st ≤ 4 → s.power.entryAet + 3600 * s.power.maintWake ≤ aetSec s.cad.aet →
      ∃ t, exec (.maintWakeTimer ao) s = .next t ∧ woken t 8) ∧
    (∀ a, a = 0x60 + s.kf.sbAddr.toNat ∨ s.side.dyn = some (BitVec.ofNat 7 a) → s.side.wakeOnMatch = true → s.power.entering = none → 1 ≤ s.power.st →
      s.power.st ≤ 4 → ∃ t, exec (.sbAddressMatch a) s = .next t ∧ woken t 5 ∧ t.power.matchLatch = false) ∧
    (∀ r, ∃ t, exec (.jtagTapStateChange r) s = .next t ∧ t.power.tapOut = !r ∧
      (s.power.entering = none → 1 ≤ s.power.st → s.power.st ≤ 4 → woken t 10))

/-- R474, R476, R477, R482: AVSBus requests are acknowledged, resent up to four attempts and then hold FAULT; the band follows REPORTED_MAX; a trip stops the
part, is counted and holds it down. -/
def Obligations.SupplyAndTemperatureAreHeld : Prop :=
  ∀ (s : State) (cyc : Nat), cyc ≤ s.now →
    (∀ n raise, s.power.avsPending = some (n, raise) →
      (∃ t, exec (.avsAck cyc) s = .next t ∧ t.power.avsNow = s.power.avsTarget ∧ t.power.avsFault = false ∧ t.power.avsHold = false ∧
        (s.power.avsNext = none → t.power.avsPending = none) ∧
        (∀ mv, s.power.avsNext = some mv → t.power.avsTarget = mv ∧ t.power.avsPending = some (1, decide (s.power.avsTarget < mv)))) ∧
      (n < 4 → s.power.avsAt + 100000 ≤ s.now → ∃ t r, exec (.avsRetryTimeout cyc) s = .next t ∧ t.power.avsPending = some (n + 1, r) ∧
        t.power.avsRetries = satAdd 0xFFFF s.power.avsRetries 1 ∧ t.power.avsTarget = s.power.avsNext.getD s.power.avsTarget) ∧
      (n = 4 → s.power.avsAt + 100000 ≤ s.now → ∃ t, exec (.avsRetryTimeout cyc) s = .next t ∧ t.power.avsFault = true ∧
        t.power.avsHold = (s.power.avsHold || raise) ∧ t.power.avsPending = some (5, raise) ∧
        (∀ target k, s.power.entering = some (target, k) → s.power.commitAo = none → t.power.entering = none ∧ t.power.st = 0 ∧ t.power.refuseReason = 5)) ∧
      (4 < n → s.power.avsAt + 10000000 ≤ s.now → ∃ t r, exec (.avsRetryTimeout cyc) s = .next t ∧ t.power.avsPending = some (n, r) ∧
        t.power.avsFault = s.power.avsFault)) ∧
    (∀ raw, s.kf.porst = false → s.kf.tripHold = false →
      ∃ t, exec (.sensorSample raw) s = .next t ∧ t.power.maxTemp = (takeSample s raw).power.maxTemp ∧ t.power.valid = (takeSample s raw).power.valid ∧
        t.power.band = bandFor (takeSample s raw) ∧
        (t.power.band ≠ s.power.band → s.evSeq < t.evSeq)) ∧
    (∀ comparator, s.kf.porst = false → s.power.tripped = false → (comparator = true ∨ ∃ n ∈ s.power.hotRuns, 2 ≤ n) →
      ∃ t, exec (.thermalTrip comparator cyc) s = .next t ∧ t.power.tripped = true ∧ t.power.trips = s.power.trips + 1 ∧ faultLow t = true ∧
        (s.kf.recMode = false → s.jrnl.stopFrom = none → t.jrnl.stopFrom.isSome = true ∧ t.jrnl.stopKind = .powerFail))

/-- R479, R480: LT follows REPORTED_MAX and the band, LP the estimate and the cap, and L is the greatest of LT, LP and a held level 12; F = (16 - L)/16 bounds
the dies of a channel that may be busy. -/
def Obligations.ThrottleLevelsAreSet : Prop :=
  ∀ s : State, s.power.st ≤ 2 → s.kf.porst = false →
    (∀ raw, s.kf.tripHold = false →
      ∃ t, exec (.sensorSample raw) s = .next t ∧
        (t.power.band ≠ 4 → t.power.lt = 0) ∧
        (t.power.band = 4 → t.power.maxTemp < s.feat.throttlePoint → t.power.lt = 1) ∧
        (t.power.band = 4 → s.feat.throttlePoint ≤ t.power.maxTemp →
          (t.power.lt : Int) = min 12 (2 + 2 * (t.power.maxTemp - s.feat.throttlePoint)))) ∧
    (∀ w a, ∃ t, exec (.powerLevelUpdate w a) s = .next t ∧
        (s.power.cap = 0 → t.power.lp = 0) ∧
        (s.power.cap ≠ 0 → 10 * s.power.cap < t.power.est → t.power.lp = Nat.min 12 (s.power.lp + 1)) ∧
        (s.power.cap ≠ 0 → t.power.est + 20 < 10 * s.power.cap → t.power.lp = s.power.lp - 1) ∧
        (s.power.cap ≠ 0 → t.power.est ≤ 10 * s.power.cap → 10 * s.power.cap ≤ t.power.est + 20 → t.power.lp = s.power.lp)) ∧
    (s.power.lt ≤ throttleLevel s ∧ s.power.lp ≤ throttleLevel s ∧
      ((s.power.avsHold = true ∨ s.power.degraded = true) → 12 ≤ throttleLevel s) ∧
      (throttleLevel s = s.power.lt ∨ throttleLevel s = s.power.lp ∨
        ((s.power.avsHold = true ∨ s.power.degraded = true) ∧ throttleLevel s = 12))) ∧
    (∀ l d, l ≤ 16 → (16 - l) * d ≤ 16 * dieLimit l d ∧ 16 * dieLimit l d < (16 - l) * d + 16)

/-- R485, R486, R487, R490, R491, R494, R495: a command slot adds one to SLOTS and to the one counter of 2 to 5 that the retirement queue and the commands in flight name; CLEAR and SNAP act as written; a snapshot is readable after
32 cycles; a CNT_SEL write selects and clears its counter, or is ignored; a counter read is exact in a snapshot and misses at most what R485 allows live; PSC_HEAD is stored. -/
def Obligations.CountersCountSnapAndClear : Prop :=
  ∀ s : State,
    (∀ cyc, cyc ≤ s.now → s.power.st < 2 → s.kf.porst = false → s.ctr.run = true →
      ∃ t i, exec (.commandSlot cyc) s = .next t ∧ t.ctr.live = (s.ctr.live.modify 1 (· + 1)).modify i (· + 1) ∧
        (∀ r rs, s.ctr.retire.filter (fun r => judgedPort s r.port) = r :: rs → 0 < r.units → i = if r.ok then 2 else 3) ∧
        (s.ctr.retire.filter (fun r => judgedPort s r.port) = [] → i = if commandInFlight s then 5 else 4)) ∧
    (∀ req (v : Word), req ≠ .sideband →
      (v.getLsbD 1 = true → ∃ t, exec (.cntClear req v) s = .next t ∧ t.ctr.live = s.ctr.live.map (fun _ => 0) ∧ t.ctr.epoch = (s.ctr.epoch + 1) % 65536 ∧
        t.ctr.run = v.getLsbD 0 ∧ t.ctr.snapOnWindow = v.getLsbD 3) ∧
      (∀ cyc, cyc ≤ s.now → v.getLsbD 2 = true → ∃ t, exec (.cntSnap req v cyc) s = .next t ∧
        (s.ctr.collecting = none → t.ctr.collecting = some (s.ctr.live, s.cad.aet, retireBacklog s, s.now + 32)) ∧
        (s.ctr.collecting ≠ none → t.ctr.collecting = s.ctr.collecting ∧ t.ctr.held = true))) ∧
    (∀ cyc vals aet backlog at_, cyc ≤ s.now → s.ctr.collecting = some (vals, aet, backlog, at_) → at_ ≤ s.now →
      ∃ t, exec (.snapshotReady cyc) s = .next t ∧ t.ctr.snap = vals ∧ t.ctr.snapAet = aet ∧ t.ctr.snapBacklog = backlog ∧
        t.ctr.snapSeq = (s.ctr.snapSeq + 1) % 65536 ∧ t.ctr.live = s.ctr.live ∧
        (s.ctr.held = false → t.ctr.collecting = none) ∧
        (s.ctr.held = true → t.ctr.collecting = some (s.ctr.live, s.cad.aet, retireBacklog s, s.now + 33))) ∧
    (∀ (v : Word) cyc, cyc ≤ s.now → v.getLsbD 0 = true → s.power.domainsOff = false →
      ∃ t, exec (.mirrorSnapWrite v cyc) s = .next t ∧ t.ctr.mirrorWait = (if s.ctr.collecting.isSome then 2 else 1) ∧ t.ctr.collecting.isSome = true) ∧
    (∀ req n (v : Word), req ≠ .sideband → 8 ≤ n → n ≤ 47 →
      (selAllowed (bits v.toNat 7 0) (bits v.toNat 12 8) = true → ∃ t, exec (.cntSelWrite req n v) s = .next t ∧
        t.ctr.sel = s.ctr.sel.set (n - 8) (bits v.toNat 7 0, bits v.toNat 12 8) ∧ t.ctr.live = s.ctr.live.set n 0) ∧
      (selAllowed (bits v.toNat 7 0) (bits v.toNat 12 8) = false → exec (.cntSelWrite req n v) s = .next s)) ∧
    (∀ req n, n < 48 →
      let latched (t : State) : Word := match req with
        | .portA => t.portA.ctrHi
        | .portB => t.portB.ctrHi
        | .sideband => t.ctr.sideHi
      (∃ t, exec (.counterLowRead req true n) s = .next t ∧ t.readData = lo32 (s.ctr.snap.getD n 0) ∧ latched t = hi32 (s.ctr.snap.getD n 0)) ∧
      (∃ t v, exec (.counterLowRead req false n) s = .next t ∧ v ≤ s.ctr.live.getD n 0 ∧ s.ctr.live.getD n 0 ≤ v + counterSlack s n ∧
        t.readData = lo32 v ∧ latched t = hi32 v ∧ t.ctr.live = s.ctr.live)) ∧
    (∀ req (v : Word), req ≠ .sideband → ∃ t, exec (.pscHeadWrite req v) s = .next t ∧ t.ctr.head = bits v.toNat 11 0 ∧ t.ctr.tail = s.ctr.tail ∧
      t.ctr.ring = s.ctr.ring)

/-- R507, R510, R511: the common command codes assign, drop and report as the sideband target answers them; a write cut short changes nothing and each of its errors is counted; ACT_N rises when its 20 ms have run and no command is in progress. -/
def Obligations.SidebandTargetAnswers : Prop :=
  ∀ s : State,
    (s.kf.porst = false →
      (∀ off n ok, ∃ t, exec (.sbRegisterWriteShort off n ok) s = .next t ∧ t = { s with side := { s.side with
        misaligned := if off % 4 ≠ 0 ∨ 0x8FF < off then satAdd 0xFF s.side.misaligned 1 else s.side.misaligned
        shortWrite := if n < 4 then satAdd 0xFF s.side.shortWrite 1 else s.side.shortWrite
        pecFail := if s.side.pec = true ∧ ok = false then satAdd 0xFF s.side.pecFail 1 else s.side.pecFail } }) ∧
      (exec .rstdaa s = .next { s with side := { s.side with dyn := none } }) ∧
      (∀ a, exec (.entdaa a true) s = .next { s with side := { s.side with dyn := some a, ccc := beBytes 6 Config.i3cPid.toNat ++ [bcrByte, Config.i3cDcr] } }) ∧
      (∀ a, exec (.entdaa a false) s = .next s) ∧
      (∀ st a : BitVec 7, st.toNat = 0x60 + s.kf.sbAddr.toNat → exec (.setdasa st a) s = .next { s with side := { s.side with dyn := some a } }) ∧
      (∀ st a : BitVec 7, st.toNat ≠ 0x60 + s.kf.sbAddr.toNat → exec (.setdasa st a) s = .next s) ∧
      (∀ o a, s.side.dyn = some o → exec (.setnewda o a) s = .next { s with side := { s.side with dyn := some a } }) ∧
      (∀ o a, s.side.dyn ≠ some o → exec (.setnewda o a) s = .next s) ∧
      (exec .getpid s = .next { s with side := { s.side with ccc := beBytes 6 Config.i3cPid.toNat } }) ∧
      (∃ b, exec .getbcr s = .next { s with side := { s.side with ccc := [b] } } ∧ b.getLsbD 1 = false ∧ b.getLsbD 5 = false ∧ b.getLsbD 6 = false) ∧
      (exec .getdcr s = .next { s with side := { s.side with ccc := [Config.i3cDcr] } }) ∧
      (∃ bs, exec .getstatus s = .next { s with free := s.free + 1, side := { s.side with ccc := bs } } ∧ bs.length = 2)) ∧
    (∀ cyc, cyc ≤ s.now →
      (∀ u, s.side.actUntil = some u → u ≤ s.now → anyAdmitted s = false → ∃ t, exec (.actNStretchEnd cyc) s = .next t ∧ actLow t = false) ∧
      (∀ u, s.side.actUntil = some u → s.now < u → exec (.actNStretchEnd cyc) s = .next s))

end
end

