-- ==== Sys2Proof/Laws/Bytes.lean ====
section
/-! SUPPORT. Bytes written read back: little-endian fields, a CRC at the end of a structure, and the sixteen copies of a descriptor frame (R94, R237). -/
namespace Sys2Proof.Laws
open Sys2Proof Sys2Proof.Machine

@[simp] theorem leBytes_length (n x : Nat) : (leBytes n x).length = n := by
  induction n generalizing x with
  | zero => rfl
  | succ n ih => simp [leBytes, ih]

/-- A number that fits its bytes is read back from them. -/
theorem leNat_leBytes (n x : Nat) (h : x < 256 ^ n) : leNat (leBytes n x) = x := by
  induction n generalizing x with
  | zero => simp only [Nat.pow_zero, Nat.lt_one_iff] at h; subst h; rfl
  | succ n ih =>
    have h' : x / 256 < 256 ^ n := by rw [Nat.div_lt_iff_lt_mul (by decide)]; rw [Nat.pow_succ] at h; exact h
    simp only [leBytes, leNat, ih _ h', BitVec.toNat_ofNat]
    omega

/-- The last field of a structure. -/
theorem field_last (b : List Byte) (n x : Nat) (h : x < 256 ^ n) : field (b ++ leBytes n x) b.length n = x := by
  simp [field, slice, List.take_of_length_le, leNat_leBytes n x h]

/-- A GUARD at the end of a structure is that of the bytes before it (R149). -/
theorem guard_last (b : List Byte) :
    (field (b ++ leBytes 8 (crc64 b).toNat) b.length 8 == (crc64 ((b ++ leBytes 8 (crc64 b).toNat).take b.length)).toNat) = true := by
  rw [field_last _ _ _ (by have := (crc64 b).isLt; simpa using this), List.take_left]
  exact beq_self_eq_true _

/-- A frame as it is formed passes its CRC (R237). -/
theorem frameOk_frameWith (seq index : Nat) (payload : List Byte) (h : payload.length = 1012) : frameOk (frameWith seq index payload) = true := by
  have hb : (leBytes 4 index ++ leBytes 4 (seq % 2 ^ 32) ++ payload).length = 1020 := by simp [h]
  have := field_last (leBytes 4 index ++ leBytes 4 (seq % 2 ^ 32) ++ payload) 4
    (crc32c (leBytes 4 index ++ leBytes 4 (seq % 2 ^ 32) ++ payload)).toNat (by have := (crc32c (leBytes 4 index ++ leBytes 4 (seq % 2 ^ 32) ++ payload)).isLt; simpa using this)
  simp only [frameOk, frameWith]
  rw [hb] at this
  rw [this, ← hb, List.take_left]
  exact beq_self_eq_true _

/-- A descriptor frame has 1,024 bytes and carries its part of the payload. -/
theorem descriptorFrame_length (seq i : Nat) (p : List Byte) : (descriptorFrame seq i p).length = 1024 := by
  simp only [descriptorFrame, frameWith, List.length_append, leBytes_length, padTo, zeros, List.length_replicate, slice, List.length_take, List.length_drop]
  omega

theorem slice_descriptorFrame (seq i : Nat) (p : List Byte) : slice (descriptorFrame seq i p) 8 1012 = padTo 1012 (slice p (1012 * i) 1012) := by
  have hl : (padTo 1012 (slice p (1012 * i) 1012)).length = 1012 := by
    simp only [List.length_append, padTo, zeros, List.length_replicate, slice, List.length_take, List.length_drop]; omega
  simp only [descriptorFrame, frameWith, slice, List.append_assoc]
  rw [← List.append_assoc (leBytes 4 i), List.drop_left' (by simp), List.take_append_of_le_length (by simpa [slice] using hl.ge)]
  exact List.take_of_length_le (by simpa [slice] using hl.le)

/-- The majority of sixteen copies of a byte is the byte. -/
theorem majorityByte_copies (x : Byte) : majorityByte (List.replicate 16 x) = x := by
  revert x; decide

/-- A byte of the copies laid end to end. -/
theorem copies_getD (f : List Byte) : ∀ n k j : Nat, k < n → j < f.length →
    ((List.replicate n f).flatten).getD (f.length * k + j) 0 = f.getD j 0
  | 0, _, _, h, _ => absurd h (Nat.not_lt_zero _)
  | n + 1, 0, j, _, hj => by
    simp only [List.replicate_succ, List.flatten_cons, Nat.mul_zero, Nat.zero_add]
    exact List.getD_append _ _ _ _ hj
  | n + 1, k + 1, j, h, hj => by
    simp only [List.replicate_succ, List.flatten_cons]
    rw [List.getD_append_right _ _ _ _ (by rw [Nat.mul_succ]; omega)]
    have := copies_getD f n k j (by omega) hj
    rwa [show f.length * (k + 1) + j - f.length = f.length * k + j by rw [Nat.mul_succ]; omega]

/-- A frame is read back from the page that holds it (R237). -/
theorem majorityFrame_page (f : Profile) (frame : List Byte) (h : frame.length = 1024) : majorityFrame (descriptorPage f frame).1 = frame := by
  have hp : (descriptorPage f frame).1 = (List.replicate 16 frame).flatten := by
    simp only [descriptorPage]; rfl
  rw [hp, majorityFrame]
  apply List.ext_getElem
  · simp [h]
  · intro j hj _
    have hj' : j < 1024 := by simpa using hj
    simp only [List.getElem_map, List.getElem_range]
    have : (List.range 16).map (fun k => ((List.replicate 16 frame).flatten).getD (1024 * k + j) 0) = List.replicate 16 (frame.getD j 0) := by
      apply List.ext_getElem
      · simp
      · intro k hk _
        have hk' : k < 16 := by simpa using hk
        simp only [List.getElem_map, List.getElem_range, List.getElem_replicate]
        have := copies_getD frame 16 k j hk' (by omega)
        rwa [h] at this
    rw [this, majorityByte_copies]
    exact List.getD_eq_getElem _ _ (by omega)

end Sys2Proof.Laws
end

