-- ==== Sys2Proof/Laws/Frames.lean ====
section
/-! SUPPORT. What an operation leaves unchanged: rest L s is all of s but the parts of the list L and the queue of commands, which is kept
always; the laws of rest for the base updates. Each lemma rest_f of the other Frames files says which parts f may change. -/
namespace Sys2Proof.Laws
open Sys2Proof Sys2Proof.Machine

set_option linter.unreachableTactic false
set_option linter.unusedTactic false

/-- A part is in the list. -/
def has (L : List Part) (p : Part) : Bool := L.contains p

/-- Every part of the first list is in the second. -/
def sub (M L : List Part) : Bool := M.all (fun p => has L p)

theorem sub_trans {M N L : List Part} (h : sub M N = true) (g : sub N L = true) : sub M L = true := by
  simp only [sub, has, List.all_eq_true, List.contains_iff_mem] at *
  exact fun p hp => g p (h p hp)

theorem has_of_sub {N L : List Part} {p : Part} (g : sub N L = true) (h : has N p = true) : has L p = true := by
  simp only [sub, has, List.all_eq_true, List.contains_iff_mem] at *
  exact g p h

/-- Every part but one: the list for a lemma that one part stays. -/
def but (p : Part) : List Part := everything.filter (fun q => q != p)

/-- A value kept unless its part is in the list. -/
def kept {α : Type} (L : List Part) (p : Part) (x : α) : Option α := if has L p then none else some x

theorem kept_eq {α : Type} {L : List Part} {p : Part} {x y : α} (h : has L p = true ∨ x = y) : kept L p x = kept L p y := by
  unfold kept
  rcases h with h | h <;> simp [h]

theorem eq_of_kept {α : Type} {L : List Part} {p : Part} {x y : α} (h : kept L p x = kept L p y) (hp : has L p = false) : x = y := by
  simp only [kept, hp] at h
  exact Option.some.inj h

/-- What is left of a state when the parts of a list are blanked. -/
structure Rest where
  pending : List Instr
  now : Option (Nat)
  free : Option (Nat)
  cond : Option (Half)
  readData : Option (Word)
  out : Option (List Out)
  csnNext : Option (Nat)
  csnIssued : Option (Nat)
  csnBlock : Option (Nat)
  ctxs : Option (List Ctx)
  errSeq : Option (Nat)
  evSeq : Option (Nat)
  evHist : Option (List Event)
  raised : Option (List Raised)
  condFrom : Option (Option Half)
  ports : Option (PortSt × PortSt)
  portCtl : Option ((Nat × Nat × Nat × Nat × List MsixEntry × Bool × Bool) × (Nat × Nat × Nat × Nat × List MsixEntry × Bool × Bool))
  cad : Option (Cad)
  cadCtl : Option (Bool × Bool × Bool × Nat × Word × Word)
  feat : Option (Feat)
  health : Option (Health)
  map : Option (MapImg)
  eng : Option (MapEng)
  media : Option (Media)
  jrnl : Option (Jrnl)
  twin : Option (Twin)
  twinCtl : Option (Bool × Bool × Bool)
  dig : Option (Dig)
  pods : Option (Pods)
  mover : Option (Mover)
  kf : Option (Kf)
  kfMem : Option (List Host.Cell)
  kfCtl : Option (BitVec 3 × BitVec 4 × Option (BitVec 384) × BitVec 4)
  power : Option (Power)
  powerCtl : Option (Nat × Bool × Nat × Nat × Nat)
  ctr : Option (Ctr)
  ctrCtl : Option (Bool × Bool × Nat × List (Nat × Nat) × Bool × Bool × Bool × Nat × Word)
  side : Option (Side)
  sideCtl : Option (Bool × Bool × Option (BitVec 7))

def rest (L : List Part) (s : State) : Rest where
  pending := s.pending
  now := kept L .now s.now
  free := kept L .free s.free
  cond := kept L .cond s.cond
  readData := kept L .readData s.readData
  out := kept L .out s.out
  csnNext := kept L .csnNext s.csnNext
  csnIssued := kept L .csnIssued s.csnIssued
  csnBlock := kept L .csnBlock s.csnBlock
  ctxs := kept L .ctxs s.ctxs
  errSeq := kept L .errSeq s.errSeq
  evSeq := kept L .evSeq s.evSeq
  evHist := kept L .evHist s.evHist
  raised := kept L .raised s.raised
  condFrom := kept L .condFrom s.condFrom
  ports := kept L .ports (s.portA, s.portB)
  portCtl := kept L .portCtl (portCtl s.portA, portCtl s.portB)
  cad := kept L .cad s.cad
  cadCtl := kept L .cadCtl (cadCtl s.cad)
  feat := kept L .feat s.feat
  health := kept L .health s.health
  map := kept L .map s.map
  eng := kept L .eng s.eng
  media := kept L .media s.media
  jrnl := kept L .jrnl s.jrnl
  twin := kept L .twin s.twin
  twinCtl := kept L .twinCtl (twinCtl s.twin)
  dig := kept L .dig s.dig
  pods := kept L .pods s.pods
  mover := kept L .mover s.mover
  kf := kept L .kf s.kf
  kfMem := kept L .kfMem s.kf.mem
  kfCtl := kept L .kfCtl (kfCtl s.kf)
  power := kept L .power s.power
  powerCtl := kept L .powerCtl (powerCtl s.power)
  ctr := kept L .ctr s.ctr
  ctrCtl := kept L .ctrCtl (ctrCtl s.ctr)
  side := kept L .side s.side
  sideCtl := kept L .sideCtl (sideCtl s.side)

/-- Two states of which no part outside the list differs agree on each of those parts. -/
theorem same_of_rest {L : List Part} {t s : State} (h : rest L t = rest L s) : t.pending = s.pending ∧ ∀ p, has L p = false → same p t s := by
  simp only [rest, Rest.mk.injEq] at h
  obtain ⟨h0, hnow, hfree, hcond, hreadData, hout, hcsnNext, hcsnIssued, hcsnBlock, hctxs, herrSeq, hevSeq, hevHist, hraised, hcondFrom, hports, hportCtl, hcad, hcadCtl, hfeat, hhealth, hmap, heng, hmedia, hjrnl, htwin, htwinCtl, hdig, hpods, hmover, hkf, hkfMem, hkfCtl, hpower, hpowerCtl, hctr, hctrCtl, hside, hsideCtl⟩ := h
  refine ⟨h0, fun p hp => ?_⟩
  cases p
  · exact eq_of_kept hnow hp
  · exact eq_of_kept hfree hp
  · exact eq_of_kept hcond hp
  · exact eq_of_kept hreadData hp
  · exact eq_of_kept hout hp
  · exact eq_of_kept hcsnNext hp
  · exact eq_of_kept hcsnIssued hp
  · exact eq_of_kept hcsnBlock hp
  · exact eq_of_kept hctxs hp
  · exact eq_of_kept herrSeq hp
  · exact eq_of_kept hevSeq hp
  · exact eq_of_kept hevHist hp
  · exact eq_of_kept hraised hp
  · exact eq_of_kept hcondFrom hp
  · exact Prod.mk.inj (eq_of_kept hports hp)
  · exact Prod.mk.inj (eq_of_kept hportCtl hp)
  · exact eq_of_kept hcad hp
  · exact eq_of_kept hcadCtl hp
  · exact eq_of_kept hfeat hp
  · exact eq_of_kept hhealth hp
  · exact eq_of_kept hmap hp
  · exact eq_of_kept heng hp
  · exact eq_of_kept hmedia hp
  · exact eq_of_kept hjrnl hp
  · exact eq_of_kept htwin hp
  · exact eq_of_kept htwinCtl hp
  · exact eq_of_kept hdig hp
  · exact eq_of_kept hpods hp
  · exact eq_of_kept hmover hp
  · exact eq_of_kept hkf hp
  · exact eq_of_kept hkfMem hp
  · exact eq_of_kept hkfCtl hp
  · exact eq_of_kept hpower hp
  · exact eq_of_kept hpowerCtl hp
  · exact eq_of_kept hctr hp
  · exact eq_of_kept hctrCtl hp
  · exact eq_of_kept hside hp
  · exact eq_of_kept hsideCtl hp

theorem pending_of_rest {L : List Part} {t s : State} (h : rest L t = rest L s) : t.pending = s.pending := (same_of_rest h).1

theorem now_of_rest {L : List Part} {t s : State} (h : rest L t = rest L s) (hp : has L .now = false) : t.now = s.now :=
  (same_of_rest h).2 .now hp

theorem free_of_rest {L : List Part} {t s : State} (h : rest L t = rest L s) (hp : has L .free = false) : t.free = s.free :=
  (same_of_rest h).2 .free hp

theorem cond_of_rest {L : List Part} {t s : State} (h : rest L t = rest L s) (hp : has L .cond = false) : t.cond = s.cond :=
  (same_of_rest h).2 .cond hp

theorem readData_of_rest {L : List Part} {t s : State} (h : rest L t = rest L s) (hp : has L .readData = false) : t.readData = s.readData :=
  (same_of_rest h).2 .readData hp

theorem out_of_rest {L : List Part} {t s : State} (h : rest L t = rest L s) (hp : has L .out = false) : t.out = s.out :=
  (same_of_rest h).2 .out hp

theorem csnNext_of_rest {L : List Part} {t s : State} (h : rest L t = rest L s) (hp : has L .csnNext = false) : t.csnNext = s.csnNext :=
  (same_of_rest h).2 .csnNext hp

theorem csnIssued_of_rest {L : List Part} {t s : State} (h : rest L t = rest L s) (hp : has L .csnIssued = false) : t.csnIssued = s.csnIssued :=
  (same_of_rest h).2 .csnIssued hp

theorem csnBlock_of_rest {L : List Part} {t s : State} (h : rest L t = rest L s) (hp : has L .csnBlock = false) : t.csnBlock = s.csnBlock :=
  (same_of_rest h).2 .csnBlock hp

theorem ctxs_of_rest {L : List Part} {t s : State} (h : rest L t = rest L s) (hp : has L .ctxs = false) : t.ctxs = s.ctxs :=
  (same_of_rest h).2 .ctxs hp

theorem errSeq_of_rest {L : List Part} {t s : State} (h : rest L t = rest L s) (hp : has L .errSeq = false) : t.errSeq = s.errSeq :=
  (same_of_rest h).2 .errSeq hp

theorem evSeq_of_rest {L : List Part} {t s : State} (h : rest L t = rest L s) (hp : has L .evSeq = false) : t.evSeq = s.evSeq :=
  (same_of_rest h).2 .evSeq hp

theorem evHist_of_rest {L : List Part} {t s : State} (h : rest L t = rest L s) (hp : has L .evHist = false) : t.evHist = s.evHist :=
  (same_of_rest h).2 .evHist hp

theorem raised_of_rest {L : List Part} {t s : State} (h : rest L t = rest L s) (hp : has L .raised = false) : t.raised = s.raised :=
  (same_of_rest h).2 .raised hp

theorem condFrom_of_rest {L : List Part} {t s : State} (h : rest L t = rest L s) (hp : has L .condFrom = false) : t.condFrom = s.condFrom :=
  (same_of_rest h).2 .condFrom hp

theorem portA_of_rest {L : List Part} {t s : State} (h : rest L t = rest L s) (hp : has L .ports = false) : t.portA = s.portA :=
  ((same_of_rest h).2 .ports hp).1

theorem portB_of_rest {L : List Part} {t s : State} (h : rest L t = rest L s) (hp : has L .ports = false) : t.portB = s.portB :=
  ((same_of_rest h).2 .ports hp).2

theorem cad_of_rest {L : List Part} {t s : State} (h : rest L t = rest L s) (hp : has L .cad = false) : t.cad = s.cad :=
  (same_of_rest h).2 .cad hp

theorem cadCtl_of_rest {L : List Part} {t s : State} (h : rest L t = rest L s) (hp : has L .cadCtl = false) : cadCtl t.cad = cadCtl s.cad :=
  (same_of_rest h).2 .cadCtl hp

theorem feat_of_rest {L : List Part} {t s : State} (h : rest L t = rest L s) (hp : has L .feat = false) : t.feat = s.feat :=
  (same_of_rest h).2 .feat hp

theorem health_of_rest {L : List Part} {t s : State} (h : rest L t = rest L s) (hp : has L .health = false) : t.health = s.health :=
  (same_of_rest h).2 .health hp

theorem map_of_rest {L : List Part} {t s : State} (h : rest L t = rest L s) (hp : has L .map = false) : t.map = s.map :=
  (same_of_rest h).2 .map hp

theorem eng_of_rest {L : List Part} {t s : State} (h : rest L t = rest L s) (hp : has L .eng = false) : t.eng = s.eng :=
  (same_of_rest h).2 .eng hp

theorem media_of_rest {L : List Part} {t s : State} (h : rest L t = rest L s) (hp : has L .media = false) : t.media = s.media :=
  (same_of_rest h).2 .media hp

theorem jrnl_of_rest {L : List Part} {t s : State} (h : rest L t = rest L s) (hp : has L .jrnl = false) : t.jrnl = s.jrnl :=
  (same_of_rest h).2 .jrnl hp

theorem twin_of_rest {L : List Part} {t s : State} (h : rest L t = rest L s) (hp : has L .twin = false) : t.twin = s.twin :=
  (same_of_rest h).2 .twin hp

theorem twinCtl_of_rest {L : List Part} {t s : State} (h : rest L t = rest L s) (hp : has L .twinCtl = false) : twinCtl t.twin = twinCtl s.twin :=
  (same_of_rest h).2 .twinCtl hp

theorem dig_of_rest {L : List Part} {t s : State} (h : rest L t = rest L s) (hp : has L .dig = false) : t.dig = s.dig :=
  (same_of_rest h).2 .dig hp

theorem pods_of_rest {L : List Part} {t s : State} (h : rest L t = rest L s) (hp : has L .pods = false) : t.pods = s.pods :=
  (same_of_rest h).2 .pods hp

theorem mover_of_rest {L : List Part} {t s : State} (h : rest L t = rest L s) (hp : has L .mover = false) : t.mover = s.mover :=
  (same_of_rest h).2 .mover hp

theorem kf_of_rest {L : List Part} {t s : State} (h : rest L t = rest L s) (hp : has L .kf = false) : t.kf = s.kf :=
  (same_of_rest h).2 .kf hp

theorem kfMem_of_rest {L : List Part} {t s : State} (h : rest L t = rest L s) (hp : has L .kfMem = false) : t.kf.mem = s.kf.mem :=
  (same_of_rest h).2 .kfMem hp

theorem kfCtl_of_rest {L : List Part} {t s : State} (h : rest L t = rest L s) (hp : has L .kfCtl = false) : kfCtl t.kf = kfCtl s.kf :=
  (same_of_rest h).2 .kfCtl hp

theorem power_of_rest {L : List Part} {t s : State} (h : rest L t = rest L s) (hp : has L .power = false) : t.power = s.power :=
  (same_of_rest h).2 .power hp

theorem powerCtl_of_rest {L : List Part} {t s : State} (h : rest L t = rest L s) (hp : has L .powerCtl = false) : powerCtl t.power = powerCtl s.power :=
  (same_of_rest h).2 .powerCtl hp

theorem ctr_of_rest {L : List Part} {t s : State} (h : rest L t = rest L s) (hp : has L .ctr = false) : t.ctr = s.ctr :=
  (same_of_rest h).2 .ctr hp

theorem ctrCtl_of_rest {L : List Part} {t s : State} (h : rest L t = rest L s) (hp : has L .ctrCtl = false) : ctrCtl t.ctr = ctrCtl s.ctr :=
  (same_of_rest h).2 .ctrCtl hp

theorem side_of_rest {L : List Part} {t s : State} (h : rest L t = rest L s) (hp : has L .side = false) : t.side = s.side :=
  (same_of_rest h).2 .side hp

theorem sideCtl_of_rest {L : List Part} {t s : State} (h : rest L t = rest L s) (hp : has L .sideCtl = false) : sideCtl t.side = sideCtl s.side :=
  (same_of_rest h).2 .sideCtl hp

theorem rest_mk {L : List Part} (t : State) (now : Nat) (free : Nat) (cond : Half) (readData : Word) (out : List Out) (csnNext : Nat) (csnIssued :
    Nat) (csnBlock : Nat) (ctxs : List Ctx) (errSeq : Nat) (evSeq : Nat) (evHist : List Event) (raised : List Raised) (condFrom : Option Half) (portA : PortSt) (portB : PortSt) (cad : Cad) (feat :
    Feat) (health : Health) (map : MapImg) (eng : MapEng) (media : Media) (jrnl : Jrnl) (twin : Twin) (dig : Dig) (pods : Pods) (mover : Mover) (kf :
    Kf) (power : Power) (ctr : Ctr) (side : Side) (h_now : has L .now = true ∨ now = t.now) (h_free : has L .free = true ∨ free = t.free) (h_cond :
    has L .cond = true ∨ cond = t.cond) (h_readData : has L .readData = true ∨ readData = t.readData) (h_out : has L .out = true ∨ out = t.out)
    (h_csnNext : has L .csnNext = true ∨ csnNext = t.csnNext) (h_csnIssued : has L .csnIssued = true ∨ csnIssued = t.csnIssued) (h_csnBlock : has L
    .csnBlock = true ∨ csnBlock = t.csnBlock) (h_ctxs : has L .ctxs = true ∨ ctxs = t.ctxs) (h_errSeq : has L .errSeq = true ∨ errSeq = t.errSeq)
    (h_evSeq : has L .evSeq = true ∨ evSeq = t.evSeq) (h_evHist : has L .evHist = true ∨ evHist = t.evHist) (h_raised : has L .raised = true ∨ raised = t.raised) (h_condFrom : has L .condFrom = true ∨ condFrom = t.condFrom) (h_cad : has L .cad = true ∨ cad = t.cad)
    (h_feat : has L .feat = true ∨ feat = t.feat) (h_health : has L .health = true ∨ health = t.health) (h_map : has L .map = true ∨ map = t.map)
    (h_eng : has L .eng = true ∨ eng = t.eng) (h_media : has L .media = true ∨ media = t.media) (h_jrnl : has L .jrnl = true ∨ jrnl = t.jrnl) (h_twin
    : has L .twin = true ∨ twin = t.twin) (h_dig : has L .dig = true ∨ dig = t.dig) (h_pods : has L .pods = true ∨ pods = t.pods) (h_mover : has L
    .mover = true ∨ mover = t.mover) (h_kf : has L .kf = true ∨ kf = t.kf) (h_power : has L .power = true ∨ power = t.power) (h_ctr : has L .ctr =
    true ∨ ctr = t.ctr) (h_side : has L .side = true ∨ side = t.side) (h_ports : has L .ports = true ∨ (portA, portB) = (t.portA, t.portB)) (h_portCtl
    : has L .portCtl = true ∨ (portCtl portA, portCtl portB) = (portCtl t.portA, portCtl t.portB)) (h_cadCtl : has L .cadCtl = true ∨ cadCtl cad =
    cadCtl t.cad) (h_powerCtl : has L .powerCtl = true ∨ powerCtl power = powerCtl t.power) (h_twinCtl : has L .twinCtl = true ∨ twinCtl twin =
    twinCtl t.twin) (h_sideCtl : has L .sideCtl = true ∨ sideCtl side = sideCtl t.side) (h_ctrCtl : has L .ctrCtl = true ∨ ctrCtl ctr = ctrCtl t.ctr)
    (h_kfCtl : has L .kfCtl = true ∨ kfCtl kf = kfCtl t.kf) (h_kfMem : has L .kfMem = true ∨ kf.mem = t.kf.mem) : rest L ⟨t.pending, now, free, cond,
    readData, out, csnNext, csnIssued, csnBlock, ctxs, errSeq, evSeq, evHist, raised, condFrom, portA, portB, cad, feat, health, map, eng, media, jrnl, twin, dig, pods,
    mover, kf, power, ctr, side⟩ = rest L t := by
  simp only [rest, Rest.mk.injEq]
  exact ⟨trivial, kept_eq h_now, kept_eq h_free, kept_eq h_cond, kept_eq h_readData, kept_eq h_out, kept_eq h_csnNext, kept_eq h_csnIssued, kept_eq h_csnBlock, kept_eq h_ctxs, kept_eq h_errSeq, kept_eq h_evSeq, kept_eq h_evHist, kept_eq h_raised, kept_eq h_condFrom, kept_eq h_ports, kept_eq h_portCtl, kept_eq h_cad, kept_eq h_cadCtl, kept_eq h_feat, kept_eq h_health, kept_eq h_map, kept_eq h_eng, kept_eq h_media, kept_eq h_jrnl, kept_eq h_twin, kept_eq h_twinCtl, kept_eq h_dig, kept_eq h_pods, kept_eq h_mover, kept_eq h_kf, kept_eq h_kfMem, kept_eq h_kfCtl, kept_eq h_power, kept_eq h_powerCtl, kept_eq h_ctr, kept_eq h_ctrCtl, kept_eq h_side, kept_eq h_sideCtl⟩

theorem rest_updMedia {L : List Part} (hL : sub [.media] L = true) (s : State) (f : Media → Media) : rest L (updMedia s f) = rest L s := by
  have h := has_of_sub (p := .media) hL (by decide)
  simp only [rest, updMedia, kept, h, ↓reduceIte]

theorem rest_updMap {L : List Part} (hL : sub [.map] L = true) (s : State) (f : MapImg → MapImg) : rest L (updMap s f) = rest L s := by
  have h := has_of_sub (p := .map) hL (by decide)
  simp only [rest, updMap, kept, h, ↓reduceIte]

theorem rest_updEng {L : List Part} (hL : sub [.eng] L = true) (s : State) (f : MapEng → MapEng) : rest L (updEng s f) = rest L s := by
  have h := has_of_sub (p := .eng) hL (by decide)
  simp only [rest, updEng, kept, h, ↓reduceIte]

theorem rest_updJrnl {L : List Part} (hL : sub [.jrnl] L = true) (s : State) (f : Jrnl → Jrnl) : rest L (updJrnl s f) = rest L s := by
  have h := has_of_sub (p := .jrnl) hL (by decide)
  simp only [rest, updJrnl, kept, h, ↓reduceIte]

theorem rest_updDig {L : List Part} (hL : sub [.dig] L = true) (s : State) (f : Dig → Dig) : rest L (updDig s f) = rest L s := by
  have h := has_of_sub (p := .dig) hL (by decide)
  simp only [rest, updDig, kept, h, ↓reduceIte]

theorem rest_updHealth {L : List Part} (hL : sub [.health] L = true) (s : State) (f : Health → Health) : rest L (updHealth s f) = rest L s := by
  have h := has_of_sub (p := .health) hL (by decide)
  simp only [rest, updHealth, kept, h, ↓reduceIte]

theorem rest_updCad {L : List Part} (hL : sub [.cad] L = true) (s : State) (f : Cad → Cad) (h : has L .cadCtl = true ∨ ∀ c, cadCtl (f c) = cadCtl c) :
    rest L (updCad s f) = rest L s := by
  have g := has_of_sub (p := .cad) hL (by decide)
  rcases h with h | h <;> simp only [rest, updCad, kept, g, h, ↓reduceIte]

theorem rest_updPower {L : List Part} (hL : sub [.power] L = true) (s : State) (f : Power → Power) (h : has L .powerCtl = true ∨ ∀ c, powerCtl (f c) = powerCtl c) :
    rest L (updPower s f) = rest L s := by
  have g := has_of_sub (p := .power) hL (by decide)
  rcases h with h | h <;> simp only [rest, updPower, kept, g, h, ↓reduceIte]

theorem rest_updTwin {L : List Part} (hL : sub [.twin] L = true) (s : State) (f : Twin → Twin) (h : has L .twinCtl = true ∨ ∀ c, twinCtl (f c) = twinCtl c) :
    rest L (updTwin s f) = rest L s := by
  have g := has_of_sub (p := .twin) hL (by decide)
  rcases h with h | h <;> simp only [rest, updTwin, kept, g, h, ↓reduceIte]

theorem rest_updSide {L : List Part} (hL : sub [.side] L = true) (s : State) (f : Side → Side) (h : has L .sideCtl = true ∨ ∀ c, sideCtl (f c) = sideCtl c) :
    rest L (updSide s f) = rest L s := by
  have g := has_of_sub (p := .side) hL (by decide)
  rcases h with h | h <;> simp only [rest, updSide, kept, g, h, ↓reduceIte]

theorem rest_updCtr {L : List Part} (hL : sub [.ctr] L = true) (s : State) (f : Ctr → Ctr) (h : has L .ctrCtl = true ∨ ∀ c, ctrCtl (f c) = ctrCtl c) :
    rest L (updCtr s f) = rest L s := by
  have g := has_of_sub (p := .ctr) hL (by decide)
  rcases h with h | h <;> simp only [rest, updCtr, kept, g, h, ↓reduceIte]

theorem rest_updKf {L : List Part} (hL : sub [.kf] L = true) (s : State) (f : Kf → Kf) (h : has L .kfCtl = true ∨ ∀ c, kfCtl (f c) = kfCtl c)
    (k : has L .kfMem = true ∨ ∀ c, (f c).mem = c.mem) : rest L (updKf s f) = rest L s := by
  have g := has_of_sub (p := .kf) hL (by decide)
  rcases h with h | h <;> rcases k with k | k <;> simp only [rest, updKf, kept, g, h, k, ↓reduceIte]

theorem rest_setPort {L : List Part} (hL : sub [.ports] L = true) (s : State) (p : Port) (x : PortSt)
    (h : has L .portCtl = true ∨ portCtl x = portCtl (portOf s p)) : rest L (setPort s p x) = rest L s := by
  have g := has_of_sub (p := .ports) hL (by decide)
  cases p
  · rcases h with h | h
    · simp only [rest, setPort, kept, g, h, ↓reduceIte]
    · simp only [portOf] at h
      simp only [rest, setPort, kept, g, h, ↓reduceIte]
  · rcases h with h | h
    · simp only [rest, setPort, kept, g, h, ↓reduceIte]
    · simp only [portOf] at h
      simp only [rest, setPort, kept, g, h, ↓reduceIte]

theorem rest_updPort {L : List Part} (hL : sub [.ports] L = true) (s : State) (p : Port) (f : PortSt → PortSt)
    (h : has L .portCtl = true ∨ ∀ c, portCtl (f c) = portCtl c) : rest L (updPort s p f) = rest L s :=
  rest_setPort hL s p _ (h.imp id (fun h => h _))

theorem rest_ite {L : List Part} (c : Prop) [Decidable c] (a b : State) : rest L (if c then a else b) = if c then rest L a else rest L b := by
  split <;> rfl

theorem rest_foldl {L : List Part} {α : Type} (f : State → α → State) (h : ∀ s x, rest L (f s x) = rest L s) (l : List α) (s : State) :
    rest L (l.foldl f s) = rest L s := by
  induction l generalizing s with
  | nil => rfl
  | cons x xs ih => rw [List.foldl_cons, ih, h]

theorem rest_foldl1 {L : List Part} {α β : Type} (f : State × β → α → State × β) (h : ∀ y x, rest L (f y x).1 = rest L y.1) (l : List α)
    (y : State × β) : rest L (l.foldl f y).1 = rest L y.1 := by
  induction l generalizing y with
  | nil => rfl
  | cons x xs ih => rw [List.foldl_cons, ih, h]

theorem rest_getD {L : List Part} (o : Option State) (t : State) (h : ∀ u, o = some u → rest L u = rest L t) : rest L (o.getD t) = rest L t := by
  cases o with
  | none => rfl
  | some u => exact h u rfl

theorem rest_findSome {L : List Part} {α : Type} {t s : State} (l : List α) (f : α → Option State) (h : ∀ x u, f x = some u → rest L u = rest L s)
    (e : l.findSome? f = some t) : rest L t = rest L s := by
  obtain ⟨x, _, hx⟩ := List.exists_of_findSome?_eq_some e
  exact h x t hx

theorem none_imp {α : Type} {t : α} {P : Prop} : (none = some t) → P := fun h => nomatch h

theorem bind_imp {α β : Type} {t : β} {P : Prop} (o : Option α) (f : α → Option β) (h : ∀ x, o = some x → f x = some t → P) :
    o.bind f = some t → P := by
  cases o with
  | none => exact none_imp
  | some a => exact h a rfl

theorem findSome_imp {α β : Type} {t : β} {P : Prop} (l : List α) (f : α → Option β) (h : ∀ x, f x = some t → P) :
    l.findSome? f = some t → P := by
  intro e
  obtain ⟨x, _, hx⟩ := List.exists_of_findSome?_eq_some e
  exact h x hx

theorem rest_or {L : List Part} {t s : State} (a b : Option State) (h : a = some t → rest L t = rest L s) (g : b = some t → rest L t = rest L s) :
    a.or b = some t → rest L t = rest L s := by
  cases a with
  | none => exact g
  | some x => exact h

theorem rest_some {L : List Part} {a t s : State} (h : rest L a = rest L s) : some a = some t → rest L t = rest L s := fun e => by
  injection e with e
  exact e ▸ h

theorem rest_some1 {L : List Part} {β : Type} {a t : State × β} {s : State} (h : rest L a.1 = rest L s) : some a = some t → rest L t.1 = rest L s :=
  fun e => by
    injection e with e
    exact e ▸ h

theorem rest_map {L : List Part} {α : Type} {t s : State} (o : Option α) (f : α → State) (h : ∀ x, o = some x → rest L (f x) = rest L s) :
    o.map f = some t → rest L t = rest L s := by
  cases o with
  | none => exact none_imp
  | some a => exact rest_some (h a rfl)

theorem rest_map1 {L : List Part} {α β : Type} {t : State × β} {s : State} (o : Option α) (f : α → State × β)
    (h : ∀ x, o = some x → rest L (f x).1 = rest L s) : o.map f = some t → rest L t.1 = rest L s := by
  cases o with
  | none => exact none_imp
  | some a => exact rest_some1 (h a rfl)

end Sys2Proof.Laws
end

