-- ==== Sys2Proof/Laws/FramesOps.lean ====
section
/-! SUPPORT. Which parts of the state the operations of Machine/Ops.lean may change. -/
namespace Sys2Proof.Laws
open Sys2Proof Sys2Proof.Machine

set_option linter.unreachableTactic false
set_option linter.unusedTactic false

set_option linter.unusedSimpArgs false

theorem rest_updCtx {L : List Part} (hL : sub [.ctxs] L = true) (s : State) (cid : Nat) (f : Ctx → Ctx) :
    rest L (updCtx s cid f) = rest L s := by
  unfold updCtx
  repeat' (first | with_reducible rfl | simp (disch := (first | exact sub_trans (by decide) hL | exact Or.inl (has_of_sub hL (by decide)) | exact Or.inr rfl | exact Or.inr fun _ => rfl | (refine Or.inr ?_; intros; repeat' (first | rfl | split)))) only [↓rest_mk, ↓rest_ite, ite_self] | (intro; rfl) | split | (intro; split) | rfl)

theorem rest_dropCtx {L : List Part} (hL : sub [.ctxs] L = true) (s : State) (cid : Nat) :
    rest L (dropCtx s cid) = rest L s := by
  unfold dropCtx
  repeat' (first | with_reducible rfl | simp (disch := (first | exact sub_trans (by decide) hL | exact Or.inl (has_of_sub hL (by decide)) | exact Or.inr rfl | exact Or.inr fun _ => rfl | (refine Or.inr ?_; intros; repeat' (first | rfl | split)))) only [↓rest_mk, ↓rest_ite, ite_self] | (intro; rfl) | split | (intro; split) | rfl)

theorem rest_updQueue {L : List Part} (hL : sub [.ports] L = true) (s : State) (p : Port) (q : Nat) (f : Queue → Queue) :
    rest L (updQueue s p q f) = rest L s := by
  unfold updQueue
  repeat' (first | with_reducible rfl | simp (disch := (first | exact sub_trans (by decide) hL | exact Or.inl (has_of_sub hL (by decide)) | exact Or.inr rfl | exact Or.inr fun _ => rfl | (refine Or.inr ?_; intros; repeat' (first | rfl | split)))) only [↓rest_updPort, ↓rest_mk, ↓rest_ite, ite_self] | (with_reducible refine (rest_updPort (sub_trans (by decide) hL) _ _ _ (.inr ?_)).trans ?_) | (intro; rfl) | split | (intro; split) | rfl)

theorem rest_dropQueue {L : List Part} (hL : sub [.ports] L = true) (s : State) (p : Port) (q : Nat) :
    rest L (dropQueue s p q) = rest L s := by
  unfold dropQueue
  repeat' (first | with_reducible rfl | simp (disch := (first | exact sub_trans (by decide) hL | exact Or.inl (has_of_sub hL (by decide)) | exact Or.inr rfl | exact Or.inr fun _ => rfl | (refine Or.inr ?_; intros; repeat' (first | rfl | split)))) only [↓rest_updPort, ↓rest_mk, ↓rest_ite, ite_self] | (with_reducible refine (rest_updPort (sub_trans (by decide) hL) _ _ _ (.inr ?_)).trans ?_) | (intro; rfl) | split | (intro; split) | rfl)

theorem rest_addQueue {L : List Part} (hL : sub [.ports] L = true) (s : State) (p : Port) (k : Queue) :
    rest L (addQueue s p k) = rest L s := by
  unfold addQueue
  repeat' (first | with_reducible rfl | simp (disch := (first | exact sub_trans (by decide) hL | exact Or.inl (has_of_sub hL (by decide)) | exact Or.inr rfl | exact Or.inr fun _ => rfl | (refine Or.inr ?_; intros; repeat' (first | rfl | split)))) only [↓rest_updPort, ↓rest_mk, ↓rest_ite, ite_self] | (with_reducible refine (rest_updPort (sub_trans (by decide) hL) _ _ _ (.inr ?_)).trans ?_) | (intro; rfl) | split | (intro; split) | rfl)

theorem rest_updBay {L : List Part} (hL : sub [.media] L = true) (s : State) (b : Nat) (f : Bay → Bay) :
    rest L (updBay s b f) = rest L s := by
  unfold updBay
  repeat' (first | with_reducible rfl | simp (disch := (first | exact sub_trans (by decide) hL | exact Or.inl (has_of_sub hL (by decide)) | exact Or.inr rfl | exact Or.inr fun _ => rfl | (refine Or.inr ?_; intros; repeat' (first | rfl | split)))) only [↓rest_mk, ↓rest_ite, ite_self] | (intro; rfl) | split | (intro; split) | rfl)

theorem rest_drawFree {L : List Part} (hL : sub [.free] L = true) (s : State) :
    rest L (drawFree s) = rest L s := by
  unfold drawFree
  repeat' (first | with_reducible rfl | simp (disch := (first | exact sub_trans (by decide) hL | exact Or.inl (has_of_sub hL (by decide)) | exact Or.inr rfl | exact Or.inr fun _ => rfl | (refine Or.inr ?_; intros; repeat' (first | rfl | split)))) only [↓rest_mk, ↓rest_ite, ite_self] | (intro; rfl) | split | (intro; split) | rfl)

theorem rest_drawFrees {L : List Part} (hL : sub [.free] L = true) (s : State) (n : Nat) :
    rest L (drawFrees s n) = rest L s := by
  unfold drawFrees
  repeat' (first | with_reducible rfl | simp (disch := (first | exact sub_trans (by decide) hL | exact Or.inl (has_of_sub hL (by decide)) | exact Or.inr rfl | exact Or.inr fun _ => rfl | (refine Or.inr ?_; intros; repeat' (first | rfl | split)))) only [↓rest_mk, ↓rest_ite, ite_self] | (intro; rfl) | split | (intro; split) | rfl)

theorem rest_countEvent {L : List Part} (hL : sub [.ctr] L = true) (s : State) (e inst n : Nat) :
    rest L (countEvent s e inst n) = rest L s := by
  unfold countEvent
  repeat' (first | with_reducible rfl | simp (disch := (first | exact sub_trans (by decide) hL | exact Or.inl (has_of_sub hL (by decide)) | exact Or.inr rfl | exact Or.inr fun _ => rfl | (refine Or.inr ?_; intros; repeat' (first | rfl | split)))) only [↓rest_updCtr, ↓rest_mk, ↓rest_ite, ite_self] | (with_reducible refine (rest_updCtr (sub_trans (by decide) hL) _ _ (.inr ?_)).trans ?_) | (intro; rfl) | split | (intro; split) | rfl)

theorem rest_countFixed {L : List Part} (hL : sub [.ctr] L = true) (s : State) (i n : Nat) :
    rest L (countFixed s i n) = rest L s := by
  unfold countFixed
  repeat' (first | with_reducible rfl | simp (disch := (first | exact sub_trans (by decide) hL | exact Or.inl (has_of_sub hL (by decide)) | exact Or.inr rfl | exact Or.inr fun _ => rfl | (refine Or.inr ?_; intros; repeat' (first | rfl | split)))) only [↓rest_updCtr, ↓rest_mk, ↓rest_ite, ite_self] | (with_reducible refine (rest_updCtr (sub_trans (by decide) hL) _ _ (.inr ?_)).trans ?_) | (intro; rfl) | split | (intro; split) | rfl)

theorem rest_countCycles {L : List Part} (hL : sub [.ctr] L = true) (s : State) (n : Nat) :
    rest L (countCycles s n) = rest L s := by
  unfold countCycles
  repeat' (first | with_reducible rfl | (with_reducible refine (rest_foldl _ (fun t x => ?_) _ _).trans ?_) | simp (disch := (first | exact sub_trans (by decide) hL | exact Or.inl (has_of_sub hL (by decide)) | exact Or.inr rfl | exact Or.inr fun _ => rfl | (refine Or.inr ?_; intros; repeat' (first | rfl | split)))) only [↓rest_countEvent, ↓rest_countFixed, ↓rest_mk, ↓rest_ite, ite_self] | (with_reducible refine (rest_foldl1 _ (fun t x => ?_) _ _).trans ?_) | (intro; rfl) | split | (intro; split) | rfl)

theorem rest_setNow {L : List Part} (hL : sub [.now] L = true) (s : State) (cyc : Nat) :
    rest L (setNow s cyc) = rest L s := by
  unfold setNow
  repeat' (first | with_reducible rfl | simp (disch := (first | exact sub_trans (by decide) hL | exact Or.inl (has_of_sub hL (by decide)) | exact Or.inr rfl | exact Or.inr fun _ => rfl | (refine Or.inr ?_; intros; repeat' (first | rfl | split)))) only [↓rest_mk, ↓rest_ite, ite_self] | (intro; rfl) | split | (intro; split) | rfl)

theorem rest_advanceTo {L : List Part} (hL : sub [.now, .power, .ctr] L = true) (s : State) (cyc : Nat) :
    rest L (advanceTo s cyc) = rest L s := by
  unfold advanceTo
  repeat' (first | with_reducible rfl | simp (disch := (first | exact sub_trans (by decide) hL | exact Or.inl (has_of_sub hL (by decide)) | exact Or.inr rfl | exact Or.inr fun _ => rfl | (refine Or.inr ?_; intros; repeat' (first | rfl | split)))) only [↓rest_countCycles, ↓rest_setNow, ↓rest_updCtr, ↓rest_updPower, ↓rest_mk, ↓rest_ite, ite_self] | (with_reducible refine (rest_updCtr (sub_trans (by decide) hL) _ _ (.inr ?_)).trans ?_) | (with_reducible refine (rest_updPower (sub_trans (by decide) hL) _ _ (.inr ?_)).trans ?_) | (intro; rfl) | split | (intro; split) | rfl)

theorem rest_trigSnap {L : List Part} (hL : sub [.ctr] L = true) (s : State) :
    rest L (trigSnap s) = rest L s := by
  unfold trigSnap
  repeat' (first | with_reducible rfl | simp (disch := (first | exact sub_trans (by decide) hL | exact Or.inl (has_of_sub hL (by decide)) | exact Or.inr rfl | exact Or.inr fun _ => rfl | (refine Or.inr ?_; intros; repeat' (first | rfl | split)))) only [↓rest_updCtr, ↓rest_mk, ↓rest_ite, ite_self] | (with_reducible refine (rest_updCtr (sub_trans (by decide) hL) _ _ (.inr ?_)).trans ?_) | (intro; rfl) | split | (intro; split) | rfl)

theorem rest_clearCounters {L : List Part} (hL : sub [.ctr] L = true) (s : State) :
    rest L (clearCounters s) = rest L s := by
  unfold clearCounters
  repeat' (first | with_reducible rfl | simp (disch := (first | exact sub_trans (by decide) hL | exact Or.inl (has_of_sub hL (by decide)) | exact Or.inr rfl | exact Or.inr fun _ => rfl | (refine Or.inr ?_; intros; repeat' (first | rfl | split)))) only [↓rest_updCtr, ↓rest_mk, ↓rest_ite, ite_self] | (with_reducible refine (rest_updCtr (sub_trans (by decide) hL) _ _ (.inr ?_)).trans ?_) | (intro; rfl) | split | (intro; split) | rfl)

theorem rest_emit {L : List Part} (hL : sub [.out] L = true) (s : State) (o : Out) :
    rest L (emit s o) = rest L s := by
  unfold emit
  repeat' (first | with_reducible rfl | simp (disch := (first | exact sub_trans (by decide) hL | exact Or.inl (has_of_sub hL (by decide)) | exact Or.inr rfl | exact Or.inr fun _ => rfl | (refine Or.inr ?_; intros; repeat' (first | rfl | split)))) only [↓rest_mk, ↓rest_ite, ite_self] | (intro; rfl) | split | (intro; split) | rfl)

theorem rest_deliver {L : List Part} (hL : sub [.out] L = true) (s : State) (p : Port) (exts : List (Nat × Nat)) (bs : List Byte) :
    rest L (deliver s p exts bs) = rest L s := by
  unfold deliver
  repeat' (first | with_reducible rfl | (with_reducible refine (rest_foldl _ (fun t x => ?_) _ _).trans ?_) | simp (disch := (first | exact sub_trans (by decide) hL | exact Or.inl (has_of_sub hL (by decide)) | exact Or.inr rfl | exact Or.inr fun _ => rfl | (refine Or.inr ?_; intros; repeat' (first | rfl | split)))) only [↓rest_emit, ↓rest_mk, ↓rest_ite, ite_self] | (with_reducible refine (rest_foldl1 _ (fun t x => ?_) _ _).trans ?_) | (intro; rfl) | split | (intro; split) | rfl)

theorem rest_signal {L : List Part} (hL : sub [.out, .ports] L = true) (s : State) (p : Port) (v : Nat) :
    rest L (signal s p v) = rest L s := by
  unfold signal
  repeat' (first | with_reducible rfl | simp (disch := (first | exact sub_trans (by decide) hL | exact Or.inl (has_of_sub hL (by decide)) | exact Or.inr rfl | exact Or.inr fun _ => rfl | (refine Or.inr ?_; intros; repeat' (first | rfl | split)))) only [↓rest_emit, ↓rest_updPort, ↓rest_mk, ↓rest_ite, ite_self] | (with_reducible refine (rest_updPort (sub_trans (by decide) hL) _ _ _ (.inr ?_)).trans ?_) | (intro; rfl) | split | (intro; split) | rfl)

theorem rest_eventToRing {L : List Part} (hL : sub [.out, .ports] L = true) (s : State) (p : Port) (e : Event) :
    rest L (eventToRing s p e) = rest L s := by
  unfold eventToRing
  repeat' (first | with_reducible rfl | simp (disch := (first | exact sub_trans (by decide) hL | exact Or.inl (has_of_sub hL (by decide)) | exact Or.inr rfl | exact Or.inr fun _ => rfl | (refine Or.inr ?_; intros; repeat' (first | rfl | split)))) only [↓rest_emit, ↓rest_signal, ↓rest_updPort, ↓rest_mk, ↓rest_ite, ite_self] | (with_reducible refine (rest_updPort (sub_trans (by decide) hL) _ _ _ (.inr ?_)).trans ?_) | (intro; rfl) | split | (intro; split) | rfl)

theorem rest_raiseEvent {L : List Part} (hL : sub [.raised] L = true) (s : State) (kind code p0 p1 : Nat) (only : Option Port := none) :
    rest L (raiseEvent s kind code p0 p1 only) = rest L s := by
  unfold raiseEvent
  repeat' (first | with_reducible rfl | simp (disch := (first | exact sub_trans (by decide) hL | exact Or.inl (has_of_sub hL (by decide)) | exact Or.inr rfl | exact Or.inr fun _ => rfl | (refine Or.inr ?_; intros; repeat' (first | rfl | split)))) only [↓rest_mk, ↓rest_ite, ite_self] | (intro; rfl) | split | (intro; split) | rfl)

theorem rest_setFlags {L : List Part} (hL : sub [.cond, .condFrom] L = true) (s : State) (fs : List (Nat × Bool)) :
    rest L (setFlags s fs) = rest L s := by
  unfold setFlags
  repeat' (first | with_reducible exact none_imp | (with_reducible refine rest_or _ _ ?_ ?_) | (with_reducible refine rest_some ?_) | (with_reducible refine rest_some1 ?_) | (with_reducible refine rest_map _ _ (fun x hx => ?_)) | (with_reducible refine rest_map1 _ _ (fun x hx => ?_)) | (with_reducible refine bind_imp _ _ (fun x hx => ?_)) | (with_reducible refine findSome_imp _ _ (fun x => ?_)) | with_reducible rfl | simp (disch := (first | exact sub_trans (by decide) hL | exact Or.inl (has_of_sub hL (by decide)) | exact Or.inr rfl | exact Or.inr fun _ => rfl | (refine Or.inr ?_; intros; repeat' (first | rfl | split)))) only [↓rest_mk, ↓rest_ite, ite_self] | (with_reducible refine (rest_getD _ _ (fun u => ?_)).trans ?_) | (intro; rfl) | split | (intro; split) | rfl)

theorem rest_sendEvent {L : List Part} (hL : sub [.out, .evSeq, .evHist, .ports] L = true) (s : State) (r : Raised) :
    rest L (sendEvent s r) = rest L s := by
  unfold sendEvent
  repeat' (first | with_reducible rfl | simp (disch := (first | exact sub_trans (by decide) hL | exact Or.inl (has_of_sub hL (by decide)) | exact Or.inr rfl | exact Or.inr fun _ => rfl | (refine Or.inr ?_; intros; repeat' (first | rfl | split)))) only [↓rest_eventToRing, ↓rest_mk, ↓rest_ite, ite_self] | (intro; rfl) | split | (intro; split) | rfl)

theorem rest_endCycle {L : List Part} (hL : sub [.out, .evSeq, .evHist, .raised, .condFrom, .ports] L = true) (s : State) :
    rest L (endCycle s) = rest L s := by
  unfold endCycle
  repeat' (first | with_reducible rfl | (with_reducible refine (rest_foldl _ (fun t x => ?_) _ _).trans ?_) | simp (disch := (first | exact sub_trans (by decide) hL | exact Or.inl (has_of_sub hL (by decide)) | exact Or.inr rfl | exact Or.inr fun _ => rfl | (refine Or.inr ?_; intros; repeat' (first | rfl | split)))) only [↓rest_sendEvent, ↓rest_mk, ↓rest_ite, ite_self] | (with_reducible refine (rest_foldl1 _ (fun t x => ?_) _ _).trans ?_) | (intro; rfl) | split | (intro; split) | rfl)

theorem rest_settled {L : List Part} (hL : sub [.out, .evSeq, .evHist, .raised, .condFrom, .ports] L = true) (s : State) :
    ∃ tv, settled s = .next tv ∧ rest L tv = rest L s := by
  unfold settled
  repeat' (first | (refine ⟨_, rfl, ?_⟩) | with_reducible rfl | simp (disch := (first | exact sub_trans (by decide) hL | exact Or.inl (has_of_sub hL (by decide)) | exact Or.inr rfl | exact Or.inr fun _ => rfl | (refine Or.inr ?_; intros; repeat' (first | rfl | split)))) only [↓rest_endCycle, ↓rest_mk, ↓rest_ite, ite_self] | (intro; rfl) | split | (intro; split) | rfl)

theorem rest_sendFrame {L : List Part} (hL : sub [.twin] L = true) (s : State) (f : Frame) :
    rest L (sendFrame s f) = rest L s := by
  unfold sendFrame
  repeat' (first | with_reducible rfl | simp (disch := (first | exact sub_trans (by decide) hL | exact Or.inl (has_of_sub hL (by decide)) | exact Or.inr rfl | exact Or.inr fun _ => rfl | (refine Or.inr ?_; intros; repeat' (first | rfl | split)))) only [↓rest_updTwin, ↓rest_mk, ↓rest_ite, ite_self] | (with_reducible refine (rest_updTwin (sub_trans (by decide) hL) _ _ (.inr ?_)).trans ?_) | (intro; rfl) | split | (intro; split) | rfl)

theorem rest_mirrorFrame {L : List Part} (hL : sub [.twin] L = true) (s : State) (f : Frame) :
    rest L (mirrorFrame s f) = rest L s := by
  unfold mirrorFrame
  repeat' (first | with_reducible rfl | simp (disch := (first | exact sub_trans (by decide) hL | exact Or.inl (has_of_sub hL (by decide)) | exact Or.inr rfl | exact Or.inr fun _ => rfl | (refine Or.inr ?_; intros; repeat' (first | rfl | split)))) only [↓rest_sendFrame, ↓rest_mk, ↓rest_ite, ite_self] | (intro; rfl) | split | (intro; split) | rfl)

theorem rest_journal {L : List Part} (hL : sub [.jrnl, .twin] L = true) (s : State) (body : JRec) :
    rest L (journal s body) = rest L s := by
  unfold journal
  repeat' (first | with_reducible rfl | simp (disch := (first | exact sub_trans (by decide) hL | exact Or.inl (has_of_sub hL (by decide)) | exact Or.inr rfl | exact Or.inr fun _ => rfl | (refine Or.inr ?_; intros; repeat' (first | rfl | split)))) only [↓rest_mirrorFrame, ↓rest_updJrnl, ↓rest_mk, ↓rest_ite, ite_self] | (intro; rfl) | split | (intro; split) | rfl)

theorem rest_logError {L : List Part} (hL : sub [.errSeq, .ports] L = true) (s : State) (e : ErrEntry) :
    rest L (logError s e) = rest L s := by
  unfold logError
  repeat' (first | with_reducible rfl | simp (disch := (first | exact sub_trans (by decide) hL | exact Or.inl (has_of_sub hL (by decide)) | exact Or.inr rfl | exact Or.inr fun _ => rfl | (refine Or.inr ?_; intros; repeat' (first | rfl | split)))) only [↓rest_updPort, ↓rest_mk, ↓rest_ite, ite_self] | (with_reducible refine (rest_updPort (sub_trans (by decide) hL) _ _ _ (.inr ?_)).trans ?_) | (intro; rfl) | split | (intro; split) | rfl)

theorem rest_freezeDecided {L : List Part} (hL : sub [.ports] L = true) (s : State) (p : Port) (q : Nat) :
    rest L (freezeDecided s p q) = rest L s := by
  unfold freezeDecided
  repeat' (first | with_reducible exact none_imp | (with_reducible refine rest_or _ _ ?_ ?_) | (with_reducible refine rest_some ?_) | (with_reducible refine rest_some1 ?_) | (with_reducible refine rest_map _ _ (fun x hx => ?_)) | (with_reducible refine rest_map1 _ _ (fun x hx => ?_)) | (with_reducible refine bind_imp _ _ (fun x hx => ?_)) | (with_reducible refine findSome_imp _ _ (fun x => ?_)) | with_reducible rfl | simp (disch := (first | exact sub_trans (by decide) hL | exact Or.inl (has_of_sub hL (by decide)) | exact Or.inr rfl | exact Or.inr fun _ => rfl | (refine Or.inr ?_; intros; repeat' (first | rfl | split)))) only [↓rest_updQueue, ↓rest_mk, ↓rest_ite, ite_self] | (with_reducible refine (rest_getD _ _ (fun u => ?_)).trans ?_) | (intro; rfl) | split | (intro; split) | rfl)

theorem rest_decide_ {L : List Part} (hL : sub [.ctxs, .errSeq, .ports] L = true) (s : State) (cid : Nat) (v : Verdict) :
    rest L (decide_ s cid v) = rest L s := by
  unfold decide_
  repeat' (first | with_reducible exact none_imp | (with_reducible refine rest_or _ _ ?_ ?_) | (with_reducible refine rest_some ?_) | (with_reducible refine rest_some1 ?_) | (with_reducible refine rest_map _ _ (fun x hx => ?_)) | (with_reducible refine rest_map1 _ _ (fun x hx => ?_)) | (with_reducible refine bind_imp _ _ (fun x hx => ?_)) | (with_reducible refine findSome_imp _ _ (fun x => ?_)) | with_reducible rfl | simp (disch := (first | exact sub_trans (by decide) hL | exact Or.inl (has_of_sub hL (by decide)) | exact Or.inr rfl | exact Or.inr fun _ => rfl | (refine Or.inr ?_; intros; repeat' (first | rfl | split)))) only [↓rest_freezeDecided, ↓rest_logError, ↓rest_updCtx, ↓rest_mk, ↓rest_ite, ite_self] | (with_reducible refine (rest_getD _ _ (fun u => ?_)).trans ?_) | (intro; rfl) | split | (intro; split) | rfl)

theorem rest_perform {L : List Part} (hL : sub [.ctxs] L = true) (s : State) (cid : Nat) (r0 r1 : Word) (status : Half := 0) :
    rest L (perform s cid r0 r1 status) = rest L s := by
  unfold perform
  repeat' (first | with_reducible rfl | simp (disch := (first | exact sub_trans (by decide) hL | exact Or.inl (has_of_sub hL (by decide)) | exact Or.inr rfl | exact Or.inr fun _ => rfl | (refine Or.inr ?_; intros; repeat' (first | rfl | split)))) only [↓rest_updCtx, ↓rest_mk, ↓rest_ite, ite_self] | (intro; rfl) | split | (intro; split) | rfl)

theorem rest_performState {L : List Part} (hL : sub [.ctxs, .twin] L = true) (s : State) (cid : Nat) (kind : Nat) (r0 r1 : Word) (feature : Option (Nat × List Word) := none) (queue : Option QueueImage := none) (log : Option Port := none) :
    rest L (performState s cid kind r0 r1 feature queue log) = rest L s := by
  unfold performState
  repeat' (first | with_reducible exact none_imp | (with_reducible refine rest_or _ _ ?_ ?_) | (with_reducible refine rest_some ?_) | (with_reducible refine rest_some1 ?_) | (with_reducible refine rest_map _ _ (fun x hx => ?_)) | (with_reducible refine rest_map1 _ _ (fun x hx => ?_)) | (with_reducible refine bind_imp _ _ (fun x hx => ?_)) | (with_reducible refine findSome_imp _ _ (fun x => ?_)) | with_reducible rfl | simp (disch := (first | exact sub_trans (by decide) hL | exact Or.inl (has_of_sub hL (by decide)) | exact Or.inr rfl | exact Or.inr fun _ => rfl | (refine Or.inr ?_; intros; repeat' (first | rfl | split)))) only [↓rest_mirrorFrame, ↓rest_perform, ↓rest_updCtx, ↓rest_mk, ↓rest_ite, ite_self] | (with_reducible refine (rest_getD _ _ (fun u => ?_)).trans ?_) | (intro; rfl) | split | (intro; split) | rfl)

theorem rest_retire {L : List Part} (hL : sub [.ctr] L = true) (s : State) (c : Ctx) (units : Nat) (ok : Bool) :
    rest L (retire s c units ok) = rest L s := by
  unfold retire
  repeat' (first | with_reducible rfl | simp (disch := (first | exact sub_trans (by decide) hL | exact Or.inl (has_of_sub hL (by decide)) | exact Or.inr rfl | exact Or.inr fun _ => rfl | (refine Or.inr ?_; intros; repeat' (first | rfl | split)))) only [↓rest_updCtr, ↓rest_mk, ↓rest_ite, ite_self] | (with_reducible refine (rest_updCtr (sub_trans (by decide) hL) _ _ (.inr ?_)).trans ?_) | (intro; rfl) | split | (intro; split) | rfl)

theorem rest_updBlk {L : List Part} (hL : sub [.map] L = true) (s : State) (b : Madr) (f : BlockRec → BlockRec) :
    rest L (updBlk s b f) = rest L s := by
  unfold updBlk
  repeat' (first | with_reducible rfl | simp (disch := (first | exact sub_trans (by decide) hL | exact Or.inl (has_of_sub hL (by decide)) | exact Or.inr rfl | exact Or.inr fun _ => rfl | (refine Or.inr ?_; intros; repeat' (first | rfl | split)))) only [↓rest_updMap, ↓rest_mk, ↓rest_ite, ite_self] | (intro; rfl) | split | (intro; split) | rfl)

theorem rest_updDie {L : List Part} (hL : sub [.media] L = true) (s : State) (d : DieId) (f : DieSt → DieSt) :
    rest L (updDie s d f) = rest L s := by
  unfold updDie
  repeat' (first | with_reducible exact none_imp | (with_reducible refine rest_or _ _ ?_ ?_) | (with_reducible refine rest_some ?_) | (with_reducible refine rest_some1 ?_) | (with_reducible refine rest_map _ _ (fun x hx => ?_)) | (with_reducible refine rest_map1 _ _ (fun x hx => ?_)) | (with_reducible refine bind_imp _ _ (fun x hx => ?_)) | (with_reducible refine findSome_imp _ _ (fun x => ?_)) | with_reducible rfl | simp (disch := (first | exact sub_trans (by decide) hL | exact Or.inl (has_of_sub hL (by decide)) | exact Or.inr rfl | exact Or.inr fun _ => rfl | (refine Or.inr ?_; intros; repeat' (first | rfl | split)))) only [↓rest_updMedia, ↓rest_mk, ↓rest_ite, ite_self] | (with_reducible refine (rest_getD _ _ (fun u => ?_)).trans ?_) | (intro; rfl) | split | (intro; split) | rfl)

end Sys2Proof.Laws
end

