-- ==== Sys2Proof/Laws/FramesMapOps.lean ====
section
/-! SUPPORT. Which parts of the state the operations of Machine/MapOps.lean may change. -/
namespace Sys2Proof.Laws
open Sys2Proof Sys2Proof.Machine

set_option linter.unreachableTactic false
set_option linter.unusedTactic false

set_option linter.unusedSimpArgs false

theorem rest_commitRec {L : List Part} (hL : sub [.map, .jrnl, .twin] L = true) (s : State) (body : JRec) :
    rest L (commitRec s body) = rest L s := by
  unfold commitRec
  repeat' (first | with_reducible rfl | simp (disch := (first | exact sub_trans (by decide) hL | exact Or.inl (has_of_sub hL (by decide)) | exact Or.inr rfl | exact Or.inr fun _ => rfl | (refine Or.inr ?_; intros; repeat' (first | rfl | split)))) only [↓rest_journal, ↓rest_updMap, ↓rest_mk, ↓rest_ite, ite_self] | (intro; rfl) | split | (intro; split) | rfl)

theorem rest_settleSegments {L : List Part} (hL : sub [.media] L = true) (s : State) :
    rest L (settleSegments s) = rest L s := by
  unfold settleSegments
  repeat' (first | with_reducible rfl | simp (disch := (first | exact sub_trans (by decide) hL | exact Or.inl (has_of_sub hL (by decide)) | exact Or.inr rfl | exact Or.inr fun _ => rfl | (refine Or.inr ?_; intros; repeat' (first | rfl | split)))) only [↓rest_updMedia, ↓rest_mk, ↓rest_ite, ite_self] | (intro; rfl) | split | (intro; split) | rfl)

theorem rest_takeSpare {L : List Part} (hL : sub [.media] L = true) (s : State) (p bay : Nat) :
    rest L (takeSpare s p bay) = rest L s := by
  unfold takeSpare
  repeat' (first | with_reducible exact none_imp | (with_reducible refine rest_or _ _ ?_ ?_) | (with_reducible refine rest_some ?_) | (with_reducible refine rest_some1 ?_) | (with_reducible refine rest_map _ _ (fun x hx => ?_)) | (with_reducible refine rest_map1 _ _ (fun x hx => ?_)) | (with_reducible refine bind_imp _ _ (fun x hx => ?_)) | (with_reducible refine findSome_imp _ _ (fun x => ?_)) | with_reducible rfl | simp (disch := (first | exact sub_trans (by decide) hL | exact Or.inl (has_of_sub hL (by decide)) | exact Or.inr rfl | exact Or.inr fun _ => rfl | (refine Or.inr ?_; intros; repeat' (first | rfl | split)))) only [↓rest_updBay, ↓rest_mk, ↓rest_ite, ite_self] | (with_reducible refine (rest_getD _ _ (fun u => ?_)).trans ?_) | (intro; rfl) | split | (intro; split) | rfl)

theorem rest_sealIfSpent {L : List Part} (hL : sub [.cond, .condFrom] L = true) (s : State) (p : Nat) :
    rest L (sealIfSpent s p) = rest L s := by
  unfold sealIfSpent
  repeat' (first | with_reducible rfl | simp (disch := (first | exact sub_trans (by decide) hL | exact Or.inl (has_of_sub hL (by decide)) | exact Or.inr rfl | exact Or.inr fun _ => rfl | (refine Or.inr ?_; intros; repeat' (first | rfl | split)))) only [↓rest_setFlags, ↓rest_mk, ↓rest_ite, ite_self] | (intro; rfl) | split | (intro; split) | rfl)

theorem rest_drawLost {L : List Part} (hL : sub [.cond, .condFrom, .media] L = true) (s : State) :
    ∀ xv, rest L (drawLost s xv) = rest L s := by
  intro xv
  fun_induction drawLost s xv
  all_goals repeat' (first | with_reducible rfl | (with_reducible refine Eq.trans (by assumption) ?_) | simp +zetaDelta (disch := (first | exact sub_trans (by decide) hL | exact Or.inl (has_of_sub hL (by decide)) | exact Or.inr rfl | exact Or.inr fun _ => rfl | (refine Or.inr ?_; intros; repeat' (first | rfl | split)))) only [↓rest_sealIfSpent, ↓rest_takeSpare, ↓rest_mk, ↓rest_ite, ite_self] | (intro; rfl) | split | (intro; split) | rfl)

theorem rest_settleLoss {L : List Part} (hL : sub [.cond, .condFrom, .media] L = true) (s : State) :
    rest L (settleLoss s) = rest L s := by
  unfold settleLoss
  repeat' (first | with_reducible rfl | (with_reducible refine (rest_foldl _ (fun t x => ?_) _ _).trans ?_) | simp (disch := (first | exact sub_trans (by decide) hL | exact Or.inl (has_of_sub hL (by decide)) | exact Or.inr rfl | exact Or.inr fun _ => rfl | (refine Or.inr ?_; intros; repeat' (first | rfl | split)))) only [↓rest_drawLost, ↓rest_settleSegments, ↓rest_mk, ↓rest_ite, ite_self] | (with_reducible refine (rest_foldl1 _ (fun t x => ?_) _ _).trans ?_) | (intro; rfl) | split | (intro; split) | rfl)

theorem rest_settleFull {L : List Part} (hL : sub [.media] L = true) (s : State) :
    rest L (settleFull s) = rest L s := by
  unfold settleFull
  repeat' (first | with_reducible rfl | (with_reducible refine (rest_foldl _ (fun t x => ?_) _ _).trans ?_) | simp (disch := (first | exact sub_trans (by decide) hL | exact Or.inl (has_of_sub hL (by decide)) | exact Or.inr rfl | exact Or.inr fun _ => rfl | (refine Or.inr ?_; intros; repeat' (first | rfl | split)))) only [↓rest_updMedia, ↓rest_mk, ↓rest_ite, ite_self] | (with_reducible refine (rest_foldl1 _ (fun t x => ?_) _ _).trans ?_) | (intro; rfl) | split | (intro; split) | rfl)

end Sys2Proof.Laws
end

