-- ==== Sys2Proof/Laws/FramesMedium.lean ====
section
/-! SUPPORT. Which parts of the state the operations of Machine/Medium.lean may change. -/
namespace Sys2Proof.Laws
open Sys2Proof Sys2Proof.Machine

set_option linter.unreachableTactic false
set_option linter.unusedTactic false

set_option linter.unusedSimpArgs false

theorem rest_countOp {L : List Part} (hL : sub [.ctr] L = true) (s : State) (op : DieOp) :
    rest L (countOp s op) = rest L s := by
  unfold countOp
  repeat' (first | with_reducible rfl | simp (disch := (first | exact sub_trans (by decide) hL | exact Or.inl (has_of_sub hL (by decide)) | exact Or.inr rfl | exact Or.inr fun _ => rfl | (refine Or.inr ?_; intros; repeat' (first | rfl | split)))) only [↓rest_countEvent, ↓rest_mk, ↓rest_ite, ite_self] | (intro; rfl) | split | (intro; split) | rfl)

theorem rest_startDie {L : List Part} (hL : sub [.media, .ctr] L = true) (s : State) (id : DieId) :
    rest L (startDie s id) = rest L s := by
  unfold startDie
  repeat' (first | with_reducible rfl | simp (disch := (first | exact sub_trans (by decide) hL | exact Or.inl (has_of_sub hL (by decide)) | exact Or.inr rfl | exact Or.inr fun _ => rfl | (refine Or.inr ?_; intros; repeat' (first | rfl | split)))) only [↓rest_countOp, ↓rest_updDie, ↓rest_mk, ↓rest_ite, ite_self] | (intro; rfl) | split | (intro; split) | rfl)

theorem rest_startChannel {L : List Part} (hL : sub [.media, .ctr] L = true) (s : State) (id : DieId) :
    rest L (startChannel s id) = rest L s := by
  unfold startChannel
  exact rest_foldl _ (fun t x => rest_startDie hL t _) _ _

theorem rest_enqueueOp {L : List Part} (hL : sub [.media, .ctr] L = true) (s : State) (op : DieOp) :
    rest L (enqueueOp s op) = rest L s := by
  unfold enqueueOp
  repeat' (first | with_reducible exact none_imp | (with_reducible refine rest_or _ _ ?_ ?_) | (with_reducible refine rest_some ?_) | (with_reducible refine rest_some1 ?_) | (with_reducible refine rest_map _ _ (fun x hx => ?_)) | (with_reducible refine rest_map1 _ _ (fun x hx => ?_)) | (with_reducible refine bind_imp _ _ (fun x hx => ?_)) | (with_reducible refine findSome_imp _ _ (fun x => ?_)) | with_reducible rfl | simp (disch := (first | exact sub_trans (by decide) hL | exact Or.inl (has_of_sub hL (by decide)) | exact Or.inr rfl | exact Or.inr fun _ => rfl | (refine Or.inr ?_; intros; repeat' (first | rfl | split)))) only [↓rest_startDie, ↓rest_updDie, ↓rest_mk, ↓rest_ite, ite_self] | (with_reducible refine (rest_getD _ _ (fun u => ?_)).trans ?_) | (intro; rfl) | split | (intro; split) | rfl)

theorem rest_issueOp {L : List Part} (hL : sub [.media, .ctr] L = true) (s : State) (op : DieOp) :
    rest L (issueOp s op) = rest L s := by
  unfold issueOp
  repeat' (first | with_reducible rfl | simp (disch := (first | exact sub_trans (by decide) hL | exact Or.inl (has_of_sub hL (by decide)) | exact Or.inr rfl | exact Or.inr fun _ => rfl | (refine Or.inr ?_; intros; repeat' (first | rfl | split)))) only [↓rest_enqueueOp, ↓rest_updMedia, ↓rest_mk, ↓rest_ite, ite_self] | (intro; rfl) | split | (intro; split) | rfl)

theorem rest_putPage {L : List Part} (hL : sub [.media] L = true) (s : State) (p : PageRec) :
    rest L (putPage s p) = rest L s := by
  unfold putPage
  repeat' (first | with_reducible rfl | simp (disch := (first | exact sub_trans (by decide) hL | exact Or.inl (has_of_sub hL (by decide)) | exact Or.inr rfl | exact Or.inr fun _ => rfl | (refine Or.inr ?_; intros; repeat' (first | rfl | split)))) only [↓rest_updMedia, ↓rest_mk, ↓rest_ite, ite_self] | (intro; rfl) | split | (intro; split) | rfl)

theorem rest_programPage {L : List Part} (hL : sub [.health, .media, .ctr] L = true) (s : State) (page : Madr) (who : Nat) :
    rest L (programPage s page who) = rest L s := by
  unfold programPage
  repeat' (first | with_reducible rfl | simp (disch := (first | exact sub_trans (by decide) hL | exact Or.inl (has_of_sub hL (by decide)) | exact Or.inr rfl | exact Or.inr fun _ => rfl | (refine Or.inr ?_; intros; repeat' (first | rfl | split)))) only [↓rest_issueOp, ↓rest_putPage, ↓rest_updHealth, ↓rest_mk, ↓rest_ite, ite_self] | (intro; rfl) | split | (intro; split) | rfl)

theorem rest_writePage {L : List Part} (hL : sub [.health, .media, .ctr] L = true) (s : State) (p : PageRec) (who : Nat) :
    rest L (writePage s p who) = rest L s := by
  unfold writePage
  repeat' (first | with_reducible rfl | simp (disch := (first | exact sub_trans (by decide) hL | exact Or.inl (has_of_sub hL (by decide)) | exact Or.inr rfl | exact Or.inr fun _ => rfl | (refine Or.inr ?_; intros; repeat' (first | rfl | split)))) only [↓rest_programPage, ↓rest_putPage, ↓rest_mk, ↓rest_ite, ite_self] | (intro; rfl) | split | (intro; split) | rfl)

theorem rest_updOpen {L : List Part} (hL : sub [.media] L = true) (s : State) (seq : Nat) (f : OpenSet → OpenSet) :
    rest L (updOpen s seq f) = rest L s := by
  unfold updOpen
  repeat' (first | with_reducible rfl | simp (disch := (first | exact sub_trans (by decide) hL | exact Or.inl (has_of_sub hL (by decide)) | exact Or.inr rfl | exact Or.inr fun _ => rfl | (refine Or.inr ?_; intros; repeat' (first | rfl | split)))) only [↓rest_updMedia, ↓rest_mk, ↓rest_ite, ite_self] | (intro; rfl) | split | (intro; split) | rfl)

theorem rest_updRow {L : List Part} (hL : sub [.media] L = true) (s : State) (seq row : Nat) (f : RowSt → RowSt) :
    rest L (updRow s seq row f) = rest L s := by
  unfold updRow
  repeat' (first | with_reducible rfl | simp (disch := (first | exact sub_trans (by decide) hL | exact Or.inl (has_of_sub hL (by decide)) | exact Or.inr rfl | exact Or.inr fun _ => rfl | (refine Or.inr ?_; intros; repeat' (first | rfl | split)))) only [↓rest_updOpen, ↓rest_mk, ↓rest_ite, ite_self] | (intro; rfl) | split | (intro; split) | rfl)

theorem rest_startRow {L : List Part} (hL : sub [.media] L = true) (s : State) (o : OpenSet) :
    rest L (startRow s o).1 = rest L s := by
  unfold startRow
  repeat' (first | with_reducible rfl | simp (disch := (first | exact sub_trans (by decide) hL | exact Or.inl (has_of_sub hL (by decide)) | exact Or.inr rfl | exact Or.inr fun _ => rfl | (refine Or.inr ?_; intros; repeat' (first | rfl | split)))) only [↓rest_updOpen, ↓rest_mk, ↓rest_ite, ite_self] | (intro; rfl) | split | (intro; split) | rfl)
theorem rest_startRow_eq {L : List Part} (hL : sub [.media] L = true) (s : State) (o : OpenSet) {uu aa} (hq : startRow s o = (uu, aa)) : rest L uu = rest L s := by
  have k := rest_startRow hL s o
  rw [hq] at k
  exact k

theorem rest_programParity {L : List Part} (hL : sub [.health, .media, .ctr] L = true) (s : State) (k : SetRec) (row who : Nat) :
    rest L (programParity s k row who) = rest L s := by
  unfold programParity
  repeat' (first | with_reducible rfl | (with_reducible refine (rest_foldl _ (fun t x => ?_) _ _).trans ?_) | simp (disch := (first | exact sub_trans (by decide) hL | exact Or.inl (has_of_sub hL (by decide)) | exact Or.inr rfl | exact Or.inr fun _ => rfl | (refine Or.inr ?_; intros; repeat' (first | rfl | split)))) only [↓rest_countEvent, ↓rest_updRow, ↓rest_writePage, ↓rest_mk, ↓rest_ite, ite_self] | (with_reducible refine (rest_foldl1 _ (fun t x => ?_) _ _).trans ?_) | (intro; rfl) | split | (intro; split) | rfl)

theorem rest_putSlot {L : List Part} (hL : sub [.health, .media, .ctr] L = true) (s : State) (k : SetRec) (r : RowSt) (kind who : Nat) (x : SlotRec) :
    ∀ tv, putSlot s k r kind who x = some tv → rest L tv.1 = rest L s := by
  intro tv
  unfold putSlot
  repeat' (first | with_reducible exact none_imp | (with_reducible refine rest_or _ _ ?_ ?_) | (with_reducible refine rest_some ?_) | (with_reducible refine rest_some1 ?_) | (with_reducible refine rest_map _ _ (fun x hx => ?_)) | (with_reducible refine rest_map1 _ _ (fun x hx => ?_)) | (with_reducible refine bind_imp _ _ (fun x hx => ?_)) | (with_reducible refine findSome_imp _ _ (fun x => ?_)) | with_reducible rfl | simp (disch := (first | exact sub_trans (by decide) hL | exact Or.inl (has_of_sub hL (by decide)) | exact Or.inr rfl | exact Or.inr fun _ => rfl | (refine Or.inr ?_; intros; repeat' (first | rfl | split)))) only [↓rest_programPage, ↓rest_programParity, ↓rest_putPage, ↓rest_updRow, ↓rest_mk, ↓rest_ite, ite_self] | (with_reducible refine (rest_getD _ _ (fun u => ?_)).trans ?_) | (intro; rfl) | split | (intro; split) | rfl)
theorem rest_putSlot_eq {L : List Part} (hL : sub [.health, .media, .ctr] L = true) (s : State) (k : SetRec) (r : RowSt) (kind who : Nat) (x : SlotRec) {uu aa} (hq : putSlot s k r kind who x = some (uu, aa)) : rest L uu = rest L s :=
  rest_putSlot hL s k r kind who x  _ hq

theorem rest_placeSlot {L : List Part} (hL : sub [.health, .media, .ctr] L = true) (s : State) (stream : Stream) (kind who : Nat) (x : SlotRec) :
    ∀ tv, placeSlot s stream kind who x = some tv → rest L tv.1 = rest L s := by
  intro tv
  unfold placeSlot
  repeat' (first | with_reducible exact none_imp | (with_reducible refine rest_or _ _ ?_ ?_) | (with_reducible refine rest_some ?_) | (with_reducible refine rest_some1 ?_) | (with_reducible refine rest_map _ _ (fun x hx => ?_)) | (with_reducible refine rest_map1 _ _ (fun x hx => ?_)) | (with_reducible refine bind_imp _ _ (fun x hx => ?_)) | (with_reducible refine findSome_imp _ _ (fun x => ?_)) | with_reducible rfl | simp (disch := (first | exact sub_trans (by decide) hL | exact Or.inl (has_of_sub hL (by decide)) | exact Or.inr rfl | exact Or.inr fun _ => rfl | (refine Or.inr ?_; intros; repeat' (first | rfl | split)))) only [↓rest_startRow, ↓rest_mk, ↓rest_ite, ite_self] | (with_reducible refine (rest_putSlot_eq (sub_trans (by decide) hL) _ _ _ _ _ _ (by assumption)).trans ?_) | (with_reducible refine (rest_putSlot (sub_trans (by decide) hL) _ _ _ _ _ _ _ (by assumption)).trans ?_) | (intro h; with_reducible refine (rest_putSlot (sub_trans (by decide) hL) _ _ _ _ _ _ _ h).trans ?_) | (with_reducible refine (rest_startRow_eq (sub_trans (by decide) hL) _ _ (by assumption)).trans ?_) | (with_reducible refine rest_findSome _ _ (fun x uu h => ?_) (by assumption)) | (with_reducible refine (rest_getD _ _ (fun u => ?_)).trans ?_) | (intro; rfl) | split | (intro; split) | rfl)
theorem rest_placeSlot_eq {L : List Part} (hL : sub [.health, .media, .ctr] L = true) (s : State) (stream : Stream) (kind who : Nat) (x : SlotRec) {uu aa} (hq : placeSlot s stream kind who x = some (uu, aa)) : rest L uu = rest L s :=
  rest_placeSlot hL s stream kind who x  _ hq

theorem rest_padRow {L : List Part} (hL : sub [.health, .media, .ctr] L = true) (s : State) (k : SetRec) (row who : Nat) :
    rest L (padRow s k row who) = rest L s := by
  unfold padRow
  repeat' (first | with_reducible rfl | (with_reducible refine (rest_foldl _ (fun t x => ?_) _ _).trans ?_) | simp (disch := (first | exact sub_trans (by decide) hL | exact Or.inl (has_of_sub hL (by decide)) | exact Or.inr rfl | exact Or.inr fun _ => rfl | (refine Or.inr ?_; intros; repeat' (first | rfl | split)))) only [↓rest_programPage, ↓rest_programParity, ↓rest_updRow, ↓rest_writePage, ↓rest_mk, ↓rest_ite, ite_self] | (with_reducible refine (rest_foldl1 _ (fun t x => ?_) _ _).trans ?_) | (intro; rfl) | split | (intro; split) | rfl)

theorem rest_padOpenRow {L : List Part} (hL : sub [.health, .media, .ctr] L = true) (s : State) (seq : Nat) :
    rest L (padOpenRow s seq) = rest L s := by
  unfold padOpenRow
  repeat' (first | with_reducible rfl | simp (disch := (first | exact sub_trans (by decide) hL | exact Or.inl (has_of_sub hL (by decide)) | exact Or.inr rfl | exact Or.inr fun _ => rfl | (refine Or.inr ?_; intros; repeat' (first | rfl | split)))) only [↓rest_padRow, ↓rest_mk, ↓rest_ite, ite_self] | (intro; rfl) | split | (intro; split) | rfl)

theorem rest_settleJournal {L : List Part} (hL : sub [.jrnl] L = true) (s : State) (seq row : Nat) :
    rest L (settleJournal s seq row) = rest L s := by
  unfold settleJournal
  repeat' (first | with_reducible rfl | simp (disch := (first | exact sub_trans (by decide) hL | exact Or.inl (has_of_sub hL (by decide)) | exact Or.inr rfl | exact Or.inr fun _ => rfl | (refine Or.inr ?_; intros; repeat' (first | rfl | split)))) only [↓rest_updJrnl, ↓rest_mk, ↓rest_ite, ite_self] | (intro; rfl) | split | (intro; split) | rfl)

theorem rest_unflush {L : List Part} (hL : sub [.jrnl] L = true) (s : State) (seq row : Nat) :
    rest L (unflush s seq row) = rest L s := by
  unfold unflush
  repeat' (first | with_reducible rfl | simp (disch := (first | exact sub_trans (by decide) hL | exact Or.inl (has_of_sub hL (by decide)) | exact Or.inr rfl | exact Or.inr fun _ => rfl | (refine Or.inr ?_; intros; repeat' (first | rfl | split)))) only [↓rest_updJrnl, ↓rest_mk, ↓rest_ite, ite_self] | (intro; rfl) | split | (intro; split) | rfl)

theorem rest_padTail {L : List Part} (hL : sub [.health, .media, .ctr] L = true) (s : State) (k : SetRec) :
    rest L (padTail s k) = rest L s := by
  unfold padTail
  repeat' (first | with_reducible rfl | (with_reducible refine (rest_foldl _ (fun t x => ?_) _ _).trans ?_) | simp (disch := (first | exact sub_trans (by decide) hL | exact Or.inl (has_of_sub hL (by decide)) | exact Or.inr rfl | exact Or.inr fun _ => rfl | (refine Or.inr ?_; intros; repeat' (first | rfl | split)))) only [↓rest_writePage, ↓rest_mk, ↓rest_ite, ite_self] | (with_reducible refine (rest_foldl1 _ (fun t x => ?_) _ _).trans ?_) | (intro; rfl) | split | (intro; split) | rfl)

theorem rest_padPair {L : List Part} (hL : sub [.health, .media, .ctr] L = true) (s : State) (k : SetRec) (lastValid : Option Nat) :
    rest L (padPair s k lastValid) = rest L s := by
  unfold padPair
  repeat' (first | with_reducible rfl | (with_reducible refine (rest_foldl _ (fun t x => ?_) _ _).trans ?_) | simp (disch := (first | exact sub_trans (by decide) hL | exact Or.inl (has_of_sub hL (by decide)) | exact Or.inr rfl | exact Or.inr fun _ => rfl | (refine Or.inr ?_; intros; repeat' (first | rfl | split)))) only [↓rest_writePage, ↓rest_mk, ↓rest_ite, ite_self] | (with_reducible refine (rest_foldl1 _ (fun t x => ?_) _ _).trans ?_) | (intro; rfl) | split | (intro; split) | rfl)

theorem rest_closeSet {L : List Part} (hL : sub [.health, .map, .media, .jrnl, .twin, .ctr] L = true) (s : State) (seq : Nat) (last abandoned : Option Nat) :
    rest L (closeSet s seq last abandoned) = rest L s := by
  unfold closeSet
  repeat' (first | with_reducible rfl | simp (disch := (first | exact sub_trans (by decide) hL | exact Or.inl (has_of_sub hL (by decide)) | exact Or.inr rfl | exact Or.inr fun _ => rfl | (refine Or.inr ?_; intros; repeat' (first | rfl | split)))) only [↓rest_commitRec, ↓rest_padPair, ↓rest_padTail, ↓rest_unflush, ↓rest_updOpen, ↓rest_mk, ↓rest_ite, ite_self] | (intro; rfl) | split | (intro; split) | rfl)

theorem rest_openBlock {L : List Part} (hL : sub [.map] L = true) (s : State) (m : Madr) :
    rest L (openBlock s m) = rest L s := by
  unfold openBlock
  repeat' (first | with_reducible rfl | simp (disch := (first | exact sub_trans (by decide) hL | exact Or.inl (has_of_sub hL (by decide)) | exact Or.inr rfl | exact Or.inr fun _ => rfl | (refine Or.inr ?_; intros; repeat' (first | rfl | split)))) only [↓rest_updMap, ↓rest_mk, ↓rest_ite, ite_self] | (intro; rfl) | split | (intro; split) | rfl)

theorem rest_settleTaken {L : List Part} (hL : sub [.map] L = true) (s : State) :
    rest L (settleTaken s) = rest L s := by
  unfold settleTaken
  repeat' (first | with_reducible rfl | (with_reducible refine (rest_foldl _ (fun t x => ?_) _ _).trans ?_) | simp (disch := (first | exact sub_trans (by decide) hL | exact Or.inl (has_of_sub hL (by decide)) | exact Or.inr rfl | exact Or.inr fun _ => rfl | (refine Or.inr ?_; intros; repeat' (first | rfl | split)))) only [↓rest_openBlock, ↓rest_mk, ↓rest_ite, ite_self] | (with_reducible refine (rest_foldl1 _ (fun t x => ?_) _ _).trans ?_) | (intro; rfl) | split | (intro; split) | rfl)

theorem rest_finishSet {L : List Part} (hL : sub [.map, .media] L = true) (s : State) (seq : Nat) :
    rest L (finishSet s seq) = rest L s := by
  unfold finishSet
  repeat' (first | with_reducible rfl | simp (disch := (first | exact sub_trans (by decide) hL | exact Or.inl (has_of_sub hL (by decide)) | exact Or.inr rfl | exact Or.inr fun _ => rfl | (refine Or.inr ?_; intros; repeat' (first | rfl | split)))) only [↓rest_updMap, ↓rest_updMedia, ↓rest_mk, ↓rest_ite, ite_self] | (intro; rfl) | split | (intro; split) | rfl)

theorem rest_closeIfFull {L : List Part} (hL : sub [.health, .map, .media, .jrnl, .twin, .ctr] L = true) (s : State) (seq : Nat) :
    rest L (closeIfFull s seq) = rest L s := by
  unfold closeIfFull
  repeat' (first | with_reducible rfl | simp (disch := (first | exact sub_trans (by decide) hL | exact Or.inl (has_of_sub hL (by decide)) | exact Or.inr rfl | exact Or.inr fun _ => rfl | (refine Or.inr ?_; intros; repeat' (first | rfl | split)))) only [↓rest_closeSet, ↓rest_mk, ↓rest_ite, ite_self] | (intro; rfl) | split | (intro; split) | rfl)

theorem rest_raiseTrigger {L : List Part} (hL : sub [.media] L = true) (s : State) (seq severity : Nat) :
    rest L (raiseTrigger s seq severity) = rest L s := by
  unfold raiseTrigger
  repeat' (first | with_reducible rfl | simp (disch := (first | exact sub_trans (by decide) hL | exact Or.inl (has_of_sub hL (by decide)) | exact Or.inr rfl | exact Or.inr fun _ => rfl | (refine Or.inr ?_; intros; repeat' (first | rfl | split)))) only [↓rest_updMedia, ↓rest_mk, ↓rest_ite, ite_self] | (intro; rfl) | split | (intro; split) | rfl)

theorem rest_setBaySt {L : List Part} (hL : sub [.raised, .media, .jrnl, .twin] L = true) (s : State) (b : Nat) (st : BaySt) :
    rest L (setBaySt s b st) = rest L s := by
  unfold setBaySt
  repeat' (first | with_reducible rfl | simp (disch := (first | exact sub_trans (by decide) hL | exact Or.inl (has_of_sub hL (by decide)) | exact Or.inr rfl | exact Or.inr fun _ => rfl | (refine Or.inr ?_; intros; repeat' (first | rfl | split)))) only [↓rest_journal, ↓rest_raiseEvent, ↓rest_updBay, ↓rest_mk, ↓rest_ite, ite_self] | (intro; rfl) | split | (intro; split) | rfl)

theorem rest_retireUid {L : List Part} (hL : sub [.media] L = true) (s : State) (uid : Nat) :
    rest L (retireUid s uid) = rest L s := by
  unfold retireUid
  repeat' (first | with_reducible rfl | simp (disch := (first | exact sub_trans (by decide) hL | exact Or.inl (has_of_sub hL (by decide)) | exact Or.inr rfl | exact Or.inr fun _ => rfl | (refine Or.inr ?_; intros; repeat' (first | rfl | split)))) only [↓rest_updMedia, ↓rest_mk, ↓rest_ite, ite_self] | (intro; rfl) | split | (intro; split) | rfl)

theorem rest_retireBlock {L : List Part} (hL : sub [.cond, .condFrom, .health, .map, .media, .jrnl, .twin] L = true) (s : State) (b : Madr) (cause : Nat) :
    rest L (retireBlock s b cause) = rest L s := by
  unfold retireBlock
  repeat' (first | with_reducible exact none_imp | (with_reducible refine rest_or _ _ ?_ ?_) | (with_reducible refine rest_some ?_) | (with_reducible refine rest_some1 ?_) | (with_reducible refine rest_map _ _ (fun x hx => ?_)) | (with_reducible refine rest_map1 _ _ (fun x hx => ?_)) | (with_reducible refine bind_imp _ _ (fun x hx => ?_)) | (with_reducible refine findSome_imp _ _ (fun x => ?_)) | with_reducible rfl | simp (disch := (first | exact sub_trans (by decide) hL | exact Or.inl (has_of_sub hL (by decide)) | exact Or.inr rfl | exact Or.inr fun _ => rfl | (refine Or.inr ?_; intros; repeat' (first | rfl | split)))) only [↓rest_commitRec, ↓rest_sealIfSpent, ↓rest_takeSpare, ↓rest_updBay, ↓rest_updHealth, ↓rest_mk, ↓rest_ite, ite_self] | (with_reducible refine (rest_getD _ _ (fun u => ?_)).trans ?_) | (intro; rfl) | split | (intro; split) | rfl)

theorem rest_askMap {L : List Part} (hL : sub [.eng] L = true) (s : State) (r : MapReq) :
    rest L (askMap s r) = rest L s := by
  unfold askMap
  repeat' (first | with_reducible rfl | simp (disch := (first | exact sub_trans (by decide) hL | exact Or.inl (has_of_sub hL (by decide)) | exact Or.inr rfl | exact Or.inr fun _ => rfl | (refine Or.inr ?_; intros; repeat' (first | rfl | split)))) only [↓rest_updEng, ↓rest_mk, ↓rest_ite, ite_self] | (intro; rfl) | split | (intro; split) | rfl)

theorem rest_moveUnit {L : List Part} (hL : sub [.health, .eng, .media, .ctr] L = true) (s : State) (ag : Agent) (ns lba : Nat) (old : Madr) :
    ∀ tv, moveUnit s ag ns lba old = some tv → rest L tv = rest L s := by
  intro tv
  unfold moveUnit
  repeat' (first | with_reducible exact none_imp | (with_reducible refine rest_or _ _ ?_ ?_) | (with_reducible refine rest_some ?_) | (with_reducible refine rest_some1 ?_) | (with_reducible refine rest_map _ _ (fun x hx => ?_)) | (with_reducible refine rest_map1 _ _ (fun x hx => ?_)) | (with_reducible refine bind_imp _ _ (fun x hx => ?_)) | (with_reducible refine findSome_imp _ _ (fun x => ?_)) | with_reducible rfl | simp (disch := (first | exact sub_trans (by decide) hL | exact Or.inl (has_of_sub hL (by decide)) | exact Or.inr rfl | exact Or.inr fun _ => rfl | (refine Or.inr ?_; intros; repeat' (first | rfl | split)))) only [↓rest_askMap, ↓rest_mk, ↓rest_ite, ite_self] | (with_reducible refine (rest_placeSlot_eq (sub_trans (by decide) hL) _ _ _ _ _ (by assumption)).trans ?_) | (with_reducible refine (rest_placeSlot (sub_trans (by decide) hL) _ _ _ _ _ _ (by assumption)).trans ?_) | (intro h; with_reducible refine (rest_placeSlot (sub_trans (by decide) hL) _ _ _ _ _ _ h).trans ?_) | (with_reducible refine (rest_getD _ _ (fun u => ?_)).trans ?_) | (intro; rfl) | split | (intro; split) | rfl)

theorem rest_writeTile {L : List Part} (hL : sub [.health, .eng, .media, .ctr] L = true) (s : State) (ns seg : Nat) :
    rest L (writeTile s ns seg) = rest L s := by
  unfold writeTile
  repeat' (first | with_reducible rfl | simp (disch := (first | exact sub_trans (by decide) hL | exact Or.inl (has_of_sub hL (by decide)) | exact Or.inr rfl | exact Or.inr fun _ => rfl | (refine Or.inr ?_; intros; repeat' (first | rfl | split)))) only [↓rest_askMap, ↓rest_putPage, ↓rest_mk, ↓rest_ite, ite_self] | (with_reducible refine (rest_placeSlot_eq (sub_trans (by decide) hL) _ _ _ _ _ (by assumption)).trans ?_) | (with_reducible refine (rest_placeSlot (sub_trans (by decide) hL) _ _ _ _ _ _ (by assumption)).trans ?_) | (intro h; with_reducible refine (rest_placeSlot (sub_trans (by decide) hL) _ _ _ _ _ _ h).trans ?_) | (intro; rfl) | split | (intro; split) | rfl)

end Sys2Proof.Laws
end

