-- ==== Sys2Proof/Laws/Dies.lean ====
section
/-! SUPPORT. An operation asked of a working die on a connected bay waits for its draw, or stands there: it runs, waits or is suspended. -/
namespace Sys2Proof.Laws
open Sys2Proof Sys2Proof.Machine

/-- An operation of a die is one that was asked: same sequence, page and requester. -/
def sameOp (op o : DieOp) : Bool := o.seqNo == op.seqNo && o.page == op.page && o.who == op.who

/-- An operation stands at a die. -/
def asked (d : DieSt) (op : DieOp) : Bool := d.op.any (sameOp op) || d.queue.any (sameOp op) || d.suspended.any (sameOp op)

theorem dieStOf_of {s t : State} (h : t.media.dies = s.media.dies) (d : DieId) : dieStOf t d = dieStOf s d := by
  unfold dieStOf; rw [h]

theorem dieStOf_id (s : State) (d : DieId) : ((dieStOf s d).getD (DieSt.fresh d)).id = d := by
  unfold dieStOf
  cases h : s.media.dies.find? (fun x => x.id == d) with
  | none => rfl
  | some x => have := List.find?_some h; simpa using this

theorem dieStOf_updDie (s : State) (d : DieId) (f : DieSt → DieSt) (hf : (f ((dieStOf s d).getD (DieSt.fresh d))).id = d) :
    dieStOf (updDie s d f) d = some (f ((dieStOf s d).getD (DieSt.fresh d))) := by
  have key : ∀ l : List DieSt, (if l.any (fun x => x.id == d) then l.map (fun x => if x.id == d then f ((dieStOf s d).getD (DieSt.fresh d)) else x)
      else l ++ [f ((dieStOf s d).getD (DieSt.fresh d))]).find? (fun x => x.id == d) = some (f ((dieStOf s d).getD (DieSt.fresh d))) := by
    generalize f ((dieStOf s d).getD (DieSt.fresh d)) = x at hf
    intro l
    split
    · rename_i h
      induction l with
      | nil => simp at h
      | cons a l ih =>
        rw [List.map_cons]
        by_cases e : a.id = d
        · simp [e, hf]
        · have e' : (a.id == d) = false := by simpa using e
          simp only [e', Bool.false_eq_true, if_false, List.find?_cons]
          exact ih (by simpa [e'] using h)
    · rename_i h
      have hn : l.find? (fun x => x.id == d) = none := List.find?_eq_none.mpr (by intro x hx hp; exact h (List.any_eq_true.mpr ⟨x, hx, hp⟩))
      simp [List.find?_append, hn, hf]
  exact key _

theorem any_erase {l : List DieOp} {P : DieOp → Bool} {r : DieOp} (h : l.any P = true) (hr : P r = false) : (l.erase r).any P = true := by
  obtain ⟨x, hx, hp⟩ := List.any_eq_true.mp h
  exact List.any_eq_true.mpr ⟨x, (List.mem_erase_of_ne (by rintro rfl; rw [hp] at hr; cases hr)).mpr hx, hp⟩

theorem asked_nextOp {d d' : DieSt} {op o : DieOp} (hn : nextOp d = some (o, d')) (h : d.op = none) (ha : asked d op = true) (n : Nat) :
    asked { d' with op := some { o with issued := n } } op = true := by
  have hs : ∀ q : DieOp, sameOp op { q with issued := n } = sameOp op q := fun _ => rfl
  have erased : ∀ r, (d.queue.any (sameOp op) || d.suspended.any (sameOp op)) = true →
      (sameOp op r || (d.queue.erase r).any (sameOp op) || d.suspended.any (sameOp op)) = true := by
    intro r ha
    cases e : sameOp op r
    · cases hq : d.queue.any (sameOp op)
      · rw [hq] at ha; simp only [Bool.false_or] at ha; simp [ha]
      · simp [any_erase hq e]
    · simp
  unfold asked at ha ⊢
  rw [h] at ha
  simp only [Option.any_none, Bool.false_or, Option.any_some, hs] at ha ⊢
  unfold nextOp at hn
  split at hn
  · cases hn
    exact erased _ ha
  · split at hn
    · split at hn
      · cases hn
        exact erased _ ha
      · cases hn
        rw [Bool.or_assoc, ha, Bool.or_true]
    · split at hn
      · cases hn
      · rename_i r rest hq
        cases hn
        rw [hq] at ha
        simpa only [List.any_cons, Bool.or_assoc] using ha

theorem nextOp_id {d d' : DieSt} {o : DieOp} (hn : nextOp d = some (o, d')) : d'.id = d.id := by
  unfold nextOp at hn
  repeat' split at hn
  all_goals (cases hn <;> rfl)

theorem startDie_asked {s : State} {id : DieId} {d : DieSt} {op : DieOp} (h : dieStOf s id = some d) (ha : asked d op = true) :
    ∃ d', dieStOf (startDie s id) id = some d' ∧ asked d' op = true := by
  have hid : d.id = id := by have := List.find?_some h; simpa using this
  unfold startDie
  simp only [h]
  split
  · exact ⟨d, h, ha⟩
  · rename_i hc
    simp only [Bool.or_eq_true, not_or, Bool.not_eq_true, Option.isSome_eq_false_iff, Option.isNone_iff_eq_none] at hc
    split
    · exact ⟨d, h, ha⟩
    · rename_i o d' hn
      split
      · exact ⟨d, h, ha⟩
      split
      · have e := dieStOf_updDie s id (fun x => { x with op := some (sampleOp o s.now) }) (dieStOf_id s id)
        rw [h] at e
        refine ⟨_, e, ?_⟩
        unfold asked at ha ⊢
        rw [hc.1.1] at ha
        simp only [Option.any_none, Bool.false_or, Option.getD_some] at ha ⊢
        rw [Bool.or_assoc, ha, Bool.or_true]
      · have hd' : d'.id = id := (nextOp_id hn).trans hid
        have e := dieStOf_updDie s id (fun _ => { d' with op := some { o with issued := s.now } }) hd'
        refine ⟨_, (dieStOf_of (congrArg Media.dies (media_of_rest (rest_countOp (L := but .media) rfl _ _) rfl)) id).trans e, ?_⟩
        exact asked_nextOp hn hc.1.1 ha s.now

theorem any_insertBy {P : DieOp → Bool} {le : DieOp → DieOp → Bool} {x : DieOp} (l : List DieOp) (h : P x = true) : (insertBy le x l).any P = true := by
  induction l with
  | nil => simp [insertBy, h]
  | cons y l ih =>
    unfold insertBy
    split
    · simp [h]
    · simp [ih]

/-- An operation granted to a working die on a connected bay stands there. -/
theorem enqueueOp_asked {s : State} {op : DieOp} (h1 : ((dieStOf s (dieOf op.page)).map (·.failed)).getD false = false)
    (h2 : ((bayOf s (dieOf op.page).bay).map (·.connected)).getD false = true) :
    ∃ d, dieStOf (enqueueOp s op) (dieOf op.page) = some d ∧ asked d op = true := by
  unfold enqueueOp
  simp only [h1, h2, Bool.not_true, Bool.or_self, Bool.false_eq_true, if_false]
  refine startDie_asked (dieStOf_updDie s _ _ (dieStOf_id s _)) ?_
  unfold asked
  rw [any_insertBy (P := sameOp op) _ (by simp [sameOp])]
  simp

/-- An operation asked of a working die on a connected bay waits for its draw, or stands at the die. -/
theorem issueOp_asked {s : State} {op : DieOp} (h1 : ((dieStOf s (dieOf op.page)).map (·.failed)).getD false = false)
    (h2 : ((bayOf s (dieOf op.page).bay).map (·.connected)).getD false = true) :
    (issueOp s op).media.undrawn.any (sameOp op) = true ∨
      ∃ d, dieStOf (issueOp s op) (dieOf op.page) = some d ∧ asked d op = true := by
  unfold issueOp
  split
  · refine .inr ?_
    have h := enqueueOp_asked (s := s) (op := { op with typical := none }) h1 h2
    exact h
  · exact .inl (by simp [updMedia, sameOp])

end Sys2Proof.Laws
end

