-- ==== Sys2Proof/Laws/EndCycle.lean ====
section
/-! SUPPORT. The end of a command's cycle: it changes the condition events and the history alone, and nothing where nothing was raised. -/
namespace Sys2Proof.Laws
open Sys2Proof Sys2Proof.Machine

/-- A state in which nothing waits for the end of the cycle is its own end of cycle. -/
@[simp] theorem endCycle_quiet {s : State} (h : quiet s) : endCycle s = s := by
  obtain ⟨h1, h2⟩ := h
  cases s
  simp only at h1 h2
  subst h1 h2
  rfl

theorem settled_quiet {s : State} (h : quiet s) : settled s = .next s := by rw [settled, endCycle_quiet h]

@[simp] theorem endCycle_pending (s : State) : (endCycle s).pending = s.pending := pending_of_rest (rest_endCycle (L := events) rfl s)
@[simp] theorem endCycle_now (s : State) : (endCycle s).now = s.now := now_of_rest (rest_endCycle (L := events) rfl s) rfl
@[simp] theorem endCycle_free (s : State) : (endCycle s).free = s.free := free_of_rest (rest_endCycle (L := events) rfl s) rfl
@[simp] theorem endCycle_cond (s : State) : (endCycle s).cond = s.cond := cond_of_rest (rest_endCycle (L := events) rfl s) rfl
@[simp] theorem endCycle_readData (s : State) : (endCycle s).readData = s.readData := readData_of_rest (rest_endCycle (L := events) rfl s) rfl
@[simp] theorem endCycle_csnNext (s : State) : (endCycle s).csnNext = s.csnNext := csnNext_of_rest (rest_endCycle (L := events) rfl s) rfl
@[simp] theorem endCycle_csnIssued (s : State) : (endCycle s).csnIssued = s.csnIssued := csnIssued_of_rest (rest_endCycle (L := events) rfl s) rfl
@[simp] theorem endCycle_csnBlock (s : State) : (endCycle s).csnBlock = s.csnBlock := csnBlock_of_rest (rest_endCycle (L := events) rfl s) rfl
@[simp] theorem endCycle_ctxs (s : State) : (endCycle s).ctxs = s.ctxs := ctxs_of_rest (rest_endCycle (L := events) rfl s) rfl
@[simp] theorem endCycle_errSeq (s : State) : (endCycle s).errSeq = s.errSeq := errSeq_of_rest (rest_endCycle (L := events) rfl s) rfl
@[simp] theorem endCycle_cad (s : State) : (endCycle s).cad = s.cad := cad_of_rest (rest_endCycle (L := events) rfl s) rfl
@[simp] theorem endCycle_feat (s : State) : (endCycle s).feat = s.feat := feat_of_rest (rest_endCycle (L := events) rfl s) rfl
@[simp] theorem endCycle_health (s : State) : (endCycle s).health = s.health := health_of_rest (rest_endCycle (L := events) rfl s) rfl
@[simp] theorem endCycle_map (s : State) : (endCycle s).map = s.map := map_of_rest (rest_endCycle (L := events) rfl s) rfl
@[simp] theorem endCycle_eng (s : State) : (endCycle s).eng = s.eng := eng_of_rest (rest_endCycle (L := events) rfl s) rfl
@[simp] theorem endCycle_media (s : State) : (endCycle s).media = s.media := media_of_rest (rest_endCycle (L := events) rfl s) rfl
@[simp] theorem endCycle_jrnl (s : State) : (endCycle s).jrnl = s.jrnl := jrnl_of_rest (rest_endCycle (L := events) rfl s) rfl
@[simp] theorem endCycle_twin (s : State) : (endCycle s).twin = s.twin := twin_of_rest (rest_endCycle (L := events) rfl s) rfl
@[simp] theorem endCycle_dig (s : State) : (endCycle s).dig = s.dig := dig_of_rest (rest_endCycle (L := events) rfl s) rfl
@[simp] theorem endCycle_pods (s : State) : (endCycle s).pods = s.pods := pods_of_rest (rest_endCycle (L := events) rfl s) rfl
@[simp] theorem endCycle_mover (s : State) : (endCycle s).mover = s.mover := mover_of_rest (rest_endCycle (L := events) rfl s) rfl
@[simp] theorem endCycle_kf (s : State) : (endCycle s).kf = s.kf := kf_of_rest (rest_endCycle (L := events) rfl s) rfl
@[simp] theorem endCycle_power (s : State) : (endCycle s).power = s.power := power_of_rest (rest_endCycle (L := events) rfl s) rfl
@[simp] theorem endCycle_ctr (s : State) : (endCycle s).ctr = s.ctr := ctr_of_rest (rest_endCycle (L := events) rfl s) rfl
@[simp] theorem endCycle_side (s : State) : (endCycle s).side = s.side := side_of_rest (rest_endCycle (L := events) rfl s) rfl

/-- Sending a raised event leaves nothing else to be sent. -/
theorem raised_sendEvent (s : State) (r : Raised) : (sendEvent s r).raised = s.raised :=
  raised_of_rest (rest_sendEvent (L := [.evSeq, .evHist, .out, .ports]) rfl s r) rfl

theorem condFrom_sendEvent (s : State) (r : Raised) : (sendEvent s r).condFrom = s.condFrom :=
  condFrom_of_rest (rest_sendEvent (L := [.evSeq, .evHist, .out, .ports]) rfl s r) rfl

/-- After the end of a cycle nothing waits. -/
theorem quiet_endCycle (s : State) : quiet (endCycle s) := by
  have h : ∀ (l : List Raised) (t : State), quiet t → quiet (l.foldl sendEvent t) := by
    intro l
    induction l with
    | nil => exact fun _ h => h
    | cons r l ih => exact fun t ht => ih _ ⟨(raised_sendEvent t r).trans ht.1, (condFrom_sendEvent t r).trans ht.2⟩
  exact h _ _ ⟨rfl, rfl⟩

end Sys2Proof.Laws
end

