-- ==== Sys2Proof/Laws/FramesKfRecords.lean ====
section
/-! SUPPORT. Which parts of the state the operations of Machine/KfRecords.lean may change. -/
namespace Sys2Proof.Laws
open Sys2Proof Sys2Proof.Machine

set_option linter.unreachableTactic false
set_option linter.unusedTactic false

set_option linter.unusedSimpArgs false

theorem rest_putBoot {L : List Part} (hL : sub [.kf, .kfMem] L = true) (s : State) (f : BootRec → BootRec) :
    rest L (putBoot s f) = rest L s := by
  unfold putBoot
  repeat' (first | with_reducible rfl | simp (disch := (first | exact sub_trans (by decide) hL | exact Or.inl (has_of_sub hL (by decide)) | exact Or.inr rfl | exact Or.inr fun _ => rfl | (refine Or.inr ?_; intros; repeat' (first | rfl | split)))) only [↓rest_updKf, ↓rest_mk, ↓rest_ite, ite_self] | (with_reducible refine (rest_updKf (sub_trans (by decide) hL) _ _ (.inr ?_) (.inr ?_)).trans ?_) | (intro; rfl) | split | (intro; split) | rfl)

end Sys2Proof.Laws
end

