-- ==== Sys2Proof/Laws/FramesTiers.lean ====
section
/-! SUPPORT. Which parts of the state the operations of Machine/Tiers.lean may change. -/
namespace Sys2Proof.Laws
open Sys2Proof Sys2Proof.Machine

set_option linter.unreachableTactic false
set_option linter.unusedTactic false

set_option linter.unusedSimpArgs false

theorem rest_sizeTier {L : List Part} (hL : sub [.health, .eng, .media, .ctr] L = true) (s : State) :
    rest L (sizeTier s) = rest L s := by
  unfold sizeTier
  repeat' (first | with_reducible rfl | (with_reducible refine (rest_foldl _ (fun t x => ?_) _ _).trans ?_) | simp (disch := (first | exact sub_trans (by decide) hL | exact Or.inl (has_of_sub hL (by decide)) | exact Or.inr rfl | exact Or.inr fun _ => rfl | (refine Or.inr ?_; intros; repeat' (first | rfl | split)))) only [↓rest_writeTile, ↓rest_updEng, ↓rest_mk, ↓rest_ite, ite_self] | (with_reducible refine (rest_foldl1 _ (fun t x => ?_) _ _).trans ?_) | (intro; rfl) | split | (intro; split) | rfl)

theorem rest_growPool {L : List Part} (hL : sub [.health, .eng, .media, .ctr] L = true) (s : State) :
    rest L (growPool s) = rest L s := by
  unfold growPool
  repeat' (first | with_reducible rfl | simp (disch := (first | exact sub_trans (by decide) hL | exact Or.inl (has_of_sub hL (by decide)) | exact Or.inr rfl | exact Or.inr fun _ => rfl | (refine Or.inr ?_; intros; repeat' (first | rfl | split)))) only [↓rest_sizeTier, ↓rest_updEng, ↓rest_mk, ↓rest_ite, ite_self] | (intro; rfl) | split | (intro; split) | rfl)

end Sys2Proof.Laws
end

