-- ==== Sys2Proof/Laws/FramesMembers.lean ====
section
/-! SUPPORT. Which parts of the state the operations of Machine/Members.lean may change. -/
namespace Sys2Proof.Laws
open Sys2Proof Sys2Proof.Machine

set_option linter.unreachableTactic false
set_option linter.unusedTactic false

set_option linter.unusedSimpArgs false

theorem rest_joinMember {L : List Part} (hL : sub [.raised, .health, .eng, .media, .jrnl, .twin, .ctr] L = true) (s : State) (b : Nat) :
    rest L (joinMember s b) = rest L s := by
  unfold joinMember
  repeat' (first | with_reducible rfl | simp (disch := (first | exact sub_trans (by decide) hL | exact Or.inl (has_of_sub hL (by decide)) | exact Or.inr rfl | exact Or.inr fun _ => rfl | (refine Or.inr ?_; intros; repeat' (first | rfl | split)))) only [↓rest_growPool, ↓rest_setBaySt, ↓rest_settleSegments, ↓rest_updBay, ↓rest_mk, ↓rest_ite, ite_self] | (intro; rfl) | split | (intro; split) | rfl)

theorem rest_useSpare {L : List Part} (hL : sub [.raised, .health, .eng, .media, .jrnl, .twin, .ctr] L = true) (s : State) (p : Nat) :
    rest L (useSpare s p) = rest L s := by
  unfold useSpare
  repeat' (first | with_reducible rfl | simp (disch := (first | exact sub_trans (by decide) hL | exact Or.inl (has_of_sub hL (by decide)) | exact Or.inr rfl | exact Or.inr fun _ => rfl | (refine Or.inr ?_; intros; repeat' (first | rfl | split)))) only [↓rest_joinMember, ↓rest_mk, ↓rest_ite, ite_self] | (intro; rfl) | split | (intro; split) | rfl)

theorem rest_openStandIn {L : List Part} (hL : sub [.health, .map, .media, .jrnl, .twin, .ctr] L = true) (s : State) (k : SetRec) (col : Nat) (page0 : Madr) (who : Nat) :
    rest L (openStandIn s k col page0 who) = rest L s := by
  unfold openStandIn
  repeat' (first | with_reducible exact none_imp | (with_reducible refine rest_or _ _ ?_ ?_) | (with_reducible refine rest_some ?_) | (with_reducible refine rest_some1 ?_) | (with_reducible refine rest_map _ _ (fun x hx => ?_)) | (with_reducible refine rest_map1 _ _ (fun x hx => ?_)) | (with_reducible refine bind_imp _ _ (fun x hx => ?_)) | (with_reducible refine findSome_imp _ _ (fun x => ?_)) | with_reducible rfl | simp (disch := (first | exact sub_trans (by decide) hL | exact Or.inl (has_of_sub hL (by decide)) | exact Or.inr rfl | exact Or.inr fun _ => rfl | (refine Or.inr ?_; intros; repeat' (first | rfl | split)))) only [↓rest_commitRec, ↓rest_writePage, ↓rest_mk, ↓rest_ite, ite_self] | (with_reducible refine (rest_getD _ _ (fun u => ?_)).trans ?_) | (intro; rfl) | split | (intro; split) | rfl)

theorem rest_fillStandIn {L : List Part} (hL : sub [.health, .media, .ctr] L = true) (s : State) (k : SetRec) (x : StandIn) (row who : Nat) :
    rest L (fillStandIn s k x row who) = rest L s := by
  unfold fillStandIn
  repeat' (first | with_reducible rfl | (with_reducible refine (rest_foldl _ (fun t x => ?_) _ _).trans ?_) | simp (disch := (first | exact sub_trans (by decide) hL | exact Or.inl (has_of_sub hL (by decide)) | exact Or.inr rfl | exact Or.inr fun _ => rfl | (refine Or.inr ?_; intros; repeat' (first | rfl | split)))) only [↓rest_writePage, ↓rest_mk, ↓rest_ite, ite_self] | (with_reducible refine (rest_foldl1 _ (fun t x => ?_) _ _).trans ?_) | (intro; rfl) | split | (intro; split) | rfl)

theorem rest_moveToStandIn {L : List Part} (hL : sub [.health, .eng, .media, .ctr] L = true) (s : State) (k : SetRec) (x : StandIn) (row who : Nat) :
    rest L (moveToStandIn s k x row who) = rest L s := by
  unfold moveToStandIn
  repeat' (first | with_reducible exact none_imp | (with_reducible refine rest_or _ _ ?_ ?_) | (with_reducible refine rest_some ?_) | (with_reducible refine rest_some1 ?_) | (with_reducible refine rest_map _ _ (fun x hx => ?_)) | (with_reducible refine rest_map1 _ _ (fun x hx => ?_)) | (with_reducible refine bind_imp _ _ (fun x hx => ?_)) | (with_reducible refine findSome_imp _ _ (fun x => ?_)) | with_reducible rfl | (with_reducible refine (rest_foldl _ (fun t x => ?_) _ _).trans ?_) | simp (disch := (first | exact sub_trans (by decide) hL | exact Or.inl (has_of_sub hL (by decide)) | exact Or.inr rfl | exact Or.inr fun _ => rfl | (refine Or.inr ?_; intros; repeat' (first | rfl | split)))) only [↓rest_askMap, ↓rest_writeTile, ↓rest_mk, ↓rest_ite, ite_self] | (with_reducible refine (rest_foldl1 _ (fun t x => ?_) _ _).trans ?_) | (with_reducible refine (rest_getD _ _ (fun u => ?_)).trans ?_) | (intro; rfl) | split | (intro; split) | rfl)

theorem rest_addClaim {L : List Part} (hL : sub [.media] L = true) (s : State) (ag : Agent) (seq : Nat) :
    rest L (addClaim s ag seq) = rest L s := by
  unfold addClaim
  repeat' (first | with_reducible rfl | simp (disch := (first | exact sub_trans (by decide) hL | exact Or.inl (has_of_sub hL (by decide)) | exact Or.inr rfl | exact Or.inr fun _ => rfl | (refine Or.inr ?_; intros; repeat' (first | rfl | split)))) only [↓rest_updMedia, ↓rest_mk, ↓rest_ite, ite_self] | (intro; rfl) | split | (intro; split) | rfl)

theorem rest_updHolder {L : List Part} (hL : sub [.media] L = true) (s : State) (seq : Nat) (f : Claim → Claim) :
    rest L (updHolder s seq f) = rest L s := by
  unfold updHolder
  repeat' (first | with_reducible rfl | simp (disch := (first | exact sub_trans (by decide) hL | exact Or.inl (has_of_sub hL (by decide)) | exact Or.inr rfl | exact Or.inr fun _ => rfl | (refine Or.inr ?_; intros; repeat' (first | rfl | split)))) only [↓rest_updMedia, ↓rest_mk, ↓rest_ite, ite_self] | (intro; rfl) | split | (intro; split) | rfl)

theorem rest_claimSet {L : List Part} (hL : sub [.media] L = true) (s : State) (ag : Agent) (seq : Nat) :
    rest L (claimSet s ag seq) = rest L s := by
  unfold claimSet
  repeat' (first | with_reducible rfl | simp (disch := (first | exact sub_trans (by decide) hL | exact Or.inl (has_of_sub hL (by decide)) | exact Or.inr rfl | exact Or.inr fun _ => rfl | (refine Or.inr ?_; intros; repeat' (first | rfl | split)))) only [↓rest_addClaim, ↓rest_updHolder, ↓rest_mk, ↓rest_ite, ite_self] | (intro; rfl) | split | (intro; split) | rfl)

theorem rest_dropClaim {L : List Part} (hL : sub [.media] L = true) (s : State) (ag : Agent) (seq : Nat) :
    rest L (dropClaim s ag seq) = rest L s := by
  unfold dropClaim
  repeat' (first | with_reducible rfl | simp (disch := (first | exact sub_trans (by decide) hL | exact Or.inl (has_of_sub hL (by decide)) | exact Or.inr rfl | exact Or.inr fun _ => rfl | (refine Or.inr ?_; intros; repeat' (first | rfl | split)))) only [↓rest_updMedia, ↓rest_mk, ↓rest_ite, ite_self] | (intro; rfl) | split | (intro; split) | rfl)

theorem rest_settleCancels {L : List Part} (hL : sub [.raised, .media, .jrnl, .twin] L = true) (s : State) :
    rest L (settleCancels s) = rest L s := by
  unfold settleCancels
  repeat' (first | with_reducible rfl | (with_reducible refine (rest_foldl _ (fun t x => ?_) _ _).trans ?_) | simp (disch := (first | exact sub_trans (by decide) hL | exact Or.inl (has_of_sub hL (by decide)) | exact Or.inr rfl | exact Or.inr fun _ => rfl | (refine Or.inr ?_; intros; repeat' (first | rfl | split)))) only [↓rest_setBaySt, ↓rest_updBay, ↓rest_mk, ↓rest_ite, ite_self] | (with_reducible refine (rest_foldl1 _ (fun t x => ?_) _ _).trans ?_) | (intro; rfl) | split | (intro; split) | rfl)

theorem rest_setRebuild {L : List Part} (hL : sub [.cond, .raised, .condFrom, .media, .jrnl, .twin] L = true) (s : State) (new : Nat) (extra : List (Nat × Bool)) :
    rest L (setRebuild s new extra) = rest L s := by
  unfold setRebuild
  repeat' (first | with_reducible rfl | simp (disch := (first | exact sub_trans (by decide) hL | exact Or.inl (has_of_sub hL (by decide)) | exact Or.inr rfl | exact Or.inr fun _ => rfl | (refine Or.inr ?_; intros; repeat' (first | rfl | split)))) only [↓rest_journal, ↓rest_raiseEvent, ↓rest_setFlags, ↓rest_updMedia, ↓rest_mk, ↓rest_ite, ite_self] | (intro; rfl) | split | (intro; split) | rfl)

theorem rest_finishRebuild {L : List Part} (hL : sub [.cond, .raised, .condFrom, .media, .jrnl, .twin] L = true) (s : State) :
    rest L (finishRebuild s) = rest L s := by
  unfold finishRebuild
  repeat' (first | with_reducible rfl | simp (disch := (first | exact sub_trans (by decide) hL | exact Or.inl (has_of_sub hL (by decide)) | exact Or.inr rfl | exact Or.inr fun _ => rfl | (refine Or.inr ?_; intros; repeat' (first | rfl | split)))) only [↓rest_setRebuild, ↓rest_updMedia, ↓rest_mk, ↓rest_ite, ite_self] | (intro; rfl) | split | (intro; split) | rfl)

theorem rest_handleOpen {L : List Part} (hL : sub [.health, .map, .media, .jrnl, .twin, .ctr] L = true) (s : State) (k : SetRec) (col : Nat) :
    rest L (handleOpen s k col) = rest L s := by
  unfold handleOpen
  repeat' (first | with_reducible rfl | (with_reducible refine (rest_foldl _ (fun t x => ?_) _ _).trans ?_) | simp (disch := (first | exact sub_trans (by decide) hL | exact Or.inl (has_of_sub hL (by decide)) | exact Or.inr rfl | exact Or.inr fun _ => rfl | (refine Or.inr ?_; intros; repeat' (first | rfl | split)))) only [↓rest_closeSet, ↓rest_fillStandIn, ↓rest_openStandIn, ↓rest_padOpenRow, ↓rest_raiseTrigger, ↓rest_mk, ↓rest_ite, ite_self] | (with_reducible refine (rest_foldl1 _ (fun t x => ?_) _ _).trans ?_) | (intro; rfl) | split | (intro; split) | rfl)

theorem rest_cancelActivation {L : List Part} (hL : sub [.raised, .kf, .kfMem] L = true) (s : State) :
    rest L (cancelActivation s) = rest L s := by
  unfold cancelActivation
  repeat' (first | with_reducible rfl | (with_reducible refine (rest_foldl _ (fun t x => ?_) _ _).trans ?_) | simp (disch := (first | exact sub_trans (by decide) hL | exact Or.inl (has_of_sub hL (by decide)) | exact Or.inr rfl | exact Or.inr fun _ => rfl | (refine Or.inr ?_; intros; repeat' (first | rfl | split)))) only [↓rest_putBoot, ↓rest_raiseEvent, ↓rest_updKf, ↓rest_mk, ↓rest_ite, ite_self] | (with_reducible refine (rest_foldl1 _ (fun t x => ?_) _ _).trans ?_) | (with_reducible refine (rest_updKf (sub_trans (by decide) hL) _ _ (.inr ?_) (.inr ?_)).trans ?_) | (intro; rfl) | split | (intro; split) | rfl)

theorem rest_stopBayDies {L : List Part} (hL : sub [.media] L = true) (s : State) (b : Nat) :
    rest L (stopBayDies s b) = rest L s := by
  unfold stopBayDies
  repeat' (first | with_reducible rfl | simp (disch := (first | exact sub_trans (by decide) hL | exact Or.inl (has_of_sub hL (by decide)) | exact Or.inr rfl | exact Or.inr fun _ => rfl | (refine Or.inr ?_; intros; repeat' (first | rfl | split)))) only [↓rest_updMedia, ↓rest_mk, ↓rest_ite, ite_self] | (intro; rfl) | split | (intro; split) | rfl)

theorem rest_afterMemberFail {L : List Part} (hL : sub [.cond, .raised, .condFrom, .health, .map, .media, .jrnl, .twin, .kf, .kfMem, .ctr] L = true) (s : State) :
    rest L (afterMemberFail s) = rest L s := by
  unfold afterMemberFail
  repeat' (first | with_reducible rfl | (with_reducible refine (rest_foldl _ (fun t x => ?_) _ _).trans ?_) | simp (disch := (first | exact sub_trans (by decide) hL | exact Or.inl (has_of_sub hL (by decide)) | exact Or.inr rfl | exact Or.inr fun _ => rfl | (refine Or.inr ?_; intros; repeat' (first | rfl | split)))) only [↓rest_cancelActivation, ↓rest_finishSet, ↓rest_handleOpen, ↓rest_setFlags, ↓rest_settleFull, ↓rest_updMedia, ↓rest_mk, ↓rest_ite, ite_self] | (with_reducible refine (rest_foldl1 _ (fun t x => ?_) _ _).trans ?_) | (intro; rfl) | split | (intro; split) | rfl)

theorem rest_recordFail {L : List Part} (hL : sub [.media, .jrnl, .twin] L = true) (s : State) (b : Nat) (die : Option Nat) :
    rest L (recordFail s b die) = rest L s := by
  unfold recordFail
  repeat' (first | with_reducible exact none_imp | (with_reducible refine rest_or _ _ ?_ ?_) | (with_reducible refine rest_some ?_) | (with_reducible refine rest_some1 ?_) | (with_reducible refine rest_map _ _ (fun x hx => ?_)) | (with_reducible refine rest_map1 _ _ (fun x hx => ?_)) | (with_reducible refine bind_imp _ _ (fun x hx => ?_)) | (with_reducible refine findSome_imp _ _ (fun x => ?_)) | with_reducible rfl | simp (disch := (first | exact sub_trans (by decide) hL | exact Or.inl (has_of_sub hL (by decide)) | exact Or.inr rfl | exact Or.inr fun _ => rfl | (refine Or.inr ?_; intros; repeat' (first | rfl | split)))) only [↓rest_journal, ↓rest_updMedia, ↓rest_mk, ↓rest_ite, ite_self] | (with_reducible refine (rest_getD _ _ (fun u => ?_)).trans ?_) | (intro; rfl) | split | (intro; split) | rfl)

theorem rest_bayFail {L : List Part} (hL : sub [.cond, .raised, .condFrom, .health, .map, .media, .jrnl, .twin, .kf, .kfMem, .ctr] L = true) (s : State) (b : Nat) :
    rest L (bayFail s b) = rest L s := by
  unfold bayFail
  repeat' (first | with_reducible rfl | simp (disch := (first | exact sub_trans (by decide) hL | exact Or.inl (has_of_sub hL (by decide)) | exact Or.inr rfl | exact Or.inr fun _ => rfl | (refine Or.inr ?_; intros; repeat' (first | rfl | split)))) only [↓rest_afterMemberFail, ↓rest_recordFail, ↓rest_retireUid, ↓rest_setBaySt, ↓rest_settleLoss, ↓rest_stopBayDies, ↓rest_updBay, ↓rest_mk, ↓rest_ite, ite_self] | (intro; rfl) | split | (intro; split) | rfl)

theorem rest_dieFail {L : List Part} (hL : sub [.cond, .raised, .condFrom, .health, .map, .media, .jrnl, .twin, .kf, .kfMem, .ctr] L = true) (s : State) (d : DieId) :
    rest L (dieFail s d) = rest L s := by
  unfold dieFail
  repeat' (first | with_reducible rfl | simp (disch := (first | exact sub_trans (by decide) hL | exact Or.inl (has_of_sub hL (by decide)) | exact Or.inr rfl | exact Or.inr fun _ => rfl | (refine Or.inr ?_; intros; repeat' (first | rfl | split)))) only [↓rest_afterMemberFail, ↓rest_bayFail, ↓rest_recordFail, ↓rest_settleLoss, ↓rest_updBay, ↓rest_updDie, ↓rest_updMedia, ↓rest_mk, ↓rest_ite, ite_self] | (intro; rfl) | split | (intro; split) | rfl)

theorem rest_declareLost {L : List Part} (hL : sub [.health, .eng, .media, .ctr] L = true) (s : State) (k : SetRec) (row : Nat) (bad : List Madr) :
    rest L (declareLost s k row bad) = rest L s := by
  unfold declareLost
  repeat' (first | with_reducible exact none_imp | (with_reducible refine rest_or _ _ ?_ ?_) | (with_reducible refine rest_some ?_) | (with_reducible refine rest_some1 ?_) | (with_reducible refine rest_map _ _ (fun x hx => ?_)) | (with_reducible refine rest_map1 _ _ (fun x hx => ?_)) | (with_reducible refine bind_imp _ _ (fun x hx => ?_)) | (with_reducible refine findSome_imp _ _ (fun x => ?_)) | with_reducible rfl | (with_reducible refine (rest_foldl _ (fun t x => ?_) _ _).trans ?_) | simp (disch := (first | exact sub_trans (by decide) hL | exact Or.inl (has_of_sub hL (by decide)) | exact Or.inr rfl | exact Or.inr fun _ => rfl | (refine Or.inr ?_; intros; repeat' (first | rfl | split)))) only [↓rest_askMap, ↓rest_updMedia, ↓rest_mk, ↓rest_ite, ite_self] | (with_reducible refine (rest_foldl1 _ (fun t x => ?_) _ _).trans ?_) | (with_reducible refine (rest_moveUnit (sub_trans (by decide) hL) _ _ _ _ _ _ (by assumption)).trans ?_) | (intro h; with_reducible refine (rest_moveUnit (sub_trans (by decide) hL) _ _ _ _ _ _ h).trans ?_) | (with_reducible refine (rest_getD _ _ (fun u => ?_)).trans ?_) | (intro; rfl) | split | (intro; split) | rfl)

end Sys2Proof.Laws
end

