-- ==== Sys2Proof/Laws/FramesCheckpoints.lean ====
section
/-! SUPPORT. Which parts of the state the operations of Machine/Checkpoints.lean may change. -/
namespace Sys2Proof.Laws
open Sys2Proof Sys2Proof.Machine

set_option linter.unreachableTactic false
set_option linter.unusedTactic false

set_option linter.unusedSimpArgs false

theorem rest_applyLimits {L : List Part} (hL : sub [.media] L = true) (s : State) (es : List SjEntry) :
    rest L (applyLimits s es) = rest L s := by
  unfold applyLimits
  repeat' (first | with_reducible rfl | (with_reducible refine (rest_foldl _ (fun t x => ?_) _ _).trans ?_) | simp (disch := (first | exact sub_trans (by decide) hL | exact Or.inl (has_of_sub hL (by decide)) | exact Or.inr rfl | exact Or.inr fun _ => rfl | (refine Or.inr ?_; intros; repeat' (first | rfl | split)))) only [↓rest_updOpen, ↓rest_mk, ↓rest_ite, ite_self] | (with_reducible refine (rest_foldl1 _ (fun t x => ?_) _ _).trans ?_) | (intro; rfl) | split | (intro; split) | rfl)

theorem rest_settleWait {L : List Part} (hL : sub [.media] L = true) (s : State) (w : SjWait) :
    rest L (settleWait s w) = rest L s := by
  unfold settleWait
  repeat' (first | with_reducible exact none_imp | (with_reducible refine rest_or _ _ ?_ ?_) | (with_reducible refine rest_some ?_) | (with_reducible refine rest_some1 ?_) | (with_reducible refine rest_map _ _ (fun x hx => ?_)) | (with_reducible refine rest_map1 _ _ (fun x hx => ?_)) | (with_reducible refine bind_imp _ _ (fun x hx => ?_)) | (with_reducible refine findSome_imp _ _ (fun x => ?_)) | with_reducible rfl | simp (disch := (first | exact sub_trans (by decide) hL | exact Or.inl (has_of_sub hL (by decide)) | exact Or.inr rfl | exact Or.inr fun _ => rfl | (refine Or.inr ?_; intros; repeat' (first | rfl | split)))) only [↓rest_applyLimits, ↓rest_updMedia, ↓rest_mk, ↓rest_ite, ite_self] | (with_reducible refine (rest_getD _ _ (fun u => ?_)).trans ?_) | (intro; rfl) | split | (intro; split) | rfl)

theorem rest_settleCover {L : List Part} (hL : sub [.media] L = true) (s : State) :
    rest L (settleCover s) = rest L s := by
  unfold settleCover
  repeat' (first | with_reducible rfl | (with_reducible refine (rest_foldl _ (fun t x => ?_) _ _).trans ?_) | simp (disch := (first | exact sub_trans (by decide) hL | exact Or.inl (has_of_sub hL (by decide)) | exact Or.inr rfl | exact Or.inr fun _ => rfl | (refine Or.inr ?_; intros; repeat' (first | rfl | split)))) only [↓rest_settleWait, ↓rest_mk, ↓rest_ite, ite_self] | (with_reducible refine (rest_foldl1 _ (fun t x => ?_) _ _).trans ?_) | (intro; rfl) | split | (intro; split) | rfl)

theorem rest_keepStop {L : List Part} (hL : sub [.jrnl, .kf, .kfMem] L = true) (s : State) (r : StopRec) :
    rest L (keepStop s r) = rest L s := by
  unfold keepStop
  repeat' (first | with_reducible rfl | simp (disch := (first | exact sub_trans (by decide) hL | exact Or.inl (has_of_sub hL (by decide)) | exact Or.inr rfl | exact Or.inr fun _ => rfl | (refine Or.inr ?_; intros; repeat' (first | rfl | split)))) only [↓rest_updJrnl, ↓rest_updKf, ↓rest_mk, ↓rest_ite, ite_self] | (with_reducible refine (rest_updKf (sub_trans (by decide) hL) _ _ (.inr ?_) (.inr ?_)).trans ?_) | (intro; rfl) | split | (intro; split) | rfl)

theorem rest_putStop {L : List Part} (hL : sub [.jrnl, .kf, .kfMem] L = true) (s : State) (kind : StopKind) (holdup : Option (Nat × Madr)) :
    rest L (putStop s kind holdup) = rest L s := by
  unfold putStop
  repeat' (first | with_reducible exact none_imp | (with_reducible refine rest_or _ _ ?_ ?_) | (with_reducible refine rest_some ?_) | (with_reducible refine rest_some1 ?_) | (with_reducible refine rest_map _ _ (fun x hx => ?_)) | (with_reducible refine rest_map1 _ _ (fun x hx => ?_)) | (with_reducible refine bind_imp _ _ (fun x hx => ?_)) | (with_reducible refine findSome_imp _ _ (fun x => ?_)) | with_reducible rfl | simp (disch := (first | exact sub_trans (by decide) hL | exact Or.inl (has_of_sub hL (by decide)) | exact Or.inr rfl | exact Or.inr fun _ => rfl | (refine Or.inr ?_; intros; repeat' (first | rfl | split)))) only [↓rest_keepStop, ↓rest_updJrnl, ↓rest_mk, ↓rest_ite, ite_self] | (with_reducible refine (rest_getD _ _ (fun u => ?_)).trans ?_) | (intro; rfl) | split | (intro; split) | rfl)

theorem rest_standCkpt {L : List Part} (hL : sub [.media, .jrnl, .kf, .kfMem] L = true) (s : State) (k : Ckpt) :
    rest L (standCkpt s k) = rest L s := by
  unfold standCkpt
  repeat' (first | with_reducible rfl | simp (disch := (first | exact sub_trans (by decide) hL | exact Or.inl (has_of_sub hL (by decide)) | exact Or.inr rfl | exact Or.inr fun _ => rfl | (refine Or.inr ?_; intros; repeat' (first | rfl | split)))) only [↓rest_putStop, ↓rest_updJrnl, ↓rest_updMedia, ↓rest_mk, ↓rest_ite, ite_self] | (intro; rfl) | split | (intro; split) | rfl)

theorem rest_settleCkpt {L : List Part} (hL : sub [.media, .jrnl, .kf, .kfMem] L = true) (s : State) :
    rest L (settleCkpt s) = rest L s := by
  unfold settleCkpt
  repeat' (first | with_reducible rfl | simp (disch := (first | exact sub_trans (by decide) hL | exact Or.inl (has_of_sub hL (by decide)) | exact Or.inr rfl | exact Or.inr fun _ => rfl | (refine Or.inr ?_; intros; repeat' (first | rfl | split)))) only [↓rest_standCkpt, ↓rest_updJrnl, ↓rest_mk, ↓rest_ite, ite_self] | (intro; rfl) | split | (intro; split) | rfl)

theorem rest_settleStand {L : List Part} (hL : sub [.media, .jrnl, .kf, .kfMem] L = true) (s : State) :
    rest L (settleStand s) = rest L s := by
  unfold settleStand
  repeat' (first | with_reducible rfl | simp (disch := (first | exact sub_trans (by decide) hL | exact Or.inl (has_of_sub hL (by decide)) | exact Or.inr rfl | exact Or.inr fun _ => rfl | (refine Or.inr ?_; intros; repeat' (first | rfl | split)))) only [↓rest_settleCkpt, ↓rest_settleCover, ↓rest_mk, ↓rest_ite, ite_self] | (intro; rfl) | split | (intro; split) | rfl)

end Sys2Proof.Laws
end

