-- ==== Sys2Proof/Laws/FramesWritePath.lean ====
section
/-! SUPPORT. Which parts of the state the operations of Machine/WritePath.lean may change. -/
namespace Sys2Proof.Laws
open Sys2Proof Sys2Proof.Machine

set_option linter.unreachableTactic false
set_option linter.unusedTactic false

set_option linter.unusedSimpArgs false

theorem rest_openSet {L : List Part} (hL : sub [.health, .map, .media, .jrnl, .twin, .ctr] L = true) (s : State) (stream : Stream) :
    rest L (openSet s stream) = rest L s := by
  unfold openSet
  repeat' (first | with_reducible rfl | (with_reducible refine (rest_foldl _ (fun t x => ?_) _ _).trans ?_) | simp (disch := (first | exact sub_trans (by decide) hL | exact Or.inl (has_of_sub hL (by decide)) | exact Or.inr rfl | exact Or.inr fun _ => rfl | (refine Or.inr ?_; intros; repeat' (first | rfl | split)))) only [↓rest_commitRec, ↓rest_settleFull, ↓rest_writePage, ↓rest_updMedia, ↓rest_mk, ↓rest_ite, ite_self] | (with_reducible refine (rest_foldl1 _ (fun t x => ?_) _ _).trans ?_) | (intro; rfl) | split | (intro; split) | rfl)

theorem rest_padOut {L : List Part} (hL : sub [.health, .media, .ctr] L = true) (s : State) (seq : Nat) :
    ∀ xv, rest L (padOut s seq xv) = rest L s := by
  intro xv
  fun_induction padOut s seq xv
  all_goals repeat' (first | with_reducible rfl | (with_reducible refine Eq.trans (by assumption) ?_) | simp +zetaDelta (disch := (first | exact sub_trans (by decide) hL | exact Or.inl (has_of_sub hL (by decide)) | exact Or.inr rfl | exact Or.inr fun _ => rfl | (refine Or.inr ?_; intros; repeat' (first | rfl | split)))) only [↓rest_padRow, ↓rest_startRow, ↓rest_mk, ↓rest_ite, ite_self] | (with_reducible refine (rest_startRow_eq (sub_trans (by decide) hL) _ _ (by assumption)).trans ?_) | (intro; rfl) | split | (intro; split) | rfl)

theorem rest_alignPage {L : List Part} (hL : sub [.health, .media, .ctr] L = true) (s : State) (seq who : Nat) :
    rest L (alignPage s seq who) = rest L s := by
  unfold alignPage
  repeat' (first | with_reducible rfl | simp (disch := (first | exact sub_trans (by decide) hL | exact Or.inl (has_of_sub hL (by decide)) | exact Or.inr rfl | exact Or.inr fun _ => rfl | (refine Or.inr ?_; intros; repeat' (first | rfl | split)))) only [↓rest_programPage, ↓rest_programParity, ↓rest_updRow, ↓rest_mk, ↓rest_ite, ite_self] | (intro; rfl) | split | (intro; split) | rfl)

theorem rest_makeRoom {L : List Part} (hL : sub [.health, .media, .ctr] L = true) (s : State) (stream : Stream) :
    rest L (makeRoom s stream) = rest L s := by
  unfold makeRoom
  repeat' (first | with_reducible rfl | (with_reducible refine (rest_foldl _ (fun t x => ?_) _ _).trans ?_) | simp (disch := (first | exact sub_trans (by decide) hL | exact Or.inl (has_of_sub hL (by decide)) | exact Or.inr rfl | exact Or.inr fun _ => rfl | (refine Or.inr ?_; intros; repeat' (first | rfl | split)))) only [↓rest_alignPage, ↓rest_padOut, ↓rest_mk, ↓rest_ite, ite_self] | (with_reducible refine (rest_foldl1 _ (fun t x => ?_) _ _).trans ?_) | (intro; rfl) | split | (intro; split) | rfl)

theorem rest_replaceUnit {L : List Part} (hL : sub [.health, .eng, .media, .ctr] L = true) (s : State) (ns lba : Nat) (old : Madr) :
    rest L (replaceUnit s ns lba old) = rest L s := by
  unfold replaceUnit
  repeat' (first | with_reducible rfl | simp (disch := (first | exact sub_trans (by decide) hL | exact Or.inl (has_of_sub hL (by decide)) | exact Or.inr rfl | exact Or.inr fun _ => rfl | (refine Or.inr ?_; intros; repeat' (first | rfl | split)))) only [↓rest_askMap, ↓rest_mk, ↓rest_ite, ite_self] | (with_reducible refine (rest_placeSlot_eq (sub_trans (by decide) hL) _ _ _ _ _ (by assumption)).trans ?_) | (with_reducible refine (rest_placeSlot (sub_trans (by decide) hL) _ _ _ _ _ _ (by assumption)).trans ?_) | (intro h; with_reducible refine (rest_placeSlot (sub_trans (by decide) hL) _ _ _ _ _ _ h).trans ?_) | (intro; rfl) | split | (intro; split) | rfl)

theorem rest_replaceAbandoned {L : List Part} (hL : sub [.health, .eng, .media, .ctr] L = true) (s : State) :
    rest L (replaceAbandoned s) = rest L s := by
  unfold replaceAbandoned
  repeat' (first | with_reducible rfl | (with_reducible refine (rest_foldl _ (fun t x => ?_) _ _).trans ?_) | simp (disch := (first | exact sub_trans (by decide) hL | exact Or.inl (has_of_sub hL (by decide)) | exact Or.inr rfl | exact Or.inr fun _ => rfl | (refine Or.inr ?_; intros; repeat' (first | rfl | split)))) only [↓rest_replaceUnit, ↓rest_mk, ↓rest_ite, ite_self] | (with_reducible refine (rest_foldl1 _ (fun t x => ?_) _ _).trans ?_) | (intro; rfl) | split | (intro; split) | rfl)

theorem rest_execSetOpen {L : List Part} (hL : sub [.health, .map, .eng, .media, .jrnl, .twin, .ctr] L = true) (stream : Stream) (s : State) :
    ∃ tv, execSetOpen stream s = .next tv ∧ rest L tv = rest L s := by
  unfold execSetOpen
  repeat' (first | (refine ⟨_, rfl, ?_⟩) | with_reducible rfl | simp (disch := (first | exact sub_trans (by decide) hL | exact Or.inl (has_of_sub hL (by decide)) | exact Or.inr rfl | exact Or.inr fun _ => rfl | (refine Or.inr ?_; intros; repeat' (first | rfl | split)))) only [↓rest_openSet, ↓rest_replaceAbandoned, ↓rest_mk, ↓rest_ite, ite_self] | (intro; rfl) | split | (intro; split) | rfl)

theorem rest_giveSlot {L : List Part} (hL : sub [.ctxs] L = true) (s : State) (cid lba : Nat) (m : Madr) :
    rest L (giveSlot s cid lba m) = rest L s := by
  unfold giveSlot
  repeat' (first | with_reducible exact none_imp | (with_reducible refine rest_or _ _ ?_ ?_) | (with_reducible refine rest_some ?_) | (with_reducible refine rest_some1 ?_) | (with_reducible refine rest_map _ _ (fun x hx => ?_)) | (with_reducible refine rest_map1 _ _ (fun x hx => ?_)) | (with_reducible refine bind_imp _ _ (fun x hx => ?_)) | (with_reducible refine findSome_imp _ _ (fun x => ?_)) | with_reducible rfl | simp (disch := (first | exact sub_trans (by decide) hL | exact Or.inl (has_of_sub hL (by decide)) | exact Or.inr rfl | exact Or.inr fun _ => rfl | (refine Or.inr ?_; intros; repeat' (first | rfl | split)))) only [↓rest_updCtx, ↓rest_mk, ↓rest_ite, ite_self] | (with_reducible refine (rest_getD _ _ (fun u => ?_)).trans ?_) | (intro; rfl) | split | (intro; split) | rfl)

theorem rest_assignUnits {L : List Part} (hL : sub [.ctxs, .health, .media, .ctr] L = true) (s : State) (c : Ctx) :
    ∀ xv, rest L (assignUnits s c xv) = rest L s := by
  intro xv
  fun_induction assignUnits s c xv
  all_goals repeat' (first | with_reducible rfl | (with_reducible refine Eq.trans (by assumption) ?_) | simp +zetaDelta (disch := (first | exact sub_trans (by decide) hL | exact Or.inl (has_of_sub hL (by decide)) | exact Or.inr rfl | exact Or.inr fun _ => rfl | (refine Or.inr ?_; intros; repeat' (first | rfl | split)))) only [↓rest_giveSlot, ↓rest_makeRoom, ↓rest_mk, ↓rest_ite, ite_self] | (with_reducible refine (rest_placeSlot_eq (sub_trans (by decide) hL) _ _ _ _ _ (by assumption)).trans ?_) | (with_reducible refine (rest_placeSlot (sub_trans (by decide) hL) _ _ _ _ _ _ (by assumption)).trans ?_) | (intro h; with_reducible refine (rest_placeSlot (sub_trans (by decide) hL) _ _ _ _ _ _ h).trans ?_) | (intro; rfl) | split | (intro; split) | rfl)

theorem rest_execWriteHeld {L : List Part} (hL : sub [.now, .ctxs, .errSeq, .ports, .health, .media, .power, .ctr] L = true) (cid cyc : Nat) (s : State) :
    ∃ tv, execWriteHeld cid cyc s = .next tv ∧ rest L tv = rest L s := by
  unfold execWriteHeld
  repeat' (first | (refine ⟨_, rfl, ?_⟩) | with_reducible rfl | simp (disch := (first | exact sub_trans (by decide) hL | exact Or.inl (has_of_sub hL (by decide)) | exact Or.inr rfl | exact Or.inr fun _ => rfl | (refine Or.inr ?_; intros; repeat' (first | rfl | split)))) only [↓rest_advanceTo, ↓rest_assignUnits, ↓rest_decide_, ↓rest_settleFull, ↓rest_updCtx, ↓rest_mk, ↓rest_ite, ite_self] | (intro; rfl) | split | (intro; split) | rfl)

theorem rest_execPageProgramTimeout {L : List Part} (hL : sub [.now, .health, .media, .power, .ctr] L = true) (page : Madr) (cyc : Nat) (s : State) :
    ∃ tv, execPageProgramTimeout page cyc s = .next tv ∧ rest L tv = rest L s := by
  unfold execPageProgramTimeout
  repeat' (first | (refine ⟨_, rfl, ?_⟩) | with_reducible rfl | simp (disch := (first | exact sub_trans (by decide) hL | exact Or.inl (has_of_sub hL (by decide)) | exact Or.inr rfl | exact Or.inr fun _ => rfl | (refine Or.inr ?_; intros; repeat' (first | rfl | split)))) only [↓rest_advanceTo, ↓rest_programPage, ↓rest_programParity, ↓rest_settleFull, ↓rest_updRow, ↓rest_mk, ↓rest_ite, ite_self] | (intro; rfl) | split | (intro; split) | rfl)

theorem rest_execRowPadTimeout {L : List Part} (hL : sub [.health, .media, .ctr] L = true) (seq row : Nat) (s : State) :
    ∃ tv, execRowPadTimeout seq row s = .next tv ∧ rest L tv = rest L s := by
  unfold execRowPadTimeout
  repeat' (first | (refine ⟨_, rfl, ?_⟩) | with_reducible rfl | simp (disch := (first | exact sub_trans (by decide) hL | exact Or.inl (has_of_sub hL (by decide)) | exact Or.inr rfl | exact Or.inr fun _ => rfl | (refine Or.inr ?_; intros; repeat' (first | rfl | split)))) only [↓rest_padRow, ↓rest_settleFull, ↓rest_mk, ↓rest_ite, ite_self] | (intro; rfl) | split | (intro; split) | rfl)

theorem rest_failRow {L : List Part} (hL : sub [.health, .map, .eng, .media, .jrnl, .twin, .ctr] L = true) (s : State) (k : SetRec) (r : Nat) :
    rest L (failRow s k r) = rest L s := by
  unfold failRow
  repeat' (first | with_reducible exact none_imp | (with_reducible refine rest_or _ _ ?_ ?_) | (with_reducible refine rest_some ?_) | (with_reducible refine rest_some1 ?_) | (with_reducible refine rest_map _ _ (fun x hx => ?_)) | (with_reducible refine rest_map1 _ _ (fun x hx => ?_)) | (with_reducible refine bind_imp _ _ (fun x hx => ?_)) | (with_reducible refine findSome_imp _ _ (fun x => ?_)) | with_reducible rfl | simp (disch := (first | exact sub_trans (by decide) hL | exact Or.inl (has_of_sub hL (by decide)) | exact Or.inr rfl | exact Or.inr fun _ => rfl | (refine Or.inr ?_; intros; repeat' (first | rfl | split)))) only [↓rest_closeSet, ↓rest_commitRec, ↓rest_finishSet, ↓rest_raiseTrigger, ↓rest_replaceAbandoned, ↓rest_unflush, ↓rest_updOpen, ↓rest_mk, ↓rest_ite, ite_self] | (with_reducible refine (rest_getD _ _ (fun u => ?_)).trans ?_) | (intro; rfl) | split | (intro; split) | rfl)

theorem rest_replaceColumn {L : List Part} (hL : sub [.cond, .condFrom, .health, .map, .media, .jrnl, .twin, .ctr] L = true) (s : State) (k : SetRec) (col : Nat) (bad : Madr) :
    rest L (replaceColumn s k col bad) = rest L s := by
  unfold replaceColumn
  repeat' (first | with_reducible rfl | (with_reducible refine (rest_foldl _ (fun t x => ?_) _ _).trans ?_) | simp (disch := (first | exact sub_trans (by decide) hL | exact Or.inl (has_of_sub hL (by decide)) | exact Or.inr rfl | exact Or.inr fun _ => rfl | (refine Or.inr ?_; intros; repeat' (first | rfl | split)))) only [↓rest_closeSet, ↓rest_commitRec, ↓rest_finishSet, ↓rest_retireBlock, ↓rest_writePage, ↓rest_updMap, ↓rest_mk, ↓rest_ite, ite_self] | (with_reducible refine (rest_foldl1 _ (fun t x => ?_) _ _).trans ?_) | (intro; rfl) | split | (intro; split) | rfl)

theorem rest_programFailed {L : List Part} (hL : sub [.cond, .condFrom, .health, .map, .eng, .media, .jrnl, .twin, .kf, .kfMem, .ctr] L = true) (s : State) (p : PageRec) :
    rest L (programFailed s p) = rest L s := by
  unfold programFailed
  repeat' (first | with_reducible rfl | simp (disch := (first | exact sub_trans (by decide) hL | exact Or.inl (has_of_sub hL (by decide)) | exact Or.inr rfl | exact Or.inr fun _ => rfl | (refine Or.inr ?_; intros; repeat' (first | rfl | split)))) only [↓rest_failRow, ↓rest_putPage, ↓rest_raiseTrigger, ↓rest_replaceColumn, ↓rest_retireBlock, ↓rest_settleStand, ↓rest_updHealth, ↓rest_mk, ↓rest_ite, ite_self] | (intro; rfl) | split | (intro; split) | rfl)

theorem rest_issueVerify {L : List Part} (hL : sub [.media, .ctr] L = true) (s : State) (k : SetRec) (row : Nat) :
    rest L (issueVerify s k row) = rest L s := by
  unfold issueVerify
  repeat' (first | with_reducible rfl | (with_reducible refine (rest_foldl _ (fun t x => ?_) _ _).trans ?_) | simp (disch := (first | exact sub_trans (by decide) hL | exact Or.inl (has_of_sub hL (by decide)) | exact Or.inr rfl | exact Or.inr fun _ => rfl | (refine Or.inr ?_; intros; repeat' (first | rfl | split)))) only [↓rest_issueOp, ↓rest_mk, ↓rest_ite, ite_self] | (with_reducible refine (rest_foldl1 _ (fun t x => ?_) _ _).trans ?_) | (intro; rfl) | split | (intro; split) | rfl)

theorem rest_programDone {L : List Part} (hL : sub [.ctxs, .health, .map, .media, .jrnl, .twin, .kf, .kfMem, .ctr] L = true) (s : State) (p : PageRec) :
    rest L (programDone s p) = rest L s := by
  unfold programDone
  repeat' (first | with_reducible exact none_imp | (with_reducible refine rest_or _ _ ?_ ?_) | (with_reducible refine rest_some ?_) | (with_reducible refine rest_some1 ?_) | (with_reducible refine rest_map _ _ (fun x hx => ?_)) | (with_reducible refine rest_map1 _ _ (fun x hx => ?_)) | (with_reducible refine bind_imp _ _ (fun x hx => ?_)) | (with_reducible refine findSome_imp _ _ (fun x => ?_)) | with_reducible rfl | (with_reducible refine (rest_foldl _ (fun t x => ?_) _ _).trans ?_) | simp (disch := (first | exact sub_trans (by decide) hL | exact Or.inl (has_of_sub hL (by decide)) | exact Or.inr rfl | exact Or.inr fun _ => rfl | (refine Or.inr ?_; intros; repeat' (first | rfl | split)))) only [↓rest_closeIfFull, ↓rest_issueOp, ↓rest_issueVerify, ↓rest_openBlock, ↓rest_putPage, ↓rest_settleStand, ↓rest_updOpen, ↓rest_updJrnl, ↓rest_mk, ↓rest_ite, ite_self] | (with_reducible refine (rest_foldl1 _ (fun t x => ?_) _ _).trans ?_) | (with_reducible refine (rest_getD _ _ (fun u => ?_)).trans ?_) | (intro; rfl) | split | (intro; split) | rfl)

theorem rest_verifyFailed {L : List Part} (hL : sub [.health, .map, .eng, .media, .jrnl, .twin, .ctr] L = true) (s : State) (k : SetRec) (row : Nat) (bad : Madr) :
    rest L (verifyFailed s k row bad) = rest L s := by
  unfold verifyFailed
  repeat' (first | with_reducible rfl | simp (disch := (first | exact sub_trans (by decide) hL | exact Or.inl (has_of_sub hL (by decide)) | exact Or.inr rfl | exact Or.inr fun _ => rfl | (refine Or.inr ?_; intros; repeat' (first | rfl | split)))) only [↓rest_failRow, ↓rest_updMedia, ↓rest_mk, ↓rest_ite, ite_self] | (intro; rfl) | split | (intro; split) | rfl)

theorem rest_settleStandIns {L : List Part} (hL : sub [.raised, .health, .map, .eng, .media, .jrnl, .twin, .ctr] L = true) (s : State) (k : SetRec) (row : Nat) :
    rest L (settleStandIns s k row) = rest L s := by
  unfold settleStandIns
  repeat' (first | with_reducible exact none_imp | (with_reducible refine rest_or _ _ ?_ ?_) | (with_reducible refine rest_some ?_) | (with_reducible refine rest_some1 ?_) | (with_reducible refine rest_map _ _ (fun x hx => ?_)) | (with_reducible refine rest_map1 _ _ (fun x hx => ?_)) | (with_reducible refine bind_imp _ _ (fun x hx => ?_)) | (with_reducible refine findSome_imp _ _ (fun x => ?_)) | with_reducible rfl | (with_reducible refine (rest_foldl _ (fun t x => ?_) _ _).trans ?_) | simp (disch := (first | exact sub_trans (by decide) hL | exact Or.inl (has_of_sub hL (by decide)) | exact Or.inr rfl | exact Or.inr fun _ => rfl | (refine Or.inr ?_; intros; repeat' (first | rfl | split)))) only [↓rest_commitRec, ↓rest_dropClaim, ↓rest_journal, ↓rest_moveToStandIn, ↓rest_settleCancels, ↓rest_updMap, ↓rest_updMedia, ↓rest_mk, ↓rest_ite, ite_self] | (with_reducible refine (rest_foldl1 _ (fun t x => ?_) _ _).trans ?_) | (with_reducible refine (rest_getD _ _ (fun u => ?_)).trans ?_) | (intro; rfl) | split | (intro; split) | rfl)

theorem rest_readWhole {L : List Part} (hL : sub [.media, .ctr] L = true) (s : State) (page : Madr) :
    rest L (readWhole s page) = rest L s := by
  unfold readWhole
  repeat' (first | with_reducible rfl | simp (disch := (first | exact sub_trans (by decide) hL | exact Or.inl (has_of_sub hL (by decide)) | exact Or.inr rfl | exact Or.inr fun _ => rfl | (refine Or.inr ?_; intros; repeat' (first | rfl | split)))) only [↓rest_issueOp, ↓rest_mk, ↓rest_ite, ite_self] | (intro; rfl) | split | (intro; split) | rfl)

theorem rest_rowVerifyFailed {L : List Part} (hL : sub [.health, .map, .eng, .media, .jrnl, .twin, .ctr] L = true) (s : State) (k : SetRec) (row : Nat) (bad : Madr) :
    rest L (rowVerifyFailed s k row bad) = rest L s := by
  unfold rowVerifyFailed
  repeat' (first | with_reducible rfl | simp (disch := (first | exact sub_trans (by decide) hL | exact Or.inl (has_of_sub hL (by decide)) | exact Or.inr rfl | exact Or.inr fun _ => rfl | (refine Or.inr ?_; intros; repeat' (first | rfl | split)))) only [↓rest_countEvent, ↓rest_issueVerify, ↓rest_verifyFailed, ↓rest_mk, ↓rest_ite, ite_self] | (intro; rfl) | split | (intro; split) | rfl)

theorem rest_execVerifyReadDone {L : List Part} (hL : sub [.cond, .out, .evSeq, .evHist, .raised, .condFrom, .ports, .health, .map, .eng, .media, .jrnl, .twin, .kf, .kfMem, .ctr] L = true) (seq row : Nat) (reads : List VerifyRead) (s : State) :
    ∃ tv, execVerifyReadDone seq row reads s = .next tv ∧ rest L tv = rest L s := by
  unfold execVerifyReadDone
  repeat' (first | (refine ⟨_, rfl, ?_⟩) | with_reducible exact none_imp | (with_reducible refine rest_or _ _ ?_ ?_) | (with_reducible refine rest_some ?_) | (with_reducible refine rest_some1 ?_) | (with_reducible refine rest_map _ _ (fun x hx => ?_)) | (with_reducible refine rest_map1 _ _ (fun x hx => ?_)) | (with_reducible refine bind_imp _ _ (fun x hx => ?_)) | (with_reducible refine findSome_imp _ _ (fun x => ?_)) | with_reducible rfl | (with_reducible refine (rest_foldl _ (fun t x => ?_) _ _).trans ?_) | simp (disch := (first | exact sub_trans (by decide) hL | exact Or.inl (has_of_sub hL (by decide)) | exact Or.inr rfl | exact Or.inr fun _ => rfl | (refine Or.inr ?_; intros; repeat' (first | rfl | split)))) only [↓rest_endCycle, ↓rest_finishRebuild, ↓rest_finishSet, ↓rest_readWhole, ↓rest_retireBlock, ↓rest_rowVerifyFailed, ↓rest_settleCkpt, ↓rest_settleFull, ↓rest_settleJournal, ↓rest_settleStand, ↓rest_settleStandIns, ↓rest_updRow, ↓rest_mk, ↓rest_ite, ite_self] | (with_reducible refine (rest_foldl1 _ (fun t x => ?_) _ _).trans ?_) | (with_reducible refine (rest_getD _ _ (fun u => ?_)).trans ?_) | (intro; rfl) | split | (intro; split) | rfl)

theorem rest_execReadSuspend {L : List Part} (hL : sub [.now, .media, .power, .ctr] L = true) (die : DieId) (cyc : Nat) (s : State) :
    ∃ tv, execReadSuspend die cyc s = .next tv ∧ rest L tv = rest L s := by
  unfold execReadSuspend
  repeat' (first | (refine ⟨_, rfl, ?_⟩) | with_reducible exact none_imp | (with_reducible refine rest_or _ _ ?_ ?_) | (with_reducible refine rest_some ?_) | (with_reducible refine rest_some1 ?_) | (with_reducible refine rest_map _ _ (fun x hx => ?_)) | (with_reducible refine rest_map1 _ _ (fun x hx => ?_)) | (with_reducible refine bind_imp _ _ (fun x hx => ?_)) | (with_reducible refine findSome_imp _ _ (fun x => ?_)) | with_reducible rfl | simp (disch := (first | exact sub_trans (by decide) hL | exact Or.inl (has_of_sub hL (by decide)) | exact Or.inr rfl | exact Or.inr fun _ => rfl | (refine Or.inr ?_; intros; repeat' (first | rfl | split)))) only [↓rest_advanceTo, ↓rest_countEvent, ↓rest_updDie, ↓rest_mk, ↓rest_ite, ite_self] | (with_reducible refine (rest_getD _ _ (fun u => ?_)).trans ?_) | (intro; rfl) | split | (intro; split) | rfl)

theorem rest_execWriteCommit {L : List Part} (hL : sub [.ctxs, .eng, .twin] L = true) (cid : Nat) (s : State) :
    ∃ tv, execWriteCommit cid s = .next tv ∧ rest L tv = rest L s := by
  unfold execWriteCommit
  repeat' (first | (refine ⟨_, rfl, ?_⟩) | with_reducible rfl | simp (disch := (first | exact sub_trans (by decide) hL | exact Or.inl (has_of_sub hL (by decide)) | exact Or.inr rfl | exact Or.inr fun _ => rfl | (refine Or.inr ?_; intros; repeat' (first | rfl | split)))) only [↓rest_askMap, ↓rest_mirrorFrame, ↓rest_updCtx, ↓rest_mk, ↓rest_ite, ite_self] | (intro; rfl) | split | (intro; split) | rfl)

end Sys2Proof.Laws
end

