-- ==== Sys2Proof/Laws/FramesMap.lean ====
section
/-! SUPPORT. Which parts of the state the operations of Machine/Map.lean may change. -/
namespace Sys2Proof.Laws
open Sys2Proof Sys2Proof.Machine

set_option linter.unreachableTactic false
set_option linter.unusedTactic false

set_option linter.unusedSimpArgs false

theorem rest_spillToHost {L : List Part} (hL : sub [.out, .eng] L = true) (s : State) (ns seg : Nat) (t : Tile) :
    rest L (spillToHost s ns seg t) = rest L s := by
  unfold spillToHost
  repeat' (first | with_reducible rfl | simp (disch := (first | exact sub_trans (by decide) hL | exact Or.inl (has_of_sub hL (by decide)) | exact Or.inr rfl | exact Or.inr fun _ => rfl | (refine Or.inr ?_; intros; repeat' (first | rfl | split)))) only [↓rest_emit, ↓rest_updEng, ↓rest_mk, ↓rest_ite, ite_self] | (intro; rfl) | split | (intro; split) | rfl)

theorem rest_evictFrame {L : List Part} (hL : sub [.out, .eng] L = true) (s : State) (f : TileFrame) :
    rest L (evictFrame s f) = rest L s := by
  unfold evictFrame
  repeat' (first | with_reducible rfl | simp (disch := (first | exact sub_trans (by decide) hL | exact Or.inl (has_of_sub hL (by decide)) | exact Or.inr rfl | exact Or.inr fun _ => rfl | (refine Or.inr ?_; intros; repeat' (first | rfl | split)))) only [↓rest_spillToHost, ↓rest_updEng, ↓rest_mk, ↓rest_ite, ite_self] | (intro; rfl) | split | (intro; split) | rfl)

theorem rest_fillFrame {L : List Part} (hL : sub [.out, .eng] L = true) (s : State) (ns seg : Nat) (t : Tile) :
    rest L (fillFrame s ns seg t) = rest L s := by
  unfold fillFrame
  repeat' (first | with_reducible rfl | simp (disch := (first | exact sub_trans (by decide) hL | exact Or.inl (has_of_sub hL (by decide)) | exact Or.inr rfl | exact Or.inr fun _ => rfl | (refine Or.inr ?_; intros; repeat' (first | rfl | split)))) only [↓rest_evictFrame, ↓rest_updEng, ↓rest_mk, ↓rest_ite, ite_self] | (intro; rfl) | split | (intro; split) | rfl)

theorem rest_makeWay {L : List Part} (hL : sub [.health, .eng, .media, .ctr] L = true) (s : State) (ns seg : Nat) :
    rest L (makeWay s ns seg) = rest L s := by
  unfold makeWay
  repeat' (first | with_reducible rfl | simp (disch := (first | exact sub_trans (by decide) hL | exact Or.inl (has_of_sub hL (by decide)) | exact Or.inr rfl | exact Or.inr fun _ => rfl | (refine Or.inr ?_; intros; repeat' (first | rfl | split)))) only [↓rest_writeTile, ↓rest_mk, ↓rest_ite, ite_self] | (intro; rfl) | split | (intro; split) | rfl)

theorem rest_syncSeg {L : List Part} (hL : sub [.out, .eng] L = true) (s : State) (ns seg : Nat) :
    rest L (syncSeg s ns seg) = rest L s := by
  unfold syncSeg
  repeat' (first | with_reducible rfl | simp (disch := (first | exact sub_trans (by decide) hL | exact Or.inl (has_of_sub hL (by decide)) | exact Or.inr rfl | exact Or.inr fun _ => rfl | (refine Or.inr ?_; intros; repeat' (first | rfl | split)))) only [↓rest_fillFrame, ↓rest_updEng, ↓rest_mk, ↓rest_ite, ite_self] | (intro; rfl) | split | (intro; split) | rfl)

theorem rest_discardTile {L : List Part} (hL : sub [.health, .eng] L = true) (s : State) (ns seg : Nat) (src : TileSource) (t : Tile) :
    rest L (discardTile s ns seg src t) = rest L s := by
  unfold discardTile
  repeat' (first | with_reducible rfl | simp (disch := (first | exact sub_trans (by decide) hL | exact Or.inl (has_of_sub hL (by decide)) | exact Or.inr rfl | exact Or.inr fun _ => rfl | (refine Or.inr ?_; intros; repeat' (first | rfl | split)))) only [↓rest_updEng, ↓rest_updHealth, ↓rest_mk, ↓rest_ite, ite_self] | (intro; rfl) | split | (intro; split) | rfl)

theorem rest_pinBlock {L : List Part} (hL : sub [.eng] L = true) (s : State) (m : Madr) :
    rest L (pinBlock s m) = rest L s := by
  unfold pinBlock
  repeat' (first | with_reducible rfl | simp (disch := (first | exact sub_trans (by decide) hL | exact Or.inl (has_of_sub hL (by decide)) | exact Or.inr rfl | exact Or.inr fun _ => rfl | (refine Or.inr ?_; intros; repeat' (first | rfl | split)))) only [↓rest_updEng, ↓rest_mk, ↓rest_ite, ite_self] | (intro; rfl) | split | (intro; split) | rfl)

theorem rest_unpinBlock {L : List Part} (hL : sub [.eng] L = true) (s : State) (m : Madr) :
    rest L (unpinBlock s m) = rest L s := by
  unfold unpinBlock
  repeat' (first | with_reducible rfl | simp (disch := (first | exact sub_trans (by decide) hL | exact Or.inl (has_of_sub hL (by decide)) | exact Or.inr rfl | exact Or.inr fun _ => rfl | (refine Or.inr ?_; intros; repeat' (first | rfl | split)))) only [↓rest_updEng, ↓rest_mk, ↓rest_ite, ite_self] | (intro; rfl) | split | (intro; split) | rfl)

theorem rest_wantTile {L : List Part} (hL : sub [.eng] L = true) (s : State) (ns seg : Nat) (home : Madr) :
    rest L (wantTile s ns seg home) = rest L s := by
  unfold wantTile
  repeat' (first | with_reducible rfl | simp (disch := (first | exact sub_trans (by decide) hL | exact Or.inl (has_of_sub hL (by decide)) | exact Or.inr rfl | exact Or.inr fun _ => rfl | (refine Or.inr ?_; intros; repeat' (first | rfl | split)))) only [↓rest_pinBlock, ↓rest_updEng, ↓rest_mk, ↓rest_ite, ite_self] | (intro; rfl) | split | (intro; split) | rfl)

theorem rest_tileRead {L : List Part} (hL : sub [.eng] L = true) (s : State) (home : Madr) :
    rest L (tileRead s home) = rest L s := by
  unfold tileRead
  repeat' (first | with_reducible rfl | (with_reducible refine (rest_foldl _ (fun t x => ?_) _ _).trans ?_) | simp (disch := (first | exact sub_trans (by decide) hL | exact Or.inl (has_of_sub hL (by decide)) | exact Or.inr rfl | exact Or.inr fun _ => rfl | (refine Or.inr ?_; intros; repeat' (first | rfl | split)))) only [↓rest_unpinBlock, ↓rest_updEng, ↓rest_mk, ↓rest_ite, ite_self] | (with_reducible refine (rest_foldl1 _ (fun t x => ?_) _ _).trans ?_) | (intro; rfl) | split | (intro; split) | rfl)

theorem rest_lookupPath {L : List Part} (hL : sub [.out, .health, .eng, .media, .ctr] L = true) (s : State) (ns seg u : Nat) (image : List Byte) :
    rest L (lookupPath s ns seg u image).1 = rest L s := by
  unfold lookupPath
  repeat' (first | with_reducible exact none_imp | (with_reducible refine rest_or _ _ ?_ ?_) | (with_reducible refine rest_some ?_) | (with_reducible refine rest_some1 ?_) | (with_reducible refine rest_map _ _ (fun x hx => ?_)) | (with_reducible refine rest_map1 _ _ (fun x hx => ?_)) | (with_reducible refine bind_imp _ _ (fun x hx => ?_)) | (with_reducible refine findSome_imp _ _ (fun x => ?_)) | with_reducible rfl | simp (disch := (first | exact sub_trans (by decide) hL | exact Or.inl (has_of_sub hL (by decide)) | exact Or.inr rfl | exact Or.inr fun _ => rfl | (refine Or.inr ?_; intros; repeat' (first | rfl | split)))) only [↓rest_countEvent, ↓rest_discardTile, ↓rest_fillFrame, ↓rest_makeWay, ↓rest_wantTile, ↓rest_updEng, ↓rest_mk, ↓rest_ite, ite_self] | (with_reducible refine (rest_getD _ _ (fun u => ?_)).trans ?_) | (intro; rfl) | split | (intro; split) | rfl)
theorem rest_lookupPath_eq {L : List Part} (hL : sub [.out, .health, .eng, .media, .ctr] L = true) (s : State) (ns seg u : Nat) (image : List Byte) {uu aa} (hq : lookupPath s ns seg u image = (uu, aa)) : rest L uu = rest L s := by
  have k := rest_lookupPath hL s ns seg u image
  rw [hq] at k
  exact k

theorem rest_setUnitSt {L : List Part} (hL : sub [.ctxs] L = true) (s : State) (cid ns lba : Nat) (st : UnitSt) :
    rest L (setUnitSt s cid ns lba st) = rest L s := by
  unfold setUnitSt
  repeat' (first | with_reducible rfl | simp (disch := (first | exact sub_trans (by decide) hL | exact Or.inl (has_of_sub hL (by decide)) | exact Or.inr rfl | exact Or.inr fun _ => rfl | (refine Or.inr ?_; intros; repeat' (first | rfl | split)))) only [↓rest_updCtx, ↓rest_mk, ↓rest_ite, ite_self] | (intro; rfl) | split | (intro; split) | rfl)

theorem rest_noteSource {L : List Part} (hL : sub [.ctxs] L = true) (s : State) (cid lba src : Nat) :
    rest L (noteSource s cid lba src) = rest L s := by
  unfold noteSource
  repeat' (first | with_reducible rfl | simp (disch := (first | exact sub_trans (by decide) hL | exact Or.inl (has_of_sub hL (by decide)) | exact Or.inr rfl | exact Or.inr fun _ => rfl | (refine Or.inr ?_; intros; repeat' (first | rfl | split)))) only [↓rest_updCtx, ↓rest_mk, ↓rest_ite, ite_self] | (intro; rfl) | split | (intro; split) | rfl)

theorem rest_lookupUnit {L : List Part} (hL : sub [.out, .ctxs, .health, .eng, .media, .ctr] L = true) (s : State) (c : Ctx) (ns lba : Nat) (image : List Byte) :
    rest L (lookupUnit s c ns lba image) = rest L s := by
  unfold lookupUnit
  repeat' (first | with_reducible exact none_imp | (with_reducible refine rest_or _ _ ?_ ?_) | (with_reducible refine rest_some ?_) | (with_reducible refine rest_some1 ?_) | (with_reducible refine rest_map _ _ (fun x hx => ?_)) | (with_reducible refine rest_map1 _ _ (fun x hx => ?_)) | (with_reducible refine bind_imp _ _ (fun x hx => ?_)) | (with_reducible refine findSome_imp _ _ (fun x => ?_)) | with_reducible rfl | simp (disch := (first | exact sub_trans (by decide) hL | exact Or.inl (has_of_sub hL (by decide)) | exact Or.inr rfl | exact Or.inr fun _ => rfl | (refine Or.inr ?_; intros; repeat' (first | rfl | split)))) only [↓rest_lookupPath, ↓rest_noteSource, ↓rest_pinBlock, ↓rest_setUnitSt, ↓rest_updCtx, ↓rest_mk, ↓rest_ite, ite_self] | (with_reducible refine (rest_lookupPath_eq (sub_trans (by decide) hL) _ _ _ _ _ (by assumption)).trans ?_) | (with_reducible refine (rest_getD _ _ (fun u => ?_)).trans ?_) | (intro; rfl) | split | (intro; split) | rfl)

theorem rest_execMapLookup {L : List Part} (hL : sub [.out, .ctxs, .health, .eng, .media, .ctr] L = true) (reader : Reader) (image : List Byte) (s : State) :
    ∃ tv, execMapLookup reader image s = .next tv ∧ rest L tv = rest L s := by
  unfold execMapLookup
  repeat' (first | (refine ⟨_, rfl, ?_⟩) | with_reducible rfl | simp (disch := (first | exact sub_trans (by decide) hL | exact Or.inl (has_of_sub hL (by decide)) | exact Or.inr rfl | exact Or.inr fun _ => rfl | (refine Or.inr ?_; intros; repeat' (first | rfl | split)))) only [↓rest_lookupPath, ↓rest_lookupUnit, ↓rest_noteSource, ↓rest_setUnitSt, ↓rest_mk, ↓rest_ite, ite_self] | (with_reducible refine (rest_lookupPath_eq (sub_trans (by decide) hL) _ _ _ _ _ (by assumption)).trans ?_) | (intro; rfl) | split | (intro; split) | rfl)

theorem rest_syncSegs {L : List Part} (hL : sub [.out, .eng] L = true) (s : State) (ns : Nat) (segs : List Nat) :
    rest L (syncSegs s ns segs) = rest L s := by
  unfold syncSegs
  repeat' (first | with_reducible rfl | (with_reducible refine (rest_foldl _ (fun t x => ?_) _ _).trans ?_) | simp (disch := (first | exact sub_trans (by decide) hL | exact Or.inl (has_of_sub hL (by decide)) | exact Or.inr rfl | exact Or.inr fun _ => rfl | (refine Or.inr ?_; intros; repeat' (first | rfl | split)))) only [↓rest_syncSeg, ↓rest_mk, ↓rest_ite, ite_self] | (with_reducible refine (rest_foldl1 _ (fun t x => ?_) _ _).trans ?_) | (intro; rfl) | split | (intro; split) | rfl)

theorem rest_commitMove {L : List Part} (hL : sub [.out, .map, .eng, .jrnl, .twin] L = true) (s : State) (r : MapReq) (runs : List Run) :
    rest L (commitMove s r runs) = rest L s := by
  unfold commitMove
  repeat' (first | with_reducible rfl | simp (disch := (first | exact sub_trans (by decide) hL | exact Or.inl (has_of_sub hL (by decide)) | exact Or.inr rfl | exact Or.inr fun _ => rfl | (refine Or.inr ?_; intros; repeat' (first | rfl | split)))) only [↓rest_commitRec, ↓rest_syncSegs, ↓rest_mk, ↓rest_ite, ite_self] | (intro; rfl) | split | (intro; split) | rfl)

theorem rest_grantHost {L : List Part} (hL : sub [.out, .ctxs, .map, .eng, .jrnl, .twin, .ctr] L = true) (s : State) (r : MapReq) (c : Ctx) :
    rest L (grantHost s r c) = rest L s := by
  unfold grantHost
  repeat' (first | with_reducible rfl | simp (disch := (first | exact sub_trans (by decide) hL | exact Or.inl (has_of_sub hL (by decide)) | exact Or.inr rfl | exact Or.inr fun _ => rfl | (refine Or.inr ?_; intros; repeat' (first | rfl | split)))) only [↓rest_commitRec, ↓rest_countEvent, ↓rest_perform, ↓rest_syncSegs, ↓rest_updCtx, ↓rest_mk, ↓rest_ite, ite_self] | (intro; rfl) | split | (intro; split) | rfl)

theorem rest_grantLost {L : List Part} (hL : sub [.out, .raised, .map, .eng, .jrnl, .twin] L = true) (s : State) (r : MapReq) :
    rest L (grantLost s r) = rest L s := by
  unfold grantLost
  repeat' (first | with_reducible rfl | (with_reducible refine (rest_foldl _ (fun t x => ?_) _ _).trans ?_) | simp (disch := (first | exact sub_trans (by decide) hL | exact Or.inl (has_of_sub hL (by decide)) | exact Or.inr rfl | exact Or.inr fun _ => rfl | (refine Or.inr ?_; intros; repeat' (first | rfl | split)))) only [↓rest_commitRec, ↓rest_raiseEvent, ↓rest_syncSegs, ↓rest_mk, ↓rest_ite, ite_self] | (with_reducible refine (rest_foldl1 _ (fun t x => ?_) _ _).trans ?_) | (intro; rfl) | split | (intro; split) | rfl)

theorem rest_compareFailed {L : List Part} (hL : sub [.ctr] L = true) (s : State) (r : MapReq) :
    rest L (compareFailed s r) = rest L s := by
  unfold compareFailed
  repeat' (first | with_reducible rfl | simp (disch := (first | exact sub_trans (by decide) hL | exact Or.inl (has_of_sub hL (by decide)) | exact Or.inr rfl | exact Or.inr fun _ => rfl | (refine Or.inr ?_; intros; repeat' (first | rfl | split)))) only [↓rest_countEvent, ↓rest_mk, ↓rest_ite, ite_self] | (intro; rfl) | split | (intro; split) | rfl)

theorem rest_grantReq {L : List Part} (hL : sub [.out, .ctxs, .raised, .map, .eng, .jrnl, .twin, .ctr] L = true) (s : State) (r : MapReq) :
    rest L (grantReq s r) = rest L s := by
  unfold grantReq
  repeat' (first | with_reducible exact none_imp | (with_reducible refine rest_or _ _ ?_ ?_) | (with_reducible refine rest_some ?_) | (with_reducible refine rest_some1 ?_) | (with_reducible refine rest_map _ _ (fun x hx => ?_)) | (with_reducible refine rest_map1 _ _ (fun x hx => ?_)) | (with_reducible refine bind_imp _ _ (fun x hx => ?_)) | (with_reducible refine findSome_imp _ _ (fun x => ?_)) | with_reducible rfl | simp (disch := (first | exact sub_trans (by decide) hL | exact Or.inl (has_of_sub hL (by decide)) | exact Or.inr rfl | exact Or.inr fun _ => rfl | (refine Or.inr ?_; intros; repeat' (first | rfl | split)))) only [↓rest_commitMove, ↓rest_commitRec, ↓rest_compareFailed, ↓rest_grantHost, ↓rest_grantLost, ↓rest_syncSegs, ↓rest_mk, ↓rest_ite, ite_self] | (with_reducible refine (rest_getD _ _ (fun u => ?_)).trans ?_) | (intro; rfl) | split | (intro; split) | rfl)

theorem rest_fetchTiles {L : List Part} (hL : sub [.health, .eng, .media, .ctr] L = true) (s : State) (r : MapReq) :
    rest L (fetchTiles s r) = rest L s := by
  unfold fetchTiles
  repeat' (first | with_reducible rfl | (with_reducible refine (rest_foldl _ (fun t x => ?_) _ _).trans ?_) | simp (disch := (first | exact sub_trans (by decide) hL | exact Or.inl (has_of_sub hL (by decide)) | exact Or.inr rfl | exact Or.inr fun _ => rfl | (refine Or.inr ?_; intros; repeat' (first | rfl | split)))) only [↓rest_makeWay, ↓rest_wantTile, ↓rest_mk, ↓rest_ite, ite_self] | (with_reducible refine (rest_foldl1 _ (fun t x => ?_) _ _).trans ?_) | (intro; rfl) | split | (intro; split) | rfl)

theorem rest_mapTurn {L : List Part} (hL : sub [.out, .ctxs, .raised, .health, .map, .eng, .media, .jrnl, .twin, .ctr] L = true) (s : State) :
    rest L (mapTurn s) = rest L s := by
  unfold mapTurn
  repeat' (first | with_reducible rfl | (with_reducible refine (rest_foldl _ (fun t x => ?_) _ _).trans ?_) | simp (disch := (first | exact sub_trans (by decide) hL | exact Or.inl (has_of_sub hL (by decide)) | exact Or.inr rfl | exact Or.inr fun _ => rfl | (refine Or.inr ?_; intros; repeat' (first | rfl | split)))) only [↓rest_fetchTiles, ↓rest_grantReq, ↓rest_settleFull, ↓rest_updEng, ↓rest_mk, ↓rest_ite, ite_self] | (with_reducible refine (rest_foldl1 _ (fun t x => ?_) _ _).trans ?_) | (intro; rfl) | split | (intro; split) | rfl)

theorem rest_execMapUpdate {L : List Part} (hL : sub [.out, .ctxs, .evSeq, .evHist, .raised, .condFrom, .ports, .health, .map, .eng, .media, .jrnl, .twin, .ctr] L = true) (s : State) :
    ∃ tv, execMapUpdate s = .next tv ∧ rest L tv = rest L s := by
  unfold execMapUpdate
  repeat' (first | (refine ⟨_, rfl, ?_⟩) | with_reducible rfl | simp (disch := (first | exact sub_trans (by decide) hL | exact Or.inl (has_of_sub hL (by decide)) | exact Or.inr rfl | exact Or.inr fun _ => rfl | (refine Or.inr ?_; intros; repeat' (first | rfl | split)))) only [↓rest_endCycle, ↓rest_mapTurn, ↓rest_mk, ↓rest_ite, ite_self] | (intro; rfl) | split | (intro; split) | rfl)

theorem rest_execTileWriteback {L : List Part} (hL : sub [.health, .eng, .media, .ctr] L = true) (ns seg : Nat) (s : State) :
    ∃ tv, execTileWriteback ns seg s = .next tv ∧ rest L tv = rest L s := by
  unfold execTileWriteback
  repeat' (first | (refine ⟨_, rfl, ?_⟩) | with_reducible rfl | simp (disch := (first | exact sub_trans (by decide) hL | exact Or.inl (has_of_sub hL (by decide)) | exact Or.inr rfl | exact Or.inr fun _ => rfl | (refine Or.inr ?_; intros; repeat' (first | rfl | split)))) only [↓rest_writeTile, ↓rest_mk, ↓rest_ite, ite_self] | (intro; rfl) | split | (intro; split) | rfl)

end Sys2Proof.Laws
end

