-- ==== Sys2Proof/Laws/FramesReadPath.lean ====
section
/-! SUPPORT. Which parts of the state the operations of Machine/ReadPath.lean may change. -/
namespace Sys2Proof.Laws
open Sys2Proof Sys2Proof.Machine

set_option linter.unreachableTactic false
set_option linter.unusedTactic false

set_option linter.unusedSimpArgs false

theorem rest_sampleDie {L : List Part} (hL : sub [.media] L = true) (s : State) (id : DieId) (raw : Nat) :
    rest L (sampleDie s id raw) = rest L s := by
  unfold sampleDie
  repeat' (first | with_reducible rfl | simp (disch := (first | exact sub_trans (by decide) hL | exact Or.inl (has_of_sub hL (by decide)) | exact Or.inr rfl | exact Or.inr fun _ => rfl | (refine Or.inr ?_; intros; repeat' (first | rfl | split)))) only [↓rest_updBay, ↓rest_updDie, ↓rest_mk, ↓rest_ite, ite_self] | (intro; rfl) | split | (intro; split) | rfl)

theorem rest_putLadder {L : List Part} (hL : sub [.media] L = true) (s : State) (l : Ladder) :
    rest L (putLadder s l) = rest L s := by
  unfold putLadder
  repeat' (first | with_reducible rfl | simp (disch := (first | exact sub_trans (by decide) hL | exact Or.inl (has_of_sub hL (by decide)) | exact Or.inr rfl | exact Or.inr fun _ => rfl | (refine Or.inr ?_; intros; repeat' (first | rfl | split)))) only [↓rest_updMedia, ↓rest_mk, ↓rest_ite, ite_self] | (intro; rfl) | split | (intro; split) | rfl)

theorem rest_dropLadder {L : List Part} (hL : sub [.media] L = true) (s : State) (page : Madr) :
    rest L (dropLadder s page) = rest L s := by
  unfold dropLadder
  repeat' (first | with_reducible rfl | simp (disch := (first | exact sub_trans (by decide) hL | exact Or.inl (has_of_sub hL (by decide)) | exact Or.inr rfl | exact Or.inr fun _ => rfl | (refine Or.inr ?_; intros; repeat' (first | rfl | split)))) only [↓rest_updMedia, ↓rest_mk, ↓rest_ite, ite_self] | (intro; rfl) | split | (intro; split) | rfl)

theorem rest_startLadder {L : List Part} (hL : sub [.eng, .media, .ctr] L = true) (s : State) (page : Madr) (who : Nat) (readers : List (Reader × Nat)) (slots : List Nat) (second : Bool) :
    rest L (startLadder s page who readers slots second) = rest L s := by
  unfold startLadder
  repeat' (first | with_reducible exact none_imp | (with_reducible refine rest_or _ _ ?_ ?_) | (with_reducible refine rest_some ?_) | (with_reducible refine rest_some1 ?_) | (with_reducible refine rest_map _ _ (fun x hx => ?_)) | (with_reducible refine rest_map1 _ _ (fun x hx => ?_)) | (with_reducible refine bind_imp _ _ (fun x hx => ?_)) | (with_reducible refine findSome_imp _ _ (fun x => ?_)) | with_reducible rfl | simp (disch := (first | exact sub_trans (by decide) hL | exact Or.inl (has_of_sub hL (by decide)) | exact Or.inr rfl | exact Or.inr fun _ => rfl | (refine Or.inr ?_; intros; repeat' (first | rfl | split)))) only [↓rest_issueOp, ↓rest_pinBlock, ↓rest_updMedia, ↓rest_mk, ↓rest_ite, ite_self] | (with_reducible refine (rest_getD _ _ (fun u => ?_)).trans ?_) | (intro; rfl) | split | (intro; split) | rfl)

theorem rest_execMediumReadIssue {L : List Part} (hL : sub [.now, .eng, .media, .power, .ctr] L = true) (page : Madr) (cyc : Nat) (s : State) :
    ∃ tv, execMediumReadIssue page cyc s = .next tv ∧ rest L tv = rest L s := by
  unfold execMediumReadIssue
  repeat' (first | (refine ⟨_, rfl, ?_⟩) | with_reducible rfl | simp (disch := (first | exact sub_trans (by decide) hL | exact Or.inl (has_of_sub hL (by decide)) | exact Or.inr rfl | exact Or.inr fun _ => rfl | (refine Or.inr ?_; intros; repeat' (first | rfl | split)))) only [↓rest_advanceTo, ↓rest_issueOp, ↓rest_startLadder, ↓rest_mk, ↓rest_ite, ite_self] | (intro; rfl) | split | (intro; split) | rfl)

theorem rest_resolveSlot {L : List Part} (hL : sub [.ctxs, .eng] L = true) (s : State) (m : Madr) (rung : Nat) (st : UnitSt) :
    rest L (resolveSlot s m rung st) = rest L s := by
  unfold resolveSlot
  repeat' (first | with_reducible rfl | (with_reducible refine (rest_foldl _ (fun t x => ?_) _ _).trans ?_) | simp (disch := (first | exact sub_trans (by decide) hL | exact Or.inl (has_of_sub hL (by decide)) | exact Or.inr rfl | exact Or.inr fun _ => rfl | (refine Or.inr ?_; intros; repeat' (first | rfl | split)))) only [↓rest_unpinBlock, ↓rest_mk, ↓rest_ite, ite_self] | (with_reducible refine (rest_foldl1 _ (fun t x => ?_) _ _).trans ?_) | (intro; rfl) | split | (intro; split) | rfl)

theorem rest_noteMeasure {L : List Part} (hL : sub [.media] L = true) (s : State) (seq v : Nat) :
    rest L (noteMeasure s seq v) = rest L s := by
  unfold noteMeasure
  repeat' (first | with_reducible rfl | simp (disch := (first | exact sub_trans (by decide) hL | exact Or.inl (has_of_sub hL (by decide)) | exact Or.inr rfl | exact Or.inr fun _ => rfl | (refine Or.inr ?_; intros; repeat' (first | rfl | split)))) only [↓rest_updMedia, ↓rest_mk, ↓rest_ite, ite_self] | (intro; rfl) | split | (intro; split) | rfl)

theorem rest_triggerAt {L : List Part} (hL : sub [.media] L = true) (s : State) (page : Madr) (severity : Nat) :
    rest L (triggerAt s page severity) = rest L s := by
  unfold triggerAt
  repeat' (first | with_reducible rfl | simp (disch := (first | exact sub_trans (by decide) hL | exact Or.inl (has_of_sub hL (by decide)) | exact Or.inr rfl | exact Or.inr fun _ => rfl | (refine Or.inr ?_; intros; repeat' (first | rfl | split)))) only [↓rest_raiseTrigger, ↓rest_mk, ↓rest_ite, ite_self] | (intro; rfl) | split | (intro; split) | rfl)

theorem rest_noteOffset {L : List Part} (hL : sub [.media] L = true) (s : State) (p : PageRec) (l : Ladder) :
    rest L (noteOffset s p l) = rest L s := by
  unfold noteOffset
  repeat' (first | with_reducible rfl | simp (disch := (first | exact sub_trans (by decide) hL | exact Or.inl (has_of_sub hL (by decide)) | exact Or.inr rfl | exact Or.inr fun _ => rfl | (refine Or.inr ?_; intros; repeat' (first | rfl | split)))) only [↓rest_updMedia, ↓rest_mk, ↓rest_ite, ite_self] | (intro; rfl) | split | (intro; split) | rfl)

theorem rest_acceptSlot {L : List Part} (hL : sub [.out, .ctxs, .health, .eng, .media, .ctr] L = true) (s : State) (l : Ladder) (p : PageRec) (n corrected : Nat) (content : Option Block) :
    rest L (acceptSlot s l p n corrected content) = rest L s := by
  unfold acceptSlot
  repeat' (first | with_reducible rfl | simp (disch := (first | exact sub_trans (by decide) hL | exact Or.inl (has_of_sub hL (by decide)) | exact Or.inr rfl | exact Or.inr fun _ => rfl | (refine Or.inr ?_; intros; repeat' (first | rfl | split)))) only [↓rest_countEvent, ↓rest_fillFrame, ↓rest_noteMeasure, ↓rest_noteOffset, ↓rest_resolveSlot, ↓rest_tileRead, ↓rest_triggerAt, ↓rest_updHealth, ↓rest_mk, ↓rest_ite, ite_self] | (intro; rfl) | split | (intro; split) | rfl)

theorem rest_tileLost {L : List Part} (hL : sub [.out, .raised, .map, .eng, .jrnl, .twin] L = true) (s : State) (ns seg : Nat) :
    rest L (tileLost s ns seg) = rest L s := by
  unfold tileLost
  repeat' (first | with_reducible rfl | simp (disch := (first | exact sub_trans (by decide) hL | exact Or.inl (has_of_sub hL (by decide)) | exact Or.inr rfl | exact Or.inr fun _ => rfl | (refine Or.inr ?_; intros; repeat' (first | rfl | split)))) only [↓rest_commitRec, ↓rest_raiseEvent, ↓rest_syncSeg, ↓rest_mk, ↓rest_ite, ite_self] | (intro; rfl) | split | (intro; split) | rfl)

theorem rest_loseSlot {L : List Part} (hL : sub [.out, .ctxs, .raised, .health, .map, .eng, .media, .jrnl, .twin] L = true) (s : State) (l : Ladder) (p : PageRec) (n : Nat) :
    rest L (loseSlot s l p n) = rest L s := by
  unfold loseSlot
  repeat' (first | with_reducible exact none_imp | (with_reducible refine rest_or _ _ ?_ ?_) | (with_reducible refine rest_some ?_) | (with_reducible refine rest_some1 ?_) | (with_reducible refine rest_map _ _ (fun x hx => ?_)) | (with_reducible refine rest_map1 _ _ (fun x hx => ?_)) | (with_reducible refine bind_imp _ _ (fun x hx => ?_)) | (with_reducible refine findSome_imp _ _ (fun x => ?_)) | with_reducible rfl | simp (disch := (first | exact sub_trans (by decide) hL | exact Or.inl (has_of_sub hL (by decide)) | exact Or.inr rfl | exact Or.inr fun _ => rfl | (refine Or.inr ?_; intros; repeat' (first | rfl | split)))) only [↓rest_noteMeasure, ↓rest_resolveSlot, ↓rest_tileLost, ↓rest_tileRead, ↓rest_triggerAt, ↓rest_updHealth, ↓rest_updMedia, ↓rest_mk, ↓rest_ite, ite_self] | (with_reducible refine (rest_getD _ _ (fun u => ?_)).trans ?_) | (intro; rfl) | split | (intro; split) | rfl)

theorem rest_patrolPageDone {L : List Part} (hL : sub [.media] L = true) (s : State) (page : Madr) :
    rest L (patrolPageDone s page) = rest L s := by
  unfold patrolPageDone
  repeat' (first | with_reducible rfl | simp (disch := (first | exact sub_trans (by decide) hL | exact Or.inl (has_of_sub hL (by decide)) | exact Or.inr rfl | exact Or.inr fun _ => rfl | (refine Or.inr ?_; intros; repeat' (first | rfl | split)))) only [↓rest_dropClaim, ↓rest_updMedia, ↓rest_mk, ↓rest_ite, ite_self] | (intro; rfl) | split | (intro; split) | rfl)

theorem rest_settleSweep {L : List Part} (hL : sub [.cond, .condFrom, .media] L = true) (s : State) :
    rest L (settleSweep s) = rest L s := by
  unfold settleSweep
  repeat' (first | with_reducible rfl | simp (disch := (first | exact sub_trans (by decide) hL | exact Or.inl (has_of_sub hL (by decide)) | exact Or.inr rfl | exact Or.inr fun _ => rfl | (refine Or.inr ?_; intros; repeat' (first | rfl | split)))) only [↓rest_setFlags, ↓rest_updMedia, ↓rest_mk, ↓rest_ite, ite_self] | (intro; rfl) | split | (intro; split) | rfl)

theorem rest_endLadder {L : List Part} (hL : sub [.cond, .condFrom, .health, .eng, .media, .ctr] L = true) (s : State) (l : Ladder) (p : PageRec) (failed erased : List Nat) :
    rest L (endLadder s l p failed erased) = rest L s := by
  unfold endLadder
  repeat' (first | with_reducible rfl | simp (disch := (first | exact sub_trans (by decide) hL | exact Or.inl (has_of_sub hL (by decide)) | exact Or.inr rfl | exact Or.inr fun _ => rfl | (refine Or.inr ?_; intros; repeat' (first | rfl | split)))) only [↓rest_declareLost, ↓rest_dropLadder, ↓rest_patrolPageDone, ↓rest_settleSweep, ↓rest_startLadder, ↓rest_unpinBlock, ↓rest_mk, ↓rest_ite, ite_self] | (intro; rfl) | split | (intro; split) | rfl)

theorem rest_takeResults {L : List Part} (hL : sub [.out, .ctxs, .health, .eng, .media, .ctr] L = true) (s : State) (l : Ladder) (p : PageRec) :
    ∀ xv, rest L (takeResults s l p xv).1 = rest L s := by
  intro xv
  fun_induction takeResults s l p xv
  all_goals repeat' (first | with_reducible rfl | (with_reducible refine Eq.trans (by assumption) ?_) | simp +zetaDelta (disch := (first | exact sub_trans (by decide) hL | exact Or.inl (has_of_sub hL (by decide)) | exact Or.inr rfl | exact Or.inr fun _ => rfl | (refine Or.inr ?_; intros; repeat' (first | rfl | split)))) only [↓rest_acceptSlot, ↓rest_mk, ↓rest_ite, ite_self] | (intro; rfl) | split | (intro; split) | rfl)
theorem rest_takeResults_eq {L : List Part} (hL : sub [.out, .ctxs, .health, .eng, .media, .ctr] L = true) (s : State) (l : Ladder) (p : PageRec) (xv : List (Nat × Option (Option Block × Bool × Nat))) {uu aa} (hq : takeResults s l p xv = (uu, aa)) : rest L uu = rest L s := by
  have k := rest_takeResults hL s l p xv
  rw [hq] at k
  exact k

theorem rest_advanceLadder {L : List Part} (hL : sub [.cond, .out, .ctxs, .raised, .condFrom, .health, .map, .eng, .media, .jrnl, .twin, .ctr] L = true) (s : State) (l : Ladder) (p : PageRec) (erased : List Nat) :
    rest L (advanceLadder s l p erased) = rest L s := by
  unfold advanceLadder
  repeat' (first | with_reducible rfl | (with_reducible refine (rest_foldl _ (fun t x => ?_) _ _).trans ?_) | simp (disch := (first | exact sub_trans (by decide) hL | exact Or.inl (has_of_sub hL (by decide)) | exact Or.inr rfl | exact Or.inr fun _ => rfl | (refine Or.inr ?_; intros; repeat' (first | rfl | split)))) only [↓rest_countEvent, ↓rest_endLadder, ↓rest_loseSlot, ↓rest_putLadder, ↓rest_mk, ↓rest_ite, ite_self] | (with_reducible refine (rest_foldl1 _ (fun t x => ?_) _ _).trans ?_) | (intro; rfl) | split | (intro; split) | rfl)

theorem rest_countDecodes {L : List Part} (hL : sub [.ctr] L = true) (s : State) (rung n : Nat) :
    rest L (countDecodes s rung n) = rest L s := by
  unfold countDecodes
  repeat' (first | with_reducible rfl | simp (disch := (first | exact sub_trans (by decide) hL | exact Or.inl (has_of_sub hL (by decide)) | exact Or.inr rfl | exact Or.inr fun _ => rfl | (refine Or.inr ?_; intros; repeat' (first | rfl | split)))) only [↓rest_countEvent, ↓rest_mk, ↓rest_ite, ite_self] | (intro; rfl) | split | (intro; split) | rfl)

theorem rest_rungFive {L : List Part} (hL : sub [.cond, .out, .ctxs, .raised, .condFrom, .health, .map, .eng, .media, .jrnl, .twin, .ctr] L = true) (s : State) (l : Ladder) (p : PageRec) (erased : List Nat) :
    rest L (rungFive s l p erased) = rest L s := by
  unfold rungFive
  repeat' (first | with_reducible exact none_imp | (with_reducible refine rest_or _ _ ?_ ?_) | (with_reducible refine rest_some ?_) | (with_reducible refine rest_some1 ?_) | (with_reducible refine rest_map _ _ (fun x hx => ?_)) | (with_reducible refine rest_map1 _ _ (fun x hx => ?_)) | (with_reducible refine bind_imp _ _ (fun x hx => ?_)) | (with_reducible refine findSome_imp _ _ (fun x => ?_)) | with_reducible rfl | simp (disch := (first | exact sub_trans (by decide) hL | exact Or.inl (has_of_sub hL (by decide)) | exact Or.inr rfl | exact Or.inr fun _ => rfl | (refine Or.inr ?_; intros; repeat' (first | rfl | split)))) only [↓rest_advanceLadder, ↓rest_countEvent, ↓rest_takeResults, ↓rest_mk, ↓rest_ite, ite_self] | (with_reducible refine (rest_takeResults_eq (sub_trans (by decide) hL) _ _ _ _ (by assumption)).trans ?_) | (with_reducible refine (rest_getD _ _ (fun u => ?_)).trans ?_) | (intro; rfl) | split | (intro; split) | rfl)

theorem rest_execDecodeDone {L : List Part} (hL : sub [.cond, .out, .ctxs, .evSeq, .evHist, .raised, .condFrom, .ports, .health, .map, .eng, .media, .jrnl, .twin, .ctr] L = true) (page : Madr) (slots : List (Nat × DecodeResult)) (erasures : List Nat) (s : State) :
    ∃ tv, execDecodeDone page slots erasures s = .next tv ∧ rest L tv = rest L s := by
  unfold execDecodeDone
  repeat' (first | (refine ⟨_, rfl, ?_⟩) | with_reducible rfl | simp (disch := (first | exact sub_trans (by decide) hL | exact Or.inl (has_of_sub hL (by decide)) | exact Or.inr rfl | exact Or.inr fun _ => rfl | (refine Or.inr ?_; intros; repeat' (first | rfl | split)))) only [↓rest_advanceLadder, ↓rest_countDecodes, ↓rest_endCycle, ↓rest_rungFive, ↓rest_settleFull, ↓rest_takeResults, ↓rest_mk, ↓rest_ite, ite_self] | (with_reducible refine (rest_takeResults_eq (sub_trans (by decide) hL) _ _ _ _ (by assumption)).trans ?_) | (intro; rfl) | split | (intro; split) | rfl)

theorem rest_readFailed {L : List Part} (hL : sub [.cond, .out, .ctxs, .raised, .condFrom, .health, .map, .eng, .media, .jrnl, .twin, .ctr] L = true) (s : State) (page : Madr) :
    rest L (readFailed s page) = rest L s := by
  unfold readFailed
  repeat' (first | with_reducible rfl | simp (disch := (first | exact sub_trans (by decide) hL | exact Or.inl (has_of_sub hL (by decide)) | exact Or.inr rfl | exact Or.inr fun _ => rfl | (refine Or.inr ?_; intros; repeat' (first | rfl | split)))) only [↓rest_advanceLadder, ↓rest_mk, ↓rest_ite, ite_self] | (intro; rfl) | split | (intro; split) | rfl)

theorem rest_toRungFive {L : List Part} (hL : sub [.media] L = true) (s : State) (d : DieId) :
    rest L (toRungFive s d) = rest L s := by
  unfold toRungFive
  repeat' (first | with_reducible rfl | simp (disch := (first | exact sub_trans (by decide) hL | exact Or.inl (has_of_sub hL (by decide)) | exact Or.inr rfl | exact Or.inr fun _ => rfl | (refine Or.inr ?_; intros; repeat' (first | rfl | split)))) only [↓rest_updMedia, ↓rest_mk, ↓rest_ite, ite_self] | (intro; rfl) | split | (intro; split) | rfl)

theorem rest_eraseDone {L : List Part} (hL : sub [.map, .media, .jrnl, .twin] L = true) (s : State) (b : Madr) :
    rest L (eraseDone s b) = rest L s := by
  unfold eraseDone
  repeat' (first | with_reducible rfl | simp (disch := (first | exact sub_trans (by decide) hL | exact Or.inl (has_of_sub hL (by decide)) | exact Or.inr rfl | exact Or.inr fun _ => rfl | (refine Or.inr ?_; intros; repeat' (first | rfl | split)))) only [↓rest_commitRec, ↓rest_settlePatrol, ↓rest_updMedia, ↓rest_mk, ↓rest_ite, ite_self] | (intro; rfl) | split | (intro; split) | rfl)

theorem rest_eraseFailed {L : List Part} (hL : sub [.cond, .condFrom, .health, .map, .media, .jrnl, .twin] L = true) (s : State) (b : Madr) :
    rest L (eraseFailed s b) = rest L s := by
  unfold eraseFailed
  repeat' (first | with_reducible rfl | simp (disch := (first | exact sub_trans (by decide) hL | exact Or.inl (has_of_sub hL (by decide)) | exact Or.inr rfl | exact Or.inr fun _ => rfl | (refine Or.inr ?_; intros; repeat' (first | rfl | split)))) only [↓rest_retireBlock, ↓rest_updHealth, ↓rest_updMedia, ↓rest_mk, ↓rest_ite, ite_self] | (intro; rfl) | split | (intro; split) | rfl)

theorem rest_actOn {L : List Part} (hL : sub [.cond, .out, .ctxs, .raised, .condFrom, .health, .map, .eng, .media, .jrnl, .twin, .kf, .kfMem, .ctr] L = true) (s : State) (die : DieId) (op : DieOp) (outcome : SeqOutcome) (raw : Nat) :
    rest L (actOn s die op outcome raw) = rest L s := by
  unfold actOn
  repeat' (first | with_reducible exact none_imp | (with_reducible refine rest_or _ _ ?_ ?_) | (with_reducible refine rest_some ?_) | (with_reducible refine rest_some1 ?_) | (with_reducible refine rest_map _ _ (fun x hx => ?_)) | (with_reducible refine rest_map1 _ _ (fun x hx => ?_)) | (with_reducible refine bind_imp _ _ (fun x hx => ?_)) | (with_reducible refine findSome_imp _ _ (fun x => ?_)) | with_reducible rfl | simp (disch := (first | exact sub_trans (by decide) hL | exact Or.inl (has_of_sub hL (by decide)) | exact Or.inr rfl | exact Or.inr fun _ => rfl | (refine Or.inr ?_; intros; repeat' (first | rfl | split)))) only [↓rest_advanceRewrite, ↓rest_dieFail, ↓rest_eraseDone, ↓rest_eraseFailed, ↓rest_programDone, ↓rest_programFailed, ↓rest_readFailed, ↓rest_readWhole, ↓rest_sampleDie, ↓rest_toRungFive, ↓rest_updDie, ↓rest_verifyFailed, ↓rest_mk, ↓rest_ite, ite_self] | (with_reducible refine (rest_getD _ _ (fun u => ?_)).trans ?_) | (intro; rfl) | split | (intro; split) | rfl)

theorem rest_chargeEnd {L : List Part} (hL : sub [.cad] L = true) (s : State) (op : DieOp) (busy : Nat) :
    rest L (chargeEnd s op busy) = rest L s := by
  unfold chargeEnd
  repeat' (first | with_reducible rfl | simp (disch := (first | exact sub_trans (by decide) hL | exact Or.inl (has_of_sub hL (by decide)) | exact Or.inr rfl | exact Or.inr fun _ => rfl | (refine Or.inr ?_; intros; repeat' (first | rfl | split)))) only [↓rest_updCad, ↓rest_mk, ↓rest_ite, ite_self] | (with_reducible refine (rest_updCad (sub_trans (by decide) hL) _ _ (.inr ?_)).trans ?_) | (intro; rfl) | split | (intro; split) | rfl)

theorem rest_failSuspended {L : List Part} (hL : sub [.cond, .out, .ctxs, .raised, .condFrom, .health, .map, .eng, .media, .jrnl, .twin, .kf, .kfMem, .ctr] L = true) (s : State) (die : DieId) :
    rest L (failSuspended s die) = rest L s := by
  unfold failSuspended
  repeat' (first | with_reducible exact none_imp | (with_reducible refine rest_or _ _ ?_ ?_) | (with_reducible refine rest_some ?_) | (with_reducible refine rest_some1 ?_) | (with_reducible refine rest_map _ _ (fun x hx => ?_)) | (with_reducible refine rest_map1 _ _ (fun x hx => ?_)) | (with_reducible refine bind_imp _ _ (fun x hx => ?_)) | (with_reducible refine findSome_imp _ _ (fun x => ?_)) | with_reducible rfl | simp (disch := (first | exact sub_trans (by decide) hL | exact Or.inl (has_of_sub hL (by decide)) | exact Or.inr rfl | exact Or.inr fun _ => rfl | (refine Or.inr ?_; intros; repeat' (first | rfl | split)))) only [↓rest_actOn, ↓rest_updDie, ↓rest_mk, ↓rest_ite, ite_self] | (with_reducible refine (rest_getD _ _ (fun u => ?_)).trans ?_) | (intro; rfl) | split | (intro; split) | rfl)

theorem rest_settleSuspend {L : List Part} (hL : sub [.cond, .out, .ctxs, .raised, .condFrom, .health, .map, .eng, .media, .jrnl, .twin, .kf, .kfMem, .ctr] L = true) (s : State) (die : DieId) (op : DieOp) (outcome : SeqOutcome) :
    rest L (settleSuspend s die op outcome) = rest L s := by
  unfold settleSuspend
  repeat' (first | with_reducible rfl | simp (disch := (first | exact sub_trans (by decide) hL | exact Or.inl (has_of_sub hL (by decide)) | exact Or.inr rfl | exact Or.inr fun _ => rfl | (refine Or.inr ?_; intros; repeat' (first | rfl | split)))) only [↓rest_failSuspended, ↓rest_updDie, ↓rest_mk, ↓rest_ite, ite_self] | (intro; rfl) | split | (intro; split) | rfl)

theorem rest_askReset {L : List Part} (hL : sub [.media] L = true) (s : State) (die : DieId) (op : DieOp) :
    rest L (askReset s die op) = rest L s := by
  unfold askReset
  repeat' (first | with_reducible rfl | simp (disch := (first | exact sub_trans (by decide) hL | exact Or.inl (has_of_sub hL (by decide)) | exact Or.inr rfl | exact Or.inr fun _ => rfl | (refine Or.inr ?_; intros; repeat' (first | rfl | split)))) only [↓rest_updDie, ↓rest_mk, ↓rest_ite, ite_self] | (intro; rfl) | split | (intro; split) | rfl)

theorem rest_execSequenceEnd {L : List Part} (hL : sub [.cond, .out, .ctxs, .evSeq, .evHist, .raised, .condFrom, .ports, .cad, .health, .map, .eng, .media, .jrnl, .twin, .kf, .kfMem, .ctr] L = true) (die : DieId) (waits statuses : List Nat) (busyMicros raw : Nat) (s : State) :
    ∃ tv, execSequenceEnd die waits statuses busyMicros raw s = .next tv ∧ rest L tv = rest L s := by
  unfold execSequenceEnd
  repeat' (first | (refine ⟨_, rfl, ?_⟩) | with_reducible exact none_imp | (with_reducible refine rest_or _ _ ?_ ?_) | (with_reducible refine rest_some ?_) | (with_reducible refine rest_some1 ?_) | (with_reducible refine rest_map _ _ (fun x hx => ?_)) | (with_reducible refine rest_map1 _ _ (fun x hx => ?_)) | (with_reducible refine bind_imp _ _ (fun x hx => ?_)) | (with_reducible refine findSome_imp _ _ (fun x => ?_)) | with_reducible rfl | simp (disch := (first | exact sub_trans (by decide) hL | exact Or.inl (has_of_sub hL (by decide)) | exact Or.inr rfl | exact Or.inr fun _ => rfl | (refine Or.inr ?_; intros; repeat' (first | rfl | split)))) only [↓rest_actOn, ↓rest_askReset, ↓rest_chargeEnd, ↓rest_countEvent, ↓rest_endCycle, ↓rest_settleFull, ↓rest_settleSuspend, ↓rest_startChannel, ↓rest_updDie, ↓rest_mk, ↓rest_ite, ite_self] | (with_reducible refine (rest_getD _ _ (fun u => ?_)).trans ?_) | (intro; rfl) | split | (intro; split) | rfl)

end Sys2Proof.Laws
end

