-- ==== Sys2Proof/Laws/FramesPrism.lean ====
section
/-! SUPPORT. Which parts of the state the operations of Machine/Prism.lean may change. -/
namespace Sys2Proof.Laws
open Sys2Proof Sys2Proof.Machine

set_option linter.unreachableTactic false
set_option linter.unusedTactic false

set_option linter.unusedSimpArgs false

theorem rest_skipBay {L : List Part} (hL : sub [.health, .media, .ctr] L = true) (s : State) (seq who bay : Nat) :
    ∀ xv, rest L (skipBay s seq who bay xv) = rest L s := by
  intro xv
  fun_induction skipBay s seq who bay xv
  all_goals repeat' (first | with_reducible exact none_imp | (with_reducible refine rest_or _ _ ?_ ?_) | (with_reducible refine rest_some ?_) | (with_reducible refine rest_some1 ?_) | (with_reducible refine rest_map _ _ (fun x hx => ?_)) | (with_reducible refine rest_map1 _ _ (fun x hx => ?_)) | (with_reducible refine bind_imp _ _ (fun x hx => ?_)) | (with_reducible refine findSome_imp _ _ (fun x => ?_)) | with_reducible rfl | (with_reducible refine Eq.trans (by assumption) ?_) | simp +zetaDelta (disch := (first | exact sub_trans (by decide) hL | exact Or.inl (has_of_sub hL (by decide)) | exact Or.inr rfl | exact Or.inr fun _ => rfl | (refine Or.inr ?_; intros; repeat' (first | rfl | split)))) only [↓rest_programParity, ↓rest_updRow, ↓rest_writePage, ↓rest_mk, ↓rest_ite, ite_self] | (with_reducible refine (rest_getD _ _ (fun u => ?_)).trans ?_) | (intro; rfl) | split | (intro; split) | rfl)

theorem rest_placeMany {L : List Part} (hL : sub [.health, .media, .ctr] L = true) (s : State) (seq kind who : Nat) :
    ∀ xv, rest L (placeMany s seq kind who xv).1 = rest L s := by
  intro xv
  fun_induction placeMany s seq kind who xv
  all_goals try rfl
  · rename_i hs blk t a hp z ih
    refine ih.trans ((rest_putSlot_eq (sub_trans (by decide) hL) _ _ _ _ _ _ hp).trans ?_)
    dsimp +zetaDelta only at hs
    split at hs
    · injection hs with hs
      injection hs with hs
      rw [hs]
    · split at hs
      · injection hs with hs
        exact rest_startRow_eq (sub_trans (by decide) hL) _ _ hs
      · cases hs

theorem rest_placeRun {L : List Part} (hL : sub [.health, .media, .ctr] L = true) (s : State) (seq kind who : Nat) (l : List (Nat × List Byte)) :
    ∀ tv, placeRun s seq kind who l = some tv → rest L tv.1 = rest L s := by
  intro tv
  unfold placeRun
  repeat' (first | with_reducible exact none_imp | (with_reducible refine rest_or _ _ ?_ ?_) | (with_reducible refine rest_some ?_) | (with_reducible refine rest_some1 ?_) | (with_reducible refine rest_map _ _ (fun x hx => ?_)) | (with_reducible refine rest_map1 _ _ (fun x hx => ?_)) | (with_reducible refine bind_imp _ _ (fun x hx => ?_)) | (with_reducible refine findSome_imp _ _ (fun x => ?_)) | with_reducible rfl | simp (disch := (first | exact sub_trans (by decide) hL | exact Or.inl (has_of_sub hL (by decide)) | exact Or.inr rfl | exact Or.inr fun _ => rfl | (refine Or.inr ?_; intros; repeat' (first | rfl | split)))) only [↓rest_placeMany, ↓rest_mk, ↓rest_ite, ite_self] | (with_reducible refine (rest_placeMany_eq (sub_trans (by decide) hL) _ _ _ _ _ (by assumption)).trans ?_) | (with_reducible refine (rest_getD _ _ (fun u => ?_)).trans ?_) | (intro; rfl) | split | (intro; split) | rfl)
theorem rest_placeRun_eq {L : List Part} (hL : sub [.health, .media, .ctr] L = true) (s : State) (seq kind who : Nat) (l : List (Nat × List Byte)) {uu aa} (hq : placeRun s seq kind who l = some (uu, aa)) : rest L uu = rest L s :=
  rest_placeRun hL s seq kind who l  _ hq

theorem rest_placePage {L : List Part} (hL : sub [.health, .media, .ctr] L = true) (s : State) (seq kind who tag : Nat) (bs : List Byte) :
    ∀ tv, placePage s seq kind who tag bs = some tv → rest L tv.1 = rest L s := by
  intro tv
  unfold placePage
  repeat' (first | with_reducible exact none_imp | (with_reducible refine rest_or _ _ ?_ ?_) | (with_reducible refine rest_some ?_) | (with_reducible refine rest_some1 ?_) | (with_reducible refine rest_map _ _ (fun x hx => ?_)) | (with_reducible refine rest_map1 _ _ (fun x hx => ?_)) | (with_reducible refine bind_imp _ _ (fun x hx => ?_)) | (with_reducible refine findSome_imp _ _ (fun x => ?_)) | with_reducible rfl | simp (disch := (first | exact sub_trans (by decide) hL | exact Or.inl (has_of_sub hL (by decide)) | exact Or.inr rfl | exact Or.inr fun _ => rfl | (refine Or.inr ?_; intros; repeat' (first | rfl | split)))) only [↓rest_mk, ↓rest_ite, ite_self] | (with_reducible refine (rest_placeRun_eq (sub_trans (by decide) hL) _ _ _ _ _ (by assumption)).trans ?_) | (with_reducible refine (rest_placeRun (sub_trans (by decide) hL) _ _ _ _ _ _ (by assumption)).trans ?_) | (intro h; with_reducible refine (rest_placeRun (sub_trans (by decide) hL) _ _ _ _ _ _ h).trans ?_) | (with_reducible refine (rest_getD _ _ (fun u => ?_)).trans ?_) | (intro; rfl) | split | (intro; split) | rfl)
theorem rest_placePage_eq {L : List Part} (hL : sub [.health, .media, .ctr] L = true) (s : State) (seq kind who tag : Nat) (bs : List Byte) {uu aa} (hq : placePage s seq kind who tag bs = some (uu, aa)) : rest L uu = rest L s :=
  rest_placePage hL s seq kind who tag bs  _ hq

theorem rest_makeStripeRecord {L : List Part} (hL : sub [.health, .media, .twin, .ctr] L = true) (s : State) (o : OpenSet) :
    rest L (makeStripeRecord s o) = rest L s := by
  unfold makeStripeRecord
  repeat' (first | with_reducible rfl | simp (disch := (first | exact sub_trans (by decide) hL | exact Or.inl (has_of_sub hL (by decide)) | exact Or.inr rfl | exact Or.inr fun _ => rfl | (refine Or.inr ?_; intros; repeat' (first | rfl | split)))) only [↓rest_alignPage, ↓rest_mirrorFrame, ↓rest_skipBay, ↓rest_updOpen, ↓rest_updMedia, ↓rest_mk, ↓rest_ite, ite_self] | (with_reducible refine (rest_placePage_eq (sub_trans (by decide) hL) _ _ _ _ _ _ (by assumption)).trans ?_) | (with_reducible refine (rest_placePage (sub_trans (by decide) hL) _ _ _ _ _ _ _ (by assumption)).trans ?_) | (intro h; with_reducible refine (rest_placePage (sub_trans (by decide) hL) _ _ _ _ _ _ _ h).trans ?_) | (intro; rfl) | split | (intro; split) | rfl)

theorem rest_execStripeJournalRecord {L : List Part} (hL : sub [.health, .media, .twin, .ctr] L = true) (s : State) :
    ∃ tv, execStripeJournalRecord s = .next tv ∧ rest L tv = rest L s := by
  unfold execStripeJournalRecord
  repeat' (first | (refine ⟨_, rfl, ?_⟩) | with_reducible rfl | simp (disch := (first | exact sub_trans (by decide) hL | exact Or.inl (has_of_sub hL (by decide)) | exact Or.inr rfl | exact Or.inr fun _ => rfl | (refine Or.inr ?_; intros; repeat' (first | rfl | split)))) only [↓rest_makeStripeRecord, ↓rest_settleFull, ↓rest_mk, ↓rest_ite, ite_self] | (intro; rfl) | split | (intro; split) | rfl)

theorem rest_execMemberFailure {L : List Part} (hL : sub [.cond, .out, .evSeq, .evHist, .raised, .condFrom, .ports, .health, .map, .media, .jrnl, .twin, .kf, .kfMem, .ctr] L = true) (bay : Nat) (die : Option Nat) (s : State) :
    ∃ tv, execMemberFailure bay die s = .next tv ∧ rest L tv = rest L s := by
  unfold execMemberFailure
  repeat' (first | (refine ⟨_, rfl, ?_⟩) | with_reducible rfl | simp (disch := (first | exact sub_trans (by decide) hL | exact Or.inl (has_of_sub hL (by decide)) | exact Or.inr rfl | exact Or.inr fun _ => rfl | (refine Or.inr ?_; intros; repeat' (first | rfl | split)))) only [↓rest_bayFail, ↓rest_dieFail, ↓rest_endCycle, ↓rest_recomputeHorizon, ↓rest_mk, ↓rest_ite, ite_self] | (intro; rfl) | split | (intro; split) | rfl)

theorem rest_openStandIns {L : List Part} (hL : sub [.health, .map, .media, .jrnl, .twin, .ctr] L = true) (s : State) (k : SetRec) :
    rest L (openStandIns s k) = rest L s := by
  unfold openStandIns
  repeat' (first | with_reducible rfl | (with_reducible refine (rest_foldl _ (fun t x => ?_) _ _).trans ?_) | simp (disch := (first | exact sub_trans (by decide) hL | exact Or.inl (has_of_sub hL (by decide)) | exact Or.inr rfl | exact Or.inr fun _ => rfl | (refine Or.inr ?_; intros; repeat' (first | rfl | split)))) only [↓rest_openStandIn, ↓rest_updMap, ↓rest_mk, ↓rest_ite, ite_self] | (with_reducible refine (rest_foldl1 _ (fun t x => ?_) _ _).trans ?_) | (intro; rfl) | split | (intro; split) | rfl)

theorem rest_rebuildNextRow {L : List Part} (hL : sub [.health, .eng, .media, .ctr] L = true) (s : State) (k : SetRec) :
    rest L (rebuildNextRow s k) = rest L s := by
  unfold rebuildNextRow
  repeat' (first | with_reducible rfl | (with_reducible refine (rest_foldl _ (fun t x => ?_) _ _).trans ?_) | simp (disch := (first | exact sub_trans (by decide) hL | exact Or.inl (has_of_sub hL (by decide)) | exact Or.inr rfl | exact Or.inr fun _ => rfl | (refine Or.inr ?_; intros; repeat' (first | rfl | split)))) only [↓rest_countEvent, ↓rest_declareLost, ↓rest_fillStandIn, ↓rest_mk, ↓rest_ite, ite_self] | (with_reducible refine (rest_foldl1 _ (fun t x => ?_) _ _).trans ?_) | (intro; rfl) | split | (intro; split) | rfl)

theorem rest_workSet {L : List Part} (hL : sub [.health, .map, .eng, .media, .jrnl, .twin, .ctr] L = true) (s : State) (k : SetRec) :
    ∀ tv, workSet s k = some tv → rest L tv = rest L s := by
  intro tv
  unfold workSet
  repeat' (first | with_reducible exact none_imp | (with_reducible refine rest_or _ _ ?_ ?_) | (with_reducible refine rest_some ?_) | (with_reducible refine rest_some1 ?_) | (with_reducible refine rest_map _ _ (fun x hx => ?_)) | (with_reducible refine rest_map1 _ _ (fun x hx => ?_)) | (with_reducible refine bind_imp _ _ (fun x hx => ?_)) | (with_reducible refine findSome_imp _ _ (fun x => ?_)) | with_reducible rfl | simp (disch := (first | exact sub_trans (by decide) hL | exact Or.inl (has_of_sub hL (by decide)) | exact Or.inr rfl | exact Or.inr fun _ => rfl | (refine Or.inr ?_; intros; repeat' (first | rfl | split)))) only [↓rest_claimSet, ↓rest_openStandIns, ↓rest_rebuildNextRow, ↓rest_mk, ↓rest_ite, ite_self] | (with_reducible refine (rest_getD _ _ (fun u => ?_)).trans ?_) | (intro; rfl) | split | (intro; split) | rfl)

theorem rest_execRebuildRow {L : List Part} (hL : sub [.cond, .out, .evSeq, .evHist, .raised, .condFrom, .ports, .health, .map, .eng, .media, .jrnl, .twin, .ctr] L = true) (s : State) :
    ∃ tv, execRebuildRow s = .next tv ∧ rest L tv = rest L s := by
  unfold execRebuildRow
  repeat' (first | (refine ⟨_, rfl, ?_⟩) | with_reducible exact none_imp | (with_reducible refine rest_or _ _ ?_ ?_) | (with_reducible refine rest_some ?_) | (with_reducible refine rest_some1 ?_) | (with_reducible refine rest_map _ _ (fun x hx => ?_)) | (with_reducible refine rest_map1 _ _ (fun x hx => ?_)) | (with_reducible refine bind_imp _ _ (fun x hx => ?_)) | (with_reducible refine findSome_imp _ _ (fun x => ?_)) | with_reducible rfl | simp (disch := (first | exact sub_trans (by decide) hL | exact Or.inl (has_of_sub hL (by decide)) | exact Or.inr rfl | exact Or.inr fun _ => rfl | (refine Or.inr ?_; intros; repeat' (first | rfl | split)))) only [↓rest_endCycle, ↓rest_setRebuild, ↓rest_settleFull, ↓rest_mk, ↓rest_ite, ite_self] | (with_reducible refine (rest_workSet (sub_trans (by decide) hL) _ _ _ (by assumption)).trans ?_) | (intro h; with_reducible refine (rest_workSet (sub_trans (by decide) hL) _ _ _ h).trans ?_) | (with_reducible refine rest_findSome _ _ (fun x uu h => ?_) (by assumption)) | (with_reducible refine (rest_getD _ _ (fun u => ?_)).trans ?_) | (intro; rfl) | split | (intro; split) | rfl)

end Sys2Proof.Laws
end

