-- ==== Sys2Proof/Laws/FramesPatrol.lean ====
section
/-! SUPPORT. Which parts of the state the operations of Machine/Patrol.lean may change. -/
namespace Sys2Proof.Laws
open Sys2Proof Sys2Proof.Machine

set_option linter.unreachableTactic false
set_option linter.unusedTactic false

set_option linter.unusedSimpArgs false

theorem rest_tickClock {L : List Part} (hL : sub [.media] L = true) (s : State) (b : Bay) :
    rest L (tickClock s b) = rest L s := by
  unfold tickClock
  repeat' (first | with_reducible rfl | simp (disch := (first | exact sub_trans (by decide) hL | exact Or.inl (has_of_sub hL (by decide)) | exact Or.inr rfl | exact Or.inr fun _ => rfl | (refine Or.inr ?_; intros; repeat' (first | rfl | split)))) only [↓rest_updBay, ↓rest_mk, ↓rest_ite, ite_self] | (intro; rfl) | split | (intro; split) | rfl)

theorem rest_execThermalClockMinute {L : List Part} (hL : sub [.health, .media] L = true) (samples : List (DieId × Nat)) (s : State) :
    ∃ tv, execThermalClockMinute samples s = .next tv ∧ rest L tv = rest L s := by
  unfold execThermalClockMinute
  repeat' (first | (refine ⟨_, rfl, ?_⟩) | with_reducible exact none_imp | (with_reducible refine rest_or _ _ ?_ ?_) | (with_reducible refine rest_some ?_) | (with_reducible refine rest_some1 ?_) | (with_reducible refine rest_map _ _ (fun x hx => ?_)) | (with_reducible refine rest_map1 _ _ (fun x hx => ?_)) | (with_reducible refine bind_imp _ _ (fun x hx => ?_)) | (with_reducible refine findSome_imp _ _ (fun x => ?_)) | with_reducible rfl | (with_reducible refine (rest_foldl _ (fun t x => ?_) _ _).trans ?_) | simp (disch := (first | exact sub_trans (by decide) hL | exact Or.inl (has_of_sub hL (by decide)) | exact Or.inr rfl | exact Or.inr fun _ => rfl | (refine Or.inr ?_; intros; repeat' (first | rfl | split)))) only [↓rest_sampleDie, ↓rest_tickClock, ↓rest_updHealth, ↓rest_updMedia, ↓rest_mk, ↓rest_ite, ite_self] | (with_reducible refine (rest_foldl1 _ (fun t x => ?_) _ _).trans ?_) | (with_reducible refine (rest_getD _ _ (fun u => ?_)).trans ?_) | (intro; rfl) | split | (intro; split) | rfl)

theorem rest_execHourlyModelUpdate {L : List Part} (hL : sub [.out, .evSeq, .evHist, .raised, .condFrom, .ports, .media] L = true) (s : State) :
    ∃ tv, execHourlyModelUpdate s = .next tv ∧ rest L tv = rest L s := by
  unfold execHourlyModelUpdate
  repeat' (first | (refine ⟨_, rfl, ?_⟩) | with_reducible rfl | (with_reducible refine (rest_foldl _ (fun t x => ?_) _ _).trans ?_) | simp (disch := (first | exact sub_trans (by decide) hL | exact Or.inl (has_of_sub hL (by decide)) | exact Or.inr rfl | exact Or.inr fun _ => rfl | (refine Or.inr ?_; intros; repeat' (first | rfl | split)))) only [↓rest_endCycle, ↓rest_logBay, ↓rest_recomputeHorizon, ↓rest_settleAdvisory, ↓rest_settleShortfall, ↓rest_updMedia, ↓rest_mk, ↓rest_ite, ite_self] | (with_reducible refine (rest_foldl1 _ (fun t x => ?_) _ _).trans ?_) | (intro; rfl) | split | (intro; split) | rfl)

theorem rest_execAetWaitTimeout {L : List Part} (hL : sub [.now, .cond, .out, .evSeq, .evHist, .raised, .condFrom, .ports, .media, .power, .ctr] L = true) (cyc : Nat) (s : State) :
    ∃ tv, execAetWaitTimeout cyc s = .next tv ∧ rest L tv = rest L s := by
  unfold execAetWaitTimeout
  repeat' (first | (refine ⟨_, rfl, ?_⟩) | with_reducible rfl | simp (disch := (first | exact sub_trans (by decide) hL | exact Or.inl (has_of_sub hL (by decide)) | exact Or.inr rfl | exact Or.inr fun _ => rfl | (refine Or.inr ?_; intros; repeat' (first | rfl | split)))) only [↓rest_advanceTo, ↓rest_endCycle, ↓rest_setAtRisk, ↓rest_updMedia, ↓rest_mk, ↓rest_ite, ite_self] | (intro; rfl) | split | (intro; split) | rfl)

theorem rest_startPatrol {L : List Part} (hL : sub [.media] L = true) (s : State) (p : Nat) (late : Bool) :
    rest L (startPatrol s p late) = rest L s := by
  unfold startPatrol
  repeat' (first | with_reducible rfl | (with_reducible refine (rest_foldl _ (fun t x => ?_) _ _).trans ?_) | simp (disch := (first | exact sub_trans (by decide) hL | exact Or.inl (has_of_sub hL (by decide)) | exact Or.inr rfl | exact Or.inr fun _ => rfl | (refine Or.inr ?_; intros; repeat' (first | rfl | split)))) only [↓rest_claimSet, ↓rest_updProf, ↓rest_mk, ↓rest_ite, ite_self] | (with_reducible refine (rest_foldl1 _ (fun t x => ?_) _ _).trans ?_) | (intro; rfl) | split | (intro; split) | rfl)

theorem rest_execPatrolCycleStart {L : List Part} (hL : sub [.out, .evSeq, .evHist, .raised, .condFrom, .ports, .media] L = true) (profile : Nat) (s : State) :
    ∃ tv, execPatrolCycleStart profile s = .next tv ∧ rest L tv = rest L s := by
  unfold execPatrolCycleStart
  repeat' (first | (refine ⟨_, rfl, ?_⟩) | with_reducible rfl | simp (disch := (first | exact sub_trans (by decide) hL | exact Or.inl (has_of_sub hL (by decide)) | exact Or.inr rfl | exact Or.inr fun _ => rfl | (refine Or.inr ?_; intros; repeat' (first | rfl | split)))) only [↓rest_endCycle, ↓rest_startPatrol, ↓rest_updProf, ↓rest_mk, ↓rest_ite, ite_self] | (intro; rfl) | split | (intro; split) | rfl)

end Sys2Proof.Laws
end

