-- ==== Sys2Proof/Laws/FramesReclaim.lean ====
section
/-! SUPPORT. Which parts of the state the operations of Machine/Reclaim.lean may change. -/
namespace Sys2Proof.Laws
open Sys2Proof Sys2Proof.Machine

set_option linter.unreachableTactic false
set_option linter.unusedTactic false

set_option linter.unusedSimpArgs false

theorem rest_placeIn {L : List Part} (hL : sub [.health, .media, .ctr] L = true) (s : State) (seq kind who : Nat) (x : SlotRec) :
    ∀ tv, placeIn s seq kind who x = some tv → rest L tv.1 = rest L s := by
  intro tv
  unfold placeIn
  repeat' (first | with_reducible exact none_imp | (with_reducible refine rest_or _ _ ?_ ?_) | (with_reducible refine rest_some ?_) | (with_reducible refine rest_some1 ?_) | (with_reducible refine rest_map _ _ (fun x hx => ?_)) | (with_reducible refine rest_map1 _ _ (fun x hx => ?_)) | (with_reducible refine bind_imp _ _ (fun x hx => ?_)) | (with_reducible refine findSome_imp _ _ (fun x => ?_)) | with_reducible rfl | simp (disch := (first | exact sub_trans (by decide) hL | exact Or.inl (has_of_sub hL (by decide)) | exact Or.inr rfl | exact Or.inr fun _ => rfl | (refine Or.inr ?_; intros; repeat' (first | rfl | split)))) only [↓rest_startRow, ↓rest_mk, ↓rest_ite, ite_self] | (with_reducible refine (rest_putSlot_eq (sub_trans (by decide) hL) _ _ _ _ _ _ (by assumption)).trans ?_) | (with_reducible refine (rest_putSlot (sub_trans (by decide) hL) _ _ _ _ _ _ _ (by assumption)).trans ?_) | (intro h; with_reducible refine (rest_putSlot (sub_trans (by decide) hL) _ _ _ _ _ _ _ h).trans ?_) | (with_reducible refine (rest_startRow_eq (sub_trans (by decide) hL) _ _ (by assumption)).trans ?_) | (with_reducible refine (rest_getD _ _ (fun u => ?_)).trans ?_) | (intro; rfl) | split | (intro; split) | rfl)
theorem rest_placeIn_eq {L : List Part} (hL : sub [.health, .media, .ctr] L = true) (s : State) (seq kind who : Nat) (x : SlotRec) {uu aa} (hq : placeIn s seq kind who x = some (uu, aa)) : rest L uu = rest L s :=
  rest_placeIn hL s seq kind who x  _ hq

theorem rest_placeAll {L : List Part} (hL : sub [.health, .media, .ctr] L = true) (s : State) (seq kind who : Nat) :
    ∀ xv, ∀ tv, placeAll s seq kind who xv = some tv → rest L tv.1 = rest L s := by
  intro xv
  fun_induction placeAll s seq kind who xv
  · exact fun _ => none_imp
  · exact fun _ => none_imp
  · rename_i hx _
    exact fun _ => rest_some1 (rest_placeIn_eq hL _ _ _ _ _ hx)
  · rename_i hx _ ih
    exact fun _ => rest_map1 _ _ (fun y hy => (ih y hy).trans (rest_placeIn_eq hL _ _ _ _ _ hx))
theorem rest_placeAll_eq {L : List Part} (hL : sub [.health, .media, .ctr] L = true) (s : State) (seq kind who : Nat) (xv : List SlotRec) {uu aa} (h : placeAll s seq kind who xv = some (uu, aa)) : rest L uu = rest L s :=
  rest_placeAll hL s seq kind who xv _ h

theorem rest_placeExtent {L : List Part} (hL : sub [.health, .media, .ctr] L = true) (s : State) (who : Nat) (xs : List SlotRec) :
    ∀ tv, placeExtent s who xs = some tv → rest L tv.1 = rest L s := by
  intro tv
  unfold placeExtent
  repeat' (first | with_reducible exact none_imp | (with_reducible refine rest_or _ _ ?_ ?_) | (with_reducible refine rest_some ?_) | (with_reducible refine rest_some1 ?_) | (with_reducible refine rest_map _ _ (fun x hx => ?_)) | (with_reducible refine rest_map1 _ _ (fun x hx => ?_)) | (with_reducible refine bind_imp _ _ (fun x hx => ?_)) | (with_reducible refine findSome_imp _ _ (fun x => ?_)) | with_reducible rfl | simp (disch := (first | exact sub_trans (by decide) hL | exact Or.inl (has_of_sub hL (by decide)) | exact Or.inr rfl | exact Or.inr fun _ => rfl | (refine Or.inr ?_; intros; repeat' (first | rfl | split)))) only [↓rest_mk, ↓rest_ite, ite_self] | (with_reducible refine (rest_placeAll_eq (sub_trans (by decide) hL) _ _ _ _ _ (by assumption)).trans ?_) | (with_reducible refine (rest_placeAll (sub_trans (by decide) hL) _ _ _ _ _ _ (by assumption)).trans ?_) | (intro h; with_reducible refine (rest_placeAll (sub_trans (by decide) hL) _ _ _ _ _ _ h).trans ?_) | (with_reducible refine rest_findSome _ _ (fun x uu h => ?_) (by assumption)) | (with_reducible refine (rest_getD _ _ (fun u => ?_)).trans ?_) | (intro; rfl) | split | (intro; split) | rfl)
theorem rest_placeExtent_eq {L : List Part} (hL : sub [.health, .media, .ctr] L = true) (s : State) (who : Nat) (xs : List SlotRec) {uu aa} (hq : placeExtent s who xs = some (uu, aa)) : rest L uu = rest L s :=
  rest_placeExtent hL s who xs  _ hq

theorem rest_moveCoarse {L : List Part} (hL : sub [.health, .eng, .media, .ctr] L = true) (s : State) (ag : Agent) (ns seg : Nat) (first : Madr) :
    rest L (moveCoarse s ag ns seg first) = rest L s := by
  have hr : rest L (makeRoom s .relocCoarse) = rest L s := rest_makeRoom (sub_trans (by decide) hL) _ _
  unfold moveCoarse
  dsimp only
  split
  · exact hr
  · rename_i heq
    refine (rest_askMap (sub_trans (by decide) hL) _ _).trans (Eq.trans ?_ hr)
    exact bind_imp _ _ (fun x _ h => rest_placeExtent_eq (sub_trans (by decide) hL) _ _ _ h) heq

theorem rest_moveSegment {L : List Part} (hL : sub [.health, .eng, .media, .ctr] L = true) (s : State) (ag : Agent) (k : SetRec) (x : Seg) :
    rest L (moveSegment s ag k x) = rest L s := by
  unfold moveSegment
  repeat' (first | with_reducible exact none_imp | (with_reducible refine rest_or _ _ ?_ ?_) | (with_reducible refine rest_some ?_) | (with_reducible refine rest_some1 ?_) | (with_reducible refine rest_map _ _ (fun x hx => ?_)) | (with_reducible refine rest_map1 _ _ (fun x hx => ?_)) | (with_reducible refine bind_imp _ _ (fun x hx => ?_)) | (with_reducible refine findSome_imp _ _ (fun x => ?_)) | with_reducible rfl | (with_reducible refine (rest_foldl _ (fun t x => ?_) _ _).trans ?_) | simp (disch := (first | exact sub_trans (by decide) hL | exact Or.inl (has_of_sub hL (by decide)) | exact Or.inr rfl | exact Or.inr fun _ => rfl | (refine Or.inr ?_; intros; repeat' (first | rfl | split)))) only [↓rest_moveCoarse, ↓rest_mk, ↓rest_ite, ite_self] | (with_reducible refine (rest_foldl1 _ (fun t x => ?_) _ _).trans ?_) | (with_reducible refine (rest_moveUnit (sub_trans (by decide) hL) _ _ _ _ _ _ (by assumption)).trans ?_) | (intro h; with_reducible refine (rest_moveUnit (sub_trans (by decide) hL) _ _ _ _ _ _ h).trans ?_) | (with_reducible refine (rest_getD _ _ (fun u => ?_)).trans ?_) | (intro; rfl) | split | (intro; split) | rfl)

theorem rest_moveSet {L : List Part} (hL : sub [.health, .eng, .media, .ctr] L = true) (s : State) (ag : Agent) (seq : Nat) :
    rest L (moveSet s ag seq) = rest L s := by
  unfold moveSet
  repeat' (first | with_reducible rfl | (with_reducible refine (rest_foldl _ (fun t x => ?_) _ _).trans ?_) | simp (disch := (first | exact sub_trans (by decide) hL | exact Or.inl (has_of_sub hL (by decide)) | exact Or.inr rfl | exact Or.inr fun _ => rfl | (refine Or.inr ?_; intros; repeat' (first | rfl | split)))) only [↓rest_moveSegment, ↓rest_writeTile, ↓rest_mk, ↓rest_ite, ite_self] | (with_reducible refine (rest_foldl1 _ (fun t x => ?_) _ _).trans ?_) | (intro; rfl) | split | (intro; split) | rfl)

theorem rest_continueSets {L : List Part} (hL : sub [.health, .eng, .media, .ctr] L = true) (s : State) (ag : Agent) (l : List Nat) :
    rest L (continueSets s ag l) = rest L s := by
  unfold continueSets
  repeat' (first | with_reducible rfl | (with_reducible refine (rest_foldl _ (fun t x => ?_) _ _).trans ?_) | simp (disch := (first | exact sub_trans (by decide) hL | exact Or.inl (has_of_sub hL (by decide)) | exact Or.inr rfl | exact Or.inr fun _ => rfl | (refine Or.inr ?_; intros; repeat' (first | rfl | split)))) only [↓rest_moveSet, ↓rest_mk, ↓rest_ite, ite_self] | (with_reducible refine (rest_foldl1 _ (fun t x => ?_) _ _).trans ?_) | (intro; rfl) | split | (intro; split) | rfl)

theorem rest_takeSet {L : List Part} (hL : sub [.health, .eng, .media, .ctr] L = true) (s : State) (ag : Agent) (seq : Nat) :
    rest L (takeSet s ag seq) = rest L s := by
  unfold takeSet
  repeat' (first | with_reducible exact none_imp | (with_reducible refine rest_or _ _ ?_ ?_) | (with_reducible refine rest_some ?_) | (with_reducible refine rest_some1 ?_) | (with_reducible refine rest_map _ _ (fun x hx => ?_)) | (with_reducible refine rest_map1 _ _ (fun x hx => ?_)) | (with_reducible refine bind_imp _ _ (fun x hx => ?_)) | (with_reducible refine findSome_imp _ _ (fun x => ?_)) | with_reducible rfl | simp (disch := (first | exact sub_trans (by decide) hL | exact Or.inl (has_of_sub hL (by decide)) | exact Or.inr rfl | exact Or.inr fun _ => rfl | (refine Or.inr ?_; intros; repeat' (first | rfl | split)))) only [↓rest_claimSet, ↓rest_moveSet, ↓rest_mk, ↓rest_ite, ite_self] | (with_reducible refine (rest_getD _ _ (fun u => ?_)).trans ?_) | (intro; rfl) | split | (intro; split) | rfl)

theorem rest_consolidate {L : List Part} (hL : sub [.health, .eng, .media, .ctr] L = true) (s : State) (x : Seg) :
    rest L (consolidate s x) = rest L s := by
  have hr : rest L (makeRoom s .relocCoarse) = rest L s := rest_makeRoom (sub_trans (by decide) hL) _ _
  unfold consolidate
  dsimp only
  split
  · rfl
  · split
    · exact hr
    · rename_i heq
      refine (rest_askMap (sub_trans (by decide) hL) _ _).trans (Eq.trans ?_ hr)
      exact bind_imp _ _ (fun x _ h => rest_placeExtent_eq (sub_trans (by decide) hL) _ _ _ h) heq

theorem rest_execReclaimStart {L : List Part} (hL : sub [.out, .evSeq, .evHist, .raised, .condFrom, .ports, .health, .eng, .media, .ctr] L = true) (profile : Nat) (s : State) :
    ∃ tv, execReclaimStart profile s = .next tv ∧ rest L tv = rest L s := by
  unfold execReclaimStart
  repeat' (first | (refine ⟨_, rfl, ?_⟩) | with_reducible rfl | simp (disch := (first | exact sub_trans (by decide) hL | exact Or.inl (has_of_sub hL (by decide)) | exact Or.inr rfl | exact Or.inr fun _ => rfl | (refine Or.inr ?_; intros; repeat' (first | rfl | split)))) only [↓rest_consolidate, ↓rest_continueSets, ↓rest_endCycle, ↓rest_settleFull, ↓rest_takeSet, ↓rest_updProf, ↓rest_mk, ↓rest_ite, ite_self] | (intro; rfl) | split | (intro; split) | rfl)

theorem rest_execReserveReclaimStart {L : List Part} (hL : sub [.out, .evSeq, .evHist, .raised, .condFrom, .ports, .health, .eng, .media, .ctr] L = true) (profile : Nat) (s : State) :
    ∃ tv, execReserveReclaimStart profile s = .next tv ∧ rest L tv = rest L s := by
  unfold execReserveReclaimStart
  repeat' (first | (refine ⟨_, rfl, ?_⟩) | with_reducible rfl | simp (disch := (first | exact sub_trans (by decide) hL | exact Or.inl (has_of_sub hL (by decide)) | exact Or.inr rfl | exact Or.inr fun _ => rfl | (refine Or.inr ?_; intros; repeat' (first | rfl | split)))) only [↓rest_continueSets, ↓rest_endCycle, ↓rest_settleFull, ↓rest_settleShortfall, ↓rest_startShortfall, ↓rest_takeSet, ↓rest_updProf, ↓rest_mk, ↓rest_ite, ite_self] | (intro; rfl) | split | (intro; split) | rfl)

theorem rest_execRefreshClaim {L : List Part} (hL : sub [.out, .evSeq, .evHist, .raised, .condFrom, .ports, .health, .eng, .media, .ctr] L = true) (s : State) :
    ∃ tv, execRefreshClaim s = .next tv ∧ rest L tv = rest L s := by
  unfold execRefreshClaim
  repeat' (first | (refine ⟨_, rfl, ?_⟩) | with_reducible rfl | (with_reducible refine (rest_foldl _ (fun t x => ?_) _ _).trans ?_) | simp (disch := (first | exact sub_trans (by decide) hL | exact Or.inl (has_of_sub hL (by decide)) | exact Or.inr rfl | exact Or.inr fun _ => rfl | (refine Or.inr ?_; intros; repeat' (first | rfl | split)))) only [↓rest_continueSets, ↓rest_endCycle, ↓rest_replaceAbandoned, ↓rest_settleFull, ↓rest_takeSet, ↓rest_mk, ↓rest_ite, ite_self] | (with_reducible refine (rest_foldl1 _ (fun t x => ?_) _ _).trans ?_) | (intro; rfl) | split | (intro; split) | rfl)

theorem rest_execBlockClaimRequest {L : List Part} (hL : sub [.out, .evSeq, .evHist, .raised, .condFrom, .ports, .media] L = true) (agent : Agent) (seq : Nat) (s : State) :
    ∃ tv, execBlockClaimRequest agent seq s = .next tv ∧ rest L tv = rest L s := by
  unfold execBlockClaimRequest
  repeat' (first | (refine ⟨_, rfl, ?_⟩) | with_reducible rfl | simp (disch := (first | exact sub_trans (by decide) hL | exact Or.inl (has_of_sub hL (by decide)) | exact Or.inr rfl | exact Or.inr fun _ => rfl | (refine Or.inr ?_; intros; repeat' (first | rfl | split)))) only [↓rest_claimSet, ↓rest_endCycle, ↓rest_mk, ↓rest_ite, ite_self] | (intro; rfl) | split | (intro; split) | rfl)

theorem rest_execPreemptHandoff {L : List Part} (hL : sub [.media] L = true) (seq : Nat) (s : State) :
    ∃ tv, execPreemptHandoff seq s = .next tv ∧ rest L tv = rest L s := by
  unfold execPreemptHandoff
  repeat' (first | (refine ⟨_, rfl, ?_⟩) | with_reducible rfl | simp (disch := (first | exact sub_trans (by decide) hL | exact Or.inl (has_of_sub hL (by decide)) | exact Or.inr rfl | exact Or.inr fun _ => rfl | (refine Or.inr ?_; intros; repeat' (first | rfl | split)))) only [↓rest_updHolder, ↓rest_mk, ↓rest_ite, ite_self] | (intro; rfl) | split | (intro; split) | rfl)

theorem rest_releaseBlock {L : List Part} (hL : sub [.cond, .condFrom, .health, .map, .media, .jrnl, .twin] L = true) (s : State) (k : SetRec) (b : Madr) :
    rest L (releaseBlock s k b) = rest L s := by
  unfold releaseBlock
  repeat' (first | with_reducible rfl | simp (disch := (first | exact sub_trans (by decide) hL | exact Or.inl (has_of_sub hL (by decide)) | exact Or.inr rfl | exact Or.inr fun _ => rfl | (refine Or.inr ?_; intros; repeat' (first | rfl | split)))) only [↓rest_commitRec, ↓rest_retireBlock, ↓rest_mk, ↓rest_ite, ite_self] | (intro; rfl) | split | (intro; split) | rfl)

theorem rest_execBlockRelease {L : List Part} (hL : sub [.cond, .out, .evSeq, .evHist, .raised, .condFrom, .ports, .health, .map, .media, .jrnl, .twin] L = true) (seq : Nat) (s : State) :
    ∃ tv, execBlockRelease seq s = .next tv ∧ rest L tv = rest L s := by
  unfold execBlockRelease
  repeat' (first | (refine ⟨_, rfl, ?_⟩) | with_reducible rfl | (with_reducible refine (rest_foldl _ (fun t x => ?_) _ _).trans ?_) | simp (disch := (first | exact sub_trans (by decide) hL | exact Or.inl (has_of_sub hL (by decide)) | exact Or.inr rfl | exact Or.inr fun _ => rfl | (refine Or.inr ?_; intros; repeat' (first | rfl | split)))) only [↓rest_endCycle, ↓rest_finishRebuild, ↓rest_releaseBlock, ↓rest_settleFull, ↓rest_settlePatrol, ↓rest_settleSweep, ↓rest_updMedia, ↓rest_mk, ↓rest_ite, ite_self] | (with_reducible refine (rest_foldl1 _ (fun t x => ?_) _ _).trans ?_) | (intro; rfl) | split | (intro; split) | rfl)

theorem rest_execBlockErase {L : List Part} (hL : sub [.cond, .out, .evSeq, .evHist, .raised, .condFrom, .ports, .health, .map, .media, .jrnl, .twin, .ctr] L = true) (block : Madr) (s : State) :
    ∃ tv, execBlockErase block s = .next tv ∧ rest L tv = rest L s := by
  unfold execBlockErase
  repeat' (first | (refine ⟨_, rfl, ?_⟩) | with_reducible rfl | simp (disch := (first | exact sub_trans (by decide) hL | exact Or.inl (has_of_sub hL (by decide)) | exact Or.inr rfl | exact Or.inr fun _ => rfl | (refine Or.inr ?_; intros; repeat' (first | rfl | split)))) only [↓rest_endCycle, ↓rest_issueOp, ↓rest_retireBlock, ↓rest_settleFull, ↓rest_settlePatrol, ↓rest_updMedia, ↓rest_mk, ↓rest_ite, ite_self] | (intro; rfl) | split | (intro; split) | rfl)

end Sys2Proof.Laws
end

