-- ==== Sys2Proof/Laws/FramesBays.lean ====
section
/-! SUPPORT. Which parts of the state the operations of Machine/Bays.lean may change. -/
namespace Sys2Proof.Laws
open Sys2Proof Sys2Proof.Machine

set_option linter.unreachableTactic false
set_option linter.unusedTactic false

set_option linter.unusedSimpArgs false

theorem rest_askCkpt {L : List Part} (hL : sub [.jrnl] L = true) (s : State) (g : CkptTrigger) :
    rest L (askCkpt s g) = rest L s := by
  unfold askCkpt
  repeat' (first | with_reducible rfl | simp (disch := (first | exact sub_trans (by decide) hL | exact Or.inl (has_of_sub hL (by decide)) | exact Or.inr rfl | exact Or.inr fun _ => rfl | (refine Or.inr ?_; intros; repeat' (first | rfl | split)))) only [↓rest_updJrnl, ↓rest_mk, ↓rest_ite, ite_self] | (intro; rfl) | split | (intro; split) | rfl)

theorem rest_execBayPresenceAccepted {L : List Part} (hL : sub [.cond, .out, .evSeq, .evHist, .raised, .condFrom, .ports, .health, .map, .media, .jrnl, .twin, .kf, .kfMem, .ctr] L = true) (bay : Nat) (survey : BaySurvey) (s : State) :
    ∃ tv, execBayPresenceAccepted bay survey s = .next tv ∧ rest L tv = rest L s := by
  unfold execBayPresenceAccepted
  repeat' (first | (refine ⟨_, rfl, ?_⟩) | with_reducible rfl | simp (disch := (first | exact sub_trans (by decide) hL | exact Or.inl (has_of_sub hL (by decide)) | exact Or.inr rfl | exact Or.inr fun _ => rfl | (refine Or.inr ?_; intros; repeat' (first | rfl | split)))) only [↓rest_askCkpt, ↓rest_bayFail, ↓rest_endCycle, ↓rest_setBaySt, ↓rest_updBay, ↓rest_mk, ↓rest_ite, ite_self] | (intro; rfl) | split | (intro; split) | rfl)

theorem rest_execBayRemoval {L : List Part} (hL : sub [.cond, .out, .evSeq, .evHist, .raised, .condFrom, .ports, .health, .map, .media, .jrnl, .twin, .kf, .kfMem, .ctr] L = true) (bay : Nat) (s : State) :
    ∃ tv, execBayRemoval bay s = .next tv ∧ rest L tv = rest L s := by
  unfold execBayRemoval
  repeat' (first | (refine ⟨_, rfl, ?_⟩) | with_reducible rfl | simp (disch := (first | exact sub_trans (by decide) hL | exact Or.inl (has_of_sub hL (by decide)) | exact Or.inr rfl | exact Or.inr fun _ => rfl | (refine Or.inr ?_; intros; repeat' (first | rfl | split)))) only [↓rest_askCkpt, ↓rest_bayFail, ↓rest_endCycle, ↓rest_recomputeHorizon, ↓rest_setBaySt, ↓rest_stopBayDies, ↓rest_updBay, ↓rest_mk, ↓rest_ite, ite_self] | (intro; rfl) | split | (intro; split) | rfl)

theorem rest_execBayFault {L : List Part} (hL : sub [.cond, .out, .evSeq, .evHist, .raised, .condFrom, .ports, .health, .map, .media, .jrnl, .twin, .kf, .kfMem, .ctr] L = true) (bay : Nat) (s : State) :
    ∃ tv, execBayFault bay s = .next tv ∧ rest L tv = rest L s := by
  unfold execBayFault
  repeat' (first | (refine ⟨_, rfl, ?_⟩) | with_reducible rfl | simp (disch := (first | exact sub_trans (by decide) hL | exact Or.inl (has_of_sub hL (by decide)) | exact Or.inr rfl | exact Or.inr fun _ => rfl | (refine Or.inr ?_; intros; repeat' (first | rfl | split)))) only [↓rest_bayFail, ↓rest_endCycle, ↓rest_recomputeHorizon, ↓rest_updBay, ↓rest_mk, ↓rest_ite, ite_self] | (intro; rfl) | split | (intro; split) | rfl)

theorem rest_settleSeal {L : List Part} (hL : sub [.cond, .condFrom] L = true) (s : State) :
    rest L (settleSeal s) = rest L s := by
  unfold settleSeal
  repeat' (first | with_reducible rfl | simp (disch := (first | exact sub_trans (by decide) hL | exact Or.inl (has_of_sub hL (by decide)) | exact Or.inr rfl | exact Or.inr fun _ => rfl | (refine Or.inr ?_; intros; repeat' (first | rfl | split)))) only [↓rest_setFlags, ↓rest_mk, ↓rest_ite, ite_self] | (intro; rfl) | split | (intro; split) | rfl)

theorem rest_clearBay {L : List Part} (hL : sub [.map, .media] L = true) (s : State) (bay : Nat) :
    rest L (clearBay s bay) = rest L s := by
  unfold clearBay
  repeat' (first | with_reducible rfl | simp (disch := (first | exact sub_trans (by decide) hL | exact Or.inl (has_of_sub hL (by decide)) | exact Or.inr rfl | exact Or.inr fun _ => rfl | (refine Or.inr ?_; intros; repeat' (first | rfl | split)))) only [↓rest_updMap, ↓rest_updMedia, ↓rest_mk, ↓rest_ite, ite_self] | (intro; rfl) | split | (intro; split) | rfl)

theorem rest_stampBay {L : List Part} (hL : sub [.free, .media] L = true) (s : State) (bay : Nat) (r : CommissionResult) :
    rest L (stampBay s bay r) = rest L s := by
  unfold stampBay
  repeat' (first | with_reducible exact none_imp | (with_reducible refine rest_or _ _ ?_ ?_) | (with_reducible refine rest_some ?_) | (with_reducible refine rest_some1 ?_) | (with_reducible refine rest_map _ _ (fun x hx => ?_)) | (with_reducible refine rest_map1 _ _ (fun x hx => ?_)) | (with_reducible refine bind_imp _ _ (fun x hx => ?_)) | (with_reducible refine findSome_imp _ _ (fun x => ?_)) | with_reducible rfl | simp (disch := (first | exact sub_trans (by decide) hL | exact Or.inl (has_of_sub hL (by decide)) | exact Or.inr rfl | exact Or.inr fun _ => rfl | (refine Or.inr ?_; intros; repeat' (first | rfl | split)))) only [↓rest_drawFree, ↓rest_logBay, ↓rest_updBay, ↓rest_mk, ↓rest_ite, ite_self] | (with_reducible refine (rest_getD _ _ (fun u => ?_)).trans ?_) | (intro; rfl) | split | (intro; split) | rfl)

theorem rest_execCommissioningDone {L : List Part} (hL : sub [.free, .cond, .out, .evSeq, .evHist, .raised, .condFrom, .ports, .health, .map, .eng, .media, .jrnl, .twin, .kf, .kfMem, .ctr] L = true) (bay : Nat) (result : CommissionResult) (s : State) :
    ∃ tv, execCommissioningDone bay result s = .next tv ∧ rest L tv = rest L s := by
  unfold execCommissioningDone
  repeat' (first | (refine ⟨_, rfl, ?_⟩) | with_reducible rfl | simp (disch := (first | exact sub_trans (by decide) hL | exact Or.inl (has_of_sub hL (by decide)) | exact Or.inr rfl | exact Or.inr fun _ => rfl | (refine Or.inr ?_; intros; repeat' (first | rfl | split)))) only [↓rest_askCkpt, ↓rest_bayFail, ↓rest_clearBay, ↓rest_endCycle, ↓rest_joinMember, ↓rest_recomputeHorizon, ↓rest_setBaySt, ↓rest_settleFull, ↓rest_settleSeal, ↓rest_stampBay, ↓rest_updBay, ↓rest_mk, ↓rest_ite, ite_self] | (intro; rfl) | split | (intro; split) | rfl)

theorem rest_refuseNow {L : List Part} (hL : sub [.ctxs, .errSeq, .ports] L = true) (s : State) (cid : Nat) (status : Half) (fieldOffset : Nat) :
    rest L (refuseNow s cid status fieldOffset) = rest L s := by
  unfold refuseNow
  repeat' (first | with_reducible rfl | simp (disch := (first | exact sub_trans (by decide) hL | exact Or.inl (has_of_sub hL (by decide)) | exact Or.inr rfl | exact Or.inr fun _ => rfl | (refine Or.inr ?_; intros; repeat' (first | rfl | split)))) only [↓rest_decide_, ↓rest_mk, ↓rest_ite, ite_self] | (intro; rfl) | split | (intro; split) | rfl)

theorem rest_commission {L : List Part} (hL : sub [.ctxs, .errSeq, .raised, .ports, .media, .jrnl, .twin] L = true) (s : State) (cid : Nat) (asSpare : Bool) (c : Ctx) :
    rest L (commission s cid asSpare c) = rest L s := by
  unfold commission
  repeat' (first | with_reducible rfl | simp (disch := (first | exact sub_trans (by decide) hL | exact Or.inl (has_of_sub hL (by decide)) | exact Or.inr rfl | exact Or.inr fun _ => rfl | (refine Or.inr ?_; intros; repeat' (first | rfl | split)))) only [↓rest_performState, ↓rest_refuseNow, ↓rest_setBaySt, ↓rest_updBay, ↓rest_mk, ↓rest_ite, ite_self] | (intro; rfl) | split | (intro; split) | rfl)

theorem rest_execBayCommissionMember {L : List Part} (hL : sub [.out, .ctxs, .errSeq, .evSeq, .evHist, .raised, .condFrom, .ports, .media, .jrnl, .twin] L = true) (cid : Nat) (s : State) :
    ∃ tv, execBayCommissionMember cid s = .next tv ∧ rest L tv = rest L s := by
  unfold execBayCommissionMember
  repeat' (first | (refine ⟨_, rfl, ?_⟩) | with_reducible rfl | simp (disch := (first | exact sub_trans (by decide) hL | exact Or.inl (has_of_sub hL (by decide)) | exact Or.inr rfl | exact Or.inr fun _ => rfl | (refine Or.inr ?_; intros; repeat' (first | rfl | split)))) only [↓rest_commission, ↓rest_endCycle, ↓rest_mk, ↓rest_ite, ite_self] | (intro; rfl) | split | (intro; split) | rfl)

theorem rest_execBayCommissionSpare {L : List Part} (hL : sub [.out, .ctxs, .errSeq, .evSeq, .evHist, .raised, .condFrom, .ports, .media, .jrnl, .twin] L = true) (cid : Nat) (s : State) :
    ∃ tv, execBayCommissionSpare cid s = .next tv ∧ rest L tv = rest L s := by
  unfold execBayCommissionSpare
  repeat' (first | (refine ⟨_, rfl, ?_⟩) | with_reducible rfl | simp (disch := (first | exact sub_trans (by decide) hL | exact Or.inl (has_of_sub hL (by decide)) | exact Or.inr rfl | exact Or.inr fun _ => rfl | (refine Or.inr ?_; intros; repeat' (first | rfl | split)))) only [↓rest_commission, ↓rest_endCycle, ↓rest_mk, ↓rest_ite, ite_self] | (intro; rfl) | split | (intro; split) | rfl)

theorem rest_withoutBay {L : List Part} (hL : sub [.media] L = true) (s : State) (b : Nat) :
    rest L (withoutBay s b) = rest L s := by
  unfold withoutBay
  repeat' (first | with_reducible rfl | simp (disch := (first | exact sub_trans (by decide) hL | exact Or.inl (has_of_sub hL (by decide)) | exact Or.inr rfl | exact Or.inr fun _ => rfl | (refine Or.inr ?_; intros; repeat' (first | rfl | split)))) only [↓rest_updBay, ↓rest_mk, ↓rest_ite, ite_self] | (intro; rfl) | split | (intro; split) | rfl)

theorem rest_execBayEvacuate {L : List Part} (hL : sub [.out, .ctxs, .errSeq, .evSeq, .evHist, .raised, .condFrom, .ports, .media, .jrnl, .twin] L = true) (cid : Nat) (s : State) :
    ∃ tv, execBayEvacuate cid s = .next tv ∧ rest L tv = rest L s := by
  unfold execBayEvacuate
  repeat' (first | (refine ⟨_, rfl, ?_⟩) | with_reducible exact none_imp | (with_reducible refine rest_or _ _ ?_ ?_) | (with_reducible refine rest_some ?_) | (with_reducible refine rest_some1 ?_) | (with_reducible refine rest_map _ _ (fun x hx => ?_)) | (with_reducible refine rest_map1 _ _ (fun x hx => ?_)) | (with_reducible refine bind_imp _ _ (fun x hx => ?_)) | (with_reducible refine findSome_imp _ _ (fun x => ?_)) | with_reducible rfl | simp (disch := (first | exact sub_trans (by decide) hL | exact Or.inl (has_of_sub hL (by decide)) | exact Or.inr rfl | exact Or.inr fun _ => rfl | (refine Or.inr ?_; intros; repeat' (first | rfl | split)))) only [↓rest_endCycle, ↓rest_performState, ↓rest_refuseNow, ↓rest_setBaySt, ↓rest_settleFull, ↓rest_updBay, ↓rest_updMedia, ↓rest_mk, ↓rest_ite, ite_self] | (with_reducible refine (rest_getD _ _ (fun u => ?_)).trans ?_) | (intro; rfl) | split | (intro; split) | rfl)

theorem rest_execBayCancelEvacuate {L : List Part} (hL : sub [.out, .ctxs, .errSeq, .evSeq, .evHist, .raised, .condFrom, .ports, .media, .jrnl, .twin] L = true) (cid : Nat) (s : State) :
    ∃ tv, execBayCancelEvacuate cid s = .next tv ∧ rest L tv = rest L s := by
  unfold execBayCancelEvacuate
  repeat' (first | (refine ⟨_, rfl, ?_⟩) | with_reducible rfl | simp (disch := (first | exact sub_trans (by decide) hL | exact Or.inl (has_of_sub hL (by decide)) | exact Or.inr rfl | exact Or.inr fun _ => rfl | (refine Or.inr ?_; intros; repeat' (first | rfl | split)))) only [↓rest_endCycle, ↓rest_performState, ↓rest_refuseNow, ↓rest_settleCancels, ↓rest_settleFull, ↓rest_updBay, ↓rest_mk, ↓rest_ite, ite_self] | (intro; rfl) | split | (intro; split) | rfl)

theorem rest_releaseBay {L : List Part} (hL : sub [.cond, .raised, .condFrom, .media, .jrnl, .twin] L = true) (s : State) (b : Bay) :
    rest L (releaseBay s b) = rest L s := by
  unfold releaseBay
  repeat' (first | with_reducible rfl | simp (disch := (first | exact sub_trans (by decide) hL | exact Or.inl (has_of_sub hL (by decide)) | exact Or.inr rfl | exact Or.inr fun _ => rfl | (refine Or.inr ?_; intros; repeat' (first | rfl | split)))) only [↓rest_recomputeHorizon, ↓rest_retireUid, ↓rest_setBaySt, ↓rest_settleFull, ↓rest_settleLoss, ↓rest_settleSeal, ↓rest_stopBayDies, ↓rest_updBay, ↓rest_mk, ↓rest_ite, ite_self] | (intro; rfl) | split | (intro; split) | rfl)

theorem rest_execBayRelease {L : List Part} (hL : sub [.cond, .out, .ctxs, .errSeq, .evSeq, .evHist, .raised, .condFrom, .ports, .media, .jrnl, .twin] L = true) (cid : Nat) (s : State) :
    ∃ tv, execBayRelease cid s = .next tv ∧ rest L tv = rest L s := by
  unfold execBayRelease
  repeat' (first | (refine ⟨_, rfl, ?_⟩) | with_reducible rfl | simp (disch := (first | exact sub_trans (by decide) hL | exact Or.inl (has_of_sub hL (by decide)) | exact Or.inr rfl | exact Or.inr fun _ => rfl | (refine Or.inr ?_; intros; repeat' (first | rfl | split)))) only [↓rest_endCycle, ↓rest_performState, ↓rest_refuseNow, ↓rest_releaseBay, ↓rest_mk, ↓rest_ite, ite_self] | (intro; rfl) | split | (intro; split) | rfl)

theorem rest_columnMove {L : List Part} (hL : sub [.raised, .health, .map, .eng, .media, .jrnl, .twin, .ctr] L = true) (s : State) (k : SetRec) (col : Nat) :
    ∀ tv, columnMove s k col = some tv → rest L tv = rest L s := by
  intro tv
  unfold columnMove
  repeat' (first | with_reducible exact none_imp | (with_reducible refine rest_or _ _ ?_ ?_) | (with_reducible refine rest_some ?_) | (with_reducible refine rest_some1 ?_) | (with_reducible refine rest_map _ _ (fun x hx => ?_)) | (with_reducible refine rest_map1 _ _ (fun x hx => ?_)) | (with_reducible refine bind_imp _ _ (fun x hx => ?_)) | (with_reducible refine findSome_imp _ _ (fun x => ?_)) | with_reducible rfl | (with_reducible refine (rest_foldl _ (fun t x => ?_) _ _).trans ?_) | simp (disch := (first | exact sub_trans (by decide) hL | exact Or.inl (has_of_sub hL (by decide)) | exact Or.inr rfl | exact Or.inr fun _ => rfl | (refine Or.inr ?_; intros; repeat' (first | rfl | split)))) only [↓rest_claimSet, ↓rest_fillStandIn, ↓rest_openStandIn, ↓rest_useSpare, ↓rest_mk, ↓rest_ite, ite_self] | (with_reducible refine (rest_foldl1 _ (fun t x => ?_) _ _).trans ?_) | (with_reducible refine (rest_getD _ _ (fun u => ?_)).trans ?_) | (intro; rfl) | split | (intro; split) | rfl)

theorem rest_evacSet {L : List Part} (hL : sub [.raised, .health, .map, .eng, .media, .jrnl, .twin, .ctr] L = true) (s : State) (k : SetRec) :
    ∀ tv, evacSet s k = some tv → rest L tv = rest L s := by
  intro tv
  unfold evacSet
  repeat' (first | with_reducible exact none_imp | (with_reducible refine rest_or _ _ ?_ ?_) | (with_reducible refine rest_some ?_) | (with_reducible refine rest_some1 ?_) | (with_reducible refine rest_map _ _ (fun x hx => ?_)) | (with_reducible refine rest_map1 _ _ (fun x hx => ?_)) | (with_reducible refine bind_imp _ _ (fun x hx => ?_)) | (with_reducible refine findSome_imp _ _ (fun x => ?_)) | with_reducible rfl | simp (disch := (first | exact sub_trans (by decide) hL | exact Or.inl (has_of_sub hL (by decide)) | exact Or.inr rfl | exact Or.inr fun _ => rfl | (refine Or.inr ?_; intros; repeat' (first | rfl | split)))) only [↓rest_raiseTrigger, ↓rest_mk, ↓rest_ite, ite_self] | (with_reducible refine (rest_columnMove (sub_trans (by decide) hL) _ _ _ _ (by assumption)).trans ?_) | (intro h; with_reducible refine (rest_columnMove (sub_trans (by decide) hL) _ _ _ _ h).trans ?_) | (with_reducible refine (rest_getD _ _ (fun u => ?_)).trans ?_) | (intro; rfl) | split | (intro; split) | rfl)

theorem rest_noteEvac {L : List Part} (hL : sub [.media, .jrnl, .twin] L = true) (s : State) :
    rest L (noteEvac s) = rest L s := by
  unfold noteEvac
  repeat' (first | with_reducible rfl | (with_reducible refine (rest_foldl _ (fun t x => ?_) _ _).trans ?_) | simp (disch := (first | exact sub_trans (by decide) hL | exact Or.inl (has_of_sub hL (by decide)) | exact Or.inr rfl | exact Or.inr fun _ => rfl | (refine Or.inr ?_; intros; repeat' (first | rfl | split)))) only [↓rest_journal, ↓rest_updBay, ↓rest_updMedia, ↓rest_mk, ↓rest_ite, ite_self] | (with_reducible refine (rest_foldl1 _ (fun t x => ?_) _ _).trans ?_) | (intro; rfl) | split | (intro; split) | rfl)

theorem rest_execEvacuationSetMove {L : List Part} (hL : sub [.out, .evSeq, .evHist, .raised, .condFrom, .ports, .health, .map, .eng, .media, .jrnl, .twin, .ctr] L = true) (s : State) :
    ∃ tv, execEvacuationSetMove s = .next tv ∧ rest L tv = rest L s := by
  unfold execEvacuationSetMove
  repeat' (first | (refine ⟨_, rfl, ?_⟩) | with_reducible exact none_imp | (with_reducible refine rest_or _ _ ?_ ?_) | (with_reducible refine rest_some ?_) | (with_reducible refine rest_some1 ?_) | (with_reducible refine rest_map _ _ (fun x hx => ?_)) | (with_reducible refine rest_map1 _ _ (fun x hx => ?_)) | (with_reducible refine bind_imp _ _ (fun x hx => ?_)) | (with_reducible refine findSome_imp _ _ (fun x => ?_)) | with_reducible rfl | simp (disch := (first | exact sub_trans (by decide) hL | exact Or.inl (has_of_sub hL (by decide)) | exact Or.inr rfl | exact Or.inr fun _ => rfl | (refine Or.inr ?_; intros; repeat' (first | rfl | split)))) only [↓rest_endCycle, ↓rest_noteEvac, ↓rest_settleCancels, ↓rest_settleFull, ↓rest_mk, ↓rest_ite, ite_self] | (with_reducible refine (rest_evacSet (sub_trans (by decide) hL) _ _ _ (by assumption)).trans ?_) | (intro h; with_reducible refine (rest_evacSet (sub_trans (by decide) hL) _ _ _ h).trans ?_) | (with_reducible refine rest_findSome _ _ (fun x uu h => ?_) (by assumption)) | (with_reducible refine (rest_getD _ _ (fun u => ?_)).trans ?_) | (intro; rfl) | split | (intro; split) | rfl)

theorem rest_execEvacuationDone {L : List Part} (hL : sub [.cond, .out, .evSeq, .evHist, .raised, .condFrom, .ports, .media, .jrnl, .twin] L = true) (bay : Nat) (s : State) :
    ∃ tv, execEvacuationDone bay s = .next tv ∧ rest L tv = rest L s := by
  unfold execEvacuationDone
  repeat' (first | (refine ⟨_, rfl, ?_⟩) | with_reducible rfl | simp (disch := (first | exact sub_trans (by decide) hL | exact Or.inl (has_of_sub hL (by decide)) | exact Or.inr rfl | exact Or.inr fun _ => rfl | (refine Or.inr ?_; intros; repeat' (first | rfl | split)))) only [↓rest_endCycle, ↓rest_releaseBay, ↓rest_mk, ↓rest_ite, ite_self] | (intro; rfl) | split | (intro; split) | rfl)

theorem rest_execBayImport {L : List Part} (hL : sub [.ctxs, .errSeq, .ports, .media, .twin] L = true) (cid : Nat) (survey : ImportSurvey) (s : State) :
    ∃ tv, execBayImport cid survey s = .next tv ∧ rest L tv = rest L s := by
  unfold execBayImport
  repeat' (first | (refine ⟨_, rfl, ?_⟩) | with_reducible exact none_imp | (with_reducible refine rest_or _ _ ?_ ?_) | (with_reducible refine rest_some ?_) | (with_reducible refine rest_some1 ?_) | (with_reducible refine rest_map _ _ (fun x hx => ?_)) | (with_reducible refine rest_map1 _ _ (fun x hx => ?_)) | (with_reducible refine bind_imp _ _ (fun x hx => ?_)) | (with_reducible refine findSome_imp _ _ (fun x => ?_)) | with_reducible rfl | simp (disch := (first | exact sub_trans (by decide) hL | exact Or.inl (has_of_sub hL (by decide)) | exact Or.inr rfl | exact Or.inr fun _ => rfl | (refine Or.inr ?_; intros; repeat' (first | rfl | split)))) only [↓rest_performState, ↓rest_refuseNow, ↓rest_updCtx, ↓rest_updMedia, ↓rest_mk, ↓rest_ite, ite_self] | (with_reducible refine (rest_getD _ _ (fun u => ?_)).trans ?_) | (intro; rfl) | split | (intro; split) | rfl)

theorem rest_adopt {L : List Part} (hL : sub [.kf] L = true) (s : State) (b : Bay) :
    rest L (adopt s b).1 = rest L s := by
  unfold adopt
  repeat' (first | with_reducible exact none_imp | (with_reducible refine rest_or _ _ ?_ ?_) | (with_reducible refine rest_some ?_) | (with_reducible refine rest_some1 ?_) | (with_reducible refine rest_map _ _ (fun x hx => ?_)) | (with_reducible refine rest_map1 _ _ (fun x hx => ?_)) | (with_reducible refine bind_imp _ _ (fun x hx => ?_)) | (with_reducible refine findSome_imp _ _ (fun x => ?_)) | with_reducible rfl | simp (disch := (first | exact sub_trans (by decide) hL | exact Or.inl (has_of_sub hL (by decide)) | exact Or.inr rfl | exact Or.inr fun _ => rfl | (refine Or.inr ?_; intros; repeat' (first | rfl | split)))) only [↓rest_updKf, ↓rest_mk, ↓rest_ite, ite_self] | (with_reducible refine (rest_getD _ _ (fun u => ?_)).trans ?_) | (with_reducible refine (rest_updKf (sub_trans (by decide) hL) _ _ (.inr ?_) (.inr ?_)).trans ?_) | (intro; rfl) | split | (intro; split) | rfl)
theorem rest_adopt_eq {L : List Part} (hL : sub [.kf] L = true) (s : State) (b : Bay) {uu aa} (hq : adopt s b = (uu, aa)) : rest L uu = rest L s := by
  have k := rest_adopt hL s b
  rw [hq] at k
  exact k

theorem rest_joinGroup {L : List Part} (hL : sub [.raised, .health, .eng, .media, .jrnl, .twin, .kf, .ctr] L = true) (s : State) (bay : Nat) :
    rest L (joinGroup s bay) = rest L s := by
  unfold joinGroup
  repeat' (first | with_reducible exact none_imp | (with_reducible refine rest_or _ _ ?_ ?_) | (with_reducible refine rest_some ?_) | (with_reducible refine rest_some1 ?_) | (with_reducible refine rest_map _ _ (fun x hx => ?_)) | (with_reducible refine rest_map1 _ _ (fun x hx => ?_)) | (with_reducible refine bind_imp _ _ (fun x hx => ?_)) | (with_reducible refine findSome_imp _ _ (fun x => ?_)) | with_reducible rfl | simp (disch := (first | exact sub_trans (by decide) hL | exact Or.inl (has_of_sub hL (by decide)) | exact Or.inr rfl | exact Or.inr fun _ => rfl | (refine Or.inr ?_; intros; repeat' (first | rfl | split)))) only [↓rest_adopt, ↓rest_joinMember, ↓rest_logBay, ↓rest_setBaySt, ↓rest_updBay, ↓rest_mk, ↓rest_ite, ite_self] | (with_reducible refine (rest_adopt_eq (sub_trans (by decide) hL) _ _ (by assumption)).trans ?_) | (with_reducible refine (rest_getD _ _ (fun u => ?_)).trans ?_) | (intro; rfl) | split | (intro; split) | rfl)

theorem rest_importCounters {L : List Part} (hL : sub [.csnNext, .csnBlock, .media, .jrnl, .twin] L = true) (s : State) (r : Found) (sjHigh : Nat) :
    rest L (importCounters s r sjHigh) = rest L s := by
  unfold importCounters
  repeat' (first | with_reducible rfl | simp (disch := (first | exact sub_trans (by decide) hL | exact Or.inl (has_of_sub hL (by decide)) | exact Or.inr rfl | exact Or.inr fun _ => rfl | (refine Or.inr ?_; intros; repeat' (first | rfl | split)))) only [↓rest_journal, ↓rest_updJrnl, ↓rest_updMedia, ↓rest_mk, ↓rest_ite, ite_self] | (intro; rfl) | split | (intro; split) | rfl)

theorem rest_execImportDone {L : List Part} (hL : sub [.cond, .out, .csnNext, .csnBlock, .evSeq, .evHist, .raised, .condFrom, .ports, .health, .map, .eng, .media, .jrnl, .twin, .kf, .kfMem, .ctr] L = true) (result : ImportResult) (s : State) :
    ∃ tv, execImportDone result s = .next tv ∧ rest L tv = rest L s := by
  unfold execImportDone
  repeat' (first | (refine ⟨_, rfl, ?_⟩) | with_reducible rfl | (with_reducible refine (rest_foldl _ (fun t x => ?_) _ _).trans ?_) | simp (disch := (first | exact sub_trans (by decide) hL | exact Or.inl (has_of_sub hL (by decide)) | exact Or.inr rfl | exact Or.inr fun _ => rfl | (refine Or.inr ?_; intros; repeat' (first | rfl | split)))) only [↓rest_afterMemberFail, ↓rest_askCkpt, ↓rest_declareLost, ↓rest_endCycle, ↓rest_importCounters, ↓rest_joinGroup, ↓rest_journal, ↓rest_recomputeHorizon, ↓rest_setAtRisk, ↓rest_settleFull, ↓rest_settleSeal, ↓rest_settleSegments, ↓rest_settleTaken, ↓rest_updMap, ↓rest_updMedia, ↓rest_mk, ↓rest_ite, ite_self] | (with_reducible refine (rest_foldl1 _ (fun t x => ?_) _ _).trans ?_) | (intro; rfl) | split | (intro; split) | rfl)

end Sys2Proof.Laws
end

