-- ==== Sys2Proof/Laws/FramesCadence.lean ====
section
/-! SUPPORT. Which parts of the state the operations of Machine/Cadence.lean may change. -/
namespace Sys2Proof.Laws
open Sys2Proof Sys2Proof.Machine

set_option linter.unreachableTactic false
set_option linter.unusedTactic false

set_option linter.unusedSimpArgs false

theorem rest_rollWindow {L : List Part} (hL : sub [.cad] L = true) (s : State) (prorated : Bool) :
    rest L (rollWindow s prorated) = rest L s := by
  unfold rollWindow
  repeat' (first | with_reducible rfl | simp (disch := (first | exact sub_trans (by decide) hL | exact Or.inl (has_of_sub hL (by decide)) | exact Or.inr rfl | exact Or.inr fun _ => rfl | (refine Or.inr ?_; intros; repeat' (first | rfl | split)))) only [↓rest_updCad, ↓rest_mk, ↓rest_ite, ite_self] | (with_reducible refine (rest_updCad (sub_trans (by decide) hL) _ _ (.inr ?_)).trans ?_) | (intro; rfl) | split | (intro; split) | rfl)

theorem rest_beginRebuild {L : List Part} (hL : sub [.cond, .raised, .condFrom, .health, .eng, .media, .jrnl, .twin, .ctr] L = true) (s : State) :
    rest L (beginRebuild s) = rest L s := by
  unfold beginRebuild
  repeat' (first | with_reducible rfl | (with_reducible refine (rest_foldl _ (fun t x => ?_) _ _).trans ?_) | simp (disch := (first | exact sub_trans (by decide) hL | exact Or.inl (has_of_sub hL (by decide)) | exact Or.inr rfl | exact Or.inr fun _ => rfl | (refine Or.inr ?_; intros; repeat' (first | rfl | split)))) only [↓rest_setRebuild, ↓rest_useSpare, ↓rest_updMedia, ↓rest_mk, ↓rest_ite, ite_self] | (with_reducible refine (rest_foldl1 _ (fun t x => ?_) _ _).trans ?_) | (intro; rfl) | split | (intro; split) | rfl)

theorem rest_settleWindow {L : List Part} (hL : sub [.cond, .raised, .condFrom, .cad, .health, .eng, .media, .jrnl, .twin, .ctr] L = true) (s : State) :
    rest L (settleWindow s) = rest L s := by
  unfold settleWindow
  repeat' (first | with_reducible rfl | simp (disch := (first | exact sub_trans (by decide) hL | exact Or.inl (has_of_sub hL (by decide)) | exact Or.inr rfl | exact Or.inr fun _ => rfl | (refine Or.inr ?_; intros; repeat' (first | rfl | split)))) only [↓rest_beginRebuild, ↓rest_rollWindow, ↓rest_settleSweep, ↓rest_mk, ↓rest_ite, ite_self] | (intro; rfl) | split | (intro; split) | rfl)

theorem rest_execWindowStart {L : List Part} (hL : sub [.cond, .out, .evSeq, .evHist, .raised, .condFrom, .ports, .cad, .health, .eng, .media, .jrnl, .twin, .ctr] L = true) (s : State) :
    ∃ tv, execWindowStart s = .next tv ∧ rest L tv = rest L s := by
  unfold execWindowStart
  repeat' (first | (refine ⟨_, rfl, ?_⟩) | with_reducible rfl | simp (disch := (first | exact sub_trans (by decide) hL | exact Or.inl (has_of_sub hL (by decide)) | exact Or.inr rfl | exact Or.inr fun _ => rfl | (refine Or.inr ?_; intros; repeat' (first | rfl | split)))) only [↓rest_endCycle, ↓rest_settleWindow, ↓rest_mk, ↓rest_ite, ite_self] | (intro; rfl) | split | (intro; split) | rfl)

theorem rest_completeSets {L : List Part} (hL : sub [.ctxs, .errSeq, .ports, .twin] L = true) (s : State) (x : AetSet) (result : Nat) :
    rest L (completeSets s x result) = rest L s := by
  unfold completeSets
  repeat' (first | with_reducible rfl | (with_reducible refine (rest_foldl _ (fun t x => ?_) _ _).trans ?_) | simp (disch := (first | exact sub_trans (by decide) hL | exact Or.inl (has_of_sub hL (by decide)) | exact Or.inr rfl | exact Or.inr fun _ => rfl | (refine Or.inr ?_; intros; repeat' (first | rfl | split)))) only [↓rest_performState, ↓rest_refuseNow, ↓rest_mk, ↓rest_ite, ite_self] | (with_reducible refine (rest_foldl1 _ (fun t x => ?_) _ _).trans ?_) | (intro; rfl) | split | (intro; split) | rfl)

theorem rest_checkSet {L : List Part} (hL : sub [.cond, .ctxs, .errSeq, .raised, .condFrom, .ports, .cad, .media, .twin] L = true) (s : State) (natural : Nat) (x : AetSet) :
    rest L (checkSet s natural x) = rest L s := by
  unfold checkSet
  repeat' (first | with_reducible rfl | simp (disch := (first | exact sub_trans (by decide) hL | exact Or.inl (has_of_sub hL (by decide)) | exact Or.inr rfl | exact Or.inr fun _ => rfl | (refine Or.inr ?_; intros; repeat' (first | rfl | split)))) only [↓rest_completeSets, ↓rest_fixUnpowered, ↓rest_raiseEvent, ↓rest_updCad, ↓rest_updMedia, ↓rest_mk, ↓rest_ite, ite_self] | (with_reducible refine (rest_updCad (sub_trans (by decide) hL) _ _ (.inr ?_)).trans ?_) | (intro; rfl) | split | (intro; split) | rfl)

theorem rest_regrid {L : List Part} (hL : sub [.cad] L = true) (s : State) :
    rest L (regrid s) = rest L s := by
  unfold regrid
  repeat' (first | with_reducible rfl | simp (disch := (first | exact sub_trans (by decide) hL | exact Or.inl (has_of_sub hL (by decide)) | exact Or.inr rfl | exact Or.inr fun _ => rfl | (refine Or.inr ?_; intros; repeat' (first | rfl | split)))) only [↓rest_updCad, ↓rest_mk, ↓rest_ite, ite_self] | (with_reducible refine (rest_updCad (sub_trans (by decide) hL) _ _ (.inr ?_)).trans ?_) | (intro; rfl) | split | (intro; split) | rfl)

theorem rest_switchPlan {L : List Part} (hL : sub [.raised, .cad] L = true) (s : State) :
    rest L (switchPlan s) = rest L s := by
  unfold switchPlan
  repeat' (first | with_reducible rfl | simp (disch := (first | exact sub_trans (by decide) hL | exact Or.inl (has_of_sub hL (by decide)) | exact Or.inr rfl | exact Or.inr fun _ => rfl | (refine Or.inr ?_; intros; repeat' (first | rfl | split)))) only [↓rest_raiseEvent, ↓rest_updCad, ↓rest_mk, ↓rest_ite, ite_self] | (with_reducible refine (rest_updCad (sub_trans (by decide) hL) _ _ (.inr ?_)).trans ?_) | (intro; rfl) | split | (intro; split) | rfl)

theorem rest_tickAet {L : List Part} (hL : sub [.cond, .ctxs, .errSeq, .raised, .condFrom, .ports, .cad, .media, .twin] L = true) (s : State) :
    rest L (tickAet s) = rest L s := by
  unfold tickAet
  repeat' (first | with_reducible rfl | simp (disch := (first | exact sub_trans (by decide) hL | exact Or.inl (has_of_sub hL (by decide)) | exact Or.inr rfl | exact Or.inr fun _ => rfl | (refine Or.inr ?_; intros; repeat' (first | rfl | split)))) only [↓rest_checkSet, ↓rest_updCad, ↓rest_mk, ↓rest_ite, ite_self] | (with_reducible refine (rest_updCad (sub_trans (by decide) hL) _ _ (.inr ?_)).trans ?_) | (intro; rfl) | split | (intro; split) | rfl)

theorem rest_tickTps {L : List Part} (hL : sub [.cad] L = true) (s : State) :
    rest L (tickTps s) = rest L s := by
  unfold tickTps
  repeat' (first | with_reducible rfl | simp (disch := (first | exact sub_trans (by decide) hL | exact Or.inl (has_of_sub hL (by decide)) | exact Or.inr rfl | exact Or.inr fun _ => rfl | (refine Or.inr ?_; intros; repeat' (first | rfl | split)))) only [↓rest_updCad, ↓rest_mk, ↓rest_ite, ite_self] | (with_reducible refine (rest_updCad (sub_trans (by decide) hL) _ _ (.inr ?_)).trans ?_) | (intro; rfl) | split | (intro; split) | rfl)

theorem rest_tickTime {L : List Part} (hL : sub [.cond, .ctxs, .errSeq, .raised, .condFrom, .ports, .cad, .media, .twin] L = true) (s : State) (c : Nat) :
    rest L (tickTime s c) = rest L s := by
  unfold tickTime
  repeat' (first | with_reducible rfl | simp (disch := (first | exact sub_trans (by decide) hL | exact Or.inl (has_of_sub hL (by decide)) | exact Or.inr rfl | exact Or.inr fun _ => rfl | (refine Or.inr ?_; intros; repeat' (first | rfl | split)))) only [↓rest_regrid, ↓rest_tickAet, ↓rest_tickTps, ↓rest_updCad, ↓rest_mk, ↓rest_ite, ite_self] | (with_reducible refine (rest_updCad (sub_trans (by decide) hL) _ _ (.inr ?_)).trans ?_) | (intro; rfl) | split | (intro; split) | rfl)

theorem rest_tickWindow {L : List Part} (hL : sub [.cad, .ctr] L = true) (s : State) (switched starts : Bool) :
    rest L (tickWindow s switched starts) = rest L s := by
  unfold tickWindow
  repeat' (first | with_reducible rfl | simp (disch := (first | exact sub_trans (by decide) hL | exact Or.inl (has_of_sub hL (by decide)) | exact Or.inr rfl | exact Or.inr fun _ => rfl | (refine Or.inr ?_; intros; repeat' (first | rfl | split)))) only [↓rest_trigSnap, ↓rest_updCad, ↓rest_mk, ↓rest_ite, ite_self] | (with_reducible refine (rest_updCad (sub_trans (by decide) hL) _ _ (.inr ?_)).trans ?_) | (intro; rfl) | split | (intro; split) | rfl)

theorem rest_doTick {L : List Part} (hL : sub [.now, .cond, .ctxs, .errSeq, .raised, .condFrom, .ports, .cad, .health, .eng, .media, .jrnl, .twin, .power, .ctr] L = true) (s : State) (c : Nat) :
    rest L (doTick s c) = rest L s := by
  unfold doTick
  repeat' (first | with_reducible rfl | simp (disch := (first | exact sub_trans (by decide) hL | exact Or.inl (has_of_sub hL (by decide)) | exact Or.inr rfl | exact Or.inr fun _ => rfl | (refine Or.inr ?_; intros; repeat' (first | rfl | split)))) only [↓rest_advanceTo, ↓rest_settleWindow, ↓rest_switchPlan, ↓rest_tickTime, ↓rest_tickWindow, ↓rest_mk, ↓rest_ite, ite_self] | (intro; rfl) | split | (intro; split) | rfl)

theorem rest_pulseOut {L : List Part} (hL : sub [.cad] L = true) (s : State) (c : Nat) (yes : Bool) :
    rest L (pulseOut s c yes) = rest L s := by
  unfold pulseOut
  repeat' (first | with_reducible rfl | simp (disch := (first | exact sub_trans (by decide) hL | exact Or.inl (has_of_sub hL (by decide)) | exact Or.inr rfl | exact Or.inr fun _ => rfl | (refine Or.inr ?_; intros; repeat' (first | rfl | split)))) only [↓rest_updCad, ↓rest_mk, ↓rest_ite, ite_self] | (with_reducible refine (rest_updCad (sub_trans (by decide) hL) _ _ (.inr ?_)).trans ?_) | (intro; rfl) | split | (intro; split) | rfl)

theorem rest_wantTps {L : List Part} (hL : sub [.cad] L = true) (s : State) (n : Nat) :
    rest L (wantTps s n) = rest L s := by
  unfold wantTps
  repeat' (first | with_reducible rfl | simp (disch := (first | exact sub_trans (by decide) hL | exact Or.inl (has_of_sub hL (by decide)) | exact Or.inr rfl | exact Or.inr fun _ => rfl | (refine Or.inr ?_; intros; repeat' (first | rfl | split)))) only [↓rest_updCad, ↓rest_mk, ↓rest_ite, ite_self] | (with_reducible refine (rest_updCad (sub_trans (by decide) hL) _ _ (.inr ?_)).trans ?_) | (intro; rfl) | split | (intro; split) | rfl)

theorem rest_takeEdge {L : List Part} (hL : sub [.cad] L = true) (s : State) (c : Nat) (use : Bool) :
    rest L (takeEdge s c use) = rest L s := by
  unfold takeEdge
  repeat' (first | with_reducible rfl | simp (disch := (first | exact sub_trans (by decide) hL | exact Or.inl (has_of_sub hL (by decide)) | exact Or.inr rfl | exact Or.inr fun _ => rfl | (refine Or.inr ?_; intros; repeat' (first | rfl | split)))) only [↓rest_updCad, ↓rest_mk, ↓rest_ite, ite_self] | (with_reducible refine (rest_updCad (sub_trans (by decide) hL) _ _ (.inr ?_)).trans ?_) | (intro; rfl) | split | (intro; split) | rfl)

theorem rest_lockedEdge {L : List Part} (hL : sub [.now, .cond, .ctxs, .errSeq, .raised, .condFrom, .ports, .cad, .health, .eng, .media, .jrnl, .twin, .power, .ctr] L = true) (s : State) (c : Nat) :
    rest L (lockedEdge s c) = rest L s := by
  unfold lockedEdge
  repeat' (first | with_reducible rfl | simp (disch := (first | exact sub_trans (by decide) hL | exact Or.inl (has_of_sub hL (by decide)) | exact Or.inr rfl | exact Or.inr fun _ => rfl | (refine Or.inr ?_; intros; repeat' (first | rfl | split)))) only [↓rest_doTick, ↓rest_pulseOut, ↓rest_takeEdge, ↓rest_updCad, ↓rest_mk, ↓rest_ite, ite_self] | (with_reducible refine (rest_updCad (sub_trans (by decide) hL) _ _ (.inr ?_)).trans ?_) | (intro; rfl) | split | (intro; split) | rfl)

theorem rest_seekEdge {L : List Part} (hL : sub [.now, .cond, .ctxs, .errSeq, .raised, .condFrom, .ports, .cad, .health, .eng, .media, .jrnl, .twin, .power, .ctr] L = true) (s : State) (c : Nat) :
    rest L (seekEdge s c) = rest L s := by
  unfold seekEdge
  repeat' (first | with_reducible rfl | simp (disch := (first | exact sub_trans (by decide) hL | exact Or.inl (has_of_sub hL (by decide)) | exact Or.inr rfl | exact Or.inr fun _ => rfl | (refine Or.inr ?_; intros; repeat' (first | rfl | split)))) only [↓rest_doTick, ↓rest_pulseOut, ↓rest_setFlags, ↓rest_takeEdge, ↓rest_wantTps, ↓rest_updCad, ↓rest_mk, ↓rest_ite, ite_self] | (with_reducible refine (rest_updCad (sub_trans (by decide) hL) _ _ (.inr ?_)).trans ?_) | (intro; rfl) | split | (intro; split) | rfl)

theorem rest_runtOut {L : List Part} (hL : sub [.cad] L = true) (s : State) :
    rest L (runtOut s) = rest L s := by
  unfold runtOut
  repeat' (first | with_reducible rfl | simp (disch := (first | exact sub_trans (by decide) hL | exact Or.inl (has_of_sub hL (by decide)) | exact Or.inr rfl | exact Or.inr fun _ => rfl | (refine Or.inr ?_; intros; repeat' (first | rfl | split)))) only [↓rest_updCad, ↓rest_mk, ↓rest_ite, ite_self] | (with_reducible refine (rest_updCad (sub_trans (by decide) hL) _ _ (.inr ?_)).trans ?_) | (intro; rfl) | split | (intro; split) | rfl)

theorem rest_deepEdge {L : List Part} (hL : sub [.now, .cond, .ctxs, .errSeq, .raised, .condFrom, .ports, .cad, .health, .eng, .media, .jrnl, .twin, .power, .ctr] L = true) (s : State) :
    rest L (deepEdge s) = rest L s := by
  unfold deepEdge
  repeat' (first | with_reducible rfl | simp (disch := (first | exact sub_trans (by decide) hL | exact Or.inl (has_of_sub hL (by decide)) | exact Or.inr rfl | exact Or.inr fun _ => rfl | (refine Or.inr ?_; intros; repeat' (first | rfl | split)))) only [↓rest_doTick, ↓rest_takeEdge, ↓rest_updCad, ↓rest_mk, ↓rest_ite, ite_self] | (with_reducible refine (rest_updCad (sub_trans (by decide) hL) _ _ (.inr ?_)).trans ?_) | (intro; rfl) | split | (intro; split) | rfl)

theorem rest_execCadTickEdge {L : List Part} (hL : sub [.now, .cond, .out, .ctxs, .errSeq, .evSeq, .evHist, .raised, .condFrom, .ports, .cad, .health, .eng, .media, .jrnl, .twin, .power, .ctr] L = true) (cyc : Nat) (heldHigh : Bool) (s : State) :
    ∃ tv, execCadTickEdge cyc heldHigh s = .next tv ∧ rest L tv = rest L s := by
  unfold execCadTickEdge
  repeat' (first | (refine ⟨_, rfl, ?_⟩) | with_reducible rfl | simp (disch := (first | exact sub_trans (by decide) hL | exact Or.inl (has_of_sub hL (by decide)) | exact Or.inr rfl | exact Or.inr fun _ => rfl | (refine Or.inr ?_; intros; repeat' (first | rfl | split)))) only [↓rest_advanceTo, ↓rest_deepEdge, ↓rest_endCycle, ↓rest_lockedEdge, ↓rest_runtOut, ↓rest_seekEdge, ↓rest_mk, ↓rest_ite, ite_self] | (intro; rfl) | split | (intro; split) | rfl)

theorem rest_execFlywheelTick {L : List Part} (hL : sub [.now, .cond, .out, .ctxs, .errSeq, .evSeq, .evHist, .raised, .condFrom, .ports, .cad, .health, .eng, .media, .jrnl, .twin, .power, .ctr] L = true) (s : State) :
    ∃ tv, execFlywheelTick s = .next tv ∧ rest L tv = rest L s := by
  unfold execFlywheelTick
  repeat' (first | (refine ⟨_, rfl, ?_⟩) | with_reducible rfl | simp (disch := (first | exact sub_trans (by decide) hL | exact Or.inl (has_of_sub hL (by decide)) | exact Or.inr rfl | exact Or.inr fun _ => rfl | (refine Or.inr ?_; intros; repeat' (first | rfl | split)))) only [↓rest_doTick, ↓rest_endCycle, ↓rest_pulseOut, ↓rest_updCad, ↓rest_mk, ↓rest_ite, ite_self] | (with_reducible refine (rest_updCad (sub_trans (by decide) hL) _ _ (.inr ?_)).trans ?_) | (intro; rfl) | split | (intro; split) | rfl)

theorem rest_execCadenceLostSet {L : List Part} (hL : sub [.cond, .out, .evSeq, .evHist, .raised, .condFrom, .ports, .cad] L = true) (s : State) :
    ∃ tv, execCadenceLostSet s = .next tv ∧ rest L tv = rest L s := by
  unfold execCadenceLostSet
  repeat' (first | (refine ⟨_, rfl, ?_⟩) | with_reducible rfl | simp (disch := (first | exact sub_trans (by decide) hL | exact Or.inl (has_of_sub hL (by decide)) | exact Or.inr rfl | exact Or.inr fun _ => rfl | (refine Or.inr ?_; intros; repeat' (first | rfl | split)))) only [↓rest_endCycle, ↓rest_setFlags, ↓rest_updCad, ↓rest_mk, ↓rest_ite, ite_self] | (with_reducible refine (rest_updCad (sub_trans (by decide) hL) _ _ (.inr ?_)).trans ?_) | (intro; rfl) | split | (intro; split) | rfl)

theorem rest_execLockTimeout {L : List Part} (hL : sub [.now, .cond, .out, .evSeq, .evHist, .raised, .condFrom, .ports, .cad, .power, .ctr] L = true) (cyc : Nat) (s : State) :
    ∃ tv, execLockTimeout cyc s = .next tv ∧ rest L tv = rest L s := by
  unfold execLockTimeout
  repeat' (first | (refine ⟨_, rfl, ?_⟩) | with_reducible rfl | simp (disch := (first | exact sub_trans (by decide) hL | exact Or.inl (has_of_sub hL (by decide)) | exact Or.inr rfl | exact Or.inr fun _ => rfl | (refine Or.inr ?_; intros; repeat' (first | rfl | split)))) only [↓rest_advanceTo, ↓rest_endCycle, ↓rest_setFlags, ↓rest_updCad, ↓rest_mk, ↓rest_ite, ite_self] | (with_reducible refine (rest_updCad (sub_trans (by decide) hL) _ _ (.inr ?_)).trans ?_) | (intro; rfl) | split | (intro; split) | rfl)

theorem rest_execInternalTick {L : List Part} (hL : sub [.now, .cond, .out, .ctxs, .errSeq, .evSeq, .evHist, .raised, .condFrom, .ports, .cad, .health, .eng, .media, .jrnl, .twin, .power, .ctr] L = true) (s : State) :
    ∃ tv, execInternalTick s = .next tv ∧ rest L tv = rest L s := by
  unfold execInternalTick
  repeat' (first | (refine ⟨_, rfl, ?_⟩) | with_reducible rfl | simp (disch := (first | exact sub_trans (by decide) hL | exact Or.inl (has_of_sub hL (by decide)) | exact Or.inr rfl | exact Or.inr fun _ => rfl | (refine Or.inr ?_; intros; repeat' (first | rfl | split)))) only [↓rest_doTick, ↓rest_endCycle, ↓rest_pulseOut, ↓rest_updCad, ↓rest_mk, ↓rest_ite, ite_self] | (with_reducible refine (rest_updCad (sub_trans (by decide) hL) _ _ (.inr ?_)).trans ?_) | (intro; rfl) | split | (intro; split) | rfl)

theorem rest_submitSet {L : List Part} (hL : sub [.cad] L = true) (s : State) (x : AetSet) :
    rest L (submitSet s x) = rest L s := by
  unfold submitSet
  repeat' (first | with_reducible exact none_imp | (with_reducible refine rest_or _ _ ?_ ?_) | (with_reducible refine rest_some ?_) | (with_reducible refine rest_some1 ?_) | (with_reducible refine rest_map _ _ (fun x hx => ?_)) | (with_reducible refine rest_map1 _ _ (fun x hx => ?_)) | (with_reducible refine bind_imp _ _ (fun x hx => ?_)) | (with_reducible refine findSome_imp _ _ (fun x => ?_)) | with_reducible rfl | simp (disch := (first | exact sub_trans (by decide) hL | exact Or.inl (has_of_sub hL (by decide)) | exact Or.inr rfl | exact Or.inr fun _ => rfl | (refine Or.inr ?_; intros; repeat' (first | rfl | split)))) only [↓rest_updCad, ↓rest_mk, ↓rest_ite, ite_self] | (with_reducible refine (rest_getD _ _ (fun u => ?_)).trans ?_) | (with_reducible refine (rest_updCad (sub_trans (by decide) hL) _ _ (.inr ?_)).trans ?_) | (intro; rfl) | split | (intro; split) | rfl)

theorem rest_writeAetSetCtrl {L : List Part} (hL : sub [.cad] L = true) (s : State) (value : Word) :
    rest L (writeAetSetCtrl s value) = rest L s := by
  unfold writeAetSetCtrl
  repeat' (first | with_reducible rfl | simp (disch := (first | exact sub_trans (by decide) hL | exact Or.inl (has_of_sub hL (by decide)) | exact Or.inr rfl | exact Or.inr fun _ => rfl | (refine Or.inr ?_; intros; repeat' (first | rfl | split)))) only [↓rest_submitSet, ↓rest_mk, ↓rest_ite, ite_self] | (intro; rfl) | split | (intro; split) | rfl)

theorem rest_execAetSetApply {L : List Part} (hL : sub [.cad] L = true) (value : Word) (s : State) :
    ∃ tv, execAetSetApply value s = .next tv ∧ rest L tv = rest L s := by
  unfold execAetSetApply
  repeat' (first | (refine ⟨_, rfl, ?_⟩) | with_reducible rfl | simp (disch := (first | exact sub_trans (by decide) hL | exact Or.inl (has_of_sub hL (by decide)) | exact Or.inr rfl | exact Or.inr fun _ => rfl | (refine Or.inr ?_; intros; repeat' (first | rfl | split)))) only [↓rest_writeAetSetCtrl, ↓rest_mk, ↓rest_ite, ite_self] | (intro; rfl) | split | (intro; split) | rfl)

theorem rest_writeCadControl {L : List Part} (hL : sub [.cond, .condFrom, .cad, .cadCtl] L = true) (t : State) (value : Word) :
    rest L (writeCadControl t value) = rest L t := by
  unfold writeCadControl
  repeat' (first | with_reducible rfl | simp (disch := (first | exact sub_trans (by decide) hL | exact Or.inl (has_of_sub hL (by decide)) | exact Or.inr rfl | exact Or.inr fun _ => rfl | (refine Or.inr ?_; intros; repeat' (first | rfl | split)))) only [↓rest_setFlags, ↓rest_wantTps, ↓rest_updCad, ↓rest_mk, ↓rest_ite, ite_self] | (with_reducible refine (rest_updCad (sub_trans (by decide) hL) _ _ (.inr ?_)).trans ?_) | (intro; rfl) | split | (intro; split) | rfl)

theorem rest_execCadControlSourceWrite {L : List Part} (hL : sub [.now, .cond, .out, .evSeq, .evHist, .raised, .condFrom, .ports, .cad, .cadCtl, .power, .ctr] L = true) (cyc : Nat) (value : Word) (s : State) :
    ∃ tv, execCadControlSourceWrite cyc value s = .next tv ∧ rest L tv = rest L s := by
  unfold execCadControlSourceWrite
  repeat' (first | (refine ⟨_, rfl, ?_⟩) | with_reducible rfl | simp (disch := (first | exact sub_trans (by decide) hL | exact Or.inl (has_of_sub hL (by decide)) | exact Or.inr rfl | exact Or.inr fun _ => rfl | (refine Or.inr ?_; intros; repeat' (first | rfl | split)))) only [↓rest_advanceTo, ↓rest_endCycle, ↓rest_writeCadControl, ↓rest_mk, ↓rest_ite, ite_self] | (intro; rfl) | split | (intro; split) | rfl)

theorem rest_writeCadTps {L : List Part} (hL : sub [.cad, .cadCtl] L = true) (s : State) (value : Word) :
    rest L (writeCadTps s value) = rest L s := by
  unfold writeCadTps
  repeat' (first | with_reducible rfl | simp (disch := (first | exact sub_trans (by decide) hL | exact Or.inl (has_of_sub hL (by decide)) | exact Or.inr rfl | exact Or.inr fun _ => rfl | (refine Or.inr ?_; intros; repeat' (first | rfl | split)))) only [↓rest_wantTps, ↓rest_updCad, ↓rest_mk, ↓rest_ite, ite_self] | (with_reducible refine (rest_updCad (sub_trans (by decide) hL) _ _ (.inr ?_)).trans ?_) | (intro; rfl) | split | (intro; split) | rfl)

theorem rest_execCadTpsWrite {L : List Part} (hL : sub [.cad, .cadCtl] L = true) (value : Word) (s : State) :
    ∃ tv, execCadTpsWrite value s = .next tv ∧ rest L tv = rest L s := by
  unfold execCadTpsWrite
  repeat' (first | (refine ⟨_, rfl, ?_⟩) | with_reducible rfl | simp (disch := (first | exact sub_trans (by decide) hL | exact Or.inl (has_of_sub hL (by decide)) | exact Or.inr rfl | exact Or.inr fun _ => rfl | (refine Or.inr ?_; intros; repeat' (first | rfl | split)))) only [↓rest_writeCadTps, ↓rest_mk, ↓rest_ite, ite_self] | (intro; rfl) | split | (intro; split) | rfl)

theorem rest_readAetLo {L : List Part} (hL : sub [.readData, .cad] L = true) (s : State) :
    rest L (readAetLo s) = rest L s := by
  unfold readAetLo
  repeat' (first | with_reducible rfl | simp (disch := (first | exact sub_trans (by decide) hL | exact Or.inl (has_of_sub hL (by decide)) | exact Or.inr rfl | exact Or.inr fun _ => rfl | (refine Or.inr ?_; intros; repeat' (first | rfl | split)))) only [↓rest_updCad, ↓rest_mk, ↓rest_ite, ite_self] | (with_reducible refine (rest_updCad (sub_trans (by decide) hL) _ _ (.inr ?_)).trans ?_) | (intro; rfl) | split | (intro; split) | rfl)

theorem rest_execAetLoRead {L : List Part} (hL : sub [.readData, .cad] L = true) (s : State) :
    ∃ tv, execAetLoRead s = .next tv ∧ rest L tv = rest L s := by
  unfold execAetLoRead
  repeat' (first | (refine ⟨_, rfl, ?_⟩) | with_reducible rfl | simp (disch := (first | exact sub_trans (by decide) hL | exact Or.inl (has_of_sub hL (by decide)) | exact Or.inr rfl | exact Or.inr fun _ => rfl | (refine Or.inr ?_; intros; repeat' (first | rfl | split)))) only [↓rest_readAetLo, ↓rest_mk, ↓rest_ite, ite_self] | (intro; rfl) | split | (intro; split) | rfl)

theorem rest_grantDraw {L : List Part} (hL : sub [.cad, .media, .power, .ctr] L = true) (s : State) (kind : DrawKind) (die : DieId) (op : DieOp) :
    rest L (grantDraw s kind die op) = rest L s := by
  unfold grantDraw
  repeat' (first | with_reducible exact none_imp | (with_reducible refine rest_or _ _ ?_ ?_) | (with_reducible refine rest_some ?_) | (with_reducible refine rest_some1 ?_) | (with_reducible refine rest_map _ _ (fun x hx => ?_)) | (with_reducible refine rest_map1 _ _ (fun x hx => ?_)) | (with_reducible refine bind_imp _ _ (fun x hx => ?_)) | (with_reducible refine findSome_imp _ _ (fun x => ?_)) | with_reducible rfl | simp (disch := (first | exact sub_trans (by decide) hL | exact Or.inl (has_of_sub hL (by decide)) | exact Or.inr rfl | exact Or.inr fun _ => rfl | (refine Or.inr ?_; intros; repeat' (first | rfl | split)))) only [↓rest_enqueueOp, ↓rest_updCad, ↓rest_updMedia, ↓rest_updPower, ↓rest_mk, ↓rest_ite, ite_self] | (with_reducible refine (rest_getD _ _ (fun u => ?_)).trans ?_) | (with_reducible refine (rest_updCad (sub_trans (by decide) hL) _ _ (.inr ?_)).trans ?_) | (with_reducible refine (rest_updPower (sub_trans (by decide) hL) _ _ (.inr ?_)).trans ?_) | (intro; rfl) | split | (intro; split) | rfl)

theorem rest_execMaintenanceDraw {L : List Part} (hL : sub [.cond, .out, .evSeq, .evHist, .raised, .condFrom, .ports, .cad, .health, .eng, .media, .jrnl, .twin, .power, .ctr] L = true) (kind : DrawKind) (die : DieId) (seqNo : Nat) (s : State) :
    ∃ tv, execMaintenanceDraw kind die seqNo s = .next tv ∧ rest L tv = rest L s := by
  unfold execMaintenanceDraw
  repeat' (first | (refine ⟨_, rfl, ?_⟩) | with_reducible rfl | simp (disch := (first | exact sub_trans (by decide) hL | exact Or.inl (has_of_sub hL (by decide)) | exact Or.inr rfl | exact Or.inr fun _ => rfl | (refine Or.inr ?_; intros; repeat' (first | rfl | split)))) only [↓rest_countEvent, ↓rest_endCycle, ↓rest_grantDraw, ↓rest_settleWindow, ↓rest_mk, ↓rest_ite, ite_self] | (intro; rfl) | split | (intro; split) | rfl)

end Sys2Proof.Laws
end

