-- ==== Sys2Proof/Laws/FramesPorts.lean ====
section
/-! SUPPORT. Which parts of the state the operations of Machine/Ports.lean may change. -/
namespace Sys2Proof.Laws
open Sys2Proof Sys2Proof.Machine

set_option linter.unreachableTactic false
set_option linter.unusedTactic false

set_option linter.unusedSimpArgs false

theorem rest_setHostMap {L : List Part} (hL : sub [.ports, .health, .eng, .media, .ctr] L = true) (s : State) (p : Port) (addr : Nat) (chunks : List Nat) :
    rest L (setHostMap s p addr chunks) = rest L s := by
  unfold setHostMap
  repeat' (first | with_reducible rfl | simp (disch := (first | exact sub_trans (by decide) hL | exact Or.inl (has_of_sub hL (by decide)) | exact Or.inr rfl | exact Or.inr fun _ => rfl | (refine Or.inr ?_; intros; repeat' (first | rfl | split)))) only [↓rest_sizeTier, ↓rest_updEng, ↓rest_updPort, ↓rest_mk, ↓rest_ite, ite_self] | (with_reducible refine (rest_updPort (sub_trans (by decide) hL) _ _ _ (.inr ?_)).trans ?_) | (intro; rfl) | split | (intro; split) | rfl)

theorem rest_dropEnded {L : List Part} (hL : sub [.dig] L = true) (s : State) :
    rest L (dropEnded s) = rest L s := by
  unfold dropEnded
  repeat' (first | with_reducible rfl | simp (disch := (first | exact sub_trans (by decide) hL | exact Or.inl (has_of_sub hL (by decide)) | exact Or.inr rfl | exact Or.inr fun _ => rfl | (refine Or.inr ?_; intros; repeat' (first | rfl | split)))) only [↓rest_updDig, ↓rest_mk, ↓rest_ite, ite_self] | (intro; rfl) | split | (intro; split) | rfl)

theorem rest_endContexts {L : List Part} (hL : sub [.dig] L = true) (s : State) (f : DigCtx → Bool) :
    rest L (endContexts s f) = rest L s := by
  unfold endContexts
  repeat' (first | with_reducible rfl | simp (disch := (first | exact sub_trans (by decide) hL | exact Or.inl (has_of_sub hL (by decide)) | exact Or.inr rfl | exact Or.inr fun _ => rfl | (refine Or.inr ?_; intros; repeat' (first | rfl | split)))) only [↓rest_dropEnded, ↓rest_updDig, ↓rest_mk, ↓rest_ite, ite_self] | (intro; rfl) | split | (intro; split) | rfl)

theorem rest_setShelf {L : List Part} (hL : sub [.ports, .dig] L = true) (s : State) (p : Port) (shelf : Option Shelf) :
    rest L (setShelf s p shelf) = rest L s := by
  unfold setShelf
  repeat' (first | with_reducible rfl | simp (disch := (first | exact sub_trans (by decide) hL | exact Or.inl (has_of_sub hL (by decide)) | exact Or.inr rfl | exact Or.inr fun _ => rfl | (refine Or.inr ?_; intros; repeat' (first | rfl | split)))) only [↓rest_endContexts, ↓rest_updPort, ↓rest_mk, ↓rest_ite, ite_self] | (with_reducible refine (rest_updPort (sub_trans (by decide) hL) _ _ _ (.inr ?_)).trans ?_) | (intro; rfl) | split | (intro; split) | rfl)

theorem rest_revertFeatures {L : List Part} (hL : sub [.ports, .health, .eng, .media, .dig, .ctr] L = true) (s : State) (p : Port) :
    rest L (revertFeatures s p) = rest L s := by
  unfold revertFeatures
  repeat' (first | with_reducible rfl | simp (disch := (first | exact sub_trans (by decide) hL | exact Or.inl (has_of_sub hL (by decide)) | exact Or.inr rfl | exact Or.inr fun _ => rfl | (refine Or.inr ?_; intros; repeat' (first | rfl | split)))) only [↓rest_setHostMap, ↓rest_setShelf, ↓rest_updPort, ↓rest_mk, ↓rest_ite, ite_self] | (with_reducible refine (rest_updPort (sub_trans (by decide) hL) _ _ _ (.inr ?_)).trans ?_) | (intro; rfl) | split | (intro; split) | rfl)

theorem rest_beginLog {L : List Part} (hL : sub [.ports] L = true) (s : State) (p : Port) (kind csnNext : Nat) (aetStop : Nat) (csnLast : Nat) (recs : List QueueRec) :
    rest L (beginLog s p kind csnNext aetStop csnLast recs) = rest L s := by
  unfold beginLog
  repeat' (first | with_reducible rfl | (with_reducible refine (rest_foldl _ (fun t x => ?_) _ _).trans ?_) | simp (disch := (first | exact sub_trans (by decide) hL | exact Or.inl (has_of_sub hL (by decide)) | exact Or.inr rfl | exact Or.inr fun _ => rfl | (refine Or.inr ?_; intros; repeat' (first | rfl | split)))) only [↓rest_updPort, ↓rest_mk, ↓rest_ite, ite_self] | (with_reducible refine (rest_foldl1 _ (fun t x => ?_) _ _).trans ?_) | (with_reducible refine (rest_updPort (sub_trans (by decide) hL) _ _ _ (.inr ?_)).trans ?_) | (intro; rfl) | split | (intro; split) | rfl)

theorem rest_completeLog {L : List Part} (hL : sub [.raised, .ports] L = true) (s : State) (p : Port) (new : List CmdRec) (unclean : Bool) :
    rest L (completeLog s p new unclean) = rest L s := by
  unfold completeLog
  repeat' (first | with_reducible rfl | (with_reducible refine (rest_foldl _ (fun t x => ?_) _ _).trans ?_) | simp (disch := (first | exact sub_trans (by decide) hL | exact Or.inl (has_of_sub hL (by decide)) | exact Or.inr rfl | exact Or.inr fun _ => rfl | (refine Or.inr ?_; intros; repeat' (first | rfl | split)))) only [↓rest_raiseEvent, ↓rest_updPort, ↓rest_mk, ↓rest_ite, ite_self] | (with_reducible refine (rest_foldl1 _ (fun t x => ?_) _ _).trans ?_) | (with_reducible refine (rest_updPort (sub_trans (by decide) hL) _ _ _ (.inr ?_)).trans ?_) | (intro; rfl) | split | (intro; split) | rfl)

theorem rest_notPerformed {L : List Part} (hL : sub [.ctxs, .eng] L = true) (s : State) (c : Ctx) :
    rest L (notPerformed s c) = rest L s := by
  unfold notPerformed
  repeat' (first | with_reducible rfl | (with_reducible refine (rest_foldl _ (fun t x => ?_) _ _).trans ?_) | simp (disch := (first | exact sub_trans (by decide) hL | exact Or.inl (has_of_sub hL (by decide)) | exact Or.inr rfl | exact Or.inr fun _ => rfl | (refine Or.inr ?_; intros; repeat' (first | rfl | split)))) only [↓rest_unpinBlock, ↓rest_updCtx, ↓rest_mk, ↓rest_ite, ite_self] | (with_reducible refine (rest_foldl1 _ (fun t x => ?_) _ _).trans ?_) | (intro; rfl) | split | (intro; split) | rfl)

theorem rest_settleDisabled {L : List Part} (hL : sub [.ctxs, .eng] L = true) (s : State) (p : Port) (linkGone : Bool) :
    rest L (settleDisabled s p linkGone) = rest L s := by
  unfold settleDisabled
  repeat' (first | with_reducible rfl | (with_reducible refine (rest_foldl _ (fun t x => ?_) _ _).trans ?_) | simp (disch := (first | exact sub_trans (by decide) hL | exact Or.inl (has_of_sub hL (by decide)) | exact Or.inr rfl | exact Or.inr fun _ => rfl | (refine Or.inr ?_; intros; repeat' (first | rfl | split)))) only [↓rest_notPerformed, ↓rest_perform, ↓rest_mk, ↓rest_ite, ite_self] | (with_reducible refine (rest_foldl1 _ (fun t x => ?_) _ _).trans ?_) | (intro; rfl) | split | (intro; split) | rfl)

theorem rest_retireFates {L : List Part} (hL : sub [.ctr] L = true) (s : State) (cs : List Ctx) :
    rest L (retireFates s cs) = rest L s := by
  unfold retireFates
  repeat' (first | with_reducible rfl | (with_reducible refine (rest_foldl _ (fun t x => ?_) _ _).trans ?_) | simp (disch := (first | exact sub_trans (by decide) hL | exact Or.inl (has_of_sub hL (by decide)) | exact Or.inr rfl | exact Or.inr fun _ => rfl | (refine Or.inr ?_; intros; repeat' (first | rfl | split)))) only [↓rest_retire, ↓rest_mk, ↓rest_ite, ite_self] | (with_reducible refine (rest_foldl1 _ (fun t x => ?_) _ _).trans ?_) | (intro; rfl) | split | (intro; split) | rfl)

theorem rest_finishDrain {L : List Part} (hL : sub [.ctxs, .raised, .ports, .health, .eng, .media, .dig, .ctr] L = true) (s : State) (p : Port) :
    rest L (finishDrain s p) = rest L s := by
  unfold finishDrain
  repeat' (first | with_reducible rfl | simp (disch := (first | exact sub_trans (by decide) hL | exact Or.inl (has_of_sub hL (by decide)) | exact Or.inr rfl | exact Or.inr fun _ => rfl | (refine Or.inr ?_; intros; repeat' (first | rfl | split)))) only [↓rest_completeLog, ↓rest_endContexts, ↓rest_retireFates, ↓rest_revertFeatures, ↓rest_updPort, ↓rest_mk, ↓rest_ite, ite_self] | (with_reducible refine (rest_updPort (sub_trans (by decide) hL) _ _ _ (.inr ?_)).trans ?_) | (intro; rfl) | split | (intro; split) | rfl)

theorem rest_disablePort {L : List Part} (hL : sub [.ctxs, .raised, .ports, .health, .eng, .media, .dig, .kf, .ctr] L = true) (s : State) (p : Port) (kind : Nat) (linkGone : Bool) :
    rest L (disablePort s p kind linkGone) = rest L s := by
  unfold disablePort
  repeat' (first | with_reducible rfl | simp (disch := (first | exact sub_trans (by decide) hL | exact Or.inl (has_of_sub hL (by decide)) | exact Or.inr rfl | exact Or.inr fun _ => rfl | (refine Or.inr ?_; intros; repeat' (first | rfl | split)))) only [↓rest_beginLog, ↓rest_finishDrain, ↓rest_revertFeatures, ↓rest_settleDisabled, ↓rest_settleFull, ↓rest_updKf, ↓rest_updPort, ↓rest_mk, ↓rest_ite, ite_self] | (with_reducible refine (rest_updKf (sub_trans (by decide) hL) _ _ (.inr ?_) (.inr ?_)).trans ?_) | (with_reducible refine (rest_updPort (sub_trans (by decide) hL) _ _ _ (.inr ?_)).trans ?_) | (intro; rfl) | split | (intro; split) | rfl)

theorem rest_resetPortRegs {L : List Part} (hL : sub [.ports, .portCtl] L = true) (s : State) (p : Port) :
    rest L (resetPortRegs s p) = rest L s := by
  unfold resetPortRegs
  repeat' (first | with_reducible rfl | simp (disch := (first | exact sub_trans (by decide) hL | exact Or.inl (has_of_sub hL (by decide)) | exact Or.inr rfl | exact Or.inr fun _ => rfl | (refine Or.inr ?_; intros; repeat' (first | rfl | split)))) only [↓rest_updPort, ↓rest_mk, ↓rest_ite, ite_self] | (with_reducible refine (rest_updPort (sub_trans (by decide) hL) _ _ _ (.inr ?_)).trans ?_) | (intro; rfl) | split | (intro; split) | rfl)

theorem rest_enablePort {L : List Part} (hL : sub [.ports] L = true) (s : State) (p : Port) :
    rest L (enablePort s p) = rest L s := by
  unfold enablePort
  repeat' (first | with_reducible rfl | simp (disch := (first | exact sub_trans (by decide) hL | exact Or.inl (has_of_sub hL (by decide)) | exact Or.inr rfl | exact Or.inr fun _ => rfl | (refine Or.inr ?_; intros; repeat' (first | rfl | split)))) only [↓rest_updPort, ↓rest_mk, ↓rest_ite, ite_self] | (with_reducible refine (rest_updPort (sub_trans (by decide) hL) _ _ _ (.inr ?_)).trans ?_) | (intro; rfl) | split | (intro; split) | rfl)

theorem rest_askEnable {L : List Part} (hL : sub [.ports] L = true) (s : State) (p : Port) :
    rest L (askEnable s p) = rest L s := by
  unfold askEnable
  repeat' (first | with_reducible rfl | simp (disch := (first | exact sub_trans (by decide) hL | exact Or.inl (has_of_sub hL (by decide)) | exact Or.inr rfl | exact Or.inr fun _ => rfl | (refine Or.inr ?_; intros; repeat' (first | rfl | split)))) only [↓rest_enablePort, ↓rest_updPort, ↓rest_mk, ↓rest_ite, ite_self] | (with_reducible refine (rest_updPort (sub_trans (by decide) hL) _ _ _ (.inr ?_)).trans ?_) | (intro; rfl) | split | (intro; split) | rfl)

theorem rest_settleEnable {L : List Part} (hL : sub [.ports] L = true) (s : State) (p : Port) :
    rest L (settleEnable s p) = rest L s := by
  unfold settleEnable
  repeat' (first | with_reducible rfl | simp (disch := (first | exact sub_trans (by decide) hL | exact Or.inl (has_of_sub hL (by decide)) | exact Or.inr rfl | exact Or.inr fun _ => rfl | (refine Or.inr ?_; intros; repeat' (first | rfl | split)))) only [↓rest_enablePort, ↓rest_mk, ↓rest_ite, ite_self] | (intro; rfl) | split | (intro; split) | rfl)

theorem rest_writePortControl {L : List Part} (hL : sub [.ctxs, .raised, .ports, .health, .eng, .media, .dig, .kf, .ctr] L = true) (s : State) (p : Port) (value : Word) :
    rest L (writePortControl s p value) = rest L s := by
  unfold writePortControl
  repeat' (first | with_reducible rfl | simp (disch := (first | exact sub_trans (by decide) hL | exact Or.inl (has_of_sub hL (by decide)) | exact Or.inr rfl | exact Or.inr fun _ => rfl | (refine Or.inr ?_; intros; repeat' (first | rfl | split)))) only [↓rest_askEnable, ↓rest_disablePort, ↓rest_updPort, ↓rest_mk, ↓rest_ite, ite_self] | (with_reducible refine (rest_updPort (sub_trans (by decide) hL) _ _ _ (.inr ?_)).trans ?_) | (intro; rfl) | split | (intro; split) | rfl)

theorem rest_execConfigRequest {L : List Part} (hL : sub [.ports] L = true) (port : Port) (s : State) :
    ∃ tv, execConfigRequest port s = .next tv ∧ rest L tv = rest L s := by
  unfold execConfigRequest
  repeat' (first | (refine ⟨_, rfl, ?_⟩) | with_reducible rfl | simp (disch := (first | exact sub_trans (by decide) hL | exact Or.inl (has_of_sub hL (by decide)) | exact Or.inr rfl | exact Or.inr fun _ => rfl | (refine Or.inr ?_; intros; repeat' (first | rfl | split)))) only [↓rest_updPort, ↓rest_mk, ↓rest_ite, ite_self] | (with_reducible refine (rest_updPort (sub_trans (by decide) hL) _ _ _ (.inr ?_)).trans ?_) | (intro; rfl) | split | (intro; split) | rfl)

theorem rest_execPortEnable {L : List Part} (hL : sub [.out, .ctxs, .evSeq, .evHist, .raised, .condFrom, .ports, .health, .eng, .media, .dig, .kf, .ctr] L = true) (port : Port) (value : Word) (s : State) :
    ∃ tv, execPortEnable port value s = .next tv ∧ rest L tv = rest L s := by
  unfold execPortEnable
  repeat' (first | (refine ⟨_, rfl, ?_⟩) | with_reducible rfl | simp (disch := (first | exact sub_trans (by decide) hL | exact Or.inl (has_of_sub hL (by decide)) | exact Or.inr rfl | exact Or.inr fun _ => rfl | (refine Or.inr ?_; intros; repeat' (first | rfl | split)))) only [↓rest_endCycle, ↓rest_writePortControl, ↓rest_mk, ↓rest_ite, ite_self] | (intro; rfl) | split | (intro; split) | rfl)

theorem rest_execPortDisable {L : List Part} (hL : sub [.out, .ctxs, .evSeq, .evHist, .raised, .condFrom, .ports, .health, .eng, .media, .dig, .kf, .ctr] L = true) (port : Port) (value : Word) (s : State) :
    ∃ tv, execPortDisable port value s = .next tv ∧ rest L tv = rest L s := by
  unfold execPortDisable
  repeat' (first | (refine ⟨_, rfl, ?_⟩) | with_reducible rfl | simp (disch := (first | exact sub_trans (by decide) hL | exact Or.inl (has_of_sub hL (by decide)) | exact Or.inr rfl | exact Or.inr fun _ => rfl | (refine Or.inr ?_; intros; repeat' (first | rfl | split)))) only [↓rest_endCycle, ↓rest_writePortControl, ↓rest_mk, ↓rest_ite, ite_self] | (intro; rfl) | split | (intro; split) | rfl)

theorem rest_execPortShutdown {L : List Part} (hL : sub [.out, .ctxs, .evSeq, .evHist, .raised, .condFrom, .ports, .health, .eng, .media, .dig, .kf, .ctr] L = true) (port : Port) (value : Word) (s : State) :
    ∃ tv, execPortShutdown port value s = .next tv ∧ rest L tv = rest L s := by
  unfold execPortShutdown
  repeat' (first | (refine ⟨_, rfl, ?_⟩) | with_reducible rfl | simp (disch := (first | exact sub_trans (by decide) hL | exact Or.inl (has_of_sub hL (by decide)) | exact Or.inr rfl | exact Or.inr fun _ => rfl | (refine Or.inr ?_; intros; repeat' (first | rfl | split)))) only [↓rest_endCycle, ↓rest_writePortControl, ↓rest_mk, ↓rest_ite, ite_self] | (intro; rfl) | split | (intro; split) | rfl)

theorem rest_execPortDrainDone {L : List Part} (hL : sub [.out, .ctxs, .evSeq, .evHist, .raised, .condFrom, .ports, .health, .eng, .media, .dig, .ctr] L = true) (port : Port) (s : State) :
    ∃ tv, execPortDrainDone port s = .next tv ∧ rest L tv = rest L s := by
  unfold execPortDrainDone
  repeat' (first | (refine ⟨_, rfl, ?_⟩) | with_reducible rfl | simp (disch := (first | exact sub_trans (by decide) hL | exact Or.inl (has_of_sub hL (by decide)) | exact Or.inr rfl | exact Or.inr fun _ => rfl | (refine Or.inr ?_; intros; repeat' (first | rfl | split)))) only [↓rest_endCycle, ↓rest_finishDrain, ↓rest_settleEnable, ↓rest_mk, ↓rest_ite, ite_self] | (intro; rfl) | split | (intro; split) | rfl)

theorem rest_execFunctionLevelReset {L : List Part} (hL : sub [.out, .ctxs, .evSeq, .evHist, .raised, .condFrom, .ports, .portCtl, .health, .eng, .media, .dig, .kf, .ctr] L = true) (port : Port) (s : State) :
    ∃ tv, execFunctionLevelReset port s = .next tv ∧ rest L tv = rest L s := by
  unfold execFunctionLevelReset
  repeat' (first | (refine ⟨_, rfl, ?_⟩) | with_reducible rfl | simp (disch := (first | exact sub_trans (by decide) hL | exact Or.inl (has_of_sub hL (by decide)) | exact Or.inr rfl | exact Or.inr fun _ => rfl | (refine Or.inr ?_; intros; repeat' (first | rfl | split)))) only [↓rest_disablePort, ↓rest_endCycle, ↓rest_resetPortRegs, ↓rest_mk, ↓rest_ite, ite_self] | (intro; rfl) | split | (intro; split) | rfl)

theorem rest_bothLost {L : List Part} (hL : sub [.ports] L = true) (s : State) (p : Port) :
    rest L (bothLost s p) = rest L s := by
  unfold bothLost
  repeat' (first | with_reducible rfl | simp (disch := (first | exact sub_trans (by decide) hL | exact Or.inl (has_of_sub hL (by decide)) | exact Or.inr rfl | exact Or.inr fun _ => rfl | (refine Or.inr ?_; intros; repeat' (first | rfl | split)))) only [↓rest_updPort, ↓rest_mk, ↓rest_ite, ite_self] | (with_reducible refine (rest_updPort (sub_trans (by decide) hL) _ _ _ (.inr ?_)).trans ?_) | (intro; rfl) | split | (intro; split) | rfl)

theorem rest_loseLink {L : List Part} (hL : sub [.ctxs, .raised, .ports, .health, .eng, .media, .dig, .kf, .ctr] L = true) (s : State) (p : Port) :
    rest L (loseLink s p) = rest L s := by
  unfold loseLink
  repeat' (first | with_reducible rfl | simp (disch := (first | exact sub_trans (by decide) hL | exact Or.inl (has_of_sub hL (by decide)) | exact Or.inr rfl | exact Or.inr fun _ => rfl | (refine Or.inr ?_; intros; repeat' (first | rfl | split)))) only [↓rest_bothLost, ↓rest_disablePort, ↓rest_updPort, ↓rest_mk, ↓rest_ite, ite_self] | (with_reducible refine (rest_updPort (sub_trans (by decide) hL) _ _ _ (.inr ?_)).trans ?_) | (intro; rfl) | split | (intro; split) | rfl)

theorem rest_execPerstAssert {L : List Part} (hL : sub [.out, .ctxs, .evSeq, .evHist, .raised, .condFrom, .ports, .portCtl, .health, .eng, .media, .dig, .kf, .ctr] L = true) (port : Port) (s : State) :
    ∃ tv, execPerstAssert port s = .next tv ∧ rest L tv = rest L s := by
  unfold execPerstAssert
  repeat' (first | (refine ⟨_, rfl, ?_⟩) | with_reducible rfl | simp (disch := (first | exact sub_trans (by decide) hL | exact Or.inl (has_of_sub hL (by decide)) | exact Or.inr rfl | exact Or.inr fun _ => rfl | (refine Or.inr ?_; intros; repeat' (first | rfl | split)))) only [↓rest_endCycle, ↓rest_loseLink, ↓rest_resetPortRegs, ↓rest_updPort, ↓rest_mk, ↓rest_ite, ite_self] | (with_reducible refine (rest_updPort (sub_trans (by decide) hL) _ _ _ (.inr ?_)).trans ?_) | (intro; rfl) | split | (intro; split) | rfl)

theorem rest_execSurpriseDown {L : List Part} (hL : sub [.out, .ctxs, .evSeq, .evHist, .raised, .condFrom, .ports, .health, .eng, .media, .dig, .kf, .ctr] L = true) (port : Port) (s : State) :
    ∃ tv, execSurpriseDown port s = .next tv ∧ rest L tv = rest L s := by
  unfold execSurpriseDown
  repeat' (first | (refine ⟨_, rfl, ?_⟩) | with_reducible rfl | simp (disch := (first | exact sub_trans (by decide) hL | exact Or.inl (has_of_sub hL (by decide)) | exact Or.inr rfl | exact Or.inr fun _ => rfl | (refine Or.inr ?_; intros; repeat' (first | rfl | split)))) only [↓rest_endCycle, ↓rest_loseLink, ↓rest_mk, ↓rest_ite, ite_self] | (intro; rfl) | split | (intro; split) | rfl)

end Sys2Proof.Laws
end

