-- ==== Sys2Proof/Laws/FramesQueues.lean ====
section
/-! SUPPORT. Which parts of the state the operations of Machine/Queues.lean may change. -/
namespace Sys2Proof.Laws
open Sys2Proof Sys2Proof.Machine

set_option linter.unreachableTactic false
set_option linter.unusedTactic false

set_option linter.unusedSimpArgs false

theorem rest_doorbellError {L : List Part} (hL : sub [.errSeq, .raised, .ports] L = true) (s : State) (p : Port) (q origin written before : Nat) :
    rest L (doorbellError s p q origin written before) = rest L s := by
  unfold doorbellError
  repeat' (first | with_reducible rfl | simp (disch := (first | exact sub_trans (by decide) hL | exact Or.inl (has_of_sub hL (by decide)) | exact Or.inr rfl | exact Or.inr fun _ => rfl | (refine Or.inr ?_; intros; repeat' (first | rfl | split)))) only [↓rest_logError, ↓rest_raiseEvent, ↓rest_mk, ↓rest_ite, ite_self] | (intro; rfl) | split | (intro; split) | rfl)

theorem rest_settleRound {L : List Part} (hL : sub [.ports] L = true) (s : State) (p : Port) :
    rest L (settleRound s p) = rest L s := by
  unfold settleRound
  repeat' (first | with_reducible rfl | simp (disch := (first | exact sub_trans (by decide) hL | exact Or.inl (has_of_sub hL (by decide)) | exact Or.inr rfl | exact Or.inr fun _ => rfl | (refine Or.inr ?_; intros; repeat' (first | rfl | split)))) only [↓rest_setPort, ↓rest_mk, ↓rest_ite, ite_self] | (with_reducible refine (rest_setPort (sub_trans (by decide) hL) _ _ _ (.inr ?_)).trans ?_) | (intro; rfl) | split | (intro; split) | rfl)

theorem rest_putBellQueue {L : List Part} (hL : sub [.ports, .twin] L = true) (s : State) (p : Port) (k : Queue) (mirrored : Bool) :
    rest L (putBellQueue s p k mirrored) = rest L s := by
  unfold putBellQueue
  repeat' (first | with_reducible rfl | simp (disch := (first | exact sub_trans (by decide) hL | exact Or.inl (has_of_sub hL (by decide)) | exact Or.inr rfl | exact Or.inr fun _ => rfl | (refine Or.inr ?_; intros; repeat' (first | rfl | split)))) only [↓rest_updQueue, ↓rest_updTwin, ↓rest_mk, ↓rest_ite, ite_self] | (with_reducible refine (rest_updTwin (sub_trans (by decide) hL) _ _ (.inr ?_)).trans ?_) | (intro; rfl) | split | (intro; split) | rfl)

theorem rest_bellAccepted {L : List Part} (hL : sub [.ports, .twin, .ctr] L = true) (s : State) (p : Port) (q v : Nat) (isHead : Bool) :
    rest L (bellAccepted s p q v isHead) = rest L s := by
  unfold bellAccepted
  repeat' (first | with_reducible rfl | simp (disch := (first | exact sub_trans (by decide) hL | exact Or.inl (has_of_sub hL (by decide)) | exact Or.inr rfl | exact Or.inr fun _ => rfl | (refine Or.inr ?_; intros; repeat' (first | rfl | split)))) only [↓rest_countEvent, ↓rest_mirrorFrame, ↓rest_settleRound, ↓rest_mk, ↓rest_ite, ite_self] | (intro; rfl) | split | (intro; split) | rfl)

theorem rest_bellIgnored {L : List Part} (hL : sub [.ports] L = true) (s : State) (p : Port) (wellSized : Bool) :
    rest L (bellIgnored s p wellSized) = rest L s := by
  unfold bellIgnored
  repeat' (first | with_reducible rfl | simp (disch := (first | exact sub_trans (by decide) hL | exact Or.inl (has_of_sub hL (by decide)) | exact Or.inr rfl | exact Or.inr fun _ => rfl | (refine Or.inr ?_; intros; repeat' (first | rfl | split)))) only [↓rest_updPort, ↓rest_mk, ↓rest_ite, ite_self] | (with_reducible refine (rest_updPort (sub_trans (by decide) hL) _ _ _ (.inr ?_)).trans ?_) | (intro; rfl) | split | (intro; split) | rfl)

theorem rest_writeTail {L : List Part} (hL : sub [.errSeq, .raised, .ports, .twin, .ctr] L = true) (t : State) (port : Port) (queue : Nat) (value : Word) (wellSized : Bool) :
    rest L (writeTail t port queue value wellSized) = rest L t := by
  unfold writeTail
  repeat' (first | with_reducible rfl | simp (disch := (first | exact sub_trans (by decide) hL | exact Or.inl (has_of_sub hL (by decide)) | exact Or.inr rfl | exact Or.inr fun _ => rfl | (refine Or.inr ?_; intros; repeat' (first | rfl | split)))) only [↓rest_bellAccepted, ↓rest_bellIgnored, ↓rest_doorbellError, ↓rest_putBellQueue, ↓rest_mk, ↓rest_ite, ite_self] | (intro; rfl) | split | (intro; split) | rfl)

theorem rest_execSqTailDoorbell {L : List Part} (hL : sub [.now, .out, .errSeq, .evSeq, .evHist, .raised, .condFrom, .ports, .twin, .power, .ctr] L = true) (port : Port) (queue : Nat) (value : Word) (wellSized : Bool) (cyc : Nat) (s : State) :
    ∃ tv, execSqTailDoorbell port queue value wellSized cyc s = .next tv ∧ rest L tv = rest L s := by
  unfold execSqTailDoorbell
  repeat' (first | (refine ⟨_, rfl, ?_⟩) | with_reducible rfl | simp (disch := (first | exact sub_trans (by decide) hL | exact Or.inl (has_of_sub hL (by decide)) | exact Or.inr rfl | exact Or.inr fun _ => rfl | (refine Or.inr ?_; intros; repeat' (first | rfl | split)))) only [↓rest_advanceTo, ↓rest_endCycle, ↓rest_writeTail, ↓rest_mk, ↓rest_ite, ite_self] | (intro; rfl) | split | (intro; split) | rfl)

theorem rest_settleDelete {L : List Part} (hL : sub [.ctxs, .ports, .twin] L = true) (s : State) (p : Port) (q : Nat) :
    rest L (settleDelete s p q) = rest L s := by
  unfold settleDelete
  repeat' (first | with_reducible rfl | simp (disch := (first | exact sub_trans (by decide) hL | exact Or.inl (has_of_sub hL (by decide)) | exact Or.inr rfl | exact Or.inr fun _ => rfl | (refine Or.inr ?_; intros; repeat' (first | rfl | split)))) only [↓rest_dropQueue, ↓rest_performState, ↓rest_mk, ↓rest_ite, ite_self] | (intro; rfl) | split | (intro; split) | rfl)

theorem rest_writeHead {L : List Part} (hL : sub [.ctxs, .errSeq, .raised, .ports, .twin, .ctr] L = true) (t : State) (port : Port) (queue : Nat) (value : Word) (wellSized : Bool) :
    rest L (writeHead t port queue value wellSized) = rest L t := by
  unfold writeHead
  repeat' (first | with_reducible rfl | simp (disch := (first | exact sub_trans (by decide) hL | exact Or.inl (has_of_sub hL (by decide)) | exact Or.inr rfl | exact Or.inr fun _ => rfl | (refine Or.inr ?_; intros; repeat' (first | rfl | split)))) only [↓rest_bellAccepted, ↓rest_bellIgnored, ↓rest_doorbellError, ↓rest_putBellQueue, ↓rest_settleDelete, ↓rest_mk, ↓rest_ite, ite_self] | (intro; rfl) | split | (intro; split) | rfl)

theorem rest_execCqHeadDoorbell {L : List Part} (hL : sub [.now, .out, .ctxs, .errSeq, .evSeq, .evHist, .raised, .condFrom, .ports, .twin, .power, .ctr] L = true) (port : Port) (queue : Nat) (value : Word) (wellSized : Bool) (cyc : Nat) (s : State) :
    ∃ tv, execCqHeadDoorbell port queue value wellSized cyc s = .next tv ∧ rest L tv = rest L s := by
  unfold execCqHeadDoorbell
  repeat' (first | (refine ⟨_, rfl, ?_⟩) | with_reducible rfl | simp (disch := (first | exact sub_trans (by decide) hL | exact Or.inl (has_of_sub hL (by decide)) | exact Or.inr rfl | exact Or.inr fun _ => rfl | (refine Or.inr ?_; intros; repeat' (first | rfl | split)))) only [↓rest_advanceTo, ↓rest_endCycle, ↓rest_writeHead, ↓rest_mk, ↓rest_ite, ite_self] | (intro; rfl) | split | (intro; split) | rfl)

theorem rest_fetchOne {L : List Part} (hL : sub [.ctxs, .ports, .ctr] L = true) (s : State) (p : Port) (q : Nat) (dw : List Word) :
    rest L (fetchOne s p q dw) = rest L s := by
  unfold fetchOne
  repeat' (first | with_reducible exact none_imp | (with_reducible refine rest_or _ _ ?_ ?_) | (with_reducible refine rest_some ?_) | (with_reducible refine rest_some1 ?_) | (with_reducible refine rest_map _ _ (fun x hx => ?_)) | (with_reducible refine rest_map1 _ _ (fun x hx => ?_)) | (with_reducible refine bind_imp _ _ (fun x hx => ?_)) | (with_reducible refine findSome_imp _ _ (fun x => ?_)) | with_reducible rfl | simp (disch := (first | exact sub_trans (by decide) hL | exact Or.inl (has_of_sub hL (by decide)) | exact Or.inr rfl | exact Or.inr fun _ => rfl | (refine Or.inr ?_; intros; repeat' (first | rfl | split)))) only [↓rest_countEvent, ↓rest_updQueue, ↓rest_mk, ↓rest_ite, ite_self] | (with_reducible refine (rest_getD _ _ (fun u => ?_)).trans ?_) | (intro; rfl) | split | (intro; split) | rfl)

theorem selectQueue_ctl {s : State} {p : Port} {k : Queue} {x : PortSt} (h : selectQueue s p = some (k, x)) :
    portCtl x = portCtl (portOf s p) := by
  unfold selectQueue at h
  dsimp only at h
  repeat' split at h
  · cases h
  · cases h; rfl
  · obtain ⟨r, _, hr⟩ := Option.map_eq_some_iff.mp h
    cases hr; rfl

theorem rest_execSubmissionFetch {L : List Part} (hL : sub [.now, .ctxs, .ports, .power, .ctr] L = true) (port : Port) (entries : List (List Word)) (cyc : Nat) (s : State) :
    ∃ tv, execSubmissionFetch port entries cyc s = .next tv ∧ rest L tv = rest L s := by
  unfold execSubmissionFetch
  repeat' (first | (refine ⟨_, rfl, ?_⟩) | with_reducible rfl | (with_reducible refine (rest_foldl _ (fun t x => ?_) _ _).trans ?_) | simp (disch := (first | exact sub_trans (by decide) hL | exact Or.inl (has_of_sub hL (by decide)) | exact Or.inr rfl | exact Or.inr fun _ => rfl | (refine Or.inr ?_; intros; repeat' (first | rfl | split)))) only [↓rest_advanceTo, ↓rest_fetchOne, ↓rest_settleRound, ↓rest_setPort, ↓rest_mk, ↓rest_ite, ite_self] | (with_reducible refine (rest_foldl1 _ (fun t x => ?_) _ _).trans ?_) | (with_reducible refine (rest_setPort (sub_trans (by decide) hL) _ _ _ (.inr ?_)).trans ?_) | (exact selectQueue_ctl (by assumption)) | (intro; rfl) | split | (intro; split) | rfl)

theorem rest_refuseEntry {L : List Part} (hL : sub [.ctxs, .errSeq, .ports, .ctr] L = true) (s : State) (cid : Nat) (v : Verdict) :
    rest L (refuseEntry s cid v) = rest L s := by
  unfold refuseEntry
  repeat' (first | with_reducible rfl | simp (disch := (first | exact sub_trans (by decide) hL | exact Or.inl (has_of_sub hL (by decide)) | exact Or.inr rfl | exact Or.inr fun _ => rfl | (refine Or.inr ?_; intros; repeat' (first | rfl | split)))) only [↓rest_decide_, ↓rest_retire, ↓rest_mk, ↓rest_ite, ite_self] | (intro; rfl) | split | (intro; split) | rfl)

theorem rest_execEntryFetchFault {L : List Part} (hL : sub [.now, .ctxs, .errSeq, .ports, .power, .ctr] L = true) (port : Port) (kind : Nat) (cyc : Nat) (s : State) :
    ∃ tv, execEntryFetchFault port kind cyc s = .next tv ∧ rest L tv = rest L s := by
  unfold execEntryFetchFault
  repeat' (first | (refine ⟨_, rfl, ?_⟩) | with_reducible rfl | simp (disch := (first | exact sub_trans (by decide) hL | exact Or.inl (has_of_sub hL (by decide)) | exact Or.inr rfl | exact Or.inr fun _ => rfl | (refine Or.inr ?_; intros; repeat' (first | rfl | split)))) only [↓rest_advanceTo, ↓rest_fetchOne, ↓rest_refuseEntry, ↓rest_setPort, ↓rest_mk, ↓rest_ite, ite_self] | (with_reducible refine (rest_setPort (sub_trans (by decide) hL) _ _ _ (.inr ?_)).trans ?_) | (exact selectQueue_ctl (by assumption)) | (intro; rfl) | split | (intro; split) | rfl)

theorem rest_reserveBlock {L : List Part} (hL : sub [.csnBlock, .jrnl, .twin] L = true) (s : State) :
    rest L (reserveBlock s) = rest L s := by
  unfold reserveBlock
  repeat' (first | with_reducible rfl | simp (disch := (first | exact sub_trans (by decide) hL | exact Or.inl (has_of_sub hL (by decide)) | exact Or.inr rfl | exact Or.inr fun _ => rfl | (refine Or.inr ?_; intros; repeat' (first | rfl | split)))) only [↓rest_journal, ↓rest_mk, ↓rest_ite, ite_self] | (intro; rfl) | split | (intro; split) | rfl)

theorem rest_drawInterval {L : List Part} (hL : sub [.free, .ctr] L = true) (s : State) :
    rest L (drawInterval s) = rest L s := by
  unfold drawInterval
  repeat' (first | with_reducible rfl | simp (disch := (first | exact sub_trans (by decide) hL | exact Or.inl (has_of_sub hL (by decide)) | exact Or.inr rfl | exact Or.inr fun _ => rfl | (refine Or.inr ?_; intros; repeat' (first | rfl | split)))) only [↓rest_drawFree, ↓rest_updCtr, ↓rest_mk, ↓rest_ite, ite_self] | (with_reducible refine (rest_updCtr (sub_trans (by decide) hL) _ _ (.inr ?_)).trans ?_) | (intro; rfl) | split | (intro; split) | rfl)

theorem rest_selectSample {L : List Part} (hL : sub [.free, .ctxs, .ctr] L = true) (s : State) (c : Ctx) :
    rest L (selectSample s c) = rest L s := by
  unfold selectSample
  repeat' (first | with_reducible rfl | simp (disch := (first | exact sub_trans (by decide) hL | exact Or.inl (has_of_sub hL (by decide)) | exact Or.inr rfl | exact Or.inr fun _ => rfl | (refine Or.inr ?_; intros; repeat' (first | rfl | split)))) only [↓rest_drawInterval, ↓rest_updCtx, ↓rest_updCtr, ↓rest_mk, ↓rest_ite, ite_self] | (with_reducible refine (rest_updCtr (sub_trans (by decide) hL) _ _ (.inr ?_)).trans ?_) | (intro; rfl) | split | (intro; split) | rfl)

theorem rest_discardFetched {L : List Part} (hL : sub [.ctxs] L = true) (s : State) (p : Port) (q : Nat) :
    rest L (discardFetched s p q) = rest L s := by
  unfold discardFetched
  repeat' (first | with_reducible rfl | simp (disch := (first | exact sub_trans (by decide) hL | exact Or.inl (has_of_sub hL (by decide)) | exact Or.inr rfl | exact Or.inr fun _ => rfl | (refine Or.inr ?_; intros; repeat' (first | rfl | split)))) only [↓rest_mk, ↓rest_ite, ite_self] | (intro; rfl) | split | (intro; split) | rfl)

theorem rest_admissionEffect {L : List Part} (hL : sub [.ctxs, .ports, .map, .dig] L = true) (s : State) (c : Ctx) :
    rest L (admissionEffect s c) = rest L s := by
  unfold admissionEffect
  repeat' (first | with_reducible rfl | simp (disch := (first | exact sub_trans (by decide) hL | exact Or.inl (has_of_sub hL (by decide)) | exact Or.inr rfl | exact Or.inr fun _ => rfl | (refine Or.inr ?_; intros; repeat' (first | rfl | split)))) only [↓rest_discardFetched, ↓rest_updQueue, ↓rest_updDig, ↓rest_updMap, ↓rest_mk, ↓rest_ite, ite_self] | (intro; rfl) | split | (intro; split) | rfl)

theorem rest_startAct {L : List Part} (hL : sub [.side] L = true) (s : State) :
    rest L (startAct s) = rest L s := by
  unfold startAct
  repeat' (first | with_reducible rfl | simp (disch := (first | exact sub_trans (by decide) hL | exact Or.inl (has_of_sub hL (by decide)) | exact Or.inr rfl | exact Or.inr fun _ => rfl | (refine Or.inr ?_; intros; repeat' (first | rfl | split)))) only [↓rest_updSide, ↓rest_mk, ↓rest_ite, ite_self] | (with_reducible refine (rest_updSide (sub_trans (by decide) hL) _ _ (.inr ?_)).trans ?_) | (intro; rfl) | split | (intro; split) | rfl)

theorem rest_admitCmd {L : List Part} (hL : sub [.free, .csnNext, .csnIssued, .csnBlock, .ctxs, .ports, .map, .media, .jrnl, .twin, .dig, .ctr, .side] L = true) (s : State) (c : Ctx) :
    rest L (admitCmd s c) = rest L s := by
  unfold admitCmd
  repeat' (first | with_reducible rfl | simp (disch := (first | exact sub_trans (by decide) hL | exact Or.inl (has_of_sub hL (by decide)) | exact Or.inr rfl | exact Or.inr fun _ => rfl | (refine Or.inr ?_; intros; repeat' (first | rfl | split)))) only [↓rest_admissionEffect, ↓rest_countEvent, ↓rest_mirrorFrame, ↓rest_reserveBlock, ↓rest_selectSample, ↓rest_settleFull, ↓rest_startAct, ↓rest_updJrnl, ↓rest_mk, ↓rest_ite, ite_self] | (intro; rfl) | split | (intro; split) | rfl)

theorem rest_execAdmission {L : List Part} (hL : sub [.now, .free, .csnNext, .csnIssued, .csnBlock, .ctxs, .errSeq, .ports, .map, .media, .jrnl, .twin, .dig, .power, .ctr, .side] L = true) (port : Port) (queue : Nat) (list : ListRead) (late : Bool) (cyc : Nat) (s : State) :
    ∃ tv, execAdmission port queue list late cyc s = .next tv ∧ rest L tv = rest L s := by
  unfold execAdmission
  repeat' (first | (refine ⟨_, rfl, ?_⟩) | with_reducible rfl | simp (disch := (first | exact sub_trans (by decide) hL | exact Or.inl (has_of_sub hL (by decide)) | exact Or.inr rfl | exact Or.inr fun _ => rfl | (refine Or.inr ?_; intros; repeat' (first | rfl | split)))) only [↓rest_admitCmd, ↓rest_advanceTo, ↓rest_refuseEntry, ↓rest_updCtx, ↓rest_mk, ↓rest_ite, ite_self] | (intro; rfl) | split | (intro; split) | rfl)

theorem rest_recordSample {L : List Part} (hL : sub [.ctr] L = true) (s : State) (c : Ctx) :
    rest L (recordSample s c) = rest L s := by
  unfold recordSample
  repeat' (first | with_reducible rfl | simp (disch := (first | exact sub_trans (by decide) hL | exact Or.inl (has_of_sub hL (by decide)) | exact Or.inr rfl | exact Or.inr fun _ => rfl | (refine Or.inr ?_; intros; repeat' (first | rfl | split)))) only [↓rest_countFixed, ↓rest_updCtr, ↓rest_mk, ↓rest_ite, ite_self] | (with_reducible refine (rest_updCtr (sub_trans (by decide) hL) _ _ (.inr ?_)).trans ?_) | (intro; rfl) | split | (intro; split) | rfl)

theorem rest_sendCqMessage {L : List Part} (hL : sub [.out, .ports] L = true) (s : State) (p : Port) (k : Queue) :
    rest L (sendCqMessage s p k) = rest L s := by
  unfold sendCqMessage
  repeat' (first | with_reducible rfl | simp (disch := (first | exact sub_trans (by decide) hL | exact Or.inl (has_of_sub hL (by decide)) | exact Or.inr rfl | exact Or.inr fun _ => rfl | (refine Or.inr ?_; intros; repeat' (first | rfl | split)))) only [↓rest_signal, ↓rest_updQueue, ↓rest_mk, ↓rest_ite, ite_self] | (intro; rfl) | split | (intro; split) | rfl)

theorem rest_dropStanding {L : List Part} (hL : sub [.dig] L = true) (s : State) (c : Ctx) :
    rest L (dropStanding s c) = rest L s := by
  unfold dropStanding
  repeat' (first | with_reducible rfl | simp (disch := (first | exact sub_trans (by decide) hL | exact Or.inl (has_of_sub hL (by decide)) | exact Or.inr rfl | exact Or.inr fun _ => rfl | (refine Or.inr ?_; intros; repeat' (first | rfl | split)))) only [↓rest_updDig, ↓rest_mk, ↓rest_ite, ite_self] | (intro; rfl) | split | (intro; split) | rfl)

theorem rest_post {L : List Part} (hL : sub [.out, .ctxs, .ports, .twin, .dig, .ctr] L = true) (s : State) (c : Ctx) (k : Queue) :
    rest L (post s c k) = rest L s := by
  unfold post
  repeat' (first | with_reducible rfl | simp (disch := (first | exact sub_trans (by decide) hL | exact Or.inl (has_of_sub hL (by decide)) | exact Or.inr rfl | exact Or.inr fun _ => rfl | (refine Or.inr ?_; intros; repeat' (first | rfl | split)))) only [↓rest_countEvent, ↓rest_dropCtx, ↓rest_dropEnded, ↓rest_dropStanding, ↓rest_emit, ↓rest_recordSample, ↓rest_retire, ↓rest_sendCqMessage, ↓rest_sendFrame, ↓rest_updQueue, ↓rest_mk, ↓rest_ite, ite_self] | (intro; rfl) | split | (intro; split) | rfl)

theorem rest_execCompletionPost {L : List Part} (hL : sub [.now, .out, .ctxs, .ports, .twin, .dig, .power, .ctr] L = true) (cid : Nat) (cyc : Nat) (s : State) :
    ∃ tv, execCompletionPost cid cyc s = .next tv ∧ rest L tv = rest L s := by
  unfold execCompletionPost
  repeat' (first | (refine ⟨_, rfl, ?_⟩) | with_reducible rfl | simp (disch := (first | exact sub_trans (by decide) hL | exact Or.inl (has_of_sub hL (by decide)) | exact Or.inr rfl | exact Or.inr fun _ => rfl | (refine Or.inr ?_; intros; repeat' (first | rfl | split)))) only [↓rest_advanceTo, ↓rest_post, ↓rest_settleDelete, ↓rest_mk, ↓rest_ite, ite_self] | (intro; rfl) | split | (intro; split) | rfl)

theorem rest_applyRestart {L : List Part} (hL : sub [.ctxs, .ports] L = true) (s : State) (p : Port) (k : Queue) (r : Restart) :
    rest L (applyRestart s p k r).1 = rest L s := by
  unfold applyRestart
  repeat' (first | with_reducible rfl | simp (disch := (first | exact sub_trans (by decide) hL | exact Or.inl (has_of_sub hL (by decide)) | exact Or.inr rfl | exact Or.inr fun _ => rfl | (refine Or.inr ?_; intros; repeat' (first | rfl | split)))) only [↓rest_discardFetched, ↓rest_updQueue, ↓rest_mk, ↓rest_ite, ite_self] | (intro; rfl) | split | (intro; split) | rfl)
theorem rest_applyRestart_eq {L : List Part} (hL : sub [.ctxs, .ports] L = true) (s : State) (p : Port) (k : Queue) (r : Restart) {uu aa} (hq : applyRestart s p k r = (uu, aa)) : rest L uu = rest L s := by
  have k := rest_applyRestart hL s p k r
  rw [hq] at k
  exact k

theorem rest_restartResult {L : List Part} (hL : sub [.ctxs, .twin] L = true) (s : State) (p : Port) (q : Nat) (cid : Option Nat) (r0 r1 : Nat) :
    rest L (restartResult s p q cid r0 r1) = rest L s := by
  unfold restartResult
  repeat' (first | with_reducible rfl | simp (disch := (first | exact sub_trans (by decide) hL | exact Or.inl (has_of_sub hL (by decide)) | exact Or.inr rfl | exact Or.inr fun _ => rfl | (refine Or.inr ?_; intros; repeat' (first | rfl | split)))) only [↓rest_performState, ↓rest_mk, ↓rest_ite, ite_self] | (intro; rfl) | split | (intro; split) | rfl)

theorem rest_execQueueRestartDone {L : List Part} (hL : sub [.ctxs, .ports, .twin] L = true) (port : Port) (queue : Nat) (s : State) :
    ∃ tv, execQueueRestartDone port queue s = .next tv ∧ rest L tv = rest L s := by
  unfold execQueueRestartDone
  repeat' (first | (refine ⟨_, rfl, ?_⟩) | with_reducible rfl | simp (disch := (first | exact sub_trans (by decide) hL | exact Or.inl (has_of_sub hL (by decide)) | exact Or.inr rfl | exact Or.inr fun _ => rfl | (refine Or.inr ?_; intros; repeat' (first | rfl | split)))) only [↓rest_applyRestart, ↓rest_restartResult, ↓rest_updQueue, ↓rest_mk, ↓rest_ite, ite_self] | (with_reducible refine (rest_applyRestart_eq (sub_trans (by decide) hL) _ _ _ _ (by assumption)).trans ?_) | (intro; rfl) | split | (intro; split) | rfl)

theorem rest_execCoalesceTimerExpiry {L : List Part} (hL : sub [.now, .out, .ports, .power, .ctr] L = true) (port : Port) (queue : Nat) (cyc : Nat) (s : State) :
    ∃ tv, execCoalesceTimerExpiry port queue cyc s = .next tv ∧ rest L tv = rest L s := by
  unfold execCoalesceTimerExpiry
  repeat' (first | (refine ⟨_, rfl, ?_⟩) | with_reducible rfl | simp (disch := (first | exact sub_trans (by decide) hL | exact Or.inl (has_of_sub hL (by decide)) | exact Or.inr rfl | exact Or.inr fun _ => rfl | (refine Or.inr ?_; intros; repeat' (first | rfl | split)))) only [↓rest_advanceTo, ↓rest_sendCqMessage, ↓rest_mk, ↓rest_ite, ite_self] | (intro; rfl) | split | (intro; split) | rfl)

theorem rest_sendPending {L : List Part} (hL : sub [.out, .ports] L = true) (s : State) (p : Port) :
    rest L (sendPending s p) = rest L s := by
  unfold sendPending
  repeat' (first | with_reducible rfl | (with_reducible refine (rest_foldl _ (fun t x => ?_) _ _).trans ?_) | simp (disch := (first | exact sub_trans (by decide) hL | exact Or.inl (has_of_sub hL (by decide)) | exact Or.inr rfl | exact Or.inr fun _ => rfl | (refine Or.inr ?_; intros; repeat' (first | rfl | split)))) only [↓rest_emit, ↓rest_updPort, ↓rest_mk, ↓rest_ite, ite_self] | (with_reducible refine (rest_foldl1 _ (fun t x => ?_) _ _).trans ?_) | (with_reducible refine (rest_updPort (sub_trans (by decide) hL) _ _ _ (.inr ?_)).trans ?_) | (intro; rfl) | split | (intro; split) | rfl)

theorem rest_execMsixUnmask {L : List Part} (hL : sub [.out, .ports, .portCtl] L = true) (port : Port) (vector : Option Nat) (s : State) :
    ∃ tv, execMsixUnmask port vector s = .next tv ∧ rest L tv = rest L s := by
  unfold execMsixUnmask
  repeat' (first | (refine ⟨_, rfl, ?_⟩) | with_reducible rfl | simp (disch := (first | exact sub_trans (by decide) hL | exact Or.inl (has_of_sub hL (by decide)) | exact Or.inr rfl | exact Or.inr fun _ => rfl | (refine Or.inr ?_; intros; repeat' (first | rfl | split)))) only [↓rest_sendPending, ↓rest_updPort, ↓rest_mk, ↓rest_ite, ite_self] | (with_reducible refine (rest_updPort (sub_trans (by decide) hL) _ _ _ (.inr ?_)).trans ?_) | (intro; rfl) | split | (intro; split) | rfl)

theorem rest_writeEventCtrl {L : List Part} (hL : sub [.ports] L = true) (s : State) (p : Port) (value : Word) :
    rest L (writeEventCtrl s p value) = rest L s := by
  unfold writeEventCtrl
  repeat' (first | with_reducible rfl | simp (disch := (first | exact sub_trans (by decide) hL | exact Or.inl (has_of_sub hL (by decide)) | exact Or.inr rfl | exact Or.inr fun _ => rfl | (refine Or.inr ?_; intros; repeat' (first | rfl | split)))) only [↓rest_updPort, ↓rest_mk, ↓rest_ite, ite_self] | (with_reducible refine (rest_updPort (sub_trans (by decide) hL) _ _ _ (.inr ?_)).trans ?_) | (intro; rfl) | split | (intro; split) | rfl)

theorem rest_execEventCtrlWrite {L : List Part} (hL : sub [.ports] L = true) (port : Port) (value : Word) (s : State) :
    ∃ tv, execEventCtrlWrite port value s = .next tv ∧ rest L tv = rest L s := by
  unfold execEventCtrlWrite
  repeat' (first | (refine ⟨_, rfl, ?_⟩) | with_reducible rfl | simp (disch := (first | exact sub_trans (by decide) hL | exact Or.inl (has_of_sub hL (by decide)) | exact Or.inr rfl | exact Or.inr fun _ => rfl | (refine Or.inr ?_; intros; repeat' (first | rfl | split)))) only [↓rest_writeEventCtrl, ↓rest_mk, ↓rest_ite, ite_self] | (intro; rfl) | split | (intro; split) | rfl)

theorem rest_readCsnLo {L : List Part} (hL : sub [.readData, .ports] L = true) (s : State) (port : Port) :
    rest L (readCsnLo s port) = rest L s := by
  unfold readCsnLo
  repeat' (first | with_reducible rfl | simp (disch := (first | exact sub_trans (by decide) hL | exact Or.inl (has_of_sub hL (by decide)) | exact Or.inr rfl | exact Or.inr fun _ => rfl | (refine Or.inr ?_; intros; repeat' (first | rfl | split)))) only [↓rest_updPort, ↓rest_mk, ↓rest_ite, ite_self] | (with_reducible refine (rest_updPort (sub_trans (by decide) hL) _ _ _ (.inr ?_)).trans ?_) | (intro; rfl) | split | (intro; split) | rfl)

theorem rest_execCsnIssuedLoRead {L : List Part} (hL : sub [.readData, .ports] L = true) (port : Port) (s : State) :
    ∃ tv, execCsnIssuedLoRead port s = .next tv ∧ rest L tv = rest L s := by
  unfold execCsnIssuedLoRead
  repeat' (first | (refine ⟨_, rfl, ?_⟩) | with_reducible rfl | simp (disch := (first | exact sub_trans (by decide) hL | exact Or.inl (has_of_sub hL (by decide)) | exact Or.inr rfl | exact Or.inr fun _ => rfl | (refine Or.inr ?_; intros; repeat' (first | rfl | split)))) only [↓rest_readCsnLo, ↓rest_mk, ↓rest_ite, ite_self] | (intro; rfl) | split | (intro; split) | rfl)

theorem rest_execCreateQueue {L : List Part} (hL : sub [.ctxs, .errSeq, .ports, .twin] L = true) (cid : Nat) (s : State) :
    ∃ tv, execCreateQueue cid s = .next tv ∧ rest L tv = rest L s := by
  unfold execCreateQueue
  repeat' (first | (refine ⟨_, rfl, ?_⟩) | with_reducible rfl | simp (disch := (first | exact sub_trans (by decide) hL | exact Or.inl (has_of_sub hL (by decide)) | exact Or.inr rfl | exact Or.inr fun _ => rfl | (refine Or.inr ?_; intros; repeat' (first | rfl | split)))) only [↓rest_addQueue, ↓rest_performState, ↓rest_refuseNow, ↓rest_updPort, ↓rest_mk, ↓rest_ite, ite_self] | (with_reducible refine (rest_updPort (sub_trans (by decide) hL) _ _ _ (.inr ?_)).trans ?_) | (intro; rfl) | split | (intro; split) | rfl)

theorem rest_execDeleteQueue {L : List Part} (hL : sub [.ctxs, .errSeq, .ports, .twin] L = true) (cid : Nat) (s : State) :
    ∃ tv, execDeleteQueue cid s = .next tv ∧ rest L tv = rest L s := by
  unfold execDeleteQueue
  repeat' (first | (refine ⟨_, rfl, ?_⟩) | with_reducible rfl | simp (disch := (first | exact sub_trans (by decide) hL | exact Or.inl (has_of_sub hL (by decide)) | exact Or.inr rfl | exact Or.inr fun _ => rfl | (refine Or.inr ?_; intros; repeat' (first | rfl | split)))) only [↓rest_refuseNow, ↓rest_settleDelete, ↓rest_mk, ↓rest_ite, ite_self] | (intro; rfl) | split | (intro; split) | rfl)

theorem rest_execRestartQueue {L : List Part} (hL : sub [.ctxs, .errSeq, .ports] L = true) (cid : Nat) (s : State) :
    ∃ tv, execRestartQueue cid s = .next tv ∧ rest L tv = rest L s := by
  unfold execRestartQueue
  repeat' (first | (refine ⟨_, rfl, ?_⟩) | with_reducible exact none_imp | (with_reducible refine rest_or _ _ ?_ ?_) | (with_reducible refine rest_some ?_) | (with_reducible refine rest_some1 ?_) | (with_reducible refine rest_map _ _ (fun x hx => ?_)) | (with_reducible refine rest_map1 _ _ (fun x hx => ?_)) | (with_reducible refine bind_imp _ _ (fun x hx => ?_)) | (with_reducible refine findSome_imp _ _ (fun x => ?_)) | with_reducible rfl | simp (disch := (first | exact sub_trans (by decide) hL | exact Or.inl (has_of_sub hL (by decide)) | exact Or.inr rfl | exact Or.inr fun _ => rfl | (refine Or.inr ?_; intros; repeat' (first | rfl | split)))) only [↓rest_refuseNow, ↓rest_updQueue, ↓rest_mk, ↓rest_ite, ite_self] | (with_reducible refine (rest_getD _ _ (fun u => ?_)).trans ?_) | (intro; rfl) | split | (intro; split) | rfl)

theorem rest_execAckResumption {L : List Part} (hL : sub [.ctxs, .ports, .twin] L = true) (cid : Nat) (s : State) :
    ∃ tv, execAckResumption cid s = .next tv ∧ rest L tv = rest L s := by
  unfold execAckResumption
  repeat' (first | (refine ⟨_, rfl, ?_⟩) | with_reducible rfl | simp (disch := (first | exact sub_trans (by decide) hL | exact Or.inl (has_of_sub hL (by decide)) | exact Or.inr rfl | exact Or.inr fun _ => rfl | (refine Or.inr ?_; intros; repeat' (first | rfl | split)))) only [↓rest_performState, ↓rest_updPort, ↓rest_mk, ↓rest_ite, ite_self] | (with_reducible refine (rest_updPort (sub_trans (by decide) hL) _ _ _ (.inr ?_)).trans ?_) | (intro; rfl) | split | (intro; split) | rfl)

end Sys2Proof.Laws
end

