-- ==== Sys2Proof/Laws/FramesIo.lean ====
section
/-! SUPPORT. Which parts of the state the operations of Machine/Io.lean may change. -/
namespace Sys2Proof.Laws
open Sys2Proof Sys2Proof.Machine

set_option linter.unreachableTactic false
set_option linter.unusedTactic false

set_option linter.unusedSimpArgs false

theorem rest_resumePages {L : List Part} (hL : sub [.health, .media, .ctr] L = true) (s : State) (pages : List Madr) :
    rest L (resumePages s pages) = rest L s := by
  unfold resumePages
  repeat' (first | with_reducible rfl | (with_reducible refine (rest_foldl _ (fun t x => ?_) _ _).trans ?_) | simp (disch := (first | exact sub_trans (by decide) hL | exact Or.inl (has_of_sub hL (by decide)) | exact Or.inr rfl | exact Or.inr fun _ => rfl | (refine Or.inr ?_; intros; repeat' (first | rfl | split)))) only [↓rest_programPage, ↓rest_programParity, ↓rest_mk, ↓rest_ite, ite_self] | (with_reducible refine (rest_foldl1 _ (fun t x => ?_) _ _).trans ?_) | (intro; rfl) | split | (intro; split) | rfl)

theorem rest_reslot {L : List Part} (hL : sub [.media] L = true) (s : State) (c : Ctx) (f : StagedUnit → Option Block) :
    rest L (reslot s c f) = rest L s := by
  unfold reslot
  repeat' (first | with_reducible rfl | simp (disch := (first | exact sub_trans (by decide) hL | exact Or.inl (has_of_sub hL (by decide)) | exact Or.inr rfl | exact Or.inr fun _ => rfl | (refine Or.inr ?_; intros; repeat' (first | rfl | split)))) only [↓rest_updMedia, ↓rest_mk, ↓rest_ite, ite_self] | (intro; rfl) | split | (intro; split) | rfl)

theorem rest_recoverStaged {L : List Part} (hL : sub [.ctxs, .health, .media, .ctr] L = true) (s : State) (c : Ctx) (f : StagedUnit → Option Block) :
    rest L (recoverStaged s c f) = rest L s := by
  unfold recoverStaged
  repeat' (first | with_reducible exact none_imp | (with_reducible refine rest_or _ _ ?_ ?_) | (with_reducible refine rest_some ?_) | (with_reducible refine rest_some1 ?_) | (with_reducible refine rest_map _ _ (fun x hx => ?_)) | (with_reducible refine rest_map1 _ _ (fun x hx => ?_)) | (with_reducible refine bind_imp _ _ (fun x hx => ?_)) | (with_reducible refine findSome_imp _ _ (fun x => ?_)) | with_reducible rfl | simp (disch := (first | exact sub_trans (by decide) hL | exact Or.inl (has_of_sub hL (by decide)) | exact Or.inr rfl | exact Or.inr fun _ => rfl | (refine Or.inr ?_; intros; repeat' (first | rfl | split)))) only [↓rest_reslot, ↓rest_resumePages, ↓rest_updCtx, ↓rest_mk, ↓rest_ite, ite_self] | (with_reducible refine (rest_getD _ _ (fun u => ?_)).trans ?_) | (intro; rfl) | split | (intro; split) | rfl)

theorem rest_writeFault {L : List Part} (hL : sub [.ctxs, .errSeq, .ports, .health, .media, .ctr] L = true) (s : State) (c : Ctx) :
    rest L (writeFault s c) = rest L s := by
  unfold writeFault
  repeat' (first | with_reducible rfl | simp (disch := (first | exact sub_trans (by decide) hL | exact Or.inl (has_of_sub hL (by decide)) | exact Or.inr rfl | exact Or.inr fun _ => rfl | (refine Or.inr ?_; intros; repeat' (first | rfl | split)))) only [↓rest_decide_, ↓rest_reslot, ↓rest_resumePages, ↓rest_settleFull, ↓rest_updCtx, ↓rest_mk, ↓rest_ite, ite_self] | (intro; rfl) | split | (intro; split) | rfl)

theorem rest_refetch {L : List Part} (hL : sub [.ctxs, .errSeq, .ports, .health, .media, .ctr] L = true) (s : State) (c : Ctx) (data : HostFetch) :
    rest L (refetch s c data) = rest L s := by
  unfold refetch
  repeat' (first | with_reducible rfl | simp (disch := (first | exact sub_trans (by decide) hL | exact Or.inl (has_of_sub hL (by decide)) | exact Or.inr rfl | exact Or.inr fun _ => rfl | (refine Or.inr ?_; intros; repeat' (first | rfl | split)))) only [↓rest_recoverStaged, ↓rest_settleFull, ↓rest_writeFault, ↓rest_mk, ↓rest_ite, ite_self] | (intro; rfl) | split | (intro; split) | rfl)

theorem rest_execWrite {L : List Part} (hL : sub [.ctxs, .errSeq, .ports, .health, .media, .ctr] L = true) (cid : Nat) (data : HostFetch) (s : State) :
    ∃ tv, execWrite cid data s = .next tv ∧ rest L tv = rest L s := by
  unfold execWrite
  repeat' (first | (refine ⟨_, rfl, ?_⟩) | with_reducible rfl | simp (disch := (first | exact sub_trans (by decide) hL | exact Or.inl (has_of_sub hL (by decide)) | exact Or.inr rfl | exact Or.inr fun _ => rfl | (refine Or.inr ?_; intros; repeat' (first | rfl | split)))) only [↓rest_refetch, ↓rest_updCtx, ↓rest_updHealth, ↓rest_mk, ↓rest_ite, ite_self] | (intro; rfl) | split | (intro; split) | rfl)

theorem rest_execFill {L : List Part} (hL : sub [.ctxs, .health, .media, .ctr] L = true) (cid : Nat) (s : State) :
    ∃ tv, execFill cid s = .next tv ∧ rest L tv = rest L s := by
  unfold execFill
  repeat' (first | (refine ⟨_, rfl, ?_⟩) | with_reducible rfl | simp (disch := (first | exact sub_trans (by decide) hL | exact Or.inl (has_of_sub hL (by decide)) | exact Or.inr rfl | exact Or.inr fun _ => rfl | (refine Or.inr ?_; intros; repeat' (first | rfl | split)))) only [↓rest_assignUnits, ↓rest_settleFull, ↓rest_mk, ↓rest_ite, ite_self] | (intro; rfl) | split | (intro; split) | rfl)

theorem rest_execDeallocate {L : List Part} (hL : sub [.ctxs, .eng] L = true) (cid : Nat) (s : State) :
    ∃ tv, execDeallocate cid s = .next tv ∧ rest L tv = rest L s := by
  unfold execDeallocate
  repeat' (first | (refine ⟨_, rfl, ?_⟩) | with_reducible rfl | simp (disch := (first | exact sub_trans (by decide) hL | exact Or.inl (has_of_sub hL (by decide)) | exact Or.inr rfl | exact Or.inr fun _ => rfl | (refine Or.inr ?_; intros; repeat' (first | rfl | split)))) only [↓rest_askMap, ↓rest_updCtx, ↓rest_mk, ↓rest_ite, ite_self] | (intro; rfl) | split | (intro; split) | rfl)

theorem rest_failCommand {L : List Part} (hL : sub [.ctxs, .errSeq, .ports, .eng, .media] L = true) (s : State) (c : Ctx) (v : Verdict) :
    rest L (failCommand s c v) = rest L s := by
  unfold failCommand
  repeat' (first | with_reducible rfl | (with_reducible refine (rest_foldl _ (fun t x => ?_) _ _).trans ?_) | simp (disch := (first | exact sub_trans (by decide) hL | exact Or.inl (has_of_sub hL (by decide)) | exact Or.inr rfl | exact Or.inr fun _ => rfl | (refine Or.inr ?_; intros; repeat' (first | rfl | split)))) only [↓rest_decide_, ↓rest_settleFull, ↓rest_unpinBlock, ↓rest_updCtx, ↓rest_mk, ↓rest_ite, ite_self] | (with_reducible refine (rest_foldl1 _ (fun t x => ?_) _ _).trans ?_) | (intro; rfl) | split | (intro; split) | rfl)

theorem rest_countHostRead {L : List Part} (hL : sub [.health] L = true) (s : State) (n : Nat) :
    rest L (countHostRead s n) = rest L s := by
  unfold countHostRead
  repeat' (first | with_reducible rfl | simp (disch := (first | exact sub_trans (by decide) hL | exact Or.inl (has_of_sub hL (by decide)) | exact Or.inr rfl | exact Or.inr fun _ => rfl | (refine Or.inr ?_; intros; repeat' (first | rfl | split)))) only [↓rest_updHealth, ↓rest_mk, ↓rest_ite, ite_self] | (intro; rfl) | split | (intro; split) | rfl)

theorem rest_execRead {L : List Part} (hL : sub [.out, .ctxs, .errSeq, .ports, .health, .eng, .media] L = true) (cid : Nat) (list : ListRead) (s : State) :
    ∃ tv, execRead cid list s = .next tv ∧ rest L tv = rest L s := by
  unfold execRead
  repeat' (first | (refine ⟨_, rfl, ?_⟩) | with_reducible rfl | simp (disch := (first | exact sub_trans (by decide) hL | exact Or.inl (has_of_sub hL (by decide)) | exact Or.inr rfl | exact Or.inr fun _ => rfl | (refine Or.inr ?_; intros; repeat' (first | rfl | split)))) only [↓rest_countHostRead, ↓rest_deliver, ↓rest_failCommand, ↓rest_perform, ↓rest_mk, ↓rest_ite, ite_self] | (intro; rfl) | split | (intro; split) | rfl)

theorem rest_execVerify {L : List Part} (hL : sub [.ctxs, .errSeq, .ports, .eng, .media] L = true) (cid : Nat) (s : State) :
    ∃ tv, execVerify cid s = .next tv ∧ rest L tv = rest L s := by
  unfold execVerify
  repeat' (first | (refine ⟨_, rfl, ?_⟩) | with_reducible rfl | simp (disch := (first | exact sub_trans (by decide) hL | exact Or.inl (has_of_sub hL (by decide)) | exact Or.inr rfl | exact Or.inr fun _ => rfl | (refine Or.inr ?_; intros; repeat' (first | rfl | split)))) only [↓rest_failCommand, ↓rest_perform, ↓rest_mk, ↓rest_ite, ite_self] | (intro; rfl) | split | (intro; split) | rfl)

theorem rest_execCompare {L : List Part} (hL : sub [.ctxs, .errSeq, .ports, .eng, .media] L = true) (cid : Nat) (data : HostFetch) (s : State) :
    ∃ tv, execCompare cid data s = .next tv ∧ rest L tv = rest L s := by
  unfold execCompare
  repeat' (first | (refine ⟨_, rfl, ?_⟩) | with_reducible rfl | simp (disch := (first | exact sub_trans (by decide) hL | exact Or.inl (has_of_sub hL (by decide)) | exact Or.inr rfl | exact Or.inr fun _ => rfl | (refine Or.inr ?_; intros; repeat' (first | rfl | split)))) only [↓rest_failCommand, ↓rest_perform, ↓rest_updCtx, ↓rest_mk, ↓rest_ite, ite_self] | (intro; rfl) | split | (intro; split) | rfl)

theorem rest_execCopy {L : List Part} (hL : sub [.ctxs, .errSeq, .ports, .health, .eng, .media, .ctr] L = true) (cid : Nat) (s : State) :
    ∃ tv, execCopy cid s = .next tv ∧ rest L tv = rest L s := by
  unfold execCopy
  repeat' (first | (refine ⟨_, rfl, ?_⟩) | with_reducible rfl | simp (disch := (first | exact sub_trans (by decide) hL | exact Or.inl (has_of_sub hL (by decide)) | exact Or.inr rfl | exact Or.inr fun _ => rfl | (refine Or.inr ?_; intros; repeat' (first | rfl | split)))) only [↓rest_assignUnits, ↓rest_failCommand, ↓rest_recoverStaged, ↓rest_settleFull, ↓rest_updCtx, ↓rest_writeFault, ↓rest_mk, ↓rest_ite, ite_self] | (intro; rfl) | split | (intro; split) | rfl)

end Sys2Proof.Laws
end

