-- ==== Sys2Proof/Laws/FramesPods.lean ====
section
/-! SUPPORT. Which parts of the state the operations of Machine/Pods.lean may change. -/
namespace Sys2Proof.Laws
open Sys2Proof Sys2Proof.Machine

set_option linter.unreachableTactic false
set_option linter.unusedTactic false

set_option linter.unusedSimpArgs false

theorem rest_podGrant {L : List Part} (hL : sub [.pods, .ctr] L = true) (s : State) (r k : Nat) :
    rest L (podGrant s r k) = rest L s := by
  unfold podGrant
  repeat' (first | with_reducible rfl | simp (disch := (first | exact sub_trans (by decide) hL | exact Or.inl (has_of_sub hL (by decide)) | exact Or.inr rfl | exact Or.inr fun _ => rfl | (refine Or.inr ?_; intros; repeat' (first | rfl | split)))) only [↓rest_countEvent, ↓rest_mk, ↓rest_ite, ite_self] | (intro; rfl) | split | (intro; split) | rfl)

theorem rest_podServe {L : List Part} (hL : sub [.pods, .ctr] L = true) (s : State) (r : Nat) (dram : Bool) :
    ∀ xv, rest L (podServe s r dram xv) = rest L s := by
  intro xv
  fun_induction podServe s r dram xv
  all_goals repeat' (first | with_reducible rfl | (with_reducible refine Eq.trans (by assumption) ?_) | simp +zetaDelta (disch := (first | exact sub_trans (by decide) hL | exact Or.inl (has_of_sub hL (by decide)) | exact Or.inr rfl | exact Or.inr fun _ => rfl | (refine Or.inr ?_; intros; repeat' (first | rfl | split)))) only [↓rest_podGrant, ↓rest_mk, ↓rest_ite, ite_self] | (intro; rfl) | split | (intro; split) | rfl)

theorem rest_podSettle {L : List Part} (hL : sub [.pods, .ctr] L = true) (s : State) :
    ∀ xv, rest L (podSettle s xv) = rest L s := by
  intro xv
  fun_induction podSettle s xv
  all_goals repeat' (first | with_reducible rfl | (with_reducible refine Eq.trans (by assumption) ?_) | simp +zetaDelta (disch := (first | exact sub_trans (by decide) hL | exact Or.inl (has_of_sub hL (by decide)) | exact Or.inr rfl | exact Or.inr fun _ => rfl | (refine Or.inr ?_; intros; repeat' (first | rfl | split)))) only [↓rest_podGrant, ↓rest_mk, ↓rest_ite, ite_self] | (intro; rfl) | split | (intro; split) | rfl)

theorem rest_execPodRequest {L : List Part} (hL : sub [.pods, .ctr] L = true) (requester size : Nat) (dram : Bool) (s : State) :
    ∃ tv, execPodRequest requester size dram s = .next tv ∧ rest L tv = rest L s := by
  unfold execPodRequest
  repeat' (first | (refine ⟨_, rfl, ?_⟩) | with_reducible rfl | simp (disch := (first | exact sub_trans (by decide) hL | exact Or.inl (has_of_sub hL (by decide)) | exact Or.inr rfl | exact Or.inr fun _ => rfl | (refine Or.inr ?_; intros; repeat' (first | rfl | split)))) only [↓rest_podServe, ↓rest_mk, ↓rest_ite, ite_self] | (intro; rfl) | split | (intro; split) | rfl)

theorem rest_execPodFree {L : List Part} (hL : sub [.pods, .ctr] L = true) (pod offset : Nat) (s : State) :
    ∃ tv, execPodFree pod offset s = .next tv ∧ rest L tv = rest L s := by
  unfold execPodFree
  repeat' (first | (refine ⟨_, rfl, ?_⟩) | with_reducible rfl | simp (disch := (first | exact sub_trans (by decide) hL | exact Or.inl (has_of_sub hL (by decide)) | exact Or.inr rfl | exact Or.inr fun _ => rfl | (refine Or.inr ?_; intros; repeat' (first | rfl | split)))) only [↓rest_countFixed, ↓rest_podSettle, ↓rest_mk, ↓rest_ite, ite_self] | (intro; rfl) | split | (intro; split) | rfl)

theorem rest_putChan {L : List Part} (hL : sub [.mover] L = true) (s : State) (c : Chan) :
    rest L (putChan s c) = rest L s := by
  unfold putChan
  repeat' (first | with_reducible rfl | simp (disch := (first | exact sub_trans (by decide) hL | exact Or.inl (has_of_sub hL (by decide)) | exact Or.inr rfl | exact Or.inr fun _ => rfl | (refine Or.inr ?_; intros; repeat' (first | rfl | split)))) only [↓rest_mk, ↓rest_ite, ite_self] | (intro; rfl) | split | (intro; split) | rfl)

theorem rest_moverReturn {L : List Part} (hL : sub [.mover] L = true) (s : State) (r : MoverRet) :
    rest L (moverReturn s r) = rest L s := by
  unfold moverReturn
  repeat' (first | with_reducible rfl | simp (disch := (first | exact sub_trans (by decide) hL | exact Or.inl (has_of_sub hL (by decide)) | exact Or.inr rfl | exact Or.inr fun _ => rfl | (refine Or.inr ?_; intros; repeat' (first | rfl | split)))) only [↓rest_mk, ↓rest_ite, ite_self] | (intro; rfl) | split | (intro; split) | rfl)

theorem rest_resetChannel {L : List Part} (hL : sub [.mover] L = true) (s : State) (ch : Nat) :
    rest L (resetChannel s ch) = rest L s := by
  unfold resetChannel
  repeat' (first | with_reducible rfl | (with_reducible refine (rest_foldl _ (fun t x => ?_) _ _).trans ?_) | simp (disch := (first | exact sub_trans (by decide) hL | exact Or.inl (has_of_sub hL (by decide)) | exact Or.inr rfl | exact Or.inr fun _ => rfl | (refine Or.inr ?_; intros; repeat' (first | rfl | split)))) only [↓rest_moverReturn, ↓rest_putChan, ↓rest_mk, ↓rest_ite, ite_self] | (with_reducible refine (rest_foldl1 _ (fun t x => ?_) _ _).trans ?_) | (intro; rfl) | split | (intro; split) | rfl)

theorem rest_withdrawAdmin {L : List Part} (hL : sub [.ctxs, .errSeq, .ports, .mover] L = true) (s : State) (ch : Nat) :
    rest L (withdrawAdmin s ch) = rest L s := by
  unfold withdrawAdmin
  repeat' (first | with_reducible rfl | (with_reducible refine (rest_foldl _ (fun t x => ?_) _ _).trans ?_) | simp (disch := (first | exact sub_trans (by decide) hL | exact Or.inl (has_of_sub hL (by decide)) | exact Or.inr rfl | exact Or.inr fun _ => rfl | (refine Or.inr ?_; intros; repeat' (first | rfl | split)))) only [↓rest_decide_, ↓rest_moverReturn, ↓rest_putChan, ↓rest_mk, ↓rest_ite, ite_self] | (with_reducible refine (rest_foldl1 _ (fun t x => ?_) _ _).trans ?_) | (intro; rfl) | split | (intro; split) | rfl)

theorem rest_haltChan {L : List Part} (hL : sub [.ctxs, .errSeq, .ports, .mover] L = true) (s : State) (ch cause : Nat) (dir : Bool) (space addr : Nat) :
    rest L (haltChan s ch cause dir space addr) = rest L s := by
  unfold haltChan
  repeat' (first | with_reducible rfl | simp (disch := (first | exact sub_trans (by decide) hL | exact Or.inl (has_of_sub hL (by decide)) | exact Or.inr rfl | exact Or.inr fun _ => rfl | (refine Or.inr ?_; intros; repeat' (first | rfl | split)))) only [↓rest_putChan, ↓rest_resetChannel, ↓rest_withdrawAdmin, ↓rest_mk, ↓rest_ite, ite_self] | (intro; rfl) | split | (intro; split) | rfl)

theorem rest_faultDesc {L : List Part} (hL : sub [.ctxs, .errSeq, .ports, .mover] L = true) (s : State) (ch : Nat) (d : MoverDesc) (cause : Nat) (dir : Bool) (offset : Nat) :
    rest L (faultDesc s ch d cause dir offset) = rest L s := by
  unfold faultDesc
  repeat' (first | with_reducible rfl | simp (disch := (first | exact sub_trans (by decide) hL | exact Or.inl (has_of_sub hL (by decide)) | exact Or.inr rfl | exact Or.inr fun _ => rfl | (refine Or.inr ?_; intros; repeat' (first | rfl | split)))) only [↓rest_haltChan, ↓rest_moverReturn, ↓rest_putChan, ↓rest_mk, ↓rest_ite, ite_self] | (intro; rfl) | split | (intro; split) | rfl)

theorem rest_startChan {L : List Part} (hL : sub [.ctxs, .errSeq, .ports, .mover] L = true) (s : State) (ch : Nat) :
    ∀ xv, rest L (startChan s ch xv) = rest L s := by
  intro xv
  fun_induction startChan s ch xv
  all_goals repeat' (first | with_reducible rfl | (with_reducible refine Eq.trans (by assumption) ?_) | simp +zetaDelta (disch := (first | exact sub_trans (by decide) hL | exact Or.inl (has_of_sub hL (by decide)) | exact Or.inr rfl | exact Or.inr fun _ => rfl | (refine Or.inr ?_; intros; repeat' (first | rfl | split)))) only [↓rest_faultDesc, ↓rest_putChan, ↓rest_mk, ↓rest_ite, ite_self] | (intro; rfl) | split | (intro; split) | rfl)

theorem rest_execMoverPost {L : List Part} (hL : sub [.ctxs, .errSeq, .ports, .mover] L = true) (channel : Nat) (desc : MoverDesc) (s : State) :
    ∃ tv, execMoverPost channel desc s = .next tv ∧ rest L tv = rest L s := by
  unfold execMoverPost
  repeat' (first | (refine ⟨_, rfl, ?_⟩) | with_reducible rfl | simp (disch := (first | exact sub_trans (by decide) hL | exact Or.inl (has_of_sub hL (by decide)) | exact Or.inr rfl | exact Or.inr fun _ => rfl | (refine Or.inr ?_; intros; repeat' (first | rfl | split)))) only [↓rest_putChan, ↓rest_startChan, ↓rest_mk, ↓rest_ite, ite_self] | (intro; rfl) | split | (intro; split) | rfl)

theorem rest_endDesc {L : List Part} (hL : sub [.ctxs, .errSeq, .ports, .mover, .ctr] L = true) (s : State) (ch : Nat) (d : MoverDesc) (o : MoverOutcome) :
    rest L (endDesc s ch d o) = rest L s := by
  unfold endDesc
  repeat' (first | with_reducible rfl | simp (disch := (first | exact sub_trans (by decide) hL | exact Or.inl (has_of_sub hL (by decide)) | exact Or.inr rfl | exact Or.inr fun _ => rfl | (refine Or.inr ?_; intros; repeat' (first | rfl | split)))) only [↓rest_countEvent, ↓rest_faultDesc, ↓rest_haltChan, ↓rest_moverReturn, ↓rest_putChan, ↓rest_mk, ↓rest_ite, ite_self] | (intro; rfl) | split | (intro; split) | rfl)

theorem rest_execMoverDescriptorEnd {L : List Part} (hL : sub [.ctxs, .errSeq, .ports, .mover, .ctr] L = true) (channel : Nat) (outcome : MoverOutcome) (s : State) :
    ∃ tv, execMoverDescriptorEnd channel outcome s = .next tv ∧ rest L tv = rest L s := by
  unfold execMoverDescriptorEnd
  repeat' (first | (refine ⟨_, rfl, ?_⟩) | with_reducible rfl | simp (disch := (first | exact sub_trans (by decide) hL | exact Or.inl (has_of_sub hL (by decide)) | exact Or.inr rfl | exact Or.inr fun _ => rfl | (refine Or.inr ?_; intros; repeat' (first | rfl | split)))) only [↓rest_endDesc, ↓rest_startChan, ↓rest_mk, ↓rest_ite, ite_self] | (intro; rfl) | split | (intro; split) | rfl)

theorem rest_pulseLine {L : List Part} (hL : sub [.mover] L = true) (s : State) (line : Nat) :
    rest L (pulseLine s line) = rest L s := by
  unfold pulseLine
  repeat' (first | with_reducible rfl | simp (disch := (first | exact sub_trans (by decide) hL | exact Or.inl (has_of_sub hL (by decide)) | exact Or.inr rfl | exact Or.inr fun _ => rfl | (refine Or.inr ?_; intros; repeat' (first | rfl | split)))) only [↓rest_mk, ↓rest_ite, ite_self] | (intro; rfl) | split | (intro; split) | rfl)

theorem rest_execReqLinePulse {L : List Part} (hL : sub [.mover] L = true) (line : Nat) (s : State) :
    ∃ tv, execReqLinePulse line s = .next tv ∧ rest L tv = rest L s := by
  unfold execReqLinePulse
  repeat' (first | (refine ⟨_, rfl, ?_⟩) | with_reducible rfl | simp (disch := (first | exact sub_trans (by decide) hL | exact Or.inl (has_of_sub hL (by decide)) | exact Or.inr rfl | exact Or.inr fun _ => rfl | (refine Or.inr ?_; intros; repeat' (first | rfl | split)))) only [↓rest_pulseLine, ↓rest_mk, ↓rest_ite, ite_self] | (intro; rfl) | split | (intro; split) | rfl)

theorem rest_execMoverQuery {L : List Part} (hL : sub [.ctxs, .twin] L = true) (cid : Nat) (s : State) :
    ∃ tv, execMoverQuery cid s = .next tv ∧ rest L tv = rest L s := by
  unfold execMoverQuery
  repeat' (first | (refine ⟨_, rfl, ?_⟩) | with_reducible rfl | simp (disch := (first | exact sub_trans (by decide) hL | exact Or.inl (has_of_sub hL (by decide)) | exact Or.inr rfl | exact Or.inr fun _ => rfl | (refine Or.inr ?_; intros; repeat' (first | rfl | split)))) only [↓rest_performState, ↓rest_mk, ↓rest_ite, ite_self] | (intro; rfl) | split | (intro; split) | rfl)

theorem rest_execMoverResume {L : List Part} (hL : sub [.ctxs, .errSeq, .ports, .twin, .mover] L = true) (cid : Nat) (s : State) :
    ∃ tv, execMoverResume cid s = .next tv ∧ rest L tv = rest L s := by
  unfold execMoverResume
  repeat' (first | (refine ⟨_, rfl, ?_⟩) | with_reducible rfl | simp (disch := (first | exact sub_trans (by decide) hL | exact Or.inl (has_of_sub hL (by decide)) | exact Or.inr rfl | exact Or.inr fun _ => rfl | (refine Or.inr ?_; intros; repeat' (first | rfl | split)))) only [↓rest_performState, ↓rest_putChan, ↓rest_refuseNow, ↓rest_startChan, ↓rest_mk, ↓rest_ite, ite_self] | (intro; rfl) | split | (intro; split) | rfl)

theorem rest_execMoverResetChannel {L : List Part} (hL : sub [.ctxs, .errSeq, .ports, .twin, .mover] L = true) (cid : Nat) (s : State) :
    ∃ tv, execMoverResetChannel cid s = .next tv ∧ rest L tv = rest L s := by
  unfold execMoverResetChannel
  repeat' (first | (refine ⟨_, rfl, ?_⟩) | with_reducible rfl | simp (disch := (first | exact sub_trans (by decide) hL | exact Or.inl (has_of_sub hL (by decide)) | exact Or.inr rfl | exact Or.inr fun _ => rfl | (refine Or.inr ?_; intros; repeat' (first | rfl | split)))) only [↓rest_performState, ↓rest_refuseNow, ↓rest_resetChannel, ↓rest_startChan, ↓rest_mk, ↓rest_ite, ite_self] | (intro; rfl) | split | (intro; split) | rfl)

end Sys2Proof.Laws
end

