-- ==== Sys2Proof/Laws/FramesFirmware.lean ====
section
/-! SUPPORT. Which parts of the state the operations of Machine/Firmware.lean may change. -/
namespace Sys2Proof.Laws
open Sys2Proof Sys2Proof.Machine

set_option linter.unreachableTactic false
set_option linter.unusedTactic false

set_option linter.unusedSimpArgs false

theorem rest_storeBlock {L : List Part} (hL : sub [.kf, .kfMem] L = true) (s : State) (c : Ctx) (bs : List Byte) :
    rest L (storeBlock s c bs) = rest L s := by
  unfold storeBlock
  repeat' (first | with_reducible rfl | simp (disch := (first | exact sub_trans (by decide) hL | exact Or.inl (has_of_sub hL (by decide)) | exact Or.inr rfl | exact Or.inr fun _ => rfl | (refine Or.inr ?_; intros; repeat' (first | rfl | split)))) only [↓rest_putBoot, ↓rest_updKf, ↓rest_mk, ↓rest_ite, ite_self] | (with_reducible refine (rest_updKf (sub_trans (by decide) hL) _ _ (.inr ?_) (.inr ?_)).trans ?_) | (intro; rfl) | split | (intro; split) | rfl)

theorem rest_execFwDownload {L : List Part} (hL : sub [.ctxs, .errSeq, .ports, .kf, .kfMem] L = true) (cid : Nat) (data : HostFetch) (s : State) :
    ∃ tv, execFwDownload cid data s = .next tv ∧ rest L tv = rest L s := by
  unfold execFwDownload
  repeat' (first | (refine ⟨_, rfl, ?_⟩) | with_reducible rfl | simp (disch := (first | exact sub_trans (by decide) hL | exact Or.inl (has_of_sub hL (by decide)) | exact Or.inr rfl | exact Or.inr fun _ => rfl | (refine Or.inr ?_; intros; repeat' (first | rfl | split)))) only [↓rest_decide_, ↓rest_perform, ↓rest_refuseNow, ↓rest_storeBlock, ↓rest_mk, ↓rest_ite, ite_self] | (intro; rfl) | split | (intro; split) | rfl)

theorem rest_commitRefused {L : List Part} (hL : sub [.ctxs, .errSeq, .ports, .kf, .kfMem] L = true) (s : State) (c : Ctx) (comp : Nat) (r : Reject) :
    rest L (commitRefused s c comp r) = rest L s := by
  unfold commitRefused
  repeat' (first | with_reducible rfl | simp (disch := (first | exact sub_trans (by decide) hL | exact Or.inl (has_of_sub hL (by decide)) | exact Or.inr rfl | exact Or.inr fun _ => rfl | (refine Or.inr ?_; intros; repeat' (first | rfl | split)))) only [↓rest_putBoot, ↓rest_refuseNow, ↓rest_updCtx, ↓rest_mk, ↓rest_ite, ite_self] | (intro; rfl) | split | (intro; split) | rfl)

theorem rest_commitSlots {L : List Part} (hL : sub [.ctxs, .raised, .kf, .kfMem] L = true) (s : State) (c : Ctx) :
    rest L (commitSlots s c) = rest L s := by
  unfold commitSlots
  repeat' (first | with_reducible rfl | (with_reducible refine (rest_foldl _ (fun t x => ?_) _ _).trans ?_) | simp (disch := (first | exact sub_trans (by decide) hL | exact Or.inl (has_of_sub hL (by decide)) | exact Or.inr rfl | exact Or.inr fun _ => rfl | (refine Or.inr ?_; intros; repeat' (first | rfl | split)))) only [↓rest_perform, ↓rest_putBoot, ↓rest_raiseEvent, ↓rest_updKf, ↓rest_mk, ↓rest_ite, ite_self] | (with_reducible refine (rest_foldl1 _ (fun t x => ?_) _ _).trans ?_) | (with_reducible refine (rest_updKf (sub_trans (by decide) hL) _ _ (.inr ?_) (.inr ?_)).trans ?_) | (intro; rfl) | split | (intro; split) | rfl)

theorem rest_execFwCommit {L : List Part} (hL : sub [.out, .ctxs, .errSeq, .evSeq, .evHist, .raised, .condFrom, .ports, .kf, .kfMem] L = true) (cid : Nat) (s : State) :
    ∃ tv, execFwCommit cid s = .next tv ∧ rest L tv = rest L s := by
  unfold execFwCommit
  repeat' (first | (refine ⟨_, rfl, ?_⟩) | with_reducible rfl | simp (disch := (first | exact sub_trans (by decide) hL | exact Or.inl (has_of_sub hL (by decide)) | exact Or.inr rfl | exact Or.inr fun _ => rfl | (refine Or.inr ?_; intros; repeat' (first | rfl | split)))) only [↓rest_commitRefused, ↓rest_commitSlots, ↓rest_endCycle, ↓rest_refuseNow, ↓rest_mk, ↓rest_ite, ite_self] | (intro; rfl) | split | (intro; split) | rfl)

theorem rest_execFwConfirm {L : List Part} (hL : sub [.ctxs, .errSeq, .ports, .kf, .kfMem] L = true) (cid : Nat) (s : State) :
    ∃ tv, execFwConfirm cid s = .next tv ∧ rest L tv = rest L s := by
  unfold execFwConfirm
  repeat' (first | (refine ⟨_, rfl, ?_⟩) | with_reducible rfl | (with_reducible refine (rest_foldl _ (fun t x => ?_) _ _).trans ?_) | simp (disch := (first | exact sub_trans (by decide) hL | exact Or.inl (has_of_sub hL (by decide)) | exact Or.inr rfl | exact Or.inr fun _ => rfl | (refine Or.inr ?_; intros; repeat' (first | rfl | split)))) only [↓rest_perform, ↓rest_putBoot, ↓rest_refuseNow, ↓rest_updKf, ↓rest_mk, ↓rest_ite, ite_self] | (with_reducible refine (rest_foldl1 _ (fun t x => ?_) _ _).trans ?_) | (with_reducible refine (rest_updKf (sub_trans (by decide) hL) _ _ (.inr ?_) (.inr ?_)).trans ?_) | (intro; rfl) | split | (intro; split) | rfl)

theorem rest_execFwRevert {L : List Part} (hL : sub [.out, .ctxs, .errSeq, .evSeq, .evHist, .raised, .condFrom, .ports, .kf, .kfMem] L = true) (cid : Nat) (s : State) :
    ∃ tv, execFwRevert cid s = .next tv ∧ rest L tv = rest L s := by
  unfold execFwRevert
  repeat' (first | (refine ⟨_, rfl, ?_⟩) | with_reducible exact none_imp | (with_reducible refine rest_or _ _ ?_ ?_) | (with_reducible refine rest_some ?_) | (with_reducible refine rest_some1 ?_) | (with_reducible refine rest_map _ _ (fun x hx => ?_)) | (with_reducible refine rest_map1 _ _ (fun x hx => ?_)) | (with_reducible refine bind_imp _ _ (fun x hx => ?_)) | (with_reducible refine findSome_imp _ _ (fun x => ?_)) | with_reducible rfl | (with_reducible refine (rest_foldl _ (fun t x => ?_) _ _).trans ?_) | simp (disch := (first | exact sub_trans (by decide) hL | exact Or.inl (has_of_sub hL (by decide)) | exact Or.inr rfl | exact Or.inr fun _ => rfl | (refine Or.inr ?_; intros; repeat' (first | rfl | split)))) only [↓rest_commitRefused, ↓rest_commitSlots, ↓rest_endCycle, ↓rest_perform, ↓rest_putBoot, ↓rest_refuseNow, ↓rest_updKf, ↓rest_mk, ↓rest_ite, ite_self] | (with_reducible refine (rest_foldl1 _ (fun t x => ?_) _ _).trans ?_) | (with_reducible refine (rest_getD _ _ (fun u => ?_)).trans ?_) | (with_reducible refine (rest_updKf (sub_trans (by decide) hL) _ _ (.inr ?_) (.inr ?_)).trans ?_) | (intro; rfl) | split | (intro; split) | rfl)

end Sys2Proof.Laws
end

