-- ==== Sys2Proof/Laws/FramesFeatures.lean ====
section
/-! SUPPORT. Which parts of the state the operations of Machine/Features.lean may change. -/
namespace Sys2Proof.Laws
open Sys2Proof Sys2Proof.Machine

set_option linter.unreachableTactic false
set_option linter.unusedTactic false

set_option linter.unusedSimpArgs false

theorem rest_saveValue {L : List Part} (hL : sub [.kf] L = true) (s : State) (c : Ctx) :
    rest L (saveValue s c) = rest L s := by
  unfold saveValue
  repeat' (first | with_reducible rfl | simp (disch := (first | exact sub_trans (by decide) hL | exact Or.inl (has_of_sub hL (by decide)) | exact Or.inr rfl | exact Or.inr fun _ => rfl | (refine Or.inr ?_; intros; repeat' (first | rfl | split)))) only [↓rest_updKf, ↓rest_mk, ↓rest_ite, ite_self] | (with_reducible refine (rest_updKf (sub_trans (by decide) hL) _ _ (.inr ?_) (.inr ?_)).trans ?_) | (intro; rfl) | split | (intro; split) | rfl)

theorem rest_featureMirrored {L : List Part} (hL : sub [.ctxs, .twin] L = true) (s : State) (c : Ctx) (go : State → State) (hg : ∀ t, rest L (go t) = rest L t) :
    rest L (featureMirrored s c go) = rest L s := by
  unfold featureMirrored
  repeat' (first | with_reducible rfl | simp (disch := (first | exact sub_trans (by decide) hL | exact Or.inl (has_of_sub hL (by decide)) | exact Or.inr rfl | exact Or.inr fun _ => rfl | (refine Or.inr ?_; intros; repeat' (first | rfl | split)))) only [↓rest_sendFrame, ↓rest_updCtx, ↓rest_mk, ↓rest_ite, ite_self] | (with_reducible refine (hg _).trans ?_) | (with_reducible refine (hg _ _).trans ?_) | (intro; rfl) | split | (intro; split) | rfl)

theorem rest_setFeature {L : List Part} (hL : sub [.ctxs, .twin, .kf] L = true) (s : State) (cid f : Nat) (apply_ : State → Ctx → State) (chunks : List Nat := []) (hg : ∀ t c, rest L (apply_ t c) = rest L t) :
    rest L (setFeature s cid f apply_ chunks) = rest L s := by
  unfold setFeature
  repeat' (first | with_reducible rfl | simp (disch := (first | exact sub_trans (by decide) hL | exact Or.inl (has_of_sub hL (by decide)) | exact Or.inr rfl | exact Or.inr fun _ => rfl | (refine Or.inr ?_; intros; repeat' (first | rfl | split)))) only [↓rest_perform, ↓rest_performState, ↓rest_saveValue, ↓rest_mk, ↓rest_ite, ite_self] | (with_reducible refine (hg _).trans ?_) | (with_reducible refine (hg _ _).trans ?_) | (with_reducible refine (rest_featureMirrored (sub_trans (by decide) hL) _ _ _ (fun t => ?_)).trans ?_) | (intro; rfl) | split | (intro; split) | rfl)

theorem rest_applyTimers {L : List Part} (hL : sub [.feat] L = true) (s : State) (v0 v1 : Nat) :
    rest L (applyTimers s v0 v1) = rest L s := by
  unfold applyTimers
  repeat' (first | with_reducible rfl | simp (disch := (first | exact sub_trans (by decide) hL | exact Or.inl (has_of_sub hL (by decide)) | exact Or.inr rfl | exact Or.inr fun _ => rfl | (refine Or.inr ?_; intros; repeat' (first | rfl | split)))) only [↓rest_mk, ↓rest_ite, ite_self] | (intro; rfl) | split | (intro; split) | rfl)

theorem rest_execSetPowerTimers {L : List Part} (hL : sub [.ctxs, .feat, .twin, .kf] L = true) (cid : Nat) (s : State) :
    ∃ tv, execSetPowerTimers cid s = .next tv ∧ rest L tv = rest L s := by
  unfold execSetPowerTimers
  repeat' (first | (refine ⟨_, rfl, ?_⟩) | with_reducible rfl | simp (disch := (first | exact sub_trans (by decide) hL | exact Or.inl (has_of_sub hL (by decide)) | exact Or.inr rfl | exact Or.inr fun _ => rfl | (refine Or.inr ?_; intros; repeat' (first | rfl | split)))) only [↓rest_applyTimers, ↓rest_mk, ↓rest_ite, ite_self] | (with_reducible refine (rest_setFeature (sub_trans (by decide) hL) _ _ _ _ _ (fun t c => ?_)).trans ?_) | (intro; rfl) | split | (intro; split) | rfl)

theorem rest_execSetCadencePlan {L : List Part} (hL : sub [.ctxs, .cad, .twin, .kf] L = true) (cid : Nat) (s : State) :
    ∃ tv, execSetCadencePlan cid s = .next tv ∧ rest L tv = rest L s := by
  unfold execSetCadencePlan
  repeat' (first | (refine ⟨_, rfl, ?_⟩) | with_reducible rfl | simp (disch := (first | exact sub_trans (by decide) hL | exact Or.inl (has_of_sub hL (by decide)) | exact Or.inr rfl | exact Or.inr fun _ => rfl | (refine Or.inr ?_; intros; repeat' (first | rfl | split)))) only [↓rest_updCad, ↓rest_mk, ↓rest_ite, ite_self] | (with_reducible refine (rest_setFeature (sub_trans (by decide) hL) _ _ _ _ _ (fun t c => ?_)).trans ?_) | (with_reducible refine (rest_updCad (sub_trans (by decide) hL) _ _ (.inr ?_)).trans ?_) | (intro; rfl) | split | (intro; split) | rfl)

theorem rest_applyPatrolCycle {L : List Part} (hL : sub [.feat, .media] L = true) (s : State) (days : Nat) :
    rest L (applyPatrolCycle s days) = rest L s := by
  unfold applyPatrolCycle
  repeat' (first | with_reducible rfl | (with_reducible refine (rest_foldl _ (fun t x => ?_) _ _).trans ?_) | simp (disch := (first | exact sub_trans (by decide) hL | exact Or.inl (has_of_sub hL (by decide)) | exact Or.inr rfl | exact Or.inr fun _ => rfl | (refine Or.inr ?_; intros; repeat' (first | rfl | split)))) only [↓rest_updProf, ↓rest_mk, ↓rest_ite, ite_self] | (with_reducible refine (rest_foldl1 _ (fun t x => ?_) _ _).trans ?_) | (intro; rfl) | split | (intro; split) | rfl)

theorem rest_execSetPatrolCycle {L : List Part} (hL : sub [.ctxs, .feat, .media, .twin, .kf] L = true) (cid : Nat) (s : State) :
    ∃ tv, execSetPatrolCycle cid s = .next tv ∧ rest L tv = rest L s := by
  unfold execSetPatrolCycle
  repeat' (first | (refine ⟨_, rfl, ?_⟩) | with_reducible rfl | simp (disch := (first | exact sub_trans (by decide) hL | exact Or.inl (has_of_sub hL (by decide)) | exact Or.inr rfl | exact Or.inr fun _ => rfl | (refine Or.inr ?_; intros; repeat' (first | rfl | split)))) only [↓rest_applyPatrolCycle, ↓rest_mk, ↓rest_ite, ite_self] | (with_reducible refine (rest_setFeature (sub_trans (by decide) hL) _ _ _ _ _ (fun t c => ?_)).trans ?_) | (intro; rfl) | split | (intro; split) | rfl)

theorem rest_execSetThermalLimits {L : List Part} (hL : sub [.ctxs, .feat, .twin, .kf] L = true) (cid : Nat) (s : State) :
    ∃ tv, execSetThermalLimits cid s = .next tv ∧ rest L tv = rest L s := by
  unfold execSetThermalLimits
  repeat' (first | (refine ⟨_, rfl, ?_⟩) | with_reducible rfl | simp (disch := (first | exact sub_trans (by decide) hL | exact Or.inl (has_of_sub hL (by decide)) | exact Or.inr rfl | exact Or.inr fun _ => rfl | (refine Or.inr ?_; intros; repeat' (first | rfl | split)))) only [↓rest_mk, ↓rest_ite, ite_self] | (with_reducible refine (rest_setFeature (sub_trans (by decide) hL) _ _ _ _ _ (fun t c => ?_)).trans ?_) | (intro; rfl) | split | (intro; split) | rfl)

theorem rest_execSetHostMapRegion {L : List Part} (hL : sub [.ctxs, .errSeq, .ports, .health, .eng, .media, .twin, .kf, .ctr] L = true) (cid : Nat) (chunks : List Nat) (s : State) :
    ∃ tv, execSetHostMapRegion cid chunks s = .next tv ∧ rest L tv = rest L s := by
  unfold execSetHostMapRegion
  repeat' (first | (refine ⟨_, rfl, ?_⟩) | with_reducible rfl | simp (disch := (first | exact sub_trans (by decide) hL | exact Or.inl (has_of_sub hL (by decide)) | exact Or.inr rfl | exact Or.inr fun _ => rfl | (refine Or.inr ?_; intros; repeat' (first | rfl | split)))) only [↓rest_refuseNow, ↓rest_setHostMap, ↓rest_mk, ↓rest_ite, ite_self] | (with_reducible refine (rest_setFeature (sub_trans (by decide) hL) _ _ _ _ _ (fun t c => ?_)).trans ?_) | (intro; rfl) | split | (intro; split) | rfl)

theorem rest_execSetInterruptCoalescing {L : List Part} (hL : sub [.ctxs, .errSeq, .ports, .twin, .kf] L = true) (cid : Nat) (s : State) :
    ∃ tv, execSetInterruptCoalescing cid s = .next tv ∧ rest L tv = rest L s := by
  unfold execSetInterruptCoalescing
  repeat' (first | (refine ⟨_, rfl, ?_⟩) | with_reducible rfl | simp (disch := (first | exact sub_trans (by decide) hL | exact Or.inl (has_of_sub hL (by decide)) | exact Or.inr rfl | exact Or.inr fun _ => rfl | (refine Or.inr ?_; intros; repeat' (first | rfl | split)))) only [↓rest_refuseNow, ↓rest_updQueue, ↓rest_mk, ↓rest_ite, ite_self] | (with_reducible refine (rest_setFeature (sub_trans (by decide) hL) _ _ _ _ _ (fun t c => ?_)).trans ?_) | (intro; rfl) | split | (intro; split) | rfl)

theorem rest_execSetArbitration {L : List Part} (hL : sub [.ctxs, .ports, .twin, .kf] L = true) (cid : Nat) (s : State) :
    ∃ tv, execSetArbitration cid s = .next tv ∧ rest L tv = rest L s := by
  unfold execSetArbitration
  repeat' (first | (refine ⟨_, rfl, ?_⟩) | with_reducible rfl | simp (disch := (first | exact sub_trans (by decide) hL | exact Or.inl (has_of_sub hL (by decide)) | exact Or.inr rfl | exact Or.inr fun _ => rfl | (refine Or.inr ?_; intros; repeat' (first | rfl | split)))) only [↓rest_updPort, ↓rest_mk, ↓rest_ite, ite_self] | (with_reducible refine (rest_setFeature (sub_trans (by decide) hL) _ _ _ _ _ (fun t c => ?_)).trans ?_) | (with_reducible refine (rest_updPort (sub_trans (by decide) hL) _ _ _ (.inr ?_)).trans ?_) | (intro; rfl) | split | (intro; split) | rfl)

theorem rest_execSetOnionShelf {L : List Part} (hL : sub [.ctxs, .ports, .twin, .dig, .kf] L = true) (cid : Nat) (s : State) :
    ∃ tv, execSetOnionShelf cid s = .next tv ∧ rest L tv = rest L s := by
  unfold execSetOnionShelf
  repeat' (first | (refine ⟨_, rfl, ?_⟩) | with_reducible rfl | simp (disch := (first | exact sub_trans (by decide) hL | exact Or.inl (has_of_sub hL (by decide)) | exact Or.inr rfl | exact Or.inr fun _ => rfl | (refine Or.inr ?_; intros; repeat' (first | rfl | split)))) only [↓rest_setShelf, ↓rest_mk, ↓rest_ite, ite_self] | (with_reducible refine (rest_setFeature (sub_trans (by decide) hL) _ _ _ _ _ (fun t c => ?_)).trans ?_) | (intro; rfl) | split | (intro; split) | rfl)

theorem rest_execSetEventMask {L : List Part} (hL : sub [.ctxs, .ports, .twin, .kf] L = true) (cid : Nat) (s : State) :
    ∃ tv, execSetEventMask cid s = .next tv ∧ rest L tv = rest L s := by
  unfold execSetEventMask
  repeat' (first | (refine ⟨_, rfl, ?_⟩) | with_reducible rfl | simp (disch := (first | exact sub_trans (by decide) hL | exact Or.inl (has_of_sub hL (by decide)) | exact Or.inr rfl | exact Or.inr fun _ => rfl | (refine Or.inr ?_; intros; repeat' (first | rfl | split)))) only [↓rest_updPort, ↓rest_mk, ↓rest_ite, ite_self] | (with_reducible refine (rest_setFeature (sub_trans (by decide) hL) _ _ _ _ _ (fun t c => ?_)).trans ?_) | (with_reducible refine (rest_updPort (sub_trans (by decide) hL) _ _ _ (.inr ?_)).trans ?_) | (intro; rfl) | split | (intro; split) | rfl)

theorem rest_applyJournalInterval {L : List Part} (hL : sub [.cad, .feat] L = true) (s : State) (ticks : Nat) :
    rest L (applyJournalInterval s ticks) = rest L s := by
  unfold applyJournalInterval
  repeat' (first | with_reducible rfl | simp (disch := (first | exact sub_trans (by decide) hL | exact Or.inl (has_of_sub hL (by decide)) | exact Or.inr rfl | exact Or.inr fun _ => rfl | (refine Or.inr ?_; intros; repeat' (first | rfl | split)))) only [↓rest_updCad, ↓rest_mk, ↓rest_ite, ite_self] | (with_reducible refine (rest_updCad (sub_trans (by decide) hL) _ _ (.inr ?_)).trans ?_) | (intro; rfl) | split | (intro; split) | rfl)

theorem rest_execSetJournalInterval {L : List Part} (hL : sub [.ctxs, .cad, .feat, .twin, .kf] L = true) (cid : Nat) (s : State) :
    ∃ tv, execSetJournalInterval cid s = .next tv ∧ rest L tv = rest L s := by
  unfold execSetJournalInterval
  repeat' (first | (refine ⟨_, rfl, ?_⟩) | with_reducible rfl | simp (disch := (first | exact sub_trans (by decide) hL | exact Or.inl (has_of_sub hL (by decide)) | exact Or.inr rfl | exact Or.inr fun _ => rfl | (refine Or.inr ?_; intros; repeat' (first | rfl | split)))) only [↓rest_applyJournalInterval, ↓rest_mk, ↓rest_ite, ite_self] | (with_reducible refine (rest_setFeature (sub_trans (by decide) hL) _ _ _ _ _ (fun t c => ?_)).trans ?_) | (intro; rfl) | split | (intro; split) | rfl)

theorem rest_execSetRebuildShare {L : List Part} (hL : sub [.ctxs, .feat, .twin, .kf] L = true) (cid : Nat) (s : State) :
    ∃ tv, execSetRebuildShare cid s = .next tv ∧ rest L tv = rest L s := by
  unfold execSetRebuildShare
  repeat' (first | (refine ⟨_, rfl, ?_⟩) | with_reducible rfl | simp (disch := (first | exact sub_trans (by decide) hL | exact Or.inl (has_of_sub hL (by decide)) | exact Or.inr rfl | exact Or.inr fun _ => rfl | (refine Or.inr ?_; intros; repeat' (first | rfl | split)))) only [↓rest_mk, ↓rest_ite, ite_self] | (with_reducible refine (rest_setFeature (sub_trans (by decide) hL) _ _ _ _ _ (fun t c => ?_)).trans ?_) | (intro; rfl) | split | (intro; split) | rfl)

theorem rest_execSetHorizonMinimum {L : List Part} (hL : sub [.out, .ctxs, .evSeq, .evHist, .raised, .condFrom, .ports, .feat, .media, .twin, .kf] L = true) (cid : Nat) (s : State) :
    ∃ tv, execSetHorizonMinimum cid s = .next tv ∧ rest L tv = rest L s := by
  unfold execSetHorizonMinimum
  repeat' (first | (refine ⟨_, rfl, ?_⟩) | with_reducible rfl | simp (disch := (first | exact sub_trans (by decide) hL | exact Or.inl (has_of_sub hL (by decide)) | exact Or.inr rfl | exact Or.inr fun _ => rfl | (refine Or.inr ?_; intros; repeat' (first | rfl | split)))) only [↓rest_endCycle, ↓rest_recomputeHorizon, ↓rest_mk, ↓rest_ite, ite_self] | (with_reducible refine (rest_setFeature (sub_trans (by decide) hL) _ _ _ _ _ (fun t c => ?_)).trans ?_) | (intro; rfl) | split | (intro; split) | rfl)

theorem rest_execSetArchiveTime {L : List Part} (hL : sub [.ctxs, .cad, .twin] L = true) (cid : Nat) (s : State) :
    ∃ tv, execSetArchiveTime cid s = .next tv ∧ rest L tv = rest L s := by
  unfold execSetArchiveTime
  repeat' (first | (refine ⟨_, rfl, ?_⟩) | with_reducible exact none_imp | (with_reducible refine rest_or _ _ ?_ ?_) | (with_reducible refine rest_some ?_) | (with_reducible refine rest_some1 ?_) | (with_reducible refine rest_map _ _ (fun x hx => ?_)) | (with_reducible refine rest_map1 _ _ (fun x hx => ?_)) | (with_reducible refine bind_imp _ _ (fun x hx => ?_)) | (with_reducible refine findSome_imp _ _ (fun x => ?_)) | with_reducible rfl | simp (disch := (first | exact sub_trans (by decide) hL | exact Or.inl (has_of_sub hL (by decide)) | exact Or.inr rfl | exact Or.inr fun _ => rfl | (refine Or.inr ?_; intros; repeat' (first | rfl | split)))) only [↓rest_submitSet, ↓rest_mk, ↓rest_ite, ite_self] | (with_reducible refine (rest_getD _ _ (fun u => ?_)).trans ?_) | (with_reducible refine (rest_featureMirrored (sub_trans (by decide) hL) _ _ _ (fun t => ?_)).trans ?_) | (intro; rfl) | split | (intro; split) | rfl)

theorem rest_execSetUserCalibration {L : List Part} (hL : sub [.ctxs, .kf, .kfMem] L = true) (cid : Nat) (s : State) :
    ∃ tv, execSetUserCalibration cid s = .next tv ∧ rest L tv = rest L s := by
  unfold execSetUserCalibration
  repeat' (first | (refine ⟨_, rfl, ?_⟩) | with_reducible rfl | simp (disch := (first | exact sub_trans (by decide) hL | exact Or.inl (has_of_sub hL (by decide)) | exact Or.inr rfl | exact Or.inr fun _ => rfl | (refine Or.inr ?_; intros; repeat' (first | rfl | split)))) only [↓rest_perform, ↓rest_updKf, ↓rest_mk, ↓rest_ite, ite_self] | (with_reducible refine (rest_updKf (sub_trans (by decide) hL) _ _ (.inr ?_) (.inr ?_)).trans ?_) | (intro; rfl) | split | (intro; split) | rfl)

theorem rest_execGetFeature {L : List Part} (hL : sub [.out, .ctxs, .errSeq, .ports] L = true) (cid : Nat) (s : State) :
    ∃ tv, execGetFeature cid s = .next tv ∧ rest L tv = rest L s := by
  unfold execGetFeature
  repeat' (first | (refine ⟨_, rfl, ?_⟩) | with_reducible rfl | simp (disch := (first | exact sub_trans (by decide) hL | exact Or.inl (has_of_sub hL (by decide)) | exact Or.inr rfl | exact Or.inr fun _ => rfl | (refine Or.inr ?_; intros; repeat' (first | rfl | split)))) only [↓rest_decide_, ↓rest_deliver, ↓rest_perform, ↓rest_mk, ↓rest_ite, ite_self] | (intro; rfl) | split | (intro; split) | rfl)

theorem rest_journalOnce {L : List Part} (hL : sub [.ctxs, .jrnl, .twin] L = true) (s : State) (c : Ctx) (body : JRec) :
    rest L (journalOnce s c body) = rest L s := by
  unfold journalOnce
  repeat' (first | with_reducible rfl | simp (disch := (first | exact sub_trans (by decide) hL | exact Or.inl (has_of_sub hL (by decide)) | exact Or.inr rfl | exact Or.inr fun _ => rfl | (refine Or.inr ?_; intros; repeat' (first | rfl | split)))) only [↓rest_journal, ↓rest_updCtx, ↓rest_mk, ↓rest_ite, ite_self] | (intro; rfl) | split | (intro; split) | rfl)

theorem rest_dropCreating {L : List Part} (hL : sub [.map] L = true) (s : State) (n : Nat) :
    rest L (dropCreating s n) = rest L s := by
  unfold dropCreating
  repeat' (first | with_reducible rfl | simp (disch := (first | exact sub_trans (by decide) hL | exact Or.inl (has_of_sub hL (by decide)) | exact Or.inr rfl | exact Or.inr fun _ => rfl | (refine Or.inr ?_; intros; repeat' (first | rfl | split)))) only [↓rest_updMap, ↓rest_mk, ↓rest_ite, ite_self] | (intro; rfl) | split | (intro; split) | rfl)

theorem rest_keepDeleting {L : List Part} (hL : sub [.map] L = true) (s : State) (n : Nat) :
    rest L (keepDeleting s n) = rest L s := by
  unfold keepDeleting
  repeat' (first | with_reducible rfl | simp (disch := (first | exact sub_trans (by decide) hL | exact Or.inl (has_of_sub hL (by decide)) | exact Or.inr rfl | exact Or.inr fun _ => rfl | (refine Or.inr ?_; intros; repeat' (first | rfl | split)))) only [↓rest_updMap, ↓rest_mk, ↓rest_ite, ite_self] | (intro; rfl) | split | (intro; split) | rfl)

theorem rest_execNamespaceCreate {L : List Part} (hL : sub [.ctxs, .errSeq, .ports, .map, .jrnl, .twin] L = true) (cid : Nat) (s : State) :
    ∃ tv, execNamespaceCreate cid s = .next tv ∧ rest L tv = rest L s := by
  unfold execNamespaceCreate
  repeat' (first | (refine ⟨_, rfl, ?_⟩) | with_reducible rfl | simp (disch := (first | exact sub_trans (by decide) hL | exact Or.inl (has_of_sub hL (by decide)) | exact Or.inr rfl | exact Or.inr fun _ => rfl | (refine Or.inr ?_; intros; repeat' (first | rfl | split)))) only [↓rest_dropCreating, ↓rest_journalOnce, ↓rest_perform, ↓rest_refuseNow, ↓rest_updMap, ↓rest_mk, ↓rest_ite, ite_self] | (intro; rfl) | split | (intro; split) | rfl)

theorem rest_execNamespaceDelete {L : List Part} (hL : sub [.ctxs, .errSeq, .ports, .map, .eng, .media, .jrnl, .twin] L = true) (cid : Nat) (s : State) :
    ∃ tv, execNamespaceDelete cid s = .next tv ∧ rest L tv = rest L s := by
  unfold execNamespaceDelete
  repeat' (first | (refine ⟨_, rfl, ?_⟩) | with_reducible rfl | simp (disch := (first | exact sub_trans (by decide) hL | exact Or.inl (has_of_sub hL (by decide)) | exact Or.inr rfl | exact Or.inr fun _ => rfl | (refine Or.inr ?_; intros; repeat' (first | rfl | split)))) only [↓rest_journalOnce, ↓rest_keepDeleting, ↓rest_perform, ↓rest_refuseNow, ↓rest_settleFull, ↓rest_updEng, ↓rest_updMap, ↓rest_mk, ↓rest_ite, ite_self] | (intro; rfl) | split | (intro; split) | rfl)

end Sys2Proof.Laws
end

