-- ==== Sys2Proof/Laws/FramesJournal.lean ====
section
/-! SUPPORT. Which parts of the state the operations of Machine/Journal.lean may change. -/
namespace Sys2Proof.Laws
open Sys2Proof Sys2Proof.Machine

set_option linter.unreachableTactic false
set_option linter.unusedTactic false

set_option linter.unusedSimpArgs false

theorem rest_flushInto {L : List Part} (hL : sub [.health, .media, .jrnl, .ctr] L = true) (s : State) (seq : Nat) :
    ∀ tv, flushInto s seq = some tv → rest L tv = rest L s := by
  intro tv
  unfold flushInto
  repeat' (first | with_reducible exact none_imp | (with_reducible refine rest_or _ _ ?_ ?_) | (with_reducible refine rest_some ?_) | (with_reducible refine rest_some1 ?_) | (with_reducible refine rest_map _ _ (fun x hx => ?_)) | (with_reducible refine rest_map1 _ _ (fun x hx => ?_)) | (with_reducible refine bind_imp _ _ (fun x hx => ?_)) | (with_reducible refine findSome_imp _ _ (fun x => ?_)) | with_reducible rfl | (with_reducible refine (rest_foldl _ (fun t x => ?_) _ _).trans ?_) | simp (disch := (first | exact sub_trans (by decide) hL | exact Or.inl (has_of_sub hL (by decide)) | exact Or.inr rfl | exact Or.inr fun _ => rfl | (refine Or.inr ?_; intros; repeat' (first | rfl | split)))) only [↓rest_alignPage, ↓rest_updJrnl, ↓rest_mk, ↓rest_ite, ite_self] | (with_reducible refine (rest_foldl1 _ (fun t x => ?_) _ _).trans ?_) | (with_reducible refine (rest_placeRun_eq (sub_trans (by decide) hL) _ _ _ _ _ (by assumption)).trans ?_) | (with_reducible refine (rest_placeRun (sub_trans (by decide) hL) _ _ _ _ _ _ (by assumption)).trans ?_) | (intro h; with_reducible refine (rest_placeRun (sub_trans (by decide) hL) _ _ _ _ _ _ h).trans ?_) | (with_reducible refine (rest_getD _ _ (fun u => ?_)).trans ?_) | (intro; rfl) | split | (intro; split) | rfl)

theorem rest_flushAll {L : List Part} (hL : sub [.health, .media, .jrnl, .ctr] L = true) (s : State) :
    rest L (flushAll s) = rest L s := by
  unfold flushAll
  repeat' (first | with_reducible exact none_imp | (with_reducible refine rest_or _ _ ?_ ?_) | (with_reducible refine rest_some ?_) | (with_reducible refine rest_some1 ?_) | (with_reducible refine rest_map _ _ (fun x hx => ?_)) | (with_reducible refine rest_map1 _ _ (fun x hx => ?_)) | (with_reducible refine bind_imp _ _ (fun x hx => ?_)) | (with_reducible refine findSome_imp _ _ (fun x => ?_)) | with_reducible rfl | (with_reducible refine (rest_foldl _ (fun t x => ?_) _ _).trans ?_) | simp (disch := (first | exact sub_trans (by decide) hL | exact Or.inl (has_of_sub hL (by decide)) | exact Or.inr rfl | exact Or.inr fun _ => rfl | (refine Or.inr ?_; intros; repeat' (first | rfl | split)))) only [↓rest_mk, ↓rest_ite, ite_self] | (with_reducible refine (rest_foldl1 _ (fun t x => ?_) _ _).trans ?_) | (with_reducible refine (rest_flushInto (sub_trans (by decide) hL) _ _ _ (by assumption)).trans ?_) | (intro h; with_reducible refine (rest_flushInto (sub_trans (by decide) hL) _ _ _ h).trans ?_) | (with_reducible refine (rest_getD _ _ (fun u => ?_)).trans ?_) | (intro; rfl) | split | (intro; split) | rfl)

theorem rest_flushJournal {L : List Part} (hL : sub [.cad, .health, .media, .jrnl, .ctr] L = true) (s : State) :
    rest L (flushJournal s) = rest L s := by
  unfold flushJournal
  repeat' (first | with_reducible rfl | simp (disch := (first | exact sub_trans (by decide) hL | exact Or.inl (has_of_sub hL (by decide)) | exact Or.inr rfl | exact Or.inr fun _ => rfl | (refine Or.inr ?_; intros; repeat' (first | rfl | split)))) only [↓rest_flushAll, ↓rest_updCad, ↓rest_mk, ↓rest_ite, ite_self] | (with_reducible refine (rest_updCad (sub_trans (by decide) hL) _ _ (.inr ?_)).trans ?_) | (intro; rfl) | split | (intro; split) | rfl)

theorem rest_execJournalFlush {L : List Part} (hL : sub [.cad, .health, .media, .jrnl, .ctr] L = true) (s : State) :
    ∃ tv, execJournalFlush s = .next tv ∧ rest L tv = rest L s := by
  unfold execJournalFlush
  repeat' (first | (refine ⟨_, rfl, ?_⟩) | with_reducible rfl | simp (disch := (first | exact sub_trans (by decide) hL | exact Or.inl (has_of_sub hL (by decide)) | exact Or.inr rfl | exact Or.inr fun _ => rfl | (refine Or.inr ?_; intros; repeat' (first | rfl | split)))) only [↓rest_flushJournal, ↓rest_settleFull, ↓rest_mk, ↓rest_ite, ite_self] | (intro; rfl) | split | (intro; split) | rfl)

theorem rest_writeTiles {L : List Part} (hL : sub [.health, .eng, .media, .ctr] L = true) (s : State) (l : List (Nat × Nat)) :
    rest L (writeTiles s l) = rest L s := by
  unfold writeTiles
  repeat' (first | with_reducible rfl | (with_reducible refine (rest_foldl _ (fun t x => ?_) _ _).trans ?_) | simp (disch := (first | exact sub_trans (by decide) hL | exact Or.inl (has_of_sub hL (by decide)) | exact Or.inr rfl | exact Or.inr fun _ => rfl | (refine Or.inr ?_; intros; repeat' (first | rfl | split)))) only [↓rest_writeTile, ↓rest_mk, ↓rest_ite, ite_self] | (with_reducible refine (rest_foldl1 _ (fun t x => ?_) _ _).trans ?_) | (intro; rfl) | split | (intro; split) | rfl)

theorem rest_rejournal {L : List Part} (hL : sub [.jrnl, .twin] L = true) (s : State) :
    rest L (rejournal s) = rest L s := by
  unfold rejournal
  repeat' (first | with_reducible rfl | (with_reducible refine (rest_foldl _ (fun t x => ?_) _ _).trans ?_) | simp (disch := (first | exact sub_trans (by decide) hL | exact Or.inl (has_of_sub hL (by decide)) | exact Or.inr rfl | exact Or.inr fun _ => rfl | (refine Or.inr ?_; intros; repeat' (first | rfl | split)))) only [↓rest_journal, ↓rest_mk, ↓rest_ite, ite_self] | (with_reducible refine (rest_foldl1 _ (fun t x => ?_) _ _).trans ?_) | (intro; rfl) | split | (intro; split) | rfl)

theorem rest_padToSettle {L : List Part} (hL : sub [.health, .media, .ctr] L = true) (s : State) (seq : Nat) :
    rest L (padToSettle s seq) = rest L s := by
  unfold padToSettle
  repeat' (first | with_reducible exact none_imp | (with_reducible refine rest_or _ _ ?_ ?_) | (with_reducible refine rest_some ?_) | (with_reducible refine rest_some1 ?_) | (with_reducible refine rest_map _ _ (fun x hx => ?_)) | (with_reducible refine rest_map1 _ _ (fun x hx => ?_)) | (with_reducible refine bind_imp _ _ (fun x hx => ?_)) | (with_reducible refine findSome_imp _ _ (fun x => ?_)) | with_reducible rfl | (with_reducible refine (rest_foldl _ (fun t x => ?_) _ _).trans ?_) | simp (disch := (first | exact sub_trans (by decide) hL | exact Or.inl (has_of_sub hL (by decide)) | exact Or.inr rfl | exact Or.inr fun _ => rfl | (refine Or.inr ?_; intros; repeat' (first | rfl | split)))) only [↓rest_padOpenRow, ↓rest_padPair, ↓rest_updOpen, ↓rest_mk, ↓rest_ite, ite_self] | (with_reducible refine (rest_foldl1 _ (fun t x => ?_) _ _).trans ?_) | (with_reducible refine (rest_getD _ _ (fun u => ?_)).trans ?_) | (intro; rfl) | split | (intro; split) | rfl)

theorem rest_quiesce {L : List Part} (hL : sub [.health, .eng, .media, .jrnl, .ctr] L = true) (s : State) :
    rest L (quiesce s) = rest L s := by
  unfold quiesce
  repeat' (first | with_reducible rfl | (with_reducible refine (rest_foldl _ (fun t x => ?_) _ _).trans ?_) | simp (disch := (first | exact sub_trans (by decide) hL | exact Or.inl (has_of_sub hL (by decide)) | exact Or.inr rfl | exact Or.inr fun _ => rfl | (refine Or.inr ?_; intros; repeat' (first | rfl | split)))) only [↓rest_flushAll, ↓rest_padToSettle, ↓rest_writeTiles, ↓rest_mk, ↓rest_ite, ite_self] | (with_reducible refine (rest_foldl1 _ (fun t x => ?_) _ _).trans ?_) | (intro; rfl) | split | (intro; split) | rfl)

theorem rest_beginCkpt {L : List Part} (hL : sub [.ports, .cad, .health, .eng, .media, .jrnl, .twin, .ctr] L = true) (s : State) (g : CkptTrigger) (clean : Bool) :
    rest L (beginCkpt s g clean) = rest L s := by
  unfold beginCkpt
  repeat' (first | with_reducible rfl | simp (disch := (first | exact sub_trans (by decide) hL | exact Or.inl (has_of_sub hL (by decide)) | exact Or.inr rfl | exact Or.inr fun _ => rfl | (refine Or.inr ?_; intros; repeat' (first | rfl | split)))) only [↓rest_rejournal, ↓rest_rewriteTables, ↓rest_writeTiles, ↓rest_updCad, ↓rest_updJrnl, ↓rest_updPort, ↓rest_mk, ↓rest_ite, ite_self] | (with_reducible refine (rest_updCad (sub_trans (by decide) hL) _ _ (.inr ?_)).trans ?_) | (with_reducible refine (rest_updPort (sub_trans (by decide) hL) _ _ _ (.inr ?_)).trans ?_) | (intro; rfl) | split | (intro; split) | rfl)

theorem rest_execCheckpointStart {L : List Part} (hL : sub [.ports, .cad, .health, .eng, .media, .jrnl, .twin, .ctr] L = true) (trigger : CkptTrigger) (s : State) :
    ∃ tv, execCheckpointStart trigger s = .next tv ∧ rest L tv = rest L s := by
  unfold execCheckpointStart
  repeat' (first | (refine ⟨_, rfl, ?_⟩) | with_reducible rfl | simp (disch := (first | exact sub_trans (by decide) hL | exact Or.inl (has_of_sub hL (by decide)) | exact Or.inr rfl | exact Or.inr fun _ => rfl | (refine Or.inr ?_; intros; repeat' (first | rfl | split)))) only [↓rest_askCkpt, ↓rest_beginCkpt, ↓rest_flushJournal, ↓rest_quiesce, ↓rest_settleFull, ↓rest_mk, ↓rest_ite, ite_self] | (intro; rfl) | split | (intro; split) | rfl)

theorem rest_alignSystem {L : List Part} (hL : sub [.health, .media, .ctr] L = true) (s : State) :
    rest L (alignSystem s) = rest L s := by
  unfold alignSystem
  repeat' (first | with_reducible rfl | (with_reducible refine (rest_foldl _ (fun t x => ?_) _ _).trans ?_) | simp (disch := (first | exact sub_trans (by decide) hL | exact Or.inl (has_of_sub hL (by decide)) | exact Or.inr rfl | exact Or.inr fun _ => rfl | (refine Or.inr ?_; intros; repeat' (first | rfl | split)))) only [↓rest_alignPage, ↓rest_mk, ↓rest_ite, ite_self] | (with_reducible refine (rest_foldl1 _ (fun t x => ?_) _ _).trans ?_) | (intro; rfl) | split | (intro; split) | rfl)

theorem rest_growPiece {L : List Part} (hL : sub [.health, .media, .ctr] L = true) (s : State) (seq : Nat) (x : CkptPiece) :
    rest L (growPiece s seq x).1 = rest L s := by
  unfold growPiece
  repeat' (first | with_reducible exact none_imp | (with_reducible refine rest_or _ _ ?_ ?_) | (with_reducible refine rest_some ?_) | (with_reducible refine rest_some1 ?_) | (with_reducible refine rest_map _ _ (fun x hx => ?_)) | (with_reducible refine rest_map1 _ _ (fun x hx => ?_)) | (with_reducible refine bind_imp _ _ (fun x hx => ?_)) | (with_reducible refine findSome_imp _ _ (fun x => ?_)) | with_reducible rfl | simp (disch := (first | exact sub_trans (by decide) hL | exact Or.inl (has_of_sub hL (by decide)) | exact Or.inr rfl | exact Or.inr fun _ => rfl | (refine Or.inr ?_; intros; repeat' (first | rfl | split)))) only [↓rest_placeMany, ↓rest_mk, ↓rest_ite, ite_self] | (with_reducible refine (rest_placeMany_eq (sub_trans (by decide) hL) _ _ _ _ _ (by assumption)).trans ?_) | (with_reducible refine (rest_getD _ _ (fun u => ?_)).trans ?_) | (intro; rfl) | split | (intro; split) | rfl)
theorem rest_growPiece_eq {L : List Part} (hL : sub [.health, .media, .ctr] L = true) (s : State) (seq : Nat) (x : CkptPiece) {uu aa} (hq : growPiece s seq x = (uu, aa)) : rest L uu = rest L s := by
  have k := rest_growPiece hL s seq x
  rw [hq] at k
  exact k

theorem rest_placePiece {L : List Part} (hL : sub [.health, .media, .ctr] L = true) (s : State) (x : CkptPiece) :
    rest L (placePiece s x).1 = rest L s := by
  unfold placePiece
  repeat' (first | with_reducible rfl | (with_reducible refine (rest_foldl _ (fun t x => ?_) _ _).trans ?_) | simp (disch := (first | exact sub_trans (by decide) hL | exact Or.inl (has_of_sub hL (by decide)) | exact Or.inr rfl | exact Or.inr fun _ => rfl | (refine Or.inr ?_; intros; repeat' (first | rfl | split)))) only [↓rest_growPiece, ↓rest_mk, ↓rest_ite, ite_self] | (with_reducible refine (rest_foldl1 _ (fun t x => ?_) _ _).trans ?_) | (with_reducible refine (rest_growPiece_eq (sub_trans (by decide) hL) _ _ _ (by assumption)).trans ?_) | (intro; rfl) | split | (intro; split) | rfl)
theorem rest_placePiece_eq {L : List Part} (hL : sub [.health, .media, .ctr] L = true) (s : State) (x : CkptPiece) {uu aa} (hq : placePiece s x = (uu, aa)) : rest L uu = rest L s := by
  have k := rest_placePiece hL s x
  rw [hq] at k
  exact k

theorem rest_placePieces {L : List Part} (hL : sub [.health, .media, .ctr] L = true) (s : State) (xs : List CkptPiece) :
    rest L (placePieces s xs).1 = rest L s := by
  fun_induction placePieces s xs
  · rfl
  · exact rest_placePiece (sub_trans (by decide) hL) _ _
  · rename_i y _ z ih
    exact ih.trans (rest_placePiece (sub_trans (by decide) hL) _ _)

theorem rest_pushRow {L : List Part} (hL : sub [.health, .media, .ctr] L = true) (s : State) (seq : Nat) :
    rest L (pushRow s seq) = rest L s := by
  unfold pushRow
  repeat' (first | with_reducible exact none_imp | (with_reducible refine rest_or _ _ ?_ ?_) | (with_reducible refine rest_some ?_) | (with_reducible refine rest_some1 ?_) | (with_reducible refine rest_map _ _ (fun x hx => ?_)) | (with_reducible refine rest_map1 _ _ (fun x hx => ?_)) | (with_reducible refine bind_imp _ _ (fun x hx => ?_)) | (with_reducible refine findSome_imp _ _ (fun x => ?_)) | with_reducible rfl | (with_reducible refine (rest_foldl _ (fun t x => ?_) _ _).trans ?_) | simp (disch := (first | exact sub_trans (by decide) hL | exact Or.inl (has_of_sub hL (by decide)) | exact Or.inr rfl | exact Or.inr fun _ => rfl | (refine Or.inr ?_; intros; repeat' (first | rfl | split)))) only [↓rest_padOpenRow, ↓rest_padRow, ↓rest_startRow, ↓rest_mk, ↓rest_ite, ite_self] | (with_reducible refine (rest_foldl1 _ (fun t x => ?_) _ _).trans ?_) | (with_reducible refine (rest_startRow_eq (sub_trans (by decide) hL) _ _ (by assumption)).trans ?_) | (with_reducible refine (rest_getD _ _ (fun u => ?_)).trans ?_) | (intro; rfl) | split | (intro; split) | rfl)

theorem rest_wearRescue {L : List Part} (hL : sub [.cad, .media] L = true) (s : State) (p : Nat) :
    rest L (wearRescue s p) = rest L s := by
  unfold wearRescue
  repeat' (first | with_reducible rfl | simp (disch := (first | exact sub_trans (by decide) hL | exact Or.inl (has_of_sub hL (by decide)) | exact Or.inr rfl | exact Or.inr fun _ => rfl | (refine Or.inr ?_; intros; repeat' (first | rfl | split)))) only [↓rest_updProf, ↓rest_updCad, ↓rest_mk, ↓rest_ite, ite_self] | (with_reducible refine (rest_updCad (sub_trans (by decide) hL) _ _ (.inr ?_)).trans ?_) | (intro; rfl) | split | (intro; split) | rfl)

theorem rest_sealClean {L : List Part} (hL : sub [.health, .media, .jrnl, .ctr] L = true) (s : State) :
    rest L (sealClean s) = rest L s := by
  unfold sealClean
  repeat' (first | with_reducible rfl | (with_reducible refine (rest_foldl _ (fun t x => ?_) _ _).trans ?_) | simp (disch := (first | exact sub_trans (by decide) hL | exact Or.inl (has_of_sub hL (by decide)) | exact Or.inr rfl | exact Or.inr fun _ => rfl | (refine Or.inr ?_; intros; repeat' (first | rfl | split)))) only [↓rest_flushAll, ↓rest_padToSettle, ↓rest_mk, ↓rest_ite, ite_self] | (with_reducible refine (rest_foldl1 _ (fun t x => ?_) _ _).trans ?_) | (intro; rfl) | split | (intro; split) | rfl)

theorem rest_takeCkpt {L : List Part} (hL : sub [.cad, .health, .media, .jrnl, .twin, .kf, .kfMem, .ctr] L = true) (s : State) (k : Ckpt) :
    rest L (takeCkpt s k) = rest L s := by
  unfold takeCkpt
  repeat' (first | with_reducible rfl | (with_reducible refine (rest_foldl _ (fun t x => ?_) _ _).trans ?_) | simp (disch := (first | exact sub_trans (by decide) hL | exact Or.inl (has_of_sub hL (by decide)) | exact Or.inr rfl | exact Or.inr fun _ => rfl | (refine Or.inr ?_; intros; repeat' (first | rfl | split)))) only [↓rest_journal, ↓rest_sealClean, ↓rest_settleCkpt, ↓rest_wearRescue, ↓rest_updJrnl, ↓rest_updMedia, ↓rest_mk, ↓rest_ite, ite_self] | (with_reducible refine (rest_foldl1 _ (fun t x => ?_) _ _).trans ?_) | (intro; rfl) | split | (intro; split) | rfl)

theorem rest_ckptStep {L : List Part} (hL : sub [.cad, .health, .media, .jrnl, .twin, .kf, .kfMem, .ctr] L = true) (s : State) (r : CkptRun) :
    rest L (ckptStep s r) = rest L s := by
  unfold ckptStep
  repeat' (first | with_reducible exact none_imp | (with_reducible refine rest_or _ _ ?_ ?_) | (with_reducible refine rest_some ?_) | (with_reducible refine rest_some1 ?_) | (with_reducible refine rest_map _ _ (fun x hx => ?_)) | (with_reducible refine rest_map1 _ _ (fun x hx => ?_)) | (with_reducible refine bind_imp _ _ (fun x hx => ?_)) | (with_reducible refine findSome_imp _ _ (fun x => ?_)) | with_reducible rfl | (with_reducible refine (rest_foldl _ (fun t x => ?_) _ _).trans ?_) | simp (disch := (first | exact sub_trans (by decide) hL | exact Or.inl (has_of_sub hL (by decide)) | exact Or.inr rfl | exact Or.inr fun _ => rfl | (refine Or.inr ?_; intros; repeat' (first | rfl | split)))) only [↓rest_alignSystem, ↓rest_padToSettle, ↓rest_placePiece, ↓rest_placePieces, ↓rest_pushRow, ↓rest_takeCkpt, ↓rest_updJrnl, ↓rest_mk, ↓rest_ite, ite_self] | (with_reducible refine (rest_foldl1 _ (fun t x => ?_) _ _).trans ?_) | (with_reducible refine (rest_placePiece_eq (sub_trans (by decide) hL) _ _ (by assumption)).trans ?_) | (with_reducible refine (rest_placePieces_eq (sub_trans (by decide) hL) _ _ (by assumption)).trans ?_) | (with_reducible refine (rest_getD _ _ (fun u => ?_)).trans ?_) | (intro; rfl) | split | (intro; split) | rfl)

theorem rest_execCheckpointRootWrite {L : List Part} (hL : sub [.cad, .health, .media, .jrnl, .twin, .kf, .kfMem, .ctr] L = true) (s : State) :
    ∃ tv, execCheckpointRootWrite s = .next tv ∧ rest L tv = rest L s := by
  unfold execCheckpointRootWrite
  repeat' (first | (refine ⟨_, rfl, ?_⟩) | with_reducible rfl | simp (disch := (first | exact sub_trans (by decide) hL | exact Or.inl (has_of_sub hL (by decide)) | exact Or.inr rfl | exact Or.inr fun _ => rfl | (refine Or.inr ?_; intros; repeat' (first | rfl | split)))) only [↓rest_ckptStep, ↓rest_settleFull, ↓rest_mk, ↓rest_ite, ite_self] | (intro; rfl) | split | (intro; split) | rfl)

end Sys2Proof.Laws
end

