-- ==== Sys2Proof/Laws/FramesStop.lean ====
section
/-! SUPPORT. Which parts of the state the operations of Machine/Stop.lean may change. -/
namespace Sys2Proof.Laws
open Sys2Proof Sys2Proof.Machine

set_option linter.unreachableTactic false
set_option linter.unusedTactic false

set_option linter.unusedSimpArgs false

theorem rest_noteWake {L : List Part} (hL : sub [.power] L = true) (s : State) (code from_ : Nat) :
    rest L (noteWake s code from_) = rest L s := by
  unfold noteWake
  repeat' (first | with_reducible rfl | simp (disch := (first | exact sub_trans (by decide) hL | exact Or.inl (has_of_sub hL (by decide)) | exact Or.inr rfl | exact Or.inr fun _ => rfl | (refine Or.inr ?_; intros; repeat' (first | rfl | split)))) only [↓rest_updPower, ↓rest_mk, ↓rest_ite, ite_self] | (with_reducible refine (rest_updPower (sub_trans (by decide) hL) _ _ (.inr ?_)).trans ?_) | (intro; rfl) | split | (intro; split) | rfl)

theorem rest_toPs0 {L : List Part} (hL : sub [.power] L = true) (s : State) :
    rest L (toPs0 s) = rest L s := by
  unfold toPs0
  repeat' (first | with_reducible rfl | simp (disch := (first | exact sub_trans (by decide) hL | exact Or.inl (has_of_sub hL (by decide)) | exact Or.inr rfl | exact Or.inr fun _ => rfl | (refine Or.inr ?_; intros; repeat' (first | rfl | split)))) only [↓rest_updPower, ↓rest_mk, ↓rest_ite, ite_self] | (with_reducible refine (rest_updPower (sub_trans (by decide) hL) _ _ (.inr ?_)).trans ?_) | (intro; rfl) | split | (intro; split) | rfl)

theorem rest_countRefusal {L : List Part} (hL : sub [.power] L = true) (s : State) (reason target : Nat) :
    rest L (countRefusal s reason target) = rest L s := by
  unfold countRefusal
  repeat' (first | with_reducible rfl | simp (disch := (first | exact sub_trans (by decide) hL | exact Or.inl (has_of_sub hL (by decide)) | exact Or.inr rfl | exact Or.inr fun _ => rfl | (refine Or.inr ?_; intros; repeat' (first | rfl | split)))) only [↓rest_updPower, ↓rest_mk, ↓rest_ite, ite_self] | (with_reducible refine (rest_updPower (sub_trans (by decide) hL) _ _ (.inr ?_)).trans ?_) | (intro; rfl) | split | (intro; split) | rfl)

theorem rest_unparkBays {L : List Part} (hL : sub [.media] L = true) (s : State) (deep : Bool) :
    rest L (unparkBays s deep) = rest L s := by
  unfold unparkBays
  repeat' (first | with_reducible rfl | simp (disch := (first | exact sub_trans (by decide) hL | exact Or.inl (has_of_sub hL (by decide)) | exact Or.inr rfl | exact Or.inr fun _ => rfl | (refine Or.inr ?_; intros; repeat' (first | rfl | split)))) only [↓rest_updMedia, ↓rest_mk, ↓rest_ite, ite_self] | (intro; rfl) | split | (intro; split) | rfl)

theorem rest_parkBays {L : List Part} (hL : sub [.media] L = true) (s : State) (deep : Bool) :
    rest L (parkBays s deep) = rest L s := by
  unfold parkBays
  repeat' (first | with_reducible rfl | simp (disch := (first | exact sub_trans (by decide) hL | exact Or.inl (has_of_sub hL (by decide)) | exact Or.inr rfl | exact Or.inr fun _ => rfl | (refine Or.inr ?_; intros; repeat' (first | rfl | split)))) only [↓rest_updMedia, ↓rest_mk, ↓rest_ite, ite_self] | (intro; rfl) | split | (intro; split) | rfl)

theorem rest_abandonEntry {L : List Part} (hL : sub [.media, .power] L = true) (s : State) (reason : Nat) :
    rest L (abandonEntry s reason) = rest L s := by
  unfold abandonEntry
  repeat' (first | with_reducible rfl | simp (disch := (first | exact sub_trans (by decide) hL | exact Or.inl (has_of_sub hL (by decide)) | exact Or.inr rfl | exact Or.inr fun _ => rfl | (refine Or.inr ?_; intros; repeat' (first | rfl | split)))) only [↓rest_countRefusal, ↓rest_toPs0, ↓rest_unparkBays, ↓rest_mk, ↓rest_ite, ite_self] | (intro; rfl) | split | (intro; split) | rfl)

theorem rest_placeHoldup {L : List Part} (hL : sub [.health, .media, .ctr] L = true) (s : State) (h : Holdup) (seq : Nat) :
    ∀ tv, placeHoldup s h seq = some tv → rest L tv.1 = rest L s := by
  intro tv
  unfold placeHoldup
  repeat' (first | with_reducible exact none_imp | (with_reducible refine rest_or _ _ ?_ ?_) | (with_reducible refine rest_some ?_) | (with_reducible refine rest_some1 ?_) | (with_reducible refine rest_map _ _ (fun x hx => ?_)) | (with_reducible refine rest_map1 _ _ (fun x hx => ?_)) | (with_reducible refine bind_imp _ _ (fun x hx => ?_)) | (with_reducible refine findSome_imp _ _ (fun x => ?_)) | with_reducible rfl | simp (disch := (first | exact sub_trans (by decide) hL | exact Or.inl (has_of_sub hL (by decide)) | exact Or.inr rfl | exact Or.inr fun _ => rfl | (refine Or.inr ?_; intros; repeat' (first | rfl | split)))) only [↓rest_alignPage, ↓rest_padOpenRow, ↓rest_mk, ↓rest_ite, ite_self] | (with_reducible refine (rest_placeRun_eq (sub_trans (by decide) hL) _ _ _ _ _ (by assumption)).trans ?_) | (with_reducible refine (rest_placeRun (sub_trans (by decide) hL) _ _ _ _ _ _ (by assumption)).trans ?_) | (intro h; with_reducible refine (rest_placeRun (sub_trans (by decide) hL) _ _ _ _ _ _ h).trans ?_) | (with_reducible refine (rest_getD _ _ (fun u => ?_)).trans ?_) | (intro; rfl) | split | (intro; split) | rfl)
theorem rest_placeHoldup_eq {L : List Part} (hL : sub [.health, .media, .ctr] L = true) (s : State) (h : Holdup) (seq : Nat) {uu aa} (hq : placeHoldup s h seq = some (uu, aa)) : rest L uu = rest L s :=
  rest_placeHoldup hL s h seq  _ hq

theorem rest_suspendErases {L : List Part} (hL : sub [.media] L = true) (s : State) :
    rest L (suspendErases s) = rest L s := by
  unfold suspendErases
  repeat' (first | with_reducible rfl | simp (disch := (first | exact sub_trans (by decide) hL | exact Or.inl (has_of_sub hL (by decide)) | exact Or.inr rfl | exact Or.inr fun _ => rfl | (refine Or.inr ?_; intros; repeat' (first | rfl | split)))) only [↓rest_updMedia, ↓rest_mk, ↓rest_ite, ite_self] | (intro; rfl) | split | (intro; split) | rfl)

theorem rest_placeRecord {L : List Part} (hL : sub [.health, .media, .ctr] L = true) (s : State) (h : Holdup) :
    ∀ tv, placeRecord s h = some tv → rest L tv.1 = rest L s := by
  intro tv
  unfold placeRecord
  repeat' (first | with_reducible exact none_imp | (with_reducible refine rest_or _ _ ?_ ?_) | (with_reducible refine rest_some ?_) | (with_reducible refine rest_some1 ?_) | (with_reducible refine rest_map _ _ (fun x hx => ?_)) | (with_reducible refine rest_map1 _ _ (fun x hx => ?_)) | (with_reducible refine bind_imp _ _ (fun x hx => ?_)) | (with_reducible refine findSome_imp _ _ (fun x => ?_)) | with_reducible rfl | simp (disch := (first | exact sub_trans (by decide) hL | exact Or.inl (has_of_sub hL (by decide)) | exact Or.inr rfl | exact Or.inr fun _ => rfl | (refine Or.inr ?_; intros; repeat' (first | rfl | split)))) only [↓rest_mk, ↓rest_ite, ite_self] | (with_reducible refine (rest_placeHoldup_eq (sub_trans (by decide) hL) _ _ _ (by assumption)).trans ?_) | (with_reducible refine (rest_placeHoldup (sub_trans (by decide) hL) _ _ _ _ (by assumption)).trans ?_) | (intro h; with_reducible refine (rest_placeHoldup (sub_trans (by decide) hL) _ _ _ _ h).trans ?_) | (with_reducible refine rest_findSome _ _ (fun x uu h => ?_) (by assumption)) | (with_reducible refine (rest_getD _ _ (fun u => ?_)).trans ?_) | (intro; rfl) | split | (intro; split) | rfl)
theorem rest_placeRecord_eq {L : List Part} (hL : sub [.health, .media, .ctr] L = true) (s : State) (h : Holdup) {uu aa} (hq : placeRecord s h = some (uu, aa)) : rest L uu = rest L s :=
  rest_placeRecord hL s h  _ hq

theorem rest_saveHoldup {L : List Part} (hL : sub [.free, .health, .media, .jrnl, .ctr] L = true) (s : State) (skip : List Nat) :
    rest L (saveHoldup s skip).1 = rest L s := by
  unfold saveHoldup
  repeat' (first | with_reducible rfl | simp (disch := (first | exact sub_trans (by decide) hL | exact Or.inl (has_of_sub hL (by decide)) | exact Or.inr rfl | exact Or.inr fun _ => rfl | (refine Or.inr ?_; intros; repeat' (first | rfl | split)))) only [↓rest_drawFrees, ↓rest_suspendErases, ↓rest_unparkBays, ↓rest_updJrnl, ↓rest_mk, ↓rest_ite, ite_self] | (with_reducible refine (rest_placeRecord_eq (sub_trans (by decide) hL) _ _ (by assumption)).trans ?_) | (with_reducible refine (rest_placeRecord (sub_trans (by decide) hL) _ _ _ (by assumption)).trans ?_) | (intro h; with_reducible refine (rest_placeRecord (sub_trans (by decide) hL) _ _ _ h).trans ?_) | (intro; rfl) | split | (intro; split) | rfl)
theorem rest_saveHoldup_eq {L : List Part} (hL : sub [.free, .health, .media, .jrnl, .ctr] L = true) (s : State) (skip : List Nat) {uu aa} (hq : saveHoldup s skip = (uu, aa)) : rest L uu = rest L s := by
  have k := rest_saveHoldup hL s skip
  rw [hq] at k
  exact k

theorem rest_recordStop {L : List Part} (hL : sub [.jrnl, .twin, .kf, .kfMem] L = true) (s : State) (kind : StopKind) (holdup : Option (Nat × Madr)) :
    rest L (recordStop s kind holdup) = rest L s := by
  unfold recordStop
  repeat' (first | with_reducible rfl | simp (disch := (first | exact sub_trans (by decide) hL | exact Or.inl (has_of_sub hL (by decide)) | exact Or.inr rfl | exact Or.inr fun _ => rfl | (refine Or.inr ?_; intros; repeat' (first | rfl | split)))) only [↓rest_mirrorFrame, ↓rest_putStop, ↓rest_mk, ↓rest_ite, ite_self] | (intro; rfl) | split | (intro; split) | rfl)

theorem rest_beginStop {L : List Part} (hL : sub [.free, .health, .media, .jrnl, .twin, .kf, .kfMem, .ctr] L = true) (s : State) (kind : StopKind) (skip : List Nat) (record : Bool) :
    rest L (beginStop s kind skip record) = rest L s := by
  unfold beginStop
  repeat' (first | with_reducible rfl | simp (disch := (first | exact sub_trans (by decide) hL | exact Or.inl (has_of_sub hL (by decide)) | exact Or.inr rfl | exact Or.inr fun _ => rfl | (refine Or.inr ?_; intros; repeat' (first | rfl | split)))) only [↓rest_recordStop, ↓rest_saveHoldup, ↓rest_updJrnl, ↓rest_mk, ↓rest_ite, ite_self] | (with_reducible refine (rest_saveHoldup_eq (sub_trans (by decide) hL) _ _ (by assumption)).trans ?_) | (intro; rfl) | split | (intro; split) | rfl)

theorem rest_stopAtOnce {L : List Part} (hL : sub [.jrnl] L = true) (s : State) (kind : StopKind) :
    rest L (stopAtOnce s kind) = rest L s := by
  unfold stopAtOnce
  repeat' (first | with_reducible rfl | simp (disch := (first | exact sub_trans (by decide) hL | exact Or.inl (has_of_sub hL (by decide)) | exact Or.inr rfl | exact Or.inr fun _ => rfl | (refine Or.inr ?_; intros; repeat' (first | rfl | split)))) only [↓rest_updJrnl, ↓rest_mk, ↓rest_ite, ite_self] | (intro; rfl) | split | (intro; split) | rfl)

theorem rest_powerStop {L : List Part} (hL : sub [.free, .health, .media, .jrnl, .twin, .kf, .kfMem, .power, .ctr] L = true) (s : State) :
    rest L (powerStop s) = rest L s := by
  unfold powerStop
  repeat' (first | with_reducible exact none_imp | (with_reducible refine rest_or _ _ ?_ ?_) | (with_reducible refine rest_some ?_) | (with_reducible refine rest_some1 ?_) | (with_reducible refine rest_map _ _ (fun x hx => ?_)) | (with_reducible refine rest_map1 _ _ (fun x hx => ?_)) | (with_reducible refine bind_imp _ _ (fun x hx => ?_)) | (with_reducible refine findSome_imp _ _ (fun x => ?_)) | with_reducible rfl | simp (disch := (first | exact sub_trans (by decide) hL | exact Or.inl (has_of_sub hL (by decide)) | exact Or.inr rfl | exact Or.inr fun _ => rfl | (refine Or.inr ?_; intros; repeat' (first | rfl | split)))) only [↓rest_abandonEntry, ↓rest_beginStop, ↓rest_noteWake, ↓rest_stopAtOnce, ↓rest_toPs0, ↓rest_unparkBays, ↓rest_updPower, ↓rest_mk, ↓rest_ite, ite_self] | (with_reducible refine (rest_getD _ _ (fun u => ?_)).trans ?_) | (with_reducible refine (rest_updPower (sub_trans (by decide) hL) _ _ (.inr ?_)).trans ?_) | (intro; rfl) | split | (intro; split) | rfl)

theorem rest_execPwrfailFall {L : List Part} (hL : sub [.now, .free, .health, .media, .jrnl, .twin, .kf, .kfMem, .power, .ctr, .side] L = true) (cyc : Nat) (s : State) :
    ∃ tv, execPwrfailFall cyc s = .next tv ∧ rest L tv = rest L s := by
  unfold execPwrfailFall
  repeat' (first | (refine ⟨_, rfl, ?_⟩) | with_reducible rfl | simp (disch := (first | exact sub_trans (by decide) hL | exact Or.inl (has_of_sub hL (by decide)) | exact Or.inr rfl | exact Or.inr fun _ => rfl | (refine Or.inr ?_; intros; repeat' (first | rfl | split)))) only [↓rest_advanceTo, ↓rest_powerStop, ↓rest_updSide, ↓rest_mk, ↓rest_ite, ite_self] | (with_reducible refine (rest_updSide (sub_trans (by decide) hL) _ _ (.inr ?_)).trans ?_) | (intro; rfl) | split | (intro; split) | rfl)

theorem rest_failPart {L : List Part} (hL : sub [.free, .cond, .ctxs, .errSeq, .condFrom, .ports, .health, .media, .jrnl, .twin, .kf, .kfMem, .ctr] L = true) (s : State) (keeperFailed : Bool) :
    rest L (failPart s keeperFailed) = rest L s := by
  unfold failPart
  repeat' (first | with_reducible rfl | (with_reducible refine (rest_foldl _ (fun t x => ?_) _ _).trans ?_) | simp (disch := (first | exact sub_trans (by decide) hL | exact Or.inl (has_of_sub hL (by decide)) | exact Or.inr rfl | exact Or.inr fun _ => rfl | (refine Or.inr ?_; intros; repeat' (first | rfl | split)))) only [↓rest_beginStop, ↓rest_refuseNow, ↓rest_sendFrame, ↓rest_setFlags, ↓rest_mk, ↓rest_ite, ite_self] | (with_reducible refine (rest_foldl1 _ (fun t x => ?_) _ _).trans ?_) | (intro; rfl) | split | (intro; split) | rfl)

theorem rest_execFailedSet {L : List Part} (hL : sub [.free, .cond, .out, .ctxs, .errSeq, .evSeq, .evHist, .raised, .condFrom, .ports, .health, .media, .jrnl, .twin, .kf, .kfMem, .ctr] L = true) (keeperFailed : Bool) (s : State) :
    ∃ tv, execFailedSet keeperFailed s = .next tv ∧ rest L tv = rest L s := by
  unfold execFailedSet
  repeat' (first | (refine ⟨_, rfl, ?_⟩) | with_reducible rfl | simp (disch := (first | exact sub_trans (by decide) hL | exact Or.inl (has_of_sub hL (by decide)) | exact Or.inr rfl | exact Or.inr fun _ => rfl | (refine Or.inr ?_; intros; repeat' (first | rfl | split)))) only [↓rest_endCycle, ↓rest_failPart, ↓rest_mk, ↓rest_ite, ite_self] | (intro; rfl) | split | (intro; split) | rfl)

end Sys2Proof.Laws
end

