-- ==== Sys2Proof/Laws/FramesReset.lean ====
section
/-! SUPPORT. Which parts of the state the operations of Machine/Reset.lean may change. -/
namespace Sys2Proof.Laws
open Sys2Proof Sys2Proof.Machine

set_option linter.unreachableTactic false
set_option linter.unusedTactic false

set_option linter.unusedSimpArgs false

theorem rest_beginLogs {L : List Part} (hL : sub [.ports] L = true) (s : State) (kind : Nat) :
    rest L (beginLogs s kind) = rest L s := by
  unfold beginLogs
  repeat' (first | with_reducible rfl | simp (disch := (first | exact sub_trans (by decide) hL | exact Or.inl (has_of_sub hL (by decide)) | exact Or.inr rfl | exact Or.inr fun _ => rfl | (refine Or.inr ?_; intros; repeat' (first | rfl | split)))) only [↓rest_beginLog, ↓rest_mk, ↓rest_ite, ite_self] | (intro; rfl) | split | (intro; split) | rfl)

theorem rest_internalReset {L : List Part} (hL : sub [.now, .free, .cond, .readData, .out, .csnNext, .csnIssued, .csnBlock, .ctxs, .errSeq, .evSeq, .evHist, .raised, .condFrom, .ports, .portCtl, .cad, .cadCtl, .feat, .health, .map, .eng, .media, .jrnl, .twin, .twinCtl, .dig, .pods, .mover, .kf, .kfMem, .kfCtl, .power, .powerCtl, .ctr, .ctrCtl, .side, .sideCtl] L = true) (s : State) (kind : Nat) :
    rest L (internalReset s kind) = rest L s := by
  unfold internalReset
  repeat' (first | with_reducible rfl | simp (disch := (first | exact sub_trans (by decide) hL | exact Or.inl (has_of_sub hL (by decide)) | exact Or.inr rfl | exact Or.inr fun _ => rfl | (refine Or.inr ?_; intros; repeat' (first | rfl | split)))) only [↓rest_beginLogs, ↓rest_mk, ↓rest_ite, ite_self] | (intro; rfl) | split | (intro; split) | rfl)

theorem rest_letGo {L : List Part} (hL : sub [.ports, .media, .twin] L = true) (s : State) :
    rest L (letGo s) = rest L s := by
  unfold letGo
  repeat' (first | with_reducible rfl | simp (disch := (first | exact sub_trans (by decide) hL | exact Or.inl (has_of_sub hL (by decide)) | exact Or.inr rfl | exact Or.inr fun _ => rfl | (refine Or.inr ?_; intros; repeat' (first | rfl | split)))) only [↓rest_updMedia, ↓rest_updPort, ↓rest_updTwin, ↓rest_mk, ↓rest_ite, ite_self] | (with_reducible refine (rest_updPort (sub_trans (by decide) hL) _ _ _ (.inr ?_)).trans ?_) | (with_reducible refine (rest_updTwin (sub_trans (by decide) hL) _ _ (.inr ?_)).trans ?_) | (intro; rfl) | split | (intro; split) | rfl)

theorem rest_endStop {L : List Part} (hL : sub [.ports, .media, .jrnl, .twin] L = true) (s : State) :
    rest L (endStop s) = rest L s := by
  unfold endStop
  repeat' (first | with_reducible exact none_imp | (with_reducible refine rest_or _ _ ?_ ?_) | (with_reducible refine rest_some ?_) | (with_reducible refine rest_some1 ?_) | (with_reducible refine rest_map _ _ (fun x hx => ?_)) | (with_reducible refine rest_map1 _ _ (fun x hx => ?_)) | (with_reducible refine bind_imp _ _ (fun x hx => ?_)) | (with_reducible refine findSome_imp _ _ (fun x => ?_)) | with_reducible rfl | simp (disch := (first | exact sub_trans (by decide) hL | exact Or.inl (has_of_sub hL (by decide)) | exact Or.inr rfl | exact Or.inr fun _ => rfl | (refine Or.inr ?_; intros; repeat' (first | rfl | split)))) only [↓rest_letGo, ↓rest_updJrnl, ↓rest_updMedia, ↓rest_mk, ↓rest_ite, ite_self] | (with_reducible refine (rest_getD _ _ (fun u => ?_)).trans ?_) | (intro; rfl) | split | (intro; split) | rfl)

theorem rest_execPorstAssert {L : List Part} (hL : sub [.now, .free, .cond, .readData, .out, .csnNext, .csnIssued, .csnBlock, .ctxs, .errSeq, .evSeq, .evHist, .raised, .condFrom, .ports, .portCtl, .cad, .cadCtl, .feat, .health, .map, .eng, .media, .jrnl, .twin, .twinCtl, .dig, .pods, .mover, .kf, .kfMem, .kfCtl, .power, .powerCtl, .ctr, .ctrCtl, .side, .sideCtl] L = true) (cyc : Nat) (s : State) :
    ∃ tv, execPorstAssert cyc s = .next tv ∧ rest L tv = rest L s := by
  unfold execPorstAssert
  repeat' (first | (refine ⟨_, rfl, ?_⟩) | with_reducible rfl | simp (disch := (first | exact sub_trans (by decide) hL | exact Or.inl (has_of_sub hL (by decide)) | exact Or.inr rfl | exact Or.inr fun _ => rfl | (refine Or.inr ?_; intros; repeat' (first | rfl | split)))) only [↓rest_advanceTo, ↓rest_beginStop, ↓rest_internalReset, ↓rest_updKf, ↓rest_mk, ↓rest_ite, ite_self] | (with_reducible refine (rest_updKf (sub_trans (by decide) hL) _ _ (.inr ?_) (.inr ?_)).trans ?_) | (intro; rfl) | split | (intro; split) | rfl)

theorem rest_execAlwaysOnPowerUp {L : List Part} (hL : sub [.now, .free, .cond, .readData, .out, .csnNext, .csnIssued, .csnBlock, .ctxs, .errSeq, .evSeq, .evHist, .raised, .condFrom, .ports, .portCtl, .cad, .cadCtl, .feat, .health, .map, .eng, .media, .jrnl, .twin, .twinCtl, .dig, .pods, .mover, .kf, .kfMem, .kfCtl, .power, .powerCtl, .ctr, .ctrCtl, .side, .sideCtl] L = true) (s : State) :
    ∃ tv, execAlwaysOnPowerUp s = .next tv ∧ rest L tv = rest L s := by
  unfold execAlwaysOnPowerUp
  repeat' (first | (refine ⟨_, rfl, ?_⟩) | with_reducible rfl | simp (disch := (first | exact sub_trans (by decide) hL | exact Or.inl (has_of_sub hL (by decide)) | exact Or.inr rfl | exact Or.inr fun _ => rfl | (refine Or.inr ?_; intros; repeat' (first | rfl | split)))) only [↓rest_internalReset, ↓rest_updKf, ↓rest_updPower, ↓rest_updSide, ↓rest_mk, ↓rest_ite, ite_self] | (with_reducible refine (rest_updKf (sub_trans (by decide) hL) _ _ (.inr ?_) (.inr ?_)).trans ?_) | (with_reducible refine (rest_updPower (sub_trans (by decide) hL) _ _ (.inr ?_)).trans ?_) | (with_reducible refine (rest_updSide (sub_trans (by decide) hL) _ _ (.inr ?_)).trans ?_) | (intro; rfl) | split | (intro; split) | rfl)

end Sys2Proof.Laws
end

