-- ==== Sys2Proof/Laws/FramesBoot.lean ====
section
/-! SUPPORT. Which parts of the state the operations of Machine/Boot.lean may change. -/
namespace Sys2Proof.Laws
open Sys2Proof Sys2Proof.Machine

set_option linter.unreachableTactic false
set_option linter.unusedTactic false

set_option linter.unusedSimpArgs false

theorem rest_slotEvents {L : List Part} (hL : sub [.raised] L = true) (s : State) (l : List Nat) (code reason : Nat) :
    rest L (slotEvents s l code reason) = rest L s := by
  unfold slotEvents
  repeat' (first | with_reducible rfl | (with_reducible refine (rest_foldl _ (fun t x => ?_) _ _).trans ?_) | simp (disch := (first | exact sub_trans (by decide) hL | exact Or.inl (has_of_sub hL (by decide)) | exact Or.inr rfl | exact Or.inr fun _ => rfl | (refine Or.inr ?_; intros; repeat' (first | rfl | split)))) only [↓rest_raiseEvent, ↓rest_mk, ↓rest_ite, ite_self] | (with_reducible refine (rest_foldl1 _ (fun t x => ?_) _ _).trans ?_) | (intro; rfl) | split | (intro; split) | rfl)

theorem rest_resolveBoot {L : List Part} (hL : sub [.raised, .kf, .kfMem] L = true) (s : State) :
    rest L (resolveBoot s) = rest L s := by
  unfold resolveBoot
  repeat' (first | with_reducible rfl | simp (disch := (first | exact sub_trans (by decide) hL | exact Or.inl (has_of_sub hL (by decide)) | exact Or.inr rfl | exact Or.inr fun _ => rfl | (refine Or.inr ?_; intros; repeat' (first | rfl | split)))) only [↓rest_putBoot, ↓rest_slotEvents, ↓rest_mk, ↓rest_ite, ite_self] | (intro; rfl) | split | (intro; split) | rfl)

theorem rest_recordFailing {L : List Part} (hL : sub [.raised, .kf, .kfMem] L = true) (s : State) (slot : Nat) (r : Reject) :
    rest L (recordFailing s slot r) = rest L s := by
  unfold recordFailing
  repeat' (first | with_reducible rfl | simp (disch := (first | exact sub_trans (by decide) hL | exact Or.inl (has_of_sub hL (by decide)) | exact Or.inr rfl | exact Or.inr fun _ => rfl | (refine Or.inr ?_; intros; repeat' (first | rfl | split)))) only [↓rest_putBoot, ↓rest_raiseEvent, ↓rest_mk, ↓rest_ite, ite_self] | (intro; rfl) | split | (intro; split) | rfl)

theorem rest_trySlot {L : List Part} (hL : sub [.raised, .kf, .kfMem] L = true) (s : State) (env : BootEnv) (keeper cluster : List Byte) (slot : Nat) (active : Bool) :
    rest L (trySlot s env keeper cluster slot active).1 = rest L s := by
  unfold trySlot
  repeat' (first | with_reducible rfl | simp (disch := (first | exact sub_trans (by decide) hL | exact Or.inl (has_of_sub hL (by decide)) | exact Or.inr rfl | exact Or.inr fun _ => rfl | (refine Or.inr ?_; intros; repeat' (first | rfl | split)))) only [↓rest_raiseEvent, ↓rest_recordFailing, ↓rest_mk, ↓rest_ite, ite_self] | (intro; rfl) | split | (intro; split) | rfl)
theorem rest_trySlot_eq {L : List Part} (hL : sub [.raised, .kf, .kfMem] L = true) (s : State) (env : BootEnv) (keeper cluster : List Byte) (slot : Nat) (active : Bool) {uu aa} (hq : trySlot s env keeper cluster slot active = (uu, aa)) : rest L uu = rest L s := by
  have k := rest_trySlot hL s env keeper cluster slot active
  rw [hq] at k
  exact k

theorem rest_chooseSlot {L : List Part} (hL : sub [.raised, .kf, .kfMem] L = true) (s : State) (env : BootEnv) (c : Nat) (keeper cluster : List Byte) :
    rest L (chooseSlot s env c keeper cluster).1 = rest L s := by
  unfold chooseSlot
  repeat' (first | with_reducible rfl | simp (disch := (first | exact sub_trans (by decide) hL | exact Or.inl (has_of_sub hL (by decide)) | exact Or.inr rfl | exact Or.inr fun _ => rfl | (refine Or.inr ?_; intros; repeat' (first | rfl | split)))) only [↓rest_trySlot, ↓rest_mk, ↓rest_ite, ite_self] | (with_reducible refine (rest_trySlot_eq (sub_trans (by decide) hL) _ _ _ _ _ _ (by assumption)).trans ?_) | (intro; rfl) | split | (intro; split) | rfl)
theorem rest_chooseSlot_eq {L : List Part} (hL : sub [.raised, .kf, .kfMem] L = true) (s : State) (env : BootEnv) (c : Nat) (keeper cluster : List Byte) {uu aa} (hq : chooseSlot s env c keeper cluster = (uu, aa)) : rest L uu = rest L s := by
  have k := rest_chooseSlot hL s env c keeper cluster
  rw [hq] at k
  exact k

theorem rest_returnCommit {L : List Part} (hL : sub [.raised, .kf, .kfMem] L = true) (s : State) (slot : Nat) (r : Reject) :
    rest L (returnCommit s slot r) = rest L s := by
  unfold returnCommit
  repeat' (first | with_reducible rfl | simp (disch := (first | exact sub_trans (by decide) hL | exact Or.inl (has_of_sub hL (by decide)) | exact Or.inr rfl | exact Or.inr fun _ => rfl | (refine Or.inr ?_; intros; repeat' (first | rfl | split)))) only [↓rest_putBoot, ↓rest_recordFailing, ↓rest_mk, ↓rest_ite, ite_self] | (intro; rfl) | split | (intro; split) | rfl)

theorem rest_freshGrids {L : List Part} (hL : sub [.cad, .media] L = true) (s : State) :
    rest L (freshGrids s) = rest L s := by
  unfold freshGrids
  repeat' (first | with_reducible rfl | (with_reducible refine (rest_foldl _ (fun t x => ?_) _ _).trans ?_) | simp (disch := (first | exact sub_trans (by decide) hL | exact Or.inl (has_of_sub hL (by decide)) | exact Or.inr rfl | exact Or.inr fun _ => rfl | (refine Or.inr ?_; intros; repeat' (first | rfl | split)))) only [↓rest_updProf, ↓rest_updCad, ↓rest_mk, ↓rest_ite, ite_self] | (with_reducible refine (rest_foldl1 _ (fun t x => ?_) _ _).trans ?_) | (with_reducible refine (rest_updCad (sub_trans (by decide) hL) _ _ (.inr ?_)).trans ?_) | (intro; rfl) | split | (intro; split) | rfl)

theorem rest_dropDamaged {L : List Part} (hL : sub [.free, .kf] L = true) (s : State) :
    rest L (dropDamaged s) = rest L s := by
  unfold dropDamaged
  repeat' (first | with_reducible rfl | simp (disch := (first | exact sub_trans (by decide) hL | exact Or.inl (has_of_sub hL (by decide)) | exact Or.inr rfl | exact Or.inr fun _ => rfl | (refine Or.inr ?_; intros; repeat' (first | rfl | split)))) only [↓rest_updKf, ↓rest_mk, ↓rest_ite, ite_self] | (with_reducible refine (rest_updKf (sub_trans (by decide) hL) _ _ (.inr ?_) (.inr ?_)).trans ?_) | (intro; rfl) | split | (intro; split) | rfl)

theorem rest_restoreFeatures {L : List Part} (hL : sub [.free, .ports, .cad, .feat, .media, .kf] L = true) (s : State) :
    rest L (restoreFeatures s) = rest L s := by
  unfold restoreFeatures
  repeat' (first | with_reducible exact none_imp | (with_reducible refine rest_or _ _ ?_ ?_) | (with_reducible refine rest_some ?_) | (with_reducible refine rest_some1 ?_) | (with_reducible refine rest_map _ _ (fun x hx => ?_)) | (with_reducible refine rest_map1 _ _ (fun x hx => ?_)) | (with_reducible refine bind_imp _ _ (fun x hx => ?_)) | (with_reducible refine findSome_imp _ _ (fun x => ?_)) | with_reducible rfl | simp (disch := (first | exact sub_trans (by decide) hL | exact Or.inl (has_of_sub hL (by decide)) | exact Or.inr rfl | exact Or.inr fun _ => rfl | (refine Or.inr ?_; intros; repeat' (first | rfl | split)))) only [↓rest_applyJournalInterval, ↓rest_applyPatrolCycle, ↓rest_applyTimers, ↓rest_dropDamaged, ↓rest_freshGrids, ↓rest_updCad, ↓rest_updKf, ↓rest_updPort, ↓rest_mk, ↓rest_ite, ite_self] | (with_reducible refine (rest_getD _ _ (fun u => ?_)).trans ?_) | (with_reducible refine (rest_updCad (sub_trans (by decide) hL) _ _ (.inr ?_)).trans ?_) | (with_reducible refine (rest_updKf (sub_trans (by decide) hL) _ _ (.inr ?_) (.inr ?_)).trans ?_) | (with_reducible refine (rest_updPort (sub_trans (by decide) hL) _ _ _ (.inr ?_)).trans ?_) | (intro; rfl) | split | (intro; split) | rfl)

theorem rest_readCalibration {L : List Part} (hL : sub [.raised, .kf, .power] L = true) (s : State) :
    rest L (readCalibration s) = rest L s := by
  unfold readCalibration
  repeat' (first | with_reducible exact none_imp | (with_reducible refine rest_or _ _ ?_ ?_) | (with_reducible refine rest_some ?_) | (with_reducible refine rest_some1 ?_) | (with_reducible refine rest_map _ _ (fun x hx => ?_)) | (with_reducible refine rest_map1 _ _ (fun x hx => ?_)) | (with_reducible refine bind_imp _ _ (fun x hx => ?_)) | (with_reducible refine findSome_imp _ _ (fun x => ?_)) | with_reducible rfl | simp (disch := (first | exact sub_trans (by decide) hL | exact Or.inl (has_of_sub hL (by decide)) | exact Or.inr rfl | exact Or.inr fun _ => rfl | (refine Or.inr ?_; intros; repeat' (first | rfl | split)))) only [↓rest_raiseEvent, ↓rest_updKf, ↓rest_updPower, ↓rest_mk, ↓rest_ite, ite_self] | (with_reducible refine (rest_getD _ _ (fun u => ?_)).trans ?_) | (with_reducible refine (rest_updKf (sub_trans (by decide) hL) _ _ (.inr ?_) (.inr ?_)).trans ?_) | (with_reducible refine (rest_updPower (sub_trans (by decide) hL) _ _ (.inr ?_)).trans ?_) | (intro; rfl) | split | (intro; split) | rfl)

theorem rest_fuseOwner {L : List Part} (hL : sub [.kf, .kfCtl] L = true) (s : State) (image : List Byte) :
    rest L (fuseOwner s image) = rest L s := by
  unfold fuseOwner
  repeat' (first | with_reducible rfl | simp (disch := (first | exact sub_trans (by decide) hL | exact Or.inl (has_of_sub hL (by decide)) | exact Or.inr rfl | exact Or.inr fun _ => rfl | (refine Or.inr ?_; intros; repeat' (first | rfl | split)))) only [↓rest_updKf, ↓rest_mk, ↓rest_ite, ite_self] | (with_reducible refine (rest_updKf (sub_trans (by decide) hL) _ _ (.inr ?_) (.inr ?_)).trans ?_) | (intro; rfl) | split | (intro; split) | rfl)

theorem rest_applyImage {L : List Part} (hL : sub [.kf, .kfCtl] L = true) (s : State) (env : BootEnv) (k c i : Nat) :
    rest L (applyImage s env k c i) = rest L s := by
  unfold applyImage
  repeat' (first | with_reducible rfl | simp (disch := (first | exact sub_trans (by decide) hL | exact Or.inl (has_of_sub hL (by decide)) | exact Or.inr rfl | exact Or.inr fun _ => rfl | (refine Or.inr ?_; intros; repeat' (first | rfl | split)))) only [↓rest_fuseOwner, ↓rest_updKf, ↓rest_mk, ↓rest_ite, ite_self] | (with_reducible refine (rest_updKf (sub_trans (by decide) hL) _ _ (.inr ?_) (.inr ?_)).trans ?_) | (intro; rfl) | split | (intro; split) | rfl)

theorem rest_startTime {L : List Part} (hL : sub [.cad, .twin, .power] L = true) (s : State) :
    rest L (startTime s) = rest L s := by
  unfold startTime
  repeat' (first | with_reducible rfl | simp (disch := (first | exact sub_trans (by decide) hL | exact Or.inl (has_of_sub hL (by decide)) | exact Or.inr rfl | exact Or.inr fun _ => rfl | (refine Or.inr ?_; intros; repeat' (first | rfl | split)))) only [↓rest_updCad, ↓rest_updPower, ↓rest_updTwin, ↓rest_mk, ↓rest_ite, ite_self] | (with_reducible refine (rest_updCad (sub_trans (by decide) hL) _ _ (.inr ?_)).trans ?_) | (with_reducible refine (rest_updPower (sub_trans (by decide) hL) _ _ (.inr ?_)).trans ?_) | (with_reducible refine (rest_updTwin (sub_trans (by decide) hL) _ _ (.inr ?_)).trans ?_) | (intro; rfl) | split | (intro; split) | rfl)

theorem rest_startBay {L : List Part} (hL : sub [.media, .kf] L = true) (s : State) (n : Nat) :
    rest L (startBay s n) = rest L s := by
  unfold startBay
  repeat' (first | with_reducible exact none_imp | (with_reducible refine rest_or _ _ ?_ ?_) | (with_reducible refine rest_some ?_) | (with_reducible refine rest_some1 ?_) | (with_reducible refine rest_map _ _ (fun x hx => ?_)) | (with_reducible refine rest_map1 _ _ (fun x hx => ?_)) | (with_reducible refine bind_imp _ _ (fun x hx => ?_)) | (with_reducible refine findSome_imp _ _ (fun x => ?_)) | with_reducible rfl | simp (disch := (first | exact sub_trans (by decide) hL | exact Or.inl (has_of_sub hL (by decide)) | exact Or.inr rfl | exact Or.inr fun _ => rfl | (refine Or.inr ?_; intros; repeat' (first | rfl | split)))) only [↓rest_adopt, ↓rest_updBay, ↓rest_mk, ↓rest_ite, ite_self] | (with_reducible refine (rest_adopt_eq (sub_trans (by decide) hL) _ _ (by assumption)).trans ?_) | (with_reducible refine (rest_getD _ _ (fun u => ?_)).trans ?_) | (intro; rfl) | split | (intro; split) | rfl)

theorem rest_startSteps {L : List Part} (hL : sub [.health, .map, .eng, .media, .kf, .ctr] L = true) (s : State) :
    rest L (startSteps s) = rest L s := by
  unfold startSteps
  repeat' (first | with_reducible rfl | (with_reducible refine (rest_foldl _ (fun t x => ?_) _ _).trans ?_) | simp (disch := (first | exact sub_trans (by decide) hL | exact Or.inl (has_of_sub hL (by decide)) | exact Or.inr rfl | exact Or.inr fun _ => rfl | (refine Or.inr ?_; intros; repeat' (first | rfl | split)))) only [↓rest_settleTaken, ↓rest_sizeTier, ↓rest_startBay, ↓rest_updEng, ↓rest_updKf, ↓rest_mk, ↓rest_ite, ite_self] | (with_reducible refine (rest_foldl1 _ (fun t x => ?_) _ _).trans ?_) | (with_reducible refine (rest_updKf (sub_trans (by decide) hL) _ _ (.inr ?_) (.inr ?_)).trans ?_) | (intro; rfl) | split | (intro; split) | rfl)

theorem rest_armLock {L : List Part} (hL : sub [.cad] L = true) (s : State) :
    rest L (armLock s) = rest L s := by
  unfold armLock
  repeat' (first | with_reducible rfl | simp (disch := (first | exact sub_trans (by decide) hL | exact Or.inl (has_of_sub hL (by decide)) | exact Or.inr rfl | exact Or.inr fun _ => rfl | (refine Or.inr ?_; intros; repeat' (first | rfl | split)))) only [↓rest_updCad, ↓rest_mk, ↓rest_ite, ite_self] | (with_reducible refine (rest_updCad (sub_trans (by decide) hL) _ _ (.inr ?_)).trans ?_) | (intro; rfl) | split | (intro; split) | rfl)

theorem rest_releaseHost {L : List Part} (hL : sub [.ports, .cad, .health, .map, .eng, .media, .kf, .ctr] L = true) (s : State) :
    rest L (releaseHost s) = rest L s := by
  unfold releaseHost
  repeat' (first | with_reducible rfl | simp (disch := (first | exact sub_trans (by decide) hL | exact Or.inl (has_of_sub hL (by decide)) | exact Or.inr rfl | exact Or.inr fun _ => rfl | (refine Or.inr ?_; intros; repeat' (first | rfl | split)))) only [↓rest_armLock, ↓rest_settleEnable, ↓rest_startSteps, ↓rest_updKf, ↓rest_mk, ↓rest_ite, ite_self] | (with_reducible refine (rest_updKf (sub_trans (by decide) hL) _ _ (.inr ?_) (.inr ?_)).trans ?_) | (intro; rfl) | split | (intro; split) | rfl)

theorem rest_enterRecovery {L : List Part} (hL : sub [.kf] L = true) (s : State) (cause : Nat) :
    rest L (enterRecovery s cause) = rest L s := by
  unfold enterRecovery
  repeat' (first | with_reducible rfl | simp (disch := (first | exact sub_trans (by decide) hL | exact Or.inl (has_of_sub hL (by decide)) | exact Or.inr rfl | exact Or.inr fun _ => rfl | (refine Or.inr ?_; intros; repeat' (first | rfl | split)))) only [↓rest_updKf, ↓rest_mk, ↓rest_ite, ite_self] | (with_reducible refine (rest_updKf (sub_trans (by decide) hL) _ _ (.inr ?_) (.inr ?_)).trans ?_) | (intro; rfl) | split | (intro; split) | rfl)

theorem rest_bootWithoutImage {L : List Part} (hL : sub [.free, .cond, .ctxs, .errSeq, .raised, .condFrom, .ports, .cad, .feat, .health, .media, .jrnl, .twin, .kf, .kfMem, .power, .ctr] L = true) (s : State) (env : BootEnv) (k c : Nat) :
    rest L (bootWithoutImage s env k c) = rest L s := by
  unfold bootWithoutImage
  repeat' (first | with_reducible rfl | simp (disch := (first | exact sub_trans (by decide) hL | exact Or.inl (has_of_sub hL (by decide)) | exact Or.inr rfl | exact Or.inr fun _ => rfl | (refine Or.inr ?_; intros; repeat' (first | rfl | split)))) only [↓rest_armLock, ↓rest_failPart, ↓rest_readCalibration, ↓rest_restoreFeatures, ↓rest_settleEnable, ↓rest_updKf, ↓rest_mk, ↓rest_ite, ite_self] | (with_reducible refine (rest_updKf (sub_trans (by decide) hL) _ _ (.inr ?_) (.inr ?_)).trans ?_) | (intro; rfl) | split | (intro; split) | rfl)

theorem rest_bootFrom {L : List Part} (hL : sub [.free, .cond, .ctxs, .errSeq, .raised, .condFrom, .ports, .cad, .feat, .health, .map, .eng, .media, .jrnl, .twin, .kf, .kfMem, .kfCtl, .power, .ctr] L = true) (s : State) (env : BootEnv) (k : Nat) :
    rest L (bootFrom s env k) = rest L s := by
  unfold bootFrom
  repeat' (first | with_reducible rfl | simp (disch := (first | exact sub_trans (by decide) hL | exact Or.inl (has_of_sub hL (by decide)) | exact Or.inr rfl | exact Or.inr fun _ => rfl | (refine Or.inr ?_; intros; repeat' (first | rfl | split)))) only [↓rest_applyImage, ↓rest_bootWithoutImage, ↓rest_chooseSlot, ↓rest_failPart, ↓rest_readCalibration, ↓rest_releaseHost, ↓rest_restoreFeatures, ↓rest_mk, ↓rest_ite, ite_self] | (with_reducible refine (rest_chooseSlot_eq (sub_trans (by decide) hL) _ _ _ _ _ (by assumption)).trans ?_) | (intro; rfl) | split | (intro; split) | rfl)

theorem rest_bootUp {L : List Part} (hL : sub [.free, .cond, .ctxs, .errSeq, .raised, .condFrom, .ports, .cad, .feat, .health, .map, .eng, .media, .jrnl, .twin, .twinCtl, .kf, .kfMem, .kfCtl, .power, .ctr] L = true) (s : State) (env : BootEnv) :
    rest L (bootUp s env) = rest L s := by
  unfold bootUp
  repeat' (first | with_reducible rfl | simp (disch := (first | exact sub_trans (by decide) hL | exact Or.inl (has_of_sub hL (by decide)) | exact Or.inr rfl | exact Or.inr fun _ => rfl | (refine Or.inr ?_; intros; repeat' (first | rfl | split)))) only [↓rest_bootFrom, ↓rest_chooseSlot, ↓rest_enterRecovery, ↓rest_failPart, ↓rest_resolveBoot, ↓rest_returnCommit, ↓rest_startTime, ↓rest_updKf, ↓rest_updTwin, ↓rest_mk, ↓rest_ite, ite_self] | (with_reducible refine (rest_chooseSlot_eq (sub_trans (by decide) hL) _ _ _ _ _ (by assumption)).trans ?_) | (with_reducible refine (rest_updKf (sub_trans (by decide) hL) _ _ (.inr ?_) (.inr ?_)).trans ?_) | (with_reducible refine (rest_updTwin (sub_trans (by decide) hL) _ _ (.inr ?_)).trans ?_) | (intro; rfl) | split | (intro; split) | rfl)

theorem rest_bootOrHold {L : List Part} (hL : sub [.free, .cond, .ctxs, .errSeq, .raised, .condFrom, .ports, .cad, .feat, .health, .map, .eng, .media, .jrnl, .twin, .twinCtl, .kf, .kfMem, .kfCtl, .power, .ctr] L = true) (s : State) (env : BootEnv) :
    rest L (bootOrHold s env) = rest L s := by
  unfold bootOrHold
  repeat' (first | with_reducible rfl | simp (disch := (first | exact sub_trans (by decide) hL | exact Or.inl (has_of_sub hL (by decide)) | exact Or.inr rfl | exact Or.inr fun _ => rfl | (refine Or.inr ?_; intros; repeat' (first | rfl | split)))) only [↓rest_bootUp, ↓rest_updKf, ↓rest_updTwin, ↓rest_mk, ↓rest_ite, ite_self] | (with_reducible refine (rest_updKf (sub_trans (by decide) hL) _ _ (.inr ?_) (.inr ?_)).trans ?_) | (with_reducible refine (rest_updTwin (sub_trans (by decide) hL) _ _ (.inr ?_)).trans ?_) | (intro; rfl) | split | (intro; split) | rfl)

theorem rest_keepAlwaysOn {L : List Part} (hL : sub [.cond, .cad, .cadCtl, .power, .powerCtl, .side, .sideCtl] L = true) (s r : State) :
    rest L (keepAlwaysOn s r) = rest L r := by
  unfold keepAlwaysOn
  repeat' (first | with_reducible rfl | simp (disch := (first | exact sub_trans (by decide) hL | exact Or.inl (has_of_sub hL (by decide)) | exact Or.inr rfl | exact Or.inr fun _ => rfl | (refine Or.inr ?_; intros; repeat' (first | rfl | split)))) only [↓rest_mk, ↓rest_ite, ite_self] | (intro; rfl) | split | (intro; split) | rfl)

theorem rest_reboot {L : List Part} (hL : sub [.now, .free, .cond, .readData, .out, .csnNext, .csnIssued, .csnBlock, .ctxs, .errSeq, .evSeq, .evHist, .raised, .condFrom, .ports, .portCtl, .cad, .cadCtl, .feat, .health, .map, .eng, .media, .jrnl, .twin, .twinCtl, .dig, .pods, .mover, .kf, .kfMem, .kfCtl, .power, .powerCtl, .ctr, .ctrCtl, .side, .sideCtl] L = true) (s : State) (kind : Nat) :
    rest L (reboot s kind) = rest L s := by
  unfold reboot
  repeat' (first | with_reducible rfl | simp (disch := (first | exact sub_trans (by decide) hL | exact Or.inl (has_of_sub hL (by decide)) | exact Or.inr rfl | exact Or.inr fun _ => rfl | (refine Or.inr ?_; intros; repeat' (first | rfl | split)))) only [↓rest_bootOrHold, ↓rest_internalReset, ↓rest_keepAlwaysOn, ↓rest_mk, ↓rest_ite, ite_self] | (intro; rfl) | split | (intro; split) | rfl)

theorem rest_selfRestart {L : List Part} (hL : sub [.now, .free, .cond, .readData, .out, .csnNext, .csnIssued, .csnBlock, .ctxs, .errSeq, .evSeq, .evHist, .raised, .condFrom, .ports, .portCtl, .cad, .cadCtl, .feat, .health, .map, .eng, .media, .jrnl, .twin, .twinCtl, .dig, .pods, .mover, .kf, .kfMem, .kfCtl, .power, .powerCtl, .ctr, .ctrCtl, .side, .sideCtl] L = true) (s : State) :
    rest L (selfRestart s) = rest L s := by
  unfold selfRestart
  repeat' (first | with_reducible rfl | simp (disch := (first | exact sub_trans (by decide) hL | exact Or.inl (has_of_sub hL (by decide)) | exact Or.inr rfl | exact Or.inr fun _ => rfl | (refine Or.inr ?_; intros; repeat' (first | rfl | split)))) only [↓rest_bootUp, ↓rest_internalReset, ↓rest_keepAlwaysOn, ↓rest_setRebuild, ↓rest_mk, ↓rest_ite, ite_self] | (intro; rfl) | split | (intro; split) | rfl)

theorem rest_execPorstRelease {L : List Part} (hL : sub [.now, .free, .cond, .readData, .out, .csnNext, .csnIssued, .csnBlock, .ctxs, .errSeq, .evSeq, .evHist, .raised, .condFrom, .ports, .portCtl, .cad, .cadCtl, .feat, .health, .map, .eng, .media, .jrnl, .twin, .twinCtl, .dig, .pods, .mover, .kf, .kfMem, .kfCtl, .power, .powerCtl, .ctr, .ctrCtl, .side, .sideCtl] L = true) (cyc : Nat) (env : BootEnv) (s : State) :
    ∃ tv, execPorstRelease cyc env s = .next tv ∧ rest L tv = rest L s := by
  unfold execPorstRelease
  repeat' (first | (refine ⟨_, rfl, ?_⟩) | with_reducible rfl | simp (disch := (first | exact sub_trans (by decide) hL | exact Or.inl (has_of_sub hL (by decide)) | exact Or.inr rfl | exact Or.inr fun _ => rfl | (refine Or.inr ?_; intros; repeat' (first | rfl | split)))) only [↓rest_advanceTo, ↓rest_bootOrHold, ↓rest_endCycle, ↓rest_endStop, ↓rest_internalReset, ↓rest_mk, ↓rest_ite, ite_self] | (intro; rfl) | split | (intro; split) | rfl)

theorem rest_execHoldupComplete {L : List Part} (hL : sub [.now, .free, .cond, .readData, .out, .csnNext, .csnIssued, .csnBlock, .ctxs, .errSeq, .evSeq, .evHist, .raised, .condFrom, .ports, .portCtl, .cad, .cadCtl, .feat, .health, .map, .eng, .media, .jrnl, .twin, .twinCtl, .dig, .pods, .mover, .kf, .kfMem, .kfCtl, .power, .powerCtl, .ctr, .ctrCtl, .side, .sideCtl] L = true) (s : State) :
    ∃ tv, execHoldupComplete s = .next tv ∧ rest L tv = rest L s := by
  unfold execHoldupComplete
  repeat' (first | (refine ⟨_, rfl, ?_⟩) | with_reducible rfl | simp (disch := (first | exact sub_trans (by decide) hL | exact Or.inl (has_of_sub hL (by decide)) | exact Or.inr rfl | exact Or.inr fun _ => rfl | (refine Or.inr ?_; intros; repeat' (first | rfl | split)))) only [↓rest_endCycle, ↓rest_endStop, ↓rest_internalReset, ↓rest_reboot, ↓rest_mk, ↓rest_ite, ite_self] | (intro; rfl) | split | (intro; split) | rfl)

theorem rest_execPwrfailRise {L : List Part} (hL : sub [.now, .free, .cond, .readData, .out, .csnNext, .csnIssued, .csnBlock, .ctxs, .errSeq, .evSeq, .evHist, .raised, .condFrom, .ports, .portCtl, .cad, .cadCtl, .feat, .health, .map, .eng, .media, .jrnl, .twin, .twinCtl, .dig, .pods, .mover, .kf, .kfMem, .kfCtl, .power, .powerCtl, .ctr, .ctrCtl, .side, .sideCtl] L = true) (cyc : Nat) (s : State) :
    ∃ tv, execPwrfailRise cyc s = .next tv ∧ rest L tv = rest L s := by
  unfold execPwrfailRise
  repeat' (first | (refine ⟨_, rfl, ?_⟩) | with_reducible rfl | simp (disch := (first | exact sub_trans (by decide) hL | exact Or.inl (has_of_sub hL (by decide)) | exact Or.inr rfl | exact Or.inr fun _ => rfl | (refine Or.inr ?_; intros; repeat' (first | rfl | split)))) only [↓rest_advanceTo, ↓rest_endCycle, ↓rest_reboot, ↓rest_updSide, ↓rest_mk, ↓rest_ite, ite_self] | (with_reducible refine (rest_updSide (sub_trans (by decide) hL) _ _ (.inr ?_)).trans ?_) | (intro; rfl) | split | (intro; split) | rfl)

theorem rest_execPortShutdownDone {L : List Part} (hL : sub [.now, .free, .cond, .readData, .out, .csnNext, .csnIssued, .csnBlock, .ctxs, .errSeq, .evSeq, .evHist, .raised, .condFrom, .ports, .portCtl, .cad, .cadCtl, .feat, .health, .map, .eng, .media, .jrnl, .twin, .twinCtl, .dig, .pods, .mover, .kf, .kfMem, .kfCtl, .power, .powerCtl, .ctr, .ctrCtl, .side, .sideCtl] L = true) (port : Port) (s : State) :
    ∃ tv, execPortShutdownDone port s = .next tv ∧ rest L tv = rest L s := by
  unfold execPortShutdownDone
  repeat' (first | (refine ⟨_, rfl, ?_⟩) | with_reducible rfl | simp (disch := (first | exact sub_trans (by decide) hL | exact Or.inl (has_of_sub hL (by decide)) | exact Or.inr rfl | exact Or.inr fun _ => rfl | (refine Or.inr ?_; intros; repeat' (first | rfl | split)))) only [↓rest_endCycle, ↓rest_selfRestart, ↓rest_updPort, ↓rest_mk, ↓rest_ite, ite_self] | (with_reducible refine (rest_updPort (sub_trans (by decide) hL) _ _ _ (.inr ?_)).trans ?_) | (intro; rfl) | split | (intro; split) | rfl)

end Sys2Proof.Laws
end

