-- ==== Sys2Proof/Laws/FramesLogs.lean ====
section
/-! SUPPORT. Which parts of the state the operations of Machine/Logs.lean may change. -/
namespace Sys2Proof.Laws
open Sys2Proof Sys2Proof.Machine

set_option linter.unreachableTactic false
set_option linter.unusedTactic false

set_option linter.unusedSimpArgs false

theorem rest_deliverAdmin {L : List Part} (hL : sub [.out, .ctxs, .errSeq, .ports] L = true) (s : State) (c : Ctx) (list : ListRead) (bs : List Byte) (total : Nat) :
    rest L (deliverAdmin s c list bs total) = rest L s := by
  unfold deliverAdmin
  repeat' (first | with_reducible rfl | simp (disch := (first | exact sub_trans (by decide) hL | exact Or.inl (has_of_sub hL (by decide)) | exact Or.inr rfl | exact Or.inr fun _ => rfl | (refine Or.inr ?_; intros; repeat' (first | rfl | split)))) only [↓rest_decide_, ↓rest_deliver, ↓rest_perform, ↓rest_mk, ↓rest_ite, ite_self] | (intro; rfl) | split | (intro; split) | rfl)

theorem rest_execIdentify {L : List Part} (hL : sub [.out, .ctxs, .errSeq, .ports] L = true) (cid : Nat) (list : ListRead) (s : State) :
    ∃ tv, execIdentify cid list s = .next tv ∧ rest L tv = rest L s := by
  unfold execIdentify
  repeat' (first | (refine ⟨_, rfl, ?_⟩) | with_reducible rfl | simp (disch := (first | exact sub_trans (by decide) hL | exact Or.inl (has_of_sub hL (by decide)) | exact Or.inr rfl | exact Or.inr fun _ => rfl | (refine Or.inr ?_; intros; repeat' (first | rfl | split)))) only [↓rest_decide_, ↓rest_deliverAdmin, ↓rest_mk, ↓rest_ite, ite_self] | (intro; rfl) | split | (intro; split) | rfl)

theorem rest_deliverLog {L : List Part} (hL : sub [.free, .out, .ctxs, .errSeq, .ports] L = true) (s : State) (c : Ctx) (list : ListRead) :
    rest L (deliverLog s c list) = rest L s := by
  unfold deliverLog
  repeat' (first | with_reducible rfl | simp (disch := (first | exact sub_trans (by decide) hL | exact Or.inl (has_of_sub hL (by decide)) | exact Or.inr rfl | exact Or.inr fun _ => rfl | (refine Or.inr ?_; intros; repeat' (first | rfl | split)))) only [↓rest_deliverAdmin, ↓rest_drawFrees, ↓rest_mk, ↓rest_ite, ite_self] | (intro; rfl) | split | (intro; split) | rfl)

theorem rest_awaitSnapshot {L : List Part} (hL : sub [.ctr] L = true) (s : State) (cid : Nat) :
    rest L (awaitSnapshot s cid) = rest L s := by
  unfold awaitSnapshot
  repeat' (first | with_reducible rfl | simp (disch := (first | exact sub_trans (by decide) hL | exact Or.inl (has_of_sub hL (by decide)) | exact Or.inr rfl | exact Or.inr fun _ => rfl | (refine Or.inr ?_; intros; repeat' (first | rfl | split)))) only [↓rest_trigSnap, ↓rest_updCtr, ↓rest_mk, ↓rest_ite, ite_self] | (with_reducible refine (rest_updCtr (sub_trans (by decide) hL) _ _ (.inr ?_)).trans ?_) | (intro; rfl) | split | (intro; split) | rfl)

theorem rest_execGetLog {L : List Part} (hL : sub [.free, .out, .ctxs, .errSeq, .ports, .ctr] L = true) (cid : Nat) (list : ListRead) (s : State) :
    ∃ tv, execGetLog cid list s = .next tv ∧ rest L tv = rest L s := by
  unfold execGetLog
  repeat' (first | (refine ⟨_, rfl, ?_⟩) | with_reducible rfl | simp (disch := (first | exact sub_trans (by decide) hL | exact Or.inl (has_of_sub hL (by decide)) | exact Or.inr rfl | exact Or.inr fun _ => rfl | (refine Or.inr ?_; intros; repeat' (first | rfl | split)))) only [↓rest_awaitSnapshot, ↓rest_decide_, ↓rest_deliverLog, ↓rest_updCtr, ↓rest_mk, ↓rest_ite, ite_self] | (with_reducible refine (rest_updCtr (sub_trans (by decide) hL) _ _ (.inr ?_)).trans ?_) | (intro; rfl) | split | (intro; split) | rfl)

end Sys2Proof.Laws
end

