-- ==== Sys2Proof/Laws/FramesCounters.lean ====
section
/-! SUPPORT. Which parts of the state the operations of Machine/Counters.lean may change. -/
namespace Sys2Proof.Laws
open Sys2Proof Sys2Proof.Machine

set_option linter.unreachableTactic false
set_option linter.unusedTactic false

set_option linter.unusedSimpArgs false

theorem rest_execCommandSlot {L : List Part} (hL : sub [.now, .power, .ctr] L = true) (cyc : Nat) (s : State) :
    ∃ tv, execCommandSlot cyc s = .next tv ∧ rest L tv = rest L s := by
  unfold execCommandSlot
  repeat' (first | (refine ⟨_, rfl, ?_⟩) | with_reducible rfl | simp (disch := (first | exact sub_trans (by decide) hL | exact Or.inl (has_of_sub hL (by decide)) | exact Or.inr rfl | exact Or.inr fun _ => rfl | (refine Or.inr ?_; intros; repeat' (first | rfl | split)))) only [↓rest_advanceTo, ↓rest_countFixed, ↓rest_updCtr, ↓rest_mk, ↓rest_ite, ite_self] | (with_reducible refine (rest_updCtr (sub_trans (by decide) hL) _ _ (.inr ?_)).trans ?_) | (intro; rfl) | split | (intro; split) | rfl)

theorem rest_writeCntCtrl {L : List Part} (hL : sub [.ctr, .ctrCtl] L = true) (s : State) (v : Word) :
    rest L (writeCntCtrl s v) = rest L s := by
  unfold writeCntCtrl
  repeat' (first | with_reducible rfl | simp (disch := (first | exact sub_trans (by decide) hL | exact Or.inl (has_of_sub hL (by decide)) | exact Or.inr rfl | exact Or.inr fun _ => rfl | (refine Or.inr ?_; intros; repeat' (first | rfl | split)))) only [↓rest_clearCounters, ↓rest_trigSnap, ↓rest_updCtr, ↓rest_mk, ↓rest_ite, ite_self] | (with_reducible refine (rest_updCtr (sub_trans (by decide) hL) _ _ (.inr ?_)).trans ?_) | (intro; rfl) | split | (intro; split) | rfl)

theorem rest_execCntClear {L : List Part} (hL : sub [.ctr, .ctrCtl] L = true) (req : Requester) (value : Word) (s : State) :
    ∃ tv, execCntClear req value s = .next tv ∧ rest L tv = rest L s := by
  unfold execCntClear
  repeat' (first | (refine ⟨_, rfl, ?_⟩) | with_reducible rfl | simp (disch := (first | exact sub_trans (by decide) hL | exact Or.inl (has_of_sub hL (by decide)) | exact Or.inr rfl | exact Or.inr fun _ => rfl | (refine Or.inr ?_; intros; repeat' (first | rfl | split)))) only [↓rest_writeCntCtrl, ↓rest_mk, ↓rest_ite, ite_self] | (intro; rfl) | split | (intro; split) | rfl)

theorem rest_execCntSnap {L : List Part} (hL : sub [.now, .power, .ctr, .ctrCtl] L = true) (req : Requester) (value : Word) (cyc : Nat) (s : State) :
    ∃ tv, execCntSnap req value cyc s = .next tv ∧ rest L tv = rest L s := by
  unfold execCntSnap
  repeat' (first | (refine ⟨_, rfl, ?_⟩) | with_reducible rfl | simp (disch := (first | exact sub_trans (by decide) hL | exact Or.inl (has_of_sub hL (by decide)) | exact Or.inr rfl | exact Or.inr fun _ => rfl | (refine Or.inr ?_; intros; repeat' (first | rfl | split)))) only [↓rest_advanceTo, ↓rest_writeCntCtrl, ↓rest_mk, ↓rest_ite, ite_self] | (intro; rfl) | split | (intro; split) | rfl)

theorem rest_execSnapshotReady {L : List Part} (hL : sub [.now, .power, .ctr] L = true) (cyc : Nat) (s : State) :
    ∃ tv, execSnapshotReady cyc s = .next tv ∧ rest L tv = rest L s := by
  unfold execSnapshotReady
  repeat' (first | (refine ⟨_, rfl, ?_⟩) | with_reducible rfl | simp (disch := (first | exact sub_trans (by decide) hL | exact Or.inl (has_of_sub hL (by decide)) | exact Or.inr rfl | exact Or.inr fun _ => rfl | (refine Or.inr ?_; intros; repeat' (first | rfl | split)))) only [↓rest_advanceTo, ↓rest_trigSnap, ↓rest_updCtr, ↓rest_mk, ↓rest_ite, ite_self] | (with_reducible refine (rest_updCtr (sub_trans (by decide) hL) _ _ (.inr ?_)).trans ?_) | (intro; rfl) | split | (intro; split) | rfl)

theorem rest_writeMirrorCtrl {L : List Part} (hL : sub [.ctr] L = true) (s : State) (v : Word) :
    rest L (writeMirrorCtrl s v) = rest L s := by
  unfold writeMirrorCtrl
  repeat' (first | with_reducible rfl | simp (disch := (first | exact sub_trans (by decide) hL | exact Or.inl (has_of_sub hL (by decide)) | exact Or.inr rfl | exact Or.inr fun _ => rfl | (refine Or.inr ?_; intros; repeat' (first | rfl | split)))) only [↓rest_trigSnap, ↓rest_updCtr, ↓rest_mk, ↓rest_ite, ite_self] | (with_reducible refine (rest_updCtr (sub_trans (by decide) hL) _ _ (.inr ?_)).trans ?_) | (intro; rfl) | split | (intro; split) | rfl)

theorem rest_execMirrorSnapWrite {L : List Part} (hL : sub [.now, .power, .ctr] L = true) (value : Word) (cyc : Nat) (s : State) :
    ∃ tv, execMirrorSnapWrite value cyc s = .next tv ∧ rest L tv = rest L s := by
  unfold execMirrorSnapWrite
  repeat' (first | (refine ⟨_, rfl, ?_⟩) | with_reducible rfl | simp (disch := (first | exact sub_trans (by decide) hL | exact Or.inl (has_of_sub hL (by decide)) | exact Or.inr rfl | exact Or.inr fun _ => rfl | (refine Or.inr ?_; intros; repeat' (first | rfl | split)))) only [↓rest_advanceTo, ↓rest_writeMirrorCtrl, ↓rest_mk, ↓rest_ite, ite_self] | (intro; rfl) | split | (intro; split) | rfl)

theorem rest_writeCntSel {L : List Part} (hL : sub [.ctr, .ctrCtl] L = true) (s : State) (n : Nat) (v : Word) :
    rest L (writeCntSel s n v) = rest L s := by
  unfold writeCntSel
  repeat' (first | with_reducible rfl | simp (disch := (first | exact sub_trans (by decide) hL | exact Or.inl (has_of_sub hL (by decide)) | exact Or.inr rfl | exact Or.inr fun _ => rfl | (refine Or.inr ?_; intros; repeat' (first | rfl | split)))) only [↓rest_updCtr, ↓rest_mk, ↓rest_ite, ite_self] | (with_reducible refine (rest_updCtr (sub_trans (by decide) hL) _ _ (.inr ?_)).trans ?_) | (intro; rfl) | split | (intro; split) | rfl)

theorem rest_execCntSelWrite {L : List Part} (hL : sub [.ctr, .ctrCtl] L = true) (req : Requester) (n : Nat) (value : Word) (s : State) :
    ∃ tv, execCntSelWrite req n value s = .next tv ∧ rest L tv = rest L s := by
  unfold execCntSelWrite
  repeat' (first | (refine ⟨_, rfl, ?_⟩) | with_reducible rfl | simp (disch := (first | exact sub_trans (by decide) hL | exact Or.inl (has_of_sub hL (by decide)) | exact Or.inr rfl | exact Or.inr fun _ => rfl | (refine Or.inr ?_; intros; repeat' (first | rfl | split)))) only [↓rest_writeCntSel, ↓rest_mk, ↓rest_ite, ite_self] | (intro; rfl) | split | (intro; split) | rfl)

theorem rest_latchCounter {L : List Part} (hL : sub [.ports, .ctr] L = true) (s : State) (req : Requester) (w : Word) :
    rest L (latchCounter s req w) = rest L s := by
  unfold latchCounter
  repeat' (first | with_reducible rfl | simp (disch := (first | exact sub_trans (by decide) hL | exact Or.inl (has_of_sub hL (by decide)) | exact Or.inr rfl | exact Or.inr fun _ => rfl | (refine Or.inr ?_; intros; repeat' (first | rfl | split)))) only [↓rest_updCtr, ↓rest_updPort, ↓rest_mk, ↓rest_ite, ite_self] | (with_reducible refine (rest_updCtr (sub_trans (by decide) hL) _ _ (.inr ?_)).trans ?_) | (with_reducible refine (rest_updPort (sub_trans (by decide) hL) _ _ _ (.inr ?_)).trans ?_) | (intro; rfl) | split | (intro; split) | rfl)

theorem rest_readCounterLow {L : List Part} (hL : sub [.free, .readData, .ports, .ctr] L = true) (s : State) (req : Requester) (snapshot : Bool) (n : Nat) :
    rest L (readCounterLow s req snapshot n) = rest L s := by
  unfold readCounterLow
  repeat' (first | with_reducible rfl | simp (disch := (first | exact sub_trans (by decide) hL | exact Or.inl (has_of_sub hL (by decide)) | exact Or.inr rfl | exact Or.inr fun _ => rfl | (refine Or.inr ?_; intros; repeat' (first | rfl | split)))) only [↓rest_drawFree, ↓rest_latchCounter, ↓rest_mk, ↓rest_ite, ite_self] | (intro; rfl) | split | (intro; split) | rfl)

theorem rest_execCounterLowRead {L : List Part} (hL : sub [.free, .readData, .ports, .ctr] L = true) (req : Requester) (snapshot : Bool) (n : Nat) (s : State) :
    ∃ tv, execCounterLowRead req snapshot n s = .next tv ∧ rest L tv = rest L s := by
  unfold execCounterLowRead
  repeat' (first | (refine ⟨_, rfl, ?_⟩) | with_reducible rfl | simp (disch := (first | exact sub_trans (by decide) hL | exact Or.inl (has_of_sub hL (by decide)) | exact Or.inr rfl | exact Or.inr fun _ => rfl | (refine Or.inr ?_; intros; repeat' (first | rfl | split)))) only [↓rest_readCounterLow, ↓rest_mk, ↓rest_ite, ite_self] | (intro; rfl) | split | (intro; split) | rfl)

theorem rest_writePscHead {L : List Part} (hL : sub [.ctr] L = true) (s : State) (v : Word) :
    rest L (writePscHead s v) = rest L s := by
  unfold writePscHead
  repeat' (first | with_reducible rfl | simp (disch := (first | exact sub_trans (by decide) hL | exact Or.inl (has_of_sub hL (by decide)) | exact Or.inr rfl | exact Or.inr fun _ => rfl | (refine Or.inr ?_; intros; repeat' (first | rfl | split)))) only [↓rest_updCtr, ↓rest_mk, ↓rest_ite, ite_self] | (with_reducible refine (rest_updCtr (sub_trans (by decide) hL) _ _ (.inr ?_)).trans ?_) | (intro; rfl) | split | (intro; split) | rfl)

theorem rest_writePsc {L : List Part} (hL : sub [.free, .ctr, .ctrCtl] L = true) (s : State) (n : Nat) (v : Word) :
    rest L (writePsc s n v) = rest L s := by
  unfold writePsc
  repeat' (first | with_reducible rfl | simp (disch := (first | exact sub_trans (by decide) hL | exact Or.inl (has_of_sub hL (by decide)) | exact Or.inr rfl | exact Or.inr fun _ => rfl | (refine Or.inr ?_; intros; repeat' (first | rfl | split)))) only [↓rest_drawInterval, ↓rest_writePscHead, ↓rest_updCtr, ↓rest_mk, ↓rest_ite, ite_self] | (with_reducible refine (rest_updCtr (sub_trans (by decide) hL) _ _ (.inr ?_)).trans ?_) | (intro; rfl) | split | (intro; split) | rfl)

theorem rest_execPscHeadWrite {L : List Part} (hL : sub [.ctr] L = true) (req : Requester) (value : Word) (s : State) :
    ∃ tv, execPscHeadWrite req value s = .next tv ∧ rest L tv = rest L s := by
  unfold execPscHeadWrite
  repeat' (first | (refine ⟨_, rfl, ?_⟩) | with_reducible rfl | simp (disch := (first | exact sub_trans (by decide) hL | exact Or.inl (has_of_sub hL (by decide)) | exact Or.inr rfl | exact Or.inr fun _ => rfl | (refine Or.inr ?_; intros; repeat' (first | rfl | split)))) only [↓rest_writePscHead, ↓rest_mk, ↓rest_ite, ite_self] | (intro; rfl) | split | (intro; split) | rfl)

end Sys2Proof.Laws
end

