-- ==== Sys2Proof/Laws/FramesDigest.lean ====
section
/-! SUPPORT. Which parts of the state the operations of Machine/Digest.lean may change. -/
namespace Sys2Proof.Laws
open Sys2Proof Sys2Proof.Machine

set_option linter.unreachableTactic false
set_option linter.unusedTactic false

set_option linter.unusedSimpArgs false

theorem rest_updDigCtx {L : List Part} (hL : sub [.dig] L = true) (s : State) (id : Nat) (f : DigCtx → DigCtx) :
    rest L (updDigCtx s id f) = rest L s := by
  unfold updDigCtx
  repeat' (first | with_reducible rfl | simp (disch := (first | exact sub_trans (by decide) hL | exact Or.inl (has_of_sub hL (by decide)) | exact Or.inr rfl | exact Or.inr fun _ => rfl | (refine Or.inr ?_; intros; repeat' (first | rfl | split)))) only [↓rest_updDig, ↓rest_mk, ↓rest_ite, ite_self] | (intro; rfl) | split | (intro; split) | rfl)

theorem rest_useWrap {L : List Part} (hL : sub [.dig] L = true) (s : State) :
    rest L (useWrap s) = rest L s := by
  unfold useWrap
  repeat' (first | with_reducible rfl | simp (disch := (first | exact sub_trans (by decide) hL | exact Or.inl (has_of_sub hL (by decide)) | exact Or.inr rfl | exact Or.inr fun _ => rfl | (refine Or.inr ?_; intros; repeat' (first | rfl | split)))) only [↓rest_updDig, ↓rest_mk, ↓rest_ite, ite_self] | (intro; rfl) | split | (intro; split) | rfl)

theorem rest_evictCtx {L : List Part} (hL : sub [.out, .dig] L = true) (s : State) (k : DigCtx) :
    rest L (evictCtx s k) = rest L s := by
  unfold evictCtx
  repeat' (first | with_reducible rfl | simp (disch := (first | exact sub_trans (by decide) hL | exact Or.inl (has_of_sub hL (by decide)) | exact Or.inr rfl | exact Or.inr fun _ => rfl | (refine Or.inr ?_; intros; repeat' (first | rfl | split)))) only [↓rest_emit, ↓rest_updDigCtx, ↓rest_useWrap, ↓rest_mk, ↓rest_ite, ite_self] | (intro; rfl) | split | (intro; split) | rfl)

theorem rest_takeSlot {L : List Part} (hL : sub [.out, .dig] L = true) (s : State) :
    ∀ tv, takeSlot s = some tv → rest L tv.1 = rest L s := by
  intro tv
  unfold takeSlot
  repeat' (first | with_reducible exact none_imp | (with_reducible refine rest_or _ _ ?_ ?_) | (with_reducible refine rest_some ?_) | (with_reducible refine rest_some1 ?_) | (with_reducible refine rest_map _ _ (fun x hx => ?_)) | (with_reducible refine rest_map1 _ _ (fun x hx => ?_)) | (with_reducible refine bind_imp _ _ (fun x hx => ?_)) | (with_reducible refine findSome_imp _ _ (fun x => ?_)) | with_reducible rfl | simp (disch := (first | exact sub_trans (by decide) hL | exact Or.inl (has_of_sub hL (by decide)) | exact Or.inr rfl | exact Or.inr fun _ => rfl | (refine Or.inr ?_; intros; repeat' (first | rfl | split)))) only [↓rest_evictCtx, ↓rest_mk, ↓rest_ite, ite_self] | (with_reducible refine (rest_getD _ _ (fun u => ?_)).trans ?_) | (intro; rfl) | split | (intro; split) | rfl)
theorem rest_takeSlot_eq {L : List Part} (hL : sub [.out, .dig] L = true) (s : State) {uu aa} (hq : takeSlot s = some (uu, aa)) : rest L uu = rest L s :=
  rest_takeSlot hL s  _ hq

theorem rest_dropChunks {L : List Part} (hL : sub [.dig] L = true) (s : State) (cid : Nat) :
    rest L (dropChunks s cid) = rest L s := by
  unfold dropChunks
  repeat' (first | with_reducible rfl | simp (disch := (first | exact sub_trans (by decide) hL | exact Or.inl (has_of_sub hL (by decide)) | exact Or.inr rfl | exact Or.inr fun _ => rfl | (refine Or.inr ?_; intros; repeat' (first | rfl | split)))) only [↓rest_updDig, ↓rest_mk, ↓rest_ite, ite_self] | (intro; rfl) | split | (intro; split) | rfl)

theorem rest_digReleased {L : List Part} (hL : sub [.ctxs, .dig] L = true) (s : State) (cid : Nat) :
    rest L (digReleased s cid) = rest L s := by
  unfold digReleased
  repeat' (first | with_reducible rfl | simp (disch := (first | exact sub_trans (by decide) hL | exact Or.inl (has_of_sub hL (by decide)) | exact Or.inr rfl | exact Or.inr fun _ => rfl | (refine Or.inr ?_; intros; repeat' (first | rfl | split)))) only [↓rest_dropChunks, ↓rest_dropEnded, ↓rest_updCtx, ↓rest_updDig, ↓rest_mk, ↓rest_ite, ite_self] | (intro; rfl) | split | (intro; split) | rfl)

theorem rest_digFail {L : List Part} (hL : sub [.ctxs, .errSeq, .ports, .eng, .media, .dig] L = true) (s : State) (c : Ctx) (v : Verdict) :
    rest L (digFail s c v) = rest L s := by
  unfold digFail
  repeat' (first | with_reducible rfl | simp (disch := (first | exact sub_trans (by decide) hL | exact Or.inl (has_of_sub hL (by decide)) | exact Or.inr rfl | exact Or.inr fun _ => rfl | (refine Or.inr ?_; intros; repeat' (first | rfl | split)))) only [↓rest_digReleased, ↓rest_failCommand, ↓rest_mk, ↓rest_ite, ite_self] | (intro; rfl) | split | (intro; split) | rfl)

theorem rest_ctxBusy {L : List Part} (hL : sub [.ctxs, .errSeq, .ports, .eng, .media, .dig] L = true) (s : State) (c : Ctx) (cause : Nat) :
    rest L (ctxBusy s c cause) = rest L s := by
  unfold ctxBusy
  repeat' (first | with_reducible rfl | simp (disch := (first | exact sub_trans (by decide) hL | exact Or.inl (has_of_sub hL (by decide)) | exact Or.inr rfl | exact Or.inr fun _ => rfl | (refine Or.inr ?_; intros; repeat' (first | rfl | split)))) only [↓rest_digFail, ↓rest_updCtx, ↓rest_mk, ↓rest_ite, ite_self] | (intro; rfl) | split | (intro; split) | rfl)

theorem rest_digPerform {L : List Part} (hL : sub [.ctxs, .dig] L = true) (s : State) (cid : Nat) (r0 r1 : Word) (status : Half := 0) :
    rest L (digPerform s cid r0 r1 status) = rest L s := by
  unfold digPerform
  repeat' (first | with_reducible rfl | simp (disch := (first | exact sub_trans (by decide) hL | exact Or.inl (has_of_sub hL (by decide)) | exact Or.inr rfl | exact Or.inr fun _ => rfl | (refine Or.inr ?_; intros; repeat' (first | rfl | split)))) only [↓rest_digReleased, ↓rest_perform, ↓rest_mk, ↓rest_ite, ite_self] | (intro; rfl) | split | (intro; split) | rfl)

theorem rest_awaitSlot {L : List Part} (hL : sub [.ctxs, .errSeq, .ports, .eng, .media, .dig] L = true) (s : State) (c : Ctx) :
    rest L (awaitSlot s c) = rest L s := by
  unfold awaitSlot
  repeat' (first | with_reducible rfl | simp (disch := (first | exact sub_trans (by decide) hL | exact Or.inl (has_of_sub hL (by decide)) | exact Or.inr rfl | exact Or.inr fun _ => rfl | (refine Or.inr ?_; intros; repeat' (first | rfl | split)))) only [↓rest_ctxBusy, ↓rest_updCtx, ↓rest_mk, ↓rest_ite, ite_self] | (intro; rfl) | split | (intro; split) | rfl)

theorem rest_readyChunk {L : List Part} (hL : sub [.dig] L = true) (s : State) (cid : Nat) :
    rest L (readyChunk s cid) = rest L s := by
  unfold readyChunk
  repeat' (first | with_reducible rfl | simp (disch := (first | exact sub_trans (by decide) hL | exact Or.inl (has_of_sub hL (by decide)) | exact Or.inr rfl | exact Or.inr fun _ => rfl | (refine Or.inr ?_; intros; repeat' (first | rfl | split)))) only [↓rest_updDig, ↓rest_mk, ↓rest_ite, ite_self] | (intro; rfl) | split | (intro; split) | rfl)

theorem rest_execDigestChunkDispatch {L : List Part} (hL : sub [.dig, .ctr] L = true) (s : State) :
    ∃ tv, execDigestChunkDispatch s = .next tv ∧ rest L tv = rest L s := by
  unfold execDigestChunkDispatch
  repeat' (first | (refine ⟨_, rfl, ?_⟩) | with_reducible rfl | simp (disch := (first | exact sub_trans (by decide) hL | exact Or.inl (has_of_sub hL (by decide)) | exact Or.inr rfl | exact Or.inr fun _ => rfl | (refine Or.inr ?_; intros; repeat' (first | rfl | split)))) only [↓rest_countEvent, ↓rest_updDig, ↓rest_mk, ↓rest_ite, ite_self] | (intro; rfl) | split | (intro; split) | rfl)

theorem rest_newContext {L : List Part} (hL : sub [.ports, .dig] L = true) (s : State) (c : Ctx) (slot : Nat) (d : DigState) :
    rest L (newContext s c slot d).1 = rest L s := by
  unfold newContext
  repeat' (first | with_reducible rfl | simp (disch := (first | exact sub_trans (by decide) hL | exact Or.inl (has_of_sub hL (by decide)) | exact Or.inr rfl | exact Or.inr fun _ => rfl | (refine Or.inr ?_; intros; repeat' (first | rfl | split)))) only [↓rest_updDig, ↓rest_updPort, ↓rest_mk, ↓rest_ite, ite_self] | (with_reducible refine (rest_updPort (sub_trans (by decide) hL) _ _ _ (.inr ?_)).trans ?_) | (intro; rfl) | split | (intro; split) | rfl)
theorem rest_newContext_eq {L : List Part} (hL : sub [.ports, .dig] L = true) (s : State) (c : Ctx) (slot : Nat) (d : DigState) {uu aa} (hq : newContext s c slot d = (uu, aa)) : rest L uu = rest L s := by
  have k := rest_newContext hL s c slot d
  rw [hq] at k
  exact k

theorem rest_openDone {L : List Part} (hL : sub [.ctxs, .ports, .dig] L = true) (s : State) (c : Ctx) (slot : Nat) (d : DigState) :
    rest L (openDone s c slot d) = rest L s := by
  unfold openDone
  repeat' (first | with_reducible rfl | simp (disch := (first | exact sub_trans (by decide) hL | exact Or.inl (has_of_sub hL (by decide)) | exact Or.inr rfl | exact Or.inr fun _ => rfl | (refine Or.inr ?_; intros; repeat' (first | rfl | split)))) only [↓rest_digPerform, ↓rest_newContext, ↓rest_updCtx, ↓rest_mk, ↓rest_ite, ite_self] | (with_reducible refine (rest_newContext_eq (sub_trans (by decide) hL) _ _ _ _ (by assumption)).trans ?_) | (intro; rfl) | split | (intro; split) | rfl)

theorem rest_withSlot {L : List Part} (hL : sub [.out, .ctxs, .errSeq, .ports, .eng, .media, .dig] L = true) (s : State) (c : Ctx) (go : State → Nat → State) (hg : ∀ t c, rest L (go t c) = rest L t) :
    rest L (withSlot s c go) = rest L s := by
  unfold withSlot
  repeat' (first | with_reducible rfl | simp (disch := (first | exact sub_trans (by decide) hL | exact Or.inl (has_of_sub hL (by decide)) | exact Or.inr rfl | exact Or.inr fun _ => rfl | (refine Or.inr ?_; intros; repeat' (first | rfl | split)))) only [↓rest_awaitSlot, ↓rest_updCtx, ↓rest_mk, ↓rest_ite, ite_self] | (with_reducible refine (hg _).trans ?_) | (with_reducible refine (hg _ _).trans ?_) | (with_reducible refine (rest_takeSlot_eq (sub_trans (by decide) hL) _ (by assumption)).trans ?_) | (with_reducible refine (rest_takeSlot (sub_trans (by decide) hL) _ _ (by assumption)).trans ?_) | (intro h; with_reducible refine (rest_takeSlot (sub_trans (by decide) hL) _ _ h).trans ?_) | (intro; rfl) | split | (intro; split) | rfl)

theorem rest_execDigestOpen {L : List Part} (hL : sub [.out, .ctxs, .errSeq, .ports, .eng, .media, .dig] L = true) (cid : Nat) (key : HostFetch) (s : State) :
    ∃ tv, execDigestOpen cid key s = .next tv ∧ rest L tv = rest L s := by
  unfold execDigestOpen
  repeat' (first | (refine ⟨_, rfl, ?_⟩) | with_reducible rfl | simp (disch := (first | exact sub_trans (by decide) hL | exact Or.inl (has_of_sub hL (by decide)) | exact Or.inr rfl | exact Or.inr fun _ => rfl | (refine Or.inr ?_; intros; repeat' (first | rfl | split)))) only [↓rest_digFail, ↓rest_openDone, ↓rest_readyChunk, ↓rest_updCtx, ↓rest_mk, ↓rest_ite, ite_self] | (with_reducible refine (rest_withSlot (sub_trans (by decide) hL) _ _ _ (fun t c => ?_)).trans ?_) | (intro; rfl) | split | (intro; split) | rfl)

theorem rest_onContext {L : List Part} (hL : sub [.ctxs, .errSeq, .ports, .eng, .media, .dig] L = true) (s : State) (c : Ctx) (go : State → DigCtx → State) (hg : ∀ t c, rest L (go t c) = rest L t) :
    rest L (onContext s c go) = rest L s := by
  unfold onContext
  repeat' (first | with_reducible rfl | simp (disch := (first | exact sub_trans (by decide) hL | exact Or.inl (has_of_sub hL (by decide)) | exact Or.inr rfl | exact Or.inr fun _ => rfl | (refine Or.inr ?_; intros; repeat' (first | rfl | split)))) only [↓rest_ctxBusy, ↓rest_updCtx, ↓rest_updDigCtx, ↓rest_mk, ↓rest_ite, ite_self] | (with_reducible refine (hg _).trans ?_) | (with_reducible refine (hg _ _).trans ?_) | (intro; rfl) | split | (intro; split) | rfl)

theorem rest_fedTo {L : List Part} (hL : sub [.ctxs, .dig] L = true) (s : State) (c : Ctx) (id : Nat) (d : DigState) (r0 r1 : Word) (status : Half := 0) :
    rest L (fedTo s c id d r0 r1 status) = rest L s := by
  unfold fedTo
  repeat' (first | with_reducible rfl | simp (disch := (first | exact sub_trans (by decide) hL | exact Or.inl (has_of_sub hL (by decide)) | exact Or.inr rfl | exact Or.inr fun _ => rfl | (refine Or.inr ?_; intros; repeat' (first | rfl | split)))) only [↓rest_digPerform, ↓rest_updDigCtx, ↓rest_mk, ↓rest_ite, ite_self] | (intro; rfl) | split | (intro; split) | rfl)

theorem rest_endCtx {L : List Part} (hL : sub [.dig] L = true) (s : State) (id : Nat) :
    rest L (endCtx s id) = rest L s := by
  unfold endCtx
  repeat' (first | with_reducible rfl | simp (disch := (first | exact sub_trans (by decide) hL | exact Or.inl (has_of_sub hL (by decide)) | exact Or.inr rfl | exact Or.inr fun _ => rfl | (refine Or.inr ?_; intros; repeat' (first | rfl | split)))) only [↓rest_updDig, ↓rest_mk, ↓rest_ite, ite_self] | (intro; rfl) | split | (intro; split) | rfl)

theorem rest_execDigestFeedHost {L : List Part} (hL : sub [.ctxs, .errSeq, .ports, .eng, .media, .dig] L = true) (cid : Nat) (data : HostFetch) (s : State) :
    ∃ tv, execDigestFeedHost cid data s = .next tv ∧ rest L tv = rest L s := by
  unfold execDigestFeedHost
  repeat' (first | (refine ⟨_, rfl, ?_⟩) | with_reducible rfl | simp (disch := (first | exact sub_trans (by decide) hL | exact Or.inl (has_of_sub hL (by decide)) | exact Or.inr rfl | exact Or.inr fun _ => rfl | (refine Or.inr ?_; intros; repeat' (first | rfl | split)))) only [↓rest_digFail, ↓rest_readyChunk, ↓rest_updCtx, ↓rest_mk, ↓rest_ite, ite_self] | (with_reducible refine (rest_onContext (sub_trans (by decide) hL) _ _ _ (fun t c => ?_)).trans ?_) | (intro; rfl) | split | (intro; split) | rfl)

theorem rest_execDigestFeedMedium {L : List Part} (hL : sub [.ctxs, .errSeq, .ports, .eng, .media, .dig] L = true) (cid : Nat) (s : State) :
    ∃ tv, execDigestFeedMedium cid s = .next tv ∧ rest L tv = rest L s := by
  unfold execDigestFeedMedium
  repeat' (first | (refine ⟨_, rfl, ?_⟩) | with_reducible rfl | simp (disch := (first | exact sub_trans (by decide) hL | exact Or.inl (has_of_sub hL (by decide)) | exact Or.inr rfl | exact Or.inr fun _ => rfl | (refine Or.inr ?_; intros; repeat' (first | rfl | split)))) only [↓rest_digFail, ↓rest_readyChunk, ↓rest_mk, ↓rest_ite, ite_self] | (with_reducible refine (rest_onContext (sub_trans (by decide) hL) _ _ _ (fun t c => ?_)).trans ?_) | (intro; rfl) | split | (intro; split) | rfl)

theorem rest_finalDone {L : List Part} (hL : sub [.out, .ctxs, .dig] L = true) (s : State) (c : Ctx) (k : DigCtx) (tail expected : List Byte) :
    rest L (finalDone s c k tail expected) = rest L s := by
  unfold finalDone
  repeat' (first | with_reducible rfl | simp (disch := (first | exact sub_trans (by decide) hL | exact Or.inl (has_of_sub hL (by decide)) | exact Or.inr rfl | exact Or.inr fun _ => rfl | (refine Or.inr ?_; intros; repeat' (first | rfl | split)))) only [↓rest_digPerform, ↓rest_emit, ↓rest_endCtx, ↓rest_mk, ↓rest_ite, ite_self] | (intro; rfl) | split | (intro; split) | rfl)

theorem rest_execDigestFinal {L : List Part} (hL : sub [.out, .ctxs, .errSeq, .ports, .eng, .media, .dig] L = true) (cid : Nat) (tail expected : HostFetch) (s : State) :
    ∃ tv, execDigestFinal cid tail expected s = .next tv ∧ rest L tv = rest L s := by
  unfold execDigestFinal
  repeat' (first | (refine ⟨_, rfl, ?_⟩) | with_reducible rfl | simp (disch := (first | exact sub_trans (by decide) hL | exact Or.inl (has_of_sub hL (by decide)) | exact Or.inr rfl | exact Or.inr fun _ => rfl | (refine Or.inr ?_; intros; repeat' (first | rfl | split)))) only [↓rest_digFail, ↓rest_finalDone, ↓rest_readyChunk, ↓rest_updCtx, ↓rest_mk, ↓rest_ite, ite_self] | (with_reducible refine (rest_onContext (sub_trans (by decide) hL) _ _ _ (fun t c => ?_)).trans ?_) | (intro; rfl) | split | (intro; split) | rfl)

theorem rest_execDigestSave {L : List Part} (hL : sub [.out, .ctxs, .errSeq, .ports, .eng, .media, .dig] L = true) (cid : Nat) (list : ListRead) (s : State) :
    ∃ tv, execDigestSave cid list s = .next tv ∧ rest L tv = rest L s := by
  unfold execDigestSave
  repeat' (first | (refine ⟨_, rfl, ?_⟩) | with_reducible rfl | simp (disch := (first | exact sub_trans (by decide) hL | exact Or.inl (has_of_sub hL (by decide)) | exact Or.inr rfl | exact Or.inr fun _ => rfl | (refine Or.inr ?_; intros; repeat' (first | rfl | split)))) only [↓rest_deliver, ↓rest_digFail, ↓rest_fedTo, ↓rest_useWrap, ↓rest_mk, ↓rest_ite, ite_self] | (with_reducible refine (rest_onContext (sub_trans (by decide) hL) _ _ _ (fun t c => ?_)).trans ?_) | (intro; rfl) | split | (intro; split) | rfl)

theorem rest_execDigestLoad {L : List Part} (hL : sub [.out, .ctxs, .errSeq, .ports, .eng, .media, .dig] L = true) (cid : Nat) (onion : HostFetch) (s : State) :
    ∃ tv, execDigestLoad cid onion s = .next tv ∧ rest L tv = rest L s := by
  unfold execDigestLoad
  repeat' (first | (refine ⟨_, rfl, ?_⟩) | with_reducible rfl | simp (disch := (first | exact sub_trans (by decide) hL | exact Or.inl (has_of_sub hL (by decide)) | exact Or.inr rfl | exact Or.inr fun _ => rfl | (refine Or.inr ?_; intros; repeat' (first | rfl | split)))) only [↓rest_digFail, ↓rest_digPerform, ↓rest_openDone, ↓rest_updCtx, ↓rest_mk, ↓rest_ite, ite_self] | (with_reducible refine (rest_withSlot (sub_trans (by decide) hL) _ _ _ (fun t c => ?_)).trans ?_) | (intro; rfl) | split | (intro; split) | rfl)

theorem rest_execDigestClose {L : List Part} (hL : sub [.ctxs, .errSeq, .ports, .eng, .media, .dig] L = true) (cid : Nat) (s : State) :
    ∃ tv, execDigestClose cid s = .next tv ∧ rest L tv = rest L s := by
  unfold execDigestClose
  repeat' (first | (refine ⟨_, rfl, ?_⟩) | with_reducible rfl | simp (disch := (first | exact sub_trans (by decide) hL | exact Or.inl (has_of_sub hL (by decide)) | exact Or.inr rfl | exact Or.inr fun _ => rfl | (refine Or.inr ?_; intros; repeat' (first | rfl | split)))) only [↓rest_ctxBusy, ↓rest_digPerform, ↓rest_endCtx, ↓rest_mk, ↓rest_ite, ite_self] | (intro; rfl) | split | (intro; split) | rfl)

theorem rest_digestDone {L : List Part} (hL : sub [.out, .ctxs, .errSeq, .ports, .eng, .media, .dig] L = true) (s : State) (c : Ctx) :
    rest L (digestDone s c) = rest L s := by
  unfold digestDone
  repeat' (first | with_reducible exact none_imp | (with_reducible refine rest_or _ _ ?_ ?_) | (with_reducible refine rest_some ?_) | (with_reducible refine rest_some1 ?_) | (with_reducible refine rest_map _ _ (fun x hx => ?_)) | (with_reducible refine rest_map1 _ _ (fun x hx => ?_)) | (with_reducible refine bind_imp _ _ (fun x hx => ?_)) | (with_reducible refine findSome_imp _ _ (fun x => ?_)) | with_reducible rfl | simp (disch := (first | exact sub_trans (by decide) hL | exact Or.inl (has_of_sub hL (by decide)) | exact Or.inr rfl | exact Or.inr fun _ => rfl | (refine Or.inr ?_; intros; repeat' (first | rfl | split)))) only [↓rest_ctxBusy, ↓rest_fedTo, ↓rest_finalDone, ↓rest_openDone, ↓rest_mk, ↓rest_ite, ite_self] | (with_reducible refine (rest_getD _ _ (fun u => ?_)).trans ?_) | (intro; rfl) | split | (intro; split) | rfl)

theorem rest_execDigestChunkDone {L : List Part} (hL : sub [.out, .ctxs, .errSeq, .ports, .eng, .media, .dig, .mover] L = true) (pipe : Nat) (s : State) :
    ∃ tv, execDigestChunkDone pipe s = .next tv ∧ rest L tv = rest L s := by
  unfold execDigestChunkDone
  repeat' (first | (refine ⟨_, rfl, ?_⟩) | with_reducible rfl | simp (disch := (first | exact sub_trans (by decide) hL | exact Or.inl (has_of_sub hL (by decide)) | exact Or.inr rfl | exact Or.inr fun _ => rfl | (refine Or.inr ?_; intros; repeat' (first | rfl | split)))) only [↓rest_digestDone, ↓rest_pulseLine, ↓rest_readyChunk, ↓rest_updCtx, ↓rest_updDig, ↓rest_mk, ↓rest_ite, ite_self] | (intro; rfl) | split | (intro; split) | rfl)

theorem rest_bringBack {L : List Part} (hL : sub [.ctxs, .errSeq, .ports, .eng, .media, .dig] L = true) (s : State) (c : Ctx) (k : DigCtx) (slot : Nat) (frame : HostFetch) :
    rest L (bringBack s c k slot frame) = rest L s := by
  unfold bringBack
  repeat' (first | with_reducible rfl | simp (disch := (first | exact sub_trans (by decide) hL | exact Or.inl (has_of_sub hL (by decide)) | exact Or.inr rfl | exact Or.inr fun _ => rfl | (refine Or.inr ?_; intros; repeat' (first | rfl | split)))) only [↓rest_ctxBusy, ↓rest_endContexts, ↓rest_updCtx, ↓rest_updDigCtx, ↓rest_mk, ↓rest_ite, ite_self] | (intro; rfl) | split | (intro; split) | rfl)

theorem rest_execContextSlotWaitEnd {L : List Part} (hL : sub [.out, .ctxs, .errSeq, .ports, .eng, .media, .dig] L = true) (cid : Nat) (frame : HostFetch) (s : State) :
    ∃ tv, execContextSlotWaitEnd cid frame s = .next tv ∧ rest L tv = rest L s := by
  unfold execContextSlotWaitEnd
  repeat' (first | (refine ⟨_, rfl, ?_⟩) | with_reducible rfl | simp (disch := (first | exact sub_trans (by decide) hL | exact Or.inl (has_of_sub hL (by decide)) | exact Or.inr rfl | exact Or.inr fun _ => rfl | (refine Or.inr ?_; intros; repeat' (first | rfl | split)))) only [↓rest_bringBack, ↓rest_ctxBusy, ↓rest_updCtx, ↓rest_mk, ↓rest_ite, ite_self] | (with_reducible refine (rest_takeSlot_eq (sub_trans (by decide) hL) _ (by assumption)).trans ?_) | (with_reducible refine (rest_takeSlot (sub_trans (by decide) hL) _ _ (by assumption)).trans ?_) | (intro h; with_reducible refine (rest_takeSlot (sub_trans (by decide) hL) _ _ h).trans ?_) | (intro; rfl) | split | (intro; split) | rfl)

end Sys2Proof.Laws
end

