-- ==== Sys2Proof/Laws/FramesKeeperFlash.lean ====
section
/-! SUPPORT. Which parts of the state the operations of Machine/KeeperFlash.lean may change. -/
namespace Sys2Proof.Laws
open Sys2Proof Sys2Proof.Machine

set_option linter.unreachableTactic false
set_option linter.unusedTactic false

set_option linter.unusedSimpArgs false

theorem rest_updKfReq {L : List Part} (hL : sub [.kf] L = true) (s : State) (side : Bool) (f : KfReq → KfReq) :
    rest L (updKfReq s side f) = rest L s := by
  unfold updKfReq
  repeat' (first | with_reducible rfl | simp (disch := (first | exact sub_trans (by decide) hL | exact Or.inl (has_of_sub hL (by decide)) | exact Or.inr rfl | exact Or.inr fun _ => rfl | (refine Or.inr ?_; intros; repeat' (first | rfl | split)))) only [↓rest_updKf, ↓rest_mk, ↓rest_ite, ite_self] | (with_reducible refine (rest_updKf (sub_trans (by decide) hL) _ _ (.inr ?_) (.inr ?_)).trans ?_) | (intro; rfl) | split | (intro; split) | rfl)

theorem rest_kfSet {L : List Part} (hL : sub [.kf] L = true) (s : State) (side : Bool) (n : Nat) :
    rest L (kfSet s side n) = rest L s := by
  unfold kfSet
  repeat' (first | with_reducible rfl | simp (disch := (first | exact sub_trans (by decide) hL | exact Or.inl (has_of_sub hL (by decide)) | exact Or.inr rfl | exact Or.inr fun _ => rfl | (refine Or.inr ?_; intros; repeat' (first | rfl | split)))) only [↓rest_updKfReq, ↓rest_mk, ↓rest_ite, ite_self] | (intro; rfl) | split | (intro; split) | rfl)

theorem rest_kfRefuse {L : List Part} (hL : sub [.kf] L = true) (s : State) (side : Bool) (n : Nat) :
    rest L (kfRefuse s side n) = rest L s := by
  unfold kfRefuse
  repeat' (first | with_reducible rfl | simp (disch := (first | exact sub_trans (by decide) hL | exact Or.inl (has_of_sub hL (by decide)) | exact Or.inr rfl | exact Or.inr fun _ => rfl | (refine Or.inr ?_; intros; repeat' (first | rfl | split)))) only [↓rest_kfSet, ↓rest_updKfReq, ↓rest_mk, ↓rest_ite, ite_self] | (intro; rfl) | split | (intro; split) | rfl)

theorem rest_hitSaved {L : List Part} (hL : sub [.kf] L = true) (s : State) (cmd addr : Nat) :
    rest L (hitSaved s cmd addr) = rest L s := by
  unfold hitSaved
  repeat' (first | with_reducible rfl | simp (disch := (first | exact sub_trans (by decide) hL | exact Or.inl (has_of_sub hL (by decide)) | exact Or.inr rfl | exact Or.inr fun _ => rfl | (refine Or.inr ?_; intros; repeat' (first | rfl | split)))) only [↓rest_updKf, ↓rest_mk, ↓rest_ite, ite_self] | (with_reducible refine (rest_updKf (sub_trans (by decide) hL) _ _ (.inr ?_) (.inr ?_)).trans ?_) | (intro; rfl) | split | (intro; split) | rfl)

theorem rest_drawBytes {L : List Part} (hL : sub [.free] L = true) (s : State) (n : Nat) :
    rest L (drawBytes s n) = rest L s := by
  unfold drawBytes
  repeat' (first | with_reducible rfl | simp (disch := (first | exact sub_trans (by decide) hL | exact Or.inl (has_of_sub hL (by decide)) | exact Or.inr rfl | exact Or.inr fun _ => rfl | (refine Or.inr ?_; intros; repeat' (first | rfl | split)))) only [↓rest_mk, ↓rest_ite, ite_self] | (intro; rfl) | split | (intro; split) | rfl)

theorem rest_kfBegin {L : List Part} (hL : sub [.free, .kf] L = true) (s : State) (side : Bool) (cmd addr : Nat) :
    rest L (kfBegin s side cmd addr) = rest L s := by
  unfold kfBegin
  repeat' (first | with_reducible rfl | simp (disch := (first | exact sub_trans (by decide) hL | exact Or.inl (has_of_sub hL (by decide)) | exact Or.inr rfl | exact Or.inr fun _ => rfl | (refine Or.inr ?_; intros; repeat' (first | rfl | split)))) only [↓rest_drawBytes, ↓rest_drawFree, ↓rest_kfSet, ↓rest_updKfReq, ↓rest_mk, ↓rest_ite, ite_self] | (intro; rfl) | split | (intro; split) | rfl)

theorem rest_kfWake {L : List Part} (hL : sub [.free, .kf] L = true) (s : State) (side : Bool) :
    rest L (kfWake s side) = rest L s := by
  unfold kfWake
  repeat' (first | with_reducible rfl | simp (disch := (first | exact sub_trans (by decide) hL | exact Or.inl (has_of_sub hL (by decide)) | exact Or.inr rfl | exact Or.inr fun _ => rfl | (refine Or.inr ?_; intros; repeat' (first | rfl | split)))) only [↓rest_kfBegin, ↓rest_mk, ↓rest_ite, ite_self] | (intro; rfl) | split | (intro; split) | rfl)

theorem rest_kfSettle {L : List Part} (hL : sub [.free, .kf] L = true) (s : State) :
    rest L (kfSettle s) = rest L s := by
  unfold kfSettle
  repeat' (first | with_reducible rfl | simp (disch := (first | exact sub_trans (by decide) hL | exact Or.inl (has_of_sub hL (by decide)) | exact Or.inr rfl | exact Or.inr fun _ => rfl | (refine Or.inr ?_; intros; repeat' (first | rfl | split)))) only [↓rest_kfWake, ↓rest_mk, ↓rest_ite, ite_self] | (intro; rfl) | split | (intro; split) | rfl)

theorem rest_kfStart {L : List Part} (hL : sub [.free, .kf] L = true) (s : State) (side : Bool) (cmd addr : Nat) :
    rest L (kfStart s side cmd addr) = rest L s := by
  unfold kfStart
  repeat' (first | with_reducible rfl | simp (disch := (first | exact sub_trans (by decide) hL | exact Or.inl (has_of_sub hL (by decide)) | exact Or.inr rfl | exact Or.inr fun _ => rfl | (refine Or.inr ?_; intros; repeat' (first | rfl | split)))) only [↓rest_kfRefuse, ↓rest_kfSettle, ↓rest_updKfReq, ↓rest_mk, ↓rest_ite, ite_self] | (intro; rfl) | split | (intro; split) | rfl)

theorem rest_kfWriteKey {L : List Part} (hL : sub [.kf] L = true) (s : State) (side : Bool) (v : Nat) :
    rest L (kfWriteKey s side v) = rest L s := by
  unfold kfWriteKey
  repeat' (first | with_reducible rfl | simp (disch := (first | exact sub_trans (by decide) hL | exact Or.inl (has_of_sub hL (by decide)) | exact Or.inr rfl | exact Or.inr fun _ => rfl | (refine Or.inr ?_; intros; repeat' (first | rfl | split)))) only [↓rest_kfRefuse, ↓rest_updKfReq, ↓rest_mk, ↓rest_ite, ite_self] | (intro; rfl) | split | (intro; split) | rfl)

theorem rest_kfWriteCmd {L : List Part} (hL : sub [.kf] L = true) (s : State) (side : Bool) (v : Nat) :
    rest L (kfWriteCmd s side v) = rest L s := by
  unfold kfWriteCmd
  repeat' (first | with_reducible rfl | simp (disch := (first | exact sub_trans (by decide) hL | exact Or.inl (has_of_sub hL (by decide)) | exact Or.inr rfl | exact Or.inr fun _ => rfl | (refine Or.inr ?_; intros; repeat' (first | rfl | split)))) only [↓rest_kfRefuse, ↓rest_updKfReq, ↓rest_mk, ↓rest_ite, ite_self] | (intro; rfl) | split | (intro; split) | rfl)

theorem rest_kfWriteAddr {L : List Part} (hL : sub [.free, .kf] L = true) (s : State) (side : Bool) (v : Nat) (pc : Option Nat) :
    rest L (kfWriteAddr s side v pc) = rest L s := by
  unfold kfWriteAddr
  repeat' (first | with_reducible rfl | simp (disch := (first | exact sub_trans (by decide) hL | exact Or.inl (has_of_sub hL (by decide)) | exact Or.inr rfl | exact Or.inr fun _ => rfl | (refine Or.inr ?_; intros; repeat' (first | rfl | split)))) only [↓rest_kfRefuse, ↓rest_kfSet, ↓rest_kfStart, ↓rest_updKfReq, ↓rest_mk, ↓rest_ite, ite_self] | (intro; rfl) | split | (intro; split) | rfl)

theorem rest_kfWriteData {L : List Part} (hL : sub [.free, .kf] L = true) (s : State) (side : Bool) (n : Nat) (v : Word) (pc : Option Nat) :
    rest L (kfWriteData s side n v pc) = rest L s := by
  unfold kfWriteData
  repeat' (first | with_reducible rfl | simp (disch := (first | exact sub_trans (by decide) hL | exact Or.inl (has_of_sub hL (by decide)) | exact Or.inr rfl | exact Or.inr fun _ => rfl | (refine Or.inr ?_; intros; repeat' (first | rfl | split)))) only [↓rest_kfRefuse, ↓rest_kfStart, ↓rest_updKfReq, ↓rest_mk, ↓rest_ite, ite_self] | (intro; rfl) | split | (intro; split) | rfl)

theorem rest_kfCommand {L : List Part} (hL : sub [.free, .kf] L = true) (s : State) (side : Bool) (cmd addr : Nat) (pc : Option Nat) :
    rest L (kfCommand s side cmd addr pc) = rest L s := by
  unfold kfCommand
  repeat' (first | with_reducible rfl | simp (disch := (first | exact sub_trans (by decide) hL | exact Or.inl (has_of_sub hL (by decide)) | exact Or.inr rfl | exact Or.inr fun _ => rfl | (refine Or.inr ?_; intros; repeat' (first | rfl | split)))) only [↓rest_kfWriteAddr, ↓rest_kfWriteCmd, ↓rest_mk, ↓rest_ite, ite_self] | (intro; rfl) | split | (intro; split) | rfl)

theorem rest_kfLive {L : List Part} (hL : sub [] L = true) (s : State) (f : State → State) (hg : ∀ t, rest L (f t) = rest L t) :
    ∃ tv, kfLive s f = .next tv ∧ rest L tv = rest L s := by
  unfold kfLive
  repeat' (first | (refine ⟨_, rfl, ?_⟩) | with_reducible rfl | simp (disch := (first | exact sub_trans (by decide) hL | exact Or.inl (has_of_sub hL (by decide)) | exact Or.inr rfl | exact Or.inr fun _ => rfl | (refine Or.inr ?_; intros; repeat' (first | rfl | split)))) only [↓rest_mk, ↓rest_ite, ite_self] | (with_reducible refine (hg _).trans ?_) | (with_reducible refine (hg _ _).trans ?_) | (intro; rfl) | split | (intro; split) | rfl)

theorem rest_kfSlotBad {L : List Part} (hL : sub [.kf, .kfMem] L = true) (s : State) (side : Bool) (addr : Nat) :
    rest L (kfSlotBad s side addr) = rest L s := by
  unfold kfSlotBad
  repeat' (first | with_reducible rfl | simp (disch := (first | exact sub_trans (by decide) hL | exact Or.inl (has_of_sub hL (by decide)) | exact Or.inr rfl | exact Or.inr fun _ => rfl | (refine Or.inr ?_; intros; repeat' (first | rfl | split)))) only [↓rest_putBoot, ↓rest_mk, ↓rest_ite, ite_self] | (intro; rfl) | split | (intro; split) | rfl)

theorem rest_kfMarginBad {L : List Part} (hL : sub [.free, .raised, .kf, .kfMem] L = true) (s : State) (side : Bool) (sector : Nat) :
    rest L (kfMarginBad s side sector) = rest L s := by
  unfold kfMarginBad
  repeat' (first | with_reducible exact none_imp | (with_reducible refine rest_or _ _ ?_ ?_) | (with_reducible refine rest_some ?_) | (with_reducible refine rest_some1 ?_) | (with_reducible refine rest_map _ _ (fun x hx => ?_)) | (with_reducible refine rest_map1 _ _ (fun x hx => ?_)) | (with_reducible refine bind_imp _ _ (fun x hx => ?_)) | (with_reducible refine findSome_imp _ _ (fun x => ?_)) | with_reducible rfl | simp (disch := (first | exact sub_trans (by decide) hL | exact Or.inl (has_of_sub hL (by decide)) | exact Or.inr rfl | exact Or.inr fun _ => rfl | (refine Or.inr ?_; intros; repeat' (first | rfl | split)))) only [↓rest_drawFree, ↓rest_kfSlotBad, ↓rest_raiseEvent, ↓rest_updKf, ↓rest_mk, ↓rest_ite, ite_self] | (with_reducible refine (rest_getD _ _ (fun u => ?_)).trans ?_) | (with_reducible refine (rest_updKf (sub_trans (by decide) hL) _ _ (.inr ?_) (.inr ?_)).trans ?_) | (intro; rfl) | split | (intro; split) | rfl)

theorem rest_endProgram {L : List Part} (hL : sub [.free, .kf, .kfMem] L = true) (s : State) (side : Bool) (addr pulses : Nat) (agreed : Bool) :
    rest L (endProgram s side addr pulses agreed) = rest L s := by
  unfold endProgram
  repeat' (first | with_reducible rfl | (with_reducible refine (rest_foldl _ (fun t x => ?_) _ _).trans ?_) | simp (disch := (first | exact sub_trans (by decide) hL | exact Or.inl (has_of_sub hL (by decide)) | exact Or.inr rfl | exact Or.inr fun _ => rfl | (refine Or.inr ?_; intros; repeat' (first | rfl | split)))) only [↓rest_drawBytes, ↓rest_kfSet, ↓rest_kfSlotBad, ↓rest_updKfReq, ↓rest_updKf, ↓rest_mk, ↓rest_ite, ite_self] | (with_reducible refine (rest_foldl1 _ (fun t x => ?_) _ _).trans ?_) | (with_reducible refine (rest_updKf (sub_trans (by decide) hL) _ _ (.inr ?_) (.inr ?_)).trans ?_) | (intro; rfl) | split | (intro; split) | rfl)

theorem rest_endMarginRead {L : List Part} (hL : sub [.free, .raised, .kf, .kfMem] L = true) (s : State) (side : Bool) (addr measured : Nat) :
    rest L (endMarginRead s side addr measured) = rest L s := by
  unfold endMarginRead
  repeat' (first | with_reducible rfl | simp (disch := (first | exact sub_trans (by decide) hL | exact Or.inl (has_of_sub hL (by decide)) | exact Or.inr rfl | exact Or.inr fun _ => rfl | (refine Or.inr ?_; intros; repeat' (first | rfl | split)))) only [↓rest_kfMarginBad, ↓rest_kfSet, ↓rest_updKfReq, ↓rest_updKf, ↓rest_mk, ↓rest_ite, ite_self] | (with_reducible refine (rest_updKf (sub_trans (by decide) hL) _ _ (.inr ?_) (.inr ?_)).trans ?_) | (intro; rfl) | split | (intro; split) | rfl)

theorem rest_endErase {L : List Part} (hL : sub [.kf, .kfMem] L = true) (s : State) (addr : Nat) :
    rest L (endErase s addr) = rest L s := by
  unfold endErase
  repeat' (first | with_reducible rfl | simp (disch := (first | exact sub_trans (by decide) hL | exact Or.inl (has_of_sub hL (by decide)) | exact Or.inr rfl | exact Or.inr fun _ => rfl | (refine Or.inr ?_; intros; repeat' (first | rfl | split)))) only [↓rest_updKf, ↓rest_mk, ↓rest_ite, ite_self] | (with_reducible refine (rest_updKf (sub_trans (by decide) hL) _ _ (.inr ?_) (.inr ?_)).trans ?_) | (intro; rfl) | split | (intro; split) | rfl)

theorem rest_endCrc {L : List Part} (hL : sub [.free, .kf] L = true) (s : State) (side : Bool) (addr : Nat) :
    rest L (endCrc s side addr) = rest L s := by
  unfold endCrc
  repeat' (first | with_reducible rfl | simp (disch := (first | exact sub_trans (by decide) hL | exact Or.inl (has_of_sub hL (by decide)) | exact Or.inr rfl | exact Or.inr fun _ => rfl | (refine Or.inr ?_; intros; repeat' (first | rfl | split)))) only [↓rest_drawFree, ↓rest_updKfReq, ↓rest_mk, ↓rest_ite, ite_self] | (intro; rfl) | split | (intro; split) | rfl)

theorem rest_kfEnd {L : List Part} (hL : sub [.free, .raised, .kf, .kfMem] L = true) (s : State) (side : Bool) (measured : Nat) (agreed : Bool) :
    rest L (kfEnd s side measured agreed) = rest L s := by
  unfold kfEnd
  repeat' (first | with_reducible rfl | simp (disch := (first | exact sub_trans (by decide) hL | exact Or.inl (has_of_sub hL (by decide)) | exact Or.inr rfl | exact Or.inr fun _ => rfl | (refine Or.inr ?_; intros; repeat' (first | rfl | split)))) only [↓rest_endCrc, ↓rest_endErase, ↓rest_endMarginRead, ↓rest_endProgram, ↓rest_hitSaved, ↓rest_kfSet, ↓rest_kfSettle, ↓rest_updKfReq, ↓rest_mk, ↓rest_ite, ite_self] | (intro; rfl) | split | (intro; split) | rfl)

theorem rest_execKfKeyWrite {L : List Part} (hL : sub [.kf] L = true) (side : Bool) (value : Word) (s : State) :
    ∃ tv, execKfKeyWrite side value s = .next tv ∧ rest L tv = rest L s := by
  unfold execKfKeyWrite
  repeat' (first | (with_reducible refine rest_kfLive (sub_trans (by decide) hL) _ _ (fun t => ?_)) | (refine ⟨_, rfl, ?_⟩) | with_reducible rfl | simp (disch := (first | exact sub_trans (by decide) hL | exact Or.inl (has_of_sub hL (by decide)) | exact Or.inr rfl | exact Or.inr fun _ => rfl | (refine Or.inr ?_; intros; repeat' (first | rfl | split)))) only [↓rest_kfWriteKey, ↓rest_mk, ↓rest_ite, ite_self] | (intro; rfl) | split | (intro; split) | rfl)

theorem rest_execKfProgram {L : List Part} (hL : sub [.free, .kf] L = true) (side : Bool) (addr : Nat) (data : List Word) (pc : Option Nat) (s : State) :
    ∃ tv, execKfProgram side addr data pc s = .next tv ∧ rest L tv = rest L s := by
  unfold execKfProgram
  repeat' (first | (with_reducible refine rest_kfLive (sub_trans (by decide) hL) _ _ (fun t => ?_)) | (refine ⟨_, rfl, ?_⟩) | with_reducible rfl | (with_reducible refine (rest_foldl _ (fun t x => ?_) _ _).trans ?_) | simp (disch := (first | exact sub_trans (by decide) hL | exact Or.inl (has_of_sub hL (by decide)) | exact Or.inr rfl | exact Or.inr fun _ => rfl | (refine Or.inr ?_; intros; repeat' (first | rfl | split)))) only [↓rest_kfCommand, ↓rest_kfWriteData, ↓rest_mk, ↓rest_ite, ite_self] | (with_reducible refine (rest_foldl1 _ (fun t x => ?_) _ _).trans ?_) | (intro; rfl) | split | (intro; split) | rfl)

theorem rest_execKfErase {L : List Part} (hL : sub [.free, .kf] L = true) (side : Bool) (addr : Nat) (pc : Option Nat) (s : State) :
    ∃ tv, execKfErase side addr pc s = .next tv ∧ rest L tv = rest L s := by
  unfold execKfErase
  repeat' (first | (with_reducible refine rest_kfLive (sub_trans (by decide) hL) _ _ (fun t => ?_)) | (refine ⟨_, rfl, ?_⟩) | with_reducible rfl | simp (disch := (first | exact sub_trans (by decide) hL | exact Or.inl (has_of_sub hL (by decide)) | exact Or.inr rfl | exact Or.inr fun _ => rfl | (refine Or.inr ?_; intros; repeat' (first | rfl | split)))) only [↓rest_kfCommand, ↓rest_mk, ↓rest_ite, ite_self] | (intro; rfl) | split | (intro; split) | rfl)

theorem rest_execKfMarginRead {L : List Part} (hL : sub [.free, .kf] L = true) (side : Bool) (addr : Nat) (s : State) :
    ∃ tv, execKfMarginRead side addr s = .next tv ∧ rest L tv = rest L s := by
  unfold execKfMarginRead
  repeat' (first | (with_reducible refine rest_kfLive (sub_trans (by decide) hL) _ _ (fun t => ?_)) | (refine ⟨_, rfl, ?_⟩) | with_reducible rfl | simp (disch := (first | exact sub_trans (by decide) hL | exact Or.inl (has_of_sub hL (by decide)) | exact Or.inr rfl | exact Or.inr fun _ => rfl | (refine Or.inr ?_; intros; repeat' (first | rfl | split)))) only [↓rest_kfCommand, ↓rest_mk, ↓rest_ite, ite_self] | (intro; rfl) | split | (intro; split) | rfl)

theorem rest_execKfRead {L : List Part} (hL : sub [.free, .kf] L = true) (side : Bool) (addr : Nat) (s : State) :
    ∃ tv, execKfRead side addr s = .next tv ∧ rest L tv = rest L s := by
  unfold execKfRead
  repeat' (first | (with_reducible refine rest_kfLive (sub_trans (by decide) hL) _ _ (fun t => ?_)) | (refine ⟨_, rfl, ?_⟩) | with_reducible rfl | simp (disch := (first | exact sub_trans (by decide) hL | exact Or.inl (has_of_sub hL (by decide)) | exact Or.inr rfl | exact Or.inr fun _ => rfl | (refine Or.inr ?_; intros; repeat' (first | rfl | split)))) only [↓rest_kfCommand, ↓rest_mk, ↓rest_ite, ite_self] | (intro; rfl) | split | (intro; split) | rfl)

theorem rest_execKfCrcSector {L : List Part} (hL : sub [.free, .kf] L = true) (side : Bool) (addr : Nat) (s : State) :
    ∃ tv, execKfCrcSector side addr s = .next tv ∧ rest L tv = rest L s := by
  unfold execKfCrcSector
  repeat' (first | (with_reducible refine rest_kfLive (sub_trans (by decide) hL) _ _ (fun t => ?_)) | (refine ⟨_, rfl, ?_⟩) | with_reducible rfl | simp (disch := (first | exact sub_trans (by decide) hL | exact Or.inl (has_of_sub hL (by decide)) | exact Or.inr rfl | exact Or.inr fun _ => rfl | (refine Or.inr ?_; intros; repeat' (first | rfl | split)))) only [↓rest_kfCommand, ↓rest_mk, ↓rest_ite, ite_self] | (intro; rfl) | split | (intro; split) | rfl)

theorem rest_execKfCommandDone {L : List Part} (hL : sub [.free, .out, .evSeq, .evHist, .raised, .condFrom, .ports, .kf, .kfMem] L = true) (bank : Bool) (measured : Nat) (agreed : Bool) (s : State) :
    ∃ tv, execKfCommandDone bank measured agreed s = .next tv ∧ rest L tv = rest L s := by
  unfold execKfCommandDone
  repeat' (first | (with_reducible refine rest_kfLive (sub_trans (by decide) hL) _ _ (fun t => ?_)) | (refine ⟨_, rfl, ?_⟩) | with_reducible rfl | simp (disch := (first | exact sub_trans (by decide) hL | exact Or.inl (has_of_sub hL (by decide)) | exact Or.inr rfl | exact Or.inr fun _ => rfl | (refine Or.inr ?_; intros; repeat' (first | rfl | split)))) only [↓rest_endCycle, ↓rest_kfEnd, ↓rest_mk, ↓rest_ite, ite_self] | (intro; rfl) | split | (intro; split) | rfl)

theorem rest_recoverNow {L : List Part} (hL : sub [.ports, .media, .jrnl, .twin, .kf] L = true) (s : State) :
    rest L (recoverNow s) = rest L s := by
  unfold recoverNow
  repeat' (first | with_reducible rfl | simp (disch := (first | exact sub_trans (by decide) hL | exact Or.inl (has_of_sub hL (by decide)) | exact Or.inr rfl | exact Or.inr fun _ => rfl | (refine Or.inr ?_; intros; repeat' (first | rfl | split)))) only [↓rest_endStop, ↓rest_enterRecovery, ↓rest_updPort, ↓rest_updTwin, ↓rest_mk, ↓rest_ite, ite_self] | (with_reducible refine (rest_updPort (sub_trans (by decide) hL) _ _ _ (.inr ?_)).trans ?_) | (with_reducible refine (rest_updTwin (sub_trans (by decide) hL) _ _ (.inr ?_)).trans ?_) | (intro; rfl) | split | (intro; split) | rfl)

theorem rest_writeRecovery {L : List Part} (hL : sub [.now, .free, .cond, .readData, .out, .csnNext, .csnIssued, .csnBlock, .ctxs, .errSeq, .evSeq, .evHist, .raised, .condFrom, .ports, .portCtl, .cad, .cadCtl, .feat, .health, .map, .eng, .media, .jrnl, .twin, .twinCtl, .dig, .pods, .mover, .kf, .kfMem, .kfCtl, .power, .powerCtl, .ctr, .ctrCtl, .side, .sideCtl] L = true) (s : State) (v : Word) :
    rest L (writeRecovery s v) = rest L s := by
  unfold writeRecovery
  repeat' (first | with_reducible rfl | simp (disch := (first | exact sub_trans (by decide) hL | exact Or.inl (has_of_sub hL (by decide)) | exact Or.inr rfl | exact Or.inr fun _ => rfl | (refine Or.inr ?_; intros; repeat' (first | rfl | split)))) only [↓rest_reboot, ↓rest_recoverNow, ↓rest_updKf, ↓rest_mk, ↓rest_ite, ite_self] | (with_reducible refine (rest_updKf (sub_trans (by decide) hL) _ _ (.inr ?_) (.inr ?_)).trans ?_) | (intro; rfl) | split | (intro; split) | rfl)

theorem rest_execRecoveryRequest {L : List Part} (hL : sub [.now, .free, .cond, .readData, .out, .csnNext, .csnIssued, .csnBlock, .ctxs, .errSeq, .evSeq, .evHist, .raised, .condFrom, .ports, .portCtl, .cad, .cadCtl, .feat, .health, .map, .eng, .media, .jrnl, .twin, .twinCtl, .dig, .pods, .mover, .kf, .kfMem, .kfCtl, .power, .powerCtl, .ctr, .ctrCtl, .side, .sideCtl] L = true) (value : Word) (s : State) :
    ∃ tv, execRecoveryRequest value s = .next tv ∧ rest L tv = rest L s := by
  unfold execRecoveryRequest
  repeat' (first | (with_reducible refine rest_kfLive (sub_trans (by decide) hL) _ _ (fun t => ?_)) | (refine ⟨_, rfl, ?_⟩) | with_reducible rfl | simp (disch := (first | exact sub_trans (by decide) hL | exact Or.inl (has_of_sub hL (by decide)) | exact Or.inr rfl | exact Or.inr fun _ => rfl | (refine Or.inr ?_; intros; repeat' (first | rfl | split)))) only [↓rest_endCycle, ↓rest_writeRecovery, ↓rest_mk, ↓rest_ite, ite_self] | (intro; rfl) | split | (intro; split) | rfl)

theorem rest_execRecoveryExit {L : List Part} (hL : sub [.now, .free, .cond, .readData, .out, .csnNext, .csnIssued, .csnBlock, .ctxs, .errSeq, .evSeq, .evHist, .raised, .condFrom, .ports, .portCtl, .cad, .cadCtl, .feat, .health, .map, .eng, .media, .jrnl, .twin, .twinCtl, .dig, .pods, .mover, .kf, .kfMem, .kfCtl, .power, .powerCtl, .ctr, .ctrCtl, .side, .sideCtl] L = true) (value : Word) (s : State) :
    ∃ tv, execRecoveryExit value s = .next tv ∧ rest L tv = rest L s := by
  unfold execRecoveryExit
  repeat' (first | (with_reducible refine rest_kfLive (sub_trans (by decide) hL) _ _ (fun t => ?_)) | (refine ⟨_, rfl, ?_⟩) | with_reducible rfl | simp (disch := (first | exact sub_trans (by decide) hL | exact Or.inl (has_of_sub hL (by decide)) | exact Or.inr rfl | exact Or.inr fun _ => rfl | (refine Or.inr ?_; intros; repeat' (first | rfl | split)))) only [↓rest_endCycle, ↓rest_writeRecovery, ↓rest_mk, ↓rest_ite, ite_self] | (intro; rfl) | split | (intro; split) | rfl)

end Sys2Proof.Laws
end

