-- ==== Sys2Proof/Laws/FramesMaint.lean ====
section
/-! SUPPORT. Which parts of the state the operations of Machine/Maint.lean may change. -/
namespace Sys2Proof.Laws
open Sys2Proof Sys2Proof.Machine

set_option linter.unreachableTactic false
set_option linter.unusedTactic false

set_option linter.unusedSimpArgs false

theorem rest_execRebuildStop {L : List Part} (hL : sub [.cond, .out, .ctxs, .errSeq, .evSeq, .evHist, .raised, .condFrom, .ports, .media, .jrnl, .twin] L = true) (cid : Nat) (s : State) :
    ∃ tv, execRebuildStop cid s = .next tv ∧ rest L tv = rest L s := by
  unfold execRebuildStop
  repeat' (first | (refine ⟨_, rfl, ?_⟩) | with_reducible rfl | simp (disch := (first | exact sub_trans (by decide) hL | exact Or.inl (has_of_sub hL (by decide)) | exact Or.inr rfl | exact Or.inr fun _ => rfl | (refine Or.inr ?_; intros; repeat' (first | rfl | split)))) only [↓rest_endCycle, ↓rest_performState, ↓rest_refuseNow, ↓rest_setRebuild, ↓rest_updMedia, ↓rest_mk, ↓rest_ite, ite_self] | (intro; rfl) | split | (intro; split) | rfl)

theorem rest_execRebuildStart {L : List Part} (hL : sub [.cond, .out, .ctxs, .errSeq, .evSeq, .evHist, .raised, .condFrom, .ports, .media, .jrnl, .twin] L = true) (cid : Nat) (s : State) :
    ∃ tv, execRebuildStart cid s = .next tv ∧ rest L tv = rest L s := by
  unfold execRebuildStart
  repeat' (first | (refine ⟨_, rfl, ?_⟩) | with_reducible rfl | simp (disch := (first | exact sub_trans (by decide) hL | exact Or.inl (has_of_sub hL (by decide)) | exact Or.inr rfl | exact Or.inr fun _ => rfl | (refine Or.inr ?_; intros; repeat' (first | rfl | split)))) only [↓rest_endCycle, ↓rest_performState, ↓rest_refuseNow, ↓rest_setRebuild, ↓rest_mk, ↓rest_ite, ite_self] | (intro; rfl) | split | (intro; split) | rfl)

theorem rest_execPatrolPause {L : List Part} (hL : sub [.ctxs, .media, .twin] L = true) (cid : Nat) (s : State) :
    ∃ tv, execPatrolPause cid s = .next tv ∧ rest L tv = rest L s := by
  unfold execPatrolPause
  repeat' (first | (refine ⟨_, rfl, ?_⟩) | with_reducible rfl | simp (disch := (first | exact sub_trans (by decide) hL | exact Or.inl (has_of_sub hL (by decide)) | exact Or.inr rfl | exact Or.inr fun _ => rfl | (refine Or.inr ?_; intros; repeat' (first | rfl | split)))) only [↓rest_performState, ↓rest_updMedia, ↓rest_mk, ↓rest_ite, ite_self] | (intro; rfl) | split | (intro; split) | rfl)

theorem rest_execPatrolResume {L : List Part} (hL : sub [.ctxs, .media, .twin] L = true) (cid : Nat) (s : State) :
    ∃ tv, execPatrolResume cid s = .next tv ∧ rest L tv = rest L s := by
  unfold execPatrolResume
  repeat' (first | (refine ⟨_, rfl, ?_⟩) | with_reducible rfl | simp (disch := (first | exact sub_trans (by decide) hL | exact Or.inl (has_of_sub hL (by decide)) | exact Or.inr rfl | exact Or.inr fun _ => rfl | (refine Or.inr ?_; intros; repeat' (first | rfl | split)))) only [↓rest_performState, ↓rest_updMedia, ↓rest_mk, ↓rest_ite, ite_self] | (intro; rfl) | split | (intro; split) | rfl)

theorem rest_dropPatrolClaims {L : List Part} (hL : sub [.media] L = true) (s : State) (p : Nat) :
    rest L (dropPatrolClaims s p) = rest L s := by
  unfold dropPatrolClaims
  repeat' (first | with_reducible rfl | (with_reducible refine (rest_foldl _ (fun t x => ?_) _ _).trans ?_) | simp (disch := (first | exact sub_trans (by decide) hL | exact Or.inl (has_of_sub hL (by decide)) | exact Or.inr rfl | exact Or.inr fun _ => rfl | (refine Or.inr ?_; intros; repeat' (first | rfl | split)))) only [↓rest_dropClaim, ↓rest_mk, ↓rest_ite, ite_self] | (with_reducible refine (rest_foldl1 _ (fun t x => ?_) _ _).trans ?_) | (intro; rfl) | split | (intro; split) | rfl)

theorem rest_execPatrolRestartCycle {L : List Part} (hL : sub [.out, .ctxs, .evSeq, .evHist, .raised, .condFrom, .ports, .media, .twin] L = true) (cid : Nat) (s : State) :
    ∃ tv, execPatrolRestartCycle cid s = .next tv ∧ rest L tv = rest L s := by
  unfold execPatrolRestartCycle
  repeat' (first | (refine ⟨_, rfl, ?_⟩) | with_reducible rfl | (with_reducible refine (rest_foldl _ (fun t x => ?_) _ _).trans ?_) | simp (disch := (first | exact sub_trans (by decide) hL | exact Or.inl (has_of_sub hL (by decide)) | exact Or.inr rfl | exact Or.inr fun _ => rfl | (refine Or.inr ?_; intros; repeat' (first | rfl | split)))) only [↓rest_dropPatrolClaims, ↓rest_endCycle, ↓rest_performState, ↓rest_startPatrol, ↓rest_updMedia, ↓rest_mk, ↓rest_ite, ite_self] | (with_reducible refine (rest_foldl1 _ (fun t x => ?_) _ _).trans ?_) | (intro; rfl) | split | (intro; split) | rfl)

theorem rest_execPatrolPauseExpiry {L : List Part} (hL : sub [.now, .media, .power, .ctr] L = true) (cyc : Nat) (s : State) :
    ∃ tv, execPatrolPauseExpiry cyc s = .next tv ∧ rest L tv = rest L s := by
  unfold execPatrolPauseExpiry
  repeat' (first | (refine ⟨_, rfl, ?_⟩) | with_reducible rfl | simp (disch := (first | exact sub_trans (by decide) hL | exact Or.inl (has_of_sub hL (by decide)) | exact Or.inr rfl | exact Or.inr fun _ => rfl | (refine Or.inr ?_; intros; repeat' (first | rfl | split)))) only [↓rest_advanceTo, ↓rest_updMedia, ↓rest_mk, ↓rest_ite, ite_self] | (intro; rfl) | split | (intro; split) | rfl)

end Sys2Proof.Laws
end

