-- ==== Sys2Proof/Laws/FramesPowerStates.lean ====
section
/-! SUPPORT. Which parts of the state the operations of Machine/PowerStates.lean may change. -/
namespace Sys2Proof.Laws
open Sys2Proof Sys2Proof.Machine

set_option linter.unreachableTactic false
set_option linter.unusedTactic false

set_option linter.unusedSimpArgs false

theorem rest_settleThrottle {L : List Part} (hL : sub [.cond, .condFrom, .power] L = true) (s : State) :
    rest L (settleThrottle s) = rest L s := by
  unfold settleThrottle
  repeat' (first | with_reducible rfl | simp (disch := (first | exact sub_trans (by decide) hL | exact Or.inl (has_of_sub hL (by decide)) | exact Or.inr rfl | exact Or.inr fun _ => rfl | (refine Or.inr ?_; intros; repeat' (first | rfl | split)))) only [↓rest_setFlags, ↓rest_updPower, ↓rest_mk, ↓rest_ite, ite_self] | (with_reducible refine (rest_updPower (sub_trans (by decide) hL) _ _ (.inr ?_)).trans ?_) | (intro; rfl) | split | (intro; split) | rfl)

theorem rest_avsSend {L : List Part} (hL : sub [.power] L = true) (s : State) (mv : Nat) :
    rest L (avsSend s mv) = rest L s := by
  unfold avsSend
  repeat' (first | with_reducible rfl | simp (disch := (first | exact sub_trans (by decide) hL | exact Or.inl (has_of_sub hL (by decide)) | exact Or.inr rfl | exact Or.inr fun _ => rfl | (refine Or.inr ?_; intros; repeat' (first | rfl | split)))) only [↓rest_updPower, ↓rest_mk, ↓rest_ite, ite_self] | (with_reducible refine (rest_updPower (sub_trans (by decide) hL) _ _ (.inr ?_)).trans ?_) | (intro; rfl) | split | (intro; split) | rfl)

theorem rest_askVolt {L : List Part} (hL : sub [.power] L = true) (s : State) (mv : Nat) :
    rest L (askVolt s mv) = rest L s := by
  unfold askVolt
  repeat' (first | with_reducible exact none_imp | (with_reducible refine rest_or _ _ ?_ ?_) | (with_reducible refine rest_some ?_) | (with_reducible refine rest_some1 ?_) | (with_reducible refine rest_map _ _ (fun x hx => ?_)) | (with_reducible refine rest_map1 _ _ (fun x hx => ?_)) | (with_reducible refine bind_imp _ _ (fun x hx => ?_)) | (with_reducible refine findSome_imp _ _ (fun x => ?_)) | with_reducible rfl | simp (disch := (first | exact sub_trans (by decide) hL | exact Or.inl (has_of_sub hL (by decide)) | exact Or.inr rfl | exact Or.inr fun _ => rfl | (refine Or.inr ?_; intros; repeat' (first | rfl | split)))) only [↓rest_avsSend, ↓rest_mk, ↓rest_ite, ite_self] | (with_reducible refine (rest_getD _ _ (fun u => ?_)).trans ?_) | (intro; rfl) | split | (intro; split) | rfl)

theorem rest_execAvsAck {L : List Part} (hL : sub [.now, .cond, .out, .evSeq, .evHist, .raised, .condFrom, .ports, .power, .ctr] L = true) (cyc : Nat) (s : State) :
    ∃ tv, execAvsAck cyc s = .next tv ∧ rest L tv = rest L s := by
  unfold execAvsAck
  repeat' (first | (refine ⟨_, rfl, ?_⟩) | with_reducible rfl | simp (disch := (first | exact sub_trans (by decide) hL | exact Or.inl (has_of_sub hL (by decide)) | exact Or.inr rfl | exact Or.inr fun _ => rfl | (refine Or.inr ?_; intros; repeat' (first | rfl | split)))) only [↓rest_advanceTo, ↓rest_avsSend, ↓rest_endCycle, ↓rest_settleThrottle, ↓rest_updPower, ↓rest_mk, ↓rest_ite, ite_self] | (with_reducible refine (rest_updPower (sub_trans (by decide) hL) _ _ (.inr ?_)).trans ?_) | (intro; rfl) | split | (intro; split) | rfl)

theorem rest_avsResend {L : List Part} (hL : sub [.power] L = true) (s : State) (n : Nat) :
    rest L (avsResend s n) = rest L s := by
  unfold avsResend
  repeat' (first | with_reducible exact none_imp | (with_reducible refine rest_or _ _ ?_ ?_) | (with_reducible refine rest_some ?_) | (with_reducible refine rest_some1 ?_) | (with_reducible refine rest_map _ _ (fun x hx => ?_)) | (with_reducible refine rest_map1 _ _ (fun x hx => ?_)) | (with_reducible refine bind_imp _ _ (fun x hx => ?_)) | (with_reducible refine findSome_imp _ _ (fun x => ?_)) | with_reducible rfl | simp (disch := (first | exact sub_trans (by decide) hL | exact Or.inl (has_of_sub hL (by decide)) | exact Or.inr rfl | exact Or.inr fun _ => rfl | (refine Or.inr ?_; intros; repeat' (first | rfl | split)))) only [↓rest_updPower, ↓rest_mk, ↓rest_ite, ite_self] | (with_reducible refine (rest_getD _ _ (fun u => ?_)).trans ?_) | (with_reducible refine (rest_updPower (sub_trans (by decide) hL) _ _ (.inr ?_)).trans ?_) | (intro; rfl) | split | (intro; split) | rfl)

theorem rest_execAvsRetryTimeout {L : List Part} (hL : sub [.now, .cond, .out, .evSeq, .evHist, .raised, .condFrom, .ports, .media, .power, .ctr] L = true) (cyc : Nat) (s : State) :
    ∃ tv, execAvsRetryTimeout cyc s = .next tv ∧ rest L tv = rest L s := by
  unfold execAvsRetryTimeout
  repeat' (first | (refine ⟨_, rfl, ?_⟩) | with_reducible rfl | simp (disch := (first | exact sub_trans (by decide) hL | exact Or.inl (has_of_sub hL (by decide)) | exact Or.inr rfl | exact Or.inr fun _ => rfl | (refine Or.inr ?_; intros; repeat' (first | rfl | split)))) only [↓rest_abandonEntry, ↓rest_advanceTo, ↓rest_avsResend, ↓rest_endCycle, ↓rest_settleThrottle, ↓rest_updPower, ↓rest_mk, ↓rest_ite, ite_self] | (with_reducible refine (rest_updPower (sub_trans (by decide) hL) _ _ (.inr ?_)).trans ?_) | (intro; rfl) | split | (intro; split) | rfl)

theorem rest_execPowerLevelUpdate {L : List Part} (hL : sub [.cond, .out, .evSeq, .evHist, .raised, .condFrom, .ports, .power] L = true) (coreDeciwatts activity : Nat) (s : State) :
    ∃ tv, execPowerLevelUpdate coreDeciwatts activity s = .next tv ∧ rest L tv = rest L s := by
  unfold execPowerLevelUpdate
  repeat' (first | (refine ⟨_, rfl, ?_⟩) | with_reducible exact none_imp | (with_reducible refine rest_or _ _ ?_ ?_) | (with_reducible refine rest_some ?_) | (with_reducible refine rest_some1 ?_) | (with_reducible refine rest_map _ _ (fun x hx => ?_)) | (with_reducible refine rest_map1 _ _ (fun x hx => ?_)) | (with_reducible refine bind_imp _ _ (fun x hx => ?_)) | (with_reducible refine findSome_imp _ _ (fun x => ?_)) | with_reducible rfl | simp (disch := (first | exact sub_trans (by decide) hL | exact Or.inl (has_of_sub hL (by decide)) | exact Or.inr rfl | exact Or.inr fun _ => rfl | (refine Or.inr ?_; intros; repeat' (first | rfl | split)))) only [↓rest_endCycle, ↓rest_settleThrottle, ↓rest_updPower, ↓rest_mk, ↓rest_ite, ite_self] | (with_reducible refine (rest_getD _ _ (fun u => ?_)).trans ?_) | (with_reducible refine (rest_updPower (sub_trans (by decide) hL) _ _ (.inr ?_)).trans ?_) | (intro; rfl) | split | (intro; split) | rfl)

theorem rest_refuseTarget {L : List Part} (hL : sub [.power] L = true) (s : State) (target : Nat) :
    rest L (refuseTarget s target) = rest L s := by
  unfold refuseTarget
  repeat' (first | with_reducible rfl | simp (disch := (first | exact sub_trans (by decide) hL | exact Or.inl (has_of_sub hL (by decide)) | exact Or.inr rfl | exact Or.inr fun _ => rfl | (refine Or.inr ?_; intros; repeat' (first | rfl | split)))) only [↓rest_countRefusal, ↓rest_mk, ↓rest_ite, ite_self] | (intro; rfl) | split | (intro; split) | rfl)

theorem rest_enterLight {L : List Part} (hL : sub [.media, .power] L = true) (s : State) (st : Nat) :
    rest L (enterLight s st) = rest L s := by
  unfold enterLight
  repeat' (first | with_reducible rfl | simp (disch := (first | exact sub_trans (by decide) hL | exact Or.inl (has_of_sub hL (by decide)) | exact Or.inr rfl | exact Or.inr fun _ => rfl | (refine Or.inr ?_; intros; repeat' (first | rfl | split)))) only [↓rest_parkBays, ↓rest_updPower, ↓rest_mk, ↓rest_ite, ite_self] | (with_reducible refine (rest_updPower (sub_trans (by decide) hL) _ _ (.inr ?_)).trans ?_) | (intro; rfl) | split | (intro; split) | rfl)

theorem rest_idleStep {L : List Part} (hL : sub [.media, .power] L = true) (s : State) :
    rest L (idleStep s) = rest L s := by
  unfold idleStep
  repeat' (first | with_reducible rfl | simp (disch := (first | exact sub_trans (by decide) hL | exact Or.inl (has_of_sub hL (by decide)) | exact Or.inr rfl | exact Or.inr fun _ => rfl | (refine Or.inr ?_; intros; repeat' (first | rfl | split)))) only [↓rest_enterLight, ↓rest_refuseTarget, ↓rest_unparkBays, ↓rest_updPower, ↓rest_mk, ↓rest_ite, ite_self] | (with_reducible refine (rest_updPower (sub_trans (by decide) hL) _ _ (.inr ?_)).trans ?_) | (intro; rfl) | split | (intro; split) | rfl)

theorem rest_execIdleTimerExpiry {L : List Part} (hL : sub [.now, .media, .power, .ctr] L = true) (cyc : Nat) (s : State) :
    ∃ tv, execIdleTimerExpiry cyc s = .next tv ∧ rest L tv = rest L s := by
  unfold execIdleTimerExpiry
  repeat' (first | (refine ⟨_, rfl, ?_⟩) | with_reducible rfl | simp (disch := (first | exact sub_trans (by decide) hL | exact Or.inl (has_of_sub hL (by decide)) | exact Or.inr rfl | exact Or.inr fun _ => rfl | (refine Or.inr ?_; intros; repeat' (first | rfl | split)))) only [↓rest_advanceTo, ↓rest_idleStep, ↓rest_mk, ↓rest_ite, ite_self] | (intro; rfl) | split | (intro; split) | rfl)

theorem rest_writePsControl {L : List Part} (hL : sub [.media, .power, .powerCtl] L = true) (s : State) (value : Word) :
    rest L (writePsControl s value) = rest L s := by
  unfold writePsControl
  repeat' (first | with_reducible rfl | simp (disch := (first | exact sub_trans (by decide) hL | exact Or.inl (has_of_sub hL (by decide)) | exact Or.inr rfl | exact Or.inr fun _ => rfl | (refine Or.inr ?_; intros; repeat' (first | rfl | split)))) only [↓rest_idleStep, ↓rest_updPower, ↓rest_mk, ↓rest_ite, ite_self] | (with_reducible refine (rest_updPower (sub_trans (by decide) hL) _ _ (.inr ?_)).trans ?_) | (intro; rfl) | split | (intro; split) | rfl)

theorem rest_execPs4NowWrite {L : List Part} (hL : sub [.now, .media, .power, .powerCtl, .ctr] L = true) (value : Word) (cyc : Nat) (s : State) :
    ∃ tv, execPs4NowWrite value cyc s = .next tv ∧ rest L tv = rest L s := by
  unfold execPs4NowWrite
  repeat' (first | (refine ⟨_, rfl, ?_⟩) | with_reducible rfl | simp (disch := (first | exact sub_trans (by decide) hL | exact Or.inl (has_of_sub hL (by decide)) | exact Or.inr rfl | exact Or.inr fun _ => rfl | (refine Or.inr ?_; intros; repeat' (first | rfl | split)))) only [↓rest_advanceTo, ↓rest_writePsControl, ↓rest_mk, ↓rest_ite, ite_self] | (intro; rfl) | split | (intro; split) | rfl)

theorem rest_nextStep {L : List Part} (hL : sub [.power] L = true) (s : State) :
    rest L (nextStep s) = rest L s := by
  unfold nextStep
  repeat' (first | with_reducible rfl | simp (disch := (first | exact sub_trans (by decide) hL | exact Or.inl (has_of_sub hL (by decide)) | exact Or.inr rfl | exact Or.inr fun _ => rfl | (refine Or.inr ?_; intros; repeat' (first | rfl | split)))) only [↓rest_updPower, ↓rest_mk, ↓rest_ite, ite_self] | (with_reducible refine (rest_updPower (sub_trans (by decide) hL) _ _ (.inr ?_)).trans ?_) | (intro; rfl) | split | (intro; split) | rfl)

theorem rest_deepStep {L : List Part} (hL : sub [.ports, .cad, .health, .eng, .media, .jrnl, .twin, .kf, .kfMem, .power, .ctr] L = true) (s : State) (target step : Nat) (ok : Bool) (aoCycle : Nat) :
    rest L (deepStep s target step ok aoCycle) = rest L s := by
  unfold deepStep
  repeat' (first | with_reducible rfl | simp (disch := (first | exact sub_trans (by decide) hL | exact Or.inl (has_of_sub hL (by decide)) | exact Or.inr rfl | exact Or.inr fun _ => rfl | (refine Or.inr ?_; intros; repeat' (first | rfl | split)))) only [↓rest_abandonEntry, ↓rest_askVolt, ↓rest_beginCkpt, ↓rest_ckptStep, ↓rest_nextStep, ↓rest_parkBays, ↓rest_quiesce, ↓rest_updPower, ↓rest_mk, ↓rest_ite, ite_self] | (with_reducible refine (rest_updPower (sub_trans (by decide) hL) _ _ (.inr ?_)).trans ?_) | (intro; rfl) | split | (intro; split) | rfl)

theorem rest_execPsDeepEntry {L : List Part} (hL : sub [.ports, .cad, .health, .eng, .media, .jrnl, .twin, .kf, .kfMem, .power, .ctr] L = true) (step : Nat) (ok : Bool) (aoCycle : Nat) (s : State) :
    ∃ tv, execPsDeepEntry step ok aoCycle s = .next tv ∧ rest L tv = rest L s := by
  unfold execPsDeepEntry
  repeat' (first | (refine ⟨_, rfl, ?_⟩) | with_reducible rfl | simp (disch := (first | exact sub_trans (by decide) hL | exact Or.inl (has_of_sub hL (by decide)) | exact Or.inr rfl | exact Or.inr fun _ => rfl | (refine Or.inr ?_; intros; repeat' (first | rfl | split)))) only [↓rest_deepStep, ↓rest_settleFull, ↓rest_mk, ↓rest_ite, ite_self] | (intro; rfl) | split | (intro; split) | rfl)

theorem rest_startRetrain {L : List Part} (hL : sub [.power] L = true) (s : State) :
    rest L (startRetrain s) = rest L s := by
  unfold startRetrain
  repeat' (first | with_reducible rfl | simp (disch := (first | exact sub_trans (by decide) hL | exact Or.inl (has_of_sub hL (by decide)) | exact Or.inr rfl | exact Or.inr fun _ => rfl | (refine Or.inr ?_; intros; repeat' (first | rfl | split)))) only [↓rest_updPower, ↓rest_mk, ↓rest_ite, ite_self] | (with_reducible refine (rest_updPower (sub_trans (by decide) hL) _ _ (.inr ?_)).trans ?_) | (intro; rfl) | split | (intro; split) | rfl)

theorem rest_returnCadence {L : List Part} (hL : sub [.cad] L = true) (s : State) :
    rest L (returnCadence s) = rest L s := by
  unfold returnCadence
  repeat' (first | with_reducible exact none_imp | (with_reducible refine rest_or _ _ ?_ ?_) | (with_reducible refine rest_some ?_) | (with_reducible refine rest_some1 ?_) | (with_reducible refine rest_map _ _ (fun x hx => ?_)) | (with_reducible refine rest_map1 _ _ (fun x hx => ?_)) | (with_reducible refine bind_imp _ _ (fun x hx => ?_)) | (with_reducible refine findSome_imp _ _ (fun x => ?_)) | with_reducible rfl | simp (disch := (first | exact sub_trans (by decide) hL | exact Or.inl (has_of_sub hL (by decide)) | exact Or.inr rfl | exact Or.inr fun _ => rfl | (refine Or.inr ?_; intros; repeat' (first | rfl | split)))) only [↓rest_updCad, ↓rest_mk, ↓rest_ite, ite_self] | (with_reducible refine (rest_getD _ _ (fun u => ?_)).trans ?_) | (with_reducible refine (rest_updCad (sub_trans (by decide) hL) _ _ (.inr ?_)).trans ?_) | (intro; rfl) | split | (intro; split) | rfl)

theorem rest_exitState {L : List Part} (hL : sub [.cad, .eng, .media, .power] L = true) (s : State) (code : Nat) :
    rest L (exitState s code) = rest L s := by
  unfold exitState
  repeat' (first | with_reducible rfl | simp (disch := (first | exact sub_trans (by decide) hL | exact Or.inl (has_of_sub hL (by decide)) | exact Or.inr rfl | exact Or.inr fun _ => rfl | (refine Or.inr ?_; intros; repeat' (first | rfl | split)))) only [↓rest_askVolt, ↓rest_noteWake, ↓rest_returnCadence, ↓rest_startRetrain, ↓rest_toPs0, ↓rest_unparkBays, ↓rest_updEng, ↓rest_mk, ↓rest_ite, ite_self] | (intro; rfl) | split | (intro; split) | rfl)

theorem rest_wakeBy {L : List Part} (hL : sub [.cad, .eng, .media, .power] L = true) (s : State) (code aoCycle : Nat) :
    rest L (wakeBy s code aoCycle) = rest L s := by
  unfold wakeBy
  repeat' (first | with_reducible rfl | simp (disch := (first | exact sub_trans (by decide) hL | exact Or.inl (has_of_sub hL (by decide)) | exact Or.inr rfl | exact Or.inr fun _ => rfl | (refine Or.inr ?_; intros; repeat' (first | rfl | split)))) only [↓rest_abandonEntry, ↓rest_exitState, ↓rest_mk, ↓rest_ite, ite_self] | (intro; rfl) | split | (intro; split) | rfl)

theorem rest_execWake {L : List Part} (hL : sub [.cad, .eng, .media, .power] L = true) (code : Nat) (aoCycle : Nat) (s : State) :
    ∃ tv, execWake code aoCycle s = .next tv ∧ rest L tv = rest L s := by
  unfold execWake
  repeat' (first | (refine ⟨_, rfl, ?_⟩) | with_reducible rfl | simp (disch := (first | exact sub_trans (by decide) hL | exact Or.inl (has_of_sub hL (by decide)) | exact Or.inr rfl | exact Or.inr fun _ => rfl | (refine Or.inr ?_; intros; repeat' (first | rfl | split)))) only [↓rest_wakeBy, ↓rest_mk, ↓rest_ite, ite_self] | (intro; rfl) | split | (intro; split) | rfl)

theorem rest_loseCounters {L : List Part} (hL : sub [.ctr] L = true) (s : State) :
    rest L (loseCounters s) = rest L s := by
  unfold loseCounters
  refine (rest_updCtr hL _ _ (.inr ?_)).trans (rest_clearCounters hL s)
  intro
  rfl

theorem rest_execDomainsOff {L : List Part} (hL : sub [.cad, .eng, .media, .twin, .power, .ctr] L = true) (aoCycle : Nat) (levelSource : Option Nat) (s : State) :
    ∃ tv, execDomainsOff aoCycle levelSource s = .next tv ∧ rest L tv = rest L s := by
  unfold execDomainsOff
  repeat' (first | (refine ⟨_, rfl, ?_⟩) | with_reducible rfl | (with_reducible refine (rest_foldl _ (fun t x => ?_) _ _).trans ?_) | simp (disch := (first | exact sub_trans (by decide) hL | exact Or.inl (has_of_sub hL (by decide)) | exact Or.inr rfl | exact Or.inr fun _ => rfl | (refine Or.inr ?_; intros; repeat' (first | rfl | split)))) only [↓rest_exitState, ↓rest_loseCounters, ↓rest_updPower, ↓rest_updTwin, ↓rest_mk, ↓rest_ite, ite_self] | (with_reducible refine (rest_foldl1 _ (fun t x => ?_) _ _).trans ?_) | (with_reducible refine (rest_updPower (sub_trans (by decide) hL) _ _ (.inr ?_)).trans ?_) | (with_reducible refine (rest_updTwin (sub_trans (by decide) hL) _ _ (.inr ?_)).trans ?_) | (intro; rfl) | split | (intro; split) | rfl)

theorem rest_execMaintWakeTimer {L : List Part} (hL : sub [.cad, .eng, .media, .power] L = true) (aoCycle : Nat) (s : State) :
    ∃ tv, execMaintWakeTimer aoCycle s = .next tv ∧ rest L tv = rest L s := by
  unfold execMaintWakeTimer
  repeat' (first | (refine ⟨_, rfl, ?_⟩) | with_reducible rfl | simp (disch := (first | exact sub_trans (by decide) hL | exact Or.inl (has_of_sub hL (by decide)) | exact Or.inr rfl | exact Or.inr fun _ => rfl | (refine Or.inr ?_; intros; repeat' (first | rfl | split)))) only [↓rest_wakeBy, ↓rest_mk, ↓rest_ite, ite_self] | (intro; rfl) | split | (intro; split) | rfl)

theorem rest_execSbAddressMatch {L : List Part} (hL : sub [.cad, .eng, .media, .power] L = true) (address : Nat) (s : State) :
    ∃ tv, execSbAddressMatch address s = .next tv ∧ rest L tv = rest L s := by
  unfold execSbAddressMatch
  repeat' (first | (refine ⟨_, rfl, ?_⟩) | with_reducible exact none_imp | (with_reducible refine rest_or _ _ ?_ ?_) | (with_reducible refine rest_some ?_) | (with_reducible refine rest_some1 ?_) | (with_reducible refine rest_map _ _ (fun x hx => ?_)) | (with_reducible refine rest_map1 _ _ (fun x hx => ?_)) | (with_reducible refine bind_imp _ _ (fun x hx => ?_)) | (with_reducible refine findSome_imp _ _ (fun x => ?_)) | with_reducible rfl | simp (disch := (first | exact sub_trans (by decide) hL | exact Or.inl (has_of_sub hL (by decide)) | exact Or.inr rfl | exact Or.inr fun _ => rfl | (refine Or.inr ?_; intros; repeat' (first | rfl | split)))) only [↓rest_wakeBy, ↓rest_updPower, ↓rest_mk, ↓rest_ite, ite_self] | (with_reducible refine (rest_getD _ _ (fun u => ?_)).trans ?_) | (with_reducible refine (rest_updPower (sub_trans (by decide) hL) _ _ (.inr ?_)).trans ?_) | (intro; rfl) | split | (intro; split) | rfl)

theorem rest_execJtagTapStateChange {L : List Part} (hL : sub [.cad, .eng, .media, .power] L = true) (inReset : Bool) (s : State) :
    ∃ tv, execJtagTapStateChange inReset s = .next tv ∧ rest L tv = rest L s := by
  unfold execJtagTapStateChange
  repeat' (first | (refine ⟨_, rfl, ?_⟩) | with_reducible exact none_imp | (with_reducible refine rest_or _ _ ?_ ?_) | (with_reducible refine rest_some ?_) | (with_reducible refine rest_some1 ?_) | (with_reducible refine rest_map _ _ (fun x hx => ?_)) | (with_reducible refine rest_map1 _ _ (fun x hx => ?_)) | (with_reducible refine bind_imp _ _ (fun x hx => ?_)) | (with_reducible refine findSome_imp _ _ (fun x => ?_)) | with_reducible rfl | simp (disch := (first | exact sub_trans (by decide) hL | exact Or.inl (has_of_sub hL (by decide)) | exact Or.inr rfl | exact Or.inr fun _ => rfl | (refine Or.inr ?_; intros; repeat' (first | rfl | split)))) only [↓rest_wakeBy, ↓rest_updPower, ↓rest_mk, ↓rest_ite, ite_self] | (with_reducible refine (rest_getD _ _ (fun u => ?_)).trans ?_) | (with_reducible refine (rest_updPower (sub_trans (by decide) hL) _ _ (.inr ?_)).trans ?_) | (intro; rfl) | split | (intro; split) | rfl)

theorem rest_execPerstDeassert {L : List Part} (hL : sub [.ports, .cad, .eng, .media, .power] L = true) (port : Port) (s : State) :
    ∃ tv, execPerstDeassert port s = .next tv ∧ rest L tv = rest L s := by
  unfold execPerstDeassert
  repeat' (first | (refine ⟨_, rfl, ?_⟩) | with_reducible exact none_imp | (with_reducible refine rest_or _ _ ?_ ?_) | (with_reducible refine rest_some ?_) | (with_reducible refine rest_some1 ?_) | (with_reducible refine rest_map _ _ (fun x hx => ?_)) | (with_reducible refine rest_map1 _ _ (fun x hx => ?_)) | (with_reducible refine bind_imp _ _ (fun x hx => ?_)) | (with_reducible refine findSome_imp _ _ (fun x => ?_)) | with_reducible rfl | simp (disch := (first | exact sub_trans (by decide) hL | exact Or.inl (has_of_sub hL (by decide)) | exact Or.inr rfl | exact Or.inr fun _ => rfl | (refine Or.inr ?_; intros; repeat' (first | rfl | split)))) only [↓rest_wakeBy, ↓rest_updPort, ↓rest_mk, ↓rest_ite, ite_self] | (with_reducible refine (rest_getD _ _ (fun u => ?_)).trans ?_) | (with_reducible refine (rest_updPort (sub_trans (by decide) hL) _ _ _ (.inr ?_)).trans ?_) | (intro; rfl) | split | (intro; split) | rfl)

theorem rest_execPcieLinkUp {L : List Part} (hL : sub [.ports] L = true) (port : Port) (s : State) :
    ∃ tv, execPcieLinkUp port s = .next tv ∧ rest L tv = rest L s := by
  unfold execPcieLinkUp
  repeat' (first | (refine ⟨_, rfl, ?_⟩) | with_reducible rfl | simp (disch := (first | exact sub_trans (by decide) hL | exact Or.inl (has_of_sub hL (by decide)) | exact Or.inr rfl | exact Or.inr fun _ => rfl | (refine Or.inr ?_; intros; repeat' (first | rfl | split)))) only [↓rest_updPort, ↓rest_mk, ↓rest_ite, ite_self] | (with_reducible refine (rest_updPort (sub_trans (by decide) hL) _ _ _ (.inr ?_)).trans ?_) | (intro; rfl) | split | (intro; split) | rfl)

theorem rest_execActNStretchEnd {L : List Part} (hL : sub [.now, .power, .ctr, .side] L = true) (cyc : Nat) (s : State) :
    ∃ tv, execActNStretchEnd cyc s = .next tv ∧ rest L tv = rest L s := by
  unfold execActNStretchEnd
  repeat' (first | (refine ⟨_, rfl, ?_⟩) | with_reducible rfl | simp (disch := (first | exact sub_trans (by decide) hL | exact Or.inl (has_of_sub hL (by decide)) | exact Or.inr rfl | exact Or.inr fun _ => rfl | (refine Or.inr ?_; intros; repeat' (first | rfl | split)))) only [↓rest_advanceTo, ↓rest_updSide, ↓rest_mk, ↓rest_ite, ite_self] | (with_reducible refine (rest_updSide (sub_trans (by decide) hL) _ _ (.inr ?_)).trans ?_) | (intro; rfl) | split | (intro; split) | rfl)

theorem rest_takeSample {L : List Part} (hL : sub [.power] L = true) (s : State) (raw : List Int) :
    rest L (takeSample s raw) = rest L s := by
  unfold takeSample
  repeat' (first | with_reducible exact none_imp | (with_reducible refine rest_or _ _ ?_ ?_) | (with_reducible refine rest_some ?_) | (with_reducible refine rest_some1 ?_) | (with_reducible refine rest_map _ _ (fun x hx => ?_)) | (with_reducible refine rest_map1 _ _ (fun x hx => ?_)) | (with_reducible refine bind_imp _ _ (fun x hx => ?_)) | (with_reducible refine findSome_imp _ _ (fun x => ?_)) | with_reducible rfl | (with_reducible refine (rest_foldl _ (fun t x => ?_) _ _).trans ?_) | simp (disch := (first | exact sub_trans (by decide) hL | exact Or.inl (has_of_sub hL (by decide)) | exact Or.inr rfl | exact Or.inr fun _ => rfl | (refine Or.inr ?_; intros; repeat' (first | rfl | split)))) only [↓rest_updPower, ↓rest_mk, ↓rest_ite, ite_self] | (with_reducible refine (rest_foldl1 _ (fun t x => ?_) _ _).trans ?_) | (with_reducible refine (rest_getD _ _ (fun u => ?_)).trans ?_) | (with_reducible refine (rest_updPower (sub_trans (by decide) hL) _ _ (.inr ?_)).trans ?_) | (intro; rfl) | split | (intro; split) | rfl)

theorem rest_settleBand {L : List Part} (hL : sub [.raised, .power] L = true) (s : State) :
    rest L (settleBand s) = rest L s := by
  unfold settleBand
  repeat' (first | with_reducible rfl | simp (disch := (first | exact sub_trans (by decide) hL | exact Or.inl (has_of_sub hL (by decide)) | exact Or.inr rfl | exact Or.inr fun _ => rfl | (refine Or.inr ?_; intros; repeat' (first | rfl | split)))) only [↓rest_askVolt, ↓rest_raiseEvent, ↓rest_startRetrain, ↓rest_updPower, ↓rest_mk, ↓rest_ite, ite_self] | (with_reducible refine (rest_updPower (sub_trans (by decide) hL) _ _ (.inr ?_)).trans ?_) | (intro; rfl) | split | (intro; split) | rfl)

theorem rest_settleLevel {L : List Part} (hL : sub [.cond, .condFrom, .power] L = true) (s : State) :
    rest L (settleLevel s) = rest L s := by
  unfold settleLevel
  repeat' (first | with_reducible rfl | simp (disch := (first | exact sub_trans (by decide) hL | exact Or.inl (has_of_sub hL (by decide)) | exact Or.inr rfl | exact Or.inr fun _ => rfl | (refine Or.inr ?_; intros; repeat' (first | rfl | split)))) only [↓rest_settleThrottle, ↓rest_updPower, ↓rest_mk, ↓rest_ite, ite_self] | (with_reducible refine (rest_updPower (sub_trans (by decide) hL) _ _ (.inr ?_)).trans ?_) | (intro; rfl) | split | (intro; split) | rfl)

theorem rest_trainOn {L : List Part} (hL : sub [.power] L = true) (s : State) :
    rest L (trainOn s) = rest L s := by
  unfold trainOn
  repeat' (first | with_reducible rfl | simp (disch := (first | exact sub_trans (by decide) hL | exact Or.inl (has_of_sub hL (by decide)) | exact Or.inr rfl | exact Or.inr fun _ => rfl | (refine Or.inr ?_; intros; repeat' (first | rfl | split)))) only [↓rest_updPower, ↓rest_mk, ↓rest_ite, ite_self] | (with_reducible refine (rest_updPower (sub_trans (by decide) hL) _ _ (.inr ?_)).trans ?_) | (intro; rfl) | split | (intro; split) | rfl)

theorem rest_execSensorSample {L : List Part} (hL : sub [.free, .cond, .out, .ctxs, .errSeq, .evSeq, .evHist, .raised, .condFrom, .ports, .cad, .feat, .health, .map, .eng, .media, .jrnl, .twin, .twinCtl, .kf, .kfMem, .kfCtl, .power, .ctr] L = true) (raw : List Int) (s : State) :
    ∃ tv, execSensorSample raw s = .next tv ∧ rest L tv = rest L s := by
  unfold execSensorSample
  repeat' (first | (refine ⟨_, rfl, ?_⟩) | with_reducible exact none_imp | (with_reducible refine rest_or _ _ ?_ ?_) | (with_reducible refine rest_some ?_) | (with_reducible refine rest_some1 ?_) | (with_reducible refine rest_map _ _ (fun x hx => ?_)) | (with_reducible refine rest_map1 _ _ (fun x hx => ?_)) | (with_reducible refine bind_imp _ _ (fun x hx => ?_)) | (with_reducible refine findSome_imp _ _ (fun x => ?_)) | with_reducible rfl | simp (disch := (first | exact sub_trans (by decide) hL | exact Or.inl (has_of_sub hL (by decide)) | exact Or.inr rfl | exact Or.inr fun _ => rfl | (refine Or.inr ?_; intros; repeat' (first | rfl | split)))) only [↓rest_bootUp, ↓rest_endCycle, ↓rest_settleBand, ↓rest_settleLevel, ↓rest_takeSample, ↓rest_trainOn, ↓rest_updKf, ↓rest_mk, ↓rest_ite, ite_self] | (with_reducible refine (rest_getD _ _ (fun u => ?_)).trans ?_) | (with_reducible refine (rest_updKf (sub_trans (by decide) hL) _ _ (.inr ?_) (.inr ?_)).trans ?_) | (intro; rfl) | split | (intro; split) | rfl)

theorem rest_execThermalTrip {L : List Part} (hL : sub [.now, .free, .ports, .health, .media, .jrnl, .twin, .kf, .kfMem, .power, .ctr] L = true) (comparator : Bool) (cyc : Nat) (s : State) :
    ∃ tv, execThermalTrip comparator cyc s = .next tv ∧ rest L tv = rest L s := by
  unfold execThermalTrip
  repeat' (first | (refine ⟨_, rfl, ?_⟩) | with_reducible rfl | simp (disch := (first | exact sub_trans (by decide) hL | exact Or.inl (has_of_sub hL (by decide)) | exact Or.inr rfl | exact Or.inr fun _ => rfl | (refine Or.inr ?_; intros; repeat' (first | rfl | split)))) only [↓rest_advanceTo, ↓rest_letGo, ↓rest_powerStop, ↓rest_updPower, ↓rest_mk, ↓rest_ite, ite_self] | (with_reducible refine (rest_updPower (sub_trans (by decide) hL) _ _ (.inr ?_)).trans ?_) | (intro; rfl) | split | (intro; split) | rfl)

end Sys2Proof.Laws
end

