-- ==== Sys2Proof/Laws/FramesRecover.lean ====
section
/-! SUPPORT. Which parts of the state the operations of Machine/Recover.lean may change. -/
namespace Sys2Proof.Laws
open Sys2Proof Sys2Proof.Machine

set_option linter.unreachableTactic false
set_option linter.unusedTactic false

set_option linter.unusedSimpArgs false

theorem rest_decideFate {L : List Part} (hL : sub [.map, .jrnl, .twin] L = true) (x : Fates) (a : AdmSlot) : rest L (decideFate x a).1 = rest L x.1 := by
  unfold decideFate
  simp only []
  repeat' (first | split | exact rest_commitRec (sub_trans (by decide) hL) _ _ | rfl)

theorem rest_settleFates {L : List Part} (hL : sub [.raised, .ports, .map, .jrnl, .twin, .kf, .kfMem] L = true) (s : State) (unclean noHoldup : Bool) :
    rest L (settleFates s unclean noHoldup) = rest L s := by
  unfold settleFates
  repeat' (first | with_reducible rfl | (with_reducible refine (rest_foldl _ (fun t x => ?_) _ _).trans ?_) | simp (disch := (first | exact sub_trans (by decide) hL | exact Or.inl (has_of_sub hL (by decide)) | exact Or.inr rfl | exact Or.inr fun _ => rfl | (refine Or.inr ?_; intros; repeat' (first | rfl | split)))) only [↓rest_completeLog, ↓rest_decideFate, ↓rest_putStop, ↓rest_updJrnl, ↓rest_updPort, ↓rest_mk, ↓rest_ite, ite_self] | (with_reducible refine (rest_foldl1 _ (fun t x => ?_) _ _).trans ?_) | (with_reducible refine (rest_decideFate_eq (sub_trans (by decide) hL) _ _ (by assumption)).trans ?_) | (with_reducible refine (rest_updPort (sub_trans (by decide) hL) _ _ _ (.inr ?_)).trans ?_) | (intro; rfl) | split | (intro; split) | rfl)

theorem rest_finishOps {L : List Part} (hL : sub [.media] L = true) (s : State) :
    rest L (finishOps s) = rest L s := by
  unfold finishOps
  repeat' (first | with_reducible rfl | simp (disch := (first | exact sub_trans (by decide) hL | exact Or.inl (has_of_sub hL (by decide)) | exact Or.inr rfl | exact Or.inr fun _ => rfl | (refine Or.inr ?_; intros; repeat' (first | rfl | split)))) only [↓rest_updMedia, ↓rest_mk, ↓rest_ite, ite_self] | (intro; rfl) | split | (intro; split) | rfl)

theorem rest_settleRows {L : List Part} (hL : sub [.map, .media, .jrnl] L = true) (s : State) (seq : Nat) (ok : RowSt → Bool) :
    rest L (settleRows s seq ok) = rest L s := by
  unfold settleRows
  repeat' (first | with_reducible rfl | (with_reducible refine (rest_foldl _ (fun t x => ?_) _ _).trans ?_) | simp (disch := (first | exact sub_trans (by decide) hL | exact Or.inl (has_of_sub hL (by decide)) | exact Or.inr rfl | exact Or.inr fun _ => rfl | (refine Or.inr ?_; intros; repeat' (first | rfl | split)))) only [↓rest_finishSet, ↓rest_settleJournal, ↓rest_updRow, ↓rest_mk, ↓rest_ite, ite_self] | (with_reducible refine (rest_foldl1 _ (fun t x => ?_) _ _).trans ?_) | (intro; rfl) | split | (intro; split) | rfl)

theorem rest_closeAgain {L : List Part} (hL : sub [.health, .map, .media, .jrnl, .twin, .ctr] L = true) (s : State) (k : SetRec) (last abandoned : Option Nat) :
    rest L (closeAgain s k last abandoned) = rest L s := by
  unfold closeAgain
  repeat' (first | with_reducible rfl | simp (disch := (first | exact sub_trans (by decide) hL | exact Or.inl (has_of_sub hL (by decide)) | exact Or.inr rfl | exact Or.inr fun _ => rfl | (refine Or.inr ?_; intros; repeat' (first | rfl | split)))) only [↓rest_closeSet, ↓rest_commitRec, ↓rest_mk, ↓rest_ite, ite_self] | (intro; rfl) | split | (intro; split) | rfl)

theorem rest_closeStopped {L : List Part} (hL : sub [.health, .map, .eng, .media, .jrnl, .twin, .ctr] L = true) (found : RestartFind) (s : State) (o : OpenSet) :
    rest L (closeStopped found s o) = rest L s := by
  unfold closeStopped
  repeat' (first | with_reducible rfl | simp (disch := (first | exact sub_trans (by decide) hL | exact Or.inl (has_of_sub hL (by decide)) | exact Or.inr rfl | exact Or.inr fun _ => rfl | (refine Or.inr ?_; intros; repeat' (first | rfl | split)))) only [↓rest_closeAgain, ↓rest_declareLost, ↓rest_padRow, ↓rest_updOpen, ↓rest_updMedia, ↓rest_mk, ↓rest_ite, ite_self] | (intro; rfl) | split | (intro; split) | rfl)

theorem rest_closeAll {L : List Part} (hL : sub [.health, .map, .eng, .media, .jrnl, .twin, .ctr] L = true) (s : State) (found : RestartFind) :
    rest L (closeAll s found) = rest L s := by
  unfold closeAll
  repeat' (first | with_reducible exact none_imp | (with_reducible refine rest_or _ _ ?_ ?_) | (with_reducible refine rest_some ?_) | (with_reducible refine rest_some1 ?_) | (with_reducible refine rest_map _ _ (fun x hx => ?_)) | (with_reducible refine rest_map1 _ _ (fun x hx => ?_)) | (with_reducible refine bind_imp _ _ (fun x hx => ?_)) | (with_reducible refine findSome_imp _ _ (fun x => ?_)) | with_reducible rfl | (with_reducible refine (rest_foldl _ (fun t x => ?_) _ _).trans ?_) | simp (disch := (first | exact sub_trans (by decide) hL | exact Or.inl (has_of_sub hL (by decide)) | exact Or.inr rfl | exact Or.inr fun _ => rfl | (refine Or.inr ?_; intros; repeat' (first | rfl | split)))) only [↓rest_closeStopped, ↓rest_finishOps, ↓rest_raiseTrigger, ↓rest_settleRows, ↓rest_mk, ↓rest_ite, ite_self] | (with_reducible refine (rest_foldl1 _ (fun t x => ?_) _ _).trans ?_) | (with_reducible refine (rest_getD _ _ (fun u => ?_)).trans ?_) | (intro; rfl) | split | (intro; split) | rfl)

theorem rest_eraseReleased {L : List Part} (hL : sub [.cond, .condFrom, .health, .map, .media, .jrnl, .twin] L = true) (s : State) :
    rest L (eraseReleased s) = rest L s := by
  unfold eraseReleased
  repeat' (first | with_reducible rfl | (with_reducible refine (rest_foldl _ (fun t x => ?_) _ _).trans ?_) | simp (disch := (first | exact sub_trans (by decide) hL | exact Or.inl (has_of_sub hL (by decide)) | exact Or.inr rfl | exact Or.inr fun _ => rfl | (refine Or.inr ?_; intros; repeat' (first | rfl | split)))) only [↓rest_eraseDone, ↓rest_releaseBlock, ↓rest_updMap, ↓rest_updMedia, ↓rest_mk, ↓rest_ite, ite_self] | (with_reducible refine (rest_foldl1 _ (fun t x => ?_) _ _).trans ?_) | (intro; rfl) | split | (intro; split) | rfl)

theorem rest_failMissing {L : List Part} (hL : sub [.cond, .raised, .condFrom, .health, .map, .media, .jrnl, .twin, .kf, .kfMem, .ctr] L = true) (s : State) :
    rest L (failMissing s) = rest L s := by
  unfold failMissing
  repeat' (first | with_reducible rfl | (with_reducible refine (rest_foldl _ (fun t x => ?_) _ _).trans ?_) | simp (disch := (first | exact sub_trans (by decide) hL | exact Or.inl (has_of_sub hL (by decide)) | exact Or.inr rfl | exact Or.inr fun _ => rfl | (refine Or.inr ?_; intros; repeat' (first | rfl | split)))) only [↓rest_bayFail, ↓rest_mk, ↓rest_ite, ite_self] | (with_reducible refine (rest_foldl1 _ (fun t x => ?_) _ _).trans ?_) | (intro; rfl) | split | (intro; split) | rfl)

theorem rest_resumeRebuild {L : List Part} (hL : sub [.cond, .raised, .condFrom, .media, .jrnl, .twin] L = true) (s : State) :
    rest L (resumeRebuild s) = rest L s := by
  unfold resumeRebuild
  repeat' (first | with_reducible rfl | simp (disch := (first | exact sub_trans (by decide) hL | exact Or.inl (has_of_sub hL (by decide)) | exact Or.inr rfl | exact Or.inr fun _ => rfl | (refine Or.inr ?_; intros; repeat' (first | rfl | split)))) only [↓rest_setFlags, ↓rest_setRebuild, ↓rest_updMedia, ↓rest_mk, ↓rest_ite, ite_self] | (intro; rfl) | split | (intro; split) | rfl)

theorem rest_settleAll {L : List Part} (hL : sub [.health, .map, .media, .jrnl, .twin, .kf, .kfMem, .ctr] L = true) (s : State) :
    rest L (settleAll s) = rest L s := by
  unfold settleAll
  repeat' (first | with_reducible rfl | (with_reducible refine (rest_foldl _ (fun t x => ?_) _ _).trans ?_) | simp (disch := (first | exact sub_trans (by decide) hL | exact Or.inl (has_of_sub hL (by decide)) | exact Or.inr rfl | exact Or.inr fun _ => rfl | (refine Or.inr ?_; intros; repeat' (first | rfl | split)))) only [↓rest_closeIfFull, ↓rest_finishOps, ↓rest_settleRows, ↓rest_settleStand, ↓rest_mk, ↓rest_ite, ite_self] | (with_reducible refine (rest_foldl1 _ (fun t x => ?_) _ _).trans ?_) | (intro; rfl) | split | (intro; split) | rfl)

theorem rest_coverRows {L : List Part} (hL : sub [.health, .map, .media, .jrnl, .twin, .kf, .kfMem, .ctr] L = true) (s : State) :
    rest L (coverRows s) = rest L s := by
  unfold coverRows
  repeat' (first | with_reducible rfl | simp (disch := (first | exact sub_trans (by decide) hL | exact Or.inl (has_of_sub hL (by decide)) | exact Or.inr rfl | exact Or.inr fun _ => rfl | (refine Or.inr ?_; intros; repeat' (first | rfl | split)))) only [↓rest_makeStripeRecord, ↓rest_settleAll, ↓rest_mk, ↓rest_ite, ite_self] | (intro; rfl) | split | (intro; split) | rfl)

theorem rest_needSet {L : List Part} (hL : sub [.health, .map, .media, .jrnl, .twin, .kf, .kfMem, .ctr] L = true) (s : State) (st : Stream) (n : Nat) :
    rest L (needSet s st n) = rest L s := by
  unfold needSet
  repeat' (first | with_reducible rfl | simp (disch := (first | exact sub_trans (by decide) hL | exact Or.inl (has_of_sub hL (by decide)) | exact Or.inr rfl | exact Or.inr fun _ => rfl | (refine Or.inr ?_; intros; repeat' (first | rfl | split)))) only [↓rest_coverRows, ↓rest_openSet, ↓rest_settleAll, ↓rest_mk, ↓rest_ite, ite_self] | (intro; rfl) | split | (intro; split) | rfl)

theorem rest_needSystem {L : List Part} (hL : sub [.health, .map, .media, .jrnl, .twin, .kf, .kfMem, .ctr] L = true) (s : State) :
    rest L (needSystem s) = rest L s := by
  unfold needSystem
  repeat' (first | with_reducible rfl | simp (disch := (first | exact sub_trans (by decide) hL | exact Or.inl (has_of_sub hL (by decide)) | exact Or.inr rfl | exact Or.inr fun _ => rfl | (refine Or.inr ?_; intros; repeat' (first | rfl | split)))) only [↓rest_needSet, ↓rest_mk, ↓rest_ite, ite_self] | (intro; rfl) | split | (intro; split) | rfl)

theorem rest_finishCkpt {L : List Part} (hL : sub [.out, .ctxs, .raised, .cad, .health, .map, .eng, .media, .jrnl, .twin, .kf, .kfMem, .ctr] L = true) (n : Nat) (s : State) : rest L (finishCkpt n s) = rest L s := by
  have hf : ∀ s : State, rest L ((List.range s.eng.reqs.length).foldl (fun t _ => mapTurn t) s) = rest L s := fun s =>
    rest_foldl _ (fun t x => rest_mapTurn (sub_trans (by decide) hL) t) _ s
  fun_induction finishCkpt n s
  · rfl
  · rfl
  · simp +zetaDelta only [rest_settleAll (sub_trans (by decide) hL), rest_ckptStep (sub_trans (by decide) hL), rest_coverRows (sub_trans (by decide) hL), rest_needSystem (sub_trans (by decide) hL), hf]
  · rename_i ih
    refine ih.trans ?_
    simp +zetaDelta only [rest_settleAll (sub_trans (by decide) hL), rest_ckptStep (sub_trans (by decide) hL), rest_coverRows (sub_trans (by decide) hL), rest_needSystem (sub_trans (by decide) hL), hf]

theorem rest_restartCkpt {L : List Part} (hL : sub [.out, .ctxs, .raised, .ports, .cad, .health, .map, .eng, .media, .jrnl, .twin, .kf, .kfMem, .ctr] L = true) (s : State) :
    rest L (restartCkpt s) = rest L s := by
  unfold restartCkpt
  repeat' (first | with_reducible rfl | simp (disch := (first | exact sub_trans (by decide) hL | exact Or.inl (has_of_sub hL (by decide)) | exact Or.inr rfl | exact Or.inr fun _ => rfl | (refine Or.inr ?_; intros; repeat' (first | rfl | split)))) only [↓rest_beginCkpt, ↓rest_finishCkpt, ↓rest_needSet, ↓rest_needSystem, ↓rest_mk, ↓rest_ite, ite_self] | (intro; rfl) | split | (intro; split) | rfl)

theorem rest_execRestartComplete {L : List Part} (hL : sub [.now, .free, .cond, .out, .csnNext, .ctxs, .errSeq, .evSeq, .evHist, .raised, .condFrom, .ports, .cad, .health, .map, .eng, .media, .jrnl, .twin, .kf, .kfMem, .power, .ctr] L = true) (cyc : Nat) (found : RestartFind) (s : State) :
    ∃ tv, execRestartComplete cyc found s = .next tv ∧ rest L tv = rest L s := by
  unfold execRestartComplete
  repeat' (first | (refine ⟨_, rfl, ?_⟩) | with_reducible rfl | (with_reducible refine (rest_foldl _ (fun t x => ?_) _ _).trans ?_) | simp (disch := (first | exact sub_trans (by decide) hL | exact Or.inl (has_of_sub hL (by decide)) | exact Or.inr rfl | exact Or.inr fun _ => rfl | (refine Or.inr ?_; intros; repeat' (first | rfl | split)))) only [↓rest_advanceTo, ↓rest_closeAll, ↓rest_endCycle, ↓rest_eraseReleased, ↓rest_failMissing, ↓rest_failPart, ↓rest_recomputeHorizon, ↓rest_restartCkpt, ↓rest_resumeRebuild, ↓rest_sealIfSpent, ↓rest_setFlags, ↓rest_settleFates, ↓rest_settleFull, ↓rest_slotEvents, ↓rest_startPatrol, ↓rest_updHealth, ↓rest_updKf, ↓rest_updMedia, ↓rest_updTwin, ↓rest_mk, ↓rest_ite, ite_self] | (with_reducible refine (rest_foldl1 _ (fun t x => ?_) _ _).trans ?_) | (with_reducible refine (rest_updKf (sub_trans (by decide) hL) _ _ (.inr ?_) (.inr ?_)).trans ?_) | (with_reducible refine (rest_updTwin (sub_trans (by decide) hL) _ _ (.inr ?_)).trans ?_) | (intro; rfl) | split | (intro; split) | rfl)

theorem rest_execDramChannelLoss {L : List Part} (hL : sub [.free, .cond, .out, .ctxs, .errSeq, .evSeq, .evHist, .raised, .condFrom, .ports, .health, .eng, .media, .jrnl, .twin, .pods, .kf, .kfMem, .ctr] L = true) (channel : Nat) (staged : List (Nat × Nat)) (s : State) :
    ∃ tv, execDramChannelLoss channel staged s = .next tv ∧ rest L tv = rest L s := by
  unfold execDramChannelLoss
  repeat' (first | (refine ⟨_, rfl, ?_⟩) | with_reducible rfl | simp (disch := (first | exact sub_trans (by decide) hL | exact Or.inl (has_of_sub hL (by decide)) | exact Or.inr rfl | exact Or.inr fun _ => rfl | (refine Or.inr ?_; intros; repeat' (first | rfl | split)))) only [↓rest_endCycle, ↓rest_failPart, ↓rest_settleFull, ↓rest_sizeTier, ↓rest_updEng, ↓rest_mk, ↓rest_ite, ite_self] | (intro; rfl) | split | (intro; split) | rfl)

end Sys2Proof.Laws
end

