-- ==== Sys2Proof/Laws/FramesSideband.lean ====
section
/-! SUPPORT. Which parts of the state the operations of Machine/Sideband.lean may change. -/
namespace Sys2Proof.Laws
open Sys2Proof Sys2Proof.Machine

set_option linter.unreachableTactic false
set_option linter.unusedTactic false

set_option linter.unusedSimpArgs false

theorem rest_sbAnswer {L : List Part} (hL : sub [] L = true) (s : State) (f : State → State) (hg : ∀ t, rest L (f t) = rest L t) :
    ∃ tv, sbAnswer s f = .next tv ∧ rest L tv = rest L s := by
  unfold sbAnswer
  repeat' (first | (refine ⟨_, rfl, ?_⟩) | with_reducible rfl | simp (disch := (first | exact sub_trans (by decide) hL | exact Or.inl (has_of_sub hL (by decide)) | exact Or.inr rfl | exact Or.inr fun _ => rfl | (refine Or.inr ?_; intros; repeat' (first | rfl | split)))) only [↓rest_mk, ↓rest_ite, ite_self] | (with_reducible refine (hg _).trans ?_) | (with_reducible refine (hg _ _).trans ?_) | (intro; rfl) | split | (intro; split) | rfl)

theorem rest_cccBytes {L : List Part} (hL : sub [.side] L = true) (s : State) (bs : List Byte) :
    rest L (cccBytes s bs) = rest L s := by
  unfold cccBytes
  repeat' (first | with_reducible rfl | simp (disch := (first | exact sub_trans (by decide) hL | exact Or.inl (has_of_sub hL (by decide)) | exact Or.inr rfl | exact Or.inr fun _ => rfl | (refine Or.inr ?_; intros; repeat' (first | rfl | split)))) only [↓rest_updSide, ↓rest_mk, ↓rest_ite, ite_self] | (with_reducible refine (rest_updSide (sub_trans (by decide) hL) _ _ (.inr ?_)).trans ?_) | (intro; rfl) | split | (intro; split) | rfl)

theorem rest_setDyn {L : List Part} (hL : sub [.side, .sideCtl] L = true) (s : State) (a : Option (BitVec 7)) :
    rest L (setDyn s a) = rest L s := by
  unfold setDyn
  repeat' (first | with_reducible rfl | simp (disch := (first | exact sub_trans (by decide) hL | exact Or.inl (has_of_sub hL (by decide)) | exact Or.inr rfl | exact Or.inr fun _ => rfl | (refine Or.inr ?_; intros; repeat' (first | rfl | split)))) only [↓rest_updSide, ↓rest_mk, ↓rest_ite, ite_self] | (with_reducible refine (rest_updSide (sub_trans (by decide) hL) _ _ (.inr ?_)).trans ?_) | (intro; rfl) | split | (intro; split) | rfl)

theorem rest_execRstdaa {L : List Part} (hL : sub [.side, .sideCtl] L = true) (s : State) :
    ∃ tv, execRstdaa s = .next tv ∧ rest L tv = rest L s := by
  unfold execRstdaa
  repeat' (first | (with_reducible refine rest_sbAnswer (sub_trans (by decide) hL) _ _ (fun t => ?_)) | (refine ⟨_, rfl, ?_⟩) | with_reducible rfl | simp (disch := (first | exact sub_trans (by decide) hL | exact Or.inl (has_of_sub hL (by decide)) | exact Or.inr rfl | exact Or.inr fun _ => rfl | (refine Or.inr ?_; intros; repeat' (first | rfl | split)))) only [↓rest_setDyn, ↓rest_mk, ↓rest_ite, ite_self] | (intro; rfl) | split | (intro; split) | rfl)

theorem rest_execEntdaa {L : List Part} (hL : sub [.side, .sideCtl] L = true) (address : BitVec 7) (arbitrationWon : Bool) (s : State) :
    ∃ tv, execEntdaa address arbitrationWon s = .next tv ∧ rest L tv = rest L s := by
  unfold execEntdaa
  repeat' (first | (with_reducible refine rest_sbAnswer (sub_trans (by decide) hL) _ _ (fun t => ?_)) | (refine ⟨_, rfl, ?_⟩) | with_reducible rfl | simp (disch := (first | exact sub_trans (by decide) hL | exact Or.inl (has_of_sub hL (by decide)) | exact Or.inr rfl | exact Or.inr fun _ => rfl | (refine Or.inr ?_; intros; repeat' (first | rfl | split)))) only [↓rest_cccBytes, ↓rest_setDyn, ↓rest_mk, ↓rest_ite, ite_self] | (intro; rfl) | split | (intro; split) | rfl)

theorem rest_execSetdasa {L : List Part} (hL : sub [.side, .sideCtl] L = true) (static_ address : BitVec 7) (s : State) :
    ∃ tv, execSetdasa static_ address s = .next tv ∧ rest L tv = rest L s := by
  unfold execSetdasa
  repeat' (first | (with_reducible refine rest_sbAnswer (sub_trans (by decide) hL) _ _ (fun t => ?_)) | (refine ⟨_, rfl, ?_⟩) | with_reducible rfl | simp (disch := (first | exact sub_trans (by decide) hL | exact Or.inl (has_of_sub hL (by decide)) | exact Or.inr rfl | exact Or.inr fun _ => rfl | (refine Or.inr ?_; intros; repeat' (first | rfl | split)))) only [↓rest_setDyn, ↓rest_mk, ↓rest_ite, ite_self] | (intro; rfl) | split | (intro; split) | rfl)

theorem rest_execSetnewda {L : List Part} (hL : sub [.side, .sideCtl] L = true) (oldAddr address : BitVec 7) (s : State) :
    ∃ tv, execSetnewda oldAddr address s = .next tv ∧ rest L tv = rest L s := by
  unfold execSetnewda
  repeat' (first | (with_reducible refine rest_sbAnswer (sub_trans (by decide) hL) _ _ (fun t => ?_)) | (refine ⟨_, rfl, ?_⟩) | with_reducible rfl | simp (disch := (first | exact sub_trans (by decide) hL | exact Or.inl (has_of_sub hL (by decide)) | exact Or.inr rfl | exact Or.inr fun _ => rfl | (refine Or.inr ?_; intros; repeat' (first | rfl | split)))) only [↓rest_setDyn, ↓rest_mk, ↓rest_ite, ite_self] | (intro; rfl) | split | (intro; split) | rfl)

theorem rest_execGetpid {L : List Part} (hL : sub [.side] L = true) (s : State) :
    ∃ tv, execGetpid s = .next tv ∧ rest L tv = rest L s := by
  unfold execGetpid
  repeat' (first | (with_reducible refine rest_sbAnswer (sub_trans (by decide) hL) _ _ (fun t => ?_)) | (refine ⟨_, rfl, ?_⟩) | with_reducible rfl | simp (disch := (first | exact sub_trans (by decide) hL | exact Or.inl (has_of_sub hL (by decide)) | exact Or.inr rfl | exact Or.inr fun _ => rfl | (refine Or.inr ?_; intros; repeat' (first | rfl | split)))) only [↓rest_cccBytes, ↓rest_mk, ↓rest_ite, ite_self] | (intro; rfl) | split | (intro; split) | rfl)

theorem rest_execGetbcr {L : List Part} (hL : sub [.side] L = true) (s : State) :
    ∃ tv, execGetbcr s = .next tv ∧ rest L tv = rest L s := by
  unfold execGetbcr
  repeat' (first | (with_reducible refine rest_sbAnswer (sub_trans (by decide) hL) _ _ (fun t => ?_)) | (refine ⟨_, rfl, ?_⟩) | with_reducible rfl | simp (disch := (first | exact sub_trans (by decide) hL | exact Or.inl (has_of_sub hL (by decide)) | exact Or.inr rfl | exact Or.inr fun _ => rfl | (refine Or.inr ?_; intros; repeat' (first | rfl | split)))) only [↓rest_cccBytes, ↓rest_mk, ↓rest_ite, ite_self] | (intro; rfl) | split | (intro; split) | rfl)

theorem rest_execGetdcr {L : List Part} (hL : sub [.side] L = true) (s : State) :
    ∃ tv, execGetdcr s = .next tv ∧ rest L tv = rest L s := by
  unfold execGetdcr
  repeat' (first | (with_reducible refine rest_sbAnswer (sub_trans (by decide) hL) _ _ (fun t => ?_)) | (refine ⟨_, rfl, ?_⟩) | with_reducible rfl | simp (disch := (first | exact sub_trans (by decide) hL | exact Or.inl (has_of_sub hL (by decide)) | exact Or.inr rfl | exact Or.inr fun _ => rfl | (refine Or.inr ?_; intros; repeat' (first | rfl | split)))) only [↓rest_cccBytes, ↓rest_mk, ↓rest_ite, ite_self] | (intro; rfl) | split | (intro; split) | rfl)

theorem rest_execGetstatus {L : List Part} (hL : sub [.free, .side] L = true) (s : State) :
    ∃ tv, execGetstatus s = .next tv ∧ rest L tv = rest L s := by
  unfold execGetstatus
  repeat' (first | (with_reducible refine rest_sbAnswer (sub_trans (by decide) hL) _ _ (fun t => ?_)) | (refine ⟨_, rfl, ?_⟩) | with_reducible rfl | simp (disch := (first | exact sub_trans (by decide) hL | exact Or.inl (has_of_sub hL (by decide)) | exact Or.inr rfl | exact Or.inr fun _ => rfl | (refine Or.inr ?_; intros; repeat' (first | rfl | split)))) only [↓rest_cccBytes, ↓rest_drawFree, ↓rest_mk, ↓rest_ite, ite_self] | (intro; rfl) | split | (intro; split) | rfl)

theorem rest_countMisaligned {L : List Part} (hL : sub [.side] L = true) (s : State) :
    rest L (countMisaligned s) = rest L s := by
  unfold countMisaligned
  repeat' (first | with_reducible rfl | simp (disch := (first | exact sub_trans (by decide) hL | exact Or.inl (has_of_sub hL (by decide)) | exact Or.inr rfl | exact Or.inr fun _ => rfl | (refine Or.inr ?_; intros; repeat' (first | rfl | split)))) only [↓rest_updSide, ↓rest_mk, ↓rest_ite, ite_self] | (with_reducible refine (rest_updSide (sub_trans (by decide) hL) _ _ (.inr ?_)).trans ?_) | (intro; rfl) | split | (intro; split) | rfl)

theorem rest_countShort {L : List Part} (hL : sub [.side] L = true) (s : State) :
    rest L (countShort s) = rest L s := by
  unfold countShort
  repeat' (first | with_reducible rfl | simp (disch := (first | exact sub_trans (by decide) hL | exact Or.inl (has_of_sub hL (by decide)) | exact Or.inr rfl | exact Or.inr fun _ => rfl | (refine Or.inr ?_; intros; repeat' (first | rfl | split)))) only [↓rest_updSide, ↓rest_mk, ↓rest_ite, ite_self] | (with_reducible refine (rest_updSide (sub_trans (by decide) hL) _ _ (.inr ?_)).trans ?_) | (intro; rfl) | split | (intro; split) | rfl)

theorem rest_countPec {L : List Part} (hL : sub [.side] L = true) (s : State) :
    rest L (countPec s) = rest L s := by
  unfold countPec
  repeat' (first | with_reducible rfl | simp (disch := (first | exact sub_trans (by decide) hL | exact Or.inl (has_of_sub hL (by decide)) | exact Or.inr rfl | exact Or.inr fun _ => rfl | (refine Or.inr ?_; intros; repeat' (first | rfl | split)))) only [↓rest_updSide, ↓rest_mk, ↓rest_ite, ite_self] | (with_reducible refine (rest_updSide (sub_trans (by decide) hL) _ _ (.inr ?_)).trans ?_) | (intro; rfl) | split | (intro; split) | rfl)

theorem rest_sbWriteErrors {L : List Part} (hL : sub [.side] L = true) (s : State) (offset bytesAcked : Nat) (pecOk : Bool) :
    rest L (sbWriteErrors s offset bytesAcked pecOk) = rest L s := by
  unfold sbWriteErrors
  repeat' (first | with_reducible rfl | simp (disch := (first | exact sub_trans (by decide) hL | exact Or.inl (has_of_sub hL (by decide)) | exact Or.inr rfl | exact Or.inr fun _ => rfl | (refine Or.inr ?_; intros; repeat' (first | rfl | split)))) only [↓rest_countMisaligned, ↓rest_countPec, ↓rest_countShort, ↓rest_mk, ↓rest_ite, ite_self] | (intro; rfl) | split | (intro; split) | rfl)

theorem rest_execSbRegisterWriteShort {L : List Part} (hL : sub [.side] L = true) (offset : Nat) (bytesAcked : Nat) (pecOk : Bool) (s : State) :
    ∃ tv, execSbRegisterWriteShort offset bytesAcked pecOk s = .next tv ∧ rest L tv = rest L s := by
  unfold execSbRegisterWriteShort
  repeat' (first | (with_reducible refine rest_sbAnswer (sub_trans (by decide) hL) _ _ (fun t => ?_)) | (refine ⟨_, rfl, ?_⟩) | with_reducible rfl | simp (disch := (first | exact sub_trans (by decide) hL | exact Or.inl (has_of_sub hL (by decide)) | exact Or.inr rfl | exact Or.inr fun _ => rfl | (refine Or.inr ?_; intros; repeat' (first | rfl | split)))) only [↓rest_sbWriteErrors, ↓rest_mk, ↓rest_ite, ite_self] | (intro; rfl) | split | (intro; split) | rfl)

theorem rest_latchSide {L : List Part} (hL : sub [.twin, .power, .side] L = true) (s : State) (off : Nat) :
    rest L (latchSide s off) = rest L s := by
  unfold latchSide
  repeat' (first | with_reducible rfl | simp (disch := (first | exact sub_trans (by decide) hL | exact Or.inl (has_of_sub hL (by decide)) | exact Or.inr rfl | exact Or.inr fun _ => rfl | (refine Or.inr ?_; intros; repeat' (first | rfl | split)))) only [↓rest_updPower, ↓rest_updSide, ↓rest_updTwin, ↓rest_mk, ↓rest_ite, ite_self] | (with_reducible refine (rest_updPower (sub_trans (by decide) hL) _ _ (.inr ?_)).trans ?_) | (with_reducible refine (rest_updSide (sub_trans (by decide) hL) _ _ (.inr ?_)).trans ?_) | (with_reducible refine (rest_updTwin (sub_trans (by decide) hL) _ _ (.inr ?_)).trans ?_) | (intro; rfl) | split | (intro; split) | rfl)

theorem rest_clearSide {L : List Part} (hL : sub [.cad, .twin, .power, .side] L = true) (s : State) (off : Nat) :
    rest L (clearSide s off) = rest L s := by
  unfold clearSide
  repeat' (first | with_reducible rfl | simp (disch := (first | exact sub_trans (by decide) hL | exact Or.inl (has_of_sub hL (by decide)) | exact Or.inr rfl | exact Or.inr fun _ => rfl | (refine Or.inr ?_; intros; repeat' (first | rfl | split)))) only [↓rest_updCad, ↓rest_updPower, ↓rest_updSide, ↓rest_updTwin, ↓rest_mk, ↓rest_ite, ite_self] | (with_reducible refine (rest_updCad (sub_trans (by decide) hL) _ _ (.inr ?_)).trans ?_) | (with_reducible refine (rest_updPower (sub_trans (by decide) hL) _ _ (.inr ?_)).trans ?_) | (with_reducible refine (rest_updSide (sub_trans (by decide) hL) _ _ (.inr ?_)).trans ?_) | (with_reducible refine (rest_updTwin (sub_trans (by decide) hL) _ _ (.inr ?_)).trans ?_) | (intro; rfl) | split | (intro; split) | rfl)

theorem rest_readSide {L : List Part} (hL : sub [.cond, .readData, .raised, .condFrom, .cad, .health, .eng, .media, .jrnl, .twin, .power, .ctr, .side] L = true) (s : State) (off : Nat) :
    rest L (readSide s off) = rest L s := by
  unfold readSide
  repeat' (first | with_reducible rfl | simp (disch := (first | exact sub_trans (by decide) hL | exact Or.inl (has_of_sub hL (by decide)) | exact Or.inr rfl | exact Or.inr fun _ => rfl | (refine Or.inr ?_; intros; repeat' (first | rfl | split)))) only [↓rest_clearSide, ↓rest_countMisaligned, ↓rest_latchSide, ↓rest_readAetLo, ↓rest_settleWindow, ↓rest_mk, ↓rest_ite, ite_self] | (intro; rfl) | split | (intro; split) | rfl)

theorem rest_writePower {L : List Part} (hL : sub [.power, .powerCtl] L = true) (s : State) (off v : Nat) :
    rest L (writePower s off v) = rest L s := by
  unfold writePower
  repeat' (first | with_reducible rfl | simp (disch := (first | exact sub_trans (by decide) hL | exact Or.inl (has_of_sub hL (by decide)) | exact Or.inr rfl | exact Or.inr fun _ => rfl | (refine Or.inr ?_; intros; repeat' (first | rfl | split)))) only [↓rest_updPower, ↓rest_mk, ↓rest_ite, ite_self] | (with_reducible refine (rest_updPower (sub_trans (by decide) hL) _ _ (.inr ?_)).trans ?_) | (intro; rfl) | split | (intro; split) | rfl)

theorem rest_writeKfStatus {L : List Part} (hL : sub [.kf] L = true) (s : State) (v : Word) :
    rest L (writeKfStatus s v) = rest L s := by
  unfold writeKfStatus
  repeat' (first | with_reducible rfl | simp (disch := (first | exact sub_trans (by decide) hL | exact Or.inl (has_of_sub hL (by decide)) | exact Or.inr rfl | exact Or.inr fun _ => rfl | (refine Or.inr ?_; intros; repeat' (first | rfl | split)))) only [↓rest_updKfReq, ↓rest_mk, ↓rest_ite, ite_self] | (intro; rfl) | split | (intro; split) | rfl)

theorem rest_writeKf {L : List Part} (hL : sub [.now, .free, .cond, .readData, .out, .csnNext, .csnIssued, .csnBlock, .ctxs, .errSeq, .evSeq, .evHist, .raised, .condFrom, .ports, .portCtl, .cad, .cadCtl, .feat, .health, .map, .eng, .media, .jrnl, .twin, .twinCtl, .dig, .pods, .mover, .kf, .kfMem, .kfCtl, .power, .powerCtl, .ctr, .ctrCtl, .side, .sideCtl] L = true) (s : State) (off : Nat) (v : Word) :
    rest L (writeKf s off v) = rest L s := by
  unfold writeKf
  repeat' (first | with_reducible rfl | simp (disch := (first | exact sub_trans (by decide) hL | exact Or.inl (has_of_sub hL (by decide)) | exact Or.inr rfl | exact Or.inr fun _ => rfl | (refine Or.inr ?_; intros; repeat' (first | rfl | split)))) only [↓rest_kfWriteAddr, ↓rest_kfWriteCmd, ↓rest_kfWriteData, ↓rest_kfWriteKey, ↓rest_writeKfStatus, ↓rest_writeRecovery, ↓rest_mk, ↓rest_ite, ite_self] | (intro; rfl) | split | (intro; split) | rfl)

theorem rest_writeSide {L : List Part} (hL : sub [.now, .free, .cond, .readData, .out, .csnNext, .csnIssued, .csnBlock, .ctxs, .errSeq, .evSeq, .evHist, .raised, .condFrom, .ports, .portCtl, .cad, .cadCtl, .feat, .health, .map, .eng, .media, .jrnl, .twin, .twinCtl, .dig, .pods, .mover, .kf, .kfMem, .kfCtl, .power, .powerCtl, .ctr, .ctrCtl, .side, .sideCtl] L = true) (s : State) (off : Nat) (v : Word) :
    rest L (writeSide s off v) = rest L s := by
  unfold writeSide
  repeat' (first | with_reducible rfl | simp (disch := (first | exact sub_trans (by decide) hL | exact Or.inl (has_of_sub hL (by decide)) | exact Or.inr rfl | exact Or.inr fun _ => rfl | (refine Or.inr ?_; intros; repeat' (first | rfl | split)))) only [↓rest_writeAetSetCtrl, ↓rest_writeCadControl, ↓rest_writeCadTps, ↓rest_writeKf, ↓rest_writeMirrorCtrl, ↓rest_writePower, ↓rest_writePsControl, ↓rest_updCad, ↓rest_updSide, ↓rest_updTwin, ↓rest_mk, ↓rest_ite, ite_self] | (with_reducible refine (rest_updCad (sub_trans (by decide) hL) _ _ (.inr ?_)).trans ?_) | (with_reducible refine (rest_updSide (sub_trans (by decide) hL) _ _ (.inr ?_)).trans ?_) | (with_reducible refine (rest_updTwin (sub_trans (by decide) hL) _ _ (.inr ?_)).trans ?_) | (intro; rfl) | split | (intro; split) | rfl)

end Sys2Proof.Laws
end

