-- ==== Sys2Proof/Laws/FramesRegisters.lean ====
section
/-! SUPPORT. Which parts of the state the operations of Machine/Registers.lean may change. -/
namespace Sys2Proof.Laws
open Sys2Proof Sys2Proof.Machine

set_option linter.unreachableTactic false
set_option linter.unusedTactic false

set_option linter.unusedSimpArgs false

theorem rest_clearBar {L : List Part} (hL : sub [.ports, .ctr] L = true) (s : State) (p : Port) (off : Nat) :
    rest L (clearBar s p off) = rest L s := by
  unfold clearBar
  repeat' (first | with_reducible rfl | simp (disch := (first | exact sub_trans (by decide) hL | exact Or.inl (has_of_sub hL (by decide)) | exact Or.inr rfl | exact Or.inr fun _ => rfl | (refine Or.inr ?_; intros; repeat' (first | rfl | split)))) only [↓rest_updCtr, ↓rest_updPort, ↓rest_mk, ↓rest_ite, ite_self] | (with_reducible refine (rest_updCtr (sub_trans (by decide) hL) _ _ (.inr ?_)).trans ?_) | (with_reducible refine (rest_updPort (sub_trans (by decide) hL) _ _ _ (.inr ?_)).trans ?_) | (intro; rfl) | split | (intro; split) | rfl)

theorem rest_latchBar {L : List Part} (hL : sub [.ports] L = true) (s : State) (p : Port) (off : Nat) :
    rest L (latchBar s p off) = rest L s := by
  unfold latchBar
  repeat' (first | with_reducible rfl | simp (disch := (first | exact sub_trans (by decide) hL | exact Or.inl (has_of_sub hL (by decide)) | exact Or.inr rfl | exact Or.inr fun _ => rfl | (refine Or.inr ?_; intros; repeat' (first | rfl | split)))) only [↓rest_updPort, ↓rest_mk, ↓rest_ite, ite_self] | (with_reducible refine (rest_updPort (sub_trans (by decide) hL) _ _ _ (.inr ?_)).trans ?_) | (intro; rfl) | split | (intro; split) | rfl)

theorem rest_badAccess {L : List Part} (hL : sub [.ports] L = true) (s : State) (p : Port) (off : Nat) :
    rest L (badAccess s p off) = rest L s := by
  unfold badAccess
  repeat' (first | with_reducible rfl | simp (disch := (first | exact sub_trans (by decide) hL | exact Or.inl (has_of_sub hL (by decide)) | exact Or.inr rfl | exact Or.inr fun _ => rfl | (refine Or.inr ?_; intros; repeat' (first | rfl | split)))) only [↓rest_bellIgnored, ↓rest_mk, ↓rest_ite, ite_self] | (intro; rfl) | split | (intro; split) | rfl)

theorem rest_readBar {L : List Part} (hL : sub [.free, .readData, .ports, .ctr] L = true) (s : State) (p : Port) (off : Nat) :
    rest L (readBar s p off) = rest L s := by
  unfold readBar
  repeat' (first | with_reducible rfl | simp (disch := (first | exact sub_trans (by decide) hL | exact Or.inl (has_of_sub hL (by decide)) | exact Or.inr rfl | exact Or.inr fun _ => rfl | (refine Or.inr ?_; intros; repeat' (first | rfl | split)))) only [↓rest_badAccess, ↓rest_clearBar, ↓rest_latchBar, ↓rest_readCounterLow, ↓rest_readCsnLo, ↓rest_mk, ↓rest_ite, ite_self] | (intro; rfl) | split | (intro; split) | rfl)

theorem rest_readSized {L : List Part} (hL : sub [.free, .readData, .ports, .ctr] L = true) (s : State) (p : Port) (off size : Nat) :
    rest L (readSized s p off size) = rest L s := by
  unfold readSized
  repeat' (first | with_reducible rfl | simp (disch := (first | exact sub_trans (by decide) hL | exact Or.inl (has_of_sub hL (by decide)) | exact Or.inr rfl | exact Or.inr fun _ => rfl | (refine Or.inr ?_; intros; repeat' (first | rfl | split)))) only [↓rest_badAccess, ↓rest_readBar, ↓rest_mk, ↓rest_ite, ite_self] | (intro; rfl) | split | (intro; split) | rfl)

theorem rest_portRead {L : List Part} (hL : sub [.free, .readData, .ports, .ctr] L = true) (s : State) (p : Port) (reg : RegAddr) (size : Nat) :
    rest L (portRead s p reg size) = rest L s := by
  unfold portRead
  repeat' (first | with_reducible rfl | simp (disch := (first | exact sub_trans (by decide) hL | exact Or.inl (has_of_sub hL (by decide)) | exact Or.inr rfl | exact Or.inr fun _ => rfl | (refine Or.inr ?_; intros; repeat' (first | rfl | split)))) only [↓rest_readSized, ↓rest_mk, ↓rest_ite, ite_self] | (intro; rfl) | split | (intro; split) | rfl)

theorem rest_readRegister {L : List Part} (hL : sub [.free, .cond, .readData, .raised, .condFrom, .ports, .cad, .health, .eng, .media, .jrnl, .twin, .power, .ctr, .side] L = true) (s : State) (req : Requester) (reg : RegAddr) (size : Nat) :
    rest L (readRegister s req reg size) = rest L s := by
  unfold readRegister
  repeat' (first | with_reducible rfl | simp (disch := (first | exact sub_trans (by decide) hL | exact Or.inl (has_of_sub hL (by decide)) | exact Or.inr rfl | exact Or.inr fun _ => rfl | (refine Or.inr ?_; intros; repeat' (first | rfl | split)))) only [↓rest_portRead, ↓rest_readSide, ↓rest_mk, ↓rest_ite, ite_self] | (intro; rfl) | split | (intro; split) | rfl)

theorem rest_execRcRegisterRead {L : List Part} (hL : sub [.free, .cond, .readData, .out, .evSeq, .evHist, .raised, .condFrom, .ports, .cad, .health, .eng, .media, .jrnl, .twin, .power, .ctr, .side] L = true) (req : Requester) (reg : RegAddr) (bytes : Nat) (s : State) :
    ∃ tv, execRcRegisterRead req reg bytes s = .next tv ∧ rest L tv = rest L s := by
  unfold execRcRegisterRead
  repeat' (first | (refine ⟨_, rfl, ?_⟩) | with_reducible rfl | simp (disch := (first | exact sub_trans (by decide) hL | exact Or.inl (has_of_sub hL (by decide)) | exact Or.inr rfl | exact Or.inr fun _ => rfl | (refine Or.inr ?_; intros; repeat' (first | rfl | split)))) only [↓rest_endCycle, ↓rest_readRegister, ↓rest_mk, ↓rest_ite, ite_self] | (intro; rfl) | split | (intro; split) | rfl)

theorem rest_execLatchedPairLowRead {L : List Part} (hL : sub [.free, .cond, .readData, .out, .evSeq, .evHist, .raised, .condFrom, .ports, .cad, .health, .eng, .media, .jrnl, .twin, .power, .ctr, .side] L = true) (req : Requester) (offset : Nat) (s : State) :
    ∃ tv, execLatchedPairLowRead req offset s = .next tv ∧ rest L tv = rest L s := by
  unfold execLatchedPairLowRead
  repeat' (first | (refine ⟨_, rfl, ?_⟩) | with_reducible rfl | simp (disch := (first | exact sub_trans (by decide) hL | exact Or.inl (has_of_sub hL (by decide)) | exact Or.inr rfl | exact Or.inr fun _ => rfl | (refine Or.inr ?_; intros; repeat' (first | rfl | split)))) only [↓rest_endCycle, ↓rest_readRegister, ↓rest_mk, ↓rest_ite, ite_self] | (intro; rfl) | split | (intro; split) | rfl)

theorem rest_writePort {L : List Part} (hL : sub [.ctxs, .raised, .ports, .portCtl, .health, .eng, .media, .dig, .kf, .ctr] L = true) (s : State) (p : Port) (off : Nat) (v : Word) :
    rest L (writePort s p off v) = rest L s := by
  unfold writePort
  repeat' (first | with_reducible rfl | simp (disch := (first | exact sub_trans (by decide) hL | exact Or.inl (has_of_sub hL (by decide)) | exact Or.inr rfl | exact Or.inr fun _ => rfl | (refine Or.inr ?_; intros; repeat' (first | rfl | split)))) only [↓rest_writePortControl, ↓rest_updPort, ↓rest_mk, ↓rest_ite, ite_self] | (with_reducible refine (rest_updPort (sub_trans (by decide) hL) _ _ _ (.inr ?_)).trans ?_) | (intro; rfl) | split | (intro; split) | rfl)

theorem rest_writeEvent {L : List Part} (hL : sub [.ports] L = true) (s : State) (p : Port) (off : Nat) (v : Word) :
    rest L (writeEvent s p off v) = rest L s := by
  unfold writeEvent
  repeat' (first | with_reducible rfl | simp (disch := (first | exact sub_trans (by decide) hL | exact Or.inl (has_of_sub hL (by decide)) | exact Or.inr rfl | exact Or.inr fun _ => rfl | (refine Or.inr ?_; intros; repeat' (first | rfl | split)))) only [↓rest_writeEventCtrl, ↓rest_updPort, ↓rest_mk, ↓rest_ite, ite_self] | (with_reducible refine (rest_updPort (sub_trans (by decide) hL) _ _ _ (.inr ?_)).trans ?_) | (intro; rfl) | split | (intro; split) | rfl)

theorem rest_writeMsix {L : List Part} (hL : sub [.out, .ports, .portCtl] L = true) (s : State) (p : Port) (off : Nat) (v : Word) :
    rest L (writeMsix s p off v) = rest L s := by
  unfold writeMsix
  repeat' (first | with_reducible rfl | simp (disch := (first | exact sub_trans (by decide) hL | exact Or.inl (has_of_sub hL (by decide)) | exact Or.inr rfl | exact Or.inr fun _ => rfl | (refine Or.inr ?_; intros; repeat' (first | rfl | split)))) only [↓rest_sendPending, ↓rest_updPort, ↓rest_mk, ↓rest_ite, ite_self] | (with_reducible refine (rest_updPort (sub_trans (by decide) hL) _ _ _ (.inr ?_)).trans ?_) | (intro; rfl) | split | (intro; split) | rfl)

theorem rest_writeDiag {L : List Part} (hL : sub [.free, .ctr, .ctrCtl] L = true) (s : State) (off : Nat) (v : Word) :
    rest L (writeDiag s off v) = rest L s := by
  unfold writeDiag
  repeat' (first | with_reducible rfl | simp (disch := (first | exact sub_trans (by decide) hL | exact Or.inl (has_of_sub hL (by decide)) | exact Or.inr rfl | exact Or.inr fun _ => rfl | (refine Or.inr ?_; intros; repeat' (first | rfl | split)))) only [↓rest_writeCntCtrl, ↓rest_writeCntSel, ↓rest_writePsc, ↓rest_mk, ↓rest_ite, ite_self] | (intro; rfl) | split | (intro; split) | rfl)

theorem rest_writeBar {L : List Part} (hL : sub [.free, .out, .ctxs, .errSeq, .raised, .ports, .portCtl, .health, .eng, .media, .twin, .dig, .kf, .ctr, .ctrCtl] L = true) (s : State) (p : Port) (off : Nat) (v : Word) :
    rest L (writeBar s p off v) = rest L s := by
  unfold writeBar
  repeat' (first | with_reducible rfl | simp (disch := (first | exact sub_trans (by decide) hL | exact Or.inl (has_of_sub hL (by decide)) | exact Or.inr rfl | exact Or.inr fun _ => rfl | (refine Or.inr ?_; intros; repeat' (first | rfl | split)))) only [↓rest_writeDiag, ↓rest_writeEvent, ↓rest_writeHead, ↓rest_writeMsix, ↓rest_writePort, ↓rest_writeTail, ↓rest_mk, ↓rest_ite, ite_self] | (intro; rfl) | split | (intro; split) | rfl)

theorem rest_barAccess {L : List Part} (hL : sub [.free, .out, .ctxs, .errSeq, .raised, .ports, .portCtl, .health, .eng, .media, .twin, .dig, .kf, .ctr, .ctrCtl] L = true) (s : State) (p : Port) (off : Nat) (v : Dword) (size : Nat) :
    rest L (barAccess s p off v size) = rest L s := by
  unfold barAccess
  repeat' (first | with_reducible rfl | simp (disch := (first | exact sub_trans (by decide) hL | exact Or.inl (has_of_sub hL (by decide)) | exact Or.inr rfl | exact Or.inr fun _ => rfl | (refine Or.inr ?_; intros; repeat' (first | rfl | split)))) only [↓rest_badAccess, ↓rest_writeBar, ↓rest_writeHead, ↓rest_writeTail, ↓rest_mk, ↓rest_ite, ite_self] | (intro; rfl) | split | (intro; split) | rfl)

theorem rest_writeMsixControl {L : List Part} (hL : sub [.out, .ports, .portCtl] L = true) (s : State) (p : Port) (v : Word) :
    rest L (writeMsixControl s p v) = rest L s := by
  unfold writeMsixControl
  repeat' (first | with_reducible rfl | simp (disch := (first | exact sub_trans (by decide) hL | exact Or.inl (has_of_sub hL (by decide)) | exact Or.inr rfl | exact Or.inr fun _ => rfl | (refine Or.inr ?_; intros; repeat' (first | rfl | split)))) only [↓rest_sendPending, ↓rest_updPort, ↓rest_mk, ↓rest_ite, ite_self] | (with_reducible refine (rest_updPort (sub_trans (by decide) hL) _ _ _ (.inr ?_)).trans ?_) | (intro; rfl) | split | (intro; split) | rfl)

theorem rest_writeBar0 {L : List Part} (hL : sub [.ports] L = true) (s : State) (p : Port) (high : Bool) (v : Word) :
    rest L (writeBar0 s p high v) = rest L s := by
  unfold writeBar0
  repeat' (first | with_reducible rfl | simp (disch := (first | exact sub_trans (by decide) hL | exact Or.inl (has_of_sub hL (by decide)) | exact Or.inr rfl | exact Or.inr fun _ => rfl | (refine Or.inr ?_; intros; repeat' (first | rfl | split)))) only [↓rest_updPort, ↓rest_mk, ↓rest_ite, ite_self] | (with_reducible refine (rest_updPort (sub_trans (by decide) hL) _ _ _ (.inr ?_)).trans ?_) | (intro; rfl) | split | (intro; split) | rfl)

theorem rest_portWrite {L : List Part} (hL : sub [.free, .out, .ctxs, .errSeq, .raised, .ports, .portCtl, .health, .eng, .media, .twin, .dig, .kf, .ctr, .ctrCtl] L = true) (s : State) (p : Port) (reg : RegAddr) (v : Dword) (size : Nat) :
    rest L (portWrite s p reg v size) = rest L s := by
  unfold portWrite
  repeat' (first | with_reducible rfl | simp (disch := (first | exact sub_trans (by decide) hL | exact Or.inl (has_of_sub hL (by decide)) | exact Or.inr rfl | exact Or.inr fun _ => rfl | (refine Or.inr ?_; intros; repeat' (first | rfl | split)))) only [↓rest_barAccess, ↓rest_writeBar0, ↓rest_writeMsixControl, ↓rest_updPort, ↓rest_mk, ↓rest_ite, ite_self] | (with_reducible refine (rest_updPort (sub_trans (by decide) hL) _ _ _ (.inr ?_)).trans ?_) | (intro; rfl) | split | (intro; split) | rfl)

theorem rest_sideWrite {L : List Part} (hL : sub [.now, .free, .cond, .readData, .out, .csnNext, .csnIssued, .csnBlock, .ctxs, .errSeq, .evSeq, .evHist, .raised, .condFrom, .ports, .portCtl, .cad, .cadCtl, .feat, .health, .map, .eng, .media, .jrnl, .twin, .twinCtl, .dig, .pods, .mover, .kf, .kfMem, .kfCtl, .power, .powerCtl, .ctr, .ctrCtl, .side, .sideCtl] L = true) (s : State) (reg : RegAddr) (v : Dword) (size : Nat) :
    rest L (sideWrite s reg v size) = rest L s := by
  unfold sideWrite
  repeat' (first | with_reducible rfl | simp (disch := (first | exact sub_trans (by decide) hL | exact Or.inl (has_of_sub hL (by decide)) | exact Or.inr rfl | exact Or.inr fun _ => rfl | (refine Or.inr ?_; intros; repeat' (first | rfl | split)))) only [↓rest_sbWriteErrors, ↓rest_writeSide, ↓rest_mk, ↓rest_ite, ite_self] | (intro; rfl) | split | (intro; split) | rfl)

theorem rest_execRegisterWrite {L : List Part} (hL : sub [.now, .free, .cond, .readData, .out, .csnNext, .csnIssued, .csnBlock, .ctxs, .errSeq, .evSeq, .evHist, .raised, .condFrom, .ports, .portCtl, .cad, .cadCtl, .feat, .health, .map, .eng, .media, .jrnl, .twin, .twinCtl, .dig, .pods, .mover, .kf, .kfMem, .kfCtl, .power, .powerCtl, .ctr, .ctrCtl, .side, .sideCtl] L = true) (req : Requester) (reg : RegAddr) (value : Dword) (bytes : Nat) (s : State) :
    ∃ tv, execRegisterWrite req reg value bytes s = .next tv ∧ rest L tv = rest L s := by
  unfold execRegisterWrite
  repeat' (first | (refine ⟨_, rfl, ?_⟩) | with_reducible rfl | simp (disch := (first | exact sub_trans (by decide) hL | exact Or.inl (has_of_sub hL (by decide)) | exact Or.inr rfl | exact Or.inr fun _ => rfl | (refine Or.inr ?_; intros; repeat' (first | rfl | split)))) only [↓rest_endCycle, ↓rest_portWrite, ↓rest_sideWrite, ↓rest_mk, ↓rest_ite, ite_self] | (intro; rfl) | split | (intro; split) | rfl)

end Sys2Proof.Laws
end

