-- ==== Sys2Proof/Laws/FramesTwin.lean ====
section
/-! SUPPORT. Which parts of the state the operations of Machine/Twin.lean may change. -/
namespace Sys2Proof.Laws
open Sys2Proof Sys2Proof.Machine

set_option linter.unreachableTactic false
set_option linter.unusedTactic false

set_option linter.unusedSimpArgs false

theorem rest_setRole {L : List Part} (hL : sub [.raised, .twin] L = true) (s : State) (r : Role) :
    rest L (setRole s r) = rest L s := by
  unfold setRole
  repeat' (first | with_reducible rfl | simp (disch := (first | exact sub_trans (by decide) hL | exact Or.inl (has_of_sub hL (by decide)) | exact Or.inr rfl | exact Or.inr fun _ => rfl | (refine Or.inr ?_; intros; repeat' (first | rfl | split)))) only [↓rest_raiseEvent, ↓rest_updTwin, ↓rest_mk, ↓rest_ite, ite_self] | (with_reducible refine (rest_updTwin (sub_trans (by decide) hL) _ _ (.inr ?_)).trans ?_) | (intro; rfl) | split | (intro; split) | rfl)

theorem rest_countMisses {L : List Part} (hL : sub [.twin] L = true) (s : State) :
    rest L (countMisses s) = rest L s := by
  unfold countMisses
  repeat' (first | with_reducible exact none_imp | (with_reducible refine rest_or _ _ ?_ ?_) | (with_reducible refine rest_some ?_) | (with_reducible refine rest_some1 ?_) | (with_reducible refine rest_map _ _ (fun x hx => ?_)) | (with_reducible refine rest_map1 _ _ (fun x hx => ?_)) | (with_reducible refine bind_imp _ _ (fun x hx => ?_)) | (with_reducible refine findSome_imp _ _ (fun x => ?_)) | with_reducible rfl | simp (disch := (first | exact sub_trans (by decide) hL | exact Or.inl (has_of_sub hL (by decide)) | exact Or.inr rfl | exact Or.inr fun _ => rfl | (refine Or.inr ?_; intros; repeat' (first | rfl | split)))) only [↓rest_updTwin, ↓rest_mk, ↓rest_ite, ite_self] | (with_reducible refine (rest_getD _ _ (fun u => ?_)).trans ?_) | (with_reducible refine (rest_updTwin (sub_trans (by decide) hL) _ _ (.inr ?_)).trans ?_) | (intro; rfl) | split | (intro; split) | rfl)

theorem rest_twinTime {L : List Part} (hL : sub [.now, .twin, .power, .ctr] L = true) (s : State) (cyc : Nat) :
    rest L (twinTime s cyc) = rest L s := by
  unfold twinTime
  repeat' (first | with_reducible rfl | simp (disch := (first | exact sub_trans (by decide) hL | exact Or.inl (has_of_sub hL (by decide)) | exact Or.inr rfl | exact Or.inr fun _ => rfl | (refine Or.inr ?_; intros; repeat' (first | rfl | split)))) only [↓rest_advanceTo, ↓rest_countMisses, ↓rest_mk, ↓rest_ite, ite_self] | (intro; rfl) | split | (intro; split) | rfl)

theorem rest_fence {L : List Part} (hL : sub [.twin] L = true) (s : State) :
    rest L (fence s) = rest L s := by
  unfold fence
  repeat' (first | with_reducible rfl | simp (disch := (first | exact sub_trans (by decide) hL | exact Or.inl (has_of_sub hL (by decide)) | exact Or.inr rfl | exact Or.inr fun _ => rfl | (refine Or.inr ?_; intros; repeat' (first | rfl | split)))) only [↓rest_updTwin, ↓rest_mk, ↓rest_ite, ite_self] | (with_reducible refine (rest_updTwin (sub_trans (by decide) hL) _ _ (.inr ?_)).trans ?_) | (intro; rfl) | split | (intro; split) | rfl)

theorem rest_markDurable {L : List Part} (hL : sub [.jrnl] L = true) (s : State) (ok : Nat → Bool) :
    rest L (markDurable s ok) = rest L s := by
  unfold markDurable
  repeat' (first | with_reducible rfl | simp (disch := (first | exact sub_trans (by decide) hL | exact Or.inl (has_of_sub hL (by decide)) | exact Or.inr rfl | exact Or.inr fun _ => rfl | (refine Or.inr ?_; intros; repeat' (first | rfl | split)))) only [↓rest_updJrnl, ↓rest_mk, ↓rest_ite, ite_self] | (intro; rfl) | split | (intro; split) | rfl)

theorem rest_refuseWaiting {L : List Part} (hL : sub [.ctxs, .errSeq, .ports] L = true) (s : State) (cid : Option Nat) :
    rest L (refuseWaiting s cid) = rest L s := by
  unfold refuseWaiting
  repeat' (first | with_reducible rfl | simp (disch := (first | exact sub_trans (by decide) hL | exact Or.inl (has_of_sub hL (by decide)) | exact Or.inr rfl | exact Or.inr fun _ => rfl | (refine Or.inr ?_; intros; repeat' (first | rfl | split)))) only [↓rest_refuseNow, ↓rest_mk, ↓rest_ite, ite_self] | (intro; rfl) | split | (intro; split) | rfl)

theorem rest_goAlone {L : List Part} (hL : sub [.cond, .ctxs, .errSeq, .condFrom, .ports, .media, .jrnl, .twin, .kf, .kfMem] L = true) (s : State) :
    rest L (goAlone s) = rest L s := by
  unfold goAlone
  repeat' (first | with_reducible exact none_imp | (with_reducible refine rest_or _ _ ?_ ?_) | (with_reducible refine rest_some ?_) | (with_reducible refine rest_some1 ?_) | (with_reducible refine rest_map _ _ (fun x hx => ?_)) | (with_reducible refine rest_map1 _ _ (fun x hx => ?_)) | (with_reducible refine bind_imp _ _ (fun x hx => ?_)) | (with_reducible refine findSome_imp _ _ (fun x => ?_)) | with_reducible rfl | simp (disch := (first | exact sub_trans (by decide) hL | exact Or.inl (has_of_sub hL (by decide)) | exact Or.inr rfl | exact Or.inr fun _ => rfl | (refine Or.inr ?_; intros; repeat' (first | rfl | split)))) only [↓rest_markDurable, ↓rest_refuseWaiting, ↓rest_setFlags, ↓rest_settleStand, ↓rest_updTwin, ↓rest_mk, ↓rest_ite, ite_self] | (with_reducible refine (rest_getD _ _ (fun u => ?_)).trans ?_) | (with_reducible refine (rest_updTwin (sub_trans (by decide) hL) _ _ (.inr ?_)).trans ?_) | (intro; rfl) | split | (intro; split) | rfl)

theorem rest_clearMirror {L : List Part} (hL : sub [.twin] L = true) (s : State) :
    rest L (clearMirror s) = rest L s := by
  unfold clearMirror
  repeat' (first | with_reducible rfl | simp (disch := (first | exact sub_trans (by decide) hL | exact Or.inl (has_of_sub hL (by decide)) | exact Or.inr rfl | exact Or.inr fun _ => rfl | (refine Or.inr ?_; intros; repeat' (first | rfl | split)))) only [↓rest_updTwin, ↓rest_mk, ↓rest_ite, ite_self] | (with_reducible refine (rest_updTwin (sub_trans (by decide) hL) _ _ (.inr ?_)).trans ?_) | (intro; rfl) | split | (intro; split) | rfl)

theorem rest_forgetMedium {L : List Part} (hL : sub [.map, .eng, .media, .jrnl] L = true) (s : State) :
    rest L (forgetMedium s) = rest L s := by
  unfold forgetMedium
  repeat' (first | with_reducible rfl | simp (disch := (first | exact sub_trans (by decide) hL | exact Or.inl (has_of_sub hL (by decide)) | exact Or.inr rfl | exact Or.inr fun _ => rfl | (refine Or.inr ?_; intros; repeat' (first | rfl | split)))) only [↓rest_updJrnl, ↓rest_mk, ↓rest_ite, ite_self] | (intro; rfl) | split | (intro; split) | rfl)

theorem rest_fallBack {L : List Part} (hL : sub [.raised, .twin] L = true) (s : State) :
    rest L (fallBack s) = rest L s := by
  unfold fallBack
  repeat' (first | with_reducible rfl | simp (disch := (first | exact sub_trans (by decide) hL | exact Or.inl (has_of_sub hL (by decide)) | exact Or.inr rfl | exact Or.inr fun _ => rfl | (refine Or.inr ?_; intros; repeat' (first | rfl | split)))) only [↓rest_clearMirror, ↓rest_raiseEvent, ↓rest_setRole, ↓rest_updTwin, ↓rest_mk, ↓rest_ite, ite_self] | (with_reducible refine (rest_updTwin (sub_trans (by decide) hL) _ _ (.inr ?_)).trans ?_) | (intro; rfl) | split | (intro; split) | rfl)

theorem rest_beginSyncing {L : List Part} (hL : sub [.raised, .map, .eng, .media, .jrnl, .twin] L = true) (s : State) :
    rest L (beginSyncing s) = rest L s := by
  unfold beginSyncing
  repeat' (first | with_reducible rfl | simp (disch := (first | exact sub_trans (by decide) hL | exact Or.inl (has_of_sub hL (by decide)) | exact Or.inr rfl | exact Or.inr fun _ => rfl | (refine Or.inr ?_; intros; repeat' (first | rfl | split)))) only [↓rest_clearMirror, ↓rest_forgetMedium, ↓rest_setRole, ↓rest_mk, ↓rest_ite, ite_self] | (intro; rfl) | split | (intro; split) | rfl)

theorem rest_settlePairing {L : List Part} (hL : sub [.raised, .map, .eng, .media, .jrnl, .twin] L = true) (s : State) :
    rest L (settlePairing s) = rest L s := by
  unfold settlePairing
  repeat' (first | with_reducible rfl | simp (disch := (first | exact sub_trans (by decide) hL | exact Or.inl (has_of_sub hL (by decide)) | exact Or.inr rfl | exact Or.inr fun _ => rfl | (refine Or.inr ?_; intros; repeat' (first | rfl | split)))) only [↓rest_beginSyncing, ↓rest_mk, ↓rest_ite, ite_self] | (intro; rfl) | split | (intro; split) | rfl)

theorem rest_sendPairKey {L : List Part} (hL : sub [.twin] L = true) (s : State) (point : Option (List Byte)) (cid : Option Nat) :
    rest L (sendPairKey s point cid) = rest L s := by
  unfold sendPairKey
  repeat' (first | with_reducible rfl | simp (disch := (first | exact sub_trans (by decide) hL | exact Or.inl (has_of_sub hL (by decide)) | exact Or.inr rfl | exact Or.inr fun _ => rfl | (refine Or.inr ?_; intros; repeat' (first | rfl | split)))) only [↓rest_sendFrame, ↓rest_updTwin, ↓rest_mk, ↓rest_ite, ite_self] | (with_reducible refine (rest_updTwin (sub_trans (by decide) hL) _ _ (.inr ?_)).trans ?_) | (intro; rfl) | split | (intro; split) | rfl)

theorem rest_startSync {L : List Part} (hL : sub [.twin] L = true) (s : State) :
    rest L (startSync s) = rest L s := by
  unfold startSync
  repeat' (first | with_reducible rfl | (with_reducible refine (rest_foldl _ (fun t x => ?_) _ _).trans ?_) | simp (disch := (first | exact sub_trans (by decide) hL | exact Or.inl (has_of_sub hL (by decide)) | exact Or.inr rfl | exact Or.inr fun _ => rfl | (refine Or.inr ?_; intros; repeat' (first | rfl | split)))) only [↓rest_sendFrame, ↓rest_updTwin, ↓rest_mk, ↓rest_ite, ite_self] | (with_reducible refine (rest_foldl1 _ (fun t x => ?_) _ _).trans ?_) | (with_reducible refine (rest_updTwin (sub_trans (by decide) hL) _ _ (.inr ?_)).trans ?_) | (intro; rfl) | split | (intro; split) | rfl)

theorem rest_applyPortFeature {L : List Part} (hL : sub [.ports, .health, .eng, .media, .dig, .ctr] L = true) (s : State) (x : Nat × List Word) :
    rest L (applyPortFeature s x) = rest L s := by
  unfold applyPortFeature
  repeat' (first | with_reducible exact none_imp | (with_reducible refine rest_or _ _ ?_ ?_) | (with_reducible refine rest_some ?_) | (with_reducible refine rest_some1 ?_) | (with_reducible refine rest_map _ _ (fun x hx => ?_)) | (with_reducible refine rest_map1 _ _ (fun x hx => ?_)) | (with_reducible refine bind_imp _ _ (fun x hx => ?_)) | (with_reducible refine findSome_imp _ _ (fun x => ?_)) | with_reducible rfl | simp (disch := (first | exact sub_trans (by decide) hL | exact Or.inl (has_of_sub hL (by decide)) | exact Or.inr rfl | exact Or.inr fun _ => rfl | (refine Or.inr ?_; intros; repeat' (first | rfl | split)))) only [↓rest_setHostMap, ↓rest_setShelf, ↓rest_updPort, ↓rest_mk, ↓rest_ite, ite_self] | (with_reducible refine (rest_getD _ _ (fun u => ?_)).trans ?_) | (with_reducible refine (rest_updPort (sub_trans (by decide) hL) _ _ _ (.inr ?_)).trans ?_) | (intro; rfl) | split | (intro; split) | rfl)

theorem rest_installMirror {L : List Part} (hL : sub [.ports, .health, .eng, .media, .dig, .ctr] L = true) (s : State) :
    rest L (installMirror s) = rest L s := by
  unfold installMirror
  repeat' (first | with_reducible rfl | (with_reducible refine (rest_foldl _ (fun t x => ?_) _ _).trans ?_) | simp (disch := (first | exact sub_trans (by decide) hL | exact Or.inl (has_of_sub hL (by decide)) | exact Or.inr rfl | exact Or.inr fun _ => rfl | (refine Or.inr ?_; intros; repeat' (first | rfl | split)))) only [↓rest_addQueue, ↓rest_applyPortFeature, ↓rest_mk, ↓rest_ite, ite_self] | (with_reducible refine (rest_foldl1 _ (fun t x => ?_) _ _).trans ?_) | (intro; rfl) | split | (intro; split) | rfl)

theorem rest_surveyBay {L : List Part} (hL : sub [.media] L = true) (s : State) (x : Nat × BaySurvey) :
    rest L (surveyBay s x) = rest L s := by
  unfold surveyBay
  repeat' (first | with_reducible rfl | simp (disch := (first | exact sub_trans (by decide) hL | exact Or.inl (has_of_sub hL (by decide)) | exact Or.inr rfl | exact Or.inr fun _ => rfl | (refine Or.inr ?_; intros; repeat' (first | rfl | split)))) only [↓rest_updBay, ↓rest_mk, ↓rest_ite, ite_self] | (intro; rfl) | split | (intro; split) | rfl)

theorem rest_settleReserve {L : List Part} (hL : sub [.media] L = true) (s : State) (n : Nat) :
    rest L (settleReserve s n) = rest L s := by
  unfold settleReserve
  repeat' (first | with_reducible rfl | simp (disch := (first | exact sub_trans (by decide) hL | exact Or.inl (has_of_sub hL (by decide)) | exact Or.inr rfl | exact Or.inr fun _ => rfl | (refine Or.inr ?_; intros; repeat' (first | rfl | split)))) only [↓rest_updBay, ↓rest_mk, ↓rest_ite, ite_self] | (intro; rfl) | split | (intro; split) | rfl)

theorem rest_connectBays {L : List Part} (hL : sub [.media, .kf] L = true) (s : State) (surveys : List (Nat × BaySurvey)) :
    rest L (connectBays s surveys) = rest L s := by
  unfold connectBays
  repeat' (first | with_reducible rfl | (with_reducible refine (rest_foldl _ (fun t x => ?_) _ _).trans ?_) | simp (disch := (first | exact sub_trans (by decide) hL | exact Or.inl (has_of_sub hL (by decide)) | exact Or.inr rfl | exact Or.inr fun _ => rfl | (refine Or.inr ?_; intros; repeat' (first | rfl | split)))) only [↓rest_settleReserve, ↓rest_settleSegments, ↓rest_startBay, ↓rest_surveyBay, ↓rest_mk, ↓rest_ite, ite_self] | (with_reducible refine (rest_foldl1 _ (fun t x => ?_) _ _).trans ?_) | (intro; rfl) | split | (intro; split) | rfl)

theorem rest_takeOwnership {L : List Part} (hL : sub [.cond, .raised, .condFrom, .twin] L = true) (s : State) (alone : Bool) :
    rest L (takeOwnership s alone) = rest L s := by
  unfold takeOwnership
  repeat' (first | with_reducible rfl | simp (disch := (first | exact sub_trans (by decide) hL | exact Or.inl (has_of_sub hL (by decide)) | exact Or.inr rfl | exact Or.inr fun _ => rfl | (refine Or.inr ?_; intros; repeat' (first | rfl | split)))) only [↓rest_setFlags, ↓rest_setRole, ↓rest_updTwin, ↓rest_mk, ↓rest_ite, ite_self] | (with_reducible refine (rest_updTwin (sub_trans (by decide) hL) _ _ (.inr ?_)).trans ?_) | (intro; rfl) | split | (intro; split) | rfl)

theorem rest_learnPages {L : List Part} (hL : sub [.media, .jrnl] L = true) (s : State) (pages : List PageRec) :
    rest L (learnPages s pages) = rest L s := by
  unfold learnPages
  repeat' (first | with_reducible rfl | (with_reducible refine (rest_foldl _ (fun t x => ?_) _ _).trans ?_) | simp (disch := (first | exact sub_trans (by decide) hL | exact Or.inl (has_of_sub hL (by decide)) | exact Or.inr rfl | exact Or.inr fun _ => rfl | (refine Or.inr ?_; intros; repeat' (first | rfl | split)))) only [↓rest_updJrnl, ↓rest_updMedia, ↓rest_mk, ↓rest_ite, ite_self] | (with_reducible refine (rest_foldl1 _ (fun t x => ?_) _ _).trans ?_) | (intro; rfl) | split | (intro; split) | rfl)

theorem rest_resumeCsn {L : List Part} (hL : sub [.csnNext, .csnIssued, .csnBlock] L = true) (s : State) :
    rest L (resumeCsn s) = rest L s := by
  unfold resumeCsn
  repeat' (first | with_reducible rfl | (with_reducible refine (rest_foldl _ (fun t x => ?_) _ _).trans ?_) | simp (disch := (first | exact sub_trans (by decide) hL | exact Or.inl (has_of_sub hL (by decide)) | exact Or.inr rfl | exact Or.inr fun _ => rfl | (refine Or.inr ?_; intros; repeat' (first | rfl | split)))) only [↓rest_mk, ↓rest_ite, ite_self] | (with_reducible refine (rest_foldl1 _ (fun t x => ?_) _ _).trans ?_) | (intro; rfl) | split | (intro; split) | rfl)

theorem rest_resumeJseq {L : List Part} (hL : sub [.jrnl] L = true) (s : State) :
    rest L (resumeJseq s) = rest L s := by
  unfold resumeJseq
  repeat' (first | with_reducible rfl | simp (disch := (first | exact sub_trans (by decide) hL | exact Or.inl (has_of_sub hL (by decide)) | exact Or.inr rfl | exact Or.inr fun _ => rfl | (refine Or.inr ?_; intros; repeat' (first | rfl | split)))) only [↓rest_updJrnl, ↓rest_mk, ↓rest_ite, ite_self] | (intro; rfl) | split | (intro; split) | rfl)

theorem rest_takePosted {L : List Part} (hL : sub [.ports, .twin] L = true) (s : State) (e : PostedRef) :
    rest L (takePosted s e) = rest L s := by
  unfold takePosted
  repeat' (first | with_reducible rfl | simp (disch := (first | exact sub_trans (by decide) hL | exact Or.inl (has_of_sub hL (by decide)) | exact Or.inr rfl | exact Or.inr fun _ => rfl | (refine Or.inr ?_; intros; repeat' (first | rfl | split)))) only [↓rest_updQueue, ↓rest_updTwin, ↓rest_mk, ↓rest_ite, ite_self] | (with_reducible refine (rest_updTwin (sub_trans (by decide) hL) _ _ (.inr ?_)).trans ?_) | (intro; rfl) | split | (intro; split) | rfl)

theorem rest_replayOne {L : List Part} (hL : sub [.out, .ctxs, .errSeq, .ports, .twin, .dig, .ctr] L = true) (s : State) (r : Port × CmdRec) :
    rest L (replayOne s r) = rest L s := by
  unfold replayOne
  repeat' (first | with_reducible rfl | simp (disch := (first | exact sub_trans (by decide) hL | exact Or.inl (has_of_sub hL (by decide)) | exact Or.inr rfl | exact Or.inr fun _ => rfl | (refine Or.inr ?_; intros; repeat' (first | rfl | split)))) only [↓rest_decide_, ↓rest_perform, ↓rest_post, ↓rest_updCtx, ↓rest_mk, ↓rest_ite, ite_self] | (intro; rfl) | split | (intro; split) | rfl)

theorem rest_failoverFates {L : List Part} (hL : sub [.out, .ctxs, .errSeq, .raised, .ports, .map, .jrnl, .twin, .dig, .ctr] L = true) (s : State) :
    rest L (failoverFates s) = rest L s := by
  unfold failoverFates
  repeat' (first | with_reducible rfl | (with_reducible refine (rest_foldl _ (fun t x => ?_) _ _).trans ?_) | simp (disch := (first | exact sub_trans (by decide) hL | exact Or.inl (has_of_sub hL (by decide)) | exact Or.inr rfl | exact Or.inr fun _ => rfl | (refine Or.inr ?_; intros; repeat' (first | rfl | split)))) only [↓rest_beginLog, ↓rest_completeLog, ↓rest_decideFate, ↓rest_replayOne, ↓rest_mk, ↓rest_ite, ite_self] | (with_reducible refine (rest_foldl1 _ (fun t x => ?_) _ _).trans ?_) | (with_reducible refine (rest_decideFate_eq (sub_trans (by decide) hL) _ _ (by assumption)).trans ?_) | (intro; rfl) | split | (intro; split) | rfl)

theorem rest_countTakeOver {L : List Part} (hL : sub [.twin] L = true) (s : State) :
    rest L (countTakeOver s) = rest L s := by
  unfold countTakeOver
  repeat' (first | with_reducible rfl | simp (disch := (first | exact sub_trans (by decide) hL | exact Or.inl (has_of_sub hL (by decide)) | exact Or.inr rfl | exact Or.inr fun _ => rfl | (refine Or.inr ?_; intros; repeat' (first | rfl | split)))) only [↓rest_updTwin, ↓rest_mk, ↓rest_ite, ite_self] | (with_reducible refine (rest_updTwin (sub_trans (by decide) hL) _ _ (.inr ?_)).trans ?_) | (intro; rfl) | split | (intro; split) | rfl)

theorem rest_settleReady {L : List Part} (hL : sub [.raised, .media] L = true) (s : State) :
    rest L (settleReady s) = rest L s := by
  unfold settleReady
  repeat' (first | with_reducible rfl | (with_reducible refine (rest_foldl _ (fun t x => ?_) _ _).trans ?_) | simp (disch := (first | exact sub_trans (by decide) hL | exact Or.inl (has_of_sub hL (by decide)) | exact Or.inr rfl | exact Or.inr fun _ => rfl | (refine Or.inr ?_; intros; repeat' (first | rfl | split)))) only [↓rest_recomputeHorizon, ↓rest_settleFull, ↓rest_startPatrol, ↓rest_updMedia, ↓rest_mk, ↓rest_ite, ite_self] | (with_reducible refine (rest_foldl1 _ (fun t x => ?_) _ _).trans ?_) | (intro; rfl) | split | (intro; split) | rfl)

theorem rest_takeOver {L : List Part} (hL : sub [.cond, .out, .csnNext, .csnIssued, .csnBlock, .ctxs, .errSeq, .raised, .condFrom, .ports, .cad, .health, .map, .eng, .media, .jrnl, .twin, .dig, .kf, .kfMem, .ctr] L = true) (s : State) (cqTaken : List PostedRef) (scan : List PageRec) (found : RestartFind) (surveys : List (Nat × BaySurvey)) :
    rest L (takeOver s cqTaken scan found surveys) = rest L s := by
  unfold takeOver
  repeat' (first | with_reducible rfl | (with_reducible refine (rest_foldl _ (fun t x => ?_) _ _).trans ?_) | simp (disch := (first | exact sub_trans (by decide) hL | exact Or.inl (has_of_sub hL (by decide)) | exact Or.inr rfl | exact Or.inr fun _ => rfl | (refine Or.inr ?_; intros; repeat' (first | rfl | split)))) only [↓rest_clearMirror, ↓rest_closeAll, ↓rest_connectBays, ↓rest_countTakeOver, ↓rest_eraseReleased, ↓rest_failMissing, ↓rest_failoverFates, ↓rest_fence, ↓rest_installMirror, ↓rest_learnPages, ↓rest_raiseEvent, ↓rest_resumeCsn, ↓rest_resumeJseq, ↓rest_resumeRebuild, ↓rest_sealIfSpent, ↓rest_setFlags, ↓rest_settleReady, ↓rest_settleTaken, ↓rest_sizeTier, ↓rest_takeOwnership, ↓rest_takePosted, ↓rest_updCad, ↓rest_updEng, ↓rest_updKf, ↓rest_updMedia, ↓rest_mk, ↓rest_ite, ite_self] | (with_reducible refine (rest_foldl1 _ (fun t x => ?_) _ _).trans ?_) | (with_reducible refine (rest_updCad (sub_trans (by decide) hL) _ _ (.inr ?_)).trans ?_) | (with_reducible refine (rest_updKf (sub_trans (by decide) hL) _ _ (.inr ?_) (.inr ?_)).trans ?_) | (intro; rfl) | split | (intro; split) | rfl)

theorem rest_applyBayRecs {L : List Part} (hL : sub [.media] L = true) (s : State) (rs : List StagedRec) :
    rest L (applyBayRecs s rs) = rest L s := by
  unfold applyBayRecs
  repeat' (first | with_reducible exact none_imp | (with_reducible refine rest_or _ _ ?_ ?_) | (with_reducible refine rest_some ?_) | (with_reducible refine rest_some1 ?_) | (with_reducible refine rest_map _ _ (fun x hx => ?_)) | (with_reducible refine rest_map1 _ _ (fun x hx => ?_)) | (with_reducible refine bind_imp _ _ (fun x hx => ?_)) | (with_reducible refine findSome_imp _ _ (fun x => ?_)) | with_reducible rfl | (with_reducible refine (rest_foldl _ (fun t x => ?_) _ _).trans ?_) | simp (disch := (first | exact sub_trans (by decide) hL | exact Or.inl (has_of_sub hL (by decide)) | exact Or.inr rfl | exact Or.inr fun _ => rfl | (refine Or.inr ?_; intros; repeat' (first | rfl | split)))) only [↓rest_updBay, ↓rest_mk, ↓rest_ite, ite_self] | (with_reducible refine (rest_foldl1 _ (fun t x => ?_) _ _).trans ?_) | (with_reducible refine (rest_getD _ _ (fun u => ?_)).trans ?_) | (intro; rfl) | split | (intro; split) | rfl)

theorem rest_takeFound {L : List Part} (hL : sub [.csnNext, .csnBlock, .map, .eng, .media, .jrnl] L = true) (s : State) (i : ImportResult) (withHoldup : Bool) :
    rest L (takeFound s i withHoldup) = rest L s := by
  unfold takeFound
  repeat' (first | with_reducible rfl | simp (disch := (first | exact sub_trans (by decide) hL | exact Or.inl (has_of_sub hL (by decide)) | exact Or.inr rfl | exact Or.inr fun _ => rfl | (refine Or.inr ?_; intros; repeat' (first | rfl | split)))) only [↓rest_applyBayRecs, ↓rest_forgetMedium, ↓rest_learnPages, ↓rest_settleTaken, ↓rest_updJrnl, ↓rest_updMedia, ↓rest_mk, ↓rest_ite, ite_self] | (intro; rfl) | split | (intro; split) | rfl)

theorem rest_claimStands {L : List Part} (hL : sub [.cond, .csnNext, .csnBlock, .raised, .condFrom, .health, .map, .eng, .media, .jrnl, .twin, .kf, .ctr] L = true) (s : State) (found : Option ImportResult) (surveys : List (Nat × BaySurvey)) (withHoldup : Bool) :
    rest L (claimStands s found surveys withHoldup) = rest L s := by
  unfold claimStands
  repeat' (first | with_reducible rfl | (with_reducible refine (rest_foldl _ (fun t x => ?_) _ _).trans ?_) | simp (disch := (first | exact sub_trans (by decide) hL | exact Or.inl (has_of_sub hL (by decide)) | exact Or.inr rfl | exact Or.inr fun _ => rfl | (refine Or.inr ?_; intros; repeat' (first | rfl | split)))) only [↓rest_settleReserve, ↓rest_startSteps, ↓rest_surveyBay, ↓rest_takeFound, ↓rest_takeOwnership, ↓rest_mk, ↓rest_ite, ite_self] | (with_reducible refine (rest_foldl1 _ (fun t x => ?_) _ _).trans ?_) | (intro; rfl) | split | (intro; split) | rfl)

theorem rest_takeHandOver {L : List Part} (hL : sub [.cond, .csnNext, .csnIssued, .csnBlock, .raised, .condFrom, .ports, .cad, .health, .map, .eng, .media, .jrnl, .twin, .dig, .kf, .ctr] L = true) (s : State) (found : Option ImportResult) (surveys : List (Nat × BaySurvey)) :
    rest L (takeHandOver s found surveys) = rest L s := by
  unfold takeHandOver
  repeat' (first | with_reducible rfl | (with_reducible refine (rest_foldl _ (fun t x => ?_) _ _).trans ?_) | simp (disch := (first | exact sub_trans (by decide) hL | exact Or.inl (has_of_sub hL (by decide)) | exact Or.inr rfl | exact Or.inr fun _ => rfl | (refine Or.inr ?_; intros; repeat' (first | rfl | split)))) only [↓rest_clearMirror, ↓rest_connectBays, ↓rest_installMirror, ↓rest_learnPages, ↓rest_resumeCsn, ↓rest_resumeJseq, ↓rest_resumeRebuild, ↓rest_sealIfSpent, ↓rest_setFlags, ↓rest_settleReady, ↓rest_settleTaken, ↓rest_sizeTier, ↓rest_takeOwnership, ↓rest_updCad, ↓rest_updEng, ↓rest_updKf, ↓rest_updMedia, ↓rest_mk, ↓rest_ite, ite_self] | (with_reducible refine (rest_foldl1 _ (fun t x => ?_) _ _).trans ?_) | (with_reducible refine (rest_updCad (sub_trans (by decide) hL) _ _ (.inr ?_)).trans ?_) | (with_reducible refine (rest_updKf (sub_trans (by decide) hL) _ _ (.inr ?_) (.inr ?_)).trans ?_) | (intro; rfl) | split | (intro; split) | rfl)

theorem rest_execOwnershipClaim {L : List Part} (hL : sub [.now, .cond, .out, .csnNext, .csnIssued, .csnBlock, .evSeq, .evHist, .raised, .condFrom, .ports, .cad, .health, .map, .eng, .media, .jrnl, .twin, .dig, .kf, .power, .ctr] L = true) (cyc : Nat) (peerHighFor : Nat) (peerAfter : Bool) (found : Option ImportResult) (surveys : List (Nat × BaySurvey)) (s : State) :
    ∃ tv, execOwnershipClaim cyc peerHighFor peerAfter found surveys s = .next tv ∧ rest L tv = rest L s := by
  unfold execOwnershipClaim
  repeat' (first | (refine ⟨_, rfl, ?_⟩) | with_reducible rfl | simp (disch := (first | exact sub_trans (by decide) hL | exact Or.inl (has_of_sub hL (by decide)) | exact Or.inr rfl | exact Or.inr fun _ => rfl | (refine Or.inr ?_; intros; repeat' (first | rfl | split)))) only [↓rest_claimStands, ↓rest_endCycle, ↓rest_takeHandOver, ↓rest_twinTime, ↓rest_updTwin, ↓rest_mk, ↓rest_ite, ite_self] | (with_reducible refine (rest_updTwin (sub_trans (by decide) hL) _ _ (.inr ?_)).trans ?_) | (intro; rfl) | split | (intro; split) | rfl)

theorem rest_execUncleanTakeOver {L : List Part} (hL : sub [.now, .cond, .out, .csnNext, .csnBlock, .evSeq, .evHist, .raised, .condFrom, .ports, .health, .map, .eng, .media, .jrnl, .twin, .kf, .power, .ctr] L = true) (cyc : Nat) (found : ImportResult) (surveys : List (Nat × BaySurvey)) (s : State) :
    ∃ tv, execUncleanTakeOver cyc found surveys s = .next tv ∧ rest L tv = rest L s := by
  unfold execUncleanTakeOver
  repeat' (first | (refine ⟨_, rfl, ?_⟩) | with_reducible rfl | simp (disch := (first | exact sub_trans (by decide) hL | exact Or.inl (has_of_sub hL (by decide)) | exact Or.inr rfl | exact Or.inr fun _ => rfl | (refine Or.inr ?_; intros; repeat' (first | rfl | split)))) only [↓rest_beginLog, ↓rest_claimStands, ↓rest_clearMirror, ↓rest_countTakeOver, ↓rest_endCycle, ↓rest_fence, ↓rest_raiseEvent, ↓rest_setFlags, ↓rest_twinTime, ↓rest_updTwin, ↓rest_mk, ↓rest_ite, ite_self] | (with_reducible refine (rest_updTwin (sub_trans (by decide) hL) _ _ (.inr ?_)).trans ?_) | (intro; rfl) | split | (intro; split) | rfl)

theorem rest_execPartnerLoss {L : List Part} (hL : sub [.now, .cond, .out, .csnNext, .csnIssued, .csnBlock, .ctxs, .errSeq, .evSeq, .evHist, .raised, .condFrom, .ports, .cad, .health, .map, .eng, .media, .jrnl, .twin, .dig, .kf, .kfMem, .power, .ctr] L = true) (cyc : Nat) (cqTaken : List PostedRef) (scan : List PageRec) (found : RestartFind) (surveys : List (Nat × BaySurvey)) (s : State) :
    ∃ tv, execPartnerLoss cyc cqTaken scan found surveys s = .next tv ∧ rest L tv = rest L s := by
  unfold execPartnerLoss
  repeat' (first | (refine ⟨_, rfl, ?_⟩) | with_reducible rfl | simp (disch := (first | exact sub_trans (by decide) hL | exact Or.inl (has_of_sub hL (by decide)) | exact Or.inr rfl | exact Or.inr fun _ => rfl | (refine Or.inr ?_; intros; repeat' (first | rfl | split)))) only [↓rest_endCycle, ↓rest_fence, ↓rest_goAlone, ↓rest_raiseEvent, ↓rest_takeOver, ↓rest_twinTime, ↓rest_mk, ↓rest_ite, ite_self] | (intro; rfl) | split | (intro; split) | rfl)

theorem rest_execHeartbeatSend {L : List Part} (hL : sub [.now, .twin, .power, .ctr] L = true) (cyc : Nat) (s : State) :
    ∃ tv, execHeartbeatSend cyc s = .next tv ∧ rest L tv = rest L s := by
  unfold execHeartbeatSend
  repeat' (first | (refine ⟨_, rfl, ?_⟩) | with_reducible rfl | simp (disch := (first | exact sub_trans (by decide) hL | exact Or.inl (has_of_sub hL (by decide)) | exact Or.inr rfl | exact Or.inr fun _ => rfl | (refine Or.inr ?_; intros; repeat' (first | rfl | split)))) only [↓rest_sendFrame, ↓rest_twinTime, ↓rest_updTwin, ↓rest_mk, ↓rest_ite, ite_self] | (with_reducible refine (rest_updTwin (sub_trans (by decide) hL) _ _ (.inr ?_)).trans ?_) | (intro; rfl) | split | (intro; split) | rfl)

theorem rest_execTwinHbInEdge {L : List Part} (hL : sub [.now, .twin, .power, .ctr] L = true) (cyc : Nat) (s : State) :
    ∃ tv, execTwinHbInEdge cyc s = .next tv ∧ rest L tv = rest L s := by
  unfold execTwinHbInEdge
  repeat' (first | (refine ⟨_, rfl, ?_⟩) | with_reducible rfl | simp (disch := (first | exact sub_trans (by decide) hL | exact Or.inl (has_of_sub hL (by decide)) | exact Or.inr rfl | exact Or.inr fun _ => rfl | (refine Or.inr ?_; intros; repeat' (first | rfl | split)))) only [↓rest_twinTime, ↓rest_updTwin, ↓rest_mk, ↓rest_ite, ite_self] | (with_reducible refine (rest_updTwin (sub_trans (by decide) hL) _ _ (.inr ?_)).trans ?_) | (intro; rfl) | split | (intro; split) | rfl)

theorem rest_execStandbyLinkFallback {L : List Part} (hL : sub [.now, .out, .evSeq, .evHist, .raised, .condFrom, .ports, .twin, .power, .ctr] L = true) (cyc : Nat) (s : State) :
    ∃ tv, execStandbyLinkFallback cyc s = .next tv ∧ rest L tv = rest L s := by
  unfold execStandbyLinkFallback
  repeat' (first | (refine ⟨_, rfl, ?_⟩) | with_reducible rfl | simp (disch := (first | exact sub_trans (by decide) hL | exact Or.inl (has_of_sub hL (by decide)) | exact Or.inr rfl | exact Or.inr fun _ => rfl | (refine Or.inr ?_; intros; repeat' (first | rfl | split)))) only [↓rest_endCycle, ↓rest_fallBack, ↓rest_twinTime, ↓rest_mk, ↓rest_ite, ite_self] | (intro; rfl) | split | (intro; split) | rfl)

theorem rest_execAckTimeout {L : List Part} (hL : sub [.now, .cond, .out, .ctxs, .errSeq, .evSeq, .evHist, .raised, .condFrom, .ports, .media, .jrnl, .twin, .kf, .kfMem, .power, .ctr] L = true) (cyc : Nat) (s : State) :
    ∃ tv, execAckTimeout cyc s = .next tv ∧ rest L tv = rest L s := by
  unfold execAckTimeout
  repeat' (first | (refine ⟨_, rfl, ?_⟩) | with_reducible rfl | simp (disch := (first | exact sub_trans (by decide) hL | exact Or.inl (has_of_sub hL (by decide)) | exact Or.inr rfl | exact Or.inr fun _ => rfl | (refine Or.inr ?_; intros; repeat' (first | rfl | split)))) only [↓rest_endCycle, ↓rest_goAlone, ↓rest_raiseEvent, ↓rest_twinTime, ↓rest_mk, ↓rest_ite, ite_self] | (intro; rfl) | split | (intro; split) | rfl)

theorem rest_execFenceRelease {L : List Part} (hL : sub [.now, .ctxs, .twin, .power, .ctr] L = true) (cyc : Nat) (s : State) :
    ∃ tv, execFenceRelease cyc s = .next tv ∧ rest L tv = rest L s := by
  unfold execFenceRelease
  repeat' (first | (refine ⟨_, rfl, ?_⟩) | with_reducible rfl | (with_reducible refine (rest_foldl _ (fun t x => ?_) _ _).trans ?_) | simp (disch := (first | exact sub_trans (by decide) hL | exact Or.inl (has_of_sub hL (by decide)) | exact Or.inr rfl | exact Or.inr fun _ => rfl | (refine Or.inr ?_; intros; repeat' (first | rfl | split)))) only [↓rest_performState, ↓rest_twinTime, ↓rest_updTwin, ↓rest_mk, ↓rest_ite, ite_self] | (with_reducible refine (rest_foldl1 _ (fun t x => ?_) _ _).trans ?_) | (with_reducible refine (rest_updTwin (sub_trans (by decide) hL) _ _ (.inr ?_)).trans ?_) | (intro; rfl) | split | (intro; split) | rfl)

theorem rest_execFrameResend {L : List Part} (hL : sub [.now, .twin, .power, .ctr] L = true) (cyc : Nat) (s : State) :
    ∃ tv, execFrameResend cyc s = .next tv ∧ rest L tv = rest L s := by
  unfold execFrameResend
  repeat' (first | (refine ⟨_, rfl, ?_⟩) | with_reducible rfl | simp (disch := (first | exact sub_trans (by decide) hL | exact Or.inl (has_of_sub hL (by decide)) | exact Or.inr rfl | exact Or.inr fun _ => rfl | (refine Or.inr ?_; intros; repeat' (first | rfl | split)))) only [↓rest_twinTime, ↓rest_updTwin, ↓rest_mk, ↓rest_ite, ite_self] | (with_reducible refine (rest_updTwin (sub_trans (by decide) hL) _ _ (.inr ?_)).trans ?_) | (intro; rfl) | split | (intro; split) | rfl)

theorem rest_execZynmiLinkTrained {L : List Part} (hL : sub [.cond, .out, .ctxs, .errSeq, .evSeq, .evHist, .raised, .condFrom, .ports, .media, .jrnl, .twin, .kf, .kfMem] L = true) (lanes : Nat) (s : State) :
    ∃ tv, execZynmiLinkTrained lanes s = .next tv ∧ rest L tv = rest L s := by
  unfold execZynmiLinkTrained
  repeat' (first | (refine ⟨_, rfl, ?_⟩) | with_reducible rfl | simp (disch := (first | exact sub_trans (by decide) hL | exact Or.inl (has_of_sub hL (by decide)) | exact Or.inr rfl | exact Or.inr fun _ => rfl | (refine Or.inr ?_; intros; repeat' (first | rfl | split)))) only [↓rest_endCycle, ↓rest_goAlone, ↓rest_raiseEvent, ↓rest_sendFrame, ↓rest_updTwin, ↓rest_mk, ↓rest_ite, ite_self] | (with_reducible refine (rest_updTwin (sub_trans (by decide) hL) _ _ (.inr ?_)).trans ?_) | (intro; rfl) | split | (intro; split) | rfl)

theorem rest_execZynmiLinkDown {L : List Part} (hL : sub [.now, .out, .evSeq, .evHist, .raised, .condFrom, .ports, .twin, .power, .ctr] L = true) (cyc : Nat) (reservedType : Bool) (s : State) :
    ∃ tv, execZynmiLinkDown cyc reservedType s = .next tv ∧ rest L tv = rest L s := by
  unfold execZynmiLinkDown
  repeat' (first | (refine ⟨_, rfl, ?_⟩) | with_reducible rfl | simp (disch := (first | exact sub_trans (by decide) hL | exact Or.inl (has_of_sub hL (by decide)) | exact Or.inr rfl | exact Or.inr fun _ => rfl | (refine Or.inr ?_; intros; repeat' (first | rfl | split)))) only [↓rest_endCycle, ↓rest_fallBack, ↓rest_twinTime, ↓rest_updTwin, ↓rest_mk, ↓rest_ite, ite_self] | (with_reducible refine (rest_updTwin (sub_trans (by decide) hL) _ _ (.inr ?_)).trans ?_) | (intro; rfl) | split | (intro; split) | rfl)

theorem rest_twinAction {L : List Part} (hL : sub [.ctxs, .errSeq, .ports] L = true) (s : State) (cid action : Nat) (go : Ctx → State) (hg : ∀ c, rest L (go c) = rest L s) :
    rest L (twinAction s cid action go) = rest L s := by
  unfold twinAction
  repeat' (first | with_reducible rfl | simp (disch := (first | exact sub_trans (by decide) hL | exact Or.inl (has_of_sub hL (by decide)) | exact Or.inr rfl | exact Or.inr fun _ => rfl | (refine Or.inr ?_; intros; repeat' (first | rfl | split)))) only [↓rest_refuseNow, ↓rest_mk, ↓rest_ite, ite_self] | (with_reducible refine (hg _).trans ?_) | (with_reducible refine (hg _ _).trans ?_) | (intro; rfl) | split | (intro; split) | rfl)

theorem rest_askedTwin {L : List Part} (hL : sub [.ctxs] L = true) (s : State) (cid : Nat) :
    rest L (askedTwin s cid) = rest L s := by
  unfold askedTwin
  repeat' (first | with_reducible rfl | simp (disch := (first | exact sub_trans (by decide) hL | exact Or.inl (has_of_sub hL (by decide)) | exact Or.inr rfl | exact Or.inr fun _ => rfl | (refine Or.inr ?_; intros; repeat' (first | rfl | split)))) only [↓rest_updCtx, ↓rest_mk, ↓rest_ite, ite_self] | (intro; rfl) | split | (intro; split) | rfl)

theorem rest_execTwinPair {L : List Part} (hL : sub [.ctxs, .errSeq, .ports, .twin] L = true) (cid : Nat) (s : State) :
    ∃ tv, execTwinPair cid s = .next tv ∧ rest L tv = rest L s := by
  unfold execTwinPair
  repeat' (first | (refine ⟨_, rfl, ?_⟩) | with_reducible rfl | simp (disch := (first | exact sub_trans (by decide) hL | exact Or.inl (has_of_sub hL (by decide)) | exact Or.inr rfl | exact Or.inr fun _ => rfl | (refine Or.inr ?_; intros; repeat' (first | rfl | split)))) only [↓rest_askedTwin, ↓rest_sendPairKey, ↓rest_mk, ↓rest_ite, ite_self] | (with_reducible refine (rest_twinAction (sub_trans (by decide) hL) _ _ _ _ (fun t => ?_)).trans ?_) | (intro; rfl) | split | (intro; split) | rfl)

theorem rest_unpairNow {L : List Part} (hL : sub [.cond, .ctxs, .errSeq, .condFrom, .ports, .media, .jrnl, .twin, .kf, .kfMem] L = true) (s : State) (cid : Nat) :
    rest L (unpairNow s cid) = rest L s := by
  unfold unpairNow
  repeat' (first | with_reducible rfl | simp (disch := (first | exact sub_trans (by decide) hL | exact Or.inl (has_of_sub hL (by decide)) | exact Or.inr rfl | exact Or.inr fun _ => rfl | (refine Or.inr ?_; intros; repeat' (first | rfl | split)))) only [↓rest_goAlone, ↓rest_performState, ↓rest_updTwin, ↓rest_mk, ↓rest_ite, ite_self] | (with_reducible refine (rest_updTwin (sub_trans (by decide) hL) _ _ (.inr ?_)).trans ?_) | (intro; rfl) | split | (intro; split) | rfl)

theorem rest_execTwinUnpair {L : List Part} (hL : sub [.cond, .out, .ctxs, .errSeq, .evSeq, .evHist, .raised, .condFrom, .ports, .media, .jrnl, .twin, .kf, .kfMem] L = true) (cid : Nat) (s : State) :
    ∃ tv, execTwinUnpair cid s = .next tv ∧ rest L tv = rest L s := by
  unfold execTwinUnpair
  repeat' (first | (refine ⟨_, rfl, ?_⟩) | with_reducible rfl | simp (disch := (first | exact sub_trans (by decide) hL | exact Or.inl (has_of_sub hL (by decide)) | exact Or.inr rfl | exact Or.inr fun _ => rfl | (refine Or.inr ?_; intros; repeat' (first | rfl | split)))) only [↓rest_endCycle, ↓rest_sendFrame, ↓rest_unpairNow, ↓rest_updCtx, ↓rest_mk, ↓rest_ite, ite_self] | (with_reducible refine (rest_twinAction (sub_trans (by decide) hL) _ _ _ _ (fun t => ?_)).trans ?_) | (intro; rfl) | split | (intro; split) | rfl)

theorem rest_dropFetched {L : List Part} (hL : sub [.ctxs, .ports] L = true) (s : State) :
    rest L (dropFetched s) = rest L s := by
  unfold dropFetched
  repeat' (first | with_reducible exact none_imp | (with_reducible refine rest_or _ _ ?_ ?_) | (with_reducible refine rest_some ?_) | (with_reducible refine rest_some1 ?_) | (with_reducible refine rest_map _ _ (fun x hx => ?_)) | (with_reducible refine rest_map1 _ _ (fun x hx => ?_)) | (with_reducible refine bind_imp _ _ (fun x hx => ?_)) | (with_reducible refine findSome_imp _ _ (fun x => ?_)) | with_reducible rfl | simp (disch := (first | exact sub_trans (by decide) hL | exact Or.inl (has_of_sub hL (by decide)) | exact Or.inr rfl | exact Or.inr fun _ => rfl | (refine Or.inr ?_; intros; repeat' (first | rfl | split)))) only [↓rest_updPort, ↓rest_mk, ↓rest_ite, ite_self] | (with_reducible refine (rest_getD _ _ (fun u => ?_)).trans ?_) | (with_reducible refine (rest_updPort (sub_trans (by decide) hL) _ _ _ (.inr ?_)).trans ?_) | (intro; rfl) | split | (intro; split) | rfl)

theorem rest_execTwinHandOver {L : List Part} (hL : sub [.ctxs, .errSeq, .ports, .health, .media, .twin, .ctr] L = true) (cid : Nat) (s : State) :
    ∃ tv, execTwinHandOver cid s = .next tv ∧ rest L tv = rest L s := by
  unfold execTwinHandOver
  repeat' (first | (refine ⟨_, rfl, ?_⟩) | with_reducible rfl | (with_reducible refine (rest_foldl _ (fun t x => ?_) _ _).trans ?_) | simp (disch := (first | exact sub_trans (by decide) hL | exact Or.inl (has_of_sub hL (by decide)) | exact Or.inr rfl | exact Or.inr fun _ => rfl | (refine Or.inr ?_; intros; repeat' (first | rfl | split)))) only [↓rest_askedTwin, ↓rest_dropFetched, ↓rest_padOpenRow, ↓rest_refuseNow, ↓rest_sendFrame, ↓rest_updTwin, ↓rest_mk, ↓rest_ite, ite_self] | (with_reducible refine (rest_foldl1 _ (fun t x => ?_) _ _).trans ?_) | (with_reducible refine (rest_twinAction (sub_trans (by decide) hL) _ _ _ _ (fun t => ?_)).trans ?_) | (with_reducible refine (rest_updTwin (sub_trans (by decide) hL) _ _ (.inr ?_)).trans ?_) | (intro; rfl) | split | (intro; split) | rfl)

theorem rest_execTwinFencePartner {L : List Part} (hL : sub [.now, .cond, .out, .ctxs, .errSeq, .evSeq, .evHist, .raised, .condFrom, .ports, .media, .jrnl, .twin, .kf, .kfMem, .power, .ctr] L = true) (cid : Nat) (cyc : Nat) (s : State) :
    ∃ tv, execTwinFencePartner cid cyc s = .next tv ∧ rest L tv = rest L s := by
  unfold execTwinFencePartner
  repeat' (first | (refine ⟨_, rfl, ?_⟩) | with_reducible rfl | simp (disch := (first | exact sub_trans (by decide) hL | exact Or.inl (has_of_sub hL (by decide)) | exact Or.inr rfl | exact Or.inr fun _ => rfl | (refine Or.inr ?_; intros; repeat' (first | rfl | split)))) only [↓rest_askedTwin, ↓rest_endCycle, ↓rest_fence, ↓rest_goAlone, ↓rest_twinTime, ↓rest_mk, ↓rest_ite, ite_self] | (with_reducible refine (rest_twinAction (sub_trans (by decide) hL) _ _ _ _ (fun t => ?_)).trans ?_) | (intro; rfl) | split | (intro; split) | rfl)

theorem rest_handOverDone {L : List Part} (hL : sub [.cond, .out, .ctxs, .raised, .condFrom, .ports, .map, .eng, .media, .jrnl, .twin, .dig, .kf, .ctr] L = true) (s : State) (cid : Nat) :
    rest L (handOverDone s cid) = rest L s := by
  unfold handOverDone
  repeat' (first | with_reducible rfl | simp (disch := (first | exact sub_trans (by decide) hL | exact Or.inl (has_of_sub hL (by decide)) | exact Or.inr rfl | exact Or.inr fun _ => rfl | (refine Or.inr ?_; intros; repeat' (first | rfl | split)))) only [↓rest_clearMirror, ↓rest_forgetMedium, ↓rest_perform, ↓rest_post, ↓rest_setFlags, ↓rest_setRole, ↓rest_updJrnl, ↓rest_updKf, ↓rest_updPort, ↓rest_updTwin, ↓rest_mk, ↓rest_ite, ite_self] | (with_reducible refine (rest_updKf (sub_trans (by decide) hL) _ _ (.inr ?_) (.inr ?_)).trans ?_) | (with_reducible refine (rest_updPort (sub_trans (by decide) hL) _ _ _ (.inr ?_)).trans ?_) | (with_reducible refine (rest_updTwin (sub_trans (by decide) hL) _ _ (.inr ?_)).trans ?_) | (intro; rfl) | split | (intro; split) | rfl)

end Sys2Proof.Laws
end

