-- ==== Sys2Proof/Laws/FramesTwinFrames.lean ====
section
/-! SUPPORT. Which parts of the state the operations of Machine/TwinFrames.lean may change. -/
namespace Sys2Proof.Laws
open Sys2Proof Sys2Proof.Machine

set_option linter.unreachableTactic false
set_option linter.unusedTactic false

set_option linter.unusedSimpArgs false

theorem rest_receive {L : List Part} (hL : sub [.now, .twin, .power, .ctr] L = true) (s : State) (h : FrameHead) (cyc : Nat) (wantsAck : Bool) (f : State → State) (hg : ∀ t, rest L (f t) = rest L t) :
    rest L (receive s h cyc wantsAck f) = rest L s := by
  unfold receive
  repeat' (first | with_reducible rfl | simp (disch := (first | exact sub_trans (by decide) hL | exact Or.inl (has_of_sub hL (by decide)) | exact Or.inr rfl | exact Or.inr fun _ => rfl | (refine Or.inr ?_; intros; repeat' (first | rfl | split)))) only [↓rest_sendFrame, ↓rest_twinTime, ↓rest_updTwin, ↓rest_mk, ↓rest_ite, ite_self] | (with_reducible refine (hg _).trans ?_) | (with_reducible refine (hg _ _).trans ?_) | (with_reducible refine (rest_updTwin (sub_trans (by decide) hL) _ _ (.inr ?_)).trans ?_) | (intro; rfl) | split | (intro; split) | rfl)

theorem rest_heardByActive {L : List Part} (hL : sub [.cond, .ctxs, .errSeq, .condFrom, .ports, .media, .jrnl, .twin, .kf, .kfMem] L = true) (s : State) (role : Role) :
    rest L (heardByActive s role) = rest L s := by
  unfold heardByActive
  repeat' (first | with_reducible exact none_imp | (with_reducible refine rest_or _ _ ?_ ?_) | (with_reducible refine rest_some ?_) | (with_reducible refine rest_some1 ?_) | (with_reducible refine rest_map _ _ (fun x hx => ?_)) | (with_reducible refine rest_map1 _ _ (fun x hx => ?_)) | (with_reducible refine bind_imp _ _ (fun x hx => ?_)) | (with_reducible refine findSome_imp _ _ (fun x => ?_)) | with_reducible rfl | simp (disch := (first | exact sub_trans (by decide) hL | exact Or.inl (has_of_sub hL (by decide)) | exact Or.inr rfl | exact Or.inr fun _ => rfl | (refine Or.inr ?_; intros; repeat' (first | rfl | split)))) only [↓rest_goAlone, ↓rest_performState, ↓rest_startSync, ↓rest_updTwin, ↓rest_mk, ↓rest_ite, ite_self] | (with_reducible refine (rest_getD _ _ (fun u => ?_)).trans ?_) | (with_reducible refine (rest_updTwin (sub_trans (by decide) hL) _ _ (.inr ?_)).trans ?_) | (intro; rfl) | split | (intro; split) | rfl)

theorem rest_execFrameHeartbeat {L : List Part} (hL : sub [.now, .cond, .out, .ctxs, .errSeq, .evSeq, .evHist, .raised, .condFrom, .ports, .map, .eng, .media, .jrnl, .twin, .kf, .kfMem, .power, .ctr] L = true) (h : FrameHead) (role : Role) (cond : Half) (pins : BitVec 6) (aet : Dword) (csnLast jseq : Nat) (cyc : Nat) (s : State) :
    ∃ tv, execFrameHeartbeat h role cond pins aet csnLast jseq cyc s = .next tv ∧ rest L tv = rest L s := by
  unfold execFrameHeartbeat
  repeat' (first | (refine ⟨_, rfl, ?_⟩) | with_reducible rfl | simp (disch := (first | exact sub_trans (by decide) hL | exact Or.inl (has_of_sub hL (by decide)) | exact Or.inr rfl | exact Or.inr fun _ => rfl | (refine Or.inr ?_; intros; repeat' (first | rfl | split)))) only [↓rest_endCycle, ↓rest_heardByActive, ↓rest_settlePairing, ↓rest_updTwin, ↓rest_mk, ↓rest_ite, ite_self] | (with_reducible refine (rest_receive (sub_trans (by decide) hL) _ _ _ _ _ (fun t => ?_)).trans ?_) | (with_reducible refine (rest_updTwin (sub_trans (by decide) hL) _ _ (.inr ?_)).trans ?_) | (intro; rfl) | split | (intro; split) | rfl)

theorem rest_execFrameFailing {L : List Part} (hL : sub [.now, .cond, .out, .ctxs, .errSeq, .evSeq, .evHist, .raised, .condFrom, .ports, .media, .jrnl, .twin, .kf, .kfMem, .power, .ctr] L = true) (h : FrameHead) (cond : Half) (cyc : Nat) (s : State) :
    ∃ tv, execFrameFailing h cond cyc s = .next tv ∧ rest L tv = rest L s := by
  unfold execFrameFailing
  repeat' (first | (refine ⟨_, rfl, ?_⟩) | with_reducible rfl | simp (disch := (first | exact sub_trans (by decide) hL | exact Or.inl (has_of_sub hL (by decide)) | exact Or.inr rfl | exact Or.inr fun _ => rfl | (refine Or.inr ?_; intros; repeat' (first | rfl | split)))) only [↓rest_endCycle, ↓rest_goAlone, ↓rest_raiseEvent, ↓rest_updTwin, ↓rest_mk, ↓rest_ite, ite_self] | (with_reducible refine (rest_receive (sub_trans (by decide) hL) _ _ _ _ _ (fun t => ?_)).trans ?_) | (with_reducible refine (rest_updTwin (sub_trans (by decide) hL) _ _ (.inr ?_)).trans ?_) | (intro; rfl) | split | (intro; split) | rfl)

theorem rest_settleSyncEnd {L : List Part} (hL : sub [.cond, .condFrom, .twin] L = true) (s : State) (n : Nat) :
    rest L (settleSyncEnd s n) = rest L s := by
  unfold settleSyncEnd
  repeat' (first | with_reducible rfl | simp (disch := (first | exact sub_trans (by decide) hL | exact Or.inl (has_of_sub hL (by decide)) | exact Or.inr rfl | exact Or.inr fun _ => rfl | (refine Or.inr ?_; intros; repeat' (first | rfl | split)))) only [↓rest_setFlags, ↓rest_updTwin, ↓rest_mk, ↓rest_ite, ite_self] | (with_reducible refine (rest_updTwin (sub_trans (by decide) hL) _ _ (.inr ?_)).trans ?_) | (intro; rfl) | split | (intro; split) | rfl)

theorem rest_settleHandOver {L : List Part} (hL : sub [.cond, .out, .ctxs, .raised, .condFrom, .ports, .map, .eng, .media, .jrnl, .twin, .dig, .kf, .ctr] L = true) (s : State) (n : Nat) :
    rest L (settleHandOver s n) = rest L s := by
  unfold settleHandOver
  repeat' (first | with_reducible rfl | simp (disch := (first | exact sub_trans (by decide) hL | exact Or.inl (has_of_sub hL (by decide)) | exact Or.inr rfl | exact Or.inr fun _ => rfl | (refine Or.inr ?_; intros; repeat' (first | rfl | split)))) only [↓rest_handOverDone, ↓rest_mk, ↓rest_ite, ite_self] | (intro; rfl) | split | (intro; split) | rfl)

theorem rest_execFrameAck {L : List Part} (hL : sub [.now, .cond, .out, .ctxs, .evSeq, .evHist, .raised, .condFrom, .ports, .map, .eng, .media, .jrnl, .twin, .dig, .kf, .kfMem, .power, .ctr] L = true) (crcOk : Bool) (fseq : Nat) (cyc : Nat) (s : State) :
    ∃ tv, execFrameAck crcOk fseq cyc s = .next tv ∧ rest L tv = rest L s := by
  unfold execFrameAck
  repeat' (first | (refine ⟨_, rfl, ?_⟩) | with_reducible rfl | simp (disch := (first | exact sub_trans (by decide) hL | exact Or.inl (has_of_sub hL (by decide)) | exact Or.inr rfl | exact Or.inr fun _ => rfl | (refine Or.inr ?_; intros; repeat' (first | rfl | split)))) only [↓rest_endCycle, ↓rest_markDurable, ↓rest_settleHandOver, ↓rest_settleStand, ↓rest_settleSyncEnd, ↓rest_twinTime, ↓rest_updTwin, ↓rest_mk, ↓rest_ite, ite_self] | (with_reducible refine (rest_updTwin (sub_trans (by decide) hL) _ _ (.inr ?_)).trans ?_) | (intro; rfl) | split | (intro; split) | rfl)

theorem rest_updMirrorQueue {L : List Part} (hL : sub [.twin] L = true) (s : State) (p : Port) (q : Nat) (f : Queue → Queue) :
    rest L (updMirrorQueue s p q f) = rest L s := by
  unfold updMirrorQueue
  repeat' (first | with_reducible rfl | simp (disch := (first | exact sub_trans (by decide) hL | exact Or.inl (has_of_sub hL (by decide)) | exact Or.inr rfl | exact Or.inr fun _ => rfl | (refine Or.inr ?_; intros; repeat' (first | rfl | split)))) only [↓rest_updTwin, ↓rest_mk, ↓rest_ite, ite_self] | (with_reducible refine (rest_updTwin (sub_trans (by decide) hL) _ _ (.inr ?_)).trans ?_) | (intro; rfl) | split | (intro; split) | rfl)

theorem rest_putMirrorQueue {L : List Part} (hL : sub [.twin] L = true) (s : State) (i : QueueImage) :
    rest L (putMirrorQueue s i) = rest L s := by
  unfold putMirrorQueue
  repeat' (first | with_reducible rfl | simp (disch := (first | exact sub_trans (by decide) hL | exact Or.inl (has_of_sub hL (by decide)) | exact Or.inr rfl | exact Or.inr fun _ => rfl | (refine Or.inr ?_; intros; repeat' (first | rfl | split)))) only [↓rest_updTwin, ↓rest_mk, ↓rest_ite, ite_self] | (with_reducible refine (rest_updTwin (sub_trans (by decide) hL) _ _ (.inr ?_)).trans ?_) | (intro; rfl) | split | (intro; split) | rfl)

theorem rest_mirrorSlot {L : List Part} (hL : sub [.twin] L = true) (s : State) (a : AdmSlot) :
    rest L (mirrorSlot s a) = rest L s := by
  unfold mirrorSlot
  repeat' (first | with_reducible rfl | simp (disch := (first | exact sub_trans (by decide) hL | exact Or.inl (has_of_sub hL (by decide)) | exact Or.inr rfl | exact Or.inr fun _ => rfl | (refine Or.inr ?_; intros; repeat' (first | rfl | split)))) only [↓rest_updMirrorQueue, ↓rest_updTwin, ↓rest_mk, ↓rest_ite, ite_self] | (with_reducible refine (rest_updTwin (sub_trans (by decide) hL) _ _ (.inr ?_)).trans ?_) | (intro; rfl) | split | (intro; split) | rfl)

theorem rest_execFrameAdmit {L : List Part} (hL : sub [.now, .twin, .power, .ctr] L = true) (h : FrameHead) (slots : List AdmSlot) (cyc : Nat) (s : State) :
    ∃ tv, execFrameAdmit h slots cyc s = .next tv ∧ rest L tv = rest L s := by
  unfold execFrameAdmit
  repeat' (first | (refine ⟨_, rfl, ?_⟩) | with_reducible rfl | (with_reducible refine (rest_foldl _ (fun t x => ?_) _ _).trans ?_) | simp (disch := (first | exact sub_trans (by decide) hL | exact Or.inl (has_of_sub hL (by decide)) | exact Or.inr rfl | exact Or.inr fun _ => rfl | (refine Or.inr ?_; intros; repeat' (first | rfl | split)))) only [↓rest_mirrorSlot, ↓rest_mk, ↓rest_ite, ite_self] | (with_reducible refine (rest_foldl1 _ (fun t x => ?_) _ _).trans ?_) | (with_reducible refine (rest_receive (sub_trans (by decide) hL) _ _ _ _ _ (fun t => ?_)).trans ?_) | (intro; rfl) | split | (intro; split) | rfl)

theorem rest_markPerformed {L : List Part} (hL : sub [.twin] L = true) (s : State) (csn : Nat) (status : Half) (r0 r1 : Word) :
    rest L (markPerformed s csn status r0 r1) = rest L s := by
  unfold markPerformed
  repeat' (first | with_reducible rfl | simp (disch := (first | exact sub_trans (by decide) hL | exact Or.inl (has_of_sub hL (by decide)) | exact Or.inr rfl | exact Or.inr fun _ => rfl | (refine Or.inr ?_; intros; repeat' (first | rfl | split)))) only [↓rest_updTwin, ↓rest_mk, ↓rest_ite, ite_self] | (with_reducible refine (rest_updTwin (sub_trans (by decide) hL) _ _ (.inr ?_)).trans ?_) | (intro; rfl) | split | (intro; split) | rfl)

theorem rest_learnRecord {L : List Part} (hL : sub [.media, .jrnl, .twin] L = true) (s : State) (r : StagedRec) :
    rest L (learnRecord s r) = rest L s := by
  unfold learnRecord
  repeat' (first | with_reducible exact none_imp | (with_reducible refine rest_or _ _ ?_ ?_) | (with_reducible refine rest_some ?_) | (with_reducible refine rest_some1 ?_) | (with_reducible refine rest_map _ _ (fun x hx => ?_)) | (with_reducible refine rest_map1 _ _ (fun x hx => ?_)) | (with_reducible refine bind_imp _ _ (fun x hx => ?_)) | (with_reducible refine findSome_imp _ _ (fun x => ?_)) | with_reducible rfl | simp (disch := (first | exact sub_trans (by decide) hL | exact Or.inl (has_of_sub hL (by decide)) | exact Or.inr rfl | exact Or.inr fun _ => rfl | (refine Or.inr ?_; intros; repeat' (first | rfl | split)))) only [↓rest_applyBayRecs, ↓rest_updJrnl, ↓rest_updMedia, ↓rest_updTwin, ↓rest_mk, ↓rest_ite, ite_self] | (with_reducible refine (rest_getD _ _ (fun u => ?_)).trans ?_) | (with_reducible refine (rest_updTwin (sub_trans (by decide) hL) _ _ (.inr ?_)).trans ?_) | (intro; rfl) | split | (intro; split) | rfl)

theorem rest_mirrorRecord {L : List Part} (hL : sub [.map, .media, .jrnl, .twin] L = true) (s : State) (r : StagedRec) :
    rest L (mirrorRecord s r) = rest L s := by
  unfold mirrorRecord
  repeat' (first | with_reducible exact none_imp | (with_reducible refine rest_or _ _ ?_ ?_) | (with_reducible refine rest_some ?_) | (with_reducible refine rest_some1 ?_) | (with_reducible refine rest_map _ _ (fun x hx => ?_)) | (with_reducible refine rest_map1 _ _ (fun x hx => ?_)) | (with_reducible refine bind_imp _ _ (fun x hx => ?_)) | (with_reducible refine findSome_imp _ _ (fun x => ?_)) | with_reducible rfl | simp (disch := (first | exact sub_trans (by decide) hL | exact Or.inl (has_of_sub hL (by decide)) | exact Or.inr rfl | exact Or.inr fun _ => rfl | (refine Or.inr ?_; intros; repeat' (first | rfl | split)))) only [↓rest_learnRecord, ↓rest_markPerformed, ↓rest_updJrnl, ↓rest_updMap, ↓rest_mk, ↓rest_ite, ite_self] | (with_reducible refine (rest_getD _ _ (fun u => ?_)).trans ?_) | (intro; rfl) | split | (intro; split) | rfl)

theorem rest_execFrameJournal {L : List Part} (hL : sub [.now, .map, .media, .jrnl, .twin, .power, .ctr] L = true) (h : FrameHead) (recs : List StagedRec) (cyc : Nat) (s : State) :
    ∃ tv, execFrameJournal h recs cyc s = .next tv ∧ rest L tv = rest L s := by
  unfold execFrameJournal
  repeat' (first | (refine ⟨_, rfl, ?_⟩) | with_reducible rfl | (with_reducible refine (rest_foldl _ (fun t x => ?_) _ _).trans ?_) | simp (disch := (first | exact sub_trans (by decide) hL | exact Or.inl (has_of_sub hL (by decide)) | exact Or.inr rfl | exact Or.inr fun _ => rfl | (refine Or.inr ?_; intros; repeat' (first | rfl | split)))) only [↓rest_mirrorRecord, ↓rest_mk, ↓rest_ite, ite_self] | (with_reducible refine (rest_foldl1 _ (fun t x => ?_) _ _).trans ?_) | (with_reducible refine (rest_receive (sub_trans (by decide) hL) _ _ _ _ _ (fun t => ?_)).trans ?_) | (intro; rfl) | split | (intro; split) | rfl)

theorem rest_applyDeviceFeature {L : List Part} (hL : sub [.cad, .feat, .media] L = true) (s : State) (f : Nat) (w : Nat → Nat) :
    rest L (applyDeviceFeature s f w) = rest L s := by
  unfold applyDeviceFeature
  repeat' (first | with_reducible rfl | simp (disch := (first | exact sub_trans (by decide) hL | exact Or.inl (has_of_sub hL (by decide)) | exact Or.inr rfl | exact Or.inr fun _ => rfl | (refine Or.inr ?_; intros; repeat' (first | rfl | split)))) only [↓rest_applyJournalInterval, ↓rest_applyPatrolCycle, ↓rest_applyTimers, ↓rest_submitSet, ↓rest_updCad, ↓rest_mk, ↓rest_ite, ite_self] | (with_reducible refine (rest_updCad (sub_trans (by decide) hL) _ _ (.inr ?_)).trans ?_) | (intro; rfl) | split | (intro; split) | rfl)

theorem rest_mirrorFeature {L : List Part} (hL : sub [.cad, .feat, .media, .twin, .kf] L = true) (s : State) (x : Nat × List Word) :
    rest L (mirrorFeature s x) = rest L s := by
  unfold mirrorFeature
  repeat' (first | with_reducible exact none_imp | (with_reducible refine rest_or _ _ ?_ ?_) | (with_reducible refine rest_some ?_) | (with_reducible refine rest_some1 ?_) | (with_reducible refine rest_map _ _ (fun x hx => ?_)) | (with_reducible refine rest_map1 _ _ (fun x hx => ?_)) | (with_reducible refine bind_imp _ _ (fun x hx => ?_)) | (with_reducible refine findSome_imp _ _ (fun x => ?_)) | with_reducible rfl | simp (disch := (first | exact sub_trans (by decide) hL | exact Or.inl (has_of_sub hL (by decide)) | exact Or.inr rfl | exact Or.inr fun _ => rfl | (refine Or.inr ?_; intros; repeat' (first | rfl | split)))) only [↓rest_applyDeviceFeature, ↓rest_updMirrorQueue, ↓rest_updKf, ↓rest_updTwin, ↓rest_mk, ↓rest_ite, ite_self] | (with_reducible refine (rest_getD _ _ (fun u => ?_)).trans ?_) | (with_reducible refine (rest_updKf (sub_trans (by decide) hL) _ _ (.inr ?_) (.inr ?_)).trans ?_) | (with_reducible refine (rest_updTwin (sub_trans (by decide) hL) _ _ (.inr ?_)).trans ?_) | (intro; rfl) | split | (intro; split) | rfl)

theorem rest_clearLog {L : List Part} (hL : sub [.ports] L = true) (s : State) (p : Port) :
    rest L (clearLog s p) = rest L s := by
  unfold clearLog
  repeat' (first | with_reducible rfl | simp (disch := (first | exact sub_trans (by decide) hL | exact Or.inl (has_of_sub hL (by decide)) | exact Or.inr rfl | exact Or.inr fun _ => rfl | (refine Or.inr ?_; intros; repeat' (first | rfl | split)))) only [↓rest_updPort, ↓rest_mk, ↓rest_ite, ite_self] | (with_reducible refine (rest_updPort (sub_trans (by decide) hL) _ _ _ (.inr ?_)).trans ?_) | (intro; rfl) | split | (intro; split) | rfl)

theorem rest_unpaired {L : List Part} (hL : sub [.raised, .twin] L = true) (s : State) :
    rest L (unpaired s) = rest L s := by
  unfold unpaired
  repeat' (first | with_reducible rfl | simp (disch := (first | exact sub_trans (by decide) hL | exact Or.inl (has_of_sub hL (by decide)) | exact Or.inr rfl | exact Or.inr fun _ => rfl | (refine Or.inr ?_; intros; repeat' (first | rfl | split)))) only [↓rest_clearMirror, ↓rest_setRole, ↓rest_updTwin, ↓rest_mk, ↓rest_ite, ite_self] | (with_reducible refine (rest_updTwin (sub_trans (by decide) hL) _ _ (.inr ?_)).trans ?_) | (intro; rfl) | split | (intro; split) | rfl)

theorem rest_mirrorState {L : List Part} (hL : sub [.ports, .cad, .feat, .media, .twin, .kf] L = true) (s : State) (r : StateRef) :
    rest L (mirrorState s r) = rest L s := by
  unfold mirrorState
  repeat' (first | with_reducible rfl | simp (disch := (first | exact sub_trans (by decide) hL | exact Or.inl (has_of_sub hL (by decide)) | exact Or.inr rfl | exact Or.inr fun _ => rfl | (refine Or.inr ?_; intros; repeat' (first | rfl | split)))) only [↓rest_clearLog, ↓rest_markPerformed, ↓rest_mirrorFeature, ↓rest_putMirrorQueue, ↓rest_updTwin, ↓rest_mk, ↓rest_ite, ite_self] | (with_reducible refine (rest_updTwin (sub_trans (by decide) hL) _ _ (.inr ?_)).trans ?_) | (intro; rfl) | split | (intro; split) | rfl)

theorem rest_execFrameState {L : List Part} (hL : sub [.now, .out, .evSeq, .evHist, .raised, .condFrom, .ports, .cad, .feat, .media, .twin, .kf, .power, .ctr] L = true) (h : FrameHead) (r : StateRef) (cyc : Nat) (s : State) :
    ∃ tv, execFrameState h r cyc s = .next tv ∧ rest L tv = rest L s := by
  unfold execFrameState
  repeat' (first | (refine ⟨_, rfl, ?_⟩) | with_reducible rfl | simp (disch := (first | exact sub_trans (by decide) hL | exact Or.inl (has_of_sub hL (by decide)) | exact Or.inr rfl | exact Or.inr fun _ => rfl | (refine Or.inr ?_; intros; repeat' (first | rfl | split)))) only [↓rest_endCycle, ↓rest_mirrorState, ↓rest_unpaired, ↓rest_mk, ↓rest_ite, ite_self] | (with_reducible refine (rest_receive (sub_trans (by decide) hL) _ _ _ _ _ (fun t => ?_)).trans ?_) | (intro; rfl) | split | (intro; split) | rfl)

theorem rest_mirrorPosted {L : List Part} (hL : sub [.twin] L = true) (s : State) (e : PostedRef) :
    rest L (mirrorPosted s e) = rest L s := by
  unfold mirrorPosted
  repeat' (first | with_reducible rfl | simp (disch := (first | exact sub_trans (by decide) hL | exact Or.inl (has_of_sub hL (by decide)) | exact Or.inr rfl | exact Or.inr fun _ => rfl | (refine Or.inr ?_; intros; repeat' (first | rfl | split)))) only [↓rest_updMirrorQueue, ↓rest_updTwin, ↓rest_mk, ↓rest_ite, ite_self] | (with_reducible refine (rest_updTwin (sub_trans (by decide) hL) _ _ (.inr ?_)).trans ?_) | (intro; rfl) | split | (intro; split) | rfl)

theorem rest_execFrameComplete {L : List Part} (hL : sub [.now, .twin, .power, .ctr] L = true) (h : FrameHead) (ps : List PostedRef) (cyc : Nat) (s : State) :
    ∃ tv, execFrameComplete h ps cyc s = .next tv ∧ rest L tv = rest L s := by
  unfold execFrameComplete
  repeat' (first | (refine ⟨_, rfl, ?_⟩) | with_reducible rfl | (with_reducible refine (rest_foldl _ (fun t x => ?_) _ _).trans ?_) | simp (disch := (first | exact sub_trans (by decide) hL | exact Or.inl (has_of_sub hL (by decide)) | exact Or.inr rfl | exact Or.inr fun _ => rfl | (refine Or.inr ?_; intros; repeat' (first | rfl | split)))) only [↓rest_mirrorPosted, ↓rest_mk, ↓rest_ite, ite_self] | (with_reducible refine (rest_foldl1 _ (fun t x => ?_) _ _).trans ?_) | (with_reducible refine (rest_receive (sub_trans (by decide) hL) _ _ _ _ _ (fun t => ?_)).trans ?_) | (intro; rfl) | split | (intro; split) | rfl)

theorem rest_mirrorBell {L : List Part} (hL : sub [.twin] L = true) (s : State) (d : DoorbellRef) :
    rest L (mirrorBell s d) = rest L s := by
  unfold mirrorBell
  repeat' (first | with_reducible rfl | simp (disch := (first | exact sub_trans (by decide) hL | exact Or.inl (has_of_sub hL (by decide)) | exact Or.inr rfl | exact Or.inr fun _ => rfl | (refine Or.inr ?_; intros; repeat' (first | rfl | split)))) only [↓rest_updMirrorQueue, ↓rest_mk, ↓rest_ite, ite_self] | (intro; rfl) | split | (intro; split) | rfl)

theorem rest_execFrameDoorbell {L : List Part} (hL : sub [.now, .twin, .power, .ctr] L = true) (h : FrameHead) (ds : List DoorbellRef) (cyc : Nat) (s : State) :
    ∃ tv, execFrameDoorbell h ds cyc s = .next tv ∧ rest L tv = rest L s := by
  unfold execFrameDoorbell
  repeat' (first | (refine ⟨_, rfl, ?_⟩) | with_reducible rfl | (with_reducible refine (rest_foldl _ (fun t x => ?_) _ _).trans ?_) | simp (disch := (first | exact sub_trans (by decide) hL | exact Or.inl (has_of_sub hL (by decide)) | exact Or.inr rfl | exact Or.inr fun _ => rfl | (refine Or.inr ?_; intros; repeat' (first | rfl | split)))) only [↓rest_mirrorBell, ↓rest_mk, ↓rest_ite, ite_self] | (with_reducible refine (rest_foldl1 _ (fun t x => ?_) _ _).trans ?_) | (with_reducible refine (rest_receive (sub_trans (by decide) hL) _ _ _ _ _ (fun t => ?_)).trans ?_) | (intro; rfl) | split | (intro; split) | rfl)

theorem rest_execFrameFrontier {L : List Part} (hL : sub [.now, .twin, .power, .ctr] L = true) (h : FrameHead) (es : List SjEntry) (cyc : Nat) (s : State) :
    ∃ tv, execFrameFrontier h es cyc s = .next tv ∧ rest L tv = rest L s := by
  unfold execFrameFrontier
  repeat' (first | (refine ⟨_, rfl, ?_⟩) | with_reducible rfl | simp (disch := (first | exact sub_trans (by decide) hL | exact Or.inl (has_of_sub hL (by decide)) | exact Or.inr rfl | exact Or.inr fun _ => rfl | (refine Or.inr ?_; intros; repeat' (first | rfl | split)))) only [↓rest_updTwin, ↓rest_mk, ↓rest_ite, ite_self] | (with_reducible refine (rest_receive (sub_trans (by decide) hL) _ _ _ _ _ (fun t => ?_)).trans ?_) | (with_reducible refine (rest_updTwin (sub_trans (by decide) hL) _ _ (.inr ?_)).trans ?_) | (intro; rfl) | split | (intro; split) | rfl)

theorem rest_execFrameStop {L : List Part} (hL : sub [.now, .jrnl, .twin, .kf, .kfMem, .power, .ctr] L = true) (h : FrameHead) (r : StopRec) (cyc : Nat) (s : State) :
    ∃ tv, execFrameStop h r cyc s = .next tv ∧ rest L tv = rest L s := by
  unfold execFrameStop
  repeat' (first | (refine ⟨_, rfl, ?_⟩) | with_reducible rfl | simp (disch := (first | exact sub_trans (by decide) hL | exact Or.inl (has_of_sub hL (by decide)) | exact Or.inr rfl | exact Or.inr fun _ => rfl | (refine Or.inr ?_; intros; repeat' (first | rfl | split)))) only [↓rest_keepStop, ↓rest_updTwin, ↓rest_mk, ↓rest_ite, ite_self] | (with_reducible refine (rest_receive (sub_trans (by decide) hL) _ _ _ _ _ (fun t => ?_)).trans ?_) | (with_reducible refine (rest_updTwin (sub_trans (by decide) hL) _ _ (.inr ?_)).trans ?_) | (intro; rfl) | split | (intro; split) | rfl)

theorem rest_execFrameHandOver {L : List Part} (hL : sub [.now, .twin, .power, .ctr] L = true) (h : FrameHead) (sets : List (Nat × Nat)) (cyc : Nat) (s : State) :
    ∃ tv, execFrameHandOver h sets cyc s = .next tv ∧ rest L tv = rest L s := by
  unfold execFrameHandOver
  repeat' (first | (refine ⟨_, rfl, ?_⟩) | with_reducible rfl | simp (disch := (first | exact sub_trans (by decide) hL | exact Or.inl (has_of_sub hL (by decide)) | exact Or.inr rfl | exact Or.inr fun _ => rfl | (refine Or.inr ?_; intros; repeat' (first | rfl | split)))) only [↓rest_updTwin, ↓rest_mk, ↓rest_ite, ite_self] | (with_reducible refine (rest_receive (sub_trans (by decide) hL) _ _ _ _ _ (fun t => ?_)).trans ?_) | (with_reducible refine (rest_updTwin (sub_trans (by decide) hL) _ _ (.inr ?_)).trans ?_) | (intro; rfl) | split | (intro; split) | rfl)

theorem rest_applyPiece {L : List Part} (hL : sub [.ports, .cad, .feat, .map, .media, .twin, .kf] L = true) (s : State) (p : SyncPiece) :
    rest L (applyPiece s p) = rest L s := by
  unfold applyPiece
  repeat' (first | with_reducible rfl | (with_reducible refine (rest_foldl _ (fun t x => ?_) _ _).trans ?_) | simp (disch := (first | exact sub_trans (by decide) hL | exact Or.inl (has_of_sub hL (by decide)) | exact Or.inr rfl | exact Or.inr fun _ => rfl | (refine Or.inr ?_; intros; repeat' (first | rfl | split)))) only [↓rest_mirrorFeature, ↓rest_putMirrorQueue, ↓rest_updMap, ↓rest_updPort, ↓rest_updTwin, ↓rest_mk, ↓rest_ite, ite_self] | (with_reducible refine (rest_foldl1 _ (fun t x => ?_) _ _).trans ?_) | (with_reducible refine (rest_updPort (sub_trans (by decide) hL) _ _ _ (.inr ?_)).trans ?_) | (with_reducible refine (rest_updTwin (sub_trans (by decide) hL) _ _ (.inr ?_)).trans ?_) | (intro; rfl) | split | (intro; split) | rfl)

theorem rest_execFrameSyncPiece {L : List Part} (hL : sub [.now, .ports, .cad, .feat, .map, .media, .twin, .kf, .power, .ctr] L = true) (h : FrameHead) (piece : SyncPiece) (capture : Nat) (cyc : Nat) (s : State) :
    ∃ tv, execFrameSyncPiece h piece capture cyc s = .next tv ∧ rest L tv = rest L s := by
  unfold execFrameSyncPiece
  repeat' (first | (refine ⟨_, rfl, ?_⟩) | with_reducible rfl | simp (disch := (first | exact sub_trans (by decide) hL | exact Or.inl (has_of_sub hL (by decide)) | exact Or.inr rfl | exact Or.inr fun _ => rfl | (refine Or.inr ?_; intros; repeat' (first | rfl | split)))) only [↓rest_applyPiece, ↓rest_updTwin, ↓rest_mk, ↓rest_ite, ite_self] | (with_reducible refine (rest_receive (sub_trans (by decide) hL) _ _ _ _ _ (fun t => ?_)).trans ?_) | (with_reducible refine (rest_updTwin (sub_trans (by decide) hL) _ _ (.inr ?_)).trans ?_) | (intro; rfl) | split | (intro; split) | rfl)

theorem rest_completeCopy {L : List Part} (hL : sub [.jrnl, .twin] L = true) (s : State) (csnLast : Nat) :
    rest L (completeCopy s csnLast) = rest L s := by
  unfold completeCopy
  repeat' (first | with_reducible rfl | simp (disch := (first | exact sub_trans (by decide) hL | exact Or.inl (has_of_sub hL (by decide)) | exact Or.inr rfl | exact Or.inr fun _ => rfl | (refine Or.inr ?_; intros; repeat' (first | rfl | split)))) only [↓rest_updJrnl, ↓rest_updTwin, ↓rest_mk, ↓rest_ite, ite_self] | (with_reducible refine (rest_updTwin (sub_trans (by decide) hL) _ _ (.inr ?_)).trans ?_) | (intro; rfl) | split | (intro; split) | rfl)

theorem rest_execFrameSyncEnd {L : List Part} (hL : sub [.now, .out, .evSeq, .evHist, .raised, .condFrom, .ports, .jrnl, .twin, .power, .ctr] L = true) (h : FrameHead) (csnLast : Nat) (cyc : Nat) (s : State) :
    ∃ tv, execFrameSyncEnd h csnLast cyc s = .next tv ∧ rest L tv = rest L s := by
  unfold execFrameSyncEnd
  repeat' (first | (refine ⟨_, rfl, ?_⟩) | with_reducible rfl | simp (disch := (first | exact sub_trans (by decide) hL | exact Or.inl (has_of_sub hL (by decide)) | exact Or.inr rfl | exact Or.inr fun _ => rfl | (refine Or.inr ?_; intros; repeat' (first | rfl | split)))) only [↓rest_completeCopy, ↓rest_endCycle, ↓rest_setRole, ↓rest_mk, ↓rest_ite, ite_self] | (with_reducible refine (rest_receive (sub_trans (by decide) hL) _ _ _ _ _ (fun t => ?_)).trans ?_) | (intro; rfl) | split | (intro; split) | rfl)

theorem rest_execFramePairHello {L : List Part} (hL : sub [.now, .out, .evSeq, .evHist, .raised, .condFrom, .ports, .map, .eng, .media, .jrnl, .twin, .power, .ctr] L = true) (h : FrameHead) (hello : PairHello) (cyc : Nat) (s : State) :
    ∃ tv, execFramePairHello h hello cyc s = .next tv ∧ rest L tv = rest L s := by
  unfold execFramePairHello
  repeat' (first | (refine ⟨_, rfl, ?_⟩) | with_reducible rfl | simp (disch := (first | exact sub_trans (by decide) hL | exact Or.inl (has_of_sub hL (by decide)) | exact Or.inr rfl | exact Or.inr fun _ => rfl | (refine Or.inr ?_; intros; repeat' (first | rfl | split)))) only [↓rest_endCycle, ↓rest_raiseEvent, ↓rest_settlePairing, ↓rest_updTwin, ↓rest_mk, ↓rest_ite, ite_self] | (with_reducible refine (rest_receive (sub_trans (by decide) hL) _ _ _ _ _ (fun t => ?_)).trans ?_) | (with_reducible refine (rest_updTwin (sub_trans (by decide) hL) _ _ (.inr ?_)).trans ?_) | (intro; rfl) | split | (intro; split) | rfl)

theorem rest_pairingDone {L : List Part} (hL : sub [.raised, .map, .eng, .media, .jrnl, .twin] L = true) (s : State) (n : Nat) (point : List Byte) (h : PairHello) :
    rest L (pairingDone s n point h) = rest L s := by
  unfold pairingDone
  repeat' (first | with_reducible rfl | simp (disch := (first | exact sub_trans (by decide) hL | exact Or.inl (has_of_sub hL (by decide)) | exact Or.inr rfl | exact Or.inr fun _ => rfl | (refine Or.inr ?_; intros; repeat' (first | rfl | split)))) only [↓rest_beginSyncing, ↓rest_updTwin, ↓rest_mk, ↓rest_ite, ite_self] | (with_reducible refine (rest_updTwin (sub_trans (by decide) hL) _ _ (.inr ?_)).trans ?_) | (intro; rfl) | split | (intro; split) | rfl)

theorem rest_execFramePairKey {L : List Part} (hL : sub [.now, .twin, .power, .ctr] L = true) (h : FrameHead) (point : List Byte) (cyc : Nat) (s : State) :
    ∃ tv, execFramePairKey h point cyc s = .next tv ∧ rest L tv = rest L s := by
  unfold execFramePairKey
  repeat' (first | (refine ⟨_, rfl, ?_⟩) | with_reducible rfl | simp (disch := (first | exact sub_trans (by decide) hL | exact Or.inl (has_of_sub hL (by decide)) | exact Or.inr rfl | exact Or.inr fun _ => rfl | (refine Or.inr ?_; intros; repeat' (first | rfl | split)))) only [↓rest_sendFrame, ↓rest_sendPairKey, ↓rest_updTwin, ↓rest_mk, ↓rest_ite, ite_self] | (with_reducible refine (rest_receive (sub_trans (by decide) hL) _ _ _ _ _ (fun t => ?_)).trans ?_) | (with_reducible refine (rest_updTwin (sub_trans (by decide) hL) _ _ (.inr ?_)).trans ?_) | (intro; rfl) | split | (intro; split) | rfl)

theorem rest_execFramePairConfirm {L : List Part} (hL : sub [.now, .out, .ctxs, .errSeq, .evSeq, .evHist, .raised, .condFrom, .ports, .map, .eng, .media, .jrnl, .twin, .power, .ctr] L = true) (h : FrameHead) (bytes : List Byte) (cyc : Nat) (s : State) :
    ∃ tv, execFramePairConfirm h bytes cyc s = .next tv ∧ rest L tv = rest L s := by
  unfold execFramePairConfirm
  repeat' (first | (refine ⟨_, rfl, ?_⟩) | with_reducible rfl | simp (disch := (first | exact sub_trans (by decide) hL | exact Or.inl (has_of_sub hL (by decide)) | exact Or.inr rfl | exact Or.inr fun _ => rfl | (refine Or.inr ?_; intros; repeat' (first | rfl | split)))) only [↓rest_endCycle, ↓rest_pairingDone, ↓rest_refuseWaiting, ↓rest_updTwin, ↓rest_mk, ↓rest_ite, ite_self] | (with_reducible refine (rest_receive (sub_trans (by decide) hL) _ _ _ _ _ (fun t => ?_)).trans ?_) | (with_reducible refine (rest_updTwin (sub_trans (by decide) hL) _ _ (.inr ?_)).trans ?_) | (intro; rfl) | split | (intro; split) | rfl)

end Sys2Proof.Laws
end

