-- ==== Sys2Proof/Laws/Memory.lean ====
section
/-! SUPPORT. Laws of the keeper flash memory: every operation keeps its canonical form, a byte reads as it was last written, and every other
byte stays. -/
namespace Sys2Proof.Laws
open Sys2Proof Sys2Proof.Machine

/-- Every entry is at or above an address. -/
def above (a : Nat) (m : List Host.Cell) : Prop := ∀ c ∈ m, a ≤ c.1

theorem memWf_tail {c : Host.Cell} {m : List Host.Cell} (h : memWf (c :: m) = true) : memWf m = true ∧ above (c.1 + 1) m ∧ c.2 ≠ memDefault := by
  induction m generalizing c with
  | nil => exact ⟨rfl, fun _ h => (nomatch h), by simpa [memWf] using h⟩
  | cons d r ih =>
    simp only [memWf, Bool.and_eq_true, bne_iff_ne, decide_eq_true_eq] at h
    obtain ⟨⟨h1, h2⟩, h3⟩ := h
    obtain ⟨-, h5, -⟩ := ih h3
    refine ⟨h3, fun x hx => ?_, h1⟩
    rcases List.mem_cons.mp hx with rfl | hx
    · omega
    · have := h5 x hx; omega

theorem memWf_cons {c : Host.Cell} {m : List Host.Cell} (h : memWf m = true) (ha : above (c.1 + 1) m) (hc : c.2 ≠ memDefault) : memWf (c :: m) = true := by
  cases m with
  | nil => simpa [memWf] using hc
  | cons d r =>
    have := ha d (by simp)
    simp only [memWf, Bool.and_eq_true, bne_iff_ne, decide_eq_true_eq]
    exact ⟨⟨hc, by omega⟩, h⟩

theorem above_le {a b : Nat} {m : List Host.Cell} (h : above b m) (hab : a ≤ b) : above a m := fun c hc => Nat.le_trans hab (h c hc)

theorem above_memWrite {n a : Nat} {b : Byte} {m : List Host.Cell} (h : above n m) (hn : n ≤ a) : above n (memWrite m a b) := by
  induction m with
  | nil =>
    unfold memWrite; split
    · exact h
    · intro c hc; rcases List.mem_singleton.mp hc with rfl; exact hn
  | cons d r ih =>
    have hd := h d (by simp)
    have hr : above n r := fun c hc => h c (List.mem_cons_of_mem _ hc)
    unfold memWrite
    split
    · split
      · exact h
      · intro c hc; rcases List.mem_cons.mp hc with rfl | hc
        · exact hn
        · exact h c hc
    · split
      · split
        · exact hr
        · intro c hc; rcases List.mem_cons.mp hc with rfl | hc
          · exact hn
          · exact hr c hc
      · intro c hc; rcases List.mem_cons.mp hc with rfl | hc
        · exact hd
        · exact ih hr c hc

/-- Writing a byte keeps the canonical form. -/
theorem memWf_memWrite {a : Nat} {b : Byte} {m : List Host.Cell} (h : memWf m = true) : memWf (memWrite m a b) = true := by
  induction m with
  | nil => unfold memWrite; split <;> simp_all [memWf]
  | cons d r ih =>
    obtain ⟨h1, h2, h3⟩ := memWf_tail h
    unfold memWrite
    split
    · split
      · exact h
      · rename_i hlt hb
        refine memWf_cons h (fun c hc => ?_) hb
        rcases List.mem_cons.mp hc with rfl | hc
        · show a + 1 ≤ _; omega
        · have := h2 c hc; show a + 1 ≤ _; omega
    · split
      · rename_i hlt he
        split
        · exact h1
        · rename_i hb
          exact memWf_cons h1 (fun c hc => by have := h2 c hc; show a + 1 ≤ _; omega) hb
      · rename_i hlt hne
        exact memWf_cons (ih h1) (above_memWrite h2 (by omega)) h3

/-- Writing bytes keeps the canonical form. -/
theorem memWf_memWriteAll {bs : List Byte} : ∀ {a : Nat} {m : List Host.Cell}, memWf m = true → memWf (memWriteAll m a bs) = true := by
  induction bs with
  | nil => intro a m h; exact h
  | cons b bs ih => intro a m h; exact ih (memWf_memWrite h)

theorem memWf_filter {f : Host.Cell → Bool} {m : List Host.Cell} (h : memWf m = true) : memWf (m.filter f) = true ∧ ∀ n, above n m → above n (m.filter f) := by
  refine ⟨?_, fun n ha c hc => ha c (List.mem_filter.mp hc).1⟩
  induction m with
  | nil => rfl
  | cons d r ih =>
    obtain ⟨h1, h2, h3⟩ := memWf_tail h
    rw [List.filter_cons]
    split
    · exact memWf_cons (ih h1) (fun c hc => h2 c (List.mem_filter.mp hc).1) h3
    · exact ih h1

/-- Erasing bytes keeps the canonical form. -/
theorem memWf_memErase {a n : Nat} {m : List Host.Cell} (h : memWf m = true) : memWf (memErase m a n) = true := (memWf_filter h).1

theorem memRead_above {a : Nat} {m : List Host.Cell} (h : above (a + 1) m) : memRead m a = memDefault := by
  induction m with
  | nil => rfl
  | cons d r ih =>
    have := h d (by simp)
    unfold memRead
    rw [if_neg (by omega)]
    exact ih (fun c hc => h c (List.mem_cons_of_mem _ hc))

/-- A byte reads as it was written; every other byte stays. -/
theorem memRead_memWrite {a : Nat} {b : Byte} {m : List Host.Cell} (h : memWf m = true) (x : Nat) :
    memRead (memWrite m a b) x = if x = a then b else memRead m x := by
  induction m with
  | nil =>
    unfold memWrite
    split
    · rename_i hb; subst hb; split <;> rfl
    · by_cases hx : x = a
      · simp [memRead, hx]
      · have : ¬ a = x := fun e => hx e.symm
        simp [memRead, hx, this]
  | cons d r ih =>
    obtain ⟨h1, h2, h3⟩ := memWf_tail h
    have hd : above (d.1) (d :: r) := by
      intro c hc; rcases List.mem_cons.mp hc with rfl | hc
      · exact Nat.le_refl _
      · have := h2 c hc; omega
    unfold memWrite
    split
    · rename_i hlt
      by_cases hx : x = a
      · subst hx
        split
        · rename_i hb; rw [if_pos rfl, hb]; exact memRead_above (above_le hd (by omega))
        · simp [memRead]
      · have hx' : ¬ a = x := fun e => hx e.symm
        rw [if_neg hx]
        split
        · rfl
        · show memRead ((a, b) :: d :: r) x = _; rw [memRead]; rw [if_neg hx']
    · rename_i hlt
      split
      · rename_i he
        by_cases hx : x = a
        · subst hx
          split
          · rename_i hb; rw [if_pos rfl, hb]; exact memRead_above (by rw [← he]; exact h2)
          · simp [memRead]
        · have hx' : ¬ a = x := fun e => hx e.symm
          have hd' : ¬ d.1 = x := by omega
          rw [if_neg hx]
          have e : memRead (d :: r) x = memRead r x := by rw [memRead]; rw [if_neg hd']
          rw [e]
          split
          · rfl
          · rw [memRead]; rw [if_neg hx']
      · rename_i hne
        by_cases hx : x = a
        · subst hx
          rw [memRead]; rw [if_neg hne, ih h1]; simp
        · rw [if_neg hx]
          rw [memRead, memRead]
          split
          · rfl
          · rw [ih h1, if_neg hx]

/-- Bytes outside those written stay. -/
theorem memRead_memWriteAll_outside {bs : List Byte} : ∀ {a : Nat} {m : List Host.Cell}, memWf m = true → ∀ x, x < a ∨ a + bs.length ≤ x →
    memRead (memWriteAll m a bs) x = memRead m x := by
  induction bs with
  | nil => intro a m _ x _; rfl
  | cons b bs ih =>
    intro a m h x hx
    simp only [List.length_cons] at hx
    rw [memWriteAll, ih (memWf_memWrite h) x (by omega), memRead_memWrite h, if_neg (by omega)]

/-- A byte written reads as the byte of its place. -/
theorem memRead_memWriteAll {bs : List Byte} : ∀ {a : Nat} {m : List Host.Cell}, memWf m = true → ∀ i, (hi : i < bs.length) →
    memRead (memWriteAll m a bs) (a + i) = bs[i] := by
  induction bs with
  | nil => intro a m _ i hi; cases hi
  | cons b bs ih =>
    intro a m h i hi
    rw [memWriteAll]
    cases i with
    | zero => rw [memRead_memWriteAll_outside (memWf_memWrite h) _ (by omega), memRead_memWrite h]; simp
    | succ i =>
      have : a + (i + 1) = a + 1 + i := by omega
      rw [this, ih (memWf_memWrite h) i (by simpa using hi)]; rfl

/-- Erased bytes read 0xFF; every other byte stays. -/
theorem memRead_memErase {a n : Nat} {m : List Host.Cell} (x : Nat) : memRead (memErase m a n) x = if a ≤ x ∧ x < a + n then memDefault else memRead m x := by
  unfold memErase
  induction m with
  | nil => split <;> rfl
  | cons d r ih =>
    rw [List.filter_cons]
    by_cases hin : a ≤ d.1 ∧ d.1 < a + n
    · rw [if_neg (by simp; omega), ih]
      split
      · rfl
      · rw [memRead]; rw [if_neg (by omega)]
    · rw [if_pos (by simp; omega), memRead, ih, memRead]
      by_cases hx : d.1 = x
      · rw [if_pos hx, if_pos hx, if_neg (by omega)]
      · rw [if_neg hx, if_neg hx]

end Sys2Proof.Laws
end

