-- ==== Sys2Proof/Laws/KfMemory.lean ====
section
/-! SUPPORT. The keeper flash records are written by memory operations alone, so every write keeps the canonical form. -/
namespace Sys2Proof.Laws
open Sys2Proof Sys2Proof.Machine

theorem memWf_ite {p : Prop} [Decidable p] {a b : List Host.Cell} (h : memWf a = true) (g : memWf b = true) : memWf (if p then a else b) = true := by
  split <;> assumption

/-- Appending a record keeps the canonical form. -/
theorem memWf_appendRec {m : List Host.Cell} {secs : List Nat} {f : List Host.Cell → Nat → Option Nat} {g : List Host.Cell → Nat → Nat}
    {bs : List Byte} (h : memWf m = true) : memWf (appendRec m secs f g bs) = true := by
  simp only [appendRec]
  apply memWf_ite
  · exact memWf_memWriteAll h
  · apply memWf_memWriteAll
    apply memWf_ite
    · exact memWf_memWriteAll (memWf_memErase h)
    · exact memWf_memErase h

/-- Writing a boot record keeps the canonical form. -/
theorem memWf_writeBoot {m : List Host.Cell} {r : BootRec} (h : memWf m = true) : memWf (writeBoot m r) = true := by
  simp only [writeBoot]
  exact memWf_appendRec (memWf_appendRec h)

end Sys2Proof.Laws
end

