-- ==== Sys2Proof/Laws/State.lean ====
section
/-! SUPPORT. One lemma per field per update of the state, true by the definition of the update, so that no proof unfolds a record update. -/
namespace Sys2Proof.Machine

@[simp] theorem updMedia_pending (s : State) (f : Media → Media) : (updMedia s f).pending = s.pending := rfl
@[simp] theorem updMedia_now (s : State) (f : Media → Media) : (updMedia s f).now = s.now := rfl
@[simp] theorem updMedia_free (s : State) (f : Media → Media) : (updMedia s f).free = s.free := rfl
@[simp] theorem updMedia_cond (s : State) (f : Media → Media) : (updMedia s f).cond = s.cond := rfl
@[simp] theorem updMedia_readData (s : State) (f : Media → Media) : (updMedia s f).readData = s.readData := rfl
@[simp] theorem updMedia_out (s : State) (f : Media → Media) : (updMedia s f).out = s.out := rfl
@[simp] theorem updMedia_csnNext (s : State) (f : Media → Media) : (updMedia s f).csnNext = s.csnNext := rfl
@[simp] theorem updMedia_csnIssued (s : State) (f : Media → Media) : (updMedia s f).csnIssued = s.csnIssued := rfl
@[simp] theorem updMedia_csnBlock (s : State) (f : Media → Media) : (updMedia s f).csnBlock = s.csnBlock := rfl
@[simp] theorem updMedia_ctxs (s : State) (f : Media → Media) : (updMedia s f).ctxs = s.ctxs := rfl
@[simp] theorem updMedia_errSeq (s : State) (f : Media → Media) : (updMedia s f).errSeq = s.errSeq := rfl
@[simp] theorem updMedia_evSeq (s : State) (f : Media → Media) : (updMedia s f).evSeq = s.evSeq := rfl
@[simp] theorem updMedia_evHist (s : State) (f : Media → Media) : (updMedia s f).evHist = s.evHist := rfl
@[simp] theorem updMedia_raised (s : State) (f : Media → Media) : (updMedia s f).raised = s.raised := rfl
@[simp] theorem updMedia_condFrom (s : State) (f : Media → Media) : (updMedia s f).condFrom = s.condFrom := rfl
@[simp] theorem updMedia_portA (s : State) (f : Media → Media) : (updMedia s f).portA = s.portA := rfl
@[simp] theorem updMedia_portB (s : State) (f : Media → Media) : (updMedia s f).portB = s.portB := rfl
@[simp] theorem updMedia_cad (s : State) (f : Media → Media) : (updMedia s f).cad = s.cad := rfl
@[simp] theorem updMedia_feat (s : State) (f : Media → Media) : (updMedia s f).feat = s.feat := rfl
@[simp] theorem updMedia_health (s : State) (f : Media → Media) : (updMedia s f).health = s.health := rfl
@[simp] theorem updMedia_map (s : State) (f : Media → Media) : (updMedia s f).map = s.map := rfl
@[simp] theorem updMedia_eng (s : State) (f : Media → Media) : (updMedia s f).eng = s.eng := rfl
@[simp] theorem updMedia_media (s : State) (f : Media → Media) : (updMedia s f).media = f s.media := rfl
@[simp] theorem updMedia_jrnl (s : State) (f : Media → Media) : (updMedia s f).jrnl = s.jrnl := rfl
@[simp] theorem updMedia_twin (s : State) (f : Media → Media) : (updMedia s f).twin = s.twin := rfl
@[simp] theorem updMedia_dig (s : State) (f : Media → Media) : (updMedia s f).dig = s.dig := rfl
@[simp] theorem updMedia_pods (s : State) (f : Media → Media) : (updMedia s f).pods = s.pods := rfl
@[simp] theorem updMedia_mover (s : State) (f : Media → Media) : (updMedia s f).mover = s.mover := rfl
@[simp] theorem updMedia_kf (s : State) (f : Media → Media) : (updMedia s f).kf = s.kf := rfl
@[simp] theorem updMedia_power (s : State) (f : Media → Media) : (updMedia s f).power = s.power := rfl
@[simp] theorem updMedia_ctr (s : State) (f : Media → Media) : (updMedia s f).ctr = s.ctr := rfl
@[simp] theorem updMedia_side (s : State) (f : Media → Media) : (updMedia s f).side = s.side := rfl

@[simp] theorem updMap_pending (s : State) (f : MapImg → MapImg) : (updMap s f).pending = s.pending := rfl
@[simp] theorem updMap_now (s : State) (f : MapImg → MapImg) : (updMap s f).now = s.now := rfl
@[simp] theorem updMap_free (s : State) (f : MapImg → MapImg) : (updMap s f).free = s.free := rfl
@[simp] theorem updMap_cond (s : State) (f : MapImg → MapImg) : (updMap s f).cond = s.cond := rfl
@[simp] theorem updMap_readData (s : State) (f : MapImg → MapImg) : (updMap s f).readData = s.readData := rfl
@[simp] theorem updMap_out (s : State) (f : MapImg → MapImg) : (updMap s f).out = s.out := rfl
@[simp] theorem updMap_csnNext (s : State) (f : MapImg → MapImg) : (updMap s f).csnNext = s.csnNext := rfl
@[simp] theorem updMap_csnIssued (s : State) (f : MapImg → MapImg) : (updMap s f).csnIssued = s.csnIssued := rfl
@[simp] theorem updMap_csnBlock (s : State) (f : MapImg → MapImg) : (updMap s f).csnBlock = s.csnBlock := rfl
@[simp] theorem updMap_ctxs (s : State) (f : MapImg → MapImg) : (updMap s f).ctxs = s.ctxs := rfl
@[simp] theorem updMap_errSeq (s : State) (f : MapImg → MapImg) : (updMap s f).errSeq = s.errSeq := rfl
@[simp] theorem updMap_evSeq (s : State) (f : MapImg → MapImg) : (updMap s f).evSeq = s.evSeq := rfl
@[simp] theorem updMap_evHist (s : State) (f : MapImg → MapImg) : (updMap s f).evHist = s.evHist := rfl
@[simp] theorem updMap_raised (s : State) (f : MapImg → MapImg) : (updMap s f).raised = s.raised := rfl
@[simp] theorem updMap_condFrom (s : State) (f : MapImg → MapImg) : (updMap s f).condFrom = s.condFrom := rfl
@[simp] theorem updMap_portA (s : State) (f : MapImg → MapImg) : (updMap s f).portA = s.portA := rfl
@[simp] theorem updMap_portB (s : State) (f : MapImg → MapImg) : (updMap s f).portB = s.portB := rfl
@[simp] theorem updMap_cad (s : State) (f : MapImg → MapImg) : (updMap s f).cad = s.cad := rfl
@[simp] theorem updMap_feat (s : State) (f : MapImg → MapImg) : (updMap s f).feat = s.feat := rfl
@[simp] theorem updMap_health (s : State) (f : MapImg → MapImg) : (updMap s f).health = s.health := rfl
@[simp] theorem updMap_map (s : State) (f : MapImg → MapImg) : (updMap s f).map = f s.map := rfl
@[simp] theorem updMap_eng (s : State) (f : MapImg → MapImg) : (updMap s f).eng = s.eng := rfl
@[simp] theorem updMap_media (s : State) (f : MapImg → MapImg) : (updMap s f).media = s.media := rfl
@[simp] theorem updMap_jrnl (s : State) (f : MapImg → MapImg) : (updMap s f).jrnl = s.jrnl := rfl
@[simp] theorem updMap_twin (s : State) (f : MapImg → MapImg) : (updMap s f).twin = s.twin := rfl
@[simp] theorem updMap_dig (s : State) (f : MapImg → MapImg) : (updMap s f).dig = s.dig := rfl
@[simp] theorem updMap_pods (s : State) (f : MapImg → MapImg) : (updMap s f).pods = s.pods := rfl
@[simp] theorem updMap_mover (s : State) (f : MapImg → MapImg) : (updMap s f).mover = s.mover := rfl
@[simp] theorem updMap_kf (s : State) (f : MapImg → MapImg) : (updMap s f).kf = s.kf := rfl
@[simp] theorem updMap_power (s : State) (f : MapImg → MapImg) : (updMap s f).power = s.power := rfl
@[simp] theorem updMap_ctr (s : State) (f : MapImg → MapImg) : (updMap s f).ctr = s.ctr := rfl
@[simp] theorem updMap_side (s : State) (f : MapImg → MapImg) : (updMap s f).side = s.side := rfl

@[simp] theorem updEng_pending (s : State) (f : MapEng → MapEng) : (updEng s f).pending = s.pending := rfl
@[simp] theorem updEng_now (s : State) (f : MapEng → MapEng) : (updEng s f).now = s.now := rfl
@[simp] theorem updEng_free (s : State) (f : MapEng → MapEng) : (updEng s f).free = s.free := rfl
@[simp] theorem updEng_cond (s : State) (f : MapEng → MapEng) : (updEng s f).cond = s.cond := rfl
@[simp] theorem updEng_readData (s : State) (f : MapEng → MapEng) : (updEng s f).readData = s.readData := rfl
@[simp] theorem updEng_out (s : State) (f : MapEng → MapEng) : (updEng s f).out = s.out := rfl
@[simp] theorem updEng_csnNext (s : State) (f : MapEng → MapEng) : (updEng s f).csnNext = s.csnNext := rfl
@[simp] theorem updEng_csnIssued (s : State) (f : MapEng → MapEng) : (updEng s f).csnIssued = s.csnIssued := rfl
@[simp] theorem updEng_csnBlock (s : State) (f : MapEng → MapEng) : (updEng s f).csnBlock = s.csnBlock := rfl
@[simp] theorem updEng_ctxs (s : State) (f : MapEng → MapEng) : (updEng s f).ctxs = s.ctxs := rfl
@[simp] theorem updEng_errSeq (s : State) (f : MapEng → MapEng) : (updEng s f).errSeq = s.errSeq := rfl
@[simp] theorem updEng_evSeq (s : State) (f : MapEng → MapEng) : (updEng s f).evSeq = s.evSeq := rfl
@[simp] theorem updEng_evHist (s : State) (f : MapEng → MapEng) : (updEng s f).evHist = s.evHist := rfl
@[simp] theorem updEng_raised (s : State) (f : MapEng → MapEng) : (updEng s f).raised = s.raised := rfl
@[simp] theorem updEng_condFrom (s : State) (f : MapEng → MapEng) : (updEng s f).condFrom = s.condFrom := rfl
@[simp] theorem updEng_portA (s : State) (f : MapEng → MapEng) : (updEng s f).portA = s.portA := rfl
@[simp] theorem updEng_portB (s : State) (f : MapEng → MapEng) : (updEng s f).portB = s.portB := rfl
@[simp] theorem updEng_cad (s : State) (f : MapEng → MapEng) : (updEng s f).cad = s.cad := rfl
@[simp] theorem updEng_feat (s : State) (f : MapEng → MapEng) : (updEng s f).feat = s.feat := rfl
@[simp] theorem updEng_health (s : State) (f : MapEng → MapEng) : (updEng s f).health = s.health := rfl
@[simp] theorem updEng_map (s : State) (f : MapEng → MapEng) : (updEng s f).map = s.map := rfl
@[simp] theorem updEng_eng (s : State) (f : MapEng → MapEng) : (updEng s f).eng = f s.eng := rfl
@[simp] theorem updEng_media (s : State) (f : MapEng → MapEng) : (updEng s f).media = s.media := rfl
@[simp] theorem updEng_jrnl (s : State) (f : MapEng → MapEng) : (updEng s f).jrnl = s.jrnl := rfl
@[simp] theorem updEng_twin (s : State) (f : MapEng → MapEng) : (updEng s f).twin = s.twin := rfl
@[simp] theorem updEng_dig (s : State) (f : MapEng → MapEng) : (updEng s f).dig = s.dig := rfl
@[simp] theorem updEng_pods (s : State) (f : MapEng → MapEng) : (updEng s f).pods = s.pods := rfl
@[simp] theorem updEng_mover (s : State) (f : MapEng → MapEng) : (updEng s f).mover = s.mover := rfl
@[simp] theorem updEng_kf (s : State) (f : MapEng → MapEng) : (updEng s f).kf = s.kf := rfl
@[simp] theorem updEng_power (s : State) (f : MapEng → MapEng) : (updEng s f).power = s.power := rfl
@[simp] theorem updEng_ctr (s : State) (f : MapEng → MapEng) : (updEng s f).ctr = s.ctr := rfl
@[simp] theorem updEng_side (s : State) (f : MapEng → MapEng) : (updEng s f).side = s.side := rfl

@[simp] theorem updJrnl_pending (s : State) (f : Jrnl → Jrnl) : (updJrnl s f).pending = s.pending := rfl
@[simp] theorem updJrnl_now (s : State) (f : Jrnl → Jrnl) : (updJrnl s f).now = s.now := rfl
@[simp] theorem updJrnl_free (s : State) (f : Jrnl → Jrnl) : (updJrnl s f).free = s.free := rfl
@[simp] theorem updJrnl_cond (s : State) (f : Jrnl → Jrnl) : (updJrnl s f).cond = s.cond := rfl
@[simp] theorem updJrnl_readData (s : State) (f : Jrnl → Jrnl) : (updJrnl s f).readData = s.readData := rfl
@[simp] theorem updJrnl_out (s : State) (f : Jrnl → Jrnl) : (updJrnl s f).out = s.out := rfl
@[simp] theorem updJrnl_csnNext (s : State) (f : Jrnl → Jrnl) : (updJrnl s f).csnNext = s.csnNext := rfl
@[simp] theorem updJrnl_csnIssued (s : State) (f : Jrnl → Jrnl) : (updJrnl s f).csnIssued = s.csnIssued := rfl
@[simp] theorem updJrnl_csnBlock (s : State) (f : Jrnl → Jrnl) : (updJrnl s f).csnBlock = s.csnBlock := rfl
@[simp] theorem updJrnl_ctxs (s : State) (f : Jrnl → Jrnl) : (updJrnl s f).ctxs = s.ctxs := rfl
@[simp] theorem updJrnl_errSeq (s : State) (f : Jrnl → Jrnl) : (updJrnl s f).errSeq = s.errSeq := rfl
@[simp] theorem updJrnl_evSeq (s : State) (f : Jrnl → Jrnl) : (updJrnl s f).evSeq = s.evSeq := rfl
@[simp] theorem updJrnl_evHist (s : State) (f : Jrnl → Jrnl) : (updJrnl s f).evHist = s.evHist := rfl
@[simp] theorem updJrnl_raised (s : State) (f : Jrnl → Jrnl) : (updJrnl s f).raised = s.raised := rfl
@[simp] theorem updJrnl_condFrom (s : State) (f : Jrnl → Jrnl) : (updJrnl s f).condFrom = s.condFrom := rfl
@[simp] theorem updJrnl_portA (s : State) (f : Jrnl → Jrnl) : (updJrnl s f).portA = s.portA := rfl
@[simp] theorem updJrnl_portB (s : State) (f : Jrnl → Jrnl) : (updJrnl s f).portB = s.portB := rfl
@[simp] theorem updJrnl_cad (s : State) (f : Jrnl → Jrnl) : (updJrnl s f).cad = s.cad := rfl
@[simp] theorem updJrnl_feat (s : State) (f : Jrnl → Jrnl) : (updJrnl s f).feat = s.feat := rfl
@[simp] theorem updJrnl_health (s : State) (f : Jrnl → Jrnl) : (updJrnl s f).health = s.health := rfl
@[simp] theorem updJrnl_map (s : State) (f : Jrnl → Jrnl) : (updJrnl s f).map = s.map := rfl
@[simp] theorem updJrnl_eng (s : State) (f : Jrnl → Jrnl) : (updJrnl s f).eng = s.eng := rfl
@[simp] theorem updJrnl_media (s : State) (f : Jrnl → Jrnl) : (updJrnl s f).media = s.media := rfl
@[simp] theorem updJrnl_jrnl (s : State) (f : Jrnl → Jrnl) : (updJrnl s f).jrnl = f s.jrnl := rfl
@[simp] theorem updJrnl_twin (s : State) (f : Jrnl → Jrnl) : (updJrnl s f).twin = s.twin := rfl
@[simp] theorem updJrnl_dig (s : State) (f : Jrnl → Jrnl) : (updJrnl s f).dig = s.dig := rfl
@[simp] theorem updJrnl_pods (s : State) (f : Jrnl → Jrnl) : (updJrnl s f).pods = s.pods := rfl
@[simp] theorem updJrnl_mover (s : State) (f : Jrnl → Jrnl) : (updJrnl s f).mover = s.mover := rfl
@[simp] theorem updJrnl_kf (s : State) (f : Jrnl → Jrnl) : (updJrnl s f).kf = s.kf := rfl
@[simp] theorem updJrnl_power (s : State) (f : Jrnl → Jrnl) : (updJrnl s f).power = s.power := rfl
@[simp] theorem updJrnl_ctr (s : State) (f : Jrnl → Jrnl) : (updJrnl s f).ctr = s.ctr := rfl
@[simp] theorem updJrnl_side (s : State) (f : Jrnl → Jrnl) : (updJrnl s f).side = s.side := rfl

@[simp] theorem updTwin_pending (s : State) (f : Twin → Twin) : (updTwin s f).pending = s.pending := rfl
@[simp] theorem updTwin_now (s : State) (f : Twin → Twin) : (updTwin s f).now = s.now := rfl
@[simp] theorem updTwin_free (s : State) (f : Twin → Twin) : (updTwin s f).free = s.free := rfl
@[simp] theorem updTwin_cond (s : State) (f : Twin → Twin) : (updTwin s f).cond = s.cond := rfl
@[simp] theorem updTwin_readData (s : State) (f : Twin → Twin) : (updTwin s f).readData = s.readData := rfl
@[simp] theorem updTwin_out (s : State) (f : Twin → Twin) : (updTwin s f).out = s.out := rfl
@[simp] theorem updTwin_csnNext (s : State) (f : Twin → Twin) : (updTwin s f).csnNext = s.csnNext := rfl
@[simp] theorem updTwin_csnIssued (s : State) (f : Twin → Twin) : (updTwin s f).csnIssued = s.csnIssued := rfl
@[simp] theorem updTwin_csnBlock (s : State) (f : Twin → Twin) : (updTwin s f).csnBlock = s.csnBlock := rfl
@[simp] theorem updTwin_ctxs (s : State) (f : Twin → Twin) : (updTwin s f).ctxs = s.ctxs := rfl
@[simp] theorem updTwin_errSeq (s : State) (f : Twin → Twin) : (updTwin s f).errSeq = s.errSeq := rfl
@[simp] theorem updTwin_evSeq (s : State) (f : Twin → Twin) : (updTwin s f).evSeq = s.evSeq := rfl
@[simp] theorem updTwin_evHist (s : State) (f : Twin → Twin) : (updTwin s f).evHist = s.evHist := rfl
@[simp] theorem updTwin_raised (s : State) (f : Twin → Twin) : (updTwin s f).raised = s.raised := rfl
@[simp] theorem updTwin_condFrom (s : State) (f : Twin → Twin) : (updTwin s f).condFrom = s.condFrom := rfl
@[simp] theorem updTwin_portA (s : State) (f : Twin → Twin) : (updTwin s f).portA = s.portA := rfl
@[simp] theorem updTwin_portB (s : State) (f : Twin → Twin) : (updTwin s f).portB = s.portB := rfl
@[simp] theorem updTwin_cad (s : State) (f : Twin → Twin) : (updTwin s f).cad = s.cad := rfl
@[simp] theorem updTwin_feat (s : State) (f : Twin → Twin) : (updTwin s f).feat = s.feat := rfl
@[simp] theorem updTwin_health (s : State) (f : Twin → Twin) : (updTwin s f).health = s.health := rfl
@[simp] theorem updTwin_map (s : State) (f : Twin → Twin) : (updTwin s f).map = s.map := rfl
@[simp] theorem updTwin_eng (s : State) (f : Twin → Twin) : (updTwin s f).eng = s.eng := rfl
@[simp] theorem updTwin_media (s : State) (f : Twin → Twin) : (updTwin s f).media = s.media := rfl
@[simp] theorem updTwin_jrnl (s : State) (f : Twin → Twin) : (updTwin s f).jrnl = s.jrnl := rfl
@[simp] theorem updTwin_twin (s : State) (f : Twin → Twin) : (updTwin s f).twin = f s.twin := rfl
@[simp] theorem updTwin_dig (s : State) (f : Twin → Twin) : (updTwin s f).dig = s.dig := rfl
@[simp] theorem updTwin_pods (s : State) (f : Twin → Twin) : (updTwin s f).pods = s.pods := rfl
@[simp] theorem updTwin_mover (s : State) (f : Twin → Twin) : (updTwin s f).mover = s.mover := rfl
@[simp] theorem updTwin_kf (s : State) (f : Twin → Twin) : (updTwin s f).kf = s.kf := rfl
@[simp] theorem updTwin_power (s : State) (f : Twin → Twin) : (updTwin s f).power = s.power := rfl
@[simp] theorem updTwin_ctr (s : State) (f : Twin → Twin) : (updTwin s f).ctr = s.ctr := rfl
@[simp] theorem updTwin_side (s : State) (f : Twin → Twin) : (updTwin s f).side = s.side := rfl

@[simp] theorem updKf_pending (s : State) (f : Kf → Kf) : (updKf s f).pending = s.pending := rfl
@[simp] theorem updKf_now (s : State) (f : Kf → Kf) : (updKf s f).now = s.now := rfl
@[simp] theorem updKf_free (s : State) (f : Kf → Kf) : (updKf s f).free = s.free := rfl
@[simp] theorem updKf_cond (s : State) (f : Kf → Kf) : (updKf s f).cond = s.cond := rfl
@[simp] theorem updKf_readData (s : State) (f : Kf → Kf) : (updKf s f).readData = s.readData := rfl
@[simp] theorem updKf_out (s : State) (f : Kf → Kf) : (updKf s f).out = s.out := rfl
@[simp] theorem updKf_csnNext (s : State) (f : Kf → Kf) : (updKf s f).csnNext = s.csnNext := rfl
@[simp] theorem updKf_csnIssued (s : State) (f : Kf → Kf) : (updKf s f).csnIssued = s.csnIssued := rfl
@[simp] theorem updKf_csnBlock (s : State) (f : Kf → Kf) : (updKf s f).csnBlock = s.csnBlock := rfl
@[simp] theorem updKf_ctxs (s : State) (f : Kf → Kf) : (updKf s f).ctxs = s.ctxs := rfl
@[simp] theorem updKf_errSeq (s : State) (f : Kf → Kf) : (updKf s f).errSeq = s.errSeq := rfl
@[simp] theorem updKf_evSeq (s : State) (f : Kf → Kf) : (updKf s f).evSeq = s.evSeq := rfl
@[simp] theorem updKf_evHist (s : State) (f : Kf → Kf) : (updKf s f).evHist = s.evHist := rfl
@[simp] theorem updKf_raised (s : State) (f : Kf → Kf) : (updKf s f).raised = s.raised := rfl
@[simp] theorem updKf_condFrom (s : State) (f : Kf → Kf) : (updKf s f).condFrom = s.condFrom := rfl
@[simp] theorem updKf_portA (s : State) (f : Kf → Kf) : (updKf s f).portA = s.portA := rfl
@[simp] theorem updKf_portB (s : State) (f : Kf → Kf) : (updKf s f).portB = s.portB := rfl
@[simp] theorem updKf_cad (s : State) (f : Kf → Kf) : (updKf s f).cad = s.cad := rfl
@[simp] theorem updKf_feat (s : State) (f : Kf → Kf) : (updKf s f).feat = s.feat := rfl
@[simp] theorem updKf_health (s : State) (f : Kf → Kf) : (updKf s f).health = s.health := rfl
@[simp] theorem updKf_map (s : State) (f : Kf → Kf) : (updKf s f).map = s.map := rfl
@[simp] theorem updKf_eng (s : State) (f : Kf → Kf) : (updKf s f).eng = s.eng := rfl
@[simp] theorem updKf_media (s : State) (f : Kf → Kf) : (updKf s f).media = s.media := rfl
@[simp] theorem updKf_jrnl (s : State) (f : Kf → Kf) : (updKf s f).jrnl = s.jrnl := rfl
@[simp] theorem updKf_twin (s : State) (f : Kf → Kf) : (updKf s f).twin = s.twin := rfl
@[simp] theorem updKf_dig (s : State) (f : Kf → Kf) : (updKf s f).dig = s.dig := rfl
@[simp] theorem updKf_pods (s : State) (f : Kf → Kf) : (updKf s f).pods = s.pods := rfl
@[simp] theorem updKf_mover (s : State) (f : Kf → Kf) : (updKf s f).mover = s.mover := rfl
@[simp] theorem updKf_kf (s : State) (f : Kf → Kf) : (updKf s f).kf = f s.kf := rfl
@[simp] theorem updKf_power (s : State) (f : Kf → Kf) : (updKf s f).power = s.power := rfl
@[simp] theorem updKf_ctr (s : State) (f : Kf → Kf) : (updKf s f).ctr = s.ctr := rfl
@[simp] theorem updKf_side (s : State) (f : Kf → Kf) : (updKf s f).side = s.side := rfl

@[simp] theorem updPower_pending (s : State) (f : Power → Power) : (updPower s f).pending = s.pending := rfl
@[simp] theorem updPower_now (s : State) (f : Power → Power) : (updPower s f).now = s.now := rfl
@[simp] theorem updPower_free (s : State) (f : Power → Power) : (updPower s f).free = s.free := rfl
@[simp] theorem updPower_cond (s : State) (f : Power → Power) : (updPower s f).cond = s.cond := rfl
@[simp] theorem updPower_readData (s : State) (f : Power → Power) : (updPower s f).readData = s.readData := rfl
@[simp] theorem updPower_out (s : State) (f : Power → Power) : (updPower s f).out = s.out := rfl
@[simp] theorem updPower_csnNext (s : State) (f : Power → Power) : (updPower s f).csnNext = s.csnNext := rfl
@[simp] theorem updPower_csnIssued (s : State) (f : Power → Power) : (updPower s f).csnIssued = s.csnIssued := rfl
@[simp] theorem updPower_csnBlock (s : State) (f : Power → Power) : (updPower s f).csnBlock = s.csnBlock := rfl
@[simp] theorem updPower_ctxs (s : State) (f : Power → Power) : (updPower s f).ctxs = s.ctxs := rfl
@[simp] theorem updPower_errSeq (s : State) (f : Power → Power) : (updPower s f).errSeq = s.errSeq := rfl
@[simp] theorem updPower_evSeq (s : State) (f : Power → Power) : (updPower s f).evSeq = s.evSeq := rfl
@[simp] theorem updPower_evHist (s : State) (f : Power → Power) : (updPower s f).evHist = s.evHist := rfl
@[simp] theorem updPower_raised (s : State) (f : Power → Power) : (updPower s f).raised = s.raised := rfl
@[simp] theorem updPower_condFrom (s : State) (f : Power → Power) : (updPower s f).condFrom = s.condFrom := rfl
@[simp] theorem updPower_portA (s : State) (f : Power → Power) : (updPower s f).portA = s.portA := rfl
@[simp] theorem updPower_portB (s : State) (f : Power → Power) : (updPower s f).portB = s.portB := rfl
@[simp] theorem updPower_cad (s : State) (f : Power → Power) : (updPower s f).cad = s.cad := rfl
@[simp] theorem updPower_feat (s : State) (f : Power → Power) : (updPower s f).feat = s.feat := rfl
@[simp] theorem updPower_health (s : State) (f : Power → Power) : (updPower s f).health = s.health := rfl
@[simp] theorem updPower_map (s : State) (f : Power → Power) : (updPower s f).map = s.map := rfl
@[simp] theorem updPower_eng (s : State) (f : Power → Power) : (updPower s f).eng = s.eng := rfl
@[simp] theorem updPower_media (s : State) (f : Power → Power) : (updPower s f).media = s.media := rfl
@[simp] theorem updPower_jrnl (s : State) (f : Power → Power) : (updPower s f).jrnl = s.jrnl := rfl
@[simp] theorem updPower_twin (s : State) (f : Power → Power) : (updPower s f).twin = s.twin := rfl
@[simp] theorem updPower_dig (s : State) (f : Power → Power) : (updPower s f).dig = s.dig := rfl
@[simp] theorem updPower_pods (s : State) (f : Power → Power) : (updPower s f).pods = s.pods := rfl
@[simp] theorem updPower_mover (s : State) (f : Power → Power) : (updPower s f).mover = s.mover := rfl
@[simp] theorem updPower_kf (s : State) (f : Power → Power) : (updPower s f).kf = s.kf := rfl
@[simp] theorem updPower_power (s : State) (f : Power → Power) : (updPower s f).power = f s.power := rfl
@[simp] theorem updPower_ctr (s : State) (f : Power → Power) : (updPower s f).ctr = s.ctr := rfl
@[simp] theorem updPower_side (s : State) (f : Power → Power) : (updPower s f).side = s.side := rfl

@[simp] theorem updCtr_pending (s : State) (f : Ctr → Ctr) : (updCtr s f).pending = s.pending := rfl
@[simp] theorem updCtr_now (s : State) (f : Ctr → Ctr) : (updCtr s f).now = s.now := rfl
@[simp] theorem updCtr_free (s : State) (f : Ctr → Ctr) : (updCtr s f).free = s.free := rfl
@[simp] theorem updCtr_cond (s : State) (f : Ctr → Ctr) : (updCtr s f).cond = s.cond := rfl
@[simp] theorem updCtr_readData (s : State) (f : Ctr → Ctr) : (updCtr s f).readData = s.readData := rfl
@[simp] theorem updCtr_out (s : State) (f : Ctr → Ctr) : (updCtr s f).out = s.out := rfl
@[simp] theorem updCtr_csnNext (s : State) (f : Ctr → Ctr) : (updCtr s f).csnNext = s.csnNext := rfl
@[simp] theorem updCtr_csnIssued (s : State) (f : Ctr → Ctr) : (updCtr s f).csnIssued = s.csnIssued := rfl
@[simp] theorem updCtr_csnBlock (s : State) (f : Ctr → Ctr) : (updCtr s f).csnBlock = s.csnBlock := rfl
@[simp] theorem updCtr_ctxs (s : State) (f : Ctr → Ctr) : (updCtr s f).ctxs = s.ctxs := rfl
@[simp] theorem updCtr_errSeq (s : State) (f : Ctr → Ctr) : (updCtr s f).errSeq = s.errSeq := rfl
@[simp] theorem updCtr_evSeq (s : State) (f : Ctr → Ctr) : (updCtr s f).evSeq = s.evSeq := rfl
@[simp] theorem updCtr_evHist (s : State) (f : Ctr → Ctr) : (updCtr s f).evHist = s.evHist := rfl
@[simp] theorem updCtr_raised (s : State) (f : Ctr → Ctr) : (updCtr s f).raised = s.raised := rfl
@[simp] theorem updCtr_condFrom (s : State) (f : Ctr → Ctr) : (updCtr s f).condFrom = s.condFrom := rfl
@[simp] theorem updCtr_portA (s : State) (f : Ctr → Ctr) : (updCtr s f).portA = s.portA := rfl
@[simp] theorem updCtr_portB (s : State) (f : Ctr → Ctr) : (updCtr s f).portB = s.portB := rfl
@[simp] theorem updCtr_cad (s : State) (f : Ctr → Ctr) : (updCtr s f).cad = s.cad := rfl
@[simp] theorem updCtr_feat (s : State) (f : Ctr → Ctr) : (updCtr s f).feat = s.feat := rfl
@[simp] theorem updCtr_health (s : State) (f : Ctr → Ctr) : (updCtr s f).health = s.health := rfl
@[simp] theorem updCtr_map (s : State) (f : Ctr → Ctr) : (updCtr s f).map = s.map := rfl
@[simp] theorem updCtr_eng (s : State) (f : Ctr → Ctr) : (updCtr s f).eng = s.eng := rfl
@[simp] theorem updCtr_media (s : State) (f : Ctr → Ctr) : (updCtr s f).media = s.media := rfl
@[simp] theorem updCtr_jrnl (s : State) (f : Ctr → Ctr) : (updCtr s f).jrnl = s.jrnl := rfl
@[simp] theorem updCtr_twin (s : State) (f : Ctr → Ctr) : (updCtr s f).twin = s.twin := rfl
@[simp] theorem updCtr_dig (s : State) (f : Ctr → Ctr) : (updCtr s f).dig = s.dig := rfl
@[simp] theorem updCtr_pods (s : State) (f : Ctr → Ctr) : (updCtr s f).pods = s.pods := rfl
@[simp] theorem updCtr_mover (s : State) (f : Ctr → Ctr) : (updCtr s f).mover = s.mover := rfl
@[simp] theorem updCtr_kf (s : State) (f : Ctr → Ctr) : (updCtr s f).kf = s.kf := rfl
@[simp] theorem updCtr_power (s : State) (f : Ctr → Ctr) : (updCtr s f).power = s.power := rfl
@[simp] theorem updCtr_ctr (s : State) (f : Ctr → Ctr) : (updCtr s f).ctr = f s.ctr := rfl
@[simp] theorem updCtr_side (s : State) (f : Ctr → Ctr) : (updCtr s f).side = s.side := rfl

@[simp] theorem updCad_pending (s : State) (f : Cad → Cad) : (updCad s f).pending = s.pending := rfl
@[simp] theorem updCad_now (s : State) (f : Cad → Cad) : (updCad s f).now = s.now := rfl
@[simp] theorem updCad_free (s : State) (f : Cad → Cad) : (updCad s f).free = s.free := rfl
@[simp] theorem updCad_cond (s : State) (f : Cad → Cad) : (updCad s f).cond = s.cond := rfl
@[simp] theorem updCad_readData (s : State) (f : Cad → Cad) : (updCad s f).readData = s.readData := rfl
@[simp] theorem updCad_out (s : State) (f : Cad → Cad) : (updCad s f).out = s.out := rfl
@[simp] theorem updCad_csnNext (s : State) (f : Cad → Cad) : (updCad s f).csnNext = s.csnNext := rfl
@[simp] theorem updCad_csnIssued (s : State) (f : Cad → Cad) : (updCad s f).csnIssued = s.csnIssued := rfl
@[simp] theorem updCad_csnBlock (s : State) (f : Cad → Cad) : (updCad s f).csnBlock = s.csnBlock := rfl
@[simp] theorem updCad_ctxs (s : State) (f : Cad → Cad) : (updCad s f).ctxs = s.ctxs := rfl
@[simp] theorem updCad_errSeq (s : State) (f : Cad → Cad) : (updCad s f).errSeq = s.errSeq := rfl
@[simp] theorem updCad_evSeq (s : State) (f : Cad → Cad) : (updCad s f).evSeq = s.evSeq := rfl
@[simp] theorem updCad_evHist (s : State) (f : Cad → Cad) : (updCad s f).evHist = s.evHist := rfl
@[simp] theorem updCad_raised (s : State) (f : Cad → Cad) : (updCad s f).raised = s.raised := rfl
@[simp] theorem updCad_condFrom (s : State) (f : Cad → Cad) : (updCad s f).condFrom = s.condFrom := rfl
@[simp] theorem updCad_portA (s : State) (f : Cad → Cad) : (updCad s f).portA = s.portA := rfl
@[simp] theorem updCad_portB (s : State) (f : Cad → Cad) : (updCad s f).portB = s.portB := rfl
@[simp] theorem updCad_cad (s : State) (f : Cad → Cad) : (updCad s f).cad = f s.cad := rfl
@[simp] theorem updCad_feat (s : State) (f : Cad → Cad) : (updCad s f).feat = s.feat := rfl
@[simp] theorem updCad_health (s : State) (f : Cad → Cad) : (updCad s f).health = s.health := rfl
@[simp] theorem updCad_map (s : State) (f : Cad → Cad) : (updCad s f).map = s.map := rfl
@[simp] theorem updCad_eng (s : State) (f : Cad → Cad) : (updCad s f).eng = s.eng := rfl
@[simp] theorem updCad_media (s : State) (f : Cad → Cad) : (updCad s f).media = s.media := rfl
@[simp] theorem updCad_jrnl (s : State) (f : Cad → Cad) : (updCad s f).jrnl = s.jrnl := rfl
@[simp] theorem updCad_twin (s : State) (f : Cad → Cad) : (updCad s f).twin = s.twin := rfl
@[simp] theorem updCad_dig (s : State) (f : Cad → Cad) : (updCad s f).dig = s.dig := rfl
@[simp] theorem updCad_pods (s : State) (f : Cad → Cad) : (updCad s f).pods = s.pods := rfl
@[simp] theorem updCad_mover (s : State) (f : Cad → Cad) : (updCad s f).mover = s.mover := rfl
@[simp] theorem updCad_kf (s : State) (f : Cad → Cad) : (updCad s f).kf = s.kf := rfl
@[simp] theorem updCad_power (s : State) (f : Cad → Cad) : (updCad s f).power = s.power := rfl
@[simp] theorem updCad_ctr (s : State) (f : Cad → Cad) : (updCad s f).ctr = s.ctr := rfl
@[simp] theorem updCad_side (s : State) (f : Cad → Cad) : (updCad s f).side = s.side := rfl

@[simp] theorem updDig_pending (s : State) (f : Dig → Dig) : (updDig s f).pending = s.pending := rfl
@[simp] theorem updDig_now (s : State) (f : Dig → Dig) : (updDig s f).now = s.now := rfl
@[simp] theorem updDig_free (s : State) (f : Dig → Dig) : (updDig s f).free = s.free := rfl
@[simp] theorem updDig_cond (s : State) (f : Dig → Dig) : (updDig s f).cond = s.cond := rfl
@[simp] theorem updDig_readData (s : State) (f : Dig → Dig) : (updDig s f).readData = s.readData := rfl
@[simp] theorem updDig_out (s : State) (f : Dig → Dig) : (updDig s f).out = s.out := rfl
@[simp] theorem updDig_csnNext (s : State) (f : Dig → Dig) : (updDig s f).csnNext = s.csnNext := rfl
@[simp] theorem updDig_csnIssued (s : State) (f : Dig → Dig) : (updDig s f).csnIssued = s.csnIssued := rfl
@[simp] theorem updDig_csnBlock (s : State) (f : Dig → Dig) : (updDig s f).csnBlock = s.csnBlock := rfl
@[simp] theorem updDig_ctxs (s : State) (f : Dig → Dig) : (updDig s f).ctxs = s.ctxs := rfl
@[simp] theorem updDig_errSeq (s : State) (f : Dig → Dig) : (updDig s f).errSeq = s.errSeq := rfl
@[simp] theorem updDig_evSeq (s : State) (f : Dig → Dig) : (updDig s f).evSeq = s.evSeq := rfl
@[simp] theorem updDig_evHist (s : State) (f : Dig → Dig) : (updDig s f).evHist = s.evHist := rfl
@[simp] theorem updDig_raised (s : State) (f : Dig → Dig) : (updDig s f).raised = s.raised := rfl
@[simp] theorem updDig_condFrom (s : State) (f : Dig → Dig) : (updDig s f).condFrom = s.condFrom := rfl
@[simp] theorem updDig_portA (s : State) (f : Dig → Dig) : (updDig s f).portA = s.portA := rfl
@[simp] theorem updDig_portB (s : State) (f : Dig → Dig) : (updDig s f).portB = s.portB := rfl
@[simp] theorem updDig_cad (s : State) (f : Dig → Dig) : (updDig s f).cad = s.cad := rfl
@[simp] theorem updDig_feat (s : State) (f : Dig → Dig) : (updDig s f).feat = s.feat := rfl
@[simp] theorem updDig_health (s : State) (f : Dig → Dig) : (updDig s f).health = s.health := rfl
@[simp] theorem updDig_map (s : State) (f : Dig → Dig) : (updDig s f).map = s.map := rfl
@[simp] theorem updDig_eng (s : State) (f : Dig → Dig) : (updDig s f).eng = s.eng := rfl
@[simp] theorem updDig_media (s : State) (f : Dig → Dig) : (updDig s f).media = s.media := rfl
@[simp] theorem updDig_jrnl (s : State) (f : Dig → Dig) : (updDig s f).jrnl = s.jrnl := rfl
@[simp] theorem updDig_twin (s : State) (f : Dig → Dig) : (updDig s f).twin = s.twin := rfl
@[simp] theorem updDig_dig (s : State) (f : Dig → Dig) : (updDig s f).dig = f s.dig := rfl
@[simp] theorem updDig_pods (s : State) (f : Dig → Dig) : (updDig s f).pods = s.pods := rfl
@[simp] theorem updDig_mover (s : State) (f : Dig → Dig) : (updDig s f).mover = s.mover := rfl
@[simp] theorem updDig_kf (s : State) (f : Dig → Dig) : (updDig s f).kf = s.kf := rfl
@[simp] theorem updDig_power (s : State) (f : Dig → Dig) : (updDig s f).power = s.power := rfl
@[simp] theorem updDig_ctr (s : State) (f : Dig → Dig) : (updDig s f).ctr = s.ctr := rfl
@[simp] theorem updDig_side (s : State) (f : Dig → Dig) : (updDig s f).side = s.side := rfl

@[simp] theorem updSide_pending (s : State) (f : Side → Side) : (updSide s f).pending = s.pending := rfl
@[simp] theorem updSide_now (s : State) (f : Side → Side) : (updSide s f).now = s.now := rfl
@[simp] theorem updSide_free (s : State) (f : Side → Side) : (updSide s f).free = s.free := rfl
@[simp] theorem updSide_cond (s : State) (f : Side → Side) : (updSide s f).cond = s.cond := rfl
@[simp] theorem updSide_readData (s : State) (f : Side → Side) : (updSide s f).readData = s.readData := rfl
@[simp] theorem updSide_out (s : State) (f : Side → Side) : (updSide s f).out = s.out := rfl
@[simp] theorem updSide_csnNext (s : State) (f : Side → Side) : (updSide s f).csnNext = s.csnNext := rfl
@[simp] theorem updSide_csnIssued (s : State) (f : Side → Side) : (updSide s f).csnIssued = s.csnIssued := rfl
@[simp] theorem updSide_csnBlock (s : State) (f : Side → Side) : (updSide s f).csnBlock = s.csnBlock := rfl
@[simp] theorem updSide_ctxs (s : State) (f : Side → Side) : (updSide s f).ctxs = s.ctxs := rfl
@[simp] theorem updSide_errSeq (s : State) (f : Side → Side) : (updSide s f).errSeq = s.errSeq := rfl
@[simp] theorem updSide_evSeq (s : State) (f : Side → Side) : (updSide s f).evSeq = s.evSeq := rfl
@[simp] theorem updSide_evHist (s : State) (f : Side → Side) : (updSide s f).evHist = s.evHist := rfl
@[simp] theorem updSide_raised (s : State) (f : Side → Side) : (updSide s f).raised = s.raised := rfl
@[simp] theorem updSide_condFrom (s : State) (f : Side → Side) : (updSide s f).condFrom = s.condFrom := rfl
@[simp] theorem updSide_portA (s : State) (f : Side → Side) : (updSide s f).portA = s.portA := rfl
@[simp] theorem updSide_portB (s : State) (f : Side → Side) : (updSide s f).portB = s.portB := rfl
@[simp] theorem updSide_cad (s : State) (f : Side → Side) : (updSide s f).cad = s.cad := rfl
@[simp] theorem updSide_feat (s : State) (f : Side → Side) : (updSide s f).feat = s.feat := rfl
@[simp] theorem updSide_health (s : State) (f : Side → Side) : (updSide s f).health = s.health := rfl
@[simp] theorem updSide_map (s : State) (f : Side → Side) : (updSide s f).map = s.map := rfl
@[simp] theorem updSide_eng (s : State) (f : Side → Side) : (updSide s f).eng = s.eng := rfl
@[simp] theorem updSide_media (s : State) (f : Side → Side) : (updSide s f).media = s.media := rfl
@[simp] theorem updSide_jrnl (s : State) (f : Side → Side) : (updSide s f).jrnl = s.jrnl := rfl
@[simp] theorem updSide_twin (s : State) (f : Side → Side) : (updSide s f).twin = s.twin := rfl
@[simp] theorem updSide_dig (s : State) (f : Side → Side) : (updSide s f).dig = s.dig := rfl
@[simp] theorem updSide_pods (s : State) (f : Side → Side) : (updSide s f).pods = s.pods := rfl
@[simp] theorem updSide_mover (s : State) (f : Side → Side) : (updSide s f).mover = s.mover := rfl
@[simp] theorem updSide_kf (s : State) (f : Side → Side) : (updSide s f).kf = s.kf := rfl
@[simp] theorem updSide_power (s : State) (f : Side → Side) : (updSide s f).power = s.power := rfl
@[simp] theorem updSide_ctr (s : State) (f : Side → Side) : (updSide s f).ctr = s.ctr := rfl
@[simp] theorem updSide_side (s : State) (f : Side → Side) : (updSide s f).side = f s.side := rfl

@[simp] theorem updHealth_pending (s : State) (f : Health → Health) : (updHealth s f).pending = s.pending := rfl
@[simp] theorem updHealth_now (s : State) (f : Health → Health) : (updHealth s f).now = s.now := rfl
@[simp] theorem updHealth_free (s : State) (f : Health → Health) : (updHealth s f).free = s.free := rfl
@[simp] theorem updHealth_cond (s : State) (f : Health → Health) : (updHealth s f).cond = s.cond := rfl
@[simp] theorem updHealth_readData (s : State) (f : Health → Health) : (updHealth s f).readData = s.readData := rfl
@[simp] theorem updHealth_out (s : State) (f : Health → Health) : (updHealth s f).out = s.out := rfl
@[simp] theorem updHealth_csnNext (s : State) (f : Health → Health) : (updHealth s f).csnNext = s.csnNext := rfl
@[simp] theorem updHealth_csnIssued (s : State) (f : Health → Health) : (updHealth s f).csnIssued = s.csnIssued := rfl
@[simp] theorem updHealth_csnBlock (s : State) (f : Health → Health) : (updHealth s f).csnBlock = s.csnBlock := rfl
@[simp] theorem updHealth_ctxs (s : State) (f : Health → Health) : (updHealth s f).ctxs = s.ctxs := rfl
@[simp] theorem updHealth_errSeq (s : State) (f : Health → Health) : (updHealth s f).errSeq = s.errSeq := rfl
@[simp] theorem updHealth_evSeq (s : State) (f : Health → Health) : (updHealth s f).evSeq = s.evSeq := rfl
@[simp] theorem updHealth_evHist (s : State) (f : Health → Health) : (updHealth s f).evHist = s.evHist := rfl
@[simp] theorem updHealth_raised (s : State) (f : Health → Health) : (updHealth s f).raised = s.raised := rfl
@[simp] theorem updHealth_condFrom (s : State) (f : Health → Health) : (updHealth s f).condFrom = s.condFrom := rfl
@[simp] theorem updHealth_portA (s : State) (f : Health → Health) : (updHealth s f).portA = s.portA := rfl
@[simp] theorem updHealth_portB (s : State) (f : Health → Health) : (updHealth s f).portB = s.portB := rfl
@[simp] theorem updHealth_cad (s : State) (f : Health → Health) : (updHealth s f).cad = s.cad := rfl
@[simp] theorem updHealth_feat (s : State) (f : Health → Health) : (updHealth s f).feat = s.feat := rfl
@[simp] theorem updHealth_health (s : State) (f : Health → Health) : (updHealth s f).health = f s.health := rfl
@[simp] theorem updHealth_map (s : State) (f : Health → Health) : (updHealth s f).map = s.map := rfl
@[simp] theorem updHealth_eng (s : State) (f : Health → Health) : (updHealth s f).eng = s.eng := rfl
@[simp] theorem updHealth_media (s : State) (f : Health → Health) : (updHealth s f).media = s.media := rfl
@[simp] theorem updHealth_jrnl (s : State) (f : Health → Health) : (updHealth s f).jrnl = s.jrnl := rfl
@[simp] theorem updHealth_twin (s : State) (f : Health → Health) : (updHealth s f).twin = s.twin := rfl
@[simp] theorem updHealth_dig (s : State) (f : Health → Health) : (updHealth s f).dig = s.dig := rfl
@[simp] theorem updHealth_pods (s : State) (f : Health → Health) : (updHealth s f).pods = s.pods := rfl
@[simp] theorem updHealth_mover (s : State) (f : Health → Health) : (updHealth s f).mover = s.mover := rfl
@[simp] theorem updHealth_kf (s : State) (f : Health → Health) : (updHealth s f).kf = s.kf := rfl
@[simp] theorem updHealth_power (s : State) (f : Health → Health) : (updHealth s f).power = s.power := rfl
@[simp] theorem updHealth_ctr (s : State) (f : Health → Health) : (updHealth s f).ctr = s.ctr := rfl
@[simp] theorem updHealth_side (s : State) (f : Health → Health) : (updHealth s f).side = s.side := rfl

@[simp] theorem updCtx_pending (s : State) (cid : Nat) (f : Ctx → Ctx) : (updCtx s cid f).pending = s.pending := rfl
@[simp] theorem updCtx_now (s : State) (cid : Nat) (f : Ctx → Ctx) : (updCtx s cid f).now = s.now := rfl
@[simp] theorem updCtx_free (s : State) (cid : Nat) (f : Ctx → Ctx) : (updCtx s cid f).free = s.free := rfl
@[simp] theorem updCtx_cond (s : State) (cid : Nat) (f : Ctx → Ctx) : (updCtx s cid f).cond = s.cond := rfl
@[simp] theorem updCtx_readData (s : State) (cid : Nat) (f : Ctx → Ctx) : (updCtx s cid f).readData = s.readData := rfl
@[simp] theorem updCtx_out (s : State) (cid : Nat) (f : Ctx → Ctx) : (updCtx s cid f).out = s.out := rfl
@[simp] theorem updCtx_csnNext (s : State) (cid : Nat) (f : Ctx → Ctx) : (updCtx s cid f).csnNext = s.csnNext := rfl
@[simp] theorem updCtx_csnIssued (s : State) (cid : Nat) (f : Ctx → Ctx) : (updCtx s cid f).csnIssued = s.csnIssued := rfl
@[simp] theorem updCtx_csnBlock (s : State) (cid : Nat) (f : Ctx → Ctx) : (updCtx s cid f).csnBlock = s.csnBlock := rfl
@[simp] theorem updCtx_errSeq (s : State) (cid : Nat) (f : Ctx → Ctx) : (updCtx s cid f).errSeq = s.errSeq := rfl
@[simp] theorem updCtx_evSeq (s : State) (cid : Nat) (f : Ctx → Ctx) : (updCtx s cid f).evSeq = s.evSeq := rfl
@[simp] theorem updCtx_evHist (s : State) (cid : Nat) (f : Ctx → Ctx) : (updCtx s cid f).evHist = s.evHist := rfl
@[simp] theorem updCtx_raised (s : State) (cid : Nat) (f : Ctx → Ctx) : (updCtx s cid f).raised = s.raised := rfl
@[simp] theorem updCtx_condFrom (s : State) (cid : Nat) (f : Ctx → Ctx) : (updCtx s cid f).condFrom = s.condFrom := rfl
@[simp] theorem updCtx_portA (s : State) (cid : Nat) (f : Ctx → Ctx) : (updCtx s cid f).portA = s.portA := rfl
@[simp] theorem updCtx_portB (s : State) (cid : Nat) (f : Ctx → Ctx) : (updCtx s cid f).portB = s.portB := rfl
@[simp] theorem updCtx_cad (s : State) (cid : Nat) (f : Ctx → Ctx) : (updCtx s cid f).cad = s.cad := rfl
@[simp] theorem updCtx_feat (s : State) (cid : Nat) (f : Ctx → Ctx) : (updCtx s cid f).feat = s.feat := rfl
@[simp] theorem updCtx_health (s : State) (cid : Nat) (f : Ctx → Ctx) : (updCtx s cid f).health = s.health := rfl
@[simp] theorem updCtx_map (s : State) (cid : Nat) (f : Ctx → Ctx) : (updCtx s cid f).map = s.map := rfl
@[simp] theorem updCtx_eng (s : State) (cid : Nat) (f : Ctx → Ctx) : (updCtx s cid f).eng = s.eng := rfl
@[simp] theorem updCtx_media (s : State) (cid : Nat) (f : Ctx → Ctx) : (updCtx s cid f).media = s.media := rfl
@[simp] theorem updCtx_jrnl (s : State) (cid : Nat) (f : Ctx → Ctx) : (updCtx s cid f).jrnl = s.jrnl := rfl
@[simp] theorem updCtx_twin (s : State) (cid : Nat) (f : Ctx → Ctx) : (updCtx s cid f).twin = s.twin := rfl
@[simp] theorem updCtx_dig (s : State) (cid : Nat) (f : Ctx → Ctx) : (updCtx s cid f).dig = s.dig := rfl
@[simp] theorem updCtx_pods (s : State) (cid : Nat) (f : Ctx → Ctx) : (updCtx s cid f).pods = s.pods := rfl
@[simp] theorem updCtx_mover (s : State) (cid : Nat) (f : Ctx → Ctx) : (updCtx s cid f).mover = s.mover := rfl
@[simp] theorem updCtx_kf (s : State) (cid : Nat) (f : Ctx → Ctx) : (updCtx s cid f).kf = s.kf := rfl
@[simp] theorem updCtx_power (s : State) (cid : Nat) (f : Ctx → Ctx) : (updCtx s cid f).power = s.power := rfl
@[simp] theorem updCtx_ctr (s : State) (cid : Nat) (f : Ctx → Ctx) : (updCtx s cid f).ctr = s.ctr := rfl
@[simp] theorem updCtx_side (s : State) (cid : Nat) (f : Ctx → Ctx) : (updCtx s cid f).side = s.side := rfl

@[simp] theorem dropCtx_pending (s : State) (cid : Nat) : (dropCtx s cid).pending = s.pending := rfl
@[simp] theorem dropCtx_now (s : State) (cid : Nat) : (dropCtx s cid).now = s.now := rfl
@[simp] theorem dropCtx_free (s : State) (cid : Nat) : (dropCtx s cid).free = s.free := rfl
@[simp] theorem dropCtx_cond (s : State) (cid : Nat) : (dropCtx s cid).cond = s.cond := rfl
@[simp] theorem dropCtx_readData (s : State) (cid : Nat) : (dropCtx s cid).readData = s.readData := rfl
@[simp] theorem dropCtx_out (s : State) (cid : Nat) : (dropCtx s cid).out = s.out := rfl
@[simp] theorem dropCtx_csnNext (s : State) (cid : Nat) : (dropCtx s cid).csnNext = s.csnNext := rfl
@[simp] theorem dropCtx_csnIssued (s : State) (cid : Nat) : (dropCtx s cid).csnIssued = s.csnIssued := rfl
@[simp] theorem dropCtx_csnBlock (s : State) (cid : Nat) : (dropCtx s cid).csnBlock = s.csnBlock := rfl
@[simp] theorem dropCtx_errSeq (s : State) (cid : Nat) : (dropCtx s cid).errSeq = s.errSeq := rfl
@[simp] theorem dropCtx_evSeq (s : State) (cid : Nat) : (dropCtx s cid).evSeq = s.evSeq := rfl
@[simp] theorem dropCtx_evHist (s : State) (cid : Nat) : (dropCtx s cid).evHist = s.evHist := rfl
@[simp] theorem dropCtx_raised (s : State) (cid : Nat) : (dropCtx s cid).raised = s.raised := rfl
@[simp] theorem dropCtx_condFrom (s : State) (cid : Nat) : (dropCtx s cid).condFrom = s.condFrom := rfl
@[simp] theorem dropCtx_portA (s : State) (cid : Nat) : (dropCtx s cid).portA = s.portA := rfl
@[simp] theorem dropCtx_portB (s : State) (cid : Nat) : (dropCtx s cid).portB = s.portB := rfl
@[simp] theorem dropCtx_cad (s : State) (cid : Nat) : (dropCtx s cid).cad = s.cad := rfl
@[simp] theorem dropCtx_feat (s : State) (cid : Nat) : (dropCtx s cid).feat = s.feat := rfl
@[simp] theorem dropCtx_health (s : State) (cid : Nat) : (dropCtx s cid).health = s.health := rfl
@[simp] theorem dropCtx_map (s : State) (cid : Nat) : (dropCtx s cid).map = s.map := rfl
@[simp] theorem dropCtx_eng (s : State) (cid : Nat) : (dropCtx s cid).eng = s.eng := rfl
@[simp] theorem dropCtx_media (s : State) (cid : Nat) : (dropCtx s cid).media = s.media := rfl
@[simp] theorem dropCtx_jrnl (s : State) (cid : Nat) : (dropCtx s cid).jrnl = s.jrnl := rfl
@[simp] theorem dropCtx_twin (s : State) (cid : Nat) : (dropCtx s cid).twin = s.twin := rfl
@[simp] theorem dropCtx_dig (s : State) (cid : Nat) : (dropCtx s cid).dig = s.dig := rfl
@[simp] theorem dropCtx_pods (s : State) (cid : Nat) : (dropCtx s cid).pods = s.pods := rfl
@[simp] theorem dropCtx_mover (s : State) (cid : Nat) : (dropCtx s cid).mover = s.mover := rfl
@[simp] theorem dropCtx_kf (s : State) (cid : Nat) : (dropCtx s cid).kf = s.kf := rfl
@[simp] theorem dropCtx_power (s : State) (cid : Nat) : (dropCtx s cid).power = s.power := rfl
@[simp] theorem dropCtx_ctr (s : State) (cid : Nat) : (dropCtx s cid).ctr = s.ctr := rfl
@[simp] theorem dropCtx_side (s : State) (cid : Nat) : (dropCtx s cid).side = s.side := rfl

@[simp] theorem emit_pending (s : State) (o : Out) : (emit s o).pending = s.pending := rfl
@[simp] theorem emit_now (s : State) (o : Out) : (emit s o).now = s.now := rfl
@[simp] theorem emit_free (s : State) (o : Out) : (emit s o).free = s.free := rfl
@[simp] theorem emit_cond (s : State) (o : Out) : (emit s o).cond = s.cond := rfl
@[simp] theorem emit_readData (s : State) (o : Out) : (emit s o).readData = s.readData := rfl
@[simp] theorem emit_csnNext (s : State) (o : Out) : (emit s o).csnNext = s.csnNext := rfl
@[simp] theorem emit_csnIssued (s : State) (o : Out) : (emit s o).csnIssued = s.csnIssued := rfl
@[simp] theorem emit_csnBlock (s : State) (o : Out) : (emit s o).csnBlock = s.csnBlock := rfl
@[simp] theorem emit_ctxs (s : State) (o : Out) : (emit s o).ctxs = s.ctxs := rfl
@[simp] theorem emit_errSeq (s : State) (o : Out) : (emit s o).errSeq = s.errSeq := rfl
@[simp] theorem emit_evSeq (s : State) (o : Out) : (emit s o).evSeq = s.evSeq := rfl
@[simp] theorem emit_evHist (s : State) (o : Out) : (emit s o).evHist = s.evHist := rfl
@[simp] theorem emit_raised (s : State) (o : Out) : (emit s o).raised = s.raised := rfl
@[simp] theorem emit_condFrom (s : State) (o : Out) : (emit s o).condFrom = s.condFrom := rfl
@[simp] theorem emit_portA (s : State) (o : Out) : (emit s o).portA = s.portA := rfl
@[simp] theorem emit_portB (s : State) (o : Out) : (emit s o).portB = s.portB := rfl
@[simp] theorem emit_cad (s : State) (o : Out) : (emit s o).cad = s.cad := rfl
@[simp] theorem emit_feat (s : State) (o : Out) : (emit s o).feat = s.feat := rfl
@[simp] theorem emit_health (s : State) (o : Out) : (emit s o).health = s.health := rfl
@[simp] theorem emit_map (s : State) (o : Out) : (emit s o).map = s.map := rfl
@[simp] theorem emit_eng (s : State) (o : Out) : (emit s o).eng = s.eng := rfl
@[simp] theorem emit_media (s : State) (o : Out) : (emit s o).media = s.media := rfl
@[simp] theorem emit_jrnl (s : State) (o : Out) : (emit s o).jrnl = s.jrnl := rfl
@[simp] theorem emit_twin (s : State) (o : Out) : (emit s o).twin = s.twin := rfl
@[simp] theorem emit_dig (s : State) (o : Out) : (emit s o).dig = s.dig := rfl
@[simp] theorem emit_pods (s : State) (o : Out) : (emit s o).pods = s.pods := rfl
@[simp] theorem emit_mover (s : State) (o : Out) : (emit s o).mover = s.mover := rfl
@[simp] theorem emit_kf (s : State) (o : Out) : (emit s o).kf = s.kf := rfl
@[simp] theorem emit_power (s : State) (o : Out) : (emit s o).power = s.power := rfl
@[simp] theorem emit_ctr (s : State) (o : Out) : (emit s o).ctr = s.ctr := rfl
@[simp] theorem emit_side (s : State) (o : Out) : (emit s o).side = s.side := rfl

@[simp] theorem setNow_pending (s : State) (c : Nat) : (setNow s c).pending = s.pending := rfl
@[simp] theorem setNow_free (s : State) (c : Nat) : (setNow s c).free = s.free := rfl
@[simp] theorem setNow_cond (s : State) (c : Nat) : (setNow s c).cond = s.cond := rfl
@[simp] theorem setNow_readData (s : State) (c : Nat) : (setNow s c).readData = s.readData := rfl
@[simp] theorem setNow_out (s : State) (c : Nat) : (setNow s c).out = s.out := rfl
@[simp] theorem setNow_csnNext (s : State) (c : Nat) : (setNow s c).csnNext = s.csnNext := rfl
@[simp] theorem setNow_csnIssued (s : State) (c : Nat) : (setNow s c).csnIssued = s.csnIssued := rfl
@[simp] theorem setNow_csnBlock (s : State) (c : Nat) : (setNow s c).csnBlock = s.csnBlock := rfl
@[simp] theorem setNow_ctxs (s : State) (c : Nat) : (setNow s c).ctxs = s.ctxs := rfl
@[simp] theorem setNow_errSeq (s : State) (c : Nat) : (setNow s c).errSeq = s.errSeq := rfl
@[simp] theorem setNow_evSeq (s : State) (c : Nat) : (setNow s c).evSeq = s.evSeq := rfl
@[simp] theorem setNow_evHist (s : State) (c : Nat) : (setNow s c).evHist = s.evHist := rfl
@[simp] theorem setNow_raised (s : State) (c : Nat) : (setNow s c).raised = s.raised := rfl
@[simp] theorem setNow_condFrom (s : State) (c : Nat) : (setNow s c).condFrom = s.condFrom := rfl
@[simp] theorem setNow_portA (s : State) (c : Nat) : (setNow s c).portA = s.portA := rfl
@[simp] theorem setNow_portB (s : State) (c : Nat) : (setNow s c).portB = s.portB := rfl
@[simp] theorem setNow_cad (s : State) (c : Nat) : (setNow s c).cad = s.cad := rfl
@[simp] theorem setNow_feat (s : State) (c : Nat) : (setNow s c).feat = s.feat := rfl
@[simp] theorem setNow_health (s : State) (c : Nat) : (setNow s c).health = s.health := rfl
@[simp] theorem setNow_map (s : State) (c : Nat) : (setNow s c).map = s.map := rfl
@[simp] theorem setNow_eng (s : State) (c : Nat) : (setNow s c).eng = s.eng := rfl
@[simp] theorem setNow_media (s : State) (c : Nat) : (setNow s c).media = s.media := rfl
@[simp] theorem setNow_jrnl (s : State) (c : Nat) : (setNow s c).jrnl = s.jrnl := rfl
@[simp] theorem setNow_twin (s : State) (c : Nat) : (setNow s c).twin = s.twin := rfl
@[simp] theorem setNow_dig (s : State) (c : Nat) : (setNow s c).dig = s.dig := rfl
@[simp] theorem setNow_pods (s : State) (c : Nat) : (setNow s c).pods = s.pods := rfl
@[simp] theorem setNow_mover (s : State) (c : Nat) : (setNow s c).mover = s.mover := rfl
@[simp] theorem setNow_kf (s : State) (c : Nat) : (setNow s c).kf = s.kf := rfl
@[simp] theorem setNow_power (s : State) (c : Nat) : (setNow s c).power = s.power := rfl
@[simp] theorem setNow_ctr (s : State) (c : Nat) : (setNow s c).ctr = s.ctr := rfl
@[simp] theorem setNow_side (s : State) (c : Nat) : (setNow s c).side = s.side := rfl

@[simp] theorem raiseEvent_pending (s : State) (k c a b : Nat) (p : Option Port) : (raiseEvent s k c a b p).pending = s.pending := rfl
@[simp] theorem raiseEvent_now (s : State) (k c a b : Nat) (p : Option Port) : (raiseEvent s k c a b p).now = s.now := rfl
@[simp] theorem raiseEvent_free (s : State) (k c a b : Nat) (p : Option Port) : (raiseEvent s k c a b p).free = s.free := rfl
@[simp] theorem raiseEvent_cond (s : State) (k c a b : Nat) (p : Option Port) : (raiseEvent s k c a b p).cond = s.cond := rfl
@[simp] theorem raiseEvent_readData (s : State) (k c a b : Nat) (p : Option Port) : (raiseEvent s k c a b p).readData = s.readData := rfl
@[simp] theorem raiseEvent_out (s : State) (k c a b : Nat) (p : Option Port) : (raiseEvent s k c a b p).out = s.out := rfl
@[simp] theorem raiseEvent_csnNext (s : State) (k c a b : Nat) (p : Option Port) : (raiseEvent s k c a b p).csnNext = s.csnNext := rfl
@[simp] theorem raiseEvent_csnIssued (s : State) (k c a b : Nat) (p : Option Port) : (raiseEvent s k c a b p).csnIssued = s.csnIssued := rfl
@[simp] theorem raiseEvent_csnBlock (s : State) (k c a b : Nat) (p : Option Port) : (raiseEvent s k c a b p).csnBlock = s.csnBlock := rfl
@[simp] theorem raiseEvent_ctxs (s : State) (k c a b : Nat) (p : Option Port) : (raiseEvent s k c a b p).ctxs = s.ctxs := rfl
@[simp] theorem raiseEvent_errSeq (s : State) (k c a b : Nat) (p : Option Port) : (raiseEvent s k c a b p).errSeq = s.errSeq := rfl
@[simp] theorem raiseEvent_evSeq (s : State) (k c a b : Nat) (p : Option Port) : (raiseEvent s k c a b p).evSeq = s.evSeq := rfl
@[simp] theorem raiseEvent_evHist (s : State) (k c a b : Nat) (p : Option Port) : (raiseEvent s k c a b p).evHist = s.evHist := rfl
@[simp] theorem raiseEvent_condFrom (s : State) (k c a b : Nat) (p : Option Port) : (raiseEvent s k c a b p).condFrom = s.condFrom := rfl
@[simp] theorem raiseEvent_portA (s : State) (k c a b : Nat) (p : Option Port) : (raiseEvent s k c a b p).portA = s.portA := rfl
@[simp] theorem raiseEvent_portB (s : State) (k c a b : Nat) (p : Option Port) : (raiseEvent s k c a b p).portB = s.portB := rfl
@[simp] theorem raiseEvent_cad (s : State) (k c a b : Nat) (p : Option Port) : (raiseEvent s k c a b p).cad = s.cad := rfl
@[simp] theorem raiseEvent_feat (s : State) (k c a b : Nat) (p : Option Port) : (raiseEvent s k c a b p).feat = s.feat := rfl
@[simp] theorem raiseEvent_health (s : State) (k c a b : Nat) (p : Option Port) : (raiseEvent s k c a b p).health = s.health := rfl
@[simp] theorem raiseEvent_map (s : State) (k c a b : Nat) (p : Option Port) : (raiseEvent s k c a b p).map = s.map := rfl
@[simp] theorem raiseEvent_eng (s : State) (k c a b : Nat) (p : Option Port) : (raiseEvent s k c a b p).eng = s.eng := rfl
@[simp] theorem raiseEvent_media (s : State) (k c a b : Nat) (p : Option Port) : (raiseEvent s k c a b p).media = s.media := rfl
@[simp] theorem raiseEvent_jrnl (s : State) (k c a b : Nat) (p : Option Port) : (raiseEvent s k c a b p).jrnl = s.jrnl := rfl
@[simp] theorem raiseEvent_twin (s : State) (k c a b : Nat) (p : Option Port) : (raiseEvent s k c a b p).twin = s.twin := rfl
@[simp] theorem raiseEvent_dig (s : State) (k c a b : Nat) (p : Option Port) : (raiseEvent s k c a b p).dig = s.dig := rfl
@[simp] theorem raiseEvent_pods (s : State) (k c a b : Nat) (p : Option Port) : (raiseEvent s k c a b p).pods = s.pods := rfl
@[simp] theorem raiseEvent_mover (s : State) (k c a b : Nat) (p : Option Port) : (raiseEvent s k c a b p).mover = s.mover := rfl
@[simp] theorem raiseEvent_kf (s : State) (k c a b : Nat) (p : Option Port) : (raiseEvent s k c a b p).kf = s.kf := rfl
@[simp] theorem raiseEvent_power (s : State) (k c a b : Nat) (p : Option Port) : (raiseEvent s k c a b p).power = s.power := rfl
@[simp] theorem raiseEvent_ctr (s : State) (k c a b : Nat) (p : Option Port) : (raiseEvent s k c a b p).ctr = s.ctr := rfl
@[simp] theorem raiseEvent_side (s : State) (k c a b : Nat) (p : Option Port) : (raiseEvent s k c a b p).side = s.side := rfl

@[simp] theorem setFlags_pending (s : State) (fs : List (Nat × Bool)) : (setFlags s fs).pending = s.pending := rfl
@[simp] theorem setFlags_now (s : State) (fs : List (Nat × Bool)) : (setFlags s fs).now = s.now := rfl
@[simp] theorem setFlags_free (s : State) (fs : List (Nat × Bool)) : (setFlags s fs).free = s.free := rfl
@[simp] theorem setFlags_readData (s : State) (fs : List (Nat × Bool)) : (setFlags s fs).readData = s.readData := rfl
@[simp] theorem setFlags_out (s : State) (fs : List (Nat × Bool)) : (setFlags s fs).out = s.out := rfl
@[simp] theorem setFlags_csnNext (s : State) (fs : List (Nat × Bool)) : (setFlags s fs).csnNext = s.csnNext := rfl
@[simp] theorem setFlags_csnIssued (s : State) (fs : List (Nat × Bool)) : (setFlags s fs).csnIssued = s.csnIssued := rfl
@[simp] theorem setFlags_csnBlock (s : State) (fs : List (Nat × Bool)) : (setFlags s fs).csnBlock = s.csnBlock := rfl
@[simp] theorem setFlags_ctxs (s : State) (fs : List (Nat × Bool)) : (setFlags s fs).ctxs = s.ctxs := rfl
@[simp] theorem setFlags_errSeq (s : State) (fs : List (Nat × Bool)) : (setFlags s fs).errSeq = s.errSeq := rfl
@[simp] theorem setFlags_evSeq (s : State) (fs : List (Nat × Bool)) : (setFlags s fs).evSeq = s.evSeq := rfl
@[simp] theorem setFlags_evHist (s : State) (fs : List (Nat × Bool)) : (setFlags s fs).evHist = s.evHist := rfl
@[simp] theorem setFlags_raised (s : State) (fs : List (Nat × Bool)) : (setFlags s fs).raised = s.raised := rfl
@[simp] theorem setFlags_portA (s : State) (fs : List (Nat × Bool)) : (setFlags s fs).portA = s.portA := rfl
@[simp] theorem setFlags_portB (s : State) (fs : List (Nat × Bool)) : (setFlags s fs).portB = s.portB := rfl
@[simp] theorem setFlags_cad (s : State) (fs : List (Nat × Bool)) : (setFlags s fs).cad = s.cad := rfl
@[simp] theorem setFlags_feat (s : State) (fs : List (Nat × Bool)) : (setFlags s fs).feat = s.feat := rfl
@[simp] theorem setFlags_health (s : State) (fs : List (Nat × Bool)) : (setFlags s fs).health = s.health := rfl
@[simp] theorem setFlags_map (s : State) (fs : List (Nat × Bool)) : (setFlags s fs).map = s.map := rfl
@[simp] theorem setFlags_eng (s : State) (fs : List (Nat × Bool)) : (setFlags s fs).eng = s.eng := rfl
@[simp] theorem setFlags_media (s : State) (fs : List (Nat × Bool)) : (setFlags s fs).media = s.media := rfl
@[simp] theorem setFlags_jrnl (s : State) (fs : List (Nat × Bool)) : (setFlags s fs).jrnl = s.jrnl := rfl
@[simp] theorem setFlags_twin (s : State) (fs : List (Nat × Bool)) : (setFlags s fs).twin = s.twin := rfl
@[simp] theorem setFlags_dig (s : State) (fs : List (Nat × Bool)) : (setFlags s fs).dig = s.dig := rfl
@[simp] theorem setFlags_pods (s : State) (fs : List (Nat × Bool)) : (setFlags s fs).pods = s.pods := rfl
@[simp] theorem setFlags_mover (s : State) (fs : List (Nat × Bool)) : (setFlags s fs).mover = s.mover := rfl
@[simp] theorem setFlags_kf (s : State) (fs : List (Nat × Bool)) : (setFlags s fs).kf = s.kf := rfl
@[simp] theorem setFlags_power (s : State) (fs : List (Nat × Bool)) : (setFlags s fs).power = s.power := rfl
@[simp] theorem setFlags_ctr (s : State) (fs : List (Nat × Bool)) : (setFlags s fs).ctr = s.ctr := rfl
@[simp] theorem setFlags_side (s : State) (fs : List (Nat × Bool)) : (setFlags s fs).side = s.side := rfl

@[simp] theorem setPort_pending (s : State) (p : Port) (x : PortSt) : (setPort s p x).pending = s.pending := by cases p <;> rfl
@[simp] theorem updPort_pending (s : State) (p : Port) (f : PortSt → PortSt) : (updPort s p f).pending = s.pending := by cases p <;> rfl
@[simp] theorem setPort_now (s : State) (p : Port) (x : PortSt) : (setPort s p x).now = s.now := by cases p <;> rfl
@[simp] theorem updPort_now (s : State) (p : Port) (f : PortSt → PortSt) : (updPort s p f).now = s.now := by cases p <;> rfl
@[simp] theorem setPort_free (s : State) (p : Port) (x : PortSt) : (setPort s p x).free = s.free := by cases p <;> rfl
@[simp] theorem updPort_free (s : State) (p : Port) (f : PortSt → PortSt) : (updPort s p f).free = s.free := by cases p <;> rfl
@[simp] theorem setPort_cond (s : State) (p : Port) (x : PortSt) : (setPort s p x).cond = s.cond := by cases p <;> rfl
@[simp] theorem updPort_cond (s : State) (p : Port) (f : PortSt → PortSt) : (updPort s p f).cond = s.cond := by cases p <;> rfl
@[simp] theorem setPort_readData (s : State) (p : Port) (x : PortSt) : (setPort s p x).readData = s.readData := by cases p <;> rfl
@[simp] theorem updPort_readData (s : State) (p : Port) (f : PortSt → PortSt) : (updPort s p f).readData = s.readData := by cases p <;> rfl
@[simp] theorem setPort_out (s : State) (p : Port) (x : PortSt) : (setPort s p x).out = s.out := by cases p <;> rfl
@[simp] theorem updPort_out (s : State) (p : Port) (f : PortSt → PortSt) : (updPort s p f).out = s.out := by cases p <;> rfl
@[simp] theorem setPort_csnNext (s : State) (p : Port) (x : PortSt) : (setPort s p x).csnNext = s.csnNext := by cases p <;> rfl
@[simp] theorem updPort_csnNext (s : State) (p : Port) (f : PortSt → PortSt) : (updPort s p f).csnNext = s.csnNext := by cases p <;> rfl
@[simp] theorem setPort_csnIssued (s : State) (p : Port) (x : PortSt) : (setPort s p x).csnIssued = s.csnIssued := by cases p <;> rfl
@[simp] theorem updPort_csnIssued (s : State) (p : Port) (f : PortSt → PortSt) : (updPort s p f).csnIssued = s.csnIssued := by cases p <;> rfl
@[simp] theorem setPort_csnBlock (s : State) (p : Port) (x : PortSt) : (setPort s p x).csnBlock = s.csnBlock := by cases p <;> rfl
@[simp] theorem updPort_csnBlock (s : State) (p : Port) (f : PortSt → PortSt) : (updPort s p f).csnBlock = s.csnBlock := by cases p <;> rfl
@[simp] theorem setPort_ctxs (s : State) (p : Port) (x : PortSt) : (setPort s p x).ctxs = s.ctxs := by cases p <;> rfl
@[simp] theorem updPort_ctxs (s : State) (p : Port) (f : PortSt → PortSt) : (updPort s p f).ctxs = s.ctxs := by cases p <;> rfl
@[simp] theorem setPort_errSeq (s : State) (p : Port) (x : PortSt) : (setPort s p x).errSeq = s.errSeq := by cases p <;> rfl
@[simp] theorem updPort_errSeq (s : State) (p : Port) (f : PortSt → PortSt) : (updPort s p f).errSeq = s.errSeq := by cases p <;> rfl
@[simp] theorem setPort_evSeq (s : State) (p : Port) (x : PortSt) : (setPort s p x).evSeq = s.evSeq := by cases p <;> rfl
@[simp] theorem updPort_evSeq (s : State) (p : Port) (f : PortSt → PortSt) : (updPort s p f).evSeq = s.evSeq := by cases p <;> rfl
@[simp] theorem setPort_evHist (s : State) (p : Port) (x : PortSt) : (setPort s p x).evHist = s.evHist := by cases p <;> rfl
@[simp] theorem updPort_evHist (s : State) (p : Port) (f : PortSt → PortSt) : (updPort s p f).evHist = s.evHist := by cases p <;> rfl
@[simp] theorem setPort_raised (s : State) (p : Port) (x : PortSt) : (setPort s p x).raised = s.raised := by cases p <;> rfl
@[simp] theorem updPort_raised (s : State) (p : Port) (f : PortSt → PortSt) : (updPort s p f).raised = s.raised := by cases p <;> rfl
@[simp] theorem setPort_condFrom (s : State) (p : Port) (x : PortSt) : (setPort s p x).condFrom = s.condFrom := by cases p <;> rfl
@[simp] theorem updPort_condFrom (s : State) (p : Port) (f : PortSt → PortSt) : (updPort s p f).condFrom = s.condFrom := by cases p <;> rfl
@[simp] theorem setPort_cad (s : State) (p : Port) (x : PortSt) : (setPort s p x).cad = s.cad := by cases p <;> rfl
@[simp] theorem updPort_cad (s : State) (p : Port) (f : PortSt → PortSt) : (updPort s p f).cad = s.cad := by cases p <;> rfl
@[simp] theorem setPort_feat (s : State) (p : Port) (x : PortSt) : (setPort s p x).feat = s.feat := by cases p <;> rfl
@[simp] theorem updPort_feat (s : State) (p : Port) (f : PortSt → PortSt) : (updPort s p f).feat = s.feat := by cases p <;> rfl
@[simp] theorem setPort_health (s : State) (p : Port) (x : PortSt) : (setPort s p x).health = s.health := by cases p <;> rfl
@[simp] theorem updPort_health (s : State) (p : Port) (f : PortSt → PortSt) : (updPort s p f).health = s.health := by cases p <;> rfl
@[simp] theorem setPort_map (s : State) (p : Port) (x : PortSt) : (setPort s p x).map = s.map := by cases p <;> rfl
@[simp] theorem updPort_map (s : State) (p : Port) (f : PortSt → PortSt) : (updPort s p f).map = s.map := by cases p <;> rfl
@[simp] theorem setPort_eng (s : State) (p : Port) (x : PortSt) : (setPort s p x).eng = s.eng := by cases p <;> rfl
@[simp] theorem updPort_eng (s : State) (p : Port) (f : PortSt → PortSt) : (updPort s p f).eng = s.eng := by cases p <;> rfl
@[simp] theorem setPort_media (s : State) (p : Port) (x : PortSt) : (setPort s p x).media = s.media := by cases p <;> rfl
@[simp] theorem updPort_media (s : State) (p : Port) (f : PortSt → PortSt) : (updPort s p f).media = s.media := by cases p <;> rfl
@[simp] theorem setPort_jrnl (s : State) (p : Port) (x : PortSt) : (setPort s p x).jrnl = s.jrnl := by cases p <;> rfl
@[simp] theorem updPort_jrnl (s : State) (p : Port) (f : PortSt → PortSt) : (updPort s p f).jrnl = s.jrnl := by cases p <;> rfl
@[simp] theorem setPort_twin (s : State) (p : Port) (x : PortSt) : (setPort s p x).twin = s.twin := by cases p <;> rfl
@[simp] theorem updPort_twin (s : State) (p : Port) (f : PortSt → PortSt) : (updPort s p f).twin = s.twin := by cases p <;> rfl
@[simp] theorem setPort_dig (s : State) (p : Port) (x : PortSt) : (setPort s p x).dig = s.dig := by cases p <;> rfl
@[simp] theorem updPort_dig (s : State) (p : Port) (f : PortSt → PortSt) : (updPort s p f).dig = s.dig := by cases p <;> rfl
@[simp] theorem setPort_pods (s : State) (p : Port) (x : PortSt) : (setPort s p x).pods = s.pods := by cases p <;> rfl
@[simp] theorem updPort_pods (s : State) (p : Port) (f : PortSt → PortSt) : (updPort s p f).pods = s.pods := by cases p <;> rfl
@[simp] theorem setPort_mover (s : State) (p : Port) (x : PortSt) : (setPort s p x).mover = s.mover := by cases p <;> rfl
@[simp] theorem updPort_mover (s : State) (p : Port) (f : PortSt → PortSt) : (updPort s p f).mover = s.mover := by cases p <;> rfl
@[simp] theorem setPort_kf (s : State) (p : Port) (x : PortSt) : (setPort s p x).kf = s.kf := by cases p <;> rfl
@[simp] theorem updPort_kf (s : State) (p : Port) (f : PortSt → PortSt) : (updPort s p f).kf = s.kf := by cases p <;> rfl
@[simp] theorem setPort_power (s : State) (p : Port) (x : PortSt) : (setPort s p x).power = s.power := by cases p <;> rfl
@[simp] theorem updPort_power (s : State) (p : Port) (f : PortSt → PortSt) : (updPort s p f).power = s.power := by cases p <;> rfl
@[simp] theorem setPort_ctr (s : State) (p : Port) (x : PortSt) : (setPort s p x).ctr = s.ctr := by cases p <;> rfl
@[simp] theorem updPort_ctr (s : State) (p : Port) (f : PortSt → PortSt) : (updPort s p f).ctr = s.ctr := by cases p <;> rfl
@[simp] theorem setPort_side (s : State) (p : Port) (x : PortSt) : (setPort s p x).side = s.side := by cases p <;> rfl
@[simp] theorem updPort_side (s : State) (p : Port) (f : PortSt → PortSt) : (updPort s p f).side = s.side := by cases p <;> rfl

@[simp] theorem portOf_setPort (s : State) (p : Port) (x : PortSt) : portOf (setPort s p x) p = x := by cases p <;> rfl
@[simp] theorem portOf_setPort_other (s : State) (p : Port) (x : PortSt) {q : Port} (h : q ≠ p) : portOf (setPort s p x) q = portOf s q := by cases p <;> cases q <;> first | rfl | exact absurd rfl h
@[simp] theorem portOf_updPort (s : State) (p : Port) (f : PortSt → PortSt) : portOf (updPort s p f) p = f (portOf s p) := by cases p <;> rfl
@[simp] theorem portOf_updPort_other (s : State) (p : Port) (f : PortSt → PortSt) {q : Port} (h : q ≠ p) : portOf (updPort s p f) q = portOf s q := by cases p <;> cases q <;> first | rfl | exact absurd rfl h

end Sys2Proof.Machine
end

