-- ==== Sys2Proof/Laws/Steady.lean ====
section
/-! SUPPORT. What programming pages, opening, filling and closing sets, and copying units leave of the media cluster: all of it but the open
sets, the pages, the dies and what waits for a draw, the set counter and FULL. -/
namespace Sys2Proof.Laws
open Sys2Proof Sys2Proof.Machine

set_option linter.unusedSimpArgs false
set_option linter.unusedTactic false
set_option linter.unreachableTactic false

/-- The media cluster without the fields that page programs and set openings change. -/
def steadyMedia (m : Media) : Media := { m with blockSeqHigh := 0, opens := [], pages := [], dies := [], undrawn := [], full := false }

/-- Of a state. -/
def steady (s : State) : Media := steadyMedia s.media

theorem steady_of_media {s t : State} (h : t.media = s.media) : steady t = steady s := by unfold steady; rw [h]

theorem steady_of_rest {s t : State} (h : rest (but .media) t = rest (but .media) s) : steady t = steady s := steady_of_media (media_of_rest h rfl)

theorem steady_updMedia (s : State) (f : Media → Media) (h : ∀ m, steadyMedia (f m) = steadyMedia m) : steady (updMedia s f) = steady s := h s.media

theorem steady_ite (c : Prop) [Decidable c] (a b : State) : steady (if c then a else b) = if c then steady a else steady b := by split <;> rfl

theorem steady_fold {α : Type} (l : List α) (g : State → α → State) (hg : ∀ u a, steady (g u a) = steady u) (s : State) :
    steady (l.foldl g s) = steady s := by
  induction l generalizing s with
  | nil => rfl
  | cons a l ih => rw [List.foldl_cons, ih, hg]

theorem steady_askMap (s : State) (r : MapReq) : steady (askMap s r) = steady s := steady_of_rest (rest_askMap (L := but .media) rfl s r)
theorem steady_commitRec (s : State) (body : JRec) : steady (commitRec s body) = steady s := steady_of_rest (rest_commitRec (L := but .media) rfl s body)
theorem steady_countEvent (s : State) (e inst n : Nat) : steady (countEvent s e inst n) = steady s := steady_of_rest (rest_countEvent (L := but .media) rfl s e inst n)
theorem steady_countOp (s : State) (op : DieOp) : steady (countOp s op) = steady s := steady_of_rest (rest_countOp (L := but .media) rfl s op)
theorem steady_unflush (s : State) (seq row : Nat) : steady (unflush s seq row) = steady s := steady_of_rest (rest_unflush (L := but .media) rfl s seq row)
theorem steady_updHealth (s : State) (f : Health → Health) : steady (updHealth s f) = steady s := rfl
theorem steady_updMap (s : State) (f : MapImg → MapImg) : steady (updMap s f) = steady s := rfl

theorem steady_updDie (s : State) (d : DieId) (f : DieSt → DieSt) : steady (updDie s d f) = steady s := by
  unfold updDie
  repeat' (first | with_reducible rfl | (with_reducible refine steady_fold _ _ (fun u a => ?_) _) | (with_reducible refine (steady_fold _ _ (fun u a => ?_) _).trans ?_) | simp (disch := (intro; rfl)) only [steady_ite, ite_self, ↓steady_updMedia] | (intro; rfl) | split | rfl)

theorem steady_settleFull (s : State) : steady (settleFull s) = steady s := by
  unfold settleFull
  repeat' (first | with_reducible rfl | (with_reducible refine steady_fold _ _ (fun u a => ?_) _) | (with_reducible refine (steady_fold _ _ (fun u a => ?_) _).trans ?_) | simp (disch := (intro; rfl)) only [steady_ite, ite_self, ↓steady_updMedia] | (intro; rfl) | split | rfl)

theorem steady_startDie (s : State) (id : DieId) : steady (startDie s id) = steady s := by
  unfold startDie
  repeat' (first | with_reducible rfl | (with_reducible refine steady_fold _ _ (fun u a => ?_) _) | (with_reducible refine (steady_fold _ _ (fun u a => ?_) _).trans ?_) | simp (disch := (intro; rfl)) only [steady_ite, ite_self, ↓steady_countOp, ↓steady_updDie] | (intro; rfl) | split | rfl)

theorem steady_enqueueOp (s : State) (op : DieOp) : steady (enqueueOp s op) = steady s := by
  unfold enqueueOp
  repeat' (first | with_reducible rfl | (with_reducible refine steady_fold _ _ (fun u a => ?_) _) | (with_reducible refine (steady_fold _ _ (fun u a => ?_) _).trans ?_) | simp (disch := (intro; rfl)) only [steady_ite, ite_self, ↓steady_startDie, ↓steady_updDie] | (intro; rfl) | split | rfl)

theorem steady_issueOp (s : State) (op : DieOp) : steady (issueOp s op) = steady s := by
  unfold issueOp
  repeat' (first | with_reducible rfl | (with_reducible refine steady_fold _ _ (fun u a => ?_) _) | (with_reducible refine (steady_fold _ _ (fun u a => ?_) _).trans ?_) | simp (disch := (intro; rfl)) only [steady_ite, ite_self, ↓steady_enqueueOp, ↓steady_updMedia] | (intro; rfl) | split | rfl)

theorem steady_putPage (s : State) (p : PageRec) : steady (putPage s p) = steady s := by
  unfold putPage
  repeat' (first | with_reducible rfl | (with_reducible refine steady_fold _ _ (fun u a => ?_) _) | (with_reducible refine (steady_fold _ _ (fun u a => ?_) _).trans ?_) | simp (disch := (intro; rfl)) only [steady_ite, ite_self, ↓steady_updMedia] | (intro; rfl) | split | rfl)

theorem steady_programPage (s : State) (page : Madr) (who : Nat) : steady (programPage s page who) = steady s := by
  unfold programPage
  repeat' (first | with_reducible rfl | (with_reducible refine steady_fold _ _ (fun u a => ?_) _) | (with_reducible refine (steady_fold _ _ (fun u a => ?_) _).trans ?_) | simp (disch := (intro; rfl)) only [steady_ite, ite_self, ↓steady_issueOp, ↓steady_putPage, ↓steady_updHealth] | (intro; rfl) | split | rfl)

theorem steady_writePage (s : State) (p : PageRec) (who : Nat) : steady (writePage s p who) = steady s := by
  unfold writePage
  repeat' (first | with_reducible rfl | (with_reducible refine steady_fold _ _ (fun u a => ?_) _) | (with_reducible refine (steady_fold _ _ (fun u a => ?_) _).trans ?_) | simp (disch := (intro; rfl)) only [steady_ite, ite_self, ↓steady_programPage, ↓steady_putPage] | (intro; rfl) | split | rfl)

theorem steady_updOpen (s : State) (seq : Nat) (f : OpenSet → OpenSet) : steady (updOpen s seq f) = steady s := by
  unfold updOpen
  repeat' (first | with_reducible rfl | (with_reducible refine steady_fold _ _ (fun u a => ?_) _) | (with_reducible refine (steady_fold _ _ (fun u a => ?_) _).trans ?_) | simp (disch := (intro; rfl)) only [steady_ite, ite_self, ↓steady_updMedia] | (intro; rfl) | split | rfl)

theorem steady_updRow (s : State) (seq row : Nat) (f : RowSt → RowSt) : steady (updRow s seq row f) = steady s := by
  unfold updRow
  repeat' (first | with_reducible rfl | (with_reducible refine steady_fold _ _ (fun u a => ?_) _) | (with_reducible refine (steady_fold _ _ (fun u a => ?_) _).trans ?_) | simp (disch := (intro; rfl)) only [steady_ite, ite_self, ↓steady_updOpen] | (intro; rfl) | split | rfl)

theorem steady_startRow (s : State) (o : OpenSet) : steady (startRow s o).1 = steady s := rfl

theorem steady_programParity (s : State) (k : SetRec) (row who : Nat) : steady (programParity s k row who) = steady s := by
  unfold programParity
  repeat' (first | with_reducible rfl | (with_reducible refine steady_fold _ _ (fun u a => ?_) _) | (with_reducible refine (steady_fold _ _ (fun u a => ?_) _).trans ?_) | simp (disch := (intro; rfl)) only [steady_ite, ite_self, ↓steady_countEvent, ↓steady_updRow, ↓steady_writePage] | (intro; rfl) | split | rfl)

theorem steady_putSlot {s t : State} {k : SetRec} {r : RowSt} {kind who : Nat} {x : SlotRec} {a : Madr}
    (h : putSlot s k r kind who x = some (t, a)) : steady t = steady s := by
  unfold putSlot at h
  split at h
  · cases h
  · dsimp only at h
    simp only [Option.some.injEq, Prod.mk.injEq] at h
    rw [← h.1]
    repeat' split
    all_goals simp only [steady_programParity, steady_programPage, steady_updRow, steady_putPage]

theorem steady_placeSlot {s t : State} {st : Stream} {kind who : Nat} {x : SlotRec} {a : Madr}
    (h : placeSlot s st kind who x = some (t, a)) : steady t = steady s := by
  unfold placeSlot at h
  obtain ⟨ok, -, h⟩ := List.exists_of_findSome?_eq_some h
  repeat' split at h
  all_goals first | cases h | exact steady_putSlot h | exact (steady_putSlot h).trans (steady_startRow ..)

theorem steady_padRow (s : State) (k : SetRec) (row who : Nat) : steady (padRow s k row who) = steady s := by
  unfold padRow
  repeat' (first | with_reducible rfl | (with_reducible refine steady_fold _ _ (fun u a => ?_) _) | (with_reducible refine (steady_fold _ _ (fun u a => ?_) _).trans ?_) | simp (disch := (intro; rfl)) only [steady_ite, ite_self, ↓steady_programPage, ↓steady_programParity, ↓steady_updRow, ↓steady_writePage] | (intro; rfl) | split | rfl)

theorem steady_padOpenRow (s : State) (seq : Nat) : steady (padOpenRow s seq) = steady s := by
  unfold padOpenRow
  repeat' (first | with_reducible rfl | (with_reducible refine steady_fold _ _ (fun u a => ?_) _) | (with_reducible refine (steady_fold _ _ (fun u a => ?_) _).trans ?_) | simp (disch := (intro; rfl)) only [steady_ite, ite_self, ↓steady_padRow] | (intro; rfl) | split | rfl)

theorem steady_padTail (s : State) (k : SetRec) : steady (padTail s k) = steady s := by
  unfold padTail
  repeat' (first | with_reducible rfl | (with_reducible refine steady_fold _ _ (fun u a => ?_) _) | (with_reducible refine (steady_fold _ _ (fun u a => ?_) _).trans ?_) | simp (disch := (intro; rfl)) only [steady_ite, ite_self, ↓steady_writePage] | (intro; rfl) | split | rfl)

theorem steady_padPair (s : State) (k : SetRec) (lastValid : Option Nat) : steady (padPair s k lastValid) = steady s := by
  unfold padPair
  repeat' (first | with_reducible rfl | (with_reducible refine steady_fold _ _ (fun u a => ?_) _) | (with_reducible refine (steady_fold _ _ (fun u a => ?_) _).trans ?_) | simp (disch := (intro; rfl)) only [steady_ite, ite_self, ↓steady_writePage] | (intro; rfl) | split | rfl)

theorem steady_closeSet (s : State) (seq : Nat) (last abandoned : Option Nat) : steady (closeSet s seq last abandoned) = steady s := by
  unfold closeSet
  repeat' (first | with_reducible rfl | (with_reducible refine steady_fold _ _ (fun u a => ?_) _) | (with_reducible refine (steady_fold _ _ (fun u a => ?_) _).trans ?_) | simp (disch := (intro; rfl)) only [steady_ite, ite_self, ↓steady_commitRec, ↓steady_padPair, ↓steady_padTail, ↓steady_unflush, ↓steady_updOpen] | (intro; rfl) | split | rfl)

theorem steady_finishSet (s : State) (seq : Nat) : steady (finishSet s seq) = steady s := by
  unfold finishSet
  repeat' (first | with_reducible rfl | (with_reducible refine steady_fold _ _ (fun u a => ?_) _) | (with_reducible refine (steady_fold _ _ (fun u a => ?_) _).trans ?_) | simp (disch := (intro; rfl)) only [steady_ite, ite_self, ↓steady_updMap, ↓steady_updMedia] | (intro; rfl) | split | rfl)

theorem steady_moveUnit {s t : State} {ag : Agent} {ns lba : Nat} {old : Madr} (h : moveUnit s ag ns lba old = some t) : steady t = steady s := by
  unfold moveUnit at h
  repeat' split at h
  all_goals first
    | cases h
    | (rw [Option.map_eq_some_iff] at h
       obtain ⟨ta, h1, h2⟩ := h
       rw [← h2, steady_askMap]
       exact steady_placeSlot (a := ta.2) h1)

theorem steady_writeTile (s : State) (ns seg : Nat) : steady (writeTile s ns seg) = steady s := by
  unfold writeTile
  dsimp only
  repeat' split
  all_goals first
    | rfl
    | (rw [steady_askMap, steady_putPage]; exact steady_placeSlot (by assumption))
    | (rw [steady_askMap]; exact steady_placeSlot (by assumption))

theorem steady_openStandIn (s : State) (k : SetRec) (col : Nat) (page0 : Madr) (who : Nat) : steady (openStandIn s k col page0 who) = steady s := by
  unfold openStandIn
  repeat' (first | with_reducible rfl | (with_reducible refine steady_fold _ _ (fun u a => ?_) _) | (with_reducible refine (steady_fold _ _ (fun u a => ?_) _).trans ?_) | simp (disch := (intro; rfl)) only [steady_ite, ite_self, ↓steady_commitRec, ↓steady_writePage] | (intro; rfl) | split | rfl)

theorem steady_fillStandIn (s : State) (k : SetRec) (x : StandIn) (row who : Nat) : steady (fillStandIn s k x row who) = steady s := by
  unfold fillStandIn
  repeat' (first | with_reducible rfl | (with_reducible refine steady_fold _ _ (fun u a => ?_) _) | (with_reducible refine (steady_fold _ _ (fun u a => ?_) _).trans ?_) | simp (disch := (intro; rfl)) only [steady_ite, ite_self, ↓steady_writePage] | (intro; rfl) | split | rfl)

theorem steady_openSet (s : State) (stream : Stream) : steady (openSet s stream) = steady s := by
  unfold openSet
  repeat' (first | with_reducible rfl | (with_reducible refine steady_fold _ _ (fun u a => ?_) _) | (with_reducible refine (steady_fold _ _ (fun u a => ?_) _).trans ?_) | simp (disch := (intro; rfl)) only [steady_ite, ite_self, ↓steady_commitRec, ↓steady_settleFull, ↓steady_writePage, ↓steady_updMedia] | (intro; rfl) | split | rfl)

theorem steady_padOut (s : State) (seq : Nat) (xv : _) : steady (padOut s seq xv) = steady s := by
  fun_induction padOut s seq xv
  all_goals repeat' (first | with_reducible rfl | (with_reducible refine steady_fold _ _ (fun u a => ?_) _) | (with_reducible refine (steady_fold _ _ (fun u a => ?_) _).trans ?_) | simp +zetaDelta (disch := (intro; rfl)) only [steady_ite, ite_self, ↓steady_padRow, ↓steady_startRow] | (with_reducible refine Eq.trans (by assumption) ?_) | (intro; rfl) | split | rfl)

theorem steady_alignPage (s : State) (seq who : Nat) : steady (alignPage s seq who) = steady s := by
  unfold alignPage
  repeat' (first | with_reducible rfl | (with_reducible refine steady_fold _ _ (fun u a => ?_) _) | (with_reducible refine (steady_fold _ _ (fun u a => ?_) _).trans ?_) | simp (disch := (intro; rfl)) only [steady_ite, ite_self, ↓steady_programPage, ↓steady_programParity, ↓steady_updRow] | (intro; rfl) | split | rfl)

theorem steady_makeRoom (s : State) (stream : Stream) : steady (makeRoom s stream) = steady s := by
  unfold makeRoom
  repeat' (first | with_reducible rfl | (with_reducible refine steady_fold _ _ (fun u a => ?_) _) | (with_reducible refine (steady_fold _ _ (fun u a => ?_) _).trans ?_) | simp (disch := (intro; rfl)) only [steady_ite, ite_self, ↓steady_alignPage, ↓steady_padOut] | (intro; rfl) | split | rfl)

theorem steady_placeIn {s t : State} {seq kind who : Nat} {x : SlotRec} {a : Madr}
    (h : placeIn s seq kind who x = some (t, a)) : steady t = steady s := by
  unfold placeIn at h
  repeat' split at h
  all_goals first | cases h | exact steady_putSlot h | exact (steady_putSlot h).trans (steady_startRow ..)

theorem steady_placeAll {s : State} {seq kind who : Nat} (xs : List SlotRec) : ∀ {t a}, placeAll s seq kind who xs = some (t, a) → steady t = steady s := by
  fun_induction placeAll s seq kind who xs
  · intro t a h; cases h
  · intro t a h; cases h
  · rename_i hx _
    intro t a h; cases h; exact steady_placeIn hx
  · rename_i hx _ ih
    intro t a h
    obtain ⟨r, h2, h3⟩ := Option.map_eq_some_iff.mp h
    cases h3
    exact (ih (a := r.2) h2).trans (steady_placeIn hx)

theorem steady_placeExtent {s : State} {who : Nat} {xs : List SlotRec} {t a} (h : placeExtent s who xs = some (t, a)) : steady t = steady s := by
  unfold placeExtent at h
  obtain ⟨ok, -, h⟩ := List.exists_of_findSome?_eq_some h
  split at h
  · cases h
  · exact steady_placeAll _ h

theorem steady_moveCoarse (s : State) (ag : Agent) (ns seg : Nat) (first : Madr) : steady (moveCoarse s ag ns seg first) = steady s := by
  unfold moveCoarse
  dsimp only
  split
  · exact steady_makeRoom ..
  · rename_i h
    obtain ⟨xs, -, h⟩ := Option.bind_eq_some_iff.mp h
    rw [steady_askMap, steady_placeExtent h, steady_makeRoom]

theorem steady_moveUnits (ag : Agent) (ns : Nat) (us : List (Nat × Madr)) (s : State) :
    steady (us.foldl (fun t u => (moveUnit t ag ns u.1 u.2).getD t) s) = steady s := by
  refine steady_fold _ _ (fun u a => ?_) _
  cases h : moveUnit u ag ns a.1 a.2 with
  | none => rfl
  | some t => exact steady_moveUnit h

theorem steady_moveSegment (s : State) (ag : Agent) (k : SetRec) (x : Seg) : steady (moveSegment s ag k x) = steady s := by
  unfold moveSegment
  dsimp only
  repeat' split
  all_goals first | rfl | exact steady_moveUnits .. | exact steady_moveCoarse ..

theorem steady_moveSet (s : State) (ag : Agent) (seq : Nat) : steady (moveSet s ag seq) = steady s := by
  unfold moveSet
  repeat' (first | with_reducible rfl | (with_reducible refine steady_fold _ _ (fun u a => ?_) _) | (with_reducible refine (steady_fold _ _ (fun u a => ?_) _).trans ?_) | simp (disch := (intro; rfl)) only [steady_ite, ite_self, ↓steady_moveSegment, ↓steady_writeTile] | (intro; rfl) | split | rfl)

theorem steady_continueSets (s : State) (ag : Agent) (l : List Nat) : steady (continueSets s ag l) = steady s := by
  unfold continueSets
  repeat' (first | with_reducible rfl | (with_reducible refine steady_fold _ _ (fun u a => ?_) _) | (with_reducible refine (steady_fold _ _ (fun u a => ?_) _).trans ?_) | simp (disch := (intro; rfl)) only [steady_ite, ite_self, ↓steady_moveSet] | (intro; rfl) | split | rfl)

theorem steady_consolidate (s : State) (x : Seg) : steady (consolidate s x) = steady s := by
  unfold consolidate
  dsimp only
  split
  · rfl
  · split
    · exact steady_makeRoom ..
    · rename_i h
      obtain ⟨xs, -, h⟩ := Option.bind_eq_some_iff.mp h
      rw [steady_askMap, steady_placeExtent h, steady_makeRoom]

end Sys2Proof.Laws
end

