-- ==== Sys2Proof/Machine/Codewords.lean ====
section
/-! DEFINITION. Codewords and the areas of a page (R220, R290): the parity that LDPC_CODE gives a payload, and where the four codewords lie. -/
namespace Sys2Proof.Machine
open Sys2Proof

/-- Bits of a codeword's parity part. -/
def parityBits (f : Profile) : Nat := f.mb * f.z

/-- What the payload contributes to the parity checks, in the order of `parityRows` (Table 12-2): bit i is bit i mod 8 of byte i / 8. -/
def payloadSums (f : Profile) (payload : List Byte) : List Bool :=
  let first := 33408 / f.z
  let v := leNat payload
  (List.range f.mb).flatMap (fun r => (List.range f.z).map (fun i =>
    f.circulants.foldl (fun a c => if c.2.1 == r && decide (c.1 < first) then a ^^ v.testBit (c.1 * f.z + (i + c.2.2) % f.z) else a) false))

/-- Equations over GF(2), n unknowns in the low bits and the right side in bit n, brought to reduced form: pivot and equation. -/
def solveBits (n : Nat) : List Nat → List (Nat × Nat) → List (Nat × Nat)
  | [], done => done
  | r :: rs, done =>
    let x := reduceRow done r
    let m := x % 2 ^ n
    if m == 0 then solveBits n rs done
    else
      let p := Nat.log2 m
      solveBits n rs (done.map (fun y => if y.2.testBit p then (y.1, y.2 ^^^ x) else y) ++ [(p, x)])

/-- The parity of a payload: the bytes with which every parity check of H is met (R290). -/
def ldpcParity (f : Profile) (payload : List Byte) : List Byte :=
  let n := parityBits f
  let rows := ((parityRows f).zip (payloadSums f payload)).map (fun x => x.1 + b2n x.2 * 2 ^ n)
  leBytes f.parityBytes ((solveBits n rows []).foldl (fun a y => if y.2.testBit n then a + 2 ^ y.1 else a) 0)

/-- A codeword: payload, then parity (R220). -/
def codeword (f : Profile) (payload : List Byte) : List Byte := payload ++ ldpcParity f payload

/-- The payloads of a page, data or parity (Table 9-2). -/
def pagePayloads (p : PageRec) : List (List Byte) := (List.range 4).map (fun n => slice (pageString p) (4176 * n) 4176)

/-- Data area and spare area of a page of a set: the four codewords end to end over both together, then 0xFF (R220). -/
def pageAreas (f : Profile) (p : PageRec) : List Byte × List Byte :=
  let bs := (pagePayloads p).flatMap (codeword f)
  let full := bs ++ List.replicate (f.pageBytes + f.spareBytes - bs.length) 0xFF
  (full.take f.pageBytes, full.drop f.pageBytes)

end Sys2Proof.Machine
end

