-- ==== Sys2Proof/WellFormed.lean ====
section
/-! DEFINITION. Which operands a command of the table can carry: numbers within the manual's ranges. A command outside them is one that no
sender can send; no check of the machine rests on this. -/
namespace Sys2Proof

/-- Fields of a medium address within Table 8-2. -/
def Madr.wf (m : Madr) : Bool :=
  decide (m.bay < 16) && decide (m.channel < 2) && decide (m.die < 32) && decide (m.plane < 8) && decide (m.block < 2 ^ 15) && decide (m.page < 4096) &&
    decide (m.slot < 4)

/-- A die of a bay (R518). -/
def DieId.wf (d : DieId) : Bool := decide (d.bay < 16) && decide (d.channel < 2) && decide (d.die < 32)

/-- A command context (Table 1-3). -/
def wfCid (cid : Nat) : Bool := decide (cid < 65536)

/-- A queue number (R90). -/
def wfQueue (q : Nat) : Bool := decide (q < 16384)

/-- A bay position (R364). -/
def wfBay (b : Nat) : Bool := decide (b < 16)

/-- Fault kinds of a host read (Table 5-5). -/
def wfKind (kind : Nat) : Bool := decide (1 ≤ kind) && decide (kind ≤ 4)

/-- A list read comes in whole entries of 16 bytes, at most 8,192 of them (R153, R154). -/
def ListRead.wf : ListRead → Bool
  | .entries bs => bs.length % 16 == 0 && decide (bs.length ≤ 131072)
  | .fault bs kind => bs.length % 16 == 0 && decide (bs.length < 131072) && wfKind kind

/-- A host stream as fetched (Table 5-5). -/
def HostFetch.wf : HostFetch → Bool
  | .bytes _ => true
  | .fault _ _ _ kind => wfKind kind
  | .listed list _ bad => list.wf && (bad.map (fun x => wfKind x.2.2)).getD true

/-- FSEQ of a frame, 64 bits (R386). -/
def FrameHead.wf (h : FrameHead) : Bool := decide (h.fseq < 2 ^ 64)

/-- A register named: within BAR0 for a port (R85); over the sideband an address of two bytes (R511), and never configuration space. -/
def wfReg (req : Requester) : RegAddr → Bool
  | .window off => match req with
    | .sideband => decide (off < 65536)
    | .portA | .portB => decide (off < 2 ^ 25)
  | .bar0 _ | .msixControl | .l1Substates => req != .sideband

/-- Byte address within the window of keeper flash that KF_ADDR spells (Table 19-4). -/
def wfFlash (addr : Nat) : Bool := decide (addr < 2 ^ 26)

/-- The operands that the command's sender can give. -/
def Instr.wf : Instr → Bool
  | .cadTickEdge _ _ | .flywheelTick | .cadenceLostSet | .lockTimeout _ | .internalTick | .aetSetApply _ => true
  | .cadControlSourceWrite _ _ | .cadTpsWrite _ | .aetLoRead | .windowStart => true
  | .maintenanceDraw _ die seqNo => die.wf && decide (seqNo < 256)
  | .journalFlush | .checkpointStart _ | .checkpointRootWrite => true
  | .configRequest _ | .portEnable _ _ | .portDisable _ _ | .portShutdown _ _ | .portShutdownDone _ | .portDrainDone _ => true
  | .functionLevelReset _ | .perstAssert _ | .perstDeassert _ | .surpriseDown _ => true
  | .sqTailDoorbell _ queue _ _ _ | .cqHeadDoorbell _ queue _ _ _ => wfQueue queue
  | .submissionFetch _ entries _ => entries.all (fun e => e.length == 16)
  | .entryFetchFault _ kind _ => decide (1 ≤ kind) && decide (kind ≤ 4)
  | .admission _ queue list _ _ => wfQueue queue && list.wf
  | .completionPost cid _ => wfCid cid
  | .queueRestartDone _ queue | .coalesceTimerExpiry _ queue _ => wfQueue queue
  | .msixUnmask _ vector => vector.all (fun v => decide (v < 2048))
  | .eventCtrlWrite _ _ | .csnIssuedLoRead _ => true
  | .rcRegisterRead req reg _ => wfReg req reg
  | .registerWrite req reg _ bytes => wfReg req reg && decide (bytes ≤ 128)
  | .createQueue cid | .deleteQueue cid | .restartQueue cid | .ackResumption cid => wfCid cid
  | .identify cid list | .getLog cid list => wfCid cid && list.wf
  | .getFeature cid | .setPowerTimers cid | .setCadencePlan cid | .setPatrolCycle cid | .setThermalLimits cid => wfCid cid
  | .setHostMapRegion cid _ => wfCid cid
  | .setInterruptCoalescing cid | .setArbitration cid | .setOnionShelf cid | .setEventMask cid | .setJournalInterval cid => wfCid cid
  | .setRebuildShare cid | .setHorizonMinimum cid | .setArchiveTime cid | .setUserCalibration cid => wfCid cid
  | .fwDownload cid data => wfCid cid && data.wf
  | .fwCommit cid | .fwConfirm cid | .fwRevert cid | .namespaceCreate cid | .namespaceDelete cid => wfCid cid
  | .bayCommissionMember cid | .bayCommissionSpare cid | .bayEvacuate cid | .bayCancelEvacuate cid | .bayRelease cid => wfCid cid
  | .bayImport cid survey => wfCid cid && survey.headers.all (fun h => h.1.wf)
  | .rebuildStop cid | .rebuildStart cid | .moverQuery cid | .moverResume cid | .moverResetChannel cid => wfCid cid
  | .patrolPause cid | .patrolResume cid | .patrolRestartCycle cid => wfCid cid
  | .patrolPauseExpiry _ => true
  | .twinPair cid | .twinUnpair cid | .twinHandOver cid | .twinFencePartner cid _ => wfCid cid
  | .write cid data | .compare cid data | .digestOpen cid data | .digestFeedHost cid data => wfCid cid && data.wf
  | .read cid list | .digestSave cid list => wfCid cid && list.wf
  | .verify cid | .deallocate cid | .fill cid | .copy cid | .digestFeedMedium cid | .digestClose cid => wfCid cid
  | .digestFinal cid tail expected => wfCid cid && tail.wf && expected.wf
  | .digestLoad cid onion => wfCid cid && onion.wf
  | .contextSlotWaitEnd cid frame => wfCid cid && frame.wf
  | .digestChunkDispatch => true
  | .digestChunkDone pipe => decide (pipe < 16)
  | .writeHeld cid _ => wfCid cid
  | .pageProgramTimeout page _ => page.wf
  | .rowPadTimeout _ _ | .setOpen _ => true
  | .sequenceEnd die _ statuses _ _ => die.wf && statuses.all (fun n => decide (n < 256))
  | .readSuspend die _ => die.wf
  | .verifyReadDone _ _ reads => reads.all (fun v => v.page.wf && (v.whole.isEmpty || v.whole.length == 4))
  | .writeCommit cid => wfCid cid
  | .mapUpdate => true
  | .mapLookup reader _ => match reader with
    | .command cid _ => wfCid cid
    | .agent _ ns _ | .tile ns _ => decide (ns < 65)
  | .tileWriteback ns _ => decide (ns < 65)
  | .mediumReadIssue page _ => page.wf
  | .decodeDone page slots _ => page.wf && slots.all (fun x => decide (x.1 < 4))
  | .thermalClockMinute samples => samples.all (fun x => x.1.wf && decide (x.2 < 256))
  | .hourlyModelUpdate | .aetWaitTimeout _ => true
  | .patrolCycleStart profile | .reclaimStart profile | .reserveReclaimStart profile => decide (profile < 16)
  | .refreshClaim | .blockClaimRequest _ _ | .preemptHandoff _ | .blockRelease _ => true
  | .blockErase block => block.wf && block.page == 0 && block.slot == 0
  | .stripeJournalRecord => true
  | .descriptorRewrite bay _ => wfBay bay
  | .memberFailure bay die => wfBay bay && die.all (fun d => decide (d < 64))
  | .rebuildRow => true
  | .bayPresenceAccepted bay survey => wfBay bay && survey.dies.all (fun x => decide (x.1 < 64))
  | .bayRemoval bay | .bayFault bay => wfBay bay
  | .commissioningDone bay _ => wfBay bay
  | .evacuationSetMove => true
  | .evacuationDone bay => wfBay bay
  | .importDone result => result.pages.all (fun p => p.addr.wf)
  | .pwrfailFall _ | .holdupComplete | .porstAssert _ => true
  | .porstRelease _ env => decide (env.dramMib ≤ 65536)
  | .restartComplete _ _ | .failedSet _ => true
  | .dramChannelLoss channel _ => decide (channel < 4)
  | .ownershipClaim _ _ _ _ surveys => surveys.all (fun x => wfBay x.1)
  | .heartbeatSend _ => true
  | .partnerLoss _ _ scan _ surveys => scan.all (fun p => p.addr.wf) && surveys.all (fun x => wfBay x.1)
  | .uncleanTakeOver _ found surveys => found.pages.all (fun p => p.addr.wf) && surveys.all (fun x => wfBay x.1)
  | .standbyLinkFallback _ | .ackTimeout _ | .fenceRelease _ | .frameResend _ => true
  | .zynmiLinkTrained lanes => lanes == 1 || lanes == 2 || lanes == 4
  | .zynmiLinkDown _ _ => true
  | .frameHeartbeat h _ _ _ _ _ _ _ => h.wf
  | .frameAck _ fseq _ => decide (fseq < 2 ^ 64)
  | .frameAdmit h _ _ => h.wf
  | .frameJournal h _ _ | .frameState h _ _ | .frameComplete h _ _ | .frameDoorbell h _ _ | .frameFrontier h _ _ => h.wf
  | .frameStop h _ _ | .frameFailing h _ _ | .frameHandOver h _ _ | .frameSyncPiece h _ _ _ | .frameSyncEnd h _ _ => h.wf
  | .framePairHello h hello _ => h.wf && hello.serial.length == 20
  | .framePairKey h point _ => h.wf && point.length == 96
  | .framePairConfirm h bytes _ => h.wf && bytes.length == 16
  | .podRequest requester size _ => decide (requester < 15) && decide (1 ≤ size) && decide (size ≤ 1048576)
  | .podFree pod _ => decide (pod < 5)
  | .moverPost channel _ | .moverDescriptorEnd channel _ => decide (channel < 64)
  | .reqLinePulse line => decide (line < 64)
  | .kfKeyWrite _ _ => true
  | .kfProgram _ addr data _ => wfFlash addr && data.length == 64
  | .kfErase _ addr _ | .kfMarginRead _ addr | .kfRead _ addr | .kfCrcSector _ addr => wfFlash addr
  | .kfCommandDone _ _ _ | .recoveryRequest _ | .recoveryExit _ => true
  | .idleTimerExpiry _ | .ps4NowWrite _ _ => true
  | .psDeepEntry step _ _ => decide (1 ≤ step) && decide (step ≤ 6)
  | .domainsOff _ levelSource => levelSource.all (fun c => decide (1 ≤ c) && decide (c ≤ 10))
  | .wake code _ => decide (1 ≤ code) && decide (code ≤ 10)
  | .maintWakeTimer _ => true
  | .sbAddressMatch address => decide (address < 128)
  | .avsAck _ | .avsRetryTimeout _ | .powerLevelUpdate _ _ => true
  | .sensorSample raw => raw.length == 16
  | .thermalTrip _ _ | .commandSlot _ => true
  | .cntClear req _ | .cntSnap req _ _ | .pscHeadWrite req _ => req != .sideband
  | .snapshotReady _ | .mirrorSnapWrite _ _ => true
  | .cntSelWrite req n _ => req != .sideband && decide (n < 48)
  | .counterLowRead _ _ n => decide (n < 48)
  | .sbRegisterWriteShort offset _ _ => decide (offset < 65536)
  | .rstdaa | .entdaa _ _ | .setdasa _ _ | .setnewda _ _ | .getpid | .getbcr | .getdcr | .getstatus => true
  | .pwrfailRise _ | .pcieLinkUp _ | .twinHbInEdge _ | .alwaysOnPowerUp | .actNStretchEnd _ | .jtagTapStateChange _ => true
  | .latchedPairLowRead req offset => wfReg req (.window offset)

end Sys2Proof
end

