-- ==== Sys2Proof/Tests/Slice0.lean ====
section
/-! SUPPORT. The model's own tests: states and operands that meet the hypotheses of the statements, one step each, with results worked out from the
manual's rules; and a term that each check of WellFormed refuses. -/

set_option Elab.async false
namespace Sys2Proof.Tests
open Sys2Proof Sys2Proof.Machine Sys2Proof.Laws

/-! ## Helpers -/

/-- The command answers a next state of which p holds. -/
def after (o : Host.Outcome State Fault Refusal) (p : State → Bool) : Bool :=
  match o with
  | .next t => p t
  | _ => false

/-- A solo part in PS0 whose host cluster is released and whose restart has ended. -/
def on : State := { State.reset with cond := 0, kf := { Kf.reset with porst := false, released := true } }

/-- A submission entry: opcode, the dwords that follow dword 0, by number. -/
def entry (op : Nat) (fs : List (Nat × Nat)) : List Word :=
  (List.range 16).map (fun n => w32 ((if n = 0 then op else 0) + ((fs.find? (fun f => f.1 == n)).map (·.2)).getD 0))

/-- Context 0 of port A with an entry, on a queue, admitted with CSN 5. -/
def cmd (q op : Nat) (fs : List (Nat × Nat)) : Ctx where
  cid := 0
  port := .a
  queue := q
  sqIndex := 0
  dw := entry op fs
  stage := .admitted
  csn := 5
  status := 0
  result0 := 0
  result1 := 0
  logged := false
  replayed := false
  blockStart := false
  staged := []
  held := false
  fetchFail := none
  units := []
  stream := []
  promised := 0
  admitAck := none
  awaitAck := none
  mapAsked := false
  waitSlot := false
  waitFor := []
  gotSlot := none
  chunkAt := 0
  sampled := false
  tBell := 0
  tFetch := 0
  tAdmit := 0
  tTranslate := 0
  tMedium := 0
  tPerform := 0
  pSource := 0
  pRung := 0
  pMadr := none

/-- The part with one command in a context. -/
def withCmd (s : State) (c : Ctx) : State := { s with ctxs := [c] }

/-- Its context has ended with a status and two results. -/
def ended (t : State) (st : Half) (r0 r1 : Word) : Bool :=
  (ctxOf t 0).any (fun c => c.stage == .ended && c.status == st && c.result0 == r0 && c.result1 == r1)

/-- An I/O queue of 16 entries. -/
def ioq (q : Nat) : Queue where
  qid := q
  st := .active
  sqBase := 0x10000
  cqBase := 0x20000
  sqEntries := 16
  cqEntries := 16
  vector := 0
  prio := 0
  coalCount := 0
  coalTime := 0
  timerTime := 0
  createdCount := 0
  createdTime := 0
  sqTail := 0
  sqHead := 0
  cqTail := 0
  cqHead := 0
  phase := true
  unsignalled := 0
  coalFrom := none
  stopped := false
  resumeIndex := 0
  freezeCq := none
  restart := none
  deleting := none
  bells := []

/-- The part with port A enabled, with queues. -/
def withQueues (s : State) (ks : List Queue) : State :=
  { s with portA := { s.portA with enable := true, ready := true, linkUp := true, perst := false, queues := ks } }

/-! ## Steps and cadence -/

theorem test_step_front : let s := { on with pending := [.cadenceLostSet, .flywheelTick] }
    s.pending = .cadenceLostSet :: [.flywheelTick] ∧ after (step s) (fun t => t.pending == [.flywheelTick]) = true := by decide +kernel

theorem test_step_idle : on.pending = [] ∧ after (step on) (fun t => t == on) = true := by decide +kernel

theorem test_keeper_flash_canonical : memWf on.kf.mem = true ∧ after (step { on with pending := [.flywheelTick] }) (fun t => memWf t.kf.mem) = true := by
  decide +kernel

theorem test_no_word_decodes : decodeTableWord 8 0 = none ∧ decodeTableWord 64 0xA5C3 = none ∧ (on.withFetchWord 8 0).pending = [] := by decide +kernel

/-- R60: the tick count reaches TPS and the second advances. -/
theorem test_flywheel_second : let s := { on with cad := { on.cad with aet := 7 * 65536 + 999 } }
    s.kf.porst = false ∧ s.power.st < 3 ∧ s.cad.pendingSet = none ∧ s.cad.internal = false ∧
      after (exec .flywheelTick s) (fun t => t.cad.aet == 8 * 65536 && t.cad.lastTick == 1000000) = true := by decide +kernel

theorem test_internal_tick : let s := { on with cad := { on.cad with internal := true } }
    s.cad.pendingSet = none ∧ s.cad.internal = true ∧ after (exec .internalTick s) (fun t => t.cad.aet == 1 && t.cad.prediction == 2000000) = true := by
  decide +kernel

/-- R57: an edge 20,000 cycles before the prediction, the limit of the tolerance, is a tick. -/
theorem test_edge_tick : let s := { on with cad := { on.cad with locked := true } }
    s.cad.internal = false ∧ s.cad.locked = true ∧ s.now ≤ 980000 ∧ s.cad.prediction ≤ 980000 + s.cad.period / 50 ∧ 980000 ≤ s.cad.prediction ∧
      after (exec (.cadTickEdge 980000 true) s) (fun t => t.cad.aet == 1 && t.cad.lastTick == 980000) = true := by decide +kernel

theorem test_edge_spurious : let s := { on with cad := { on.cad with locked := true } }
    s.cad.locked = true ∧ 979999 + s.cad.period / 50 < s.cad.prediction ∧ s.cad.lastWasFlywheel = false ∧
      after (exec (.cadTickEdge 979999 true) s) (fun t => t.cad == { s.cad with spurious := 1 }) = true ∧
      after (exec (.cadTickEdge 979999 false) s) (fun t => t.cad == s.cad) = true ∧
      edgeTicks s.cad 980000 = true ∧ after (exec (.cadTickEdge 980000 false) s) (fun t => t.cad == { s.cad with outRunts := 1 }) = true := by decide +kernel

/-- R61: a set two seconds below the tick's own AET still applies; one tick lower it is backward; a tick count of TPS is invalid. -/
theorem test_set_judged :
    let s (v : Nat) : State := { on with cad := { on.cad with aet := 5 * 65536, pendingSet := some ⟨v, false, none⟩ } }
    (s 5).kf.porst = false ∧ (s 5).cad.internal = false ∧ (s 5).power.st < 3 ∧
      after (exec .flywheelTick (s (3 * 65536 + 1))) (fun t => t.cad.setResult == 1 && t.cad.aet == 3 * 65536 + 1 && t.cad.aetValid) = true ∧
      after (exec .flywheelTick (s (3 * 65536))) (fun t => t.cad.setResult == 2 && t.cad.aet == 5 * 65536 + 1) = true ∧
      after (exec .flywheelTick (s (9 * 65536 + 1000))) (fun t => t.cad.setResult == 3 && t.cad.aet == 5 * 65536 + 1) = true := by decide +kernel

theorem test_aet_lo : after (exec .aetLoRead { on with cad := { on.cad with aet := 2 ^ 32 * 9 + 4 } }) (fun t => t.readData == 4 && t.cad.aetHi == 9) = true := by
  decide +kernel

theorem test_aet_set_apply : (1#32).getLsbD 0 = true ∧ (0#32).getLsbD 0 = false ∧
    after (exec (.aetSetApply 1) { on with cad := { on.cad with setHi := 1, setLo := 2 } }) (fun t => t.cad.pendingSet == some ⟨2 ^ 32 + 2, false, none⟩) = true ∧
    after (exec (.aetSetApply 0) on) (fun t => t == on) = true := by decide +kernel

theorem test_cad_tps : after (exec (.cadTpsWrite 250) on) (fun t => t.cad.tpsFixed == 250 && t.cad.pendingTps == some 250) = true ∧
    after (exec (.cadTpsWrite 249) on) (fun t => t == on) = true ∧ after (exec (.cadTpsWrite 4001) on) (fun t => t == on) = true ∧
    after (exec (.cadTpsWrite 0) { on with cad := { on.cad with lockTps := 1200 } }) (fun t => t.cad.tpsFixed == 0 && t.cad.pendingTps == some 1200) = true := by decide +kernel

theorem test_cadence_lost : let s := { on with cad := { on.cad with locked := true, flywheelRun := 32 } }
    flag s.cond bFailed = false ∧ s.cad.locked = true ∧ s.cad.internal = false ∧ 32 ≤ s.cad.flywheelRun ∧
      after (exec .cadenceLostSet s) (fun t => flag t.cond bCadLost && !t.cad.locked) = true := by decide +kernel

theorem test_lock_timeout : let s := { on with cad := { on.cad with lockFrom := some 5 } }
    s.cad.lockFrom = some 5 ∧ s.kf.released = true ∧ s.cad.locked = false ∧ s.cad.internal = false ∧ s.now ≤ 100000005 ∧ 5 + 100000000 ≤ 100000005 ∧
      after (exec (.lockTimeout 100000005) s) (fun t => flag t.cond bCadLost && t.cad.lockFrom.isNone) = true := by decide +kernel

theorem test_source_internal : after (exec (.cadControlSourceWrite 10 1) on) (fun t => t.cad.internal && !t.cad.locked && t.cad.prediction == 1000000) = true ∧
    (1#32).getLsbD 0 = true ∧ on.cad.internal = false := by decide +kernel

theorem test_source_external : let s := { on with cad := { on.cad with internal := true } }
    s.cad.internal = true ∧ (0#32).getLsbD 0 = false ∧
      after (exec (.cadControlSourceWrite 10 0) s) (fun t => !t.cad.internal && t.cad.lockFrom == some 10) = true := by decide +kernel

/-- R74: with B = 0 (no dies) the debt stands and nothing is paid. -/
theorem test_window_start : let s := { on with cad := { on.cad with windowDue := some false, firstWindow := false, charged := 3, chargedNext := 2 } }
    s.cad.windowDue = some false ∧ quietAt s.cad.plan (nowT s) = false ∧
      after (exec .windowStart s) (fun t => t.cad.charged == 2 && t.cad.chargedNext == 0 && t.cad.budget == 0 && t.cad.windowDue.isNone) = true := by decide +kernel

/-- R74 in a quiet window. -/
theorem test_window_quiet : let s := { on with cad := { on.cad with windowDue := some false, plan := ⟨16, 25, BitVec.allOnes 64⟩ } }
    quietAt s.cad.plan (nowT s) = true ∧ after (exec .windowStart s) (fun t => t.cad.nominal == 0 && t.cad.budget == 0) = true := by decide +kernel

/-- An operation that waits for its draw. -/
def waits (who : Nat) : DieOp := ⟨3, ⟨0, 0, 0, 0, 5, 1, 0⟩, who, 0, some 7, false⟩

/-- The part with it. -/
def withWaiting (who : Nat) : State := { on with media := { on.media with undrawn := [waits who] } }

theorem test_draw_refused : let s := withWaiting 7
    s.cad.windowDue = none ∧ waitingOp s .reclaim ⟨0, 0, 0⟩ 3 = some (waits 7) ∧ urgentDraw .reclaim = false ∧ (s.cad.budget : Int) ≤ s.cad.charged ∧
      after (exec (.maintenanceDraw .reclaim ⟨0, 0, 0⟩ 3) s) (fun t => t.cad == s.cad && t.media == s.media) = true := by decide +kernel

theorem test_draw_urgent : let s := withWaiting 4
    waitingOp s .reserveReclaim ⟨0, 0, 0⟩ 3 = some (waits 4) ∧ urgentDraw .reserveReclaim = true ∧ s.power.st = 0 ∧ s.jrnl.stopFrom = none ∧
      s.jrnl.cleanStands = false ∧
      after (exec (.maintenanceDraw .reserveReclaim ⟨0, 0, 0⟩ 3) s) (fun t => t.cad.charged == 7 && t.media.undrawn.isEmpty) = true := by
  decide +kernel

theorem test_issue : drawOf on (waits 7) = some .reclaim ∧ (issueOp on (waits 7)).media.dies = on.media.dies ∧
    (issueOp on (waits 7)).media.undrawn = [{ waits 7 with typical := some 0 }] ∧ drawOf on (waits 2) = none ∧ (issueOp on (waits 2)).media.undrawn = [] := by
  decide +kernel

/-- R25, R26: two flags set and one of them cleared again in one cycle raise one event, with the words of the start and of the end. -/
theorem test_flags : let t := endCycle (setFlags (setFlags on [(bDegraded, true), (bRebuilding, true)]) [(bRebuilding, false)])
    quiet on ∧ changedFlags on.cond t.cond = [bDegraded] ∧ t.cond = 0x0004 ∧ t.evSeq = on.evSeq + 1 ∧
    t.evHist.any (fun e => e.kind == 0 && e.code == bDegraded && e.param0 == 0 && e.param1 == 4 && e.cond == 4) = true ∧
    flag on.cond bFailed = false ∧ on.twin.en = false ∧ (setFlags on [(bRebuilding, true), (bTwinSolo, true)]).cond = 0 ∧
    flag (0x0104 : Half) bFailed = true ∧ (setFlags { on with cond := 0x0104 } [(bDegraded, false)]).cond = 0x0104 ∧
    after (exec (.lockTimeout 100000005) { on with cad := { on.cad with lockFrom := some 5 } }) (fun t => t.raised.isEmpty && t.condFrom.isNone) = true := by
  decide +kernel

/-! ## Ports and queues -/

theorem test_config_request :
    after (exec (.configRequest .a) { on with kf := { on.kf with released := false } }) (fun t => t.portA.cfgRetries == 1 && t.portA.cfgAnswers == 0) = true ∧
    after (exec (.configRequest .b) on) (fun t => t.portB.cfgAnswers == 1 && t.portB.cfgRetries == 0) = true := by decide +kernel

/-- A part whose port A has valid admin queue fields. -/
def fields : State := { on with portA := { on.portA with asqEntries := 2, acqEntries := 4096, asqBase := 0x1000, acqBase := 0x2000 } }

/-- R87: the smallest and the largest ring are accepted; unaligned bases are not; an enable before the release is held. -/
theorem test_port_enable : (1#32).getLsbD 0 = true ∧ fields.portA.enable = false ∧ fields.kf.released = true ∧ fields.portA.draining = false ∧
    adminFieldsOk fields fields.portA = true ∧
    after (exec (.portEnable .a 1) fields) (fun t => t.portA.enable && t.portA.ready && (queueOf t .a 0).any (fun k => k.st == .active && k.phase)) = true := by
  decide +kernel

theorem test_port_enable_refused :
    let bad : State := { fields with portA := { fields.portA with asqBase := 0x1800 } }
    let early : State := { fields with kf := { fields.kf with released := false } }
    adminFieldsOk bad bad.portA = false ∧ after (exec (.portEnable .a 1) bad) (fun t => !t.portA.enable && t.portA.configError) = true ∧
    early.kf.released = false ∧ after (exec (.portEnable .a 1) early) (fun t => t.portA.heldEnable && !t.portA.enable) = true := by decide +kernel

theorem test_link_and_perst : let s : State := { on with portA := { on.portA with perst := false } }
    s.portA.perst = false ∧ s.kf.porst = false ∧ s.power.tripped = false ∧ after (exec (.pcieLinkUp .a) s) (fun t => t.portA.linkUp) = true ∧
    after (exec (.perstDeassert .a) on) (fun t => !t.portA.perst) = true := by decide +kernel

/-- The part with queues 0 and 3 of port A. -/
def q3 : State := withQueues on [ioq 0, ioq 3]

/-- R88: each of the four events stops port A and leaves port B. -/
theorem test_port_disable : quiet q3 ∧ q3.portA.enable = true ∧ (0#32).getLsbD 0 = false ∧
    after (exec (.portDisable .a 0) q3) (fun t => !t.portA.enable && t.portA.queues == [] && t.portA.resumptionPending && t.portB == q3.portB) = true := by
  decide +kernel

theorem test_port_resets :
    after (exec (.functionLevelReset .a) q3) (fun t => !t.portA.enable && t.portA.asqEntries == 0 && t.portB == q3.portB) = true ∧
    after (exec (.perstAssert .a) q3) (fun t => !t.portA.enable && t.portA.perst && !t.portA.linkUp) = true ∧
    q3.portA.linkUp = true ∧ after (exec (.surpriseDown .a) q3) (fun t => !t.portA.enable && !t.portA.linkUp && t.portA.queues == [] && t.portA.res.kind == 3) = true := by decide +kernel

/-- R139: the second link lost makes both logs say so. -/
theorem test_both_links : let s : State := { q3 with portB := { q3.portB with linkLost := true, resumptionPending := true, res := { q3.portB.res with kind := 3 } } }
    quiet s ∧ s.portA.linkUp = true ∧ after (exec (.surpriseDown .a) s) (fun t => t.portA.res.kind == 4 && t.portB.res.kind == 4) = true := by decide +kernel

/-- R89. -/
theorem test_port_shutdown : bits (3#32).toNat 2 1 = 1 ∧
    after (exec (.portShutdown .a 3) q3) (fun t => t.portA.shutdownState == 1 && !canFetch t .a (ioq 3)) = true := by decide +kernel

theorem test_port_shutdown_done :
    let s : State := { q3 with portA := { q3.portA with shutdownState := 1, shutdownReq := 1, shutdownCkpt := some 0 }, jrnl := { q3.jrnl with cleanStands := true } }
    s.jrnl.stopFrom = none ∧ shutdownEnds s .a = true ∧ s.kf.onShutdown = false ∧
      after (exec (.portShutdownDone .a) s) (fun t => t.portA.shutdownState == 2) = true := by decide +kernel

theorem test_port_drain_done : let s : State := { on with portA := { on.portA with draining := true } }
    s.portA.draining = true ∧ portDraining s .a = false ∧ s.portA.heldEnable = false ∧
      after (exec (.portDrainDone .a) s) (fun t => !t.portA.draining && t.portA.res.complete) = true := by decide +kernel

/-- R97: the tail may move up to one short of the head. -/
theorem test_sq_tail : quiet q3 ∧ isOwner q3 = true ∧ queueOf q3 .a 3 = some (ioq 3) ∧ (15#32).toNat < (ioq 3).sqEntries ∧ (15#32).toNat ≠ (ioq 3).sqTail ∧
    sqWaiting (ioq 3) ≤ ((15#32).toNat + 16 - 0) % 16 ∧
    after (exec (.sqTailDoorbell .a 3 15 true 0) q3) (fun t => (queueOf t .a 3).any (fun k => k.sqTail == 15)) = true ∧
    after (exec (.sqTailDoorbell .a 3 16 true 0) q3) (fun t => queueOf t .a 3 == some (ioq 3) && t.errSeq == q3.errSeq + 1) = true := by decide +kernel

theorem test_unknown_queue : isOwner q3 = true ∧ queueOf q3 .a 7 = none ∧
    after (exec (.sqTailDoorbell .a 7 1 true 0) q3) (fun t => t.portA.unknownQueue == 1) = true ∧
    after (exec (.cqHeadDoorbell .a 7 1 true 0) q3) (fun t => t.portA.unknownQueue == 1) = true := by decide +kernel

theorem test_cq_head : let k := { ioq 3 with cqTail := 2 }; let s := withQueues on [ioq 0, k]
    queueOf s .a 3 = some k ∧ (2#32).toNat ≠ k.cqHead ∧ inSpan k.cqEntries k.cqHead k.cqTail (2#32).toNat = true ∧ k.deleting = none ∧
      after (exec (.cqHeadDoorbell .a 3 2 true 0) s) (fun t => (queueOf t .a 3).any (fun k => k.cqHead == 2)) = true := by decide +kernel

/-- One submitted entry on queue 3. -/
def waiting : State :=
  { withQueues on [ioq 0, { ioq 3 with sqTail := 1 }] with kf := { on.kf with img := { on.kf.img with maxQueues := 16 } } }

theorem test_fetch : waiting.now = 0 ∧ (selectQueue waiting .a).map (·.1) = some { ioq 3 with sqTail := 1 } ∧
    after (exec (.submissionFetch .a [entry 0x02 []] 0) waiting) (fun t => t.ctxs.length == 1 && t.csnNext == 1) = true := by decide +kernel

theorem test_fetch_fault :
    after (exec (.entryFetchFault .a 1 0) waiting) (fun t => (ctxOf t 0).any (fun d => d.stage == .refused && d.status == 0x1005 && d.csn == 0)) = true := by
  decide +kernel

/-- A fetched DEALLOCATE on queue 3, for a namespace that does not exist; and an IDENTIFY on queue 0. -/
def fetched (c : Ctx) : State := withCmd waiting { c with stage := .fetched, csn := 0 }

/-- R101, R103: an opcode that queue 3 does not accept is refused with BAD_OPCODE and takes no CSN. -/
theorem test_admission_refused : let c := cmd 3 0x7F []; let s := fetched c
    queueOf s .a 3 = some { ioq 3 with sqTail := 1 } ∧ (fetchedCtxs s .a 3).head? = some { c with stage := .fetched, csn := 0 } ∧ hostStopped s = false ∧
      (judgeEntry s .a 3 c.dw (.entries []) false).isSome = true ∧
      after (exec (.admission .a 3 (.entries []) false 0) s) (fun t => (ctxOf t 0).any (fun e => e.stage == .refused && e.status == 0x1001) && t.csnNext == 1) = true := by
  decide +kernel

/-- A GET_FEATURE on queue 0 is admitted with the next CSN. -/
theorem test_admission : let c := cmd 0 0x82 [(12, 1)]; let s : State := { fetched c with csnNext := 9, csnBlock := 1 }
    judgeEntry s .a 0 c.dw (.entries []) false = none ∧ servedNow s 0 = false ∧ opensBlock s = false ∧
      after (exec (.admission .a 0 (.entries []) false 0) s)
        (fun t => (ctxOf t 0).any (fun e => e.stage == .admitted && e.csn == 9) && t.csnNext == 10 && t.csnIssued == 9) = true := by decide +kernel

/-- R27: on a FAILED part an IDENTIFY is served without a CSN. -/
theorem test_served_failed : let c := cmd 0 0x80 [(6, 0x1000), (8, 4096), (12, 0)]; let s : State := { fetched c with cond := 0x0100 }
    judgeEntry s .a 0 c.dw (.entries []) false = none ∧ servedNow s 0 = true ∧
      after (exec (.admission .a 0 (.entries []) false 0) s) (fun t => (ctxOf t 0).any (fun e => e.stage == .served && e.csn == 0) && t.csnNext == 1) = true := by
  decide +kernel

theorem test_completion_post : let d := { cmd 3 0x02 [] with stage := .ended }; let s := withCmd q3 d
    ctxOf s 0 = some d ∧ queueOf s .a 3 = some (ioq 3) ∧ mayPost s d = true ∧
      after (exec (.completionPost 0 0) s) (fun t => t.out.head? == some (.words .a 0x20000 (completionWords d (ioq 3))) && t.ctxs == []) = true := by decide +kernel

/-- The part with MSI-X enabled and vector 0 unmasked. -/
def msix (s : State) : State := { s with portA := { s.portA with msixEnable := true, msix := [⟨0, 0, 0, 0, false⟩] } }

theorem test_coalesce : let k := { ioq 3 with coalFrom := some 0, coalTime := 9, timerTime := 2, unsignalled := 1 }
    let s : State := { msix (withQueues on [k]) with now := 200 }
    queueOf s .a 3 = some k ∧ 0 + 100 * k.timerTime ≤ s.now ∧ vectorHeld s.portA 0 = false ∧
      after (exec (.coalesceTimerExpiry .a 3 200) s) (fun t => t.out == [.msi .a 0] && (queueOf t .a 3).any (fun k => k.unsignalled == 0)) = true := by
  decide +kernel

theorem test_msix_unmask : let s : State := { msix q3 with portA := { (msix q3).portA with pba := [0] } }
    s.portA.funcMask = false ∧ s.portA.linkUp = true ∧ s.portA.msix.find? (fun x => x.vector == 0) = some ⟨0, 0, 0, 0, false⟩ ∧ s.portA.pba = [0] ∧
      after (exec (.msixUnmask .a (some 0)) s) (fun t => t.out == [.msi .a 0] && t.portA.pba == []) = true := by decide +kernel

theorem test_event_ctrl : let v : Word := 0x80000002
    bits v.toNat 31 31 = 1 ∧ q3.portA.ev.enable = false ∧ 2 ≤ bits v.toNat 12 0 ∧ bits v.toNat 12 0 ≤ q3.kf.img.maxRing ∧ q3.portA.ev.base % 4096 = 0 ∧
      after (exec (.eventCtrlWrite .a v) q3) (fun t => t.portA.ev.enable && t.portA.ev.entries == 2) = true ∧
      after (exec (.eventCtrlWrite .a 0) { q3 with portA := { q3.portA with ev := { q3.portA.ev with enable := true } } }) (fun t => !t.portA.ev.enable) = true := by
  decide +kernel

theorem test_create_queue : let s : State := withCmd { q3 with kf := waiting.kf } (cmd 0 0x84 [(2, 0x1000), (6, 0x2000), (12, 5), (13, 16 + 16 * 65536)])
    ctxIn s 0 0x84 = some (cmd 0 0x84 [(2, 0x1000), (6, 0x2000), (12, 5), (13, 16 + 16 * 65536)]) ∧
      readyFor s (cmd 0 0x84 []) = true ∧ s.portA.resumptionPending = false ∧ queueOf s .a 5 = none ∧
      after (exec (.createQueue 0) s) (fun t => (queueOf t .a 5).any (fun k => k.st == .active && k.sqBase == 0x1000 && k.cqBase == 0x2000) && ended t 0 5 0) = true := by
  decide +kernel

theorem test_delete_queue : let k := { ioq 3 with deleting := some 0 }; let s := withCmd (withQueues on [ioq 0, k]) (cmd 0 0x85 [(12, 3)])
    (ctxIn s 0 0x85).isSome = true ∧ readyFor s (cmd 0 0x85 []) = true ∧ queueOf s .a 3 = some k ∧ k.deleting = some 0 ∧ queueCtxs s .a 3 = [] ∧ unconsumed k = 0 ∧ k.restart = none ∧
      restartUnposted s .a 3 = false ∧ after (exec (.deleteQueue 0) s) (fun t => queueOf t .a 3 == none && ended t 0 0 0) = true := by decide +kernel

theorem test_restart_queue : let k := { ioq 3 with st := .frozen, stopped := true, restart := some ⟨0, 0, 0, some 0, false, none⟩ }
    let s := withCmd (withQueues on [ioq 0, k]) (cmd 0 0x86 [(12, 3)])
    (ctxIn s 0 0x86).isSome = true ∧ readyFor s (cmd 0 0x86 []) = true ∧ queueOf s .a 3 = some k ∧ k.restart = some ⟨0, 0, 0, some 0, false, none⟩ ∧
      after (exec (.restartQueue 0) s) (fun t => (queueOf t .a 3).any (fun k => k.st == .restarting)) = true := by decide +kernel

theorem test_ack_resumption : let s := withCmd { q3 with portA := { q3.portA with resumptionPending := true, res := { q3.portA.res with generation := 7 } } } (cmd 0 0x87 [(12, 7)])
    (ctxIn s 0 0x87).isSome = true ∧ s.portA.res.complete = true ∧ after (exec (.ackResumption 0) s) (fun t => ended t 0 0 0 && !t.portA.resumptionPending) = true ∧
      after (exec (.ackResumption 0) (withCmd s (cmd 0 0x87 [(12, 6)]))) (fun t => ended t 0 1 0 && t.portA == s.portA) = true := by decide +kernel

/-- R135: CONTINUE, DISCARD_ALL and a failure after the freeze. -/
theorem test_restart_done :
    let k (o : Nat) (f : Bool) : Queue := { ioq 3 with st := .restarting, stopped := true, sqTail := 4, restart := some ⟨o, 0, 4, none, f, none⟩ }
    let s (o : Nat) (f : Bool) : State := withQueues on [ioq 0, k o f]
    queueOf (s 0 false) .a 3 = some (k 0 false) ∧ queueCtxs (s 0 false) .a 3 = [] ∧
      after (exec (.queueRestartDone .a 3) (s 0 false)) (fun t => (queueOf t .a 3).any (fun k => k.st == .active && !k.stopped && k.sqHead == 0)) = true ∧
      after (exec (.queueRestartDone .a 3) (s 1 false)) (fun t => (queueOf t .a 3).any (fun k => k.st == .active && k.sqHead == 4)) = true ∧
      after (exec (.queueRestartDone .a 3) (s 0 true)) (fun t => (queueOf t .a 3).any (fun k => k.st == .frozen)) = true := by decide +kernel

theorem test_csn_issued_read : after (exec (.csnIssuedLoRead .b) { on with csnIssued := 2 ^ 32 * 3 + 8 }) (fun t => t.readData == 8 && t.portB.csnHi == 3) = true := by
  decide +kernel

theorem test_rc_read : after (exec (.rcRegisterRead .portA (.window 0x03C) 4) { on with portA := { on.portA with unknownQueue := 2, malformed := 1 } })
    (fun t => t.readData == 0x00010002 && t.portA.unknownQueue == 0 && t.portA.malformed == 0) = true ∧
    after (exec (.rcRegisterRead .portA (.window 0x100000) 8) q3) (fun t => t.readData == 0 && t.portA.malformed == 1 && t.portA.queues == q3.portA.queues) = true ∧
    after (exec (.rcRegisterRead .portB (.window 0x018) 4) { on with cond := 0x0001 }) (fun t => t.readData == 1) = true := by decide +kernel

theorem test_register_write : on.portA.enable = false ∧ on.kf.porst = false ∧
    after (exec (.registerWrite .portA (.window 0x020) 0x3000 4) on) (fun t => t.portA.asqBase == 0x3000) = true ∧
    after (exec (.registerWrite .portA (.bar0 false) 0xE3456789 4) on)
      (fun t => t.portA.bar0 == 0xE2000000 && after (exec (.rcRegisterRead .portA (.bar0 false) 4) t) (fun u => u.readData == 0xE2000004)) = true ∧
    q3.portA.enable = true ∧ after (exec (.registerWrite .portA (.window 0x020) 0x3000 4) q3) (fun t => t == q3) = true := by decide +kernel

theorem test_latched_pair : after (exec (.latchedPairLowRead .portB 0x1000008) { on with ctr := { on.ctr with snapAet := 2 ^ 32 * 5 + 1 } })
    (fun t => t.readData == 1 && t.portB.snapAetHi == 5) = true := by decide +kernel

/-! ## I/O commands and the map -/

/-- A profile of one-plane bays of four blocks of four pages, rows of one page without parity, one column wide. -/
def prof : Profile :=
  { (default : Profile) with
    pageBytes := 16384, slotsPerPage := 4, seqs := [(3, [⟨0x07, 0x0001⟩, ⟨0x0A, 0⟩])], verifyLimit := 5, planes := 1, blocksPerPlane := 4, pagesPerBlock := 4, lunsPerCe := 1, tRead := 50, tProg := 500, tErase := 3000, suspendMin := 20, w := 1, p := 0
    wMin := 1, stripeUnit := 1, ratedPe := 1000, tempPeriod := 1000000, cFresh := 1, cEnd := 1, patterns := [7], bindingHash := 9 }

/-- Page 0 slot 0 of block 0 of bay 0, and a slot of page p. -/
def blk : Madr := ⟨0, 0, 0, 0, 0, 0, 0⟩
def at_ (p n : Nat) : Madr := ⟨0, 0, 0, 0, 0, p, n⟩

/-- Bay 0 with a carrier in a state; bay 1 empty. -/
def bay0 (st : BaySt) : Bay :=
  { Bay.reset 0 with st := st, present := true, pwrEn := true, connected := true, writable := true, profile := some 0, uid := 77, dies := [0], u0 := 4 }

/-- A set of one column on the block. -/
def set1 (st : Stream) : SetRec :=
  { seq := 1, stream := st, profile := 0, w := 1, p := 0, stripeUnit := 1, rows := 3, openAet := 0, cols := [(0, blk)], closed := false, lastValid := none
    firstAbandoned := none, standIns := [] }

/-- The part with a MEMBER bay and one open set of a stream whose header page is DONE. -/
def med (st : Stream) : State :=
  { on with
    kf := { on.kf with img := { on.kf.img with profiles := [prof] } }
    map := { on.map with sets := [set1 st], blocks := [⟨blk, 1, .opened, false, 1⟩], nss := [⟨1, .ready, 0, true, 1, 0, []⟩] }
    media := { on.media with
      blockSeqHigh := 1, bays := [bay0 .member, Bay.reset 1], opens := [⟨1, [], 0, 4, [], false, false⟩]
      dies := [{ DieSt.fresh ⟨0, 0, 0⟩ with sample := some (0, 300) }]
      pages := [⟨blk, 1, 7, 0, 0, .done, 0, [], []⟩] } }

/-- The block of LBA 3 in FORMAT 0, its data cut short so that it is quickly compared. -/
def zeroBlk : Block := mkBlock 0 [0, 0] [] 0xFFFF 3

/-- A WRITE of one block of namespace 1 at LBA 3, in FORMAT 0. -/
def wr : Ctx := cmd 1 0x01 [(0, 2 ^ 24), (2, 3), (4, 1), (6, 0x1000), (8, 4096)]

theorem test_write_staged : (ctxIn (withCmd (med .hostFine) wr) 0 0x01) = some wr ∧ wr.held = false ∧ wr.fetchFail = none ∧ wr.staged = [] ∧ fetchFits wr.dw (.bytes (zeros 4096)) = true ∧
    expectedLen (withCmd (med .hostFine) wr) wr.dw = 4096 ∧ crossingFault 0 wr.dw (writeUnits' 0 wr.dw (zeros 4096)) = none ∧
    after (exec (.write 0 (.bytes (zeros 4096))) (withCmd (med .hostFine) wr))
      (fun t => (ctxOf t 0).any (fun c => c.staged.map (·.lba) == [3]) && t.health.hostWrittenUnits == 1) = true := by decide +kernel

/-- The WRITE with its data behind a list of 65 entries of 8 bytes, the last one as given. -/
def wrList : Ctx := cmd 1 0x01 [(0, 2 ^ 24 + 2 ^ 8), (2, 3), (4, 1), (6, 0x1000), (8, 4096 - 65 * 8), (9, 65), (10, 0x8000)]
def list65 (last : Nat) : List Byte := (List.range 65).flatMap (fun n => leBytes 8 (0x100000 + 8 * n) ++ leBytes 4 (if n == 64 then last else 8) ++ zeros 4)

theorem test_write_listed : (ctxIn (withCmd (med .hostFine) wrList) 0 0x01) = some wrList ∧
    fetchFits wrList.dw (.listed (.entries (list65 8)) (zeros 4096) none) = true ∧ listEnd wrList.dw 4096 (.entries (list65 8)) = none ∧
    after (exec (.write 0 (.listed (.entries (list65 8)) (zeros 4096) none)) (withCmd (med .hostFine) wrList))
      (fun t => (ctxOf t 0).any (fun c => c.staged.map (·.lba) == [3])) = true ∧
    listEnd wrList.dw 4096 (.entries (list65 12)) = some (64, 0x1004, 4096, 4096, 4100) ∧
    listEnd wrList.dw 4096 (.entries (list65 6)) = some (64, 0x1005, 4088, 65, 0) ∧
    after (exec (.write 0 (.listed (.entries (list65 6)) [] none)) (withCmd (med .hostFine) wrList))
      (fun t => (ctxOf t 0).any (fun c => c.staged == [] && c.fetchFail == some (0x1005, 0, 4088, 65, 0))) = true := by decide +kernel

theorem test_write_wrong_length : after (exec (.write 0 (.bytes [])) (withCmd (med .hostFine) wr))
    (fun t => (ctxOf t 0).any (fun c => c.staged == [] && c.fetchFail == some (0x1004, 0, 0, 4096, 0))) = true := by decide +kernel

/-- A reading command of one block, resolved as given. -/
def rd (op : Nat) (st : UnitSt) : Ctx := { cmd 1 op [(0, 2 ^ 24), (2, 3), (4, 1), (6, 0x1000), (8, 4096)] with units := [⟨1, 3, st⟩] }

theorem test_read : let s := withCmd (med .hostFine) (rd 0x02 .unwritten)
    (ctxIn s 0 0x02).isSome = true ∧ judgeList (rd 0x02 .unwritten).dw (expectedLen s (rd 0x02 .unwritten).dw) 4 (.entries []) = none ∧
      (rd 0x02 .unwritten).units.all unitResolved = true ∧ readVerdict s (rd 0x02 .unwritten) = none ∧
      after (exec (.read 0 (.entries [])) s) (fun t => ended t 0 1 0 && t.out.length == 1) = true := by decide +kernel

theorem test_read_lost : let s := withCmd (med .hostFine) (rd 0x02 .lost)
    (readVerdict s (rd 0x02 .lost)).map (·.status) = some 0x3002 ∧ (rd 0x02 .lost).units.all unitResolved = true ∧
      after (exec (.read 0 (.entries [])) s) (fun t => (ctxOf t 0).any (fun c => c.stage == .ended && c.status == 0x3002)) = true := by decide +kernel

theorem test_verify : let c := rd 0x04 (.got zeroBlk true); let s := withCmd (med .hostFine) c
    (ctxIn s 0 0x04).isSome = true ∧ c.units.all unitResolved = true ∧ readVerdict s c = none ∧
      after (exec (.verify 0) s) (fun t => ended t 1 0 1 && t.out == []) = true := by decide +kernel

theorem test_compare : let c := rd 0x05 (.got zeroBlk false); let s := withCmd (med .hostFine) c
    (ctxIn s 0 0x05).isSome = true ∧ c.stream = [] ∧ fetchFits c.dw (.bytes (zeros 4096)) = true ∧ expectedLen s c.dw = 4096 ∧ readVerdict s c = none ∧
      after (exec (.compare 0 (.bytes (zeros 4096))) s) (fun t => ended t 0 0 0xFFFFFFFF) = true ∧
      after (exec (.compare 0 (.bytes ([1] ++ zeros 4095))) s) (fun t => ended t 0 1 0) = true := by decide +kernel

/-- Its one unit, staged. -/
def unit3 : StagedUnit := ⟨1, 3, some zeroBlk, none, false⟩

/-- The unit of a context that takes data slot 0 of page 1. -/
def tookSlot (t : State) : Bool := (ctxOf t 0).any (fun c => c.held && c.staged.any (fun u => u.lba == 3 && u.slot == some (at_ 1 0)))

theorem test_fill_takes_slot : let c := { cmd 1 0x0A [(0, 2 ^ 24), (2, 3), (4, 1)] with held := true, staged := [unit3] }; let s := withCmd (med .hostFine) c
    (ctxIn s 0 0x0A) = some c ∧ unitStream s c unit3 = .hostFine ∧ needsSlot s unit3 = true ∧
      (placeSlot s .hostFine 1 2 ⟨0, 1, 3, 5, 1, some zeroBlk⟩).map (·.2) = some (at_ 1 0) ∧ after (exec (.fill 0) s) tookSlot = true := by decide +kernel

theorem test_write_held : let c := { wr with staged := [unit3] }; let s := withCmd (med .hostFine) c
    ctxOf s 0 = some c ∧ pendingWrite c = true ∧ c.status = 0 ∧ eOpcode c.dw ≠ 0x08 ∧ admissionStands s c = true ∧ c.staged.any (·.lost) = false ∧ s.jrnl.stopFrom = none ∧ c.fetchFail = none ∧
      c.staged.length = eCount c.dw ∧ unitStream (updCtx s 0 (fun c => { c with held := true })) c unit3 = .hostFine ∧
      after (exec (.writeHeld 0 0) s) tookSlot = true := by decide +kernel

theorem test_write_failed : let c := { wr with fetchFail := some (0x1004, 0, 0, 4096, 0) }; let s := withCmd (med .hostFine) c
    pendingWrite c = true ∧ after (exec (.writeHeld 0 0) s) (fun t => (ctxOf t 0).any (fun d => d.status == 0x1004 && d.staged == []) && t.map == s.map) = true := by
  decide +kernel

theorem test_copy_takes_slot : let c := { cmd 1 0x0C [(0, 2 ^ 24), (2, 0), (4, 1), (12, 1), (14, 3)] with units := [⟨1, 0, .got (mkBlock 0 [0, 0] [] 0xFFFF 0) false⟩] }
    let s := withCmd (med .hostFine) c
    (ctxIn s 0 0x0C) = some c ∧ c.held = false ∧ c.units.all unitResolved = true ∧ readVerdict s c = none ∧ (copyUnits s c).map (·.lba) = [3] ∧
      after (exec (.copy 0) s) tookSlot = true := by decide +kernel

/-- The update of the unit was asked for. -/
def askedOnce (t : State) : Bool := t.eng.reqs.length == 1 && (ctxOf t 0).any (·.mapAsked)

theorem test_deallocate : let c := { cmd 1 0x08 [(0, 2 ^ 24), (2, 3), (4, 1)] with held := true }; let s := withCmd (med .hostFine) c
    (ctxIn s 0 0x08) = some c ∧ mayCommit s c = true ∧ after (exec (.deallocate 0) s) askedOnce = true := by decide +kernel

/-- A held write whose unit lies in slot 0 of page 1, which is DONE. -/
def placed : State :=
  let c := { wr with held := true, staged := [{ unit3 with slot := some (at_ 1 0) }] }
  let s := withCmd (med .hostFine) c
  { s with media := { s.media with pages := s.media.pages ++ [⟨at_ 1 0, 1, 1, 0, 0, .done, 0, [⟨0, 1, 3, 5, 1, some zeroBlk⟩], []⟩] } }

theorem test_write_commit : (ctxOf placed 0).any (fun c => mayCommit placed c && c.awaitAck.all (acked placed)) = true ∧ placed.jrnl.stopFrom = none ∧
    after (exec (.writeCommit 0) placed) askedOnce = true := by decide +kernel

/-- Its map update waits alone. -/
def asked1 : State := { placed with eng := { placed.eng with dramSets := 1, reqs := [⟨0, 0, some 0, 1, [(3, none, some (at_ 1 0))], none, 0⟩] } }

theorem test_map_update : asked1.jrnl.stopFrom = none ∧ asked1.eng.reqs.all (fun r => reqReady asked1 r && !reqDead asked1 r) = true ∧
    after (exec .mapUpdate asked1) (fun t => t.eng.reqs == [] && ended t 0 0 0 && unitAt t.map 1 3 == .at_ (at_ 1 0) && t.jrnl.recs.length == 1) = true := by
  decide +kernel

/-- R207: a maintenance update of a unit that has moved on changes nothing. -/
theorem test_map_update_compare : let r : MapReq := ⟨4, 0, none, 1, [(3, some (at_ 2 0), some (at_ 1 0))], none, 0⟩
    let s : State := { asked1 with eng := { asked1.eng with reqs := [r] } }
    reqReady s r = true ∧ reqDead s r = false ∧ r.who ≠ 0 ∧ r.who ≠ 6 ∧ r.whole = none ∧ r.ents.all (stillAt s.map r.ns) = false ∧
      after (exec .mapUpdate s) (fun t => t.eng.reqs == [] && t.map == s.map && t.jrnl == s.jrnl) = true := by decide +kernel

theorem test_lookup_unwritten : let c := rd 0x02 .waiting; let s := withCmd (med .hostFine) c
    governing s c.csn 1 3 = none ∧ (lookupPath s 1 0 3 []).2.isSome = true ∧ unitAt s.map 1 3 = .unwritten ∧
      after (exec (.mapLookup (.command 0 3) []) s) (fun t => (ctxOf t 0).any (fun c => c.units.any (fun u => u.lba == 3 && u.st == .unwritten))) = true := by
  decide +kernel

/-- R107: a read is served from the held write that governs it. -/
theorem test_lookup_staging : let g := { wr with csn := 4, cid := 1, held := true, staged := [unit3] }; let c := rd 0x02 .waiting
    let s : State := { med .hostFine with ctxs := [c, g] }
    governing s c.csn 1 3 = some g ∧ g.held = true ∧ servedLost g 1 3 = false ∧
      after (exec (.mapLookup (.command 0 3) []) s) (fun t => (ctxOf t 0).any (fun c => c.units.any (fun u => u.st == .staging zeroBlk))) = true := by decide +kernel

/-- A written unit is pinned, and a lost one is told. -/
theorem test_lookup_written :
    let seg (e : TileEnt) : Seg := ⟨1, 0, .fine ⟨[e], 1, none, 0, some 1⟩⟩
    let s (e : TileEnt) : State := let m := withCmd (med .hostFine) (rd 0x02 .waiting)
      { m with map := { m.map with segs := [seg e] }, eng := { m.eng with dramSets := 1, dram := [⟨0, 0, 1, 0, 1, true, 0⟩] } }
    (lookupPath (s ⟨3, some (at_ 1 0), false⟩) 1 0 3 []).2.isSome = true ∧
      pinRoom (s ⟨3, some (at_ 1 0), false⟩) (at_ 1 0) = true ∧
      after (exec (.mapLookup (.command 0 3) []) (s ⟨3, some (at_ 1 0), false⟩)) (fun t => t.eng.pins == [(blk, 1)]) = true ∧
      after (exec (.mapLookup (.command 0 3) []) (s ⟨3, none, true⟩))
        (fun t => (ctxOf t 0).any (fun c => c.units.any (fun u => u.st == .lost))) = true := by decide +kernel

/-- R209: a tile that only the medium holds is read from its home, which the lookup pins. -/
theorem test_tile_read : let ti : Tile := ⟨[], 1, some (at_ 2 0), 0, none⟩
    let s : State := { med .map with map := { (med .map).map with segs := [⟨1, 0, .fine ti⟩] }, eng := { (med .map).eng with dramSets := 1 } }
    tileSource s 1 0 ti = .medium (at_ 2 0) ∧ probe s.eng (cacheKey 1 0 0) true = none ∧ probe s.eng (cacheKey 1 0 0) false = none ∧
      tierRoom s 1 0 = true ∧ pinRoom s (at_ 2 0) = true ∧
      after (exec (.mapLookup (.tile 1 0) []) s) (fun t => t.map == s.map && t.eng.tileReads == [(1, 0, at_ 2 0)]) = true := by decide +kernel

theorem test_tile_writeback : let s : State := { med .map with map := { (med .map).map with segs := [⟨1, 0, .fine ⟨[], 1, none, 0, some 1⟩⟩] } }
    segAsked s 1 0 = false ∧ s.jrnl.stopFrom = none ∧
      (placeSlot s .map 3 1 ⟨0, 1, 0, 0, 0, some ⟨tileImage 1 0 ⟨[], 1, none, 0, some 1⟩, zeros 48, 0, 0, 0⟩⟩).isSome = true ∧
      after (exec (.tileWriteback 1 0) s) (fun t => t.eng.reqs.length == 1 && t.map == s.map) = true := by decide +kernel

/-! ## Features, namespaces, structures and logs, administration -/

/-- A SET_FEATURE on queue 0 with CDW0 to CDW3. -/
def setf (f v0 v1 v2 : Nat) : Ctx := cmd 0 0x83 [(12, f), (13, v0), (14, v1), (15, v2)]

/-- The part with it in context 0, ports up. -/
def setS (f v0 v1 v2 : Nat) : State := withCmd (withQueues on [ioq 0, ioq 3]) (setf f v0 v1 v2)

/-- The feature is due in that state. -/
def due (f v0 v1 v2 : Nat) : Bool := featureIn (setS f v0 v1 v2) 0 f == some (setf f v0 v1 v2) && !mirroring (setS f v0 v1 v2) && !(setf f v0 v1 v2).mapAsked

theorem test_set_device_features : due 1 0x00140005 7 0 = true ∧ due 2 16 3 4 = true ∧ due 3 30 0 0 = true ∧ due 4 0x0455 0 0 = true ∧ due 0x0A 4 0 0 = true ∧ due 0x0B 20 0 0 = true ∧
    due 0x0C 400 0 0 = true ∧
    after (exec (.setPowerTimers 0) (setS 1 0x00140005 7 0)) (fun t => t.feat.t1 == 5 && t.feat.t2 == 20 && t.feat.t3 == 7 && t.feat.t4 == 0) = true ∧
    after (exec (.setCadencePlan 0) (setS 2 0x00320010 3 4)) (fun t => t.cad.pendingPlan == some ⟨16, 50, 0x400000003⟩ && t.cad.plan == on.cad.plan) = true ∧
    after (exec (.setPatrolCycle 0) (setS 3 30 0 0)) (fun t => t.feat.patrolDays == 30) = true ∧
    after (exec (.setThermalLimits 0) (setS 4 0x0455 0 0)) (fun t => t.feat.throttlePoint == 85 && t.feat.throttleHyst == 4) = true ∧
    after (exec (.setJournalInterval 0) (setS 0x0A 4 0 0)) (fun t => t.cad.journalTicks == 4 && t.cad.journalDue == 0) = true ∧
    after (exec (.setJournalInterval 0) { setS 0x0A 4 0 0 with cad := { on.cad with journalDue := 3 } }) (fun t => t.cad.journalDue == 4) = true ∧
    after (exec (.setRebuildShare 0) (setS 0x0B 20 0 0)) (fun t => t.feat.rebuildShare == 20 && ended t 0 0 0) = true ∧
    after (exec (.setHorizonMinimum 0) (setS 0x0C 400 0 0)) (fun t => t.feat.horizonMin == 400) = true := by decide +kernel

theorem test_set_port_features : due 5 1 0 0 = true ∧ due 6 3 0x0102 0 = true ∧ due 7 0x01020304 0 0 = true ∧ due 8 2 0 0 = true ∧ due 9 5 0 0 = true ∧
    ([2097152] : List Nat).length = eCdw (setf 5 1 0 0).dw 1 ∧ queueOf (setS 6 3 0x0102 0) .a 3 = some (ioq 3) ∧ judge520 (setS 6 3 0x0102 0) .a (setf 6 3 0x0102 0).dw = none ∧
    after (exec (.setHostMapRegion 0 [2097152]) (setS 5 1 0 0)) (fun t => t.portA.hostMap == [2097152] && t.portA.hostMapAddr == eLba (setf 5 1 0 0).dw && t.portB.hostMap == []) = true ∧
    after (exec (.setHostMapRegion 0 [4096]) (setS 5 1 0 0)) (fun t => t.portA.hostMap == [] && ended t 0x1002 0 0) = true ∧
    after (exec (.setInterruptCoalescing 0) (setS 6 3 0x0102 0)) (fun t => (queueOf t .a 3).any (fun k => k.coalCount == 2 && k.coalTime == 1)) = true ∧
    after (exec (.setArbitration 0) (setS 7 0x01020304 0 0))
      (fun t => t.portA.arbHigh == 4 && t.portA.arbMedium == 3 && t.portA.arbLow == 2 && t.portA.arbBurst == 1 && t.portB.arbHigh == 8) = true ∧
    after (exec (.setOnionShelf 0) (setS 8 2 0 0)) (fun t => t.portA.shelf == some ⟨0, 2⟩ && t.portB.shelf == none) = true ∧
    after (exec (.setOnionShelf 0) (setS 8 0 0 0)) (fun t => t.portA.shelf == none) = true ∧
    after (exec (.setEventMask 0) (setS 9 5 0 0)) (fun t => t.portA.eventMask == 5 && t.portB.eventMask == 0) = true := by decide +kernel

/-- R175: MODE 1 saves, MODE 2 forgets and changes nothing in force. -/
theorem test_feature_modes : due 0x10B 20 0 0 = false ∧ featureIn (setS 0x10B 20 0 0) 0 0x0B = some (setf 0x10B 20 0 0) ∧ eMode (setf 0x10B 20 0 0).dw = 1 ∧
    after (exec (.setRebuildShare 0) (setS 0x10B 20 0 0)) (fun t => savedOf t 0 0x0B == some [20, 0, 0] && t.feat.rebuildShare == 20) = true ∧
    featureIn (setS 0x20B 20 0 0) 0 0x0B = some (setf 0x20B 20 0 0) ∧ eMode (setf 0x20B 20 0 0).dw = 2 ∧
    after (exec (.setRebuildShare 0) (setS 0x20B 20 0 0)) (fun t => savedOf t 0 0x0B == none && t.feat.rebuildShare == 50 && ended t 0 0 0) = true := by decide +kernel

theorem test_set_archive_time : due 0x0D 5 1 1 = true ∧ (setS 0x0D 5 1 1).cad.pendingSet = none ∧ (setS 0x0D 5 1 1).cad.replaced = [] ∧
    after (exec (.setArchiveTime 0) (setS 0x0D 5 1 1))
      (fun t => t.cad.pendingSet == some ⟨0x100000005, true, some 0⟩ && (ctxOf t 0).any (fun c => c.stage == .admitted)) = true := by decide +kernel

theorem test_user_calibration : keeperIn (setS 0x0E 3 0xFFFFFFFE 0) 0 0x83 = some (setf 0x0E 3 0xFFFFFFFE 0) ∧ eFeature (setf 0x0E 3 0xFFFFFFFE 0).dw = 0x0E ∧
    after (exec (.setUserCalibration 0) (setS 0x0E 3 0xFFFFFFFE 0)) (fun t => t.kf.ovlSeq == 1 && t.kf.overlay == [(3, -2)] && t.kf.effective == []) = true := by decide +kernel

/-- GET_FEATURE of POWER_TIMERS with and without its record. -/
theorem test_get_feature : let g (n : Nat) := cmd 0 0x82 [(12, 1), (6, 0x1000), (8, n)]
    ctxIn (withCmd on (g 0)) 0 0x82 = some (g 0) ∧ eExtLen (g 0).dw ≠ 32 ∧ eExtLen (g 32).dw = 32 ∧ keeperHalted (withCmd on (g 32)) = false ∧
    after (exec (.getFeature 0) (withCmd on (g 0))) (fun t => ended t 0 (w32 (10 + 65536 * 50)) 0 && t.out == []) = true ∧
    after (exec (.getFeature 0) (withCmd on (g 32))) (fun t => t.out.length == 1) = true := by decide +kernel

/-- The part with four segments for users, one of them taken. -/
def roomy : State := { med .hostFine with media := { (med .hostFine).media with userSegs := 4 } }

/-- NAMESPACE_CREATE of namespace 2 with FORMAT 1 and FINE; NAMESPACE_DELETE of namespace 1. -/
theorem test_namespaces : let c := cmd 0 0x8C [(12, 2 + 256 + 4096), (13, 1)]; let d := cmd 0 0x8D [(12, 1)]
    ctxIn (withCmd roomy c) 0 0x8C = some c ∧ readyFor (withCmd roomy c) c = true ∧ mirroring (withCmd roomy c) = false ∧
      roomy.jrnl.stopFrom = none ∧ c.mapAsked = false ∧ sealedSet (withCmd (roomy) c) = false ∧
      allocatedSegments (withCmd roomy c) - 1 + 1 ≤ userSegments (withCmd roomy c) ∧ freeDirs roomy.map (ceilDiv 1 8192) = [0] ∧
      after (exec (.namespaceCreate 0) (withCmd roomy c)) (fun t => nsOf t 2 == some ⟨2, .ready, 1, true, 1, 0, [0]⟩ && (nsOf t 1).isSome && ended t 0 2 0) = true ∧
    ctxIn (withCmd roomy d) 0 0x8D = some d ∧
      after (exec (.namespaceDelete 0) (withCmd roomy d)) (fun t => nsOf t 1 == none && ended t 0 0 0) = true := by decide +kernel

/-- An admin command that delivers. -/
def adm (op n v : Nat) : Ctx := cmd 0 op [(6, 0x1000), (8, n), (12, v), (13, n)]

theorem test_identify : let c := adm 0x80 4096 0; let s := withCmd on c
    ctxIn s 0 0x80 = some c ∧ judgeList c.dw (expectedLen s c.dw) 4 (.entries []) = none ∧ keeperHalted s = false ∧
      after (exec (.identify 0 (.entries [])) s) (fun t => ended t 0 0 0 && t.out.length == 1) = true := by decide +kernel

theorem test_get_log : let c := adm 0x81 64 1; let s := withCmd on c
    ctxIn s 0 0x81 = some c ∧ judgeList c.dw (expectedLen s c.dw) 4 (.entries []) = none ∧ eLogId c.dw = 1 ∧
      after (exec (.getLog 0 (.entries [])) s) (fun t => ended t 0 0 0 && t.out.length == 1) = true := by decide +kernel

theorem test_get_log_waits : let c := adm 0x81 64 2; let s := { withCmd on c with portA := { on.portA with res := { on.portA.res with complete := false } } }
    let e := adm 0x81 64 8; let r := withCmd on e
    ctxIn s 0 0x81 = some c ∧ judgeList c.dw (expectedLen s c.dw) 4 (.entries []) = none ∧ after (exec (.getLog 0 (.entries [])) s) (fun t => t == s) = true ∧
      eLogId e.dw = 8 ∧ r.ctr.logReady.contains 0 = false ∧ r.ctr.logWaiters = [] ∧
      after (exec (.getLog 0 (.entries [])) r) (fun t => t.ctr.logWaiters == [(0, 1)] && t.out == []) = true := by decide +kernel

theorem test_rebuild_control : let c (a : Nat) := cmd 0 0x91 [(12, a)]; let s (a r : Nat) : State := { withCmd on (c a) with media := { on.media with rebuild := r } }
    actionIn (s 0 1) 0 0x91 0 = some (c 0) ∧ actionAllowed (s 0 1) (c 0).dw = true ∧ rebuildIssued (s 0 1) = false ∧
      after (exec (.rebuildStop 0) (s 0 1)) (fun t => t.media.rebuild == 3 && ended t 0 0 0) = true ∧
    actionIn (s 1 3) 0 0x91 1 = some (c 1) ∧ someHost (s 1 3) = false ∧
      after (exec (.rebuildStart 0) (s 1 3)) (fun t => t.media.rebuild == 4 && ended t 0 0 0) = true := by decide +kernel

theorem test_patrol_control : let c (a : Nat) := cmd 0 0x93 [(12, a + 2 * 65536)]; let s (a : Nat) := withCmd (med .hostFine) (c a)
    actionIn (s 0) 0 0x93 0 = some (c 0) ∧ actionIn (s 1) 0 0x93 1 = some (c 1) ∧ actionIn (s 2) 0 0x93 2 = some (c 2) ∧
      profileNums (s 2) = [0] ∧ (memberBays (s 2) 0).isEmpty = false ∧
      after (exec (.patrolPause 0) (s 0)) (fun t => t.media.patrolPause == some 7200) = true ∧
      after (exec (.patrolResume 0) { s 1 with media := { (s 1).media with patrolPause := some 9 } }) (fun t => t.media.patrolPause == none) = true ∧
      after (exec (.patrolRestartCycle 0) (s 2)) (fun t => (profSt t 0).patrolLate && ended t 0 0 0) = true ∧
      after (exec (.patrolPauseExpiry 0) { on with media := { on.media with patrolPause := some 0 } }) (fun t => t.media.patrolPause == none) = true ∧
      after (exec (.patrolPauseExpiry 0) { on with media := { on.media with patrolPause := some 1 } }) (fun t => t.media.patrolPause == some 1) = true := by decide +kernel

/-! ## Write path, die operations, ladders, retention, agents, members -/

/-- The profile with blocks long enough that one reserves the descriptor. -/
def prof2 : Profile := { prof with pagesPerBlock := 1360, blocksPerPlane := 12, sjWindow := 4 }

/-- The same with so few blocks that nothing is free beyond the reserves. -/
def prof3 : Profile := { prof2 with blocksPerPlane := 9 }

/-- The part with bay 0 MEMBER, the profile given and no set. -/
def bare (f : Profile) : State :=
  { on with kf := { on.kf with img := { on.kf.img with profiles := [f] } }, media := { on.media with bays := [bay0 .member, Bay.reset 1] } }

theorem test_set_open : let s := bare prof2
    s.jrnl.stopFrom = none ∧ streamProfile s .hostFine = some 0 ∧ profileOf s 0 = some prof2 ∧
      after (exec (.setOpen .hostFine) s)
        (fun t => t.media.blockSeqHigh == 1 && t.map.sets.any (fun k => k.seq == 1 && k.cols == [(0, { blk with block := 1 })] && !k.closed) && t.jrnl.nextSeq == 2) = true := by
  decide +kernel

/-- A DONE page, or one in another state, of row 0. -/
def page1 (st : PageSt) : PageRec := ⟨at_ 1 0, 1, 1, 0, 0, st, 0, [⟨0, 1, 3, 5, 1, some zeroBlk⟩], []⟩

/-- The open set of `med` with row 0 begun, and its page 1. -/
def rowS (st : PageSt) (r : RowSt) : State := let s := med .hostFine
  { s with now := 10000, media := { s.media with opens := [⟨1, [r], 1, 4, [], false, false⟩], pages := s.media.pages ++ [page1 st] } }

def row0 : RowSt := ⟨0, 0, 0, 1, false, false, false⟩

theorem test_page_timeout : let s := rowS .assigned row0
    s.jrnl.stopFrom = none ∧ pageRecOf s (at_ 1 0) = some (page1 .assigned) ∧ pageWaits s (at_ 1 0) = false ∧ setAt s.map (at_ 1 0) = some (set1 .hostFine) ∧
      openOf s 1 = some ⟨1, [row0], 1, 4, [], false, false⟩ ∧ row0.since + 10000 ≤ s.now ∧
      after (exec (.pageProgramTimeout (at_ 1 0) 0) s) (fun t => (pageRecOf t (at_ 1 0)).any (fun p => p.st == .programming)) = true := by decide +kernel

theorem test_row_pad : let s := rowS .done row0; let u : State := { s with cad := { s.cad with aet := 64 } }
    setOf u 1 = some (set1 .hostFine) ∧ openOf u 1 = some ⟨1, [row0], 1, 4, [], false, false⟩ ∧ row0.sinceT + 64 ≤ tIndex u.cad.tps u.cad.aet ∧ row0.parityIssued = false ∧
      after (exec (.rowPadTimeout 1 0) u) (fun t => (openOf t 1).any (fun o => o.rows.any (fun r => r.next == 4 && r.parityIssued))) = true ∧
      after (exec (.rowPadTimeout 1 0) s) (fun t => t == s) = true := by decide +kernel

/-- R230: at the limit a page passes; beyond it the whole page is read, and fails where a codeword of it is beyond the limit too. -/
theorem test_verify_read : let s := rowS .done { row0 with next := 4, parityIssued := true }
    let v (n : Nat) (l : List (Option Nat)) : VerifyRead := ⟨at_ 1 0, some n, l⟩; let long := [some 6, some 1, some 1, some 1]
    setOf s 1 = some (set1 .hostFine) ∧ rowDone s (set1 .hostFine) 0 = true ∧ pairDone s (set1 .hostFine) 0 = true ∧ verifyPages s (set1 .hostFine) 0 = [at_ 1 0] ∧
      verifyPasses 5 (v 5 []) = true ∧ verifyFails 5 (v 5 []) = false ∧ verifyFails 5 (v 6 []) = false ∧ verifyFails 5 (v 6 long) = true ∧
      ((dieStOf s (dieOf (at_ 1 0))).map (·.failed)).getD false = false ∧ ((bayOf s 0).map (·.connected)).getD false = true ∧
      after (exec (.verifyReadDone 1 0 [v 5 []]) s) (fun t => (openOf t 1).any (fun o => o.rows.any (fun r => r.settled))) = true ∧
      after (exec (.verifyReadDone 1 0 [v 6 []]) s) (fun t => anyOp t (fun o => o.page == at_ 1 0 && o.who == 8 && o.whole)) = true ∧
      after (exec (.verifyReadDone 1 0 [v 6 long]) s)
        (fun t => t.media.verifyFails == [blk] && (setOf t 1).any (·.closed) && t.media.refresh.any (fun x => x.seq == 1 && x.severity == 3)) = true := by
  decide +kernel

/-- Die 0 of bay 0 with an operation running. -/
def die0 : DieId := ⟨0, 0, 0⟩
def runs (n : Nat) (p : Madr) : DieSt := { DieSt.fresh die0 with op := some ⟨n, p, 2, 0, some 3000, false⟩ }
def dieS (d : DieSt) : State := let s := rowS .programming row0; { s with now := 20000, media := { s.media with dies := [d] } }

/-- R234: a read that waits suspends a program that has run its minimum. -/
theorem test_suspend : let d := { runs 3 (at_ 1 0) with queue := [⟨2, blk, 0, 0, some 50, false⟩] }; let s := dieS d
    dieStOf s die0 = some d ∧ d.suspends < 4 ∧ ((bayProfile s die0.bay).map (·.suspendMin)).getD 0 = 20 ∧ 0 + 1000 * 20 ≤ s.now ∧
      after (exec (.readSuspend die0 0) s) (fun t => (dieStOf t die0).any (fun e => e.suspended == d.op && e.suspends == 1 &&
        e.op.any (fun o => o.seqNo == 6))) = true := by decide +kernel

/-- R234: sequence 7 lets the suspended program run on. -/
theorem test_resume : let o : DieOp := ⟨3, at_ 1 0, 2, 0, some 3000, false⟩; let d := { runs 7 (at_ 1 0) with suspended := some o }; let s := dieS d
    dieStOf s die0 = some d ∧ outcomeOf s die0 ⟨7, at_ 1 0, 2, 0, some 3000, false⟩ [] [] = .done ∧
      after (exec (.sequenceEnd die0 [] [] 1 0) s) (fun t => (dieStOf t die0).any (fun e => e.op == some { o with issued := 20000 } && e.suspended.isNone)) = true := by
  decide +kernel

/-- A state with another profile 0. -/
def withProf (f : Profile) (s : State) : State := { s with kf := { s.kf with img := { s.kf.img with profiles := [f] } } }

theorem test_sequence_end : let e := withProf prof2 (dieS (runs 4 { blk with block := 2 })); let p := dieS (runs 3 (at_ 1 0)); let m := dieS (runs 8 blk)
    (dieStOf e die0).isSome = true ∧ (dieStOf p die0).isSome = true ∧ pageRecOf p (at_ 1 0) = some (page1 .programming) ∧
      outcomeOf p die0 ⟨3, at_ 1 0, 2, 0, some 3000, false⟩ [] [0] = .done ∧ outcomeOf p die0 ⟨3, at_ 1 0, 2, 0, some 3000, false⟩ [] [1] = .statusFail ∧
      outcomeOf e die0 ⟨4, { blk with block := 2 }, 2, 0, some 3000, false⟩ [] [] = .done ∧ reservedAt e { blk with block := 2 } = false ∧ e.cad.windowDue = none ∧
      (p.map.sets.all (fun k => k.closed || decide ((at_ 1 0).page < 1 + k.rows * k.stripeUnit))) = true ∧ bayProfile m 0 = some prof ∧
      after (exec (.sequenceEnd die0 [] [] 3100 0) e) (fun t => (blkOf t { blk with block := 2 }).st == .erased && (blkOf t { blk with block := 2 }).pe == 2 &&
        t.cad.charged == 100) = true ∧
      after (exec (.sequenceEnd die0 [] [] 3100 0) { e with cad := { e.cad with windowDue := some false } })
        (fun t => t.cad.charged == 0 && t.cad.chargedNext == 100) = true ∧
      after (exec (.sequenceEnd die0 [] [0] 500 0) p) (fun t => (pageRecOf t (at_ 1 0)).any (fun q => q.st == .done)) = true ∧
      after (exec (.sequenceEnd die0 [] [1] 500 0) p) (fun t => t.health.programFails == 1) = true ∧
      after (exec (.sequenceEnd die0 [] [] 5 40) m) (fun t => (dieStOf t die0).any (fun e => e.sample == some (20000, 0))) = true := by decide +kernel

/-- A read of LBA 3 that waits for slot 0 of page 1. -/
def waitsFor : State := { rowS .done row0 with ctxs := [rd 0x02 (.medium (at_ 1 0))] }

theorem test_medium_read : ladderOf waitsFor (at_ 1 0) = none ∧ pageRecOf waitsFor (at_ 1 0) = some (page1 .done) ∧ wantedBy waitsFor (page1 .done) = [(.command 0 3, 0)] ∧
    after (exec (.mediumReadIssue (at_ 1 0) 0) waitsFor) (fun t => t.media.ladders.any (fun l => l.page == at_ 1 0 && l.rung == 0 && l.carried == [0])) = true := by decide +kernel

/-- A ladder on page 1 at a rung. -/
def lad (rung : Nat) (second : Bool) : Ladder := ⟨at_ 1 0, rung, 0, [0], 0, 0, [], [(.command 0 3, 0)], second⟩
def ladS (l : Ladder) : State := { waitsFor with media := { waitsFor.media with ladders := [l] } }

theorem test_next_read : ladderOf (ladS (lad 2 false)) (at_ 1 0) = some (lad 2 false) ∧ (lad 2 false).rung ≠ 5 ∧
    ((dieStOf (ladS (lad 2 false)) (dieOf (at_ 1 0))).map (·.failed)).getD false = false ∧ ((bayOf (ladS (lad 2 false)) 0).map (·.connected)).getD false = true ∧
    after (exec (.mediumReadIssue (at_ 1 0) 0) (ladS (lad 2 false))) (fun t => anyOp t (fun o => o.seqNo == 2 && o.page == at_ 1 0)) = true := by
  decide +kernel

/-- R300, R302: a candidate is accepted, a refused or failed one goes on to the next rung, and rung 5 ends in the second ladder. -/
theorem test_decode : let s := ladS (lad 0 false); let f := ladS (lad 5 false)
    candidateOf (page1 .done) 0 (.asWritten 2) = some (some zeroBlk, true, 2) ∧ judge s (page1 .done) 0 (some zeroBlk) true = .ok (some zeroBlk) ∧
      after (exec (.decodeDone (at_ 1 0) [(0, .asWritten 2)] []) s)
        (fun t => t.media.ladders == [] && (ctxOf t 0).any (fun c => c.units.any (fun u => u.st == .got zeroBlk false))) = true ∧
    candidateOf (page1 .done) 0 .failed = none ∧ nextRung s (page1 .done) 0 0 = some (2, 0) ∧
      after (exec (.decodeDone (at_ 1 0) [(0, .failed)] []) s) (fun t => ladderOf t (at_ 1 0) == some { lad 0 false with rung := 2 }) = true ∧
    ladderOf f (at_ 1 0) = some (lad 5 false) ∧ (setAt f.map (page1 .done).addr).bind (fun k => recoverPage f k (page1 .done) [0]) = none ∧
      after (exec (.decodeDone (at_ 1 0) [(0, .failed)] [0]) f) (fun t => (ladderOf t (at_ 1 0)).any (fun l => l.second && l.carried == [0])) = true := by decide +kernel

/-- R314, R316, R319, R329. -/
theorem test_clocks : let s := { bare prof with cad := { on.cad with aet := 3600 * 65536 } }
    notReady s = false ∧ aetSec s.cad.aet / 60 ≠ s.media.lastMinute ∧ aetSec s.cad.aet / 3600 ≠ s.media.lastHour ∧
      clockedBays s = [bay0 .member] ∧ s.media.bays.filter (fun x => x.bay == 0) = [bay0 .member] ∧ (clockedBays s).filter (fun x => x.uid == 77) = [bay0 .member] ∧
      after (exec (.thermalClockMinute []) s) (fun t => t.media.lastMinute == 60 && t.health.onMinutes == 1) = true ∧
      after (exec .hourlyModelUpdate s) (fun t => t.media.lastHour == 1) = true := by decide +kernel

theorem test_minute_sample : let b := { bay0 .member with minuteTemp := some 30 }; let s := { bare prof with media := { on.media with bays := [b, Bay.reset 1] }, cad := { on.cad with aet := 60 * 65536 } }
    b ∈ clockedBays s ∧ s.media.bays.filter (fun x => x.bay == b.bay) = [b] ∧ bayProfile s b.bay = some prof ∧ b.minuteTemp = some 30 := by decide +kernel

theorem test_aet_wait : let s : State := { med .hostFine with now := 600000000000, media := { (med .hostFine).media with readyAt := some 0 } }
    notReady s = false ∧ s.cad.aetValid = false ∧ 0 + 600000000000 ≤ s.now ∧ (liveSets s).length = 1 ∧ s.media.swept = [] ∧ failedSet s = false ∧
      after (exec (.aetWaitTimeout 0) s) (fun t => t.media.atRisk == [1] && flag t.cond bReduced && t.media.unpowered == 0xFFFFFFFFFFFFFFFF) = true := by decide +kernel

theorem test_patrol_start : let s := bare prof
    profileOf s 0 = some prof ∧ (memberBays s 0).length = 1 ∧ (profSt s 0).patrolOn = false ∧ (profSt s 0).patrolNext ≤ aetSec s.cad.aet ∧
      after (exec (.patrolCycleStart 0) s) (fun t => !(profSt t 0).patrolLate && (profSt t 0).patrolNext == nextDue 0 (3600 * cycleHours s 0)) = true := by decide +kernel

/-- The set closed, with a claim, or none. -/
def closedS (cs : List Claim) : State := let s := med .hostFine
  let s : State := { s with kf := { s.kf with img := { s.kf.img with profiles := [prof3] } } }
  { s with
    map := { s.map with sets := [{ set1 .hostFine with closed := true }], blocks := [⟨blk, 1, .closed, false, 1⟩] }
    media := { s.media with opens := [], claims := cs, refresh := [⟨1, 3⟩] } }

theorem test_reclaim : let s := closedS []
    profileOf s 0 = some prof3 ∧ notReady s = false ∧ s.jrnl.stopFrom = none ∧ reclaimRuns s 0 = true ∧ heldSets s .reclaim 0 = [] ∧ (profSt s 0).rescue = none ∧
      (reclaimVictim s 0).map (·.seq) = some 1 ∧
      after (exec (.reclaimStart 0) s) (fun t => (profSt t 0).on && (holderOf t 1).any (fun c => c.agent == .reclaim)) = true ∧
      after (exec (.reserveReclaimStart 0) s) (fun t => (profSt t 0).reserveOn == reserveRuns s 0) = true := by decide +kernel

theorem test_claims : let k := { set1 .hostFine with closed := true }; let r : Claim := ⟨1, .reclaim, none, []⟩; let e : Claim := ⟨1, .evacuate, none, []⟩
    setOf (closedS []) 1 = some k ∧ k.closed = true ∧ claimOf (closedS []) .refresh 1 = none ∧ holderOf (closedS []) 1 = none ∧
      after (exec (.blockClaimRequest .refresh 1) (closedS [])) (fun t => t.media.claims == [⟨1, .refresh, none, []⟩]) = true ∧
    holderOf (closedS [r]) 1 = some r ∧ claimOutcome .rebuild .reclaim = .takeOver ∧
      after (exec (.blockClaimRequest .rebuild 1) (closedS [r])) (fun t => holderOf t 1 == some ⟨1, .rebuild, none, [.reclaim]⟩) = true ∧
    holderOf (closedS [e]) 1 = some e ∧ claimOutcome .rebuild .evacuate = .preempt ∧
      after (exec (.blockClaimRequest .rebuild 1) (closedS [e])) (fun t => holderOf t 1 == some { e with preemptedBy := some .rebuild }) = true ∧
    claimOutcome .refresh .rebuild = .refuse ∧ claimOutcome .refresh .patrol = .grant ∧ claimOutcome .refresh .reclaim = .satisfied := by decide +kernel

theorem test_handoff : let h : Claim := ⟨1, .evacuate, some .rebuild, []⟩; let s := closedS [h]
    holderOf s 1 = some h ∧ (setOf s 1).isSome = true ∧ holderBusy s { set1 .hostFine with closed := true } (agentDieWho .evacuate) = false ∧
      after (exec (.preemptHandoff 1) s) (fun t => holderOf t 1 == some ⟨1, .rebuild, none, []⟩) = true := by decide +kernel

theorem test_release : let s := closedS [⟨1, .reclaim, none, []⟩]; let k := { set1 .hostFine with closed := true }
    setOf s 1 = some k ∧ mayRelease s k = true ∧ blocksOfSet k = [blk] ∧ bayOf s 0 = some (bay0 .member) ∧ colDown s k blk = false ∧ (blkOf s blk).st ≠ .retired ∧
      after (exec (.blockRelease 1) s) (fun t => t.media.claims == [] && (blkOf t blk).released) = true := by decide +kernel

/-- The block released; with a failed page, or without. -/
def freed (st : PageSt) : State := let s := closedS []
  { s with map := { s.map with blocks := [⟨blk, 1, .closed, true, 1⟩] }, media := { s.media with pages := [page1 st] } }

theorem test_erase : (blkOf (freed .done) blk).released = true ∧ releaseDurable (freed .done) blk = true ∧ (freed .done).eng.pins = [] ∧ (freed .done).media.verifyFails = [] ∧
    anyOp (freed .done) (fun o => o.seqNo == 4 && o.page == blk) = false ∧
    after (exec (.blockErase blk) (freed .done)) (fun t => t.media.undrawn.any (fun o => o.seqNo == 4 && o.page == blk && drawOf t o == some (eraseDraw t blk))) = true ∧
    (freed .failed).media.pages.any (fun p => blockOf p.addr == blk && p.st == .failed) = true ∧
    after (exec (.blockErase blk) (freed .failed)) (fun t => (blkOf t blk).st == .retired && t.media.pages == []) = true := by decide +kernel

theorem test_refresh_claim : let s := closedS []
    (refreshList s).map (·.seq) = [1] ∧ severityOf s { set1 .hostFine with closed := true } = 3 ∧ holderOf s 1 = none ∧
      after (exec .refreshClaim s) (fun t => (holderOf t 1).any (fun c => c.agent == .refresh)) = true := by decide +kernel

/-- A bay whose descriptor copies have the numbers given, with a rewrite in hand or none. -/
def descB (x y : Nat) (w : Option Rewrite) : Bay := { bay0 .member with seqA := x, seqB := y, rewrite := w }
def descS (x y : Nat) (w : Option Rewrite) : State := { bare prof with media := { (bare prof).media with bays := [descB x y w, Bay.reset 1] } }

/-- A rewrite past its last step, of the first or the second copy. -/
def rewr (second : Bool) : Rewrite := ⟨if second then 1 else 0, second, 3, 5000, []⟩

/-- R239: the copy with the lower number first, then the other with the same number; a bad read-back is begun anew. -/
theorem test_descriptor : bayOf (descS 1 2 none) 0 = some (descB 1 2 none) ∧ mayRewrite (descS 1 2 none) (descB 1 2 none) = true ∧
    rewriteDue (descS 1 2 none) (descB 1 2 none) = true ∧
    after (exec (.descriptorRewrite 0 []) (descS 1 2 none))
      (fun t => (bayOf t 0).any (fun x => x.seqA == 0 && x.seqB == 2 && x.rewrite.any (fun w => w.copy == 0 && !w.second && w.seq == 3 && w.step == 0))) = true ∧
    rewriteDue (descS 2 1 none) (descB 2 1 none) = true ∧
    after (exec (.descriptorRewrite 0 []) (descS 2 1 none)) (fun t => (bayOf t 0).any (fun x => x.seqA == 2 && x.seqB == 0 && x.rewrite.any (fun w => w.copy == 1))) = true ∧
    rewriteOp (descS 0 2 (some (rewr false))) (descB 0 2 (some (rewr false))) (rewr false) = none ∧ readBackGood (rewr false) [] = true ∧
    after (exec (.descriptorRewrite 0 []) (descS 0 2 (some (rewr false))))
      (fun t => (bayOf t 0).any (fun x => x.seqA == 3 && x.rewrite.any (fun w => w.copy == 1 && w.second && w.seq == 3))) = true ∧
    rewriteOp (descS 3 2 (some (rewr true))) (descB 3 2 (some (rewr true))) (rewr true) = none ∧ readBackGood (rewr true) [] = true ∧
    after (exec (.descriptorRewrite 0 []) (descS 3 0 (some (rewr true)))) (fun t => (bayOf t 0).any (fun x => x.seqA == 3 && x.seqB == 3 && x.rewrite.isNone)) = true ∧
    readBackGood (rewr false) [[0]] = false ∧
    after (exec (.descriptorRewrite 0 [[0]]) (descS 0 2 (some (rewr false)))) (fun t => (bayOf t 0).any (fun x => x.seqA == 0 && x.rewrite.isNone)) = true := by
  decide +kernel

theorem test_member_failure : let s := bare prof
    bayOf s 0 = some (bay0 .member) ∧ (bay0 .member).dies.contains 0 = true ∧
      after (exec (.memberFailure 0 none) s) (fun t => (bayOf t 0).any (fun b => b.st == .failed && !b.connected && !b.pwrEn) && t.media.fails.any (fun f => f.bay == 0 && f.die == none)) = true ∧
      after (exec (.memberFailure 0 (some 0)) s) (fun t => (bayOf t 0).any (fun b => b.failedDies == [0])) = true := by decide +kernel

/-- A SYSTEM set of two columns on two bays. -/
def sysS : State := let b1 := { bay0 .member with bay := 1, uid := 78 }; let blk1 : Madr := { blk with bay := 1 }; let s := med .system
  { s with
    kf := { s.kf with img := { s.kf.img with profiles := [prof2], podUnits := [0, 0, 0, 8] } }
    map := { s.map with
      sets := [{ set1 .system with w := 2, rows := 1359, cols := [(0, blk), (1, blk1)] }]
      blocks := [⟨blk, 1, .opened, false, 1⟩, ⟨blk1, 1, .opened, false, 1⟩] }
    media := { s.media with bays := [bay0 .member, b1], opens := [⟨1, [], 0, 0, [], false, false⟩] } }

/-- R341, R343: the record finds room for its copies in row 0, on two bays. -/
theorem test_stripe_record : let o : OpenSet := ⟨1, [], 0, 0, [], false, false⟩
    sjTarget sysS = some o ∧ recordDue sysS = true ∧
      after (exec .stripeJournalRecord sysS)
        (fun t => t.media.sjSeq == 2 && t.media.sj.map (fun e => (e.seq, e.safeRow, e.limitRow)) == [(1, 0, 4)] &&
          t.media.sjWait.any (fun w => w.copyA.bay == 0 && w.copyB.bay == 1)) = true := by decide +kernel

/-- A closed set whose second column lies on a FAILED bay, for rebuild to work; and none to work. -/
def degS (r : Nat) : State := let b1 := { bay0 .failed with bay := 1, uid := 78 }; let blk1 : Madr := { blk with bay := 1 }; let b2 := { bay0 .member with bay := 2, uid := 79 }
  let s := med .system
  { s with
    kf := { s.kf with img := { s.kf.img with profiles := [prof2], podUnits := [0, 0, 0, 8] } }
    map := { s.map with
      sets := [{ set1 .system with w := 2, p := 1, rows := 1, closed := true, lastValid := some 0, cols := [(0, blk), (1, blk1)] }]
      blocks := [⟨blk, 1, .closed, false, 1⟩, ⟨blk1, 1, .closed, false, 1⟩] }
    media := { s.media with bays := [bay0 .member, b1, b2], opens := [], rebuild := r } }

theorem test_rebuild : someHost (degS 4) = true ∧ someHost (bare prof) = false ∧ (((rebuildList (degS 1)).take 32).findSome? (workSet (degS 1))).isSome = true ∧
    after (exec .rebuildRow (degS 4)) (fun t => t.media.rebuild == 1) = true ∧
    after (exec .rebuildRow { bare prof with media := { (bare prof).media with rebuild := 1 } }) (fun t => t.media.rebuild == 4) = true ∧
    after (exec .rebuildRow (degS 1)) (fun t => t.media.claims.any (fun c => c.agent == .rebuild)) = true := by decide +kernel

/-! ## Journal, stops, boot, restart -/

/-- A durable record that no page holds. -/
def rec1 : StagedRec := ⟨1, .csnReserve 1, true, false⟩

/-- A SYSTEM set with a covered row, and the record. -/
def jrnS : State := { sysS with jrnl := { sysS.jrnl with recs := [rec1], nextSeq := 2 }, media := { sysS.media with opens := [⟨1, [], 0, 4, [], false, false⟩] } }

theorem test_journal_flush : jrnS.jrnl.stopFrom = none ∧ isOwner jrnS = true ∧ jrnS.cad.journalDue ≤ nowT jrnS ∧ unflushed jrnS = [rec1] ∧ unflushed on = [] ∧
    (unflushed (flushAll jrnS)).length = 0 ∧
    after (exec .journalFlush jrnS) (fun t => unflushed t == [] && t.cad.journalDue == nextDue 0 8 && t.jrnl.flights == [(1, 0, 1, 1)]) = true ∧
    after (exec .journalFlush on) (fun t => t.cad.journalDue == nextDue 0 8) = true := by decide +kernel

theorem test_checkpoint_start : let b : State := { jrnS with jrnl := { jrnS.jrnl with running := some ⟨.grid, false, none, {}⟩ } }
    jrnS.cad.journalDue ≤ nowT jrnS ∧ jrnS.kf.restartStep = 0 ∧ ckptTriggered jrnS .grid = true ∧ jrnS.jrnl.cleanStands = false ∧ ckptBusy jrnS = false ∧ ckptBusy b = true ∧
      after (exec (.checkpointStart .grid) jrnS) (fun t => t.jrnl.running == some ⟨.grid, false, none, cutOf (flushJournal jrnS)⟩ && t.jrnl.hostBytes == 0 && t.jrnl.cut == 1) = true ∧
      after (exec (.checkpointStart .grid) b) (fun t => t.jrnl.waiting == [.grid]) = true := by decide +kernel

/-- A checkpoint whose root has taken its slots in page 1 of the SYSTEM set. -/
def rootPiece : CkptPiece := ⟨0, 0, [1, 2], some (at_ 1 0, at_ 1 0), 1, 1⟩
def root0 : Ckpt := ⟨1, false, 0, 1, 1, 1, 0, 1, blk, 1, [], MapImg.empty, [], {}⟩
def rootS : State :=
  { jrnS with
    jrnl := { jrnS.jrnl with running := some ⟨.grid, false, some ⟨1, MapImg.empty, [], [], some (root0, rootPiece)⟩, {}⟩ }
    media := { jrnS.media with pages := jrnS.media.pages ++ [⟨at_ 1 0, 1, 5, 0, 0, .done, 0, [], []⟩] } }

theorem test_checkpoint_root : rootS.kf.restartStep = 0 ∧ pieceStands (alignSystem rootS) rootPiece = true ∧
    after (exec .checkpointRootWrite rootS) (fun t => t.jrnl.running == none && t.jrnl.nextCkpt == 2) = true := by decide +kernel

/-- R252, R254, R262. -/
theorem test_stops : let c : State := { on with jrnl := { on.jrnl with cleanStands := true } }
    on.kf.porst = false ∧ on.kf.recMode = false ∧ on.power.st = 0 ∧ on.power.entering = none ∧ on.jrnl.stopFrom = none ∧ isOwner on = true ∧ on.kf.released = true ∧
      failedSet on = false ∧
      after (exec (.pwrfailFall 5) on) (fun t => t.side.pwrfail && t.jrnl.stopFrom == some 5 && t.jrnl.stops.map (fun r => (r.kind, r.stopSeq)) == [(.powerFail, 1)]) = true ∧
      after (exec (.pwrfailFall 5) c) (fun t => t.jrnl.stopEnded && t.jrnl.stops == []) = true ∧
      after (exec (.porstAssert 5) on) (fun t => t.kf.porst && t.jrnl.stops.map (·.kind) == [.reset]) = true ∧
      after (exec (.porstAssert 5) c) (fun t => t.kf.porst && t.jrnl.stops == []) = true ∧
      after (exec (.failedSet false) on) (fun t => failedSet t && t.jrnl.stops.map (·.kind) == [.failed]) = true := by decide +kernel

theorem test_holdup_complete : let s : State := { on with jrnl := { on.jrnl with stopFrom := some 3 }, side := { on.side with pwrfail := true }, media := { on.media with bays := [bay0 .member] } }
    s.jrnl.stopEnded = false ∧ s.jrnl.stopKind = .powerFail ∧ s.side.pwrfail = true ∧
      after (exec .holdupComplete s) (fun t => t.jrnl.stopEnded && t.media.bays.all (fun b => !b.writable)) = true := by decide +kernel

/-- A board that is well. -/
def env : BootEnv := ⟨false, false, 5, 9, false, true, true, 1024, true, 40⟩

theorem test_boot : let r : State := { State.reset with kf := { Kf.reset with recRequest := true } }
    State.reset.kf.porst = true ∧ State.reset.jrnl.stopFrom = none ∧ State.reset.kf.tripHold = false ∧ env.lockstepOk = true ∧ State.reset.kf.mem = [] ∧
      after (exec (.porstRelease 0 env) State.reset) (fun t => !t.kf.porst && t.kf.boardId == 9 && t.kf.sbAddr == 5 && t.kf.recMode && t.kf.recCause == 2) = true ∧
      after (exec (.porstRelease 0 env) r) (fun t => t.kf.recMode && t.kf.recCause == 1 && !t.kf.released) = true := by decide +kernel

theorem test_power_pins : let s : State := { on with side := { on.side with pwrfail := true } }
    s.jrnl.stopEnded = false ∧ after (exec (.pwrfailRise 0) s) (fun t => !t.side.pwrfail && t.jrnl == s.jrnl) = true ∧
      after (exec .alwaysOnPowerUp { on with kf := { on.kf with recRequest := true } }) (fun t => t.kf.porst && !t.kf.recRequest) = true := by decide +kernel

theorem test_restart : let s : State := { on with cond := 1, kf := { on.kf with restartStep := 2 } }; let f (ok : Bool) : RestartFind := ⟨ok, true, [], []⟩
    isOwner s = true ∧ s.jrnl.stopFrom = none ∧
      after (exec (.restartComplete 7 (f true)) s) (fun t => t.kf.restartStep == 0 && t.media.readyAt == some 7 && !failedSet t && !notReady t) = true ∧
      after (exec (.restartComplete 7 (f false)) s) (fun t => failedSet t) = true := by decide +kernel

/-- R212, R425: the dirty tile stays, and the staged unit named is marked as lost. -/
theorem test_dram_content : let fr (seg : Nat) (d : Bool) : TileFrame := ⟨seg, 0, 1, seg, 1, d, 0⟩
    let c := { wr with staged := [unit3] }
    let s : State := { withCmd (med .hostFine) c with eng := { on.eng with dramSets := 4, dram := [fr 0 true] } }
    s.eng.dramLost = 0 ∧ s.kf.porst = false ∧
      after (exec (.dramChannelLoss 2 [(0, 3)]) s) (fun t => t.eng.dram.all (fun f => f.seg == 0 && f.dirty) &&
        t.ctxs == s.ctxs.map (loseStaged [(0, 3)]) && t.ctxs.any (fun c => c.staged.any (·.lost))) = true := by decide +kernel

theorem test_dram_loss : let s : State := { on with eng := { on.eng with dramLost := 1 }, pods := { on.pods with used := [(4, 2, 0), (4, 3, 0)] } }
    on.eng.dramLost.getLsbD 2 = false ∧ s.eng.dramLost.getLsbD 2 = false ∧ s.eng.dramLost ≠ 0 ∧
      after (exec (.dramChannelLoss 2 []) on) (fun t => t.eng.dramLost == 4 && !failedSet t) = true ∧
      after (exec (.dramChannelLoss 2 []) s) (fun t => t.eng.dramLost == 5 && failedSet t && t.pods.used.all (fun u => u.2.1 != 2)) = true := by decide +kernel

/-! ## Bays -/

/-- A descriptor of DESCRIPTOR_SEQ 4 and BAY_UID 77 without sections, in its two frames, and the pages that hold them. -/
def descHead : List Byte :=
  leBytes 4 0x42445343 ++ leBytes 2 1 ++ zeros 2 ++ leBytes 8 4 ++ leBytes 8 77 ++ zeros 0x40 ++ leBytes 4 2 ++ zeros (0x3F8 - 0x5C)
def descPayload : List Byte := descHead ++ leBytes 8 (crc64 descHead).toNat
def descFrame (i : Nat) : List Byte := descriptorFrame 4 i descPayload
def descPage (i : Nat) : List Byte := (descriptorPage default (descFrame i)).1

theorem frameOk_desc (i : Nat) : frameOk (descFrame i) = true :=
  frameOk_frameWith _ _ _ (by simp only [List.length_append, padTo, zeros, List.length_replicate, slice, List.length_take, List.length_drop]; omega)

theorem survey_read : chosenPayload (surveyFrames [descPage 0, descPage 1]) (surveyFrames []) = some (descPayload ++ zeros 1000) := by
  have hf : surveyFrames [descPage 0, descPage 1] = [descFrame 0, descFrame 1] := by
    simp only [surveyFrames, List.map_cons, List.map_nil, descPage, majorityFrame_page _ _ (descriptorFrame_length ..), descFrame]
  have hm : mendFrames [descFrame 0, descFrame 1] [] = [some (descFrame 0), some (descFrame 1)] := by
    simp [mendFrames, frameOk_desc, List.range_succ]
  have hl : descHead.length = 1016 := by decide +kernel
  have hp : descPayload.length = 1024 := by simp [descPayload, hl]
  have hs : slice (descFrame 0) 8 1012 ++ slice (descFrame 1) 8 1012 = descPayload ++ zeros 1000 := by
    have h0 : slice descPayload (1012 * 0) 1012 = descPayload.take 1012 := rfl
    have h1 : slice descPayload (1012 * 1) 1012 = descPayload.drop 1012 := by
      simp only [slice, Nat.mul_one]
      exact List.take_of_length_le (by simp [hp])
    rw [descFrame, descFrame, slice_descriptorFrame, slice_descriptorFrame, h0, h1, padTo, padTo, List.length_take, List.length_drop, hp]
    simp only [zeros, List.replicate_zero, List.append_nil, show 1012 - min 1012 1024 = 0 from rfl, ← List.append_assoc, List.take_append_drop]
  have hg : headerPasses (descPayload ++ zeros 1000) = true := by
    have := guard_last descHead
    rw [hl] at this
    have ha : field (descPayload ++ zeros 1000) 0x3F8 8 = field descPayload 0x3F8 8 := by
      simp only [field, slice]
      rw [List.drop_append_of_le_length (by simp [hp]), List.take_append_of_le_length (by simp [hp])]
    have hb : (descPayload ++ zeros 1000).take 0x3F8 = descPayload.take 0x3F8 := List.take_append_of_le_length (by simp [hp])
    simp only [headerPasses, ha, hb]
    rw [show descPayload = descHead ++ leBytes 8 (crc64 descHead).toNat from rfl, this]
    decide +kernel
  have hr : readCopy [descFrame 0, descFrame 1] [] = some (descPayload ++ zeros 1000) := by
    have hn : field (descPayload ++ zeros 1000) 0x58 4 = 2 := by decide +kernel
    have hw : (List.range 2).all (fun i => (([some (descFrame 0), some (descFrame 1)].getD i none).map
        (fun f => field f 0 4 == i && field f 4 4 == field (descPayload ++ zeros 1000) 8 4)).getD false) = true := by decide +kernel
    simp only [readCopy, hm, List.take, List.flatMap_cons, List.flatMap_nil, Option.getD_some, List.append_nil, hs, hg, hn, hw, Bool.true_and, if_true]
  have h0 : surveyFrames [] = [] := rfl
  have hz : readCopy [] [descFrame 0, descFrame 1] = none := rfl
  rw [chosenPayload, hf, h0, hr, hz]
/-- What a carrier answers. -/
def survey (fault : Bool) : BaySurvey := ⟨[(0, 7), (32, 7)], fault, [descPage 0, descPage 1], [], 4096, []⟩

theorem test_survey_read : surveyInfo 0 (survey false) = some (payloadInfo 0 (descPayload ++ zeros 1000)) ∧
    (payloadInfo 0 (descPayload ++ zeros 1000)).uid = 77 := by
  refine ⟨?_, by decide +kernel⟩
  rw [surveyInfo, survey, survey_read]; rfl

/-- The same without a readable page. -/
def blank (fault : Bool) : BaySurvey := { survey fault with pagesA := [] }

/-- The part with one bay position. -/
def withBay (b : Bay) : State := { bare prof with kf := { (bare prof).kf with imgValid := true }, media := { (bare prof).media with bays := [b] } }

theorem test_bay_signals : let e := withBay (Bay.reset 0); let m := withBay (bay0 .member); let i := withBay (bay0 .inserted)
    bayOf e 0 = some (Bay.reset 0) ∧ isOwner e = true ∧ (Bay.reset 0).present = false ∧ e.kf.imgValid = true ∧ bayOf m 0 = some (bay0 .member) ∧ (bay0 .member).present = true ∧
      after (exec (.bayPresenceAccepted 0 (blank false)) e)
        (fun t => (bayOf t 0).any (fun y => y.st == .inserted && y.present && y.pwrEn && y.connected && !y.writable && y.profile == some 0 && y.dies == [0, 32])) = true ∧
      after (exec (.bayPresenceAccepted 0 (blank true)) e) (fun t => (bayOf t 0).any (fun y => y.st == .failed && !y.connected && !y.pwrEn)) = true ∧
      after (exec (.bayRemoval 0) m) (fun t => (bayOf t 0).any (fun y => y.st == .failed && !y.present) && t.media.fails.any (fun f => f.bay == 0)) = true ∧
      after (exec (.bayRemoval 0) i) (fun t => (bayOf t 0).any (fun y => y.st == .absent && !y.pwrEn)) = true ∧
      after (exec (.bayFault 0) m) (fun t => (bayOf t 0).any (fun y => y.st == .failed && y.faultLow)) = true := by decide +kernel

/-- What a carrier without a fault leaves at position 0 is what its readings say. -/
theorem seated (v : BaySurvey) (hv : v.faultLow = false) (d : DescriptorInfo) (hd : surveyInfo 0 v = some d) (hu : d.uid = 77) :
    after (exec (.bayPresenceAccepted 0 v) (withBay (Bay.reset 0))) (fun t => (bayOf t 0).any (fun y => y.uid == 77)) = true := by
  have hf (s : State) (x : Bay) (h : x.bay = 0) : (readBay s v x).bay = 0 ∧ (readBay s v x).uid = 77 := by
    simp only [readBay, h, hd]
    exact ⟨trivial, hu⟩
  have hb (s t : State) (x : Bay) (hx : x.bay = 0) (h : t.media.bays = [readBay s v x]) :
      after (settled t) (fun t => (bayOf t 0).any (fun y => y.uid == 77)) = true := by
    simp [settled, after, bayOf, h, (hf s x hx).1, (hf s x hx).2]
  simp only [exec, execBayPresenceAccepted]
  rw [show bayOf (withBay (Bay.reset 0)) 0 = some (Bay.reset 0) from rfl]
  simp only [hv]
  apply hb (setBaySt (updBay (withBay (Bay.reset 0)) 0 (fun y => { y with present := true })) 0 .inserted) _
    { Bay.reset 0 with present := true, st := .inserted } rfl
  split <;> rfl

/-- R365: the BAY_UID that the bay reports is the one that its descriptor holds. -/
theorem test_bay_read : after (exec (.bayPresenceAccepted 0 (survey false)) (withBay (Bay.reset 0))) (fun t => (bayOf t 0).any (fun y => y.uid == 77)) = true :=
  seated _ rfl _ test_survey_read.1 test_survey_read.2

/-- R43: a part without an image only sees the carrier. -/
theorem test_bay_seen : let e : State := { bare prof with media := { (bare prof).media with bays := [Bay.reset 0] } }
    isOwner e = true ∧ e.kf.imgValid = false ∧
      after (exec (.bayPresenceAccepted 0 (blank false)) e) (fun t => bayOf t 0 == some { Bay.reset 0 with present := true }) = true := by decide +kernel

/-- R370: half of the dies listed is not too many. -/
theorem test_commissioning : let s := withBay { bay0 .commissioning with dies := [0, 32] }; let r (n : Nat) : CommissionResult := ⟨[(blk, 1)], n, true⟩
    s.jrnl.stopFrom = none ∧ 2 * (r 1).diesListed ≤ 2 ∧ 2 < 2 * (r 2).diesListed ∧
      after (exec (.commissioningDone 0 (r 2)) s) (fun t => (bayOf t 0).any (fun y => y.st == .failed)) = true := by decide +kernel

/-- A BAY_CONTROL of an action on bay 0. -/
def ctl (a : Nat) : Ctx := cmd 0 0x90 [(12, 256 * a)]
def ctlS (a : Nat) (b : Bay) : State := withCmd (withBay b) (ctl a)
def insB : Bay := { bay0 .inserted with dies := [0, 32], uid := 0 }

theorem test_commission : ctlBay (ctlS 0 insB) (ctl 0) = some insB ∧ actionIn (ctlS 0 insB) 0 0x90 0 = some (ctl 0) ∧ actionIn (ctlS 1 insB) 0 0x90 1 = some (ctl 1) ∧
    mayCommission (ctlS 0 insB) insB = true ∧ mayCommission (ctlS 0 (bay0 .inserted)) (bay0 .inserted) = false ∧ mayCommission (ctlS 1 insB) insB = true ∧
    after (exec (.bayCommissionMember 0) (ctlS 0 insB)) (fun t => (bayOf t 0).any (fun y => y.st == .commissioning && y.writable && !y.asSpare) && ended t 0 0 0) = true ∧
    after (exec (.bayCommissionMember 0) (ctlS 0 (bay0 .inserted))) (fun t => bayOf t 0 == some (bay0 .inserted) && ended t 0x1002 0 0) = true ∧
    after (exec (.bayCommissionSpare 0) (ctlS 1 insB)) (fun t => (bayOf t 0).any (fun y => y.st == .commissioning && y.asSpare)) = true := by decide +kernel

/-- R271: one bay of two may leave where nothing is allocated. -/
theorem test_evacuate : let b := { bay0 .member with u0 := 1000 }; let s := withCmd { bare { prof2 with blocksPerPlane := 1000 } with media := { (bare prof).media with bays := [b, { b with bay := 1, uid := 78 }] } } (ctl 2)
    ctlBay s (ctl 2) = some b ∧ actionIn s 0 0x90 2 = some (ctl 2) ∧ s.kf.boot.pend = 0 ∧ evacuationFits s b 0 { prof2 with blocksPerPlane := 1000 } = true ∧
      after (exec (.bayEvacuate 0) s) (fun t => (bayOf t 0).any (fun y => y.st == .evacuating) && ended t 0 0 0) = true ∧
    evacuationFits (ctlS 2 (bay0 .member)) (bay0 .member) 0 prof = false ∧
      after (exec (.bayEvacuate 0) (ctlS 2 (bay0 .member))) (fun t => ended t 0x4001 0 0) = true ∧
      after (exec (.bayEvacuate 0) (ctlS 2 insB)) (fun t => ended t 0x1002 0 0) = true := by decide +kernel

theorem test_cancel_and_release : let e := bay0 .evacuating; let busy : DieSt := { DieSt.fresh die0 with op := some ⟨1, blk, 6, 0, none, false⟩ }
    let s := ctlS 3 e; let u : State := { s with media := { s.media with dies := [busy] } }
    actionIn s 0 0x90 3 = some (ctl 3) ∧ evacBusy s = false ∧ evacBusy u = true ∧ actionIn (ctlS 4 insB) 0 0x90 4 = some (ctl 4) ∧ evacLeftOn s 0 = 0 ∧
      after (exec (.bayCancelEvacuate 0) s) (fun t => (bayOf t 0).any (fun y => y.st == .member)) = true ∧
      after (exec (.bayCancelEvacuate 0) u) (fun t => bayOf t 0 == some { e with cancelled := true }) = true ∧
      after (exec (.bayRelease 0) (ctlS 4 { insB with uid := 5 })) (fun t => (bayOf t 0).any (fun y => y.st == .released && !y.pwrEn) && t.media.retired == [5]) = true ∧
      after (exec (.evacuationDone 0) s) (fun t => (bayOf t 0).any (fun y => y.st == .released)) = true := by decide +kernel

/-- An evacuating bay with a closed set, and another bay that hosts its column. -/
def evacS : State := let s := closedS []
  { s with media := { s.media with bays := [bay0 .evacuating, { bay0 .member with bay := 1, uid := 78 }], refresh := [] } }

theorem test_evacuation_move : let k := { set1 .hostFine with closed := true }
    notReady evacS = false ∧ evacS.jrnl.stopFrom = none ∧ ((evacList evacS).take 32).filter (fun k => (evacBlocks evacS k).any (fun c => !((bayOf evacS c.2.bay).map (·.cancelled)).getD true)) = [k] ∧
      claimOf evacS .evacuate 1 = none ∧ evacBlocks evacS k = [(0, blk)] ∧ (columnMove evacS k 0).isSome = true ∧
      after (exec .evacuationSetMove evacS) (fun t => t.media.claims.any (fun c => c.agent == .evacuate && c.seq == 1)) = true := by decide +kernel

/-- A checkpoint root whose BAY_TABLE names BAY_UID 5, and a bay of that number. -/
def rootHead : List Byte := leBytes 4 0x434B5054 ++ zeros 0x4C ++ leBytes 8 5 ++ zeros (0xFF8 - 0x58)
def root5 : List Byte := rootHead ++ leBytes 8 (crc64 rootHead).toNat
def bay5 : Bay := { insB with uid := 5, tigrim := 1, bindingHash := 9 }

theorem root5_newest : newestRoot [(root5, [])] 5 = some root5 := by
  have hl : rootHead.length = 4088 := by decide +kernel
  have hg := guard_last rootHead
  rw [hl] at hg
  have hp : rootPasses root5 [] = true := by
    rw [rootPasses, show root5 = rootHead ++ leBytes 8 (crc64 rootHead).toNat from rfl, hg]
    decide +kernel
  have ht : (bayTable root5).contains 5 = true := by decide +kernel
  simp only [newestRoot, List.filter_cons, List.filter_nil, hp, ht, Bool.and_self, if_true, List.map_cons, List.map_nil, List.foldl_cons, List.foldl_nil]

/-- R376: an import of the root's group starts. -/
theorem import_starts (v : ImportSurvey) (root : List Byte) (hv : v.headers = []) (hr : newestRoot v.roots 5 = some root)
    (ht : (bayTable root).contains 5 = true) : importCode (ctlS 5 bay5) (ctlBay (ctlS 5 bay5) (ctl 5)) v = 0 ∧
    after (exec (.bayImport 0 v) (ctlS 5 bay5)) (fun t => t.media.importing == [0] && ended t 0 0 0) = true := by
  have hb : ctlBay (ctlS 5 bay5) (ctl 5) = some bay5 := by decide +kernel
  have ha : actionIn (ctlS 5 bay5) 0 0x90 5 = some (ctl 5) := by decide +kernel
  have hg : importGroup (ctlS 5 bay5) root = [0] := by
    simp only [importGroup, show (ctlS 5 bay5).media.bays = [bay5] from rfl, List.filter_cons, List.filter_nil, show bay5.uid = 5 from rfl, ht,
      show bay5.st = .inserted from rfl]
    rfl
  have hw : withinParity v [0] = true := by simp [withinParity, groupHeaders, headersOf, hv]
  have hc : importCode (ctlS 5 bay5) (some bay5) v = 0 := by
    simp only [importCode, show bay5.uid = 5 from rfl, hr, hg, hw]
    decide +kernel
  refine ⟨hb ▸ hc, ?_⟩
  simp only [exec, execBayImport, ha, hb, hc, Option.bind_some, show bay5.uid = 5 from rfl, hr, Option.getD_some, hg]
  decide +kernel

theorem test_import : let v (ok : Bool) : ImportSurvey := ⟨if ok then [(root5, [])] else [], [], []⟩
    let r : ImportResult := ⟨rootHead, blk, [], [], [], [], [], [], [], [], 0⟩; let d : State := { withBay bay5 with media := { (withBay bay5).media with importing := [0], blockSeqHigh := 9 } }
    actionIn (ctlS 5 bay5) 0 0x90 5 = some (ctl 5) ∧ importCode (ctlS 5 bay5) (ctlBay (ctlS 5 bay5) (ctl 5)) (v false) = 3 ∧
      after (exec (.bayImport 0 (v false)) (ctlS 5 bay5)) (fun t => ended t 0x1002 3 0) = true ∧
      importCode (ctlS 5 bay5) (ctlBay (ctlS 5 bay5) (ctl 5)) (v true) = 0 ∧
      after (exec (.bayImport 0 (v true)) (ctlS 5 bay5)) (fun t => t.media.importing == [0] && ended t 0 0 0) = true ∧
      d.media.importing ≠ [] ∧ d.jrnl.stopFrom = none ∧ bayCkptWaits d = false ∧
      after (exec (.importDone r) d) (fun t => t.media.importing == [] && t.csnNext == 2 ^ 20 && t.media.blockSeqHigh == 9) = true := by
  have h := import_starts ⟨[(root5, [])], [], []⟩ root5 rfl root5_newest (by decide +kernel)
  exact ⟨by decide +kernel, by decide +kernel, by decide +kernel, h.1, h.2, by decide +kernel⟩

/-! ## Twin -/

/-- A twin chip in a role, its link up, with fields changed. -/
def tw (r : Role) (f : Twin → Twin) : State := { on with now := 10, twin := f { on.twin with en := true, role := r, lanes := 4 } }
def twS (r : Role) : State := tw r id

/-- The next frame's header, good; and one of a later frame. -/
def h1 : FrameHead := ⟨true, 1⟩
def h3 : FrameHead := ⟨true, 3⟩

theorem test_frame_order : accepts (twS .standby) h1 = true ∧ accepts (twS .standby) h3 = false ∧ accepts (twS .standby) ⟨false, 1⟩ = false ∧
    after (exec (.frameFrontier h1 [⟨1, 0, 4, .system, 0⟩] 10) (twS .standby)) (fun t => t.twin.rxSeq == 1 && t.twin.frontier.length == 1 && t.twin.sent.any (fun f => f.frame == .ack 1)) = true ∧
    after (exec (.frameFrontier h3 [⟨1, 0, 4, .system, 0⟩] 10) (twS .standby)) (fun t => t.twin.rxSeq == 0 && t.twin.frontier == []) = true := by decide +kernel

/-- R386, R388, R400, R404. -/
theorem test_ack : let un := [(⟨1, .journal [⟨7, .csnReserve 1, false, false⟩]⟩ : SentFrame), ⟨2, .ack 1⟩]
    let s := { tw .standby (fun t => { t with unacked := un }) with jrnl := { on.jrnl with recs := [⟨7, .csnReserve 1, false, false⟩] } }
    let y := tw .active (fun t => { t with partnerRole := .syncing, syncEnd := some 1, own := true }); let o := tw .active (fun t => { t with partnerRole := .standby, handOver := some (1, 0), own := true })
    twinRuns s = true ∧ s.twin.lanes ≠ 0 ∧ s.twin.role ≠ .active ∧ failedSet y = false ∧ y.twin.handOver = none ∧
      after (exec (.frameAck true 1 10) s) (fun t => t.twin.unacked == [⟨2, .ack 1⟩] && t.jrnl.recs.all (·.durable)) = true ∧
      after (exec (.frameAck true 1 10) y) (fun t => t.twin.partnerRole == .standby && !flag t.cond bTwinSolo) = true ∧
      after (exec (.frameAck true 1 10) o) (fun t => t.twin.role == .standby && !t.twin.own) = true := by decide +kernel

/-- A pair record and a greeted partner of the same SERIAL. -/
def peerHello : PairHello := ⟨[1], true, 0, 0, 0, 0, 0⟩
def known (t : Twin) : Twin := { t with pairRec := some ([1], 5), peer := some peerHello }

theorem test_heartbeat : let y := tw .active (fun t => known { t with partnerRole := .fenced }); let f := tw .active (fun t => { t with partnerRole := .standby, unacked := [⟨1, .ack 1⟩] })
    accepts y h1 = true ∧ y.twin.hold = false ∧ recordNames y = true ∧
      after (exec (.frameHeartbeat h1 .syncing 2 3 4 5 6 10) y) (fun t => t.twin.hbCond == 2 && t.twin.hbPins == 3 && t.twin.partnerRole == .syncing && t.twin.syncEnd.isSome) = true ∧
      after (exec (.frameHeartbeat h1 .active 0 0 0 0 0 10) (twS .standby)) (fun t => t.twin.partnerRole == .active) = true ∧
      after (exec (.frameHeartbeat h1 .fenced 0 0 0 0 0 10) f) (fun t => t.twin.partnerRole == .fenced && t.twin.unacked == []) = true ∧
      after (exec (.frameFailing h1 0x100 10) f) (fun t => t.twin.partnerRole == .fenced && t.twin.hbCond == 0x100) = true := by decide +kernel

/-- An admission slot of CSN 5, and the copies that a standby keeps. -/
def slot5 : AdmSlot := ⟨5, 0, 1, .a, 3, 0, 0, 1, 1, false, false, 0, 0, 0⟩

theorem test_mirror_frames : let s := tw .standby (fun t => { t with slots := [slot5], queues := [(.a, ioq 3)] })
    holdsCopy s = true ∧ accepts s h1 = true ∧
      after (exec (.frameAdmit h1 [{ slot5 with csn := 6 }] 10) s) (fun t => t.twin.slots.any (fun a => a.csn == 6) && 6 ≤ t.twin.hbCsn) = true ∧
      after (exec (.frameJournal h1 [⟨1, .csnReserve 9, false, false⟩] 10) s) (fun t => t.jrnl.recs.any (fun x => x.jseq == 1 && x.durable) && t.jrnl.nextSeq == 2) = true ∧
      after (exec (.frameState h1 ⟨5, 0, 0, 1, 2, none, none, none, false⟩ 10) s) (fun t => t.twin.slots.any (fun a => a.csn == 5 && a.performed && a.result1 == 2)) = true ∧
      after (exec (.frameState h1 ⟨0, 0, 0, 0, 0, none, none, none, true⟩ 10) (tw .standby known)) (fun t => t.twin.pairRec == none && t.twin.role == .fenced) = true ∧
      after (exec (.frameComplete h1 [⟨5, .a, 3, 0, true, 0⟩] 10) s) (fun t => t.twin.slots == []) = true ∧
      after (exec (.frameDoorbell h1 [⟨.a, 3, true, 7⟩] 10) s) (fun t => t.twin.queues.all (fun x => x.2.cqHead == 7)) = true := by decide +kernel

theorem test_stop_and_hand_over : let r : StopRec := ⟨.powerFail, false, 3, 0, none, 0, none, 0, 0, 0⟩
    (twS .standby).twin.role = .standby ∧ after (exec (.frameStop h1 r 10) (twS .standby)) (fun t => t.twin.peerStop == some r && t.jrnl.stops == [r]) = true ∧
    after (exec (.frameHandOver h1 [(1, 2)] 10) (twS .standby)) (fun t => t.twin.handOverIn && t.twin.handOverSets == [(1, 2)]) = true := by decide +kernel

theorem test_sync_frames : (twS .syncing).twin.role = .syncing ∧
    after (exec (.frameSyncPiece h1 (.lostLbas [⟨1, 3, 1, 0⟩]) 4 10) (twS .syncing)) (fun t => t.twin.capture == 4 && t.map.lost == [⟨1, 3, 1, 0⟩]) = true ∧
    after (exec (.frameSyncEnd h1 8 10) (twS .syncing)) (fun t => t.twin.role == .standby && t.twin.hbCsn == 8) = true := by decide +kernel

/-- A fenced chip that has paired with a partner of its own SERIAL, which owns the medium. -/
def recorded : State := tw .fenced (fun t => { t with peerOwn := true, pairRec := some (Config.serial, 5) })

/-- R397: a partner of the other seat, the same level and hash is not refused; one of the same seat is. -/
theorem test_pair_refusal : let s := recorded; let x := { ownHello s with seat := true }
    accepts s h1 = true ∧ pairRefusal s x = 0 ∧ s.twin.role = .fenced ∧ s.twin.hold = false ∧ s.twin.peerOwn = true ∧ s.twin.pairRec = some (x.serial, 5) ∧
      pairRefusal s (ownHello s) = 9 := by
  have hp : pairProfiles recorded = [] := by decide +kernel
  have hc : choices (List.range (profileCount recorded.kf.imgBytes)) = [[]] := by decide +kernel
  have hm : matchedProfiles recorded = [] := by decide +kernel
  have ha : (agreedProfiles recorded recorded.kf.imgBytes (ownHello recorded).hash).isNone = false := by
    simp [agreedProfiles, hc, hm, ownHello, hp]
  refine ⟨by decide +kernel, ?_, rfl, rfl, rfl, rfl, by simp [pairRefusal]⟩
  simp only [pairRefusal, ha]
  rfl

theorem test_pair_hello : let s := tw .fenced (fun t => { t with peerOwn := true, pairRec := some ([1], 5) })
    s.twin.hold = false ∧ s.twin.peerOwn = true ∧ after (exec (.framePairHello h1 { peerHello with seat := false } 10) s) (fun t => t.twin.pairReject == 9 && t.twin.role == .fenced) = true := by
  decide +kernel

theorem test_pair_key : let s := tw .active (fun t => { t with peer := some peerHello, pairing := some (0, none, some 0) }); let f := tw .fenced (fun t => { t with peer := some peerHello })
    s.twin.pairReject = 0 ∧ accepts s h1 = true ∧ accepts f h1 = true ∧
      after (exec (.framePairKey h1 [9] 10) s) (fun t => t.twin.pairing == some (0, some [9], some 0)) = true ∧
      after (exec (.framePairKey h1 [9] 10) f) (fun t => t.twin.pairing == some (0, some [9], none)) = true := by decide +kernel

theorem test_pair_confirm : let s := tw .fenced (fun t => { t with peer := some peerHello, pairing := some (0, some [9], none) })
    s.twin.pairing = some (0, some [9], none) ∧ s.twin.peer = some peerHello ∧ accepts s h1 = true := by decide +kernel

/-! ### Supervision -/

theorem test_heartbeat_send : twinRuns (twS .active) = true ∧ failedSet (twS .active) = false ∧ after (exec (.heartbeatSend 10) (twS .active)) (fun t => t.twin.hbOut && t.twin.sent != []) = true ∧
    after (exec (.twinHbInEdge 10) (twS .active)) (fun t => t.twin.hbEdge == some 10) = true := by decide +kernel

/-- Both paths silent for 2 ms. -/
def lost2 (r : Role) (f : Twin → Twin) : State := { tw r f with now := 2002000000 }

theorem test_fallbacks : let l := { tw .standby (fun t => { t with lastFrame := some 10, hbEdge := some 500010 }) with now := 600000 }
    let a := { tw .active (fun t => { t with partnerRole := .standby, unacked := [⟨1, .ack 1⟩], ackAt := 0 }) with now := 1000000 }
    linkAlone l = true ∧ after (exec (.standbyLinkFallback 10) l) (fun t => t.twin.role == .fenced && t.twin.slots == []) = true ∧
    a.twin.ackAt + 1000000 ≤ a.now ∧ after (exec (.ackTimeout 10) a) (fun t => t.twin.partnerRole == .fenced && t.twin.unacked == []) = true ∧
    after (exec (.frameResend 10) a) (fun t => t.twin.sent == [⟨1, .ack 1⟩]) = true := by decide +kernel

/-- R385: a fence ends after 1 ms and performs the command that asked for it. -/
theorem test_fence_release : let c := { cmd 0 0x94 [(12, 3)] with mapAsked := true }; let s := { tw .active (fun t => { t with fenceFrom := some 0 }) with now := 1000000, ctxs := [c] }
    0 + 1000000 ≤ s.now ∧ after (exec (.fenceRelease 10) s) (fun t => t.twin.fenceFrom == none && ended t 0 0 0) = true ∧
    after (exec (.fenceRelease 10) { s with now := 999999 }) (fun t => t.twin.fenceFrom == some 0) = true := by decide +kernel

theorem test_link : after (exec (.zynmiLinkTrained 2) (twS .fenced)) (fun t => t.twin.lanes == 2 && t.twin.txSeq == 2 && t.twin.unacked.map (·.fseq) == [1]) = true ∧
    after (exec (.zynmiLinkDown 10 true) (tw .active (fun t => { t with pairing := some (0, none, none) }))) (fun t => t.twin.lanes == 0 && t.twin.pairing == none) = true := by decide +kernel

/-- What a scan of an empty medium finds. -/
def nothing : ImportResult := ⟨[], blk, [], [], [], [], [], [], [], [], 0⟩

/-- R380, R391, R401. -/
theorem test_claim : let s := { tw .fenced (fun t => t) with kf := { on.kf with restartStep := 1 } }; let h := { tw .standby (fun t => { t with handOverIn := true }) with kf := on.kf }
    s.twin.own = false ∧ mayClaim s 1 = true ∧ s.jrnl.stopFrom = none ∧ s.twin.hold = false ∧
      after (exec (.ownershipClaim 10 1 false none []) s) (fun t => t.twin.own && t.twin.role == .active && t.twin.partnerRole == .fenced) = true ∧
      after (exec (.ownershipClaim 10 1 false none []) h) (fun t => t.twin.own && t.twin.role == .active && t.twin.partnerRole == .standby) = true ∧
    (let b := { lost2 .fenced (fun t => { t with seat := true }) with kf := { on.kf with restartStep := 1 } };
      mayClaim b 1000000000 = true ∧ bothQuiet b 2002000000 = true ∧
      after (exec (.ownershipClaim 10 1000000000 true none []) b) (fun t => !t.twin.own && t.twin.role == .fenced) = true ∧
      after (exec (.uncleanTakeOver 10 nothing []) b) (fun t => t.twin.own && t.twin.role == .active && t.twin.fenceFrom.isSome && t.twin.takeOvers == 1) = true) := by decide +kernel

theorem test_partner_loss : let s := lost2 .standby id; let a := lost2 .active (fun t => { t with partnerRole := .standby, own := true })
    bothQuiet s 2000000 = true ∧ bothQuiet a 2000000 = true ∧ failedSet s = false ∧
      after (exec (.partnerLoss 10 [] [] ⟨true, true, [], []⟩ []) s) (fun t => t.twin.own && t.twin.role == .active && t.twin.takeOvers == 1 && !notReady t) = true ∧
      after (exec (.partnerLoss 10 [] [] ⟨true, true, [], []⟩ []) a) (fun t => t.twin.partnerRole == .fenced && t.twin.fenceFrom == some 2002000000) = true := by decide +kernel

/-- A TWIN_CONTROL of an action on an active chip. -/
def tctl (a : Nat) (asked : Bool) : Ctx := { cmd 0 0x94 [(12, a)] with mapAsked := asked }
def tctlS (a : Nat) (asked : Bool) (f : Twin → Twin) : State := withCmd (tw .active (fun t => known (f t))) (tctl a asked)

theorem test_twin_control : actionIn (tctlS 0 false id) 0 0x94 0 = some (tctl 0 false) ∧ actionAllowed (tctlS 0 false id) (tctl 0 false).dw = true ∧
    after (exec (.twinPair 0) (tctlS 0 false id)) (fun t => t.twin.pairing == some (0, none, some 0)) = true ∧
    actionAllowed (tctlS 0 false (fun t => { t with hold := true })) (tctl 0 false).dw = false ∧
    after (exec (.twinPair 0) (tctlS 0 false (fun t => { t with hold := true }))) (fun t => ended t 0x1002 0 0) = true ∧
    actionIn (tctlS 1 false id) 0 0x94 1 = some (tctl 1 false) ∧ actionAllowed (tctlS 1 false id) (tctl 1 false).dw = true ∧
    after (exec (.twinUnpair 0) (tctlS 1 false (fun t => { t with lanes := 0 }))) (fun t => t.twin.pairRec == none && ended t 0 0 0) = true ∧
    after (exec (.twinUnpair 0) (tctlS 1 false id)) (fun t => (ctxOf t 0).any (fun c => c.mapAsked && c.awaitAck == some 1)) = true ∧
    actionIn (tctlS 3 false id) 0 0x94 3 = some (tctl 3 false) ∧ actionAllowed (tctlS 3 false id) (tctl 3 false).dw = true ∧
    after (exec (.twinFencePartner 0 10) (tctlS 3 false id)) (fun t => t.twin.fenceFrom == some 10 && t.twin.partnerRole == .fenced) = true := by decide +kernel

theorem test_hand_over : let s (a : Bool) := tctlS 2 a (fun t => { t with partnerRole := .standby })
    actionIn (s false) 0 0x94 2 = some (tctl 2 false) ∧ actionAllowed (s false) (tctl 2 false).dw = true ∧ actionIn (s true) 0 0x94 2 = some (tctl 2 true) ∧
      (s true).ctxs.all (fun x => x.cid == 0) = true ∧ rowsFinished ((s true).media.opens.foldl (fun t o => padOpenRow t o.seq) (s true)) = true ∧
      after (exec (.twinHandOver 0) (s false)) (fun t => (ctxOf t 0).any (·.mapAsked)) = true ∧
      after (exec (.twinHandOver 0) (s true)) (fun t => t.twin.handOver == some (1, 0)) = true := by decide +kernel

/-! ## Digest -/

/-- A digest command; a context of SHA-256 for port A in slot 4. -/
def dg (op : Nat) (fs : List (Nat × Nat)) : Ctx := cmd 1 op fs
def ctx7 (keyed : Bool) (res : List Byte) : DigCtx := ⟨7, .a, { digFresh 1 keyed with residue := res }, some 4, none, [], 0, none, none, false, 0⟩
def digS (c : Ctx) (ks : List DigCtx) : State := withCmd { on with dig := { on.dig with ctxs := ks } } c

/-- R410: an OPEN takes the lowest free slot; with a key its key block becomes one chunk. -/
theorem test_digest_open : let o := dg 0x10 [(12, 1)]; let k := dg 0x10 [(12, 0x11), (13, 32), (8, 32)]
    ctxIn (digS o []) 0 0x10 = some o ∧ freeSlot (digS o []) = some 0 ∧ chunkOut (digS o []) 0 = false ∧
      after (exec (.digestOpen 0 (.bytes [])) (digS o [])) (fun t => t.dig.ctxs.map (fun k => (k.slot, k.d)) == [(some 0, digFresh 1 false)] && ended t 0 (w32 ((t.dig.ctxs.map (·.id)).headD 0)) 0) = true ∧
    ctxIn (digS k []) 0 0x10 = some k ∧ fetchFits k.dw (.bytes []) = true ∧ bits (eCdw k.dw 0) 4 4 = 1 ∧
      after (exec (.digestOpen 0 (.bytes (zeros (expectedLen (digS k []) k.dw)))) (digS k [])) (fun t => t.dig.ctxs == [] && t.dig.ready == [⟨0, 0, 0, 64⟩]) = true := by decide +kernel

/-- R422: bytes that are no onion are refused with reason 1. -/
theorem test_digest_load_refused : let l := dg 0x15 [(6, 0x1000), (8, 512)]
    ctxIn (digS l []) 0 0x15 = some l ∧ fetchFits l.dw (.bytes (zeros 512)) = true ∧ (zeros 512).length = 512 ∧ judgeOnion (digS l []) (zeros 512) = .inl 1 ∧
      after (exec (.digestLoad 0 (.bytes (zeros 512))) (digS l [])) (fun t => ended t 0 0xFFFFFFFF 1) = true := by decide +kernel

/-- An onion of SHA-256 that names the device wrap key by eight zeros. -/
def onion : List Byte := leBytes 4 0x4F4E494E ++ [1, 1, 0, 0] ++ zeros 504

theorem onion_fields : onion.length = 512 ∧ field onion 7 1 = 0 ∧ field onion 0 4 = 0x4F4E494E ∧ field onion 4 1 = 1 ∧ field onion 6 1 = 0 ∧ field onion 0x14 4 = 0 ∧
    field onion 0x34 12 = 0 ∧ field onion 0x1F0 16 = 0 ∧ field onion 5 1 = 1 ∧ slice onion 8 8 = zeros 8 := by decide +kernel

/-- R422: on a chip whose KEY_REF reads so, an onion that its wrap key opens is accepted with what it holds. The cipher and the hash of the
SERIAL are uninterpreted, so that they are hypotheses here. -/
theorem test_digest_load (s : State) (p : List Byte) (key : keyRef s 0 = zeros 8)
    (opens : Config.gcmOpen Config.deviceWrapKey (slice onion 0x28 12) (onion.take 64) (slice onion 0x40 416) (onionTag onion) = some p) :
    onion.length = 512 ∧ judgeOnion s onion = .inr (plainState onion p) := by
  obtain ⟨len, kind, a, b, c, d, e, f, g, i⟩ := onion_fields
  have good : openOnion s onion = some (plainState onion p) := by simp [openOnion, kind, wrapKey, opens]
  simp [judgeOnion, kind, a, b, c, d, e, f, g, i, wrapKey, good, key, len]

/-- R415, R416. -/
theorem test_digest_final : let k := ctx7 false []; let f (cmp : Nat) := dg 0x13 [(12, 7), (13, cmp * 2 ^ 24), (14, 0x3000)]
    let digest := algDigest 1 (absorb k.d []).chain
    ctxIn (digS (f 0) [k]) 0 0x13 = some (f 0) ∧ plainFetch (.bytes []) = true ∧ namedDig (digS (f 0) [k]) (f 0) = some k ∧ digTurn (digS (f 0) [k]) (f 0) = true ∧ bits (eCdw (f 0).dw 1) 16 0 = 0 ∧
      k.d.residue.length % digBlock k.d.alg = 0 ∧ bits (eCdw (f 0).dw 1) 24 24 = 0 ∧ bits (eCdw (f 1).dw 1) 24 24 = 1 ∧ (zeros 32).length = digLen k.d.alg ∧
      after (exec (.digestFinal 0 (.bytes []) (.bytes [])) (digS (f 0) [k])) (fun t => t.dig.ctxs == [] && ended t 0 32 0 && t.out == [.bytes .a 0x3000 digest]) = true ∧
      after (exec (.digestFinal 0 (.bytes []) (.bytes digest)) (digS (f 1) [k])) (fun t => t.dig.ctxs == [] && ended t 0 0 0) = true ∧
      after (exec (.digestFinal 0 (.bytes []) (.bytes (zeros 32))) (digS (f 1) [k])) (fun t => ended t 0 1 0) = true := by decide +kernel

theorem test_digest_close : let k := ctx7 false []; let c := dg 0x16 [(12, 7)]
    ctxIn (digS c [k]) 0 0x16 = some c ∧ namedDig (digS c [k]) c = some k ∧ after (exec (.digestClose 0) (digS c [k])) (fun t => t.dig.ctxs == [] && ended t 0 0 0) = true := by decide +kernel

/-- R420: 256 contexts, all busy: no slot is free and none can be evicted. -/
def fullDig : List DigCtx := (List.range 256).map (fun n => { ctx7 false [] with id := 100 + n, slot := some n, busy := some 9 })

theorem test_slot_wait : let o := { dg 0x10 [(12, 1)] with waitSlot := true }; let n := { dg 0x11 [(12, 7)] with waitSlot := true }; let p := { ctx7 false [] with slot := none, frame := some 0, tag := [1] }
    ctxOf (digS o []) 0 = some o ∧ o.stage = .admitted ∧ namesContext 0x10 = false ∧ freeSlot (digS o []) = some 0 ∧
      after (exec (.contextSlotWaitEnd 0 (.bytes [])) (digS o [])) (fun t => (ctxOf t 0).any (fun c => c.gotSlot == some 0 && !c.waitSlot)) = true ∧
    namedDig (digS n [p]) n = some p ∧ frameGood p [] = false ∧ freeSlot (digS n [p]) = some 0 ∧
      after (exec (.contextSlotWaitEnd 0 (.bytes [])) (digS n [p])) (fun t => (ctxOf t 0).any (fun c => c.status == 0x5001 && c.result0 == 2)) = true ∧
    (takeSlot (digS o fullDig)).isNone = true ∧ waitOver (digS o fullDig) o = true ∧
      after (exec (.contextSlotWaitEnd 0 (.bytes [])) (digS o fullDig)) (fun t => (ctxOf t 0).any (fun c => c.status == 0x5001 && c.result0 == 1)) = true := by decide +kernel

/-- A frame that carries the parked context's number, bytes fed and tag. -/
theorem test_frame_good : let p := { ctx7 false [] with slot := none, frame := some 0, tag := zeros 16 }
    frameGood p (leBytes 4 0x4F4E494E ++ [1, 1, 2, 0] ++ zeros 8 ++ leBytes 4 7 ++ zeros 492) = true := by decide +kernel

/-! ### Chunks (R417, R418) -/

def feed : Ctx := dg 0x11 [(12, 7), (13, 4), (8, 4)]

theorem test_digest_feed : let k := ctx7 false []; let m := { dg 0x12 [(0, 2 ^ 24), (2, 3), (4, 1), (12, 7)] with units := [⟨1, 3, .got zeroBlk false⟩] }
    let s := withCmd { med .hostFine with dig := { on.dig with ctxs := [k] } } m
    ctxIn (digS feed [k]) 0 0x11 = some feed ∧ fetchFits feed.dw (.bytes [1, 2, 3, 4]) = true ∧ chunkOut (digS feed [k]) 0 = false ∧ 0 < eCdw feed.dw 1 ∧
      after (exec (.digestFeedHost 0 (.bytes [1, 2, 3, 4])) (digS feed [k])) (fun t => (ctxOf t 0).any (fun c => c.stream == [1, 2, 3, 4]) && t.dig.ready == [⟨0, 4, 0, 4⟩]) = true ∧
    ctxIn s 0 0x12 = some m ∧ readVerdict s m = none ∧ 0 < eCount m.dw ∧ Nat.min 65536 (inputLen m) ≤ 4096 * leadingUnits s m ∧
      after (exec (.digestFeedMedium 0) s) (fun t => t.dig.ready == [⟨0, 4, 0, 4096⟩]) = true := by decide +kernel

theorem test_digest_save : let k := ctx7 false [1, 2]; let c := dg 0x14 [(6, 0x1000), (8, 512), (12, 7)]
    ctxIn (digS c [k]) 0 0x14 = some c ∧ judgeList c.dw 512 4 (.entries []) = none ∧
      after (exec (.digestSave 0 (.entries [])) (digS c [k])) (fun t => ended t 0 0 0 && t.dig.ctxs == [{ k with lastCsn := 5 }] && t.dig.wrapNext == 1) = true := by decide +kernel

/-- A chunk in pipe 0 of a command. -/
def pipeS (c : Ctx) (n : Nat) (ks : List DigCtx) : State := let s := digS c ks; { s with dig := { s.dig with pipes := [(0, ⟨0, 4, 0, n⟩)] } }

theorem test_chunk_dispatch : let s : State := { on with dig := { on.dig with ready := [⟨0, 4, 0, 4⟩], pipes := [(0, ⟨1, 5, 0, 4⟩)] } }
    after (exec .digestChunkDispatch s) (fun t => t.dig.ready == [] && t.dig.pipes == [(0, ⟨1, 5, 0, 4⟩), (1, ⟨0, 4, 0, 4⟩)]) = true := by decide +kernel

theorem test_chunk_done : let k := ctx7 false []; let f := { feed with stream := [1, 2, 3, 4] }; let b := { dg 0x11 [(12, 7), (13, 65540), (8, 65540)] with stream := [0] }
    let e := { dg 0x13 [(12, 7), (13, 4), (14, 0x3000)] with stream := [1, 2, 3, 4] }
    (pipeS f 4 [k]).dig.pipes.find? (fun p => p.1 == 0) = some (0, ⟨0, 4, 0, 4⟩) ∧ inputLen f ≤ 0 + 4 ∧ namedDig (pipeS f 4 [k]) f = some k ∧
      after (exec (.digestChunkDone 0) (pipeS f 4 [k])) (fun t => t.dig.pipes == [] && t.dig.ctxs == [{ k with d := absorb k.d [1, 2, 3, 4], lastCsn := 5 }] && ended t 0 4 0) = true ∧
    0 + 65536 < inputLen b ∧ 65536 + Nat.min 65536 4 ≤ stagedLen (pipeS b 65536 [k]) b ∧
      after (exec (.digestChunkDone 0) (pipeS b 65536 [k])) (fun t => t.dig.ready == [⟨0, 4, 0, 4⟩]) = true ∧
      after (exec (.digestChunkDone 0) (pipeS e 4 [k])) (fun t => t.dig.ctxs == [] && t.out == [.bytes .a 0x3000 (algDigest 1 (absorb k.d [1, 2, 3, 4]).chain)]) = true := by decide +kernel

/-- A keyed OPEN whose key block has been absorbed. -/
theorem test_keyed_open : let c := { dg 0x10 [(12, 0x11), (13, 2), (8, 2)] with stream := [1, 2], gotSlot := some 3 }
    inputLen c ≤ 64 ∧ after (exec (.digestChunkDone 0) (pipeS c 64 [])) (fun t => t.dig.ctxs.map (fun x => (x.slot, x.d)) == [(some 3, absorb (digFresh 1 true) (keyBlock 1 0 [1, 2]))]) = true := by
  decide +kernel

/-- The first block of SHA-256 as the standard gives it, of the message "abc". -/
theorem test_sha256 : (algDigest 1 (absorb (digFresh 1 false) ([0x61, 0x62, 0x63, 0x80] ++ zeros 59 ++ [0x18])).chain).take 4 = [0xBA, 0x78, 0x16, 0xBF] := by decide +kernel

/-! ## Pods and mover -/

/-- The part with two units of pod 0 and of pod 1, pods 2 to 4 empty, and no quota. -/
def podS (used : List (Nat × Nat × Nat)) : State :=
  { on with kf := { on.kf with img := { on.kf.img with podUnits := [2, 2, 0, 0, 0], podQuota := [] } }, pods := { on.pods with used := used } }

theorem test_pod_request : podEligible (podS []) 3 (podFor 512) = true ∧ podEligible (podS [(0, 0, 1), (0, 1, 1)]) 3 0 = false ∧
    (podPath 512 true).all (fun k => !podEligible (podS [(0, 0, 1), (0, 1, 1), (1, 0, 1), (1, 1, 1)]) 3 k) = true ∧
    after (exec (.podRequest 3 512 true) (podS [])) (fun t => t.pods.used == [(0, 0, 3)] && t.pods.waiting == []) = true ∧
    after (exec (.podRequest 3 1 true) (podS [(0, 0, 1), (0, 1, 1)])) (fun t => t.pods.used == [(0, 0, 1), (0, 1, 1), (1, 0, 3)]) = true ∧
    after (exec (.podRequest 3 512 true) (podS [(0, 0, 1), (0, 1, 1), (1, 0, 1), (1, 1, 1)])) (fun t => t.pods.waiting == [⟨3, 4, true⟩]) = true := by decide +kernel

theorem test_pod_free : podUsed (podS [(0, 1, 3)]) 0 (512 / podUnit 0) = true ∧ 512 % podUnit 0 = 0 ∧ podUsed (podS [(0, 1, 3)]) 0 0 = false ∧
    after (exec (.podFree 0 512) (podS [(0, 1, 3)])) (fun t => t.pods.used == []) = true ∧
    after (exec (.podFree 0 0) (podS [(0, 1, 3)])) (fun t => t.pods == (podS [(0, 1, 3)]).pods && t.ctr.live.getD 6 0 == 1) = true ∧
    after (exec (.podFree 5 0) (podS [])) (fun t => t.ctr.live.getD 6 0 == 1) = true := by decide +kernel

/-- A descriptor of host memory to host memory, reported; and one that passes no check. -/
def desc (op : Nat) : MoverDesc := ⟨op, false, true, true, 0, 0, 3, 64, 0x1000, 0x2000, 9, true, 77⟩
def badDesc : MoverDesc := { desc 1 with src := 2 }

/-- Channel 2 with a state and descriptors. -/
def chS (st : ChanSt) (ds : List MoverDesc) : State := { on with mover := { on.mover with chans := [{ Chan.idle 2 with st := st, descs := ds }] } }

theorem test_mover_post : (chanOf on 2).st = .idle ∧ (chanOf on 2).descs = [] ∧ (chanOf on 2).waiting = [] ∧ descFault on (desc 1) = none ∧ descFault on badDesc = some (2, false) ∧
    64 ≤ (chanOf (chS .running (List.replicate 64 (desc 1))) 2).descs.length ∧
    after (exec (.moverPost 2 (desc 1)) on) (fun t => (chanOf t 2).st == .running && (chanOf t 2).descs == [desc 1]) = true ∧
    after (exec (.moverPost 2 badDesc) on) (fun t => (chanOf t 2).st == .idle && t.mover.rets == [⟨2, 77, 3, 0, 2, false⟩]) = true ∧
    after (exec (.moverPost 2 (desc 1)) (chS .running (List.replicate 64 (desc 1)))) (fun t => (chanOf t 2).waiting == [desc 1]) = true := by decide +kernel

theorem test_mover_end : (chanOf (chS .running [desc 1]) 2).st = .running ∧ (chanOf (chS .running [desc 1]) 2).waiting = [] ∧ (3 : Nat) ∈ chanGroup 2 ∧
    (chanOf (chS .running [desc 3]) 3).st ≠ .halted ∧
    after (exec (.moverDescriptorEnd 2 .ok) (chS .running [desc 1])) (fun t => (chanOf t 2).st == .idle && t.mover.rets == [⟨2, 77, 0, 0, 0, false⟩]) = true ∧
    after (exec (.moverDescriptorEnd 2 (.differs 63)) (chS .running [desc 3])) (fun t => (chanOf t 2).st == .halted && (chanOf t 2).cause == 6 && (chanOf t 2).addr == 0x103F) = true := by
  decide +kernel

/-- R438: the reads that a pulse releases end at LENGTH. -/
theorem test_req_line : let d := { desc 1 with paced := true, length := 600 }; let s := chS .running [d]
    d.reqLine = 3 ∧ (chanOf s 2).released < d.length ∧ after (exec (.reqLinePulse 3) s) (fun t => (chanOf t 2).released == 512) = true ∧
      after (exec (.reqLinePulse 4) s) (fun t => (chanOf t 2).released == 0) = true := by decide +kernel

theorem test_mover_control : let c (a : Nat) := cmd 0 0x92 [(12, a + 2 * 256)]; let s (a : Nat) := withCmd (chS .halted [desc 1]) (c a)
    actionIn (s 0) 0 0x92 0 = some (c 0) ∧ actionIn (s 1) 0 0x92 1 = some (c 1) ∧ actionIn (s 2) 0 0x92 2 = some (c 2) ∧ (chanOf (s 1) 2).st = .halted ∧
      descFault (s 1) (desc 1) = none ∧
      after (exec (.moverQuery 0) (s 0)) (fun t => ended t 0 1 0 && t.mover == (s 0).mover) = true ∧
      after (exec (.moverResume 0) (s 1)) (fun t => (chanOf t 2).st == .running && ended t 0 0 0) = true ∧
      after (exec (.moverResetChannel 0) (s 2)) (fun t => (chanOf t 2).st == .idle && t.mover.rets == [⟨2, 77, 4, 0, 0, false⟩]) = true := by decide +kernel

/-! ## Keeper flash and firmware -/

/-- The keeper core with its key state, the sideband the same. -/
def keyed (n : Nat) : State := { on with kf := { on.kf with core := { KfReq.reset with key := n }, side := { KfReq.reset with key := n } } }

theorem test_kf_key : after (exec (.kfKeyWrite false 0xA5C3) (keyed 0)) (fun t => t.kf.core.key == 1) = true ∧
    after (exec (.kfKeyWrite false 0x3C5A) (keyed 1)) (fun t => t.kf.core.key == 2 && t.kf.side == (keyed 1).kf.side) = true ∧
    after (exec (.kfKeyWrite true 0xA5C3) (keyed 2)) (fun t => t.kf.side.key == 0 && t.kf.side.flags.getLsbD 4) = true := by decide +kernel

/-- A unit of zeros; a byte of the unit already programmed. -/
def words0 : List Word := List.replicate 64 0
def dirty : State := { keyed 2 with kf := { (keyed 2).kf with mem := [(0x100, 0)] } }

theorem test_kf_program : (keyed 2).kf.porst = false ∧ bankBusy (keyed 2) (inBank1 0x100) = false ∧ words0.length = 64 ∧ kfLockedOut (keyed 2) false 1 0x100 = false ∧
    kfSelf false 1 0x100 (some 0x2000000) = false ∧ notErased (keyed 2) 0x100 (words0.flatMap (fun w => leBytes 4 w.toNat)) = false ∧
    (keyed 2).kf.unverified.contains (sectorOf 0x100) = false ∧ notErased dirty 0x100 (words0.flatMap (fun w => leBytes 4 w.toNat)) = true ∧
    after (exec (.kfProgram false 0x100 words0 (some 0x2000000)) (keyed 2)) (fun t => t.kf.core.running == some (1, 0x100) && t.kf.core.key == 0 && t.kf.mem == []) = true ∧
    after (exec (.kfProgram false 0x100 words0 none) dirty) (fun t => t.kf.core.running == none && t.kf.core.flags.getLsbD 8) = true := by decide +kernel

theorem test_kf_sector_commands : kfLockedOut (keyed 2) false 2 0x20000 = false ∧ kfSelf false 2 0x20000 none = false ∧ recordRegion 0x20000 = false ∧
    after (exec (.kfErase false 0x20000 none) (keyed 2)) (fun t => t.kf.core.running == some (2, 0x20000)) = true ∧
    after (exec (.kfMarginRead true 0x20000) (keyed 2)) (fun t => t.kf.side.running == some (3, 0x20000)) = true ∧
    after (exec (.kfCrcSector false 0x20000) (keyed 2)) (fun t => t.kf.core.running == some (5, 0x20000)) = true ∧
    after (exec (.kfErase true 0x20000 none) (keyed 2)) (fun t => t.kf.side.running == none && t.kf.side.flags.getLsbD 6) = true := by decide +kernel

theorem test_kf_read : after (exec (.kfRead false 0x100) dirty) (fun t => dataWord t.kf.core.data 0 == 0xFFFFFF00 && dataWord t.kf.core.data 1 == 0xFFFFFFFF && t.kf.core.flags.getLsbD 3) = true := by
  decide +kernel

/-- A command running on the keeper core. -/
def flying (cmd addr : Nat) (ws : List (Nat × Word)) : State := { dirty with kf := { dirty.kf with core := { KfReq.reset with running := some (cmd, addr), buffer := ws } } }

theorem test_kf_program_done : memWf (flying 1 0x200 []).kf.mem = true ∧ kfReq (flying 1 0x200 []) false = { KfReq.reset with running := some (1, 0x200), buffer := [] } ∧
    after (exec (.kfCommandDone false 2 true) (flying 1 0x200 ((List.range 64).map (fun n => (n, if n = 1 then 0xFFFF12FF else 0xFFFFFFFF)))))
      (fun t => t.kf.mem == [(0x100, 0), (0x205, 0x12)] && t.kf.core.flags.getLsbD 3 && t.kf.core.pulses == 2) = true ∧
    after (exec (.kfCommandDone false 8 false) (flying 1 0x200 ((List.range 64).map (fun n => (n, 0xFFFFFFFF))))) (fun t => t.kf.core.flags.getLsbD 10 && t.kf.core.pulses == 8) = true := by
  decide +kernel

theorem test_kf_erase_done : after (exec (.kfCommandDone false 0 true) (flying 2 0 [])) (fun t => t.kf.mem == [] && t.kf.unverified == [0]) = true ∧
    after (exec (.kfCommandDone false 0 true) (flying 2 0x10000 [])) (fun t => t.kf.mem == [(0x100, 0)]) = true := by decide +kernel

/-- An empty flash reads 0xFF everywhere, so that no bit of a sector reads 0. -/
theorem memBytes_nil (a n : Nat) : memBytes [] a n = List.replicate n 0xFF := by
  have run : ∀ n a, memRun [] a n = List.replicate n memDefault := by
    intro n
    induction n with
    | zero => intro a; rfl
    | succ n ih => intro a; rw [memRun, ih]; rfl
  exact run n a

theorem zeroBits_blank (n : Nat) : zeroBits (List.replicate n 0xFF) = 0 := by
  induction n with
  | zero => rfl
  | succ n ih => rw [List.replicate_succ]; exact ih

theorem test_margin_clean : zeroBits (memBytes on.kf.mem 0x10000 sectorSize) = 0 := by
  show zeroBits (memBytes [] 0x10000 sectorSize) = 0
  rw [memBytes_nil, zeroBits_blank]

/-- R451: with FAILED set a request takes effect at once; EXIT leaves recovery mode with REQUEST 0. -/
theorem test_recovery : let f : State := { on with cond := 0x0100 }; let r : State := { on with kf := { on.kf with recMode := true } }
    (1#32).getLsbD 0 = true ∧ (2#32).getLsbD 0 = false ∧ (2#32).getLsbD 1 = true ∧ failedSet on = false ∧ failedSet f = true ∧ f.kf.recMode = false ∧
      after (exec (.recoveryRequest 1) on) (fun t => t.kf == { on.kf with recRequest := true }) = true ∧
      after (exec (.recoveryRequest 1) f) (fun t => t.kf.recMode && t.kf.recCause == 1 && !t.portA.ready) = true ∧
      after (exec (.recoveryExit 2) r) (fun t => !t.kf.recRequest && t.ctxs == [] && !t.kf.porst) = true ∧
      after (exec (.recoveryExit 2) on) (fun t => !t.kf.recMode) = true := by decide +kernel

/-- A firmware command of a component mask or number, with its other dwords. -/
def fw (op v block crc : Nat) : Ctx := cmd 0 op [(12, v), (13, block), (14, crc), (6, 0x1000), (8, 65536)]

/-- A session of component 0 on port A with its first block. -/
def fwS (c : Ctx) : State := withCmd { on with kf := { on.kf with sessions := [⟨0, .a, [0]⟩] } } c

theorem notReady_fwS (c : Ctx) : notReady (fwS c) = false := by
  show notReady on = false
  decide +kernel

/-- R458: block 1 of bytes whose CRC agrees is not refused. -/
theorem test_download (bs : List Byte) (n : Nat) (agrees : (crc32c bs).toNat = n) (_small : n < 2 ^ 32) :
    keeperIn (fwS (fw 0x88 0 1 n)) 0 0x88 = some (fw 0x88 0 1 n) ∧ keeperHalted (fwS (fw 0x88 0 1 n)) = false ∧ memWf (fwS (fw 0x88 0 1 n)).kf.mem = true ∧
      fetchFits (fw 0x88 0 1 n).dw (.bytes bs) = true ∧ downloadRefusal (fwS (fw 0x88 0 1 n)) (fw 0x88 0 1 n) bs = none := by
  have e : eCdw (fw 0x88 0 1 n).dw 2 = n := by
    show (w32 (0 + n)).toNat = n
    simp only [w32, BitVec.toNat_ofNat]
    omega
  have a : ctxIn (fwS (fw 0x88 0 1 n)) 0 0x88 = some (fw 0x88 0 1 n) := by rfl
  have b : keeperTurn (fwS (fw 0x88 0 1 n)) (fw 0x88 0 1 n) = true := by rfl
  have l : eList (fw 0x88 0 1 n).dw = false := by
    have d : dword (fw 0x88 0 1 n).dw 0 = 0x88 := by rfl
    show (bits (dword (fw 0x88 0 1 n).dw 0) 8 8 == 1) = false
    rw [d]; rfl
  have c0 : bits (eCdw (fw 0x88 0 1 n).dw 0) 1 0 = 0 := by rfl
  have c1 : bits (eCdw (fw 0x88 0 1 n).dw 1) 7 0 = 1 := by rfl
  refine ⟨by simp [keeperIn, a, b, readyFor, notReady_fwS], by rfl, by rfl, by simp [fetchFits, l], ?_⟩
  unfold downloadRefusal
  simp only [e, agrees, c0, c1]
  simp [fwS, withCmd, compBit, BootRec.none, fw, cmd, on, Kf.reset]

theorem test_download_short : let c := fw 0x88 0 1 0
    after (exec (.fwDownload 0 (.bytes [1])) (fwS c)) (fun t => (ctxOf t 0).any (fun d => d.stage == .ended && d.status != 0) && t.kf == (fwS c).kf) = true := by decide +kernel

/-- A commit of component 0 with a commit pending, or in a trial. -/
def bootS (c : Ctx) (pend trial : BitVec 3) : State := { fwS c with kf := { (fwS c).kf with boot := { BootRec.none with pend := pend, trial := trial } } }

theorem test_commit : keeperIn (bootS (fw 0x89 1 0 0) 1 0) 0 0x89 = some (fw 0x89 1 0 0) ∧ fwComps (fw 0x89 1 0 0) = 1 ∧ comps 1 = [0] ∧
    after (exec (.fwCommit 0) (bootS (fw 0x89 1 0 0) 1 0)) (fun t => ended t 0x1002 0 0 && t.kf == (bootS (fw 0x89 1 0 0) 1 0).kf) = true := by decide +kernel

theorem test_confirm : keeperIn (bootS (fw 0x8A 0 0 0) 0 1) 0 0x8A = some (fw 0x8A 0 0 0) ∧ (bootS (fw 0x8A 0 0 0) 0 1).kf.boot.trial ≠ 0 ∧
    after (exec (.fwConfirm 0) (bootS (fw 0x8A 0 0 0) 0 1)) (fun t => t.kf.boot.trial == 0 && (t.kf.boot.slots.getD 0 ⟨0, 0, 0, 0⟩).st == 3 && t.kf.boot.seq == 1 && ended t 0 0 0) = true := by
  decide +kernel

theorem test_revert : keeperIn (bootS (fw 0x8B 1 0 0) 0 1) 0 0x8B = some (fw 0x8B 1 0 0) ∧ keeperIn (bootS (fw 0x8B 1 0 0) 1 0) 0 0x8B = some (fw 0x8B 1 0 0) ∧
    after (exec (.fwRevert 0) (bootS (fw 0x8B 1 0 0) 0 1)) (fun t => ended t 0 0 0 && t.kf.boot == (bootS (fw 0x8B 1 0 0) 0 1).kf.boot) = true ∧
    after (exec (.fwRevert 0) (bootS (fw 0x8B 1 0 0) 1 0)) (fun t => t.kf.boot.pend == 0 && (t.kf.boot.slots.getD 1 ⟨0, 0, 0, 0⟩).st == 1 && ended t 0 0 0) = true := by decide +kernel

/-! ## Power states, supply, temperature -/

/-- The part with its power unit changed, its medium not in use. -/
def pw (f : Power → Power) : State := { on with power := f on.power }

theorem test_idle_light : let s : State := { pw (fun p => { p with idleFrom := 0 }) with now := 100000 }
    s.jrnl.stopFrom = none ∧ s.kf.porst = false ∧ s.kf.released = true ∧ s.power.entering = none ∧ s.power.st < powerTarget s ∧ powerTarget s = 1 ∧ 1 ≤ powerCap s ∧
      after (exec (.idleTimerExpiry 100000) s) (fun t => t.power.st == 1 && t.power.entering == none) = true := by decide +kernel

theorem test_idle_refused : let s : State := { pw (fun p => { p with limit := 1, ps4Now := true }) with now := 100000 }
    powerTarget s = 4 ∧ powerCap s = 1 ∧ s.power.lastRefused = none ∧
      after (exec (.idleTimerExpiry 100000) s) (fun t => t.power.st == 1 && t.power.refuseValid && t.power.refuseTarget == 4 && !t.power.ps4Now) = true := by
  decide +kernel

theorem test_ps4_now : (0x14#32).getLsbD 4 = true ∧ powerCap { on with power := { on.power with limit := 4, testHold := false } } = 4 ∧
    after (exec (.ps4NowWrite 0x14 0) on) (fun t => t.power.entering == some (4, 1) && t.power.ps4Now && t.power.limit == 4) = true ∧
    after (exec (.ps4NowWrite 0x35 0) on) (fun t => t.power.limit == 4 && t.power.testHold) = true := by decide +kernel

/-- An entry into a state at a step. -/
def entering (target n : Nat) (c : Option Nat) : State := pw (fun p => { p with entering := some (target, n), commitAo := c })

theorem test_deep_entry : (entering 3 2 none).ctxs = [] ∧ mediumInUse (entering 3 2 none) = false ∧ (entering 3 6 none).power.avsPending = none ∧
    after (exec (.psDeepEntry 2 true 0) (entering 3 2 none)) (fun t => t.power.entering == some (3, 3)) = true ∧
    after (exec (.psDeepEntry 6 true 70) (entering 3 6 none)) (fun t => t.power.entering == some (3, 7) && t.power.commitAo == some 70) = true ∧
    after (exec (.psDeepEntry 5 false 0) (entering 4 5 none)) (fun t => t.power.st == 0 && t.power.refuseReason == 5 && t.power.refuseTarget == 4) = true ∧
    (withCmd (entering 3 2 none) wr).ctxs ≠ [] ∧ after (exec (.psDeepEntry 2 true 0) (withCmd (entering 3 2 none) wr)) (fun t => t.power.refuseReason == 0 && t.power.entering == none) = true := by
  decide +kernel

theorem test_deep_entry_parks : after (exec (.psDeepEntry 3 true 0) { entering 4 3 none with media := { on.media with bays := [bay0 .member] } })
    (fun t => t.power.entering == some (4, 4) && t.media.bays.all (fun b => !b.writable && !b.pwrEn && !b.connected)) = true := by decide +kernel

theorem test_domains_off : let s : State := { entering 4 7 (some 70) with ctr := { on.ctr with epoch := 65535, live := on.ctr.live.set 3 9 } }
    s.power.matchLatch = false ∧ levelSource 9 = true ∧
      after (exec (.domainsOff 74 none) s) (fun t => t.power.st == 4 && t.power.domainsOff && t.ctr.epoch == 0 && t.ctr.live.all (· == 0)) = true ∧
      after (exec (.domainsOff 74 (some 9)) s) (fun t => t.power.st == 0 && t.power.wakeFrom == 4 && t.power.wakeSource == 9) = true := by decide +kernel

theorem test_wake : wakesFrom 3 2 = true ∧ wakesFrom 3 3 = false ∧ (pw (fun p => { p with st := 2 })).power.entering = none ∧
    after (exec (.wake 3 0) (pw (fun p => { p with st := 2 }))) (fun t => t.power.st == 0 && t.power.wakeSource == 3 && t.power.wakeFrom == 2) = true ∧
    after (exec (.wake 3 0) (pw (fun p => { p with st := 3 }))) (fun t => t.power.st == 3) = true ∧ (entering 3 4 none).power.commitAo = none := by decide +kernel

theorem test_wake_in_entry : after (exec (.wake 9 0) (entering 3 4 none)) (fun t => t.power.entering == none && t.power.refuseReason == 6) = true ∧
    after (exec (.wake 9 69) (entering 3 7 (some 70))) (fun t => t.power.entering == none && t.power.refuseReason == 6) = true ∧
    after (exec (.wake 9 70) (entering 3 7 (some 70))) (fun t => t.power.entering == some (3, 7)) = true := by decide +kernel

theorem test_maint_wake : let s (h : Nat) : State := { pw (fun p => { p with st := 3 }) with cad := { on.cad with aet := 3600 * h * 65536 } }
    (s 24).power.entryAet + 3600 * (s 24).power.maintWake ≤ aetSec (s 24).cad.aet ∧ (s 24).power.entering = none ∧
      after (exec (.maintWakeTimer 0) (s 24)) (fun t => t.power.st == 0 && t.power.wakeSource == 8) = true ∧
      after (exec (.maintWakeTimer 0) (s 23)) (fun t => t.power.st == 3) = true := by decide +kernel

theorem test_address_match : let s := pw (fun p => { p with st := 4 })
    s.side.wakeOnMatch = true ∧ 0x60 = 0x60 + s.kf.sbAddr.toNat ∧
      after (exec (.sbAddressMatch 0x60) s) (fun t => t.power.st == 0 && t.power.wakeSource == 5 && !t.power.matchLatch) = true ∧
      after (exec (.sbAddressMatch 0x61) s) (fun t => t.power.st == 4) = true := by decide +kernel

theorem test_tap : after (exec (.jtagTapStateChange false) (pw (fun p => { p with st := 1 }))) (fun t => t.power.tapOut && t.power.st == 0 && t.power.wakeSource == 10) = true ∧
    after (exec (.jtagTapStateChange true) on) (fun t => !t.power.tapOut && t.power.st == 0) = true := by decide +kernel

/-- A pending AVSBus raise, its attempts made. -/
def avs (n : Nat) (next : Option Nat) : State :=
  { pw (fun p => { p with avsPending := some (n, true), avsTarget := 750, avsNow := 700, avsNext := next, avsAt := 0 }) with now := 100000 }

theorem test_avs_ack : (avs 1 none).power.avsPending = some (1, true) ∧
    after (exec (.avsAck 100000) (avs 1 none)) (fun t => t.power.avsNow == 750 && t.power.avsPending == none) = true ∧
    after (exec (.avsAck 100000) (avs 1 (some 720))) (fun t => t.power.avsNow == 750 && t.power.avsTarget == 720 && t.power.avsPending == some (1, false)) = true := by
  decide +kernel

theorem test_avs_retry : (avs 4 none).power.avsAt + 100000 ≤ (avs 4 none).now ∧
    after (exec (.avsRetryTimeout 100000) (avs 3 none)) (fun t => t.power.avsPending == some (4, true) && t.power.avsRetries == 1 && !t.power.avsFault) = true ∧
    after (exec (.avsRetryTimeout 100000) (avs 4 none)) (fun t => t.power.avsFault && t.power.avsHold && throttleLevel t == 12) = true ∧
    after (exec (.avsRetryTimeout 10000000) (avs 5 none)) (fun t => t.power.avsPending == some (5, true) && t.power.avsRetries == 1) = true := by decide +kernel

theorem test_avs_fault_ends_entry : let s : State := { avs 4 none with power := { (avs 4 none).power with entering := some (3, 5) } }
    s.power.entering = some (3, 5) ∧ s.power.commitAo = none ∧
      after (exec (.avsRetryTimeout 100000) s) (fun t => t.power.entering == none && t.power.st == 0 && t.power.refuseReason == 5) = true := by decide +kernel

/-- R476, R477: the hottest sensor is reported; 10 C leaves band 0 for band 1 and 70 C enters band 2. -/
theorem test_sensor_band : on.kf.porst = false ∧ on.kf.tripHold = false ∧ on.power.st ≤ 2 ∧
    after (exec (.sensorSample (List.replicate 15 20 ++ [70])) on) (fun t => t.power.maxTemp == 70 && t.power.maxSensor == 15 && t.power.band == 2 && t.power.lt == 0) = true := by decide +kernel

theorem test_band_points : bandFor (pw (fun p => { p with band := 1, maxTemp := 70 })) = 2 ∧ bandFor (pw (fun p => { p with band := 2, maxTemp := 68 })) = 2 ∧
    bandFor (pw (fun p => { p with band := 2, maxTemp := 67 })) = 1 ∧ bandFor (pw (fun p => { p with band := 1, maxTemp := 69 })) = 1 := by decide +kernel

/-- R479 at the throttle point, one degree below it, and where the level reaches its end. -/
theorem test_thermal_level : let s (t : Int) : State := pw (fun p => { p with band := 4, maxTemp := t })
    (settleLevel (s 100)).power.lt = 2 ∧ (settleLevel (s 99)).power.lt = 1 ∧ (settleLevel (s 105)).power.lt = 12 ∧ (settleLevel (s 120)).power.lt = 12 ∧
      (settleLevel on).power.lt = 0 := by decide +kernel

theorem test_trip : let s := pw (fun p => { p with hotRuns := [0, 2] })
    s.kf.porst = false ∧ s.power.tripped = false ∧ s.kf.recMode = false ∧ s.jrnl.stopFrom = none ∧
      after (exec (.thermalTrip false 0) s) (fun t => t.power.tripped && t.power.trips == 1 && faultLow t && t.jrnl.stopFrom.isSome) = true ∧
      after (exec (.thermalTrip false 0) on) (fun t => !t.power.tripped && t.power.trips == 0) = true ∧
      after (exec (.thermalTrip true 0) on) (fun t => t.power.tripped) = true := by decide +kernel

theorem test_power_level : (pw (fun p => { p with lp := 3 })).power.cap = 0 ∧ throttleLevel (pw (fun p => { p with lp := 3, lt := 5 })) = 5 ∧
    throttleLevel (pw (fun p => { p with lt := 5, degraded := true })) = 12 ∧ dieLimit 12 8 = 2 ∧ dieLimit 1 8 = 8 ∧
    after (exec (.powerLevelUpdate 5 5) (pw (fun p => { p with lp := 3 }))) (fun t => t.power.lp == 0) = true := by decide +kernel

/-- R481 at level 12: of two dies of a channel one may be busy; the other starts when it ends, and programs of the SYSTEM stream are free. -/
theorem test_die_limit : let op (d who : Nat) : DieOp := { seqNo := 1, page := { blk with die := d }, who := who, issued := 0, typical := none }
    let s (lt : Nat) : State := let m := med .system
      { m with
        power := { m.power with lt := lt }
        media := { m.media with
          bays := [{ bay0 .member with dies := [0, 1] }]
          dies := [{ DieSt.fresh ⟨0, 0, 0⟩ with sample := some (0, 300), op := some (op 0 8) }, { DieSt.fresh ⟨0, 0, 1⟩ with sample := some (0, 300), queue := [op 1 8] }] } }
    let runs (t : State) (d : Nat) : Bool := ((dieStOf t ⟨0, 0, d⟩).map (fun x => x.op.isSome)).getD false
    runs (startDie (s 12) ⟨0, 0, 1⟩) 1 = false ∧ runs (startDie (s 0) ⟨0, 0, 1⟩) 1 = true ∧
      after (exec (.sequenceEnd ⟨0, 0, 0⟩ [] [] 60 0) (s 12)) (fun t => runs t 1 && !runs t 0) = true ∧
      limitFree (s 12) (op 0 1) = true ∧ limitFree (s 12) (op 0 8) = false := by decide +kernel

/-! ## Counters, Periscope, sideband -/

/-- The part with its counters changed, at a cycle. -/
def ct (f : Ctr → Ctr) : State := { on with ctr := f on.ctr }

theorem test_command_slot : let r : Retire := ⟨2, true, .a⟩; let s := ct (fun c => { c with retire := [r] })
    s.power.st < 2 ∧ s.kf.porst = false ∧ s.ctr.run = true ∧ s.ctr.retire.filter (fun r => judgedPort s r.port) = [r] ∧
      after (exec (.commandSlot 0) s) (fun t => t.ctr.live.getD 1 0 == 1 && t.ctr.live.getD 2 0 == 1 && t.ctr.retire.map (·.units) == [1]) = true ∧
      after (exec (.commandSlot 0) on) (fun t => t.ctr.live.getD 1 0 == 1 && t.ctr.live.getD 4 0 == 1) = true := by decide +kernel

theorem test_command_slot_in_flight : commandInFlight (withCmd on wr) = true ∧ on.ctr.retire = [] ∧
    after (exec (.commandSlot 0) (withCmd on wr)) (fun t => t.ctr.live.getD 5 0 == 1 && t.ctr.live.getD 4 0 == 0) = true := by decide +kernel

theorem test_cnt_clear : let s := ct (fun c => { c with epoch := 65535, live := c.live.set 47 9 })
    (2#32).getLsbD 1 = true ∧ after (exec (.cntClear .portA 2) s) (fun t => t.ctr.epoch == 0 && t.ctr.live.all (· == 0) && !t.ctr.run) = true ∧
      after (exec (.cntClear .portB 9) s) (fun t => t.ctr.live == s.ctr.live && t.ctr.snapOnWindow) = true := by decide +kernel

/-- A snapshot being collected. -/
def snapS (held : Bool) : State := { ct (fun c => { c with collecting := some (c.snap.set 3 7, 44, 2, 32), held := held, snapSeq := 65535 }) with now := 32 }

theorem test_cnt_snap : (4#32).getLsbD 2 = true ∧
    after (exec (.cntSnap .portA 5 10) { on with now := 10 }) (fun t => (t.ctr.collecting.map (·.2.2.2)) == some 42 && t.ctr.run) = true ∧
    after (exec (.cntSnap .portA 5 32) (snapS false)) (fun t => t.ctr.held && t.ctr.collecting == (snapS false).ctr.collecting) = true := by decide +kernel

theorem test_snapshot_ready : (snapS true).ctr.collecting = some ((snapS true).ctr.snap.set 3 7, 44, 2, 32) ∧
    after (exec (.snapshotReady 32) (snapS false)) (fun t => t.ctr.snap.getD 3 0 == 7 && t.ctr.snapAet == 44 && t.ctr.snapBacklog == 2 && t.ctr.snapSeq == 0 &&
      t.ctr.collecting == none) = true ∧
    after (exec (.snapshotReady 32) (snapS true)) (fun t => (t.ctr.collecting.map (·.2.2.2)) == some 65) = true := by decide +kernel

theorem test_mirror_snap : (1#32).getLsbD 0 = true ∧ on.power.domainsOff = false ∧
    after (exec (.mirrorSnapWrite 1 0) on) (fun t => t.ctr.mirrorWait == 1 && t.ctr.collecting.isSome) = true ∧
    after (exec (.mirrorSnapWrite 1 32) (snapS false)) (fun t => t.ctr.mirrorWait == 2) = true := by decide +kernel

theorem test_cnt_sel : let s := ct (fun c => { c with live := (c.live.set 8 5).set 47 6 })
    selAllowed (bits (0x0A : Word).toNat 7 0) (bits (0x70A : Word).toNat 12 8) = true ∧ selAllowed 0x0A 0 = false ∧ selAllowed 0x0B 0x1F = false ∧
      after (exec (.cntSelWrite .portA 47 0x70A) s) (fun t => t.ctr.sel.getD 39 (0, 0) == (0x0A, 7) && t.ctr.live.getD 47 1 == 0 && t.ctr.live.getD 8 0 == 5) = true ∧
      after (exec (.cntSelWrite .portA 8 0x00A) s) (fun t => t == s) = true := by decide +kernel

theorem test_counter_read : let s := ct (fun c => { c with snap := c.snap.set 47 (2 ^ 32 * 3 + 9) })
    after (exec (.counterLowRead .portA true 47) s) (fun t => t.readData == 9 && t.portA.ctrHi == 3) = true ∧
      after (exec (.counterLowRead .sideband true 47) s) (fun t => t.readData == 9 && t.ctr.sideHi == 3) = true ∧
      after (exec (.counterLowRead .portB false 3) s) (fun t => t.free == s.free + 1 && t.ctr.live == s.ctr.live) = true := by decide +kernel

theorem test_psc_head : after (exec (.pscHeadWrite .portB 0x1FFF) on) (fun t => t.ctr.head == 0xFFF && t.ctr.tail == 0) = true := by decide +kernel

theorem test_short_write : let s : State := { on with side := { on.side with misaligned := 255, pec := true } }
    on.kf.porst = false ∧ after (exec (.sbRegisterWriteShort 0x8FE 3 false) s) (fun t => t.side.misaligned == 255 && t.side.shortWrite == 1 && t.side.pecFail == 1) = true ∧
      after (exec (.sbRegisterWriteShort 0x8FC 4 true) s) (fun t => t == s) = true := by decide +kernel

theorem test_dynamic_address : (0x60#7).toNat = 0x60 + on.kf.sbAddr.toNat ∧
    after (exec (.entdaa 9 true) on) (fun t => t.side.dyn == some 9) = true ∧ after (exec (.entdaa 9 false) on) (fun t => t == on) = true ∧
    after (exec (.setdasa 0x60 8) on) (fun t => t.side.dyn == some 8) = true ∧ after (exec (.setdasa 0x61 8) on) (fun t => t == on) = true := by decide +kernel

theorem test_new_address : let s : State := { on with side := { on.side with dyn := some 8 } }
    s.side.dyn = some 8 ∧ after (exec (.setnewda 8 12) s) (fun t => t.side.dyn == some 12) = true ∧ after (exec (.setnewda 9 12) s) (fun t => t == s) = true ∧
      after (exec .rstdaa s) (fun t => t.side.dyn == none) = true := by decide +kernel

theorem test_identity_bytes : after (exec .getpid on) (fun t => t.side.ccc.length == 6) = true ∧ after (exec .getbcr on) (fun t => t.side.ccc.length == 1) = true ∧
    after (exec .getdcr on) (fun t => t.side.ccc.length == 1) = true ∧ after (exec .getstatus on) (fun t => t.side.ccc.length == 2 && t.free == on.free + 1) = true := by
  decide +kernel

theorem test_act_n : let s (u : Nat) : State := { on with side := { on.side with actUntil := some u }, now := 50 }
    anyAdmitted (s 50) = false ∧ after (exec (.actNStretchEnd 50) (s 50)) (fun t => !actLow t) = true ∧ after (exec (.actNStretchEnd 50) (s 51)) (fun t => actLow t && t == s 51) = true := by
  decide +kernel

/-! ## Well-formedness: an ill-formed term of each check -/

theorem test_wf_medium : Madr.wf blk = true ∧ Madr.wf { blk with bay := 16 } = false ∧ Madr.wf { blk with channel := 2 } = false ∧ Madr.wf { blk with die := 32 } = false ∧
    Madr.wf { blk with plane := 8 } = false ∧ Madr.wf { blk with block := 2 ^ 15 } = false ∧ Madr.wf { blk with page := 4096 } = false ∧
    Madr.wf { blk with slot := 4 } = false := by decide +kernel

theorem test_wf_die : DieId.wf ⟨0, 1, 31⟩ = true ∧ DieId.wf ⟨16, 0, 0⟩ = false ∧ DieId.wf ⟨0, 2, 0⟩ = false ∧ DieId.wf ⟨0, 0, 32⟩ = false ∧
    (Instr.maintenanceDraw .patrol ⟨0, 0, 0⟩ 256).wf = false ∧ (Instr.readSuspend ⟨0, 2, 0⟩ 0).wf = false := by decide +kernel

theorem test_wf_ranges : (Instr.read 65536 (.entries [])).wf = false ∧ (Instr.admission .a 16384 (.entries []) false 0).wf = false ∧ (Instr.bayFault 16).wf = false ∧
    (Instr.digestChunkDone 16).wf = false ∧ (Instr.patrolCycleStart 16).wf = false ∧ (Instr.podFree 5 0).wf = false ∧ (Instr.reqLinePulse 64).wf = false ∧
    (Instr.dramChannelLoss 4 []).wf = false ∧ (Instr.tileWriteback 65 0).wf = false := by decide +kernel

theorem test_wf_lists : (ListRead.fault [] 5).wf = false ∧ (ListRead.fault [] 4).wf = true ∧ (HostFetch.fault [] 0 0 0).wf = false ∧ (ListRead.entries (zeros 15)).wf = false ∧
    (Instr.entryFetchFault .a 5 0).wf = false := by decide +kernel

theorem test_wf_registers : wfReg .sideband (.window 65536) = false ∧ wfReg .portA (.window (2 ^ 25)) = false ∧ wfReg .sideband .msixControl = false ∧
    (Instr.registerWrite .portA (.window 0) 0 129).wf = false ∧ (Instr.cntSelWrite .sideband 8 0).wf = false ∧ (Instr.counterLowRead .portA true 48).wf = false := by decide +kernel

theorem test_wf_keeper_and_power : (Instr.kfErase false (2 ^ 26) none).wf = false ∧ (Instr.kfProgram false 0 [] none).wf = false ∧ (Instr.psDeepEntry 7 true 0).wf = false ∧
    (Instr.wake 11 0).wf = false ∧ (Instr.domainsOff 0 (some 0)).wf = false ∧ (Instr.sbAddressMatch 128).wf = false ∧ (Instr.sensorSample []).wf = false ∧
    (Instr.zynmiLinkTrained 3).wf = false ∧ FrameHead.wf ⟨true, 2 ^ 64⟩ = false := by decide +kernel
end Sys2Proof.Tests
end

section
/-! PROOFS. Admission (R27, R101 to R104): what stands in the front entry's context, and in the CSN registers, after it is refused, served or
admitted. -/
namespace Sys2Proof.Proofs
open Sys2Proof Sys2Proof.Machine Sys2Proof.Laws

/-! ## Contexts looked up by number -/

theorem ctxOf_congr {s t : State} (h : t.ctxs = s.ctxs) (cid : Nat) : ctxOf t cid = ctxOf s cid := by
  unfold ctxOf; rw [h]

theorem cid_of_ctxOf {s : State} {cid : Nat} {c : Ctx} (h : ctxOf s cid = some c) : c.cid = cid := by
  simpa using List.find?_some h

/-- A changed context is found under its number, which the change keeps. -/
theorem ctxOf_updCtx {s : State} {cid : Nat} {d : Ctx} (hd : ctxOf s cid = some d) {f : Ctx → Ctx} (hf : ∀ c, c.cid = cid → (f c).cid = cid) :
    ctxOf (updCtx s cid f) cid = some (f d) := by
  have hkey : (fun c : Ctx => c.cid == cid) ∘ (fun c => if c.cid == cid then f c else c) = fun c => c.cid == cid := by
    funext c
    by_cases hc : c.cid = cid <;> simp [hc, hf]
  have hmap : ctxOf (updCtx s cid f) cid = (ctxOf s cid).map (fun c => if c.cid == cid then f c else c) := by
    unfold ctxOf updCtx
    rw [List.find?_map, hkey]
  simp [hmap, hd, cid_of_ctxOf hd]

/-- An entry found first is still found first among those that a filter keeps, where it is one of them. -/
theorem find?_filter_of_kept {α : Type} {keep key : α → Bool} {e : α} (hkeep : keep e = true) :
    ∀ {l : List α}, l.find? key = some e → (l.filter keep).find? key = some e
  | a :: l, h => by
    by_cases ha : key a = true
    · obtain rfl : a = e := by simpa [List.find?_cons, ha] using h
      simp [hkeep, ha]
    · have ih := find?_filter_of_kept hkeep (l := l) (by simpa [List.find?_cons, ha] using h)
      by_cases hk : keep a = true <;> simp [hk, ha, ih]

theorem stage_of_mem_fetchedCtxs {s : State} {p : Port} {q : Nat} {c : Ctx} (h : c ∈ fetchedCtxs s p q) : c.stage = .fetched := by
  simpa using (List.mem_filter.mp h).2

/-! ## Operations that leave every context -/

@[simp] theorem logError_ctxs (s : State) (e : ErrEntry) : (logError s e).ctxs = s.ctxs :=
  ctxs_of_rest (rest_logError (L := [.errSeq, .ports]) rfl s e) rfl

@[simp] theorem freezeDecided_ctxs (s : State) (p : Port) (q : Nat) : (freezeDecided s p q).ctxs = s.ctxs :=
  ctxs_of_rest (rest_freezeDecided (L := [.ports]) rfl s p q) rfl

@[simp] theorem retire_ctxs (s : State) (c : Ctx) (units : Nat) (ok : Bool) : (retire s c units ok).ctxs = s.ctxs :=
  ctxs_of_rest (rest_retire (L := [.ctr]) rfl s c units ok) rfl

@[simp] theorem drawInterval_ctxs (s : State) : (drawInterval s).ctxs = s.ctxs :=
  ctxs_of_rest (rest_drawInterval (L := [.free, .ctr]) rfl s) rfl

@[simp] theorem mirrorFrame_ctxs (s : State) (f : Frame) : (mirrorFrame s f).ctxs = s.ctxs :=
  ctxs_of_rest (rest_mirrorFrame (L := [.twin]) rfl s f) rfl

@[simp] theorem countEvent_ctxs (s : State) (e inst n : Nat) : (countEvent s e inst n).ctxs = s.ctxs :=
  ctxs_of_rest (rest_countEvent (L := [.ctr]) rfl s e inst n) rfl

@[simp] theorem settleFull_ctxs (s : State) : (settleFull s).ctxs = s.ctxs :=
  ctxs_of_rest (rest_settleFull (L := [.media]) rfl s) rfl

/-! ## A fetched entry refused -/

/-- The context of a fetched entry after a decision on it (R124): refused with the verdict's status, its CSN as before. -/
theorem ctxOf_decide_fetched {s : State} {cid : Nat} {d : Ctx} (v : Verdict) (hd : ctxOf s cid = some d) (hst : d.stage = .fetched) :
    ∃ e, ctxOf (decide_ s cid v) cid = some e ∧ e.stage = .refused ∧ e.status = v.status ∧ e.csn = d.csn := by
  simp only [decide_, hd, hst]
  split
  · exact ⟨_, ctxOf_updCtx hd (fun _ h => h), rfl, rfl, rfl⟩
  · exact ⟨_, (ctxOf_congr ((logError_ctxs ..).trans (freezeDecided_ctxs ..)) cid).trans (ctxOf_updCtx hd (fun _ h => h)), rfl, rfl, rfl⟩

theorem ctxOf_refuseEntry {s : State} {cid : Nat} {d : Ctx} (v : Verdict) (hd : ctxOf s cid = some d) (hst : d.stage = .fetched) :
    ∃ e, ctxOf (refuseEntry s cid v) cid = some e ∧ e.stage = .refused ∧ e.status = v.status ∧ e.csn = d.csn := by
  have hretire : ctxOf (refuseEntry s cid v) cid = ctxOf (decide_ s cid v) cid := by
    simp only [refuseEntry, hd]
    exact ctxOf_congr (retire_ctxs ..) cid
  exact hretire ▸ ctxOf_decide_fetched v hd hst

theorem csnNext_refuseEntry (s : State) (cid : Nat) (v : Verdict) : (refuseEntry s cid v).csnNext = s.csnNext :=
  csnNext_of_rest (rest_refuseEntry (L := [.ctxs, .errSeq, .ports, .ctr]) rfl s cid v) rfl

/-! ## A command admitted -/

/-- A context number stands admitted with a CSN. -/
def AdmittedAs (t : State) (cid csn : Nat) : Prop := ∃ e, ctxOf t cid = some e ∧ e.stage = .admitted ∧ e.csn = csn

theorem AdmittedAs.of_ctxs {s t : State} {cid csn : Nat} (h : AdmittedAs s cid csn) (hctxs : t.ctxs = s.ctxs) : AdmittedAs t cid csn := by
  simpa only [AdmittedAs, ctxOf_congr hctxs] using h

/-- A DELETE_QUEUE's own admission discards fetched entries only (R132). -/
theorem AdmittedAs.discardFetched {s : State} {cid csn : Nat} (h : AdmittedAs s cid csn) (p : Port) (q : Nat) :
    AdmittedAs (discardFetched s p q) cid csn := by
  obtain ⟨e, he, hst, hcsn⟩ := h
  exact ⟨e, find?_filter_of_kept (by simp [hst]) he, hst, hcsn⟩

theorem AdmittedAs.admissionEffect {s : State} {cid csn : Nat} (h : AdmittedAs s cid csn) (c : Ctx) :
    AdmittedAs (admissionEffect s c) cid csn := by
  unfold Machine.admissionEffect
  dsimp only
  split
  · exact (h.discardFetched _ _).of_ctxs (updPort_ctxs _ _ _)
  · exact h.of_ctxs (updPort_ctxs _ _ _)
  all_goals exact h.of_ctxs rfl

/-- A sample taken marks the context and leaves its stage and CSN (R492). -/
theorem AdmittedAs.selectSample {s : State} {cid csn : Nat} (h : AdmittedAs s cid csn) (c : Ctx) (hc : c.cid = cid) :
    AdmittedAs (selectSample s c) cid csn := by
  unfold Machine.selectSample
  split
  · exact h
  split
  · exact h.of_ctxs rfl
  · obtain ⟨e, he, hst, hcsn⟩ := h
    have hs : AdmittedAs (updCtx s c.cid (fun c => { c with sampled := true })) cid csn :=
      hc ▸ ⟨_, ctxOf_updCtx (hc ▸ he) (fun _ h => h), hst, hcsn⟩
    exact hs.of_ctxs (drawInterval_ctxs _)

/-- The state in which a command is given its CSN: its block reserved, ACT_N started. -/
def admitFrom (s : State) : State := startAct (reserveBlock s)

/-- The context that an admission makes of a fetched entry (R101, R104). -/
def admittedCtx (s : State) (c : Ctx) : Ctx :=
  { c with
    stage := .admitted, csn := (admitFrom s).csnNext, blockStart := opensBlock s, tAdmit := (admitFrom s).now, units := readUnits c.dw
    staged := if eOpcode c.dw == 0x0A then fillUnits (admitFrom s) c.dw else []
    held := eOpcode c.dw == 0x08 || eOpcode c.dw == 0x0A, promised := promiseOf c.dw
    admitAck := if mirroring (admitFrom s) then some (admitFrom s).twin.txSeq else none }

/-- The next CSN given to a command. -/
def giveCsn (s : State) (c : Ctx) : State :=
  updCtx { admitFrom s with csnNext := (admitFrom s).csnNext + 1, csnIssued := (admitFrom s).csnNext } c.cid (fun _ => admittedCtx s c)

/-- An admission mirrored and counted (R388, R491). -/
def announce (t : State) (c : Ctx) : State :=
  countEvent (mirrorFrame (updJrnl t (fun j => { j with cleanStands := false })) (.admitted [admSlotOf c])) 0x03 (portNum c.port) 1

/-- What follows the CSN of a command: mirror and counter, effect, sample and FULL (R93, R492, R269). -/
def afterCsn (t : State) (c : Ctx) : State := settleFull (selectSample (admissionEffect (announce t c) c) c)

theorem admitCmd_eq (s : State) (c : Ctx) : admitCmd s c = afterCsn (giveCsn s c) (admittedCtx s c) := rfl

theorem rest_admitFrom (s : State) : rest [.csnBlock, .jrnl, .twin, .side] (admitFrom s) = rest [.csnBlock, .jrnl, .twin, .side] s :=
  (rest_startAct (by decide) _).trans (rest_reserveBlock (by decide) s)

theorem rest_afterCsn (t : State) (c : Ctx) :
    rest [.jrnl, .twin, .ctr, .ctxs, .ports, .map, .dig, .free, .media] (afterCsn t c) =
      rest [.jrnl, .twin, .ctr, .ctxs, .ports, .map, .dig, .free, .media] t :=
  calc rest _ (afterCsn t c)
    _ = rest _ (selectSample _ c) := rest_settleFull (by decide) _
    _ = rest _ (admissionEffect _ c) := rest_selectSample (by decide) _ _
    _ = rest _ (announce t c) := rest_admissionEffect (by decide) _ _
    _ = rest _ (mirrorFrame _ _) := rest_countEvent (by decide) _ _ _ _
    _ = rest _ (updJrnl t _) := rest_mirrorFrame (by decide) _ _
    _ = rest _ t := rest_updJrnl (by decide) _ _

theorem AdmittedAs.afterCsn {t : State} {c : Ctx} {csn : Nat} (h : AdmittedAs t c.cid csn) : AdmittedAs (afterCsn t c) c.cid csn := by
  have hannounce : AdmittedAs (announce t c) c.cid csn := h.of_ctxs (by simp [announce])
  exact ((hannounce.admissionEffect c).selectSample c rfl).of_ctxs (settleFull_ctxs _)

theorem admittedAs_giveCsn {s : State} {cid : Nat} {d : Ctx} (hd : ctxOf s cid = some d) : AdmittedAs (giveCsn s d) cid s.csnNext := by
  have hctxs : (admitFrom s).ctxs = s.ctxs := ctxs_of_rest (rest_admitFrom s) rfl
  obtain rfl := cid_of_ctxOf hd
  exact ⟨admittedCtx s d, ctxOf_updCtx ((ctxOf_congr hctxs _).trans hd) (fun _ _ => rfl), rfl, csnNext_of_rest (rest_admitFrom s) rfl⟩

/-- A command admitted takes the next CSN, and CSN_ISSUED becomes it (R101, R104). -/
theorem admitCmd_takes_csn {s : State} {cid : Nat} {d : Ctx} (hd : ctxOf s cid = some d) :
    AdmittedAs (admitCmd s d) cid s.csnNext ∧ (admitCmd s d).csnNext = s.csnNext + 1 ∧ (admitCmd s d).csnIssued = s.csnNext := by
  have hafter := rest_afterCsn (giveCsn s d) (admittedCtx s d)
  have hnext : (admitFrom s).csnNext = s.csnNext := csnNext_of_rest (rest_admitFrom s) rfl
  obtain rfl := cid_of_ctxOf hd
  rw [admitCmd_eq]
  exact ⟨AdmittedAs.afterCsn (admittedAs_giveCsn hd), (csnNext_of_rest hafter rfl).trans (congrArg (· + 1) hnext),
    (csnIssued_of_rest hafter rfl).trans hnext⟩

/-! ## The front entry judged -/

theorem advanceTo_past {s : State} {c : Nat} (hc : c ≤ s.now) : advanceTo s c = s := if_pos hc

section FrontEntry

variable {s : State} {p : Port} {q : Nat} {list : ListRead} {late : Bool} {c : Nat} {k : Queue} {d : Ctx}
  (hc : c ≤ s.now) (hk : queueOf s p q = some k) (hfront : (fetchedCtxs s p q).head? = some d)
  (hact : k.st = .active) (hrun : k.stopped = false) (hdel : k.deleting = none) (hhost : hostStopped s = false)
include hc hk hfront hact hrun hdel hhost

theorem exec_admission_refused {v : Verdict} (hj : judgeEntry s p q d.dw list late = some v) :
    exec (.admission p q list late c) s = .next (refuseEntry s d.cid v) := by
  simp [exec, execAdmission, advanceTo_past hc, hk, hfront, hact, hrun, hdel, hhost, hj]

theorem exec_admission_served (hj : judgeEntry s p q d.dw list late = none) (hs : servedNow s q = true) :
    exec (.admission p q list late c) s = .next (updCtx s d.cid (fun c => { c with stage := .served, tAdmit := s.now })) := by
  simp [exec, execAdmission, advanceTo_past hc, hk, hfront, hact, hrun, hdel, hhost, hj, hs]

theorem exec_admission_admitted (hj : judgeEntry s p q d.dw list late = none) (hs : servedNow s q = false)
    (hopen : opensBlock s = true → mayReserve s = true) :
    exec (.admission p q list late c) s = .next (admitCmd s d) := by
  have hblock : (opensBlock s && !mayReserve s) = false := by
    cases ho : opensBlock s <;> simp [ho, hopen]
  simp [exec, execAdmission, advanceTo_past hc, hk, hfront, hact, hrun, hdel, hhost, hj, hs, hblock]

end FrontEntry

/-- Settles O16: by the three outcomes of the front entry's judgement. -/
theorem admissionAssignsTheNextCsn : Obligations.AdmissionAssignsTheNextCsn := by
  unfold Obligations.AdmissionAssignsTheNextCsn
  intro s p q list late c k d hc hk hfront hd hact hrun hdel hhost
  have hst : d.stage = .fetched := stage_of_mem_fetchedCtxs (List.mem_of_head? hfront)
  refine ⟨fun v hj => ?refused, fun hj hs => ?served, fun hj hs hopen => ?admitted⟩
  case refused =>
    obtain ⟨e, he, hstage, hstatus, hcsn⟩ := ctxOf_refuseEntry v hd hst
    exact ⟨_, e, exec_admission_refused hc hk hfront hact hrun hdel hhost hj, he, hstage, hstatus, hcsn, csnNext_refuseEntry ..⟩
  case served =>
    exact ⟨_, _, exec_admission_served hc hk hfront hact hrun hdel hhost hj hs, ctxOf_updCtx hd (fun _ h => h), rfl, rfl, rfl⟩
  case admitted =>
    obtain ⟨⟨e, he, hstage, hcsn⟩, hnext, hissued⟩ := admitCmd_takes_csn hd
    exact ⟨_, e, exec_admission_admitted hc hk hfront hact hrun hdel hhost hj hs hopen, he, hstage, hcsn, hnext, hissued⟩

end Sys2Proof.Proofs
end

section
/-! PROOFS. Registers of the ports (R14, R83 to R86): reads that answer, clear and latch, and writes. -/
namespace Sys2Proof.Proofs
open Sys2Proof Sys2Proof.Machine Sys2Proof.Laws

/-! ## Register commands that raise nothing -/

theorem quiet_updPort {s : State} (h : quiet s) (p : Port) (f : PortSt → PortSt) : quiet (updPort s p f) :=
  ⟨(updPort_raised s p f).trans h.1, (updPort_condFrom s p f).trans h.2⟩

theorem quiet_answered {s : State} (h : quiet s) (w : Word) : quiet { s with readData := w } := h

theorem readRegister_portReq (s : State) (p : Port) (reg : RegAddr) (bytes : Nat) :
    readRegister s (portReq p) reg bytes = portRead s p reg bytes := by cases p <;> rfl

theorem exec_portRead {s t : State} (p : Port) {reg : RegAddr} {bytes : Nat} (h : portRead s p reg bytes = t) (ht : quiet t) :
    exec (.rcRegisterRead (portReq p) reg bytes) s = .next t := by
  have hsettled : settled (readRegister s (portReq p) reg bytes) = .next t := by rw [readRegister_portReq, h, settled_quiet ht]
  exact hsettled

theorem portRead_window (s : State) (p : Port) (off : Nat) : portRead s p (.window off) 4 = readBar s p off := rfl

theorem exec_barRead {s t : State} (p : Port) {off : Nat} (h : readBar s p off = t) (ht : quiet t) :
    exec (.rcRegisterRead (portReq p) (.window off) 4) s = .next t :=
  exec_portRead p ((portRead_window s p off).trans h) ht

theorem exec_latchedBarRead {s t : State} (p : Port) (h : readBar s p 0x1000008 = t) (ht : quiet t) :
    exec (.latchedPairLowRead (portReq p) 0x1000008) s = .next t := by
  have hoff : latchedLow (portReq p) 0x1000008 = true := by cases p <;> rfl
  simp [exec, execLatchedPairLowRead, hoff, readRegister_portReq, portRead_window, h, settled_quiet ht]

theorem exec_registerWrite_portA {s t : State} {reg : RegAddr} {v : Dword} {bytes : Nat} (hp : s.kf.porst = false)
    (h : portWrite s .a reg v bytes = t) (ht : quiet t) : exec (.registerWrite .portA reg v bytes) s = .next t := by
  simp [exec, execRegisterWrite, hp, h, settled_quiet ht]

/-! ## Reads of BAR0 -/

/-- An aligned read of a register that is no counter and not CSN_ISSUED_LO: answered, then latched and cleared (R14, R85). -/
theorem readBar_register (s : State) (p : Port) {off : Nat} (ha : off % 4 = 0) (hcsn : off ≠ 0x030) (hctr : counterAt off = none) :
    readBar s p off = clearBar (latchBar { s with readData := barValue s p off } p off) p off := by
  simp [readBar, ha, hcsn, hctr]

/-- A read of the counters of bad doorbells answers them and clears them. -/
theorem readBar_errors (s : State) (p : Port) :
    readBar s p 0x03C = updPort { s with readData := pack [((portOf s p).unknownQueue, 0), ((portOf s p).malformed, 16)] } p
      (fun x => { x with unknownQueue := 0, malformed := 0 }) :=
  readBar_register s p rfl (by decide) rfl

/-- A read of the device condition answers the condition that R25 reports and changes nothing else. -/
theorem readBar_condition (s : State) (p : Port) : readBar s p 0x018 = { s with readData := (reportedCond s).setWidth 32 } := by
  have hval : barValue s p 0x018 = (reportedCond s).setWidth 32 := BitVec.ofNat_toNat ..
  rw [readBar_register s p rfl (by decide) rfl, hval]
  rfl

/-- SNAP_AET_LO latches its high half for the port that reads it. -/
theorem readBar_snapAet (s : State) (p : Port) :
    readBar s p 0x1000008 = updPort { s with readData := lo32 s.ctr.snapAet } p (fun x => { x with snapAetHi := hi32 s.ctr.snapAet }) :=
  readBar_register s p rfl (by decide) rfl

/-- A read of another size than 4 bytes in the doorbell range answers zero and is counted (R85). -/
theorem readSized_bells (s : State) (p : Port) {off size : Nat} (hsize : size ≠ 4) (hoff : inBells off = true) :
    readSized s p off size = updPort { s with readData := 0 } p (fun x => { x with malformed := satAdd 0xFFFF x.malformed 1 }) := by
  simp [readSized, hsize, badAccess, hoff, bellIgnored]

/-! ## Writes -/

theorem lo32_toNat (x : Nat) : (lo32 x).toNat = x % 2 ^ 32 := BitVec.toNat_ofNat ..

theorem withLo_lo32 (x v : Nat) : withLo x (lo32 v) = x / 2 ^ 32 * 2 ^ 32 + v % 2 ^ 32 := by rw [withLo, lo32_toNat]

/-- ADMIN_SQ_BASE_LO is written while the port is disabled (R86). -/
theorem barAccess_asqBaseLo (s : State) (p : Port) (v : Dword) (h : (portOf s p).enable = false) :
    barAccess s p 0x020 v 4 = updPort s p (fun x => { x with asqBase := withLo x.asqBase (lo32 v.toNat) }) := by
  simp [barAccess, writeBar, writePort, h]

/-- While the port is enabled ADMIN_SQ_BASE_LO takes no write (R86). -/
theorem barAccess_asqBaseLo_locked (s : State) (p : Port) (v : Dword) (h : (portOf s p).enable = true) : barAccess s p 0x020 v 4 = s := by
  simp [barAccess, writeBar, writePort, h]

/-! ## BAR0 in configuration space (R83, assumption 9) -/

theorem portWrite_bar0 (s : State) (p : Port) (high : Bool) (v : Dword) (size : Nat) (hrel : s.kf.released = true) :
    portWrite s p (.bar0 high) v size = writeBar0 s p high (lo32 v.toNat) := if_pos hrel

theorem portRead_bar0 (s : State) (p : Port) (high : Bool) (size : Nat) (hrel : s.kf.released = true) :
    portRead s p (.bar0 high) size = { s with readData := configValue s p (.bar0 high) } := if_pos hrel

theorem bar0_writeBar0_aligned (s : State) (p : Port) (high : Bool) (v : Word) : (portOf (writeBar0 s p high v) p).bar0 % 2 ^ 25 = 0 := by
  simp [writeBar0]

/-- The low dword of an aligned BAR0 reads as its address bits with the type bits of a 64-bit window. -/
theorem configValue_bar0_low (s : State) (p : Port) (h : (portOf s p).bar0 % 2 ^ 25 = 0) :
    (configValue s p (.bar0 false)).toNat = (portOf s p).bar0 % 2 ^ 32 + 4 := by
  have hdisj : (portOf s p).bar0 % 2 ^ 32 = 2 ^ 3 * ((portOf s p).bar0 % 2 ^ 32 / 2 ^ 3) := by omega
  calc (configValue s p (.bar0 false)).toNat
    _ = (portOf s p).bar0 % 2 ^ 32 ||| 4 := by simp [configValue, BitVec.toNat_or, lo32_toNat]
    _ = (portOf s p).bar0 % 2 ^ 32 + 4 := by
      rw [hdisj]
      exact (Nat.two_pow_add_eq_or_of_lt (by decide) _).symm

theorem portOf_a (s : State) : portOf s .a = s.portA := rfl

/-- An aligned BAR0 of port A, read once the host cluster is released. -/
theorem exec_bar0Read_portA {t : State} (ht : quiet t) (hrel : t.kf.released = true) (h : t.portA.bar0 % 2 ^ 25 = 0) :
    ∃ u, exec (.rcRegisterRead .portA (.bar0 false) 4) t = .next u ∧ u.readData.toNat = t.portA.bar0 % 2 ^ 32 + 4 :=
  ⟨_, exec_portRead .a (portRead_bar0 t .a false 4 hrel) ht, configValue_bar0_low t .a h⟩

/-- Settles O21: each clause by the rule of the register that it reads or writes. -/
theorem portRegistersReadAndWrite : Obligations.PortRegistersReadAndWrite := by
  unfold Obligations.PortRegistersReadAndWrite
  intro s hq
  refine ⟨?csnIssued, ?errors, ?bells, ?bar0, ?condition, ?asqBase, ?asqLocked, ?snapAet⟩
  case csnIssued => exact fun p => ⟨readCsnLo s p, rfl, updPort_readData .., congrArg PortSt.csnHi (portOf_updPort ..), updPort_csnIssued ..⟩
  case errors => exact ⟨_, exec_barRead .a (readBar_errors s .a) (quiet_updPort (quiet_answered hq _) .a _), rfl, rfl, rfl⟩
  case bells => exact ⟨_, exec_portRead .a (readSized_bells s .a (by decide) rfl) (quiet_updPort (quiet_answered hq _) .a _), rfl, rfl, rfl⟩
  case bar0 =>
    intro v hp hrel
    have haligned := bar0_writeBar0_aligned s .a false (lo32 v.toNat)
    rw [portOf_a] at haligned
    have hquiet : quiet (writeBar0 s .a false (lo32 v.toNat)) := quiet_updPort hq .a _
    obtain ⟨u, hread, hvalue⟩ := exec_bar0Read_portA hquiet ((congrArg Kf.released (updPort_kf ..)).trans hrel) haligned
    exact ⟨_, u, exec_registerWrite_portA hp (portWrite_bar0 s .a false v 4 hrel) hquiet, haligned, hread, hvalue⟩
  case condition => exact ⟨_, exec_barRead .b (readBar_condition s .b) hq, rfl, rfl⟩
  case asqBase =>
    intro v hp hoff
    exact ⟨_, exec_registerWrite_portA hp (barAccess_asqBaseLo s .a v hoff) (quiet_updPort hq .a _), withLo_lo32 ..⟩
  case asqLocked => exact fun v hp hon => exec_registerWrite_portA hp (barAccess_asqBaseLo_locked s .a v hon) hq
  case snapAet => exact ⟨_, exec_latchedBarRead .b (readBar_snapAet s .b) (quiet_updPort (quiet_answered hq _) .b _), rfl, rfl⟩

end Sys2Proof.Proofs
end

section
/-! PROOFS. Which parts of the state a command may change (R53): the laws of the commands' meanings, gathered over the dispatch. -/
namespace Sys2Proof.Proofs
open Sys2Proof Sys2Proof.Machine Sys2Proof.Laws

/-- Every command completes, and changes no part of the state but those that `touches` names for it. -/
theorem rest_exec {L : List Part} : ∀ (i : Instr) (s : State), sub (touches i) L = true → ∃ t, exec i s = .next t ∧ rest L t = rest L s
  | .cadTickEdge .., s, h => rest_execCadTickEdge (sub_trans rfl h) _ _ s
  | .flywheelTick, s, h => rest_execFlywheelTick (sub_trans rfl h) s
  | .cadenceLostSet, s, h => rest_execCadenceLostSet (sub_trans rfl h) s
  | .lockTimeout .., s, h => rest_execLockTimeout (sub_trans rfl h) _ s
  | .internalTick, s, h => rest_execInternalTick (sub_trans rfl h) s
  | .aetSetApply .., s, h => rest_execAetSetApply (sub_trans rfl h) _ s
  | .cadControlSourceWrite .., s, h => rest_execCadControlSourceWrite (sub_trans rfl h) _ _ s
  | .cadTpsWrite .., s, h => rest_execCadTpsWrite (sub_trans rfl h) _ s
  | .aetLoRead, s, h => rest_execAetLoRead (sub_trans rfl h) s
  | .windowStart, s, h => rest_execWindowStart (sub_trans rfl h) s
  | .maintenanceDraw .., s, h => rest_execMaintenanceDraw (sub_trans rfl h) _ _ _ s
  | .journalFlush, s, h => rest_execJournalFlush (sub_trans rfl h) s
  | .checkpointStart .., s, h => rest_execCheckpointStart (sub_trans rfl h) _ s
  | .checkpointRootWrite, s, h => rest_execCheckpointRootWrite (sub_trans rfl h) s
  | .configRequest .., s, h => rest_execConfigRequest (sub_trans rfl h) _ s
  | .portEnable .., s, h => rest_execPortEnable (sub_trans rfl h) _ _ s
  | .portDisable .., s, h => rest_execPortDisable (sub_trans rfl h) _ _ s
  | .portShutdown .., s, h => rest_execPortShutdown (sub_trans rfl h) _ _ s
  | .portShutdownDone .., s, h => rest_execPortShutdownDone (sub_trans rfl h) _ s
  | .portDrainDone .., s, h => rest_execPortDrainDone (sub_trans rfl h) _ s
  | .functionLevelReset .., s, h => rest_execFunctionLevelReset (sub_trans rfl h) _ s
  | .perstAssert .., s, h => rest_execPerstAssert (sub_trans rfl h) _ s
  | .perstDeassert .., s, h => rest_execPerstDeassert (sub_trans rfl h) _ s
  | .surpriseDown .., s, h => rest_execSurpriseDown (sub_trans rfl h) _ s
  | .sqTailDoorbell .., s, h => rest_execSqTailDoorbell (sub_trans rfl h) _ _ _ _ _ s
  | .cqHeadDoorbell .., s, h => rest_execCqHeadDoorbell (sub_trans rfl h) _ _ _ _ _ s
  | .submissionFetch .., s, h => rest_execSubmissionFetch (sub_trans rfl h) _ _ _ s
  | .entryFetchFault .., s, h => rest_execEntryFetchFault (sub_trans rfl h) _ _ _ s
  | .admission .., s, h => rest_execAdmission (sub_trans rfl h) _ _ _ _ _ s
  | .completionPost .., s, h => rest_execCompletionPost (sub_trans rfl h) _ _ s
  | .queueRestartDone .., s, h => rest_execQueueRestartDone (sub_trans rfl h) _ _ s
  | .coalesceTimerExpiry .., s, h => rest_execCoalesceTimerExpiry (sub_trans rfl h) _ _ _ s
  | .msixUnmask .., s, h => rest_execMsixUnmask (sub_trans rfl h) _ _ s
  | .eventCtrlWrite .., s, h => rest_execEventCtrlWrite (sub_trans rfl h) _ _ s
  | .csnIssuedLoRead .., s, h => rest_execCsnIssuedLoRead (sub_trans rfl h) _ s
  | .rcRegisterRead .., s, h => rest_execRcRegisterRead (sub_trans rfl h) _ _ _ s
  | .registerWrite .., s, h => rest_execRegisterWrite (sub_trans rfl h) _ _ _ _ s
  | .createQueue .., s, h => rest_execCreateQueue (sub_trans rfl h) _ s
  | .deleteQueue .., s, h => rest_execDeleteQueue (sub_trans rfl h) _ s
  | .restartQueue .., s, h => rest_execRestartQueue (sub_trans rfl h) _ s
  | .ackResumption .., s, h => rest_execAckResumption (sub_trans rfl h) _ s
  | .identify .., s, h => rest_execIdentify (sub_trans rfl h) _ _ s
  | .getLog .., s, h => rest_execGetLog (sub_trans rfl h) _ _ s
  | .getFeature .., s, h => rest_execGetFeature (sub_trans rfl h) _ s
  | .setPowerTimers .., s, h => rest_execSetPowerTimers (sub_trans rfl h) _ s
  | .setCadencePlan .., s, h => rest_execSetCadencePlan (sub_trans rfl h) _ s
  | .setPatrolCycle .., s, h => rest_execSetPatrolCycle (sub_trans rfl h) _ s
  | .setThermalLimits .., s, h => rest_execSetThermalLimits (sub_trans rfl h) _ s
  | .setHostMapRegion .., s, h => rest_execSetHostMapRegion (sub_trans rfl h) _ _ s
  | .setInterruptCoalescing .., s, h => rest_execSetInterruptCoalescing (sub_trans rfl h) _ s
  | .setArbitration .., s, h => rest_execSetArbitration (sub_trans rfl h) _ s
  | .setOnionShelf .., s, h => rest_execSetOnionShelf (sub_trans rfl h) _ s
  | .setEventMask .., s, h => rest_execSetEventMask (sub_trans rfl h) _ s
  | .setJournalInterval .., s, h => rest_execSetJournalInterval (sub_trans rfl h) _ s
  | .setRebuildShare .., s, h => rest_execSetRebuildShare (sub_trans rfl h) _ s
  | .setHorizonMinimum .., s, h => rest_execSetHorizonMinimum (sub_trans rfl h) _ s
  | .setArchiveTime .., s, h => rest_execSetArchiveTime (sub_trans rfl h) _ s
  | .setUserCalibration .., s, h => rest_execSetUserCalibration (sub_trans rfl h) _ s
  | .fwDownload .., s, h => rest_execFwDownload (sub_trans rfl h) _ _ s
  | .fwCommit .., s, h => rest_execFwCommit (sub_trans rfl h) _ s
  | .fwConfirm .., s, h => rest_execFwConfirm (sub_trans rfl h) _ s
  | .fwRevert .., s, h => rest_execFwRevert (sub_trans rfl h) _ s
  | .namespaceCreate .., s, h => rest_execNamespaceCreate (sub_trans rfl h) _ s
  | .namespaceDelete .., s, h => rest_execNamespaceDelete (sub_trans rfl h) _ s
  | .bayCommissionMember .., s, h => rest_execBayCommissionMember (sub_trans rfl h) _ s
  | .bayCommissionSpare .., s, h => rest_execBayCommissionSpare (sub_trans rfl h) _ s
  | .bayEvacuate .., s, h => rest_execBayEvacuate (sub_trans rfl h) _ s
  | .bayCancelEvacuate .., s, h => rest_execBayCancelEvacuate (sub_trans rfl h) _ s
  | .bayRelease .., s, h => rest_execBayRelease (sub_trans rfl h) _ s
  | .bayImport .., s, h => rest_execBayImport (sub_trans rfl h) _ _ s
  | .rebuildStop .., s, h => rest_execRebuildStop (sub_trans rfl h) _ s
  | .rebuildStart .., s, h => rest_execRebuildStart (sub_trans rfl h) _ s
  | .moverQuery .., s, h => rest_execMoverQuery (sub_trans rfl h) _ s
  | .moverResume .., s, h => rest_execMoverResume (sub_trans rfl h) _ s
  | .moverResetChannel .., s, h => rest_execMoverResetChannel (sub_trans rfl h) _ s
  | .patrolPause .., s, h => rest_execPatrolPause (sub_trans rfl h) _ s
  | .patrolResume .., s, h => rest_execPatrolResume (sub_trans rfl h) _ s
  | .patrolRestartCycle .., s, h => rest_execPatrolRestartCycle (sub_trans rfl h) _ s
  | .patrolPauseExpiry .., s, h => rest_execPatrolPauseExpiry (sub_trans rfl h) _ s
  | .twinPair .., s, h => rest_execTwinPair (sub_trans rfl h) _ s
  | .twinUnpair .., s, h => rest_execTwinUnpair (sub_trans rfl h) _ s
  | .twinHandOver .., s, h => rest_execTwinHandOver (sub_trans rfl h) _ s
  | .twinFencePartner .., s, h => rest_execTwinFencePartner (sub_trans rfl h) _ _ s
  | .write .., s, h => rest_execWrite (sub_trans rfl h) _ _ s
  | .read .., s, h => rest_execRead (sub_trans rfl h) _ _ s
  | .verify .., s, h => rest_execVerify (sub_trans rfl h) _ s
  | .compare .., s, h => rest_execCompare (sub_trans rfl h) _ _ s
  | .deallocate .., s, h => rest_execDeallocate (sub_trans rfl h) _ s
  | .fill .., s, h => rest_execFill (sub_trans rfl h) _ s
  | .copy .., s, h => rest_execCopy (sub_trans rfl h) _ s
  | .digestOpen .., s, h => rest_execDigestOpen (sub_trans rfl h) _ _ s
  | .digestFeedHost .., s, h => rest_execDigestFeedHost (sub_trans rfl h) _ _ s
  | .digestFeedMedium .., s, h => rest_execDigestFeedMedium (sub_trans rfl h) _ s
  | .digestFinal .., s, h => rest_execDigestFinal (sub_trans rfl h) _ _ _ s
  | .digestSave .., s, h => rest_execDigestSave (sub_trans rfl h) _ _ s
  | .digestLoad .., s, h => rest_execDigestLoad (sub_trans rfl h) _ _ s
  | .digestClose .., s, h => rest_execDigestClose (sub_trans rfl h) _ s
  | .contextSlotWaitEnd .., s, h => rest_execContextSlotWaitEnd (sub_trans rfl h) _ _ s
  | .digestChunkDispatch, s, h => rest_execDigestChunkDispatch (sub_trans rfl h) s
  | .digestChunkDone .., s, h => rest_execDigestChunkDone (sub_trans rfl h) _ s
  | .writeHeld .., s, h => rest_execWriteHeld (sub_trans rfl h) _ _ s
  | .pageProgramTimeout .., s, h => rest_execPageProgramTimeout (sub_trans rfl h) _ _ s
  | .rowPadTimeout .., s, h => rest_execRowPadTimeout (sub_trans rfl h) _ _ s
  | .setOpen .., s, h => rest_execSetOpen (sub_trans rfl h) _ s
  | .sequenceEnd .., s, h => rest_execSequenceEnd (sub_trans rfl h) _ _ _ _ _ s
  | .readSuspend .., s, h => rest_execReadSuspend (sub_trans rfl h) _ _ s
  | .verifyReadDone .., s, h => rest_execVerifyReadDone (sub_trans rfl h) _ _ _ s
  | .writeCommit .., s, h => rest_execWriteCommit (sub_trans rfl h) _ s
  | .mapUpdate, s, h => rest_execMapUpdate (sub_trans rfl h) s
  | .mapLookup .., s, h => rest_execMapLookup (sub_trans rfl h) _ _ s
  | .tileWriteback .., s, h => rest_execTileWriteback (sub_trans rfl h) _ _ s
  | .mediumReadIssue .., s, h => rest_execMediumReadIssue (sub_trans rfl h) _ _ s
  | .decodeDone .., s, h => rest_execDecodeDone (sub_trans rfl h) _ _ _ s
  | .thermalClockMinute .., s, h => rest_execThermalClockMinute (sub_trans rfl h) _ s
  | .hourlyModelUpdate, s, h => rest_execHourlyModelUpdate (sub_trans rfl h) s
  | .aetWaitTimeout .., s, h => rest_execAetWaitTimeout (sub_trans rfl h) _ s
  | .patrolCycleStart .., s, h => rest_execPatrolCycleStart (sub_trans rfl h) _ s
  | .reclaimStart .., s, h => rest_execReclaimStart (sub_trans rfl h) _ s
  | .reserveReclaimStart .., s, h => rest_execReserveReclaimStart (sub_trans rfl h) _ s
  | .refreshClaim, s, h => rest_execRefreshClaim (sub_trans rfl h) s
  | .blockClaimRequest .., s, h => rest_execBlockClaimRequest (sub_trans rfl h) _ _ s
  | .preemptHandoff .., s, h => rest_execPreemptHandoff (sub_trans rfl h) _ s
  | .blockRelease .., s, h => rest_execBlockRelease (sub_trans rfl h) _ s
  | .blockErase .., s, h => rest_execBlockErase (sub_trans rfl h) _ s
  | .stripeJournalRecord, s, h => rest_execStripeJournalRecord (sub_trans rfl h) s
  | .descriptorRewrite .., s, h => rest_execDescriptorRewrite (sub_trans rfl h) _ _ s
  | .memberFailure .., s, h => rest_execMemberFailure (sub_trans rfl h) _ _ s
  | .rebuildRow, s, h => rest_execRebuildRow (sub_trans rfl h) s
  | .bayPresenceAccepted .., s, h => rest_execBayPresenceAccepted (sub_trans rfl h) _ _ s
  | .bayRemoval .., s, h => rest_execBayRemoval (sub_trans rfl h) _ s
  | .bayFault .., s, h => rest_execBayFault (sub_trans rfl h) _ s
  | .commissioningDone .., s, h => rest_execCommissioningDone (sub_trans rfl h) _ _ s
  | .evacuationSetMove, s, h => rest_execEvacuationSetMove (sub_trans rfl h) s
  | .evacuationDone .., s, h => rest_execEvacuationDone (sub_trans rfl h) _ s
  | .importDone .., s, h => rest_execImportDone (sub_trans rfl h) _ s
  | .pwrfailFall .., s, h => rest_execPwrfailFall (sub_trans rfl h) _ s
  | .holdupComplete, s, h => rest_execHoldupComplete (sub_trans rfl h) s
  | .porstAssert .., s, h => rest_execPorstAssert (sub_trans rfl h) _ s
  | .porstRelease .., s, h => rest_execPorstRelease (sub_trans rfl h) _ _ s
  | .restartComplete .., s, h => rest_execRestartComplete (sub_trans rfl h) _ _ s
  | .failedSet .., s, h => rest_execFailedSet (sub_trans rfl h) _ s
  | .dramChannelLoss .., s, h => rest_execDramChannelLoss (sub_trans rfl h) _ _ s
  | .ownershipClaim .., s, h => rest_execOwnershipClaim (sub_trans rfl h) _ _ _ _ _ s
  | .heartbeatSend .., s, h => rest_execHeartbeatSend (sub_trans rfl h) _ s
  | .partnerLoss .., s, h => rest_execPartnerLoss (sub_trans rfl h) _ _ _ _ _ s
  | .uncleanTakeOver .., s, h => rest_execUncleanTakeOver (sub_trans rfl h) _ _ _ s
  | .standbyLinkFallback .., s, h => rest_execStandbyLinkFallback (sub_trans rfl h) _ s
  | .ackTimeout .., s, h => rest_execAckTimeout (sub_trans rfl h) _ s
  | .fenceRelease .., s, h => rest_execFenceRelease (sub_trans rfl h) _ s
  | .frameResend .., s, h => rest_execFrameResend (sub_trans rfl h) _ s
  | .zynmiLinkTrained .., s, h => rest_execZynmiLinkTrained (sub_trans rfl h) _ s
  | .zynmiLinkDown .., s, h => rest_execZynmiLinkDown (sub_trans rfl h) _ _ s
  | .frameHeartbeat .., s, h => rest_execFrameHeartbeat (sub_trans rfl h) _ _ _ _ _ _ _ _ s
  | .frameAck .., s, h => rest_execFrameAck (sub_trans rfl h) _ _ _ s
  | .frameAdmit .., s, h => rest_execFrameAdmit (sub_trans rfl h) _ _ _ s
  | .frameJournal .., s, h => rest_execFrameJournal (sub_trans rfl h) _ _ _ s
  | .frameState .., s, h => rest_execFrameState (sub_trans rfl h) _ _ _ s
  | .frameComplete .., s, h => rest_execFrameComplete (sub_trans rfl h) _ _ _ s
  | .frameDoorbell .., s, h => rest_execFrameDoorbell (sub_trans rfl h) _ _ _ s
  | .frameFrontier .., s, h => rest_execFrameFrontier (sub_trans rfl h) _ _ _ s
  | .frameStop .., s, h => rest_execFrameStop (sub_trans rfl h) _ _ _ s
  | .frameFailing .., s, h => rest_execFrameFailing (sub_trans rfl h) _ _ _ s
  | .frameHandOver .., s, h => rest_execFrameHandOver (sub_trans rfl h) _ _ _ s
  | .frameSyncPiece .., s, h => rest_execFrameSyncPiece (sub_trans rfl h) _ _ _ _ s
  | .frameSyncEnd .., s, h => rest_execFrameSyncEnd (sub_trans rfl h) _ _ _ s
  | .framePairHello .., s, h => rest_execFramePairHello (sub_trans rfl h) _ _ _ s
  | .framePairKey .., s, h => rest_execFramePairKey (sub_trans rfl h) _ _ _ s
  | .framePairConfirm .., s, h => rest_execFramePairConfirm (sub_trans rfl h) _ _ _ s
  | .podRequest .., s, h => rest_execPodRequest (sub_trans rfl h) _ _ _ s
  | .podFree .., s, h => rest_execPodFree (sub_trans rfl h) _ _ s
  | .moverPost .., s, h => rest_execMoverPost (sub_trans rfl h) _ _ s
  | .moverDescriptorEnd .., s, h => rest_execMoverDescriptorEnd (sub_trans rfl h) _ _ s
  | .reqLinePulse .., s, h => rest_execReqLinePulse (sub_trans rfl h) _ s
  | .kfKeyWrite .., s, h => rest_execKfKeyWrite (sub_trans rfl h) _ _ s
  | .kfProgram .., s, h => rest_execKfProgram (sub_trans rfl h) _ _ _ _ s
  | .kfErase .., s, h => rest_execKfErase (sub_trans rfl h) _ _ _ s
  | .kfMarginRead .., s, h => rest_execKfMarginRead (sub_trans rfl h) _ _ s
  | .kfRead .., s, h => rest_execKfRead (sub_trans rfl h) _ _ s
  | .kfCrcSector .., s, h => rest_execKfCrcSector (sub_trans rfl h) _ _ s
  | .kfCommandDone .., s, h => rest_execKfCommandDone (sub_trans rfl h) _ _ _ s
  | .recoveryRequest .., s, h => rest_execRecoveryRequest (sub_trans rfl h) _ s
  | .recoveryExit .., s, h => rest_execRecoveryExit (sub_trans rfl h) _ s
  | .idleTimerExpiry .., s, h => rest_execIdleTimerExpiry (sub_trans rfl h) _ s
  | .ps4NowWrite .., s, h => rest_execPs4NowWrite (sub_trans rfl h) _ _ s
  | .psDeepEntry .., s, h => rest_execPsDeepEntry (sub_trans rfl h) _ _ _ s
  | .domainsOff .., s, h => rest_execDomainsOff (sub_trans rfl h) _ _ s
  | .wake .., s, h => rest_execWake (sub_trans rfl h) _ _ s
  | .maintWakeTimer .., s, h => rest_execMaintWakeTimer (sub_trans rfl h) _ s
  | .sbAddressMatch .., s, h => rest_execSbAddressMatch (sub_trans rfl h) _ s
  | .avsAck .., s, h => rest_execAvsAck (sub_trans rfl h) _ s
  | .avsRetryTimeout .., s, h => rest_execAvsRetryTimeout (sub_trans rfl h) _ s
  | .powerLevelUpdate .., s, h => rest_execPowerLevelUpdate (sub_trans rfl h) _ _ s
  | .sensorSample .., s, h => rest_execSensorSample (sub_trans rfl h) _ s
  | .thermalTrip .., s, h => rest_execThermalTrip (sub_trans rfl h) _ _ s
  | .commandSlot .., s, h => rest_execCommandSlot (sub_trans rfl h) _ s
  | .cntClear .., s, h => rest_execCntClear (sub_trans rfl h) _ _ s
  | .cntSnap .., s, h => rest_execCntSnap (sub_trans rfl h) _ _ _ s
  | .snapshotReady .., s, h => rest_execSnapshotReady (sub_trans rfl h) _ s
  | .mirrorSnapWrite .., s, h => rest_execMirrorSnapWrite (sub_trans rfl h) _ _ s
  | .cntSelWrite .., s, h => rest_execCntSelWrite (sub_trans rfl h) _ _ _ s
  | .counterLowRead .., s, h => rest_execCounterLowRead (sub_trans rfl h) _ _ _ s
  | .pscHeadWrite .., s, h => rest_execPscHeadWrite (sub_trans rfl h) _ _ s
  | .sbRegisterWriteShort .., s, h => rest_execSbRegisterWriteShort (sub_trans rfl h) _ _ _ s
  | .rstdaa, s, h => rest_execRstdaa (sub_trans rfl h) s
  | .entdaa .., s, h => rest_execEntdaa (sub_trans rfl h) _ _ s
  | .setdasa .., s, h => rest_execSetdasa (sub_trans rfl h) _ _ s
  | .setnewda .., s, h => rest_execSetnewda (sub_trans rfl h) _ _ s
  | .getpid, s, h => rest_execGetpid (sub_trans rfl h) s
  | .getbcr, s, h => rest_execGetbcr (sub_trans rfl h) s
  | .getdcr, s, h => rest_execGetdcr (sub_trans rfl h) s
  | .getstatus, s, h => rest_execGetstatus (sub_trans rfl h) s
  | .pwrfailRise .., s, h => rest_execPwrfailRise (sub_trans rfl h) _ s
  | .pcieLinkUp .., s, h => rest_execPcieLinkUp (sub_trans rfl h) _ s
  | .twinHbInEdge .., s, h => rest_execTwinHbInEdge (sub_trans rfl h) _ s
  | .alwaysOnPowerUp, s, h => rest_execAlwaysOnPowerUp (sub_trans rfl h) s
  | .actNStretchEnd .., s, h => rest_execActNStretchEnd (sub_trans rfl h) _ s
  | .jtagTapStateChange .., s, h => rest_execJtagTapStateChange (sub_trans rfl h) _ s
  | .latchedPairLowRead .., s, h => rest_execLatchedPairLowRead (sub_trans rfl h) _ _ s

end Sys2Proof.Proofs
end

section
/-! PROOFS. Condition flags and their events (R25, R26, R178): what a change of flags leaves in the word, what the end of a cycle sends for it, and that no
command leaves anything to be sent after it. -/
namespace Sys2Proof.Proofs
open Sys2Proof Sys2Proof.Machine Sys2Proof.Laws

/-! ## Flags of the condition word (R26) -/

theorem flag_withFlag_false (c : Half) (n m : Nat) : flag (withFlag c n false) m = (flag c m && m != n) := by
  have hword : withFlag c n false = c &&& ~~~BitVec.twoPow 16 n := rfl
  rw [hword, flag, flag, BitVec.getLsbD_and, BitVec.getLsbD_not, BitVec.getLsbD_twoPow]
  by_cases hm : m < 16
  · by_cases h : m = n
    · simp [← h, hm]
    · simp [h, Ne.symm h, hm]
  · simp [hm, BitVec.getLsbD_of_ge c m (by omega)]

theorem nextCond_of_failed {old : Half} (h : flag old bFailed = true) (en : Bool) (new : Half) : nextCond en old new = old := by
  simp [nextCond, h]

/-- Of a changed word, REBUILDING stays only with DEGRADED, and TWIN_SOLO only on a chip strapped for a twin (R26). -/
theorem flag_nextCond {old : Half} (h : flag old bFailed = false) (en : Bool) (new : Half) (m : Nat) :
    flag (nextCond en old new) m = (flag new m && (flag new bDegraded || m != bRebuilding) && (en || m != bTwinSolo)) := by
  cases hd : flag new bDegraded <;> cases en <;> simp [nextCond, h, hd, flag_withFlag_false]

/-- Before FAILED, a change of flags leaves a word that R26 allows. -/
theorem flags_setFlags {s : State} (h : flag s.cond bFailed = false) (fs : List (Nat × Bool)) :
    (flag (setFlags s fs).cond bRebuilding = true → flag (setFlags s fs).cond bDegraded = true) ∧
    (s.twin.en = false → flag (setFlags s fs).cond bTwinSolo = false) := by
  have hcond : (setFlags s fs).cond = nextCond s.twin.en s.cond (withFlags s.cond fs) := rfl
  simp only [hcond, flag_nextCond h]
  constructor
  · simp +contextual [bDegraded, bRebuilding, bTwinSolo]
  · simp +contextual

/-! ## Events sent at the end of a cycle (R25, R178) -/

/-- The event that a raised one becomes as it is sent. -/
def sentEvent (s : State) (r : Raised) : Event :=
  { seq := s.evSeq, aet := r.aet, kind := r.kind, code := r.code, param0 := r.param0, param1 := r.param1, cond := reportedCond s }

/-- An event numbered and kept in the history. -/
def keepEvent (s : State) (r : Raised) : State :=
  { s with evSeq := s.evSeq + 1, evHist := (sentEvent s r :: s.evHist).take 16384 }

/-- What follows in the rings of the ports leaves the event as it was kept. -/
theorem rest_sendEvent_keepEvent (s : State) (r : Raised) : rest [.out, .ports] (sendEvent s r) = rest [.out, .ports] (keepEvent s r) := by
  simp only [sendEvent]
  split
  · exact rest_eventToRing (by decide) ..
  · exact (rest_eventToRing (by decide) ..).trans (rest_eventToRing (by decide) ..)

theorem evSeq_sendEvent (s : State) (r : Raised) : (sendEvent s r).evSeq = s.evSeq + 1 :=
  evSeq_of_rest (rest_sendEvent_keepEvent s r) rfl

theorem evHist_sendEvent (s : State) (r : Raised) : (sendEvent s r).evHist = (sentEvent s r :: s.evHist).take 16384 :=
  evHist_of_rest (rest_sendEvent_keepEvent s r) rfl

theorem reportedCond_sendEvent (s : State) (r : Raised) : reportedCond (sendEvent s r) = reportedCond s := by
  have h := rest_sendEvent_keepEvent s r
  simp only [reportedCond, twin_of_rest h rfl, cond_of_rest h rfl, keepEvent]

theorem evSeq_foldl_sendEvent (l : List Raised) (s : State) : (l.foldl sendEvent s).evSeq = s.evSeq + l.length := by
  induction l generalizing s with
  | nil => rfl
  | cons r l ih => rw [List.foldl_cons, ih, evSeq_sendEvent, List.length_cons]; omega

theorem reportedCond_foldl_sendEvent (l : List Raised) (s : State) : reportedCond (l.foldl sendEvent s) = reportedCond s := by
  induction l generalizing s with
  | nil => rfl
  | cons r l ih => rw [List.foldl_cons, ih, reportedCond_sendEvent]

/-- One of the latest `k` events is still kept after further ones, while the history has room for them all. -/
theorem mem_evHist_of_recent {e : Event} (l : List Raised) (s : State) (k : Nat) (he : e ∈ s.evHist.take k) (hk : k + l.length ≤ 16384) :
    e ∈ (l.foldl sendEvent s).evHist := by
  induction l generalizing s k with
  | nil => exact List.mem_of_mem_take he
  | cons r l ih =>
    rw [List.length_cons] at hk
    refine ih (sendEvent s r) (k + 1) ?_ (by omega)
    rw [evHist_sendEvent, List.take_take, Nat.min_eq_left (by omega), List.take_succ_cons]
    exact List.mem_cons_of_mem _ he

/-- Each of the events sent at the end of a cycle stands in the history, with the condition word as it is reported then. -/
theorem exists_sentEvent {r : Raised} (l : List Raised) (s : State) (hr : r ∈ l) (hl : l.length ≤ 16384) :
    ∃ u, reportedCond u = reportedCond s ∧ sentEvent u r ∈ (l.foldl sendEvent s).evHist := by
  induction l generalizing s with
  | nil => cases hr
  | cons a l ih =>
    rw [List.length_cons] at hl
    cases hr with
    | head =>
      refine ⟨s, rfl, mem_evHist_of_recent l (sendEvent s r) 1 ?_ (by omega)⟩
      simp [evHist_sendEvent]
    | tail _ hr =>
      obtain ⟨u, hu, hmem⟩ := ih (sendEvent s a) hr (by omega)
      exact ⟨u, hu.trans (reportedCond_sendEvent s a), hmem⟩

/-! ## The CONDITION events of a cycle (R25) -/

/-- The CONDITION event of one flag, as it is raised. -/
def flagChange (s : State) (old : Half) (n : Nat) : Raised :=
  { aet := s.cad.aet, kind := 0, code := n, param0 := old.toNat, param1 := s.cond.toNat, only := none }

/-- The end of a cycle that raised nothing but changes of flags. -/
theorem endCycle_of_flags {s : State} {old : Half} (hr : s.raised = []) (hc : s.condFrom = some old) :
    endCycle s = ((changedFlags old s.cond).map (flagChange s old)).foldl sendEvent { s with raised := [], condFrom := none } := by
  have hevents : condEvents s = (changedFlags old s.cond).map (flagChange s old) := by simp only [condEvents, hc]; rfl
  rw [endCycle, hevents, hr, List.append_nil]

theorem length_changedFlags_le (old new : Half) : (changedFlags old new).length ≤ 9 :=
  List.length_filter_le ..

/-- At the end of a cycle that changed flags only, each flag that differs has its event, and there are no others (R25, R178). -/
theorem endCycle_reports_flags {s : State} {old : Half} (hr : s.raised = []) (hc : s.condFrom = some old) :
    (endCycle s).evSeq = s.evSeq + (changedFlags old s.cond).length ∧
    ∀ n ∈ changedFlags old s.cond, ∃ e ∈ (endCycle s).evHist, e.kind = 0 ∧ e.code = n ∧ e.param0 = old.toNat ∧ e.param1 = s.cond.toNat ∧
      e.cond = reportedCond (endCycle s) := by
  rw [endCycle_of_flags hr hc]
  refine ⟨by rw [evSeq_foldl_sendEvent, List.length_map], fun n hn => ?_⟩
  have hroom : ((changedFlags old s.cond).map (flagChange s old)).length ≤ 16384 := by
    have := length_changedFlags_le old s.cond
    rw [List.length_map]; omega
  obtain ⟨u, hu, hmem⟩ := exists_sentEvent _ { s with raised := [], condFrom := none } (List.mem_map_of_mem hn) hroom
  exact ⟨_, hmem, rfl, rfl, rfl, rfl, hu.trans (reportedCond_foldl_sendEvent ..).symm⟩

/-- The word at the start of a quiet state's cycle is kept over the changes of flags that follow. -/
theorem condFrom_setFlags_setFlags {s : State} (h : s.condFrom = none) (fs gs : List (Nat × Bool)) :
    (setFlags (setFlags s fs) gs).condFrom = some s.cond := by
  simp [setFlags, h]

/-! ## Commands leave nothing to be sent (assumption 44) -/

/-- If an outcome is a next state, nothing waits in it to be sent. -/
def EndsQuiet (o : Host.Outcome State Fault Refusal) : Prop := ∀ t, o = .next t → quiet t

theorem endsQuiet_next {t : State} (h : quiet t) : EndsQuiet (.next t) := by
  rintro _ ⟨⟩
  exact h

theorem endsQuiet_settled (t : State) : EndsQuiet (settled t) := endsQuiet_next (quiet_endCycle t)

/-- All parts of the state but those that hold what is still to be sent. -/
def butWaiting : List Part := everything.filter (fun p => p != .raised && p != .condFrom)

theorem quiet_of_rest {s t : State} (hs : quiet s) (h : rest butWaiting t = rest butWaiting s) : quiet t :=
  ⟨(raised_of_rest h rfl).trans hs.1, (condFrom_of_rest h rfl).trans hs.2⟩

theorem endsQuiet_of_rest {s : State} {o : Host.Outcome State Fault Refusal} (hs : quiet s) (h : ∃ t, o = .next t ∧ rest butWaiting t = rest butWaiting s) :
    EndsQuiet o := by
  obtain ⟨t, rfl, ht⟩ := h
  exact endsQuiet_next (quiet_of_rest hs ht)

/-- A keeper command is left out in POR; else its own end of cycle sends what it raised. -/
theorem endsQuiet_kfLive_endCycle {s : State} (hs : quiet s) (f : State → State) : EndsQuiet (kfLive s (fun t => endCycle (f t))) := by
  unfold kfLive
  split
  · exact endsQuiet_next hs
  · exact endsQuiet_next (quiet_endCycle _)

/-- A reset keeps the events raised before it and forgets changes of flags. -/
theorem quiet_internalReset {s : State} (hs : quiet s) (kind : Nat) : quiet (internalReset s kind) :=
  ⟨(quiet_of_rest hs (rest_beginLogs rfl s kind)).1, rfl⟩

theorem endsQuiet_porstAssert {s : State} (hs : quiet s) (cyc : Nat) : EndsQuiet (execPorstAssert cyc s) := by
  have hadv : quiet (advanceTo s cyc) := quiet_of_rest hs (rest_advanceTo rfl s cyc)
  have hporst : quiet (updKf (advanceTo s cyc) (fun k => { k with porst := true })) := hadv
  simp only [execPorstAssert]
  split
  · exact endsQuiet_next hadv
  split
  · split
    · exact endsQuiet_next (quiet_internalReset hporst _)
    · exact endsQuiet_next hporst
  split
  · exact endsQuiet_next (quiet_internalReset hporst _)
  · exact endsQuiet_next (quiet_of_rest hporst (rest_beginStop rfl _ _ _ _))

theorem endsQuiet_alwaysOnPowerUp {s : State} (hs : quiet s) : EndsQuiet (execAlwaysOnPowerUp s) := by
  simp only [execAlwaysOnPowerUp]
  split
  · exact endsQuiet_next hs
  · exact endsQuiet_next (quiet_internalReset hs _)

/-- A command that may raise an event or change a flag ends its cycle whatever it does, or resets the part; any other leaves what is to be sent as it was. -/
theorem exec_endsQuiet (i : Instr) {s : State} (hs : quiet s) : EndsQuiet (exec i s) := by
  by_cases hsilent : sub (touches i) butWaiting = true
  · exact endsQuiet_of_rest hs (rest_exec i s hsilent)
  · cases i
    case cadTickEdge | flywheelTick | cadenceLostSet | lockTimeout | internalTick | cadControlSourceWrite | windowStart | maintenanceDraw |
        portEnable | portDisable | portShutdown | portShutdownDone | portDrainDone | functionLevelReset | perstAssert | surpriseDown |
        sqTailDoorbell | cqHeadDoorbell | rcRegisterRead | registerWrite | setHorizonMinimum | fwCommit | fwRevert | bayCommissionMember |
        bayCommissionSpare | bayEvacuate | bayCancelEvacuate | bayRelease | rebuildStop | rebuildStart | patrolRestartCycle | twinUnpair |
        twinFencePartner | sequenceEnd | verifyReadDone | mapUpdate | decodeDone | hourlyModelUpdate | aetWaitTimeout | patrolCycleStart |
        reclaimStart | reserveReclaimStart | refreshClaim | blockClaimRequest | blockRelease | blockErase | memberFailure | rebuildRow |
        bayPresenceAccepted | bayRemoval | bayFault | commissioningDone | evacuationSetMove | evacuationDone | importDone | holdupComplete |
        porstRelease | restartComplete | failedSet | dramChannelLoss | ownershipClaim | partnerLoss | uncleanTakeOver | standbyLinkFallback
        | ackTimeout | zynmiLinkTrained | zynmiLinkDown | frameHeartbeat | frameAck | frameState | frameFailing | frameSyncEnd |
        framePairHello | framePairConfirm | avsAck | avsRetryTimeout | powerLevelUpdate | sensorSample | pwrfailRise | latchedPairLowRead =>
      simp only [exec, execCadTickEdge, execFlywheelTick, execCadenceLostSet, execLockTimeout, execInternalTick, execCadControlSourceWrite,
        execWindowStart, execMaintenanceDraw, execPortEnable, execPortDisable, execPortShutdown, execPortShutdownDone, execPortDrainDone,
        execFunctionLevelReset, execPerstAssert, execSurpriseDown, execSqTailDoorbell, execCqHeadDoorbell, execRcRegisterRead,
        execRegisterWrite, execSetHorizonMinimum, execFwCommit, execFwRevert, execBayCommissionMember, execBayCommissionSpare,
        execBayEvacuate, execBayCancelEvacuate, execBayRelease, execRebuildStop, execRebuildStart, execPatrolRestartCycle, execTwinUnpair,
        execTwinFencePartner, execSequenceEnd, execVerifyReadDone, execMapUpdate, execDecodeDone, execHourlyModelUpdate, execAetWaitTimeout,
        execPatrolCycleStart, execReclaimStart, execReserveReclaimStart, execRefreshClaim, execBlockClaimRequest, execBlockRelease,
        execBlockErase, execMemberFailure, execRebuildRow, execBayPresenceAccepted, execBayRemoval, execBayFault, execCommissioningDone,
        execEvacuationSetMove, execEvacuationDone, execImportDone, execHoldupComplete, execPorstRelease, execRestartComplete, execFailedSet,
        execDramChannelLoss, execOwnershipClaim, execPartnerLoss, execUncleanTakeOver, execStandbyLinkFallback, execAckTimeout,
        execZynmiLinkTrained, execZynmiLinkDown, execFrameHeartbeat, execFrameAck, execFrameState, execFrameFailing, execFrameSyncEnd,
        execFramePairHello, execFramePairConfirm, execAvsAck, execAvsRetryTimeout, execPowerLevelUpdate, execSensorSample, execPwrfailRise,
        execLatchedPairLowRead]
      repeat' split
      all_goals exact endsQuiet_settled _
    case kfCommandDone | recoveryRequest | recoveryExit =>
      simp only [exec, execKfCommandDone, execRecoveryRequest, execRecoveryExit]
      exact endsQuiet_kfLive_endCycle hs _
    case porstAssert => exact endsQuiet_porstAssert hs _
    case alwaysOnPowerUp => exact endsQuiet_alwaysOnPowerUp hs
    -- The other commands are named in `touches` for neither part that holds what is to be sent.
    all_goals exact absurd rfl hsilent

/-- Settles O3: the flags by bits of the next word, the events by what the end of a cycle sends, the last clause command by command. -/
theorem flagsCombineAndRaiseEvents : Obligations.FlagsCombineAndRaiseEvents := by
  unfold Obligations.FlagsCombineAndRaiseEvents
  refine ⟨fun s fs gs hs => ?events, fun s fs => ?flags, fun i s t hs ht => exec_endsQuiet i hs t ht⟩
  case events =>
    have hsent := endCycle_reports_flags (s := setFlags (setFlags s fs) gs) hs.1 (condFrom_setFlags_setFlags hs.2 fs gs)
    simpa only [endCycle_cond, setFlags_evSeq, true_and] using hsent
  case flags => exact ⟨fun hfailed => nextCond_of_failed hfailed _ _, fun hlive => flags_setFlags hlive fs⟩

end Sys2Proof.Proofs
end

section
/-! PROOFS. Maintenance draws (R20, R72, R73): an operation asked waits for its draw or goes to its die, and a draw is charged or refused. -/
namespace Sys2Proof.Proofs
open Sys2Proof Sys2Proof.Machine Sys2Proof.Laws

/-! ## What waits for a draw, as dies take their operations -/

@[simp] theorem undrawn_updDie (s : State) (d : DieId) (f : DieSt → DieSt) : (updDie s d f).media.undrawn = s.media.undrawn := rfl

@[simp] theorem undrawn_countOp (s : State) (op : DieOp) : (countOp s op).media.undrawn = s.media.undrawn :=
  congrArg Media.undrawn (media_of_rest (rest_countOp (L := [.ctr]) rfl s op) rfl)

/-- A die takes its next operation from its own queue. -/
@[simp] theorem undrawn_startDie (s : State) (d : DieId) : (startDie s d).media.undrawn = s.media.undrawn := by
  unfold startDie
  repeat' split
  all_goals simp

@[simp] theorem undrawn_enqueueOp (s : State) (op : DieOp) : (enqueueOp s op).media.undrawn = s.media.undrawn := by
  simp only [enqueueOp]
  split <;> simp

@[simp] theorem cad_enqueueOp (s : State) (op : DieOp) : (enqueueOp s op).cad = s.cad :=
  cad_of_rest (rest_enqueueOp (L := [.media, .ctr]) rfl s op) rfl

/-! ## An operation asked -/

theorem issueOp_of_draw {s : State} {op : DieOp} {k : DrawKind} (h : drawOf s op = some k) :
    issueOp s op =
      updMedia s (fun m => { m with undrawn := m.undrawn ++ [{ op with typical := some (typicalOf s op.page.bay op.seqNo) }] }) := by
  simp [issueOp, h]

theorem issueOp_of_no_draw {s : State} {op : DieOp} (h : drawOf s op = none) : issueOp s op = enqueueOp s { op with typical := none } := by
  simp [issueOp, h]

/-! ## A draw granted or refused -/

theorem settleWindow_of_not_due {s : State} (h : s.cad.windowDue = none) : settleWindow s = s := by simp [settleWindow, h]

/-- Of the two kinds of draw of the rebuild only the one for a row with no parity left is urgent. -/
theorem eq_rebuildNoParity {k : DrawKind} (hu : urgentDraw k = true) (hr : rebuildDraw k = true) : k = .rebuildNoParity := by
  revert hu hr
  cases k <;> decide

/-- In PS0, with no stop begun and no clean stop record, urgent work draws whatever the charges (R73). -/
theorem drawGranted_urgent {s : State} {k : DrawKind} (die : DieId) (hu : urgentDraw k = true) (hr : k = .rebuildNoParity → s.media.rebuild = 1)
    (hps : s.power.st = 0) (hstop : s.jrnl.stopFrom = none) (hclean : s.jrnl.cleanStands = false) : drawGranted s k die = true := by
  have hrebuild : (!rebuildDraw k || s.media.rebuild == 1) = true := by
    cases hk : rebuildDraw k
    · rfl
    · simp [hr (eq_rebuildNoParity hu hk)]
  simp [drawGranted, hu, hps, hstop, hclean, hrebuild]

/-- Other work does not draw once the charges have reached E (R73). -/
theorem drawGranted_spent {s : State} {k : DrawKind} (die : DieId) (hu : urgentDraw k = false) (hE : (s.cad.budget : Int) ≤ s.cad.charged) :
    drawGranted s k die = false := by
  have hroom : ∀ held : Nat, ¬ s.cad.charged + (held : Int) < (s.cad.budget : Int) := by omega
  simp only [drawGranted, hu, decide_eq_false (hroom _), Bool.false_or, Bool.false_and, Bool.and_false]

section Waiting

variable {s : State} {k : DrawKind} {die : DieId} {n : Nat} {op : DieOp} (hdue : s.cad.windowDue = none) (hop : waitingOp s k die n = some op)
include hdue hop

theorem exec_maintenanceDraw_granted (hg : drawGranted s k die = true) :
    exec (.maintenanceDraw k die n) s = settled (grantDraw s k die op) := by
  simp [exec, execMaintenanceDraw, settleWindow_of_not_due hdue, hop, hg]

theorem exec_maintenanceDraw_refused (hg : drawGranted s k die = false) :
    exec (.maintenanceDraw k die n) s = settled (countEvent s 0x38 0 1) := by
  simp [exec, execMaintenanceDraw, settleWindow_of_not_due hdue, hop, hg]

end Waiting

theorem charged_grantDraw (s : State) (k : DrawKind) (die : DieId) (op : DieOp) :
    (grantDraw s k die op).cad.charged = s.cad.charged + (op.typical.getD 0 : Int) := by
  simp [grantDraw]

theorem undrawn_grantDraw (s : State) (k : DrawKind) (die : DieId) (op : DieOp) :
    (grantDraw s k die op).media.undrawn = s.media.undrawn.erase op := by
  simp [grantDraw]

/-- Settles O10: a waiting operation's draw by whether it is granted, an operation asked by whether it needs one. -/
theorem drawsAreChargedOrRefused : Obligations.DrawsAreChargedOrRefused := by
  unfold Obligations.DrawsAreChargedOrRefused
  refine ⟨fun s k die n op hdue hop => ⟨fun hu hr hps hstop hclean => ?granted, fun hu hE => ?refused⟩,
    fun s op => ⟨fun k hk => ?waits, fun hk => ?goes⟩⟩
  case granted =>
    refine ⟨_, exec_maintenanceDraw_granted hdue hop (drawGranted_urgent die hu hr hps hstop hclean), ?_, ?_⟩
    · rw [endCycle_cad, charged_grantDraw]
    · rw [endCycle_media, undrawn_grantDraw]
  case refused =>
    have hcount := rest_countEvent (L := [.ctr]) rfl s 0x38 0 1
    refine ⟨_, exec_maintenanceDraw_refused hdue hop (drawGranted_spent die hu hE), ?_, ?_⟩
    · rw [endCycle_cad, cad_of_rest hcount rfl]
    · rw [endCycle_media, media_of_rest hcount rfl]
  case waits =>
    rw [issueOp_of_draw hk]
    exact ⟨rfl, rfl⟩
  case goes => rw [issueOp_of_no_draw hk, undrawn_enqueueOp]

end Sys2Proof.Proofs
end

section
/-! PROOFS. Boot and power-up (R42, R255, R450, R451, R455): what the release of PORST_N leaves of pin and straps, when it ends in recovery mode, and what
a power-up of the always-on domain clears. -/
namespace Sys2Proof.Proofs
open Sys2Proof Sys2Proof.Machine Sys2Proof.Laws

/-! ## The pin and the straps (R503) through a boot -/

/-- PORST_N and the keeper's straps. -/
abbrev strapsOf (k : Kf) : Bool × BitVec 4 × BitVec 3 := (k.porst, k.boardId, k.sbAddr)

/-- Of a state. -/
def straps (s : State) : Bool × BitVec 4 × BitVec 3 := strapsOf s.kf

theorem straps_of_rest {s t : State} (h : rest (but .kf) t = rest (but .kf) s) : straps t = straps s := congrArg strapsOf (kf_of_rest h rfl)

theorem straps_updKf (s : State) (f : Kf → Kf) (h : ∀ k, strapsOf (f k) = strapsOf k) : straps (updKf s f) = straps s := h s.kf

theorem straps_foldl {α : Type} (f : State → α → State) (hf : ∀ t a, straps (f t a) = straps t) (l : List α) (s : State) :
    straps (l.foldl f s) = straps s := by
  induction l generalizing s with
  | nil => rfl
  | cons a l ih => rw [List.foldl_cons, ih, hf]

@[simp] theorem straps_updCad (s : State) (f : Cad → Cad) : straps (updCad s f) = straps s := rfl
@[simp] theorem straps_updPort (s : State) (p : Port) (f : PortSt → PortSt) : straps (updPort s p f) = straps s := by cases p <;> rfl
@[simp] theorem straps_updPower (s : State) (f : Power → Power) : straps (updPower s f) = straps s := rfl

@[simp] theorem straps_raiseEvent (s : State) (kind code p0 p1 : Nat) (only : Option Port) : straps (raiseEvent s kind code p0 p1 only) = straps s :=
  straps_of_rest (rest_raiseEvent rfl s kind code p0 p1 only)

@[simp] theorem straps_putBoot (s : State) (f : BootRec → BootRec) : straps (putBoot s f) = straps s := by
  simp (disch := (intro; rfl)) only [putBoot, straps_updKf]

@[simp] theorem straps_recordFailing (s : State) (slot : Nat) (r : Reject) : straps (recordFailing s slot r) = straps s := by
  simp [recordFailing]

@[simp] theorem straps_slotEvents (s : State) (l : List Nat) (code reason : Nat) : straps (slotEvents s l code reason) = straps s :=
  straps_of_rest (rest_slotEvents rfl ..)

@[simp] theorem straps_startTime (s : State) : straps (startTime s) = straps s := straps_of_rest (rest_startTime rfl ..)

@[simp] theorem straps_armLock (s : State) : straps (armLock s) = straps s := straps_of_rest (rest_armLock rfl ..)

@[simp] theorem straps_settleEnable (s : State) (p : Port) : straps (settleEnable s p) = straps s := straps_of_rest (rest_settleEnable rfl ..)

@[simp] theorem straps_resolveBoot (s : State) : straps (resolveBoot s) = straps s := by
  unfold resolveBoot
  dsimp only
  split
  · simp
  · split <;> simp

@[simp] theorem straps_returnCommit (s : State) (slot : Nat) (r : Reject) : straps (returnCommit s slot r) = straps s := by
  simp [returnCommit]

@[simp] theorem straps_trySlot (s : State) (env : BootEnv) (keeper cluster : List Byte) (slot : Nat) (active : Bool) :
    straps (trySlot s env keeper cluster slot active).1 = straps s := by
  unfold trySlot
  split
  · split <;> simp
  · split <;> simp

@[simp] theorem straps_chooseSlot (s : State) (env : BootEnv) (c : Nat) (keeper cluster : List Byte) :
    straps (chooseSlot s env c keeper cluster).1 = straps s := by
  have hactive := straps_trySlot s env keeper cluster (activeSlot s.kf.boot c) true
  unfold chooseSlot
  split
  · rename_i h; simpa only [h] using hactive
  · rename_i h; simpa only [h, straps_trySlot] using hactive

@[simp] theorem straps_applyImage (s : State) (env : BootEnv) (k c i : Nat) : straps (applyImage s env k c i) = straps s := by
  unfold applyImage fuseOwner
  dsimp only
  split <;> simp (disch := (intro; rfl)) only [straps_updKf]

@[simp] theorem straps_readCalibration (s : State) : straps (readCalibration s) = straps s := by
  unfold readCalibration readOverlay
  dsimp only
  split <;> simp (disch := (intro; rfl)) only [straps_raiseEvent, straps_updPower, straps_updKf]

@[simp] theorem straps_dropDamaged (s : State) : straps (dropDamaged s) = straps s := by
  unfold dropDamaged
  split <;> rfl

@[simp] theorem straps_restoreFeatures (s : State) : straps (restoreFeatures s) = straps s := by
  have hgrids (t : State) : straps (freshGrids t) = straps t := straps_of_rest (rest_freshGrids rfl ..)
  have hjournal (t : State) (n : Nat) : straps (applyJournalInterval t n) = straps t := straps_of_rest (rest_applyJournalInterval rfl ..)
  have hpatrol (t : State) (n : Nat) : straps (applyPatrolCycle t n) = straps t := straps_of_rest (rest_applyPatrolCycle rfl ..)
  have htimers (t : State) (m n : Nat) : straps (applyTimers t m n) = straps t := straps_of_rest (rest_applyTimers rfl ..)
  have hfeat (t : State) (f : Feat) : straps { t with feat := f } = straps t := rfl
  unfold restoreFeatures
  simp (disch := (intro; rfl)) only [straps_updPort, hgrids, hjournal, hpatrol, straps_updCad, hfeat, htimers, straps_updKf, straps_dropDamaged]

@[simp] theorem straps_putStop (s : State) (kind : StopKind) (holdup : Option (Nat × Madr)) : straps (putStop s kind holdup) = straps s := by
  have hjrnl (t : State) (f : Jrnl → Jrnl) : straps (updJrnl t f) = straps t := rfl
  simp (disch := (intro; rfl)) only [putStop, keepStop, hjrnl, straps_updKf]

@[simp] theorem straps_recordStop (s : State) (kind : StopKind) (holdup : Option (Nat × Madr)) : straps (recordStop s kind holdup) = straps s := by
  have hmirror (t : State) (f : Frame) : straps (mirrorFrame t f) = straps t := straps_of_rest (rest_mirrorFrame rfl ..)
  unfold recordStop
  dsimp only
  split <;> simp [hmirror]

@[simp] theorem straps_beginStop (s : State) (kind : StopKind) (skip : List Nat) (record : Bool) : straps (beginStop s kind skip record) = straps s := by
  have hjrnl (t : State) (f : Jrnl → Jrnl) : straps (updJrnl t f) = straps t := rfl
  have hsave : straps (saveHoldup s skip).1 = straps s := straps_of_rest (rest_saveHoldup rfl ..)
  unfold beginStop
  dsimp only
  repeat' split
  all_goals simp [hjrnl, hsave]

@[simp] theorem straps_failPart (s : State) (keeperFailed : Bool) : straps (failPart s keeperFailed) = straps s := by
  have hrefuse (l : List Nat) (t : State) : straps (l.foldl (fun t cid => refuseNow t cid 0x7001 0xFF) t) = straps t :=
    straps_foldl _ (fun t cid => straps_of_rest (rest_refuseNow rfl ..)) l t
  have hsend (t : State) (f : Frame) : straps (sendFrame t f) = straps t := straps_of_rest (rest_sendFrame rfl ..)
  have hflags : straps (setFlags s [(bFailed, true)]) = straps s := straps_of_rest (rest_setFlags rfl ..)
  unfold failPart
  dsimp only
  repeat' split
  all_goals simp only [straps_beginStop, hrefuse, hsend, hflags]

@[simp] theorem straps_startBay (s : State) (n : Nat) : straps (startBay s n) = straps s := by
  have hadopt (b : Bay) : straps (adopt s b).1 = straps s := by
    unfold adopt
    split
    · rfl
    · exact straps_updKf _ _ (fun _ => rfl)
  have hbay (t : State) (m : Nat) (f : Bay → Bay) : straps (updBay t m f) = straps t := rfl
  unfold startBay
  split
  · rfl
  · dsimp only
    repeat' split
    all_goals simp [hbay, hadopt]

@[simp] theorem straps_startSteps (s : State) : straps (startSteps s) = straps s := by
  have heng (t : State) (f : MapEng → MapEng) : straps (updEng t f) = straps t := rfl
  have hmap (t : State) (i : MapImg) : straps { t with map := i } = straps t := rfl
  have htaken (t : State) : straps (settleTaken t) = straps t := straps_of_rest (rest_settleTaken rfl ..)
  have htier (t : State) : straps (sizeTier t) = straps t := straps_of_rest (rest_sizeTier rfl ..)
  unfold startSteps
  simp (disch := (intro; rfl)) only [straps_updKf, htier, heng, htaken, hmap, straps_foldl _ straps_startBay]

@[simp] theorem straps_releaseHost (s : State) : straps (releaseHost s) = straps s := by
  unfold releaseHost
  dsimp only
  rw [straps_settleEnable, straps_settleEnable]
  split <;> simp (disch := (intro; rfl)) only [straps_startSteps, straps_armLock, straps_updKf]

@[simp] theorem straps_bootWithoutImage (s : State) (env : BootEnv) (k c : Nat) : straps (bootWithoutImage s env k c) = straps s := by
  unfold bootWithoutImage
  simp (disch := (intro; rfl)) only [straps_settleEnable, straps_armLock, straps_updKf, straps_failPart, straps_restoreFeatures, straps_readCalibration]

@[simp] theorem straps_bootFrom (s : State) (env : BootEnv) (k : Nat) : straps (bootFrom s env k) = straps s := by
  have hcluster := straps_chooseSlot s env 1 (slotImage s.kf.mem k) []
  unfold bootFrom
  dsimp only
  split
  · rename_i h; simpa only [h, straps_failPart] using hcluster
  · rename_i t c h
    have ht : straps t = straps s := by simpa only [h] using hcluster
    have himage := straps_chooseSlot t env 2 (slotImage s.kf.mem k) (slotImage t.kf.mem c)
    split
    · rw [straps_failPart, ht]
    · split
      · rename_i h; rw [straps_bootWithoutImage, ← ht, ← himage, h]
      · rename_i u i h
        have hu : straps u = straps s := by rw [← ht, ← himage, h]
        split <;> simp [hu]

/-! ## The boot chain (R455) -/

/-- The straps of a boot sampled and its boot record read. -/
def sampled (s : State) (env : BootEnv) : State :=
  updTwin (updKf s (fun k => { k with boardId := env.boardId, sbAddr := env.sbAddr, boot := bootInForce k.mem, dramMib := env.dramMib }))
    (fun x => { x with en := env.twinEn, seat := env.twinSeat, peerOwn := env.twinEn && env.peerOwn, role := if env.twinEn then .fenced else .solo })

/-- The state in which the boot chooses its keeper slot: an activating restart whose slots do not all pass has returned its commit. -/
def keeperStage (s : State) (env : BootEnv) : State :=
  let t := resolveBoot (startTime (sampled s env))
  match trialFails t env with
  | some (slot, r) => returnCommit t slot r
  | none => t

theorem straps_sampled (s : State) (env : BootEnv) : straps (sampled s env) = (s.kf.porst, env.boardId, env.sbAddr) := rfl

theorem straps_keeperStage (s : State) (env : BootEnv) : straps (keeperStage s env) = (s.kf.porst, env.boardId, env.sbAddr) := by
  unfold keeperStage
  dsimp only
  split <;> simp [straps_sampled]

theorem twinCtl_keeperStage (s : State) (env : BootEnv) : twinCtl (keeperStage s env).twin = (s.twin.hold, env.twinEn, env.twinSeat) := by
  have hresolved := twinCtl_of_rest ((rest_resolveBoot (L := but .twinCtl) rfl (startTime (sampled s env))).trans (rest_startTime rfl _)) rfl
  unfold keeperStage
  dsimp only
  split
  · rw [twinCtl_of_rest (rest_returnCommit (L := but .twinCtl) rfl ..) rfl, hresolved]; rfl
  · rw [hresolved]; rfl

section Lockstep

variable {s : State} {env : BootEnv} (hok : env.lockstepOk = true)
include hok

/-- A request of recovery mode is met before any slot is read (R451). -/
theorem bootUp_of_request (hreq : s.kf.recRequest = true) : bootUp s env = enterRecovery (sampled s env) 1 := by
  simp [bootUp, hok, hreq, sampled]

/-- Else the part runs from the keeper slot that passes, and enters recovery mode where none does (R455). -/
theorem bootUp_of_choice (hreq : s.kf.recRequest = false) :
    bootUp s env = match (chooseSlot (keeperStage s env) env 0 [] []).2 with
      | none => enterRecovery { keeperStage s env with cond := s.cond } 2
      | some k => bootFrom (chooseSlot (keeperStage s env) env 0 [] []).1 env k := by
  unfold bootUp
  rw [if_neg (by simp [hok]), if_neg (by simp [hreq])]
  change (match chooseSlot (keeperStage s env) env 0 [] [] with
      | (_, none) => enterRecovery { keeperStage s env with cond := s.cond } 2
      | (t, some k) => bootFrom t env k) = _
  split <;> rename_i h <;> rw [h]

/-- Whatever the boot finds, PORST_N stays as it is and the straps are those sampled (R503). -/
theorem straps_bootUp : straps (bootUp s env) = (s.kf.porst, env.boardId, env.sbAddr) := by
  have hrecovery (t : State) (cause : Nat) : straps (enterRecovery t cause) = straps t := straps_updKf t _ (fun _ => rfl)
  cases hreq : s.kf.recRequest with
  | true => rw [bootUp_of_request hok hreq, hrecovery, straps_sampled]
  | false =>
    rw [bootUp_of_choice hok hreq]
    split
    · rw [hrecovery]; exact straps_keeperStage s env
    · rw [straps_bootFrom, straps_chooseSlot, straps_keeperStage]

theorem twinCtl_bootUp : twinCtl (bootUp s env).twin = (s.twin.hold, env.twinEn, env.twinSeat) := by
  cases hreq : s.kf.recRequest with
  | true => rw [bootUp_of_request hok hreq]; rfl
  | false =>
    rw [bootUp_of_choice hok hreq]
    split
    · exact twinCtl_keeperStage s env
    · rename_i k _
      have hrest := (rest_bootFrom (L := but .twinCtl) rfl _ env k).trans (rest_chooseSlot (L := but .twinCtl) rfl (keeperStage s env) env 0 [] [])
      rw [twinCtl_of_rest hrest rfl, twinCtl_keeperStage]

end Lockstep

/-! ## Empty keeper flash -/

/-- Empty keeper flash holds no boot record (R454). -/
theorem bootInForce_nil : bootInForce [] = BootRec.none := rfl

/-- Without a boot record nothing is on trial or pending, and the flash stays as it is. -/
theorem mem_keeperStage_of_empty {s : State} (hmem : s.kf.mem = []) (env : BootEnv) : (keeperStage s env).kf.mem = [] := by
  have hkf : (startTime (sampled s env)).kf = (sampled s env).kf := kf_of_rest (rest_startTime (L := but .kf) rfl _) rfl
  have hboot : (startTime (sampled s env)).kf.boot = BootRec.none := by
    rw [hkf]; exact (congrArg bootInForce hmem).trans bootInForce_nil
  have hresolve : resolveBoot (startTime (sampled s env)) = startTime (sampled s env) := by simp [resolveBoot, hboot, BootRec.none]
  have htrial : trialFails (startTime (sampled s env)) env = none := by
    simp [trialFails, hboot, BootRec.none, comps, compBit]
  unfold keeperStage
  simp only [hresolve, htrial, hkf]
  exact hmem

/-- In empty keeper flash no slot of a component is found. -/
theorem chooseSlot_of_empty {s : State} (hmem : s.kf.mem = []) (env : BootEnv) (c : Nat) (keeper cluster : List Byte) :
    (chooseSlot s env c keeper cluster).2 = none := by
  have hblank (t : State) (ht : t.kf.mem = []) (slot : Nat) : emptySlot t slot = true := by simp [emptySlot, ht, blank, cellsIn]
  have htry (t : State) (ht : t.kf.mem = []) (slot : Nat) (active : Bool) :
      (trySlot t env keeper cluster slot active).2 = none ∧ (trySlot t env keeper cluster slot active).1.kf.mem = [] := by
    cases active <;> simp [trySlot, hblank t ht, raiseEvent, ht]
  have hactive := htry s hmem (activeSlot s.kf.boot c) true
  unfold chooseSlot
  split
  · rename_i h; simp [h] at hactive
  · rename_i h; rw [h] at hactive; exact (htry _ hactive.2 _ false).1

/-! ## The commands -/

/-- The state that boots at a release of PORST_N with no sequence to end and no trip to wait for. -/
def releasedState (s : State) (cyc : Nat) : State := updKf (updKf (advanceTo s cyc) (fun k => { k with porst := false })) (fun k => { k with tripHold := false })

theorem kf_releasedState (s : State) (cyc : Nat) : (releasedState s cyc).kf = { s.kf with porst := false, tripHold := false } := by
  have hkf : (advanceTo s cyc).kf = s.kf := kf_of_rest (rest_advanceTo (L := but .kf) rfl s cyc) rfl
  simp [releasedState, hkf]

theorem exec_porstRelease {s : State} {cyc : Nat} {env : BootEnv} (hporst : s.kf.porst = true) (hstop : s.jrnl.stopFrom = none)
    (htrip : s.kf.tripHold = false) : exec (.porstRelease cyc env) s = settled (bootUp (releasedState s cyc) env) := by
  have hkf : (advanceTo s cyc).kf = s.kf := kf_of_rest (rest_advanceTo (L := but .kf) rfl s cyc) rfl
  have hjrnl : (advanceTo s cyc).jrnl = s.jrnl := jrnl_of_rest (rest_advanceTo (L := but .jrnl) rfl s cyc) rfl
  have hend : endStop (advanceTo s cyc) = advanceTo s cyc := by simp [endStop, hjrnl, hstop]
  simp [exec, execPorstRelease, hkf, hporst, hend, hjrnl, hstop, bootOrHold, htrip, releasedState]

/-- An internal reset leaves keeper flash and the saved features (R443, R450). -/
theorem flash_internalReset (s : State) (kind : Nat) : (internalReset s kind).kf.mem = s.kf.mem ∧ (internalReset s kind).kf.saved = s.kf.saved := by
  have hkf : (beginLogs s kind).kf = s.kf := kf_of_rest (rest_beginLogs (L := but .kf) rfl s kind) rfl
  simp [internalReset, kfAfter, hkf]

/-- Settles O40: each way through the boot keeps the pin and the straps that it sampled; a request and an empty flash end it in recovery mode. -/
theorem thePartBootsAndPowersUp : Obligations.ThePartBootsAndPowersUp := by
  unfold Obligations.ThePartBootsAndPowersUp
  intro s cyc env
  refine ⟨fun hporst hstop htrip hok => ?release, fun hend => ?rise, ?powerUp⟩
  case release =>
    have hkf := kf_releasedState s cyc
    have hstraps := straps_bootUp (s := releasedState s cyc) hok
    have htwin := twinCtl_bootUp (s := releasedState s cyc) hok
    simp only [straps, hkf, Prod.mk.injEq] at hstraps htwin
    obtain ⟨hpin, hboard, haddr⟩ := hstraps
    obtain ⟨-, hen, hseat⟩ := htwin
    refine ⟨_, exec_porstRelease hporst hstop htrip, ?_⟩
    simp only [endCycle_kf, endCycle_twin]
    refine ⟨hpin, hboard, haddr, hen, hseat, fun hreq => ?_, fun hreq hmem => ?_⟩
    · rw [bootUp_of_request hok (by rw [hkf]; exact hreq)]
      exact ⟨rfl, rfl, rfl⟩
    · have hnone := chooseSlot_of_empty (mem_keeperStage_of_empty (s := releasedState s cyc) (by rw [hkf]; exact hmem) env) env 0 [] []
      rw [bootUp_of_choice hok (by rw [hkf]; exact hreq), hnone]
      exact ⟨rfl, rfl, rfl⟩
  case rise =>
    have hjrnl : (advanceTo s cyc).jrnl = s.jrnl := jrnl_of_rest (rest_advanceTo (L := but .jrnl) rfl s cyc) rfl
    refine ⟨endCycle (updSide (advanceTo s cyc) (fun x => { x with pwrfail := false })), ?_, ?_, ?_⟩
    · simp [exec, execPwrfailRise, hjrnl, hend, settled]
    · simp
    · simp [hjrnl]
  case powerUp =>
    refine ⟨_, rfl, rfl, rfl, rfl, ?_⟩
    simp only [updKf_kf, updPower_kf, updSide_kf]
    split
    · exact ⟨rfl, rfl⟩
    · exact flash_internalReset s 1

end Sys2Proof.Proofs
end

section
/-! PROOFS. Bay positions (R43, R315, R365 to R367, R370): what the operations of a seated, removed, failing or commissioned carrier leave of every bay
position and of the recorded member failures, and what each command makes of its own. -/
namespace Sys2Proof.Proofs
open Sys2Proof Sys2Proof.Machine Sys2Proof.Laws

theorem view_foldl {α β : Type} {view : State → β} {f : State → α → State} (hf : ∀ t a, view (f t a) = view t) (l : List α) (s : State) :
    view (l.foldl f s) = view s := by
  induction l generalizing s with
  | nil => rfl
  | cons a l ih => rw [List.foldl_cons, ih, hf]

/-! ## A bay position looked up -/

theorem bay_of_bayOf {s : State} {n : Nat} {x : Bay} (h : bayOf s n = some x) : x.bay = n := by simpa using List.find?_some h

/-- Positions changed without their numbers are found as before, changed. -/
theorem bayOf_of_map {s t : State} {f : Bay → Bay} (hf : ∀ x, (f x).bay = x.bay) (ht : t.media.bays = s.media.bays.map f) (n : Nat) :
    bayOf t n = (bayOf s n).map f := by
  have hkey : (fun x : Bay => x.bay == n) ∘ f = fun x => x.bay == n := by funext x; simp [hf]
  unfold bayOf
  rw [ht, List.find?_map, hkey]

theorem bayOf_updBay {s : State} {n : Nat} {x : Bay} (hx : bayOf s n = some x) {f : Bay → Bay} (hf : ∀ x, (f x).bay = x.bay) :
    bayOf (updBay s n f) n = some (f x) := by
  have hmap := bayOf_of_map (s := s) (t := updBay s n f) (f := fun x => if x.bay == n then f x else x)
    (fun x => by split <;> simp [hf]) rfl n
  simp [hmap, hx, bay_of_bayOf hx]

theorem bayOf_congr {s t : State} (h : t.media.bays = s.media.bays) (n : Nat) : bayOf t n = bayOf s n := by unfold bayOf; rw [h]

theorem media_journal (s : State) (r : JRec) : (journal s r).media = s.media := media_of_rest (rest_journal (L := [.jrnl, .twin]) rfl s r) rfl

/-- A bay that changes state keeps all but the state and its stamp (R368). -/
theorem bayOf_setBaySt {s : State} {n : Nat} {x : Bay} (hx : bayOf s n = some x) (st : BaySt) :
    ∃ a, bayOf (setBaySt s n st) n = some { x with st := st, stateAet := a } := by
  unfold setBaySt
  simp only [hx]
  split
  · rename_i h
    obtain rfl : x.st = st := by simpa using h
    exact ⟨x.stateAet, hx⟩
  · have hjournal : ∀ r, (journal s r).media = s.media := fun r => media_of_rest (rest_journal (L := [.jrnl, .twin]) rfl s r) rfl
    refine ⟨s.cad.aet, ?_⟩
    exact bayOf_updBay (f := fun y => { y with st := st, stateAet := s.cad.aet }) ((bayOf_congr (congrArg Media.bays (media_journal ..)) n).trans hx) (fun _ => rfl)

/-! ## What stays of the bay positions -/

/-- A bay without its grown-defect share, which a loss of capacity may draw on (R270). -/
def shareless (x : Bay) : Bay := { x with spareLeft := 0 }

theorem field_of_shareless {β : Type} {x y : Bay} (h : shareless y = shareless x) (g : Bay → β) (hg : ∀ z, g (shareless z) = g z := by intro _; rfl) :
    g y = g x := by rw [← hg y, h, hg]

/-- The bay positions, their shares left out, and the member failures recorded (R346). -/
def seats (s : State) : List Bay × List MemberFail := (s.media.bays.map shareless, s.media.fails)

theorem seats_of_media {s t : State} (h : t.media = s.media) : seats t = seats s := by unfold seats; rw [h]

theorem seats_of_rest {s t : State} (h : rest (but .media) t = rest (but .media) s) : seats t = seats s := seats_of_media (media_of_rest h rfl)

theorem seats_of_steady {s t : State} (h : steady t = steady s) : seats t = seats s := by
  have hmedia : steadyMedia t.media = steadyMedia s.media := h
  have hparts := congrArg (fun m : Media => (m.bays.map shareless, m.fails)) hmedia
  exact hparts

theorem fails_of_seats {s t : State} (h : seats t = seats s) : t.media.fails = s.media.fails := congrArg Prod.snd h

theorem bayOf_of_seats {s t : State} (h : seats t = seats s) {n : Nat} {x : Bay} (hx : bayOf s n = some x) :
    ∃ y, bayOf t n = some y ∧ shareless y = shareless x := by
  have hfind : ∀ u : State, (seats u).1.find? (fun x => x.bay == n) = (bayOf u n).map shareless := fun u => by
    simp only [seats, List.find?_map, bayOf]; rfl
  have hmap : (bayOf t n).map shareless = some (shareless x) := by rw [← hfind, h, hfind, hx]; rfl
  exact Option.map_eq_some_iff.mp hmap

theorem seats_raiseTrigger (s : State) (seq severity : Nat) : seats (raiseTrigger s seq severity) = seats s := rfl
theorem seats_settleSegments (s : State) : seats (settleSegments s) = seats s := rfl

theorem seats_retireUid (s : State) (uid : Nat) : seats (retireUid s uid) = seats s := by
  unfold retireUid
  split <;> rfl

theorem seats_takeSpare (s : State) (p bay : Nat) : seats (takeSpare s p bay) = seats s := by
  unfold takeSpare
  dsimp only
  split
  · rfl
  · rename_i b _
    refine Prod.ext ?_ rfl
    simp only [seats, updBay, List.map_map]
    refine List.map_congr_left fun x _ => ?_
    dsimp only [Function.comp]
    split <;> rfl

theorem seats_drawLost (n : Nat) (s : State) : seats (drawLost s n) = seats s := by
  have hseal : ∀ (t : State) (p : Nat), seats (sealIfSpent t p) = seats t := fun t p => seats_of_rest (rest_sealIfSpent rfl t p)
  induction n generalizing s with
  | zero => rfl
  | succ n ih =>
    unfold drawLost
    split
    · split
      · rfl
      · rw [ih, hseal, seats_takeSpare]
    · rfl

theorem seats_settleLoss (s : State) : seats (settleLoss s) = seats s := by simp only [settleLoss, seats_drawLost, seats_settleSegments]

theorem seats_settleAlert (s : State) : seats (settleAlert s) = seats s := by
  unfold settleAlert
  dsimp only
  repeat' split
  all_goals rfl

theorem seats_settleLowered (s : State) (p : Nat) : seats (settleLowered s p) = seats s := by
  unfold settleLowered
  dsimp only
  split <;> rfl

theorem seats_recomputeHorizon (s : State) : seats (recomputeHorizon s) = seats s := by
  unfold recomputeHorizon
  rw [view_foldl (view := seats) seats_settleLowered, seats_settleAlert]
  rfl

/-! ## A member failure's consequences (R346 to R348) -/

theorem steady_sizeTier (s : State) : steady (sizeTier s) = steady s := by
  unfold sizeTier
  dsimp only
  split
  · rfl
  · refine (steady_fold _ _ (fun t f => ?_) _).trans rfl
    split
    · rfl
    · exact steady_writeTile ..

theorem steady_growPool (s : State) : steady (growPool s) = steady s := by
  unfold growPool
  dsimp only
  split
  · rw [steady_sizeTier]; rfl
  · rfl

theorem seats_handleOpen (s : State) (k : SetRec) (col : Nat) : seats (handleOpen s k col) = seats s := by
  have hclose : ∀ (t : State) (l a : Option Nat), seats (closeSet t k.seq l a) = seats t := fun t l a => seats_of_steady (steady_closeSet ..)
  unfold handleOpen
  split
  · rw [hclose, view_foldl (view := seats) (fun t r => seats_of_steady (steady_fillStandIn ..)), seats_of_steady (steady_openStandIn ..),
      seats_of_steady (steady_padOpenRow ..)]
  · dsimp only
    split
    · rw [seats_raiseTrigger, hclose]
    · rw [hclose]
  · rfl

theorem seats_afterMemberFail (s : State) : seats (afterMemberFail s) = seats s := by
  have hcancel : ∀ t : State, seats (cancelActivation t) = seats t := fun t => seats_of_rest (rest_cancelActivation rfl t)
  unfold afterMemberFail
  dsimp only
  rw [seats_of_steady (steady_settleFull _), hcancel]
  refine Eq.trans (view_foldl (view := seats) ?_ _ _) ?_
  · intro t o
    split
    · rfl
    · split
      · rfl
      · split
        · rw [seats_of_steady (steady_finishSet ..), seats_handleOpen]
        · rfl
  · repeat' split
    all_goals rfl

/-! ## A bay that fails (R366) -/

theorem fails_setBaySt (s : State) (n : Nat) (st : BaySt) : (setBaySt s n st).media.fails = s.media.fails := by
  unfold setBaySt
  split
  · rfl
  · split
    · rfl
    · show (journal s _).media.fails = s.media.fails
      rw [media_journal]

theorem kf_setBaySt (s : State) (n : Nat) (st : BaySt) : (setBaySt s n st).kf = s.kf :=
  kf_of_rest (rest_setBaySt (L := [.raised, .media, .jrnl, .twin]) rfl s n st) rfl

theorem bayOf_recordFail (s : State) (b : Nat) (die : Option Nat) (n : Nat) : bayOf (recordFail s b die) n = bayOf s n :=
  bayOf_congr (congrArg Media.bays (media_journal ..)) n

theorem fails_recordFail (s : State) (b : Nat) (die : Option Nat) : ∃ f ∈ (recordFail s b die).media.fails, f.bay = b ∧ f.die = die :=
  ⟨_, List.mem_append_right _ (List.mem_singleton_self _), rfl, rfl⟩

theorem bayOf_stopBayDies {s : State} {n : Nat} {x : Bay} (hx : bayOf s n = some x) : bayOf (stopBayDies s n) n = some { x with rewrite := none } :=
  bayOf_updBay (f := fun y => { y with rewrite := none }) hx fun _ => rfl

/-- A bay powered off and write-protected, its share gone (R366). -/
def powerOff (y : Bay) : Bay := { y with connected := false, pwrEn := false, writable := false, spareLeft := 0, cancelled := false }

/-- What a bay's failure leaves of the positions is set before the tables are settled: the record of a member, the dies and the power, the state. -/
theorem seats_bayFail {s : State} {n : Nat} {x : Bay} (hx : bayOf s n = some x) :
    seats (bayFail s n) =
      seats (setBaySt (updBay (stopBayDies (if x.st == .member || x.st == .evacuating then recordFail s n none else s) n) n powerOff) n .failed) := by
  unfold bayFail
  simp only [hx]
  split
  · rw [seats_afterMemberFail, seats_settleLoss, seats_retireUid]; rfl
  · rw [seats_settleLoss, seats_retireUid]; rfl

theorem bayOf_bayFail {s : State} {n : Nat} {x : Bay} (hx : bayOf s n = some x) :
    ∃ y, bayOf (bayFail s n) n = some y ∧ y.st = .failed ∧ (y.connected = false ∧ y.pwrEn = false ∧ y.writable = false) ∧
      y.present = x.present ∧ y.faultLow = x.faultLow := by
  have hrecord : bayOf (if x.st == .member || x.st == .evacuating then recordFail s n none else s) n = some x := by
    split
    · rw [bayOf_recordFail, hx]
    · exact hx
  have hoff := bayOf_updBay (f := powerOff) (bayOf_stopBayDies hrecord) fun _ => rfl
  obtain ⟨a, hfailed⟩ := bayOf_setBaySt hoff .failed
  obtain ⟨y, hy, hsame⟩ := bayOf_of_seats (seats_bayFail hx) hfailed
  exact ⟨y, hy, field_of_shareless hsame Bay.st,
    ⟨field_of_shareless hsame Bay.connected, field_of_shareless hsame Bay.pwrEn, field_of_shareless hsame Bay.writable⟩,
    field_of_shareless hsame Bay.present, field_of_shareless hsame Bay.faultLow⟩

/-- A member that fails is recorded as a whole bay (R346). -/
theorem fails_bayFail {s : State} {n : Nat} {x : Bay} (hx : bayOf s n = some x) (hm : x.st = .member ∨ x.st = .evacuating) :
    ∃ f ∈ (bayFail s n).media.fails, f.bay = n ∧ f.die = none := by
  have hmember : (x.st == .member || x.st == .evacuating) = true := by simpa using hm
  have hfails := fails_of_seats (seats_bayFail hx)
  rw [fails_setBaySt, if_pos hmember] at hfails
  rw [hfails]
  exact fails_recordFail s n none

theorem bayOf_recomputeHorizon {s : State} {n : Nat} {x : Bay} (hx : bayOf s n = some x) :
    ∃ y, bayOf (recomputeHorizon s) n = some y ∧ shareless y = shareless x := bayOf_of_seats (seats_recomputeHorizon s) hx

/-! ## A carrier seated, removed or failing (R365, R366) -/

theorem next_settled {s : State} {n : Nat} {y : Bay} (hy : bayOf s n = some y) : bayOf (endCycle s) n = some y :=
  (bayOf_congr (congrArg Media.bays (endCycle_media s)) n).trans hy

theorem bayPresence_eq {s : State} {n : Nat} {x : Bay} (hx : bayOf s n = some x) (hp : x.present = false)
    (hst : x.st = .absent ∨ x.st = .released ∨ x.st = .failed) (v : BaySurvey) :
    exec (.bayPresenceAccepted n v) s =
      let t := updBay s n (fun y => { y with present := true })
      if !isOwner s || !s.kf.imgValid then settled t
      else
        let t := setBaySt t n .inserted
        if v.faultLow then settled (bayFail (updBay t n (fun y => { y with faultLow := true })) n)
        else
          let t := updBay t n (readBay t v)
          settled (if uidOf t n != x.uid then askCkpt t .bayChange else t) := by
  have hempty : ((x.present && x.st != .absent) || !(x.st == .absent || x.st == .released || x.st == .failed)) = false := by
    rcases hst with h | h | h <;> simp [hp, h]
  exact (show exec (.bayPresenceAccepted n v) s = execBayPresenceAccepted n v s from rfl).trans (by simp only [execBayPresenceAccepted, hx, hempty]; rfl)

theorem bay_seated_without_image {s : State} {n : Nat} {x : Bay} (hx : bayOf s n = some x) (himg : s.kf.imgValid = false) (hp : x.present = false)
    (hst : x.st = .absent ∨ x.st = .released ∨ x.st = .failed) (v : BaySurvey) :
    ∃ t, exec (.bayPresenceAccepted n v) s = .next t ∧ bayOf t n = some { x with present := true } := by
  refine ⟨_, (bayPresence_eq hx hp hst v).trans (if_pos (by simp [himg])), next_settled ?_⟩
  exact bayOf_updBay (f := fun y => { y with present := true }) hx fun _ => rfl

theorem readBay_bay (s : State) (v : BaySurvey) (x : Bay) : (readBay s v x).bay = x.bay := by
  unfold readBay
  dsimp only
  split <;> rfl

/-- A read bay reports what its survey found (R365). -/
theorem readBay_survey (s : State) (v : BaySurvey) (x : Bay) :
    (readBay s v x).st = x.st ∧ (readBay s v x).present = x.present ∧ (readBay s v x).pwrEn = true ∧ (readBay s v x).connected = true ∧
      (readBay s v x).writable = false ∧ (readBay s v x).profile = recognise s v.dies ∧ (readBay s v x).dies = v.dies.map Prod.fst := by
  unfold readBay
  dsimp only
  split <;> exact ⟨rfl, rfl, rfl, rfl, rfl, rfl, rfl⟩

theorem readBay_info {s : State} {v : BaySurvey} {x : Bay} {d : DescriptorInfo} (h : surveyInfo x.bay v = some d) :
    (readBay s v x).uid = d.uid ∧ (readBay s v x).foreign = !knownBinding s d.bindingHash := by
  unfold readBay
  simp only [h, and_self]

theorem recognise_congr {s t : State} (h : t.kf = s.kf) : recognise t = recognise s := by
  unfold recognise profileNums profileOf
  rw [h]

theorem knownBinding_congr {s t : State} (h : t.kf = s.kf) : knownBinding t = knownBinding s := by
  unfold knownBinding
  rw [h]

theorem bay_seated_with_image {s : State} {n : Nat} {x : Bay} (hx : bayOf s n = some x) (howner : isOwner s = true) (himg : s.kf.imgValid = true)
    (hp : x.present = false) (hst : x.st = .absent ∨ x.st = .released ∨ x.st = .failed) (v : BaySurvey) :
    ∃ t y, exec (.bayPresenceAccepted n v) s = .next t ∧ bayOf t n = some y ∧ y.present = true ∧
      (v.faultLow = true → y.st = .failed ∧ y.connected = false ∧ y.pwrEn = false ∧ y.writable = false) ∧
      (v.faultLow = false → y.st = .inserted ∧ y.pwrEn = true ∧ y.connected = true ∧ y.writable = false ∧ y.profile = recognise s v.dies ∧
        y.dies = v.dies.map Prod.fst ∧ ∀ d, surveyInfo n v = some d → y.uid = d.uid ∧ y.foreign = !knownBinding s d.bindingHash) := by
  have hready : (!isOwner s || !s.kf.imgValid) = false := by simp [howner, himg]
  have hseen := bayOf_updBay (f := fun y => { y with present := true }) hx fun _ => rfl
  obtain ⟨a, hinserted⟩ := bayOf_setBaySt hseen .inserted
  generalize hu : setBaySt (updBay s n fun y => { y with present := true }) n .inserted = u at hinserted
  have hkf : u.kf = s.kf := hu ▸ kf_setBaySt ..
  have hexec := bayPresence_eq hx hp hst v
  simp only [hready, hu] at hexec
  cases hfault : v.faultLow with
  | true =>
    have hlow := bayOf_updBay (f := fun y => { y with faultLow := true }) hinserted fun _ => rfl
    obtain ⟨y, hy, hfailed, hoff, hpresent, -⟩ := bayOf_bayFail hlow
    rw [hfault] at hexec
    exact ⟨_, y, hexec, next_settled hy, hpresent, fun _ => ⟨hfailed, hoff⟩, nofun⟩
  | false =>
    have hread := bayOf_updBay (f := readBay u v) hinserted (readBay_bay u v)
    rw [hfault] at hexec
    obtain ⟨hs, hpr, hpw, hco, hwr, hprof, hdies⟩ := readBay_survey u v { x with present := true, st := .inserted, stateAet := a }
    refine ⟨_, _, hexec, next_settled (y := readBay u v { x with present := true, st := .inserted, stateAet := a }) ?_, hpr, nofun,
      fun _ => ⟨hs, hpw, hco, hwr, hprof.trans (by rw [recognise_congr hkf]), hdies, fun d hd => ?_⟩⟩
    · split <;> exact hread
    · have hinfo := readBay_info (s := u) (x := { x with present := true, st := .inserted, stateAet := a }) (bay_of_bayOf hx ▸ hd)
      rwa [knownBinding_congr hkf] at hinfo

theorem bay_removed {s : State} {n : Nat} {x : Bay} (hx : bayOf s n = some x) (howner : isOwner s = true) (hp : x.present = true) :
    ∃ t y, exec (.bayRemoval n) s = .next t ∧ bayOf t n = some y ∧ y.present = false ∧
      (y.connected = false ∧ y.pwrEn = false ∧ y.writable = false) ∧
      y.st = (if x.st = .member ∨ x.st = .evacuating ∨ x.st = .failed then .failed else .absent) ∧
      ((x.st = .member ∨ x.st = .evacuating) → ∃ f ∈ t.media.fails, f.bay = n ∧ f.die = none) := by
  have hexec : exec (.bayRemoval n) s = execBayRemoval n s := rfl
  unfold execBayRemoval at hexec
  simp only [hx, hp, howner] at hexec
  by_cases hm : x.st = .member ∨ x.st = .evacuating
  · have hmember : (x.st == .member || x.st == .evacuating) = true := by simpa using hm
    obtain ⟨y, hy, hfailed, ⟨hc, hpw, hw⟩, -, -⟩ := bayOf_bayFail hx
    obtain ⟨z, hz, hsame⟩ := bayOf_recomputeHorizon hy
    have hgone := bayOf_updBay (f := fun y => { y with present := false, faultLow := false }) hz fun _ => rfl
    simp only [hmember, if_true] at hexec
    refine ⟨_, _, hexec, next_settled hgone, rfl,
      ⟨(field_of_shareless hsame Bay.connected).trans hc, (field_of_shareless hsame Bay.pwrEn).trans hpw, (field_of_shareless hsame Bay.writable).trans hw⟩,
      ?_, fun _ => ?_⟩
    · rw [if_pos (by tauto)]
      exact (field_of_shareless hsame Bay.st).trans hfailed
    · rw [endCycle_media]
      obtain ⟨f, hf, hbay, hdie⟩ := fails_bayFail hx hm
      exact ⟨f, (fails_of_seats (seats_recomputeHorizon (bayFail s n))).symm ▸ hf, hbay, hdie⟩
  · have hmember : (x.st == .member || x.st == .evacuating) = false := by simpa using hm
    have hstop := bayOf_stopBayDies hx
    have hoff := bayOf_updBay (f := fun y => { y with connected := false, pwrEn := false, writable := false, spareLeft := 0 }) hstop fun _ => rfl
    by_cases hfailed : x.st = .failed
    · have hstay : (x.st == .failed) = true := by simpa using hfailed
      have hgone := bayOf_updBay (f := fun y => { y with present := false, faultLow := false }) hoff fun _ => rfl
      simp only [hmember, hstay] at hexec
      exact ⟨_, _, hexec, next_settled hgone, rfl, ⟨rfl, rfl, rfl⟩, by simp [hfailed], fun h => absurd h hm⟩
    · have hleaves : (x.st == .failed) = false := by simpa using hfailed
      obtain ⟨a, habsent⟩ := bayOf_setBaySt hoff .absent
      have hbare := bayOf_updBay (f := fun y => { y with uid := 0, profile := none, dies := [], pats := [] }) habsent fun _ => rfl
      obtain ⟨y, hy, hclear, hst⟩ : ∃ y, _ = some y ∧ (y.connected = false ∧ y.pwrEn = false ∧ y.writable = false) ∧ y.st = .absent :=
        ⟨_, hbare, ⟨rfl, rfl, rfl⟩, rfl⟩
      simp only [hmember, hleaves, Bool.false_eq_true, if_false] at hexec
      obtain ⟨u, hu, hgone⟩ : ∃ u, exec (.bayRemoval n) s = settled (updBay u n fun y => { y with present := false, faultLow := false }) ∧
          bayOf u n = some y := ⟨_, hexec, by split <;> exact hy⟩
      have hunseated := bayOf_updBay (f := fun y => { y with present := false, faultLow := false }) hgone fun _ => rfl
      refine ⟨_, _, hu, next_settled hunseated, rfl, hclear, ?_, fun h => absurd h hm⟩
      rw [if_neg (by tauto)]
      exact hst

theorem bay_faulted {s : State} {n : Nat} {x : Bay} (hx : bayOf s n = some x) (howner : isOwner s = true) (hp : x.present = true)
    (hf : x.st ≠ .failed) (ha : x.st ≠ .absent) :
    ∃ t y, exec (.bayFault n) s = .next t ∧ bayOf t n = some y ∧ y.st = .failed ∧ y.faultLow = true ∧
      y.connected = false ∧ y.pwrEn = false ∧ y.writable = false := by
  have hlive : (!x.present || !isOwner s || x.st == .failed || x.st == .absent) = false := by simp [hp, howner, hf, ha]
  have hexec : exec (.bayFault n) s = execBayFault n s := rfl
  unfold execBayFault at hexec
  simp only [hx, hlive] at hexec
  have hlow := bayOf_updBay (f := fun y => { y with faultLow := true }) hx fun _ => rfl
  obtain ⟨y, hy, hfailed, ⟨hc, hpw, hw⟩, -, hfault⟩ := bayOf_bayFail hlow
  obtain ⟨z, hz, hsame⟩ := bayOf_recomputeHorizon hy
  exact ⟨_, z, hexec, next_settled hz, (field_of_shareless hsame Bay.st).trans hfailed, (field_of_shareless hsame Bay.faultLow).trans hfault,
    (field_of_shareless hsame Bay.connected).trans hc, (field_of_shareless hsame Bay.pwrEn).trans hpw, (field_of_shareless hsame Bay.writable).trans hw⟩

/-! ## A bay that is commissioned (R315, R367, R370) -/

theorem seats_growPool (s : State) : seats (growPool s) = seats s := seats_of_steady (steady_growPool s)

/-- A bay that joins is a MEMBER and keeps its record (R370). -/
theorem bayOf_joinMember {s : State} {n : Nat} {x : Bay} (hx : bayOf s n = some x) :
    ∃ y, bayOf (joinMember s n) n = some y ∧ y.st = .member ∧ y.uid = x.uid ∧ y.tc = x.tc ∧ y.defects = x.defects ∧ y.createdAet = x.createdAet := by
  obtain ⟨a, hmember⟩ := bayOf_setBaySt hx .member
  obtain ⟨y, hy, hsame⟩ := bayOf_of_seats (seats_growPool (setBaySt s n .member)) hmember
  have hkept : y.st = .member ∧ y.uid = x.uid ∧ y.tc = x.tc ∧ y.defects = x.defects ∧ y.createdAet = x.createdAet :=
    ⟨field_of_shareless hsame Bay.st, field_of_shareless hsame Bay.uid, field_of_shareless hsame Bay.tc, field_of_shareless hsame Bay.defects,
      field_of_shareless hsame Bay.createdAet⟩
  unfold joinMember
  dsimp only
  split
  · rename_i f z _ hz
    obtain rfl : z = y := Option.some.inj (hz.symm.trans hy)
    exact ⟨_, bayOf_updBay (f := fun y => { y with u0 := _, spareLeft := _ }) hy fun _ => rfl, hkept⟩
  · exact ⟨y, hy, hkept⟩

theorem media_logBay_bays (s : State) (b : Bay) : (logBay s b).media.bays = s.media.bays := by
  unfold logBay
  split <;> rfl

/-- The commissioned bay's new record (R315, R367). -/
theorem bayOf_stampBay {s : State} {n : Nat} {x : Bay} (hx : bayOf s n = some x) (r : CommissionResult) :
    ∃ y, bayOf (stampBay s n r) n = some y ∧ y.st = x.st ∧ y.uid = newUid s ∧ y.tc = 0 ∧ y.defects = r.defects ∧ y.createdAet = s.cad.aet := by
  unfold stampBay
  dsimp only
  split
  · rename_i y hy
    have hstamped := hy.symm.trans (bayOf_updBay (s := drawFree s) hx fun _ => rfl)
    refine ⟨_, (bayOf_congr (media_logBay_bays ..) n).trans (bayOf_updBay hy fun _ => rfl), ?_⟩
    obtain rfl := Option.some.inj hstamped
    exact ⟨rfl, rfl, rfl, rfl, rfl⟩
  · rename_i hnone
    rw [bayOf_updBay (s := drawFree s) hx] at hnone
    · cases hnone
    · exact fun _ => rfl

theorem bay_commission_failed {s : State} {n : Nat} {x : Bay} (hx : bayOf s n = some x) (hst : x.st = .commissioning) (hstop : s.jrnl.stopFrom = none)
    {r : CommissionResult} (hlisted : x.dies.length < 2 * r.diesListed) :
    ∃ t y, exec (.commissioningDone n r) s = .next t ∧ bayOf t n = some y ∧ y.st = .failed ∧
      y.connected = false ∧ y.pwrEn = false ∧ y.writable = false := by
  have hexec : exec (.commissioningDone n r) s = execCommissioningDone n r s := rfl
  unfold execCommissioningDone at hexec
  simp only [hx, hst, hstop, hlisted] at hexec
  obtain ⟨y, hy, hfailed, hoff, -, -⟩ := bayOf_bayFail hx
  exact ⟨_, y, hexec, next_settled hy, hfailed, hoff⟩

theorem seats_settleSeal (s : State) : seats (settleSeal s) = seats s := seats_of_media (media_of_rest (rest_settleSeal (L := [.cond, .condFrom]) rfl s) rfl)

theorem seats_settleJoin (s : State) : seats (settleFull (settleSeal (recomputeHorizon s))) = seats s := by
  rw [seats_of_steady (steady_settleFull _), seats_settleSeal, seats_recomputeHorizon]

theorem bay_commissioned {s : State} {n : Nat} {x : Bay} (hx : bayOf s n = some x) (hst : x.st = .commissioning) (hstop : s.jrnl.stopFrom = none)
    {r : CommissionResult} (hlisted : 2 * r.diesListed ≤ x.dies.length) (hgood : r.descriptorsGood = true) :
    ∃ t y, exec (.commissioningDone n r) s = .next t ∧ bayOf t n = some y ∧ y.st = (if x.asSpare then .spare else .member) ∧
      y.uid = newUid s ∧ y.tc = 0 ∧ y.defects = r.defects ∧ y.createdAet = s.cad.aet := by
  have hexec : exec (.commissioningDone n r) s = execCommissioningDone n r s := rfl
  unfold execCommissioningDone at hexec
  simp only [hx, hst, hstop, Nat.not_lt.mpr hlisted, hgood] at hexec
  obtain ⟨y, hy, -, huid, htc, hdef, hmade⟩ := bayOf_stampBay (s := clearBay s n) hx r
  have hasked : bayOf (askCkpt (stampBay (clearBay s n) n r) .bayChange) n = some y := hy
  cases hspare : x.asSpare with
  | true =>
    obtain ⟨a, hjoined⟩ := bayOf_setBaySt hasked .spare
    rw [hspare] at hexec
    exact ⟨_, _, hexec, next_settled hjoined, rfl, huid, htc, hdef, hmade⟩
  | false =>
    obtain ⟨z, hz, hmember, huid', htc', hdef', hmade'⟩ := bayOf_joinMember hasked
    have hfresh := bayOf_updBay (f := fun y => { y with fresh := true }) hz fun _ => rfl
    obtain ⟨w, hw, hsame⟩ := bayOf_of_seats (seats_settleJoin _) hfresh
    rw [hspare] at hexec
    exact ⟨_, w, hexec, next_settled hw, (field_of_shareless hsame Bay.st).trans hmember, (field_of_shareless hsame Bay.uid).trans (huid'.trans huid),
      (field_of_shareless hsame Bay.tc).trans (htc'.trans htc), (field_of_shareless hsame Bay.defects).trans (hdef'.trans hdef),
      (field_of_shareless hsame Bay.createdAet).trans (hmade'.trans hmade)⟩

/-- Settles O42: each event's new state is computed from the bay's position; the tables that follow a failure or a join leave the positions as they are,
but for a share that a loss of capacity draws. -/
theorem baysAreSeatedAndFail : Obligations.BaysAreSeatedAndFail := by
  intro s n x hx
  refine ⟨fun v _ himg hp hst => bay_seated_without_image hx himg hp hst v, fun v howner himg hp hst => bay_seated_with_image hx howner himg hp hst v,
    fun howner hp => bay_removed hx howner hp, fun howner hp hf ha => bay_faulted hx howner hp hf ha,
    fun r hst hstop => ⟨fun hlisted => bay_commission_failed hx hst hstop hlisted, fun hlisted hgood => bay_commissioned hx hst hstop hlisted hgood⟩⟩

end Sys2Proof.Proofs
end

section
/-! PROOFS. Die operations (R37, R72, R234, R294): what starting an operation leaves of a die and of the page records, and what the end of a suspend, an
erase and a temperature sample makes of them. -/
namespace Sys2Proof.Proofs
open Sys2Proof Sys2Proof.Machine Sys2Proof.Laws

/-- What a list holds under a key once a record is put in the place of those with its own, or at the end. -/
theorem find_put {α κ : Type} [DecidableEq κ] (key : α → κ) (l : List α) {r : α} {kr : κ} (hr : key r = kr) (k : κ) :
    (if l.any (fun x => key x == kr) then l.map (fun x => if key x == kr then r else x) else l ++ [r]).find? (fun x => key x == k) =
      if kr = k then some r else l.find? (fun x => key x == k) := by
  have hkey : (fun x => key x == k) ∘ (fun x => if key x == kr then r else x) = fun x => key x == k := by
    funext x
    by_cases hx : key x = kr <;> simp [hx, hr]
  split
  · rename_i hknown
    rw [List.find?_map, hkey]
    cases hfound : l.find? (fun x => key x == k) with
    | none =>
      obtain ⟨x, hx, hxr⟩ := List.any_eq_true.mp hknown
      have hne : kr ≠ k := by
        rintro rfl
        exact List.find?_eq_none.mp hfound x hx hxr
      simp [hne]
    | some x =>
      have hxk : key x = k := by simpa using List.find?_some hfound
      by_cases h : kr = k
      · simp [hxk, h]
      · simp [hxk, h, Ne.symm h]
  · rename_i hnew
    rw [List.find?_append]
    by_cases h : kr = k
    · subst h
      rw [List.find?_eq_none.mpr (by simpa using hnew)]
      simp [hr]
    · simp [hr, h]

/-! ## A die after an operation starts -/

theorem dieStOf_countOp (s : State) (op : DieOp) (die : DieId) : dieStOf (countOp s op) die = dieStOf s die :=
  dieStOf_of (congrArg Media.dies (media_of_rest (rest_countOp (L := but .media) rfl s op) rfl)) die

theorem dieStOf_updBay (s : State) (b : Nat) (f : Bay → Bay) (die : DieId) : dieStOf (updBay s b f) die = dieStOf s die := rfl

theorem dieStOf_updDie_some {s : State} {die : DieId} {d : DieSt} (hd : dieStOf s die = some d) {f : DieSt → DieSt} (hf : (f d).id = die) :
    dieStOf (updDie s die f) die = some (f d) := by
  rw [dieStOf_updDie s die f (by rw [hd]; exact hf), hd, Option.getD_some]

theorem dieStOf_updDie_ne {s : State} {d die : DieId} (hne : die ≠ d) {f : DieSt → DieSt} (hf : (f ((dieStOf s d).getD (DieSt.fresh d))).id = d) :
    dieStOf (updDie s d f) die = dieStOf s die := by
  exact (find_put DieSt.id s.media.dies hf die).trans (if_neg hne.symm)

/-- A die that runs nothing is given an operation; any other stays. -/
theorem dieStOf_updDie_idle {s : State} {id die : DieId} {x d : DieSt} {f : DieSt → DieSt} (hx : dieStOf s id = some x) (hidle : x.op.isSome = false)
    (hf : (f x).id = id ∧ (f x).sample = x.sample) (hd : dieStOf s die = some d) :
    ∃ e, dieStOf (updDie s id f) die = some e ∧ e.sample = d.sample ∧ (d.op.isSome = true → e = d) := by
  obtain ⟨hid, hsample⟩ := hf
  have hfid : (f ((dieStOf s id).getD (DieSt.fresh id))).id = id := by rwa [hx]
  by_cases hsame : die = id
  · subst hsame
    obtain rfl : x = d := Option.some.inj (hx.symm.trans hd)
    exact ⟨f x, dieStOf_updDie_some hx hid, hsample, fun h => absurd h (by simp [hidle])⟩
  · exact ⟨d, (dieStOf_updDie_ne hsame hfid).trans hd, rfl, fun _ => rfl⟩

theorem nextOp_sample {d d' : DieSt} {o : DieOp} (h : nextOp d = some (o, d')) : d'.sample = d.sample := by
  unfold nextOp at h
  repeat' split at h
  all_goals cases h <;> rfl

/-- An operation that starts on another die, or on this one where it runs none, leaves its sample and a running operation. -/
theorem dieStOf_startDie {s : State} {die : DieId} {d : DieSt} (hd : dieStOf s die = some d) (id : DieId) :
    ∃ e, dieStOf (startDie s id) die = some e ∧ e.sample = d.sample ∧ (d.op.isSome = true → e = d) := by
  have hstay : ∃ e, dieStOf s die = some e ∧ e.sample = d.sample ∧ (d.op.isSome = true → e = d) := ⟨d, hd, rfl, fun _ => rfl⟩
  unfold startDie
  split
  · exact hstay
  · rename_i x hx
    have hxid : x.id = id := by simpa using List.find?_some hx
    split
    · exact hstay
    · rename_i hidle
      have hnone : x.op.isSome = false := by
        cases hop : x.op.isSome
        · rfl
        · simp [hop] at hidle
      split
      · exact hstay
      · rename_i op x' hnext
        have hx' : x'.id = id := (nextOp_id hnext).trans hxid
        split
        · exact hstay
        · split
          · exact dieStOf_updDie_idle hx hnone ⟨hxid, rfl⟩ hd
          · have hsample := nextOp_sample hnext
            simp only [dieStOf_countOp]
            exact dieStOf_updDie_idle (f := fun _ => { x' with op := some { op with issued := s.now } }) hx hnone ⟨hx', hsample⟩ hd

theorem dieStOf_foldl_startDie (waits : List (DieOp × DieId)) {s : State} {die : DieId} {d : DieSt} (hd : dieStOf s die = some d) :
    ∃ e, dieStOf (waits.foldl (fun t w => startDie t w.2) s) die = some e ∧ e.sample = d.sample ∧ (d.op.isSome = true → e = d) := by
  induction waits generalizing s d with
  | nil => exact ⟨d, hd, rfl, fun _ => rfl⟩
  | cons w waits ih =>
    obtain ⟨e, he, hsample, hrun⟩ := dieStOf_startDie hd w.2
    obtain ⟨e', he', hsample', hrun'⟩ := ih he
    refine ⟨e', he', hsample'.trans hsample, fun h => ?_⟩
    obtain rfl := hrun h
    exact hrun' h

theorem dieStOf_startChannel {s : State} {die : DieId} {d : DieSt} (hd : dieStOf s die = some d) (id : DieId) :
    ∃ e, dieStOf (startChannel s id) die = some e ∧ e.sample = d.sample ∧ (d.op.isSome = true → e = d) := dieStOf_foldl_startDie _ hd

theorem dieStOf_settled {s : State} {die : DieId} {d : DieSt} (hd : dieStOf s die = some d) : dieStOf (endCycle (settleFull s)) die = some d := by
  have hfull : (settleFull s).media.dies = s.media.dies := by
    unfold settleFull
    dsimp only
    repeat' split
    all_goals rfl
  exact (dieStOf_of ((congrArg Media.dies (endCycle_media _)).trans hfull) die).trans hd

/-! ## The page records after an operation starts -/

theorem pages_countOp (s : State) (op : DieOp) : (countOp s op).media.pages = s.media.pages :=
  congrArg Media.pages (media_of_rest (rest_countOp (L := but .media) rfl s op) rfl)

theorem pages_startDie (s : State) (id : DieId) : (startDie s id).media.pages = s.media.pages := by
  unfold startDie
  repeat' split
  · rfl
  · rfl
  · rfl
  · rfl
  · rfl
  · exact pages_countOp ..

theorem pages_startChannel (s : State) (id : DieId) : (startChannel s id).media.pages = s.media.pages :=
  view_foldl (view := fun t => t.media.pages) (fun t _ => pages_startDie t _) _ s

theorem pages_enqueueOp (s : State) (op : DieOp) : (enqueueOp s op).media.pages = s.media.pages := by
  unfold enqueueOp
  dsimp only
  split
  · rfl
  · exact pages_startDie ..

theorem pages_issueOp (s : State) (op : DieOp) : (issueOp s op).media.pages = s.media.pages := by
  unfold issueOp
  split
  · exact pages_enqueueOp ..
  · rfl

theorem pages_settled (s : State) : (endCycle (settleFull s)).media.pages = s.media.pages := by
  rw [endCycle_media]
  unfold settleFull
  dsimp only
  repeat' split
  all_goals rfl

theorem map_settled (s : State) (die : DieId) : (endCycle (settleFull (startChannel s die))).map = s.map := by
  rw [endCycle_map, map_of_rest (rest_settleFull (L := [.media, .ctr]) rfl _) rfl, map_of_rest (rest_startChannel (L := [.media, .ctr]) rfl ..) rfl]

theorem cad_settled (s : State) (die : DieId) : (endCycle (settleFull (startChannel s die))).cad = s.cad := by
  rw [endCycle_cad, cad_of_rest (rest_settleFull (L := [.media, .ctr]) rfl _) rfl, cad_of_rest (rest_startChannel (L := [.media, .ctr]) rfl ..) rfl]

/-! ## A read suspends a program or erase (R234) -/

theorem readSuspend_suspends {s : State} {die : DieId} {cyc : Nat} {d : DieSt} {op r : DieOp} (hcyc : cyc ≤ s.now) (hstop : s.jrnl.stopFrom = none)
    (hd : dieStOf s die = some d) (hop : d.op = some op) (hread : d.queue.find? (fun o => o.who == 0) = some r) (hseq : op.seqNo = 3 ∨ op.seqNo = 4)
    (hfour : d.suspends < 4) (hleast : op.issued + 1000 * ((bayProfile s die.bay).map (·.suspendMin)).getD 0 ≤ s.now) :
    ∃ t e, exec (.readSuspend die cyc) s = .next t ∧ dieStOf t die = some e ∧ e.op = some (suspendOp op) ∧ e.suspended = some op ∧
      e.queue = d.queue ∧ e.suspends = d.suspends + 1 := by
  have hkind : (op.seqNo != 3 && op.seqNo != 4) = false := by rcases hseq with h | h <;> simp [h]
  have hmay : ((op.seqNo != 3 && op.seqNo != 4) || decide (4 ≤ d.suspends) ||
      decide (s.now < op.issued + 1000 * ((bayProfile s die.bay).map (·.suspendMin)).getD 0) || s.jrnl.stopFrom.isSome) = false := by
    simp [hkind, hstop, hfour, hleast]
  have hexec : exec (.readSuspend die cyc) s = execReadSuspend die cyc s := rfl
  simp only [execReadSuspend, advanceTo_past hcyc, hd, hop, hread, hmay, Bool.false_eq_true, if_false] at hexec
  have hid : d.id = die := by simpa using List.find?_some hd
  have hsuspended := dieStOf_updDie_some (f := fun d => { d with op := some (suspendOp op), suspended := some op, suspends := d.suspends + 1 }) hd hid
  exact ⟨_, _, hexec, (dieStOf_of (congrArg Media.dies (media_of_rest (rest_countEvent (L := but .media) rfl ..) rfl)) die).trans hsuspended, rfl, rfl, rfl, rfl⟩

/-! ## A block erased (R37) -/

theorem blkOf_congr {s t : State} (h : t.map = s.map) (m : Madr) : blkOf t m = blkOf s m := by
  unfold blkOf
  rw [h]

theorem addr_imgBlk (i : MapImg) (b : Madr) : (imgBlk i b).addr = b := by
  unfold imgBlk
  cases hfound : i.blocks.find? (fun x => x.addr == b) with
  | none => rfl
  | some x => simpa using List.find?_some hfound

theorem find_putBlk (l : List BlockRec) (r : BlockRec) : (putBlk l r).find? (fun x => x.addr == r.addr) = some r :=
  (find_put BlockRec.addr l rfl r.addr).trans (if_pos rfl)

theorem blkOf_erased {s : State} (hstop : s.jrnl.stopFrom = none) (m : Madr) (pe : Nat) :
    (blkOf (commitRec s (.erased (blockOf m) pe)) m).st = .erased ∧ (blkOf (commitRec s (.erased (blockOf m) pe)) m).pe = pe := by
  have hmap : (journal s (.erased (blockOf m) pe)).map = s.map := map_of_rest (rest_journal (L := [.jrnl, .twin]) rfl ..) rfl
  have hfound := find_putBlk s.map.blocks { imgBlk s.map (blockOf m) with st := .erased, released := false, pe := pe }
  simp only [addr_imgBlk] at hfound
  have hblk : blkOf (commitRec s (.erased (blockOf m) pe)) m = { imgBlk s.map (blockOf m) with st := .erased, released := false, pe := pe } := by
    unfold blkOf commitRec
    simp only [hstop, Option.isSome_none, Bool.false_eq_true, if_false, updMap_map, hmap, applyRec, dropEmptySets, updImgBlk, addr_imgBlk, hfound, Option.getD_some]
  rw [hblk]
  exact ⟨rfl, rfl⟩

theorem blkOf_eraseDone {s : State} (hstop : s.jrnl.stopFrom = none) (m : Madr) :
    (blkOf (eraseDone s m) m).st = .erased ∧ (blkOf (eraseDone s m) m).pe = (blkOf s m).pe + 1 := by
  have hmap : (eraseDone s m).map = (commitRec s (.erased (blockOf m) ((blkOf s m).pe + 1))).map :=
    (map_of_rest (rest_settlePatrol (L := [.media]) rfl _) rfl : (settlePatrol _).map = _)
  rw [blkOf_congr hmap]
  exact blkOf_erased hstop m _

theorem pages_eraseDone (s : State) (m : Madr) : ∀ p ∈ (eraseDone s m).media.pages, blockOf p.addr ≠ blockOf m := by
  intro p hp
  simpa using (List.mem_filter.mp hp).2

theorem cad_eraseDone (s : State) (m : Madr) : (eraseDone s m).cad = s.cad := by
  have hpatrol : ∀ t, (settlePatrol t).cad = t.cad := fun t => cad_of_rest (rest_settlePatrol (L := [.media]) rfl t) rfl
  exact (hpatrol _).trans (cad_of_rest (rest_commitRec (L := but .cad) rfl ..) rfl)

/-! ## An operation that ends (R37, R72) -/

/-- The die after its operation has ended, its busy time charged (R72), before what ended is acted on. -/
def opEnded (s : State) (die : DieId) (op : DieOp) (busy : Nat) : State :=
  chargeEnd (countEvent (updDie s die (fun d => { d with op := none })) 0x13 die.bay busy) op busy

section
variable {s : State} {die : DieId} {d : DieSt} {op : DieOp} {busy : Nat}

theorem rest_opEnded : rest [.cad, .media, .ctr] (opEnded s die op busy) = rest [.cad, .media, .ctr] s := by
  rw [opEnded, rest_chargeEnd rfl, rest_countEvent rfl, rest_updDie rfl]

theorem media_opEnded : (opEnded s die op busy).media = (updDie s die (fun d => { d with op := none })).media :=
  (media_of_rest (rest_chargeEnd (L := but .media) rfl ..) rfl).trans (media_of_rest (rest_countEvent (L := but .media) rfl ..) rfl)

theorem dieStOf_opEnded (hd : dieStOf s die = some d) : dieStOf (opEnded s die op busy) die = some { d with op := none } := by
  have hid : d.id = die := by simpa using List.find?_some hd
  have hended := dieStOf_updDie_some (f := fun d => { d with op := none }) hd hid
  exact (dieStOf_of (congrArg Media.dies media_opEnded) die).trans hended

theorem bayProfile_opEnded {b : Nat} : bayProfile (opEnded s die op busy) b = bayProfile s b := by
  have hbays : (opEnded s die op busy).media.bays = s.media.bays := by rw [media_opEnded]; rfl
  have hkf : (opEnded s die op busy).kf = s.kf := kf_of_rest rest_opEnded rfl
  unfold bayProfile bayOf profileOf
  rw [hbays, hkf]

theorem reservedAt_opEnded (m : Madr) : reservedAt (opEnded s die op busy) m = reservedAt s m := by
  have hbays : (opEnded s die op busy).media.bays = s.media.bays := by rw [media_opEnded]; rfl
  unfold reservedAt bayOf
  simp only [bayProfile_opEnded, hbays]

/-- The charge is corrected by what the operation took beyond its type's time, in its own window or the next (R72). -/
theorem cad_opEnded {x : Nat} (hx : op.typical = some x) :
    (s.cad.windowDue = none → (opEnded s die op busy).cad.charged = s.cad.charged + (busy : Int) - (x : Int)) ∧
      (s.cad.windowDue.isSome = true → (opEnded s die op busy).cad.charged = s.cad.charged ∧
        (opEnded s die op busy).cad.chargedNext = s.cad.chargedNext + (busy : Int) - (x : Int)) := by
  have hcad : (countEvent (updDie s die (fun d => { d with op := none })) 0x13 die.bay busy).cad = s.cad :=
    cad_of_rest (rest_countEvent (L := but .cad) rfl ..) rfl
  unfold opEnded chargeEnd
  simp only [hx, updCad, hcad]
  constructor
  · intro hdue
    rw [if_neg (by simp [hdue])]
    exact (Int.add_sub_assoc ..).symm
  · intro hdue
    rw [if_pos hdue]
    exact ⟨rfl, (Int.add_sub_assoc ..).symm⟩

/-- What ends without a time-out is acted on, settles a suspend and lets the channel start what waits. -/
theorem sequenceEnd_eq (hd : dieStOf s die = some d) (hop : d.op = some op) {waits statuses : List Nat} {outcome : SeqOutcome}
    (ho : outcomeOf s die op waits statuses = outcome) (hgo : outcome ≠ .timeout) (raw : Nat) :
    exec (.sequenceEnd die waits statuses busy raw) s =
      .next (endCycle (settleFull (startChannel (settleSuspend (actOn (opEnded s die op busy) die op outcome raw) die op outcome) die))) := by
  have htime : (outcome == .timeout) = false := by simpa using hgo
  refine (show exec (.sequenceEnd die waits statuses busy raw) s = execSequenceEnd die waits statuses busy raw s from rfl).trans ?_
  simp only [execSequenceEnd, hd, hop, ho, htime, Option.bind_some, Bool.false_eq_true, if_false]
  rfl

/-- Sequence 7 lets the suspended operation run on (R234). -/
theorem suspend_resumed (hd : dieStOf s die = some d) (hop : d.op = some op) {waits statuses : List Nat} (hseq : op.seqNo = 7)
    (ho : outcomeOf s die op waits statuses = .done) {o : DieOp} (hsus : d.suspended = some o) (raw : Nat) :
    ∃ t e, exec (.sequenceEnd die waits statuses busy raw) s = .next t ∧ dieStOf t die = some e ∧ e.op = some { o with issued := s.now } ∧
      e.suspended = none := by
  have hid : d.id = die := by simpa using List.find?_some hd
  have hnow : (opEnded s die op busy).now = s.now := now_of_rest rest_opEnded rfl
  have hended := dieStOf_opEnded (op := op) (busy := busy) hd
  have hact : settleSuspend (actOn (opEnded s die op busy) die op .done raw) die op .done =
      updDie (opEnded s die op busy) die (fun d => { d with op := d.suspended.map (fun o => { o with issued := s.now }), suspended := none }) := by
    simp only [settleSuspend, actOn, hseq, hnow]
  have hon := dieStOf_updDie_some (f := fun d => { d with op := d.suspended.map (fun o => { o with issued := s.now }), suspended := none }) hended hid
  rw [← hact] at hon
  obtain ⟨e, he, -, hrun⟩ := dieStOf_startChannel hon die
  obtain rfl := hrun (by simp [hsus])
  exact ⟨_, _, sequenceEnd_eq hd hop ho nofun raw, dieStOf_settled he, by simp [hsus], rfl⟩

/-- A temperature sample is kept (R294). -/
theorem sample_kept (hd : dieStOf s die = some d) (hop : d.op = some op) {waits statuses : List Nat} (hseq : op.seqNo = 8)
    (ho : outcomeOf s die op waits statuses = .done) {f : Profile} (hf : bayProfile s die.bay = some f) (raw : Nat) :
    ∃ t e, exec (.sequenceEnd die waits statuses busy raw) s = .next t ∧ dieStOf t die = some e ∧ e.sample = some (s.now, dieTemp f raw) := by
  have hid : d.id = die := by simpa using List.find?_some hd
  have hnow : (opEnded s die op busy).now = s.now := now_of_rest rest_opEnded rfl
  have hprofile : bayProfile (opEnded s die op busy) die.bay = some f := hf ▸ bayProfile_opEnded
  have hended := dieStOf_opEnded (op := op) (busy := busy) hd
  obtain ⟨x, hx, hsample⟩ : ∃ x, dieStOf (settleSuspend (actOn (opEnded s die op busy) die op .done raw) die op .done) die = some x ∧
      x.sample = some (s.now, dieTemp f raw) := by
    simp only [settleSuspend, actOn, hseq, BEq.rfl, if_true, sampleDie, hprofile, hnow, dieStOf_updBay]
    exact ⟨_, dieStOf_updDie_some hended hid, rfl⟩
  obtain ⟨e, he, hsame, -⟩ := dieStOf_startChannel hx die
  exact ⟨_, e, sequenceEnd_eq hd hop ho nofun raw, dieStOf_settled he, hsame.trans hsample⟩

/-- An erase that ends leaves its block ERASED with one cycle more and no page record, and its charge corrected (R37, R72). -/
theorem erase_ended (hd : dieStOf s die = some d) (hop : d.op = some op) {waits statuses : List Nat} (hstop : s.jrnl.stopFrom = none) (hseq : op.seqNo = 4)
    (ho : outcomeOf s die op waits statuses = .done) (hfree : reservedAt s op.page = false) (raw : Nat) :
    ∃ t, exec (.sequenceEnd die waits statuses busy raw) s = .next t ∧ (blkOf t op.page).st = .erased ∧
      (blkOf t op.page).pe = (blkOf s op.page).pe + 1 ∧ (∀ p ∈ t.media.pages, blockOf p.addr ≠ blockOf op.page) ∧
      ∀ x, op.typical = some x →
        (s.cad.windowDue = none → t.cad.charged = s.cad.charged + (busy : Int) - (x : Int)) ∧
        (s.cad.windowDue.isSome = true → t.cad.charged = s.cad.charged ∧ t.cad.chargedNext = s.cad.chargedNext + (busy : Int) - (x : Int)) := by
  have hact : settleSuspend (actOn (opEnded s die op busy) die op .done raw) die op .done = eraseDone (opEnded s die op busy) op.page := by
    simp only [settleSuspend, actOn, hseq, BEq.rfl, if_true, reservedAt_opEnded, hfree, Bool.false_eq_true, if_false]
  have hstop' : (opEnded s die op busy).jrnl.stopFrom = none := (congrArg Jrnl.stopFrom (jrnl_of_rest rest_opEnded rfl)).trans hstop
  have hmap : (opEnded s die op busy).map = s.map := map_of_rest rest_opEnded rfl
  obtain ⟨hst, hpe⟩ := blkOf_eraseDone hstop' op.page
  refine ⟨_, sequenceEnd_eq hd hop ho nofun raw, ?_⟩
  rw [hact, pages_settled, pages_startChannel, blkOf_congr (map_settled ..), cad_settled]
  refine ⟨hst, hpe.trans (by rw [blkOf_congr hmap]), pages_eraseDone _ _, fun x hx => ?_⟩
  rw [cad_eraseDone]
  exact cad_opEnded hx

end

end Sys2Proof.Proofs
end

section
/-! PROOFS. Read ladders (R288, R300, R302, R304, R359): what the read path leaves of the ladders that run, how one begins, takes its next rung and ends, and
that a resolved slot leaves no unit waiting for it. -/
namespace Sys2Proof.Proofs
open Sys2Proof Sys2Proof.Machine Sys2Proof.Laws

/-! ## What leaves the ladders as they are -/

theorem ladders_of_media {s t : State} (h : t.media = s.media) : t.media.ladders = s.media.ladders := congrArg Media.ladders h

theorem ladders_of_rest {s t : State} (h : rest (but .media) t = rest (but .media) s) : t.media.ladders = s.media.ladders :=
  ladders_of_media (media_of_rest h rfl)

theorem ladders_of_steady {s t : State} (h : steady t = steady s) : t.media.ladders = s.media.ladders := by
  have hmedia : steadyMedia t.media = steadyMedia s.media := h
  have hpart := congrArg Media.ladders hmedia
  exact hpart

theorem ladders_settleFull (s : State) : (settleFull s).media.ladders = s.media.ladders := ladders_of_steady (steady_settleFull s)

theorem ladders_countDecodes (s : State) (rung n : Nat) : (countDecodes s rung n).media.ladders = s.media.ladders :=
  ladders_of_rest (rest_countDecodes rfl s rung n)

theorem ladders_triggerAt (s : State) (page : Madr) (severity : Nat) : (triggerAt s page severity).media.ladders = s.media.ladders := by
  unfold triggerAt
  repeat' split
  all_goals rfl

theorem ladders_noteOffset (s : State) (p : PageRec) (l : Ladder) : (noteOffset s p l).media.ladders = s.media.ladders := by
  unfold noteOffset
  repeat' split
  all_goals rfl

theorem ladders_patrolPageDone (s : State) (page : Madr) : (patrolPageDone s page).media.ladders = s.media.ladders := by
  unfold patrolPageDone
  split
  · rfl
  · extract_lets t1 mine inFull cycleDone sweepDone t2 t3
    have h2 : t2.media.ladders = t1.media.ladders := by simp only [t2]; split <;> rfl
    have h3 : t3.media.ladders = t2.media.ladders := by simp only [t3]; split <;> rfl
    split
    · exact h3.trans h2
    · exact h3.trans h2

theorem ladders_settleSweep (s : State) : (settleSweep s).media.ladders = s.media.ladders := by
  unfold settleSweep
  dsimp only
  repeat' split
  all_goals rfl

/-! ## A slot resolved or lost (R300, R304) -/

theorem ctxs_foldl_unpinBlock (m : Madr) (l : List Nat) (s : State) : (l.foldl (fun t _ => unpinBlock t m) s).ctxs = s.ctxs := by
  induction l generalizing s with
  | nil => rfl
  | cons a l ih => exact (ih _).trans rfl

/-- A resolved slot leaves no unit that waits for it. -/
theorem resolveSlot_ctxs (s : State) (m : Madr) (rung : Nat) (st : UnitSt) (hst : st ≠ .medium m) :
    ∀ c ∈ (resolveSlot s m rung st).ctxs, ∀ u ∈ c.units, u.st ≠ .medium m := by
  unfold resolveSlot
  dsimp only
  rw [ctxs_foldl_unpinBlock]
  intro c hc u hu
  obtain ⟨c0, -, rfl⟩ := List.mem_map.mp hc
  by_cases hwaits : c0.units.any (fun u => u.st == .medium m)
  · rw [if_pos hwaits] at hu
    obtain ⟨u0, -, rfl⟩ := List.mem_map.mp hu
    by_cases hmine : (u0.st == .medium m) = true
    · rw [if_pos hmine]
      exact hst
    · rw [if_neg hmine]
      simpa using hmine
  · rw [if_neg hwaits] at hu
    intro hm
    exact hwaits (List.any_eq_true.mpr ⟨u, hu, by simpa using hm⟩)

theorem ladders_resolveSlot (s : State) (m : Madr) (rung : Nat) (st : UnitSt) : (resolveSlot s m rung st).media.ladders = s.media.ladders :=
  ladders_of_media (media_of_rest (rest_resolveSlot (L := [.ctxs, .eng]) rfl s m rung st) rfl)

/-- An accepted candidate resolves its slot; what else it notes leaves the contexts and the ladders. -/
theorem acceptSlot_frame (s : State) (l : Ladder) (p : PageRec) (n corrected : Nat) (b : Block) :
    (acceptSlot s l p n corrected (some b)).ctxs =
        (resolveSlot s { p.addr with slot := n } l.rung (.got b (decide (0 < l.rung)))).ctxs ∧
      (acceptSlot s l p n corrected (some b)).media.ladders = s.media.ladders := by
  unfold acceptSlot
  extract_lets addr m recovered user t1 t2 t3 tRead t4
  have h1 : t1.media.ladders = s.media.ladders := ladders_resolveSlot ..
  have h2 : t2.ctxs = t1.ctxs ∧ t2.media.ladders = t1.media.ladders := by simp only [t2]; split <;> exact ⟨rfl, rfl⟩
  have h3 : t3.ctxs = t2.ctxs ∧ t3.media.ladders = t2.media.ladders := by
    simp only [t3]
    exact ⟨(ctxs_of_rest (rest_noteOffset (L := but .ctxs) rfl ..) rfl).trans (ctxs_of_rest (rest_triggerAt (L := but .ctxs) rfl ..) rfl),
      (ladders_noteOffset ..).trans (ladders_triggerAt ..)⟩
  have h4 : rest [.out, .eng, .ctr] t4 = rest [.out, .eng, .ctr] t3 := by
    simp only [t4, tRead]
    split
    · split
      · split
        · split
          · rw [rest_fillFrame rfl, rest_tileRead rfl, rest_countEvent rfl]
          · rw [rest_tileRead rfl, rest_countEvent rfl]
        · rw [rest_tileRead rfl]
      · rfl
    · rfl
  have hchain : t4.ctxs = t1.ctxs ∧ t4.media.ladders = s.media.ladders :=
    ⟨(ctxs_of_rest h4 rfl).trans (h3.1.trans h2.1), (ladders_of_media (media_of_rest h4 rfl)).trans (h3.2.trans (h2.2.trans h1))⟩
  split
  · split
    · exact hchain
    · exact hchain
  · exact hchain

theorem acceptSlot_clears (s : State) (l : Ladder) (p : PageRec) (n corrected : Nat) (b : Block) :
    ∀ c ∈ (acceptSlot s l p n corrected (some b)).ctxs, ∀ u ∈ c.units, u.st ≠ .medium { p.addr with slot := n } := by
  rw [(acceptSlot_frame s l p n corrected b).1]
  exact resolveSlot_ctxs _ _ _ _ nofun

/-! ## A ladder begins, advances and ends -/

/-- A ladder begins at rung 0, or at rung 5 where its die cannot be read (R302, R304). -/
theorem startLadder_ladders (s : State) (page : Madr) (who : Nat) (readers : List (Reader × Nat)) (slots : List Nat) (second : Bool) :
    ∃ l, (startLadder s page who readers slots second).media.ladders = s.media.ladders ++ [l] ∧ l.page = page ∧
      l.rung = (if pageDown s page then 5 else 0) ∧ l.carried = slots ∧ l.second = second := by
  unfold startLadder
  extract_lets down l t1 t2
  have h2 : t2.media.ladders = s.media.ladders ++ [l] := by simp only [t2]; split <;> rfl
  refine ⟨l, ?_, rfl, rfl, rfl, rfl⟩
  split
  · exact h2
  · exact (ladders_of_steady (steady_issueOp ..)).trans h2

theorem page_of_ladderOf {s : State} {page : Madr} {l : Ladder} (h : ladderOf s page = some l) : l.page = pageOf page := by
  simpa using List.find?_some h

theorem ladderOf_congr {s t : State} (h : t.media.ladders = s.media.ladders) (page : Madr) : ladderOf t page = ladderOf s page := by
  unfold ladderOf
  rw [h]

theorem ladderOf_putLadder {s : State} {page : Madr} {l l' : Ladder} (h : ladderOf s page = some l) (hp : l'.page = l.page) :
    ladderOf (putLadder s l') page = some l' := by
  have hkey : (fun x : Ladder => x.page == pageOf page) ∘ (fun x => if x.page == l'.page then l' else x) = fun x => x.page == pageOf page := by
    funext x
    by_cases hx : x.page = l'.page <;> simp [hx]
  unfold ladderOf at h ⊢
  show (s.media.ladders.map fun x => if x.page == l'.page then l' else x).find? _ = some l'
  rw [List.find?_map, hkey, h]
  simp [hp]

theorem ladderOf_dropLadder (s : State) (page : Madr) : ladderOf (dropLadder s (pageOf page)) page = none := by
  unfold ladderOf
  refine List.find?_eq_none.mpr fun l hl => ?_
  simpa [dropLadder, updMedia] using (List.mem_filter.mp hl).2

/-- A ladder that ends is dropped before anything else is noted. -/
def endedLadder (s : State) (l : Ladder) : State :=
  let t := dropLadder s l.page
  let t := if l.readers.any (fun r => match r.1 with | .agent .. => true | _ => false) then unpinBlock t l.page else t
  if l.readers.any (fun r => r.1 == .agent .patrol 0 0) then settleSweep (patrolPageDone t l.page) else t

theorem advanceLadder_resolved {l : Ladder} (hl : l.carried = []) (s : State) (p : PageRec) (erased : List Nat) :
    advanceLadder s l p erased = endedLadder s l := by
  unfold advanceLadder
  rw [hl]
  rfl

theorem endLadder_first {l : Ladder} (hl : l.second = false) (s : State) (p : PageRec) (n : Nat) (ns erased : List Nat) :
    endLadder s l p (n :: ns) erased = startLadder (endedLadder s l) l.page 3 [] (n :: ns) true := by
  unfold endLadder
  dsimp only
  rw [hl]
  rfl

theorem ladders_endedLadder (s : State) (l : Ladder) : (endedLadder s l).media.ladders = (dropLadder s l.page).media.ladders := by
  have hunpin : ∀ t : State, (if l.readers.any (fun r => match r.1 with | .agent .. => true | _ => false) then unpinBlock t l.page else t).media.ladders =
      t.media.ladders := fun t => by split <;> rfl
  unfold endedLadder
  dsimp only
  split
  · rw [ladders_settleSweep, ladders_patrolPageDone]
    exact hunpin _
  · exact hunpin _

theorem ctxs_endedLadder (s : State) (l : Ladder) : (endedLadder s l).ctxs = s.ctxs := by
  unfold endedLadder
  extract_lets t1 t2
  have h2 : t2.ctxs = s.ctxs := by simp only [t2]; split <;> rfl
  split
  · exact (ctxs_of_rest (rest_settleSweep (L := but .ctxs) rfl _) rfl).trans ((ctxs_of_rest (rest_patrolPageDone (L := but .ctxs) rfl ..) rfl).trans h2)
  · exact h2

theorem ladderOf_endedLadder {l : Ladder} {page : Madr} (hl : l.page = pageOf page) (s : State) : ladderOf (endedLadder s l) page = none := by
  rw [ladderOf_congr (ladders_endedLadder s l), hl, ladderOf_dropLadder]

/-- The second ladder of a page that rung 5 did not recover (R304). -/
theorem ladderOf_second {l : Ladder} {page : Madr} (hl : l.page = pageOf page) (s : State) (who : Nat) (readers : List (Reader × Nat)) (slots : List Nat) :
    ∃ l', ladderOf (startLadder (endedLadder s l) l.page who readers slots true) page = some l' ∧ l'.second = true ∧ l'.carried = slots := by
  obtain ⟨l', hladders, hpage, -, hcarried, hsecond⟩ := startLadder_ladders (endedLadder s l) l.page who readers slots true
  refine ⟨l', ?_, hsecond, hcarried⟩
  have hnone := ladderOf_endedLadder hl s
  unfold ladderOf at hnone ⊢
  rw [hladders, List.find?_append, hnone]
  simp [hpage, hl]

/-- Rung 5 has no next one. -/
theorem nextRung_five (s : State) (p : PageRec) (entry : Nat) : nextRung s p 5 entry = none := by
  unfold nextRung
  split <;> rfl

/-! ## A page's decode (R288, R300, R302, R304) -/

theorem countDecodes_map (s : State) (rung n : Nat) : (countDecodes s rung n).map = s.map := map_of_rest (rest_countDecodes (L := [.ctr]) rfl s rung n) rfl

theorem judge_congr {s t : State} (h : t.map = s.map) (p : PageRec) (n : Nat) (cand : Option Block) (same : Bool) :
    judge t p n cand same = judge s p n cand same := by
  unfold judge nsFormat nsOf
  rw [h]

theorem nextRung_countDecodes (s : State) (r n : Nat) (p : PageRec) (rung entry : Nat) :
    nextRung (countDecodes s r n) p rung entry = nextRung s p rung entry := by
  unfold countDecodes countEvent
  repeat' split
  all_goals rfl

theorem takeResults_accepted {s : State} {l : Ladder} {p : PageRec} {n corr : Nat} {content : Option Block} {same : Bool} {b : Option Block}
    (hc : l.carried = [n]) (hj : judge s p n content same = .ok b) :
    takeResults s l p [(n, some (content, same, corr))] = (acceptSlot s l p n corr b, { l with carried := [] }) := by
  have hcarried : l.carried.contains n = true := by simp [hc]
  have hleft : l.carried.filter (fun x => x != n) = [] := by simp [hc]
  simp only [takeResults, hcarried, hj, hleft, Bool.not_true, Bool.false_eq_true, if_false]

theorem takeResults_failed (s : State) (l : Ladder) (p : PageRec) (n : Nat) : takeResults s l p [(n, none)] = (s, l) := by simp [takeResults]

section
variable {s : State} {page : Madr} {l : Ladder} {p : PageRec} {n : Nat}

theorem decodeDone_eq (hl : ladderOf s page = some l) (hp : pageRecOf s page = some p) (hstop : s.jrnl.stopFrom = none) (hrung : l.rung ≠ 5)
    (slots : List (Nat × DecodeResult)) (er : List Nat) :
    exec (.decodeDone page slots er) s =
      let r := takeResults (countDecodes s l.rung l.carried.length) l p (slots.map (fun x => (x.1, candidateOf p x.1 x.2)))
      settled (settleFull (advanceLadder r.1 r.2 p er)) := by
  have hr : (l.rung == 5) = false := by simpa using hrung
  refine (show exec (.decodeDone page slots er) s = execDecodeDone page slots er s from rfl).trans ?_
  simp only [execDecodeDone, hl, hp, hstop, hr, Option.isSome_none, Bool.false_eq_true, if_false]

/-- An accepted candidate of the only carried slot ends the ladder and its waiting units (R288, R300). -/
theorem decode_accepted (hl : ladderOf s page = some l) (hp : pageRecOf s page = some p) (hstop : s.jrnl.stopFrom = none) (hrung : l.rung ≠ 5)
    (hcarried : l.carried = [n]) {r : DecodeResult} {content : Option Block} {same : Bool} {corr : Nat} {b : Block}
    (hcand : candidateOf p n r = some (content, same, corr)) (hjudge : judge s p n content same = .ok (some b)) (er : List Nat) :
    ∃ t, exec (.decodeDone page [(n, r)] er) s = .next t ∧ ladderOf t page = none ∧
      ∀ c ∈ t.ctxs, ∀ u ∈ c.units, u.st ≠ .medium { p.addr with slot := n } := by
  have hjudge' := (judge_congr (countDecodes_map s l.rung l.carried.length) p n content same).trans hjudge
  have hexec := decodeDone_eq hl hp hstop hrung [(n, r)] er
  simp only [List.map_cons, List.map_nil, hcand, takeResults_accepted hcarried hjudge'] at hexec
  generalize countDecodes s l.rung l.carried.length = u at hexec
  rw [advanceLadder_resolved rfl] at hexec
  refine ⟨_, hexec, ?_, ?_⟩
  · rw [ladderOf_congr (ladders_of_media (endCycle_media _)), ladderOf_congr (ladders_settleFull _)]
    have hpage := page_of_ladderOf hl
    exact ladderOf_endedLadder (l := { l with carried := [] }) hpage _
  · rw [endCycle_ctxs, settleFull_ctxs, ctxs_endedLadder]
    exact acceptSlot_clears u l p n corr b

/-- A failed candidate takes the ladder to its next rung (R302). -/
theorem decode_failed (hl : ladderOf s page = some l) (hp : pageRecOf s page = some p) (hstop : s.jrnl.stopFrom = none) (hrung : l.rung ≠ 5)
    (hcarried : l.carried = [n]) {r : DecodeResult} {g e : Nat} (hcand : candidateOf p n r = none) (hnext : nextRung s p l.rung l.entry = some (g, e))
    (er : List Nat) :
    ∃ t, exec (.decodeDone page [(n, r)] er) s = .next t ∧ ladderOf t page = some { l with rung := g, entry := e } := by
  have hexec := decodeDone_eq hl hp hstop hrung [(n, r)] er
  simp only [List.map_cons, List.map_nil, hcand, takeResults_failed] at hexec
  refine ⟨_, hexec, ?_⟩
  rw [ladderOf_congr (ladders_of_media (endCycle_media _)), ladderOf_congr (ladders_settleFull _)]
  have hcount := ladders_countDecodes s l.rung l.carried.length
  have hsame := nextRung_countDecodes s l.rung l.carried.length p l.rung l.entry
  generalize countDecodes s l.rung l.carried.length = u at hcount hsame
  unfold advanceLadder
  simp only [hcarried, hsame, hnext, List.isEmpty_cons, Bool.false_eq_true, if_false]
  have hevent : (if l.rung == 0 then countEvent u 0x19 0 1 else u).media.ladders = s.media.ladders := by
    split
    · exact (ladders_of_rest (rest_countEvent rfl ..)).trans hcount
    · exact hcount
  exact hcarried ▸ ladderOf_putLadder (l' := { l with rung := g, entry := e }) ((ladderOf_congr hevent page).trans hl) rfl

/-- A page that rung 5 does not recover gets its second ladder (R304). -/
theorem decode_unrecovered (hl : ladderOf s page = some l) (hp : pageRecOf s page = some p) (hstop : s.jrnl.stopFrom = none) (hrung : l.rung = 5)
    (hcarried : l.carried = [n]) (hfirst : l.second = false) {er : List Nat}
    (hlost : (setAt s.map p.addr).bind (fun k => recoverPage s k p er) = none) (slots : List (Nat × DecodeResult)) :
    ∃ t l', exec (.decodeDone page slots er) s = .next t ∧ ladderOf t page = some l' ∧ l'.second = true ∧ l'.carried = [n] := by
  have hexec : exec (.decodeDone page slots er) s = execDecodeDone page slots er s := rfl
  simp only [execDecodeDone, hl, hp, hstop, hrung, Option.isSome_none, Bool.false_eq_true, if_false, BEq.rfl, if_true] at hexec
  have hladder : rungFive s l p er = startLadder (endedLadder (loseSlot s l p n) l) l.page 3 [] [n] true := by
    unfold rungFive
    simp only [hlost, advanceLadder, hcarried, hrung, nextRung_five, List.isEmpty_cons, Bool.false_eq_true, if_false]
    exact endLadder_first hfirst ..
  obtain ⟨l', hl', hsecond, hcar⟩ := ladderOf_second (page_of_ladderOf hl) (loseSlot s l p n) 3 [] [n]
  refine ⟨_, l', hexec, ?_, hsecond, hcar⟩
  rw [ladderOf_congr (ladders_of_media (endCycle_media _)), ladderOf_congr (ladders_settleFull _), hladder]
  exact hl'

end

/-! ## A page's read (R300, R302) -/

section
variable {s : State} {page : Madr} {cyc : Nat}

theorem mediumRead_begins (hstop : s.jrnl.stopFrom = none) (hcyc : cyc ≤ s.now) {p : PageRec} (hl : ladderOf s page = none)
    (hp : pageRecOf s page = some p) (hw : wantedBy s p ≠ []) :
    ∃ t, exec (.mediumReadIssue page cyc) s = .next t ∧ ∃ l ∈ t.media.ladders, l.page = p.addr ∧ l.rung = (if pageDown s p.addr then 5 else 0) ∧
      l.carried = readerSlots (wantedBy s p) := by
  have hexec : exec (.mediumReadIssue page cyc) s = execMediumReadIssue page cyc s := rfl
  simp only [execMediumReadIssue, advanceTo_past hcyc, hstop, hl, hp, List.isEmpty_iff, hw, Option.isSome_none, Bool.false_eq_true, if_false] at hexec
  obtain ⟨l, hladders, hpage, hrung, hcarried, -⟩ :=
    startLadder_ladders s p.addr (readersWho (wantedBy s p)) (wantedBy s p) (readerSlots (wantedBy s p)) false
  exact ⟨_, hexec, l, hladders ▸ List.mem_append_right _ (List.mem_singleton_self l), hpage, hrung, hcarried⟩

theorem anyOp_of_asked {s : State} {op : DieOp} {ok : DieOp → Bool} (hok : ∀ o, sameOp op o = true → ok o = true)
    (h : s.media.undrawn.any (sameOp op) = true ∨ ∃ d die, dieStOf s die = some d ∧ asked d op = true) : anyOp s ok = true := by
  unfold anyOp
  rcases h with h | ⟨d, die, hd, ha⟩
  · obtain ⟨o, ho, hsame⟩ := List.any_eq_true.mp h
    rw [List.any_eq_true.mpr ⟨o, ho, hok o hsame⟩, Bool.true_or]
  · have hstands : (d.op.any ok || d.queue.any ok || d.suspended.any ok) = true := by
      simp only [asked, Bool.or_eq_true, Option.any_eq_true, List.any_eq_true] at ha ⊢
      rcases ha with (⟨o, ho, hsame⟩ | ⟨o, ho, hsame⟩) | ⟨o, ho, hsame⟩
      · exact .inl (.inl ⟨o, ho, hok o hsame⟩)
      · exact .inl (.inr ⟨o, ho, hok o hsame⟩)
      · exact .inr ⟨o, ho, hok o hsame⟩
    rw [List.any_eq_true.mpr ⟨d, List.mem_of_find?_eq_some hd, hstands⟩, Bool.or_true]

theorem mediumRead_reads (hstop : s.jrnl.stopFrom = none) (hcyc : cyc ≤ s.now) {l : Ladder} (hl : ladderOf s page = some l) (hrung : l.rung ≠ 5)
    (hdie : ((dieStOf s (dieOf page)).map (·.failed)).getD false = false) (hbay : ((bayOf s page.bay).map (·.connected)).getD false = true) :
    ∃ t, exec (.mediumReadIssue page cyc) s = .next t ∧ anyOp t (fun o => o.page == l.page && o.seqNo == 2) = true := by
  have hr : (l.rung == 5) = false := by simpa using hrung
  have hpage := page_of_ladderOf hl
  have hexec : exec (.mediumReadIssue page cyc) s = execMediumReadIssue page cyc s := rfl
  simp only [execMediumReadIssue, advanceTo_past hcyc, hstop, hl, hr, Option.isSome_none, Bool.false_eq_true, if_false, Bool.false_or] at hexec
  by_cases hpending : anyOp s (fun o => o.page == l.page && o.seqNo == 2) = true
  · rw [if_pos hpending] at hexec
    exact ⟨s, hexec, hpending⟩
  · rw [if_neg hpending] at hexec
    refine ⟨_, hexec, anyOp_of_asked (op := mkOp s 2 l.page l.who) (fun o ho => ?_) ?_⟩
    · simp only [sameOp, mkOp, Bool.and_eq_true, beq_iff_eq] at ho ⊢
      obtain ⟨⟨hseq, hat⟩, -⟩ := ho
      exact ⟨hat, hseq⟩
    · have hasked := issueOp_asked (s := s) (op := mkOp s 2 l.page l.who) (by rw [show (mkOp s 2 l.page l.who).page = l.page from rfl, hpage]; exact hdie)
        (by rw [show (mkOp s 2 l.page l.who).page = l.page from rfl, hpage]; exact hbay)
      exact hasked.imp_right fun ⟨d, hd, ha⟩ => ⟨d, _, hd, ha⟩

end

end Sys2Proof.Proofs
end

section
/-! PROOFS. Programs that end (R37, R304): a page that stands DONE stays so through the closing of its set and the reads that verify a row, and what follows
a failed program counts no other failure. -/
namespace Sys2Proof.Proofs
open Sys2Proof Sys2Proof.Machine Sys2Proof.Laws

/-! ## The count of failed programs -/

/-- Programs that have failed (R37). -/
def failCount (s : State) : Nat := s.health.programFails

theorem failCount_of_rest {s t : State} (h : rest (but .health) t = rest (but .health) s) : failCount t = failCount s :=
  congrArg Health.programFails (health_of_rest h rfl)

theorem failCount_programPage (s : State) (page : Madr) (who : Nat) : failCount (programPage s page who) = failCount s := by
  unfold programPage
  repeat' split
  · rfl
  · rfl
  · exact (failCount_of_rest (rest_issueOp rfl ..)).trans rfl

theorem failCount_writePage (s : State) (p : PageRec) (who : Nat) : failCount (writePage s p who) = failCount s := failCount_programPage ..

theorem failCount_programParity (s : State) (k : SetRec) (row who : Nat) : failCount (programParity s k row who) = failCount s := by
  have hcount : ∀ t : State, failCount (if k.p == 0 then t else countEvent t 0x31 0 1) = failCount t := fun t => by
    split
    · rfl
    · exact failCount_of_rest (rest_countEvent rfl ..)
  unfold programParity
  split
  · rfl
  · refine (hcount _).trans (view_foldl (fun t j => ?_) _ s)
    dsimp only
    split
    · rfl
    · exact failCount_writePage ..

theorem failCount_putSlot {s t : State} {k : SetRec} {r : RowSt} {kind who : Nat} {x : SlotRec} {a : Madr}
    (h : putSlot s k r kind who x = some (t, a)) : failCount t = failCount s := by
  have hpage : ∀ (u : State) (c : Bool) (page : Madr), failCount (if c then programPage u page who else u) = failCount u := fun u c page => by
    split
    · exact failCount_programPage ..
    · rfl
  unfold putSlot at h
  split at h
  · cases h
  · dsimp only at h
    obtain ⟨rfl, -⟩ := Prod.mk.inj (Option.some.inj h)
    split
    · rw [failCount_programParity, hpage]; rfl
    · rw [hpage]; rfl

theorem failCount_placeSlot {s t : State} {stream : Stream} {kind who : Nat} {x : SlotRec} {a : Madr}
    (h : placeSlot s stream kind who x = some (t, a)) : failCount t = failCount s := by
  unfold placeSlot at h
  obtain ⟨ok, -, hput⟩ := List.exists_of_findSome?_eq_some h
  split at hput
  · cases hput
  · split at hput
    · exact failCount_putSlot hput
    · split at hput
      · exact (failCount_putSlot hput).trans rfl
      · cases hput

theorem failCount_replaceUnit (s : State) (ns lba : Nat) (old : Madr) : failCount (replaceUnit s ns lba old) = failCount s := by
  unfold replaceUnit
  split
  · split
    · rfl
    · rename_i hplace
      exact (failCount_of_rest (rest_askMap rfl ..)).trans (failCount_placeSlot hplace)
  · rfl

theorem failCount_replaceAbandoned (s : State) : failCount (replaceAbandoned s) = failCount s := by
  unfold replaceAbandoned
  split
  · rfl
  · exact view_foldl (fun t _ => view_foldl (fun t _ => failCount_replaceUnit ..) _ t) _ s

theorem failCount_padTail (s : State) (k : SetRec) : failCount (padTail s k) = failCount s := by
  unfold padTail
  refine view_foldl (fun t c => ?_) _ s
  split
  · rfl
  · exact view_foldl (fun t _ => failCount_writePage ..) _ t

theorem failCount_padPair (s : State) (k : SetRec) (lastValid : Option Nat) : failCount (padPair s k lastValid) = failCount s := by
  unfold padPair
  extract_lets first
  refine view_foldl (fun t c => ?_) _ s
  split
  · rfl
  · refine view_foldl (fun t n => ?_) _ t
    dsimp only
    split
    · rfl
    · exact failCount_writePage ..

theorem failCount_closeSet (s : State) (seq : Nat) (last abandoned : Option Nat) : failCount (closeSet s seq last abandoned) = failCount s := by
  unfold closeSet
  split
  · rfl
  · split
    · rfl
    · extract_lets t u
      have ht : failCount t = failCount s := failCount_of_rest ((rest_unflush rfl ..).trans (rest_commitRec rfl ..))
      split
      · exact (failCount_padTail ..).trans ht
      · exact (failCount_padPair ..).trans ht

theorem failCount_finishSet (s : State) (seq : Nat) : failCount (finishSet s seq) = failCount s := failCount_of_rest (rest_finishSet rfl ..)

theorem failCount_raiseTrigger (s : State) (seq severity : Nat) : failCount (raiseTrigger s seq severity) = failCount s := rfl

theorem failCount_retireBlock (s : State) (b : Madr) (cause : Nat) : failCount (retireBlock s b cause) = failCount s := by
  have hcommit : ∀ r, failCount (commitRec s r) = failCount s := fun r => failCount_of_rest (rest_commitRec rfl ..)
  unfold retireBlock
  dsimp only
  repeat' split
  · rfl
  · exact hcommit _
  · exact hcommit _
  · exact (failCount_of_rest ((rest_sealIfSpent rfl ..).trans (rest_takeSpare rfl ..))).trans (hcommit _)

theorem failCount_failRow (s : State) (k : SetRec) (r : Nat) : failCount (failRow s k r) = failCount s := by
  have hcommit : ∀ t body, failCount (commitRec t body) = failCount t := fun t body => failCount_of_rest (rest_commitRec rfl ..)
  unfold failRow
  dsimp only
  split
  · split
    · rfl
    · rw [failCount_finishSet, failCount_raiseTrigger, hcommit]; rfl
  · rw [failCount_replaceAbandoned, failCount_finishSet, failCount_raiseTrigger, failCount_closeSet]; rfl

theorem failCount_replaceColumn (s : State) (k : SetRec) (col : Nat) (bad : Madr) : failCount (replaceColumn s k col bad) = failCount s := by
  unfold replaceColumn
  dsimp only
  split
  · split
    · rw [failCount_finishSet, failCount_closeSet, failCount_retireBlock]
    · refine (view_foldl (fun t c => failCount_writePage ..) _ _).trans ((failCount_of_rest (rest_commitRec rfl ..)).trans ?_)
      exact failCount_retireBlock ..
  · exact failCount_retireBlock ..

/-- A failed program is counted once (R37). -/
theorem failCount_programFailed (s : State) (p : PageRec) : failCount (programFailed s p) = failCount s + 1 := by
  unfold programFailed
  extract_lets t
  have hcounted : failCount t = failCount s + 1 := rfl
  split
  · exact hcounted
  · split
    · exact hcounted
    · split
      · rw [failCount_retireBlock, hcounted]
      · split
        · rw [failCount_replaceColumn, hcounted]
        · split
          · exact hcounted
          · rw [failCount_of_rest (rest_settleStand rfl _), failCount_failRow, hcounted]

/-! ## A page that stands DONE -/

/-- The page's record says that its program has ended. -/
def standsDone (s : State) (m : Madr) : Prop := ∃ q, pageRecOf s m = some q ∧ q.st = .done

theorem standsDone_of_pages {s t : State} {m : Madr} (h : standsDone s m) (hp : t.media.pages = s.media.pages) : standsDone t m := by
  unfold standsDone pageRecOf at h ⊢
  rwa [hp]

theorem pageRecOf_putPage (s : State) (p : PageRec) (m : Madr) :
    pageRecOf (putPage s p) m = if p.addr = pageOf m then some p else pageRecOf s m :=
  find_put PageRec.addr s.media.pages rfl (pageOf m)

theorem addr_of_pageRecOf {s : State} {m : Madr} {p : PageRec} (h : pageRecOf s m = some p) : p.addr = pageOf m := by
  simpa using List.find?_some h

theorem standsDone_putPage {s : State} {m : Madr} {p : PageRec} (h : standsDone s m) (hp : p.addr ≠ pageOf m) : standsDone (putPage s p) m := by
  obtain ⟨q, hq, hst⟩ := h
  exact ⟨q, (pageRecOf_putPage s p m).trans ((if_neg hp).trans hq), hst⟩

/-- A program is given to assigned pages only. -/
theorem standsDone_programPage {s : State} {m : Madr} (h : standsDone s m) (page : Madr) (who : Nat) : standsDone (programPage s page who) m := by
  obtain ⟨q, hq, hst⟩ := h
  unfold programPage
  split
  · exact ⟨q, hq, hst⟩
  · rename_i p hp
    split
    · exact ⟨q, hq, hst⟩
    · rename_i hassigned
      have hne : p.addr ≠ pageOf m := by
        intro hsame
        have hpage : pageRecOf s page = pageRecOf s m := by unfold pageRecOf; rw [← addr_of_pageRecOf hp, hsame]
        obtain rfl := Option.some.inj (hp.symm.trans (hpage.trans hq))
        simp [hst] at hassigned
      have hput := standsDone_putPage (p := { p with st := .programming, epoch := aetSec s.cad.aet % 2 ^ 40 }) ⟨q, hq, hst⟩ hne
      exact standsDone_of_pages hput (pages_issueOp ..)

theorem standsDone_writePage {s : State} {m : Madr} (h : standsDone s m) {p : PageRec} (hp : p.addr ≠ pageOf m) (who : Nat) :
    standsDone (writePage s p who) m := standsDone_programPage (standsDone_putPage (p := { p with st := .assigned }) h hp) _ _

theorem standsDone_foldl {α : Type} {f : State → α → State} {m : Madr} (hf : ∀ t a, standsDone t m → standsDone (f t a) m) (l : List α) {s : State}
    (h : standsDone s m) : standsDone (l.foldl f s) m :=
  List.foldlRecOn (motive := fun t => standsDone t m) l f h fun t ht a _ => hf t a ht

/-- The tail of a set lies above its last row's pages. -/
theorem standsDone_padTail {s : State} {m : Madr} (h : standsDone s m) {k : SetRec} (hk : m.page < 1 + k.rows * k.stripeUnit) :
    standsDone (padTail s k) m := by
  unfold padTail
  extract_lets first
  refine standsDone_foldl (fun t c ht => ?_) _ h
  split
  · exact ht
  · refine standsDone_foldl (fun t n ht => standsDone_writePage ht (fun hsame => ?_) _) _ ht
    have hpage : 1 + k.rows * k.stripeUnit + n = m.page := congrArg Madr.page hsame
    omega

/-- Padding up to the wordline pair passes over what has been programmed. -/
theorem standsDone_padPair {s : State} {m : Madr} (h : standsDone s m) (k : SetRec) (lastValid : Option Nat) : standsDone (padPair s k lastValid) m := by
  unfold padPair
  extract_lets first
  refine standsDone_foldl (fun t c ht => ?_) _ h
  split
  · exact ht
  · refine standsDone_foldl (fun t n ht => ?_) _ ht
    extract_lets b a
    split
    · exact ht
    · rename_i hopen
      refine standsDone_writePage ht (fun hsame => hopen ?_) _
      obtain ⟨q, hq, hst⟩ := ht
      have hat : a = pageOf m := hsame
      have hrec : pageRecOf t a = some q := hat ▸ hq
      rw [hrec]
      simp [hst]

/-- No page of the set's tail: the address lies in a row, or the set is closed. -/
def belowTails (s : State) (m : Madr) : Prop := ∀ k ∈ s.map.sets, k.closed = true ∨ m.page < 1 + k.rows * k.stripeUnit

theorem standsDone_closeSet {s : State} {m : Madr} (h : standsDone s m) (hm : belowTails s m) (seq : Nat) (last abandoned : Option Nat) :
    standsDone (closeSet s seq last abandoned) m := by
  unfold closeSet
  split
  · exact h
  · rename_i k hk
    split
    · exact h
    · rename_i hopen
      extract_lets t u
      have hcommit : t.media = s.media := media_of_rest ((rest_unflush (L := but .media) rfl ..).trans (rest_commitRec rfl ..)) rfl
      have hu : standsDone u m := standsDone_of_pages h (show t.media.pages = s.media.pages from congrArg Media.pages hcommit)
      split
      · exact standsDone_padTail hu ((hm k (List.mem_of_find?_eq_some hk)).resolve_left hopen)
      · exact standsDone_padPair hu k last

theorem standsDone_closeIfFull {s : State} {m : Madr} (h : standsDone s m) (hm : belowTails s m) (seq : Nat) : standsDone (closeIfFull s seq) m := by
  unfold closeIfFull
  split
  · split
    · exact standsDone_closeSet h hm ..
    · exact h
  · exact h

theorem pages_applyLimits (s : State) (es : List SjEntry) : (applyLimits s es).media.pages = s.media.pages := by
  unfold applyLimits
  refine view_foldl (view := fun t => t.media.pages) (fun t e => ?_) es s
  rfl

theorem pages_settleWait (s : State) (w : SjWait) : (settleWait s w).media.pages = s.media.pages := by
  unfold settleWait
  dsimp only
  repeat' split
  · rfl
  · exact pages_applyLimits ..
  · rfl

theorem pages_settleStand (s : State) : (settleStand s).media.pages = s.media.pages := by
  have hcover : (settleCover s).media.pages = s.media.pages := view_foldl (view := fun t => t.media.pages) pages_settleWait _ s
  have hstop : ∀ t, (putStop t .shutdown none).media = t.media := fun t => media_of_rest (rest_putStop (L := but .media) rfl t _ _) rfl
  refine Eq.trans ?_ hcover
  unfold settleStand settleCkpt
  dsimp only
  repeat' split
  · rfl
  · rfl
  · unfold standCkpt
    dsimp only
    split
    · rw [hstop]; rfl
    · rfl
  · rfl

theorem pages_issueVerify (s : State) (k : SetRec) (row : Nat) : (issueVerify s k row).media.pages = s.media.pages := by
  refine view_foldl (view := fun t => t.media.pages) (fun t c => ?_) _ s
  dsimp only
  split
  · rfl
  · exact view_foldl (view := fun t => t.media.pages) (fun t _ => pages_issueOp ..) _ t

/-- A program that ends marks its page, whatever its set's end asks for (R37). -/
theorem standsDone_programDone {s : State} {m : Madr} {p : PageRec} (hp : p.addr = pageOf m) (hm : belowTails s m) : standsDone (programDone s p) m := by
  unfold programDone
  extract_lets t u
  have ht : standsDone t m := ⟨{ p with st := .done }, (pageRecOf_putPage s { p with st := .done } m).trans (if_pos hp), rfl⟩
  split
  · exact ht
  · have hu : standsDone u m := standsDone_of_pages ht rfl
    split
    · exact hu
    · rename_i k _
      extract_lets before u1 u2 u3 u4 after
      have h1 : u1.media = u.media ∧ u1.map = s.map := by simp only [u1]; split <;> exact ⟨rfl, rfl⟩
      have h2 : u2.media.pages = u.media.pages ∧ u2.map.sets = s.map.sets := by
        obtain ⟨hmedia, hmap⟩ := h1
        have hpages : u1.media.pages = u.media.pages := congrArg Media.pages hmedia
        have hsets : u1.map.sets = s.map.sets := congrArg MapImg.sets hmap
        simp only [u2]
        split
        · exact ⟨hpages, hsets⟩
        · exact ⟨hpages, hsets⟩
      have h3 : u3.media.pages = u.media.pages ∧ u3.map.sets = s.map.sets := by
        obtain ⟨hpages, hsets⟩ := h2
        simp only [u3]
        split
        · exact ⟨(pages_issueOp ..).trans hpages, (congrArg MapImg.sets (map_of_rest (rest_issueOp (L := but .map) rfl ..) rfl)).trans hsets⟩
        · exact ⟨hpages, hsets⟩
      obtain ⟨hpages, hsets⟩ := h3
      have hbelow : belowTails u3 m := by unfold belowTails; rw [hsets]; exact hm
      have h4 : standsDone u4 m := standsDone_of_pages (standsDone_closeIfFull (standsDone_of_pages hu hpages) hbelow k.seq) (pages_settleStand _)
      exact standsDone_foldl (fun t r ht => standsDone_of_pages ht (pages_issueVerify ..)) _ h4

/-! ## A program that ends (R37) -/

section
variable {s : State} {die : DieId} {d : DieSt} {op : DieOp} {busy : Nat} {waits statuses : List Nat} {p : PageRec}

theorem program_ended (hd : dieStOf s die = some d) (hop : d.op = some op) (hseq : op.seqNo = 3) (ho : outcomeOf s die op waits statuses = .done)
    (hp : pageRecOf s op.page = some p) (hrows : ∀ k ∈ s.map.sets, k.closed = true ∨ p.addr.page < 1 + k.rows * k.stripeUnit) (raw : Nat) :
    ∃ t q, exec (.sequenceEnd die waits statuses busy raw) s = .next t ∧ pageRecOf t op.page = some q ∧ q.st = .done := by
  have hpages : (opEnded s die op busy).media.pages = s.media.pages := by rw [media_opEnded]; rfl
  have hmap : (opEnded s die op busy).map = s.map := map_of_rest rest_opEnded rfl
  have hrec : pageRecOf (opEnded s die op busy) op.page = some p := by unfold pageRecOf; rw [hpages]; exact hp
  have haddr := addr_of_pageRecOf hp
  have hact : settleSuspend (actOn (opEnded s die op busy) die op .done raw) die op .done = programDone (opEnded s die op busy) p := by
    simp only [settleSuspend, actOn, hseq, hrec, BEq.rfl, if_true]
  have hbelow : belowTails (opEnded s die op busy) op.page := by
    unfold belowTails
    rw [hmap]
    exact fun k hk => (hrows k hk).imp_right fun h => by rwa [haddr] at h
  obtain ⟨q, hq, hst⟩ := standsDone_of_pages (standsDone_programDone haddr hbelow) ((pages_settled _).trans (pages_startChannel _ die))
  exact ⟨_, q, sequenceEnd_eq hd hop ho nofun raw, by rw [hact]; exact hq, hst⟩

theorem program_failed (hd : dieStOf s die = some d) (hop : d.op = some op) (hseq : op.seqNo = 3) (ho : outcomeOf s die op waits statuses = .statusFail)
    (hp : pageRecOf s op.page = some p) (raw : Nat) :
    ∃ t, exec (.sequenceEnd die waits statuses busy raw) s = .next t ∧ t.health.programFails = s.health.programFails + 1 := by
  have hpages : (opEnded s die op busy).media.pages = s.media.pages := by rw [media_opEnded]; rfl
  have hrec : pageRecOf (opEnded s die op busy) op.page = some p := by unfold pageRecOf; rw [hpages]; exact hp
  have hact : settleSuspend (actOn (opEnded s die op busy) die op .statusFail raw) die op .statusFail = programFailed (opEnded s die op busy) p := by
    simp only [settleSuspend, actOn, hseq, hrec]
    rfl
  refine ⟨_, sequenceEnd_eq hd hop ho nofun raw, ?_⟩
  show failCount _ = failCount s + 1
  have hended : failCount (opEnded s die op busy) = failCount s := congrArg Health.programFails (health_of_rest rest_opEnded rfl)
  rw [failCount_of_rest (rest_endCycle rfl _), failCount_of_rest (rest_settleFull rfl _), failCount_of_rest (rest_startChannel rfl ..), hact,
    failCount_programFailed, hended]

end

/-- Settles O34: a suspend, an erase, a program and a sample by what the end of a sequence makes of its die and what starting the next operation leaves of
it; the ladders by what the read path leaves of the others. -/
theorem dieOperationsAndLaddersRun : Obligations.DieOperationsAndLaddersRun := by
  intro s hstop
  refine ⟨fun die cyc d op r hcyc hd hop hread hseq hfour hleast => readSuspend_suspends hcyc hstop hd hop hread hseq hfour hleast,
    fun die waits statuses busy raw d op hd hop => ⟨?_, ?_, ?_, ?_⟩, fun page cyc hcyc => ⟨?_, ?_⟩, fun page n r l p er hl hp hc => ⟨?_, ?_, ?_⟩⟩
  · exact fun o hseq ho hsus => suspend_resumed hd hop hseq ho hsus raw
  · exact fun hseq ho hfree => erase_ended hd hop hstop hseq ho hfree raw
  · exact fun p hseq hp => ⟨fun ho hrows => program_ended hd hop hseq ho hp hrows raw, fun ho => program_failed hd hop hseq ho hp raw⟩
  · exact fun f hseq ho hf => sample_kept hd hop hseq ho hf raw
  · exact fun p hl hp hw => mediumRead_begins hstop hcyc hl hp hw
  · exact fun l hl hrung hdie hbay => mediumRead_reads hstop hcyc hl hrung hdie hbay
  · exact fun content same corr b hrung hcand hjudge => decode_accepted hl hp hstop hrung hc hcand hjudge er
  · exact fun g e hrung hcand hnext => decode_failed hl hp hstop hrung hc hcand hnext er
  · exact fun hrung hfirst hlost => decode_unrecovered hl hp hstop hrung hc hfirst hlost [(n, r)]

end Sys2Proof.Proofs
end

section
/-! PROOFS. Ticks (R54, R57, R58, R60, R61, R74, R80): what opens a window, and what a tick leaves of the archive time, of the set that stands and of the
prediction. -/
namespace Sys2Proof.Proofs
open Sys2Proof Sys2Proof.Machine Sys2Proof.Laws

/-! ## Fabric time moves -/

theorem now_advanceTo {s : State} {c : Nat} (h : s.now ≤ c) : (advanceTo s c).now = c := by
  by_cases hc : c ≤ s.now
  · rw [advanceTo_past hc]
    exact Nat.le_antisymm h hc
  · rw [advanceTo, if_neg hc]
    rfl

@[simp] theorem cad_advanceTo (s : State) (c : Nat) : (advanceTo s c).cad = s.cad := cad_of_rest (rest_advanceTo (L := but .cad) rfl s c) rfl
@[simp] theorem kf_advanceTo (s : State) (c : Nat) : (advanceTo s c).kf = s.kf := kf_of_rest (rest_advanceTo (L := but .kf) rfl s c) rfl
@[simp] theorem cond_advanceTo (s : State) (c : Nat) : (advanceTo s c).cond = s.cond := cond_of_rest (rest_advanceTo (L := but .cond) rfl s c) rfl

theorem powerSt_countCycles (s : State) (n : Nat) : (countCycles s n).power.st = s.power.st :=
  congrArg Power.st (power_of_rest (rest_countCycles (L := but .power) rfl s n) rfl)

/-- Time adds up in the power state that stands. -/
@[simp] theorem powerSt_advanceTo (s : State) (c : Nat) : (advanceTo s c).power.st = s.power.st := by
  by_cases hc : c ≤ s.now
  · rw [advanceTo_past hc]
  · have hcounted : (if s.power.st < 2 then countCycles s (c - s.now) else s).power.st = s.power.st := by
      split
      · exact powerSt_countCycles ..
      · rfl
    rw [← hcounted, advanceTo, if_neg hc]
    dsimp only [updCtr_power, setNow, updPower_power]
    split <;> rfl

/-! ## A window opened (R74) -/

/-- The rebuild and the sweep that a window start begins leave the cadence counter. -/
theorem cad_settleWindow_of_due {s : State} {prorated : Bool} (h : s.cad.windowDue = some prorated) :
    (settleWindow s).cad = (rollWindow s prorated).cad := by
  unfold settleWindow
  rw [h]
  exact cad_of_rest ((rest_settleSweep (L := but .cad) rfl _).trans (rest_beginRebuild (L := but .cad) rfl _)) rfl

theorem windowBudget_of_quiet {s : State} (h : quietAt s.cad.plan (nowT s) = true) (prorated : Bool) : windowBudget s prorated = 0 := by
  cases prorated <;> simp [windowBudget, h]

theorem windowBudget_whole {s : State} (h : quietAt s.cad.plan (nowT s) = false) :
    windowBudget s false = capacityC s s.cad.plan.windowTicks * s.cad.plan.share / 100 := by
  simp [windowBudget, h]

/-- Settles O9: by whether the window that begins is quiet. -/
theorem windowStartSetsBudget : Obligations.WindowStartSetsBudget := by
  unfold Obligations.WindowStartSetsBudget
  intro s prorated hdue d
  have hcad : (endCycle (settleWindow s)).cad = (rollWindow s prorated).cad := (endCycle_cad _).trans (cad_settleWindow_of_due hdue)
  refine ⟨endCycle (settleWindow s), rfl, ?_⟩
  rw [hcad]
  refine ⟨rfl, rfl, rfl, rfl, fun hquiet => ?quiet, fun hopen => ?paid, fun hopen hwhole => ?whole⟩
  case quiet => simp [rollWindow, windowBudget_of_quiet hquiet]
  case paid =>
    have hrepay : (rollWindow s prorated).cad.repay = Nat.min d (windowBudget s prorated / 2) := by simp only [rollWindow, updCad_cad, hopen]; rfl
    have hbudget : (rollWindow s prorated).cad.budget = windowBudget s prorated - Nat.min d (windowBudget s prorated / 2) := by
      simp only [rollWindow, updCad_cad, hopen]; rfl
    have hhalf : Nat.min d (windowBudget s prorated / 2) ≤ windowBudget s prorated / 2 := Nat.min_le_right ..
    rw [hrepay, hbudget]
    refine ⟨rfl, Nat.sub_add_cancel (hhalf.trans (Nat.div_le_self ..))⟩
  case whole =>
    subst hwhole
    exact windowBudget_whole hopen

/-! ## The time that a tick gives (R60, R61) -/

/-- The cadence counter once the set that stands is judged at a tick: applied, or refused and the tick's own AET taken. -/
def judgedCad (c : Cad) (x : AetSet) : Cad :=
  { c with
    aet := if judgeSet c.tps (naturalAet c) x == 1 then x.value else naturalAet c
    aetValid := c.aetValid || judgeSet c.tps (naturalAet c) x == 1
    setResult := judgeSet c.tps (naturalAet c) x
    pendingSet := none
    replaced := [] }

/-- The cadence counter with the AET of its next tick. -/
def tickedCad (c : Cad) : Cad :=
  match c.pendingSet with
  | some x => judgedCad c x
  | none => { c with aet := naturalAet c }

theorem tickedCad_of_no_set {c : Cad} (h : c.pendingSet = none) : tickedCad c = { c with aet := naturalAet c } := by simp [tickedCad, h]

theorem tickedCad_of_set {c : Cad} {x : AetSet} (h : c.pendingSet = some x) : tickedCad c = judgedCad c x := by simp [tickedCad, h]

/-- What an applied set leaves to do, its events and the unpowered time, leaves the cadence counter. -/
theorem cad_checkSet (s : State) (x : AetSet) : (checkSet s (naturalAet s.cad) x).cad = judgedCad s.cad x := by
  have hdone : ∀ (t : State) (n : Nat), (completeSets t x n).cad = t.cad := fun t n => cad_of_rest (rest_completeSets (L := but .cad) rfl t x n) rfl
  have hfixed : ∀ (t : State) (u : Nat), (fixUnpowered t u).cad = t.cad := fun t u => cad_of_rest (rest_fixUnpowered (L := but .cad) rfl t u) rfl
  unfold checkSet judgedCad
  cases hresult : judgeSet s.cad.tps (naturalAet s.cad) x == 1 with
  | false => simp [hresult, bne, hdone]
  | true =>
    simp only [hresult, bne, Bool.not_true, Bool.false_eq_true, if_false, if_true]
    repeat' split
    all_goals simp only [raiseEvent_cad, hfixed, updMedia_cad, updCad_cad, hdone]

theorem cad_tickAet (s : State) : (tickAet s).cad = tickedCad s.cad := by
  cases hset : s.cad.pendingSet with
  | none => simp [tickAet, tickedCad, hset]
  | some x => simp only [tickAet, tickedCad, hset, cad_checkSet]

/-! ## What a tick leaves of the cadence counter -/

/-- The cadence counter without what a tick does beyond time: windows, plan, grids, TPS and CAD_OUT. -/
def clock (c : Cad) : Cad :=
  { c with
    tps := 0, pendingTps := none, plan := ⟨0, 0, 0⟩, pendingPlan := none, windowPlan := ⟨0, 0, 0⟩, windowDue := none, firstWindow := false, resumed := false
    forgiven := 0, budget := 0, nominal := 0, repay := 0, charged := 0, chargedNext := 0, debt := 0, drawnRebuild := 0, drawnSweep := 0, rescued := []
    drawnPatrol := [], journalDue := 0, ckptDue := 0, lastT := 0, outPulse := none, outCount := 0 }

theorem clock_tickedCad_settleWindow (s : State) : clock (tickedCad (settleWindow s).cad) = clock (tickedCad s.cad) := by
  cases hdue : s.cad.windowDue with
  | none => rw [settleWindow_of_not_due hdue]
  | some prorated =>
    rw [cad_settleWindow_of_due hdue]
    cases hset : s.cad.pendingSet with
    | none => rw [tickedCad_of_no_set hset, tickedCad_of_no_set (c := (rollWindow s prorated).cad) hset]; rfl
    | some x => rw [tickedCad_of_set hset, tickedCad_of_set (c := (rollWindow s prorated).cad) hset]; rfl

theorem clock_tickTps (s : State) : clock (tickTps s).cad = clock s.cad := by
  unfold tickTps
  repeat' split
  all_goals rfl

theorem clock_regrid (s : State) : clock (regrid s).cad = clock s.cad := rfl

theorem clock_switchPlan (s : State) : clock (switchPlan s).cad = clock s.cad := by
  unfold switchPlan
  split <;> rfl

theorem clock_tickWindow (s : State) (switched starts : Bool) : clock (tickWindow s switched starts).cad = clock s.cad := by
  unfold tickWindow
  dsimp only
  repeat' split
  all_goals rfl

theorem clock_pulseOut (s : State) (c : Nat) (yes : Bool) : clock (pulseOut s c yes).cad = clock s.cad := by
  unfold pulseOut
  split <;> rfl

/-- A tick at a cycle: the AET that it gives, or the set judged, and the cycle. -/
def tickAt (c : Nat) (x : Cad) : Cad := { tickedCad x with lastTick := c }

theorem clock_tickTime (s : State) (c : Nat) : clock (tickTime s c).cad = clock (tickAt c s.cad) := by
  have htps : clock (tickTps (tickAet s)).cad = clock (tickedCad s.cad) := by rw [clock_tickTps, cad_tickAet]
  have hcycle : clock (tickAt c s.cad) = { clock (tickedCad s.cad) with lastTick := c } := rfl
  rw [hcycle, ← htps]
  unfold tickTime
  dsimp only
  split <;> rfl

theorem clock_tickAt_settleWindow (s : State) (c : Nat) : clock (tickAt c (settleWindow s).cad) = clock (tickAt c s.cad) :=
  congrArg (fun x : Cad => { x with lastTick := c }) (clock_tickedCad_settleWindow s)

theorem clock_doTick (s : State) (c : Nat) : clock (doTick s c).cad = clock (tickAt c s.cad) := by
  have htime : clock (tickTime (advanceTo (settleWindow s) c) c).cad = clock (tickAt c s.cad) := by
    rw [clock_tickTime, cad_advanceTo, clock_tickAt_settleWindow]
  rw [← htime]
  unfold doTick
  dsimp only
  repeat' split
  all_goals simp only [clock_tickWindow, clock_switchPlan]

/-- A field of the time that a tick leaves, after the tick's pulse and the end of its cycle. -/
theorem field_of_tick {β : Type} {s : State} {c : Nat} {k : Cad} (hk : tickAt c s.cad = k) (pulse : Bool) (g : Cad → β)
    (hg : ∀ z, g (clock z) = g z := by intro _; rfl) : g (endCycle (pulseOut (doTick s c) c pulse)).cad = g k := by
  rw [← hg, endCycle_cad, clock_pulseOut, clock_doTick, hk, hg]

theorem tickAt_of_no_set {x : Cad} (h : x.pendingSet = none) (c : Nat) : tickAt c x = { x with aet := naturalAet x, lastTick := c } := by
  rw [tickAt, tickedCad_of_no_set h]

theorem tickAt_of_set {x : Cad} {a : AetSet} (h : x.pendingSet = some a) (c : Nat) : tickAt c x = { judgedCad x a with lastTick := c } := by
  rw [tickAt, tickedCad_of_set h]

/-! ## Ticks that the part makes itself (R57, R80) -/

/-- A tick made at the prediction, where no edge came or the source is internal. -/
def ownTick (s : State) (f : Cad → Cad) (pulse : Bool) : State := pulseOut (doTick (updCad s f) s.cad.prediction) s.cad.prediction pulse

/-- A flywheel tick made at a cycle is counted, and the next tick predicted. -/
def flywheelCad (c : Nat) (x : Cad) : Cad :=
  { x with
    prediction := c + x.period, lastWasFlywheel := true, flySinceEdge := true
    flywheelTicks := satAdd 0xFFFF x.flywheelTicks 1, flywheelRun := satAdd 255 x.flywheelRun 1 }

/-- After an internal tick made at a cycle the next one is predicted (R80). -/
def internalCad (c : Nat) (x : Cad) : Cad := { x with prediction := c + 1000000, lastWasFlywheel := false }

theorem exec_flywheelTick {s : State} (hp : s.kf.porst = false) (hst : s.power.st < 3) (hext : s.cad.internal = false) :
    exec .flywheelTick s = settled (ownTick s (flywheelCad s.cad.prediction) (s.cad.outEnable && s.cad.outFlywheel)) := by
  have hdeep : ¬ 3 ≤ s.power.st := by omega
  have hexec : exec .flywheelTick s = execFlywheelTick s := rfl
  rw [hexec, execFlywheelTick, if_neg (by simp [hp, hext, hdeep])]
  rfl

theorem exec_internalTick {s : State} (hp : s.kf.porst = false) (hint : s.cad.internal = true) :
    exec .internalTick s = settled (ownTick s (internalCad s.cad.prediction) s.cad.outEnable) := by
  have hexec : exec .internalTick s = execInternalTick s := rfl
  rw [hexec, execInternalTick, if_neg (by simp [hp, hint])]
  rfl

/-- Where no set stands, a tick that the part makes itself takes the next AET at the predicted cycle. -/
theorem ownTick_of_no_set {s : State} {f : Cad → Cad} (hset : (f s.cad).pendingSet = none) (pulse : Bool) :
    let t := endCycle (ownTick s f pulse)
    t.cad.aet = naturalAet (f s.cad) ∧ t.cad.lastTick = s.cad.prediction ∧ t.cad.prediction = (f s.cad).prediction := by
  have htick := tickAt_of_no_set (x := (updCad s f).cad) hset s.cad.prediction
  exact ⟨field_of_tick htick pulse Cad.aet, field_of_tick htick pulse Cad.lastTick, field_of_tick htick pulse Cad.prediction⟩

/-- Where a set stands, the tick judges it. -/
theorem ownTick_of_set {s : State} {f : Cad → Cad} {x : AetSet} (hset : (f s.cad).pendingSet = some x) (pulse : Bool) :
    let t := endCycle (ownTick s f pulse)
    let k := judgedCad (f s.cad) x
    t.cad.pendingSet = none ∧ t.cad.setResult = k.setResult ∧ t.cad.aet = k.aet ∧ t.cad.aetValid = k.aetValid := by
  have htick := tickAt_of_set (x := (updCad s f).cad) hset s.cad.prediction
  exact ⟨field_of_tick htick pulse Cad.pendingSet, field_of_tick htick pulse Cad.setResult, field_of_tick htick pulse Cad.aet,
    field_of_tick htick pulse Cad.aetValid⟩

/-! ## Edges while locked (R54, R57, R58) -/

/-- An edge taken as a tick: it re-phases the prediction and ends the flywheel's run. -/
def acceptEdge (s : State) (c : Nat) : State :=
  updCad (takeEdge s c (!s.cad.flySinceEdge)) (fun y =>
    let p := if y.intervals.length == 16 then meanOf y.intervals else y.period
    { y with period := p, prediction := c + p, lastWasFlywheel := false, flywheelRun := 0 })

theorem lockedEdge_of_tick {s : State} {c : Nat} (h : edgeTicks s.cad c = true) :
    lockedEdge s c = pulseOut (doTick (acceptEdge s c) c) c s.cad.outEnable := if_pos h

theorem lockedEdge_of_spurious {s : State} {c : Nat} (h : edgeTicks s.cad c = false) (hown : s.cad.lastWasFlywheel = false) :
    lockedEdge s c = updCad s (fun y => { y with spurious := satAdd 0xFFFF y.spurious 1 }) := by
  simp [lockedEdge, h, hown]

/-- An edge that ticks where no set stands takes the next AET at its own cycle. -/
theorem lockedEdge_ticks {s : State} {c : Nat} (h : edgeTicks s.cad c = true) (hset : s.cad.pendingSet = none) :
    let t := endCycle (lockedEdge s c)
    t.cad.aet = naturalAet s.cad ∧ t.cad.lastTick = c ∧ t.cad.flywheelRun = 0 := by
  have htick := tickAt_of_no_set (x := (acceptEdge s c).cad) hset c
  rw [lockedEdge_of_tick h]
  exact ⟨field_of_tick htick _ Cad.aet, field_of_tick htick _ Cad.lastTick, field_of_tick htick _ Cad.flywheelRun⟩

section Edge

variable {s : State} {c : Nat} (hp : s.kf.porst = false) (hext : s.cad.internal = false)
include hp hext

theorem exec_edge_locked (hst : s.power.st < 3) (hlock : s.cad.locked = true) (hc : s.now ≤ c) :
    exec (.cadTickEdge c true) s = settled (lockedEdge (advanceTo s c) c) := by
  have hdeep : ¬ 3 ≤ s.power.st := by omega
  have hexec : exec (.cadTickEdge c true) s = execCadTickEdge c true s := rfl
  rw [hexec, execCadTickEdge]
  simp [hp, hext, hdeep, hlock, now_advanceTo hc]

theorem exec_edge_short : exec (.cadTickEdge c false) s = settled (runtOut (advanceTo s c)) := by
  have hexec : exec (.cadTickEdge c false) s = execCadTickEdge c false s := rfl
  rw [hexec, execCadTickEdge]
  simp [hp, hext]

end Edge

/-- A pulse too short to be an edge is seen on CAD_OUT alone, where the edge would have been a tick (R58). -/
theorem cad_runtOut {s : State} (hst : s.power.st < 3) :
    (runtOut s).cad = { s.cad with outRunts := s.cad.outRunts + (if s.cad.outEnable && edgeTicks s.cad s.now then 1 else 0) } := by
  unfold runtOut
  cases s.cad.outEnable <;> cases edgeTicks s.cad s.now <;> simp [hst]

theorem edgeTicks_of_near {x : Cad} {c : Nat} (hlock : x.locked = true) (hlow : x.prediction ≤ c + x.period / 50) (hhigh : c ≤ x.prediction) :
    edgeTicks x c = true := by simp [edgeTicks, hlock, hlow, hhigh]

theorem edgeTicks_of_early {x : Cad} {c : Nat} (h : c + x.period / 50 < x.prediction) : edgeTicks x c = false := by
  simp [edgeTicks, Nat.not_le.mpr h]

/-- Settles O6: the part's own ticks, then an edge near the prediction, a pulse cut short and an edge far before it. -/
theorem ticksAdvanceAet : Obligations.TicksAdvanceAet := by
  unfold Obligations.TicksAdvanceAet
  intro s hp hst hset next
  refine ⟨fun hext => ?flywheel, fun hint => ?internal, fun hext hlock c hc hlow hhigh => ?edge, fun c hext hlock hc => ⟨?short, fun hearly hown => ?spurious⟩⟩
  case flywheel => exact ⟨_, exec_flywheelTick hp hst hext, ownTick_of_no_set hset _⟩
  case internal => exact ⟨_, exec_internalTick hp hint, ownTick_of_no_set hset _⟩
  case edge =>
    have hcad := cad_advanceTo s c
    have hticks : edgeTicks (advanceTo s c).cad c = true := by rw [hcad]; exact edgeTicks_of_near hlock hlow hhigh
    have htick := lockedEdge_ticks hticks (by rw [hcad]; exact hset)
    rw [hcad] at htick
    exact ⟨_, exec_edge_locked hp hext hst hlock hc, htick⟩
  case short =>
    refine ⟨_, exec_edge_short hp hext, ?_⟩
    rw [endCycle_cad, cad_runtOut (by rwa [powerSt_advanceTo]), cad_advanceTo, now_advanceTo hc]
  case spurious =>
    have hspurious := lockedEdge_of_spurious (s := advanceTo s c) (by rw [cad_advanceTo]; exact edgeTicks_of_early hearly) (by rwa [cad_advanceTo])
    refine ⟨_, exec_edge_locked hp hext hst hlock hc, ?_⟩
    rw [hspurious, endCycle_cad, updCad_cad, cad_advanceTo]
    rfl

/-! ## Sets of AET (R61, R64, R70) -/

section Judged

variable {tps own : Nat} {x : AetSet}

theorem judgeSet_invalid (h : tps ≤ aetTick x.value) : judgeSet tps own x = 3 := if_pos h

theorem judgeSet_backward (h : aetTick x.value < tps) (hback : x.value + 2 * 65536 < own) (hforce : x.force = false) : judgeSet tps own x = 2 := by
  simp [judgeSet, Nat.not_le.mpr h, hback, hforce]

theorem judgeSet_applied (h : aetTick x.value < tps) (hgood : own ≤ x.value + 2 * 65536 ∨ x.force = true) : judgeSet tps own x = 1 := by
  have hkept : (x.value + 2 * 65536 < own && !x.force) = false := by
    rcases hgood with hnear | hforce
    · simp [Nat.not_lt.mpr hnear]
    · simp [hforce]
  simp [judgeSet, Nat.not_le.mpr h, hkept]

end Judged

/-- A refused set leaves the tick's own AET. -/
theorem judgedCad_refused {c : Cad} {x : AetSet} {n : Nat} (h : judgeSet c.tps (naturalAet c) x = n) (hn : n ≠ 1) :
    (judgedCad c x).setResult = n ∧ (judgedCad c x).aet = naturalAet c ∧ (judgedCad c x).aetValid = c.aetValid := by
  simp [judgedCad, h, hn]

theorem judgedCad_applied {c : Cad} {x : AetSet} (h : judgeSet c.tps (naturalAet c) x = 1) :
    (judgedCad c x).setResult = 1 ∧ (judgedCad c x).aet = x.value ∧ (judgedCad c x).aetValid = true := by
  simp [judgedCad, h]

theorem writeAetSetCtrl_apply {v : Word} (h : v.getLsbD 0 = true) (s : State) :
    writeAetSetCtrl s v = submitSet s ⟨s.cad.setHi.toNat * 2 ^ 32 + s.cad.setLo.toNat, v.getLsbD 1, none⟩ := by
  rw [writeAetSetCtrl, h]
  rfl

theorem writeAetSetCtrl_idle {v : Word} (h : v.getLsbD 0 = false) (s : State) : writeAetSetCtrl s v = s := by
  rw [writeAetSetCtrl, h]
  rfl

theorem writeCadTps_fixes {v : Word} (hlow : 250 ≤ bits v.toNat 12 0) (hhigh : bits v.toNat 12 0 ≤ 4000) (s : State) :
    writeCadTps s v = wantTps (updCad s (fun c => { c with tpsFixed := bits v.toNat 12 0 })) (bits v.toNat 12 0) := by
  have hne : ¬ bits v.toNat 12 0 = 0 := by omega
  simp [writeCadTps, hne, hlow, hhigh]

theorem writeCadTps_derives {v : Word} (h : bits v.toNat 12 0 = 0) (s : State) :
    writeCadTps s v = wantTps (updCad s (fun c => { c with tpsFixed := 0 })) s.cad.lockTps := by
  simp [writeCadTps, h]

theorem writeCadTps_ignores {v : Word} (hne : bits v.toNat 12 0 ≠ 0) (h : bits v.toNat 12 0 < 250 ∨ 4000 < bits v.toNat 12 0) (s : State) :
    writeCadTps s v = s := by
  have hout : ¬ (250 ≤ bits v.toNat 12 0 ∧ bits v.toNat 12 0 ≤ 4000) := by omega
  simp only [writeCadTps, beq_iff_eq, hne, if_false, Bool.and_eq_true, decide_eq_true_eq, hout]

theorem pendingTps_wantTps (s : State) (n : Nat) : (wantTps s n).cad.pendingTps = if n = s.cad.tps then none else some n := by
  simp [wantTps]

/-- Settles O8: the standing set by its judgement at a flywheel tick, the registers by what each read or write makes of the cadence counter. -/
theorem timeIsReadAndSet : Obligations.TimeIsReadAndSet := by
  unfold Obligations.TimeIsReadAndSet
  intro s
  refine ⟨fun x hp hext hst hset => ?judged, ?read, fun v hv => ?apply, fun v hv => ?idle, fun v hlow hhigh => ?fixes, fun v hv => ?derives,
    fun v hne hout => ?ignores⟩
  case judged =>
    intro own
    obtain ⟨hnone, hresult, haet, hvalid⟩ := ownTick_of_set (s := s) (f := flywheelCad s.cad.prediction) hset (s.cad.outEnable && s.cad.outFlywheel)
    refine ⟨_, exec_flywheelTick hp hst hext, hnone, ?_⟩
    rw [hresult, haet, hvalid]
    exact ⟨fun hticks => judgedCad_refused (judgeSet_invalid hticks) (by decide),
      fun hticks hback hforce => judgedCad_refused (judgeSet_backward hticks hback hforce) (by decide),
      fun hticks hgood => judgedCad_applied (judgeSet_applied hticks hgood)⟩
  case read => exact ⟨readAetLo s, rfl, lo32_toNat _, lo32_toNat _, rfl⟩
  case apply => exact ⟨_, congrArg Host.Outcome.next (writeAetSetCtrl_apply hv s), rfl, rfl⟩
  case idle => exact congrArg Host.Outcome.next (writeAetSetCtrl_idle hv s)
  case fixes => exact ⟨_, congrArg Host.Outcome.next (writeCadTps_fixes hlow hhigh s), rfl, rfl, pendingTps_wantTps ..⟩
  case derives => exact ⟨_, congrArg Host.Outcome.next (writeCadTps_derives hv s), rfl, rfl, pendingTps_wantTps ..⟩
  case ignores => exact congrArg Host.Outcome.next (writeCadTps_ignores hne hout s)

end Sys2Proof.Proofs
end

section
/-! PROOFS. Loss of cadence and its source (R77, R79, R519): the flag CADENCE_LOST, and what a change of CAD_CONTROL.SOURCE makes of the counter. -/
namespace Sys2Proof.Proofs
open Sys2Proof Sys2Proof.Machine Sys2Proof.Laws

/-! ## One flag changed -/

theorem flag_withFlag_true (c : Half) {n : Nat} (hn : n < 16) : flag (withFlag c n true) n = true := by
  have hword : withFlag c n true = c ||| BitVec.twoPow 16 n := rfl
  rw [hword, flag, BitVec.getLsbD_or, BitVec.getLsbD_twoPow]
  simp [hn]

/-- Before FAILED, a flag that R26 ties to no other and to no strap is as it was set. -/
theorem flag_setFlags_single {s : State} (h : flag s.cond bFailed = false) {n : Nat} (hn : n < 16) (hr : n ≠ bRebuilding) (ht : n ≠ bTwinSolo) (v : Bool) :
    flag (setFlags s [(n, v)]).cond n = v := by
  have hcond : (setFlags s [(n, v)]).cond = nextCond s.twin.en s.cond (withFlag s.cond n v) := rfl
  rw [hcond, flag_nextCond h]
  cases v with
  | true => simp [flag_withFlag_true _ hn, hr, ht]
  | false => simp [flag_withFlag_false]

theorem flag_cadLost {s : State} (h : flag s.cond bFailed = false) (v : Bool) : flag (setFlags s [(bCadLost, v)]).cond bCadLost = v :=
  flag_setFlags_single h (by decide) (by decide) (by decide) v

/-! ## Loss (R77, R79, R519) -/

theorem exec_cadenceLostSet {s : State} (hlock : s.cad.locked = true) (hext : s.cad.internal = false) (hrun : 32 ≤ s.cad.flywheelRun) :
    exec .cadenceLostSet s = settled (updCad (setFlags s [(bCadLost, true)]) (fun x => { x with locked := false, intervals := [], lastEdge := none })) := by
  have hexec : exec .cadenceLostSet s = execCadenceLostSet s := rfl
  rw [hexec, execCadenceLostSet, if_neg (by simp [hlock, hext, hrun])]

theorem exec_lockTimeout {s : State} {c start : Nat} (hfrom : s.cad.lockFrom = some start) (hrel : s.kf.released = true) (hlock : s.cad.locked = false)
    (hext : s.cad.internal = false) (hc : s.now ≤ c) (hlate : start + 100000000 ≤ c) :
    exec (.lockTimeout c) s = settled (updCad (setFlags (advanceTo s c) [(bCadLost, true)]) (fun x => { x with lockFrom := none })) := by
  have hexec : exec (.lockTimeout c) s = execLockTimeout c s := rfl
  rw [hexec, execLockTimeout]
  simp [hfrom, hrel, hlock, hext, now_advanceTo hc, hlate]

/-! ## A change of SOURCE (R80, R519) -/

/-- The counter as SOURCE 1 takes it over: ticks of 1 ms from the last one on. -/
theorem writeCadControl_internal {t : State} {v : Word} (hv : v.getLsbD 0 = true) (hext : t.cad.internal = false) :
    let u := writeCadControl t v
    u.cond = (setFlags t [(bCadLost, false)]).cond ∧ u.cad.internal = true ∧ u.cad.locked = false ∧ u.cad.period = 1000000 ∧
      u.cad.prediction = Nat.max (t.cad.lastTick + 1000000) (t.now + 1) ∧ u.cad.aet = t.cad.aet := by
  have hchanged : ((true : Bool) == false) = false := rfl
  cases hfix : t.cad.tpsFixed == 0 <;>
    simp only [writeCadControl, wantTps, setFlags_cad, updCad_cad, updCad_now, updCad_cond, hv, hext, hchanged, hfix, Bool.false_eq_true, if_false,
      if_true, and_true] <;>
    rfl

/-- With SOURCE 0 lock is sought from the write on. -/
theorem writeCadControl_external {t : State} {v : Word} (hv : v.getLsbD 0 = false) (hint : t.cad.internal = true) :
    let u := writeCadControl t v
    u.cond = t.cond ∧ u.cad.internal = false ∧ u.cad.locked = false ∧ u.cad.lockFrom = some t.now ∧ u.cad.period = 1000000 ∧
      u.cad.prediction = t.cad.prediction ∧ u.cad.aet = t.cad.aet := by
  have hchanged : ((false : Bool) == true) = false := rfl
  simp only [writeCadControl, updCad_cad, hv, hint, hchanged, Bool.false_eq_true, if_false, true_and, and_true]
  exact ⟨rfl, rfl⟩

/-- Settles O7: the two losses by the flag that they set, the two changes of SOURCE by the counter that they leave. -/
theorem cadenceIsLostAndSourced : Obligations.CadenceIsLostAndSourced := by
  unfold Obligations.CadenceIsLostAndSourced
  intro s hlive
  have hlive' : ∀ c, flag (advanceTo s c).cond bFailed = false := fun c => by rwa [cond_advanceTo]
  refine ⟨fun hlock hext hrun => ?run, fun c start hfrom hrel hlock hext hc hlate => ?timeout, fun c v hc hv hext => ?internal, fun c v hc hv hint => ?external⟩
  case run =>
    refine ⟨_, exec_cadenceLostSet hlock hext hrun, ?_, ?_⟩
    · rw [endCycle_cond]; exact flag_cadLost hlive true
    · rw [endCycle_cad]; exact ⟨rfl, rfl⟩
  case timeout =>
    refine ⟨_, exec_lockTimeout hfrom hrel hlock hext hc hlate, ?_, ?_⟩
    · rw [endCycle_cond]; exact flag_cadLost (hlive' c) true
    · rw [endCycle_cad]; rfl
  case internal =>
    obtain ⟨hcond, hcad⟩ := writeCadControl_internal (t := advanceTo s c) hv (by rwa [cad_advanceTo])
    rw [cad_advanceTo, now_advanceTo hc] at hcad
    refine ⟨endCycle (writeCadControl (advanceTo s c) v), rfl, ?_⟩
    rw [endCycle_cond, hcond, endCycle_cad]
    exact ⟨flag_cadLost (hlive' c) false, hcad⟩
  case external =>
    have hsought := writeCadControl_external (t := advanceTo s c) hv (by rwa [cad_advanceTo])
    rw [cad_advanceTo, cond_advanceTo, now_advanceTo hc] at hsought
    refine ⟨endCycle (writeCadControl (advanceTo s c) v), rfl, ?_⟩
    rwa [endCycle_cond, endCycle_cad]

end Sys2Proof.Proofs
end

section
/-! PROOFS. Features (R61, R68, R76, R174 to R176): a SET_FEATURE that is due puts its value in force and ends, what its MODE makes of the saved value,
and what GET_FEATURE answers. -/
namespace Sys2Proof.Proofs
open Sys2Proof Sys2Proof.Machine Sys2Proof.Laws

/-! ## Commands in their contexts -/

theorem ctxOf_of_ctxIn {s : State} {cid op : Nat} {c : Ctx} (h : ctxIn s cid op = some c) : ctxOf s cid = some c := by
  unfold ctxIn at h
  split at h
  · cases h
  · rename_i d hd
    split at h
    · rw [hd, Option.some.inj h]
    · cases h

theorem ctxOf_of_featureIn {s : State} {cid f : Nat} {c : Ctx} (h : featureIn s cid f = some c) : ctxOf s cid = some c :=
  ctxOf_of_ctxIn (Option.filter_eq_some_iff.mp h).1

theorem eFeature_of_featureIn {s : State} {cid f : Nat} {c : Ctx} (h : featureIn s cid f = some c) : eFeature c.dw = f := by
  have hturn := (Option.filter_eq_some_iff.mp h).2
  simp only [Bool.and_eq_true, beq_iff_eq] at hturn
  exact hturn.1.2

theorem endedWith_congr {s t : State} (h : t.ctxs = s.ctxs) {cid : Nat} {r0 r1 : Word} (hs : endedWith s cid r0 r1) : endedWith t cid r0 r1 := by
  unfold endedWith at *
  rwa [ctxOf_congr h]

theorem endedWith_perform {s : State} {cid : Nat} {c : Ctx} (h : ctxOf s cid = some c) (r0 r1 : Word) : endedWith (perform s cid r0 r1) cid r0 r1 :=
  ⟨_, ctxOf_updCtx h fun _ h => h, rfl, rfl, rfl, rfl⟩

/-! ## A SET_FEATURE that is due (R174, R175) -/

/-- A device-wide value that no partner has still to acknowledge takes effect (R406). -/
theorem featureMirrored_due {s : State} {cid f : Nat} {c : Ctx} (h : featureDue s cid f c) (go : State → State) : featureMirrored s c go = go s := by
  obtain ⟨hin, hasked, hacked⟩ := h
  have hfeature := eFeature_of_featureIn hin
  have hsent : (mirroring s && !c.mapAsked && featureScope (eFeature c.dw) c.port == 0) = false := by
    rw [hfeature]
    by_contra hsend
    simp only [Bool.not_eq_false, Bool.and_eq_true, Bool.not_eq_true', beq_iff_eq] at hsend
    obtain ⟨⟨hmirror, hfirst⟩, hscope⟩ := hsend
    exact Bool.noConfusion (hfirst.symm.trans (hasked hmirror hscope))
  have hstands : (c.mapAsked && !c.awaitAck.all (acked s)) = false := by
    cases hc : c.mapAsked with
    | false => rfl
    | true => rw [hacked hc]; rfl
  simp only [featureMirrored, hsent, hstands, Bool.false_eq_true, if_false]

/-- What a device-wide SET_FEATURE leaves before its command ends: its value in force unless MODE 2 forgets only, and the saved one. -/
def featureTaken (s : State) (c : Ctx) (a : State → Ctx → State) : State := saveValue (if eMode c.dw == 2 then s else a s c) c

theorem setFeature_device {s : State} {cid f : Nat} {c : Ctx} (h : featureDue s cid f c) (hscope : featureScope f c.port = 0) (a : State → Ctx → State) :
    setFeature s cid f a = perform (featureTaken s c a) cid 0 0 := by
  unfold setFeature
  simp only [h.1]
  rw [featureMirrored_due h, if_pos (by rw [hscope]; rfl)]
  rfl

theorem rest_featureTaken (s : State) (c : Ctx) (a : State → Ctx → State) :
    rest [.kf] (featureTaken s c a) = rest [.kf] (if eMode c.dw == 2 then s else a s c) := rest_saveValue (by decide) _ _

/-- The command ends with success where its value's taking effect leaves the contexts. -/
theorem setFeature_ends {s : State} {cid f : Nat} {c : Ctx} (h : featureDue s cid f c) (hscope : featureScope f c.port = 0) {a : State → Ctx → State}
    (ha : (a s c).ctxs = s.ctxs) : endedWith (setFeature s cid f a) cid 0 0 := by
  have hctxs : (featureTaken s c a).ctxs = s.ctxs := by
    rw [ctxs_of_rest (rest_featureTaken s c a) rfl]
    split
    · rfl
    · exact ha
  rw [setFeature_device h hscope]
  exact endedWith_perform ((ctxOf_congr hctxs cid).trans (ctxOf_of_featureIn h.1)) 0 0

section Forced

variable {s : State} {cid f : Nat} {c : Ctx} (h : featureDue s cid f c) (hscope : featureScope f c.port = 0) (hmode : eMode c.dw ≠ 2)
include h hscope hmode

/-- A command that does not only forget puts its value in force. -/
theorem rest_setFeature_forced (a : State → Ctx → State) : rest [.kf, .ctxs] (setFeature s cid f a) = rest [.kf, .ctxs] (a s c) := by
  have hforced : (if eMode c.dw == 2 then s else a s c) = a s c := if_neg (by simpa using hmode)
  rw [setFeature_device h hscope]
  exact (rest_perform (by decide) ..).trans ((rest_saveValue (by decide) ..).trans (by rw [hforced]))

theorem feat_setFeature_forced (a : State → Ctx → State) : (setFeature s cid f a).feat = (a s c).feat :=
  feat_of_rest (rest_setFeature_forced h hscope hmode a) rfl

theorem cad_setFeature_forced (a : State → Ctx → State) : (setFeature s cid f a).cad = (a s c).cad :=
  cad_of_rest (rest_setFeature_forced h hscope hmode a) rfl

end Forced

/-! ## Grids (R76) -/

theorem lt_nextGrid (t : Nat) {i : Nat} (hi : i ≠ 0) : t < nextGrid t i := by
  rw [nextGrid, if_neg (by simpa using hi)]
  exact Nat.lt_mul_of_div_lt (Nat.lt_succ_self _) (Nat.pos_of_ne_zero hi)

theorem nextGrid_mod (t : Nat) {i : Nat} (hi : i ≠ 0) : nextGrid t i % i = 0 := by
  rw [nextGrid, if_neg (by simpa using hi)]
  exact Nat.mul_mod_left ..

/-- A grid point that has come stays due (R76). -/
theorem dueAfter_late {due now : Nat} (h : due ≤ now) (next : Nat) : dueAfter due now next = due := if_pos h

theorem dueAfter_ahead {due now : Nat} (h : now < due) (next : Nat) : dueAfter due now next = next := if_neg (Nat.not_le.mpr h)

/-- PATROL_CYCLE's new grid points leave the other features. -/
theorem feat_applyPatrolCycle (s : State) (days : Nat) : (applyPatrolCycle s days).feat = { s.feat with patrolDays := days } := by
  unfold applyPatrolCycle
  exact view_foldl (view := State.feat) (by intro t p; rfl) _ _

/-- Settles O27: each feature by what its value's taking effect makes of the state. -/
theorem deviceFeaturesTakeEffect : Obligations.DeviceFeaturesTakeEffect := by
  unfold Obligations.DeviceFeaturesTakeEffect
  intro s cid c hmode
  refine ⟨fun h => ?timers, fun h => ?plan, fun h => ?patrol, fun h => ?thermal, fun h => ?journal, fun h => ?share, fun h => ?horizon⟩
  case timers => exact ⟨_, rfl, setFeature_ends h rfl rfl, feat_setFeature_forced h rfl hmode _⟩
  case plan => exact ⟨_, rfl, setFeature_ends h rfl rfl, cad_setFeature_forced h rfl hmode _⟩
  case patrol =>
    refine ⟨_, rfl, setFeature_ends h rfl ?_, (feat_setFeature_forced h rfl hmode _).trans (feat_applyPatrolCycle ..)⟩
    exact ctxs_of_rest (rest_applyPatrolCycle (L := but .ctxs) rfl s _) rfl
  case thermal => exact ⟨_, rfl, setFeature_ends h rfl rfl, feat_setFeature_forced h rfl hmode _⟩
  case journal =>
    have hcad := cad_setFeature_forced h rfl hmode (fun s c => applyJournalInterval s (eCdw c.dw 1))
    have hticks : Nat.max (eCdw c.dw 1) 1 ≠ 0 := Nat.ne_of_gt (Nat.le_max_right ..)
    refine ⟨_, rfl, setFeature_ends h rfl rfl, feat_setFeature_forced h rfl hmode _, congrArg Cad.journalTicks hcad, fun hlate => ?_, fun hahead => ?_⟩
    · exact (congrArg Cad.journalDue hcad).trans (dueAfter_late hlate _)
    · have hdue := (congrArg Cad.journalDue hcad).trans (dueAfter_ahead hahead (nextGrid (nowT s) (Nat.max (eCdw c.dw 1) 1)))
      exact ⟨(lt_nextGrid (nowT s) hticks).trans_eq hdue.symm, (congrArg (· % Nat.max (eCdw c.dw 1) 1) hdue).trans (nextGrid_mod _ hticks)⟩
  case share => exact ⟨_, rfl, setFeature_ends h rfl rfl, feat_setFeature_forced h rfl hmode _⟩
  case horizon =>
    have hrest : ∀ t : State, rest [.raised, .media] (recomputeHorizon t) = rest [.raised, .media] t := rest_recomputeHorizon (by decide)
    have hctxs : ∀ t : State, (recomputeHorizon t).ctxs = t.ctxs := fun t => ctxs_of_rest (hrest t) rfl
    refine ⟨_, rfl, endedWith_congr (endCycle_ctxs _) (setFeature_ends h rfl (hctxs _)), ?_⟩
    rw [endCycle_feat, feat_setFeature_forced h rfl hmode]
    exact feat_of_rest (hrest _) rfl

/-! ## The saved value (R175) -/

theorem savedOf_congr {s t : State} (h : t.kf = s.kf) (scope f : Nat) : savedOf t scope f = savedOf s scope f := by unfold savedOf; rw [h]

/-- The value saved, or none, is found in the place of what was saved before. -/
theorem find_putSaved (l : List (Nat × Nat × List Word)) (scope f : Nat) (v : Option (List Word)) :
    (putSaved l scope f v).find? (fun x => x.1 == scope && x.2.1 == f) = v.map (fun w => (scope, f, w)) := by
  have hgone : (l.filter (fun x => !(x.1 == scope && x.2.1 == f))).find? (fun x => x.1 == scope && x.2.1 == f) = none := by
    rw [List.find?_eq_none]
    intro x hx
    exact Bool.eq_false_iff.mp (by simpa only [Bool.not_eq_true'] using (List.mem_filter.mp hx).2)
  unfold putSaved
  rw [List.find?_append, hgone]
  cases v with
  | none => rfl
  | some w => simp

theorem savedOf_putSaved (s : State) (scope f : Nat) (v : Option (List Word)) :
    savedOf (updKf s (fun k => { k with saved := putSaved k.saved scope f v })) scope f = v := by
  have hfound := find_putSaved s.kf.saved scope f v
  rw [savedOf, updKf_kf, hfound]
  cases v <;> rfl

/-- MODE 1 saves the values of the entry, MODE 2 forgets what was saved. -/
theorem savedOf_saveValue (s : State) (c : Ctx) :
    (eMode c.dw = 1 → savedOf (saveValue s c) (featureScope (eFeature c.dw) c.port) (eFeature c.dw) = some (eValues c.dw)) ∧
    (eMode c.dw = 2 → savedOf (saveValue s c) (featureScope (eFeature c.dw) c.port) (eFeature c.dw) = none) := by
  constructor
  · intro hmode
    rw [saveValue, if_pos (by rw [hmode]; rfl)]
    exact savedOf_putSaved ..
  · intro hmode
    rw [saveValue, if_neg (by rw [hmode]; decide), if_pos (by rw [hmode]; rfl)]
    exact savedOf_putSaved ..

section Saved

variable {s : State} {cid f : Nat} {c : Ctx} (h : featureDue s cid f c) (hscope : featureScope f c.port = 0)
include h hscope

/-- The saved value of a device-wide feature after its SET_FEATURE. -/
theorem savedOf_setFeature (a : State → Ctx → State) :
    savedOf (setFeature s cid f a) 0 f =
      savedOf (saveValue (if eMode c.dw == 2 then s else a s c) c) (featureScope (eFeature c.dw) c.port) (eFeature c.dw) := by
  rw [setFeature_device h hscope, eFeature_of_featureIn h.1, hscope]
  exact savedOf_congr (kf_of_rest (rest_perform (L := [.ctxs]) rfl ..) rfl) ..

/-- MODE 2 changes nothing in force. -/
theorem feat_setFeature_forgets (hmode : eMode c.dw = 2) (a : State → Ctx → State) : (setFeature s cid f a).feat = s.feat := by
  have hkept : (if eMode c.dw == 2 then s else a s c) = s := if_pos (by rw [hmode]; rfl)
  rw [setFeature_device h hscope]
  exact feat_of_rest ((rest_perform (L := [.kf, .ctxs]) rfl ..).trans ((rest_saveValue rfl ..).trans (by rw [hkept]))) rfl

end Saved

/-! ## ARCHIVE_TIME (R61) -/

/-- A set submitted where none stands and none was replaced. -/
theorem cad_submitSet_first {s : State} (hnone : s.cad.pendingSet = none) (hreplaced : s.cad.replaced = []) (x : AetSet) :
    (submitSet s x).cad = { s.cad with pendingSet := some x } := by
  simp [submitSet, hnone, hreplaced]

theorem exec_setArchiveTime {s : State} {cid : Nat} {c : Ctx} (h : featureDue s cid 0x0D c) (hnone : s.cad.pendingSet = none)
    (hreplaced : s.cad.replaced = []) :
    exec (.setArchiveTime cid) s = .next (submitSet s ⟨eCdw c.dw 1 + 2 ^ 32 * eCdw c.dw 2, bits (eCdw c.dw 3) 0 0 == 1, some cid⟩) := by
  have hexec : exec (.setArchiveTime cid) s = execSetArchiveTime cid s := rfl
  rw [hexec, execSetArchiveTime]
  simp only [h.1]
  have hfresh : ((s.cad.pendingSet.bind (·.cid)) == some cid || s.cad.replaced.contains cid) = false := by simp [hnone, hreplaced]
  simp only [hfresh, Bool.false_eq_true, if_false]
  exact congrArg Host.Outcome.next (featureMirrored_due h _)

/-! ## USER_CALIBRATION and GET_FEATURE (R174, R453) -/

/-- A new copy of the overlay with the item that the entry names. -/
def withOverlay (s : State) (c : Ctx) : State :=
  let items := putItem (eCdw c.dw 1) (int32 (eCdw c.dw 2)) s.kf.overlay
  let seq := s.kf.ovlSeq + 1
  updKf s (fun k => { k with mem := appendOverlay k.mem (overlayBytes seq items), overlay := items, ovlSeq := seq })

theorem exec_setUserCalibration {s : State} {cid : Nat} {c : Ctx} (hin : keeperIn s cid 0x83 = some c) (hf : eFeature c.dw = 0x0E) :
    exec (.setUserCalibration cid) s = .next (perform (withOverlay s c) cid 0 0) := by
  have hexec : exec (.setUserCalibration cid) s = execSetUserCalibration cid s := rfl
  rw [hexec, execSetUserCalibration]
  simp only [hin]
  rw [if_neg (by simp [hf])]
  rfl

theorem featureRecord_length (v : FeatVal) (saved : Bool) : (featureRecord v saved).length = 32 := by
  simp [featureRecord, zeros]

/-- Bytes that fit one extent are delivered to it as they are. -/
theorem deliver_single (s : State) (p : Port) (a : Nat) {bs : List Byte} {n : Nat} (hn : bs.length = n + 1) :
    deliver s p [(a, n + 1)] bs = emit s (.bytes p a bs) := by
  have hsome : bs.isEmpty = false := by cases bs <;> simp_all
  simp [deliver, spill, hsome, List.take_of_length_le hn.le]

section Get

variable {s : State} {cid : Nat} {c : Ctx} (hin : ctxIn s cid 0x82 = some c)
include hin

theorem exec_getFeature (hlen : eExtLen c.dw ≠ 32) :
    let v := selectedVal s c.port (eFeature c.dw) (eCdw c.dw 1) (eMode c.dw)
    exec (.getFeature cid) s = .next (perform s cid (w32 v.2.1) (w32 v.2.2.1)) := by
  have hexec : exec (.getFeature cid) s = execGetFeature cid s := rfl
  rw [hexec, execGetFeature]
  simp only [hin]
  rw [if_neg (by simpa using hlen)]

theorem exec_getFeature_record (hlen : eExtLen c.dw = 32) (hrun : keeperHalted s = false) :
    let v := selectedVal s c.port (eFeature c.dw) (eCdw c.dw 1) (eMode c.dw)
    let saved := (savedOf s (featureScope (eFeature c.dw) c.port) (eFeature c.dw)).isSome
    exec (.getFeature cid) s = .next (perform (emit s (.bytes c.port (eExtAddr c.dw) (featureRecord v saved))) cid (w32 v.2.1) (w32 v.2.2.1)) := by
  have hexec : exec (.getFeature cid) s = execGetFeature cid s := rfl
  rw [hexec, execGetFeature]
  simp only [hin]
  rw [if_pos (by simpa using hlen), if_neg (by simp [hrun]), deliver_single s c.port (eExtAddr c.dw) (n := 31) (featureRecord_length ..)]

end Get

/-- Settles O29: a set submitted, an overlay written, a value saved or forgotten, and the answer of GET_FEATURE with and without its record. -/
theorem featuresAreSavedAndAnswered : Obligations.FeaturesAreSavedAndAnswered := by
  unfold Obligations.FeaturesAreSavedAndAnswered
  intro s cid c
  refine ⟨fun h hnone hreplaced => ?archive, fun hin hf => ?calibration, fun h hmode => ?saves, fun h hmode => ?forgets, fun hin => ⟨fun hlen => ?get, fun hlen hrun => ?record⟩⟩
  case archive => exact ⟨_, exec_setArchiveTime h hnone hreplaced, ctxOf_of_featureIn h.1, cad_submitSet_first hnone hreplaced _⟩
  case calibration =>
    have hctx : ctxOf (withOverlay s c) cid = some c := ctxOf_of_ctxIn (Option.filter_eq_some_iff.mp hin).1
    exact ⟨_, exec_setUserCalibration hin hf, endedWith_perform hctx 0 0, rfl, rfl, rfl⟩
  case saves => exact ⟨_, rfl, (savedOf_setFeature h rfl _).trans ((savedOf_saveValue _ c).1 hmode)⟩
  case forgets =>
    exact ⟨_, rfl, setFeature_ends h rfl rfl, (savedOf_setFeature h rfl _).trans ((savedOf_saveValue _ c).2 hmode), feat_setFeature_forgets h rfl hmode _⟩
  case get => exact ⟨_, exec_getFeature hin hlen, endedWith_perform (ctxOf_of_ctxIn hin) .., rfl⟩
  case record => exact ⟨_, exec_getFeature_record hin hlen hrun, endedWith_perform (ctxOf_of_ctxIn (s := s) hin) .., rfl⟩

end Sys2Proof.Proofs
end

section
/-! PROOFS. Retention (R76, R312, R314, R315, R319, R320, R329, R330): the thermal clocks of a minute, the logs of an hour, the wait for AET and the start of
a patrol cycle. -/
namespace Sys2Proof.Proofs
open Sys2Proof Sys2Proof.Machine Sys2Proof.Laws

/-! ## One element among others in a fold -/

/-- What one element of a list makes of the state, where the elements before it keep what it needs and those after it what it made. -/
theorem foldl_once {α : Type} {f : State → α → State} {key : α → Bool} {l : List α} {a : α} (hl : l.filter key = [a]) {P Q : State → Prop}
    (hbefore : ∀ t x, key x = false → P t → P (f t x)) (hat : ∀ t, P t → Q (f t a)) (hafter : ∀ t x, key x = false → Q t → Q (f t x))
    {s : State} (hs : P s) : Q (l.foldl f s) := by
  have hkeeps : ∀ (R : State → Prop), (∀ t x, key x = false → R t → R (f t x)) → ∀ (l : List α), (∀ x ∈ l, ¬key x = true) → ∀ t, R t → R (l.foldl f t) := by
    intro R hR l
    induction l with
    | nil => exact fun _ _ h => h
    | cons x l ih =>
      intro hno t ht
      obtain ⟨hx, hl⟩ := List.forall_mem_cons.mp hno
      exact ih hl _ (hR t x (Bool.eq_false_iff.mpr hx) ht)
  obtain ⟨before, after, rfl, hno, -, hnil⟩ := List.filter_eq_cons_iff.mp hl
  rw [List.foldl_append, List.foldl_cons]
  exact hkeeps Q hafter after (List.filter_eq_nil_iff.mp hnil) _ (hat _ (hkeeps P hbefore before hno s hs))

/-! ## Thermal clocks (R312, R314) -/

theorem kf_tickClock (s : State) (b : Bay) : (tickClock s b).kf = s.kf := kf_of_rest (rest_tickClock (L := but .kf) rfl s b) rfl

theorem bayOf_updBay_ne (s : State) {n m : Nat} (h : n ≠ m) (f : Bay → Bay) (hf : ∀ x, (f x).bay = x.bay) : bayOf (updBay s n f) m = bayOf s m := by
  have hmap := bayOf_of_map (s := s) (t := updBay s n f) (f := fun x => if x.bay == n then f x else x) (fun x => by split <;> simp [hf]) rfl m
  rw [hmap]
  cases hx : bayOf s m with
  | none => rfl
  | some x => simp [bay_of_bayOf hx, Ne.symm h]

theorem bayOf_tickClock_ne (s : State) {x : Bay} {n : Nat} (h : x.bay ≠ n) : bayOf (tickClock s x) n = bayOf s n := by
  unfold tickClock
  split
  · rfl
  · exact bayOf_updBay_ne s h _ fun _ => rfl

/-- A bay's clock gains by its sample of the minute. -/
theorem bayOf_tickClock {s : State} {b : Bay} {f : Profile} {x : Int} (hb : bayOf s b.bay = some b) (hf : bayProfile s b.bay = some f)
    (hx : b.minuteTemp = some x) : bayOf (tickClock s b) b.bay = some { b with tc := b.tc + minuteGain f x, minuteTemp := none } := by
  simp only [tickClock, hf, hx]
  exact bayOf_updBay (f := fun y => { y with tc := y.tc + minuteGain f x, minuteTemp := none }) hb fun _ => rfl

theorem bayProfile_congr {s t : State} {n : Nat} (hbay : bayOf t n = bayOf s n) (hkf : t.kf = s.kf) : bayProfile t n = bayProfile s n := by
  have himg : profileOf t = profileOf s := by funext p; unfold profileOf; rw [hkf]
  unfold bayProfile
  rw [hbay, himg]

theorem clocks_tick {s : State} {b : Bay} {f : Profile} {x : Int} (hmem : b ∈ clockedBays s) (honly : s.media.bays.filter (fun x => x.bay == b.bay) = [b])
    (hf : bayProfile s b.bay = some f) (hx : b.minuteTemp = some x) :
    bayOf ((clockedBays s).foldl tickClock s) b.bay = some { b with tc := b.tc + minuteGain f x, minuteTemp := none } := by
  have hfound : bayOf s b.bay = some b := by
    rw [bayOf, ← List.head?_filter, honly]
    rfl
  have hclocked : (clockedBays s).filter (fun x => x.bay == b.bay) = [b] := by
    have hst := (List.mem_filter.mp hmem).2
    rw [clockedBays, List.filter_comm, honly]
    exact List.filter_eq_self.mpr (by simpa using hst)
  refine foldl_once hclocked (P := fun t => bayOf t b.bay = some b ∧ bayProfile t b.bay = some f)
    (Q := fun t => bayOf t b.bay = some { b with tc := b.tc + minuteGain f x, minuteTemp := none }) ?_ (fun t ht => bayOf_tickClock ht.1 ht.2 hx) ?_
    ⟨hfound, hf⟩
  · intro t y hy ht
    have hsame := bayOf_tickClock_ne t (x := y) (n := b.bay) (by simpa using hy)
    exact ⟨hsame.trans ht.1, (bayProfile_congr hsame (kf_tickClock t y)).trans ht.2⟩
  · intro t y hy ht
    exact (bayOf_tickClock_ne t (by simpa using hy)).trans ht

theorem exec_thermalClockMinute {s : State} (hready : notReady s = false) (hnew : aetSec s.cad.aet / 60 ≠ s.media.lastMinute) :
    exec (.thermalClockMinute []) s = .next (updHealth (updMedia ((clockedBays s).foldl tickClock s) (fun q => { q with lastMinute := aetSec s.cad.aet / 60 }))
      (fun h => { h with onMinutes := h.onMinutes + 1 })) := by
  have hexec : exec (.thermalClockMinute []) s = execThermalClockMinute [] s := rfl
  rw [hexec, execThermalClockMinute, if_neg (by simp [hready, hnew])]
  rfl

/-! ## Thermal logs (R315) -/

/-- The logs with an entry for a BAY_UID more. -/
def grownLogs (logs : List (Nat × List (Nat × Nat))) (uid : Nat) (e : Nat × Nat) : List (Nat × List (Nat × Nat)) :=
  if logs.any (fun l => l.1 == uid) then logs.map (fun l => if l.1 == uid then (l.1, growLog l.2 e) else l) else logs ++ [(uid, [e])]

theorem logBay_eq {b : Bay} (hb : b.uid ≠ 0) (s : State) :
    logBay s b = updMedia s (fun m => { m with thermLogs := grownLogs m.thermLogs b.uid (aetSec s.cad.aet, b.tc) }) := by
  rw [logBay, if_neg (by simpa using hb)]
  rfl

theorem find_grown (logs : List (Nat × List (Nat × Nat))) (uid n : Nat) (e : Nat × Nat) :
    (logs.map (fun l => if l.1 == uid then (l.1, growLog l.2 e) else l)).find? (fun l => l.1 == n) =
      (logs.find? (fun l => l.1 == n)).map (fun l => if l.1 == uid then (l.1, growLog l.2 e) else l) := by
  have hkey : (fun l : Nat × List (Nat × Nat) => l.1 == n) ∘ (fun l => if l.1 == uid then (l.1, growLog l.2 e) else l) = fun l => l.1 == n := by
    funext l
    dsimp only [Function.comp]
    split <;> rfl
  rw [List.find?_map, hkey]

theorem growLog_head (l : List (Nat × Nat)) (e : Nat × Nat) : (growLog l e).head? = some e := by
  unfold growLog
  split <;> rfl

/-- The newest entry of the log that has grown. -/
theorem grownLogs_head (logs : List (Nat × List (Nat × Nat))) (uid : Nat) (e : Nat × Nat) :
    ((((grownLogs logs uid e).find? (fun l => l.1 == uid)).map (·.2)).getD []).head? = some e := by
  unfold grownLogs
  split
  · rename_i hknown
    obtain ⟨k, hk⟩ := Option.isSome_iff_exists.mp (List.find?_isSome.mpr (List.any_eq_true.mp hknown))
    have hkuid : k.1 = uid := by simpa using List.find?_some hk
    rw [find_grown, hk]
    simp [hkuid, growLog_head]
  · rename_i hnew
    have hnone : logs.find? (fun l => l.1 == uid) = none := 
      List.find?_eq_none.mpr fun l hl hluid => hnew (List.any_eq_true.mpr ⟨l, hl, hluid⟩)
    rw [List.find?_append, hnone]
    simp

/-- The log of another BAY_UID stays. -/
theorem grownLogs_ne (logs : List (Nat × List (Nat × Nat))) {uid n : Nat} (h : uid ≠ n) (e : Nat × Nat) :
    (grownLogs logs uid e).find? (fun l => l.1 == n) = logs.find? (fun l => l.1 == n) := by
  unfold grownLogs
  split
  · rw [find_grown]
    cases hk : logs.find? (fun l => l.1 == n) with
    | none => rfl
    | some k =>
      have hkn : k.1 = n := by simpa using List.find?_some hk
      simp [hkn, Ne.symm h]
  · simp [List.find?_append, h]

theorem thermLog_congr {s t : State} (h : t.media.thermLogs = s.media.thermLogs) (uid : Nat) : thermLog t uid = thermLog s uid := by unfold thermLog; rw [h]

theorem thermLog_logBay {b : Bay} (hb : b.uid ≠ 0) (s : State) : (thermLog (logBay s b) b.uid).head? = some (aetSec s.cad.aet, b.tc) := by
  rw [logBay_eq hb]
  exact grownLogs_head ..

theorem thermLog_logBay_ne (s : State) {x : Bay} {uid : Nat} (h : x.uid ≠ uid) : thermLog (logBay s x) uid = thermLog s uid := by
  by_cases hx : x.uid = 0
  · rw [logBay, if_pos (by simpa using hx)]
  · rw [logBay_eq hx]
    exact congrArg (fun l => (l.map (·.2)).getD []) (grownLogs_ne s.media.thermLogs h _)

theorem cad_logBay (s : State) (b : Bay) : (logBay s b).cad = s.cad := cad_of_rest (rest_logBay (L := but .cad) rfl s b) rfl

/-- At an hour the clock of each bay with a BAY_UID of its own is logged. -/
theorem logs_grow (s : State) {l : List Bay} {b : Bay} (hb : b.uid ≠ 0) (honly : l.filter (fun x => x.uid == b.uid) = [b]) :
    (thermLog (l.foldl logBay s) b.uid).head? = some (aetSec s.cad.aet, b.tc) := by
  refine foldl_once honly (P := fun t => t.cad = s.cad) (Q := fun t => (thermLog t b.uid).head? = some (aetSec s.cad.aet, b.tc)) ?_ ?_ ?_ rfl
  · exact fun t x _ ht => (cad_logBay t x).trans ht
  · intro t ht
    rw [thermLog_logBay hb, ht]
  · intro t x hx ht
    rw [thermLog_logBay_ne t (by simpa using hx)]
    exact ht

/-! ## The hourly model leaves the logs (R316) -/

/-- What of the media cluster the hourly model does not judge. -/
def hourly (s : State) : List (Nat × List (Nat × Nat)) × Nat := (s.media.thermLogs, s.media.lastHour)

theorem hourly_settleAlert (s : State) : hourly (settleAlert s) = hourly s := by
  unfold settleAlert
  dsimp only
  repeat' split
  all_goals rfl

theorem hourly_settleLowered (s : State) (p : Nat) : hourly (settleLowered s p) = hourly s := by
  unfold settleLowered
  dsimp only
  split <;> rfl

theorem hourly_recomputeHorizon (s : State) : hourly (recomputeHorizon s) = hourly s := by
  unfold recomputeHorizon
  rw [view_foldl (view := hourly) hourly_settleLowered, hourly_settleAlert]
  rfl

theorem hourly_settleShortfall (s : State) (p : Nat) : hourly (settleShortfall s p) = hourly s := by
  unfold settleShortfall
  split
  · rw [hourly_recomputeHorizon]; rfl
  · rfl

theorem hourly_settleAdvisory (s : State) (p : Nat) : hourly (settleAdvisory s p) = hourly s := by
  unfold settleAdvisory
  dsimp only
  repeat' split
  all_goals rfl

theorem hourly_logBay_lastHour (s : State) (b : Bay) : (logBay s b).media.lastHour = s.media.lastHour := by
  unfold logBay
  split <;> rfl

/-- The state of an hour's logs, before the model is judged again. -/
def loggedHour (s : State) : State := (clockedBays s).foldl logBay (updMedia s (fun q => { q with lastHour := aetSec s.cad.aet / 3600 }))

theorem exec_hourlyModelUpdate {s : State} (hready : notReady s = false) (hnew : aetSec s.cad.aet / 3600 ≠ s.media.lastHour) :
    ∃ t, exec .hourlyModelUpdate s = .next t ∧ hourly t = hourly (loggedHour s) := by
  have hexec : exec .hourlyModelUpdate s = execHourlyModelUpdate s := rfl
  rw [hexec, execHourlyModelUpdate, if_neg (by simp [hready, hnew])]
  refine ⟨_, rfl, ?_⟩
  have hend : ∀ t, hourly (endCycle t) = hourly t := fun t => by unfold hourly; rw [endCycle_media]
  rw [hend, view_foldl (view := hourly) hourly_settleAdvisory, view_foldl (view := hourly) hourly_settleShortfall, hourly_recomputeHorizon]
  rfl

/-! ## The wait for AET (R329) -/

theorem exec_aetWaitTimeout {s : State} {cyc c : Nat} (hready : notReady s = false) (hcyc : cyc ≤ s.now) (hfrom : s.media.readyAt = some c)
    (hvalid : s.cad.aetValid = false) (hlate : c + 600000000000 ≤ s.now) :
    exec (.aetWaitTimeout cyc) s =
      settled (setAtRisk (updMedia s (fun m => { m with unpowered := 0xFFFFFFFFFFFFFFFF })) ((liveSets s).map (·.seq))) := by
  have hexec : exec (.aetWaitTimeout cyc) s = execAetWaitTimeout cyc s := rfl
  rw [hexec, execAetWaitTimeout]
  simp only [advanceTo_past hcyc, hfrom]
  rw [if_neg (by simp [hvalid, hready, hlate])]

theorem unpowered_setAtRisk (s : State) (l : List Nat) : (setAtRisk s l).media.unpowered = s.media.unpowered := by
  unfold setAtRisk
  dsimp only
  repeat' split
  all_goals rfl

/-- Sets at risk of which none has been swept set REDUCED_ASSURANCE. -/
theorem setAtRisk_unswept {s : State} {l : List Nat} (hl : l ≠ []) (hswept : s.media.swept = []) (hlive : failedSet s = false) :
    (setAtRisk s l).media.atRisk = l ∧ flag (setAtRisk s l).cond bReduced = true := by
  obtain ⟨q, rest, rfl⟩ := List.exists_cons_of_ne_nil hl
  have hset : ∀ u : State, u.cond = s.cond → flag (setFlags u [(bReduced, true)]).cond bReduced = true := fun u hu =>
    flag_setFlags_single (by rw [hu]; exact hlive) (by decide) (by decide) (by decide) true
  unfold setAtRisk
  simp only [updMedia_media, hswept, List.filter_nil]
  rw [if_pos (by simp)]
  exact ⟨rfl, hset _ rfl⟩

/-! ## The start of a patrol cycle (R319, R320) -/

theorem profile_profSt (s : State) (p : Nat) : (profSt s p).profile = p := by
  unfold profSt
  cases h : s.media.prof.find? (fun x => x.profile == p) with
  | none => rfl
  | some q => simpa using List.find?_some h

theorem profSt_updProf (s : State) (p : Nat) {g : ReclaimSt → ReclaimSt} (hg : (g (profSt s p)).profile = (profSt s p).profile) :
    profSt (updProf s p g) p = g (profSt s p) := by
  have hput := find_put ReclaimSt.profile s.media.prof (hg.trans (profile_profSt s p)) p
  rw [if_pos rfl] at hput
  exact congrArg (·.getD (freshProf p)) hput

theorem profSt_congr {s t : State} (h : t.media.prof = s.media.prof) (p : Nat) : profSt t p = profSt s p := by unfold profSt; rw [h]

/-- A claim leaves the agents' state of every profile. -/
theorem prof_claimSet (s : State) (ag : Agent) (seq : Nat) : (claimSet s ag seq).media.prof = s.media.prof := by
  unfold claimSet
  repeat' split
  all_goals rfl

theorem profSt_startPatrol (s : State) (p : Nat) (late : Bool) :
    let q := profSt (startPatrol s p late) p
    q.patrolList = patrolOrder s p ∧ q.patrolLate = late ∧ q.patrolNext = nextDue (aetSec s.cad.aet) (3600 * cycleHours s p) := by
  have hclaims : (startPatrol s p late).media.prof = _ :=
    view_foldl (view := fun t => t.media.prof) (fun t n => prof_claimSet t .patrol n) (patrolOrder s p) _
  have hprof := (profSt_congr hclaims p).trans (profSt_updProf s p rfl)
  rw [hprof]
  exact ⟨rfl, rfl, rfl⟩

theorem exec_patrolCycleStart {s : State} {p : Nat} {f : Profile} (hready : notReady s = false) (hf : profileOf s p = some f) (hbays : memberBays s p ≠ [])
    (hoff : (profSt s p).patrolOn = false) (hdue : (profSt s p).patrolNext ≤ aetSec s.cad.aet) :
    exec (.patrolCycleStart p) s = settled (startPatrol s p (decide ((profSt s p).patrolNext < aetSec s.cad.aet))) := by
  have hexec : exec (.patrolCycleStart p) s = execPatrolCycleStart p s := rfl
  simp only [hexec, execPatrolCycleStart]
  rw [if_neg (by simp [hf, hbays, hready]), if_neg (by simp [hoff]), if_neg (Nat.not_lt.mpr hdue)]

/-- Settles O35: a minute by the clock of the bay that is sampled, an hour by its log, the wait for AET by the sets put at risk, a patrol cycle by what its
start makes of the profile's agents. -/
theorem retentionIsWatched : Obligations.RetentionIsWatched := by
  unfold Obligations.RetentionIsWatched
  intro s hready
  refine ⟨fun hnew => ?minute, fun hnew => ?hour, fun cyc c hcyc hfrom hvalid hlate => ?wait, fun p f hf hbays hoff hdue => ?patrol⟩
  case minute =>
    refine ⟨_, exec_thermalClockMinute hready hnew, rfl, ?_, fun b f x hmem honly hf hx => ?_⟩
    · have hhealth : ((clockedBays s).foldl tickClock s).health = s.health :=
        view_foldl (view := State.health) (fun t b => health_of_rest (rest_tickClock (L := but .health) rfl t b) rfl) _ _
      rw [updHealth_health, updMedia_health, hhealth]
    · exact ⟨_, clocks_tick hmem honly hf hx, rfl, rfl⟩
  case hour =>
    obtain ⟨t, hexec, ht⟩ := exec_hourlyModelUpdate hready hnew
    refine ⟨t, hexec, (congrArg Prod.snd ht).trans ?_, fun b _ hb honly => ?_⟩
    · exact view_foldl (view := fun t => t.media.lastHour) hourly_logBay_lastHour _ _
    · rw [thermLog_congr (congrArg Prod.fst ht)]
      exact logs_grow _ hb honly
  case wait =>
    refine ⟨_, exec_aetWaitTimeout hready hcyc hfrom hvalid hlate, ?_, fun hsets hswept hlive => ?_⟩
    · rw [endCycle_media, unpowered_setAtRisk, updMedia_media]
    · rw [endCycle_media, endCycle_cond]
      exact setAtRisk_unswept (by simpa using hsets) hswept hlive
  case patrol =>
    refine ⟨_, exec_patrolCycleStart hready hf hbays hoff hdue, ?_⟩
    rw [profSt_congr (congrArg Media.prof (endCycle_media _))]
    exact profSt_startPatrol ..

end Sys2Proof.Proofs
end

section
/-! PROOFS. Journal flushes and checkpoints (R76, R246 to R248): what a flush leaves of the journal but its flights, how a checkpoint starts, and how it ends
once its root stands. -/
namespace Sys2Proof.Proofs
open Sys2Proof Sys2Proof.Machine Sys2Proof.Laws

/-! ## What a flush leaves of the journal (R246) -/

/-- The journal but for the pages on their way to the medium. -/
def flightless (s : State) : Jrnl := { s.jrnl with flights := [] }

theorem flightless_of_jrnl {s t : State} (h : t.jrnl = s.jrnl) : flightless t = flightless s := by unfold flightless; rw [h]

theorem field_of_flightless {β : Type} {s t : State} (h : flightless t = flightless s) (g : Jrnl → β)
    (hg : ∀ j, g { j with flights := [] } = g j := by intro _; rfl) : g t.jrnl = g s.jrnl :=
  (hg t.jrnl).symm.trans ((congrArg g h).trans (hg s.jrnl))

theorem jrnl_alignPage (s : State) (seq who : Nat) : (alignPage s seq who).jrnl = s.jrnl := jrnl_of_rest (rest_alignPage (L := but .jrnl) rfl s seq who) rfl

theorem flightless_flushInto {s t : State} {seq : Nat} (h : flushInto s seq = some t) : flightless t = flightless s := by
  unfold flushInto at h
  dsimp only at h
  repeat' split at h
  · cases h
  · obtain ⟨z, hz, rfl⟩ := Option.map_eq_some_iff.mp h
    have hplaced : z.1.jrnl = (alignPage s seq 1).jrnl := jrnl_of_rest (rest_placeRun (L := but .jrnl) rfl _ _ _ _ _ z hz) rfl
    have hsame : flightless (alignPage z.1 seq 1) = flightless s := flightless_of_jrnl ((jrnl_alignPage ..).trans (hplaced.trans (jrnl_alignPage ..)))
    exact hsame
  · cases h

theorem flightless_flushAll (s : State) : flightless (flushAll s) = flightless s := by
  unfold flushAll
  refine view_foldl (view := flightless) (fun t ok => ?_) _ _
  split
  · rfl
  · cases hflush : flushInto t ok.1.seq with
    | none => rfl
    | some u => exact flightless_flushInto hflush

theorem flightless_flushJournal (s : State) : flightless (flushJournal s) = flightless s := by
  unfold flushJournal
  dsimp only
  repeat' split
  · rfl
  · exact flightless_flushAll s
  · exact flightless_flushAll s

theorem highestDurable_congr {s t : State} (h : flightless t = flightless s) : highestDurable t = highestDurable s := by
  rw [highestDurable, highestDurable, field_of_flightless h Jrnl.recs, field_of_flightless h Jrnl.nextSeq]

theorem unflushed_congr {s t : State} (h : t.jrnl = s.jrnl) : unflushed t = unflushed s := by unfold unflushed; rw [h]

theorem jrnl_settleFull (s : State) : (settleFull s).jrnl = s.jrnl := jrnl_of_rest (rest_settleFull (L := but .jrnl) rfl s) rfl

/-! ## A flush on its grid (R76, R246) -/

/-- A flush that is due and takes records, or has none to take, moves to its next grid point. -/
theorem flushJournal_due {s : State} (hdue : s.cad.journalDue ≤ nowT s)
    (htakes : unflushed s = [] ∨ (unflushed (flushAll s)).length ≠ (unflushed s).length) :
    flushJournal s = updCad (flushAll s) (fun c => { c with journalDue := nextDue (nowT s) c.journalTicks }) := by
  have hgoes : (!(unflushed s).isEmpty && (unflushed (flushAll s)).length == (unflushed s).length) = false := by
    rcases htakes with hnone | htaken
    · simp [hnone]
    · simp [htaken]
  simp only [flushJournal, hgoes, hdue, Bool.false_eq_true, if_false, if_true]

theorem cad_flushAll (s : State) : (flushAll s).cad = s.cad := cad_of_rest (rest_flushAll (L := but .cad) rfl s) rfl

theorem exec_journalFlush {s : State} (hstop : s.jrnl.stopFrom = none) (hown : isOwner s = true) (hdue : s.cad.journalDue ≤ nowT s) :
    exec .journalFlush s = .next (settleFull (flushJournal s)) := by
  have hexec : exec .journalFlush s = execJournalFlush s := rfl
  rw [hexec, execJournalFlush]
  simp only [hstop, hown, hdue, Option.isSome_none, decide_true, Bool.true_or, Bool.not_true, Bool.or_self, Bool.false_eq_true, if_false]

/-! ## The checkpoint in progress (R248) -/

/-- The checkpoint that runs, its cut, the host data since the last trigger, and the number of the next one. -/
def runOf (j : Jrnl) : Option CkptRun × Nat × Nat × Nat := (j.running, j.cut, j.hostBytes, j.nextCkpt)

/-- Of a state. -/
def ckptRun (s : State) : Option CkptRun × Nat × Nat × Nat := runOf s.jrnl

theorem ckptRun_of_jrnl {s t : State} (h : t.jrnl = s.jrnl) : ckptRun t = ckptRun s := by unfold ckptRun; rw [h]

theorem ckptRun_of_flightless {s t : State} (h : flightless t = flightless s) : ckptRun t = ckptRun s :=
  field_of_flightless h runOf

theorem ckptRun_journal (s : State) (body : JRec) : ckptRun (journal s body) = ckptRun s := by
  unfold journal
  split
  · rfl
  · have hsent : ∀ (t : State) (f : Frame), ckptRun (mirrorFrame t f) = ckptRun t := fun t f =>
      ckptRun_of_jrnl (jrnl_of_rest (rest_mirrorFrame (L := but .jrnl) rfl t f) rfl)
    exact hsent _ _

theorem ckptRun_rejournal (s : State) : ckptRun (rejournal s) = ckptRun s := by
  have hfold : ∀ {α : Type} (body : α → JRec) (l : List α) (t : State), ckptRun (l.foldl (fun t a => journal t (body a)) t) = ckptRun t :=
    fun body l t => view_foldl (view := ckptRun) (fun t a => ckptRun_journal t (body a)) l t
  unfold rejournal
  dsimp only
  rw [hfold, hfold]
  split
  · rw [ckptRun_journal, hfold]
  · rw [hfold]

theorem ckptRun_writeTiles (s : State) (l : List (Nat × Nat)) : ckptRun (writeTiles s l) = ckptRun s :=
  ckptRun_of_jrnl (jrnl_of_rest (rest_writeTiles (L := but .jrnl) rfl s l) rfl)

theorem ckptRun_rewriteTables (s : State) : ckptRun (rewriteTables s) = ckptRun s :=
  ckptRun_of_jrnl (jrnl_of_rest (rest_rewriteTables (L := but .jrnl) rfl s) rfl)

/-- A checkpoint that is not to be clean begins with its cut; what is journalled again and written back comes after it. -/
theorem ckptRun_beginCkpt (s : State) (g : CkptTrigger) :
    ckptRun (beginCkpt s g false) = (some ⟨g, false, none, cutOf s⟩, highestDurable s, 0, s.jrnl.nextCkpt) := by
  unfold beginCkpt
  simp only [Bool.false_eq_true, if_false, Bool.false_or]
  rw [ckptRun_writeTiles]
  split
  · rw [ckptRun_rejournal]
    repeat' split
    all_goals rfl
  · rw [ckptRun_rewriteTables, ckptRun_rejournal]
    repeat' split
    all_goals rfl

section Start

variable {s : State} {g : CkptTrigger} (hstop : s.jrnl.stopFrom = none) (hown : isOwner s = true) (hstep : s.kf.restartStep = 0)
  (hcame : ckptTriggered s g = true) (hclean : s.jrnl.cleanStands = false)
include hstop hown hstep hcame hclean

theorem checkpointStart_waits (hbusy : ckptBusy s = true) : exec (.checkpointStart g) s = .next (askCkpt s g) := by
  have hexec : exec (.checkpointStart g) s = execCheckpointStart g s := rfl
  simp [hexec, execCheckpointStart, hstop, hown, hstep, hcame, hclean, hbusy]

theorem checkpointStart_begins (hidle : ckptBusy s = false) (hopen : g = .shutdown → allStopping s = false) :
    exec (.checkpointStart g) s = .next (settleFull (beginCkpt (if s.cad.journalDue ≤ nowT s then flushJournal s else s) g false)) := by
  have hexec : exec (.checkpointStart g) s = execCheckpointStart g s := rfl
  have hworks : (g == .shutdown && allStopping s) = false := by
    cases hg : g == .shutdown with
    | false => rfl
    | true => rw [hopen (by simpa using hg)]; rfl
  simp [hexec, execCheckpointStart, hstop, hown, hstep, hcame, hclean, hidle, hworks]

end Start

/-! ## The end of a checkpoint (R248, R249) -/

theorem placePiece_standing {s : State} {x : CkptPiece} (h : pieceStands s x = true) : placePiece s x = (s, x) := if_pos h

theorem placePieces_standing {s : State} {xs : List CkptPiece} (h : ∀ x ∈ xs, pieceStands s x = true) : placePieces s xs = (s, xs) := by
  induction xs with
  | nil => rfl
  | cons x xs ih =>
    obtain ⟨hx, hxs⟩ := List.forall_mem_cons.mp h
    simp [placePieces, placePiece_standing hx, hx, ih hxs]

theorem jrnl_alignSystem (s : State) : (alignSystem s).jrnl = s.jrnl := jrnl_of_rest (rest_alignSystem (L := but .jrnl) rfl s) rfl

/-- Once the pieces and the root stand, the step of the checkpoint takes its root. -/
theorem ckptStep_takes {s : State} {r : CkptRun} {c : CkptCapture} {k : Ckpt × CkptPiece} (hc : r.captured = some c) (hk : c.root = some k)
    (hpieces : ∀ x ∈ c.pieces, pieceStands (alignSystem s) x = true) (hroot : pieceStands (alignSystem s) k.2 = true) :
    ∃ t m, ckptStep s r = takeCkpt t { k.1 with root := m } ∧ t.jrnl.nextCkpt = s.jrnl.nextCkpt := by
  have hcapture : captureCkpt s r = r := if_pos (by rw [hc]; rfl)
  have hall : c.pieces.all (pieceStands (alignSystem s)) = true := List.all_eq_true.mpr hpieces
  obtain ⟨a, ha⟩ : ∃ a, k.2.placed = some a := by
    cases ha : k.2.placed with
    | none => simp [pieceStands, ha] at hroot
    | some a => exact ⟨a, rfl⟩
  refine ⟨updJrnl (alignSystem (alignSystem s)) (fun j => { j with running := some { r with captured := some { c with root := some k } } }), a.1, ?_, ?_⟩
  · simp only [ckptStep, hcapture, hc, hk, placePieces_standing hpieces, hall, placePiece_standing hroot, ha, hroot, Option.isNone_some, Option.getD_some,
      Bool.and_false, Bool.not_true, Bool.false_eq_true, if_false, if_true]
  · rw [updJrnl_jrnl, jrnl_alignSystem, jrnl_alignSystem]

theorem ckptRun_putStop (s : State) (kind : StopKind) (holdup : Option (Nat × Madr)) : ckptRun (putStop s kind holdup) = ckptRun s := by
  simp only [ckptRun, putStop, keepStop, updJrnl_jrnl, updKf_jrnl, runOf]

theorem ckptRun_standCkpt (s : State) (k : Ckpt) : ckptRun (standCkpt s k) = ckptRun s := by
  unfold standCkpt
  dsimp only
  split
  · rw [ckptRun_putStop]; rfl
  · rfl

theorem ckptRun_settleCkpt (s : State) : ckptRun (settleCkpt s) = ckptRun s := by
  unfold settleCkpt
  dsimp only
  split
  · rfl
  · split
    · rfl
    · split
      · exact ckptRun_standCkpt ..
      · rfl

theorem ckptRun_wearRescue (s : State) (p : Nat) : ckptRun (wearRescue s p) = ckptRun s :=
  ckptRun_of_jrnl (jrnl_of_rest (rest_wearRescue (L := but .jrnl) rfl s p) rfl)

theorem ckptRun_sealClean (s : State) : ckptRun (sealClean s) = ckptRun s := by
  have hpadded : ∀ (t : State) (ok : OpenSet × SetRec), ckptRun (padToSettle t ok.1.seq) = ckptRun t := fun t ok =>
    ckptRun_of_jrnl (jrnl_of_rest (rest_padToSettle (L := but .jrnl) rfl t ok.1.seq) rfl)
  exact (view_foldl (view := ckptRun) hpadded _ _).trans (ckptRun_of_flightless (flightless_flushAll s))

/-- A checkpoint whose root is taken runs no more, and the next has the next number. -/
theorem ckptRun_takeCkpt (s : State) (k : Ckpt) : ckptRun (takeCkpt s k) = (none, s.jrnl.cut, s.jrnl.hostBytes, s.jrnl.nextCkpt + 1) := by
  have htaken : ∀ t : State, ckptRun (if k.clean then sealClean t else updMedia t (fun m => { m with sjDue := true })) = ckptRun t := fun t => by
    split
    · exact ckptRun_sealClean t
    · rfl
  have hwritten : ∀ t : State, ckptRun (updJrnl t (fun j => { j with written := some k })) = ckptRun t := fun _ => rfl
  unfold takeCkpt
  dsimp only
  rw [ckptRun_settleCkpt, htaken, view_foldl (view := ckptRun) ckptRun_wearRescue, hwritten, ckptRun_journal]
  rfl

theorem exec_checkpointRootWrite {s : State} {r : CkptRun} (hstop : s.jrnl.stopFrom = none) (hstep : s.kf.restartStep = 0) (hr : s.jrnl.running = some r) :
    exec .checkpointRootWrite s = .next (settleFull (ckptStep s r)) := by
  have hexec : exec .checkpointRootWrite s = execCheckpointRootWrite s := rfl
  simp [hexec, execCheckpointRootWrite, hr, hstop, hstep]

/-- Settles O38: a flush by its grid point, a trigger by whether a checkpoint runs, and the end of a checkpoint by the root that is taken. -/
theorem journalAndCheckpointsAdvance : Obligations.JournalAndCheckpointsAdvance := by
  unfold Obligations.JournalAndCheckpointsAdvance
  intro s hstop hown
  refine ⟨fun hdue htakes => ?flush, fun g hstep hcame hclean hbusy => ?waits, fun g hstep hcame hclean hidle hopen => ?starts,
    fun r c k hstep hr hc hk hpieces hroot => ?ends⟩
  case flush =>
    refine ⟨_, exec_journalFlush hstop hown hdue, ?_, ?_⟩
    · rw [cad_of_rest (rest_settleFull (L := but .cad) rfl _) rfl, flushJournal_due hdue htakes, updCad_cad, cad_flushAll]
    · rw [unflushed_congr (jrnl_settleFull _), flushJournal_due hdue htakes]
      exact unflushed_congr rfl
  case waits =>
    refine ⟨_, checkpointStart_waits hstop hown hstep hcame hclean hbusy, ?_, rfl⟩
    simp only [askCkpt, updJrnl_jrnl]
    split
    · simp_all
    · simp
  case starts =>
    intro u
    have hdurable : highestDurable u = highestDurable s := highestDurable_congr (by
      change flightless (if _ then _ else _) = _
      split
      · exact flightless_flushJournal s
      · rfl)
    have hrun := (ckptRun_of_jrnl (jrnl_settleFull _)).trans (ckptRun_beginCkpt u g)
    refine ⟨_, checkpointStart_begins hstop hown hstep hcame hclean hidle hopen, congrArg Prod.fst hrun, ?_, congrArg (fun x => x.2.2.1) hrun⟩
    exact (congrArg (fun x => x.2.1) hrun).trans hdurable
  case ends =>
    obtain ⟨t, m, htakes, hnumber⟩ := ckptStep_takes hc hk hpieces hroot
    have hrun := (ckptRun_of_jrnl (jrnl_settleFull (takeCkpt t { k.1 with root := m }))).trans (ckptRun_takeCkpt t _)
    rw [hnumber] at hrun
    refine ⟨_, exec_checkpointRootWrite hstop hstep hr, ?_⟩
    rw [htakes]
    exact ⟨congrArg Prod.fst hrun, congrArg (fun x => x.2.2.2) hrun⟩

end Sys2Proof.Proofs
end

section
/-! PROOFS. Ports and their queues as they are looked up (R90), and what messages and the end of a cycle leave of a port (R114, R178). -/
namespace Sys2Proof.Proofs
open Sys2Proof Sys2Proof.Machine Sys2Proof.Laws

/-! ## Ports looked up -/

theorem portOf_of_rest {L : List Part} {s t : State} (h : rest L t = rest L s) (hp : has L .ports = false) (p : Port) : portOf t p = portOf s p := by
  cases p
  · exact portA_of_rest h hp
  · exact portB_of_rest h hp

theorem portOf_withCtxs (s : State) (l : List Ctx) (p : Port) : portOf { s with ctxs := l } p = portOf s p := by cases p <;> rfl

@[simp] theorem portOf_updCtx (s : State) (cid : Nat) (f : Ctx → Ctx) (p : Port) : portOf (updCtx s cid f) p = portOf s p := by cases p <;> rfl

@[simp] theorem portOf_updKf (s : State) (f : Kf → Kf) (p : Port) : portOf (updKf s f) p = portOf s p := by cases p <;> rfl

@[simp] theorem portOf_updEng (s : State) (f : MapEng → MapEng) (p : Port) : portOf (updEng s f) p = portOf s p := by cases p <;> rfl

@[simp] theorem portOf_raiseEvent (s : State) (kind code p0 p1 : Nat) (only : Option Port) (p : Port) :
    portOf (raiseEvent s kind code p0 p1 only) p = portOf s p := by cases p <;> rfl

@[simp] theorem portOf_countEvent (s : State) (e inst n : Nat) (p : Port) : portOf (countEvent s e inst n) p = portOf s p :=
  portOf_of_rest (rest_countEvent (L := but .ports) rfl s e inst n) rfl p

@[simp] theorem portOf_mirrorFrame (s : State) (f : Frame) (p : Port) : portOf (mirrorFrame s f) p = portOf s p :=
  portOf_of_rest (rest_mirrorFrame (L := but .ports) rfl s f) rfl p

@[simp] theorem portOf_settleFull (s : State) (p : Port) : portOf (settleFull s) p = portOf s p :=
  portOf_of_rest (rest_settleFull (L := but .ports) rfl s) rfl p

@[simp] theorem portOf_sizeTier (s : State) (p : Port) : portOf (sizeTier s) p = portOf s p :=
  portOf_of_rest (rest_sizeTier (L := but .ports) rfl s) rfl p

@[simp] theorem portOf_endContexts (s : State) (f : DigCtx → Bool) (p : Port) : portOf (endContexts s f) p = portOf s p :=
  portOf_of_rest (rest_endContexts (L := but .ports) rfl s f) rfl p

@[simp] theorem portOf_retireFates (s : State) (cs : List Ctx) (p : Port) : portOf (retireFates s cs) p = portOf s p :=
  portOf_of_rest (rest_retireFates (L := but .ports) rfl s cs) rfl p

@[simp] theorem portOf_settleDisabled (s : State) (p : Port) (linkGone : Bool) (q : Port) : portOf (settleDisabled s p linkGone) q = portOf s q :=
  portOf_of_rest (rest_settleDisabled (L := but .ports) rfl s p linkGone) rfl q

@[simp] theorem portOf_performState (s : State) (cid kind : Nat) (r0 r1 : Word) (feature : Option (Nat × List Word)) (queue : Option QueueImage)
    (log : Option Port) (p : Port) : portOf (performState s cid kind r0 r1 feature queue log) p = portOf s p :=
  portOf_of_rest (rest_performState (L := but .ports) rfl s cid kind r0 r1 feature queue log) rfl p

theorem otherPort_ne (p : Port) : otherPort p ≠ p := by cases p <;> decide

/-! ## Queues looked up -/

theorem qid_of_queueOf {s : State} {p : Port} {q : Nat} {k : Queue} (h : queueOf s p q = some k) : k.qid = q := by simpa using List.find?_some h

theorem queueOf_congr {s t : State} {p : Port} (h : (portOf t p).queues = (portOf s p).queues) (q : Nat) : queueOf t p q = queueOf s p q := by
  unfold queueOf; rw [h]

/-- Queues changed without their numbers are found as before, changed. -/
theorem queueOf_updQueue_map {q : Nat} {f : Queue → Queue} (hf : ∀ k, k.qid = q → (f k).qid = q) (s : State) (p : Port) (n : Nat) :
    queueOf (updQueue s p q f) p n = (queueOf s p n).map (fun k => if k.qid == q then f k else k) := by
  have hkey : (fun k : Queue => k.qid == n) ∘ (fun k => if k.qid == q then f k else k) = fun k => k.qid == n := by
    funext k
    by_cases hk : k.qid = q <;> simp [hk, hf]
  unfold queueOf updQueue
  rw [portOf_updPort, List.find?_map, hkey]

theorem queueOf_updQueue {s : State} {p : Port} {q : Nat} {k : Queue} (hk : queueOf s p q = some k) {f : Queue → Queue}
    (hf : ∀ k, k.qid = q → (f k).qid = q) : queueOf (updQueue s p q f) p q = some (f k) := by
  simp [queueOf_updQueue_map hf, hk, qid_of_queueOf hk]

/-! ## What messages and events leave of a port (R114, R118) -/

/-- A port without what messages and events change: the pending bits, and the place in the event ring. -/
def unsent (x : PortSt) : PortSt := { x with pba := [], ev := { x.ev with tail := 0, phase := true, lost := 0 } }

theorem field_of_unsent {β : Type} {x y : PortSt} (h : unsent y = unsent x) (g : PortSt → β) (hg : ∀ z, g (unsent z) = g z := by intro _; rfl) :
    g y = g x := by rw [← hg y, h, hg]

/-- A change of one port that such a view does not see. -/
theorem unsent_updPort (s : State) (p q : Port) (f : PortSt → PortSt) (hf : ∀ x, unsent (f x) = unsent x) :
    unsent (portOf (updPort s p f) q) = unsent (portOf s q) := by
  by_cases hq : q = p
  · rw [hq, portOf_updPort, hf]
  · rw [portOf_updPort_other _ _ _ hq]

theorem portOf_emit (s : State) (o : Out) (p : Port) : portOf (emit s o) p = portOf s p := by cases p <;> rfl

theorem unsent_signal (s : State) (p : Port) (v : Nat) (q : Port) : unsent (portOf (signal s p v) q) = unsent (portOf s q) := by
  unfold signal
  dsimp only
  split
  · rfl
  split
  · exact unsent_updPort s p q _ (fun _ => rfl)
  · rw [portOf_emit]

theorem unsent_eventToRing (s : State) (p : Port) (e : Event) (q : Port) : unsent (portOf (eventToRing s p e) q) = unsent (portOf s q) := by
  unfold eventToRing
  extract_lets x nxt written moved
  split
  · rfl
  split
  · exact unsent_updPort s p q _ (fun _ => rfl)
  · calc unsent (portOf (signal moved p x.ev.vector) q)
      _ = unsent (portOf moved q) := unsent_signal ..
      _ = unsent (portOf written q) := unsent_updPort written p q _ (fun _ => rfl)
      _ = unsent (portOf s q) := by rw [portOf_emit]

theorem unsent_sendEvent (s : State) (r : Raised) (q : Port) : unsent (portOf (sendEvent s r) q) = unsent (portOf s q) := by
  have hkept : ∀ t : State, t.portA = s.portA → t.portB = s.portB → unsent (portOf t q) = unsent (portOf s q) := by
    intro t ha hb
    cases q
    · exact congrArg unsent ha
    · exact congrArg unsent hb
  simp only [sendEvent]
  split
  · rw [unsent_eventToRing]
    exact hkept _ rfl rfl
  · rw [unsent_eventToRing, unsent_eventToRing]
    exact hkept _ rfl rfl

/-- The end of a cycle changes pending bits and event rings alone. -/
theorem unsent_endCycle (s : State) (q : Port) : unsent (portOf (endCycle s) q) = unsent (portOf s q) := by
  unfold endCycle
  rw [view_foldl (view := fun t => unsent (portOf t q)) (fun t r => unsent_sendEvent t r q)]
  cases q <;> rfl

theorem queueOf_endCycle (s : State) (p : Port) (q : Nat) : queueOf (endCycle s) p q = queueOf s p q :=
  queueOf_congr (field_of_unsent (unsent_endCycle s p) PortSt.queues) q

/-! ## Events that no ring takes -/

theorem eventToRing_stopped {s : State} {p : Port} (h : (portOf s p).ev.enable = false) (e : Event) : eventToRing s p e = s := by
  simp [eventToRing, h]

/-- Events for one port alone whose ring is stopped go into the history, and no port changes. -/
theorem portOf_sends_stopped {p : Port} (l : List Raised) (hl : ∀ r ∈ l, r.only = some p) (s : State) (h : (portOf s p).ev.enable = false) (q : Port) :
    portOf (l.foldl sendEvent s) q = portOf s q := by
  induction l generalizing s with
  | nil => rfl
  | cons r l ih =>
    obtain ⟨hr, hl⟩ := List.forall_mem_cons.mp hl
    have hsent : sendEvent s r = keepEvent s r := by
      simp only [sendEvent, hr]
      exact eventToRing_stopped (by cases p <;> exact h) _
    have hkept : ∀ q, portOf (keepEvent s r) q = portOf s q := by intro q; cases q <;> rfl
    rw [List.foldl_cons, hsent, ih hl _ (by rw [hkept, h]), hkept]

theorem portOf_endCycle_stopped {s : State} {p : Port} (hflags : s.condFrom = none) (hraised : ∀ r ∈ s.raised, r.only = some p)
    (h : (portOf s p).ev.enable = false) (q : Port) : portOf (endCycle s) q = portOf s q := by
  have hcond : condEvents s = [] := by simp only [condEvents, hflags]
  have hbare : ∀ q, portOf { s with raised := [], condFrom := none } q = portOf s q := by intro q; cases q <;> rfl
  unfold endCycle
  rw [hcond, List.nil_append, portOf_sends_stopped s.raised hraised _ (by rw [hbare, h]), hbare]

end Sys2Proof.Proofs
end

section
/-! PROOFS. Reset (Tables 1-8, 3-3, 3-5, 4-4, 7-16, 20-8, 21-2, 21-5, 21-7, 22-6, R104): the state that the part starts from. -/
namespace Sys2Proof.Proofs
open Sys2Proof Sys2Proof.Machine Sys2Proof.Laws

/-- Both ports start alike. -/
theorem portOf_reset (p : Port) : portOf State.reset p = PortSt.reset := by cases p <;> rfl

theorem sel_reset : ∀ n, n < 40 → Ctr.reset.sel.getD n (0, 0) = (0, 0x1F) := fun _ => List.getD_replicate _

theorem live_reset (n : Nat) : Ctr.reset.live.getD n 0 = 0 := (List.getD_eq_getElem?_getD ..).trans (List.getElem?_getD_replicate_default_eq ..)

/-- Settles O5: each register by the reset value of its unit. -/
theorem resetLeavesTheSpecsValues : Obligations.ResetLeavesTheSpecsValues := by
  unfold Obligations.ResetLeavesTheSpecsValues
  refine ⟨rfl, ⟨rfl, rfl⟩, rfl, rfl, rfl, rfl, ?cadence, ?ports, ?features, ?power, ?counters, ?sideband⟩
  case cadence => exact ⟨rfl, rfl, rfl, rfl, rfl, rfl, rfl⟩
  case ports =>
    intro p
    rw [portOf_reset]
    exact ⟨rfl, rfl, rfl, rfl, rfl, rfl, rfl⟩
  case features => exact ⟨rfl, rfl, rfl, rfl, rfl⟩
  case power => exact ⟨rfl, rfl, rfl, rfl, rfl, rfl, rfl, rfl⟩
  case counters => exact ⟨rfl, rfl, rfl, sel_reset, rfl, rfl, rfl, rfl, live_reset⟩
  case sideband => exact ⟨rfl, rfl, rfl, rfl, rfl, rfl⟩

end Sys2Proof.Proofs
end

section
/-! PROOFS. Ports disabled and reset (R86, R88, R114, R508): what the steps of a disable leave of its port, of the other port and of what waits to be
sent, and what each cause of a disable does. -/
namespace Sys2Proof.Proofs
open Sys2Proof Sys2Proof.Machine Sys2Proof.Laws

/-! ## The steps of a disable, port by port -/

/-- The same change of ports that are alike. -/
theorem portOf_updPort_congr {s t : State} (h : ∀ q, portOf t q = portOf s q) (p : Port) (f : PortSt → PortSt) (q : Port) :
    portOf (updPort t p f) q = portOf (updPort s p f) q := by
  by_cases hq : q = p
  · rw [hq, portOf_updPort, portOf_updPort, h]
  · rw [portOf_updPort_other _ _ _ hq, portOf_updPort_other _ _ _ hq, h]

theorem portOf_setHostMap (s : State) (p : Port) (addr : Nat) (chunks : List Nat) (q : Port) :
    portOf (setHostMap s p addr chunks) q = portOf (updPort s p (fun x => { x with hostMap := chunks, hostMapAddr := addr })) q := by
  have htier : ∀ t : State, (∀ q, portOf t q = portOf s q) →
      portOf (if (portOf s p).hostMap.length == chunks.length then updPort t p (fun x => { x with hostMap := chunks, hostMapAddr := addr })
        else sizeTier (updPort t p (fun x => { x with hostMap := chunks, hostMapAddr := addr }))) q =
      portOf (updPort s p (fun x => { x with hostMap := chunks, hostMapAddr := addr })) q := by
    intro t ht
    split
    · exact portOf_updPort_congr ht ..
    · rw [portOf_sizeTier, portOf_updPort_congr ht]
  refine htier _ (fun r => ?_)
  split
  · rfl
  · exact portOf_updEng ..

theorem portOf_setShelf (s : State) (p : Port) (shelf : Option Shelf) (q : Port) :
    portOf (setShelf s p shelf) q = portOf (updPort s p (fun x => { x with shelf := shelf })) q :=
  portOf_updPort_congr (fun _ => portOf_endContexts ..) ..

/-- A port with the feature values that a disable puts in force: saved or default ones, no region and no shelf (R175, R177). -/
def reverted (s : State) (p : Port) (x : PortSt) : PortSt :=
  { applyArb { x with hostMap := [], hostMapAddr := 0, shelf := none } (savedVal s (portScope p) 7 0 defaultArb) with
    eventMask := w32 (savedVal s (portScope p) 9 0 0) }

theorem portOf_revertFeatures (s : State) (p q : Port) : portOf (revertFeatures s p) q = portOf (updPort s p (reverted s p)) q := by
  have hbare : ∀ q, portOf (setShelf (setHostMap s p 0 []) p none) q =
      portOf (updPort (updPort s p (fun x => { x with hostMap := [], hostMapAddr := 0 })) p (fun x => { x with shelf := none })) q := fun q => by
    rw [portOf_setShelf, portOf_updPort_congr (portOf_setHostMap s p 0 [])]
  unfold revertFeatures
  rw [portOf_updPort_congr hbare]
  by_cases hq : q = p
  · subst hq
    simp only [portOf_updPort]
    rfl
  · simp only [portOf_updPort_other _ _ _ hq]

theorem portOf_beginLog_other (s : State) {p q : Port} (hq : q ≠ p) (kind next stop last : Nat) (recs : List QueueRec) :
    portOf (beginLog s p kind next stop last recs) q = portOf s q := portOf_updPort_other _ _ _ hq

theorem portOf_completeLog (s : State) (p : Port) (new : List CmdRec) (unclean : Bool) :
    portOf (completeLog s p new unclean) p = { portOf s p with res := countRecs { (portOf s p).res with
        cmds := new.foldl (fun l r => putCmd r l) (portOf s p).res.cmds
        aetResume := s.cad.aet, complete := true, unclean := (portOf s p).res.unclean || unclean } } := by
  simp only [completeLog, portOf_raiseEvent, portOf_updPort]

theorem portOf_completeLog_other (s : State) {p q : Port} (hq : q ≠ p) (new : List CmdRec) (unclean : Bool) :
    portOf (completeLog s p new unclean) q = portOf s q := by
  simp only [completeLog, portOf_raiseEvent, portOf_updPort_other _ _ _ hq]

/-! ## A drain that ends (R88, R139) -/

/-- The port's commands gone, their fates kept for retirement (R489). -/
def emptied (s : State) (p : Port) : State :=
  updPort (retireFates { s with ctxs := s.ctxs.filter (fun c => c.port != p) } ((portCtxs s p).filter (fun c => c.csn != 0))) p
    (fun x => { x with draining := false })

/-- Its features back too, and its digest contexts ended. -/
def drained (s : State) (p : Port) : State := endContexts (revertFeatures (emptied s p) p) (fun k => k.port == p)

theorem finishDrain_eq (s : State) (p : Port) :
    finishDrain s p = completeLog (drained s p) p (((portCtxs s p).filter (fun c => c.csn != 0)).map cmdRec) false := rfl

theorem portOf_drained (s : State) (p q : Port) :
    portOf (drained s p) q = portOf (updPort (updPort s p (fun x => { x with draining := false })) p (reverted (emptied s p) p)) q := by
  unfold drained
  rw [portOf_endContexts, portOf_revertFeatures]
  exact portOf_updPort_congr (portOf_updPort_congr (fun r => by rw [portOf_retireFates, portOf_withCtxs]) _ _) ..

theorem portOf_drained_other (s : State) {p q : Port} (hq : q ≠ p) : portOf (drained s p) q = portOf s q := by
  rw [portOf_drained, portOf_updPort_other _ _ _ hq, portOf_updPort_other _ _ _ hq]

theorem portOf_finishDrain_other (s : State) {p q : Port} (hq : q ≠ p) : portOf (finishDrain s p) q = portOf s q := by
  rw [finishDrain_eq, portOf_completeLog_other _ hq, portOf_drained_other s hq]

theorem rest_drained (s : State) (p : Port) :
    rest [.ctxs, .ports, .health, .eng, .media, .dig, .ctr] (drained s p) = rest [.ctxs, .ports, .health, .eng, .media, .dig, .ctr] s :=
  calc rest _ (drained s p)
    _ = rest _ (revertFeatures _ p) := rest_endContexts (by decide) ..
    _ = rest _ (updPort _ p _) := rest_revertFeatures (by decide) ..
    _ = rest _ (retireFates _ _) := rest_updPort (by decide) _ _ _ (.inr fun _ => rfl)
    _ = rest _ { s with ctxs := s.ctxs.filter (fun c => c.port != p) } := rest_retireFates (by decide) ..
    _ = rest _ s := rfl

/-- A drain that ends raises the RESUMPTION event of its own port. -/
theorem raised_finishDrain (s : State) (p : Port) : ∀ r ∈ (finishDrain s p).raised, r ∈ s.raised ∨ r.only = some p := by
  intro r hr
  have hraised : (updPort (drained s p) p (fun x => { x with res := countRecs { x.res with
        cmds := (((portCtxs s p).filter (fun c => c.csn != 0)).map cmdRec).foldl (fun l r => putCmd r l) x.res.cmds
        aetResume := (drained s p).cad.aet, complete := true, unclean := x.res.unclean || false } })).raised = s.raised :=
    (updPort_raised ..).trans (raised_of_rest (rest_drained s p) rfl)
  rw [finishDrain_eq] at hr
  simp only [completeLog, raiseEvent, hraised, List.mem_append, List.mem_singleton] at hr
  exact hr.imp_right (congrArg Raised.only)

/-! ## A disable (R88) -/

/-- What a disable settles of its port at once. -/
def stance (x : PortSt) : Bool × Bool × List Queue × Bool × EvRing × List MsixEntry × Nat :=
  (x.enable, x.ready, x.queues, x.resumptionPending, x.ev, x.msix, x.res.kind)

/-- The stance that a disable by an interruption of a kind leaves. -/
def downStance (x : PortSt) (kind : Nat) : Bool × Bool × List Queue × Bool × EvRing × List MsixEntry × Nat :=
  (false, false, [], true, { x.ev with enable := false }, x.msix, kind)

theorem stance_finishDrain (s : State) (p : Port) : stance (portOf (finishDrain s p) p) = stance (portOf s p) := by
  rw [finishDrain_eq, portOf_completeLog, portOf_drained, portOf_updPort, portOf_updPort]
  rfl

/-- The log begun, and the commands settled that the disable leaves no way to perform (R138). -/
def interrupted (s : State) (p : Port) (kind : Nat) (linkGone : Bool) : State :=
  let t := beginLog s p kind s.csnNext s.cad.aet (lastCsn s) ((portOf s p).queues.map (queueRec s p))
  updKf (settleDisabled { t with ctxs := t.ctxs.filter (fun c => c.port != p || c.csn != 0) } p linkGone)
    (fun k => { k with sessions := k.sessions.filter (fun x => x.port != p) })

/-- A port as its disable leaves its registers and queues. -/
def downPort (x : PortSt) : PortSt :=
  { x with
    enable := false, heldEnable := false, ready := false, shutdownState := 0, shutdownCkpt := none, queues := []
    lastBells := keepLast x.lastBells x.queues, draining := true
    ev := { x.ev with enable := false } }

/-- A disabled port that drains. -/
def draining (s : State) (p : Port) (kind : Nat) (linkGone : Bool) : State :=
  revertFeatures (updPort (interrupted s p kind linkGone) p downPort) p

theorem disablePort_enabled {s : State} {p : Port} (h : (portOf s p).enable = true) (kind : Nat) (linkGone : Bool) :
    disablePort s p kind linkGone =
      settleFull (if portDraining (draining s p kind linkGone) p then draining s p kind linkGone else finishDrain (draining s p kind linkGone) p) := by
  have hon : ¬(!(portOf s p).enable) = true := by simp [h]
  exact if_neg hon

theorem portOf_interrupted (s : State) (p : Port) (kind : Nat) (linkGone : Bool) (q : Port) :
    portOf (interrupted s p kind linkGone) q =
      portOf (beginLog s p kind s.csnNext s.cad.aet (lastCsn s) ((portOf s p).queues.map (queueRec s p))) q := by
  simp only [interrupted, portOf_updKf, portOf_settleDisabled, portOf_withCtxs]

theorem stance_draining (s : State) (p : Port) (kind : Nat) (linkGone : Bool) :
    stance (portOf (draining s p kind linkGone) p) = downStance (portOf s p) kind := by
  rw [draining, portOf_revertFeatures, portOf_updPort, portOf_updPort, portOf_interrupted, beginLog, portOf_updPort]
  rfl

theorem portOf_draining_other (s : State) {p q : Port} (hq : q ≠ p) (kind : Nat) (linkGone : Bool) :
    portOf (draining s p kind linkGone) q = portOf s q := by
  rw [draining, portOf_revertFeatures, portOf_updPort_other _ _ _ hq, portOf_updPort_other _ _ _ hq, portOf_interrupted, portOf_beginLog_other s hq]

theorem raised_draining (s : State) (p : Port) (kind : Nat) (linkGone : Bool) : (draining s p kind linkGone).raised = s.raised :=
  calc (draining s p kind linkGone).raised
    _ = (updPort (interrupted s p kind linkGone) p downPort).raised := raised_of_rest (rest_revertFeatures (L := but .raised) rfl ..) rfl
    _ = (interrupted s p kind linkGone).raised := updPort_raised ..
    _ = (beginLog s p kind s.csnNext s.cad.aet (lastCsn s) ((portOf s p).queues.map (queueRec s p))).raised :=
      raised_of_rest (rest_settleDisabled (L := but .raised) rfl ..) rfl
    _ = s.raised := updPort_raised ..

section Disable

variable {s : State} {p : Port} (hon : (portOf s p).enable = true) (kind : Nat) (linkGone : Bool)
include hon

theorem stance_disablePort : stance (portOf (disablePort s p kind linkGone) p) = downStance (portOf s p) kind := by
  rw [disablePort_enabled hon, portOf_settleFull]
  split
  · exact stance_draining ..
  · rw [stance_finishDrain, stance_draining]

theorem portOf_disablePort_other {q : Port} (hq : q ≠ p) : portOf (disablePort s p kind linkGone) q = portOf s q := by
  rw [disablePort_enabled hon, portOf_settleFull]
  split
  · exact portOf_draining_other s hq ..
  · rw [portOf_finishDrain_other _ hq, portOf_draining_other s hq]

theorem raised_disablePort : ∀ r ∈ (disablePort s p kind linkGone).raised, r ∈ s.raised ∨ r.only = some p := by
  have hfull : ∀ t : State, (settleFull t).raised = t.raised := fun t => raised_of_rest (rest_settleFull (L := but .raised) rfl t) rfl
  rw [disablePort_enabled hon, hfull, ← raised_draining s p kind linkGone]
  split
  · exact fun _ => .inl
  · exact raised_finishDrain _ p

end Disable

/-! ## A stopped port (R88) -/

/-- What waits to be sent is for one port whose event ring is stopped. -/
def Silent (s : State) (p : Port) : Prop := s.condFrom = none ∧ (∀ r ∈ s.raised, r.only = some p) ∧ (portOf s p).ev.enable = false

theorem Silent.portOf_endCycle {s : State} {p : Port} (h : Silent s p) (q : Port) : portOf (endCycle s) q = portOf s q := by
  obtain ⟨hflags, hraised, hring⟩ := h
  exact portOf_endCycle_stopped hflags hraised hring q

theorem Silent.updPort {s : State} {p : Port} (h : Silent s p) {f : PortSt → PortSt} (hf : (f (portOf s p)).ev.enable = false) :
    Silent (updPort s p f) p := by
  obtain ⟨hflags, hraised, -⟩ := h
  exact ⟨(updPort_condFrom ..).trans hflags, (updPort_raised s p f).symm ▸ hraised, by rw [portOf_updPort, hf]⟩

theorem silent_disablePort {s : State} {p : Port} (hq : quiet s) (hon : (portOf s p).enable = true) (kind : Nat) (linkGone : Bool) :
    Silent (disablePort s p kind linkGone) p := by
  refine ⟨(condFrom_of_rest (rest_disablePort (L := but .condFrom) rfl ..) rfl).trans hq.2, fun r hr => ?_, ?_⟩
  · have hnone : r ∉ s.raised := by simp [hq.1]
    exact (raised_disablePort hon kind linkGone r hr).resolve_left hnone
  · exact congrArg (fun x => x.2.2.2.2.1.enable) (stance_disablePort hon kind linkGone)

/-- A port's registers after its disable. -/
def PortStopped (x : PortSt) : Prop := x.enable = false ∧ x.ready = false ∧ x.queues = [] ∧ x.resumptionPending = true ∧ x.ev.enable = false

theorem portStopped_of_stance {x y : PortSt} {kind : Nat} (h : stance y = downStance x kind) : PortStopped y := by
  simp only [stance, downStance, Prod.mk.injEq] at h
  obtain ⟨henable, hready, hqueues, hpending, hring, -, -⟩ := h
  exact ⟨henable, hready, hqueues, hpending, congrArg EvRing.enable hring⟩

theorem portStopped_disablePort {s : State} {p : Port} (hon : (portOf s p).enable = true) (kind : Nat) (linkGone : Bool) :
    PortStopped (portOf (disablePort s p kind linkGone) p) := portStopped_of_stance (stance_disablePort hon kind linkGone)

/-- A port stopped, and the other as it was, where its own link is not lost as well (R88). -/
def Stopped (s t : State) (p : Port) : Prop :=
  (portOf t p).enable = false ∧ (portOf t p).ready = false ∧ (portOf t p).queues = [] ∧ (portOf t p).resumptionPending = true ∧
  (portOf t p).ev.enable = false ∧ ((portOf s (otherPort p)).linkLost = false → portOf t (otherPort p) = portOf s (otherPort p))

/-- At the end of its cycle a stopped port is as it was, and so is the other. -/
theorem stopped_endCycle {s u : State} {p : Port} (hsilent : Silent u p) (hport : PortStopped (portOf u p))
    (hother : (portOf s (otherPort p)).linkLost = false → portOf u (otherPort p) = portOf s (otherPort p)) : Stopped s (endCycle u) p := by
  obtain ⟨henable, hready, hqueues, hpending, hring⟩ := hport
  unfold Stopped
  simp only [hsilent.portOf_endCycle]
  exact ⟨henable, hready, hqueues, hpending, hring, hother⟩

/-! ## A write of PORT_CONTROL -/

theorem bits_zero (v : Word) : (bits v.toNat 0 0 == 1) = v.getLsbD 0 := by
  rw [← BitVec.testBit_toNat, Nat.testBit_zero, bits]
  rfl

/-- The SHUTDOWN field written after ENABLE; 2 and 3 are reserved (Table 4-3). -/
def writeShutdown (t : State) (p : Port) (sd : Nat) : State :=
  if 1 < sd then t
  else updPort t p (fun x => if sd == 1 then { x with shutdownReq := 1, shutdownState := 1, shutdownCkpt := none } else { x with shutdownReq := sd })

theorem writePortControl_disable {s : State} {p : Port} {v : Word} (hv : v.getLsbD 0 = false) (hon : (portOf s p).enable = true) :
    writePortControl s p v = writeShutdown (disablePort s p 3 false) p (bits v.toNat 2 1) := by
  simp only [writePortControl, bits_zero, hv, hon, Bool.not_false, Bool.not_true, Bool.false_and, Bool.true_and, Bool.false_eq_true, ↓reduceIte]
  rfl

theorem writeShutdown_other (t : State) {p q : Port} (hq : q ≠ p) (sd : Nat) : portOf (writeShutdown t p sd) q = portOf t q := by
  unfold writeShutdown
  split
  · rfl
  · exact portOf_updPort_other _ _ _ hq

/-- A write of SHUTDOWN alone leaves a stopped port stopped. -/
theorem silent_writeShutdown {t : State} {p : Port} (h : Silent t p) (sd : Nat) : Silent (writeShutdown t p sd) p := by
  obtain ⟨-, -, hring⟩ := id h
  unfold writeShutdown
  split
  · exact h
  · exact h.updPort (by split <;> exact hring)

theorem portStopped_writeShutdown {t : State} {p : Port} (h : PortStopped (portOf t p)) (sd : Nat) : PortStopped (portOf (writeShutdown t p sd) p) := by
  unfold writeShutdown
  split
  · exact h
  · rw [portOf_updPort]
    split <;> exact h

/-! ## A link lost (R508) -/

section LinkLoss

variable {s : State} {p : Port}

theorem portOf_bothLost (s : State) (p : Port) : portOf (bothLost s p) p = portOf s p := by
  unfold bothLost
  dsimp only
  split
  · exact portOf_updPort_other _ _ _ (otherPort_ne p).symm
  · rfl

theorem bothLost_alone (h : (portOf s (otherPort p)).linkLost = false) : bothLost s p = s := by simp [bothLost, h]

theorem kind_bothLost (hlost : (portOf s (otherPort p)).linkLost = true) (hpending : (portOf s (otherPort p)).resumptionPending = true)
    (hkind : (portOf s (otherPort p)).res.kind = 3) : (portOf (bothLost s p) (otherPort p)).res.kind = 4 := by
  simp [bothLost, hlost, hpending, hkind]

theorem quiet_bothLost (h : quiet s) : quiet (bothLost s p) := quiet_of_rest h (rest_bothLost rfl s p)

variable (hq : quiet s) (hon : (portOf s p).enable = true)

/-- An enabled port whose link is lost, before its link is marked down. -/
def linkless (s : State) (p : Port) : State := disablePort (bothLost s p) p (linkKind s p) true

/-- A port with its link marked down. -/
def linkDown (x : PortSt) : PortSt := { x with linkUp := false, linkLost := x.linkLost || true }

include hon

theorem loseLink_enabled : loseLink s p = updPort (linkless s p) p linkDown := by
  simp only [loseLink, hon, ↓reduceIte]
  rfl

theorem enable_bothLost : (portOf (bothLost s p) p).enable = true := by rw [portOf_bothLost, hon]

theorem stance_linkless : stance (portOf (linkless s p) p) = downStance (portOf s p) (linkKind s p) := by
  rw [linkless, stance_disablePort (enable_bothLost hon), portOf_bothLost]

theorem portOf_linkless_other : portOf (linkless s p) (otherPort p) = portOf (bothLost s p) (otherPort p) :=
  portOf_disablePort_other (enable_bothLost hon) _ _ (otherPort_ne p)

theorem portOf_loseLink_other : portOf (loseLink s p) (otherPort p) = portOf (bothLost s p) (otherPort p) := by
  rw [loseLink_enabled hon, portOf_updPort_other _ _ _ (otherPort_ne p), portOf_linkless_other hon]

theorem portOf_loseLink_alone (h : (portOf s (otherPort p)).linkLost = false) : portOf (loseLink s p) (otherPort p) = portOf s (otherPort p) := by
  rw [portOf_loseLink_other hon, bothLost_alone h]

theorem stance_loseLink : stance (portOf (loseLink s p) p) = downStance (portOf s p) (linkKind s p) := by
  rw [loseLink_enabled hon, portOf_updPort]
  exact stance_linkless hon

include hq

theorem silent_loseLink : Silent (loseLink s p) p := by
  have hsilent := silent_disablePort (quiet_bothLost hq) (enable_bothLost hon) (linkKind s p) true
  obtain ⟨-, -, hring⟩ := id hsilent
  exact loseLink_enabled hon ▸ hsilent.updPort hring

end LinkLoss

/-! ## Registers reset with the port (R86, R114) -/

/-- A port's registers as PERST and a Function Level Reset leave them. -/
def resetRegs (x : PortSt) : PortSt :=
  { x with
    heldEnable := false, configError := false, shutdownReq := 0, shutdownState := 0, shutdownCkpt := none
    asqEntries := 0, acqEntries := 0, asqBase := 0, acqBase := 0, unknownQueue := 0, malformed := 0, bar0 := 0, lastBells := []
    ev := EvRing.reset, msix := [], pba := [], msixEnable := false, funcMask := false }

theorem resetPortRegs_eq (s : State) (p : Port) : resetPortRegs s p = updPort s p resetRegs := rfl

theorem portStopped_resetRegs {x : PortSt} (h : PortStopped x) : PortStopped (resetRegs x) := by
  obtain ⟨henable, hready, hqueues, hpending, -⟩ := h
  exact ⟨henable, hready, hqueues, hpending, rfl⟩

/-! ## The four causes of a disable -/

section Causes

variable {s : State} {p : Port} (hq : quiet s) (hon : (portOf s p).enable = true)
include hq hon

theorem portDisable_stops {v : Word} (hv : v.getLsbD 0 = false) : ∃ t, exec (.portDisable p v) s = .next t ∧ Stopped s t p := by
  have hexec : exec (.portDisable p v) s = execPortDisable p v s := rfl
  refine ⟨endCycle (writeShutdown (disablePort s p 3 false) p (bits v.toNat 2 1)), ?_, ?_⟩
  · simp only [hexec, execPortDisable, hv, hon, Bool.not_false, Bool.true_and, Bool.true_or, ↓reduceIte, writePortControl_disable hv hon]
    rfl
  · refine stopped_endCycle (silent_writeShutdown (silent_disablePort hq hon 3 false) _) (portStopped_writeShutdown (portStopped_disablePort hon 3 false) _) ?_
    intro _
    rw [writeShutdown_other _ (otherPort_ne p), portOf_disablePort_other hon 3 false (otherPort_ne p)]

theorem functionLevelReset_stops : ∃ t, exec (.functionLevelReset p) s = .next t ∧ Stopped s t p ∧ (portOf t p).asqEntries = 0 ∧ (portOf t p).msix = [] := by
  have hsilent : Silent (updPort (disablePort s p 3 false) p resetRegs) p := (silent_disablePort hq hon 3 false).updPort rfl
  have hport : portOf (updPort (disablePort s p 3 false) p resetRegs) p = resetRegs (portOf (disablePort s p 3 false) p) := portOf_updPort ..
  refine ⟨endCycle (updPort (disablePort s p 3 false) p resetRegs), rfl, stopped_endCycle hsilent ?_ ?_, ?_⟩
  · rw [hport]
    exact portStopped_resetRegs (portStopped_disablePort hon 3 false)
  · intro _
    rw [portOf_updPort_other _ _ _ (otherPort_ne p), portOf_disablePort_other hon 3 false (otherPort_ne p)]
  · rw [hsilent.portOf_endCycle, hport]
    exact ⟨rfl, rfl⟩

theorem perstAssert_stops : ∃ t, exec (.perstAssert p) s = .next t ∧ Stopped s t p ∧ (portOf t p).asqEntries = 0 ∧ (portOf t p).msix = [] ∧
    (portOf t p).perst = true ∧ (portOf t p).linkUp = false := by
  have hsilent : Silent (updPort (updPort (loseLink s p) p resetRegs) p (fun x => { x with perst := true, l12 := false })) p :=
    ((silent_loseLink hq hon).updPort rfl).updPort (by rw [portOf_updPort]; rfl)
  have hport : portOf (updPort (updPort (loseLink s p) p resetRegs) p (fun x => { x with perst := true, l12 := false })) p =
      { resetRegs (portOf (loseLink s p) p) with perst := true, l12 := false } := by rw [portOf_updPort, portOf_updPort]
  refine ⟨endCycle (updPort (updPort (loseLink s p) p resetRegs) p (fun x => { x with perst := true, l12 := false })), rfl,
    stopped_endCycle hsilent ?_ ?_, ?_⟩
  · rw [hport]
    exact portStopped_resetRegs (x := portOf (loseLink s p) p) (portStopped_of_stance (stance_loseLink hon))
  · intro hlink
    rw [portOf_updPort_other _ _ _ (otherPort_ne p), portOf_updPort_other _ _ _ (otherPort_ne p), portOf_loseLink_alone hon hlink]
  · rw [hsilent.portOf_endCycle, hport, loseLink_enabled hon, portOf_updPort]
    exact ⟨rfl, rfl, rfl, rfl⟩

theorem surpriseDown_stops (hup : (portOf s p).linkUp = true) : ∃ t, exec (.surpriseDown p) s = .next t ∧ Stopped s t p ∧ (portOf t p).linkUp = false ∧
    (portOf t p).msix = (portOf s p).msix ∧ (portOf t p).res.kind = (if (portOf s (otherPort p)).linkLost then 4 else 3) ∧
    ((portOf s (otherPort p)).linkLost = true → (portOf s (otherPort p)).resumptionPending = true → (portOf s (otherPort p)).res.kind = 3 →
      (portOf t (otherPort p)).res.kind = 4) := by
  have hexec : exec (.surpriseDown p) s = settled (loseLink s p) := if_pos hup
  have hsilent := silent_loseLink hq hon
  have hstance := stance_loseLink hon
  refine ⟨endCycle (loseLink s p), hexec, stopped_endCycle hsilent (portStopped_of_stance hstance) (portOf_loseLink_alone hon), ?_⟩
  simp only [hsilent.portOf_endCycle]
  refine ⟨?_, congrArg (fun x => x.2.2.2.2.2.1) hstance, congrArg (fun x => x.2.2.2.2.2.2) hstance, fun hlost hpending hkind => ?_⟩
  · rw [loseLink_enabled hon, portOf_updPort]
    rfl
  · rw [portOf_loseLink_other hon, kind_bothLost hlost hpending hkind]

end Causes

/-- Settles O13: by the four causes of a disable. -/
theorem portDisablesStopOnePort : Obligations.PortDisablesStopOnePort := by
  unfold Obligations.PortDisablesStopOnePort
  intro s p hq hon
  exact ⟨fun v hv => portDisable_stops hq hon hv, functionLevelReset_stops hq hon, perstAssert_stops hq hon, surpriseDown_stops hq hon⟩

end Sys2Proof.Proofs
end

section
/-! PROOFS. Ports that come up, shut down and end their drain (R87 to R89, R508). -/
namespace Sys2Proof.Proofs
open Sys2Proof Sys2Proof.Machine Sys2Proof.Laws

/-! ## A write of PORT_CONTROL, seen after its cycle -/

/-- A port without what events change and without the registers of its shutdown. -/
def unshut (x : PortSt) : PortSt := { unsent x with shutdownReq := 0, shutdownState := 0, shutdownCkpt := none }

theorem unshut_writeShutdown (t : State) (p : Port) (sd : Nat) : unshut (portOf (writeShutdown t p sd) p) = unshut (portOf t p) := by
  unfold writeShutdown
  split
  · rfl
  · rw [portOf_updPort]
    split <;> rfl

/-- A field that neither the write of SHUTDOWN nor the end of the cycle changes. -/
theorem field_endCycle_writeShutdown {β : Type} (g : PortSt → β) (t : State) (p : Port) (sd : Nat)
    (hg : ∀ x, g (unshut x) = g x := by intro _; rfl) : g (portOf (endCycle (writeShutdown t p sd)) p) = g (portOf t p) := by
  have hsent : unshut (portOf (endCycle (writeShutdown t p sd)) p) = unshut (portOf (writeShutdown t p sd) p) :=
    congrArg (fun x => { x with shutdownReq := 0, shutdownState := 0, shutdownCkpt := none : PortSt }) (unsent_endCycle ..)
  rw [← hg, hsent, unshut_writeShutdown, hg]

theorem writePortControl_enable {s : State} {p : Port} {v : Word} (hv : v.getLsbD 0 = true) (hoff : (portOf s p).enable = false) :
    writePortControl s p v = writeShutdown (askEnable s p) p (bits v.toNat 2 1) := by
  simp only [writePortControl, bits_zero, hv, hoff, Bool.not_false, Bool.and_true, ↓reduceIte]
  rfl

/-- Whatever a write makes of ENABLE, it writes SHUTDOWN after it. -/
theorem writePortControl_shutdown (s : State) (p : Port) (v : Word) : ∃ t, writePortControl s p v = writeShutdown t p (bits v.toNat 2 1) := ⟨_, rfl⟩

/-! ## An enable (R87) -/

section Enable

variable {s : State} {p : Port}

theorem askEnable_unreleased (hrel : s.kf.released = false) : askEnable s p = updPort s p (fun x => { x with heldEnable := true }) := by
  simp [askEnable, hrel]

theorem askEnable_released (hrel : s.kf.released = true) (hdrain : (portOf s p).draining = false) : askEnable s p = enablePort s p := by
  simp [askEnable, hrel, hdrain]

theorem portOf_askEnable_valid (hrel : s.kf.released = true) (hdrain : (portOf s p).draining = false) (h : adminFieldsOk s (portOf s p) = true) :
    portOf (askEnable s p) p = { portOf s p with
      enable := true, heldEnable := false, configError := false, ready := true
      queues := [newQueue 0 (portOf s p).asqBase (portOf s p).acqBase (portOf s p).asqEntries (portOf s p).acqEntries 0 0 0 0]
      wrrClass := 0, wrrTurns := (portOf s p).arbHigh, wrrLast := [0, 0, 0] } := by
  simp only [askEnable_released hrel hdrain, enablePort, h, ↓reduceIte, portOf_updPort]

theorem portOf_askEnable_invalid (hrel : s.kf.released = true) (hdrain : (portOf s p).draining = false) (h : adminFieldsOk s (portOf s p) = false) :
    portOf (askEnable s p) p = { portOf s p with enable := false, heldEnable := false, configError := true } := by
  simp only [askEnable_released hrel hdrain, enablePort, h, Bool.false_eq_true, ↓reduceIte, portOf_updPort]

theorem exec_portEnable {v : Word} (hv : v.getLsbD 0 = true) (hoff : (portOf s p).enable = false) :
    exec (.portEnable p v) s = .next (endCycle (writeShutdown (askEnable s p) p (bits v.toNat 2 1))) := by
  have hexec : exec (.portEnable p v) s = execPortEnable p v s := rfl
  simp only [hexec, execPortEnable, hv, hoff, Bool.not_false, Bool.and_true, ↓reduceIte, writePortControl_enable hv hoff, settled]

end Enable

/-! ## A drain that has ended (R88) -/

theorem portOf_finishDrain_drained (s : State) (p : Port) :
    (portOf (finishDrain s p) p).draining = false ∧ (portOf (finishDrain s p) p).res.complete = true ∧
    (portOf (finishDrain s p) p).heldEnable = (portOf s p).heldEnable := by
  rw [finishDrain_eq, portOf_completeLog, portOf_drained, portOf_updPort, portOf_updPort]
  exact ⟨rfl, rfl, rfl⟩

/-- No context of the port is left. -/
theorem ctxs_finishDrain (s : State) (p : Port) : (finishDrain s p).ctxs = s.ctxs.filter (fun c => c.port != p) :=
  calc (finishDrain s p).ctxs
    _ = (drained s p).ctxs := ctxs_of_rest (rest_completeLog (L := but .ctxs) rfl ..) rfl
    _ = (revertFeatures (emptied s p) p).ctxs := ctxs_of_rest (rest_endContexts (L := but .ctxs) rfl ..) rfl
    _ = (emptied s p).ctxs := ctxs_of_rest (rest_revertFeatures (L := but .ctxs) rfl ..) rfl
    _ = (retireFates { s with ctxs := s.ctxs.filter (fun c => c.port != p) } ((portCtxs s p).filter (fun c => c.csn != 0))).ctxs := updPort_ctxs ..
    _ = s.ctxs.filter (fun c => c.port != p) := ctxs_of_rest (rest_retireFates (L := but .ctxs) rfl ..) rfl

theorem portCtxs_finishDrain (s : State) (p : Port) : portCtxs (finishDrain s p) p = [] := by
  unfold portCtxs
  rw [ctxs_finishDrain, List.filter_filter, List.filter_eq_nil_iff]
  intro c _
  simp

theorem exec_portDrainDone {s : State} {p : Port} (hdrain : (portOf s p).draining = true) (hdone : portDraining s p = false)
    (hheld : (portOf s p).heldEnable = false) : exec (.portDrainDone p) s = .next (endCycle (finishDrain s p)) := by
  have hexec : exec (.portDrainDone p) s = execPortDrainDone p s := rfl
  obtain ⟨-, -, hkept⟩ := portOf_finishDrain_drained s p
  have hsettled : settleEnable (finishDrain s p) p = finishDrain s p := by simp [settleEnable, hkept, hheld]
  simp only [hexec, execPortDrainDone, hdrain, hdone, hsettled, settled, Bool.not_true, Bool.or_self, Bool.false_eq_true, ↓reduceIte]

/-! ## Shutdown and link -/

/-- A port that is shutting down fetches from no queue (R89). -/
theorem canFetch_shutdown {s : State} {p : Port} (h : (portOf s p).shutdownState = 1) (k : Queue) : canFetch s p k = false := by
  simp [canFetch, portFetches, h]

theorem portOf_writeShutdown_one (t : State) (p : Port) :
    portOf (writeShutdown t p 1) p = { portOf t p with shutdownReq := 1, shutdownState := 1, shutdownCkpt := none } := by
  unfold writeShutdown
  rw [if_neg (by decide), portOf_updPort]
  rfl

theorem portShutdown_begins (s : State) (p : Port) {v : Word} (hsd : bits v.toNat 2 1 = 1) :
    ∃ t, exec (.portShutdown p v) s = .next t ∧ (portOf t p).shutdownReq = 1 ∧ (portOf t p).shutdownState = 1 := by
  have hexec : exec (.portShutdown p v) s = .next (endCycle (writePortControl s p v)) := if_pos (beq_iff_eq.mpr hsd)
  obtain ⟨u, hu⟩ := writePortControl_shutdown s p v
  rw [hu, hsd] at hexec
  have hview := unsent_endCycle (writeShutdown u p 1) p
  rw [portOf_writeShutdown_one] at hview
  exact ⟨_, hexec, field_of_unsent hview PortSt.shutdownReq, field_of_unsent hview PortSt.shutdownState⟩

theorem exec_portShutdownDone {s : State} {p : Port} (hstop : s.jrnl.stopFrom = none) (hends : shutdownEnds s p = true) (hlater : s.kf.onShutdown = false) :
    exec (.portShutdownDone p) s = .next (endCycle (updPort s p (fun x => { x with shutdownState := 2 }))) := by
  have hexec : exec (.portShutdownDone p) s = execPortShutdownDone p s := rfl
  simp [hexec, execPortShutdownDone, hstop, hends, hlater, settled]

theorem exec_pcieLinkUp {s : State} {p : Port} (hperst : (portOf s p).perst = false) (hporst : s.kf.porst = false) (htrip : s.power.tripped = false) :
    exec (.pcieLinkUp p) s = .next (updPort s p (fun x => { x with linkLost := false, linkUp := true })) := by
  have hexec : exec (.pcieLinkUp p) s = execPcieLinkUp p s := rfl
  simp [hexec, execPcieLinkUp, hperst, hporst, htrip]

/-- Settles O12: by the writes, pins and ends of work that bring a port up and down. -/
theorem portsComeUpAndShutDown : Obligations.PortsComeUpAndShutDown := by
  unfold Obligations.PortsComeUpAndShutDown
  intro s p
  refine ⟨fun v hv hoff => ?enable, fun hperst hporst htrip => ?linkUp, ?perst, fun v hsd => ?shutdown, fun hstop hends hlater => ?shutdownDone,
    fun hdrain hdone hheld => ?drainDone⟩
  case enable =>
    have hfield : ∀ {β : Type} (g : PortSt → β) (_ : ∀ x, g (unshut x) = g x),
        g (portOf (endCycle (writeShutdown (askEnable s p) p (bits v.toNat 2 1))) p) = g (portOf (askEnable s p) p) :=
      fun g hg => field_endCycle_writeShutdown g _ p _ hg
    refine ⟨_, exec_portEnable hv hoff, fun hrel => ?held, fun hrel hdrain hok => ?valid, fun hrel hdrain hbad => ?invalid⟩
    case held =>
      rw [hfield PortSt.heldEnable (fun _ => rfl), hfield PortSt.enable (fun _ => rfl), askEnable_unreleased hrel, portOf_updPort]
      exact ⟨rfl, hoff⟩
    case valid =>
      have hport := portOf_askEnable_valid hrel hdrain hok
      rw [hfield PortSt.enable (fun _ => rfl), hfield PortSt.ready (fun _ => rfl), hfield PortSt.configError (fun _ => rfl), hport]
      refine ⟨rfl, rfl, rfl, newQueue 0 (portOf s p).asqBase (portOf s p).acqBase (portOf s p).asqEntries (portOf s p).acqEntries 0 0 0 0, ?_, rfl,
        rfl, rfl, rfl, rfl, rfl⟩
      rw [queueOf, hfield PortSt.queues (fun _ => rfl), hport]
      rfl
    case invalid =>
      rw [hfield PortSt.enable (fun _ => rfl), hfield PortSt.configError (fun _ => rfl), hfield PortSt.queues (fun _ => rfl),
        portOf_askEnable_invalid hrel hdrain hbad]
      exact ⟨rfl, rfl, rfl⟩
  case linkUp => exact ⟨_, exec_pcieLinkUp hperst hporst htrip, congrArg PortSt.linkUp (portOf_updPort ..)⟩
  case perst =>
    refine ⟨wakeBy (updPort s p (fun x => { x with perst := false })) 4 (s.power.commitAo.getD 0), rfl, ?_⟩
    rw [portOf_of_rest (rest_wakeBy (L := but .ports) rfl ..) rfl, portOf_updPort]
  case shutdown =>
    obtain ⟨t, ht, hreq, hstate⟩ := portShutdown_begins s p hsd
    exact ⟨t, ht, hreq, hstate, canFetch_shutdown hstate⟩
  case shutdownDone =>
    refine ⟨_, exec_portShutdownDone hstop hends hlater, ?_⟩
    rw [field_of_unsent (unsent_endCycle ..) PortSt.shutdownState, portOf_updPort]
  case drainDone =>
    have hview := unsent_endCycle (finishDrain s p) p
    obtain ⟨hdraining, hcomplete, -⟩ := portOf_finishDrain_drained s p
    refine ⟨_, exec_portDrainDone hdrain hdone hheld, (field_of_unsent hview PortSt.draining).trans hdraining,
      (field_of_unsent hview (fun x => x.res.complete)).trans hcomplete, ?_⟩
    exact (congrArg (List.filter _) (endCycle_ctxs _)).trans (portCtxs_finishDrain s p)

end Sys2Proof.Proofs
end

section
/-! PROOFS. Doorbells (R97, R98, R128): a value in the span of its ring recorded, one of a DISABLED queue counted, and one outside its ring logged. -/
namespace Sys2Proof.Proofs
open Sys2Proof Sys2Proof.Machine Sys2Proof.Laws

/-! ## What the time of a doorbell and its acceptance leave -/

theorem portOf_advanceTo (s : State) (c : Nat) (p : Port) : portOf (advanceTo s c) p = portOf s p :=
  portOf_of_rest (rest_advanceTo (L := but .ports) rfl s c) rfl p

theorem queueOf_advanceTo (s : State) (c : Nat) (p : Port) (q : Nat) : queueOf (advanceTo s c) p q = queueOf s p q :=
  queueOf_congr (congrArg PortSt.queues (portOf_advanceTo s c p)) q

theorem quiet_advanceTo {s : State} (h : quiet s) (c : Nat) : quiet (advanceTo s c) := quiet_of_rest h (rest_advanceTo rfl s c)

theorem isOwner_advanceTo (s : State) (c : Nat) : isOwner (advanceTo s c) = isOwner s := by
  unfold isOwner
  rw [twin_of_rest (rest_advanceTo (L := but .twin) rfl s c) rfl]

/-- A round that ends leaves the queues of its port. -/
theorem queues_settleRound (s : State) (p : Port) : (portOf (settleRound s p) p).queues = (portOf s p).queues := by
  unfold settleRound
  dsimp only
  split
  · rfl
  · rw [portOf_setPort]

theorem queueOf_bellAccepted (s : State) (p : Port) (q v : Nat) (isHead : Bool) (n : Nat) : queueOf (bellAccepted s p q v isHead) p n = queueOf s p n := by
  have hport : portOf (bellAccepted s p q v isHead) p = portOf (settleRound s p) p := by rw [bellAccepted, portOf_mirrorFrame, portOf_countEvent]
  exact queueOf_congr (hport ▸ queues_settleRound s p) n

theorem quiet_bellAccepted {s : State} (h : quiet s) (p : Port) (q v : Nat) (isHead : Bool) : quiet (bellAccepted s p q v isHead) :=
  quiet_of_rest h (rest_bellAccepted rfl s p q v isHead)

/-! ## The queue that a doorbell names -/

theorem bellQueue_own {s : State} {p : Port} {q : Nat} {k : Queue} (hk : queueOf s p q = some k) : bellQueue s p q = some (k, false) := by
  simp [bellQueue, hk]

theorem bellQueue_unknown {s : State} {p : Port} {q : Nat} (hown : isOwner s = true) (hk : queueOf s p q = none) : bellQueue s p q = none := by
  simp [bellQueue, hk, hown]

/-- An own queue put back under its number is found there. -/
theorem queueOf_putBellQueue {s : State} {p : Port} {q : Nat} {k k' : Queue} (hk : queueOf s p q = some k) (hqid : k'.qid = k.qid) :
    queueOf (putBellQueue s p k' false) p q = some k' := by
  have hnum := qid_of_queueOf hk
  have hput : putBellQueue s p k' false = updQueue s p q (fun _ => k') := by
    rw [← hnum, ← hqid]
    rfl
  rw [hput, queueOf_updQueue hk (fun _ _ => hqid.trans hnum)]

theorem quiet_putBellQueue {s : State} (h : quiet s) (p : Port) (k : Queue) : quiet (putBellQueue s p k false) :=
  quiet_of_rest h (rest_putBellQueue rfl s p k false)

/-! ## Doorbells judged (R98) -/

theorem judgeTail_new {k : Queue} {v : Word} (hlt : v.toNat < k.sqEntries) (hne : v.toNat ≠ k.sqTail)
    (hspan : sqWaiting k ≤ (v.toNat + k.sqEntries - k.sqHead) % k.sqEntries) : judgeTail k v = .new v.toNat := by
  simp [judgeTail, hne, Nat.not_le.mpr hlt, Nat.not_lt.mpr hspan]

theorem judgeTail_wrong {k : Queue} {v : Word} (hge : k.sqEntries ≤ v.toNat) (hne : v.toNat ≠ k.sqTail) : judgeTail k v = .wrong := by
  simp [judgeTail, hne, hge]

theorem judgeHead_new {k : Queue} {v : Word} (hne : v.toNat ≠ k.cqHead) (hspan : inSpan k.cqEntries k.cqHead k.cqTail v.toNat = true) :
    judgeHead k v = .new v.toNat := by
  simp [judgeHead, hne, hspan]

/-! ## Doorbells written -/

section Written

variable {t : State} {p : Port} {q : Nat} {v : Word}

theorem writeTail_new {k : Queue} (hk : queueOf t p q = some k) {n : Nat} (hj : judgeTail k v = .new n) :
    writeTail t p q v true = putBellQueue (bellAccepted t p q n false) p { k with sqTail := n, bells := (n, t.now) :: k.bells } false := by
  simp [writeTail, bellQueue_own hk, hj]

theorem writeTail_wrong {k : Queue} (hk : queueOf t p q = some k) (hj : judgeTail k v = .wrong) :
    writeTail t p q v true = doorbellError t p q 7 v.toNat k.sqTail := by
  simp [writeTail, bellQueue_own hk, hj]

theorem writeTail_unknown (hb : bellQueue t p q = none) : writeTail t p q v true = bellIgnored t p true := by
  simp [writeTail, hb]

theorem writeHead_new {k : Queue} (hk : queueOf t p q = some k) {n : Nat} (hj : judgeHead k v = .new n) :
    writeHead t p q v true = settleDelete (putBellQueue (bellAccepted t p q n true) p (acceptHead k n t.now) false) p q := by
  simp [writeHead, bellQueue_own hk, hj]

theorem writeHead_unknown (hb : bellQueue t p q = none) : writeHead t p q v true = bellIgnored t p true := by
  simp [writeHead, hb]

end Written

/-- A CQ_HEAD accepted moves the head and leaves the queue's number, its tail and a DELETE_QUEUE that waits (R112). -/
theorem acceptHead_fields (k : Queue) (v now : Nat) :
    (acceptHead k v now).cqHead = v ∧ (acceptHead k v now).cqTail = k.cqTail ∧ (acceptHead k v now).qid = k.qid ∧
    (acceptHead k v now).deleting = k.deleting := by
  unfold acceptHead implicitRestart
  split <;> exact ⟨rfl, rfl, rfl, rfl⟩

theorem settleDelete_not_deleting {s : State} {p : Port} {q : Nat} {k : Queue} (hk : queueOf s p q = some k) (hdel : k.deleting = none) :
    settleDelete s p q = s := by
  simp [settleDelete, hk, hdel]

/-- A doorbell of a queue that does not exist is counted (R98). -/
theorem portOf_bellIgnored (s : State) (p : Port) :
    portOf (bellIgnored s p true) p = { portOf s p with unknownQueue := Nat.min 0xFFFF ((portOf s p).unknownQueue + 1) } := by
  rw [bellIgnored, portOf_updPort]
  rfl

/-! ## A doorbell that is a host mistake (R128) -/

theorem queues_doorbellError (s : State) (p : Port) (q origin written before : Nat) :
    (portOf (doorbellError s p q origin written before) p).queues = (portOf s p).queues := by
  rw [doorbellError, portOf_raiseEvent, logError, portOf_updPort]
  cases p <;> rfl

theorem errSeq_doorbellError (s : State) (p : Port) (q origin written before : Nat) : (doorbellError s p q origin written before).errSeq = s.errSeq + 1 := by
  simp only [doorbellError, raiseEvent_errSeq, logError, updPort_errSeq]

/-- It raises one event. -/
theorem evSeq_endCycle_doorbellError {s : State} (h : quiet s) (p : Port) (q origin written before : Nat) :
    (endCycle (doorbellError s p q origin written before)).evSeq = s.evSeq + 1 := by
  have hraised : (doorbellError s p q origin written before).raised.length = 1 := by
    simp [doorbellError, raiseEvent, logError, updPort_raised, h.1]
  have hflags : (doorbellError s p q origin written before).condFrom = none := by
    simp [doorbellError, logError, h.2]
  have hseq : (doorbellError s p q origin written before).evSeq = s.evSeq := by simp [doorbellError, logError]
  rw [endCycle, evSeq_foldl_sendEvent]
  simp [condEvents, hflags, hraised, hseq]

/-- Settles O14: by what a doorbell is judged to be. -/
theorem doorbellsAreRecordedOrRefused : Obligations.DoorbellsAreRecordedOrRefused := by
  unfold Obligations.DoorbellsAreRecordedOrRefused
  intro s p q v c hquiet hown
  have hlater : quiet (advanceTo s c) := quiet_advanceTo hquiet c
  have hqueue : queueOf (advanceTo s c) p q = queueOf s p q := queueOf_advanceTo s c p q
  refine ⟨fun k hk hlt hne hspan => ?tail, fun k hk hne hspan hdel => ?head, fun hk => ?unknown, fun k hk hge hne => ?wrong⟩
  case tail =>
    have hnew := writeTail_new (hqueue.trans hk) (judgeTail_new hlt hne hspan)
    have hput := queueOf_putBellQueue (k' := { k with sqTail := v.toNat, bells := (v.toNat, (advanceTo s c).now) :: k.bells })
      ((queueOf_bellAccepted (advanceTo s c) p q v.toNat false q).trans (hqueue.trans hk)) rfl
    exact ⟨_, _, (congrArg settled hnew).trans (settled_quiet (quiet_putBellQueue (quiet_bellAccepted hlater ..) ..)), hput, rfl, rfl, rfl⟩
  case head =>
    obtain ⟨hhead, htail, hqid, hdeleting⟩ := acceptHead_fields k v.toNat (advanceTo s c).now
    have hput := queueOf_putBellQueue ((queueOf_bellAccepted (advanceTo s c) p q v.toNat true q).trans (hqueue.trans hk)) hqid
    have hnew := writeHead_new (hqueue.trans hk) (judgeHead_new hne hspan)
    rw [settleDelete_not_deleting hput (hdeleting.trans hdel)] at hnew
    exact ⟨_, _, (congrArg settled hnew).trans (settled_quiet (quiet_putBellQueue (quiet_bellAccepted hlater ..) ..)), hput, hhead, htail⟩
  case unknown =>
    have hbell := bellQueue_unknown ((isOwner_advanceTo s c).trans hown) (hqueue.trans hk)
    have hsettled : settled (bellIgnored (advanceTo s c) p true) = .next (bellIgnored (advanceTo s c) p true) := settled_quiet (quiet_updPort hlater p _)
    have hport := portOf_bellIgnored (advanceTo s c) p
    rw [portOf_advanceTo] at hport
    refine ⟨_, _, (congrArg settled (writeTail_unknown hbell)).trans hsettled, (congrArg settled (writeHead_unknown hbell)).trans hsettled, ?_⟩
    rw [hport]
    exact ⟨rfl, rfl, rfl, rfl⟩
  case wrong =>
    have hwrong := writeTail_wrong (hqueue.trans hk) (judgeTail_wrong hge hne)
    refine ⟨_, congrArg settled hwrong, ?_, ?_, ?_⟩
    · rw [queueOf_endCycle, queueOf_congr (queues_doorbellError ..), hqueue, hk]
    · rw [endCycle_errSeq, errSeq_doorbellError, errSeq_of_rest (rest_advanceTo (L := but .errSeq) rfl s c) rfl]
    · rw [evSeq_endCycle_doorbellError hlater, evSeq_of_rest (rest_advanceTo (L := but .evSeq) rfl s c) rfl]

end Sys2Proof.Proofs
end

section
/-! PROOFS. Fetch (R99, R100, R125): what the queue selected for a service is, and what each entry taken from it adds to the contexts. -/
namespace Sys2Proof.Proofs
open Sys2Proof Sys2Proof.Machine Sys2Proof.Laws

/-! ## The queue selected (R100) -/

theorem mem_of_classQueue {s : State} {p : Port} {c : Nat} {k : Queue} (h : classQueue s p c = some k) : k ∈ (portOf s p).queues := by
  unfold classQueue at h
  dsimp only at h
  rcases Option.or_eq_some_iff.mp h with h | ⟨-, h⟩
  · exact (List.mem_filter.mp (List.mem_of_find?_eq_some h)).1
  · exact (List.mem_filter.mp (List.mem_of_mem_head? h)).1

theorem mem_of_nextTurn {s : State} {p : Port} {k : Queue} {c' turns' : Nat} (n : Nat) :
    ∀ {c turns : Nat}, nextTurn s p c turns n = some (c', turns', k) → k ∈ (portOf s p).queues := by
  induction n with
  | zero => intro c turns h; cases h
  | succ n ih =>
    intro c turns h
    unfold nextTurn at h
    dsimp only at h
    split at h
    · exact ih h
    split at h
    · rename_i hclass
      cases h
      exact mem_of_classQueue hclass
    · exact ih h

/-- The queue selected is one of the port's, whose queues the turn leaves as they are. -/
theorem selectQueue_mem {s : State} {p : Port} {k : Queue} {x : PortSt} (h : selectQueue s p = some (k, x)) :
    k ∈ (portOf s p).queues ∧ x.queues = (portOf s p).queues := by
  unfold selectQueue at h
  dsimp only at h
  split at h
  · cases h
  split at h
  · rename_i hadmin
    cases h
    exact ⟨List.mem_of_find?_eq_some hadmin, rfl⟩
  · obtain ⟨⟨c, turns, j⟩, hturn, hr⟩ := Option.map_eq_some_iff.mp h
    cases hr
    exact ⟨mem_of_nextTurn 5 hturn, rfl⟩

/-- Its number still names a queue once the turn is taken. -/
theorem queueOf_selected {s : State} {p : Port} {k : Queue} {x : PortSt} (h : selectQueue s p = some (k, x)) :
    ∃ j, queueOf (setPort s p x) p k.qid = some j := by
  obtain ⟨hmem, hqueues⟩ := selectQueue_mem h
  unfold queueOf
  rw [portOf_setPort, hqueues]
  exact Option.isSome_iff_exists.mp (List.find?_isSome.mpr ⟨k, hmem, beq_self_eq_true _⟩)

/-! ## A free context number (Table 1-3) -/

theorem exists_free_cid (s : State) : ∃ n ∈ List.range (s.ctxs.length + 1), s.ctxs.all (fun c => c.cid != n) = true := by
  by_contra hnone
  have hused : List.range (s.ctxs.length + 1) ⊆ s.ctxs.map (·.cid) := by
    intro n hn
    by_contra hfree
    exact hnone ⟨n, hn, by simpa using fun c hc heq => hfree (List.mem_map.mpr ⟨c, hc, heq⟩)⟩
  have hlen := (List.subperm_of_subset List.nodup_range hused).length_le
  simp at hlen

theorem freeCid_unused (s : State) : ∀ c ∈ s.ctxs, c.cid ≠ freeCid s := by
  obtain ⟨n, hn⟩ := Option.isSome_iff_exists.mp (List.find?_isSome.mpr (exists_free_cid s))
  have hfree : freeCid s = n := by simp [freeCid, hn]
  have hall := List.find?_some hn
  simpa [hfree] using hall

/-! ## Entries fetched (R99) -/

/-- The context that an entry of a queue becomes. -/
def entryCtx (s : State) (p : Port) (k : Queue) (q : Nat) (dw : List Word) : Ctx :=
  fetchedCtx (freeCid s) p q k.sqHead (dw.take 16) ((k.bells.getLast?.map (·.2)).getD s.now) s.now

/-- A context added, and what Periscope noted under its number forgotten. -/
def withEntry (s : State) (c : Ctx) : State :=
  { s with
    ctxs := s.ctxs ++ [c]
    ctr := { s.ctr with logWaiters := s.ctr.logWaiters.filter (fun w => w.1 != c.cid), logReady := s.ctr.logReady.filter (fun w => w != c.cid) } }

/-- A queue that has moved on by one fetched entry (R110). -/
def afterFetch (k : Queue) (h : Nat) : Queue := { k with sqHead := h, bells := keepBells k h }

section Fetch

variable {s : State} {p : Port} {q : Nat} {k : Queue} (hk : queueOf s p q = some k) (dw : List Word)
include hk

theorem fetchOne_eq : fetchOne s p q dw =
    countEvent (updQueue (withEntry s (entryCtx s p k q dw)) p q (fun j => afterFetch j (ringNext k.sqEntries k.sqHead))) 0x02 (portNum p) 1 := by
  unfold fetchOne
  rw [hk]
  rfl

theorem ctxs_fetchOne : (fetchOne s p q dw).ctxs = s.ctxs ++ [entryCtx s p k q dw] := by
  rw [fetchOne_eq hk, countEvent_ctxs, updQueue, updPort_ctxs]
  rfl

theorem queueOf_fetchOne : ∃ j, queueOf (fetchOne s p q dw) p q = some j := by
  have hentry : queueOf (withEntry s (entryCtx s p k q dw)) p q = some k := hk ▸ by cases p <;> rfl
  rw [fetchOne_eq hk, queueOf_congr (congrArg PortSt.queues (portOf_countEvent ..))]
  exact ⟨_, queueOf_updQueue hentry (fun _ h => h)⟩

/-- The entry's own context is found under the number it took. -/
theorem ctxOf_fetchOne : ctxOf (fetchOne s p q dw) (freeCid s) = some (entryCtx s p k q dw) := by
  have hold : s.ctxs.find? (fun c => c.cid == freeCid s) = none := by simpa using freeCid_unused s
  unfold ctxOf
  rw [ctxs_fetchOne hk, List.find?_append, hold]
  simp [entryCtx, fetchedCtx]

end Fetch

theorem csnNext_fetchOne (s : State) (p : Port) (q : Nat) (dw : List Word) : (fetchOne s p q dw).csnNext = s.csnNext :=
  csnNext_of_rest (rest_fetchOne (L := but .csnNext) rfl s p q dw) rfl

theorem csnNext_setPort (s : State) (p : Port) (x : PortSt) : (setPort s p x).csnNext = s.csnNext := by simp

/-- Entries fetched one after the other each take a context, and none a CSN. -/
theorem fetchOnes_take {p : Port} {q : Nat} (es : List (List Word)) :
    ∀ {s : State}, (∃ k, queueOf s p q = some k) →
      (es.foldl (fun t dw => fetchOne t p q dw) s).ctxs.length = s.ctxs.length + es.length ∧
      (es.foldl (fun t dw => fetchOne t p q dw) s).csnNext = s.csnNext := by
  induction es with
  | nil => exact fun _ => ⟨rfl, rfl⟩
  | cons dw es ih =>
    rintro s ⟨k, hk⟩
    obtain ⟨hlen, hcsn⟩ := ih (queueOf_fetchOne hk dw)
    rw [List.foldl_cons, hlen, hcsn, ctxs_fetchOne hk, csnNext_fetchOne, List.length_append, List.length_singleton, List.length_cons]
    exact ⟨by omega, rfl⟩

/-! ## A service (R100) and a read that faults (R125) -/

section Service

variable {s : State} {p : Port} {c : Nat} {k : Queue} {x : PortSt} (hc : c ≤ s.now) (hsel : selectQueue s p = some (k, x))
include hc hsel

theorem exec_submissionFetch {es : List (List Word)} (hes : es ≠ []) :
    exec (.submissionFetch p es c) s =
      .next (settleRound ((es.take (burstOf s p k)).foldl (fun t dw => fetchOne t p k.qid dw) (setPort s p x)) p) := by
  have hexec : exec (.submissionFetch p es c) s = execSubmissionFetch p es c s := rfl
  simp [hexec, execSubmissionFetch, advanceTo_past hc, hsel, hes]

theorem exec_entryFetchFault (kind : Nat) :
    exec (.entryFetchFault p kind c) s =
      .next (refuseEntry (fetchOne (setPort s p x) p k.qid (List.replicate 16 0)) (freeCid s) { status := 0x1005, origin := 0, detail1 := kind }) := by
  have hexec : exec (.entryFetchFault p kind c) s = execEntryFetchFault p kind c s := rfl
  simp [hexec, execEntryFetchFault, advanceTo_past hc, hsel]

end Service

/-- Settles O15: each entry of a service takes a context, and one whose read faulted is refused. -/
theorem fetchTakesCreditAndContext : Obligations.FetchTakesCreditAndContext := by
  unfold Obligations.FetchTakesCreditAndContext
  intro s p c k x hc hsel
  obtain ⟨j, hj⟩ := queueOf_selected hsel
  refine ⟨fun es hes => ?service, fun kind => ?fault⟩
  case service =>
    obtain ⟨hlen, hcsn⟩ := fetchOnes_take (es.take (burstOf s p k)) ⟨j, hj⟩
    refine ⟨_, exec_submissionFetch hc hsel hes, ?_, ?_⟩
    · rw [ctxs_of_rest (rest_settleRound (L := but .ctxs) rfl ..) rfl, hlen, List.length_take, setPort_ctxs, Nat.min_comm]
    · rw [csnNext_of_rest (rest_settleRound (L := but .csnNext) rfl ..) rfl, hcsn, csnNext_setPort]
  case fault =>
    have hcid : freeCid (setPort s p x) = freeCid s := by cases p <;> rfl
    have hctx := ctxOf_fetchOne hj (List.replicate 16 0)
    rw [hcid] at hctx
    obtain ⟨e, he, hstage, hstatus, hcsn⟩ := ctxOf_refuseEntry { status := 0x1005, origin := 0, detail1 := kind } hctx rfl
    exact ⟨_, e, exec_entryFetchFault hc hsel kind, he, hstage, hstatus, hcsn,
      (csnNext_refuseEntry ..).trans ((csnNext_fetchOne ..).trans (csnNext_setPort ..))⟩

end Sys2Proof.Proofs
end

section
/-! PROOFS. Completions posted (R96, R109): the entry written and the context released; and messages (R114, R115, R119). -/
namespace Sys2Proof.Proofs
open Sys2Proof Sys2Proof.Machine Sys2Proof.Laws

/-! ## Contexts released -/

theorem ctxOf_dropCtx (s : State) (cid : Nat) : ctxOf (dropCtx s cid) cid = none := by
  simp [ctxOf, dropCtx]

/-- A change of one context that keeps its number changes what is found under a number only by that change. -/
theorem ctxOf_updCtx_map (s : State) (cid n : Nat) {f : Ctx → Ctx} (hf : ∀ c, (f c).cid = c.cid) :
    ctxOf (updCtx s n f) cid = (ctxOf s cid).map (fun c => if c.cid == n then f c else c) := by
  have hkey : (fun c : Ctx => c.cid == cid) ∘ (fun c => if c.cid == n then f c else c) = fun c => c.cid == cid := by
    funext c
    by_cases hc : c.cid = n <;> simp [hc, hf]
  unfold ctxOf updCtx
  rw [List.find?_map, hkey]

/-- A context that is gone does not come back with a change of another. -/
theorem ctxOf_updCtx_gone {s : State} {cid : Nat} (h : ctxOf s cid = none) (n : Nat) {f : Ctx → Ctx}
    (hf : ∀ c, (f c).cid = c.cid := by intro _; rfl) :
    ctxOf (updCtx s n f) cid = none := by
  rw [ctxOf_updCtx_map s cid n hf, h]
  rfl

theorem ctxOf_performState_gone {s : State} {cid : Nat} (h : ctxOf s cid = none) (n kind : Nat) (r0 r1 : Word) (feature : Option (Nat × List Word))
    (queue : Option QueueImage) (log : Option Port) : ctxOf (performState s n kind r0 r1 feature queue log) cid = none := by
  have hsent : ∀ f, ctxOf (mirrorFrame s f) cid = none := fun f => (ctxOf_congr (mirrorFrame_ctxs s f) cid).trans h
  exact ctxOf_updCtx_gone (s := perform (mirrorFrame s _) n r0 r1) (ctxOf_updCtx_gone (hsent _) n) n

theorem ctxOf_settleDelete_gone {s : State} {cid : Nat} (h : ctxOf s cid = none) (p : Port) (q : Nat) : ctxOf (settleDelete s p q) cid = none := by
  have hdrop : ctxOf (dropQueue s p q) cid = none := (ctxOf_congr (updPort_ctxs ..) cid).trans h
  unfold settleDelete
  split
  · exact h
  split
  · exact h
  split
  · exact h
  · exact ctxOf_performState_gone hdrop ..

/-! ## The state in which a completion's message is judged -/

/-- A completion written, its context released and its queue moved on. -/
def posted (s : State) (c : Ctx) (k : Queue) : State :=
  let bad := nonSuccess c.status
  let t := emit s (.words c.port (k.cqBase + 32 * k.cqTail) (completionWords c k))
  let t := if sending s then sendFrame t
      (.complete [{ csn := c.csn, port := c.port, queue := c.queue, cqIndex := k.cqTail, phase := k.phase, status := c.status }]) else t
  let t := countEvent t 0x04 (portNum c.port) 1
  let t := recordSample t c
  let t := if c.stage == .refused then t else retire t c (unitsOf c.dw) (!bad)
  updQueue (dropCtx (dropStanding t c) c.cid) c.port c.queue (fun _ => afterPost k bad s.now)

theorem post_eq (s : State) (c : Ctx) (k : Queue) :
    post s c k = dropEnded (if signalsNow (posted s c k) c (afterPost k (nonSuccess c.status) s.now)
      then sendCqMessage (posted s c k) c.port (afterPost k (nonSuccess c.status) s.now) else posted s c k) := rfl

/-- Beyond the entry written, a completion changes contexts, ports, the frames for the partner, digest contexts and counters. -/
theorem rest_posted (s : State) (c : Ctx) (k : Queue) :
    rest [.ctxs, .ports, .twin, .dig, .ctr] (posted s c k) =
      rest [.ctxs, .ports, .twin, .dig, .ctr] (emit s (.words c.port (k.cqBase + 32 * k.cqTail) (completionWords c k))) := by
  unfold posted
  extract_lets bad written told counted sampled retired
  calc rest _ (updQueue (dropCtx (dropStanding retired c) c.cid) c.port c.queue (fun _ => afterPost k bad s.now))
    _ = rest _ (dropCtx (dropStanding retired c) c.cid) := rest_updQueue (by decide) ..
    _ = rest _ (dropStanding retired c) := rest_dropCtx (by decide) ..
    _ = rest _ retired := rest_dropStanding (by decide) ..
    _ = rest _ sampled := by
      unfold retired
      split
      · rfl
      · exact rest_retire (by decide) ..
    _ = rest _ counted := rest_recordSample (by decide) ..
    _ = rest _ told := rest_countEvent (by decide) ..
    _ = rest _ written := by
      unfold told
      split
      · exact rest_sendFrame (by decide) ..
      · rfl

theorem ctxOf_posted (s : State) (c : Ctx) (k : Queue) : ctxOf (posted s c k) c.cid = none := by
  unfold posted
  extract_lets bad written told counted sampled retired
  exact (ctxOf_congr (updPort_ctxs ..) c.cid).trans (ctxOf_dropCtx (dropStanding retired c) c.cid)

/-! ## Messages (R114, R115) -/

theorem out_signal (s : State) (p : Port) (v : Nat) : ∃ more, (signal s p v).out = s.out ++ more := by
  unfold signal
  dsimp only
  split
  · exact ⟨[], (List.append_nil _).symm⟩
  split
  · exact ⟨[], (updPort_out ..).trans (List.append_nil _).symm⟩
  · exact ⟨_, rfl⟩

theorem out_sendCqMessage (s : State) (p : Port) (k : Queue) : (sendCqMessage s p k).out = (signal s p k.vector).out := updPort_out ..

/-- A vector that may send now sends its message. -/
theorem out_signal_sent {s : State} {p : Port} {v : Nat} (hmsix : (portOf s p).msixEnable = true) (hfree : vectorHeld (portOf s p) v = false) :
    (signal s p v).out = s.out ++ [.msi p v] := by
  simp [signal, hmsix, hfree, emit]

theorem queueOf_signal (s : State) (p : Port) (v : Nat) (q : Nat) : queueOf (signal s p v) p q = queueOf s p q :=
  queueOf_congr (field_of_unsent (unsent_signal s p v p) PortSt.queues) q

/-- The message of a CQ leaves no entry of it unsignalled. -/
theorem queueOf_sendCqMessage {s : State} {p : Port} {q : Nat} {k : Queue} (hk : queueOf s p q = some k) :
    queueOf (sendCqMessage s p k) p q = some { k with unsignalled := 0, coalFrom := none } := by
  obtain rfl := qid_of_queueOf hk
  exact queueOf_updQueue ((queueOf_signal s p k.vector k.qid).trans hk) (fun _ h => h)

/-- A posting writes its completion entry before anything else it sends. -/
theorem out_post (s : State) (c : Ctx) (k : Queue) :
    ∃ more, (post s c k).out = s.out ++ .words c.port (k.cqBase + 32 * k.cqTail) (completionWords c k) :: more := by
  have hwritten : (posted s c k).out = s.out ++ [.words c.port (k.cqBase + 32 * k.cqTail) (completionWords c k)] := out_of_rest (rest_posted s c k) rfl
  have hended : ∀ t : State, (dropEnded t).out = t.out := fun _ => rfl
  rw [post_eq, hended]
  split
  · obtain ⟨more, hmore⟩ := out_signal (posted s c k) c.port (afterPost k (nonSuccess c.status) s.now).vector
    exact ⟨more, by rw [out_sendCqMessage, hmore, hwritten, List.append_assoc, List.singleton_append]⟩
  · exact ⟨[], hwritten⟩

theorem ctxOf_post (s : State) (c : Ctx) (k : Queue) : ctxOf (post s c k) c.cid = none := by
  rw [post_eq]
  split
  · exact (ctxOf_congr (ctxs_of_rest (rest_sendCqMessage (L := but .ctxs) rfl ..) rfl) c.cid).trans (ctxOf_posted s c k)
  · exact ctxOf_posted s c k

/-- Settles O17: a completion that may post is posted, and a queue whose DELETE_QUEUE waited for it follows. -/
theorem completionsArePosted : Obligations.CompletionsArePosted := by
  unfold Obligations.CompletionsArePosted
  intro s cid c d k hc hd hk hmay
  obtain rfl := cid_of_ctxOf hd
  have hexec : exec (.completionPost d.cid c) s =
      .next (settleDelete (post s d k) d.port (if eOpcode d.dw == 0x86 then bits (eCdw d.dw 0) 13 0 else d.queue)) := by
    have harm : exec (.completionPost d.cid c) s = execCompletionPost d.cid c s := rfl
    simp [harm, execCompletionPost, advanceTo_past hc, hd, hk, hmay]
  obtain ⟨more, hmore⟩ := out_post s d k
  refine ⟨_, more, hexec, ?_, ctxOf_settleDelete_gone (ctxOf_post s d k) ..⟩
  rw [out_of_rest (rest_settleDelete (L := but .out) rfl ..) rfl, hmore]

/-! ## Timers and masks (R114, R115) -/

theorem exec_coalesceTimerExpiry {s : State} {p : Port} {q c f : Nat} {k : Queue} (hc : c ≤ s.now) (hk : queueOf s p q = some k)
    (hfrom : k.coalFrom = some f) (hsome : k.unsignalled ≠ 0) (hdue : f + 100 * k.timerTime ≤ s.now) :
    exec (.coalesceTimerExpiry p q c) s = .next (sendCqMessage s p k) := by
  have hexec : exec (.coalesceTimerExpiry p q c) s = execCoalesceTimerExpiry p q c s := rfl
  simp [hexec, execCoalesceTimerExpiry, advanceTo_past hc, hk, hfrom, hsome, Nat.not_lt.mpr hdue]

/-- The mask of a vector cleared in the MSI-X table. -/
def unmask (v : Nat) (x : PortSt) : PortSt := { x with msix := x.msix.map (fun e => if e.vector == v then { e with masked := false } else e) }

/-- An unmasked vector of the table is held back by the function mask and the link alone. -/
theorem vectorHeld_unmask {x : PortSt} {v : Nat} {e : MsixEntry} (hmask : x.funcMask = false) (hlink : x.linkUp = true)
    (he : x.msix.find? (fun e => e.vector == v) = some e) : vectorHeld (unmask v x) v = false := by
  have hkey : (fun e : MsixEntry => e.vector == v) ∘ (fun e => if e.vector == v then { e with masked := false } else e) = fun e => e.vector == v := by
    funext e
    by_cases hv : e.vector = v <;> simp [hv]
  have hvec : e.vector = v := by simpa using List.find?_some he
  have hfound : (unmask v x).msix.find? (fun e => e.vector == v) = some { e with masked := false } := by
    rw [unmask, List.find?_map, hkey, he]
    simp [hvec]
  have hmask' : (unmask v x).funcMask = false := hmask
  have hlink' : (unmask v x).linkUp = true := hlink
  simp [vectorHeld, hmask', hlink', hfound]

/-- The one pending vector that may send is sent. -/
theorem sendPending_single {s : State} {p : Port} {v : Nat} (hpba : (portOf s p).pba = [v]) (hmsix : (portOf s p).msixEnable = true)
    (hfree : vectorHeld (portOf s p) v = false) :
    (sendPending s p).out = s.out ++ [.msi p v] ∧ (portOf (sendPending s p) p).pba = [] := by
  have hgo : [v].filter (fun w => (portOf s p).msixEnable && !vectorHeld (portOf s p) w) = [v] := by simp [hmsix, hfree]
  have hsent : sendPending s p = emit (updPort s p (fun x => { x with pba := x.pba.filter (fun w => !([v].contains w)) })) (.msi p v) := by
    simp only [sendPending, hpba, hgo]
    rfl
  rw [hsent, portOf_emit, portOf_updPort, hpba]
  exact ⟨congrArg (· ++ [_]) (updPort_out ..), by simp⟩

theorem exec_msixUnmask (s : State) (p : Port) (v : Nat) : exec (.msixUnmask p (some v)) s = .next (sendPending (updPort s p (unmask v)) p) := rfl

/-! ## The event ring (R119) -/

theorem writeEventCtrl_starts {s : State} {p : Port} {v : Word} (hen : bits v.toNat 31 31 = 1) (hoff : (portOf s p).ev.enable = false)
    (hlow : 2 ≤ bits v.toNat 12 0) (hhigh : bits v.toNat 12 0 ≤ s.kf.img.maxRing) (hbase : (portOf s p).ev.base % 4096 = 0)
    (hport : (portOf s p).enable = true) :
    (portOf (writeEventCtrl s p v) p).ev = { (portOf s p).ev with
      entries := bits v.toNat 12 0, vector := bits v.toNat 26 16, enable := true, head := 0, tail := 0, phase := true } := by
  simp [writeEventCtrl, hen, hoff, hlow, hhigh, hbase, hport]

theorem writeEventCtrl_stops {s : State} {p : Port} {v : Word} (hdis : bits v.toNat 31 31 = 0) (hon : (portOf s p).ev.enable = true) :
    (portOf (writeEventCtrl s p v) p).ev = { (portOf s p).ev with enable := false } := by
  simp [writeEventCtrl, hdis, hon]

/-- Settles O18: a timer, a mask, and the two writes of the event ring's enable. -/
theorem interruptsAreSignalled : Obligations.InterruptsAreSignalled := by
  unfold Obligations.InterruptsAreSignalled
  intro s p
  refine ⟨fun q c f k hc hk hfrom hsome hdue => ?timer, fun v e hmsix hmask hlink he hpba => ?unmask, fun v hen hoff hlow hhigh hbase hport => ?starts,
    fun v hdis hon => ?stops⟩
  case timer =>
    exact ⟨_, _, exec_coalesceTimerExpiry hc hk hfrom hsome hdue, queueOf_sendCqMessage hk, rfl, rfl,
      fun hmsix hfree => (out_sendCqMessage s p k).trans (out_signal_sent hmsix hfree)⟩
  case unmask =>
    have hport : portOf (updPort s p (unmask v)) p = unmask v (portOf s p) := portOf_updPort ..
    obtain ⟨hout, hcleared⟩ := sendPending_single (s := updPort s p (unmask v)) (v := v) (hport ▸ hpba) (hport ▸ hmsix) (hport ▸ vectorHeld_unmask hmask hlink he)
    exact ⟨_, exec_msixUnmask s p v, hout.trans (congrArg (· ++ [_]) (updPort_out ..)), hcleared⟩
  case starts => exact ⟨_, rfl, writeEventCtrl_starts hen hoff hlow hhigh hbase hport⟩
  case stops => exact ⟨_, rfl, writeEventCtrl_stops hdis hon⟩

end Sys2Proof.Proofs
end

section
/-! PROOFS. Queue commands (R92, R93, R134, R142): what creating, deleting and restarting a queue and acknowledging a RESUMPTION log leave. -/
namespace Sys2Proof.Proofs
open Sys2Proof Sys2Proof.Machine Sys2Proof.Laws

/-! ## A command performed outside the map (R388) -/

theorem endedWith_performState {s : State} {cid : Nat} {c : Ctx} (h : ctxOf s cid = some c) (kind : Nat) (r0 r1 : Word)
    (feature : Option (Nat × List Word)) (queue : Option QueueImage) (log : Option Port) :
    endedWith (performState s cid kind r0 r1 feature queue log) cid r0 r1 := by
  have hsent : ∀ f, ctxOf (mirrorFrame s f) cid = some c := fun f => (ctxOf_congr (mirrorFrame_ctxs s f) cid).trans h
  obtain ⟨e, he, hstage, hstatus, h0, h1⟩ := endedWith_perform (hsent _) r0 r1
  exact ⟨_, ctxOf_updCtx he fun _ h => h, hstage, hstatus, h0, h1⟩

theorem queueOf_performState (s : State) (cid kind : Nat) (r0 r1 : Word) (feature : Option (Nat × List Word)) (queue : Option QueueImage)
    (log : Option Port) (p : Port) (q : Nat) : queueOf (performState s cid kind r0 r1 feature queue log) p q = queueOf s p q :=
  queueOf_congr (congrArg PortSt.queues (portOf_performState ..)) q

theorem eOpcode_of_ctxIn {s : State} {cid op : Nat} {c : Ctx} (h : ctxIn s cid op = some c) : eOpcode c.dw = op := by
  have hc := ctxOf_of_ctxIn h
  simp only [ctxIn, hc, Bool.and_eq_true, beq_iff_eq] at h
  split at h
  · rename_i hin
    exact hin.1.1.1.1.1
  · cases h

/-! ## Queues made and removed (R92, R93) -/

/-- A queue inserted among queues of other numbers is the one found under its number. -/
theorem find?_insertQueue (k : Queue) : ∀ {l : List Queue}, (∀ h ∈ l, h.qid ≠ k.qid) → (insertQueue k l).find? (fun h => h.qid == k.qid) = some k
  | [], _ => by simp [insertQueue]
  | h :: l, hl => by
    obtain ⟨hne, hl⟩ := List.forall_mem_cons.mp hl
    unfold insertQueue
    split
    · simp
    · simp [hne, find?_insertQueue k hl]

theorem queueOf_addQueue (s : State) (p : Port) (k : Queue) : queueOf (addQueue s p k) p k.qid = some k := by
  unfold queueOf addQueue
  rw [portOf_updPort]
  exact find?_insertQueue k (by simp)

theorem queueOf_dropQueue (s : State) (p : Port) (q : Nat) : queueOf (dropQueue s p q) p q = none := by
  unfold queueOf dropQueue
  rw [portOf_updPort]
  simp

/-- A DELETE_QUEUE whose queue has drained is performed (R93). -/
theorem settleDelete_drained {s : State} {p : Port} {q cid : Nat} {k : Queue} (hk : queueOf s p q = some k) (hdel : k.deleting = some cid)
    (hctxs : queueCtxs s p q = []) (hcq : unconsumed k = 0) (hrestart : k.restart = none) (hposted : restartUnposted s p q = false)
    (hready : notReady s = false) :
    settleDelete s p q = performState (dropQueue s p q) cid 1 0 0 none (some (queueImage s p { k with st := .disabled })) := by
  simp [settleDelete, hk, hdel, hctxs, hcq, hrestart, hposted, hready]

/-! ## The commands -/

section Commands

variable {s : State} {cid : Nat} {c : Ctx}

/-- The queue that CREATE_QUEUE asks for (Table 4-8). -/
def askedQueue (dw : List Word) : Queue :=
  let w := eCdw dw
  newQueue (bits (w 0) 13 0) (eLba dw) (eExtAddr dw) (bits (w 0) 28 16) (bits (w 1) 12 0) (bits (w 1) 26 16) (bits (w 1) 28 27)
    (bits (w 2) 7 0) (bits (w 2) 23 8)

/-- A queue created, the ERROR log entries of its number cleared (R133). -/
def created (s : State) (p : Port) (k : Queue) : State :=
  updPort (addQueue s p k) p (fun x => { x with errLog := x.errLog.filter (fun e => e.1 != k.qid) })

theorem queueOf_created (s : State) (p : Port) (k : Queue) : queueOf (created s p k) p k.qid = some k := by
  rw [← queueOf_addQueue s p k]
  exact queueOf_congr (by rw [created, portOf_updPort]) k.qid

theorem ctxs_created (s : State) (p : Port) (k : Queue) : (created s p k).ctxs = s.ctxs := (updPort_ctxs ..).trans (updPort_ctxs ..)

theorem exec_createQueue (hin : ctxIn s cid 0x84 = some c) (hready : readyFor s c = true) (hlog : (portOf s c.port).resumptionPending = false)
    (hnone : queueOf s c.port (bits (eCdw c.dw 0) 13 0) = none) :
    ∃ del t, t = created s c.port { askedQueue c.dw with deleting := del } ∧
      exec (.createQueue cid) s =
        .next (performState t cid 1 (w32 (bits (eCdw c.dw 0) 13 0)) 0 none (some (queueImage t c.port (askedQueue c.dw)))) := by
  have hexec : exec (.createQueue cid) s = execCreateQueue cid s := rfl
  refine ⟨(newestOf ((queueCommands s c.port (bits (eCdw c.dw 0) 13 0)).filter (fun x => eOpcode x.dw == 0x85))).map (·.cid), _, rfl, ?_⟩
  simp only [hexec, execCreateQueue, hin, hready, hlog, hnone, Bool.not_true, Bool.or_self, Bool.false_eq_true, ↓reduceIte]
  rfl

theorem exec_deleteQueue (hin : ctxIn s cid 0x85 = some c) (hready : readyFor s c = true) {k : Queue}
    (hk : queueOf s c.port (bits (eCdw c.dw 0) 13 0) = some k) :
    exec (.deleteQueue cid) s = .next (settleDelete s c.port (bits (eCdw c.dw 0) 13 0)) := by
  have hexec : exec (.deleteQueue cid) s = execDeleteQueue cid s := rfl
  simp [hexec, execDeleteQueue, hin, hready, hk]

/-- A DELETE_QUEUE that is ready finds the part out of NOT_READY (R120). -/
theorem notReady_of_deleteReady (hin : ctxIn s cid 0x85 = some c) (hready : readyFor s c = true) : notReady s = false := by
  simpa [readyFor, eOpcode_of_ctxIn hin] using hready

theorem exec_restartQueue (hin : ctxIn s cid 0x86 = some c) (hready : readyFor s c = true) {k : Queue} {r : Restart}
    (hk : queueOf s c.port (bits (eCdw c.dw 0) 13 0) = some k) (hr : k.restart = some r) (hcid : r.cid = some cid) :
    exec (.restartQueue cid) s = .next (updQueue s c.port (bits (eCdw c.dw 0) 13 0) (fun k => { k with st := .restarting })) := by
  have hexec : exec (.restartQueue cid) s = execRestartQueue cid s := rfl
  simp [hexec, execRestartQueue, hin, hready, hk, hr, hcid]

/-- A port whose RESUMPTION log its host has acknowledged. -/
def acknowledged (x : PortSt) : PortSt :=
  { x with resumptionPending := false, res := { x.res with queues := [], cmds := [], interruptions := 0, unclean := false } }

theorem exec_ackResumption_match (hin : ctxIn s cid 0x87 = some c) (hcomplete : (portOf s c.port).res.complete = true)
    (hgen : eCdw c.dw 0 + 2 ^ 32 * eCdw c.dw 1 = (portOf s c.port).res.generation) :
    exec (.ackResumption cid) s = .next (performState (updPort s c.port acknowledged) cid 4 0 0 none none (some c.port)) := by
  have hexec : exec (.ackResumption cid) s = execAckResumption cid s := rfl
  simp only [hexec, execAckResumption, hin, hcomplete, hgen, Bool.not_true, Bool.false_eq_true, beq_self_eq_true, ↓reduceIte]
  rfl

theorem exec_ackResumption_other (hin : ctxIn s cid 0x87 = some c) (hcomplete : (portOf s c.port).res.complete = true)
    (hgen : eCdw c.dw 0 + 2 ^ 32 * eCdw c.dw 1 ≠ (portOf s c.port).res.generation) :
    exec (.ackResumption cid) s = .next (performState s cid 4 1 0) := by
  have hexec : exec (.ackResumption cid) s = execAckResumption cid s := rfl
  simp only [hexec, execAckResumption, hin, hcomplete, beq_eq_false_iff_ne.mpr hgen, Bool.not_true, Bool.false_eq_true, ↓reduceIte]

end Commands

/-- Settles O19: by the queue commands, each where its conditions hold. -/
theorem queueCommandsAct : Obligations.QueueCommandsAct := by
  unfold Obligations.QueueCommandsAct
  intro s cid c
  refine ⟨fun hin hready hlog hnone => ?create, fun k hin hready hk hdel hctxs hcq hrestart hposted => ?delete, fun k r hin hready hk hr hcid => ?restart,
    fun hin hcomplete => ?acknowledge⟩
  case create =>
    obtain ⟨del, t, ht, hexec⟩ := exec_createQueue hin hready hlog hnone
    have hctx : ctxOf t cid = some c := (ctxOf_congr (ht ▸ ctxs_created ..) cid).trans (ctxOf_of_ctxIn hin)
    have hqueue : queueOf t c.port (bits (eCdw c.dw 0) 13 0) = some { askedQueue c.dw with deleting := del } :=
      ht ▸ queueOf_created s c.port { askedQueue c.dw with deleting := del }
    exact ⟨_, _, hexec, (queueOf_performState ..).trans hqueue, rfl, rfl, rfl, rfl, rfl, rfl, endedWith_performState hctx ..⟩
  case delete =>
    have hdrained := settleDelete_drained hk hdel hctxs hcq hrestart hposted (notReady_of_deleteReady hin hready)
    have hctx : ctxOf (dropQueue s c.port (bits (eCdw c.dw 0) 13 0)) cid = some c := (ctxOf_congr (updPort_ctxs ..) cid).trans (ctxOf_of_ctxIn hin)
    refine ⟨_, exec_deleteQueue hin hready hk, ?_, ?_⟩
    · rw [hdrained, queueOf_performState, queueOf_dropQueue]
    · rw [hdrained]
      exact endedWith_performState hctx ..
  case restart => exact ⟨_, _, exec_restartQueue hin hready hk hr hcid, queueOf_updQueue hk (fun _ h => h), rfl, rfl⟩
  case acknowledge =>
    by_cases hgen : eCdw c.dw 0 + 2 ^ 32 * eCdw c.dw 1 = (portOf s c.port).res.generation
    · have hctx : ctxOf (updPort s c.port acknowledged) cid = some c := (ctxOf_congr (updPort_ctxs ..) cid).trans (ctxOf_of_ctxIn hin)
      refine ⟨_, exec_ackResumption_match hin hcomplete hgen, fun _ => ⟨endedWith_performState hctx .., ?_⟩, fun h => absurd hgen h⟩
      rw [portOf_performState, portOf_updPort]
      exact ⟨rfl, rfl⟩
    · exact ⟨_, exec_ackResumption_other hin hcomplete hgen, fun h => absurd h hgen,
        fun _ => ⟨endedWith_performState (ctxOf_of_ctxIn hin) .., portOf_performState ..⟩⟩

end Sys2Proof.Proofs
end

section
/-! PROOFS. Held writes (R106, R159, R161, R218): the slot that a staged unit takes stays its slot while the later ones take theirs, and a write whose data
failed ends. -/
namespace Sys2Proof.Proofs
open Sys2Proof Sys2Proof.Machine Sys2Proof.Laws

/-! ## A unit with its slot -/

/-- A held command, still in a stage, holds a staged unit with a slot. -/
def HasSlot (t : State) (cid : Nat) (stage : Stage) (lba : Nat) (m : Madr) : Prop :=
  ∃ d x, ctxOf t cid = some d ∧ d.held = true ∧ d.stage = stage ∧ x ∈ d.staged ∧ x.lba = lba ∧ x.slot = some m

section HasSlot

variable {s t : State} {cid : Nat} {stage : Stage} {lba : Nat} {m : Madr}

theorem HasSlot.of_ctxs (h : HasSlot s cid stage lba m) (hctxs : t.ctxs = s.ctxs) : HasSlot t cid stage lba m := by
  simpa only [HasSlot, ctxOf_congr hctxs] using h

/-- A slot given to a unit of another LBA leaves it. -/
theorem HasSlot.giveSlot_other (h : HasSlot s cid stage lba m) {n : Nat} (hne : n ≠ lba) (m' : Madr) : HasSlot (giveSlot s cid n m') cid stage lba m := by
  obtain ⟨d, x, hd, hheld, hstage, hx, hlba, hslot⟩ := h
  refine ⟨_, x, ctxOf_updCtx hd (fun _ h => h), hheld, hstage, List.mem_map.mpr ⟨x, hx, ?_⟩, hlba, hslot⟩
  simp [hlba, hne.symm]

/-- The unit to which a slot is given has it. -/
theorem hasSlot_giveSlot {d : Ctx} (hd : ctxOf s cid = some d) (hheld : d.held = true) {u : StagedUnit} (hu : u ∈ d.staged) (m : Madr) :
    HasSlot (giveSlot s cid u.lba m) cid d.stage u.lba m :=
  ⟨_, { u with slot := some m }, ctxOf_updCtx hd (fun _ h => h), hheld, rfl, List.mem_map.mpr ⟨u, hu, by simp⟩, rfl, rfl⟩

end HasSlot

theorem ctxs_placeSlot {s t : State} {stream : Stream} {kind who : Nat} {x : SlotRec} {m : Madr} (h : placeSlot s stream kind who x = some (t, m)) :
    t.ctxs = s.ctxs := ctxs_of_rest (rest_placeSlot (L := but .ctxs) rfl s stream kind who x (t, m) h) rfl

/-- The state in which a unit takes its slot: an extent that begins gets its room first (R217). -/
def roomFor (s : State) (stream : Stream) (lba : Nat) : State := if stream == .hostCoarse && lba % 256 == 0 then makeRoom s stream else s

theorem ctxs_roomFor (s : State) (stream : Stream) (lba : Nat) : (roomFor s stream lba).ctxs = s.ctxs := by
  unfold roomFor
  split
  · exact ctxs_of_rest (rest_makeRoom (L := but .ctxs) rfl s stream) rfl
  · rfl

/-- What a unit of a command asks of its stream. -/
def placeUnit (s : State) (c : Ctx) (u : StagedUnit) : Option (State × Madr) :=
  placeSlot (roomFor s (unitStream s c u) u.lba) (unitStream s c u) (if unitStream s c u == .hostCoarse then 2 else 1) 2
    { n := 0, ns := u.ns, lba := u.lba, csn := c.csn, count := eCount c.dw, block := u.block }

theorem ctxs_placeUnit {s t : State} {c : Ctx} {u : StagedUnit} {m : Madr} (h : placeUnit s c u = some (t, m)) : t.ctxs = s.ctxs :=
  (ctxs_placeSlot h).trans (ctxs_roomFor ..)

/-! ## Units assigned one after the other (R218) -/

theorem assignUnits_skip {s : State} {c : Ctx} {u : StagedUnit} (h : needsSlot s u = false) (us : List StagedUnit) :
    assignUnits s c (u :: us) = assignUnits s c us := by
  rw [assignUnits]
  simp [h]

theorem assignUnits_place {s t : State} {c : Ctx} {u : StagedUnit} {m : Madr} (h : needsSlot s u = true) (hp : placeUnit s c u = some (t, m))
    (us : List StagedUnit) : assignUnits s c (u :: us) = assignUnits (giveSlot t c.cid u.lba m) c us := by
  unfold placeUnit roomFor at hp
  rw [assignUnits]
  simp only [h, hp, Bool.not_true, Bool.false_eq_true, ↓reduceIte]

theorem assignUnits_wait {s : State} {c : Ctx} {u : StagedUnit} (h : needsSlot s u = true) (hp : placeUnit s c u = none) (us : List StagedUnit) :
    assignUnits s c (u :: us) = roomFor s (unitStream s c u) u.lba := by
  unfold placeUnit roomFor at hp
  rw [assignUnits]
  simp only [h, hp, Bool.not_true, Bool.false_eq_true, ↓reduceIte]
  rfl

/-- Units of other LBAs take their slots beside a unit that has its own. -/
theorem HasSlot.assignUnits {cid : Nat} {stage : Stage} {lba : Nat} {m : Madr} {c : Ctx} (hcid : c.cid = cid) (us : List StagedUnit) :
    (∀ x ∈ us, x.lba ≠ lba) → ∀ {s : State}, HasSlot s cid stage lba m → HasSlot (assignUnits s c us) cid stage lba m := by
  induction us with
  | nil => exact fun _ _ h => h
  | cons u us ih =>
    intro hother s h
    obtain ⟨hne, hother⟩ := List.forall_mem_cons.mp hother
    cases hneeds : needsSlot s u with
    | false => exact assignUnits_skip hneeds us ▸ ih hother h
    | true =>
      cases hp : placeUnit s c u with
      | none => exact assignUnits_wait hneeds hp us ▸ h.of_ctxs (ctxs_roomFor ..)
      | some tm =>
        rw [assignUnits_place hneeds hp us, hcid]
        exact ih hother ((h.of_ctxs (ctxs_placeUnit hp)).giveSlot_other hne _)

/-- The first unit of a command's staged ones takes a slot that its stream gives, and no other has its LBA. -/
def TakesSlot (s : State) (c : Ctx) (u : StagedUnit) (rest : List StagedUnit) (m : Madr) : Prop :=
  needsSlot s u = true ∧ (∀ x ∈ rest, x.lba ≠ u.lba) ∧ (placeUnit s c u).map (·.2) = some m

/-- The first staged unit of a held command has its slot once the command's units are assigned. -/
theorem hasSlot_assignUnits {s : State} {cid : Nat} {c d : Ctx} {u : StagedUnit} {rest : List StagedUnit} {m : Madr} (hcid : c.cid = cid)
    (hd : ctxOf s cid = some d) (hheld : d.held = true) (hu : u ∈ d.staged) (h : TakesSlot s c u rest m) :
    HasSlot (settleFull (assignUnits s c (u :: rest))) cid d.stage u.lba m := by
  obtain ⟨hneeds, hother, hmap⟩ := h
  obtain ⟨⟨t, m'⟩, hp, rfl⟩ := Option.map_eq_some_iff.mp hmap
  have hgiven : HasSlot (giveSlot t cid u.lba m') cid d.stage u.lba m' :=
    hasSlot_giveSlot ((ctxOf_congr (ctxs_placeUnit hp) cid).trans hd) hheld hu m'
  rw [assignUnits_place hneeds hp, hcid]
  exact (hgiven.assignUnits hcid rest hother).of_ctxs (settleFull_ctxs _)

/-! ## The commands -/

section Commands

variable {s : State} {cid cyc : Nat} {c : Ctx}

theorem exec_fill (hin : ctxIn s cid 0x0A = some c) (hheld : c.held = true) : exec (.fill cid) s = .next (settleFull (assignUnits s c c.staged)) := by
  have hexec : exec (.fill cid) s = execFill cid s := rfl
  simp [hexec, execFill, hin, hheld]

/-- A COPY with its destination blocks staged and held (R161). -/
def copyHeld (us : List StagedUnit) (c : Ctx) : Ctx := { c with staged := us, held := true }

theorem exec_copy (hin : ctxIn s cid 0x0C = some c) (hheld : c.held = false) (hkept : c.staged.any (·.lost) = false) (hall : c.units.all unitResolved = true)
    (hread : readVerdict s c = none) {us : List StagedUnit} (hunits : copyUnits s c = us) :
    exec (.copy cid) s = .next (settleFull (assignUnits (updCtx s cid (copyHeld us)) (copyHeld us c) us)) := by
  have hexec : exec (.copy cid) s = execCopy cid s := rfl
  simp only [hexec, execCopy, hin, hheld, hkept, hall, hread, hunits, Bool.false_and, Bool.not_true, Bool.or_self, Bool.false_eq_true, ↓reduceIte]
  rfl

variable (hcyc : cyc ≤ s.now) (hc : ctxOf s cid = some c) (hpending : pendingWrite c = true) (hstatus : c.status = 0) (hop : eOpcode c.dw ≠ 0x08)
  (hstands : admissionStands s c = true) (hstop : s.jrnl.stopFrom = none)
include hcyc hc hpending hstatus hop hstands hstop

theorem exec_writeHeld (hgood : c.fetchFail = none) (hlen : c.staged.length = eCount c.dw) (hkept : c.staged.any (·.lost) = false) :
    exec (.writeHeld cid cyc) s = .next (settleFull (assignUnits (updCtx s cid (fun c => { c with held := true })) c c.staged)) := by
  have hexec : exec (.writeHeld cid cyc) s = execWriteHeld cid cyc s := rfl
  simp [hexec, execWriteHeld, advanceTo_past hcyc, hc, hpending, hstatus, hop, hstands, hstop, hgood, hlen, hkept]

theorem exec_writeHeld_failed {st : Half} {lba off d0 d1 : Nat} (hfail : c.fetchFail = some (st, lba, off, d0, d1)) :
    exec (.writeHeld cid cyc) s =
      .next (settleFull (updCtx (decide_ s cid { status := st, origin := 4, lba := lba, byteOffset := off, detail0 := d0, detail1 := d1 }) cid
        (fun c => { c with promised := 0, staged := [] }))) := by
  have hexec : exec (.writeHeld cid cyc) s = execWriteHeld cid cyc s := rfl
  simp [hexec, execWriteHeld, advanceTo_past hcyc, hc, hpending, hstatus, hop, hstands, hstop, hfail]

end Commands

/-- The status decided for a command stands in its context (R122). -/
theorem ctxOf_decide {s : State} {cid : Nat} {c : Ctx} (v : Verdict) (hc : ctxOf s cid = some c) :
    ∃ e, ctxOf (decide_ s cid v) cid = some e ∧ e.status = v.status := by
  simp only [decide_, hc]
  split
  · exact ⟨_, ctxOf_updCtx hc (fun _ h => h), rfl⟩
  · exact ⟨_, (ctxOf_congr ((logError_ctxs ..).trans (freezeDecided_ctxs ..)) cid).trans (ctxOf_updCtx hc (fun _ h => h)), rfl⟩

/-- Settles O23: by what each command stages, and by the slot of the first unit staged. -/
theorem heldWritesTakeSlots : Obligations.HeldWritesTakeSlots := by
  unfold Obligations.HeldWritesTakeSlots
  intro s cid cyc c m hcyc
  refine ⟨fun u rest hin hheld hstaged htakes => ?fill,
    fun u rest hc hpending hstatus hop hstands hstop hgood hstaged hkept hlen htakes => ?writeHeld,
    fun u rest hin hheld hkept hall hread hunits htakes => ?copy,
    fun st lba off d0 d1 hc hpending hstatus hop hstands hstop hfail => ?failed⟩
  case fill =>
    have hc := ctxOf_of_ctxIn hin
    refine ⟨_, exec_fill hin hheld, ?_⟩
    rw [hstaged]
    exact hasSlot_assignUnits (cid_of_ctxOf hc) hc hheld (by simp [hstaged]) htakes
  case writeHeld =>
    refine ⟨_, exec_writeHeld hcyc hc hpending hstatus hop hstands hstop hgood hlen hkept, ?_⟩
    rw [hstaged]
    exact hasSlot_assignUnits (d := { c with held := true }) (cid_of_ctxOf hc) (ctxOf_updCtx hc (fun _ h => h)) rfl (by simp [hstaged]) htakes
  case copy =>
    have hc := ctxOf_of_ctxIn hin
    have hcid : (copyHeld (u :: rest) c).cid = cid := (cid_of_ctxOf hc : c.cid = cid)
    exact ⟨_, exec_copy hin hheld hkept hall hread hunits,
      hasSlot_assignUnits (d := copyHeld (u :: rest) c) hcid (ctxOf_updCtx hc (f := copyHeld (u :: rest)) (fun _ h => h)) rfl (List.mem_cons_self ..) htakes⟩
  case failed =>
    obtain ⟨e, he, hest⟩ := ctxOf_decide { status := st, origin := 4, lba := lba, byteOffset := off, detail0 := d0, detail1 := d1 } hc
    refine ⟨_, exec_writeHeld_failed hcyc hc hpending hstatus hop hstands hstop hfail,
      ⟨_, (ctxOf_congr (settleFull_ctxs _) cid).trans (ctxOf_updCtx he (fun _ h => h)), hest, rfl, rfl⟩, ?_⟩
    rw [map_of_rest (rest_settleFull (L := but .map) rfl _) rfl]
    exact map_of_rest (rest_decide_ (L := but .map) rfl ..) rfl

/-! ## Updates asked for (R106, R160, R226) -/

/-- A command's update asked of the map entry arbiter. -/
def askCommit (s : State) (cid : Nat) (c : Ctx) : State := updCtx (askMap s (writeReq s c)) cid (fun c => { c with mapAsked := true })

theorem exec_deallocate {s : State} {cid : Nat} {c : Ctx} (hin : ctxIn s cid 0x08 = some c) (hmay : mayCommit s c = true) :
    exec (.deallocate cid) s = .next (askCommit s cid c) := by
  have hexec : exec (.deallocate cid) s = execDeallocate cid s := rfl
  simp only [hexec, execDeallocate, hin, hmay, ↓reduceIte]
  rfl

theorem exec_writeCommit {s : State} {cid : Nat} {c : Ctx} (hc : ctxOf s cid = some c) (hmay : mayCommit s c = true) (hstop : s.jrnl.stopFrom = none)
    (hcopy : eOpcode c.dw = 0x0C → mirroring s = true → c.awaitAck.isSome = true) (hack : c.awaitAck.all (acked s) = true) :
    exec (.writeCommit cid) s = .next (askCommit s cid c) := by
  have hexec : exec (.writeCommit cid) s = execWriteCommit cid s := rfl
  have hsent : (eOpcode c.dw == 0x0C && mirroring s && c.awaitAck.isNone) = false := by
    refine Bool.eq_false_iff.mpr (fun h => ?_)
    simp only [Bool.and_eq_true, beq_iff_eq] at h
    obtain ⟨⟨hop, hmir⟩, hnone⟩ := h
    have hsome := hcopy hop hmir
    simp [Option.isNone_iff_eq_none.mp hnone] at hsome
  simp only [hexec, execWriteCommit, hc, hmay, hstop, hsent, hack, Option.isSome_none, Bool.not_true, Bool.or_self, Bool.false_eq_true, ↓reduceIte]
  rfl

/-- Settles O24: both commands ask once, and the map waits for the grant. -/
theorem commitsAskForTheirUpdate : Obligations.CommitsAskForTheirUpdate := by
  unfold Obligations.CommitsAskForTheirUpdate
  intro s cid c hmay
  have hasked : ∀ hc : ctxOf s cid = some c, (askCommit s cid c).eng.reqs = s.eng.reqs ++ [writeReq s c] ∧
      ctxOf (askCommit s cid c) cid = some { c with mapAsked := true } ∧ (askCommit s cid c).map = s.map :=
    fun hc => ⟨rfl, ctxOf_updCtx hc (fun _ h => h), rfl⟩
  exact ⟨fun hin => ⟨_, exec_deallocate hin hmay, hasked (ctxOf_of_ctxIn hin)⟩,
    fun hc hstop hcopy hack => ⟨_, exec_writeCommit hc hmay hstop hcopy hack, hasked hc⟩⟩

end Sys2Proof.Proofs
end

section
/-! PROOFS. Lookups and writebacks (R107, R203, R209): a unit served from a held write or resolved through the map with its pin, a dirty tile written back,
and a tile that only the medium holds pinned for its read. -/
namespace Sys2Proof.Proofs
open Sys2Proof Sys2Proof.Machine Sys2Proof.Laws

/-! ## A unit's state in its command -/

/-- A unit of a command stands in a state. -/
def UnitIs (t : State) (cid ns lba : Nat) (st : UnitSt) : Prop := ∃ d x, ctxOf t cid = some d ∧ x ∈ d.units ∧ x.ns = ns ∧ x.lba = lba ∧ x.st = st

section UnitIs

variable {s t : State} {cid ns lba : Nat} {st : UnitSt}

/-- Contexts that keep their numbers and units keep the states of the units. -/
theorem UnitIs.updCtx (h : UnitIs s cid ns lba st) (n : Nat) {f : Ctx → Ctx} (hcid : ∀ c, (f c).cid = c.cid) (hunits : ∀ c, (f c).units = c.units) :
    UnitIs (updCtx s n f) cid ns lba st := by
  obtain ⟨d, x, hd, hx, hat⟩ := h
  have hmap : ctxOf (Machine.updCtx s n f) cid = some (if d.cid == n then f d else d) := by
    rw [ctxOf_updCtx_map _ _ _ hcid, hd]
    rfl
  refine ⟨_, x, hmap, ?_, hat⟩
  split
  · rwa [hunits]
  · exact hx

theorem UnitIs.noteSource (h : UnitIs s cid ns lba st) (n m src : Nat) : UnitIs (noteSource s n m src) cid ns lba st :=
  h.updCtx n (fun c => by split <;> rfl) (fun c => by split <;> rfl)

theorem unitIs_setUnitSt {c : Ctx} (hc : ctxOf s cid = some c) {u : UnitRead} (hu : u ∈ c.units) (st : UnitSt) :
    UnitIs (setUnitSt s cid u.ns u.lba st) cid u.ns u.lba st :=
  ⟨_, { u with st := st }, ctxOf_updCtx hc (fun _ h => h), List.mem_map.mpr ⟨u, hu, by simp⟩, rfl, rfl, rfl⟩

end UnitIs

/-! ## Pins (R285) -/

theorem pinned_pinBlock (s : State) (m : Madr) : ∃ p ∈ (pinBlock s m).eng.pins, p.1 = blockOf m ∧ 0 < p.2 := by
  simp only [pinBlock, updEng_eng]
  split
  · rename_i hany
    obtain ⟨p, hp, hblock⟩ := List.any_eq_true.mp hany
    exact ⟨(blockOf m, p.2 + 1), List.mem_map.mpr ⟨p, hp, by simp [hblock]⟩, rfl, Nat.succ_pos _⟩
  · exact ⟨(blockOf m, 1), by simp, rfl, Nat.one_pos⟩

/-! ## A unit looked up (R209) -/

section Lookup

variable {s : State} {c : Ctx} {ns lba src : Nat} {image : List Byte} (hr : (lookupPath s ns (lba / 256) (lba % 256) image).2 = some src)
include hr

theorem lookupUnit_unwritten (hat : unitAt s.map ns lba = .unwritten) :
    lookupUnit s c ns lba image = noteSource (setUnitSt (lookupPath s ns (lba / 256) (lba % 256) image).1 c.cid ns lba .unwritten) c.cid lba 1 := by
  simp only [lookupUnit, hat, hr, Bool.not_true, Bool.false_eq_true, ↓reduceIte]

theorem lookupUnit_lost (hat : unitAt s.map ns lba = .lost) :
    lookupUnit s c ns lba image = noteSource (setUnitSt (lookupPath s ns (lba / 256) (lba % 256) image).1 c.cid ns lba .lost) c.cid lba 7 := by
  simp only [lookupUnit, hat, hr, Bool.not_true, Bool.false_eq_true, ↓reduceIte]

theorem lookupUnit_medium {m : Madr} (hat : unitAt s.map ns lba = .at_ m) (hroom : pinRoom s m = true) :
    lookupUnit s c ns lba image =
      updCtx (noteSource (setUnitSt (pinBlock (lookupPath s ns (lba / 256) (lba % 256) image).1 m) c.cid ns lba (.medium m)) c.cid lba src) c.cid
        (fun c => { c with pMadr := c.pMadr.or (some m) }) := by
  simp only [lookupUnit, hat, hr, hroom, Bool.not_true, Bool.false_eq_true, ↓reduceIte]

end Lookup

theorem ctxs_lookupPath (s : State) (ns seg u : Nat) (image : List Byte) : (lookupPath s ns seg u image).1.ctxs = s.ctxs :=
  ctxs_of_rest (rest_lookupPath (L := but .ctxs) rfl s ns seg u image) rfl

theorem map_lookupPath (s : State) (ns seg u : Nat) (image : List Byte) : (lookupPath s ns seg u image).1.map = s.map :=
  map_of_rest (rest_lookupPath (L := but .map) rfl s ns seg u image) rfl

/-! ## The lookup of a command's unit (R107) -/

section CommandLookup

variable {s : State} {cid : Nat} {c : Ctx} {u : UnitRead} (hc : ctxOf s cid = some c) (hst : c.stage = .admitted)
  (hu : c.units.find? (fun x => x.lba == u.lba && x.st == .waiting) = some u)
include hc hst hu

theorem exec_mapLookup_served {g : Ctx} (image : List Byte) (hg : governing s c.csn u.ns u.lba = some g) (hheld : g.held = true)
    (hkept : servedLost g u.ns u.lba = false) :
    exec (.mapLookup (.command cid u.lba) image) s =
      .next (noteSource (setUnitSt s cid u.ns u.lba (servedBy g u.ns u.lba)) cid u.lba 0) := by
  have hexec : exec (.mapLookup (.command cid u.lba) image) s = execMapLookup (.command cid u.lba) image s := rfl
  simp [hexec, execMapLookup, hc, hu, hst, hg, hheld, hkept]

theorem exec_mapLookup_resolved (image : List Byte) (hg : governing s c.csn u.ns u.lba = none) :
    exec (.mapLookup (.command cid u.lba) image) s = .next (lookupUnit s c u.ns u.lba image) := by
  have hexec : exec (.mapLookup (.command cid u.lba) image) s = execMapLookup (.command cid u.lba) image s := rfl
  simp [hexec, execMapLookup, hc, hu, hst, hg]

end CommandLookup

/-- What a lookup through the map makes of a unit (R209): unwritten, lost, or pinned on the medium. -/
theorem lookupUnit_resolves {s : State} {cid : Nat} {c : Ctx} (hc : ctxOf s cid = some c) {u : UnitRead} (hu : u ∈ c.units) {image : List Byte}
    (hr : (lookupPath s u.ns (u.lba / 256) (u.lba % 256) image).2.isSome = true) :
    (unitAt s.map u.ns u.lba = .unwritten → UnitIs (lookupUnit s c u.ns u.lba image) cid u.ns u.lba .unwritten) ∧
    (unitAt s.map u.ns u.lba = .lost → UnitIs (lookupUnit s c u.ns u.lba image) cid u.ns u.lba .lost) ∧
    ∀ m, unitAt s.map u.ns u.lba = .at_ m → pinRoom s m = true → UnitIs (lookupUnit s c u.ns u.lba image) cid u.ns u.lba (.medium m) ∧
      ∃ p ∈ (lookupUnit s c u.ns u.lba image).eng.pins, p.1 = blockOf m ∧ 0 < p.2 := by
  obtain ⟨src, hsrc⟩ := Option.isSome_iff_exists.mp hr
  obtain rfl := cid_of_ctxOf hc
  have hlater : ctxOf (lookupPath s u.ns (u.lba / 256) (u.lba % 256) image).1 c.cid = some c := (ctxOf_congr (ctxs_lookupPath ..) c.cid).trans hc
  refine ⟨fun hat => ?unwritten, fun hat => ?lost, fun m hat hroom => ?medium⟩
  case unwritten => exact lookupUnit_unwritten hsrc hat ▸ (unitIs_setUnitSt hlater hu _).noteSource ..
  case lost => exact lookupUnit_lost hsrc hat ▸ (unitIs_setUnitSt hlater hu _).noteSource ..
  case medium =>
    rw [lookupUnit_medium hsrc hat hroom]
    have hpinned : ctxOf (pinBlock (lookupPath s u.ns (u.lba / 256) (u.lba % 256) image).1 m) c.cid = some c := hlater
    exact ⟨((unitIs_setUnitSt hpinned hu _).noteSource ..).updCtx _ (fun _ => rfl) (fun _ => rfl), pinned_pinBlock _ m⟩

/-! ## A tile that only the medium holds (R203, R209) -/

theorem tierRoom_congr {s t : State} (h : t.eng = s.eng) (ns seg : Nat) : tierRoom t ns seg = tierRoom s ns seg := by unfold tierRoom; rw [h]

theorem pinRoom_congr {s t : State} (h : t.eng = s.eng) (m : Madr) : pinRoom t m = pinRoom s m := by unfold pinRoom; rw [h]

theorem makeWay_of_room {s : State} {ns seg : Nat} (h : tierRoom s ns seg = true) : makeWay s ns seg = s := if_pos h

/-- A tile wanted from the medium is among the pinned reads, where the pin table has room. -/
theorem mem_tileReads_wantTile {s : State} {home : Madr} (hroom : pinRoom s home = true) (ns seg : Nat) :
    (ns, seg, home) ∈ (wantTile s ns seg home).eng.tileReads := by
  unfold wantTile
  split
  · rename_i hwanted
    simpa [hroom] using hwanted
  · simp

/-- The two counts of a tile's miss leave the tables of the engine. -/
theorem eng_countMiss (s : State) : (countEvent (countEvent s 0x05 0 1) 0x06 0 1).eng = s.eng :=
  eng_of_rest ((rest_countEvent (L := but .eng) rfl ..).trans (rest_countEvent rfl ..)) rfl

theorem lookupPath_medium {s : State} {ns seg : Nat} {ti : Tile} {home : Madr} (image : List Byte) (hseg : segOf s.map ns seg = some (.fine ti))
    (hsrc : tileSource s ns seg ti = .medium home) (hwhole : probe s.eng (cacheKey ns seg 0) true = none)
    (hunit : probe s.eng (cacheKey ns seg 0) false = none) (htier : tierRoom s ns seg = true) :
    (lookupPath s ns seg 0 image).1 = wantTile (countEvent (countEvent s 0x05 0 1) 0x06 0 1) ns seg home := by
  have hway := makeWay_of_room ((tierRoom_congr (eng_countMiss s) ns seg).trans htier)
  simp only [lookupPath, hwhole, hunit, hseg, hsrc, Option.or_none, discardTile, ite_self, hway]

/-! ## A tile written back (R203) -/

theorem exec_tileWriteback {s : State} {ns seg : Nat} {ti : Tile} (hseg : segOf s.map ns seg = some (.fine ti)) (hdirty : ti.dirtySince.isSome = true)
    (hasked : segAsked s ns seg = false) (hstop : s.jrnl.stopFrom = none) : exec (.tileWriteback ns seg) s = .next (writeTile s ns seg) := by
  have hexec : exec (.tileWriteback ns seg) s = execTileWriteback ns seg s := rfl
  have hnone : ti.dirtySince.isNone = false := by simpa using hdirty
  simp [hexec, execTileWriteback, hseg, hasked, hstop, hnone]

/-- A tile whose stream gives a slot asks for that slot as its home. -/
theorem reqs_writeTile {s s' : State} {ns seg : Nat} {ti : Tile} {a : Madr} (hseg : segOf s.map ns seg = some (.fine ti))
    (hplace : placeSlot s .map 3 1 ⟨0, ns, seg, 0, 0, some ⟨tileImage ns seg ti, zeros 48, 0, 0, 0⟩⟩ = some (s', a)) :
    (writeTile s ns seg).eng.reqs =
      s.eng.reqs ++ [⟨7, s.now, none, ns, [], some (seg, .inr ti.generation, a), s.jrnl.nextSeq - 1⟩] := by
  have heng : s'.eng = s.eng := eng_of_rest (rest_placeSlot (L := but .eng) rfl _ _ _ _ _ _ hplace) rfl
  unfold writeTile
  simp only [hseg, hplace, askMap, updEng_eng]
  split <;> simp [putPage, heng]

/-- Settles O26: by who serves a unit, by the slot of a tile, and by where a tile is. -/
theorem lookupsResolveAndTilesAreWrittenBack : Obligations.LookupsResolveAndTilesAreWrittenBack := by
  unfold Obligations.LookupsResolveAndTilesAreWrittenBack
  intro s
  refine ⟨fun cid lba image c u hc hst hu => ?lookup, fun ns seg ti s' a hseg hdirty hasked hstop hplace => ?writeback,
    fun ns seg ti home image hseg hsrc hwhole hunit htier hroom => ?tile⟩
  case lookup =>
    have hmem := List.mem_of_find?_eq_some hu
    obtain ⟨rfl, -⟩ : u.lba = lba ∧ u.st = .waiting := by simpa using List.find?_some hu
    refine ⟨fun g hg hheld hkept => ?served, fun hg hr => ?resolved⟩
    case served =>
      exact ⟨_, exec_mapLookup_served hc hst hu image hg hheld hkept, (unitIs_setUnitSt hc hmem _).noteSource .., rfl⟩
    case resolved =>
      obtain ⟨hunwritten, hlost, hmedium⟩ := lookupUnit_resolves hc hmem hr
      exact ⟨_, exec_mapLookup_resolved hc hst hu image hg, map_of_rest (rest_lookupUnit (L := but .map) rfl ..) rfl, hunwritten, hlost, hmedium⟩
  case writeback =>
    exact ⟨_, exec_tileWriteback hseg hdirty hasked hstop, map_of_rest (rest_writeTile (L := but .map) rfl ..) rfl, reqs_writeTile hseg hplace⟩
  case tile =>
    refine ⟨(lookupPath s ns seg 0 image).1, rfl, map_lookupPath .., ?_⟩
    rw [lookupPath_medium image hseg hsrc hwhole hunit htier]
    exact mem_tileReads_wantTile ((pinRoom_congr (eng_countMiss s) home).trans hroom) ns seg

end Sys2Proof.Proofs
end

section
/-! PROOFS. A queue's restart ends (R135, R136): the queue ACTIVE again at the index that its option gives, or FROZEN again, and the fetched entries that the
option leaves. -/
namespace Sys2Proof.Proofs
open Sys2Proof Sys2Proof.Machine Sys2Proof.Laws

/-! ## Contexts of a queue -/

theorem queueCtxs_congr {s t : State} (h : t.ctxs = s.ctxs) (p : Port) (q : Nat) : queueCtxs t p q = queueCtxs s p q := by
  unfold queueCtxs; rw [h]

theorem fetchedCtxs_of_queueCtxs {s t : State} {p : Port} {q : Nat} (h : queueCtxs t p q = queueCtxs s p q) : fetchedCtxs t p q = fetchedCtxs s p q := by
  unfold fetchedCtxs; rw [h]

/-- A change of contexts that are not the queue's own leaves those that are. -/
theorem queueCtxs_updCtx_other {s : State} {p : Port} {q n : Nat} {f : Ctx → Ctx} (hf : ∀ c, (f c).port = c.port ∧ (f c).queue = c.queue)
    (hother : ∀ d ∈ queueCtxs s p q, d.cid ≠ n) : queueCtxs (updCtx s n f) p q = queueCtxs s p q := by
  have hkey : (fun c : Ctx => c.port == p && c.queue == q) ∘ (fun c => if c.cid == n then f c else c) = fun c => c.port == p && c.queue == q := by
    funext c
    by_cases hc : c.cid = n <;> simp [hc, hf]
  unfold queueCtxs updCtx
  rw [List.filter_map, hkey]
  exact (List.map_congr_left (fun d hd => if_neg (by simpa using hother d hd))).trans (List.map_id _)

theorem queueCtxs_perform_other {s : State} {p : Port} {q cid : Nat} (hother : ∀ d ∈ queueCtxs s p q, d.cid ≠ cid) (r0 r1 : Word) :
    queueCtxs (perform s cid r0 r1) p q = queueCtxs s p q := queueCtxs_updCtx_other (fun _ => ⟨rfl, rfl⟩) hother

/-- A command performed outside the map leaves the contexts of a queue that is not its own. -/
theorem queueCtxs_performState_other {s : State} {p : Port} {q cid : Nat} (hother : ∀ d ∈ queueCtxs s p q, d.cid ≠ cid) (kind : Nat) (r0 r1 : Word)
    (feature : Option (Nat × List Word)) (queue : Option QueueImage) (log : Option Port) :
    queueCtxs (performState s cid kind r0 r1 feature queue log) p q = queueCtxs s p q := by
  unfold performState
  extract_lets csn fseq waits sent
  have hsent : queueCtxs sent p q = queueCtxs s p q := queueCtxs_congr (mirrorFrame_ctxs ..) p q
  have hperf := queueCtxs_perform_other (s := sent) (by rwa [hsent]) r0 r1
  have hkept := hperf.trans hsent
  exact Eq.trans (queueCtxs_updCtx_other (fun _ => ⟨rfl, rfl⟩) (by rwa [hkept])) hkept

theorem mem_queueCtxs_discardFetched {s : State} {p : Port} {q : Nat} {d : Ctx} (h : d ∈ queueCtxs (discardFetched s p q) p q) : d ∈ queueCtxs s p q := by
  obtain ⟨hmem, hkey⟩ := List.mem_filter.mp h
  exact List.mem_filter.mpr ⟨(List.mem_filter.mp hmem).1, hkey⟩

theorem fetchedCtxs_discardFetched (s : State) (p : Port) (q : Nat) : fetchedCtxs (discardFetched s p q) p q = [] := by
  refine List.eq_nil_iff_forall_not_mem.mpr (fun d hd => ?_)
  obtain ⟨hqueue, hst⟩ := List.mem_filter.mp hd
  obtain ⟨hmem, hkey⟩ := List.mem_filter.mp hqueue
  have hkept := (List.mem_filter.mp hmem).2
  simp_all

/-! ## The option applied (R135) -/

/-- A queue that fetches again from an index on. -/
def resumedAt (k : Queue) (head : Nat) (bells : List (Nat × Nat)) : Queue :=
  { k with st := .active, stopped := false, resumeIndex := 0, freezeCq := none, restart := none, sqHead := head, bells := bells }

/-- A queue made ACTIVE again in a state whose queues are those at the end of the restart. -/
theorem queueOf_resumed {s t : State} {p : Port} {k : Queue} (hk : queueOf s p k.qid = some k) (ht : (portOf t p).queues = (portOf s p).queues)
    (head : Nat) (bells : List (Nat × Nat)) :
    queueOf (updQueue t p k.qid (fun j => resumedAt j head bells)) p k.qid = some (resumedAt k head bells) :=
  queueOf_updQueue ((queueOf_congr ht _).trans hk) (fun _ h => h)

/-- Whatever the option, the queue is ACTIVE again and fetches from the index that the restart answers. -/
theorem queueOf_applyRestart {s : State} {p : Port} {k : Queue} (hk : queueOf s p k.qid = some k) (r : Restart) :
    ∃ bells, queueOf (applyRestart s p k r).1 p k.qid = some (resumedAt k (applyRestart s p k r).2.2 bells) := by
  have hdiscard : (portOf (discardFetched s p k.qid) p).queues = (portOf s p).queues := by cases p <;> rfl
  unfold applyRestart
  dsimp only
  split
  · exact ⟨_, queueOf_resumed hk hdiscard _ _⟩
  split
  · exact ⟨_, queueOf_resumed hk hdiscard _ _⟩
  · exact ⟨_, queueOf_resumed hk rfl _ _⟩

/-- CONTINUE: every context stays, and fetching goes on where it stood. -/
theorem applyRestart_continue {r : Restart} (hopt : r.option = 0) (s : State) (p : Port) (k : Queue) :
    (applyRestart s p k r).1.ctxs = s.ctxs ∧ (applyRestart s p k r).2.2 = k.sqHead := by
  simp [applyRestart, hopt, updQueue]

/-- DISCARD_ALL: the fetched entries go, and fetching resumes at the tail that the admission recorded. -/
theorem applyRestart_discardAll {r : Restart} (hopt : r.option = 1) (s : State) (p : Port) (k : Queue) :
    (applyRestart s p k r).1.ctxs = (discardFetched s p k.qid).ctxs ∧ (applyRestart s p k r).2.2 = r.tail := by
  simp [applyRestart, hopt, updQueue]

/-! ## The command's results -/

theorem queueOf_restartResult (s : State) (p : Port) (q : Nat) (cid : Option Nat) (r0 r1 : Nat) : queueOf (restartResult s p q cid r0 r1) p q = queueOf s p q := by
  cases cid with
  | none => rfl
  | some i => exact queueOf_performState ..

theorem queueCtxs_restartResult {s : State} {p : Port} {q : Nat} {cid : Option Nat} (hother : ∀ d ∈ queueCtxs s p q, cid ≠ some d.cid) (r0 r1 : Nat) :
    queueCtxs (restartResult s p q cid r0 r1) p q = queueCtxs s p q := by
  cases cid with
  | none => rfl
  | some i => exact queueCtxs_performState_other (fun d hd heq => hother d hd (heq ▸ rfl)) ..

/-! ## The end of a restart -/

/-- A queue FROZEN again (R136). -/
def refrozen (k : Queue) : Queue := { k with st := .frozen, restart := none }

section Ends

variable {s : State} {p : Port} {q : Nat} {k : Queue} {r : Restart} (hk : queueOf s p q = some k) (hr : k.restart = some r) (hst : k.st = .restarting)
  (hdel : r.deleted = none) (hposted : (queueCtxs s p q).all (fun c => c.stage == .fetched) = true)
include hk hr hst hdel hposted

theorem exec_queueRestartDone_refrozen (hfail : r.refrozen = true) :
    exec (.queueRestartDone p q) s = .next (restartResult (updQueue s p q refrozen) p q r.cid 0 (2 ^ 16 + k.resumeIndex)) := by
  have hexec : exec (.queueRestartDone p q) s = execQueueRestartDone p q s := rfl
  have hnone : (queueCtxs s p q).any (fun c => c.stage != .fetched) = false := by simpa using hposted
  simp only [hexec, execQueueRestartDone, hk, hr, hst, hdel, hnone, hfail, bne_self_eq_false, Bool.or_self, Bool.false_eq_true, ↓reduceIte]
  rfl

theorem exec_queueRestartDone_applied (hgood : r.refrozen = false) :
    exec (.queueRestartDone p q) s =
      .next (restartResult (applyRestart s p k r).1 p q r.cid (applyRestart s p k r).2.1 (applyRestart s p k r).2.2) := by
  have hexec : exec (.queueRestartDone p q) s = execQueueRestartDone p q s := rfl
  have hnone : (queueCtxs s p q).any (fun c => c.stage != .fetched) = false := by simpa using hposted
  simp only [hexec, execQueueRestartDone, hk, hr, hst, hdel, hnone, hgood, bne_self_eq_false, Bool.or_self, Bool.false_eq_true, ↓reduceIte]

end Ends

/-- Settles O20: by whether a failure came after the freeze, and where none came by the option. -/
theorem restartsEnd : Obligations.RestartsEnd := by
  unfold Obligations.RestartsEnd
  intro s p q k r hk hr hst hdel hposted hother
  obtain rfl := qid_of_queueOf hk
  cases hfail : r.refrozen with
  | true =>
    have hqueue : queueOf (updQueue s p k.qid refrozen) p k.qid = some (refrozen k) := queueOf_updQueue hk (fun _ h => h)
    exact ⟨_, refrozen k, exec_queueRestartDone_refrozen hk hr hst hdel hposted hfail, (queueOf_restartResult ..).trans hqueue, rfl,
      fun _ => ⟨rfl, rfl⟩, nofun, nofun, nofun⟩
  | false =>
    obtain ⟨bells, hqueue⟩ := queueOf_applyRestart hk r
    refine ⟨_, _, exec_queueRestartDone_applied hk hr hst hdel hposted hfail, (queueOf_restartResult ..).trans hqueue, rfl, nofun,
      fun _ => ⟨rfl, rfl⟩, fun _ hopt => ?onward, fun _ hopt => ?discardAll⟩
    case onward =>
      obtain ⟨hctxs, hhead⟩ := applyRestart_continue hopt s p k
      have hkept := queueCtxs_congr hctxs p k.qid
      exact ⟨hhead, fetchedCtxs_of_queueCtxs ((queueCtxs_restartResult (by rwa [hkept]) _ _).trans hkept)⟩
    case discardAll =>
      obtain ⟨hctxs, hhead⟩ := applyRestart_discardAll hopt s p k
      have hleft := queueCtxs_congr hctxs p k.qid
      have hresult := queueCtxs_restartResult (cid := r.cid) (fun d hd => hother d (mem_queueCtxs_discardFetched (hleft ▸ hd))) (applyRestart s p k r).2.1
        (applyRestart s p k r).2.2
      exact ⟨hhead, (fetchedCtxs_of_queueCtxs (hresult.trans hleft)).trans (fetchedCtxs_discardFetched ..)⟩

end Sys2Proof.Proofs
end

section
/-! PROOFS. IDENTIFY and GET_LOG (R126, R171, R172, R496): the structure or the piece of a log that is delivered, and what a log that is not complete or not yet
readable waits for. -/
namespace Sys2Proof.Proofs
open Sys2Proof Sys2Proof.Machine Sys2Proof.Laws

/-! ## Deliveries -/

/-- What is delivered follows what was sent before, one message for each extent that gets bytes. -/
theorem out_deliver (s : State) (p : Port) (exts : List (Nat × Nat)) (bs : List Byte) :
    (deliver s p exts bs).out = s.out ++ (spill exts bs).map (fun e => .bytes p e.1 e.2) := by
  unfold deliver
  induction spill exts bs generalizing s with
  | nil => simp
  | cons e es ih => rw [List.foldl_cons, ih]; simp [emit]

theorem out_deliver_congr {s t : State} (h : t.out = s.out) (p : Port) (exts : List (Nat × Nat)) (bs : List Byte) :
    (deliver t p exts bs).out = (deliver s p exts bs).out := by
  rw [out_deliver, out_deliver, h]

theorem ctxs_deliver (s : State) (p : Port) (exts : List (Nat × Nat)) (bs : List Byte) : (deliver s p exts bs).ctxs = s.ctxs :=
  ctxs_of_rest (rest_deliver (L := but .ctxs) rfl s p exts bs) rfl

section Admin

variable {s : State} (hrun : keeperHalted s = false) (c : Ctx) (list : ListRead) (bs : List Byte) (total : Nat)
include hrun

theorem deliverAdmin_running :
    deliverAdmin s c list bs total = perform (deliver s c.port (extentsOf c.dw list) bs) c.cid (lo32 total) (hi32 total) := if_neg (by simp [hrun])

theorem out_deliverAdmin : (deliverAdmin s c list bs total).out = (deliver s c.port (extentsOf c.dw list) bs).out := by
  rw [deliverAdmin_running hrun]
  rfl

theorem endedWith_deliverAdmin (hc : ctxOf s c.cid = some c) : endedWith (deliverAdmin s c list bs total) c.cid (lo32 total) (hi32 total) := by
  rw [deliverAdmin_running hrun]
  exact endedWith_perform ((ctxOf_congr (ctxs_deliver ..) _).trans hc) ..

end Admin

/-! ## IDENTIFY (R171) -/

theorem exec_identify {s : State} {cid : Nat} {c : Ctx} {list : ListRead} (hin : ctxIn s cid 0x80 = some c)
    (hlist : judgeList c.dw (expectedLen s c.dw) 4 list = none) :
    exec (.identify cid list) s = .next (deliverAdmin s c list (identifyBytes s (bits (eCdw c.dw 0) 7 0) (bits (eCdw c.dw 0) 15 8)) 0) := by
  have hexec : exec (.identify cid list) s = execIdentify cid list s := rfl
  simp only [hexec, execIdentify, hin, hlist]

/-! ## GET_LOG (R172) -/

/-- A GET_LOG that is answered waits for no snapshot. -/
def answering (s : State) (cid : Nat) : State := updCtr s (fun k => { k with logReady := k.logReady.filter (fun w => w != cid) })

/-- The commands whose snapshot is readable are no part of any log. -/
theorem logBytes_answering (s : State) (cid : Nat) (p : Port) (id queue : Nat) : logBytes (answering s cid) p id queue = logBytes s p id queue := rfl

section Piece

variable {s : State} (hrun : keeperHalted s = false) (c : Ctx) (list : ListRead)
include hrun

/-- The piece that the entry asks for, zero beyond the log's end. -/
theorem out_deliverLog : (deliverLog s c list).out =
    (deliver s c.port (extentsOf c.dw list)
      (padTo (eCdw c.dw 1) (((logBytes s c.port (eLogId c.dw) (eLogQueue c.dw)).drop (eLba c.dw)).take (eCdw c.dw 1)))).out := by
  unfold deliverLog
  dsimp only
  split <;> exact out_deliverAdmin hrun ..

/-- The results are the length of the whole log. -/
theorem endedWith_deliverLog (hc : ctxOf s c.cid = some c) :
    endedWith (deliverLog s c list) c.cid (lo32 (logBytes s c.port (eLogId c.dw) (eLogQueue c.dw)).length)
      (hi32 (logBytes s c.port (eLogId c.dw) (eLogQueue c.dw)).length) := by
  unfold deliverLog
  dsimp only
  split <;> exact endedWith_congr rfl (endedWith_deliverAdmin hrun c list _ _ hc)

end Piece

section GetLog

variable {s : State} {cid : Nat} {c : Ctx} {list : ListRead} (hin : ctxIn s cid 0x81 = some c)
  (hlist : judgeList c.dw (expectedLen s c.dw) 4 list = none)
include hin hlist

theorem exec_getLog_answered (hcomplete : eLogId c.dw = 2 → c.stage = .served ∨ (portOf s c.port).res.complete = true)
    (hready : eLogId c.dw = 8 → s.ctr.logReady.contains cid = true) :
    exec (.getLog cid list) s = .next (deliverLog (answering s cid) c list) := by
  have hexec : exec (.getLog cid list) s = execGetLog cid list s := rfl
  have hfull : (eLogId c.dw == 2 && c.stage == .admitted && !(portOf s c.port).res.complete) = false := by
    by_contra hwait
    simp only [Bool.not_eq_false, Bool.and_eq_true, beq_iff_eq, Bool.not_eq_true'] at hwait
    obtain ⟨⟨hid, hst⟩, hpart⟩ := hwait
    rcases hcomplete hid with hserved | hwhole
    · exact Stage.noConfusion (hst.symm.trans hserved)
    · exact Bool.noConfusion (hpart.symm.trans hwhole)
  have hsnap : (eLogId c.dw == 8 && !s.ctr.logReady.contains cid) = false := by
    by_cases hid : eLogId c.dw = 8
    · rw [hready hid]; simp
    · simp [hid]
  simp only [hexec, execGetLog, hin, hlist, hfull, hsnap, Bool.false_eq_true, ↓reduceIte]
  rfl

/-- R139: an admitted command waits for the RESUMPTION log to be complete. -/
theorem exec_getLog_incomplete (hid : eLogId c.dw = 2) (hst : c.stage = .admitted) (hpart : (portOf s c.port).res.complete = false) :
    exec (.getLog cid list) s = .next s := by
  have hexec : exec (.getLog cid list) s = execGetLog cid list s := rfl
  simp [hexec, execGetLog, hin, hlist, hid, hst, hpart]

/-- R486, R496: COUNTER_SNAPSHOT asked for first triggers a snapshot. -/
theorem exec_getLog_awaits (hid : eLogId c.dw = 8) (hunread : s.ctr.logReady.contains cid = false) (hfirst : ∀ w ∈ s.ctr.logWaiters, w.1 ≠ cid) :
    exec (.getLog cid list) s = .next (awaitSnapshot s cid) := by
  have hexec : exec (.getLog cid list) s = execGetLog cid list s := rfl
  have hnone : s.ctr.logWaiters.any (fun w => w.1 == cid) = false := by simpa using hfirst
  simp only [hexec, execGetLog, hin, hlist, hid, hunread, hnone, Nat.reduceBEq, Bool.false_and, Bool.not_false, Bool.and_self, Bool.false_eq_true,
    ↓reduceIte]

end GetLog

theorem logWaiters_trigSnap (s : State) : (trigSnap s).ctr.logWaiters = s.ctr.logWaiters := by
  simp only [trigSnap, updCtr_ctr]
  split <;> rfl

/-- The command waits behind the snapshots that become readable before its own. -/
theorem logWaiters_awaitSnapshot (s : State) (cid : Nat) : (awaitSnapshot s cid).ctr.logWaiters = s.ctr.logWaiters ++ [(cid, snapsAhead s)] :=
  congrArg (· ++ [(cid, snapsAhead s)]) (logWaiters_trigSnap s)

/-- Settles O31: by the structure, by the log that is answered, and by the two that are waited for. -/
theorem structuresAndLogsAreDelivered : Obligations.StructuresAndLogsAreDelivered := by
  unfold Obligations.StructuresAndLogsAreDelivered
  intro s cid c list hlist hrun
  refine ⟨fun hin => ?identify, fun hin hcomplete hready => ?answered, fun hin hid hst hpart => ?incomplete, fun hin hid hunread hfirst => ?awaits⟩
  case identify =>
    have hc := ctxOf_of_ctxIn hin
    obtain rfl := cid_of_ctxOf hc
    exact ⟨_, exec_identify hin hlist, endedWith_deliverAdmin hrun c list _ _ hc, out_deliverAdmin hrun ..⟩
  case answered =>
    have hc := ctxOf_of_ctxIn hin
    obtain rfl := cid_of_ctxOf hc
    refine ⟨_, exec_getLog_answered hin hlist hcomplete hready, ?_, ?_⟩
    · exact logBytes_answering s c.cid .. ▸ endedWith_deliverLog (s := answering s c.cid) hrun c list hc
    · rw [out_deliverLog (s := answering s c.cid) hrun, logBytes_answering]
      exact out_deliver_congr (s := s) (t := answering s c.cid) rfl ..
  case incomplete => exact exec_getLog_incomplete hin hlist hid hst hpart
  case awaits =>
    exact ⟨_, exec_getLog_awaits hin hlist hid hunread hfirst, (ctxOf_of_ctxIn hin : ctxOf s cid = some c), rfl, logWaiters_awaitSnapshot s cid⟩

end Sys2Proof.Proofs
end

section
/-! PROOFS. Commands that move host data (R126, R127, R158, R162, R163, R165): what a WRITE stages or keeps as its failure, and how a READ, a VERIFY and a
COMPARE end once every unit is resolved. -/
namespace Sys2Proof.Proofs
open Sys2Proof Sys2Proof.Machine Sys2Proof.Laws

/-! ## Data fetched (R126, R127) -/

theorem fetchOutcome_bytes_whole {dw : List Word} {expected : Nat} {bs : List Byte} (h : bs.length = expected) :
    fetchOutcome dw expected (.bytes bs) = .inl bs := if_pos (by simp [h])

theorem fetchOutcome_bytes_wrong {dw : List Word} {expected : Nat} {bs : List Byte} (h : bs.length ≠ expected) :
    fetchOutcome dw expected (.bytes bs) = .inr (0x1004, Nat.min bs.length expected, expected, bs.length) := if_neg (by simp [h])

theorem fetchOutcome_listed_whole {dw : List Word} {expected : Nat} {list : ListRead} (bs : List Byte) (h : listEnd dw expected list = none) :
    fetchOutcome dw expected (.listed list bs none) = .inl (bs.take expected) := by
  simp only [fetchOutcome, h]

theorem fetchOutcome_listed_ended {dw : List Word} {expected : Nat} {list : ListRead} (bs : List Byte) {n : Nat} {f : Half × Nat × Nat × Nat}
    (h : listEnd dw expected list = some (n, f)) : fetchOutcome dw expected (.listed list bs none) = .inr f := by
  simp only [fetchOutcome, h]

/-! ## WRITE (R158) -/

/-- One unit a block. -/
theorem length_writeUnits (format : Nat) (dw : List Word) (bs : List Byte) : (writeUnits' format dw bs).length = eCount dw := by
  simp [writeUnits']

/-- The blocks of a WRITE staged and counted. -/
def stageWrite (s : State) (cid : Nat) (us : List StagedUnit) : State :=
  updHealth (updCtx s cid (fun c => { c with staged := us })) (fun h => { h with hostWrittenUnits := h.hostWrittenUnits + us.length })

/-- The failure of a fetch kept until WRITE_HELD decides it. -/
def keepFailure (s : State) (cid : Nat) (f : Half × Nat × Nat × Nat) : State :=
  updCtx s cid (fun c => { c with fetchFail := some (f.1, 0, f.2.1, f.2.2.1, f.2.2.2) })

section Write

variable {s : State} {cid : Nat} {c : Ctx} (hin : ctxIn s cid 0x01 = some c)
include hin

theorem ctxOf_stageWrite (us : List StagedUnit) : ctxOf (stageWrite s cid us) cid = some { c with staged := us } :=
  ctxOf_updCtx (ctxOf_of_ctxIn hin) (fun _ h => h)

theorem ctxOf_keepFailure (f : Half × Nat × Nat × Nat) :
    ctxOf (keepFailure s cid f) cid = some { c with fetchFail := some (f.1, 0, f.2.1, f.2.2.1, f.2.2.2) } :=
  ctxOf_updCtx (ctxOf_of_ctxIn hin) (fun _ h => h)

variable {data : HostFetch} (hheld : c.held = false) (hgood : c.fetchFail = none) (hempty : c.staged = []) (hfits : fetchFits c.dw data = true)
include hheld hgood hempty hfits

theorem exec_write_staged {bs : List Byte} (hdata : fetchOutcome c.dw (expectedLen s c.dw) data = .inl bs)
    (hcross : crossingFault (nsFormat s (eNs c.dw)) c.dw (writeUnits' (nsFormat s (eNs c.dw)) c.dw bs) = none) :
    exec (.write cid data) s = .next (stageWrite s cid (writeUnits' (nsFormat s (eNs c.dw)) c.dw bs)) := by
  have hexec : exec (.write cid data) s = execWrite cid data s := rfl
  simp [hexec, execWrite, hin, hheld, hgood, hempty, hfits, hdata, hcross, stageWrite]

theorem exec_write_failed {f : Half × Nat × Nat × Nat} (hdata : fetchOutcome c.dw (expectedLen s c.dw) data = .inr f) :
    exec (.write cid data) s = .next (keepFailure s cid f) := by
  have hexec : exec (.write cid data) s = execWrite cid data s := rfl
  simp [hexec, execWrite, hin, hheld, hgood, hempty, hfits, hdata, keepFailure]

end Write

/-! ## How a reading command ends (R165) -/

theorem ctxOf_perform {s : State} {cid : Nat} {c : Ctx} (h : ctxOf s cid = some c) (r0 r1 : Word) (st : Half) :
    ∃ d, ctxOf (perform s cid r0 r1 st) cid = some d ∧ d.stage = .ended ∧ d.status = st ∧ d.result0 = r0 ∧ d.result1 = r1 :=
  ⟨_, ctxOf_updCtx h (fun _ h => h), rfl, rfl, rfl, rfl⟩

theorem stage_of_ctxIn {s : State} {cid op : Nat} {c : Ctx} (h : ctxIn s cid op = some c) : c.stage = .admitted ∨ c.stage = .served := by
  have hc := ctxOf_of_ctxIn h
  simp only [ctxIn, hc] at h
  split at h
  · rename_i hcond
    simp only [Bool.and_eq_true, Bool.or_eq_true, beq_iff_eq] at hcond
    obtain ⟨⟨⟨⟨-, hst⟩, -⟩, -⟩, -⟩ := hcond
    exact hst
  · cases h

/-- A status decided for a command that was not still to be judged ends it. -/
theorem endedStatus_decide {s : State} {cid : Nat} {c : Ctx} (v : Verdict) (hc : ctxOf s cid = some c) (hst : c.stage ≠ .fetched) :
    endedStatus (decide_ s cid v) cid v.status := by
  have hjudged : (c.stage == .fetched) = false := beq_eq_false_iff_ne.mpr hst
  simp only [decide_, hc, hjudged, Bool.false_eq_true, ↓reduceIte]
  split
  · exact ⟨_, ctxOf_updCtx hc (fun _ h => h), rfl, rfl⟩
  · exact ⟨_, (ctxOf_congr ((logError_ctxs ..).trans (freezeDecided_ctxs ..)) cid).trans (ctxOf_updCtx hc (fun _ h => h)), rfl, rfl⟩

/-- The pins of a command's units released. -/
def unpinUnits (s : State) (c : Ctx) : State := c.units.foldl (fun t u => match u.st with | .medium m => unpinBlock t m | _ => t) s

theorem ctxs_unpinUnits (s : State) (c : Ctx) : (unpinUnits s c).ctxs = s.ctxs :=
  view_foldl (view := State.ctxs) (fun _ _ => by split <;> rfl) _ _

theorem endedStatus_failCommand {s : State} {c : Ctx} (hc : ctxOf s c.cid = some c) (hst : c.stage ≠ .fetched) (v : Verdict) :
    endedStatus (failCommand s c v) c.cid v.status := by
  obtain ⟨d, hd, hended, hstatus⟩ := endedStatus_decide v ((ctxOf_congr (ctxs_unpinUnits s c) _).trans hc) hst
  exact ⟨_, (ctxOf_congr (settleFull_ctxs _) _).trans (ctxOf_updCtx hd (fun _ h => h)), hended, hstatus⟩

theorem map_failCommand (s : State) (c : Ctx) (v : Verdict) : (failCommand s c v).map = s.map :=
  map_of_rest (rest_failCommand (L := but .map) rfl s c v) rfl

/-! ## READ and VERIFY (R162) -/

/-- The blocks of a READ counted and delivered. -/
def readDelivered (s : State) (c : Ctx) (list : ListRead) : State :=
  deliver (countHostRead s c.units.length) c.port (extentsOf c.dw list)
    ((readBlocks s c).flatMap (fun b => streamOfBlock (nsFormat s (eNs c.dw)) (chkStrip c.dw) b.2))

theorem ctxs_readDelivered (s : State) (c : Ctx) (list : ListRead) : (readDelivered s c list).ctxs = s.ctxs := ctxs_deliver ..

theorem map_readDelivered (s : State) (c : Ctx) (list : ListRead) : (readDelivered s c list).map = s.map :=
  map_of_rest (rest_deliver (L := but .map) rfl (countHostRead s c.units.length) ..) rfl

section Read

variable {s : State} {cid : Nat} {c : Ctx} {list : ListRead} (hin : ctxIn s cid 0x02 = some c)
  (hlist : judgeList c.dw (expectedLen s c.dw) 4 list = none) (hall : c.units.all unitResolved = true)
include hin hlist hall

theorem exec_read_delivered (hread : readVerdict s c = none) :
    exec (.read cid list) s = .next (perform (readDelivered s c list) cid (w32 (unwrittenCount c)) (w32 (recoveredCount c)) (readStatus c)) := by
  have hexec : exec (.read cid list) s = execRead cid list s := rfl
  simp only [hexec, execRead, hin, hlist, hall, hread, Bool.not_true, Bool.false_eq_true, ↓reduceIte]
  rfl

theorem exec_read_failed {v : Verdict} (hread : readVerdict s c = some v) : exec (.read cid list) s = .next (failCommand s c v) := by
  have hexec : exec (.read cid list) s = execRead cid list s := rfl
  simp only [hexec, execRead, hin, hlist, hall, hread, Bool.not_true, Bool.false_eq_true, ↓reduceIte]

end Read

theorem exec_verify {s : State} {cid : Nat} {c : Ctx} (hin : ctxIn s cid 0x04 = some c) (hall : c.units.all unitResolved = true)
    (hread : readVerdict s c = none) :
    exec (.verify cid) s = .next (perform s cid (w32 (unwrittenCount c)) (w32 (recoveredCount c)) (readStatus c)) := by
  have hexec : exec (.verify cid) s = execVerify cid s := rfl
  simp only [hexec, execVerify, hin, hall, hread, Bool.not_true, Bool.false_eq_true, ↓reduceIte]

/-! ## COMPARE (R163) -/

/-- The results of a COMPARE: 0 and all ones, or 1 and the index of the first block that differs. -/
def compareResults : Option Nat → Word × Word
  | none => (0, 0xFFFFFFFF)
  | some i => (1, w32 i)

/-- The stream of a COMPARE kept. -/
def keepStream (s : State) (cid : Nat) (bs : List Byte) : State := updCtx s cid (fun c => { c with stream := bs })

theorem exec_compare {s : State} {cid : Nat} {c : Ctx} {bs : List Byte} (hin : ctxIn s cid 0x05 = some c) (hfresh : c.stream = [])
    (hfits : fetchFits c.dw (.bytes bs) = true) (hlen : bs.length = expectedLen s c.dw) (hall : c.units.all unitResolved = true)
    (hread : readVerdict s c = none) :
    exec (.compare cid (.bytes bs)) s =
      let r := compareResults (firstDiffering (nsFormat s (eNs c.dw)) bs (readBlocks s c) 0)
      .next (perform (keepStream s cid bs) cid r.1 r.2 (readStatus c)) := by
  have hexec : exec (.compare cid (.bytes bs)) s = execCompare cid (.bytes bs) s := rfl
  simp only [hexec, execCompare, hin, hfresh, hfits, fetchOutcome_bytes_whole hlen, hall, hread, List.isEmpty_nil, Bool.not_true, Bool.and_false,
    Bool.false_eq_true, ↓reduceIte]
  cases firstDiffering (nsFormat s (eNs c.dw)) bs (readBlocks s c) 0 <;> rfl

/-- Settles O22: by the data that a WRITE fetched, and by the units that a READ, a VERIFY and a COMPARE resolved. -/
theorem hostDataCommandsAct : Obligations.HostDataCommandsAct := by
  unfold Obligations.HostDataCommandsAct
  intro s cid c
  refine ⟨fun bs hin hheld hgood hempty hfits => ⟨fun hlen hcross => ?whole, fun hlen => ?wrong⟩,
    fun list bs hin hheld hgood hempty hfits => ⟨fun hend hcross => ?listed, fun n st off d0 d1 hend => ?early⟩,
    fun list hin hlist hall hread => ?read, fun list v hin hlist hall hread => ?failing, fun hin hall hread => ?verify,
    fun bs hin hfresh hfits hlen hall hread => ?compare⟩
  case whole =>
    exact ⟨_, exec_write_staged hin hheld hgood hempty hfits (fetchOutcome_bytes_whole hlen) hcross, ctxOf_stageWrite hin _, rfl,
      congrArg (s.health.hostWrittenUnits + ·) (length_writeUnits ..)⟩
  case wrong =>
    exact ⟨_, _, exec_write_failed hin hheld hgood hempty hfits (fetchOutcome_bytes_wrong hlen), ctxOf_keepFailure hin _, hempty, rfl⟩
  case listed =>
    exact ⟨_, exec_write_staged hin hheld hgood hempty hfits (fetchOutcome_listed_whole bs hend) hcross, rfl, ctxOf_stageWrite hin _⟩
  case early =>
    exact ⟨_, _, exec_write_failed hin hheld hgood hempty hfits (fetchOutcome_listed_ended bs hend), ctxOf_keepFailure hin _, hempty, rfl⟩
  case read =>
    have hc := (ctxOf_congr (ctxs_readDelivered s c list) cid).trans (ctxOf_of_ctxIn hin)
    exact ⟨_, exec_read_delivered hin hlist hall hread, ctxOf_perform hc .., map_readDelivered s c list,
      out_deliver_congr (s := s) (t := countHostRead s c.units.length) rfl ..⟩
  case failing =>
    have hc := ctxOf_of_ctxIn hin
    obtain rfl := cid_of_ctxOf hc
    have hst : c.stage ≠ .fetched := by rcases stage_of_ctxIn hin with h | h <;> simp [h]
    exact ⟨_, exec_read_failed hin hlist hall hread, endedStatus_failCommand hc hst v, map_failCommand s c v⟩
  case verify => exact ⟨_, exec_verify hin hall hread, ctxOf_perform (ctxOf_of_ctxIn hin) .., rfl, rfl⟩
  case compare =>
    have hc : ctxOf (keepStream s cid bs) cid = some { c with stream := bs } := ctxOf_updCtx (ctxOf_of_ctxIn hin) (fun _ h => h)
    refine ⟨_, exec_compare hin hfresh hfits hlen hall hread, rfl, fun hsame => ?_, fun i hdiffers => ?_⟩
    · rw [hsame]
      exact ctxOf_perform hc ..
    · rw [hdiffers]
      exact ctxOf_perform hc ..

end Sys2Proof.Proofs
end

section
/-! PROOFS. Features of a port (R100, R115, R174, R176, R177, R179): a SET_FEATURE of one port that is due changes that port, ends with success and leaves the
other port as it was. -/
namespace Sys2Proof.Proofs
open Sys2Proof Sys2Proof.Machine Sys2Proof.Laws

/-! ## A SET_FEATURE of a port that is due (R174, R175) -/

/-- The features 5 to 9 are a port's own (Table 7-16). -/
theorem featureScope_port {f : Nat} (hlow : 5 ≤ f) (hhigh : f ≤ 9) (p : Port) : featureScope f p ≠ 0 := by
  have hscope : featureScope f p = portScope p := if_pos (by simp [hlow, hhigh])
  rw [hscope]
  cases p <;> decide

/-- A command that does not only forget puts its value in force; the saved value lies in keeper flash. -/
theorem rest_featureTaken_forced {c : Ctx} (hmode : eMode c.dw ≠ 2) (s : State) (a : State → Ctx → State) :
    rest [.kf] (featureTaken s c a) = rest [.kf] (a s c) := by
  have hforced : (if eMode c.dw == 2 then s else a s c) = a s c := if_neg (by simpa using hmode)
  exact (rest_featureTaken s c a).trans (by rw [hforced])

section PortFeature

variable {s : State} {cid f : Nat} {c : Ctx} (h : featureDue s cid f c) (hscope : featureScope f c.port ≠ 0)
include h hscope

theorem setFeature_port (a : State → Ctx → State) (chunks : List Nat) :
    setFeature s cid f a chunks = performState (featureTaken s c a) cid 2 0 0 (some (featureRef c chunks)) := by
  unfold setFeature
  simp only [h.1]
  rw [featureMirrored_due h, if_neg (by simpa using hscope)]
  rfl

variable (hmode : eMode c.dw ≠ 2)
include hmode

theorem portOf_setFeature_port (a : State → Ctx → State) (chunks : List Nat) (q : Port) :
    portOf (setFeature s cid f a chunks) q = portOf (a s c) q := by
  rw [setFeature_port h hscope, portOf_performState]
  exact portOf_of_rest (rest_featureTaken_forced hmode s a) rfl q

/-- A value whose taking effect is a change of the command's port is in force on that port alone. -/
theorem setFeature_changes_port {a : State → Ctx → State} {g : PortSt → PortSt} (hctxs : (a s c).ctxs = s.ctxs)
    (hport : ∀ q, portOf (a s c) q = portOf (updPort s c.port g) q) (chunks : List Nat) :
    endedWith (setFeature s cid f a chunks) cid 0 0 ∧ portOf (setFeature s cid f a chunks) c.port = g (portOf s c.port) ∧
      portOf (setFeature s cid f a chunks) (otherPort c.port) = portOf s (otherPort c.port) := by
  have htaken : (featureTaken s c a).ctxs = s.ctxs := (ctxs_of_rest (rest_featureTaken_forced hmode s a) rfl).trans hctxs
  have hports : ∀ q, portOf (setFeature s cid f a chunks) q = portOf (updPort s c.port g) q := fun q =>
    (portOf_setFeature_port h hscope hmode a chunks q).trans (hport q)
  refine ⟨?_, (hports _).trans (portOf_updPort ..), (hports _).trans (portOf_updPort_other _ _ _ (otherPort_ne _))⟩
  rw [setFeature_port h hscope]
  exact endedWith_performState ((ctxOf_congr htaken cid).trans (ctxOf_of_featureIn h.1)) ..

theorem setFeature_updPort (g : Ctx → PortSt → PortSt) :
    let t := setFeature s cid f (fun s c => updPort s c.port (g c))
    endedWith t cid 0 0 ∧ portOf t c.port = g c (portOf s c.port) ∧ portOf t (otherPort c.port) = portOf s (otherPort c.port) :=
  setFeature_changes_port h hscope hmode (updPort_ctxs ..) (fun _ => rfl) []

end PortFeature

/-! ## The values as they take effect -/

/-- HOST_MAP_REGION: the chunks read become the port's region (R177). -/
def takeRegion (chunks : List Nat) (s : State) (c : Ctx) : State := setHostMap s c.port (eLba c.dw) chunks

/-- ONION_SHELF: the port's shelf, withdrawn by a size of 0 (R177, R421). -/
def takeShelf (s : State) (c : Ctx) : State :=
  setShelf s c.port (if eCdw c.dw 1 == 0 then none else some { base := eLba c.dw, units := eCdw c.dw 1 })

/-- A queue with the COUNT and TIME of an INTERRUPT_COALESCING (R115). -/
def coalesced (c : Ctx) (k : Queue) : Queue := { k with coalCount := bits (eCdw c.dw 2) 7 0, coalTime := bits (eCdw c.dw 2) 23 8 }

/-- INTERRUPT_COALESCING: COUNT and TIME of one queue of the port. -/
def takeCoalescing (q : Nat) (s : State) (c : Ctx) : State := updQueue s c.port q (coalesced c)

theorem ctxs_takeRegion (chunks : List Nat) (s : State) (c : Ctx) : (takeRegion chunks s c).ctxs = s.ctxs :=
  ctxs_of_rest (rest_setHostMap (L := but .ctxs) rfl s c.port (eLba c.dw) chunks) rfl

theorem ctxs_takeShelf (s : State) (c : Ctx) : (takeShelf s c).ctxs = s.ctxs := ctxs_of_rest (rest_setShelf (L := but .ctxs) rfl s c.port _) rfl

/-! ## The two commands that judge their operands -/

section Judged

variable {s : State} {cid : Nat} {c : Ctx}

/-- A list of aligned chunks within the limit of both ports is taken (R177). -/
theorem exec_setHostMapRegion {chunks : List Nat} (h : featureIn s cid 0x05 = some c) (hlen : chunks.length = eCdw c.dw 1)
    (hlimit : chunks.length + (portOf s (otherPort c.port)).hostMap.length ≤ 131072) (halign : ∀ a ∈ chunks, a % 2097152 = 0) :
    exec (.setHostMapRegion cid chunks) s = .next (setFeature s cid 0x05 (takeRegion chunks) chunks) := by
  have hexec : exec (.setHostMapRegion cid chunks) s = execSetHostMapRegion cid chunks s := rfl
  have hother : (if c.port == Port.a then Port.b else Port.a) = otherPort c.port := by cases c.port <;> rfl
  have haligned : chunks.any (fun a => a % 2097152 != 0) = false := by simpa using halign
  rw [hexec, execSetHostMapRegion]
  simp only [h, hother]
  rw [if_neg (by simp [hlen]), if_neg (Nat.not_lt.mpr hlimit), if_neg (by simp [haligned])]
  rfl

theorem exec_setInterruptCoalescing {k : Queue} (h : featureIn s cid 0x06 = some c) (hk : queueOf s c.port (bits (eCdw c.dw 1) 13 0) = some k)
    (hjudge : judge520 s c.port c.dw = none) :
    exec (.setInterruptCoalescing cid) s = .next (setFeature s cid 0x06 (takeCoalescing (bits (eCdw c.dw 1) 13 0))) := by
  have hexec : exec (.setInterruptCoalescing cid) s = execSetInterruptCoalescing cid s := rfl
  rw [hexec, execSetInterruptCoalescing]
  simp only [h]
  rw [if_neg (by simp [hk]), if_neg (by simp [hjudge])]
  rfl

end Judged

/-- Settles O28: each feature by the change of its port that its value's taking effect is. -/
theorem portFeaturesTakeEffect : Obligations.PortFeaturesTakeEffect := by
  unfold Obligations.PortFeaturesTakeEffect
  intro s cid c hmode
  refine ⟨fun chunks h hlen hlimit halign => ?region, fun k h hk hjudge => ?coalescing, fun h => ?arbitration, fun h => ?shelf, fun h => ?mask⟩
  case region =>
    obtain ⟨hended, hown, hother⟩ := setFeature_changes_port h (featureScope_port (by decide) (by decide) _) hmode (ctxs_takeRegion chunks s c)
      (portOf_setHostMap s c.port (eLba c.dw) chunks) chunks
    exact ⟨_, exec_setHostMapRegion h.1 hlen hlimit halign, hended, congrArg PortSt.hostMap hown, congrArg PortSt.hostMapAddr hown, hother⟩
  case coalescing =>
    have hscope := featureScope_port (f := 6) (by decide) (by decide) c.port
    obtain ⟨hended, -, hother⟩ := setFeature_changes_port h hscope hmode (a := takeCoalescing (bits (eCdw c.dw 1) 13 0)) (updPort_ctxs ..) (fun _ => rfl) []
    have hqueues := congrArg PortSt.queues (portOf_setFeature_port h hscope hmode (takeCoalescing (bits (eCdw c.dw 1) 13 0)) [] c.port)
    exact ⟨_, exec_setInterruptCoalescing h.1 hk hjudge, hended,
      (queueOf_congr hqueues _).trans (queueOf_updQueue hk (f := coalesced c) fun _ h => h), hother⟩
  case arbitration =>
    obtain ⟨hended, hown, hother⟩ := setFeature_updPort h (featureScope_port (by decide) (by decide) _) hmode (fun c x => applyArb x (eCdw c.dw 1))
    exact ⟨_, rfl, hended, hown, hother⟩
  case shelf =>
    obtain ⟨hended, hown, hother⟩ := setFeature_changes_port h (featureScope_port (by decide) (by decide) _) hmode (ctxs_takeShelf s c)
      (portOf_setShelf s c.port _) []
    exact ⟨_, rfl, hended, (congrArg PortSt.shelf hown).trans (by simp), congrArg PortSt.shelf hother⟩
  case mask =>
    obtain ⟨hended, hown, hother⟩ := setFeature_updPort h (featureScope_port (by decide) (by decide) _) hmode
      (fun c x => { x with eventMask := w32 (eCdw c.dw 1) })
    exact ⟨_, rfl, hended, hown, hother⟩

end Sys2Proof.Proofs
end

section
/-! PROOFS. Namespaces (R180, R181, R199): on a chip that mirrors to no partner the record of a NAMESPACE_CREATE or NAMESPACE_DELETE is durable at once, and
what it makes of the namespaces and of their segments. -/
namespace Sys2Proof.Proofs
open Sys2Proof Sys2Proof.Machine Sys2Proof.Laws

/-! ## A command's own record (R241) -/

section Journalled

variable {s : State} {cid : Nat} {c : Ctx} (hc : ctxOf s cid = some c) (hmirror : mirroring s = false) (hfirst : c.mapAsked = false) (body : JRec)

theorem map_journalOnce : (journalOnce s c body).map = s.map := map_of_rest (rest_journalOnce (L := but .map) rfl s c body) rfl

include hc hmirror hfirst

theorem ctxOf_journalOnce : ctxOf (journalOnce s c body) cid = some { c with mapAsked := true, awaitAck := none } := by
  have hctxs : (journal s body).ctxs = s.ctxs := ctxs_of_rest (rest_journal (L := but .ctxs) rfl s body) rfl
  obtain rfl := cid_of_ctxOf hc
  have hjournalled : ctxOf (journal s body) c.cid = some c := (ctxOf_congr hctxs _).trans hc
  simp only [journalOnce, hfirst, hmirror, Bool.false_eq_true, if_false]
  exact ctxOf_updCtx hjournalled fun _ h => h

/-- A record that no partner has to acknowledge is durable at once. -/
theorem recordDurable_journalOnce : recordDurable (journalOnce s c body) cid = true := by
  simp [recordDurable, ctxOf_journalOnce hc hmirror hfirst]

end Journalled

/-! ## The records of the two commands applied -/

/-- Namespaces of other numbers are found as before where one number is removed. -/
theorem find?_nsid_others (l : List Namespace) {n m : Nat} (h : m ≠ n) :
    (l.filter (fun x => x.nsid != n)).find? (fun x => x.nsid == m) = l.find? (fun x => x.nsid == m) := by
  rw [List.find?_filter]
  congr 1
  funext x
  by_cases hx : x.nsid = m <;> simp [hx, h]

theorem find?_nsid_removed (l : List Namespace) (n : Nat) : (l.filter (fun x => x.nsid != n)).find? (fun x => x.nsid == n) = none := by
  simp

/-- The record that NAMESPACE_CREATE journals (Table 10-3). -/
def createRec (s : State) (c : Ctx) : JRec :=
  .nspace c.csn (bits (eCdw c.dw 0) 7 0) true (bits (eCdw c.dw 0) 9 8) (bits (eCdw c.dw 0) 12 12 == 1) (eCdw c.dw 1) s.cad.aet

/-- The record that NAMESPACE_DELETE journals. -/
def deleteRec (s : State) (c : Ctx) : JRec := .nspace c.csn (bits (eCdw c.dw 0) 7 0) false 0 false 0 s.cad.aet

/-- The namespace that NAMESPACE_CREATE makes (R180, R199). -/
def createdNs (s : State) (c : Ctx) : Namespace :=
  ⟨bits (eCdw c.dw 0) 7 0, .ready, bits (eCdw c.dw 0) 9 8, bits (eCdw c.dw 0) 12 12 == 1, eCdw c.dw 1, s.cad.aet,
    freeDirs s.map (ceilDiv (eCdw c.dw 1) 8192)⟩

theorem find?_createRec (s : State) (c : Ctx) (jseq m : Nat) :
    (applyRec s.map jseq (createRec s c)).nss.find? (fun x => x.nsid == m) = if m = bits (eCdw c.dw 0) 7 0 then some (createdNs s c) else nsOf s m := by
  have hnss : (applyRec s.map jseq (createRec s c)).nss = s.map.nss.filter (fun x => x.nsid != bits (eCdw c.dw 0) 7 0) ++ [createdNs s c] := rfl
  have hnsid : (createdNs s c).nsid = bits (eCdw c.dw 0) 7 0 := rfl
  rw [hnss, List.find?_append]
  split
  next h => rw [h, find?_nsid_removed]; simp [hnsid]
  next h => rw [find?_nsid_others _ h]; simp [hnsid, Ne.symm h, nsOf]

theorem find?_deleteRec (s : State) (c : Ctx) (jseq m : Nat) :
    (applyRec s.map jseq (deleteRec s c)).nss.find? (fun x => x.nsid == m) = if m = bits (eCdw c.dw 0) 7 0 then none else nsOf s m := by
  have hnss : (applyRec s.map jseq (deleteRec s c)).nss = s.map.nss.filter (fun x => x.nsid != bits (eCdw c.dw 0) 7 0) := rfl
  rw [hnss]
  split
  next h => rw [h, find?_nsid_removed]
  next h => rw [find?_nsid_others _ h, nsOf]

/-! ## The commands -/

/-- The state in which a command's record is journalled and applied (R205, R241). -/
def recorded (s : State) (c : Ctx) (body : JRec) : State :=
  updMap (journalOnce s c body) (fun i => applyRec i (journalOnce s c body).jrnl.nextSeq body)

theorem map_recorded (s : State) (c : Ctx) (body : JRec) : (recorded s c body).map = applyRec s.map (journalOnce s c body).jrnl.nextSeq body := by
  rw [recorded, updMap_map, map_journalOnce]

theorem nsOf_of_map {t : State} {i : MapImg} (h : t.map = i) (m : Nat) : nsOf t m = i.nss.find? (fun x => x.nsid == m) := by rw [nsOf, h]

section Commands

variable {s : State} {cid : Nat} {c : Ctx} (hst : c.stage = .admitted) (hready : readyFor s c = true) (hmirror : mirroring s = false)
  (hfirst : c.mapAsked = false) (hsealed : sealedSet s = false)
include hst hready hmirror hfirst hsealed

theorem exec_namespaceCreate (hin : ctxIn s cid 0x8C = some c) (hroom : allocatedSegments s - eCdw c.dw 1 + eCdw c.dw 1 ≤ userSegments s) :
    exec (.namespaceCreate cid) s = .next (perform (recorded s c (createRec s c)) cid (w32 (bits (eCdw c.dw 0) 7 0)) 0) := by
  have hexec : exec (.namespaceCreate cid) s = execNamespaceCreate cid s := rfl
  have hdue : (ctxIn s cid 0x8C).filter (fun c => c.stage == .admitted && readyFor s c) = some c := by simp [hin, hst, hready]
  rw [hexec, execNamespaceCreate]
  simp only [hdue]
  rw [if_neg (by simp [hsealed]), if_neg (by simpa [hfirst] using hroom)]
  exact if_pos (recordDurable_journalOnce (ctxOf_of_ctxIn hin) hmirror hfirst (createRec s c))

theorem exec_namespaceDelete (hin : ctxIn s cid 0x8D = some c)
    (hnone : ∀ x ∈ s.ctxs, x.stage = .admitted → x.csn < c.csn → namesNamespace x.dw (bits (eCdw c.dw 0) 7 0) = false) :
    exec (.namespaceDelete cid) s =
      .next (settleFull (perform (updEng (recorded s c (deleteRec s c)) (fun e => dropCopies e (bits (eCdw c.dw 0) 7 0))) cid 0 0)) := by
  have hexec : exec (.namespaceDelete cid) s = execNamespaceDelete cid s := rfl
  have hdue : (ctxIn s cid 0x8D).filter (fun c => c.stage == .admitted && readyFor s c) = some c := by simp [hin, hst, hready]
  have hfree : s.ctxs.any (fun x => x.stage == .admitted && decide (x.csn < c.csn) && namesNamespace x.dw (bits (eCdw c.dw 0) 7 0)) = false := by
    simpa using hnone
  rw [hexec, execNamespaceDelete]
  simp only [hdue]
  rw [if_neg (by simp [hfree]), if_neg (by simp [hsealed])]
  exact if_pos (recordDurable_journalOnce (ctxOf_of_ctxIn hin) hmirror hfirst (deleteRec s c))

end Commands

/-- Settles O30: both commands by the record that each journals, which is durable and applied at once. -/
theorem namespacesComeAndGo : Obligations.NamespacesComeAndGo := by
  unfold Obligations.NamespacesComeAndGo
  intro s cid c hst hready hmirror _ hfirst
  refine ⟨fun hin hsealed hroom => ?create, fun hin hsealed hnone => ?delete⟩
  case create =>
    have hmap : (perform (recorded s c (createRec s c)) cid (w32 (bits (eCdw c.dw 0) 7 0)) 0).map = _ := map_recorded s c (createRec s c)
    have hns := fun m => (nsOf_of_map hmap m).trans (find?_createRec s c _ m)
    have hctx : ctxOf (recorded s c (createRec s c)) cid = _ := ctxOf_journalOnce (ctxOf_of_ctxIn hin) hmirror hfirst (createRec s c)
    exact ⟨_, exec_namespaceCreate hst hready hmirror hfirst hsealed hin hroom, endedWith_perform hctx .., (hns _).trans (if_pos rfl),
      fun m hm => (hns m).trans (if_neg hm), (congrArg MapImg.segs hmap :)⟩
  case delete =>
    have hmap := (map_of_rest (rest_settleFull (L := but .map) rfl
      (perform (updEng (recorded s c (deleteRec s c)) (fun e => dropCopies e (bits (eCdw c.dw 0) 7 0))) cid 0 0)) rfl).trans (map_recorded s c (deleteRec s c))
    have hns := fun m => (nsOf_of_map hmap m).trans (find?_deleteRec s c _ m)
    have hctx : ctxOf (updEng (recorded s c (deleteRec s c)) (fun e => dropCopies e (bits (eCdw c.dw 0) 7 0))) cid = _ :=
      ctxOf_journalOnce (ctxOf_of_ctxIn hin) hmirror hfirst (deleteRec s c)
    exact ⟨_, exec_namespaceDelete hst hready hmirror hfirst hsealed hin hnone, endedWith_congr (settleFull_ctxs _) (endedWith_perform hctx ..),
      (hns _).trans (if_pos rfl), congrArg MapImg.segs hmap, fun m hm => (hns m).trans (if_neg hm)⟩

end Sys2Proof.Proofs
end

section
/-! PROOFS. REBUILD_CONTROL and PATROL_CONTROL (R183, R324, R356): the rebuild stopped and started, and patrol paused, resumed and restarted. That HOURS of a
pause run on AET is the model's own choice (assumption 60). -/
namespace Sys2Proof.Proofs
open Sys2Proof Sys2Proof.Machine Sys2Proof.Laws

/-! ## A control command that ends -/

theorem ctxOf_of_actionIn {s : State} {cid op action : Nat} {c : Ctx} (h : actionIn s cid op action = some c) : ctxOf s cid = some c :=
  ctxOf_of_ctxIn (Option.filter_eq_some_iff.mp h).1

theorem eOpcode_of_actionIn {s : State} {cid op action : Nat} {c : Ctx} (h : actionIn s cid op action = some c) : eOpcode c.dw = op :=
  eOpcode_of_ctxIn (Option.filter_eq_some_iff.mp h).1

theorem ctxOf_updMedia (s : State) (f : Media → Media) (cid : Nat) : ctxOf (updMedia s f) cid = ctxOf s cid := rfl

theorem media_performState (s : State) (cid kind : Nat) (r0 r1 : Word) (feature : Option (Nat × List Word)) (queue : Option QueueImage)
    (log : Option Port) : (performState s cid kind r0 r1 feature queue log).media = s.media :=
  media_of_rest (rest_performState (L := but .media) rfl s cid kind r0 r1 feature queue log) rfl

/-! ## REBUILD_CONTROL (R356) -/

theorem ctxs_setRebuild (s : State) (new : Nat) (extra : List (Nat × Bool)) : (setRebuild s new extra).ctxs = s.ctxs :=
  ctxs_of_rest (rest_setRebuild (L := but .ctxs) rfl s new extra) rfl

/-- REBUILD takes its new value, whether or not that is a change. -/
theorem rebuild_setRebuild (s : State) (new : Nat) : (setRebuild s new []).media.rebuild = new := by
  unfold setRebuild
  dsimp only
  split
  next h =>
    simp only [Bool.and_eq_true, beq_iff_eq] at h
    exact h.1
  next h =>
    have hchanged : (s.media.rebuild == new) = false := by simpa using h
    rw [hchanged, if_neg Bool.false_ne_true]
    split
    · exact congrArg Media.rebuild (media_journal ..)
    · exact congrArg Media.rebuild (media_journal ..)

/-- START is allowed while REBUILD is 3 (R356): its ACTION is not 0, as it is for STOP. -/
theorem actionAllowed_start {s : State} {cid : Nat} {c : Ctx} (h : actionIn s cid 0x91 1 = some c) (hstopped : s.media.rebuild = 3) :
    actionAllowed s c.dw = true := by
  have haction := (Option.filter_eq_some_iff.mp h).2
  simp only [Bool.and_eq_true, beq_iff_eq] at haction
  have hbits : bits (eCdw c.dw 0) 1 0 = 1 := haction.2
  have hstart : bits (eCdw c.dw 0) 2 0 ≠ 0 := by
    simp only [bits] at hbits ⊢
    omega
  obtain ⟨n, hn⟩ := Nat.exists_eq_succ_of_ne_zero hstart
  simp only [actionAllowed, eOpcode_of_actionIn h, hn, hstopped, beq_self_eq_true]

section Rebuild

variable {s : State} {cid : Nat} {c : Ctx}

theorem exec_rebuildStop (h : actionIn s cid 0x91 0 = some c) (hallowed : actionAllowed s c.dw = true) (hidle : rebuildIssued s = false) :
    exec (.rebuildStop cid) s = settled (performState (setRebuild (updMedia s (fun m => { m with rebuildDue := false })) 3 []) cid 3 0 0) := by
  have hexec : exec (.rebuildStop cid) s = execRebuildStop cid s := rfl
  simp only [hexec, execRebuildStop, h, hallowed, hidle, Bool.not_true, Bool.false_eq_true, if_false]

theorem exec_rebuildStart (h : actionIn s cid 0x91 1 = some c) (hstopped : s.media.rebuild = 3) :
    exec (.rebuildStart cid) s = settled (performState (setRebuild s (if someHost s then 1 else 4) []) cid 3 0 0) := by
  have hexec : exec (.rebuildStart cid) s = execRebuildStart cid s := rfl
  simp only [hexec, execRebuildStart, h, actionAllowed_start h hstopped, Bool.not_true, Bool.false_eq_true, if_false]

/-- A change of REBUILD performed for a command and its cycle ended. -/
theorem setRebuild_performed (h : ctxOf s cid = some c) (new : Nat) :
    let t := endCycle (performState (setRebuild s new []) cid 3 0 0)
    endedWith t cid 0 0 ∧ t.media.rebuild = new := by
  have hc : ctxOf (setRebuild s new []) cid = some c := (ctxOf_congr (ctxs_setRebuild ..) cid).trans h
  refine ⟨endedWith_congr (endCycle_ctxs _) (endedWith_performState hc ..), ?_⟩
  rw [endCycle_media, media_performState, rebuild_setRebuild]

end Rebuild

/-! ## PATROL_CONTROL (R324) -/

/-- The media cluster without the claims on sets. -/
def unclaimed (s : State) : Media := { s.media with claims := [] }

theorem unclaimed_claimSet (s : State) (ag : Agent) (seq : Nat) : unclaimed (claimSet s ag seq) = unclaimed s := by
  unfold claimSet
  repeat' split
  all_goals rfl

/-- What the start of a cycle makes of a profile's agents (R319). -/
def cycleBegun (s : State) (p : Nat) (late : Bool) (q : ReclaimSt) : ReclaimSt :=
  { q with
    patrolOn := !(patrolOrder s p).isEmpty, patrolList := patrolOrder s p, patrolDone := [], patrolLate := late, patrolRead := []
    marks := ((aetSec s.cad.aet, s.csnNext - 1) :: q.marks).take 3
    patrolNext := nextDue (aetSec s.cad.aet) (3600 * cycleHours s p) }

theorem unclaimed_startPatrol (s : State) (p : Nat) (late : Bool) : unclaimed (startPatrol s p late) = unclaimed (updProf s p (cycleBegun s p late)) :=
  view_foldl (fun t n => unclaimed_claimSet t .patrol n) (patrolOrder s p) _

theorem unclaimed_dropPatrolClaims (s : State) (p : Nat) : unclaimed (dropPatrolClaims s p) = unclaimed s :=
  view_foldl (f := fun t n => dropClaim t .patrol n) (fun _ _ => rfl) (profSt s p).patrolList s

theorem profSt_of_unclaimed {s t : State} (h : unclaimed t = unclaimed s) (p : Nat) : profSt t p = profSt s p :=
  profSt_congr (congrArg Media.prof h :) p

theorem profSt_updProf_other (s : State) {p r : Nat} (hr : r ≠ p) {g : ReclaimSt → ReclaimSt} (hg : (g (profSt s p)).profile = (profSt s p).profile) :
    profSt (updProf s p g) r = profSt s r := by
  have hput := find_put ReclaimSt.profile s.media.prof (hg.trans (profile_profSt s p)) r
  rw [if_neg hr.symm] at hput
  exact congrArg (·.getD (freshProf r)) hput

/-- A profile's running cycle ended and a new one started late (R324). -/
def restartPatrol (s : State) (p : Nat) : State := startPatrol (dropPatrolClaims s p) p true

theorem profSt_restartPatrol (s : State) (p : Nat) : (profSt (restartPatrol s p) p).patrolLate = true ∧ (profSt (restartPatrol s p) p).patrolDone = [] := by
  rw [restartPatrol, profSt_of_unclaimed (unclaimed_startPatrol ..), profSt_updProf _ _ rfl]
  exact ⟨rfl, rfl⟩

theorem profSt_restartPatrol_other (s : State) {p r : Nat} (hr : r ≠ p) : profSt (restartPatrol s p) r = profSt s r := by
  rw [restartPatrol, profSt_of_unclaimed (unclaimed_startPatrol ..), profSt_updProf_other _ hr rfl, profSt_of_unclaimed (unclaimed_dropPatrolClaims s p)]

theorem patrolPause_restartPatrol (s : State) (p : Nat) : (restartPatrol s p).media.patrolPause = s.media.patrolPause :=
  (congrArg Media.patrolPause (unclaimed_startPatrol ..)).trans (congrArg Media.patrolPause (unclaimed_dropPatrolClaims s p) :)

theorem ctxs_restartPatrol (s : State) (p : Nat) : (restartPatrol s p).ctxs = s.ctxs :=
  (ctxs_of_rest (rest_startPatrol (L := but .ctxs) rfl ..) rfl).trans (ctxs_of_rest (rest_dropPatrolClaims (L := but .ctxs) rfl s p) rfl)

/-- Cycles restarted one profile after the other: each stays as its own start left it. -/
theorem profSt_restartAll {s : State} {ps : List Nat} (hnodup : ps.Nodup) {p : Nat} (hp : p ∈ ps) :
    (profSt (ps.foldl restartPatrol s) p).patrolLate = true ∧ (profSt (ps.foldl restartPatrol s) p).patrolDone = [] := by
  have honly : ps.filter (fun r => r == p) = [p] := by
    rw [List.filter_beq, List.count_eq_one_of_mem hnodup hp, List.replicate_one]
  exact foldl_once (key := fun r => r == p) (P := fun _ => True) (Q := fun t => (profSt t p).patrolLate = true ∧ (profSt t p).patrolDone = []) honly
    (fun _ _ _ h => h) (fun t _ => profSt_restartPatrol t p)
    (fun t r hr h => by rwa [profSt_restartPatrol_other t (ne_of_beq_false hr).symm]) trivial

section Patrol

variable {s : State} {cid : Nat} {c : Ctx}

/-- The part with no pause of patrol. -/
def unpaused (s : State) : State := updMedia s (fun m => { m with patrolPause := none })

/-- The profiles with member bays, whose cycles a restart starts anew. -/
def patrolled (s : State) : List Nat := (profileNums s).filter (fun p => !(memberBays s p).isEmpty)

theorem exec_patrolPause (h : actionIn s cid 0x93 0 = some c) :
    exec (.patrolPause cid) s =
      .next (performState (updMedia s (fun m => { m with patrolPause := some (aetSec s.cad.aet + 3600 * bits (eCdw c.dw 0) 23 16) })) cid 3 0 0) := by
  have hexec : exec (.patrolPause cid) s = execPatrolPause cid s := rfl
  simp only [hexec, execPatrolPause, h]

theorem exec_patrolResume (h : actionIn s cid 0x93 1 = some c) : exec (.patrolResume cid) s = .next (performState (unpaused s) cid 3 0 0) := by
  have hexec : exec (.patrolResume cid) s = execPatrolResume cid s := rfl
  simp only [hexec, execPatrolResume, h]
  rfl

theorem exec_patrolRestartCycle (h : actionIn s cid 0x93 2 = some c) :
    exec (.patrolRestartCycle cid) s = settled (performState ((patrolled s).foldl restartPatrol (unpaused s)) cid 3 0 0) := by
  have hexec : exec (.patrolRestartCycle cid) s = execPatrolRestartCycle cid s := rfl
  simp only [hexec, execPatrolRestartCycle, h]
  rfl

theorem media_advanceTo (s : State) (cyc : Nat) : (advanceTo s cyc).media = s.media := media_of_rest (rest_advanceTo (L := but .media) rfl s cyc) rfl

theorem exec_patrolPauseExpiry {cyc u : Nat} (hpause : s.media.patrolPause = some u) (hpast : u ≤ aetSec s.cad.aet) :
    exec (.patrolPauseExpiry cyc) s = .next (unpaused (advanceTo s cyc)) := by
  have hexec : exec (.patrolPauseExpiry cyc) s = execPatrolPauseExpiry cyc s := rfl
  simp only [hexec, execPatrolPauseExpiry, media_advanceTo, hpause, cad_advanceTo, hpast, if_true]
  rfl

end Patrol

/-- Settles O32: the rebuild by its new value, a pause by its end, and a restart by each profile's own start. -/
theorem rebuildAndPatrolAreControlled : Obligations.RebuildAndPatrolAreControlled := by
  unfold Obligations.RebuildAndPatrolAreControlled
  intro s cid c
  refine ⟨fun h hallowed hidle => ?stop, fun h hstopped => ?start, fun h => ?pause, fun h => ?resume, fun h => ?restart, fun cyc u hpause hpast => ?expiry⟩
  case stop => exact ⟨_, exec_rebuildStop h hallowed hidle, setRebuild_performed ((ctxOf_updMedia ..).trans (ctxOf_of_actionIn h)) 3⟩
  case start => exact ⟨_, exec_rebuildStart h hstopped, setRebuild_performed (ctxOf_of_actionIn h) _⟩
  case pause => exact ⟨_, exec_patrolPause h, endedWith_performState ((ctxOf_updMedia ..).trans (ctxOf_of_actionIn h)) .., media_performState ..⟩
  case resume => exact ⟨_, exec_patrolResume h, endedWith_performState ((ctxOf_updMedia ..).trans (ctxOf_of_actionIn h)) .., media_performState ..⟩
  case restart =>
    have hctxs : ((patrolled s).foldl restartPatrol (unpaused s)).ctxs = s.ctxs := view_foldl ctxs_restartPatrol _ _
    have hpause : ((patrolled s).foldl restartPatrol (unpaused s)).media.patrolPause = none :=
      view_foldl (view := fun t => t.media.patrolPause) patrolPause_restartPatrol _ (unpaused s)
    have hmedia := (endCycle_media _).trans (media_performState ((patrolled s).foldl restartPatrol (unpaused s)) cid 3 0 0 none none none)
    refine ⟨_, exec_patrolRestartCycle h, endedWith_congr (endCycle_ctxs _) (endedWith_performState ((ctxOf_congr hctxs cid).trans (ctxOf_of_actionIn h)) ..),
      (congrArg Media.patrolPause hmedia).trans hpause, fun p hp hbays => ?_⟩
    rw [profSt_congr (congrArg Media.prof hmedia)]
    exact profSt_restartAll (List.nodup_range.filter _) (List.mem_filter.mpr ⟨hp, by simp [hbays]⟩)
  case expiry => exact ⟨_, exec_patrolPauseExpiry hpause hpast, congrArg (fun m : Media => { m with patrolPause := none }) (media_advanceTo s cyc)⟩

end Sys2Proof.Proofs
end

section
/-! PROOFS. The turn of the map entry arbiter (R205 to R207): the one waiting update that can be granted, the record that a host command's update
journals and applies, and a maintenance update that fails its compare. -/
namespace Sys2Proof.Proofs
open Sys2Proof Sys2Proof.Machine Sys2Proof.Laws

/-! ## The one update that waits (R205) -/

/-- The part with no update waiting for the arbiter. -/
def unasked (s : State) : State := updEng s (fun e => { e with reqs := [] })

section Turn

variable {s : State} {r : MapReq} (hstop : s.jrnl.stopFrom = none) (hreqs : s.eng.reqs = [r]) (hready : reqReady s r = true) (hdead : reqDead s r = false)

include hreqs hready in
theorem nextReq_single : nextReq s = some r := by simp [nextReq, hreqs, hready]

include hreqs hdead in
theorem dropDead_single : updEng s (fun e => { e with reqs := e.reqs.filter (fun r => !reqDead s r) }) = s := by
  have hkept : s.eng.reqs.filter (fun r => !reqDead s r) = s.eng.reqs := by simp [hreqs, hdead]
  rw [updEng, hkept]

include hreqs hready hdead

theorem mapTurn_single : mapTurn s = settleFull (grantReq (unasked s) r) := by
  have herase : updEng s (fun e => { e with reqs := e.reqs.erase r }) = unasked s := by simp [updEng, unasked, hreqs]
  rw [mapTurn, dropDead_single hreqs hdead]
  simp only [nextReq_single hreqs hready, herase]

include hstop

theorem exec_mapUpdate_single : exec .mapUpdate s = settled (settleFull (grantReq (unasked s) r)) := by
  have hexec : exec .mapUpdate s = execMapUpdate s := rfl
  rw [hexec, execMapUpdate, if_neg (by simp [hstop]), mapTurn_single hreqs hready hdead]

end Turn

/-! ## A record journalled and applied (R205, R241) -/

theorem jrnl_commitRec {s : State} (hstop : s.jrnl.stopFrom = none) (body : JRec) :
    (commitRec s body).jrnl = { s.jrnl with
      nextSeq := s.jrnl.nextSeq + 1, recs := s.jrnl.recs ++ [⟨s.jrnl.nextSeq, body, !mirroring s, false⟩], cleanStands := false } := by
  have hgoes : ¬ s.jrnl.stopFrom.isSome = true := by simp [hstop]
  rw [commitRec, if_neg hgoes, updMap_jrnl, journal, if_neg hgoes]
  exact jrnl_of_rest (rest_mirrorFrame (L := but .jrnl) rfl ..) rfl

theorem map_commitRec {s : State} (hstop : s.jrnl.stopFrom = none) (body : JRec) : (commitRec s body).map = applyRec s.map s.jrnl.nextSeq body := by
  have hmap : (journal s body).map = s.map := map_of_rest (rest_journal (L := but .map) rfl s body) rfl
  rw [commitRec, if_neg (by simp [hstop]), updMap_map, hmap]

/-! ## Updates that still wait after the copies of a segment are brought into step (R201, R203) -/

theorem reqs_spillToHost (s : State) (ns seg : Nat) (t : Tile) : (spillToHost s ns seg t).eng.reqs = s.eng.reqs := by
  simp only [spillToHost]
  repeat' split
  all_goals rfl

theorem reqs_evictFrame (s : State) (f : TileFrame) : (evictFrame s f).eng.reqs = s.eng.reqs := by
  unfold evictFrame
  split
  · exact reqs_spillToHost ..
  · rfl

theorem reqs_fillFrame (s : State) (ns seg : Nat) (t : Tile) : (fillFrame s ns seg t).eng.reqs = s.eng.reqs := by
  simp only [fillFrame]
  split
  case h_1 => rfl
  case h_2 =>
    split
    case h_1 => rfl
    case h_2 =>
      rw [updEng_eng]
      split
      · exact reqs_evictFrame s _
      · rfl

theorem reqs_syncSeg (s : State) (ns seg : Nat) : (syncSeg s ns seg).eng.reqs = s.eng.reqs := by
  have hcache : (syncCache s.eng s.map ns seg).reqs = s.eng.reqs := by unfold syncCache; split <;> rfl
  unfold syncSeg
  split
  · split
    · exact (reqs_fillFrame ..).trans hcache
    · exact (reqs_fillFrame ..).trans hcache
  · exact hcache

theorem reqs_syncSegs (s : State) (ns : Nat) (segs : List Nat) : (syncSegs s ns segs).eng.reqs = s.eng.reqs :=
  view_foldl (view := fun t => t.eng.reqs) (fun t g => reqs_syncSeg t ns g) segs s

/-! ## A host command's update (R206) -/

/-- The record of a host command's update: the range that a DEALLOCATE names, or the runs of the slots that a write was given. -/
def hostRecord (s : State) (r : MapReq) (c : Ctx) : JRec :=
  if eOpcode c.dw == 0x08 then JRec.dealloc c.csn r.ns (eLba c.dw) (eCount c.dw)
  else JRec.map c.csn 0 r.ns (gatherRuns s.map (r.ents.map (fun e => (e.1, e.2.2))) none)

/-- The segments that a host command's update changes. -/
def hostSegs (r : MapReq) (c : Ctx) : List Nat := if eOpcode c.dw == 0x08 then rangeSegs (eLba c.dw) (eCount c.dw) else reqSegs r

/-- The state in which a host command's record is journalled and applied, the copies of its segments are in step and the grant is counted. -/
def hostApplied (s : State) (r : MapReq) (c : Ctx) : State :=
  countEvent (syncSegs (commitRec s (hostRecord s r c)) r.ns (hostSegs r c)) 0x09 0 1

section Host

variable (s : State) (r : MapReq) (c : Ctx)

theorem grantHost_eq : grantHost s r c =
    updCtx (perform (hostApplied s r c) c.cid (copyResults c).1 (copyResults c).2.1 (copyResults c).2.2) c.cid
      (fun c => { c with promised := 0, tTranslate := s.now, awaitAck := if mirroring s then some s.twin.txSeq else none }) := rfl

theorem rest_hostApplied {L : List Part} (hL : sub [.out, .eng, .ctr] L = true) :
    rest L (hostApplied s r c) = rest L (commitRec s (hostRecord s r c)) :=
  (rest_countEvent (sub_trans rfl hL) ..).trans (rest_syncSegs (sub_trans rfl hL) ..)

/-- But for the copies of its segments, its context and the counters, a host update's grant is its record journalled and applied. -/
theorem rest_grantHost_committed : rest [.out, .ctxs, .eng, .ctr] (grantHost s r c) = rest [.out, .ctxs, .eng, .ctr] (commitRec s (hostRecord s r c)) := by
  rw [grantHost_eq]
  exact (rest_updCtx rfl ..).trans ((rest_perform rfl _ _ _ _ _).trans (rest_hostApplied s r c rfl))

theorem reqs_grantHost : (grantHost s r c).eng.reqs = s.eng.reqs := by
  have hcount : (hostApplied s r c).eng = (syncSegs (commitRec s (hostRecord s r c)) r.ns (hostSegs r c)).eng :=
    eng_of_rest (rest_countEvent (L := but .eng) rfl ..) rfl
  have hcommit : (commitRec s (hostRecord s r c)).eng = s.eng := eng_of_rest (rest_commitRec (L := but .eng) rfl ..) rfl
  exact (congrArg MapEng.reqs hcount).trans ((reqs_syncSegs ..).trans (congrArg MapEng.reqs hcommit))

variable {s c}

theorem ctxOf_grantHost {cid : Nat} (hc : ctxOf s cid = some c) :
    ∃ d, ctxOf (grantHost s r c) cid = some d ∧ d.stage = .ended ∧ d.status = (copyResults c).2.2 ∧ d.promised = 0 := by
  obtain rfl := cid_of_ctxOf hc
  have hcommit : (commitRec s (hostRecord s r c)).ctxs = s.ctxs := ctxs_of_rest (rest_commitRec (L := but .ctxs) rfl ..) rfl
  have happlied := (ctxOf_congr ((ctxs_of_rest (rest_hostApplied s r c (L := but .ctxs) rfl) rfl).trans hcommit) c.cid).trans hc
  obtain ⟨d, hd, hstage, hstatus, -⟩ := ctxOf_perform happlied (copyResults c).1 (copyResults c).2.1 (copyResults c).2.2
  exact ⟨_, ctxOf_updCtx hd fun _ h => h, hstage, hstatus, rfl⟩

end Host

theorem grantReq_host {s : State} {r : MapReq} {cid : Nat} {c : Ctx} (hwho : r.who = 0) (hcid : r.cid = some cid) (hc : ctxOf s cid = some c) :
    grantReq s r = grantHost s r c := by
  simp [grantReq, hwho, hcid, hc]

/-! ## A maintenance update whose units have moved on (R207) -/

theorem grantReq_moved {s : State} {r : MapReq} (hhost : r.who ≠ 0) (hlost : r.who ≠ 6) (hwhole : r.whole = none)
    (hmoved : r.ents.all (stillAt s.map r.ns) = false) : grantReq s r = countEvent s 0x0A r.who 1 := by
  simp only [grantReq, beq_iff_eq, hhost, hlost, hwhole, hmoved, if_false, Bool.false_eq_true]
  rfl

/-! ## The obligation -/

/-- The FULL state judged again and the cycle's end leave all but the media cluster, the counters and what events touch. -/
theorem rest_endCycle_settleFull (u : State) : rest (.media :: .ctr :: events) (endCycle (settleFull u)) = rest (.media :: .ctr :: events) u :=
  (rest_endCycle rfl _).trans (rest_settleFull rfl u)

/-- Settles O25: a host command's update by the record that it commits, a maintenance update by the compare that it fails. -/
theorem updatesAreGranted : Obligations.UpdatesAreGranted := by
  unfold Obligations.UpdatesAreGranted
  intro s r hstop hreqs hready hdead
  have hexec := exec_mapUpdate_single hstop hreqs hready hdead
  have hended := rest_endCycle_settleFull (grantReq (unasked s) r)
  refine ⟨fun cid c hwho hcid hc => ?host, fun hhost hlost hwhole hmoved => ?moved⟩
  case host =>
    have hcommitted := rest_grantHost_committed (unasked s) r c
    rw [grantReq_host (s := unasked s) hwho hcid hc] at hexec hended
    refine ⟨_, hexec, ?_, ?_, ?_, ?_⟩
    · exact (congrArg MapEng.reqs (eng_of_rest hended rfl)).trans (reqs_grantHost (unasked s) r c)
    · exact (map_of_rest hended rfl).trans ((map_of_rest hcommitted rfl).trans (map_commitRec (s := unasked s) hstop _))
    · exact congrArg Jrnl.recs ((jrnl_of_rest hended rfl).trans ((jrnl_of_rest hcommitted rfl).trans (jrnl_commitRec (s := unasked s) hstop _)))
    · obtain ⟨d, hd, hperformed⟩ := ctxOf_grantHost (s := unasked s) r hc
      exact ⟨d, (ctxOf_congr (ctxs_of_rest hended rfl) cid).trans hd, hperformed⟩
  case moved =>
    rw [grantReq_moved (s := unasked s) hhost hlost hwhole hmoved] at hexec hended
    have hkept := hended.trans (rest_countEvent rfl (unasked s) 0x0A r.who 1)
    exact ⟨_, hexec, congrArg MapEng.reqs (eng_of_rest hkept rfl), (map_of_rest hkept rfl :), (jrnl_of_rest hkept rfl :)⟩

end Sys2Proof.Proofs
end

section
/-! PROOFS. The end of a restart and the loss of a DRAM channel (R212, R256, R264, R425): when a restart is over, what sets FAILED, and what of the tile
tier, of staged data and of Pod 4 a channel takes with it. -/
namespace Sys2Proof.Proofs
open Sys2Proof Sys2Proof.Machine Sys2Proof.Laws

/-! ## FAILED (R26) -/

theorem failedSet_failPart (s : State) (keeperFailed : Bool) : failedSet (failPart s keeperFailed) = true := by
  unfold failPart
  split
  case isTrue h => exact h
  case isFalse h =>
    have hnew : flag (setFlags s [(bFailed, true)]).cond bFailed = true :=
      flag_setFlags_single (eq_false_of_ne_true h) (by decide) (by decide) (by decide) true
    have hrefused : ∀ (l : List Nat) (t : State), (l.foldl (fun t cid => refuseNow t cid 0x7001 0xFF) t).cond = t.cond := fun l t =>
      view_foldl (view := State.cond) (fun t cid => cond_of_rest (rest_refuseNow (L := but .cond) rfl t cid ..) rfl) l t
    have hstopped : ∀ t skip, (beginStop t .failed skip (!keeperFailed)).cond = t.cond := fun t skip =>
      cond_of_rest (rest_beginStop (L := but .cond) rfl t ..) rfl
    rw [failedSet, hstopped]
    split
    · rw [cond_of_rest (rest_sendFrame (L := but .cond) rfl ..) rfl, hrefused]
      exact hnew
    · rw [hrefused]
      exact hnew

theorem notReady_of_cleared {t : State} (h : flag (setFlags t [(bNotReady, false)]).cond bFailed = false) :
    flag (setFlags t [(bNotReady, false)]).cond bNotReady = false := by
  by_cases hfailed : flag t.cond bFailed = true
  · have hcond : (setFlags t [(bNotReady, false)]).cond = t.cond := nextCond_of_failed hfailed ..
    rw [hcond, hfailed] at h
    cases h
  · exact flag_setFlags_single (eq_false_of_ne_true hfailed) (by decide) (by decide) (by decide) false

/-! ## The end of a restart (R256, R264) -/

/-- The step counter of a restart cleared, and NOT_READY with it (R256). -/
def restartCleared (u : State) : State :=
  updTwin (setFlags (updKf u (fun k => { k with restartStep := 0 })) [(bNotReady, false)]) (fun x => { x with gapPins := false })

/-- The cycle noted in which the part became ready. -/
def readyNoted (t : State) : State := updMedia t (fun m => { m with readyAt := some t.now })

/-- A late patrol cycle started in each profile with member bays (R319). -/
def patrolsStarted (t : State) : State := (profileNums t).foldl (fun t p => if (memberBays t p).isEmpty then t else startPatrol t p true) t

/-- What ends a restart, from the state that its steps have left. -/
def restartReady (u : State) : State :=
  let t := restartCleared u
  recomputeHorizon (patrolsStarted (readyNoted (slotEvents t (slotsOf t.kf.boot.trial t.kf.boot.active) 2 0)))

section Restart

variable {s : State} {cyc : Nat} {found : RestartFind} (hstep : s.kf.restartStep = 2) (hown : isOwner s = true) (hstop : s.jrnl.stopFrom = none)
include hstep hown hstop

theorem restartDue_advanceTo (cyc : Nat) :
    ((advanceTo s cyc).kf.restartStep != 2 || !isOwner (advanceTo s cyc) || (advanceTo s cyc).jrnl.stopFrom.isSome) = false := by
  have hrest := rest_advanceTo (L := [.now, .power, .ctr]) rfl s cyc
  have howner : isOwner (advanceTo s cyc) = true := by rwa [isOwner, twin_of_rest hrest rfl]
  simp [howner, hstep, jrnl_of_rest hrest rfl, hstop]

theorem exec_restartComplete_restored (hmap : found.mapRestorable = true) :
    ∃ u, exec (.restartComplete cyc found) s = settled (settleFull (restartReady u)) := by
  have hexec : exec (.restartComplete cyc found) s = execRestartComplete cyc found s := rfl
  rw [hexec, execRestartComplete]
  simp only [restartDue_advanceTo hstep hown hstop cyc, hmap, Bool.false_eq_true, if_false, Bool.not_true]
  exact ⟨_, rfl⟩

theorem exec_restartComplete_lost (hmap : found.mapRestorable = false) :
    exec (.restartComplete cyc found) s = settled (failPart (advanceTo s cyc) false) := by
  have hexec : exec (.restartComplete cyc found) s = execRestartComplete cyc found s := rfl
  rw [hexec, execRestartComplete]
  simp only [restartDue_advanceTo hstep hown hstop cyc, hmap, Bool.false_eq_true, if_false, Bool.not_false, if_true]

end Restart

theorem rest_restartReady (u : State) : rest [.raised, .media] (restartReady u) = rest [.raised, .media] (restartCleared u) := by
  have hpatrols : ∀ t, rest [.raised, .media] (patrolsStarted t) = rest [.raised, .media] t := fun t =>
    rest_foldl _ (fun t p => by split; exacts [rfl, rest_startPatrol rfl ..]) _ t
  exact (rest_recomputeHorizon rfl _).trans ((hpatrols _).trans ((rest_updMedia rfl ..).trans (rest_slotEvents rfl ..)))

theorem readyAt_startPatrol (s : State) (p : Nat) (late : Bool) : (startPatrol s p late).media.readyAt = s.media.readyAt :=
  (congrArg Media.readyAt (unclaimed_startPatrol s p late) :)

theorem readyAt_patrolsStarted (s : State) : (patrolsStarted s).media.readyAt = s.media.readyAt :=
  view_foldl (view := fun t => t.media.readyAt) (fun t p => by split; exacts [rfl, readyAt_startPatrol ..]) _ s

theorem readyAt_settleAlert (s : State) : (settleAlert s).media.readyAt = s.media.readyAt := by
  simp only [settleAlert]
  repeat' split
  all_goals rfl

theorem readyAt_settleLowered (s : State) (p : Nat) : (settleLowered s p).media.readyAt = s.media.readyAt := by
  simp only [settleLowered]
  split <;> rfl

theorem readyAt_recomputeHorizon (s : State) : (recomputeHorizon s).media.readyAt = s.media.readyAt :=
  (view_foldl (view := fun t => t.media.readyAt) readyAt_settleLowered _ _).trans (readyAt_settleAlert _)

theorem readyAt_settleFull (s : State) : (settleFull s).media.readyAt = s.media.readyAt := by
  simp only [settleFull]
  repeat' split
  all_goals rfl

theorem readyAt_restartReady (u : State) : (restartReady u).media.readyAt = some (restartReady u).now := by
  have hnow : (slotEvents (restartCleared u) (slotsOf u.kf.boot.trial u.kf.boot.active) 2 0).now = (restartCleared u).now :=
    now_of_rest (rest_slotEvents (L := [.raised]) rfl ..) rfl
  rw [now_of_rest (rest_restartReady u) rfl, ← hnow]
  exact (readyAt_recomputeHorizon _).trans (readyAt_patrolsStarted _)

/-! ## The loss of a DRAM channel (R212, R425) -/

/-- A channel out of service: its clean tiles, its staged data and its units of Pod 4 gone. -/
def channelLost (ch : Nat) (staged : List (Nat × Nat)) (s : State) : State :=
  { s with
    eng := { s.eng with dramLost := s.eng.dramLost ||| BitVec.ofNat 4 (2 ^ ch), dram := s.eng.dram.filter (fun f => f.dirty || !onChannel ch f) }
    ctxs := s.ctxs.map (loseStaged staged)
    pods := { s.pods with used := s.pods.used.filter (fun u => !(u.1 == 4 && u.2.1 % 4 == ch)) } }

/-- What the part does once a channel is out of service: the tier is placed again, or a second loss fails the part. -/
def afterLoss (second : Bool) (t : State) : State := if second then failPart t false else settleFull (sizeTier t)

theorem afterLoss_second (t : State) : afterLoss true t = failPart t false := if_pos rfl

theorem afterLoss_first (t : State) : afterLoss false t = settleFull (sizeTier t) := if_neg Bool.false_ne_true

theorem exec_dramChannelLoss {s : State} {ch : Nat} (staged : List (Nat × Nat)) (hch : ch < 4) (hon : s.eng.dramLost.getLsbD ch = false)
    (hrun : s.kf.porst = false) : exec (.dramChannelLoss ch staged) s = settled (afterLoss (s.eng.dramLost != 0) (channelLost ch staged s)) := by
  have hexec : exec (.dramChannelLoss ch staged) s = execDramChannelLoss ch staged s := rfl
  have hdue : ¬ (decide (4 ≤ ch) || s.eng.dramLost.getLsbD ch || s.kf.porst) = true := by
    rw [hon, hrun, decide_eq_false (by omega)]
    decide
  rw [hexec, execDramChannelLoss, if_neg hdue]
  exact (apply_ite settled _ _ _).symm

/-! ### The tile tier placed again (R202, R212) -/

theorem mem_placeFrame {n : Nat} {l : List TileFrame} {f x : TileFrame} (h : x ∈ placeFrame n l f) : x ∈ l ∨ (x.ns = f.ns ∧ x.seg = f.seg) := by
  simp only [placeFrame] at h
  split at h
  · rcases List.mem_append.mp h with hold | hnew
    · exact .inl hold
    · obtain rfl := List.mem_singleton.mp hnew
      exact .inr ⟨rfl, rfl⟩
  · exact .inl h

theorem mem_foldl_placeFrame {n : Nat} {x : TileFrame} :
    ∀ {l acc : List TileFrame}, x ∈ l.foldl (placeFrame n) acc → x ∈ acc ∨ ∃ g ∈ l, x.ns = g.ns ∧ x.seg = g.seg
  | [], _, h => .inl h
  | f :: l, acc, h => by
    rcases mem_foldl_placeFrame (l := l) h with hplaced | ⟨g, hg, hsame⟩
    · rcases mem_placeFrame hplaced with hold | hsame
      · exact .inl hold
      · exact .inr ⟨f, List.mem_cons_self, hsame⟩
    · exact .inr ⟨g, List.mem_cons_of_mem _ hg, hsame⟩

/-- Every tile of a tier placed again lay in the tier. -/
theorem mem_replaceTier {n : Nat} {l : List TileFrame} {x : TileFrame} (h : x ∈ replaceTier n l) : ∃ g ∈ l, x.ns = g.ns ∧ x.seg = g.seg := by
  rcases mem_foldl_placeFrame h with hnone | ⟨g, hg, hsame⟩
  · cases hnone
  · rcases List.mem_append.mp hg with hdirty | hclean
    · exact ⟨g, List.mem_of_mem_filter hdirty, hsame⟩
    · exact ⟨g, List.mem_of_mem_filter hclean, hsame⟩

theorem unasked_askMap (s : State) (r : MapReq) : unasked (askMap s r) = unasked s := rfl

theorem unasked_congr {s t : State} (h : t.eng = s.eng) : (unasked t).eng = (unasked s).eng := by rw [unasked, unasked, updEng_eng, updEng_eng, h]

/-- A tile written back leaves of the engine all but the waiting updates. -/
theorem unasked_writeTile (s : State) (ns seg : Nat) : (unasked (writeTile s ns seg)).eng = (unasked s).eng := by
  unfold writeTile
  split
  case h_2 => rfl
  case h_1 =>
    split
    case h_1 => rfl
    case h_2 s' _ hplace =>
      have hplaced : s'.eng = s.eng := eng_of_rest (rest_placeSlot (L := but .eng) rfl _ _ _ _ _ _ hplace) rfl
      rw [unasked_askMap]
      split
      · exact unasked_congr hplaced
      · exact unasked_congr ((updMedia_eng ..).trans hplaced)

/-- The tier placed again over the sets that the channels in service hold. -/
def tierReplaced (e : MapEng) (n : Nat) : MapEng := { e with dramSets := n, dram := replaceTier n e.dram }

/-- But for updates asked for, the tier's size judged again leaves the engine as it is, or its frames placed again (R203, R212). -/
theorem unasked_sizeTier (s : State) :
    (unasked (sizeTier s)).eng = (unasked s).eng ∨ (unasked (sizeTier s)).eng = tierReplaced (unasked s).eng (tierSets s) := by
  simp only [sizeTier]
  split
  · exact .inl rfl
  · exact .inr (view_foldl (view := fun t => (unasked t).eng) (fun t f => by split; exacts [rfl, unasked_writeTile ..]) _ _)

theorem dramLost_unasked (s : State) : (unasked s).eng.dramLost = s.eng.dramLost := rfl

theorem dram_unasked (s : State) : (unasked s).eng.dram = s.eng.dram := rfl

theorem dramLost_sizeTier (s : State) : (sizeTier s).eng.dramLost = s.eng.dramLost := by
  rw [← dramLost_unasked]
  rcases unasked_sizeTier s with h | h
  · rw [h, dramLost_unasked]
  · rw [h, tierReplaced, dramLost_unasked]

theorem mem_dram_sizeTier {s : State} {f : TileFrame} (h : f ∈ (sizeTier s).eng.dram) : ∃ g ∈ s.eng.dram, f.ns = g.ns ∧ f.seg = g.seg := by
  rw [← dram_unasked] at h
  rcases unasked_sizeTier s with hsame | hplaced
  · rw [hsame, dram_unasked] at h
    exact ⟨f, h, rfl, rfl⟩
  · rw [hplaced, tierReplaced, dram_unasked] at h
    exact mem_replaceTier h

/-! ### What stands after the loss -/

theorem rest_afterLoss_first (t : State) : rest [.health, .eng, .media, .ctr] (afterLoss false t) = rest [.health, .eng, .media, .ctr] t := by
  rw [afterLoss_first]
  exact (rest_settleFull rfl _).trans (rest_sizeTier rfl t)

theorem eng_afterLoss_second (t : State) : (afterLoss true t).eng = t.eng := by
  rw [afterLoss_second]
  exact eng_of_rest (rest_failPart (L := but .eng) rfl t false) rfl

theorem eng_afterLoss_first (t : State) : (afterLoss false t).eng = (sizeTier t).eng := by
  rw [afterLoss_first]
  exact eng_of_rest (rest_settleFull (L := but .eng) rfl _) rfl

theorem pods_afterLoss (second : Bool) (t : State) : (afterLoss second t).pods = t.pods := by
  cases second with
  | true =>
    rw [afterLoss_second]
    exact pods_of_rest (rest_failPart (L := but .pods) rfl t false) rfl
  | false => exact pods_of_rest (rest_afterLoss_first t) rfl

theorem dramLost_afterLoss (second : Bool) (t : State) : (afterLoss second t).eng.dramLost = t.eng.dramLost := by
  cases second with
  | true => rw [eng_afterLoss_second]
  | false => rw [eng_afterLoss_first, dramLost_sizeTier]

theorem mem_dram_afterLoss {second : Bool} {t : State} {f : TileFrame} (h : f ∈ (afterLoss second t).eng.dram) :
    ∃ g ∈ t.eng.dram, f.ns = g.ns ∧ f.seg = g.seg := by
  cases second with
  | true =>
    rw [eng_afterLoss_second] at h
    exact ⟨f, h, rfl, rfl⟩
  | false =>
    rw [eng_afterLoss_first] at h
    exact mem_dram_sizeTier h

/-- Settles O41: a restart by what its end clears or its lost map sets, the loss of a channel by what it leaves of the tier, the contexts and Pod 4. -/
theorem restartsCompleteAndDramIsLost : Obligations.RestartsCompleteAndDramIsLost := by
  unfold Obligations.RestartsCompleteAndDramIsLost
  intro s cyc found ch staged
  refine ⟨fun hstep hown hstop hmap => ?restored, fun hstep hown hstop hmap => ?lost, fun hch hon hrun => ?channel⟩
  case restored =>
    obtain ⟨u, hexec⟩ := exec_restartComplete_restored (cyc := cyc) hstep hown hstop hmap
    have hsettled := rest_endCycle_settleFull (restartReady u)
    have hready := rest_restartReady u
    have hcond : (endCycle (settleFull (restartReady u))).cond = (restartCleared u).cond :=
      (cond_of_rest hsettled rfl).trans (cond_of_rest hready rfl)
    refine ⟨_, hexec, ?_, ?_, fun hfailed => ?_⟩
    · exact congrArg Kf.restartStep ((kf_of_rest hsettled rfl).trans (kf_of_rest hready rfl))
    · rw [endCycle_media, readyAt_settleFull, readyAt_restartReady, now_of_rest hsettled rfl]
    · rw [failedSet, hcond] at hfailed
      rw [notReady, hcond]
      exact notReady_of_cleared hfailed
  case lost =>
    exact ⟨_, exec_restartComplete_lost hstep hown hstop hmap, (congrArg (flag · bFailed) (endCycle_cond _)).trans (failedSet_failPart ..)⟩
  case channel =>
    refine ⟨_, exec_dramChannelLoss staged hch hon hrun, ?_, fun f hf => ?_, fun hfirst => ?_, fun hsecond => ?_, fun u hu hgone => ?_⟩
    · rw [endCycle_eng, dramLost_afterLoss]
      rfl
    · rw [endCycle_eng] at hf
      obtain ⟨g, hg, hns, hseg⟩ := mem_dram_afterLoss hf
      obtain ⟨hmem, hkept⟩ := List.mem_filter.mp hg
      exact ⟨g, hmem, hns.symm, hseg.symm, by simpa using hkept⟩
    · have hone : (s.eng.dramLost != 0) = false := by simp [hfirst]
      rw [hone, endCycle_ctxs, ctxs_of_rest (rest_afterLoss_first _) rfl]
      rfl
    · have htwo : (s.eng.dramLost != 0) = true := by simpa using hsecond
      rw [htwo, afterLoss_second]
      exact (congrArg (flag · bFailed) (endCycle_cond _)).trans (failedSet_failPart ..)
    · rw [endCycle_pods, pods_afterLoss] at hu
      obtain ⟨-, hkept⟩ := List.mem_filter.mp hu
      simp [hgone] at hkept

end Sys2Proof.Proofs
end

section
/-! PROOFS. Members (R239, R341, R343, R346, R354, R357, R366): the stripe-journal record made in its two copies, the descriptor rewritten one copy after
the other, the member failure recorded on its bay or die, and the state that the rebuild takes. -/
namespace Sys2Proof.Proofs
open Sys2Proof Sys2Proof.Machine Sys2Proof.Laws

/-! ## Stripe-journal records (R341, R343) -/

theorem field_of_steady {β : Type} {s t : State} (h : steady t = steady s) (g : Media → β) (hg : ∀ m, g (steadyMedia m) = g m := by intro _; rfl) :
    g t.media = g s.media := by
  have hmedia : steadyMedia t.media = steadyMedia s.media := h
  rw [← hg t.media, hmedia, hg]

theorem steady_placeMany (seq kind who : Nat) (l : List (Nat × List Byte)) (s : State) : steady (placeMany s seq kind who l).1 = steady s := by
  induction l generalizing s with
  | nil => rfl
  | cons x xs ih =>
    rw [placeMany]
    split
    · rename_i o k _ _
      dsimp only
      split
      · rfl
      · rename_i t r hstart
        have hrow : steady t = steady s := by
          split at hstart
          · cases hstart; rfl
          · split at hstart
            · cases hstart; rfl
            · cases hstart
        split
        · rfl
        · rename_i hput
          exact (ih _).trans ((steady_putSlot hput).trans hrow)
    · rfl

theorem steady_placePage {s t : State} {seq kind who tag : Nat} {bs : List Byte} {a : Madr} (h : placePage s seq kind who tag bs = some (t, a)) :
    steady t = steady s := by
  unfold placePage placeRun at h
  dsimp only at h
  split at h
  · rename_i hrun
    split at hrun
    · cases h
      exact (congrArg (fun z => steady z.1) (Option.some.inj hrun)).symm.trans (steady_placeMany ..)
    · cases hrun
  · cases h

theorem steady_skipBay (s : State) (seq who bay n : Nat) : steady (skipBay s seq who bay n) = steady s := by
  induction n generalizing s with
  | zero => rfl
  | succ n ih =>
    rw [skipBay]
    split
    · split
      · rfl
      · split
        · rfl
        · split
          · rfl
          · rw [ih]
            split
            · rw [steady_programParity, steady_updRow, steady_writePage]
            · rw [steady_updRow, steady_writePage]
    · rfl

/-- The set that takes a record, with a covered row for it, at the beginning of a page. -/
def coveredFor (s : State) (o : OpenSet) : State :=
  alignPage (updOpen s o.seq (fun x => if x.nextRow < x.limitRow then x else { x with limitRow := x.nextRow + 2 })) o.seq 1

theorem steady_coveredFor (s : State) (o : OpenSet) : steady (coveredFor s o) = steady s := (steady_alignPage ..).trans (steady_updOpen ..)

theorem cad_coveredFor (s : State) (o : OpenSet) : (coveredFor s o).cad = s.cad := cad_of_rest (rest_alignPage (L := but .cad) rfl ..) rfl

/-- A record whose two copies find their pages. -/
structure CopiesPlaced (s : State) (o : OpenSet) (es : List SjEntry) (t2 t3 : State) (a b : Madr) : Prop where
  first : placePage (coveredFor s o) o.seq 6 1 s.media.sjSeq (stripeBytes s.media.sjSeq s.cad.aet 0 es) = some (t2, a)
  second : placePage (skipBay t2 o.seq 1 a.bay 4096) o.seq 6 1 s.media.sjSeq (stripeBytes s.media.sjSeq s.cad.aet 1 es) = some (t3, b)

section CopiesPlaced

variable {s t2 t3 : State} {o : OpenSet} {es : List SjEntry} {a b : Madr} (h : CopiesPlaced s o es t2 t3 a b)
include h

theorem CopiesPlaced.steady_first : steady (skipBay t2 o.seq 1 a.bay 4096) = steady s :=
  (steady_skipBay ..).trans ((steady_placePage h.first).trans (steady_coveredFor s o))

theorem CopiesPlaced.cad_first : (skipBay t2 o.seq 1 a.bay 4096).cad = s.cad :=
  (cad_of_rest (rest_skipBay (L := but .cad) rfl ..) rfl).trans
    ((cad_of_rest (rest_placePage_eq (L := but .cad) rfl _ _ _ _ _ _ h.first) rfl).trans (cad_coveredFor s o))

theorem CopiesPlaced.sjSeq_second : t3.media.sjSeq = s.media.sjSeq :=
  field_of_steady ((steady_placePage h.second).trans h.steady_first) Media.sjSeq

end CopiesPlaced

/-- A record placed counts as the newest one, and waits to become cover (R341, R343). -/
theorem media_makeStripeRecord {s t2 t3 : State} {o : OpenSet} {a b : Madr} (h : CopiesPlaced s o (sjEntries s) t2 t3 a b) :
    ∃ w, w.copyA = a ∧ w.copyB = b ∧ w.entries = sjEntries s ∧ (makeStripeRecord s o).media =
      { t3.media with
        sjSeq := t3.media.sjSeq + 1, sj := sjEntries s, sjBays := BitVec.ofNat 16 (2 ^ a.bay ||| 2 ^ b.bay)
        sjWait := t3.media.sjWait ++ [w], sjDue := false } := by
  have hframe : (mirrorFrame t3 (.frontier (sjEntries s))).media = t3.media := media_of_rest (rest_mirrorFrame (L := but .media) rfl ..) rfl
  have hseq1 : (coveredFor s o).media.sjSeq = s.media.sjSeq := field_of_steady (steady_coveredFor s o) Media.sjSeq
  have hseq2 : (skipBay t2 o.seq 1 a.bay 4096).media.sjSeq = s.media.sjSeq := field_of_steady h.steady_first Media.sjSeq
  have hfirst := h.first
  have hsecond := h.second
  rw [← hseq1, ← cad_coveredFor s o] at hfirst
  rw [← hseq2, ← h.cad_first] at hsecond
  unfold coveredFor at hfirst
  refine ⟨⟨a, b, if mirroring t3 then some t3.twin.txSeq else none, sjEntries s⟩, rfl, rfl, rfl, ?_⟩
  simp only [makeStripeRecord, hfirst, hsecond, updMedia_media, hframe]

theorem stripeRecord_made {s t2 t3 : State} {o : OpenSet} {a b : Madr} (hstop : s.jrnl.stopFrom = none) (htarget : sjTarget s = some o)
    (hdue : recordDue s = true) (h : CopiesPlaced s o (sjEntries s) t2 t3 a b) :
    ∃ t, exec .stripeJournalRecord s = .next t ∧ t.media.sjSeq = s.media.sjSeq + 1 ∧ t.media.sj = sjEntries s ∧ t.media.sjDue = false ∧
      ∃ w ∈ t.media.sjWait, w.copyA = a ∧ w.copyB = b ∧ w.entries = sjEntries s := by
  have hexec : exec .stripeJournalRecord s = execStripeJournalRecord s := rfl
  simp only [execStripeJournalRecord, htarget, hstop, hdue] at hexec
  obtain ⟨w, hA, hB, hentries, hmedia⟩ := media_makeStripeRecord h
  have hfull := steady_settleFull (makeStripeRecord s o)
  have hseq := field_of_steady hfull Media.sjSeq
  have hsj := field_of_steady hfull Media.sj
  have hdone := field_of_steady hfull Media.sjDue
  have hwait := field_of_steady hfull Media.sjWait
  rw [hmedia] at hseq hsj hdone hwait
  exact ⟨_, hexec, hseq.trans (by rw [h.sjSeq_second]), hsj, hdone, w, hwait ▸ List.mem_append_right _ (List.mem_singleton_self _), hA, hB, hentries⟩

/-! ## Descriptors rewritten (R239) -/

theorem setCopy_bay (copy seq : Nat) (frames : List (List Byte)) (b : Bay) : (setCopy copy seq frames b).bay = b.bay := by
  unfold setCopy
  split <;> rfl

theorem setCopy_first (seq : Nat) (frames : List (List Byte)) (b : Bay) : setCopy 0 seq frames b = { b with seqA := seq, copyA := frames } := rfl

theorem setCopy_second {copy : Nat} (h : copy ≠ 0) (seq : Nat) (frames : List (List Byte)) (b : Bay) :
    setCopy copy seq frames b = { b with seqB := seq, copyB := frames } := by simp [setCopy, h]

theorem bayOf_issueRewrite (s : State) (bay n : Nat) : bayOf (issueRewrite s bay) n = bayOf s n := by
  unfold issueRewrite
  split
  · rfl
  · split
    · exact bayOf_congr (field_of_steady (steady_issueOp ..) Media.bays) n
    · rfl

/-- A copy whose rewrite begins is readable no more, and the rewrite stands at its first operation. -/
theorem bayOf_beginCopy {s : State} {b x : Bay} (hx : bayOf s b.bay = some x) (copy seq : Nat) (second : Bool) :
    ∃ w, bayOf (beginCopy s b copy seq second) b.bay = some { setCopy copy 0 [] x with rewrite := some w } ∧
      w.copy = copy ∧ w.second = second ∧ w.seq = seq ∧ w.step = 0 := by
  refine ⟨⟨copy, second, seq, 0, copyFrames s { b with imageId := s.kf.run.imageId } copy seq (bayHighSeq s b.bay)⟩, ?_, rfl, rfl, rfl, rfl⟩
  rw [beginCopy, bayOf_issueRewrite]
  exact bayOf_updBay (f := fun x => { setCopy copy 0 [] x with rewrite := some _ }) hx (setCopy_bay copy 0 [])

section Rewrite

variable {s : State} {b : Bay} (hb : bayOf s b.bay = some b) (hmay : mayRewrite s b = true)
include hb hmay

theorem rewrite_begins (hnone : b.rewrite = none) (hdue : rewriteDue s b = true) (readBack : List (List Byte)) :
    ∃ t x w, exec (.descriptorRewrite b.bay readBack) s = .next t ∧ bayOf t b.bay = some x ∧ x.rewrite = some w ∧ w.second = false ∧ w.step = 0 ∧
      w.seq = Nat.max b.seqA b.seqB + 1 ∧ (b.seqA ≤ b.seqB → w.copy = 0 ∧ x.seqA = 0 ∧ x.copyA = [] ∧ x.seqB = b.seqB) ∧
      (b.seqB < b.seqA → w.copy = 1 ∧ x.seqB = 0 ∧ x.copyB = [] ∧ x.seqA = b.seqA) := by
  have hexec : exec (.descriptorRewrite b.bay readBack) s = execDescriptorRewrite b.bay readBack s := rfl
  simp only [execDescriptorRewrite, hb, hmay, hnone, hdue] at hexec
  obtain ⟨w, hw, hcopy, hsecond, hseq, hstep⟩ := bayOf_beginCopy hb (if b.seqA ≤ b.seqB then 0 else 1) (Nat.max b.seqA b.seqB + 1) false
  refine ⟨_, _, w, hexec, hw, rfl, hsecond, hstep, hseq, fun hle => ?_, fun hlt => ?_⟩
  · rw [if_pos hle] at hcopy
    rw [if_pos hle, setCopy_first]
    exact ⟨hcopy, rfl, rfl, rfl⟩
  · rw [if_neg (Nat.not_le.mpr hlt)] at hcopy
    rw [if_neg (Nat.not_le.mpr hlt), setCopy_second Nat.one_ne_zero]
    exact ⟨hcopy, rfl, rfl, rfl⟩

variable {r : Rewrite} {readBack : List (List Byte)} (hr : b.rewrite = some r) (hended : rewriteOp s b r = none)
include hr hended

theorem exec_rewrite_good (hgood : readBackGood r readBack = true) : exec (.descriptorRewrite b.bay readBack) s = .next (standCopy s b r) := by
  have hexec : exec (.descriptorRewrite b.bay readBack) s = execDescriptorRewrite b.bay readBack s := rfl
  simpa [execDescriptorRewrite, hb, hmay, hr, hended, hgood] using hexec

theorem rewrite_first_stands (hgood : readBackGood r readBack = true) (hfirst : r.second = false) :
    ∃ t x w, exec (.descriptorRewrite b.bay readBack) s = .next t ∧ bayOf t b.bay = some x ∧ x.rewrite = some w ∧ w.second = true ∧
      w.copy = 1 - r.copy ∧ w.seq = r.seq ∧ (r.copy = 0 → x.seqA = r.seq ∧ x.copyA = r.frames) := by
  have hstands := bayOf_updBay (f := setCopy r.copy r.seq r.frames) hb (setCopy_bay _ _ _)
  have hexec := exec_rewrite_good hb hmay hr hended hgood
  simp only [standCopy, hfirst, hstands, Bool.not_false, if_true] at hexec
  have hbay := setCopy_bay r.copy r.seq r.frames b
  obtain ⟨w, hw, hcopy, hsecond, hseq, -⟩ := bayOf_beginCopy (b := setCopy r.copy r.seq r.frames b) (by rw [hbay]; exact hstands) (1 - r.copy) r.seq true
  rw [hbay] at hw
  refine ⟨_, _, w, hexec, hw, rfl, hsecond, hcopy, hseq, fun hzero => ?_⟩
  rw [hzero, setCopy_first, setCopy_second (by decide)]
  exact ⟨rfl, rfl⟩

theorem rewrite_second_stands (hgood : readBackGood r readBack = true) (hsecond : r.second = true) :
    ∃ t x, exec (.descriptorRewrite b.bay readBack) s = .next t ∧ bayOf t b.bay = some x ∧ x.rewrite = none ∧ x.lastBlockSeq = bayHighSeq s b.bay ∧
      (r.copy = 0 → x.seqA = r.seq ∧ x.copyA = r.frames) ∧ (r.copy ≠ 0 → x.seqB = r.seq ∧ x.copyB = r.frames) := by
  have hstands := bayOf_updBay (f := setCopy r.copy r.seq r.frames) hb (setCopy_bay _ _ _)
  have hexec := exec_rewrite_good hb hmay hr hended hgood
  simp only [standCopy, hsecond, Bool.not_true, Bool.false_eq_true, if_false] at hexec
  refine ⟨_, _, hexec, bayOf_updBay hstands fun _ => rfl, rfl, rfl, fun hzero => ?_, fun hne => ?_⟩
  · rw [hzero, setCopy_first]
    exact ⟨rfl, rfl⟩
  · rw [setCopy_second hne]
    exact ⟨rfl, rfl⟩

theorem rewrite_abandoned (hbad : readBackGood r readBack = false) :
    ∃ t, exec (.descriptorRewrite b.bay readBack) s = .next t ∧ bayOf t b.bay = some { b with rewrite := none } := by
  have hexec : exec (.descriptorRewrite b.bay readBack) s = execDescriptorRewrite b.bay readBack s := rfl
  simp only [execDescriptorRewrite, hb, hmay, hr, hended, hbad] at hexec
  exact ⟨_, hexec, bayOf_updBay hb fun _ => rfl⟩

end Rewrite

/-! ## Member failures (R346, R366) -/

theorem exec_memberFailure {s : State} {n : Nat} {b : Bay} (hb : bayOf s n = some b) (hm : b.st = .member ∨ b.st = .evacuating) :
    exec (.memberFailure n none) s = settled (recomputeHorizon (bayFail s n)) ∧
      ∀ d, b.dies.contains d = true → exec (.memberFailure n (some d)) s = settled (dieFail s ⟨n, d / 32, d % 32⟩) := by
  have hmember : (b.st != .member && b.st != .evacuating) = false := by rcases hm with h | h <;> simp [h]
  have hexec : ∀ die, exec (.memberFailure n die) s = execMemberFailure n die s := fun _ => rfl
  refine ⟨?_, fun d hd => ?_⟩
  · rw [hexec]; simp [execMemberFailure, hb, hmember]
  · rw [hexec]
    simp only [execMemberFailure, hb, hmember, hd, Bool.false_eq_true, if_false, if_true]

theorem bay_member_fails {s : State} {n : Nat} {b : Bay} (hb : bayOf s n = some b) (hm : b.st = .member ∨ b.st = .evacuating) :
    ∃ t x, exec (.memberFailure n none) s = .next t ∧ bayOf t n = some x ∧ x.st = .failed ∧ x.connected = false ∧ x.pwrEn = false ∧
      ∃ f ∈ t.media.fails, f.bay = n ∧ f.die = none := by
  obtain ⟨y, hy, hfailed, ⟨hc, hpw, -⟩, -, -⟩ := bayOf_bayFail hb
  obtain ⟨z, hz, hsame⟩ := bayOf_recomputeHorizon hy
  obtain ⟨f, hf, hrecord⟩ := fails_bayFail hb hm
  refine ⟨_, z, (exec_memberFailure hb hm).1, next_settled hz, (field_of_shareless hsame Bay.st).trans hfailed,
    (field_of_shareless hsame Bay.connected).trans hc, (field_of_shareless hsame Bay.pwrEn).trans hpw, f, ?_, hrecord⟩
  rw [endCycle_media, fails_of_seats (seats_recomputeHorizon (bayFail s n))]
  exact hf

/-- A bay that fails keeps the list of its failed dies. -/
theorem failedDies_bayFail {s : State} {n : Nat} {x : Bay} (hx : bayOf s n = some x) :
    ∃ y, bayOf (bayFail s n) n = some y ∧ y.failedDies = x.failedDies := by
  have hrecord : bayOf (if x.st == .member || x.st == .evacuating then recordFail s n none else s) n = some x := by
    split
    · rw [bayOf_recordFail, hx]
    · exact hx
  obtain ⟨a, hfailed⟩ := bayOf_setBaySt (bayOf_updBay (f := powerOff) (bayOf_stopBayDies hrecord) fun _ => rfl) .failed
  obtain ⟨y, hy, hsame⟩ := bayOf_of_seats (seats_bayFail hx) hfailed
  exact ⟨y, hy, field_of_shareless hsame Bay.failedDies⟩

/-- A die that runs nothing any more, no operation of its own waiting for a draw. -/
def dieStopped (s : State) (d : DieId) : State :=
  updMedia (updDie s d failDie) (fun m => { m with undrawn := m.undrawn.filter (fun o => dieOf o.page != d) })

theorem bays_dieStopped (s : State) (d : DieId) : (dieStopped s d).media.bays = s.media.bays := rfl

/-- A die's failure recorded and the room it takes settled, before its consequences for the bay and the open sets. -/
def dieLost (s : State) (d : DieId) (x : Bay) : State :=
  settleLoss (updBay (dieStopped (if x.st == .member || x.st == .evacuating then recordFail s d.bay (some (dieNum d)) else s) d) d.bay
    (fun y => { y with failedDies := y.failedDies ++ [dieNum d], rewrite := none }))

theorem dieFail_eq {s : State} {d : DieId} {x : Bay} (hx : bayOf s d.bay = some x) (hnew : x.failedDies.contains (dieNum d) = false) :
    dieFail s d = if x.dies.length < 2 * (x.failedDies.length + 1) then bayFail (dieLost s d x) d.bay
      else if x.st == .member || x.st == .evacuating then afterMemberFail (dieLost s d x) else dieLost s d x := by
  simp only [dieFail, hx, hnew]
  rfl

theorem failedDies_dieLost {s : State} {d : DieId} {x : Bay} (hx : bayOf s d.bay = some x) :
    ∃ y, bayOf (dieLost s d x) d.bay = some y ∧ y.failedDies = x.failedDies ++ [dieNum d] := by
  have hrecord : bayOf (if x.st == .member || x.st == .evacuating then recordFail s d.bay (some (dieNum d)) else s) d.bay = some x := by
    split
    · rw [bayOf_recordFail, hx]
    · exact hx
  obtain ⟨y, hy, hsame⟩ := bayOf_of_seats (seats_settleLoss _)
    (bayOf_updBay (f := fun y => { y with failedDies := y.failedDies ++ [dieNum d], rewrite := none })
      ((bayOf_congr (bays_dieStopped _ d) d.bay).trans hrecord) fun _ => rfl)
  exact ⟨y, hy, field_of_shareless hsame Bay.failedDies⟩

/-- A die that fails is recorded on its bay, whether or not the bay fails with it (R346). -/
theorem failedDies_dieFail {s : State} {d : DieId} {x : Bay} (hx : bayOf s d.bay = some x) :
    ∃ y, bayOf (dieFail s d) d.bay = some y ∧ y.failedDies.contains (dieNum d) = true := by
  cases hknown : x.failedDies.contains (dieNum d) with
  | true => exact ⟨x, by simp only [dieFail, hx, hknown, if_true], hknown⟩
  | false =>
    obtain ⟨y, hy, hlisted⟩ := failedDies_dieLost hx
    have hcontains : y.failedDies.contains (dieNum d) = true := by simp [hlisted]
    rw [dieFail_eq hx hknown]
    split
    · obtain ⟨z, hz, hkept⟩ := failedDies_bayFail hy
      exact ⟨z, hz, hkept ▸ hcontains⟩
    · split
      · obtain ⟨z, hz, hsame⟩ := bayOf_of_seats (seats_afterMemberFail _) hy
        exact ⟨z, hz, (field_of_shareless hsame Bay.failedDies).symm ▸ hcontains⟩
      · exact ⟨y, hy, hcontains⟩

theorem dieNum_split (n d : Nat) : dieNum ⟨n, d / 32, d % 32⟩ = d := by
  simp only [dieNum]
  omega

theorem die_member_fails {s : State} {n : Nat} {b : Bay} (hb : bayOf s n = some b) (hm : b.st = .member ∨ b.st = .evacuating) {d : Nat}
    (hd : b.dies.contains d = true) :
    ∃ t x, exec (.memberFailure n (some d)) s = .next t ∧ bayOf t n = some x ∧ x.failedDies.contains d = true := by
  obtain ⟨y, hy, hlisted⟩ := failedDies_dieFail (d := ⟨n, d / 32, d % 32⟩) hb
  rw [dieNum_split] at hlisted
  exact ⟨_, y, (exec_memberFailure hb hm).2 d hd, next_settled hy, hlisted⟩

/-! ## The rebuild (R354, R357) -/

section Rebuild

variable {s : State} (hstop : s.jrnl.stopFrom = none)
include hstop

theorem rebuild_leaves_waiting (hwaits : s.media.rebuild = 4) (hhost : someHost s = true) : ∃ t, exec .rebuildRow s = .next t ∧ t.media.rebuild = 1 := by
  have hexec : exec .rebuildRow s = execRebuildRow s := rfl
  simp only [execRebuildRow, hstop, hwaits, hhost] at hexec
  exact ⟨_, hexec, by rw [endCycle_media, rebuild_setRebuild]⟩

theorem rebuild_waits (hruns : s.media.rebuild = 1) (hhost : someHost s = false) : ∃ t, exec .rebuildRow s = .next t ∧ t.media.rebuild = 4 := by
  have hexec : exec .rebuildRow s = execRebuildRow s := rfl
  simp only [execRebuildRow, hstop, hruns, hhost] at hexec
  exact ⟨_, hexec, by rw [endCycle_media, rebuild_setRebuild]⟩

theorem rebuild_works_set (hruns : s.media.rebuild = 1) (hhost : someHost s = true) {t0 : State}
    (hset : ((rebuildList s).take 32).findSome? (workSet s) = some t0) :
    ∃ t, exec .rebuildRow s = .next t ∧ t.map = t0.map ∧ t.media.pages = t0.media.pages ∧ t.media.claims = t0.media.claims := by
  have hexec : exec .rebuildRow s = execRebuildRow s := rfl
  simp only [execRebuildRow, hstop, hruns, hhost, hset] at hexec
  refine ⟨_, hexec, ?_, pages_settled t0, ?_⟩
  · rw [endCycle_map, map_of_rest (rest_settleFull (L := but .map) rfl t0) rfl]
  · rw [endCycle_media, field_of_steady (steady_settleFull t0) Media.claims]

end Rebuild

/-- Settles O37: the record by its two placed copies, the rewrite by the copy it stands at, a failure by what it leaves of its bay, the rebuild by its state.
That a copy read back badly ends the rewrite is the model's reading of R239's order (assumption 50). -/
theorem membersFailAndAreRebuilt : Obligations.MembersFailAndAreRebuilt := by
  unfold Obligations.MembersFailAndAreRebuilt
  intro s hstop
  refine ⟨fun o t2 t3 a b htarget hdue hfirst hsecond => stripeRecord_made hstop htarget hdue ⟨hfirst, hsecond⟩, fun n b readBack hb hmay => ?rewrites,
    fun n b hb hm => ⟨bay_member_fails hb hm, fun d hd => die_member_fails hb hm hd⟩, rebuild_leaves_waiting hstop, rebuild_waits hstop,
    fun t0 hruns hhost hset => rebuild_works_set hstop hruns hhost hset⟩
  case rewrites =>
    obtain rfl := bay_of_bayOf hb
    exact ⟨fun hnone hdue => rewrite_begins hb hmay hnone hdue readBack, fun r hr hended =>
      ⟨fun hgood hfirst _ => rewrite_first_stands hb hmay hr hended hgood hfirst,
        fun hgood hsecond => rewrite_second_stands hb hmay hr hended hgood hsecond, fun hbad => rewrite_abandoned hb hmay hr hended hbad⟩⟩

end Sys2Proof.Proofs
end

section
/-! PROOFS. Open sets and their rows (R219, R224, R230 to R232, R278): what programs, placed slots and closing sets leave of the set counter, the open
sets, the page records and the refresh triggers. -/
namespace Sys2Proof.Proofs
open Sys2Proof Sys2Proof.Machine Sys2Proof.Laws

/-! ## The set counter and the open sets -/

/-- The number of the newest set (R224), and the open sets. -/
def openings (s : State) : Nat × List OpenSet := (s.media.blockSeqHigh, s.media.opens)

theorem openings_of_media {s t : State} (h : t.media = s.media) : openings t = openings s := by unfold openings; rw [h]

theorem openings_of_rest {s t : State} (h : rest (but .media) t = rest (but .media) s) : openings t = openings s := openings_of_media (media_of_rest h rfl)

theorem opens_of_openings {s t : State} (h : openings t = openings s) : t.media.opens = s.media.opens := congrArg Prod.snd h

theorem openOf_congr {s t : State} (h : t.media.opens = s.media.opens) (seq : Nat) : openOf t seq = openOf s seq := by unfold openOf; rw [h]

theorem openings_startDie (s : State) (id : DieId) : openings (startDie s id) = openings s := by
  unfold startDie
  repeat' split
  · rfl
  · rfl
  · rfl
  · rfl
  · rfl
  · exact (openings_of_rest (rest_countOp rfl ..)).trans rfl

theorem openings_enqueueOp (s : State) (op : DieOp) : openings (enqueueOp s op) = openings s := by
  unfold enqueueOp
  dsimp only
  split
  · rfl
  · exact openings_startDie ..

theorem openings_issueOp (s : State) (op : DieOp) : openings (issueOp s op) = openings s := by
  unfold issueOp
  split
  · exact openings_enqueueOp ..
  · rfl

theorem openings_programPage (s : State) (page : Madr) (who : Nat) : openings (programPage s page who) = openings s := by
  unfold programPage
  repeat' split
  · rfl
  · rfl
  · exact openings_issueOp ..

theorem openings_writePage (s : State) (p : PageRec) (who : Nat) : openings (writePage s p who) = openings s := openings_programPage ..

theorem openings_settleFull (s : State) : openings (settleFull s) = openings s := by
  unfold settleFull
  dsimp only
  repeat' split
  all_goals rfl

/-- The missing parity pages of a row programmed, and the row's parity counted (R339). -/
def parityWritten (s : State) (k : SetRec) (row who : Nat) : State :=
  let t := ((List.range k.stripeUnit).flatMap (fun u => (List.range k.p).map (fun n => (u, n)))).foldl (fun t j =>
    match (colBlock k ((row + j.2) % k.w)).filter (fun b => (pageRecOf t { b with page := rowPage k row j.1 }).isNone) with
    | none => t
    | some b =>
      writePage t
        { addr := { b with page := rowPage k row j.1 }, seq := k.seq, kind := 0, col := (row + j.2) % k.w, row := row, st := .assigned, epoch := 0
          slots := [], parity := parityOf j.2 (rowStrings t.media.pages k row j.1) } who) s
  if k.p == 0 then t else countEvent t 0x31 0 1

theorem programParity_eq (s : State) (k : SetRec) (row who : Nat) :
    programParity s k row who =
      if rowWaits s k row then s else updRow (parityWritten s k row who) k.seq row (fun r => { r with parityIssued := true }) := rfl

theorem openings_parityWritten (s : State) (k : SetRec) (row who : Nat) : openings (parityWritten s k row who) = openings s := by
  have hcount : ∀ t : State, openings (if k.p == 0 then t else countEvent t 0x31 0 1) = openings t := fun t => by
    split
    · rfl
    · exact openings_of_rest (rest_countEvent rfl ..)
  refine (hcount _).trans (view_foldl (fun t j => ?_) _ s)
  split
  · rfl
  · exact openings_writePage ..

/-! ## The set counter, which only a new set raises (R224) -/

/-- The number of the newest set. -/
def seqHigh (s : State) : Nat := s.media.blockSeqHigh

theorem seqHigh_of_openings {s t : State} (h : openings t = openings s) : seqHigh t = seqHigh s := congrArg Prod.fst h

theorem seqHigh_programParity (s : State) (k : SetRec) (row who : Nat) : seqHigh (programParity s k row who) = seqHigh s := by
  rw [programParity_eq]
  split
  · rfl
  · exact (seqHigh_of_openings (openings_parityWritten s k row who) :)

theorem seqHigh_putSlot {s t : State} {k : SetRec} {r : RowSt} {kind who : Nat} {x : SlotRec} {a : Madr}
    (h : putSlot s k r kind who x = some (t, a)) : seqHigh t = seqHigh s := by
  have hpage : ∀ (u : State) (c : Bool) (page : Madr), seqHigh (if c then programPage u page who else u) = seqHigh u := fun u c page => by
    split
    · exact seqHigh_of_openings (openings_programPage ..)
    · rfl
  unfold putSlot at h
  split at h
  · cases h
  · dsimp only at h
    obtain ⟨rfl, -⟩ := Prod.mk.inj (Option.some.inj h)
    split
    · rw [seqHigh_programParity, hpage]; rfl
    · rw [hpage]; rfl

theorem seqHigh_placeSlot {s t : State} {stream : Stream} {kind who : Nat} {x : SlotRec} {a : Madr}
    (h : placeSlot s stream kind who x = some (t, a)) : seqHigh t = seqHigh s := by
  unfold placeSlot at h
  obtain ⟨ok, -, hput⟩ := List.exists_of_findSome?_eq_some h
  split at hput
  · cases hput
  · split at hput
    · exact seqHigh_putSlot hput
    · split at hput
      · exact (seqHigh_putSlot hput).trans rfl
      · cases hput

theorem seqHigh_replaceUnit (s : State) (ns lba : Nat) (old : Madr) : seqHigh (replaceUnit s ns lba old) = seqHigh s := by
  unfold replaceUnit
  split
  · split
    · rfl
    · rename_i hplace
      exact (seqHigh_placeSlot hplace :)
  · rfl

theorem seqHigh_replaceAbandoned (s : State) : seqHigh (replaceAbandoned s) = seqHigh s := by
  unfold replaceAbandoned
  split
  · rfl
  · exact view_foldl (fun t _ => view_foldl (fun t _ => seqHigh_replaceUnit ..) _ t) _ s

/-! ## A set opened (R224, R278) -/

/-- The blocks that a new set of a stream takes, by column (R278). -/
def chosenCols (s : State) (p : Nat) (f : Profile) (stream : Stream) : List (Nat × Madr) :=
  let bs := (setBays s p f stream).filterMap (fun b => pickBlock s f b (fun _ => true))
  (List.range bs.length).zip bs

/-- The record of a new set of a stream (R242). -/
def openRecord (s : State) (p : Nat) (f : Profile) (stream : Stream) : JRec :=
  .setOpen (s.media.blockSeqHigh + 1) stream p (chosenCols s p f stream).length f.p f.stripeUnit (profileRows f) s.cad.aet (chosenCols s p f stream)

/-- The new set in the map, and as it opens. -/
def newSet (s : State) (p : Nat) (f : Profile) (stream : Stream) : SetRec where
  seq := s.media.blockSeqHigh + 1
  stream := stream
  profile := p
  w := (chosenCols s p f stream).length
  p := f.p
  stripeUnit := f.stripeUnit
  rows := profileRows f
  openAet := s.cad.aet
  cols := chosenCols s p f stream
  closed := false
  lastValid := none
  firstAbandoned := none
  standIns := []

def newOpen (s : State) (p : Nat) (f : Profile) (stream : Stream) : OpenSet where
  seq := s.media.blockSeqHigh + 1
  rows := []
  nextRow := 0
  limitRow := 0
  headersLeft := (chosenCols s p f stream).map (·.1)
  closing := false
  lastStand := (stream == .relocFine || stream == .relocCoarse) && (setBays s p f stream).any (fun b => !bayLends s f false b)

/-- The set counter raised for a set that begins. -/
def numbered (s : State) (o : OpenSet) : State :=
  updMedia s (fun m => { m with blockSeqHigh := s.media.blockSeqHigh + 1, opens := m.opens ++ [o] })

/-- A new set numbered and journalled, its pages still to be programmed. -/
def setNumbered (s : State) (p : Nat) (f : Profile) (stream : Stream) : State :=
  commitRec (numbered s (newOpen s p f stream)) (openRecord s p f stream)

section Open

variable {s : State} {stream : Stream} {p : Nat} {f : Profile} (hp : streamProfile s stream = some p) (hf : profileOf s p = some f)
include hp hf

theorem openSet_eq : openSet s stream =
    settleFull ((chosenCols s p f stream).foldl (fun t c => writePage t (headerPage t (newSet s p f stream) f.dedicated c)
      (openWho s stream)) (setNumbered s p f stream)) := by
  simp only [openSet, hp, hf]
  rfl

/-- But for the pages, the dies and FULL, a new set is its record journalled and applied under the next number. -/
theorem openSet_committed : seqHigh (openSet s stream) = s.media.blockSeqHigh + 1 ∧
    rest [.health, .media, .ctr] (openSet s stream) = rest [.health, .media, .ctr] (setNumbered s p f stream) := by
  rw [openSet_eq hp hf]
  constructor
  · have hcommit : (setNumbered s p f stream).media = (numbered s (newOpen s p f stream)).media := media_of_rest (rest_commitRec (L := but .media) rfl ..) rfl
    rw [seqHigh_of_openings (openings_settleFull _), view_foldl (view := seqHigh) fun t c => seqHigh_of_openings (openings_writePage ..), seqHigh, hcommit]
    rfl
  · exact (rest_settleFull rfl _).trans (rest_foldl _ (fun t c => rest_writePage rfl ..) _ _)

end Open

/-- A new set stands open among the sets of the map. -/
theorem newSet_mem_sets (i : MapImg) (jseq : Nat) (s : State) (p : Nat) (f : Profile) (stream : Stream) :
    newSet s p f stream ∈ (applyRec i jseq (openRecord s p f stream)).sets := by
  have hsets : ∀ (g : BlockRec → BlockRec) (l : List (Nat × Madr)) (i : MapImg), (l.foldl (fun i c => updImgBlk i c.2 g) i).sets = i.sets := by
    intro g l
    induction l with
    | nil => exact fun _ => rfl
    | cons c l ih => exact fun i => (ih _).trans rfl
  simp only [openRecord, applyRec, hsets]
  exact List.mem_append_right _ (List.mem_singleton_self _)

theorem setOpened {s : State} {stream : Stream} {p : Nat} {f : Profile} (hstop : s.jrnl.stopFrom = none) (hp : streamProfile s stream = some p)
    (hf : profileOf s p = some f) :
    ∃ t, exec (.setOpen stream) s = .next t ∧ t.media.blockSeqHigh = s.media.blockSeqHigh + 1 ∧
      t.map = applyRec s.map s.jrnl.nextSeq (openRecord s p f stream) ∧
      t.jrnl.recs = s.jrnl.recs ++ [⟨s.jrnl.nextSeq, openRecord s p f stream, !mirroring s, false⟩] ∧
      ∃ k ∈ t.map.sets, k.seq = s.media.blockSeqHigh + 1 ∧ k.stream = stream ∧ k.profile = p ∧ k.cols = chosenCols s p f stream ∧ k.closed = false := by
  have hexec : exec (.setOpen stream) s = execSetOpen stream s := rfl
  rw [execSetOpen, if_neg (by simp [hstop])] at hexec
  obtain ⟨hseq, hcommitted⟩ := openSet_committed hp hf
  have hplaced := rest_replaceAbandoned (L := [.health, .eng, .media, .ctr]) rfl (openSet s stream)
  have hmap : (replaceAbandoned (openSet s stream)).map = applyRec s.map s.jrnl.nextSeq (openRecord s p f stream) :=
    (map_of_rest hplaced rfl).trans ((map_of_rest hcommitted rfl).trans (map_commitRec (s := numbered s (newOpen s p f stream)) hstop _))
  refine ⟨_, hexec, (seqHigh_replaceAbandoned _).trans hseq, hmap, ?_, ?_⟩
  · exact congrArg Jrnl.recs ((jrnl_of_rest hplaced rfl).trans ((jrnl_of_rest hcommitted rfl).trans (jrnl_commitRec (s := numbered s (newOpen s p f stream)) hstop _)))
  · rw [hmap]
    exact ⟨_, newSet_mem_sets .., rfl, rfl, rfl, rfl, rfl⟩

/-! ## A page that fills for 10 microseconds (R219) -/

theorem pageRecOf_of_pages {s t : State} (h : t.media.pages = s.media.pages) (m : Madr) : pageRecOf t m = pageRecOf s m := by unfold pageRecOf; rw [h]

/-- A program is given to assigned pages only: one that has been given stays as it is. -/
theorem pageRecOf_programPage {s : State} {m : Madr} {q : PageRec} (hq : pageRecOf s m = some q) (hst : q.st ≠ .assigned) (page : Madr) (who : Nat) :
    pageRecOf (programPage s page who) m = some q := by
  unfold programPage
  split
  · exact hq
  · rename_i p hp
    split
    · exact hq
    · rename_i hassigned
      have hne : p.addr ≠ pageOf m := by
        intro hsame
        have hpage : pageRecOf s page = pageRecOf s m := by unfold pageRecOf; rw [← addr_of_pageRecOf hp, hsame]
        obtain rfl := Option.some.inj (hp.symm.trans (hpage.trans hq))
        simp [hst] at hassigned
      rw [pageRecOf_of_pages (pages_issueOp ..)]
      exact (pageRecOf_putPage s { p with st := .programming, epoch := aetSec s.cad.aet % 2 ^ 40 } m).trans ((if_neg hne).trans hq)

theorem pageRecOf_writePage {s : State} {m : Madr} {q p : PageRec} (hq : pageRecOf s m = some q) (hst : q.st ≠ .assigned) (hp : p.addr ≠ pageOf m)
    (who : Nat) : pageRecOf (writePage s p who) m = some q :=
  pageRecOf_programPage ((pageRecOf_putPage s { p with st := .assigned } m).trans ((if_neg hp).trans hq)) hst _ _

/-- Parity goes to pages without a record. -/
theorem pageRecOf_programParity {s : State} {m : Madr} {q : PageRec} (hq : pageRecOf s m = some q) (hst : q.st ≠ .assigned) (k : SetRec) (row who : Nat) :
    pageRecOf (programParity s k row who) m = some q := by
  have hcount : ∀ t : State, pageRecOf (if k.p == 0 then t else countEvent t 0x31 0 1) m = pageRecOf t m := fun t => by
    split
    · rfl
    · exact pageRecOf_of_pages (congrArg Media.pages (media_of_rest (rest_countEvent (L := but .media) rfl ..) rfl)) m
  rw [programParity_eq]
  split
  · exact hq
  · refine (hcount _).trans (List.foldlRecOn (motive := fun t => pageRecOf t m = some q) _ _ hq fun t ht j _ => ?_)
    split
    · exact ht
    · rename_i b hb
      refine pageRecOf_writePage ht hst (fun hsame => ?_) who
      have hnone := (Option.filter_eq_some_iff.mp hb).2
      have haddr : { b with page := rowPage k row j.1 } = pageOf m := hsame
      have hpage : pageRecOf t { b with page := rowPage k row j.1 } = pageRecOf t m := (congrArg (pageRecOf t) haddr).trans rfl
      simp [hpage, ht] at hnone

/-- An assigned page's program starts under its write epoch (R221). -/
theorem pageRecOf_programPage_assigned {s : State} {m : Madr} {p : PageRec} (hp : pageRecOf s m = some p) (hst : p.st = .assigned)
    (hready : pageWaits s m = false) (who : Nat) :
    pageRecOf (programPage s m who) m = some { p with st := .programming, epoch := aetSec s.cad.aet % 2 ^ 40 } := by
  have hgoes : (p.st != .assigned || pageWaits s m) = false := by simp [hst, hready]
  simp only [programPage, hp, hgoes, Bool.false_eq_true, if_false]
  rw [pageRecOf_of_pages (pages_issueOp ..)]
  exact (pageRecOf_putPage s { p with st := .programming, epoch := aetSec s.cad.aet % 2 ^ 40 } m).trans (if_pos (addr_of_pageRecOf hp))

theorem pageRecOf_settleFull (s : State) (m : Madr) : pageRecOf (settleFull s) m = pageRecOf s m :=
  pageRecOf_of_pages ((congrArg Media.pages (endCycle_media _)).symm.trans (pages_settled s)) m

theorem page_programmed {s : State} {page : Madr} {cyc : Nat} {p : PageRec} {k : SetRec} {o : OpenSet} {r : RowSt} (hcyc : cyc ≤ s.now)
    (hp : pageRecOf s page = some p) (hk : setAt s.map page = some k) (ho : openOf s k.seq = some o)
    (hr : o.rows.find? (fun r => r.row == p.row) = some r) (hst : p.st = .assigned) (hslots : p.slots ≠ []) (hready : pageWaits s p.addr = false)
    (hsince : r.since + 10000 ≤ s.now) :
    ∃ t q, exec (.pageProgramTimeout page cyc) s = .next t ∧ pageRecOf t page = some q ∧ q.st = .programming ∧ q.epoch = aetSec s.cad.aet % 2 ^ 40 := by
  have haddr := addr_of_pageRecOf hp
  have hat : ∀ t, pageRecOf t p.addr = pageRecOf t page := fun t => by rw [haddr]; rfl
  have hdue : (p.st != .assigned || p.slots.isEmpty || decide (s.now < r.since + 10000)) = false := by simp [hst, hslots, hsince]
  have hexec : exec (.pageProgramTimeout page cyc) s = execPageProgramTimeout page cyc s := rfl
  simp only [execPageProgramTimeout, advanceTo_past hcyc, hp, hk, ho, hr, hdue] at hexec
  have hgiven := pageRecOf_programPage_assigned ((hat s).trans hp) hst hready (openWho s k.stream)
  rw [hat] at hgiven
  refine ⟨_, { p with st := .programming, epoch := aetSec s.cad.aet % 2 ^ 40 }, hexec, (pageRecOf_settleFull ..).trans ?_, rfl, rfl⟩
  split
  · exact pageRecOf_programParity (s := updRow _ _ _ _) hgiven nofun k r.row _
  · exact hgiven

/-! ## A row incomplete for 64 ticks (R219) -/

/-- An open set changed without its number is found as before, changed. -/
theorem openOf_updOpen (s : State) (n seq : Nat) {f : OpenSet → OpenSet} (hf : ∀ o, (f o).seq = o.seq) :
    openOf (updOpen s n f) seq = (openOf s seq).map (fun o => if o.seq == n then f o else o) := by
  have hkey : (fun o : OpenSet => o.seq == seq) ∘ (fun o => if o.seq == n then f o else o) = fun o => o.seq == seq := by
    funext o
    dsimp only [Function.comp]
    split <;> simp [hf]
  unfold openOf updOpen
  rw [updMedia_media, List.find?_map, hkey]

theorem seq_of_openOf {s : State} {seq : Nat} {o : OpenSet} (h : openOf s seq = some o) : o.seq = seq := by simpa using List.find?_some h

/-- A row of an open set, as it is changed. -/
theorem openOf_updRow {s : State} {seq : Nat} {o : OpenSet} (ho : openOf s seq = some o) (row : Nat) (f : RowSt → RowSt) :
    openOf (updRow s seq row f) seq = some { o with rows := o.rows.map (fun r => if r.row == row then f r else r) } := by
  refine (openOf_updOpen s seq seq (f := fun o => { o with rows := o.rows.map (fun r => if r.row == row then f r else r) }) fun _ => rfl).trans ?_
  simp [ho, seq_of_openOf ho]

/-- No staged content is lost: no row waits for its recovery (R425). -/
theorem rowWaits_of_kept {s : State} (h : ∀ c ∈ s.ctxs, c.staged.any (·.lost) = false) (k : SetRec) (row : Nat) : rowWaits s k row = false := by
  have hpage : ∀ page, pageWaits s page = false := by
    intro page
    refine List.any_eq_false.mpr fun c hc => ?_
    rw [Bool.not_eq_true, List.any_eq_false]
    intro u hu
    have hkept := List.any_eq_false.mp (h c hc) u hu
    simp [hkept]
  exact List.any_eq_false.mpr fun p _ => by simp [hpage]

/-- The data pages of a row programmed as they are, the missing ones as PAD (R219). -/
def rowProgrammed (s : State) (k : SetRec) (row who : Nat) : State :=
  ((dataCols k.w k.p row).flatMap (fun c => (List.range k.stripeUnit).map (fun u => (c, u)))).foldl (fun t c =>
    match colBlock k c.1 with
    | none => t
    | some b =>
      match pageRecOf t { b with page := rowPage k row c.2 } with
      | some p => if p.st == .assigned then programPage t { b with page := rowPage k row c.2 } who else t
      | none => writePage t (padRec k c.1 row { b with page := rowPage k row c.2 }) who) s

theorem padRow_eq (s : State) (k : SetRec) (row who : Nat) :
    padRow s k row who = programParity (updRow (rowProgrammed s k row who) k.seq row (fun r => { r with next := rowSlots k })) k row who := rfl

theorem openings_rowProgrammed (s : State) (k : SetRec) (row who : Nat) : openings (rowProgrammed s k row who) = openings s := by
  refine view_foldl (view := openings) (fun t c => ?_) _ s
  split
  · rfl
  · split
    · split
      · exact openings_programPage ..
      · rfl
    · exact openings_writePage ..

theorem ctxs_rowProgrammed (s : State) (k : SetRec) (row who : Nat) : (rowProgrammed s k row who).ctxs = s.ctxs := by
  refine view_foldl (view := State.ctxs) (fun t c => ?_) _ s
  split
  · rfl
  · split
    · split
      · exact ctxs_of_rest (rest_programPage (L := but .ctxs) rfl ..) rfl
      · rfl
    · exact ctxs_of_rest (rest_writePage (L := but .ctxs) rfl ..) rfl

/-- A padded row has no slot left and its parity issued. -/
theorem openOf_padRow {s : State} {k : SetRec} {row : Nat} {o : OpenSet} (ho : openOf s k.seq = some o) (hkept : ∀ c ∈ s.ctxs, c.staged.any (·.lost) = false)
    {r : RowSt} (hr : r ∈ o.rows) (hrow : r.row = row) (who : Nat) :
    ∃ o', openOf (padRow s k row who) k.seq = some o' ∧ ∃ x ∈ o'.rows, x.row = row ∧ x.next = rowSlots k ∧ x.parityIssued = true := by
  have hdata : openOf (rowProgrammed s k row who) k.seq = some o :=
    (openOf_congr (opens_of_openings (openings_rowProgrammed ..)) k.seq).trans ho
  have hfull := openOf_updRow hdata row (fun r => { r with next := rowSlots k })
  have hgoes : rowWaits (updRow (rowProgrammed s k row who) k.seq row fun r => { r with next := rowSlots k }) k row = false :=
    rowWaits_of_kept (by rw [show (updRow (rowProgrammed s k row who) k.seq row fun r => { r with next := rowSlots k }).ctxs = s.ctxs
      from ctxs_rowProgrammed ..]; exact hkept) k row
  have hparity := openOf_updRow ((openOf_congr (opens_of_openings (openings_parityWritten _ k row who)) k.seq).trans hfull) row
    (fun r => { r with parityIssued := true })
  rw [padRow_eq, programParity_eq, if_neg (by simp [hgoes])]
  refine ⟨_, hparity, { r with next := rowSlots k, parityIssued := true }, ?_, hrow, rfl, rfl⟩
  refine List.mem_map.mpr ⟨{ r with next := rowSlots k }, List.mem_map.mpr ⟨r, hr, ?_⟩, ?_⟩ <;> simp [hrow]

theorem row_padded {s : State} {seq row : Nat} {k : SetRec} {o : OpenSet} {r : RowSt} (hk : setOf s seq = some k) (ho : openOf s seq = some o)
    (hr : o.rows.find? (fun r => r.row == row) = some r) (hopen : r.parityIssued = false) (hkept : ∀ c ∈ s.ctxs, c.staged.any (·.lost) = false)
    (hsince : r.sinceT + 64 ≤ tIndex s.cad.tps s.cad.aet) :
    ∃ t o', exec (.rowPadTimeout seq row) s = .next t ∧ openOf t seq = some o' ∧
      ∃ x ∈ o'.rows, x.row = row ∧ x.next = rowSlots k ∧ x.parityIssued = true := by
  obtain rfl : k.seq = seq := by simpa using List.find?_some hk
  have hrow : r.row = row := by simpa using List.find?_some hr
  have hdue : (r.parityIssued || decide (tIndex s.cad.tps s.cad.aet < r.sinceT + 64)) = false := by simp [hopen, hsince]
  have hexec : exec (.rowPadTimeout k.seq row) s = execRowPadTimeout k.seq row s := rfl
  simp only [execRowPadTimeout, ho, hk, hr, hdue] at hexec
  obtain ⟨o', ho', hx⟩ := openOf_padRow ho hkept (List.mem_of_find?_eq_some hr) hrow (openWho s k.stream)
  exact ⟨_, o', hexec, (openOf_congr (opens_of_openings (openings_settleFull _)) k.seq).trans ho', hx⟩

/-! ## A row that passes its verify reads (R230) -/

/-- A row of an open set is settled, or the set has left the open sets (R231). -/
def RowSettled (s : State) (seq row : Nat) : Prop := openOf s seq = none ∨ ∃ o x, openOf s seq = some o ∧ x ∈ o.rows ∧ x.row = row ∧ x.settled = true

section RowSettled

variable {s t : State} {seq row : Nat} (h : RowSettled s seq row)
include h

theorem RowSettled.of_opens (hopens : t.media.opens = s.media.opens) : RowSettled t seq row := by
  simpa only [RowSettled, openOf_congr hopens] using h

theorem RowSettled.of_openings (hopen : openings t = openings s) : RowSettled t seq row := h.of_opens (opens_of_openings hopen)

/-- An open set changed, its settled rows among its rows as before. -/
theorem RowSettled.updOpen (n : Nat) {f : OpenSet → OpenSet} (hf : ∀ o, (f o).seq = o.seq)
    (hrows : ∀ o, ∀ x ∈ o.rows, x.settled = true → ∃ y ∈ (f o).rows, y.row = x.row ∧ y.settled = true) : RowSettled (updOpen s n f) seq row := by
  unfold RowSettled
  rw [openOf_updOpen s n seq hf]
  obtain hnone | ⟨o, x, ho, hx, hrow, hset⟩ := h
  · exact .inl (by rw [hnone]; rfl)
  · right
    by_cases hn : o.seq = n
    · obtain ⟨y, hy, hyrow, hyset⟩ := hrows o x hx hset
      exact ⟨f o, y, by simp [ho, hn], hy, hyrow.trans hrow, hyset⟩
    · exact ⟨o, x, by simp [ho, hn], hx, hrow, hset⟩

theorem RowSettled.updRow (n m : Nat) {f : RowSt → RowSt} (hf : ∀ r, (f r).row = r.row ∧ (f r).settled = r.settled) : RowSettled (updRow s n m f) seq row := by
  refine h.updOpen n (f := fun o => { o with rows := o.rows.map (fun r => if r.row == m then f r else r) }) (fun _ => rfl) fun o x hx hset => ?_
  refine ⟨_, List.mem_map_of_mem hx, ?_⟩
  split
  · exact ⟨(hf x).1, (hf x).2.trans hset⟩
  · exact ⟨rfl, hset⟩

theorem RowSettled.startRow (o : OpenSet) : RowSettled (startRow s o).1 seq row :=
  h.updOpen o.seq (fun _ => rfl) fun _ x hx hset => ⟨x, List.mem_append_left _ hx, rfl, hset⟩

theorem RowSettled.programParity (k : SetRec) (n who : Nat) : RowSettled (programParity s k n who) seq row := by
  rw [programParity_eq]
  split
  · exact h
  · exact (h.of_openings (openings_parityWritten ..)).updRow _ _ fun _ => ⟨rfl, rfl⟩

theorem RowSettled.putSlot {k : SetRec} {r : RowSt} {kind who : Nat} {x : SlotRec} {a : Madr} (hput : putSlot s k r kind who x = some (t, a)) :
    RowSettled t seq row := by
  have hpage : ∀ (u : State) (c : Bool) (page : Madr), RowSettled u seq row → RowSettled (if c then programPage u page who else u) seq row :=
    fun u c page hu => by
      split
      · exact hu.of_openings (openings_programPage ..)
      · exact hu
  unfold Machine.putSlot at hput
  split at hput
  · cases hput
  · rename_i a' _
    extract_lets page col old t1 t2 t3 t4 at hput
    have h2 : RowSettled t2 seq row := RowSettled.updRow (s := t1) h _ _ fun _ => ⟨rfl, rfl⟩
    have h3 : RowSettled t3 seq row := hpage t2 _ page h2
    obtain ⟨rfl, -⟩ := Prod.mk.inj (Option.some.inj hput)
    simp only [t4]
    split
    · exact h3.programParity ..
    · exact h3

theorem RowSettled.placeSlot {stream : Stream} {kind who : Nat} {x : SlotRec} {a : Madr} (hplace : placeSlot s stream kind who x = some (t, a)) :
    RowSettled t seq row := by
  unfold Machine.placeSlot at hplace
  obtain ⟨ok, -, hput⟩ := List.exists_of_findSome?_eq_some hplace
  split at hput
  · cases hput
  · split at hput
    · exact h.putSlot hput
    · split at hput
      · exact (h.startRow ok.1).putSlot hput
      · cases hput

theorem RowSettled.writeTile (ns seg : Nat) : RowSettled (writeTile s ns seg) seq row := by
  unfold Machine.writeTile
  split
  · split
    · exact h
    · rename_i hplace
      have hplaced := h.placeSlot hplace
      dsimp only
      split
      · exact hplaced.of_opens rfl
      · exact hplaced.of_opens rfl
  · exact h

theorem RowSettled.foldl {α : Type} {f : State → α → State} (l : List α) (hf : ∀ t a, RowSettled t seq row → RowSettled (f t a) seq row) :
    RowSettled (l.foldl f s) seq row := List.foldlRecOn (motive := fun t => RowSettled t seq row) l f h fun t ht a _ => hf t a ht

theorem RowSettled.moveToStandIn (k : SetRec) (x : StandIn) (n who : Nat) : RowSettled (moveToStandIn s k x n who) seq row := by
  unfold Machine.moveToStandIn
  split
  · exact h
  · refine h.foldl _ fun t g ht => RowSettled.foldl ?_ _ fun t u ht => ht.of_opens rfl
    split
    · split
      · exact ht.writeTile ..
      · exact ht
    · exact ht

end RowSettled

theorem openings_commitRec (s : State) (body : JRec) : openings (commitRec s body) = openings s := openings_of_rest (rest_commitRec rfl ..)
theorem openings_journal (s : State) (body : JRec) : openings (journal s body) = openings s := openings_of_media (media_journal ..)

theorem openings_setBaySt (s : State) (n : Nat) (st : BaySt) : openings (setBaySt s n st) = openings s := by
  unfold setBaySt
  split
  · rfl
  · split
    · rfl
    · exact (openings_journal s _ :)

theorem openings_settleCancels (s : State) : openings (settleCancels s) = openings s := by
  unfold settleCancels
  split
  · rfl
  · refine view_foldl (fun t b => ?_) _ s
    exact (openings_setBaySt t b.bay .member :)

/-- The stand-ins of a set that settle with a row leave its settled rows (R351). -/
theorem RowSettled.settleStandIns {s : State} {seq row : Nat} (h : RowSettled s seq row) (k : SetRec) (n : Nat) : RowSettled (settleStandIns s k n) seq row := by
  unfold Machine.settleStandIns
  refine h.foldl _ fun t x ht => ?_
  extract_lets page programmed t1 evac t2 t3 t4 t5
  split
  · exact ht
  · have h2 : RowSettled t2 seq row := RowSettled.moveToStandIn (s := t1) (ht.of_opens rfl) ..
    have h3 : RowSettled t3 seq row := by simp only [t3]; split <;> exact h2.of_opens rfl
    have h4 : RowSettled t4 seq row := by
      simp only [t4]
      split
      · exact h3.of_openings (openings_journal ..)
      · exact h3
    split
    · exact h4
    · have h5 : RowSettled t5 seq row := h4.of_openings (openings_commitRec ..)
      split
      · exact RowSettled.of_openings (s := dropClaim t5 .evacuate k.seq) (h5.of_opens rfl) (openings_settleCancels _)
      · split
        · exact h5.of_opens rfl
        · exact h5

/-- A set that has left the open sets is not found among them; the others are. -/
theorem RowSettled.finishSet {s : State} {seq row : Nat} (h : RowSettled s seq row) : RowSettled (finishSet s seq) seq row := by
  unfold Machine.finishSet
  split
  · split
    · refine .inl (List.find?_eq_none.mpr fun o ho => ?_)
      have hkept := (List.mem_filter.mp ho).2
      simpa using hkept
    · exact h
  · exact h

theorem openings_settleCkpt (s : State) : openings (settleCkpt s) = openings s := by
  have hstop : ∀ t, openings (putStop t .shutdown none) = openings t := fun t => openings_of_rest (rest_putStop rfl t _ _)
  unfold settleCkpt
  split
  · rfl
  · dsimp only
    repeat' split
    · rfl
    · unfold standCkpt
      dsimp only
      split
      · rw [hstop]; rfl
      · rfl
    · rfl

/-! ## A row that fails its verify reads (R232) -/

theorem steady_replaceUnit (s : State) (ns lba : Nat) (old : Madr) : steady (replaceUnit s ns lba old) = steady s := by
  unfold replaceUnit
  split
  · split
    · rfl
    · rename_i hplace
      exact (steady_askMap ..).trans (steady_placeSlot hplace)
  · rfl

theorem steady_replaceAbandoned (s : State) : steady (replaceAbandoned s) = steady s := by
  unfold replaceAbandoned
  split
  · rfl
  · exact steady_fold _ _ (fun t _ => steady_fold _ _ (fun t _ => steady_replaceUnit ..) t) s

/-- The blocks that have failed a verify read, and the refresh triggers (R232, R325). -/
def faults (s : State) : List Madr × List Trigger := (s.media.verifyFails, s.media.refresh)

theorem faults_of_steady {s t : State} (h : steady t = steady s) : faults t = faults s := field_of_steady h (fun m => (m.verifyFails, m.refresh))

theorem faults_settleWait (s : State) (w : SjWait) : faults (settleWait s w) = faults s := by
  unfold settleWait
  dsimp only
  repeat' split
  · rfl
  · exact view_foldl (view := faults) (fun t e => faults_of_steady (steady_updOpen ..)) _ _
  · rfl

theorem faults_settleStand (s : State) : faults (settleStand s) = faults s := by
  have hstop : ∀ t, (putStop t .shutdown none).media = t.media := fun t => media_of_rest (rest_putStop (L := but .media) rfl t _ _) rfl
  refine Eq.trans ?_ (view_foldl (view := faults) faults_settleWait s.media.sjWait s)
  unfold settleStand settleCkpt faults
  dsimp only
  repeat' split
  · rfl
  · rfl
  · unfold standCkpt
    dsimp only
    split
    · rw [hstop]; rfl
    · rfl
  · rfl

/-- A trigger raised stands, at least as severe. -/
theorem refresh_raiseTrigger (s : State) (seq severity : Nat) : ∃ x ∈ (raiseTrigger s seq severity).media.refresh, x.seq = seq ∧ severity ≤ x.severity := by
  unfold raiseTrigger
  rw [updMedia_media]
  dsimp only
  split
  · rename_i hknown
    obtain ⟨x, hx, hseq⟩ := List.any_eq_true.mp hknown
    refine ⟨{ x with severity := Nat.max x.severity severity }, List.mem_map.mpr ⟨x, hx, if_pos hseq⟩, by simpa using hseq, Nat.le_max_right ..⟩
  · exact ⟨_, List.mem_append_right _ (List.mem_singleton_self _), rfl, Nat.le_refl _⟩

/-- A set recorded as closed. -/
def SetClosed (s : State) (seq : Nat) : Prop := ∃ k, Machine.setOf s seq = some k ∧ k.closed = true

theorem SetClosed.of_sets {s t : State} {seq : Nat} (h : SetClosed s seq) (hsets : t.map.sets = s.map.sets) : SetClosed t seq := by
  unfold SetClosed Machine.setOf at *
  rwa [hsets]

theorem SetClosed.of_map {s t : State} {seq : Nat} (h : SetClosed s seq) (hmap : t.map = s.map) : SetClosed t seq := h.of_sets (congrArg MapImg.sets hmap)

theorem sets_finishSet (s : State) (seq : Nat) : (finishSet s seq).map.sets = s.map.sets := by
  unfold finishSet
  repeat' split
  all_goals rfl

/-- A SET_CLOSE record applied closes its set (R231). -/
theorem setClosed_commitRec {s : State} {seq : Nat} {k : SetRec} (hstop : s.jrnl.stopFrom = none) (hk : setOf s seq = some k) (last abandoned : Option Nat) :
    SetClosed (commitRec s (.setClose seq last abandoned)) seq := by
  have hsets : (commitRec s (.setClose seq last abandoned)).map.sets =
      (updSet s.map seq (fun k => { k with closed := true, lastValid := last, firstAbandoned := abandoned })).sets := by
    rw [map_commitRec hstop]
    simp only [applyRec]
    split <;> rfl
  have hseq : k.seq = seq := by simpa using List.find?_some hk
  have hkey : (fun x : SetRec => x.seq == seq) ∘ (fun k => if k.seq == seq then { k with closed := true, lastValid := last, firstAbandoned := abandoned } else k) =
      fun x => x.seq == seq := by
    funext x
    dsimp only [Function.comp]
    split <;> rfl
  refine ⟨{ k with closed := true, lastValid := last, firstAbandoned := abandoned }, ?_, rfl⟩
  have hfound : s.map.sets.find? (fun x => x.seq == seq) = some k := hk
  unfold Machine.setOf
  rw [hsets, updSet, List.find?_map, hkey, hfound]
  simp [hseq]

theorem setClosed_closeSet {s : State} {seq : Nat} {k : SetRec} (hstop : s.jrnl.stopFrom = none) (hk : setOf s seq = some k) (last abandoned : Option Nat) :
    SetClosed (closeSet s seq last abandoned) seq := by
  unfold closeSet
  simp only [hk]
  split
  · rename_i hclosed
    exact ⟨k, hk, hclosed⟩
  · have hclose := setClosed_commitRec hstop hk last abandoned
    split
    · exact hclose.of_map (map_of_rest ((rest_padTail (L := but .map) rfl ..).trans ((rest_updOpen rfl ..).trans (rest_unflush rfl ..))) rfl)
    · exact hclose.of_map (map_of_rest ((rest_padPair (L := but .map) rfl ..).trans ((rest_updOpen rfl ..).trans (rest_unflush rfl ..))) rfl)

/-- A set closed for REFRESH to move, a verify read's failures as they were. -/
structure GivenUp (s t : State) (seq : Nat) : Prop where
  closed : SetClosed t seq
  fails : t.media.verifyFails = s.media.verifyFails
  trigger : ∃ x ∈ t.media.refresh, x.seq = seq ∧ 3 ≤ x.severity

theorem GivenUp.of_faults {s t u : State} {seq : Nat} (h : GivenUp s t seq) (hsets : u.map.sets = t.map.sets) (hfaults : faults u = faults t) : GivenUp s u seq where
  closed := h.closed.of_sets hsets
  fails := (congrArg Prod.fst hfaults).trans h.fails
  trigger := by
    have hrefresh : u.media.refresh = t.media.refresh := congrArg Prod.snd hfaults
    rw [hrefresh]
    exact h.trigger

/-- A closed set's trigger raised and the set finished. -/
theorem givenUp_finishSet {s t : State} {seq : Nat} (hclosed : SetClosed t seq) (hfails : t.media.verifyFails = s.media.verifyFails) :
    GivenUp s (finishSet (raiseTrigger t seq 3) seq) seq :=
  GivenUp.of_faults (t := raiseTrigger t seq 3) ⟨hclosed.of_map rfl, hfails, refresh_raiseTrigger t seq 3⟩ (sets_finishSet ..)
    (faults_of_steady (steady_finishSet ..))

/-- A failed row of an open set, or of one closed with rows still to settle, closes the set for REFRESH to move (Table 9-7). -/
theorem givenUp_failRow {s : State} {k : SetRec} {o : OpenSet} (hstop : s.jrnl.stopFrom = none) (hk : setOf s k.seq = some k)
    (ho : openOf s k.seq = some o) (r : Nat) : GivenUp s (failRow s k r) k.seq := by
  unfold failRow
  extract_lets last u
  have hopen : openOf u k.seq = some o := ho
  have hset : Machine.setOf u k.seq = some k := hk
  have hgoes : u.jrnl.stopFrom = none := hstop
  have hfails : u.media.verifyFails = s.media.verifyFails := rfl
  clear_value u
  simp only [hopen]
  split
  · have hclosed := setClosed_commitRec (s := updOpen u k.seq (fun o => { o with rows := o.rows.filter (fun x => decide (x.row < r) || x.settled) }))
      hgoes hset last (some r)
    refine givenUp_finishSet hclosed (Eq.trans ?_ hfails)
    exact field_of_steady ((steady_commitRec ..).trans (steady_updOpen ..)) Media.verifyFails
  · refine (givenUp_finishSet (setClosed_closeSet hgoes hset ..) ((field_of_steady (steady_closeSet ..) Media.verifyFails).trans hfails)).of_faults ?_
      (faults_of_steady (steady_replaceAbandoned _))
    exact congrArg MapImg.sets (map_of_rest (rest_replaceAbandoned (L := but .map) rfl _) rfl)

/-! ## A page read whole (R230) -/

theorem anyOp_of_dieStOf {s : State} {id : DieId} {d : DieSt} {P : DieOp → Bool} (hd : dieStOf s id = some d)
    (h : (d.op.any P || d.queue.any P || d.suspended.any P) = true) : anyOp s P = true := by
  unfold anyOp
  rw [Bool.or_eq_true]
  exact .inr (List.any_eq_true.mpr ⟨d, List.mem_of_find?_eq_some hd, h⟩)

/-- An operation that waits at a die goes on waiting there, or is the next one. -/
theorem mem_queue_nextOp {d d' : DieSt} {o x : DieOp} (hn : nextOp d = some (o, d')) (hx : x ∈ d.queue) : x = o ∨ x ∈ d'.queue := by
  have herase : ∀ r : DieOp, x = r ∨ x ∈ d.queue.erase r := fun r => by
    by_cases h : x = r
    · exact .inl h
    · exact .inr ((List.mem_erase_of_ne h).mpr hx)
  unfold nextOp at hn
  split at hn
  · cases hn
    exact herase _
  · split at hn
    · split at hn
      · cases hn
        exact herase _
      · cases hn
        exact .inr hx
    · split at hn
      · cases hn
      · rename_i hq
        cases hn
        exact List.mem_cons.mp (hq ▸ hx)

/-- An operation that waits at a die still stands there when the die takes its next one. -/
theorem anyOp_startDie {s : State} {id : DieId} {d : DieSt} {x : DieOp} {P : DieOp → Bool} (hP : ∀ o n, P { o with issued := n } = P o)
    (hd : dieStOf s id = some d) (hx : x ∈ d.queue) (hPx : P x = true) : anyOp (startDie s id) P = true := by
  have hqueue : d.queue.any P = true := List.any_eq_true.mpr ⟨x, hx, hPx⟩
  have hstay : anyOp s P = true := anyOp_of_dieStOf hd (by simp [hqueue])
  have hid : d.id = id := by simpa using List.find?_some hd
  unfold startDie
  simp only [hd]
  split
  · exact hstay
  · split
    · exact hstay
    · rename_i o d' hnext
      split
      · exact hstay
      · split
        · exact anyOp_of_dieStOf (dieStOf_updDie_some (f := fun x => { x with op := some (sampleOp o s.now) }) hd hid) (by simp [hqueue])
        · have hstarted := dieStOf_updDie_some (f := fun _ => { d' with op := some { o with issued := s.now } }) hd ((nextOp_id hnext).trans hid)
          refine anyOp_of_dieStOf ((dieStOf_countOp ..).trans hstarted) ?_
          rcases mem_queue_nextOp hnext hx with rfl | hrest
          · simp [hP, hPx]
          · have hany : d'.queue.any P = true := List.any_eq_true.mpr ⟨x, hrest, hPx⟩
            simp [hany]

theorem mem_insertBy {α : Type} (le : α → α → Bool) (x : α) (l : List α) : x ∈ insertBy le x l := by
  induction l with
  | nil => exact List.mem_singleton_self x
  | cons y l ih =>
    unfold insertBy
    split
    · exact List.mem_cons_self
    · exact List.mem_cons_of_mem y ih

/-- An operation granted to a working die on a connected bay stands there (R22, R233). -/
theorem anyOp_enqueueOp {s : State} {op : DieOp} {P : DieOp → Bool} (hP : ∀ o n, P { o with issued := n } = P o) (hPop : P op = true)
    (hdie : ((dieStOf s (dieOf op.page)).map (·.failed)).getD false = false) (hbay : ((bayOf s op.page.bay).map (·.connected)).getD false = true) :
    anyOp (enqueueOp s op) P = true := by
  have hgoes : (((dieStOf s (dieOf op.page)).map (·.failed)).getD false || !((bayOf s (dieOf op.page).bay).map (·.connected)).getD false) = false := by
    rw [hdie, show (dieOf op.page).bay = op.page.bay from rfl, hbay]
    rfl
  unfold enqueueOp
  simp only [hgoes, Bool.false_eq_true, if_false]
  exact anyOp_startDie hP (dieStOf_updDie s _ _ (dieStOf_id s _)) (mem_insertBy ..) hPop

/-- A verify read of a whole page. -/
def wholeRead (page : Madr) (o : DieOp) : Bool := o.page == page && o.who == 8 && o.whole

/-- A page read whole by requester 8, which draws nothing. -/
theorem anyOp_readWhole {s : State} {page : Madr} (hdie : ((dieStOf s (dieOf page)).map (·.failed)).getD false = false)
    (hbay : ((bayOf s page.bay).map (·.connected)).getD false = true) : anyOp (readWhole s page) (wholeRead page) = true := by
  unfold readWhole
  split
  · rename_i hstands
    exact hstands
  · have hdraw : drawOf s { mkOp s 1 page 8 with whole := true } = none := by
      unfold drawOf
      split <;> rfl
    unfold issueOp
    simp only [hdraw]
    exact anyOp_enqueueOp (fun _ _ => rfl) (by simp [wholeRead, mkOp]) hdie hbay

/-! ## VERIFY_READ_DONE (R230, R232) -/

section Verify

variable {s : State} {seq row : Nat} {k : SetRec} {o : OpenSet} {r : RowSt} (hstop : s.jrnl.stopFrom = none) (hk : setOf s seq = some k)
  (ho : openOf s seq = some o) (hr : o.rows.find? (fun r => r.row == row) = some r)

/-- The verify limit of a set's profile. -/
def verifyLimitOf (s : State) (k : SetRec) : Nat := ((profileOf s k.profile).map (·.verifyLimit)).getD 0

include hstop hk ho hr

theorem row_settled {reads : List VerifyRead} (hnew : r.settled = false) (hdone : rowDone s k row = true) (hpair : pairDone s k row = true)
    (hgood : ∀ v ∈ reads, verifyFails (verifyLimitOf s k) v = false)
    (hall : ∀ a ∈ verifyPages s k row, ∃ v ∈ reads, v.page = a ∧ verifyPasses (verifyLimitOf s k) v = true) :
    ∃ t, exec (.verifyReadDone seq row reads) s = .next t ∧
      (openOf t seq = none ∨ ∃ o' x, openOf t seq = some o' ∧ x ∈ o'.rows ∧ x.row = row ∧ x.settled = true) := by
  have hrow : r.row = row := by simpa using List.find?_some hr
  have hnone : (reads.filter (fun v => (verifyPages s k row).contains v.page)).find? (verifyFails (verifyLimitOf s k)) = none :=
    List.find?_eq_none.mpr fun v hv => by simp [hgood v (List.mem_filter.mp hv).1]
  have hpass : (verifyPages s k row).all (fun a =>
      (reads.filter (fun v => (verifyPages s k row).contains v.page)).any (fun v => v.page == a && verifyPasses (verifyLimitOf s k) v)) = true := by
    refine List.all_eq_true.mpr fun a ha => ?_
    obtain ⟨v, hv, rfl, hpasses⟩ := hall a ha
    exact List.any_eq_true.mpr ⟨v, List.mem_filter.mpr ⟨hv, by simpa using ha⟩, by simp [hpasses]⟩
  have hexec : exec (.verifyReadDone seq row reads) s = execVerifyReadDone seq row reads s := rfl
  unfold verifyLimitOf at hnone hpass
  simp only [execVerifyReadDone, hk, ho, hr, hstop, Option.isNone_none, Option.filter_some, Option.bind_some, Option.isSome_some, if_true, hnone, hpass,
    hnew, hdone, hpair, Bool.not_true, Bool.or_self, Bool.false_eq_true, if_false] at hexec
  have hset : RowSettled (updRow s seq row (fun r => { r with verified := true, settled := true })) seq row :=
    .inr ⟨_, { r with verified := true, settled := true }, openOf_updRow ho row _, List.mem_map.mpr ⟨r, List.mem_of_find?_eq_some hr, by simp [hrow]⟩, hrow, rfl⟩
  have hjournal : ∀ t, openings (settleJournal t seq row) = openings t := fun t => openings_of_rest (rest_settleJournal rfl ..)
  refine ⟨_, hexec, ?_⟩
  exact ((((hset.of_openings (hjournal _)).settleStandIns k row).finishSet.of_openings (openings_settleCkpt _)).of_openings
    (openings_settleFull _)).of_opens (congrArg Media.opens (endCycle_media _))

theorem row_verify_fails {v : VerifyRead} (hpage : v.page ∈ verifyPages s k row) (hfails : verifyFails (verifyLimitOf s k) v = true)
    (hlast : (k.firstAbandoned.any (fun a => decide (row < a)) && pageRebuilds s k row v.page) = false) :
    ∃ t, exec (.verifyReadDone seq row [v]) s = .next t ∧ t.media.verifyFails = s.media.verifyFails ++ [blockOf v.page] ∧
      (∃ k', setOf t seq = some k' ∧ k'.closed = true) ∧ ∃ x ∈ t.media.refresh, x.seq = seq ∧ 3 ≤ x.severity := by
  obtain rfl : k.seq = seq := by simpa using List.find?_some hk
  have hfound : ([v].filter (fun v => (verifyPages s k row).contains v.page)).find? (verifyFails (verifyLimitOf s k)) = some v := by
    simp [hpage, hfails]
  have hexec : exec (.verifyReadDone k.seq row [v]) s = execVerifyReadDone k.seq row [v] s := rfl
  unfold verifyLimitOf at hfound
  simp only [execVerifyReadDone, hk, ho, hr, hstop, Option.isNone_none, Option.filter_some, Option.bind_some, Option.isSome_some, if_true, hfound,
    rowVerifyFailed, hlast, Bool.false_eq_true, if_false, verifyFailed] at hexec
  have hgiven := givenUp_failRow (s := updMedia s (fun m => { m with verifyFails := m.verifyFails ++ [blockOf v.page] })) hstop hk ho row
  have hsettled := GivenUp.of_faults hgiven
    (congrArg MapImg.sets (map_of_rest ((rest_endCycle (L := but .map) rfl _).trans ((rest_settleFull rfl _).trans (rest_settleStand rfl _))) rfl))
    ((congrArg (fun m : Media => (m.verifyFails, m.refresh)) (endCycle_media _)).trans ((faults_of_steady (steady_settleFull _)).trans (faults_settleStand _)))
  exact ⟨_, hexec, hsettled.fails, hsettled.closed, hsettled.trigger⟩

theorem page_read_whole {v : VerifyRead} (hpage : v.page ∈ verifyPages s k row) (hfirst : inLimit (verifyLimitOf s k) v.first = false)
    (hwhole : v.whole = []) (hdie : ((dieStOf s (dieOf v.page)).map (·.failed)).getD false = false)
    (hbay : ((bayOf s v.page.bay).map (·.connected)).getD false = true) :
    ∃ t, exec (.verifyReadDone seq row [v]) s = .next t ∧ anyOp t (fun o => o.page == v.page && o.who == 8 && o.whole) = true := by
  have hpasses : verifyPasses (verifyLimitOf s k) v = false := by simp [verifyPasses, hfirst, hwhole]
  have hmine : [v].filter (fun v => (verifyPages s k row).contains v.page) = [v] := by simp [hpage]
  have hnone : [v].find? (verifyFails (verifyLimitOf s k)) = none := by simp [verifyFails, hwhole]
  have hlacks : (verifyPages s k row).all (fun a => [v].any (fun v => v.page == a && verifyPasses (verifyLimitOf s k) v)) = false := by
    refine Bool.eq_false_iff.mpr fun hall => ?_
    have hat := List.all_eq_true.mp hall v.page hpage
    simp [hpasses] at hat
  have hunread : [v].filter (fun v => !verifyPasses (verifyLimitOf s k) v) = [v] := by simp [hpasses]
  have hexec : exec (.verifyReadDone seq row [v]) s = execVerifyReadDone seq row [v] s := rfl
  unfold verifyLimitOf at hnone hlacks hunread
  simp only [execVerifyReadDone, hk, ho, hr, hstop, Option.isNone_none, Option.filter_some, Option.bind_some, Option.isSome_some, if_true, hmine, hnone,
    hlacks, hunread, Bool.not_false, List.foldl_cons, List.foldl_nil] at hexec
  refine ⟨_, hexec, ?_⟩
  unfold anyOp
  rw [endCycle_media]
  exact anyOp_readWhole hdie hbay

end Verify

/-- Settles O33: a new set by its record, a page and a row by what the programs and the parity that follow leave of them, a verify read by the row that it
settles, the set that it gives up or the read that it asks for. -/
theorem openSetsTakeAndSettleRows : Obligations.OpenSetsTakeAndSettleRows := by
  unfold Obligations.OpenSetsTakeAndSettleRows
  intro s hstop
  refine ⟨fun stream p f hp hf => setOpened hstop hp hf,
    fun page cyc p k o r hcyc hp hk ho hr hst hslots hready hsince => page_programmed hcyc hp hk ho hr hst hslots hready hsince,
    fun seq row k o r hk ho hr hopen hkept hsince => row_padded hk ho hr hopen hkept hsince, fun seq row k o r hk ho hr => ⟨?settles, ?fails, ?whole⟩⟩
  case settles => exact fun reads hnew hdone hpair hgood hall => row_settled hstop hk ho hr hnew hdone hpair hgood hall
  case fails => exact fun v hpage hfails hlast => row_verify_fails hstop hk ho hr hpage hfails hlast
  case whole => exact fun v hpage hfirst hwhole hdie hbay => page_read_whole hstop hk ho hr hpage hfirst hwhole hdie hbay

end Sys2Proof.Proofs
end

section
/-! PROOFS. BAY_CONTROL and the moves of bays (R240, R271, R369 to R374, R376, R378): what each command makes of its bay and its context, the set that an
evacuation moves, the bay that is released, and what stands when an import ends. -/
namespace Sys2Proof.Proofs
open Sys2Proof Sys2Proof.Machine Sys2Proof.Laws

/-! ## A BAY_CONTROL that ends -/

theorem stage_of_actionIn {s : State} {cid op action : Nat} {c : Ctx} (h : actionIn s cid op action = some c) : c.stage = .admitted := by
  have hturn := (Option.filter_eq_some_iff.mp h).2
  simp only [Bool.and_eq_true, beq_iff_eq] at hturn
  obtain ⟨⟨hstage, -⟩, -⟩ := hturn
  exact hstage

theorem bay_of_ctlBay {s : State} {c : Ctx} {b : Bay} (h : ctlBay s c = some b) : bayOf s b.bay = some b := by
  have hbay := bay_of_bayOf h
  rw [hbay]
  exact h

/-- A command performed outside the map ends with success and leaves the media cluster. -/
theorem performed_settled {s : State} {cid : Nat} {c : Ctx} (h : ctxOf s cid = some c) :
    let t := endCycle (performState s cid 3 0 0)
    endedWith t cid 0 0 ∧ t.media = s.media :=
  ⟨endedWith_congr (endCycle_ctxs _) (endedWith_performState h ..), (endCycle_media _).trans (media_performState ..)⟩

/-- The same where the FULL state is judged again. -/
theorem performed_settledFull {s : State} {cid : Nat} {c : Ctx} (h : ctxOf s cid = some c) :
    let t := endCycle (settleFull (performState s cid 3 0 0))
    endedWith t cid 0 0 ∧ t.media.bays = s.media.bays := by
  refine ⟨endedWith_congr ((endCycle_ctxs _).trans (settleFull_ctxs _)) (endedWith_performState h ..), ?_⟩
  rw [endCycle_media, field_of_steady (steady_settleFull _) Media.bays, media_performState]

/-- A command that its own definition refuses ends with the status and leaves the media cluster (R520). -/
theorem refused_settled {s : State} {cid op action : Nat} {c : Ctx} (h : actionIn s cid op action = some c) (status : Half) (field : Nat) :
    let t := endCycle (refuseNow s cid status field)
    endedStatus t cid status ∧ t.media = s.media := by
  obtain ⟨d, hd, hstage, hstatus⟩ := endedStatus_decide { status := status, origin := 5, fieldOffset := field } (ctxOf_of_actionIn h)
    (by rw [stage_of_actionIn h]; nofun)
  exact ⟨⟨d, (ctxOf_congr (endCycle_ctxs _) cid).trans hd, hstage, hstatus⟩,
    (endCycle_media _).trans (media_of_rest (rest_refuseNow (L := but .media) rfl ..) rfl)⟩

theorem ctxs_setBaySt (s : State) (n : Nat) (st : BaySt) : (setBaySt s n st).ctxs = s.ctxs := ctxs_of_rest (rest_setBaySt (L := but .ctxs) rfl s n st) rfl

/-! ## COMMISSION (R369, R370) -/

/-- A bay that is being commissioned, write-enabled (R370). -/
def commissioned (s : State) (b : Bay) (asSpare : Bool) : State :=
  updBay (setBaySt s b.bay .commissioning) b.bay (fun x => { x with writable := true, asSpare := asSpare, progress := 0 })

section Commission

variable {s : State} {cid : Nat} {c : Ctx} {b : Bay} (hb : ctlBay s c = some b)
include hb

theorem commission_of_may (hmay : mayCommission s b = true) (asSpare : Bool) :
    commission s cid asSpare c = performState (commissioned s b asSpare) cid 3 0 0 := by
  simp only [commission, hb, hmay]
  rfl

theorem commission_of_mayNot (hmay : mayCommission s b = false) (asSpare : Bool) : commission s cid asSpare c = refuseNow s cid 0x1002 0x30 := by
  simp only [commission, hb, hmay]
  rfl

theorem commission_settled (hc : ctxOf s cid = some c) (hmay : mayCommission s b = true) (asSpare : Bool) :
    let t := endCycle (commission s cid asSpare c)
    endedWith t cid 0 0 ∧ ∃ y, bayOf t b.bay = some y ∧ y.st = .commissioning ∧ y.writable = true ∧ y.asSpare = asSpare := by
  have hctx : ctxOf (commissioned s b asSpare) cid = some c := (ctxOf_congr (ctxs_setBaySt ..) cid).trans hc
  obtain ⟨hended, hmedia⟩ := performed_settled hctx
  obtain ⟨a, hst⟩ := bayOf_setBaySt (bay_of_ctlBay hb) .commissioning
  rw [commission_of_may hb hmay]
  refine ⟨hended, _, (bayOf_congr (congrArg Media.bays hmedia) b.bay).trans (bayOf_updBay hst fun _ => rfl), rfl, rfl, rfl⟩

end Commission

theorem exec_bayCommissionMember {s : State} {cid : Nat} {c : Ctx} (h : actionIn s cid 0x90 0 = some c) :
    exec (.bayCommissionMember cid) s = settled (commission s cid false c) := by
  have hexec : exec (.bayCommissionMember cid) s = execBayCommissionMember cid s := rfl
  simp only [hexec, execBayCommissionMember, h]

theorem exec_bayCommissionSpare {s : State} {cid : Nat} {c : Ctx} (h : actionIn s cid 0x90 1 = some c) :
    exec (.bayCommissionSpare cid) s = settled (commission s cid true c) := by
  have hexec : exec (.bayCommissionSpare cid) s = execBayCommissionSpare cid s := rfl
  simp only [hexec, execBayCommissionSpare, h]

/-! ## EVACUATE (R371) -/

section Evacuate

variable {s : State} {cid : Nat} {c : Ctx} {b : Bay} {p : Nat} {f : Profile} (h : actionIn s cid 0x90 2 = some c) (hb : ctlBay s c = some b)
  (hp : b.profile = some p) (hf : profileOf s p = some f)
include h hb hp hf

theorem exec_bayEvacuate : exec (.bayEvacuate cid) s =
    if b.st != .member then settled (refuseNow s cid 0x1002 0x30)
    else if s.kf.boot.pend != 0 && s.kf.pendQuiet then settled (refuseNow s cid 0x4005 0xFF)
    else if !evacuationFits s b p f then settled (refuseNow s cid 0x4001 0xFF)
    else
      let t := setBaySt s b.bay .evacuating
      let t := updMedia t (fun m => { m with evacLeft := (evacList t).length })
      let t := updBay t b.bay (fun x => { x with evacTotal := evacLeftOn t b.bay, progress := 0, cancelled := false })
      settled (settleFull (performState t cid 3 0 0)) := by
  have hexec : exec (.bayEvacuate cid) s = execBayEvacuate cid s := rfl
  rw [hexec]
  unfold execBayEvacuate
  simp only [h, hb, hp, hf, Option.bind_some]

theorem evacuate_refused (hst : b.st ≠ .member) : ∃ t, exec (.bayEvacuate cid) s = .next t ∧ endedStatus t cid 0x1002 :=
  ⟨_, (exec_bayEvacuate h hb hp hf).trans (if_pos (by simpa using hst)), (refused_settled h ..).1⟩

variable (hst : b.st = .member) (hquiet : s.kf.boot.pend = 0 ∨ s.kf.pendQuiet = false)
include hst hquiet

theorem exec_bayEvacuate_member : exec (.bayEvacuate cid) s =
    if !evacuationFits s b p f then settled (refuseNow s cid 0x4001 0xFF)
    else
      let t := setBaySt s b.bay .evacuating
      let t := updMedia t (fun m => { m with evacLeft := (evacList t).length })
      let t := updBay t b.bay (fun x => { x with evacTotal := evacLeftOn t b.bay, progress := 0, cancelled := false })
      settled (settleFull (performState t cid 3 0 0)) := by
  have hgoes : (s.kf.boot.pend != 0 && s.kf.pendQuiet) = false := by rcases hquiet with h | h <;> simp [h]
  rw [exec_bayEvacuate h hb hp hf, if_neg (by simp [hst]), if_neg (by simp only [hgoes]; exact Bool.false_ne_true)]

theorem evacuate_unfit (hfits : evacuationFits s b p f = false) : ∃ t, exec (.bayEvacuate cid) s = .next t ∧ endedStatus t cid 0x4001 :=
  ⟨_, (exec_bayEvacuate_member h hb hp hf hst hquiet).trans (if_pos (by simp [hfits])), (refused_settled h ..).1⟩

theorem evacuate_begun (hfits : evacuationFits s b p f = true) :
    ∃ t, exec (.bayEvacuate cid) s = .next t ∧ endedWith t cid 0 0 ∧
      ∃ y, bayOf t b.bay = some y ∧ y.st = .evacuating ∧ y.progress = 0 ∧ y.cancelled = false := by
  have hexec := (exec_bayEvacuate_member h hb hp hf hst hquiet).trans (if_neg (by simp [hfits]))
  obtain ⟨a, hst'⟩ := bayOf_setBaySt (bay_of_ctlBay hb) .evacuating
  extract_lets t1 t2 t3 at hexec
  have hctx : ctxOf t3 cid = some c := (ctxOf_congr (ctxs_setBaySt s b.bay .evacuating) cid).trans (ctxOf_of_actionIn h)
  have hbay : bayOf t2 b.bay = some { b with st := .evacuating, stateAet := a } := hst'
  obtain ⟨hended, hbays⟩ := performed_settledFull hctx
  exact ⟨_, hexec, hended, _, (bayOf_congr hbays b.bay).trans (bayOf_updBay hbay fun _ => rfl), rfl, rfl, rfl⟩

end Evacuate

/-! ## CANCEL_EVACUATE (R374) -/

theorem bayOf_setBaySt_ne {s : State} {n m : Nat} (hne : n ≠ m) (st : BaySt) : bayOf (setBaySt s m st) n = bayOf s n := by
  unfold setBaySt
  split
  · rfl
  · split
    · rfl
    · exact (bayOf_updBay_ne (journal s _) hne.symm (fun y => { y with st := st, stateAet := s.cad.aet }) fun _ => rfl).trans
        (bayOf_congr (congrArg Media.bays (media_journal ..)) n)

/-- A bay whose cancelled evacuation ends is MEMBER again (R374). -/
def backToMember (s : State) (b : Bay) : State := updBay (setBaySt s b.bay .member) b.bay (fun x => { x with cancelled := false, progress := 0 })

theorem bayOf_backToMember {s : State} {b y : Bay} (hy : bayOf s b.bay = some y) :
    ∃ z, bayOf (backToMember s b) b.bay = some z ∧ z.st = .member ∧ z.cancelled = false := by
  obtain ⟨a, hmember⟩ := bayOf_setBaySt hy .member
  exact ⟨_, bayOf_updBay hmember fun _ => rfl, rfl, rfl⟩

theorem bayOf_backToMember_ne {s : State} {b : Bay} {n : Nat} (hne : n ≠ b.bay) : bayOf (backToMember s b) n = bayOf s n :=
  (bayOf_updBay_ne _ hne.symm (fun x => { x with cancelled := false, progress := 0 }) fun _ => rfl).trans (bayOf_setBaySt_ne hne _)

/-- Of the bays made MEMBER again one after the other, each that is listed, or was so already, is MEMBER. -/
theorem bayOf_foldl_backToMember {n : Nat} (l : List Bay) : ∀ {s : State} {y : Bay}, bayOf s n = some y →
    ((y.st = .member ∧ y.cancelled = false) ∨ ∃ b ∈ l, b.bay = n) →
    ∃ z, bayOf (l.foldl backToMember s) n = some z ∧ z.st = .member ∧ z.cancelled = false := by
  induction l with
  | nil => exact fun hy h => ⟨_, hy, h.resolve_right (by simp)⟩
  | cons b l ih =>
    intro s y hy h
    rw [List.foldl_cons]
    by_cases hn : b.bay = n
    · obtain ⟨z, hz, hmember⟩ := bayOf_backToMember (b := b) (hn ▸ hy)
      exact ih (hn ▸ hz) (.inl hmember)
    · refine ih ((bayOf_backToMember_ne (Ne.symm hn)).trans hy) (h.imp_right ?_)
      rintro ⟨x, hx, rfl⟩
      exact ⟨x, (List.mem_cons.mp hx).resolve_left (by rintro rfl; exact hn rfl), rfl⟩

theorem ctxs_settleCancels (s : State) : (settleCancels s).ctxs = s.ctxs := ctxs_of_rest (rest_settleCancels (L := but .ctxs) rfl s) rfl

section Cancel

variable {s : State} {cid : Nat} {c : Ctx} {b : Bay} (h : actionIn s cid 0x90 3 = some c) (hb : ctlBay s c = some b)
include h hb

theorem evacuation_cancelled (hst : b.st = .evacuating) (hnew : b.cancelled = false) :
    ∃ t, exec (.bayCancelEvacuate cid) s = .next t ∧ endedWith t cid 0 0 ∧
      (evacBusy s = true → bayOf t b.bay = some { b with cancelled := true }) ∧
      (evacBusy s = false → ∃ y, bayOf t b.bay = some y ∧ y.st = .member ∧ y.cancelled = false) := by
  have hbay := bay_of_ctlBay hb
  have hexec : exec (.bayCancelEvacuate cid) s = execBayCancelEvacuate cid s := rfl
  simp only [execBayCancelEvacuate, h, hb, hst, hnew] at hexec
  generalize hu : updBay s b.bay (fun x => { x with cancelled := true }) = u at hexec
  have hcancelled : bayOf u b.bay = some { b with cancelled := true } := hu ▸ bayOf_updBay hbay fun _ => rfl
  have hbusy : evacBusy u = evacBusy s := hu ▸ rfl
  have hctx : ctxOf (settleCancels u) cid = some c :=
    (ctxOf_congr ((ctxs_settleCancels u).trans (hu ▸ rfl : u.ctxs = s.ctxs)) cid).trans (ctxOf_of_actionIn h)
  obtain ⟨hended, hbays⟩ := performed_settledFull hctx
  refine ⟨_, hexec, hended, fun hb => ?_, fun hidle => ?_⟩
  · rw [bayOf_congr hbays, settleCancels, if_pos (hbusy.trans hb)]
    exact hcancelled
  · rw [bayOf_congr hbays, settleCancels, if_neg (by simp [hbusy, hidle])]
    refine bayOf_foldl_backToMember _ hcancelled (.inr ⟨_, List.mem_filter.mpr ⟨List.mem_of_find?_eq_some hcancelled, ?_⟩, rfl⟩)
    simp [hst]

end Cancel

/-! ## RELEASE and the end of an evacuation (R373) -/

/-- The retired BAY_UIDs, the group that is imported, and the number of the newest set. -/
def ledger (s : State) : List Nat × List Nat × Nat := (s.media.retired, s.media.importing, s.media.blockSeqHigh)

theorem ledger_of_media {s t : State} (h : t.media = s.media) : ledger t = ledger s := by unfold ledger; rw [h]

theorem ledger_of_rest {s t : State} (h : rest (but .media) t = rest (but .media) s) : ledger t = ledger s := ledger_of_media (media_of_rest h rfl)

theorem ledger_of_steady {s t : State} (h : steady t = steady s) (hseq : seqHigh t = seqHigh s) : ledger t = ledger s := by
  have hretired := field_of_steady h Media.retired
  have himporting := field_of_steady h Media.importing
  have hhigh : t.media.blockSeqHigh = s.media.blockSeqHigh := hseq
  unfold ledger
  rw [hretired, himporting, hhigh]

theorem ledger_settleFull (s : State) : ledger (settleFull s) = ledger s :=
  ledger_of_steady (steady_settleFull s) (seqHigh_of_openings (openings_settleFull s))

theorem ledger_takeSpare (s : State) (p bay : Nat) : ledger (takeSpare s p bay) = ledger s := by
  unfold takeSpare
  dsimp only
  split <;> rfl

theorem ledger_drawLost (n : Nat) (s : State) : ledger (drawLost s n) = ledger s := by
  induction n generalizing s with
  | zero => rfl
  | succ n ih =>
    unfold drawLost
    split
    · split
      · rfl
      · rw [ih, ledger_of_rest (rest_sealIfSpent rfl ..), ledger_takeSpare]
    · rfl

theorem ledger_settleLoss (s : State) : ledger (settleLoss s) = ledger s := (ledger_drawLost ..).trans rfl

theorem ledger_settleAlert (s : State) : ledger (settleAlert s) = ledger s := by
  unfold settleAlert
  dsimp only
  repeat' split
  all_goals rfl

theorem ledger_settleLowered (s : State) (p : Nat) : ledger (settleLowered s p) = ledger s := by
  unfold settleLowered
  dsimp only
  split <;> rfl

theorem ledger_recomputeHorizon (s : State) : ledger (recomputeHorizon s) = ledger s := by
  unfold recomputeHorizon
  rw [view_foldl (view := ledger) ledger_settleLowered, ledger_settleAlert]
  rfl

theorem ledger_settleJoin (s : State) : ledger (settleFull (settleSeal (recomputeHorizon s))) = ledger s := by
  rw [ledger_settleFull, ledger_of_rest (rest_settleSeal rfl _), ledger_recomputeHorizon]

/-- A bay isolated and powered off, its evacuation over (R373). -/
def releasedBay (x : Bay) : Bay :=
  { x with connected := false, pwrEn := false, writable := false, spareLeft := 0, cancelled := false, progress := 10000 }

theorem releaseBay_eq (s : State) (b : Bay) : releaseBay s b = settleFull (settleSeal (recomputeHorizon (settleLoss
    (updBay (stopBayDies (retireUid (setBaySt s b.bay .released) b.uid) b.bay) b.bay releasedBay)))) := rfl

theorem mem_retired_retireUid (s : State) {uid : Nat} (h : uid ≠ 0) : uid ∈ (retireUid s uid).media.retired := by
  unfold retireUid
  rw [if_neg (by simpa using h)]
  exact List.mem_cons_self

/-- A released bay is isolated and powered off, its BAY_UID retired. -/
theorem releaseBay_released {s : State} {b : Bay} (hb : bayOf s b.bay = some b) :
    (∃ y, bayOf (releaseBay s b) b.bay = some y ∧ y.st = .released ∧ y.connected = false ∧ y.pwrEn = false ∧ y.writable = false) ∧
      (b.uid ≠ 0 → b.uid ∈ (releaseBay s b).media.retired) := by
  rw [releaseBay_eq]
  constructor
  · obtain ⟨a, hst⟩ := bayOf_setBaySt hb .released
    have hretired : bayOf (retireUid (setBaySt s b.bay .released) b.uid) b.bay = some { b with st := .released, stateAet := a } := by
      unfold retireUid
      split <;> exact hst
    obtain ⟨y, hy, hsame⟩ := bayOf_of_seats ((seats_settleJoin _).trans (seats_settleLoss _))
      (bayOf_updBay (f := releasedBay) (bayOf_stopBayDies hretired) fun _ => rfl)
    exact ⟨y, hy, field_of_shareless hsame Bay.st, field_of_shareless hsame Bay.connected, field_of_shareless hsame Bay.pwrEn,
      field_of_shareless hsame Bay.writable⟩
  · intro huid
    have hlists := (ledger_settleJoin _).trans (ledger_settleLoss (updBay (stopBayDies (retireUid (setBaySt s b.bay .released) b.uid) b.bay) b.bay releasedBay))
    rw [show (settleFull _).media.retired = _ from congrArg Prod.fst hlists]
    exact mem_retired_retireUid _ huid

theorem ctxs_releaseBay (s : State) (b : Bay) : (releaseBay s b).ctxs = s.ctxs := ctxs_of_rest (rest_releaseBay (L := but .ctxs) rfl s b) rfl

theorem bay_released {s : State} {cid : Nat} {c : Ctx} {b : Bay} (h : actionIn s cid 0x90 4 = some c) (hb : ctlBay s c = some b)
    (hst : b.st = .spare ∨ b.st = .inserted) (hfree : s.media.importing.contains b.bay = false) :
    ∃ t, exec (.bayRelease cid) s = .next t ∧ endedWith t cid 0 0 ∧
      (∃ y, bayOf t b.bay = some y ∧ y.st = .released ∧ y.connected = false ∧ y.pwrEn = false ∧ y.writable = false) ∧
      (b.uid ≠ 0 → b.uid ∈ t.media.retired) := by
  have hgoes : ((b.st != .spare && b.st != .inserted) || s.media.importing.contains b.bay) = false := by
    rw [hfree, Bool.or_false]
    rcases hst with h | h <;> simp [h]
  have hexec : exec (.bayRelease cid) s = execBayRelease cid s := rfl
  simp only [execBayRelease, h, hb, hgoes] at hexec
  obtain ⟨hended, hmedia⟩ := performed_settled ((ctxOf_congr (ctxs_releaseBay s b) cid).trans (ctxOf_of_actionIn h))
  have hreleased := releaseBay_released (bay_of_ctlBay hb)
  refine ⟨_, hexec, hended, ?_⟩
  rw [bayOf_congr (congrArg Media.bays hmedia), hmedia]
  exact hreleased

theorem evacuation_done {s : State} {b : Bay} (hb : bayOf s b.bay = some b) (hst : b.st = .evacuating) (hgoes : b.cancelled = false)
    (hleft : evacLeftOn s b.bay = 0) (hstop : s.jrnl.stopFrom = none) :
    ∃ t, exec (.evacuationDone b.bay) s = .next t ∧
      (∃ y, bayOf t b.bay = some y ∧ y.st = .released ∧ y.connected = false ∧ y.pwrEn = false ∧ y.writable = false) ∧
      (b.uid ≠ 0 → b.uid ∈ t.media.retired) := by
  have hexec : exec (.evacuationDone b.bay) s = execEvacuationDone b.bay s := rfl
  simp only [execEvacuationDone, hb, hst, hgoes, hleft, hstop] at hexec
  refine ⟨_, hexec, ?_⟩
  rw [bayOf_congr (congrArg Media.bays (endCycle_media _)), endCycle_media]
  exact releaseBay_released hb

/-! ## A set of the evacuation's list moved (R372) -/

/-- A set of the list that has not begun is moved by its one column or by a refresh trigger. -/
theorem evacSet_idle {s : State} {k : SetRec} (hclaim : claimOf s .evacuate k.seq = none) (hstand : k.standIns.any (fun x => !x.done) = false)
    (hclosed : k.closed = true) (hasked : s.media.refresh.any (fun t => t.seq == k.seq && t.severity == 3) = false) :
    evacSet s k = match evacBlocks s k with
      | [(col, _)] => (columnMove s k col).or (some (raiseTrigger s k.seq 3))
      | _ => some (raiseTrigger s k.seq 3) := by
  simp only [evacSet, hclaim, hstand, hclosed, hasked, Option.isSome_none, Bool.not_true, Bool.or_self, Bool.false_eq_true, if_false] <;> rfl

/-- The refresh triggers and the claims on sets. -/
def work (s : State) : List Trigger × List Claim := (s.media.refresh, s.media.claims)

theorem work_of_media {s t : State} (h : t.media = s.media) : work t = work s := by unfold work; rw [h]

theorem work_of_steady {s t : State} (h : steady t = steady s) : work t = work s := by
  have hrefresh := field_of_steady h Media.refresh
  have hclaims := field_of_steady h Media.claims
  unfold work
  rw [hrefresh, hclaims]

theorem work_updMedia_evacLeft (s : State) (n : Nat) : work (updMedia s (fun m => { m with evacLeft := n })) = work s := rfl

theorem work_noteEvac (s : State) : work (noteEvac s) = work s := by
  have hjournal : ∀ t r, work (journal t r) = work t := fun t r => work_of_media (media_journal t r)
  have hbays : ∀ (l : List Bay) (g : Bay → Bay → Bay) (t : State), work (l.foldl (fun t b => updBay t b.bay (g b)) t) = work t := fun l g t => by
    refine view_foldl (view := work) (fun t b => ?_) l t
    rfl
  unfold noteEvac
  extract_lets left bays t
  have ht : work t = work s := hbays ..
  split
  · exact ht
  · exact (work_updMedia_evacLeft ..).trans ((view_foldl (view := work) (fun t b => hjournal t _) bays t).trans ht)

/-- What the move of such a set makes of the state: a trigger of severity 3 unless its one column is moved. -/
theorem evacSet_idle_cases {s : State} {k : SetRec} (hclaim : claimOf s .evacuate k.seq = none) (hstand : k.standIns.any (fun x => !x.done) = false)
    (hclosed : k.closed = true) (hasked : s.media.refresh.any (fun t => t.seq == k.seq && t.severity == 3) = false) :
    ∃ u, evacSet s k = some u ∧ ((evacBlocks s k).length ≠ 1 → u = raiseTrigger s k.seq 3) ∧
      ∀ col m t0, evacBlocks s k = [(col, m)] → columnMove s k col = some t0 → u = t0 := by
  rw [evacSet_idle hclaim hstand hclosed hasked]
  match evacBlocks s k with
  | [] => exact ⟨_, rfl, fun _ => rfl, fun _ _ _ h => by simp at h⟩
  | [(col, m)] =>
    cases hmove : columnMove s k col with
    | none =>
      refine ⟨raiseTrigger s k.seq 3, by simp only [hmove, Option.none_or], fun h => absurd rfl h, fun col' m' t0 heq hsome => ?_⟩
      obtain ⟨rfl, -⟩ : col = col' ∧ m = m' := by simpa using heq
      rw [hmove] at hsome
      cases hsome
    | some u =>
      refine ⟨u, by simp only [hmove, Option.some_or], fun h => absurd rfl h, fun col' m' t0 heq hsome => ?_⟩
      obtain ⟨rfl, -⟩ : col = col' ∧ m = m' := by simpa using heq
      exact Option.some.inj (hmove.symm.trans hsome)
  | _ :: _ :: _ => exact ⟨_, rfl, fun _ => rfl, fun _ _ _ h => by simp at h⟩

theorem exec_evacuationSetMove {s u : State} {k : SetRec} {l : List SetRec} (hready : notReady s = false) (hstop : s.jrnl.stopFrom = none)
    (hlist : ((evacList s).take 32).filter (fun k => (evacBlocks s k).any (fun c => !((bayOf s c.2.bay).map (·.cancelled)).getD true)) = k :: l)
    (hu : evacSet s k = some u) : exec .evacuationSetMove s = settled (settleFull (noteEvac u)) := by
  have hexec : exec .evacuationSetMove s = execEvacuationSetMove s := rfl
  simp only [hexec, execEvacuationSetMove, hready, hstop, hlist, List.findSome?_cons, hu]
  rfl

theorem evacuation_moves {s : State} {k : SetRec} {l : List SetRec} (hready : notReady s = false) (hstop : s.jrnl.stopFrom = none)
    (hlist : ((evacList s).take 32).filter (fun k => (evacBlocks s k).any (fun c => !((bayOf s c.2.bay).map (·.cancelled)).getD true)) = k :: l)
    (hclaim : claimOf s .evacuate k.seq = none) (hstand : k.standIns.any (fun x => !x.done) = false) (hclosed : k.closed = true)
    (hasked : s.media.refresh.any (fun t => t.seq == k.seq && t.severity == 3) = false) :
    ∃ t, exec .evacuationSetMove s = .next t ∧
      ((evacBlocks s k).length ≠ 1 → ∃ x ∈ t.media.refresh, x.seq = k.seq ∧ 3 ≤ x.severity) ∧
      ∀ col m t0, evacBlocks s k = [(col, m)] → columnMove s k col = some t0 → t.map = t0.map ∧ t.media.claims = t0.media.claims := by
  obtain ⟨u, hu, hraised, hmoved⟩ := evacSet_idle_cases hclaim hstand hclosed hasked
  have hwork : work (endCycle (settleFull (noteEvac u))) = work u := by
    rw [work_of_media (endCycle_media _), work_of_steady (steady_settleFull _), work_noteEvac]
  have hmap : (endCycle (settleFull (noteEvac u))).map = u.map :=
    map_of_rest ((rest_endCycle (L := but .map) rfl _).trans ((rest_settleFull rfl _).trans (rest_noteEvac rfl u))) rfl
  refine ⟨_, exec_evacuationSetMove hready hstop hlist hu, fun hblocks => ?_, fun col m t0 hblocks hmove => ?_⟩
  · have hrefresh : (endCycle (settleFull (noteEvac u))).media.refresh = u.media.refresh := congrArg Prod.fst hwork
    rw [hrefresh, hraised hblocks]
    exact refresh_raiseTrigger s k.seq 3
  · rw [← hmoved col m t0 hblocks hmove]
    exact ⟨hmap, congrArg Prod.snd hwork⟩

/-! ## IMPORT begun (R376) -/

section Import

variable {s : State} {cid : Nat} {c : Ctx} (h : actionIn s cid 0x90 5 = some c) (v : ImportSurvey)
include h

theorem import_refused (hcode : importCode s (ctlBay s c) v ≠ 0) :
    ∃ t d, exec (.bayImport cid v) s = .next t ∧ ctxOf t cid = some d ∧ d.stage = .ended ∧ d.status = 0x1002 ∧
      d.result0 = w32 (importCode s (ctlBay s c) v) := by
  have hexec : exec (.bayImport cid v) s = execBayImport cid v s := rfl
  simp only [execBayImport, h, bne_iff_ne.mpr hcode, if_true] at hexec
  obtain ⟨d, hd, hstage, hstatus⟩ := endedStatus_decide { status := 0x1002, origin := 5, fieldOffset := 0x30 } (ctxOf_of_actionIn h)
    (by rw [stage_of_actionIn h]; nofun)
  exact ⟨_, _, hexec, ctxOf_updCtx (s := refuseNow s cid 0x1002 0x30) hd fun _ h => h, hstage, hstatus, rfl⟩

theorem import_begun (hcode : importCode s (ctlBay s c) v = 0) :
    ∃ t, exec (.bayImport cid v) s = .next t ∧ endedWith t cid 0 0 ∧
      ∀ b root, ctlBay s c = some b → newestRoot v.roots b.uid = some root → t.media.importing = importGroup s root := by
  have hexec : exec (.bayImport cid v) s = execBayImport cid v s := rfl
  simp only [execBayImport, h, hcode] at hexec
  refine ⟨_, hexec, endedWith_performState ((ctxOf_updMedia ..).trans (ctxOf_of_actionIn h)) .., fun b root hb hroot => ?_⟩
  rw [media_performState]
  simp only [updMedia_media, hb, Option.bind_some, hroot, Option.getD_some]

end Import

/-! ## The number of the newest set and the imported group through the media's operations -/

theorem ledger_writePage (s : State) (p : PageRec) (who : Nat) : ledger (writePage s p who) = ledger s :=
  ledger_of_steady (steady_writePage ..) (seqHigh_of_openings (openings_writePage ..))

theorem ledger_placeSlot {s t : State} {stream : Stream} {kind who : Nat} {x : SlotRec} {a : Madr} (h : placeSlot s stream kind who x = some (t, a)) :
    ledger t = ledger s := ledger_of_steady (steady_placeSlot h) (seqHigh_placeSlot h)

theorem seqHigh_padRow (s : State) (k : SetRec) (row who : Nat) : seqHigh (padRow s k row who) = seqHigh s := by
  rw [padRow_eq, seqHigh_programParity]
  exact (seqHigh_of_openings (openings_rowProgrammed s k row who) :)

theorem ledger_padOpenRow (s : State) (seq : Nat) : ledger (padOpenRow s seq) = ledger s := by
  unfold padOpenRow
  split
  · split
    · exact ledger_of_steady (steady_padRow ..) (seqHigh_padRow ..)
    · rfl
  · rfl

theorem ledger_padTail (s : State) (k : SetRec) : ledger (padTail s k) = ledger s := by
  refine view_foldl (view := ledger) (fun t c => ?_) _ s
  split
  · rfl
  · exact view_foldl (view := ledger) (fun u n => ledger_writePage ..) _ t

theorem ledger_padPair (s : State) (k : SetRec) (lastValid : Option Nat) : ledger (padPair s k lastValid) = ledger s := by
  have hfill : ∀ (u : State) (b : Bool) (p : PageRec) (who : Nat), ledger (if b then u else writePage u p who) = ledger u := fun u b p who => by
    split
    · rfl
    · exact ledger_writePage ..
  refine view_foldl (view := ledger) (fun t c => ?_) _ s
  split
  · rfl
  · exact view_foldl (view := ledger) (fun u n => hfill ..) _ t

theorem ledger_commitRec (s : State) (body : JRec) : ledger (commitRec s body) = ledger s := ledger_of_rest (rest_commitRec rfl s body)

theorem ledger_journal (s : State) (body : JRec) : ledger (journal s body) = ledger s := ledger_of_media (media_journal s body)

theorem ledger_updOpen (s : State) (seq : Nat) (f : OpenSet → OpenSet) : ledger (updOpen s seq f) = ledger s := rfl

theorem ledger_closeSet (s : State) (seq : Nat) (last abandoned : Option Nat) : ledger (closeSet s seq last abandoned) = ledger s := by
  have hunflush : ∀ t n, ledger (unflush t seq n) = ledger t := fun _ _ => rfl
  unfold closeSet
  dsimp only
  split
  · rfl
  · split
    · rfl
    · split
      · rw [ledger_padTail, ledger_updOpen, hunflush, ledger_commitRec]
      · rw [ledger_padPair, ledger_updOpen, hunflush, ledger_commitRec]

theorem ledger_openStandIn (s : State) (k : SetRec) (col : Nat) (page0 : Madr) (who : Nat) : ledger (openStandIn s k col page0 who) = ledger s :=
  (ledger_writePage ..).trans (ledger_commitRec ..)

theorem ledger_fillStandIn (s : State) (k : SetRec) (x : StandIn) (row who : Nat) : ledger (fillStandIn s k x row who) = ledger s := by
  refine view_foldl (view := ledger) (fun t u => ?_) _ s
  dsimp only
  split <;> exact ledger_writePage ..

theorem ledger_handleOpen (s : State) (k : SetRec) (col : Nat) : ledger (handleOpen s k col) = ledger s := by
  have hraise : ∀ t : State, ledger (raiseTrigger t k.seq 3) = ledger t := fun _ => rfl
  unfold handleOpen
  split
  · rw [ledger_closeSet, view_foldl (view := ledger) (fun t r => ledger_fillStandIn ..), ledger_openStandIn, ledger_padOpenRow]
  · dsimp only
    split
    · rw [hraise, ledger_closeSet]
    · rw [ledger_closeSet]
  · rfl

theorem ledger_finishSet (s : State) (seq : Nat) : ledger (finishSet s seq) = ledger s := by
  unfold finishSet
  split
  · split <;> rfl
  · rfl

theorem ledger_afterMemberFail (s : State) : ledger (afterMemberFail s) = ledger s := by
  have hcancel : ∀ t : State, ledger (cancelActivation t) = ledger t := fun t => ledger_of_rest (rest_cancelActivation rfl t)
  unfold afterMemberFail
  dsimp only
  rw [ledger_settleFull, hcancel]
  refine Eq.trans (view_foldl (view := ledger) ?_ _ _) ?_
  · intro t o
    split
    · rfl
    · split
      · rfl
      · split
        · rw [ledger_finishSet, ledger_handleOpen]
        · rfl
  · repeat' split
    all_goals rfl

theorem ledger_moveUnit {s t : State} {ag : Agent} {ns lba : Nat} {old : Madr} (h : moveUnit s ag ns lba old = some t) : ledger t = ledger s := by
  unfold moveUnit at h
  split at h
  · cases h
  · split at h
    · cases h
    · obtain ⟨⟨u, a⟩, hplace, rfl⟩ := Option.map_eq_some_iff.mp h
      exact (ledger_placeSlot hplace :)

theorem ledger_declareLost (s : State) (k : SetRec) (row : Nat) (bad : List Madr) : ledger (declareLost s k row bad) = ledger s := by
  unfold declareLost
  split
  · rfl
  · refine Eq.trans (view_foldl (view := ledger) (fun t u => ?_) _ _) (view_foldl (view := ledger) (fun t ns => ?_) _ s)
    · split
      · rfl
      · cases hmove : moveUnit t .rebuild u.1 u.2.1 u.2.2 with
        | none => rfl
        | some u => exact ledger_moveUnit hmove
    · rfl

theorem ledger_setAtRisk (s : State) (l : List Nat) : ledger (setAtRisk s l) = ledger s := by
  unfold setAtRisk
  dsimp only
  repeat' split
  all_goals rfl

theorem ledger_writeTile (s : State) (ns seg : Nat) : ledger (writeTile s ns seg) = ledger s := by
  unfold writeTile
  split
  · split
    · rfl
    · rename_i hplace
      refine Eq.trans ?_ (ledger_placeSlot hplace)
      dsimp only
      split <;> rfl
  · rfl

theorem ledger_sizeTier (s : State) : ledger (sizeTier s) = ledger s := by
  unfold sizeTier
  dsimp only
  split
  · rfl
  · refine (view_foldl (view := ledger) (fun t f => ?_) _ _).trans rfl
    split
    · rfl
    · exact ledger_writeTile ..

theorem ledger_growPool (s : State) : ledger (growPool s) = ledger s := by
  unfold growPool
  dsimp only
  split
  · rw [ledger_sizeTier]; rfl
  · rfl

theorem ledger_setBaySt (s : State) (n : Nat) (st : BaySt) : ledger (setBaySt s n st) = ledger s := by
  unfold setBaySt
  split
  · rfl
  · split
    · rfl
    · exact (ledger_journal s _ :)

theorem ledger_joinMember (s : State) (n : Nat) : ledger (joinMember s n) = ledger s := by
  have hjoined : ledger (growPool (setBaySt s n .member)) = ledger s := (ledger_growPool _).trans (ledger_setBaySt ..)
  unfold joinMember
  dsimp only
  split
  · exact (hjoined :)
  · exact hjoined

theorem ledger_logBay (s : State) (b : Bay) : ledger (logBay s b) = ledger s := by
  unfold logBay
  split <;> rfl

theorem ledger_joinGroup (s : State) (n : Nat) : ledger (joinGroup s n) = ledger s := by
  have hadopt : ∀ b, ledger (adopt s b).1 = ledger s := fun b => ledger_of_rest (rest_adopt rfl s b)
  have hlog : ∀ t : State, ledger (match bayOf t n with | some x => logBay t x | none => t) = ledger t := fun t => by
    split
    · exact ledger_logBay ..
    · rfl
  unfold joinGroup
  split
  · rfl
  · dsimp only
    refine (hlog _).trans ?_
    split
    · exact (ledger_setBaySt ..).trans (hadopt _)
    · exact (ledger_joinMember ..).trans (hadopt _)

/-! ## The journal only grows while an import ends -/

/-- Every record of s is still in the journal of t. -/
def JournalGrows (s t : State) : Prop := s.jrnl.recs <+: t.jrnl.recs

theorem JournalGrows.refl (s : State) : JournalGrows s s := ⟨[], List.append_nil _⟩

theorem JournalGrows.trans {s t u : State} (h : JournalGrows s t) (g : JournalGrows t u) : JournalGrows s u := List.IsPrefix.trans h g

theorem journalGrows_of_recs {s t : State} (h : t.jrnl.recs = s.jrnl.recs) : JournalGrows s t := by
  unfold JournalGrows
  rw [h]

theorem journalGrows_of_rest {s t : State} (h : rest (but .jrnl) t = rest (but .jrnl) s) : JournalGrows s t := by
  have hjrnl : t.jrnl = s.jrnl := jrnl_of_rest h rfl
  exact journalGrows_of_recs (congrArg Jrnl.recs hjrnl)

theorem journalGrows_foldl {α : Type} {f : State → α → State} (hf : ∀ t a, JournalGrows t (f t a)) (l : List α) (s : State) :
    JournalGrows s (l.foldl f s) :=
  List.foldlRecOn (motive := fun t => JournalGrows s t) l f (JournalGrows.refl s) fun t ht a _ => JournalGrows.trans ht (hf t a)

theorem jrnl_journal {s : State} (hstop : s.jrnl.stopFrom = none) (body : JRec) :
    (journal s body).jrnl = { s.jrnl with
      nextSeq := s.jrnl.nextSeq + 1, recs := s.jrnl.recs ++ [⟨s.jrnl.nextSeq, body, !mirroring s, false⟩], cleanStands := false } := by
  have hgoes : ¬ s.jrnl.stopFrom.isSome = true := by simp [hstop]
  rw [journal, if_neg hgoes]
  exact jrnl_of_rest (rest_mirrorFrame (L := but .jrnl) rfl ..) rfl

theorem mem_recs_journal {s : State} (hstop : s.jrnl.stopFrom = none) (body : JRec) : ∃ x ∈ (journal s body).jrnl.recs, x.body = body := by
  rw [jrnl_journal hstop]
  exact ⟨_, List.mem_append_right _ List.mem_cons_self, rfl⟩

theorem journal_stopped {s : State} {n : Nat} (hstop : s.jrnl.stopFrom = some n) (body : JRec) : journal s body = s := if_pos (by simp [hstop])

theorem journalGrows_journal (s : State) (body : JRec) : JournalGrows s (journal s body) := by
  cases hstop : s.jrnl.stopFrom with
  | none => rw [JournalGrows, jrnl_journal hstop]; exact ⟨_, rfl⟩
  | some n => rw [journal_stopped hstop]; exact JournalGrows.refl _

theorem stopFrom_journal (s : State) (body : JRec) : (journal s body).jrnl.stopFrom = s.jrnl.stopFrom := by
  cases hstop : s.jrnl.stopFrom with
  | none => rw [jrnl_journal hstop, hstop]
  | some n => rw [journal_stopped hstop, hstop]

theorem journalGrows_commitRec (s : State) (body : JRec) : JournalGrows s (commitRec s body) := by
  have hjrnl : (commitRec s body).jrnl = (journal s body).jrnl := by
    cases hstop : s.jrnl.stopFrom with
    | none => rw [jrnl_commitRec hstop, jrnl_journal hstop]
    | some n => rw [journal_stopped hstop, commitRec, if_pos (by simp [hstop])]
  exact (journalGrows_journal s body).trans (journalGrows_of_recs (congrArg Jrnl.recs hjrnl))

theorem journalGrows_closeSet (s : State) (seq : Nat) (last abandoned : Option Nat) : JournalGrows s (closeSet s seq last abandoned) := by
  have hopen : ∀ (f : OpenSet → OpenSet) (n : Nat), JournalGrows s (updOpen (unflush (commitRec s (.setClose seq last abandoned)) seq n) seq f) :=
    fun f n => (journalGrows_commitRec s _).trans (journalGrows_of_recs rfl)
  unfold closeSet
  dsimp only
  split
  · exact JournalGrows.refl _
  · split
    · exact JournalGrows.refl _
    · split
      · exact (hopen _ _).trans (journalGrows_of_rest (rest_padTail rfl ..))
      · exact (hopen _ _).trans (journalGrows_of_rest (rest_padPair rfl ..))

theorem journalGrows_openStandIn (s : State) (k : SetRec) (col : Nat) (page0 : Madr) (who : Nat) : JournalGrows s (openStandIn s k col page0 who) :=
  (journalGrows_commitRec s _).trans (journalGrows_of_rest (rest_writePage rfl ..))

theorem journalGrows_handleOpen (s : State) (k : SetRec) (col : Nat) : JournalGrows s (handleOpen s k col) := by
  unfold handleOpen
  split
  · refine ((journalGrows_of_rest (rest_padOpenRow rfl s k.seq)).trans (journalGrows_openStandIn ..)).trans
      ((journalGrows_foldl (fun t r => journalGrows_of_rest (rest_fillStandIn rfl ..)) _ _).trans (journalGrows_closeSet ..))
  · dsimp only
    split
    · exact (journalGrows_closeSet ..).trans (journalGrows_of_recs rfl)
    · exact journalGrows_closeSet ..
  · exact JournalGrows.refl _

theorem journalGrows_afterMemberFail (s : State) : JournalGrows s (afterMemberFail s) := by
  have hends : ∀ t, JournalGrows t (settleFull (cancelActivation t)) := fun t =>
    journalGrows_of_rest ((rest_settleFull rfl _).trans (rest_cancelActivation rfl t))
  unfold afterMemberFail
  dsimp only
  refine JournalGrows.trans (JournalGrows.trans (journalGrows_of_recs ?_) (journalGrows_foldl (fun t o => ?_) _ _)) (hends _)
  · repeat' split
    all_goals rfl
  · split
    · exact JournalGrows.refl _
    · split
      · exact JournalGrows.refl _
      · split
        · exact (journalGrows_handleOpen ..).trans (journalGrows_of_rest (rest_finishSet rfl ..))
        · exact JournalGrows.refl _

/-! ## The journal's stop is none of a group bay's (R377) -/

theorem stopFrom_setBaySt (s : State) (n : Nat) (st : BaySt) : (setBaySt s n st).jrnl.stopFrom = s.jrnl.stopFrom := by
  unfold setBaySt
  split
  · rfl
  · split
    · rfl
    · exact stopFrom_journal ..

theorem stopFrom_joinMember (s : State) (n : Nat) : (joinMember s n).jrnl.stopFrom = s.jrnl.stopFrom := by
  have hgrown : (growPool (setBaySt s n .member)).jrnl = (setBaySt s n .member).jrnl := jrnl_of_rest (rest_growPool (L := but .jrnl) rfl _) rfl
  have hjoined : (joinMember s n).jrnl = (growPool (setBaySt s n .member)).jrnl := by
    unfold joinMember
    dsimp only
    split <;> rfl
  rw [hjoined, hgrown, stopFrom_setBaySt]

theorem stopFrom_joinGroup (s : State) (n : Nat) : (joinGroup s n).jrnl.stopFrom = s.jrnl.stopFrom := by
  have hadopt : ∀ b, (adopt s b).1.jrnl = s.jrnl := fun b => jrnl_of_rest (rest_adopt (L := but .jrnl) rfl s b) rfl
  have hlog : ∀ t : State, (match bayOf t n with | some x => logBay t x | none => t).jrnl = t.jrnl := fun t => by
    split
    · exact jrnl_of_rest (rest_logBay (L := but .jrnl) rfl t _) rfl
    · rfl
  unfold joinGroup
  split
  · rfl
  · rename_i b _
    refine (congrArg Jrnl.stopFrom (hlog _)).trans ?_
    split
    · exact (stopFrom_setBaySt ..).trans (congrArg Jrnl.stopFrom (hadopt b))
    · exact (stopFrom_joinMember ..).trans (congrArg Jrnl.stopFrom (hadopt b))

/-! ## IMPORT ended (R378) -/

/-- The group's bays joined one after the other. -/
def groupJoined (s : State) : State := s.media.importing.foldl joinGroup s

theorem ledger_groupJoined (s : State) : ledger (groupJoined s) = ledger s := view_foldl (view := ledger) ledger_joinGroup _ s

theorem stopFrom_groupJoined (s : State) : (groupJoined s).jrnl.stopFrom = s.jrnl.stopFrom :=
  view_foldl (view := fun t => t.jrnl.stopFrom) stopFrom_joinGroup _ s

theorem csn_groupJoined (s : State) : (groupJoined s).csnNext = s.csnNext ∧ (groupJoined s).csnBlock = s.csnBlock :=
  have hrest : rest [.raised, .health, .eng, .media, .jrnl, .twin, .kf, .ctr] (groupJoined s) = rest [.raised, .health, .eng, .media, .jrnl, .twin, .kf, .ctr] s :=
    rest_foldl _ (fun t n => rest_joinGroup rfl t n) _ s
  ⟨csnNext_of_rest hrest rfl, csnBlock_of_rest hrest rfl⟩

/-- The first CSN block above both media's (R378). -/
def csnFirst (s : State) (r : Found) : Nat := (Nat.max (Nat.max s.csnNext s.csnBlock) r.csnHigh / 2 ^ 20 + 1) * 2 ^ 20

theorem csn_importCounters (s : State) (r : Found) (n : Nat) :
    (importCounters s r n).csnNext = csnFirst s r ∧ (importCounters s r n).csnBlock = csnFirst s r :=
  have hrest : ∀ t body, rest [.jrnl, .twin] (journal t body) = rest [.jrnl, .twin] t := fun t body => rest_journal rfl t body
  ⟨csnNext_of_rest (hrest _ _) rfl, csnBlock_of_rest (hrest _ _) rfl⟩

theorem blockSeqHigh_importCounters (s : State) (r : Found) (n : Nat) :
    (importCounters s r n).media.blockSeqHigh = Nat.max s.media.blockSeqHigh r.blockSeqHigh := by
  rw [importCounters, media_journal]
  rfl

theorem reserved_importCounters {s : State} (hstop : s.jrnl.stopFrom = none) (r : Found) (n : Nat) :
    ∃ x ∈ (importCounters s r n).jrnl.recs, x.body = .csnReserve (csnFirst s r) := by
  unfold importCounters csnFirst
  refine mem_recs_journal ?_ _
  exact hstop

/-- The medium's map taken over, with its pages; the group is no longer imported (R240, R378). -/
def groupTaken (s : State) (r : Found) (pages : List PageRec) : State :=
  settleTaken (settleSegments (updMedia (updMap s (fun _ => importMap r)) (fun m => { m with pages := m.pages ++ pages, importing := [] })))

theorem media_groupTaken (s : State) (r : Found) (pages : List PageRec) :
    (groupTaken s r pages).media.importing = [] ∧ (groupTaken s r pages).media.blockSeqHigh = s.media.blockSeqHigh := by
  have hmedia : ∀ t, (settleTaken t).media = t.media := fun t => media_of_rest (rest_settleTaken (L := but .media) rfl t) rfl
  unfold groupTaken
  rw [hmedia]
  exact ⟨rfl, rfl⟩

/-- A missing bay recorded failed. -/
def missingFailed (s : State) (x : Nat × Nat) : State :=
  updMedia (journal s (.memberFail x.1 none 0 x.2)) (fun m => { m with fails := m.fails ++ [{ bay := x.1, die := none, profile := 0, uid := x.2 }] })

/-- A lost row of the imported medium declared. -/
def lostDeclared (s : State) (x : Nat × Nat) : State :=
  match Machine.setOf s x.1 with
  | some k => declareLost s k x.2 (k.cols.flatMap (fun c => (List.range k.stripeUnit).map (fun u => { c.2 with page := rowPage k x.2 u })))
  | none => s

/-- What follows once the medium's map stands: missing bays failed, lost rows declared, and every imported set at risk. -/
def importSettled (s : State) (old : List Nat) (r : Found) (rows : List (Nat × Nat)) : State :=
  let t := rows.foldl lostDeclared (r.missing.foldl missingFailed s)
  let t := afterMemberFail (askCkpt (journal t (.importDone r.ckptSeq r.csnLast)) .bayChange)
  let new := ((liveSets t).map (·.seq)).filter (fun q => !old.contains q)
  settleFull (settleSeal (recomputeHorizon (setAtRisk t (t.media.atRisk ++ new.filter (fun q => !t.media.atRisk.contains q)))))

theorem ledger_missingFailed (s : State) (x : Nat × Nat) : ledger (missingFailed s x) = ledger s := (ledger_journal s _ :)

theorem ledger_lostDeclared (s : State) (x : Nat × Nat) : ledger (lostDeclared s x) = ledger s := by
  unfold lostDeclared
  split
  · exact ledger_declareLost ..
  · rfl

theorem ledger_importSettled (s : State) (old : List Nat) (r : Found) (rows : List (Nat × Nat)) : ledger (importSettled s old r rows) = ledger s := by
  have hask : ∀ t g, ledger (askCkpt t g) = ledger t := fun _ _ => rfl
  unfold importSettled
  dsimp only
  rw [ledger_settleJoin, ledger_setAtRisk, ledger_afterMemberFail, hask, ledger_journal, view_foldl (view := ledger) ledger_lostDeclared,
    view_foldl (view := ledger) ledger_missingFailed]

theorem rest_lostDeclared {L : List Part} (hL : sub [.health, .eng, .media, .ctr] L = true) (s : State) (x : Nat × Nat) :
    rest L (lostDeclared s x) = rest L s := by
  unfold lostDeclared
  split
  · exact rest_declareLost hL ..
  · rfl

theorem rest_missingFailed {L : List Part} (hL : sub [.media, .jrnl, .twin] L = true) (s : State) (x : Nat × Nat) :
    rest L (missingFailed s x) = rest L s :=
  (rest_updMedia (sub_trans (by decide) hL) ..).trans (rest_journal (sub_trans (by decide) hL) ..)

theorem csn_importSettled (s : State) (old : List Nat) (r : Found) (rows : List (Nat × Nat)) :
    (importSettled s old r rows).csnNext = s.csnNext ∧ (importSettled s old r rows).csnBlock = s.csnBlock := by
  have hrest : rest (everything.filter fun p => p != .csnNext && p != .csnBlock) (importSettled s old r rows) =
      rest (everything.filter fun p => p != .csnNext && p != .csnBlock) s := by
    unfold importSettled
    dsimp only
    rw [rest_settleFull rfl, rest_settleSeal rfl, rest_recomputeHorizon rfl, rest_setAtRisk rfl, rest_afterMemberFail rfl, rest_askCkpt rfl,
      rest_journal rfl, rest_foldl _ (rest_lostDeclared rfl), rest_foldl _ (rest_missingFailed rfl)]
  exact ⟨csnNext_of_rest hrest rfl, csnBlock_of_rest hrest rfl⟩

theorem journalGrows_importSettled (s : State) (old : List Nat) (r : Found) (rows : List (Nat × Nat)) : JournalGrows s (importSettled s old r rows) := by
  have hends : ∀ t l, JournalGrows t (settleFull (settleSeal (recomputeHorizon (setAtRisk t l)))) := fun t l =>
    journalGrows_of_rest ((rest_settleFull rfl _).trans ((rest_settleSeal rfl _).trans ((rest_recomputeHorizon rfl _).trans (rest_setAtRisk rfl t l))))
  have hask : ∀ t g, JournalGrows t (askCkpt t g) := fun _ _ => journalGrows_of_recs rfl
  have hmissing : ∀ t x, JournalGrows t (missingFailed t x) := fun t x => (journalGrows_journal t _).trans (journalGrows_of_recs rfl)
  have hlost : ∀ t x, JournalGrows t (lostDeclared t x) := fun t x => journalGrows_of_rest (rest_lostDeclared rfl t x)
  exact ((journalGrows_foldl hmissing _ s).trans (journalGrows_foldl hlost ..)).trans
    ((journalGrows_journal ..).trans ((hask ..).trans ((journalGrows_afterMemberFail _).trans (hends ..))))

theorem journalGrows_groupTaken (s : State) (r : Found) (pages : List PageRec) : JournalGrows s (groupTaken s r pages) :=
  journalGrows_of_rest ((rest_settleTaken rfl _).trans ((rest_settleSegments rfl _).trans ((rest_updMedia rfl ..).trans (rest_updMap rfl s _))))

theorem csn_groupTaken (s : State) (r : Found) (pages : List PageRec) :
    (groupTaken s r pages).csnNext = s.csnNext ∧ (groupTaken s r pages).csnBlock = s.csnBlock :=
  have hrest : rest [.map, .media] (groupTaken s r pages) = rest [.map, .media] s :=
    (rest_settleTaken rfl _).trans ((rest_settleSegments rfl _).trans ((rest_updMedia rfl ..).trans (rest_updMap rfl s _)))
  ⟨csnNext_of_rest hrest rfl, csnBlock_of_rest hrest rfl⟩

section ImportDone

variable {s : State} (hgroup : s.media.importing ≠ []) (hstop : s.jrnl.stopFrom = none) (hckpt : bayCkptWaits s = false) (r : ImportResult)
include hgroup hstop hckpt

theorem exec_importDone : exec (.importDone r) s = settled (importSettled
    (groupTaken (importCounters (groupJoined s) (readMedium s s.media.importing r) r.sjHigh) (readMedium s s.media.importing r) r.pages)
    (s.map.sets.map (·.seq)) (readMedium s s.media.importing r) r.lostRows) := by
  have hgoes : ¬ (s.media.importing.isEmpty || s.jrnl.stopFrom.isSome || bayCkptWaits s) = true := by simp [hgroup, hstop, hckpt]
  have hexec : exec (.importDone r) s = execImportDone r s := rfl
  rw [hexec, execImportDone, if_neg hgoes]
  rfl

theorem import_ended :
    ∃ t, exec (.importDone r) s = .next t ∧ t.media.importing = [] ∧ t.csnNext = csnFirst s (readMedium s s.media.importing r) ∧
      t.csnBlock = csnFirst s (readMedium s s.media.importing r) ∧
      t.media.blockSeqHigh = Nat.max s.media.blockSeqHigh (readMedium s s.media.importing r).blockSeqHigh ∧
      ∃ x ∈ t.jrnl.recs, x.body = .csnReserve (csnFirst s (readMedium s s.media.importing r)) := by
  have hexec := exec_importDone hgroup hstop hckpt r
  generalize readMedium s s.media.importing r = found at hexec ⊢
  obtain ⟨hnext, hblock⟩ := csn_groupJoined s
  have hfirst : csnFirst (groupJoined s) found = csnFirst s found := by unfold csnFirst; rw [hnext, hblock]
  have hhigh : (groupJoined s).media.blockSeqHigh = s.media.blockSeqHigh := congrArg (·.2.2) (ledger_groupJoined s)
  obtain ⟨hnext1, hblock1⟩ := csn_importCounters (groupJoined s) found r.sjHigh
  have hhigh1 := blockSeqHigh_importCounters (groupJoined s) found r.sjHigh
  obtain ⟨x, hx, hbody⟩ := reserved_importCounters ((stopFrom_groupJoined s).trans hstop) found r.sjHigh
  generalize importCounters (groupJoined s) found r.sjHigh = counted at *
  obtain ⟨hnext2, hblock2⟩ := csn_groupTaken counted found r.pages
  obtain ⟨hnone, hhigh2⟩ := media_groupTaken counted found r.pages
  have hgrows2 := journalGrows_groupTaken counted found r.pages
  generalize groupTaken counted found r.pages = taken at *
  obtain ⟨hnext3, hblock3⟩ := csn_importSettled taken (s.map.sets.map (·.seq)) found r.lostRows
  have hledger := ledger_importSettled taken (s.map.sets.map (·.seq)) found r.lostRows
  have hgrows3 := journalGrows_importSettled taken (s.map.sets.map (·.seq)) found r.lostRows
  generalize importSettled taken (s.map.sets.map (·.seq)) found r.lostRows = ended at *
  have hmedia : (endCycle ended).media = ended.media := endCycle_media ended
  have himporting : ended.media.importing = taken.media.importing := congrArg (·.2.1) hledger
  have hhigh3 : ended.media.blockSeqHigh = taken.media.blockSeqHigh := congrArg (·.2.2) hledger
  refine ⟨_, hexec, ?_, ?_, ?_, ?_, x, ?_, hfirst ▸ hbody⟩
  · rw [hmedia, himporting, hnone]
  · rw [endCycle_csnNext, hnext3, hnext2, hnext1, hfirst]
  · rw [endCycle_csnBlock, hblock3, hblock2, hblock1, hfirst]
  · rw [hmedia, hhigh3, hhigh2, hhigh1, hhigh]
  · rw [endCycle_jrnl]
    exact (hgrows2.trans hgrows3).subset hx

end ImportDone

/-! ## O43 -/

/-- Settles O43, command by command: the state of the bay is followed through what a command does after it has set it, and at the end of an import the
number of the newest set and the journal are followed through the bays that join, the missing bays and the lost rows. -/
theorem bayControlActs : Obligations.BayControlActs := by
  unfold Obligations.BayControlActs
  intro s cid c is released
  refine ⟨fun b hb => ⟨fun h => ⟨fun hmay => ?_, fun hmay => ?_⟩, fun h hmay => ?_, fun p f h hp hf => ⟨fun hst => ?_, fun hst hquiet => ?_⟩,
    fun h hst hnew => evacuation_cancelled h hb hst hnew, fun h hst hfree => bay_released h hb hst hfree⟩,
    fun v h => ⟨import_refused h v, import_begun h v⟩, fun b hb hst hgoes hleft hstop => evacuation_done hb hst hgoes hleft hstop,
    fun k l hready hstop hlist hclaim hstand hclosed hasked => evacuation_moves hready hstop hlist hclaim hstand hclosed hasked,
    fun r hgroup hstop hckpt => import_ended hgroup hstop hckpt r⟩
  · exact ⟨_, exec_bayCommissionMember h, commission_settled hb (ctxOf_of_actionIn h) hmay false⟩
  · obtain ⟨hended, hmedia⟩ := refused_settled h 0x1002 0x30
    refine ⟨_, exec_bayCommissionMember h, ?_⟩
    rw [commission_of_mayNot hb hmay]
    exact ⟨hended, (bayOf_congr (congrArg Media.bays hmedia) b.bay).trans (bay_of_ctlBay hb)⟩
  · exact ⟨_, exec_bayCommissionSpare h, commission_settled hb (ctxOf_of_actionIn h) hmay true⟩
  · exact evacuate_refused h hb hp hf hst
  · exact ⟨evacuate_unfit h hb hp hf hst hquiet, evacuate_begun h hb hp hf hst hquiet⟩

end Sys2Proof.Proofs
end

section
/-! PROOFS. Stops (R252, R254, R255, R262): the stop record that a beginning sequence appends, what begins one in PS0, and the end of the sequence. -/
namespace Sys2Proof.Proofs
open Sys2Proof Sys2Proof.Machine Sys2Proof.Laws

/-! ## The stop record (R254) -/

/-- The stop records kept, the next STOP_SEQ, the bytes of keeper flash, and ownership of the medium. -/
def stopStore (s : State) : List StopRec × Nat × List Host.Cell × Bool := (s.jrnl.stops, s.jrnl.nextStop, s.kf.mem, isOwner s)

theorem isOwner_of_twin {s t : State} (h : t.twin = s.twin) : isOwner t = isOwner s := by unfold isOwner; rw [h]

theorem stopStore_congr {s t : State} (hjrnl : t.jrnl = s.jrnl) (hmem : t.kf.mem = s.kf.mem) (htwin : t.twin = s.twin) : stopStore t = stopStore s := by
  unfold stopStore
  rw [hjrnl, hmem, isOwner_of_twin htwin]

theorem stopStore_of_rest {s t : State} {L : List Part} (h : rest L t = rest L s) (hjrnl : has L .jrnl = false) (htwin : has L .twin = false)
    (hmem : has L .kfMem = false) : stopStore t = stopStore s :=
  stopStore_congr (jrnl_of_rest h hjrnl) (kfMem_of_rest h hmem) (twin_of_rest h htwin)

/-- A frame sent leaves ownership as it is. -/
theorem stopStore_sendFrame (s : State) (f : Frame) : stopStore (sendFrame s f) = stopStore s := by cases f <;> rfl

theorem stopStore_mirrorFrame (s : State) (f : Frame) : stopStore (mirrorFrame s f) = stopStore s := by
  unfold mirrorFrame
  split
  · exact stopStore_sendFrame s f
  · rfl

/-- What is saved as the sequence begins leaves the stop records to the record that follows (Table 10-7). -/
theorem stopStore_saveHoldup (s : State) (skip : List Nat) : stopStore (saveHoldup s skip).1 = stopStore s := by
  have hsuspend : ∀ t, stopStore (suspendErases t) = stopStore t := fun t => stopStore_of_rest (rest_suspendErases (L := [.media]) rfl t) rfl rfl rfl
  have hdrawn : ∀ n, stopStore (drawFrees (if s.power.st == 2 then unparkBays s false else s) n) = stopStore s := fun n => by
    split <;> rfl
  unfold saveHoldup
  dsimp only
  split
  · exact (hsuspend _).trans (hdrawn _)
  · rename_i hplaced
    exact (hsuspend _).trans ((stopStore_of_rest (rest_placeRecord_eq (L := [.health, .media, .ctr]) rfl _ _ hplaced) rfl rfl rfl).trans (hdrawn _))

/-- A stop record of a kind is the newest of t, after those of s, under the next number of s, and its bytes are appended to the keeper flash of s. -/
def StopRecorded (s t : State) (kind : StopKind) : Prop :=
  ∃ r l, t.jrnl.stops = r :: l ∧ l = s.jrnl.stops ∧ r.kind = kind ∧ r.stopSeq = s.jrnl.nextStop ∧
    t.kf.mem = appendRec s.kf.mem stopRegion (fun m a => (stopRecAt m a).map (·.stopSeq)) (fun _ _ => 256) (stopBytes r)

theorem StopRecorded.of_before {s u t : State} {kind : StopKind} (h : StopRecorded u t kind) (hu : stopStore u = stopStore s) : StopRecorded s t kind := by
  simp only [stopStore, Prod.mk.injEq] at hu
  obtain ⟨hstops, hnext, hmem, -⟩ := hu
  simpa only [StopRecorded, hstops, hnext, hmem] using h

theorem StopRecorded.of_after {s u t : State} {kind : StopKind} (h : StopRecorded s u kind) (ht : stopStore t = stopStore u) : StopRecorded s t kind := by
  simp only [stopStore, Prod.mk.injEq] at ht
  obtain ⟨hstops, -, hmem, -⟩ := ht
  simpa only [StopRecorded, hstops, hmem] using h

theorem stopRecorded_putStop (s : State) (kind : StopKind) (holdup : Option (Nat × Madr)) : StopRecorded s (putStop s kind holdup) kind := by
  simp only [StopRecorded, putStop, keepStop, updJrnl_jrnl, updJrnl_kf, updKf_jrnl, updKf_kf]
  exact ⟨_, _, rfl, rfl, rfl, rfl, rfl⟩

theorem stopRecorded_recordStop (s : State) (kind : StopKind) (holdup : Option (Nat × Madr)) : StopRecorded s (recordStop s kind holdup) kind := by
  unfold recordStop
  dsimp only
  split
  · exact (stopRecorded_putStop s kind holdup).of_after (stopStore_mirrorFrame ..)
  · exact stopRecorded_putStop s kind holdup

/-! ## The sequence begins (R252) -/

/-- The hold-up sequence of a kind has begun from s, with a stop record where the chip owns the medium. -/
def StopBegun (s t : State) (kind : StopKind) : Prop :=
  t.jrnl.stopFrom = some t.now ∧ t.jrnl.stopKind = kind ∧ t.jrnl.stopEnded = false ∧ (isOwner s = true → StopRecorded s t kind)

theorem StopBegun.of_before {s u t : State} {kind : StopKind} (h : StopBegun u t kind) (hu : stopStore u = stopStore s) : StopBegun s t kind := by
  obtain ⟨hfrom, hkind, hrun, hrec⟩ := h
  have howner : isOwner u = isOwner s := congrArg (·.2.2.2) hu
  exact ⟨hfrom, hkind, hrun, fun h => (hrec (howner.trans h)).of_before hu⟩

theorem StopBegun.endCycle {s t : State} {kind : StopKind} (h : StopBegun s t kind) : StopBegun s (endCycle t) kind := by
  simpa only [StopBegun, StopRecorded, endCycle_jrnl, endCycle_now, endCycle_kf] using h

theorem now_beginStop (s : State) (kind : StopKind) (skip : List Nat) (record : Bool) : (beginStop s kind skip record).now = s.now :=
  now_of_rest (rest_beginStop (L := but .now) rfl s kind skip record) rfl

theorem beginStop_begins {s : State} (hrun : s.jrnl.stopFrom = none) (kind : StopKind) (skip : List Nat) :
    StopBegun s (beginStop s kind skip true) kind := by
  have hbegin : beginStop s kind skip true = updJrnl (if isOwner s then recordStop (saveHoldup s skip).1 kind (saveHoldup s skip).2 else s)
      (fun j => { j with stopFrom := some s.now, stopKind := kind, stopEnded := false }) := by
    cases howner : isOwner s <;> simp [beginStop, hrun, howner]
  refine ⟨?_, ?_, ?_, fun howner => ?_⟩
  · rw [now_beginStop, hbegin]
    rfl
  · rw [hbegin]
    rfl
  · rw [hbegin]
    rfl
  · rw [hbegin, if_pos howner]
    exact (stopRecorded_recordStop ..).of_before (stopStore_saveHoldup s skip)

/-! ## PWRFAIL_N falls (R252, R469) -/

theorem jrnl_advanceTo (s : State) (cyc : Nat) : (advanceTo s cyc).jrnl = s.jrnl := jrnl_of_rest (rest_advanceTo (L := but .jrnl) rfl s cyc) rfl

theorem twin_advanceTo (s : State) (cyc : Nat) : (advanceTo s cyc).twin = s.twin := twin_of_rest (rest_advanceTo (L := but .twin) rfl s cyc) rfl

/-- Time enters no power state. -/
theorem entering_advanceTo (s : State) (cyc : Nat) : (advanceTo s cyc).power.entering = s.power.entering := by
  have hcounted : ∀ n, (countCycles s n).power = s.power := fun n => power_of_rest (rest_countCycles (L := but .power) rfl s n) rfl
  unfold advanceTo
  dsimp only
  repeat' split
  all_goals simp [setNow, hcounted]

/-- The fall of PWRFAIL_N seen. -/
def pwrfailSeen (s : State) (cyc : Nat) : State := updSide (advanceTo s cyc) (fun x => { x with pwrfail := true })

/-- What retrains is given up (R469). -/
def retrainStopped (s : State) : State := updPower s (fun p => { p with retrain := none })

/-- In PS0 a loss of power stops the part, at once where a clean stop record stands (R262). -/
theorem powerStop_of_ps0 {s : State} (hst : s.power.st = 0) (hent : s.power.entering = none) :
    powerStop s = if s.jrnl.cleanStands then stopAtOnce (retrainStopped s) .powerFail else beginStop (retrainStopped s) .powerFail [] true := by
  simp [powerStop, abandonEntry, retrainStopped, hst, hent]

/-- The part as a loss of power in PS0 stops it. -/
def powerLost (s : State) (cyc : Nat) : State := retrainStopped (pwrfailSeen s cyc)

theorem jrnl_powerLost (s : State) (cyc : Nat) : (powerLost s cyc).jrnl = s.jrnl := by
  simp only [powerLost, retrainStopped, pwrfailSeen, updPower_jrnl, updSide_jrnl, jrnl_advanceTo]

theorem pwrfail_powerLost (s : State) (cyc : Nat) : (powerLost s cyc).side.pwrfail = true := by
  simp only [powerLost, retrainStopped, pwrfailSeen, updPower_side, updSide_side]

theorem stopStore_powerLost (s : State) (cyc : Nat) : stopStore (powerLost s cyc) = stopStore s := by
  refine stopStore_congr (jrnl_powerLost s cyc) ?_ ?_
  · simp only [powerLost, retrainStopped, pwrfailSeen, updPower_kf, updSide_kf, kf_advanceTo]
  · simp only [powerLost, retrainStopped, pwrfailSeen, updPower_twin, updSide_twin, twin_advanceTo]

theorem stopAtOnce_stops (s : State) (kind : StopKind) : (stopAtOnce s kind).jrnl.stopFrom = some (stopAtOnce s kind).now ∧
    (stopAtOnce s kind).jrnl.stopEnded = true ∧ (stopAtOnce s kind).jrnl.stops = s.jrnl.stops := ⟨rfl, rfl, rfl⟩

section PowerFail

variable {s : State} (hporst : s.kf.porst = false) (hrec : s.kf.recMode = false) (hst : s.power.st = 0) (hent : s.power.entering = none)
  (hrun : s.jrnl.stopFrom = none) (cyc : Nat)
include hporst hrec hst hent hrun

theorem exec_pwrfailFall : exec (.pwrfailFall cyc) s = .next
    (if s.jrnl.cleanStands then stopAtOnce (powerLost s cyc) .powerFail else beginStop (powerLost s cyc) .powerFail [] true) := by
  have hexec : exec (.pwrfailFall cyc) s = execPwrfailFall cyc s := rfl
  have hstop : powerStop (pwrfailSeen s cyc) = _ := powerStop_of_ps0 ((powerSt_advanceTo s cyc).trans hst) ((entering_advanceTo s cyc).trans hent)
  have hclean : (pwrfailSeen s cyc).jrnl = s.jrnl := jrnl_advanceTo s cyc
  rw [hclean] at hstop
  rw [hexec, powerLost, ← hstop]
  simp [execPwrfailFall, pwrfailSeen, jrnl_advanceTo, hporst, hrec, hrun]

theorem pwrfailFall_begins (hclean : s.jrnl.cleanStands = false) :
    ∃ t, exec (.pwrfailFall cyc) s = .next t ∧ t.side.pwrfail = true ∧ StopBegun s t .powerFail := by
  have hexec := exec_pwrfailFall hporst hrec hst hent hrun cyc
  rw [if_neg (by simp [hclean])] at hexec
  have hside : (beginStop (powerLost s cyc) .powerFail [] true).side = (powerLost s cyc).side := side_of_rest (rest_beginStop (L := but .side) rfl ..) rfl
  refine ⟨_, hexec, ?_, (beginStop_begins ?_ .powerFail []).of_before (stopStore_powerLost s cyc)⟩
  · rw [hside, pwrfail_powerLost]
  · rw [jrnl_powerLost, hrun]

theorem pwrfailFall_after_clean_stop (hclean : s.jrnl.cleanStands = true) :
    ∃ t, exec (.pwrfailFall cyc) s = .next t ∧ t.side.pwrfail = true ∧ t.jrnl.stopFrom = some t.now ∧ t.jrnl.stopEnded = true ∧
      t.jrnl.stops = s.jrnl.stops := by
  have hexec := exec_pwrfailFall hporst hrec hst hent hrun cyc
  rw [if_pos hclean] at hexec
  obtain ⟨hfrom, hended, hstops⟩ := stopAtOnce_stops (powerLost s cyc) .powerFail
  exact ⟨_, hexec, pwrfail_powerLost s cyc, hfrom, hended, by rw [hstops, jrnl_powerLost]⟩

end PowerFail

/-! ## PORST_N asserted (R255) -/

/-- PORST_N seen low. -/
def porstSeen (s : State) (cyc : Nat) : State := updKf (advanceTo s cyc) (fun k => { k with porst := true })

theorem stopStore_porstSeen (s : State) (cyc : Nat) : stopStore (porstSeen s cyc) = stopStore s := by
  refine stopStore_congr ?_ ?_ ?_
  · simp only [porstSeen, updKf_jrnl, jrnl_advanceTo]
  · simp only [porstSeen, updKf_kf, kf_advanceTo]
  · simp only [porstSeen, updKf_twin, twin_advanceTo]

section Reset

variable {s : State} (hporst : s.kf.porst = false) (hrec : s.kf.recMode = false) (hrun : s.jrnl.stopFrom = none) (cyc : Nat)
include hporst hrun

theorem porstAssert_after_clean_stop (hclean : s.jrnl.cleanStands = true) :
    ∃ t, exec (.porstAssert cyc) s = .next t ∧ t.kf.porst = true ∧ t.ctxs = [] ∧ t.jrnl.stops = s.jrnl.stops ∧ t.kf.mem = s.kf.mem := by
  have hexec : exec (.porstAssert cyc) s = execPorstAssert cyc s := rfl
  have hlogs := rest_beginLogs (L := [.ports]) rfl (porstSeen s cyc) 2
  have hkf : (beginLogs (porstSeen s cyc) 2).kf = (porstSeen s cyc).kf := kf_of_rest hlogs rfl
  have hjrnl : (beginLogs (porstSeen s cyc) 2).jrnl = s.jrnl := (jrnl_of_rest hlogs rfl).trans (jrnl_advanceTo s cyc)
  have hstops : (internalReset (porstSeen s cyc) 2).jrnl.stops = (beginLogs (porstSeen s cyc) 2).jrnl.stops := rfl
  have hflash := (flash_internalReset (porstSeen s cyc) 2).1
  refine ⟨internalReset (porstSeen s cyc) 2, ?_, congrArg Kf.porst hkf, rfl, by rw [hstops, hjrnl], ?_⟩
  · rw [hexec]
    simp [execPorstAssert, porstSeen, jrnl_advanceTo, hporst, hrun, hclean]
  · rw [hflash, porstSeen, updKf_kf, kf_advanceTo]

include hrec in
theorem porstAssert_begins (hclean : s.jrnl.cleanStands = false) (howner : isOwner s = true) (hrel : s.kf.released = true) :
    ∃ t, exec (.porstAssert cyc) s = .next t ∧ t.kf.porst = true ∧ StopBegun s t .reset := by
  have hexec : exec (.porstAssert cyc) s = execPorstAssert cyc s := rfl
  have hnone : (porstSeen s cyc).jrnl.stopFrom = none := (congrArg Jrnl.stopFrom (jrnl_advanceTo s cyc)).trans hrun
  have howns : isOwner (porstSeen s cyc) = true := (isOwner_advanceTo s cyc).trans howner
  refine ⟨beginStop (porstSeen s cyc) .reset [] true, ?_, ?_, (beginStop_begins hnone .reset []).of_before (stopStore_porstSeen s cyc)⟩
  · rw [hexec]
    simp only [porstSeen] at howns
    simp [execPorstAssert, porstSeen, jrnl_advanceTo, howns, hporst, hrec, hrun, hclean, hrel]
  · exact congrArg Prod.fst (straps_beginStop (porstSeen s cyc) .reset [] true)

end Reset

/-! ## FAILED (R255) -/

/-- FAILED set, its waiting admin commands refused and a twin told, before the sequence begins. -/
def failureNoted (s : State) : State :=
  let t := ((s.ctxs.filter (waitsUnperformed s)).map (·.cid)).foldl (fun t cid => refuseNow t cid 0x7001 0xFF) (setFlags s [(bFailed, true)])
  if t.twin.en then sendFrame t (.failing t.cond) else t

theorem failPart_eq {s : State} (hlive : failedSet s = false) (keeperFailed : Bool) :
    failPart s keeperFailed = beginStop (failureNoted s) .failed ((s.ctxs.filter (waitsUnperformed s)).map (·.cid)) (!keeperFailed) := by
  unfold failPart
  rw [if_neg (by simp [hlive])]
  rfl

/-- What comes before the sequence leaves the journal, the time and the stop records. -/
theorem failureNoted_keeps (s : State) :
    (failureNoted s).jrnl = s.jrnl ∧ (failureNoted s).now = s.now ∧ stopStore (failureNoted s) = stopStore s := by
  have hrefused := (rest_foldl (L := [.ctxs, .errSeq, .ports, .cond, .condFrom]) (fun t cid => refuseNow t cid 0x7001 0xFF) (fun t cid => rest_refuseNow rfl ..)
    ((s.ctxs.filter (waitsUnperformed s)).map (·.cid)) (setFlags s [(bFailed, true)])).trans (rest_setFlags rfl s _)
  unfold failureNoted
  dsimp only
  generalize List.foldl _ _ _ = t at *
  have hstore : stopStore t = stopStore s := stopStore_of_rest hrefused rfl rfl rfl
  split
  · have hsent := rest_sendFrame (L := [.twin]) rfl t (.failing t.cond)
    exact ⟨(jrnl_of_rest hsent rfl).trans (jrnl_of_rest hrefused rfl), (now_of_rest hsent rfl).trans (now_of_rest hrefused rfl),
      (stopStore_sendFrame ..).trans hstore⟩
  · exact ⟨jrnl_of_rest hrefused rfl, now_of_rest hrefused rfl, hstore⟩

theorem failedSet_begins {s : State} (hporst : s.kf.porst = false) (hrun : s.jrnl.stopFrom = none) (hlive : failedSet s = false) :
    ∃ t, exec (.failedSet false) s = .next t ∧ failedSet t = true ∧ t.now = s.now ∧ StopBegun s t .failed := by
  have hexec : exec (.failedSet false) s = execFailedSet false s := rfl
  obtain ⟨hjrnl, hnow, hstore⟩ := failureNoted_keeps s
  refine ⟨endCycle (failPart s false), ?_, ?_, ?_, ?_⟩
  · simp [hexec, execFailedSet, settled, hporst]
  · rw [failedSet, endCycle_cond]
    exact failedSet_failPart s false
  · rw [endCycle_now, failPart_eq hlive, now_beginStop, hnow]
  · rw [failPart_eq hlive]
    exact ((beginStop_begins (by rw [hjrnl, hrun]) .failed _).of_before hstore).endCycle

/-! ## The sequence ends (R252) -/

theorem bays_letGo (s : State) (h : ∀ b ∈ s.media.bays, b.writable = false) : ∀ b ∈ (letGo s).media.bays, b.writable = false := by
  have hoff : ∀ b ∈ s.media.bays.map (fun b => { b with connected := false, pwrEn := false }), b.writable = false := fun b hb => by
    obtain ⟨x, hx, rfl⟩ := List.mem_map.mp hb
    exact h x hx
  unfold letGo
  dsimp only
  repeat' split
  · exact hoff
  · exact hoff
  · exact h

/-- The state in which the sequence has run to its end, before a failed or tripped part lets go of the medium. -/
theorem endStop_ends {s : State} {n : Nat} (hrun : s.jrnl.stopFrom = some n) (hend : s.jrnl.stopEnded = false) :
    (endStop s).jrnl.stopEnded = true ∧ (endStop s).jrnl.stopKind = s.jrnl.stopKind ∧ ∀ b ∈ (endStop s).media.bays, b.writable = false := by
  have hjrnl : ∀ t, (letGo t).jrnl = t.jrnl := fun t => jrnl_of_rest (rest_letGo (L := but .jrnl) rfl t) rfl
  unfold endStop
  rw [if_neg (by simp [hrun, hend])]
  dsimp only
  rw [hjrnl]
  refine ⟨rfl, rfl, bays_letGo _ fun b hb => ?_⟩
  obtain ⟨x, -, rfl⟩ := List.mem_map.mp hb
  rfl

theorem holdupComplete_ends {s : State} {n : Nat} (hporst : s.kf.porst = false) (hrun : s.jrnl.stopFrom = some n) (hend : s.jrnl.stopEnded = false)
    (hlow : s.jrnl.stopKind = .powerFail → s.side.pwrfail = true) :
    ∃ t, exec .holdupComplete s = .next t ∧ t.jrnl.stopEnded = true ∧ (∀ b ∈ t.media.bays, b.writable = false) ∧ t.ctxs = s.ctxs := by
  have hexec : exec .holdupComplete s = execHoldupComplete s := rfl
  have hrest := rest_endStop (L := [.ports, .media, .jrnl, .twin]) rfl s
  have hkf : (endStop s).kf = s.kf := kf_of_rest hrest rfl
  have hside : (endStop s).side = s.side := side_of_rest hrest rfl
  obtain ⟨hended, hkind, hbays⟩ := endStop_ends hrun hend
  have hstays : (s.jrnl.stopKind == .powerFail && !s.side.pwrfail && !(endStop s).power.tripped) = false := by
    by_cases hp : s.jrnl.stopKind = .powerFail
    · simp [hlow hp]
    · simp [hp]
  refine ⟨endCycle (endStop s), ?_, ?_, ?_, ?_⟩
  · simp only [hexec, execHoldupComplete, settled, hrun, hend, hkf, hkind, hside, hporst, hstays, Option.isNone_some, Bool.or_self, Bool.false_eq_true,
      if_false]
  · rw [endCycle_jrnl, hended]
  · rw [endCycle_media]
    exact hbays
  · rw [endCycle_ctxs, ctxs_of_rest hrest rfl]

/-! ## O39 -/

/-- Settles O39: each cause by the sequence that it begins or, where a clean stop record stands, does without; the end by what it leaves of the bays. -/
theorem stopsBeginAndEnd : Obligations.StopsBeginAndEnd := by
  unfold Obligations.StopsBeginAndEnd
  intro s cyc hporst hrec hst hent kinds
  refine ⟨fun hrun => ⟨fun hclean => ?powerFail, pwrfailFall_after_clean_stop hporst hrec hst hent hrun cyc, fun hclean howner hrel => ?reset,
    porstAssert_after_clean_stop hporst hrun cyc, fun hlive => ?failed⟩, fun n hrun hend hlow => holdupComplete_ends hporst hrun hend hlow⟩
  case powerFail =>
    obtain ⟨t, hexec, hlow, hfrom, hkinds⟩ := pwrfailFall_begins hporst hrec hst hent hrun cyc hclean
    exact ⟨t, hexec, hlow, hfrom, hkinds⟩
  case reset =>
    obtain ⟨t, hexec, hlow, hfrom, hkinds⟩ := porstAssert_begins hporst hrec hrun cyc hclean howner hrel
    exact ⟨t, hexec, hlow, hfrom, hkinds⟩
  case failed =>
    obtain ⟨t, hexec, hfailed, hnow, hfrom, hkinds⟩ := failedSet_begins hporst hrun hlive
    exact ⟨t, hexec, hfailed, hnow ▸ hfrom, hkinds⟩

end Sys2Proof.Proofs
end

section
/-! PROOFS. Claims, release and erase (R250, R273, R275, R281 to R283, R326): what a claim request makes of the claims on its set, the sets that
RECLAIM and REFRESH take, the claims and blocks of a set that is released, and the erase of a released block. -/
namespace Sys2Proof.Proofs
open Sys2Proof Sys2Proof.Machine Sys2Proof.Laws

/-! ## The exclusive claim on a set (R281) -/

/-- A claim is the exclusive one on a set: of any agent but patrol. -/
def exclusive (seq : Nat) (c : Claim) : Bool := c.seq == seq && c.agent != .patrol

theorem holderOf_congr {s t : State} (h : t.media.claims = s.media.claims) (seq : Nat) : holderOf t seq = holderOf s seq := by
  unfold holderOf; rw [h]

theorem claims_of_steady {s t : State} (h : steady t = steady s) : t.media.claims = s.media.claims := field_of_steady h Media.claims

theorem agent_of_holderOf {s : State} {seq : Nat} {h : Claim} (hh : holderOf s seq = some h) : h.agent ≠ .patrol := by
  have hkey := List.find?_some hh
  simp only [Bool.and_eq_true, bne_iff_ne] at hkey
  exact hkey.2

theorem claimOf_of_unheld {s : State} {seq : Nat} (hh : holderOf s seq = none) {ag : Agent} (hag : ag ≠ .patrol) : claimOf s ag seq = none := by
  refine List.find?_eq_none.mpr fun c hc hkey => List.find?_eq_none.mp hh c hc ?_
  simp only [Bool.and_eq_true, beq_iff_eq] at hkey
  simp [hkey.1, hkey.2, hag]

/-- An agent that holds a set has its claim on it. -/
theorem claimOf_of_holder {s : State} {seq : Nat} {h : Claim} (hh : holderOf s seq = some h) : (claimOf s h.agent seq).isSome = true := by
  have hkey := List.find?_some hh
  simp only [Bool.and_eq_true] at hkey
  exact List.find?_isSome.mpr ⟨h, List.mem_of_find?_eq_some hh, by simp [hkey.1]⟩

theorem holderOf_addClaim {s : State} {seq : Nat} (hh : holderOf s seq = none) {ag : Agent} (hag : ag ≠ .patrol) :
    holderOf (addClaim s ag seq) seq = some ⟨seq, ag, none, []⟩ := by
  have hnone : s.media.claims.find? (exclusive seq) = none := hh
  show (s.media.claims ++ [_]).find? (exclusive seq) = _
  simp [List.find?_append, hnone, exclusive, hag]

theorem holderOf_addClaim_other (s : State) (ag : Agent) {n seq : Nat} (hn : n ≠ seq) : holderOf (addClaim s ag n) seq = holderOf s seq := by
  show (s.media.claims ++ [_]).find? (exclusive seq) = s.media.claims.find? (exclusive seq)
  simp [List.find?_append, exclusive, hn]

/-- The exclusive claim that is changed is found under the same set, changed, where it stays exclusive. -/
theorem holderOf_updHolder {s : State} {seq : Nat} {h : Claim} (hh : holderOf s seq = some h) {f : Claim → Claim}
    (hf : ∀ c, exclusive seq c = true → exclusive seq (f c) = true) : holderOf (updHolder s seq f) seq = some (f h) := by
  have hfound : s.media.claims.find? (exclusive seq) = some h := hh
  have hkey : exclusive seq ∘ (fun c => if exclusive seq c then f c else c) = exclusive seq := by
    funext c
    cases hc : exclusive seq c <;> simp [hc, hf]
  show (s.media.claims.map (fun c => if exclusive seq c then f c else c)).find? (exclusive seq) = _
  rw [List.find?_map, hkey, hfound, Option.map_some, if_pos (List.find?_some hfound)]

theorem exclusive_other {n seq : Nat} (hn : n ≠ seq) {c : Claim} (hc : exclusive n c = true) : exclusive seq c = false := by
  simp only [exclusive, Bool.and_eq_true, beq_iff_eq] at hc
  simp [exclusive, hc.1, hn]

theorem holderOf_updHolder_other (s : State) {n seq : Nat} (hn : n ≠ seq) {f : Claim → Claim}
    (hf : ∀ c, exclusive n c = true → exclusive n (f c) = true) : holderOf (updHolder s n f) seq = holderOf s seq := by
  have hkey : exclusive seq ∘ (fun c => if exclusive n c then f c else c) = exclusive seq := by
    funext c
    cases hc : exclusive n c
    · simp [hc]
    · simp [hc, exclusive_other hn hc, exclusive_other hn (hf c hc)]
  show (s.media.claims.map (fun c => if exclusive n c then f c else c)).find? (exclusive seq) = s.media.claims.find? (exclusive seq)
  rw [List.find?_map, hkey]
  cases hfound : s.media.claims.find? (exclusive seq) with
  | none => rfl
  | some c =>
    have hc := List.find?_some hfound
    rw [Option.map_some, exclusive_other (Ne.symm hn) hc]
    rfl

/-- An exclusive claim that passes to another agent than patrol stays exclusive. -/
theorem exclusive_of_agent {seq : Nat} {c d : Claim} (hc : exclusive seq c = true) (hseq : d.seq = c.seq) (hag : d.agent ≠ .patrol) :
    exclusive seq d = true := by
  simp only [exclusive, Bool.and_eq_true, beq_iff_eq, bne_iff_ne] at hc ⊢
  exact ⟨hseq.trans hc.1, hag⟩

/-! ## A claim request judged (R282, R283) -/

/-- Patrol takes no claim over. -/
theorem claimant_of_takeOver {ag holder : Agent} (h : claimOutcome ag holder = .takeOver) : ag ≠ .patrol := by
  rintro rfl
  cases holder <;> cases h

section Request

variable {s : State} {ag : Agent} {seq : Nat} {k : SetRec} (hk : setOf s seq = some k) (hclosed : k.closed = true) (hclaim : claimOf s ag seq = none)
include hk hclosed hclaim

theorem claimSet_unheld (hh : holderOf s seq = none) : claimSet s ag seq = addClaim s ag seq := by
  simp [claimSet, hk, hclosed, hclaim, hh]

theorem claimSet_granted {h : Claim} (hh : holderOf s seq = some h) (ho : claimOutcome ag h.agent = .grant) : claimSet s ag seq = addClaim s ag seq := by
  simp [claimSet, hk, hclosed, hclaim, hh, ho]

theorem claimSet_refused {h : Claim} (hh : holderOf s seq = some h) (ho : claimOutcome ag h.agent = .refuse ∨ claimOutcome ag h.agent = .covered) :
    claimSet s ag seq = s := by
  rcases ho with ho | ho <;> simp [claimSet, hk, hclosed, hclaim, hh, ho]

theorem claimSet_preempts {h : Claim} (hh : holderOf s seq = some h) (ho : claimOutcome ag h.agent = .preempt) :
    holderOf (claimSet s ag seq) seq = some { h with preemptedBy := some ag } := by
  have hset : claimSet s ag seq = updHolder s seq (fun c => { c with preemptedBy := some ag }) := by
    simp [claimSet, hk, hclosed, hclaim, hh, ho]
  rw [hset]
  exact holderOf_updHolder hh fun _ hc => hc

theorem claimSet_takes_over {h : Claim} (hh : holderOf s seq = some h) (ho : claimOutcome ag h.agent = .takeOver) :
    holderOf (claimSet s ag seq) seq = some { h with agent := ag, satisfied := h.satisfied ++ [h.agent] } := by
  have hset : claimSet s ag seq = updHolder s seq (fun c => { c with agent := ag, satisfied := c.satisfied ++ [c.agent] }) := by
    simp [claimSet, hk, hclosed, hclaim, hh, ho]
  rw [hset]
  exact holderOf_updHolder hh fun c hc => exclusive_of_agent hc rfl (claimant_of_takeOver ho)

theorem claimSet_satisfies {h : Claim} (hh : holderOf s seq = some h) (ho : claimOutcome ag h.agent = .satisfied) :
    (holderOf (claimSet s ag seq) seq).map (fun c => (c.agent, c.satisfied.contains ag)) = some (h.agent, true) := by
  have hset : claimSet s ag seq =
      updHolder s seq (fun c => { c with satisfied := if c.satisfied.contains ag then c.satisfied else c.satisfied ++ [ag] }) := by
    simp [claimSet, hk, hclosed, hclaim, hh, ho]
  rw [hset, holderOf_updHolder hh (f := fun c => { c with satisfied := if c.satisfied.contains ag then c.satisfied else c.satisfied ++ [ag] }) fun _ hc => hc]
  by_cases hmet : ag ∈ h.satisfied
  · simp [hmet]
  · simp [hmet]

end Request

/-- A request for a closed set answered by Table 11-4. -/
theorem claim_judged {s : State} {ag : Agent} {seq : Nat} {k : SetRec} (hk : setOf s seq = some k) (hclosed : k.closed = true)
    (hclaim : claimOf s ag seq = none) : ∃ t, exec (.blockClaimRequest ag seq) s = .next t ∧
      (holderOf s seq = none → t.media.claims = s.media.claims ++ [⟨seq, ag, none, []⟩]) ∧
      ∀ h, holderOf s seq = some h →
        (claimOutcome ag h.agent = .grant → t.media.claims = s.media.claims ++ [⟨seq, ag, none, []⟩]) ∧
        ((claimOutcome ag h.agent = .refuse ∨ claimOutcome ag h.agent = .covered) → t = endCycle s) ∧
        (claimOutcome ag h.agent = .preempt → holderOf t seq = some { h with preemptedBy := some ag }) ∧
        (claimOutcome ag h.agent = .takeOver → holderOf t seq = some { h with agent := ag, satisfied := h.satisfied ++ [h.agent] }) ∧
        (claimOutcome ag h.agent = .satisfied → (holderOf t seq).map (fun c => (c.agent, c.satisfied.contains ag)) = some (h.agent, true)) := by
  have hexec : exec (.blockClaimRequest ag seq) s = settled (claimSet s ag seq) := rfl
  have hholder : holderOf (endCycle (claimSet s ag seq)) seq = holderOf (claimSet s ag seq) seq :=
    holderOf_congr (congrArg Media.claims (endCycle_media _)) seq
  refine ⟨_, hexec, fun hh => ?_, fun h hh => ⟨fun ho => ?_, fun ho => ?_, fun ho => ?_, fun ho => ?_, fun ho => ?_⟩⟩
  · rw [endCycle_media, claimSet_unheld hk hclosed hclaim hh]
    rfl
  · rw [endCycle_media, claimSet_granted hk hclosed hclaim hh ho]
    rfl
  · rw [claimSet_refused hk hclosed hclaim hh ho]
  · rw [hholder, claimSet_preempts hk hclosed hclaim hh ho]
  · rw [hholder, claimSet_takes_over hk hclosed hclaim hh ho]
  · rw [hholder, claimSet_satisfies hk hclosed hclaim hh ho]

/-- A request for another set leaves the exclusive claim on this one. -/
theorem holderOf_claimSet_other (s : State) (ag : Agent) {n seq : Nat} (hn : n ≠ seq) : holderOf (claimSet s ag n) seq = holderOf s seq := by
  unfold claimSet
  repeat' split
  · rfl
  · rfl
  · exact holderOf_addClaim_other s ag hn
  · exact holderOf_addClaim_other s ag hn
  · rfl
  · rfl
  · exact holderOf_updHolder_other s hn fun _ hc => hc
  · rename_i ho
    exact holderOf_updHolder_other s hn fun c hc => exclusive_of_agent hc rfl (claimant_of_takeOver ho)
  · exact holderOf_updHolder_other s hn fun _ hc => hc

/-! ## A set taken (R274, R281) -/

theorem claims_takeSet (s : State) (ag : Agent) (seq : Nat) : (takeSet s ag seq).media.claims = (claimSet s ag seq).media.claims := by
  unfold takeSet
  dsimp only
  split
  · exact claims_of_steady (steady_moveSet ..)
  · rfl

theorem prof_takeSet (s : State) (ag : Agent) (seq : Nat) : (takeSet s ag seq).media.prof = s.media.prof := by
  unfold takeSet
  dsimp only
  split
  · exact (field_of_steady (steady_moveSet ..) Media.prof).trans (prof_claimSet s ag seq)
  · exact prof_claimSet s ag seq

theorem setOf_takeSet (s : State) (ag : Agent) (n seq : Nat) : setOf (takeSet s ag n) seq = setOf s seq := by
  unfold Machine.setOf
  rw [map_of_rest (rest_takeSet (L := but .map) rfl s ag n) rfl]

/-- The agent that holds a set. -/
def holderAgent (s : State) (seq : Nat) : Option Agent := (holderOf s seq).map (·.agent)

theorem holderAgent_congr {s t : State} (h : t.media.claims = s.media.claims) (seq : Nat) : holderAgent t seq = holderAgent s seq :=
  congrArg (Option.map Claim.agent) (holderOf_congr h seq)

theorem holderAgent_none {s : State} {seq : Nat} (h : holderAgent s seq = none) : holderOf s seq = none := by simpa [holderAgent] using h

/-- A closed set that no agent holds is taken by the agent that asks. -/
theorem holderAgent_takeSet {s : State} {ag : Agent} {seq : Nat} {k : SetRec} (hag : ag ≠ .patrol) (hk : setOf s seq = some k) (hclosed : k.closed = true)
    (hfree : holderOf s seq = none) : holderAgent (takeSet s ag seq) seq = some ag := by
  rw [holderAgent_congr (claims_takeSet ..), holderAgent, claimSet_unheld hk hclosed (claimOf_of_unheld hfree hag) hfree, holderOf_addClaim hfree hag]
  rfl

/-- One that the agent holds already stays with it. -/
theorem holderAgent_takeSet_held {s : State} {ag : Agent} {seq : Nat} (hheld : holderAgent s seq = some ag) :
    holderAgent (takeSet s ag seq) seq = some ag := by
  obtain ⟨h, hh, rfl⟩ := Option.map_eq_some_iff.mp hheld
  have hstays : claimSet s h.agent seq = s := by
    unfold claimSet
    simp only [claimOf_of_holder hh, Bool.or_true, if_true]
    split <;> rfl
  rw [holderAgent_congr (claims_takeSet ..), hstays, hheld]

theorem holderAgent_takeSet_other (s : State) (ag : Agent) {n seq : Nat} (hn : n ≠ seq) : holderAgent (takeSet s ag n) seq = holderAgent s seq :=
  (holderAgent_congr (claims_takeSet ..) seq).trans (congrArg (Option.map Claim.agent) (holderOf_claimSet_other s ag hn))

/-- Of sets taken one after the other, a closed one that no other agent holds is held by the agent once it is among them. -/
theorem holderAgent_foldl_takeSet {ag : Agent} {seq : Nat} {k : SetRec} (hag : ag ≠ .patrol) (hclosed : k.closed = true) (l : List Nat) :
    ∀ s : State, setOf s seq = some k → (holderAgent s seq = some ag ∨ (holderAgent s seq = none ∧ seq ∈ l)) →
      holderAgent (l.foldl (fun t n => takeSet t ag n) s) seq = some ag := by
  induction l with
  | nil =>
    rintro s - (hheld | ⟨-, hmem⟩)
    · exact hheld
    · cases hmem
  | cons n l ih =>
    intro s hk hs
    refine ih _ ((setOf_takeSet ..).trans hk) ?_
    by_cases hn : n = seq
    · subst hn
      rcases hs with hheld | ⟨hfree, -⟩
      · exact .inl (holderAgent_takeSet_held hheld)
      · exact .inl (holderAgent_takeSet hag hk hclosed (holderAgent_none hfree))
    · rw [holderAgent_takeSet_other s ag hn]
      exact hs.imp_right fun h => ⟨h.1, (List.mem_cons.mp h.2).resolve_left (Ne.symm hn)⟩

/-! ## Victims (R274, R275) -/

theorem mem_of_mem_insertBy {α : Type} {le : α → α → Bool} {x y : α} {l : List α} (h : y ∈ insertBy le x l) : y = x ∨ y ∈ l := by
  induction l with
  | nil => simpa [insertBy] using h
  | cons z l ih =>
    unfold insertBy at h
    split at h
    · exact List.mem_cons.mp h
    · rcases List.mem_cons.mp h with rfl | h
      · exact .inr List.mem_cons_self
      · exact (ih h).imp_right (List.mem_cons_of_mem z)

theorem mem_of_mem_sortBy {α : Type} {le : α → α → Bool} {y : α} {l : List α} (h : y ∈ sortBy le l) : y ∈ l := by
  induction l with
  | nil => exact h
  | cons x l ih =>
    rcases mem_of_mem_insertBy h with rfl | h
    · exact List.mem_cons_self
    · exact List.mem_cons_of_mem x (ih h)

theorem betterScore_cases (s : State) (a b : SetRec) : betterScore s a b = a ∨ betterScore s a b = b := by
  unfold betterScore
  dsimp only
  split
  · exact .inr rfl
  · exact .inl rfl

/-- RECLAIM's victim is one of the eligible sets. -/
theorem mem_eligibleSets_of_victim {s : State} {p : Nat} {k : SetRec} (h : reclaimVictim s p = some k) : k ∈ eligibleSets s p := by
  unfold reclaimVictim at h
  dsimp only at h
  split at h
  · rename_i hempty
    cases h
    exact List.mem_of_find?_eq_some hempty
  · revert h
    refine List.foldlRecOn (motive := fun o => o = some k → k ∈ eligibleSets s p) _ _ nofun fun best hbest x hx hk => ?_
    have hmem : x ∈ eligibleSets s p := (List.mem_filter.mp hx).1
    cases best with
    | none => exact Option.some.inj hk ▸ hmem
    | some b =>
      have hbetter : betterScore s b x = k := Option.some.inj hk
      rcases betterScore_cases s b x with h | h
      · exact hbest (congrArg some (h.symm.trans hbetter))
      · rw [← hbetter, h]
        exact hmem

theorem eligible_of_victim {s : State} {p : Nat} {k : SetRec} (h : reclaimVictim s p = some k) : k.closed = true ∧ holderOf s k.seq = none := by
  have helig := (List.mem_filter.mp (mem_of_mem_sortBy (mem_eligibleSets_of_victim h))).2
  simp only [eligible, Bool.and_eq_true, Option.isNone_iff_eq_none] at helig
  exact ⟨helig.1.1.1.1.2, helig.1.1.2⟩

/-! ## RECLAIM and RESERVE_RECLAIM (R273) -/

/-- Whether RECLAIM and RESERVE_RECLAIM run for a profile. -/
def running (s : State) (p : Nat) : Bool × Bool := ((profSt s p).on, (profSt s p).reserveOn)

theorem running_congr {s t : State} (h : t.media.prof = s.media.prof) (p : Nat) : running t p = running s p := by
  unfold running
  rw [profSt_congr h]

theorem running_of_steady {s t : State} (h : steady t = steady s) (p : Nat) : running t p = running s p :=
  running_congr (field_of_steady h Media.prof) p

/-- A change of some profile's agents that leaves both of them as they run. -/
theorem running_updProf (s : State) (r p : Nat) {g : ReclaimSt → ReclaimSt} (hprof : ∀ q, (g q).profile = q.profile) (hon : ∀ q, (g q).on = q.on)
    (hres : ∀ q, (g q).reserveOn = q.reserveOn) : running (updProf s r g) p = running s p := by
  unfold running
  by_cases h : p = r
  · subst h
    rw [profSt_updProf s p (hprof _), hon, hres]
  · rw [profSt_updProf_other s h (hprof _)]

theorem running_settleAlert (s : State) (p : Nat) : running (settleAlert s) p = running s p := by
  unfold settleAlert
  dsimp only
  repeat' split
  all_goals rfl

theorem running_settleLowered (s : State) (r p : Nat) : running (settleLowered s r) p = running s p := by
  unfold settleLowered
  dsimp only
  split
  · exact running_updProf s r p (g := fun q => { q with lastLowered := s.media.horizon }) (fun _ => rfl) (fun _ => rfl) fun _ => rfl
  · rfl

theorem running_recomputeHorizon (s : State) (p : Nat) : running (recomputeHorizon s) p = running s p := by
  unfold recomputeHorizon
  rw [view_foldl (view := fun t => running t p) (fun t r => running_settleLowered t r p), running_settleAlert]
  rfl

theorem running_startShortfall (s : State) (r p : Nat) : running (startShortfall s r) p = running s p := by
  have hset : ∀ (t : State) (g : ReclaimSt → ReclaimSt), (∀ q, (g q).profile = q.profile) → (∀ q, (g q).on = q.on) →
      (∀ q, (g q).reserveOn = q.reserveOn) → running (updProf t r g) p = running t p := fun t g => running_updProf t r p
  unfold startShortfall
  split
  · rfl
  · dsimp only
    generalize hbegun : recomputeHorizon (updProf s r fun q => { q with shortfall := true }) = u
    refine (hset u (fun q => { q with lastLowered := u.media.horizon }) (fun _ => rfl) (fun _ => rfl) fun _ => rfl).trans ?_
    rw [← hbegun, running_recomputeHorizon]
    exact hset s (fun q => { q with shortfall := true }) (fun _ => rfl) (fun _ => rfl) fun _ => rfl

theorem running_settleShortfall (s : State) (r p : Nat) : running (settleShortfall s r) p = running s p := by
  unfold settleShortfall
  split
  · rw [running_recomputeHorizon]
    exact running_updProf s r p (fun _ => rfl) (fun _ => rfl) fun _ => rfl
  · rfl

/-- RECLAIM judged anew for a profile. -/
def reclaimJudged (s : State) (p : Nat) : State := updProf s p (fun q => { q with on := reclaimRuns s p })

/-- What RECLAIM takes on beside the victims it holds. -/
def reclaimTakes (t : State) (p : Nat) (held : List Nat) : State :=
  if 4 ≤ held.length then t
  else match (profSt t p).rescue with
    | some seq => takeSet (updProf t p (fun q => { q with rescue := none })) .reclaim seq
    | none =>
      if (profSt t p).on then (match reclaimVictim t p with | some k => takeSet t .reclaim k.seq | none => t)
      else match t.map.segs.find? (consolidates t) with
        | some x => consolidate t x
        | none => t

theorem running_reclaimTakes (t : State) (p : Nat) (held : List Nat) : running (reclaimTakes t p held) p = running t p := by
  have htake : ∀ (u : State) (n : Nat), running (takeSet u .reclaim n) p = running u p := fun u n => running_congr (prof_takeSet u .reclaim n) p
  unfold reclaimTakes
  split
  · rfl
  split
  · exact (htake ..).trans (running_updProf t p p (fun _ => rfl) (fun _ => rfl) fun _ => rfl)
  split
  · split
    · exact htake ..
    · rfl
  · split
    · exact running_of_steady (steady_consolidate ..) p
    · rfl

/-- A victim chosen while RECLAIM holds no set of the profile, and has none to rescue, is taken (R275). -/
theorem holderAgent_reclaimTakes {s : State} {p : Nat} {k : SetRec} (hon : reclaimRuns s p = true) (hrescue : (profSt s p).rescue = none)
    (hvictim : reclaimVictim s p = some k) (hk : setOf s k.seq = some k) :
    holderAgent (reclaimTakes (reclaimJudged s p) p []) k.seq = some .reclaim := by
  obtain ⟨hclosed, hfree⟩ := eligible_of_victim hvictim
  have hjudged : profSt (reclaimJudged s p) p = { profSt s p with on := reclaimRuns s p } := profSt_updProf s p rfl
  have hsame : reclaimVictim (reclaimJudged s p) p = some k := hvictim
  have htakes : reclaimTakes (reclaimJudged s p) p [] = takeSet (reclaimJudged s p) .reclaim k.seq := by
    simp [reclaimTakes, hjudged, hrescue, hon, hsame]
  rw [htakes]
  exact holderAgent_takeSet nofun hk hclosed hfree

section Reclaim

variable {s : State} {p : Nat} {f : Profile} (hf : profileOf s p = some f) (hready : notReady s = false) (hrun : s.jrnl.stopFrom = none)
include hf hready hrun

theorem exec_reclaimStart : exec (.reclaimStart p) s = settled (settleFull (reclaimTakes
    (continueSets (reclaimJudged s p) .reclaim (heldSets (reclaimJudged s p) .reclaim p)) p (heldSets (reclaimJudged s p) .reclaim p))) := by
  have hexec : exec (.reclaimStart p) s = execReclaimStart p s := rfl
  rw [hexec, execReclaimStart, if_neg (by simp [hf, hready, hrun])]
  rfl

theorem reclaim_started : ∃ t, exec (.reclaimStart p) s = .next t ∧ (profSt t p).on = reclaimRuns s p ∧
    ∀ k, reclaimRuns s p = true → heldSets s .reclaim p = [] → (profSt s p).rescue = none → reclaimVictim s p = some k → setOf s k.seq = some k →
      (holderOf t k.seq).map (·.agent) = some .reclaim := by
  refine ⟨_, exec_reclaimStart hf hready hrun, ?_, fun k hon hheld hrescue hvictim hk => ?_⟩
  · have hend : running (endCycle (settleFull (reclaimTakes (continueSets (reclaimJudged s p) .reclaim (heldSets (reclaimJudged s p) .reclaim p)) p
        (heldSets (reclaimJudged s p) .reclaim p)))) p = running (reclaimJudged s p) p := by
      rw [running_congr (congrArg Media.prof (endCycle_media _)), running_of_steady (steady_settleFull _), running_reclaimTakes,
        running_of_steady (steady_continueSets ..)]
    have hjudged : profSt (reclaimJudged s p) p = { profSt s p with on := reclaimRuns s p } := profSt_updProf s p rfl
    exact (congrArg Prod.fst hend).trans (congrArg ReclaimSt.on hjudged)
  · have hheld' : heldSets (reclaimJudged s p) .reclaim p = [] := hheld
    show holderAgent _ k.seq = _
    rw [hheld', holderAgent_congr (congrArg Media.claims (endCycle_media _)), holderAgent_congr (claims_of_steady (steady_settleFull _))]
    exact holderAgent_reclaimTakes hon hrescue hvictim hk

end Reclaim

/-- RESERVE_RECLAIM judged anew for a profile. -/
def reserveJudged (s : State) (p : Nat) : State := updProf s p (fun q => { q with reserveOn := reserveRuns s p })

/-- What RESERVE_RECLAIM takes on beside the victims it holds, or the shortfall that it finds (R272). -/
def reserveTakes (t : State) (p : Nat) (held : List Nat) : State :=
  if 4 ≤ held.length || !(profSt t p).reserveOn then t
  else match reserveVictim t p with
    | some k => takeSet t .reserveReclaim k.seq
    | none => if lastStandHalf t p then startShortfall t p else t

theorem running_reserveTakes (t : State) (p : Nat) (held : List Nat) : running (reserveTakes t p held) p = running t p := by
  unfold reserveTakes
  split
  · rfl
  split
  · exact running_congr (prof_takeSet ..) p
  split
  · exact running_startShortfall t p p
  · rfl

section Reserve

variable {s : State} {p : Nat} {f : Profile} (hf : profileOf s p = some f) (hready : notReady s = false) (hrun : s.jrnl.stopFrom = none)
include hf hready hrun

theorem exec_reserveReclaimStart : exec (.reserveReclaimStart p) s = settled (settleFull (settleShortfall (reserveTakes
    (continueSets (reserveJudged s p) .reserveReclaim (heldSets (reserveJudged s p) .reserveReclaim p)) p
    (heldSets (reserveJudged s p) .reserveReclaim p)) p)) := by
  have hexec : exec (.reserveReclaimStart p) s = execReserveReclaimStart p s := rfl
  rw [hexec, execReserveReclaimStart, if_neg (by simp [hf, hready, hrun])]
  rfl

theorem reserveReclaim_started : ∃ t, exec (.reserveReclaimStart p) s = .next t ∧ (profSt t p).reserveOn = reserveRuns s p := by
  have hend : ∀ held, running (endCycle (settleFull (settleShortfall (reserveTakes (continueSets (reserveJudged s p) .reserveReclaim held) p held) p))) p =
      running (reserveJudged s p) p := fun held => by
    rw [running_congr (congrArg Media.prof (endCycle_media _)), running_of_steady (steady_settleFull _), running_settleShortfall, running_reserveTakes,
      running_of_steady (steady_continueSets ..)]
  have hjudged : profSt (reserveJudged s p) p = { profSt s p with reserveOn := reserveRuns s p } := profSt_updProf s p rfl
  exact ⟨_, exec_reserveReclaimStart hf hready hrun, (congrArg Prod.snd (hend _)).trans (congrArg ReclaimSt.reserveOn hjudged)⟩

end Reserve

/-! ## REFRESH (R326) -/

/-- The sets that REFRESH holds. -/
def refreshHeld (s : State) : List Nat := (s.media.claims.filter (fun c => c.agent == .refresh && c.preemptedBy.isNone)).map (·.seq)

/-- The sets of severity 3 on its list that it does not hold. -/
def refreshUrgent (s : State) : List Nat :=
  (((refreshList s).filter (fun k => !(refreshHeld s).contains k.seq)).filter (fun k => severityOf s k == 3)).map (·.seq)

/-- The head of the rest of its list, up to 4 sets with those it holds. -/
def refreshOthers (s : State) : List Nat :=
  ((((refreshList s).filter (fun k => !(refreshHeld s).contains k.seq)).filter (fun k => severityOf s k != 3)).map (·.seq)).take (4 - (refreshHeld s).length)

/-- REFRESH at work on the sets that it holds (R228). -/
def refreshWorked (s : State) : State := replaceAbandoned (continueSets s .refresh (refreshHeld s))

theorem steady_refreshWorked (s : State) : steady (refreshWorked s) = steady s := (steady_replaceAbandoned _).trans (steady_continueSets ..)

theorem setOf_refreshWorked (s : State) (seq : Nat) : setOf (refreshWorked s) seq = setOf s seq := by
  have hmap : (refreshWorked s).map = s.map :=
    (map_of_rest (rest_replaceAbandoned (L := but .map) rfl _) rfl).trans (map_of_rest (rest_continueSets (L := but .map) rfl ..) rfl)
  unfold Machine.setOf
  rw [hmap]

theorem exec_refreshClaim {s : State} (hready : notReady s = false) (hrun : s.jrnl.stopFrom = none) :
    exec .refreshClaim s = settled (settleFull ((refreshUrgent s ++ refreshOthers s).foldl (fun t n => takeSet t .refresh n) (refreshWorked s))) := by
  have hexec : exec .refreshClaim s = execRefreshClaim s := rfl
  rw [hexec, execRefreshClaim, if_neg (by simp [hready, hrun])]
  rfl

/-- A set that no agent holds is not among those of REFRESH. -/
theorem not_mem_refreshHeld {s : State} {seq : Nat} (hfree : holderOf s seq = none) : seq ∉ refreshHeld s := by
  intro hmem
  obtain ⟨c, hc, hseq⟩ := List.mem_map.mp hmem
  obtain ⟨hclaim, hag⟩ := List.mem_filter.mp hc
  simp only [Bool.and_eq_true, beq_iff_eq] at hag
  exact List.find?_eq_none.mp hfree c hclaim (by simp [hseq, hag.1])

theorem mem_refreshUrgent {s : State} {k : SetRec} (hk : k ∈ refreshList s) (hsev : severityOf s k = 3) (hfree : holderOf s k.seq = none) :
    k.seq ∈ refreshUrgent s :=
  List.mem_map.mpr ⟨k, List.mem_filter.mpr ⟨List.mem_filter.mpr ⟨hk, by simpa using not_mem_refreshHeld hfree⟩, by simp [hsev]⟩, rfl⟩

theorem closed_of_mem_refreshList {s : State} {k : SetRec} (hk : k ∈ refreshList s) : k.closed = true := by
  have hdue := (List.mem_filter.mp (mem_of_mem_sortBy hk)).2
  simp only [Bool.and_eq_true] at hdue
  exact hdue.1.1

theorem refresh_claims {s : State} (hready : notReady s = false) (hrun : s.jrnl.stopFrom = none) : ∃ t, exec .refreshClaim s = .next t ∧
    ∀ k ∈ refreshList s, severityOf s k = 3 → setOf s k.seq = some k → holderOf s k.seq = none → (holderOf t k.seq).map (·.agent) = some .refresh := by
  refine ⟨_, exec_refreshClaim hready hrun, fun k hk hsev hset hfree => ?_⟩
  have hfree' : holderAgent (refreshWorked s) k.seq = none := by
    rw [holderAgent_congr (claims_of_steady (steady_refreshWorked s)), holderAgent, hfree]
    rfl
  show holderAgent _ k.seq = _
  rw [holderAgent_congr (congrArg Media.claims (endCycle_media _)), holderAgent_congr (claims_of_steady (steady_settleFull _))]
  exact holderAgent_foldl_takeSet (ag := .refresh) nofun (closed_of_mem_refreshList hk) _ _ ((setOf_refreshWorked ..).trans hset)
    (.inr ⟨hfree', List.mem_append_left _ (mem_refreshUrgent hk hsev hfree)⟩)

/-! ## A pre-empted claim passes (R283) -/

theorem preempted_claim_passes {s : State} {seq : Nat} {k : SetRec} {h : Claim} {ag : Agent} (hh : holderOf s seq = some h) (hk : setOf s seq = some k)
    (hby : h.preemptedBy = some ag) (hag : ag ≠ .patrol) (hidle : holderBusy s k (agentDieWho h.agent) = false) :
    ∃ t, exec (.preemptHandoff seq) s = .next t ∧ holderOf t seq = some { h with agent := ag, preemptedBy := none } := by
  have hexec : exec (.preemptHandoff seq) s = execPreemptHandoff seq s := rfl
  refine ⟨updHolder s seq (fun c => { c with agent := ag, preemptedBy := none }), ?_, ?_⟩
  · simp [hexec, execPreemptHandoff, hh, hk, hby, hidle]
  · exact holderOf_updHolder hh fun c hc => exclusive_of_agent hc rfl hag

/-! ## Blocks released and retired (R232, R250) -/

theorem imgBlk_updImgBlk (i : MapImg) (c : Madr) {f : BlockRec → BlockRec} (hf : ∀ x, (f x).addr = x.addr) (b : Madr) :
    imgBlk (updImgBlk i c f) b = if c = b then f (imgBlk i b) else imgBlk i b := by
  have hput := find_put BlockRec.addr i.blocks ((hf _).trans (addr_imgBlk i c)) b
  have hblk : imgBlk (updImgBlk i c f) b = ((putBlk i.blocks (f (imgBlk i c))).find? (fun x => x.addr == b)).getD
      { addr := b, seq := 0, st := .erased, released := false, pe := 1 } := rfl
  rw [hblk, putBlk, (hf _).trans (addr_imgBlk i c), hput]
  split
  · rename_i h
    subst h
    rfl
  · rfl

section Committed

variable {s : State} (hrun : s.jrnl.stopFrom = none)
include hrun

theorem blkOf_release (c b : Madr) : blkOf (commitRec s (.release c)) b = if c = blockOf b then { blkOf s b with released := true } else blkOf s b := by
  show imgBlk (commitRec s (.release c)).map (blockOf b) = _
  rw [map_commitRec hrun]
  exact imgBlk_updImgBlk s.map c (f := fun x => { x with released := true }) (fun _ => rfl) (blockOf b)

theorem blkOf_retire (c b : Madr) (cause : Nat) :
    blkOf (commitRec s (.retire c cause)) b = if c = blockOf b then { blkOf s b with st := .retired } else blkOf s b := by
  show imgBlk (commitRec s (.retire c cause)).map (blockOf b) = _
  rw [map_commitRec hrun]
  exact imgBlk_updImgBlk { s.map with sets := _ } c (f := fun x => { x with st := .retired }) (fun _ => rfl) (blockOf b)

theorem stopFrom_commitRec (body : JRec) : (commitRec s body).jrnl.stopFrom = none := by rw [jrnl_commitRec hrun, hrun]

end Committed

/-- What the retirement of a block takes of its bay's reserve is not in the map nor in the journal. -/
theorem retireBlock_commits {s : State} {b : Madr} (hst : (blkOf s b).st ≠ .retired) (cause : Nat) :
    (retireBlock s b cause).map = (commitRec s (.retire (blockOf b) cause)).map ∧
      (retireBlock s b cause).jrnl = (commitRec s (.retire (blockOf b) cause)).jrnl := by
  have hseal : ∀ t p, (sealIfSpent t p).map = t.map ∧ (sealIfSpent t p).jrnl = t.jrnl := fun t p =>
    have h := rest_sealIfSpent (L := [.cond, .condFrom]) rfl t p
    ⟨map_of_rest h rfl, jrnl_of_rest h rfl⟩
  have hspare : ∀ t p n, (takeSpare t p n).map = t.map ∧ (takeSpare t p n).jrnl = t.jrnl := fun t p n =>
    have h := rest_takeSpare (L := [.media]) rfl t p n
    ⟨map_of_rest h rfl, jrnl_of_rest h rfl⟩
  unfold retireBlock
  rw [if_neg (by simpa using hst)]
  dsimp only
  split
  · exact ⟨rfl, rfl⟩
  split
  · exact ⟨rfl, rfl⟩
  · exact ⟨(hseal ..).1.trans (hspare ..).1, (hseal ..).2.trans (hspare ..).2⟩

theorem st_retireBlock {s : State} (hrun : s.jrnl.stopFrom = none) (b : Madr) (cause : Nat) : (blkOf (retireBlock s b cause) b).st = .retired := by
  by_cases hst : (blkOf s b).st = .retired
  · rw [retireBlock, if_pos (by simpa using hst)]
    exact hst
  · rw [blkOf_congr (retireBlock_commits hst cause).1, blkOf_retire hrun, if_pos rfl]

/-- The retirement of a block leaves the others. -/
theorem blkOf_retireBlock_other {s : State} (hrun : s.jrnl.stopFrom = none) {c b : Madr} (hc : blockOf c ≠ blockOf b) (cause : Nat) :
    blkOf (retireBlock s c cause) b = blkOf s b := by
  by_cases hst : (blkOf s c).st = .retired
  · rw [retireBlock, if_pos (by simpa using hst)]
  · rw [blkOf_congr (retireBlock_commits hst cause).1, blkOf_retire hrun, if_neg hc]

theorem stopFrom_retireBlock {s : State} (hrun : s.jrnl.stopFrom = none) (c : Madr) (cause : Nat) : (retireBlock s c cause).jrnl.stopFrom = none := by
  by_cases hst : (blkOf s c).st = .retired
  · rw [retireBlock, if_pos (by simpa using hst), hrun]
  · rw [(retireBlock_commits hst cause).2, stopFrom_commitRec hrun]

/-! ## A failed member (R346) -/

/-- What of a bay decides whether a column on it is down: its state and its failed dies. -/
def standing (x : Bay) : BaySt × List Nat := (x.st, x.failedDies)

theorem colDown_congr {s t : State} {b : Madr} (hbay : (bayOf t b.bay).map standing = (bayOf s b.bay).map standing)
    (hseq : (blkOf t b).seq = (blkOf s b).seq) (k : SetRec) : colDown t k b = colDown s k b := by
  have hdown : ∀ u : State, colDown u k b = ((((bayOf u b.bay).map standing).map (fun x =>
      (x.1 != .member && x.1 != .evacuating) || x.2.contains (dieNum (dieOf b)))).getD true || (blkOf u b).seq != k.seq) := fun u => by
    unfold colDown
    cases bayOf u b.bay <;> rfl
  rw [hdown, hdown, hbay, hseq]

/-- A block of a failed die that is retired goes on the defect list of its bay (cause 5), and no bay changes else. -/
theorem standing_retireBlock_failedDie (s : State) (c : Madr) (n : Nat) : (bayOf (retireBlock s c 5) n).map standing = (bayOf s n).map standing := by
  have hlisted : ∀ t g, (∀ x : Bay, (g x).bay = x.bay ∧ standing (g x) = standing x) → t.media.bays = s.media.bays →
      (bayOf (updBay t c.bay g) n).map standing = (bayOf s n).map standing := fun t g hg ht => by
    rw [bayOf_of_map (s := s) (f := fun x => if x.bay == c.bay then g x else x) (fun x => by split <;> simp [hg]) (by rw [← ht]; rfl) n, Option.map_map]
    refine congrArg (fun h => Option.map h _) (funext fun x => ?_)
    show standing (if x.bay == c.bay then g x else x) = standing x
    split
    · exact (hg x).2
    · rfl
  have hcommit : (commitRec s (.retire (blockOf c) 5)).media = s.media := media_of_rest (rest_commitRec (L := but .media) rfl ..) rfl
  unfold retireBlock
  split
  · rfl
  dsimp only
  have hdone := hlisted (updHealth (commitRec s (.retire (blockOf c) 5)) (fun h => { h with retiredBlocks := h.retiredBlocks + 1 }))
    (fun x => if x.defects.length < 4096 then { x with defects := x.defects ++ [(blockOf c, 5)] } else { x with overflow := true })
    (fun x => by split <;> exact ⟨rfl, rfl⟩) (congrArg Media.bays hcommit)
  split
  · exact hdone
  · exact hdone

/-! ## A set released (R250) -/

/-- A block of a set on a working member, which a release takes. -/
def Releasable (t : State) (k : SetRec) (b : Madr) : Prop := t.jrnl.stopFrom = none ∧ colDown t k b = false ∧ (blkOf t b).st ≠ .retired

theorem bay_of_colDown {t : State} {k : SetRec} {b : Madr} (h : colDown t k b = false) :
    ∃ x, bayOf t b.bay = some x ∧ x.failedDies.contains (dieNum (dieOf b)) = false := by
  unfold colDown at h
  cases hbay : bayOf t b.bay with
  | none => simp [hbay] at h
  | some x =>
    simp only [hbay, Bool.or_eq_false_iff] at h
    exact ⟨x, rfl, h.1.2⟩

theorem releaseBlock_releasable {t : State} {k : SetRec} {b : Madr} (h : Releasable t k b) : releaseBlock t k b = commitRec t (.release b) := by
  obtain ⟨-, hdown, hst⟩ := h
  obtain ⟨x, hbay, hdie⟩ := bay_of_colDown hdown
  simp only [releaseBlock, hbay, hdie, hdown, Bool.false_or, beq_iff_eq, hst, Bool.false_eq_true, if_false]

/-- The release of any block keeps another one releasable, and released. -/
theorem Releasable.after_release {t : State} {k : SetRec} {b : Madr} (h : Releasable t k b) (c : Madr) :
    Releasable (releaseBlock t k c) k b ∧ ((blkOf t b).released = true → (blkOf (releaseBlock t k c) b).released = true) := by
  obtain ⟨hrun, hdown, hst⟩ := h
  obtain ⟨x, hbay, hdie⟩ := bay_of_colDown hdown
  unfold releaseBlock
  split
  · exact ⟨⟨hrun, hdown, hst⟩, id⟩
  rename_i y hy
  split
  · rename_i hfailed
    have hother : blockOf c ≠ blockOf b := fun heq => by
      have hsame : dieOf c = dieOf b := (congrArg dieOf heq : dieOf (blockOf c) = dieOf (blockOf b))
      have hbayeq : c.bay = b.bay := congrArg DieId.bay hsame
      obtain rfl : y = x := Option.some.inj (hy.symm.trans (hbayeq ▸ hbay))
      rw [hsame, hdie] at hfailed
      cases hfailed
    have hblk := blkOf_retireBlock_other hrun hother 5
    have hdown' := colDown_congr (standing_retireBlock_failedDie t c b.bay) (congrArg BlockRec.seq hblk) k
    exact ⟨⟨stopFrom_retireBlock hrun c 5, hdown'.trans hdown, hblk ▸ hst⟩, fun hrel => hblk ▸ hrel⟩
  split
  · exact ⟨⟨hrun, hdown, hst⟩, id⟩
  · have hmedia : (commitRec t (.release c)).media = t.media := media_of_rest (rest_commitRec (L := but .media) rfl ..) rfl
    have hblk := blkOf_release hrun c b
    have hkept : (blkOf (commitRec t (.release c)) b).seq = (blkOf t b).seq ∧ (blkOf (commitRec t (.release c)) b).st = (blkOf t b).st ∧
        ((blkOf t b).released = true → (blkOf (commitRec t (.release c)) b).released = true) := by
      rw [hblk]
      split
      · exact ⟨rfl, rfl, fun _ => rfl⟩
      · exact ⟨rfl, rfl, id⟩
    obtain ⟨hseq, hstate, hrel⟩ := hkept
    have hdown' := colDown_congr (congrArg (Option.map standing) (bayOf_congr (congrArg Media.bays hmedia) b.bay)) hseq k
    exact ⟨⟨stopFrom_commitRec hrun _, hdown'.trans hdown, hstate ▸ hst⟩, hrel⟩

/-- Of blocks released one after the other, one that is releasable is released once it is among them. -/
theorem released_foldl {k : SetRec} {b : Madr} (hb : blockOf b = b) (l : List Madr) : ∀ t : State, Releasable t k b →
    ((blkOf t b).released = true ∨ b ∈ l) → (blkOf (l.foldl (fun t c => releaseBlock t k c) t) b).released = true := by
  induction l with
  | nil =>
    rintro t - (hrel | hmem)
    · exact hrel
    · cases hmem
  | cons c l ih =>
    intro t ht hs
    obtain ⟨hnext, hkept⟩ := ht.after_release c
    refine ih _ hnext ?_
    rcases hs with hrel | hmem
    · exact .inl (hkept hrel)
    rcases List.mem_cons.mp hmem with rfl | hmem
    · have hnow : (blkOf (releaseBlock t k b) b).released = true := by
        rw [releaseBlock_releasable ht, blkOf_release ht.1, if_pos hb.symm]
      exact .inl hnow
    · exact .inr hmem

/-- The blocks of a set released, and its claims, triggers and measures dropped. -/
def setReleased (s : State) (k : SetRec) (seq : Nat) : State :=
  updMedia ((blocksOfSet k).foldl (fun t b => releaseBlock t k b) s) (fun m =>
    { m with
      claims := m.claims.filter (fun c => c.seq != seq), refresh := m.refresh.filter (fun r => r.seq != seq)
      measured := m.measured.filter (fun x => x.seq != seq) })

theorem claims_setReleased (s : State) (k : SetRec) (seq : Nat) : ∀ c ∈ (setReleased s k seq).media.claims, c.seq ≠ seq := fun c hc => by
  simpa using (List.mem_filter.mp hc).2

/-- What follows a set's release: patrol's list, the sweep, the rebuild and FULL judged again. -/
def releaseSettled (t : State) : State := settleFull (finishRebuild (settleSweep (settlePatrol t)))

theorem map_releaseSettled (t : State) : (releaseSettled t).map = t.map := by
  have hfull : ∀ u, (settleFull u).map = u.map := fun u => map_of_rest (rest_settleFull (L := but .map) rfl u) rfl
  have hrebuild : ∀ u, (finishRebuild u).map = u.map := fun u => map_of_rest (rest_finishRebuild (L := but .map) rfl u) rfl
  have hsweep : ∀ u, (settleSweep u).map = u.map := fun u => map_of_rest (rest_settleSweep (L := but .map) rfl u) rfl
  have hpatrol : ∀ u, (settlePatrol u).map = u.map := fun u => map_of_rest (rest_settlePatrol (L := but .map) rfl u) rfl
  rw [releaseSettled, hfull, hrebuild, hsweep, hpatrol]

theorem claims_settleSweep (s : State) : (settleSweep s).media.claims = s.media.claims := by
  unfold settleSweep
  dsimp only
  repeat' split
  all_goals rfl

theorem claims_setRebuild (s : State) (new : Nat) (extra : List (Nat × Bool)) : (setRebuild s new extra).media.claims = s.media.claims := by
  unfold setRebuild
  dsimp only
  split
  · rfl
  split
  · rfl
  split
  · simp only [raiseEvent_media, media_journal, setFlags_media, updMedia_media]
  · simp only [media_journal, setFlags_media, updMedia_media]

theorem claims_finishRebuild (s : State) : (finishRebuild s).media.claims = s.media.claims := by
  unfold finishRebuild
  dsimp only
  split
  · rfl
  split
  · exact claims_setRebuild ..
  · rfl

theorem claims_releaseSettled (t : State) : (releaseSettled t).media.claims = t.media.claims := by
  rw [releaseSettled, claims_of_steady (steady_settleFull _), claims_finishRebuild, claims_settleSweep]
  rfl

theorem exec_blockRelease {s : State} {seq : Nat} {k : SetRec} (hk : setOf s seq = some k) (hmay : mayRelease s k = true)
    (hrun : s.jrnl.stopFrom = none) : exec (.blockRelease seq) s = settled (releaseSettled (setReleased s k seq)) := by
  have hexec : exec (.blockRelease seq) s = execBlockRelease seq s := rfl
  rw [hexec, execBlockRelease]
  simp only [hk, hmay, hrun, Bool.not_true, Option.isSome_none, Bool.or_self, Bool.false_eq_true, if_false]
  rfl

theorem set_released {s : State} {seq : Nat} {k : SetRec} (hk : setOf s seq = some k) (hmay : mayRelease s k = true) (hrun : s.jrnl.stopFrom = none) :
    ∃ t, exec (.blockRelease seq) s = .next t ∧ (∀ c ∈ t.media.claims, c.seq ≠ seq) ∧
      ∀ b ∈ blocksOfSet k, blockOf b = b → colDown s k b = false → (blkOf s b).st ≠ .retired → (blkOf t b).released = true := by
  refine ⟨_, exec_blockRelease hk hmay hrun, ?_, fun b hmem hb hdown hst => ?_⟩
  · rw [endCycle_media, claims_releaseSettled]
    exact claims_setReleased s k seq
  · rw [blkOf_congr ((endCycle_map _).trans (map_releaseSettled _))]
    exact released_foldl hb _ s ⟨hrun, hdown, hst⟩ (.inr hmem)

/-! ## A released block erased (R250) -/

/-- A block retired in place of its erase, with its pages and its failed verify reads forgotten (Table 9-7). -/
def blockRetired (s : State) (b : Madr) (cause : Nat) : State :=
  updMedia (retireBlock s b cause) (fun m =>
    { m with pages := m.pages.filter (fun p => blockOf p.addr != b), verifyFails := m.verifyFails.filter (fun x => x != b) })

theorem pages_settleFull (s : State) : (settleFull s).media.pages = s.media.pages := by
  unfold settleFull
  dsimp only
  repeat' split
  all_goals rfl

section Erase

variable {s : State} {m : Madr} (hrel : (blkOf s (blockOf m)).released = true) (hdur : releaseDurable s (blockOf m) = true)
  (hpin : s.eng.pins.any (fun p => p.1 == blockOf m) = false) (hrun : s.jrnl.stopFrom = none)
  (hidle : anyOp s (fun o => o.seqNo == 4 && o.page == blockOf m) = false)
include hrel hdur hpin hrun hidle

theorem exec_blockErase_failed (hfailed : s.media.pages.any (fun p => blockOf p.addr == blockOf m && p.st == .failed) = true) :
    exec (.blockErase m) s = settled (settleFull (settlePatrol (blockRetired s (blockOf m) 2))) := by
  have hexec : exec (.blockErase m) s = execBlockErase m s := rfl
  simp [hexec, execBlockErase, blockRetired, hrel, hdur, hpin, hrun, hidle, hfailed]

theorem failed_block_retired (hfailed : s.media.pages.any (fun p => blockOf p.addr == blockOf m && p.st == .failed) = true) :
    ∃ t, exec (.blockErase m) s = .next t ∧ (blkOf t (blockOf m)).st = .retired ∧ ∀ p ∈ t.media.pages, blockOf p.addr ≠ blockOf m := by
  have hmap : (settleFull (settlePatrol (blockRetired s (blockOf m) 2))).map = (blockRetired s (blockOf m) 2).map :=
    (map_of_rest (rest_settleFull (L := but .map) rfl _) rfl).trans (map_of_rest (rest_settlePatrol (L := but .map) rfl _) rfl)
  refine ⟨_, exec_blockErase_failed hrel hdur hpin hrun hidle hfailed, ?_, fun p hp => ?_⟩
  · rw [blkOf_congr ((endCycle_map _).trans hmap)]
    exact st_retireBlock hrun (blockOf m) 2
  · rw [endCycle_media, pages_settleFull] at hp
    simpa using (List.mem_filter.mp hp).2

/-- The erase asked of the die waits for the draw of its block (assumption 45). -/
theorem block_erase_waits (hgood : s.media.pages.any (fun p => blockOf p.addr == blockOf m && p.st == .failed) = false)
    (hverify : (s.media.verifyFails.filter (fun x => x == blockOf m)).length < 2) :
    ∃ t o, exec (.blockErase m) s = .next t ∧ o ∈ t.media.undrawn ∧ o.seqNo = 4 ∧ o.page = blockOf m ∧
      drawOf s o = some (eraseDraw s (blockOf m)) := by
  have hexec : exec (.blockErase m) s = execBlockErase m s := rfl
  have hdraw : drawOf s (mkOp s 4 (blockOf m) 11) = some (eraseDraw s (blockOf m)) := rfl
  refine ⟨endCycle (issueOp s (mkOp s 4 (blockOf m) 11)),
    { mkOp s 4 (blockOf m) 11 with typical := some (typicalOf s (blockOf m).bay 4) }, ?_, ?_, rfl, rfl, hdraw⟩
  · have hfew : ¬ 2 ≤ (s.media.verifyFails.filter (fun x => x == blockOf m)).length := by omega
    simp [hexec, execBlockErase, settled, hrel, hdur, hpin, hrun, hidle, hgood, hfew]
  · rw [endCycle_media, issueOp_of_draw hdraw]
    exact List.mem_append_right _ (List.mem_singleton_self _)

end Erase

/-! ## O36 -/

/-- Settles O36: the claims by the outcome of Table 11-4, the agents by the sets that they take, a release by the claims and the blocks of its set, an
erase by whether a program of its block has failed. -/
theorem agentsClaimAndFreeSets : Obligations.AgentsClaimAndFreeSets := by
  unfold Obligations.AgentsClaimAndFreeSets
  intro s
  refine ⟨fun p f hf hready hrun => ⟨reclaim_started hf hready hrun, reserveReclaim_started hf hready hrun⟩, refresh_claims,
    fun ag seq k hk hclosed hclaim => claim_judged hk hclosed hclaim,
    fun seq k h ag hh hk hby hag hidle => preempted_claim_passes hh hk hby hag hidle, fun seq k hk hmay hrun => ?released,
    fun m => ?erased⟩
  case released =>
    obtain ⟨t, hexec, hclaims, hblocks⟩ := set_released hk hmay hrun
    exact ⟨t, hexec, hclaims, fun b x hmem hb _ _ hdown hst => hblocks b hmem hb hdown hst⟩
  case erased =>
    intro b hrel hdur hpin hrun hidle
    exact ⟨failed_block_retired hrel hdur hpin hrun hidle, block_erase_waits hrel hdur hpin hrun hidle⟩

end Sys2Proof.Proofs
end

section
/-! PROOFS. What the commands of a twin share (R382 to R388): its time, the frames it sends, a role taken, going alone, and what the supervision of the
partner keeps while ownership, journal and bays are worked on. -/
namespace Sys2Proof.Proofs
open Sys2Proof Sys2Proof.Machine Sys2Proof.Laws

/-! ## Time -/

/-- The twin with other counts of silent quarter milliseconds. -/
def counted (x : Nat × Nat × Nat) (s : State) : State :=
  updTwin s (fun t => { t with hbMisses := x.1, hbTotal := x.2.1, hbCounted := x.2.2 })

theorem countMisses_counted (s : State) : ∃ x, countMisses s = counted x s := by
  unfold countMisses
  split
  · exact ⟨(s.twin.hbMisses, s.twin.hbTotal, s.twin.hbCounted), rfl⟩
  · exact ⟨(_, _, _), rfl⟩

/-- At a cycle that has passed, a twin command changes nothing but those counts (R384). -/
theorem twinTime_past {s : State} {cyc : Nat} (h : cyc ≤ s.now) : ∃ x, twinTime s cyc = counted x s := by
  rw [twinTime, advanceTo_past h]
  exact countMisses_counted s

/-! ## Frames sent (R386) -/

/-- The twin but for the frames that it has sent. -/
def offLink (w : Twin) : Twin := { w with txSeq := 0, sent := [], ackAt := 0, unacked := [] }

theorem offLink_sendFrame (s : State) (f : Frame) : offLink (sendFrame s f).twin = offLink s.twin := by cases f <;> rfl

theorem offLink_mirrorFrame (s : State) (f : Frame) : offLink (mirrorFrame s f).twin = offLink s.twin := by
  unfold mirrorFrame
  split
  exacts [offLink_sendFrame s f, rfl]

theorem offLink_performState (s : State) (cid kind : Nat) (r0 r1 : Word) (feature : Option (Nat × List Word)) (queue : Option QueueImage)
    (log : Option Port) : offLink (performState s cid kind r0 r1 feature queue log).twin = offLink s.twin := offLink_mirrorFrame s _

/-- A field of the twin that tells of no frame sent. -/
theorem field_of_offLink {β : Type} {w v : Twin} (h : offLink w = offLink v) (g : Twin → β) (hg : ∀ x, g (offLink x) = g x := by intro _; rfl) :
    g w = g v := by
  rw [← hg w, h, hg v]

theorem exists_sent_sendFrame (s : State) (f : Frame) : ∃ x ∈ (sendFrame s f).twin.sent, x.frame = f := by
  cases f <;> exact ⟨_, List.mem_append_right _ (List.mem_singleton_self _), rfl⟩

theorem sent_sendFrame {s : State} {x : SentFrame} (h : x ∈ s.twin.sent) (f : Frame) : x ∈ (sendFrame s f).twin.sent := by
  cases f <;> exact List.mem_append_left _ h

/-! ## A role taken (R382) -/

theorem twin_setRole (s : State) (r : Role) : (setRole s r).twin = { s.twin with role := r } := by
  unfold setRole
  split
  case isTrue h => rw [← eq_of_beq h]
  case isFalse => rfl

theorem twin_forgetMedium (s : State) : (forgetMedium s).twin = s.twin := rfl

/-! ## The active alone (Table 16-3) -/

theorem twin_settleStand (s : State) : (settleStand s).twin = s.twin := twin_of_rest (rest_settleStand (L := but .twin) rfl s) rfl

theorem twin_refuseWaiting (s : State) (cid : Option Nat) : (refuseWaiting s cid).twin = s.twin := by
  cases cid with
  | none => rfl
  | some n => exact twin_of_rest (rest_refuseNow (L := but .twin) rfl s n ..) rfl

theorem twin_goAlone (s : State) : (goAlone s).twin =
    { s.twin with partnerRole := .fenced, unacked := [], syncEnd := none, handOver := none, pairing := none } := by
  rw [goAlone, twin_settleStand, twin_refuseWaiting, twin_refuseWaiting]
  rfl

end Sys2Proof.Proofs
end

section
/-! PROOFS. Zynmi frames (R386 to R404): which frame is accepted, what each type does when it is, and what an ACK covers. -/
namespace Sys2Proof.Proofs
open Sys2Proof Sys2Proof.Machine Sys2Proof.Laws

/-! ## Acceptance (R386) -/

/-- The state in which an accepted frame acts. -/
def heard (s : State) (h : FrameHead) (x : Nat × Nat × Nat) : State :=
  updTwin (counted x s) (fun t => { t with rxSeq := h.fseq, lastFrame := some s.now })

/-- A twin that has accepted the frame. -/
def Taken (s : State) (h : FrameHead) (w : Twin) : Prop := w.rxSeq = h.fseq ∧ w.lastFrame = some s.now

/-- A twin that has accepted the frame and acknowledged it. -/
def Acks (s : State) (h : FrameHead) (w : Twin) : Prop := Taken s h w ∧ ⟨0, .ack h.fseq⟩ ∈ w.sent

theorem taken_heard (s : State) (h : FrameHead) (x : Nat × Nat × Nat) : Taken s h (heard s h x).twin := ⟨rfl, rfl⟩

/-- The acknowledgement sent after a frame's effect. -/
def ackSent (h : FrameHead) (u : State) : State := sendFrame u (.ack h.fseq)

theorem Taken.acks {s : State} {h : FrameHead} {u : State} (hu : Taken s h u.twin) : Acks s h (ackSent h u).twin :=
  ⟨hu, List.mem_append_right _ (List.mem_singleton_self _)⟩

section Accepted

variable {s : State} {h : FrameHead} {cyc : Nat} (hcyc : cyc ≤ s.now) (hacc : accepts s h = true)
include hcyc hacc

/-- An accepted frame acts on the state that has heard it. -/
theorem receive_unacked (f : State → State) : ∃ x, receive s h cyc false f = f (heard s h x) := by
  obtain ⟨x, hx⟩ := twinTime_past hcyc
  have hgood : accepts (counted x s) h = true := hacc
  exact ⟨x, by simp only [receive, hx, hgood, Bool.not_true, Bool.false_eq_true, if_false]; rfl⟩

/-- A frame that asks for it is acknowledged. -/
theorem receive_acked (f : State → State) : ∃ x, receive s h cyc true f = ackSent h (f (heard s h x)) := by
  obtain ⟨x, hx⟩ := twinTime_past hcyc
  have hgood : accepts (counted x s) h = true := hacc
  exact ⟨x, by simp only [receive, hx, hgood, Bool.not_true, Bool.false_eq_true, if_false, if_true]; rfl⟩

end Accepted

/-- A frame that is not accepted is discarded (R386). -/
theorem frameFrontier_discarded {s : State} {h : FrameHead} {cyc : Nat} (hcyc : cyc ≤ s.now) (hrej : accepts s h = false) (es : List SjEntry) :
    ∃ t, exec (.frameFrontier h es cyc) s = .next t ∧ t.twin.rxSeq = s.twin.rxSeq ∧ t.twin.frontier = s.twin.frontier := by
  have hexec : exec (.frameFrontier h es cyc) s = execFrameFrontier h es cyc s := rfl
  obtain ⟨x, hx⟩ := twinTime_past hcyc
  have hbad : accepts (counted x s) h = false := hrej
  refine ⟨counted x s, ?_, rfl, rfl⟩
  simp [hexec, execFrameFrontier, receive, hx, hbad]

/-! ## ACK (R386, R388) -/

/-- Every frame up to the FSEQ named acknowledged, and the records that they carried durable. -/
def ackCovered (n : Nat) (t : State) : State :=
  let gone := t.twin.unacked.filter (fun f => decide (f.fseq ≤ n))
  markDurable (updTwin t (fun x =>
    { x with
      lastFrame := some t.now, ackAt := if gone.isEmpty then x.ackAt else t.now
      unacked := x.unacked.filter (fun f => decide (n < f.fseq)) })) (fun j => (ackedJseqs gone).contains j)

theorem durable_ackCovered {n : Nat} {t : State} : ∀ r ∈ (ackCovered n t).jrnl.recs,
    r.jseq ∈ ackedJseqs (t.twin.unacked.filter (fun f => decide (f.fseq ≤ n))) → r.durable = true := by
  intro r hr hcovered
  obtain ⟨r0, -, rfl⟩ := List.mem_map.mp hr
  split at hcovered <;> simp_all

theorem cond_ackCovered (n : Nat) (t : State) : (ackCovered n t).cond = t.cond := by simp only [ackCovered, markDurable, updJrnl_cond, updTwin_cond]

theorem settleSyncEnd_covered {s : State} {f n : Nat} (hf : s.twin.syncEnd = some f) (hn : f ≤ n) :
    settleSyncEnd s n = setFlags (updTwin s (fun t => { t with syncEnd := none, partnerRole := .standby })) [(bTwinSolo, false)] := by
  simp [settleSyncEnd, hf, hn]

theorem handOver_settleSyncEnd (s : State) (n : Nat) : (settleSyncEnd s n).twin.handOver = s.twin.handOver := by
  unfold settleSyncEnd
  split
  · split <;> rfl
  · rfl

theorem settleHandOver_none {s : State} (h : s.twin.handOver = none) (n : Nat) : settleHandOver s n = s := by simp [settleHandOver, h]

theorem settleHandOver_covered {s : State} {f cid n : Nat} (h : s.twin.handOver = some (f, cid)) (hn : f ≤ n) :
    settleHandOver s n = handOverDone s cid := by simp [settleHandOver, h, hn]

/-- The chip that has handed over is STANDBY without ownership (R404). -/
theorem handOverDone_standby (s : State) (cid : Nat) : (handOverDone s cid).twin.role = .standby ∧ (handOverDone s cid).twin.own = false := by
  rw [handOverDone, twin_setRole, updPort_twin, updPort_twin]
  exact ⟨rfl, rfl⟩

theorem flag_twinSolo_cleared {s : State} (h : failedSet s = false) : flag (setFlags s [(bTwinSolo, false)]).cond bTwinSolo = false := by
  have hcond : (setFlags s [(bTwinSolo, false)]).cond = nextCond s.twin.en s.cond (withFlag s.cond bTwinSolo false) := rfl
  rw [hcond, flag_nextCond h]
  simp [flag_withFlag_false]

section Ack

variable {s : State} {cyc : Nat} (hcyc : cyc ≤ s.now) (hruns : twinRuns s = true) (hlanes : s.twin.lanes ≠ 0) (n : Nat)
include hcyc hruns hlanes

theorem exec_frameAck : ∃ x, exec (.frameAck true n cyc) s = if s.twin.role != .active then settled (ackCovered n (counted x s))
    else settled (settleHandOver (settleStand (settleSyncEnd (ackCovered n (counted x s)) n)) n) := by
  have hexec : exec (.frameAck true n cyc) s = execFrameAck true n cyc s := rfl
  obtain ⟨x, hx⟩ := twinTime_past hcyc
  have hon : (!twinRuns (counted x s) || (counted x s).twin.lanes == 0 || !true) = false := by
    have hr : twinRuns (counted x s) = true := hruns
    have hl : (counted x s).twin.lanes ≠ 0 := hlanes
    simp [hr, hl]
  refine ⟨x, ?_⟩
  rw [hexec, execFrameAck, hx]
  simp only [hon, Bool.false_eq_true, if_false]
  rfl

theorem ack_covers (hrole : s.twin.role ≠ .active) : ∃ t, exec (.frameAck true n cyc) s = .next t ∧
    t.twin.unacked = s.twin.unacked.filter (fun f => decide (n < f.fseq)) ∧
    ∀ r ∈ t.jrnl.recs, r.jseq ∈ ackedJseqs (s.twin.unacked.filter (fun f => decide (f.fseq ≤ n))) → r.durable = true := by
  obtain ⟨x, hx⟩ := exec_frameAck hcyc hruns hlanes n
  rw [if_pos (bne_iff_ne.mpr hrole)] at hx
  refine ⟨_, hx, congrArg Twin.unacked (endCycle_twin _), fun r hr => ?_⟩
  rw [endCycle_jrnl] at hr
  exact durable_ackCovered (t := counted x s) r hr

variable (hrole : s.twin.role = .active)
include hrole

theorem exec_frameAck_active : ∃ x, exec (.frameAck true n cyc) s =
    settled (settleHandOver (settleStand (settleSyncEnd (ackCovered n (counted x s)) n)) n) := by
  obtain ⟨x, hx⟩ := exec_frameAck hcyc hruns hlanes n
  exact ⟨x, by rw [hx, hrole]; rfl⟩

/-- The acknowledgement of SYNC_END makes the partner STANDBY (R400). -/
theorem ack_ends_sync {f : Nat} (hover : s.twin.handOver = none) (hf : s.twin.syncEnd = some f) (hn : f ≤ n) (hlive : failedSet s = false) :
    ∃ t, exec (.frameAck true n cyc) s = .next t ∧ t.twin.partnerRole = .standby ∧ flag t.cond bTwinSolo = false := by
  obtain ⟨x, hx⟩ := exec_frameAck_active hcyc hruns hlanes n hrole
  have hended := settleSyncEnd_covered (s := ackCovered n (counted x s)) hf hn
  rw [settleHandOver_none (by rw [twin_settleStand, handOver_settleSyncEnd]; exact hover), hended] at hx
  refine ⟨_, hx, ?_, ?_⟩
  · rw [endCycle_twin, twin_settleStand]
    rfl
  · rw [endCycle_cond, cond_of_rest (rest_settleStand (L := but .cond) rfl _) rfl]
    exact flag_twinSolo_cleared (by rwa [failedSet, updTwin_cond, cond_ackCovered, counted, updTwin_cond])

/-- The acknowledgement of HAND_OVER makes this chip the STANDBY (R404). -/
theorem ack_hands_over {f cid : Nat} (hover : s.twin.handOver = some (f, cid)) (hn : f ≤ n) :
    ∃ t, exec (.frameAck true n cyc) s = .next t ∧ t.twin.role = .standby ∧ t.twin.own = false := by
  obtain ⟨x, hx⟩ := exec_frameAck_active hcyc hruns hlanes n hrole
  rw [settleHandOver_covered (by rw [twin_settleStand, handOver_settleSyncEnd]; exact hover) hn] at hx
  refine ⟨_, hx, ?_⟩
  rw [endCycle_twin]
  exact handOverDone_standby ..

end Ack
/-! ## HEARTBEAT and FAILING (R381, R384, R390, R403) -/

/-- What an accepted HEARTBEAT leaves in the twin, whatever role it tells. -/
def beat (w : Twin) : Nat × Option Nat × Half × BitVec 6 × Dword × Nat × Nat :=
  (w.rxSeq, w.lastFrame, w.hbCond, w.hbPins, w.hbAet, w.hbCsn, w.hbJseq)

theorem twin_beginSyncing (s : State) : (beginSyncing s).twin = { (clearMirror s).twin with role := .syncing } := by
  rw [beginSyncing, twin_setRole, twin_forgetMedium]

theorem settlePairing_cases (s : State) : settlePairing s = beginSyncing s ∨ settlePairing s = s := ite_eq_or_eq ..

theorem beat_settlePairing (s : State) : beat (settlePairing s).twin = beat s.twin := by
  rcases settlePairing_cases s with h | h <;> rw [h]
  rw [twin_beginSyncing]
  rfl

theorem partnerRole_settlePairing (s : State) : (settlePairing s).twin.partnerRole = s.twin.partnerRole := by
  rcases settlePairing_cases s with h | h <;> rw [h]
  rw [twin_beginSyncing]
  rfl

/-- The active's state and journal sent to a partner that has become SYNCING (R400, parts 1 and 2). -/
def syncSent (s : State) : State :=
  let t := updTwin s (fun x => { x with partnerRole := .syncing })
  sendFrame ((syncPieces t).foldl (fun t p => sendFrame t (.syncPiece p (s.jrnl.nextSeq - 1))) t) (.journal s.jrnl.recs)

theorem offLink_syncSent (s : State) : offLink (syncSent s).twin = offLink { s.twin with partnerRole := .syncing } := by
  rw [syncSent, offLink_sendFrame]
  exact view_foldl (view := fun t => offLink t.twin) (fun t _ => offLink_sendFrame t _) _ _

theorem startSync_eq (s : State) : startSync s = updTwin (sendFrame (syncSent s) (.syncEnd (lastCsn s)))
    (fun x => { x with syncEnd := some (syncSent s).twin.txSeq, syncDone := 10000 }) := rfl

/-- Then SYNC_END, whose acknowledgement is waited for (R400, part 3). -/
theorem offLink_startSync (s : State) : ∃ n, offLink (startSync s).twin =
    offLink { s.twin with partnerRole := .syncing, syncEnd := some n, syncDone := 10000 } := by
  refine ⟨(syncSent s).twin.txSeq, ?_⟩
  rw [startSync_eq, updTwin_twin]
  exact congrArg (fun w : Twin => { w with syncEnd := some (syncSent s).twin.txSeq, syncDone := 10000 })
    ((offLink_sendFrame (syncSent s) (.syncEnd (lastCsn s))).trans (offLink_syncSent s))

theorem heardByActive_syncing {s : State} (hfenced : s.twin.partnerRole = .fenced) (hhold : s.twin.hold = false) (hrec : recordNames s = true) :
    ∃ n, offLink (heardByActive s .syncing).twin =
      offLink { s.twin with pairing := none, partnerRole := .syncing, syncEnd := some n, syncDone := 10000 } := by
  have hsync := offLink_startSync (updTwin s (fun x => { x with pairing := none }))
  have hbegins : (Role.syncing == .syncing && s.twin.partnerRole == .fenced && !s.twin.hold && recordNames s) = true := by
    rw [hfenced, hhold, hrec]
    rfl
  simp only [heardByActive, hbegins, if_true]
  split
  · rwa [offLink_performState]
  · exact hsync

theorem heardByActive_fenced {s : State} (h : s.twin.partnerRole ≠ .fenced) : heardByActive s .fenced = goAlone s := by
  simp [heardByActive, h]

theorem beat_goAlone (s : State) : beat (goAlone s).twin = beat s.twin := by
  rw [twin_goAlone]
  rfl

theorem beat_heardByActive (s : State) (role : Role) : beat (heardByActive s role).twin = beat s.twin := by
  by_cases hsync : (role == .syncing && s.twin.partnerRole == .fenced && !s.twin.hold && recordNames s) = true
  · simp only [Bool.and_eq_true, beq_iff_eq, Bool.not_eq_true'] at hsync
    obtain ⟨⟨⟨rfl, hfenced⟩, hhold⟩, hrec⟩ := hsync
    obtain ⟨n, hn⟩ := heardByActive_syncing hfenced hhold hrec
    exact field_of_offLink hn beat
  · simp only [heardByActive, hsync, Bool.false_eq_true, if_false]
    split
    exacts [beat_goAlone s, rfl]

/-- The content of a HEARTBEAT noted. -/
def heartbeatNoted (role : Role) (cond : Half) (pins : BitVec 6) (aet : Dword) (csn jseq : Nat) (u : State) : State :=
  updTwin u (fun x => { x with hbCond := cond, hbPins := pins, hbAet := aet, hbCsn := csn, hbJseq := jseq, peerOwn := role == .active })

/-- What the partner's role brings about. -/
def roleHeard (role : Role) (v : State) : State :=
  if v.twin.role == .active then heardByActive v role else settlePairing (updTwin v (fun x => { x with partnerRole := role }))

theorem beat_roleHeard (role : Role) (v : State) : beat (roleHeard role v).twin = beat v.twin := by
  unfold roleHeard
  split
  · exact beat_heardByActive v role
  · exact beat_settlePairing _

theorem roleHeard_active {v : State} (h : v.twin.role = .active) (role : Role) : roleHeard role v = heardByActive v role := by simp [roleHeard, h]

theorem partnerRole_roleHeard {v : State} (h : v.twin.role ≠ .active) (role : Role) : (roleHeard role v).twin.partnerRole = role := by
  rw [roleHeard, if_neg (by simpa using h), partnerRole_settlePairing]
  rfl

/-- What FAILING brings about: the active goes on alone. -/
def failingHeard (v : State) : State :=
  if v.twin.role == .active && v.twin.partnerRole != .fenced then raiseEvent (goAlone v) 8 2 (roleNum .active) 0 else v

theorem beat_failingHeard (v : State) : beat (failingHeard v).twin = beat v.twin := by
  unfold failingHeard
  split
  exacts [beat_goAlone v, rfl]

theorem partnerRole_failingHeard {v : State} (h : v.twin.role = .active) : (failingHeard v).twin.partnerRole = .fenced := by
  by_cases hp : v.twin.partnerRole = .fenced
  · simp [failingHeard, hp]
  · simp [failingHeard, h, hp, twin_goAlone]

section Accepted

variable {s : State} {h : FrameHead} {cyc : Nat} (hcyc : cyc ≤ s.now) (hacc : accepts s h = true)
include hcyc hacc

theorem exec_frameHeartbeat (role : Role) (cond : Half) (pins : BitVec 6) (aet : Dword) (csn jseq : Nat) :
    ∃ x, exec (.frameHeartbeat h role cond pins aet csn jseq cyc) s =
      settled (roleHeard role (heartbeatNoted role cond pins aet csn jseq (heard s h x))) := by
  obtain ⟨x, hx⟩ := receive_unacked hcyc hacc (fun u => roleHeard role (heartbeatNoted role cond pins aet csn jseq u))
  exact ⟨x, congrArg settled hx⟩

theorem heartbeat_accepted (role : Role) (cond : Half) (pins : BitVec 6) (aet : Dword) (csn jseq : Nat) :
    ∃ t, exec (.frameHeartbeat h role cond pins aet csn jseq cyc) s = .next t ∧ Taken s h t.twin ∧ t.twin.hbCond = cond ∧ t.twin.hbPins = pins ∧
      t.twin.hbAet = aet ∧ t.twin.hbCsn = csn ∧ t.twin.hbJseq = jseq ∧
      (s.twin.role ≠ .active → t.twin.partnerRole = role) ∧
      (s.twin.role = .active → role = .syncing → s.twin.partnerRole = .fenced → s.twin.hold = false → recordNames s = true →
        t.twin.partnerRole = .syncing ∧ t.twin.syncEnd.isSome = true) ∧
      (s.twin.role = .active → role = .fenced → s.twin.partnerRole ≠ .fenced → t.twin.partnerRole = .fenced ∧ t.twin.unacked = []) := by
  obtain ⟨x, hexec⟩ := exec_frameHeartbeat hcyc hacc role cond pins aet csn jseq
  let v := heartbeatNoted role cond pins aet csn jseq (heard s h x)
  have hbeat : beat (roleHeard role v).twin = (h.fseq, some s.now, cond, pins, aet, csn, jseq) := beat_roleHeard role v
  simp only [beat, Prod.mk.injEq] at hbeat
  obtain ⟨hseq, hlast, hcond, hpins, haet, hcsn, hjseq⟩ := hbeat
  refine ⟨_, hexec, ?_⟩
  rw [endCycle_twin]
  have hrole : v.twin.role = s.twin.role := by simp only [v, heartbeatNoted, heard, counted, updTwin_twin]
  have hpartner : v.twin.partnerRole = s.twin.partnerRole := by simp only [v, heartbeatNoted, heard, counted, updTwin_twin]
  have hnames : recordNames v = recordNames s := by simp only [recordNames, v, heartbeatNoted, heard, counted, updTwin_twin]
  have hheld : v.twin.hold = s.twin.hold := by simp only [v, heartbeatNoted, heard, counted, updTwin_twin]
  refine ⟨⟨hseq, hlast⟩, hcond, hpins, haet, hcsn, hjseq, fun h => partnerRole_roleHeard (hrole ▸ h) role, ?sync, ?fenced⟩
  case sync =>
    rintro hactive rfl hfenced hhold hrec
    obtain ⟨n, hn⟩ := heardByActive_syncing (hpartner.trans hfenced) (hheld.trans hhold) (hnames.trans hrec)
    rw [roleHeard_active (hrole.trans hactive)]
    exact ⟨field_of_offLink hn Twin.partnerRole, (congrArg Option.isSome (field_of_offLink hn Twin.syncEnd)).trans rfl⟩
  case fenced =>
    rintro hactive rfl hknown
    rw [roleHeard_active (hrole.trans hactive), heardByActive_fenced (hpartner ▸ hknown), twin_goAlone]
    exact ⟨rfl, rfl⟩

theorem failing_accepted (cond : Half) : ∃ t, exec (.frameFailing h cond cyc) s = .next t ∧ Taken s h t.twin ∧ t.twin.hbCond = cond ∧
    (s.twin.role = .active → t.twin.partnerRole = .fenced) := by
  obtain ⟨x, hx⟩ := receive_unacked hcyc hacc (fun u => failingHeard (updTwin u (fun x => { x with hbCond := cond })))
  refine ⟨_, congrArg settled hx, ?_⟩
  rw [endCycle_twin]
  have hbeat := beat_failingHeard (updTwin (heard s h x) (fun x => { x with hbCond := cond }))
  simp only [beat, Prod.mk.injEq] at hbeat
  obtain ⟨hseq, hlast, hcond, -⟩ := hbeat
  exact ⟨⟨hseq, hlast⟩, hcond, fun hrole => partnerRole_failingHeard (by simpa [heard, counted] using hrole)⟩

end Accepted

/-! ## Mirrored admissions, records, effects (R388, R389) -/

/-- What a change to a mirrored queue or feature leaves of the copy's twin. -/
def copyKept (w : Twin) : Nat × Option Nat × Nat × List AdmSlot := (w.rxSeq, w.lastFrame, w.capture, w.slots)

/-- The reception alone. -/
def reception (w : Twin) : Nat × Option Nat := (w.rxSeq, w.lastFrame)

theorem taken_iff (s : State) (h : FrameHead) (w : Twin) : Taken s h w ↔ reception w = (h.fseq, some s.now) := by simp [Taken, reception]

theorem taken_of_reception {s : State} {h : FrameHead} {x : Nat × Nat × Nat} {w : Twin} (hw : reception w = reception (heard s h x).twin) : Taken s h w :=
  (taken_iff s h w).mpr (hw.trans rfl)

theorem reception_of_copyKept {w v : Twin} (h : copyKept w = copyKept v) : reception w = reception v :=
  congrArg (fun x : Nat × Option Nat × Nat × List AdmSlot => (x.1, x.2.1)) h

theorem holdsCopy_heard (s : State) (h : FrameHead) (x : Nat × Nat × Nat) : holdsCopy (heard s h x) = holdsCopy s := by
  simp only [holdsCopy, heard, counted, updTwin_twin]

theorem slots_heard (s : State) (h : FrameHead) (x : Nat × Nat × Nat) : (heard s h x).twin.slots = s.twin.slots := by
  simp only [heard, counted, updTwin_twin]

theorem reception_mirrorSlot (s : State) (a : AdmSlot) : reception (mirrorSlot s a).twin = reception s.twin := by
  simp only [mirrorSlot, updMirrorQueue, updTwin_twin, reception]

theorem slot_mirrored (s : State) (a : AdmSlot) : a ∈ (mirrorSlot s a).twin.slots ∧ a.csn ≤ (mirrorSlot s a).twin.hbCsn := by
  simp only [mirrorSlot, updMirrorQueue, updTwin_twin]
  exact ⟨List.mem_append_right _ (List.mem_singleton_self _), Nat.le_max_right ..⟩

/-- What a record tells beside the map leaves the records and the next JSEQ. -/
theorem learnRecord_recs (s : State) (r : StagedRec) :
    (learnRecord s r).jrnl.recs = s.jrnl.recs ∧ (learnRecord s r).jrnl.nextSeq = s.jrnl.nextSeq := by
  unfold learnRecord
  split
  case h_3 =>
    have hjrnl := jrnl_of_rest (rest_applyBayRecs (L := but .jrnl) rfl s [r]) rfl
    exact ⟨congrArg Jrnl.recs hjrnl, congrArg Jrnl.nextSeq hjrnl⟩
  all_goals exact ⟨rfl, rfl⟩

theorem reception_learnRecord (s : State) (r : StagedRec) : reception (learnRecord s r).twin = reception s.twin := by
  unfold learnRecord
  split
  case h_3 => rw [twin_of_rest (rest_applyBayRecs (L := but .twin) rfl s [r]) rfl]
  all_goals rfl

/-- A record received kept, and applied to the copy unless a piece already holds it. -/
def recordKept (s : State) (r : StagedRec) : State :=
  let t := updJrnl s (fun j => { j with recs := j.recs.filter (fun x => x.jseq != r.jseq) ++ [{ r with durable := true }], nextSeq := Nat.max j.nextSeq (r.jseq + 1) })
  if s.twin.capture < r.jseq then updMap t (fun i => applyRec i r.jseq r.body) else t

theorem jrnl_recordKept (s : State) (r : StagedRec) : (recordKept s r).jrnl =
    { s.jrnl with recs := s.jrnl.recs.filter (fun x => x.jseq != r.jseq) ++ [{ r with durable := true }], nextSeq := Nat.max s.jrnl.nextSeq (r.jseq + 1) } := by
  unfold recordKept
  dsimp only
  split <;> rfl

theorem twin_recordKept (s : State) (r : StagedRec) : (recordKept s r).twin = s.twin := by
  unfold recordKept
  dsimp only
  split <;> rfl

theorem map_recordKept {s : State} {r : StagedRec} (h : s.twin.capture < r.jseq) : (recordKept s r).map = applyRec s.map r.jseq r.body := by
  simp [recordKept, h]

/-- Beside its command's slot, a record mirrored is the record kept and learnt. -/
theorem mirrorRecord_marks (s : State) (r : StagedRec) :
    mirrorRecord s r = learnRecord (recordKept s r) r ∨
      ∃ csn r0 r1, mirrorRecord s r = markPerformed (learnRecord (recordKept s r) r) csn 0 r0 r1 := by
  have heq : mirrorRecord s r = match recordCsn r.body with
      | some csn =>
        let t := learnRecord (recordKept s r) r
        let a := t.twin.slots.find? (fun a => a.csn == csn)
        markPerformed t csn 0 ((a.map (·.result0)).getD 0) ((a.map (·.result1)).getD 0)
      | none => learnRecord (recordKept s r) r := by rfl
  rw [heq]
  split
  · exact .inr ⟨_, _, _, rfl⟩
  · exact .inl rfl

theorem mirrorRecord_rest (s : State) (r : StagedRec) : rest [.twin] (mirrorRecord s r) = rest [.twin] (learnRecord (recordKept s r) r) := by
  rcases mirrorRecord_marks s r with h | ⟨csn, r0, r1, h⟩ <;> rw [h]
  exact rest_markPerformed rfl ..

theorem reception_markPerformed (s : State) (csn : Nat) (status : Half) (r0 r1 : Word) :
    reception (markPerformed s csn status r0 r1).twin = reception s.twin := rfl

theorem reception_mirrorRecord (s : State) (r : StagedRec) : reception (mirrorRecord s r).twin = reception s.twin := by
  have hlearnt : reception (learnRecord (recordKept s r) r).twin = reception s.twin := by rw [reception_learnRecord, twin_recordKept]
  rcases mirrorRecord_marks s r with h | ⟨csn, r0, r1, h⟩ <;> rw [h]
  · exact hlearnt
  · exact (reception_markPerformed ..).trans hlearnt

/-- A record mirrored is kept as durable, below the next JSEQ, and applied to the map of the copy. -/
theorem record_mirrored (s : State) (r : StagedRec) : r.jseq < (mirrorRecord s r).jrnl.nextSeq ∧
    (∃ x ∈ (mirrorRecord s r).jrnl.recs, x.jseq = r.jseq ∧ x.body = r.body ∧ x.durable = true) ∧
    (s.twin.capture < r.jseq → (mirrorRecord s r).map = applyRec s.map r.jseq r.body) := by
  obtain ⟨hrecs, hnext⟩ := learnRecord_recs (recordKept s r) r
  have hjrnl := jrnl_of_rest (mirrorRecord_rest s r) rfl
  refine ⟨?_, ⟨{ r with durable := true }, ?_, rfl, rfl, rfl⟩, fun h => ?_⟩
  · rw [hjrnl, hnext, jrnl_recordKept]
    exact Nat.lt_of_lt_of_le (Nat.lt_succ_self _) (Nat.le_max_right ..)
  · rw [hjrnl, hrecs, jrnl_recordKept]
    exact List.mem_append_right _ (List.mem_singleton_self _)
  · rw [map_of_rest (mirrorRecord_rest s r) rfl, map_of_rest (rest_learnRecord (L := but .map) rfl ..) rfl, map_recordKept h]

theorem copyKept_updMirrorQueue (s : State) (p : Port) (q : Nat) (f : Queue → Queue) : copyKept (updMirrorQueue s p q f).twin = copyKept s.twin := rfl

theorem copyKept_putMirrorQueue (s : State) (i : QueueImage) : copyKept (putMirrorQueue s i).twin = copyKept s.twin := rfl

theorem twin_clearLog (s : State) (p : Port) : (clearLog s p).twin = s.twin := updPort_twin ..

theorem twin_applyDeviceFeature (s : State) (f : Nat) (w : Nat → Nat) : (applyDeviceFeature s f w).twin = s.twin :=
  twin_of_rest (rest_applyDeviceFeature (L := but .twin) rfl s f w) rfl

/-- A feature told, saved or cleared by its MODE. -/
def featureSaved (s : State) (x : Nat × List Word) : State :=
  let mode := (x.2.getD 3 0).toNat
  if mode == 1 then updKf s (fun k => { k with saved := putSaved k.saved (x.1 / 256) (x.1 % 256) (some (x.2.take 3)) })
  else if mode == 2 then updKf s (fun k => { k with saved := putSaved k.saved (x.1 / 256) (x.1 % 256) none }) else s

theorem twin_featureSaved (s : State) (x : Nat × List Word) : (featureSaved s x).twin = s.twin := by
  unfold featureSaved
  dsimp only
  split
  · rfl
  · split <;> rfl

theorem mirrorFeature_eq (s : State) (x : Nat × List Word) : mirrorFeature s x =
    let w (n : Nat) : Nat := (x.2.getD n 0).toNat
    if (x.2.getD 3 0).toNat == 2 then featureSaved s x
    else if x.1 / 256 == 0 then applyDeviceFeature (featureSaved s x) (x.1 % 256) w
    else if x.1 % 256 == 6 then
      updMirrorQueue (featureSaved s x) (if x.1 / 256 == 2 then .b else .a) (bits (w 0) 13 0) (fun k =>
        { k with coalCount := bits (w 1) 7 0, coalTime := bits (w 1) 23 8 })
    else updTwin (featureSaved s x) (fun y => { y with features := y.features.filter (fun z => z.1 != x.1) ++ [x] }) := rfl

theorem copyKept_mirrorFeature (s : State) (x : Nat × List Word) : copyKept (mirrorFeature s x).twin = copyKept s.twin := by
  have hsaved : copyKept (featureSaved s x).twin = copyKept s.twin := congrArg copyKept (twin_featureSaved s x)
  rw [mirrorFeature_eq]
  dsimp only
  split
  · exact hsaved
  · split
    · rwa [twin_applyDeviceFeature]
    · split
      · exact (copyKept_updMirrorQueue ..).trans hsaved
      · exact hsaved

/-- What a STATE frame changes beside the slot of its command. -/
def stateChanged (s : State) (r : StateRef) : State :=
  let t := match r.feature with
    | some x => mirrorFeature s x
    | none => s
  let t := match r.queue with
    | some i => putMirrorQueue t i
    | none => t
  match r.log with
  | some p => clearLog t p
  | none => t

theorem copyKept_stateChanged (s : State) (r : StateRef) : copyKept (stateChanged s r).twin = copyKept s.twin := by
  unfold stateChanged
  cases r.feature <;> cases r.queue <;> cases r.log <;>
    simp only [twin_clearLog, copyKept_putMirrorQueue, copyKept_mirrorFeature]

theorem mirrorState_performs {r : StateRef} (h : r.kind ≠ 5) (s : State) :
    mirrorState s r = markPerformed (stateChanged s r) r.csn r.status r.result0 r.result1 := by
  have heq : mirrorState s r = if r.kind == 5 then _ else markPerformed (stateChanged s r) r.csn r.status r.result0 r.result1 := rfl
  rw [heq, if_neg (by simpa using h)]

/-- The slot of the command that a STATE frame names is performed with its status and results. -/
theorem slot_performed {r : StateRef} (h : r.kind ≠ 5) (s : State) : ∀ a ∈ s.twin.slots, a.csn = r.csn →
    { a with performed := true, status := r.status, result0 := r.result0, result1 := r.result1 } ∈ (mirrorState s r).twin.slots := by
  intro a ha hcsn
  have hslots : (stateChanged s r).twin.slots = s.twin.slots := congrArg (fun x => x.2.2.2) (copyKept_stateChanged s r)
  rw [mirrorState_performs h, markPerformed, updTwin_twin, hslots]
  exact List.mem_map.mpr ⟨a, ha, if_pos (beq_iff_eq.mpr hcsn)⟩

theorem reception_mirrorState {r : StateRef} (h : r.kind ≠ 5) (s : State) : reception (mirrorState s r).twin = reception s.twin := by
  rw [mirrorState_performs h]
  exact (reception_markPerformed ..).trans (reception_of_copyKept (copyKept_stateChanged s r))

theorem reception_mirrorPosted (s : State) (e : PostedRef) : reception (mirrorPosted s e).twin = reception s.twin := rfl

/-- The slot of a completion posted is free. -/
theorem slot_freed {e : PostedRef} (h : e.csn ≠ 0) (s : State) : ∀ a ∈ (mirrorPosted s e).twin.slots, a.csn ≠ e.csn := by
  intro a ha
  have hslots : (mirrorPosted s e).twin.slots = s.twin.slots.filter (fun a => a.csn != e.csn || e.csn == 0) := rfl
  rw [hslots] at ha
  simpa [h] using (List.mem_filter.mp ha).2

theorem reception_mirrorBell (s : State) (d : DoorbellRef) : reception (mirrorBell s d).twin = reception s.twin := rfl

/-- A CQ_HEAD told is that of the mirrored queue. -/
theorem bell_mirrored {d : DoorbellRef} (h : d.isCqHead = true) (s : State) :
    ∀ x ∈ (mirrorBell s d).twin.queues, x.1 = d.port → x.2.qid = d.queue → x.2.cqHead = d.value := by
  intro x hx hport hqueue
  rw [mirrorBell, updMirrorQueue, updTwin_twin] at hx
  obtain ⟨y, -, rfl⟩ := List.mem_map.mp hx
  by_cases hy : (y.1 == d.port && y.2.qid == d.queue) = true
  · simp [hy, h]
  · rw [if_neg hy] at hport hqueue
    simp [hport, hqueue] at hy

theorem unpaired_unmirrored (s : State) : reception (unpaired s).twin = reception s.twin ∧ (unpaired s).twin.pairRec = none ∧
    (holdsCopy s = true → (unpaired s).twin.role = .fenced) := by
  have hcopy : holdsCopy (updTwin s (fun x => { x with pairRec := none, greeted := false })) = holdsCopy s := by simp only [holdsCopy, updTwin_twin]
  unfold unpaired
  dsimp only
  rw [hcopy]
  split
  case isTrue => rw [twin_setRole]; exact ⟨rfl, rfl, fun _ => rfl⟩
  case isFalse h => exact ⟨rfl, rfl, fun hc => absurd hc h⟩

section Accepted

variable {s : State} {h : FrameHead} {cyc : Nat} (hcyc : cyc ≤ s.now) (hacc : accepts s h = true)
include hcyc hacc

theorem unpair_accepted {r : StateRef} (hr : r.unpair = true) : ∃ t, exec (.frameState h r cyc) s = .next t ∧ Acks s h t.twin ∧ t.twin.pairRec = none ∧
    (holdsCopy s = true → t.twin.role = .fenced) := by
  obtain ⟨x, hx⟩ := receive_acked hcyc hacc (fun t => if r.unpair then unpaired t else if holdsCopy t then mirrorState t r else t)
  obtain ⟨htaken, hrec, hrole⟩ := unpaired_unmirrored (heard s h x)
  refine ⟨_, congrArg settled hx, ?_⟩
  rw [endCycle_twin, if_pos hr]
  exact ⟨(taken_of_reception htaken).acks, hrec, fun hc => hrole ((holdsCopy_heard s h x).trans hc)⟩

variable (hcopy : holdsCopy s = true)
include hcopy

theorem admit_accepted (l : List AdmSlot) (a : AdmSlot) :
    ∃ t, exec (.frameAdmit h (l ++ [a]) cyc) s = .next t ∧ Acks s h t.twin ∧ a ∈ t.twin.slots ∧ a.csn ≤ t.twin.hbCsn := by
  obtain ⟨x, hx⟩ := receive_acked hcyc hacc (fun t => if holdsCopy t then (l ++ [a]).foldl mirrorSlot t else t)
  rw [holdsCopy_heard, if_pos hcopy] at hx
  obtain ⟨hmem, hle⟩ := slot_mirrored (l.foldl mirrorSlot (heard s h x)) a
  have htaken := taken_of_reception (view_foldl (view := fun t => reception t.twin) reception_mirrorSlot (l ++ [a]) (heard s h x))
  rw [List.foldl_concat] at hx htaken
  exact ⟨_, congrArg Host.Outcome.next hx, htaken.acks, hmem, hle⟩

theorem journal_accepted (l : List StagedRec) (r : StagedRec) :
    ∃ t, exec (.frameJournal h (l ++ [r]) cyc) s = .next t ∧ Acks s h t.twin ∧ r.jseq < t.jrnl.nextSeq ∧
      (∃ x ∈ t.jrnl.recs, x.jseq = r.jseq ∧ x.body = r.body ∧ x.durable = true) ∧
      (l = [] → s.twin.capture < r.jseq → t.map = applyRec s.map r.jseq r.body) := by
  obtain ⟨x, hx⟩ := receive_acked hcyc hacc (fun t => if holdsCopy t then (l ++ [r]).foldl mirrorRecord t else t)
  rw [holdsCopy_heard, if_pos hcopy] at hx
  obtain ⟨hnext, hrec, hmap⟩ := record_mirrored (l.foldl mirrorRecord (heard s h x)) r
  have htaken := taken_of_reception (view_foldl (view := fun t => reception t.twin) reception_mirrorRecord (l ++ [r]) (heard s h x))
  rw [List.foldl_concat] at hx htaken
  refine ⟨_, congrArg Host.Outcome.next hx, htaken.acks, hnext, hrec, ?_⟩
  rintro rfl hcapture
  exact hmap hcapture

theorem state_accepted {r : StateRef} (hr : r.unpair = false) (hkind : r.kind ≠ 5) : ∃ t, exec (.frameState h r cyc) s = .next t ∧ Acks s h t.twin ∧
    ∀ a ∈ s.twin.slots, a.csn = r.csn →
      { a with performed := true, status := r.status, result0 := r.result0, result1 := r.result1 } ∈ t.twin.slots := by
  obtain ⟨x, hx⟩ := receive_acked hcyc hacc (fun t => if r.unpair then unpaired t else if holdsCopy t then mirrorState t r else t)
  have hslots := slot_performed hkind (heard s h x)
  rw [slots_heard] at hslots
  refine ⟨_, congrArg settled hx, ?_⟩
  rw [endCycle_twin, hr, holdsCopy_heard, hcopy]
  exact ⟨(taken_of_reception (reception_mirrorState hkind _)).acks, hslots⟩

theorem complete_accepted (l : List PostedRef) {e : PostedRef} (he : e.csn ≠ 0) :
    ∃ t, exec (.frameComplete h (l ++ [e]) cyc) s = .next t ∧ Taken s h t.twin ∧ ∀ a ∈ t.twin.slots, a.csn ≠ e.csn := by
  obtain ⟨x, hx⟩ := receive_unacked hcyc hacc (fun t => if holdsCopy t then (l ++ [e]).foldl mirrorPosted t else t)
  rw [holdsCopy_heard, if_pos hcopy] at hx
  have htaken := taken_of_reception (view_foldl (view := fun t => reception t.twin) reception_mirrorPosted (l ++ [e]) (heard s h x))
  rw [List.foldl_concat] at hx htaken
  exact ⟨_, congrArg Host.Outcome.next hx, htaken, slot_freed he _⟩

theorem doorbell_accepted (l : List DoorbellRef) {d : DoorbellRef} (hd : d.isCqHead = true) :
    ∃ t, exec (.frameDoorbell h (l ++ [d]) cyc) s = .next t ∧ Taken s h t.twin ∧
      ∀ x ∈ t.twin.queues, x.1 = d.port → x.2.qid = d.queue → x.2.cqHead = d.value := by
  obtain ⟨x, hx⟩ := receive_unacked hcyc hacc (fun t => if holdsCopy t then (l ++ [d]).foldl mirrorBell t else t)
  rw [holdsCopy_heard, if_pos hcopy] at hx
  have htaken := taken_of_reception (view_foldl (view := fun t => reception t.twin) reception_mirrorBell (l ++ [d]) (heard s h x))
  rw [List.foldl_concat] at hx htaken
  exact ⟨_, congrArg Host.Outcome.next hx, htaken, bell_mirrored hd _⟩

theorem frontier_accepted (es : List SjEntry) :
    ∃ t, exec (.frameFrontier h es cyc) s = .next t ∧ Acks s h t.twin ∧ t.twin.frontier = es := by
  obtain ⟨x, hx⟩ := receive_acked hcyc hacc (fun t => if holdsCopy t then updTwin t (fun x => { x with frontier := es }) else t)
  rw [holdsCopy_heard, if_pos hcopy] at hx
  exact ⟨_, congrArg Host.Outcome.next hx, Taken.acks ⟨rfl, rfl⟩, rfl⟩

end Accepted

/-! ## STOP, HAND_OVER, SYNC_PIECE, SYNC_END (R400, R402, R404) -/

theorem role_heard (s : State) (h : FrameHead) (x : Nat × Nat × Nat) : (heard s h x).twin.role = s.twin.role := by
  simp only [heard, counted, updTwin_twin]

/-- A piece put in place leaves the reception, and the JSEQ up to which pieces hold the records. -/
theorem reception_applyPiece (s : State) (p : SyncPiece) :
    reception (applyPiece s p).twin = reception s.twin ∧ (applyPiece s p).twin.capture = s.twin.capture := by
  have hof : ∀ t : State, copyKept t.twin = copyKept s.twin → reception t.twin = reception s.twin ∧ t.twin.capture = s.twin.capture := fun t ht =>
    ⟨reception_of_copyKept ht, congrArg (fun x => x.2.2.1) ht⟩
  cases p with
  | queues qs => exact hof _ ((view_foldl (view := fun t => copyKept t.twin) copyKept_putMirrorQueue qs _).trans rfl)
  | features fs => exact hof _ (view_foldl (view := fun t => copyKept t.twin) copyKept_mirrorFeature fs s)
  | log q l => exact hof _ (congrArg copyKept (updPort_twin ..))
  | slots => exact ⟨rfl, rfl⟩
  | namespaces => exact ⟨rfl, rfl⟩
  | directory => exact ⟨rfl, rfl⟩
  | blockTable => exact ⟨rfl, rfl⟩
  | directoryRoot => exact ⟨rfl, rfl⟩
  | lostLbas => exact ⟨rfl, rfl⟩
  | sets => exact ⟨rfl, rfl⟩

/-- Where a piece's content stands in the copy. -/
theorem piece_in_place (s : State) (p : SyncPiece) : let t := applyPiece s p
    (∀ x, p = .namespaces x → t.map.nss = x) ∧ (∀ x, p = .directory x → t.map.segs = x) ∧ (∀ x, p = .blockTable x → t.map.blocks = x) ∧
    (∀ x, p = .lostLbas x → t.map.lost = x) ∧ (∀ x, p = .sets x → t.map.sets = x) ∧ (∀ x, p = .slots x → t.twin.slots = x) ∧
    ∀ q x, p = .log q x → (portOf t q).res = x := by
  dsimp only
  refine ⟨?_, ?_, ?_, ?_, ?_, ?_, ?_⟩
  case refine_7 =>
    rintro q x rfl
    exact congrArg PortSt.res (portOf_updPort s q _)
  all_goals
    rintro x rfl
    rfl

theorem portOf_ackSent (h : FrameHead) (u : State) (q : Port) : portOf (ackSent h u) q = portOf u q := by cases q <;> rfl

section Accepted

variable {s : State} {h : FrameHead} {cyc : Nat} (hcyc : cyc ≤ s.now) (hacc : accepts s h = true)
include hcyc hacc

theorem stop_accepted (hrole : s.twin.role = .standby) (r : StopRec) :
    ∃ t, exec (.frameStop h r cyc) s = .next t ∧ Acks s h t.twin ∧ t.twin.peerStop = some r ∧ t.jrnl.stops = r :: s.jrnl.stops := by
  obtain ⟨x, hx⟩ := receive_acked hcyc hacc (fun t => if t.twin.role != .standby then t else keepStop (updTwin t (fun x => { x with peerStop := some r })) r)
  rw [role_heard, hrole, if_neg (by decide)] at hx
  exact ⟨_, congrArg Host.Outcome.next hx, Taken.acks ⟨rfl, rfl⟩, rfl, rfl⟩

theorem handOver_accepted (hrole : s.twin.role = .standby) (sets : List (Nat × Nat)) :
    ∃ t, exec (.frameHandOver h sets cyc) s = .next t ∧ Acks s h t.twin ∧ t.twin.handOverIn = true ∧ t.twin.handOverSets = sets := by
  obtain ⟨x, hx⟩ := receive_acked hcyc hacc (fun t =>
    if t.twin.role == .standby then updTwin t (fun x => { x with handOverIn := true, handOverSets := sets }) else t)
  rw [role_heard, hrole, if_pos (by decide)] at hx
  exact ⟨_, congrArg Host.Outcome.next hx, Taken.acks ⟨rfl, rfl⟩, rfl, rfl⟩

theorem syncPiece_accepted (hrole : s.twin.role = .syncing) (p : SyncPiece) (n : Nat) :
    ∃ t, exec (.frameSyncPiece h p n cyc) s = .next t ∧ Acks s h t.twin ∧ t.twin.capture = Nat.max s.twin.capture n ∧
      (∀ x, p = .namespaces x → t.map.nss = x) ∧ (∀ x, p = .directory x → t.map.segs = x) ∧ (∀ x, p = .blockTable x → t.map.blocks = x) ∧
      (∀ x, p = .lostLbas x → t.map.lost = x) ∧ (∀ x, p = .sets x → t.map.sets = x) ∧ (∀ x, p = .slots x → t.twin.slots = x) ∧
      ∀ q x, p = .log q x → (portOf t q).res = x := by
  obtain ⟨x, hx⟩ := receive_acked hcyc hacc (fun t =>
    if t.twin.role == .syncing then updTwin (applyPiece t p) (fun x => { x with capture := Nat.max x.capture n }) else t)
  rw [role_heard, hrole, if_pos (by decide)] at hx
  obtain ⟨hreception, hcapture⟩ := reception_applyPiece (heard s h x) p
  obtain ⟨hnss, hsegs, hblocks, hlost, hsets, hslots, hlog⟩ := piece_in_place (heard s h x) p
  refine ⟨_, congrArg Host.Outcome.next hx, (taken_of_reception hreception).acks, ?_, hnss, hsegs, hblocks, hlost, hsets, hslots, fun q l hp => ?_⟩
  · exact congrArg (fun m => Nat.max m n) (hcapture.trans rfl)
  · rw [portOf_ackSent]
    cases q <;> exact hlog _ l hp

theorem syncEnd_accepted (hrole : s.twin.role = .syncing) (n : Nat) :
    ∃ t, exec (.frameSyncEnd h n cyc) s = .next t ∧ Acks s h t.twin ∧ t.twin.role = .standby ∧ t.twin.hbCsn = Nat.max s.twin.hbCsn n := by
  obtain ⟨x, hx⟩ := receive_acked hcyc hacc (fun t => if t.twin.role == .syncing then setRole (completeCopy t n) .standby else t)
  rw [role_heard, hrole, if_pos (by decide)] at hx
  have htwin : (setRole (completeCopy (heard s h x) n) .standby).twin =
      { (heard s h x).twin with hbCsn := Nat.max s.twin.hbCsn n, syncDone := 10000, role := .standby } := by rw [twin_setRole]; rfl
  have htaken : Taken s h (setRole (completeCopy (heard s h x) n) .standby).twin := by rw [htwin]; exact taken_heard s h x
  refine ⟨_, congrArg settled hx, ?_⟩
  rw [endCycle_twin]
  exact ⟨htaken.acks, congrArg Twin.role htwin, congrArg Twin.hbCsn htwin⟩

end Accepted

/-! ## PAIR_HELLO, PAIR_KEY, PAIR_CONFIRM (R397, R398) -/

/-- What of the twin tells two chips apart to a pairing. -/
def badge (w : Twin) : Bool × Bool × Bool × Option PairHello := (w.en, w.own, w.seat, w.peer)

theorem matchedProfiles_congr {s t : State} (h : t.media = s.media) : matchedProfiles t = matchedProfiles s := by rw [matchedProfiles, matchedProfiles, h]

theorem agreedProfiles_congr {s t : State} (h : t.media = s.media) (image : List Byte) (hash : BitVec 384) :
    agreedProfiles t image hash = agreedProfiles s image hash := by rw [agreedProfiles, agreedProfiles, matchedProfiles_congr h]

section Badge

variable {s t : State} (hmedia : t.media = s.media) (hkf : t.kf = s.kf) (hbadge : badge t.twin = badge s.twin)
include hmedia hkf hbadge

theorem ownHello_congr : ownHello t = ownHello s := by
  simp only [badge, Prod.mk.injEq] at hbadge
  obtain ⟨hen, hown, hseat, hpeer⟩ := hbadge
  have howner : isOwner t = isOwner s := by rw [isOwner, isOwner, hen, hown]
  have hprofiles : pairProfiles t = pairProfiles s := by
    rw [pairProfiles, pairProfiles, howner, matchedProfiles_congr hmedia, hpeer, hkf, funext (agreedProfiles_congr hmedia _)]
  rw [ownHello, ownHello, hprofiles, hkf, hseat]

theorem pairRefusal_congr (x : PairHello) : pairRefusal t x = pairRefusal s x := by
  rw [pairRefusal, pairRefusal, ownHello_congr hmedia hkf hbadge, hkf, agreedProfiles_congr hmedia]

theorem transcript_congr (n : Nat) (point : List Byte) : transcript t n point = transcript s n point := by
  have hhello := ownHello_congr hmedia hkf hbadge
  simp only [badge, Prod.mk.injEq] at hbadge
  obtain ⟨-, -, hseat, hpeer⟩ := hbadge
  simp only [transcript, hhello, hseat, hpeer]

end Badge

theorem transcript_heard (s : State) (h : FrameHead) (x : Nat × Nat × Nat) (n : Nat) (point : List Byte) :
    transcript (heard s h x) n point = transcript s n point := transcript_congr rfl rfl rfl n point

theorem pairInfo_congr {s t : State} (hbadge : badge t.twin = badge s.twin) : pairInfo t = pairInfo s := by
  simp only [badge, Prod.mk.injEq] at hbadge
  obtain ⟨-, -, hseat, hpeer⟩ := hbadge
  simp only [pairInfo, hseat, hpeer]

/-- What a PAIR_HELLO brings about. -/
def helloHeard (hello : PairHello) (t : State) : State :=
  let reason := pairRefusal t hello
  let t := updTwin t (fun x => { x with peer := some hello, pairReject := reason, greeted := reason == 0 })
  if reason != 0 then raiseEvent t 8 4 (roleNum t.twin.role) reason
  else settlePairing (if t.twin.peerOwn then updTwin t (fun x => { x with partnerRole := .active }) else t)

/-- A PAIR_HELLO notes the partner and whether pairing is refused. -/
def helloNoted (w : Twin) : Nat × Option Nat × List SentFrame × Option PairHello × Nat := (w.rxSeq, w.lastFrame, w.sent, w.peer, w.pairReject)

theorem helloNoted_settlePairing (s : State) : helloNoted (settlePairing s).twin = helloNoted s.twin := by
  rcases settlePairing_cases s with h | h <;> rw [h]
  rw [twin_beginSyncing]
  rfl

theorem helloNoted_helloHeard (hello : PairHello) (t : State) :
    helloNoted (helloHeard hello t).twin = (t.twin.rxSeq, t.twin.lastFrame, t.twin.sent, some hello, pairRefusal t hello) := by
  unfold helloHeard
  dsimp only
  split
  · rfl
  · rw [helloNoted_settlePairing]
    split <;> rfl

/-- A FENCED partner that the owner's hello finds named by its pair record begins SYNCING (R397). -/
theorem helloHeard_syncs {hello : PairHello} {t : State} {k : BitVec 256} (hgood : pairRefusal t hello = 0) (hrole : t.twin.role = .fenced)
    (hhold : t.twin.hold = false) (howner : t.twin.peerOwn = true) (hrec : t.twin.pairRec = some (hello.serial, k)) :
    (helloHeard hello t).twin.role = .syncing := by
  have hbegins : helloHeard hello t = beginSyncing (updTwin (updTwin t (fun x => { x with peer := some hello, pairReject := 0, greeted := true }))
      (fun x => { x with partnerRole := .active })) := by
    simp [helloHeard, hgood, howner, settlePairing, hrole, hhold, recordNames, hrec]
  rw [hbegins, twin_beginSyncing]

/-- What a PAIR_KEY brings about. -/
def keyHeard (point : List Byte) (t : State) : State :=
  let w := t.twin
  if w.hold || w.peer.isNone || w.pairReject != 0 then t
  else
    match w.role, w.pairing with
    | .active, some (n, _, cid) =>
      sendFrame (updTwin t (fun x => { x with pairing := some (n, some point, cid) })) (.pairConfirm (Config.pairConfirm n point (transcript t n point)))
    | .fenced, _ =>
      let n := w.keysDrawn
      let t := sendPairKey t (some point) none
      sendFrame t (.pairConfirm (Config.pairConfirm n point (transcript t n point)))
    | _, _ => t

theorem offLink_sendPairKey (s : State) (point : Option (List Byte)) (cid : Option Nat) :
    offLink (sendPairKey s point cid).twin = offLink { s.twin with keysDrawn := s.twin.keysDrawn + 1, pairing := some (s.twin.keysDrawn, point, cid) } :=
  offLink_sendFrame ..

section KeyHeard

variable {t : State} {point : List Byte} {x : PairHello} (hhold : t.twin.hold = false) (hpeer : t.twin.peer = some x) (hgood : t.twin.pairReject = 0)
include hhold hpeer hgood

/-- The active answers a PAIR_KEY with its confirmation. -/
theorem keyHeard_active {n : Nat} {y : Option (List Byte)} {cid : Option Nat} (hrole : t.twin.role = .active) (hpair : t.twin.pairing = some (n, y, cid)) :
    offLink (keyHeard point t).twin = offLink { t.twin with pairing := some (n, some point, cid) } ∧
    ∃ f ∈ (keyHeard point t).twin.sent, f.frame = .pairConfirm (Config.pairConfirm n point (transcript t n point)) := by
  have heq : keyHeard point t = sendFrame (updTwin t (fun x => { x with pairing := some (n, some point, cid) }))
      (.pairConfirm (Config.pairConfirm n point (transcript t n point))) := by simp [keyHeard, hhold, hpeer, hgood, hrole, hpair]
  rw [heq]
  exact ⟨offLink_sendFrame .., exists_sent_sendFrame ..⟩

/-- Its FENCED partner answers with its own key and confirmation. -/
theorem keyHeard_fenced (hrole : t.twin.role = .fenced) :
    offLink (keyHeard point t).twin =
      offLink { t.twin with keysDrawn := t.twin.keysDrawn + 1, pairing := some (t.twin.keysDrawn, some point, none) } ∧
    ∃ f ∈ (keyHeard point t).twin.sent, f.frame = .pairConfirm (Config.pairConfirm t.twin.keysDrawn point (transcript t t.twin.keysDrawn point)) := by
  have hkept := offLink_sendPairKey t (some point) none
  have hsame : transcript (sendPairKey t (some point) none) t.twin.keysDrawn point = transcript t t.twin.keysDrawn point :=
    transcript_congr rfl rfl (field_of_offLink hkept badge) _ _
  have heq : keyHeard point t = sendFrame (sendPairKey t (some point) none)
      (.pairConfirm (Config.pairConfirm t.twin.keysDrawn point (transcript t t.twin.keysDrawn point))) := by
    simp [keyHeard, hhold, hpeer, hgood, hrole, hsame]
  rw [heq]
  exact ⟨(offLink_sendFrame ..).trans hkept, exists_sent_sendFrame ..⟩

end KeyHeard

/-- What a PAIR_CONFIRM brings about. -/
def confirmHeard (bytes : List Byte) (t : State) : State :=
  match t.twin.pairing, t.twin.peer with
  | some (n, some point, cid), some hello =>
    if bytes == Config.pairConfirm n point (transcript t n point) then pairingDone t n point hello
    else refuseWaiting (updTwin t (fun x => { x with pairing := none })) cid
  | _, _ => t

theorem pairingDone_writes (s : State) (n : Nat) (point : List Byte) (x : PairHello) :
    reception (pairingDone s n point x).twin = reception s.twin ∧
    (pairingDone s n point x).twin.pairRec = some (x.serial, Config.pairWrapKey n point (pairInfo s)) ∧
    (s.twin.role ≠ .active → (pairingDone s n point x).twin.role = .syncing) := by
  by_cases hrole : s.twin.role = .active
  · have heq : pairingDone s n point x = updTwin s (fun t => { t with pairRec := some (x.serial, Config.pairWrapKey n point (pairInfo s)) }) := by
      simp [pairingDone, hrole]
    rw [heq]
    exact ⟨rfl, rfl, fun h => absurd hrole h⟩
  · have heq : pairingDone s n point x = beginSyncing (updTwin (updTwin s (fun t => { t with pairRec := some (x.serial, Config.pairWrapKey n point (pairInfo s)) }))
        (fun x => { x with pairing := none })) := by
      simp [pairingDone, hrole]
    rw [heq, twin_beginSyncing]
    exact ⟨rfl, rfl, fun _ => rfl⟩

section Accepted

variable {s : State} {h : FrameHead} {cyc : Nat} (hcyc : cyc ≤ s.now) (hacc : accepts s h = true)
include hcyc hacc

theorem hello_accepted (x : PairHello) : ∃ t, exec (.framePairHello h x cyc) s = .next t ∧ Acks s h t.twin ∧ t.twin.peer = some x ∧
    t.twin.pairReject = pairRefusal s x ∧
    (∀ k, pairRefusal s x = 0 → s.twin.role = .fenced → s.twin.hold = false → s.twin.peerOwn = true → s.twin.pairRec = some (x.serial, k) →
      t.twin.role = .syncing) := by
  obtain ⟨y, hy⟩ := receive_acked hcyc hacc (helloHeard x)
  have hsame : pairRefusal (heard s h y) x = pairRefusal s x := pairRefusal_congr rfl rfl rfl x
  have hnoted := helloNoted_helloHeard x (heard s h y)
  simp only [helloNoted, Prod.mk.injEq] at hnoted
  obtain ⟨hseq, hlast, -, hpeer, hreject⟩ := hnoted
  refine ⟨_, congrArg settled hy, ?_⟩
  rw [endCycle_twin]
  refine ⟨Taken.acks ⟨hseq, hlast⟩, hpeer, hreject.trans hsame, fun k hgood hrole hhold howner hrec => ?_⟩
  refine helloHeard_syncs (t := heard s h y) (k := k) (hsame.trans hgood) ?_ ?_ ?_ ?_ <;> simpa only [heard, counted, updTwin_twin]

theorem key_accepted_active {point : List Byte} {x : PairHello} (hhold : s.twin.hold = false) (hpeer : s.twin.peer = some x)
    (hgood : s.twin.pairReject = 0) {n : Nat} {y : Option (List Byte)} {cid : Option Nat} (hrole : s.twin.role = .active)
    (hpair : s.twin.pairing = some (n, y, cid)) :
    ∃ t, exec (.framePairKey h point cyc) s = .next t ∧ Acks s h t.twin ∧ t.twin.pairing = some (n, some point, cid) ∧
      ∃ f ∈ t.twin.sent, f.frame = .pairConfirm (Config.pairConfirm n point (transcript s n point)) := by
  obtain ⟨z, hz⟩ := receive_acked hcyc hacc (keyHeard point)
  obtain ⟨hkept, f, hf, hframe⟩ := keyHeard_active (t := heard s h z) (point := point) (x := x) (n := n) (y := y) (cid := cid)
    (by simpa only [heard, counted, updTwin_twin]) (by simpa only [heard, counted, updTwin_twin]) (by simpa only [heard, counted, updTwin_twin])
    (by simpa only [heard, counted, updTwin_twin]) (by simpa only [heard, counted, updTwin_twin])
  refine ⟨_, congrArg Host.Outcome.next hz, (taken_of_reception (x := z) (field_of_offLink hkept reception)).acks, field_of_offLink hkept Twin.pairing, f,
    sent_sendFrame hf _, ?_⟩
  rw [hframe, transcript_heard]

theorem key_accepted_fenced {point : List Byte} {x : PairHello} (hhold : s.twin.hold = false) (hpeer : s.twin.peer = some x)
    (hgood : s.twin.pairReject = 0) (hrole : s.twin.role = .fenced) :
    ∃ t, exec (.framePairKey h point cyc) s = .next t ∧ Acks s h t.twin ∧ t.twin.pairing = some (s.twin.keysDrawn, some point, none) ∧
      ∃ f ∈ t.twin.sent, f.frame = .pairConfirm (Config.pairConfirm s.twin.keysDrawn point (transcript s s.twin.keysDrawn point)) := by
  obtain ⟨z, hz⟩ := receive_acked hcyc hacc (keyHeard point)
  obtain ⟨hkept, f, hf, hframe⟩ := keyHeard_fenced (t := heard s h z) (point := point) (x := x)
    (by simpa only [heard, counted, updTwin_twin]) (by simpa only [heard, counted, updTwin_twin]) (by simpa only [heard, counted, updTwin_twin])
    (by simpa only [heard, counted, updTwin_twin])
  have hdrawn : (heard s h z).twin.keysDrawn = s.twin.keysDrawn := by simp only [heard, counted, updTwin_twin]
  rw [hdrawn] at hkept hframe
  refine ⟨_, congrArg Host.Outcome.next hz, (taken_of_reception (x := z) (field_of_offLink hkept reception)).acks, field_of_offLink hkept Twin.pairing, f,
    sent_sendFrame hf _, ?_⟩
  rw [hframe, transcript_heard]

theorem confirm_accepted {n : Nat} {point : List Byte} {cid : Option Nat} {x : PairHello} (bytes : List Byte)
    (hpair : s.twin.pairing = some (n, some point, cid)) (hpeer : s.twin.peer = some x) :
    ∃ t, exec (.framePairConfirm h bytes cyc) s = .next t ∧ Acks s h t.twin ∧
      (bytes = Config.pairConfirm n point (transcript s n point) →
        t.twin.pairRec = some (x.serial, Config.pairWrapKey n point (pairInfo s)) ∧ (s.twin.role ≠ .active → t.twin.role = .syncing)) ∧
      (bytes ≠ Config.pairConfirm n point (transcript s n point) → t.twin.pairing = none ∧ t.twin.pairRec = s.twin.pairRec) := by
  obtain ⟨z, hz⟩ := receive_acked hcyc hacc (confirmHeard bytes)
  have hsame : transcript (heard s h z) n point = transcript s n point := transcript_heard ..
  have hinfo : pairInfo (heard s h z) = pairInfo s := pairInfo_congr rfl
  have hpair' : (heard s h z).twin.pairing = some (n, some point, cid) := by simpa only [heard, counted, updTwin_twin]
  have hpeer' : (heard s h z).twin.peer = some x := by simpa only [heard, counted, updTwin_twin]
  refine ⟨_, congrArg settled hz, ?_⟩
  rw [endCycle_twin]
  by_cases hbytes : bytes = Config.pairConfirm n point (transcript s n point)
  · have heq : confirmHeard bytes (heard s h z) = pairingDone (heard s h z) n point x := by simp [confirmHeard, hpair', hpeer', hsame, hbytes]
    obtain ⟨hreception, hrec, hrole⟩ := pairingDone_writes (heard s h z) n point x
    rw [hinfo] at hrec
    rw [role_heard] at hrole
    rw [heq]
    exact ⟨(taken_of_reception hreception).acks, fun _ => ⟨hrec, hrole⟩, fun hne => absurd hbytes hne⟩
  · have heq : confirmHeard bytes (heard s h z) = refuseWaiting (updTwin (heard s h z) (fun x => { x with pairing := none })) cid := by
      simp [confirmHeard, hpair', hpeer', hsame, hbytes]
    have htwin : (refuseWaiting (updTwin (heard s h z) (fun x => { x with pairing := none })) cid).twin = { (heard s h z).twin with pairing := none } :=
      twin_refuseWaiting ..
    have hold : (heard s h z).twin.pairRec = s.twin.pairRec := by simp only [heard, counted, updTwin_twin]
    have htaken : Taken s h (refuseWaiting (updTwin (heard s h z) (fun x => { x with pairing := none })) cid).twin := by
      rw [htwin]
      exact taken_heard s h z
    rw [heq]
    exact ⟨htaken.acks, fun hgood => absurd hgood hbytes, fun _ => ⟨congrArg Twin.pairing htwin, (congrArg Twin.pairRec htwin).trans hold⟩⟩

end Accepted

/-! ## O44 -/

/-- Settles O44: a frame that is not accepted changes nothing but the time, an ACK covers the frames up to the one that it names, and each accepted frame
acts by its type on the state that has heard it. -/
theorem zynmiFramesAct : Obligations.ZynmiFramesAct := by
  unfold Obligations.ZynmiFramesAct
  intro s h cyc hcyc
  refine ⟨fun es hrej => frameFrontier_discarded hcyc hrej es, fun n hruns hlanes => ?acks, fun hacc => ?accepted⟩
  case acks =>
    exact ⟨ack_covers hcyc hruns hlanes n, fun f hrole hover hf hn hlive => ack_ends_sync hcyc hruns hlanes n hrole hover hf hn hlive,
      fun f cid hrole hover hn => ack_hands_over hcyc hruns hlanes n hrole hover hn⟩
  case accepted =>
    refine ⟨heartbeat_accepted hcyc hacc, failing_accepted hcyc hacc, fun hcopy => ?copy, fun r hr => unpair_accepted hcyc hacc hr,
      fun hrole => ⟨stop_accepted hcyc hacc hrole, handOver_accepted hcyc hacc hrole⟩,
      fun hrole => ⟨syncPiece_accepted hcyc hacc hrole, syncEnd_accepted hcyc hacc hrole⟩, hello_accepted hcyc hacc, ?key,
      fun n point cid x bytes hpair hpeer => confirm_accepted hcyc hacc bytes hpair hpeer⟩
    case copy =>
      exact ⟨admit_accepted hcyc hacc hcopy, journal_accepted hcyc hacc hcopy, fun r hr hkind => state_accepted hcyc hacc hcopy hr hkind,
        fun l e he => complete_accepted hcyc hacc hcopy l he, fun l d hd => doorbell_accepted hcyc hacc hcopy l hd, frontier_accepted hcyc hacc hcopy⟩
    case key =>
      exact fun point x hhold hpeer hgood => ⟨fun n y cid hrole hpair => key_accepted_active hcyc hacc hhold hpeer hgood hrole hpair,
        fun hrole => key_accepted_fenced hcyc hacc hhold hpeer hgood hrole⟩

end Sys2Proof.Proofs
end
section
/-! PROOFS. The station of a chip in its twin (R382 to R385, R391, R401, R404): ownership, roles, fence and take-overs, which no work on medium, journal and
hosts changes, and FAILED, which none of that work sets. -/
namespace Sys2Proof.Proofs
open Sys2Proof Sys2Proof.Machine Sys2Proof.Laws

/-- Ownership, the two roles, the fence, the take-overs, the status outputs of the gap, and whether FAILED is set. -/
def station (s : State) : Bool × Role × Role × Option Nat × Nat × Bool × Bool :=
  (s.twin.own, s.twin.role, s.twin.partnerRole, s.twin.fenceFrom, s.twin.takeOvers, s.twin.gapPins, failedSet s)

/-- Every part but the twin and the condition word. -/
def afar : List Part := everything.filter (fun p => p != .twin && p != .cond)

theorem station_congr {s t : State} (htwin : t.twin = s.twin) (hcond : t.cond = s.cond) : station t = station s := by
  simp only [station, failedSet, htwin, hcond]

theorem station_of_rest {s t : State} (h : rest afar t = rest afar s) : station t = station s :=
  station_congr (twin_of_rest h rfl) (cond_of_rest h rfl)

theorem station_of_offLink {s t : State} (htwin : offLink t.twin = offLink s.twin) (hcond : t.cond = s.cond) : station t = station s := by
  have h := field_of_offLink htwin (fun w => (w.own, w.role, w.partnerRole, w.fenceFrom, w.takeOvers, w.gapPins))
  simp only [Prod.mk.injEq] at h
  obtain ⟨hown, hrole, hpartner, hfence, htakeOvers, hpins⟩ := h
  simp only [station, failedSet, hown, hrole, hpartner, hfence, htakeOvers, hpins, hcond]

theorem station_foldl {α : Type} {f : State → α → State} (hf : ∀ t a, station (f t a) = station t) (l : List α) (s : State) :
    station (l.foldl f s) = station s := view_foldl hf l s

/-! ## Flags other than FAILED -/

theorem flag_withFlag_other (c : Half) {n m : Nat} (h : n ≠ m) (v : Bool) : flag (withFlag c n v) m = flag c m := by
  cases v with
  | false => simp [flag_withFlag_false, h.symm]
  | true =>
    have hword : withFlag c n true = c ||| BitVec.twoPow 16 n := rfl
    rw [hword, flag, BitVec.getLsbD_or, BitVec.getLsbD_twoPow]
    simp [h, flag]

theorem flag_withFlags_other {m : Nat} (fs : List (Nat × Bool)) : ∀ c : Half, (∀ f ∈ fs, f.1 ≠ m) → flag (withFlags c fs) m = flag c m := by
  induction fs with
  | nil => exact fun _ _ => rfl
  | cons f fs ih =>
    intro c h
    obtain ⟨hf, hfs⟩ := List.forall_mem_cons.mp h
    exact (ih _ hfs).trans (flag_withFlag_other c hf _)

theorem failedSet_setFlags (s : State) {fs : List (Nat × Bool)} (h : ∀ f ∈ fs, f.1 ≠ bFailed) : failedSet (setFlags s fs) = failedSet s := by
  have hcond : (setFlags s fs).cond = nextCond s.twin.en s.cond (withFlags s.cond fs) := rfl
  unfold failedSet
  by_cases hfailed : flag s.cond bFailed = true
  · rw [hcond, nextCond_of_failed hfailed]
  · rw [hcond, flag_nextCond (eq_false_of_ne_true hfailed), flag_withFlags_other fs _ h]
    simp [bFailed, bRebuilding, bTwinSolo]

theorem station_setFlags (s : State) {fs : List (Nat × Bool)} (h : ∀ f ∈ fs, f.1 ≠ bFailed) : station (setFlags s fs) = station s := by
  simp only [station, failedSet_setFlags s h, setFlags_twin]

/-! ## Frames and records -/

theorem station_sendFrame (s : State) (f : Frame) : station (sendFrame s f) = station s :=
  station_of_offLink (offLink_sendFrame s f) (cond_of_rest (rest_sendFrame (L := but .cond) rfl s f) rfl)

theorem station_mirrorFrame (s : State) (f : Frame) : station (mirrorFrame s f) = station s := by
  unfold mirrorFrame
  split
  exacts [station_sendFrame s f, rfl]

theorem station_journal (s : State) (body : JRec) : station (journal s body) = station s := by
  unfold journal
  split
  · rfl
  · exact (station_mirrorFrame ..).trans (station_congr rfl rfl)

theorem station_commitRec (s : State) (body : JRec) : station (commitRec s body) = station s := by
  unfold commitRec
  split
  · rfl
  · exact (station_congr rfl rfl).trans (station_journal s body)

/-! ## Bays and members -/

theorem station_sealIfSpent (s : State) (p : Nat) : station (sealIfSpent s p) = station s := by
  unfold sealIfSpent
  split
  exacts [station_setFlags s (by decide), rfl]

theorem station_drawLost (n : Nat) : ∀ s : State, station (drawLost s n) = station s := by
  induction n with
  | zero => exact fun _ => rfl
  | succ n ih =>
    intro s
    unfold drawLost
    split
    · split
      · rfl
      · rw [ih, station_sealIfSpent, station_of_rest (rest_takeSpare rfl ..)]
    · rfl

theorem station_settleLoss (s : State) : station (settleLoss s) = station s :=
  (station_drawLost ..).trans (station_of_rest (rest_settleSegments rfl s))

theorem station_recordFail (s : State) (b : Nat) (die : Option Nat) : station (recordFail s b die) = station s :=
  (station_congr rfl rfl).trans (station_journal ..)

theorem station_setBaySt (s : State) (b : Nat) (st : BaySt) : station (setBaySt s b st) = station s := by
  unfold setBaySt
  split
  · rfl
  · split
    · rfl
    · exact (station_congr rfl rfl).trans (station_journal ..)

theorem station_openStandIn (s : State) (k : SetRec) (col : Nat) (page0 : Madr) (who : Nat) : station (openStandIn s k col page0 who) = station s :=
  (station_of_rest (rest_writePage rfl ..)).trans (station_commitRec ..)

theorem station_closeSet (s : State) (seq : Nat) (last abandoned : Option Nat) : station (closeSet s seq last abandoned) = station s := by
  have hclosed : ∀ n (f : OpenSet → OpenSet) t, station (updOpen (unflush (commitRec s (.setClose seq last abandoned)) n t) n f) = station s := fun n f t =>
    (station_of_rest (rest_updOpen rfl ..)).trans ((station_of_rest (rest_unflush rfl ..)).trans (station_commitRec ..))
  unfold closeSet
  split
  · rfl
  · split
    · rfl
    · dsimp only
      split
      · exact (station_of_rest (rest_padTail rfl ..)).trans (hclosed ..)
      · exact (station_of_rest (rest_padPair rfl ..)).trans (hclosed ..)

theorem station_handleOpen (s : State) (k : SetRec) (col : Nat) : station (handleOpen s k col) = station s := by
  unfold handleOpen
  split
  · dsimp only
    rw [station_closeSet, station_foldl (fun t r => station_of_rest (rest_fillStandIn rfl ..)), station_openStandIn, station_of_rest (rest_padOpenRow rfl ..)]
  · dsimp only
    split
    · exact (station_of_rest (rest_raiseTrigger rfl ..)).trans (station_closeSet ..)
    · exact station_closeSet ..
  · rfl

theorem station_afterMemberFail (s : State) : station (afterMemberFail s) = station s := by
  unfold afterMemberFail
  dsimp only
  rw [station_of_rest (rest_settleFull rfl _), station_of_rest (rest_cancelActivation rfl _)]
  refine (station_foldl (fun t o => ?_) _ _).trans ?_
  · split
    · rfl
    · split
      · rfl
      · split
        · exact (station_of_rest (rest_finishSet rfl ..)).trans (station_handleOpen ..)
        · rfl
  · split
    · refine (station_congr (updMedia_twin ..) (updMedia_cond ..)).trans ?_
      split
      exacts [rfl, station_setFlags s (by decide)]
    · rfl

theorem station_bayFail (s : State) (b : Nat) : station (bayFail s b) = station s := by
  unfold bayFail
  split
  · rfl
  · dsimp only
    have hfailed : ∀ t st f uid, station (settleLoss (retireUid (setBaySt (updBay (stopBayDies t b) b f) b st) uid)) = station t := fun t st f uid => by
      rw [station_settleLoss, station_of_rest (rest_retireUid rfl ..), station_setBaySt, station_of_rest (rest_updBay rfl ..),
        station_of_rest (rest_stopBayDies rfl ..)]
    split
    · rw [station_afterMemberFail, hfailed, station_recordFail]
    · exact hfailed ..

theorem station_failMissing (s : State) : station (failMissing s) = station s :=
  station_foldl (f := fun t (b : Bay) => bayFail t b.bay) (fun t b => station_bayFail t b.bay) _ s

/-! ## Blocks -/

theorem station_retireBlock (s : State) (b : Madr) (cause : Nat) : station (retireBlock s b cause) = station s := by
  have hretired : ∀ (f : Health → Health) (g : Bay → Bay),
      station (updBay (updHealth (commitRec s (.retire (blockOf b) cause)) f) b.bay g) = station s := fun f g =>
    (station_congr rfl rfl).trans (station_commitRec ..)
  unfold retireBlock
  split
  · rfl
  · dsimp only
    split
    · exact hretired ..
    · split
      · exact hretired ..
      · rw [station_sealIfSpent, station_of_rest (rest_takeSpare rfl ..)]
        exact hretired ..

theorem station_releaseBlock (s : State) (k : SetRec) (b : Madr) : station (releaseBlock s k b) = station s := by
  unfold releaseBlock
  split
  · rfl
  · split
    · exact station_retireBlock ..
    · split
      exacts [rfl, station_commitRec ..]

theorem station_eraseDone (s : State) (b : Madr) : station (eraseDone s b) = station s :=
  (station_congr rfl rfl).trans ((station_of_rest (rest_settlePatrol rfl _)).trans (station_commitRec ..))

theorem station_eraseReleased (s : State) : station (eraseReleased s) = station s := by
  have hreleased : ∀ (t : State) (k : SetRec), station ((blocksOfSet k).foldl (fun t b => releaseBlock t k b) t) = station t := fun t k =>
    station_foldl (fun t b => station_releaseBlock t k b) _ t
  have herased : ∀ (c : Bool) (f : MapImg → MapImg) (t : State) (b : Madr), station (eraseDone (if c then updMap t f else t) b) = station t := by
    intro c f t b
    rw [station_eraseDone]
    cases c
    exacts [rfl, station_congr rfl rfl]
  unfold eraseReleased
  dsimp only
  refine (station_congr (updMedia_twin ..) (updMedia_cond ..)).trans ?_
  rw [station_foldl (fun t b => herased ..), station_foldl hreleased]

/-! ## Sets closed at a stop -/

theorem station_closeAgain (s : State) (k : SetRec) (last abandoned : Option Nat) : station (closeAgain s k last abandoned) = station s := by
  unfold closeAgain
  split
  · exact station_closeSet ..
  · split
    exacts [station_commitRec .., rfl]

theorem station_closeStopped (found : RestartFind) (s : State) (o : OpenSet) : station (closeStopped found s o) = station s := by
  unfold closeStopped
  split
  · rfl
  · dsimp only
    split
    · exact station_closeAgain ..
    · split
      · exact station_closeAgain ..
      · split
        · rw [station_closeAgain]
          split
          · exact station_of_rest (rest_updOpen rfl ..)
          · exact (station_of_rest (rest_padRow rfl ..)).trans (station_of_rest (rest_updOpen rfl ..))
        · rw [station_closeAgain]
          split
          · exact (station_of_rest (rest_declareLost rfl ..)).trans (station_of_rest (rest_updOpen rfl ..))
          · exact station_of_rest (rest_updOpen rfl ..)

theorem station_closeAll (s : State) (found : RestartFind) : station (closeAll s found) = station s := by
  have hmarked : ∀ (t : State) (o : OpenSet),
      station (if ((setOf t o.seq).bind (·.firstAbandoned)).isSome then raiseTrigger t o.seq 3 else t) = station t := by
    intro t o
    split
    exacts [station_of_rest (rest_raiseTrigger rfl ..), rfl]
  unfold closeAll
  dsimp only
  rw [station_foldl hmarked, station_foldl (fun t o => station_of_rest (rest_settleRows rfl ..)), station_of_rest (rest_finishOps rfl _),
    station_foldl (station_closeStopped found)]

/-! ## Rebuild -/

theorem station_setRebuild (s : State) (new : Nat) : station (setRebuild s new []) = station s := by
  have hflags : ∀ f : Media → Media, station (setFlags (updMedia s f) [(bRebuilding, new == 1 || new == 2)]) = station s := fun f =>
    (station_setFlags _ (by simp [bRebuilding, bFailed])).trans (station_congr rfl rfl)
  unfold setRebuild
  dsimp only
  split
  · rfl
  · split
    · exact hflags _
    · split
      · exact (station_congr rfl rfl).trans ((station_journal ..).trans (hflags _))
      · exact (station_journal ..).trans (hflags _)

theorem station_resumeRebuild (s : State) : station (resumeRebuild s) = station s := by
  have hflags : ∀ (f : Media → Media) (v : Bool), station (setFlags (updMedia s f) [(bDegraded, true), (bRebuilding, v)]) = station s := fun f v =>
    (station_setFlags _ (by simp [bDegraded, bRebuilding, bFailed])).trans (station_congr rfl rfl)
  unfold resumeRebuild
  dsimp only
  split
  · rfl
  · split
    · exact (station_setRebuild ..).trans (hflags ..)
    · exact hflags ..

/-! ## Fates and postings of a fail-over (R393, R394) -/

theorem station_takePosted (s : State) (e : PostedRef) : station (takePosted s e) = station s := by
  unfold takePosted
  dsimp only
  split
  · split <;> rfl
  · split
    · split
      · exact (station_congr rfl rfl : station _ = station (updQueue ..)).trans (station_of_rest (rest_updQueue rfl ..))
      · rfl
    · rfl

theorem station_decideFate (x : Fates) (a : AdmSlot) : station (decideFate x a).1 = station x.1 := by
  unfold decideFate
  dsimp only
  split
  · rfl
  · split
    · rfl
    · split
      · rfl
      · exact station_commitRec ..

theorem station_posted (s : State) (c : Ctx) (k : Queue) : station (posted s c k) = station s := by
  unfold posted
  extract_lets bad written told counted sampled retired
  have htold : station told = station s := by
    unfold told
    split
    · exact (station_sendFrame ..).trans (station_of_rest (rest_emit rfl ..))
    · exact station_of_rest (rest_emit rfl ..)
  have hretired : station retired = station sampled := by
    unfold retired
    split
    exacts [rfl, station_of_rest (rest_retire rfl ..)]
  rw [station_of_rest (rest_updQueue rfl ..), station_of_rest (rest_dropCtx rfl ..), station_of_rest (rest_dropStanding rfl ..), hretired,
    station_of_rest (rest_recordSample rfl ..), station_of_rest (rest_countEvent rfl ..), htold]

theorem station_post (s : State) (c : Ctx) (k : Queue) : station (post s c k) = station s := by
  rw [post_eq, station_of_rest (rest_dropEnded rfl _)]
  split
  · exact (station_of_rest (rest_sendCqMessage rfl ..)).trans (station_posted ..)
  · exact station_posted ..

/-- A mirrored command held again and decided as its record says (R394). -/
def replayDecided (s : State) (r : CmdRec) (c : Ctx) : State :=
  let t := { s with ctxs := s.ctxs ++ [c] }
  if !r.performed then decide_ t (freeCid s) { status := 0x6001, origin := 5 }
  else if r.status.toNat < 0x1000 then perform t (freeCid s) r.result0 r.result1 r.status
  else updCtx (decide_ t (freeCid s) { status := r.status, origin := 5 }) (freeCid s) (fun c => { c with result0 := r.result0, result1 := r.result1 })

theorem station_replayDecided (s : State) (r : CmdRec) (c : Ctx) : station (replayDecided s r c) = station s := by
  unfold replayDecided
  dsimp only
  have hdecided : ∀ t cid v, station (decide_ t cid v) = station t := fun t cid v => station_of_rest (rest_decide_ rfl t cid v)
  split
  · exact hdecided ..
  · split
    · rfl
    · exact (station_of_rest (rest_updCtx rfl ..)).trans (hdecided ..)

theorem station_replayOne (s : State) (r : Port × CmdRec) : station (replayOne s r) = station s := by
  unfold replayOne
  split
  · rfl
  · dsimp only
    split
    · exact (station_post ..).trans (station_replayDecided s r.2 _)
    · exact station_replayDecided s r.2 _

theorem station_failoverFates (s : State) : station (failoverFates s) = station s := by
  have hlog : ∀ t p n a l recs, station (beginLog t p 5 n a l recs) = station t := fun t p n a l recs => station_of_rest (rest_beginLog rfl ..)
  have hfates : ∀ (l : List AdmSlot) (x : Fates), station (l.foldl decideFate x).1 = station x.1 := by
    intro l
    induction l with
    | nil => exact fun _ => rfl
    | cons a l ih => exact fun x => (ih _).trans (station_decideFate x a)
  unfold failoverFates
  dsimp only
  rw [station_of_rest (rest_completeLog rfl ..), station_of_rest (rest_completeLog rfl ..), station_foldl station_replayOne, hfates, hlog, hlog]

end Sys2Proof.Proofs
end

section
/-! PROOFS. The supervision of the partner (R383 to R386, R391, R399): heartbeats, silence, the fence and its end, and the link. -/
namespace Sys2Proof.Proofs
open Sys2Proof Sys2Proof.Machine Sys2Proof.Laws

theorem twin_fallBack (s : State) : (fallBack s).twin =
    { s.twin with
      slots := [], queues := [], features := [], frontier := [], capture := 0, handOverIn := false, handOverSets := [], csnBlock := 0
      greeted := false, role := .fenced } := by
  rw [fallBack, twin_setRole]
  rfl

/-! ## Commands that end together -/

theorem ctxOf_updCtx_other {s : State} {m n : Nat} (h : m ≠ n) {f : Ctx → Ctx} (hf : ∀ c, (f c).cid = c.cid := by intro _; rfl) :
    ctxOf (updCtx s n f) m = ctxOf s m := by
  rw [ctxOf_updCtx_map _ _ _ hf]
  cases hm : ctxOf s m with
  | none => rfl
  | some c => simp [cid_of_ctxOf hm, h]

theorem ctxOf_performState_other {s : State} {m n : Nat} (h : m ≠ n) : ctxOf (performState s n 3 0 0) m = ctxOf s m := by
  unfold performState perform
  dsimp only
  rw [ctxOf_updCtx_other h, ctxOf_updCtx_other h, ctxOf_congr (mirrorFrame_ctxs ..)]

theorem endedWith_performState_kept {s : State} {n cid : Nat} {c : Ctx} (hc : ctxOf s cid = some c) (h : endedWith s n 0 0) :
    endedWith (performState s cid 3 0 0) n 0 0 := by
  by_cases hn : n = cid
  · subst hn
    exact endedWith_performState hc ..
  · rwa [endedWith, ctxOf_performState_other hn]

theorem exists_ctxOf_performState {s : State} {n : Nat} {d : Ctx} (hd : ctxOf s n = some d) (cid : Nat) :
    ∃ e, ctxOf (performState s cid 3 0 0) n = some e := by
  by_cases hn : n = cid
  · subst hn
    obtain ⟨e, he, -⟩ := endedWith_performState hd 3 0 0 none none none
    exact ⟨e, he⟩
  · exact ⟨d, (ctxOf_performState_other hn).trans hd⟩

/-- What was ended stays ended while further commands are performed. -/
theorem endedWith_performAll_kept {n : Nat} (l : List Ctx) : ∀ {s : State}, (∀ x ∈ l, ∃ d, ctxOf s x.cid = some d) → endedWith s n 0 0 →
    endedWith (l.foldl (fun t c => performState t c.cid 3 0 0) s) n 0 0 := by
  induction l with
  | nil => exact fun _ h => h
  | cons c l ih =>
    intro s hfound h
    obtain ⟨⟨d, hd⟩, hrest⟩ := List.forall_mem_cons.mp hfound
    refine ih (fun x hx => ?_) (endedWith_performState_kept hd h)
    obtain ⟨e, he⟩ := hrest x hx
    exact exists_ctxOf_performState he _

theorem endedWith_performAll {x : Ctx} (l : List Ctx) : ∀ {s : State}, (∀ x ∈ l, ∃ d, ctxOf s x.cid = some d) → x ∈ l →
    endedWith (l.foldl (fun t c => performState t c.cid 3 0 0) s) x.cid 0 0 := by
  induction l with
  | nil => exact fun _ h => absurd h List.not_mem_nil
  | cons c l ih =>
    intro s hfound hx
    obtain ⟨⟨d, hd⟩, hrest⟩ := List.forall_mem_cons.mp hfound
    have hnext : ∀ x ∈ l, ∃ e, ctxOf (performState s c.cid 3 0 0) x.cid = some e := fun x hx =>
      (hrest x hx).elim fun _ he => exists_ctxOf_performState he _
    rcases List.mem_cons.mp hx with rfl | hl
    · exact endedWith_performAll_kept l hnext (endedWith_performState hd ..)
    · exact ih hnext hl

theorem exists_ctxOf_of_mem {s : State} {x : Ctx} (h : x ∈ s.ctxs) : ∃ d, ctxOf s x.cid = some d :=
  Option.isSome_iff_exists.mp (List.find?_isSome.mpr ⟨x, h, beq_self_eq_true _⟩)

theorem offLink_performAll (l : List Ctx) : ∀ s : State, offLink (l.foldl (fun t c => performState t c.cid 3 0 0) s).twin = offLink s.twin := by
  induction l with
  | nil => exact fun _ => rfl
  | cons c l ih => exact fun s => (ih _).trans (offLink_performState ..)

/-! ## Heartbeats and the link -/

section
variable {s : State} {cyc : Nat} (hcyc : cyc ≤ s.now) (hruns : twinRuns s = true)
include hcyc

include hruns in
theorem heartbeatSend_tells (hok : failedSet s = false) : ∃ t, exec (.heartbeatSend cyc) s = .next t ∧ t.twin.hbOut = !s.twin.hbOut ∧
    (s.twin.lanes ≠ 0 → ∃ f ∈ t.twin.sent, f.frame = heartbeatOf s) := by
  obtain ⟨x, hx⟩ := twinTime_past hcyc
  let t := updTwin (counted x s) (fun x => { x with hbOut := !x.hbOut })
  have hframe : heartbeatOf t = heartbeatOf s := rfl
  have hexec : exec (.heartbeatSend cyc) s = .next (if s.twin.lanes == 0 then t else sendFrame t (heartbeatOf t)) := by
    show execHeartbeatSend cyc s = _
    rw [execHeartbeatSend, hx]
    exact if_neg (by simp [hruns, hok] : ¬ (!twinRuns s || failedSet s) = true)
  refine ⟨_, hexec, ?_⟩
  by_cases hlanes : s.twin.lanes = 0
  · exact ⟨by simp [hlanes, t, counted], fun h => absurd hlanes h⟩
  · have hsend : (s.twin.lanes == 0) = false := by simp [hlanes]
    rw [hsend, hframe, if_neg Bool.false_ne_true]
    exact ⟨field_of_offLink (offLink_sendFrame t _) Twin.hbOut, fun _ => exists_sent_sendFrame t _⟩

include hruns in
theorem twinHbInEdge_told : ∃ t, exec (.twinHbInEdge cyc) s = .next t ∧ t.twin.hbEdge = some s.now := by
  obtain ⟨x, hx⟩ := twinTime_past hcyc
  refine ⟨updTwin (counted x s) (fun y => { y with hbEdge := some s.now }), ?_, rfl⟩
  show execTwinHbInEdge cyc s = _
  rw [execTwinHbInEdge, hx]
  exact if_pos hruns

include hruns in
theorem standbyLinkFallback_falls (halone : linkAlone s = true) :
    ∃ t, exec (.standbyLinkFallback cyc) s = .next t ∧ t.twin.role = .fenced ∧ t.twin.slots = [] := by
  obtain ⟨x, hx⟩ := twinTime_past hcyc
  refine ⟨endCycle (fallBack (counted x s)), ?_, ?_⟩
  · show execStandbyLinkFallback cyc s = _
    rw [execStandbyLinkFallback, hx]
    exact if_pos (by simp [hruns, halone] : (twinRuns s && linkAlone s) = true)
  · rw [endCycle_twin, twin_fallBack]
    exact ⟨rfl, rfl⟩

include hruns in
theorem ackTimeout_alone (hrole : s.twin.role = .active) (hpartner : s.twin.partnerRole ≠ .fenced) (hunacked : s.twin.unacked ≠ [])
    (hlate : s.twin.ackAt + 1000000 ≤ s.now) :
    ∃ t, exec (.ackTimeout cyc) s = .next t ∧ t.twin.partnerRole = .fenced ∧ t.twin.unacked = [] := by
  obtain ⟨x, hx⟩ := twinTime_past hcyc
  refine ⟨endCycle (raiseEvent (goAlone (counted x s)) 8 2 (roleNum .active) 0), ?_, ?_⟩
  · show execAckTimeout cyc s = _
    rw [execAckTimeout, hx]
    exact if_pos (by simp [hruns, hrole, hpartner, hunacked, hlate] : (twinRuns s && s.twin.role == .active && s.twin.partnerRole != .fenced &&
      !s.twin.unacked.isEmpty && decide (s.twin.ackAt + 1000000 ≤ s.now)) = true)
  · rw [endCycle_twin, raiseEvent_twin, twin_goAlone]
    exact ⟨rfl, rfl⟩

/-- The end of the fence ends the commands that asked for it (R391, Table 16-7). -/
theorem fenceRelease_ends {c : Nat} (hfence : s.twin.fenceFrom = some c) (hlate : c + 1000000 ≤ s.now) :
    ∃ t, exec (.fenceRelease cyc) s = .next t ∧ t.twin.fenceFrom = none ∧
      ∀ x ∈ s.ctxs, x.queue = 0 → x.stage = .admitted → x.mapAsked = true → eOpcode x.dw = 0x94 → bits (eCdw x.dw 0) 2 0 = 3 → endedWith t x.cid 0 0 := by
  obtain ⟨x, hx⟩ := twinTime_past hcyc
  let t := updTwin (counted x s) (fun y => { y with fenceFrom := none })
  let asked := s.ctxs.filter (fun c => c.queue == 0 && c.stage == .admitted && c.mapAsked && eOpcode c.dw == 0x94 && bits (eCdw c.dw 0) 2 0 == 3)
  have hexec : exec (.fenceRelease cyc) s = .next (asked.foldl (fun t c => performState t c.cid 3 0 0) t) := by
    have hgo : ¬ (counted x s).now < c + 1000000 := Nat.not_lt.mpr hlate
    have hold : (counted x s).twin.fenceFrom = some c := hfence
    show execFenceRelease cyc s = _
    simp only [execFenceRelease, hx, hold, hgo, if_false]
    rfl
  refine ⟨_, hexec, field_of_offLink (offLink_performAll asked t) Twin.fenceFrom, fun y hy hqueue hstage hmap hop haction => ?_⟩
  exact endedWith_performAll asked (fun z hz => exists_ctxOf_of_mem (List.mem_of_mem_filter hz : z ∈ t.ctxs))
    (List.mem_filter.mpr ⟨hy, by simp [hqueue, hstage, hmap, hop, haction]⟩)

include hruns in
theorem frameResend_repeats (hlanes : s.twin.lanes ≠ 0) (hlate : s.twin.ackAt + 5000 ≤ s.now) :
    ∃ t, exec (.frameResend cyc) s = .next t ∧ t.twin.sent = s.twin.sent ++ s.twin.unacked := by
  obtain ⟨x, hx⟩ := twinTime_past hcyc
  refine ⟨updTwin (counted x s) (fun y => { y with sent := y.sent ++ y.unacked }), ?_, rfl⟩
  show execFrameResend cyc s = _
  rw [execFrameResend, hx]
  exact if_pos (by simp [hruns, hlanes, hlate] : (twinRuns s && s.twin.lanes != 0 && decide (s.twin.ackAt + 5000 ≤ s.now)) = true)

include hruns in
theorem zynmiLinkDown_drops (r : Bool) :
    ∃ t, exec (.zynmiLinkDown cyc r) s = .next t ∧ t.twin.lanes = 0 ∧ (r = true → t.twin.pairing = none) := by
  obtain ⟨x, hx⟩ := twinTime_past hcyc
  let t := updTwin (counted x s) (fun y => { y with lanes := 0, greeted := false, pairing := if r then none else y.pairing })
  refine ⟨endCycle (if linkAlone t then fallBack t else t), ?_, ?_⟩
  · show execZynmiLinkDown cyc r s = _
    rw [execZynmiLinkDown, hx]
    exact if_neg (by simp [hruns] : ¬ (!twinRuns s) = true)
  · rw [endCycle_twin]
    split
    · rw [twin_fallBack]
      exact ⟨rfl, fun h => by simp [t, h]⟩
    · exact ⟨rfl, fun h => by simp [t, h]⟩

end

/-- A link that has trained numbers its frames from 1 and begins with the greeting (R386, R399). -/
theorem zynmiLinkTrained_greets {s : State} (hruns : twinRuns s = true) {n : Nat} (hn : n = 1 ∨ n = 2 ∨ n = 4) :
    ∃ t x, exec (.zynmiLinkTrained n) s = .next t ∧ t.twin.lanes = n ∧ t.twin.rxSeq = 0 ∧ t.twin.txSeq = 2 ∧ t.twin.unacked = [⟨1, .pairHello x⟩] := by
  have hgo : ¬ (!twinRuns s || !(n == 1 || n == 2 || n == 4)) = true := by
    rcases hn with rfl | rfl | rfl <;> simp [hruns]
  let kept := if s.twin.role == .active && s.twin.partnerRole != .fenced then raiseEvent (goAlone s) 8 2 (roleNum .active) 0 else s
  let t := updTwin kept (fun x => { x with lanes := n, txSeq := 1, rxSeq := 0, unacked := [], greeted := false, lastFrame := x.lastFrame })
  refine ⟨endCycle (sendFrame t (.pairHello (ownHello t))), ownHello t, ?_, ?_⟩
  · show execZynmiLinkTrained n s = _
    exact if_neg hgo
  · rw [endCycle_twin]
    exact ⟨rfl, rfl, rfl, rfl⟩

end Sys2Proof.Proofs
end

section
/-! PROOFS. Claims and take-overs (R382, R385, R391, R401): a chip that takes ownership is ACTIVE, and a take-over ends READY. -/
namespace Sys2Proof.Proofs
open Sys2Proof Sys2Proof.Machine Sys2Proof.Laws

theorem station_endCycle (s : State) : station (endCycle s) = station s := station_congr (endCycle_twin s) (endCycle_cond s)

theorem station_clearMirror (s : State) : station (clearMirror s) = station s := rfl

theorem station_updMedia (s : State) (f : Media → Media) : station (updMedia s f) = station s := rfl

theorem station_updCad (s : State) (f : Cad → Cad) : station (updCad s f) = station s := rfl

theorem station_updKf (s : State) (f : Kf → Kf) : station (updKf s f) = station s := rfl

theorem station_raiseEvent (s : State) (kind code p0 p1 : Nat) : station (raiseEvent s kind code p0 p1) = station s := rfl

theorem fence_eq {s : State} (hhold : s.twin.hold = false) : fence s = updTwin s (fun t => { t with fenceFrom := some s.now }) := by
  rw [fence, hhold]
  rfl

theorem now_goAlone (s : State) : (goAlone s).now = s.now := now_of_rest (rest_goAlone (L := but .now) rfl s) rfl

theorem twin_fence_goAlone {s : State} (hhold : s.twin.hold = false) : (fence (goAlone s)).twin =
    { s.twin with partnerRole := .fenced, unacked := [], syncEnd := none, handOver := none, pairing := none, fenceFrom := some s.now } := by
  have hheld : (goAlone s).twin.hold = false := (congrArg Twin.hold (twin_goAlone s)).trans hhold
  rw [fence_eq hheld, updTwin_twin, twin_goAlone, now_goAlone]

theorem failedSet_updTwin (s : State) (f : Twin → Twin) : failedSet (updTwin s f) = failedSet s := rfl

theorem failedSet_raiseEvent (s : State) (kind code p0 p1 : Nat) : failedSet (raiseEvent s kind code p0 p1) = failedSet s := rfl

theorem twin_takeOwnership (s : State) (alone : Bool) : (takeOwnership s alone).twin =
    { s.twin with own := true, peerOwn := false, partnerRole := if alone then .fenced else .standby, role := .active } := by
  rw [takeOwnership, twin_setRole]
  cases alone <;> rfl

theorem failedSet_setRole (s : State) (r : Role) : failedSet (setRole s r) = failedSet s := by
  unfold setRole
  split <;> rfl

theorem station_takeOwnership (s : State) (alone : Bool) : station (takeOwnership s alone) =
    (true, .active, if alone then .fenced else .standby, s.twin.fenceFrom, s.twin.takeOvers, s.twin.gapPins, failedSet s) := by
  have hfailed : failedSet (takeOwnership s alone) = failedSet s := by
    rw [takeOwnership, failedSet_setRole]
    cases alone
    · rfl
    · exact failedSet_setFlags s (by decide)
  rw [station, hfailed, twin_takeOwnership]

/-- The part of a station that a chip takes with ownership, beside what it keeps. -/
theorem station_takeOwnership_congr {s t : State} (h : station t = station s) (alone : Bool) :
    station (takeOwnership t alone) = station (takeOwnership s alone) := by
  simp only [station, Prod.mk.injEq] at h
  obtain ⟨-, -, -, hfence, htakeOvers, hpins, hfailed⟩ := h
  rw [station_takeOwnership, station_takeOwnership, hfence, htakeOvers, hpins, hfailed]

theorem station_claimStands (s : State) (found : Option ImportResult) (surveys : List (Nat × BaySurvey)) (withHoldup : Bool) :
    station (claimStands s found surveys withHoldup) = station (takeOwnership s true) := by
  unfold claimStands
  dsimp only
  rw [station_foldl (fun t n => station_of_rest (rest_settleReserve rfl t n)), station_of_rest (rest_startSteps rfl _),
    station_foldl (fun t x => station_of_rest (rest_surveyBay rfl t x))]
  cases found with
  | none => rfl
  | some r => exact station_of_rest (rest_takeFound rfl ..)

/-- The DRAM tier made anew for the medium that was taken over. -/
theorem station_renewTier (s : State) (f : MapEng → MapEng) : station (sizeTier (updEng s f)) = station s :=
  (station_of_rest (rest_sizeTier rfl _)).trans (station_congr rfl rfl)

theorem station_learned (s : State) (scan : List PageRec) : station (settleTaken (resumeJseq (resumeCsn (learnPages s scan)))) = station s := by
  rw [station_of_rest (rest_settleTaken rfl _), station_of_rest (rest_resumeJseq rfl _), station_of_rest (rest_resumeCsn rfl _),
    station_of_rest (rest_learnPages rfl ..)]

theorem station_settleProfiles (s : State) : station ((profileNums s).foldl sealIfSpent s) = station s :=
  station_foldl station_sealIfSpent _ s

theorem station_takeHandOver (s : State) (found : Option ImportResult) (surveys : List (Nat × BaySurvey)) :
    station (takeHandOver s found surveys) = station (takeOwnership s false) := by
  unfold takeHandOver
  extract_lets cleared bays learned reopened tiered mirrored resumed
  have hbays : station bays = station (takeOwnership cleared false) := station_of_rest (rest_connectBays rfl ..)
  have hlearned : station learned = station bays := by
    cases found with
    | none => exact (station_of_rest (rest_settleTaken rfl _)).trans ((station_of_rest (rest_resumeJseq rfl _)).trans (station_of_rest (rest_resumeCsn rfl _)))
    | some r => exact station_learned ..
  have htiered : station tiered = station learned := (station_renewTier ..).trans (station_updMedia ..)
  have hmirrored : station mirrored = station tiered := (station_of_rest (rest_installMirror rfl _)).trans (station_updCad ..)
  have hresumed : station resumed = station mirrored := (station_resumeRebuild _).trans ((station_updKf ..).trans (station_clearMirror _))
  rw [station_of_rest (rest_settleReady rfl _), station_settleProfiles, hresumed, hmirrored, htiered, hlearned, hbays]
  exact station_takeOwnership_congr (station_setFlags s (by decide)) false

/-! ## A STANDBY that takes over (R391 to R394) -/

/-- The chip once it has taken ownership from a lost partner. -/
def seized (s : State) : State :=
  countTakeOver (takeOwnership (fence (raiseEvent (setFlags s [(bNotReady, true), (bTwinSolo, true)]) 8 2 (roleNum .active) 0)) true)

theorem station_seized {s : State} (hhold : s.twin.hold = false) :
    station (seized s) = (true, .active, .fenced, some s.now, satAdd 0xFFFF s.twin.takeOvers 1, s.twin.gapPins, failedSet s) := by
  have hheld : (raiseEvent (setFlags s [(bNotReady, true), (bTwinSolo, true)]) 8 2 (roleNum .active) 0).twin.hold = false := hhold
  have howned := station_takeOwnership (fence (raiseEvent (setFlags s [(bNotReady, true), (bTwinSolo, true)]) 8 2 (roleNum .active) 0)) true
  rw [fence_eq hheld, failedSet_updTwin, failedSet_raiseEvent, failedSet_setFlags s (by decide)] at howned
  simp only [station, Prod.mk.injEq, updTwin_twin, raiseEvent_twin, setFlags_twin, raiseEvent_now, setFlags_now] at howned
  obtain ⟨hown, hrole, hpartner, hfrom, htakeOvers, hpins, hfailed⟩ := howned
  simp only [seized, fence_eq hheld, station, countTakeOver, failedSet_updTwin, updTwin_twin, raiseEvent_now, setFlags_now, hown, hrole, hpartner, hfrom,
    htakeOvers, hpins, hfailed, if_true]

/-- The medium, the commands and the mirror taken over, before the chip is READY. -/
def takenOver (s : State) (cqTaken : List PostedRef) (scan : List PageRec) (found : RestartFind) (surveys : List (Nat × BaySurvey)) : State :=
  let t := connectBays (seized s) surveys
  let t := settleTaken (resumeJseq (resumeCsn (learnPages t scan)))
  let t := updMedia t (fun m => { m with opens := openedSets t true })
  let t := sizeTier (updEng t (fun e => { e with dirPool := dirBlocksFor t, hostTier := [], dram := [], tc := [] }))
  let t := installMirror (updCad t (fun c => { c with debt := 0, firstWindow := true }))
  let t := failoverFates (cqTaken.foldl takePosted t)
  let t := resumeRebuild (failMissing (eraseReleased (closeAll t found)))
  (profileNums t).foldl sealIfSpent (updKf (clearMirror t) (fun k => { k with restartStep := 0 }))

theorem takeOver_eq (s : State) (cqTaken : List PostedRef) (scan : List PageRec) (found : RestartFind) (surveys : List (Nat × BaySurvey)) :
    takeOver s cqTaken scan found surveys =
      settleReady (raiseEvent (setFlags (takenOver s cqTaken scan found surveys) [(bNotReady, false)]) 8 3 (roleNum .active) 0) := rfl

theorem station_takenOver (s : State) (cqTaken : List PostedRef) (scan : List PageRec) (found : RestartFind) (surveys : List (Nat × BaySurvey)) :
    station (takenOver s cqTaken scan found surveys) = station (seized s) := by
  unfold takenOver
  extract_lets bays learned reopened tiered mirrored fated resumed
  have hbays : station bays = station (seized s) := station_of_rest (rest_connectBays rfl ..)
  have hlearned : station learned = station bays := station_learned ..
  have htiered : station tiered = station learned := (station_renewTier ..).trans (station_updMedia ..)
  have hmirrored : station mirrored = station tiered := (station_of_rest (rest_installMirror rfl _)).trans (station_updCad ..)
  have hfated : station fated = station mirrored := (station_failoverFates _).trans (station_foldl station_takePosted _ _)
  have hresumed : station resumed = station fated := by
    unfold resumed
    rw [station_resumeRebuild, station_failMissing, station_eraseReleased, station_closeAll]
  rw [station_foldl station_sealIfSpent, station_updKf, station_clearMirror, hresumed, hfated, hmirrored, htiered, hlearned, hbays]

theorem station_takeOver {s : State} (hhold : s.twin.hold = false) (cqTaken : List PostedRef) (scan : List PageRec) (found : RestartFind)
    (surveys : List (Nat × BaySurvey)) : station (takeOver s cqTaken scan found surveys) =
      (true, .active, .fenced, some s.now, satAdd 0xFFFF s.twin.takeOvers 1, s.twin.gapPins, failedSet s) := by
  rw [takeOver_eq, station_of_rest (rest_settleReady rfl _), station_raiseEvent, station_setFlags _ (by decide), station_takenOver, station_seized hhold]

theorem notReady_takeOver {s : State} (hhold : s.twin.hold = false) (hok : failedSet s = false) (cqTaken : List PostedRef) (scan : List PageRec)
    (found : RestartFind) (surveys : List (Nat × BaySurvey)) : notReady (takeOver s cqTaken scan found surveys) = false := by
  have htaken := (station_takenOver s cqTaken scan found surveys).trans (station_seized hhold)
  simp only [station, Prod.mk.injEq] at htaken
  obtain ⟨-, -, -, -, -, -, hfailed⟩ := htaken
  rw [notReady, takeOver_eq, cond_of_rest (rest_settleReady (L := but .cond) rfl _) rfl, raiseEvent_cond]
  exact flag_setFlags_single (hfailed.trans hok) (by decide) (by decide) (by decide) false

/-! ## A take-over with a gap (R401) -/

/-- The chip that fences its silent partner and shows the gap at its status outputs. -/
def gapFenced (s : State) : State :=
  let t := setFlags s [(bNotReady, true), (bTwinSolo, true)]
  let t := updTwin t (fun x => { x with gapPins := true })
  countTakeOver (clearMirror (fence (raiseEvent t 8 2 (roleNum .active) 0)))

def logOfGap (t : State) (p : Port) : State := beginLog t p 5 t.csnNext t.twin.hbAet.toNat t.twin.hbCsn []

/-- The chip that owns the medium as its partner left it. -/
def fallenTo (s : State) (found : ImportResult) (surveys : List (Nat × BaySurvey)) : State :=
  logOfGap (logOfGap (claimStands (gapFenced s) (some found) surveys false) .a) .b

theorem station_logOfGap (s : State) (p : Port) : station (logOfGap s p) = station s := station_of_rest (rest_beginLog rfl ..)

theorem station_gapFenced {s : State} (hhold : s.twin.hold = false) : station (gapFenced s) =
    (s.twin.own, s.twin.role, s.twin.partnerRole, some s.now, satAdd 0xFFFF s.twin.takeOvers 1, true, failedSet s) := by
  have hheld : (raiseEvent (updTwin (setFlags s [(bNotReady, true), (bTwinSolo, true)]) (fun x => { x with gapPins := true })) 8 2
      (roleNum .active) 0).twin.hold = false := hhold
  simp only [gapFenced, fence_eq hheld, station, countTakeOver, clearMirror, failedSet_updTwin, failedSet_raiseEvent,
    updTwin_twin, raiseEvent_twin, setFlags_twin, raiseEvent_now, updTwin_now, setFlags_now]
  rw [failedSet_setFlags s (by decide)]

theorem station_fallenTo {s : State} (hhold : s.twin.hold = false) (found : ImportResult) (surveys : List (Nat × BaySurvey)) :
    station (fallenTo s found surveys) = (true, .active, .fenced, some s.now, satAdd 0xFFFF s.twin.takeOvers 1, true, failedSet s) := by
  have hfenced := station_gapFenced hhold
  simp only [station, Prod.mk.injEq] at hfenced
  obtain ⟨-, -, -, hfrom, htakeOvers, hpins, hfailed⟩ := hfenced
  rw [fallenTo, station_logOfGap, station_logOfGap, station_claimStands, station_takeOwnership, hfrom, htakeOvers, hpins, hfailed, if_pos rfl]

/-! ## The commands -/

section
variable {s : State} {cyc : Nat} (hcyc : cyc ≤ s.now) (hruns : twinRuns s = true) (hstop : s.jrnl.stopFrom = none) (hok : failedSet s = false)
  (hhold : s.twin.hold = false)

/-- The chip that looks at its partner's claim. -/
def claimer (x : Nat × Nat × Nat) (high : Nat) (s : State) : State :=
  updTwin (counted x s) (fun y => { y with peerOwn := if y.en then high == 0 else y.peerOwn })

section
variable (high : Nat) (after : Bool) (found : Option ImportResult) (surveys : List (Nat × BaySurvey)) (hown : s.twin.own = false)
include hcyc hruns hstop hok hhold hown

/-- A chip in service that does not own the medium acts on the claim as its role says. -/
theorem exec_ownershipClaim : ∃ x, exec (.ownershipClaim cyc high after found surveys) s =
    (let t := claimer x high s
    if s.twin.role == .standby && s.twin.handOverIn && 0 < high then settled (takeHandOver t found surveys)
    else if s.twin.role != .fenced || s.kf.restartStep != 1 || !mayClaim s high then settled t
    else if after && s.twin.seat then settled (updTwin t (fun x => { x with peerOwn := true }))
    else settled (claimStands t found surveys true)) := by
  obtain ⟨x, hx⟩ := twinTime_past hcyc
  refine ⟨x, (?_ : execOwnershipClaim cyc high after found surveys s = _)⟩
  rw [execOwnershipClaim, hx]
  exact if_neg (by simp [hruns, hhold, hown, hok, hstop] : ¬ (!twinRuns s || s.twin.hold || s.twin.own || failedSet s || s.jrnl.stopFrom.isSome) = true)

theorem ownershipClaim_fenced (hrole : s.twin.role = .fenced) (hstep : s.kf.restartStep = 1) (hmay : mayClaim s high = true) :
    (after = false ∨ s.twin.seat = false → ∃ t, exec (.ownershipClaim cyc high after found surveys) s = .next t ∧
      (t.twin.own = true ∧ t.twin.role = .active) ∧ t.twin.partnerRole = .fenced) ∧
    (after = true → s.twin.seat = true → ∃ t, exec (.ownershipClaim cyc high after found surveys) s = .next t ∧
      t.twin.own = false ∧ t.twin.role = .fenced) := by
  obtain ⟨x, hx⟩ := exec_ownershipClaim hcyc hruns hstop hok hhold high after found surveys hown
  have hjudged : exec (.ownershipClaim cyc high after found surveys) s =
      if after && s.twin.seat then settled (updTwin (claimer x high s) (fun x => { x with peerOwn := true }))
      else settled (claimStands (claimer x high s) found surveys true) := by
    rw [hx]
    simp [hrole, hstep, hmay]
  rw [hjudged]
  refine ⟨fun hfirst => ?stands, fun hafter hseat => ?yields⟩
  case stands =>
    have hgo : (after && s.twin.seat) = false := by rcases hfirst with h | h <;> simp [h]
    have hstands := (station_endCycle _).trans ((station_claimStands (claimer x high s) found surveys true).trans (station_takeOwnership _ true))
    simp only [station, Prod.mk.injEq] at hstands
    obtain ⟨hown, hrole, hpartner, -⟩ := hstands
    exact ⟨_, by rw [hgo]; rfl, ⟨hown, hrole⟩, hpartner⟩
  case yields =>
    refine ⟨endCycle (updTwin (claimer x high s) (fun x => { x with peerOwn := true })), by rw [hafter, hseat]; rfl, ?_⟩
    rw [endCycle_twin]
    exact ⟨hown, hrole⟩

theorem ownershipClaim_handOver (hrole : s.twin.role = .standby) (hover : s.twin.handOverIn = true) (hhigh : 0 < high) :
    ∃ t, exec (.ownershipClaim cyc high after found surveys) s = .next t ∧ (t.twin.own = true ∧ t.twin.role = .active) ∧
      t.twin.partnerRole = .standby := by
  obtain ⟨x, hx⟩ := exec_ownershipClaim hcyc hruns hstop hok hhold high after found surveys hown
  have hstands := (station_endCycle _).trans ((station_takeHandOver (claimer x high s) found surveys).trans (station_takeOwnership _ false))
  simp only [station, Prod.mk.injEq] at hstands
  obtain ⟨hown, hactive, hpartner, -⟩ := hstands
  exact ⟨_, hx.trans (by simp only [hrole, hover, hhigh]; rfl), ⟨hown, hactive⟩, hpartner⟩

end

include hcyc hruns hstop hhold

include hok in
theorem uncleanTakeOver_owns (found : ImportResult) (surveys : List (Nat × BaySurvey)) (hrole : s.twin.role = .syncing ∨ s.twin.role = .fenced)
    (hstep : s.kf.restartStep = 1) (hquiet : bothQuiet s 2002000000 = true) :
    ∃ t, exec (.uncleanTakeOver cyc found surveys) s = .next t ∧ (t.twin.own = true ∧ t.twin.role = .active) ∧ t.twin.fenceFrom = some s.now ∧
      t.twin.gapPins = true ∧ t.twin.takeOvers = satAdd 0xFFFF s.twin.takeOvers 1 := by
  obtain ⟨x, hx⟩ := twinTime_past hcyc
  have hexec : exec (.uncleanTakeOver cyc found surveys) s = settled (fallenTo (counted x s) found surveys) := by
    show execUncleanTakeOver cyc found surveys s = _
    simp only [execUncleanTakeOver, hx, fallenTo, gapFenced, logOfGap]
    exact if_neg (by rcases hrole with hr | hr <;> simp [hruns, hr, hhold, hok, hstop, hstep, hquiet] :
      ¬ (!twinRuns s || !(s.twin.role == .syncing || s.twin.role == .fenced) || s.twin.hold || failedSet s || s.jrnl.stopFrom.isSome ||
        s.kf.restartStep != 1 || !bothQuiet s 2002000000) = true)
  have hstands := (station_endCycle _).trans (station_fallenTo (s := counted x s) hhold found surveys)
  simp only [station, Prod.mk.injEq] at hstands
  obtain ⟨hown, hactive, -, hfrom, htakeOvers, hpins, -⟩ := hstands
  exact ⟨_, hexec, ⟨hown, hactive⟩, hfrom, hpins, htakeOvers⟩

include hok in
theorem partnerLoss_standby (taken : List PostedRef) (scan : List PageRec) (found : RestartFind) (surveys : List (Nat × BaySurvey))
    (hrole : s.twin.role = .standby) (hlost : bothQuiet s 2000000 = true ∨ flag s.twin.hbCond bFailed = true) :
    ∃ t, exec (.partnerLoss cyc taken scan found surveys) s = .next t ∧ (t.twin.own = true ∧ t.twin.role = .active) ∧ t.twin.fenceFrom = some s.now ∧
      t.twin.takeOvers = satAdd 0xFFFF s.twin.takeOvers 1 ∧ notReady t = false := by
  obtain ⟨x, hx⟩ := twinTime_past hcyc
  have hexec : exec (.partnerLoss cyc taken scan found surveys) s = settled (takeOver (counted x s) taken scan found surveys) := by
    show execPartnerLoss cyc taken scan found surveys s = _
    rw [execPartnerLoss, hx]
    have hserves : ¬ (!twinRuns s || s.jrnl.stopFrom.isSome) = true := by simp [hruns, hstop]
    have hstandby : (s.twin.role == .standby) = true := by simp [hrole]
    have htakes : (!s.twin.hold && (bothQuiet s 2000000 || flag s.twin.hbCond bFailed)) = true := by simpa [hhold] using hlost
    exact (if_neg hserves).trans ((if_pos hstandby).trans (if_pos htakes))
  have hstands := (station_endCycle _).trans (station_takeOver (s := counted x s) hhold taken scan found surveys)
  simp only [station, Prod.mk.injEq] at hstands
  obtain ⟨hown, hactive, -, hfrom, htakeOvers, -⟩ := hstands
  refine ⟨_, hexec, ⟨hown, hactive⟩, hfrom, htakeOvers, ?_⟩
  rw [notReady, endCycle_cond]
  exact notReady_takeOver (s := counted x s) hhold hok ..

theorem partnerLoss_active (taken : List PostedRef) (scan : List PageRec) (found : RestartFind) (surveys : List (Nat × BaySurvey))
    (hrole : s.twin.role = .active) (hpartner : s.twin.partnerRole ≠ .fenced) (hquiet : bothQuiet s 2000000 = true) :
    ∃ t, exec (.partnerLoss cyc taken scan found surveys) s = .next t ∧ (t.twin.partnerRole = .fenced ∧ t.twin.unacked = []) ∧
      t.twin.fenceFrom = some s.now := by
  obtain ⟨x, hx⟩ := twinTime_past hcyc
  have hexec : exec (.partnerLoss cyc taken scan found surveys) s = settled (raiseEvent (fence (goAlone (counted x s))) 8 2 (roleNum .active) 0) := by
    show execPartnerLoss cyc taken scan found surveys s = _
    rw [execPartnerLoss, hx]
    have hserves : ¬ (!twinRuns s || s.jrnl.stopFrom.isSome) = true := by simp [hruns, hstop]
    have hactive : ¬ (s.twin.role == .standby) = true := by simp [hrole]
    have hfences : (s.twin.role == .active && s.twin.partnerRole != .fenced && bothQuiet s 2000000) = true := by simp [hrole, hpartner, hquiet]
    exact (if_neg hserves).trans ((if_neg hactive).trans (if_pos hfences))
  refine ⟨_, hexec, ?_⟩
  rw [endCycle_twin, raiseEvent_twin, twin_fence_goAlone (s := counted x s) hhold]
  exact ⟨⟨rfl, rfl⟩, rfl⟩

end

end Sys2Proof.Proofs
end

section
/-! PROOFS. TWIN_CONTROL (R404, Table 16-7): its actions begin, are performed or are refused. -/
namespace Sys2Proof.Proofs
open Sys2Proof Sys2Proof.Machine Sys2Proof.Laws

theorem twinAction_begun {s : State} {cid action : Nat} {c : Ctx} (h : actionIn s cid 0x94 action = some c)
    (hmay : c.mapAsked = true ∨ actionAllowed s c.dw = true) (go : Ctx → State) : twinAction s cid action go = go c := by
  rcases hmay with hasked | hallowed
  · simp [twinAction, h, hasked]
  · simp [twinAction, h, hallowed]

theorem twinAction_refused {s : State} {cid action : Nat} {c : Ctx} (h : actionIn s cid 0x94 action = some c) (hasked : c.mapAsked = false)
    (hrefused : actionAllowed s c.dw = false) (go : Ctx → State) : twinAction s cid action go = refuseNow s cid 0x1002 0x30 := by
  simp [twinAction, h, hasked, hrefused]

/-! ## The commands held while the active goes alone -/

theorem exists_ctxOf_decide {s : State} {n : Nat} {c : Ctx} (hc : ctxOf s n = some c) (cid : Nat) (v : Verdict) :
    ∃ d, ctxOf (decide_ s cid v) n = some d := by
  by_cases hn : n = cid
  · subst hn
    obtain ⟨d, hd, -⟩ := ctxOf_decide v hc
    exact ⟨d, hd⟩
  · refine ⟨c, ?_⟩
    unfold decide_
    dsimp only
    split
    · exact hc
    · split
      · exact (ctxOf_updCtx_other hn).trans hc
      · rw [ctxOf_congr ((logError_ctxs ..).trans (freezeDecided_ctxs ..)), ctxOf_updCtx_other hn, hc]

theorem exists_ctxOf_refuseWaiting {s : State} {n : Nat} {c : Ctx} (hc : ctxOf s n = some c) (cid : Option Nat) :
    ∃ d, ctxOf (refuseWaiting s cid) n = some d := by
  cases cid with
  | none => exact ⟨c, hc⟩
  | some m => exact exists_ctxOf_decide hc m _

theorem exists_ctxOf_goAlone {s : State} {n : Nat} {c : Ctx} (hc : ctxOf s n = some c) : ∃ d, ctxOf (goAlone s) n = some d := by
  have hstand : ∀ t, ctxOf (settleStand t) n = ctxOf t n := fun t => ctxOf_congr (ctxs_of_rest (rest_settleStand (L := but .ctxs) rfl t) rfl) n
  unfold goAlone
  dsimp only
  rw [hstand]
  obtain ⟨d, hd⟩ := exists_ctxOf_refuseWaiting (s := updTwin (markDurable (setFlags s [(bTwinSolo, true)]) (fun _ => true))
    (fun x => { x with partnerRole := .fenced, unacked := [], syncEnd := none, handOver := none, pairing := none })) hc (s.twin.handOver.map (·.2))
  exact exists_ctxOf_refuseWaiting hd _

section
variable {s : State} {cid : Nat} {c : Ctx}

/-! ## PAIR and UNPAIR -/

theorem twinPair_begins (h : actionIn s cid 0x94 0 = some c) (hallowed : actionAllowed s c.dw = true) (hasked : c.mapAsked = false) :
    ∃ t, exec (.twinPair cid) s = .next t ∧ t.twin.pairing = some (s.twin.keysDrawn, none, some cid) ∧
      ∃ f ∈ t.twin.sent, f.frame = .pairKey (Config.pairPoint s.twin.keysDrawn) := by
  refine ⟨sendPairKey (askedTwin s cid) none (some cid), ?_, ?_, exists_sent_sendFrame ..⟩
  · show execTwinPair cid s = _
    rw [execTwinPair, twinAction_begun h (Or.inr hallowed), if_neg (by simp [hasked])]
  · exact field_of_offLink (offLink_sendPairKey ..) Twin.pairing

theorem twinPair_refused (h : actionIn s cid 0x94 0 = some c) (hrefused : actionAllowed s c.dw = false) (hasked : c.mapAsked = false) :
    ∃ t, exec (.twinPair cid) s = .next t ∧ endedStatus t cid 0x1002 := by
  refine ⟨refuseNow s cid 0x1002 0x30, ?_, ?_⟩
  · show execTwinPair cid s = _
    rw [execTwinPair, twinAction_refused h hasked hrefused]
  · exact endedStatus_decide { status := 0x1002, origin := 5, fieldOffset := 0x30 } (ctxOf_of_actionIn h) (by rw [stage_of_actionIn h]; nofun)

theorem twinUnpair_performed (h : actionIn s cid 0x94 1 = some c) (hallowed : actionAllowed s c.dw = true) (hasked : c.mapAsked = false)
    (hlanes : s.twin.lanes = 0) :
    ∃ t, exec (.twinUnpair cid) s = .next t ∧ endedWith t cid 0 0 ∧ t.twin.pairRec = none ∧ t.twin.partnerRole = .fenced := by
  let t := updTwin s (fun x => { x with pairRec := none })
  have hc : ctxOf t cid = some c := ctxOf_of_actionIn h
  obtain ⟨d, hd⟩ := exists_ctxOf_goAlone hc
  refine ⟨endCycle (performState (goAlone t) cid 3 0 0), ?_, endedWith_congr (endCycle_ctxs _) (endedWith_performState hd ..), ?_⟩
  · show execTwinUnpair cid s = _
    rw [execTwinUnpair, twinAction_begun h (Or.inr hallowed), if_neg (by simp [hasked]), hlanes]
    rfl
  · have hkept := offLink_performState (goAlone t) cid 3 0 0 none none none
    rw [twin_goAlone] at hkept
    rw [endCycle_twin]
    exact ⟨field_of_offLink hkept Twin.pairRec, field_of_offLink hkept Twin.partnerRole⟩

theorem twinUnpair_begins (h : actionIn s cid 0x94 1 = some c) (hallowed : actionAllowed s c.dw = true) (hasked : c.mapAsked = false)
    (hlanes : s.twin.lanes ≠ 0) :
    ∃ t, exec (.twinUnpair cid) s = .next t ∧ ctxOf t cid = some { c with mapAsked := true, awaitAck := some s.twin.txSeq } := by
  let t := sendFrame s (.state { csn := c.csn, status := 0, kind := 3, result0 := 0, result1 := 0, feature := none, queue := none, log := none, unpair := true })
  refine ⟨endCycle (updCtx t cid (fun c => { c with mapAsked := true, awaitAck := some s.twin.txSeq })), ?_, ?_⟩
  · show execTwinUnpair cid s = _
    rw [execTwinUnpair, twinAction_begun h (Or.inr hallowed), if_neg (by simp [hasked]), if_neg (by simp [hlanes])]
    rfl
  · have hc : ctxOf t cid = some c := (ctxOf_of_actionIn h : ctxOf s cid = some c)
    exact (ctxOf_congr (endCycle_ctxs _) cid).trans (ctxOf_updCtx hc fun _ h => h)

/-! ## HAND_OVER -/

theorem ctxs_dropFetched (s : State) : (dropFetched s).ctxs = s.ctxs.filter (fun c => c.stage != .fetched) := by
  unfold dropFetched
  simp only [updPort_ctxs]

theorem twinHandOver_begins (h : actionIn s cid 0x94 2 = some c) (hallowed : actionAllowed s c.dw = true) (hasked : c.mapAsked = false) :
    ∃ t, exec (.twinHandOver cid) s = .next t ∧ ctxOf t cid = some { c with mapAsked := true } ∧ ∀ x ∈ t.ctxs, x.stage ≠ .fetched := by
  refine ⟨dropFetched (askedTwin s cid), ?_, ?_, fun x hx => ?_⟩
  · show execTwinHandOver cid s = _
    rw [execTwinHandOver, twinAction_begun h (Or.inr hallowed), if_pos (by simp [hasked])]
  · have hheld : ctxOf (askedTwin s cid) cid = some { c with mapAsked := true } := ctxOf_updCtx (ctxOf_of_actionIn h) fun _ h => h
    rw [ctxOf, ctxs_dropFetched]
    exact find?_filter_of_kept (by simp [stage_of_actionIn h]) hheld
  · rw [ctxs_dropFetched] at hx
    simpa using (List.mem_filter.mp hx).2

theorem twin_padRows (l : List OpenSet) (s : State) : (l.foldl (fun t o => padOpenRow t o.seq) s).twin = s.twin :=
  view_foldl (fun t o => twin_of_rest (rest_padOpenRow (L := but .twin) rfl t o.seq) rfl) l s

theorem twinHandOver_tells (h : actionIn s cid 0x94 2 = some c) (hasked : c.mapAsked = true) (hpartner : s.twin.partnerRole = .standby)
    (hover : s.twin.handOver = none) (hlast : s.ctxs.all (fun x => x.cid == cid) = true)
    (hrows : rowsFinished (s.media.opens.foldl (fun t o => padOpenRow t o.seq) s) = true) :
    ∃ t, exec (.twinHandOver cid) s = .next t ∧ t.twin.handOver = some (s.twin.txSeq, cid) := by
  let t := s.media.opens.foldl (fun t o => padOpenRow t o.seq) s
  refine ⟨updTwin (sendFrame t (handOverFrame t)) (fun x => { x with handOver := some (t.twin.txSeq, cid) }), ?_, ?_⟩
  · show execTwinHandOver cid s = _
    rw [execTwinHandOver, twinAction_begun h (Or.inl hasked), if_neg (by simp [hasked]), if_neg (by simp [hpartner]), if_neg (by simp [hover, hlast])]
    dsimp only
    rw [if_neg (by simp [hrows])]
  · rw [updTwin_twin, show t.twin = s.twin from twin_padRows ..]

/-! ## FENCE_PARTNER -/

theorem twinFencePartner_fences {cyc : Nat} (hcyc : cyc ≤ s.now) (h : actionIn s cid 0x94 3 = some c) (hallowed : actionAllowed s c.dw = true)
    (hasked : c.mapAsked = false) (hhold : s.twin.hold = false) :
    ∃ t, exec (.twinFencePartner cid cyc) s = .next t ∧ t.twin.fenceFrom = some s.now ∧ t.twin.partnerRole = .fenced ∧ t.twin.unacked = [] := by
  obtain ⟨x, hx⟩ := twinTime_past hcyc
  have hturn : actionIn (counted x s) cid 0x94 3 = some c := h
  have hmay : actionAllowed (counted x s) c.dw = true := hallowed
  refine ⟨endCycle (fence (goAlone (askedTwin (counted x s) cid))), ?_, ?_⟩
  · show execTwinFencePartner cid cyc s = _
    rw [execTwinFencePartner, hx, twinAction_begun hturn (Or.inr hmay), if_neg (by simp [hasked])]
    rfl
  · rw [endCycle_twin, twin_fence_goAlone (s := askedTwin (counted x s) cid) hhold]
    exact ⟨rfl, rfl, rfl⟩

end

/-! ## O45 -/

/-- Settles O45: the supervision of the partner by the clock and the link, the claims and take-overs of a chip in service, and the actions of TWIN_CONTROL. -/
theorem twinIsSupervised : Obligations.TwinIsSupervised := by
  unfold Obligations.TwinIsSupervised
  intro s cyc hcyc hruns
  refine ⟨heartbeatSend_tells hcyc hruns, twinHbInEdge_told hcyc hruns, standbyLinkFallback_falls hcyc hruns, ackTimeout_alone hcyc hruns,
    fun c hfence hlate => fenceRelease_ends hcyc hfence hlate, frameResend_repeats hcyc hruns, fun n hn => zynmiLinkTrained_greets hruns hn,
    zynmiLinkDown_drops hcyc hruns, fun hstop hok hhold => ⟨?claims, ?gap, ?loss⟩, fun cid c => ⟨?pair, ?unpair, ?handOver, ?fencePartner⟩⟩
  case claims =>
    exact fun high after found surveys hown =>
      ⟨ownershipClaim_fenced hcyc hruns hstop hok hhold high after found surveys hown,
        ownershipClaim_handOver hcyc hruns hstop hok hhold high after found surveys hown⟩
  case gap => exact uncleanTakeOver_owns hcyc hruns hstop hok hhold
  case loss =>
    exact fun taken scan found surveys =>
      ⟨partnerLoss_standby hcyc hruns hstop hok hhold taken scan found surveys, partnerLoss_active hcyc hruns hstop hhold taken scan found surveys⟩
  case pair =>
    exact fun h hasked => ⟨fun hallowed => twinPair_begins h hallowed hasked, fun hrefused => twinPair_refused h hrefused hasked⟩
  case unpair =>
    exact fun h hallowed hasked => ⟨twinUnpair_performed h hallowed hasked, twinUnpair_begins h hallowed hasked⟩
  case handOver =>
    exact fun h => ⟨fun hasked hallowed => twinHandOver_begins h hallowed hasked, twinHandOver_tells h⟩
  case fencePartner =>
    exact fun h hallowed hasked hhold => twinFencePartner_fences hcyc h hallowed hasked hhold

end Sys2Proof.Proofs
end

section
/-! PROOFS. What one step does with its command (R53): it runs the command at the front of the queue, which completes and keeps its frame. -/
namespace Sys2Proof.Proofs
open Sys2Proof Sys2Proof.Machine Sys2Proof.Laws

theorem step_of_pending_cons {s : State} {c : Instr} {rest : List Instr} (h : s.pending = c :: rest) : step s = exec c { s with pending := rest } := by
  rw [step, h]

theorem step_of_pending_nil {s : State} (h : s.pending = []) : step s = .next s := by
  rw [step, h]

/-- Settles O1: by the two forms of the queue. -/
theorem stepRunsTheFrontCommand : Obligations.StepRunsTheFrontCommand := by
  unfold Obligations.StepRunsTheFrontCommand
  exact fun s => ⟨fun c rest h => step_of_pending_cons h, fun h => step_of_pending_nil h⟩

/-- The list of a command's parts covers itself. -/
theorem sub_own_parts (L : List Part) : sub L L = true := by
  simp [sub, has]

/-- Settles O2: the parts that a command's own law leaves, read off one by one. -/
theorem everyCommandKeepsItsFrame : Obligations.EveryCommandKeepsItsFrame := by
  unfold Obligations.EveryCommandKeepsItsFrame
  intro i s
  obtain ⟨t, ht, hrest⟩ := rest_exec (L := touches i) i s (sub_own_parts _)
  obtain ⟨hpending, hsame⟩ := same_of_rest hrest
  refine ⟨t, ht, hpending, fun p hp => hsame p ?_⟩
  simpa [has] using hp

end Sys2Proof.Proofs
end

section
/-! PROOFS. The sideband target (R507, R510, R511): its answers to the common command codes, a write cut short, and the end of ACT_N's low period. -/
namespace Sys2Proof.Proofs
open Sys2Proof Sys2Proof.Machine Sys2Proof.Laws

/-! ## Common command codes (R510) -/

theorem sbAnswer_live {s : State} (h : s.kf.porst = false) (f : State → State) : sbAnswer s f = .next (f s) := by
  simp [sbAnswer, h]

/-- Of the bits of GETBCR those that R510 denies are clear. -/
theorem bcrByte_denied : bcrByte.getLsbD 1 = false ∧ bcrByte.getLsbD 5 = false ∧ bcrByte.getLsbD 6 = false := by
  simp only [bcrByte, BitVec.getLsbD_and]
  exact ⟨Bool.and_false _, Bool.and_false _, Bool.and_false _⟩

theorem exec_rstdaa {s : State} (h : s.kf.porst = false) : exec .rstdaa s = .next (setDyn s none) := sbAnswer_live h (setDyn · none)

theorem exec_getpid {s : State} (h : s.kf.porst = false) : exec .getpid s = .next (cccBytes s pidBytes) := sbAnswer_live h (cccBytes · pidBytes)

theorem exec_getbcr {s : State} (h : s.kf.porst = false) : exec .getbcr s = .next (cccBytes s [bcrByte]) := sbAnswer_live h (cccBytes · [bcrByte])

theorem exec_getdcr {s : State} (h : s.kf.porst = false) : exec .getdcr s = .next (cccBytes s [Config.i3cDcr]) :=
  sbAnswer_live h (cccBytes · [Config.i3cDcr])

theorem exec_entdaa {s : State} (h : s.kf.porst = false) (a : BitVec 7) (won : Bool) :
    exec (.entdaa a won) s = .next (if won then setDyn (cccBytes s (pidBytes ++ [bcrByte, Config.i3cDcr])) (some a) else s) :=
  sbAnswer_live h _

theorem exec_setdasa {s : State} (h : s.kf.porst = false) (st a : BitVec 7) :
    exec (.setdasa st a) s = .next (if st.toNat = staticAddr s then setDyn s (some a) else s) := by
  rw [exec, execSetdasa, sbAnswer_live h]
  simp only [beq_iff_eq]

theorem exec_setnewda {s : State} (h : s.kf.porst = false) (o a : BitVec 7) :
    exec (.setnewda o a) s = .next (if s.side.dyn = some o then setDyn s (some a) else s) := by
  rw [exec, execSetnewda, sbAnswer_live h]
  simp only [beq_iff_eq]

/-- GETSTATUS draws the value of its two bytes (assumption 30). -/
theorem exec_getstatus {s : State} (h : s.kf.porst = false) :
    exec .getstatus s = .next (drawFree (cccBytes s (beBytes 2 (freeNow s).toNat))) :=
  sbAnswer_live h (fun t => drawFree (cccBytes t (beBytes 2 (freeNow t).toNat)))

theorem length_beBytes (n v : Nat) : (beBytes n v).length = n := by
  simp [beBytes]

/-! ## Writes cut short (R511) -/

/-- SB_ERRORS after a write cut short: each count moves by its own error alone. -/
theorem sbWriteErrors_eq (s : State) (off n : Nat) (ok : Bool) :
    sbWriteErrors s off n ok = { s with side := { s.side with
      misaligned := if off % 4 ≠ 0 ∨ 0x8FF < off then satAdd 0xFF s.side.misaligned 1 else s.side.misaligned
      shortWrite := if n < 4 then satAdd 0xFF s.side.shortWrite 1 else s.side.shortWrite
      pecFail := if s.side.pec = true ∧ ok = false then satAdd 0xFF s.side.pecFail 1 else s.side.pecFail } } := by
  have hbad : sbBadAddr off = true ↔ off % 4 ≠ 0 ∨ 0x8FF < off := by simp [sbBadAddr]
  have hpec : (s.side.pec && !ok) = true ↔ s.side.pec = true ∧ ok = false := by simp
  simp only [sbWriteErrors, hbad, hpec]
  split <;> split <;> split <;> rfl

theorem exec_sbRegisterWriteShort {s : State} (h : s.kf.porst = false) (off n : Nat) (ok : Bool) :
    exec (.sbRegisterWriteShort off n ok) s = .next (sbWriteErrors s off n ok) :=
  sbAnswer_live h (sbWriteErrors · off n ok)

/-! ## ACT_N (R507) -/

theorem actLow_after_stretch {s : State} (h : anyAdmitted s = false) : actLow (updSide s (fun x => { x with actUntil := none })) = false := by
  have hadm : anyAdmitted (updSide s (fun x => { x with actUntil := none })) = anyAdmitted s := rfl
  simp [actLow, hadm, h]

theorem exec_actNStretchEnd_over {s : State} {cyc u : Nat} (hcyc : cyc ≤ s.now) (hu : s.side.actUntil = some u) (hover : u ≤ s.now)
    (hidle : anyAdmitted s = false) : exec (.actNStretchEnd cyc) s = .next (updSide s (fun x => { x with actUntil := none })) := by
  have hlate : ¬ s.now < u := by omega
  simp [exec, execActNStretchEnd, advanceTo_past hcyc, hidle, hu, hlate]

theorem exec_actNStretchEnd_early {s : State} {cyc u : Nat} (hcyc : cyc ≤ s.now) (hu : s.side.actUntil = some u) (hearly : s.now < u) :
    exec (.actNStretchEnd cyc) s = .next s := by
  simp [exec, execActNStretchEnd, advanceTo_past hcyc, hu, hearly]

/-- Settles O60: the command codes one by one, a write cut short by its three errors, ACT_N by whether its 20 ms have run. -/
theorem sidebandTargetAnswers : Obligations.SidebandTargetAnswers := by
  unfold Obligations.SidebandTargetAnswers
  refine fun s => ⟨fun h => ⟨fun off n ok => ?short, exec_rstdaa h, fun a => exec_entdaa h a true, fun a => exec_entdaa h a false,
    fun st a hst => ?mine, fun st a hst => ?other, fun o a ho => ?renamed, fun o a ho => ?unnamed, exec_getpid h,
    ⟨_, exec_getbcr h, bcrByte_denied⟩, exec_getdcr h, ⟨_, exec_getstatus h, length_beBytes 2 _⟩⟩,
    fun cyc hcyc => ⟨fun u hu hover hidle => ?rises, fun u hu hearly => exec_actNStretchEnd_early hcyc hu hearly⟩⟩
  case short => exact ⟨_, exec_sbRegisterWriteShort h off n ok, sbWriteErrors_eq s off n ok⟩
  case mine =>
    rw [exec_setdasa h, if_pos (show st.toNat = staticAddr s from hst)]
    rfl
  case other => rw [exec_setdasa h, if_neg (show ¬ st.toNat = staticAddr s from hst)]
  case renamed =>
    rw [exec_setnewda h, if_pos ho]
    rfl
  case unnamed => rw [exec_setnewda h, if_neg ho]
  case rises => exact ⟨_, exec_actNStretchEnd_over hcyc hu hover hidle, actLow_after_stretch hidle⟩

end Sys2Proof.Proofs
end

section
/-! PROOFS. Counters (R485 to R487, R490, R491, R494, R495): what a command slot counts, the writes of CNT_CTRL, CNT_SEL and PSC_HEAD, snapshots, and what a
read of a counter finds. -/
namespace Sys2Proof.Proofs
open Sys2Proof Sys2Proof.Machine Sys2Proof.Laws

/-! ## Command slots (R490) -/

theorem countFixed_of_run {s : State} (h : s.ctr.run = true) (i n : Nat) :
    countFixed s i n = updCtr s (fun c => { c with live := c.live.modify i (· + n) }) := by
  simp [countFixed, h]

/-- The counter of 2 to 5 that a command slot advances. -/
def slotCounter (s : State) : Nat :=
  match takeUnit (s.ctr.retire.filter (fun r => judgedPort s r.port)) with
  | some (ok, _) => if ok then 2 else 3
  | none => if commandInFlight s then 5 else 4

theorem slotCounter_of_unit {s : State} {r : Retire} {rs : List Retire} (h : s.ctr.retire.filter (fun r => judgedPort s r.port) = r :: rs)
    (hunits : 0 < r.units) : slotCounter s = if r.ok then 2 else 3 := by
  have hnonzero : (r.units == 0) = false := by simpa using Nat.ne_of_gt hunits
  simp [slotCounter, h, takeUnit, hnonzero]

theorem slotCounter_of_empty {s : State} (h : s.ctr.retire.filter (fun r => judgedPort s r.port) = []) :
    slotCounter s = if commandInFlight s then 5 else 4 := by
  simp [slotCounter, h, takeUnit]

/-- A command slot adds one to SLOTS and to the counter that the retirement queue and the commands in flight name. -/
theorem exec_commandSlot {s : State} {cyc : Nat} (hcyc : cyc ≤ s.now) (hst : s.power.st < 2) (hporst : s.kf.porst = false) (hrun : s.ctr.run = true) :
    ∃ t, exec (.commandSlot cyc) s = .next t ∧ t.ctr.live = (s.ctr.live.modify 1 (· + 1)).modify (slotCounter s) (· + 1) := by
  have hclock : ¬ (2 ≤ s.power.st ∨ s.kf.porst = true) := by simp [hporst]; omega
  have hslots := countFixed_of_run hrun 1 1
  simp only [exec, execCommandSlot, advanceTo_past hcyc, Bool.or_eq_true, decide_eq_true_eq, if_neg hclock, hslots]
  have hqueue : (updCtr s fun c => { c with live := c.live.modify 1 (· + 1) }).ctr.retire.filter
      (fun r => judgedPort (updCtr s fun c => { c with live := c.live.modify 1 (· + 1) }) r.port) = s.ctr.retire.filter (fun r => judgedPort s r.port) := rfl
  rw [hqueue]
  split
  next ok rest hunit =>
    have hslot : slotCounter s = if ok then 2 else 3 := by simp only [slotCounter, hunit]
    exact ⟨_, rfl, by rw [countFixed_of_run (by exact hrun), hslot]; rfl⟩
  next hunit =>
    have hslot : slotCounter s = if commandInFlight s then 5 else 4 := by simp only [slotCounter, hunit]
    exact ⟨_, rfl, by rw [countFixed_of_run (by exact hrun), hslot]; rfl⟩

/-! ## CNT_CTRL (R486, R487) -/

theorem fromPort_of_ne {req : Requester} (h : req ≠ .sideband) : fromPort req = true := by
  cases req <;> first | rfl | exact absurd rfl h

theorem exec_cntClear {req : Requester} (h : req ≠ .sideband) (v : Word) (s : State) : exec (.cntClear req v) s = .next (writeCntCtrl s v) := by
  simp [exec, execCntClear, fromPort_of_ne h]

theorem exec_cntSnap {req : Requester} (h : req ≠ .sideband) (v : Word) {cyc : Nat} {s : State} (hcyc : cyc ≤ s.now) :
    exec (.cntSnap req v cyc) s = .next (writeCntCtrl s v) := by
  simp [exec, execCntSnap, fromPort_of_ne h, advanceTo_past hcyc]

/-- A trigger leaves every register of the counters but the snapshot that is collected. -/
theorem trigSnap_frame (s : State) : (trigSnap s).ctr.live = s.ctr.live ∧ (trigSnap s).ctr.epoch = s.ctr.epoch ∧ (trigSnap s).ctr.run = s.ctr.run ∧
    (trigSnap s).ctr.snapOnWindow = s.ctr.snapOnWindow := by
  simp only [trigSnap, updCtr_ctr]
  split <;> exact ⟨rfl, rfl, rfl, rfl⟩

theorem trigSnap_idle {s : State} (h : s.ctr.collecting = none) :
    (trigSnap s).ctr.collecting = some (s.ctr.live, s.cad.aet, retireBacklog s, s.now + 32) := by
  simp [trigSnap, h]

theorem trigSnap_busy {s : State} (h : s.ctr.collecting ≠ none) : (trigSnap s).ctr.collecting = s.ctr.collecting ∧ (trigSnap s).ctr.held = true := by
  obtain ⟨x, hx⟩ := Option.ne_none_iff_exists'.mp h
  simp [trigSnap, hx]

theorem isSome_collecting_trigSnap (s : State) : (trigSnap s).ctr.collecting.isSome = true := by
  by_cases h : s.ctr.collecting = none
  · rw [trigSnap_idle h, Option.isSome_some]
  · rw [(trigSnap_busy h).1, Option.isSome_iff_ne_none]
    exact h

/-- The fields of CNT_CTRL stored, before its triggers act. -/
def storeCntCtrl (s : State) (v : Word) : State :=
  updCtr s (fun c =>
    { c with run := v.getLsbD 0, snapOnWindow := v.getLsbD 3, tdPort := if bits v.toNat 5 4 == 3 then c.tdPort else bits v.toNat 5 4 })

theorem writeCntCtrl_clear {s : State} {v : Word} (h : v.getLsbD 1 = true) :
    (writeCntCtrl s v).ctr.live = s.ctr.live.map (fun _ => 0) ∧ (writeCntCtrl s v).ctr.epoch = (s.ctr.epoch + 1) % 65536 ∧
      (writeCntCtrl s v).ctr.run = v.getLsbD 0 ∧ (writeCntCtrl s v).ctr.snapOnWindow = v.getLsbD 3 := by
  have hwrite : writeCntCtrl s v = clearCounters (if v.getLsbD 2 then trigSnap (storeCntCtrl s v) else storeCntCtrl s v) := by
    rw [writeCntCtrl, if_pos h]; rfl
  rw [hwrite]
  split
  · obtain ⟨hlive, hepoch, hrun, hwindow⟩ := trigSnap_frame (storeCntCtrl s v)
    exact ⟨congrArg (List.map fun _ => 0) hlive, congrArg (fun n => (n + 1) % 65536) hepoch, hrun, hwindow⟩
  · exact ⟨rfl, rfl, rfl, rfl⟩

/-- With SNAP written the snapshot is that of the counters before a CLEAR. -/
theorem writeCntCtrl_snap {s : State} {v : Word} (h : v.getLsbD 2 = true) :
    (writeCntCtrl s v).ctr.collecting = (trigSnap (storeCntCtrl s v)).ctr.collecting ∧
      (writeCntCtrl s v).ctr.held = (trigSnap (storeCntCtrl s v)).ctr.held := by
  have hwrite : writeCntCtrl s v =
      if v.getLsbD 1 then clearCounters (trigSnap (storeCntCtrl s v)) else trigSnap (storeCntCtrl s v) := by
    rw [writeCntCtrl, if_pos h]; rfl
  rw [hwrite]
  split <;> exact ⟨rfl, rfl⟩

/-! ## Snapshots (R486, R495) -/

theorem exec_snapshotReady {s : State} {cyc : Nat} {vals : List Nat} {aet backlog at_ : Nat} (hcyc : cyc ≤ s.now)
    (hcol : s.ctr.collecting = some (vals, aet, backlog, at_)) (hat : at_ ≤ s.now) :
    ∃ t, exec (.snapshotReady cyc) s = .next t ∧ t.ctr.snap = vals ∧ t.ctr.snapAet = aet ∧ t.ctr.snapBacklog = backlog ∧
      t.ctr.snapSeq = (s.ctr.snapSeq + 1) % 65536 ∧ t.ctr.live = s.ctr.live ∧ (s.ctr.held = false → t.ctr.collecting = none) ∧
      (s.ctr.held = true → t.ctr.collecting = some (s.ctr.live, s.cad.aet, retireBacklog s, s.now + 33)) := by
  have hripe : ¬ s.now < at_ := by omega
  simp only [exec, execSnapshotReady, advanceTo_past hcyc, hcol, if_neg hripe]
  cases hheld : s.ctr.held with
  | false => exact ⟨_, rfl, rfl, rfl, rfl, rfl, rfl, fun _ => rfl, fun h => absurd h (by decide)⟩
  | true => exact ⟨_, rfl, rfl, rfl, rfl, rfl, rfl, fun h => absurd h (by decide), fun _ => rfl⟩

theorem exec_mirrorSnapWrite {s : State} {v : Word} {cyc : Nat} (hcyc : cyc ≤ s.now) (hsnap : v.getLsbD 0 = true) (hon : s.power.domainsOff = false) :
    exec (.mirrorSnapWrite v cyc) s = .next (updCtr (trigSnap s) (fun c => { c with mirrorWait := snapsAhead s })) := by
  simp [exec, execMirrorSnapWrite, advanceTo_past hcyc, writeMirrorCtrl, hsnap, hon]

/-! ## CNT_SEL and PSC_HEAD (R487, R491, R494) -/

theorem exec_cntSelWrite_allowed {s : State} {req : Requester} {n : Nat} {v : Word} (hreq : req ≠ .sideband) (h8 : 8 ≤ n) (h47 : n ≤ 47)
    (hsel : selAllowed (bits v.toNat 7 0) (bits v.toNat 12 8) = true) :
    ∃ t, exec (.cntSelWrite req n v) s = .next t ∧ t.ctr.sel = s.ctr.sel.set (n - 8) (bits v.toNat 7 0, bits v.toNat 12 8) ∧
      t.ctr.live = s.ctr.live.set n 0 := by
  have hin : ¬ (n < 8 ∨ 47 < n) := by omega
  have hexec : exec (.cntSelWrite req n v) s = .next (writeCntSel s n v) := by simp only [exec, execCntSelWrite, fromPort_of_ne hreq, if_true]
  refine ⟨_, hexec, ?_⟩
  simp [writeCntSel, hin, hsel]

theorem exec_cntSelWrite_ignored {s : State} {req : Requester} {n : Nat} {v : Word} (hreq : req ≠ .sideband)
    (hsel : selAllowed (bits v.toNat 7 0) (bits v.toNat 12 8) = false) : exec (.cntSelWrite req n v) s = .next s := by
  simp [exec, execCntSelWrite, fromPort_of_ne hreq, writeCntSel, hsel]

theorem exec_pscHeadWrite {req : Requester} (h : req ≠ .sideband) (v : Word) (s : State) : exec (.pscHeadWrite req v) s = .next (writePscHead s v) := by
  simp [exec, execPscHeadWrite, fromPort_of_ne h]

/-! ## Reads (R485) -/

/-- The high half that a counter read has latched for its requester. -/
def latchedHigh (t : State) : Requester → Word
  | .portA => t.portA.ctrHi
  | .portB => t.portB.ctrHi
  | .sideband => t.ctr.sideHi

theorem latchCounter_spec (s : State) (req : Requester) (w : Word) :
    latchedHigh (latchCounter s req w) req = w ∧ (latchCounter s req w).readData = s.readData ∧ (latchCounter s req w).ctr.live = s.ctr.live := by
  cases req <;> exact ⟨rfl, rfl, rfl⟩

/-- A live counter is read with at most what R485 allows missing. -/
theorem counterValue_live (s : State) (n : Nat) :
    counterValue s false n ≤ s.ctr.live.getD n 0 ∧ s.ctr.live.getD n 0 ≤ counterValue s false n + counterSlack s n := by
  have hmiss : (freeNow s).toNat % (counterSlack s n + 1) < counterSlack s n + 1 := Nat.mod_lt _ (by omega)
  have hvalue : counterValue s false n = s.ctr.live.getD n 0 - (freeNow s).toNat % (counterSlack s n + 1) := rfl
  rw [hvalue]
  omega

theorem exec_counterLowRead (s : State) (req : Requester) (snapshot : Bool) {n : Nat} (hn : n < 48) :
    ∃ t, exec (.counterLowRead req snapshot n) s = .next t ∧ t.readData = lo32 (counterValue s snapshot n) ∧
      latchedHigh t req = hi32 (counterValue s snapshot n) ∧ t.ctr.live = s.ctr.live := by
  obtain ⟨hhigh, hlow, hlive⟩ := latchCounter_spec { s with readData := lo32 (counterValue s snapshot n) } req (hi32 (counterValue s snapshot n))
  refine ⟨readCounterLow s req snapshot n, by simp [exec, execCounterLowRead, hn], ?_⟩
  cases snapshot
  · exact ⟨hlow, by cases req <;> exact hhigh, hlive⟩
  · exact ⟨hlow, hhigh, hlive⟩

/-- Settles O59: each command by what it leaves of the counters. -/
theorem countersCountSnapAndClear : Obligations.CountersCountSnapAndClear := by
  unfold Obligations.CountersCountSnapAndClear
  refine fun s => ⟨fun cyc hcyc hst hporst hrun => ?slot, fun req v hreq => ⟨fun hclear => ?clear, fun cyc hcyc hsnap => ?snap⟩,
    fun cyc vals aet backlog at_ hcyc hcol hat => exec_snapshotReady hcyc hcol hat, fun v cyc hcyc hsnap hon => ?mirror,
    fun req n v hreq h8 h47 => ⟨fun hsel => exec_cntSelWrite_allowed hreq h8 h47 hsel, fun hsel => exec_cntSelWrite_ignored hreq hsel⟩,
    fun req n hn => ⟨?exact, ?live⟩, fun req v hreq => ⟨_, exec_pscHeadWrite hreq v s, rfl, rfl, rfl⟩⟩
  case slot =>
    obtain ⟨t, ht, hlive⟩ := exec_commandSlot hcyc hst hporst hrun
    exact ⟨t, slotCounter s, ht, hlive, fun r rs => slotCounter_of_unit, slotCounter_of_empty⟩
  case clear => exact ⟨_, exec_cntClear hreq v s, writeCntCtrl_clear hclear⟩
  case snap =>
    obtain ⟨hcol, hheld⟩ := writeCntCtrl_snap (s := s) hsnap
    refine ⟨_, exec_cntSnap hreq v hcyc, fun hidle => ?_, fun hbusy => ?_⟩
    · exact hcol.trans (trigSnap_idle (s := storeCntCtrl s v) hidle)
    · obtain ⟨hsame, hset⟩ := trigSnap_busy (s := storeCntCtrl s v) hbusy
      exact ⟨hcol.trans hsame, hheld.trans hset⟩
  case mirror => exact ⟨_, exec_mirrorSnapWrite hcyc hsnap hon, rfl, isSome_collecting_trigSnap s⟩
  case exact =>
    obtain ⟨t, ht, hlow, hhigh, -⟩ := exec_counterLowRead s req true hn
    exact ⟨t, ht, hlow, by cases req <;> exact hhigh⟩
  case live =>
    obtain ⟨t, ht, hlow, hhigh, hlive⟩ := exec_counterLowRead s req false hn
    obtain ⟨hle, hslack⟩ := counterValue_live s n
    exact ⟨t, _, ht, hle, hslack, hlow, by cases req <;> exact hhigh, hlive⟩

end Sys2Proof.Proofs
end

section
/-! PROOFS. Keeper flash in canonical form (R446, R447): the operations that leave its bytes, and those that write them by the memory operations alone. -/
namespace Sys2Proof.Proofs
open Sys2Proof Sys2Proof.Machine Sys2Proof.Laws

/-- The listed form of keeper flash is canonical. -/
def memOk (s : State) : Prop := memWf s.kf.mem = true

theorem memOk_of_eq {s t : State} (h : t.kf.mem = s.kf.mem) (hs : memOk s) : memOk t := by
  unfold memOk
  rwa [h]

theorem memOk_iff_of_rest {s t : State} (h : rest (but .kfMem) t = rest (but .kfMem) s) : memOk t ↔ memOk s := by
  unfold memOk
  rw [kfMem_of_rest h rfl]

theorem memOk_foldl {α : Type} {f : State → α → State} (hf : ∀ t a, memOk t → memOk (f t a)) (l : List α) {s : State} (h : memOk s) :
    memOk (l.foldl f s) := by
  induction l generalizing s with
  | nil => exact h
  | cons a l ih => exact ih (hf s a h)

/-! ## Operations that leave the bytes -/

@[simp] theorem memOk_updMedia (s : State) (f : Media → Media) : memOk (updMedia s f) ↔ memOk s := Iff.rfl
@[simp] theorem memOk_updMap (s : State) (f : MapImg → MapImg) : memOk (updMap s f) ↔ memOk s := Iff.rfl
@[simp] theorem memOk_updEng (s : State) (f : MapEng → MapEng) : memOk (updEng s f) ↔ memOk s := Iff.rfl
@[simp] theorem memOk_updJrnl (s : State) (f : Jrnl → Jrnl) : memOk (updJrnl s f) ↔ memOk s := Iff.rfl
@[simp] theorem memOk_updTwin (s : State) (f : Twin → Twin) : memOk (updTwin s f) ↔ memOk s := Iff.rfl
@[simp] theorem memOk_updPower (s : State) (f : Power → Power) : memOk (updPower s f) ↔ memOk s := Iff.rfl
@[simp] theorem memOk_updCad (s : State) (f : Cad → Cad) : memOk (updCad s f) ↔ memOk s := Iff.rfl
@[simp] theorem memOk_updSide (s : State) (f : Side → Side) : memOk (updSide s f) ↔ memOk s := Iff.rfl
@[simp] theorem memOk_updHealth (s : State) (f : Health → Health) : memOk (updHealth s f) ↔ memOk s := Iff.rfl
@[simp] theorem memOk_updCtx (s : State) (cid : Nat) (f : Ctx → Ctx) : memOk (updCtx s cid f) ↔ memOk s := Iff.rfl
@[simp] theorem memOk_updPort (s : State) (p : Port) (f : PortSt → PortSt) : memOk (updPort s p f) ↔ memOk s := by cases p <;> exact Iff.rfl
@[simp] theorem memOk_updBay (s : State) (b : Nat) (f : Bay → Bay) : memOk (updBay s b f) ↔ memOk s := Iff.rfl
@[simp] theorem memOk_updDie (s : State) (d : DieId) (f : DieSt → DieSt) : memOk (updDie s d f) ↔ memOk s := memOk_iff_of_rest (rest_updDie rfl ..)
@[simp] theorem memOk_updOpen (s : State) (seq : Nat) (f : OpenSet → OpenSet) : memOk (updOpen s seq f) ↔ memOk s := memOk_iff_of_rest (rest_updOpen rfl ..)
@[simp] theorem memOk_updRow (s : State) (seq row : Nat) (f : RowSt → RowSt) : memOk (updRow s seq row f) ↔ memOk s := memOk_iff_of_rest (rest_updRow rfl ..)
@[simp] theorem memOk_updKfReq (s : State) (side : Bool) (f : KfReq → KfReq) : memOk (updKfReq s side f) ↔ memOk s := memOk_iff_of_rest (rest_updKfReq rfl ..)
@[simp] theorem memOk_abandonEntry (s : State) (reason : Nat) : memOk (abandonEntry s reason) ↔ memOk s := memOk_iff_of_rest (rest_abandonEntry rfl ..)
@[simp] theorem memOk_advanceRewrite (s : State) (bay : Nat) (op : DieOp) (ok : Bool) : memOk (advanceRewrite s bay op ok) ↔ memOk s := memOk_iff_of_rest (rest_advanceRewrite rfl ..)
@[simp] theorem memOk_advanceTo (s : State) (cyc : Nat) : memOk (advanceTo s cyc) ↔ memOk s := memOk_iff_of_rest (rest_advanceTo rfl ..)
@[simp] theorem memOk_alignSystem (s : State) : memOk (alignSystem s) ↔ memOk s := memOk_iff_of_rest (rest_alignSystem rfl ..)
@[simp] theorem memOk_applyImage (s : State) (env : BootEnv) (k c i : Nat) : memOk (applyImage s env k c i) ↔ memOk s := memOk_iff_of_rest (rest_applyImage rfl ..)
@[simp] theorem memOk_armLock (s : State) : memOk (armLock s) ↔ memOk s := memOk_iff_of_rest (rest_armLock rfl ..)
@[simp] theorem memOk_askCkpt (s : State) (g : CkptTrigger) : memOk (askCkpt s g) ↔ memOk s := memOk_iff_of_rest (rest_askCkpt rfl ..)
@[simp] theorem memOk_askReset (s : State) (die : DieId) (op : DieOp) : memOk (askReset s die op) ↔ memOk s := memOk_iff_of_rest (rest_askReset rfl ..)
@[simp] theorem memOk_askVolt (s : State) (mv : Nat) : memOk (askVolt s mv) ↔ memOk s := memOk_iff_of_rest (rest_askVolt rfl ..)
@[simp] theorem memOk_askedTwin (s : State) (cid : Nat) : memOk (askedTwin s cid) ↔ memOk s := memOk_iff_of_rest (rest_askedTwin rfl ..)
@[simp] theorem memOk_beginCkpt (s : State) (g : CkptTrigger) (clean : Bool) : memOk (beginCkpt s g clean) ↔ memOk s := memOk_iff_of_rest (rest_beginCkpt rfl ..)
@[simp] theorem memOk_beginLogs (s : State) (kind : Nat) : memOk (beginLogs s kind) ↔ memOk s := memOk_iff_of_rest (rest_beginLogs rfl ..)
@[simp] theorem memOk_chargeEnd (s : State) (op : DieOp) (busy : Nat) : memOk (chargeEnd s op busy) ↔ memOk s := memOk_iff_of_rest (rest_chargeEnd rfl ..)
@[simp] theorem memOk_clearBay (s : State) (bay : Nat) : memOk (clearBay s bay) ↔ memOk s := memOk_iff_of_rest (rest_clearBay rfl ..)
@[simp] theorem memOk_clearMirror (s : State) : memOk (clearMirror s) ↔ memOk s := memOk_iff_of_rest (rest_clearMirror rfl ..)
@[simp] theorem memOk_closeAll (s : State) (found : RestartFind) : memOk (closeAll s found) ↔ memOk s := memOk_iff_of_rest (rest_closeAll rfl ..)
@[simp] theorem memOk_closeIfFull (s : State) (seq : Nat) : memOk (closeIfFull s seq) ↔ memOk s := memOk_iff_of_rest (rest_closeIfFull rfl ..)
@[simp] theorem memOk_completeLog (s : State) (p : Port) (new : List CmdRec) (unclean : Bool) : memOk (completeLog s p new unclean) ↔ memOk s := memOk_iff_of_rest (rest_completeLog rfl ..)
@[simp] theorem memOk_connectBays (s : State) (surveys : List (Nat × BaySurvey)) : memOk (connectBays s surveys) ↔ memOk s := memOk_iff_of_rest (rest_connectBays rfl ..)
@[simp] theorem memOk_countEvent (s : State) (e inst n : Nat) : memOk (countEvent s e inst n) ↔ memOk s := memOk_iff_of_rest (rest_countEvent rfl ..)
@[simp] theorem memOk_countTakeOver (s : State) : memOk (countTakeOver s) ↔ memOk s := memOk_iff_of_rest (rest_countTakeOver rfl ..)
@[simp] theorem memOk_decide_ (s : State) (cid : Nat) (v : Verdict) : memOk (decide_ s cid v) ↔ memOk s := memOk_iff_of_rest (rest_decide_ rfl ..)
@[simp] theorem memOk_declareLost (s : State) (k : SetRec) (row : Nat) (bad : List Madr) : memOk (declareLost s k row bad) ↔ memOk s := memOk_iff_of_rest (rest_declareLost rfl ..)
@[simp] theorem memOk_drawBytes (s : State) (n : Nat) : memOk (drawBytes s n) ↔ memOk s := memOk_iff_of_rest (rest_drawBytes rfl ..)
@[simp] theorem memOk_drawFree (s : State) : memOk (drawFree s) ↔ memOk s := memOk_iff_of_rest (rest_drawFree rfl ..)
@[simp] theorem memOk_endCrc (s : State) (side : Bool) (addr : Nat) : memOk (endCrc s side addr) ↔ memOk s := memOk_iff_of_rest (rest_endCrc rfl ..)
@[simp] theorem memOk_endCycle (s : State) : memOk (endCycle s) ↔ memOk s := memOk_iff_of_rest (rest_endCycle rfl ..)
@[simp] theorem memOk_endStop (s : State) : memOk (endStop s) ↔ memOk s := memOk_iff_of_rest (rest_endStop rfl ..)
@[simp] theorem memOk_enterRecovery (s : State) (cause : Nat) : memOk (enterRecovery s cause) ↔ memOk s := memOk_iff_of_rest (rest_enterRecovery rfl ..)
@[simp] theorem memOk_eraseDone (s : State) (b : Madr) : memOk (eraseDone s b) ↔ memOk s := memOk_iff_of_rest (rest_eraseDone rfl ..)
@[simp] theorem memOk_eraseFailed (s : State) (b : Madr) : memOk (eraseFailed s b) ↔ memOk s := memOk_iff_of_rest (rest_eraseFailed rfl ..)
@[simp] theorem memOk_eraseReleased (s : State) : memOk (eraseReleased s) ↔ memOk s := memOk_iff_of_rest (rest_eraseReleased rfl ..)
@[simp] theorem memOk_failRow (s : State) (k : SetRec) (r : Nat) : memOk (failRow s k r) ↔ memOk s := memOk_iff_of_rest (rest_failRow rfl ..)
@[simp] theorem memOk_failoverFates (s : State) : memOk (failoverFates s) ↔ memOk s := memOk_iff_of_rest (rest_failoverFates rfl ..)
@[simp] theorem memOk_fence (s : State) : memOk (fence s) ↔ memOk s := memOk_iff_of_rest (rest_fence rfl ..)
@[simp] theorem memOk_finishOps (s : State) : memOk (finishOps s) ↔ memOk s := memOk_iff_of_rest (rest_finishOps rfl ..)
@[simp] theorem memOk_finishRebuild (s : State) : memOk (finishRebuild s) ↔ memOk s := memOk_iff_of_rest (rest_finishRebuild rfl ..)
@[simp] theorem memOk_finishSet (s : State) (seq : Nat) : memOk (finishSet s seq) ↔ memOk s := memOk_iff_of_rest (rest_finishSet rfl ..)
@[simp] theorem memOk_handleOpen (s : State) (k : SetRec) (col : Nat) : memOk (handleOpen s k col) ↔ memOk s := memOk_iff_of_rest (rest_handleOpen rfl ..)
@[simp] theorem memOk_hitSaved (s : State) (cmd addr : Nat) : memOk (hitSaved s cmd addr) ↔ memOk s := memOk_iff_of_rest (rest_hitSaved rfl ..)
@[simp] theorem memOk_importCounters (s : State) (r : Found) (sjHigh : Nat) : memOk (importCounters s r sjHigh) ↔ memOk s := memOk_iff_of_rest (rest_importCounters rfl ..)
@[simp] theorem memOk_installMirror (s : State) : memOk (installMirror s) ↔ memOk s := memOk_iff_of_rest (rest_installMirror rfl ..)
@[simp] theorem memOk_issueOp (s : State) (op : DieOp) : memOk (issueOp s op) ↔ memOk s := memOk_iff_of_rest (rest_issueOp rfl ..)
@[simp] theorem memOk_issueVerify (s : State) (k : SetRec) (row : Nat) : memOk (issueVerify s k row) ↔ memOk s := memOk_iff_of_rest (rest_issueVerify rfl ..)
@[simp] theorem memOk_joinGroup (s : State) (bay : Nat) : memOk (joinGroup s bay) ↔ memOk s := memOk_iff_of_rest (rest_joinGroup rfl ..)
@[simp] theorem memOk_joinMember (s : State) (b : Nat) : memOk (joinMember s b) ↔ memOk s := memOk_iff_of_rest (rest_joinMember rfl ..)
@[simp] theorem memOk_journal (s : State) (body : JRec) : memOk (journal s body) ↔ memOk s := memOk_iff_of_rest (rest_journal rfl ..)
@[simp] theorem memOk_keepAlwaysOn (s r : State) : memOk (keepAlwaysOn s r) ↔ memOk r := memOk_iff_of_rest (rest_keepAlwaysOn rfl ..)
@[simp] theorem memOk_kfSet (s : State) (side : Bool) (n : Nat) : memOk (kfSet s side n) ↔ memOk s := memOk_iff_of_rest (rest_kfSet rfl ..)
@[simp] theorem memOk_kfSettle (s : State) : memOk (kfSettle s) ↔ memOk s := memOk_iff_of_rest (rest_kfSettle rfl ..)
@[simp] theorem memOk_kfWriteAddr (s : State) (side : Bool) (v : Nat) (pc : Option Nat) : memOk (kfWriteAddr s side v pc) ↔ memOk s := memOk_iff_of_rest (rest_kfWriteAddr rfl ..)
@[simp] theorem memOk_kfWriteCmd (s : State) (side : Bool) (v : Nat) : memOk (kfWriteCmd s side v) ↔ memOk s := memOk_iff_of_rest (rest_kfWriteCmd rfl ..)
@[simp] theorem memOk_kfWriteData (s : State) (side : Bool) (n : Nat) (v : Word) (pc : Option Nat) : memOk (kfWriteData s side n v pc) ↔ memOk s := memOk_iff_of_rest (rest_kfWriteData rfl ..)
@[simp] theorem memOk_kfWriteKey (s : State) (side : Bool) (v : Nat) : memOk (kfWriteKey s side v) ↔ memOk s := memOk_iff_of_rest (rest_kfWriteKey rfl ..)
@[simp] theorem memOk_learnPages (s : State) (pages : List PageRec) : memOk (learnPages s pages) ↔ memOk s := memOk_iff_of_rest (rest_learnPages rfl ..)
@[simp] theorem memOk_letGo (s : State) : memOk (letGo s) ↔ memOk s := memOk_iff_of_rest (rest_letGo rfl ..)
@[simp] theorem memOk_makeStripeRecord (s : State) (o : OpenSet) : memOk (makeStripeRecord s o) ↔ memOk s := memOk_iff_of_rest (rest_makeStripeRecord rfl ..)
@[simp] theorem memOk_mapTurn (s : State) : memOk (mapTurn s) ↔ memOk s := memOk_iff_of_rest (rest_mapTurn rfl ..)
@[simp] theorem memOk_markDurable (s : State) (ok : Nat → Bool) : memOk (markDurable s ok) ↔ memOk s := memOk_iff_of_rest (rest_markDurable rfl ..)
@[simp] theorem memOk_mirrorFrame (s : State) (f : Frame) : memOk (mirrorFrame s f) ↔ memOk s := memOk_iff_of_rest (rest_mirrorFrame rfl ..)
@[simp] theorem memOk_nextStep (s : State) : memOk (nextStep s) ↔ memOk s := memOk_iff_of_rest (rest_nextStep rfl ..)
@[simp] theorem memOk_noteWake (s : State) (code from_ : Nat) : memOk (noteWake s code from_) ↔ memOk s := memOk_iff_of_rest (rest_noteWake rfl ..)
@[simp] theorem memOk_openBlock (s : State) (m : Madr) : memOk (openBlock s m) ↔ memOk s := memOk_iff_of_rest (rest_openBlock rfl ..)
@[simp] theorem memOk_openSet (s : State) (stream : Stream) : memOk (openSet s stream) ↔ memOk s := memOk_iff_of_rest (rest_openSet rfl ..)
@[simp] theorem memOk_padToSettle (s : State) (seq : Nat) : memOk (padToSettle s seq) ↔ memOk s := memOk_iff_of_rest (rest_padToSettle rfl ..)
@[simp] theorem memOk_parkBays (s : State) (deep : Bool) : memOk (parkBays s deep) ↔ memOk s := memOk_iff_of_rest (rest_parkBays rfl ..)
@[simp] theorem memOk_perform (s : State) (cid : Nat) (r0 r1 : Word) (status : Half := 0) : memOk (perform s cid r0 r1 status) ↔ memOk s := Iff.rfl
@[simp] theorem memOk_performState (s : State) (cid : Nat) (kind : Nat) (r0 r1 : Word) (feature : Option (Nat × List Word) := none) (queue : Option QueueImage := none) (log : Option Port := none) : memOk (performState s cid kind r0 r1 feature queue log) ↔ memOk s := memOk_iff_of_rest (rest_performState rfl s cid kind r0 r1 feature queue log)
@[simp] theorem memOk_placePiece (s : State) (x : CkptPiece) : memOk (placePiece s x).1 ↔ memOk s := memOk_iff_of_rest (rest_placePiece rfl ..)
@[simp] theorem memOk_placePieces (s : State) (xs : List CkptPiece) : memOk (placePieces s xs).1 ↔ memOk s := memOk_iff_of_rest (rest_placePieces rfl ..)
@[simp] theorem memOk_portWrite (s : State) (p : Port) (reg : RegAddr) (v : Dword) (size : Nat) : memOk (portWrite s p reg v size) ↔ memOk s := memOk_iff_of_rest (rest_portWrite rfl ..)
@[simp] theorem memOk_pushRow (s : State) (seq : Nat) : memOk (pushRow s seq) ↔ memOk s := memOk_iff_of_rest (rest_pushRow rfl ..)
@[simp] theorem memOk_putPage (s : State) (p : PageRec) : memOk (putPage s p) ↔ memOk s := memOk_iff_of_rest (rest_putPage rfl ..)
@[simp] theorem memOk_quiesce (s : State) : memOk (quiesce s) ↔ memOk s := memOk_iff_of_rest (rest_quiesce rfl ..)
@[simp] theorem memOk_raiseEvent (s : State) (kind code p0 p1 : Nat) (only : Option Port := none) : memOk (raiseEvent s kind code p0 p1 only) ↔ memOk s := Iff.rfl
@[simp] theorem memOk_raiseTrigger (s : State) (seq severity : Nat) : memOk (raiseTrigger s seq severity) ↔ memOk s := memOk_iff_of_rest (rest_raiseTrigger rfl ..)
@[simp] theorem memOk_readCalibration (s : State) : memOk (readCalibration s) ↔ memOk s := memOk_iff_of_rest (rest_readCalibration rfl ..)
@[simp] theorem memOk_readFailed (s : State) (page : Madr) : memOk (readFailed s page) ↔ memOk s := memOk_iff_of_rest (rest_readFailed rfl ..)
@[simp] theorem memOk_readWhole (s : State) (page : Madr) : memOk (readWhole s page) ↔ memOk s := memOk_iff_of_rest (rest_readWhole rfl ..)
@[simp] theorem memOk_recomputeHorizon (s : State) : memOk (recomputeHorizon s) ↔ memOk s := memOk_iff_of_rest (rest_recomputeHorizon rfl ..)
@[simp] theorem memOk_recordFail (s : State) (b : Nat) (die : Option Nat) : memOk (recordFail s b die) ↔ memOk s := memOk_iff_of_rest (rest_recordFail rfl ..)
@[simp] theorem memOk_recoverNow (s : State) : memOk (recoverNow s) ↔ memOk s := memOk_iff_of_rest (rest_recoverNow rfl ..)
@[simp] theorem memOk_refuseNow (s : State) (cid : Nat) (status : Half) (fieldOffset : Nat) : memOk (refuseNow s cid status fieldOffset) ↔ memOk s := memOk_iff_of_rest (rest_refuseNow rfl ..)
@[simp] theorem memOk_refuseWaiting (s : State) (cid : Option Nat) : memOk (refuseWaiting s cid) ↔ memOk s := memOk_iff_of_rest (rest_refuseWaiting rfl ..)
@[simp] theorem memOk_releaseHost (s : State) : memOk (releaseHost s) ↔ memOk s := memOk_iff_of_rest (rest_releaseHost rfl ..)
@[simp] theorem memOk_replaceColumn (s : State) (k : SetRec) (col : Nat) (bad : Madr) : memOk (replaceColumn s k col bad) ↔ memOk s := memOk_iff_of_rest (rest_replaceColumn rfl ..)
@[simp] theorem memOk_restoreFeatures (s : State) : memOk (restoreFeatures s) ↔ memOk s := memOk_iff_of_rest (rest_restoreFeatures rfl ..)
@[simp] theorem memOk_resumeCsn (s : State) : memOk (resumeCsn s) ↔ memOk s := memOk_iff_of_rest (rest_resumeCsn rfl ..)
@[simp] theorem memOk_resumeJseq (s : State) : memOk (resumeJseq s) ↔ memOk s := memOk_iff_of_rest (rest_resumeJseq rfl ..)
@[simp] theorem memOk_resumeRebuild (s : State) : memOk (resumeRebuild s) ↔ memOk s := memOk_iff_of_rest (rest_resumeRebuild rfl ..)
@[simp] theorem memOk_retireBlock (s : State) (b : Madr) (cause : Nat) : memOk (retireBlock s b cause) ↔ memOk s := memOk_iff_of_rest (rest_retireBlock rfl ..)
@[simp] theorem memOk_retireUid (s : State) (uid : Nat) : memOk (retireUid s uid) ↔ memOk s := memOk_iff_of_rest (rest_retireUid rfl ..)
@[simp] theorem memOk_rowVerifyFailed (s : State) (k : SetRec) (row : Nat) (bad : Madr) : memOk (rowVerifyFailed s k row bad) ↔ memOk s := memOk_iff_of_rest (rest_rowVerifyFailed rfl ..)
@[simp] theorem memOk_sampleDie (s : State) (id : DieId) (raw : Nat) : memOk (sampleDie s id raw) ↔ memOk s := memOk_iff_of_rest (rest_sampleDie rfl ..)
@[simp] theorem memOk_saveHoldup (s : State) (skip : List Nat) : memOk (saveHoldup s skip).1 ↔ memOk s := memOk_iff_of_rest (rest_saveHoldup rfl ..)
@[simp] theorem memOk_sbWriteErrors (s : State) (offset bytesAcked : Nat) (pecOk : Bool) : memOk (sbWriteErrors s offset bytesAcked pecOk) ↔ memOk s := memOk_iff_of_rest (rest_sbWriteErrors rfl ..)
@[simp] theorem memOk_sealClean (s : State) : memOk (sealClean s) ↔ memOk s := memOk_iff_of_rest (rest_sealClean rfl ..)
@[simp] theorem memOk_sealIfSpent (s : State) (p : Nat) : memOk (sealIfSpent s p) ↔ memOk s := memOk_iff_of_rest (rest_sealIfSpent rfl ..)
@[simp] theorem memOk_sendFrame (s : State) (f : Frame) : memOk (sendFrame s f) ↔ memOk s := memOk_iff_of_rest (rest_sendFrame rfl ..)
@[simp] theorem memOk_setAtRisk (s : State) (l : List Nat) : memOk (setAtRisk s l) ↔ memOk s := memOk_iff_of_rest (rest_setAtRisk rfl ..)
@[simp] theorem memOk_setBaySt (s : State) (b : Nat) (st : BaySt) : memOk (setBaySt s b st) ↔ memOk s := memOk_iff_of_rest (rest_setBaySt rfl ..)
@[simp] theorem memOk_setFlags (s : State) (fs : List (Nat × Bool)) : memOk (setFlags s fs) ↔ memOk s := memOk_iff_of_rest (rest_setFlags rfl ..)
@[simp] theorem memOk_setRebuild (s : State) (new : Nat) (extra : List (Nat × Bool)) : memOk (setRebuild s new extra) ↔ memOk s := memOk_iff_of_rest (rest_setRebuild rfl ..)
@[simp] theorem memOk_settleBand (s : State) : memOk (settleBand s) ↔ memOk s := memOk_iff_of_rest (rest_settleBand rfl ..)
@[simp] theorem memOk_settleCover (s : State) : memOk (settleCover s) ↔ memOk s := memOk_iff_of_rest (rest_settleCover rfl ..)
@[simp] theorem memOk_settleEnable (s : State) (p : Port) : memOk (settleEnable s p) ↔ memOk s := memOk_iff_of_rest (rest_settleEnable rfl ..)
@[simp] theorem memOk_settleFull (s : State) : memOk (settleFull s) ↔ memOk s := memOk_iff_of_rest (rest_settleFull rfl ..)
@[simp] theorem memOk_settleHandOver (s : State) (n : Nat) : memOk (settleHandOver s n) ↔ memOk s := memOk_iff_of_rest (rest_settleHandOver rfl ..)
@[simp] theorem memOk_settleJournal (s : State) (seq row : Nat) : memOk (settleJournal s seq row) ↔ memOk s := memOk_iff_of_rest (rest_settleJournal rfl ..)
@[simp] theorem memOk_settleLevel (s : State) : memOk (settleLevel s) ↔ memOk s := memOk_iff_of_rest (rest_settleLevel rfl ..)
@[simp] theorem memOk_settleLoss (s : State) : memOk (settleLoss s) ↔ memOk s := memOk_iff_of_rest (rest_settleLoss rfl ..)
@[simp] theorem memOk_settlePairing (s : State) : memOk (settlePairing s) ↔ memOk s := memOk_iff_of_rest (rest_settlePairing rfl ..)
@[simp] theorem memOk_settleReady (s : State) : memOk (settleReady s) ↔ memOk s := memOk_iff_of_rest (rest_settleReady rfl ..)
@[simp] theorem memOk_settleRows (s : State) (seq : Nat) (ok : RowSt → Bool) : memOk (settleRows s seq ok) ↔ memOk s := memOk_iff_of_rest (rest_settleRows rfl ..)
@[simp] theorem memOk_settleSeal (s : State) : memOk (settleSeal s) ↔ memOk s := memOk_iff_of_rest (rest_settleSeal rfl ..)
@[simp] theorem memOk_settleSegments (s : State) : memOk (settleSegments s) ↔ memOk s := memOk_iff_of_rest (rest_settleSegments rfl ..)
@[simp] theorem memOk_settleStandIns (s : State) (k : SetRec) (row : Nat) : memOk (settleStandIns s k row) ↔ memOk s := memOk_iff_of_rest (rest_settleStandIns rfl ..)
@[simp] theorem memOk_settleSyncEnd (s : State) (n : Nat) : memOk (settleSyncEnd s n) ↔ memOk s := memOk_iff_of_rest (rest_settleSyncEnd rfl ..)
@[simp] theorem memOk_settleTaken (s : State) : memOk (settleTaken s) ↔ memOk s := memOk_iff_of_rest (rest_settleTaken rfl ..)
@[simp] theorem memOk_sizeTier (s : State) : memOk (sizeTier s) ↔ memOk s := memOk_iff_of_rest (rest_sizeTier rfl ..)
@[simp] theorem memOk_slotEvents (s : State) (l : List Nat) (code reason : Nat) : memOk (slotEvents s l code reason) ↔ memOk s := memOk_iff_of_rest (rest_slotEvents rfl ..)
@[simp] theorem memOk_stampBay (s : State) (bay : Nat) (r : CommissionResult) : memOk (stampBay s bay r) ↔ memOk s := memOk_iff_of_rest (rest_stampBay rfl ..)
@[simp] theorem memOk_startChannel (s : State) (id : DieId) : memOk (startChannel s id) ↔ memOk s := memOk_iff_of_rest (rest_startChannel rfl ..)
@[simp] theorem memOk_startPatrol (s : State) (p : Nat) (late : Bool) : memOk (startPatrol s p late) ↔ memOk s := memOk_iff_of_rest (rest_startPatrol rfl ..)
@[simp] theorem memOk_startSync (s : State) : memOk (startSync s) ↔ memOk s := memOk_iff_of_rest (rest_startSync rfl ..)
@[simp] theorem memOk_startTime (s : State) : memOk (startTime s) ↔ memOk s := memOk_iff_of_rest (rest_startTime rfl ..)
@[simp] theorem memOk_stopAtOnce (s : State) (kind : StopKind) : memOk (stopAtOnce s kind) ↔ memOk s := memOk_iff_of_rest (rest_stopAtOnce rfl ..)
@[simp] theorem memOk_stopBayDies (s : State) (b : Nat) : memOk (stopBayDies s b) ↔ memOk s := memOk_iff_of_rest (rest_stopBayDies rfl ..)
@[simp] theorem memOk_takeOwnership (s : State) (alone : Bool) : memOk (takeOwnership s alone) ↔ memOk s := memOk_iff_of_rest (rest_takeOwnership rfl ..)
@[simp] theorem memOk_takePosted (s : State) (e : PostedRef) : memOk (takePosted s e) ↔ memOk s := memOk_iff_of_rest (rest_takePosted rfl ..)
@[simp] theorem memOk_takeSample (s : State) (raw : List Int) : memOk (takeSample s raw) ↔ memOk s := memOk_iff_of_rest (rest_takeSample rfl ..)
@[simp] theorem memOk_toPs0 (s : State) : memOk (toPs0 s) ↔ memOk s := memOk_iff_of_rest (rest_toPs0 rfl ..)
@[simp] theorem memOk_toRungFive (s : State) (d : DieId) : memOk (toRungFive s d) ↔ memOk s := memOk_iff_of_rest (rest_toRungFive rfl ..)
@[simp] theorem memOk_trainOn (s : State) : memOk (trainOn s) ↔ memOk s := memOk_iff_of_rest (rest_trainOn rfl ..)
@[simp] theorem memOk_twinTime (s : State) (cyc : Nat) : memOk (twinTime s cyc) ↔ memOk s := memOk_iff_of_rest (rest_twinTime rfl ..)
@[simp] theorem memOk_unparkBays (s : State) (deep : Bool) : memOk (unparkBays s deep) ↔ memOk s := memOk_iff_of_rest (rest_unparkBays rfl ..)
@[simp] theorem memOk_verifyFailed (s : State) (k : SetRec) (row : Nat) (bad : Madr) : memOk (verifyFailed s k row bad) ↔ memOk s := memOk_iff_of_rest (rest_verifyFailed rfl ..)
@[simp] theorem memOk_wearRescue (s : State) (p : Nat) : memOk (wearRescue s p) ↔ memOk s := memOk_iff_of_rest (rest_wearRescue rfl ..)
@[simp] theorem memOk_writeAetSetCtrl (s : State) (value : Word) : memOk (writeAetSetCtrl s value) ↔ memOk s := memOk_iff_of_rest (rest_writeAetSetCtrl rfl ..)
@[simp] theorem memOk_writeCadControl (t : State) (value : Word) : memOk (writeCadControl t value) ↔ memOk t := memOk_iff_of_rest (rest_writeCadControl rfl ..)
@[simp] theorem memOk_writeCadTps (s : State) (value : Word) : memOk (writeCadTps s value) ↔ memOk s := memOk_iff_of_rest (rest_writeCadTps rfl ..)
@[simp] theorem memOk_writeKfStatus (s : State) (v : Word) : memOk (writeKfStatus s v) ↔ memOk s := memOk_iff_of_rest (rest_writeKfStatus rfl ..)
@[simp] theorem memOk_writeMirrorCtrl (s : State) (v : Word) : memOk (writeMirrorCtrl s v) ↔ memOk s := memOk_iff_of_rest (rest_writeMirrorCtrl rfl ..)
@[simp] theorem memOk_writePower (s : State) (off v : Nat) : memOk (writePower s off v) ↔ memOk s := memOk_iff_of_rest (rest_writePower rfl ..)
@[simp] theorem memOk_writePsControl (s : State) (value : Word) : memOk (writePsControl s value) ↔ memOk s := memOk_iff_of_rest (rest_writePsControl rfl ..)

end Sys2Proof.Proofs
end

section
/-! PROOFS. The operations that write keeper flash: boot record, stop records, firmware slots, the boot chain and the ends of the flash commands (R446, R447) keep it canonical. -/
namespace Sys2Proof.Proofs
open Sys2Proof Sys2Proof.Machine Sys2Proof.Laws

theorem memOk_updKf {s : State} {f : Kf → Kf} (hf : memWf (f s.kf).mem = true) : memOk (updKf s f) := hf

@[simp] theorem memOk_updKf_same {s : State} {f : Kf → Kf} (hf : ∀ k, (f k).mem = k.mem) : memOk (updKf s f) ↔ memOk s := by
  unfold memOk updKf
  rw [hf]

theorem memWf_foldl_memWrite {α : Type} (at_ : α → Nat) (val : α → Byte) (l : List α) {m : List Host.Cell} (h : memWf m = true) :
    memWf (l.foldl (fun m x => memWrite m (at_ x) (val x)) m) = true := by
  induction l generalizing m with
  | nil => exact h
  | cons x l ih => exact ih (memWf_memWrite h)

@[simp] theorem memOk_ite {c : Prop} [Decidable c] (s t : State) : memOk (if c then s else t) ↔ if c then memOk s else memOk t := by
  split <;> exact Iff.rfl

@[simp] theorem memOk_cond (s : State) (c : Half) : memOk { s with cond := c } ↔ memOk s := Iff.rfl
@[simp] theorem memOk_ctxs (s : State) (l : List Ctx) : memOk { s with ctxs := l } ↔ memOk s := Iff.rfl

/-! ## The boot record and the stop records -/

@[simp] theorem memOk_putBoot {s : State} (h : memOk s) (f : BootRec → BootRec) : memOk (putBoot s f) := by
  unfold putBoot
  refine memOk_updKf ?_
  dsimp only
  exact memWf_writeBoot (m := s.kf.mem) h

@[simp] theorem memOk_cancelActivation {s : State} (h : memOk s) : memOk (cancelActivation s) := by
  unfold cancelActivation
  split
  · simp [h]
  · exact h

@[simp] theorem memOk_afterMemberFail {s : State} (h : memOk s) : memOk (afterMemberFail s) := by
  unfold afterMemberFail
  simp only [memOk_settleFull]
  refine memOk_cancelActivation (memOk_foldl (fun t o ht => ?_) _ ?_)
  · repeat' split
    all_goals simp [ht]
  · repeat' split
    all_goals simp [h]

@[simp] theorem memOk_bayFail {s : State} (h : memOk s) (b : Nat) : memOk (bayFail s b) := by
  unfold bayFail
  repeat' split
  all_goals simp [h]

@[simp] theorem memOk_dieFail {s : State} (h : memOk s) (d : DieId) : memOk (dieFail s d) := by
  unfold dieFail
  repeat' split
  all_goals simp [h]

@[simp] theorem memOk_keepStop {s : State} (h : memOk s) (r : StopRec) : memOk (keepStop s r) := by
  unfold keepStop
  refine (memOk_updJrnl _ _).mpr (memOk_updKf ?_)
  dsimp only
  exact memWf_appendRec (m := s.kf.mem) h

@[simp] theorem memOk_putStop {s : State} (h : memOk s) (kind : StopKind) (holdup : Option (Nat × Madr)) : memOk (putStop s kind holdup) := by
  unfold putStop
  simp [h]

@[simp] theorem memOk_recordStop {s : State} (h : memOk s) (kind : StopKind) (holdup : Option (Nat × Madr)) : memOk (recordStop s kind holdup) := by
  unfold recordStop
  dsimp only
  split <;> simp [h]

@[simp] theorem memOk_beginStop {s : State} (h : memOk s) (kind : StopKind) (skip : List Nat) (record : Bool) : memOk (beginStop s kind skip record) := by
  unfold beginStop
  repeat' split
  all_goals simp [h]

@[simp] theorem memOk_powerStop {s : State} (h : memOk s) : memOk (powerStop s) := by
  unfold powerStop
  extract_lets deep late left t u v w
  have ht : memOk t := by simp [t, h]
  have hu : memOk u := by unfold u; split <;> simp [ht]
  have hv : memOk v := by unfold v; split <;> simp [hu]
  have hw : memOk w := by simp [w, hv]
  clear_value w
  repeat' split
  all_goals simp [h, hw]

@[simp] theorem memOk_failPart {s : State} (h : memOk s) (keeperFailed : Bool) : memOk (failPart s keeperFailed) := by
  unfold failPart
  extract_lets waiting t u v
  have ht : memOk t := by simp [t, h]
  have hu : memOk u := memOk_foldl (fun t cid ht => by simp [ht]) waiting ht
  have hv : memOk v := by unfold v; split <;> simp [hu]
  clear_value v
  split <;> simp [h, hv]

/-! ## Checkpoints and pages -/

@[simp] theorem memOk_standCkpt {s : State} (h : memOk s) (k : Ckpt) : memOk (standCkpt s k) := by
  unfold standCkpt
  dsimp only
  split <;> simp [h]

@[simp] theorem memOk_settleCkpt {s : State} (h : memOk s) : memOk (settleCkpt s) := by
  unfold settleCkpt
  repeat' split
  all_goals simp [h]

@[simp] theorem memOk_settleStand {s : State} (h : memOk s) : memOk (settleStand s) := memOk_settleCkpt (by simp [h])

@[simp] theorem memOk_programFailed {s : State} (h : memOk s) (p : PageRec) : memOk (programFailed s p) := by
  unfold programFailed
  extract_lets t
  have ht : memOk t := by simp [t, h]
  clear_value t
  split
  · exact ht
  · split <;> simp [ht]

@[simp] theorem memOk_programDone {s : State} (h : memOk s) (p : PageRec) : memOk (programDone s p) := by
  unfold programDone
  extract_lets t u
  have ht : memOk t := by simp [t, h]
  have hu : memOk u := by simp [u, ht]
  clear_value t u
  split
  · exact ht
  · split
    · exact hu
    · next k _ =>
      extract_lets before v w x y after
      have hv : memOk v := by unfold v; split <;> simp [hu]
      have hw : memOk w := by unfold w; split <;> simp [hv]
      have hx : memOk x := by unfold x; split <;> simp [hw]
      exact memOk_foldl (fun t r ht => by simp [ht]) _ (memOk_settleStand (by simp [hx]))

@[simp] theorem memOk_actOn {s : State} (h : memOk s) (die : DieId) (op : DieOp) (outcome : SeqOutcome) (raw : Nat) : memOk (actOn s die op outcome raw) := by
  have hlate : memOk (if outcome == .timeout then updDie s die (fun d => { d with timeouts := d.timeouts + 1 }) else s) := by simp [h]
  unfold actOn
  generalize (if outcome == .timeout then updDie s die (fun d => { d with timeouts := d.timeouts + 1 }) else s) = t at hlate
  dsimp only
  repeat' split
  all_goals simp [h, hlate]

@[simp] theorem memOk_failSuspended {s : State} (h : memOk s) (die : DieId) : memOk (failSuspended s die) := by
  unfold failSuspended
  split <;> simp [h]

@[simp] theorem memOk_settleSuspend {s : State} (h : memOk s) (die : DieId) (op : DieOp) (outcome : SeqOutcome) : memOk (settleSuspend s die op outcome) := by
  unfold settleSuspend
  repeat' split
  all_goals simp [h]

@[simp] theorem memOk_takeCkpt {s : State} (h : memOk s) (k : Ckpt) : memOk (takeCkpt s k) := by
  unfold takeCkpt
  refine memOk_settleCkpt ?_
  have hw : ∀ t, memOk t → memOk ((profileNums t).foldl wearRescue t) := fun t ht => memOk_foldl (fun t p ht => by simp [ht]) _ ht
  split
  · exact (memOk_sealClean _).mpr (hw _ (by simp [h]))
  · exact hw _ (by simp [h])

@[simp] theorem memOk_ckptStep {s : State} (h : memOk s) (r : CkptRun) : memOk (ckptStep s r) := by
  unfold ckptStep
  extract_lets r keep
  split
  · exact h
  · next c _ =>
    extract_lets x c kr y t
    have hkeep : ∀ (t : State) (c : CkptCapture), memOk t → memOk (keep t c) := fun t c ht => by simp [keep, ht]
    have hx : memOk x.1 := by simp [x, h]
    have hy : memOk y.1 := by simp [y, hx]
    have ht : memOk t := hkeep _ _ hy
    clear_value keep x t
    split
    · exact hkeep _ _ hx
    · split
      · exact hkeep _ _ hx
      · split
        · exact memOk_foldl (fun t ok ht => by simp [ht]) _ (hkeep _ _ hx)
        · split <;> simp [ht]

end Sys2Proof.Proofs
end

section
/-! PROOFS. Keeper flash in canonical form (R446, R447): the boot chain, the flash commands, the restart and the port handling keep it. -/
namespace Sys2Proof.Proofs
open Sys2Proof Sys2Proof.Machine Sys2Proof.Laws

/-! ## The boot chain -/

@[simp] theorem memOk_internalReset {s : State} (h : memOk s) (kind : Nat) : memOk (internalReset s kind) := memOk_of_eq (s := beginLogs s kind) rfl (by simp [h])

@[simp] theorem memOk_resolveBoot {s : State} (h : memOk s) : memOk (resolveBoot s) := by
  unfold resolveBoot
  simp [h]

@[simp] theorem memOk_recordFailing {s : State} (h : memOk s) (slot : Nat) (r : Reject) : memOk (recordFailing s slot r) := by
  unfold recordFailing
  simp [h]

@[simp] theorem memOk_returnCommit {s : State} (h : memOk s) (slot : Nat) (r : Reject) : memOk (returnCommit s slot r) := by
  unfold returnCommit
  simp [h]

@[simp] theorem memOk_trySlot {s : State} (h : memOk s) (env : BootEnv) (keeper cluster : List Byte) (slot : Nat) (active : Bool) :
    memOk (trySlot s env keeper cluster slot active).1 := by
  unfold trySlot
  repeat' split
  all_goals simp [h]

@[simp] theorem memOk_chooseSlot {s : State} (h : memOk s) (env : BootEnv) (c : Nat) (keeper cluster : List Byte) :
    memOk (chooseSlot s env c keeper cluster).1 := by
  have hactive := memOk_trySlot h env keeper cluster (activeSlot s.kf.boot c) true
  unfold chooseSlot
  split
  · next ht => simpa only [ht] using hactive
  · next ht => exact memOk_trySlot (by simpa only [ht] using hactive) env keeper cluster _ false

@[simp] theorem memOk_bootWithoutImage {s : State} (h : memOk s) (env : BootEnv) (k c : Nat) : memOk (bootWithoutImage s env k c) := by
  unfold bootWithoutImage
  simp [h]

@[simp] theorem memOk_bootFrom {s : State} (h : memOk s) (env : BootEnv) (k : Nat) : memOk (bootFrom s env k) := by
  have hcluster := memOk_chooseSlot h env 1 (slotImage s.kf.mem k) []
  unfold bootFrom
  dsimp only
  split
  · next ht => exact memOk_failPart (by simpa only [ht] using hcluster) false
  · next t c ht =>
    have hmem : memOk t := by simpa only [ht] using hcluster
    have himage := memOk_chooseSlot hmem env 2 (slotImage s.kf.mem k) (slotImage t.kf.mem c)
    split
    · simp [hmem]
    · split
      · next hu => exact memOk_bootWithoutImage (by simpa only [hu] using himage) env k c
      · next u i hu =>
        have hmemu : memOk u := by simpa only [hu] using himage
        split <;> simp [hmemu]

@[simp] theorem memOk_bootUp {s : State} (h : memOk s) (env : BootEnv) : memOk (bootUp s env) := by
  have hs : memOk (sampled s env) := h
  have hstage : memOk (keeperStage s env) := by
    unfold keeperStage
    dsimp only
    split <;> simp [hs]
  have hkeeper := memOk_chooseSlot hstage env 0 [] []
  unfold bootUp
  change memOk (if !env.lockstepOk then failPart (sampled s env) true
    else if (sampled s env).kf.recRequest then enterRecovery (sampled s env) 1
    else match chooseSlot (keeperStage s env) env 0 [] [] with
      | (_, none) => enterRecovery { keeperStage s env with cond := (sampled s env).cond } 2
      | (t, some k) => bootFrom t env k)
  split
  · simp [hs]
  · split
    · simp [hs]
    · split
      · simp [hstage]
      · next t k ht => exact memOk_bootFrom (by simpa only [ht] using hkeeper) env k

@[simp] theorem memOk_bootOrHold {s : State} (h : memOk s) (env : BootEnv) : memOk (bootOrHold s env) := by
  unfold bootOrHold
  dsimp only
  split <;> simp [h]

@[simp] theorem memOk_reboot {s : State} (h : memOk s) (kind : Nat) : memOk (reboot s kind) := by
  unfold reboot
  simp [h]

@[simp] theorem memOk_selfRestart {s : State} (h : memOk s) : memOk (selfRestart s) := by
  unfold selfRestart
  simp [h]

/-! ## Firmware slots and flash commands -/

@[simp] theorem memOk_storeBlock {s : State} (h : memOk s) (c : Ctx) (bs : List Byte) : memOk (storeBlock s c bs) := by
  unfold storeBlock
  extract_lets comp block slot t a
  split
  · exact memOk_updKf (memWf_appendRec h)
  · have ht : memOk t := by unfold t; split <;> simp [h]
    clear_value t
    exact memOk_updKf (memWf_memWriteAll (memWf_memErase ht))

@[simp] theorem memOk_commitRefused {s : State} (h : memOk s) (c : Ctx) (comp : Nat) (r : Reject) : memOk (commitRefused s c comp r) := by
  unfold commitRefused
  simp [h]

@[simp] theorem memOk_commitSlots {s : State} (h : memOk s) (c : Ctx) : memOk (commitSlots s c) := by
  unfold commitSlots
  simp only [memOk_perform]
  exact memOk_foldl (fun t k ht => by simp [ht]) _ (by simp [h])

@[simp] theorem memOk_kfSlotBad {s : State} (h : memOk s) (side : Bool) (addr : Nat) : memOk (kfSlotBad s side addr) := by
  unfold kfSlotBad
  repeat' split
  all_goals simp [h]

@[simp] theorem memOk_kfMarginBad {s : State} (h : memOk s) (side : Bool) (sector : Nat) : memOk (kfMarginBad s side sector) := by
  unfold kfMarginBad
  dsimp only
  repeat' split
  all_goals simp [h]

@[simp] theorem memOk_endProgram {s : State} (h : memOk s) (side : Bool) (addr pulses : Nat) (agreed : Bool) : memOk (endProgram s side addr pulses agreed) := by
  unfold endProgram
  dsimp only
  split
  · exact (memOk_updKfReq _ _ _).mpr (memOk_updKf (memWf_foldl_memWrite _ _ _ h))
  · refine memOk_kfSlotBad ((memOk_updKfReq _ _ _).mpr ((memOk_kfSet _ _ _).mpr ((memOk_drawBytes _ _).mpr (memOk_updKf (memWf_foldl_memWrite _ _ _ h))))) _ _

@[simp] theorem memOk_endMarginRead {s : State} (h : memOk s) (side : Bool) (addr measured : Nat) : memOk (endMarginRead s side addr measured) := by
  unfold endMarginRead
  dsimp only
  split <;> simp [h]

@[simp] theorem memOk_endErase {s : State} (h : memOk s) (addr : Nat) : memOk (endErase s addr) := memOk_updKf (memWf_memErase h)

@[simp] theorem memOk_kfEnd {s : State} (h : memOk s) (side : Bool) (measured : Nat) (agreed : Bool) : memOk (kfEnd s side measured agreed) := by
  unfold kfEnd
  dsimp only
  repeat' split
  all_goals simp [h]

@[simp] theorem memOk_writeRecovery {s : State} (h : memOk s) (v : Word) : memOk (writeRecovery s v) := by
  unfold writeRecovery
  dsimp only
  repeat' split
  all_goals simp [h]

@[simp] theorem memOk_writeKf {s : State} (h : memOk s) (off : Nat) (v : Word) : memOk (writeKf s off v) := by
  unfold writeKf
  repeat' split
  all_goals simp [h]

@[simp] theorem memOk_writeSide {s : State} (h : memOk s) (off : Nat) (v : Word) : memOk (writeSide s off v) := by
  unfold writeSide
  repeat' split
  all_goals simp [h]

@[simp] theorem memOk_sideWrite {s : State} (h : memOk s) (reg : RegAddr) (v : Dword) (size : Nat) : memOk (sideWrite s reg v size) := by
  unfold sideWrite
  repeat' split
  all_goals simp [h]

/-! ## Deep states, restart, Twin -/

@[simp] theorem memOk_deepStep {s : State} (h : memOk s) (target step : Nat) (ok : Bool) (aoCycle : Nat) : memOk (deepStep s target step ok aoCycle) := by
  unfold deepStep
  repeat' split
  all_goals simp [h]

theorem memOk_decideFate {x : Fates} (h : memOk x.1) (a : AdmSlot) : memOk (decideFate x a).1 := by
  unfold memOk
  rw [kfMem_of_rest (rest_decideFate (L := but .kfMem) rfl x a) rfl]
  exact h

theorem memOk_decideFates (l : List AdmSlot) {x : Fates} (h : memOk x.1) : memOk (l.foldl decideFate x).1 := by
  induction l generalizing x with
  | nil => exact h
  | cons a l ih => exact ih (memOk_decideFate h a)

@[simp] theorem memOk_settleFates {s : State} (h : memOk s) (unclean noHoldup : Bool) : memOk (settleFates s unclean noHoldup) := by
  unfold settleFates
  extract_lets slots f finish t
  have hf : memOk f.1 := memOk_decideFates slots h
  have hfinish : ∀ t p, memOk t → memOk (finish t p) := fun t p ht => by simp [finish, ht]
  have ht : memOk t := memOk_putStop (hfinish _ _ (hfinish _ _ hf)) _ _
  simp [ht]

@[simp] theorem memOk_failMissing {s : State} (h : memOk s) : memOk (failMissing s) := memOk_foldl (fun t b ht => by simp [ht]) _ h

@[simp] theorem memOk_settleAll {s : State} (h : memOk s) : memOk (settleAll s) := by
  unfold settleAll
  exact memOk_settleStand (memOk_foldl (fun t o ht => by simp [ht]) _ (by simp [h]))

@[simp] theorem memOk_coverRows {s : State} (h : memOk s) : memOk (coverRows s) := by
  unfold coverRows
  repeat' split
  all_goals simp [h]

@[simp] theorem memOk_needSet {s : State} (h : memOk s) (st : Stream) (n : Nat) : memOk (needSet s st n) := by
  unfold needSet
  split <;> simp [h]

@[simp] theorem memOk_needSystem {s : State} (h : memOk s) : memOk (needSystem s) := by
  unfold needSystem
  simp [h]

@[simp] theorem memOk_finishCkpt {s : State} (h : memOk s) (n : Nat) : memOk (finishCkpt n s) := by
  induction n generalizing s with
  | zero => exact h
  | succ n ih =>
    unfold finishCkpt
    split
    · exact h
    · next r _ =>
      extract_lets t u
      have hturns := memOk_foldl (f := fun t (_ : Nat) => mapTurn t) (fun t _ ht => (memOk_mapTurn t).mpr ht) (List.range s.eng.reqs.length) h
      have ht : memOk t := memOk_coverRows (memOk_needSystem (memOk_settleAll hturns))
      have hu : memOk u := memOk_settleAll (memOk_ckptStep ht r)
      split
      · exact hu
      · exact ih hu

@[simp] theorem memOk_restartCkpt {s : State} (h : memOk s) : memOk (restartCkpt s) := by
  unfold restartCkpt
  extract_lets t u
  have ht : memOk t := by simp [t, h]
  have hu : memOk u := by simp [u, ht]
  split <;> simp [h, hu]

@[simp] theorem memOk_goAlone {s : State} (h : memOk s) : memOk (goAlone s) := by
  unfold goAlone
  simp [h]

@[simp] theorem memOk_unpairNow {s : State} (h : memOk s) (cid : Nat) : memOk (unpairNow s cid) := by
  unfold unpairNow
  simp [h]

@[simp] theorem memOk_heardByActive {s : State} (h : memOk s) (role : Role) : memOk (heardByActive s role) := by
  unfold heardByActive
  dsimp only
  repeat' split
  all_goals simp [h]

@[simp] theorem memOk_takeOver {s : State} (h : memOk s) (cqTaken : List PostedRef) (scan : List PageRec) (found : RestartFind)
    (surveys : List (Nat × BaySurvey)) : memOk (takeOver s cqTaken scan found surveys) := by
  unfold takeOver
  extract_lets t u v w x y z mirrored a b c
  have hy : memOk y := by simp [y, x, w, v, u, t, h]
  have hm : memOk mirrored := by simp [mirrored, z, hy]
  have ha : memOk a := (memOk_failoverFates _).mpr (memOk_foldl (fun t p => (memOk_takePosted t p).mpr) cqTaken hm)
  clear_value a
  have hb : memOk b := by simp [b, ha]
  clear_value b
  have hc : memOk c := memOk_foldl (fun t p => (memOk_sealIfSpent t p).mpr) _ (by simp [hb])
  simp [hc]

end Sys2Proof.Proofs
end

section
/-! PROOFS. Every step keeps keeper flash in canonical form (R446, R447). -/
namespace Sys2Proof.Proofs
open Sys2Proof Sys2Proof.Machine Sys2Proof.Laws

/-- If an outcome is a next state, its keeper flash is canonical. -/
def EndsMemOk (o : Host.Outcome State Fault Refusal) : Prop := ∀ t, o = .next t → memOk t

@[simp] theorem endsMemOk_next {t : State} : EndsMemOk (.next t) ↔ memOk t :=
  ⟨fun h => h t rfl, by rintro h _ ⟨⟩; exact h⟩

@[simp] theorem endsMemOk_settled {t : State} : EndsMemOk (settled t) ↔ memOk t := endsMemOk_next.trans (memOk_endCycle t)

@[simp] theorem endsMemOk_kfLive {s : State} (h : memOk s) {f : State → State} (hf : memOk s → memOk (f s)) : EndsMemOk (kfLive s f) := by
  unfold kfLive
  split
  · exact endsMemOk_next.mpr h
  · exact endsMemOk_next.mpr (hf h)

theorem memOk_twinAction {s : State} (h : memOk s) (cid action : Nat) {go : Ctx → State} (hgo : ∀ c, memOk (go c)) : memOk (twinAction s cid action go) := by
  unfold twinAction
  repeat' split
  all_goals simp [h, hgo]

theorem memOk_receive {s : State} (h : memOk s) (f : FrameHead) (cyc : Nat) (wantsAck : Bool) {g : State → State} (hg : ∀ t, memOk t → memOk (g t)) :
    memOk (receive s f cyc wantsAck g) := by
  have hgo : memOk (g (updTwin (twinTime s cyc) (fun x => { x with rxSeq := f.fseq, lastFrame := some (twinTime s cyc).now }))) := hg _ (by simp [h])
  unfold receive
  dsimp only
  repeat' split
  all_goals simp [h, hgo]

theorem endsMemOk_execVerifyReadDone {s : State} (h : memOk s) (seq row : Nat) (reads : List VerifyRead) : EndsMemOk (execVerifyReadDone seq row reads s) := by
  have hreads (l : List VerifyRead) : memOk (l.foldl (fun t v => readWhole t v.page) s) :=
    memOk_foldl (fun t v ht => by simp [ht]) l h
  unfold execVerifyReadDone
  split
  · simp [h]
  · extract_lets limit openRow pages mine t
    clear_value limit openRow pages mine
    split
    all_goals repeat' split
    all_goals simp [h, hreads, t]

theorem endsMemOk_execSequenceEnd {s : State} (h : memOk s) (die : DieId) (waits statuses : List Nat) (busyMicros raw : Nat) : EndsMemOk (execSequenceEnd die waits statuses busyMicros raw s) := by
  unfold execSequenceEnd
  split
  · simp [h]
  · next op _ =>
    extract_lets outcome t u v w
    have hu : memOk u := by simp [u, t, h]
    have hv : memOk v := by simp [v, hu]
    have hw : memOk w := by simp [w, hv]
    simp [hw]

theorem endsMemOk_execMemberFailure {s : State} (h : memOk s) (bay : Nat) (die : Option Nat) : EndsMemOk (execMemberFailure bay die s) := by
  unfold execMemberFailure
  repeat' split
  all_goals simp [h]

theorem endsMemOk_execBayPresenceAccepted {s : State} (h : memOk s) (bay : Nat) (survey : BaySurvey) : EndsMemOk (execBayPresenceAccepted bay survey s) := by
  unfold execBayPresenceAccepted
  dsimp only
  repeat' split
  all_goals simp [h]

theorem endsMemOk_execBayRemoval {s : State} (h : memOk s) (bay : Nat) : EndsMemOk (execBayRemoval bay s) := by
  unfold execBayRemoval
  split
  · simp [h]
  · next x _ =>
    extract_lets u v t
    have hu : memOk u := by simp [u, h]
    have hv : memOk v := by simp [v, hu]
    have ht : memOk t := by simp [t, h, hu, hv]
    clear_value t
    repeat' split
    all_goals simp [h, ht]

theorem endsMemOk_execBayFault {s : State} (h : memOk s) (bay : Nat) : EndsMemOk (execBayFault bay s) := by
  unfold execBayFault
  repeat' split
  all_goals simp [h]

theorem endsMemOk_execCommissioningDone {s : State} (h : memOk s) (bay : Nat) (result : CommissionResult) : EndsMemOk (execCommissioningDone bay result s) := by
  unfold execCommissioningDone
  dsimp only
  repeat' split
  all_goals simp [h]

theorem endsMemOk_execImportDone {s : State} (h : memOk s) (result : ImportResult) : EndsMemOk (execImportDone result s) := by
  unfold execImportDone
  split
  · simp [h]
  · extract_lets old found t u v w x y z new
    have ht : memOk t := memOk_foldl (fun t b => (memOk_joinGroup t b).mpr) _ h
    have hw : memOk w := by simp [w, v, u, ht]
    have hx : memOk x := memOk_foldl (fun t e ht => by simp [ht]) _ hw
    have hy : memOk y := memOk_foldl (fun t e ht => by split <;> simp [ht]) _ hx
    have hz : memOk z := by simp [z, hy]
    simp [hz]

theorem endsMemOk_execFwDownload {s : State} (h : memOk s) (cid : Nat) (data : HostFetch) : EndsMemOk (execFwDownload cid data s) := by
  unfold execFwDownload
  repeat' split
  all_goals simp [h]

theorem endsMemOk_execFwCommit {s : State} (h : memOk s) (cid : Nat) : EndsMemOk (execFwCommit cid s) := by
  unfold execFwCommit
  split
  · simp [h]
  · dsimp only
    repeat' split
    all_goals simp [h]

theorem endsMemOk_execFwConfirm {s : State} (h : memOk s) (cid : Nat) : EndsMemOk (execFwConfirm cid s) := by
  unfold execFwConfirm
  split
  · simp [h]
  · split
    · simp [h]
    · exact endsMemOk_next.mpr ((memOk_perform ..).mpr (memOk_updKf (memWf_memErase (memOk_putBoot h _))))

theorem endsMemOk_execFwRevert {s : State} (h : memOk s) (cid : Nat) : EndsMemOk (execFwRevert cid s) := by
  unfold execFwRevert
  split
  · simp [h]
  · dsimp only
    repeat' split
    all_goals simp [h]

theorem endsMemOk_execSetUserCalibration {s : State} (h : memOk s) (cid : Nat) : EndsMemOk (execSetUserCalibration cid s) := by
  unfold execSetUserCalibration
  split
  · simp [h]
  · split
    · simp [h]
    · exact endsMemOk_next.mpr ((memOk_perform ..).mpr (memOk_updKf (memWf_appendRec h)))

theorem endsMemOk_execCheckpointRootWrite {s : State} (h : memOk s)  : EndsMemOk (execCheckpointRootWrite s) := by
  unfold execCheckpointRootWrite
  repeat' split
  all_goals simp [h]

theorem endsMemOk_execPwrfailFall {s : State} (h : memOk s) (cyc : Nat) : EndsMemOk (execPwrfailFall cyc s) := by
  unfold execPwrfailFall
  dsimp only
  repeat' split
  all_goals simp [h]

theorem endsMemOk_execFailedSet {s : State} (h : memOk s) (keeperFailed : Bool) : EndsMemOk (execFailedSet keeperFailed s) := by
  unfold execFailedSet
  repeat' split
  all_goals simp [h]

theorem endsMemOk_execPorstAssert {s : State} (h : memOk s) (cyc : Nat) : EndsMemOk (execPorstAssert cyc s) := by
  unfold execPorstAssert
  dsimp only
  repeat' split
  all_goals simp [h]

theorem endsMemOk_execAlwaysOnPowerUp {s : State} (h : memOk s)  : EndsMemOk (execAlwaysOnPowerUp s) := by
  unfold execAlwaysOnPowerUp
  dsimp only
  repeat' split
  all_goals simp [h]

theorem endsMemOk_execPorstRelease {s : State} (h : memOk s) (cyc : Nat) (env : BootEnv) : EndsMemOk (execPorstRelease cyc env s) := by
  unfold execPorstRelease
  dsimp only
  repeat' split
  all_goals simp [h]

theorem endsMemOk_execHoldupComplete {s : State} (h : memOk s)  : EndsMemOk (execHoldupComplete s) := by
  unfold execHoldupComplete
  dsimp only
  repeat' split
  all_goals simp [h]

theorem endsMemOk_execPwrfailRise {s : State} (h : memOk s) (cyc : Nat) : EndsMemOk (execPwrfailRise cyc s) := by
  unfold execPwrfailRise
  dsimp only
  repeat' split
  all_goals simp [h]

theorem endsMemOk_execPortShutdownDone {s : State} (h : memOk s) (port : Port) : EndsMemOk (execPortShutdownDone port s) := by
  unfold execPortShutdownDone
  dsimp only
  repeat' split
  all_goals simp [h]

theorem endsMemOk_execKfCommandDone {s : State} (h : memOk s) (bank : Bool) (measured : Nat) (agreed : Bool) : EndsMemOk (execKfCommandDone bank measured agreed s) := by
  exact endsMemOk_kfLive h (fun h => by simp [h])

theorem endsMemOk_execRecoveryRequest {s : State} (h : memOk s) (value : Word) : EndsMemOk (execRecoveryRequest value s) := by
  exact endsMemOk_kfLive h (fun h => by simp [h])

theorem endsMemOk_execRecoveryExit {s : State} (h : memOk s) (value : Word) : EndsMemOk (execRecoveryExit value s) := by
  exact endsMemOk_kfLive h (fun h => by simp [h])

theorem endsMemOk_execPsDeepEntry {s : State} (h : memOk s) (step : Nat) (ok : Bool) (aoCycle : Nat) : EndsMemOk (execPsDeepEntry step ok aoCycle s) := by
  unfold execPsDeepEntry
  repeat' split
  all_goals simp [h]

theorem endsMemOk_execSensorSample {s : State} (h : memOk s) (raw : List Int) : EndsMemOk (execSensorSample raw s) := by
  unfold execSensorSample
  dsimp only
  repeat' split
  all_goals simp [h]

theorem endsMemOk_execThermalTrip {s : State} (h : memOk s) (comparator : Bool) (cyc : Nat) : EndsMemOk (execThermalTrip comparator cyc s) := by
  unfold execThermalTrip
  extract_lets u t v
  have hu : memOk u := by simp [u, h]
  have ht : memOk t := by simp [t, hu]
  have hv : memOk v := by simp [v, ht]
  clear_value u t v
  repeat' split
  all_goals simp [hu, hv]

theorem endsMemOk_execRestartComplete {s : State} (h : memOk s) (cyc : Nat) (found : RestartFind) : EndsMemOk (execRestartComplete cyc found s) := by
  unfold execRestartComplete
  extract_lets s₁ clean first noHoldup s₂ t₁ t₂ t₃ t₄ t₅ t₆ t₇ t₈ t₉ t₁₀
  have hs₁ : memOk s₁ := by simp [s₁, h]
  have hs₂ : memOk s₂ := by unfold s₂; split <;> exact hs₁
  have ht₁ : memOk t₁ := by simp [t₁, hs₂]
  have ht₃ : memOk t₃ := by simp [t₃, t₂, ht₁]
  have ht₄ : memOk t₄ := by simp [t₄, ht₃]
  have ht₅ : memOk t₅ := memOk_foldl (fun t p => (memOk_sealIfSpent t p).mpr) _ ht₄
  have ht₉ : memOk t₉ := by simp [t₉, t₈, t₇, t₆, ht₅]
  have ht₁₀ : memOk t₁₀ := memOk_foldl (fun t p ht => by simp [ht]) _ ht₉
  repeat' split
  all_goals simp [hs₁, ht₁₀]

theorem endsMemOk_execDramChannelLoss {s : State} (h : memOk s) (channel : Nat) (staged : List (Nat × Nat)) : EndsMemOk (execDramChannelLoss channel staged s) := by
  unfold execDramChannelLoss
  extract_lets second t u pods v
  have hv : memOk v := h
  clear_value v
  repeat' split
  all_goals simp [h, hv]

theorem endsMemOk_execRegisterWrite {s : State} (h : memOk s) (req : Requester) (reg : RegAddr) (value : Dword) (bytes : Nat) : EndsMemOk (execRegisterWrite req reg value bytes s) := by
  unfold execRegisterWrite
  repeat' split
  all_goals simp [h]

theorem endsMemOk_execPartnerLoss {s : State} (h : memOk s) (cyc : Nat) (cqTaken : List PostedRef) (scan : List PageRec) (found : RestartFind) (surveys : List (Nat × BaySurvey)) : EndsMemOk (execPartnerLoss cyc cqTaken scan found surveys s) := by
  unfold execPartnerLoss
  extract_lets t w
  have ht : memOk t := by simp [t, h]
  clear_value t
  repeat' split
  all_goals simp [ht]

theorem endsMemOk_execAckTimeout {s : State} (h : memOk s) (cyc : Nat) : EndsMemOk (execAckTimeout cyc s) := by
  unfold execAckTimeout
  dsimp only
  repeat' split
  all_goals simp [h]

theorem endsMemOk_execZynmiLinkTrained {s : State} (h : memOk s) (lanes : Nat) : EndsMemOk (execZynmiLinkTrained lanes s) := by
  unfold execZynmiLinkTrained
  dsimp only
  split <;> simp [h]

theorem endsMemOk_execTwinUnpair {s : State} (h : memOk s) (cid : Nat) : EndsMemOk (execTwinUnpair cid s) := by
  unfold execTwinUnpair
  refine endsMemOk_settled.mpr (memOk_twinAction h cid 1 (fun c => ?_))
  dsimp only
  repeat' split
  all_goals simp [h]

theorem endsMemOk_execTwinFencePartner {s : State} (h : memOk s) (cid : Nat) (cyc : Nat) : EndsMemOk (execTwinFencePartner cid cyc s) := by
  unfold execTwinFencePartner
  have ht : memOk (twinTime s cyc) := by simp [h]
  refine endsMemOk_settled.mpr (memOk_twinAction ht cid 3 (fun c => ?_))
  split <;> simp [ht]

theorem endsMemOk_execFrameHeartbeat {s : State} (hs : memOk s) (h : FrameHead) (role : Role) (cond : Half) (pins : BitVec 6) (aet : Dword) (csnLast jseq : Nat) (cyc : Nat) : EndsMemOk (execFrameHeartbeat h role cond pins aet csnLast jseq cyc s) := by
  unfold execFrameHeartbeat
  refine endsMemOk_settled.mpr (memOk_receive hs h cyc false (fun t ht => ?_))
  dsimp only
  split <;> simp [ht]

theorem endsMemOk_execFrameFailing {s : State} (hs : memOk s) (h : FrameHead) (cond : Half) (cyc : Nat) : EndsMemOk (execFrameFailing h cond cyc s) := by
  unfold execFrameFailing
  refine endsMemOk_settled.mpr (memOk_receive hs h cyc false (fun t ht => ?_))
  dsimp only
  split <;> simp [ht]

theorem endsMemOk_execFrameAck {s : State} (h : memOk s) (crcOk : Bool) (fseq : Nat) (cyc : Nat) : EndsMemOk (execFrameAck crcOk fseq cyc s) := by
  unfold execFrameAck
  dsimp only
  repeat' split
  all_goals simp [h]

theorem endsMemOk_execFrameStop {s : State} (hs : memOk s) (h : FrameHead) (r : StopRec) (cyc : Nat) : EndsMemOk (execFrameStop h r cyc s) := by
  unfold execFrameStop
  refine endsMemOk_next.mpr (memOk_receive hs h cyc true (fun t ht => ?_))
  split <;> simp [ht]

/-- A command that is not named for the bytes of keeper flash leaves them; each other keeps their form by its own lemma. -/
theorem exec_endsMemOk (i : Instr) {s : State} (h : memOk s) : EndsMemOk (exec i s) := by
  by_cases hleft : sub (touches i) (but .kfMem) = true
  · obtain ⟨t, ht, hrest⟩ := rest_exec i s hleft
    rw [ht]
    exact endsMemOk_next.mpr ((memOk_iff_of_rest hrest).mpr h)
  · cases i
    case verifyReadDone => exact endsMemOk_execVerifyReadDone h _ _ _
    case sequenceEnd => exact endsMemOk_execSequenceEnd h _ _ _ _ _
    case memberFailure => exact endsMemOk_execMemberFailure h _ _
    case bayPresenceAccepted => exact endsMemOk_execBayPresenceAccepted h _ _
    case bayRemoval => exact endsMemOk_execBayRemoval h _
    case bayFault => exact endsMemOk_execBayFault h _
    case commissioningDone => exact endsMemOk_execCommissioningDone h _ _
    case importDone => exact endsMemOk_execImportDone h _
    case fwDownload => exact endsMemOk_execFwDownload h _ _
    case fwCommit => exact endsMemOk_execFwCommit h _
    case fwConfirm => exact endsMemOk_execFwConfirm h _
    case fwRevert => exact endsMemOk_execFwRevert h _
    case setUserCalibration => exact endsMemOk_execSetUserCalibration h _
    case checkpointRootWrite => exact endsMemOk_execCheckpointRootWrite h
    case pwrfailFall => exact endsMemOk_execPwrfailFall h _
    case failedSet => exact endsMemOk_execFailedSet h _
    case porstAssert => exact endsMemOk_execPorstAssert h _
    case alwaysOnPowerUp => exact endsMemOk_execAlwaysOnPowerUp h
    case porstRelease => exact endsMemOk_execPorstRelease h _ _
    case holdupComplete => exact endsMemOk_execHoldupComplete h
    case pwrfailRise => exact endsMemOk_execPwrfailRise h _
    case portShutdownDone => exact endsMemOk_execPortShutdownDone h _
    case kfCommandDone => exact endsMemOk_execKfCommandDone h _ _ _
    case recoveryRequest => exact endsMemOk_execRecoveryRequest h _
    case recoveryExit => exact endsMemOk_execRecoveryExit h _
    case psDeepEntry => exact endsMemOk_execPsDeepEntry h _ _ _
    case sensorSample => exact endsMemOk_execSensorSample h _
    case thermalTrip => exact endsMemOk_execThermalTrip h _ _
    case restartComplete => exact endsMemOk_execRestartComplete h _ _
    case dramChannelLoss => exact endsMemOk_execDramChannelLoss h _ _
    case registerWrite => exact endsMemOk_execRegisterWrite h _ _ _ _
    case partnerLoss => exact endsMemOk_execPartnerLoss h _ _ _ _ _
    case ackTimeout => exact endsMemOk_execAckTimeout h _
    case zynmiLinkTrained => exact endsMemOk_execZynmiLinkTrained h _
    case twinUnpair => exact endsMemOk_execTwinUnpair h _
    case twinFencePartner => exact endsMemOk_execTwinFencePartner h _ _
    case frameHeartbeat => exact endsMemOk_execFrameHeartbeat h _ _ _ _ _ _ _ _
    case frameFailing => exact endsMemOk_execFrameFailing h _ _ _
    case frameAck => exact endsMemOk_execFrameAck h _ _ _
    case frameStop => exact endsMemOk_execFrameStop h _ _ _
    -- The other commands are not named for the bytes of keeper flash.
    all_goals exact absurd rfl hleft

/-- Settles O4: the front command keeps the form, whatever it is, and an empty queue changes nothing. -/
theorem keeperFlashStaysCanonical : Obligations.KeeperFlashStaysCanonical := by
  unfold Obligations.KeeperFlashStaysCanonical
  intro s t hmem ht
  cases hq : s.pending with
  | nil =>
    rw [step_of_pending_nil hq] at ht
    cases ht
    exact hmem
  | cons c cs =>
    rw [step_of_pending_cons hq] at ht
    exact exec_endsMemOk c (s := { s with pending := cs }) hmem t ht

end Sys2Proof.Proofs
end

section
/-! PROOFS. Temperature, throttle levels and the core supply (R474 to R482): what a sample, a supply request and a trip leave of the power state. -/
namespace Sys2Proof.Proofs
open Sys2Proof Sys2Proof.Machine Sys2Proof.Laws

/-! ## THROTTLED and the core supply leave the rest of the power state -/

/-- THROTTLED counts its entries only. -/
theorem settleThrottle_power (s : State) : ∃ n, (settleThrottle s).power = { s.power with throttleEntries := n } := by
  unfold settleThrottle
  dsimp only
  repeat' split
  · exact ⟨s.power.throttleEntries, rfl⟩
  · exact ⟨s.power.throttleEntries + 1, rfl⟩
  · exact ⟨s.power.throttleEntries, rfl⟩

/-- A voltage asked changes the request and its counts only. -/
theorem askVolt_power (s : State) (mv : Nat) : ∃ target pending next sent requests total, (askVolt s mv).power =
    { s.power with avsTarget := target, avsPending := pending, avsNext := next, avsAt := sent, avsRequests := requests, avsTotal := total } := by
  unfold askVolt avsSend
  split
  · exact ⟨_, _, _, _, _, _, rfl⟩
  · rw [updPower_power]
    split
    all_goals exact ⟨_, _, _, _, _, _, rfl⟩

/-! ## A sample (R476, R477, R479) -/

/-- What a sample shows of the power state and what its levels are set from. -/
def sensed (s : State) : Int × BitVec 16 × Nat × Feat := (s.power.maxTemp, s.power.valid, s.power.st, s.feat)

theorem sensed_askVolt (s : State) (mv : Nat) : sensed (askVolt s mv) = sensed s ∧ (askVolt s mv).power.band = s.power.band := by
  obtain ⟨_, _, _, _, _, _, hpower⟩ := askVolt_power s mv
  have hfeat : (askVolt s mv).feat = s.feat := feat_of_rest (rest_askVolt (L := but .feat) rfl s mv) rfl
  simp [sensed, hpower, hfeat]

theorem sensed_takeSample (s : State) (raw : List Int) : (takeSample s raw).power.st = s.power.st ∧ (takeSample s raw).feat = s.feat ∧
    (takeSample s raw).power.band = s.power.band ∧ (takeSample s raw).kf = s.kf := ⟨rfl, rfl, rfl, rfl⟩

theorem sensed_trainOn (s : State) : sensed (trainOn s) = sensed s ∧ (trainOn s).power.band = s.power.band := by
  unfold trainOn
  split
  · exact ⟨rfl, rfl⟩
  · rw [sensed, sensed, updPower_power, updPower_feat]
    split <;> exact ⟨rfl, rfl⟩

/-- The band after a sample is set from the state before the sample's retraining. -/
theorem bandFor_congr {s t : State} (h : sensed t = sensed s) (hband : t.power.band = s.power.band) : bandFor t = bandFor s := by
  simp only [sensed, Prod.mk.injEq] at h
  obtain ⟨htemp, _, _, hfeat⟩ := h
  have henter : bandEnter t = bandEnter s := by
    funext b
    rw [bandEnter, bandEnter, hfeat]
  have hleave : bandLeave t = bandLeave s := by
    funext b
    rw [bandLeave, bandLeave, releasePoint, releasePoint, hfeat]
  unfold bandFor
  rw [henter, hleave, htemp, hband]

/-- The band entered, with its event, as a retraining pass may follow it. -/
def bandEntered (s : State) : State :=
  let t := raiseEvent (updPower s (fun p => { p with band := bandFor s })) 5 (bandFor s) (s32 s.power.maxTemp) s.power.band
  if s.power.st < 2 then startRetrain t else t

theorem sensed_bandEntered (s : State) : sensed (bandEntered s) = sensed s ∧ (bandEntered s).power.band = bandFor s ∧ (bandEntered s).raised ≠ [] := by
  unfold bandEntered
  dsimp only
  split
  all_goals exact ⟨rfl, rfl, by simp [raiseEvent, startRetrain, updPower]⟩

theorem settleBand_of_changed {s : State} (h : bandFor s ≠ s.power.band) :
    settleBand s = if s.power.st < 3 then askVolt (bandEntered s) (voltItem (bandEntered s) (0x400 + bandFor s)) else bandEntered s := by
  have hst : (bandEntered s).power.st = s.power.st := congrArg (·.2.2.1) (sensed_bandEntered s).1
  unfold settleBand
  rw [if_neg (by simpa using h)]
  change (if (bandEntered s).power.st < 3 then _ else _) = _
  rw [hst]
  rfl

theorem sensed_settleBand (s : State) : sensed (settleBand s) = sensed s ∧ (settleBand s).power.band = bandFor s := by
  by_cases h : bandFor s = s.power.band
  · rw [settleBand, if_pos (by simpa using h)]
    exact ⟨rfl, h.symm⟩
  · obtain ⟨hsensed, hband, _⟩ := sensed_bandEntered s
    rw [settleBand_of_changed h]
    split
    · exact ⟨(sensed_askVolt ..).1.trans hsensed, (sensed_askVolt ..).2.trans hband⟩
    · exact ⟨hsensed, hband⟩

/-- A change of band raises its event. -/
theorem raised_settleBand {s : State} (h : bandFor s ≠ s.power.band) : (settleBand s).raised ≠ [] := by
  obtain ⟨_, _, hraised⟩ := sensed_bandEntered s
  rw [settleBand_of_changed h]
  split
  · rwa [raised_of_rest (rest_askVolt (L := but .raised) rfl _ _) rfl]
  · exact hraised

/-- The thermal level for a state's temperature and band. -/
def levelFor (s : State) : Nat :=
  if s.power.band ≠ 4 then 0
  else if s.power.maxTemp < (s.feat.throttlePoint : Int) then 1 else Nat.min 12 (2 + 2 * (s.power.maxTemp - s.feat.throttlePoint).toNat)

theorem settleLevel_power (s : State) : ∃ n, (settleLevel s).power =
    { s.power with lt := if 2 < s.power.st then s.power.lt else levelFor s, throttleEntries := n } := by
  unfold settleLevel
  dsimp only
  split
  · exact ⟨s.power.throttleEntries, rfl⟩
  · obtain ⟨n, hn⟩ := settleThrottle_power (updPower s (fun p => { p with lt := levelFor s }))
    refine ⟨n, Eq.trans ?_ hn⟩
    simp only [levelFor, bne_iff_ne]

/-- The state that a sample leaves, but for what its end of cycle sends. -/
def sampleTaken (s : State) (raw : List Int) : State := settleLevel (settleBand (trainOn (takeSample s raw)))

theorem exec_sensorSample {s : State} (hporst : s.kf.porst = false) (hhold : s.kf.tripHold = false) (raw : List Int) :
    exec (.sensorSample raw) s = .next (endCycle (sampleTaken s raw)) := by
  have hexec : exec (.sensorSample raw) s = execSensorSample raw s := rfl
  have hkf : (takeSample s raw).kf = s.kf := rfl
  rw [hexec, execSensorSample]
  simp only [hporst, hkf, hhold, Bool.false_eq_true, if_false]
  rfl

section Sample

variable (s : State) (raw : List Int)

theorem bandFor_sampled : bandFor (trainOn (takeSample s raw)) = bandFor (takeSample s raw) :=
  bandFor_congr (sensed_trainOn _).1 (sensed_trainOn _).2

/-- The state whose band a sample has settled shows what the sample read. -/
theorem sensed_sampled : sensed (settleBand (trainOn (takeSample s raw))) = sensed (takeSample s raw) ∧
    (settleBand (trainOn (takeSample s raw))).power.band = bandFor (takeSample s raw) := by
  obtain ⟨hsensed, hband⟩ := sensed_settleBand (trainOn (takeSample s raw))
  exact ⟨hsensed.trans (sensed_trainOn _).1, hband.trans (bandFor_sampled s raw)⟩

theorem power_sampleTaken : (sampleTaken s raw).power.maxTemp = (takeSample s raw).power.maxTemp ∧
    (sampleTaken s raw).power.valid = (takeSample s raw).power.valid ∧ (sampleTaken s raw).power.band = bandFor (takeSample s raw) := by
  obtain ⟨hsensed, hband⟩ := sensed_sampled s raw
  obtain ⟨n, hpower⟩ := settleLevel_power (settleBand (trainOn (takeSample s raw)))
  simp only [sensed, Prod.mk.injEq] at hsensed
  simp only [sampleTaken, hpower, hsensed, hband, and_self]

/-- In PS0 to PS2 a sample sets LT from the temperature that it reported and the band that it entered. -/
theorem lt_sampleTaken (hst : s.power.st ≤ 2) : (sampleTaken s raw).power.lt =
    if (sampleTaken s raw).power.band ≠ 4 then 0
    else if (sampleTaken s raw).power.maxTemp < (s.feat.throttlePoint : Int) then 1
    else Nat.min 12 (2 + 2 * ((sampleTaken s raw).power.maxTemp - s.feat.throttlePoint).toNat) := by
  obtain ⟨hsensed, hband⟩ := sensed_sampled s raw
  obtain ⟨htemp, _, hshown⟩ := power_sampleTaken s raw
  obtain ⟨n, hpower⟩ := settleLevel_power (settleBand (trainOn (takeSample s raw)))
  simp only [sensed, Prod.mk.injEq] at hsensed
  obtain ⟨hread, _, hstate, hfeat⟩ := hsensed
  have hlt : (sampleTaken s raw).power.lt = levelFor (settleBand (trainOn (takeSample s raw))) := by
    rw [sampleTaken, hpower]
    exact if_neg (by rw [hstate, (sensed_takeSample s raw).1]; omega)
  rw [hlt, levelFor, hband, hread, hfeat, htemp, hshown, (sensed_takeSample s raw).2.1]

/-- A change of band sends an event. -/
theorem evSeq_sampleTaken (h : bandFor (takeSample s raw) ≠ s.power.band) : s.evSeq < (endCycle (sampleTaken s raw)).evSeq := by
  have hraised : (sampleTaken s raw).raised ≠ [] := by
    rw [sampleTaken, raised_of_rest (rest_settleLevel (L := but .raised) rfl _) rfl]
    refine raised_settleBand ?_
    rw [bandFor_sampled, (sensed_trainOn _).2]
    exact h
  have hseq : (sampleTaken s raw).evSeq = s.evSeq := by
    rw [sampleTaken, evSeq_of_rest (rest_settleLevel (L := but .evSeq) rfl _) rfl, evSeq_of_rest (rest_settleBand (L := but .evSeq) rfl _) rfl,
      evSeq_of_rest (rest_trainOn (L := but .evSeq) rfl _) rfl]
    rfl
  have hlen := List.length_pos_iff.mpr hraised
  rw [endCycle, evSeq_foldl_sendEvent, List.length_append]
  change s.evSeq < (sampleTaken s raw).evSeq + _
  omega

end Sample

/-! ## Throttle levels (R479 to R481) -/

theorem throttleLevel_covers (s : State) : s.power.lt ≤ throttleLevel s ∧ s.power.lp ≤ throttleLevel s ∧
    ((s.power.avsHold = true ∨ s.power.degraded = true) → 12 ≤ throttleLevel s) := by
  refine ⟨(Nat.le_max_left ..).trans (Nat.le_max_left ..), (Nat.le_max_right ..).trans (Nat.le_max_left ..), fun h => ?_⟩
  have hheld : (if s.power.avsHold || s.power.degraded then 12 else 0) = 12 := if_pos (by simpa using h)
  exact hheld.symm.trans_le (Nat.le_max_right ..)

/-- The throttle level is one of the levels that it is the greatest of. -/
theorem throttleLevel_attained (s : State) : throttleLevel s = s.power.lt ∨ throttleLevel s = s.power.lp ∨
    ((s.power.avsHold = true ∨ s.power.degraded = true) ∧ throttleLevel s = 12) := by
  by_cases hheld : s.power.avsHold = true ∨ s.power.degraded = true
  · have h : throttleLevel s = max (max s.power.lt s.power.lp) 12 := by
      rw [throttleLevel, if_pos (by simpa using hheld)]
    simp only [hheld, true_and]
    omega
  · have h : throttleLevel s = max (max s.power.lt s.power.lp) 0 := by
      rw [throttleLevel, if_neg (by simpa using hheld)]
    omega

/-- A share of sixteenths of the dies, rounded up (R481). -/
theorem dieLimit_bounds (l d : Nat) : (16 - l) * d ≤ 16 * dieLimit l d ∧ 16 * dieLimit l d < (16 - l) * d + 16 := by
  unfold dieLimit ceilDiv
  omega

/-- P_est from the core rail's power and the activity of the other rails (R475). -/
def estimate (s : State) (w a : Nat) : Nat :=
  Nat.min 0xFFFF (w + Config.otherRails a ((List.range 16).map (fun i => (itemOf s.kf.effective (0x4F0 + i)).getD 0)))

/-- LP as an estimate moves it by one towards the cap (R480). -/
def movedLevel (p : Power) (est : Nat) : Nat :=
  if p.cap = 0 then 0 else if 10 * p.cap < est then Nat.min 12 (p.lp + 1) else if est + 20 < 10 * p.cap then p.lp - 1 else p.lp

theorem power_powerLevelUpdate {s : State} (hst : s.power.st ≤ 2) (hporst : s.kf.porst = false) (w a : Nat) :
    ∃ t, exec (.powerLevelUpdate w a) s = .next t ∧ t.power.est = estimate s w a ∧ t.power.lp = movedLevel s.power (estimate s w a) := by
  have hlive : ¬(decide (2 < s.power.st) || s.kf.porst) = true := by simp [hporst, hst]
  have hexec : exec (.powerLevelUpdate w a) s =
      .next (endCycle (settleThrottle (updPower s (fun p => { p with est := estimate s w a, lp := movedLevel p (estimate s w a) })))) := by
    change execPowerLevelUpdate w a s = _
    rw [execPowerLevelUpdate, if_neg hlive]
    simp only [movedLevel, ← beq_iff_eq (a := (_ : Nat))]
    rfl
  refine ⟨_, hexec, ?_⟩
  obtain ⟨n, hpower⟩ := settleThrottle_power (updPower s (fun p => { p with est := estimate s w a, lp := movedLevel p (estimate s w a) }))
  simp only [endCycle_power, hpower, updPower_power, and_self]

/-- Settles O58: LT from the sample, LP from the estimate, and the level as the greatest of its parts. -/
theorem throttleLevelsAreSet : Obligations.ThrottleLevelsAreSet := by
  unfold Obligations.ThrottleLevelsAreSet
  intro s hst hporst
  refine ⟨fun raw hhold => ?thermal, fun w a => ?power, ?greatest, fun l d _ => dieLimit_bounds l d⟩
  case thermal =>
    refine ⟨_, exec_sensorSample hporst hhold raw, ?_⟩
    rw [endCycle_power]
    have hlt := lt_sampleTaken s raw hst
    refine ⟨fun hband => ?_, fun hband hbelow => ?_, fun hband habove => ?_⟩
    · rw [hlt, if_pos hband]
    · rw [hlt, if_neg (not_not.mpr hband), if_pos hbelow]
    · rw [hlt, if_neg (not_not.mpr hband), if_neg (not_lt.mpr habove)]
      change ((min 12 _ : Nat) : Int) = _
      omega
  case power =>
    obtain ⟨t, ht, hest, hlp⟩ := power_powerLevelUpdate hst hporst w a
    refine ⟨t, ht, ?_⟩
    rw [hest, hlp, movedLevel]
    refine ⟨fun hcap => ?_, fun hcap hover => ?_, fun hcap hunder => ?_, fun hcap hlow hhigh => ?_⟩
    · exact if_pos hcap
    · rw [if_neg hcap, if_pos hover]
    · rw [if_neg hcap, if_neg (by omega), if_pos hunder]
    · rw [if_neg hcap, if_neg (by omega), if_neg (by omega)]
  case greatest =>
    obtain ⟨hlt, hlp, hheld⟩ := throttleLevel_covers s
    exact ⟨hlt, hlp, hheld, throttleLevel_attained s⟩

end Sys2Proof.Proofs
end

section
/-! PROOFS. AVSBus requests, the band and trips (R474, R476, R477, R482). -/
namespace Sys2Proof.Proofs
open Sys2Proof Sys2Proof.Machine Sys2Proof.Laws

/-! ## An entry abandoned (R468) -/

/-- Back in PS0: what was entering and what woke is forgotten. -/
theorem toPs0_power (s : State) : ∃ entries, (toPs0 s).power = { s.power with
    st := 0, entering := none, commitAo := none, domainsOff := false, idleFrom := s.now, lastRefused := none, matchLatch := false, entries := entries } := by
  unfold toPs0
  dsimp only
  split
  all_goals exact ⟨_, rfl⟩

@[simp] theorem unparkBays_power (s : State) (deep : Bool) : (unparkBays s deep).power = s.power := rfl

@[simp] theorem unparkBays_now (s : State) (deep : Bool) : (unparkBays s deep).now = s.now := rfl

/-- An abandoned entry is counted as a refusal and leaves PS0. -/
theorem abandonEntry_power {s : State} {target n : Nat} (h : s.power.entering = some (target, n)) (reason : Nat) :
    ∃ entries, (abandonEntry s reason).power = { s.power with
      refusals := s.power.refusals.modify reason (· + 1), refuseReason := reason, refuseTarget := target, refuseValid := true, ps4Now := false
      st := 0, entering := none, commitAo := none, domainsOff := false, idleFrom := s.now, lastRefused := none, matchLatch := false, entries := entries } := by
  have hstate : abandonEntry s reason = toPs0 (countRefusal (if 3 < n then unparkBays s (target == 4) else s) reason target) := by
    simp only [abandonEntry, h]
  rw [hstate]
  split
  all_goals
    obtain ⟨entries, hpower⟩ := toPs0_power (countRefusal _ reason target)
    exact ⟨entries, hpower⟩

/-! ## AVSBus requests (R474) -/

/-- The request supplyInForce: its voltage is in force. -/
def supplyInForce (s : State) : State :=
  updPower s (fun p => { p with avsPending := none, avsNow := p.avsTarget, avsFault := false, avsHold := false, avsNext := none })

theorem exec_avsAck {s : State} {cyc : Nat} (hcyc : cyc ≤ s.now) {x : Nat × Bool} (h : s.power.avsPending = some x) : exec (.avsAck cyc) s =
    .next (endCycle (settleThrottle (match s.power.avsNext with | some mv => avsSend (supplyInForce s) mv | none => supplyInForce s))) := by
  change execAvsAck cyc s = _
  rw [execAvsAck, advanceTo_past hcyc]
  simp only [h]
  rfl

/-- An supplyInForce request with a target waiting sends it at once. -/
theorem avsAck_next {s : State} {cyc : Nat} (hcyc : cyc ≤ s.now) {x : Nat × Bool} (h : s.power.avsPending = some x) :
    ∃ t, exec (.avsAck cyc) s = .next t ∧ t.power.avsNow = s.power.avsTarget ∧ t.power.avsFault = false ∧ t.power.avsHold = false ∧
      (s.power.avsNext = none → t.power.avsPending = none) ∧
      (∀ mv, s.power.avsNext = some mv → t.power.avsTarget = mv ∧ t.power.avsPending = some (1, decide (s.power.avsTarget < mv))) := by
  refine ⟨_, exec_avsAck hcyc h, ?_⟩
  cases hnext : s.power.avsNext with
  | none =>
    obtain ⟨n, hpower⟩ := settleThrottle_power (supplyInForce s)
    simp only [endCycle_power, hpower]
    exact ⟨rfl, rfl, rfl, fun _ => rfl, fun _ h => absurd h (Option.some_ne_none _).symm⟩
  | some mv =>
    obtain ⟨n, hpower⟩ := settleThrottle_power (avsSend (supplyInForce s) mv)
    simp only [endCycle_power, hpower]
    refine ⟨rfl, rfl, rfl, fun h => absurd h (Option.some_ne_none _), fun mv' h => ?_⟩
    cases h
    exact ⟨rfl, rfl⟩

/-- A resend asks for the newest target and counts itself. -/
theorem avsResend_power {s : State} {n : Nat} {raise : Bool} (h : s.power.avsPending = some (n, raise)) (k : Nat) :
    ∃ r, (avsResend s k).power.avsPending = some (k, r) ∧ (avsResend s k).power.avsRetries = satAdd 0xFFFF s.power.avsRetries 1 ∧
      (avsResend s k).power.avsTarget = s.power.avsNext.getD s.power.avsTarget ∧ (avsResend s k).power.avsFault = s.power.avsFault :=
  ⟨_, congrArg (Option.map _) h, rfl, rfl, rfl⟩

/-- FAULT held after the fourth attempt. -/
def faultHeld (s : State) (raise : Bool) : State :=
  updPower s (fun p => { p with avsFault := true, avsHold := p.avsHold || raise, avsPending := some (5, raise) })

section Retry

variable {s : State} {cyc n : Nat} {raise : Bool} (hcyc : cyc ≤ s.now) (h : s.power.avsPending = some (n, raise))
include hcyc h

theorem exec_avsRetryTimeout : exec (.avsRetryTimeout cyc) s =
    if s.now < s.power.avsAt + (if 4 < n then 10000000 else 100000) then settled s
    else if n < 4 then settled (avsResend s (n + 1))
    else if 4 < n then settled (avsResend s n)
    else settled (settleThrottle (if s.power.entering.isSome && s.power.commitAo.isNone then abandonEntry (faultHeld s raise) 5 else faultHeld s raise)) := by
  change execAvsRetryTimeout cyc s = _
  rw [execAvsRetryTimeout, advanceTo_past hcyc]
  simp only [h]
  rfl

theorem avsRetry_resends (hn : n < 4) (hdue : s.power.avsAt + 100000 ≤ s.now) :
    exec (.avsRetryTimeout cyc) s = .next (endCycle (avsResend s (n + 1))) := by
  rw [exec_avsRetryTimeout hcyc h, if_neg (by rw [if_neg (by omega)]; omega), if_pos hn]
  rfl

theorem avsRetry_repeats (hn : 4 < n) (hdue : s.power.avsAt + 10000000 ≤ s.now) : exec (.avsRetryTimeout cyc) s = .next (endCycle (avsResend s n)) := by
  rw [exec_avsRetryTimeout hcyc h, if_neg (by rw [if_pos hn]; omega), if_neg (by omega), if_pos hn]
  rfl

/-- The fourth attempt unanswered: FAULT, and an entry before its commit is abandoned under reason 5. -/
theorem avsRetry_faults (hn : n = 4) (hdue : s.power.avsAt + 100000 ≤ s.now) :
    ∃ t, exec (.avsRetryTimeout cyc) s = .next t ∧ t.power.avsFault = true ∧ t.power.avsHold = (s.power.avsHold || raise) ∧
      t.power.avsPending = some (5, raise) ∧
      (∀ target k, s.power.entering = some (target, k) → s.power.commitAo = none → t.power.entering = none ∧ t.power.st = 0 ∧ t.power.refuseReason = 5) := by
  rw [exec_avsRetryTimeout hcyc h, if_neg (by rw [if_neg (by omega)]; omega), if_neg (by omega), if_neg (by omega)]
  refine ⟨_, rfl, ?_⟩
  rw [endCycle_power]
  split
  · next hentry =>
    obtain ⟨n, hpower⟩ := settleThrottle_power (abandonEntry (faultHeld s raise) 5)
    obtain ⟨⟨target, k⟩, hent⟩ := Option.isSome_iff_exists.mp (Bool.and_eq_true_iff.mp hentry).1
    obtain ⟨entries, hleft⟩ := abandonEntry_power (s := faultHeld s raise) hent 5
    rw [hpower, hleft]
    exact ⟨rfl, rfl, rfl, fun _ _ _ _ => ⟨rfl, rfl, rfl⟩⟩
  · next hentry =>
    obtain ⟨n, hpower⟩ := settleThrottle_power (faultHeld s raise)
    rw [hpower]
    refine ⟨rfl, rfl, rfl, fun target k hent hcommit => absurd ?_ hentry⟩
    simp [hent, hcommit]

end Retry

/-! ## Trips (R482) -/

@[simp] theorem letGo_power (s : State) : (letGo s).power = s.power := power_of_rest (rest_letGo (L := but .power) rfl s) rfl

@[simp] theorem letGo_jrnl (s : State) : (letGo s).jrnl = s.jrnl := jrnl_of_rest (rest_letGo (L := but .jrnl) rfl s) rfl

theorem trips_abandonEntry (s : State) (reason : Nat) : (abandonEntry s reason).power.trips = s.power.trips := by
  cases h : s.power.entering with
  | none => simp [abandonEntry, h]
  | some e =>
    obtain ⟨entries, hpower⟩ := abandonEntry_power (target := e.1) (n := e.2) h reason
    rw [hpower]

theorem trips_toPs0 (s : State) : (toPs0 s).power.trips = s.power.trips := by
  obtain ⟨entries, hpower⟩ := toPs0_power s
  rw [hpower]

/-- The state that the stop of a loss of power begins in, where the part was not in PS3 or PS4. -/
def woken (s : State) : State :=
  let t := abandonEntry s 7
  let t := if t.power.st == 2 then unparkBays t false else t
  let t := if t.power.st == 0 then t else toPs0 (noteWake t 6 t.power.st)
  updPower t (fun p => { p with retrain := none })

theorem jrnl_woken (s : State) : (woken s).jrnl = s.jrnl := by
  have habandon := jrnl_of_rest (rest_abandonEntry (L := but .jrnl) rfl s 7) rfl
  have hps0 (t : State) : (toPs0 t).jrnl = t.jrnl := jrnl_of_rest (rest_toPs0 (L := but .jrnl) rfl t) rfl
  have hnote (t : State) (n : Nat) : (noteWake t 6 n).jrnl = t.jrnl := rfl
  have hunpark (t : State) : (unparkBays t false).jrnl = t.jrnl := rfl
  unfold woken
  dsimp only
  repeat' split
  all_goals simp only [updPower_jrnl, hps0, hnote, hunpark, habandon]

theorem trips_woken (s : State) : (woken s).power.trips = s.power.trips := by
  have hnote (t : State) (n : Nat) : (noteWake t 6 n).power.trips = t.power.trips := rfl
  unfold woken
  dsimp only
  repeat' split
  all_goals simp only [updPower_power, trips_toPs0, hnote, unparkBays_power, trips_abandonEntry]

/-- A loss of power stops a running part under its kind, and counts no trip. -/
theorem powerStop_stops {s : State} (hrun : s.jrnl.stopFrom = none) :
    (powerStop s).jrnl.stopFrom.isSome = true ∧ (powerStop s).jrnl.stopKind = .powerFail ∧ (powerStop s).power.trips = s.power.trips := by
  unfold powerStop
  extract_lets deep late left
  split
  · exact ⟨rfl, rfl, rfl⟩
  · change (if (woken s).jrnl.cleanStands then stopAtOnce (woken s) .powerFail else beginStop (woken s) .powerFail [] true).jrnl.stopFrom.isSome = true ∧
      (if (woken s).jrnl.cleanStands then stopAtOnce (woken s) .powerFail else beginStop (woken s) .powerFail [] true).jrnl.stopKind = .powerFail ∧
      (if (woken s).jrnl.cleanStands then stopAtOnce (woken s) .powerFail else beginStop (woken s) .powerFail [] true).power.trips = s.power.trips
    split
    · exact ⟨rfl, rfl, trips_woken s⟩
    · obtain ⟨hfrom, hkind, _, _⟩ := beginStop_begins (s := woken s) ((congrArg Jrnl.stopFrom (jrnl_woken s)).trans hrun) .powerFail []
      have hpower := power_of_rest (rest_beginStop (L := but .power) rfl (woken s) .powerFail [] true) rfl
      exact ⟨by rw [hfrom]; rfl, hkind, (congrArg Power.trips hpower).trans (trips_woken s)⟩

/-- The part stopped by a trip, unless it stops or recovers already. -/
def stoppedByTrip (s : State) : State := if s.jrnl.stopFrom.isSome || s.kf.recMode then s else powerStop s

theorem trips_stoppedByTrip (s : State) : (stoppedByTrip s).power.trips = s.power.trips := by
  unfold stoppedByTrip
  split
  · rfl
  · next h => exact (powerStop_stops (by simp_all)).2.2

/-- The trip counted. -/
def tripCounted (s : State) : State := updPower (stoppedByTrip s) (fun p => { p with tripped := true, trips := p.trips + 1 })

/-- A trip that is due stops the part, is counted, and lets go of its bays and ports once the stop has ended. -/
theorem exec_thermalTrip {s : State} {cyc : Nat} (hcyc : cyc ≤ s.now) {comparator : Bool} (hporst : s.kf.porst = false) (hfirst : s.power.tripped = false)
    (hdue : comparator = true ∨ ∃ n ∈ s.power.hotRuns, 2 ≤ n) :
    ∃ t, exec (.thermalTrip comparator cyc) s = .next t ∧ t.power = (tripCounted s).power ∧ t.jrnl = (stoppedByTrip s).jrnl := by
  have hseen : (comparator || s.power.hotRuns.any (fun n => decide (2 ≤ n))) = true := by simpa using hdue
  have hexec : exec (.thermalTrip comparator cyc) s =
      .next (if (tripCounted s).jrnl.stopFrom.isNone || (tripCounted s).jrnl.stopEnded then letGo (tripCounted s) else tripCounted s) := by
    change execThermalTrip comparator cyc s = _
    rw [execThermalTrip, advanceTo_past hcyc, if_neg (by simp [hporst, hfirst, hseen])]
    rfl
  refine ⟨_, hexec, ?_⟩
  split
  · exact ⟨letGo_power _, letGo_jrnl _⟩
  · exact ⟨rfl, rfl⟩

/-- Settles O57: each request's answer by its attempt, the band by the sample, the trip by the stop that it begins. -/
theorem supplyAndTemperatureAreHeld : Obligations.SupplyAndTemperatureAreHeld := by
  unfold Obligations.SupplyAndTemperatureAreHeld
  intro s cyc hcyc
  refine ⟨fun n raise hpend => ⟨avsAck_next hcyc hpend, fun hn hdue => ?resend, avsRetry_faults hcyc hpend, fun hn hdue => ?again⟩,
    fun raw hporst hhold => ?sample, fun comparator hporst hfirst hdue => ?trip⟩
  case resend =>
    obtain ⟨r, hpending, hretries, htarget, _⟩ := avsResend_power hpend (n + 1)
    refine ⟨_, r, avsRetry_resends hcyc hpend hn hdue, ?_⟩
    rw [endCycle_power]
    exact ⟨hpending, hretries, htarget⟩
  case again =>
    obtain ⟨r, hpending, _, _, hfault⟩ := avsResend_power hpend n
    refine ⟨_, r, avsRetry_repeats hcyc hpend hn hdue, ?_⟩
    rw [endCycle_power]
    exact ⟨hpending, hfault⟩
  case sample =>
    obtain ⟨htemp, hvalid, hband⟩ := power_sampleTaken s raw
    refine ⟨_, exec_sensorSample hporst hhold raw, ?_⟩
    rw [endCycle_power]
    exact ⟨htemp, hvalid, hband, fun hnew => evSeq_sampleTaken s raw (hband ▸ hnew)⟩
  case trip =>
    obtain ⟨t, ht, hpower, hjrnl⟩ := exec_thermalTrip hcyc hporst hfirst hdue
    refine ⟨t, ht, ?_, ?_, ?_, fun hrec hrun => ?_⟩
    · rw [hpower]
      rfl
    · rw [hpower]
      exact congrArg (· + 1) (trips_stoppedByTrip s)
    · have htripped : t.power.tripped = true := congrArg Power.tripped hpower
      simp [faultLow, htripped]
    · have hstop : stoppedByTrip s = powerStop s := if_neg (by simp [hrec, hrun])
      obtain ⟨hfrom, hkind, _⟩ := powerStop_stops hrun
      rw [hjrnl, hstop]
      exact ⟨hfrom, hkind⟩

end Sys2Proof.Proofs
end

section
/-! PROOFS. Power states entered, refused, abandoned and woken (R465 to R471, R487, R512). -/
namespace Sys2Proof.Proofs
open Sys2Proof Sys2Proof.Machine Sys2Proof.Laws

/-! ## The idle timer (R466, R467) -/

/-- A target refused is counted; its state is none the deeper. -/
theorem refuseTarget_power (s : State) (target : Nat) : (refuseTarget s target).power.st = s.power.st ∧
    (refuseTarget s target).power.entering = s.power.entering ∧ (refuseTarget s target).power.testHold = s.power.testHold ∧
    (refuseTarget s target).power.limit = s.power.limit ∧
    (s.power.lastRefused = none → (refuseTarget s target).power = (countRefusal s (refusalReason s target) target).power) := by
  unfold refuseTarget
  extract_lets again
  split
  · next h =>
    refine ⟨rfl, rfl, rfl, rfl, fun hfirst => absurd h ?_⟩
    simp [again, hfirst]
  · exact ⟨rfl, rfl, rfl, rfl, fun _ => rfl⟩

/-- The refusal of a target that the cap does not allow. -/
def refusalCounted (s : State) : State := if powerCap s < powerTarget s then refuseTarget s (powerTarget s) else s

/-- The state that the idle timer enters: the shallower of the target and the cap. -/
def entered (s : State) : Nat := Nat.min (powerTarget s) (powerCap s)

theorem refusalCounted_power (s : State) : (refusalCounted s).power.st = s.power.st ∧ (refusalCounted s).power.entering = s.power.entering ∧
    (refusalCounted s).power.testHold = s.power.testHold ∧ (refusalCounted s).power.limit = s.power.limit ∧
    (powerCap s < powerTarget s → s.power.lastRefused = none →
      (refusalCounted s).power = (countRefusal s (refusalReason s (powerTarget s)) (powerTarget s)).power) := by
  obtain ⟨hst, hent, hhold, hlimit, hfirst⟩ := refuseTarget_power s (powerTarget s)
  unfold refusalCounted
  split
  · exact ⟨hst, hent, hhold, hlimit, fun _ => hfirst⟩
  · next h => exact ⟨rfl, rfl, rfl, rfl, fun hcap => absurd hcap h⟩

/-- A deep state begins to be entered. -/
def entryBegun (s : State) (go : Nat) : State :=
  updPower (if s.power.st == 2 then unparkBays s false else s) (fun p => { p with entering := some (go, 1) })

theorem entryBegun_power (s : State) (go : Nat) : (entryBegun s go).power = { s.power with entering := some (go, 1) } := by
  unfold entryBegun
  split <;> rfl

theorem enterLight_power (s : State) (st : Nat) : (enterLight s st).power = { s.power with st := st, entries := s.power.entries.modify st (· + 1) } := by
  unfold enterLight
  dsimp only
  split <;> rfl

/-- Where the part may go deeper, the idle timer counts what is refused and enters what is allowed. -/
theorem idleStep_of_deeper {s : State} (hent : s.power.entering = none) (hrun : s.jrnl.stopFrom = none) (hporst : s.kf.porst = false)
    (hrel : s.kf.released = true) (hdeeper : s.power.st < powerTarget s) : idleStep s =
      if entered s ≤ s.power.st then refusalCounted s
      else if entered s < 3 then enterLight (refusalCounted s) (entered s)
      else entryBegun (refusalCounted s) (entered s) := by
  have hst := (refusalCounted_power s).1
  unfold idleStep
  rw [if_neg (by simp [hent, hrun, hporst, hrel])]
  change (if powerTarget s ≤ s.power.st then s else _) = _
  rw [if_neg (not_le.mpr hdeeper)]
  unfold entryBegun
  rw [hst]
  rfl

theorem idleStep_settings (s : State) : (idleStep s).power.testHold = s.power.testHold ∧ (idleStep s).power.limit = s.power.limit := by
  by_cases hlive : s.power.entering = none ∧ s.jrnl.stopFrom = none ∧ s.kf.porst = false ∧ s.kf.released = true ∧ s.power.st < powerTarget s
  · obtain ⟨hent, hrun, hporst, hrel, hdeeper⟩ := hlive
    obtain ⟨_, _, hhold, hlimit, _⟩ := refusalCounted_power s
    rw [idleStep_of_deeper hent hrun hporst hrel hdeeper]
    repeat' split
    · exact ⟨hhold, hlimit⟩
    · rw [enterLight_power]
      exact ⟨hhold, hlimit⟩
    · rw [entryBegun_power]
      exact ⟨hhold, hlimit⟩
  · have hleft : idleStep s = s := by
      unfold idleStep
      split
      · rfl
      · next h => exact if_pos (not_lt.mp fun hdeeper => hlive (by simp_all))
    rw [hleft]
    exact ⟨rfl, rfl⟩

section Idle

variable {s : State} (hent : s.power.entering = none) (hrun : s.jrnl.stopFrom = none) (hporst : s.kf.porst = false) (hrel : s.kf.released = true)
  (hdeeper : s.power.st < powerTarget s)
include hent hrun hporst hrel hdeeper

theorem idleStep_enters :
    (entered s ≤ s.power.st → (idleStep s).power.st = s.power.st ∧ (idleStep s).power.entering = none) ∧
    (s.power.st < entered s → entered s < 3 → (idleStep s).power.st = entered s ∧ (idleStep s).power.entering = none) ∧
    (s.power.st < entered s → 3 ≤ entered s → (idleStep s).power.st = s.power.st ∧ (idleStep s).power.entering = some (entered s, 1)) := by
  obtain ⟨hst, hentry, _⟩ := refusalCounted_power s
  rw [idleStep_of_deeper hent hrun hporst hrel hdeeper]
  refine ⟨fun hstay => ?_, fun hgo hlight => ?_, fun hgo hdeep => ?_⟩
  · rw [if_pos hstay]
    exact ⟨hst, hentry.trans hent⟩
  · rw [if_neg (not_le.mpr hgo), if_pos hlight, enterLight_power]
    exact ⟨rfl, hentry.trans hent⟩
  · rw [if_neg (not_le.mpr hgo), if_neg (not_lt.mpr hdeep), entryBegun_power]
    exact ⟨hst, rfl⟩

theorem idleStep_refuses (hcap : powerCap s < powerTarget s) (hfirst : s.power.lastRefused = none) :
    (idleStep s).power.refuseValid = true ∧ (idleStep s).power.refuseTarget = powerTarget s ∧
      (idleStep s).power.refuseReason = refusalReason s (powerTarget s) ∧ (idleStep s).power.ps4Now = false := by
  obtain ⟨_, _, _, _, hcounted⟩ := refusalCounted_power s
  have hpower := hcounted hcap hfirst
  rw [idleStep_of_deeper hent hrun hporst hrel hdeeper]
  repeat' split
  · rw [hpower]
    exact ⟨rfl, rfl, rfl, rfl⟩
  · rw [enterLight_power, hpower]
    exact ⟨rfl, rfl, rfl, rfl⟩
  · rw [entryBegun_power, hpower]
    exact ⟨rfl, rfl, rfl, rfl⟩

end Idle

/-! ## PS4_NOW (R466) -/

/-- PS_CONTROL as it is written. -/
def controlSet (s : State) (v : Nat) : State :=
  updPower s (fun p => { p with
    limit := if bits v 2 0 ≤ 4 then bits v 2 0 else p.limit
    ps4Now := p.ps4Now || bits v 4 4 == 1, testHold := bits v 5 5 == 1 })

theorem bits_one_of_getLsbD {v : Word} {n : Nat} (h : v.getLsbD n = true) : bits v.toNat n n = 1 := by
  rw [bits, Nat.add_sub_cancel_left, pow_one, Nat.shiftRight_eq_div_pow]
  rw [← BitVec.testBit_toNat, Nat.testBit_eq_decide_div_mod_eq] at h
  exact of_decide_eq_true h

theorem exec_ps4NowWrite {s : State} {cyc : Nat} (hcyc : cyc ≤ s.now) {v : Word} (h : v.getLsbD 4 = true) :
    exec (.ps4NowWrite v cyc) s = .next (idleStep (controlSet s v.toNat)) := by
  change execPs4NowWrite v cyc s = _
  rw [execPs4NowWrite, if_pos h, advanceTo_past hcyc, writePsControl]
  rw [if_pos (by rw [bits_one_of_getLsbD h]; rfl)]
  rfl

theorem powerTarget_of_ps4Now {s : State} (h : s.power.ps4Now = true) : powerTarget s = 4 := if_pos h

/-- PS4_NOW votes on no cap: the cap is what the limit and the test hold leave. -/
theorem powerCap_controlSet {s : State} {v : Nat} (hlimit : bits v 2 0 = 4) (hhold : bits v 5 5 = 0) :
    powerCap (controlSet s v) = powerCap { s with power := { s.power with limit := 4, testHold := false } } := by
  have hvote : voteCap (controlSet s v) = voteCap { s with power := { s.power with limit := 4, testHold := false } } := by
    funext n
    simp only [voteCap, controlSet, updPower, hlimit, hhold]
    rfl
  rw [powerCap, powerCap, hvote]

/-! ## Waking (R470) -/

/-- What a wake records, with what it does not touch. -/
def wakeRecord (p : Power) : Nat × Nat × Nat × List Nat × Bool := (p.wakeSource, p.wakeFrom, p.wakeAet, p.refusals, p.tapOut)

theorem wakeRecord_toPs0 (s : State) : wakeRecord (toPs0 s).power = wakeRecord s.power := by
  obtain ⟨entries, hpower⟩ := toPs0_power s
  rw [hpower]
  rfl

theorem wakeRecord_askVolt (s : State) (mv : Nat) : wakeRecord (askVolt s mv).power = wakeRecord s.power := by
  obtain ⟨_, _, _, _, _, _, hpower⟩ := askVolt_power s mv
  rw [hpower]
  rfl

/-- The state brought back before PS0 is left to run. -/
def broughtBack (s : State) (code : Nat) : State :=
  let t := noteWake s code s.power.st
  let t := if 2 ≤ s.power.st then unparkBays t (s.power.st == 4) else t
  let t := if s.power.st == 4 then updEng t (fun e => { e with tc := [] }) else t
  if 3 ≤ s.power.st then returnCadence (askVolt t (voltItem t (0x400 + t.power.band))) else t

theorem wakeRecord_broughtBack (s : State) (code : Nat) :
    wakeRecord (broughtBack s code).power = (code, s.power.st, s.cad.aet, s.power.refusals, s.power.tapOut) := by
  have hreturn (t : State) : (returnCadence t).power = t.power := power_of_rest (rest_returnCadence (L := but .power) rfl t) rfl
  unfold broughtBack
  extract_lets t u v
  have hv : v.power = (noteWake s code s.power.st).power := by
    unfold v u t
    repeat' split
    all_goals rfl
  split
  · rw [hreturn, wakeRecord_askVolt, hv]
    rfl
  · rw [hv]
    rfl

theorem exitState_eq (s : State) (code : Nat) : exitState s code =
    if decide (2 ≤ s.power.st) && (toPs0 (broughtBack s code)).power.band != (toPs0 (broughtBack s code)).power.trainedBand
    then startRetrain (toPs0 (broughtBack s code)) else toPs0 (broughtBack s code) := rfl

theorem exitState_power (s : State) (code : Nat) : (exitState s code).power.st = 0 ∧ (exitState s code).power.domainsOff = false ∧
    (exitState s code).power.matchLatch = false ∧
    wakeRecord (exitState s code).power = (code, s.power.st, s.cad.aet, s.power.refusals, s.power.tapOut) := by
  have hrecord := (wakeRecord_toPs0 (broughtBack s code)).trans (wakeRecord_broughtBack s code)
  obtain ⟨entries, hpower⟩ := toPs0_power (broughtBack s code)
  have hps0 : (toPs0 (broughtBack s code)).power.st = 0 ∧ (toPs0 (broughtBack s code)).power.domainsOff = false ∧
      (toPs0 (broughtBack s code)).power.matchLatch = false := by
    rw [hpower]
    exact ⟨rfl, rfl, rfl⟩
  obtain ⟨hst, hoff, hlatch⟩ := hps0
  rw [exitState_eq]
  split
  all_goals exact ⟨hst, hoff, hlatch, hrecord⟩

theorem wakeBy_sleeps (hent : s.power.entering = none) {code : Nat} (h : wakesFrom code s.power.st = false) (ao : Nat) : wakeBy s code ao = s := by
  simp [wakeBy, hent, h]

/-- No wake changes the pin of the TAP. -/
theorem tapOut_wakeBy (s : State) (code ao : Nat) : (wakeBy s code ao).power.tapOut = s.power.tapOut := by
  have habandon : (abandonEntry s 6).power.tapOut = s.power.tapOut := by
    cases h : s.power.entering with
    | none => simp [abandonEntry, h]
    | some e =>
      obtain ⟨entries, hpower⟩ := abandonEntry_power (target := e.1) (n := e.2) h 6
      rw [hpower]
  have hexit : (exitState s code).power.tapOut = s.power.tapOut := congrArg (·.2.2.2.2) (exitState_power s code).2.2.2
  unfold wakeBy
  repeat' split
  all_goals simp only [habandon, hexit]

section Wake

variable {s : State} (hrun : s.jrnl.stopFrom = none) (hporst : s.kf.porst = false)
include hrun hporst

theorem wakeBy_wakes (hent : s.power.entering = none) {code : Nat} (h : wakesFrom code s.power.st = true) (ao : Nat) :
    wakeBy s code ao = exitState s code := by
  simp [wakeBy, hrun, hporst, hent, h]

/-- Before the commit of an entry every source abandons it. -/
theorem wakeBy_uncommitted {x : Nat × Nat} (hent : s.power.entering = some x) (hcommit : s.power.commitAo = none) {code : Nat} (hlow : 1 ≤ code)
    (hhigh : code ≤ 10) (ao : Nat) : wakeBy s code ao = abandonEntry s 6 := by
  simp [wakeBy, hrun, hporst, hent, hcommit, hlow, hhigh]

/-- A committed entry is abandoned before its cycle alone. -/
theorem wakeBy_committed {x : Nat × Nat} {c : Nat} (hent : s.power.entering = some x) (hcommit : s.power.commitAo = some c) (code ao : Nat) :
    wakeBy s code ao = if ao < c then abandonEntry s 6 else s := by
  simp [wakeBy, hrun, hporst, hent, hcommit]

end Wake

/-- The power state as a wake by a source leaves it, woken from s. -/
def WokenFrom (s t : State) (code : Nat) : Prop :=
  t.power.st = 0 ∧ t.power.wakeSource = code ∧ t.power.wakeFrom = s.power.st ∧ t.power.wakeAet = s.cad.aet ∧ t.power.domainsOff = false

theorem wokenFrom_exitState (s : State) (code : Nat) : WokenFrom s (exitState s code) code := by
  obtain ⟨hst, hoff, _, hrecord⟩ := exitState_power s code
  simp only [wakeRecord, Prod.mk.injEq] at hrecord
  obtain ⟨hsource, hfrom, haet, _⟩ := hrecord
  exact ⟨hst, hsource, hfrom, haet, hoff⟩

/-- The sources of an address match and of the TAP, and the maintenance timer, wake every state that they can find. -/
theorem wakesFrom_of_asleep {code st : Nat} (hcode : code = 5 ∨ code = 10) (hlow : 1 ≤ st) (hhigh : st ≤ 4) : wakesFrom code st = true := by
  rcases hcode with rfl | rfl <;> simp [wakesFrom, hlow, hhigh]

/-! ## Deep entry (R468) -/

@[simp] theorem settleFull_power (s : State) : (settleFull s).power = s.power := power_of_rest (rest_settleFull (L := but .power) rfl s) rfl

theorem bays_settleFull (s : State) : (settleFull s).media.bays = s.media.bays := by
  unfold settleFull
  dsimp only
  repeat' split
  all_goals rfl

/-- The power state as an entry given up leaves it. -/
def Abandoned (t : State) (target reason : Nat) : Prop :=
  t.power.entering = none ∧ t.power.st = 0 ∧ t.power.refuseValid = true ∧ t.power.refuseTarget = target ∧ t.power.refuseReason = reason

theorem abandoned_abandonEntry {s : State} {target n : Nat} (h : s.power.entering = some (target, n)) (reason : Nat) :
    Abandoned (abandonEntry s reason) target reason := by
  obtain ⟨entries, hpower⟩ := abandonEntry_power h reason
  rw [Abandoned, hpower]
  exact ⟨rfl, rfl, rfl, rfl, rfl⟩

theorem Abandoned.settleFull {t : State} {target reason : Nat} (h : Abandoned t target reason) : Abandoned (settleFull t) target reason := by
  rw [Abandoned, settleFull_power]
  exact h

theorem entering_nextStep {s : State} {target n : Nat} (h : s.power.entering = some (target, n)) :
    (nextStep s).power.entering = some (target, n + 1) := congrArg (Option.map _) h

theorem exec_psDeepEntry {s : State} (hrun : s.jrnl.stopFrom = none) {target n : Nat} (hent : s.power.entering = some (target, n)) (hn : n ≤ 6)
    (ok : Bool) (ao : Nat) : exec (.psDeepEntry n ok ao) s = .next (settleFull (deepStep s target n ok ao)) := by
  change execPsDeepEntry n ok ao s = _
  simp [execPsDeepEntry, hent, hrun, hn]

section DeepStep

variable {s : State} {target n : Nat} (hent : s.power.entering = some (target, n)) (ao : Nat)

theorem deepStep_busy (hbusy : s.ctxs ≠ []) (ok : Bool) : deepStep s target n ok ao = abandonEntry s 0 := by
  simp [deepStep, hbusy]

theorem deepStep_failed (hidle : s.ctxs = []) : deepStep s target n false ao = abandonEntry s (if n = 5 ∨ n = 6 then 5 else 7) := by
  simp [deepStep, hidle]

include hent

/-- With no medium to stop, the first two steps pass. -/
theorem deepStep_passes (hidle : s.ctxs = []) (hlow : 1 ≤ n) (hn : n ≤ 2) (hfree : mediumInUse s = false ∨ s.jrnl.cleanStands = true) :
    (deepStep s target n true ao).power.entering = some (target, n + 1) := by
  have hfree' : (!mediumInUse s || s.jrnl.cleanStands) = true := by simpa using hfree
  have hstep : deepStep s target n true ao = nextStep s := by
    obtain rfl | rfl : n = 1 ∨ n = 2 := by omega
    all_goals simp [deepStep, hidle, hfree']
  rw [hstep]
  exact entering_nextStep hent

theorem deepStep_parks (hidle : s.ctxs = []) (hlow : 3 ≤ n) (hn : n ≤ 5) : (deepStep s target n true ao).power.entering = some (target, n + 1) := by
  obtain rfl | rfl | rfl : n = 3 ∨ n = 4 ∨ n = 5 := by omega
  · have hstep : deepStep s target 3 true ao = nextStep (parkBays s (target == 4)) := by simp [deepStep, hidle]
    rw [hstep]
    exact entering_nextStep hent
  · have hstep : deepStep s target 4 true ao = nextStep s := by simp [deepStep, hidle]
    rw [hstep]
    exact entering_nextStep hent
  · have hstep : deepStep s target 5 true ao = nextStep (askVolt s (voltItem s 0x408)) := by simp [deepStep, hidle]
    obtain ⟨_, _, _, _, _, _, hpower⟩ := askVolt_power s (voltItem s 0x408)
    rw [hstep]
    exact entering_nextStep (by rw [hpower]; exact hent)

theorem deepStep_commits (hidle : s.ctxs = []) (hn : n = 6) (hsettled : s.power.avsPending = none) :
    (deepStep s target n true ao).power.entering = some (target, 7) ∧ (deepStep s target n true ao).power.commitAo = some ao ∧
      (deepStep s target n true ao).power.ps4Now = false := by
  subst hn
  have hstep : deepStep s target 6 true ao =
      nextStep (updPower s (fun p => { p with commitAo := some ao, ps4Now := false, entryAet := aetSec s.cad.aet })) := by
    simp [deepStep, hidle, hsettled]
  rw [hstep]
  exact ⟨entering_nextStep (s := updPower s _) hent, rfl, rfl⟩

end DeepStep

/-- Parked bays take no program, and in PS4 they lose their power. -/
theorem bays_deepStep_three {s : State} {target : Nat} (hidle : s.ctxs = []) (ao : Nat) : ∀ b ∈ (deepStep s target 3 true ao).media.bays,
    b.writable = false ∧ (target = 4 → b.pwrEn = false ∧ b.connected = false) := by
  have hstep : deepStep s target 3 true ao = nextStep (parkBays s (target == 4)) := by simp [deepStep, hidle]
  have hbays : (nextStep (parkBays s (target == 4))).media.bays = (parkBays s (target == 4)).media.bays := rfl
  rw [hstep, hbays, parkBays]
  simp only [updMedia_media, List.mem_map, forall_exists_index, and_imp]
  rintro _ b _ rfl
  split
  · exact ⟨rfl, fun _ => ⟨rfl, rfl⟩⟩
  · next h => exact ⟨rfl, fun htarget => absurd (by simp [htarget]) h⟩

/-! ## The domains go off (R471, R487) -/

/-- The part with its domains off. -/
def domainsLost (s : State) (target : Nat) : State :=
  let t := updTwin (updPower s (fun p =>
    { p with st := target, entering := none, commitAo := none, domainsOff := true, entries := p.entries.modify target (· + 1) })) (fun x => { x with lanes := 0 })
  if target == 4 then loseCounters t else t

theorem domainsLost_power (s : State) (target : Nat) : (domainsLost s target).power =
    { s.power with st := target, entering := none, commitAo := none, domainsOff := true, entries := s.power.entries.modify target (· + 1) } := by
  unfold domainsLost
  dsimp only
  split <;> rfl

theorem domainsLost_lanes (s : State) (target : Nat) : (domainsLost s target).twin.lanes = 0 := by
  unfold domainsLost
  dsimp only
  split <;> rfl

theorem domainsLost_ctr (s : State) (target : Nat) :
    (target = 4 → (domainsLost s target).ctr.live = s.ctr.live.map (fun _ => 0) ∧ (domainsLost s target).ctr.ring = [] ∧
      (domainsLost s target).ctr.epoch = (s.ctr.epoch + 1) % 65536) ∧
    (target ≠ 4 → (domainsLost s target).ctr = s.ctr) := by
  unfold domainsLost
  dsimp only
  refine ⟨?_, fun h => ?_⟩
  · rintro rfl
    exact ⟨rfl, rfl, rfl⟩
  · rw [if_neg (by simpa using h)]
    rfl

/-- What wakes the part as soon as its domains are off. -/
def asked (s : State) (lvl : Option Nat) : List Nat := (lvl.filter levelSource).toList ++ (if s.power.matchLatch then [5] else [])

section DomainsOff

variable {s : State} (hrun : s.jrnl.stopFrom = none) {target n c : Nat} (hent : s.power.entering = some (target, n)) (hcommit : s.power.commitAo = some c)
include hrun hent hcommit

theorem exec_domainsOff_of_unasked {lvl : Option Nat} (h : asked s lvl = []) : exec (.domainsOff (c + 4) lvl) s = .next (domainsLost s target) := by
  change execDomainsOff (c + 4) lvl s = _
  simp only [execDomainsOff, hent, hcommit, hrun, bne_self_eq_false, Option.isSome_none, Bool.or_self, Bool.false_eq_true, if_false]
  rw [asked] at h
  rw [h]
  rfl

theorem exec_domainsOff_of_asked {lvl : Option Nat} {a : Nat} {as : List Nat} (h : asked s lvl = a :: as) :
    exec (.domainsOff (c + 4) lvl) s = .next (exitState (domainsLost s target) (as.foldl Nat.min a)) := by
  change execDomainsOff (c + 4) lvl s = _
  simp only [execDomainsOff, hent, hcommit, hrun, bne_self_eq_false, Option.isSome_none, Bool.or_self, Bool.false_eq_true, if_false]
  rw [asked] at h
  rw [h]
  rfl

/-- The domains go off; with a source asked the part wakes at once, from the state it entered. -/
theorem domainsOff_leaves (lvl : Option Nat) : ∃ t, exec (.domainsOff (c + 4) lvl) s = .next t ∧
    (lvl = none → s.power.matchLatch = false → t = domainsLost s target) ∧
    (∀ a, lvl = some a → levelSource a = true → t.power.st = 0 ∧ t.power.wakeFrom = target ∧ t.power.refusals = s.power.refusals) := by
  cases hasked : asked s lvl with
  | nil =>
    refine ⟨_, exec_domainsOff_of_unasked hrun hent hcommit hasked, fun _ _ => rfl, fun a hlvl hsource => absurd hasked ?_⟩
    simp [asked, hlvl, hsource, Option.filter]
  | cons a as =>
    refine ⟨_, exec_domainsOff_of_asked hrun hent hcommit hasked, fun hlvl hlatch => absurd hasked ?_, fun _ _ _ => ?_⟩
    · simp [asked, hlvl, hlatch]
    · obtain ⟨hst, _, _, hrecord⟩ := exitState_power (domainsLost s target) (as.foldl Nat.min a)
      simp only [wakeRecord, Prod.mk.injEq, domainsLost_power] at hrecord
      obtain ⟨_, hfrom, _, hrefusals, _⟩ := hrecord
      exact ⟨hst, hfrom, hrefusals⟩

end DomainsOff

/-- The match latch of an address set (R512). -/
def matchLatched (s : State) : State := updPower s (fun p => { p with matchLatch := true })

/-- The TAP seen in or out of its reset. -/
def tapSeen (s : State) (inReset : Bool) : State := updPower s (fun p => { p with tapOut := !inReset })

/-- Settles O56: the idle timer, PS_CONTROL, the steps of Table 20-4, the domains and each wake source, one after another. -/
theorem powerStatesAreEnteredAndLeft : Obligations.PowerStatesAreEnteredAndLeft := by
  unfold Obligations.PowerStatesAreEnteredAndLeft
  intro s hrun hporst
  refine ⟨fun cyc hcyc hent hrel hdeeper => ?idle, fun v cyc hcyc hnow => ?ps4, fun target n ok ao hent hlow hn => ?deep,
    fun target n c lvl hent hcommit => ?off, fun code ao => ?wake, fun ao hent hlow hhigh hdue => ?timer,
    fun a hmine hlatch hent hlow hhigh => ?address, fun r => ?tap⟩
  case idle =>
    have hexec : exec (.idleTimerExpiry cyc) s = .next (idleStep s) := by
      change execIdleTimerExpiry cyc s = _
      rw [execIdleTimerExpiry, advanceTo_past hcyc]
    obtain ⟨hstay, hlight, hdeep⟩ := idleStep_enters hent hrun hporst hrel hdeeper
    exact ⟨_, hexec, hstay, hlight, hdeep, idleStep_refuses hent hrun hporst hrel hdeeper⟩
  case ps4 =>
    obtain ⟨hhold, hlimit⟩ := idleStep_settings (controlSet s v.toNat)
    refine ⟨_, exec_ps4NowWrite hcyc hnow, hhold, fun hle => hlimit.trans (if_pos hle), fun hset htest hent hrel hst hcap => ?_⟩
    have hasked : (controlSet s v.toNat).power.ps4Now = true := by simp [controlSet, bits_one_of_getLsbD hnow]
    have htarget := powerTarget_of_ps4Now hasked
    have hfour : powerCap (controlSet s v.toNat) = 4 := (powerCap_controlSet hset htest).trans hcap
    have hentered : entered (controlSet s v.toNat) = 4 := by rw [entered, htarget, hfour]; rfl
    have hstep : idleStep (controlSet s v.toNat) = entryBegun (controlSet s v.toNat) 4 := by
      rw [idleStep_of_deeper (s := controlSet s v.toNat) hent hrun hporst hrel (htarget ▸ hst), hentered,
        if_neg (not_le.mpr (show (controlSet s v.toNat).power.st < 4 from hst)), if_neg (by decide), refusalCounted, if_neg (by rw [htarget, hfour]; decide)]
    rw [hstep, entryBegun_power]
    exact ⟨rfl, hasked⟩
  case deep =>
    refine ⟨_, exec_psDeepEntry hrun hent hn ok ao, fun hbusy => ?_, ?_, ?_⟩
    · rw [deepStep_busy ao hbusy]
      exact (abandoned_abandonEntry hent 0).settleFull
    · rintro hidle rfl
      rw [deepStep_failed ao hidle]
      exact (abandoned_abandonEntry hent _).settleFull
    rw [settleFull_power, bays_settleFull]
    refine ⟨?_, ?_, ?_⟩
    · rintro hidle rfl hn hfree
      exact deepStep_passes hent ao hidle hlow hn hfree
    · rintro hidle rfl hthree hfive
      refine ⟨deepStep_parks hent ao hidle hthree hfive, ?_⟩
      rintro rfl
      exact bays_deepStep_three hidle ao
    · rintro hidle rfl hsix hsettled
      exact deepStep_commits hent ao hidle hsix hsettled
  case off =>
    obtain ⟨t, ht, hoff, hwake⟩ := domainsOff_leaves hrun hent hcommit lvl
    refine ⟨t, ht, fun hlvl hlatch => ?_, hwake⟩
    rw [hoff hlvl hlatch, domainsLost_power]
    exact ⟨rfl, rfl, rfl, domainsLost_lanes s target, domainsLost_ctr s target⟩
  case wake =>
    have hexec : exec (.wake code ao) s = .next (wakeBy s code ao) := rfl
    simp only [hexec]
    refine ⟨fun hent hwakes => ?_, fun hent hsleeps => ?_, fun target n hent hcommit hlow hhigh => ?_, fun target n c hent hcommit => ⟨fun hbefore => ?_, fun hafter => ?_⟩⟩
    · rw [wakeBy_wakes hrun hporst hent hwakes]
      exact ⟨_, rfl, wokenFrom_exitState s code⟩
    · rw [wakeBy_sleeps hent hsleeps]
    · rw [wakeBy_uncommitted hrun hporst hent hcommit hlow hhigh]
      exact ⟨_, rfl, abandoned_abandonEntry hent 6⟩
    · rw [wakeBy_committed hrun hporst hent hcommit, if_pos hbefore]
      exact ⟨_, rfl, abandoned_abandonEntry hent 6⟩
    · rw [wakeBy_committed hrun hporst hent hcommit, if_neg (not_lt.mpr hafter)]
  case timer =>
    have hexec : exec (.maintWakeTimer ao) s = .next (wakeBy s 8 ao) := by
      change execMaintWakeTimer ao s = _
      simp [execMaintWakeTimer, hdue, hlow]
    have hwakes : wakesFrom 8 s.power.st = true := by
      obtain h | h : s.power.st = 3 ∨ s.power.st = 4 := by omega
      all_goals rw [h]; rfl
    rw [hexec, wakeBy_wakes hrun hporst hent hwakes]
    exact ⟨_, rfl, wokenFrom_exitState s 8⟩
  case address =>
    have hexec : exec (.sbAddressMatch a) s = .next (wakeBy (matchLatched s) 5 (s.power.commitAo.getD 0)) := by
      change execSbAddressMatch a s = _
      have hours : (a == 0x60 + s.kf.sbAddr.toNat || s.side.dyn == some (BitVec.ofNat 7 a)) = true := by simpa using hmine
      simp only [execSbAddressMatch, hours, hlatch]
      rw [if_neg (by simp), if_neg (by simp; omega)]
      rfl
    rw [hexec, wakeBy_wakes (s := matchLatched s) hrun hporst hent (wakesFrom_of_asleep (Or.inl rfl) hlow hhigh)]
    exact ⟨_, rfl, wokenFrom_exitState (matchLatched s) 5, (exitState_power (matchLatched s) 5).2.2.1⟩
  case tap =>
    have hexec : exec (.jtagTapStateChange r) s = .next (wakeBy (tapSeen s r) 10 (s.power.commitAo.getD 0)) := rfl
    rw [hexec]
    refine ⟨_, rfl, tapOut_wakeBy .., fun hent hlow hhigh => ?_⟩
    rw [wakeBy_wakes (s := tapSeen s r) hrun hporst hent (wakesFrom_of_asleep (Or.inr rfl) hlow hhigh)]
    exact wokenFrom_exitState (tapSeen s r) 10

end Sys2Proof.Proofs
end

section
/-! PROOFS. Buffer pods (R428, R430, R431): which unit a request takes, where it waits, and what a free leaves. -/
namespace Sys2Proof.Proofs
open Sys2Proof Sys2Proof.Machine Sys2Proof.Laws

/-! ## Free units -/

/-- The indices of a pod's allocated units. -/
def podIndices (s : State) (k : Nat) : List Nat := (s.pods.used.filter (fun u => u.1 == k)).map (·.2.1)

theorem mem_podIndices {s : State} {k i : Nat} : i ∈ podIndices s k ↔ podUsed s k i = true := by
  simp [podIndices, podUsed]

/-- Of more indices than a pod has units allocated, one is free. -/
theorem exists_unused {s : State} (k : Nat) {l : List Nat} (hnodup : l.Nodup) (hlong : s.pods.used.length < l.length) : ∃ i ∈ l, podUsed s k i = false := by
  by_contra hall
  simp only [not_exists, not_and, Bool.not_eq_false] at hall
  have hsub : l ⊆ podIndices s k := fun i hi => mem_podIndices.mpr (hall i hi)
  have hlen : (podIndices s k).length ≤ s.pods.used.length := by
    rw [podIndices, List.length_map]
    exact List.length_filter_le ..
  have hle := (hnodup.subperm hsub).length_le
  omega

/-- A requester is eligible only for a pod with a channel in service. -/
theorem exists_live_of_eligible {s : State} {r k : Nat} (h : podEligible s r k = true) : ∃ c < 4, ∀ j, podUnitLost s k (4 * j + c) = false := by
  by_cases hk : k = 4
  · have hfree : 0 < podFreeUnits s k := by
      simp only [podEligible, Bool.and_eq_true, decide_eq_true_eq] at h
      exact h.1.1
    by_contra hlost
    simp only [not_exists, not_and, not_forall, Bool.not_eq_false] at hlost
    have hall : ∀ c < 4, s.eng.dramLost.getLsbD c = true := fun c hc => by
      obtain ⟨j, hj⟩ := hlost c hc
      simpa [podUnitLost, hk, Nat.mul_add_mod, Nat.mod_eq_of_lt hc] using hj
    have hcount : podLostCount s k = podCount s 4 := by
      rw [podLostCount, hk, if_neg (by decide)]
      change List.foldl _ 0 [0, 1, 2, 3] = _
      simp only [List.foldl_cons, List.foldl_nil, hall 0 (by decide), hall 1 (by decide), hall 2 (by decide), hall 3 (by decide), if_true]
      omega
    rw [podFreeUnits, hcount, hk] at hfree
    omega
  · exact ⟨0, by decide, fun j => by simp [podUnitLost, hk]⟩

/-- The unit that an eligible request takes is free (R430). -/
theorem podUsed_podFirstFree {s : State} {r k : Nat} (h : podEligible s r k = true) : podUsed s k (podFirstFree s k) = false := by
  obtain ⟨c, hc, hlive⟩ := exists_live_of_eligible h
  obtain ⟨i, hi, hunused⟩ := exists_unused (s := s) k (l := (List.range (s.pods.used.length + 1)).map (fun j => 4 * j + c))
    (List.Nodup.map (fun a b hab => by simpa using hab) List.nodup_range) (by simp)
  simp only [List.mem_map, List.mem_range] at hi
  obtain ⟨j, hj, rfl⟩ := hi
  have hfound : ((List.range (4 * (s.pods.used.length + 1))).find? (fun i => !podUsed s k i && !podUnitLost s k i)).isSome = true := by
    rw [List.find?_isSome]
    exact ⟨4 * j + c, List.mem_range.mpr (by omega), by simp [hunused, hlive]⟩
  obtain ⟨n, hn⟩ := Option.isSome_iff_exists.mp hfound
  have hfree := List.find?_some hn
  rw [podFirstFree, hn]
  simpa using (Bool.and_eq_true_iff.mp hfree).1

/-! ## Requests (R428) -/

@[simp] theorem countEvent_pods (s : State) (e inst n : Nat) : (countEvent s e inst n).pods = s.pods := pods_of_rest (rest_countEvent (L := [.ctr]) rfl ..) rfl

theorem pods_podGrant (s : State) (r k : Nat) :
    (podGrant s r k).pods.used = s.pods.used ++ [(k, podFirstFree s k, r)] ∧ (podGrant s r k).pods.waiting = s.pods.waiting := by
  simp [podGrant]

/-- The smallest fit is tried first. -/
theorem podPath_head (size : Nat) (dram : Bool) : ∃ ks, podPath size dram = podFor size :: ks := by
  unfold podPath podFor
  repeat' split
  all_goals exact ⟨_, rfl⟩

theorem podServe_eligible {s : State} {r k : Nat} (h : podEligible s r k = true) (dram : Bool) (ks : List Nat) : podServe s r dram (k :: ks) = podGrant s r k := by
  cases ks <;> simp [podServe, h]

/-- Where no pod of a path has a unit for it, a request waits at the last. -/
theorem podServe_waits {s : State} {r : Nat} (dram : Bool) : ∀ (ks : List Nat) (k : Nat), (∀ j ∈ k :: ks, podEligible s r j = false) →
    podServe s r dram (k :: ks) =
      { s with pods := { s.pods with waiting := s.pods.waiting ++ [{ requester := r, pod := (k :: ks).getLast (List.cons_ne_nil k ks), dram := dram }] } }
  | [], k, h => by simp [podServe, h k (List.mem_cons_self ..)]
  | j :: js, k, h => by
    have hrest := podServe_waits (s := s) (r := r) dram js j (fun i hi => h i (List.mem_cons_of_mem k hi))
    have hstep : podServe s r dram (k :: j :: js) = podServe s r dram (j :: js) := by simp [podServe, h k (List.mem_cons_self ..)]
    rw [hstep, hrest, List.getLast_cons_cons]

theorem exec_podRequest {r size : Nat} (hr : r < 15) (hlow : 1 ≤ size) (hhigh : size ≤ 1048576) (dram : Bool) (s : State) :
    exec (.podRequest r size dram) s = .next (podServe s r dram (podPath size dram)) := by
  change execPodRequest r size dram s = _
  simp [execPodRequest, hr, hlow, hhigh]

/-! ## Frees (R431) -/

theorem exec_podFree_unused {s : State} {pod offset : Nat} (h : pod < 5 → offset % podUnit pod = 0 → podUsed s pod (offset / podUnit pod) = false) :
    exec (.podFree pod offset) s = .next (countFixed s 6 1) := by
  have hrefused : ¬(decide (pod < 5) && offset % podUnit pod == 0 && podUsed s pod (offset / podUnit pod)) = true := by
    simp only [Bool.and_eq_true, decide_eq_true_eq, beq_iff_eq, not_and, Bool.not_eq_true, and_imp]
    exact h
  change execPodFree pod offset s = _
  rw [execPodFree, if_neg hrefused]

theorem exec_podFree_used {s : State} {pod offset : Nat} (hpod : pod < 5) (hstart : offset % podUnit pod = 0)
    (hused : podUsed s pod (offset / podUnit pod) = true) (hwait : s.pods.waiting = []) : exec (.podFree pod offset) s =
      .next { s with pods := { s.pods with used := s.pods.used.filter (fun u => !(u.1 == pod && u.2.1 == offset / podUnit pod)) } } := by
  change execPodFree pod offset s = _
  rw [execPodFree, if_pos (by simp [hpod, hstart, hused])]
  simp [hwait, podSettle]

/-- Settles O48: a request by whether a pod of its path has a unit for it, a free by whether its unit is allocated. -/
theorem podUnitsAreGrantedAndFreed : Obligations.PodUnitsAreGrantedAndFreed := by
  unfold Obligations.PodUnitsAreGrantedAndFreed
  intro s
  refine ⟨fun r size dram hr hlow hhigh => ⟨fun hfit => ?granted, fun hnone => ?waits⟩, fun pod offset hpod hstart hused hwait => ?freed,
    fun pod offset hother => ?refused⟩
  case granted =>
    obtain ⟨ks, hpath⟩ := podPath_head size dram
    obtain ⟨hunits, hwaiting⟩ := pods_podGrant s r (podFor size)
    refine ⟨podGrant s r (podFor size), ?_, hunits, hwaiting, podUsed_podFirstFree hfit⟩
    rw [exec_podRequest hr hlow hhigh, hpath, podServe_eligible hfit]
  case waits =>
    obtain ⟨ks, hpath⟩ := podPath_head size dram
    rw [exec_podRequest hr hlow hhigh, hpath, podServe_waits dram ks (podFor size) (hpath ▸ hnone)]
    exact ⟨_, _, rfl, List.getLast?_eq_getLast_of_ne_nil _, rfl, rfl⟩
  case freed => exact ⟨_, exec_podFree_used hpod hstart hused hwait, rfl⟩
  case refused =>
    refine ⟨_, exec_podFree_unused hother, ?_, fun hrun => ?_⟩
    · unfold countFixed
      split <;> rfl
    · rw [countFixed, if_pos (by simp [hrun])]
      rfl

end Sys2Proof.Proofs
end

section
/-! PROOFS. The mover (R432, R435 to R439, R442): channels, their descriptors and MOVER_CONTROL. -/
namespace Sys2Proof.Proofs
open Sys2Proof Sys2Proof.Machine Sys2Proof.Laws

/-! ## Channels in their list -/

theorem chanOf_congr {s t : State} (h : t.mover = s.mover) (n : Nat) : chanOf t n = chanOf s n := by rw [chanOf, chanOf, h]

theorem ch_chanOf (s : State) (n : Nat) : (chanOf s n).ch = n := by
  unfold chanOf
  cases h : s.mover.chans.find? (fun c => c.ch == n) with
  | none => rfl
  | some c => simpa using List.find?_some h

/-- Channels changed under their numbers are found under them. -/
theorem find?_map_chan {f : Chan → Chan} (hf : ∀ c, (f c).ch = c.ch) (l : List Chan) (n : Nat) :
    (l.map f).find? (fun c => c.ch == n) = (l.find? (fun c => c.ch == n)).map f := by
  rw [List.find?_map]
  congr 2
  funext c
  exact congrArg (· == n) (hf c)

theorem find?_putChanIn (l : List Chan) (c : Chan) (n : Nat) :
    (putChanIn l c).find? (fun x => x.ch == n) = if n = c.ch then some c else l.find? (fun x => x.ch == n) := by
  unfold putChanIn
  split
  · next hany =>
    rw [find?_map_chan (fun x => by split <;> simp_all)]
    cases hfound : l.find? (fun x => x.ch == n) with
    | none =>
      by_cases hn : n = c.ch
      · rw [hn, List.find?_eq_none] at hfound
        obtain ⟨x, hx, hch⟩ := List.any_eq_true.mp hany
        exact absurd hch (hfound x hx)
      · simp [hn]
    | some x =>
      have hx : x.ch = n := by simpa using List.find?_some hfound
      by_cases hn : n = c.ch <;> simp [hx, hn]
  · next hnone =>
    rw [List.find?_append]
    by_cases hn : n = c.ch
    · have hfree : l.find? (fun x => x.ch == c.ch) = none := by
        rw [List.find?_eq_none]
        simpa using hnone
      simp [hn, hfree]
    · simp [hn, Ne.symm hn]

theorem chanOf_putChan_same {s : State} {c : Chan} {n : Nat} (h : c.ch = n) : chanOf (putChan s c) n = c := by
  rw [chanOf, putChan, find?_putChanIn, if_pos h.symm, Option.getD_some]

theorem chanOf_putChan_other {s : State} {c : Chan} {n : Nat} (h : n ≠ c.ch) : chanOf (putChan s c) n = chanOf s n := by
  rw [chanOf, putChan, find?_putChanIn, if_neg h, chanOf]

/-- A change of channels that leaves an idle one idle is seen at each channel. -/
theorem chanOf_mapChans {f : Chan → Chan} (hf : ∀ c, (f c).ch = c.ch) (hidle : ∀ n, f (Chan.idle n) = Chan.idle n) (s : State) (n : Nat) :
    chanOf { s with mover := { s.mover with chans := s.mover.chans.map f } } n = f (chanOf s n) := by
  rw [chanOf, find?_map_chan hf, chanOf]
  cases s.mover.chans.find? (fun c => c.ch == n) with
  | none => exact (hidle n).symm
  | some c => rfl

@[simp] theorem rets_putChan (s : State) (c : Chan) : (putChan s c).mover.rets = s.mover.rets := rfl

/-! ## Posts (R432, R435, R439) -/

/-- The checks of a descriptor read the image, the engine and the host maps. -/
theorem descFault_congr {s t : State} (hkf : t.kf = s.kf) (heng : t.eng = s.eng) (ha : t.portA = s.portA) (hb : t.portB = s.portB) (d : MoverDesc) :
    descFault t d = descFault s d := by
  have hcount : podCount t = podCount s := by
    funext k
    rw [podCount, podCount, hkf]
  have hregions : regionsOf t = regionsOf s := by
    funext n
    rw [regionsOf, regionsOf, dramRegions, dramRegions, hcount, hkf, heng, ha, hb]
  have hpods : podsIn t = podsIn s := by
    funext n
    rw [podsIn, podsIn, hcount]
  have hcause : rangeCause t = rangeCause s := by
    funext n a k
    rw [rangeCause, rangeCause, hregions, staysInUnit, staysInUnit, hpods]
  rw [descFault, descFault, hcause]

/-- A channel that is not idle starts nothing. -/
theorem startChan_of_not_idle {s : State} {ch : Nat} (h : (chanOf s ch).st ≠ .idle) (n : Nat) : startChan s ch n = s := by
  cases n with
  | zero => rfl
  | succ n =>
    unfold startChan
    extract_lets c
    split
    · next hidle _ => exact absurd hidle h
    · rfl

/-- A channel with no descriptor starts nothing. -/
theorem startChan_of_empty {s : State} {ch : Nat} (h : (chanOf s ch).descs = []) (n : Nat) : startChan s ch n = s := by
  cases n with
  | zero => rfl
  | succ n => simp [startChan, h]

section Start

variable {s : State} {ch : Nat} {d : MoverDesc} {ds : List MoverDesc} (hidle : (chanOf s ch).st = .idle) (hds : (chanOf s ch).descs = d :: ds)
  (hrun : s.jrnl.stopFrom = none)
include hidle hds hrun

theorem startChan_starts (hgood : descFault s d = none) (n : Nat) :
    chanOf (startChan s ch (n + 1)) ch = { chanOf s ch with st := .running, credit := 0, released := 0 } ∧
      (startChan s ch (n + 1)).mover.rets = s.mover.rets ∧ (startChan s ch (n + 1)).ctxs = s.ctxs := by
  have hstep : startChan s ch (n + 1) = putChan s { chanOf s ch with st := .running, credit := 0, released := 0 } := by
    simp [startChan, hidle, hds, hrun, hgood]
  rw [hstep]
  exact ⟨chanOf_putChan_same (ch_chanOf s ch), rfl, rfl⟩

theorem startChan_faults {cause : Nat} {dir : Bool} (hbad : descFault s d = some (cause, dir)) (n : Nat) :
    startChan s ch (n + 1) = startChan (faultDesc s ch d cause dir 0) ch n := by
  simp [startChan, hidle, hds, hrun, hbad]

end Start

/-- A fault under REPORT returns the descriptor and leaves the channel without it (R439). -/
theorem faultDesc_reports (s : State) (ch : Nat) {d : MoverDesc} (h : d.report = true) (cause : Nat) (dir : Bool) (off : Nat) :
    chanOf (faultDesc s ch d cause dir off) ch = chanPop (chanOf s ch) ∧
      (faultDesc s ch d cause dir off).mover.rets = s.mover.rets ++ [⟨ch, d.token, 3, off, cause, dir⟩] := by
  rw [faultDesc, if_pos h]
  exact ⟨chanOf_putChan_same (ch_chanOf s ch), rfl⟩

/-- A descriptor posted behind those of its channel. -/
def postedTo (s : State) (ch : Nat) (d : MoverDesc) : State := putChan s { chanOf s ch with descs := (chanOf s ch).descs ++ [d] }

theorem exec_moverPost {s : State} {ch : Nat} (hch : ch < 64) (d : MoverDesc) (hroom : (chanOf s ch).descs.length < 64) :
    exec (.moverPost ch d) s = .next (startChan (postedTo s ch d) ch 1) := by
  change execMoverPost ch d s = _
  rw [execMoverPost, if_neg (by omega)]
  exact if_pos hroom

theorem exec_moverPost_full {s : State} {ch : Nat} (hch : ch < 64) (d : MoverDesc) (hfull : 64 ≤ (chanOf s ch).descs.length) :
    exec (.moverPost ch d) s = .next (putChan s { chanOf s ch with waiting := (chanOf s ch).waiting ++ [d] }) := by
  change execMoverPost ch d s = _
  rw [execMoverPost, if_neg (by omega)]
  exact if_neg (by omega)

section Post

variable {s : State} {ch : Nat} (hch : ch < 64) (d : MoverDesc) (hidle : (chanOf s ch).st = .idle) (hempty : (chanOf s ch).descs = [])
  (hrun : s.jrnl.stopFrom = none)

theorem chanOf_postedTo : chanOf (postedTo s ch d) ch = { chanOf s ch with descs := (chanOf s ch).descs ++ [d] } :=
  chanOf_putChan_same (ch_chanOf s ch)

include hch hidle hempty hrun

theorem moverPost_starts (hgood : descFault s d = none) :
    ∃ t, exec (.moverPost ch d) s = .next t ∧ (chanOf t ch).st = .running ∧ (chanOf t ch).descs = [d] ∧ t.mover.rets = s.mover.rets := by
  have hpost := chanOf_postedTo (s := s) (ch := ch) d
  rw [hempty, List.nil_append] at hpost
  obtain ⟨hchan, hrets, _⟩ := startChan_starts (s := postedTo s ch d) (ds := []) (by rw [hpost]; exact hidle) (by rw [hpost]) hrun hgood 0
  rw [hpost] at hchan
  refine ⟨_, exec_moverPost hch d (by simp [hempty]), ?_⟩
  rw [hchan]
  exact ⟨rfl, rfl, hrets⟩

/-- Under REPORT a descriptor that fails its checks is reported and the channel left idle. -/
theorem moverPost_reports (hnext : (chanOf s ch).waiting = []) {cause : Nat} {dir : Bool} (hbad : descFault s d = some (cause, dir)) (hreport : d.report = true) :
    ∃ t, exec (.moverPost ch d) s = .next t ∧ (chanOf t ch).st = .idle ∧ (chanOf t ch).descs = [] ∧
      t.mover.rets = s.mover.rets ++ [⟨ch, d.token, 3, 0, cause, dir⟩] := by
  have hpost := chanOf_postedTo (s := s) (ch := ch) d
  rw [hempty, List.nil_append] at hpost
  have hfault := startChan_faults (s := postedTo s ch d) (ds := []) (by rw [hpost]; exact hidle) (by rw [hpost]) hrun hbad 0
  obtain ⟨hchan, hrets⟩ := faultDesc_reports (postedTo s ch d) ch hreport cause dir 0
  refine ⟨_, exec_moverPost hch d (by simp [hempty]), ?_⟩
  rw [hfault, startChan, hchan, hpost]
  exact ⟨rfl, by simp [chanPop, hnext], hrets⟩

end Post

/-! ## Ends (R436, R437) -/

@[simp] theorem countEvent_mover (s : State) (e inst n : Nat) : (countEvent s e inst n).mover = s.mover := mover_of_rest (rest_countEvent (L := [.ctr]) rfl ..) rfl

section End

variable {s : State} {ch : Nat} {d : MoverDesc} (hrunning : (chanOf s ch).st = .running) (hdesc : (chanOf s ch).descs = [d])
include hrunning hdesc

theorem exec_moverDescriptorEnd (o : MoverOutcome) : exec (.moverDescriptorEnd ch o) s =
    .next (startChan (endDesc s ch d o) ch (chanOf (endDesc s ch d o) ch).descs.length) := by
  change execMoverDescriptorEnd ch o s = _
  simp [execMoverDescriptorEnd, hrunning, hdesc]

/-- A COPY that ends well returns its TOKEN and leaves its channel idle. -/
theorem moverEnd_done (hnext : (chanOf s ch).waiting = []) (hop : d.op = 1) (hpaced : d.paced = false) :
    ∃ t, exec (.moverDescriptorEnd ch .ok) s = .next t ∧ (chanOf t ch).st = .idle ∧ (chanOf t ch).descs = [] ∧
      t.mover.rets = s.mover.rets ++ [⟨ch, d.token, 0, 0, 0, false⟩] := by
  have hend : endDesc s ch d .ok = countEvent (putChan (moverReturn s { ch := ch, token := d.token, kind := 0, value := 0, cause := 0, direction := false })
      (chanPop (chanOf s ch))) 0x28 0 (beats d.length) := by
    simp [endDesc, hop, releasedBytes, hpaced]
  have hchan : chanOf (endDesc s ch d .ok) ch = chanPop (chanOf s ch) := by
    rw [hend, chanOf_congr (countEvent_mover ..)]
    exact chanOf_putChan_same (ch_chanOf s ch)
  have hgone : (chanPop (chanOf s ch)).descs = [] := by simp [chanPop, hdesc, hnext]
  rw [exec_moverDescriptorEnd hrunning hdesc, startChan_of_empty (hchan ▸ hgone)]
  refine ⟨_, rfl, ?_⟩
  rw [hchan, hend, countEvent_mover]
  exact ⟨rfl, hgone, rfl⟩

end End

/-! ## Halts (R437, R440, R441) -/

/-- A channel's latch set as it halts. -/
def latched (s : State) (ch cause : Nat) (dir : Bool) (space addr : Nat) : State :=
  putChan s { chanOf s ch with st := .halted, cause := cause, direction := dir, space := space, addr := addr }

theorem carriedCommand_congr {s t : State} (h : t.ctxs = s.ctxs) (d : MoverDesc) : carriedCommand t d = carriedCommand s d := by
  rw [carriedCommand, carriedCommand, ctxOf_congr h]

/-- A halt withdraws no descriptor that carries no admin command. -/
theorem chanOf_withdrawAdmin {s : State} {ch : Nat} {d : MoverDesc} (hdesc : (chanOf s ch).descs = [d]) (hfree : 56 ≤ ch → carriedCommand s d = none)
    (n : Nat) : chanOf (withdrawAdmin s ch) n = chanOf s n := by
  unfold withdrawAdmin
  split
  · rfl
  · next hkeeper =>
    have hsame : { chanOf s ch with descs := [d] } = chanOf s ch := by rw [← hdesc]
    simp only [hdesc, List.filter_cons, hfree (by omega), Option.isSome_none, Option.isNone_none, Bool.false_eq_true, if_false, if_true, List.filter_nil,
      List.foldl_nil, hsame]
    by_cases hn : n = ch
    · rw [hn]
      exact chanOf_putChan_same (ch_chanOf s ch)
    · exact chanOf_putChan_other (by rwa [ch_chanOf])

/-- A halt leaves the latch while a channel of the group is not halted. -/
theorem chanOf_haltChan {s : State} {ch : Nat} {d : MoverDesc} (hdesc : (chanOf s ch).descs = [d]) (hfree : 56 ≤ ch → carriedCommand s d = none)
    (hothers : ch < 56 → ∃ n ∈ chanGroup ch, n ≠ ch ∧ (chanOf s n).st ≠ .halted) (cause : Nat) (dir : Bool) (space addr : Nat) :
    chanOf (haltChan s ch cause dir space addr) ch = { chanOf s ch with st := .halted, cause := cause, direction := dir, space := space, addr := addr } := by
  have hlatch : chanOf (latched s ch cause dir space addr) ch = _ := chanOf_putChan_same (ch_chanOf s ch)
  have hkept := chanOf_withdrawAdmin (s := latched s ch cause dir space addr) (by rw [hlatch]; exact hdesc) hfree
  have hstands : ¬(decide (ch < 56) && groupHalted (withdrawAdmin (latched s ch cause dir space addr) ch) ch) = true := by
    simp only [Bool.and_eq_true, decide_eq_true_eq, not_and]
    intro hch
    obtain ⟨n, hn, hother, hlive⟩ := hothers hch
    have hchan : chanOf (latched s ch cause dir space addr) n = chanOf s n := chanOf_putChan_other (by rwa [ch_chanOf])
    intro hall
    have hhalted := List.all_eq_true.mp hall n hn
    rw [hkept, hchan] at hhalted
    exact hlive (by simpa using hhalted)
  have hstep : haltChan s ch cause dir space addr = withdrawAdmin (latched s ch cause dir space addr) ch := if_neg hstands
  rw [hstep, hkept, hlatch]

/-- A COMPARE with CMP_HALT halts its channel at the difference. -/
theorem moverEnd_halts {s : State} {ch : Nat} {d : MoverDesc} (hrunning : (chanOf s ch).st = .running) (hdesc : (chanOf s ch).descs = [d]) {off : Nat}
    (hop : d.op = 3) (hpaced : d.paced = false) (hhalt : d.cmpHalt = true) (hoff : off < d.length) (hfree : 56 ≤ ch → carriedCommand s d = none)
    (hothers : ch < 56 → ∃ n ∈ chanGroup ch, n ≠ ch ∧ (chanOf s n).st ≠ .halted) :
    ∃ t, exec (.moverDescriptorEnd ch (.differs off)) s = .next t ∧ (chanOf t ch).st = .halted ∧ (chanOf t ch).cause = 6 ∧
      (chanOf t ch).addr = d.src + off ∧ (chanOf t ch).descs = [d] := by
  have hcount (n : Nat) : chanOf (countEvent s 0x28 0 (beats off)) n = chanOf s n := chanOf_congr (countEvent_mover ..) n
  have hctxs : (countEvent s 0x28 0 (beats off)).ctxs = s.ctxs := ctxs_of_rest (rest_countEvent (L := [.ctr]) rfl ..) rfl
  have hend : endDesc s ch d (.differs off) = haltChan (countEvent s 0x28 0 (beats off)) ch 6 false d.srcSpace (d.src + off) := by
    simp [endDesc, hop, releasedBytes, hpaced, hoff, hhalt]
  have hchan : chanOf (endDesc s ch d (.differs off)) ch =
      { chanOf s ch with st := .halted, cause := 6, direction := false, space := d.srcSpace, addr := d.src + off } := by
    rw [hend, chanOf_haltChan (by rw [hcount]; exact hdesc) (by rwa [carriedCommand_congr hctxs]) (by simpa only [hcount] using hothers), hcount]
  rw [exec_moverDescriptorEnd hrunning hdesc, startChan_of_not_idle (by rw [hchan]; exact ChanSt.noConfusion)]
  refine ⟨_, rfl, ?_⟩
  rw [hchan]
  exact ⟨rfl, rfl, rfl, hdesc⟩

/-! ## Request lines (R438) -/

theorem ch_pulseChan (line : Nat) (c : Chan) : (pulseChan line c).ch = c.ch := by
  unfold pulseChan
  repeat' split
  all_goals rfl

theorem chanOf_pulseLine {line : Nat} (h : line < 52) (s : State) (n : Nat) : chanOf (pulseLine s line) n = pulseChan line (chanOf s n) := by
  rw [pulseLine, if_pos h]
  exact chanOf_mapChans (ch_pulseChan line) (fun _ => rfl) s n

theorem pulseChan_releases {c : Chan} {d : MoverDesc} {line : Nat} (hrun : c.st = .running) (hdesc : c.descs = [d]) (hpaced : d.paced = true)
    (hline : d.reqLine = line) (hleft : c.released < d.length) :
    pulseChan line c = { c with released := Nat.min d.length (c.released + 2 ^ d.paceLog2) } := by
  simp [pulseChan, hrun, hdesc, hpaced, hline, hleft]

/-- Settles O49: posts by the checks of the descriptor, ends by its outcome, pulses by its line. -/
theorem descriptorsRun : Obligations.DescriptorsRun := by
  unfold Obligations.DescriptorsRun
  intro s ch d hch
  refine ⟨fun hidle hempty hnext hrun => ⟨fun hgood => moverPost_starts hch d hidle hempty hrun hgood,
    fun cause dir hbad hreport => moverPost_reports hch d hidle hempty hrun hnext hbad hreport⟩, fun hfull => ?full, fun hrunning hdesc hnext =>
    ⟨fun hop hpaced => moverEnd_done hrunning hdesc hnext hop hpaced,
      fun off hop hpaced hhalt hoff hfree hothers => moverEnd_halts hrunning hdesc hop hpaced hhalt hoff hfree hothers,
      fun line hline hpaced hreq hleft => ?pulse⟩⟩
  case full =>
    have hchan : chanOf (putChan s { chanOf s ch with waiting := (chanOf s ch).waiting ++ [d] }) ch =
        { chanOf s ch with waiting := (chanOf s ch).waiting ++ [d] } := chanOf_putChan_same (ch_chanOf s ch)
    refine ⟨_, exec_moverPost_full hch d hfull, ?_⟩
    rw [hchan]
    exact ⟨rfl, rfl⟩
  case pulse =>
    have hexec : exec (.reqLinePulse line) s = .next (pulseLine s line) := rfl
    refine ⟨_, hexec, ?_⟩
    rw [chanOf_pulseLine hline, pulseChan_releases hrunning hdesc hpaced hreq hleft]
    exact ⟨rfl, hdesc⟩

/-! ## MOVER_CONTROL (R442) -/

theorem mover_performState (s : State) (cid : Nat) (r0 r1 : Word) : (performState s cid 3 r0 r1).mover = s.mover :=
  mover_of_rest (rest_performState (L := but .mover) rfl s cid 3 r0 r1) rfl

/-- The latch of a channel cleared for its restart. -/
def resumed (s : State) (n : Nat) : State := putChan s { chanOf s n with st := .idle, cause := 0, direction := false, space := 0, addr := 0 }

theorem exec_moverResume {s : State} {cid : Nat} {c : Ctx} (h : actionIn s cid 0x92 1 = some c) (hhalted : (ctlChan s c).st = .halted) :
    exec (.moverResume cid) s = .next (startChan (performState (resumed s (ctlChan s c).ch) cid 3 0 0) (ctlChan s c).ch (ctlChan s c).descs.length) := by
  have hself : chanOf s (ctlChan s c).ch = ctlChan s c := by rw [ctlChan, ch_chanOf]
  change execMoverResume cid s = _
  rw [resumed, hself]
  simp [execMoverResume, h, hhalted]

theorem exec_moverResetChannel {s : State} {cid : Nat} {c : Ctx} (h : actionIn s cid 0x92 2 = some c) (hhalted : (ctlChan s c).st = .halted) :
    exec (.moverResetChannel cid) s =
      .next (startChan (performState (resetChannel s (ctlChan s c).ch) cid 3 0 0) (ctlChan s c).ch (ctlChan s c).waiting.length) := by
  change execMoverResetChannel cid s = _
  simp [execMoverResetChannel, h, hhalted]

/-- A reset returns each descriptor's TOKEN (R442). -/
theorem rets_discard (n : Nat) (ds : List MoverDesc) : ∀ s : State,
    (ds.foldl (fun t d => moverReturn t { ch := n, token := d.token, kind := 4, value := 0, cause := 0, direction := false }) s).mover.rets =
      s.mover.rets ++ ds.map (fun d => ⟨n, d.token, 4, 0, 0, false⟩) ∧
    (ds.foldl (fun t d => moverReturn t { ch := n, token := d.token, kind := 4, value := 0, cause := 0, direction := false }) s).ctxs = s.ctxs := by
  induction ds with
  | nil => exact fun s => ⟨(List.append_nil _).symm, rfl⟩
  | cons d ds ih =>
    intro s
    obtain ⟨hrets, hctxs⟩ := ih (moverReturn s { ch := n, token := d.token, kind := 4, value := 0, cause := 0, direction := false })
    refine ⟨hrets.trans ?_, hctxs⟩
    rw [moverReturn, List.append_assoc]
    rfl

theorem resetChannel_discards (s : State) (n : Nat) (hnext : (chanOf s n).waiting = []) :
    chanOf (resetChannel s n) n = Chan.idle n ∧ (resetChannel s n).ctxs = s.ctxs ∧
      (resetChannel s n).mover.rets = s.mover.rets ++ (chanOf s n).descs.map (fun d => ⟨n, d.token, 4, 0, 0, false⟩) := by
  obtain ⟨hrets, hctxs⟩ := rets_discard n (chanOf s n).descs s
  refine ⟨?_, hctxs, hrets⟩
  rw [resetChannel, hnext]
  exact chanOf_putChan_same rfl

/-- Settles O50: each action by what it makes of the channel that the command names. -/
theorem moverIsControlled : Obligations.MoverIsControlled := by
  unfold Obligations.MoverIsControlled
  intro s cid c n
  refine ⟨fun h => ?query, fun d ds h hhalted hdescs hgood hrun => ?resume, fun h hhalted hnext => ?reset⟩
  case query =>
    have hexec : exec (.moverQuery cid) s = .next (performState s cid 3 (queryResult (chanOf s n)).1 (queryResult (chanOf s n)).2) := by
      change execMoverQuery cid s = _
      simp only [execMoverQuery, h]
      rfl
    exact ⟨_, hexec, endedWith_performState (ctxOf_of_actionIn h) .., mover_performState ..⟩
  case resume =>
    have hch : (ctlChan s c).ch = n := ch_chanOf s n
    have hexec := exec_moverResume h hhalted
    rw [hch, show (ctlChan s c).descs.length = ds.length + 1 from congrArg List.length hdescs] at hexec
    have hchan : chanOf (performState (resumed s n) cid 3 0 0) n = { chanOf s n with st := .idle, cause := 0, direction := false, space := 0, addr := 0 } :=
      (chanOf_congr (mover_performState ..) n).trans (chanOf_putChan_same (ch_chanOf s n))
    have hrest := rest_performState (L := [.ctxs, .twin]) rfl (resumed s n) cid 3 0 0
    have hcheck : descFault (performState (resumed s n) cid 3 0 0) d = none :=
      (descFault_congr (kf_of_rest hrest rfl) (eng_of_rest hrest rfl) (portA_of_rest hrest rfl) (portB_of_rest hrest rfl) d).trans hgood
    obtain ⟨hstart, hrets, hctxs⟩ := startChan_starts (by rw [hchan]) (by rw [hchan]; exact hdescs)
      ((congrArg Jrnl.stopFrom (jrnl_of_rest hrest rfl)).trans hrun) hcheck ds.length
    refine ⟨_, hexec, endedWith_congr hctxs (endedWith_performState (s := resumed s n) (ctxOf_of_actionIn h) ..), ?_⟩
    rw [hstart, hrets, hchan, mover_performState]
    exact ⟨rfl, rfl, hdescs, rfl⟩
  case reset =>
    have hch : (ctlChan s c).ch = n := ch_chanOf s n
    obtain ⟨hchan, hctxs, hrets⟩ := resetChannel_discards s n hnext
    have hexec := exec_moverResetChannel h hhalted
    rw [hch, show (ctlChan s c).waiting = [] from hnext] at hexec
    refine ⟨_, hexec, endedWith_performState ((ctxOf_congr hctxs cid).trans (ctxOf_of_actionIn h)) .., ?_⟩
    rw [List.length_nil, startChan, chanOf_congr (mover_performState ..), hchan, mover_performState, hrets]
    exact ⟨rfl, rfl, rfl⟩

end Sys2Proof.Proofs
end

section
/-! PROOFS. The keeper flash sequencer (R445 to R449): the registers of its requesters, and how its commands start. -/
namespace Sys2Proof.Proofs
open Sys2Proof Sys2Proof.Machine Sys2Proof.Laws

/-! ## The registers of the requesters -/

@[simp] theorem kfReq_updKfReq (s : State) (side : Bool) (f : KfReq → KfReq) : kfReq (updKfReq s side f) side = f (kfReq s side) := by
  cases side <;> rfl

@[simp] theorem kfReq_updKfReq_other (s : State) (side : Bool) (f : KfReq → KfReq) : kfReq (updKfReq s side f) (!side) = kfReq s (!side) := by
  cases side <;> rfl

@[simp] theorem kfReq_drawFree (s : State) (side : Bool) : kfReq (drawFree s) side = kfReq s side := rfl

@[simp] theorem kfReq_drawBytes (s : State) (n : Nat) (side : Bool) : kfReq (drawBytes s n) side = kfReq s side := rfl

@[simp] theorem recMode_updKfReq (s : State) (side : Bool) (f : KfReq → KfReq) : (updKfReq s side f).kf.recMode = s.kf.recMode := by cases side <;> rfl

@[simp] theorem unverified_updKfReq (s : State) (side : Bool) (f : KfReq → KfReq) : (updKfReq s side f).kf.unverified = s.kf.unverified := by cases side <;> rfl

@[simp] theorem mem_updKfReq (s : State) (side : Bool) (f : KfReq → KfReq) : (updKfReq s side f).kf.mem = s.kf.mem := by cases side <;> rfl

@[simp] theorem free_updKfReq (s : State) (side : Bool) (f : KfReq → KfReq) : (updKfReq s side f).free = s.free := by cases side <;> rfl

theorem updKfReq_updKfReq (s : State) (side : Bool) (f g : KfReq → KfReq) : updKfReq (updKfReq s side f) side g = updKfReq s side (fun r => g (f r)) := by
  cases side <;> rfl

/-- A bank is busy by the commands that run. -/
theorem bankBusy_updKfReq (s : State) (side : Bool) {f : KfReq → KfReq} (hf : ∀ r, (f r).running = r.running) (bank : Bool) :
    bankBusy (updKfReq s side f) bank = bankBusy s bank := by
  cases side <;> simp [bankBusy, runsIn, updKfReq, hf]

theorem kfLockedOut_updKfReq (s : State) (side who : Bool) (f : KfReq → KfReq) (cmd addr : Nat) :
    kfLockedOut (updKfReq s who f) side cmd addr = kfLockedOut s side cmd addr := by simp only [kfLockedOut, recMode_updKfReq]

theorem notErased_updKfReq (s : State) (side : Bool) (f : KfReq → KfReq) (addr : Nat) (bs : List Byte) :
    notErased (updKfReq s side f) addr bs = notErased s addr bs := by
  simp only [notErased, mem_updKfReq, freeNow, free_updKfReq]

/-! ## Flags of KF_STATUS -/

theorem kfReq_kfSet (s : State) (side : Bool) (n : Nat) : kfReq (kfSet s side n) side = { kfReq s side with flags := (kfReq s side).flags ||| (1 : BitVec 12) <<< n } :=
  kfReq_updKfReq ..

@[simp] theorem kfReq_kfSet_other (s : State) (side : Bool) (n : Nat) : kfReq (kfSet s side n) (!side) = kfReq s (!side) := kfReq_updKfReq_other ..

theorem getLsbD_set (v : BitVec 12) {n : Nat} (hn : n < 12) (m : Nat) : (v ||| (1 : BitVec 12) <<< n).getLsbD m = (v.getLsbD m || decide (m = n)) := by
  change (v ||| BitVec.twoPow 12 n).getLsbD m = _
  rw [BitVec.getLsbD_or, BitVec.getLsbD_twoPow]
  simp [hn, eq_comm]

theorem flag_kfSet (s : State) (side : Bool) {n : Nat} (hn : n < 12) : (kfReq (kfSet s side n) side).flags.getLsbD n = true := by
  rw [kfReq_kfSet, getLsbD_set _ hn]
  simp

/-- No flag is taken back. -/
theorem flag_kfSet_kept (s : State) (side : Bool) {n m : Nat} (hn : n < 12) (h : (kfReq s side).flags.getLsbD m = true) :
    (kfReq (kfSet s side n) side).flags.getLsbD m = true := by
  rw [kfReq_kfSet, getLsbD_set _ hn, h, Bool.true_or]

theorem kfReq_kfRefuse (s : State) (side : Bool) (n : Nat) : kfReq (kfRefuse s side n) side =
    { kfReq s side with flags := (kfReq s side).flags ||| (1 : BitVec 12) <<< n, key := 0 } := by
  rw [kfRefuse, kfReq_updKfReq, kfReq_kfSet]

theorem flag_kfRefuse (s : State) (side : Bool) {n : Nat} (hn : n < 12) : (kfReq (kfRefuse s side n) side).flags.getLsbD n = true := by
  rw [kfReq_kfRefuse, getLsbD_set _ hn]
  simp

/-! ## A command begins -/

theorem kfReq_kfBegin_other (s : State) (side : Bool) (cmd addr : Nat) : kfReq (kfBegin s side cmd addr) (!side) = kfReq s (!side) := by
  unfold kfBegin
  dsimp only
  repeat' split
  all_goals simp

theorem kfBegin_runs {s : State} {side : Bool} {cmd : Nat} (addr : Nat) (hprogram : cmd ≠ 1) (hread : cmd ≠ 4) :
    kfBegin s side cmd addr = updKfReq s side (fun r => { r with waiting := none, running := some (cmd, addr) }) := by
  simp only [kfBegin, beq_iff_eq, hprogram, hread, if_false]
  exact updKfReq_updKfReq ..

section Program

variable {s : State} {side : Bool} {addr : Nat}

/-- A PROGRAM of erased bytes in a verified sector runs. -/
theorem kfBegin_program (herased : notErased s addr (bufferBytes (kfReq s side).buffer) = false) (hverified : s.kf.unverified.contains (sectorOf addr) = false) :
    kfReq (kfBegin s side 1 addr) side = { kfReq s side with waiting := none, running := some (1, addr) } := by
  simp only [kfBegin, notErased_updKfReq, unverified_updKfReq, herased, hverified, beq_self_eq_true, if_true, Bool.or_self, Bool.false_eq_true, if_false]
  split <;> simp

/-- A PROGRAM of bytes not erased sets its flag and does not run. -/
theorem kfBegin_notErased (hdirty : notErased s addr (bufferBytes (kfReq s side).buffer) = true) (hidle : (kfReq s side).running = none) :
    (kfReq (kfBegin s side 1 addr) side).running = none ∧ (kfReq (kfBegin s side 1 addr) side).flags.getLsbD 8 = true := by
  simp only [kfBegin, notErased_updKfReq, unverified_updKfReq, hdirty, beq_self_eq_true, if_true, Bool.true_or]
  have hbase : kfReq (if recordRegion addr then drawFree (updKfReq s side (fun r => { r with waiting := none })) else
      updKfReq s side (fun r => { r with waiting := none })) side = { kfReq s side with waiting := none } := by split <;> simp
  split
  · exact ⟨by rw [kfReq_kfSet, kfReq_kfSet, hbase]; exact hidle, flag_kfSet_kept _ _ (by decide) (flag_kfSet _ _ (by decide))⟩
  · exact ⟨by rw [kfReq_kfSet, hbase]; exact hidle, flag_kfSet _ _ (by decide)⟩

end Program

/-- Outside the record regions a READ answers with its 64 words (Table 19-2). -/
theorem kfBegin_read {s : State} {side : Bool} {addr : Nat} (hregion : recordRegion addr = false) : kfReq (kfBegin s side 4 addr) side =
    { kfReq s side with
      waiting := none, data := (List.range 64).map (fun n => (n, w32 (field (memBytes s.kf.mem addr 256) (4 * n) 4)))
      flags := (kfReq s side).flags ||| (1 : BitVec 12) <<< kfDone } := by
  simp [kfBegin, hregion, kfBytes, kfReq_kfSet]

/-! ## A command starts (R445, R449) -/

/-- A requester with a command that waits for its bank. -/
def askedFor (s : State) (side : Bool) (cmd addr : Nat) : State :=
  updKfReq s side (fun r => { r with key := 0, addrGiven := false, waiting := some (cmd, addr), buffer := r.data })

theorem kfWake_idle {s : State} {side : Bool} (h : (kfReq s side).waiting = none) : kfWake s side = s := by
  simp [kfWake, h]

theorem kfWake_begins {s : State} {side : Bool} {cmd addr : Nat} (h : (kfReq s side).waiting = some (cmd, addr)) (hfree : bankBusy s (inBank1 addr) = false) :
    kfWake s side = kfBegin s side cmd addr := by
  simp [kfWake, h, hfree]

/-- Where the other requester waits for nothing, a settled sequencer is a requester's own command begun. -/
theorem kfSettle_begins {s : State} {side : Bool} {cmd addr : Nat} (h : (kfReq s side).waiting = some (cmd, addr)) (hfree : bankBusy s (inBank1 addr) = false)
    (hother : (kfReq s (!side)).waiting = none) : kfSettle s = kfBegin s side cmd addr := by
  unfold kfSettle
  cases side with
  | false =>
    rw [kfWake_begins h hfree]
    exact kfWake_idle ((congrArg KfReq.waiting (kfReq_kfBegin_other s false cmd addr)).trans hother)
  | true =>
    have hidle : kfWake s false = s := kfWake_idle hother
    rw [hidle, kfWake_begins h hfree]

theorem bankBusy_askedFor (s : State) (side : Bool) (cmd addr : Nat) (bank : Bool) : bankBusy (askedFor s side cmd addr) bank = bankBusy s bank :=
  bankBusy_updKfReq s side (f := fun r => { r with key := 0, addrGiven := false, waiting := some (cmd, addr), buffer := r.data }) (fun _ => rfl) bank

theorem kfStart_begins {s : State} {side : Bool} {cmd addr : Nat} (hopen : kfLockedOut s side cmd addr = false) (hfree : bankBusy s (inBank1 addr) = false)
    (hother : (kfReq s (!side)).waiting = none) : kfStart s side cmd addr = kfBegin (askedFor s side cmd addr) side cmd addr := by
  rw [kfStart, hopen]
  exact kfSettle_begins (s := askedFor s side cmd addr) (by rw [askedFor, kfReq_updKfReq])
    ((bankBusy_askedFor ..).trans hfree) (by rw [askedFor, kfReq_updKfReq_other]; exact hother)

/-! ## The writes of a command (R445) -/

/-- KF_CMD and an address taken after the key. -/
def addressed (s : State) (side : Bool) (cmd addr : Nat) : State :=
  updKfReq s side (fun r => { r with key := 3, cmd := cmd, addrGiven := false, addr := addr })

section Command

variable {s : State} {side : Bool} {addr : Nat} (hkey : (kfReq s side).key = 2) (haddr : addr < 0x4000000)
include hkey

theorem kfWriteCmd_accepts {cmd : Nat} (hlow : 1 ≤ cmd) (hhigh : cmd ≤ 5) :
    kfWriteCmd s side cmd = updKfReq s side (fun r => { r with key := 3, cmd := cmd, addrGiven := false }) := by
  simp [kfWriteCmd, hkey, hlow, hhigh]

include haddr

/-- An aligned address starts every command but PROGRAM. -/
theorem kfCommand_starts {cmd : Nat} (hlow : 2 ≤ cmd) (hhigh : cmd ≤ 5) (halign : kfAligned cmd addr = true) (pc : Option Nat)
    (hself : kfLockedOut s side cmd addr = false → kfSelf side cmd addr pc = false) :
    kfCommand s side cmd addr pc = kfStart (addressed s side cmd addr) side cmd addr := by
  have hmod : addr % 0x4000000 = addr := Nat.mod_eq_of_lt haddr
  rw [kfCommand, kfWriteCmd_accepts hkey (by omega) hhigh, kfWriteAddr, kfReq_updKfReq, updKfReq_updKfReq]
  simp only [kfLockedOut_updKfReq, halign, hmod]
  rw [if_neg (by simp), if_neg (by simp; omega), if_neg (by simp; omega), if_neg (by simpa using hself)]
  rfl

/-- The address of a PROGRAM is kept for its data. -/
theorem kfCommand_program (halign : addr % 256 = 0) (pc : Option Nat) :
    kfCommand s side 1 addr pc = updKfReq (addressed s side 1 addr) side (fun r => { r with addrGiven := true }) := by
  have hmod : addr % 0x4000000 = addr := Nat.mod_eq_of_lt haddr
  have hal : kfAligned 1 addr = true := by simpa [kfAligned] using halign
  rw [kfCommand, kfWriteCmd_accepts hkey (by omega) (by omega), kfWriteAddr, kfReq_updKfReq, updKfReq_updKfReq]
  simp only [hal, hmod]
  rw [if_neg (by simp), if_neg (by simp; omega), if_pos (by simp)]
  rfl

end Command

/-! ## The data of a PROGRAM -/

theorem dataWord_putWord (data : List (Nat × Word)) (n m : Nat) (v : Word) : dataWord (putWord data n v) m = if m = n then v else dataWord data m := by
  unfold dataWord putWord
  by_cases h : m = n
  · simp [h]
  · rw [List.find?_cons_of_neg (by simpa using Ne.symm h), List.find?_filter, if_neg h]
    congr 2
    funext x
    by_cases hx : x.1 = m <;> simp [hx, h]

/-- Words written in order are read at their numbers. -/
theorem dataWord_written (ws : List Word) (data : List (Nat × Word)) : ∀ i, (hi : i < ws.length) →
    dataWord (((List.range ws.length).zip ws).foldl (fun d x => putWord d x.1 x.2) data) i = ws[i] := by
  induction ws using List.reverseRecOn with
  | nil => intro i hi; cases hi
  | append_singleton ws w ih =>
    intro i hi
    rw [List.length_append, List.length_singleton, List.range_succ, List.zip_append (by simp), List.foldl_append]
    simp only [List.zip_cons_cons, List.zip_nil_right, List.foldl_cons, List.foldl_nil, dataWord_putWord]
    by_cases hlast : i = ws.length
    · simp [hlast]
    · rw [List.length_append, List.length_singleton] at hi
      rw [if_neg hlast, ih i (by omega), List.getElem_append_left (by omega)]

/-- The buffer of 64 words written is those words. -/
theorem bufferBytes_written {ws : List Word} (hlen : ws.length = 64) (data : List (Nat × Word)) :
    bufferBytes (((List.range 64).zip ws).foldl (fun d x => putWord d x.1 x.2) data) = ws.flatMap (fun w => leBytes 4 w.toNat) := by
  have hwords : (List.range 64).map (dataWord (((List.range 64).zip ws).foldl (fun d x => putWord d x.1 x.2) data)) = ws := by
    refine List.ext_getElem (by simp [hlen]) fun i _ hi => ?_
    rw [List.getElem_map, List.getElem_range]
    simpa only [hlen] using dataWord_written ws data i hi
  rw [bufferBytes]
  exact (List.flatMap_map (dataWord _) (fun w : Word => leBytes 4 w.toNat) (List.range 64)).symm.trans (congrArg (List.flatMap _) hwords)

/-- Words before the last only fill KF_DATA. -/
theorem kfWriteData_fills {side : Bool} {pc : Option Nat} (l : List (Nat × Word)) : ∀ {s : State}, (∀ x ∈ l, x.1 ≠ 63) →
    l.foldl (fun t x => kfWriteData t side x.1 x.2 pc) s =
      updKfReq s side (fun r => { r with data := l.foldl (fun d x => putWord d x.1 x.2) r.data }) := by
  induction l with
  | nil => intro s _; cases side <;> rfl
  | cons x l ih =>
    intro s hl
    have hstep : kfWriteData s side x.1 x.2 pc = updKfReq s side (fun r => { r with data := putWord r.data x.1 x.2 }) := by
      simp [kfWriteData, hl x (List.mem_cons_self ..)]
    rw [List.foldl_cons, hstep, ih (fun y hy => hl y (List.mem_cons_of_mem x hy)), updKfReq_updKfReq]
    rfl

/-- The address and the 64 words of a PROGRAM taken. -/
def dataGiven (s : State) (side : Bool) (addr : Nat) (ws : List Word) : State :=
  updKfReq (addressed s side 1 addr) side (fun r =>
    { r with addrGiven := true, data := ((List.range 64).zip ws).foldl (fun d x => putWord d x.1 x.2) r.data })

/-- Word 63 starts the PROGRAM. -/
theorem kfProgram_starts {s : State} {side : Bool} {addr : Nat} (hkey : (kfReq s side).key = 2) (haddr : addr < 0x4000000) (halign : addr % 256 = 0)
    {ws : List Word} (hlen : ws.length = 64) (pc : Option Nat) (hself : kfSelf side 1 addr pc = false) :
    ((List.range ws.length).zip ws).foldl (fun t x => kfWriteData t side x.1 x.2 pc) (kfCommand s side 1 addr pc) =
      kfStart (dataGiven s side addr ws) side 1 addr := by
  obtain ⟨front, w, rfl⟩ : ∃ front w, ws = front ++ [w] := ⟨_, _, (List.dropLast_append_getLast (List.ne_nil_of_length_pos (by omega))).symm⟩
  have hfront : front.length = 63 := by simpa using hlen
  have hsplit : (List.range 64).zip (front ++ [w]) = (List.range 63).zip front ++ [(63, w)] := by
    rw [List.range_succ, List.zip_append (by simp [hfront])]
    rfl
  have hbefore : ∀ x ∈ (List.range 63).zip front, x.1 ≠ 63 := fun x hx =>
    Nat.ne_of_lt (List.mem_range.mp (List.of_mem_zip (show (x.1, x.2) ∈ _ from hx)).1)
  have hgiven : dataGiven s side addr (front ++ [w]) = updKfReq (updKfReq (addressed s side 1 addr) side (fun r => { r with addrGiven := true })) side (fun r =>
      { r with data := putWord (((List.range 63).zip front).foldl (fun d x => putWord d x.1 x.2) r.data) 63 w }) := by
    rw [dataGiven, hsplit, updKfReq_updKfReq]
    simp only [List.foldl_append, List.foldl_cons, List.foldl_nil]
  rw [hlen, hsplit, kfCommand_program hkey haddr halign, List.foldl_append, kfWriteData_fills _ hbefore, List.foldl_cons, List.foldl_nil, hgiven]
  simp only [kfWriteData, kfReq_updKfReq, addressed, hself, Bool.and_false]
  rw [if_pos (by simp), if_neg (by simp), updKfReq_updKfReq (updKfReq (updKfReq s side _) side _)]

/-! ## Starts (R445, R446, R448, R449) -/

/-- A command that is not named for the bytes of keeper flash leaves them. -/
theorem mem_of_exec {i : Instr} {s t : State} (hleft : sub (touches i) (but .kfMem) = true) (h : exec i s = .next t) : t.kf.mem = s.kf.mem := by
  obtain ⟨u, hu, hrest⟩ := rest_exec i s hleft
  rw [hu] at h
  cases h
  exact kfMem_of_rest hrest rfl

/-- With PORST_N high the sequencer answers (R450). -/
theorem exec_of_kfLive {i : Instr} {s : State} (hporst : s.kf.porst = false) (f : State → State) (hexec : exec i s = kfLive s f) : exec i s = .next (f s) :=
  hexec.trans (if_neg (by simp [hporst]))

section Starts

variable {s : State} {side : Bool} {addr : Nat}

theorem kfLockedOut_dataGiven (ws : List Word) : kfLockedOut (dataGiven s side addr ws) side 1 addr = kfLockedOut s side 1 addr := by
  rw [dataGiven, addressed, kfLockedOut_updKfReq, kfLockedOut_updKfReq]

theorem bankBusy_addressed (cmd : Nat) (bank : Bool) : bankBusy (addressed s side cmd addr) bank = bankBusy s bank :=
  bankBusy_updKfReq s side (f := fun r => { r with key := 3, cmd := cmd, addrGiven := false, addr := addr }) (fun _ => rfl) bank

theorem bankBusy_dataGiven (ws : List Word) (bank : Bool) : bankBusy (dataGiven s side addr ws) bank = bankBusy s bank :=
  (bankBusy_updKfReq (addressed s side 1 addr) side (f := fun r =>
    { r with addrGiven := true, data := ((List.range 64).zip ws).foldl (fun d x => putWord d x.1 x.2) r.data }) (fun _ => rfl) bank).trans (bankBusy_addressed ..)

variable (hkey : (kfReq s side).key = 2) (haddr : addr < 0x4000000) (hfree : bankBusy s (inBank1 addr) = false) (hother : (kfReq s (!side)).waiting = none)
include hkey haddr hfree hother

/-- Every command but PROGRAM begins by its address. -/
theorem kfCommand_begins {cmd : Nat} (hlow : 2 ≤ cmd) (hhigh : cmd ≤ 5) (halign : kfAligned cmd addr = true) (pc : Option Nat)
    (hopen : kfLockedOut s side cmd addr = false) (hself : kfSelf side cmd addr pc = false) :
    kfCommand s side cmd addr pc = kfBegin (askedFor (addressed s side cmd addr) side cmd addr) side cmd addr := by
  rw [kfCommand_starts hkey haddr hlow hhigh halign pc (fun _ => hself)]
  exact kfStart_begins (by rwa [addressed, kfLockedOut_updKfReq]) (by rwa [bankBusy_addressed]) (by rw [addressed, kfReq_updKfReq_other]; exact hother)

/-- ERASE, MARGIN_READ and CRC_SECTOR run on an idle bank. -/
theorem kfCommand_runs {cmd : Nat} (hcmd : cmd = 2 ∨ cmd = 3 ∨ cmd = 5) (halign : addr % sectorSize = 0) (pc : Option Nat)
    (hopen : kfLockedOut s side cmd addr = false) (hself : kfSelf side cmd addr pc = false) :
    (kfReq (kfCommand s side cmd addr pc) side).running = some (cmd, addr) ∧ (kfReq (kfCommand s side cmd addr pc) side).key = 0 ∧
      kfReq (kfCommand s side cmd addr pc) (!side) = kfReq s (!side) := by
  have hal : kfAligned cmd addr = true := by rcases hcmd with rfl | rfl | rfl <;> simpa [kfAligned] using halign
  rw [kfCommand_begins hkey haddr hfree hother (by omega) (by omega) hal pc hopen hself, kfBegin_runs addr (by omega) (by omega), kfReq_updKfReq,
    kfReq_updKfReq_other, askedFor, addressed, kfReq_updKfReq, kfReq_updKfReq_other, kfReq_updKfReq_other]
  exact ⟨rfl, rfl, rfl⟩

/-- A READ of no record region answers at once with its unit. -/
theorem kfCommand_reads (halign : addr % 256 = 0) (hregion : recordRegion addr = false) (hidle : (kfReq s side).running = none) :
    (kfReq (kfCommand s side 4 addr none) side).running = none ∧ (kfReq (kfCommand s side 4 addr none) side).flags.getLsbD 3 = true ∧
      (kfReq (kfCommand s side 4 addr none) side).data = (List.range 64).map (fun n => (n, w32 (field (memBytes s.kf.mem addr 256) (4 * n) 4))) := by
  have hal : kfAligned 4 addr = true := by simpa [kfAligned] using halign
  rw [kfCommand_begins hkey haddr hfree hother (by omega) (by omega) hal none rfl rfl, kfBegin_read hregion, askedFor, addressed, kfReq_updKfReq,
    kfReq_updKfReq, mem_updKfReq, mem_updKfReq]
  exact ⟨hidle, by simp [kfDone], rfl⟩

section Program

variable (halign : addr % 256 = 0) {ws : List Word} (hlen : ws.length = 64) (pc : Option Nat) (hopen : kfLockedOut s side 1 addr = false)
  (hself : kfSelf side 1 addr pc = false)
include halign hlen hopen hself

theorem kfProgram_begins : ((List.range ws.length).zip ws).foldl (fun t x => kfWriteData t side x.1 x.2 pc) (kfCommand s side 1 addr pc) =
    kfBegin (askedFor (dataGiven s side addr ws) side 1 addr) side 1 addr := by
  rw [kfProgram_starts hkey haddr halign hlen pc hself]
  exact kfStart_begins (by rwa [kfLockedOut_dataGiven]) (by rwa [bankBusy_dataGiven])
    (by rw [dataGiven, addressed, kfReq_updKfReq_other, kfReq_updKfReq_other]; exact hother)

omit hkey haddr hfree hother halign hopen hself in
/-- A PROGRAM begins with the words that were written. -/
theorem buffer_askedFor : bufferBytes (kfReq (askedFor (dataGiven s side addr ws) side 1 addr) side).buffer = ws.flatMap (fun w => leBytes 4 w.toNat) := by
  rw [askedFor, kfReq_updKfReq, dataGiven, kfReq_updKfReq]
  exact bufferBytes_written hlen _

omit hkey haddr hfree hother halign hlen hopen hself in
theorem notErased_askedFor (bs : List Byte) : notErased (askedFor (dataGiven s side addr ws) side 1 addr) addr bs = notErased s addr bs := by
  rw [askedFor, dataGiven, addressed, notErased_updKfReq, notErased_updKfReq, notErased_updKfReq]

theorem exec_kfProgram (hporst : s.kf.porst = false) :
    exec (.kfProgram side addr ws pc) s = .next (kfBegin (askedFor (dataGiven s side addr ws) side 1 addr) side 1 addr) := by
  have hexec : exec (.kfProgram side addr ws pc) s = .next (((List.range ws.length).zip ws).foldl (fun t x => kfWriteData t side x.1 x.2 pc)
      (kfCommand s side 1 addr pc)) :=
    exec_of_kfLive hporst (fun t => ((List.range ws.length).zip ws).foldl (fun t x => kfWriteData t side x.1 x.2 pc) (kfCommand t side 1 addr pc)) rfl
  rw [hexec, kfProgram_begins hkey haddr hfree hother halign hlen pc hopen hself]

theorem kfProgram_runs (hporst : s.kf.porst = false) (herased : notErased s addr (ws.flatMap (fun w => leBytes 4 w.toNat)) = false)
    (hverified : s.kf.unverified.contains (sectorOf addr) = false) :
    ∃ t, exec (.kfProgram side addr ws pc) s = .next t ∧ (kfReq t side).running = some (1, addr) ∧ (kfReq t side).key = 0 ∧
      kfReq t (!side) = kfReq s (!side) := by
  refine ⟨_, exec_kfProgram hkey haddr hfree hother halign hlen pc hopen hself hporst, ?_⟩
  have hbegin := kfBegin_program (s := askedFor (dataGiven s side addr ws) side 1 addr) (side := side) (addr := addr)
    (by rw [buffer_askedFor hlen, notErased_askedFor]; exact herased) (by rw [askedFor, dataGiven, addressed]; simpa using hverified)
  rw [hbegin, kfReq_kfBegin_other, askedFor, kfReq_updKfReq, kfReq_updKfReq_other, dataGiven, addressed, kfReq_updKfReq_other, kfReq_updKfReq_other]
  exact ⟨rfl, rfl, rfl⟩

theorem kfProgram_refused (hporst : s.kf.porst = false) (hidle : (kfReq s side).running = none)
    (hdirty : notErased s addr (ws.flatMap (fun w => leBytes 4 w.toNat)) = true) :
    ∃ t, exec (.kfProgram side addr ws pc) s = .next t ∧ (kfReq t side).running = none ∧ (kfReq t side).flags.getLsbD 8 = true := by
  refine ⟨_, exec_kfProgram hkey haddr hfree hother halign hlen pc hopen hself hporst, ?_⟩
  exact kfBegin_notErased (by rw [buffer_askedFor hlen, notErased_askedFor]; exact hdirty)
    (by rw [askedFor, dataGiven, addressed, kfReq_updKfReq, kfReq_updKfReq, kfReq_updKfReq]; exact hidle)

end Program

omit hfree hother in
/-- The sideband's ERASE outside recovery mode sets LOCKED and takes the key back (R449). -/
theorem kfErase_locked (hside : side = true) (hmode : s.kf.recMode = false) (halign : addr % sectorSize = 0) (pc : Option Nat)
    (hidle : (kfReq s side).running = none) :
    (kfReq (kfCommand s side 2 addr pc) side).running = none ∧ (kfReq (kfCommand s side 2 addr pc) side).key = 0 ∧
      (kfReq (kfCommand s side 2 addr pc) side).flags.getLsbD 6 = true := by
  have hlocked : kfLockedOut s side 2 addr = true := by simp [kfLockedOut, hside, hmode]
  have hal : kfAligned 2 addr = true := by simpa [kfAligned] using halign
  rw [kfCommand_starts hkey haddr (by omega) (by omega) hal pc (fun hopen => absurd hopen (by simp [hlocked])), kfStart, addressed, kfLockedOut_updKfReq,
    if_pos hlocked]
  exact ⟨by rw [kfReq_kfRefuse, kfReq_updKfReq]; exact hidle, by rw [kfReq_kfRefuse], flag_kfRefuse _ _ (by decide)⟩

end Starts

/-! ## The key (R445) -/

theorem kfBusy_of_idle {r : KfReq} (hrun : r.running = none) (hwait : r.waiting = none) : kfBusy r = false := by simp [kfBusy, hrun, hwait]

theorem kfWriteKey_first {s : State} {side : Bool} (hidle : kfBusy (kfReq s side) = false) (hkey : (kfReq s side).key = 0) :
    kfReq (kfWriteKey s side 0xA5C3) side = { kfReq s side with key := 1 } := by
  simp [kfWriteKey, hidle, hkey]

theorem kfWriteKey_second {s : State} {side : Bool} (hidle : kfBusy (kfReq s side) = false) (hkey : (kfReq s side).key = 1) :
    kfReq (kfWriteKey s side 0x3C5A) side = { kfReq s side with key := 2 } := by
  simp [kfWriteKey, hidle, hkey]

theorem kfWriteKey_out_of_order {s : State} {side : Bool} (hkey : (kfReq s side).key = 2) (v : Nat) :
    kfWriteKey s side v = kfRefuse s side kfSequence := by
  simp [kfWriteKey, hkey]

theorem dataWord_read (f : Nat → Word) {n : Nat} (hn : n < 64) : dataWord ((List.range 64).map (fun n => (n, f n))) n = f n := by
  have hfound : ((List.range 64).map (fun n => (n, f n))).find? (fun x => x.1 == n) = some (n, f n) := by
    rw [List.find?_map]
    have hindex : (List.range 64).find? (fun i => i == n) = some n := by
      rw [List.find?_eq_some_iff_getElem]
      exact ⟨by simp, n, by simpa using hn, by simp, fun j hj => by simpa using Nat.ne_of_lt hj⟩
    exact congrArg (Option.map _) hindex
  rw [dataWord, hfound]

/-- Settles O51: each write of the sequence by its rule, the bytes of the flash by the frame of its command. -/
theorem flashCommandsStart : Obligations.FlashCommandsStart := by
  unfold Obligations.FlashCommandsStart
  intro s side addr hporst hidle hwait hother starts
  have hfreeReq := kfBusy_of_idle hidle hwait
  have hkeyExec (v : Word) : exec (.kfKeyWrite side v) s = .next (kfWriteKey s side (bits v.toNat 15 0)) :=
    exec_of_kfLive hporst (fun t => kfWriteKey t side (bits v.toNat 15 0)) rfl
  refine ⟨fun v hkey hv => ?first, fun v hkey hv => ?second, fun v hkey => ?sequence, fun hkey haddr hfree => ⟨fun ws pc hlen halign hopen hself =>
    ⟨fun herased hverified => ?program, fun hdirty => ?dirty⟩, fun pc halign hopen hself => ?erase, fun halign => ?checks, fun halign hregion => ?read,
    fun pc hside hmode halign => ?locked⟩⟩
  case first => exact ⟨_, hkeyExec v, by rw [hv]; exact kfWriteKey_first hfreeReq hkey⟩
  case second => exact ⟨_, hkeyExec v, by rw [hv]; exact kfWriteKey_second hfreeReq hkey⟩
  case sequence =>
    refine ⟨_, hkeyExec v, ?_, ?_, mem_of_exec rfl (hkeyExec v)⟩
    · rw [kfWriteKey_out_of_order hkey, kfReq_kfRefuse]
    · rw [kfWriteKey_out_of_order hkey]
      exact flag_kfRefuse _ _ (by decide)
  case program =>
    obtain ⟨t, ht, hrun, hzero, hleft⟩ := kfProgram_runs hkey haddr hfree hother halign hlen pc hopen hself hporst herased hverified
    exact ⟨t, ht, hrun, hzero, hleft, mem_of_exec rfl ht⟩
  case dirty =>
    obtain ⟨t, ht, hrun, hflag⟩ := kfProgram_refused hkey haddr hfree hother halign hlen pc hopen hself hporst hidle hdirty
    exact ⟨t, ht, hrun, hflag, mem_of_exec rfl ht⟩
  case erase =>
    have hexec : exec (.kfErase side addr pc) s = .next (kfCommand s side 2 addr pc) :=
      exec_of_kfLive hporst (fun t => kfCommand t side 2 addr pc) rfl
    obtain ⟨hrun, hzero, hleft⟩ := kfCommand_runs hkey haddr hfree hother (Or.inl rfl) halign pc hopen hself
    exact ⟨_, hexec, hrun, hzero, hleft, mem_of_exec rfl hexec⟩
  case checks =>
    have hmargin : exec (.kfMarginRead side addr) s = .next (kfCommand s side 3 addr none) :=
      exec_of_kfLive hporst (fun t => kfCommand t side 3 addr none) rfl
    have hcrc : exec (.kfCrcSector side addr) s = .next (kfCommand s side 5 addr none) :=
      exec_of_kfLive hporst (fun t => kfCommand t side 5 addr none) rfl
    obtain ⟨hrun, hzero, hleft⟩ := kfCommand_runs hkey haddr hfree hother (Or.inr (Or.inl rfl)) halign none rfl rfl
    obtain ⟨hrunCrc, hzeroCrc, hleftCrc⟩ := kfCommand_runs hkey haddr hfree hother (Or.inr (Or.inr rfl)) halign none rfl rfl
    exact ⟨_, _, hmargin, ⟨hrun, hzero, hleft, mem_of_exec rfl hmargin⟩, hcrc, hrunCrc, hzeroCrc, hleftCrc, mem_of_exec rfl hcrc⟩
  case read =>
    have hexec : exec (.kfRead side addr) s = .next (kfCommand s side 4 addr none) :=
      exec_of_kfLive hporst (fun t => kfCommand t side 4 addr none) rfl
    obtain ⟨hrun, hflag, hdata⟩ := kfCommand_reads hkey haddr hfree hother halign hregion hidle
    refine ⟨_, hexec, hrun, hflag, mem_of_exec rfl hexec, fun n hn => ?_⟩
    rw [hdata]
    exact dataWord_read _ hn
  case locked =>
    have hexec : exec (.kfErase side addr pc) s = .next (kfCommand s side 2 addr pc) :=
      exec_of_kfLive hporst (fun t => kfCommand t side 2 addr pc) rfl
    obtain ⟨hrun, hzero, hflag⟩ := kfErase_locked hkey haddr hside hmode halign pc hidle
    exact ⟨_, hexec, hrun, hzero, hflag, mem_of_exec rfl hexec⟩

end Sys2Proof.Proofs
end

section
/-! PROOFS. How the commands of the keeper flash end (R446, R447). -/
namespace Sys2Proof.Proofs
open Sys2Proof Sys2Proof.Machine Sys2Proof.Laws

/-! ## What a command that begins leaves to one that ended -/

/-- The result registers of a requester. -/
def results (r : KfReq) : Nat × Nat × Word := (r.weak, r.pulses, r.crc)

/-- A requester's flags all still stand and its results are unchanged. -/
def Keeps (r r' : KfReq) : Prop := results r' = results r ∧ ∀ n, r.flags.getLsbD n = true → r'.flags.getLsbD n = true

theorem Keeps.refl (r : KfReq) : Keeps r r := ⟨rfl, fun _ h => h⟩

theorem Keeps.trans {r r' r'' : KfReq} (h : Keeps r r') (h' : Keeps r' r'') : Keeps r r'' := ⟨h'.1.trans h.1, fun n hn => h'.2 n (h.2 n hn)⟩

theorem keeps_kfSet (s : State) (side : Bool) {n : Nat} (hn : n < 12) : Keeps (kfReq s side) (kfReq (kfSet s side n) side) :=
  ⟨by rw [kfReq_kfSet]; rfl, fun _ h => flag_kfSet_kept s side hn h⟩

theorem keeps_updKfReq (s : State) (side : Bool) {f : KfReq → KfReq} (hresults : ∀ r, results (f r) = results r) (hflags : ∀ r, (f r).flags = r.flags) :
    Keeps (kfReq s side) (kfReq (updKfReq s side f) side) := by
  rw [kfReq_updKfReq]
  exact ⟨hresults _, fun n h => by rwa [hflags]⟩

theorem keeps_kfBegin_same (s : State) (side : Bool) (cmd addr : Nat) : Keeps (kfReq s side) (kfReq (kfBegin s side cmd addr) side) := by
  unfold kfBegin
  extract_lets r t bs u bad₁ bad₂ v w bs' x
  have ht : Keeps (kfReq s side) (kfReq t side) := keeps_updKfReq s side (fun _ => rfl) (fun _ => rfl)
  have hu : kfReq u side = kfReq t side := by unfold u; split <;> rfl
  have hx : kfReq x side = kfReq t side := by unfold x; split <;> rfl
  have hv : Keeps (kfReq t side) (kfReq v side) := by
    rw [← hu]
    unfold v
    split
    · exact keeps_kfSet u side (by decide)
    · exact Keeps.refl _
  have hw : Keeps (kfReq s side) (kfReq w side) := by
    refine (ht.trans hv).trans ?_
    unfold w
    split
    · exact keeps_kfSet v side (by decide)
    · exact Keeps.refl _
  repeat' split
  · exact hw
  · exact hw.trans (keeps_updKfReq w side (fun _ => rfl) (fun _ => rfl))
  · refine ht.trans (Keeps.trans ?_ (keeps_kfSet _ side (by decide)))
    rw [← hx]
    exact keeps_updKfReq x side (fun _ => rfl) (fun _ => rfl)
  · exact ht.trans (keeps_updKfReq t side (fun _ => rfl) (fun _ => rfl))

theorem keeps_kfBegin (s : State) (side who : Bool) (cmd addr : Nat) : Keeps (kfReq s side) (kfReq (kfBegin s who cmd addr) side) := by
  obtain rfl | rfl : side = who ∨ side = !who := by cases side <;> cases who <;> simp
  · exact keeps_kfBegin_same s side cmd addr
  · rw [kfReq_kfBegin_other]
    exact Keeps.refl _

theorem keeps_kfSettle (s : State) (side : Bool) : Keeps (kfReq s side) (kfReq (kfSettle s) side) := by
  have hwake (t : State) (who : Bool) : Keeps (kfReq t side) (kfReq (kfWake t who) side) := by
    unfold kfWake
    repeat' split
    · exact Keeps.refl _
    · exact keeps_kfBegin ..
    · exact Keeps.refl _
  exact (hwake s false).trans (hwake _ true)

@[simp] theorem unverified_kfSet (s : State) (side : Bool) (n : Nat) : (kfSet s side n).kf.unverified = s.kf.unverified := unverified_updKfReq ..

theorem unverified_kfBegin (s : State) (side : Bool) (cmd addr : Nat) : (kfBegin s side cmd addr).kf.unverified = s.kf.unverified := by
  have hfree (t : State) : (drawFree t).kf.unverified = t.kf.unverified := rfl
  have hbytes (t : State) (n : Nat) : (drawBytes t n).kf.unverified = t.kf.unverified := rfl
  unfold kfBegin
  dsimp only
  repeat' split
  all_goals simp [hfree, hbytes]

theorem unverified_kfSettle (s : State) : (kfSettle s).kf.unverified = s.kf.unverified := by
  have hwake (t : State) (who : Bool) : (kfWake t who).kf.unverified = t.kf.unverified := by
    unfold kfWake
    repeat' split
    · rfl
    · exact unverified_kfBegin ..
    · rfl
  exact (hwake _ true).trans (hwake s false)

/-! ## The end of a command (R446, R447) -/

/-- The bytes and registers as a command of its kind ends. -/
def effect (s : State) (side : Bool) (cmd addr measured : Nat) (agreed : Bool) : State :=
  match cmd with
  | 1 => endProgram s side addr measured agreed
  | 2 => endErase s addr
  | 3 => endMarginRead s side addr measured
  | _ => endCrc s side addr

/-- A command ended, with DONE and the commands that waited for its bank begun. -/
def commandEnded (t : State) (side : Bool) (cmd addr : Nat) : State :=
  kfSettle (updKfReq (kfSet (hitSaved t cmd addr) side kfDone) side (fun r => { r with running := none }))

section CommandEnded

variable (t : State) (side : Bool) (cmd addr : Nat)

theorem keeps_commandEnded : Keeps (kfReq t side) (kfReq (endCycle (commandEnded t side cmd addr)) side) := by
  have hhit : kfReq (hitSaved t cmd addr) side = kfReq t side := by
    unfold hitSaved
    split
    · cases side <;> rfl
    · rfl
  have hcycle : kfReq (endCycle (commandEnded t side cmd addr)) side = kfReq (commandEnded t side cmd addr) side := by rw [kfReq, kfReq, endCycle_kf]
  rw [hcycle, ← hhit]
  have hdone := keeps_kfSet (hitSaved t cmd addr) side (n := kfDone) (by decide)
  have hidle := keeps_updKfReq (kfSet (hitSaved t cmd addr) side kfDone) side (f := fun r => { r with running := none }) (fun _ => rfl) (fun _ => rfl)
  exact (hdone.trans hidle).trans (keeps_kfSettle _ side)

theorem done_commandEnded : (kfReq (endCycle (commandEnded t side cmd addr)) side).flags.getLsbD 3 = true := by
  have hcycle : kfReq (endCycle (commandEnded t side cmd addr)) side = kfReq (commandEnded t side cmd addr) side := by rw [kfReq, kfReq, endCycle_kf]
  rw [hcycle]
  refine (keeps_kfSettle _ side).2 3 ?_
  rw [kfReq_updKfReq]
  exact flag_kfSet _ side (by decide)

theorem mem_commandEnded : (endCycle (commandEnded t side cmd addr)).kf.mem = t.kf.mem := by
  rw [endCycle_kf, commandEnded, kfMem_of_rest (rest_kfSettle (L := but .kfMem) rfl _) rfl, mem_updKfReq, kfMem_of_rest (rest_kfSet (L := but .kfMem) rfl ..) rfl]
  unfold hitSaved
  split <;> rfl

theorem unverified_commandEnded : (endCycle (commandEnded t side cmd addr)).kf.unverified = t.kf.unverified := by
  rw [endCycle_kf, commandEnded, unverified_kfSettle, unverified_updKfReq, unverified_kfSet]
  unfold hitSaved
  split <;> rfl

end CommandEnded

/-- The command that runs in a bank ends. -/
theorem exec_kfCommandDone {s : State} (hporst : s.kf.porst = false) {side : Bool} {cmd addr : Nat} (hrun : (kfReq s side).running = some (cmd, addr))
    (halone : side = true → runsIn s.kf.core (inBank1 addr) = false) (measured : Nat) (agreed : Bool) :
    exec (.kfCommandDone (inBank1 addr) measured agreed) s = .next (endCycle (commandEnded (effect s side cmd addr measured agreed) side cmd addr)) := by
  have hours : runsIn (kfReq s side) (inBank1 addr) = true := by simp [runsIn, hrun]
  have hend : kfEnd s side measured agreed = commandEnded (effect s side cmd addr measured agreed) side cmd addr := by
    simp only [kfEnd, hrun]
    rfl
  rw [exec_of_kfLive hporst (fun t => endCycle (if runsIn t.kf.core (inBank1 addr) then kfEnd t false measured agreed
    else if runsIn t.kf.side (inBank1 addr) then kfEnd t true measured agreed else t)) rfl, ← hend]
  cases side with
  | false => exact congrArg (fun t => Host.Outcome.next (endCycle t)) (if_pos hours)
  | true => exact congrArg (fun t => Host.Outcome.next (endCycle t)) ((if_neg (by simp [halone rfl])).trans (if_pos hours))

/-! ## The bytes of a PROGRAM (R446) -/

theorem programmed_append (addr : Nat) (bs : List Byte) (b : Byte) :
    programmed addr (bs ++ [b]) = programmed addr bs ++ (if b = 0xFF then [] else [(addr + bs.length, b)]) := by
  unfold programmed
  rw [List.length_append, List.length_singleton, List.range_succ, List.zip_append (by simp), List.filterMap_append]
  congr 1
  by_cases h : b = 0xFF
  · rw [if_pos h, h]
    rfl
  · rw [if_neg h]
    exact List.filterMap_cons_some (if_neg (by simpa using h))

/-- What a byte reads once data is programmed over a flash. -/
def laid (m : List Host.Cell) (addr : Nat) (bs : List Byte) (a : Nat) : Byte :=
  if addr ≤ a ∧ a < addr + bs.length ∧ bs.getD (a - addr) 0xFF ≠ 0xFF then bs.getD (a - addr) 0xFF else memRead m a

theorem laid_append (m : List Host.Cell) (addr : Nat) (bs : List Byte) (b : Byte) (a : Nat) :
    laid m addr (bs ++ [b]) a = if a = addr + bs.length ∧ b ≠ 0xFF then b else laid m addr bs a := by
  unfold laid
  rw [List.length_append, List.length_singleton]
  by_cases hlast : a = addr + bs.length
  · have hb : (bs ++ [b]).getD (a - addr) 0xFF = b := by simp [hlast]
    have hout : ¬ (addr ≤ a ∧ a < addr + bs.length ∧ bs.getD (a - addr) 0xFF ≠ 0xFF) := by omega
    rw [hb, if_neg hout]
    by_cases hblank : b = 0xFF <;> simp [hlast, hblank]
  · rw [if_neg (c := a = addr + bs.length ∧ b ≠ 0xFF) (fun h => hlast h.1)]
    by_cases hin : addr ≤ a ∧ a < addr + bs.length
    · rw [List.getD_append _ _ _ _ (by omega)]
      simp [hin, Nat.lt_succ_of_lt hin.2, ← Nat.add_assoc]
    · rw [if_neg (by omega), if_neg (by omega)]

/-- What is programmed stands where the data is not 0xFF, in a flash that stays canonical. -/
theorem memRead_programmed {m : List Host.Cell} (hm : memWf m = true) (addr : Nat) (bs : List Byte) :
    memWf ((programmed addr bs).foldl (fun m x => memWrite m x.1 x.2) m) = true ∧
    ∀ a, memRead ((programmed addr bs).foldl (fun m x => memWrite m x.1 x.2) m) a = laid m addr bs a := by
  induction bs using List.reverseRecOn with
  | nil => exact ⟨hm, fun a => (if_neg (by simp)).symm⟩
  | append_singleton bs b ih =>
    obtain ⟨hwf, hread⟩ := ih
    rw [programmed_append, List.foldl_append]
    by_cases hblank : b = 0xFF
    · rw [if_pos hblank]
      refine ⟨hwf, fun a => ?_⟩
      rw [List.foldl_nil, hread, laid_append, if_neg (fun h => h.2 hblank)]
    · rw [if_neg hblank]
      refine ⟨memWf_memWrite hwf, fun a => ?_⟩
      rw [List.foldl_cons, List.foldl_nil, memRead_memWrite hwf, hread, laid_append]
      by_cases ha : a = addr + bs.length
      · rw [if_pos ha, if_pos ⟨ha, hblank⟩]
      · rw [if_neg ha, if_neg (fun h => ha h.1)]

theorem length_bufferBytes (data : List (Nat × Word)) : (bufferBytes data).length = 256 := by
  simp [bufferBytes, List.length_flatMap]

/-! ## Each command's effect -/

section Effects

variable (s : State) (side : Bool) (addr measured : Nat)

theorem mem_effect_program : (effect s side 1 addr measured true).kf.mem =
    (programmed addr (bufferBytes (kfReq s side).buffer)).foldl (fun m x => memWrite m x.1 x.2) s.kf.mem := by
  rw [effect, endProgram, if_pos rfl, mem_updKfReq]
  rfl

theorem kfReq_kfSlotBad (t : State) (who : Bool) : kfReq (kfSlotBad t who addr) side = kfReq t side := by
  have hboot (f : BootRec → BootRec) : kfReq (putBoot t f) side = kfReq t side := by simp only [kfReq, putBoot, updKf_kf]
  unfold kfSlotBad
  repeat' split
  all_goals simp [hboot]

/-- A PROGRAM that did not agree failed its verification, after 8 pulses. -/
theorem effect_program_failed : (kfReq (effect s side 1 addr measured false) side).flags.getLsbD 10 = true ∧
    (kfReq (effect s side 1 addr measured false) side).pulses = 8 := by
  rw [effect, endProgram, if_neg (by decide), kfReq_kfSlotBad, kfReq_updKfReq]
  exact ⟨flag_kfSet _ side (by decide), rfl⟩

theorem effect_erase (agreed : Bool) : addr ∈ (effect s side 2 addr measured agreed).kf.unverified ∧
    (effect s side 2 addr measured agreed).kf.mem = memErase s.kf.mem addr sectorSize := by
  refine ⟨?_, rfl⟩
  change addr ∈ if s.kf.unverified.contains addr then s.kf.unverified else s.kf.unverified ++ [addr]
  split
  · next h => simpa using h
  · simp

/-- A sector found good by a margin read. -/
def sectorVerified (t : State) : State :=
  updKf t (fun k => { k with unverified := k.unverified.filter (fun x => x != addr), marginFails := k.marginFails.filter (fun x => x.1 != addr) })

theorem kfReq_sectorVerified (t : State) : kfReq (sectorVerified addr t) side = kfReq t side := by cases side <;> rfl

/-- A MARGIN_READ without weak bits verifies its sector. -/
theorem effect_marginRead (agreed : Bool) (hzero : zeroBits (memBytes s.kf.mem addr sectorSize) = 0) :
    (kfReq (effect s side 3 addr 0 agreed) side).weak = 0 ∧ addr ∉ (effect s side 3 addr 0 agreed).kf.unverified ∧
      (effect s side 3 addr 0 agreed).kf.mem = s.kf.mem := by
  have hverified : effect s side 3 addr 0 agreed = sectorVerified addr (updKfReq s side (fun r => { r with weak := 0 })) := by
    rw [effect, endMarginRead, hzero]
    rfl
  rw [hverified, kfReq_sectorVerified, kfReq_updKfReq]
  exact ⟨rfl, by simp [sectorVerified], by rw [sectorVerified, updKf_kf]; exact mem_updKfReq ..⟩

theorem effect_crcSector (agreed : Bool) (hregion : recordRegion addr = false) :
    (kfReq (effect s side 5 addr measured agreed) side).crc = crc32c (memBytes s.kf.mem addr sectorSize) ∧
      (effect s side 5 addr measured agreed).kf.mem = s.kf.mem := by
  rw [effect, endCrc, if_neg (by simp [hregion]), kfReq_updKfReq]
  · exact ⟨rfl, mem_updKfReq ..⟩
  all_goals decide

end Effects

/-- Settles O52: DONE and the results outlive what begins after the command, and each command's effect is its own lemma. -/
theorem flashCommandsEnd : Obligations.FlashCommandsEnd := by
  unfold Obligations.FlashCommandsEnd
  intro s side cmd addr measured agreed hporst hwf hrun halone bs
  obtain ⟨hresults, hflags⟩ := keeps_commandEnded (effect s side cmd addr measured agreed) side cmd addr
  simp only [results, Prod.mk.injEq] at hresults
  obtain ⟨hweak, hpulses, hcrc⟩ := hresults
  have hmem := mem_commandEnded (effect s side cmd addr measured agreed) side cmd addr
  refine ⟨_, exec_kfCommandDone hporst hrun halone measured agreed, done_commandEnded .., ?program, ?failed, ?erase, ?margin, ?crc⟩
  case program =>
    rintro rfl rfl a
    rw [hmem, mem_effect_program, (memRead_programmed hwf addr bs).2, laid, length_bufferBytes]
  case failed =>
    rintro rfl rfl
    obtain ⟨hflag, height⟩ := effect_program_failed s side addr measured
    exact ⟨hflags 10 hflag, hpulses.trans height⟩
  case erase =>
    rintro rfl
    obtain ⟨hsector, hclean⟩ := effect_erase s side addr measured agreed
    refine ⟨by rwa [unverified_commandEnded], fun a => ?_⟩
    rw [hmem, hclean, memRead_memErase]
    rfl
  case margin =>
    rintro rfl rfl hzero
    obtain ⟨hnone, hverified, hleft⟩ := effect_marginRead s side addr agreed hzero
    exact ⟨hweak.trans hnone, by rwa [unverified_commandEnded], hmem.trans hleft⟩
  case crc =>
    rintro rfl hregion
    obtain ⟨hsum, hleft⟩ := effect_crcSector s side addr measured agreed hregion
    exact ⟨hcrc.trans hsum, hmem.trans hleft⟩

end Sys2Proof.Proofs
end

section
/-! PROOFS. Recovery mode asked for, entered and left (R450, R451). -/
namespace Sys2Proof.Proofs
open Sys2Proof Sys2Proof.Machine Sys2Proof.Laws

/-! ## No command and no request, through a boot -/

/-- No command stands in a context and no recovery is requested. -/
def Fresh (s : State) : Prop := s.ctxs = [] ∧ s.kf.recRequest = false

/-- All parts but those that hold contexts and the keeper's registers. -/
def aside : List Part := everything.filter (fun p => p != .ctxs && p != .kf)

theorem fresh_of_rest {s t : State} (h : rest aside t = rest aside s) : Fresh t ↔ Fresh s := by
  rw [Fresh, Fresh, ctxs_of_rest h rfl, kf_of_rest h rfl]

theorem fresh_updKf {s : State} {f : Kf → Kf} (hf : ∀ k, (f k).recRequest = k.recRequest) : Fresh (updKf s f) ↔ Fresh s := by
  rw [Fresh, Fresh, updKf_kf, hf]
  rfl

theorem fresh_foldl {α : Type} {f : State → α → State} (hf : ∀ t a, Fresh t → Fresh (f t a)) (l : List α) {s : State} (h : Fresh s) : Fresh (l.foldl f s) := by
  induction l generalizing s with
  | nil => exact h
  | cons a l ih => exact ih (hf s a h)

@[simp] theorem fresh_ite {c : Prop} [Decidable c] (s t : State) : Fresh (if c then s else t) ↔ if c then Fresh s else Fresh t := by
  split <;> exact Iff.rfl

@[simp] theorem fresh_updCad (s : State) (f : Cad → Cad) : Fresh (updCad s f) ↔ Fresh s := Iff.rfl
@[simp] theorem fresh_updPower (s : State) (f : Power → Power) : Fresh (updPower s f) ↔ Fresh s := Iff.rfl
@[simp] theorem fresh_updTwin (s : State) (f : Twin → Twin) : Fresh (updTwin s f) ↔ Fresh s := Iff.rfl
@[simp] theorem fresh_updPort (s : State) (p : Port) (f : PortSt → PortSt) : Fresh (updPort s p f) ↔ Fresh s := by cases p <;> exact Iff.rfl
@[simp] theorem fresh_updBay (s : State) (b : Nat) (f : Bay → Bay) : Fresh (updBay s b f) ↔ Fresh s := Iff.rfl
@[simp] theorem fresh_updJrnl (s : State) (f : Jrnl → Jrnl) : Fresh (updJrnl s f) ↔ Fresh s := Iff.rfl
@[simp] theorem fresh_updEng (s : State) (f : MapEng → MapEng) : Fresh (updEng s f) ↔ Fresh s := Iff.rfl
@[simp] theorem fresh_raiseEvent (s : State) (kind code p0 p1 : Nat) (only : Option Port) : Fresh (raiseEvent s kind code p0 p1 only) ↔ Fresh s := Iff.rfl
@[simp] theorem fresh_setFlags (s : State) (fs : List (Nat × Bool)) : Fresh (setFlags s fs) ↔ Fresh s := Iff.rfl
@[simp] theorem fresh_startTime (s : State) : Fresh (startTime s) ↔ Fresh s := fresh_of_rest (rest_startTime rfl ..)
@[simp] theorem fresh_armLock (s : State) : Fresh (armLock s) ↔ Fresh s := fresh_of_rest (rest_armLock rfl ..)
@[simp] theorem fresh_settleEnable (s : State) (p : Port) : Fresh (settleEnable s p) ↔ Fresh s := fresh_of_rest (rest_settleEnable rfl ..)
@[simp] theorem fresh_slotEvents (s : State) (l : List Nat) (code reason : Nat) : Fresh (slotEvents s l code reason) ↔ Fresh s := fresh_of_rest (rest_slotEvents rfl ..)
@[simp] theorem fresh_sendFrame (s : State) (f : Frame) : Fresh (sendFrame s f) ↔ Fresh s := fresh_of_rest (rest_sendFrame rfl ..)
@[simp] theorem fresh_mirrorFrame (s : State) (f : Frame) : Fresh (mirrorFrame s f) ↔ Fresh s := fresh_of_rest (rest_mirrorFrame rfl ..)
@[simp] theorem fresh_saveHoldup (s : State) (skip : List Nat) : Fresh (saveHoldup s skip).1 ↔ Fresh s := fresh_of_rest (rest_saveHoldup rfl ..)
@[simp] theorem fresh_endCycle (s : State) : Fresh (endCycle s) ↔ Fresh s := fresh_of_rest (rest_endCycle rfl ..)

@[simp] theorem fresh_putBoot (s : State) (f : BootRec → BootRec) : Fresh (putBoot s f) ↔ Fresh s := fresh_updKf fun _ => rfl

@[simp] theorem fresh_recordFailing (s : State) (slot : Nat) (r : Reject) : Fresh (recordFailing s slot r) ↔ Fresh s := by simp [recordFailing]

@[simp] theorem fresh_returnCommit (s : State) (slot : Nat) (r : Reject) : Fresh (returnCommit s slot r) ↔ Fresh s := by simp [returnCommit]

@[simp] theorem fresh_resolveBoot (s : State) : Fresh (resolveBoot s) ↔ Fresh s := by simp [resolveBoot]

@[simp] theorem fresh_enterRecovery (s : State) (cause : Nat) : Fresh (enterRecovery s cause) ↔ Fresh s := fresh_updKf fun _ => rfl

theorem fresh_trySlot {s : State} (h : Fresh s) (env : BootEnv) (keeper cluster : List Byte) (slot : Nat) (active : Bool) :
    Fresh (trySlot s env keeper cluster slot active).1 := by
  unfold trySlot
  repeat' split
  all_goals simp [h]

theorem fresh_chooseSlot {s : State} (h : Fresh s) (env : BootEnv) (c : Nat) (keeper cluster : List Byte) : Fresh (chooseSlot s env c keeper cluster).1 := by
  have hactive := fresh_trySlot h env keeper cluster (activeSlot s.kf.boot c) true
  unfold chooseSlot
  split
  · next ht => simpa only [ht] using hactive
  · next ht => exact fresh_trySlot (by simpa only [ht] using hactive) env keeper cluster _ false

/-! ## A stop, the release of the host -/

theorem fresh_recordStop {s : State} (h : Fresh s) (kind : StopKind) (holdup : Option (Nat × Madr)) : Fresh (recordStop s kind holdup) := by
  have hkeep (r : StopRec) : Fresh (keepStop s r) := by
    unfold keepStop
    simp (disch := (intro; rfl)) only [fresh_updJrnl, fresh_updKf, h]
  unfold recordStop putStop
  dsimp only
  split <;> simp [hkeep]

theorem fresh_beginStop {s : State} (h : Fresh s) (kind : StopKind) (skip : List Nat) (record : Bool) : Fresh (beginStop s kind skip record) := by
  have hsaved := fresh_recordStop ((fresh_saveHoldup s skip).mpr h) kind (saveHoldup s skip).2
  simp [beginStop, h, hsaved]

/-- With no command in a context a failure refuses none. -/
theorem fresh_failPart {s : State} (h : Fresh s) (keeperFailed : Bool) : Fresh (failPart s keeperFailed) := by
  unfold failPart
  rw [h.1]
  split
  · exact h
  · exact fresh_beginStop (by simp [h]) _ _ _

theorem fresh_startBay (s : State) (n : Nat) : Fresh (startBay s n) ↔ Fresh s := by
  have hadopt (b : Bay) : Fresh (adopt s b).1 ↔ Fresh s := by
    unfold adopt
    split
    · exact Iff.rfl
    · exact fresh_updKf fun _ => rfl
  unfold startBay
  split
  · exact Iff.rfl
  · simp [hadopt]

theorem fresh_startSteps {s : State} (h : Fresh s) : Fresh (startSteps s) := by
  have hbays := fresh_foldl (fun t n => (fresh_startBay t n).mpr) (List.range 16) h
  have htaken (t : State) : Fresh (settleTaken t) ↔ Fresh t := fresh_of_rest (rest_settleTaken rfl ..)
  have htier (t : State) : Fresh (sizeTier t) ↔ Fresh t := fresh_of_rest (rest_sizeTier rfl ..)
  have hmap (t : State) (i : MapImg) : Fresh { t with map := i } ↔ Fresh t := Iff.rfl
  unfold startSteps
  simp (disch := (intro; rfl)) only [fresh_updKf, htier, fresh_updEng, htaken, hmap, hbays]

theorem fresh_releaseHost {s : State} (h : Fresh s) : Fresh (releaseHost s) := by
  have harmed : Fresh (armLock (updKf s (fun k => { k with released := true, restartStep := 1 }))) :=
    (fresh_armLock _).mpr ((fresh_updKf fun _ => rfl).mpr h)
  simp [releaseHost, harmed, fresh_startSteps harmed]

/-! ## The boot chain (R455) -/

@[simp] theorem fresh_readCalibration (s : State) : Fresh (readCalibration s) ↔ Fresh s := by
  have hread : Fresh (updKf s (fun k =>
      let k := readOverlay k
      let f := ((calAt 0x4643414C k.mem factoryRow).map (·.2)).getD []
      { k with factory := f, effective := f.map (effectiveItem k.img.calibLimits k.overlay) })) ↔ Fresh s := fresh_updKf fun _ => rfl
  unfold readCalibration
  simp [hread]

@[simp] theorem fresh_restoreFeatures (s : State) : Fresh (restoreFeatures s) ↔ Fresh s := by
  have hdropped : Fresh (dropDamaged s) ↔ Fresh s := by
    unfold dropDamaged
    split <;> exact Iff.rfl
  have hgrids (t : State) : Fresh (freshGrids t) ↔ Fresh t := fresh_of_rest (rest_freshGrids rfl ..)
  have hjournal (t : State) (n : Nat) : Fresh (applyJournalInterval t n) ↔ Fresh t := fresh_of_rest (rest_applyJournalInterval rfl ..)
  have hpatrol (t : State) (n : Nat) : Fresh (applyPatrolCycle t n) ↔ Fresh t := fresh_of_rest (rest_applyPatrolCycle rfl ..)
  have htimers (t : State) (m n : Nat) : Fresh (applyTimers t m n) ↔ Fresh t := fresh_of_rest (rest_applyTimers rfl ..)
  have hfeat (t : State) (f : Feat) : Fresh { t with feat := f } ↔ Fresh t := Iff.rfl
  unfold restoreFeatures
  simp only [fresh_updPort, hgrids, hjournal, hpatrol, fresh_updCad, hfeat, htimers]
  exact (fresh_updKf fun _ => rfl).trans hdropped

theorem fresh_applyImage (s : State) (env : BootEnv) (k c i : Nat) : Fresh (applyImage s env k c i) ↔ Fresh s := by
  have hfused (bs : List Byte) : Fresh (fuseOwner s bs) ↔ Fresh s := by
    unfold fuseOwner
    split
    · exact fresh_updKf fun _ => rfl
    · exact Iff.rfl
  exact (fresh_updKf fun _ => rfl).trans (hfused _)

theorem fresh_bootWithoutImage {s : State} (h : Fresh s) (env : BootEnv) (k c : Nat) : Fresh (bootWithoutImage s env k c) := by
  unfold bootWithoutImage
  extract_lets bytes t u
  have ht : Fresh t := (fresh_updKf fun _ => rfl).mpr h
  have hu : Fresh u := fresh_failPart (by simp [ht]) false
  simp only [fresh_settleEnable, fresh_armLock]
  exact (fresh_updKf fun _ => rfl).mpr hu

theorem fresh_bootFrom {s : State} (h : Fresh s) (env : BootEnv) (k : Nat) : Fresh (bootFrom s env k) := by
  have hcluster := fresh_chooseSlot h env 1 (slotImage s.kf.mem k) []
  unfold bootFrom
  dsimp only
  split
  · next ht => exact fresh_failPart (by simpa only [ht] using hcluster) false
  · next t c ht =>
    have hchosen : Fresh t := by simpa only [ht] using hcluster
    have himage := fresh_chooseSlot hchosen env 2 (slotImage s.kf.mem k) (slotImage t.kf.mem c)
    split
    · exact fresh_failPart hchosen false
    · split
      · next hu => exact fresh_bootWithoutImage (by simpa only [hu] using himage) env k c
      · next u i hu =>
        have happlied : Fresh (restoreFeatures (readCalibration (applyImage u env k c i))) := by
          rw [fresh_restoreFeatures, fresh_readCalibration, fresh_applyImage]
          simpa only [hu] using himage
        split
        · exact fresh_failPart happlied false
        · exact fresh_releaseHost happlied

theorem fresh_bootUp {s : State} (h : Fresh s) (env : BootEnv) : Fresh (bootUp s env) := by
  have hs : Fresh (sampled s env) := (fresh_updTwin _ _).mpr ((fresh_updKf fun _ => rfl).mpr h)
  have hstage : Fresh (keeperStage s env) := by
    unfold keeperStage
    dsimp only
    split <;> simp [hs]
  have hkeeper := fresh_chooseSlot hstage env 0 [] []
  unfold bootUp
  change Fresh (if !env.lockstepOk then failPart (sampled s env) true
    else if (sampled s env).kf.recRequest then enterRecovery (sampled s env) 1
    else match chooseSlot (keeperStage s env) env 0 [] [] with
      | (_, none) => enterRecovery { keeperStage s env with cond := (sampled s env).cond } 2
      | (t, some k) => bootFrom t env k)
  split
  · exact fresh_failPart hs true
  · split
    · simp [hs]
    · split
      · exact (fresh_enterRecovery _ _).mpr hstage
      · next t k ht => exact fresh_bootFrom (by simpa only [ht] using hkeeper) env k

theorem fresh_bootOrHold {s : State} (h : Fresh s) (env : BootEnv) : Fresh (bootOrHold s env) := by
  unfold bootOrHold
  dsimp only
  split
  · simp (disch := (intro; rfl)) only [fresh_updTwin, fresh_updKf, h]
  · refine fresh_bootUp ?_ env
    simp (disch := (intro; rfl)) only [fresh_updKf, h]

/-- A reset leaves no command, and the request as it was. -/
theorem fresh_internalReset {s : State} (h : s.kf.recRequest = false) (kind : Nat) : Fresh (internalReset s kind) := by
  have hkf : (beginLogs s kind).kf = s.kf := kf_of_rest (rest_beginLogs (L := but .kf) rfl s kind) rfl
  exact ⟨rfl, (congrArg Kf.recRequest hkf).trans h⟩

theorem fresh_reboot {s : State} (h : s.kf.recRequest = false) (kind : Nat) : Fresh (reboot s kind) :=
  fresh_bootOrHold (s := keepAlwaysOn s (internalReset s kind)) (fresh_internalReset h kind) (envNow s)

/-! ## The pin of a restarted part -/

theorem straps_bootOrHold (s : State) (env : BootEnv) (hok : env.lockstepOk = true) :
    straps (bootOrHold s env) = (false, env.boardId, env.sbAddr) := by
  unfold bootOrHold
  dsimp only
  split
  · rfl
  · exact straps_bootUp hok

theorem porst_reboot (s : State) (kind : Nat) : (reboot s kind).kf.porst = false :=
  congrArg Prod.fst (straps_bootOrHold (keepAlwaysOn s (internalReset s kind)) (envNow s) rfl)

/-! ## The register RECOVERY (R450) -/

section Register

variable {s : State} {v : Word}

/-- The state with the REQUEST bit as written. -/
def requested (s : State) (req : Bool) : State := updKf s (fun k => { k with recRequest := req })

theorem writeRecovery_of_request (hreq : v.getLsbD 0 = true) :
    writeRecovery s v = if failedSet s && !s.kf.recMode then recoverNow (requested s true) else requested s true := by
  unfold writeRecovery
  rw [hreq, if_pos rfl]
  rfl

theorem writeRecovery_of_exit (hreq : v.getLsbD 0 = false) (hexit : v.getLsbD 1 = true) :
    writeRecovery s v = if s.kf.recMode then reboot (requested s false) (stopInterruption (requested s false)) else requested s false := by
  unfold writeRecovery
  rw [hreq, hexit, if_neg Bool.false_ne_true, Bool.true_and]
  rfl

theorem exec_recoveryRequest (hporst : s.kf.porst = false) (v : Word) : exec (.recoveryRequest v) s = .next (endCycle (writeRecovery s v)) :=
  exec_of_kfLive hporst (fun t => endCycle (writeRecovery t v)) rfl

theorem exec_recoveryExit (hporst : s.kf.porst = false) (v : Word) : exec (.recoveryExit v) s = .next (endCycle (writeRecovery s v)) :=
  exec_of_kfLive hporst (fun t => endCycle (writeRecovery t v)) rfl

theorem ready_endCycle (s : State) (p : Port) : (portOf (endCycle s) p).ready = (portOf s p).ready :=
  field_of_unsent (unsent_endCycle s p) PortSt.ready

/-- Recovery mode entered at once: the keeper's registers, ports not ready, ownership gone (R451). -/
theorem recoverNow_kf (s : State) :
    (recoverNow s).kf = { s.kf with recMode := true, recCause := 1, released := false, restartStep := 0 } := by
  have hstop : (endStop s).kf = s.kf := kf_of_rest (rest_endStop (L := but .kf) rfl s) rfl
  change (enterRecovery (endStop s) 1).kf = _
  rw [enterRecovery, updKf_kf, hstop]

theorem recoverNow_ready (s : State) (p : Port) : (portOf (recoverNow s) p).ready = false := by cases p <;> rfl

theorem recoverNow_own (s : State) : (recoverNow s).twin.own = false := rfl

end Register

/-- Settles O53: a write of REQUEST or EXIT by whether FAILED or recovery mode stands; a restart goes through the boot chain with no command and no request. -/
theorem recoveryModeIsEnteredAndLeft : Obligations.RecoveryModeIsEnteredAndLeft := by
  unfold Obligations.RecoveryModeIsEnteredAndLeft
  intro s v hporst
  refine ⟨fun hreq hfailed => ?kept, fun hreq hfailed hmode => ?entered, fun hreq hexit hmode => ?left, fun hreq hexit hmode => ?cleared⟩
  case kept =>
    refine ⟨_, exec_recoveryRequest hporst v, ?_⟩
    rw [endCycle_kf, writeRecovery_of_request hreq, if_neg (by simp [hfailed])]
    rfl
  case entered =>
    have ht : writeRecovery s v = recoverNow (requested s true) := by
      rw [writeRecovery_of_request hreq, if_pos (by simp [hfailed, hmode])]
    have hready (p : Port) : (portOf (endCycle (writeRecovery s v)) p).ready = false := by rw [ready_endCycle, ht, recoverNow_ready]
    have hkf : (endCycle (writeRecovery s v)).kf = { (requested s true).kf with recMode := true, recCause := 1, released := false, restartStep := 0 } := by
      rw [endCycle_kf, ht, recoverNow_kf]
    refine ⟨_, exec_recoveryRequest hporst v, ?_, ?_, ?_, hready .a, hready .b, ?_⟩
    · rw [hkf]; rfl
    · rw [hkf]
    · rw [hkf]
    · rw [twin_of_rest (rest_endCycle (L := but .twin) rfl _) rfl, ht, recoverNow_own]
  case left =>
    have ht : writeRecovery s v = reboot (requested s false) (stopInterruption (requested s false)) := by
      rw [writeRecovery_of_exit hreq hexit, if_pos hmode]
    obtain ⟨hctxs, hrequest⟩ : Fresh (reboot (requested s false) (stopInterruption (requested s false))) := fresh_reboot rfl _
    refine ⟨_, exec_recoveryExit hporst v, ?_, ?_, ?_⟩
    · rw [endCycle_kf, ht, hrequest]
    · rw [endCycle_ctxs, ht, hctxs]
    · rw [endCycle_kf, ht, porst_reboot]
  case cleared =>
    have ht : writeRecovery s v = requested s false := by rw [writeRecovery_of_exit hreq hexit, if_neg (by simp [hmode])]
    refine ⟨_, exec_recoveryExit hporst v, ?_, ?_⟩
    · rw [endCycle_kf, ht]; rfl
    · rw [endCycle_ctxs, ht]; rfl

end Sys2Proof.Proofs
end

section
/-! PROOFS. FW_DOWNLOAD (R458): where a block is stored, what its session becomes, and the refusal of a block whose CRC disagrees. -/
namespace Sys2Proof.Proofs
open Sys2Proof Sys2Proof.Machine Sys2Proof.Laws

/-! ## A keeper command in its context -/

theorem ctxOf_of_keeperIn {s : State} {cid op : Nat} {c : Ctx} (h : keeperIn s cid op = some c) : ctxOf s cid = some c :=
  ctxOf_of_ctxIn (Option.filter_eq_some_iff.mp h).1

theorem not_fetched_of_ctxIn {s : State} {cid op : Nat} {c : Ctx} (h : ctxIn s cid op = some c) : c.stage ≠ .fetched := by
  rcases stage_of_ctxIn h with hst | hst <;> simp [hst]

theorem not_fetched_of_keeperIn {s : State} {cid op : Nat} {c : Ctx} (h : keeperIn s cid op = some c) : c.stage ≠ .fetched :=
  not_fetched_of_ctxIn (Option.filter_eq_some_iff.mp h).1

theorem cid_of_keeperIn {s : State} {cid op : Nat} {c : Ctx} (h : keeperIn s cid op = some c) : c.cid = cid := cid_of_ctxOf (ctxOf_of_keeperIn h)

/-- A keeper command that is refused ends with the status and leaves the keeper. -/
theorem refused_keeper {s : State} {cid op : Nat} {c : Ctx} (h : keeperIn s cid op = some c) (status : Half) (field : Nat) :
    endedStatus (refuseNow s cid status field) cid status ∧ (refuseNow s cid status field).kf = s.kf :=
  ⟨endedStatus_decide { status := status, origin := 5, fieldOffset := field } (ctxOf_of_keeperIn h) (not_fetched_of_keeperIn h),
    kf_of_rest (rest_refuseNow (L := but .kf) rfl ..) rfl⟩

/-- Bytes written over an erased sector of their length. -/
theorem memRead_rewritten {m : List Host.Cell} (hwf : memWf m = true) {a n : Nat} {bs : List Byte} (hlen : bs.length = n) :
    (∀ i < n, memRead (memWriteAll (memErase m a n) a bs) (a + i) = bs.getD i 0) ∧
      ∀ x, (x < a ∨ a + n ≤ x) → memRead (memWriteAll (memErase m a n) a bs) x = memRead m x := by
  subst hlen
  refine ⟨fun i hi => ?_, fun x hx => ?_⟩
  · rw [memRead_memWriteAll (memWf_memErase hwf) i hi, List.getD_eq_getElem _ _ hi]
  · rw [memRead_memWriteAll_outside (memWf_memErase hwf) x hx, memRead_memErase, if_neg (by omega)]

/-! ## A block stored -/

/-- COMPONENT and BLOCK of a download, and the address that its block goes to. -/
def downComp (c : Ctx) : Nat := bits (eCdw c.dw 0) 1 0
def downBlock (c : Ctx) : Nat := bits (eCdw c.dw 1) 7 0
def downBase (s : State) (c : Ctx) : Nat := slotBase (otherSlot s.kf.boot (downComp c)) + 65536 * downBlock c

/-- The slot of a download empty again, as its first block makes it. -/
def slotEmptied (s : State) (slot : Nat) : State := putBoot s (fun r => updSlot r slot (fun x => { x with st := 0, reason := 0, section_ := 0 }))

theorem memWf_slotEmptied {s : State} (hwf : memWf s.kf.mem = true) (slot : Nat) : memWf (slotEmptied s slot).kf.mem = true := by
  simp only [slotEmptied, putBoot, updKf_kf]
  exact memWf_writeBoot hwf

/-- A block in its sector of the flash and in its session. -/
def blockKept (a : Nat) (c : Ctx) (bs : List Byte) (k : Kf) : Kf :=
  { k with
    mem := memWriteAll (memErase k.mem a sectorSize) a bs
    unverified := k.unverified.filter (fun x => x != a / sectorSize)
    sessions := putSession k.sessions (downComp c) c.port (downBlock c) }

section Stored

variable {s : State} {c : Ctx} {bs : List Byte}

theorem storeBlock_slot (hcomp : downComp c < 3) :
    storeBlock s c bs = updKf (if downBlock c = 0 then slotEmptied s (otherSlot s.kf.boot (downComp c)) else s) (blockKept (downBase s c) c bs) := by
  have hslot : ¬(downComp c == 3) = true := by simp; omega
  have hstore : storeBlock s c bs =
      updKf (if downBlock c == 0 then slotEmptied s (otherSlot s.kf.boot (downComp c)) else s) (blockKept (downBase s c) c bs) := if_neg hslot
  simpa only [beq_iff_eq] using hstore

theorem storeBlock_mem (hcomp : downComp c < 3) (hwf : memWf s.kf.mem = true) (hlen : bs.length = 65536) :
    (∀ i < 65536, memRead (storeBlock s c bs).kf.mem (downBase s c + i) = bs.getD i 0) ∧
      (downBlock c ≠ 0 → ∀ a, (a < downBase s c ∨ downBase s c + 65536 ≤ a) → memRead (storeBlock s c bs).kf.mem a = memRead s.kf.mem a) := by
  rw [storeBlock_slot hcomp]
  split
  · next hfirst =>
    have hwritten := memRead_rewritten (memWf_slotEmptied hwf (otherSlot s.kf.boot (downComp c))) (a := downBase s c) hlen
    exact ⟨hwritten.1, fun h => absurd hfirst h⟩
  · have hwritten := memRead_rewritten hwf (a := downBase s c) hlen
    exact ⟨hwritten.1, fun _ => hwritten.2⟩

theorem storeBlock_session (hcomp : downComp c < 3) (hfirst : downBlock c = 0) :
    ∃ x ∈ (storeBlock s c bs).kf.sessions, x.component = downComp c ∧ x.port = c.port ∧ x.blocks = [0] := by
  have hsessions : (storeBlock s c bs).kf.sessions = putSession (slotEmptied s (otherSlot s.kf.boot (downComp c))).kf.sessions (downComp c) c.port (downBlock c) := by
    rw [storeBlock_slot hcomp, if_pos hfirst]
    rfl
  refine ⟨{ component := downComp c, port := c.port, blocks := [0] }, ?_, rfl, rfl, rfl⟩
  rw [hsessions, putSession, if_pos (by simp [hfirst])]
  simp

/-- A calibration overlay opens no session and leaves the boot record and the effective items. -/
theorem storeBlock_overlay (hcomp : downComp c = 3) :
    (storeBlock s c bs).kf.sessions = s.kf.sessions ∧ (storeBlock s c bs).kf.boot = s.kf.boot ∧ (storeBlock s c bs).kf.effective = s.kf.effective := by
  have hstore : storeBlock s c bs = updKf s (fun k => readOverlay { k with mem := appendOverlay k.mem (trimBlank bs) }) :=
    if_pos (beq_iff_eq.mpr hcomp)
  rw [hstore]
  exact ⟨rfl, rfl, rfl⟩

theorem storeBlock_ctxs (s : State) (c : Ctx) (bs : List Byte) : (storeBlock s c bs).ctxs = s.ctxs :=
  ctxs_of_rest (rest_storeBlock (L := but .ctxs) rfl s c bs) rfl

end Stored

/-! ## The command -/

section Command

variable {s : State} {cid : Nat} {c : Ctx} {bs : List Byte} (hin : keeperIn s cid 0x88 = some c) (hready : keeperHalted s = false)
  (hlen : bs.length = 65536) (hfits : fetchFits c.dw (.bytes bs) = true)
include hin hready hlen hfits

theorem exec_fwDownload : exec (.fwDownload cid (.bytes bs)) s =
    .next (((downloadRefusal s c bs).map (refuseNow s cid 0x1002)).getD (perform (storeBlock s c bs) cid 0 0)) := by
  have hwhole : fetchOutcome c.dw 65536 (.bytes bs) = .inl bs := if_pos (beq_iff_eq.mpr hlen)
  have hexec : exec (.fwDownload cid (.bytes bs)) s = execFwDownload cid (.bytes bs) s := rfl
  rw [hexec]
  simp only [execFwDownload, hin, hready, hfits, hwhole, Bool.false_eq_true, Bool.not_true, ↓reduceIte]
  cases downloadRefusal s c bs with
  | none => rfl
  | some off => rfl

theorem fwDownload_kept (hok : downloadRefusal s c bs = none) :
    ∃ t, exec (.fwDownload cid (.bytes bs)) s = .next t ∧ endedWith t cid 0 0 ∧ t.kf = (storeBlock s c bs).kf :=
  ⟨perform (storeBlock s c bs) cid 0 0, by rw [exec_fwDownload hin hready hlen hfits, hok]; rfl,
    endedWith_perform ((ctxOf_congr (storeBlock_ctxs s c bs) cid).trans (ctxOf_of_keeperIn hin)) 0 0, rfl⟩

theorem fwDownload_refused {off : Nat} (hbad : downloadRefusal s c bs = some off) :
    ∃ t, exec (.fwDownload cid (.bytes bs)) s = .next t ∧ endedStatus t cid 0x1002 ∧ t.kf = s.kf :=
  ⟨refuseNow s cid 0x1002 off, by rw [exec_fwDownload hin hready hlen hfits, hbad]; rfl, refused_keeper hin _ _⟩

end Command

/-- In a session of its port only the CRC of a block can be wrong. -/
theorem downloadRefusal_of_crc {s : State} {c : Ctx} {bs : List Byte} (hpend : compBit s.kf.boot.pend (downComp c) = false)
    (htrial : compBit s.kf.boot.trial (downComp c) = false)
    (hport : ∀ x, s.kf.sessions.find? (fun x => x.component == downComp c) = some x → x.port = c.port)
    (hopen : downBlock c = 0 ∨ (s.kf.sessions.find? (fun x => x.component == downComp c)).isSome = true)
    (hcrc : (crc32c bs).toNat ≠ eCdw c.dw 2) : downloadRefusal s c bs = some 0x38 := by
  change (if downComp c < 3 && (compBit s.kf.boot.pend (downComp c) || compBit s.kf.boot.trial (downComp c)) then some 0x30
    else if downComp c < 3 && (s.kf.sessions.find? (fun x => x.component == downComp c)).any (fun x => x.port != c.port) then some 0x30
    else if downComp c < 3 && downBlock c != 0 && (s.kf.sessions.find? (fun x => x.component == downComp c)).isNone then some 0x34
    else if (crc32c bs).toNat != eCdw c.dw 2 then some 0x38
    else none) = _
  rw [if_neg (by simp [hpend, htrial]), if_neg (by simpa [Option.any_eq_false] using fun _ => hport), if_neg, if_pos (by simpa using hcrc)]
  rcases hopen with hfirst | hsession
  · simp [hfirst]
  · simp [Option.isSome_iff_ne_none.mp hsession]

/-- Settles O54: a block by the sector it is stored in and the session it opens, one of wrong CRC by its refusal. -/
theorem firmwareIsDownloaded : Obligations.FirmwareIsDownloaded := by
  unfold Obligations.FirmwareIsDownloaded
  intro s cid c bs hin hready hlen hfits hwf comp block base
  refine ⟨fun hok hcomp _ => ?slot, fun hok hcomp => ?overlay, fun _ hpend htrial hport hopen hcrc => ?crc⟩
  case slot =>
    obtain ⟨t, hexec, hended, hkf⟩ := fwDownload_kept hin hready hlen hfits hok
    obtain ⟨hbytes, hother⟩ := storeBlock_mem hcomp hwf hlen
    rw [← hkf] at hbytes hother
    refine ⟨t, hexec, hended, hbytes, hother, fun hfirst => ?_⟩
    rw [hkf]
    exact storeBlock_session hcomp hfirst
  case overlay =>
    obtain ⟨t, hexec, hended, hkf⟩ := fwDownload_kept hin hready hlen hfits hok
    refine ⟨t, hexec, hended, ?_⟩
    rw [hkf]
    exact storeBlock_overlay hcomp
  case crc => exact fwDownload_refused hin hready hlen hfits (downloadRefusal_of_crc hpend htrial hport hopen hcrc)

end Sys2Proof.Proofs
end

section
/-! PROOFS. FW_COMMIT, FW_CONFIRM and FW_REVERT (R459 to R461): the boot record that each leaves, and the command that ends with it. -/
namespace Sys2Proof.Proofs
open Sys2Proof Sys2Proof.Machine Sys2Proof.Laws

/-! ## Slots of a boot record changed one by one -/

/-- A boot record with the inactive slots of some components changed, and with their active slots changed. -/
def changeOthers (f : BootSlot → BootSlot) (l : List Nat) (b : BootRec) : BootRec := l.foldl (fun b k => updSlot b (otherSlot b k) f) b
def changeActives (f : BootSlot → BootSlot) (l : List Nat) (b : BootRec) : BootRec := l.foldl (fun b k => updSlot b (activeSlot b k) f) b

/-- The changes leave all but the slots. -/
theorem foldl_updSlot_frame {idx : BootRec → Nat → Nat} (f : BootSlot → BootSlot) (l : List Nat) (b : BootRec) :
    ∃ slots, l.foldl (fun b k => updSlot b (idx b k) f) b = { b with slots := slots } := by
  induction l generalizing b with
  | nil => exact ⟨b.slots, rfl⟩
  | cons k l ih =>
    obtain ⟨slots, hslots⟩ := ih (updSlot b (idx b k) f)
    exact ⟨slots, hslots⟩

/-- What every changed slot satisfies a slot keeps once it has been changed. -/
theorem foldl_updSlot_slot {idx : BootRec → Nat → Nat} (hidx : ∀ (b : BootRec) slots k, idx { b with slots := slots } k = idx b k)
    {f : BootSlot → BootSlot} {P : BootSlot → Prop} (hf : ∀ x, P (f x)) (l : List Nat) (b : BootRec) {n : Nat}
    (hn : (∃ k ∈ l, idx b k = n) ∨ ∀ x, b.slots[n]? = some x → P x) :
    ∀ x, (l.foldl (fun b k => updSlot b (idx b k) f) b).slots[n]? = some x → P x := by
  induction l generalizing b with
  | nil => exact hn.resolve_left (by simp)
  | cons k l ih =>
    refine ih (updSlot b (idx b k) f) ?_
    by_cases hlater : ∃ j ∈ l, idx b j = n
    · obtain ⟨j, hj, hat⟩ := hlater
      exact .inl ⟨j, hj, (hidx b _ j).trans hat⟩
    · refine .inr fun x hx => ?_
      simp only [updSlot, List.getElem?_modify] at hx
      split at hx
      · obtain ⟨y, -, rfl⟩ := Option.map_eq_some_iff.mp hx
        exact hf y
      · next hne =>
        refine hn.resolve_left ?_ x (by simpa using hx)
        rintro ⟨j, hj, hat⟩
        rcases List.mem_cons.mp hj with rfl | hj
        · exact hne hat
        · exact hlater ⟨j, hj, hat⟩

theorem changeOthers_frame (f : BootSlot → BootSlot) (l : List Nat) (b : BootRec) : ∃ slots, changeOthers f l b = { b with slots := slots } :=
  foldl_updSlot_frame f l b

theorem changeActives_frame (f : BootSlot → BootSlot) (l : List Nat) (b : BootRec) : ∃ slots, changeActives f l b = { b with slots := slots } :=
  foldl_updSlot_frame f l b

theorem changeOthers_slot {f : BootSlot → BootSlot} {P : BootSlot → Prop} (hf : ∀ x, P (f x)) {l : List Nat} (b : BootRec) {k : Nat} (hk : k ∈ l) :
    ∀ x, (changeOthers f l b).slots[otherSlot b k]? = some x → P x :=
  foldl_updSlot_slot (idx := otherSlot) (fun _ _ _ => rfl) hf l b (.inl ⟨k, hk, rfl⟩)

theorem changeActives_slot {f : BootSlot → BootSlot} {P : BootSlot → Prop} (hf : ∀ x, P (f x)) {l : List Nat} (b : BootRec) {k : Nat} (hk : k ∈ l) :
    ∀ x, (changeActives f l b).slots[activeSlot b k]? = some x → P x :=
  foldl_updSlot_slot (idx := activeSlot) (fun _ _ _ => rfl) hf l b (.inl ⟨k, hk, rfl⟩)

theorem putBoot_ctxs (s : State) (f : BootRec → BootRec) : (putBoot s f).ctxs = s.ctxs := ctxs_of_rest (rest_putBoot (L := but .ctxs) rfl s f) rfl

theorem putBoot_boot (s : State) (f : BootRec → BootRec) : (putBoot s f).kf.boot = { f s.kf.boot with seq := s.kf.boot.seq + 1 } := by
  simp only [putBoot, updKf_kf]

/-! ## Commits accepted (R459) -/

/-- A slot committed. -/
def slotCommitted (aet : Nat) (x : BootSlot) : BootSlot := { x with st := 4, reason := 0, section_ := 0, commitAet := aet }

/-- The keeper's state with the named slots PENDING. -/
def commitRecorded (s : State) (c : Ctx) (quiet : Bool) : State :=
  updKf (putBoot s (fun b => changeOthers (slotCommitted s.cad.aet) (comps (fwComps c)) { b with pend := fwComps c })) (fun k =>
    { k with onShutdown := fwOnShutdown c, pendQuiet := quiet, sessions := k.sessions.filter (fun x => !compBit (fwComps c) x.component) })

/-- The event that each committed slot raises. -/
def commitEvents (s : State) (c : Ctx) (t : State) : State := (comps (fwComps c)).foldl (fun t k => raiseEvent t 7 1 (otherSlot s.kf.boot k) 0) t

/-- What an accepted commit leaves. -/
structure Pends (s t : State) (cid : Nat) (c : Ctx) : Prop where
  ended : endedWith t cid (w32 (fwComps c).toNat) 0
  pend : t.kf.boot.pend = fwComps c
  active : t.kf.boot.active = s.kf.boot.active
  seq : t.kf.boot.seq = s.kf.boot.seq + 1
  onShutdown : t.kf.onShutdown = fwOnShutdown c
  slots : ∀ k ∈ comps (fwComps c), ∀ x, t.kf.boot.slots[otherSlot s.kf.boot k]? = some x → x.st = 4 ∧ x.reason = 0
  sessions : ∀ x ∈ t.kf.sessions, compBit (fwComps c) x.component = false

section Commit

variable {s : State} {cid op : Nat} {c : Ctx} (hin : keeperIn s cid op = some c)

theorem commitSlots_eq (s : State) (c : Ctx) :
    ∃ quiet, commitSlots s c = perform (commitEvents s c (commitRecorded s c quiet)) c.cid (w32 (fwComps c).toNat) 0 := ⟨_, rfl⟩

theorem commitRecorded_ctxs (s : State) (c : Ctx) (quiet : Bool) : (commitRecorded s c quiet).ctxs = s.ctxs := (updKf_ctxs _ _).trans (putBoot_ctxs _ _)

theorem commitEvents_kf (s : State) (c : Ctx) (t : State) : (commitEvents s c t).kf = t.kf :=
  view_foldl (view := State.kf) (f := fun t k => raiseEvent t 7 1 (otherSlot s.kf.boot k) 0) (fun _ _ => rfl) _ _

theorem commitEvents_ctxs (s : State) (c : Ctx) (t : State) : (commitEvents s c t).ctxs = t.ctxs :=
  view_foldl (view := State.ctxs) (f := fun t k => raiseEvent t 7 1 (otherSlot s.kf.boot k) 0) (fun _ _ => rfl) _ _

include hin in
theorem pends_commitSlots : Pends s (endCycle (commitSlots s c)) cid c := by
  obtain ⟨quiet, hcommit⟩ := commitSlots_eq s c
  have hkf : (endCycle (commitSlots s c)).kf = (commitRecorded s c quiet).kf := by
    rw [endCycle_kf, hcommit, kf_of_rest (rest_perform (L := but .kf) rfl ..) rfl, commitEvents_kf]
  have hboot : (endCycle (commitSlots s c)).kf.boot =
      { changeOthers (slotCommitted s.cad.aet) (comps (fwComps c)) { s.kf.boot with pend := fwComps c } with seq := s.kf.boot.seq + 1 } := by
    rw [hkf, commitRecorded, updKf_kf]
    dsimp only
    rw [putBoot_boot]
  obtain ⟨slots, hframe⟩ := changeOthers_frame (slotCommitted s.cad.aet) (comps (fwComps c)) { s.kf.boot with pend := fwComps c }
  constructor
  case ended =>
    refine endedWith_congr (endCycle_ctxs _) ?_
    rw [hcommit, cid_of_keeperIn hin]
    exact endedWith_perform ((ctxOf_congr ((commitEvents_ctxs s c _).trans (commitRecorded_ctxs s c quiet)) cid).trans (ctxOf_of_keeperIn hin)) _ _
  case pend => rw [hboot, hframe]
  case active => rw [hboot, hframe]
  case seq => rw [hboot]
  case onShutdown => rw [hkf, commitRecorded, updKf_kf]
  case slots =>
    rw [hboot]
    exact fun k hk => changeOthers_slot (f := slotCommitted s.cad.aet) (P := fun x => x.st = 4 ∧ x.reason = 0) (fun _ => ⟨rfl, rfl⟩)
      { s.kf.boot with pend := fwComps c } hk
  case sessions =>
    rw [hkf, commitRecorded, updKf_kf]
    intro x hx
    simpa using (List.mem_filter.mp hx).2

end Commit

/-! ## The commands -/

section Commands

variable {s : State} {cid : Nat} {c : Ctx}

theorem fwCommit_accepted (hin : keeperIn s cid 0x89 = some c) (hpend : s.kf.boot.pend = 0) (htrial : s.kf.boot.trial = 0)
    (hopen : ∀ k ∈ comps (fwComps c), ∃ x ∈ s.kf.sessions, x.component = k) (hok : commitReject s (fwComps c) true = none) :
    exec (.fwCommit cid) s = .next (endCycle (commitSlots s c)) := by
  have hsessions : (comps (fwComps c)).any (fun k => s.kf.sessions.all (fun x => x.component != k)) = false := by
    simpa [List.any_eq_false] using hopen
  have hexec : exec (.fwCommit cid) s = execFwCommit cid s := rfl
  rw [hexec]
  simp only [execFwCommit, hin, hok]
  rw [hpend, htrial, hsessions, if_neg (by simp)]
  rfl

theorem fwCommit_while_pending (hin : keeperIn s cid 0x89 = some c) (hpend : s.kf.boot.pend ≠ 0) :
    exec (.fwCommit cid) s = .next (endCycle (refuseNow s cid 0x1002 0x30)) := by
  have hexec : exec (.fwCommit cid) s = execFwCommit cid s := rfl
  rw [hexec]
  simp only [execFwCommit, hin]
  rw [bne_iff_ne.mpr hpend, Bool.true_or, Bool.true_or, if_pos rfl]
  rfl

/-- A slot that a trial ends as the active one. -/
def slotActive (x : BootSlot) : BootSlot := { x with st := 3 }

/-- The trial over and its area erased (R460, R461). -/
def trialEnded (s : State) : State :=
  updKf (putBoot s (fun b => changeActives slotActive (comps b.trial) { b with trial := 0 })) (fun k =>
    { k with mem := memErase k.mem 0x3DD0000 (16 * sectorSize) })

theorem fwConfirm_ends (hin : keeperIn s cid 0x8A = some c) (htrial : s.kf.boot.trial ≠ 0) :
    exec (.fwConfirm cid) s = .next (perform (trialEnded s) cid 0 0) := by
  have hexec : exec (.fwConfirm cid) s = execFwConfirm cid s := rfl
  rw [hexec]
  unfold execFwConfirm
  simp only [hin]
  rw [beq_false_of_ne htrial, if_neg Bool.false_ne_true]
  rfl

theorem trialEnded_boot (s : State) : (trialEnded s).kf.boot =
    { changeActives slotActive (comps s.kf.boot.trial) { s.kf.boot with trial := 0 } with seq := s.kf.boot.seq + 1 } := by
  rw [trialEnded, updKf_kf]
  dsimp only
  rw [putBoot_boot]

theorem trialEnded_ctxs (s : State) : (trialEnded s).ctxs = s.ctxs := (updKf_ctxs _ _).trans (putBoot_ctxs _ _)

theorem trialEnded_erased (s : State) {a : Nat} (hfrom : 0x3DD0000 ≤ a) (hto : a < 0x3ED0000) : memRead (trialEnded s).kf.mem a = 0xFF := by
  rw [trialEnded, updKf_kf]
  dsimp only
  rw [memRead_memErase, if_pos ⟨hfrom, by simpa [sectorSize] using hto⟩]
  rfl

theorem fwRevert_of_trial (hin : keeperIn s cid 0x8B = some c) (htrial : s.kf.boot.trial ≠ 0) (hnamed : fwComps c = s.kf.boot.trial) :
    exec (.fwRevert cid) s = .next (endCycle (perform (updKf s (fun k => { k with onShutdown := fwOnShutdown c })) cid 0 0)) := by
  have hexec : exec (.fwRevert cid) s = execFwRevert cid s := rfl
  rw [hexec]
  simp only [execFwRevert, hin]
  rw [if_pos (bne_iff_ne.mpr htrial), if_neg (by simp [hnamed])]
  rfl

/-- A slot whose pending commit is cancelled. -/
def slotPrevious (x : BootSlot) : BootSlot := { x with st := 1 }

/-- The pending commit cancelled. -/
def commitCancelled (s : State) (c : Ctx) : State :=
  updKf (putBoot s (fun b => changeOthers slotPrevious (comps (fwComps c)) { b with pend := 0 })) (fun k => { k with onShutdown := false, pendQuiet := false })

theorem fwRevert_of_pending (hin : keeperIn s cid 0x8B = some c) (htrial : s.kf.boot.trial = 0) (hpend : s.kf.boot.pend ≠ 0)
    (hnamed : fwComps c = s.kf.boot.pend) : exec (.fwRevert cid) s = .next (endCycle (perform (commitCancelled s c) cid 0 0)) := by
  have hexec : exec (.fwRevert cid) s = execFwRevert cid s := rfl
  rw [hexec]
  unfold execFwRevert
  simp only [hin]
  rw [if_neg (by simp [htrial]), if_pos (bne_iff_ne.mpr hpend), if_neg (by simp [hnamed])]
  rfl

theorem commitCancelled_boot (s : State) (c : Ctx) : (commitCancelled s c).kf.boot =
    { changeOthers slotPrevious (comps (fwComps c)) { s.kf.boot with pend := 0 } with seq := s.kf.boot.seq + 1 } := by
  rw [commitCancelled, updKf_kf]
  dsimp only
  rw [putBoot_boot]

theorem commitCancelled_ctxs (s : State) (c : Ctx) : (commitCancelled s c).ctxs = s.ctxs := (updKf_ctxs _ _).trans (putBoot_ctxs _ _)

theorem fwRevert_commits (hin : keeperIn s cid 0x8B = some c) (htrial : s.kf.boot.trial = 0) (hpend : s.kf.boot.pend = 0)
    (hprevious : ∀ k ∈ comps (fwComps c), (s.kf.boot.slots.getD (otherSlot s.kf.boot k) ⟨0, 0, 0, 0⟩).st = 1)
    (hok : commitReject s (fwComps c) false = none) : exec (.fwRevert cid) s = .next (endCycle (commitSlots s c)) := by
  have hslots : (comps (fwComps c)).any (fun k => (s.kf.boot.slots.getD (otherSlot s.kf.boot k) ⟨0, 0, 0, 0⟩).st != 1) = false :=
    List.any_eq_false.mpr fun k hk => by simpa using hprevious k hk
  have hexec : exec (.fwRevert cid) s = execFwRevert cid s := rfl
  rw [hexec]
  unfold execFwRevert
  simp only [hin, hok]
  rw [if_neg (by simp [htrial]), if_neg (by simp [hpend]), if_neg (by rw [hslots]; nofun)]
  rfl

end Commands

/-- Settles O55: a commit by the record that it leaves, a confirm and a revert by the slots they change. -/
theorem firmwareIsCommittedAndReverted : Obligations.FirmwareIsCommittedAndReverted := by
  unfold Obligations.FirmwareIsCommittedAndReverted
  intro s cid c named b pends
  have hpends {op : Nat} (hin : keeperIn s cid op = some c) : pends (endCycle (commitSlots s c)) := by
    have h := pends_commitSlots hin
    exact ⟨h.ended, h.pend, h.active, h.seq, h.onShutdown, h.slots, h.sessions⟩
  refine ⟨fun hin hpend htrial hopen hok => ⟨_, fwCommit_accepted hin hpend htrial hopen hok, hpends hin⟩, fun hin hpend => ?pending,
    fun hin htrial => ?confirm, fun hin htrial hnamed => ?trial, fun hin htrial hpend hnamed => ?cancel,
    fun hin htrial hpend hprevious hok => ⟨_, fwRevert_commits hin htrial hpend hprevious hok, hpends hin⟩⟩
  case pending =>
    obtain ⟨hended, hkf⟩ := refused_keeper hin 0x1002 0x30
    obtain ⟨d, hd, hstage⟩ := hended
    exact ⟨_, fwCommit_while_pending hin hpend, ⟨d, (ctxOf_congr (endCycle_ctxs _) cid).trans hd, hstage⟩, (endCycle_kf _).trans hkf⟩
  case confirm =>
    obtain ⟨slots, hframe⟩ := changeActives_frame slotActive (comps b.trial) { b with trial := 0 }
    have hboot : (perform (trialEnded s) cid 0 0).kf.boot =
        { changeActives slotActive (comps b.trial) { b with trial := 0 } with seq := b.seq + 1 } := trialEnded_boot s
    refine ⟨_, fwConfirm_ends hin htrial, endedWith_perform ((ctxOf_congr (trialEnded_ctxs s) cid).trans (ctxOf_of_keeperIn hin)) 0 0, ?_, ?_, ?_, ?_,
      fun a hfrom hto => trialEnded_erased s hfrom hto⟩
    · rw [hboot, hframe]
    · rw [hboot, hframe]
    · rw [hboot]
    · rw [hboot]
      exact fun k hk => changeActives_slot (f := slotActive) (P := fun x => x.st = 3) (fun _ => rfl) { b with trial := 0 } hk
  case trial =>
    refine ⟨_, fwRevert_of_trial hin htrial hnamed,
      endedWith_congr (endCycle_ctxs _) (endedWith_perform ((ctxOf_congr (updKf_ctxs _ _) cid).trans (ctxOf_of_keeperIn hin)) 0 0), ?_⟩
    rw [endCycle_kf]
    rfl
  case cancel =>
    obtain ⟨slots, hframe⟩ := changeOthers_frame slotPrevious (comps named) { b with pend := 0 }
    have hkf : (endCycle (perform (commitCancelled s c) cid 0 0)).kf = (commitCancelled s c).kf := endCycle_kf _
    refine ⟨_, fwRevert_of_pending hin htrial hpend hnamed,
      endedWith_congr (endCycle_ctxs _) (endedWith_perform ((ctxOf_congr (commitCancelled_ctxs s c) cid).trans (ctxOf_of_keeperIn hin)) 0 0), ?_⟩
    rw [hkf, commitCancelled_boot]
    refine ⟨?_, ?_, ?_, fun k hk => changeOthers_slot (f := slotPrevious) (P := fun x => x.st = 1) (fun _ => rfl) { b with pend := 0 } hk⟩
    · change (changeOthers slotPrevious (comps named) { b with pend := 0 }).pend = 0
      rw [hframe]
    · change (changeOthers slotPrevious (comps named) { b with pend := 0 }).active = b.active
      rw [hframe]
    · rw [commitCancelled, updKf_kf]

end Sys2Proof.Proofs
end

section
/-! PROOFS. Digest commands that end (R410, R412, R415, R420): what ending leaves of the command, of the digest contexts and of the rest. -/
namespace Sys2Proof.Proofs
open Sys2Proof Sys2Proof.Machine Sys2Proof.Laws

/-! ## A digest command that ended -/

/-- A command with its stream read, and with its slot. -/
def streamed (bs : List Byte) (c : Ctx) : Ctx := { c with stream := bs }
def slotted (n : Nat) (c : Ctx) : Ctx := { c with gotSlot := some n }

/-- A digest context with which a command is no longer busy. -/
def idledBy (cid : Nat) (k : DigCtx) : DigCtx := if k.busy == some cid then { k with busy := none } else k

/-- What an ended command holds no more. -/
def ctxReleased (c : Ctx) : Ctx := { c with gotSlot := none, waitSlot := false, waitFor := [], stream := [] }

@[simp] theorem idledBy_id (cid : Nat) (k : DigCtx) : (idledBy cid k).id = k.id := by unfold idledBy; split <;> rfl
@[simp] theorem idledBy_d (cid : Nat) (k : DigCtx) : (idledBy cid k).d = k.d := by unfold idledBy; split <;> rfl
@[simp] theorem idledBy_slot (cid : Nat) (k : DigCtx) : (idledBy cid k).slot = k.slot := by unfold idledBy; split <;> rfl
@[simp] theorem idledBy_port (cid : Nat) (k : DigCtx) : (idledBy cid k).port = k.port := by unfold idledBy; split <;> rfl
@[simp] theorem idledBy_lastCsn (cid : Nat) (k : DigCtx) : (idledBy cid k).lastCsn = k.lastCsn := by unfold idledBy; split <;> rfl
@[simp] theorem idledBy_ended (cid : Nat) (k : DigCtx) : (idledBy cid k).ended = k.ended := by unfold idledBy; split <;> rfl

theorem digReleased_ctxs (s : State) (cid : Nat) : (digReleased s cid).ctxs = (updCtx s cid ctxReleased).ctxs := rfl

/-- A context that goes on stays, idle. -/
theorem mem_digReleased {s : State} {cid : Nat} {k : DigCtx} (hk : k ∈ s.dig.ctxs) (hopen : k.ended = false) :
    idledBy cid k ∈ (digReleased s cid).dig.ctxs :=
  List.mem_filter.mpr ⟨List.mem_map_of_mem (f := idledBy cid) hk, by simp [hopen]⟩

/-- No context appears. -/
theorem of_mem_digReleased {s : State} {cid : Nat} {x : DigCtx} (hx : x ∈ (digReleased s cid).dig.ctxs) : ∃ k ∈ s.dig.ctxs, idledBy cid k = x :=
  List.mem_map.mp (List.mem_filter.mp hx).1

section Ended

variable {s : State} {cid : Nat} {c : Ctx}

theorem digPerform_out (s : State) (cid : Nat) (r0 r1 : Word) (status : Half := 0) : (digPerform s cid r0 r1 status).out = s.out := by
  simp only [digPerform, digReleased, dropEnded, dropChunks, perform, updDig_out, updCtx_out]

theorem digPerform_wrapNext (s : State) (cid : Nat) (r0 r1 : Word) (status : Half := 0) :
    (digPerform s cid r0 r1 status).dig.wrapNext = s.dig.wrapNext := by
  simp only [digPerform, digReleased, dropEnded, dropChunks, perform, updDig_dig, updCtx_dig]

theorem digPerform_pipes (s : State) (cid : Nat) (r0 r1 : Word) (status : Half := 0) : (digPerform s cid r0 r1 status).dig.pipes = s.dig.pipes := by
  simp only [digPerform, digReleased, dropEnded, dropChunks, perform, updDig_dig, updCtx_dig]

theorem endedStatus_digReleased {status : Half} (h : endedStatus s cid status) : endedStatus (digReleased s cid) cid status := by
  obtain ⟨d, hd, hstage, hstatus⟩ := h
  exact ⟨_, (ctxOf_congr (digReleased_ctxs s cid) cid).trans (ctxOf_updCtx hd fun _ h => h), hstage, hstatus⟩

theorem endedWith_digReleased {r0 r1 : Word} (h : endedWith s cid r0 r1) : endedWith (digReleased s cid) cid r0 r1 := by
  obtain ⟨d, hd, hended⟩ := h
  exact ⟨_, (ctxOf_congr (digReleased_ctxs s cid) cid).trans (ctxOf_updCtx hd fun _ h => h), hended⟩

theorem endedWith_digPerform (h : ctxOf s cid = some c) (r0 r1 : Word) : endedWith (digPerform s cid r0 r1) cid r0 r1 :=
  endedWith_digReleased (endedWith_perform h r0 r1)

theorem endedStatus_digPerform (h : ctxOf s cid = some c) (r0 r1 : Word) (status : Half) : endedStatus (digPerform s cid r0 r1 status) cid status :=
  endedStatus_digReleased ⟨_, ctxOf_updCtx h fun _ h => h, rfl, rfl⟩

/-- CONTEXT_BUSY ends the command with its cause (R415). -/
theorem ctxBusy_ends (h : ctxOf s cid = some c) (hst : c.stage ≠ .fetched) (cause : Nat) :
    ∃ d, ctxOf (ctxBusy s c cause) cid = some d ∧ d.stage = .ended ∧ d.status = 0x5001 ∧ d.result0 = w32 cause := by
  obtain rfl := cid_of_ctxOf h
  obtain ⟨d, hd, hstage, hstatus⟩ := endedStatus_digReleased (endedStatus_failCommand h hst { status := 0x5001, origin := 5 })
  exact ⟨_, ctxOf_updCtx hd fun _ h => h, hstage, hstatus, rfl⟩

/-! ## A context made (R410) -/

/-- A context in a slot for a command's port, whose CONTEXT_ID the command ended with. -/
def Opened (t : State) (c : Ctx) (slot : Nat) (d : DigState) : Prop :=
  ∃ k ∈ t.dig.ctxs, k.slot = some slot ∧ k.port = c.port ∧ k.d = d ∧ endedWith t c.cid (w32 k.id) 0

theorem opened_openDone {e : Ctx} (h : ctxOf s c.cid = some e) (slot : Nat) (d : DigState) : Opened (openDone s c slot d) c slot d := by
  let t := updCtx s c.cid (fun c => { c with gotSlot := none })
  let n := numberFrom t c.port (t.dig.ctxs.length + 1) (portOf t c.port).digestNext
  let k : DigCtx :=
    { id := n + portNum c.port * 2 ^ 24, port := c.port, d := d, slot := some slot, frame := none, tag := [], lastCsn := c.csn, standing := none
      busy := none, ended := false, cause := 3 }
  have hctxs : (newContext t c slot d).1.ctxs = t.ctxs := ctxs_of_rest (rest_newContext (L := but .ctxs) rfl ..) rfl
  have hmem : k ∈ (newContext t c slot d).1.dig.ctxs := by simp [newContext, t, n, k]
  exact ⟨_, mem_digReleased (s := perform (newContext t c slot d).1 c.cid (w32 (newContext t c slot d).2) 0) (cid := c.cid) hmem rfl, rfl, rfl, rfl,
    endedWith_digPerform ((ctxOf_congr hctxs c.cid).trans (ctxOf_updCtx h fun _ h => h)) _ _⟩

theorem takeSlot_free {n : Nat} (hfree : freeSlot s = some n) : takeSlot s = some (s, n) := by simp [takeSlot, hfree]

/-- A command without a slot takes the free one (R420). -/
theorem withSlot_free (hgot : c.gotSlot = none) {n : Nat} (hfree : freeSlot s = some n) (go : State → Nat → State) :
    withSlot s c go = go (updCtx s c.cid (slotted n)) n := by
  simp only [withSlot, hgot, takeSlot_free hfree]
  rfl

/-! ## A context that ends (R415) -/

theorem not_mem_endCtx (s : State) (id : Nat) : ∀ k ∈ (endCtx s id).dig.ctxs, k.id ≠ id := fun k hk => by
  simpa using (List.mem_filter.mp hk).2

/-- A context that is gone does not come back with the end of the command. -/
theorem gone_digPerform {id : Nat} (h : ∀ k ∈ s.dig.ctxs, k.id ≠ id) (cid : Nat) (r0 r1 : Word) : ∀ x ∈ (digPerform s cid r0 r1).dig.ctxs, x.id ≠ id := by
  intro x hx
  obtain ⟨k, hk, rfl⟩ := of_mem_digReleased (s := perform s cid r0 r1) hx
  rw [idledBy_id]
  exact h k hk

theorem endCtx_ctxs (s : State) (id : Nat) : (endCtx s id).ctxs = s.ctxs := rfl

/-! ## A context in its slot (R413, R420) -/

/-- A context taken up by a command. -/
def workedOn (s : State) (c : Ctx) (k : DigCtx) : State := updDigCtx s k.id (fun x => { x with busy := some c.cid })

theorem workedOn_ctxs (s : State) (c : Ctx) (k : DigCtx) : (workedOn s c k).ctxs = s.ctxs := rfl

theorem workedOn_out (s : State) (c : Ctx) (k : DigCtx) : (workedOn s c k).out = s.out := rfl

theorem onContext_runs {k : DigCtx} (hk : namedDig s c = some k) (hopen : k.ended = false) (hwait : c.waitSlot = false) (hturn : digTurn s c = true)
    (hidle : k.busy = none) (hslot : k.slot.isSome = true) (go : State → DigCtx → State) : onContext s c go = go (workedOn s c k) k := by
  have hheld : ¬k.slot.isNone = true := by simpa [Option.isSome_iff_ne_none] using hslot
  simp only [onContext, hk, hopen, hwait, hturn, hidle, Bool.false_eq_true, Bool.not_true, Bool.or_self, Option.any_none, hheld, ↓reduceIte]
  rfl

end Ended

/-! ## Chunks of a command (R417) -/

/-- Input from the host is staged as one. -/
theorem stagedLen_of_host {c : Ctx} (hop : eOpcode c.dw ≠ 0x12) (s : State) : stagedLen s c = inputLen c := if_neg (by simpa using hop)

/-- A command whose next bytes are staged, with no chunk out, has its next chunk made ready. -/
theorem readyChunk_eq {s : State} {cid : Nat} {c : Ctx} (hc : ctxOf s cid = some c) {n : Nat} (hn : n = Nat.min 65536 (inputLen c - c.chunkAt))
    (hpos : 0 < n) (hout : chunkOut s cid = false) (hstaged : c.chunkAt + n ≤ stagedLen s c) :
    readyChunk s cid = updDig s (fun d => { d with ready := putReady ⟨cid, chunkSlot s c, s.now, n⟩ d.ready }) := by
  subst hn
  unfold readyChunk
  simp only [hc]
  rw [if_neg]
  simp only [Bool.or_eq_true, beq_iff_eq, decide_eq_true_eq, hout, Bool.false_eq_true, or_false, not_or]
  omega

end Sys2Proof.Proofs
end

section
/-! PROOFS. Digest contexts (R410, R411, R415, R416, R420, R422): OPEN, LOAD, FINAL and CLOSE, and the end of a wait for a slot. -/
namespace Sys2Proof.Proofs
open Sys2Proof Sys2Proof.Machine Sys2Proof.Laws

section Commands

variable {s : State} {n : Nat} {c : Ctx}

/-! ## OPEN (R410, R411) and LOAD (R422) -/

theorem digestOpen_opens (hin : ctxIn s c.cid 0x10 = some c) (hwait : c.waitSlot = false) (hout : chunkOut s c.cid = false) (hgot : c.gotSlot = none)
    (hfree : freeSlot s = some n) (hkey : bits (eCdw c.dw 0) 4 4 = 0) (f : HostFetch) :
    ∃ t, exec (.digestOpen c.cid f) s = .next t ∧ Opened t c n (digFresh (bits (eCdw c.dw 0) 3 0) false) := by
  have hexec : exec (.digestOpen c.cid f) s = execDigestOpen c.cid f s := rfl
  refine ⟨_, ?_, opened_openDone (ctxOf_updCtx (ctxOf_of_ctxIn hin) (f := slotted n) fun _ h => h) n _⟩
  rw [hexec]
  simp [execDigestOpen, hin, hwait, hout, hkey, withSlot_free hgot hfree]

/-- A stream read takes no slot. -/
theorem freeSlot_streamed (s : State) (cid : Nat) (bs : List Byte) : freeSlot (updCtx s cid (streamed bs)) = freeSlot s := by
  have hgot : (updCtx s cid (streamed bs)).ctxs.filterMap (·.gotSlot) = s.ctxs.filterMap (·.gotSlot) := by
    simp only [updCtx, List.filterMap_map]
    congr 1
    funext c
    by_cases hc : c.cid = cid <;> simp [hc, streamed]
  simp only [freeSlot, slotsTaken, hgot, updCtx_dig]

theorem digBlock_bounds (alg : Nat) : 0 < digBlock alg ∧ digBlock alg ≤ 65536 := by
  unfold digBlock
  split
  · decide
  · split <;> decide

/-- The state of a keyed OPEN that has its key and its slot. -/
def keyedOpen (s : State) (cid n : Nat) (key : List Byte) : State := updCtx (updCtx s cid (streamed key)) cid (slotted n)

section Keyed

variable (hin : ctxIn s c.cid 0x10 = some c) (hout : chunkOut s c.cid = false) (hat : c.chunkAt = 0)
include hin hout hat

/-- The key block of a keyed OPEN is its one chunk (R411). -/
theorem readyChunk_keyedOpen (key : List Byte) : readyChunk (keyedOpen s c.cid n key) c.cid =
    updDig (keyedOpen s c.cid n key) (fun d => { d with ready := putReady ⟨c.cid, n, s.now, digBlock (bits (eCdw c.dw 0) 3 0)⟩ d.ready }) := by
  have hop := eOpcode_of_ctxIn hin
  have hc : ctxOf (keyedOpen s c.cid n key) c.cid = some (slotted n (streamed key c)) :=
    ctxOf_updCtx (ctxOf_updCtx (ctxOf_of_ctxIn hin) (f := streamed key) fun _ h => h) (f := slotted n) fun _ h => h
  have hinput : inputLen (slotted n (streamed key c)) = digBlock (bits (eCdw c.dw 0) 3 0) := by
    simp only [inputLen, slotted, streamed, hop]
  have hstart : (slotted n (streamed key c)).chunkAt = 0 := hat
  have hhost : eOpcode (slotted n (streamed key c)).dw ≠ 0x12 := fun h => absurd (hop.symm.trans h) (by decide)
  obtain ⟨hpos, hmax⟩ := digBlock_bounds (bits (eCdw c.dw 0) 3 0)
  exact readyChunk_eq hc (by rw [hinput, hstart]; exact (Nat.min_eq_right hmax).symm) hpos hout (by rw [stagedLen_of_host hhost, hinput, hstart]; omega)

theorem digestOpen_keyed (hwait : c.waitSlot = false) (hgot : c.gotSlot = none) (hfree : freeSlot s = some n) (hkey : bits (eCdw c.dw 0) 4 4 = 1)
    (bs : List Byte) (hnew : c.stream = []) (hfits : fetchFits c.dw (.bytes bs) = true) (hlen : bs.length = expectedLen s c.dw) :
    ∃ t, exec (.digestOpen c.cid (.bytes bs)) s = .next t ∧ t.dig.ctxs = s.dig.ctxs ∧
      t.dig.ready = putReady ⟨c.cid, n, s.now, digBlock (bits (eCdw c.dw 0) 3 0)⟩ s.dig.ready := by
  have hexec : exec (.digestOpen c.cid (.bytes bs)) s = execDigestOpen c.cid (.bytes bs) s := rfl
  have hwhole : fetchOutcome c.dw (expectedLen s c.dw) (.bytes bs) = .inl bs := if_pos (beq_iff_eq.mpr hlen)
  refine ⟨readyChunk (keyedOpen s c.cid n bs) c.cid, ?_, ?_, ?_⟩
  · rw [hexec]
    simp only [execDigestOpen, hin, hwait, hout, hkey, hnew, hfits, hwhole, List.isEmpty_nil, beq_self_eq_true, Bool.not_true, Bool.and_false, Bool.or_self, Bool.false_eq_true, ↓reduceIte]
    exact congrArg Host.Outcome.next (withSlot_free (s := updCtx s c.cid (streamed bs)) hgot ((freeSlot_streamed s c.cid bs).trans hfree) _)
  · rw [readyChunk_keyedOpen hin hout hat bs]; rfl
  · rw [readyChunk_keyedOpen hin hout hat bs]; rfl

end Keyed

section Load

variable (hin : ctxIn s c.cid 0x15 = some c) (hwait : c.waitSlot = false) (hnew : c.stream = []) {o : List Byte}
  (hfits : fetchFits c.dw (.bytes o) = true) (hlen : o.length = 512)
include hin hwait hnew hfits hlen

theorem exec_digestLoad : exec (.digestLoad c.cid (.bytes o)) s = .next ((judgeOnion s o).elim (fun r => digPerform s c.cid 0xFFFFFFFF (w32 r))
    (fun d => withSlot (updCtx s c.cid (streamed o)) c (fun t n => openDone t c n d))) := by
  have hexec : exec (.digestLoad c.cid (.bytes o)) s = execDigestLoad c.cid (.bytes o) s := rfl
  have hexpected : expectedLen s c.dw = 512 := by simp only [expectedLen, eOpcode_of_ctxIn hin]
  have hwhole : fetchOutcome c.dw (expectedLen s c.dw) (.bytes o) = .inl o := if_pos (beq_iff_eq.mpr (hlen.trans hexpected.symm))
  rw [hexec]
  simp only [execDigestLoad, hin, hwait, hnew, hfits, hwhole, List.isEmpty_nil, Bool.not_true, Bool.and_false, Bool.or_self, Bool.false_eq_true, ↓reduceIte]
  cases judgeOnion s o with
  | inl r => rfl
  | inr d => rfl

theorem digestLoad_refuses {r : Nat} (hbad : judgeOnion s o = .inl r) :
    ∃ t, exec (.digestLoad c.cid (.bytes o)) s = .next t ∧ endedWith t c.cid 0xFFFFFFFF (w32 r) :=
  ⟨_, by rw [exec_digestLoad hin hwait hnew hfits hlen, hbad]; rfl, endedWith_digPerform (ctxOf_of_ctxIn hin) _ _⟩

theorem digestLoad_opens {d : DigState} (hgood : judgeOnion s o = .inr d) (hgot : c.gotSlot = none) (hfree : freeSlot s = some n) :
    ∃ t, exec (.digestLoad c.cid (.bytes o)) s = .next t ∧ Opened t c n d := by
  have hc := ctxOf_updCtx (ctxOf_of_ctxIn hin) (f := streamed o) fun _ h => h
  refine ⟨_, ?_, opened_openDone (ctxOf_updCtx hc (f := slotted n) fun _ h => h) n d⟩
  rw [exec_digestLoad hin hwait hnew hfits hlen, hgood, Sum.elim_inr, withSlot_free hgot ((freeSlot_streamed s c.cid o).trans hfree)]

end Load

/-! ## FINAL and CLOSE (R415, R416) -/

/-- The state of a context at the end of its input, and the digest there (R409). -/
def digestOf (k : DigCtx) (tail : List Byte) : List Byte := algDigest k.d.alg (absorb k.d tail).chain

section Final

variable {t : State} {d : Ctx} {k : DigCtx} (hc : ctxOf t c.cid = some d) (tail : List Byte)
include hc

theorem finalDone_writes (hmatch : bits (eCdw c.dw 1) 24 24 = 0) (e : List Byte) :
    (∀ x ∈ (finalDone t c k tail e).dig.ctxs, x.id ≠ k.id) ∧ endedWith (finalDone t c k tail e) c.cid (w32 (digestOf k tail).length) 0 ∧
      (finalDone t c k tail e).out = t.out ++ [.bytes c.port (eCdw23 c.dw) (digestOf k tail)] := by
  have hdone : finalDone t c k tail e = digPerform (emit (endCtx t k.id) (.bytes c.port (eCdw23 c.dw) (digestOf k tail))) c.cid (w32 (digestOf k tail).length) 0 :=
    if_neg (by simp [hmatch])
  have hctxs : (emit (endCtx t k.id) (.bytes c.port (eCdw23 c.dw) (digestOf k tail))).ctxs = t.ctxs := (emit_ctxs _ _).trans (endCtx_ctxs t k.id)
  rw [hdone]
  exact ⟨gone_digPerform (s := emit (endCtx t k.id) _) (not_mem_endCtx t k.id) _ _ _, endedWith_digPerform ((ctxOf_congr hctxs c.cid).trans hc) _ _,
    digPerform_out ..⟩

theorem finalDone_compares (hmatch : bits (eCdw c.dw 1) 24 24 = 1) (e : List Byte) :
    (∀ x ∈ (finalDone t c k tail e).dig.ctxs, x.id ≠ k.id) ∧ (finalDone t c k tail e).out = t.out ∧
      endedWith (finalDone t c k tail e) c.cid (if digestOf k tail = e then 0 else 1) 0 := by
  have hdone : finalDone t c k tail e = digPerform (endCtx t k.id) c.cid (w32 (b2n (digestOf k tail != e))) 0 := if_pos (by simp [hmatch])
  have hresult : w32 (b2n (digestOf k tail != e)) = if digestOf k tail = e then 0 else 1 := by
    by_cases heq : digestOf k tail = e <;> simp [heq, b2n, w32]
  rw [hdone, ← hresult]
  exact ⟨gone_digPerform (not_mem_endCtx t k.id) _ _ _, digPerform_out .., endedWith_digPerform ((ctxOf_congr (endCtx_ctxs t k.id) c.cid).trans hc) _ _⟩

end Final

section WithoutTail

variable {k : DigCtx} (hin : ctxIn s c.cid 0x13 = some c) (hout : chunkOut s c.cid = false) (hk : namedDig s c = some k) (hopen : k.ended = false)
  (hwait : c.waitSlot = false) (hturn : digTurn s c = true) (hidle : k.busy = none) (hslot : k.slot.isSome = true)
  (htail : bits (eCdw c.dw 1) 16 0 = 0) (hblock : k.d.residue.length % digBlock k.d.alg = 0)
include hin hout hk hopen hwait hturn hidle hslot htail hblock

/-- A FINAL whose input is whole already ends at once, with the expected digest it read (R416). -/
theorem exec_digestFinal {e : List Byte} {f g : HostFetch} (hplain : plainFetch g = true)
    (hread : (if bits (eCdw c.dw 1) 24 24 == 1 then expectedRead (digLen k.d.alg) g else .inl []) = .inl e) :
    exec (.digestFinal c.cid f g) s = .next (finalDone (workedOn s c k) c k [] e) := by
  have hexec : exec (.digestFinal c.cid f g) s = execDigestFinal c.cid f g s := rfl
  have hnone : expectedLen s c.dw = 0 := by simp only [expectedLen, eOpcode_of_ctxIn hin, htail]
  rw [hexec]
  simp only [execDigestFinal, hin, hout, hnone, hplain, onContext_runs hk hopen hwait hturn hidle hslot, hblock, hread, Nat.add_zero, bne_self_eq_false,
    beq_self_eq_true, Bool.false_and, Bool.not_true, Bool.or_self, Bool.false_eq_true, ↓reduceIte]

theorem digestFinal_writes (hmatch : bits (eCdw c.dw 1) 24 24 = 0) (f : HostFetch) {g : HostFetch} (hplain : plainFetch g = true) :
    ∃ t, exec (.digestFinal c.cid f g) s = .next t ∧ (∀ x ∈ t.dig.ctxs, x.id ≠ k.id) ∧ endedWith t c.cid (w32 (digestOf k []).length) 0 ∧
      t.out = s.out ++ [.bytes c.port (eCdw23 c.dw) (digestOf k [])] :=
  ⟨_, exec_digestFinal hin hout hk hopen hwait hturn hidle hslot htail hblock hplain (e := []) (if_neg (by simp [hmatch])),
    finalDone_writes ((ctxOf_congr (workedOn_ctxs s c k) c.cid).trans (ctxOf_of_ctxIn hin)) [] hmatch []⟩

theorem digestFinal_compares (hmatch : bits (eCdw c.dw 1) 24 24 = 1) {e : List Byte} (hlen : e.length = digLen k.d.alg) (f : HostFetch) :
    ∃ t, exec (.digestFinal c.cid f (.bytes e)) s = .next t ∧ (∀ x ∈ t.dig.ctxs, x.id ≠ k.id) ∧ t.out = s.out ∧
      endedWith t c.cid (if digestOf k [] = e then 0 else 1) 0 := by
  have hread : (if bits (eCdw c.dw 1) 24 24 == 1 then expectedRead (digLen k.d.alg) (.bytes e) else .inl []) = .inl e := by
    rw [if_pos (by simp [hmatch])]
    simp [expectedRead, padTo, zeros, ← hlen]
  exact ⟨_, exec_digestFinal hin hout hk hopen hwait hturn hidle hslot htail hblock rfl hread,
    finalDone_compares ((ctxOf_congr (workedOn_ctxs s c k) c.cid).trans (ctxOf_of_ctxIn hin)) [] hmatch e⟩

end WithoutTail

theorem digestClose_ends {k : DigCtx} (hin : ctxIn s c.cid 0x16 = some c) (hk : namedDig s c = some k) (hopen : k.ended = false)
    (hturn : digTurn s c = true) (hidle : k.busy = none) :
    ∃ t, exec (.digestClose c.cid) s = .next t ∧ (∀ x ∈ t.dig.ctxs, x.id ≠ k.id) ∧ endedWith t c.cid 0 0 := by
  have hexec : exec (.digestClose c.cid) s = execDigestClose c.cid s := rfl
  refine ⟨digPerform (endCtx s k.id) c.cid 0 0, ?_, gone_digPerform (not_mem_endCtx s k.id) _ _ _,
    endedWith_digPerform ((ctxOf_congr (endCtx_ctxs s k.id) c.cid).trans (ctxOf_of_ctxIn hin)) _ _⟩
  rw [hexec]
  simp [execDigestClose, hin, hk, hopen, hturn, hidle]

/-! ## The end of a wait for a slot (R420) -/

section Wait

variable (hc : ctxOf s c.cid = some c) (hst : c.stage = .admitted) (hwait : c.waitSlot = true) (hrun : s.jrnl.stopFrom = none)
include hc hst hwait hrun

theorem waiting_stands : (ctxOf s c.cid).filter (fun c => c.stage == .admitted && c.waitSlot && s.jrnl.stopFrom.isNone) = some c := by
  simp [hc, hst, hwait, hrun]

/-- A command whose wait is over. -/
def unwaiting (c : Ctx) : Ctx := { c with waitSlot := false, waitFor := [] }

theorem slotWaitEnd_takes (hnew : namesContext (eOpcode c.dw) = false) (hfree : freeSlot s = some n) (f : HostFetch) :
    ∃ t, exec (.contextSlotWaitEnd c.cid f) s = .next t ∧ ctxOf t c.cid = some (slotted n (unwaiting c)) := by
  have hexec : exec (.contextSlotWaitEnd c.cid f) s = execContextSlotWaitEnd c.cid f s := rfl
  refine ⟨updCtx s c.cid (fun c => slotted n (unwaiting c)), ?_, ctxOf_updCtx hc fun _ h => h⟩
  rw [hexec]
  simp only [execContextSlotWaitEnd, waiting_stands hc hst hwait hrun, takeSlot_free hfree, hnew]
  rfl

section Parked

variable {k : DigCtx} (hnames : namesContext (eOpcode c.dw) = true) (hfree : freeSlot s = some n) (hk : namedDig s c = some k) (hopen : k.ended = false)
include hnames hfree hk hopen

theorem slotWaitEnd_parked (f : HostFetch) : exec (.contextSlotWaitEnd c.cid f) s = .next (bringBack s c k n f) := by
  have hexec : exec (.contextSlotWaitEnd c.cid f) s = execContextSlotWaitEnd c.cid f s := rfl
  rw [hexec]
  simp only [execContextSlotWaitEnd, waiting_stands hc hst hwait hrun, takeSlot_free hfree, hnames, hk, hopen]
  rfl

end Parked

theorem slotWaitEnd_none (hnone : takeSlot s = none) (hover : waitOver s c = true) (f : HostFetch) :
    exec (.contextSlotWaitEnd c.cid f) s = .next (ctxBusy s c 1) := by
  have hexec : exec (.contextSlotWaitEnd c.cid f) s = execContextSlotWaitEnd c.cid f s := rfl
  rw [hexec]
  simp only [execContextSlotWaitEnd, waiting_stands hc hst hwait hrun, hnone, hover]
  rfl

end Wait

/-- A parked context whose onion opens is back in the slot. -/
theorem bringBack_good {k : DigCtx} (hk : namedDig s c = some k) {o : List Byte} {d : DigState} (hframe : frameGood k o = true)
    (hopened : openOnion s o = some d) (n : Nat) :
    ∃ x ∈ (bringBack s c k n (.bytes o)).dig.ctxs, x.id = k.id ∧ x.slot = some n ∧ x.frame = none ∧ x.d = d := by
  refine ⟨{ k with d := d, slot := some n, frame := none }, ?_, rfl, rfl, rfl, rfl⟩
  simp only [bringBack, hframe, hopened, ↓reduceIte]
  exact List.mem_map.mpr ⟨k, List.mem_of_find?_eq_some hk, if_pos (beq_self_eq_true k.id)⟩

/-- One whose frame does not pass is ended, and the command reports cause 2. -/
theorem bringBack_bad {k : DigCtx} (hc : ctxOf s c.cid = some c) (hst : c.stage = .admitted) {o : List Byte} (hframe : frameGood k o = false) (n : Nat) :
    ∃ d, ctxOf (bringBack s c k n (.bytes o)) c.cid = some d ∧ d.stage = .ended ∧ d.status = 0x5001 ∧ d.result0 = w32 2 := by
  simp only [bringBack, hframe, Bool.false_eq_true, ↓reduceIte]
  refine ctxBusy_ends ((ctxOf_congr ?_ c.cid).trans hc) (by rw [hst]; decide) 2
  exact ctxs_of_rest (rest_endContexts (L := but .ctxs) rfl ..) rfl

end Commands

/-- Settles O46: a new context by the slot that it takes, an ended one by what is left of it, a wait by the slot, the frame or the cause it ends with. -/
theorem digestContextsComeAndGo : Obligations.DigestContextsComeAndGo := by
  unfold Obligations.DigestContextsComeAndGo
  intro s cid n c alg opened gone busyEnd free
  refine ⟨fun hin hwait hout hgot hfree => ?opens, fun hin hwait hnew o hfits hlen => ?loads, fun k e hin hout hfree htail hblock => ?final,
    fun k hin hk hopen hturn hidle => ?close, fun hc hst hwait hrun => ?wait⟩
  case opens =>
    obtain rfl := cid_of_ctxOf (ctxOf_of_ctxIn hin)
    exact ⟨fun hkey f => digestOpen_opens hin hwait hout hgot hfree hkey f,
      fun hkey bs hnew hat hfits hlen => digestOpen_keyed hin hout hat hwait hgot hfree hkey bs hnew hfits hlen⟩
  case loads =>
    obtain rfl := cid_of_ctxOf (ctxOf_of_ctxIn hin)
    exact ⟨fun r hbad => digestLoad_refuses hin hwait hnew hfits hlen hbad,
      fun d hgood hgot hfree => digestLoad_opens hin hwait hnew hfits hlen hgood hgot hfree⟩
  case final =>
    obtain rfl := cid_of_ctxOf (ctxOf_of_ctxIn hin)
    obtain ⟨hk, hopen, hwait, hturn, hidle, hslot⟩ := hfree
    exact ⟨fun hmatch f g hplain => digestFinal_writes hin hout hk hopen hwait hturn hidle hslot htail hblock hmatch f hplain,
      fun hmatch hlen f => digestFinal_compares hin hout hk hopen hwait hturn hidle hslot htail hblock hmatch hlen f⟩
  case close =>
    obtain rfl := cid_of_ctxOf (ctxOf_of_ctxIn hin)
    exact digestClose_ends hin hk hopen hturn hidle
  case wait =>
    obtain rfl := cid_of_ctxOf hc
    exact ⟨fun hnew hfree f => slotWaitEnd_takes hc hst hwait hrun hnew hfree f,
      fun k o d hnames hfree hk hopen hframe hopened =>
        ⟨_, slotWaitEnd_parked hc hst hwait hrun hnames hfree hk hopen _, bringBack_good hk hframe hopened n⟩,
      fun k o hnames hfree hk hopen hframe => ⟨_, slotWaitEnd_parked hc hst hwait hrun hnames hfree hk hopen _, bringBack_bad hc hst hframe n⟩,
      fun hnone hover f => ⟨_, slotWaitEnd_none hc hst hwait hrun hnone hover f, ctxBusy_ends hc (by rw [hst]; decide) 1⟩⟩

end Sys2Proof.Proofs
end

section
/-! PROOFS. Chunks of digest commands (R409, R415, R417 to R419): the first one made ready, its way through a pipe, and the command that its last chunk
performs. -/
namespace Sys2Proof.Proofs
open Sys2Proof Sys2Proof.Machine Sys2Proof.Laws

/-! ## What a feed from the medium reads (R152, R164) -/

section SameMap

variable {s t : State} (hmap : t.map = s.map)
include hmap

theorem unitResult_of_map : unitResult t = unitResult s := by
  funext dw u
  simp only [unitResult, nsFormat, nsOf, hmap]

theorem stagedLen_of_map (c : Ctx) : stagedLen t c = stagedLen s c := by
  simp only [stagedLen, leadingUnits, unitResult_of_map hmap]

theorem readBlocks_of_map (c : Ctx) : readBlocks t c = readBlocks s c := by
  simp only [readBlocks, unitResult_of_map hmap]

theorem readVerdict_of_map (c : Ctx) : readVerdict t c = readVerdict s c := by
  simp only [readVerdict, failingUnits, unitResult_of_map hmap]

end SameMap

/-! ## Feeds and saves begin (R415, R418) -/

theorem workedOn_slot {s : State} {c : Ctx} (k : DigCtx) : (namedDig (workedOn s c k) c).bind (·.slot) = (namedDig s c).bind (·.slot) := by
  have hid : (fun d : DigCtx => d.id == eCdw c.dw 0) ∘ (fun x => if x.id == k.id then { x with busy := some c.cid } else x) =
      fun d => d.id == eCdw c.dw 0 := by
    funext x
    by_cases hx : x.id = k.id <;> simp [hx]
  simp only [namedDig, workedOn, updDigCtx, updDig_dig, List.find?_map, hid, Option.bind_map]
  congr 1
  funext x
  by_cases hx : x.id = k.id <;> simp [hx]

/-- A command that continues its context leaves it with a new state. -/
theorem fedTo_held {s : State} {x : DigCtx} (hx : x ∈ s.dig.ctxs) (hopen : x.ended = false) (c : Ctx) (d : DigState) (r0 r1 : Word) (status : Half) :
    ∃ y ∈ (fedTo s c x.id d r0 r1 status).dig.ctxs, y.id = x.id ∧ y.d = d ∧ y.lastCsn = c.csn := by
  have hmem : { x with d := d, lastCsn := c.csn } ∈ (updDigCtx s x.id (fun k => { k with d := d, lastCsn := c.csn })).dig.ctxs :=
    List.mem_map.mpr ⟨x, hx, if_pos (beq_self_eq_true x.id)⟩
  exact ⟨_, mem_digReleased (s := perform (updDigCtx s x.id (fun k => { k with d := d, lastCsn := c.csn })) c.cid r0 r1 status) (cid := c.cid) hmem hopen,
    idledBy_id .., idledBy_d .., idledBy_lastCsn ..⟩

theorem fedTo_endedWith {s : State} {c e : Ctx} (hc : ctxOf s c.cid = some e) (id : Nat) (d : DigState) (r0 r1 : Word) :
    endedWith (fedTo s c id d r0 r1) c.cid r0 r1 :=
  endedWith_digPerform (s := updDigCtx s id (fun k => { k with d := d, lastCsn := c.csn })) hc r0 r1

theorem fedTo_endedStatus {s : State} {c e : Ctx} (hc : ctxOf s c.cid = some e) (id : Nat) (d : DigState) (r0 r1 : Word) (status : Half) :
    endedStatus (fedTo s c id d r0 r1 status) c.cid status :=
  endedStatus_digPerform (s := updDigCtx s id (fun k => { k with d := d, lastCsn := c.csn })) hc r0 r1 status

@[simp] theorem fedTo_out (s : State) (c : Ctx) (id : Nat) (d : DigState) (r0 r1 : Word) (status : Half) : (fedTo s c id d r0 r1 status).out = s.out := by
  simp only [fedTo, digPerform_out, updDigCtx, updDig_out]

@[simp] theorem fedTo_wrapNext (s : State) (c : Ctx) (id : Nat) (d : DigState) (r0 r1 : Word) (status : Half) :
    (fedTo s c id d r0 r1 status).dig.wrapNext = s.dig.wrapNext := by
  simp only [fedTo, digPerform_wrapNext, updDigCtx, updDig_dig]

@[simp] theorem fedTo_pipes (s : State) (c : Ctx) (id : Nat) (d : DigState) (r0 r1 : Word) (status : Half) :
    (fedTo s c id d r0 r1 status).dig.pipes = s.dig.pipes := by
  simp only [fedTo, digPerform_pipes, updDigCtx, updDig_dig]

@[simp] theorem useWrap_ctxs (s : State) : (useWrap s).ctxs = s.ctxs := rfl
@[simp] theorem useWrap_out (s : State) : (useWrap s).out = s.out := rfl
@[simp] theorem useWrap_digCtxs (s : State) : (useWrap s).dig.ctxs = s.dig.ctxs := rfl
@[simp] theorem useWrap_wrapNext (s : State) : (useWrap s).dig.wrapNext = s.dig.wrapNext + 1 := rfl

/-- The first chunk of a command, of at most 64 KiB. -/
theorem readyChunk_first {s : State} {cid : Nat} {c : Ctx} (hc : ctxOf s cid = some c) (hat : c.chunkAt = 0) (hpos : 0 < inputLen c)
    (hout : chunkOut s cid = false) (hstaged : Nat.min 65536 (inputLen c) ≤ stagedLen s c) :
    readyChunk s cid = updDig s (fun d => { d with ready := putReady ⟨cid, chunkSlot s c, s.now, Nat.min 65536 (inputLen c)⟩ d.ready }) :=
  readyChunk_eq hc (by rw [hat, Nat.sub_zero]) (Nat.lt_min.mpr ⟨by decide, hpos⟩) hout (by rwa [hat, Nat.zero_add])

section Begin

variable {s : State} {c : Ctx} {k : DigCtx} (hk : namedDig s c = some k) (hopen : k.ended = false) (hwait : c.waitSlot = false)
  (hturn : digTurn s c = true) (hidle : k.busy = none) (hslot : k.slot.isSome = true)
include hk hopen hwait hturn hidle hslot

theorem digestFeedHost_begins {bs : List Byte} (hin : ctxIn s c.cid 0x11 = some c) (hout : chunkOut s c.cid = false) (hat : c.chunkAt = 0)
    (hsome : 0 < eCdw c.dw 1) (hfits : fetchFits c.dw (.bytes bs) = true) (hlen : bs.length = eCdw c.dw 1) :
    ∃ t, exec (.digestFeedHost c.cid (.bytes bs)) s = .next t ∧ ctxOf t c.cid = some (streamed bs c) ∧
      t.dig.ready = putReady ⟨c.cid, chunkSlot s c, s.now, Nat.min 65536 (inputLen c)⟩ s.dig.ready := by
  have hop := eOpcode_of_ctxIn hin
  have hexec : exec (.digestFeedHost c.cid (.bytes bs)) s = execDigestFeedHost c.cid (.bytes bs) s := rfl
  have hexpected : expectedLen s c.dw = eCdw c.dw 1 := by simp only [expectedLen, hop]
  have hwhole : fetchOutcome c.dw (expectedLen s c.dw) (.bytes bs) = .inl bs := if_pos (beq_iff_eq.mpr (hlen.trans hexpected.symm))
  let t := updCtx (workedOn s c k) c.cid (streamed bs)
  have hc : ctxOf t c.cid = some (streamed bs c) := ctxOf_updCtx (s := workedOn s c k) (ctxOf_of_ctxIn hin) fun _ h => h
  have hinput : inputLen c = eCdw c.dw 1 := by simp only [inputLen, hop]
  have hstaged : stagedLen t (streamed bs c) = inputLen c := stagedLen_of_host (c := streamed bs c) (fun h => absurd (hop.symm.trans h) (by decide)) t
  have hcslot : chunkSlot t (streamed bs c) = chunkSlot s c := congrArg (fun x => (c.gotSlot.orElse fun _ => x).getD 0) (workedOn_slot k)
  have hready := readyChunk_first hc hat (hsome.trans_eq hinput.symm) hout ((Nat.min_le_right _ _).trans_eq hstaged.symm)
  refine ⟨readyChunk t c.cid, ?_, ?_, ?_⟩
  · rw [hexec]
    simp only [execDigestFeedHost, hin, hout, hfits, onContext_runs hk hopen hwait hturn hidle hslot, hwhole, Bool.not_true, Bool.or_self,
      Bool.false_eq_true, ↓reduceIte]
    rfl
  · rw [hready]; exact hc
  · rw [hready, hcslot]; rfl

theorem digestFeedMedium_begins (hin : ctxIn s c.cid 0x12 = some c) (hout : chunkOut s c.cid = false) (hat : c.chunkAt = 0) (hsome : 0 < eCount c.dw)
    (hgood : readVerdict s c = none) (hstaged : Nat.min 65536 (inputLen c) ≤ 4096 * leadingUnits s c) :
    ∃ t, exec (.digestFeedMedium c.cid) s = .next t ∧
      t.dig.ready = putReady ⟨c.cid, chunkSlot s c, s.now, Nat.min 65536 (inputLen c)⟩ s.dig.ready ∧ t.map = s.map := by
  have hop := eOpcode_of_ctxIn hin
  have hexec : exec (.digestFeedMedium c.cid) s = execDigestFeedMedium c.cid s := rfl
  have hinput : inputLen c = 4096 * eCount c.dw := by simp only [inputLen, hop]
  have hverdict : readVerdict (workedOn s c k) c = none := (readVerdict_of_map (s := s) rfl c).trans hgood
  have hlen : stagedLen (workedOn s c k) c = 4096 * leadingUnits s c := (stagedLen_of_map (s := s) rfl c).trans (if_pos (by simp [hop]))
  have hcslot : chunkSlot (workedOn s c k) c = chunkSlot s c := congrArg (fun x => (c.gotSlot.orElse fun _ => x).getD 0) (workedOn_slot k)
  have hready := readyChunk_first (s := workedOn s c k) (ctxOf_of_ctxIn hin) hat (by rw [hinput]; omega) hout (hstaged.trans_eq hlen.symm)
  refine ⟨readyChunk (workedOn s c k) c.cid, ?_, ?_, ?_⟩
  · rw [hexec]
    simp only [execDigestFeedMedium, hin, onContext_runs hk hopen hwait hturn hidle hslot, hverdict, ite_self]
  · rw [hready, hcslot]; rfl
  · rw [hready]; rfl

theorem digestSave_writes {list : ListRead} (hin : ctxIn s c.cid 0x14 = some c) (hlist : judgeList c.dw 512 4 list = none) :
    ∃ t, exec (.digestSave c.cid list) s = .next t ∧ endedWith t c.cid (lo32 k.d.fed) (hi32 k.d.fed) ∧
      (∃ x ∈ t.dig.ctxs, x.id = k.id ∧ x.d = k.d ∧ x.lastCsn = c.csn) ∧
      t.out = (deliver s c.port (extentsOf c.dw list) (onionOf s k false)).out ∧ t.dig.wrapNext = s.dig.wrapNext + 1 := by
  have hexec : exec (.digestSave c.cid list) s = execDigestSave c.cid list s := rfl
  have hexpected : expectedLen s c.dw = 512 := by simp only [expectedLen, eOpcode_of_ctxIn hin]
  have honion : onionOf (workedOn s c k) k false = onionOf s k false := rfl
  obtain ⟨t, ht⟩ : ∃ t, t = deliver (workedOn s c k) c.port (extentsOf c.dw list) (onionOf s k false) := ⟨_, rfl⟩
  have hdig : t.dig = (workedOn s c k).dig := by rw [ht, dig_of_rest (rest_deliver (L := but .dig) rfl ..) rfl]
  have hctxs : t.ctxs = s.ctxs := by rw [ht, ctxs_deliver, workedOn_ctxs]
  have hout : t.out = (deliver s c.port (extentsOf c.dw list) (onionOf s k false)).out := by rw [ht, out_deliver_congr (workedOn_out s c k)]
  have hmem : { k with busy := some c.cid } ∈ (useWrap t).dig.ctxs := by
    rw [useWrap_digCtxs, hdig]
    exact List.mem_map.mpr ⟨k, List.mem_of_find?_eq_some hk, if_pos (beq_self_eq_true k.id)⟩
  refine ⟨fedTo (useWrap t) c k.id k.d (lo32 k.d.fed) (hi32 k.d.fed), ?_,
    fedTo_endedWith ((ctxOf_congr ((useWrap_ctxs t).trans hctxs) c.cid).trans (ctxOf_of_ctxIn hin)) .., fedTo_held hmem hopen c k.d _ _ _, ?_, ?_⟩
  · rw [hexec]
    simp only [execDigestSave, hin, onContext_runs hk hopen hwait hturn hidle hslot, hexpected, hlist, honion, ht]
  · rw [fedTo_out, useWrap_out, hout]
  · rw [fedTo_wrapNext, useWrap_wrapNext, hdig]
    rfl

end Begin

/-! ## Pipes (R417) -/

theorem chunk_dispatched {s : State} {k : Chunk} {ks : List Chunk} {n : Nat} (hready : s.dig.ready = k :: ks)
    (hpipe : (List.range 16).find? (fun n => s.dig.pipes.all (fun p => p.1 != n)) = some n) (hrun : s.jrnl.stopFrom = none) :
    ∃ t, exec .digestChunkDispatch s = .next t ∧ t.dig.ready = ks ∧ t.dig.pipes = s.dig.pipes ++ [(n, k)] := by
  have hexec : exec .digestChunkDispatch s = execDigestChunkDispatch s := rfl
  let t := updDig s (fun d => { d with ready := ks, pipes := d.pipes ++ [(n, k)] })
  have hdig : (countEvent t 0x30 0 1).dig = t.dig := dig_of_rest (rest_countEvent (L := but .dig) rfl ..) rfl
  refine ⟨countEvent t 0x30 0 1, ?_, ?_, ?_⟩
  · rw [hexec]
    simp only [execDigestChunkDispatch, hready, hpipe, hrun]
    rfl
  · rw [hdig]; rfl
  · rw [hdig]; rfl

/-- The state once a chunk has left its pipe, and once its bytes are counted for its command. -/
def leftPipe (s : State) (pipe : Nat) : State := pulseLine (updDig s (fun d => { d with pipes := d.pipes.filter (fun p => p.1 != pipe) })) (32 + pipe)
def atChunk (n : Nat) (c : Ctx) : Ctx := { c with chunkAt := n }
def absorbed (s : State) (pipe cid n : Nat) : State := updCtx (leftPipe s pipe) cid (atChunk n)

theorem pulseLine_frame (s : State) (line : Nat) : rest [.mover] (pulseLine s line) = rest [.mover] s := rest_pulseLine rfl s line

theorem absorbed_dig (s : State) (pipe cid n : Nat) :
    (absorbed s pipe cid n).dig = { s.dig with pipes := s.dig.pipes.filter (fun p => p.1 != pipe) } := by
  rw [absorbed, updCtx_dig, leftPipe, dig_of_rest (pulseLine_frame _ _) rfl, updDig_dig]

theorem absorbed_map (s : State) (pipe cid n : Nat) : (absorbed s pipe cid n).map = s.map := by
  rw [absorbed, updCtx_map, leftPipe, map_of_rest (pulseLine_frame _ _) rfl, updDig_map]

theorem absorbed_out (s : State) (pipe cid n : Nat) : (absorbed s pipe cid n).out = s.out := by
  rw [absorbed, updCtx_out, leftPipe, out_of_rest (pulseLine_frame _ _) rfl, updDig_out]

theorem absorbed_now (s : State) (pipe cid n : Nat) : (absorbed s pipe cid n).now = s.now := by
  rw [absorbed, updCtx_now, leftPipe, now_of_rest (pulseLine_frame _ _) rfl, updDig_now]

theorem leftPipe_ctxs (s : State) (pipe : Nat) : (leftPipe s pipe).ctxs = s.ctxs := by
  rw [leftPipe, ctxs_of_rest (pulseLine_frame _ _) rfl, updDig_ctxs]

theorem leftPipe_jrnl (s : State) (pipe : Nat) : (leftPipe s pipe).jrnl = s.jrnl := by
  rw [leftPipe, jrnl_of_rest (pulseLine_frame _ _) rfl, updDig_jrnl]

/-- A context of the digest engine is named as before. -/
theorem namedDig_absorbed (s : State) (pipe cid n : Nat) (c : Ctx) : namedDig (absorbed s pipe cid n) c = namedDig s c := by
  rw [namedDig, absorbed_dig, namedDig]

section Done

variable {s : State} {c : Ctx} {pipe : Nat} {k : Chunk} (hpipe : s.dig.pipes.find? (fun p => p.1 == pipe) = some (pipe, k))
  (hc : ctxOf s c.cid = some c) (hcid : k.cid = c.cid) (hst : c.stage = .admitted) (hrun : s.jrnl.stopFrom = none)

include hc in
theorem ctxOf_absorbed (pipe n : Nat) : ctxOf (absorbed s pipe c.cid n) c.cid = some (atChunk n c) :=
  ctxOf_updCtx ((ctxOf_congr (leftPipe_ctxs s pipe) c.cid).trans hc) fun _ h => h

section Exec

include hpipe hc hcid hst hrun

/-- A chunk that left its pipe lets the next one be made ready, or its command be performed. -/
theorem exec_digestChunkDone {t : State} (ht : t = absorbed s pipe c.cid (c.chunkAt + k.bytes)) : exec (.digestChunkDone pipe) s =
    if c.chunkAt + k.bytes < inputLen c then
      (if (namedDig t c).any (·.ended) then .next (digestDone t c) else .next (readyChunk t c.cid))
    else .next (digestDone t c) := by
  subst ht
  have hexec : exec (.digestChunkDone pipe) s = execDigestChunkDone pipe s := rfl
  have hcommand : (ctxOf (leftPipe s pipe) c.cid).filter (fun c => c.stage == .admitted && (leftPipe s pipe).jrnl.stopFrom.isNone) = some c := by
    rw [ctxOf_congr (leftPipe_ctxs s pipe), hc, leftPipe_jrnl, hrun]
    simp [hst]
  unfold leftPipe at hcommand
  rw [hexec]
  simp only [execDigestChunkDone, hpipe, hcid, hcommand]
  rfl

/-- The next chunk of a command follows in its turn. -/
theorem chunkDone_continues (hmore : c.chunkAt + k.bytes < inputLen c) (hopen : (namedDig s c).any (·.ended) = false)
    (hready : s.dig.ready.all (fun x => x.cid != c.cid) = true) (hpipes : s.dig.pipes.all (fun p => p.2.cid != c.cid || p.1 == pipe) = true)
    (hstaged : c.chunkAt + k.bytes + Nat.min 65536 (inputLen c - (c.chunkAt + k.bytes)) ≤ stagedLen s c) :
    ∃ t, (exec (.digestChunkDone pipe) s = .next t ∧ t.dig.pipes = s.dig.pipes.filter (fun p => p.1 != pipe)) ∧
      t.dig.ready = putReady ⟨c.cid, chunkSlot s c, s.now, Nat.min 65536 (inputLen c - (c.chunkAt + k.bytes))⟩ s.dig.ready := by
  obtain ⟨t, ht⟩ : ∃ t, t = absorbed s pipe c.cid (c.chunkAt + k.bytes) := ⟨_, rfl⟩
  have hdig : t.dig = { s.dig with pipes := s.dig.pipes.filter (fun p => p.1 != pipe) } := by rw [ht, absorbed_dig]
  have hnamed : namedDig t c = namedDig s c := by rw [ht, namedDig_absorbed]
  have hcnext : ctxOf t c.cid = some (atChunk (c.chunkAt + k.bytes) c) := by rw [ht, ctxOf_absorbed hc]
  have hnow : t.now = s.now := by rw [ht, absorbed_now]
  have hout : chunkOut t c.cid = false := by
    rw [chunkOut, hdig, Bool.or_eq_false_iff]
    refine ⟨List.any_eq_false.mpr fun x hx => by simpa using List.all_eq_true.mp hready x hx, List.any_eq_false.mpr fun p hp => ?_⟩
    obtain ⟨hp, hother⟩ := List.mem_filter.mp hp
    have hat := List.all_eq_true.mp hpipes p hp
    intro hmine
    simp_all
  have hslot : chunkSlot t (atChunk (c.chunkAt + k.bytes) c) = chunkSlot s c := 
    congrArg (fun x : Option DigCtx => (c.gotSlot.orElse fun _ => x.bind (·.slot)).getD 0) hnamed
  have hlen : stagedLen t (atChunk (c.chunkAt + k.bytes) c) = stagedLen s c :=
    (stagedLen_of_map (t := t) (s := s) (by rw [ht, absorbed_map]) (atChunk (c.chunkAt + k.bytes) c)).trans rfl
  have hnext := readyChunk_eq hcnext rfl (Nat.lt_min.mpr ⟨by decide, Nat.sub_pos_of_lt hmore⟩) hout (hstaged.trans_eq hlen.symm)
  refine ⟨readyChunk t c.cid, ⟨?_, ?_⟩, ?_⟩
  · rw [exec_digestChunkDone hpipe hc hcid hst hrun ht, if_pos hmore, hnamed, hopen, if_neg Bool.false_ne_true]
  · rw [hnext, updDig_dig, hdig]
  · rw [hnext, updDig_dig, hdig, hslot, hnow]
    rfl

/-- The last chunk performs its command. -/
theorem chunkDone_performs (hlast : inputLen c ≤ c.chunkAt + k.bytes) :
    exec (.digestChunkDone pipe) s = .next (digestDone (absorbed s pipe c.cid (c.chunkAt + k.bytes)) c) := by
  rw [exec_digestChunkDone hpipe hc hcid hst hrun rfl, if_neg (by omega)]

end Exec

end Done

/-! ## The command performed -/

theorem openDone_pipes (s : State) (c : Ctx) (slot : Nat) (d : DigState) : (openDone s c slot d).dig.pipes = s.dig.pipes := by
  simp only [openDone, digPerform_pipes, newContext, updPort_dig, updDig_dig, updCtx_dig]

theorem finalDone_pipes (s : State) (c : Ctx) (k : DigCtx) (tail e : List Byte) : (finalDone s c k tail e).dig.pipes = s.dig.pipes := by
  unfold finalDone
  dsimp only
  split
  · rw [digPerform_pipes, endCtx, updDig_dig]
  · rw [digPerform_pipes, emit_dig, endCtx, updDig_dig]

section Performed

variable {s : State} {c : Ctx}

theorem digestDone_opens (hop : eOpcode c.dw = 0x10) : digestDone s c =
    openDone s c (c.gotSlot.getD 0) (absorb (digFresh (bits (eCdw c.dw 0) 3 0) true) (keyBlock (bits (eCdw c.dw 0) 3 0) (bits (eCdw c.dw 0) 5 5) c.stream)) :=
  if_pos (by simp [hop])

variable {x : DigCtx} (hx : namedDig s c = some x) (hopen : x.ended = false)
include hx hopen

theorem digestDone_fedHost (hop : eOpcode c.dw = 0x11) : digestDone s c =
    fedTo s c x.id (absorb x.d c.stream) (lo32 (x.d.fed + c.stream.length)) (hi32 (x.d.fed + c.stream.length)) := by
  simp [digestDone, hop, hx, hopen, absorb]

theorem digestDone_fedMedium (hop : eOpcode c.dw = 0x12) : digestDone s c =
    fedTo s c x.id (absorb x.d ((readBlocks s c).flatMap (fun b => b.2.data))) (w32 (unwrittenCount c)) (w32 (recoveredCount c)) (readStatus c) := by
  simp [digestDone, hop, hx, hopen]

theorem digestDone_final (hop : eOpcode c.dw = 0x13) : digestDone s c =
    finalDone s c x (c.stream.take (bits (eCdw c.dw 1) 16 0)) (c.stream.drop (bits (eCdw c.dw 1) 16 0)) := by
  simp [digestDone, hop, hx, hopen]

end Performed

/-- Settles O47: a first chunk by the data that is there, a save by the onion it writes, a chunk by the pipe it takes, and what follows it out of the
pipe by whether it was its command's last. -/
theorem digestChunksAreAbsorbed : Obligations.DigestChunksAreAbsorbed := by
  unfold Obligations.DigestChunksAreAbsorbed
  intro s cid c held gone first
  refine ⟨fun k hk hopen hwait hturn hidle hslot => ⟨?host, ?medium, ?save⟩, fun k ks n hready hpipe hrun => chunk_dispatched hready hpipe hrun,
    fun pipe k hpipe hc hcid hst hrun => ?done⟩
  case host =>
    intro bs hin hout hat hsome hfits hlen
    obtain rfl := cid_of_ctxOf (ctxOf_of_ctxIn hin)
    exact digestFeedHost_begins hk hopen hwait hturn hidle hslot hin hout hat hsome hfits hlen
  case medium =>
    intro hin hout hat hsome hgood hstaged
    obtain rfl := cid_of_ctxOf (ctxOf_of_ctxIn hin)
    exact digestFeedMedium_begins hk hopen hwait hturn hidle hslot hin hout hat hsome hgood hstaged
  case save =>
    intro list hin hlist
    obtain rfl := cid_of_ctxOf (ctxOf_of_ctxIn hin)
    exact digestSave_writes hk hopen hwait hturn hidle hslot hin hlist
  case done =>
    obtain rfl : c.cid = cid := cid_of_ctxOf (hcid ▸ hc)
    rw [hcid] at hc
    obtain ⟨t, ht⟩ : ∃ t, t = absorbed s pipe c.cid (c.chunkAt + k.bytes) := ⟨_, rfl⟩
    have hpipes : t.dig.pipes = s.dig.pipes.filter (fun p => p.1 != pipe) := by rw [ht, absorbed_dig]
    have hct : ctxOf t c.cid = some (atChunk (c.chunkAt + k.bytes) c) := by rw [ht, ctxOf_absorbed hc]
    refine ⟨fun hmore hgoes hready hothers hstaged => chunkDone_continues hpipe hc hcid hst hrun hmore hgoes hready hothers hstaged, fun hlast => ?_⟩
    have hexec : exec (.digestChunkDone pipe) s = .next (digestDone t c) := by rw [ht, chunkDone_performs hpipe hc hcid hst hrun hlast]
    refine ⟨fun hop => ?opens, fun x hx hopen => ?named⟩
    case opens =>
      obtain ⟨x, hx, hslot, -, hd, hended⟩ := opened_openDone hct (c.gotSlot.getD 0)
        (absorb (digFresh (bits (eCdw c.dw 0) 3 0) true) (keyBlock (bits (eCdw c.dw 0) 3 0) (bits (eCdw c.dw 0) 5 5) c.stream))
      rw [digestDone_opens hop] at hexec
      exact ⟨_, ⟨hexec, (openDone_pipes ..).trans hpipes⟩, x, hx, hended, hslot, hd⟩
    case named =>
      have hxt : namedDig t c = some x := by rw [ht, namedDig_absorbed, hx]
      have hmem : x ∈ t.dig.ctxs := List.mem_of_find?_eq_some hxt
      refine ⟨fun hop => ?host, fun hop => ?medium, fun hop hmatch => ?final⟩
      case host =>
        rw [digestDone_fedHost hxt hopen hop] at hexec
        exact ⟨_, ⟨hexec, (fedTo_pipes ..).trans hpipes⟩, fedTo_held hmem hopen .., fedTo_endedWith hct ..⟩
      case medium =>
        have hblocks : readBlocks t c = readBlocks s c := readBlocks_of_map (by rw [ht, absorbed_map]) c
        rw [digestDone_fedMedium hxt hopen hop, hblocks] at hexec
        exact ⟨_, ⟨hexec, (fedTo_pipes ..).trans hpipes⟩, fedTo_held hmem hopen .., fedTo_endedStatus hct ..⟩
      case final =>
        obtain ⟨hgone, hended, hout⟩ := finalDone_writes hct (k := x) (c.stream.take (bits (eCdw c.dw 1) 16 0)) hmatch
          (c.stream.drop (bits (eCdw c.dw 1) 16 0))
        have hsent : t.out = s.out := by rw [ht, absorbed_out]
        rw [digestDone_final hxt hopen hop] at hexec
        exact ⟨_, ⟨hexec, (finalDone_pipes ..).trans hpipes⟩, hgone, hended, hsent ▸ hout⟩

end Sys2Proof.Proofs
end
